-- ==== Sys2Proof/Word.lean ====
section
/-! DEFINITION. The word types of the KZ7 model and the sparse table and byte memory it is held in: the types and their
plainest operations, nothing that a rule of the spec decides. -/

namespace Sys2Proof

/-- One byte. -/
abbrev Byte := BitVec 8
/-- A register word (00_scope.md: registers are 32 bits wide). -/
abbrev Word := BitVec 32
/-- A data word: one bit for each of the 64 lanes (02_rooms.md, Lanewise evaluation). -/
abbrev Lanes := BitVec 64
/-- A 64-bit beat number (R19). -/
abbrev Beat := BitVec 64
/-- A room number (R12). -/
abbrev RoomId := BitVec 8
/-- A function ID (R111). -/
abbrev FuncId := BitVec 16
/-- A byte string. -/
abbrev Bytes := List Byte
/-- Device time in units of 2^-32 ns (R225). -/
abbrev Instant := Nat

/-- A sparse table: entries in strictly rising key order, no entry equal to the table's default value. -/
abbrev Tbl (α : Type) := List (Nat × α)

namespace Tbl

/-- The value at a key; the default `d` where the table lists none. -/
def get {α : Type} (d : α) : Tbl α → Nat → α
  | [], _ => d
  | (k, v) :: t, i => if i = k then v else get d t i

/-- Remove a key. -/
def erase {α : Type} : Tbl α → Nat → Tbl α
  | [], _ => []
  | (k, v) :: t, i => if i = k then erase t i else (k, v) :: erase t i

/-- List a value at a key, whatever the value is. -/
def insert {α : Type} : Tbl α → Nat → α → Tbl α
  | [], i, a => [(i, a)]
  | (k, v) :: t, i, a =>
    if i = k then (i, a) :: t else if i < k then (i, a) :: (k, v) :: t else (k, v) :: insert t i a

/-- Store a value: a value equal to the default removes the entry, so that equal tables are equal lists. -/
def set {α : Type} [DecidableEq α] (d : α) (t : Tbl α) (i : Nat) (a : α) : Tbl α :=
  if a = d then t.erase i else t.insert i a

/-- Change the value at a key. -/
def modify {α : Type} [DecidableEq α] (d : α) (t : Tbl α) (i : Nat) (f : α → α) : Tbl α :=
  t.set d i (f (t.get d i))

/-- Change every listed value; values that become the default are no longer listed. -/
def mapAll {α : Type} [DecidableEq α] (d : α) : Tbl α → (α → α) → Tbl α
  | [], _ => []
  | (k, v) :: t, f => if f v = d then erase (mapAll d t f) k else (k, f v) :: mapAll d t f

/-- The keys a table lists. -/
def keys {α : Type} (t : Tbl α) : List Nat := t.map (·.1)

/-- The canonical form: keys strictly rising and no entry equal to the default. -/
def wf {α : Type} [DecidableEq α] (d : α) (t : Tbl α) : Bool :=
  decide ((t.map (·.1)).Pairwise (· < ·)) && t.all (fun e => decide (e.2 ≠ d))

end Tbl

end Sys2Proof
end

