-- ==== Sys2Proof/Syntax.lean ====
section
/-! DEFINITION. The commands of the KZ7: one constructor of `Instr` for each row of spec/opcode_table.json, in the table's
order, with the operands that say WHICH part the step is about and WHAT arrives from outside in it (a word of host memory, a
frame on a lane, a sensor reading, what an error-correcting code finds). Everything a step computes comes from the state. -/

namespace Sys2Proof

/-- What a SECDED check finds in the words a step reads (R62, R157, R433). -/
inductive Ecc where
  | ok | corrected | uncorrectable
  deriving DecidableEq, Repr

/-- What an instruction's checks find: on its fetch, in each data-store word it reads (in the order of `readAddrs`; the words after the
list's end are good), in the bank word it reads, and slice parity (R62). -/
structure Upset where
  fetch : Ecc := .ok
  data : List Ecc := []
  bank : Ecc := .ok
  parity : Bool := false
  deriving DecidableEq, Repr

/-- A requester of the register interface: a PCIe function (0 the PF, 1 to 63 a VF) or a control core (R448). -/
inductive Requester where
  | fn (n : BitVec 6)
  | core (c : BitVec 4)
  deriving DecidableEq, Repr

/-- A node of the network as header fields DEST and SRC code it (R137): a room, or a hub unit by its code. -/
inductive Node where
  | room (r : RoomId)
  | hub (u : BitVec 8)
  deriving DecidableEq, Repr

/-- A link direction: ring 0 to 15 a corridor, 16 to 31 a stair; its link; ascending or descending (R132, R152). -/
structure LinkDir where
  ring : BitVec 5
  link : BitVec 5
  descending : Bool
  deriving DecidableEq, Repr

/-- Who receives a DECISION: a room, or the hub units that hold a function's results (R90). -/
inductive Recipient where
  | room (r : RoomId)
  | hub (f : FuncId)
  deriving DecidableEq, Repr

/-- A read stream of one virtual room and replica of a function (R116). -/
structure StreamRef where
  func : FuncId
  vroom : BitVec 8
  rep : BitVec 8
  stream : BitVec 4
  deriving DecidableEq, Repr

/-- A slot of a submission ring: the descriptor that a host command executes (R342). -/
structure DescRef where
  ring : BitVec 9
  slot : BitVec 12
  deriving DecidableEq, Repr

/-- Requester kinds of the cellar: those of its queues, coded as CELLAR_Q_CFG.KIND (R190), and the window BAR4. -/
inductive QKind where
  | room | copy | core | feed | flow
  /-- the PF cellar window BAR4, which goes by no queue (R185) -/
  | bar
  deriving DecidableEq, Repr

/-- What the stack's ECC finds in a 128-byte line and in its metadata (R157, R169): `word` and `metaWord` say which 64-bit word of each is the
uncorrectable one. -/
structure LineEcc where
  metaCorrected : Bool := false
  dataCorrected : Nat := 0
  uncorrectable : Bool := false
  word : BitVec 4 := 0
  metaUncorrectable : Bool := false
  metaWord : Bool := false
  deriving DecidableEq, Repr

/-- A data set that an Announce message carries (R232): clock quality is class, accuracy and variance in their order. -/
structure DataSet where
  prio1 : BitVec 8 := 128
  quality : BitVec 32 := 0
  prio2 : BitVec 8 := 128
  gmId : BitVec 64 := 0
  steps : BitVec 16 := 0
  deriving DecidableEq, Repr

/-- The PTP messages of IEEE 1588-2019 that R234 to R237 speak of; Sync, Delay_Req, Pdelay_Req and Pdelay_Resp are event messages. -/
inductive PtpKind where
  | sync | delayReq | pdelayReq | pdelayResp | announce | delayResp | management | other
  deriving DecidableEq, Repr

/-- A PTP message. `origin` is its originTimestamp, or requestReceiptTimestamp of a peer delay response, and `response` the latter's
responseOriginTimestamp, as 48 bits of seconds and 32 of ns; `correction` counts 2^-16 ns. `check` is the UDP checksum over IPv4, or the two-octet
trailer over IPv6 (R236). -/
structure PtpMsg where
  kind : PtpKind := .other
  domain : BitVec 8 := 127
  twoStep : Bool := false
  correction : BitVec 64 := 0
  origin : BitVec 80 := 0
  response : BitVec 80 := 0
  data : DataSet := {}
  check : BitVec 16 := 0
  deriving DecidableEq, Repr

/-- An Ethernet frame as a port's classifier sees it (R193, R194). -/
structure EthFrame where
  fcsOk : Bool := true
  macControl : Bool := false
  length : BitVec 14 := 64
  tags : BitVec 2 := 0
  vlan : BitVec 13 := 0
  ethertype : BitVec 16 := 0x0800
  ipver : BitVec 8 := 4
  fragment : Bool := false
  udp : Bool := true
  dport : BitVec 16 := 0
  daddr : BitVec 128 := 0
  saddr : BitVec 128 := 0
  ssrc : BitVec 32 := 0
  seq : BitVec 16 := 0
  /-- FEC codewords corrected and found uncorrectable since the frame before (R222) -/
  fecCorrected : Nat := 0
  fecUncorrectable : Nat := 0
  /-- the PTP message in it -/
  ptp : Option PtpMsg := none
  deriving DecidableEq, Repr

/-- A received SDI line (R197). -/
structure SdiLine where
  crcErrors : Nat := 0
  trsError : Bool := false
  pid : Bool := true
  rate : BitVec 4 := 0
  raster : BitVec 4 := 0
  frate : BitVec 4 := 0
  samp : BitVec 4 := 0
  /-- ANC packets with a good checksum -/
  anc : List Bytes := []
  ancBad : Nat := 0
  deriving DecidableEq, Repr

/-- A reference to an ingress or egress, as R215 codes it. -/
abbrev EndRef := BitVec 32

/-- A group of samples at a feed: its place in the raster, the nominal time of its last sample, and one list of up to 64 lane values for each
component (R208, R211). -/
structure Group where
  line : BitVec 16 := 0
  index : BitVec 12 := 0
  last : Bool := false
  field : Bool := false
  frame : BitVec 16 := 0
  lastNominal : Nat := 0
  comps : List (List (BitVec 32)) := []
  frameEnd : Bool := false
  complete : Bool := true
  deriving DecidableEq, Repr

/-- A read stream that issues, with what the check bits of the lines that it reads show. -/
structure StreamRead where
  st : StreamRef
  ecc : List LineEcc := []
  deriving DecidableEq, Repr

/-- A CELLAR_COPY descriptor that runs, with what the check bits of the lines that it reads show. -/
structure CopyRead where
  desc : DescRef
  ecc : List LineEcc := []
  deriving DecidableEq, Repr

/-- A group that reaches a feed, with its RTP timestamp where it comes from a flow (an audio group's that of its own sample instant, R208) and what
the check bits of the lines that a frame-store feed reads for it show. -/
structure FedGroup extends Group where
  rtp : BitVec 32 := 0
  ecc : List LineEcc := []
  deriving DecidableEq, Repr

/-- A lane with the number of errors that its receiver or checker found, the most of them within 64 symbols, and whether it lost lock (R253). -/
structure LaneErrors where
  lane : BitVec 7
  errors : Nat := 0
  within64 : Nat := 0
  lockLost : Bool := true
  deriving DecidableEq, Repr

/-- A Bilben frame's header (R260), payload and CRC, and the lane that carries it. -/
structure Frame where
  lane : BitVec 3 := 0
  seq : BitVec 12 := 0
  ack : BitVec 12 := 0
  nak : Bool := false
  type : BitVec 3 := 0
  cls : BitVec 2 := 2
  vc : Bool := false
  dest : BitVec 11 := 0
  src : BitVec 11 := 0
  len : BitVec 6 := 0
  bpar : Bool := false
  att : Bool := false
  last : Bool := true
  payload : BitVec 384 := 0
  crc : BitVec 32 := 0
  deriving DecidableEq, Repr

/-- A beat marker (R267), the lane of its bundle that carries it, and the time it arrived at the PCS boundary. -/
structure Marker where
  lane : BitVec 3 := 0
  beatValid : Bool := false
  hops : BitVec 6 := 63
  beat : Beat := 0
  tx : Nat := 0
  rxLast : Nat := 0
  devid : BitVec 11 := 0
  crc : BitVec 32 := 0
  arrival : Nat := 0
  deriving DecidableEq, Repr

/-- An access of the JTAG memory port: the byte that it writes, or, for a read, what the stack's ECC finds in the 128 bytes around it. -/
inductive JtagAccess where
  | read (ecc : LineEcc)
  | write (b : Byte)
  deriving DecidableEq, Repr

/-- A data access of a retired core instruction: `amo` is 1 for AMOADD and AMOSWAP, 2 for another AMO, 3 for LR and SC; `signed` says that what
it loads is sign-extended; `value` is what it stores, or what it loads through the register view; `ecc` is what the check bits of the
shared SRAM word that it reads show (R433): 0 good, 1 corrected, 2 uncorrectable; `line` those of the cellar line that it reaches (R157). -/
structure CoreAccess where
  store : Bool
  amo : BitVec 2 := 0
  addr : BitVec 64
  log2 : BitVec 2
  signed : Bool := true
  value : BitVec 64 := 0
  ecc : BitVec 2 := 0
  line : LineEcc := {}
  deriving DecidableEq, Repr

/-- What a control core's retired instruction did to its architectural state (R367, R390): the RISC-V instruction set itself is
outside the spec, so its outcome is the command's operand. -/
inductive Retired where
  | plain (rd : BitVec 5) (value : BitVec 64) (compressed : Bool)
  | branch (taken : Bool) (target : BitVec 64) (compressed : Bool)
  | jump (indirect : Bool) (target : BitVec 64) (rd : BitVec 5) (link : BitVec 64)
  | access (a : CoreAccess) (rd : BitVec 5) (compressed : Bool)
  | csr (n : BitVec 12) (value : BitVec 64) (rd : BitVec 5) (old : BitVec 64)
  | trap (cause : BitVec 64) (handler : BitVec 64)
  | mret (target : BitVec 64)
  deriving DecidableEq, Repr

/-- The PCIe link after a change (R339, R365): whether it is up, its generation and its width. -/
structure PcieLink where
  up : Bool := true
  gen : BitVec 3 := 5
  width : BitVec 5 := 16
  deriving DecidableEq, Repr

/-- Causes of a wipe by the tamper sensors (R436). -/
inductive Tamper where
  | voltage | clock | temperature | glitch | intrusion
  deriving DecidableEq, Repr

/-- The part of the configuration a scrub step reads (R327). -/
inductive ScrubUnit where
  | room (r : RoomId)
  | block (b : BitVec 6)
  | ring (k : BitVec 5)
  deriving DecidableEq, Repr

/-- What a scrub step finds in one word: good, one or more bits wrong, and whether the golden copy can be read (R328–R330).
`select` marks a select of a fabric cell (R289). A read-back reads the word's frame of 64 words (R329): `also` gives its other words that are wrong,
with their wrong bits and select mark. `last` says that a cycle is complete with this read (R338). -/
structure ScrubFind where
  bits : Nat := 0
  goldenOk : Bool := true
  select : Bool := false
  word : Nat := 0
  also : List (Nat × Nat × Bool) := []
  last : Bool := false
  deriving DecidableEq, Repr

/-- Supply rails (R458). -/
inductive Rail where
  | vcore (w : BitVec 2) | vhub | vsram | vlane | vlaneT | vddqHbm | vppHbm | vaux | vccio (k : BitVec 3)
  deriving DecidableEq, Repr

/-- How a start-up stage ended (R464, R465). -/
inductive StageEnd where
  | done | flashFailed | deferred
  deriving DecidableEq, Repr

/-- TAP instructions (R483). -/
inductive TapInstr where
  | extest | idcode | sample | clamp | highz | extestPulse | extestTrain | bypass | other (code : BitVec 8)
  deriving DecidableEq, Repr

/-- A pin of the boundary register (R484): user I/O; a clock, time, configuration, management or reset pin; a lane's or PCIe lane's transmitter or
receiver. -/
inductive BoundaryPin where
  | userIo (i : Nat) | clock (i : Nat) | time (i : Nat) | config (i : Nat) | management (i : Nat) | reset (i : Nat)
  | laneTx (l : BitVec 7) | laneRx (l : BitVec 7) | pcieTx (l : BitVec 4) | pcieRx (l : BitVec 4)
  deriving DecidableEq, Repr

/-- An instruction of the TAP, with what the pins show and what is shifted into the boundary register (R484). -/
structure TapScan where
  instr : TapInstr
  pins : List (BoundaryPin × Bool) := []
  scan : List (BoundaryPin × Bool) := []
  deriving DecidableEq, Repr

/-- A signed life-cycle or key command's check results that rest on cryptography (R439). -/
abbrev SigOk := Bool

/-- The commands of the block. -/
inductive Instr where
  | beatBoundary
  | beatStart
  | eval (r : RoomId) (b : BitVec 7) (u : Upset)
  | send (r : RoomId) (b : BitVec 7) (u : Upset)
  | mrd (r : RoomId) (b : BitVec 7) (u : Upset)
  | mwr (r : RoomId) (b : BitVec 7) (u : Upset)
  | sli (r : RoomId) (b : BitVec 7) (u : Upset)
  | slr (r : RoomId) (b : BitVec 7) (u : Upset)
  | lvb (r : RoomId) (b : BitVec 7) (u : Upset)
  | nopInstruction (r : RoomId) (b : BitVec 7) (u : Upset)
  | levelWaitEnd (r : RoomId)
  | sliceResultReady (r : RoomId) (sl : BitVec 3)
  | readStreamIssue (st : StreamRead)
  | streamWords (st : StreamRef)
  | xchPacket (src dst : Node) (step : BitVec 17)
  | vote (r : RoomId)
  | verdict (st : StreamRef)
  | voteDeadline (f : FuncId)
  | decision (dest : Recipient)
  | lateStall (r : RoomId)
  | remoteDecision (dev : BitVec 11) (f : FuncId) (beat : Beat) (commit : Bool)
  | drainRelease (f : FuncId) (d : BitVec 8)
  | flitCrcError (l : LinkDir)
  | linkDown (l : LinkDir)
  | linkRetrainDone (l : LinkDir)
  | linkRetrainRetry (l : LinkDir)
  | ringHoldEnd (k : BitVec 5)
  | cellarRead (k : QKind) (q : BitVec 9) (addr : BitVec 34) (ecc : LineEcc)
  | rowRepairDone (pc : BitVec 4)
  | cellarWrite (k : QKind) (q : BitVec 9) (addr : BitVec 34) (mask : BitVec 128) (data : BitVec 1024) (ecc : LineEcc)
  | writeBack (ecc : LineEcc)
  | sweepLine (e : BitVec 2) (ecc : LineEcc)
  | metadataClearDone
  | patrolRead (addr : BitVec 34) (ecc : LineEcc)
  | stackTempRead (t : BitVec 8)
  | keyRetireRefsZero (k : BitVec 6)
  | keyRetireTimeout (k : BitVec 6)
  | rgnEnable (q : Requester) (n : BitVec 8) (v : Word)
  | qWslotChange (rq : Requester) (q : BitVec 9) (v : Word)
  | fsOpen (q : Requester) (f : BitVec 6) (v : Word)
  | ethFrame (port : BitVec 3) (sub : BitVec 2) (fr : EthFrame)
  | seqLossTimeout (flow : BitVec 10)
  | legDown (flow : BitVec 10) (legB : Bool)
  | packetRelease (flow : BitVec 10) (skew : Nat)
  | sdiLine (e : BitVec 5) (l : SdiLine)
  | sdiLockChange (e : BitVec 5) (locked : Bool) (l : SdiLine)
  | feedGroup (ref : EndRef) (g : FedGroup)
  | feedDeadline (ref : EndRef) (expected : Nat)
  | egressGroup (e : BitVec 11)
  | forceApply (e : BitVec 11)
  | servoMeasurement (offset : Int)
  | timeSetAbsolute (d : DescRef)
  | timeSetStep (d : DescRef)
  | timeSetAccept (d : DescRef)
  | incrWrite (q : Requester) (v : Word)
  | periodWrite (q : Requester) (v : Word)
  | freestart (q : Requester)
  | refLoss
  | refHoldoverEnd
  | tdcEdge (i : BitVec 4) (falling : Bool)
  | tdcPop (q : Requester) (i : BitVec 4)
  | ppsOutEdge
  | ppsLoss
  | stoppedMarker
  | beatMarkerRx (bd : BitVec 4) (m : Marker)
  | upstreamLoss
  | cdrLock (l : BitVec 7)
  | alignDone (l : BitVec 7)
  | laneLoss (l : LaneErrors)
  | adaptDone (l : BitVec 7)
  | eyeStart (q : Requester) (l : BitVec 7) (v : Word)
  | eyeScanDone (l : BitVec 7) (grid : Tbl (BitVec 31))
  | prbsLock (l : LaneErrors)
  | linkFrame (bd : BitVec 4) (fr : Frame)
  | retryTimeout (bd : BitVec 4)
  | nullFrame (bd : BitVec 4)
  | laneAdvertise (bd : BitVec 4)
  | laneDegrade (bd : BitVec 4) (lane : BitVec 3)
  | bundleDown (bd : BitVec 4)
  | remoteQuery (from_ : BitVec 11) (target : BitVec 64) (words : BitVec 9)
  | applied (ring : BitVec 9) (seq : BitVec 64) (status : BitVec 8)
  | decisionDigest (crc : BitVec 64)
  | mirrorSplit
  | hpTxWord (p : BitVec 6) (idx : BitVec 6) (w : Lanes)
  | hpClose (p : BitVec 6)
  | hpRxPresent (p : BitVec 6)
  | uevEdge (u : BitVec 7) (rising : Bool)
  | pllLockChange (k : BitVec 3) (lock : Bool)
  | fabricRelease (q : Requester)
  | releaseStage
  | vccioMatch (k : BitVec 3) (cls : BitVec 3)
  | iodlyStep (i : BitVec 9)
  | fabricBlockWritten
  | roomWritten (r : RoomId)
  | retireClearDone (f : FuncId)
  | seedLog (r : RoomId)
  | endMark (r : RoomId)
  | essentialScrub (u : ScrubUnit) (x : ScrubFind)
  | backgroundReadback (u : ScrubUnit) (x : ScrubFind)
  | scrubRewrite (r : RoomId) (b : BitVec 7) (i : BitVec 9) (goldenOk : Bool)
  | firmwareReady
  | fwStartTimeout
  | sqPi (q : Requester) (ring : BitVec 9) (v : Word)
  | cqCi (q : Requester) (ring : BitVec 9) (v : Word)
  | descriptorFetch (ring : BitVec 9) (slot : Option (BitVec 512))
  | hostMemoryRead (d : DescRef) (data : Option Bytes)
  | irqCoalesceTimer (ring : BitVec 9)
  | nop (d : DescRef)
  | fence (d : DescRef)
  | funcAdmit (d : DescRef)
  | funcRetire (d : DescRef)
  | funcMigrate (d : DescRef)
  | paramAt (d : DescRef)
  | flowOpen (d : DescRef)
  | flowClose (d : DescRef)
  | routeAt (d : DescRef)
  | imageStage (d : DescRef)
  | imageApply (d : DescRef)
  | cellarCopy (x : CopyRead)
  | keyLoad (d : DescRef)
  | keyRetire (d : DescRef)
  | sweep (d : DescRef)
  | acqArm (d : DescRef)
  | beatSlip (d : DescRef)
  | mirrorForm (d : DescRef) (partner : List (FuncId × BitVec 256))
  | mirrorDissolve (d : DescRef)
  | abort (d : DescRef)
  | pairEnable (q : Requester) (ring : BitVec 9) (v : Word)
  | attach (q : Requester) (ring : BitVec 9)
  | flr (view : BitVec 6)
  | perstN (high : Bool)
  | coreRun (q : Requester) (c : BitVec 4) (v : Word)
  | coreHold (q : Requester) (c : BitVec 4) (v : Word)
  | coreLoadData (q : Requester) (c : BitVec 4) (write : Option Word)
  | coreInstruction (c : BitVec 4) (x : Retired) (cycles : BitVec 32)
  | coreWfi (c : BitVec 4)
  | coreWake (c : BitVec 4) (asleep : BitVec 64)
  | watchdogExpiry (c : BitVec 4)
  | kick (c : BitVec 4)
  | done (c : BitVec 4)
  | post (c : BitVec 4) (v : Word)
  | timerArm (q : Requester) (i : BitVec 6) (v : Word)
  | timerFire (i : BitVec 6)
  | eventOccurrence (ev : BitVec 10) (detail : BitVec 64)
  | traceSyncTimer (c : BitVec 4)
  | traceRpWrite (q : Requester) (stream : BitVec 5) (v : Word)
  | acqRecord (u : BitVec 4) (payload : List (BitVec 64)) (fill : BitVec 17)
  | acqTrigger (u : BitVec 4) (step : BitVec 17) (frac : BitVec 6)
  | acqForce (q : Requester) (u : BitVec 4)
  | acqDisarm (q : Requester) (u : BitVec 4)
  | fuseClassify
  | fuseAck (q : Requester) (v : Word)
  | fuseRelease
  | attReq (q : Requester) (v : Word)
  | attReportReady
  | provision (sigOk : SigOk)
  | deploy (sigOk : SigOk)
  | return_ (sigOk : SigOk)
  | decommission (sigOk : SigOk)
  | keyRevoke (sigOk : SigOk)
  | arbAdvance (sigOk : SigOk)
  | debugUnlock (sigOk : SigOk)
  | debugUnlockExpiry
  | lockedDebugAccess
  | tamperTrip (t : Tamper)
  | rngHealthFail (ok : Bool)
  | sramBankPower (q : Requester) (hi : Bool) (v : Word)
  | sramClearDone (b : BitVec 6)
  | porstN
  | powerGood
  | railFault (r : Rail) (back : Bool)
  | startupStage (x : StageEnd)
  | bootgo (q : Requester) (window : Bytes)
  | warmrstN (high : Bool)
  | warm (q : Requester)
  | hubReturn
  | ceilingWrite (q : Requester) (v : Word)
  | powerReading (total hub : BitVec 16)
  | vcoreStep (w : BitVec 2) (meas : BitVec 16) (ack : Bool)
  | avsRetry (w : BitVec 2) (ok : Bool)
  | thermalSample (k : BitVec 6) (t : BitVec 16)
  | xdRead (q : Requester) (lane : Bool)
  | xdWrite (q : Requester) (lane : Bool) (v : Word)
  | xdTimeout (q : Requester) (lane : Bool) (write : Bool)
  | latchedRead (q : Requester) (addr : BitVec 26)
  | counterClear (q : Requester) (addr : BitVec 26) (v : Word)
  | registerWrite (q : Requester) (addr : BitVec 26) (v : Word) (be : BitVec 4)
  | sourceLoss
  | subportUpDown (port : BitVec 3) (sub : BitVec 2) (up : Bool)
  | pcieLinkChange (x : PcieLink)
  | pfPowerStateChange (d3 : Bool)
  | porstNRelease
  | tapInstruction (x : TapScan)
  | jtagMemoryPortAccess (addr : BitVec 34) (x : JtagAccess)
  deriving DecidableEq, Repr

end Sys2Proof
end

