-- ==== Sys2Proof/Config.lean ====
section
/-! DEFINITION. What the spec leaves free, as constants without a body: nothing can compute a value of them, so whatever is proved
holds for every value. Each is named in a log entry. -/

namespace Sys2Proof

/-- The word that a read of an uncorrectable word returns (R62 gives its effects and no value; log entry 8). -/
opaque Config.ueWord : Nat → Lanes
/-- What a read of group history before the pass or of an SLR without a result returns (the loader refuses both, R38, R59; only
a corrupted instruction reaches them; log entry 9). -/
opaque Config.openOperand : Nat → Lanes

/-- The plaintext of a line with an uncorrectable word (R169 gives its verdict and no value; log entry 8). -/
opaque Config.ueLine : Nat → BitVec 1024
/-- The device's fused seed (R427; log entry 12). -/
opaque Config.seed : Bytes
/-- Output of the random source (R428; log entry 12). -/
opaque Config.random : Nat → BitVec 256
/-- An ML-DSA public key by parameter set, 44 or 65, and seed (R427; log entry 12). -/
opaque Config.mldsaPub : Nat → BitVec 256 → Bytes
/-- An ML-DSA signature by parameter set, key seed, message and random value (R430; log entry 12). -/
opaque Config.mldsaSign : Nat → BitVec 256 → Bytes → BitVec 256 → Bytes
/-- ML-DSA verification by parameter set, public key, message and signature (R317; log entry 12). -/
opaque Config.mldsaVerify : Nat → Bytes → Bytes → Bytes → Bool

/-- SHA3-256 of the user-visible fuse array, whose layout is not given, by life-cycle state, cycles, disabled rooms and owner keys (R430; log
entry 12). -/
opaque Config.fuseHash : Nat → Nat → List Nat → List (Nat × Nat × Nat × Bool) → BitVec 256
/-- Spare columns that Urelayn test put into use in a bank of shared SRAM (R433; log entry 12). -/
opaque Config.spareCols : Nat → BitVec 8
/-- SHA3-256 of the header, the SECVER and the VERSION of the firmware that the configuration flash holds (R429, R464; log entry 12). -/
opaque Config.flashHash : BitVec 256
opaque Config.flashSecver : BitVec 8
opaque Config.flashVersion : BitVec 32

/-- SHA3-256 of the Urelayn firmware key that the foundation ROM holds (R308, R431; log entry 12). -/
opaque Config.romKey : BitVec 256
/-- SHA3-256 of the foundation ROM (R429; log entry 12). -/
opaque Config.romHash : BitVec 256
/-- Whether a firmware body has Urelayn's format, which is internal (R307, R317; log entry 33). -/
opaque Config.firmwareOk : List Byte → Bool

/-- The VERSION that a firmware body carries; its format is internal (R307, R407; log entry 33). -/
opaque Config.firmwareVersion : List Byte → BitVec 32
/-- What the devices on the way to a REMOTE target say for an admission's path check (R273), by open value and target: the latency in ns of the hops
after the first for words and for decisions, whether those hops have room for its frames, and the receiver's vote deadline in 10 ps units. The
spec does not say how the figures reach the loader (log entry 37). -/
opaque Config.farWords : Nat → BitVec 64 → Nat
opaque Config.farDecision : Nat → BitVec 64 → Nat
opaque Config.farRoom : Nat → BitVec 64 → Bool
opaque Config.farDeadline : Nat → BitVec 64 → Nat

/-- The INCR that the servo asks for (R231 bounds its changes and gives no law; log entry 14). -/
opaque Config.servoIncr : Nat → Nat
/-- The device's own clock identity (R232), which the spec does not give (log entry 152). -/
opaque Config.clockId : BitVec 64

/-- The setpoint in mV that a wing's path monitors ask for (R469 gives its bounds; log entry 51). -/
opaque Config.vcore : Nat → Nat
/-- RXLAT, TXLAT and ASYM that firmware loads when a port is enabled (R235 gives the load and no values; log entry 181). -/
opaque Config.portTiming : Nat → BitVec 32
/-- The wait of a beat marker for the first symbol boundary after its instant, within one symbol, in 2^-32 ns (R267; log entry 185). -/
opaque Config.symbolWait : Nat → Nat
/-- The latencies that firmware supplies for a lane's transmitter and receiver, in 2^-32 ns (R267 names them and gives no values; log entry 185). -/
opaque Config.laneTxLat : Nat → Nat
opaque Config.laneRxLat : Nat → Nat
/-- UDP checksum or trailer of a PTP message that the device originates, which covers fields the spec does not name (R236; log entry 152). -/
opaque Config.ptpCheck : Nat → BitVec 16
/-- The value of a loop of LUTs, and that of a flip-flop whose input has not settled in time (R285, R286 give none; log entry 188). -/
opaque Config.fabricLoop : Nat → Bool
opaque Config.fabricLate : Nat → Nat → Bool
/-- The check bits of a block RAM's word in SECDED mode (R290 names no code; log entry 188). -/
opaque Config.ramCode : BitVec 64 → BitVec 8
/-- Which port's access comes first where two on different clocks meet: true for port A (R291; log entry 188). -/
opaque Config.ramOrder : Nat → Nat → Bool
/-- The level that the world outside gives a user I/O (R303; log entry 189). -/
opaque Config.pinLevel : Nat → Nat → Bool
/-- The phase of a global clock against device time, in 2^-32 ns (R292 gives none; log entry 188). -/
opaque Config.clockPhase : Nat → Nat

end Sys2Proof
end

