-- ==== Sys2Proof/Machine/State/Base.lean ====
section
/-! DEFINITION. The plain data that several blocks share: saturating counters, events in flight, byte memory, verdicts,
and the record of what left the device. -/

namespace Sys2Proof.Machine
open Sys2Proof

/-- A statistic counter with its SAT bit (R9): 31 bits of COUNT below SAT. -/
structure Cnt where
  count : BitVec 31 := 0
  sat : Bool := false
  deriving DecidableEq, Repr

/-- One byte memory: the cells whose byte differs from the reset byte 0, addresses strictly rising (log entry 4). -/
abbrev Memory := List Host.Cell

/-- An event occurrence on its way to the scheduler and the fuse box (R387, R409): source, timestamp at the source (R106), DETAIL,
and for a room or function event the beat and function it bears on (R415). -/
structure Occ where
  ev : BitVec 10
  ts : Nat
  detail : BitVec 64 := 0
  beat : Beat := 0
  deriving DecidableEq, Repr

/-- What a cellar read is answered with (R169). Codes 0 to 7 in the order of R169's table. -/
inductive Verdict where
  | good | corrected | unwritten | suspect | macFail | poison | ue | slotMiss
  deriving DecidableEq, Repr

/-- A commit decision as the DECISION message carries it (R90). -/
structure Decision where
  func : FuncId
  beat : Beat
  commit : Bool
  cause : BitVec 4
  deriving DecidableEq, Repr

/-- The VOTE payload (R84). -/
structure Vote where
  func : FuncId
  vroom : BitVec 8
  set : Bool
  restart : Bool
  status : BitVec 3
  beat : Beat
  crc : BitVec 64
  /-- the room that sent it -/
  room : RoomId
  deriving DecidableEq, Repr

end Sys2Proof.Machine
end

