-- ==== Sys2Proof/Machine/Bits.lean ====
section
/-! DEFINITION. Bit fields, byte orders, checksums and counters that several blocks use. -/

namespace Sys2Proof.Machine
open Sys2Proof

/-- Bits [lo + n - 1 : lo] of a number. -/
def fld (w lo n : Nat) : Nat := (w >>> lo) % 2 ^ n

/-- Bit k of a number. -/
def bitOf (w k : Nat) : Bool := w.testBit k

/-- A truth value as a bit of weight 2^k. -/
def bit (b : Bool) (k : Nat) : Nat := if b then 2 ^ k else 0

/-- Little-endian bytes as a number (R110). -/
def leNat : Bytes → Nat
  | [] => 0
  | b :: t => b.toNat + 256 * leNat t

/-- A number as n little-endian bytes (R110). -/
def leBytes : Nat → Nat → Bytes
  | 0, _ => []
  | n + 1, w => BitVec.ofNat 8 w :: leBytes n (w / 256)

/-- `n` bytes of a byte string from an offset; bytes past its end are left out. -/
def slice (bs : Bytes) (off n : Nat) : Bytes := (bs.drop off).take n

/-- The little-endian number of `n` bytes at an offset. -/
def leAt (bs : Bytes) (off n : Nat) : Nat := leNat (slice bs off n)

/-- `ceil (a / b)`. -/
def ceilDiv (a b : Nat) : Nat := (a + b - 1) / b

/-- One more event on a saturating counter; at the maximum the SAT bit is set and the count stays (R9). -/
def Cnt.bump (c : Cnt) : Cnt :=
  if c.count.toNat + 1 < 2 ^ 31 - 1 then { c with count := c.count + 1 } else { count := BitVec.allOnes 31, sat := true }

/-- `n` more events on a saturating counter (R9). -/
def Cnt.bumpBy (c : Cnt) : Nat → Cnt
  | 0 => c
  | n + 1 => if c.count.toNat + (n + 1) < 2 ^ 31 - 1 then { c with count := c.count + BitVec.ofNat 31 (n + 1) }
             else { count := BitVec.allOnes 31, sat := true }

/-- A counter as its register reads: SAT in bit 31 above COUNT (R9). -/
def Cnt.toWord (c : Cnt) : Word := BitVec.ofNat 32 (bit c.sat 31 + c.count.toNat)

/-- One more event on counter `n` of a table of counters. -/
def bumpAt (t : Tbl Cnt) (n : Nat) : Tbl Cnt := Tbl.modify {} t n Cnt.bump

/-- One bit of a reflected CRC with polynomial `poly` (already reflected). -/
def crcBit (poly crc : Nat) : Nat := if crc % 2 = 1 then (crc / 2) ^^^ poly else crc / 2

/-- One byte of a reflected CRC. -/
def crcByte (poly crc : Nat) (b : Byte) : Nat :=
  let c := crc ^^^ b.toNat
  crcBit poly (crcBit poly (crcBit poly (crcBit poly (crcBit poly (crcBit poly (crcBit poly (crcBit poly c)))))))

/-- A reflected CRC of `w` bits with initial value and final XOR all ones. -/
def crcRefl (w poly : Nat) (bs : Bytes) : Nat :=
  (bs.foldl (crcByte poly) (2 ^ w - 1)) ^^^ (2 ^ w - 1)

/-- CRC-64 of R86: ECMA-182 polynomial 0x42F0_E1EB_A9EA_3693, reflected (0xC96C_5795_D787_0F42). -/
def crc64 (bs : Bytes) : BitVec 64 := BitVec.ofNat 64 (crcRefl 64 0xC96C5795D7870F42 bs)

/-- CRC-32 of R260: polynomial 0x04C1_1DB7, reflected (0xEDB8_8320). -/
def crc32 (bs : Bytes) : BitVec 32 := BitVec.ofNat 32 (crcRefl 32 0xEDB88320 bs)

end Sys2Proof.Machine
end

