-- ==== Sys2Proof/Machine/State/Room.lean ====
section
/-! DEFINITION. The state of one room (02_rooms.md R24 to R65, R488; 03_beat_and_commit.md R71 to R104). -/

namespace Sys2Proof.Machine
open Sys2Proof

/-- The word of the reset instruction image: NOP, KIND 7 (log entry 7). -/
abbrev nopWord : BitVec 96 := 0x1C0

/-- An entry of the block-memory write queue (R53); `full` says PRED = 0 (R488). -/
structure MwrEntry where
  bank : BitVec 5
  addr : BitVec 11
  data : Lanes
  mask : Lanes
  full : Bool
  deriving DecidableEq, Repr

/-- A word written to a window slot for one beat (R47), its absent mark, whether a restart keeps it (R95), and for R49 the level
and step it arrived for and the source number of its writer. -/
structure WinWord where
  word : Lanes := 0
  absent : Bool := false
  kept : Bool := false
  level : Nat := 0
  step : Nat := 0
  src : Nat := 0
  deriving DecidableEq, Repr

/-- A window slot (R46 to R48): the word for the current beat and for the next one, the last word without an absent mark of
each, that of a beat whose decision is still out, and the HOLD value. -/
structure Slot where
  cur : Option WinWord := none
  nxt : Option WinWord := none
  good : Option Lanes := none
  nxtGood : Option Lanes := none
  prev : Option Lanes := none
  hold : Lanes := 0
  deriving DecidableEq, Repr

/-- The working copy of a state word (R30): its value, and whether all 64 lanes were written since it was last found
uncorrectable (R488). -/
structure Work where
  word : Lanes
  full : Bool
  deriving DecidableEq, Repr

/-- An MRD's word that has not landed yet (R42): its destination, the word, the lanes written, and whether PRED = 0. -/
structure Landing where
  dst : Nat
  word : Lanes
  mask : Lanes
  full : Bool
  deriving DecidableEq, Repr

/-- The fields of an instruction word (R34). -/
structure Insn where
  tt : BitVec 16
  opa : BitVec 12
  opb : BitVec 12
  opc : BitVec 12
  opd : BitVec 12
  dst : BitVec 10
  lop : BitVec 4
  larg : BitVec 6
  pred : BitVec 3
  kind : BitVec 3
  rsv : BitVec 6
  deriving DecidableEq, Repr

/-- A Boolean processor (R24): instruction memory, data store, group history and an MRD result that has not landed yet. -/
structure Bp where
  imem : Tbl (BitVec 96) := []
  /-- scratch words 0 to 767 (R31) -/
  scratch : Tbl Lanes := []
  /-- committed copies of state words 768 to 1023 (R30) -/
  committed : Tbl Lanes := []
  /-- working copies with their written bits (R30) -/
  working : Tbl (Option Work) := []
  /-- run-ahead buffer (R92) -/
  ahead : Tbl (Option Work) := []
  /-- history entries of this pass, newest first (R38); one more than 64, since BPs of one step issue one after another here -/
  hist : List Lanes := []
  /-- instructions issued in this pass -/
  issued : Nat := 0
  /-- an MRD's word on its way, readable by LOCAL operands from instruction i + 2 (R42) -/
  landing : Option Landing := none
  deriving DecidableEq, Repr

/-- A slice result in the pipeline (R59): the step of its completing SLI, its output planes, its clamped lanes. -/
structure SliceResult where
  t : Nat
  planes : List Lanes
  clamped : Lanes
  deriving DecidableEq, Repr

/-- An arithmetic slice (R57 to R59). `acc` lists the 64 lanes' accumulators; the empty list means all zero. -/
structure Slice where
  xs : List Lanes := []
  ys : List Lanes := []
  adds : List Lanes := []
  ops : Nat := 0
  acc : List (BitVec 48) := []
  accOvf : Lanes := 0
  satLanes : Lanes := 0
  /-- SATLANES before the last result, and the step at which that result became ready (R59) -/
  satPrev : Lanes := 0
  satStep : Nat := 0
  pipe : List SliceResult := []
  /-- results waiting for SLR, oldest first, each with its unread planes (R59) -/
  queue : List (List Lanes) := []
  deriving DecidableEq, Repr

/-- Where a room stands in its beat (R71, R92 to R96): idle (nothing to issue), running its schedule, ended (VOTE sent), or
stalled without a decision. -/
inductive Phase where
  | idle | run | ended | stalled
  deriving DecidableEq, Repr

/-- A room. -/
structure Room where
  -- ROOM registers (R65)
  func : FuncId := 0xFFFF
  thresh : Bool := false
  isolated : Bool := false
  power : BitVec 2 := 0
  gen : BitVec 8 := 0
  vroom : BitVec 8 := 0
  lastCommit : Beat := 0
  /-- counters 0 to 7 at offsets 0x10 + 4n (R65) -/
  cnt : Tbl Cnt := []
  mwrPeak : BitVec 9 := 0
  /-- ROOM_FAULT causes of the current and of the last beat: TOKEN, MWR_OVF, SLICE_PAR (R65) -/
  tokenCur : Bool := false
  tokenLast : Bool := false
  ovfCur : Bool := false
  ovfLast : Bool := false
  parCur : Bool := false
  parLast : Bool := false
  /-- uncorrectable data-store words (BP * 1024 + address), bank words (bank * 2048 + address) and instruction words
  (BP * 512 + index) (R62, R488) -/
  ueDs : List Nat := []
  ueBm : List Nat := []
  ueIm : List Nat := []
  -- the placement's set and replica (R102, R120)
  set : Bool := false
  rep : BitVec 8 := 0
  -- room header, constant and send tables (R60, R61, R43)
  len : Nat := 0
  passes : Nat := 0
  levels : List (Nat × Nat) := []
  primary : BitVec 16 := 0
  bankSetup : Tbl (BitVec 64) := []
  sliceDesc : Tbl (BitVec 128) := []
  slotEntry : Tbl (BitVec 16) := []
  consts : Tbl Lanes := []
  sends : Tbl (BitVec 64) := []
  /-- token envelope e[w] by window (R124) -/
  envelope : List Nat := []
  /-- from which point, pass * 32 + level, each slot's word is due (R76); slots no writer is declared for are not listed -/
  due : Tbl (Option Nat) := []
  -- BPs, window, block memory, slices
  bps : Tbl Bp := []
  win : Tbl Slot := []
  bank : Tbl Lanes := []
  rpos : Tbl Nat := []
  wpos : Tbl Nat := []
  crpos : Tbl Nat := []
  cwpos : Tbl Nat := []
  /-- positions that the beat whose decision is out reached (R92, R94) -/
  urpos : Tbl Nat := []
  uwpos : Tbl Nat := []
  wq : List MwrEntry := []
  /-- entries queued in run-ahead, while the write queue still holds the undecided beat's (R93 refuses such a schedule) -/
  wqAhead : List MwrEntry := []
  slices : Tbl Slice := []
  /-- planes of automatic deliveries on their way to window slots (slot, word with its step) (R59) -/
  planes : List (Nat × WinWord) := []
  /-- words sent to cellar streams and drains in the beat, by number * 65536 + word index (R86) -/
  sentStream : Tbl (Option Lanes) := []
  sentDrain : Tbl (Option Lanes) := []
  /-- tokens issued by window of the beat (R131) -/
  tokens : Tbl Nat := []
  -- the beat's run (R71, R92 to R96)
  phase : Phase := .idle
  pass : Nat := 0
  level : Nat := 0
  /-- index of the instruction that issues in this step, and the BPs that have issued it -/
  idx : Nat := 0
  done : BitVec 128 := 0
  d : Nat := 0
  att : Bool := false
  ahead : Bool := false
  /-- the oldest beat whose decision the room has not applied, while there is one -/
  undecided : Option Beat := none
  /-- decisions received and not applied yet, in beat order (R96) -/
  decisions : List Decision := []
  faulted : Bool := false
  missed : Bool := false
  /-- LATE has been voted in this beat (R96) -/
  late : Bool := false
  /-- the beat of admission or of the migration switch, and whether the function has committed a beat from it on (R104) -/
  firstFrom : Beat := 0
  everCommitted : Bool := false
  frameStart : Lanes := 0
  deriving DecidableEq, Repr

end Sys2Proof.Machine
end

