-- ==== Sys2Proof/Machine/Flags.lean ====
section
/-! DEFINITION. The room's status computations: counters and fault bits (R62, R65), the slices' clamped and overflowed lanes
(R58), and the status and CRC of its VOTE (R85, R86). -/

namespace Sys2Proof.Machine
open Sys2Proof

-- counter numbers of R65: the counter at offset 0x10 + 4n
abbrev cntIfetchCe : Nat := 0
abbrev cntDsCe : Nat := 1
abbrev cntBmCe : Nat := 2
abbrev cntUe : Nat := 3
abbrev cntWinAbsent : Nat := 4
abbrev cntWinConflict : Nat := 5
abbrev cntXchStale : Nat := 6
abbrev cntSliceFault : Nat := 7

/-- Count an event of a room (R65). -/
def Room.count (rm : Room) (n : Nat) : Room := { rm with cnt := bumpAt rm.cnt n }

/-- ROOM_FAULT as it reads (R65). -/
def Room.faultWord (rm : Room) : Word :=
  BitVec.ofNat 32 (bit (!rm.ueIm.isEmpty) 0 + bit (!rm.ueDs.isEmpty) 1 + bit (!rm.ueBm.isEmpty) 2
    + bit (rm.parCur || rm.parLast) 3 + bit (rm.ovfCur || rm.ovfLast) 4 + bit (rm.tokenCur || rm.tokenLast) 5)

/-- Add an uncorrectable word to a set of them. -/
def addKey (k : Nat) (l : List Nat) : List Nat := if k ∈ l then l else k :: l

/-- Rounding a value divided by 2^olo: 0 floor, 1 half up, 2 half to even (R58). RMODE 3 is refused at load (R56). -/
def roundShift (v : Int) (olo rmode : Nat) : Int :=
  let q := v / (2 ^ olo : Int)
  let r := v % (2 ^ olo : Int)
  if olo = 0 then v
  else if rmode = 0 then q
  else if rmode = 1 then (if 2 * r ≥ (2 ^ olo : Int) then q + 1 else q)
  else if 2 * r > (2 ^ olo : Int) then q + 1
  else if 2 * r = (2 ^ olo : Int) then (if q % 2 = 0 then q else q + 1)
  else q

/-- The smallest and the largest output value of a slice (R58). -/
def outRange (sgn : Bool) (ow : Nat) : Int × Int :=
  if sgn then (-(2 ^ (ow - 1) : Int), (2 ^ (ow - 1) : Int) - 1) else (0, (2 ^ ow : Int) - 1)

/-- Clamping when SAT = 1: the value kept, and whether it was clamped (R58). -/
def clampOut (sat sgn : Bool) (ow : Nat) (v : Int) : Int × Bool :=
  let (lo, hi) := outRange sgn ow
  if !sat then (v, false) else if v < lo then (lo, true) else if v > hi then (hi, true) else (v, false)

/-- The status of a room's VOTE: the first that applies of FAULT, MISSED, OK (R85); LATE is sent by `LATE_STALL` alone. -/
def Room.voteStatus (rm : Room) : BitVec 3 := if rm.faulted then 1 else if rm.missed then 2 else 0

/-- A word as eight little-endian bytes (R86). -/
def wordBytes (w : Lanes) : Bytes := leBytes 8 w.toNat

/-- The entries of a table of optional values that hold one. -/
def held {α : Type} (t : Tbl (Option α)) : List (Nat × α) :=
  t.filterMap (fun e => e.2.map (fun v => (e.1, v)))

/-- The copies that hold the state words a BP wrote in the beat it runs: the working copies, or the run-ahead buffer while the beat before is
undecided (R30, R92). A stalled room writes none (R96). -/
def Room.beatWork (rm : Room) (p : Bp) : Tbl (Option Work) :=
  if rm.undecided.isNone then p.working else if rm.ahead then p.ahead else []

/-- The write-queue entries of the beat that the room runs (R53, R92). -/
def Room.beatQueue (rm : Room) : List MwrEntry := if rm.undecided.isNone then rm.wq else if rm.ahead then rm.wqAhead else []

/-- The byte stream of R86: state words, write queue, stream words, drain words. -/
def Room.crcStream (rm : Room) : Bytes :=
  rm.bps.flatMap (fun (b, bp) => (held (rm.beatWork bp)).flatMap (fun (a, w) =>
      leBytes 2 (b * 256 + (a - 768)) ++ wordBytes w.word))
    ++ rm.beatQueue.flatMap (fun e => leBytes 2 (e.bank.toNat * 2048 + e.addr.toNat) ++ wordBytes e.mask ++ wordBytes e.data)
    ++ (held rm.sentStream).flatMap (fun (k, w) => leBytes 1 (k / 65536) ++ leBytes 2 (k % 65536) ++ wordBytes w)
    ++ (held rm.sentDrain).flatMap (fun (k, w) => leBytes 1 (k / 65536) ++ leBytes 2 (k % 65536) ++ wordBytes w)

/-- The CRC of a room's held results (R86). -/
def Room.crc (rm : Room) : BitVec 64 := crc64 rm.crcStream

end Sys2Proof.Machine
end

