-- ==== Sys2Proof/Machine/Operands.lean ====
section
/-! DEFINITION. The operand forms of a room's instructions: the instruction word (R34), the four operand spaces (R37 to R39), the
truth table and lane operation (R27, R40), predicates (R41), the data store (R29 to R31), bank addresses (R50) and slice
arithmetic (R57, R58). -/

namespace Sys2Proof.Machine
open Sys2Proof

/-- The fields of an instruction word (R34). -/
def parseInsn (w : BitVec 96) : Insn where
  tt := w.extractLsb' 80 16
  opa := w.extractLsb' 68 12
  opb := w.extractLsb' 56 12
  opc := w.extractLsb' 44 12
  opd := w.extractLsb' 32 12
  dst := w.extractLsb' 22 10
  lop := w.extractLsb' 18 4
  larg := w.extractLsb' 12 6
  pred := w.extractLsb' 9 3
  kind := w.extractLsb' 6 3
  rsv := w.extractLsb' 0 6

/-- Row n of the truth table: the lanes whose four operand bits spell n, if TT[n] is set (R27). -/
def ttRow (tt : BitVec 16) (a b c d : Lanes) (n : Nat) : Lanes :=
  if tt.getLsbD n then
    (if n.testBit 0 then a else ~~~a) &&& (if n.testBit 1 then b else ~~~b)
      &&& (if n.testBit 2 then c else ~~~c) &&& (if n.testBit 3 then d else ~~~d)
  else 0

/-- The raw result: lane k is TT[8 D_k + 4 C_k + 2 B_k + A_k] (R27). -/
def evalTT (tt : BitVec 16) (a b c d : Lanes) : Lanes :=
  (List.range 16).foldl (fun acc n => acc ||| ttRow tt a b c d n) 0

/-- A word with every lane equal to a truth value. -/
def allLanes (x : Bool) : Lanes := if x then BitVec.allOnes 64 else 0

/-- XOR of all 64 lanes. -/
def xorLanes (r : Lanes) : Bool := (List.range 64).foldl (fun acc k => acc ^^ r.getLsbD k) false

/-- The lane operation (R40). LOP 10 to 15 are refused at load and leave the word as NONE does (log entry 9). -/
def laneOp (lop : BitVec 4) (larg : BitVec 6) (r : Lanes) : Lanes :=
  let n := larg.toNat
  match lop.toNat with
  | 1 => r.rotateLeft n
  | 2 => r.rotateRight n
  | 3 => r <<< n
  | 4 => r >>> n
  | 5 => allLanes (r.getLsbD n)
  | 6 => allLanes (r ≠ 0)
  | 7 => allLanes (r = BitVec.allOnes 64)
  | 8 => allLanes (xorLanes r)
  | 9 => r &&& BitVec.ofNat 64 (2 ^ n - 1)
  | _ => r

/-- LANEBIT m: lane k holds bit m of k (R39). -/
def laneBit (m : Nat) : Lanes :=
  match m with
  | 0 => 0xAAAA_AAAA_AAAA_AAAA
  | 1 => 0xCCCC_CCCC_CCCC_CCCC
  | 2 => 0xF0F0_F0F0_F0F0_F0F0
  | 3 => 0xFF00_FF00_FF00_FF00
  | 4 => 0xFFFF_0000_FFFF_0000
  | _ => 0xFFFF_FFFF_0000_0000

-- reads of the room's tables

def Room.bp (rm : Room) (b : Nat) : Bp := Tbl.get {} rm.bps b
def Room.setBp (rm : Room) (b : Nat) (x : Bp) : Room := { rm with bps := Tbl.set {} rm.bps b x }
def Room.slot (rm : Room) (n : Nat) : Slot := Tbl.get {} rm.win n
def Room.setSlot (rm : Room) (n : Nat) (x : Slot) : Room := { rm with win := Tbl.set {} rm.win n x }
def Room.sl (rm : Room) (n : Nat) : Slice := Tbl.get {} rm.slices n
def Room.setSl (rm : Room) (n : Nat) (x : Slice) : Room := { rm with slices := Tbl.set {} rm.slices n x }
def Room.const (rm : Room) (n : Nat) : Lanes := Tbl.get 0 rm.consts n

/-- FIRST (R39, R104): all ones until the function has committed a beat from its admission or switch on; in run-ahead the value it has if the
open beat commits. -/
def Room.first (rm : Room) : Bool := !rm.everCommitted && !(rm.ahead && rm.undecided.any fun n => decide (rm.firstFrom ≤ n))

/-- The exchange bounds of R73 by class code. -/
def bound (c : Nat) : Nat := match c with | 0 => 6 | 1 => 40 | _ => 72

/-- T_pass, the steps of a pass (R71). -/
def passSteps (levels : List (Nat × Nat)) : Nat := (levels.map (fun l => l.1 + bound l.2)).sum

/-- The first instruction index of level j. -/
def levelStart (levels : List (Nat × Nat)) (j : Nat) : Nat := ((levels.take j).map (·.1)).sum

/-- The first step of level j, counted from the pass's start (R71). -/
def levelStep (levels : List (Nat × Nat)) (j : Nat) : Nat := passSteps (levels.take j)

/-- The step in which instruction i of the room's level issues (R71). -/
def Room.issueStep (rm : Room) (i : Nat) : Nat :=
  rm.d + rm.pass * passSteps rm.levels + levelStep rm.levels rm.level + (i - levelStart rm.levels rm.level)

/-- The SPECIAL space (R39); reserved codes are refused at load and read as an open value (log entry 9). SATLANES shows
a result's clamped lanes from the step after it became ready (R59). -/
def Room.special (rm : Room) (beat : Beat) (step code : Nat) : Lanes :=
  if code = 0 then 0
  else if code = 1 then BitVec.allOnes 64
  else if 0x10 ≤ code ∧ code ≤ 0x15 then laneBit (code - 0x10)
  else if code = 0x20 then allLanes rm.first
  else if code = 0x21 then rm.frameStart
  else if code = 0x22 then allLanes (beat.getLsbD 0)
  else if 0x24 ≤ code ∧ code ≤ 0x29 then allLanes (rm.pass.testBit (code - 0x24))
  else if 0x30 ≤ code ∧ code ≤ 0x3F then
    let s := rm.sl ((code - 0x30) / 2)
    if code % 2 = 1 then s.accOvf else if step ≤ s.satStep then s.satPrev else s.satLanes
  else if 0x100 ≤ code ∧ code ≤ 0x1FF then rm.const (code - 0x100)
  else Config.openOperand code

/-- A state word's value: the run-ahead entry, else the working copy, else the committed copy (R30, R92). -/
def Bp.readState (p : Bp) (a : Nat) : Lanes :=
  match Tbl.get none p.ahead a with
  | some w => w.word
  | none => match Tbl.get none p.working a with
    | some w => w.word
    | none => Tbl.get 0 p.committed a

/-- A data-store word as a LOCAL operand reads it (R30, R31). -/
def Bp.read (p : Bp) (a : Nat) : Lanes := if a < 768 then Tbl.get 0 p.scratch a else p.readState a

/-- Whether a read of a data-store word reaches a copy that is uncorrectable: a state word whose working copy was written whole is
read from that copy (R30, R488). -/
def Room.readsUe (rm : Room) (b a : Nat) : Bool :=
  let p := rm.bp b
  decide (b * 1024 + a ∈ rm.ueDs) &&
    (decide (a < 768) || !((match Tbl.get none p.ahead a with | some w => w.full | none => false)
      || (match Tbl.get none p.working a with | some w => w.full | none => false)))

/-- The default word of a window slot (R48). A HOLD slot that a room reads in run-ahead, while the beat before is undecided, gives the HOLD
value of the last commit the room has applied (DESIGN CHOICE, log entry 126). -/
def Room.slotDefault (rm : Room) (n : Nat) : Lanes :=
  let e := Tbl.get 0 rm.slotEntry n
  match (e.extractLsb' 14 2).toNat with
  | 0 => 0
  | 1 => BitVec.allOnes 64
  | 2 => (rm.slot n).hold
  | _ => rm.const (e.extractLsb' 6 8).toNat

/-- The place in the beat as pass * 32 + level. -/
def Room.place (rm : Room) : Nat := rm.pass * 32 + rm.level

/-- The step that a running room has reached (R71): it stands still while a level waits and after the last pass, and a word that comes from outside
the room carries it (R49; DESIGN CHOICE, log entry 193). -/
def Room.stepNow (rm : Room) : Nat := rm.issueStep rm.idx

/-- The place of a step of the pass that runs: the last level that has begun by then (R71). -/
def Room.placeAt (rm : Room) (step : Nat) : Nat :=
  let t := step - (rm.d + rm.pass * passSteps rm.levels)
  rm.pass * 32 + ((List.range rm.levels.length).filter fun j => decide (levelStep rm.levels j ≤ t)).length - 1

/-- What reading an operand gives: the word, and whether it was an absent window word and a missed bound (R47, R76). -/
structure OpRead where
  word : Lanes
  absent : Bool := false
  missed : Bool := false
  deriving DecidableEq, Repr

/-- A window read (R47): the word written for the current beat, else the default, counted; a missed bound where a declared word is
due and neither it nor an absent mark has arrived (R76). Passes before a stream's FPASS read the default (R116). -/
def Room.readWindow (rm : Room) (n : Nat) : OpRead :=
  let due := Tbl.get none rm.due n
  match (rm.slot n).cur with
  | some w =>
    if w.absent || due.any (fun k => decide (rm.pass < k / 32)) then { word := rm.slotDefault n, absent := true } else { word := w.word }
  | none => { word := rm.slotDefault n, absent := true, missed := due.any (fun k => decide (k ≤ rm.place)) }

/-- The history entry of BP j from k instructions ago, for an instruction at index i (R38). -/
def Room.history (rm : Room) (j i k : Nat) : Lanes :=
  let p := rm.bp j
  if k ≤ i ∧ i - k < p.issued then (p.hist[p.issued - 1 - (i - k)]?).getD (Config.openOperand k)
  else Config.openOperand k

/-- An operand (R37). -/
def Room.operand (rm : Room) (beat : Beat) (b i : Nat) (op : BitVec 12) : OpRead :=
  let n := (op.extractLsb' 0 10).toNat
  match (op.extractLsb' 10 2).toNat with
  | 0 => { word := (rm.bp b).read n }
  | 1 => { word := rm.history (16 * (b / 16) + n / 64) i (n % 64 + 1) }
  | 2 => rm.readWindow n
  | _ => { word := rm.special beat (rm.issueStep i) n }

/-- The data-store address that a LOCAL operand names (R37). -/
def localAddr (op : BitVec 12) : List Nat :=
  if op.extractLsb' 10 2 = 0 then [(op.extractLsb' 0 10).toNat] else []

/-- The lanes an instruction writes: all, or those where predicate word Pm is 1 (R41). -/
def Bp.predMask (p : Bp) (pred : BitVec 3) : Lanes :=
  if pred = 0 then BitVec.allOnes 64 else p.read (760 + pred.toNat)

/-- A word with the lanes of a mask replaced (R30, R41). -/
def mergeLanes (mask new old : Lanes) : Lanes := (new &&& mask) ||| (old &&& ~~~mask)

/-- A write of a data-store word (R29 to R31, R92): state words go to the working copy, in run-ahead to the run-ahead buffer, with
the written bit set; `full` says PRED = 0. -/
def Bp.write (p : Bp) (runAhead : Bool) (a : Nat) (mask new : Lanes) (full : Bool) : Bp :=
  if a < 768 then { p with scratch := Tbl.set 0 p.scratch a (mergeLanes mask new (p.read a)) }
  else
    let w := mergeLanes mask new (p.readState a)
    let was (t : Tbl (Option Work)) : Bool := match Tbl.get none t a with | some x => x.full | none => false
    if runAhead then { p with ahead := Tbl.set none p.ahead a (some ⟨w, full || was p.ahead⟩) }
    else { p with working := Tbl.set none p.working a (some ⟨w, full || was p.working⟩) }

/-- A data-store write of a room's BP; a whole write of a scratch word replaces an uncorrectable one at once (R488). -/
def Room.writeDs (rm : Room) (b a : Nat) (mask new : Lanes) (full : Bool) : Room :=
  let rm := rm.setBp b ((rm.bp b).write rm.ahead a mask new full)
  if full ∧ a < 768 then { rm with ueDs := rm.ueDs.erase (b * 1024 + a) } else rm

-- bank addresses (R50 to R53)

/-- The pointer set-up of a bank (R51). -/
def Room.setup (rm : Room) (k : Nat) : BitVec 64 := Tbl.get 0 rm.bankSetup k
def setupBase (w : BitVec 64) : Nat := (w.extractLsb' 53 11).toNat
def setupLen (w : BitVec 64) : Nat := (w.extractLsb' 41 12).toNat
def setupStride (w : BitVec 64) : Nat := (w.extractLsb' 30 11).toNat
def setupRstart (w : BitVec 64) : Nat := (w.extractLsb' 19 11).toNat
def setupWstart (w : BitVec 64) : Nat := (w.extractLsb' 8 11).toNat

/-- The position after an access (R50). -/
def nextPos (w : BitVec 64) (pos : Nat) : Nat := (pos + setupStride w) % setupLen w

/-- An MRD's word: per lane the latest pending entry whose mask includes the lane, else the bank word (R53). -/
def mrdWord (pending : List MwrEntry) (bank addr : Nat) (bankWord : Lanes) : Lanes :=
  pending.foldl (fun acc e => if e.bank.toNat = bank ∧ e.addr.toNat = addr then mergeLanes e.mask e.data acc else acc) bankWord

/-- The lanes that the pending entries of an address cover together. -/
def pendingMask (pending : List MwrEntry) (bank addr : Nat) : Lanes :=
  pending.foldl (fun acc e => if e.bank.toNat = bank ∧ e.addr.toNat = addr then acc ||| e.mask else acc) 0

-- arithmetic slices (R56 to R58)

/-- The fields of a slice descriptor; word n of R56 is bits [32n + 31 : 32n]. -/
structure SliceDesc where
  en : Bool
  accum : Bool
  accCode : Nat
  nops : Nat
  wx : Nat
  sx : Bool
  wy : Nat
  sy : Bool
  ysrc : Bool
  cidx : Nat
  wa : Nat
  sa : Bool
  olo : Nat
  rmode : Nat
  sat : Bool
  osgn : Bool
  ow : Nat
  dlv : Bool
  oslot : Nat
  deriving DecidableEq, Repr

/-- A slice descriptor (R56). -/
def parseSlice (w : BitVec 128) : SliceDesc :=
  let n := w.toNat
  { en := bitOf n 31, accCode := fld n 29 2, accum := fld n 29 2 == 1, nops := fld n 23 6, wx := fld n 18 5, sx := bitOf n 17,
    wy := fld n 12 5, sy := bitOf n 11, ysrc := bitOf n 10, cidx := fld n 2 8, wa := fld n 58 6, sa := bitOf n 57,
    olo := fld n 51 6, rmode := fld n 49 2, sat := bitOf n 48, osgn := bitOf n 47, ow := fld n 41 6, dlv := bitOf n 40,
    oslot := fld n 86 10 }

/-- The per-lane value of a list of bit planes, least significant first (R57). -/
def planesValue (sgn : Bool) (lane : Nat) (planes : List Lanes) : Int :=
  let rec go : Int → List Lanes → Int
    | _, [] => 0
    | w, [p] => if p.getLsbD lane then (if sgn then -w else w) else 0
    | w, p :: t => (if p.getLsbD lane then w else 0) + go (2 * w) t
  go 1 planes

/-- The value of the low `w` bits of a number, signed or not. -/
def bitsValue (sgn : Bool) (w n : Nat) : Int :=
  let m := n % 2 ^ w
  if sgn ∧ 2 ^ w ≤ 2 * m then (m : Int) - (2 ^ w : Int) else (m : Int)

/-- Plane i of 64 per-lane values in two's complement (R58). -/
def planeOf (vals : List Int) (i : Nat) : Lanes :=
  BitVec.ofNat 64 ((vals.zipIdx).foldl (fun acc (v, k) => acc + bit ((v / (2 ^ i : Int)) % 2 = 1) k) 0)

end Sys2Proof.Machine
end

