-- ==== Sys2Proof/Machine/State/Net.lean ====
section
/-! DEFINITION. What is on its way between rooms and hub units, the rings, and the loader's reservations on them
(05_corridors_and_stairs.md R132 to R152). -/

namespace Sys2Proof.Machine
open Sys2Proof

/-- A word a SEND places in its target (R42, R43): the send entry's kind, class, target and index, and the absent mark of a room
under threshold hold (R47). -/
structure SendOut where
  kind : Nat
  cls : Nat
  tgt : Nat
  index : Nat
  gen : BitVec 8
  word : Lanes
  absent : Bool
  deriving DecidableEq, Repr

/-- A word of an XCH packet: its IDX and ABS fields (R138). -/
structure PktWord where
  idx : Nat
  word : Lanes
  absent : Bool := false
  deriving DecidableEq, Repr

/-- What the words of a packet are for: a window, a drain, a cellar write stream, a REMOTE binding (R43). -/
inductive PktKind where
  | window | drain | stream | remote
  deriving DecidableEq, Repr

/-- An XCH packet in flight (R137, R138). The beat is held whole; BPAR is its bit 0 (R147, log entry 10). `level` is the level it was
sent in, as pass * 32 + level; `port` the hub port of a hub writer (R49); `keep` marks words a restart keeps (R95). -/
structure Packet where
  src : Node
  dst : Node
  kind : PktKind
  tgt : Nat := 0
  gen : BitVec 8 := 0
  func : FuncId := 0xFFFF
  set : Bool := false
  rep : BitVec 8 := 0
  vroom : BitVec 8 := 0
  beat : Beat
  att : Bool := false
  level : Nat := 0
  port : Nat := 0
  keep : Bool := false
  /-- it waits for a ring's hold (R150) -/
  waits : Bool := false
  words : List PktWord := []
  deriving DecidableEq, Repr

/-- A flit as a link direction sent it (R137, R148): its virtual channel, its 256 bits, and the link CRC beside them. -/
structure Flit where
  vc : Bool
  bits : BitVec 256
  crc : BitVec 16
  deriving DecidableEq, Repr

/-- A link direction's state (R148, R149): `buf` is its retry buffer, newest first, of the flits of XCH packets, stream words, votes and
decisions that have crossed it. -/
structure LinkState where
  buf : List Flit := []
  down : Bool := false
  /-- it has retrained and returns at the next boundary (R150) -/
  trained : Bool := false
  /-- failed retrains (R149) -/
  retrains : Nat := 0
  deriving DecidableEq, Repr

/-- One reserved use of a link direction (R143): the direction's number and the step of the beat. -/
structure LinkUse where
  link : Nat
  step : Nat
  deriving DecidableEq, Repr

/-- The reservation of a set and replica of a function, or of its migration's targets (R143). -/
structure Reservation where
  func : FuncId
  set : Bool
  rep : Nat
  migrating : Bool := false
  /-- its entries in the tables of the ring nodes, and their golden copies (R327) -/
  uses : List LinkUse
  golden : List LinkUse := uses
  deriving DecidableEq, Repr

/-- The network. -/
structure Net where
  xch : List Packet := []
  votes : List Vote := []
  /-- DECISION messages on their way, with their recipients (R90) -/
  decs : List (Recipient × Decision) := []
  /-- link directions by ring * 64 + descending * 32 + link -/
  links : Tbl LinkState := []
  /-- rings that hold new packets (R150) -/
  holds : List (BitVec 5) := []
  /-- votes and decisions that wait for a ring's hold (R150) -/
  heldVotes : List Vote := []
  heldDecs : List (Recipient × Decision) := []
  retry : Tbl Cnt := []
  ue : Tbl Cnt := []
  reservations : List Reservation := []
  deriving DecidableEq, Repr

end Sys2Proof.Machine
end

