-- ==== Sys2Proof/Machine/Issue.lean ====
section
/-! DEFINITION. One instruction of one BP, on its room: what R42 gives each kind, with the checks of R62 and the counts of R131.
The effects outside the room come back as data for Machine/Rooms.lean. -/

namespace Sys2Proof.Machine
open Sys2Proof

/-- The end index of level j. -/
def levelEnd (levels : List (Nat × Nat)) (j : Nat) : Nat := levelStart levels (j + 1)

/-- The instruction index at which BP b issues now: the room runs, the level has instructions left, and BP b has not issued this
step's instruction (R26, R28). -/
def Room.canIssue (rm : Room) (b : Nat) : Option Nat :=
  if rm.phase = .run ∧ rm.idx < levelEnd rm.levels rm.level ∧ !rm.done.getLsbD b ∧ b < 128 then some rm.idx else none

/-- What an issue leaves: the room, the word a SEND places outside it, and whether the room reports a fault (R62, R489) or a token
overrun (R131). `used` counts the open values taken. -/
structure Issued where
  room : Room
  send : Option SendOut := none
  report : Bool := false
  overrun : Bool := false
  used : Nat := 0
  deriving DecidableEq, Repr

/-- An uncorrected fault of the beat: counted in ROOM_UE where it is an uncorrectable error (R62, R65). -/
def Room.fault (rm : Room) (isUe : Bool) : Room :=
  let rm := if isUe then rm.count cntUe else rm
  { rm with faulted := true }

/-- Charge tokens to the window of a step (R123, R131): the room, and whether the window passes its envelope now. -/
def Room.charge (rm : Room) (step n : Nat) : Room × Bool :=
  let w := step / 64
  let t := Tbl.get 0 rm.tokens w
  let e := rm.envelope.getD w 0
  ({ rm with tokens := Tbl.set 0 rm.tokens w (t + n), tokenCur := rm.tokenCur || decide (t + n > e) },
    decide (t ≤ e ∧ t + n > e))

/-- The history entry of an issue, the landing of the MRD before it, and the step's bookkeeping (R28, R38, R42). -/
def Room.issue (rm : Room) (b : Nat) (entry : Lanes) (landing : Option Landing) : Room :=
  let p := rm.bp b
  let rm := rm.setBp b { p with hist := (entry :: p.hist).take 65, issued := p.issued + 1, landing := landing }
  let done := rm.done ||| (1#128 <<< b)
  if done = BitVec.allOnes 128 then { rm with done := 0, idx := rm.idx + 1 } else { rm with done := done }

/-- Land the MRD word of the instruction before (R42): after instruction i + 1 has read its predicate word and, where it writes under a
predicate, its destination, so that both give the value before the MRD. The loader refuses a LOCAL read of that address alone; of these two
the spec says nothing (DESIGN CHOICE, log entry 125). -/
def Room.land (rm : Room) (b : Nat) : Room :=
  match (rm.bp b).landing with
  | none => rm
  | some l =>
    let p := rm.bp b
    (rm.setBp b { p with landing := none }).writeDs b l.dst l.mask l.word l.full

/-- A copy of a state word that a check found uncorrectable is no longer a whole write (R488). -/
def unfull (a : Nat) (t : Tbl (Option Work)) : Tbl (Option Work) :=
  match Tbl.get none t a with
  | some x => Tbl.set none t a (some { x with full := false })
  | none => t

/-- What the check of one data-store word finds (R62, R488): a corrected error is counted, an uncorrectable word noted. -/
def Room.dataFind (rm : Room) (b a : Nat) (e : Ecc) : Room :=
  match e with
  | .ok => rm
  | .corrected => rm.count cntDsCe
  | .uncorrectable =>
    let p := rm.bp b
    { rm.setBp b { p with working := unfull a p.working, ahead := unfull a p.ahead } with ueDs := addKey (b * 1024 + a) rm.ueDs }

/-- What the data-store checks find (R62, R488): the room with corrected errors counted and uncorrectable words noted, and whether an
uncorrectable word is read. `reads` lists the data-store addresses the instruction reads, `es` what the check of each finds. -/
def Room.dataCheck (rm : Room) (b : Nat) (reads : List Nat) (es : List Ecc) : Room × Bool :=
  let rm := (reads.zip es).foldl (fun rm (a, e) => rm.dataFind b a e) rm
  if reads.any (rm.readsUe b) then (rm.fault true, true) else (rm, false)

/-- A LOCAL read of an uncorrectable word gives an open value (log entry 8); every other operand as R37. -/
def Room.operandU (rm : Room) (beat : Beat) (free b i : Nat) (op : BitVec 12) : OpRead :=
  if (localAddr op).any (rm.readsUe b) then { word := Config.ueWord free } else rm.operand beat b i op

/-- The lanes a predicate leaves to write (R41), open where the predicate word is uncorrectable (log entry 8). -/
def Room.predMaskU (rm : Room) (free b : Nat) (pred : BitVec 3) : Lanes :=
  if pred ≠ 0 ∧ rm.readsUe b (760 + pred.toNat) then Config.ueWord free else (rm.bp b).predMask pred

/-- Count the absent reads among an instruction's operands and note a missed bound (R47, R76). -/
def Room.noteReads (rm : Room) (rs : List OpRead) : Room :=
  let n := (rs.filter (·.absent)).length
  let rm := { rm with cnt := if n = 0 then rm.cnt else Tbl.modify {} rm.cnt cntWinAbsent (fun c => c.bumpBy n) }
  { rm with missed := rm.missed || rs.any (·.missed) }

/-- The data-store addresses an instruction reads, each once: its LOCAL operands, its predicate word, and the destination of a predicated
write (R41, R488). -/
def readAddrs (x : Insn) (ops : List (BitVec 12)) (writes : Bool) : List Nat :=
  (ops.flatMap localAddr ++ (if x.pred ≠ 0 then [760 + x.pred.toNat] else [])
    ++ (if x.pred ≠ 0 ∧ writes then [x.dst.toNat] else [])).eraseDups

/-- Read the four operands of an EVAL, SEND or SLI and form its result q (R27). -/
def Room.evaluate (rm : Room) (beat : Beat) (free b i : Nat) (x : Insn) (lop : BitVec 4) (larg : BitVec 6) : Room × Lanes :=
  let ra := rm.operandU beat free b i x.opa
  let rb := rm.operandU beat (free + 1) b i x.opb
  let rc := rm.operandU beat (free + 2) b i x.opc
  let rd := rm.operandU beat (free + 3) b i x.opd
  (rm.noteReads [ra, rb, rc, rd], laneOp lop larg (evalTT x.tt ra.word rb.word rc.word rd.word))

/-- The fetch of an instruction (R62): `none` where its word is uncorrectable, so that it does not execute. -/
def Room.fetch (rm : Room) (b i : Nat) (e : Ecc) : Room × Bool :=
  let rm := match e with
    | .corrected => rm.count cntIfetchCe
    | .uncorrectable => { rm with ueIm := addKey (b * 512 + i) rm.ueIm }
    | .ok => rm
  if b * 512 + i ∈ rm.ueIm then (rm.fault true, false) else (rm, true)

/-- Write a word to a window slot for the current or the next beat (R47, R49, R147): where two words meet for one beat and level,
the later step wins, in one step the lower source number, counted in ROOM_WIN_CONFLICT. Words of feeds, hub ports and REMOTE writers belong to
the whole beat (R93) and stand at its first level. -/
def Room.writeSlot (rm : Room) (n : Nat) (next : Bool) (w : WinWord) : Room :=
  let s := rm.slot n
  let old := if next then s.nxt else s.cur
  let clash := match old with | some o => decide (o.level = w.level) | none => false
  let wins := match old with
    | some o => !clash || decide (w.step > o.step) || (decide (w.step = o.step) && decide (w.src < o.src))
    | none => true
  let rm := if clash then rm.count cntWinConflict else rm
  if !wins then rm
  else if next then
    rm.setSlot n { s with nxt := some w, nxtGood := if w.absent then s.nxtGood else some w.word }
  else rm.setSlot n { s with cur := some w, good := if w.absent then s.good else some w.word }

/-- Planes of automatic deliveries whose step lies before step k are in their slots (R59). -/
def Room.landPlanes (rm : Room) (k : Nat) : Room :=
  match rm.planes with
  | [] => rm
  | ps =>
    let due (x : Nat × WinWord) : Bool := decide (x.2.step < k)
    (ps.filter due).foldl (fun rm x => rm.writeSlot x.1 false x.2) { rm with planes := ps.filter fun x => !due x }

/-- Every plane of an automatic delivery is in its slot; the loader lets none pass the end of its pass (R59). -/
def Room.landAllPlanes (rm : Room) : Room :=
  rm.planes.foldl (fun rm x => rm.writeSlot x.1 false x.2) { rm with planes := [] }

/-- The word in BP b's instruction memory at index i. -/
def Room.insnAt (rm : Room) (b i : Nat) : Insn := parseInsn (Tbl.get nopWord (rm.bp b).imem i)

/-- Run one instruction of kind `k` of BP b: fetch, then `act`, then the history entry and the landing of the MRD before. `act` gives
the room, the history entry, its own landing and its outside effects. Where BP b does not issue now, or issues another kind, the
room stays as it is (log entry 3). -/
def Room.runKind (rm : Room) (b : Nat) (k : BitVec 3) (u : Upset) (tokens : Nat)
    (act : Room → Nat → Insn → Issued × Lanes × Option Landing) : Issued :=
  match rm.canIssue b with
  | none => { room := rm }
  | some i =>
    let x := rm.insnAt b i
    if x.kind ≠ k then { room := rm }
    else
      let (rm1, ok) := (rm.landPlanes (rm.issueStep i)).fetch b i u.fetch
      if !ok then { room := (rm1.land b).issue b 0 none, report := true }
      else
        let (rm2, ovr) := rm1.charge (rm.issueStep i) tokens
        let (o, entry, landing) := act rm2 i x
        { o with room := o.room.issue b entry landing, report := o.report || ovr, overrun := o.overrun || ovr }

/-- EVAL (R27, R41, R42): q goes to data-store address DST in the predicate's lanes; the history takes q unpredicated. -/
def Room.eval (rm : Room) (beat : Beat) (free b : Nat) (u : Upset) : Issued :=
  rm.runKind b 0 u 1 fun rm i x =>
    let (rm, bad) := rm.dataCheck b (readAddrs x [x.opa, x.opb, x.opc, x.opd] true) u.data
    let (rm, q) := rm.evaluate beat free b i x x.lop x.larg
    let m := rm.predMaskU (free + 4) b x.pred
    let rm := (rm.land b).writeDs b x.dst.toNat m q (x.pred = 0)
    ({ room := rm, report := bad, used := if bad then 5 else 0 }, q, none)

/-- The fields of a send-table entry (R43). -/
def parseSend (e : BitVec 64) (word : Lanes) (absent : Bool) : Option SendOut :=
  if e.getLsbD 0 then
    some { kind := (e.extractLsb' 61 3).toNat, cls := (e.extractLsb' 59 2).toNat, tgt := (e.extractLsb' 48 8).toNat,
           index := (e.extractLsb' 16 16).toNat, gen := e.extractLsb' 8 8, word, absent }
  else none

/-- The tokens of a SEND by the class of its entry (R123). -/
def sendTokens (cls : Nat) : Nat := match cls with | 2 => 7 | 3 => 11 | _ => 1

/-- What the rooms of a replica share of the function's write streams: the WORDS of each, and the word indexes (stream * 65536 + index) that
other rooms of the replica have sent in the beat (R116, R123). -/
structure StreamView where
  words : Nat → Nat
  sent : Nat → Bool

/-- Whether this SEND is the one after which every word index of its line of a write stream has been sent for the first time in the
beat, by whichever rooms of the replica (R123). Where two rooms complete it in one step, the later command's room is charged (DESIGN CHOICE, log
entry 166). -/
def completesLine (sent : Tbl (Option Lanes)) (view : StreamView) (stream idx : Nat) : Bool :=
  let first := idx / 16 * 16
  let count := min 16 (view.words stream - first)
  let known (k : Nat) : Bool := (Tbl.get none sent (stream * 65536 + k)).isSome || view.sent (stream * 65536 + k)
  !known idx && (List.range count).all fun k => first + k == idx || known (first + k)

/-- Place a SEND's word (R42, R45, R123): in this room's window, or outside the room. -/
def Room.placeSend (rm : Room) (step : Nat) (roomNo : Nat) (view : StreamView) (o : SendOut) : Room × Option SendOut × Bool :=
  let (rm, ovr) := rm.charge step (sendTokens o.cls - 1)
  match o.kind with
  | 0 => (rm.writeSlot (o.index % 1024) false
            { word := o.word, absent := o.absent, level := rm.place, step := step, src := roomNo }, none, ovr)
  | 3 =>
    let full := completesLine rm.sentStream view o.tgt o.index
    let (rm, ovr2) := if full then rm.charge step 120 else (rm, false)
    ({ rm with sentStream := Tbl.set none rm.sentStream (o.tgt * 65536 + o.index) (some o.word) }, some o, ovr || ovr2)
  | 4 => ({ rm with sentDrain := Tbl.set none rm.sentDrain (o.tgt * 65536 + o.index) (some o.word) }, some o, ovr)
  | _ => (rm, some o, ovr)

/-- SEND (R42 to R45): q goes to the target of send-table entry DST; nothing is written locally. -/
def Room.send (rm : Room) (roomNo : Nat) (view : StreamView) (beat : Beat) (free b : Nat) (u : Upset) : Issued :=
  rm.runKind b 1 u 1 fun rm i x =>
    let (rm, bad) := rm.dataCheck b (readAddrs x [x.opa, x.opb, x.opc, x.opd] false) u.data
    let (rm, q) := rm.evaluate beat free b i x x.lop x.larg
    let rm := rm.land b
    match parseSend (Tbl.get 0 rm.sends x.dst.toNat) q rm.thresh with
    | none => ({ room := rm, report := bad, used := if bad then 5 else 0 }, q, none)
    | some o =>
      let (rm, out, ovr) := rm.placeSend (rm.issueStep i) roomNo view o
      ({ room := rm, send := out, report := bad || ovr, overrun := ovr, used := if bad then 5 else 0 }, q, none)

/-- The bank address of an MRD or MWR and the room with the pointer moved on (R50). `wr` chooses the write position. -/
def Room.bankAddr (rm : Room) (bank : Nat) (byWord : Bool) (opa : Lanes) (wr : Bool) : Room × Nat :=
  if byWord then (rm, (opa.extractLsb' 0 11).toNat)
  else
    let s := rm.setup bank
    let pos := if wr then Tbl.get 0 rm.wpos bank else Tbl.get 0 rm.rpos bank
    let rm := if wr then { rm with wpos := Tbl.set 0 rm.wpos bank (nextPos s pos) }
              else { rm with rpos := Tbl.set 0 rm.rpos bank (nextPos s pos) }
    (rm, (setupBase s + pos) % 2048)

/-- What the bank check finds for a word read from a bank (R62, R488). -/
def Room.bankCheck (rm : Room) (key : Nat) (fromBank : Bool) (e : Ecc) : Room × Bool :=
  if !fromBank then (rm, false)
  else
    let rm := match e with
      | .corrected => rm.count cntBmCe
      | .uncorrectable => { rm with ueBm := addKey key rm.ueBm }
      | .ok => rm
    if key ∈ rm.ueBm then (rm.fault true, true) else (rm, false)

/-- MRD (R42, R50, R53): reads a bank word, with pending entries of the write queue forwarded lane by lane, into DST from instruction
i + 2. A word all of whose lanes are pending is not read from the bank (log entry 11). -/
def Room.mrd (rm : Room) (beat : Beat) (free b : Nat) (u : Upset) : Issued :=
  rm.runKind b 2 u 1 fun rm i x =>
    let byWord := x.larg.getLsbD 5
    let (rm, bad) := rm.dataCheck b (readAddrs x (if byWord then [x.opa] else []) true) u.data
    let ra := if byWord then rm.operandU beat free b i x.opa else { word := 0 }
    let m := rm.predMaskU (free + 4) b x.pred
    let rm := (rm.noteReads [ra]).land b
    let bank := (x.larg.extractLsb' 0 5).toNat
    let (rm, addr) := rm.bankAddr bank byWord ra.word false
    let key := bank * 2048 + addr
    let pending := rm.wq ++ rm.wqAhead
    let (rm, badB) := rm.bankCheck key (pendingMask pending bank addr ≠ BitVec.allOnes 64) u.bank
    let stored := if badB then Config.ueWord (free + 5) else Tbl.get 0 rm.bank key
    let w := mrdWord pending bank addr stored
    ({ room := rm, report := bad || badB, used := if bad || badB then 6 else 0 }, w,
      some { dst := x.dst.toNat, word := w, mask := m, full := x.pred = 0 })

/-- MWR (R53): queues one entry. A 257th in a beat is not queued and faults the beat (R62); MWR_PEAK then records 257 (R65). -/
def Room.mwr (rm : Room) (beat : Beat) (free b : Nat) (u : Upset) : Issued :=
  rm.runKind b 3 u 1 fun rm i x =>
    let byWord := x.larg.getLsbD 5
    let (rm, bad) := rm.dataCheck b (readAddrs x (if byWord then [x.opa, x.opb] else [x.opb]) false) u.data
    let ra := if byWord then rm.operandU beat free b i x.opa else { word := 0 }
    let rb := rm.operandU beat (free + 1) b i x.opb
    let m := rm.predMaskU (free + 4) b x.pred
    let rm := (rm.noteReads [ra, rb]).land b
    let bank := (x.larg.extractLsb' 0 5).toNat
    let (rm, addr) := rm.bankAddr bank byWord ra.word true
    let e : MwrEntry := { bank := BitVec.ofNat 5 bank, addr := BitVec.ofNat 11 addr, data := rb.word, mask := m, full := x.pred = 0 }
    let n := if rm.ahead then rm.wqAhead.length else rm.wq.length
    let full := decide (256 ≤ n)
    let rm := { rm with mwrPeak := BitVec.ofNat 9 (max rm.mwrPeak.toNat (n + 1)) }
    let rm := if full then { rm.fault false with ovfCur := true }
              else if rm.ahead then { rm with wqAhead := rm.wqAhead ++ [e] } else { rm with wq := rm.wq ++ [e] }
    ({ room := rm, report := bad || full, used := if bad then 6 else 0 }, 0, none)

/-- The result of a completed slice operation in every lane: the new accumulators, the overflowed lanes and the value v (R58). -/
def sliceCompute (ds : SliceDesc) (const : Lanes) (s : Slice) : List (BitVec 48) × Lanes × List Int :=
  let lanes := List.range 64
  let terms := lanes.map fun k =>
    planesValue ds.sx k s.xs * (if ds.ysrc then bitsValue ds.sy ds.wy const.toNat else planesValue ds.sy k s.ys)
      + planesValue ds.sa k s.adds
  if ds.accum then
    let sums := terms.zipIdx.map fun (v, k) => (s.acc.getD k 0).toInt + v
    let acc := sums.map (BitVec.ofInt 48)
    let ovr := sums.map fun v => if v < -(2 ^ 47 : Int) ∨ v ≥ (2 ^ 47 : Int) then (1 : Int) else 0
    (acc, planeOf ovr 0, acc.map BitVec.toInt)
  else ([], 0, terms)

/-- The output planes and clamped lanes of a slice's values (R58). -/
def sliceOutput (ds : SliceDesc) (vals : List Int) : List Lanes × Lanes :=
  let outs := vals.map fun v => clampOut ds.sat ds.osgn ds.ow (roundShift v ds.olo ds.rmode)
  ((List.range ds.ow).map (planeOf (outs.map (·.1))), planeOf (outs.map fun o => if o.2 then 1 else 0) 0)

/-- Feed one plane to a slice in a role at a step (R57 to R59). A plane that the operation has no place for is refused at load (R63)
and is not taken. ACCOVF takes an operation's overflowed lanes at once, so that the next instruction reads them: the spec gives no step for
it, and says nothing of a read by another BP in that very step, which here finds what the commands before it left (DESIGN CHOICE, log entry 127). -/
def Slice.feed (s : Slice) (ds : SliceDesc) (const : Lanes) (role step : Nat) (q : Lanes) : Slice :=
  let s := match role with
    | 0 => if s.xs.length < ds.wx then { s with xs := s.xs ++ [q] } else s
    | 1 => if !ds.ysrc ∧ s.ys.length < ds.wy then { s with ys := s.ys ++ [q] } else s
    | 2 => if s.adds.length < ds.wa then { s with adds := s.adds ++ [q] } else s
    | _ => s
  if s.xs.length = ds.wx ∧ (ds.ysrc ∨ s.ys.length = ds.wy) ∧ s.adds.length = ds.wa then
    let (acc, ovr, vals) := sliceCompute ds const s
    let s := { s with xs := [], ys := [], adds := [], ops := s.ops + 1, acc := acc, accOvf := s.accOvf ||| ovr }
    if ds.accum ∧ s.ops < ds.nops + 1 then s
    else
      let (planes, clamped) := sliceOutput ds vals
      { s with ops := 0, acc := [], pipe := s.pipe ++ [{ t := step, planes, clamped }] }
  else s

/-- SLI (R57): feeds q to a slice. A slice with EN = 0 cannot be fed (R56). A slice parity error faults the beat (R62). -/
def Room.sli (rm : Room) (beat : Beat) (free b : Nat) (u : Upset) : Issued :=
  rm.runKind b 4 u 40 fun rm i x =>
    let (rm, bad) := rm.dataCheck b (readAddrs x [x.opa, x.opb, x.opc, x.opd] false) u.data
    let (rm, q) := rm.evaluate beat free b i x 0 0
    let rm := rm.land b
    let n := (x.larg.extractLsb' 0 3).toNat
    let ds := parseSlice (Tbl.get 0 rm.sliceDesc n)
    let rm := if ds.en then rm.setSl n ((rm.sl n).feed ds (rm.const ds.cidx) (x.larg.extractLsb' 3 3).toNat (rm.issueStep i) q) else rm
    let rm := if u.parity then { (rm.fault false).count cntSliceFault with parCur := true } else rm
    ({ room := rm, report := bad || u.parity, used := if bad then 5 else 0 }, q, none)

/-- The next unread plane of a slice's oldest result (R59); with no result, which the loader refuses, an open value. -/
def Slice.readPlane (s : Slice) (free : Nat) : Lanes × Slice :=
  match s.queue with
  | (p :: ps) :: rest => (p, { s with queue := if ps.isEmpty then rest else ps :: rest })
  | _ => (Config.openOperand free, s)

/-- SLR (R42, R59): reads the next result plane into DST. -/
def Room.slr (rm : Room) (free b : Nat) (u : Upset) : Issued :=
  rm.runKind b 5 u 1 fun rm _ x =>
    let (rm, bad) := rm.dataCheck b (readAddrs x [] true) u.data
    let m := rm.predMaskU (free + 4) b x.pred
    let n := (x.larg.extractLsb' 0 3).toNat
    let (q, s) := (rm.sl n).readPlane free
    let rm := ((rm.setSl n s).land b).writeDs b x.dst.toNat m q (x.pred = 0)
    let rm := if u.parity then { (rm.fault false).count cntSliceFault with parCur := true } else rm
    ({ room := rm, report := bad || u.parity, used := 5 }, q, none)

/-- LVB (R42, R70): records ZERO; the level ends when every BP has issued its last instruction. -/
def Room.lvb (rm : Room) (b : Nat) (u : Upset) : Issued :=
  rm.runKind b 6 u 0 fun rm _ _ => ({ room := rm.land b }, 0, none)

/-- NOP (R42): records ZERO. -/
def Room.nopInsn (rm : Room) (b : Nat) (u : Upset) : Issued :=
  rm.runKind b 7 u 0 fun rm _ _ => ({ room := rm.land b }, 0, none)

/-- A slice result becomes ready (R59): SATLANES takes its clamped lanes; with DLV = 1 its planes go to consecutive window slots,
plane i at step t + 12 + i, else it joins the output queue. -/
def Room.sliceReady (rm : Room) (rno n : Nat) : Room :=
  let s := rm.sl n
  match s.pipe with
  | [] => rm
  | r :: rest =>
    let ds := parseSlice (Tbl.get 0 rm.sliceDesc n)
    let s := if ds.sat then { s with pipe := rest, satLanes := r.clamped, satPrev := s.satLanes, satStep := r.t + 12 }
             else { s with pipe := rest }
    if ds.dlv then
      let plane (x : Lanes × Nat) : Nat × WinWord := (ds.oslot + x.2, { word := x.1, level := rm.placeAt (r.t + 12 + x.2), step := r.t + 12 + x.2, src := rno })
      { rm.setSl n s with planes := rm.planes ++ r.planes.zipIdx.map plane }
    else rm.setSl n { s with queue := s.queue ++ [r.planes] }

/-- A pass starts (R72): group history empty, slice accumulators and ACCOVF cleared. An MRD word that has not landed yet is one of an
attempt that a restart or a rollback discards (R30, R95): at the end of a level every word has landed. R31 keeps scratch and is silent on a word
on its way there; it goes too (DESIGN CHOICE, log entry 162). -/
def Room.passStart (rm : Room) : Room :=
  { rm with
    bps := Tbl.mapAll {} rm.bps (fun p => { p with hist := [], issued := 0, landing := none })
    slices := Tbl.mapAll {} rm.slices (fun s => { s with xs := [], ys := [], adds := [], ops := 0, acc := [], accOvf := 0, satPrev := s.satLanes, satStep := 0, pipe := [], queue := [] })
    planes := []
    idx := 0, level := 0, done := 0 }

end Sys2Proof.Machine
end

