-- ==== Sys2Proof/Machine/State/Cellar.lean ====
section
/-! DEFINITION. The state of the cellar (06_cellar.md R153 to R190). -/

namespace Sys2Proof.Machine
open Sys2Proof

/-- A region (R160, R190). -/
structure Region where
  base : BitVec 22 := 0
  limit : BitVec 22 := 0
  en : Bool := false
  sealed_ : Bool := false
  owner : BitVec 7 := 0
  rights : BitVec 9 := 0
  autosweep : Bool := false
  pvalid : Bool := false
  pending : BitVec 6 := 0
  exhausting : Bool := false
  cfgerr : BitVec 3 := 0
  deriving DecidableEq, Repr

/-- A queue (R162, R190). -/
structure CQueue where
  en : Bool := false
  kind : BitVec 3 := 0
  owner : BitVec 7 := 0
  wvalid : Bool := false
  wslot : BitVec 6 := 0
  wevalid : Bool := false
  weff : BitVec 6 := 0
  deriving DecidableEq, Repr

/-- The state of a key slot (R164, R190). -/
inductive KeyPhase where
  | empty | active | retiring
  deriving DecidableEq, Repr

/-- A key slot (R164): its key, its load number and the sealing key derived at its load. -/
structure KeySlot where
  phase : KeyPhase := .empty
  fresh : Bool := false
  key : BitVec 256 := 0
  load : BitVec 32 := 0
  ke : BitVec 256 := 0
  deriving DecidableEq, Repr

/-- A pending KEY_RETIRE (R177): its descriptor, its slot, the state at acceptance and its deadline. -/
structure Retire where
  desc : DescRef
  slot : BitVec 6
  was : KeyPhase
  deadline : Instant
  deriving DecidableEq, Repr

/-- A sweep engine's state (R190). -/
inductive SweepPhase where
  | idle | run | hold
  deriving DecidableEq, Repr

/-- A sweep engine (R179, R190). `exhaust` marks a sweep of a whole region to its pending slot (R167). -/
structure SweepEngine where
  phase : SweepPhase := .idle
  startup : Bool := false
  tgt : BitVec 6 := 0
  region : BitVec 8 := 0
  start : BitVec 27 := 0
  bound : BitVec 27 := 0
  stop : BitVec 27 := 0
  exhaust : Bool := false
  desc : Option DescRef := none
  deriving DecidableEq, Repr

/-- A line held in the hub write buffer (R172): who wrote it, its beat and attempt, the words written and the write slot. -/
structure WbEntry where
  func : FuncId
  rep : Nat
  beat : Beat
  att : Bool
  line : Nat
  words : Tbl (Option Lanes)
  slot : Option (BitVec 6)
  queue : BitVec 9
  committed : Bool := false
  deriving DecidableEq, Repr

/-- A frame store (R184, R190). `beatsIn` counts beats since the frame being read started. -/
structure FrameStore where
  opened : Bool := false
  line : BitVec 27 := 0
  sm1 : BitVec 4 := 0
  region : BitVec 8 := 0
  flines : BitVec 20 := 0
  wframe : BitVec 4 := 0
  validgen : BitVec 8 := 0
  /-- the beat in which the frame being written started -/
  frameBeat : Beat := 0
  /-- the frame being written has begun, and how many of its groups have come -/
  begun : Bool := false
  got : Nat := 0
  /-- its number, by which its groups are told from the next frame's -/
  frameNo : BitVec 16 := 0
  /-- that frame has ended, complete or not -/
  ended : Bool := false
  /-- when the frame being written, or the one that is to follow, is incomplete at the latest (R184, R205), and the raster's frame time -/
  limit : Option Instant := none
  frameTime : Nat := 0
  deriving DecidableEq, Repr

/-- A row repair in progress (R159): the row, the lines that its shadow holds, and the words (address / 8) that were uncorrectable at the copy.
What the shadow holds and serves is what `Cellar.mem` holds at these lines (log entry 13). -/
structure Repair where
  pc : Nat
  row : Nat
  shadow : List Nat := []
  bad : List Nat := []
  deriving DecidableEq, Repr

/-- A write of the sealed area that waits for the end of the start-up clear (R181). -/
structure HeldWrite where
  kind : QKind
  queue : BitVec 9
  line : Nat
  mask : BitVec 128
  data : BitVec 1024
  deriving DecidableEq, Repr

/-- Repair counts of a pseudo-channel (R159, R190). -/
structure PcRepair where
  soft : List Nat := []
  remap : List Nat := []
  deriving DecidableEq, Repr

/-- A read stream that has issued: its words, kept until they arrive, and the verdict, until it reaches the arbiter (R78, R98). -/
structure StreamFlight where
  st : StreamRef
  beat : Beat
  att : Bool
  slot : Nat
  line : Nat := 0
  words : List Lanes
  verdict : Verdict
  /-- the rooms that the words are still on their way to, with the placement generation of each (R102, R146) -/
  dests : List (RoomId × BitVec 8) := []
  delivered : Bool := false
  deriving DecidableEq, Repr

/-- The cellar. -/
structure Cellar where
  /-- all bytes of the stack by cellar address: data space, metadata, device reserve (R153) -/
  mem : Memory := []
  open_ : BitVec 6 := 0
  training : Bool := true
  startup : Bool := false
  clearing : Bool := false
  /-- writes that the start-up clear holds, oldest first (R181) -/
  heldWrites : List HeldWrite := []
  repairing : List Repair := []
  /-- words (address / 8) that stay unreadable since a row repair (R159) -/
  unread : List Nat := []
  /-- corrected errors of rows: row key and time (R159) -/
  rowErrors : List (Nat × Instant) := []
  temp : BitVec 8 := 0
  hot : Bool := false
  wb : List WbEntry := []
  wbPeak : BitVec 16 := 0
  cnt : Tbl Cnt := []
  pcCe : Tbl Cnt := []
  pcUe : Tbl Cnt := []
  pcRepair : Tbl PcRepair := []
  regions : Tbl Region := []
  queues : Tbl CQueue := []
  keys : Tbl KeySlot := []
  nonce : BitVec 128 := 0
  loads : BitVec 32 := 0
  sweeps : Tbl SweepEngine := []
  /-- KEY_RETIREs that wait for their references (R177) -/
  retires : List Retire := []
  frames : Tbl FrameStore := []
  flights : List StreamFlight := []
  deriving DecidableEq, Repr

end Sys2Proof.Machine
end

