-- ==== Sys2Proof/Machine/State/Cores.lean ====
section
/-! DEFINITION. The state of the control cores, the scheduler, the trace streams and the acquisition units
(13_control_cores_and_observation.md R367 to R408). -/

namespace Sys2Proof.Machine
open Sys2Proof

/-- The state of a scheduler entry that is not FREE (R374). -/
inductive TaskPhase where
  | held | pending | running | suspended
  deriving DecidableEq, Repr

/-- What a task was created by (R375, R380), coded as TASK[29:28]. -/
inductive TaskSource where
  | event (ev : BitVec 10) | timer (i : BitVec 6) | post (c : BitVec 4) | descriptor
  deriving DecidableEq, Repr

/-- A task's deadline: device time in ns, or a beat number (R376). -/
inductive Due where
  | ns (t : BitVec 64) | beat (n : Beat)
  deriving DecidableEq, Repr

/-- A scheduler entry (R374); `order` is its place in the order of creation (R377). -/
structure Task where
  entry : Nat
  source : TaskSource
  tclass : BitVec 8
  arg : BitVec 64 := 0
  count : BitVec 8 := 1
  due : Due := .ns 0
  phase : TaskPhase := .pending
  order : Nat := 0
  deriving DecidableEq, Repr

/-- An occurrence that waits for a free entry (R385). -/
structure HeldTask where
  source : TaskSource
  tclass : BitVec 8
  arg : BitVec 64
  due : Due
  ts : Nat
  deriving DecidableEq, Repr

/-- A template (R375, R406). -/
structure Template where
  mask : BitVec 16 := 0
  handler : BitVec 8 := 0
  beats : Bool := false
  rel : Word := 0
  deriving DecidableEq, Repr

/-- A timer (R381, R406); `armed` from a write of NEXT_HI until a one-shot firing. -/
structure Timer where
  en : Bool := false
  periodic : Bool := false
  beats : Bool := false
  late : Bool := false
  tclass : BitVec 8 := 0
  period : Word := 0
  next : BitVec 64 := 0
  armed : Bool := false
  deriving DecidableEq, Repr

/-- An event route (R387, R406). -/
structure Route where
  ten : Bool := false
  ien : Bool := false
  trc : Bool := false
  fn : BitVec 6 := 0
  vector : BitVec 11 := 0
  tclass : BitVec 8 := 0
  deriving DecidableEq, Repr

/-- The scheduler (R374 to R388, R406). -/
structure Sched where
  tasks : List Task := []
  waiting : List HeldTask := []
  /-- tasks created so far, to order them (R377) -/
  order : Nat := 0
  templates : Tbl Template := []
  timers : Tbl Timer := []
  routes : Tbl Route := []
  cnt : Tbl Cnt := []
  /-- messages of masked vectors whose pending bit is set (R388), by function * 2048 + vector -/
  msixPending : List Nat := []
  msixMasked : List Nat := []
  deriving DecidableEq, Repr

/-- A byte stream's sink and configuration (R389 to R396, R407). `pos` counts bytes since the last SYNC (R392). -/
structure Stream where
  en : Bool := false
  cyc : Bool := false
  data : Bool := false
  stall : Bool := false
  mode : BitVec 2 := 0
  rngen : BitVec 4 := 0
  sink : Bool := false
  queue : BitVec 9 := 0
  base : BitVec 64 := 0
  size : Word := 0
  wp : Word := 0
  rp : Word := 0
  isOn : Bool := false
  /-- the comparator or range that turned the stream on (R393) -/
  rngSrc : BitVec 4 := 0
  daddr : BitVec 8 := 0
  act : BitVec 24 := 0
  cmp : Tbl (BitVec 64) := []
  rngStart : Tbl (BitVec 64) := []
  rngStop : Tbl (BitVec 64) := []
  /-- outcomes of conditional branches not yet written, oldest first (R390) -/
  branches : List Bool := []
  /-- the cycle value deltas count from (R391) -/
  cycleBase : BitVec 64 := 0
  pos : Nat := 0
  lastSync : Nat := 0
  /-- bytes dropped since the sink became full (R394); none while it is not in overflow -/
  dropped : Option Nat := none
  cntOvf : Cnt := {}
  -- device stream only: kinds and function filter, and packets in the reorder window (R396)
  kinds : BitVec 4 := 0
  filter : BitVec 16 := 0
  window : List (Nat × Nat × Bytes) := []
  deriving DecidableEq, Repr

/-- A core's run state (CCORE_STATE.STATE). -/
inductive CorePhase where
  | held | run | sleep | reset
  deriving DecidableEq, Repr

/-- A control core (R367 to R370, R407). Task entries lie in `stack`, innermost first. -/
structure Core where
  run : Bool := false
  view : BitVec 6 := 0
  queue : BitVec 9 := 0
  phase : CorePhase := .held
  boot : BitVec 18 := 0
  wdogEn : Bool := false
  wdogPeriod : BitVec 24 := 0
  wdogSince : Instant := 0
  lda : BitVec 18 := 0
  cnt : Tbl Cnt := []
  tcm : Memory := []
  stack : List Nat := []
  postArg : BitVec 64 := 0
  postDl : BitVec 64 := 0
  -- architectural state (R367)
  x : Tbl (BitVec 64) := []
  pc : BitVec 64 := 0
  machineMode : Bool := true
  csr : Tbl (BitVec 64) := []
  mcycle : BitVec 64 := 0
  asleepSince : Instant := 0
  /-- hash of its TCM at its start (R369) -/
  measurement : BitVec 256 := 0
  deriving DecidableEq, Repr

/-- State of the standby firmware pair (R371). -/
inductive Standby where
  | none | loading | ready | failed
  deriving DecidableEq, Repr

/-- A slot handover in progress (R372): its descriptor, and the firmware being installed. -/
structure Handover where
  desc : DescRef
  slot : BitVec 3
  secver : BitVec 8
  version : Word
  header : BitVec 256
  deriving DecidableEq, Repr

/-- The cores and the firmware pairs. -/
structure Cores where
  cores : Tbl Core := []
  streams : Tbl Stream := []
  activeB : Bool := false
  sb : Standby := .none
  handover : Bool := false
  pendingFw : Option Handover := none
  secver : BitVec 8 := 1
  version : Word := 1
  hash : BitVec 256 := 0
  sbSecver : BitVec 8 := 1
  sbVersion : Word := 1
  sbHash : BitVec 256 := 0
  deriving DecidableEq, Repr

/-- A unit's state (ACQ_STATE.STATE). -/
inductive AcqPhase where
  | idle | armed | triggered | done | error
  deriving DecidableEq, Repr

/-- A record of an acquisition ring: its words, and whether it belongs to the records kept before the trigger. -/
structure AcqRec where
  offset : Nat
  words : List (BitVec 64)
  deriving DecidableEq, Repr

/-- An arm record (R398). -/
structure ArmRec where
  src : Nat := 0
  master : Bool := false
  ctin : Bool := false
  cellar : Bool := false
  raw : Bool := false
  sel1 : Nat := 0
  sel2 : Nat := 0
  repl : Nat := 0
  tkind : Nat := 0
  tnum : Nat := 0
  tvalue : BitVec 64 := 0
  tmask : BitVec 64 := 0
  pre : Nat := 0
  post : Nat := 0
  base : Nat := 0
  size : Nat := 0
  queue : Nat := 0
  rsvOk : Bool := true
  deriving DecidableEq, Repr

/-- An acquisition unit (R397 to R404, R408). -/
structure AcqUnit where
  phase : AcqPhase := .idle
  div : BitVec 3 := 0
  overrun : Bool := false
  master : Bool := false
  gmaster : BitVec 4 := 0
  origin : BitVec 4 := 0
  arm : ArmRec := {}
  prefull : Bool := false
  startOff : BitVec 64 := 0
  wp : BitVec 64 := 0
  trigBeat : BitVec 64 := 0
  trigStep : BitVec 17 := 0
  fracValid : Bool := false
  frac : BitVec 6 := 0
  drop : Cnt := {}
  /-- records kept before the trigger, oldest first -/
  kept : List AcqRec := []
  /-- source records seen since arming; records written; records still to write after the trigger -/
  sample : BitVec 40 := 0
  written : Nat := 0
  left : Nat := 0
  /-- the next record is the one taken at the trigger -/
  trigNext : Bool := false
  /-- occurrences that an EVENT unit has received and not yet captured, in (timestamp, source) order (R107, R397) -/
  window : List (Instant × Nat) := []
  /-- when its event or TRIG input condition first held since arming (R402) -/
  hit : Option Instant := none
  deriving DecidableEq, Repr

end Sys2Proof.Machine
end

