-- ==== Sys2Proof/Machine/State/Fabric.lean ====
section
/-! DEFINITION. The state of the direct fabric and of the image loader, scrubber and migration registers (10_direct_fabric.md R284
to R304; 11_images_and_reconfiguration.md R305 to R338). -/

namespace Sys2Proof.Machine
open Sys2Proof

/-- A fabric block's state (FABRIC_FB.STATE). -/
inductive FbPhase where
  | empty | run | thresh
  deriving DecidableEq, Repr

/-- The configuration of a fabric block (R311 to R313): words as the records carry them, golden copy and essential map alike. -/
structure FbConfig where
  cells : Tbl (BitVec 64) := []
  bram : Tbl (BitVec 64) := []
  iocell : Tbl (BitVec 64) := []
  hubport : BitVec 64 := 0
  portin : Tbl (BitVec 16) := []
  essmap : Tbl Byte := []
  /-- the image carries an ESSMAP for the block (R329) -/
  mapped : Bool := false
  deriving DecidableEq, Repr

/-- What a port of a block RAM answers (R290): its read data, and its error output in SECDED mode. -/
structure RamOut where
  data : BitVec 72 := 0
  err : Bool := false
  deriving DecidableEq, Repr

/-- The registers of an I/O cell (R303): what the input register captured on the rising and on the falling edge, what the output register
drives, the datum it launches on the falling edge, and the output enable. -/
structure IoRegs where
  inRise : Bool := false
  inFall : Bool := false
  out : Bool := false
  outFall : Bool := false
  oe : Bool := false
  deriving DecidableEq, Repr

/-- A fabric block. -/
structure FbBlock where
  phase : FbPhase := .empty
  rel : BitVec 2 := 0
  /-- an application has configured it (FABRIC_STATE.LOADED) -/
  loaded : Bool := false
  /-- it has reached stage 1 of a release: its pins are no longer high-impedance (R298, R326) -/
  released : Bool := false
  config : FbConfig := {}
  golden : FbConfig := {}
  /-- block RAM bytes, RAM * 4608 + byte (R290, R313) -/
  ram : Memory := []
  /-- the read ports of the block RAMs, RAM * 2 + port: 0 A, 1 B (R290) -/
  ramOut : Tbl RamOut := []
  /-- flip-flops of the block's cells, by cell (R285, R298) -/
  ffs : Tbl Bool := []
  /-- the registers of its six I/O cells (R303) -/
  io : Tbl IoRegs := []
  /-- its threshold cells, which present these values in place of the cells' outputs and of the pins' data and enables while the block is
  under threshold hold (R297, R326) -/
  held : Tbl Bool := []
  heldIo : Tbl (Bool × Bool) := []
  /-- held by the boundary after application: the scrubber skips the block (R321) -/
  noScrub : Bool := false
  deriving DecidableEq, Repr

/-- A hub port (R293 to R295, R304). -/
structure HubPort where
  clk : BitVec 5 := 0
  ready : Bool := false
  /-- indices taken for the coming beat and their words (R294) -/
  taken : Tbl (Option Lanes) := []
  closed : Bool := false
  txcount : BitVec 7 := 0
  /-- words to present to the fabric in this beat, ascending index (R295) -/
  rx : List (Nat × Lanes) := []
  /-- the word that the port presents in this HP clock cycle (R295) -/
  rxNow : Option (Nat × Lanes) := none
  rxcount : BitVec 7 := 0
  rxsub : Bool := false
  /-- drain words discarded under threshold hold (R326), which no register shows -/
  stale : Nat := 0
  /-- a beat boundary has passed and HP_BEAT is due on the next clock edge; HP_BEAT is 1 in this cycle (R293) -/
  beatDue : Bool := false
  beat : Bool := false
  deriving DecidableEq, Repr

/-- A user I/O bank (R301, R302). -/
structure IoBank where
  decl : BitVec 3 := 0
  mismatch : Bool := false
  present : Bool := false
  vclass : BitVec 3 := 0
  deriving DecidableEq, Repr

/-- What the device drives at a user I/O (R301, R313): nothing where it is high-impedance; and its pull, coded as PULL. -/
structure Pad where
  drive : Option Bool := none
  pull : BitVec 2 := 0
  deriving DecidableEq, Repr

/-- The delays of a user I/O (R303): targets and the delays in force, in 10 ps units. -/
structure IoDelay where
  idly : BitVec 8 := 0
  odly : BitVec 8 := 0
  inow : BitVec 8 := 0
  onow : BitVec 8 := 0
  deriving DecidableEq, Repr

/-- An application of a fabric image in progress (R321): its descriptor, its slot and the blocks still to be written. -/
structure Application where
  desc : DescRef
  slot : BitVec 3
  left : List Nat
  blocks : List Nat
  /-- the status it completes with -/
  status : Nat := 0
  deriving DecidableEq, Repr

/-- The direct fabric. -/
structure Fabric where
  autorel : Bool := true
  warmkeep : Bool := true
  relgap : BitVec 4 := 1
  relclk : BitVec 5 := 0
  waitclk : Bool := false
  rel : BitVec 2 := 0
  /-- blocks whose release is under way, and those that wait for RELEASE (R299) -/
  releasing : List Nat := []
  pllLock : BitVec 8 := 0
  pll : Tbl (BitVec 64) := []
  /-- the golden copies of the PLL words (R327) -/
  pllGolden : Tbl (BitVec 64) := []
  /-- the device time up to which the fabric's clocks have run -/
  ran : Instant := 0
  /-- the user I/O as they stand -/
  pads : Tbl Pad := []
  cnt : Tbl Cnt := []
  banks : Tbl IoBank := []
  blocks : Tbl FbBlock := []
  hubports : Tbl HubPort := []
  iodly : Tbl IoDelay := []
  uev : Tbl Bool := []
  /-- stages are being withdrawn by a warm reset (R300) -/
  withdrawing : Bool := false
  applying : List Application := []
  /-- RELEASE writes ignored (R299) are counted here -/
  relIgnored : Nat := 0
  /-- user I/O held at its current state by DEVICE_SAFE (R419) -/
  ioHeld : Bool := false
  deriving DecidableEq, Repr

/-- A staging slot's state (R315). -/
inductive StgPhase where
  | empty | receiving | verified
  deriving DecidableEq, Repr

/-- A staging slot (R315 to R319): bytes received, and the last status and detail. -/
structure Staging where
  phase : StgPhase := .empty
  kind : BitVec 3 := 0
  /-- header and signature block, then the body bytes of accepted frames -/
  head : Bytes := []
  /-- bytes received that do not yet make a whole frame -/
  rest : Bytes := []
  body : Bytes := []
  frames : Nat := 0
  /-- the places of its frames in the staging area, in units of 4,096 bytes (R315), and frames accepted but not stored there yet -/
  places : List Nat := []
  fresh : List Bytes := []
  expect : BitVec 256 := 0
  checked : Nat := 0
  status : Nat := 0
  detail : Nat := 0
  failFrame : Nat := 0
  deriving DecidableEq, Repr

/-- The image loader, scrubber and migration registers. -/
structure Loader where
  stgCellar : Bool := false
  stgRegion : BitVec 8 := 0
  stgQueue : BitVec 9 := 0
  slots : Tbl Staging := []
  firmware : Staging := {}
  scrubEn : Bool := true
  essper : BitVec 8 := 10
  bgper : BitVec 8 := 10
  bgLast : BitVec 16 := 0
  essLast : BitVec 16 := 0
  /-- since when the cycles that are under way run (R338) -/
  bgFrom : Option Instant := none
  essFrom : Option Instant := none
  cnt : Tbl Cnt := []
  maxlag : BitVec 8 := 128
  maxcmp : BitVec 8 := 64
  migSel : BitVec 16 := 0
  /-- functions whose last migration reached SWITCHED -/
  switched : List (BitVec 16) := []
  /-- the last placement generation given -/
  gen : BitVec 8 := 0
  deriving DecidableEq, Repr

end Sys2Proof.Machine
end

