-- ==== Sys2Proof/Machine/State/Func.lean ====
section
/-! DEFINITION. The schedule object as the loader reads it (04_schedule_contract.md R110 to R117), and what the loader and the commit
arbiter keep for each function (03_beat_and_commit.md R84 to R104; 11_images_and_reconfiguration.md R323 to R337). -/

namespace Sys2Proof.Machine
open Sys2Proof

/-- A stream declaration (R116) with its address generator (R183). -/
structure StreamDecl where
  vroom : Nat
  write : Bool
  stream : Nat
  sigma : Nat
  slot : Nat
  words : Nat
  fpass : Nat
  region : Nat
  mode : Nat
  line : Nat
  step : Nat
  rlog : Nat
  raw : BitVec 128
  deriving DecidableEq, Repr

/-- A BANKIMG record (R114). -/
structure BankImg where
  bank : Nat
  first : Nat
  words : List Lanes
  deriving DecidableEq, Repr

/-- The sections of one virtual room (R114 to R117). -/
structure RoomImg where
  insns : List (List (BitVec 96)) := []
  consts : List Lanes := []
  sends : List (BitVec 64) := []
  primary : Nat := 0
  hdrRsv : Bool := false
  setups : List (BitVec 64) := []
  slices : List (BitVec 128) := []
  slots : List (BitVec 16) := []
  bankImg : List BankImg := []
  state : List Lanes := []
  streams : List StreamDecl := []
  probes : List Word := []
  profile : List Nat := []
  deriving DecidableEq, Repr

/-- A binding record by its TYPE (R213, R269), with its 32 bytes as read. -/
structure BindRec where
  type : Nat
  num : Nat
  vroom : Nat
  fmt : Nat := 0
  samp : Nat := 0
  b : Nat := 0
  div : Nat := 0
  gmax : Nat := 0
  slot0 : Nat := 0
  size : Nat := 0
  tags : Bool := false
  tslot : Nat := 0
  target : Nat := 0
  fsidx : Nat := 0
  /-- REMOTE: DIR = IN -/
  dirIn : Bool := false
  words : Nat := 0
  lastStep : Nat := 0
  rsvOk : Bool := true
  deriving DecidableEq, Repr

/-- A schedule object (R111). -/
structure Obj where
  funcId : Nat := 0xFFFF
  v : Nat := 0
  p : Nat := 0
  l : Nat := 0
  levels : List (Nat × Nat) := []
  wDecl : Nat := 0
  nwin : Nat := 0
  dual : Bool := false
  initState : Bool := false
  ndrain : Nat := 0
  rdLines : Nat := 0
  wrLines : Nat := 0
  mwrMax : Nat := 0
  rooms : List RoomImg := []
  bindings : List BindRec := []
  subst : List Nat := []
  deriving DecidableEq, Repr

/-- A refusal of the loader (R128, R350): status, detail, virtual room, and the index at fault with its kind and BP. -/
structure Nak where
  status : Nat
  detail : Nat
  vroom : Nat := 0xFFFF
  index : Nat := 0xFFFF
  ikind : Nat := 0
  bp : Nat := 0x7F
  deriving DecidableEq, Repr

/-- Where a virtual room runs (R120, R121). -/
structure Place where
  set : Bool
  rep : Nat
  vroom : Nat
  room : RoomId
  deriving DecidableEq, Repr

/-- A FEED, DRAIN, HUBPORT binding's source or target (R215, R216). -/
structure Endpoints where
  feeds : Tbl Word := []
  drains : Tbl Word := []
  hubports : Tbl Word := []
  /-- region bindings: [8:0] queue, [23:16] region, [31] valid (R348) -/
  regions : Tbl Word := []
  remotes : Tbl (BitVec 64) := []
  deriving DecidableEq, Repr

/-- A word of a drain (R81, R217): its beat and attempt. -/
structure DrainWord where
  word : Lanes
  beat : Beat
  att : Bool
  deriving DecidableEq, Repr

/-- A migration's phase (R332). -/
inductive MigPhase where
  | load | seed | compare
  deriving DecidableEq, Repr

/-- What a source room sends its target (R333): a state write with its working copy, a write-queue entry, or the end mark of a beat with the pointer
positions that it reached and the words of its HOLD slots. -/
inductive SeedItem where
  | state (b a : Nat) (w : Work)
  | entry (e : MwrEntry)
  | mark (rpos wpos : Tbl Nat) (holds : List (Nat × Option Lanes))
  deriving DecidableEq, Repr

/-- An entry of a migration's log (R333): the beat and attempt that it is tagged with. -/
structure SeedEntry where
  beat : Beat
  att : Bool
  item : SeedItem
  deriving DecidableEq, Repr

/-- Bytes of a log entry (R333). -/
def SeedEntry.bytes (e : SeedEntry) : Nat := match e.item with
  | .state _ _ _ => 10
  | .entry _ => 26
  | .mark _ _ holds => 64 + 8 * holds.length

/-- The entry is an end mark. -/
def SeedEntry.isMark (e : SeedEntry) : Bool := match e.item with | .mark _ _ _ => true | _ => false

/-- A migration of a function (R331 to R337). `log` and `got` hold the log entries (R333) by target room. -/
structure Migration where
  desc : DescRef
  set : Bool
  rep : Option Nat
  k : Nat
  gen : BitVec 8
  places : List Place
  sources : List Place
  written : List RoomId := []
  phase : MigPhase := .load
  /-- boundary s or c -/
  since : Beat := 0
  matched : Nat := 0
  /-- targets that have received the snapshot -/
  seeded : List RoomId := []
  /-- by target room: what its source has issued and it has not received, and what it has received of beats whose decision it has not applied, oldest
  first -/
  log : Tbl (List SeedEntry) := []
  got : Tbl (List SeedEntry) := []
  /-- the function's decisions since s, oldest first -/
  fates : List Decision := []
  /-- the beat of the last end mark that each target received -/
  marks : Tbl (Option Beat) := []
  /-- target votes of the beat -/
  votes : List Vote := []
  /-- the detail of its failure: the targets are released at the next boundary (R336) -/
  failed : Option Nat := none
  deriving DecidableEq, Repr

/-- The life of a function in the device: reserved until its commit point (R130), admitted, or cleared after its retirement (R325). -/
inductive FuncPhase where
  | reserved | admitted | retiring
  deriving DecidableEq, Repr

/-- What the loader and the commit arbiter hold for a function. -/
structure Func where
  id : FuncId
  obj : Obj
  r : Nat
  owner : BitVec 7
  gen : BitVec 8
  budget : Nat
  places : List Place
  ends : Endpoints
  /-- the hash of the object's image (R347, R430) -/
  hash : BitVec 256 := 0
  phase : FuncPhase := .reserved
  /-- rooms written so far (R323) and rooms still to be cleared (R325) -/
  written : List RoomId := []
  clearing : List RoomId := []
  -- commit arbiter (R84 to R91)
  /-- the beat being decided; `since` the first beat of the function -/
  since : Beat := 0
  deadlineD : Nat := 0
  votes : List Vote := []
  verdicts : List (StreamRef × Bool) := []
  hubFault : Bool := false
  ordered : Bool := false
  remote : List (BitVec 11 × FuncId × Beat × Bool) := []
  decided : Option Decision := none
  /-- the decision of the current beat as the hub units hold it (R90) -/
  hubDec : Option Decision := none
  /-- decisions kept for rooms that vote LATE (R149), newest first -/
  past : List Decision := []
  /-- last beat for which each room sent a VOTE other than LATE (R149) -/
  lastVote : Tbl Beat := []
  everCommitted : Bool := false
  /-- committed beats, k of RING streams (R183) -/
  ringK : Nat := 0
  -- drains (R217): key (replica * 256 + drain) * 65536 + index
  filling : Tbl (Option DrainWord) := []
  emitting : Tbl (Option DrainWord) := []
  /-- the decision whose words are being emitted: true when committed (R99, R100) -/
  emitCommit : Bool := false
  emitBeat : Beat := 0
  /-- drains released in this beat (R100) -/
  released : List Nat := []
  /-- attempt-0 words of the current beat are discarded after a restart (R95) -/
  hubAtt : Bool := false
  /-- write-stream lines counted against the beat's quota (R131) -/
  wlines : List Nat := []
  migration : Option Migration := none
  deriving DecidableEq, Repr

end Sys2Proof.Machine
end

