-- ==== Sys2Proof/Machine/State/Fuse.lean ====
section
/-! DEFINITION. The state of the fuse box (14_fuse_box.md R409 to R426). -/

namespace Sys2Proof.Machine
open Sys2Proof

/-- A source of the fuse box (R410 to R413, R421, R426). `slices` lists the slice number and count of each of the last 16 slices with
an occurrence, newest first; `liveOnce` counts the occurrences of a release. -/
structure FuseSrc where
  tclass : BitVec 8 := 0
  react : BitVec 8 := 1
  beatcls : Bool := false
  win : BitVec 6 := 0
  n : BitVec 8 := 1
  egmask : BitVec 32 := 0
  latched : Bool := false
  /-- reactions held by the latch (R413) -/
  held : BitVec 8 := 0
  /-- egress groups forced by the latch -/
  heldEg : BitVec 32 := 0
  rstpend : Bool := false
  slices : List (Nat × Nat) := []
  cnt : Cnt := {}
  deriving DecidableEq, Repr

/-- A force or lift that waits for the boundary (R420). -/
structure PendingForce where
  src : BitVec 10
  deriving DecidableEq, Repr

/-- An isolation that ends at the next boundary (R421). -/
structure IsolationExit where
  room : RoomId
  deriving DecidableEq, Repr

/-- The fuse box. -/
structure Fuse where
  released : Bool := false
  srcs : Tbl FuseSrc := []
  /-- FUSE_EGMAP: by egress, EN and GROUP -/
  egmap : Tbl (BitVec 6) := []
  wp : BitVec 12 := 0
  rp : BitVec 12 := 0
  idx : BitVec 12 := 0
  cnt : Tbl Cnt := []
  /-- occurrences in the reorder window (R409) -/
  window : List Occ := []
  /-- forces of sources of timing class beat, in effect from the next boundary on (R420) -/
  forces : List PendingForce := []
  exits : List IsolationExit := []
  deriving DecidableEq, Repr

end Sys2Proof.Machine
end

