-- ==== Sys2Proof/Machine/State/Hub.lean ====
section
/-! DEFINITION. The state of the register interface, of power, reset and start-up, and of the TAP (16_registers.md R444 to R457;
17_power_reset_startup.md R458 to R472; 18_package_and_electrical.md R483 to R486). -/

namespace Sys2Proof.Machine
open Sys2Proof

/-- A requester's copy of an indirect pair (R454, R455). An XD access ends in the step that makes it, so XSTAT.BUSY reads 0 (log entry 52). -/
structure Pair where
  xa : Word := 0
  stride : BitVec 8 := 4
  err : Bool := false
  deriving DecidableEq, Repr

/-- What is banked for each requester (R448, R454, R249): read latch and write latch with their tags (the address of the low word;
rooms and lanes at 2^32 and 2^33 above their XA), the pairs, and the latch of TIME_NOW. -/
structure ReqState where
  rdTag : Option Nat := none
  rdVal : Word := 0
  wrTag : Option Nat := none
  wrVal : Word := 0
  room : Pair := {}
  lane : Pair := {}
  nowNs : Option Instant := none
  nowLo : Option Instant := none
  nowHi : Option Instant := none
  deriving DecidableEq, Repr

/-- The arbiter's figures of a function ID, kept after its retirement until the ID is admitted again (R91, R457). -/
structure Figure where
  commits : BitVec 63 := 0
  sat : Bool := false
  rollbacks : Tbl Cnt := []
  lastCause : BitVec 4 := 0
  deriving DecidableEq, Repr

/-- The HUB block. -/
structure Hub where
  decode : Bool := false
  dAddr : Word := 0
  dValid : Bool := false
  dWrite : Bool := false
  dView : BitVec 6 := 0
  dSrc : BitVec 5 := 0
  cnt : Tbl Cnt := []
  arbSel : BitVec 16 := 0
  figures : Tbl Figure := []
  reqs : Tbl ReqState := []
  /-- writes of acknowledge fields that a block ignored (R5, R450), by block number, where no register of the block shows the count -/
  ignored : Tbl Cnt := []
  deriving DecidableEq, Repr

/-- The device's identity, fixed by its fuses and its board (R1, R2, R13, R485). -/
structure Ident where
  stepping : BitVec 4 := 1
  iGrade : Bool := false
  slowStep : Bool := false
  disabled : List (BitVec 8) := []
  deriving DecidableEq, Repr

/-- A register write that firmware makes from its configuration record: block (R445), offset, value; a lane's offset holds its number in [15:8]. -/
structure RecordWrite where
  block : BitVec 5
  off : BitVec 16
  v : Word
  deriving DecidableEq, Repr

/-- What the firmware configuration record in the flash says of this device's start (R154, R227, R239, R424, R464, R467); no reset changes it. -/
structure FwRecord where
  open_ : BitVec 6 := 0
  ref10 : Bool := false
  freestart : Bool := false
  hubres : BitVec 9 := 120
  ceil : BitVec 9 := 300
  /-- the fuse box's configuration and egress map, and the lanes, ports and bundles to configure and enable -/
  writes : List RecordWrite := []
  deriving DecidableEq, Repr

/-- A thermal sensor (R470). -/
structure Sensor where
  samples : BitVec 5 := 0
  temp : BitVec 16 := 0
  deriving DecidableEq, Repr

/-- The power governor, resets and start-up. -/
structure Power where
  hubres : BitVec 9 := 120
  ceil : BitVec 9 := 300
  stage : BitVec 4 := 0
  /-- the device is held in cold reset: PORST_N low or a rail out of range (R459) -/
  cold : Bool := true
  porst : Bool := false
  warmPin : Bool := true
  perst : Bool := true
  booterr : BitVec 8 := 0
  bootsrc : BitVec 2 := 0
  avsFault : Bool := false
  ceilOver : Bool := false
  overTemp : Bool := false
  hot : Bool := false
  /-- consecutive readings above P_ceil (R468) -/
  above : Nat := 0
  measHub : BitVec 16 := 0
  measTotal : BitVec 16 := 0
  hotCfg : BitVec 8 := 95
  roomOff : Bool := true
  vset : Tbl (BitVec 16) := []
  vmeas : Tbl (BitVec 16) := []
  vfault : Tbl Bool := []
  lastVstep : Tbl Instant := []
  cnt : Tbl Cnt := []
  sensors : Tbl Sensor := []
  /-- every monitored rail has been in range for 1 ms (R459) -/
  good : Bool := true
  /-- rails out of range (R459) -/
  railsOut : List Rail := []
  /-- boundary a of a warm reset in progress (R463), and the hub has returned and waits for b -/
  warmFrom : Option Beat := none
  returned : Bool := false
  deriving DecidableEq, Repr

/-- The test access port (R483). -/
structure Tap where
  instr : TapInstr := .idcode
  pins : Bool := false
  /-- the boundary register (R484): what its cells captured from the pins, and what their update stage holds for them -/
  captured : List (BoundaryPin × Bool) := []
  update : List (BoundaryPin × Bool) := []
  deriving DecidableEq, Repr

end Sys2Proof.Machine
end

