-- ==== Sys2Proof/Machine/State/Link.lean ====
section
/-! DEFINITION. The state of the serial lanes, the Bilben link and the mirrored pair (09_lanes_and_link.md R250 to R283). -/

namespace Sys2Proof.Machine
open Sys2Proof

/-- A lane's bring-up state (R253, R255, LANE_STATUS.STATE). -/
inductive LanePhase where
  | off | cdr | align | up | sleep
  deriving DecidableEq, Repr

/-- A lane (R253 to R258, R282). -/
structure Lane where
  en : Bool := false
  proto : BitVec 3 := 0
  blind : Bool := false
  txinv : Bool := false
  rxinv : Bool := false
  txsleep : Bool := false
  rxsleep : Bool := false
  frac1001 : Bool := false
  kbps : BitVec 25 := 0
  phase : LanePhase := .off
  /-- its transmitter sends: the idle pattern where nothing else is there to send (R253) -/
  tx : Bool := false
  cdrLock : Bool := false
  adapted : Bool := false
  inBundle : Bool := false
  /-- its rate would be a third family of its octet: it does not take effect (R250) -/
  third : Bool := false
  ovr : Bool := false
  pre : BitVec 6 := 0
  post : BitVec 6 := 0
  ctle : BitVec 6 := 0
  gen : Bool := false
  chk : Bool := false
  pat : BitVec 2 := 0
  prbsLock : Bool := false
  err : Cnt := {}
  down : Cnt := {}
  dwell : BitVec 6 := 20
  eyeBusy : Bool := false
  eyeValid : Bool := false
  mvstep : BitVec 8 := 0
  volt : BitVec 6 := 0
  phaseSel : BitVec 6 := 0
  /-- mismatches by point, voltage * 64 + phase (R256) -/
  eye : Tbl (BitVec 31) := []
  /-- the fuse box took the lane out of service (R417) -/
  isolated : Bool := false
  deriving DecidableEq, Repr

/-- An octet (R250, R282). -/
structure Octet where
  reverse : Bool := false
  ref : BitVec 3 := 2
  deriving DecidableEq, Repr

/-- A bundle's state (R283). -/
inductive BdPhase where
  | down | training | up
  deriving DecidableEq, Repr

/-- A frame that waits for a lane (R264), with the bundle and virtual channel whose receive buffer holds it, where it came in over one. -/
structure Waiting where
  frame : Frame
  buffer : Option (Nat × Nat) := none
  deriving DecidableEq, Repr

/-- Frames that a binding of another device reserves on a bundle, on its way through this device (R273). -/
structure Through where
  dev : BitVec 11
  func : FuncId
  target : Nat
  frames : Nat
  deriving DecidableEq, Repr

/-- A bundle direction pair (R259 to R263, R283). -/
structure Bundle where
  en : Bool := false
  rate : Bool := false
  xrsv : BitVec 10 := 0
  rto : BitVec 8 := 20
  oct : BitVec 4 := 0
  mask : BitVec 8 := 0
  phase : BdPhase := .down
  laneErr : Bool := false
  active : BitVec 8 := 0
  partner : BitVec 11 := 0
  delay : Word := 0
  asym : Word := 0
  cnt : Tbl Cnt := []
  -- go-back-N (R261)
  txSeq : BitVec 12 := 0
  rxAck : BitVec 12 := 0
  /-- frames sent and not acknowledged, oldest first, and when each was last sent -/
  retry : List Frame := []
  sentAt : List Instant := []
  /-- how often each of them was sent (R262) -/
  sends : List Nat := []
  nakSent : Bool := false
  /-- lanes the partner advertises, and those this end advertises (R263) -/
  peerMask : BitVec 8 := 0
  advert : BitVec 8 := 0
  /-- CRC failures of each lane with their times (R263) -/
  crcFails : List (BitVec 3 × Instant) := []
  /-- frames waiting for a lane, by class and VC order (R264) -/
  queue : List Waiting := []
  /-- frames ahead of the next in order, with their arrival (R263) -/
  reorder : List (Frame × Instant) := []
  /-- credits for the partner's receive buffers, by class * 2 + VC (R264); 32 each -/
  used : Tbl Nat := []
  /-- frames received since the last credit returns, by the same keys (R264) -/
  got : Tbl Nat := []
  /-- when the last markers left, newest first, and when the last one arrived (R267, R268) -/
  lastTx : List Nat := []
  lastArrival : Nat := 0
  /-- boundaries since that marker (R281) -/
  missed : Nat := 0
  /-- frames that this device's own bindings reserve for each beat, and those of other devices' bindings (R273) -/
  reserved : List ((FuncId × Nat) × Nat) := []
  through : List Through := []
  /-- packets partly received (R260), by class -/
  partial_ : List Frame := []
  /-- packets that are partly on their way on: source, destination, class and virtual channel (R260, R265) -/
  passing : List (BitVec 11 × BitVec 11 × BitVec 2 × Bool) := []
  deriving DecidableEq, Repr

/-- A forwarding entry (R265). -/
structure Fwd where
  valid : Bool := false
  dl : Bool := false
  bundle : BitVec 4 := 0
  deriving DecidableEq, Repr

/-- A dependency of a receiving function on a sender's decision (R77, R272). -/
structure RemoteDep where
  dev : BitVec 11
  sender : FuncId
  func : FuncId
  vroom : Nat
  rep : Nat
  bind : Nat
  /-- the first and the last receiving beat that need it -/
  since : Beat
  until_ : Beat := BitVec.allOnes 64
  deriving DecidableEq, Repr

/-- A REMOTE word for the next beat's slots already seen with ATT = 1 (R271). -/
structure RemoteAtt where
  func : FuncId
  vroom : Nat
  rep : Nat
  bind : Nat
  beat : Beat
  deriving DecidableEq, Repr

/-- A query of an admission for one of its OUT bindings, with its answer (R272). -/
structure RemoteQuery where
  desc : DescRef
  bind : Nat
  dev : BitVec 11
  answer : Option Bool := none
  deriving DecidableEq, Repr

/-- The mirrored pair's state (R275, R283). -/
inductive MirrorPhase where
  | off | paired | split
  deriving DecidableEq, Repr

/-- A descriptor that awaits APPLIED (R276). -/
structure AwaitApplied where
  desc : DescRef
  seq : BitVec 64
  /-- this device's own status, once its commit point has passed -/
  own : Option Nat
  applied : Option Nat
  /-- the pair split before it had both (R280) -/
  lost : Bool := false
  deriving DecidableEq, Repr

/-- The link unit. -/
structure Link where
  lanes : Tbl Lane := []
  octets : Tbl Octet := []
  en : Bool := false
  upbundle : BitVec 4 := 0
  upvalid : Bool := false
  devid : BitVec 11 := 0
  uplock : Bool := false
  hops : BitVec 6 := 63
  bundles : Tbl Bundle := []
  fwd : Tbl Fwd := []
  /-- changes of forwarding entries that wait for the boundary (R266) -/
  fwdNext : Tbl (Option Fwd) := []
  cnt : Tbl Cnt := []
  /-- the device's own frames for itself (R265) -/
  loop : List Frame := []
  queries : List RemoteQuery := []
  deps : List RemoteDep := []
  atts : List RemoteAtt := []
  -- mirror
  autopromote : Bool := false
  secegress : Bool := false
  lead : BitVec 3 := 2
  mbundle : BitVec 4 := 0
  altbundle : BitVec 4 := 0
  altvalid : Bool := false
  partner : BitVec 11 := 0
  mirror : MirrorPhase := .off
  secondary : Bool := false
  egressActive : Bool := false
  await : List AwaitApplied := []
  /-- decisions of the beat, for the digest (R278), and the device's own digest of the previous beat -/
  digest : BitVec 64 := 0
  /-- the pair is declared SPLIT at the next boundary (R277) -/
  splitNext : Bool := false
  diverged : Bool := false
  /-- the partner's admitted function IDs and object hashes, as they came for a FORM (R347) -/
  partnerList : List (FuncId × BitVec 256) := []
  /-- boundaries since the partner's last frame or marker (R280) -/
  mirrorMissed : Nat := 0
  deriving DecidableEq, Repr

end Sys2Proof.Machine
end

