-- ==== Sys2Proof/Machine/State/Media.lean ====
section
/-! DEFINITION. The state of the media ports and the flow engine (07_media_ports.md R191 to R224). -/

namespace Sys2Proof.Machine
open Sys2Proof

/-- A frame to be sent on a subport: of a forwarded PTP event message, when it came in and the peer delay to add (R237). -/
structure PortFrame where
  sub : BitVec 2
  frame : EthFrame
  came : Option Instant := none
  extra : Int := 0
  deriving DecidableEq, Repr

/-- An Ethernet port (R192 to R195, R222). -/
structure EthPort where
  en : Bool := false
  mode : BitVec 2 := 0
  fec : BitVec 2 := 0
  bridge : Bool := false
  up : BitVec 4 := 0
  laneErr : Bool := false
  cnt : Tbl Cnt := []
  /-- the control-core queue (R194) -/
  coreQueue : List EthFrame := []
  /-- frames waiting in the bridge buffer towards this port (R195) -/
  bridgeQueue : List PortFrame := []
  deriving DecidableEq, Repr

/-- An SDI engine (R196 to R200, R223). -/
structure SdiEngine where
  rxen : Bool := false
  txen : Bool := false
  rxrates : BitVec 4 := 0xF
  txrate : BitVec 2 := 0
  txfrac : Bool := false
  lvlb : Bool := false
  quad : Bool := false
  sqd : Bool := false
  txlane : BitVec 7 := 0
  rxlane : BitVec 7 := 0
  rate : BitVec 4 := 0
  raster : BitVec 4 := 0
  frate : BitVec 4 := 0
  rxsamp : BitVec 4 := 0
  locked : Bool := false
  pid : Bool := false
  mismatch : Bool := false
  laneErr : Bool := false
  txoffset : Word := 0
  txRaster : BitVec 4 := 2
  txFrate : BitVec 4 := 5
  txSamp : BitVec 4 := 0
  /-- the control-core ANC queue (R197) -/
  ancQueue : List Bytes := []
  cnt : Tbl Cnt := []
  deriving DecidableEq, Repr

/-- A flow's endpoint (R203). -/
structure Leg where
  port : Nat := 0
  sub : Nat := 0
  vlan : Nat := 0
  ipver : Nat := 0
  pt : Nat := 0
  dport : Nat := 0
  sport : Nat := 0
  dmac : BitVec 48 := 0
  dscp : Nat := 0
  daddr : BitVec 128 := 0
  saddr : BitVec 128 := 0
  ssrc : Nat := 0
  isSet : Bool := false
  rsvOk : Bool := true
  deriving DecidableEq, Repr

/-- A flow record (R202). -/
structure FlowRec where
  dir : Nat := 0
  fmt : Nat := 0
  flow : Nat := 0
  width : Nat := 0
  height : Nat := 0
  rate : Nat := 0
  samp : Nat := 0
  depth : Nat := 0
  vflags : Nat := 0
  ptime : Nat := 0
  legA : Leg := {}
  legB : Leg := {}
  mclass : Nat := 0
  diff : Nat := 0
  region : Nat := 0
  queue : Nat := 0
  offs : Nat := 0
  pacing : Nat := 0
  safe : Nat := 0
  bypass : Nat := 0
  troff : Nat := 0
  rsvOk : Bool := true
  deriving DecidableEq, Repr

/-- What an egress group shows (R99, R219): committed words, a substitute, or a pass-through group. -/
inductive Shown where
  | words (ws : List Lanes)
  | subst (code : Nat)
  | passed (g : Group)
  deriving DecidableEq, Repr

/-- A packet of a transmit flow that waits for its release (R206). -/
structure FlowPkt where
  time : Instant
  groups : List Shown
  /-- how many of its groups hold words that a function committed -/
  fresh : Nat := 0
  deriving DecidableEq, Repr

/-- A flow (R201 to R206, R224). -/
structure Flow where
  opened : Bool := false
  record : FlowRec := {}
  owner : BitVec 7 := 0
  legA : Bool := false
  legB : Bool := false
  subst : Bool := false
  /-- sequence numbers delivered within the last D, with the instant of their first delivery (R205), newest first -/
  seen : List (BitVec 16 × Instant) := []
  /-- the next number expected on each leg -/
  nextA : Option (BitVec 16) := none
  nextB : Option (BitVec 16) := none
  /-- numbers neither leg has delivered yet (R205), oldest first -/
  missing : List (BitVec 16) := []
  cnt : Tbl Cnt := []
  /-- when the flow opened: its frames count from there (R212) -/
  since : Instant := 0
  /-- groups of the packet being filled, and packets waiting for their release, oldest first (R206) -/
  filling : List (Bool × Shown) := []
  due : List FlowPkt := []
  deriving DecidableEq, Repr

/-- A group waiting at a feed: its ingress, the nominal time of its last sample plus OFF_RX, and its samples (R209). -/
structure FeedGroup where
  src : EndRef
  key : Nat
  group : Group
  deriving DecidableEq, Repr

/-- A group waiting at an egress, with its place in the raster. -/
structure EgressItem where
  frame : Nat
  line : Nat
  index : Nat
  last : Bool
  /-- its nominal time (R208) -/
  time : Instant
  shown : Shown
  /-- it lies at or after a boundary at which a force ends (R220) -/
  beat : Beat
  deriving DecidableEq, Repr

/-- A pass-through change of a VIDEO egress (R216): its new source, its descriptor and status, and the instant of the switching point. -/
structure RouteChange where
  src : Option EndRef
  desc : DescRef
  status : Nat := 0
  point : Instant
  deriving DecidableEq, Repr

/-- An egress: transmit flows 0 to 1023, SDI transmitters 1024 to 1055 (R217 to R220); from 1056 on what those transmitters insert as ANC (R198). -/
structure Egress where
  queue : List EgressItem := []
  /-- the hold line: groups of the last committed line, by group index (R217, R219) -/
  holdLine : Tbl (List Lanes) := []
  committed : Bool := false
  /-- words of the line being committed, and its frame and line -/
  lineNow : Tbl (List Lanes) := []
  lineAt : Nat × Nat := (0, 0)
  /-- the last committed channel status block per stream, and where the block stands (R219) -/
  chStatus : Tbl (BitVec 192) := []
  blockPos : Nat := 0
  /-- AES3: streams whose last committed preamble was Y -/
  preY : Lanes := 0
  /-- a force has been ordered, and it has taken effect (R220) -/
  forceWant : Bool := false
  forced : Bool := false
  /-- the boundary from whose window on a lifted force leaves -/
  liftBeat : Option Beat := none
  /-- configured safe state of an SDI egress, from its function's SUBST or by default BLACK; flows hold theirs in the record -/
  route : Option EndRef := none
  /-- what device time was stepped by since the raster's last frame alignment (R243) -/
  shift : Int := 0
  /-- when that was: the raster moves at its first frame alignment from then on -/
  shiftFrom : Instant := 0
  /-- it emits BLACK: ANC pass-through is off (R219) -/
  black : Bool := false
  /-- from the first until the second instant the positions that a step of device time repeats carry the safe state (R243) -/
  repeatFrom : Instant := 0
  repeatTill : Instant := 0
  /-- a -40 flow's next empty packet under HOLD or BLACK leaves from this instant on (R219) -/
  emptyFrom : Instant := 0
  /-- a route change that waits for the frame switching point (R216) -/
  routeNext : Option RouteChange := none
  deriving DecidableEq, Repr

/-- A drain's new endpoint that waits for the switching point of its VIDEO egress (R216). -/
structure Reroute where
  func : FuncId
  drain : Nat
  ref : EndRef
  desc : DescRef
  status : Nat := 0
  deriving DecidableEq, Repr

/-- The media ports. -/
structure Media where
  eth : Tbl EthPort := []
  sdi : Tbl SdiEngine := []
  flowSel : BitVec 11 := 0
  /-- receive flows 0 to 1023, transmit flows 1024 to 2047 -/
  flows : Tbl Flow := []
  groups : List FeedGroup := []
  egress : Tbl Egress := []
  reroutes : List Reroute := []
  deriving DecidableEq, Repr

end Sys2Proof.Machine
end

