-- ==== Sys2Proof/Machine/State/Rings.lean ====
section
/-! DEFINITION. The state of the host interface: rings, retention record, descriptors in execution (12_host_interface.md R339 to
R366). -/

namespace Sys2Proof.Machine
open Sys2Proof

/-- A ring pair's state (RINGS_PAIR_STATE.STATE). -/
inductive RingPhase where
  | off | run | recover | mirror
  deriving DecidableEq, Repr

/-- A retention entry's state (R354). -/
inductive RetPhase where
  | accepted | committed | completed
  deriving DecidableEq, Repr

/-- A completion record (R349). -/
structure Completion where
  seq : BitVec 64 := 0
  status : Nat := 0
  detail : Nat := 0
  opcode : Nat := 0
  info0 : Nat := 0
  beat : Beat := 0
  info1 : Nat := 0
  deriving DecidableEq, Repr

/-- An entry of the retention window (R354): the slot, its sequence number, its state and completion record. `posted` says that the
record has been written to the CQ; `desc` is the descriptor as fetched, `accept` says whether its SEQ was accepted (R352). -/
structure RetEntry where
  slot : Nat
  seq : BitVec 64
  desc : BitVec 512 := 0
  accept : Bool := true
  phase : RetPhase := .accepted
  record : Completion := {}
  posted : Bool := false
  /-- the operation has begun (R356), its argument reads are done, and the instant it became ready (R357) -/
  started : Bool := false
  args : Option Bytes := none
  ready : Option Instant := none
  /-- held under R21 or behind a FENCE -/
  held : Bool := false
  /-- the beat the commit point fell in -/
  beat : Beat := 0
  /-- number in the order of acceptance over all rings (R21) -/
  order : Nat := 0
  /-- parity of the slot's pass, its record's PHASE (R344) -/
  par : Bool := true
  /-- the beat from which a forwarded descriptor is applied on both devices of a mirrored pair (R276) -/
  apply : Option Beat := none
  deriving DecidableEq, Repr

/-- A ring pair (R342 to R355, R366). -/
structure Ring where
  en : Bool := false
  owner : BitVec 6 := 0
  size : BitVec 4 := 4
  sqbase : BitVec 64 := 0
  cqbase : BitVec 64 := 0
  irqTimer : BitVec 8 := 0
  irqCount : BitVec 8 := 1
  irqEn : Bool := false
  irqVector : BitVec 11 := 0
  phase : RingPhase := .off
  held : BitVec 3 := 0
  fetch : BitVec 12 := 0
  /-- parity of the pass the fetch slot is in: 1 on the first pass (R344) -/
  parity : Bool := true
  sqPi : BitVec 16 := 0
  cqCi : BitVec 16 := 0
  nextseq : BitVec 64 := 0
  applied : BitVec 64 := BitVec.allOnes 64
  window : List RetEntry := []
  /-- completions pending for the coalesced message, and when the first came (R366) -/
  irqPending : Nat := 0
  irqSince : Instant := 0
  /-- an FLR or D3hot stopped fetching (R361) -/
  stopped : Bool := false
  deriving DecidableEq, Repr

/-- The host interface. -/
structure Rings where
  recovering : Bool := false
  ready : Bool := false
  cnt : Tbl Cnt := []
  /-- RINGS_VF_CFG.PORTS by VF -/
  vfPorts : Tbl (BitVec 8) := []
  pairs : Tbl Ring := []
  /-- descriptors accepted so far, to order them (R21) -/
  order : Nat := 0
  d3 : Bool := false
  linkUp : Bool := false
  /-- the generation and the width that the link has trained to (R339); before it has trained DESIGN CHOICE, log entry 195 -/
  linkGen : BitVec 3 := 5
  linkWidth : BitVec 5 := 16
  deriving DecidableEq, Repr

end Sys2Proof.Machine
end

