-- ==== Sys2Proof/Machine/State/Strong.lean ====
section
/-! DEFINITION. The state of the strongroom, device life and shared SRAM (15_strongroom.md R427 to R443). Key slots, the boot nonce and
the retention record stand in `Cellar` and `Rings`. -/

namespace Sys2Proof.Machine
open Sys2Proof

/-- Life-cycle states (R437). -/
inductive Life where
  | blank | provisioned | deployed | returned | decommissioned
  deriving DecidableEq, Repr

/-- An entry of the measurement list (R429). -/
structure Measure where
  kind : Nat
  index : Nat
  secver : Nat := 0
  aux : BitVec 64 := 0
  hash : BitVec 256 := 0
  deriving DecidableEq, Repr

/-- An owner key entry (R431, R439): parameter set and hash of the public key. -/
structure OwnerKey where
  pset : Byte := 0
  hash : BitVec 256 := 0
  revoked : Bool := false
  deriving DecidableEq, Repr

/-- What a report will hold (R430): the snapshot taken at the boundary. -/
structure Snapshot where
  time : Instant
  beat : Beat
  list : List Measure
  nonce : BitVec 256
  first : Nat
  debugSeen : Bool
  deriving DecidableEq, Repr

/-- A locked debug access or an unlock (R440). -/
structure Debug where
  unlocked : Bool := false
  scope : BitVec 4 := 0
  refused : BitVec 2 := 0
  remain : BitVec 24 := 0
  /-- device-independent end of the unlock: hub time is modelled by device time (log entry 21) -/
  unlockedSince : Instant := 0
  /-- debug was unlocked since the cold start -/
  seen : Bool := false
  deriving DecidableEq, Repr

/-- Shared SRAM (R433, R434). -/
structure Sram where
  mem : Memory := []
  pwr : BitVec 64 := BitVec.allOnes 64
  clearing : BitVec 64 := 0
  page : BitVec 11 := 0
  cnt : Tbl Cnt := []
  deriving DecidableEq, Repr

/-- The strongroom and the fuses. -/
structure Strong where
  life : Life := .provisioned
  cycles : BitVec 5 := 0
  rngok : Bool := false
  ml65 : Bool := false
  plainkey : Bool := false
  owner : Tbl OwnerKey := []
  arbOwner : BitVec 8 := 0
  arbFw : BitVec 8 := 0
  wipeCount : BitVec 8 := 0
  wipeCause : BitVec 6 := 0
  /-- a wipe's cause that EV0640 has still to report (R442) -/
  wipePending : Bool := false
  serial : BitVec 128 := 1
  cmdNonce : BitVec 128 := 0
  cmdLen : BitVec 14 := 0
  cmdBusy : Bool := false
  cmdCode : BitVec 8 := 0
  /-- the command that GO started (log entry 121) -/
  cmdRun : Bytes := []
  cmdResult : BitVec 8 := 0
  cmdBuf : Memory := []
  attNonce : BitVec 256 := 0
  attFirst : BitVec 9 := 0
  attBusy : Bool := false
  attWaiting : Bool := false
  attSnap : Option Snapshot := none
  attValid : Bool := false
  attLen : BitVec 14 := 0
  attBuf : Memory := []
  dbg : Debug := {}
  measures : List Measure := []
  sram : Sram := {}
  deriving DecidableEq, Repr

end Sys2Proof.Machine
end

