-- ==== Sys2Proof/Machine/State/Time.lean ====
section
/-! DEFINITION. The state of the time unit and the beat generator (08_time.md R225 to R249). Device time itself is `Dev.now`. -/

namespace Sys2Proof.Machine
open Sys2Proof

/-- The servo's state (R230). -/
inductive Servo where
  | free | locking | locked | holdover
  deriving DecidableEq, Repr

/-- A timestamp in a TDC FIFO (R244): device time and the edge. -/
structure TdcEntry where
  time : Instant
  falling : Bool
  deriving DecidableEq, Repr

/-- A TDC input (R244, R249). -/
structure Tdc where
  en : Bool := false
  edge : BitVec 2 := 0
  fifo : List TdcEntry := []
  deriving DecidableEq, Repr

/-- The PTP registers of a subport (R235, R249). -/
structure TimePort where
  rxlat : Word := 0
  txlat : Word := 0
  asym : Word := 0
  en : Bool := false
  mech : Bool := false
  role : BitVec 2 := 0
  logsync : BitVec 4 := 0xD
  logann : BitVec 4 := 0xE
  logdreq : BitVec 4 := 0xD
  /-- the best data set that an Announce has brought to the subport (R232) -/
  best : Option DataSet := none
  /-- the peer delay measured on the link, in 2^-32 ns, and when the last Pdelay_Req left (R237) -/
  peerDelay : Int := 0
  /-- the transport that the port's messages use (R234): 4 or 6 for UDP over that version of IP, else IEEE 802.3 -/
  transport : BitVec 8 := 0
  reqSent : Instant := 0
  /-- when the next Sync, Announce and Delay_Req or Pdelay_Req are due (R234) -/
  nextSync : Instant := 0
  nextAnn : Instant := 0
  nextReq : Instant := 0
  deriving DecidableEq, Repr

/-- A pending beat slip (R241): its target beat and its length in 8 ns units, with the descriptor that asked for it. -/
structure Slip where
  desc : DescRef
  beat : Beat
  units : Int
  deriving DecidableEq, Repr

/-- The time unit and the beat generator. -/
structure TimeUnit where
  src : BitVec 3 := 0
  prio1 : BitVec 8 := 128
  prio2 : BitVec 8 := 128
  domain : BitVec 8 := 127
  ref10 : Bool := false
  skew : Bool := false
  ppsloss : Bool := false
  refloss : Bool := false
  /-- the synthesiser has moved to the system clock (R227) -/
  refMoved : Bool := false
  clamp : Bool := false
  refusing : Bool := false
  lockedOnce : Bool := false
  servo : Servo := .free
  offset : Int := 0
  /-- the correction last refused, in 2^-32 ns (R231, R233) -/
  refusedOffset : Int := 0
  good : Nat := 0
  /-- mean of INCR over the last 60 s of LOCKED (R230), while there is such a period -/
  meanIncr : Option Nat := none
  /-- INCR values set while LOCKED with the times they were set, newest first -/
  incrLog : List (Instant × Nat) := []
  sourcePresent : Bool := false
  /-- the grandmaster's identity, none where it is the device itself (R232) -/
  grandmaster : Option (BitVec 64) := none
  thresh : BitVec 30 := 1000
  incr : Nat := 0x2_0000_0000
  incrFrac : Word := 0
  /-- the part of INCR that is not there to slew a phase offset out, and when the servo last changed it (R231) -/
  incrBase : Nat := 0x2_0000_0000
  incrAt : Instant := 0
  -- beat generator
  enabled : Bool := false
  run : Bool := false
  /-- a start has been ordered (R239): the first boundary `next` and its number `first` are fixed -/
  armed : Bool := false
  /-- the number of the first boundary of an ordered start (R239) -/
  first : Beat := 0
  n : Beat := 0
  /-- B_n, the device time of the next boundary -/
  next : Instant := 0
  /-- the start of the current beat -/
  start : Instant := 0
  /-- T_beat in 8 ns units -/
  period : BitVec 14 := 256
  /-- this beat's slip in 8 ns units -/
  slipNow : Int := 0
  /-- the boundary that started this beat carried a slip (R240, R241) -/
  carries : Bool := false
  /-- the starts of the beats before the current one, newest first, up to 64 -/
  starts : List Instant := []
  pendPeriod : Option (BitVec 14 × Beat) := none
  pertgt : Beat := 0
  slips : List Slip := []
  ppsEn : Bool := false
  ppsWidth : BitVec 8 := 100
  ppsOffset : BitVec 23 := 0
  lastPps : Option Instant := none
  cnt : Tbl Cnt := []
  ports : Tbl TimePort := []
  tdc : Tbl Tdc := []
  deriving DecidableEq, Repr

end Sys2Proof.Machine
end

