-- ==== Sys2Proof/Machine/State.lean ====
section
/-! DEFINITION. The state of the KZ7: the device `Dev`, block by block, with the queue of commands that wait, and what can end a
step without a next state. -/

namespace Sys2Proof.Machine
open Sys2Proof

/-- Why a step stops. -/
inductive Fault where
  /-- A command names a unit that the device does not have: lane 96 or above, TDC input 9 or above, egress 1056 or above and the
  like (`Instr.wellFormed`). Every meaning raises it. Safe: no device takes such a command. -/
  | noSuchUnit
  deriving DecidableEq, Repr

/-- Why a command has no meaning. -/
inductive Refusal where
  /-- A command whose arm is not written yet. Raised by `exec` alone. Safe: the model stops. -/
  | notModelled (mnemonic : String)
  deriving DecidableEq, Repr

/-- What leaves the device in a step. -/
inductive Output where
  /-- a register read's value, or a bus error in its place (R447, R453, R456) -/
  | read (q : Requester) (value : Word)
  | readAbort (q : Requester)
  /-- a cellar read's answer (R169, R170) -/
  | cellar (k : QKind) (q : BitVec 9) (v : Verdict) (data : BitVec 1024)
  /-- a cellar access refused, or a precise bus error of an access (R163, R170, R185) -/
  | busError (k : QKind) (q : BitVec 9)
  /-- a write to host memory (R349) -/
  | hostWrite (addr : BitVec 64) (data : Bytes)
  /-- an MSI-X message (R341, R388) -/
  | msix (fn : BitVec 6) (vector : BitVec 11)
  /-- a Bilben frame sent on a bundle (R260), a beat marker (R267) -/
  | frame (bd : BitVec 4) (fr : Frame)
  | marker (bd : BitVec 4) (m : Marker)
  /-- a frame sent on a port, and PTP handed to the time unit with its ingress timestamp and correctionField (R195, R234 to R237) -/
  | eth (port : BitVec 3) (sub : BitVec 2) (fr : EthFrame)
  | ptp (port : BitVec 3) (sub : BitVec 2) (rx : Instant) (correction : BitVec 64)
  /-- a lane's transmitter begins to send, the idle pattern first, or ends (R253, R255) -/
  | laneTx (l : Nat) (on : Bool)
  /-- what an egress emits (R217 to R220), and silence (R463) -/
  | egress (e : BitVec 11) (shown : Shown)
  /-- an SDI transmitter ends a raster line: the TRS, line number, line CRC and ST 352 identifier that it generates frame the line's groups, with the
  ANC packets that it has inserted, as groups of 64 bits (R198) -/
  | sdiLine (e : BitVec 5) (line : Nat) (field : Bool) (anc : List (List Shown))
  /-- a packet of a transmit flow on one of its legs (R205, R206) -/
  | packet (flow : BitVec 10) (leg : Leg) (groups : List Shown)
  /-- the pulse of PPSOUT: its rising and its falling edge (R245) -/
  | pps (rise fall : Instant)
  /-- words a hub port presents to the fabric (R295) -/
  | hubport (p : BitVec 6) (idx : Nat) (w : Lanes)
  /-- the pins as the boundary register drives them; those it does not name are high-impedance (R483, R484) -/
  | boundary (instr : TapInstr) (pins : List (BoundaryPin × Bool))
  /-- what the JTAG memory port reads, as it is stored, and its bus error or refusal (R185, R440) -/
  | jtag (b : Byte)
  | jtagError
  deriving DecidableEq, Repr

/-- The device. -/
structure Dev where
  /-- device time (R225) -/
  now : Instant := 0
  /-- the model's own: how many open values have been taken -/
  free : Nat := 0
  /-- the model's own: what left the device, newest first -/
  out : List Output := []
  /-- event occurrences on their way (R387, R409) -/
  events : List Occ := []
  ident : Ident := {}
  /-- row repairs that firmware recorded in the configuration flash, which no reset loses (R159) -/
  flash : Tbl PcRepair := []
  rooms : Tbl Room := []
  funcs : List Func := []
  net : Net := {}
  cellar : Cellar := {}
  media : Media := {}
  time : TimeUnit := {}
  link : Link := {}
  fabric : Fabric := {}
  loader : Loader := {}
  rings : Rings := {}
  cores : Cores := {}
  sched : Sched := {}
  /-- the firmware configuration record (R154, R227, R239) -/
  record : FwRecord := {}
  /-- entries of the firmware partition (R374), from the firmware configuration record -/
  fwres : BitVec 12 := 64
  acq : Tbl AcqUnit := []
  fuse : Fuse := {}
  strong : Strong := {}
  hub : Hub := {}
  power : Power := {}
  tap : Tap := {}
  deriving DecidableEq, Repr

/-- The state: the device, and the commands that wait, first in, first out. -/
structure State where
  dev : Dev := {}
  pending : List Instr := []
  deriving DecidableEq, Repr

/-- The device right after PORST_N is released, at stage 0 of cold start (R7, R464): every register at its reset value. -/
def State.reset : State where
  dev := { power := { cold := false, porst := true } }
  pending := []

end Sys2Proof.Machine
end

