-- ==== Sys2Proof/WellFormed.lean ====
section
/-! DEFINITION. Well-formed commands: those that name units the device has. -/

namespace Sys2Proof

/-- A lane number 0 to 95 (R250). -/
def laneOk (l : BitVec 7) : Bool := decide (l.toNat < 96)
/-- An egress number 0 to 1055 (R426). -/
def egressOk (e : BitVec 11) : Bool := decide (e.toNat < 1056)
/-- A link direction: links 0 to 15 of a corridor, 0 to 16 of a stair with its hub node (R132). -/
def linkOk (l : LinkDir) : Bool := if l.ring.toNat < 16 then decide (l.link.toNat < 16) else decide (l.link.toNat < 17)
/-- A TDC input 0 to 8 (R244). -/
def tdcOk (i : BitVec 4) : Bool := decide (i.toNat < 9)
/-- A cellar access of one 128-byte line (R162). -/
def lineOk (a : BitVec 34) : Bool := decide (a.toNat % 128 = 0)

/-- Every unit that the command names is one that the device has. -/
def Instr.wellFormed : Instr → Bool
  | .flitCrcError l => linkOk l
  | .linkDown l => linkOk l
  | .linkRetrainDone l => linkOk l
  | .linkRetrainRetry l => linkOk l
  | .cellarRead _ _ a _ => lineOk a
  | .cellarWrite _ _ a _ _ _ => lineOk a
  | .patrolRead a _ => lineOk a
  | .egressGroup e => egressOk e
  | .forceApply e => egressOk e
  | .tdcEdge i _ => tdcOk i
  | .tdcPop _ i => tdcOk i
  | .cdrLock l => laneOk l
  | .alignDone l => laneOk l
  | .laneLoss l => laneOk l.lane
  | .adaptDone l => laneOk l
  | .eyeStart _ l _ => laneOk l
  | .eyeScanDone l _ => laneOk l
  | .prbsLock l => laneOk l.lane
  | .iodlyStep i => decide (i.toNat < 384)
  | .traceRpWrite _ st _ => decide (st.toNat < 17)
  | _ => true

end Sys2Proof
end

