-- ==== Sys2Proof/Machine/Ops.lean ====
section
/-! DEFINITION. The named operations over the device that the meanings share: a command's run, byte memory, events, outputs, open values,
rooms and functions by number. -/

namespace Sys2Proof.Machine
open Sys2Proof

/-- A command's run: its effect on the device where it names units that exist, with the queue kept. -/
def run (ok : Bool) (f : Dev → Dev) (s : State) : Host.Outcome State Fault Refusal :=
  if ok then .next { s with dev := f s.dev } else .fault .noSuchUnit

-- byte memory

/-- One byte of a byte memory: an unlisted address reads 0 (log entry 4). -/
def Memory.read (m : Memory) (a : Nat) : Byte := Tbl.get 0 m a

/-- Store one byte; a byte equal to 0 is not listed. -/
def Memory.write (m : Memory) (a : Nat) (b : Byte) : Memory := Tbl.set 0 m a b

/-- Bytes from an address on. -/
def Memory.readN (m : Memory) (a : Nat) : Nat → Bytes
  | 0 => []
  | n + 1 => Memory.read m a :: Memory.readN m (a + 1) n

/-- Store bytes from an address on. -/
def Memory.writeN (m : Memory) (a : Nat) : Bytes → Memory
  | [] => m
  | b :: t => Memory.writeN (Memory.write m a b) (a + 1) t

/-- The canonical form of a byte memory. -/
abbrev Memory.wf (m : Memory) : Bool := Tbl.wf (0 : Byte) m

/-- A little-endian number of `n` bytes at an address. -/
def Memory.readLe (m : Memory) (a n : Nat) : Nat := leNat (Memory.readN m a n)

/-- Drop the cells of an address range. -/
def Memory.clearRange (m : Memory) (a n : Nat) : Memory := m.filter (fun c => !(decide (a ≤ c.1 ∧ c.1 < a + n)))

-- one part of the device replaced

def Dev.putNow (d : Dev) (x : Instant) : Dev := { d with now := x }
def Dev.putEvents (d : Dev) (x : List Occ) : Dev := { d with events := x }
def Dev.putFlash (d : Dev) (x : Tbl PcRepair) : Dev := { d with flash := x }
def Dev.putFuncs (d : Dev) (x : List Func) : Dev := { d with funcs := x }
def Dev.putNet (d : Dev) (x : Net) : Dev := { d with net := x }
def Dev.putMedia (d : Dev) (x : Media) : Dev := { d with media := x }
def Dev.putTime (d : Dev) (x : TimeUnit) : Dev := { d with time := x }
def Dev.putLink (d : Dev) (x : Link) : Dev := { d with link := x }
def Dev.putFabric (d : Dev) (x : Fabric) : Dev := { d with fabric := x }
def Dev.putRings (d : Dev) (x : Rings) : Dev := { d with rings := x }
def Dev.putSched (d : Dev) (x : Sched) : Dev := { d with sched := x }
def Dev.putAcq (d : Dev) (x : Tbl AcqUnit) : Dev := { d with acq := x }
def Dev.putFuse (d : Dev) (x : Fuse) : Dev := { d with fuse := x }
def Dev.putStrong (d : Dev) (x : Strong) : Dev := { d with strong := x }
def Dev.putHub (d : Dev) (x : Hub) : Dev := { d with hub := x }
def Dev.putPower (d : Dev) (x : Power) : Dev := { d with power := x }
def Dev.putTap (d : Dev) (x : Tap) : Dev := { d with tap := x }

-- outputs, open values, events

/-- Record what leaves the device. -/
def Dev.emit (d : Dev) (o : Output) : Dev := { d with out := o :: d.out }

/-- Take open values. -/
def Dev.take (d : Dev) (n : Nat) : Dev := { d with free := d.free + n }

/-- Beats that lie back to an instant before the oldest start that the generator keeps, at T_beat. -/
def TimeUnit.beatsBack (x : TimeUnit) (from_ t : Instant) : Nat := ceilDiv (from_ - t) (x.period.toNat * 8 * 2 ^ 32)

/-- The beat whose interval contains a device time not before the last boundary's beat (R415): the current beat, or an earlier one by its start. -/
def Dev.beatAt (d : Dev) (t : Instant) : Beat :=
  let x := d.time
  if !x.run ∨ x.start ≤ t then x.n
  else match x.starts.findIdx? (fun s => decide (s ≤ t)) with
    | some k => x.n - BitVec.ofNat 64 (k + 1)
    | none => x.n - BitVec.ofNat 64 (x.starts.length + x.beatsBack (x.starts.getLastD x.start) t)

/-- The start of a beat not after the current one. -/
def Dev.startOf (d : Dev) (b : Beat) : Int :=
  let x := d.time
  let k := (x.n - b).toNat
  if k = 0 then x.start
  else match x.starts[k - 1]? with
    | some s => s
    | none => (x.starts.getLastD x.start : Int) - ((k - x.starts.length) * (x.period.toNat * 8 * 2 ^ 32) : Nat)

/-- An event occurrence with its source timestamp (R106) and the log's DETAIL (R422): on its way to the scheduler and the fuse box
(R387, R409). -/
def Dev.raiseAt (d : Dev) (ev : Nat) (ts : Instant) (detail : Nat) : Dev :=
  { d with events := d.events ++ [{ ev := BitVec.ofNat 10 ev, ts := ts, detail := BitVec.ofNat 64 detail, beat := d.beatAt ts }] }

/-- An event occurrence now. Every source samples the hub's counter itself: of the replicas of the dies the spec says no more than that they lie
within one step of it (DESIGN CHOICE, log entry 131). -/
def Dev.raise (d : Dev) (ev : Nat) (detail : Nat := 0) : Dev := d.raiseAt ev d.now detail

/-- A write of an acknowledge field that its condition does not accept is ignored and counted by its block (R5, R450; log entry 136). -/
def Dev.ignore (d : Dev) (block : Nat) : Dev := d.putHub { d.hub with ignored := bumpAt d.hub.ignored block }

-- device time

/-- 1 ns in units of device time. -/
abbrev ns : Nat := 2 ^ 32

/-- Device time in whole ns since the PTP epoch. -/
def Dev.nowNs (d : Dev) : Nat := d.now / 2 ^ 32

/-- One tick of the time clock (R226). -/
def Dev.tick (d : Dev) : Dev := { d with now := d.now + d.time.incr }

/-- Device time has reached an instant. -/
def Dev.reach (d : Dev) (t : Instant) : Dev := if d.now < t then { d with now := t } else d

/-- T_beat in units of device time (R66). -/
def Dev.period (d : Dev) : Nat := d.time.period.toNat * 8 * 2 ^ 32

-- rooms

/-- A room by number. -/
def Dev.room (d : Dev) (r : RoomId) : Room := Tbl.get {} d.rooms r.toNat

/-- Store a room. -/
def Dev.setRoom (d : Dev) (r : RoomId) (x : Room) : Dev := { d with rooms := Tbl.set {} d.rooms r.toNat x }

/-- Change a room. -/
def Dev.modRoom (d : Dev) (r : RoomId) (f : Room → Room) : Dev := d.setRoom r (f (d.room r))

/-- The room is fuse-disabled (R2). -/
def Dev.roomDisabled (d : Dev) (r : RoomId) : Bool := decide (r ∈ d.ident.disabled)

/-- The event of a room (R65, R105) with the DETAIL that R422 gives rooms: ROOM_FAULT, further cause bits, the function bound. -/
def Dev.raiseRoom (d : Dev) (r : RoomId) (bits : Nat) : Dev :=
  let rm := d.room r
  d.raise r.toNat (rm.faultWord.toNat + bits + rm.func.toNat * 2 ^ 48)

-- functions

/-- The function of an ID, if the device holds one. -/
def Dev.func? (d : Dev) (f : FuncId) : Option Func := d.funcs.find? (fun x => x.id == f)

/-- Change the function of an ID. -/
def Dev.modFunc (d : Dev) (f : FuncId) (g : Func → Func) : Dev :=
  { d with funcs := d.funcs.map (fun x => if x.id = f then g x else x) }

/-- The functions that run: admitted, past their commit point. -/
def Dev.admitted (d : Dev) : List Func := d.funcs.filter (fun f => f.phase == .admitted)

/-- The place of a virtual room of a replica and set. -/
def Func.placeOf (f : Func) (set : Bool) (rep v : Nat) : Option Place :=
  f.places.find? (fun p => p.set == set && p.rep == rep && p.vroom == v)

/-- The places that a function and its migration occupy. -/
def Func.allPlaces (f : Func) : List Place := f.places ++ (match f.migration with | some m => m.places | none => [])

/-- The rooms of a function. -/
def Func.rooms (f : Func) : List RoomId := f.places.map (·.room)

/-- The wing of a room (R12). -/
def wingOf (r : RoomId) : Nat := 2 * (r.toNat / 16 / 8) + r.toNat % 16 / 8

/-- Beats from boundary a of a warm reset to boundary b (R463): rooms issue nothing and the arbiter makes no decision. -/
def Dev.halted (d : Dev) : Bool := match d.power.warmFrom with | some a => decide (a ≤ d.time.n) | none => false

/-- The hub is up: it is not between boundary a of a warm reset and its return (R300, R463). -/
def Dev.hubUp (d : Dev) : Bool := !d.halted || d.power.returned

/-- Fold a device over a list. -/
def Dev.each {α : Type} (d : Dev) (l : List α) (f : Dev → α → Dev) : Dev := l.foldl f d

/-- The requester is of the PF view: the PF, or a control core whose VIEW is 0 (R446). -/
def Dev.viewOf (d : Dev) (q : Requester) : BitVec 6 :=
  match q with
  | .fn n => n
  | .core c => (Tbl.get ({} : Core) d.cores.cores c.toNat).view

/-- "Only the PF": a requester of the PF view (R446). -/
def Dev.isPf (d : Dev) (q : Requester) : Bool := d.viewOf q == 0

/-- The key that a requester's banked registers stand under (R448): functions 0 to 63, then cores. -/
def reqKey : Requester → Nat
  | .fn n => n.toNat
  | .core c => 64 + c.toNat

end Sys2Proof.Machine
end

