-- ==== Sys2Proof/Machine/Routes.lean ====
section
/-! DEFINITION. Rings, links and routes (05_corridors_and_stairs.md R132 to R136, R150). -/

namespace Sys2Proof.Machine
open Sys2Proof

/-- The number of a link direction: ring * 64 + descending * 32 + link. -/
def linkKey (ring : Nat) (desc : Bool) (link : Nat) : Nat := ring * 64 + bit desc 5 + link

def linkDirKey (l : LinkDir) : Nat := linkKey l.ring.toNat l.descending l.link.toNat

/-- The links from node a to node b of a ring of n nodes in one direction (R132). -/
def ringLinks (ring n a b : Nat) (desc : Bool) : List Nat :=
  if desc then (List.range ((a + n - b) % n)).map fun i => linkKey ring true ((a + n - 1 - i) % n)
  else (List.range ((b + n - a) % n)).map fun i => linkKey ring false ((a + i) % n)

/-- The direction with fewer hops; a tie of a corridor takes the ascending one (R135). -/
def ringDesc (n a b : Nat) : Bool := decide ((b + n - a) % n > n - (b + n - a) % n)

/-- The links of a packet's way along one ring, the other direction where one is down (R135, R150). Where that one holds a down link too, the
spec gives no way: the packet takes it all the same (DESIGN CHOICE, log entry 135). -/
def Net.ringWay (net : Net) (ring n a b : Nat) : List Nat :=
  if a = b then []
  else
    let first := ringLinks ring n a b (ringDesc n a b)
    if first.any (fun k => (Tbl.get ({} : LinkState) net.links k).down) then ringLinks ring n a b (!ringDesc n a b) else first

/-- The way of a packet (R134, R136): X then Y between rooms, a stair alone to and from the hub. -/
def Net.way (net : Net) (src dst : Node) : List Nat :=
  match src, dst with
  | .room s, .room t =>
    let (sr, sc, tr, tc) := (s.toNat / 16, s.toNat % 16, t.toNat / 16, t.toNat % 16)
    net.ringWay sr 16 sc tc ++ (if sr = tr then [] else net.ringWay (16 + tc) 17 (sr + 1) (tr + 1))
  | .room s, .hub _ => net.ringWay (16 + s.toNat % 16) 17 (s.toNat / 16 + 1) 0
  | .hub _, .room t => net.ringWay (16 + t.toNat % 16) 17 0 (t.toNat / 16 + 1)
  | .hub _, .hub _ => []

/-- The fixed route that the reservation uses, whatever links are down (R134, R143). -/
def fixedWay (src dst : Node) : List Nat := Net.way {} src dst

/-- A ring of the way holds new packets (R150). -/
def Net.heldOn (net : Net) (src dst : Node) : Bool := (net.way src dst).any fun k => decide (BitVec.ofNat 5 (k / 64) ∈ net.holds)

/-- A route between two rooms, or a room and the hub, uses a link direction that is down (R150). -/
def Net.downOn (net : Net) (src dst : Node) : Bool := (fixedWay src dst).any fun k => (Tbl.get ({} : LinkState) net.links k).down

end Sys2Proof.Machine
end

