-- ==== Sys2Proof/Machine/Flit.lean ====
section
/-! DEFINITION. Packets as flits (05_corridors_and_stairs.md R137 to R141, R148): header and data flits, the virtual channel of each link of a
way, the link CRC, and the retry buffers that the flits of a packet pass through. -/

namespace Sys2Proof.Machine
open Sys2Proof

/-- DEST and SRC of a header (R137). -/
def nodeCode : Node → Nat
  | .room r => r.toNat
  | .hub u => 256 + u.toNat

/-- The classes of R137. -/
inductive FlitClass where
  | req | rsp | xch | evt
  deriving DecidableEq, Repr

def FlitClass.code : FlitClass → Nat
  | .req => 0
  | .rsp => 1
  | .xch => 2
  | .evt => 3

/-- The fields of a header flit above its class layout (R137). `ndata` counts data flits. -/
structure Header where
  cls : FlitClass
  ndata : Nat
  dst : Node
  src : Node
  gen : BitVec 8 := 0
  bpar : Bool := false
  att : Bool := false
  layout : Nat
  deriving DecidableEq, Repr

/-- A header flit on a virtual channel (R137). -/
def Header.flit (h : Header) (vc : Bool) : BitVec 256 :=
  BitVec.ofNat 256 (h.cls.code * 2 ^ 254 + bit vc 253 + (h.ndata - 1) * 2 ^ 251 + nodeCode h.dst * 2 ^ 241 + nodeCode h.src * 2 ^ 231
    + h.gen.toNat * 2 ^ 223 + bit h.bpar 222 + bit h.att 221 + h.layout % 2 ^ 220)

/-- The XCH layout of header bits [219:0] (R138). -/
def xchLayout (tgt : Nat) (ws : List PktWord) : Nat :=
  tgt % 256 * 2 ^ 212 + (ws.zipIdx.map fun (w, k) => bit w.absent (196 + k) + w.idx % 4096 * 2 ^ (4 + 12 * k)).sum + (ws.length - 1)

/-- The layout of REQ and of RSP other than stream words (R138). -/
def reqLayout (tag op addr : Nat) : Nat := tag % 4096 * 2 ^ 208 + op % 256 * 2 ^ 200 + addr % 2 ^ 64 * 2 ^ 136

/-- The data flits of words: word k at bits [64 (k mod 4) + 63 : 64 (k mod 4)] of flit k div 4 (R137). -/
def dataFlits (ws : List Lanes) : List (BitVec 256) :=
  (List.range (ceilDiv ws.length 4)).map fun i =>
    BitVec.ofNat 256 (((ws.drop (4 * i)).take 4).zipIdx.map fun (w, k) => w.toNat * 2 ^ (64 * k)).sum

/-- A packet of words as flits on a virtual channel. -/
def wordFlits (h : Header) (ws : List PktWord) (vc : Bool) : List (BitVec 256) :=
  ({ h with ndata := ceilDiv ws.length 4, layout := xchLayout h.layout ws }).flit vc :: dataFlits (ws.map (·.word))

/-- The flits of an XCH packet (R137, R138). -/
def Packet.flits (p : Packet) (vc : Bool) : List (BitVec 256) :=
  wordFlits { cls := .xch, ndata := 0, dst := p.dst, src := p.src, gen := p.gen, bpar := p.beat.getLsbD 0, att := p.att, layout := p.tgt } p.words vc

/-- The payload of a VOTE (R84). -/
def Vote.payload (v : Vote) : Nat :=
  v.func.toNat * 2 ^ 112 + v.vroom.toNat * 2 ^ 104 + bit v.set 103 + bit v.restart 102 + v.status.toNat * 2 ^ 96
    + v.beat.toNat % 2 ^ 32 * 2 ^ 64 + v.crc.toNat

/-- The payload of a DECISION (R90). -/
def Decision.payload (x : Decision) : Nat :=
  x.func.toNat * 2 ^ 112 + x.beat.toNat % 2 ^ 32 * 2 ^ 64 + x.cause.toNat * 16 + bit x.commit 0

/-- An EVT packet: its TYPE, and its payload in one data flit (R138). -/
def evtFlits (src dst : Node) (beat : Beat) (att : Bool) (type payload : Nat) (vc : Bool) : List (BitVec 256) :=
  [({ cls := .evt, ndata := 1, dst, src, bpar := beat.getLsbD 0, att, layout := type * 2 ^ 212 } : Header).flit vc, BitVec.ofNat 256 payload]

/-- A REQ packet, or an RSP packet that answers one, with its data in one flit (R137, R138). The spec gives no operation codes and no layout of the data:
0 reads and 1 writes, and a word stands in the low bits (DESIGN CHOICE, log entry 175). -/
def reqFlits (cls : FlitClass) (src dst : Node) (op addr data : Nat) (vc : Bool) : List (BitVec 256) :=
  [({ cls, ndata := 1, dst, src, layout := reqLayout 0 op addr } : Header).flit vc, BitVec.ofNat 256 data]

/-- The link CRC (R148): polynomial 0x8BB7, initial value zero, from bit 255 down. -/
def flitCrc (b : BitVec 256) : BitVec 16 :=
  (List.range 256).foldl (fun c i => (c <<< 1) ^^^ (if c.msb != b.getLsbD (255 - i) then 0x8BB7 else 0)) 0

/-- The dateline link of a ring (R133). -/
def dateline (ring : Nat) : Nat := if ring < 16 then 15 else 16

/-- The virtual channel of each link of a way (R140): VC0 on entering a ring, VC1 from that ring's dateline link on. -/
def vcWay : Option Nat → Bool → List Nat → List (Nat × Bool)
  | _, _, [] => []
  | ring, vc, k :: t =>
    let vc := (decide (ring = some (k / 64)) && vc) || decide (k % 32 = dateline (k / 64))
    (k, vc) :: vcWay (some (k / 64)) vc t

/-- The link directions of a packet's way with their virtual channels (R134, R135, R140). -/
def Net.channels (net : Net) (src dst : Node) : List (Nat × Bool) := vcWay none false (net.way src dst)

/-- The flits of a packet have crossed the links of its way: each sender's retry buffer holds the last 32 that it sent (R148). -/
def Net.carry (net : Net) (src dst : Node) (flits : Bool → List (BitVec 256)) : Net :=
  let sent (vc : Bool) : List Flit := ((flits vc).map fun b => ({ vc, bits := b, crc := flitCrc b } : Flit)).reverse
  { net with links := (net.channels src dst).foldl (fun t (k, vc) =>
      Tbl.modify ({} : LinkState) t k fun s => { s with buf := (sent vc ++ s.buf).take 32 }) net.links }

/-- Messages to rooms whose way lies on a ring that holds new packets wait (R150). -/
def Net.heldTo (net : Net) : Recipient → Bool
  | .room r => net.heldOn (.hub 0) (.room r)
  | .hub _ => false

/-- Decisions leave the arbiter (R90, R150). -/
def Net.sendDecs (net : Net) (l : List (Recipient × Decision)) : Net :=
  { net with decs := net.decs ++ l.filter (fun x => !net.heldTo x.1), heldDecs := net.heldDecs ++ l.filter fun x => net.heldTo x.1 }

/-- A VOTE leaves its room (R84, R150). -/
def Net.sendVote (net : Net) (v : Vote) : Net :=
  if net.heldOn (.room v.room) (.hub 0) then { net with heldVotes := net.heldVotes ++ [v] } else { net with votes := net.votes ++ [v] }

/-- What waited for a ring's hold and no longer does goes on its way (R150). -/
def Net.release (net : Net) : Net :=
  { net with xch := net.xch.map (fun p => { p with waits := p.waits && net.heldOn p.src p.dst }),
             votes := net.votes ++ net.heldVotes.filter (fun v => !net.heldOn (.room v.room) (.hub 0)),
             heldVotes := net.heldVotes.filter (fun v => net.heldOn (.room v.room) (.hub 0)),
             decs := net.decs ++ net.heldDecs.filter (fun x => !net.heldTo x.1),
             heldDecs := net.heldDecs.filter fun x => net.heldTo x.1 }

end Sys2Proof.Machine
end

