-- ==== Sys2Proof/Machine/Crypto.lean ====
section
/-! DEFINITION. The cryptographic functions that rules name by their standard: SHA3-256 and SHAKE256 of FIPS 202 (R164, R308, R369, R427,
R429), AES-256 of FIPS 197 in the Galois/Counter Mode of NIST SP 800-38D (R166). A value of n bytes as a bit vector holds its first byte in its
lowest eight bits (log entry 12). -/

namespace Sys2Proof.Machine
open Sys2Proof

-- Keccak-f[1600] (FIPS 202 section 3): 1,600 bits, lane (x, y) at bit 64 (x + 5 y)

/-- The output bits of the shift register of FIPS 202 algorithm 5, from its state on. -/
def rcBits : Nat → Nat → List Bool
  | _, 0 => []
  | r, n + 1 => bitOf r 0 :: rcBits (if 256 ≤ 2 * r then Nat.xor (2 * r) 0x171 else 2 * r) n

/-- The constant of round i: bit 2^j - 1 is bit j + 7 i of the register's output. -/
def roundConst (i : Nat) : Nat := (((rcBits 1 168).drop (7 * i)).take 7).zipIdx.foldl (fun acc (b, j) => acc + bit b (2 ^ j - 1)) 0

/-- How far rho turns the lanes, in the order in which FIPS 202 algorithm 2 walks over them: from (1, 0), the t-th by (t + 1)(t + 2) / 2. -/
def rhoWalk : Nat → Nat → Nat → Nat → List (Nat × Nat × Nat)
  | _, _, _, 0 => []
  | x, y, t, n + 1 => (x, y, (t + 1) * (t + 2) / 2 % 64) :: rhoWalk y ((2 * x + 3 * y) % 5) (t + 1) n
def rhoTurn (x y : Nat) : Nat := (((rhoWalk 1 0 0 24).find? fun w => w.1 == x && w.2.1 == y).map (·.2.2)).getD 0

abbrev Sponge := BitVec 1600
def Sponge.lane (s : Sponge) (x y : Nat) : BitVec 64 := s.extractLsb' (64 * (x % 5 + 5 * (y % 5))) 64

/-- A state from its 25 lanes by x and y. -/
def Sponge.of (f : Nat → Nat → BitVec 64) : Sponge :=
  BitVec.ofNat 1600 ((List.range 25).foldr (fun i acc => (f (i % 5) (i / 5)).toNat + 2 ^ 64 * acc) 0)

def Sponge.column (s : Sponge) (x : Nat) : BitVec 64 := (List.range 5).foldl (fun acc y => acc ^^^ s.lane x y) 0
def Sponge.theta (s : Sponge) : Sponge := .of fun x y => s.lane x y ^^^ s.column (x + 4) ^^^ (s.column (x + 1)).rotateLeft 1
/-- rho, then pi: lane (x, y) comes from (x + 3 y, x), turned. -/
def Sponge.rhoPi (s : Sponge) : Sponge := .of fun x y => (s.lane (x + 3 * y) x).rotateLeft (rhoTurn ((x + 3 * y) % 5) x)
def Sponge.chi (s : Sponge) : Sponge := .of fun x y => s.lane x y ^^^ (~~~ s.lane (x + 1) y &&& s.lane (x + 2) y)
def Sponge.round (s : Sponge) (i : Nat) : Sponge := s.theta.rhoPi.chi ^^^ BitVec.ofNat 1600 (roundConst i)

/-- The message with its domain suffix and the padding pad10*1, in blocks of the rate, 136 bytes. -/
def spongeBlocks (suffix : Byte) (m : Bytes) : List Bytes :=
  let n := m.length / 136 + 1
  let z := m ++ suffix :: List.replicate (136 * n - m.length - 1) 0
  let z := z.set (136 * n - 1) (z.getD (136 * n - 1) 0 ||| 0x80)
  (List.range n).map fun i => slice z (136 * i) 136

/-- The first 256 bits of the sponge of capacity 512 over a message. -/
@[irreducible] def keccak256 (suffix : Byte) (m : Bytes) : BitVec 256 :=
  let absorb (s : Sponge) (b : Bytes) : Sponge := (List.range 24).foldl Sponge.round (s ^^^ BitVec.ofNat 1600 (leNat b))
  ((spongeBlocks suffix m).foldl absorb 0).setWidth 256

/-- SHA3-256. -/
def sha3 (m : Bytes) : BitVec 256 := keccak256 0x06 m
/-- SHAKE256 with 256 bits of output. -/
def shake256 (m : Bytes) : BitVec 256 := keccak256 0x1F m

-- AES-256

/-- The S-box, entry 0 lowest. -/
def aesSboxWord : Nat := 
  0x16bb54b00f2d99416842e6bf0d89a18cdf2855cee9871e9b948ed9691198f8e19e1dc186b95735610ef6034866b53e708a8bbd4b1f74dde8c6b4a61c2e2578ba08ae7a65eaf4566ca94ed58d6d37c8e779e4959162acd3c25c2406490a3a32e0db0b5ede14b8ee4688902a22dc4f816073195d643d7ea7c41744975fec130ccdd2f3ff1021dab6bcf5389d928f40a351a89f3c507f02f94585334d43fbaaefd0cf584c4a39becb6a5bb1fc20ed00d153842fe329b3d63b52a05a6e1b1a2c830975b227ebe28012079a059618c323c7041531d871f1e5a534ccf73f362693fdb7c072a49cafa2d4adf04759fa7dc982ca76abd7fe2b670130c56f6bf27b777c63

def sbox (b : Byte) : Byte := BitVec.ofNat 8 (fld aesSboxWord (8 * b.toNat) 8)

/-- Multiplication by x in the field of AES. -/
def xtime (b : Byte) : Byte := (b <<< 1) ^^^ (if b.getLsbD 7 then 0x1B else 0)

/-- A word of the key schedule is a list of four bytes: words i of an AES-256 schedule from the eight before it, newest first. -/
def nextKeyWord (i : Nat) (ws : List Bytes) : Bytes :=
  let t := ws.headD []
  let t := if i % 8 = 0 then
      match t.rotateLeft 1 |>.map sbox with
      | a :: rest => (a ^^^ BitVec.ofNat 8 (2 ^ (i / 8 - 1))) :: rest
      | [] => []
    else if i % 8 = 4 then t.map sbox else t
  List.zipWith (· ^^^ ·) (ws.getD 7 []) t

/-- The 15 round keys of 16 bytes. -/
def roundKeys (key : Bytes) : List Bytes :=
  let ws := (List.range 52).foldl (fun ws i => nextKeyWord (i + 8) ws :: ws) ((List.range 8).map fun i => slice key (4 * i) 4).reverse
  let all := ws.reverse.flatten
  (List.range 15).map fun r => slice all (16 * r) 16

/-- ShiftRows on a block, byte 4 c + r in column c and row r. -/
def shiftRows (s : Bytes) : Bytes := (List.range 16).map fun i => s.getD ((i + 4 * (i % 4)) % 16) 0

/-- MixColumns on a block. -/
def mixColumns (s : Bytes) : Bytes :=
  (List.range 16).map fun i =>
    let a (k : Nat) : Byte := s.getD (4 * (i / 4) + (i + k) % 4) 0
    xtime (a 0) ^^^ xtime (a 1) ^^^ a 1 ^^^ a 2 ^^^ a 3

/-- AES-256 of one block of 16 bytes under its round keys. -/
def aesBlock (rk : List Bytes) (b : Bytes) : Bytes :=
  let add (s : Bytes) (r : Nat) : Bytes := List.zipWith (· ^^^ ·) s (rk.getD r [])
  let s := (List.range 13).foldl (fun s r => add (mixColumns (shiftRows (s.map sbox))) (r + 1)) (add b 0)
  add (shiftRows (s.map sbox)) 14

-- Galois/Counter Mode

/-- Bytes as a block whose first byte is the most significant, as SP 800-38D writes bit strings. -/
def beNat (bs : Bytes) : Nat := bs.foldl (fun acc b => 256 * acc + b.toNat) 0
def beBytes (n w : Nat) : Bytes := (leBytes n w).reverse

/-- Multiplication of blocks (SP 800-38D algorithm 1). -/
def ghashMul (x y : BitVec 128) : BitVec 128 :=
  ((List.range 128).foldl (fun (zv : BitVec 128 × BitVec 128) i =>
    (if x.getMsbD i then zv.1 ^^^ zv.2 else zv.1,
     if zv.2.getLsbD 0 then (zv.2 >>> 1) ^^^ (0xE1#128 <<< 120) else zv.2 >>> 1)) (0, y)).1

def ghash (h : BitVec 128) (blocks : List (BitVec 128)) : BitVec 128 := blocks.foldl (fun y b => ghashMul (y ^^^ b) h) 0

/-- The counter block of an IV of 96 bits. -/
def counterBlock (iv : BitVec 96) (n : Nat) : Bytes := beBytes 12 iv.toNat ++ beBytes 4 n

/-- The keystream of AES-256-GCM for a 128-byte line by key and IV. -/
@[irreducible] def gcmStream (key : BitVec 256) (iv : BitVec 96) : BitVec 1024 :=
  let rk := roundKeys (leBytes 32 key.toNat)
  BitVec.ofNat 1024 (leNat ((List.range 8).flatMap fun i => aesBlock rk (counterBlock iv (i + 2))))

/-- The first 64 bits of the GCM tag by key, IV, the 16 bytes of additional data and the 128 bytes of ciphertext. -/
@[irreducible] def gcmTag (key : BitVec 256) (iv : BitVec 96) (aad : BitVec 128) (ct : BitVec 1024) : BitVec 64 :=
  let rk := roundKeys (leBytes 32 key.toNat)
  let h := BitVec.ofNat 128 (beNat (aesBlock rk (List.replicate 16 0)))
  let cts := (List.range 8).map fun i => BitVec.ofNat 128 (beNat (slice (leBytes 128 ct.toNat) (16 * i) 16))
  let lens := BitVec.ofNat 128 (128 * 2 ^ 64 + 1024)
  let s := ghash h (BitVec.ofNat 128 (beNat (leBytes 16 aad.toNat)) :: cts ++ [lens])
  let tag := s ^^^ BitVec.ofNat 128 (beNat (aesBlock rk (counterBlock iv 1)))
  BitVec.ofNat 64 (leNat ((beBytes 16 tag.toNat).take 8))

end Sys2Proof.Machine
end

