-- ==== Sys2Proof/Machine/Frames.lean ====
section
/-! DEFINITION. Bilben frames on their way out: the header and the CRC, the retry buffer, the waiting frames and their credits, forwarding, and
on-chip packets as frames (09_lanes_and_link.md R260 to R265). -/

namespace Sys2Proof.Machine
open Sys2Proof

def Dev.modLink (d : Dev) (f : Link → Link) : Dev := { d with link := f d.link }
def Dev.bd (d : Dev) (b : Nat) : Bundle := Tbl.get {} d.link.bundles b
def Dev.setBd (d : Dev) (b : Nat) (x : Bundle) : Dev := d.modLink fun k => { k with bundles := Tbl.set {} k.bundles b x }
def Dev.modBd (d : Dev) (b : Nat) (f : Bundle → Bundle) : Dev := d.setBd b (f (d.bd b))

/-- Count on the link: 0 NOROUTE, 1 NOTARGET, 2 LATE, 3 DIVERGE (R283). -/
def Dev.countLink (d : Dev) (n : Nat) : Dev := d.modLink fun l => { l with cnt := bumpAt l.cnt n }
/-- Count on a bundle: 0 frames resent, 1 CRC-failed frames, 2 lane removals (R283). -/
def Dev.countBd (d : Dev) (b n m : Nat) : Dev := d.modBd b fun x => { x with cnt := Tbl.modify {} x.cnt n (·.bumpBy m) }

/-- Header and payload of a frame as symbols 2 to 59, and their CRC (R260). -/
def frameHeader (f : Frame) : Nat :=
  f.seq.toNat * 2 ^ 68 + f.ack.toNat * 2 ^ 56 + bit f.nak 55 + f.type.toNat * 2 ^ 52 + f.cls.toNat * 2 ^ 50 + bit f.vc 49 + f.dest.toNat * 2 ^ 38
    + f.src.toNat * 2 ^ 27 + f.len.toNat * 2 ^ 21 + bit f.bpar 20 + bit f.att 19 + bit f.last 18
def frameCrc (f : Frame) : BitVec 32 := crc32 (beBytes 10 (frameHeader f) ++ leBytes 48 f.payload.toNat)
def frameGood (f : Frame) : Bool := f.crc == frameCrc f

/-- The lane that carries a frame: the active lanes in turn by SEQ, in ascending order (R263). -/
def Bundle.deal (x : Bundle) (seq : BitVec 12) : BitVec 3 :=
  let ls := (List.range 8).filter x.active.getLsbD
  BitVec.ofNat 3 (ls.getD (seq.toNat % ls.length) 0)

/-- A frame leaves on a bundle with its CRC. -/
def Dev.emitFrame (d : Dev) (b : Nat) (f : Frame) : Dev :=
  let g := { f with lane := (d.bd b).deal f.seq, crc := frameCrc f }
  d.emit (.frame (BitVec.ofNat 4 b) g)

/-- The order in which waiting frames start (R264): EVT, XCH, RSP, REQ, and VC1 before VC0. -/
def frameRank (f : Frame) : Nat := 2 * (3 - (match f.cls.toNat with | 3 => 3 | 2 => 2 | 1 => 1 | _ => 0)) + (if f.vc then 0 else 1)

/-- The key of a frame's link virtual channel (R264). -/
def vcKey (f : Frame) : Nat := 2 * f.cls.toNat + bit f.vc 0

/-- The next waiting frame with credit (R264). -/
def Bundle.next (x : Bundle) : Option Waiting :=
  (x.queue.filter fun f => decide (Tbl.get 0 x.used (vcKey f.frame) < 32)).foldl (fun best f => match best with
    | none => some f
    | some g => if frameRank f.frame < frameRank g.frame then some f else some g) none

/-- A receive buffer of a bundle's virtual channel has a place again: a credit to return (R264). -/
def Dev.creditBack (d : Dev) (x : Option (Nat × Nat)) : Dev :=
  match x with
  | some (b, k) => d.modBd b fun y => { y with got := Tbl.modify 0 y.got k (· + 1) }
  | none => d

/-- A frame takes the next SEQ, enters the retry buffer and leaves (R261). -/
def Dev.sendSeq (d : Dev) (b : Nat) (f : Frame) : Dev :=
  let x := d.bd b
  let g := { f with seq := x.txSeq, ack := x.rxAck }
  (d.setBd b { x with txSeq := x.txSeq + 1, retry := x.retry ++ [g], sentAt := x.sentAt ++ [d.now], sends := x.sends ++ [1] }).emitFrame b g

/-- Send waiting frames while the retry buffer has room (R261); one that was received and leaves frees its receive buffer (R264). -/
def Dev.pump (b : Nat) : Nat → Dev → Dev
  | 0, d => d
  | n + 1, d =>
    let x := d.bd b
    match x.next with
    | none => d
    | some f =>
      if x.phase ≠ .up ∨ 256 ≤ x.retry.length then d
      else
        let d := d.setBd b { x with queue := x.queue.erase f, used := Tbl.modify 0 x.used (vcKey f.frame) (· + 1) }
        Dev.pump b n ((d.sendSeq b f.frame).creditBack f.buffer)

/-- Send a frame on a bundle; `buffer` is the bundle and virtual channel whose receive buffer holds it until then, if one does. -/
def Dev.sendFrame (d : Dev) (b : Nat) (f : Frame) (buffer : Option (Nat × Nat) := none) : Dev :=
  let d := d.modBd b fun x => { x with queue := x.queue ++ [{ frame := f, buffer }] }
  Dev.pump b (d.bd b).queue.length d

/-- The bundle that leads to a device (R265). -/
def Dev.routeTo (d : Dev) (dev : BitVec 11) : Option Fwd :=
  let e := Tbl.get ({} : Fwd) d.link.fwd dev.toNat
  if e.valid then some e else none

/-- FRAME_FORWARD (R265): on through the bundle its entry names, or dropped and counted. -/
def Dev.routeFrame (d : Dev) (f : Frame) (buffer : Option (Nat × Nat) := none) : Dev :=
  match d.routeTo f.dest with
  | some e => d.sendFrame e.bundle.toNat { f with vc := f.vc || e.dl } buffer
  | none => ((d.countLink 0).raise 849).creditBack buffer

/-- A frame of the device's own (R265): one whose DEST is its own ID waits for its delivery here. -/
def Dev.sendOwn (d : Dev) (f : Frame) : Dev :=
  if f.dest = d.link.devid then d.modLink fun l => { l with loop := l.loop ++ [f] } else d.routeFrame f

/-- Frames of each beat that bindings have reserved on a bundle (R273). -/
def Bundle.framesTaken (x : Bundle) : Nat := (x.reserved.map (·.2)).sum + (x.through.map (·.frames)).sum

/-- An on-chip packet, header flit first, to another device, over as many frames as it needs (R260). -/
def Dev.sendPacket (d : Dev) (dest : BitVec 11) (h : Header) (data : List (BitVec 256)) : Dev :=
  let bytes := (h.flit false :: data).flatMap fun b => leBytes 32 b.toNat
  let n := ceilDiv bytes.length 48
  d.each (List.range n) fun d i =>
    let body := slice bytes (48 * i) 48
    d.sendOwn { cls := BitVec.ofNat 2 h.cls.code, dest, src := d.link.devid, len := BitVec.ofNat 6 body.length, bpar := h.bpar, att := h.att,
                last := decide (i + 1 = n), payload := BitVec.ofNat 384 (leNat body) }

/-- A REQ packet, or an RSP packet that answers one (R138, R260): `body` stands in the data flits, from bit 0 of the first one (log entry 32). -/
def Dev.sendMessage (d : Dev) (dest : BitVec 11) (cls : FlitClass) (tag op addr flits body : Nat) : Dev :=
  let h : Header := { cls, ndata := flits, dst := .hub 4, src := .hub 4, bpar := d.time.n.getLsbD 0, layout := reqLayout tag op addr }
  d.sendPacket dest h ((List.range flits).map fun i => BitVec.ofNat 256 (body >>> (256 * i)))

/-- The decision of a function whose words other devices receive goes to one of them: a DECISION packet (R77, R90, R138). -/
def Dev.sendDecision (d : Dev) (dest : BitVec 11) (x : Decision) : Dev :=
  d.sendPacket dest { cls := .evt, ndata := 1, dst := .hub 0, src := .hub 0, bpar := x.beat.getLsbD 0, layout := 2 * 2 ^ 212 } [BitVec.ofNat 256 x.payload]

/-- A remote target's fields. -/
def rtDev (t : BitVec 64) : BitVec 11 := t.extractLsb' 53 11
def rtFunc (t : BitVec 64) : FuncId := t.extractLsb' 37 16
def rtVroom (t : BitVec 64) : Nat := (t.extractLsb' 29 8).toNat
def rtRep (t : BitVec 64) : Nat := (t.extractLsb' 21 8).toNat
def rtBind (t : BitVec 64) : Nat := (t.extractLsb' 13 8).toNat

end Sys2Proof.Machine
end

