-- ==== Sys2Proof/Machine/Buffers.lean ====
section
/-! DEFINITION. Endpoint references, payload rates, and which flows hold a differential buffer in the cellar (07_media_ports.md R205, R208,
R215). -/

namespace Sys2Proof.Machine
open Sys2Proof

-- endpoint references (R215)

/-- The kind of an endpoint. -/
def refKind (r : EndRef) : Nat := fld r.toNat 28 4
/-- The number of an endpoint; a reference whose reserved bits are not zero names none (R215). -/
def refNum (r : EndRef) : Nat := fld r.toNat 0 28

-- payload rates

/-- Frames per second as a fraction, by code (R208). -/
def frameRate (code : Nat) : Nat × Nat :=
  match code with
  | 0 => (24000, 1001) | 1 => (24, 1) | 2 => (25, 1) | 3 => (30000, 1001) | 4 => (30, 1) | 5 => (50, 1) | 6 => (60000, 1001)
  | 7 => (60, 1) | 8 => (100, 1) | 9 => (120000, 1001) | _ => (120, 1)

/-- Bits per frame and frames per second as a fraction: the payload rate (R205). -/
def FlowRec.payload (r : FlowRec) : Nat × Nat × Nat :=
  match r.fmt with
  | 1 =>
    let perPixel := match r.samp with | 0 => 4 | 3 => 3 | _ => 6
    let (num, den) := frameRate r.rate
    (r.width * r.height * r.depth * perPixel / 2, num, den)
  | 2 => (r.width * (if r.samp = 1 then 24 else 16), if r.rate = 1 then 96000 else 48000, 1)
  | 3 => (r.width * 64, 48000, 1)
  | _ => (0, 1, 1)

/-- Merged: a receive flow with two legs (R205). -/
def FlowRec.merged (r : FlowRec) : Bool := r.dir == 0 && r.legB.isSet

/-- The differential buffer in bytes (R205). -/
def FlowRec.bufBytes (r : FlowRec) : Nat :=
  let (bits, num, den) := r.payload
  if r.merged then ceilDiv (ceilDiv (125 * bits * num * (r.diff + 1000)) (den * 10 ^ 9)) 4096 * 4096 else 0

/-- Lines per beat that a merged flow takes of the flow budget, for a beat of `t` ns (R205). -/
def FlowRec.budgetLines (r : FlowRec) (t : Nat) : Nat :=
  let (bits, num, den) := r.payload
  if r.merged then ceilDiv (2 * bits * num * t) (den * 10 ^ 9 * 1024) else 0

/-- The reference of a receive flow (R215). -/
def flowRef (i : Nat) : EndRef := BitVec.ofNat 32 (2 ^ 28 + i)

/-- What takes a receive flow: for each feed record of a function whether it writes a frame store, and a pass-through of an egress as a consumer
that does not. -/
def Dev.consumers (d : Dev) (i : Nat) : List Bool :=
  (d.funcs.flatMap fun f => (f.obj.bindings.filter fun b => b.type == 1 && Tbl.get 0 f.ends.feeds b.num == flowRef i).map fun b => b.target == 1)
    ++ (d.media.egress.filter fun (_, e) => e.route == some (flowRef i)).map fun _ => false

/-- A merged flow needs no differential buffer while frame-store feeds alone take it; before anything takes it, it has one (R205; log
entry 141). -/
def Dev.buffered (d : Dev) (i : Nat) : Bool :=
  let k := d.consumers i
  k.isEmpty || k.any (!·)

/-- An open flow's buffer in bytes, and the lines per beat that it takes of the flow budget (R205). -/
def Dev.bufOf (d : Dev) (i : Nat) (f : Flow) : Nat := if f.opened ∧ i < 1024 ∧ d.buffered i then f.record.bufBytes else 0
def Dev.linesOf (d : Dev) (t i : Nat) (f : Flow) : Nat := if f.opened ∧ i < 1024 ∧ d.buffered i then f.record.budgetLines t else 0

end Sys2Proof.Machine
end

