-- ==== Sys2Proof/Machine/Sealing.lean ====
section
/-! DEFINITION. The cellar's address space, access checks and sealed lines (06_cellar.md R153 to R181). -/

namespace Sys2Proof.Machine
open Sys2Proof

/-- The number of data lines (R156): line indices 0 to 0x6FF_FFFF. -/
abbrev dataLines : Nat := 0x7000000

/-- The first line of the open area (R154). -/
def Cellar.openLine (c : Cellar) : Nat := dataLines - c.open_.toNat * 2 ^ 21

/-- The pseudo-channel of a cellar address (R155). -/
def pcOf (a : Nat) : Nat := (fld a 8 4 ^^^ fld a 16 4) ^^^ fld a 24 4

/-- PCADDR, the address in the pseudo-channel (R155). -/
def pcAddr (a : Nat) : Nat := fld a 12 22 * 256 + fld a 0 8

/-- M(A) for a line index (R156). -/
def metaAddr (line : Nat) : Nat := 0x380000000 + 16 * line

/-- Words (address / 8) of an address range. -/
def wordIn (a n w : Nat) : Bool := decide (a ≤ 8 * w ∧ 8 * w < a + n)

-- stored lines

/-- The 128 stored bytes of a line. -/
def Cellar.raw (c : Cellar) (line : Nat) : BitVec 1024 := BitVec.ofNat 1024 (Memory.readLe c.mem (128 * line) 128)
/-- All of a line is stored: its words can be read again (R159). -/
def Cellar.putRaw (c : Cellar) (line : Nat) (v : BitVec 1024) : Cellar :=
  { c with mem := Memory.writeN c.mem (128 * line) (leBytes 128 v.toNat), unread := c.unread.filter (!wordIn (128 * line) 128 ·) }

/-- The metadata of a line (R165). -/
structure Meta where
  ctr : BitVec 32
  mac : BitVec 64
  slot : BitVec 6
  state : Nat
  rsvOk : Bool
  deriving DecidableEq, Repr

def Cellar.metaOf (c : Cellar) (line : Nat) : Meta :=
  let n := Memory.readLe c.mem (metaAddr line) 16
  { ctr := BitVec.ofNat 32 n, mac := BitVec.ofNat 64 (fld n 32 64), slot := BitVec.ofNat 6 (fld n 96 6), state := fld n 102 2,
    rsvOk := fld n 104 24 == 0 }

def Cellar.putMeta (c : Cellar) (line : Nat) (m : Meta) : Cellar :=
  let bs := leBytes 16 (m.ctr.toNat + m.mac.toNat * 2 ^ 32 + m.slot.toNat * 2 ^ 96 + m.state * 2 ^ 102)
  { c with mem := Memory.writeN c.mem (metaAddr line) bs, unread := c.unread.filter (!wordIn (metaAddr line) 16 ·) }

/-- A key slot. -/
def Cellar.key (c : Cellar) (k : BitVec 6) : KeySlot := Tbl.get {} c.keys k.toNat
def Cellar.setKey (c : Cellar) (k : BitVec 6) (x : KeySlot) : Cellar := { c with keys := Tbl.set {} c.keys k.toNat x }

/-- A region. -/
def Cellar.region (c : Cellar) (n : Nat) : Region := Tbl.get {} c.regions n
def Cellar.setRegion (c : Cellar) (n : Nat) (x : Region) : Cellar := { c with regions := Tbl.set {} c.regions n x }

/-- A queue. -/
def Cellar.queue (c : Cellar) (q : BitVec 9) : CQueue := Tbl.get {} c.queues q.toNat

/-- The derivation of a slot's sealing key (R164): the load number least significant octet first, the slot as one octet (DESIGN CHOICE, log entry
170). -/
def deriveKe (key : BitVec 256) (nonce : BitVec 128) (load : BitVec 32) (k : BitVec 6) : BitVec 256 :=
  shake256 (leBytes 32 key.toNat ++ leBytes 16 nonce.toNat ++ leBytes 4 load.toNat ++ leBytes 1 k.toNat)

/-- The IV of a seal (R166). -/
def sealIv (line : Nat) (ctr : BitVec 32) (slot : BitVec 6) : BitVec 96 :=
  BitVec.ofNat 96 (line * 2 ^ 69 + ctr.toNat * 2 ^ 37 + slot.toNat * 2 ^ 31)

/-- The additional authenticated data of a seal (R166). -/
def sealAad (line : Nat) (ctr : BitVec 32) (slot : BitVec 6) : BitVec 128 :=
  BitVec.ofNat 128 (line + ctr.toNat * 2 ^ 32 + slot.toNat * 2 ^ 64)

/-- Seal a line under a slot with a counter (R166); FRESH of the slot clears at its first seal (R164). -/
def Cellar.seal (c : Cellar) (line : Nat) (slot : BitVec 6) (ctr : BitVec 32) (plain : BitVec 1024) : Cellar :=
  let ke := (c.key slot).ke
  let iv := sealIv line ctr slot
  let ct := plain ^^^ gcmStream ke iv
  let mac := gcmTag ke iv (sealAad line ctr slot) ct
  let c := (c.putRaw line ct).putMeta line { ctr, mac, slot, state := 1, rsvOk := true }
  c.setKey slot { c.key slot with fresh := false }

/-- The row of a line (R159): its pseudo-channel and PCADDR[29:10] (log entry 13). -/
def rowOf (line : Nat) : Nat × Nat := (pcOf (128 * line), pcAddr (128 * line) / 1024)

/-- The row of a line's data is under repair (R159, R169): that of its metadata does not count (DESIGN CHOICE, log entry 172). -/
def Cellar.inRepair (c : Cellar) (line : Nat) : Bool := c.repairing.any fun r => (r.pc, r.row) == rowOf line

/-- A line's data, or its metadata, has a word that no ECC corrects: one that this read finds, or that stayed unreadable (R157, R159). -/
def Cellar.dataUe (c : Cellar) (line : Nat) (e : LineEcc) : Bool := e.uncorrectable || c.unread.any (wordIn (128 * line) 128)
def Cellar.metaUe (c : Cellar) (line : Nat) (e : LineEcc) : Bool := e.metaUncorrectable || c.unread.any (wordIn (metaAddr line) 16)

/-- Open a line of the sealed area (R165, R169): its verdict and its plaintext, zeros where the line is not sealed. The metadata decides whether
the data is read at all, so a line that is UNSEALED-ZERO or POISONED is that whatever its data words hold. `free` numbers the open value of an
uncorrectable line. -/
def Cellar.openSealed (c : Cellar) (line : Nat) (e : LineEcc) (free : Nat) : Verdict × BitVec 1024 :=
  let m := c.metaOf line
  if c.clearing then (.unwritten, 0)
  else if c.metaUe line e then (.ue, Config.ueLine free)
  else if m.state = 0 ∧ m.rsvOk then (.unwritten, 0)
  else if m.state = 2 ∧ m.rsvOk then (.poison, 0)
  else if c.dataUe line e then (.ue, Config.ueLine free)
  else
    let ke := (c.key m.slot).ke
    let iv := sealIv line m.ctr m.slot
    let plain := c.raw line ^^^ gcmStream ke iv
    if m.state = 3 ∨ !m.rsvOk ∨ (c.key m.slot).phase = .empty
        ∨ gcmTag ke iv (sealAad line m.ctr m.slot) (c.raw line) ≠ m.mac then (.macFail, plain)
    else if e.metaCorrected ∨ 2 ≤ e.dataCorrected ∨ c.inRepair line then (.suspect, plain)
    else if e.dataCorrected = 1 then (.corrected, plain)
    else (.good, plain)

/-- Read a line of an unsealed region (R169). -/
def Cellar.openPlain (c : Cellar) (line : Nat) (e : LineEcc) (free : Nat) : Verdict × BitVec 1024 :=
  if c.dataUe line e then (.ue, Config.ueLine free)
  else if 0 < e.dataCorrected then (.corrected, c.raw line)
  else (.good, c.raw line)

/-- Whether a verdict lets data through: 0 to 2 (R169, R170). -/
def Verdict.passes : Verdict → Bool
  | .good | .corrected | .unwritten => true
  | _ => false

/-- Verdict codes (R169). -/
def Verdict.code : Verdict → Nat
  | .good => 0 | .corrected => 1 | .unwritten => 2 | .suspect => 3 | .macFail => 4 | .poison => 5 | .ue => 6 | .slotMiss => 7

-- access checks

/-- The enabled region that holds a line (R160). -/
def Cellar.regionOf (c : Cellar) (line : Nat) : Option (Nat × Region) :=
  c.regions.find? (fun (_, r) => r.en && decide (r.base.toNat ≤ line / 32 ∧ line / 32 ≤ r.limit.toNat))

/-- What a request wants of a region (R161), as a bit of its rights mask. -/
inductive Want where
  | streamR | streamW | feed | flow | copyIn | copyOut | coreR | coreW | barW
  deriving DecidableEq, Repr

def Want.bit : Want → Nat
  | .streamR => 0 | .streamW => 1 | .feed => 2 | .flow => 3 | .copyIn => 4 | .copyOut => 5 | .coreR => 6 | .coreW => 7 | .barW => 8

/-- KIND of a queue (R190); BAR4 has none, and no queue serves it. -/
def kindCode : QKind → Nat
  | .room => 0 | .copy => 1 | .core => 2 | .feed => 3 | .flow => 4 | .bar => 8

/-- The right that a requester kind needs (R161). -/
def wantOf (k : QKind) (write : Bool) : Want :=
  match k, write with
  | .room, false => .streamR
  | .room, true => .streamW
  | .copy, false => .copyOut
  | .copy, true => .copyIn
  | .core, false => .coreR
  | .core, true => .coreW
  | .feed, _ => .feed
  | .flow, _ => .flow
  | .bar, _ => .barW

/-- The checks of R163 in their order: the region and its number, or none at the first that fails. -/
def Cellar.permits (c : Cellar) (k : QKind) (q : BitVec 9) (line : Nat) (want : Want) (write : Bool) : Option (Nat × Region) :=
  match c.regionOf line with
  | none => none
  | some (n, r) =>
    let qq := c.queue q
    if !qq.en ∨ qq.kind.toNat ≠ kindCode k ∨ !r.rights.getLsbD want.bit then none
    else if qq.owner ≠ r.owner ∧ qq.owner ≠ 0 then none
    else if write ∧ r.sealed_ ∧ !(qq.wevalid ∧ (c.key qq.weff).phase = .active) then none
    else some (n, r)

/-- A line of the data space that is written as it is stored (R185, R404): it lies in an enabled unsealed region. -/
def Cellar.rawOk (c : Cellar) (line : Nat) : Bool := match c.regionOf line with | some (_, r) => !r.sealed_ | none => false

/-- A line that the PF cellar window may write: such a region grants BAR_W (R161, R185). -/
def Cellar.barOk (c : Cellar) (line : Nat) : Bool :=
  match c.regionOf line with
  | some (_, r) => !r.sealed_ && r.rights.getLsbD Want.barW.bit
  | none => false

-- counters: 0 SEC_MAC, 1 POISON, 2 REFUSED, 3 EXHAUST (R190)

def Dev.modCellar (d : Dev) (f : Cellar → Cellar) : Dev := { d with cellar := f d.cellar }

def Cellar.count (c : Cellar) (n : Nat) : Cellar := { c with cnt := bumpAt c.cnt n }

/-- A refusal of R163 or R185: counted, with EV0446. -/
def Dev.cellarRefuse (d : Dev) : Dev := (d.modCellar (·.count 2)).raise 446

/-- SEC_MAC: counted, with EV0440 (R169, R174, R179). -/
def Dev.secMac (d : Dev) : Dev := (d.modCellar (·.count 0)).raise 440

/-- DETAIL of EV0444 (R422): function and line. -/
def poisonDetail (f : FuncId) (line : Nat) : Nat := line + f.toNat * 2 ^ 48

/-- Poison a line (R175): counted, with EV0444 (R189). -/
def Dev.poison (d : Dev) (line : Nat) (f : FuncId) : Dev :=
  (d.modCellar fun c => (c.putMeta line { c.metaOf line with state := 2, rsvOk := true }).count 1).raise 444 (poisonDetail f line)

-- repairs

/-- Background holds apply (R470): a sensor is hot, the ceiling is exceeded, or the stack is above 95 °C. -/
def Dev.background (d : Dev) : Bool := d.power.hot || d.power.ceilOver || decide (95 < d.cellar.temp.toNat)

/-- A sweep holds while its next line's row is under repair (R22), while background holds apply (R470), and through a warm reset (R179, R182). -/
def Dev.engineHeld (d : Dev) (s : SweepEngine) : Bool :=
  d.background || !d.hubUp || d.cellar.inRepair s.bound.toNat

/-- Sweeps hold and go on as `engineHeld` says; one that comes to hold raises EV0441 (R189). -/
def Dev.syncSweeps (d : Dev) : Dev :=
  d.each d.cellar.sweeps fun d (n, s) =>
    let to_ (p : SweepPhase) : Dev := d.modCellar fun c => { c with sweeps := Tbl.set {} c.sweeps n { s with phase := p } }
    match s.phase with
    | .idle => d
    | .run => if d.engineHeld s then (to_ .hold).raise 441 else d
    | .hold => if d.engineHeld s then d else to_ .run

/-- The lines of a row: 1 KiB of one pseudo-channel, eight lines whose addresses share bits [33:14] (R155, R159). -/
def rowLines (pc row : Nat) : List Nat := ((List.range 128).map (128 * row + ·)).filter fun l => rowOf l == (pc, row)

/-- A row repair starts, unless one runs on the row (R159): the row is copied into its shadow, and a word found uncorrectable stays unreadable;
running sweeps on its lines hold (R22). -/
def Dev.startRepair (d : Dev) (pr : Nat × Nat) (word : Option Nat) : Dev :=
  let (pc, row) := pr
  Dev.syncSweeps <| d.modCellar fun c =>
    let add (l : List Nat) : List Nat := match word with | some w => addKey w l | none => l
    let reps := if c.repairing.any (fun r => r.pc == pc && r.row == row) then
        c.repairing.map fun r => if r.pc = pc ∧ r.row = row then { r with bad := add r.bad } else r
      else c.repairing ++ [{ pc, row, shadow := rowLines pc row, bad := add [] }]
    { c with repairing := reps, unread := add c.unread }

/-- What the stack's ECC does at a read of 64-bit words of one row (R157, R159), the row of a line or of metadata: corrected errors count and
are written back, an uncorrectable one counts, raises the pseudo-channel's event and starts a repair of the row, as do four corrected errors
within 1 s. -/
def Dev.rowEcc (d : Dev) (pr : Nat × Nat) (corr : Nat) (bad : Option Nat) : Dev :=
  let (pc, row) := pr
  let key := pc * 2 ^ 20 + row
  let d := if corr = 0 then d else d.modCellar fun c =>
    { c with pcCe := Tbl.modify {} c.pcCe pc (·.bumpBy corr),
             rowErrors := (List.replicate corr (key, d.now)) ++ c.rowErrors.filter (fun x => decide (d.now < x.2 + 10 ^ 9 * ns)) }
  let d := match bad with
    | some w => ((d.modCellar fun c => { c with pcUe := Tbl.modify {} c.pcUe pc (·.bump) }).raise (424 + pc)).startRepair pr (some w)
    | none => d
  if 4 ≤ (d.cellar.rowErrors.filter (fun x => x.1 == key)).length ∧ corr ≠ 0 then
    let d := d.startRepair pr none
    d.modCellar fun c => { c with rowErrors := c.rowErrors.filter (fun x => x.1 != key) }
  else d

/-- Words of an address range that a repair left unreadable are met again: each counts, and its row, which has been repaired for them, is not
repaired again (R157, R159; log entry 140). -/
def Dev.deadWords (d : Dev) (line a n : Nat) : Dev :=
  match (d.cellar.unread.filter (wordIn a n)).length with
  | 0 => d
  | k + 1 =>
    let pc := (rowOf line).1
    (d.modCellar fun c => { c with pcUe := Tbl.modify {} c.pcUe pc (·.bumpBy (k + 1)) }).raise (424 + pc)

/-- The ECC of the 128 bytes at a line (R157). -/
def Dev.rawEcc (d : Dev) (line : Nat) (e : LineEcc) : Dev :=
  (d.deadWords line (128 * line) 128).rowEcc (rowOf line) e.dataCorrected (if e.uncorrectable then some (16 * line + e.word.toNat) else none)

/-- The ECC of a line's metadata, which lies in a row of its own at M(A), below the open area (R154, R156, R157). -/
def Dev.metaEcc (d : Dev) (line : Nat) (e : LineEcc) : Dev :=
  if d.cellar.openLine ≤ line then d
  else
    let ml := metaAddr line / 128
    (d.deadWords ml (metaAddr line) 16).rowEcc (rowOf ml) (if e.metaCorrected then 1 else 0)
      (if e.metaUncorrectable then some (metaAddr line / 8 + (if e.metaWord then 1 else 0)) else none)

/-- The ECC of a line and of its metadata (R157). -/
def Dev.lineEcc (d : Dev) (line : Nat) (e : LineEcc) : Dev := (d.rawEcc line e).metaEcc line e

-- the hub write buffer's forwarding

/-- Words of a line as 16 words of 64 bits. -/
def lineWords (v : BitVec 1024) : List Lanes := (List.range 16).map fun k => v.extractLsb' (64 * k) 64

/-- 16 words as a line. -/
def wordsLine (ws : List Lanes) : BitVec 1024 :=
  BitVec.ofNat 1024 ((ws.zipIdx).foldl (fun acc (w, k) => acc + w.toNat * 2 ^ (64 * k)) 0)

/-- The forwarding order of entries of one line: beat, function, replica (R172). -/
def WbEntry.before (a b : WbEntry) : Bool :=
  decide (a.beat < b.beat) || (a.beat == b.beat && (decide (a.func < b.func) || (a.func == b.func && decide (a.rep ≤ b.rep))))

/-- Insert an entry in that order. -/
def insertWb (e : WbEntry) : List WbEntry → List WbEntry
  | [] => [e]
  | x :: t => if e.before x && !x.before e then e :: x :: t else x :: insertWb e t

/-- Entries whose words a read sees (R173): committed ones, and for function F's streams its own of earlier beats. -/
def Cellar.visible (c : Cellar) (line : Nat) (who : Option (FuncId × Beat)) : List WbEntry :=
  (c.wb.filter fun e => e.line == line && (e.committed || (match who with
    | some (f, n) => e.func == f && decide (e.beat < n)
    | none => false))).foldr insertWb []

/-- A line as a read sees it with the buffer's words forwarded (R173): where the buffer holds all of it, the verdict is GOOD. -/
def Cellar.forward (c : Cellar) (line : Nat) (who : Option (FuncId × Beat)) (v : Verdict) (data : BitVec 1024) : Verdict × BitVec 1024 :=
  let es := c.visible line who
  let words := es.foldl (fun ws e => (held e.words).foldl (fun ws (k, w) => ws.set k w) ws) (lineWords data)
  let covered := (List.range 16).all fun k => es.any fun e => (Tbl.get none e.words k).isSome
  if es.isEmpty then (v, data) else (if covered then .good else v, wordsLine words)

-- sweeps

/-- The running sweep that covers a line (R180). -/
def Cellar.sweepOn (c : Cellar) (line : Nat) : Option SweepEngine :=
  (c.sweeps.map (·.2)).find? fun s => s.phase != .idle && decide (s.start.toNat ≤ line ∧ line < s.stop.toNat)

/-- A sweep runs on a region. -/
def Cellar.sweeping (c : Cellar) (n : Nat) : Bool :=
  c.sweeps.any fun (_, s) => s.phase != .idle && !s.startup && s.region.toNat == n

/-- A sweep engine that is free (R179). -/
def Cellar.freeEngine (c : Cellar) : Option Nat := (List.range 4).find? fun e => (Tbl.get {} c.sweeps e).phase == .idle

/-- Start a sweep on an engine, with EV0441 (R179, R189). -/
def Dev.startSweep (d : Dev) (e : Nat) (s : SweepEngine) : Dev :=
  ((d.modCellar fun c => { c with sweeps := Tbl.set {} c.sweeps e s }).raise 441).syncSweeps

/-- Lines of a region: first, and one past its last. -/
def Region.lines (r : Region) : Nat × Nat := (r.base.toNat * 32, r.limit.toNat * 32 + 32)

/-- The sweep of a whole region to its pending slot that AUTOSWEEP starts as soon as an engine is free (R176). -/
def Dev.autoSweeps (d : Dev) : Dev :=
  d.each (d.cellar.regions.filter fun (n, r) => r.exhausting && r.autosweep && !d.cellar.sweeping n) fun d (n, r) =>
    match d.cellar.freeEngine with
    | none => d
    | some e =>
      let b := BitVec.ofNat 27 r.lines.1
      d.startSweep e { phase := .run, tgt := r.pending, region := BitVec.ofNat 8 n, start := b, bound := b, stop := BitVec.ofNat 27 r.lines.2, exhaust := true }

-- seals and stores

/-- Seal a line's new plaintext under the slot that a write or sweep wants (R167, R176): at the counter's end under the region's
pending slot, or not at all where none is valid. -/
def Dev.reseal (d : Dev) (n : Nat) (line : Nat) (slot : BitVec 6) (plain : BitVec 1024) : Dev × Bool :=
  let m := d.cellar.metaOf line
  let r := d.cellar.region n
  if m.state = 0 then (d.modCellar (·.seal line slot 0 plain), true)
  else if m.ctr ≠ BitVec.allOnes 32 then (d.modCellar (·.seal line slot (m.ctr + 1) plain), true)
  else if !r.pvalid then (d.raise 442, false)
  else
    let d := d.modCellar fun c => ((c.seal line r.pending 0 plain).count 3).setRegion n { r with exhausting := true }
    let d := if r.exhausting then d else d.raise 443
    (d.autoSweeps, true)

/-- How a store ended (R174, R176). -/
inductive Stored where
  | ok | busError | wasPoisoned
  deriving DecidableEq, Repr

/-- Bytes of a line replaced under a byte mask. -/
def mergeBytes (mask : BitVec 128) (new old : BitVec 1024) : BitVec 1024 :=
  BitVec.ofNat 1024 ((List.range 128).foldl (fun acc k =>
    acc + ((if mask.getLsbD k then new else old).extractLsb' (8 * k) 8).toNat * 2 ^ (8 * k)) 0)

/-- Bytes of a line stored as they are: a word that is unreadable stays so unless all of it is written (R159). -/
def Cellar.mergeRaw (c : Cellar) (line : Nat) (mask : BitVec 128) (data : BitVec 1024) : Cellar :=
  let full (w : Nat) : Bool := wordIn (128 * line) 128 w && (List.range 8).all fun k => mask.getLsbD (8 * (w - 16 * line) + k)
  { c.putRaw line (mergeBytes mask data (c.raw line)) with unread := c.unread.filter (!full ·) }

/-- The bytes of a partial write meet the line as it opened (R174, R175): merged and resealed, but for a line that is POISONED or does not verify. -/
def Dev.mergeOpened (d : Dev) (n line : Nat) (slot : BitVec 6) (mask : BitVec 128) (data : BitVec 1024) (f : FuncId) (v : Verdict)
    (plain : BitVec 1024) : Dev × Stored :=
  match v with
  | .poison => (d, .wasPoisoned)
  | .suspect | .macFail | .ue => ((d.secMac.poison line f), .busError)
  | _ =>
    let (d, ok) := d.reseal n line slot (mergeBytes mask data plain)
    (d, if ok then .ok else .busError)

/-- A partial write of a sealed line (R174): the line is read, with what its ECC finds, and opened. -/
def Dev.storePart (d : Dev) (n line : Nat) (slot : BitVec 6) (mask : BitVec 128) (data : BitVec 1024) (e : LineEcc) (f : FuncId) : Dev × Stored :=
  let d := d.lineEcc line e
  let o := d.cellar.openSealed line e d.free
  d.mergeOpened n line slot mask data f o.1 o.2

/-- Store bytes of a line in a region under a write slot (R174 to R176, R180): an unsealed region takes them as they are; a sealed line is
merged under its lock and resealed. A line written whole needs its metadata alone, for the counter; where that cannot be read the new counter is an
open value (DESIGN CHOICE, log entry 173). `f` is the function of a room's write-back. -/
def Dev.storeLine (d : Dev) (n : Nat) (line : Nat) (slot : BitVec 6) (mask : BitVec 128) (data : BitVec 1024) (e : LineEcc)
    (f : FuncId) : Dev × Stored :=
  let r := d.cellar.region n
  if !r.sealed_ then (d.modCellar fun c => c.mergeRaw line mask data, .ok)
  else
    let slot := match d.cellar.sweepOn line with | some s => s.tgt | none => slot
    if mask = BitVec.allOnes 128 then
      let lost := d.cellar.metaUe line e
      let d := d.metaEcc line e
      if lost then ((d.modCellar fun c => c.seal line slot ((Config.ueLine d.free).setWidth 32) data).take 1, .ok)
      else
        let (d, ok) := d.reseal n line slot data
        (d, if ok then .ok else .busError)
    else
      d.storePart n line slot mask data e f

/-- References of a key slot (R178): SEALED lines that name it and buffer entries tagged with it. -/
def Cellar.refs (c : Cellar) (k : BitVec 6) : Nat :=
  (c.mem.filter fun (a, b) => decide (0x380000000 ≤ a ∧ a < 0x3F0000000 ∧ a % 16 = 12) && b == BitVec.ofNat 8 (64 + k.toNat)).length
    + (c.wb.filter fun e => e.slot == some k).length

end Sys2Proof.Machine
end

