-- ==== Sys2Proof/Machine/Completion.lean ====
section
/-! DEFINITION. The retention window of a ring pair: acceptance, commit points, completions and their posting, FENCE, and the order of
changes that share an object (12_host_interface.md R349 to R356; 01_organisation.md R21). -/

namespace Sys2Proof.Machine
open Sys2Proof

/-- A field of a descriptor (R345): `n` bytes at an offset, little-endian. -/
def dfld (w : BitVec 512) (off n : Nat) : Nat := fld w.toNat (8 * off) (8 * n)

def descOpcode (w : BitVec 512) : Nat := dfld w 0 1
def descFlags (w : BitVec 512) : Nat := dfld w 1 1
def descSeq (w : BitVec 512) : BitVec 64 := BitVec.ofNat 64 (dfld w 8 8)
def descTarget (w : BitVec 512) : Nat := dfld w 16 8
def descStrict (w : BitVec 512) : Bool := bitOf (descFlags w) 0
def descFence (w : BitVec 512) : Bool := bitOf (descFlags w) 1
def descTimed (w : BitVec 512) : Bool := bitOf (descFlags w) 2
def descAbortable (w : BitVec 512) : Bool := bitOf (descFlags w) 3
def descTbase (w : BitVec 512) : Bool := bitOf (descFlags w) 4

def Dev.ring (d : Dev) (k : BitVec 9) : Ring := Tbl.get {} d.rings.pairs k.toNat
def Dev.setRing (d : Dev) (k : BitVec 9) (x : Ring) : Dev := { d with rings := { d.rings with pairs := Tbl.set {} d.rings.pairs k.toNat x } }
def Dev.modRing (d : Dev) (k : BitVec 9) (f : Ring → Ring) : Dev := d.setRing k (f (d.ring k))

/-- The retention entry of a slot. -/
def Dev.entry? (d : Dev) (x : DescRef) : Option RetEntry := (d.ring x.ring).window.find? (fun e => e.slot == x.slot.toNat)
def Dev.modEntry (d : Dev) (x : DescRef) (f : RetEntry → RetEntry) : Dev :=
  d.modRing x.ring fun r => { r with window := r.window.map fun e => if e.slot = x.slot.toNat then f e else e }

/-- One more on a RINGS counter: 0 DUP, 1 GAP, 2 BADDESC, 3 HOSTMEM (R366). -/
def Dev.countRing (d : Dev) (n : Nat) : Dev := { d with rings := { d.rings with cnt := bumpAt d.rings.cnt n } }

/-- An MSI-X message: a masked vector sets its pending bit instead (R341, R388). -/
def Dev.msix (d : Dev) (fn : BitVec 6) (vector : BitVec 11) : Dev :=
  let k := fn.toNat * 2048 + vector.toNat
  if k ∈ d.sched.msixMasked then d.putSched { d.sched with msixPending := addKey k d.sched.msixPending }
  else d.emit (.msix fn vector)

/-- A completion record as 32 bytes (R349). -/
def recordBytes (c : Completion) (par : Bool) : Bytes :=
  leBytes 8 c.seq.toNat ++ leBytes 1 c.status ++ leBytes 1 c.detail ++ leBytes 1 c.opcode ++ leBytes 1 (bit par 0)
    ++ leBytes 4 c.info0 ++ leBytes 8 c.beat.toNat ++ leBytes 8 c.info1

/-- A write of host memory (R349); while the PCIe link is down it fails: EV0771, counted (R365, R366; DESIGN CHOICE, log entry 186). -/
def Dev.writeHost (d : Dev) (addr : BitVec 64) (data : Bytes) : Dev :=
  if d.rings.linkUp then d.emit (.hostWrite addr data) else (d.countRing 3).raise 771

/-- The entries of a window that can be posted now: those of its completed front that are not posted, and none behind one that is still
open or awaits APPLIED (R356, R363). -/
def postable (await : RetEntry → Bool) : List RetEntry → List RetEntry
  | [] => []
  | e :: t => if e.phase ≠ .completed ∨ await e then [] else if e.posted then postable await t else e :: postable await t

/-- The pair's descriptor awaits the secondary's APPLIED (R276, R363). -/
def Dev.awaits (d : Dev) (k : BitVec 9) (e : RetEntry) : Bool :=
  d.link.await.any fun a => a.desc.ring == k && a.desc.slot.toNat == e.slot

/-- Send the pair's message when COUNT completions are pending (R366). -/
def Dev.coalesce (d : Dev) (k : BitVec 9) : Dev :=
  let r := d.ring k
  if r.irqEn ∧ max 1 r.irqCount.toNat ≤ r.irqPending then
    (d.setRing k { r with irqPending := 0 }).msix r.owner r.irqVector
  else d

/-- APPLIED (R276, R277): the secondary's status of a forwarded descriptor, in an RSP packet whose OP is that status (R138), with the pair in bytes 0
and 1 of its data and the sequence number in bytes 8 to 15 (log entry 32). -/
def Dev.sendApplied (d : Dev) (k : BitVec 9) (seq : BitVec 64) (status : Nat) : Dev :=
  d.sendMessage d.link.partner .rsp 0x800 status 0 1 (k.toNat + seq.toNat * 2 ^ 64)

/-- Write one completion record to its CQ slot (R342, R349), then count it for the pair's message. On a mirror secondary the pair's
records go to the primary as APPLIED instead (R276). -/
def Dev.postOne (d : Dev) (k : BitVec 9) (e : RetEntry) : Dev :=
  let r := d.ring k
  if r.phase = .mirror then
    (d.sendApplied k e.seq e.record.status).modRing k fun r =>
      { r with window := r.window.map fun x => if x.slot = e.slot then { x with posted := true } else x }
  else
  let d := d.writeHost (r.cqbase + BitVec.ofNat 64 (32 * e.slot)) (recordBytes e.record e.par)
  let d := d.modRing k fun r =>
    { r with window := (r.window.map fun x => if x.slot = e.slot then { x with posted := true } else x),
             irqSince := (if r.irqPending = 0 then d.now else r.irqSince), irqPending := r.irqPending + 1 }
  d.coalesce k

/-- Post what can be posted on a pair. -/
def Dev.postRing (d : Dev) (k : BitVec 9) : Dev :=
  d.each (postable (d.awaits k) (d.ring k).window) fun d e => d.postOne k e

/-- APPLIED (R354): below the first accepted descriptor that has neither passed its commit point nor been refused. -/
def Ring.reapply (r : Ring) : Ring :=
  let acc := r.window.filter (·.accept)
  match acc.find? (fun e => e.phase == .accepted) with
  | some e => if acc.any (fun x => x.seq == e.seq - 1) then { r with applied := e.seq - 1 } else r
  | none => match acc.getLast? with
    | some e => { r with applied := e.seq }
    | none => r

/-- The completion of SEQ on a pair has been posted (R356). -/
def Ring.postedSeq (r : Ring) (seq : BitVec 64) : Bool :=
  decide (seq < r.nextseq) && !(r.window.any fun e => e.accept && e.seq == seq && !e.posted)

/-- The devices of a pair have diverged (R277): counted, EV0848, and SPLIT at the next boundary, which never promotes the secondary. -/
def Dev.divergence (d : Dev) : Dev :=
  let d := d.raise 848
  d.putLink { d.link with cnt := bumpAt d.link.cnt 3, splitNext := true, diverged := true }

/-- A descriptor that was applied here and is not confirmed on the secondary completes MIRROR_LOST (R277, R280). -/
def Dev.unconfirmed (d : Dev) (x : DescRef) : Dev :=
  d.modEntry x fun e => if e.record.status = 0 ∨ e.record.status = 3 then { e with record := { e.record with status := 0x60 } } else e

/-- A descriptor whose own status and APPLIED are both known (R277), or which the split has left without APPLIED (R280): equal statuses end the wait;
else the devices have diverged, which the primary tells the secondary (log entry 32), and an applied descriptor completes MIRROR_LOST. -/
def Dev.resolveAwait (d : Dev) : Dev :=
  d.each (d.link.await.filter fun a => a.own.isSome && (a.lost || a.applied.isSome)) fun d a =>
    let d := d.putLink { d.link with await := d.link.await.erase a }
    if a.lost then d.unconfirmed a.desc
    else if a.own = a.applied then d
    else ((d.unconfirmed a.desc).sendMessage d.link.partner .req 0 8 0 1 0).divergence

/-- A descriptor ends here with a status, which is compared with the secondary's APPLIED (R277); what it asked other devices is over (R272). -/
def Dev.ownStatus (d : Dev) (x : DescRef) (status : Nat) : Dev :=
  (d.putLink { d.link with await := d.link.await.map (fun a => if a.desc = x then { a with own := some status } else a),
                           queries := d.link.queries.filter fun q => q.desc != x }).resolveAwait

/-- A FENCE that has started and whose named completion has been posted. -/
def Dev.fenceReady (d : Dev) : Option (BitVec 9 × RetEntry) :=
  d.rings.pairs.findSome? fun (k, r) =>
    (r.window.find? fun e => e.accept && e.phase == .accepted && e.started && descOpcode e.desc == 1
      && (d.ring (BitVec.ofNat 9 (dfld e.desc 0x18 2))).postedSeq (BitVec.ofNat 64 (dfld e.desc 0x20 8))).map
      fun e => (BitVec.ofNat 9 k, e)

/-- Complete the FENCEs whose completion has been posted; each can let another complete. -/
def Dev.settle : Nat → Dev → Dev
  | 0, d => d
  | n + 1, d =>
    match d.fenceReady with
    | none => d
    | some (k, e) =>
      let done_ (x : RetEntry) : RetEntry :=
        { x with phase := .completed, record := { seq := x.seq, opcode := 1, beat := d.time.n } }
      let d := d.modRing k fun r => Ring.reapply { r with window := r.window.map fun x => if x.slot = e.slot then done_ x else x }
      let d := d.ownStatus { ring := k, slot := BitVec.ofNat 12 e.slot } 0
      Dev.settle n (d.postRing k)

/-- How many FENCEs wait. -/
def Dev.fences (d : Dev) : Nat := (d.rings.pairs.map fun (_, r) => (r.window.filter fun e => descOpcode e.desc == 1).length).sum

/-- Complete a descriptor (R349 to R353): its record, the counters and events of its status (R365, R366), and what can be posted. -/
def Dev.finish (d : Dev) (x : DescRef) (status detail : Nat) (info0 : Nat := 0) (info1 : Nat := 0) (beat : Option Beat := none) : Dev :=
  match d.entry? x with
  | none => d
  | some e =>
    if e.phase = .completed then d
    else
      let rec_ : Completion := { seq := e.seq, status, detail, opcode := descOpcode e.desc, info0, info1, beat := beat.getD d.time.n }
      let d := d.modRing x.ring fun r => Ring.reapply
        { r with window := r.window.map fun y => if y.slot = x.slot.toNat then { y with phase := .completed, record := rec_ } else y }
      let d := match status with
        | 0x05 => (d.countRing 2).raise 770
        | 0x50 => (d.countRing 1).raise 769
        | 0x51 => (d.countRing 0).raise 769
        | 0x70 => (d.countRing 3).raise 771
        | _ => d
      let d := d.ownStatus x status
      Dev.settle d.fences (d.postRing x.ring)

/-- Complete a descriptor that the loader refuses (R350). -/
def Dev.refuse (d : Dev) (x : DescRef) (n : Nak) : Dev := d.finish x n.status n.detail (n.vroom + n.index * 65536) (n.ikind + n.bp * 256)

/-- The commit point of a descriptor is passed (R353, R354): its effect and the record are one transaction. -/
def Dev.commitPoint (d : Dev) (x : DescRef) : Dev :=
  d.modRing x.ring fun r => Ring.reapply
    { r with window := r.window.map fun y =>
        if y.slot = x.slot.toNat ∧ y.phase = .accepted then { y with phase := .committed, beat := d.time.n } else y }

/-- Commit and complete OK at once. -/
def Dev.finishOk (d : Dev) (x : DescRef) (info0 : Nat := 0) (info1 : Nat := 0) : Dev := (d.commitPoint x).finish x 0 0 info0 info1

-- R21: the objects that a change targets

/-- The function that a FUNC_ADMIT admits (R130): the ID it names, or that of the staged object. -/
def Dev.admitId (d : Dev) (w : BitVec 512) : Nat :=
  if bitOf (dfld w 0x1A 1) 1 then dfld w 0x1C 2 else leAt (Tbl.get ({} : Staging) d.loader.slots (dfld w 0x18 1)).body 8 2

/-- The fabric blocks that the image in a staging slot carries, as its header's REGIONS (R306). -/
def Dev.slotRegions (d : Dev) (k : Nat) : Nat := leAt (Tbl.get ({} : Staging) d.loader.slots k).head 0x60 8

/-- The objects that an operation changes, as kind and number (R21): functions 1, key slots 2, regions 3, fabric blocks 4, the beat 5, an
egress 6, firmware 7. -/
def Dev.objectsOf (d : Dev) (w : BitVec 512) : List (Nat × Nat) :=
  match descOpcode w with
  | 0x10 => [(1, d.admitId w)]
  | 0x11 | 0x12 | 0x13 => [(1, dfld w 0x18 2)]
  | 0x22 => if dfld w 0x18 2 = 0xFFFF then [(6, dfld w 0x1C 4)] else [(1, dfld w 0x18 2)]
  | 0x31 =>
    if (Tbl.get ({} : Staging) d.loader.slots (dfld w 0x18 1)).kind = 3 then [(7, 0)]
    else ((List.range 64).filter fun b => bitOf (d.slotRegions (dfld w 0x18 1)) b).map fun b => (4, b)
  | 0x41 | 0x42 => [(2, dfld w 0x18 1)]
  | 0x43 => [(3, dfld w 0x18 1)]
  | 0x61 => [(5, 0)]
  | _ => []

/-- Two operations change one object, an earlier and a later one (R21). A migration does not hold PARAM_AT and ROUTE_AT (R337). -/
def Dev.clash (d : Dev) (early late : BitVec 512) : Bool :=
  (d.objectsOf early).any (fun k => decide (k ∈ d.objectsOf late))
    && !(descOpcode early == 0x12 && (descOpcode late == 0x13 || descOpcode late == 0x22))

/-- Operations that prepare side by side and take effect in acceptance order at their boundaries: the commit point of the earlier stands
before the later one's start at the same boundary. -/
def sideBySide (op : Nat) : Bool := op == 0x11 || op == 0x13 || op == 0x22 || op == 0x61

/-- Every open operation with its reference. -/
def Dev.openOps (d : Dev) : List (DescRef × RetEntry) :=
  d.rings.pairs.flatMap fun (k, r) => (r.window.filter fun e => e.accept && e.phase == .accepted).map fun e =>
    ({ ring := BitVec.ofNat 9 k, slot := BitVec.ofNat 12 e.slot }, e)

/-- An application to blocks that another application, or a release, is still changing (R299, R320). -/
def Dev.blocksBusy (d : Dev) (w : BitVec 512) : Bool :=
  let r := d.slotRegions (dfld w 0x18 1)
  descOpcode w == 0x31 && ((d.fabric.applying.flatMap (·.blocks)) ++ d.fabric.releasing).any fun b => bitOf r b

/-- A pending period change holds admissions and slips, which share the beat generator (R240). -/
def Dev.periodHeld (d : Dev) (w : BitVec 512) : Bool := d.time.pendPeriod.isSome && (descOpcode w == 0x10 || descOpcode w == 0x61)

/-- An earlier change of the same object has not reached its commit point, or still changes what this one names (R21, R240). -/
def Dev.heldBy21 (d : Dev) (e : RetEntry) : Bool :=
  d.blocksBusy e.desc || d.periodHeld e.desc
    || d.openOps.any fun (_, o) => decide (o.order < e.order) && d.clash o.desc e.desc
        && !(sideBySide (descOpcode o.desc) && sideBySide (descOpcode e.desc))

/-- At a boundary an earlier change of the same object still waits (R21). -/
def Dev.waitsFor (d : Dev) (e : RetEntry) : Bool :=
  d.openOps.any fun (_, o) => decide (o.order < e.order) && d.clash o.desc e.desc

/-- Operations that act at a boundary (R346). -/
def boundaryOp (op : Nat) : Bool := op ∈ [0x10, 0x11, 0x12, 0x13, 0x22, 0x31, 0x50, 0x61, 0x70]

/-- A SWEEP that finds no free engine, or a sweep on its region, is held (R179). -/
def Dev.sweepHeld (d : Dev) (w : BitVec 512) : Bool :=
  descOpcode w == 0x43 && (d.cellar.freeEngine.isNone || d.cellar.sweeping (dfld w 0x18 1))

/-- An entry is open, and its ring and its objects let it start (R356): every earlier descriptor of its ring has started or is held, with
FENCE has completed and been posted, no earlier FENCE opcode of its ring is open, no earlier change of the same object is under way, and
on a mirrored pair its beat has come (R276). -/
def Dev.canStart (d : Dev) (x : DescRef) (e : RetEntry) : Bool :=
  let earlier := (d.ring x.ring).window.takeWhile (fun y => y.slot != e.slot)
  let mineOk := e.accept && e.phase == .accepted && !e.started
  let before := earlier.all fun y => y.phase != .accepted || ((y.started || d.heldBy21 y || d.sweepHeld y.desc) && descOpcode y.desc != 1)
  let fence := !descFence e.desc || earlier.all (·.posted)
  let due := boundaryOp (descOpcode e.desc) || (match e.apply with | some b => decide (b ≤ d.time.n) | none => true)
  mineOk && before && fence && due && !d.heldBy21 e

/-- Operations that the loader evaluates one at a time (R130). -/
def loaderOp (op : Nat) : Bool := op == 0x10 || op == 0x11 || op == 0x12

/-- It is an operation's turn at the loader: no earlier accepted one that could start waits (R130). One that is held, under R21, by a FENCE or in
its ring's order (R356), does not keep later ones of other objects waiting: the spec does not say which of the orders comes first (DESIGN
CHOICE, log entry 133). -/
def Dev.loaderTurn (d : Dev) (e : RetEntry) : Bool :=
  !loaderOp (descOpcode e.desc) || !(d.openOps.any fun (y, o) => loaderOp (descOpcode o.desc) && decide (o.order < e.order) && d.canStart y o)

/-- Execution of a descriptor with an opcode can start (R130, R356). -/
def Dev.startable (d : Dev) (x : DescRef) (op : Nat) : Option RetEntry :=
  (d.entry? x).filter fun e => descOpcode e.desc == op && d.canStart x e && d.loaderTurn e

/-- The operation has started. -/
def Dev.start (d : Dev) (x : DescRef) : Dev := d.modEntry x fun e => { e with started := true }

/-- The operation is ready (R357). -/
def Dev.setReady (d : Dev) (x : DescRef) : Dev := d.modEntry x fun e => { e with ready := some d.now }

/-- Run an operation that can start, with its descriptor and the argument bytes read for it. One that names host memory starts only
after that memory has been read (R352). -/
def Dev.runOp (d : Dev) (x : DescRef) (op : Nat) (needArgs : Bool) (f : Dev → RetEntry → Dev) : Dev :=
  match d.startable x op with
  | none => d
  | some e => if needArgs && e.args.isNone then d else f (d.start x) e

end Sys2Proof.Machine
end

