-- ==== Sys2Proof/Machine/Schedule.lean ====
section
/-! DEFINITION. Reading a schedule object (04_schedule_contract.md R110 to R118): header, section directory, sections, and the
structure checks 0x15 OBJ_FORMAT and 0x16 OBJ_SECTIONS. -/

namespace Sys2Proof.Machine
open Sys2Proof

/-- A section directory entry (R113). -/
structure Sect where
  type : Nat
  rsv : Nat
  vroom : Nat
  count : Nat
  offset : Nat
  length : Nat
  deriving DecidableEq, Repr

/-- A byte string cut into pieces of `n` bytes, at most `k` of them. -/
def chunks (n : Nat) : Nat → Bytes → List Bytes
  | 0, _ => []
  | k + 1, bs => if bs.isEmpty then [] else bs.take n :: chunks n k (bs.drop n)

/-- The little-endian numbers of `n` bytes that a byte string holds. -/
def nums (n : Nat) (bs : Bytes) : List Nat := (chunks n (bs.length / n) bs).map leNat

/-- A directory entry (R113). -/
def parseSect (bs : Bytes) : Sect :=
  { type := leAt bs 0 1, rsv := leAt bs 1 1, vroom := leAt bs 2 2, count := leAt bs 4 4, offset := leAt bs 8 4, length := leAt bs 12 4 }

/-- The section directory (R113). -/
def parseDir (bs : Bytes) : List Sect := (chunks 16 (leAt bs 0x18 2) (bs.drop 0x100)).map parseSect

/-- The level table (R112): counts and class codes of the first NLEVEL entries. -/
def parseLevels (bs : Bytes) : List (Nat × Nat) :=
  ((nums 4 (slice bs 0x20 128)).take (leAt bs 0x0D 1)).map fun w => (fld w 0 16, fld w 16 2)

/-- All bytes of a range are zero. -/
def zeroRange (bs : Bytes) (off n : Nat) : Bool := (slice bs off n).all (· == 0)

/-- Detail 0x15 OBJ_FORMAT (R118): the header's fields are in range and its reserved bytes zero. -/
def objFormatOk (bs : Bytes) : Bool :=
  let nlev := leAt bs 0x0D 1
  let lev := nums 4 (slice bs 0x20 128)
  decide (256 ≤ bs.length) && slice bs 0 4 == [0x4B, 0x5A, 0x53, 0x4F] && leAt bs 4 2 == 0x0100 && leAt bs 6 2 == 256
    && decide (leAt bs 8 2 ≤ 0xFFFE) && decide (1 ≤ leAt bs 0x0A 2 ∧ leAt bs 0x0A 2 ≤ 256)
    && decide (1 ≤ leAt bs 0x0C 1 ∧ leAt bs 0x0C 1 ≤ 64) && decide (1 ≤ nlev ∧ nlev ≤ 32)
    && decide (1 ≤ leAt bs 0x0E 2 ∧ leAt bs 0x0E 2 ≤ 512) && decide (leAt bs 0x16 1 < 4) && decide (leAt bs 0x1A 2 ≤ 256)
    && zeroRange bs 0x17 1 && zeroRange bs 0x1C 4 && zeroRange bs 0xCC 52
    && (lev.take nlev).all (fun w => w >>> 18 == 0) && (lev.drop nlev).all (· == 0)

/-- The COUNT and LENGTH that R114 asks of a section, where the two alone decide it. -/
def sectShapeOk (l nwin ndrain : Nat) (s : Sect) : Bool :=
  match s.type with
  | 0x01 => s.count == l && s.length == 1536 * l
  | 0x02 => s.count == 256 && s.length == 2048
  | 0x03 => decide (s.count ≤ 1024) && s.length == 8 * s.count
  | 0x04 => s.count == 1 && s.length == 2448
  | 0x05 => true
  | 0x06 => s.count == 256 && s.length == 262144
  | 0x07 => s.length == 16 * s.count
  | 0x08 => s.length == 32 * s.count
  | 0x09 => decide (1 ≤ s.count ∧ s.count ≤ 32) && s.length == 4 * s.count
  | 0x0A => s.count == nwin && s.length == 4 * nwin
  | 0x0B => s.count == ndrain && s.length == ndrain
  | _ => false

/-- Whether a section type is function-wide (R114). -/
def sectWide (t : Nat) : Bool := t == 0x08 || t == 0x0B

/-- Read BANKIMG records (R114) from a section's bytes; `none` where a record breaks R114 or the records do not fill the section. -/
def parseBankImg : Nat → Bytes → Option (List BankImg)
  | 0, [] => some []
  | 0, _ => none
  | k + 1, bs =>
    let n := leAt bs 10 2
    let bank := leAt bs 0 1
    let first := leAt bs 8 2
    if decide (16 ≤ bs.length) && decide (bank < 32) && decide (1 ≤ n ∧ n ≤ 2048) && decide (first + n ≤ 2048)
        && zeroRange bs 1 7 && zeroRange bs 12 4 && decide (16 + 8 * n ≤ bs.length) then
      (parseBankImg k (bs.drop (16 + 8 * n))).map
        ({ bank, first, words := (nums 8 (slice bs 16 (8 * n))).map (BitVec.ofNat 64) } :: ·)
    else none

/-- A stream declaration (R116, R183). -/
def parseStream (vroom : Nat) (w : Nat) : StreamDecl :=
  { vroom, write := bitOf w 127, stream := fld w 113 8, sigma := fld w 96 17, slot := fld w 86 10, words := fld w 72 14,
    fpass := fld w 66 6, region := fld w 56 8, mode := fld w 54 2, line := fld w 27 27, step := fld w 15 12,
    rlog := fld w 10 5, raw := BitVec.ofNat 128 w }

/-- A binding record (R213, R269). -/
def parseBind (bs : Bytes) : BindRec :=
  let t := leAt bs 0 1
  let base : BindRec := { type := t, num := leAt bs 1 1, vroom := leAt bs 2 2 }
  if t = 4 then
    { base with dirIn := leAt bs 4 1 == 1, words := leAt bs 6 2, slot0 := fld (leAt bs 8 2) 0 10, lastStep := leAt bs 12 4,
                rsvOk := decide (leAt bs 4 1 ≤ 1) && zeroRange bs 5 1 && zeroRange bs 10 2 && zeroRange bs 16 16
                  && leAt bs 8 2 >>> 10 == 0 }
  else if t = 3 then
    { base with words := leAt bs 8 2, slot0 := fld (leAt bs 10 2) 0 10,
                rsvOk := zeroRange bs 4 4 && zeroRange bs 12 20 && leAt bs 10 2 >>> 10 == 0 }
  else
    let tw := leAt bs 12 2
    let base := { base with fmt := leAt bs 4 1, samp := leAt bs 5 1, b := leAt bs 6 1, div := leAt bs 7 1, gmax := leAt bs 8 2,
                            tags := bitOf tw 15, tslot := fld tw 0 10 }
    if t = 1 then
      { base with slot0 := fld (leAt bs 10 2) 0 10, target := leAt bs 14 1, fsidx := leAt bs 15 1,
                  rsvOk := leAt bs 10 2 >>> 10 == 0 && fld tw 10 5 == 0 && zeroRange bs 16 16 }
    else { base with size := leAt bs 10 2, rsvOk := fld tw 10 5 == 0 && zeroRange bs 14 18 && t == 2 }

/-- The bytes of a room's section of a type, if it is there. -/
def sectOf (bs : Bytes) (dir : List Sect) (t v : Nat) : Option (Sect × Bytes) :=
  (dir.find? (fun s => s.type == t && s.vroom == v)).map (fun s => (s, slice bs s.offset s.length))

/-- The sections of one virtual room (R114 to R117). -/
def parseRoom (bs : Bytes) (dir : List Sect) (l v : Nat) : RoomImg :=
  let get (t : Nat) : Bytes := ((sectOf bs dir t v).map (·.2)).getD []
  let hdr := get 0x04
  { insns := (chunks (12 * l) 128 (get 0x01)).map (fun c => (nums 12 c).map (BitVec.ofNat 96))
    consts := (nums 8 (get 0x02)).map (BitVec.ofNat 64)
    sends := (nums 8 (get 0x03)).map (BitVec.ofNat 64)
    primary := leAt hdr 0 2
    hdrRsv := !zeroRange hdr 2 14
    setups := (nums 8 (slice hdr 16 256)).map (BitVec.ofNat 64)
    slices := (nums 16 (slice hdr 272 128)).map (BitVec.ofNat 128)
    slots := (nums 2 (slice hdr 400 2048)).map (BitVec.ofNat 16)
    bankImg := (parseBankImg (((sectOf bs dir 0x05 v).map (·.1.count)).getD 0) (get 0x05)).getD []
    state := (nums 8 (get 0x06)).map (BitVec.ofNat 64)
    streams := (nums 16 (get 0x07)).map (parseStream v)
    probes := (nums 4 (get 0x09)).map (BitVec.ofNat 32)
    profile := nums 4 (get 0x0A) }

/-- The whole object (R111). -/
def parseObj (bs : Bytes) : Obj :=
  let dir := parseDir bs
  let l := leAt bs 0x0E 2
  { funcId := leAt bs 8 2, v := leAt bs 0x0A 2, p := leAt bs 0x0C 1, l := l, levels := parseLevels bs, wDecl := leAt bs 0x10 4,
    nwin := leAt bs 0x14 2, dual := bitOf (leAt bs 0x16 1) 0, initState := bitOf (leAt bs 0x16 1) 1, ndrain := leAt bs 0x1A 2,
    rdLines := leAt bs 0xA0 4, wrLines := leAt bs 0xA4 4, mwrMax := leAt bs 0xA8 4,
    rooms := (List.range (leAt bs 0x0A 2)).map (parseRoom bs dir l)
    bindings := (chunks 32 65536 (((sectOf bs dir 0x08 0xFFFF).map (·.2)).getD [])).map parseBind
    subst := (((sectOf bs dir 0x0B 0xFFFF).map (·.2)).getD []).map (·.toNat) }

/-- Insert a section by its offset. -/
def insertSect (s : Sect) : List Sect → List Sect
  | [] => [s]
  | x :: t => if s.offset < x.offset ∨ (s.offset = x.offset ∧ s.length ≤ x.length) then s :: x :: t else x :: insertSect s t

/-- Sections in order of offset do not overlap, start on 16-byte boundaries, and the bytes before, between and after them are zero
(R110). -/
def sectLayoutOk (bs : Bytes) : Nat → List Sect → Bool
  | pos, [] => (bs.drop pos).all (· == 0)
  | pos, s :: t =>
    decide (pos ≤ s.offset ∧ s.offset % 16 = 0 ∧ s.offset + s.length ≤ bs.length) && zeroRange bs pos (s.offset - pos)
      && sectLayoutOk bs (s.offset + s.length) t

/-- No value stands twice. -/
def noDup {α : Type} [DecidableEq α] : List α → Bool
  | [] => true
  | x :: t => !(decide (x ∈ t)) && noDup t

/-- The first value of a list that stands in it again. -/
def firstDup {α : Type} [DecidableEq α] (vr : α → Nat) : List α → Option Nat
  | [] => none
  | x :: t => if x ∈ t then some (vr x) else firstDup vr t

/-- A directory entry that breaks the rules by itself (R110, R113, R114). -/
def sectBad (bs : Bytes) (s : Sect) : Bool :=
  let v := leAt bs 0x0A 2
  !(s.rsv == 0 && sectShapeOk (leAt bs 0x0E 2) (leAt bs 0x14 2) (leAt bs 0x1A 2) s
      && (if sectWide s.type then s.vroom == 0xFFFF else decide (s.vroom < v)))
    || !decide (0x100 + 16 * leAt bs 0x18 2 ≤ s.offset ∧ s.offset % 16 = 0 ∧ s.offset + s.length ≤ bs.length)
    || (s.type == 0x06 && !bitOf (leAt bs 0x16 1) 1) || (s.type == 0x0B && leAt bs 0x1A 2 == 0)

/-- Detail 0x16 OBJ_SECTIONS (R118): the virtual room that the fault lies in, 0xFFFF where it lies in none (R350, log entry 114). -/
def sectFault (bs : Bytes) : Option Nat :=
  let dir := parseDir bs
  let n := leAt bs 0x18 2
  let v := leAt bs 0x0A 2
  let o := parseObj bs
  let below (r : Nat) : Nat := if r < v then r else 0xFFFF
  let has (t r : Nat) : Bool := dir.any (fun s => s.type == t && s.vroom == r)
  let need : List Nat := [0x01, 0x02, 0x03, 0x04, 0x0A] ++ (if bitOf (leAt bs 0x16 1) 1 then [0x06] else [])
  (if dir.length == n && decide (0x100 + 16 * n ≤ bs.length) then none else some 0xFFFF)
  <|> ((dir.find? (sectBad bs)).map fun s => below s.vroom)
  <|> (if sectLayoutOk bs (0x100 + 16 * n) (dir.foldr insertSect []) then none else some 0xFFFF)
  <|> (firstDup (fun (x : Nat × Nat) => below x.2) (dir.map (fun s => (s.type, s.vroom))))
  <|> ((List.range v).find? fun r => need.any fun t => !has t r)
  <|> (if leAt bs 0x1A 2 > 0 && !has 0x0B 0xFFFF then some 0xFFFF else none)
  <|> ((List.range v).find? fun r => match sectOf bs dir 0x05 r with
        | some (s, b) => (parseBankImg s.count b).isNone
        | none => false)
  <|> (o.rooms.zipIdx.findSome? fun (rm, r) => if noDup ((rm.streams.filter (fun s => !s.write)).map (·.stream)) then none else some r)
  <|> (if noDup (((o.rooms.flatMap (·.streams)).filter (·.write)).map (·.stream)) then none
       else ((o.rooms.flatMap (·.streams)).filter (·.write)).findSome? fun s =>
         if 1 < (((o.rooms.flatMap (·.streams)).filter (·.write)).filter (·.stream == s.stream)).length then some s.vroom else none)

/-- The structure checks (R118, R127): 0x15 first, then 0x16. A reserved SUBST code is OBJ_FORMAT (R218). -/
def checkStructure (bs : Bytes) : Option Nak :=
  if !objFormatOk bs then some { status := 0x13, detail := 0x15 }
  else if (parseObj bs).subst.any (· > 4) then some { status := 0x13, detail := 0x15 }
  else (sectFault bs).map fun v => { status := 0x13, detail := 0x16, vroom := v }

end Sys2Proof.Machine
end

