-- ==== Sys2Proof/Machine/RoomCheck.lean ====
section
/-! DEFINITION. What the loader refuses in a room image (02_rooms.md R63, in the order of its table), detail 0x14 RUNAHEAD_MWR (R93),
and the declarations, verdict tail and budget that follow (R79, R80, R118). A refusal names the place it was found at (R350). -/

namespace Sys2Proof.Machine
open Sys2Proof

/-- Where a check failed: the index, its kind (R350: 1 level, 2 read stream, 3 window of tokens, 4 instruction, 5 send entry, 6 window
slot, 7 binding record, 8 bank, 9 slice) and the BP. -/
structure At where
  index : Nat := 0xFFFF
  ikind : Nat := 0
  bp : Nat := 0x7F
  deriving DecidableEq, Repr

/-- No place. -/
def noAt : At := { index := 0xFFFF }

/-- One instruction of a room image with its place. -/
structure Placed where
  bp : Nat
  i : Nat
  lv : Nat
  x : Insn
  deriving DecidableEq, Repr

/-- The level of instruction index i. -/
def levelOf : List (Nat × Nat) → Nat → Nat → Nat
  | [], _, j => j
  | (n, _) :: t, i, j => if i < n ∨ t.isEmpty then j else levelOf t (i - n) (j + 1)

/-- The step of instruction i counted from the pass's start (R71). -/
def stepOf (levels : List (Nat × Nat)) (i : Nat) : Nat :=
  let j := levelOf levels i 0
  levelStep levels j + (i - levelStart levels j)

/-- All instructions of a room image. -/
def placedInsns (levels : List (Nat × Nat)) (rm : RoomImg) : List Placed :=
  rm.insns.zipIdx.flatMap fun (is, b) => is.zipIdx.map fun (w, i) => { bp := b, i, lv := levelOf levels i 0, x := parseInsn w }

/-- The first of a list that fails, as a place. -/
def firstBad {α : Type} (l : List α) (bad : α → Bool) (loc : α → At) : Option At := (l.find? bad).map loc

def atInsn (p : Placed) : At := { index := p.i, ikind := 4, bp := p.bp }

/-- The operand fields a kind uses (R36). -/
def usedOps (x : Insn) : List (BitVec 12) :=
  match x.kind.toNat with
  | 0 | 1 | 4 => [x.opa, x.opb, x.opc, x.opd]
  | 2 => if x.larg.getLsbD 5 then [x.opa] else []
  | 3 => if x.larg.getLsbD 5 then [x.opa, x.opb] else [x.opb]
  | _ => []

def opSpace (op : BitVec 12) : Nat := (op.extractLsb' 10 2).toNat
def opArg (op : BitVec 12) : Nat := (op.extractLsb' 0 10).toNat

/-- KIND_FIELDS: a field that R36 marks 0 for the kind, other than PRED, is nonzero. -/
def kindFieldsBad (x : Insn) : Bool :=
  match x.kind.toNat with
  | 0 | 1 => false
  | 2 => x.tt != 0 || x.opb != 0 || x.opc != 0 || x.opd != 0 || x.lop != 0 || (!x.larg.getLsbD 5 && x.opa != 0)
  | 3 => x.tt != 0 || x.opc != 0 || x.opd != 0 || x.dst != 0 || x.lop != 0 || (!x.larg.getLsbD 5 && x.opa != 0)
  | 4 => x.dst != 0 || x.lop != 0
  | 5 => x.tt != 0 || x.opa != 0 || x.opb != 0 || x.opc != 0 || x.opd != 0 || x.lop != 0 || x.larg.extractLsb' 3 3 != 0
  | _ => x.tt != 0 || x.opa != 0 || x.opb != 0 || x.opc != 0 || x.opd != 0 || x.dst != 0 || x.lop != 0 || x.larg != 0

/-- Whether a SPECIAL code is in R39's table. -/
def specialOk (c : Nat) : Bool :=
  decide (c ≤ 1) || decide (0x10 ≤ c ∧ c ≤ 0x15) || decide (0x20 ≤ c ∧ c ≤ 0x22) || decide (0x24 ≤ c ∧ c ≤ 0x29)
    || decide (0x30 ≤ c ∧ c ≤ 0x3F) || decide (0x100 ≤ c ∧ c ≤ 0x1FF)

/-- LOP_RSV (R40): LOP is 10 to 15, or LARG is nonzero where the LOP takes none (NONE, ANY, ALL and PARITY). -/
def lopBad (x : Insn) : Bool :=
  decide (x.kind.toNat ≤ 1)
    && (decide (x.lop.toNat ≥ 10) || (decide (x.lop.toNat = 0 ∨ (6 ≤ x.lop.toNat ∧ x.lop.toNat ≤ 8)) && x.larg != 0))

/-- A send entry's fields (R43). -/
structure SendEntry where
  kind : Nat
  cls : Nat
  tgt : Nat
  index : Nat
  valid : Bool
  deriving DecidableEq, Repr

def sendEntry (e : BitVec 64) : SendEntry :=
  let n := e.toNat
  { kind := fld n 61 3, cls := fld n 59 2, tgt := fld n 48 8, index := fld n 16 16, valid := bitOf n 0 }

/-- Reserved bits of a send entry, its GEN, and the bits its kind leaves zero (R43). -/
def sendRsvBad (e : BitVec 64) : Bool :=
  let n := e.toNat
  let s := sendEntry e
  fld n 56 3 != 0 || fld n 32 16 != 0 || fld n 1 7 != 0 || fld n 8 8 != 0
    || (decide (s.kind ≤ 2) && fld n 26 6 != 0) || (s.kind == 0 && s.tgt != 0)

/-- The class of an entry is fixed by its kind, whether or not the entry is in use (R44); a reserved kind has none. -/
def classOk (s : SendEntry) : Bool :=
  match s.kind with
  | 0 => s.cls == 0
  | 1 => s.cls == 1 || s.cls == 2
  | 2 => s.cls == 3
  | 3 | 4 => s.cls == 2
  | _ => false

/-- Reserved fields of a stream declaration (R116, R183). -/
def streamRsvBad (d : StreamDecl) : Bool :=
  let n := d.raw.toNat
  fld n 121 6 != 0 || fld n 64 2 != 0 || fld n 0 10 != 0 || (d.write && (d.sigma != 0 || d.slot != 0 || d.fpass != 0))
    || d.mode == 3 || (d.mode == 0 && (d.step != 0 || d.rlog != 0)) || (d.mode == 1 && decide (d.rlog > 26))

/-- A send entry's target exists in the object (SEND_ENTRY of R63). -/
def targetOk (o : Obj) (v : Nat) (s : SendEntry) : Bool :=
  match s.kind with
  | 1 => decide (s.tgt < o.v)
  | 2 => o.bindings.any (fun b => b.type == 4 && !b.dirIn && b.vroom == v && b.num == s.tgt)
  | 3 => (o.rooms.flatMap (·.streams)).any (fun d => d.write && d.stream == s.tgt && decide (s.index < d.words))
  | 4 => o.bindings.any (fun b => b.type == 2 && b.num == s.tgt && decide (s.index < b.size))
  | _ => true

/-- A SEND's entry; entries from COUNT up are invalid (R114). -/
def entryOf (rm : RoomImg) (p : Placed) : SendEntry := sendEntry (rm.sends.getD p.x.dst.toNat 0)

-- slices over one pass (R57 to R59)

/-- A result of a slice in the checking of a pass. -/
structure ChkResult where
  t : Nat
  ow : Nat
  reads : List Nat := []
  deriving DecidableEq, Repr

/-- A slice while the loader follows it through a pass. -/
structure ChkSlice where
  nx : Nat := 0
  ny : Nat := 0
  na : Nat := 0
  ops : Nat := 0
  results : List ChkResult := []
  orderBad : Bool := false
  /-- the SLI that breaks the order, where one does -/
  orderAt : Option At := none
  timingBad : Bool := false
  /-- the SLR that breaks the timing, where one does -/
  timingAt : Option At := none
  deriving DecidableEq, Repr

/-- The loader's view of one SLI (R57, R59). -/
def ChkSlice.feed (s : ChkSlice) (ds : SliceDesc) (role step : Nat) : ChkSlice :=
  if !ds.en ∨ role > 2 then { s with orderBad := true }
  else
    let s := match role with
      | 0 => if s.nx < ds.wx then { s with nx := s.nx + 1 } else { s with orderBad := true }
      | 1 => if !ds.ysrc ∧ s.ny < ds.wy then { s with ny := s.ny + 1 } else { s with orderBad := true }
      | _ => if s.na < ds.wa then { s with na := s.na + 1 } else { s with orderBad := true }
    if s.nx = ds.wx ∧ (ds.ysrc ∨ s.ny = ds.wy) ∧ s.na = ds.wa then
      let s := { s with nx := 0, ny := 0, na := 0, ops := s.ops + 1 }
      if ds.accum ∧ s.ops < ds.nops + 1 then s
      else
        let late := ds.dlv && s.results.any (fun r => decide (step + 12 ≤ r.t + 12 + (ds.ow - 1)))
        { s with ops := 0, results := s.results ++ [{ t := step, ow := ds.ow }], timingBad := s.timingBad || late }
    else s

/-- Note the first SLI that breaks the order. -/
def ChkSlice.noteOrder (s before : ChkSlice) (w : At) : ChkSlice := if s.orderBad ∧ !before.orderBad then { s with orderAt := some w } else s

/-- The loader's view of one SLR (R59). -/
def ChkSlice.read (s : ChkSlice) (ds : SliceDesc) (step : Nat) : ChkSlice :=
  if !ds.en ∨ ds.dlv then { s with timingBad := true }
  else
    let rec go : List ChkResult → List ChkResult × Bool
      | [] => ([], true)
      | r :: t =>
        if r.reads.length < r.ow then
          ({ r with reads := r.reads ++ [step] } :: t, decide (step < r.t + 12 + r.reads.length))
        else
          let (t', bad) := go t
          (r :: t', bad)
    let (rs, bad) := go s.results
    { s with results := rs, timingBad := s.timingBad || bad }

/-- Note the first SLR that breaks the timing. -/
def ChkSlice.noteTiming (s before : ChkSlice) (w : At) : ChkSlice := if s.timingBad ∧ !before.timingBad then { s with timingAt := some w } else s

/-- A DLV = 0 result would become ready while four results wait (R59). One whose last plane is read in that very step still waits: R59 does not say
(DESIGN CHOICE, log entry 163). -/
def queueOverfull (rs : List ChkResult) : Bool :=
  rs.zipIdx.any fun (r, m) =>
    decide (4 ≤ ((rs.take m).filter (fun q => match q.reads.getLast? with
      | some w => decide (q.reads.length < q.ow) || decide (r.t + 12 ≤ w)
      | none => true)).length)

/-- Follow one slice through a pass. Two SLRs of one slice in one step read its planes in the order of their BPs here, and in the order of
their commands in a run: no rule refuses them or orders them (DESIGN CHOICE, log entry 128). -/
def followSlice (levels : List (Nat × Nat)) (is : List Placed) (ds : SliceDesc) (n l : Nat) : ChkSlice :=
  let uses := is.filter (fun p => (p.x.kind == 4 || p.x.kind == 5) && (p.x.larg.extractLsb' 0 3).toNat == n)
  let s := (List.range l).foldl (fun s i =>
      let now := uses.filter (fun p => p.i == i)
      let s := (now.filter (fun p => p.x.kind == 4)).foldl
        (fun s p => (s.feed ds (p.x.larg.extractLsb' 3 3).toNat (stepOf levels i)).noteOrder s (atInsn p)) s
      (now.filter (fun p => p.x.kind == 5)).foldl (fun s p => (s.read ds (stepOf levels i)).noteTiming s (atInsn p)) s) ({} : ChkSlice)
  let lastStep := stepOf levels (l - 1)
  { s with
    orderBad := s.orderBad || s.nx != 0 || s.ny != 0 || s.na != 0 || s.ops != 0
    timingBad := s.timingBad || (if ds.dlv then s.results.any (fun r => decide (lastStep < r.t + 12 + (r.ow - 1)))
                                 else s.results.any (fun r => decide (r.reads.length < r.ow)) || queueOverfull s.results) }

-- window writers (R46, R78, R93)

/-- A writer of a window slot: for the whole beat (feed, hub port, REMOTE word, tag word), in one level of every pass, or in one level of
one pass; `id` tells writers apart. -/
inductive WLevel where
  | beat
  | every (j : Nat)
  | pass (p j : Nat)
  deriving DecidableEq, Repr

structure Writer where
  slot : Nat
  lv : WLevel
  id : Nat
  deriving DecidableEq, Repr

/-- Two writers can write in one level (R46), or one of them writes for the beat (R93). -/
def sameLevel : WLevel → WLevel → Bool
  | .beat, _ => true
  | _, .beat => true
  | .every j, .every k => j == k
  | .every j, .pass _ k => j == k
  | .pass _ j, .every k => j == k
  | .pass p j, .pass q k => p == q && j == k

/-- A run of n slots from a first one. -/
def slotRun (first n : Nat) : List Nat := (List.range n).map (first + ·)

/-- Words of a binding's slots: groups times components times bits (R211); ANC has one word a group, as have COMPRESSED payloads, which
nothing decodes (R201; DESIGN CHOICE, log entry 147). -/
def ncomp (fmt samp : Nat) : Nat := if fmt = 1 then (if samp = 1 ∨ samp = 2 then 3 else 2) else 1
def groupWords (fmt samp b : Nat) : Nat := if fmt = 4 ∨ fmt = 5 then 1 else ncomp fmt samp * b

/-- The writers of virtual room v's slots by SENDs of the object: one per SEND instruction (R46). -/
def sendWriters (o : Obj) (v : Nat) : List Writer :=
  (o.rooms.zipIdx.flatMap fun (rm, r) =>
    ((placedInsns o.levels rm).filter (fun p => p.x.kind == 1)).filterMap fun p =>
      let e := entryOf rm p
      if e.valid && ((e.kind == 0 && r == v) || (e.kind == 1 && e.tgt == v)) then
        some { slot := e.index % 1024, lv := .every p.lv, id := 1000000 + (r * 128 + p.bp) * 512 + p.i }
      else none)

/-- The writers for the whole beat: feeds and their tags, drain tags, hub ports, REMOTE IN slots (R212, R213, R269). -/
def beatWriters (o : Obj) (v : Nat) : List Writer :=
  o.bindings.zipIdx.flatMap fun (b, k) =>
    if b.vroom ≠ v then []
    else
      let words := match b.type with
        | 1 => if b.target = 0 then slotRun b.slot0 (b.gmax * groupWords b.fmt b.samp b.b) else []
        | 3 => slotRun b.slot0 b.words
        | 4 => if b.dirIn then slotRun b.slot0 b.words else []
        | _ => []
      let tags := if (b.type = 1 ∨ b.type = 2) ∧ b.tags then slotRun b.tslot b.gmax else []
      words.map (fun s => { slot := s, lv := .beat, id := 2 * k }) ++ tags.map (fun s => { slot := s, lv := .beat, id := 2 * k + 1 })

/-- The levels of every pass whose steps meet an interval of steps (R78). -/
def levelsMeeting (o : Obj) (a b : Nat) : List WLevel :=
  (List.range o.p).flatMap fun p => o.levels.zipIdx.filterMap fun ((n, c), j) =>
    let start := p * passSteps o.levels + levelStep o.levels j
    if start ≤ b ∧ a < start + n + bound c then some (.pass p j) else none

/-- The writers of a room's slots by its read streams (R78, R116). -/
def streamWriters (o : Obj) (rm : RoomImg) : List Writer :=
  ((rm.streams.filter (fun d => !d.write)).zipIdx.flatMap fun (d, k) =>
    (levelsMeeting o d.sigma (d.sigma + 400)).flatMap fun lv =>
      (slotRun d.slot d.words).map fun s => { slot := s, lv := lv, id := 600000 + k })

/-- The deliveries of a room's DLV = 1 slices: slot, level, and the step of the pass from which the plane can be read (R59). -/
def deliveries (o : Obj) (rm : RoomImg) : List (Nat × Nat × Nat × Nat) :=
  let is := placedInsns o.levels rm
  rm.slices.zipIdx.flatMap fun (w, n) =>
    let ds := parseSlice w
    if !ds.en ∨ !ds.dlv then []
    else (followSlice o.levels is ds n o.l).results.flatMap fun r =>
      (List.range ds.ow).map fun i =>
        let step := r.t + 12 + i
        let j := (o.levels.zipIdx.filter (fun (_, j) => decide (levelStep o.levels j ≤ step))).length - 1
        (ds.oslot + i, j, step + 1, n)

/-- All writers of a room's slots. A slice is one writer of a slot in a level, however many of its deliveries land there: the spec does not
say whether two deliveries of one slice are two writers (DESIGN CHOICE, log entry 129). Where they land, each is a word of R49. -/
def writersOf (o : Obj) (rm : RoomImg) (v : Nat) : List Writer :=
  beatWriters o v ++ streamWriters o rm ++ (deliveries o rm).map (fun (s, j, _, n) => { slot := s, lv := .every j, id := 700000 + n })
    ++ sendWriters o v

/-- The writers of each slot. -/
def bySlot (ws : List Writer) : Tbl (List Writer) :=
  ws.foldl (fun t w => Tbl.insert t w.slot (w :: Tbl.get [] t w.slot)) []

/-- Two different writers of a list meet. -/
def writersClash : List Writer → Bool
  | [] => false
  | w :: t => t.any (fun x => x.id != w.id && sameLevel w.lv x.lv) || writersClash t

/-- The window reads of a room image: instruction and slot. -/
def windowReads (is : List Placed) : List (Placed × Nat) :=
  is.flatMap fun p => (usedOps p.x).filterMap fun op => if opSpace op = 2 then some (p, opArg op) else none

/-- WINDOW_HAZARD (R45, R47, R59, R78) for one read. -/
def windowHazard (o : Obj) (rm : RoomImg) (sends : List Writer) (dels : List (Nat × Nat × Nat × Nat)) (r : Placed × Nat) : Bool :=
  let (p, s) := r
  sends.any (fun w => w.slot == s && w.lv == .every p.lv)
    || dels.any (fun (ds, j, ready, _) => ds == s && j == p.lv && decide (stepOf o.levels p.i < ready))
    || rm.streams.any (fun d => !d.write && decide (d.slot ≤ s ∧ s < d.slot + d.words) && decide (d.fpass < o.p)
        && decide (d.fpass * passSteps o.levels + levelStep o.levels p.lv < d.sigma + 400))

/-- A bank's pointer set-up breaks R51. -/
def setupBad (w : BitVec 64) : Bool :=
  let len := setupLen w
  !(decide (1 ≤ len ∧ len ≤ 2048) && decide (setupBase w + len ≤ 2048) && decide (setupStride w < len)
    && decide (setupRstart w < len) && decide (setupWstart w < len))

/-- A slice descriptor is out of range, or has bits set with EN = 0 (R56). -/
def sliceDescBad (w : BitVec 128) : Bool :=
  let d := parseSlice w
  if !d.en then w != 0
  else !(decide (d.accCode ≤ 1) && (d.accum || d.nops == 0) && decide (1 ≤ d.wx ∧ d.wx ≤ 18) && decide (1 ≤ d.wy ∧ d.wy ≤ 18)
    && (d.ysrc || d.cidx == 0) && decide (d.wa ≤ 32) && decide (d.olo ≤ 47) && decide (d.rmode ≤ 2)
    && decide (1 ≤ d.ow ∧ d.ow ≤ 32) && (!d.dlv || decide (d.oslot + d.ow ≤ 1024)))

/-- Reserved bits of an enabled slice descriptor (R56). -/
def sliceRsvBad (w : BitVec 128) : Bool :=
  bitOf w.toNat 31 && (fld w.toNat 0 2 != 0 || fld w.toNat 32 8 != 0 || fld w.toNat 64 22 != 0 || fld w.toNat 96 32 != 0)

/-- Two instructions of one index name the same thing: the later of them, in the order of the BPs. -/
def clashAt (before : List Placed) (ps : List Placed) (key : Placed → Nat) : Option At :=
  match ps with
  | [] => none
  | p :: t => if before.any (fun q => q.i == p.i && key q == key p) then some (atInsn p) else clashAt (p :: before) t key

/-- The checks of R63 on one room image, in table order, then 0x14 (R93): detail code and place of the first that fails. -/
def checkRoom (o : Obj) (v : Nat) (rm : RoomImg) : Option (Nat × At) :=
  let is := placedInsns o.levels rm
  let insnBad (d : Nat) (bad : Placed → Bool) : Option (Nat × At) := (firstBad is bad atInsn).map (d, ·)
  let listBad {α : Type} (d k : Nat) (l : List α) (bad : α → Bool) : Option (Nat × At) :=
    (l.zipIdx.find? (fun e => bad e.1)).map (fun e => (d, { index := e.2, ikind := k }))
  let insnOf (b i : Nat) : Option Insn := (((rm.insns[b]?).bind (·[i]?))).map parseInsn
  let cls (j : Nat) : Nat := (o.levels.getD j (0, 0)).2
  let lastOf (j : Nat) : Nat := levelEnd o.levels j - 1
  let isLevelEnd (i : Nat) : Bool := (List.range (o.levels.length - 1)).any (fun j => lastOf j == i)
  let sends := sendWriters o v
  let dels := deliveries o rm
  let table := bySlot (writersOf o rm v)
  let followed := rm.slices.zipIdx.map fun (w, n) => (followSlice o.levels is (parseSlice w) n o.l, n)
  -- 0x01 RSV_BITS
  insnBad 0x01 (fun p => p.x.rsv != 0)
  <|> listBad 0x01 5 rm.sends sendRsvBad
  <|> (if rm.hdrRsv then some (0x01, noAt) else none)
  <|> listBad 0x01 8 rm.setups (fun w => fld w.toNat 0 8 != 0)
  <|> listBad 0x01 9 rm.slices sliceRsvBad
  <|> listBad 0x01 6 rm.slots (fun w => fld w.toNat 0 6 != 0)
  <|> listBad 0x01 2 rm.streams streamRsvBad
  <|> listBad 0x01 0 rm.probes (fun w => fld w.toNat 10 6 != 0 || fld w.toNat 23 9 != 0)
  -- 0x02 to 0x05
  <|> insnBad 0x02 (fun p => kindFieldsBad p.x)
  <|> insnBad 0x03 (fun p => (usedOps p.x).any (fun op => opSpace op == 3 && !specialOk (opArg op)))
  <|> insnBad 0x04 (fun p => lopBad p.x)
  <|> insnBad 0x05 (fun p => p.x.pred != 0 && (p.x.kind == 1 || p.x.kind == 4 || p.x.kind == 6 || p.x.kind == 7))
  -- 0x06 GROUP_DEPTH
  <|> insnBad 0x06 (fun p => (usedOps p.x).any (fun op => opSpace op == 1 && decide (opArg op % 64 + 1 > p.i)))
  -- 0x07 MRD_HAZARD
  <|> insnBad 0x07 (fun p => decide (0 < p.i) && (usedOps p.x).any (fun op =>
        let who := if opSpace op = 0 then insnOf p.bp (p.i - 1)
                   else if opSpace op = 1 ∧ opArg op % 64 = 0 then insnOf (16 * (p.bp / 16) + opArg op / 64) (p.i - 1) else none
        match who with
        | some y => y.kind == 2 && (opSpace op == 1 || y.dst.toNat == opArg op)
        | none => false))
  -- 0x08 PASS_SHAPE
  <|> listBad 0x08 1 o.levels (fun l => l.1 == 0)
  <|> (if (o.levels.map (·.1)).sum != o.l then some (0x08, noAt) else none)
  -- 0x09 LVB_MISALIGNED
  <|> insnBad 0x09 (fun p => (p.x.kind == 6) != isLevelEnd p.i)
  -- 0x0A SEND_ENTRY
  <|> listBad 0x0A 5 rm.sends (fun e => let s := sendEntry e; !classOk s || (s.valid && !targetOk o v s))
  <|> insnBad 0x0A (fun p => p.x.kind == 1 && (let s := entryOf rm p; !s.valid || decide (s.cls > cls p.lv)))
  -- 0x0B WINDOW_WRITERS, and the 1,024 slots of R119
  <|> ((rm.streams.zipIdx.find? (fun e => !e.1.write && decide (1024 < e.1.slot + e.1.words))).map (fun e => (0x0B, { index := e.2, ikind := 2 })))
  <|> ((table.find? (fun e => writersClash e.2)).map (fun e => (0x0B, { index := e.1, ikind := 6 })))
  -- 0x0C WINDOW_HAZARD
  <|> (((windowReads is).find? (windowHazard o rm sends dels)).map (fun r => (0x0C, atInsn r.1)))
  -- 0x0D BANK_CONFLICT
  <|> ((clashAt [] (is.filter (fun p => p.x.kind == 2 || p.x.kind == 3)) (fun p => (p.x.larg.extractLsb' 0 5).toNat)).map (0x0D, ·))
  -- 0x0E BANK_SETUP
  <|> listBad 0x0E 8 rm.setups.zipIdx (fun (w, k) =>
        (w != 0 || is.any (fun p => (p.x.kind == 2 || p.x.kind == 3) && !p.x.larg.getLsbD 5 && (p.x.larg.extractLsb' 0 5).toNat == k))
          && setupBad w)
  -- 0x0F SLICE_DESC
  <|> listBad 0x0F 9 rm.slices sliceDescBad
  -- 0x10 to 0x12
  <|> ((followed.find? (·.1.orderBad)).map (fun e => (0x10, e.1.orderAt.getD { index := e.2, ikind := 9 })))
  <|> ((clashAt [] (is.filter (fun p => p.x.kind == 4)) (fun p => (p.x.larg.extractLsb' 0 3).toNat)).map (0x11, ·))
  <|> ((followed.find? (·.1.timingBad)).map (fun e => (0x12, e.1.timingAt.getD { index := e.2, ikind := 9 })))
  -- 0x13 SLOT_ENTRY
  <|> listBad 0x13 6 rm.slots (fun w => fld w.toNat 14 2 != 3 && fld w.toNat 6 8 != 0)
  -- 0x14 RUNAHEAD_MWR
  <|> insnBad 0x14 (fun p => p.x.kind == 3 && decide (stepOf o.levels p.i < 64))

/-- The first room image that a check of R63 or R93 refuses (R127). -/
def checkRooms (o : Obj) : Option Nak :=
  o.rooms.zipIdx.findSome? fun (rm, v) =>
    (checkRoom o v rm).map fun (d, w) => { status := 0x13, detail := d, vroom := v, index := w.index, ikind := w.ikind, bp := w.bp }

-- budget and declarations (R79, R80, R111, R116)

/-- Whether an instruction of the room reads a slot of a stream (R79, R116). -/
def readsStream (is : List Placed) (d : StreamDecl) : Bool :=
  (windowReads is).any (fun (_, s) => decide (d.slot ≤ s ∧ s < d.slot + d.words))

/-- The verdict tail τ (R79). -/
def verdictTail (o : Obj) : Nat :=
  (o.rooms.map fun rm =>
    let is := placedInsns o.levels rm
    (rm.streams.map fun d =>
      if !d.write ∧ d.fpass < o.p ∧ readsStream is d then d.sigma + 480 - o.p * passSteps o.levels else 0).foldl max 0).foldl max 0

/-- The budget W (R80). -/
def budgetOf (o : Obj) : Nat := o.p * passSteps o.levels + verdictTail o

/-- The streams that count towards τ: the critical ones (R79, R84). -/
def criticalStreams (o : Obj) : List StreamDecl :=
  o.rooms.flatMap fun rm =>
    let is := placedInsns o.levels rm
    rm.streams.filter fun d => !d.write && decide (d.fpass < o.p) && readsStream is d

/-- Cellar lines of the object's streams of one direction (R116). -/
def linesOf (o : Obj) (write : Bool) : Nat :=
  ((o.rooms.flatMap (·.streams)).map fun d => if d.write == write then ceilDiv (8 * d.words) 128 else 0).sum

/-- Instructions of a kind in a room image. -/
def countKind (o : Obj) (rm : RoomImg) (k : BitVec 3) : Nat := ((placedInsns o.levels rm).filter (fun p => p.x.kind == k)).length

/-- Detail 0x17 DECL_MISMATCH (R118). -/
def checkDeclarations (o : Obj) (w : Nat) : Option Nak :=
  if o.wDecl = w ∧ o.nwin = ceilDiv w 64 ∧ o.rdLines = linesOf o false ∧ o.wrLines = linesOf o true
      ∧ o.mwrMax = (o.rooms.map fun rm => o.p * countKind o rm 3).foldl max 0 then none
  else some { status := 0x13, detail := 0x17 }

-- exchange quotas and streams (R73, R74, R119)

/-- The quota of a class per level (R73); REMOTE is per beat. -/
def quota (c : Nat) : Nat := match c with | 0 => 128 | 1 => 64 | 2 => 32 | _ => 256

/-- The SENDs of the object with their sending room and entry. -/
def allSends (o : Obj) : List (Nat × Placed × SendEntry) :=
  o.rooms.zipIdx.flatMap fun (rm, r) =>
    ((placedInsns o.levels rm).filter (fun p => p.x.kind == 1)).map fun p => (r, p, entryOf rm p)

/-- An exchange quota is exceeded, sending or receiving (R73, R74): the room and level. -/
def quotaBad (o : Obj) : Option (Nat × Nat) :=
  let ss := allSends o
  (List.range o.v).findSome? fun v =>
    ((List.range o.levels.length).findSome? fun j =>
      let ovr (c : Nat) : Bool :=
        decide (quota c < (ss.filter fun (r, p, e) => r == v && p.lv == j && e.cls == c).length)
          || decide (quota c < (ss.filter fun (r, p, e) => p.lv == j && e.cls == c
              && ((e.kind == 0 && r == v) || (e.kind == 1 && e.tgt == v))).length)
      if ovr 0 || ovr 1 || ovr 2 then some (v, j) else none)
    <|> (let out : Nat := o.p * (ss.filter fun (r, _, e) => r == v && e.cls == 3).length
         let inn : Nat := ((o.bindings.filter fun b => b.type == 4 && b.dirIn && b.vroom == v).map (·.words)).sum
         if out > 256 ∨ inn > 256 then some (v, 0xFFFF) else none)

/-- A stream limit of R119 is exceeded: the room and the stream's place in its section. -/
def streamsBad (o : Obj) : Option (Nat × Nat) :=
  o.rooms.zipIdx.findSome? fun (rm, v) =>
    (rm.streams.zipIdx.findSome? fun (d, i) =>
      let ok := if d.write then decide (d.stream ≤ 63) && decide (1 ≤ d.words ∧ d.words ≤ 4096)
                else decide (d.stream ≤ 15) && decide (1 ≤ d.words ∧ d.words ≤ 128)
      if ok then none else some (v, i))
    <|> (if ((rm.streams.filter (fun d => !d.write)).map (·.words)).sum > 1024 then some (v, 0xFFFF) else none)

/-- The point from which a slot's word is due, as pass * 32 + level: the earliest over its declared writers (R45, R76, R78). IN slots of
REMOTE bindings have no declared writer before their sender's dependency is registered (R272); `Dev.remoteDue` adds them then. -/
def dueTable (o : Obj) (rm : RoomImg) (v : Nat) : Tbl (Option Nat) :=
  let put (t : Tbl (Option Nat)) (s d : Nat) : Tbl (Option Nat) :=
    Tbl.set none t s (some (match Tbl.get none t s with | some e => min e d | none => d))
  let nl := o.levels.length
  let t := (beatWriters { o with bindings := o.bindings.filter (fun b => b.type != 4) } v).foldl (fun t w => put t w.slot 0) []
  let t := (sendWriters o v).foldl (fun t w => match w.lv with
    | .every j => put t w.slot (if j + 1 < nl then j + 1 else 32)
    | _ => t) t
  let t := (deliveries o rm).foldl (fun t (s, j, _, _) => put t s j) t
  rm.streams.foldl (fun t d =>
    if d.write then t
    else if o.p ≤ d.fpass then (slotRun d.slot d.words).foldl (fun t s => put t s (d.fpass * 32)) t
    else
      match (List.range nl).find? (fun j => d.sigma + 400 ≤ d.fpass * passSteps o.levels + levelStep o.levels j) with
      | some j => (slotRun d.slot d.words).foldl (fun t s => put t s (d.fpass * 32 + j)) t
      | none => (slotRun d.slot d.words).foldl (fun t s => put t s ((d.fpass + 1) * 32)) t) t

/-- The token envelope e[w] of a profile (R124). -/
def envelopeOf (p : List Nat) : List Nat :=
  (List.range (p.length + 1)).map fun w => max (p.getD w 0) (if w = 0 then 0 else p.getD (w - 1) 0)

end Sys2Proof.Machine
end

