-- ==== Sys2Proof/Machine/Cellar.lean ====
section
/-! DEFINITION. The cellar's commands: reads, writes, write-back, sweeps, repairs, key retirement, room streams, and its registers
(06_cellar.md R157 to R190). -/

namespace Sys2Proof.Machine
open Sys2Proof

/-- Room streams in flight that a read of a line serves take its verdict too (R98, R169). -/
def Dev.streamVerdict (d : Dev) (line : Nat) (v : Verdict) : Dev :=
  d.modCellar fun c => { c with flights := c.flights.map fun f =>
    if f.line ≤ line ∧ line < f.line + ceilDiv f.words.length 16 ∧ f.verdict.code < v.code then { f with verdict := v } else f }

/-- A read of one line by a requester (R163, R169, R170, R173): refused, or opened with its verdict, buffered words forwarded. -/
def Dev.readLine (d : Dev) (k : QKind) (q : BitVec 9) (line : Nat) (want : Want) (who : Option (FuncId × Beat)) (e : LineEcc) :
    Dev × Verdict × BitVec 1024 :=
  match d.cellar.permits k q line want false with
  | none => (d.cellarRefuse, .slotMiss, 0)
  | some (_, r) =>
    let d := d.lineEcc line e
    let (v, data) := if r.sealed_ then d.cellar.openSealed line e d.free else d.cellar.openPlain line e d.free
    let d := if v = .ue then d.take 1 else d
    let d := if v = .macFail then d.secMac else d
    let (v, data) := d.cellar.forward line who v data
    (d, v, data)

/-- A read of a line through BAR4 (R185): the stored bytes of the data and metadata spaces, zeros of the device reserve. -/
def Dev.barRead (d : Dev) (line : Nat) (e : LineEcc) : Dev :=
  if 0x3F0000000 ≤ 128 * line then d.emit (.cellar .bar 0 .good 0)
  else
    let d := d.rawEcc line e
    if d.cellar.dataUe line e then (d.emit (.cellar .bar 0 .ue (Config.ueLine d.free))).take 1 else d.emit (.cellar .bar 0 .good (d.cellar.raw line))

/-- CELLAR_READ: the requester gets the data with its verdict; a core gets a bus error for verdicts 3 to 7 (R170), the window BAR4 what is stored
(R185). -/
def Dev.cellarRead (k : QKind) (q : BitVec 9) (addr : BitVec 34) (e : LineEcc) (d : Dev) : Dev :=
  let line := addr.toNat / 128
  if k = .bar then d.barRead line e
  else
  let (d, v, data) := d.readLine k q line (wantOf k false) none e
  let d := if k = .room then d.streamVerdict line v else d
  if (k = .core ∧ !v.passes) ∨ (v = .slotMiss ∧ k ≠ .room) then d.emit (.busError k q) else d.emit (.cellar k q v data)
def execCellarRead (k : QKind) (q : BitVec 9) (addr : BitVec 34) (ecc : LineEcc) (s : State) : Host.Outcome State Fault Refusal :=
  run (lineOk addr) (Dev.cellarRead k q addr ecc) s

/-- A write of bytes of one line through a queue (R163, R174, R180): refused, or stored under the queue's write slot. While the start-up clear of
the metadata runs a write of the sealed area is held (R181). -/
def Dev.writeLine (d : Dev) (k : QKind) (q : BitVec 9) (line : Nat) (mask : BitVec 128) (data : BitVec 1024) (e : LineEcc) : Dev × Stored :=
  match d.cellar.permits k q line (wantOf k true) true with
  | none => (d.cellarRefuse, .busError)
  | some (n, _) =>
    if d.cellar.clearing ∧ line < d.cellar.openLine then
      (d.modCellar fun c => { c with heldWrites := c.heldWrites ++ [{ kind := k, queue := q, line, mask, data }] }, .ok)
    else d.storeLine n line (d.cellar.queue q).weff mask data e 0xFFFF

/-- A requester's write with its answer: nothing where it is stored or held. -/
def Dev.writeAnswered (d : Dev) (k : QKind) (q : BitVec 9) (line : Nat) (mask : BitVec 128) (data : BitVec 1024) (e : LineEcc) : Dev :=
  let (d, o) := d.writeLine k q line mask data e
  match o with
  | .ok => d
  | .wasPoisoned => d.emit (.cellar k q .poison 0)
  | .busError => d.emit (.busError k q)

/-- A write of bytes of a line through BAR4 (R185): performed in an enabled unsealed region that grants BAR_W, dropped and counted elsewhere. -/
def Dev.barWrite (d : Dev) (line : Nat) (mask : BitVec 128) (data : BitVec 1024) : Dev :=
  if line < dataLines ∧ d.cellar.barOk line then d.modCellar fun c => c.mergeRaw line mask data else d.cellarRefuse

/-- CELLAR_WRITE. -/
def Dev.cellarWrite (k : QKind) (q : BitVec 9) (addr : BitVec 34) (mask : BitVec 128) (data : BitVec 1024) (e : LineEcc) (d : Dev) : Dev :=
  if k = .bar then d.barWrite (addr.toNat / 128) mask data else d.writeAnswered k q (addr.toNat / 128) mask data e
def execCellarWrite (k : QKind) (q : BitVec 9) (addr : BitVec 34) (mask : BitVec 128) (data : BitVec 1024) (ecc : LineEcc) (s : State) :
    Host.Outcome State Fault Refusal :=
  run (lineOk addr) (Dev.cellarWrite k q addr mask data ecc) s

/-- PATROL_READ (R157, R159): the ECC of the 128 bytes at an address of the stack is checked; nothing is returned. Background holds stop it
(R470). -/
def Dev.patrolRead (addr : BitVec 34) (e : LineEcc) (d : Dev) : Dev :=
  if d.background then d else d.rawEcc (addr.toNat / 128) e
def execPatrolRead (addr : BitVec 34) (ecc : LineEcc) (s : State) : Host.Outcome State Fault Refusal :=
  run (lineOk addr) (Dev.patrolRead addr ecc) s

/-- The line of the sealed area that a word of the stack belongs to, as its data or as its metadata (R156). -/
def Cellar.lineOfWord (c : Cellar) (w : Nat) : Option Nat :=
  let line := if w < 16 * dataLines then w / 16 else (8 * w - 0x380000000) / 16
  if w < 0x7E000000 ∧ line < c.openLine then some line else none

/-- A sealed line with a word that stays unreadable becomes POISONED (R159). -/
def Dev.poisonWord (d : Dev) (w : Nat) : Dev :=
  match d.cellar.lineOfWord w with
  | some line => if (d.cellar.metaOf line).state = 1 then d.poison line 0xFFFF else d
  | none => d

/-- ROW_REPAIR_DONE (R159): the oldest repair of a pseudo-channel ends. The bank's one soft repair serves it, else a spare row, of which there
are 32; the shadow goes back to the row; sealed lines with a word that stayed unreadable become POISONED; the pseudo-channel raises its event;
sweeps go on. A word written since is no longer unreadable. R159 counts no banks: there are 64, by the row number modulo 64 (DESIGN CHOICE, log
entry 169). -/
def Dev.rowRepairDone (pc : BitVec 4) (d : Dev) : Dev :=
  match d.cellar.repairing.find? (fun r => r.pc == pc.toNat) with
  | none => d
  | some r =>
    let p := Tbl.get ({} : PcRepair) d.cellar.pcRepair r.pc
    let bank := r.row % 64
    let p := if bank ∉ p.soft then { p with soft := bank :: p.soft }
             else if p.remap.length < 32 then { p with remap := r.row :: p.remap } else p
    let d := d.each (r.bad.filter fun w => decide (w ∈ d.cellar.unread)) Dev.poisonWord
    let d := d.putFlash (Tbl.set {} d.flash r.pc p)
    let d := d.modCellar fun c =>
      { c with pcRepair := Tbl.set {} c.pcRepair r.pc p,
               repairing := c.repairing.filter (fun x => !(x.pc == r.pc && x.row == r.row)) }
    d.syncSweeps.raise (424 + r.pc)
def execRowRepairDone (pc : BitVec 4) (s : State) : Host.Outcome State Fault Refusal := run true (Dev.rowRepairDone pc) s

/-- POWER_STATUS.HOT (R470): a sensor at or above the threshold, or the stack above 95 °C. Sensors count in 0.25 °C. -/
def Dev.updateHot (d : Dev) : Dev :=
  let now : Bool := d.power.sensors.any (fun (_, s) => decide (4 * (d.power.hotCfg.toNat : Int) ≤ s.temp.toInt)) || decide (95 < d.cellar.temp.toNat)
  let d := if now = d.power.hot then d else (d.putPower { d.power with hot := now }).raise 705
  d.syncSweeps

/-- STACK_TEMP_READ (R158): the temperature shows in CELLAR_TEMP, refresh doubles above 85 °C, and above 95 °C every pseudo-channel raises
its event. -/
def Dev.stackTempRead (t : BitVec 8) (d : Dev) : Dev :=
  let was := d.cellar.temp
  let d := d.modCellar fun c => { c with temp := t, hot := decide (85 < t.toNat) }
  let d := if 95 < t.toNat ∧ was.toNat ≤ 95 then d.each (List.range 16) fun d n => d.raise (424 + n) else d
  d.updateHot
def execStackTempRead (t : BitVec 8) (s : State) : Host.Outcome State Fault Refusal := run true (Dev.stackTempRead t) s

/-- The next committed entry of the write buffer in write-back order (R172): beat, function, replica. -/
def Cellar.nextBack (c : Cellar) : Option WbEntry := ((c.wb.filter (·.committed)).foldr insertWb []).head?

/-- The byte mask and data of an entry's words. -/
def WbEntry.bytes (e : WbEntry) : BitVec 128 × BitVec 1024 :=
  (held e.words).foldl (fun (m, v) (k, w) =>
    (m ||| (0xFF#128 <<< (8 * k)), v ||| (BitVec.setWidth 1024 w <<< (64 * k)))) (0, 0)

/-- WRITE_BACK (R172, R174): the next committed entry goes to the stack; a line that fails its check or was poisoned raises EV0444 with the
function and the line. -/
def Dev.writeBack (e : LineEcc) (d : Dev) : Dev :=
  match (if d.cellar.clearing then none else d.cellar.nextBack) with
  | none => d
  | some w =>
    let d := d.modCellar fun c => { c with wb := c.wb.erase w }
    let (mask, data) := w.bytes
    match d.cellar.regionOf w.line with
    | none => d
    | some (n, r) =>
      let slot := match w.slot with | some k => k | none => 0
      if r.sealed_ ∧ w.slot.isNone then d.cellarRefuse
      else
        let (d, o) := d.storeLine n w.line slot mask data e w.func
        if o = .wasPoisoned then d.raise 444 (poisonDetail w.func w.line) else d
def execWriteBack (ecc : LineEcc) (s : State) : Host.Outcome State Fault Refusal := run true (Dev.writeBack ecc) s

-- sweeps

/-- A sweep ends (R179, R167): EV0441, the exhaust sweep clears PVALID and EXHAUSTING, its descriptor completes OK with the boundary. -/
def Dev.sweepDone (d : Dev) (e : Nat) : Dev :=
  let s := Tbl.get ({} : SweepEngine) d.cellar.sweeps e
  let d := d.modCellar fun c =>
    let c := { c with sweeps := Tbl.set {} c.sweeps e { s with phase := .idle, startup := false, desc := none }, startup := c.startup && !s.startup }
    if s.exhaust ∧ (c.region s.region.toNat).exhausting then c.setRegion s.region.toNat { c.region s.region.toNat with pvalid := false, exhausting := false } else c
  let d := d.raise 441
  let d := match s.desc with
    | some x => d.finishOk x 0 s.bound.toNat
    | none => d
  d.autoSweeps

/-- One line of a sweep (R179): an UNSEALED-ZERO line in the start-up sweep, a line under another slot else, is sealed under the target; a
line that does not verify is poisoned; lines under the target and poisoned ones are skipped. Every line's metadata is read; a line whose metadata
cannot be read is one that does not verify (DESIGN CHOICE, log entry 173). At a counter's end without a pending slot the line stays as it is, under
EV0442, and the sweep goes on (DESIGN CHOICE, log entry 171). -/
def Dev.sweepOne (d : Dev) (s : SweepEngine) (line : Nat) (e : LineEcc) : Dev :=
  let m := d.cellar.metaOf line
  let lost := d.cellar.metaUe line e
  let d := d.metaEcc line e
  if lost then d.secMac.poison line 0xFFFF
  else if m.state = 0 then (if s.startup then d.modCellar (·.seal line s.tgt 0 0) else d)
  else if m.state = 1 ∧ m.slot ≠ s.tgt then
    let d := d.rawEcc line e
    let (v, plain) := d.cellar.openSealed line e d.free
    if v = .suspect ∨ v = .macFail ∨ v = .ue then d.secMac.poison line 0xFFFF
    else (d.reseal s.region.toNat line s.tgt plain).1
  else d

/-- The sweep would read the line at its boundary, and that read starts a repair of the line's row (R22). -/
def Dev.sweepStopped (d : Dev) (s : SweepEngine) (e : LineEcc) : Bool :=
  let m := d.cellar.metaOf s.bound.toNat
  m.state == 1 && m.slot != s.tgt && !d.cellar.inRepair s.bound.toNat && (d.lineEcc s.bound.toNat e).cellar.inRepair s.bound.toNat

/-- SWEEP_LINE on an engine (R179): the line at the boundary, then the boundary moves on. A sweep that holds does not move, and one whose own read
of a line starts a repair of the line's row holds at that line (R22). -/
def Dev.sweepLine (n : BitVec 2) (e : LineEcc) (d : Dev) : Dev :=
  let s := Tbl.get ({} : SweepEngine) d.cellar.sweeps n.toNat
  if s.phase ≠ .run then d
  else if s.stop ≤ s.bound then d.sweepDone n.toNat
  else if d.sweepStopped s e then (d.lineEcc s.bound.toNat e).syncSweeps
  else
    let d := d.sweepOne s s.bound.toNat e
    let s' := Tbl.get ({} : SweepEngine) d.cellar.sweeps n.toNat
    let d := d.modCellar fun c => { c with sweeps := Tbl.set {} c.sweeps n.toNat { s' with bound := s.bound + 1 } }
    if s.stop ≤ s.bound + 1 then d.sweepDone n.toNat else d.syncSweeps
def execSweepLine (e : BitVec 2) (ecc : LineEcc) (s : State) : Host.Outcome State Fault Refusal := run true (Dev.sweepLine e ecc) s

/-- METADATA_CLEAR_DONE (R181): the metadata of the sealed area is UNSEALED-ZERO, the start-up sweep to K0 starts, and the writes that were held
are performed in their order. -/
def Dev.metadataClearDone (d : Dev) : Dev :=
  if !d.cellar.clearing then d
  else
    let stop := d.cellar.openLine
    let held := d.cellar.heldWrites
    let d := d.modCellar fun c =>
      { c with mem := Memory.clearRange c.mem (metaAddr 0) (16 * stop), unread := c.unread.filter (!wordIn (metaAddr 0) (16 * stop) ·),
               clearing := false, startup := true, heldWrites := [] }
    (d.startSweep 0 { phase := .run, startup := true, tgt := 0, stop := BitVec.ofNat 27 stop }).each held fun d h =>
      d.writeAnswered h.kind h.queue h.line h.mask h.data {}
def execMetadataClearDone (s : State) : Host.Outcome State Fault Refusal := run true Dev.metadataClearDone s

-- key retirement

/-- KEY_RETIRE's commit point (R177 step 4): at no reference the slot is zeroised and EMPTY, and every retire of it completes OK. -/
def Dev.keyRetireRefsZero (k : BitVec 6) (d : Dev) : Dev :=
  if (d.cellar.key k).phase = .retiring ∧ d.cellar.refs k = 0 ∧ d.cellar.retires.any (fun r => r.slot == k) then
    let rs := d.cellar.retires.filter (fun r => r.slot == k)
    let d := d.modCellar fun c => { c.setKey k {} with retires := c.retires.filter (fun r => r.slot != k) }
    d.each rs fun d r => d.finishOk r.desc
  else d
def execKeyRetireRefsZero (k : BitVec 6) (s : State) : Host.Outcome State Fault Refusal := run true (Dev.keyRetireRefsZero k) s

/-- KEY_RETIRE's timeout (R177 step 5): it completes KEY_IN_USE with EV0445, and the slot stays RETIRING. -/
def Dev.keyRetireTimeout (k : BitVec 6) (d : Dev) : Dev :=
  match d.cellar.retires.find? (fun r => r.slot == k) with
  | none => d
  | some r =>
    let d := d.reach r.deadline
    if d.cellar.refs k = 0 then d.keyRetireRefsZero k
    else
      let d := d.modCellar fun c => { c with retires := c.retires.erase r }
      (d.raise 445).finish r.desc 0x42 0
def execKeyRetireTimeout (k : BitVec 6) (s : State) : Host.Outcome State Fault Refusal := run true (Dev.keyRetireTimeout k) s

-- registers of regions, queues and frame stores

/-- Region binding indices that name a frame store in place of a region: those of FRAME streams and of feeds into frame stores (R183, R213,
R348). -/
def Func.frameRefs (f : Func) : List Nat :=
  ((f.obj.rooms.flatMap (·.streams)).filter (·.mode == 2)).map (·.region)
    ++ (f.obj.bindings.filter fun b => b.type == 1 && b.target == 1).map (·.fsidx)

/-- A region is used by a function binding, the buffer of an open flow, a frame store or a sweep (R160). -/
def Dev.regionUsed (d : Dev) (n : Nat) : Bool :=
  d.cellar.sweeping n || d.cellar.frames.any (fun (_, f) => f.opened && f.region.toNat == n)
    || d.funcs.any (fun f => f.ends.regions.any fun (i, w) => w.getLsbD 31 && !(f.frameRefs.contains i) && fld w.toNat 16 8 == n)
    || d.media.flows.any (fun (i, f) => d.bufOf i f != 0 && f.record.region == n)

/-- CFGERR of an enabling region (R160, R190): the lowest code that applies. -/
def Cellar.cfgErr (c : Cellar) (n : Nat) (r : Region) : Nat :=
  let openPage := c.openLine / 32
  if r.limit < r.base then 1
  else if c.regions.any (fun (m, o) => m != n && o.en && decide (r.base ≤ o.limit ∧ o.base ≤ r.limit)) then 2
  else if r.sealed_ ∧ openPage ≤ r.limit.toNat then 3
  else if !r.sealed_ ∧ r.base.toNat < openPage then 4
  else if dataLines / 32 ≤ r.limit.toNat then 5
  else 0

/-- A write of CELLAR_RGN_CFG (R160, R167, R190). -/
def Dev.writeRegion (d : Dev) (n : Nat) (v : Word) : Dev :=
  let w := v.toNat
  let r := d.cellar.region n
  let pend := BitVec.ofNat 6 (fld w 6 6)
  let r1 := if r.en then r else { r with sealed_ := bitOf w 30, owner := BitVec.ofNat 7 (fld w 23 7) }
  let r1 := { r1 with rights := BitVec.ofNat 9 (fld w 14 9), autosweep := bitOf w 13 }
  let k := d.cellar.key pend
  let r1 := if r.exhausting then r1
            else if !bitOf w 12 then { r1 with pvalid := false, pending := pend }
            else if k.phase = .active ∧ k.fresh then { r1 with pvalid := true, pending := pend }
            else { r1 with pending := if r1.pvalid then r1.pending else pend }
  let r1 := if r.en then (if bitOf w 31 ∨ d.regionUsed n then r1 else { r1 with en := false, cfgerr := 0 })
            else if bitOf w 31 then
              let e := d.cellar.cfgErr n r1
              { r1 with en := e == 0, cfgerr := BitVec.ofNat 3 e }
            else r1
  (d.modCellar (·.setRegion n r1)).autoSweeps
/-- RGN_ENABLE: a write of CELLAR_RGN_CFG by the PF view (R160, R446). -/
def Dev.rgnEnable (q : Requester) (n : BitVec 8) (v : Word) (d : Dev) : Dev := if d.isPf q then d.writeRegion n.toNat v else d
def execRgnEnable (q : Requester) (n : BitVec 8) (v : Word) (s : State) : Host.Outcome State Fault Refusal := run true (Dev.rgnEnable q n v) s

/-- A write of CELLAR_Q_CFG (R162, R190): a room queue's write slot takes effect at the next boundary, any other at once. -/
def Dev.writeQueue (d : Dev) (n : BitVec 9) (v : Word) : Dev :=
  let w := v.toNat
  d.modCellar fun c =>
    let o := c.queue n
    let x : CQueue := { en := bitOf w 31, kind := BitVec.ofNat 3 (fld w 28 3), owner := BitVec.ofNat 7 (fld w 21 7), wvalid := bitOf w 20,
                        wslot := BitVec.ofNat 6 (fld w 14 6), wevalid := o.wevalid, weff := o.weff }
    let x := if x.kind = 0 then x else { x with wevalid := x.wvalid, weff := x.wslot }
    { c with queues := Tbl.set {} c.queues n.toNat x }
/-- Q_WSLOT_CHANGE. -/
def Dev.qWslotChange (rq : Requester) (q : BitVec 9) (v : Word) (d : Dev) : Dev := if d.isPf rq then d.writeQueue q v else d
def execQWslotChange (rq : Requester) (q : BitVec 9) (v : Word) (s : State) : Host.Outcome State Fault Refusal :=
  run true (Dev.qWslotChange rq q v) s
/-- The write slots of room queues take effect at a boundary (R162). -/
def Dev.queuesAtBoundary (d : Dev) : Dev :=
  d.modCellar fun c => { c with queues := Tbl.mapAll {} c.queues fun q => if q.kind = 0 then { q with wevalid := q.wvalid, weff := q.wslot } else q }

/-- A write of CELLAR_FS_CFG (R184, R190): opening needs a sealed enabled region that holds all S frames; VALIDGEN becomes 0. -/
def Dev.writeFs (d : Dev) (f : Nat) (v : Word) : Dev :=
  let w := v.toNat
  let x := Tbl.get ({} : FrameStore) d.cellar.frames f
  let x := if x.opened then x else { x with line := BitVec.ofNat 27 (fld w 0 27) }
  let r := d.cellar.region x.region.toNat
  let len := r.lines.2 - r.lines.1
  let fits := r.en && r.sealed_ && decide (1 ≤ x.flines.toNat ∧ 1 ≤ x.sm1.toNat ∧ x.line.toNat + (x.sm1.toNat + 1) * x.flines.toNat ≤ len)
  let x := if !bitOf w 31 then { x with opened := false }
           else if x.opened ∨ !fits then x
           else { x with opened := true, validgen := 0, wframe := 0, frameBeat := d.time.n, begun := false, got := 0 }
  if bitOf w 31 ∧ !fits ∧ !x.opened then d else d.modCellar fun c => { c with frames := Tbl.set {} c.frames f x }
/-- FS_OPEN. -/
def Dev.fsOpen (q : Requester) (f : BitVec 6) (v : Word) (d : Dev) : Dev := if d.isPf q then d.writeFs f.toNat v else d
def execFsOpen (q : Requester) (f : BitVec 6) (v : Word) (s : State) : Host.Outcome State Fault Refusal := run true (Dev.fsOpen q f v) s

-- room streams

/-- A stream's region and queue by its binding (R162, R348): queue in [8:0], region, or frame store for a FRAME stream, in [23:16]. -/
def Func.regionBinding (f : Func) (sd : StreamDecl) : Option (BitVec 9 × Nat) :=
  let w := Tbl.get 0 f.ends.regions sd.region
  if w.getLsbD 31 then some (BitVec.ofNat 9 w.toNat, fld w.toNat 16 8) else none

/-- k of a RING stream (R183): the beats committed; a room in run-ahead counts the beat before too, once. -/
def Func.ringCount (f : Func) (ahead : Bool) : Nat := if ahead && !f.emitCommit then f.ringK + 1 else f.ringK

/-- The first line of a stream in a beat, and VALIDGEN where its last word carries it (R183, R184). `k` counts committed beats. -/
def Dev.streamLine (d : Dev) (f : Func) (sd : StreamDecl) (k : Nat) (beat : Beat) : Option (Nat × Option Nat) :=
  (f.regionBinding sd).map fun (_, n) =>
    match sd.mode with
    | 0 => ((d.cellar.region n).lines.1 + sd.line, none)
    | 1 => ((d.cellar.region n).lines.1 + sd.line + (k * sd.step) % 2 ^ sd.rlog, none)
    | _ =>
      let fs := Tbl.get ({} : FrameStore) d.cellar.frames (n % 64)
      let s := fs.sm1.toNat + 1
      let fdly := sd.rlog % 16
      let frame := (fs.wframe.toNat + s - fdly % s) % s
      let b := (beat - fs.frameBeat).toNat
      let count := ceilDiv sd.words 16
      let pos := min (sd.line + sd.step * b) (fs.flines.toNat - count)
      ((d.cellar.region fs.region.toNat).lines.1 + fs.line.toNat + frame * fs.flines.toNat + pos,
        if sd.rlog / 16 = 1 then some fs.validgen.toNat else none)

/-- The declaration of a stream of a function. -/
def Func.stream? (f : Func) (vroom stream : Nat) (write : Bool) : Option StreamDecl :=
  (f.obj.rooms.flatMap (·.streams)).find? fun sd => sd.write == write && sd.stream == stream && (write || sd.vroom == vroom)

/-- Read the lines of a stream (R169, R183): the words with the worst verdict. -/
def Dev.readLines (d : Dev) (q : BitVec 9) (want : Want) (who : FuncId × Beat) : List LineEcc → Nat → Nat → Dev × Verdict × List Lanes
  | _, _, 0 => (d, .good, [])
  | es, line, n + 1 =>
    let (d, v, data) := d.readLine .room q line want (some who) (es.headD {})
    let (d, v2, ws) := Dev.readLines d q want who es.tail (line + 1) n
    (d, if v2.code < v.code then v else v2, lineWords data ++ ws)

/-- The rooms that receive a stream's words with their placement generations: the virtual room's places of that replica in both sets and in a
migration (R102, R146, R334). -/
def Func.destinations (f : Func) (rep vroom : Nat) : List (RoomId × BitVec 8) :=
  ((f.places.filter fun p => p.rep == rep && p.vroom == vroom).map fun p => (p.room, f.gen))
    ++ (match f.migration with
        | some m => (m.places.filter fun p => p.rep == rep && p.vroom == vroom).map fun p => (p.room, m.gen)
        | none => [])

/-- The rooms of a stream's, feed's or port's words. -/
def Func.receivers (f : Func) (rep vroom : Nat) : List RoomId := (f.destinations rep vroom).map (·.1)

/-- The number of a writer in R49's order: rooms by number, hub ports after them. R49 numbers rooms and hub ports alone; the model numbers the words of
read streams 512, of feeds 513 and of REMOTE bindings 514, after them (DESIGN CHOICE, log entry 130). -/
def writerNo (p : Packet) : Nat := match p.src with | .room r => r.toNat | .hub _ => 256 + p.port

/-- Words of a packet at a window (R146, R147): accepted for the current or the next beat, or discarded and counted. -/
def Room.receive (rm : Room) (n : Beat) (p : Packet) (step : Nat) : Room :=
  let ok := rm.func ≠ 0xFFFF ∧ p.gen = rm.gen ∧ (p.beat = n ∨ p.beat = n + 1) ∧ !(p.beat = n ∧ rm.att ∧ !p.att)
  p.words.foldl (fun rm w =>
    if ok then rm.writeSlot w.idx (p.beat != n) { word := w.word, absent := w.absent, kept := p.keep, level := p.level, step, src := writerNo p }
    else rm.count cntXchStale) rm

/-- Words as packets of up to 16 (R138). -/
def packets (ws : List PktWord) : List (List PktWord) := (List.range (ceilDiv ws.length 16)).map fun i => (ws.drop (16 * i)).take 16

/-- Words of a hub unit `u` for a room's window (R139, R146): on a way in service they are there at once; where a ring of the way holds new packets,
or a link direction of the fixed way is down so that reserved steps do not apply, they are packets under way and may come late (R150). `port` places
the unit among the writers of R49. -/
def Dev.hubSend (d : Dev) (u : BitVec 8) (port : Nat) (beat : Beat) (y : RoomId × BitVec 8) (ws : List PktWord) : Dev :=
  let (src, dst) : Node × Node := (.hub u, .room y.1)
  let ps := (packets ws).map fun l =>
    ({ src, dst, kind := .window, gen := y.2, beat, port, keep := true, waits := d.net.heldOn src dst, words := l } : Packet)
  if d.net.heldOn src dst ∨ d.net.downOn src dst then d.putNet { d.net with xch := d.net.xch ++ ps }
  else
    let n := d.time.n
    (d.putNet (ps.foldl (fun net p => net.carry src dst p.flits) d.net)).modRoom y.1 fun rm => ps.foldl (fun rm p => rm.receive n p rm.stepNow) rm

/-- A word from a hub unit lands in a window for the current beat, or is discarded and counted where the room is not bound or its generation is
another (R146). -/
def Room.hubWord (rm : Room) (gen : BitVec 8) (n : Nat) (next : Bool) (w : WinWord) : Room :=
  if rm.func ≠ 0xFFFF ∧ rm.gen = gen then rm.writeSlot n next w else rm.count cntXchStale

/-- Tokens that a room is charged apart from its instructions (R123); an overrun is a hub fault of its function and is reported (R131, R489). -/
def Dev.chargeRoom (d : Dev) (r : RoomId) (step n : Nat) : Dev :=
  let x := (d.room r).charge step n
  let d := d.setRoom r x.1
  if x.2 then (d.modFunc x.1.func fun f => { f with hubFault := true }).raiseRoom r 0 else d

/-- READ_STREAM_ISSUE (R78, R102, R183): the stream of a room of set 0 issues once in its beat and attempt, also at a step after the room's last
pass; its words and its verdict are then under way. -/
def Dev.readStreamIssue (st : StreamRef) (ecc : List LineEcc) (d : Dev) : Dev :=
  match d.func? st.func with
  | none => d
  | some f =>
    match f.stream? st.vroom.toNat st.stream.toNat false, f.placeOf false st.rep.toNat st.vroom.toNat with
    | some sd, some p =>
      let rm := d.room p.room
      if (rm.phase ≠ .run ∧ rm.phase ≠ .ended) ∨ d.cellar.flights.any (fun x => x.st == st && x.beat == d.time.n && x.att == rm.att) then d
      else
        let k := f.ringCount rm.ahead
        match f.regionBinding sd, d.streamLine f sd k d.time.n with
        | some (q, _), some (line, vg) =>
          let want := if sd.mode = 2 then Want.feed else Want.streamR
          let d := d.chargeRoom p.room (rm.d + sd.sigma) (120 * ceilDiv sd.words 16)
          let (d, v, ws) := d.readLines q want (f.id, d.time.n) ecc line (ceilDiv sd.words 16)
          let ws := ws.take sd.words
          let ws := match vg with | some g => ws.dropLast ++ [BitVec.ofNat 64 g] | none => ws
          d.modCellar fun c => { c with flights := c.flights ++
            [{ st, beat := d.time.n, att := rm.att, slot := sd.slot, line, words := ws, verdict := v,
               dests := f.destinations st.rep.toNat st.vroom.toNat }] }
        | _, _ => d
    | _, _ => d
def execReadStreamIssue (x : StreamRead) (s : State) : Host.Outcome State Fault Refusal :=
  run true (Dev.readStreamIssue x.st x.ecc) s

/-- The packets of a stream's words, with TGT the read stream's number and IDX the window slots (R138). -/
def StreamFlight.packets (fl : StreamFlight) : List (List PktWord) :=
  Sys2Proof.Machine.packets (fl.words.zipIdx.map fun (w, i) => { idx := fl.slot + i, word := w })

/-- A stream's words at one room (R146, R147): of the current beat, and after a restart of the room's attempt, else each is discarded and
counted. -/
def Room.streamTake (rm : Room) (n : Beat) (gen : BitVec 8) (fl : StreamFlight) : Room :=
  fl.words.zipIdx.foldl (fun rm (w, i) =>
    if fl.beat = n ∧ !(rm.att && !fl.att) then
      rm.hubWord gen (fl.slot + i) false { word := w, level := rm.place, step := rm.stepNow, src := 512 }
    else rm.count cntXchStale) rm

/-- The packets of a flight's words cross the links to a room (R137, R138). -/
def Dev.streamCarry (d : Dev) (fl : StreamFlight) (r : RoomId) (gen : BitVec 8) : Dev :=
  d.putNet (fl.packets.foldl (fun n ws => n.carry (.hub 1) (.room r)
    (wordFlits { cls := .rsp, ndata := 0, dst := .room r, src := .hub 1, gen, bpar := fl.beat.getLsbD 0, att := fl.att, layout := fl.st.stream.toNat } ws)) d.net)

/-- The words of a flight have been injected, and wait for the rooms `dests`: those that have been injected stand in that order (R145). -/
def Cellar.inject (c : Cellar) (fl : StreamFlight) (dests : List (RoomId × BitVec 8)) : Cellar :=
  let x := { fl with delivered := true, dests }
  { c with flights := if fl.delivered then c.flights.map fun y => if y = fl then x else y else c.flights.erase fl ++ [x] }

/-- Words injected before a flight's still wait for a room (R145). -/
def Cellar.streamAhead (c : Cellar) (fl : StreamFlight) (r : RoomId) : Bool :=
  (if fl.delivered then c.flights.takeWhile (· ≠ fl) else c.flights).any fun x => x.delivered && x.dests.any (·.1 == r)

/-- STREAM_WORDS (R78, R98): the words of a stream in flight reach their slots, for the beat and attempt they were issued in; on a ring that
holds new packets they wait, and behind words that wait for the same room (R145, R150). -/
def Dev.streamWords (st : StreamRef) (d : Dev) : Dev :=
  match d.cellar.flights.find? (fun x => x.st == st && (!x.delivered || !x.dests.isEmpty)) with
  | some fl =>
    let wait (y : RoomId × BitVec 8) : Bool := d.net.heldOn (.hub 1) (.room y.1) || d.cellar.streamAhead fl y.1
    let d := d.modCellar (·.inject fl (fl.dests.filter wait))
    d.each (fl.dests.filter fun y => !wait y) fun d y =>
      (d.streamCarry fl y.1 y.2).modRoom y.1 fun rm => rm.streamTake d.time.n y.2 fl
  | none => d
def execStreamWords (st : StreamRef) (s : State) : Host.Outcome State Fault Refusal := run true (Dev.streamWords st) s

/-- A word of a write stream reaches the hub write buffer (R81, R131, R172): refused by R163, beyond the function's quota a hub fault, else
buffered under its line, function, replica, beat and attempt. -/
def Dev.bufferWord (d : Dev) (f : Func) (rep stream idx : Nat) (word : Lanes) (beat : Beat) (att ahead : Bool) : Dev :=
  match f.stream? 0 stream true with
  | none => d
  | some sd =>
    let k := f.ringCount ahead
    match f.regionBinding sd, d.streamLine f sd k beat with
    | some (q, _), some (first, _) =>
      let line := first + idx / 16
      match d.cellar.permits .room q line .streamW true with
      | none => d.cellarRefuse
      | some (_, r) =>
        let key := rep * 2 ^ 27 + line
        let known := decide (key ∈ f.wlines)
        if !known ∧ f.obj.wrLines * f.r ≤ f.wlines.length then d.modFunc f.id fun x => { x with hubFault := true }
        else
          let d := d.modFunc f.id fun x => { x with wlines := addKey key x.wlines }
          let slot := if r.sealed_ then some (d.cellar.queue q).weff else none
          let mine (e : WbEntry) : Bool := e.func == f.id && e.rep == rep && e.beat == beat && e.att == att && e.line == line && !e.committed
          d.modCellar fun c =>
            let wb := if c.wb.any mine then c.wb.map fun e => if mine e then { e with words := Tbl.set none e.words (idx % 16) (some word) } else e
                      else c.wb ++ [{ func := f.id, rep, beat, att, line, words := [(idx % 16, some word)], slot, queue := q }]
            { c with wb, wbPeak := BitVec.ofNat 16 (min 0xFFFF (max c.wbPeak.toNat wb.length)) }
    | _, _ => d

-- registers (R190)

/-- CELLAR_RGN_STATE. -/
def Dev.regionState (d : Dev) (n : Nat) : Word :=
  let r := d.cellar.region n
  BitVec.ofNat 32 (bit r.exhausting 5 + bit (d.cellar.sweeping n) 4 + bit (d.regionUsed n) 3 + r.cfgerr.toNat)

/-- A CELLAR register's value; none where no register stands at the offset. -/
def Dev.readCellarReg (d : Dev) (off : Nat) : Option Word :=
  let c := d.cellar
  let w (n : Nat) : Option Word := some (BitVec.ofNat 32 n)
  if off = 0 then w c.open_.toNat
  else if off = 4 then w (bit (!c.repairing.isEmpty) 2 + bit (c.startup || c.clearing) 1 + bit c.training 0)
  else if off = 8 then w (bit c.hot 8 + c.temp.toNat)
  else if off = 0x10 then w (c.wbPeak.toNat * 65536 + min 0xFFFF c.wb.length)
  else if 0x20 ≤ off ∧ off < 0x30 ∧ off % 4 = 0 then some (Tbl.get {} c.cnt ((off - 0x20) / 4)).toWord
  else if off = 0x30 then w 0
  else if 0x1000 ≤ off ∧ off < 0x2000 ∧ off % 4 = 0 then
    let n := (off - 0x1000) / 16
    let r := c.region n
    match off % 16 with
    | 0 => w r.base.toNat
    | 4 => w r.limit.toNat
    | 8 => w (bit r.en 31 + bit r.sealed_ 30 + r.owner.toNat * 2 ^ 23 + r.rights.toNat * 2 ^ 14 + bit r.autosweep 13 + bit r.pvalid 12
              + r.pending.toNat * 64)
    | _ => some (d.regionState n)
  else if 0x2000 ≤ off ∧ off < 0x2800 ∧ off % 4 = 0 then
    let q := Tbl.get ({} : CQueue) c.queues ((off - 0x2000) / 4)
    w (bit q.en 31 + q.kind.toNat * 2 ^ 28 + q.owner.toNat * 2 ^ 21 + bit q.wvalid 20 + q.wslot.toNat * 2 ^ 14 + bit q.wevalid 13
       + q.weff.toNat * 128)
  else if 0x2800 ≤ off ∧ off < 0x2A00 ∧ off % 4 = 0 then
    let k := BitVec.ofNat 6 ((off - 0x2800) / 8)
    let s := c.key k
    if off % 8 = 0 then
      w (bit (c.sweeps.any fun (_, e) => e.phase != .idle && e.tgt == k) 4 + bit (c.regions.any fun (_, r) => r.pvalid && r.pending == k) 3
         + bit s.fresh 2 + (match s.phase with | .empty => 0 | .active => 1 | .retiring => 2))
    else w (c.refs k)
  else if 0x2A00 ≤ off ∧ off < 0x2A40 ∧ off % 16 < 12 ∧ off % 4 = 0 then
    let s := Tbl.get ({} : SweepEngine) c.sweeps ((off - 0x2A00) / 16)
    match off % 16 with
    | 0 => w (s.region.toNat * 65536 + s.tgt.toNat * 1024 + bit s.startup 2 + (match s.phase with | .idle => 0 | .run => 1 | .hold => 2))
    | 4 => w s.bound.toNat
    | _ => w s.stop.toNat
  else if 0x3000 ≤ off ∧ off < 0x3100 ∧ off % 16 < 12 ∧ off % 4 = 0 then
    let n := (off - 0x3000) / 16
    match off % 16 with
    | 0 => some (Tbl.get ({} : Cnt) c.pcCe n).toWord
    | 4 => some (Tbl.get ({} : Cnt) c.pcUe n).toWord
    | _ =>
      let p := Tbl.get ({} : PcRepair) c.pcRepair n
      w (bit (64 ≤ p.soft.length ∧ 32 ≤ p.remap.length) 16 + p.remap.length * 256 + p.soft.length)
  else if off = 0x3100 then w 0
  else if 0x4000 ≤ off ∧ off < 0x4400 ∧ off % 16 < 12 ∧ off % 4 = 0 then
    let f := Tbl.get ({} : FrameStore) c.frames ((off - 0x4000) / 16)
    match off % 16 with
    | 0 => w (bit f.opened 31 + f.line.toNat)
    | 4 => w (f.sm1.toNat * 2 ^ 28 + f.region.toNat * 2 ^ 20 + f.flines.toNat)
    | _ => w (f.wframe.toNat * 256 + f.validgen.toNat)
  else none

/-- Clear the counters whose bit is set in a CNT_CLR write (R9). -/
def clearBits (t : Tbl Cnt) (w n : Nat) : Tbl Cnt := (List.range n).foldl (fun t k => if bitOf w k then Tbl.erase t k else t) t

/-- A write of a CELLAR register by the PF view. -/
def Dev.writeCellarReg (d : Dev) (off : Nat) (v : Word) : Dev :=
  let w := v.toNat
  if off = 0x30 then d.modCellar fun c => { c with cnt := clearBits c.cnt w 4, wbPeak := if bitOf w 4 then 0 else c.wbPeak }
  else if 0x1000 ≤ off ∧ off < 0x2000 then
    let n := (off - 0x1000) / 16
    let r := d.cellar.region n
    match off % 16 with
    | 0 => if r.en then d else d.modCellar (·.setRegion n { r with base := BitVec.ofNat 22 w })
    | 4 => if r.en then d else d.modCellar (·.setRegion n { r with limit := BitVec.ofNat 22 w })
    | 8 => d.writeRegion n v
    | _ => d
  else if 0x2000 ≤ off ∧ off < 0x2800 then d.writeQueue (BitVec.ofNat 9 ((off - 0x2000) / 4)) v
  else if off = 0x3100 then
    d.modCellar fun c => { c with pcUe := if bitOf w 5 then Tbl.erase c.pcUe (w % 16) else c.pcUe,
                                  pcCe := if bitOf w 4 then Tbl.erase c.pcCe (w % 16) else c.pcCe }
  else if 0x4000 ≤ off ∧ off < 0x4400 then
    let f := (off - 0x4000) / 16
    let x := Tbl.get ({} : FrameStore) d.cellar.frames f
    match off % 16 with
    | 0 => d.writeFs f v
    | 4 =>
      let y := { x with sm1 := BitVec.ofNat 4 (fld w 28 4), region := BitVec.ofNat 8 (fld w 20 8), flines := BitVec.ofNat 20 w }
      if x.opened then d else d.modCellar fun c => { c with frames := Tbl.set {} c.frames f y }
    | _ => d
  else d

/-- CELLAR decode of an offset below 64 KiB (R190): offsets from 0x5000 on alias. -/
def cellarOff (off : Nat) : Nat := if off < 0x5000 then off else off % 0x5000

end Sys2Proof.Machine
end

