-- ==== Sys2Proof/Machine/Trace.lean ====
section
/-! DEFINITION. Byte rings in shared SRAM or the cellar, and the trace streams that write them (13_control_cores_and_observation.md R389
to R396). Streams 0 to 15 are the cores', stream 16 the device stream. -/

namespace Sys2Proof.Machine
open Sys2Proof

-- shared SRAM (R433, R434)

/-- A bank is powered; accesses to one that is being cleared wait, and find it cleared (R434). -/
def Sram.ready (m : Sram) (bank : Nat) : Bool := m.pwr.getLsbD bank

/-- Store bytes in shared SRAM from an offset on; bytes of a bank that is off are lost. -/
def Sram.put (m : Sram) (a : Nat) (bs : Bytes) : Sram :=
  if m.ready (a / 2 ^ 20) then { m with mem := Memory.writeN m.mem a bs } else m

/-- Bytes of shared SRAM; a bank that is off reads 0. -/
def Sram.fetch (m : Sram) (a n : Nat) : Bytes := if m.ready (a / 2 ^ 20) then Memory.readN m.mem a n else List.replicate n 0

def Dev.modSram (d : Dev) (f : Sram → Sram) : Dev := { d with strong := { d.strong with sram := f d.strong.sram } }

/-- Store bytes through a queue of kind "copy engines", line by line (R389, R404). -/
def Dev.putThrough (d : Dev) (q : BitVec 9) : Nat → Nat → Bytes → Dev
  | 0, _, _ => d
  | n + 1, a, bs =>
    if bs.isEmpty then d
    else
      let k := min bs.length (128 - a % 128)
      let here := bs.take k
      let mask := BitVec.ofNat 128 ((2 ^ k - 1) * 2 ^ (a % 128))
      let data := BitVec.ofNat 1024 (leNat here * 2 ^ (8 * (a % 128)))
      Dev.putThrough (d.writeLine .copy q (a / 128) mask data {}).1 q n (a + k) (bs.drop k)

/-- Banks 0 to 47 of shared SRAM take sinks, and 48 to 55 while staging lies in the cellar (R315, R368, R389). -/
def Dev.sinkBanks (d : Dev) : Nat := if d.loader.stgCellar then 56 else 48

/-- Bytes of a record ring: through cellar queue q, or into shared SRAM; a bank beyond the sink banks takes nothing. -/
def Dev.ringBytes (d : Dev) (cellar : Bool) (q : BitVec 9) (a : Nat) (b : Bytes) : Dev :=
  if cellar then d.putThrough q (b.length + 1) a b else if a / 2 ^ 20 < d.sinkBanks then d.modSram (·.put a b) else d

/-- Store bytes at an offset of a ring sink, wrapping at its end. -/
def Dev.ringPut (d : Dev) (cellar : Bool) (q : BitVec 9) (base size off : Nat) (bs : Bytes) : Dev :=
  let n := min bs.length (size - off)
  (d.ringBytes cellar q (base + off) (bs.take n)).ringBytes cellar q base (bs.drop n)

-- trace streams

def Dev.stream (d : Dev) (i : Nat) : Stream := Tbl.get {} d.cores.streams i
def Dev.setStream (d : Dev) (i : Nat) (x : Stream) : Dev := { d with cores := { d.cores with streams := Tbl.set {} d.cores.streams i x } }
def Dev.core (d : Dev) (c : BitVec 4) : Core := Tbl.get {} d.cores.cores c.toNat
def Dev.setCore (d : Dev) (c : BitVec 4) (x : Core) : Dev := { d with cores := { d.cores with cores := Tbl.set {} d.cores.cores c.toNat x } }
def Dev.modCore (d : Dev) (c : BitVec 4) (f : Core → Core) : Dev := d.setCore c (f (d.core c))

/-- The sink's place and size as they act: whole units of 4 KiB (R407). The registers show what was written (R5). -/
def Stream.ringBase (s : Stream) : Nat := s.base.toNat / 4096 * 4096
def Stream.ringSize (s : Stream) : Nat := s.size.toNat / 4096 * 4096

/-- Free bytes of a stream's sink: the sink is full when a packet would make WP reach RP (R389). -/
def Stream.avail (s : Stream) : Nat := if s.ringSize = 0 then 0 else (s.rp.toNat + s.ringSize - s.wp.toNat - 1) % s.ringSize

/-- Write bytes to a stream's sink and advance WP. -/
def Dev.streamPut (d : Dev) (i : Nat) (bs : Bytes) : Dev :=
  let s := d.stream i
  let d := d.ringPut s.sink s.queue s.ringBase s.ringSize s.wp.toNat bs
  d.setStream i { s with wp := BitVec.ofNat 32 ((s.wp.toNat + bs.length) % s.ringSize), pos := s.pos + bs.length }

/-- A packet that may use the reserve of 64 bytes (R394). One that fits nowhere is lost. -/
def Dev.streamReserved (d : Dev) (i : Nat) (bs : Bytes) : Dev :=
  if bs.length ≤ (d.stream i).avail then d.streamPut i bs else d

/-- SYNC (R390): reason, PC, cycle count and device time. The device stream has no PC and no cycle count, and carries zeros. -/
def Dev.sync (d : Dev) (i reason : Nat) : Dev :=
  let c := d.core (BitVec.ofNat 4 i)
  let (pc, cyc) := if i < 16 then (c.pc.toNat, c.mcycle) else (0, 0)
  let d := d.streamReserved i (leBytes 1 1 ++ leBytes 1 reason ++ leBytes 8 pc ++ leBytes 8 cyc.toNat ++ leBytes 8 d.nowNs)
  let s := d.stream i
  d.setStream i { s with cycleBase := cyc, lastSync := s.pos }

/-- When space returns after an overflow: OVERFLOW with the bytes dropped, then SYNC with REASON 3 (R394). -/
def Dev.streamRecover (d : Dev) (i : Nat) : Dev :=
  let s := d.stream i
  match s.dropped with
  | none => d
  | some n => if 31 ≤ s.avail then ((d.setStream i { s with dropped := none }).streamReserved i (leBytes 1 7 ++ leBytes 4 n)).sync i 3 else d

/-- An ordinary packet (R394): dropped and counted where it does not fit beside the reserve; after 4,096 bytes since the last SYNC it is
followed by a SYNC (R392). -/
def Dev.streamPacket (d : Dev) (i : Nat) (bs : Bytes) : Dev :=
  let s := d.stream i
  if s.dropped.isSome ∨ s.avail < bs.length + 64 then
    let first := s.dropped.isNone
    let d := d.setStream i { s with dropped := some (s.dropped.getD 0 + bs.length), cntOvf := if first then s.cntOvf.bump else s.cntOvf }
    if first ∧ i < 16 then d.raise (480 + i) else d
  else
    let d := d.streamPut i bs
    let s := d.stream i
    if s.lastSync + 4096 ≤ s.pos then d.sync i 0 else d

-- the device stream (R396)

/-- Insert a packet in (TIME, SRC) order. -/
def insertPkt (p : Nat × Nat × Bytes) : List (Nat × Nat × Bytes) → List (Nat × Nat × Bytes)
  | [] => [p]
  | x :: t => if p.1 < x.1 ∨ (p.1 = x.1 ∧ p.2.1 < x.2.1) then p :: x :: t else x :: insertPkt p t

/-- A TRACE packet of a room crosses the network to the trace unit (R138, R139); its payload here is the timestamp (DESIGN CHOICE, log entry 175). -/
def Dev.carryTrace (d : Dev) (src : Nat) (ts : Instant) : Dev :=
  if src < 256 then
    let r : Node := .room (BitVec.ofNat 8 src)
    d.putNet (d.net.carry r (.hub 6) (evtFlits r (.hub 6) d.time.n false 4 (ts / ns)))
  else d

/-- Write the packets whose reorder window of 1 µs has passed. -/
def Dev.flushTrace (d : Dev) : Dev :=
  let s := d.stream 16
  let out := s.window.takeWhile fun p => decide (p.1 + 1000 * ns ≤ d.now)
  (d.setStream 16 { s with window := s.window.drop out.length }).each out fun d p => (d.carryTrace p.2.1 p.1).streamPacket 16 p.2.2

/-- An EVT packet of the device stream: KIND, SRC, FUNC, INFO, BEAT and the time at the source. -/
def Dev.trace (d : Dev) (kind src : Nat) (func : FuncId) (info : Nat) (beat : Beat) (ts : Instant) : Dev :=
  let d := d.flushTrace
  let s := d.stream 16
  let keep := s.en && s.kinds.getLsbD kind && (s.filter == 0xFFFF || s.filter == func)
  let bs := leBytes 1 0x10 ++ leBytes 1 kind ++ leBytes 2 src ++ leBytes 2 func.toNat ++ leBytes 1 info ++ leBytes 8 beat.toNat ++ leBytes 8 (ts / ns)
  if keep then d.setStream 16 { s with window := insertPkt (ts, src, bs) s.window } else d

end Sys2Proof.Machine
end

