-- ==== Sys2Proof/Machine/Rooms.lean ====
section
/-! DEFINITION. The rooms' commands: one instruction of one BP, the end of a level's wait, a slice result
(02_rooms.md R27 to R62; 03_beat_and_commit.md R71 to R76, R84, R96). -/

namespace Sys2Proof.Machine
open Sys2Proof

/-- Put a word into the last packet of one source, destination, index, beat and level, or into a new one: up to 16 words (R138). -/
def packWord (p : Packet) (w : PktWord) : List Packet → List Packet
  | [] => [{ p with words := [w] }]
  | x :: t =>
    if { x with words := [] } = p ∧ x.words.length < 16 ∧ !(t.any fun y => { y with words := [] } = p) then { x with words := x.words ++ [w] } :: t
    else x :: packWord p w t

/-- A SEND's word leaves the room (R42, R43, R138): to another room's window, or to the hub unit of its kind. -/
def Dev.sendOut (d : Dev) (r : RoomId) (o : SendOut) : Dev :=
  let rm := d.room r
  match d.func? rm.func with
  | none => d
  | some _ =>
    let kind := match o.kind with | 1 => PktKind.window | 2 => .remote | 3 => .stream | _ => .drain
    let dst : Option Node := match o.kind with
      | 1 => some (.room (BitVec.ofNat 8 o.tgt))
      | 2 => some (.hub 4)
      | 3 => some (.hub 2)
      | _ => some (.hub 3)
    match dst with
    | none => d
    | some dst =>
      let p : Packet := { src := .room r, dst, kind, tgt := if o.kind = 1 then 0 else o.tgt, gen := o.gen, func := rm.func, set := rm.set,
                          rep := rm.rep, vroom := rm.vroom, beat := d.time.n, att := rm.att, level := rm.place }
      let p := { p with waits := d.net.heldOn p.src p.dst }
      d.putNet { d.net with xch := packWord p { idx := o.index, word := o.word, absent := o.absent } d.net.xch }

/-- WORDS of the write stream of a number, for the line charge of R123. -/
def Dev.writeWords (d : Dev) (r : RoomId) (stream : Nat) : Nat :=
  match (d.func? (d.room r).func).bind (fun f => f.stream? 0 stream true) with
  | some sd => sd.words
  | none => 0

/-- The other rooms of a room's set and replica (R120); in COMPARE the targets of a migration send beside its sources, and one charge serves a line
(DESIGN CHOICE, log entry 167). -/
def Dev.siblings (d : Dev) (r : RoomId) : List RoomId :=
  match d.func? (d.room r).func with
  | some f => match f.allPlaces.find? (·.room == r) with
    | some p => (f.allPlaces.filter fun q => q.set == p.set && q.rep == p.rep && q.room != r).map (·.room)
    | none => []
  | none => []

/-- The function's write streams as a room's SEND finds them. -/
def Dev.streamView (d : Dev) (r : RoomId) : StreamView where
  words := d.writeWords r
  sent k := (d.siblings r).any fun q => (Tbl.get none (d.room q).sentStream k).isSome

/-- Bytes queued for a target (R333). -/
def Migration.queued (m : Migration) (r : Nat) : Nat := ((Tbl.get [] m.log r).map SeedEntry.bytes).sum

/-- The largest log among the source rooms in bytes (R338). -/
def Migration.backlog (m : Migration) : Nat := (m.places.map fun p => m.queued p.room.toNat).foldl max 0

/-- A log beyond 512 KiB ends the migration (R333, R336). -/
def Migration.checkLog (m : Migration) : Migration :=
  if m.failed.isNone ∧ 512 * 1024 < m.backlog then { m with failed := some 3 } else m

/-- An entry of a source room whose migration is in SEED is queued for its target (R333). -/
def Dev.logSeed (d : Dev) (r : RoomId) (x : SeedItem) : Dev :=
  let e : SeedEntry := { beat := d.time.n, att := (d.room r).att, item := x }
  let add (m : Migration) : Migration :=
    match m.phase, m.sources.find? (·.room == r) with
    | .seed, some p => match m.places.find? (fun y => y.set == p.set && y.rep == p.rep && y.vroom == p.vroom) with
      | some t => Migration.checkLog { m with log := Tbl.modify [] m.log t.room.toNat (· ++ [e]) }
      | none => m
    | _, _ => m
  d.modFunc (d.room r).func fun f => { f with migration := f.migration.map add }

/-- What an issue adds to a migration's log (R333): a write-queue entry, or the working copy of a state word that it writes, an MRD's as it will land. -/
def seedItem (was now : Room) (b : Nat) : Option SeedItem :=
  let x := was.insnAt b was.idx
  if was.wqAhead.length < now.wqAhead.length then now.wqAhead.getLast?.map .entry
  else if was.wq.length < now.wq.length then now.wq.getLast?.map .entry
  else if (was.bp b).issued < (now.bp b).issued ∧ (x.kind = 0 ∨ x.kind = 2 ∨ x.kind = 5) ∧ 768 ≤ x.dst.toNat then
    let p := (now.land b).bp b
    (Tbl.get none (if now.ahead then p.ahead else p.working) x.dst.toNat).map (.state b x.dst.toNat)
  else none

/-- What an issue of BP b does to the device: the room, the word it sends, its report (R62, R489), a token overrun's hub fault (R131), a
migration's log (R333). -/
def Dev.issue (d : Dev) (r : RoomId) (b : Nat) (o : Issued) : Dev :=
  let seed := seedItem (d.room r) o.room b
  let d := (d.setRoom r o.room).take o.used
  let d := match o.send with | some w => d.sendOut r w | none => d
  let d := if o.overrun then d.modFunc o.room.func fun f => { f with hubFault := true } else d
  let d := match seed with | some x => d.logSeed r x | none => d
  if o.report then d.raiseRoom r 0 else d

def execEval (r : RoomId) (b : BitVec 7) (u : Upset) (s : State) : Host.Outcome State Fault Refusal :=
  run true (fun d => d.issue r b.toNat ((d.room r).eval d.time.n d.free b.toNat u)) s
def execSend (r : RoomId) (b : BitVec 7) (u : Upset) (s : State) : Host.Outcome State Fault Refusal :=
  run true (fun d => d.issue r b.toNat ((d.room r).send r.toNat (d.streamView r) d.time.n d.free b.toNat u)) s
def execMrd (r : RoomId) (b : BitVec 7) (u : Upset) (s : State) : Host.Outcome State Fault Refusal :=
  run true (fun d => d.issue r b.toNat ((d.room r).mrd d.time.n d.free b.toNat u)) s
def execMwr (r : RoomId) (b : BitVec 7) (u : Upset) (s : State) : Host.Outcome State Fault Refusal :=
  run true (fun d => d.issue r b.toNat ((d.room r).mwr d.time.n d.free b.toNat u)) s
def execSli (r : RoomId) (b : BitVec 7) (u : Upset) (s : State) : Host.Outcome State Fault Refusal :=
  run true (fun d => d.issue r b.toNat ((d.room r).sli d.time.n d.free b.toNat u)) s
def execSlr (r : RoomId) (b : BitVec 7) (u : Upset) (s : State) : Host.Outcome State Fault Refusal :=
  run true (fun d => d.issue r b.toNat ((d.room r).slr d.free b.toNat u)) s
def execLvb (r : RoomId) (b : BitVec 7) (u : Upset) (s : State) : Host.Outcome State Fault Refusal :=
  run true (fun d => d.issue r b.toNat ((d.room r).lvb b.toNat u)) s
def execNopInstruction (r : RoomId) (b : BitVec 7) (u : Upset) (s : State) : Host.Outcome State Fault Refusal :=
  run true (fun d => d.issue r b.toNat ((d.room r).nopInsn b.toNat u)) s

/-- A pass starts in a room, with its PASS packet (R72, R396). -/
def Dev.passStart (d : Dev) (r : RoomId) : Dev :=
  let rm := d.room r
  (d.setRoom r rm.passStart).trace 0 r.toNat rm.func rm.pass d.time.n d.now

/-- The VOTE of a room (R84 to R86). -/
def Room.vote (rm : Room) (r : RoomId) (beat : Beat) (status : BitVec 3) : Vote :=
  { func := rm.func, vroom := rm.vroom, set := rm.set, restart := rm.d == 64, status, beat, crc := rm.crc, room := r }

/-- A room sends its VOTE to the arbiter, traced (R84, R396). -/
def Dev.sendVote (d : Dev) (r : RoomId) (status : BitVec 3) : Dev :=
  let rm := d.room r
  let v := rm.vote r d.time.n status
  let d := d.putNet (d.net.sendVote v)
  d.trace 1 r.toNat rm.func status.toNat d.time.n d.now

/-- The room's MRD words of the level have landed (R42). -/
def Room.landAll (rm : Room) : Room := (Tbl.keys rm.bps).foldl (fun rm b => rm.land b) rm

/-- LEVEL_WAIT_END (R71, R72, R75, R84): once every instruction of the level has issued, the next level begins, or the next pass, or at
the end step the room votes. -/
def Dev.levelWaitEnd (r : RoomId) (d : Dev) : Dev :=
  let rm := d.room r
  if rm.phase ≠ .run ∨ rm.idx ≠ levelEnd rm.levels rm.level then d
  else
    let rm := rm.landAll
    if rm.level + 1 < rm.levels.length then d.setRoom r { rm with level := rm.level + 1 } else
    let rm := rm.landAllPlanes
    if rm.pass + 1 < rm.passes then (d.setRoom r { rm with pass := rm.pass + 1 }).passStart r
    else
      let holds := (rm.slotEntry.filter fun (_, w) => w.toNat / 2 ^ 14 == 2).map fun (k, _) => (k, (rm.slot k).good)
      ((d.setRoom r { rm with phase := .ended }).sendVote r rm.voteStatus).logSeed r (.mark rm.rpos rm.wpos holds)
def execLevelWaitEnd (r : RoomId) (s : State) : Host.Outcome State Fault Refusal := run true (Dev.levelWaitEnd r) s

/-- SLICE_RESULT_READY (R59). -/
def execSliceResultReady (r : RoomId) (sl : BitVec 3) (s : State) : Host.Outcome State Fault Refusal :=
  run true (fun d => d.modRoom r (·.sliceReady r.toNat sl.toNat)) s

/-- LATE_STALL (R96): a room that reaches step 64 without the decision for the beat before stops issuing and votes LATE, or what comes before
LATE in R85. A room that began its beat stalled votes LATE for it whatever decisions have reached it since. -/
def Dev.lateStall (r : RoomId) (d : Dev) : Dev :=
  let rm := d.room r
  if !rm.late ∧ (rm.phase = .stalled ∨ rm.undecided.isSome ∧ rm.ahead ∧ (rm.phase = .run ∨ rm.phase = .ended)) then
    (d.setRoom r { rm with phase := .stalled, late := true }).sendVote r (if rm.voteStatus = 0 then 3 else rm.voteStatus)
  else d
def execLateStall (r : RoomId) (s : State) : Host.Outcome State Fault Refusal := run true (Dev.lateStall r) s

end Sys2Proof.Machine
end

