-- ==== Sys2Proof/Machine/Arbiter.lean ====
section
/-! DEFINITION. Commit decisions: the arbiter's checks and causes (03_beat_and_commit.md R84 to R91, R102, R103), what a decision does in a
room (R81 to R83, R92 to R97, R488) and in the hub units (R99), and the commands that carry votes, verdicts and decisions. -/

namespace Sys2Proof.Machine
open Sys2Proof

-- a decision in a room

/-- Write-queue entries applied to the banks in issue order; a whole entry replaces an uncorrectable bank word (R53, R488). -/
def Room.applyQueue (rm : Room) : Room :=
  rm.wq.foldl (fun rm e =>
    let key := e.bank.toNat * 2048 + e.addr.toNat
    { rm with bank := Tbl.set 0 rm.bank key (mergeLanes e.mask e.data (Tbl.get 0 rm.bank key)),
              ueBm := if e.full then rm.ueBm.erase key else rm.ueBm }) rm

/-- Working copies become committed copies; those written whole replace uncorrectable words (R30, R83, R488). -/
def Room.commitState (rm : Room) : Room :=
  let gone := rm.bps.flatMap fun (b, p) => (held p.working).filterMap fun (a, w) => if w.full then some (b * 1024 + a) else none
  { rm with bps := Tbl.mapAll {} rm.bps (fun p =>
              { p with committed := (held p.working).foldl (fun t (a, w) => Tbl.set 0 t a w.word) p.committed, working := p.ahead, ahead := [] }),
            ueDs := rm.ueDs.filter (fun k => !(decide (k ∈ gone))) }

/-- Working copies are discarded (R81). -/
def Room.dropState (rm : Room) : Room := { rm with bps := Tbl.mapAll {} rm.bps (fun p => { p with working := p.ahead, ahead := [] }) }

/-- COMMIT of beat n in a room as of the boundary after it (R81, R83, R91). `rp` and `wp` are the pointer positions the beat reached. -/
def Room.applyCommit (rm : Room) (n : Beat) (rp wp : Tbl Nat) : Room :=
  let rm := rm.commitState.applyQueue
  { rm with wq := rm.wqAhead, wqAhead := [], crpos := rp, cwpos := wp, lastCommit := n, everCommitted := rm.everCommitted || decide (rm.firstFrom ≤ n),
            win := Tbl.mapAll {} rm.win (fun s => { s with hold := s.prev.getD s.hold, prev := none }) }

/-- ROLLBACK of a beat in a room: results discarded, HOLD values unchanged (R81). -/
def Room.applyRollback (rm : Room) : Room :=
  let rm := rm.dropState
  { rm with wq := rm.wqAhead, wqAhead := [], win := Tbl.mapAll {} rm.win (fun s => { s with prev := none }) }

/-- Run-ahead results are discarded (R95, R96). -/
def Room.dropAhead (rm : Room) : Room :=
  { rm with bps := Tbl.mapAll {} rm.bps (fun p => { p with ahead := [] }), wqAhead := [], ahead := false }

/-- Window words of the current beat that no feed, hub port or REMOTE writer wrote are "not written" (R95). -/
def Room.resetWindow (rm : Room) : Room :=
  { rm with win := Tbl.mapAll {} rm.win (fun s =>
      match s.cur with
      | some w => if w.kept then s else { s with cur := none, good := none }
      | none => s) }

/-- RESTART (R95): the undecided beat's and the run-ahead's results are gone, the committed positions stand, and the beat starts again at
step 64 with attempt 1. -/
def Room.restart (rm : Room) : Room :=
  let rm := rm.dropAhead.applyRollback.resetWindow
  let rm := { rm with rpos := rm.crpos, wpos := rm.cwpos, d := 64, att := true, phase := .run, pass := 0, undecided := none,
                      sentStream := [], sentDrain := [], tokens := [] }
  rm.passStart

/-- Apply the decision of the oldest open beat in a stalled room, then those held for the beats after it, in beat order (R96). -/
def Room.catchUp (n : Beat) : Nat → Room → Room
  | 0, rm => rm
  | k + 1, rm =>
    match rm.undecided with
    | none => rm
    | some b =>
      match rm.decisions.find? (fun x => x.beat == b) with
      | none => rm
      | some x =>
        let rm := { rm with decisions := rm.decisions.erase x }
        let rm := if x.commit then (rm.dropAhead).applyCommit b rm.urpos rm.uwpos else rm.dropAhead.applyRollback
        let rm := { rm with rpos := rm.crpos, wpos := rm.cwpos, undecided := if b + 1 = n then none else some (b + 1) }
        Room.catchUp n k rm

/-- A room receives a decision in beat n (R83, R94 to R96): for the beat it runs, it is held for the boundary; for the beat before, in
run-ahead, it ends run-ahead or restarts; in a stalled room decisions are applied in beat order. -/
def Room.decide (rm : Room) (n : Beat) (x : Decision) : Room :=
  if x ∈ rm.decisions then rm else
  match rm.undecided with
  | none => if x.beat = n then { rm with decisions := rm.decisions ++ [x] } else rm
  | some b =>
    if rm.phase ≠ .stalled ∧ rm.ahead ∧ x.beat = b then
      if x.commit then { rm.applyCommit b rm.urpos rm.uwpos with ahead := false, undecided := none } else rm.restart
    else if x.beat = b ∨ b < x.beat then Room.catchUp n (rm.decisions.length + 1) { rm with decisions := rm.decisions ++ [x] }
    else rm

/-- The room at the boundary that ends beat n (R30, R47, R71, R83, R92, R96): decisions that it holds take effect, the window's words move
to the new beat, and the room starts its schedule, runs ahead, or stays stalled. -/
def Room.atBoundary (rm : Room) (n : Beat) : Room :=
  let prevGood (s : Slot) : Slot := { s with prev := (if rm.undecided.isNone then s.good else s.prev) }
  let rm := { rm with win := Tbl.mapAll {} rm.win prevGood, urpos := (if rm.undecided.isNone then rm.rpos else rm.urpos),
                      uwpos := (if rm.undecided.isNone then rm.wpos else rm.uwpos), undecided := some (rm.undecided.getD n) }
  let rm := Room.catchUp (n + 1) (rm.decisions.length + 1) rm
  let shift (s : Slot) : Slot := { s with cur := s.nxt, good := s.nxtGood, nxt := none, nxtGood := none }
  let ahead := rm.undecided == some n
  let rm := { rm with win := Tbl.mapAll {} rm.win shift, tokenLast := rm.tokenCur, ovfLast := rm.ovfCur, parLast := rm.parCur,
                      tokenCur := false, ovfCur := false, parCur := false, faulted := false, missed := false, late := false,
                      sentStream := [], sentDrain := [], tokens := [], frameStart := 0, d := 0, att := false, pass := 0, ahead,
                      phase := if rm.undecided.isNone ∨ ahead then Phase.run else Phase.stalled }
  rm.passStart

-- the arbiter

/-- Every room of the function has voted for the beat (R87). -/
def Func.allVoted (f : Func) : Bool := f.places.all fun p => f.votes.any fun v => v.room == p.room

/-- The critical verdicts of a beat: one for each critical stream and replica (R84, R88). -/
def Func.critical (f : Func) : List StreamRef :=
  (criticalStreams f.obj).flatMap fun sd => (List.range f.r).map fun rep =>
    { func := f.id, vroom := BitVec.ofNat 8 sd.vroom, rep := BitVec.ofNat 8 rep, stream := BitVec.ofNat 4 sd.stream }

def Func.allVerdicts (f : Func) : Bool := f.critical.all fun s => f.verdicts.any fun v => v.1 == s

/-- The REMOTE decisions that a beat needs (R77, R272), each with what has arrived. -/
def Dev.remoteNeeds (d : Dev) (f : Func) (n : Beat) : List (Option Bool) :=
  (d.link.deps.filter fun x => x.func == f.id && decide (x.since ≤ n ∧ n ≤ x.until_)).map fun x =>
    (f.remote.find? fun r => r.1 == x.dev && r.2.1 == x.sender && r.2.2.1 == n - 1).map (·.2.2.2)

/-- Pairs of rooms of the two sets that voted OK with different CRCs (R88, R102): their virtual room and replica. -/
def Func.mismatches (f : Func) : List (Nat × Nat) :=
  (f.places.filter (!·.set)).filterMap fun p =>
    match f.placeOf true p.rep p.vroom with
    | none => none
    | some q =>
      match f.votes.find? (·.room == p.room), f.votes.find? (·.room == q.room) with
      | some a, some b => if a.status = 0 ∧ b.status = 0 ∧ a.crc ≠ b.crc then some (p.rep, p.vroom) else none
      | _, _ => none

/-- A room of the function is isolated (R416). -/
def Dev.isolated (d : Dev) (f : Func) : Bool := f.places.any fun p => (d.room p.room).isolated

/-- The cause of the decision: the first of R89 that applies, 0 for COMMIT. -/
def Dev.causeOf (d : Dev) (f : Func) (n : Beat) : Nat :=
  let st := f.votes.map (·.status)
  if f.ordered ∨ d.isolated f then 1
  else if st.any (fun s => s == 1 || decide (4 ≤ s.toNat)) then 2
  else if st.any (· == 3) then 3
  else if !f.allVoted ∨ !f.allVerdicts then 4
  else if f.votes.any (·.restart) ∧ f.votes.any (fun v => !v.restart) then 5
  else if st.any (· == 2) then 6
  else if f.verdicts.any (fun v => !v.2 && decide (v.1 ∈ f.critical)) then 7
  else if !f.mismatches.isEmpty then 8
  else if f.hubFault then 9
  else if (d.remoteNeeds f n).any (fun x => x != some true) then 10
  else 0

/-- A migration's target votes match its sources' (R332, R334): for every target, the source it copies voted OK with the same CRC and
RESTART. -/
def Func.migMatch (f : Func) (m : Migration) : Bool :=
  m.places.all fun p =>
    match m.votes.find? (·.room == p.room), f.placeOf m.set p.rep p.vroom with
    | some a, some q => (match f.votes.find? (·.room == q.room) with
      | some b => a.status == 0 && a.crc == b.crc && a.restart == b.restart
      | none => false)
    | _, _ => false

/-- The devices that hold the function's REMOTE targets (R77, R270). -/
def Func.targetDevs (f : Func) : List (BitVec 11) :=
  (f.obj.bindings.filter fun b => b.type == 4 && !b.dirIn).map (fun b => (Tbl.get 0 f.ends.remotes b.num).extractLsb' 53 11) |>.eraseDups

/-- One more commit on a function's 63-bit count, or one more rollback with its cause (R9, R91, R457). -/
def Figure.note (g : Figure) (x : Decision) : Figure :=
  if x.commit then
    if g.commits.toNat + 1 < 2 ^ 63 - 1 then { g with commits := g.commits + 1, lastCause := 0 }
    else { g with commits := BitVec.allOnes 63, sat := true, lastCause := 0 }
  else { g with rollbacks := bumpAt g.rollbacks x.cause.toNat, lastCause := x.cause }

def Dev.noteFigure (d : Dev) (x : Decision) : Dev :=
  d.putHub { d.hub with figures := Tbl.modify {} d.hub.figures x.func.toNat (·.note x) }

/-- The arbiter decides a function's beat (R88 to R90): the decision goes to every room of the function and of its migration, and to the hub
units that hold its results; mismatching rooms raise their events (R103); the sender's decision goes to the devices of its REMOTE
targets (R77). -/
def Dev.decideNow (d : Dev) (f : Func) : Dev :=
  let n := d.time.n
  let cause := d.causeOf f n
  let x : Decision := { func := f.id, beat := n, commit := cause == 0, cause := BitVec.ofNat 4 cause }
  let rooms := f.rooms ++ (match f.migration with | some m => m.places.map (·.room) | none => [])
  let d := d.each f.mismatches fun d (rep, v) =>
    d.each (f.places.filter fun p => p.rep == rep && p.vroom == v) fun d p => d.raiseRoom p.room 256
  let d := (d.modFunc f.id fun f => { f with decided := some x, past := (x :: f.past).take 64 }).noteFigure x
  let d := d.putNet (d.net.sendDecs (rooms.map (fun r => (Recipient.room r, x)) ++ [(Recipient.hub f.id, x)]))
  let d := d.each f.targetDevs fun d dev => d.sendDecision dev x
  d.trace 2 1024 f.id (bit x.commit 0 + cause * 16) n d.now

/-- Decide once every vote, critical verdict and required REMOTE decision is held, or at the vote deadline (R77, R87). -/
def Dev.tryDecide (d : Dev) (id : FuncId) (deadline : Bool) : Dev :=
  match d.func? id with
  | none => d
  | some f =>
    if f.phase ≠ .admitted ∨ f.decided.isSome ∨ d.time.n < f.since ∨ d.halted then d
    else if deadline ∨ (f.allVoted ∧ f.allVerdicts ∧ (d.remoteNeeds f d.time.n).all (·.isSome)) then d.decideNow f
    else d

/-- The decisions that a LATE vote asks for (R149): from the last beat the room sent another vote for, up to the beat before. -/
def Func.resend (f : Func) (v : Vote) : List Decision :=
  let from_ := Tbl.get 0 f.lastVote v.room.toNat
  f.past.reverse.filter fun x => decide (from_ ≤ x.beat ∧ x.beat < v.beat)

/-- What ends a migration in COMPARE by the votes held (R334, R336): 2 a target did not vote OK, 1 a comparison disagrees. A source room
held isolated is left out. -/
def Dev.migFault (d : Dev) (f : Func) (m : Migration) : Option Nat :=
  if m.votes.any (·.status != 0) then some 2
  else if m.places.any fun p =>
      match m.sources.find? (fun y => y.set == p.set && y.rep == p.rep && y.vroom == p.vroom) with
      | none => false
      | some q => !(d.room q.room).isolated && (match m.votes.find? (·.room == p.room), f.votes.find? (·.room == q.room) with
        | some a, some b => a.crc != b.crc
        | _, _ => false)
    then some 1
  else none

/-- Note a failure of a function's migration (R336). -/
def Dev.checkMigration (d : Dev) (id : FuncId) : Dev :=
  d.modFunc id fun f => { f with migration := f.migration.map fun m =>
    if m.phase = .compare ∧ m.failed.isNone then { m with failed := d.migFault f m } else m }

/-- VOTE (R84 to R88, R149, R334): the arbiter takes the oldest vote of a room under way; a vote of another beat does not count; LATE is
answered with the room's missing decisions; votes of a migration's targets never enter the decision. -/
def Dev.vote (r : RoomId) (d : Dev) : Dev :=
  match d.net.votes.find? (·.room == r) with
  | none => d
  | some v =>
    let d := d.putNet { d.net.carry (.room r) (.hub 0) (evtFlits (.room r) (.hub 0) v.beat v.restart 1 v.payload) with votes := d.net.votes.erase v }
    match d.func? v.func with
    | none => d
    | some f =>
      let again := (f.resend v).map fun x => (Recipient.room r, x)
      let d := if v.status = 3 then d.putNet (d.net.sendDecs again)
        else d.modFunc f.id fun f => { f with lastVote := Tbl.insert f.lastVote r.toNat v.beat }
      if v.beat ≠ d.time.n then d
      else if f.places.any (·.room == r) then
        ((d.modFunc f.id fun f => if f.decided.isSome then f else { f with votes := f.votes ++ [v] }).checkMigration f.id).tryDecide f.id false
      else
        let add (m : Migration) : Migration := if m.places.any (·.room == r) then { m with votes := m.votes ++ [v] } else m
        (d.modFunc f.id fun f => { f with migration := f.migration.map add }).checkMigration f.id
def execVote (r : RoomId) (s : State) : Host.Outcome State Fault Refusal := run true (Dev.vote r) s

/-- The attempt in which a stream's room of set 0 runs its beat (R95, R97). -/
def Dev.streamAtt (d : Dev) (st : StreamRef) : Bool :=
  ((d.func? st.func).bind fun f => f.placeOf false st.rep.toNat st.vroom.toNat).any fun p => (d.room p.room).att

/-- VERDICT (R78, R88, R98): the verdict of a stream in flight reaches the arbiter; one of attempt 0 does not count after its room has
restarted (R95). Where a late ROLLBACK reached that room in time, its attempt 0 is the beat's (R97). -/
def Dev.verdict (st : StreamRef) (d : Dev) : Dev :=
  match d.cellar.flights.find? (fun x => x.st == st && x.delivered) with
  | none => d
  | some fl =>
    let d := d.modCellar fun c => { c with flights := c.flights.erase fl }
    if fl.beat ≠ d.time.n ∨ fl.att ≠ d.streamAtt st then d
    else (d.modFunc st.func fun f => if f.decided.isSome then f else
        { f with verdicts := f.verdicts.filter (fun v => v.1 != st) ++ [(st, fl.verdict.passes)] }).tryDecide st.func false
def execVerdict (st : StreamRef) (s : State) : Host.Outcome State Fault Refusal := run true (Dev.verdict st) s

/-- VOTE_DEADLINE (R87): what has not arrived is a timeout. -/
def execVoteDeadline (f : FuncId) (s : State) : Host.Outcome State Fault Refusal := run true (fun d => d.tryDecide f true) s

/-- REMOTE_DECISION (R77): the decision of a sending function arrives. -/
def Dev.remoteDecision (dev : BitVec 11) (f : FuncId) (beat : Beat) (commit : Bool) (d : Dev) : Dev :=
  let fs := (d.link.deps.filter fun x => x.dev == dev && x.sender == f).map (·.func) |>.eraseDups
  d.each fs fun d g => (d.modFunc g fun x => { x with remote := ((dev, f, beat, commit) :: x.remote).take 64 }).tryDecide g false
def execRemoteDecision (dev : BitVec 11) (f : FuncId) (beat : Beat) (commit : Bool) (s : State) : Host.Outcome State Fault Refusal :=
  run true (Dev.remoteDecision dev f beat commit) s

-- a decision in the hub units

/-- The write buffer's entries of a decided beat (R172). -/
def Cellar.decideWb (c : Cellar) (x : Decision) : Cellar :=
  let mine (e : WbEntry) : Bool := e.func == x.func && e.beat == x.beat && !e.committed
  { c with wb := if x.commit then c.wb.map fun e => if mine e then { e with committed := true } else e else c.wb.filter fun e => !mine e }

/-- The decision takes effect in the hub units as of the boundary after its beat (R81, R83, R99). -/
def Dev.hubApply (d : Dev) (x : Decision) : Dev :=
  let d := d.modCellar (·.decideWb x)
  d.modFunc x.func fun f =>
    { f with emitCommit := x.commit, ringK := if x.commit then f.ringK + 1 else f.ringK, everCommitted := f.everCommitted || x.commit }

/-- A restart at the hub (R95): the attempt-0 results of the current beat are discarded. A verdict of attempt 0 that has reached the arbiter stands
(DESIGN CHOICE, log entry 164). -/
def Dev.hubRestart (d : Dev) (id : FuncId) : Dev :=
  let d := d.modCellar fun c => { c with wb := c.wb.filter fun e => !(e.func == id && e.beat == d.time.n && !e.att && !e.committed) }
  let keep (w : Option DrainWord) : Option DrainWord := w.bind fun y => if y.att then some y else none
  d.modFunc id fun f => if f.hubAtt then f else { f with hubAtt := true, wlines := [], filling := Tbl.mapAll none f.filling keep }

/-- A hub unit receives a decision (R90, R95): of the current beat it is held for the boundary; of the beat before it takes effect now, and a
ROLLBACK restarts the beat. -/
def Dev.hubDecide (d : Dev) (x : Decision) : Dev :=
  if x.beat = d.time.n then d.modFunc x.func fun f => { f with hubDec := some x }
  else if x.commit then d.hubApply x
  else (d.hubApply x).hubRestart x.func

/-- DECISION (R90): a room or the hub units receive the oldest decision under way to them. A room of the function's placement that restarts
discards the function's attempt-0 results in the hub (R95); a migration's target sends nothing that the hub keeps (R334). -/
def Dev.decision (dest : Recipient) (d : Dev) : Dev :=
  match d.net.decs.find? (fun x => x.1 == dest) with
  | none => d
  | some m =>
    let d := d.putNet { d.net with decs := d.net.decs.erase m }
    match dest with
    | .room r =>
      let d := d.putNet (d.net.carry (.hub 0) (.room r) (evtFlits (.hub 0) (.room r) m.2.beat false 2 m.2.payload))
      if (d.room r).func ≠ m.2.func then d
      else
        let was := d.room r
        let d := d.modRoom r fun rm => rm.decide d.time.n m.2
        let own : Bool := (d.func? was.func).any fun f => f.places.any (·.room == r)
        if !was.att ∧ (d.room r).att then (if own then d.hubRestart was.func else d).trace 0 r.toNat was.func 0 d.time.n d.now else d
    | .hub _ => d.hubDecide m.2
def execDecision (dest : Recipient) (s : State) : Host.Outcome State Fault Refusal := run true (Dev.decision dest) s

end Sys2Proof.Machine
end

