-- ==== Sys2Proof/Machine/Links.lean ====
section
/-! DEFINITION. Link errors of the rings and the ring registers (05_corridors_and_stairs.md R148 to R152). -/

namespace Sys2Proof.Machine
open Sys2Proof

def Dev.modNet (d : Dev) (f : Net → Net) : Dev := { d with net := f d.net }

/-- The event of a ring (R148): EV0448 + k for corridor k, EV0464 + c for stair c. -/
def ringEvent (ring : Nat) : Nat := 448 + ring

/-- FLIT_CRC_ERROR (R148): the sender resends from its retry buffer, in order, so that no packet is lost or reordered; the retry is counted,
and the ring raises its event. The flits sent again behind the bad one are not counted (DESIGN CHOICE, log entry 168). -/
def Dev.flitCrcError (l : LinkDir) (d : Dev) : Dev :=
  let d := d.modNet fun n => { n with retry := bumpAt n.retry l.ring.toNat }
  d.raise (ringEvent l.ring.toNat)
def execFlitCrcError (l : LinkDir) (s : State) : Host.Outcome State Fault Refusal := run (linkOk l) (Dev.flitCrcError l) s

/-- A lost drain or write-stream word is a hub unit's fault (R149). -/
def Dev.lostWord (d : Dev) (p : Packet) : Dev :=
  if p.kind = .drain ∨ p.kind = .stream then d.modFunc p.func fun f => { f with hubFault := true } else d

/-- The stair of a packet that enters it from a corridor (R134). -/
def turnsInto (src dst : Node) : Option Nat :=
  match src, dst with
  | .room s, .room t => if s.toNat / 16 ≠ t.toNat / 16 ∧ s.toNat % 16 ≠ t.toNat % 16 then some (16 + t.toNat % 16) else none
  | _, _ => none

/-- Packets of a ring's hold (R150): what turns in from a corridor waits; of a packet under way the model takes it that it has not turned
in yet (log entry 137). -/
def Net.hold (n : Net) (ring : BitVec 5) : Net :=
  { n with holds := if ring ∈ n.holds then n.holds else ring :: n.holds,
           xch := n.xch.map fun p => { p with waits := p.waits || turnsInto p.src p.dst == some ring.toNat } }

/-- What a link direction that goes down loses of a list of messages: those under way over it. -/
def Dev.linkLoses (d : Dev) (k : Nat) (src dst : Node) : Bool := decide (k ∈ d.net.way src dst)

/-- LINK_DOWN (R149, R150): the retry buffer and every packet under way over the link are lost whole: exchange words, votes, decisions, cellar
stream words, and events and trace packets of rooms; the ring counts and raises its event; its nodes hold new packets. What waits for a hold is
not on the link yet. -/
def Dev.linkDown (l : LinkDir) (d : Dev) : Dev :=
  let k := linkDirKey l
  let on (src dst : Node) : Bool := d.linkLoses k src dst
  let lost := d.net.xch.filter fun p => !p.waits && on p.src p.dst
  let toRoom (x : Recipient × Decision) : Bool := match x.1 with | .room r => on (.hub 0) (.room r) | .hub _ => false
  let fromRoom (n : Nat) (u : BitVec 8) : Bool := decide (n < 256) && on (.room (BitVec.ofNat 8 n)) (.hub u)
  let d := { d with events := d.events.filter fun o => !fromRoom o.ev.toNat 5 }
  let d := d.modCellar fun c => { c with flights := c.flights.map fun x => { x with dests := x.dests.filter fun y => !on (.hub 1) (.room y.1) } }
  let d := d.setStream 16 { d.stream 16 with window := (d.stream 16).window.filter fun p => !fromRoom p.2.1 6 }
  let d := d.modNet fun n =>
    { n with xch := n.xch.filter (fun p => p.waits || !on p.src p.dst), votes := n.votes.filter (fun v => !on (.room v.room) (.hub 0)),
             decs := n.decs.filter (fun x => !toRoom x), ue := bumpAt n.ue l.ring.toNat, links := Tbl.set {} n.links k { down := true } }
  let d := d.modNet (·.hold l.ring)
  (d.each lost Dev.lostWord).raise (ringEvent l.ring.toNat)
def execLinkDown (l : LinkDir) (s : State) : Host.Outcome State Fault Refusal := run (linkOk l) (Dev.linkDown l) s

/-- LINK_RETRAIN_DONE (R149, R150): the link returns at the next boundary. -/
def Dev.linkRetrainDone (l : LinkDir) (d : Dev) : Dev :=
  d.modNet fun n => { n with links := Tbl.modify {} n.links (linkDirKey l) fun s => if s.down then { s with trained := true } else s }
def execLinkRetrainDone (l : LinkDir) (s : State) : Host.Outcome State Fault Refusal := run (linkOk l) (Dev.linkRetrainDone l) s

/-- LINK_RETRAIN_RETRY (R149): a retrain failed; after three the link tries again every 1 ms. -/
def Dev.linkRetrainRetry (l : LinkDir) (d : Dev) : Dev :=
  d.modNet fun n => { n with links := Tbl.modify {} n.links (linkDirKey l) fun s => if s.down then { s with retrains := s.retrains + 1 } else s }
def execLinkRetrainRetry (l : LinkDir) (s : State) : Host.Outcome State Fault Refusal := run (linkOk l) (Dev.linkRetrainRetry l) s

/-- RING_HOLD_END (R150): the ring's nodes release what they held. -/
def Dev.ringHoldEnd (k : BitVec 5) (d : Dev) : Dev :=
  d.modNet fun n => { n with holds := n.holds.filter (· != k) }.release
def execRingHoldEnd (k : BitVec 5) (s : State) : Host.Outcome State Fault Refusal := run true (Dev.ringHoldEnd k) s

/-- Trained link directions return to service at a boundary, and their rings hold new packets (R150). -/
def Dev.linksAtBoundary (d : Dev) : Dev :=
  let back := d.net.links.filter fun (_, s) => s.down && s.trained
  let rings := (back.map fun (k, _) => BitVec.ofNat 5 (k / 64)).eraseDups
  d.modNet fun n => rings.foldl Net.hold { n with links := Tbl.mapAll {} n.links (fun s => if s.down && s.trained then {} else s) }

/-- A ring register (R152), by its offset in the HUB block; none where none stands. -/
def Dev.readRing (d : Dev) (off : Nat) : Option Word :=
  let downBits (k : Nat) (desc : Bool) : Nat :=
    ((List.range 17).map fun i => bit (Tbl.get ({} : LinkState) d.net.links (linkKey k desc i)).down i).sum
  if 0x8000 ≤ off ∧ off < 0x8200 ∧ off % 4 = 0 then
    let k := (off - 0x8000) / 16
    match off % 16 with
    | 0 => some (BitVec.ofNat 32 (downBits k false))
    | 4 => some (BitVec.ofNat 32 (downBits k true))
    | 8 => some (Tbl.get ({} : Cnt) d.net.retry k).toWord
    | _ => some (Tbl.get ({} : Cnt) d.net.ue k).toWord
  else if off = 0x8200 then some 0
  else if off = 0x8204 then
    some (BitVec.ofNat 32 ((List.range 32).map fun k => bit (downBits k false + downBits k true != 0) k).sum)
  else none

/-- A write of HUB_RING_CNT_CLR (R152). -/
def Dev.writeRing (d : Dev) (off : Nat) (v : Word) : Dev :=
  let k := v.toNat % 32
  if off = 0x8200 then
    d.modNet fun n => { n with ue := if bitOf v.toNat 8 then Tbl.erase n.ue k else n.ue, retry := if bitOf v.toNat 7 then Tbl.erase n.retry k else n.retry }
  else d

end Sys2Proof.Machine
end

