-- ==== Sys2Proof/Machine/Shift.lean ====
section
/-! DEFINITION. What a step of device time moves beside the counter (08_time.md R228, R238, R243): every instant by which the device measures a time that
goes on, so that the time keeps its length. Timestamps that have been taken stay as they are (R228; DEDUCED, log entry 180). -/

namespace Sys2Proof.Machine
open Sys2Proof

/-- An instant after a step. -/
def movedBy (delta : Int) (t : Instant) : Instant := ((t : Int) + delta).toNat

/-- The time unit: boundaries, the servo's own times, the PPS input, and what PTP has due (R230, R231, R234, R237, R238, R245). -/
def TimeUnit.moved (mv : Instant → Instant) (t : TimeUnit) : TimeUnit :=
  let t := if t.run ∨ t.armed then { t with next := mv t.next, start := mv t.start, starts := t.starts.map mv } else t
  { t with lastPps := t.lastPps.map mv, incrAt := mv t.incrAt, incrLog := t.incrLog.map fun (a, v) => (mv a, v),
           ports := Tbl.mapAll {} t.ports fun p =>
             { p with reqSent := mv p.reqSent, nextSync := mv p.nextSync, nextAnn := mv p.nextAnn, nextReq := mv p.nextReq } }

/-- The link: when frames were sent, CRC failures and markers (R261 to R263, R267). -/
def Link.moved (mv : Instant → Instant) (l : Link) : Link :=
  { l with bundles := Tbl.mapAll {} l.bundles fun x =>
      { x with sentAt := x.sentAt.map mv, crcFails := x.crcFails.map (fun (k, t) => (k, mv t)), lastTx := x.lastTx.map mv,
               reorder := x.reorder.map (fun (f, t) => (f, mv t)),
               lastArrival := if x.lastArrival = 0 then 0 else mv x.lastArrival } }

/-- The rings: since when operations are ready and completions wait (R357, R366). -/
def Rings.moved (mv : Instant → Instant) (r : Rings) : Rings :=
  { r with pairs := Tbl.mapAll {} r.pairs fun x =>
      { x with irqSince := mv x.irqSince, window := x.window.map fun e => { e with ready := e.ready.map mv } } }

/-- The cores: watchdogs and sleep (R368, R395). -/
def Cores.moved (mv : Instant → Instant) (c : Cores) : Cores :=
  { c with cores := Tbl.mapAll {} c.cores fun x => { x with wdogSince := mv x.wdogSince, asleepSince := mv x.asleepSince } }

/-- The cellar: deadlines of KEY_RETIRE, errors of rows, limits of frames (R159, R177, R184). -/
def Cellar.moved (mv : Instant → Instant) (c : Cellar) : Cellar :=
  { c with retires := c.retires.map (fun r => { r with deadline := mv r.deadline }), rowErrors := c.rowErrors.map fun (k, t) => (k, mv t),
           frames := Tbl.mapAll {} c.frames fun x => { x with limit := x.limit.map mv } }

/-- The media ports apart from the egresses' rasters: arrivals, groups that wait for their boundary, frames that came in to be forwarded (R195, R205,
R209, R237). -/
def Media.moved (mv : Instant → Instant) (m : Media) : Media :=
  { m with eth := Tbl.mapAll {} m.eth (fun p => { p with bridgeQueue := p.bridgeQueue.map fun x => { x with came := x.came.map mv } })
           flows := Tbl.mapAll {} m.flows (fun f => { f with seen := f.seen.map fun (n, t) => (n, mv t), since := mv f.since })
           groups := m.groups.map fun g => { g with key := mv g.key } }

/-- Everything that a step moves but the counter, the sensors' records and the rasters. -/
def Dev.moveTimes (d : Dev) (mv : Instant → Instant) : Dev :=
  { d with time := d.time.moved mv, link := d.link.moved mv, rings := d.rings.moved mv, cores := d.cores.moved mv, cellar := d.cellar.moved mv,
           media := d.media.moved mv, fabric := { d.fabric with ran := mv d.fabric.ran },
           loader := { d.loader with essFrom := d.loader.essFrom.map mv, bgFrom := d.loader.bgFrom.map mv }, power := { d.power with lastVstep := Tbl.mapAll 0 d.power.lastVstep mv },
           strong := { d.strong with dbg := { d.strong.dbg with unlockedSince := mv d.strong.dbg.unlockedSince } } }

end Sys2Proof.Machine
end

