-- ==== Sys2Proof/Machine/Raster.lean ====
section
/-! DEFINITION. Media formats, rasters and nominal times, flow records, endpoint references (07_media_ports.md R196 to R215). -/

namespace Sys2Proof.Machine
open Sys2Proof

def Dev.modMedia (d : Dev) (f : Media → Media) : Dev := { d with media := f d.media }
def Dev.eth (d : Dev) (n : Nat) : EthPort := Tbl.get {} d.media.eth n
def Dev.setEth (d : Dev) (n : Nat) (x : EthPort) : Dev := d.modMedia fun m => { m with eth := Tbl.set {} m.eth n x }
def Dev.sdi (d : Dev) (n : Nat) : SdiEngine := Tbl.get {} d.media.sdi n
def Dev.setSdi (d : Dev) (n : Nat) (x : SdiEngine) : Dev := d.modMedia fun m => { m with sdi := Tbl.set {} m.sdi n x }
/-- Flow `i` of the table: receive flows 0 to 1023, transmit flows from 1024. -/
def Dev.flow (d : Dev) (i : Nat) : Flow := Tbl.get {} d.media.flows i
def Dev.setFlow (d : Dev) (i : Nat) (x : Flow) : Dev := d.modMedia fun m => { m with flows := Tbl.set {} m.flows i x }
/-- Egress `e`: transmit flows 0 to 1023, SDI transmitters from 1024. -/
def Dev.egr (d : Dev) (e : Nat) : Egress := Tbl.get {} d.media.egress e
def Dev.setEgr (d : Dev) (e : Nat) (x : Egress) : Dev := d.modMedia fun m => { m with egress := Tbl.set {} m.egress e x }
def Dev.modEgr (d : Dev) (e : Nat) (f : Egress → Egress) : Dev := d.setEgr e (f (d.egr e))

/-- Count on a port, an engine, a flow; flow counters: 0 PKT, 1 LOST, 2 DUP, 3 LATE, 4 LEGA_LOST, 5 LEGB_LOST, 6 SUBST (R224). -/
def Dev.countEth (d : Dev) (n k : Nat) (m : Nat := 1) : Dev := let x := d.eth n; d.setEth n { x with cnt := Tbl.modify {} x.cnt k (·.bumpBy m) }
def Dev.countSdi (d : Dev) (n k m : Nat) : Dev := let x := d.sdi n; d.setSdi n { x with cnt := Tbl.modify {} x.cnt k (·.bumpBy m) }
def Dev.countFlow (d : Dev) (i k m : Nat) : Dev := let x := d.flow i; d.setFlow i { x with cnt := Tbl.modify {} x.cnt k (·.bumpBy m) }

/-- The event of a flow's group (R221). -/
def flowEvent (i : Nat) : Nat := 392 + i % 1024 / 32

-- endpoint references (R215)

/-- The egress that a drain's or route's reference names: a flow, an SDI transmitter, or what that transmitter inserts as ANC. -/
def refEgress (r : EndRef) : Option Nat :=
  if refKind r = 1 ∧ refNum r < 1024 then some (refNum r)
  else if refKind r = 2 ∧ refNum r < 32 then some (1024 + refNum r)
  else if refKind r = 6 ∧ refNum r < 32 then some (1056 + refNum r)
  else none

/-- Late groups of an ingress are counted on its flow or engine, with the event (R209, R212, R221). -/
def Dev.lateGroups (d : Dev) (r : EndRef) (n : Nat) : Dev :=
  if n = 0 then d
  else if refKind r = 1 then (d.countFlow (refNum r) 3 n).raise (flowEvent (refNum r))
  else if refKind r = 3 then d
  else (d.countSdi (refNum r) 1 n).raise (360 + refNum r)

-- formats

/-- A format: code, sampling or channels, bits, and for VIDEO its raster. -/
structure Fmt where
  fmt : Nat
  samp : Nat
  b : Nat
  width : Nat := 0
  height : Nat := 0
  rate : Nat := 0
  interlaced : Bool := false
  deriving DecidableEq, Repr

/-- Width, height and interlace of SDI_TXFMT.RASTER (R223). -/
def sdiRaster (code : Nat) : Nat × Nat × Bool :=
  match code with
  | 1 => (1920, 1080, true) | 3 => (3840, 2160, false) | 4 => (7680, 4320, false) | _ => (1920, 1080, false)

/-- The whole raster of a format, in samples per line, lines per frame, and lines before the first active line of each field (log
entry 23: SMPTE's rasters; a format without one has its active lines alone, R208). -/
def totals (f : Fmt) : Nat × Nat × Nat × Nat :=
  let k := f.width / 1920
  if f.height = 1080 * k ∧ f.width = 1920 * k ∧ (k = 1 ∨ k = 2 ∨ k = 4) then
    let w := if f.rate ≤ 1 then 2750 else if f.rate = 2 ∨ f.rate = 5 ∨ f.rate = 8 then 2640 else 2200
    (w * k, 1125 * k, if f.interlaced then 20 else 41 * k, if f.interlaced then 583 else 0)
  else (f.width, f.height, 0, f.height / 2)

/-- The raster line of an active line of the frame. -/
def rasterLine (f : Fmt) (line : Nat) : Nat :=
  let (_, _, a, b) := totals f
  if f.interlaced then (if line % 2 = 0 then a + line / 2 else b + line / 2) else a + line

/-- Groups of a line (R208). -/
def lineGroups (f : Fmt) : Nat := if f.fmt = 1 then ceilDiv f.width 64 else 1

/-- The start of sample s of raster line l of frame k, in device time: frames are aligned to the PTP epoch (R198, R208). -/
def rasterTime (f : Fmt) (k l s : Nat) : Instant :=
  let (w, h, _, _) := totals f
  let (num, den) := frameRate f.rate
  ((k * h + l) * w + s) * (10 ^ 9 * ns * den) / (num * h * w)

/-- The share of the frame time that the active lines take, and the default TRoffset as a share of it, of ST 2110-21 (R206; PRESUMED from that
standard, log entry 143). -/
def activeShare (f : Fmt) : Nat × Nat :=
  if !f.interlaced ∨ 1080 ≤ f.height then (1080, 1125) else if 576 ≤ f.height then (576, 625) else (487, 525)
def troDefault (f : Fmt) : Nat × Nat :=
  if f.interlaced then (if 1080 ≤ f.height then (22, 1125) else if 576 ≤ f.height then (26, 625) else (20, 525))
  else if 1080 ≤ f.height then (43, 1125) else (28, 750)

/-- Sample instants per second of an audio format (R202). -/
def audioRate (f : Fmt) : Nat := if f.rate = 1 then 96000 else 48000

/-- A place in a raster: frame, line, group, last of its line, nominal time. -/
structure Spot where
  frame : Nat
  line : Nat
  index : Nat
  last : Bool
  time : Instant
  deriving DecidableEq, Repr

/-- TRoffset of a video flow: the record's, or the default of ST 2110-21 for 0 (R202; log entry 143). -/
def trOffset (f : Fmt) (troff : Nat) : Nat :=
  let (num, den) := frameRate f.rate
  if troff = 0 then (troDefault f).1 * (10 ^ 9 * ns * den) / ((troDefault f).2 * num) else troff * ns

/-- The groups of an IP transmit flow with scheduled release in [a, b) (R206, R208): each field's groups follow evenly from its alignment time
plus TRoffset, over the share of active lines (sender type N) or over the whole field (NL and W); each group is a packet of its own (PRESUMED and
DESIGN CHOICE, log entry 143). -/
def ipSpots (f : Fmt) (linear : Bool) (troff : Nat) (a b : Instant) : List Spot :=
  let (num, den) := frameRate f.rate
  let fields := if f.interlaced then 2 else 1
  let frame := 10 ^ 9 * ns * den
  let tro := trOffset f troff
  let (p, q) := if linear then (1, 1) else activeShare f
  let g := lineGroups f
  let first := (a - tro) * (num * fields) / frame - 1
  (List.range ((b - a) * (num * fields) / frame + 3)).flatMap fun i =>
    let k := first + i
    let field := k % fields
    let total := (f.height + fields - 1 - field) / fields * g
    let step := num * fields * total * q
    let start := k * frame / (num * fields) + tro
    let lo := (a - start) * step / (frame * p)
    ((List.range (min total ((b - start) * step / (frame * p) + 1) - lo)).map fun i =>
      ({ frame := k / fields, line := (lo + i) / g * fields + field, index := (lo + i) % g, last := (lo + i) % g + 1 == g,
         time := start + (lo + i) * (frame * p) / step } : Spot)).filter fun s => decide (a ≤ s.time ∧ s.time < b)

/-- The groups of a format whose nominal times lie in [a, b), in raster order (R208, R209). -/
def spots (f : Fmt) (a b : Instant) : List Spot :=
  if f.fmt = 1 then
    let (w, h, _, _) := totals f
    let (num, den) := frameRate f.rate
    if w = 0 ∨ h = 0 then []
    else
      let first := a * (num * h) / (10 ^ 9 * ns * den)
      let count := b * (num * h) / (10 ^ 9 * ns * den) + 1 - first
      (List.range count).flatMap fun i =>
        let k := (first + i) / h
        let l := (first + i) % h
        match (List.range f.height).find? fun line => rasterLine f line == l with
        | none => []
        | some line =>
          ((List.range (lineGroups f)).map fun j =>
            ({ frame := k, line, index := j, last := j + 1 == lineGroups f, time := rasterTime f k l (64 * j) } : Spot)).filter
            fun s => decide (a ≤ s.time ∧ s.time < b)
  else if f.fmt = 2 ∨ f.fmt = 3 then
    let r := audioRate f
    let first := ceilDiv (a * r) (10 ^ 9 * ns)
    let stop := ceilDiv (b * r) (10 ^ 9 * ns)
    (List.range (stop - first)).map fun i => { frame := 0, line := 0, index := 0, last := true, time := (first + i) * (10 ^ 9 * ns) / r }
  else []

/-- The peak of a format: ceil(T_beat / Δ) for a beat of `t` ns (R209). -/
def peakOf (f : Fmt) (t : Nat) : Nat :=
  if f.fmt = 1 then
    let (w, h, _, _) := totals f
    let (num, den) := frameRate f.rate
    ceilDiv (t * (w * h * num)) (64 * 10 ^ 9 * den)
  else if f.fmt = 2 ∨ f.fmt = 3 then ceilDiv (t * audioRate f) (10 ^ 9)
  else 0

/-- The ordinal of a group (R214): counted within a field for interlaced formats. -/
def ordinal (f : Fmt) (line index : Nat) : Nat := (if f.interlaced then line / 2 else line) * lineGroups f + index

/-- The replica that DIV gives a group to; none where every replica has it (R214). -/
def divReplica (f : Fmt) (div r line index : Nat) : Option Nat :=
  match div with
  | 1 => some (ordinal f line index % r)
  | 2 => some (line % r)
  | _ => none

-- flow records (R202, R203)

def parseLeg (bs : Bytes) : Leg where
  port := leAt bs 0 1
  sub := leAt bs 1 1
  vlan := leAt bs 2 2
  ipver := leAt bs 4 1
  pt := leAt bs 5 1
  dport := leAt bs 6 2
  sport := leAt bs 8 2
  dmac := BitVec.ofNat 48 (leAt bs 10 6)
  dscp := leAt bs 53 1
  daddr := BitVec.ofNat 128 (leAt bs 16 16)
  saddr := BitVec.ofNat 128 (leAt bs 32 16)
  ssrc := leAt bs 48 4
  isSet := bs.any (· != 0)
  rsvOk := zeroRange bs 52 1 && zeroRange bs 54 10 && leAt bs 53 1 < 64 && leAt bs 2 2 < 8192

/-- The destination MAC of a leg, first octet lowest: all zero derives it from a multicast DADDR (R203), 01:00:5E with 23 bits of an IPv4 address,
33:33 with 32 bits of an IPv6 one (PRESUMED, RFC 1112 and RFC 2464, log entry 144); of a unicast one nothing is derived. -/
def Leg.mac (l : Leg) : BitVec 48 :=
  let a := l.daddr.toNat
  if l.dmac ≠ 0 then l.dmac
  else if l.ipver = 4 then
    (if 224 ≤ fld a 0 8 ∧ fld a 0 8 < 240 then
      BitVec.ofNat 48 (0x01 + 0x5E * 2 ^ 16 + fld a 8 7 * 2 ^ 24 + fld a 16 8 * 2 ^ 32 + fld a 24 8 * 2 ^ 40) else 0)
  else if fld a 0 8 = 0xFF then BitVec.ofNat 48 (0x3333 + fld a 96 32 * 2 ^ 16) else 0

def parseFlow (bs : Bytes) : FlowRec where
  dir := leAt bs 0 1
  fmt := leAt bs 1 1
  flow := leAt bs 2 2
  width := leAt bs 4 2
  height := leAt bs 6 2
  rate := leAt bs 8 1
  samp := leAt bs 9 1
  depth := leAt bs 0x0A 1
  vflags := leAt bs 0x0B 1
  ptime := leAt bs 0x0C 4
  legA := parseLeg (slice bs 0x10 64)
  legB := parseLeg (slice bs 0x50 64)
  mclass := leAt bs 0x90 1
  diff := leAt bs 0x94 4
  region := leAt bs 0x98 1
  queue := leAt bs 0x9A 2
  offs := leAt bs 0x9C 4
  pacing := leAt bs 0xA0 1
  safe := leAt bs 0xA1 1
  bypass := leAt bs 0xA2 2
  troff := leAt bs 0xA4 4
  rsvOk := zeroRange bs 0x91 3 && zeroRange bs 0x99 1 && zeroRange bs 0xA8 88

/-- The source of BYPASS: a receive flow or an SDI engine (R202). -/
def FlowRec.bypassRef (r : FlowRec) : EndRef := BitVec.ofNat 32 (if 0x8000 ≤ r.bypass then 2 * 2 ^ 28 + r.bypass % 2 ^ 15 else 2 ^ 28 + r.bypass)

/-- The format of a flow record: AUDIO channels stand as its sampling, as in binding records (R213). -/
def FlowRec.format (r : FlowRec) : Fmt :=
  match r.fmt with
  | 1 => { fmt := 1, samp := r.samp, b := r.depth, width := r.width, height := r.height, rate := r.rate, interlaced := bitOf r.vflags 0 }
  | 2 => { fmt := 2, samp := r.width, b := if r.samp = 1 then 24 else 16, rate := r.rate }
  | 3 => { fmt := 3, samp := r.width, b := 32 }
  | k => { fmt := k, samp := 0, b := 0 }

/-- A rate above `g` tenths of 1 Gb/s. -/
def FlowRec.above (r : FlowRec) (g : Nat) : Bool :=
  let (bits, num, den) := r.payload
  decide (g * 10 ^ 8 * den < bits * num)

-- formats of endpoints

/-- The engine works on its own: it is not one of the three that a quad-link group takes (R199). -/
def Dev.sdiAlone (d : Dev) (s : Nat) : Bool := s % 4 == 0 || !(d.sdi (s / 4 * 4)).quad
/-- An engine as its configuration counts: that of the other three engines of a quad-link group is ignored (R199). -/
def Dev.engine (d : Dev) (s : Nat) : SdiEngine := if d.sdiAlone s then d.sdi s else {}

/-- The lanes of one direction of an engine: of a quad-link group four, from the one in SDI_LANES on (R199; DESIGN CHOICE, log entry 177). -/
def linkLanes (quad : Bool) (l : Nat) : List Nat := if quad then (List.range 4).map (l + ·) else [l]
/-- The lanes that an engine's enabled receiver, and its enabled transmitter, use as its configuration counts (R191, R199). -/
def Dev.rxLanes (d : Dev) (s : Nat) : List Nat := let x := d.engine s; if x.rxen then linkLanes x.quad x.rxlane.toNat else []
def Dev.txLanes (d : Dev) (s : Nat) : List Nat := let x := d.engine s; if x.txen then linkLanes x.quad x.txlane.toNat else []

/-- The format that a flow or an SDI engine delivers. -/
def Dev.portFormat (d : Dev) (r : EndRef) : Option Fmt :=
  let n := refNum r
  let e := d.engine n
  match refKind r with
  | 1 => if n < 1024 ∧ (d.flow n).opened then some (d.flow n).record.format else none
  | 2 =>
    let (w, h, i) := sdiRaster e.raster.toNat
    if n < 32 ∧ e.rxen then some { fmt := 1, samp := e.rxsamp.toNat, b := 10, width := w, height := h, rate := e.frate.toNat, interlaced := i } else none
  | 5 => if n < 32 ∧ e.rxen then some { fmt := 2, samp := 32, b := 24 } else none
  | 6 => if n < 32 ∧ e.rxen then some { fmt := 4, samp := 0, b := 0 } else none
  | _ => none

/-- The format of an open frame store: that of what a feed of an admitted function writes to it (R184, R215; DEDUCED, log entry 182). -/
def Dev.storeFormat (d : Dev) (n : Nat) : Option Fmt :=
  if 64 ≤ n ∨ !(Tbl.get ({} : FrameStore) d.cellar.frames n).opened then none
  else d.admitted.findSome? fun f => f.obj.bindings.findSome? fun b =>
    let w := Tbl.get 0 f.ends.regions b.fsidx
    if b.type = 1 ∧ b.target = 1 ∧ w.getLsbD 31 ∧ fld w.toNat 16 8 % 64 = n then d.portFormat (Tbl.get 0 f.ends.feeds b.num) else none

/-- The format that an ingress reference delivers (R215). -/
def Dev.inFormat (d : Dev) (r : EndRef) : Option Fmt := if refKind r = 3 then d.storeFormat (refNum r) else d.portFormat r

/-- The format of an egress (R198, R202). -/
def Dev.outFormat (d : Dev) (e : Nat) : Option Fmt :=
  if e < 1024 then (if (d.flow (1024 + e)).opened then some (d.flow (1024 + e)).record.format else none)
  else
    let x := d.engine ((e - 1024) % 32)
    let (w, h, i) := sdiRaster x.txRaster.toNat
    if 1088 ≤ e ∨ !x.txen then none
    else if 1056 ≤ e then some { fmt := 4, samp := 0, b := 0 }
    else some { fmt := 1, samp := x.txSamp.toNat, b := 10, width := w, height := h, rate := x.txFrate.toNat, interlaced := i }

/-- The format that an egress reference takes; a fabric hub port takes words as ANC (R213, R215). -/
def Dev.refOut (d : Dev) (r : EndRef) : Option Fmt :=
  if refKind r = 4 then (if refNum r < 64 then some { fmt := 4, samp := 0, b := 0 } else none) else (refEgress r).bind d.outFormat

/-- The record's format agrees with an endpoint's (R215). De-embedded audio has as many channels as the record binds, up to 64. -/
def fmtMatches (kind : Nat) (b : BindRec) (f : Fmt) : Bool :=
  b.fmt == f.fmt && b.b == f.b && (if kind = 5 then decide (b.samp ≤ 64) else b.samp == f.samp || b.fmt == 3 || b.fmt == 4)

/-- Ingress and egress latency of an SDI rate in ns, by STATUS.RATE (R200). -/
def sdiIngress (rate : Nat) : Nat := match rate with | 5 => 320 | 4 => 400 | 2 | 3 => 560 | _ => 960
def sdiEgress (txrate : Nat) : Nat := match txrate with | 3 => 160 | 2 => 200 | 1 => 280 | _ => 480

/-- OFF_RX of an ingress (R209); a frame store lies inside the device and has no ingress latency (log entry 182). -/
def Dev.offRx (d : Dev) (r : EndRef) : Nat :=
  if refKind r = 1 then
    let x := (d.flow (refNum r)).record
    (x.offs + (if x.merged then x.diff * 1000 else 0)) * ns
  else if refKind r = 3 then 128 * ns
  else (sdiIngress (d.sdi (refNum r)).rate.toNat + 128) * ns

/-- 64 steps in units of device time (R67). -/
def Dev.steps64 (d : Dev) : Nat := if d.ident.slowStep then 64 * ns else 64 * ns * 4 / 5

/-- OFF_TX of an egress (R209). -/
def Dev.offTx (d : Dev) (e : Nat) : Nat :=
  if e < 1024 then (d.flow (1024 + e)).record.offs * ns else d.steps64 + (128 + sdiEgress (d.engine ((e - 1024) % 32)).txrate.toNat) * ns

/-- TXOFFSET of an SDI transmitter, added to its frame alignment (R198); a flow's TRoffset stands in its release times (R206). -/
def Dev.alignOffset (d : Dev) (e : Nat) : Int := if e < 1024 then 0 else (d.engine ((e - 1024) % 32)).txoffset.toInt * (ns : Int)

/-- The groups of an egress's own raster with nominal times in [a, b) (R208). -/
def Dev.rasterSpots (d : Dev) (e : Nat) (fm : Fmt) (a b : Instant) : List Spot :=
  let r := (d.flow (1024 + e)).record
  if e < 1024 ∧ fm.fmt = 1 then ipSpots fm (r.pacing != 0) r.troff a b else spots fm a b

/-- The first frame alignment of an egress at or after an instant (R198, R243). -/
def Dev.nextAlign (d : Dev) (e : Nat) (fm : Fmt) (t : Instant) : Instant :=
  let (num, den) := frameRate fm.rate
  let frame := 10 ^ 9 * ns * den
  let off := d.alignOffset e
  (((ceilDiv (((t : Int) - off).toNat * num) frame * frame / num : Nat) : Int) + off).toNat

-- nominal times of what arrives (R208)

/-- The device time nearest to now at which a media clock of `r` ticks a second reads a timestamp, as SMPTE ST 2110-10 has it: its ticks are counted
from the epoch of device time. -/
def mediaTime (now : Instant) (r : Nat) (ts : BitVec 32) : Instant :=
  let k : Nat := now * r / (10 ^ 9 * ns)
  ceilDiv (((k : Int) + (ts - BitVec.ofNat 32 k).toInt).toNat * (10 ^ 9 * ns)) r

/-- How long after active line 0 begins a sample of an active line stands in the raster. -/
def sampleAfter (f : Fmt) (line s : Nat) : Nat := rasterTime f 0 (rasterLine f line) s - rasterTime f 0 (rasterLine f 0) 0
/-- The last sample of a group of a line. -/
def lastSample (f : Fmt) (index : Nat) : Nat := min (64 * (index + 1)) f.width - 1

/-- The nominal time of a group's last sample (R208, R209): of an SDI source its timestamp at the SDI boundary, which comes with it; of IP video the
sample's place in the raster, whose active line 0 begins at the alignment time plus TRoffset; of IP audio the sample instant. A packet of ANC or of a
COMPRESSED flow has its frame's alignment time (DESIGN CHOICE, log entry 183). -/
def Dev.nominal (d : Dev) (ref : EndRef) (fm : Fmt) (g : FedGroup) : Instant :=
  if refKind ref ≠ 1 then g.lastNominal
  else match fm.fmt with
    | 1 => mediaTime d.now 90000 g.rtp + trOffset fm (d.flow (refNum ref)).record.troff + sampleAfter fm g.line.toNat (lastSample fm g.index.toNat)
    | 2 | 3 => mediaTime d.now (audioRate fm) g.rtp
    | _ => mediaTime d.now 90000 g.rtp

/-- The transmit lanes of a mirrored pair's secondary are asleep (R279). -/
def Dev.egressMuted (d : Dev) : Bool := d.link.mirror != .off && d.link.secondary && !d.link.egressActive && !d.link.secegress

end Sys2Proof.Machine
end

