-- ==== Sys2Proof/Machine/Time.lean ====
section
/-! DEFINITION. The time unit and the beat generator's commands and registers (08_time.md R225 to R249). -/

namespace Sys2Proof.Machine
open Sys2Proof

def Dev.modTime (d : Dev) (f : TimeUnit → TimeUnit) : Dev := { d with time := f d.time }
def Dev.countTime (d : Dev) (n : Nat) : Dev := d.modTime fun t => { t with cnt := bumpAt t.cnt n }

/-- Steps of a beat of a length in 8 ns units (R67, R69). -/
def Dev.stepsOf (d : Dev) (units : Int) : Nat :=
  let ns := (8 * units).toNat
  (if d.ident.slowStep then ns else ns * 5 / 4) - 8

/-- INCR limits (R226). -/
abbrev incrMin : Nat := 0x1FFF583A6
abbrev incrMax : Nat := 0x2000A7C5A

/-- A new INCR, clamped to its limits: a clamp shows in TIME_STATE, is counted and raises EV0583 (R226). -/
def Dev.setIncr (d : Dev) (v : Nat) : Dev :=
  let w := max incrMin (min incrMax v)
  let d := d.modTime fun t => { t with incr := w, clamp := w != v }
  if w = v then d else (d.countTime 1).raise 583

/-- The mean of INCR over the last 60 s of the LOCKED period that ends now (R230): each value weighs by the time it stood. -/
def meanOf (now : Instant) (log : List (Instant × Nat)) : Option Nat :=
  let from_ := now - 60 * 10 ^ 9 * ns
  let rec go : Instant → List (Instant × Nat) → Nat × Nat
    | _, [] => (0, 0)
    | stop, (t, v) :: rest =>
      let a := max t from_
      let w := stop - a
      let (s, n) := if t ≤ from_ then (0, 0) else go t rest
      (s + v * w, n + w)
  let (s, n) := go now log
  if n = 0 then none else some (s / n)

/-- LOCKED ends: the mean of INCR over its last 60 s stays for a later HOLDOVER (R230). -/
def Dev.keepMean (d : Dev) : Dev :=
  if d.time.servo = .locked then d.modTime fun t => { t with meanIncr := (meanOf d.now t.incrLog).or t.meanIncr, incrLog := [] } else d

/-- The servo enters a state, with EV0576 on a change and EV0578 on HOLDOVER (R248). -/
def Dev.setServo (d : Dev) (x : Servo) : Dev :=
  if d.time.servo = x then d
  else
    let d := (d.keepMean.modTime fun t => { t with servo := x, good := 0 }).raise 576
    if x = .holdover then d.raise 578 else d

/-- HOLDOVER (R230): INCR is held at its mean over the last 60 s of LOCKED, or at its nominal value. -/
def Dev.holdover (d : Dev) : Dev :=
  let d := d.keepMean
  let incr := d.time.meanIncr.getD 0x200000000
  (d.modTime fun t => { t with incr, incrBase := incr, incrAt := d.now }).setServo .holdover

/-- A nominal time of an egress's raster after a step, where it still stands in the raster (R243): up to the alignment `a` it moves by the step; what
would lie beyond it belongs to the new raster, at its own time, and is not emitted where that is past. -/
def steppedSpot (delta : Int) (a t : Instant) : Option Instant :=
  if movedBy delta t < a then some (movedBy delta t) else if a ≤ t then some t else none

/-- An egress after a step of device time (R243): its raster, the groups in it, and a flow's packets keep their physical timing up to the first
alignment of the stepped device time; positions that are repeated before it carry the safe state. AUDIO, AES3 and ANC have no frames: they move. -/
def Dev.stepEgress (delta : Int) (d : Dev) (e : Nat) : Dev :=
  match d.outFormat e with
  | none => d
  | some fm =>
    let x := d.egr e
    let a := if fm.fmt = 1 then d.nextAlign e fm d.now else d.now
    let spot (t : Instant) : Option Instant := if fm.fmt = 1 then steppedSpot delta a t else some (movedBy delta t)
    let again (t : Instant) : Bool := fm.fmt == 1 && decide (delta < 0 ∧ movedBy delta a ≤ t ∧ t < a)
    let d := d.setEgr e { x with shift := x.shift + delta, shiftFrom := d.now, emptyFrom := movedBy delta x.emptyFrom,
                                 routeNext := x.routeNext.map (fun c => { c with point := movedBy delta c.point }),
                                 queue := x.queue.filterMap fun i => (spot i.time).map fun t =>
                                   { i with time := t, shown := if again t then .subst 0 else i.shown } }
    if 1024 ≤ e then d
    else d.setFlow (1024 + e) { d.flow (1024 + e) with due := (d.flow (1024 + e)).due.filterMap fun p => (spot p.time).map fun t => { p with time := t } }

/-- The egresses that may emit: those in use, of transmit flows and of SDI transmitters. -/
def Dev.egresses (d : Dev) : List Nat :=
  (Tbl.keys d.media.egress ++ ((Tbl.keys d.media.flows).filter (1024 ≤ ·)).map (· - 1024) ++ (Tbl.keys d.media.sdi).map (1024 + ·)).eraseDups

/-- Device time is stepped (R228, R238, R243): boundaries and what else the device measures keep their place in physical time, rasters theirs until
their next alignment. -/
def Dev.stepTime (d : Dev) (delta : Int) : Dev :=
  let d := (d.putNow (movedBy delta d.now)).moveTimes (movedBy delta)
  (d.each d.egresses (Dev.stepEgress delta)).raise 580

/-- The generator is started on the counter (R239): the first boundary is the first multiple of T_beat at least 1 µs ahead. -/
def Dev.armStart (d : Dev) : Dev :=
  if !d.time.enabled ∨ d.time.run ∨ d.time.armed then d
  else
    let t := d.period
    let k := ceilDiv (d.now + 1000 * ns) t
    d.modTime fun x => { x with armed := true, next := k * t, first := BitVec.ofNat 64 k }

/-- A measured offset as TIME_OFFSET shows it, in ns, saturating (R249). -/
def satOffset (o : Int) : Int := max (-(2 ^ 31 - 1 : Int)) (min (2 ^ 31 - 1 : Int) (o / (ns : Int)))

/-- The INCR that the servo asks for, of two open values (R231): while LOCKED its frequency part moves by at most 0.1 ppm for each second since the last
change, and at most 5 ppm of 2 ns slew the phase out; else the whole range is available. The parts are in units of 2^-32 ns. -/
def Dev.servoAsk (d : Dev) : Nat × Nat :=
  let t := d.time
  let ask := Config.servoIncr d.free
  let phase := Config.servoIncr (d.free + 1)
  if t.servo ≠ .locked then (ask, ask)
  else
    let most := (d.now - t.incrAt) * 2 ^ 33 / (10 ^ 7 * (10 ^ 9 * ns))
    let base := max (t.incrBase - most) (min (t.incrBase + most) ask)
    (base, max (base - 42949) (min (base + 42949) phase))

/-- SERVO_MEASUREMENT (R230, R231): an offset measured from the source, device time less the source's as R268 has it, in units of device time. The
first is applied as a step; one beyond the jump threshold is refused; others are slewed, with an INCR the spec leaves to the servo. -/
def Dev.servoMeasurement (o : Int) (d : Dev) : Dev :=
  if d.time.src = 0 then d
  else
    let d := d.modTime fun t => { t with offset := satOffset o, sourcePresent := true }
    if !d.time.lockedOnce then
      let d := ((d.stepTime (-o)).modTime fun t => { t with lockedOnce := true }).setServo .locking
      if d.time.src = 3 then d else d.armStart
    else if o.natAbs > d.time.thresh.toNat * ns then
      let d := (d.modTime fun t => { t with refusing := true, refusedOffset := -o }).raise 577
      (d.countTime 0).holdover
    else
      let d := d.modTime fun t => { t with refusing := false }
      let was := d.time.servo
      let d := if was = .holdover ∨ was = .free then d.setServo .locking else d
      let good := if o.natAbs < 100 * ns then d.time.good + 1 else 0
      let d := if d.time.servo = .locking then
          (if 16 ≤ good then d.setServo .locked else d.modTime fun t => { t with good }) else d
      let (base, ask) := d.servoAsk
      let d := ((d.take 2).modTime fun t => { t with incrBase := base, incrAt := d.now }).setIncr ask
      if d.time.servo = .locked then d.modTime fun t => { t with incrLog := (d.now, t.incr) :: t.incrLog } else d
def execServoMeasurement (offset : Int) (s : State) : Host.Outcome State Fault Refusal := run true (Dev.servoMeasurement offset) s

/-- After a TIME_SET (R233): LOCKEDONCE, the servo's new state, the generator's start (R239). -/
def Dev.afterSet (d : Dev) : Dev :=
  let d := d.modTime fun t => { t with lockedOnce := true, refusing := false }
  let d := if d.time.sourcePresent ∧ d.time.src ≠ 0 then d.setServo .locking else d.holdover
  d.armStart

/-- A signed number of ns as 64 bits (R350). -/
def signedNs (delta : Int) : Nat := (BitVec.ofInt 64 (delta / (ns : Int))).toNat

/-- TIME_SET in one of its modes (R233, R347). -/
def Dev.timeSet (mode : Nat) (x : DescRef) (d : Dev) : Dev :=
  match d.startable x 0x60 with
  | none => d
  | some e =>
    if dfld e.desc 0x18 1 ≠ mode then d
    else
      let d := d.start x
      let abs_ : Int := ((dfld e.desc 0x20 6 * 10 ^ 9 + dfld e.desc 0x28 4) * ns + dfld e.desc 0x2C 4 : Nat)
      let delta : Int := match mode with
        | 0 => abs_ - (d.now : Int)
        | 1 => (BitVec.ofNat 64 (dfld e.desc 0x20 8)).toInt * (ns : Int)
        | _ => d.time.refusedOffset
      if mode = 2 ∧ !d.time.refusing then d.finish x 2 0
      else
        let was := d.now
        let d := (d.stepTime delta).afterSet
        d.finishOk x 0 (signedNs ((d.now : Int) - was))
def execTimeSetAbsolute (x : DescRef) (s : State) : Host.Outcome State Fault Refusal := run true (Dev.timeSet 0 x) s
def execTimeSetStep (x : DescRef) (s : State) : Host.Outcome State Fault Refusal := run true (Dev.timeSet 1 x) s
def execTimeSetAccept (x : DescRef) (s : State) : Host.Outcome State Fault Refusal := run true (Dev.timeSet 2 x) s

/-- A write of TIME_INCR_INT (R226, R249): it applies both words, only while SRC = 0. -/
def Dev.writeIncr (d : Dev) (v : Word) : Dev :=
  if d.time.src = 0 then d.setIncr (v.toNat % 256 * 2 ^ 32 + d.time.incrFrac.toNat) else d
def execIncrWrite (q : Requester) (v : Word) (s : State) : Host.Outcome State Fault Refusal :=
  run true (fun d => if d.isPf q then d.writeIncr v else d) s

/-- A write of TIME_BEAT_PERIOD (R66, R240): ignored outside the range, while a function is admitted, or while a change is pending. It waits for the
boundary of its target beat, or for the next one; while no boundary has been, for the first. -/
def Dev.writePeriod (d : Dev) (v : Word) : Dev :=
  let p := v.toNat % 2 ^ 14
  if p < 64 ∨ 8192 < p ∨ !d.admitted.isEmpty ∨ d.time.pendPeriod.isSome then d
  else
    let tgt := if !d.time.run ∨ d.time.n < d.time.pertgt then d.time.pertgt else d.time.n + 1
    d.modTime fun t => { t with pendPeriod := some (BitVec.ofNat 14 p, tgt) }
def execPeriodWrite (q : Requester) (v : Word) (s : State) : Host.Outcome State Fault Refusal :=
  run true (fun d => if d.isPf q then d.writePeriod v else d) s

/-- FREESTART (R5, R239): accepted only while the generator does not run. -/
def Dev.freestart (d : Dev) : Dev := if d.time.run then d.ignore 4 else d.armStart
def execFreestart (q : Requester) (s : State) : Host.Outcome State Fault Refusal :=
  run true (fun d => if d.isPf q then d.freestart else d) s

/-- REF_LOSS (R227): the selected 10 MHz input is lost. REFLOSS is live and the table has no row for the input's return: the command tells that the
input's presence changes, so while REFLOSS stands it is the return (DESIGN CHOICE, log entry 158). -/
def Dev.refLoss (d : Dev) : Dev :=
  if !d.time.ref10 then d
  else if d.time.refloss then d.modTime fun t => { t with refloss := false }
  else (d.modTime fun t => { t with refloss := true }).raise 585
def execRefLoss (s : State) : Host.Outcome State Fault Refusal := run true Dev.refLoss s
/-- REF_HOLDOVER_END (R227): the synthesiser moves to the system clock. -/
def execRefHoldoverEnd (s : State) : Host.Outcome State Fault Refusal :=
  run true (fun d => if d.time.ref10 ∧ d.time.refloss ∧ !d.time.refMoved then (d.modTime fun t => { t with refMoved := true }).raise 585 else d) s

-- best master selection (R232, R234)

/-- A data set as the comparison of IEEE 1588-2019 ranks it: the smaller is the better. -/
def dataKey (x : DataSet) : Nat :=
  (((x.prio1.toNat * 2 ^ 32 + x.quality.toNat) * 2 ^ 8 + x.prio2.toNat) * 2 ^ 64 + x.gmId.toNat) * 2 ^ 16 + x.steps.toNat

/-- The device's own data set (R232): its priorities; as quality what IEEE 1588-2019 gives a clock without a reference of its own (PRESUMED, log entry
152). -/
def TimeUnit.ownData (t : TimeUnit) : DataSet := { prio1 := t.prio1, quality := 0xF8FEFFFF, prio2 := t.prio2, gmId := Config.clockId }

/-- The enabled subport with the best data set, where that is better than the device's own. -/
def TimeUnit.slavePort (t : TimeUnit) : Option (Nat × DataSet) :=
  t.ports.foldl (fun acc (k, p) => match p.best with
    | some x => if p.en ∧ dataKey x < dataKey ((acc.map (·.2)).getD t.ownData) then some (k, x) else acc
    | none => acc) none

/-- Best master selection (R232, R234): the best data set that is better than the device's own makes its subport SLAVE, the others that hear the same
grandmaster PASSIVE, every other enabled one MASTER. A change of grandmaster raises EV0579. -/
def Dev.chooseMaster (d : Dev) : Dev :=
  let best := d.time.slavePort
  let role (k : Nat) (p : TimePort) : BitVec 2 :=
    if !p.en then 0
    else match best with
      | some (j, x) => if j = k then 2 else if p.best.map (·.gmId) = some x.gmId then 3 else 1
      | none => 1
  let gm := best.map (·.2.gmId)
  let was := d.time.grandmaster
  let d := d.modTime fun t => { t with ports := t.ports.map fun (k, p) => (k, { p with role := role k p }), grandmaster := gm }
  if gm = was then d else d.raise 579

/-- SOURCE_LOSS (R230): a LOCKED servo whose source is lost enters HOLDOVER; the master of a PTP source is no longer heard (R232). -/
def Dev.sourceLoss (d : Dev) : Dev :=
  let d := d.modTime fun t => { t with sourcePresent := false }
  let d := match d.time.src.toNat, d.time.slavePort with
    | 1, some (k, _) => (d.modTime fun t => { t with ports := Tbl.modify {} t.ports k fun p => { p with best := none } }).chooseMaster
    | _, _ => d
  if d.time.servo = .locked then d.holdover else d
def execSourceLoss (s : State) : Host.Outcome State Fault Refusal := run true Dev.sourceLoss s

/-- A rising edge of the PPS input: under SRC = PPS one more than 1.5 s after the one before shows a loss, if none shows already (R245). -/
def Dev.ppsEdge (d : Dev) : Dev :=
  let pps : Bool := d.time.src == 2
  let late : Bool := pps && d.time.lastPps.any fun t => decide (t + 1500000000 * ns < d.now)
  let was := d.time.ppsloss
  let d := d.modTime fun x => { x with lastPps := some d.now, ppsloss := if pps then late else x.ppsloss }
  if late ∧ !was then (d.raise 586).holdover else d

/-- An armed unit whose trigger is TRIG input `i` takes the first edge's timestamp (R398, R402). -/
def AcqUnit.edge (i : Nat) (t : Instant) (x : AcqUnit) : AcqUnit :=
  if x.phase == .armed && x.arm.tkind == 2 && x.arm.tnum == i && x.hit.isNone then { x with hit := some t } else x

/-- TDC_EDGE (R244, R245): a configured edge is timestamped to 1/64 ns; a full FIFO drops it. -/
def Dev.tdcEdge (i : BitVec 4) (falling : Bool) (d : Dev) : Dev :=
  let t := Tbl.get ({} : Tdc) d.time.tdc i.toNat
  let on := t.en || (i == 8 && d.time.src == 2)
  let take := match t.edge.toNat with | 0 => !falling | 1 => falling | 2 => true | _ => false
  let d := if i = 8 ∧ !falling then d.ppsEdge else d
  let e : TdcEntry := { time := d.now / 2 ^ 26 * 2 ^ 26, falling }
  let d := if on && take then d.putAcq (Tbl.mapAll {} d.acq (AcqUnit.edge i.toNat e.time)) else d
  if !on ∨ !take then d
  else if 16 ≤ t.fifo.length then d.countTime 2
  else
    let d := d.modTime fun x => { x with tdc := Tbl.set {} x.tdc i.toNat { t with fifo := t.fifo ++ [e] } }
    if t.fifo.isEmpty then d.raise (588 + i.toNat) else d
def execTdcEdge (i : BitVec 4) (falling : Bool) (s : State) : Host.Outcome State Fault Refusal := run (tdcOk i) (Dev.tdcEdge i falling) s

/-- TDC_POP (R249). -/
def Dev.popTdc (d : Dev) (i : Nat) : Dev :=
  d.modTime fun t => { t with tdc := Tbl.modify {} t.tdc i fun x => { x with fifo := x.fifo.drop 1 } }
def execTdcPop (q : Requester) (i : BitVec 4) (s : State) : Host.Outcome State Fault Refusal :=
  run (tdcOk i) (fun d => if d.isPf q then d.popTdc i.toNat else d) s

/-- PPS_OUT_EDGE (R245): the output's edge comes when device time plus OFFSET reaches the next whole second, and falls
WIDTH µs later; a WIDTH of 0 acts as 1 (R5, R249). -/
def Dev.ppsOutEdge (d : Dev) : Dev :=
  if !d.time.ppsEn then d
  else
    let off : Int := d.time.ppsOffset.toInt * (ns : Int)
    let sec : Int := 10 ^ 9 * (ns : Int)
    let t := ((((d.now : Int) + off) / sec + 1) * sec - off).toNat
    (d.reach t).emit (.pps t (t + max 1 d.time.ppsWidth.toNat * 1000 * ns))
def execPpsOutEdge (s : State) : Host.Outcome State Fault Refusal := run true Dev.ppsOutEdge s

/-- PPS_LOSS (R245): 1.5 s have passed since the last edge of the PPS input under SRC = PPS. -/
def Dev.ppsLoss (d : Dev) : Dev :=
  match d.time.lastPps with
  | none => d
  | some t =>
    if d.time.src ≠ 2 ∨ d.time.ppsloss then d
    else (((d.reach (t + 1500000000 * ns)).modTime fun x => { x with ppsloss := true, sourcePresent := false }).raise 586).holdover
def execPpsLoss (s : State) : Host.Outcome State Fault Refusal := run true Dev.ppsLoss s

/-- An Announce of the device's domain reaches an enabled subport (R232, R234): it stands there where it is better than what stands, or newer of the
same grandmaster. -/
def Dev.announce (d : Dev) (k : Nat) (m : PtpMsg) : Dev :=
  let p := Tbl.get ({} : TimePort) d.time.ports k
  let take : Bool := match p.best with | some x => x.gmId == m.data.gmId || decide (dataKey m.data < dataKey x) | none => true
  if !p.en ∨ m.domain ≠ d.time.domain ∨ !take then d
  else (d.modTime fun t => { t with ports := Tbl.set {} t.ports k { p with best := some m.data } }).chooseMaster

-- BEAT_SLIP's acceptance (R241); the slip itself belongs to its boundary

/-- What refuses a slip of s units of 8 ns (R241): detail 0x03 SLIP_RANGE or 0x01 BUDGET. The period counts the same units, so the limit
floor(T_beat / 64) × 8 ns is an eighth of it. -/
def Dev.slipRefusal (d : Dev) (s : Int) : Option Nat :=
  let p : Int := d.time.period.toNat
  let fs := d.admitted
  if fs.isEmpty then (if p + s < 64 ∨ s.natAbs ≥ p.natAbs then some 3 else none)
  else if (s.natAbs : Int) > p / 8 then some 3
  else if s < 0 ∧ fs.any (fun f => decide (d.stepsOf (p + s) < f.budget + 128)) then some 1
  else none

/-- BEAT_SLIP: held while a period change is pending (R240); it waits for its boundary, where its limits are judged. -/
def Dev.beatSlip (x : DescRef) (d : Dev) : Dev :=
  d.runOp x 0x61 false fun d e =>
    let s := (BitVec.ofNat 32 (dfld e.desc 0x18 4)).toInt
    d.modTime fun t => { t with slips := t.slips ++ [{ desc := x, beat := BitVec.ofNat 64 (descTarget e.desc), units := s }] }
def execBeatSlip (x : DescRef) (s : State) : Host.Outcome State Fault Refusal := run true (Dev.beatSlip x) s

-- registers (R249)

/-- TIME_NOW's four words of an instant. -/
def nowWord (t : Instant) (k : Nat) : Word :=
  let n := t / ns
  BitVec.ofNat 32 (match k with | 0 => t % ns | 1 => n % 10 ^ 9 | 2 => n / 10 ^ 9 % 2 ^ 32 | _ => n / 10 ^ 9 / 2 ^ 32 % 2 ^ 16)

/-- E_b mod T_beat in ns (R238), from the instant and the number of the next boundary. -/
def Dev.beatPhase (d : Dev) : Nat :=
  let n := if d.time.run then d.time.n.toNat + 1 else d.time.first.toNat
  if d.period = 0 ∨ !(d.time.run ∨ d.time.armed) then 0
  else (((d.time.next : Int) - (n * d.period : Nat)) % (d.period : Int)).toNat / ns

def servoCode : Servo → Nat
  | .free => 0 | .locking => 1 | .locked => 2 | .holdover => 3

/-- The live value of a TIME register; none where none stands. -/
def Dev.readTimeReg (d : Dev) (off : Nat) : Option Word :=
  let t := d.time
  let w (n : Nat) : Option Word := some (BitVec.ofNat 32 n)
  if off % 4 ≠ 0 then none
  else if off = 0 then w (t.prio2.toNat * 2 ^ 24 + t.prio1.toNat * 2 ^ 16 + t.domain.toNat * 256 + bit t.ref10 4 + t.src.toNat)
  else if off = 4 then w (bit t.skew 8 + bit t.ppsloss 7 + bit t.refloss 6 + bit t.clamp 5 + bit t.refusing 4 + bit t.lockedOnce 3 + servoCode t.servo)
  else if off = 8 then some (BitVec.ofInt 32 t.offset)
  else if off = 0xC then w t.thresh.toNat
  else if 0x10 ≤ off ∧ off < 0x20 then some (nowWord d.now ((off - 0x10) / 4))
  else if off = 0x20 then w (t.incr % 2 ^ 32)
  else if off = 0x24 then w (t.incr / 2 ^ 32)
  else if off = 0x30 then w t.period.toNat
  else if off = 0x34 then w (bit t.pendPeriod.isSome 19 + bit t.run 18 + bit (!t.slips.isEmpty) 17
    + (if t.run then d.stepsOf (t.period.toNat + t.slipNow) else 0))
  else if off = 0x38 then w (t.n.toNat % 2 ^ 32)
  else if off = 0x3C then w (t.n.toNat / 2 ^ 32)
  else if off = 0x40 then w d.beatPhase
  else if off = 0x44 then w (t.pertgt.toNat % 2 ^ 32)
  else if off = 0x48 then w (t.pertgt.toNat / 2 ^ 32)
  else if off = 0x50 then w (bit t.ppsEn 31 + t.ppsWidth.toNat * 2 ^ 23 + t.ppsOffset.toNat)
  else if off = 0x60 ∨ off = 0x64 ∨ off = 0x68 then some (Tbl.get {} t.cnt ((off - 0x60) / 4)).toWord
  else if off = 0x70 then w 0
  else if 0x100 ≤ off ∧ off < 0x300 then
    let p := Tbl.get ({} : TimePort) t.ports ((off - 0x100) / 16)
    match off % 16 with
    | 0 => some p.rxlat
    | 4 => some p.txlat
    | 8 => some p.asym
    | _ => w (bit p.en 31 + bit p.mech 30 + p.role.toNat * 2 ^ 28 + p.logsync.toNat * 2 ^ 24 + p.logann.toNat * 2 ^ 20 + p.logdreq.toNat * 2 ^ 16)
  else if 0x400 ≤ off ∧ off < 0x520 ∧ off % 32 < 0x18 then
    let c := Tbl.get ({} : Tdc) t.tdc ((off - 0x400) / 32)
    match off % 32, c.fifo with
    | 0, _ => w (bit c.en 31 + c.edge.toNat * 2 ^ 29 + c.fifo.length)
    | 4, e :: _ => w (e.time % ns / 2 ^ 26 * 2 ^ 26 + bit e.falling 25 + 2 ^ 24)
    | 4, [] => w 0
    | 0x14, _ => w 0
    | k, e :: _ => some (nowWord e.time ((k - 4) / 4))
    | _, [] => w 0
  else none

/-- A signed 4-bit log2 interval as it acts: the nearest value of its range (R249). The register shows what was written (R5). -/
def logRange (lo : Int) (v : BitVec 4) : Int := max lo (min 1 v.toInt)

/-- A write of TIME_CFG (R229): priorities and domain bear on best master selection (R232); a reserved SRC is ignored; a change of SRC takes effect at once and the servo enters HOLDOVER. -/
def Dev.writeTimeCfg (d : Dev) (v : Word) : Dev :=
  let w := v.toNat
  let src := BitVec.ofNat 3 w
  let was := d.time.src
  let dom := BitVec.ofNat 8 (fld w 8 8)
  let other := dom != d.time.domain
  let d := d.modTime fun t => { t with prio2 := BitVec.ofNat 8 (fld w 24 8), prio1 := BitVec.ofNat 8 (fld w 16 8), domain := dom,
                                       ports := if other then t.ports.map fun (k, p) => (k, { p with best := none }) else t.ports }
  let d := d.chooseMaster
  let d := if 4 ≤ src.toNat ∨ src = was then d
           else (d.modTime fun t => { t with src, sourcePresent := false }).holdover
  if bitOf w 5 then d.freestart else d

/-- A write of a TIME register by the PF view. A 64-bit pair's low word is held by the caller; `lo` is it, where one is held. -/
def Dev.writeTimeReg (d : Dev) (off : Nat) (v : Word) (lo : Option Word) : Dev :=
  let w := v.toNat
  if off = 0 then d.writeTimeCfg v
  else if off = 0xC then d.modTime fun t => { t with thresh := BitVec.ofNat 30 (max 50 (min (10 ^ 9) (w % 2 ^ 30))) }
  else if off = 0x20 then d.modTime fun t => { t with incrFrac := v }
  else if off = 0x24 then d.writeIncr v
  else if off = 0x30 then d.writePeriod v
  else if off = 0x48 then
    d.modTime fun t => { t with pertgt := BitVec.ofNat 64 (w * 2 ^ 32 + (match lo with | some l => l.toNat | none => t.pertgt.toNat % 2 ^ 32)) }
  else if off = 0x50 then
    d.modTime fun t => { t with ppsEn := bitOf w 31, ppsWidth := BitVec.ofNat 8 (fld w 23 8), ppsOffset := BitVec.ofNat 23 w }
  else if off = 0x70 then d.modTime fun t => { t with cnt := clearBits t.cnt w 3 }
  else if 0x100 ≤ off ∧ off < 0x300 then
    let d := d.modTime fun t => { t with ports := Tbl.modify {} t.ports ((off - 0x100) / 16) fun p =>
      match off % 16 with
      | 0 => { p with rxlat := v }
      | 4 => { p with txlat := v }
      | 8 => { p with asym := v }
      | _ => { p with en := bitOf w 31, best := if bitOf w 31 then p.best else none, mech := bitOf w 30, logsync := BitVec.ofNat 4 (fld w 24 4), logann := BitVec.ofNat 4 (fld w 20 4),
                      logdreq := BitVec.ofNat 4 (fld w 16 4) } }
    if off % 16 = 12 then d.chooseMaster else d
  else if 0x400 ≤ off ∧ off < 0x520 then
    let i := (off - 0x400) / 32
    match off % 32 with
    | 0 => d.modTime fun t => { t with tdc := Tbl.modify {} t.tdc i fun c => { c with en := bitOf w 31, edge := BitVec.ofNat 2 (fld w 29 2) } }
    | 0x14 => if bitOf w 0 then d.popTdc i else d
    | _ => d
  else d

end Sys2Proof.Machine
end

