-- ==== Sys2Proof/Machine/Rings.lean ====
section
/-! DEFINITION. The host rings: doorbells, fetch and acceptance, reads of host memory, the operations on the cellar and its keys,
interrupts, recovery, and the RINGS registers (12_host_interface.md R339 to R366). -/

namespace Sys2Proof.Machine
open Sys2Proof

/-- Slots of a ring (R342, R366). -/
def Ring.slots (r : Ring) : Nat := 2 ^ max 4 (min 12 r.size.toNat)

/-- A view may act on a pair: the PF, or the owner (R340, R343). -/
def Dev.pairOk (d : Dev) (q : Requester) (k : BitVec 9) : Bool := d.isPf q || d.viewOf q == (d.ring k).owner

/-- The scheduler is in overflow: the firmware partition, which serves descriptors, is full (R355, R385; log entry 44). -/
def Dev.schedOverflow (d : Dev) : Bool :=
  decide (d.fwres.toNat ≤ (d.sched.tasks.filter fun t => decide (t.entry < d.fwres.toNat)).length)

/-- The causes that pause fetching on a pair (R355), as HELD codes them. -/
def Dev.heldBits (d : Dev) (k : BitVec 9) : BitVec 3 :=
  let r := d.ring k
  BitVec.ofNat 3 (if r.en then bit (64 ≤ r.window.length) 0 + bit (r.slots ≤ r.window.length) 1 + bit d.schedOverflow 2 else 0)

/-- A pair enters or leaves a fetch pause (R355, R365). -/
def Dev.reheld (d : Dev) (k : BitVec 9) : Dev :=
  let h := d.heldBits k
  let was := (d.ring k).held
  if h = was then d
  else
    let d := d.modRing k fun r => { r with held := h }
    if (h = 0) = (was = 0) then d else d.raise 773

def Dev.reheldAll (d : Dev) : Dev := d.each (Tbl.keys d.rings.pairs) fun d k => d.reheld (BitVec.ofNat 9 k)

/-- SQ_PI (R343). -/
def Dev.writeSqPi (d : Dev) (k : BitVec 9) (v : Word) : Dev := d.modRing k fun r => { r with sqPi := v.setWidth 16 }
def execSqPi (q : Requester) (ring : BitVec 9) (v : Word) (s : State) : Host.Outcome State Fault Refusal :=
  run true (fun d => if d.pairOk q ring then d.writeSqPi ring v else d) s

/-- Slots from the first of a window to another, in the ring's order. -/
def Ring.ahead (r : Ring) (slot : Nat) : Nat :=
  match r.window with
  | [] => 0
  | e :: _ => (slot % r.slots + r.slots - e.slot % r.slots) % r.slots

/-- The entries of a window before a slot: none where that lies behind the window's last. On a secondary the window may hold gaps (R276, R364). -/
def Ring.before (r : Ring) (slot : Nat) : List RetEntry :=
  if (r.window.getLast?).any fun e => decide (r.ahead slot ≤ r.ahead e.slot + 1) then r.window.takeWhile fun e => decide (r.ahead e.slot < r.ahead slot)
  else []

/-- CQ_CI (R343, R354, R364): the slots before it have been consumed and leave the window; only posted completions can be. -/
def Dev.writeCqCi (d : Dev) (k : BitVec 9) (v : Word) : Dev :=
  let r := d.ring k
  let ci := v.setWidth 16
  let gone := (r.before ci.toNat).takeWhile (·.posted)
  (d.setRing k { r with cqCi := ci, window := r.window.drop gone.length }).reheld k
def execCqCi (q : Requester) (ring : BitVec 9) (v : Word) (s : State) : Host.Outcome State Fault Refusal :=
  run true (fun d => if d.pairOk q ring then d.writeCqCi ring v else d) s

-- the checks of R345 to R347

def isOpcode (op : Nat) : Bool :=
  op ∈ [0x00, 0x01, 0x10, 0x11, 0x12, 0x13, 0x20, 0x21, 0x22, 0x30, 0x31, 0x40, 0x41, 0x42, 0x43, 0x50, 0x60, 0x61, 0x70, 0x7F]
def timedAllowed (op : Nat) : Bool := op ∈ [0x10, 0x11, 0x12, 0x13, 0x22, 0x31, 0x50, 0x61, 0x70]
def abortableAllowed (op : Nat) : Bool := op ∈ [0x01, 0x10, 0x11, 0x12, 0x13, 0x22, 0x30, 0x31, 0x40, 0x42, 0x43, 0x50, 0x61]

/-- FLAGS break R345 or R346. -/
def flagsBad (w : BitVec 512) : Bool :=
  let op := descOpcode w
  (descFlags w ≥ 32) || (!descTimed w && descTarget w != 0) || (descTimed w && !timedAllowed op)
    || (op == 0x61 && (!descTimed w || descTbase w)) || (descAbortable w && !abortableAllowed op)

/-- Operand bytes that R347 uses, as offsets and lengths. -/
def operandBytes (w : BitVec 512) : List (Nat × Nat) :=
  match descOpcode w with
  | 0x01 | 0x7F => [(0x18, 2), (0x20, 8)]
  | 0x10 => [(0x18, 4), (0x1C, if bitOf (dfld w 0x1A 1) 1 then 2 else 0), (0x20, 12)]
  | 0x11 => [(0x18, 2)]
  | 0x12 => [(0x18, 6), (0x20, 8)]
  | 0x13 => [(0x18, 6), (0x20, 8)]
  | 0x20 => [(0x20, 8)]
  | 0x21 => [(0x18, 1), (0x1A, 2)]
  | 0x22 => [(0x18, 8), (0x20, if dfld w 0x1A 1 = 2 then 4 else 0)]
  | 0x30 => [(0x18, 2), (0x1C, 4), (0x20, 8)]
  | 0x31 => [(0x18, 1)]
  | 0x40 => [(0x18, 1), (0x1A, 2), (0x1C, 4), (0x20, 16)]
  | 0x41 => [(0x18, 1), (0x20, 8)]
  | 0x42 => [(0x18, 1), (0x1C, 4)]
  | 0x43 => [(0x18, 3), (0x20, 8)]
  | 0x50 => [(0x18, 2), (0x20, 8)]
  | 0x60 => if dfld w 0x18 1 = 0 then [(0x18, 1), (0x20, 16)] else if dfld w 0x18 1 = 1 then [(0x18, 1), (0x20, 8)] else [(0x18, 1)]
  | 0x61 => [(0x18, 4)]
  | 0x70 => [(0x18, 8)]
  | _ => []

/-- Bytes 0x02 to 0x07, or an operand byte that is not used, differ from zero (R345). -/
def unusedBad (w : BitVec 512) : Bool :=
  let used := operandBytes w
  dfld w 2 6 != 0 || ((List.range 40).map (0x18 + ·)).any fun i => dfld w i 1 != 0 && !(used.any fun (a, n) => decide (a ≤ i ∧ i < a + n))

/-- Operands out of the ranges of R347, R164, R177 and R315. -/
def Dev.operandBad (d : Dev) (view : BitVec 6) (w : BitVec 512) : Bool :=
  let b (o : Nat) := dfld w o 1
  let ringBad := decide (512 ≤ dfld w 0x18 2) || (d.ring (BitVec.ofNat 9 (dfld w 0x18 2))).owner != view
  match descOpcode w with
  | 0x01 | 0x7F => ringBad
  | 0x10 => decide (8 ≤ b 0x18 ∨ b 0x19 = 0 ∨ 4 ≤ b 0x1A ∨ 64 ≤ b 0x1B ∨ dfld w 0x28 4 ≠ 5408)
  | 0x12 => decide (2 ≤ b 0x1A ∨ b 0x1C < 2 ∨ 2 ≤ b 0x1D)
  | 0x13 => decide (256 < b 0x1C + b 0x1D + 1)
  | 0x21 => decide (2 ≤ b 0x18 ∨ 1024 ≤ dfld w 0x1A 2)
  | 0x22 => decide (3 ≤ b 0x1A) || ((b 0x1A == 2) != (dfld w 0x18 2 == 0xFFFF))
  | 0x30 => decide (8 ≤ b 0x18 ∨ 4 ≤ b 0x19 ∨ dfld w 0x1C 4 = 0 ∨ 16 * 2 ^ 20 < dfld w 0x1C 4)
  | 0x31 => decide (8 ≤ b 0x18)
  | 0x40 => decide (2 ≤ b 0x18 ∨ 512 ≤ dfld w 0x1A 2 ∨ dfld w 0x1C 4 = 0 ∨ 2 ^ 24 < dfld w 0x1C 4 ∨ dfld w 0x20 8 % 128 ≠ 0
      ∨ dfld w 0x28 8 % 128 ≠ 0)
  | 0x41 => decide (64 ≤ b 0x18)
  | 0x42 => decide (64 ≤ b 0x18 ∨ dfld w 0x1C 4 = 0 ∨ 60000 < dfld w 0x1C 4)
  | 0x43 => decide (64 ≤ b 0x19 ∨ 2 ≤ b 0x1A)
  | 0x60 => decide (3 ≤ b 0x18)
  | 0x70 => decide (2 ≤ b 0x18 ∨ 2 ≤ b 0x19 ∨ 2048 ≤ dfld w 0x1A 2 ∨ 16 ≤ b 0x1C ∨ (16 ≤ b 0x1D ∧ b 0x1D ≠ 0xFF) ∨ 4 ≤ b 0x1E
      ∨ (b 0x18 = 0 ∧ (b 0x1F = 0 ∨ 7 < b 0x1F)))
  | _ => false

/-- A view owns a function (R340). -/
def Dev.ownsFunc (d : Dev) (view : BitVec 6) (f : FuncId) : Bool := d.funcs.any fun x => x.id == f && x.owner.toNat == view.toNat

/-- A VF owns the ports of a flow's legs (R340, R366). -/
def Dev.ownsLegs (d : Dev) (view : BitVec 6) (r : FlowRec) : Bool :=
  let ports := Tbl.get (0 : BitVec 8) d.rings.vfPorts view.toNat
  ports.getLsbD r.legA.port && (!r.legB.isSet || ports.getLsbD r.legB.port)

/-- A VF owns what a flow record names (R202, R340): the ports of its legs, the region and the queue of a merged receive flow's buffer, and the receive
flow that BYPASS takes. -/
def Dev.ownsRecord (d : Dev) (view : BitVec 6) (r : FlowRec) : Bool :=
  let buffer : Bool := !r.merged || ((d.cellar.region r.region).owner.toNat == view.toNat && (d.cellar.queue (BitVec.ofNat 9 r.queue)).owner.toNat == view.toNat)
  let bypass : Bool := r.dir != 1 || r.safe != 2
    || (r.bypass < 0x8000 && (let f := Tbl.get ({} : Flow) d.media.flows (r.bypass % 1024); f.opened && d.ownsLegs view f.record))
  d.ownsLegs view r && buffer && bypass

/-- A view may use flow `i` of the flow table: receive flows 0 to 1023, transmit flows from 1024. -/
def Dev.ownsFlow (d : Dev) (view : BitVec 6) (i : Nat) : Bool :=
  view == 0 || (let f := Tbl.get ({} : Flow) d.media.flows i; f.opened && d.ownsLegs view f.record)

/-- A view may name an endpoint or a source (R340): the PF any; a VF none, flows on its ports, and frame stores on regions whose owner view it is. SDI
engines and hub ports are nobody's but the PF's. Number `base` is that of the flow table's first flow of the direction. -/
def Dev.ownsRef (d : Dev) (view : BitVec 6) (base ref : Nat) : Bool :=
  view == 0 || ref == 0 || (match fld ref 28 4 with
    | 1 => d.ownsFlow view (base + fld ref 0 10)
    | 3 => (d.cellar.region (Tbl.get ({} : FrameStore) d.cellar.frames (fld ref 0 6)).region.toNat).owner.toNat == view.toNat
    | _ => false)

/-- A VF may not submit this descriptor (R340, R346). -/
def Dev.privilegeBad (d : Dev) (view : BitVec 6) (w : BitVec 512) : Bool :=
  view != 0 && (match descOpcode w with
    | 0x00 | 0x01 | 0x20 | 0x7F => false
    | 0x11 | 0x13 => !d.ownsFunc view (BitVec.ofNat 16 (dfld w 0x18 2))
    | 0x21 => !d.ownsFlow view (dfld w 0x1A 2 % 1024 + 1024 * (dfld w 0x18 1 % 2))
    | 0x22 =>
      !((dfld w 0x18 2 == 0xFFFF || d.ownsFunc view (BitVec.ofNat 16 (dfld w 0x18 2)))
        && d.ownsRef view (if dfld w 0x1A 1 = 0 then 0 else 1024) (dfld w 0x1C 4)
        && (dfld w 0x1A 1 != 2 || d.ownsRef view 0 (dfld w 0x20 4)))
    | 0x40 => (d.cellar.queue (BitVec.ofNat 9 (dfld w 0x1A 2))).owner.toNat != view.toNat
    | _ => true)

/-- The detail of BAD_DESCRIPTOR, the first that applies (R352 step 4). -/
def Dev.descBad (d : Dev) (view : BitVec 6) (w : BitVec 512) : Option Nat :=
  if !isOpcode (descOpcode w) then some 1
  else if flagsBad w then some 2
  else if d.privilegeBad view w then some 3
  else if unusedBad w ∨ d.operandBad view w then some 4
  else none

/-- Bytes of host memory that a descriptor names (R347). -/
def argLen (w : BitVec 512) : Nat :=
  match descOpcode w with
  | 0x10 => 5408
  | 0x12 => 32
  | 0x13 => 8 * (dfld w 0x1D 1 + 1)
  | 0x20 => 256
  | 0x30 => dfld w 0x1C 4
  | 0x40 => if dfld w 0x18 1 = 0 then 128 * dfld w 0x1C 4 else 0
  | 0x41 => 64
  | 0x50 => 64 * ((List.range 16).filter fun u => bitOf (dfld w 0x18 2) u).length
  | _ => 0

/-- On a paired primary the accepted descriptor goes to the secondary with its target beat, and its completion awaits APPLIED (R276): a REQ packet whose
ADDR holds the pair and the slot, with the target beat, the descriptor, the ring's SIZE and its CQ_CI in the data (log entry 32). -/
def Dev.forwardDesc (d : Dev) (x : DescRef) (w : BitVec 512) : Dev :=
  if d.link.mirror ≠ .paired ∨ d.link.secondary then d
  else
    let b := d.time.n + BitVec.ofNat 64 (max 1 d.link.lead.toNat + 1)
    let target := if descTimed w ∧ !descTbase w then BitVec.ofNat 64 (descTarget w) else b
    let d := if descTimed w then d else d.modEntry x fun e => { e with apply := some b }
    let a : AwaitApplied := { desc := x, seq := descSeq w, own := none, applied := none }
    let d := d.putLink { d.link with await := d.link.await ++ [a] }
    let r := d.ring x.ring
    d.sendMessage d.link.partner .req 0x800 5 (x.ring.toNat + x.slot.toNat * 2 ^ 16) 3
      (target.toNat + w.toNat * 2 ^ 64 + r.size.toNat * 2 ^ 576 + r.cqCi.toNat * 2 ^ 584)

/-- What the staging slot that a descriptor names refuses at its acceptance (R324): a number that names none, 0x33 SLOT_STATE or 0x31 KIND. -/
def Dev.slotRefusal (d : Dev) (w : BitVec 512) : Option Nak :=
  let s := Tbl.get ({} : Staging) d.loader.slots (dfld w 0x18 1)
  let op := descOpcode w
  if op ≠ 0x10 ∧ op ≠ 0x31 then none
  else if 8 ≤ dfld w 0x18 1 then some { status := 5, detail := 4 }
  else if s.phase ≠ .verified then some { status := 0x11, detail := 0x33 }
  else if (op = 0x10) ≠ (s.kind = 4) then some { status := 0x11, detail := 0x31 }
  else none

/-- What acceptance finds out of a descriptor (R352 step 4): the staging slot is checked before anything else (R324), and one that breaks R345 to R347
completes BAD_DESCRIPTOR. NOP's commit point is acceptance. -/
def Dev.judge (d : Dev) (x : DescRef) (view : BitVec 6) (w : BitVec 512) : Dev :=
  match d.slotRefusal w with
  | some n => if n.status = 5 then d.finish x 5 n.detail else d.refuse x n
  | none =>
    match d.descBad view w with
    | some k => d.finish x 5 k
    | none => if descOpcode w = 0 then d.commitPoint x else d

/-- Acceptance of a descriptor in a slot (R352 steps 3 and 4): NEXTSEQ advances, and a paired primary forwards it, whatever becomes of it (R276). -/
def Dev.accept (d : Dev) (x : DescRef) (w : BitVec 512) : Dev :=
  let d := d.modRing x.ring fun r => { r with nextseq := r.nextseq + 1 }
  let d := d.putRings { d.rings with order := d.rings.order + 1 }
  let d := d.modEntry x fun e => { e with order := d.rings.order, ready := (if argLen w = 0 ∧ descOpcode w ≠ 0x31 then some d.now else none) }
  (d.forwardDesc x w).judge x (d.ring x.ring).owner w

/-- The slot after a ring's fetch slot, and the parity of its pass (R344). -/
def Ring.advance (r : Ring) : Ring :=
  if r.fetch.toNat + 1 < r.slots then { r with fetch := r.fetch + 1 } else { r with fetch := 0, parity := !r.parity }

/-- What SEQ_DUP reports of the original (R350, R354). -/
def Ring.original (r : Ring) (seq : BitVec 64) : Nat :=
  match r.window.find? (fun e => e.accept && e.seq == seq) with
  | some e => if e.phase = .completed then e.record.status else 0xFE
  | none => 0xFF

/-- The pair can fetch its fetch slot (R343, R355, R339, R361). -/
def Dev.canFetch (d : Dev) (k : BitVec 9) : Bool :=
  let r := d.ring k
  d.rings.ready && !d.rings.recovering && r.en && r.phase == .run && !r.stopped && !(d.rings.d3 && r.owner == 0)
    && r.sqPi.toNat % r.slots != r.fetch.toNat

/-- DESCRIPTOR_FETCH (R352): the device fetches the fetch slot. A slot that recovery fetches again, in its own pass of the ring, keeps the record of its
acceptance (R360); one whose record of the pass before is still there finds no free slot in the CQ (R355). -/
def Dev.descriptorFetch (k : BitVec 9) (got : Option (BitVec 512)) (d : Dev) : Dev :=
  let r := d.ring k
  if !d.canFetch k then d
  else
    let x : DescRef := { ring := k, slot := r.fetch }
    match (d.entry? x).filter (·.par == r.parity) with
    | some e =>
      let d := d.modRing k Ring.advance
      (match got with
      | none => if e.accept ∧ e.phase = .accepted ∧ !e.started then d.finish x 0x70 0 else d
      | some _ => d)
    | none =>
      if d.heldBits k ≠ 0 ∨ (d.entry? x).isSome then d.reheld k
      else
        let w := got.getD 0
        let seq := if got.isSome then descSeq w else 0
        let ok := got.isSome && seq == r.nextseq
        let entry : RetEntry := { slot := r.fetch.toNat, seq, desc := w, accept := ok, par := r.parity }
        let d := d.modRing k fun r => Ring.advance { r with window := r.window ++ [entry] }
        let d := match got with
          | none => d.finish x 0x70 0
          | some w =>
            if seq < r.nextseq then d.finish x 0x51 0 (r.original seq)
            else if r.nextseq < seq then d.finish x 0x50 0 0 r.nextseq.toNat
            else d.accept x w
        d.reheld k
def execDescriptorFetch (ring : BitVec 9) (slot : Option (BitVec 512)) (s : State) : Host.Outcome State Fault Refusal :=
  run true (Dev.descriptorFetch ring slot) s

/-- HOST_MEMORY_READ (R352 step 5, R357): the memory that a descriptor names has been read, or its read failed. FUNC_ADMIT is ready only
once its rooms are written. -/
def Dev.hostMemoryRead (x : DescRef) (data : Option Bytes) (d : Dev) : Dev :=
  match d.entry? x with
  | none => d
  | some e =>
    if !e.accept ∨ e.phase ≠ .accepted ∨ e.args.isSome ∨ argLen e.desc = 0 then d
    else match data with
      | none => d.finish x 0x70 0
      | some bs =>
        if bs.length ≠ argLen e.desc then d
        else d.modEntry x fun e => { e with args := some bs, ready := if descOpcode e.desc = 0x10 then none else some d.now }
def execHostMemoryRead (x : DescRef) (data : Option Bytes) (s : State) : Host.Outcome State Fault Refusal :=
  run true (Dev.hostMemoryRead x data) s

/-- IRQ_COALESCE_TIMER (R366): TIMER has expired since the first pending completion. -/
def Dev.irqCoalesceTimer (k : BitVec 9) (d : Dev) : Dev :=
  let r := d.ring k
  if !r.irqEn ∨ r.irqPending = 0 ∨ r.irqTimer = 0 then d
  else ((d.reach (r.irqSince + r.irqTimer.toNat * 1000 * ns)).setRing k { r with irqPending := 0 }).msix r.owner r.irqVector
def execIrqCoalesceTimer (ring : BitVec 9) (s : State) : Host.Outcome State Fault Refusal := run true (Dev.irqCoalesceTimer ring) s

/-- NOP (R346): committed at its acceptance, it completes when its turn comes. -/
def Dev.nop (x : DescRef) (d : Dev) : Dev :=
  match d.entry? x with
  | none => d
  | some e =>
    let earlier := (d.ring x.ring).window.takeWhile (fun y => y.slot != e.slot)
    let before := earlier.all fun y => y.phase != .accepted || ((y.started || d.heldBy21 y || d.sweepHeld y.desc) && descOpcode y.desc != 1)
    let due : Bool := match e.apply with | some b => decide (b ≤ d.time.n) | none => true
    if e.accept ∧ e.phase = .committed ∧ descOpcode e.desc = 0 ∧ before ∧ due ∧ (!descFence e.desc ∨ earlier.all (·.posted)) then
      d.finish x 0 0 0 0 (some e.beat)
    else d
def execNop (x : DescRef) (s : State) : Host.Outcome State Fault Refusal := run true (Dev.nop x) s

/-- FENCE (R356): once started it completes as soon as the named completion has been posted. -/
def Dev.fence (x : DescRef) (d : Dev) : Dev := d.runOp x 1 false fun d _ => Dev.settle d.fences d
def execFence (x : DescRef) (s : State) : Host.Outcome State Fault Refusal := run true (Dev.fence x) s

-- operations on the cellar

/-- Lines from host memory to the cellar (R170, R347): how many moved, and the status. -/
def Dev.copyIn (d : Dev) (q : BitVec 9) : List LineEcc → Nat → List Bytes → Dev × Nat × Nat
  | _, _, [] => (d, 0, 0)
  | es, line, b :: t =>
    let (d, o) := d.writeLine .copy q line (BitVec.allOnes 128) (BitVec.ofNat 1024 (leNat b)) (es.headD {})
    match o with
    | .ok => let (d, n, st) := Dev.copyIn d q es.tail (line + 1) t; (d, n + 1, st)
    | .wasPoisoned => (d, 0, 0x41)
    | .busError => (d, 0, 0x40)

/-- Lines from the cellar to host memory: CELLAR_POISONED ends the copy at a POISONED line, CELLAR_BUS_ERROR at verdicts 3, 4, 6 and 7. -/
def Dev.copyOut (d : Dev) (q : BitVec 9) : List LineEcc → Nat → Nat → Nat → Dev × Nat × Nat
  | _, _, _, 0 => (d, 0, 0)
  | es, host, line, n + 1 =>
    let (d, v, data) := d.readLine .copy q line .copyOut none (es.headD {})
    if !v.passes then (d, 0, if v = .poison then 0x41 else 0x40)
    else
      let d := d.writeHost (BitVec.ofNat 64 host) (leBytes 128 data.toNat)
      let (d, k, st) := Dev.copyOut d q es.tail (host + 128) (line + 1) n
      (d, k + 1, st)

/-- CELLAR_COPY (R170, R347, R350): lines are moved in order until one fails. `ecc` is what the stack's ECC finds in each. -/
def Dev.cellarCopy (x : DescRef) (ecc : List LineEcc) (d : Dev) : Dev :=
  match d.startable x 0x40 with
  | none => d
  | some e =>
    let q := BitVec.ofNat 9 (dfld e.desc 0x1A 2)
    let line := dfld e.desc 0x28 8 / 128
    let done_ (x3 : Dev × Nat × Nat) : Dev :=
      if x3.2.2 = 0 then x3.1.finishOk x 0 x3.2.1 else x3.1.finish x x3.2.2 0 0 x3.2.1
    if dfld e.desc 0x18 1 = 1 then done_ ((d.start x).copyOut q ecc (dfld e.desc 0x20 8) line (dfld e.desc 0x1C 4))
    else match e.args with
      | none => d
      | some bs => done_ ((d.start x).copyIn q ecc line (chunks 128 (dfld e.desc 0x1C 4) bs))
def execCellarCopy (x : CopyRead) (s : State) : Host.Outcome State Fault Refusal := run true (Dev.cellarCopy x.desc x.ecc) s

/-- A slot is in use (R177 step 1): a queue writes under it, it is some region's pending slot, or a sweep targets it. -/
def Cellar.slotUsed (c : Cellar) (k : BitVec 6) : Bool :=
  c.queues.any (fun (_, q) => q.wevalid && q.weff == k) || c.regions.any (fun (_, r) => r.pvalid && r.pending == k)
    || c.sweeps.any (fun (_, s) => s.phase != .idle && s.tgt == k)

/-- KEY_RETIRE (R177): its first step; the rest follows with the slot's references. -/
def Dev.keyRetire (x : DescRef) (d : Dev) : Dev :=
  d.runOp x 0x42 false fun d e =>
    let k := BitVec.ofNat 6 (dfld e.desc 0x18 1)
    let s := d.cellar.key k
    if s.phase = .empty then d.finish x 2 0
    else if d.cellar.slotUsed k then d.finish x 0x42 0
    else d.modCellar fun c => { c.setKey k { s with phase := .retiring } with
      retires := c.retires ++ [{ desc := x, slot := k, was := s.phase, deadline := d.now + dfld e.desc 0x1C 4 * 10 ^ 6 * ns }] }
def execKeyRetire (x : DescRef) (s : State) : Host.Outcome State Fault Refusal := run true (Dev.keyRetire x) s

/-- With AUTOSWEEP = 0 the exhaust sweep of a region is the host's sweep of all of it to its pending slot (R167). -/
def Dev.exhausts (d : Dev) (n a z : Nat) (tgt : BitVec 6) : Bool :=
  let r := d.cellar.region n
  !r.autosweep && r.pvalid && r.pending == tgt && (a, z) == r.lines

/-- CELLAR_SWEEP_BOUND for a SWEEP that no engine has run: that of the engine that it would have had (R350; DESIGN CHOICE, log entry 187). -/
def Dev.sweepBound (d : Dev) : Nat := (Tbl.get ({} : SweepEngine) d.cellar.sweeps (d.cellar.freeEngine.getD 0)).bound.toNat

/-- SWEEP (R179, R347): held without a free engine or while a sweep runs on its region; the target slot must be ACTIVE. -/
def Dev.sweep (x : DescRef) (d : Dev) : Dev :=
  match d.startable x 0x43 with
  | none => d
  | some e =>
    let n := dfld e.desc 0x18 1
    let tgt := BitVec.ofNat 6 (dfld e.desc 0x19 1)
    let (a, z) := (d.cellar.region n).lines
    let (a, z, ok) := if dfld e.desc 0x1A 1 = 0 then (a, z, true)
      else (a + dfld e.desc 0x20 4, a + dfld e.desc 0x20 4 + dfld e.desc 0x24 4, decide (a + dfld e.desc 0x20 4 + dfld e.desc 0x24 4 ≤ z))
    if !ok then (d.start x).finish x 5 4 0 d.sweepBound
    else if (d.cellar.key tgt).phase ≠ .active then (d.start x).finish x 0x42 0 0 d.sweepBound
    else match d.cellar.freeEngine with
      | none => d
      | some en =>
        if d.cellar.sweeping n then d
        else (d.start x).startSweep en { phase := .run, tgt, region := BitVec.ofNat 8 n, start := BitVec.ofNat 27 a, bound := BitVec.ofNat 27 a,
                                         stop := BitVec.ofNat 27 z, exhaust := d.exhausts n a z tgt, desc := some x }
def execSweep (x : DescRef) (s : State) : Host.Outcome State Fault Refusal := run true (Dev.sweep x) s

-- pairs

/-- Steps 3 and 4 of R360 on a pair: completions that can be posted are posted, and fetching goes back to the lowest ACCEPTED entry. -/
def Dev.rewindPair (d : Dev) (k : BitVec 9) : Dev :=
  (d.postRing k).modRing k fun r =>
    match r.window.find? (fun e => e.accept && e.phase == .accepted) with
    | some e => { r with fetch := BitVec.ofNat 12 e.slot, parity := e.par, stopped := false }
    | none => { r with stopped := false }

/-- Recovery of a pair (R360 steps 2 to 4, R361): posted completions are written again, then the pair goes on. -/
def Dev.recoverPair (d : Dev) (k : BitVec 9) : Dev :=
  let again := (d.ring k).window.filter (·.posted)
  (d.each again fun d e =>
    d.writeHost ((d.ring k).cqbase + BitVec.ofNat 64 (32 * e.slot)) (recordBytes e.record e.par)).rewindPair k

/-- A write of RINGS_PAIR_CFG (R361, R366). -/
def Dev.writePairCfg (d : Dev) (q : Requester) (k : BitVec 9) (v : Word) : Dev :=
  let r := d.ring k
  let w := v.toNat
  let owner := BitVec.ofNat 6 (fld w 25 6)
  let full := owner ≠ 0 ∧ owner ≠ r.owner ∧
    8 ≤ (d.rings.pairs.filter fun (_, p) => p.owner == owner).length
  if !d.pairOk q k ∨ (d.isPf q ∧ !r.en ∧ full) then d
  else
    let r' := if r.en ∨ !d.isPf q then r else { r with owner, size := BitVec.ofNat 4 (fld w 16 4) }
    if bitOf w 31 then
      let d := d.setRing k { r' with en := true, phase := if d.rings.recovering then .recover else .run }
      let d := if r.stopped then (d.recoverPair k).raise 772 else d
      d.reheld k
    else d.setRing k { r' with en := false, phase := if r.phase = .mirror then .mirror else .off, held := 0 }
def execPairEnable (q : Requester) (ring : BitVec 9) (v : Word) (s : State) : Host.Outcome State Fault Refusal :=
  run true (fun d => d.writePairCfg q ring v) s

/-- ATTACH (R364): on a split pair or a secondary, a disabled pair takes the primary's ring over. -/
def Dev.attach (q : Requester) (k : BitVec 9) (d : Dev) : Dev :=
  if !d.isPf q then d
  else if (d.ring k).en ∨ !(d.link.mirror = .split ∨ (d.link.mirror = .paired ∧ d.link.secondary)) then d.ignore 1
  else
    let d := d.modRing k fun r => { r with phase := .run, window := r.window.map fun e => { e with posted := false } }
    let d := (d.postRing k).modRing k fun r => { r with en := true }
    (d.raise 772).reheld k
def execAttach (q : Requester) (ring : BitVec 9) (s : State) : Host.Outcome State Fault Refusal := run true (Dev.attach q ring) s

/-- FLR (R361): fetching stops on the view's pairs; accepted operations go on, and configuration and retention entries are kept. -/
def Dev.flr (view : BitVec 6) (d : Dev) : Dev :=
  d.each (Tbl.keys d.rings.pairs) fun d k => d.modRing (BitVec.ofNat 9 k) fun r => if r.owner = view then { r with stopped := true } else r
def execFlr (view : BitVec 6) (s : State) : Host.Outcome State Fault Refusal := run true (Dev.flr view) s

/-- The link trains to Gen5, Gen4 or Gen3 and to 16, 8 or 4 lanes (R339). -/
def pcieLinkOk (x : PcieLink) : Bool := decide (3 ≤ x.gen ∧ x.gen ≤ 5) && (x.width == 16 || x.width == 8 || x.width == 4)

/-- PCIE_LINK_CHANGE (R339, R365): the link goes down, retrains, or changes its speed or width. -/
def Dev.pcieLinkChange (x : PcieLink) (d : Dev) : Dev :=
  let r := d.rings
  (d.putRings { r with linkUp := x.up, linkGen := if pcieLinkOk x then x.gen else r.linkGen, linkWidth := if pcieLinkOk x then x.width else r.linkWidth }).raise 768
def execPcieLinkChange (x : PcieLink) (s : State) : Host.Outcome State Fault Refusal := run true (Dev.pcieLinkChange x) s

/-- PF_POWER_STATE_CHANGE (R339): a PF in D3hot stops fetching; everything else goes on. -/
def execPfPowerStateChange (d3 : Bool) (s : State) : Host.Outcome State Fault Refusal :=
  run true (fun d => (d.putRings { d.rings with d3 })) s

-- registers (R366)

def ringPhaseCode : RingPhase → Nat
  | .off => 0 | .run => 1 | .recover => 2 | .mirror => 3

/-- One register of a pair. -/
def Dev.readPairReg (d : Dev) (k : BitVec 9) (off : Nat) : Word :=
  let r := d.ring k
  BitVec.ofNat 32 (match off with
    | 0x00 => bit r.en 31 + r.owner.toNat * 2 ^ 25 + r.size.toNat * 2 ^ 16
    | 0x08 => r.sqbase.toNat % 2 ^ 32
    | 0x0C => r.sqbase.toNat / 2 ^ 32
    | 0x10 => r.cqbase.toNat % 2 ^ 32
    | 0x14 => r.cqbase.toNat / 2 ^ 32
    | 0x18 => r.irqTimer.toNat * 2 ^ 24 + r.irqCount.toNat * 2 ^ 16 + bit r.irqEn 15 + r.irqVector.toNat
    | 0x1C => ringPhaseCode r.phase * 2 ^ 30 + r.held.toNat * 2 ^ 27 + r.window.length * 2 ^ 16 + r.fetch.toNat
    | 0x20 => r.nextseq.toNat % 2 ^ 32
    | 0x24 => r.nextseq.toNat / 2 ^ 32
    | 0x28 => r.applied.toNat % 2 ^ 32
    | 0x2C => r.applied.toNat / 2 ^ 32
    | _ => 0)

/-- The live value of a RINGS register; none where none stands. -/
def Dev.readRingsReg (d : Dev) (off : Nat) : Option Word :=
  let w (n : Nat) : Option Word := some (BitVec.ofNat 32 n)
  if off % 4 ≠ 0 then none
  else if off = 0 then w (bit d.rings.recovering 1 + bit d.rings.ready 0)
  else if 0x10 ≤ off ∧ off < 0x20 then some (Tbl.get {} d.rings.cnt ((off - 0x10) / 4)).toWord
  else if off = 0x20 then w 0
  else if 0x804 ≤ off ∧ off < 0x900 then w (Tbl.get (0 : BitVec 8) d.rings.vfPorts ((off - 0x800) / 4)).toNat
  else if 0x1000 ≤ off ∧ off < 0x9000 ∧ off % 0x40 < 0x30 then some (d.readPairReg (BitVec.ofNat 9 ((off - 0x1000) / 0x40)) (off % 0x40))
  else none

/-- The two halves of a 64-bit register. -/
def setLo (w : BitVec 64) (v : Word) : BitVec 64 := BitVec.ofNat 64 (w.toNat / 2 ^ 32 * 2 ^ 32 + v.toNat)
def setHi (w : BitVec 64) (v : Word) : BitVec 64 := BitVec.ofNat 64 (w.toNat % 2 ^ 32 + v.toNat * 2 ^ 32)

/-- A write of one register of a pair; `lo` is the held low word of a pair of words. -/
def Dev.writePairReg (d : Dev) (q : Requester) (k : BitVec 9) (off : Nat) (v : Word) (lo : Option Word) : Dev :=
  let w := v.toNat
  let own := d.pairOk q k
  let free_ := own && !(d.ring k).en
  match off with
  | 0x00 => d.writePairCfg q k v
  | 0x04 => if bitOf w 0 then d.attach q k else d
  | 0x08 => if free_ then d.modRing k fun r => { r with sqbase := setLo r.sqbase (BitVec.ofNat 32 (w / 4096 * 4096)) } else d
  | 0x0C => if free_ then d.modRing k fun r => { r with sqbase := setHi r.sqbase v } else d
  | 0x10 => if free_ then d.modRing k fun r => { r with cqbase := setLo r.cqbase (BitVec.ofNat 32 (w / 4096 * 4096)) } else d
  | 0x14 => if free_ then d.modRing k fun r => { r with cqbase := setHi r.cqbase v } else d
  | 0x18 =>
    if own then d.modRing k fun r =>
      let r := { r with irqVector := BitVec.ofNat 11 w }
      if d.isPf q then { r with irqTimer := BitVec.ofNat 8 (fld w 24 8), irqCount := BitVec.ofNat 8 (fld w 16 8), irqEn := bitOf w 15 } else r
    else d
  | 0x24 =>
    let ok := d.isPf q && !(d.ring k).en && !((d.ring k).window.any fun e => e.accept && e.phase == .accepted)
    if ok then d.modRing k fun r => { r with nextseq := setHi (setLo r.nextseq (lo.getD (BitVec.ofNat 32 r.nextseq.toNat))) v } else d
  | _ => d

/-- A write of a RINGS register (R366). -/
def Dev.writeRingsReg (d : Dev) (q : Requester) (off : Nat) (v : Word) (lo : Option Word) : Dev :=
  if 0x1000 ≤ off ∧ off < 0x9000 ∧ off % 0x40 < 0x30 then d.writePairReg q (BitVec.ofNat 9 ((off - 0x1000) / 0x40)) (off % 0x40) v lo
  else if !d.isPf q then d
  else if off = 0x20 then d.putRings { d.rings with cnt := clearBits d.rings.cnt v.toNat 4 }
  else if 0x804 ≤ off ∧ off < 0x900 ∧ off % 4 = 0 then
    let n := (off - 0x800) / 4
    let p := BitVec.ofNat 8 v.toNat
    if d.rings.vfPorts.any (fun (i, x) => i != n && x &&& p != 0) then d
    else d.putRings { d.rings with vfPorts := Tbl.set 0 d.rings.vfPorts n p }
  else d

end Sys2Proof.Machine
end

