-- ==== Sys2Proof/Machine/Ptp.lean ====
section
/-! DEFINITION. Frames leaving an Ethernet port between paced releases, and PTP on its subports (07_media_ports.md R195; 08_time.md R234 to
R237). -/

namespace Sys2Proof.Machine
open Sys2Proof

-- PTP messages (R235 to R237)

/-- Subport s of port n among the time unit's (R249). -/
def subportOf (n : Nat) (sub : BitVec 2) : Nat := 4 * n + sub.toNat
def Dev.timePort (d : Dev) (k : Nat) : TimePort := Tbl.get {} d.time.ports k

/-- The timestamps of a message that crosses the PCS boundary at an instant, referred to the balls (R235). -/
def TimePort.ingress (p : TimePort) (t : Instant) : Instant := t - p.rxlat.toNat * 2 ^ 16
def TimePort.egress (p : TimePort) (t : Instant) : Instant := t + p.txlat.toNat * 2 ^ 16

/-- Seconds and ns of a timestamp as PTP messages hold them. -/
def stamp80 (t : Instant) : BitVec 80 := BitVec.ofNat 80 (t / ns / 10 ^ 9 * 2 ^ 32 + t / ns % 10 ^ 9)
/-- The instant that a message's timestamp names. -/
def stampTime (x : BitVec 80) : Instant := (x.toNat / 2 ^ 32 * 10 ^ 9 + x.toNat % 2 ^ 32) * ns

def isEvent (k : PtpKind) : Bool :=
  match k with
  | .sync | .delayReq | .pdelayReq | .pdelayResp => true
  | _ => false

/-- Addition of 16-bit words with the carry brought round, as the Internet checksum adds. -/
def onesAdd (a b : Nat) : Nat := (a + b) % 2 ^ 16 + (a + b) / 2 ^ 16
/-- The sum of the 16-bit words of `n` words of a field. -/
def onesSum : Nat → Nat → Nat
  | 0, _ => 0
  | n + 1, x => onesAdd (x % 2 ^ 16) (onesSum n (x / 2 ^ 16))

/-- messageType as IEEE 1588-2019 codes it (PRESUMED, log entry 152). -/
def messageType : PtpKind → Nat
  | .sync => 0 | .delayReq => 1 | .pdelayReq => 2 | .pdelayResp => 3 | .delayResp => 9 | .announce => 11 | .management => 13 | .other => 12

/-- What the checksum sees of a message's type, timestamps, correctionField and twoStepFlag, bit 1 of the octet that begins flagField's word, and of the
frame's destination port. -/
def ptpSum (dport : BitVec 16) (m : PtpMsg) : Nat :=
  onesAdd (onesAdd (onesAdd (onesSum 5 m.origin.toNat) (onesSum 5 m.response.toNat)) (onesAdd (onesSum 4 m.correction.toNat) (bit m.twoStep 9)))
    (onesAdd (messageType m.kind * 2 ^ 8) dport.toNat)

/-- A message rewritten in a frame, an event message to port 319 and another to port 320 (PRESUMED, log entry 152): over IPv4 the UDP checksum is
corrected, unless it is not in use, over IPv6 the trailer keeps it valid, over IEEE 802.3 there is none (R236). -/
def rewrite (fr : EthFrame) (old new : PtpMsg) : EthFrame :=
  let dport : BitVec 16 := if fr.ethertype = 0x88F7 ∨ !fr.udp then fr.dport else if isEvent new.kind then 319 else 320
  let was := ptpSum fr.dport old
  let is := ptpSum dport new
  let check :=
    if fr.ethertype = 0x88F7 ∨ !fr.udp then new.check
    else if fr.ipver = 6 then BitVec.ofNat 16 (onesAdd (onesAdd old.check.toNat was) (0xFFFF - is % 2 ^ 16))
    else if old.check = 0 then 0
    else
      let c := 0xFFFF - onesAdd (onesAdd (0xFFFF - old.check.toNat) (0xFFFF - was % 2 ^ 16)) is
      BitVec.ofNat 16 (if c = 0 then 0xFFFF else c)
  { fr with dport, ptp := some { new with check } }

/-- The share of correctionField that delayAsymmetry has in a message when it is sent: it is taken off Delay_Req and Pdelay_Req (R235; IEEE 1588-2019). -/
def TimePort.asymOut (p : TimePort) (k : PtpKind) : BitVec 64 := if k = .delayReq ∨ k = .pdelayReq then p.asym.signExtend 64 else 0
/-- And when it is received: it is added to Sync and Pdelay_Resp. -/
def TimePort.asymIn (p : TimePort) (k : PtpKind) : BitVec 64 := if k = .sync ∨ k = .pdelayResp then p.asym.signExtend 64 else 0

/-- What the subport writes into an event message that it sends at an instant, one-step (R235, R236): the timestamp, and for the messages that
delayAsymmetry bears on when sent, Delay_Req and Pdelay_Req, its share of correctionField. -/
def TimePort.stamped (p : TimePort) (t : Instant) (m : PtpMsg) : PtpMsg :=
  let tx := p.egress t
  match m.kind with
  | .sync => { m with origin := stamp80 tx, twoStep := false }
  | .pdelayResp => { m with response := stamp80 tx, twoStep := false }
  | .delayReq | .pdelayReq => { m with twoStep := false, correction := m.correction - p.asymOut m.kind }
  | _ => m

/-- A frame as it leaves a subport at an instant: an event message of the device's own is stamped (R236), a forwarded one has its residence time, the
peer delay and delayAsymmetry brought into correctionField (R235, R237). -/
def TimePort.sends (p : TimePort) (t : Instant) (x : PortFrame) : EthFrame :=
  match x.frame.ptp, x.came with
  | none, _ => x.frame
  | some m, none => if isEvent m.kind then rewrite x.frame m (p.stamped t m) else x.frame
  | some m, some came =>
    let stay : Int := (((p.egress t : Nat) : Int) - came + x.extra) / (2 ^ 16 : Int)
    rewrite x.frame m { m with correction := m.correction - p.asymOut m.kind + BitVec.ofInt 64 stay }

-- frames between paced releases (R195)

/-- Octets waiting towards a port in the bridge buffer. -/
def queued (q : List PortFrame) : Nat := (q.map (·.frame.length.toNat)).sum

/-- The line rate of a subport in b/s (R192). -/
def lineRate (mode : BitVec 2) : Nat := if mode = 0 then 100 * 10 ^ 9 else if mode = 1 then 25 * 10 ^ 9 else 10 * 10 ^ 9

/-- The releases that are to come on a subport of a port (R195, R206). -/
def Dev.releasesOn (d : Dev) (n : Nat) (sub : BitVec 2) : List Instant :=
  let here (l : Leg) : Bool := l.isSet && l.port == n && l.sub == sub.toNat
  d.media.flows.flatMap fun (i, f) => if 1024 ≤ i ∧ f.opened ∧ (here f.record.legA ∨ here f.record.legB) then f.due.map (·.time) else []

/-- How long a frame takes on the wire, with its 8 octets of preamble and 12 of gap (IEEE 802.3; PRESUMED, log entry 153). -/
def wireTime (fr : EthFrame) (rate : Nat) : Nat := (fr.length.toNat + 20) * 8 * 10 ^ 9 * ns / rate

/-- A frame that starts at `t` ends before the next paced release (R195). -/
def Dev.endsBefore (d : Dev) (n : Nat) (x : PortFrame) (t : Instant) : Bool :=
  (d.releasesOn n x.sub).all fun r => decide (r < d.now ∨ t + wireTime x.frame (lineRate (d.eth n).mode) ≤ r)

/-- The frame leaves at an instant, but on a muted secondary, whose transmit lanes sleep (R279). The time of a Pdelay_Req is kept for its answer. -/
def Dev.sendAt (d : Dev) (n : Nat) (x : PortFrame) (t : Instant) : Dev :=
  let k := subportOf n x.sub
  let p := d.timePort k
  let d := if d.egressMuted then d else d.emit (.eth (BitVec.ofNat 3 n) x.sub (p.sends t x))
  if x.came.isNone ∧ x.frame.ptp.any (fun m => m.kind == .pdelayReq) then
    d.modTime fun u => { u with ports := Tbl.set {} u.ports k { p with reqSent := p.egress t } }
  else d

/-- A forwarded or control-core frame leaves at once where it ends before the next paced release and none waits before it, else it enters the bridge
buffer; one that does not fit is dropped and counted (R195). -/
def Dev.portFrame (d : Dev) (n : Nat) (x : PortFrame) : Dev :=
  let p := d.eth n
  if p.bridgeQueue.isEmpty ∧ d.endsBefore n x d.now then d.sendAt n x d.now
  else if queued p.bridgeQueue + x.frame.length.toNat ≤ 512 * 1024 then d.setEth n { p with bridgeQueue := p.bridgeQueue ++ [x] }
  else (d.countEth n 4).raise (352 + n)

/-- Frames that waited in the bridge buffer leave in order, one behind the other, while each ends before the next paced release (R195). -/
def Dev.bridgeSend (n : Nat) : List PortFrame → Instant → Dev → Dev
  | [], _, d => d.setEth n { d.eth n with bridgeQueue := [] }
  | x :: t, at_, d =>
    if d.endsBefore n x at_ then Dev.bridgeSend n t (at_ + wireTime x.frame (lineRate (d.eth n).mode)) (d.sendAt n x at_)
    else d.setEth n { d.eth n with bridgeQueue := x :: t }
def Dev.bridgeFlush (d : Dev) (n : Nat) : Dev := Dev.bridgeSend n (d.eth n).bridgeQueue d.now d

-- the clock on a subport (R234, R235)

/-- Octets of a message of the device's own in an Ethernet frame (IEEE 1588-2019; PRESUMED, log entry 152): over IPv6 with the trailer (R236). -/
def ptpLength (transport : BitVec 8) (k : PtpKind) : Nat :=
  let msg := match k with | .announce => 64 | .pdelayReq | .pdelayResp | .delayResp => 54 | _ => 44
  max 64 (18 + msg + (if transport = 4 then 28 else if transport = 6 then 50 else 0))

/-- The group address of PTP messages over UDP, peer delay messages to that of their own (IEEE 1588-2019; PRESUMED, log entry 152). -/
def ptpGroup (transport : BitVec 8) (k : PtpKind) : BitVec 128 :=
  let peer : Bool := k == .pdelayReq || k == .pdelayResp
  if transport = 4 then (if peer then 0xE000006B else 0xE0000181)
  else if peer then BitVec.ofNat 128 (0xFF02 * 2 ^ 112 + 0x6B) else BitVec.ofNat 128 (0xFF0E * 2 ^ 112 + 0x181)

/-- A message of the device's own in the frame of a subport's transport (R234). Over IPv4 its UDP checksum, over IPv6 its trailer (R236), are those of
the whole message, which the spec does not give: free values (log entry 152). -/
def ptpFrame (transport : BitVec 8) (free : Nat) (m : PtpMsg) : EthFrame :=
  let length := BitVec.ofNat 14 (ptpLength transport m.kind)
  if transport = 4 ∨ transport = 6 then
    { length, ethertype := if transport = 4 then 0x0800 else 0x86DD, ipver := transport, dport := if isEvent m.kind then 319 else 320,
      daddr := ptpGroup transport m.kind, ptp := some { m with check := Config.ptpCheck free } }
  else { length, ethertype := 0x88F7, udp := false, ptp := some m }
def Dev.sendPtp (d : Dev) (k : Nat) (m : PtpMsg) : Dev :=
  (d.take 1).portFrame (k / 4) { sub := BitVec.ofNat 2 k, frame := ptpFrame (d.timePort k).transport d.free { m with domain := d.time.domain } }

/-- An answer, in the frame that brought the question (R234, R236). -/
def Dev.answerPtp (d : Dev) (k : Nat) (fr : EthFrame) (m : PtpMsg) : Dev :=
  d.portFrame (k / 4) { sub := BitVec.ofNat 2 k, frame := rewrite fr (fr.ptp.getD {}) m }

/-- The transport of a frame that carries PTP. -/
def ptpTransport (fr : EthFrame) : BitVec 8 := if fr.ethertype = 0x88F7 ∨ !fr.udp then 0 else fr.ipver

/-- The peer delay that a response completes, in 2^-32 ns (R237): half of what the exchange took beyond its turnaround and the corrections. -/
def TimePort.measured (p : TimePort) (rx : Instant) (m : PtpMsg) : Int :=
  (((rx : Int) - p.reqSent) - ((stampTime m.response : Int) - stampTime m.origin) - m.correction.toInt * 2 ^ 16) / 2

/-- A PTP message reaches the time unit (R194, R234, R235): firmware has it with its ingress timestamp, with delayAsymmetry added to the correctionField
of Sync and Pdelay_Resp. On an enabled subport a MASTER answers Delay_Req, peer delay messages are answered and measured, Announce messages enter
best master selection, and Management messages are answered. The subport's own messages go by the transport of those of its domain that reach it
(R234 names the transports and no choice: DESIGN CHOICE, log entry 152). -/
def Dev.ptpRx (d : Dev) (n : Nat) (sub : BitVec 2) (fr : EthFrame) : Dev :=
  let k := subportOf n sub
  let p := d.timePort k
  let rx := p.ingress d.now
  let m := fr.ptp.getD {}
  let corr := m.correction + p.asymIn m.kind
  let d := d.emit (.ptp (BitVec.ofNat 3 n) sub rx corr)
  if !p.en ∨ m.domain ≠ d.time.domain then d
  else
  let p := { p with transport := ptpTransport fr }
  let d := d.modTime fun u => { u with ports := Tbl.set {} u.ports k p }
  match m.kind with
    | .announce => d.announce k m
    | .delayReq => if p.role = 1 ∧ !p.mech then d.answerPtp k fr { m with kind := .delayResp, origin := stamp80 rx } else d
    | .pdelayReq => if p.mech then d.answerPtp k fr { m with kind := .pdelayResp, origin := stamp80 rx } else d
    | .pdelayResp =>
      if p.mech then d.modTime fun u => { u with ports := Tbl.set {} u.ports k { p with peerDelay := p.measured rx { m with correction := corr } } } else d
    | .management => d.answerPtp k fr m
    | _ => d

/-- An interval in units of device time, from its log2 in seconds (R249). -/
def logTime (lo : Int) (v : BitVec 4) : Nat :=
  let k := logRange lo v
  if k < 0 then 10 ^ 9 * ns / 2 ^ k.natAbs else 10 ^ 9 * ns * 2 ^ k.natAbs

/-- The data set that the device announces (R232, R234): as a boundary clock that of the grandmaster it follows, one step further; else its own. -/
def TimeUnit.announced (t : TimeUnit) : DataSet := match t.slavePort with | some (_, x) => { x with steps := x.steps + 1 } | none => t.ownData

/-- The messages that fall due on an enabled subport (R234): Sync and Announce of a MASTER, Delay_Req of a SLAVE, Pdelay_Req under peer delay. -/
def Dev.ptpDue (d : Dev) (k : Nat) : Dev :=
  let send (go : Bool) (kind : PtpKind) (d : Dev) : Dev := if go then d.sendPtp k { kind, data := d.time.announced } else d
  let p := d.timePort k
  if !p.en ∨ !(d.eth (k / 4)).en then d
  else
    let s : Bool := p.role == 1 && decide (p.nextSync ≤ d.now)
    let a : Bool := p.role == 1 && decide (p.nextAnn ≤ d.now)
    let r : Bool := (p.mech || p.role == 2) && decide (p.nextReq ≤ d.now)
    let p := { p with nextSync := if s then d.now + logTime (-7) p.logsync else p.nextSync
                      nextAnn := if a then d.now + logTime (-3) p.logann else p.nextAnn
                      nextReq := if r then d.now + logTime (-7) p.logdreq else p.nextReq }
    let d := d.modTime fun u => { u with ports := Tbl.set {} u.ports k p }
    send r (if p.mech then .pdelayReq else .delayReq) (send a .announce (send s .sync d))

end Sys2Proof.Machine
end

