-- ==== Sys2Proof/Machine/Media.lean ====
section
/-! DEFINITION. The media ports' commands: Ethernet, SDI, flows, feeds, drains and egress (07_media_ports.md R191 to R221). -/

namespace Sys2Proof.Machine
open Sys2Proof

-- lanes (R191)

/-- The lanes that a port, an engine or a bundle uses, beside the one numbered `me` (ports from 0, engines from 100, bundles from 300). An engine's
receiver and transmitter are one user: their lanes may be the same (R191). -/
def Dev.lanesInUse (d : Dev) (me : Nat) : List Nat :=
  (d.media.eth.flatMap fun (n, p) => if p.en ∧ n ≠ me then (List.range 4).map (4 * n + ·) else [])
    ++ ((Tbl.keys d.media.sdi).flatMap fun s => if 100 + s = me then [] else d.rxLanes s ++ d.txLanes s)
    ++ (d.link.bundles.flatMap fun (b, x) => if x.en ∧ 300 + b ≠ me then ((List.range 8).filter x.mask.getLsbD).map (8 * x.oct.toNat + ·) else [])

/-- No other user has the lane (R191). -/
def Dev.laneFree (d : Dev) (me l : Nat) : Bool := !(decide (l ∈ d.lanesInUse me))

/-- The fuse box holds a lane out of service (R417). -/
def Dev.laneOut (d : Dev) (l : Nat) : Bool := (Tbl.get ({} : Lane) d.link.lanes l).isolated

/-- The lanes of a subport: all four at 100 Gb/s, else one (R192). -/
def subLanes (p : EthPort) (n sub : Nat) : List Nat := if p.mode = 0 then [4 * n, 4 * n + 1, 4 * n + 2, 4 * n + 3] else [4 * n + sub]

-- Ethernet

/-- A port and its partner form a forwarding bridge (R195). -/
def Dev.bridged (d : Dev) (n : Nat) : Bool :=
  let a := d.eth (n / 2 * 2)
  let b := d.eth (n / 2 * 2 + 1)
  a.bridge && a.en && b.en && a.mode == b.mode

/-- A PTP message (R194). -/
def isPtp (fr : EthFrame) : Bool := fr.ethertype == 0x88F7 || (fr.udp && !fr.fragment && (fr.dport == 319 || fr.dport == 320))

/-- BRIDGE_FORWARD (R195, R235, R237): a good frame goes out of the other port, unchanged but for the updates of a PTP event message: its residence
time, from its ingress timestamp on, the ingress subport's delayAsymmetry, and under peer delay the measured delay of the link that brought a Sync. -/
def Dev.bridgeForward (d : Dev) (n : Nat) (sub : BitVec 2) (fr : EthFrame) : Dev :=
  let p := d.timePort (subportOf n sub)
  let m := fr.ptp.getD {}
  let ev : Bool := isPtp fr && isEvent m.kind
  d.portFrame (if n % 2 = 0 then n + 1 else n - 1)
    { sub, frame := if isPtp fr then fr else { fr with ptp := none }, came := if ev then some (p.ingress d.now) else none,
      extra := (if p.mech ∧ m.kind = .sync then p.peerDelay else 0) + (p.asymIn m.kind).toInt * 2 ^ 16 }

/-- A frame matches an endpoint (R194, R203). -/
def Leg.takes (l : Leg) (port sub : Nat) (fr : EthFrame) : Bool :=
  l.isSet && l.port == port && l.sub == sub && l.dport == fr.dport.toNat && l.daddr == fr.daddr && l.ipver == fr.ipver.toNat
    && (if bitOf l.vlan 12 then bitOf fr.vlan.toNat 12 && fld l.vlan 0 12 == fld fr.vlan.toNat 0 12 else !bitOf fr.vlan.toNat 12)
    && (l.saddr == 0 || l.saddr == fr.saddr) && (l.ssrc == 0 || l.ssrc == fr.ssrc.toNat)

/-- The open receive flow and leg that a frame matches: `true` is leg B. -/
def Dev.matchLeg (d : Dev) (port sub : Nat) (fr : EthFrame) : Option (Nat × Bool) :=
  d.media.flows.findSome? fun (i, f) =>
    if 1024 ≤ i ∨ !f.opened then none
    else if f.record.legA.takes port sub fr then some (i, false)
    else if f.record.legB.takes port sub fr then some (i, true)
    else none

/-- The numbers that a leg skipped before a sequence number, at most half the space (R205). -/
def skipped (next : Option (BitVec 16)) (seq : BitVec 16) : List (BitVec 16) :=
  match next with
  | none => []
  | some e => if (seq - e).toNat < 2 ^ 15 then (List.range (seq - e).toNat).map fun k => e + BitVec.ofNat 16 k else []

/-- FLOW_PACKET (R205): losses of the leg are counted, a merged flow takes each number from the first leg that delivers it, and remembers it for D. -/
def Dev.flowPacket (d : Dev) (i : Nat) (legB : Bool) (seq : BitVec 16) : Dev :=
  let f := d.flow i
  let was := if legB then f.legB else f.legA
  let next := if legB then f.nextB else f.nextA
  let gap := skipped next seq
  let fresh : Bool := match next with | none => true | some e => decide ((seq - e).toNat < 2 ^ 15)
  let f := { f with legA := f.legA || !legB, legB := f.legB || legB,
                    nextA := if !legB ∧ fresh then some (seq + 1) else f.nextA, nextB := if legB ∧ fresh then some (seq + 1) else f.nextB }
  let f := { f with seen := f.seen.filter fun x => decide (d.now ≤ x.2 + f.record.diff * 1000 * ns) }
  let dup := f.record.merged && f.seen.any (·.1 == seq)
  let miss := if f.record.merged then gap.filter (fun s => !(f.seen.any (·.1 == s)) && !(decide (s ∈ f.missing))) else []
  let f := { f with missing := f.missing.filter (· != seq) ++ miss,
                    seen := if !f.record.merged then [] else if dup then f.seen else (seq, d.now) :: f.seen }
  let d := (d.setFlow i f).countFlow i 0 1
  let d := if gap.isEmpty then d else d.countFlow i (if legB then 5 else 4) gap.length
  let d := if dup then d.countFlow i 2 1 else d
  if was then d else d.raise (flowEvent i)

/-- What FEC found since the frame before (R192, R221, R222): RS-FEC is always on at 100 Gb/s. -/
def Dev.fecFound (d : Dev) (n : Nat) (fr : EthFrame) : Dev :=
  let p := d.eth n
  let rs : Bool := p.mode == 0 || (p.mode == 1 && p.fec == 2)
  if !rs ∧ p.fec ≠ 1 then d
  else
    let d := if fr.fecCorrected = 0 then d else d.countEth n 0 fr.fecCorrected
    if fr.fecUncorrectable = 0 then d
    else
      let d := d.countEth n 1 fr.fecUncorrectable
      if rs then d.raise (352 + n) else d

/-- ETH_FRAME (R193 to R195): checks, bridging, then PTP, a flow's leg or the control-core queue. -/
def Dev.ethFrame (port : BitVec 3) (sub : BitVec 2) (fr : EthFrame) (d : Dev) : Dev :=
  let n := port.toNat
  let p := d.eth n
  if !p.en ∨ !p.up.getLsbD sub.toNat ∨ 9216 < fr.length.toNat then d
  else
  let d := d.fecFound n fr
  if !fr.fcsOk then d.countEth n 2
  else if fr.macControl then d.countEth n 3
  else
    let d := if d.bridged n then d.bridgeForward n sub fr else d
    if isPtp fr ∧ fr.tags.toNat < 2 then d.ptpRx n sub fr
    else match (if fr.udp ∧ !fr.fragment ∧ fr.tags.toNat < 2 then d.matchLeg n sub.toNat fr else none) with
      | some (i, legB) => d.flowPacket i legB fr.seq
      | none =>
        let p := d.eth n
        (d.setEth n { p with coreQueue := p.coreQueue ++ [fr] }).countEth n 5
def execEthFrame (port : BitVec 3) (sub : BitVec 2) (fr : EthFrame) (s : State) : Host.Outcome State Fault Refusal :=
  run true (Dev.ethFrame port sub fr) s

/-- SUBPORT_UP_DOWN (R221, R222): a subport with a lane out of service stays down (R417). -/
def Dev.subportUpDown (port : BitVec 3) (sub : BitVec 2) (up : Bool) (d : Dev) : Dev :=
  let n := port.toNat
  let p := d.eth n
  if !p.en ∨ (p.mode = 0 ∧ sub ≠ 0) ∨ p.up.getLsbD sub.toNat = up ∨ (up ∧ (subLanes p n sub.toNat).any d.laneOut) then d
  else (d.setEth n { p with up := if up then p.up ||| ((1 : BitVec 4) <<< sub.toNat) else p.up &&& ~~~((1 : BitVec 4) <<< sub.toNat) }).raise (352 + n)
def execSubportUpDown (port : BitVec 3) (sub : BitVec 2) (up : Bool) (s : State) : Host.Outcome State Fault Refusal :=
  run true (Dev.subportUpDown port sub up) s

/-- SEQ_LOSS_TIMEOUT (R205): the oldest number that neither leg has delivered within D is lost. -/
def Dev.seqLossTimeout (i : Nat) (d : Dev) : Dev :=
  let f := d.flow i
  match f.missing with
  | [] => d
  | _ :: t => ((d.setFlow i { f with missing := t }).countFlow i 1 1).raise (flowEvent i)
def execSeqLossTimeout (flow : BitVec 10) (s : State) : Host.Outcome State Fault Refusal := run true (Dev.seqLossTimeout flow.toNat) s

/-- LEG_DOWN (R205): 10 ms without a packet. -/
def Dev.legDown (i : Nat) (legB : Bool) (d : Dev) : Dev :=
  let f := d.flow i
  if !f.opened ∨ !(if legB then f.legB else f.legA) then d
  else (d.setFlow i { f with legA := f.legA && legB, legB := f.legB && !legB }).raise (flowEvent i)
def execLegDown (flow : BitVec 10) (legB : Bool) (s : State) : Host.Outcome State Fault Refusal := run true (Dev.legDown flow.toNat legB) s

/-- A packet leaves on a leg whose port is enabled and has its lanes (R205). -/
def Dev.sendLeg (d : Dev) (flow : BitVec 10) (l : Leg) (gs : List Shown) : Dev :=
  if !l.isSet ∨ !(d.eth l.port).en ∨ (subLanes (d.eth l.port) l.port l.sub).any d.laneOut then d
  else d.emit (.packet flow { l with dmac := l.mac } gs)

/-- PACKET_RELEASE (R206): the oldest packet waiting of a transmit flow leaves whole at its time, on both legs of a flow that has two (R205); one that
leaves more than 20 ns behind it is late and counted. `skew`, of at most 40 ns from 20 ns before that time on, is how exactly the engine meets it. -/
def Dev.packetRelease (flow : BitVec 10) (skew : Nat) (d : Dev) : Dev :=
  let i := 1024 + flow.toNat
  let f := d.flow i
  match f.due with
  | [] => d
  | p :: rest =>
    if !f.opened then d
    else
    let late : Bool := decide (p.time + 20 * ns < d.now)
    let d := ((d.reach (p.time - 20 * ns + min skew (40 * ns))).setFlow i { f with due := rest }).countFlow i 0 1
    let d := if late then (d.countFlow i 3 1).raise (flowEvent i) else d
    let d := if d.egressMuted then d else (d.sendLeg flow f.record.legA p.groups).sendLeg flow f.record.legB p.groups
    let d := d.bridgeFlush f.record.legA.port
    if f.record.legB.isSet then d.bridgeFlush f.record.legB.port else d
def execPacketRelease (flow : BitVec 10) (skew : Nat) (s : State) : Host.Outcome State Fault Refusal :=
  run true (Dev.packetRelease flow skew) s

-- SDI

/-- The received format differs from that of the engine's feeds, which a binding record gives without a raster (R213), or routes (R197). -/
def Dev.sdiMismatch (d : Dev) (s : Nat) : Bool :=
  let x := d.sdi s
  let isRef (r : EndRef) : Bool := refKind r == 2 && refNum r == s
  x.locked && ((d.admitted.any fun f => f.obj.bindings.any fun b =>
      b.type == 1 && b.fmt == 1 && isRef (Tbl.get 0 f.ends.feeds b.num) && (b.samp != x.rxsamp.toNat || b.b != 10))
    || (d.media.egress.any fun (e, g) => (match g.route with
        | some r => isRef r && d.inFormat r != d.outFormat e
        | none => false)))

/-- A detected rate is enabled in RXRATES (R197). -/
def SdiEngine.rateOn (x : SdiEngine) (rate : BitVec 4) : Bool :=
  match rate.toNat with
  | 1 => x.rxrates.getLsbD 0 | 2 | 3 => x.rxrates.getLsbD 1 | 4 => x.rxrates.getLsbD 2 | 5 => x.rxrates.getLsbD 3 | _ => false

/-- Update MISMATCH, with the event when it rises (R197, R221). -/
def Dev.noteMismatch (d : Dev) (s : Nat) : Dev :=
  let m := d.sdiMismatch s
  let was := (d.sdi s).mismatch
  let d := d.setSdi s { d.sdi s with mismatch := m }
  if m ∧ !was then d.raise (360 + s) else d

/-- SDI_LINE (R197): one line of a locked receiver. Its good ANC packets enter the control-core ANC queue; to ANC feeds and -40 flows they go as the
groups of the engine's ANC endpoint (FEED_GROUP of a reference of kind 6). -/
def Dev.sdiLine (e : BitVec 5) (l : SdiLine) (d : Dev) : Dev :=
  let s := e.toNat
  let x := d.sdi s
  if !x.rxen ∨ !x.locked ∨ !d.sdiAlone s then d
  else
    let d := d.setSdi s { x with pid := l.pid, raster := l.raster, frate := l.frate, rxsamp := l.samp }
    let d := if l.crcErrors = 0 then d else (d.countSdi s 0 l.crcErrors).raise (360 + s)
    let d := if l.trsError then d.countSdi s 1 1 else d
    let d := if l.ancBad = 0 then d else d.countSdi s 2 l.ancBad
    let d := if l.anc.isEmpty then d else d.setSdi s { d.sdi s with ancQueue := (d.sdi s).ancQueue ++ l.anc }
    d.noteMismatch s
def execSdiLine (e : BitVec 5) (l : SdiLine) (s : State) : Host.Outcome State Fault Refusal := run true (Dev.sdiLine e l) s

/-- SDI_LOCK_CHANGE (R197, R221). -/
def Dev.sdiLockChange (e : BitVec 5) (locked : Bool) (l : SdiLine) (d : Dev) : Dev :=
  let s := e.toNat
  let x := d.sdi s
  if !x.rxen ∨ !d.sdiAlone s ∨ (locked ∧ (!x.rateOn l.rate ∨ (d.rxLanes s).any d.laneOut)) then d
  else
    let d := if locked then d.setSdi s { x with locked := true, rate := l.rate, raster := l.raster, frate := l.frate, rxsamp := l.samp, pid := l.pid }
             else d.setSdi s { x with locked := false, rate := 0, raster := 0, frate := 0, rxsamp := 0, pid := false }
    let d := if locked = x.locked then d else d.raise (360 + s)
    d.noteMismatch s

-- feeds

/-- The source is an SDI engine whose received format differs from what its feeds and routes expect: its feeds mark their words absent (R197). -/
def Dev.mismatched (d : Dev) (r : EndRef) : Bool := (refKind r == 2 || refKind r == 5 || refKind r == 6) && (d.sdi (refNum r)).mismatch

/-- The words of a group (R211): plane b of component c at c × B + b; for ANC, and for COMPRESSED payloads, the group's 64 bits. -/
def groupPlanes (fmt b : Nat) (g : Group) : List Lanes :=
  if fmt = 4 ∨ fmt = 5 then
    [BitVec.ofNat 64 (match g.comps with | (lo :: hi :: _) :: _ => lo.toNat + hi.toNat * 2 ^ 32 | (lo :: _) :: _ => lo.toNat | _ => 0)]
  else g.comps.flatMap fun vals => (List.range b).map fun k =>
    BitVec.ofNat 64 ((vals.zipIdx).foldl (fun acc (v, lane) => acc + bit (v.getLsbD k) lane) 0)

/-- The tag word of a group (R212). -/
def tagWord (fmt : Nat) (g : Group) : Lanes :=
  let line := if fmt = 1 then g.line.toNat else 0
  BitVec.ofNat 64 (line + g.index.toNat * 2 ^ 16 + 2 ^ 28 + bit (g.line = 0 ∧ g.index = 0) 29 + bit g.last 30 + bit g.field 31 + g.frame.toNat * 2 ^ 32)

/-- The feed records of a function that take a source, with the source's format. -/
def Func.feedsOf (f : Func) (ref : EndRef) : List BindRec := f.obj.bindings.filter fun b => b.type == 1 && Tbl.get 0 f.ends.feeds b.num == ref

/-- The frame being written, or the one that was to follow, has not come whole by its limit: it ends incomplete (R184, R205). -/
def FrameStore.expire (fs : FrameStore) (now : Instant) : FrameStore :=
  if fs.limit.any fun t => decide (t < now) then { fs with begun := false, ended := true, validgen := 0, limit := none } else fs

/-- A group enters a frame store (R184): it belongs to the frame being written, or begins the next one, and a frame that it leaves unfinished has
ended incomplete. `limit` is when its frame must be whole. -/
def FrameStore.enter (fs : FrameStore) (g : Group) (n : Beat) (limit : Option Instant) (frameTime : Nat) : FrameStore :=
  if (fs.begun ∨ fs.ended) ∧ fs.frameNo = g.frame then fs
  else { fs with begun := true, ended := false, frameNo := g.frame, got := 0, frameBeat := n, validgen := if fs.begun then 0 else fs.validgen,
                 limit, frameTime }

/-- A group has been written, or not where `ok` is false (R184, R205): a video frame is complete with its last outstanding group, and ends
incomplete with the raster's last group where no other leg can still bring the rest; `held` says that one can. A whole frame is to be followed by
another one, a frame time later. -/
def FrameStore.leave (fs : FrameStore) (fm : Fmt) (g : Group) (held ok : Bool) : FrameStore :=
  if !fs.begun then fs
  else
    let fs := { fs with got := fs.got + bit ok 0 }
    let s := fs.sm1.toNat + 1
    let whole : Bool := if fm.fmt = 1 then fs.got == fm.height * lineGroups fm else g.frameEnd && g.complete && ok
    let ends : Bool := if fm.fmt = 1 then !held && g.line.toNat + 1 == fm.height && g.index.toNat + 1 == lineGroups fm else g.frameEnd
    if whole then
      { fs with begun := false, ended := true, wframe := BitVec.ofNat 4 ((fs.wframe.toNat + 1) % s), validgen := BitVec.ofNat 8 (min s (fs.validgen.toNat + 1)),
                limit := fs.limit.map (· + fs.frameTime) }
    else if ends then { fs with begun := false, ended := true, validgen := 0, limit := none }
    else fs

/-- The byte mask and the data of the words that fall in one line, from the word `first` on. -/
def wordsAt (first line : Nat) (ws : List Lanes) : BitVec 128 × BitVec 1024 :=
  (ws.zipIdx.filter fun (_, k) => (first + k) / 16 == line).foldl (fun (m, v) (x, k) =>
    (m ||| (0xFF#128 <<< (8 * ((first + k) % 16))), v ||| (BitVec.setWidth 1024 x <<< (64 * ((first + k) % 16))))) (0, 0)

/-- The limit of a video group's frame and its frame time (R184, R205): the nominal time of the frame's last sample, and D after it for a merged flow,
else what the source's groups may take to their feed. -/
def Dev.frameLimit (d : Dev) (ref : EndRef) (fm : Fmt) (g : Group) : Option Instant × Nat :=
  if fm.fmt ≠ 1 then (none, 0)
  else
    let (num, den) := frameRate fm.rate
    let r := (d.flow (refNum ref)).record
    let rest := sampleAfter fm (fm.height - 1) (fm.width - 1) - sampleAfter fm g.line.toNat (lastSample fm g.index.toNat)
    (some (g.lastNominal + rest + if refKind ref = 1 ∧ r.merged then r.diff * 1000 * ns else d.offRx ref), 10 ^ 9 * ns * den / num)

/-- A group is written to a frame store (R184): its words at its place in the frame (log entry 24), line by line through the binding's queue. `ecc`
is what the stack's ECC finds in each line. A group with a line that is refused, or that lies beyond FLINES, has not been written. -/
def Dev.storeGroup (d : Dev) (f : Func) (b : BindRec) (ref : EndRef) (fm : Fmt) (g : Group) (held : Bool) (ecc : List LineEcc) : Dev :=
  let w := Tbl.get 0 f.ends.regions b.fsidx
  let n := fld w.toNat 16 8 % 64
  let lim := d.frameLimit ref fm g
  let fs := ((Tbl.get ({} : FrameStore) d.cellar.frames n).expire d.now).enter g d.time.n lim.1 lim.2
  if !w.getLsbD 31 ∨ !fs.opened then d
  else
    let words := groupPlanes fm.fmt fm.b g
    let first := (g.line.toNat * lineGroups fm + g.index.toNat) * groupWords fm.fmt fm.samp fm.b
    let base := (d.cellar.region fs.region.toNat).lines.1 + fs.line.toNat + fs.wframe.toNat * fs.flines.toNat
    let count := if words.isEmpty then 0 else (first + words.length - 1) / 16 + 1 - first / 16
    let (d, ok) := (List.range count).foldl (fun (y : Dev × Bool) k =>
      let line := first / 16 + k
      let x := wordsAt first line words
      if fs.flines.toNat ≤ line then (y.1, false)
      else
        let (d, o) := y.1.writeLine .feed (BitVec.ofNat 9 w.toNat) (base + line) x.1 x.2 (ecc.getD k {})
        (d, y.2 && o == .ok)) (d, true)
    d.modCellar fun c => { c with frames := Tbl.set {} c.frames n (fs.leave fm g held ok) }

/-- Frame stores at a boundary: frames whose limit has passed have ended incomplete (R184, R205). -/
def Dev.framesAtBoundary (d : Dev) : Dev := d.modCellar fun c => { c with frames := Tbl.mapAll {} c.frames (·.expire d.time.start) }

/-- The pass-through source of an egress for a group of nominal time `t`: behind the switching point of a pending change its new source (R216). -/
def Egress.sourceAt (x : Egress) (t : Instant) : Option EndRef :=
  match x.routeNext with
  | some c => if t < c.point then x.route else c.src
  | none => x.route

/-- A pass-through group goes to the egresses whose route names its source, at the boundary of the beat whose feed window holds it, and leaves in
the window in which a drain of that beat would (R209, R216); a change waits for the frame switching point. -/
def Dev.passThrough (d : Dev) (ref : EndRef) (g : Group) : Dev :=
  d.each (Tbl.keys d.media.egress) fun d e =>
    let x := d.egr e
    let t := g.lastNominal + d.offRx ref + d.offTx e
    if x.sourceAt t ≠ some ref then d
    else d.setEgr e { x with queue := x.queue ++ [{ frame := g.frame.toNat, line := g.line.toNat, index := g.index.toNat, last := g.last, time := t,
                                                    shown := if x.repeatFrom ≤ t ∧ t < x.repeatTill then .subst 0 else .passed g,
                                                    beat := d.time.n + 1 }] }

/-- A pass-through change whose switching point lies in the window of the groups that have just passed has taken effect, and completes (R216). -/
def Dev.routesAtBoundary (d : Dev) : Dev :=
  d.each (Tbl.keys d.media.egress) fun d e =>
    let x := d.egr e
    match x.routeNext with
    | some c =>
      if d.time.start + d.offTx e ≤ c.point then d else (d.setEgr e { x with route := c.src, routeNext := none }).finish c.desc c.status 0
    | none => d

/-- FEED_GROUP (R209): a group's last sample has reached its feed. One whose beat's deadline has passed is absent everywhere; else frame stores
take it, and it waits for the boundary of its beat. Under MISMATCH the feeds take nothing (R197). -/
def Dev.feedGroup (ref : EndRef) (x : FedGroup) (d : Dev) : Dev :=
  match d.inFormat ref with
  | none => d
  | some fm =>
    let g : Group := { x.toGroup with lastNominal := d.nominal ref fm x }
    let key := g.lastNominal + d.offRx ref
    let late := d.time.run && (decide (key < d.time.start) || (decide (key < d.time.next) && decide (d.time.next < d.now + 128 * ns)))
    if late then d
    else
      let d := if d.mismatched ref then d else d.each d.admitted fun d f => d.each ((f.feedsOf ref).filter (·.target == 1)) fun d b =>
        d.storeGroup f b ref fm g (refKind ref == 1 && (d.flow (refNum ref)).record.merged) x.ecc
      d.modMedia fun m => { m with groups := m.groups ++ [{ src := ref, key, group := g }] }
def execFeedGroup (ref : EndRef) (g : FedGroup) (s : State) : Host.Outcome State Fault Refusal :=
  run true (Dev.feedGroup ref g) s

/-- FEED_DEADLINE (R209): 128 ns before the boundary, the groups of the feed window that have not arrived are late; `expected` is how many
the raster has in the window. -/
def Dev.feedDeadline (ref : EndRef) (expected : Nat) (d : Dev) : Dev :=
  if !d.time.run ∨ (d.inFormat ref).isNone then d
  else
    let d := d.reach (d.time.next - 128 * ns)
    let have_ := (d.media.groups.filter fun x => x.src == ref && decide (d.time.start ≤ x.key ∧ x.key < d.time.next)).length
    d.lateGroups ref (expected - have_)
def execFeedDeadline (ref : EndRef) (expected : Nat) (s : State) : Host.Outcome State Fault Refusal := run true (Dev.feedDeadline ref expected) s

/-- Insert a group in the order of its window time. -/
def insertGroup (g : FeedGroup) : List FeedGroup → List FeedGroup
  | [] => [g]
  | x :: t => if g.key < x.key then g :: x :: t else x :: insertGroup g t

/-- A feed's group slots in one room for the new beat (R212): words and tags, absent marks for the slots beyond the beat's count, and
FRAMESTART of the primary feed. -/
def Dev.feedRoom (d : Dev) (b : BindRec) (gs : List Group) (y : RoomId × BitVec 8) : Dev :=
  let gw := groupWords b.fmt b.samp b.b
  let ws : List PktWord := (List.range b.gmax).flatMap fun i =>
    let g := gs[i]?
    let body : List PktWord := match g with
      | some g => (groupPlanes b.fmt b.b g).zipIdx.map fun (w, k) => { idx := b.slot0 + i * gw + k, word := w }
      | none => (List.range gw).map fun k => { idx := b.slot0 + i * gw + k, word := 0, absent := true }
    body ++ if b.tags then [{ idx := b.tslot + i, word := (g.map (tagWord b.fmt)).getD 0 }] else []
  let d := d.hubSend 8 257 d.time.n y ws
  let rm := d.room y.1
  if rm.gen = y.2 ∧ b.fmt = 1 ∧ rm.primary.toNat = b.num ∧ gs.any (fun g => g.line == 0 && g.index == 0) then d.setRoom y.1 { rm with frameStart := 1 } else d

/-- The rooms that hold a virtual room of replica ρ, targets of a migration among them (R102, R334). -/
def Dev.feedFunc (d : Dev) (f : Func) (a z : Instant) : Dev :=
  d.each (f.obj.bindings.filter fun b => b.type == 1 && b.target == 0) fun d b =>
    let ref := Tbl.get 0 f.ends.feeds b.num
    let fm := (d.inFormat ref).getD { fmt := b.fmt, samp := b.samp, b := b.b }
    let gs := if d.mismatched ref ∨ (d.inFormat ref).isNone then []
      else ((d.media.groups.filter fun x => x.src == ref && decide (a ≤ x.key ∧ x.key < z)).foldr insertGroup []).map (·.group)
    d.each (List.range f.r) fun d rep =>
      let mine := gs.filter fun g => match divReplica fm b.div f.r g.line.toNat g.index.toNat with | some p => p == rep | none => true
      let d := d.each (f.destinations rep b.vroom) fun d r => d.feedRoom b (mine.take b.gmax) r
      if b.div = 0 ∧ rep ≠ 0 then d else d.lateGroups ref (mine.length - b.gmax)

/-- The groups of an egress's raster with nominal time in [a, b) (R209), where a step of device time or a new TXOFFSET has moved the raster until
its next alignment (R223, R243): the second value is the egress with the move ended, where it has. -/
def Dev.egressSpots (d : Dev) (e : Nat) (fm : Fmt) (a b : Instant) : List Spot × Egress :=
  let x := d.egr e
  let off : Int := d.alignOffset e
  let at_ (sh : Int) (p q : Instant) : List Spot :=
    (d.rasterSpots e fm ((p : Int) - off - sh).toNat ((q : Int) - off - sh).toNat).map fun s => { s with time := ((s.time : Int) + off + sh).toNat }
  let align := d.nextAlign e fm x.shiftFrom
  let x := { x with repeatFrom := movedBy x.shift align, repeatTill := align }
  let done := { x with shift := 0 }
  if x.shift = 0 then (at_ 0 a b, d.egr e)
  else if fm.fmt ≠ 1 then (at_ 0 a b, { x with shift := 0 })
  else if b ≤ align then (at_ x.shift a b, x)
  else if align ≤ a then (at_ 0 a b, done)
  else (at_ x.shift a align ++ at_ 0 align b, done)

/-- Spots with the replica and group slot that supply them (R214). -/
def placeSpots (fm : Fmt) (div r : Nat) : List Spot → List Nat → List (Spot × Nat × Nat)
  | [], _ => []
  | s :: t, used =>
    let rep := (divReplica fm div r s.line s.index).getD 0
    (s, rep, (used[rep]?).getD 0) :: placeSpots fm div r t (used.modify rep (· + 1))

/-- The tag word of a drain's group (R212): a flow's frames count from its opening, an engine's from the PTP epoch (log entry 146). -/
def Dev.spotTag (d : Dev) (e : Nat) (fm : Fmt) (s : Spot) : Lanes :=
  let (num, den) := frameRate fm.rate
  let first := if e < 1024 then (d.flow (1024 + e)).since * num / (10 ^ 9 * ns * den) else 0
  let line := if fm.fmt = 1 then s.line else 0
  let frame := if fm.fmt = 1 then s.frame - first else 0
  BitVec.ofNat 64 (line + s.index % 4096 * 2 ^ 16 + 2 ^ 28 + bit (s.line = 0 ∧ s.index = 0) 29 + bit s.last 30 + bit (fm.interlaced ∧ s.line % 2 = 1) 31
    + frame % 65536 * 2 ^ 32)

/-- The tag words of a function's drains for the beat that begins (R212): of the groups that its words will fill, at step 0 in the windows of the
drain's virtual room. Any slot of an ANC drain may hold a group. -/
def Dev.drainTags (d : Dev) (f : Func) : Dev :=
  d.each (f.obj.bindings.filter fun b => b.type == 2 && b.tags) fun d b =>
    let ref := Tbl.get 0 f.ends.drains b.num
    match refEgress ref, d.refOut ref with
    | some e, some fm =>
      let a := d.time.next + d.offTx e
      let xs := if fm.fmt = 4 then [] else placeSpots fm b.div f.r (d.egressSpots e fm a (a + d.period)).1 (List.replicate (max 1 f.r) 0)
      d.each (List.range f.r) fun d rep => d.each (f.destinations rep b.vroom) fun d y =>
        d.hubSend 8 257 d.time.n y <| (List.range b.gmax).map fun i =>
          let w : Lanes := if fm.fmt = 4 then BitVec.ofNat 64 (2 ^ 28)
            else match xs.find? fun x => x.2.2 == i && (b.div == 0 || x.2.1 == rep) with
              | some x => d.spotTag e fm x.1
              | none => 0
          { idx := b.tslot + i, word := w }
    | _, _ => d

/-- Feeds at a boundary: the groups of the window [a, z) go to the windows of the new beat and to pass-through egresses, and drains' tag words are
written; groups four beats old are forgotten (they
serve BYPASS until then, log entry 25). -/
def Dev.feedsAtBoundary (d : Dev) (a z : Instant) : Dev :=
  let d := d.each (d.admitted.filter fun f => decide (f.since ≤ d.time.n)) fun d f => (d.feedFunc f a z).drainTags f
  let d := d.each ((d.media.groups.filter fun x => decide (a ≤ x.key ∧ x.key < z)).foldr insertGroup []) fun d x => d.passThrough x.src x.group
  d.routesAtBoundary.framesAtBoundary.modMedia fun m => { m with groups := m.groups.filter fun x => decide (z < x.key + 4 * (z - a)) }

-- drains and egress

/-- The substitute of a drain (R218), 0 for the configured safe state. -/
def Func.substOf (f : Func) (dr : Nat) : Nat := (f.obj.subst[dr]?).getD 0

/-- The configured safe state of an egress as a SUBST code: a flow's SAFE; for SDI that of the drain bound to it, else BLACK (log entry 26). -/
def Dev.safeState (d : Dev) (e : Nat) : Nat :=
  if e < 1024 then (d.flow (1024 + e)).record.safe + 1
  else
    let c := (d.admitted.findSome? fun f => f.obj.bindings.findSome? fun b =>
      if b.type = 2 ∧ refEgress (Tbl.get 0 f.ends.drains b.num) = some e then some (f.substOf b.num) else none).getD 0
    if c = 1 ∨ c = 3 then c else 2

/-- The words of a group slot of a drain, if all of them are held (R217). -/
def Func.drainGroup (f : Func) (rep dr slot gw : Nat) : Option (List Lanes) :=
  let ws := (List.range gw).map fun k => (Tbl.get none f.emitting ((rep * 256 + dr) * 65536 + slot * gw + k)).map (·.word)
  if ws.all (·.isSome) then some (ws.filterMap fun w => w) else none

/-- One group of a drain as it goes to its egress (R99, R212, R217, R218), with how many groups were substituted. -/
def Func.drainShown (f : Func) (b : BindRec) (rep slot gw : Nat) : Shown × Bool :=
  let ws := if f.emitCommit ∧ slot < b.gmax then f.drainGroup rep b.num slot gw else none
  match ws with
  | some ws => (.words ws, false)
  | none => (.subst (f.substOf b.num), f.emitCommit)

/-- Groups of a drain that were substituted are counted on their flow; those of a committed beat raise the event (R217, R221). -/
def Dev.countSubst (d : Dev) (e n : Nat) (ev : Bool) : Dev :=
  if 1024 ≤ e ∨ n = 0 then d
  else
    let d := d.countFlow (1024 + e) 6 n
    if ev then d.raise (flowEvent e) else d

/-- A reroute of this drain takes effect at the first frame start among the spots (R216): the spots before it and those from it on. -/
def splitAtFrame : List (Spot × Nat × Nat) → List (Spot × Nat × Nat) × List (Spot × Nat × Nat)
  | [] => ([], [])
  | x :: t => if x.1.line = 0 ∧ x.1.index = 0 then ([], x :: t) else let (a, b) := splitAtFrame t; (x :: a, b)

/-- A frame of a -40 flow begins in the beat: the flow's RATE holds its frame-rate code (R219; DEDUCED, log entry 148). -/
def Dev.ancFrame (d : Dev) (e : Nat) : Bool :=
  let fm : Fmt := { fmt := 1, samp := 0, b := 0, rate := (d.flow (1024 + e)).record.rate }
  e < 1024 && decide (d.nextAlign e fm d.time.start < d.time.next)

/-- Of an ANC drain's groups the committed ones and those of BYPASS go to the egress; HOLD, BLACK and STOP send no packets but a -40 flow's one empty
packet per frame under HOLD and BLACK (R219). -/
def Dev.ancItems (d : Dev) (e : Nat) (xs : List EgressItem) : List EgressItem :=
  let code (c : Nat) : Nat := if c = 0 then d.safeState e else c
  let quiet (x : EgressItem) : Bool := match x.shown with | .subst c => code c != 3 | _ => false
  xs.filter (fun x => !quiet x) ++ (if d.ancFrame e then
    (xs.find? fun x => match x.shown with | .subst c => code c == 1 || code c == 2 | _ => false).toList else [])

/-- Put the groups of a drain on an egress. -/
def Dev.releaseTo (d : Dev) (f : Func) (b : BindRec) (e : Nat) (xs : List (Spot × Nat × Nat)) : Dev :=
  let gw := groupWords b.fmt b.samp b.b
  let x := d.egr e
  let shown := xs.map fun (s, rep, slot) => (s, f.drainShown b rep slot gw)
  let item (s : Spot) (w : Shown) : EgressItem :=
    { frame := s.frame, line := s.line, index := s.index, last := s.last, time := s.time,
      shown := if b.fmt = 1 ∧ x.repeatFrom ≤ s.time ∧ s.time < x.repeatTill then .subst 0 else w, beat := f.emitBeat + 1 }
  let subs := (shown.filter fun y => match y.2.1 with | .subst _ => true | _ => false).length
  let d := d.countSubst e subs (shown.any (·.2.2))
  let d := if e < 1024 then (let fl := d.flow (1024 + e); d.setFlow (1024 + e) { fl with subst := decide (subs ≠ 0) }) else d
  let items := shown.map fun (s, w, _) => item s w
  d.setEgr e { x with queue := x.queue ++ if b.fmt = 4 then d.ancItems e items else items }

/-- The groups of a drain whose words a commit has left without an egress: they are discarded and counted (R204). -/
def Func.committedGroups (f : Func) (b : BindRec) : Nat :=
  let gw := groupWords b.fmt b.samp b.b
  if !f.emitCommit then 0
  else ((List.range f.r).map fun rep =>
    if b.div = 0 ∧ rep ≠ 0 then 0 else ((List.range b.gmax).filter fun k => (f.drainGroup rep b.num k gw).isSome).length).sum

/-- A reroute of a drain takes effect and completes (R216). -/
def Dev.rerouteDone (d : Dev) (b : BindRec) (y : Reroute) : Dev :=
  let d := d.modFunc y.func fun f => { f with ends := { f.ends with drains := Tbl.set 0 f.ends.drains b.num y.ref } }
  (d.modMedia fun m => { m with reroutes := m.reroutes.erase y }).finish y.desc y.status 0

/-- A hub port takes the words of a drain, or the mark that they are substituted (R14, R295); under threshold hold it discards them as stale, which the
model counts beside the registers (R326; log entry 190). -/
def Dev.releaseToPort (d : Dev) (f : Func) (b : BindRec) (p : Nat) : Dev :=
  let ws := if f.emitCommit then (List.range b.size).filterMap fun k => (Tbl.get none f.emitting (b.num * 65536 + k)).map fun w => (k, w.word) else []
  let held := (Tbl.get ({} : FbBlock) d.fabric.blocks p).phase != .run
  d.putFabric { d.fabric with hubports := Tbl.modify {} d.fabric.hubports p fun h =>
    { h with rx := if held then [] else ws, stale := if held then h.stale + ws.length else h.stale, rxcount := 0, rxsub := h.rxsub || !f.emitCommit } }

/-- The places of a drain's groups in the window of the beat (R209, R214): every slot of an ANC drain is one (R217). -/
def Dev.drainPlaces (d : Dev) (f : Func) (b : BindRec) (e : Nat) (fm : Fmt) : List (Spot × Nat × Nat) × Egress :=
  if b.fmt = 4 then
    ((List.range b.gmax).map fun k => ({ frame := 0, line := 0, index := k, last := decide (k + 1 = b.gmax), time := d.time.start + d.steps64 }, 0, k), d.egr e)
  else
    let (ss, x) := d.egressSpots e fm (d.time.start + d.offTx e) (d.time.next + d.offTx e)
    (placeSpots fm b.div f.r ss (List.replicate (max 1 f.r) 0), x)
/-- DRAIN_RELEASE (R100): the ports take the words of the beat before, or the substitutes, from step 64 on, for the groups whose nominal
times lie in the drain window of the beat (R209). -/
def Dev.drainRelease (fid : FuncId) (dr : BitVec 8) (d : Dev) : Dev :=
  match d.func? fid with
  | none => d
  | some f =>
    match f.obj.bindings.find? (fun b => b.type == 2 && b.num == dr.toNat) with
    | none => d
    | some b =>
      if !d.time.run ∨ f.emitBeat + 1 ≠ d.time.n ∨ b.num ∈ f.released then d
      else
      let d := d.modFunc fid fun f => { f with released := b.num :: f.released }
      let change := d.media.reroutes.find? fun y => y.func == fid && y.drain == b.num
      let (d, change, ref) := match change with
        | some y => if b.fmt = 1 then (d, change, Tbl.get 0 f.ends.drains b.num) else (d.rerouteDone b y, none, y.ref)
        | none => (d, none, Tbl.get 0 f.ends.drains b.num)
      if refKind ref = 4 then d.releaseToPort f b (refNum ref % 64)
      else match refEgress ref, d.refOut ref with
        | none, _ => d
        | some e, none => let n := f.committedGroups b; d.countSubst e n (decide (0 < n))
        | some e, some fm =>
          let (xs, x) := d.drainPlaces f b e fm
          let d := d.setEgr e x
          match change with
          | none => d.releaseTo f b e xs
          | some y =>
            let (old, new) := splitAtFrame xs
            let d := d.releaseTo f b e old
            if new.isEmpty then d
            else
              let d := d.rerouteDone b y
              match refEgress y.ref with
              | some e' => d.releaseTo f b e' new
              | none => d
def execDrainRelease (f : FuncId) (dr : BitVec 8) (s : State) : Host.Outcome State Fault Refusal := run true (Dev.drainRelease f dr) s

/-- P of each AES3 stream, recomputed for even parity over time slots 4 to 31 (R490). -/
def aesParity (ws : List Lanes) : List Lanes := ws.take 31 ++ [((ws.take 31).drop 4).foldl (· ^^^ ·) 0]

/-- Note a committed AES3 sample instant: preambles and the channel status block (R219, R490). -/
def Egress.noteAes (x : Egress) (ws : List Lanes) : Egress :=
  let y := (ws[0]?).getD 0
  let z := (ws[1]?).getD 0
  let pos := if z.getLsbD 0 then 0 else x.blockPos
  let c := (ws[30]?).getD 0
  let st := (List.range 16).foldl (fun t k =>
    Tbl.modify 0 t k fun v => if c.getLsbD k then v ||| ((1 : BitVec 192) <<< pos) else v &&& ~~~((1 : BitVec 192) <<< pos)) x.chStatus
  { x with chStatus := st, preY := y, blockPos := if y.getLsbD 0 then (pos + 1) % 192 else pos }

/-- An AES3 sample instant under BLACK, or under HOLD with the last committed one: preambles in frame and block order, channel status in
block order (R219). -/
def Egress.aesSubst (x : Egress) (held_ : List Lanes) : List Lanes × Egress :=
  let y := ~~~x.preY
  let z := if x.blockPos = 0 then x.preY else 0
  let c := BitVec.ofNat 64 ((List.range 16).foldl (fun acc k => acc + bit ((Tbl.get 0 x.chStatus k).getLsbD x.blockPos) k) 0)
  let mid := (List.range 26).map fun k => (held_[4 + k]?).getD 0
  (aesParity ([y, z, 0, 0] ++ mid ++ [c, 0]), { x with preY := y, blockPos := if y.getLsbD 0 then (x.blockPos + 1) % 192 else x.blockPos })

/-- The source of BYPASS: a flow record's field (R202); for an SDI egress the spec names none, so that it emits BLACK (R220). -/
def Dev.bypassRef (d : Dev) (e : Nat) : Option EndRef := if 1024 ≤ e then none else some (d.flow (1024 + e)).record.bypassRef

/-- The words of a group of BLACK (R219): Y, or G, B and R, at black and C in the middle, in the group's active lanes; digital silence for AUDIO.
4:2:0 has C on even lines only (R211). -/
def blackWords (fm : Fmt) (full : Bool) (line index : Nat) : List Lanes :=
  match fm.fmt with
  | 1 =>
    let lanes : Lanes := BitVec.ofNat 64 (2 ^ min 64 (fm.width - 64 * index) - 1)
    (List.range (ncomp 1 fm.samp)).flatMap fun c =>
      let v := if fm.samp = 2 ∨ c = 0 then (if full then 0 else 16 * 2 ^ (fm.b - 8)) else if fm.samp = 3 ∧ line % 2 = 1 then 0 else 2 ^ (fm.b - 1)
      (List.range fm.b).map fun k => if bitOf v k then lanes else 0
  | 2 => List.replicate fm.b 0
  | _ => []

/-- The egress's format has full range (R202). -/
def Dev.fullRange (d : Dev) (e : Nat) : Bool := e < 1024 && bitOf (d.flow (1024 + e)).record.vflags 2

/-- ANC under HOLD or BLACK (R219): a -40 flow sends one empty packet per frame, an SDI transmitter nothing but the payload identifier. -/
def Dev.emptyAnc (d : Dev) (e code : Nat) (it : EgressItem) (x : Egress) : Shown × Egress :=
  if 1024 ≤ e ∨ it.time < x.emptyFrom then (.subst 4, x)
  else (.subst code, { x with emptyFrom := d.nextAlign e { fmt := 1, samp := 0, b := 0, rate := (d.flow (1024 + e)).record.rate } (it.time + 1) })

/-- What a substitute shows (R219, R220). SDI has no STOP: it emits BLACK. -/
def Dev.showSubst (d : Dev) (e : Nat) (code : Nat) (it : EgressItem) (fm : Fmt) : Shown × Egress :=
  let x := { d.egr e with black := false }
  let comp := fm.fmt == 5
  let black : Shown × Egress := if comp then (.subst 4, x)
    else if fm.fmt = 3 then let (ws, x) := x.aesSubst []; (.words ws, x)
    else if fm.fmt = 1 ∨ fm.fmt = 2 then (.words (blackWords fm (d.fullRange e) it.line it.index), { x with black := true })
    else d.emptyAnc e 2 it x
  match code with
  | 1 =>
    if fm.fmt = 4 then d.emptyAnc e 1 it x
    else if !x.committed then black
    else match Tbl.get none (x.holdLine.map fun (k, v) => (k, some v)) (if fm.fmt = 1 then it.index else 0) with
      | some ws => if fm.fmt = 3 then (let (ws, x) := x.aesSubst ws; (.words ws, x)) else (.words ws, x)
      | none => black
  | 3 =>
    let src := (d.bypassRef e).bind fun r => (d.media.groups.filter fun g =>
      g.src == r && g.group.line.toNat == it.line && g.group.index.toNat == it.index).getLast?
    (match src with
    | some g => (.passed g.group, x)
    | none => black)
  | 4 => if 1024 ≤ e then black else (.subst 4, x)
  | _ => black

/-- A committed group enters the hold line (R217, R219). -/
def Egress.noteCommitted (x : Egress) (fm : Fmt) (it : EgressItem) (ws : List Lanes) : Egress :=
  let x := { x with committed := true }
  if fm.fmt = 1 then
    let now_ := Tbl.insert (if it.index = 0 ∨ x.lineAt ≠ (it.frame, it.line) then [] else x.lineNow) it.index ws
    let x := { x with lineAt := (it.frame, it.line) }
    if it.last then { x with lineNow := [], holdLine := if now_.length = it.index + 1 then now_ else x.holdLine } else { x with lineNow := now_ }
  else if fm.fmt = 3 then { x.noteAes ws with holdLine := [(0, ws)] }
  else { x with holdLine := [(0, ws)] }

/-- A transmit lane of an SDI egress is out of service (R417). -/
def Dev.txOut (d : Dev) (e : Nat) : Bool := 1024 ≤ e && (d.txLanes ((e - 1024) % 32)).any d.laneOut

/-- Groups that a packet of a transmit flow carries (R202, R206): an audio packet PTIME of them, another one (log entry 143). -/
def FlowRec.perPacket (r : FlowRec) : Nat := if r.fmt = 2 then max 1 (r.ptime * (if r.rate = 1 then 96000 else 48000) / 10 ^ 9) else 1

/-- A group enters its flow's packet, which waits for its release once it is full (R206); `fresh` says that it holds committed words. -/
def Flow.pack (f : Flow) (time : Instant) (fresh : Bool) (s : Shown) : Flow :=
  let gs := f.filling ++ [(fresh, s)]
  if gs.length < f.record.perPacket then { f with filling := gs }
  else { f with filling := [], due := f.due ++ [{ time, groups := gs.map (·.2), fresh := (gs.filter (·.1)).length }] }

/-- What an egress emits: a flow's group goes into a packet, an SDI group to the lane. STOP sends nothing (R219). -/
def Dev.emitShown (d : Dev) (e : Nat) (time : Instant) (fresh : Bool) (s : Shown) : Dev :=
  if s = .subst 4 then d
  else if e < 1024 then d.setFlow (1024 + e) ((d.flow (1024 + e)).pack time fresh s)
  else if d.egressMuted ∨ d.txOut e then d
  else d.emit (.egress (BitVec.ofNat 11 e) s)

/-- Octets of ancillary space of a raster line: its samples outside the active picture in two data streams, without EAV, line number, CRC and SAV,
and the 11 of the payload identifier, which come first (R198; PRESUMED, log entry 149). -/
def ancSpace (fm : Fmt) : Nat := 2 * ((totals fm).1 - fm.width - 12) - 11

/-- Words that a drain's function committed; a pass-through's group and a -40 flow's are not. -/
def EgressItem.fresh (i : EgressItem) : Bool := match i.shown with | .words _ => true | _ => false

/-- The ANC packets of a transmitter's queue, in order, and what waits of one that has not come whole: a pass-through packet ends with its last group,
the committed words of a drain's beat are one packet (DESIGN CHOICE, log entry 179). -/
def ancPackets : List EgressItem → List (List EgressItem) × List EgressItem
  | [] => ([], [])
  | i :: t =>
    let (ps, rest) := ancPackets t
    if i.last then ([i] :: ps, rest)
    else match t, ps with
      | j :: _, p :: ps' => if i.fresh = j.fresh ∧ (!i.fresh ∨ i.beat = j.beat) then ((i :: p) :: ps', rest) else ([i] :: ps, rest)
      | j :: _, [] => if i.fresh = j.fresh ∧ (!i.fresh ∨ i.beat = j.beat) then ([], i :: rest) else ([[i]], rest)
      | [], _ => if i.fresh then ([[i]], []) else ([], [i])

/-- Packets in their order of priority take the space of a line, whole: those that fit, and how many did not (R198). -/
def fitAnc : Nat → List (List EgressItem) → List (List EgressItem) × Nat
  | _, [] => ([], 0)
  | room, p :: ps =>
    if 8 * p.length ≤ room then let (a, n) := fitAnc (room - 8 * p.length) ps; (p :: a, n)
    else let (a, n) := fitAnc room ps; (a, n + 1)

/-- At the end of a line the transmitter inserts the ANC packets that wait, drains' before those of -40 flows; one that does not fit is dropped and
counted. Under BLACK ANC pass-through is off, and a forced egress inserts none. The line leaves with the TRS, number, CRC and ST 352 identifier that
the transmitter generates (R198, R219, R220). -/
def Dev.insertAnc (d : Dev) (s : Nat) (fm : Fmt) (it : EgressItem) : Dev :=
  let y := d.egr (1056 + s)
  let x := d.egr (1024 + s)
  let (ps, rest) := ancPackets (y.queue.filter fun i => match i.shown with | .subst _ => false | _ => true)
  let isDrain (p : List EgressItem) : Bool := p.any (·.fresh)
  let ready := if x.forced then [] else ps.filter isDrain ++ (if x.black then [] else ps.filter fun p => !isDrain p)
  let (put, lost) := fitAnc (ancSpace fm) ready
  let d := d.setEgr (1056 + s) { y with queue := rest }
  let d := if d.egressMuted ∨ d.txOut (1024 + s) then d
    else d.emit (.sdiLine (BitVec.ofNat 5 s) (rasterLine fm it.line + 1) (fm.interlaced && it.line % 2 == 1) (put.map (·.map (·.shown))))
  if lost = 0 then d else (d.countSdi s 3 lost).raise (360 + s)

/-- The next group of an egress that has nothing queued, in its raster (R198, R220). -/
def Dev.idleItem (d : Dev) (e : Nat) (fm : Fmt) : EgressItem :=
  let frame := let (num, den) := frameRate fm.rate; 10 ^ 9 * ns * den / num
  let s := ((d.egressSpots e fm d.now (d.now + frame)).1.head?).getD { frame := 0, line := 0, index := 0, last := true, time := d.now }
  { frame := s.frame, line := s.line, index := s.index, last := s.last, time := s.time, shown := .subst 0, beat := d.time.n }

/-- What an egress shows for a group: its safe state while it is forced, else the group (R219, R220). -/
def Dev.showItem (d : Dev) (n : Nat) (fm : Fmt) (it : EgressItem) : Shown × Egress :=
  let x := { d.egr n with black := false }
  if x.forced then d.showSubst n (d.safeState n) it fm
  else match it.shown with
    | .words ws => let ws := if fm.fmt = 3 then aesParity ws else ws; (.words ws, if fm.fmt = 4 then x else x.noteCommitted fm it ws)
    | .passed g => (.passed g, x)
    | .subst c => d.showSubst n (if c = 0 then d.safeState n else c) it fm

/-- P is recomputed whatever the word held, in a group passed through as well (R490). -/
def egressShown (fm : Fmt) (s : Shown) : Shown :=
  match s with
  | .passed g => if fm.fmt = 3 then .words (aesParity (groupPlanes 3 32 g)) else s
  | _ => s

/-- EGRESS_GROUP (R209, R219, R220): the next group of an egress at its nominal time: forced, committed or substituted. An SDI transmitter with
nothing bound emits BLACK in the format of SDI_TXFMT (R198), and a forced egress its safe state. -/
def Dev.egressGroup (e : BitVec 11) (d : Dev) : Dev :=
  let n := e.toNat
  match d.outFormat n with
  | none => d.modEgr n fun x => { x with queue := x.queue.drop 1 }
  | some fm =>
    let x := d.egr n
    let next := match x.queue with | it :: _ => some it | [] => if 1024 ≤ n ∨ x.forced then some (d.idleItem n fm) else none
    match next with
    | none => d
    | some it =>
      let x := { x with queue := x.queue.drop 1 }
      let x := match x.liftBeat with
        | some b => if b ≤ it.beat then { x with forced := false, liftBeat := none } else x
        | none => x
      let d := d.setEgr n x
      let (shown, x) := d.showItem n fm it
      let d := (d.setEgr n x).emitShown n it.time (it.fresh && !x.forced) (egressShown fm shown)
      if 1024 ≤ n ∧ n < 1056 ∧ it.last then d.insertAnc (n - 1024) fm it else d
def execEgressGroup (e : BitVec 11) (s : State) : Host.Outcome State Fault Refusal := run (egressOk e) (Dev.egressGroup e) s

/-- FORCE_APPLY (R220, R420): a force that has reached the egress takes effect. -/
def execForceApply (e : BitVec 11) (s : State) : Host.Outcome State Fault Refusal :=
  run (egressOk e) (fun d => d.modEgr e.toNat fun x => if x.forceWant then { x with forced := true, liftBeat := none } else x) s

end Sys2Proof.Machine
end

