-- ==== Sys2Proof/Machine/Flows.lean ====
section
/-! DEFINITION. Opening, closing and routing of flows, and the ETH, SDI and FLOW registers (07_media_ports.md R191, R201 to R206, R216,
R222 to R224). -/

namespace Sys2Proof.Machine
open Sys2Proof

/-- The most channels that a conformance level of ST 2110-30 gives a rate and packet time (R201; PRESUMED from that standard, log entry 145). -/
def FlowRec.audioMost (r : FlowRec) : Nat :=
  if r.ptime = 125000 then (if r.rate = 1 then 32 else 64) else if r.rate = 1 then 4 else 8

/-- A BYPASS field that names no receive flow and no SDI engine (R202). -/
def FlowRec.bypassBad (r : FlowRec) : Bool := !decide (r.bypass < 1024 ∨ (0x8000 ≤ r.bypass ∧ r.bypass < 0x8020))

/-- A field of a flow record is outside its range, or its format is not in R201 (detail 0x21). -/
def FlowRec.formatBad (r : FlowRec) : Bool :=
  let legBad (l : Leg) : Bool := decide (8 ≤ l.port ∨ 4 ≤ l.sub ∨ (l.ipver ≠ 4 ∧ l.ipver ≠ 6) ∨ l.pt < 96 ∨ 127 < l.pt) || !l.rsvOk
  let video := decide (r.samp ≤ 3 ∧ (r.depth = 8 ∨ r.depth = 10 ∨ r.depth = 12 ∨ r.depth = 16) ∧ r.rate ≤ 10 ∧ r.width ≠ 0 ∧ r.height ≠ 0 ∧ r.ptime = 0)
  let audio := decide (1 ≤ r.width ∧ r.width ≤ r.audioMost ∧ r.height = 0 ∧ r.rate ≤ 1 ∧ r.samp ≤ 1 ∧ r.depth = 0 ∧ (r.ptime = 125000 ∨ r.ptime = 1000000))
  let aes := decide (1 ≤ r.width ∧ r.width ≤ 16 ∧ r.height = 0 ∧ r.depth = 0 ∧ r.ptime = 0)
  let other := decide (r.width = 0 ∧ r.height = 0 ∧ r.depth = 0 ∧ r.ptime = 0)
  let okFmt := match r.fmt with | 1 => video | 2 => audio | 3 => aes | 4 | 5 => other | _ => false
  decide (2 ≤ r.dir ∨ 1024 ≤ r.flow ∨ 8 ≤ r.vflags ∨ 4 ≤ r.mclass ∨ 3 ≤ r.pacing ∨ 4 ≤ r.safe) || !r.rsvOk || !okFmt || r.above 500
    || legBad r.legA || (r.legB.isSet && legBad r.legB) || (r.merged && decide (r.diff = 0 ∨ 1000000 < r.diff))
    || (r.dir == 1 && r.bypassBad) || (r.mclass == 3 && r.above 15) || (r.fmt == 5 && r.dir == 1 && decide (r.safe ≤ 1))

/-- Two legs match the same frames (R194). -/
def legsClash (a b : Leg) : Bool :=
  let vid (l : Leg) : Nat := if bitOf l.vlan 12 then fld l.vlan 0 13 else 0
  a.isSet && b.isSet && a.port == b.port && a.sub == b.sub && a.ipver == b.ipver && vid a == vid b && a.daddr == b.daddr && a.dport == b.dport
    && (a.saddr == 0 || b.saddr == 0 || a.saddr == b.saddr) && (a.ssrc == 0 || b.ssrc == 0 || a.ssrc == b.ssrc)

/-- The open flows of the table. -/
def Dev.openFlows (d : Dev) : List (Nat × Flow) := d.media.flows.filter fun (_, f) => f.opened

/-- The port or subport of a leg is disabled (R204). -/
def Dev.legPortBad (d : Dev) (l : Leg) : Bool :=
  let p := d.eth l.port
  !p.en || (p.mode == 0 && l.sub != 0)

/-- Wire rate of a flow in units of 1 b/s, with 86 bytes beside each 1,200 of payload (the chapter's worked example; log entry 27). -/
def FlowRec.wire (r : FlowRec) : Nat := let (bits, num, den) := r.payload; bits * num * 1286 / (den * 1200)

/-- How many legs of a flow are on a leg's subport: a transmit flow sends every packet on each of them (R205). -/
def FlowRec.legsOn (r : FlowRec) (l : Leg) : Nat :=
  ([r.legA, r.legB].filter fun x => x.isSet && x.port == l.port && x.sub == l.sub).length

/-- The transmit wire rates of a subport exceed 96 % of its line rate (R204). -/
def Dev.overRate (d : Dev) (r : FlowRec) (l : Leg) : Bool :=
  let sum := ((d.openFlows.filter fun (i, _) => 1024 ≤ i).map fun (_, f) => f.record.legsOn l * f.record.wire).sum
  decide (lineRate (d.eth l.port).mode * 96 / 100 < sum + r.legsOn l * r.wire)

/-- T_beat in ns. -/
def Dev.beatNs (d : Dev) : Nat := d.time.period.toNat * 8

/-- Buffer bytes of the open flows, in all and in one region (R205). -/
def Dev.bufAll (d : Dev) : Nat := (d.openFlows.map fun (i, f) => d.bufOf i f).sum
def Dev.bufIn (d : Dev) (n : Nat) : Nat := (d.openFlows.map fun (i, f) => if f.record.region = n then d.bufOf i f else 0).sum

/-- The flow budget and what open flows take of it (R205). -/
def Dev.flowLimit (d : Dev) : Nat := d.beatNs / 8
def Dev.flowUsed (d : Dev) : Nat := (d.openFlows.map fun (i, f) => d.linesOf d.beatNs i f).sum

/-- Among these receive flows some would come to need a differential buffer, and it does not fit (R204, R205): a consumer beside frame-store feeds
is about to be bound (log entry 141). -/
def Dev.bufferLacks (d : Dev) (refs : List EndRef) : Bool :=
  let is := (refs.eraseDups.filter fun r => refKind r == 1 && decide (refNum r < 1024)).map refNum
  let new := is.filter fun i => (d.flow i).opened && (d.flow i).record.merged && !d.buffered i
  let bytes (p : FlowRec → Bool) : Nat := (new.map fun i => if p (d.flow i).record then (d.flow i).record.bufBytes else 0).sum
  decide (2 * 2 ^ 30 < d.bufAll + bytes fun _ => true)
    || decide (d.flowLimit < d.flowUsed + (new.map fun i => (d.flow i).record.budgetLines d.beatNs).sum)
    || new.any fun i =>
      let n := (d.flow i).record.region
      let reg := d.cellar.region n
      !reg.en || !reg.rights.getLsbD 3 || decide ((reg.lines.2 - reg.lines.1) * 128 < d.bufIn n + bytes fun r => r.region == n)

/-- The first refusal of R204 that applies. -/
def Dev.flowRefusal (d : Dev) (r : FlowRec) : Option Nat :=
  let i := r.flow + 1024 * r.dir
  let legs := [r.legA] ++ (if r.legB.isSet then [r.legB] else [])
  let reg := d.cellar.region r.region
  let buf : Bool := r.merged && d.buffered r.flow
  let bufBad := buf && (!reg.en || !reg.rights.getLsbD 3 || decide ((reg.lines.2 - reg.lines.1) * 128 < d.bufIn r.region + r.bufBytes)
    || decide (2 * 2 ^ 30 < d.bufAll + r.bufBytes))
  if r.flow < 1024 ∧ r.dir < 2 ∧ (d.flow i).opened then some 0x20
  else if r.formatBad then some 0x21
  else if r.dir = 0 ∧ (d.openFlows.any fun (j, f) => decide (j < 1024) && legs.any fun l => legsClash l f.record.legA || legsClash l f.record.legB) then some 0x22
  else if bufBad then some 0x23
  else if buf ∧ d.flowLimit < d.flowUsed + r.budgetLines d.beatNs then some 0x24
  else if legs.any d.legPortBad ∨ (r.dir = 1 ∧ legs.any (d.overRate r)) then some 0x25
  else if r.dir = 1 ∧ r.safe = 2 ∧ d.inFormat r.bypassRef ≠ some r.format then some 0x26
  else if (r.dir = 0 ∧ r.offs < 400) ∨ (r.dir = 1 ∧ r.offs * ns < d.steps64 + 328 * ns) then some 0x27
  else none

/-- An egress whose flow opens or closes: nothing of the flow before it is shown again (R217, R219, R220); what a force or a route has ordered stays. -/
def Egress.anew (y : Egress) : Egress :=
  { y with queue := [], holdLine := [], committed := false, lineNow := [], lineAt := (0, 0), chStatus := [], blockPos := 0, preY := 0, black := false, emptyFrom := 0 }

/-- FLOW_OPEN (R202 to R205). The flow's counters go on: they stay until they are cleared (R224). A VF's flow on a port that is not its own is refused as PRIVILEGE (R340). -/
def Dev.flowOpen (x : DescRef) (d : Dev) : Dev :=
  d.runOp x 0x20 true fun d e =>
    let r := parseFlow (e.args.getD [])
    let view := (d.ring x.ring).owner
    if view ≠ 0 ∧ !d.ownsRecord view r then d.finish x 5 3
    else match d.flowRefusal r with
      | some k => d.finish x 0x11 k
      | none =>
        let i := r.flow + 1024 * r.dir
        let d := d.setFlow i { opened := true, record := r, owner := view.setWidth 7, cnt := (d.flow i).cnt, since := d.now }
        (if r.dir = 1 then d.modEgr r.flow Egress.anew else d).finishOk x
def execFlowOpen (x : DescRef) (s : State) : Host.Outcome State Fault Refusal := run true (Dev.flowOpen x) s

/-- The committed groups that wait at an egress or in the packets of its flow (R204): substitutes have been counted already. -/
def Dev.waitingWords (d : Dev) (n : Nat) : Nat :=
  let f := d.flow (1024 + n)
  ((d.egr n).queue.filter (·.fresh)).length + (f.filling.filter (·.1)).length + (f.due.map (·.fresh)).sum

/-- FLOW_CLOSE (R204): at once. Words waiting at its egress are discarded and counted, and no release holds back what waits in the bridge buffers
of its ports (R195). Of a closed flow there is nothing to do (log entry 28). -/
def Dev.flowClose (x : DescRef) (d : Dev) : Dev :=
  d.runOp x 0x21 false fun d e =>
    let n := dfld e.desc 0x1A 2 % 1024
    let tx := dfld e.desc 0x18 1 = 1
    let i := if tx then 1024 + n else n
    if !(d.flow i).opened then d.finish x 2 0
    else
      let r := (d.flow i).record
      let q := d.waitingWords n
      let d := d.setFlow i { cnt := (d.flow i).cnt }
      let d := if tx then
          let d := (d.modEgr n Egress.anew).countSubst n q true
          let d := d.bridgeFlush r.legA.port
          if r.legB.isSet then d.bridgeFlush r.legB.port else d
        else d.modMedia fun m => { m with groups := m.groups.filter fun g => g.src != BitVec.ofNat 32 (2 ^ 28 + n) }
      d.finishOk x
def execFlowClose (x : DescRef) (s : State) : Host.Outcome State Fault Refusal := run true (Dev.flowClose x) s

/-- What ROUTE_AT would replace, and whether the new endpoint has the same format: that of the one it replaces, where that one still has any,
and of the binding record (R215, R216). -/
def Dev.routeOk (d : Dev) (w : BitVec 512) : Bool :=
  let ref := BitVec.ofNat 32 (dfld w 0x1C 4)
  let n := dfld w 0x1B 1
  let bindOf (t : Nat) : Option BindRec :=
    (d.func? (BitVec.ofNat 16 (dfld w 0x18 2))).bind fun f => f.obj.bindings.find? fun b => b.type == t && b.num == n
  let ends := (((d.func? (BitVec.ofNat 16 (dfld w 0x18 2))).map (·.ends)).getD {})
  let sameAs (old : Option Fmt) (f : Fmt) : Bool := match old with | some g => f == g | none => true
  match dfld w 0x1A 1 with
  | 0 => (match bindOf 1, d.inFormat ref with
      | some b, some f => fmtMatches (refKind ref) b f && sameAs (d.inFormat (Tbl.get 0 ends.feeds n)) f && !(b.target == 0 && d.bufferLacks [ref])
      | _, _ => false)
  | 1 =>
    let fid : FuncId := BitVec.ofNat 16 (dfld w 0x18 2)
    let taken := (d.funcs.any fun f => f.obj.bindings.any fun b =>
        b.type == 2 && !(f.id == fid && b.num == n) && Tbl.get 0 f.ends.drains b.num == ref)
      || d.media.reroutes.any fun y => y.ref == ref && !(y.func == fid && y.drain == n)
    (match bindOf 2, d.refOut ref with
      | some b, some f => fmtMatches (refKind ref) b f && sameAs (d.refOut (Tbl.get 0 ends.drains n)) f && !taken
      | _, _ => false)
  | _ =>
    let src := BitVec.ofNat 32 (dfld w 0x20 4)
    (match refEgress ref, d.refOut ref with
      | some _, some f => src == 0 || (d.inFormat src == some f && !d.bufferLacks [src])
      | _, _ => false)

/-- ROUTE_AT: checked, then it waits for its boundary (R216). Behind an earlier change of its objects it is checked at the boundary alone (R21). -/
def Dev.routeAt (x : DescRef) (d : Dev) : Dev :=
  d.runOp x 0x22 false fun d e => if d.waitsFor e || d.routeOk e.desc then d else d.finish x 0x11 0x0A
def execRouteAt (x : DescRef) (s : State) : Host.Outcome State Fault Refusal := run true (Dev.routeAt x) s

/-- ROUTE_AT at its boundary (R216): feeds move at once; a VIDEO egress switches at the first frame alignment of its raster from the boundary on, and
then completes. -/
def Dev.routeEffect (x : DescRef) (e : RetEntry) (status : Nat) (d : Dev) : Dev :=
  let w := e.desc
  let ref := BitVec.ofNat 32 (dfld w 0x1C 4)
  let n := dfld w 0x1B 1
  let fid := BitVec.ofNat 16 (dfld w 0x18 2)
  if !d.routeOk w then d.finish x 0x11 0x0A
  else
    let d := d.commitPoint x
    match dfld w 0x1A 1 with
    | 0 => (d.modFunc fid fun f => { f with ends := { f.ends with feeds := Tbl.set 0 f.ends.feeds n ref } }).finish x status 0
    | 1 => d.modMedia fun m => { m with reroutes := m.reroutes ++ [{ func := fid, drain := n, ref, desc := x, status }] }
    | _ =>
      let src := BitVec.ofNat 32 (dfld w 0x20 4)
      let e := (refEgress ref).getD 0
      let new := if src = 0 then none else some src
      let video : Bool := match d.outFormat e with | some f => f.fmt == 1 | none => false
      let point := match d.outFormat e with | some f => d.nextAlign e f d.time.start | none => d.time.start
      if video ∧ ((d.egr e).route.isSome ∨ new.isSome) then d.modEgr e fun y => { y with routeNext := some { src := new, desc := x, status, point } }
      else (d.modEgr e fun y => { y with route := new }).finish x status 0

-- registers: ETH (R222)

/-- A lane of the port, or of the engine, has another user; LANEERR shows it while a configuration that would have taken the lane has not taken
effect (R191, R222, R223). -/
def Dev.ethConflict (d : Dev) (n : Nat) : Bool := (List.range 4).any fun k => !d.laneFree n (4 * n + k)
def Dev.ethLaneErr (d : Dev) (n : Nat) : Bool := (d.eth n).laneErr && d.ethConflict n
def Dev.sdiLaneErr (d : Dev) (s : Nat) : Bool :=
  let x := d.sdi s
  x.laneErr && !((linkLanes x.quad x.rxlane.toNat ++ linkLanes x.quad x.txlane.toNat).all (d.laneFree (100 + s)))

def Dev.readEthReg (d : Dev) (off : Nat) : Option Word :=
  let n := off / 0x100
  let p := d.eth n
  let w (k : Nat) : Option Word := some (BitVec.ofNat 32 k)
  match off % 0x100 with
  | 0x00 => w (bit p.en 31 + p.mode.toNat * 2 ^ 29 + p.fec.toNat * 2 ^ 27 + bit p.bridge 26)
  | 0x04 => w (bit (d.ethLaneErr n) 5 + bit (d.bridged n) 4 + p.up.toNat)
  | 0x30 => w 0
  | o => if 0x10 ≤ o ∧ o < 0x28 ∧ o % 4 = 0 then some (Tbl.get {} p.cnt ((o - 0x10) / 4)).toWord else none

/-- Firmware loads the latency values of a port that is enabled (R235). -/
def Dev.loadTiming (d : Dev) (n : Nat) : Dev :=
  d.each (List.range 4) fun d s =>
    let k := d.free
    (d.take 3).modTime fun t => { t with ports := Tbl.modify {} t.ports (4 * n + s) fun p =>
      { p with rxlat := Config.portTiming k, txlat := Config.portTiming (k + 1), asym := Config.portTiming (k + 2) } }

/-- A write of ETH_CFG: MODE and FEC only while EN = 0; a lane with another user keeps the port off and shows in LANEERR (R191). Subports that go down
raise their event (R221). A reserved MODE or FEC is stored (R5); the port then has no MODE or FEC of R192, and acts as 4×10G or without FEC (DESIGN
CHOICE, log entry 178). -/
def Dev.writeEthReg (d : Dev) (off : Nat) (v : Word) : Dev :=
  let n := off / 0x100
  let w := v.toNat
  let p := d.eth n
  match off % 0x100 with
  | 0x00 =>
    let was := p
    let p := if p.en then p else { p with mode := BitVec.ofNat 2 (fld w 29 2), fec := BitVec.ofNat 2 (fld w 27 2) }
    let p := { p with bridge := bitOf w 26 && n % 2 == 0 }
    let ok := !d.ethConflict n
    let p := if !bitOf w 31 then { p with en := false, up := 0, laneErr := false }
             else if ok then { p with en := true, laneErr := false } else { p with laneErr := true }
    let d := d.setEth n p
    let d := if p.en ∧ !was.en then d.loadTiming n else d
    d.each ((List.range 4).filter fun s => was.up.getLsbD s && !p.up.getLsbD s) fun d _ => d.raise (352 + n)
  | 0x30 => d.setEth n { p with cnt := clearBits p.cnt w 6 }
  | _ => d

-- SDI (R223)

def Dev.readSdiReg (d : Dev) (off : Nat) : Option Word :=
  let x := d.sdi (off / 0x40)
  let w (k : Nat) : Option Word := some (BitVec.ofNat 32 k)
  match off % 0x40 with
  | 0x00 => w (bit x.rxen 31 + bit x.txen 30 + x.rxrates.toNat * 2 ^ 26 + x.txrate.toNat * 2 ^ 24 + bit x.txfrac 23 + bit x.lvlb 22 + bit x.quad 21 + bit x.sqd 20)
  | 0x04 => w (x.rxlane.toNat * 256 + x.txlane.toNat)
  | 0x08 => w (x.rate.toNat * 2 ^ 28 + x.raster.toNat * 2 ^ 24 + x.frate.toNat * 2 ^ 20 + bit x.locked 19 + bit x.pid 18 + bit x.mismatch 17 + bit (d.sdiLaneErr (off / 0x40)) 16)
  | 0x0C => some x.txoffset
  | 0x10 => w (x.txRaster.toNat * 2 ^ 28 + x.txFrate.toNat * 2 ^ 24 + x.txSamp.toNat * 2 ^ 20)
  | 0x30 => w 0
  | o => if 0x14 ≤ o ∧ o < 0x24 ∧ o % 4 = 0 then some (Tbl.get {} x.cnt ((o - 0x14) / 4)).toWord else none

/-- A lane number that an engine may use. -/
def sdiLaneOk (l : Nat) : Bool := decide (32 ≤ l ∧ l ≤ 95)

/-- A write of an engine's registers. Reserved codes of SDI_TXFMT and lane numbers outside 32 to 95 are stored (R5); a RASTER that is reserved acts as
1920×1080p, and an engine without a lane of R191 does not start (DESIGN CHOICE, log entry 178). A receiver that is switched off loses its lock, with
its event (R221). A new TXOFFSET takes effect at the next frame (R223): the raster keeps its place until then, as after a step
of device time (R243). -/
def Dev.writeSdiReg (d : Dev) (off : Nat) (v : Word) : Dev :=
  let s := off / 0x40
  let w := v.toNat
  let x := d.sdi s
  match off % 0x40 with
  | 0x00 =>
    let x := { x with rxrates := BitVec.ofNat 4 (fld w 26 4), txrate := BitVec.ofNat 2 (fld w 24 2), txfrac := bitOf w 23, lvlb := bitOf w 22,
                      quad := bitOf w 21 && s % 4 == 0, sqd := bitOf w 20 }
    let was := d.sdi s
    let rls := linkLanes x.quad x.rxlane.toNat
    let tls := linkLanes x.quad x.txlane.toNat
    let alone := d.setSdi s { x with rxen := false, txen := false }
    let rxFree := rls.all (alone.laneFree (100 + s))
    let txFree := tls.all (alone.laneFree (100 + s))
    let rx := bitOf w 31 && rls.all sdiLaneOk && rxFree
    let x := { x with rxen := rx, txen := bitOf w 30 && tls.all sdiLaneOk && txFree,
                      laneErr := (bitOf w 31 && !rxFree) || (bitOf w 30 && !txFree) }
    let x := if rx then x else { x with locked := false, rate := 0, raster := 0, frate := 0, rxsamp := 0, pid := false, mismatch := false }
    let d := d.setSdi s x
    if was.locked ∧ !x.locked then d.raise (360 + s) else d
  | 0x04 =>
    let rl := fld w 8 7
    let tl := fld w 0 7
    let x := if x.rxen then x else { x with rxlane := BitVec.ofNat 7 rl }
    d.setSdi s (if x.txen then x else { x with txlane := BitVec.ofNat 7 tl })
  | 0x0C =>
    let by_ := (x.txoffset.toInt - v.toInt) * (ns : Int)
    let d := d.setSdi s { x with txoffset := v }
    if x.txen then d.modEgr (1024 + s) fun y => { y with shift := y.shift + by_, shiftFrom := d.now } else d
  | 0x10 =>
    d.setSdi s { x with txRaster := BitVec.ofNat 4 (fld w 28 4), txFrate := BitVec.ofNat 4 (fld w 24 4), txSamp := BitVec.ofNat 4 (fld w 20 4) }
  | 0x30 => d.setSdi s { x with cnt := clearBits x.cnt w 4 }
  | _ => d

-- FLOW (R224)

/-- The flow that FLOW_SEL selects. -/
def Dev.flowSelected (d : Dev) : Nat := d.media.flowSel.toNat

/-- A feed, drain or route uses a flow. -/
def Dev.flowBound (d : Dev) (i : Nat) : Bool :=
  let ref : EndRef := BitVec.ofNat 32 (2 ^ 28 + i % 1024)
  (d.funcs.any fun f => f.obj.bindings.any fun b =>
      (i < 1024 && b.type == 1 && Tbl.get 0 f.ends.feeds b.num == ref) || (1024 ≤ i && b.type == 2 && Tbl.get 0 f.ends.drains b.num == ref))
    || (if i < 1024 then d.media.egress.any fun (_, x) => x.route == some ref else (d.egr (i - 1024)).route.isSome)

/-- A VF reads and writes only the flows whose legs use its ports. -/
def Dev.flowVisible (d : Dev) (q : Requester) : Bool := d.isPf q || d.ownsFlow (d.viewOf q) d.flowSelected

def Dev.readFlowReg (d : Dev) (q : Requester) (off : Nat) : Option Word :=
  let i := d.flowSelected
  let f := if d.flowVisible q then d.flow i else {}
  let w (k : Nat) : Option Word := some (BitVec.ofNat 32 k)
  if off = 0 then w (i / 1024 * 2 ^ 31 + i % 1024)
  else if off = 4 then
    let forced := decide (1024 ≤ i) && (d.egr (i - 1024)).forced
    w ((if f.opened then (if forced then 2 else 1) else 0) * 2 ^ 30 + (if f.opened then f.record.fmt % 16 else 0) * 2 ^ 26
      + bit (f.opened && f.record.legB.isSet) 25 + bit f.legA 24 + bit f.legB 23 + bit f.subst 22 + bit (f.opened && d.flowBound i) 21)
  else if 8 ≤ off ∧ off < 0x24 ∧ off % 4 = 0 then some (Tbl.get {} f.cnt ((off - 8) / 4)).toWord
  else if off = 0x30 then w 0
  else if off = 0x100 then w (d.flowUsed * 65536 + d.flowLimit % 65536)
  else if off = 0x104 then w (ceilDiv d.bufAll (2 ^ 20))
  else none

def Dev.writeFlowReg (d : Dev) (q : Requester) (off : Nat) (v : Word) : Dev :=
  let w := v.toNat
  if off = 0 then d.modMedia fun m => { m with flowSel := BitVec.ofNat 11 (w % 1024 + bit (bitOf w 31) 10) }
  else if off = 0x30 ∧ d.flowVisible q then
    let f := d.flow d.flowSelected
    d.setFlow d.flowSelected { f with cnt := clearBits f.cnt w 7 }
  else d

end Sys2Proof.Machine
end

