-- ==== Sys2Proof/Machine/Lanes.lean ====
section
/-! DEFINITION. The serial lanes and octets (09_lanes_and_link.md R250 to R258, R282). -/

namespace Sys2Proof.Machine
open Sys2Proof

def Dev.lane (d : Dev) (l : Nat) : Lane := Tbl.get {} d.link.lanes l
def Dev.setLane (d : Dev) (l : Nat) (x : Lane) : Dev := d.modLink fun k => { k with lanes := Tbl.set {} k.lanes l x }
def Dev.modLane (d : Dev) (l : Nat) (f : Lane → Lane) : Dev := d.setLane l (f (d.lane l))

/-- The owner of a lane (R252): its protocol and rate in kb/s, and the bundle where that is one. -/
structure LaneOwner where
  proto : Nat
  kbps : Nat
  frac : Bool := false
  bundle : Option Nat := none
  deriving DecidableEq, Repr

/-- The line rates of SDI: none, HD, 3G, 6G, 12G (R196). -/
def sdiKbps (k : Nat) : Nat := match k with | 0 => 0 | 1 => 1485000 | 2 => 2970000 | 3 => 5940000 | _ => 11880000

/-- The owner of a lane, with its protocol and rate (R252). A transmitter has the rate of TXRATE; a receiver the one it has detected, none while
it has detected none (DESIGN CHOICE, log entry 150); its frame-rate codes 0, 3, 6 and 9 are those over 1.001 (R208). -/
def Dev.laneOwner (d : Dev) (l : Nat) : Option LaneOwner :=
  let eth := d.media.eth.findSome? fun (n, p) =>
    if p.en ∧ l / 4 = n then some { proto := 1, kbps := if p.mode = 2 then 10312500 else 25781250 } else none
  let sdi := (Tbl.keys d.media.sdi).findSome? fun s =>
    let e := d.engine s
    if l ∈ d.txLanes s then some { proto := 2, kbps := sdiKbps (e.txrate.toNat + 1), frac := e.txfrac }
    else if l ∈ d.rxLanes s then
      some { proto := 2, kbps := sdiKbps (match e.rate.toNat with | 0 => 0 | 1 => 1 | 2 => 2 | 3 => 2 | 4 => 3 | _ => 4),
             frac := e.rate != 0 && decide (e.frate.toNat % 3 = 0) }
    else none
  let bd := d.link.bundles.findSome? fun (b, x) =>
    if x.en ∧ x.oct.toNat = l / 8 ∧ x.mask.getLsbD (l % 8) then some { proto := 3, kbps := if x.rate then 16000000 else 32000000, bundle := some b } else none
  match eth, sdi with | some o, _ => some o | none, some o => some o | none, none => bd

/-- Protocol and rate of a lane: the owner's where it is owned (R252). -/
def Dev.laneProto (d : Dev) (l : Nat) : Nat := match d.laneOwner l with | some o => o.proto | none => (d.lane l).proto.toNat
def Dev.laneRate (d : Dev) (l : Nat) : Nat × Bool :=
  match d.laneOwner l with | some o => (o.kbps, o.frac) | none => ((d.lane l).kbps.toNat, (d.lane l).frac1001)

/-- A rate brought into one power of two: lanes of equal families share a PLL (R250). -/
def rateFamily : Nat → Nat → Nat
  | 0, k => k
  | n + 1, k => if k = 0 ∨ 16000000 < k then k else rateFamily n (2 * k)

/-- The PLL rates that lanes need: of each its family, and whether it is over 1.001. The integer and /1.001 rates of one family take a PLL each, and then
count as one family that uses both (R250): in either case an octet's lanes need no more than two of these. -/
def Dev.pllRates (d : Dev) (ls : List Nat) : List (Nat × Bool) :=
  ((ls.map fun i => ((rateFamily 5 (d.laneRate i).1), (d.laneRate i).2)).filter (·.1 != 0)).eraseDups

/-- The lanes of an octet whose rates have taken effect: enabled ones without those that are held OFF (R250). -/
def Dev.octetLanes (d : Dev) (k : Nat) : List Nat := ((List.range 8).map fun i => 8 * k + i).filter fun i => (d.lane i).en && !(d.lane i).third

/-- A lane's rate fits beside those of its octet (R250). -/
def Dev.familiesOk (d : Dev) (l : Nat) : Bool := decide ((d.pllRates (l :: (d.octetLanes (l / 8)).filter (· != l))).length ≤ 2)

/-- A lane enters a state; entering or leaving UP raises its event, and a departure from UP is counted (R253, R258, R282). -/
def Dev.lanePhase (d : Dev) (l : Nat) (p : LanePhase) : Dev :=
  let x := d.lane l
  let left := x.phase = .up ∧ p ≠ .up
  let y := { x with phase := p, cdrLock := decide (p = .align ∨ p = .up), adapted := x.adapted && p == .up, inBundle := x.inBundle && p == .up,
                    prbsLock := x.prbsLock && p == .up, down := if left then x.down.bump else x.down }
  let d := d.setLane l y
  if left ∨ (x.phase ≠ .up ∧ p = .up) then d.raise (256 + l) else d

/-- The transmitter of an enabled lane sends where bring-up is blind, whatever arrives, else while a port or bundle owns the lane (R253) or its PRBS
generator is on (R257); in TXSLEEP, out of service and where its rate does not take effect it does not (R250, R255, R417), nor a port's or an engine's on
a muted secondary (R279). -/
def Dev.laneSends (d : Dev) (l : Nat) : Bool :=
  let x := d.lane l
  let o := d.laneOwner l
  x.en && !x.third && !x.txsleep && !x.isolated && !(d.egressMuted && o.any (·.proto != 3)) && (x.blind || o.isSome || (x.proto == 4 && x.gen))
def Dev.laneTx (d : Dev) (l : Nat) : Dev :=
  let on := d.laneSends l
  if (d.lane l).tx = on then d else (d.modLane l fun x => { x with tx := on }).emit (.laneTx l on)

/-- A PRBS lock holds while the lane is in PRBS test mode, which an owned lane is not (R252, R257). -/
def Dev.prbsHolds (d : Dev) (l : Nat) : Bool := (d.lane l).prbsLock && d.laneProto l == 4 && (d.laneOwner l).isNone

/-- An enabled lane begins bring-up; it is OFF where its rate would need a third family of its octet (R250, R253, R255). -/
def Dev.lanePhaseNow (d : Dev) (l : Nat) : Dev :=
  let lock := d.prbsHolds l
  let third := (d.lane l).en && !d.familiesOk l
  let d := d.modLane l fun x => { x with third, prbsLock := lock }
  let x := d.lane l
  if !x.en then d.lanePhase l .off
  else if x.isolated ∨ x.third then d.lanePhase l .off
  else if x.rxsleep then d.lanePhase l .sleep
  else if x.phase ≠ .off ∧ x.phase ≠ .sleep then d
  else d.lanePhase l .cdr
def Dev.laneStart (d : Dev) (l : Nat) : Dev := (d.lanePhaseNow l).laneTx l

/-- Lanes whose rates have changed, and those of their octets that were held OFF, which may now fit (R250). -/
def Dev.lanesStart (d : Dev) (ls : List Nat) : Dev :=
  let d := d.each ls Dev.laneStart
  let held := (ls.flatMap fun l => (List.range 8).map (l / 8 * 8 + ·)).eraseDups.filter fun i => (d.lane i).third && !(decide (i ∈ ls))
  d.each held Dev.laneStart

/-- The transmitters of all lanes follow a change of the pair's egress (R279). -/
def Dev.lanesTx (d : Dev) : Dev := d.each (List.range 96) Dev.laneTx

/-- Writes of a port's and of an engine's registers: the lanes that it takes or gives up follow (R250, R252, R253). -/
def Dev.writeEthPort (d : Dev) (off : Nat) (v : Word) : Dev :=
  let n := off / 0x100
  let d := d.writeEthReg off v
  if off % 0x100 = 0 then d.lanesStart ((List.range 4).map (4 * n + ·)) else d
def Dev.writeSdiEngine (d : Dev) (off : Nat) (v : Word) : Dev :=
  let s := off / 0x40
  let lanes (d : Dev) : List Nat := (linkLanes (d.sdi s).quad (d.sdi s).rxlane.toNat ++ linkLanes (d.sdi s).quad (d.sdi s).txlane.toNat).filter sdiLaneOk
  let was := lanes d
  let d := d.writeSdiReg off v
  d.lanesStart (was ++ lanes d).eraseDups

/-- SDI_LOCK_CHANGE (R197, R250): the rate that an engine has detected is that of its receive lanes. -/
def execSdiLockChange (e : BitVec 5) (locked : Bool) (l : SdiLine) (s : State) : Host.Outcome State Fault Refusal :=
  run true (fun d => let d := Dev.sdiLockChange e locked l d; d.lanesStart (d.rxLanes e.toNat)) s

/-- The lanes of a bundle that are UP, as its mask. -/
def Dev.upLanes (d : Dev) (b : Nat) : BitVec 8 :=
  let x := d.bd b
  BitVec.ofNat 8 (((List.range 8).map fun i => bit (x.mask.getLsbD i && (d.lane (8 * x.oct.toNat + i)).phase == .up) i).sum)

/-- A bundle's lanes in service. -/
def Dev.setActive (d : Dev) (b : Nat) (m : BitVec 8) : Dev :=
  let x := d.bd b
  let d := d.setBd b { x with active := m }
  d.each (List.range 8) fun d i => if x.mask.getLsbD i then d.modLane (8 * x.oct.toNat + i) fun y => { y with inBundle := m.getLsbD i } else d

/-- What a bundle holds of its partner and of frames that were sent or partly received is gone; SEQ restarts (R262). Frames that wait to be sent go on
waiting. -/
def Bundle.cleared (x : Bundle) : Bundle :=
  { x with active := 0, txSeq := 0, rxAck := 0, retry := [], sentAt := [], sends := [], nakSent := false, partial_ := [], reorder := [], passing := [],
           used := [], got := [], crcFails := [], peerMask := 0, advert := 0, missed := 0, lastTx := [], lastArrival := 0 }

/-- A bundle enters a state; a change raises its event (R281). -/
def Dev.bdPhase (d : Dev) (b : Nat) (p : BdPhase) : Dev :=
  if (d.bd b).phase = p then d else (d.modBd b fun x => { x with phase := p }).raise (832 + b)

/-- The lanes of a bundle. -/
def Bundle.lanes (x : Bundle) : List Nat := ((List.range 8).filter x.mask.getLsbD).map (8 * x.oct.toNat + ·)

/-- Queries that have no answer and went out over a bundle fail: a lost REQ or RSP gives an error completion (R262, R272). -/
def Dev.loseQueries (d : Dev) (b : Nat) : Dev :=
  let via (dev : BitVec 11) : Bool := (d.routeTo dev).any fun w => w.bundle.toNat == b
  d.modLink fun l => { l with queries := l.queries.map fun q => if q.answer.isNone ∧ via q.dev then { q with answer := some false } else q }

/-- BUNDLE_DOWN (R262): the retry buffer and partly received packets are discarded, SEQ restarts, bring-up repeats, the bundle's event. -/
def Dev.bundleDown (b : Nat) (d : Dev) : Dev :=
  let x := d.bd b
  if x.phase ≠ .up then d
  else
    let d := (d.setActive b 0).modBd b Bundle.cleared
    let d := d.each x.lanes fun d l => if (d.lane l).phase = .up ∨ (d.lane l).phase = .align then d.lanePhase l .cdr else d
    (d.loseQueries b).bdPhase b .training

/-- A bundle in training comes up on the lanes that are UP, while the link unit is enabled (R259, R283). Until a CONTROL frame says otherwise, the
partner is taken to receive on them (DESIGN CHOICE, log entry 156). -/
def Dev.bundleUp (b : Nat) (d : Dev) : Dev :=
  let up := d.upLanes b
  if !d.link.en ∨ (d.bd b).phase ≠ .training ∨ up = 0 then d
  else ((d.modBd b fun x => { x with advert := up, peerMask := up }).setActive b up).bdPhase b .up

/-- A lane leaves its bundle (R258, R263, R281, R283): a removal is counted, the bundle raises its event; with no lane left it is DOWN. The lane's own
event is its caller's. -/
def Dev.removeLane (b i : Nat) (d : Dev) : Dev :=
  let m := (d.bd b).active &&& ~~~((1 : BitVec 8) <<< i)
  let d := ((d.countBd b 2 1).setActive b m).raise (832 + b)
  if m = 0 then d.bundleDown b else d

/-- LANE_DEGRADE (R263): the receiver removes a lane from its advertisement, and the lane retrains. -/
def Dev.degrade (b i : Nat) (d : Dev) : Dev :=
  let x := d.bd b
  if !x.active.getLsbD i then d
  else
    let d := d.modBd b fun x => { x with advert := x.advert &&& ~~~((1 : BitVec 8) <<< i), crcFails := x.crcFails.filter (·.1.toNat != i) }
    let l := 8 * x.oct.toNat + i
    let d := if (d.lane l).phase = .up then d.lanePhase l .cdr else d.raise (256 + l)
    d.removeLane b i

/-- CDR_LOCK (R253). -/
def Dev.cdrLock (l : Nat) (d : Dev) : Dev := if (d.lane l).phase = .cdr then d.lanePhase l .align else d
def execCdrLock (l : BitVec 7) (s : State) : Host.Outcome State Fault Refusal := run (laneOk l) (Dev.cdrLock l.toNat) s

/-- ALIGN_DONE (R253): the lane is UP; a bundle in training comes up on its first lanes. -/
def Dev.alignDone (l : Nat) (d : Dev) : Dev :=
  if (d.lane l).phase ≠ .align then d
  else
    let d := d.lanePhase l .up
    match (d.laneOwner l).bind (·.bundle) with
    | some b => d.bundleUp b
    | none => d
def execAlignDone (l : BitVec 7) (s : State) : Host.Outcome State Fault Refusal := run (laneOk l) (Dev.alignDone l.toNat) s

/-- Code and disparity errors, or bit errors of PRBS, that a lane's receiver finds (R257). -/
def Dev.laneErrors (d : Dev) (l n : Nat) : Dev := d.modLane l fun x => { x with err := x.err.bumpBy n }

/-- LANE_LOSS (R253, R257): the code and disparity errors of an UP lane are counted; one that lost lock, or had 4 of them within 64 symbols, returns to
CDR, and leaves its bundle. -/
def Dev.laneLoss (l : Nat) (x : LaneErrors) (d : Dev) : Dev :=
  if (d.lane l).phase ≠ .up then d
  else
    let d := d.laneErrors l x.errors
    if !x.lockLost ∧ x.within64 < 4 then d
    else
      let d := d.lanePhase l .cdr
      match (d.laneOwner l).bind (·.bundle) with
      | some b => d.degrade b (l % 8)
      | none => d
def execLaneLoss (l : LaneErrors) (s : State) : Host.Outcome State Fault Refusal := run (laneOk l.lane) (Dev.laneLoss l.lane.toNat l) s

/-- ADAPT_DONE (R254). -/
def execAdaptDone (l : BitVec 7) (s : State) : Host.Outcome State Fault Refusal :=
  run (laneOk l) (fun d => d.modLane l.toNat fun x => if x.phase = .up then { x with adapted := true } else x) s

/-- A write of LANE_EYE_CFG (R256): START is ignored while a lane of the octet is scanned. -/
def Dev.writeEye (d : Dev) (l : Nat) (v : Word) : Dev :=
  let dwell := BitVec.ofNat 6 (max 10 (min 40 (fld v.toNat 24 6)))
  let busy := (List.range 8).any fun i => (d.lane (l / 8 * 8 + i)).eyeBusy
  d.modLane l fun x =>
    let x := { x with dwell }
    if bitOf v.toNat 31 ∧ !busy then { x with eyeBusy := true, eyeValid := false, eye := [] } else x
def execEyeStart (q : Requester) (l : BitVec 7) (v : Word) (s : State) : Host.Outcome State Fault Refusal :=
  run (laneOk l) (fun d => if d.isPf q then d.writeEye l.toNat v else d) s

/-- EYE_SCAN_DONE (R256, R258): the scan's mismatch counts are held. -/
def Dev.eyeScanDone (l : Nat) (grid : Tbl (BitVec 31)) (d : Dev) : Dev :=
  if !(d.lane l).eyeBusy then d
  else (d.modLane l fun x => { x with eyeBusy := false, eyeValid := true, eye := grid.foldl (fun t (k, v) => Tbl.set 0 t (k % 4096) v) [] }).raise (256 + l)
def execEyeScanDone (l : BitVec 7) (grid : Tbl (BitVec 31)) (s : State) : Host.Outcome State Fault Refusal :=
  run (laneOk l) (Dev.eyeScanDone l.toNat grid) s

/-- PRBS_LOCK (R257): the checker of an unowned lane in PRBS test mode locks, and counts the bit errors it finds. -/
def Dev.prbsLock (l errors : Nat) (d : Dev) : Dev :=
  if (d.laneOwner l).isNone ∧ (d.lane l).proto = 4 ∧ (d.lane l).chk ∧ (d.lane l).en then
    (d.modLane l fun x => { x with prbsLock := true }).laneErrors l errors
  else d
def execPrbsLock (l : LaneErrors) (s : State) : Host.Outcome State Fault Refusal := run (laneOk l.lane) (Dev.prbsLock l.lane.toNat l.errors) s

/-- PLLs that are locked (R250, R282): one for each rate that the octet's lanes need. The reference is taken to be there (DESIGN CHOICE, log entry
155). -/
def Dev.pllsLocked (d : Dev) (k : Nat) : BitVec 2 := BitVec.ofNat 2 (2 ^ min 2 (d.pllRates (d.octetLanes k)).length - 1)

-- registers (R282): `unit` is XA[15:8], `off` is XA[7:0]

def lanePhaseCode : LanePhase → Nat
  | .off => 0 | .cdr => 1 | .align => 2 | .up => 3 | .sleep => 4

def Dev.readLaneReg (d : Dev) (unit off : Nat) : Word :=
  let w (n : Nat) : Word := BitVec.ofNat 32 n
  if unit < 96 then
    let x := d.lane unit
    match off % 0x30 with
    | 0x00 => w (bit x.en 31 + d.laneProto unit * 2 ^ 28 + bit x.blind 27 + bit x.txinv 26 + bit x.rxinv 25 + bit x.txsleep 24 + bit x.rxsleep 23)
    | 0x04 => w (bit (d.laneRate unit).2 31 + (d.laneRate unit).1)
    | 0x08 => w (lanePhaseCode x.phase * 2 ^ 29 + bit x.cdrLock 28 + bit x.adapted 27 + bit x.inBundle 26 + bit (d.laneOwner unit).isSome 25)
    | 0x0C => w (bit x.ovr 31 + x.pre.toNat * 2 ^ 24 + x.post.toNat * 2 ^ 16 + x.ctle.toNat * 256)
    | 0x10 => w (bit x.gen 31 + bit x.chk 30 + x.pat.toNat * 2 ^ 28 + bit (d.prbsHolds unit) 27)
    | 0x14 => x.err.toWord
    | 0x18 => x.down.toWord
    | 0x20 => w (x.dwell.toNat * 2 ^ 24)
    | 0x24 => w (bit x.eyeBusy 31 + bit x.eyeValid 30 + x.mvstep.toNat * 256)
    | 0x28 => w (x.volt.toNat * 64 + x.phaseSel.toNat)
    | 0x2C =>
      let c := Tbl.get (0 : BitVec 31) x.eye (x.volt.toNat * 64 + x.phaseSel.toNat)
      w (bit (c = BitVec.allOnes 31) 31 + c.toNat)
    | _ => 0
  else if 0x80 ≤ unit ∧ unit < 0x8C then
    let o := Tbl.get ({} : Octet) d.link.octets (unit - 0x80)
    match off % 8 with
    | 0 => w (bit o.reverse 31 + o.ref.toNat)
    | 4 => w (bit (!d.power.cold) 31 + (d.pllsLocked (unit - 0x80)).toNat)
    | _ => 0
  else 0

def Dev.writeLaneReg (d : Dev) (unit off : Nat) (v : Word) : Dev :=
  let n := v.toNat
  if unit < 96 then
    let owned := (d.laneOwner unit).isSome
    match off % 0x30 with
    | 0x00 =>
      let used := (d.laneOwner unit).any fun o => o.proto != 3 || (match o.bundle with | some b => (d.bd b).phase == .up | none => false)
      let d := d.modLane unit fun x =>
        { x with en := bitOf n 31, proto := if owned then x.proto else BitVec.ofNat 3 (fld n 28 3), blind := bitOf n 27,
                 txinv := bitOf n 26, rxinv := bitOf n 25,
                 txsleep := if used ∧ bitOf n 24 then x.txsleep else bitOf n 24, rxsleep := if used ∧ bitOf n 23 then x.rxsleep else bitOf n 23 }
      d.lanesStart [unit]
    | 0x04 =>
      let k := fld n 0 25
      if owned ∨ k < 1250000 ∨ 32000000 < k then d
      else (d.modLane unit fun x => { x with kbps := BitVec.ofNat 25 k, frac1001 := bitOf n 31 }).lanesStart [unit]
    | 0x0C => d.modLane unit fun x => { x with ovr := bitOf n 31, pre := BitVec.ofNat 6 (fld n 24 6), post := BitVec.ofNat 6 (fld n 16 6), ctle := BitVec.ofNat 6 (fld n 8 6) }
    | 0x10 =>
      (d.modLane unit fun x => { x with gen := bitOf n 31, chk := bitOf n 30, pat := BitVec.ofNat 2 (fld n 28 2), prbsLock := x.prbsLock && bitOf n 30 }).laneTx unit
    | 0x1C => d.modLane unit fun x => { x with err := if bitOf n 0 then {} else x.err, down := if bitOf n 1 then {} else x.down }
    | 0x20 => d.writeEye unit v
    | 0x28 => d.modLane unit fun x => { x with volt := BitVec.ofNat 6 (fld n 6 6), phaseSel := BitVec.ofNat 6 n }
    | _ => d
  else if 0x80 ≤ unit ∧ unit < 0x8C ∧ off % 8 = 0 then
    let k := unit - 0x80
    let still := (List.range 8).all fun i => !(d.lane (8 * k + i)).en
    d.modLink fun l => { l with octets := Tbl.modify {} l.octets k fun o =>
      { o with reverse := if still then bitOf n 31 else o.reverse, ref := BitVec.ofNat 3 n } }
  else d

end Sys2Proof.Machine
end

