-- ==== Sys2Proof/Machine/Link.lean ====
section
/-! DEFINITION. Bilben frames, beat markers, REMOTE words and the mirrored pair (09_lanes_and_link.md R259 to R281, R283). -/

namespace Sys2Proof.Machine
open Sys2Proof

/-- Resend every unacknowledged frame (R261); one that was sent 16 times in vain takes the bundle DOWN (R262). -/
def Dev.resendFrames (d : Dev) (b : Nat) : Dev :=
  let x := d.bd b
  if x.retry.isEmpty then d
  else if x.sends.any (16 ≤ ·) then d.bundleDown b
  else
    let d := (d.modBd b fun x => { x with sends := x.sends.map (· + 1), sentAt := x.sentAt.map fun _ => d.now }).countBd b 0 x.retry.length
    d.each x.retry fun d f => d.emitFrame b { f with ack := x.rxAck }

/-- Frames before ACK have arrived (R261). -/
def Dev.takeAck (d : Dev) (b : Nat) (ack : BitVec 12) : Dev :=
  let x := d.bd b
  match x.retry with
  | [] => d
  | f :: _ =>
    let n := (ack - f.seq).toNat
    if n = 0 ∨ x.retry.length < n then d
    else d.setBd b { x with retry := x.retry.drop n, sentAt := x.sentAt.drop n, sends := x.sends.drop n }

/-- NULL_FRAME (R261): carries ACK and NAK alone, outside the sequence (log entry 31). -/
def Dev.nullFrame (b : Nat) (nak : Bool) (d : Dev) : Dev :=
  let x := d.bd b
  if x.phase ≠ .up then d
  else d.emitFrame b { type := 1, ack := x.rxAck, nak, src := d.link.devid, dest := x.partner, bpar := d.time.n.getLsbD 0 }

/-- A CONTROL frame (R260, R263, R264): the lanes on which this end receives in its first byte, then the credits it returns on each virtual channel,
one byte each by class * 2 + VC, and in byte 9 the mirror heartbeat, 1 while the sender is in a pair (log entry 32). It takes no credit itself, and waits
while 256 frames are unacknowledged. -/
def Dev.sendControl (d : Dev) (b : Nat) : Dev :=
  let x := d.bd b
  if 256 ≤ x.retry.length then d
  else
    let p := x.advert.toNat + ((List.range 8).map fun k => min 255 (Tbl.get 0 x.got k) * 2 ^ (8 + 8 * k)).sum + bit (d.link.mirror == .paired) 72
    (d.setBd b { x with got := x.got.map fun (k, n) => (k, n - 255) }).sendSeq b
      { type := 2, cls := 0, len := 10, src := d.link.devid, dest := x.partner, bpar := d.time.n.getLsbD 0, payload := BitVec.ofNat 384 p }

-- REMOTE words (R270, R271)

/-- The valid words of an XCH frame (R270): slot, absent, word. -/
def frameWords (fr : Frame) : List (Nat × Bool × Lanes) :=
  let p := fr.payload.toNat
  (List.range 4).filterMap fun k =>
    let e := fld p (320 + 16 * k) 16
    if bitOf e 11 then some (e % 1024, bitOf e 10, BitVec.ofNat 64 (fld p (64 + 64 * k) 64)) else none

/-- A slot is one of a binding's. -/
def BindRec.holds (b : BindRec) (slot : Nat) : Bool := decide (b.slot0 ≤ slot ∧ slot < b.slot0 + b.words)

/-- Once a dependency holds, the IN slots of its binding have a declared writer: their words are due at the start of each beat (R76, R272). -/
def Dev.remoteDue (d : Dev) : Dev :=
  d.each (d.link.deps.filter fun x => decide (x.since ≤ d.time.n)) fun d x =>
    match d.func? x.func with
    | none => d
    | some f => match f.obj.bindings.find? (fun b => b.type == 4 && b.dirIn && b.num == x.bind && b.vroom == x.vroom) with
      | none => d
      | some b => d.each (f.receivers x.rep x.vroom) fun d r => d.modRoom r fun rm =>
          { rm with due := (slotRun b.slot0 b.words).foldl (fun t k => Tbl.set none t k (some 0)) rm.due }

/-- REMOTE words of an XCH frame (R271): delivered for the receiving beat, discarded and counted, or discarded after a restart. The frame names
no binding: it is the IN binding whose slots hold a word of the frame (log entry 122). -/
def Dev.remoteWords (d : Dev) (fr : Frame) : Dev :=
  let t : BitVec 64 := BitVec.ofNat 64 (fld fr.payload.toNat 0 43 * 2 ^ 21)
  let next := fr.bpar == d.time.n.getLsbD 0
  let ws := frameWords fr
  let target := (d.func? (rtFunc t)).bind fun f =>
    if f.phase ≠ .admitted ∨ (f.receivers (rtRep t) (rtVroom t)).isEmpty then none
    else (f.obj.bindings.find? fun b => b.type == 4 && b.dirIn && b.vroom == rtVroom t && ws.any fun w => b.holds w.1).map fun b => (f, b)
  match target with
  | none => d.each ws fun d _ => (d.countLink 1).raise 850
  | some (f, b) =>
    if !next then d.each ws fun d _ => (d.countLink 2).raise 850
    else
      let rooms := f.destinations (rtRep t) (rtVroom t)
      let key : RemoteAtt := { func := f.id, vroom := rtVroom t, rep := rtRep t, bind := b.num, beat := d.time.n + 1 }
      let seen := decide (key ∈ d.link.atts)
      let d := if fr.att ∧ !seen then
          let d := d.modLink fun l => { l with atts := key :: l.atts }
          d.each rooms fun d y => d.modRoom y.1 fun rm =>
            (List.range b.words).foldl (fun rm i => rm.setSlot (b.slot0 + i) { rm.slot (b.slot0 + i) with nxt := none, nxtGood := none }) rm
        else d
      if !fr.att ∧ seen then d
      else d.each ws fun d w =>
        if !b.holds w.1 then (d.countLink 1).raise 850
        else d.each rooms fun d y => d.hubSend 4 258 (d.time.n + 1) y [{ idx := w.1, word := w.2.2, absent := w.2.1 }]

/-- REMOTE words of a function leave the device (R270): up to four of a target in a frame. -/
def Dev.sendRemote (d : Dev) (f : Func) (bind : Nat) (beat : Beat) (att : Bool) (ws : List PktWord) : Dev :=
  let t := Tbl.get 0 f.ends.remotes bind
  d.each (List.range (ceilDiv ws.length 4)) fun d i =>
    let four := (ws.drop (4 * i)).take 4
    let body := (four.zipIdx).foldl (fun acc (w, k) =>
      acc + w.word.toNat * 2 ^ (64 + 64 * k) + (w.idx % 1024 + bit w.absent 10 + 2 ^ 11) * 2 ^ (320 + 16 * k)) (fld t.toNat 21 43)
    d.sendOwn { cls := 2, dest := rtDev t, src := d.link.devid, len := 48, bpar := beat.getLsbD 0, att, payload := BitVec.ofNat 384 body }

-- the dependency of receivers on a sender's decisions (R272)

/-- The frames that a binding of so many words takes in a beat (R273). -/
def bindFrames (words : Nat) : Nat := ceilDiv words 4

/-- A sender tells the device of a target that it takes effect (operation 3) or has retired (4) at boundary `n`: a REQ packet whose ADDR is the target,
with the function ID, the binding's words and the beat in its data (log entry 32). -/
def Dev.sendDepend (d : Dev) (op : Nat) (f : FuncId) (t : BitVec 64) (words : Nat) (n : Beat) : Dev :=
  d.sendMessage (rtDev t) .req 0 op t.toNat 1 (f.toNat + words * 2 ^ 16 + n.toNat * 2 ^ 64)

/-- At the target (R77, R272): from the receiving beat after the sender's first, and up to the one after its last, the decision is required. -/
def Dev.takeDepend (src : BitVec 11) (op : Nat) (t : BitVec 64) (body : Nat) (d : Dev) : Dev :=
  let f := BitVec.ofNat 16 body
  let n := BitVec.ofNat 64 (body / 2 ^ 64)
  let mine (x : RemoteDep) : Bool := x.dev == src && x.sender == f && x.func == rtFunc t && x.vroom == rtVroom t && x.rep == rtRep t && x.bind == rtBind t
  if op = 3 then
    if (d.func? (rtFunc t)).isNone then d
    else d.modLink fun l => { l with deps := l.deps.filter (!mine ·) ++
      [{ dev := src, sender := f, func := rtFunc t, vroom := rtVroom t, rep := rtRep t, bind := rtBind t, since := n + 1 }] }
  else d.modLink fun l => { l with deps := l.deps.map fun x => if mine x then { x with until_ := n } else x }

/-- On its way a device keeps frames of the bundle that leads on for the binding of another, or gives them up (R273, log entry 32). -/
def Dev.passDepend (d : Dev) (src : BitVec 11) (op : Nat) (t : BitVec 64) (body : Nat) : Dev :=
  let f := BitVec.ofNat 16 body
  let mine (x : Through) : Bool := x.dev == src && x.func == f && x.target == t.toNat
  if op = 3 then
    match d.routeTo (rtDev t) with
    | none => d
    | some w => d.modBd w.bundle.toNat fun x =>
        { x with through := x.through.filter (!mine ·) ++ [{ dev := src, func := f, target := t.toNat, frames := bindFrames (fld body 16 16) }] }
  else if op = 4 then d.modLink fun l => { l with bundles := Tbl.mapAll {} l.bundles fun x => { x with through := x.through.filter (!mine ·) } }
  else d

/-- Dependencies whose last beat is over end, and the slots of their bindings have no declared writer again (R76, R272). -/
def Dev.endDepends (d : Dev) : Dev :=
  let ended (x : RemoteDep) : Bool := decide (x.until_ < d.time.n)
  let d := d.each (d.link.deps.filter ended) fun d x =>
    match d.func? x.func with
    | none => d
    | some f => match f.obj.bindings.find? (fun b => b.type == 4 && b.dirIn && b.num == x.bind && b.vroom == x.vroom) with
      | none => d
      | some b => d.each (f.receivers x.rep x.vroom) fun d r => d.modRoom r fun rm =>
          { rm with due := (slotRun b.slot0 b.words).foldl (fun t k => Tbl.set none t k none) rm.due }
  d.modLink fun l => { l with deps := l.deps.filter fun x => !ended x }

-- packets of the mirrored pair

/-- A forwarded descriptor arrives on the secondary (R276): it enters the retention record of the primary's pair, whose SIZE and CQ_CI come with it
(R364). -/
def Dev.mirrorRequest (d : Dev) (addr body : Nat) : Dev :=
  if d.link.mirror ≠ .paired ∨ !d.link.secondary then d
  else
    let k := BitVec.ofNat 9 addr
    let slot := fld addr 16 12
    let w : BitVec 512 := BitVec.ofNat 512 (body >>> 64)
    let r := d.ring k
    if r.en ∨ (r.window.any fun e => e.accept && e.seq == descSeq w) then d
    else
      let e : RetEntry := { slot, seq := descSeq w, desc := w, order := d.rings.order + 1,
                            apply := if descTimed w then none else some (BitVec.ofNat 64 body),
                            ready := if argLen w = 0 ∧ descOpcode w ≠ 0x31 then some d.now else none }
      let kept := (r.window.filter fun y => y.slot != slot) ++ [e]
      let r := { r with phase := .mirror, window := kept.drop (kept.length - 64), nextseq := descSeq w + 1, size := BitVec.ofNat 4 (fld body 576 8),
                        cqCi := BitVec.ofNat 16 (fld body 584 16) }
      let d := d.setRing k { r with fetch := BitVec.ofNat 12 ((slot + 1) % r.slots) }
      let d := d.putRings { d.rings with order := d.rings.order + 1 }
      d.judge { ring := k, slot := BitVec.ofNat 12 slot } r.owner w

/-- APPLIED (R276, R277): the secondary's status of a descriptor has reached the primary; what can be posted, and FENCEs that wait for it, go on. -/
def Dev.applied (ring : BitVec 9) (seq : BitVec 64) (status : BitVec 8) (d : Dev) : Dev :=
  let d := d.modLink fun l => { l with await := l.await.map fun a => if a.desc.ring = ring ∧ a.seq = seq then { a with applied := some status.toNat } else a }
  Dev.settle d.fences ((d.resolveAwait).postRing ring)
def execApplied (ring : BitVec 9) (seq : BitVec 64) (status : BitVec 8) (s : State) : Host.Outcome State Fault Refusal :=
  run true (Dev.applied ring seq status) s

/-- The CRC-64 of R278 over a beat's decisions, in ascending function order. -/
def decisionCrc (ds : List Decision) : BitVec 64 :=
  let rec insert (x : Decision) : List Decision → List Decision
    | [] => [x]
    | y :: t => if x.func < y.func then x :: y :: t else y :: insert x t
  crc64 ((ds.foldr insert []).flatMap fun x => leBytes 2 x.func.toNat ++ [if x.commit then 1 else 0])

/-- DECISION_DIGEST (R278). -/
def Dev.decisionDigest (crc : BitVec 64) (d : Dev) : Dev :=
  if d.link.mirror ≠ .paired ∨ crc = d.link.digest then d else (d.countLink 3).raise 848
def execDecisionDigest (crc : BitVec 64) (s : State) : Host.Outcome State Fault Refusal := run true (Dev.decisionDigest crc) s

-- REMOTE admission at a target (R272)

/-- REMOTE_QUERY (R272): the target device answers whether its IN binding can take the OUT binding, with an RSP packet: status OK, or that of the
admission's refusal (R138). The dependency comes with the sender's commit point. -/
def Dev.remoteQuery (from_ : BitVec 11) (t : BitVec 64) (words : BitVec 9) (tag : Nat) (d : Dev) : Dev :=
  let fed := d.link.deps.any fun x => x.func == rtFunc t && x.vroom == rtVroom t && x.rep == rtRep t && x.bind == rtBind t
  let ok := !fed && (match d.func? (rtFunc t) with
    | some f => f.phase == .admitted && decide (rtRep t < f.r)
        && f.obj.bindings.any fun b => b.type == 4 && b.dirIn && b.num == rtBind t && b.vroom == rtVroom t && decide (words.toNat ≤ b.words)
    | none => false)
  d.sendMessage from_ .rsp tag (if ok then 0 else 0x11) t.toNat 1 0
def execRemoteQuery (from_ : BitVec 11) (target : BitVec 64) (words : BitVec 9) (s : State) : Host.Outcome State Fault Refusal :=
  run true (Dev.remoteQuery from_ target words 0) s

/-- The answer to a query (R272): its tag is the number of the OUT binding. -/
def Dev.takeAnswer (d : Dev) (src : BitVec 11) (bind status : Nat) : Dev :=
  d.modLink fun l => { l with queries := l.queries.map fun q =>
    if q.dev = src ∧ q.bind = bind ∧ q.answer.isNone then { q with answer := some (decide (status = 0)) } else q }

-- frames that arrive

/-- A REQ packet for this device (log entry 32). -/
def Dev.takeRequest (d : Dev) (src : BitVec 11) (tag op addr body : Nat) : Dev :=
  let mate : Bool := d.link.mirror == .paired && src == d.link.partner
  let t := BitVec.ofNat 64 addr
  match op with
  | 2 => d.remoteQuery src t (BitVec.ofNat 9 body) tag
  | 3 | 4 => d.takeDepend src op t body
  | 5 => if mate then d.mirrorRequest addr body else d
  | 6 => if mate then d.decisionDigest (BitVec.ofNat 64 body) else d
  | 8 => if mate then d.divergence else d
  | _ => d

/-- The beat near the present one whose number ends with these 32 bits (R90). -/
def Dev.nearBeat (d : Dev) (lo : BitVec 32) : Beat := d.time.n - (d.time.n.setWidth 32 - lo).signExtend 64

/-- A packet has arrived whole (R137, R138, R260): by its class, the operation of its header, and the data flits from their first bit on. -/
def Dev.takeWhole (d : Dev) (cls : BitVec 2) (src : BitVec 11) (bytes : Bytes) : Dev :=
  let h := leNat (bytes.take 32)
  let body := leNat (bytes.drop 32)
  let tag := fld h 208 12
  let op := fld h 200 8
  match cls.toNat with
  | 0 => d.takeRequest src tag op (fld h 136 64) body
  | 1 => if 0x800 ≤ tag then d.applied (BitVec.ofNat 9 body) (BitVec.ofNat 64 (body / 2 ^ 64)) (BitVec.ofNat 8 op) else d.takeAnswer src tag op
  | _ => if fld h 212 8 = 2 then Dev.remoteDecision src (BitVec.ofNat 16 (body >>> 112)) (d.nearBeat (BitVec.ofNat 32 (body >>> 64))) (bitOf body 0) d else d

/-- A frame for this device (R260): XCH words at once, the other classes as packets over several frames. -/
def Dev.deliverFrame (d : Dev) (b : Nat) (fr : Frame) : Dev :=
  if fr.cls = 2 then d.remoteWords fr
  else
    let same (f : Frame) : Bool := f.cls == fr.cls && f.vc == fr.vc && f.src == fr.src
    let x := d.bd b
    if !fr.last then d.setBd b { x with partial_ := x.partial_ ++ [fr] }
    else
      let bytes := ((x.partial_.filter same) ++ [fr]).flatMap fun f => leBytes (min 48 f.len.toNat) f.payload.toNat
      (d.setBd b { x with partial_ := x.partial_.filter fun f => !same f }).takeWhole fr.cls fr.src bytes

/-- The device's own frames for itself are delivered, those of one packet one after the other (R265). Bundle 16, which no register has, stands for
the way inside. -/
def Dev.deliverOwn (d : Dev) : Dev :=
  let fs := d.link.loop
  (d.modLink fun l => { l with loop := [] }).each fs fun d f => d.deliverFrame 16 f

/-- A frame for another device goes on (R265); the first frame of a packet that tells of a binding's begin or end is noted on its way (R273). -/
def Dev.passFrame (d : Dev) (b : Nat) (fr : Frame) : Dev :=
  let key := (fr.src, fr.dest, fr.cls, fr.vc)
  let x := d.bd b
  let first : Bool := fr.cls != 2 && !(decide (key ∈ x.passing))
  let d := d.setBd b { x with passing := (x.passing.filter (· != key)) ++ (if fr.cls = 2 ∨ fr.last then [] else [key]) }
  let h := fr.payload.toNat
  let d := if first ∧ fr.cls = 0 then d.passDepend fr.src (fld h 200 8) (BitVec.ofNat 64 (fld h 136 64)) (h >>> 256) else d
  d.routeFrame fr (some (b, vcKey fr))

/-- A CONTROL frame (R260, R263, R264): the partner's receive lanes in its first byte, then the credits of the virtual channels (log entry 32). A lane
that the partner no longer advertises is removed (R258, R281, R283). -/
def Dev.controlFrame (d : Dev) (b : Nat) (fr : Frame) : Dev :=
  let p := fr.payload.toNat
  let d := d.modBd b fun x =>
    { x with peerMask := BitVec.ofNat 8 p,
             used := (List.range 8).foldl (fun t k => Tbl.modify 0 t k fun u => u - fld p (8 + 8 * k) 8) x.used }
  let x := d.bd b
  let gone := (List.range 8).filter fun i => x.active.getLsbD i && !x.peerMask.getLsbD i
  let d := d.each gone fun d i => (d.raise (256 + 8 * x.oct.toNat + i)).removeLane b i
  Dev.pump b (d.bd b).queue.length d

/-- A frame whose SEQ is the next in order is accepted (R261). -/
def Dev.acceptFrame (d : Dev) (b : Nat) (fr : Frame) : Dev :=
  let d := d.modBd b fun x => { x with rxAck := x.rxAck + 1, nakSent := false }
  match fr.type.toNat with
  | 0 => if fr.dest = d.link.devid then (d.creditBack (some (b, vcKey fr))).deliverFrame b fr else d.passFrame b fr
  | 2 => d.controlFrame b fr
  | _ => d

/-- The first discard is answered with NAK (R261). -/
def Dev.sendNak (d : Dev) (b : Nat) : Dev :=
  if (d.bd b).nakSent then d else (d.modBd b fun x => { x with nakSent := true }).nullFrame b true

/-- Frames that were ahead follow in order (R263). -/
def Dev.inOrder (b : Nat) : Nat → Dev → Dev
  | 0, d => d
  | n + 1, d =>
    match (d.bd b).reorder.find? fun x => x.1.seq == (d.bd b).rxAck with
    | none => d
    | some x => Dev.inOrder b n ((d.modBd b fun y => { y with reorder := y.reorder.filter (·.1.seq != x.1.seq) }).acceptFrame b x.1)

/-- Frames that have been ahead for longer than the skew between lanes can last, 100 ns, show that one is lost: they are discarded (R261, R263). -/
def Dev.skewOver (d : Dev) (b : Nat) : Dev :=
  if (d.bd b).reorder.any fun x => decide (x.2 + 100 * ns < d.now) then (d.modBd b fun x => { x with reorder := [] }).sendNak b else d

/-- LINK_FRAME (R261 to R265): ACK and NAK are taken; a frame in sequence is accepted, with those that came ahead of it on other lanes; one that is
ahead waits where the bundle has several lanes; the first other is answered with NAK. -/
def Dev.linkFrame (bd : BitVec 4) (fr : Frame) (d : Dev) : Dev :=
  let b := bd.toNat
  let x := d.bd b
  if x.phase ≠ .up then d
  else if !frameGood fr then
    (d.modBd b fun x => { x with cnt := bumpAt x.cnt 1, crcFails := (fr.lane, d.now) :: x.crcFails.filter (fun y => decide (d.now < y.2 + 10 ^ 6 * ns)) }).sendNak b
  else
    let d := if b = d.link.mbundle.toNat ∨ (d.link.altvalid ∧ b = d.link.altbundle.toNat) then d.modLink fun l => { l with mirrorMissed := 0 } else d
    let d := d.takeAck b fr.ack
    let d := if fr.nak then d.resendFrames b else Dev.pump b (d.bd b).queue.length d
    let d := d.skewOver b
    let x := d.bd b
    let ahead := (fr.seq - x.rxAck).toNat
    if fr.type = 1 ∨ x.phase ≠ .up then d
    else if ahead = 0 then
      let d := d.acceptFrame b fr
      Dev.inOrder b (d.bd b).reorder.length d
    else if 1 < x.lanes.length ∧ ahead < 256 ∧ !(x.reorder.any fun y => y.1.seq == fr.seq) then
      d.modBd b fun x => { x with reorder := x.reorder ++ [(fr, d.now)] }
    else d.sendNak b
def execLinkFrame (bd : BitVec 4) (fr : Frame) (s : State) : Host.Outcome State Fault Refusal := run true (Dev.linkFrame bd fr) s

/-- RETRY_TIMEOUT (R261): the oldest unacknowledged frame is older than RTO; an RTO of 0 acts as 1 (DESIGN CHOICE, log entry 178). -/
def Dev.retryTimeout (b : Nat) (d : Dev) : Dev :=
  let x := d.bd b
  if x.phase = .up ∧ x.sentAt.head?.any (fun t => decide (t + max 1 x.rto.toNat * 100 * ns < d.now)) then d.resendFrames b else d
def execRetryTimeout (bd : BitVec 4) (s : State) : Host.Outcome State Fault Refusal := run true (Dev.retryTimeout bd.toNat) s
def execNullFrame (bd : BitVec 4) (s : State) : Host.Outcome State Fault Refusal := run true (Dev.nullFrame bd.toNat false) s

/-- LANE_ADVERTISE (R263): the lanes on which this end receives. -/
def execLaneAdvertise (bd : BitVec 4) (s : State) : Host.Outcome State Fault Refusal :=
  run true (fun d =>
    if (d.bd bd.toNat).phase ≠ .up then d
    else
      let m := d.upLanes bd.toNat
      (d.modBd bd.toNat fun x => { x with advert := m }).sendControl bd.toNat) s

/-- LANE_DEGRADE (R263): a lane that left UP or failed 8 CRCs within 1 ms. -/
def execLaneDegrade (bd : BitVec 4) (lane : BitVec 3) (s : State) : Host.Outcome State Fault Refusal :=
  run true (fun d =>
    let x := d.bd bd.toNat
    let fails := (x.crcFails.filter fun y => y.1 == lane && decide (d.now < y.2 + 10 ^ 6 * ns)).length
    if (d.lane (8 * x.oct.toNat + lane.toNat)).phase ≠ .up ∨ 8 ≤ fails then d.degrade bd.toNat lane.toNat else d) s
def execBundleDown (bd : BitVec 4) (s : State) : Host.Outcome State Fault Refusal := run true (Dev.bundleDown bd.toNat) s

-- markers (R267, R268)

/-- A time in a marker: seconds, ns and the upper half of the fraction, each most significant byte first (log entry 157). -/
def markTime (t : Nat) : Bytes := beBytes 4 (t / (10 ^ 9 * ns) % 2 ^ 32) ++ beBytes 4 (t / ns % 10 ^ 9) ++ beBytes 2 (t % ns / 2 ^ 16)

/-- The CRC over symbols 1 to 31 of a marker (R267). -/
def markerCrc (m : Marker) : BitVec 32 :=
  crc32 (beBytes 1 (bit m.beatValid 0 + m.hops.toNat * 4) ++ beBytes 8 m.beat.toNat ++ markTime m.tx ++ markTime m.rxLast ++ beBytes 2 m.devid.toNat)
def markerGood (m : Marker) : Bool := m.crc == markerCrc m

/-- A symbol's length in 2^-32 ns (R259). -/
def Bundle.symbol (x : Bundle) : Nat := (if x.rate then 2 else 1) * (10 * ns / 32)

/-- The lowest active lane of a bundle, which carries its markers (R267). -/
def Bundle.markerLane (x : Bundle) : Nat := ((List.range 8).find? x.active.getLsbD).getD 0

/-- One marker on each UP bundle, on its lowest active lane, at the first symbol boundary from now on; TX is that instant referred to the balls (R235,
R267; log entry 185). -/
def Dev.sendMarkers (d : Dev) (valid : Bool) : Dev :=
  d.each (Tbl.keys d.link.bundles) fun d b =>
    let x := d.bd b
    if x.phase ≠ .up then d
    else
      let hops := if d.time.src = 3 then d.link.hops else 0
      let tx := d.now + Config.symbolWait d.free % x.symbol + Config.laneTxLat (8 * x.oct.toNat + x.markerLane)
      let m : Marker := { lane := BitVec.ofNat 3 x.markerLane, beatValid := valid, hops, beat := if valid then d.time.n else BitVec.allOnes 64, tx,
                          rxLast := x.lastArrival, devid := d.link.devid, arrival := 0 }
      ((d.take 1).modBd b fun x => { x with lastTx := (tx :: x.lastTx).take 8 }).emit (.marker (BitVec.ofNat 4 b) { m with crc := markerCrc m })

/-- STOPPED_MARKER (R267). -/
def execStoppedMarker (s : State) : Host.Outcome State Fault Refusal := run true (fun d => if d.time.run then d else d.sendMarkers false) s

/-- The compensated boundary of a marker, from its arrival with the asymmetry taken off, differs from the device's own by more than 8 ns, or its beat
number differs (R246). -/
def Dev.skewed (d : Dev) (m : Marker) (arr delay : Int) : Bool :=
  let sent : Int := arr - delay
  let own := d.beatAt (sent + (8 * ns : Nat)).toNat
  own != m.beat || decide (8 * ns < (sent - d.startOf own).natAbs)

/-- The one-way delay that a pair of markers gives, in 2^-32 ns (R268): RXLAST answers one of this end's last markers, the newest with which the way
there and back is not negative. -/
def Bundle.oneWay (x : Bundle) (arr : Int) (m : Marker) : Option Int :=
  if m.rxLast = 0 then none
  else (x.lastTx.map fun tx => (arr - m.tx) + ((m.rxLast : Int) - tx)).find? (0 ≤ ·) |>.map (· / 2)

/-- BEAT_MARKER_RX (R246, R268, R239): the delay, the servo's measurement under SRC = BILBEN, the start of the generator, the skew check. -/
def Dev.beatMarkerRx (bd : BitVec 4) (m : Marker) (d : Dev) : Dev :=
  let b := bd.toNat
  let x := d.bd b
  if x.phase ≠ .up ∨ !markerGood m then d
  else
    let asym : Int := x.asym.toInt * 2 ^ 16
    let ball : Nat := m.arrival - Config.laneRxLat (8 * x.oct.toNat + m.lane.toNat)
    let arr : Int := (ball : Int) - asym
    let way := x.oneWay arr m
    let delay : Int := way.getD (x.delay.toNat * 2 ^ 24)
    let d := d.setBd b { x with partner := m.devid, lastArrival := ball, missed := 0, delay := BitVec.ofInt 32 (delay / 2 ^ 24) }
    let d := if b = d.link.mbundle.toNat ∨ (d.link.altvalid ∧ b = d.link.altbundle.toNat) then d.modLink fun l => { l with mirrorMissed := 0 } else d
    let upstream : Bool := d.link.upvalid && decide (bd = d.link.upbundle)
    let d := if upstream then d.modLink fun l => { l with uplock := true } else d
    let d := if upstream ∧ d.time.src = 3 ∧ m.hops.toNat < 31 ∧ way.isSome then
        let d := d.modLink fun l => { l with hops := m.hops + 1 }
        let d := d.servoMeasurement (arr - m.tx - delay)
        if m.beatValid ∧ d.time.enabled ∧ !d.time.run ∧ !d.time.armed ∧ d.time.lockedOnce then
          d.modTime fun t => { t with armed := true, next := m.tx + d.period, first := m.beat + 1 }
        else d
      else d
    if m.beatValid ∧ d.time.run then
      let bad := d.skewed m arr delay
      let d := d.modTime fun t => { t with skew := bad }
      if bad then d.raise 587 else d
    else d
def execBeatMarkerRx (bd : BitVec 4) (m : Marker) (s : State) : Host.Outcome State Fault Refusal := run true (Dev.beatMarkerRx bd m) s

/-- UPSTREAM_LOSS (R268, R281): the upstream partner's markers are missing for 4 beats; the servo that follows them enters HOLDOVER. -/
def Dev.upstreamLoss (d : Dev) : Dev :=
  if !d.link.uplock then d
  else
    let d := (d.modLink fun l => { l with uplock := false }).raise (832 + d.link.upbundle.toNat)
    if d.time.src = 3 then d.sourceLoss.holdover else d
def execUpstreamLoss (s : State) : Host.Outcome State Fault Refusal := run true Dev.upstreamLoss s

-- the mirrored pair

/-- The pair is SPLIT (R280): what awaits APPLIED does so no longer; a descriptor that was or will be applied here completes MIRROR_LOST, and FENCEs that
wait for one go on. -/
def Dev.split (d : Dev) : Dev :=
  if d.link.mirror ≠ .paired then d
  else
    let rings := (d.link.await.map (·.desc.ring)).eraseDups
    let d := (d.modLink fun l => { l with mirror := .split, splitNext := false, await := l.await.map fun a => { a with lost := true } }).raise 848
    let d := (d.resolveAwait).each rings fun d k => d.postRing k
    Dev.settle d.fences d

/-- MIRROR_SPLIT (R280): the partner has sent neither frame nor marker for four whole beats. -/
def Dev.mirrorSplit (d : Dev) : Dev := if d.link.mirrorMissed ≤ 4 then d else d.split
def execMirrorSplit (s : State) : Host.Outcome State Fault Refusal := run true Dev.mirrorSplit s

/-- MIRROR_FORM: MIRROR_CTL FORM starts, with the partner's list of admitted function IDs and object hashes (R347; how the lists travel the spec does
not say, log entry 103); the pair forms at its boundary. -/
def Dev.mirrorForm (x : DescRef) (partner : List (FuncId × BitVec 256)) (d : Dev) : Dev :=
  match d.entry? x with
  | some e =>
    if dfld e.desc 0x18 1 ≠ 0 then d
    else d.runOp x 0x70 false fun d _ => d.modLink fun l => { l with partnerList := partner }
  | none => d
def execMirrorForm (x : DescRef) (partner : List (FuncId × BitVec 256)) (s : State) : Host.Outcome State Fault Refusal :=
  run true (Dev.mirrorForm x partner) s

/-- MIRROR_DISSOLVE: MIRROR_CTL DISSOLVE ends the pair at its boundary (R275, R346). -/
def Dev.mirrorDissolve (x : DescRef) (d : Dev) : Dev :=
  match d.entry? x with
  | some e => if dfld e.desc 0x18 1 ≠ 1 then d else d.runOp x 0x70 false fun d _ => d
  | none => d
def execMirrorDissolve (x : DescRef) (s : State) : Host.Outcome State Fault Refusal := run true (Dev.mirrorDissolve x) s

/-- The partner's list names the functions admitted here, with the hashes of their objects, in any order (R347). -/
def Dev.listsAgree (d : Dev) : Bool :=
  let mine := d.admitted.map fun f => (f.id, f.hash)
  mine.all (decide <| · ∈ d.link.partnerList) && d.link.partnerList.all (decide <| · ∈ mine)

/-- MIRROR_CTL at its boundary (R275, R347). FORM on a device that is PAIRED already is refused by no rule: it takes its fields anew, and the
descriptors that await APPLIED go on waiting (DESIGN CHOICE, log entry 134). -/
def Dev.mirrorEffect (x : DescRef) (e : RetEntry) (status : Nat) (d : Dev) : Dev :=
  let b (o n : Nat) : Nat := dfld e.desc o n
  if b 0x18 1 = 1 then
    (((d.commitPoint x).modLink fun l => { l with mirror := .off, await := [], splitNext := false, diverged := false, secondary := false,
                                                  egressActive := true }).lanesTx).finish x status 0
  else if !d.listsAgree then d.finish x 0x11 0x50
  else
    let sec := b 0x19 1 = 1
    (((d.commitPoint x).modLink fun l =>
      { l with partner := BitVec.ofNat 11 (b 0x1A 2), mbundle := BitVec.ofNat 4 (b 0x1C 1), altvalid := b 0x1D 1 != 0xFF,
               altbundle := if b 0x1D 1 = 0xFF then 0 else BitVec.ofNat 4 (b 0x1D 1), autopromote := bitOf (b 0x1E 1) 0, secegress := bitOf (b 0x1E 1) 1,
               lead := BitVec.ofNat 3 (b 0x1F 1), mirror := .paired, secondary := sec, egressActive := !sec || bitOf (b 0x1E 1) 1,
               await := if l.mirror = .paired then l.await else [],
               diverged := false, splitNext := false, mirrorMissed := 0 }).lanesTx).finish x status 0

/-- Another boundary without a marker of a bundle's partner: its event after four whole beats (R281); that of the upstream bundle comes with
UPSTREAM_LOSS. -/
def Dev.missMarker (d : Dev) (b : Nat) : Dev :=
  let x := d.bd b
  let up := d.link.uplock && d.link.upbundle.toNat == b
  if x.phase ≠ .up then d
  else
    let d := d.setBd b { x with missed := x.missed + 1 }
    if x.missed = 4 ∧ !up then d.raise (832 + b) else d

/-- The link at a boundary, after the decisions of the beat before (R263, R266, R267, R277, R278, R280): markers, forwarding changes,
missing markers, rejoining lanes, the digest, the declared split, the promotion. -/
def Dev.linkAtBoundary (d : Dev) (decided : List Decision) : Dev :=
  let d := d.modLink fun l =>
    { l with fwd := (held l.fwdNext).foldl (fun t (k, v) => Tbl.set {} t k v) l.fwd, fwdNext := [], digest := decisionCrc decided,
             atts := l.atts.filter fun a => decide (d.time.n ≤ a.beat), mirrorMissed := l.mirrorMissed + 1 }
  let d := d.each (Tbl.keys d.link.bundles) fun d b => d.missMarker b
  let d := d.each (Tbl.keys d.link.bundles) fun d b =>
    let x := d.bd b
    let joins := d.upLanes b &&& x.advert &&& x.peerMask &&& ~~~x.active
    if x.phase ≠ .up ∨ joins = 0 then d
    else
      let d := d.each ((List.range 8).filter joins.getLsbD) fun d i => d.raise (256 + 8 * x.oct.toNat + i)
      (d.setActive b (x.active ||| joins)).raise (832 + b)
  let d := d.sendMarkers true
  let d := if d.link.mirror = .paired then d.sendMessage d.link.partner .req 0 6 0 1 d.link.digest.toNat else d
  let d := if d.link.splitNext then d.split else d
  let d := d.endDepends.remoteDue
  if d.link.mirror = .split ∧ d.link.secondary ∧ d.link.autopromote ∧ !d.link.diverged ∧ !d.link.egressActive then
    (d.modLink fun l => { l with egressActive := true }).lanesTx
  else d

-- registers (R283)

def Dev.readLinkReg (d : Dev) (off : Nat) : Option Word :=
  let l := d.link
  let w (n : Nat) : Option Word := some (BitVec.ofNat 32 n)
  if off = 0 then w (bit l.en 31 + l.upbundle.toNat * 2 ^ 20 + bit l.upvalid 19 + l.devid.toNat)
  else if off = 4 then w (bit l.uplock 16 + ((List.range 16).map fun b => bit ((d.bd b).phase == .up) b).sum)
  else if off = 0x10 then
    w (bit l.autopromote 31 + bit l.secegress 30 + l.lead.toNat * 2 ^ 27 + l.mbundle.toNat * 2 ^ 23 + l.altbundle.toNat * 2 ^ 19 + bit l.altvalid 18 + l.partner.toNat)
  else if off = 0x14 then
    w ((match l.mirror with | .off => 0 | .paired => 1 | .split => 2) * 2 ^ 30 + bit l.secondary 29 + bit l.egressActive 28 + min 0xFFFF l.await.length)
  else if 0x20 ≤ off ∧ off < 0x30 ∧ off % 4 = 0 then some (Tbl.get {} l.cnt ((off - 0x20) / 4)).toWord
  else if off = 0x30 then w 0
  else if 0x100 ≤ off ∧ off < 0x300 ∧ off % 4 = 0 then
    let x := d.bd ((off - 0x100) / 0x20)
    match off % 0x20 with
    | 0x00 => w (bit x.en 31 + bit x.rate 30 + x.xrsv.toNat * 65536 + x.rto.toNat * 256)
    | 0x04 => w (x.oct.toNat * 256 + x.mask.toNat)
    | 0x08 => w ((match x.phase with | .down => 0 | .training => 1 | .up => 2) * 2 ^ 30 + bit x.laneErr 29 + x.active.toNat * 65536 + x.partner.toNat)
    | 0x0C => some x.delay
    | 0x10 => some x.asym
    | o => some (Tbl.get {} x.cnt ((o - 0x14) / 4)).toWord
  else if 0x1000 ≤ off ∧ off < 0x3000 ∧ off % 4 = 0 then
    let k := (off - 0x1000) / 4
    let e := (Tbl.get none l.fwdNext k).getD (Tbl.get {} l.fwd k)
    w (bit e.valid 31 + bit e.dl 30 + e.bundle.toNat)
  else none

/-- Lanes of a mask. -/
def popcount8 (m : BitVec 8) : Nat := ((List.range 8).map fun i => bit (m.getLsbD i) 0).sum

/-- A write of a bundle's configuration (R259, R274). -/
def Dev.writeBdCfg (d : Dev) (b : Nat) (v : Word) : Dev :=
  let n := v.toNat
  let x := d.bd b
  let x := if x.en then x else { x with rate := bitOf n 30 }
  let limit := popcount8 x.mask * d.beatNs / (2 * (if x.rate then 40 else 20))
  let x := if x.reserved.isEmpty ∧ x.through.isEmpty ∧ fld n 16 10 ≤ limit then { x with xrsv := BitVec.ofNat 10 (fld n 16 10) } else x
  let x := { x with rto := BitVec.ofNat 8 (fld n 8 8) }
  if !bitOf n 31 then
    let d := ((d.setBd b x).bundleDown b).bdPhase b .down
    (d.modBd b fun x => { x with en := false, laneErr := false }).lanesStart x.lanes
  else if x.en then d.setBd b x
  else
    let ok := x.mask ≠ 0 ∧ x.oct.toNat < 12 ∧ x.lanes.all (d.laneFree (300 + b))
    if ok then
      let d := (d.setBd b { x with en := true, laneErr := false }).bdPhase b (if d.link.en then .training else .down)
      (d.lanesStart x.lanes).bundleUp b
    else d.setBd b { x with laneErr := true }

/-- LINK_CFG (R283): without EN no bundle is up or trains; with it the enabled bundles do. Another upstream bundle has sent no markers as one. -/
def Dev.writeLinkCfg (d : Dev) (v : Word) : Dev :=
  let n := v.toNat
  let was := d.link.en
  let d := d.modLink fun l => { l with devid := if l.en then l.devid else BitVec.ofNat 11 n, en := bitOf n 31, upbundle := BitVec.ofNat 4 (fld n 20 4),
                                       upvalid := bitOf n 19, uplock := l.uplock && bitOf n 19 && l.upbundle == BitVec.ofNat 4 (fld n 20 4) }
  if was = d.link.en then d
  else d.each (Tbl.keys d.link.bundles) fun d b =>
    let d := d.bundleDown b
    (d.bdPhase b (if (d.bd b).en ∧ d.link.en then .training else .down)).bundleUp b

def Dev.writeLinkReg (d : Dev) (off : Nat) (v : Word) : Dev :=
  let n := v.toNat
  if off = 0 then d.writeLinkCfg v
  else if off = 0x10 then
    if d.link.mirror ≠ .off then d
    else d.modLink fun l => { l with autopromote := bitOf n 31, secegress := bitOf n 30, lead := BitVec.ofNat 3 (fld n 27 3),
                                     mbundle := BitVec.ofNat 4 (fld n 23 4), altbundle := BitVec.ofNat 4 (fld n 19 4), altvalid := bitOf n 18, partner := BitVec.ofNat 11 n }
  else if off = 0x30 then
    let d := d.modLink fun l => { l with cnt := clearBits l.cnt n 4 }
    d.modBd (fld n 12 4) fun x => { x with cnt := clearBits x.cnt (fld n 6 3) 3 }
  else if 0x100 ≤ off ∧ off < 0x300 then
    let b := (off - 0x100) / 0x20
    match off % 0x20 with
    | 0x00 => d.writeBdCfg b v
    | 0x04 => d.modBd b fun x => if x.en then x else { x with oct := BitVec.ofNat 4 (fld n 8 4), mask := BitVec.ofNat 8 n }
    | 0x10 => d.modBd b fun x => { x with asym := v }
    | _ => d
  else if 0x1000 ≤ off ∧ off < 0x3000 ∧ off % 4 = 0 then
    let k := (off - 0x1000) / 4
    let e : Fwd := { valid := bitOf n 31, dl := bitOf n 30, bundle := BitVec.ofNat 4 n }
    if d.time.run then d.modLink fun l => { l with fwdNext := Tbl.set none l.fwdNext k (some e) }
    else d.modLink fun l => { l with fwd := Tbl.set {} l.fwd k e }
  else d

end Sys2Proof.Machine
end

