-- ==== Sys2Proof/Machine/Exchange.lean ====
section
/-! DEFINITION. Arrival of XCH packets at windows and hub units (05_corridors_and_stairs.md R146, R147; 03_beat_and_commit.md R81, R131). -/

namespace Sys2Proof.Machine
open Sys2Proof

/-- Take the first packet of a source and destination that no ring holds. -/
def takePacket (src dst : Node) : List Packet → Option (Packet × List Packet)
  | [] => none
  | p :: t =>
    if p.src = src ∧ p.dst = dst ∧ !p.waits then some (p, t)
    else (takePacket src dst t).map fun (q, r) => (q, p :: r)

/-- A drain word (R81, R131): the last one written stands; one beyond the drain's size is dropped and is a hub fault. -/
def Func.drainWord (f : Func) (p : Packet) (w : PktWord) : Func :=
  match f.obj.bindings.find? (fun b => b.type == 2 && b.num == p.tgt) with
  | none => { f with hubFault := true }
  | some b =>
    if b.size ≤ w.idx then { f with hubFault := true }
    else { f with filling := Tbl.set none f.filling ((p.rep.toNat * 256 + p.tgt) * 65536 + w.idx) (some { word := w.word, beat := p.beat, att := p.att }) }

/-- A hub unit takes a packet's words of the current beat, of set 0 and of the placement itself (R102, R147, R334); those of attempt 0 are
discarded after a restart. -/
def Dev.hubTakes (d : Dev) (f : Func) (p : Packet) : Bool :=
  p.beat == d.time.n && !p.set && !(f.hubAtt && !p.att)
    && (match p.src with | .room r => f.places.any (·.room == r) | .hub _ => true)

/-- XCH_PACKET: the next packet of a source arrives; `step` is its arrival step (R49). -/
def Dev.xchPacket (src dst : Node) (step : BitVec 17) (d : Dev) : Dev :=
  match takePacket src dst d.net.xch with
  | none => d
  | some (p, rest) =>
    let d := d.modNet fun n => { n.carry src dst p.flits with xch := rest }
    match dst with
    | .room r => d.modRoom r fun rm => rm.receive d.time.n p step.toNat
    | .hub _ =>
      match d.func? p.func with
      | none => d
      | some f =>
        if !d.hubTakes f p then d
        else match p.kind with
          | .drain => d.modFunc f.id fun f => p.words.foldl (fun f w => f.drainWord p w) f
          | .stream =>
            let ahead := match p.src with | .room r => (d.room r).ahead | .hub _ => false
            d.each p.words fun d w => match d.func? p.func with
              | some f => d.bufferWord f p.rep.toNat p.tgt w.idx w.word p.beat p.att ahead
              | none => d
          | .remote => d.sendRemote f p.tgt p.beat p.att p.words
          | .window => d
def execXchPacket (src dst : Node) (step : BitVec 17) (s : State) : Host.Outcome State Fault Refusal :=
  run true (Dev.xchPacket src dst step) s

end Sys2Proof.Machine
end

