-- ==== Sys2Proof/Machine/Images.lean ====
section
/-! DEFINITION. Zheog images and their staging: header, signature, frames, fabric bodies (11_images_and_reconfiguration.md R305 to
R319; 10_direct_fabric.md R287, R288, R292), and the measurement list that installing an object changes (15_strongroom.md R429). -/

namespace Sys2Proof.Machine
open Sys2Proof

def Dev.modFabric (d : Dev) (f : Fabric → Fabric) : Dev := { d with fabric := f d.fabric }
def Dev.modLoader (d : Dev) (f : Loader → Loader) : Dev := { d with loader := f d.loader }
def Dev.modStrong (d : Dev) (f : Strong → Strong) : Dev := { d with strong := f d.strong }

def Dev.stg (d : Dev) (k : Nat) : Staging := Tbl.get {} d.loader.slots k
def Dev.setStg (d : Dev) (k : Nat) (x : Staging) : Dev := d.modLoader fun l => { l with slots := Tbl.set {} l.slots k x }

/-- One more on a LOADER counter: 0 FIX, 1 BGFIX, 2 UNFIX, 3 REFUSED (R338). -/
def Dev.countLoader (d : Dev) (n : Nat) : Dev := d.modLoader fun l => { l with cnt := bumpAt l.cnt n }

-- the measurement list

/-- Add or replace an entry, in order of KIND and INDEX (R429). -/
def insertMeasure (m : Measure) : List Measure → List Measure
  | [] => [m]
  | x :: t =>
    if x.kind = m.kind ∧ x.index = m.index then m :: t
    else if m.kind < x.kind ∨ (m.kind = x.kind ∧ m.index < x.index) then m :: x :: t
    else x :: insertMeasure m t

def Dev.measure (d : Dev) (m : Measure) : Dev := d.modStrong fun s => { s with measures := insertMeasure m s.measures }
def Dev.unmeasure (d : Dev) (kind index : Nat) : Dev :=
  d.modStrong fun s => { s with measures := s.measures.filter fun m => !(m.kind == kind && m.index == index) }

-- header and signature block

/-- Header fields (R306). -/
def imgKind (h : Bytes) : Nat := leAt h 0x0A 1
def imgAlg (h : Bytes) : Nat := leAt h 0x0B 1
def imgSecver (h : Bytes) : Nat := leAt h 0x30 4
def imgFcount (h : Bytes) : Nat := leAt h 0x34 4
def imgBodyLen (h : Bytes) : Nat := leAt h 0x38 8
def imgRoot (h : Bytes) : BitVec 256 := BitVec.ofNat 256 (leAt h 0x40 32)
def imgRegions (h : Bytes) : Nat := leAt h 0x60 8
def imgKeyid (h : Bytes) : Nat := leAt h 0x68 1
def imgSiglen (h : Bytes) : Nat := leAt h 0x6A 2

/-- Check 1 of R317. -/
def headerBad (h : Bytes) : Bool :=
  let f := imgFcount h
  slice h 0 4 != [0x5A, 0x48, 0x45, 0x47] || leAt h 4 2 != 0x0100 || leAt h 6 2 != 512
    || !decide (1 ≤ imgKind h ∧ imgKind h ≤ 4) || !decide (1 ≤ imgAlg h ∧ imgAlg h ≤ 2)
    || !zeroRange h 0x69 1 || !zeroRange h 0x6C 4 || !zeroRange h 0xB0 336
    || !decide (1 ≤ f ∧ f ≤ 262144) || !decide (4024 * (f - 1) + 1 ≤ imgBodyLen h ∧ imgBodyLen h ≤ 4024 * f)

/-- The IDCODE value (R485). -/
def Dev.idcode (d : Dev) : Nat := d.ident.stepping.toNat * 2 ^ 28 + 0x7A07B87

/-- The step clock in MHz (R1). -/
def Dev.stepMhz (d : Dev) : Nat := if d.ident.slowStep then 1000 else 1250

/-- Check 2 of R317: the detail of what does not match the device. -/
def Dev.wrongDevice (d : Dev) (h : Bytes) : Option Nat :=
  let serial := leAt h 0x14 16
  if leAt h 8 2 ≠ 7 then some 1
  else if (leAt h 0x0C 4 ^^^ d.idcode) &&& leAt h 0x10 4 ≠ 0 then some 2
  else if serial ≠ 0 ∧ serial ≠ d.strong.serial.toNat then some 3
  else if 256 - d.ident.disabled.length < leAt h 0x24 2 then some 4
  else if d.stepMhz < leAt h 0x26 2 then some 5
  else none

/-- The signature's and the public key's length by parameter set: 1 ML-DSA-44, 2 ML-DSA-65 (R308). -/
def sigLen (alg : Nat) : Nat := if alg = 1 then 2420 else 3309
def pubLen (alg : Nat) : Nat := if alg = 1 then 1312 else 1952

/-- What the device holds for a key: its parameter set and hash, where it is provisioned, unrevoked and usable (R431, R437). -/
def Dev.signer (d : Dev) (keyid : Nat) : Option (Nat × BitVec 256) :=
  let k := Tbl.get ({} : OwnerKey) d.strong.owner keyid
  let owned : Bool := d.strong.life == .provisioned || d.strong.life == .deployed
  if keyid = 0 then (if d.strong.life = .decommissioned then none else some (2, Config.romKey))
  else if keyid ≤ 4 ∧ owned ∧ k.pset ≠ 0 ∧ !k.revoked then some (k.pset.toNat, k.hash) else none

/-- Checks 3 and 4 of R317: the detail of the first that fails. `b` is the signature block. -/
def Dev.signatureBad (d : Dev) (h b : Bytes) : Option Nat :=
  let alg := imgAlg h
  let pk := slice b (imgSiglen h) (pubLen alg)
  let kindOk : Bool := (imgKind h == 3) == (imgKeyid h == 0)
  match d.signer (imgKeyid h) with
  | none => some 2
  | some (pset, hash) =>
    if !kindOk ∨ pset ≠ alg ∨ imgSiglen h ≠ sigLen alg ∨ sha3 pk ≠ hash then some 2
    else if !Config.mldsaVerify (if alg = 1 then 44 else 65) pk h (slice b 0 (sigLen alg)) then some 1
    else if !(b.drop (sigLen alg + pubLen alg)).all (· == 0) then some 3
    else none

/-- The anti-rollback count of the signer's class (R432). -/
def Dev.arbCount (d : Dev) (keyid : Nat) : Nat := if keyid = 0 then d.strong.arbFw.toNat else d.strong.arbOwner.toNat

/-- Frames that the staging area holds (R315). A cellar staging region must be sealed, owned by the PF and grant COPY_IN, and its queue a copy-engine
queue. -/
def Dev.stageSize (d : Dev) : Nat :=
  let r := d.cellar.region d.loader.stgRegion.toNat
  let q := d.cellar.queue d.loader.stgQueue
  if !d.loader.stgCellar then 2048
  else if r.en ∧ r.sealed_ ∧ r.owner = 0 ∧ r.rights.getLsbD 4 ∧ q.en ∧ q.kind = 1 then (r.lines.2 - r.lines.1) / 32 else 0

/-- The places of the staging area that the other slots hold. -/
def Dev.stageUsed (d : Dev) (k : Nat) : List Nat := d.loader.slots.flatMap fun (i, s) => if i = k then [] else s.places

/-- The lowest `n` places from `p` on that are not in use; the first number bounds the search. -/
def freePlaces (used : List Nat) : Nat → Nat → Nat → List Nat
  | 0, _, _ => []
  | m + 1, p, n => if n = 0 then [] else if p ∈ used then freePlaces used m (p + 1) n else p :: freePlaces used m (p + 1) (n - 1)

/-- Frames of the staging area that the other slots do not hold (R317 check 6). -/
def Dev.stageFree (d : Dev) (k : Nat) : Nat := d.stageSize - (d.stageUsed k).length

/-- The address of a frame's place: in shared SRAM from bank 48 on, or in the staging region (R315). -/
def Dev.stageAddr (d : Dev) (p : Nat) : Nat :=
  if d.loader.stgCellar then 128 * (d.cellar.region d.loader.stgRegion.toNat).lines.1 + 4096 * p else 48 * 2 ^ 20 + 4096 * p

/-- Accepted frames are stored in the staging area (R315): in shared SRAM, or through the staging queue in the cellar. Where the frames of a slot stand is
the model's choice (DESIGN CHOICE, log entry 191); those of a FIRMWARE image are in the device reserve, which nothing reads. -/
def Dev.storeFrames (d : Dev) (s : Staging) : Dev :=
  d.each (s.fresh.zip (s.places.drop (s.frames - s.fresh.length))) fun d (fr, p) =>
    if d.loader.stgCellar then d.putThrough d.loader.stgQueue 33 (d.stageAddr p) fr else d.modSram (·.put (d.stageAddr p) fr)

-- frames

/-- A fault of an image: status, detail and frame. -/
structure ImgFault where
  status : Nat
  detail : Nat
  frame : Nat
  deriving DecidableEq, Repr

/-- CRC-32C of R309. -/
def crc32c (bs : Bytes) : Nat := crcRefl 32 0x82F63B78 bs

/-- Check 7 of R317 on one frame: its detail where it fails. -/
def frameBad (h : Bytes) (i : Nat) (expect : BitVec 256) (fr : Bytes) : Option Nat :=
  let last := decide (i + 1 = imgFcount h)
  let len := leAt fr 4 2
  let lenOk := if last then len == imgBodyLen h - 4024 * i else len == 4024
  if leAt fr 0 4 ≠ i ∨ !zeroRange fr 6 2 ∨ !zeroRange fr 4064 28 ∨ !lenOk ∨ !zeroRange fr (8 + len) (4024 - len)
      ∨ (last ∧ !zeroRange fr 4032 32) then some 2
  else if crc32c (fr.take 4092) ≠ leAt fr 4092 4 then some 3
  else if sha3 fr ≠ expect then some 4
  else none

/-- Take the whole frames that have arrived (R309, R310, R317). -/
def takeFrames (h : Bytes) : Nat → Staging → Staging × Option ImgFault
  | 0, s => (s, none)
  | n + 1, s =>
    if s.rest.length < 4096 ∨ imgFcount h ≤ s.frames then (s, none)
    else
      let fr := s.rest.take 4096
      match frameBad h s.frames s.expect fr with
      | some k => (s, some { status := 0x22, detail := k, frame := s.frames })
      | none => takeFrames h n { s with rest := s.rest.drop 4096, body := s.body ++ slice fr 8 (leAt fr 4 2), frames := s.frames + 1, fresh := if s.kind = 3 then [] else s.fresh ++ [fr],
                                        expect := BitVec.ofNat 256 (leAt fr 4032 32) }

/-- The frame number of a fault in the header or the signature block (R317). -/
abbrev headFrame : Nat := 0xFFFFFFFF

/-- Bytes arrive in a slot: checks 1 to 7 of R317 as far as they can run. -/
def Dev.stageFeed (d : Dev) (k : Nat) (s : Staging) (bs : Bytes) : Staging × Option ImgFault :=
  let all := s.head ++ s.rest ++ bs
  let s := { s with head := all.take 8704, rest := all.drop 8704 }
  let h := s.head.take 512
  let bad (status detail : Nat) : Staging × Option ImgFault := (s, some { status, detail, frame := headFrame })
  if s.head.length < 512 then (s, none)
  else if s.checked = 0 ∧ headerBad h then bad 0x22 1
  else if s.checked = 0 ∧ (d.wrongDevice h).isSome then bad 0x21 ((d.wrongDevice h).getD 0)
  else
    let s := { s with checked := max 1 s.checked, kind := BitVec.ofNat 3 (imgKind h) }
    if s.head.length < 8704 then (s, none)
    else
      let done_ := s.checked = 2
      let sig := if done_ then none else d.signatureBad h (s.head.drop 512)
      match sig with
      | some x => (s, some { status := 0x23, detail := x, frame := headFrame })
      | none =>
        if !done_ ∧ imgSecver h < d.arbCount (imgKeyid h) then (s, some { status := 0x24, detail := 1, frame := headFrame })
        else if !done_ ∧ s.kind ≠ 3 ∧ d.stageFree k < imgFcount h then (s, some { status := 0x11, detail := 0x30, frame := headFrame })
        else
          let places := if s.kind = 3 then [] else freePlaces (d.stageUsed k) d.stageSize 0 (imgFcount h)
          let s := if done_ then s else { s with checked := 2, expect := imgRoot h, places }
          takeFrames h (s.rest.length / 4096 + 1) s

/-- Check 8 of R317. -/
def stageEnd (s : Staging) : Option ImgFault :=
  let n := imgFcount s.head
  if s.head.length < 512 then some { status := 0x20, detail := 1, frame := headFrame }
  else if s.head.length < 8704 then some { status := 0x20, detail := 1, frame := headFrame }
  else if s.frames < n then some { status := 0x20, detail := 1, frame := s.frames }
  else if !s.rest.isEmpty then some { status := 0x22, detail := 5, frame := n }
  else none

-- fabric bodies

/-- A record of a fabric body (R311): its place in the body, type, index and content. -/
structure FabRec where
  off : Nat
  type : Nat
  index : Nat
  data : Bytes
  deriving DecidableEq, Repr

/-- The records of a fabric body; none where a record breaks R311. -/
def parseRecs : Nat → Nat → Bytes → Option (List FabRec)
  | 0, _, bs => if bs.isEmpty then some [] else none
  | n + 1, off, bs =>
    if bs.isEmpty then some []
    else
      let len := leAt bs 4 4
      let padded := ceilDiv len 8 * 8
      if bs.length < 8 + padded ∨ leAt bs 1 1 ≠ 0 ∨ !zeroRange bs (8 + len) (padded - len) then none
      else (parseRecs n (off + 8 + padded) (bs.drop (8 + padded))).map
        ({ off, type := leAt bs 0 1, index := leAt bs 2 2, data := slice bs 8 len } :: ·)

/-- Records stand in order of TYPE and INDEX, none twice. -/
def recsSorted : List FabRec → Bool
  | a :: b :: t => (decide (a.type < b.type) || (a.type == b.type && decide (a.index < b.index))) && recsSorted (b :: t)
  | _ => true

/-- A block RAM of a BRAM record: its configuration word, and its bytes unless KEEP = 1 (R313). -/
def parseBram : Nat → Bytes → Option (List (Nat × Option Bytes))
  | 0, bs => if bs.isEmpty then some [] else none
  | n + 1, bs =>
    if bs.length < 8 then none
    else
      let w := leAt bs 0 8
      if bitOf w 9 then (parseBram n (bs.drop 8)).map ((w, none) :: ·)
      else if bs.length < 8 + 4608 then none
      else (parseBram n (bs.drop (8 + 4608))).map ((w, some (slice bs 8 4608)) :: ·)

/-- The blocks of a REGIONS mask. -/
def blocksOf (regions : Nat) : List Nat := (List.range 64).filter fun b => bitOf regions b

/-- A bank whose eight blocks a mask holds. -/
def bankIn (regions k : Nat) : Bool := (List.range 8).all fun m => bitOf regions (8 * k + m)

/-- A record's index and length are those of its type (R311). -/
def recOk (regions : Nat) (r : FabRec) : Bool :=
  let n := r.data.length
  match r.type with
  | 1 => bitOf regions r.index && n == 458752
  | 2 => bitOf regions r.index && (parseBram 8 r.data).isSome
  | 3 => bitOf regions r.index && n == 48
  | 4 => bitOf regions r.index && n == 8
  | 5 => bitOf regions r.index && n == 3190
  | 6 => bitOf regions r.index && n == 7168
  | 7 | 8 => decide (r.index < 8) && bankIn regions r.index && n == 8
  | _ => false

/-- The records of an image's body, if they are the ones its REGIONS ask for (R311). -/
def fabricRecs (h body : Bytes) : Option (List FabRec) :=
  let regions := imgRegions h
  match parseRecs 512 0 body with
  | none => none
  | some rs =>
    let all (t i : Nat) : Bool := rs.any fun r => r.type == t && r.index == i
    let whole := (blocksOf regions).all fun b => all 1 b && all 2 b && all 3 b && all 4 b && all 5 b
    let banks := ((List.range 8).filter (bankIn regions)).all fun k => all 7 k && all 8 k
    if recsSorted rs ∧ rs.all (recOk regions) ∧ whole ∧ banks ∧ regions ≠ 0 ∧ (imgKind h = 2 ∨ regions = 2 ^ 64 - 1) then some rs else none

/-- The content of a record, where there is one. -/
def recData (rs : List FabRec) (t i : Nat) : Option FabRec := rs.find? fun r => r.type == t && r.index == i

/-- Words of 8 bytes. -/
def words8 (bs : Bytes) : List (BitVec 64) := (nums 8 bs).map (BitVec.ofNat 64)

/-- The LUT's output depends on input i (R312). -/
def lutUses (lut : Nat) (i : Nat) : Bool := (List.range 64).any fun k => !k.testBit i && lut.testBit k != lut.testBit (k + 2 ^ i)

/-- FABRIC_SELECT of one cell (R287, R288, R312). `ws` are its 14 words. An unused input has every select at zero: an input that the LUT depends on, or
one with a source number in a select that is not valid, is used and has no source. The word in which the first fault stands. -/
def cellSelectBad (ws : List (BitVec 64)) : Option Nat :=
  (List.range 6).findSome? fun i =>
    let l1 := (ws.getD (1 + i) 0).toNat
    let w := (ws.getD (7 + i) 0).toNat
    let l1n := l1 &&& (l1 - 1)
    let n := bit (l1 != 0) 0 + bit (bitOf w 13) 0 + bit (bitOf w 32) 0
    let idle := (!bitOf w 13 && fld w 0 13 != 0) || (!bitOf w 32 && fld w 14 18 != 0)
    if l1n ≠ 0 then some (1 + i) else if 2 ≤ n ∨ (n = 0 ∧ (idle ∨ lutUses (ws.getD 0 0).toNat i)) then some (7 + i) else none

/-- FABRIC_RSV of one cell of a block (R288, R312): the word in which the first fault stands. -/
def cellRsvBad (block cell : Nat) (ws : List (BitVec 64)) : Option Nat :=
  let inBad := (List.range 6).find? fun i =>
    let w := (ws.getD (7 + i) 0).toNat
    let l2 := fld w 0 13
    let l3 := fld w 14 18
    w >>> 33 != 0 || (bitOf w 13 && (decide (5333 < l2) || (decide (l2 < 4096) && l2 / 64 == cell / 64)))
      || (bitOf w 32 && l3 / 4096 == block)
  let c := (ws.getD 13 0).toNat
  inBad.map (7 + ·) <|> (if fld c 9 7 ≠ 0 ∨ fld c 30 2 = 3 ∨ c >>> 32 ≠ 0 then some 13 else none)

/-- Reserved bits of a BRAM configuration word, an IOCELL word and a HUBPORT word (R313). -/
def bramRsvBad (w : Nat) : Bool :=
  fld w 4 2 == 3 || fld w 6 2 == 3 || (bitOf w 8 && fld w 0 4 != 15) || w >>> 21 != 0
def ioRsvBad (w : Nat) : Bool := decide (2 < fld w 0 3) || decide (3 < fld w 3 3) || fld w 33 2 == 3 || fld w 35 2 == 3 || w >>> 37 != 0
def hpRsvBad (w : Nat) : Bool := w >>> 6 != 0

/-- FABRIC_RSV of a PORTIN record: bits [14:12], and a UEV entry whose cell's output is not the flip-flop's (R314). The first such entry. -/
def portinRsvBad (es : List Nat) (cells : List (BitVec 64)) : Option Nat :=
  (es.zipIdx.find? fun (e, k) =>
    fld e 12 3 != 0 || (decide (1593 ≤ k) && bitOf e 15 && bitOf ((cells.getD (14 * fld e 0 12 + 13) 0).toNat) 0)).map (·.2)

/-- A PLL's output frequencies in kHz, scaled by D: for each output the pair (reference * M, D * divider); 0 where it is off (R292, R313). -/
def pllOut (w : Nat) (o : Nat) : Nat × Nat :=
  let div := fld w (15 + 7 * o) 7
  if bitOf w 43 ∧ div ≠ 0 then (fld w 44 20 * (fld w 8 7 + 1), (fld w 4 4 + 1) * (div + 1)) else (0, 1)

/-- FABRIC_CLOCK of a PLL word (R288, R292). -/
def pllBad (w : Nat) : Bool :=
  let ref := fld w 44 20
  let vco := ref * (fld w 8 7 + 1)
  let dd := fld w 4 4 + 1
  bitOf w 43 && (decide (4 < fld w 0 4) || !decide (10000 ≤ ref ∧ ref ≤ 800000) || !decide (1400000 * dd ≤ vco ∧ vco ≤ 2800000 * dd)
    || (List.range 4).any fun o => let (n, m) := pllOut w o; decide (700000 * m < n))

/-- The PLL word of PLL k after an image, and the VCCIO of bank k (R311). -/
def Dev.pllAfter (d : Dev) (rs : List FabRec) (k : Nat) : Nat :=
  match recData rs 7 k with | some r => leNat r.data | none => (Tbl.get (0 : BitVec 64) d.fabric.pll k).toNat
def Dev.declAfter (d : Dev) (rs : List FabRec) (k : Nat) : Nat :=
  match recData rs 8 k with | some r => fld (leNat r.data) 0 3 | none => (Tbl.get ({} : IoBank) d.fabric.banks k).decl.toNat

/-- FABRIC_BANK of an I/O cell (R288, R301): LVDS needs the bank's 1.8 V; the LVCMOS standard is the one of the bank's VCCIO. -/
def Dev.ioBankBad (d : Dev) (rs : List FabRec) (block : Nat) (w : BitVec 64) : Bool :=
  fld w.toNat 0 3 == 2 && d.declAfter rs (block / 8) != 5

/-- Both pins of an LVDS pair have STD = 2 (R313): the first pair of a block that has one only. -/
def ioPairBad (ws : List (BitVec 64)) : Option Nat :=
  (List.range 3).find? fun p => (fld (ws.getD (2 * p) 0).toNat 0 3 == 2) != (fld (ws.getD (2 * p + 1) 0).toNat 0 3 == 2)

/-- Where the configuration words of a BRAM record stand in its content (R311, R313). -/
def bramPlaces : List (Nat × Option Bytes) → Nat → List (Nat × Nat)
  | [], _ => []
  | (w, data) :: t, off => (off, w) :: bramPlaces t (off + 8 + (match data with | some bs => bs.length | none => 0))

/-- FABRIC_HUBPORT (R288): a used port's clock is below 50 MHz, or a flip-flop that drives it runs on another clock (log entry 34). -/
def Dev.hubportBad (d : Dev) (rs : List FabRec) (w : Nat) (es : List Nat) (cells : List (BitVec 64)) : Bool :=
  let clk := fld w 1 5
  let (n, m) := pllOut (d.pllAfter rs (clk / 4)) (clk % 4)
  bitOf w 0 && (decide (n < 50000 * m) || decide (700000 * m < n)
    || ((List.range 71).map (1522 + ·)).any fun k =>
        let e := es.getD k 0
        let c := (cells.getD (14 * fld e 0 12 + 13) 0).toNat
        bitOf e 15 && !bitOf c 0 && fld c 4 5 != clk)

/-- The first fault of a fabric body: its detail and its place in the body (R288, R317 check 9). Details are taken in the order of R288's
table. -/
def Dev.fabricFault (d : Dev) (h body : Bytes) : Option (Nat × Nat) :=
  match fabricRecs h body with
  | none => some (6, body.length - 1)
  | some rs =>
    let cellsOf (b : Nat) : List (BitVec 64) := match recData rs 1 b with | some r => words8 r.data | none => []
    let entriesOf (b : Nat) : List Nat := match recData rs 5 b with | some r => nums 2 r.data | none => []
    let cellFault (bad : Nat → Nat → List (BitVec 64) → Option Nat) : Option Nat :=
      (rs.filter (·.type == 1)).findSome? fun r =>
        (chunks 112 4096 r.data).zipIdx.findSome? fun (c, i) => (bad r.index i (words8 c)).map fun k => r.off + 8 + 112 * i + 8 * k
    let recFault (t : Nat) (bad : FabRec → Option Nat) : Option Nat :=
      (rs.filter (·.type == t)).findSome? fun r => (bad r).map (r.off + 8 + ·)
    let whole (bad : FabRec → Bool) (r : FabRec) : Option Nat := if bad r then some 0 else none
    let ioFault (bad : Nat → BitVec 64 → Bool) (r : FabRec) : Option Nat :=
      ((words8 r.data).zipIdx.find? fun (w, _) => bad r.index w).map (8 * ·.2)
    let rsv : Option Nat := cellFault cellRsvBad
      <|> recFault 2 (fun r => ((bramPlaces ((parseBram 8 r.data).getD []) 0).find? fun (_, w) => bramRsvBad w).map (·.1))
      <|> recFault 3 (ioFault fun _ w => ioRsvBad w.toNat)
      <|> recFault 4 (whole fun r => hpRsvBad (leNat r.data))
      <|> recFault 5 (fun r => (portinRsvBad (nums 2 r.data) (cellsOf r.index)).map (2 * ·))
      <|> recFault 8 (whole fun r => decide (5 < leNat r.data))
    ((recFault 3 fun r => (ioPairBad (words8 r.data)).map (16 * ·)).map (6, ·))
    <|> ((cellFault fun _ _ ws => cellSelectBad ws).map (0x40, ·))
    <|> (rsv.map (0x41, ·))
    <|> ((recFault 7 (whole fun r => pllBad (leNat r.data))).map (0x42, ·))
    <|> ((recFault 3 (ioFault (d.ioBankBad rs))).map (0x43, ·))
    <|> ((recFault 4 (whole fun r => d.hubportBad rs (leNat r.data) (entriesOf r.index) (cellsOf r.index))).map (0x44, ·))

/-- Check 9 of R317. A SCHEDULE body is checked at its admission. -/
def Dev.bodyFault (d : Dev) (s : Staging) : Option ImgFault :=
  let h := s.head.take 512
  match imgKind h with
  | 3 => if Config.firmwareOk s.body then none else some { status := 0x22, detail := 6, frame := imgFcount h - 1 }
  | 4 => none
  | _ => (d.fabricFault h s.body).map fun (k, off) => { status := 0x22, detail := k, frame := off / 4024 }

-- IMAGE_STAGE

/-- Open descriptors that name a staging slot: FUNC_ADMIT and IMAGE_APPLY from acceptance to completion (R324). -/
def Dev.slotInUse (d : Dev) (k : Nat) : Bool :=
  d.rings.pairs.any fun (_, r) => r.window.any fun e =>
    e.accept && e.phase != .completed && (descOpcode e.desc == 0x10 || descOpcode e.desc == 0x31) && dfld e.desc 0x18 1 == k

/-- IMAGE_STAGE (R316 to R318): bytes of host memory go to a slot; a failed check empties it and completes with its status, detail and
frame. -/
def Dev.imageStage (x : DescRef) (d : Dev) : Dev :=
  d.runOp x 0x30 true fun d e =>
    let k := dfld e.desc 0x18 1
    let fl := dfld e.desc 0x19 1
    let s0 := d.stg k
    if bitOf fl 0 ∧ d.slotInUse k then d.refuse x { status := 0x11, detail := 0x32 }
    else if !bitOf fl 0 ∧ s0.phase ≠ .receiving then d.finish x 0x20 2 headFrame k
    else
      let s := if bitOf fl 0 then { phase := .receiving } else s0
      let (s, bad) := d.stageFeed k s (e.args.getD [])
      let bad := if bad.isSome ∨ !bitOf fl 1 then bad else (stageEnd s <|> d.bodyFault s)
      match bad with
      | some f =>
        let d := (d.setStg k { status := f.status, detail := f.detail, failFrame := f.frame }).countLoader 3
        if f.status = 0x11 then d.refuse x { status := 0x11, detail := f.detail } else d.finish x f.status f.detail f.frame k
      | none =>
        let d := d.storeFrames s
        let s := { s with phase := if bitOf fl 1 then .verified else s.phase, fresh := [] }
        let d := d.setStg k s
        let d := if s.phase = .verified ∧ s.kind = 3 then d.modLoader fun l => { l with firmware := s } else d
        d.finishOk x
def execImageStage (x : DescRef) (s : State) : Host.Outcome State Fault Refusal := run true (Dev.imageStage x) s

end Sys2Proof.Machine
end

