-- ==== Sys2Proof/Machine/Logic.lean ====
section
/-! DEFINITION. The logic of the direct fabric: what a cell input passes, LUTs and flip-flops, block RAM ports, the registers of user I/O, and
the delays of a path (10_direct_fabric.md R284 to R293, R303; 11_images_and_reconfiguration.md R312 to R314, R326). -/

namespace Sys2Proof.Machine
open Sys2Proof

def Fabric.block (f : Fabric) (b : Nat) : FbBlock := Tbl.get {} f.blocks b
def Fabric.setBlock (f : Fabric) (b : Nat) (x : FbBlock) : Fabric := { f with blocks := Tbl.set {} f.blocks b x }
def Fabric.hp (f : Fabric) (p : Nat) : HubPort := Tbl.get {} f.hubports p

/-- A block runs: configured, past its threshold hold (R297, R298). -/
def Fabric.runs (f : Fabric) (b : Nat) : Bool := (f.block b).phase == .run

/-- A global clock runs: its PLL is locked and its output is on; else it is held low (R292). -/
def Fabric.clockRuns (f : Fabric) (g : Nat) : Bool :=
  let w := (Tbl.get 0 f.pll (g / 4)).toNat
  f.pllLock.getLsbD (g / 4) && bitOf w 43 && fld w (15 + 7 * (g % 4)) 7 != 0

/-- A global clock's frequency in kHz as a fraction (R292). -/
def Fabric.clockRate (f : Fabric) (g : Nat) : Nat × Nat := pllOut (Tbl.get 0 f.pll (g / 4)).toNat (g % 4)

/-- Word `w` of cell `c` of the plane (R284, R312). -/
def Fabric.cellWord (f : Fabric) (c w : Nat) : Nat := (Tbl.get 0 (f.block (c / 4096)).config.cells (14 * (c % 4096) + w)).toNat

/-- A cell's flip-flop. -/
def Fabric.ff (f : Fabric) (c : Nat) : Bool := Tbl.get false (f.block (c / 4096)).ffs (c % 4096)

/-- The global clock of a cell. -/
def Fabric.cellClock (f : Fabric) (c : Nat) : Nat := fld (f.cellWord c 13) 4 5

/-- What a cell input passes: a cell over L1, L2 or L3, a port signal of the block, or nothing. -/
inductive CellSrc where
  | tile (c : Nat) | block (c : Nat) | plane (c : Nat) | port (s : Nat) | open_
  deriving DecidableEq, Repr

/-- The source of input `i` of cell `c` (R287, R289, R312): the lowest-numbered source of its L1 select; where that is clear its L2 source, and where
it has none its L3 source. -/
def Fabric.source (f : Fabric) (c i : Nat) : CellSrc :=
  let l1 := f.cellWord c (1 + i)
  let w := f.cellWord c (7 + i)
  match (List.range 64).find? l1.testBit with
  | some m => .tile (c / 64 * 64 + m)
  | none =>
    if bitOf w 13 then (if fld w 0 13 < 4096 then .block (c / 4096 * 4096 + fld w 0 13) else .port (fld w 0 13))
    else if bitOf w 32 then .plane (fld w 14 18) else .open_

/-- A signal at a clock edge: its value, and how long after the last edge of that clock it settles, in ps (R286). -/
structure Signal where
  val : Bool
  at_ : Nat := 0
  deriving DecidableEq, Repr

def Signal.after (s : Signal) (ps : Nat) : Signal := { s with at_ := s.at_ + ps }

/-- The LUT of a cell (R285, R286, R312), where `rd` gives the cells' outputs and `sig` the port signals of a block. A cell of another block that is
under threshold hold shows what its threshold cell holds (R326). An input without a source reads 0. -/
def Fabric.lut (f : Fabric) (sig : Nat → Nat → Bool) (rd : Nat → Signal) (c : Nat) : Signal :=
  let input (i : Nat) : Signal := match f.source c i with
    | .tile m => (rd m).after 350
    | .block m => (rd m).after 900
    | .plane m => (if (f.block (m / 4096)).phase = .thresh then { val := Tbl.get false (f.block (m / 4096)).held (m % 4096) } else rd m).after 1800
    | .port s => { val := sig (c / 4096) s, at_ := 900 }
    | .open_ => { val := false }
  let ins := (List.range 6).map input
  let k := (ins.zipIdx.map fun (s, i) => bit s.val i).sum
  { val := (f.cellWord c 0).testBit k, at_ := (ins.map (·.at_)).foldl max 0 + 120 }

/-- A cell's output (R285): its flip-flop, which settles 0.08 ns after an edge of its clock, or its LUT. `g` is the clock whose edges count. The first
number bounds the LUTs on the way: a longer one is a loop of LUTs, whose value `loop` is open (log entry 188). -/
def Fabric.cellOut (f : Fabric) (sig : Nat → Nat → Bool) (g : Nat) (loop : Bool) : Nat → Nat → Signal
  | 0, _ => { val := loop }
  | n + 1, c =>
    if bitOf (f.cellWord c 13) 0 then f.lut sig (f.cellOut sig g loop n) c
    else { val := f.ff c, at_ := if f.cellClock c = g then 80 else 0 }

/-- The cells of the plane: no path passes more LUTs. -/
abbrev planeCells : Nat := 262144

/-- What an evaluation of the fabric stands on: the fabric, its port signals, and the open values that it takes. -/
structure View where
  f : Fabric
  sig : Nat → Nat → Bool
  free : Nat

def View.out (v : View) (g c : Nat) : Signal := v.f.cellOut v.sig g (Config.fabricLoop v.free) planeCells c

/-- A settled path meets the period of global clock `g` (R286): 0.06 ns of setup and 0.04 ns of uncertainty before the next edge. -/
def Fabric.meets (f : Fabric) (g ps : Nat) : Bool :=
  let (n, m) := f.clockRate g
  decide ((ps + 100) * n ≤ m * 10 ^ 9)

/-- The reset of a cell is connected and asserted (R285). -/
def View.inReset (v : View) (c : Nat) : Bool :=
  let w := v.f.cellWord c 13
  bitOf w 29 && (v.out (v.f.cellClock c) (c / 64 * 64 + fld w 23 6)).val

/-- A flip-flop after an edge of its clock (R285): reset, held by its clock enable, or its LUT's value; a value that has not settled in time is
open (R286; log entry 188). A reset comes before the clock enable, of which the spec says nothing (DESIGN CHOICE, log entry 188). -/
def View.nextFf (v : View) (c : Nat) : Bool :=
  let w := v.f.cellWord c 13
  let g := v.f.cellClock c
  let en : Signal := if bitOf w 22 then (v.out g (c / 64 * 64 + fld w 16 6)).after 350 else { val := true }
  let s := v.f.lut v.sig (v.out g) c
  if v.inReset c then bitOf w 2
  else if !v.f.meets g (max s.at_ en.at_) then Config.fabricLate v.free c
  else if en.val then s.val else v.f.ff c

/-- A peripheral's input: what the cell of its PORTIN entry drives, 0 without a valid one (R314). -/
def View.portIn (v : View) (b k : Nat) : Bool :=
  let e := (Tbl.get 0 (v.f.block b).config.portin k).toNat
  bitOf e 15 && (v.out 32 (4096 * b + fld e 0 12)).val

/-- `n` inputs of a peripheral as a number. -/
def View.portNum (v : View) (b first n : Nat) : Nat := ((List.range n).map fun i => bit (v.portIn b (first + i)) i).sum

-- block RAMs (R290, R291)

/-- `n` bits of a block RAM from bit `j` on (R313). -/
def ramBits (m : Memory) (q j n : Nat) : Nat := ((Memory.readLe m (4608 * q + j / 8) (ceilDiv (j % 8 + n) 8)) >>> (j % 8)) % 2 ^ n

/-- Store bits of a block RAM where `mask` has a 1. -/
def putRamBits (m : Memory) (q j n data mask : Nat) : Memory :=
  let len := ceilDiv (j % 8 + n) 8
  let old := Memory.readLe m (4608 * q + j / 8) len
  let k := (mask % 2 ^ n) <<< (j % 8)
  Memory.writeN m (4608 * q + j / 8) (leBytes len ((old &&& (old ^^^ k)) ||| ((data <<< (j % 8)) &&& k)))

/-- The byte write enables as a mask of data bits: enable k covers bits 8k to 8k + 7 (R314). -/
def weMask (we : Nat) : Nat := ((List.range 9).map fun k => if we.testBit k then 255 * 2 ^ (8 * k) else 0).sum

/-- An access of a port of a block RAM in one cycle: its width and place, its mode, the data and the bits to write. -/
structure RamAccess where
  width : Nat
  at_ : Nat
  mode : Nat
  data : Nat
  mask : Nat
  deriving DecidableEq, Repr

/-- Port `p` of RAM `q` of a block at an edge of its clock, where it is enabled (R290, R313, R314). -/
def View.ramAccess (v : View) (b q p : Nat) : Option RamAccess :=
  let w := (Tbl.get 0 (v.f.block b).config.bram q).toNat
  let first := 188 * q + 94 * p
  let cfg := fld w (2 * p) 2
  let width := 9 * 2 ^ cfg
  if !bitOf w 20 ∨ !v.portIn b (first + 93) then none
  else some { width, at_ := width * (v.portNum b first 12 % (4096 / 2 ^ cfg)), mode := fld w (4 + 2 * p) 2, data := v.portNum b (first + 12) 72 % 2 ^ width,
              mask := weMask (v.portNum b (first + 84) 9) % 2 ^ width }

/-- The word that an access leaves in the RAM: in SECDED mode its check bits are made from its data (R290; log entry 188). -/
def RamAccess.merged (a : RamAccess) (secded : Bool) (old : Nat) : Nat :=
  let w := (old &&& (old ^^^ a.mask)) ||| (a.data &&& a.mask)
  if secded then w % 2 ^ 64 + 2 ^ 64 * (Config.ramCode (BitVec.ofNat 64 w)).toNat else w

/-- An access writes (R291). -/
def RamAccess.store (a : RamAccess) (secded : Bool) (q : Nat) (m : Memory) : Memory :=
  if a.mask = 0 then m else putRamBits m q a.at_ a.width (a.merged secded (ramBits m q a.at_ a.width)) (2 ^ a.width - 1)

/-- What SECDED makes of a stored word (R290): one wrong bit is corrected in the data read and left in the RAM, two are flagged. -/
def ramCorrect (w : Nat) : RamOut :=
  let good (x : Nat) : Bool := (Config.ramCode (BitVec.ofNat 64 x)).toNat == x / 2 ^ 64
  if good w then { data := BitVec.ofNat 72 w }
  else match (List.range 72).find? fun i => good (w ^^^ 2 ^ i) with
    | some i => { data := BitVec.ofNat 72 (w ^^^ 2 ^ i) }
    | none => { data := BitVec.ofNat 72 w, err := true }

/-- What a port answers (R290, R291): the word as it stood in `m`, the word as written where the mode is WRITE_FIRST, nothing new in a write of mode
NO_CHANGE. -/
def RamAccess.answer (a : RamAccess) (secded : Bool) (q : Nat) (m : Memory) (was : RamOut) : RamOut :=
  let old := ramBits m q a.at_ a.width
  let show_ (w : Nat) : RamOut := if secded then ramCorrect w else { data := BitVec.ofNat 72 w }
  if a.mask = 0 ∨ a.mode = 0 then show_ old
  else if a.mode = 1 then show_ (a.merged secded old) else was

/-- A RAM at edges of its ports' clocks (R291). On one clock both ports see the old words and port A's data is stored where both write; on two clocks
one access comes before the other, which of them is open. -/
def View.ramStep (v : View) (b q : Nat) (edge : Nat → Bool) (x : FbBlock) : FbBlock :=
  let w := (Tbl.get 0 x.config.bram q).toNat
  let secded := bitOf w 8
  let (ca, cb) := (fld w 10 5, fld w 15 5)
  let acc (p c : Nat) : Option RamAccess := if edge c then v.ramAccess b q p else none
  let put (m : Memory) (a : Option RamAccess) : Memory := match a with | some a => a.store secded q m | none => m
  let see (x : FbBlock) (m : Memory) (p : Nat) (a : Option RamAccess) : FbBlock := match a with
    | some a => { x with ramOut := Tbl.modify {} x.ramOut (2 * q + p) (a.answer secded q m) }
    | none => x
  let (aa, ab) := (acc 0 ca, acc 1 cb)
  let m := x.ram
  let first := ca == cb || Config.ramOrder v.free (8 * b + q)
  let (ma, mb) := if ca = cb then (m, m) else if first then (m, put m aa) else (put m ab, m)
  let x := see (see x ma 0 aa) mb 1 ab
  { x with ram := if ca = cb ∨ !first then put (put m ab) aa else put (put m aa) ab }

-- user I/O (R301 to R303)

/-- What the device drives at user I/O `i` (R297, R298, R302, R313, R326): high-impedance with pulls off where the pin is unused, its block has not been
released or its bank is not in order; under threshold hold what the threshold cells hold. The second pin of an LVDS pair carries the complement of the
first (log entry 189). -/
def Fabric.padOf (f : Fabric) (i : Nat) : Pad :=
  let x := f.block (i / 6)
  let w := (Tbl.get 0 x.config.iocell (i % 6)).toNat
  let bank := Tbl.get ({} : IoBank) f.banks (i / 48)
  let lvds := fld w 0 3 == 2
  let j := if lvds then i % 6 / 2 * 2 else i % 6
  if fld w 0 3 = 0 ∨ !x.released ∨ bank.mismatch ∨ !bank.present then {}
  else
    let (v, oe) := if x.phase = .thresh then Tbl.get (false, false) x.heldIo j else let r := Tbl.get ({} : IoRegs) x.io j; (r.out, r.oe)
    { drive := if oe then some (v != (lvds && i % 2 == 1)) else none, pull := BitVec.ofNat 2 (fld w 7 2) }

/-- The level at a pin (R303): what the device drives, or what the world outside does, which is open. -/
def View.level (v : View) (i : Nat) : Bool :=
  match (v.f.padOf i).drive with
  | some x => x
  | none => Config.pinLevel v.free i

/-- An I/O cell at an edge of its clock (R303): the registers capture and launch, a DDR register on both edges, rising edge first. -/
def View.ioStep (v : View) (b j : Nat) (up : Bool) (r : IoRegs) : IoRegs :=
  let w := (Tbl.get 0 (v.f.block b).config.iocell j).toNat
  let pin := v.level (6 * b + (if fld w 0 3 = 2 then j / 2 * 2 else j))
  if up then
    { r with inRise := pin, out := v.portIn b (1504 + 3 * j), outFall := v.portIn b (1504 + 3 * j + 1), oe := v.portIn b (1504 + 3 * j + 2) }
  else
    let r := if bitOf w 9 then { r with inFall := pin } else r
    if bitOf w 10 then { r with out := r.outFall } else r

-- hub ports and port signals (R293, R294, R314)

/-- The HUBPORT records of admitted functions that bind a port (R213, R215). -/
def Dev.portRecords (d : Dev) (p : Nat) : List (Func × BindRec) :=
  d.admitted.flatMap fun f => (f.obj.bindings.filter fun b => b.type == 3 && Tbl.get 0 f.ends.hubports b.num == BitVec.ofNat 32 (4 * 2 ^ 28 + p)).map (f, ·)

/-- HP_TXRDY (R292, R294, R297, R300). -/
def Dev.hpReady (d : Dev) (p : Nat) : Bool :=
  d.time.run && d.hubUp && d.fabric.runs p && d.fabric.clockRuns (d.fabric.hp p).clk.toNat && !(d.fabric.hp p).closed && !(d.portRecords p).isEmpty

/-- A port signal of a block (R314); a number that no signal has reads 0. -/
def Dev.portSignal (d : Dev) (b s : Nat) : Bool :=
  let x := d.fabric.block b
  let h := d.fabric.hp b
  if s < 5248 then
    let (q, r) := ((s - 4096) / 144, (s - 4096) % 144)
    (Tbl.get ({} : RamOut) x.ramOut (2 * q + r / 72)).data.getLsbD (r % 72)
  else if s < 5260 then
    let r := Tbl.get ({} : IoRegs) x.io ((s - 5248) / 2)
    if s % 2 = 0 then r.inRise else r.inFall
  else if s = 5260 then d.hpReady b
  else if s = 5261 then h.rxNow.isSome
  else if s < 5268 then (match h.rxNow with | some (i, _) => i.testBit (s - 5262) | none => false)
  else if s < 5332 then (match h.rxNow with | some (_, w) => w.getLsbD (s - 5268) | none => false)
  else if s = 5332 then h.beat
  else if s = 5333 then h.rxsub else false

/-- What an evaluation of the fabric stands on now. -/
def Dev.fabricView (d : Dev) : View := { f := d.fabric, sig := d.portSignal, free := d.free }

end Sys2Proof.Machine
end

