-- ==== Sys2Proof/Machine/Fabric.lean ====
section
/-! DEFINITION. The direct fabric: installing an image's blocks, release, hub ports, user events, clocks, banks, delays, and the FABRIC
registers (10_direct_fabric.md R284 to R304; 11_images_and_reconfiguration.md R311 to R326). -/

namespace Sys2Proof.Machine
open Sys2Proof

def Dev.modHp (d : Dev) (p : Nat) (g : HubPort → HubPort) : Dev :=
  d.modFabric fun f => { f with hubports := Tbl.modify {} f.hubports p g }
def Dev.modBank (d : Dev) (k : Nat) (g : IoBank → IoBank) : Dev := d.modFabric fun f => { f with banks := Tbl.modify {} f.banks k g }

/-- One more on a FABRIC counter: 0 SELFIX, 1 HPDROP (R304). -/
def Dev.countFabric (d : Dev) (n : Nat) : Dev := d.modFabric fun f => { f with cnt := bumpAt f.cnt n }

-- configuration

/-- Numbers as a sparse table with default 0. -/
def tblOf {α : Type} [DecidableEq α] (z : α) (l : List α) : Tbl α := (l.zipIdx.map fun (v, i) => (i, v)).filter fun e => decide (e.2 ≠ z)

/-- The configuration that an image gives a block (R311 to R314). -/
def blockConfig (rs : List FabRec) (b : Nat) : FbConfig :=
  let data (t : Nat) : Bytes := match recData rs t b with | some r => r.data | none => []
  { cells := tblOf 0 (words8 (data 1))
    bram := tblOf 0 (((parseBram 8 (data 2)).getD []).map fun e => BitVec.ofNat 64 e.1)
    iocell := tblOf 0 (words8 (data 3))
    hubport := BitVec.ofNat 64 (leNat (data 4))
    portin := tblOf 0 ((nums 2 (data 5)).map (BitVec.ofNat 16))
    essmap := tblOf 0 (data 6)
    mapped := (recData rs 6 b).isSome }

/-- Block RAM contents after an image: loaded, or kept where it marks them KEEP (R291). -/
def blockRam (rs : List FabRec) (b : Nat) (old : Memory) : Memory :=
  let rams := match recData rs 2 b with | some r => (parseBram 8 r.data).getD [] | none => []
  rams.zipIdx.foldl (fun m (e, q) => match e.2 with
    | none => m
    | some bs => Memory.writeN m (4608 * q) bs) old

/-- The flip-flops of a block before its release: the reset value where a reset is connected, else INIT (R285, R298). -/
def blockFfs (c : FbConfig) : Tbl Bool :=
  ((List.range 4096).map fun k =>
    let w := (Tbl.get 0 c.cells (14 * k + 13)).toNat
    (k, if bitOf w 29 then bitOf w 2 else bitOf w 1)).filter (·.2)

/-- The supply of a bank is there and is the one that the image declares (R302). -/
def IoBank.agrees (x : IoBank) : Bool := x.present && x.vclass == x.decl

/-- Bank k takes its declaration, compared with the measured supply (R302). -/
def Dev.setDecl (d : Dev) (k : Nat) (decl : BitVec 3) : Dev :=
  let d := d.modBank k fun x => { x with decl, mismatch := !({ x with decl } : IoBank).agrees }
  if (Tbl.get ({} : IoBank) d.fabric.banks k).mismatch then d.raise (512 + 8 * k) else d

/-- A block's new configuration takes effect, with its golden copy, its delays and its hub port's clock (R303, R321). The spec gives the I/O cells'
registers and the read ports of the RAMs no first value: they begin at 0 (DESIGN CHOICE, log entry 189). -/
def Dev.installBlock (d : Dev) (rs : List FabRec) (b : Nat) : Dev :=
  let c := blockConfig rs b
  let d := d.modFabric fun f =>
    let x := f.block b
    { f.setBlock b { x with config := c, golden := c, ram := blockRam rs b x.ram, ramOut := [], ffs := blockFfs c, io := [], rel := 0, loaded := true } with
      iodly := (List.range 6).foldl (fun t j =>
        let w := (Tbl.get 0 c.iocell j).toNat
        let (i, o) := (BitVec.ofNat 8 (fld w 12 8), BitVec.ofNat 8 (fld w 20 8))
        Tbl.set {} t (6 * b + j) { idly := i, odly := o, inow := i, onow := o }) f.iodly }
  d.modHp b fun h => { h with clk := BitVec.ofNat 5 (fld c.hubport.toNat 1 5), taken := [], rx := [], rxNow := none }

-- release

/-- The release clock runs (R299). -/
def Fabric.clockOk (f : Fabric) : Bool := f.clockRuns f.relclk.toNat

/-- WAITCLK (R299). -/
def Dev.checkClock (d : Dev) : Dev :=
  d.modFabric fun f => { f with waitclk := !f.releasing.isEmpty && !f.clockOk }

/-- A release of blocks starts (R299). -/
def Dev.startRelease (d : Dev) (bs : List Nat) : Dev :=
  (d.modFabric fun f => { f with releasing := f.releasing ++ bs, rel := 0 }).checkClock

/-- PLL k is rewritten, with its golden copy: its clocks are low until it locks again, a loss of lock being an event, and a release that needs one of
them waits (R292, R321, R327). -/
def Dev.setPll (d : Dev) (k : Nat) (w : BitVec 64) : Dev :=
  let was := d.fabric.pllLock.getLsbD k
  let d := d.modFabric fun f =>
    { f with pll := Tbl.set 0 f.pll k w, pllGolden := Tbl.set 0 f.pllGolden k w, pllLock := f.pllLock &&& ~~~((1 : BitVec 8) <<< k) }
  (if was then d.raise (512 + 8 * k) else d).checkClock

/-- Configured blocks whose release has not reached stage 3. -/
def Fabric.unreleased (f : Fabric) : List Nat := (f.blocks.filter fun (_, x) => x.loaded && x.rel != 3).map (·.1)

/-- The user I/O stand as their blocks and banks have them, unless DEVICE_SAFE holds them (R298, R302, R419). -/
def Fabric.refreshPads (f : Fabric) : Fabric :=
  if f.ioHeld then f
  else
    let is := (Tbl.keys f.blocks).flatMap fun b => (List.range 6).map (6 * b + ·)
    { f with pads := (is.map fun i => (i, f.padOf i)).filter fun e => decide (e.2 ≠ {}) }
def Dev.refreshPads (d : Dev) : Dev := d.modFabric Fabric.refreshPads

-- threshold cells (R321, R326)

/-- A user event signal is asserted or not; a rising edge is an event, but in a warm reset (R296, R300). -/
def Dev.setUev (d : Dev) (u : Nat) (v : Bool) : Dev :=
  let was := Tbl.get false d.fabric.uev u
  let d := d.modFabric fun f => { f with uev := Tbl.set false f.uev u v }
  if v ∧ !was ∧ d.hubUp then d.raise (896 + u) else d

/-- The cell of a block that drives its user event signal `i`, where it has one (R314). -/
def FbConfig.uevCell (c : FbConfig) (i : Nat) : Option Nat :=
  let e := (Tbl.get 0 c.portin (1593 + i)).toNat
  if bitOf e 15 then some (fld e 0 12) else none

/-- A threshold setting: 0 HOLD_LAST keeps what is presented now, 1 FORCE_0, 2 FORCE_1 (R312, R326). -/
def thrValue (thr : Nat) (now : Bool) : Bool := match thr with | 1 => false | 2 => true | _ => now

/-- The threshold setting of a cell's output in a configuration. -/
def FbConfig.thr (c : FbConfig) (k : Nat) : Nat := fld (Tbl.get 0 c.cells (14 * k + 13)).toNat 30 2

/-- What a cell of a block presents to the other blocks: its output, or what its threshold cell holds. -/
def View.presents (v : View) (b k : Nat) : Bool :=
  if (v.f.block b).phase = .thresh then Tbl.get false (v.f.block b).held k else (v.out 32 (4096 * b + k)).val

/-- The threshold cells of a block take the settings of a configuration and begin to hold: its cells' outputs, its pins' data and enables, and its user
event signals (R297, R321, R326). A signal that no cell drives is 0. -/
def Dev.holdBlock (c : FbConfig) (d : Dev) (b : Nat) : Dev :=
  let v := d.fabricView
  let held := ((List.range 4096).map fun k => (k, thrValue (c.thr k) (v.presents b k))).filter (·.2)
  let pin (j : Nat) : Bool × Bool :=
    let w := (Tbl.get 0 c.iocell j).toNat
    let p := Tbl.get ({} : Pad) d.fabric.pads (6 * b + j)
    (thrValue (fld w 33 2) (p.drive.getD false), thrValue (fld w 35 2) p.drive.isSome)
  let heldIo := ((List.range 6).map fun j => (j, pin j)).filter fun e => decide (e.2 ≠ (false, false))
  let d := d.take 1
  let d := d.each [0, 1] fun d i =>
    let u := 2 * b + i
    d.setUev u (match c.uevCell i with | some k => thrValue (c.thr k) (Tbl.get false d.fabric.uev u) | none => false)
  d.modFabric fun f => f.setBlock b { f.block b with phase := .thresh, held, heldIo }

/-- The threshold cells of a block lift at stage 1 of its release (R298): its outputs are enabled, and its user event signals are what their flip-flops
hold. -/
def Dev.liftBlock (d : Dev) (b : Nat) : Dev :=
  let d := d.modFabric fun f => f.setBlock b { f.block b with phase := .run, released := true, held := [], heldIo := [] }
  d.each [0, 1] fun d i =>
    d.setUev (2 * b + i) (match (d.fabric.block b).config.uevCell i with | some k => d.fabric.ff (4096 * b + k) | none => false)

/-- An application is pending: under way, or accepted and waiting for its boundary (R299). -/
def Dev.applyPending (d : Dev) : Bool :=
  !d.fabric.applying.isEmpty || d.openOps.any fun (_, e) => descOpcode e.desc == 0x31

/-- FABRIC_CTL.RELEASE (R299, R304): accepted while a block is configured, none of the unreleased ones has reached stage 1, and no application is
pending. -/
def Dev.writeRelease (d : Dev) : Dev :=
  let f := d.fabric
  let todo := f.unreleased.filter fun b => !decide (b ∈ f.releasing)
  if f.blocks.all (fun (_, x) => !x.loaded) ∨ d.applyPending ∨ f.unreleased.any (fun b => (f.block b).rel != 0) then
    d.modFabric fun f => { f with relIgnored := f.relIgnored + 1 }
  else if todo.isEmpty then d
  else d.startRelease todo
def execFabricRelease (q : Requester) (s : State) : Host.Outcome State Fault Refusal :=
  run true (fun d => if d.isPf q then d.writeRelease else d) s

/-- A block goes back by one stage (R300): out of stage 3 its flip-flops are in reset again, out of stage 1 its threshold cells hold and its pins are
high-impedance. A block whose application is under way is held already (R322). -/
def Dev.withdrawStage (d : Dev) (b : Nat) : Dev :=
  let x := d.fabric.block b
  if x.rel = 0 ∨ (d.fabric.applying.any fun a => decide (b ∈ a.blocks)) then d
  else
    let d := if x.rel = 1 then Dev.holdBlock x.config d b else d
    d.modFabric fun f =>
      let y := f.block b
      f.setBlock b { y with rel := y.rel - 1, released := y.released && y.rel != 1, ffs := if y.rel = 3 then blockFfs y.config else y.ffs }

/-- A block under release enters its next stage (R298). -/
def Dev.advanceStage (d : Dev) (b : Nat) : Dev :=
  let d := if (d.fabric.block b).rel = 0 then d.liftBlock b else d
  d.modFabric fun f => f.setBlock b { f.block b with rel := (f.block b).rel + 1 }

/-- RELEASE_STAGE (R298, R300): the blocks under release enter their next stage; at stage 1 their threshold cells lift, at stage 3 they run.
In a warm reset that withdraws the stages they go back by one. -/
def Dev.releaseStage (d : Dev) : Dev :=
  let f := d.fabric
  if f.withdrawing then
    ((d.each (Tbl.keys f.blocks) Dev.withdrawStage).modFabric fun f => { f with rel := if f.rel = 0 then 0 else f.rel - 1 }).refreshPads
  else if f.releasing.isEmpty then d
  else if !f.clockOk then d.checkClock
  else
    let d := d.each f.releasing Dev.advanceStage
    let d := d.modFabric fun f =>
      { f with rel := (match f.releasing.getLast? with | some b => (f.block b).rel | none => f.rel),
               releasing := f.releasing.filter fun b => (f.block b).rel != 3 }
    d.checkClock.refreshPads
def execReleaseStage (s : State) : Host.Outcome State Fault Refusal := run true Dev.releaseStage s

/-- PLL_LOCK_CHANGE (R292, R299): an enabled PLL locks or loses lock. -/
def Dev.pllLockChange (k : BitVec 3) (lock : Bool) (d : Dev) : Dev :=
  let on := bitOf (Tbl.get (0 : BitVec 64) d.fabric.pll k.toNat).toNat 43
  if d.fabric.pllLock.getLsbD k.toNat = lock ∨ (lock ∧ !on) then d
  else
    let m := (1 : BitVec 8) <<< k.toNat
    let d := d.modFabric fun f => { f with pllLock := if lock then f.pllLock ||| m else f.pllLock &&& ~~~m, ran := if lock then d.now else f.ran }
    (d.raise (512 + 8 * k.toNat)).checkClock
def execPllLockChange (k : BitVec 3) (lock : Bool) (s : State) : Host.Outcome State Fault Refusal := run true (Dev.pllLockChange k lock) s

/-- VCCIO_MATCH (R302): the measured supply of a bank changes class; a bank held back joins once it matches. -/
def Dev.vccioMatch (k cls : BitVec 3) (d : Dev) : Dev :=
  let d := d.modBank k.toNat fun x =>
    let x := { x with present := cls != 0, vclass := cls }
    { x with mismatch := x.mismatch && !x.agrees }
  d.refreshPads
def execVccioMatch (k cls : BitVec 3) (s : State) : Host.Outcome State Fault Refusal := run true (Dev.vccioMatch k cls) s

/-- One delay step of 10 ps towards a target (R303). -/
def towards (now target : BitVec 8) : BitVec 8 := if now < target then now + 1 else if target < now then now - 1 else now

/-- IODLY_STEP (R303). -/
def Dev.iodlyStep (i : Nat) (d : Dev) : Dev :=
  d.modFabric fun f => { f with iodly := Tbl.modify {} f.iodly i fun x => { x with inow := towards x.inow x.idly, onow := towards x.onow x.odly } }
def execIodlyStep (i : BitVec 9) (s : State) : Host.Outcome State Fault Refusal := run (decide (i.toNat < 384)) (Dev.iodlyStep i.toNat) s

-- applying an image

/-- FABRIC_BLOCK_WRITTEN (R321): the next block of the oldest application has been written. -/
def Dev.fabricBlockWritten (d : Dev) : Dev :=
  match d.fabric.applying.find? (fun a => !a.left.isEmpty) with
  | none => d
  | some a =>
    if !d.hubUp then d
    else d.modFabric fun f => { f with applying := f.applying.map fun y => if y = a then { y with left := y.left.drop 1 } else y }
def execFabricBlockWritten (s : State) : Host.Outcome State Fault Refusal := run true Dev.fabricBlockWritten s

/-- The commit point of a fabric application (R321): threshold hold of every block listed, with the settings of the new image, and the blocks'
measurements (R429). -/
def Dev.applyFabric (d : Dev) (x : DescRef) (k : BitVec 3) (status : Nat) : Dev :=
  let h := (d.stg k.toNat).head.take 512
  let bs := blocksOf (imgRegions h)
  let d := d.commitPoint x
  let d := d.each bs fun d b => d.measure { kind := 4, index := b, secver := imgSecver h, aux := BitVec.ofNat 64 (imgRegions h), hash := sha3 h }
  let rs := (fabricRecs h (d.stg k.toNat).body).getD []
  let d := d.each bs fun d b => Dev.holdBlock (blockConfig rs b) d b
  let d := d.modFabric fun f =>
    { bs.foldl (fun f b => f.setBlock b { f.block b with noScrub := true }) f with
      applying := f.applying ++ [{ desc := x, slot := k, left := bs, blocks := bs, status }] }
  d.refreshPads

/-- A boundary at which an application's blocks are all written (R321): the new configuration takes effect, the release starts, the
descriptor completes. -/
def Dev.finishApply (d : Dev) (a : Application) : Dev :=
  let s := d.stg a.slot.toNat
  let rs := (fabricRecs (s.head.take 512) s.body).getD []
  let d := d.each a.blocks fun d b => d.installBlock rs b
  let d := d.each (rs.filter (·.type == 7)) fun d r => d.setPll r.index (BitVec.ofNat 64 (leNat r.data))
  let d := d.each (rs.filter (·.type == 8)) fun d r => d.setDecl r.index (BitVec.ofNat 3 (leNat r.data))
  let d := d.modFabric fun f => { f with applying := f.applying.filter (· != a), rel := 0 }
  let d := (if d.fabric.autorel then d.startRelease a.blocks else d).refreshPads
  d.finish a.desc a.status 0

/-- The fabric at a boundary (R293, R294, R321): scrubbing resumes on blocks applied at the boundary before, finished applications take
effect, and hub ports take words again. -/
def Dev.fabricAtBoundary (d : Dev) : Dev :=
  let busy := d.fabric.applying.flatMap (·.blocks)
  let d := d.modFabric fun f => { f with blocks := f.blocks.map fun (b, x) => (b, if x.noScrub && !(decide (b ∈ busy)) then { x with noScrub := false } else x) }
  let d := d.each (d.fabric.applying.filter (·.left.isEmpty)) Dev.finishApply
  d.modFabric fun f =>
    let open_ (h : HubPort) : HubPort := { h with taken := [], closed := false }
    let due (t : Tbl HubPort) (b : Nat) : Tbl HubPort :=
      if (f.block b).config.hubport.getLsbD 0 then Tbl.modify {} t b fun h => { h with beatDue := true } else t
    { f with hubports := (Tbl.keys f.blocks).foldl due (Tbl.mapAll {} f.hubports open_) }

-- hub ports

/-- HP_TX_WORD (R294): taken for the coming beat, or dropped and counted; a port that is not ready does not take it. -/
def Dev.hpTxWord (p idx : BitVec 6) (w : Lanes) (d : Dev) : Dev :=
  let n := p.toNat
  if !d.hpReady n then d
  else
    let h := d.fabric.hp n
    let words := ((d.portRecords n).map fun (_, b) => b.words).foldl max 0
    if words ≤ idx.toNat ∨ (Tbl.get none h.taken idx.toNat).isSome then (d.countFabric 1).raise (512 + n)
    else d.modHp n fun h => { h with taken := Tbl.set none h.taken idx.toNat (some w) }
def execHpTxWord (p idx : BitVec 6) (w : Lanes) (s : State) : Host.Outcome State Fault Refusal := run true (Dev.hpTxWord p idx w) s

/-- HP_CLOSE (R294): the first clock edge at or after t_n - 64 ns ends the taking of words; a clock that is held low has none (R292). -/
def Dev.hpClose (p : BitVec 6) (d : Dev) : Dev :=
  let h := d.fabric.hp p.toNat
  if !d.time.run ∨ h.closed ∨ !d.fabric.clockRuns h.clk.toNat ∨ (d.portRecords p.toNat).isEmpty then d
  else (d.reach (d.time.next - 64 * ns)).modHp p.toNat fun h => { h with closed := true, txcount := BitVec.ofNat 7 h.taken.length }
def execHpClose (p : BitVec 6) (s : State) : Host.Outcome State Fault Refusal := run true (Dev.hpClose p) s

/-- HP_RX_PRESENT (R292, R295, R297): the next committed word, in ascending index order, stands at the block for one cycle of the port's clock. -/
def Dev.hpRxPresent (p : BitVec 6) (d : Dev) : Dev :=
  let h := d.fabric.hp p.toNat
  match h.rx with
  | [] => d
  | (i, w) :: t =>
    if !d.fabric.runs p.toNat ∨ !d.fabric.clockRuns h.clk.toNat ∨ !d.hubUp then d
    else (d.modHp p.toNat fun h => { h with rx := t, rxNow := some (i, w), rxcount := h.rxcount + 1 }).emit (.hubport p i w)
def execHpRxPresent (p : BitVec 6) (s : State) : Host.Outcome State Fault Refusal := run true (Dev.hpRxPresent p) s

/-- The words of a HUBPORT record for the coming beat, absent where none was taken (R294, R297). -/
def Dev.portWords (d : Dev) (p : Nat) (b : BindRec) : List (Nat × Option Lanes) :=
  (List.range b.words).map fun k => (b.slot0 + k, if d.fabric.runs p ∧ d.hubUp then Tbl.get none (d.fabric.hp p).taken k else none)

/-- The words of hub ports land in the windows of the beat that starts (R213, R294): every replica, set and migration target. -/
def Dev.portsLand (d : Dev) : Dev :=
  d.each d.admitted fun d f =>
    d.each (f.obj.bindings.filter (·.type == 3)) fun d b =>
      let p := refNum (Tbl.get 0 f.ends.hubports b.num) % 64
      let ws := d.portWords p b
      let rooms := (List.range f.r).flatMap fun rep => f.destinations rep b.vroom
      d.each rooms fun d y => d.hubSend 8 p d.time.n y (ws.map fun (s, w) => { idx := s, word := w.getD 0, absent := w.isNone })

-- user events

/-- UEV_EDGE (R296, R297): a rising edge is an event; a block under hold shows no edge, and a warm reset records none (R300). -/
def Dev.uevEdge (u : BitVec 7) (rising : Bool) (d : Dev) : Dev :=
  let was := Tbl.get false d.fabric.uev u.toNat
  if !d.fabric.runs (u.toNat / 2) ∨ was = rising then d else d.setUev u.toNat rising
def execUevEdge (u : BitVec 7) (rising : Bool) (s : State) : Host.Outcome State Fault Refusal := run true (Dev.uevEdge u rising) s

-- registers (R304)

def fbCode : FbPhase → Nat
  | .empty => 0 | .run => 1 | .thresh => 2

/-- A port is bound: a HUBPORT record or a drain endpoint uses it. -/
def Dev.portBound (d : Dev) (p : Nat) : Bool :=
  !(d.portRecords p).isEmpty || d.admitted.any fun f => f.obj.bindings.any fun b =>
    b.type == 2 && Tbl.get 0 f.ends.drains b.num == BitVec.ofNat 32 (4 * 2 ^ 28 + p)

def Dev.readFabricReg (d : Dev) (off : Nat) : Option Word :=
  let f := d.fabric
  let w (n : Nat) : Option Word := some (BitVec.ofNat 32 n)
  if off % 4 ≠ 0 then none
  else if off = 0 then w (bit f.autorel 31 + bit f.warmkeep 30 + f.relgap.toNat * 2 ^ 24 + f.relclk.toNat * 2 ^ 16)
  else if off = 4 then w (bit (f.blocks.any fun (_, x) => x.loaded) 3 + bit f.waitclk 2 + f.rel.toNat)
  else if off = 8 ∨ off = 0x28 then w 0
  else if off = 0x10 then w f.pllLock.toNat
  else if off = 0x20 ∨ off = 0x24 then some (Tbl.get {} f.cnt ((off - 0x20) / 4)).toWord
  else if 0x100 ≤ off ∧ off < 0x120 then
    let b := Tbl.get ({} : IoBank) f.banks ((off - 0x100) / 4)
    w (b.decl.toNat * 256 + bit b.mismatch 4 + bit b.present 3 + b.vclass.toNat)
  else if 0x200 ≤ off ∧ off < 0x300 then
    let b := f.block ((off - 0x200) / 4)
    w (b.rel.toNat * 4 + fbCode b.phase)
  else if 0x400 ≤ off ∧ off < 0x500 then
    let p := (off - 0x400) / 4
    let h := f.hp p
    w (bit (d.portBound p) 31 + h.clk.toNat * 2 ^ 26 + bit h.rxsub 22 + h.txcount.toNat * 2 ^ 15 + h.rxcount.toNat * 256)
  else if 0x800 ≤ off ∧ off < 0xE00 then
    let i := Tbl.get ({} : IoDelay) f.iodly ((off - 0x800) / 4)
    w (i.idly.toNat * 65536 + i.odly.toNat * 256)
  else none

def Dev.writeFabricReg (d : Dev) (off : Nat) (v : Word) : Dev :=
  let w := v.toNat
  if off = 0 then
    (d.modFabric fun f => { f with autorel := bitOf w 31, warmkeep := bitOf w 30, relgap := BitVec.ofNat 4 (fld w 24 4), relclk := BitVec.ofNat 5 (fld w 16 5) }).checkClock
  else if off = 8 then (if bitOf w 0 then d.writeRelease else d)
  else if off = 0x28 then d.modFabric fun f => { f with cnt := clearBits f.cnt w 2 }
  else if 0x800 ≤ off ∧ off < 0xE00 ∧ off % 4 = 0 then
    d.modFabric fun f => { f with iodly := Tbl.modify {} f.iodly ((off - 0x800) / 4) fun x =>
      { x with idly := BitVec.ofNat 8 (fld w 16 8), odly := BitVec.ofNat 8 (fld w 8 8) } }
  else d

end Sys2Proof.Machine
end

