-- ==== Sys2Proof/Machine/Reserve.lean ====
section
/-! DEFINITION. The XCH reservation (05_corridors_and_stairs.md R143): the packets that a placement sends in a beat that starts at d = 0, and
the steps in which their flits use the links (log entry 36). -/

namespace Sys2Proof.Machine
open Sys2Proof

/-- A packet of a placement's beat: its route's ends, its TGT, its sender and level, its words, the issue step of its last word, and the
last step of its level's bound. -/
structure PlanPacket where
  src : Node
  dst : Node
  tgt : Nat
  vroom : Nat
  level : Nat
  words : Nat
  last : Nat
  stop : Nat
  deriving DecidableEq, Repr

/-- A word joins the last packet of its destination and TGT, up to 16 words, or opens one (R138). -/
def packPlan (x : PlanPacket) : List PlanPacket → List PlanPacket
  | [] => [x]
  | y :: t =>
    let same (z : PlanPacket) : Bool := z.dst == x.dst && z.tgt == x.tgt
    if same y ∧ y.words < 16 ∧ !t.any same then { y with words := y.words + 1, last := x.last } :: t else y :: packPlan x t

/-- Die crossings of a link (R133). -/
def crossings (k : Nat) : Nat :=
  let link := k % 32
  if k / 64 < 16 then (if link = 7 ∨ link = 15 then 1 else 0)
  else if link = 0 ∨ link = 8 then 1 else if link = 16 then 2 else 0

/-- The links of a route with the steps from injection to the arrival of the first flit at each (R144). -/
def routeSteps : Nat → List Nat → List (Nat × Nat)
  | _, [] => []
  | t, k :: rest => (k, t) :: routeSteps (t + 2 + 6 * crossings k) rest

/-- Flits of a packet: the header and one for each four words (R137). -/
def flitsOf (words : Nat) : Nat := 1 + ceilDiv words 4

/-- T (R144). -/
def packetTime (way : List Nat) (words : Nat) : Nat := 3 + 2 * way.length + 6 * (way.map crossings).sum + flitsOf words + 2

/-- A link direction can take one more flit in a step (R143): it is free, and no 64 consecutive steps hold more than 32. -/
def linkFree (used : List LinkUse) (u : LinkUse) : Bool :=
  let steps := (used.filter fun x => x.link == u.link).map (·.step)
  !(decide (u.step ∈ steps)) && (List.range 64).all fun i =>
    decide (u.step < i) || decide ((steps.filter fun s => decide (u.step - i ≤ s ∧ s < u.step - i + 64)).length < 32)

/-- Take the uses of a packet one by one. -/
def takeUses : List LinkUse → List LinkUse → Option (List LinkUse)
  | used, [] => some used
  | used, u :: t => if linkFree used u then takeUses (u :: used) t else none

/-- Reserve a packet at its first injection step that works (R143). -/
def reservePacket (used : List LinkUse) (p : PlanPacket) : Option (List LinkUse) :=
  let way := fixedWay p.src p.dst
  let time := packetTime way p.words
  (List.range (p.stop + 1 - time - p.last)).findSome? fun i =>
    let t := p.last + 1 + i
    if p.stop < t + time then none
    else takeUses used ((routeSteps (t + 3) way).flatMap fun (k, s) => (List.range (flitsOf p.words)).map fun f => { link := k, step := s + f })

/-- The packets of one room of a placement, pass by pass and level by level (R138). -/
def planRoom (o : Obj) (places : List Place) (p : Place) : List PlanPacket :=
  let rm := o.rooms.getD p.vroom {}
  let sends := (placedInsns o.levels rm).filter (fun x => x.x.kind == 1)
  let target (e : SendEntry) : Option (Node × Nat) := match e.kind with
    | 1 => (places.find? fun y => y.set == p.set && y.rep == p.rep && y.vroom == e.tgt).map fun y => (.room y.room, 0)
    | 2 => some (.hub 4, e.tgt)
    | 3 => some (.hub 2, e.tgt)
    | 4 => some (.hub 3, e.tgt)
    | _ => none
  (List.range o.p).flatMap fun q => o.levels.zipIdx.flatMap fun ((n, c), j) =>
    let start := q * passSteps o.levels
    let stop := start + levelStep o.levels j + n + bound c - 1
    let issue := (List.range n).flatMap fun i => sends.filter fun x => x.i == levelStart o.levels j + i
    issue.foldl (fun acc x => match target (entryOf rm x) with
      | some (dst, tgt) =>
        packPlan { src := .room p.room, dst, tgt, vroom := p.vroom, level := j, words := 1, last := start + stepOf o.levels x.i, stop } acc
      | none => acc) []

/-- The words of a virtual room's window that feeds, drains' tags and hub ports send for each beat (R212, R213, R294). -/
def hubWords (b : BindRec) : Nat :=
  (if b.type = 1 ∧ b.target = 0 then b.gmax * groupWords b.fmt b.samp b.b else if b.type = 3 then b.words else 0)
    + (if (b.type = 1 ∧ b.target = 0 ∨ b.type = 2) ∧ b.tags then b.gmax else 0)

/-- The packets of feed and hub-port words to one room of a placement (R139, R143): a feed's in any steps of a beat of `n` steps, a hub port's
after its close 64 ns, `close` steps, before the boundary (R294; log entry 36). -/
def planHub (n close : Nat) (o : Obj) (p : Place) : List PlanPacket :=
  (o.bindings.filter fun b => b.vroom == p.vroom).flatMap fun b =>
    (List.range (ceilDiv (hubWords b) 16)).map fun i =>
      { src := .hub 8, dst := .room p.room, tgt := 0, vroom := p.vroom, level := 0xFFFF, words := min 16 (hubWords b - 16 * i),
        last := if b.type = 3 then n - close else 0, stop := n - 1 }

/-- Reserve packets in order: the link uses, or the first that finds no steps. -/
def reserveAll : List LinkUse → List PlanPacket → Except PlanPacket (List LinkUse)
  | used, [] => .ok used
  | used, p :: t => match reservePacket used p with
    | some used => reserveAll used t
    | none => .error p

/-- The reservations of a placement beside those that stand (R143), one for each set and replica: or the virtual room and level that find no
steps. -/
def Dev.reserveXch (d : Dev) (fid : FuncId) (o : Obj) (places : List Place) (migrating : Bool) (parts : List (Bool × Nat)) :
    Except (Nat × Nat) (List Reservation) :=
  parts.foldl (fun acc (set, rep) => match acc with
    | .error e => .error e
    | .ok rs =>
      let standing := (d.net.reservations ++ rs).flatMap (·.uses)
      let mine := places.filter fun p => p.set == set && p.rep == rep
      let n := d.stepsOf d.time.period.toNat
      match reserveAll standing (mine.flatMap (planRoom o places) ++ mine.flatMap (planHub n (64 * d.stepMhz / 1000) o)) with
      | .ok used => .ok (rs ++ [{ func := fid, set, rep, migrating, uses := used.take (used.length - standing.length) }])
      | .error p => .error (p.vroom, p.level)) (.ok [])

end Sys2Proof.Machine
end

