-- ==== Sys2Proof/Machine/Admission.lean ====
section
/-! DEFINITION. Admission: the checks of R127, binding under R120 to R126, the reservation of R130, and the writing of rooms
(04_schedule_contract.md R119 to R130; 07_media_ports.md R210 to R217; 09_lanes_and_link.md R269 to R273;
11_images_and_reconfiguration.md R323). -/

namespace Sys2Proof.Machine
open Sys2Proof

/-- The operands of a FUNC_ADMIT with its argument block (R347, R348). -/
structure Ask where
  fid : FuncId
  r : Nat
  owner : BitVec 7
  pool : Nat
  obj : Obj
  ends : Endpoints
  /-- the OUT bindings whose targets have answered their queries, and what they say (R272) -/
  answers : List (Nat × Bool) := []
  deriving DecidableEq, Repr

/-- Numbers of `n` bytes as a sparse table. -/
def refTable (w n : Nat) (bs : Bytes) : Tbl (BitVec w) := tblOf 0 ((nums n bs).map (BitVec.ofNat w))

/-- The argument block (R348). -/
def parseEnds (bs : Bytes) : Endpoints where
  feeds := refTable 32 4 (slice bs 0 1024)
  drains := refTable 32 4 (slice bs 0x400 1024)
  hubports := refTable 32 4 (slice bs 0x800 256)
  regions := refTable 32 4 (slice bs 0x900 1024)
  remotes := refTable 64 8 (slice bs 0xD00 2048)

/-- The functions whose resources count: reserved and admitted ones (R130). -/
def Dev.holders (d : Dev) : List Func := d.funcs.filter fun f => f.phase != .retiring

/-- A room can be bound (R2, R121, R150): enabled, not isolated, held by no function, and its stair's way to the hub is up (log entry
35). -/
def Dev.roomFree (d : Dev) (r : RoomId) : Bool :=
  !d.roomDisabled r && !(d.room r).isolated && !(d.funcs.any fun f => f.allPlaces.any (·.room == r))
    && !d.net.downOn (.room r) (.hub 0) && !d.net.downOn (.hub 0) (.room r)

/-- The free rooms of a pool mask. -/
def Dev.poolRooms (d : Dev) (pool : Nat) : List RoomId :=
  ((List.range 256).filter fun n => bitOf pool n && d.roomFree (BitVec.ofNat 8 n)).map (BitVec.ofNat 8)

/-- The pool of every room. -/
abbrev anyPool : Nat := 2 ^ 256 - 1

-- resources (R119, R127)

/-- The format that a feed's source gives, for its peak. -/
def Dev.feedPeak (d : Dev) (ends : Endpoints) (b : BindRec) : Nat :=
  ((d.inFormat (Tbl.get 0 ends.feeds b.num)).map (fun f => peakOf f d.beatNs)).getD 0

/-- Lines that a function takes of the cellar line budget (R119, R215). -/
def Dev.lineCharge (d : Dev) (o : Obj) (r : Nat) (ends : Endpoints) : Nat :=
  (o.rdLines + o.wrLines) * r
    + ((o.bindings.filter fun b => b.type == 1 && b.target == 1).map fun b => ceilDiv (d.feedPeak ends b * groupWords b.fmt b.samp b.b * 8) 128).sum

/-- Turns of a group (R210): 24-bit audio and AES3 take two, ANC none. -/
def turnsOf (fmt b : Nat) : Nat := if fmt = 4 ∨ fmt = 5 then 0 else if 16 < b then 2 else 1

/-- The turns per beat of a function's feeds (first) and drains, one entry for each number. -/
def Dev.turnList (d : Dev) (o : Obj) (ends : Endpoints) : List (Bool × Nat) :=
  let firsts := o.bindings.zipIdx.filter fun (b, i) => (b.type == 1 || b.type == 2) && !((o.bindings.take i).any fun c => c.type == b.type && c.num == b.num)
  firsts.map fun (b, _) =>
    let peak := if b.type = 1 then d.feedPeak ends b else ((d.refOut (Tbl.get 0 ends.drains b.num)).map (fun f => peakOf f d.beatNs)).getD 0
    (b.type == 1, peak * turnsOf b.fmt b.b)

/-- Assign a binding to the first turner of its direction, or of none yet, with room (R210). -/
def assignTurner (lim : Nat) (x : Bool × Nat) : List (Option Bool × Nat) → Option (List (Option Bool × Nat))
  | [] => none
  | (dir, load) :: t =>
    if (dir.isNone ∨ dir = some x.1) ∧ load + x.2 ≤ lim then some ((some x.1, load + x.2) :: t)
    else (assignTurner lim x t).map ((dir, load) :: ·)

/-- All bindings fit the 32 turners. -/
def turnersOk (lim : Nat) (xs : List (Bool × Nat)) : Bool :=
  (xs.foldl (fun acc x => acc.bind (assignTurner lim x)) (some (List.replicate 32 (none, 0)))).isSome

/-- Bytes of drain memory of an object's drains (R217). -/
def drainBytes (o : Obj) (r : Nat) : Nat := ((o.bindings.filter (·.type == 2)).map fun b => 16 * b.size * r).sum

/-- Bytes of the hold line of a format (R217). -/
def Fmt.holdLine (f : Fmt) : Nat := 8 * lineGroups f * groupWords f.fmt f.samp f.b

/-- Bytes of the hold lines of egresses with safe state HOLD (R217): of flows by their record, of the SDI egresses of a function's drains by
SUBST. -/
def Dev.holdBytes (d : Dev) : Nat :=
  (d.media.flows.map fun (i, x) => if 1024 ≤ i ∧ x.opened ∧ x.record.safe = 0 then x.record.format.holdLine else 0).sum
def Dev.sdiHoldBytes (d : Dev) (o : Obj) (ends : Endpoints) : Nat :=
  (o.bindings.map fun b =>
    let ref := Tbl.get 0 ends.drains b.num
    if b.type = 2 ∧ refKind ref = 2 ∧ (o.subst[b.num]?).getD 0 = 1 then ((d.refOut ref).map Fmt.holdLine).getD 0 else 0).sum

/-- A drain's endpoint is bound already, by another function or an earlier record (R215). -/
def Dev.drainTaken (d : Dev) (a : Ask) (i : Nat) (ref : EndRef) : Bool :=
  (d.holders.any fun f => f.obj.bindings.any fun b => b.type == 2 && Tbl.get 0 f.ends.drains b.num == ref)
    || d.media.reroutes.any (fun y => y.ref == ref)
    || ((a.obj.bindings.take i).any fun b => b.type == 2 && Tbl.get 0 a.ends.drains b.num == ref)

/-- A format that never enters a room: 4:2:0 goes to frame stores alone, COMPRESSED never to rooms (R201, R211, R213). -/
def onlyStores (b : BindRec) : Bool := (b.fmt == 1 && b.samp == 3) || b.fmt == 5

/-- The issue step of a REMOTE binding's last SEND over all passes of a schedule that starts at d = 0 (R269); none where its room sends nothing
to it. -/
def lastSend (o : Obj) (b : BindRec) : Option Nat :=
  (o.rooms[b.vroom]?).bind fun rm =>
    let mine (p : Placed) : Bool := p.x.kind == 1 && (let s := entryOf rm p; s.valid && s.kind == 2 && s.tgt == b.num)
    ((placedInsns o.levels rm).filter mine).foldl (fun m p =>
      some (max (m.getD 0) ((o.p - 1) * passSteps o.levels + stepOf o.levels p.i))) none

/-- LASTSTEP of an OUT record is that step, below N of the longest beat (R66, R269); the loader knows it, and refuses another as a record at fault
(DESIGN CHOICE, log entry 174). -/
def Dev.lastStepBad (d : Dev) (o : Obj) (b : BindRec) : Bool :=
  decide (d.stepsOf 8192 ≤ b.lastStep) || (lastSend o b).any (· != b.lastStep)

/-- A binding record that R215, R213, R269 or R272 refuses. A REMOTE binding index stands for one binding of the function: a second OUT record
of it, one of the other direction, or one of the same virtual room is "already used" (R128). A function has at most 256 REMOTE bindings (R119), under
the same detail (DESIGN CHOICE, log entry 174). -/
def Dev.recordBad (d : Dev) (a : Ask) (b : BindRec) (i : Nat) : Bool :=
  let share := if b.div = 0 then 1 else a.r
  let gw := groupWords b.fmt b.samp b.b
  let tagsBad := b.tags && decide (1024 < b.tslot + b.gmax)
  !b.rsvOk || (match b.type with
  | 1 =>
    let ref := Tbl.get 0 a.ends.feeds b.num
    (match d.inFormat ref with
    | none => true
    | some f => !fmtMatches (refKind ref) b f || decide (2 < b.div) || decide (b.gmax < ceilDiv (peakOf f d.beatNs) share))
      || (if b.target = 0 then onlyStores b || decide (a.obj.v ≤ b.vroom) || decide (1024 < b.slot0 + b.gmax * gw) || tagsBad
          else
            let w := Tbl.get 0 a.ends.regions b.fsidx
            b.target != 1 || b.vroom != 0xFFFF || !w.getLsbD 31 || !(Tbl.get ({} : FrameStore) d.cellar.frames (fld w.toNat 16 8 % 64)).opened)
  | 2 =>
    let ref := Tbl.get 0 a.ends.drains b.num
    let fmtBad := if refKind ref = 4 then b.fmt != 4 || decide (64 ≤ refNum ref) || decide (64 < b.size) else match d.refOut ref with
      | none => true
      | some f => !fmtMatches (refKind ref) b f || decide (b.gmax < ceilDiv (peakOf f d.beatNs) share)
    fmtBad || onlyStores b || decide (2 < b.div) || decide (a.obj.v ≤ b.vroom) || b.size != b.gmax * gw || tagsBad || d.drainTaken a i ref
  | 3 =>
    let ref := Tbl.get 0 a.ends.hubports b.num
    refKind ref != 4 || decide (64 ≤ refNum ref) || decide (64 ≤ b.num) || decide (a.obj.v ≤ b.vroom)
      || !decide (1 ≤ b.words ∧ b.words ≤ 64) || decide (1024 < b.slot0 + b.words)
      || (d.holders.any fun f => f.obj.bindings.any fun c => c.type == 3 && Tbl.get 0 f.ends.hubports c.num == ref)
  | 4 =>
    let t := Tbl.get 0 a.ends.remotes b.num
    ((a.obj.bindings.take i).any fun c => c.type == 4 && c.num == b.num && (c.dirIn != b.dirIn || !b.dirIn || c.vroom == b.vroom))
      || decide (256 ≤ ((a.obj.bindings.take i).filter (·.type == 4)).length)
      || decide (a.obj.v ≤ b.vroom) || !decide (1 ≤ b.words ∧ b.words ≤ 256)
      || (if b.dirIn then decide (1024 < b.slot0 + b.words) || b.lastStep != 0
          else b.slot0 != 0 || d.lastStepBad a.obj b || t.toNat % 2 ^ 13 != 0 || !(decide ((b.num, true) ∈ a.answers)))
  | _ => true)

/-- A stream whose region binding is absent, lacks the right, or whose lines fall outside its region (R161 to R163, R183). The places of a RING
stream are the multiples of gcd(STEP, 2^RLOG) below 2^RLOG; a FRAME stream is clamped within its frame (R184). -/
def Dev.streamBad (d : Dev) (ends : Endpoints) (s : StreamDecl) : Bool :=
  let w := Tbl.get 0 ends.regions s.region
  let q := d.cellar.queue (BitVec.ofNat 9 w.toNat)
  let lines := ceilDiv s.words 16
  let fs := Tbl.get ({} : FrameStore) d.cellar.frames (fld w.toNat 16 8 % 64)
  let n := if s.mode = 2 then fs.region.toNat else fld w.toNat 16 8
  let r := d.cellar.region n
  let len := r.lines.2 - r.lines.1
  !w.getLsbD 31 || !q.en || q.kind != 0 || !r.en || !(q.owner == r.owner || q.owner == 0)
    || !r.rights.getLsbD (if s.write then Want.streamW else if s.mode = 2 then Want.feed else Want.streamR).bit
    || (match s.mode with
        | 0 => decide (len < s.line + lines)
        | 1 => decide (len < s.line + (2 ^ s.rlog - Nat.gcd s.step (2 ^ s.rlog)) + lines)
        | _ => !fs.opened || decide (fs.flines.toNat < lines))

/-- The first binding fault (detail 0x0A), with its place (R350). -/
def Dev.bindingFault (d : Dev) (a : Ask) : Option Nak :=
  let nak (v i k : Nat) : Nak := { status := 0x11, detail := 0x0A, vroom := v, index := i, ikind := k }
  ((a.obj.bindings.zipIdx.find? fun (b, i) => d.recordBad a b i).map fun (b, i) => nak (if b.vroom < a.obj.v then b.vroom else 0xFFFF) i 7)
  <|> (a.obj.rooms.zipIdx.findSome? fun (rm, v) => (rm.streams.zipIdx.find? fun (s, _) => d.streamBad a.ends s).map fun (_, i) => nak v i 2)
  <|> (let turns := (d.holders.flatMap fun f => d.turnList f.obj f.ends) ++ d.turnList a.obj a.ends
       if turnersOk (d.stepsOf d.time.period.toNat - 256) turns then none else some (nak 0xFFFF 0xFFFF 0))
  <|> (if d.bufferLacks ((a.obj.bindings.filter fun b => b.type == 1 && b.target == 0).map fun b => Tbl.get 0 a.ends.feeds b.num)
       then some (nak 0xFFFF 0xFFFF 0) else none)
  <|> (let bytes := (d.holders.map fun f => drainBytes f.obj f.r).sum + drainBytes a.obj a.r + d.holdBytes
         + (d.holders.map fun f => d.sdiHoldBytes f.obj f.ends).sum + d.sdiHoldBytes a.obj a.ends
       if bytes ≤ 16 * 2 ^ 20 then none else some (nak 0xFFFF 0xFFFF 0))

/-- The frame time of a bundle in ns: 20 at 32.0 Gb/s, 40 at 16.0 Gb/s (R259, R283). -/
def Bundle.frameNs (x : Bundle) : Nat := if x.rate then 40 else 20

/-- LINK_BD_DELAY, in 2^-8 ns, in tenths of ns rounded up (R268, R283). -/
def Bundle.delay10 (x : Bundle) : Nat := ceilDiv (10 * x.delay.toNat) 256

/-- Frames of an object's OUT bindings before the i-th record on one bundle. -/
def Dev.framesBefore (d : Dev) (a : Ask) (i b : Nat) : Nat :=
  ((a.obj.bindings.take i).map fun c =>
    if c.type = 4 ∧ !c.dirIn then match d.routeTo (rtDev (Tbl.get 0 a.ends.remotes c.num)) with
      | some f => if f.bundle.toNat = b then ceilDiv c.words 4 else 0
      | none => 0
    else 0).sum

/-- The path check of a REMOTE binding (R273), in tenths of ns: the first hop by this device's figures, the hops after it by what their devices
answer (log entry 37). -/
def Dev.pathBad (d : Dev) (a : Ask) (b : BindRec) (i : Nat) : Bool :=
  let t := Tbl.get 0 a.ends.remotes b.num
  match d.routeTo (rtDev t) with
  | none => true
  | some fw =>
    let x := d.bd fw.bundle.toNat
    let lanes := max 1 ((List.range 8).map fun k => bit (x.mask.getLsbD k) 0).sum
    let delay := x.delay10
    let retry := 2 * delay + 1200
    let lw := delay + 600 + 10 * (ceilDiv x.xrsv.toNat lanes * x.frameNs) + retry + 1000 + 10 * Config.farWords d.free t
    let le := delay + 600 + 10 * x.frameNs + retry + 1000 + 10 * Config.farDecision d.free t
    let step := if d.ident.slowStep then 10 else 8
    let beat := 10 * d.beatNs
    decide (beat < (64 + b.lastStep + 72) * step + lw + 160) || decide (beat + Config.farDeadline d.free t / 10 < (budgetOf a.obj + 64) * step + 80 + le + 160)
      || decide (x.xrsv.toNat < x.framesTaken + d.framesBefore a i fw.bundle.toNat + bindFrames b.words) || !Config.farRoom d.free t

/-- The resource checks (R127, R128). Where several fail, the first in the order of the details refuses: R127 gives no order inside
check_resources (DESIGN CHOICE, log entry 132). -/
def Dev.checkResources (d : Dev) (a : Ask) : Option Nak :=
  let o := a.obj
  let fs := d.holders
  let nak (k : Nat) : Nak := { status := 0x11, detail := k }
  let need := o.v * a.r * (if o.dual then 2 else 1)
  (if a.fid = 0xFFFF ∨ d.funcs.any (fun f => f.id == a.fid && (f.phase != .retiring || !f.places.isEmpty)) then some (nak 1) else none)
  <|> (if 256 ≤ fs.length then some (nak 2) else none)
  <|> (if (d.poolRooms a.pool).length < need then some (nak 3) else none)
  <|> ((quotaBad o).map fun (v, j) => { nak 5 with vroom := v, index := j, ikind := if j = 0xFFFF then 0 else 1 })
  <|> (if 256 < o.mwrMax then
         some { nak 6 with vroom := (o.rooms.zipIdx.findSome? fun (rm, v) => if 256 < o.p * countKind o rm 3 then some v else none).getD 0xFFFF }
       else none)
  <|> ((streamsBad o).map fun (v, i) => { nak 7 with vroom := v, index := i, ikind := if i = 0xFFFF then 0 else 2 })
  <|> (if d.beatNs * 5 / 2 < (fs.map fun f => d.lineCharge f.obj f.r f.ends).sum + d.lineCharge o a.r a.ends then some (nak 8) else none)
  <|> (if 32768 < (fs.map fun f => f.obj.wrLines * f.r).sum + o.wrLines * a.r then some (nak 9) else none)
  <|> d.bindingFault a
  <|> ((o.bindings.zipIdx.find? fun (b, i) => b.type == 4 && !b.dirIn && d.pathBad a b i).map fun (b, i) =>
        { nak 0x0B with vroom := b.vroom, index := i, ikind := 7 })

-- binding (R120, R121)

/-- ROOM entries of CLASS 1 as pairs of virtual rooms (R120). -/
def wingEdges (o : Obj) : List (Nat × Nat) :=
  o.rooms.zipIdx.flatMap fun (rm, v) => rm.sends.filterMap fun e =>
    let s := sendEntry e
    if s.valid ∧ s.kind = 1 ∧ s.cls = 1 then some (v, s.tgt) else none

/-- The virtual rooms joined to a set. -/
def wingReach (edges : List (Nat × Nat)) : Nat → List Nat → List Nat
  | 0, s => s
  | n + 1, s =>
    let more := edges.flatMap fun (a, b) => (if a ∈ s ∧ b ∉ s then [b] else []) ++ (if b ∈ s ∧ a ∉ s then [a] else [])
    if more.isEmpty then s else wingReach edges n (s ++ more.eraseDups)

/-- The wing groups, ascending by lowest virtual room, each ascending (R120, R121). -/
def wingGroups (o : Obj) : List (List Nat) :=
  let edges := wingEdges o
  (List.range o.v).foldl (fun gs v =>
    if gs.any (fun g => decide (v ∈ g)) then gs
    else
      let s := wingReach edges o.v [v]
      gs ++ [(List.range o.v).filter fun x => decide (x ∈ s)]) []

/-- The token ceiling C per wing and window (R125). -/
def Dev.ceilingOf (d : Dev) (ceil hub : Nat) : Nat := (ceil - hub) * 64 * 1000000 / (24 * d.stepMhz)
def Dev.tokenCeiling (d : Dev) : Nat := d.ceilingOf d.power.ceil.toNat d.power.hubres.toNat

/-- The envelopes bound to a wing (R126): those of every function's and migration's rooms on it. -/
def Dev.wingEnvelopes (d : Dev) (w : Nat) : List (List Nat) :=
  d.holders.flatMap fun f => (f.allPlaces.filter fun p => wingOf p.room == w).map fun p => envelopeOf (f.obj.rooms.getD p.vroom {}).profile

/-- The sum of a window over envelopes. -/
def windowSum (es : List (List Nat)) (i : Nat) : Nat := (es.map fun e => e.getD i 0).sum

/-- The most tokens that a wing holds in any window. -/
def Dev.wingPeak (d : Dev) (w : Nat) : Nat :=
  let es := d.wingEnvelopes w
  ((List.range ((es.map (·.length)).foldl max 0)).map (windowSum es)).foldl max 0

/-- A binding under way: its places, its free pool rooms, the groups counted on each wing. -/
structure Binding where
  places : List Place := []
  free : List RoomId
  groups : List Nat
  deriving DecidableEq, Repr

/-- Insert a wing in candidate order (R121). -/
def insertWing (key : Nat → Nat) (w : Nat) : List Nat → List Nat
  | [] => [w]
  | x :: t => if key w < key x then w :: x :: t else x :: insertWing key w t

/-- Place one wing group of a set and replica (R121). -/
def Dev.placeGroup (d : Dev) (o : Obj) (set : Bool) (rep : Nat) (b : Binding) (g : List Nat) : Except Nak Binding :=
  let free (w : Nat) : List RoomId := b.free.filter fun r => wingOf r == w
  let key (w : Nat) : Nat := (b.groups.getD w 0 * 1024 + (512 - (free w).length)) * 4 + w
  let cand := ((List.range 4).filter fun w => decide (g.length ≤ (free w).length)).foldr (insertWing key) []
  let mine := g.map fun v => envelopeOf (o.rooms.getD v {}).profile
  let over_ (w : Nat) : Option Nat :=
    let placed := (b.places.filter fun p => wingOf p.room == w).map fun p => envelopeOf (o.rooms.getD p.vroom {}).profile
    let es := d.wingEnvelopes w ++ placed ++ mine
    (List.range ((mine.map (·.length)).foldl max 0)).find? fun i => decide (d.tokenCeiling < windowSum es i)
  match cand.find? (fun w => (over_ w).isNone) with
  | some w =>
    let rooms := (free w).take g.length
    .ok { places := b.places ++ (g.zip rooms).map (fun (v, room) => { set, rep, vroom := v, room })
          free := b.free.filter fun r => !(decide (r ∈ rooms))
          groups := b.groups.modify w (· + 1) }
  | none => .error (match cand with
    | [] => { status := 0x11, detail := 0x04, vroom := g.headD 0 }
    | w :: _ => { status := 0x12, detail := 0x01, vroom := g.headD 0, index := (over_ w).getD 0xFFFF, ikind := 3 })

/-- Bind wing groups for a list of sets and replicas, in R121's order. -/
def Dev.bindAll (d : Dev) (o : Obj) (b : Binding) (parts : List (Bool × Nat)) : Except Nak Binding :=
  let gs := wingGroups o
  (parts.flatMap fun p => gs.map (p, ·)).foldl (fun acc ((s, rep), g) => match acc with
    | .ok b => d.placeGroup o s rep b g
    | .error e => .error e) (.ok b)

/-- A room of a binding from which a packet's route uses a link direction that is down (R150). -/
def Dev.downRoom (d : Dev) (o : Obj) (places : List Place) : Option RoomId :=
  places.findSome? fun p => if (planRoom o places p).any fun k => d.net.downOn k.src k.dst then some p.room else none

/-- Bind under R121 without rooms whose routes would use a link direction that is down (R150): a room found to have one is left out, and the
binding made again. -/
def Dev.bindUp (d : Dev) (o : Obj) (parts : List (Bool × Nat)) (groups : List Nat) : Nat → List RoomId → Except Nak Binding
  | 0, free => d.bindAll o { free, groups } parts
  | n + 1, free =>
    match d.bindAll o { free, groups } parts with
    | .error e => .error e
    | .ok b => match d.downRoom o b.places with
      | none => .ok b
      | some r => Dev.bindUp d o parts groups n (free.filter (· != r))

/-- The sets and replicas of a function. -/
def partsOf (dual : Bool) (r : Nat) : List (Bool × Nat) :=
  (if dual then [false, true] else [false]).flatMap fun s => (List.range r).map (s, ·)

/-- The steps per beat that an admission is checked against, and the detail of its refusal (R69, R127, R128). -/
def Dev.timeRefusal (d : Dev) (w : Nat) : Option Nat :=
  let p : Int := d.time.period.toNat
  if d.stepsOf p < w + 128 then some 1
  else if d.time.slips.any fun s => decide (s.units < 0) && decide (d.stepsOf (p + s.units) < w + 128) then some 2
  else none

/-- The refusal XCH_LINK (R128, R143): the virtual room and the level whose packet finds no steps; a feed's or port's packet has no level. -/
def linkNak (v j : Nat) : Nak := { status := 0x11, detail := 0x0C, vroom := v, index := j, ikind := if j = 0xFFFF then 0 else 1 }

/-- All checks of an admission, then its binding and XCH reservation (R127). -/
def Dev.admission (d : Dev) (bytes : Bytes) (a : Ask) : Except Nak (List Place × List Reservation) :=
  let w := budgetOf a.obj
  let refused := checkStructure bytes <|> checkRooms a.obj <|> checkDeclarations a.obj w
    <|> (d.timeRefusal w).map (fun k => { status := 0x10, detail := k }) <|> d.checkResources a
  match refused with
  | some n => .error n
  | none =>
    match d.bindUp a.obj (partsOf a.obj.dual a.r) [0, 0, 0, 0] 256 (d.poolRooms a.pool) with
    | .error n => .error n
    | .ok b =>
      match d.reserveXch a.fid a.obj b.places false (partsOf a.obj.dual a.r) with
      | .error (v, j) => .error (linkNak v j)
      | .ok rs => .ok (b.places, rs)

/-- What a FUNC_ADMIT asks for (R347, R348), with the answers of the devices that it has queried (R272). -/
def Dev.askOf (d : Dev) (x : DescRef) (e : RetEntry) : Ask :=
  let w := e.desc
  let args := e.args.getD []
  { fid := BitVec.ofNat 16 (d.admitId w), r := dfld w 0x19 1, owner := BitVec.ofNat 7 (dfld w 0x1B 1),
    pool := if bitOf (dfld w 0x1A 1) 0 then anyPool else leAt args 0x1500 32, obj := parseObj (d.stg (dfld w 0x18 1)).body, ends := parseEnds args,
    answers := d.link.queries.filterMap fun q => if q.desc = x then q.answer.map (q.bind, ·) else none }

/-- The OUT bindings of an object whose targets have not answered. -/
def Ask.unanswered (a : Ask) : List BindRec := a.obj.bindings.filter fun b => b.type == 4 && !b.dirIn && !(a.answers.any (·.1 == b.num))

/-- Query the devices of OUT bindings, each once (R272): a REQ packet with the target as ADDR and the binding's words in its data. A device to which no
entry leads cannot be asked. -/
def Dev.query (d : Dev) (x : DescRef) (a : Ask) : Dev :=
  d.each (a.unanswered.filter fun b => !(d.link.queries.any fun q => q.desc == x && q.bind == b.num)) fun d b =>
    let t := Tbl.get 0 a.ends.remotes b.num
    let lost : Bool := rtDev t != d.link.devid && (d.routeTo (rtDev t)).isNone
    let q : RemoteQuery := { desc := x, bind := b.num, dev := rtDev t, answer := if lost then some false else none }
    (d.modLink fun l => { l with queries := l.queries ++ [q] }).sendMessage (rtDev t) .req b.num 2 t.toNat 1 b.words

/-- FUNC_ADMIT (R127 to R130, R272, R323): refused without a trace, or its binding reserved and its rooms under threshold hold while they are written.
Where only answers of other devices are missing for its bindings, it queries them, and is evaluated when they are there. -/
def Dev.funcAdmit (x : DescRef) (d : Dev) : Dev :=
  match d.startable x 0x10 with
  | none => d
  | some e =>
  if e.args.isNone then d
  else
    let a := d.askOf x e
    let res := d.admission (d.stg (dfld e.desc 0x18 1)).body a
    let asks : Bool := !a.unanswered.isEmpty && (match res with | .error n => n.status == 0x11 && n.detail == 0x0A | .ok _ => true)
    if asks then d.query x a
    else
    let d := (d.start x).modLink fun l => { l with queries := l.queries.filter (·.desc != x) }
    let d := if a.obj.bindings.any (fun b => b.type == 4 && !b.dirIn) then d.take 1 else d
    match res with
    | .error n => d.refuse x n
    | .ok (places, rs) =>
      let gen := d.loader.gen + 1
      let f : Func := { id := a.fid, obj := a.obj, r := a.r, owner := a.owner, gen, budget := budgetOf a.obj, places, ends := a.ends,
                        hash := sha3 ((d.stg (dfld e.desc 0x18 1)).head.take 512) }
      let d := d.putFuncs (d.funcs.filter (fun (x : Func) => x.id != a.fid) ++ [f])
      let d := d.modLoader fun l => { l with gen }
      let d := d.modNet fun n => { n with reservations := n.reservations ++ rs }
      d.each places fun d p => d.modRoom p.room fun rm => { rm with thresh := true, power := if rm.power = 0 then 1 else rm.power }
def execFuncAdmit (x : DescRef) (s : State) : Host.Outcome State Fault Refusal := run true (Dev.funcAdmit x) s

-- writing rooms

/-- The send table as the loader writes it (R122): physical rooms and the placement generation. -/
def boundSends (places : List Place) (p : Place) (gen : BitVec 8) (sends : List (BitVec 64)) : List (BitVec 64) :=
  sends.map fun e =>
    let s := sendEntry e
    if !s.valid then e
    else
      let tgt := if s.kind = 1 then
          ((places.find? fun y => y.set == p.set && y.rep == p.rep && y.vroom == s.tgt).map fun y => y.room.toNat).getD s.tgt
        else s.tgt
      BitVec.ofNat 64 (e.toNat - s.tgt * 2 ^ 48 + tgt * 2 ^ 48 + gen.toNat * 2 ^ 8)

/-- A Boolean processor as it is loaded (R32): its instructions, and the committed copies of the state image. -/
def loadBp (o : Obj) (rm : RoomImg) (b : Nat) : Bp :=
  { imem := tblOf nopWord (rm.insns.getD b [])
    committed := if o.initState then (tblOf 0 ((rm.state.drop (256 * b)).take 256)).map (fun (k, w) => (768 + k, w)) else [] }

/-- Bank words of the image (R114). -/
def loadBanks (rm : RoomImg) : Tbl Lanes :=
  rm.bankImg.foldl (fun t i => i.words.zipIdx.foldl (fun t (w, k) => Tbl.set 0 t (i.bank * 2048 + i.first + k) w) t) []

/-- Start positions of the banks (R51). -/
def loadPos (rm : RoomImg) (pos : BitVec 64 → Nat) : Tbl Nat := tblOf 0 (rm.setups.map pos)

/-- A room written from its virtual room's image (R32, R61, R122, R323): its registers keep their counters. -/
def writtenRoom (old : Room) (o : Obj) (places : List Place) (p : Place) (gen : BitVec 8) : Room :=
  let rm := o.rooms.getD p.vroom {}
  let bps := ((List.range 128).map fun b => (b, loadBp o rm b)).filter fun e => decide (e.2 ≠ {})
  { isolated := old.isolated, power := old.power, gen := old.gen, lastCommit := old.lastCommit, cnt := old.cnt, mwrPeak := old.mwrPeak,
    func := old.func, vroom := old.vroom, set := p.set, rep := BitVec.ofNat 8 p.rep, len := o.l, passes := o.p, levels := o.levels,
    primary := BitVec.ofNat 16 rm.primary, bankSetup := tblOf 0 rm.setups, sliceDesc := tblOf 0 rm.slices, slotEntry := tblOf 0 rm.slots,
    consts := tblOf 0 rm.consts, sends := tblOf 0 (boundSends places p gen rm.sends), envelope := envelopeOf rm.profile,
    due := dueTable o rm p.vroom, bps, bank := loadBanks rm, rpos := loadPos rm setupRstart, wpos := loadPos rm setupWstart,
    crpos := loadPos rm setupRstart, cwpos := loadPos rm setupWstart }

/-- The reserved function, or the migration in LOAD, for which a room is being written, with its place. -/
def Dev.writingOf (d : Dev) (r : RoomId) : Option (Func × List Place × Place × BitVec 8) :=
  d.funcs.findSome? fun f =>
    match f.phase with
    | .reserved => if r ∈ f.written then none else (f.places.find? (·.room == r)).map fun p => (f, f.places, p, f.gen)
    | _ => match f.migration with
      | some m => if m.phase ≠ .load ∨ r ∈ m.written then none else (m.places.find? (·.room == r)).map fun p => (f, m.places, p, m.gen)
      | none => none

/-- ROOM_WRITTEN (R323, R332, R357): the room holds its image; the last of an admission's rooms makes the descriptor ready. -/
def Dev.roomWritten (r : RoomId) (d : Dev) : Dev :=
  match d.writingOf r with
  | none => d
  | some (f, places, p, gen) =>
    let d := d.modRoom r fun rm => { writtenRoom rm f.obj places p gen with thresh := f.phase != .reserved }
    let mark (x : Func) : Func := match x.phase with
      | .reserved => { x with written := r :: x.written }
      | _ => { x with migration := x.migration.map fun m => { m with written := r :: m.written } }
    let d := d.modFunc f.id mark
    if f.phase = .reserved ∧ f.written.length + 1 = f.places.length then
      d.each (d.openOps.filter fun (_, e) => descOpcode e.desc == 0x10 && e.started && d.admitId e.desc == f.id.toNat) fun d (x, _) => d.setReady x
    else d
def execRoomWritten (r : RoomId) (s : State) : Host.Outcome State Fault Refusal := run true (Dev.roomWritten r) s

-- release

/-- A room is cleared and goes back to IDLE or OFF (R325, R466, R488): its counters stay. -/
def clearedRoom (off : Bool) (old : Room) : Room :=
  { isolated := old.isolated, gen := old.gen, vroom := old.vroom, lastCommit := old.lastCommit, cnt := old.cnt, mwrPeak := old.mwrPeak,
    power := if off then 0 else 1 }

/-- Rooms are released: a reset of the room that the fuse box deferred is done with it (R418). -/
def Dev.clearRooms (d : Dev) (rs : List RoomId) : Dev :=
  d.each rs fun d r =>
    let d := d.modRoom r (clearedRoom d.power.roomOff)
    d.putFuse { d.fuse with srcs := Tbl.modify {} d.fuse.srcs r.toNat fun x => { x with rstpend := false } }

/-- The frames that a binding takes of each beat of the bundle that its words leave on, and their release, whatever LINK_FWD says then (R273). -/
def Dev.reserveFrames (d : Dev) (f : FuncId) (bind : Nat) (t : BitVec 64) (words : Nat) : Dev :=
  match d.routeTo (rtDev t) with
  | some fw => if rtDev t = d.link.devid then d else d.modBd fw.bundle.toNat fun x => { x with reserved := x.reserved.filter (fun y => y.1 != (f, bind)) ++ [((f, bind), bindFrames words)] }
  | none => d
def Dev.releaseFrames (d : Dev) (f : FuncId) (bind : Nat) : Dev :=
  d.modLink fun l => { l with bundles := Tbl.mapAll {} l.bundles fun x => { x with reserved := x.reserved.filter fun y => y.1 != (f, bind) } }

/-- Resources that hang on a function's ID are released (R130, R143, R272, R273): its XCH reservation, its REMOTE dependencies and frames. -/
def Dev.dropFuncLinks (d : Dev) (f : Func) : Dev :=
  let d := d.modNet fun n => { n with reservations := n.reservations.filter fun x => x.func != f.id }
  let d := d.modLink fun l => { l with deps := l.deps.filter fun x => x.func != f.id }
  if f.phase = .reserved then d
  else
    d.each (f.obj.bindings.filter fun b => b.type == 4 && !b.dirIn) fun d b =>
      let t := Tbl.get 0 f.ends.remotes b.num
      (d.sendDepend 4 f.id t b.words d.time.n).releaseFrames f.id b.num

/-- A reserved binding is undone (R129, R130, R359): rooms already written return to IDLE or OFF. -/
def Dev.undoAdmission (d : Dev) (f : Func) : Dev :=
  let d := (d.dropFuncLinks f).clearRooms f.rooms
  d.putFuncs (d.funcs.filter fun x => !(x.id == f.id && x.phase == .reserved))

/-- The commit point of an admission (R18, R122, R323): the function's rooms run from the beat `n` that starts. -/
def Dev.admitEffect (x : DescRef) (e : RetEntry) (status : Nat) (n : Beat) (d : Dev) : Dev :=
  let fid := BitVec.ofNat 16 (d.admitId e.desc)
  match d.funcs.find? (fun f => f.id == fid && f.phase == .reserved) with
  | none => d
  | some f =>
    let s := d.stg (dfld e.desc 0x18 1)
    let d := d.commitPoint x
    let d := d.modFunc fid fun f => { f with phase := .admitted, since := n, deadlineD := 0, written := [] }
    let d := d.each f.places fun d p =>
      (d.modRoom p.room fun rm => { rm with func := fid, vroom := BitVec.ofNat 8 p.vroom, gen := f.gen, power := 2, thresh := false, phase := .run }).passStart p.room
    let d := d.each (f.obj.bindings.filter fun b => b.type == 4 && !b.dirIn) fun d b =>
      let t := Tbl.get 0 f.ends.remotes b.num
      (d.reserveFrames fid b.num t b.words).sendDepend 3 fid t b.words n
    let d := d.measure { kind := 5, index := fid.toNat, secver := imgSecver s.head, aux := n, hash := sha3 (s.head.take 512) }
    let d := d.putHub { d.hub with figures := Tbl.erase d.hub.figures fid.toNat }
    d.finish x status 0 (if status = 0 then fid.toNat + f.gen.toNat * 65536 else 0) 0 (some n)

/-- The undo of a STRICT admission that is late (R323). -/
def Dev.undoStrict (x : DescRef) (e : RetEntry) (d : Dev) : Dev :=
  match d.funcs.find? (fun f => f.id == BitVec.ofNat 16 (d.admitId e.desc) && f.phase == .reserved) with
  | some f => (d.undoAdmission f).finish x 4 0
  | none => d.finish x 4 0

end Sys2Proof.Machine
end

