-- ==== Sys2Proof/Machine/Migrate.lean ====
section
/-! DEFINITION. Retirement, PARAM_AT and migration (11_images_and_reconfiguration.md R325, R331 to R337; 02_rooms.md R60). What they do at a
boundary is named here and called by the boundary. -/

namespace Sys2Proof.Machine
open Sys2Proof

-- retirement

/-- The admitted function that a descriptor names at 0x18. -/
def Dev.namedFunc (d : Dev) (w : BitVec 512) : Option Func :=
  d.funcs.find? fun f => f.id.toNat == dfld w 0x18 2 && f.phase == .admitted

/-- FUNC_RETIRE (R325): it waits for its boundary. A function that is not admitted is an operand fault (log
entry 39); behind an earlier change of the function the boundary alone judges it (R21). -/
def Dev.funcRetire (x : DescRef) (d : Dev) : Dev :=
  d.runOp x 0x11 false fun d e => if !d.waitsFor e && (d.namedFunc e.desc).isNone then d.finish x 5 4 else d
def execFuncRetire (x : DescRef) (s : State) : Host.Outcome State Fault Refusal := run true (Dev.funcRetire x) s

/-- Boundary a of a retirement (R130, R325): the rooms issue nothing and are cleared under threshold hold, IDLE (R25, R466; DEDUCED, log entry
194); resources are released. -/
def Dev.retireEffect (x : DescRef) (e : RetEntry) (status : Nat) (d : Dev) : Dev :=
  match d.namedFunc e.desc with
  | none => d.finish x 5 4
  | some f =>
    let d := (d.commitPoint x).dropFuncLinks f
    let d := d.modEntry x fun y => { y with record := { y.record with status } }
    let d := d.modFunc f.id fun f => { f with phase := .retiring }
    let d := d.unmeasure 5 f.id.toNat
    d.each f.rooms fun d r => d.modRoom r fun rm => { rm with func := 0xFFFF, power := 1, thresh := true, phase := .idle }

/-- RETIRE_CLEAR_DONE (R325): every room of the function is IDLE, and the retirement completes with the status its boundary gave it. -/
def Dev.retireClearDone (fid : FuncId) (d : Dev) : Dev :=
  match d.funcs.find? (fun f => f.id == fid && f.phase == .retiring && !f.places.isEmpty) with
  | none => d
  | some f =>
    let d := d.clearRooms f.rooms
    let d := d.modFunc fid fun f => { f with places := [] }
    let mine := d.rings.pairs.flatMap fun (k, r) =>
      (r.window.filter fun e => e.accept && e.phase == .committed && descOpcode e.desc == 0x11 && dfld e.desc 0x18 2 == fid.toNat).map fun e =>
        (({ ring := BitVec.ofNat 9 k, slot := BitVec.ofNat 12 e.slot } : DescRef), e)
    d.each mine fun d (x, e) => d.finish x e.record.status 0 0 0 (some e.beat)
def execRetireClearDone (f : FuncId) (s : State) : Host.Outcome State Fault Refusal := run true (Dev.retireClearDone f) s

-- PARAM_AT

/-- The operands of a PARAM_AT name words of a virtual room that the function has (R347). -/
def paramOk (f : Func) (w : BitVec 512) : Bool := dfld w 0x1A 2 == 0xFFFF || decide (dfld w 0x1A 2 < f.obj.v)

/-- PARAM_AT (R60): it waits for its boundary; a function or virtual room that does not exist is an operand fault (log entry 39), which
behind an earlier change of the function the boundary alone judges (R21). -/
def Dev.paramAt (x : DescRef) (d : Dev) : Dev :=
  d.runOp x 0x13 true fun d e => match d.namedFunc e.desc with
    | some f => if d.waitsFor e || paramOk f e.desc then d else d.finish x 5 4
    | none => if d.waitsFor e then d else d.finish x 5 4
def execParamAt (x : DescRef) (s : State) : Host.Outcome State Fault Refusal := run true (Dev.paramAt x) s

/-- PARAM_AT at its boundary (R60, R327, R337, R347): the words of every replica, set and migration target, and their golden copies. -/
def Dev.paramEffect (x : DescRef) (e : RetEntry) (status : Nat) (d : Dev) : Dev :=
  match d.namedFunc e.desc with
  | none => d.finish x 5 4
  | some f =>
    if !paramOk f e.desc then d.finish x 5 4
    else
      let v := dfld e.desc 0x1A 2
      let first := dfld e.desc 0x1C 1
      let ws := (nums 8 (e.args.getD [])).map (BitVec.ofNat 64)
      let mine (u : Nat) : Bool := v == 0xFFFF || v == u
      let d := d.commitPoint x
      let d := d.each (f.allPlaces.filter fun p => mine p.vroom) fun d p =>
        d.modRoom p.room fun rm => { rm with consts := ws.zipIdx.foldl (fun t (w, i) => Tbl.set 0 t (first + i) w) rm.consts }
      let gold (rm : RoomImg) : RoomImg := { rm with consts := rm.consts.take first ++ ws ++ rm.consts.drop (first + ws.length) }
      let d := d.modFunc f.id fun f =>
        { f with obj := { f.obj with rooms := f.obj.rooms.zipIdx.map fun (rm, u) => if mine u then gold rm else rm } }
      d.finish x status 0

-- migration

/-- The sets and replicas that a FUNC_MIGRATE moves. -/
def migParts (f : Func) (set : Bool) (rep : Nat) : List (Bool × Nat) :=
  if rep = 0xFF then (List.range f.r).map (set, ·) else [(set, rep)]

/-- The groups of the rooms being migrated on each wing (R331). -/
def sourceGroups (f : Func) (sources : List Place) : List Nat :=
  (List.range 4).map fun w =>
    ((wingGroups f.obj).map fun g => (sources.filter fun p => p.vroom == g.headD 0 && wingOf p.room == w).length).sum

/-- FUNC_MIGRATE (R331): targets are bound and written, or the binding is refused without a trace. -/
def Dev.funcMigrate (x : DescRef) (d : Dev) : Dev :=
  d.runOp x 0x12 true fun d e =>
    let w := e.desc
    let set := dfld w 0x1A 1 == 1
    let rep := dfld w 0x1B 1
    match d.namedFunc w with
    | none => d.finish x 5 4
    | some f =>
      if (set ∧ !f.obj.dual) ∨ (rep ≠ 0xFF ∧ f.r ≤ rep) then d.finish x 5 4
      else
        let parts := migParts f set rep
        let sources := f.places.filter fun p => decide ((p.set, p.rep) ∈ parts)
        let pool := d.poolRooms (if bitOf (dfld w 0x1D 1) 0 then anyPool else leNat (e.args.getD []))
        if pool.length < sources.length then d.refuse x { status := 0x11, detail := 3 }
        else match d.bindUp f.obj parts (sourceGroups f sources) 256 pool with
          | .error n => d.refuse x n
          | .ok b =>
            match d.reserveXch f.id f.obj b.places true parts with
            | .error (v, j) => d.refuse x (linkNak v j)
            | .ok rs =>
              let m : Migration := { desc := x, set, rep := if rep = 0xFF then none else some rep, k := dfld w 0x1C 1, gen := f.gen + 1,
                                     places := b.places, sources }
              let d := d.modFunc f.id fun f => { f with migration := some m }
              let d := d.modNet fun n => { n with reservations := n.reservations ++ rs }
              let d := d.modLoader fun l => { l with switched := l.switched.erase f.id }
              d.each b.places fun d p => d.modRoom p.room fun rm => { rm with thresh := true, power := if rm.power = 0 then 1 else rm.power }
def execFuncMigrate (x : DescRef) (s : State) : Host.Outcome State Fault Refusal := run true (Dev.funcMigrate x) s

/-- The migration whose target a room is. -/
def Dev.migrationTo (d : Dev) (r : RoomId) : Option (Func × Migration) :=
  d.funcs.findSome? fun f => match f.migration with
    | some m => if m.places.any (·.room == r) then some (f, m) else none
    | none => none

/-- Change the migration of a function. -/
def Dev.modMigration (d : Dev) (id : FuncId) (g : Migration → Migration) : Dev :=
  d.modFunc id fun f => { f with migration := f.migration.map g }

-- seeding (R333)

/-- A target takes the results of one beat that its source has sent it as a room takes its own (R333): working copies, write queue, positions reached and
words of HOLD slots, in their order. -/
def Room.takeItem (t : Room) (x : SeedItem) : Room :=
  match x with
  | .state b a w => t.setBp b { t.bp b with working := Tbl.set none (t.bp b).working a (some w) }
  | .entry e => { t with wq := t.wq ++ [e] }
  | .mark rpos wpos holds =>
    { t with rpos, wpos, urpos := rpos, uwpos := wpos, win := holds.foldl (fun w (k, x) => Tbl.modify {} w k fun s => { s with prev := x }) t.win }

/-- The entries of a beat that count (R95, R333): those of the attempt that its last end mark closes. -/
def beatItems (es : List SeedEntry) (b : Beat) : List SeedItem :=
  let mine := es.filter (·.beat == b)
  match (mine.filter (·.isMark)).getLast? with
  | none => []
  | some m => (mine.filter fun e => e.att == m.att && (!e.isMark || e == m)).map (·.item)

/-- A target applies the function's decision of a beat (R81, R333): the results it holds are committed or dropped. -/
def Room.settleBeat (t : Room) (es : List SeedEntry) (x : Decision) : Room :=
  let was := t.lastCommit
  let t := if x.commit then let t := (beatItems es x.beat).foldl Room.takeItem t; t.applyCommit x.beat t.urpos t.uwpos else t.applyRollback
  { t with rpos := t.crpos, wpos := t.cwpos, lastCommit := was }

/-- The oldest beat that a target has whole and whose decision is known. -/
def Migration.ripe (m : Migration) (r : Nat) (limit : Beat) : Option Decision :=
  m.fates.find? fun x => decide (x.beat < limit) && ((Tbl.get [] m.got r).any fun e => e.beat == x.beat && e.isMark)
    && !((Tbl.get [] m.log r).any fun e => e.beat == x.beat)

/-- A target applies what it can, of beats before `limit`; the first number bounds the beats. -/
def Dev.settleSeed (id : FuncId) (r : RoomId) (limit : Beat) : Nat → Dev → Dev
  | 0, d => d
  | n + 1, d =>
    match (d.func? id).bind (·.migration) with
    | none => d
    | some m => match m.ripe r.toNat limit with
      | none => d
      | some x =>
        let es := Tbl.get [] m.got r.toNat
        let d := d.modRoom r fun t => t.settleBeat es x
        let d := d.modMigration id fun m => { m with got := Tbl.set [] m.got r.toNat (es.filter fun e => e.beat != x.beat) }
        Dev.settleSeed id r limit n d

/-- The source room of a migration's target. -/
def Migration.sourceOf (m : Migration) (r : RoomId) : Option Place :=
  (m.places.find? (·.room == r)).bind fun p => m.sources.find? fun y => y.set == p.set && y.rep == p.rep && y.vroom == p.vroom

/-- The snapshot of a source room's committed state (R31, R333): state and bank words, pointer positions, HOLD values; scratch words stay zero. -/
def snapshotRoom (t s : Room) : Room :=
  let bps := ((List.range 128).map fun b => (b, { ({} : Bp) with imem := (t.bp b).imem, committed := (s.bp b).committed })).filter fun e => decide (e.2 ≠ {})
  let win := ((List.range 1024).map fun k => (k, { (t.slot k) with hold := (s.slot k).hold })).filter fun e => decide (e.2 ≠ {})
  { t with bps, win, bank := s.bank, crpos := s.crpos, cwpos := s.cwpos, rpos := s.crpos, wpos := s.cwpos }

/-- What a migration sends crosses the network from the source room to the target on the REQ class (R333); operation 2 and the places of its fields are
the model's (DESIGN CHOICE, log entry 92). -/
def Dev.carrySeed (d : Dev) (src dst : RoomId) (addr data : Nat) : Dev :=
  d.putNet (d.net.carry (.room src) (.room dst) (reqFlits .req (.room src) (.room dst) 2 addr data))
def SeedEntry.words (e : SeedEntry) : Nat × Nat := match e.item with
  | .state b a w => (b * 1024 + a, w.word.toNat)
  | .entry x => (2 ^ 32 + x.bank.toNat * 2048 + x.addr.toNat, x.data.toNat + x.mask.toNat * 2 ^ 64)
  | .mark _ _ _ => (2 ^ 33, e.beat.toNat)

/-- The oldest entry of a target's log arrives. -/
def Dev.seedArrives (d : Dev) (f : Func) (m : Migration) (r src : RoomId) (e : SeedEntry) : Dev :=
  let d := d.carrySeed src r e.words.1 e.words.2
  d.modMigration f.id fun _ => { m with log := Tbl.set [] m.log r.toNat ((Tbl.get [] m.log r.toNat).drop 1), got := Tbl.modify [] m.got r.toNat (· ++ [e]) }

/-- SEED_LOG (R333): a target receives the snapshot of its source's committed state first, once that room has the decision of the beat before s, then the
oldest write of its log. -/
def Dev.seedLog (r : RoomId) (d : Dev) : Dev :=
  match d.migrationTo r with
  | none => d
  | some (f, m) =>
    match m.sourceOf r with
    | none => d
    | some p =>
      if m.phase ≠ .seed then d
      else if r ∉ m.seeded then
        let s := d.room p.room
        if s.undecided.any (fun b => decide (b < m.since)) then d
        else (d.modRoom r fun t => snapshotRoom t s).modMigration f.id fun m => { m with seeded := r :: m.seeded }
      else match Tbl.get [] m.log r.toNat with
        | e :: _ => if e.isMark then d else d.seedArrives f m r p.room e
        | [] => d
def execSeedLog (r : RoomId) (s : State) : Host.Outcome State Fault Refusal := run true (Dev.seedLog r) s

/-- END_MARK (R332, R333): the source room's end mark of a beat reaches its target, in its order behind the writes; the target applies the decisions that
it has. -/
def Dev.endMark (r : RoomId) (d : Dev) : Dev :=
  match d.migrationTo r with
  | none => d
  | some (f, m) =>
    match m.sourceOf r with
    | none => d
    | some p =>
      if m.phase ≠ .seed ∨ r ∉ m.seeded then d
      else match Tbl.get [] m.log r.toNat with
        | e :: _ =>
          if !e.isMark then d
          else
            let d := (d.seedArrives f m r p.room e).modMigration f.id fun m => { m with marks := Tbl.set none m.marks r.toNat (some e.beat) }
            Dev.settleSeed f.id r d.time.n m.fates.length d
        | [] => d
def execEndMark (r : RoomId) (s : State) : Host.Outcome State Fault Refusal := run true (Dev.endMark r) s

/-- A target at boundary c (R334): it holds as its own what its source has sent it of the beat whose decision that room still awaits, and stands where the
source stands. -/
def seededRoom (es : List SeedEntry) (t s : Room) : Room :=
  let t := match s.undecided with | some b => (beatItems es b).foldl Room.takeItem t | none => t
  { t with undecided := s.undecided, decisions := s.decisions, everCommitted := s.everCommitted, phase := s.phase, ahead := s.ahead, d := 0, att := false,
           pass := 0, level := 0, idx := 0, done := 0 }

/-- COMPARE begins at boundary c (R334): the targets apply the decisions that their sources have applied, run the schedule and accept words. -/
def Dev.beginCompare (d : Dev) (f : Func) (m : Migration) (c : Beat) : Dev :=
  let d := d.each m.places fun d p =>
    match m.sourceOf p.room with
    | none => d
    | some q =>
      let s := d.room q.room
      let d := Dev.settleSeed f.id p.room (s.undecided.getD c) (m.fates.length + 1) d
      let es := match (d.func? f.id).bind (·.migration) with | some m => Tbl.get [] m.got p.room.toNat | none => []
      (d.modRoom p.room fun t => { seededRoom es t s with func := f.id, vroom := BitVec.ofNat 8 p.vroom, gen := m.gen, power := 2, thresh := false }).passStart p.room
  d.modMigration f.id fun m => { m with phase := .compare, since := c, votes := [] }

/-- The targets are released (R336, R337): the source runs on, and the descriptor, where it still waits, completes MIG_MISMATCH. -/
def Dev.dropMigration (d : Dev) (f : Func) (m : Migration) (detail : Nat) : Dev :=
  let d := d.clearRooms (m.places.map (·.room))
  let d := d.modNet fun n => { n with reservations := n.reservations.filter fun x => !(x.func == f.id && x.migrating) }
  (d.modFunc f.id fun f => { f with migration := none }).finish m.desc 0x30 detail

/-- The switch at boundary w (R104, R335): the targets run the function, the sources are cleared. -/
def Dev.switchMigration (d : Dev) (f : Func) (m : Migration) (w : Beat) : Dev :=
  let d := d.commitPoint m.desc
  let moved (x : Reservation) : Bool := x.func == f.id && !x.migrating && m.places.any fun p => p.set == x.set && p.rep == x.rep
  let d := d.modNet fun n => { n with reservations := (n.reservations.filter fun x => !moved x).map fun x =>
    if x.func = f.id then { x with migrating := false } else x }
  let d := d.clearRooms (m.sources.map (·.room))
  let places := f.places.filter (fun p => !(decide (p ∈ m.sources))) ++ m.places
  let d := d.modFunc f.id fun f => { f with places, gen := m.gen, migration := none, everCommitted := false }
  let d := d.each places fun d p => d.modRoom p.room fun rm => { rm with everCommitted := false, firstFrom := w }
  let d := d.modLoader fun l => { l with switched := f.id :: l.switched }
  d.finish m.desc 0 0 (m.gen.toNat * 65536) 0 (some w)

/-- Every target voted OK for the beat that ends and every comparison agreed (R334). -/
def Dev.migMatch (d : Dev) (f : Func) (m : Migration) : Bool :=
  (d.migFault f m).isNone && m.places.all fun p =>
    m.votes.any (fun v => v.room == p.room && v.status == 0) && (match m.sources.find? (fun y => y.set == p.set && y.rep == p.rep && y.vroom == p.vroom) with
      | some q => (d.room q.room).isolated || f.votes.any (·.room == q.room)
      | none => false)

/-- The FUNC_MIGRATE's target lets the switch come at a boundary at device time `t` that starts beat `b` (R335, R357). -/
def Dev.migTargetOk (d : Dev) (x : DescRef) (b : Beat) (t : Instant) : Bool :=
  match d.entry? x with
  | none => true
  | some e =>
    let tgt := descTarget e.desc
    (match e.ready with | some r => decide (r + 4000 * ns ≤ t) | none => false)
      && (if !descTimed e.desc then (match e.apply with | some a => decide (a ≤ b) | none => true)
          else if descTbase e.desc then decide (tgt * ns ≤ t) else decide (tgt ≤ b.toNat))

/-- LOADER_MIG_CFG's limits as they act (R338). -/
def Loader.lagLimit (l : Loader) : Nat := max 1 l.maxlag.toNat
def Loader.cmpLimit (l : Loader) : Nat := max 2 l.maxcmp.toNat

/-- A migration at the boundary that starts beat b (R332 to R336). -/
def Dev.stepMigration (d : Dev) (f : Func) (m : Migration) (b : Beat) (t : Instant) : Dev :=
  let fail (k : Nat) : Dev := d.modMigration f.id fun m => { m with failed := some k }
  let shift (s : Slot) : Slot := { s with cur := s.nxt, good := s.nxtGood, nxt := none, nxtGood := none }
  let d := if m.phase = .compare then d
    else d.each m.places fun d p => d.modRoom p.room fun rm => { rm with win := Tbl.mapAll {} rm.win shift }
  match m.failed with
  | some k => d.dropMigration f m k
  | none =>
    let d := d.modMigration f.id fun m => { m with fates := if m.phase = .seed then m.fates ++ f.decided.toList else [] }
    match m.phase with
    | .load =>
      if m.places.all (fun p => decide (p.room ∈ m.written)) then d.modMigration f.id fun m => { m with phase := .seed, since := b } else d
    | .seed =>
      if m.places.all (fun p => decide (p.room ∈ m.seeded) && (Tbl.get [] m.log p.room.toNat).isEmpty && Tbl.get none m.marks p.room.toNat == some (b - 1)) then
        d.beginCompare f { m with fates := m.fates ++ f.decided.toList } b
      else if d.loader.lagLimit ≤ (b - m.since).toNat then fail 4
      else d.modMigration f.id Migration.checkLog
    | .compare =>
      let n := if d.migMatch f m then m.matched + 1 else 0
      if m.k ≤ n ∧ d.migTargetOk m.desc b t then d.switchMigration f m b
      else if n < m.k ∧ d.loader.cmpLimit ≤ (b - m.since).toNat then fail 5
      else d.modMigration f.id fun m => { m with matched := n, votes := [] }

/-- All migrations at a boundary. -/
def Dev.migrationsAtBoundary (d : Dev) (b : Beat) (t : Instant) : Dev :=
  d.each d.funcs fun d f => match f.migration with | some m => d.stepMigration f m b t | none => d

end Sys2Proof.Machine
end

