-- ==== Sys2Proof/Machine/Scrub.lean ====
section
/-! DEFINITION. Applying images and installing firmware, scrubbing, and the LOADER registers (11_images_and_reconfiguration.md R320 to R330,
R338; 13_control_cores_and_observation.md R371, R372). -/

namespace Sys2Proof.Machine
open Sys2Proof

def Dev.modCores (d : Dev) (f : Cores → Cores) : Dev := { d with cores := f d.cores }

-- IMAGE_APPLY

/-- The slot of an IMAGE_APPLY carries firmware. -/
def Dev.appliesFw (d : Dev) (w : BitVec 512) : Bool := (d.stg (dfld w 0x18 1)).kind == 3

/-- Check 5 of R317 on the header in a slot, which the application repeats (R320, R432). -/
def Dev.rolledBack (d : Dev) (h : Bytes) : Bool := decide (imgSecver h < d.arbCount (imgKeyid h))

/-- The standby pair holds the running firmware and waits (R371, R372). -/
def Cores.reloadStandby (c : Cores) : Cores :=
  { c with sb := .ready, handover := false, pendingFw := none, sbSecver := c.secver, sbVersion := c.version, sbHash := c.hash }

/-- IMAGE_APPLY (R320, R372): check 5 is repeated; a firmware image is loaded into the standby pair. The rest follows at a boundary. -/
def Dev.imageApply (x : DescRef) (d : Dev) : Dev :=
  d.runOp x 0x31 false fun d e =>
    let k := dfld e.desc 0x18 1
    let s := d.stg k
    let h := s.head.take 512
    if d.rolledBack h then d.finish x 0x24 1 headFrame k
    else
      let d := d.setReady x
      if !d.appliesFw e.desc then d
      else
        let ho : Handover := { desc := x, slot := BitVec.ofNat 3 k, secver := BitVec.ofNat 8 (imgSecver h),
                               version := Config.firmwareVersion s.body, header := sha3 h }
        d.modCores fun c => { c with sb := .loading, handover := false, pendingFw := some ho, sbSecver := ho.secver,
                                     sbVersion := ho.version, sbHash := ho.header }
def execImageApply (x : DescRef) (s : State) : Host.Outcome State Fault Refusal := run true (Dev.imageApply x) s

/-- FIRMWARE_READY (R372): the standby pair reports ready; the handover waits for its boundary. -/
def Dev.firmwareReady (d : Dev) : Dev :=
  if d.cores.sb = .loading ∧ d.cores.pendingFw.isSome then d.modCores fun c => { c with sb := .ready, handover := true } else d
def execFirmwareReady (s : State) : Host.Outcome State Fault Refusal := run true Dev.firmwareReady s

/-- FW_START_TIMEOUT (R372): READY did not arrive within 1 s; the standby pair is reloaded with the running firmware. -/
def Dev.fwStartTimeout (d : Dev) : Dev :=
  match d.cores.pendingFw with
  | none => d
  | some ho =>
    if d.cores.handover then d
    else
      let since := (d.entry? ho.desc).bind (·.ready)
      let d := match since with | some t => d.reach (t + 10 ^ 9 * ns) | none => d
      (d.modCores Cores.reloadStandby).finish ho.desc 0x22 7 headFrame ho.slot.toNat
def execFwStartTimeout (s : State) : Host.Outcome State Fault Refusal := run true Dev.fwStartTimeout s

/-- Cores of the active pair are A's or B's (R371). -/
def Cores.activePair (c : Cores) : List Nat := if c.activeB then [2, 3] else [0, 1]

/-- The handover at its boundary (R372 steps 3 to 5, R429): the new pair is active, and the old one holds the new firmware. -/
def Dev.handover (x : DescRef) (ho : Handover) (status : Nat) (d : Dev) : Dev :=
  let d := d.commitPoint x
  let d := d.modCores fun c =>
    Cores.reloadStandby { c with activeB := !c.activeB, secver := ho.secver, version := ho.version, hash := ho.header }
  let m : Measure := { kind := 2, index := 0, secver := ho.secver.toNat, aux := ho.version.setWidth 64, hash := ho.header }
  ((d.measure m).measure { m with kind := 3 }).finish x status 0

/-- IMAGE_APPLY at its boundary (R320, R321, R372): check 5 is repeated, then the application's commit point. -/
def Dev.imageEffect (x : DescRef) (e : RetEntry) (status : Nat) (d : Dev) : Dev :=
  let k := dfld e.desc 0x18 1
  if d.rolledBack ((d.stg k).head.take 512) then
    (if d.appliesFw e.desc then d.modCores Cores.reloadStandby else d).finish x 0x24 1 headFrame k
  else if !d.appliesFw e.desc then d.applyFabric x (BitVec.ofNat 3 k) status
  else match d.cores.pendingFw with
    | some ho => d.handover x ho status
    | none => d

-- scrubbing

/-- The event of a region (R328): a room's own, EV(512 + b) of a block, EV(448 + k) of a ring; DETAIL says that a word was rewritten or
that its golden copy cannot be read (R422, log entry 40). -/
def Dev.raiseUnit (d : Dev) (u : ScrubUnit) (bits : Nat) : Dev :=
  match u with
  | .room r => d.raiseRoom r bits
  | .block b => d.raise (512 + b.toNat) bits
  | .ring k => d.raise (448 + k.toNat) bits

/-- The scrubber skips regions under threshold hold; it resumes on a block at the first beat after its application, whether or not it is
released then (R22, R321). -/
def Dev.scrubSkips (d : Dev) (u : ScrubUnit) : Bool :=
  match u with
  | .room r => (d.room r).thresh || d.roomDisabled r
  | .block b => (d.fabric.block b.toNat).noScrub || (d.fabric.block b.toNat).phase == .empty
  | .ring _ => false

/-- Where a room's send entries stand among its configuration words, behind 65,536 instruction words; constants and header follow (log entry
123). -/
abbrev sendWord0 : Nat := 65536
/-- CELLS words of a block come first among its configuration words: 14 for each of 4,096 cells (R311; log entry 123). -/
abbrev cellWords : Nat := 57344

/-- The words of a block behind its CELLS words: IOCELL, HUBPORT and PORTIN words, and for block 8k the word of PLL k (log entry 123). -/
abbrev ioWord0 : Nat := 57344
abbrev hubWord : Nat := 57350
abbrev portWord0 : Nat := 57351
abbrev pllWord : Nat := 58946

/-- Word `w` of a ring names entry w mod 65,536 of reservation w div 65,536 (log entry 123): a reserved entry of that ring. -/
def Dev.ringEntry (d : Dev) (k w : Nat) : Option LinkUse :=
  ((d.net.reservations[w / 65536]?).bind fun x => x.uses[w % 65536]?).filter fun u => u.link / 64 == k

/-- A word is of the essential set of its region (R328): of a room, the instructions of its L indices, valid send entries, constants and header; of
a block, what its ESSMAP marks and its other words, where its image has an ESSMAP (R329); of a ring, its reserved entries. -/
def Dev.essential (d : Dev) (u : ScrubUnit) (word : Nat) : Bool :=
  match u with
  | .room r =>
    let rm := d.room r
    if word < sendWord0 then decide (word % 512 < rm.len)
    else if word < sendWord0 + 512 then (Tbl.get 0 rm.sends (word - sendWord0)).getLsbD 0
    else true
  | .block b =>
    let c := (d.fabric.block b.toNat).config
    c.mapped && (decide (cellWords ≤ word) || bitOf (Tbl.get 0 c.essmap (word / 8)).toNat (word % 8))
  | .ring k => (d.ringEntry k.toNat word).isSome

/-- The golden copy of a room's configuration (R323, R327): its virtual room's image as the loader writes it. -/
def Dev.goldenRoom (d : Dev) (r : RoomId) : Option Room :=
  d.funcs.findSome? fun f =>
    let here (ps : List Place) : Option Room := (ps.find? (·.room == r)).map fun p => writtenRoom (d.room r) f.obj ps p (d.room r).gen
    here f.places <|> (f.migration.bind fun m => here m.places)

/-- A configuration word of a room takes its golden copy (R327): an instruction, which is whole again then (R62), a send entry, a constant, or a word of
the header (log entry 123). -/
def Room.restoreWord (rm g : Room) (w : Nat) : Room :=
  if w < sendWord0 then
    let b := w / 512
    { rm.setBp b { rm.bp b with imem := Tbl.set nopWord (rm.bp b).imem (w % 512) (Tbl.get nopWord (g.bp b).imem (w % 512)) } with ueIm := rm.ueIm.erase w }
  else if w < sendWord0 + 512 then { rm with sends := Tbl.set 0 rm.sends (w - sendWord0) (Tbl.get 0 g.sends (w - sendWord0)) }
  else if w < sendWord0 + 768 then { rm with consts := Tbl.set 0 rm.consts (w - sendWord0 - 512) (Tbl.get 0 g.consts (w - sendWord0 - 512)) }
  else { rm with len := g.len, passes := g.passes, levels := g.levels, primary := g.primary, bankSetup := g.bankSetup, sliceDesc := g.sliceDesc,
                 slotEntry := g.slotEntry, envelope := g.envelope, due := g.due }

/-- A configuration word of a block takes its golden copy (R289, R327). -/
def FbBlock.restoreWord (x : FbBlock) (w : Nat) : FbBlock :=
  let c := x.config
  let g := x.golden
  if w < ioWord0 then { x with config := { c with cells := Tbl.set 0 c.cells w (Tbl.get 0 g.cells w) } }
  else if w < hubWord then { x with config := { c with iocell := Tbl.set 0 c.iocell (w - ioWord0) (Tbl.get 0 g.iocell (w - ioWord0)) } }
  else if w = hubWord then { x with config := { c with hubport := g.hubport } }
  else { x with config := { c with portin := Tbl.set 0 c.portin (w - portWord0) (Tbl.get 0 g.portin (w - portWord0)) } }

/-- A configuration word takes its golden copy (R327): of a room, of a block or its bank's PLL, of a ring's reservation table. -/
def Dev.mendWord (d : Dev) (u : ScrubUnit) (word : Nat) : Dev :=
  match u with
  | .room r => match d.goldenRoom r with
    | some g => d.modRoom r fun rm => rm.restoreWord g word
    | none => d.modRoom r fun rm => { rm with ueIm := rm.ueIm.erase word }
  | .block b =>
    let k := b.toNat / 8
    if word = pllWord then
      (if b.toNat % 8 = 0 then d.modFabric fun f => { f with pll := Tbl.set 0 f.pll k (Tbl.get 0 f.pllGolden k) } else d)
    else d.modFabric fun f => f.setBlock b.toNat ((f.block b.toNat).restoreWord word)
  | .ring k =>
    if (d.ringEntry k.toNat word).isNone then d
    else
      let back (x : Reservation) : Reservation :=
        { x with uses := x.uses.zipIdx.map fun (y, j) => if j = word % 65536 then x.golden.getD j y else y }
      d.putNet { d.net with reservations := d.net.reservations.zipIdx.map fun (x, i) => if i = word / 65536 then back x else x }

/-- A word is rewritten from its golden copy, or left as it is where that cannot be read (R289, R328, R330). -/
def Dev.rewrite (d : Dev) (u : ScrubUnit) (x : ScrubFind) : Dev :=
  if !x.goldenOk then (d.countLoader 2).raiseUnit u (2 ^ 10)
  else
    let d := ((d.mendWord u x.word).countLoader 0).raiseUnit u (2 ^ 9)
    if x.select then d.countFabric 0 else d

/-- What the code of a word sees (R328): SECDED of a room's memories any error, the parity bit of fabric and ring words an odd number. -/
def codeFails (u : ScrubUnit) (bits : Nat) : Bool :=
  match u with
  | .room _ => decide (0 < bits)
  | _ => decide (bits % 2 = 1)

/-- A cycle that began at an instant, or begins now, goes on or is complete (R338): since when it runs, and where it is complete how long it took, in
units of `unit` ns. -/
def cycleTime (now : Instant) (from_ : Option Instant) (last : Bool) (unit : Nat) : Option Instant × Option (BitVec 16) :=
  let t := from_.getD now
  if last then (none, some (BitVec.ofNat 16 (min 65535 ((now - t) / (unit * ns))))) else (some t, none)

/-- ESSENTIAL_SCRUB (R328, R338): a word of the essential set is read and rewritten where its check fails; it reads no other. -/
def Dev.essentialScrub (u : ScrubUnit) (x : ScrubFind) (d : Dev) : Dev :=
  if !d.loader.scrubEn ∨ !d.hubUp ∨ d.scrubSkips u ∨ !d.essential u x.word then d
  else
    let (since, took) := cycleTime d.now d.loader.essFrom x.last 10000
    let d := d.modLoader fun l => { l with essFrom := since, essLast := took.getD l.essLast }
    if codeFails u x.bits then d.rewrite u x else d
def execEssentialScrub (u : ScrubUnit) (x : ScrubFind) (s : State) : Host.Outcome State Fault Refusal := run true (Dev.essentialScrub u x) s

/-- The words of a read-back frame that are wrong (R329): the word named and the others of its 64. -/
def frameWrong (x : ScrubFind) : List ScrubFind :=
  ({ x with also := [] } :: (x.also.filter fun y => y.1 / 64 == x.word / 64 && y.1 != x.word).map fun (word, bits, select) =>
    { x with word, bits, select, also := [] }).filter fun y => decide (0 < y.bits)

/-- BACKGROUND_READBACK (R329, R338): a frame with a single wrong bit is corrected in place, the wrong words of one with more are rewritten from the
golden copy; a corrected select counts as R289 says. -/
def Dev.backgroundReadback (u : ScrubUnit) (x : ScrubFind) (d : Dev) : Dev :=
  if !d.loader.scrubEn ∨ !d.hubUp ∨ d.scrubSkips u then d
  else
    let (since, took) := cycleTime d.now d.loader.bgFrom x.last (10 ^ 6)
    let d := d.modLoader fun l => { l with bgFrom := since, bgLast := took.getD l.bgLast }
    match frameWrong x with
    | [] => d
    | [y] =>
      if y.bits = 1 then
        let d := (d.mendWord u y.word).countLoader 1
        if y.select then (d.countFabric 0).raiseUnit u 0 else d
      else d.rewrite u y
    | ys => d.each ys fun d y => d.rewrite u y
def execBackgroundReadback (u : ScrubUnit) (x : ScrubFind) (s : State) : Host.Outcome State Fault Refusal :=
  run true (Dev.backgroundReadback u x) s

/-- SCRUB_REWRITE (R62, R328, R330): an instruction word that a fetch found uncorrectable is rewritten ahead of the periodic read. -/
def Dev.scrubRewrite (r : RoomId) (word : Nat) (goldenOk : Bool) (d : Dev) : Dev :=
  if word ∈ (d.room r).ueIm then d.rewrite (.room r) { bits := 2, goldenOk, word } else d
def execScrubRewrite (r : RoomId) (b : BitVec 7) (i : BitVec 9) (goldenOk : Bool) (s : State) : Host.Outcome State Fault Refusal :=
  run true (Dev.scrubRewrite r (b.toNat * 512 + i.toNat) goldenOk) s

-- registers (R338)

def stgCode : StgPhase → Nat
  | .empty => 0 | .receiving => 1 | .verified => 2

/-- Rooms or fabric blocks are being written. -/
def Dev.loaderWriting (d : Dev) : Bool :=
  d.fabric.applying.any (!·.left.isEmpty)
    || d.funcs.any fun f => (f.phase == .reserved && decide (f.written.length < f.places.length))
      || (match f.migration with | some m => m.phase == .load | none => false)

/-- LOADER_MIG_STATE of the selected function. -/
def Dev.migState (d : Dev) : Nat :=
  match (d.func? d.loader.migSel).bind (·.migration) with
  | some m => (match m.phase with | .load => 1 | .seed => 2 | .compare => 3) * 2 ^ 24 + m.matched % 256 * 2 ^ 16 + min 65535 (m.backlog / 16)
  | none => if d.loader.migSel ∈ d.loader.switched then 4 * 2 ^ 24 else 0

def Dev.readLoaderReg (d : Dev) (off : Nat) : Option Word :=
  let l := d.loader
  let w (n : Nat) : Option Word := some (BitVec.ofNat 32 n)
  if off % 4 ≠ 0 then none
  else if off = 0 then w (bit l.stgCellar 31 + l.stgRegion.toNat * 2 ^ 16 + l.stgQueue.toNat)
  else if off = 4 then w (bit (d.funcs.any (·.migration.isSome)) 2 + bit d.loaderWriting 1 + bit (l.scrubEn && d.hubUp) 0)
  else if off = 8 then w (bit l.scrubEn 31 + l.essper.toNat * 256 + l.bgper.toNat)
  else if off = 0xC then w (l.bgLast.toNat * 65536 + l.essLast.toNat)
  else if 0x10 ≤ off ∧ off < 0x20 then some (Tbl.get {} l.cnt ((off - 0x10) / 4)).toWord
  else if off = 0x20 then w 0
  else if 0x100 ≤ off ∧ off < 0x180 ∧ off % 16 < 12 then
    let k := (off - 0x100) / 16
    let s := d.stg k
    if off % 16 = 0 then
      w (stgCode s.phase * 2 ^ 30 + s.kind.toNat * 2 ^ 27 + bit (d.slotInUse k) 26 + s.status * 2 ^ 16 + s.detail * 256)
    else if off % 16 = 4 then w (if s.status ≠ 0 then s.failFrame else s.frames)
    else w (if s.checked = 0 then 0 else imgFcount s.head)
  else if off = 0x200 then w (l.maxlag.toNat * 2 ^ 24 + l.maxcmp.toNat)
  else if off = 0x204 then w l.migSel.toNat
  else if off = 0x208 then w d.migState
  else none

def Dev.writeLoaderReg (d : Dev) (off : Nat) (v : Word) : Dev :=
  let w := v.toNat
  if off = 0 then
    if d.loader.slots.all fun (_, s) => s.phase == .empty then
      d.modLoader fun l => { l with stgCellar := bitOf w 31, stgRegion := BitVec.ofNat 8 (fld w 16 8), stgQueue := BitVec.ofNat 9 w }
    else d
  else if off = 8 then
    d.modLoader fun l => { l with scrubEn := bitOf w 31, essFrom := if bitOf w 31 then l.essFrom else none, bgFrom := if bitOf w 31 then l.bgFrom else none,
                                  essper := BitVec.ofNat 8 (fld w 8 8), bgper := BitVec.ofNat 8 w }
  else if off = 0x20 then d.modLoader fun l => { l with cnt := clearBits l.cnt w 4 }
  else if off = 0x200 then d.modLoader fun l => { l with maxlag := BitVec.ofNat 8 (fld w 24 8), maxcmp := BitVec.ofNat 8 w }
  else if off = 0x204 then d.modLoader fun l => { l with migSel := BitVec.ofNat 16 w }
  else d

end Sys2Proof.Machine
end

