-- ==== Sys2Proof/Machine/Abort.lean ====
section
/-! DEFINITION. ABORT (12_host_interface.md R359): the match against the target's retention entry, and what each aborted operation undoes. -/

namespace Sys2Proof.Machine
open Sys2Proof

/-- What an aborted operation leaves behind is undone (R359): slips and routes that wait, a staging slot, a key slot's state, a migration's
targets, a reserved binding, a standby pair that was being loaded. -/
def Dev.undoOp (x : DescRef) (e : RetEntry) (d : Dev) : Dev :=
  match descOpcode e.desc with
  | 0x10 =>
    match d.funcs.find? (fun f => f.id == BitVec.ofNat 16 (d.admitId e.desc) && f.phase == .reserved) with
    | some f => if e.started then d.undoAdmission f else d
    | none => d
  | 0x12 => d.putFuncs (d.funcs.map fun f => { f with migration := f.migration.map fun m => if m.desc = x then { m with failed := some 0 } else m })
  | 0x30 => d.setStg (dfld e.desc 0x18 1) {}
  | 0x31 => if (match d.cores.pendingFw with | some h => h.desc == x | none => false) then d.modCores Cores.reloadStandby else d
  | 0x42 =>
    match d.cellar.retires.find? (fun r => r.desc == x) with
    | some r => d.modCellar fun c => { c.setKey r.slot { c.key r.slot with phase := r.was } with retires := c.retires.erase r }
    | none => d
  | 0x43 =>
    (d.modCellar fun c => { c with sweeps := Tbl.mapAll {} c.sweeps fun s => if s.desc = some x then { s with phase := .idle, desc := none } else s }).autoSweeps
  | 0x61 => d.putTime { d.time with slips := d.time.slips.filter fun s => s.desc != x }
  | _ => d

/-- INFO1 of an aborted operation (R350): a copy's lines moved, a sweep's boundary. -/
def Dev.abortInfo (d : Dev) (x : DescRef) (e : RetEntry) : Nat :=
  if descOpcode e.desc ≠ 0x43 then 0
  else match d.cellar.sweeps.find? (fun (_, s) => s.desc == some x) with
    | some (_, s) => s.bound.toNat
    | none => d.sweepBound

/-- ABORT (R359): the target is aborted, or the ABORT has no effect and says why. -/
def Dev.abort (x : DescRef) (d : Dev) : Dev :=
  d.runOp x 0x7F false fun d e =>
    let k := BitVec.ofNat 9 (dfld e.desc 0x18 2)
    let seq := BitVec.ofNat 64 (dfld e.desc 0x20 8)
    let d := d.commitPoint x
    match (d.ring k).window.find? (fun t => t.accept && t.seq == seq) with
    | none => d.finish x 2 0 (if seq < (d.ring k).nextseq then 3 else 1)
    | some t =>
      let y : DescRef := { ring := k, slot := BitVec.ofNat 12 t.slot }
      if t.phase = .completed then d.finish x 2 0 3
      else if t.phase = .committed then d.finish x 2 0 0
      else if !descAbortable t.desc then d.finish x 2 0 2
      else ((d.undoOp y t).finish y 1 0 0 (d.abortInfo y t)).finish x 0 0
def execAbort (x : DescRef) (s : State) : Host.Outcome State Fault Refusal := run true (Dev.abort x) s

end Sys2Proof.Machine
end

