-- ==== Sys2Proof/Machine/Live.lean ====
section
/-! DEFINITION. The live status of an event source, where its chapter gives it one (14_fuse_box.md R421; log entry 43). -/

namespace Sys2Proof.Machine
open Sys2Proof

/-- A lane that is enabled, in service, and neither up nor asleep (R253, R417). -/
def Lane.fallen (x : Lane) : Bool := x.en && !x.isolated && x.phase != .up && x.phase != .sleep

/-- A ring has a link direction down (R149, HUB_RING_DOWN). -/
def Net.ringDown (n : Net) (k : Nat) : Bool := n.links.any fun (i, l) => i / 64 == k && l.down

/-- Live status of a source of the time unit (R248, TIME_STATE). -/
def Dev.timeLive (d : Dev) (ev : Nat) : Option Bool :=
  match ev with
  | 577 => some d.time.refusing
  | 578 => some (d.time.servo == .holdover)
  | 583 => some d.time.clamp
  | 585 => some d.time.refloss
  | 586 => some d.time.ppsloss
  | 587 => some d.time.skew
  | _ => none

/-- Live status of a source of power and the strongroom (R442, R471). -/
def Dev.powerLive (d : Dev) (ev : Nat) : Option Bool :=
  match ev with
  | 643 => some (!d.strong.rngok)
  | 704 => some d.power.ceilOver
  | 705 => some d.power.hot
  | 706 => some d.power.overTemp
  | 707 => some d.power.avsFault
  | 708 => some (!d.power.railsOut.isEmpty)
  | _ => none

/-- A fabric block's source: for block 8k the supply and the PLL of bank k (R292, R302). -/
def Dev.blockLive (d : Dev) (b : Nat) : Option Bool :=
  let k := b / 8
  if b % 8 ≠ 0 then none
  else some ((Tbl.get ({} : IoBank) d.fabric.banks k).mismatch
    || (bitOf (Tbl.get (0 : BitVec 64) d.fabric.pll k).toNat 43 && !d.fabric.pllLock.getLsbD k))

/-- The live status of a source: none where its chapter defines none. -/
def Dev.liveStatus (d : Dev) (ev : Nat) : Option Bool :=
  if ev < 256 then some ((d.room (BitVec.ofNat 8 ev)).faultWord != 0)
  else if ev < 352 then some (d.lane (ev - 256)).fallen
  else if ev < 360 then some (d.ethLaneErr (ev - 352))
  else if ev < 392 then some (d.sdiLaneErr (ev - 360) || (d.sdi (ev - 360)).mismatch)
  else if ev < 448 then none
  else if ev < 480 then some (d.net.ringDown (ev - 448))
  else if ev < 512 then none
  else if ev < 576 then d.blockLive (ev - 512)
  else if ev < 640 then d.timeLive ev
  else if ev < 768 then d.powerLive ev
  else if ev < 832 then none
  else if ev < 848 then some ((d.bd (ev - 832)).en && (d.bd (ev - 832)).phase != .up)
  else if ev < 896 then none
  else some (Tbl.get false d.fabric.uev (ev - 896))

end Sys2Proof.Machine
end

