-- ==== Sys2Proof/Machine/Sched.lean ====
section
/-! DEFINITION. The hardware scheduler: tasks, dispatch, pre-emption, timers, event routes, and the SCHED registers
(13_control_cores_and_observation.md R374 to R388, R405, R406). -/

namespace Sys2Proof.Machine
open Sys2Proof

def Dev.modSched (d : Dev) (f : Sched → Sched) : Dev := { d with sched := f d.sched }

/-- One more on a SCHED counter: 0 MISS, 1 HELD, 2 PREEMPT, 3 ABANDON (R406). -/
def Dev.countSched (d : Dev) (n : Nat) : Dev := d.modSched fun s => { s with cnt := bumpAt s.cnt n }

def Dev.tmpl (d : Dev) (t : BitVec 8) : Template := Tbl.get {} d.sched.templates t.toNat
def Dev.task? (d : Dev) (e : Nat) : Option Task := d.sched.tasks.find? fun t => t.entry == e

/-- Templates of the firmware partition (R374, R375). -/
def fwClass (t : BitVec 8) : Bool := decide (t.toNat < 64)

-- deadlines

/-- The device time of the boundary that starts a beat, with the slips and the period change that are pending (R376). -/
def Dev.boundaryOf (d : Dev) (b : Beat) : Instant :=
  let t := d.time
  let unit := 8 * ns
  let k := b.toNat
  let n := t.n.toNat
  if k ≤ n then t.start - (n - k) * d.period
  else
    let slips := (t.slips.filter fun s => decide (n < s.beat.toNat ∧ s.beat.toNat < k)).foldl (fun a s => a + s.units) (0 : Int)
    let late : Nat := match t.pendPeriod with | some (_, p) => k - max p.toNat (n + 1) | none => 0
    let p' : Nat := match t.pendPeriod with | some (p, _) => p.toNat | none => 0
    (((t.next + (k - (n + 1) - late) * d.period + late * p' * unit : Nat) : Int) + slips * unit).toNat

/-- A task's deadline in device time (R376). -/
def Dev.deadline (d : Dev) (t : Task) : Instant :=
  match t.due with
  | .ns x => x.toNat * ns
  | .beat b => d.boundaryOf b

/-- Task a goes before task b: the earlier deadline, then the earlier creation (R377). -/
def Dev.goesFirst (d : Dev) (a b : Task) : Bool :=
  decide (d.deadline a < d.deadline b) || (d.deadline a == d.deadline b && decide (a.order < b.order))

/-- The first of some tasks. -/
def Dev.firstTask (d : Dev) (l : List Task) : Option Task :=
  l.foldl (fun acc t => match acc with | none => some t | some a => if d.goesFirst t a then some t else some a) none

-- cores

/-- Cores that a template's tasks may run on: those of the mask, for a firmware template the active pair's (R371, R375). -/
def Dev.eligible (d : Dev) (t : BitVec 8) : List Nat :=
  let m := (d.tmpl t).mask
  if fwClass t then d.cores.activePair.filter fun c => m.getLsbD c || m.getLsbD ((c + 2) % 4)
  else ((List.range 16).filter fun c => decide (4 ≤ c) && m.getLsbD c)

/-- A core that can take tasks: neither held nor in reset. -/
def Core.able (c : Core) : Bool := c.phase == .run || c.phase == .sleep

def Dev.coreAt (d : Dev) (c : Nat) : Core := d.core (BitVec.ofNat 4 c)
def Dev.modCoreAt (d : Dev) (c : Nat) (f : Core → Core) : Dev := d.modCore (BitVec.ofNat 4 c) f

/-- Eligible cores that can take tasks. -/
def Dev.ableCores (d : Dev) (t : BitVec 8) : List Nat := (d.eligible t).filter fun c => (d.coreAt c).able

/-- A core takes its external interrupt (R367): MIE of mstatus, or user mode, and MEIE of mie. -/
def Core.intEnabled (c : Core) : Bool :=
  (!c.machineMode || (Tbl.get (0 : BitVec 64) c.csr 0x300).getLsbD 3) && (Tbl.get (0 : BitVec 64) c.csr 0x304).getLsbD 11

/-- A task's state changes. -/
def Dev.setPhase (d : Dev) (e : Nat) (p : TaskPhase) : Dev :=
  d.modSched fun s => { s with tasks := s.tasks.map fun t => if t.entry = e then { t with phase := p } else t }

/-- A core is given a task, and its external interrupt is raised: MEIP of mip (R367, R377). -/
def Dev.giveTask (d : Dev) (c e : Nat) : Dev :=
  (d.setPhase e .running).modCoreAt c fun x => { x with stack := e :: x.stack, csr := Tbl.modify (0 : BitVec 64) x.csr 0x344 (· ||| 0x800) }

def Dev.pendingTasks (d : Dev) : List Task := d.sched.tasks.filter fun t => t.phase == .pending

/-- DISPATCH (R377): idle cores take the pending tasks of earliest deadline, lowest-numbered core first. -/
def Dev.dispatch : Nat → Dev → Dev
  | 0, d => d
  | n + 1, d =>
    let idle (t : Task) : List Nat := (d.ableCores t.tclass).filter fun c => (d.coreAt c).stack.isEmpty
    match d.firstTask (d.pendingTasks.filter fun t => !(idle t).isEmpty) with
    | none => d
    | some t => match (idle t).head? with
      | none => d
      | some c => Dev.dispatch n (d.giveTask c t.entry)

def Dev.dispatchAll (d : Dev) : Dev := Dev.dispatch d.sched.tasks.length d

/-- The deadline of the task that a core runs. -/
def Dev.runningDeadline (d : Dev) (c : Nat) : Instant :=
  match (d.coreAt c).stack.head?.bind d.task? with
  | some t => d.deadline t
  | none => 0

/-- The core that a pending task would pre-empt (R378): of its cores, all busy, the one whose task has the latest deadline, the highest-numbered
of equals. -/
def Dev.victim (d : Dev) (t : Task) : Option Nat :=
  let cs := d.ableCores t.tclass
  if cs.any fun c => (d.coreAt c).stack.isEmpty then none
  else cs.foldl (fun acc c => match acc with
    | none => some c
    | some a => if d.runningDeadline a ≤ d.runningDeadline c then some c else some a) none

/-- PREEMPT (R378): a task that has become pending suspends a task of later deadline, on a core that nests fewer than four and takes
interrupts. -/
def Dev.preempt (d : Dev) (e : Nat) : Dev :=
  match (d.task? e).filter (·.phase == .pending) with
  | none => d
  | some t => match d.victim t with
    | none => d
    | some c =>
      let x := d.coreAt c
      if x.stack.length < 4 ∧ x.intEnabled ∧ d.deadline t < d.runningDeadline c then
        let d := match x.stack.head? with | some r => d.setPhase r .suspended | none => d
        (d.giveTask c e).countSched 2
      else d

/-- Pre-emptions that waited for a core to take interrupts (R378). -/
def Dev.preemptOn (d : Dev) (c : Nat) : Dev :=
  match d.firstTask (d.pendingTasks.filter fun t => d.victim t == some c) with
  | some t => d.preempt t.entry
  | none => d

-- creating tasks

/-- The lowest free entry of a partition (R374). -/
def Dev.freeEntry (d : Dev) (fw : Bool) : Option Nat :=
  let r := d.fwres.toNat
  let used (e : Nat) : Bool := d.sched.tasks.any fun t => t.entry == e
  if fw then (List.range r).find? fun e => !used e
  else ((List.range (4096 - r)).find? fun e => !used (r + e)).map (r + ·)

/-- The order of sources (R385): events by number, then timers, then posts. -/
def sourceNo : TaskSource → Nat
  | .event e => e.toNat
  | .timer i => 1024 + i.toNat
  | .post c => 2048 + c.toNat
  | .descriptor => 4096

/-- Occurrences of events and timers merge into a task that is not dispatched yet (R382). -/
def mergesWith (src : TaskSource) (t : Task) : Bool :=
  (match src with | .event _ | .timer _ => true | _ => false) && t.source == src && (t.phase == .pending || t.phase == .held)

/-- The deadline of a template from a time in ns, or in beats from the current one (R375, R376). -/
def Dev.dueOf (d : Dev) (tclass : BitVec 8) (t : Nat) : Due :=
  let x := d.tmpl tclass
  if x.beats then (if d.time.run then .beat (d.time.n + x.rel.setWidth 64) else .beat (x.rel.setWidth 64))
  else .ns (BitVec.ofNat 64 (t + x.rel.toNat))

/-- A timer whose firing is held shows LATE (R385). -/
def Dev.setLate (d : Dev) (src : TaskSource) (late : Bool) : Dev :=
  match src with
  | .timer i => d.modSched fun s => { s with timers := Tbl.modify {} s.timers i.toNat fun x => { x with late } }
  | _ => d

/-- A task is created, merged, or answers `none` where its partition is full (R374, R382, R385). -/
def Dev.placeTask (d : Dev) (src : TaskSource) (tclass : BitVec 8) (arg : BitVec 64) (due : Due) : Option Dev :=
  match d.sched.tasks.find? (mergesWith src) with
  | some t =>
    some (d.modSched fun s => { s with tasks := s.tasks.map fun y =>
      if y.entry = t.entry then { y with count := if y.count = 255 then 255 else y.count + 1 } else y })
  | none => match d.freeEntry (fwClass tclass) with
    | none => none
    | some e =>
      let held : Bool := (match due with | .beat _ => true | .ns _ => false) && !d.time.run
      let t : Task := { entry := e, source := src, tclass, arg, due, phase := if held then .held else .pending, order := d.sched.order }
      let d := d.modSched fun s => { s with tasks := s.tasks ++ [t], order := s.order + 1 }
      some (d.dispatchAll.preempt e).reheldAll

/-- A new occurrence creates its task, or waits at its source (R375, R385). -/
def Dev.newTask (d : Dev) (src : TaskSource) (tclass : BitVec 8) (arg : BitVec 64) (due : Due) (ts : Nat) : Dev :=
  match d.placeTask src tclass arg due with
  | some d => d
  | none =>
    let h : HeldTask := { source := src, tclass, arg, due, ts }
    let d := (d.modSched fun s => { s with waiting := s.waiting ++ [h] }).setLate src true
    match src with
    | .post _ => d
    | _ => d.countSched 1

/-- A held occurrence goes before another: the oldest timestamp, then the lower source (R385). -/
def heldFirst (a b : HeldTask) : Bool := decide (a.ts < b.ts) || (a.ts == b.ts && decide (sourceNo a.source < sourceNo b.source))

/-- Entries have become free: held occurrences create their tasks (R385). -/
def Dev.refill : Nat → Dev → Dev
  | 0, d => d
  | n + 1, d =>
    let fits (h : HeldTask) : Bool := (d.freeEntry (fwClass h.tclass)).isSome || d.sched.tasks.any (mergesWith h.source)
    match (d.sched.waiting.filter fits).foldl (fun acc h => match acc with | none => some h | some a => if heldFirst h a then some h else some a) none with
    | none => d
    | some h =>
      let d := d.modSched fun s => { s with waiting := s.waiting.erase h }
      let d := if d.sched.waiting.any (fun y => y.source == h.source) then d else d.setLate h.source false
      match d.placeTask h.source h.tclass h.arg h.due with
      | some d => Dev.refill n d
      | none => d

def Dev.refillAll (d : Dev) : Dev := Dev.refill d.sched.waiting.length d

/-- An entry is freed. -/
def Dev.freeTask (d : Dev) (e : Nat) : Dev := d.modSched fun s => { s with tasks := s.tasks.filter fun t => t.entry != e }

/-- The innermost suspended task of a core resumes, or an earlier pending one is dispatched at its depth (R379). -/
def Dev.nextTask (d : Dev) (c : Nat) : Dev :=
  let mine := d.firstTask (d.pendingTasks.filter fun t => decide (c ∈ d.eligible t.tclass))
  match (d.coreAt c).stack.head?.bind d.task? with
  | none => d
  | some s => match mine with
    | some t => if d.deadline t < d.deadline s then d.giveTask c t.entry else d.setPhase s.entry .running
    | none => d.setPhase s.entry .running

/-- The route of a source (R387). -/
def Dev.route (d : Dev) (ev : Nat) : Route := Tbl.get {} d.sched.routes ev

/-- A user event source that is asserted and that no task has is pending (R296). -/
def Dev.uevWaits (d : Dev) (ev : Nat) : Bool :=
  decide (896 ≤ ev) && d.liveStatus ev == some true && !(d.sched.tasks.any fun t => t.source == .event (BitVec.ofNat 10 ev))

/-- User event sources that stay asserted make tasks as long as they are (R296): one whose task has completed, or whose route has come to create tasks, creates
its next one. -/
def Dev.reassert (d : Dev) : Dev :=
  if !d.hubUp then d
  else d.each ((Tbl.keys d.fabric.uev).map (896 + ·)) fun d ev =>
    let r := d.route ev
    let src : TaskSource := .event (BitVec.ofNat 10 ev)
    if r.ten ∧ !fwClass r.tclass ∧ d.uevWaits ev ∧ !(d.sched.waiting.any fun h => h.source == src) then
      d.newTask src r.tclass (BitVec.ofNat 64 d.nowNs) (d.dueOf r.tclass d.nowNs) d.now
    else d

/-- DONE (R296, R379, R384): the innermost task of a core completes, late or in time. -/
def Dev.done (c : BitVec 4) (d : Dev) : Dev :=
  match (d.core c).stack with
  | [] => d
  | e :: rest =>
    let late : Bool := match d.task? e with | some t => decide (d.deadline t < d.now) | none => false
    let d := if late then ((d.countSched 0).modCore c fun x => { x with cnt := bumpAt x.cnt 0 }).raise (480 + c.toNat) else d
    let d := (d.freeTask e).modCore c fun x => { x with stack := rest }
    let d := if rest.isEmpty then d else d.nextTask c.toNat
    (d.refillAll.dispatchAll).reheldAll.reassert
def execDone (c : BitVec 4) (s : State) : Host.Outcome State Fault Refusal := run true (Dev.done c) s

/-- The tasks of a core that is reset are abandoned (R383): a source still asserted creates a new task. -/
def Dev.abandon (d : Dev) (c : BitVec 4) : Dev :=
  let ts := (d.core c).stack.filterMap d.task?
  let d := d.modCore c fun x => { x with stack := [] }
  let d := d.each ts fun d t => (d.freeTask t.entry).countSched 3
  let d := d.each ts fun d t => match t.source with
    | .event ev =>
      if d.liveStatus ev.toNat = some true then
        d.newTask t.source t.tclass (BitVec.ofNat 64 d.nowNs) (d.dueOf t.tclass d.nowNs) d.now
      else d
    | _ => d
  (d.refillAll.dispatchAll).reheldAll

/-- POST (R375, R380): the core's post creates a task; a template of the other partition is ignored and counted. -/
def Dev.post (c : BitVec 4) (v : Word) (d : Dev) : Dev :=
  let t := v.setWidth 8
  let x := d.core c
  if !x.able then d
  else if fwClass t ≠ decide (c.toNat < 4) then d.countSched 3
  else
    let due : Due := if x.postDl = 0 then d.dueOf t d.nowNs else .ns x.postDl
    d.newTask (.post c) t x.postArg due d.now
def execPost (c : BitVec 4) (v : Word) (s : State) : Host.Outcome State Fault Refusal := run true (Dev.post c v) s

/-- Tasks held before the beat generator ran become pending at its first boundary (R376). -/
def Dev.releaseHeld (d : Dev) : Dev :=
  let hs := d.sched.tasks.filter fun t => t.phase == .held
  let up (t : Task) : Task := if t.phase = .held then
      { t with phase := .pending, due := match t.due with | .beat r => .beat (d.time.n + r) | x => x } else t
  let d := d.modSched fun s => { s with tasks := s.tasks.map up }
  d.dispatchAll.each hs fun d t => d.preempt t.entry

-- timers

def Dev.timer (d : Dev) (i : BitVec 6) : Timer := Tbl.get {} d.sched.timers i.toNat
def Dev.modTimer (d : Dev) (i : BitVec 6) (f : Timer → Timer) : Dev :=
  d.modSched fun s => { s with timers := Tbl.modify {} s.timers i.toNat f }

/-- PERIOD as it acts (R406). -/
def Timer.step (t : Timer) : Nat := if t.beats then max 1 t.period.toNat else max 1000 t.period.toNat

/-- TIMER_FIRE (R381): the timer's scheduled time has come; it creates the task of its template. -/
def Dev.timerFire (i : BitVec 6) (d : Dev) : Dev :=
  let t := d.timer i
  let ready : Bool := t.en && t.armed && (!t.beats || (d.time.run && decide (t.next ≤ d.time.n)))
  if !ready then d
  else
    let d := if t.beats then d else d.reach (t.next.toNat * ns)
    let at_ := if t.beats then d.boundaryOf t.next / ns else t.next.toNat
    let d := d.modTimer i fun t => if t.periodic then { t with next := t.next + BitVec.ofNat 64 t.step } else { t with armed := false }
    if fwClass t.tclass then d
    else d.newTask (.timer i) t.tclass (BitVec.ofNat 64 at_) (d.dueOf t.tclass at_) (at_ * ns)
def execTimerFire (i : BitVec 6) (s : State) : Host.Outcome State Fault Refusal := run true (Dev.timerFire i) s

-- event routes

/-- Insert an occurrence in the order of the fuse box, (timestamp, source) (R409). Timestamps compare as device time, finer than the whole ns that
TIME shows (R107; DESIGN CHOICE, log entry 165). -/
def insertOcc (o : Occ) : List Occ → List Occ
  | [] => [o]
  | x :: t => if o.ts < x.ts ∨ (o.ts = x.ts ∧ o.ev < x.ev) then o :: x :: t else x :: insertOcc o t

/-- The oldest occurrence of a source that is on its way. -/
def takeOcc (ev : BitVec 10) : List Occ → Option (Occ × List Occ)
  | [] => none
  | o :: t => if o.ev = ev then some (o, t) else (takeOcc ev t).map fun (x, r) => (x, o :: r)

/-- An occurrence reaches the fuse box (R409, R424, R426): while the fuse box is released it is counted and waits in the reorder window. -/
def Dev.fuseReceive (d : Dev) (o : Occ) : Dev :=
  if !d.fuse.released then d
  else
    d.putFuse { d.fuse with window := insertOcc o d.fuse.window,
                            srcs := Tbl.modify {} d.fuse.srcs o.ev.toNat fun x => { x with cnt := x.cnt.bump } }

/-- Into (timestamp, source) order, after its equals (R107). -/
def insertTs (p : Instant × Nat) : List (Instant × Nat) → List (Instant × Nat)
  | [] => [p]
  | x :: t => if p.1 < x.1 ∨ (p.1 = x.1 ∧ p.2 < x.2) then p :: x :: t else x :: insertTs p t

/-- An armed unit whose trigger is event `ev` takes the first occurrence's timestamp (R398, R402). -/
def AcqUnit.sees (o : Occ) (x : AcqUnit) : AcqUnit :=
  if x.phase == .armed && x.arm.tkind == 1 && x.arm.tnum == o.ev.toNat && x.hit.isNone then { x with hit := some o.ts } else x

/-- An armed or triggered EVENT unit receives the occurrences of its range of sources (R397, R398). -/
def AcqUnit.receive (o : Occ) (x : AcqUnit) : AcqUnit :=
  let x := x.sees o
  if (x.phase == .armed || x.phase == .triggered) && x.arm.src == 5 && decide (x.arm.sel1 ≤ o.ev.toNat ∧ o.ev.toNat ≤ x.arm.sel2) then
    { x with window := insertTs (o.ts, o.ev.toNat) x.window }
  else x

/-- An occurrence reaches the acquisition units, the scheduler and the fuse box (R387, R388, R409); while the hub is reset it is not recorded (R463). -/
def Dev.deliver (d : Dev) (o : Occ) : Dev :=
  if !d.hubUp then d else
  let r := d.route o.ev.toNat
  let ts := o.ts / ns
  let d := if r.ten ∧ !fwClass r.tclass then d.newTask (.event o.ev) r.tclass (BitVec.ofNat 64 ts) (d.dueOf r.tclass ts) o.ts else d
  let d := if r.ien then d.msix r.fn r.vector else d
  let d := if r.trc then d.trace 3 o.ev.toNat 0 0 o.beat o.ts else d
  (d.putAcq (Tbl.mapAll {} d.acq (AcqUnit.receive o))).fuseReceive o

/-- An EVENT packet of a room crosses the network to the fuse box and scheduler (R138, R139); its payload here is the source and its timestamp (DESIGN
CHOICE, log entry 175). -/
def Dev.carryEvent (d : Dev) (o : Occ) : Dev :=
  if o.ev < 256 then
    let r : Node := .room (o.ev.setWidth 8)
    d.putNet (d.net.carry r (.hub 5) (evtFlits r (.hub 5) o.beat false 3 (o.ev.toNat * 2 ^ 64 + o.ts / ns)))
  else d

/-- EVENT_OCCURRENCE (R387): the oldest occurrence of the source that is on its way, or one that the source raises now, is delivered. A
disabled room raises none (R2). -/
def Dev.eventOccurrence (ev : BitVec 10) (detail : BitVec 64) (d : Dev) : Dev :=
  if ev.toNat < 256 ∧ d.roomDisabled (BitVec.ofNat 8 ev.toNat) then d
  else match takeOcc ev d.events with
  | some (o, rest) => ((d.putEvents rest).carryEvent o).deliver o
  | none => d.deliver { ev, ts := d.now, detail, beat := d.beatAt d.now }
def execEventOccurrence (ev : BitVec 10) (detail : BitVec 64) (s : State) : Host.Outcome State Fault Refusal :=
  run true (Dev.eventOccurrence ev detail) s

-- registers (R406)

/-- A partition has no free entry (R385). -/
def Dev.partFull (d : Dev) (fw : Bool) : Bool := (d.freeEntry fw).isNone

def Dev.readSchedReg (d : Dev) (off : Nat) : Option Word :=
  let s := d.sched
  let w (n : Nat) : Option Word := some (BitVec.ofNat 32 n)
  if off % 4 ≠ 0 then none
  else if off = 0 then w (bit (d.partFull true) 31 + bit (d.partFull false) 30 + d.fwres.toNat * 65536 + s.tasks.length)
  else if 0x10 ≤ off ∧ off < 0x20 then some (Tbl.get {} s.cnt ((off - 0x10) / 4)).toWord
  else if off = 0x20 then w 0
  else if 0x100 ≤ off ∧ off < 0x900 then
    let t := Tbl.get ({} : Template) s.templates ((off - 0x100) / 8)
    if off % 8 = 0 then w (t.mask.toNat * 65536 + t.handler.toNat * 256 + bit t.beats 0) else some t.rel
  else if 0x900 ≤ off ∧ off < 0xD00 then
    let t := Tbl.get ({} : Timer) s.timers ((off - 0x900) / 16)
    if off % 16 = 0 then w (bit t.en 31 + bit t.periodic 30 + bit t.beats 29 + bit t.late 28 + t.tclass.toNat)
    else if off % 16 = 4 then some t.period
    else if off % 16 = 8 then w (t.next.toNat % 2 ^ 32)
    else w (t.next.toNat / 2 ^ 32)
  else if 0xD00 ≤ off ∧ off < 0xD80 then
    let k := (off - 0xD00) / 4
    w ((List.range 32).foldl (fun a i => a + bit ((s.waiting.any fun h => sourceNo h.source == 32 * k + i) || d.uevWaits (32 * k + i)) i) 0)
  else if 0x1000 ≤ off ∧ off < 0x2000 then
    let r := Tbl.get ({} : Route) s.routes ((off - 0x1000) / 4)
    w (bit r.ten 31 + bit r.ien 30 + bit r.trc 29 + r.fn.toNat * 2 ^ 23 + r.vector.toNat * 2 ^ 12 + r.tclass.toNat)
  else none

/-- A write of SCHED_EV_ROUTE (R387): the PF writes the route; a VF that FUNC names writes IEN alone. A user event that is asserted finds its route at
once (R296). -/
def Dev.writeRoute (d : Dev) (view : BitVec 6) (n : Nat) (w : Nat) : Dev :=
  Dev.reassert <| d.modSched fun s => { s with routes := Tbl.modify {} s.routes n fun r =>
    if view = 0 then
      { ten := bitOf w 31, ien := bitOf w 30, trc := bitOf w 29, fn := BitVec.ofNat 6 (fld w 23 6), vector := BitVec.ofNat 11 (fld w 12 11),
        tclass := BitVec.ofNat 8 w }
    else if r.fn = view then { r with ien := bitOf w 30 } else r }

/-- NEXT takes a word of its value at once; a write of its high word arms the timer (R406, R448). -/
def Dev.writeTimerNext (d : Dev) (i : BitVec 6) (hi : Bool) (v : Word) : Dev :=
  d.modTimer i fun t => if hi then { t with next := setHi t.next v, armed := true } else { t with next := setLo t.next v }

def Dev.writeSchedReg (d : Dev) (view : BitVec 6) (off : Nat) (v : Word) : Dev :=
  let w := v.toNat
  if 0x1000 ≤ off ∧ off < 0x2000 then d.writeRoute view ((off - 0x1000) / 4) w
  else if view ≠ 0 then d
  else if off = 0x20 then d.modSched fun s => { s with cnt := clearBits s.cnt w 4 }
  else if 0x300 ≤ off ∧ off < 0x900 then
    let t := (off - 0x100) / 8
    d.modSched fun s => { s with templates := Tbl.modify {} s.templates t fun x =>
      if off % 8 = 0 then { x with mask := BitVec.ofNat 16 (w / 2 ^ 20 * 16), handler := BitVec.ofNat 8 (fld w 8 8), beats := bitOf w 0 }
      else { x with rel := v } }
  else if 0x900 ≤ off ∧ off < 0xD00 then
    let i := BitVec.ofNat 6 ((off - 0x900) / 16)
    if off % 16 = 0 then
      d.modTimer i fun t => { t with en := bitOf w 31, periodic := bitOf w 30, beats := bitOf w 29, tclass := BitVec.ofNat 8 w }
    else if off % 16 = 4 then d.modTimer i fun t => { t with period := v }
    else d.writeTimerNext i (decide (off % 16 = 12)) v
  else d

/-- TIMER_ARM (R381, R406): a write of SCHED_TMR_NEXT_HI. -/
def execTimerArm (q : Requester) (i : BitVec 6) (v : Word) (s : State) : Host.Outcome State Fault Refusal :=
  run true (fun d => if d.isPf q then d.writeTimerNext i true v else d) s

end Sys2Proof.Machine
end

