-- ==== Sys2Proof/Machine/Acq.lean ====
section
/-! DEFINITION. The acquisition units (13_control_cores_and_observation.md R397 to R404, R408). -/

namespace Sys2Proof.Machine
open Sys2Proof

def Dev.unit (d : Dev) (u : Nat) : AcqUnit := Tbl.get {} d.acq u
def Dev.setUnit (d : Dev) (u : Nat) (x : AcqUnit) : Dev := { d with acq := Tbl.set {} d.acq u x }
def Dev.modUnit (d : Dev) (u : Nat) (f : AcqUnit → AcqUnit) : Dev := d.setUnit u (f (d.unit u))

-- arm records

/-- An arm record (R398). -/
def parseArm (b : Bytes) : ArmRec :=
  let fl := leAt b 1 1
  { src := leAt b 0 1, master := bitOf fl 0, ctin := bitOf fl 1, cellar := bitOf fl 2, raw := bitOf fl 3, sel1 := leAt b 2 2,
    sel2 := leAt b 4 2, repl := leAt b 6 1, tkind := leAt b 7 1, tnum := leAt b 8 2, tvalue := BitVec.ofNat 64 (leAt b 0x10 8),
    tmask := BitVec.ofNat 64 (leAt b 0x18 8), pre := leAt b 0x20 4, post := leAt b 0x24 4, base := leAt b 0x28 8, size := leAt b 0x30 4,
    queue := leAt b 0x34 2,
    rsvOk := decide (fl < 16) && zeroRange b 0x0A 6 && zeroRange b 0x36 10 && decide (leAt b 0x28 8 % 4096 = 0 ∧ leAt b 0x30 4 % 4096 = 0)
      && decide (leAt b 7 1 ≤ 5) }

/-- The units of a mask with their records, in ascending order (R398). -/
def armUnits (mask : Nat) (bs : Bytes) : List (Nat × ArmRec) :=
  (((List.range 16).filter fun u => bitOf mask u).zip (chunks 64 16 bs)).map fun (u, b) => (u, parseArm b)

/-- The binding of a type and number of a function. -/
def Func.bindOf (f : Func) (type num : Nat) : Option BindRec := f.obj.bindings.find? fun b => b.type == type && b.num == num

/-- The admitted function of an ID. -/
def Dev.live? (d : Dev) (id : Nat) : Option Func := d.admitted.find? fun f => f.id.toNat == id

/-- The number of data words of a source's largest record; none where the source does not exist (R397, R399, R403). -/
def Dev.sourceWords (d : Dev) (a : ArmRec) : Option Nat :=
  let withFunc (g : Func → Option Nat) : Option Nat := (d.live? a.sel1).bind fun f => if a.repl < f.r then g f else none
  match a.src with
  | 1 => withFunc fun f => match f.obj.rooms[a.sel2]? with
    | some rm => if rm.probes.isEmpty then none else some (2 + rm.probes.length)
    | none => none
  | 2 => withFunc fun f => (f.bindOf 1 a.sel2).map fun b => 2 + b.gmax * groupWords b.fmt b.samp b.b
  | 3 => withFunc fun f => (f.bindOf 2 a.sel2).map fun b => 2 + b.size
  | 4 => if a.sel1 < 96 then some 8 else none
  | 5 => if a.sel1 ≤ a.sel2 ∧ a.sel2 < 1024 then some 2 else none
  | 6 => if a.sel1 < 16 then some 19 else none
  | _ => none

/-- ACQ_SINK (R399): the ring is too small, lies outside what a sink may use, or its queue may not write it (R163). -/
def Dev.sinkBad (d : Dev) (a : ArmRec) (words : Nat) : Bool :=
  let pages := (List.range (a.size / 4096)).map fun k => (a.base + 4096 * k) / 128
  decide (a.size < (a.pre + a.post) * (8 * (words + 1)) ∨ a.size = 0)
    || (if !a.cellar then decide (d.sinkBanks * 2 ^ 20 < a.base + a.size)
        else if a.raw then decide (2 ^ 34 < a.base + a.size)
        else pages.any fun line => (d.cellar.permits .copy (BitVec.ofNat 9 a.queue) line .copyIn true).isNone)

/-- Why an ACQ_ARM is refused: status and detail (R399). -/
def Dev.armRefusal (d : Dev) (us : List (Nat × ArmRec)) : Option (Nat × Nat) :=
  let busy (u : Nat) : Bool := (d.unit u).phase == .armed || (d.unit u).phase == .triggered
  if (us.filter (·.2.master)).length ≠ 1 ∨ us.any (!·.2.rsvOk) then some (5, 4)
  else if us.any (busy ·.1) then some (0x11, 0x60)
  else if us.any fun x => (d.sourceWords x.2).isNone then some (0x11, 0x61)
  else if us.any fun x => d.sinkBad x.2 ((d.sourceWords x.2).getD 0) then some (0x11, 0x62)
  else none

/-- The units of a descriptor. -/
def RetEntry.units (e : RetEntry) : List (Nat × ArmRec) := armUnits (dfld e.desc 0x18 2) (e.args.getD [])

/-- The units are armed: the commit point (R399). -/
def Dev.armEffect (x : DescRef) (e : RetEntry) (status : Nat) (d : Dev) : Dev :=
  match d.armRefusal e.units with
  | some (st, k) => d.finish x st k
  | none =>
    let m := ((e.units.find? (·.2.master)).map (·.1)).getD 0
    let d := d.commitPoint x
    let d := d.each e.units fun d (u, a) =>
      d.setUnit u { phase := .armed, master := a.master, gmaster := BitVec.ofNat 4 m, arm := a, drop := (d.unit u).drop }
    d.finish x status 0

/-- ACQ_ARM (R399): armed at once, or, where it is timed, at its boundary. -/
def Dev.acqArm (x : DescRef) (d : Dev) : Dev :=
  d.runOp x 0x50 true fun d e => match d.armRefusal e.units with
    | some (st, k) => d.finish x st k
    | none =>
      let waits : Bool := descTimed e.desc || (match e.apply with | some b => decide (d.time.n < b) | none => false)
      if waits then d else d.armEffect x e 0
def execAcqArm (x : DescRef) (s : State) : Host.Outcome State Fault Refusal := run true (Dev.acqArm x) s

-- records

/-- A record's header word (R403). -/
def acqHeader (type len div : Nat) (trig : Bool) (sample : Nat) : BitVec 64 :=
  BitVec.ofNat 64 (type * 2 ^ 56 + len % 4096 * 2 ^ 44 + div % 8 * 2 ^ 41 + bit trig 40 + sample % 2 ^ 40)

/-- Write a unit's record to its ring and advance its write offset; a sink that cannot take it puts the unit in ERROR (R404). A raw write is
performed in an enabled unsealed region and fails at a sealed or metadata address (R185; log entry 45); one through a queue that R163 refuses counts
with EV0446. -/
def Dev.acqPut (d : Dev) (u : Nat) (ws : List (BitVec 64)) : Dev :=
  let x := d.unit u
  let a := x.arm
  let bs := ws.flatMap fun w => leBytes 8 w.toNat
  let wp := x.wp.toNat
  let n := min bs.length (a.size - wp)
  let spans : List (Nat × Bytes) := [(a.base + wp, bs.take n), (a.base, bs.drop n)]
  let lines := spans.flatMap fun (at_, b) => if b.isEmpty then [] else
    (List.range ((at_ + b.length - 1) / 128 - at_ / 128 + 1)).map (at_ / 128 + ·)
  let ok : Bool := !a.cellar || (if a.raw then lines.all d.cellar.rawOk
    else lines.all fun l => (d.cellar.permits .copy (BitVec.ofNat 9 a.queue) l .copyIn true).isSome)
  if !ok then
    let d := if a.raw then d else d.cellarRefuse
    (d.modUnit u fun x => { x with phase := .error }).raise (496 + u)
  else
    let d :=
      if a.cellar ∧ a.raw then
        let whole (w : Nat) : Bool := spans.any fun (at_, b) => decide (at_ ≤ 8 * w ∧ 8 * w + 8 ≤ at_ + b.length)
        d.modCellar fun c =>
          { c with mem := spans.foldl (fun m (at_, b) => Memory.writeN m at_ b) c.mem, unread := c.unread.filter (!whole ·) }
      else d.ringPut a.cellar (BitVec.ofNat 9 a.queue) a.base a.size wp bs
    d.modUnit u fun x => { x with wp := BitVec.ofNat 64 ((wp + bs.length) % max 1 a.size) }

/-- A probe word as it stands after the commit (R117, R397). -/
def Room.probe (rm : Room) (w : Word) : BitVec 64 :=
  let p := rm.bp (fld w.toNat 16 7)
  let a := fld w.toNat 0 10
  if a < 768 then Tbl.get 0 p.scratch a else Tbl.get 0 p.committed a

/-- The second word of a BEAT record (R403). -/
def beatInfo (a : ArmRec) (vroom : Nat) (subst : Bool) : BitVec 64 :=
  BitVec.ofNat 64 (a.sel1 + vroom % 256 * 65536 + a.repl * 2 ^ 24 + bit subst 32)

/-- The words that a feed has delivered for the current beat into a replica's window, in slot order (R212, R397); a feed of a frame store delivers
none there. -/
def Dev.feedWords (d : Dev) (f : Func) (b : BindRec) (rep : Nat) : List (BitVec 64) :=
  match f.placeOf false rep b.vroom with
  | none => []
  | some p => (List.range (b.gmax * groupWords b.fmt b.samp b.b)).filterMap fun k =>
      ((d.room p.room).slot (b.slot0 + k)).cur.bind fun w => if w.absent then none else some w.word

/-- Type and payload of the source record that a unit captures (R397, R403). The words of probes, feeds, drains and occurrences stand in the device;
those of feeds of frame stores, lanes and raw lines arrive with the command. The occurrences of an EVENT unit leave its window in (timestamp, source) order, 1 µs
after their timestamps as they leave those of trace and log (R107, R395, R409; DEDUCED, log entry 142). -/
def Dev.acqSource (d : Dev) (x : AcqUnit) (payload : List (BitVec 64)) : Option (Nat × List (BitVec 64)) :=
  let a := x.arm
  match a.src with
  | 1 => (d.live? a.sel1).bind fun f => (f.placeOf false a.repl a.sel2).map fun p =>
      let rm := d.room p.room
      (1, rm.lastCommit :: beatInfo a a.sel2 false :: (((f.obj.rooms[a.sel2]?).map (·.probes)).getD []).map rm.probe)
  | 2 => (d.live? a.sel1).bind fun f => (f.bindOf 1 a.sel2).map fun b =>
      (1, d.time.n :: beatInfo a a.sel2 false :: (if b.target = 0 then d.feedWords f b a.repl else payload))
  | 3 => (d.live? a.sel1).map fun f =>
      let at_ := (a.repl * 256 + a.sel2) * 65536
      let ws := f.emitting.filterMap fun (k, w) => if at_ ≤ k ∧ k < at_ + 65536 then w.map (·.word) else none
      (1, f.emitBeat :: beatInfo a a.sel2 (!f.emitCommit) :: (if f.emitCommit then ws else []))
  | 4 => some (2, payload)
  | 5 => match x.window with
    | (ts, ev) :: _ => if ts + 1000 * ns ≤ d.now then some (3, [BitVec.ofNat 64 ev, BitVec.ofNat 64 (ts / ns)]) else none
    | [] => none
  | 6 => some (4, payload)
  | _ => none

/-- The unit has written its last record (R400). -/
def Dev.acqEnd (d : Dev) (u : Nat) : Dev :=
  let x := d.unit u
  let start := match x.kept.head? with | some r => r.offset | none => x.startOff.toNat
  let d := d.acqPut u [acqHeader 0x12 1 x.div.toNat false x.sample.toNat, BitVec.ofNat 64 x.written]
  if (d.unit u).phase = .error then d
  else (d.modUnit u fun x => { x with phase := .done, startOff := BitVec.ofNat 64 start, kept := [], window := [] }).raise (496 + u)

/-- The input buffer passes half full: the divisor doubles, up to 64, with a RATE record (R401). -/
def Dev.acqRate (d : Dev) (u : Nat) (fill : Nat) : Dev :=
  let x := d.unit u
  if fill ≤ 32768 ∨ 6 ≤ x.div.toNat then d
  else
    let d := d.modUnit u fun x => { x with div := x.div + 1 }
    d.acqPut u [acqHeader 0x10 1 (x.div.toNat + 1) false x.sample.toNat, BitVec.ofNat 64 (x.div.toNat + 1)]

/-- Keep a record written before the trigger: at most PRE (R400). -/
def keepRec (pre : Nat) (l : List AcqRec) (r : AcqRec) : List AcqRec := (l ++ [r]).drop (l.length + 1 - pre)

/-- ACQ_RECORD (R400, R401): a source record reaches an armed or triggered unit whose input buffer holds `fill` bytes. -/
def Dev.acqRecord (u : Nat) (payload : List (BitVec 64)) (fill : Nat) (d : Dev) : Dev :=
  let x := d.unit u
  if !(x.phase == .armed || x.phase == .triggered) then d
  else match d.acqSource x payload with
    | none => d
    | some (type, ws) =>
      let d := d.acqRate u fill
      let y := d.unit u
      let sample := y.sample.toNat
      let d := d.modUnit u fun z => { z with sample := z.sample + 1, window := z.window.drop 1 }
      if !(y.phase == .armed || y.phase == .triggered) ∨ sample % 2 ^ y.div.toNat ≠ 0 then d
      else if y.div = 6 ∧ 65536 < fill + 8 * (ws.length + 1) then
        let d := d.modUnit u fun z => { z with overrun := true, drop := z.drop.bump }
        if y.overrun then d else d.raise (496 + u)
      else
        let rec_ := acqHeader type ws.length y.div.toNat y.trigNext sample :: ws
        if y.phase = .armed then
          if y.arm.pre = 0 then d
          else
            (d.acqPut u rec_).modUnit u fun z => { z with kept := keepRec y.arm.pre z.kept { offset := y.wp.toNat, words := rec_ } }
        else
          let d := (d.acqPut u rec_).modUnit u fun z => { z with written := z.written + 1, left := z.left - 1, trigNext := false }
          if (d.unit u).phase = .triggered ∧ (d.unit u).left = 0 then d.acqEnd u else d
def execAcqRecord (u : BitVec 4) (payload : List (BitVec 64)) (fill : BitVec 17) (s : State) : Host.Outcome State Fault Refusal :=
  run true (Dev.acqRecord u.toNat payload fill.toNat) s

-- triggers

/-- A trigger position (R402): beat and step, FRAC in 1/64 ns where it is valid, and the device time. -/
structure TrigPos where
  beat : Beat
  step : BitVec 17
  frac : Option (BitVec 6)
  time : Instant
  deriving DecidableEq, Repr

/-- The position of a device time: the beat current then, and the step counted from its boundary (R402). -/
def Dev.posAt (d : Dev) (t : Instant) (fine : Bool) : TrigPos :=
  let b := d.beatAt t
  let past : Nat := if d.time.run then ((t : Int) - d.startOf b).toNat else 0
  let step := past * d.stepMhz / (1000 * ns)
  { beat := b, step := BitVec.ofNat 17 step, frac := if fine then some (BitVec.ofNat 6 ((past - step * (1000 * ns) / d.stepMhz) * 64 / ns)) else none,
    time := t }

/-- One unit of a fired group (R399, R400, R402). -/
def Dev.acqFireUnit (d : Dev) (u origin : Nat) (at_ : TrigPos) : Dev :=
  let x := d.unit u
  let frac := at_.frac.getD 0
  let d := d.modUnit u fun x =>
    { x with phase := .triggered, origin := BitVec.ofNat 4 origin, prefull := decide (x.arm.pre ≤ x.kept.length), trigBeat := at_.beat,
             trigStep := at_.step, fracValid := at_.frac.isSome, frac, left := x.arm.post, trigNext := true, written := x.kept.length,
             startOff := x.wp }
  let info := at_.step.toNat + frac.toNat * 2 ^ 17 + bit at_.frac.isSome 23 + origin * 2 ^ 24 + (d.unit origin).arm.tkind % 8 * 2 ^ 28
  let d := (d.acqPut u [acqHeader 0x11 3 x.div.toNat false x.sample.toNat, at_.beat, BitVec.ofNat 64 info,
    BitVec.ofNat 64 (at_.time / ns)]).raise (496 + u)
  if x.arm.post = 0 ∧ (d.unit u).phase = .triggered then d.acqEnd u else d

/-- The first trigger in an armed group fires every armed unit of it (R399). -/
def Dev.acqFire (d : Dev) (origin : Nat) (at_ : TrigPos) : Dev :=
  let g := (d.unit origin).gmaster
  if (d.unit origin).phase ≠ .armed then d
  else d.each ((List.range 16).filter fun u => (d.unit u).phase == .armed && (d.unit u).gmaster == g) fun d u =>
    d.acqFireUnit u origin at_

/-- The committed probe word that a unit compares meets its condition (R398). -/
def Dev.probeHit (d : Dev) (x : AcqUnit) : Bool :=
  x.arm.src == 1 && (match d.acqSource x [] with
    | some (_, _ :: _ :: ws) => (ws[x.arm.tnum]?).any fun w => w &&& x.arm.tmask == x.arm.tvalue &&& x.arm.tmask
    | _ => false)

/-- Where a unit's own condition holds, its trigger position (R398, R402): the timestamp of its event or of its TRIG input, the boundary of the record's
beat for a compare and for a beat that has come, and for a lane pattern what the command says of the matched data's first bit. -/
def Dev.trigger (d : Dev) (x : AcqUnit) (step : BitVec 17) (frac : BitVec 6) : Option TrigPos :=
  match x.arm.tkind with
  | 1 => x.hit.map fun t => d.posAt t false
  | 2 => x.hit.map fun t => d.posAt t true
  | 3 => if d.probeHit x then some (d.posAt d.time.start false) else none
  | 4 => if d.time.run ∧ x.arm.tvalue ≤ d.time.n then some (d.posAt d.time.start false) else none
  | 5 => some { beat := d.time.n, step, frac := some frac, time := d.now }
  | _ => none

/-- The armed units of a unit's group whose own conditions hold with it, each with its position: a lane pattern's comes with its own command alone. -/
def Dev.triggers (d : Dev) (u : Nat) (step : BitVec 17) (frac : BitVec 6) : List (Nat × TrigPos) :=
  let g := (d.unit u).gmaster
  (List.range 16).filterMap fun v =>
    let x := d.unit v
    if v = u ∨ (x.phase == .armed && x.gmaster == g && x.arm.tkind != 5) then (d.trigger x step frac).map fun p => (v, p) else none

/-- The first of some triggers: that of the earlier hub clock cycle, and of the lower unit within one cycle (R399; DEDUCED, log entry 192). -/
def firstTrigger (l : List (Nat × TrigPos)) : Option (Nat × TrigPos) :=
  l.foldl (fun acc y => match acc with | none => some y | some x => if y.2.time / ns < x.2.time / ns then some y else some x) none

/-- ACQ_TRIGGER (R399, R402): a unit's own condition holds; the first trigger of its group fires it. -/
def Dev.acqTrigger (u : Nat) (step : BitVec 17) (frac : BitVec 6) (d : Dev) : Dev :=
  match d.trigger (d.unit u) step frac, firstTrigger (d.triggers u step frac) with
  | some _, some (v, at_) => d.acqFire v at_
  | _, _ => d
def execAcqTrigger (u : BitVec 4) (step : BitVec 17) (frac : BitVec 6) (s : State) : Host.Outcome State Fault Refusal :=
  run true (Dev.acqTrigger u.toNat step frac) s

/-- A trace TRIGGER fires every group that accepts it (R393, R399). -/
def Dev.acqCrossTrigger (d : Dev) : Dev :=
  d.each ((List.range 16).filter fun u => (d.unit u).phase == .armed && (d.unit u).arm.ctin) fun d u => d.acqFire u (d.posAt d.now false)

/-- ACQ_FORCE (R399, R408). -/
def Dev.acqForce (u : Nat) (d : Dev) : Dev := if (d.unit u).phase = .armed then d.acqFire u (d.posAt d.now false) else d.ignore 0x10
def execAcqForce (q : Requester) (u : BitVec 4) (s : State) : Host.Outcome State Fault Refusal :=
  run true (fun d => if d.isPf q then d.acqForce u.toNat else d) s

/-- A unit goes back to IDLE. -/
def AcqUnit.disarm (x : AcqUnit) : AcqUnit :=
  if x.phase == .armed || x.phase == .triggered then { x with phase := .idle, kept := [], window := [] } else x

/-- A warm reset disarms a unit and loses its state; its sink stays (R408, R462). -/
def AcqUnit.warm (x : AcqUnit) : AcqUnit :=
  { arm := { base := x.arm.base, size := x.arm.size, cellar := x.arm.cellar, raw := x.arm.raw, queue := x.arm.queue } }

/-- ACQ_DISARM (R399, R408): of the master the whole group, of another unit that unit alone. -/
def Dev.acqDisarm (u : Nat) (d : Dev) : Dev :=
  let x := d.unit u
  if !(x.phase == .armed || x.phase == .triggered) then d
  else if !x.master then d.modUnit u AcqUnit.disarm
  else d.putAcq (Tbl.mapAll {} d.acq fun y => if y.gmaster = x.gmaster then y.disarm else y)
/-- A write of DISARM: ignored and counted unless the unit is ARMED or TRIGGERED (R5, R408). -/
def Dev.askDisarm (u : Nat) (d : Dev) : Dev :=
  if (d.unit u).phase = .armed ∨ (d.unit u).phase = .triggered then d.acqDisarm u else d.ignore 0x10
def execAcqDisarm (q : Requester) (u : BitVec 4) (s : State) : Host.Outcome State Fault Refusal :=
  run true (fun d => if d.isPf q then d.askDisarm u.toNat else d) s

-- registers (R408)

def acqCode : AcqPhase → Nat
  | .idle => 0 | .armed => 1 | .triggered => 2 | .done => 3 | .error => 4

def Dev.readAcqReg (d : Dev) (off : Nat) : Option Word :=
  let x := d.unit (off / 0x40)
  let w (n : Nat) : Option Word := some (BitVec.ofNat 32 n)
  match off % 0x40 with
  | 0x00 => w (acqCode x.phase * 2 ^ 29 + x.div.toNat * 2 ^ 26 + bit x.overrun 25 + bit x.master 24 + x.gmaster.toNat * 2 ^ 20
      + x.origin.toNat * 65536 + x.arm.src % 8 * 2 ^ 13 + bit x.prefull 12)
  | 0x04 => w 0
  | 0x08 => w (if x.phase = .done then x.startOff.toNat % 2 ^ 32 else 0)
  | 0x0C => w (if x.phase = .done then x.startOff.toNat / 2 ^ 32 else 0)
  | 0x10 => w (x.wp.toNat % 2 ^ 32)
  | 0x14 => w (x.wp.toNat / 2 ^ 32)
  | 0x18 => w (x.trigBeat.toNat % 2 ^ 32)
  | 0x1C => w (x.trigBeat.toNat / 2 ^ 32)
  | 0x20 => w x.trigStep.toNat
  | 0x24 => w (bit x.fracValid 31 + x.frac.toNat)
  | 0x28 => some x.drop.toWord
  | 0x2C => w 0
  | _ => none

def Dev.writeAcqReg (d : Dev) (off : Nat) (v : Word) : Dev :=
  let u := off / 0x40
  match off % 0x40 with
  | 0x04 =>
    let d := if bitOf v.toNat 0 then d.acqForce u else d
    if bitOf v.toNat 1 then d.askDisarm u else d
  | 0x2C => if bitOf v.toNat 0 then d.modUnit u fun x => { x with drop := {} } else d
  | _ => d

end Sys2Proof.Machine
end

