-- ==== Sys2Proof/Machine/CoreUnits.lean ====
section
/-! DEFINITION. The control cores: loading, start and hold, retired instructions and their trace, sleep, watchdogs, firmware pair failure, and
the CCORE registers (13_control_cores_and_observation.md R367 to R373, R389 to R396, R407). -/

namespace Sys2Proof.Machine
open Sys2Proof

-- trace packets

/-- Packet types that carry a cycle delta while CYC = 1 (R391). -/
def cycType (t : Nat) : Bool := t ∈ [2, 3, 4, 5, 0x0A, 0x0B, 0x0C]

/-- A packet of a core stream (R390, R391): with CYC = 1 a delta from the last cycle value written, after a CYCLES packet where it would not
fit. -/
def Dev.tracePkt (d : Dev) (c : BitVec 4) (type : Nat) (fields : Bytes) : Dev :=
  let i := c.toNat
  let s := d.stream i
  if !s.cyc ∨ !cycType type then d.streamPacket i (leBytes 1 type ++ fields)
  else
    let now := (d.core c).mcycle
    let long : Bool := decide (65535 < (now - s.cycleBase).toNat)
    let d := if long then d.streamPacket i (leBytes 1 6 ++ leBytes 8 now.toNat) else d
    let delta := if long then 0 else (now - s.cycleBase).toNat
    let base (s : Stream) : Stream := if s.dropped.isSome then s else { s with cycleBase := now }
    let d := d.setStream i (base (d.stream i))
    d.streamPacket i (leBytes 1 (type + 0x80) ++ leBytes 2 delta ++ fields)

/-- A list of outcomes as bytes, the first in bit 0 of the first byte (R390). -/
def outcomeBytes (l : List Bool) : Bytes := leBytes (ceilDiv l.length 8) ((l.zipIdx.map fun (b, k) => bit b k).sum)

/-- The BRANCH packet of the outcomes that wait (R390). -/
def Dev.flushBranches (d : Dev) (c : BitVec 4) : Dev :=
  let s := d.stream c.toNat
  if s.branches.isEmpty then d
  else (d.setStream c.toNat { s with branches := [] }).tracePkt c 2 (leBytes 1 s.branches.length ++ outcomeBytes s.branches)

/-- A packet behind the branches before it. -/
def Dev.traceOne (d : Dev) (c : BitVec 4) (type : Nat) (fields : Bytes) : Dev := (d.flushBranches c).tracePkt c type fields

/-- Recording turns on: START and then SYNC with REASON 1 (R393). -/
def Dev.traceOn (d : Dev) (c : BitVec 4) (src : Nat) : Dev :=
  let d := d.traceOne c 0x0A (leBytes 1 src ++ leBytes 8 (d.core c).pc.toNat)
  (d.setStream c.toNat { d.stream c.toNat with isOn := true, rngSrc := BitVec.ofNat 4 src }).sync c.toNat 1

/-- Recording turns off: STOP (R393). -/
def Dev.traceOff (d : Dev) (c : BitVec 4) (src : Nat) : Dev :=
  let d := d.traceOne c 0x0B (leBytes 1 src ++ leBytes 8 (d.core c).pc.toNat)
  d.setStream c.toNat { d.stream c.toNat with isOn := false }

/-- Action of comparator k (R407): 1 START, 2 STOP, 3 TRIGGER. -/
def Stream.action (s : Stream) (k : Nat) : Nat := fld s.act.toNat (3 * k) 3

/-- Comparators that match an instruction's PC or its data address (R407). -/
def Stream.matches (s : Stream) (pc : BitVec 64) (data : Option (BitVec 64)) : List Nat :=
  (List.range 8).filter fun k =>
    let a := Tbl.get (0 : BitVec 64) s.cmp k
    s.action k != 0 && (if s.daddr.getLsbD k then data == some a else pc == a)

/-- The lowest enabled range that holds the PC (R393). -/
def Stream.range (s : Stream) (pc : BitVec 64) : Option Nat :=
  (List.range 4).find? fun r => s.rngen.getLsbD r && decide (Tbl.get 0 s.rngStart r ≤ pc ∧ pc < Tbl.get 0 s.rngStop r)

/-- Comparators and ranges act before the instruction's own packets (R393). -/
def Dev.traceFilter (d : Dev) (c : BitVec 4) (data : Option (BitVec 64)) : Dev :=
  let i := c.toNat
  let s := d.stream i
  let pc := (d.core c).pc
  let d := d.each (s.matches pc data) fun d k =>
    let on := (d.stream i).isOn
    match s.action k with
    | 1 => if s.mode = 1 ∧ !on then d.traceOn c k else d
    | 2 => if s.mode = 1 ∧ on then d.traceOff c k else d
    | 3 => (d.traceOne c 0x0C (leBytes 1 k)).acqCrossTrigger
    | _ => d
  if s.mode ≠ 2 then d
  else match s.range pc with
    | some r => if (d.stream i).isOn then d else d.traceOn c (8 + r)
    | none => if (d.stream i).isOn then d.traceOff c (d.stream i).rngSrc.toNat else d

-- architectural state

def Core.setX (x : Core) (r : BitVec 5) (v : BitVec 64) : Core := if r = 0 then x else { x with x := Tbl.set 0 x.x r.toNat v }
def Core.csrAt (x : Core) (n : Nat) : BitVec 64 := Tbl.get 0 x.csr n
def Core.setCsr (x : Core) (n : Nat) (v : BitVec 64) : Core := { x with csr := Tbl.set 0 x.csr n v }

/-- Entry into machine mode (R367): mepc, mcause, and mstatus MPP, MPIE, MIE as the privileged architecture has them. The external interrupt's
signal falls as it is taken (DESIGN CHOICE, log entry 176). -/
def Core.enterTrap (x : Core) (cause handler : BitVec 64) : Core :=
  let m := x.csrAt 0x300
  let x := if cause = 0x800000000000000B then x.setCsr 0x344 (x.csrAt 0x344 &&& ~~~(0x800 : BitVec 64)) else x
  let m' := (m &&& ~~~(0x1888 : BitVec 64)) ||| (if x.machineMode then 0x1800 else 0) ||| (if m.getLsbD 3 then 0x80 else 0)
  { ((x.setCsr 0x341 x.pc).setCsr 0x342 cause).setCsr 0x300 m' with pc := handler, machineMode := true }

/-- Return from machine mode. -/
def Core.leaveTrap (x : Core) (target : BitVec 64) : Core :=
  let m := x.csrAt 0x300
  let m' := (m &&& ~~~(0x1888 : BitVec 64)) ||| (if m.getLsbD 7 then 0x8 else 0) ||| 0x80
  { x.setCsr 0x300 m' with pc := target, machineMode := m.getLsbD 11 }

/-- A CSR that an instruction writes (R367): mcycle is the core's counter, and MEIP of mip is the scheduler's. -/
def Core.writeCsr (x : Core) (n : Nat) (v : BitVec 64) : Core :=
  if n = 0xB00 then { x with mcycle := v }
  else if n = 0x344 then x.setCsr n ((v &&& ~~~(0x800 : BitVec 64)) ||| (x.csrAt n &&& 0x800))
  else x.setCsr n v

-- physical memory protection: 16 entries (R367), as the RISC-V privileged architecture has them (PRESUMED, log entry 42)

/-- The configuration byte of a PMP entry: R, W, X in bits 0 to 2, the address mode in [4:3], L in bit 7. -/
def Core.pmpCfg (x : Core) (i : Nat) : Nat := fld (x.csrAt (0x3A0 + 2 * (i / 8))).toNat (8 * (i % 8)) 8

/-- How many of the low bits of a number are 1, up to a count. -/
def lowOnes : Nat → Nat → Nat
  | 0, _ => 0
  | n + 1, a => if a % 2 = 1 then lowOnes n (a / 2) + 1 else 0

/-- The addresses of a PMP entry: first, and one past its last; none where it is off. -/
def Core.pmpRange (x : Core) (i : Nat) : Option (Nat × Nat) :=
  let at_ (k : Nat) : Nat := (x.csrAt (0x3B0 + k)).toNat % 2 ^ 54
  match fld (x.pmpCfg i) 3 2 with
  | 0 => none
  | 1 => some (if i = 0 then 0 else 4 * at_ (i - 1), 4 * at_ i)
  | 2 => some (4 * at_ i, 4 * at_ i + 4)
  | _ =>
    let k := 2 ^ (lowOnes 54 (at_ i) + 1)
    some (at_ i / k * k * 4, (at_ i / k * k + k) * 4)

/-- The lowest entry that an access meets lets it through: all of it lies in the entry, whose R, W or X (`right` 0, 1, 2) is set; machine mode is held
to locked entries alone. One that meets none passes in machine mode. -/
def Core.pmpOk (x : Core) (user : Bool) (right a n : Nat) : Bool :=
  match (List.range 16).findSome? fun i => (x.pmpRange i).bind fun (lo, hi) => if a < hi ∧ lo < a + n then some (i, lo, hi) else none with
  | none => !user
  | some (i, lo, hi) => decide (lo ≤ a ∧ a + n ≤ hi) && ((!user && !bitOf (x.pmpCfg i) 7) || bitOf (x.pmpCfg i) right)

/-- The mode that data accesses are judged in: MPRV of mstatus puts MPP in the place of the current one. -/
def Core.dataUser (x : Core) : Bool :=
  let m := x.csrAt 0x300
  if m.getLsbD 17 then !m.getLsbD 11 else !x.machineMode

/-- What a core may access (R368): its TCM, the banks it reaches, its register view, the core port, the cellar. -/
def Dev.coreReaches (d : Dev) (c : BitVec 4) (a : Nat) : Bool :=
  let bank := (a - 0x10000000) / 2 ^ 20
  decide (a < 0x40000)
    || (decide (0x10000000 ≤ a ∧ a < 0x14000000) && decide (bank < (if c.toNat < 4 then 62 else d.sinkBanks)))
    || decide (0x20000000 ≤ a ∧ a < 0x20000000 + (if (d.core c).view = 0 then 0x4000000 else 0x10000))
    || decide (0x30000000 ≤ a ∧ a < 0x30000100)
    || decide (0x400000000 ≤ a ∧ a < 0x800000000)

/-- Atomic accesses that shared SRAM supports (R434): `amo` 1 is AMOADD or AMOSWAP of 32 or 64 bits, 2 another AMO, 3 LR or SC. -/
def amoOk (a : CoreAccess) : Bool :=
  a.amo == 0 || !decide (0x10000000 ≤ a.addr.toNat ∧ a.addr.toNat < 0x14000000) || (a.amo == 1 && decide (2 ≤ a.log2.toNat))

/-- An access that the core's map, its protection and the memory allow (R367, R368, R434). -/
def Dev.accessOk (d : Dev) (c : BitVec 4) (a : CoreAccess) : Bool :=
  let x := d.core c
  let n := 2 ^ a.log2.toNat
  d.coreReaches c a.addr.toNat && amoOk a
    && ((a.store && a.amo == 0) || x.pmpOk x.dataUser 0 a.addr.toNat n) && (!a.store || x.pmpOk x.dataUser 1 a.addr.toNat n)

/-- The core may fetch its next instruction (R367, R368). -/
def Dev.fetchOk (d : Dev) (c : BitVec 4) : Bool :=
  let x := d.core c
  d.coreReaches c x.pc.toNat && x.pmpOk (!x.machineMode) 2 x.pc.toNat 2

-- the cellar (R170, R368)

/-- An access in the cellar's range. -/
def inCellar (a : CoreAccess) : Bool := decide (0x400000000 ≤ a.addr.toNat ∧ a.addr.toNat < 0x800000000)

/-- The address in the cellar of such an access. -/
def cellarAddr (a : CoreAccess) : Nat := a.addr.toNat - 0x400000000

/-- A load of a core from the cellar, through its queue. -/
def Dev.cellarLoad (d : Dev) (c : BitVec 4) (a : CoreAccess) : Dev × Verdict × BitVec 1024 :=
  d.readLine .core (d.core c).queue (cellarAddr a / 128) (wantOf .core false) none a.line

/-- A store of a core to the cellar, through its queue. -/
def Dev.cellarStore (d : Dev) (c : BitVec 4) (a : CoreAccess) : Dev × Stored :=
  let at_ := cellarAddr a % 128
  let bits := 8 * 2 ^ a.log2.toNat
  d.writeLine .core (d.core c).queue (cellarAddr a / 128) (BitVec.ofNat 128 ((2 ^ 2 ^ a.log2.toNat - 1) * 2 ^ at_))
    (BitVec.ofNat 1024 (a.value.toNat % 2 ^ bits * 2 ^ (8 * at_))) a.line

/-- The cellar gives an access a bus error: verdicts 3 to 7 of a load (R170, R368), a store that is refused or not merged (R163, R174). -/
def Dev.cellarFails (d : Dev) (c : BitVec 4) (a : CoreAccess) : Bool :=
  inCellar a && if a.store then (d.cellarStore c a).2 != .ok else !(d.cellarLoad c a).2.1.passes

/-- What the access of an instruction does in the cellar, whether or not it ends in a bus error. -/
def Dev.cellarTouch (d : Dev) (c : BitVec 4) (x : Retired) : Dev :=
  match x with
  | .access a _ _ =>
    if !d.fetchOk c ∨ !d.accessOk c a ∨ !inCellar a then d
    else if a.store then (d.cellarStore c a).1 else (d.cellarLoad c a).1
  | _ => d

/-- A store of a core (R368, R380): TCM, shared SRAM and the post registers; for the cellar see `cellarStore`; what the register interface and the core
port's other registers do comes with their own commands. -/
def Dev.coreStore (d : Dev) (c : BitVec 4) (a : CoreAccess) : Dev :=
  let n := a.addr.toNat
  let bs := leBytes (2 ^ a.log2.toNat) a.value.toNat
  if n < 0x40000 then d.modCore c fun x => { x with tcm := Memory.writeN x.tcm n bs }
  else if 0x10000000 ≤ n ∧ n < 0x14000000 then d.modSram (·.put (n - 0x10000000) bs)
  else if n = 0x30000028 then d.modCore c fun x => { x with postArg := a.value }
  else if n = 0x30000030 then d.modCore c fun x => { x with postDl := a.value }
  else d

/-- The core port's TASK (R380): entry, handler, COUNT, source and its number, depth; all ones while no task runs. -/
def Dev.portTask (d : Dev) (c : BitVec 4) : BitVec 64 :=
  let st := (d.core c).stack
  match st.head?.bind d.task? with
  | none => BitVec.allOnes 64
  | some t =>
    let (kind, no) : Nat × Nat := match t.source with
      | .event e => (0, e.toNat) | .timer i => (1, i.toNat) | .post _ => (2, 0) | .descriptor => (3, 0)
    BitVec.ofNat 64 (t.entry + (d.tmpl t.tclass).handler.toNat * 2 ^ 12 + t.count.toNat * 2 ^ 20 + kind * 2 ^ 28 + no * 2 ^ 30 + st.length * 2 ^ 40)

/-- The core port as a core reads it (R380). -/
def Dev.portRead (d : Dev) (c : BitVec 4) (off : Nat) : BitVec 64 :=
  let t := (d.core c).stack.head?.bind d.task?
  match off with
  | 0x00 => d.portTask c
  | 0x08 => (t.map (·.arg)).getD 0
  | 0x10 => (t.map fun t => BitVec.ofNat 64 (d.deadline t / ns)).getD 0
  | _ => 0

/-- The bytes of a memory location or of a port register, sign- or zero-extended to 64 bits. -/
def extendBytes (a : CoreAccess) (n : Nat) : BitVec 64 :=
  let w := 8 * 2 ^ a.log2.toNat
  if a.signed then (BitVec.ofNat w n).signExtend 64 else (BitVec.ofNat w n).setWidth 64

/-- What a core loads (R368, R380): from its TCM, shared SRAM, the cellar and the core port as they stand; what the register view answers comes with
the command. -/
def Dev.coreLoad (d : Dev) (c : BitVec 4) (a : CoreAccess) : BitVec 64 :=
  let n := a.addr.toNat
  let k := 2 ^ a.log2.toNat
  if n < 0x40000 then extendBytes a (leNat (Memory.readN (d.core c).tcm n k))
  else if 0x10000000 ≤ n ∧ n < 0x14000000 then extendBytes a (leNat (d.strong.sram.fetch (n - 0x10000000) k))
  else if 0x30000000 ≤ n ∧ n < 0x30000100 then extendBytes a (d.portRead c (n - 0x30000000)).toNat
  else if inCellar a then extendBytes a ((d.cellarLoad c a).2.2 >>> (8 * (cellarAddr a % 128))).toNat
  else a.value

/-- What an access writes to its destination register: what it loads, an AMO what stood there before it, SC its success. -/
def Dev.accessResult (d : Dev) (c : BitVec 4) (a : CoreAccess) : Option (BitVec 64) :=
  if !a.store then some (d.coreLoad c a) else match a.amo.toNat with
    | 0 => none
    | 3 => some 0
    | _ => some (d.coreLoad c a)

/-- The packets of a retired instruction (R390, R391). -/
def Dev.traceRetired (d : Dev) (c : BitVec 4) (x : Retired) : Dev :=
  let s := d.stream c.toNat
  if !s.isOn then d
  else match x with
    | .branch taken _ _ =>
      let d := d.setStream c.toNat { s with branches := s.branches ++ [taken] }
      if (d.stream c.toNat).branches.length = 64 then d.flushBranches c else d
    | .jump true target _ _ => d.traceOne c 3 (leBytes 8 target.toNat)
    | .mret target => d.traceOne c 3 (leBytes 8 target.toNat)
    | .trap cause handler => d.traceOne c 4 (leBytes 8 cause.toNat ++ leBytes 8 (d.core c).pc.toNat ++ leBytes 8 handler.toNat)
    | .access a _ _ =>
      if s.data then
        let v := if a.store then a.value else d.coreLoad c a
        d.traceOne c 5 (leBytes 1 (bit a.store 0 + 2 * a.log2.toNat) ++ leBytes 8 a.addr.toNat ++ leBytes (2 ^ a.log2.toNat) v.toNat)
      else d
    | _ => d

/-- The length of an instruction. -/
def insnLen (compressed : Bool) : BitVec 64 := if compressed then 2 else 4

/-- What a retired instruction does to the core (R367). -/
def Dev.retireState (d : Dev) (c : BitVec 4) (x : Retired) : Dev :=
  let next (k : BitVec 64) (x : Core) : Core := { x with pc := x.pc + k }
  match x with
  | .plain rd v z => d.modCore c fun x => next (insnLen z) (x.setX rd v)
  | .branch taken target z => d.modCore c fun x => if taken then { x with pc := target } else next (insnLen z) x
  | .jump _ target rd link => d.modCore c fun x => { x.setX rd link with pc := target }
  | .access a rd z =>
    let v := d.accessResult c a
    let d := d.cellarTouch c x
    let d := if a.store then d.coreStore c a else d
    d.modCore c fun x => next (insnLen z) (match v with | some v => x.setX rd v | none => x)
  | .csr n v rd old => d.modCore c fun x => next 4 ((x.setX rd old).writeCsr n.toNat v)
  | .trap cause handler => d.modCore c fun x => x.enterTrap cause handler
  | .mret target => d.modCore c fun x => x.leaveTrap target

/-- What the check bits of the word of shared SRAM show that an access reads (R433): 0 where it reads none. -/
def Dev.sramFinding (d : Dev) (c : BitVec 4) (x : Retired) : Nat :=
  match x with
  | .access a _ _ =>
    if d.fetchOk c ∧ d.accessOk c a ∧ 0x10000000 ≤ a.addr.toNat ∧ a.addr.toNat < 0x14000000 ∧ (!a.store ∨ a.amo ≠ 0) then a.ecc.toNat else 0
  | _ => 0

/-- STRONG_SRAM_CNT_CE and _UE (R433): a corrected word counts, an uncorrectable one counts and raises EV0644. -/
def Dev.countSramEcc (d : Dev) (found : Nat) : Dev :=
  match found with
  | 1 => d.modSram fun m => { m with cnt := bumpAt m.cnt 0 }
  | 2 => (d.modSram fun m => { m with cnt := bumpAt m.cnt 1 }).raise 644
  | _ => d

/-- Where execution goes at an exception: mtvec's base. -/
def Core.handler (x : Core) : BitVec 64 := x.csrAt 0x305 &&& ~~~(3 : BitVec 64)

/-- An instruction that may not be fetched traps as cause 1. An access that R367, R368 or R434 forbids, that reads an uncorrectable word of shared
SRAM (R433), or that ends in a bus error of the cellar (R170) traps instead: a load as cause 5, a store as cause 7, to mtvec (log entry 42). -/
def Dev.asRetired (d : Dev) (c : BitVec 4) (x : Retired) : Retired :=
  match x with
  | .trap .. => x
  | .access a _ _ =>
    if !d.fetchOk c then .trap 1 (d.core c).handler
    else if d.accessOk c a ∧ d.sramFinding c x ≠ 2 ∧ !d.cellarFails c a then x
    else .trap (if a.store then 7 else 5) (d.core c).handler
  | _ => if d.fetchOk c then x else .trap 1 (d.core c).handler

/-- The data address of an access. -/
def dataAddr (x : Retired) : Option (BitVec 64) := match x with | .access a _ _ => some a.addr | _ => none

/-- CORE_INSTRUCTION (R390 to R394): a running core retires an instruction after a number of cycles. With STALL = 1 a customer core whose packets
do not fit does not retire it; while a post of its own waits for an entry it does not either (R380). -/
def Dev.coreInstruction (c : BitVec 4) (x : Retired) (cycles : BitVec 32) (d : Dev) : Dev :=
  let k := d.core c
  let posting : Bool := d.sched.waiting.any fun h => h.source == .post c
  if k.phase ≠ .run ∨ posting then d
  else
    let found := d.sramFinding c x
    let asked := x
    let x := d.asRetired c x
    let was := k.intEnabled
    let s0 := d.stream c.toNat
    let e := d.modCore c fun k => { k with mcycle := k.mcycle + cycles.setWidth 64 }
    let e := if s0.en then (e.traceFilter c (dataAddr x)).traceRetired c x else e
    if s0.en ∧ s0.stall ∧ 4 ≤ c.toNat ∧ s0.dropped.isNone ∧ (e.stream c.toNat).dropped.isSome then d
    else
      let e := ((if x = asked then e else e.cellarTouch c asked).retireState c x).countSramEcc found
      if !was ∧ (e.core c).intEnabled then e.preemptOn c.toNat else e
def execCoreInstruction (c : BitVec 4) (x : Retired) (cycles : BitVec 32) (s : State) : Host.Outcome State Fault Refusal :=
  run true (Dev.coreInstruction c x cycles) s

/-- CORE_WFI (R395): the core sleeps and mcycle stops (R367); a recording stream writes POWER_DOWN first. -/
def Dev.coreWfi (c : BitVec 4) (d : Dev) : Dev :=
  if (d.core c).phase ≠ .run then d
  else
    let d := if (d.stream c.toNat).isOn then
        let d := (d.flushBranches c).streamReserved c.toNat (leBytes 1 8 ++ leBytes 8 (d.core c).mcycle.toNat)
        d.setStream c.toNat { d.stream c.toNat with cycleBase := (d.core c).mcycle }
      else d
    d.modCore c fun x => { x with phase := .sleep, asleepSince := d.now, pc := x.pc + 4 }
def execCoreWfi (c : BitVec 4) (s : State) : Host.Outcome State Fault Refusal := run true (Dev.coreWfi c) s

/-- CORE_WAKE (R395): the core wakes after a time asleep in ns; a recording stream writes SYNC with REASON 2 and GAP. -/
def Dev.coreWake (c : BitVec 4) (asleep : BitVec 64) (d : Dev) : Dev :=
  let x := d.core c
  if x.phase ≠ .sleep then d
  else
    let d := d.reach (x.asleepSince + asleep.toNat * ns)
    let gap := (d.now - x.asleepSince) / ns
    let d := if (d.stream c.toNat).isOn then (d.sync c.toNat 2).streamReserved c.toNat (leBytes 1 9 ++ leBytes 8 gap) else d
    d.modCore c fun x => { x with phase := .run }
def execCoreWake (c : BitVec 4) (asleep : BitVec 64) (s : State) : Host.Outcome State Fault Refusal := run true (Dev.coreWake c asleep) s

/-- TRACE_SYNC_TIMER (R392): the periodic SYNC behind the first packet after 1 ms of tracing with the core awake. -/
def Dev.traceSyncTimer (c : BitVec 4) (d : Dev) : Dev :=
  let s := d.stream c.toNat
  if s.isOn ∧ (d.core c).phase = .run ∧ s.lastSync < s.pos then d.sync c.toNat 0 else d
def execTraceSyncTimer (c : BitVec 4) (s : State) : Host.Outcome State Fault Refusal := run true (Dev.traceSyncTimer c) s

/-- The streams whose registers are read-only, those of CC0 to CC3 (R407). -/
def streamFixed (i : Nat) : Bool := decide (i < 4)

/-- A write of a stream's RP (R389, R394): space returns. -/
def Dev.writeTraceRp (d : Dev) (i : Nat) (v : Word) : Dev :=
  if streamFixed i then d
  else
    let s := d.stream i
    (d.setStream i { s with rp := v }).streamRecover i
def execTraceRpWrite (q : Requester) (stream : BitVec 5) (v : Word) (s : State) : Host.Outcome State Fault Refusal :=
  run (decide (stream.toNat < 17)) (fun d => if d.isPf q then d.writeTraceRp stream.toNat v else d) s

-- start and hold

/-- A core starts at its boot address in machine mode (R369): its registers are cleared, and a stream that is enabled writes SYNC with REASON
4. -/
def Dev.startCore (d : Dev) (c : BitVec 4) : Dev :=
  let d := d.modCore c fun x =>
    { x with run := true, phase := .run, x := [], csr := [], pc := x.boot.setWidth 64, machineMode := true, mcycle := 0, wdogSince := d.now,
             postArg := 0, postDl := 0 }
  let s := d.stream c.toNat
  if s.en then
    (d.setStream c.toNat { s with isOn := s.mode == 0, branches := [] }).sync c.toNat 4
  else d

/-- The start of a customer core: its TCM is measured first (R369, R429). -/
def Dev.measureCore (d : Dev) (c : BitVec 4) : Dev :=
  let x := d.core c
  let h := sha3 (Memory.readN x.tcm 0 (256 * 1024))
  (d.setCore c { x with measurement := h }).measure { kind := 6, index := c.toNat, aux := x.boot.setWidth 64, hash := h }

/-- A write of CCORE_CFG (R369, R407). -/
def Dev.writeCoreCfg (d : Dev) (c : BitVec 4) (v : Word) : Dev :=
  let w := v.toNat
  let x := d.core c
  if c.toNat < 4 then d
  else
    let d := if x.run then d else d.setCore c { x with view := BitVec.ofNat 6 (fld w 24 6), queue := BitVec.ofNat 9 w }
    if bitOf w 31 = x.run then d
    else if bitOf w 31 then ((d.measureCore c).startCore c).refillAll.dispatchAll
    else ((d.modCore c fun x => { x with run := false, phase := .held }).abandon c).unmeasure 6 c.toNat

/-- CORE_RUN and CORE_HOLD (R369): writes of CCORE_CFG with RUN = 1 and 0. -/
def execCoreRun (q : Requester) (c : BitVec 4) (v : Word) (s : State) : Host.Outcome State Fault Refusal :=
  run true (fun d => if d.isPf q ∧ bitOf v.toNat 31 then d.writeCoreCfg c v else d) s
def execCoreHold (q : Requester) (c : BitVec 4) (v : Word) (s : State) : Host.Outcome State Fault Refusal :=
  run true (fun d => if d.isPf q ∧ !bitOf v.toNat 31 then d.writeCoreCfg c v else d) s

/-- An access of CCORE_LDD (R369, R407): the word at LDA is stored or read, and LDA advances; neither while RUN = 1. -/
def Dev.accessLdd (d : Dev) (c : BitVec 4) (write : Option Word) : Dev × Word :=
  let x := d.core c
  if x.run ∨ c.toNat < 4 then (d, 0)
  else
    let a := x.lda.toNat
    let v := match write with | some _ => 0 | none => BitVec.ofNat 32 (Memory.readLe x.tcm a 4)
    let tcm := match write with | some w => Memory.writeN x.tcm a (leBytes 4 w.toNat) | none => x.tcm
    (d.setCore c { x with tcm, lda := x.lda + 4 }, v)
def Dev.coreLoadData (q : Requester) (c : BitVec 4) (write : Option Word) (d : Dev) : Dev :=
  match write with
  | some w => if d.isPf q then (d.accessLdd c (some w)).1 else d
  | none =>
    let (e, v) := if d.isPf q then d.accessLdd c none else (d, 0)
    e.emit (.read q v)
def execCoreLoadData (q : Requester) (c : BitVec 4) (write : Option Word) (s : State) : Host.Outcome State Fault Refusal :=
  run true (Dev.coreLoadData q c write) s

-- watchdogs

/-- KICK (R370, R380). -/
def execKick (c : BitVec 4) (s : State) : Host.Outcome State Fault Refusal :=
  run true (fun d => if (d.core c).able then d.modCore c fun x => { x with wdogSince := d.now } else d) s

/-- The active firmware pair fails (R373): the standby pair takes over with the firmware it holds, the tasks of the failed pair are created again
on it, accepted descriptors go on, and the failed pair is loaded and stands by. -/
def Dev.failover (d : Dev) : Dev :=
  let failed := d.cores.activePair
  let es := failed.flatMap fun c => (d.coreAt c).stack
  let d := d.each failed fun d c => d.modCoreAt c fun x => { x with stack := [] }
  let d := d.each es fun d e => d.setPhase e .pending
  let d := d.modCores fun c =>
    let c := { c with activeB := !c.activeB, secver := c.sbSecver, version := c.sbVersion, hash := c.sbHash }
    if c.pendingFw.isSome then c else c.reloadStandby
  let d := d.measure { kind := 2, index := 0, secver := d.cores.secver.toNat, aux := d.cores.version.setWidth 64, hash := d.cores.hash }
  let d := d.each (Tbl.keys d.rings.pairs) fun d k => if (d.ring (BitVec.ofNat 9 k)).en then d.rewindPair (BitVec.ofNat 9 k) else d
  let d := d.each failed fun d c => d.startCore (BitVec.ofNat 4 c)
  d.dispatchAll

/-- WATCHDOG_EXPIRY (R370, R373, R405): a customer core restarts from BOOT; a firmware core's pair fails. -/
def Dev.watchdogExpiry (c : BitVec 4) (d : Dev) : Dev :=
  let x := d.core c
  if c.toNat < 4 then
    let pairB : Bool := decide (2 ≤ c.toNat)
    if !x.able then d
    else
      let d := (d.modCore c fun x => { x with cnt := bumpAt x.cnt 1 }).raise (if pairB then 482 else 480)
      if pairB = d.cores.activeB then d.failover else d.modCores fun k => { k with sb := .failed, handover := false }
  else if !x.wdogEn ∨ !x.able then d
  else
    let d := d.reach (x.wdogSince + max 1 x.wdogPeriod.toNat * 1000 * ns)
    let d := (d.modCore c fun x => { x with cnt := bumpAt x.cnt 1, phase := .reset }).raise (480 + c.toNat)
    ((d.abandon c).startCore c).refillAll.dispatchAll
def execWatchdogExpiry (c : BitVec 4) (s : State) : Host.Outcome State Fault Refusal := run true (Dev.watchdogExpiry c) s

-- registers (R407)

def coreCode : CorePhase → Nat
  | .held => 0 | .run => 1 | .sleep => 2 | .reset => 3
def standbyCode : Standby → Nat
  | .none => 0 | .loading => 1 | .ready => 2 | .failed => 3

/-- The sink holds no further ordinary packet (R389, R394). -/
def Stream.full (s : Stream) : Bool := s.en && (s.dropped.isSome || decide (s.avail ≤ 64))

/-- A stream's registers, numbered as a core's from +0x40 (R407). -/
def Stream.reg (s : Stream) (off : Nat) : Nat :=
  match off with
  | 0x44 => s.base.toNat % 2 ^ 32
  | 0x48 => s.base.toNat / 2 ^ 32
  | 0x4C => s.size.toNat
  | 0x50 => s.wp.toNat
  | 0x54 => s.rp.toNat
  | 0x58 => bit s.full 31 + bit s.isOn 30
  | 0x5C => s.daddr.toNat * 2 ^ 24 + s.act.toNat
  | _ => 0

def Dev.readCoreReg (d : Dev) (c : BitVec 4) (off : Nat) : Option Word :=
  let x := d.core c
  let s := d.stream c.toNat
  let w (n : Nat) : Option Word := some (BitVec.ofNat 32 n)
  let half (v : BitVec 64) : Option Word := w (if off % 8 = 0 then v.toNat % 2 ^ 32 else v.toNat / 2 ^ 32)
  if off % 4 ≠ 0 then none
  else if off = 0x00 then w (bit x.run 31 + x.view.toNat * 2 ^ 24 + x.queue.toNat)
  else if off = 0x04 then w (coreCode x.phase * 2 ^ 30 + x.stack.length * 2 ^ 27 + x.stack.headD 0)
  else if off = 0x08 then w x.boot.toNat
  else if off = 0x0C then w (bit x.wdogEn 31 + x.wdogPeriod.toNat)
  else if off = 0x10 then w (if x.run then 0 else x.lda.toNat)
  else if off = 0x14 then w 0
  else if off = 0x18 ∨ off = 0x1C then some (Tbl.get {} x.cnt ((off - 0x18) / 4)).toWord
  else if off = 0x20 then some s.cntOvf.toWord
  else if off = 0x24 then w 0
  else if off = 0x40 then
    w (bit s.en 31 + bit s.cyc 30 + bit s.data 29 + bit s.stall 28 + s.mode.toNat * 2 ^ 26 + s.rngen.toNat * 2 ^ 22 + bit s.sink 21 + s.queue.toNat * 4096)
  else if 0x44 ≤ off ∧ off < 0x60 then w (s.reg off)
  else if 0x80 ≤ off ∧ off < 0xC0 then half (Tbl.get 0 s.cmp ((off - 0x80) / 8))
  else if 0xC0 ≤ off ∧ off < 0x100 then
    let r := (off - 0xC0) / 16
    if off % 16 < 8 then half (Tbl.get 0 s.rngStart r) else half (Tbl.get 0 s.rngStop r)
  else none

/-- A write of a stream's sink registers (R407). -/
def Stream.write (s : Stream) (off : Nat) (v : Word) : Stream :=
  let w := v.toNat
  match off with
  | 0x44 => if s.en then s else { s with base := setLo s.base v }
  | 0x48 => if s.en then s else { s with base := setHi s.base v }
  | 0x4C => if s.en then s else { s with size := v, wp := 0 }
  | 0x5C => { s with daddr := BitVec.ofNat 8 (fld w 24 8), act := BitVec.ofNat 24 w }
  | _ => s

/-- A write of CCORE_TR_CTL or CCORE_DTR_CTL (R393, R407): sink and queue only while EN = 0. -/
def Dev.writeTrCtl (d : Dev) (i : Nat) (v : Word) : Dev :=
  let w := v.toNat
  let s := d.stream i
  let d := if s.en ∧ !bitOf w 31 ∧ i < 16 ∧ s.isOn then d.flushBranches (BitVec.ofNat 4 i) else d
  let s := d.stream i
  let on := bitOf w 31
  let t : Stream := if s.en then s else { s with sink := bitOf w 21, queue := BitVec.ofNat 9 (fld w 12 9) }
  let t := if i < 16 then
      { t with en := on, cyc := bitOf w 30, data := bitOf w 29, stall := bitOf w 28, mode := BitVec.ofNat 2 (fld w 26 2), rngen := BitVec.ofNat 4 (fld w 22 4) }
    else { t with en := on, kinds := BitVec.ofNat 4 (fld w 24 4), filter := BitVec.ofNat 16 w }
  let always : Bool := decide (i = 16) || t.mode == 0
  let d := d.setStream i { t with isOn := on && (if s.en then s.isOn || always else always) }
  if on ∧ !s.en ∧ always then d.sync i 1 else d

def Dev.writeCoreReg (d : Dev) (c : BitVec 4) (off : Nat) (v : Word) : Dev :=
  let w := v.toNat
  let i := c.toNat
  let half (o : BitVec 64) : BitVec 64 := if off % 8 = 0 then setLo o v else setHi o v
  let modS (f : Stream → Stream) : Dev := d.setStream i (f (d.stream i))
  if i < 4 then d
  else if off = 0x00 then d.writeCoreCfg c v
  else if off = 0x08 then d.modCore c fun x => { x with boot := BitVec.ofNat 18 (w / 2 * 2) }
  else if off = 0x0C then d.modCore c fun x => { x with wdogEn := bitOf w 31, wdogPeriod := BitVec.ofNat 24 w, wdogSince := d.now }
  else if off = 0x10 then (if (d.core c).run then d else d.modCore c fun x => { x with lda := BitVec.ofNat 18 (w / 4 * 4) })
  else if off = 0x14 then (d.accessLdd c (some v)).1
  else if off = 0x24 then
    let d := d.modCore c fun x => { x with cnt := clearBits x.cnt w 2 }
    if bitOf w 2 then d.setStream i { d.stream i with cntOvf := {} } else d
  else if off = 0x40 then d.writeTrCtl i v
  else if off = 0x54 then d.writeTraceRp i v
  else if 0x44 ≤ off ∧ off < 0x60 then modS fun s => s.write off v
  else if 0x80 ≤ off ∧ off < 0xC0 then modS fun s => { s with cmp := Tbl.modify 0 s.cmp ((off - 0x80) / 8) half }
  else if 0xC0 ≤ off ∧ off < 0x100 then
    let r := (off - 0xC0) / 16
    modS fun s => if off % 16 < 8 then { s with rngStart := Tbl.modify 0 s.rngStart r half } else { s with rngStop := Tbl.modify 0 s.rngStop r half }
  else d

/-- Where a device stream register stands among a core's: 0x1000 CTL, then BASE to STATUS. -/
def dtrOff (off : Nat) : Nat := 0x40 + (off - 0x1000)

def Dev.readCcoreReg (d : Dev) (off : Nat) : Option Word :=
  let s := d.stream 16
  let c := d.cores
  let w (n : Nat) : Option Word := some (BitVec.ofNat 32 n)
  if off % 4 ≠ 0 then none
  else if off < 0x1000 then d.readCoreReg (BitVec.ofNat 4 (off / 0x100)) (off % 0x100)
  else if off = 0x1000 then w (bit s.en 31 + s.kinds.toNat * 2 ^ 24 + bit s.sink 21 + s.queue.toNat / 16 * 65536 + s.filter.toNat)
  else if 0x1004 ≤ off ∧ off < 0x101C then w (s.reg (dtrOff off))
  else if off = 0x101C then some s.cntOvf.toWord
  else if off = 0x1020 then w 0
  else if off = 0x1100 then w (bit c.activeB 31 + standbyCode c.sb * 2 ^ 29 + bit c.handover 28 + c.secver.toNat)
  else if off = 0x1104 then some c.version
  else none

def Dev.writeCcoreReg (d : Dev) (off : Nat) (v : Word) : Dev :=
  if off < 0x1000 then d.writeCoreReg (BitVec.ofNat 4 (off / 0x100)) (off % 0x100) v
  else if off = 0x1000 then d.writeTrCtl 16 v
  else if off = 0x1014 then d.writeTraceRp 16 v
  else if 0x1004 ≤ off ∧ off < 0x1010 then d.setStream 16 ((d.stream 16).write (dtrOff off) v)
  else if off = 0x1020 then (if bitOf v.toNat 2 then d.setStream 16 { d.stream 16 with cntOvf := {} } else d)
  else d

end Sys2Proof.Machine
end

