-- ==== Sys2Proof/Machine/Fuse.lean ====
section
/-! DEFINITION. The fuse box: classification, latches and reactions, forced egress, acknowledge, release, the log, and the FUSE registers
(14_fuse_box.md R409 to R426). -/

namespace Sys2Proof.Machine
open Sys2Proof

def Dev.modFuse (d : Dev) (f : Fuse → Fuse) : Dev := { d with fuse := f d.fuse }
def Dev.src (d : Dev) (ev : Nat) : FuseSrc := Tbl.get {} d.fuse.srcs ev
def Dev.modSrc (d : Dev) (ev : Nat) (f : FuseSrc → FuseSrc) : Dev := d.modFuse fun x => { x with srcs := Tbl.modify {} x.srcs ev f }

/-- FUSE counters: 0 ACKREF, 1 LOGDROP, 2 LATE (R426). -/
def Dev.countFuse (d : Dev) (n : Nat) : Dev := d.modFuse fun x => { x with cnt := bumpAt x.cnt n }

-- window counts

/-- The slice length of a window setting, W_k / 16 in 2^-32 ns (R410, R411). -/
def sliceLen (k : BitVec 6) : Nat :=
  let n := k.toNat
  if n = 63 then 225 * 10 ^ 9 * 2 ^ 32
  else if n % 2 = 0 then 125 * 2 ^ 31 * 2 ^ (n / 2)
  else 375 * 2 ^ 30 * 2 ^ (n / 2)

/-- N as it acts: 0 acts as 1 (R426). -/
def FuseSrc.threshold (x : FuseSrc) : Nat := max 1 x.n.toNat

/-- The latest slice that a source has an occurrence in, or the slice of an instant after it. -/
def FuseSrc.latest (x : FuseSrc) (t : Instant) : Nat := (x.slices.map (·.1)).foldl max (t / sliceLen x.win)

/-- The window count: the latest slice and the 15 before it (R411). -/
def FuseSrc.count (x : FuseSrc) (t : Instant) : Nat :=
  min 255 ((x.slices.filter fun e => decide (x.latest t < e.1 + 16)).map (·.2)).sum

/-- An occurrence counts in the slice of its timestamp; slices out of the window are forgotten. -/
def FuseSrc.add (x : FuseSrc) (t : Instant) : FuseSrc :=
  let i := t / sliceLen x.win
  let l := x.latest t
  let old := match x.slices.find? (·.1 == i) with | some (_, n) => n | none => 0
  { x with slices := (i, old + 1) :: (x.slices.filter fun e => e.1 != i && decide (l < e.1 + 16)) }

-- the log (R422)

/-- Free entries of the log: WP = RP means empty. -/
def Fuse.logFree (x : Fuse) : Nat := (x.rp - x.wp - 1).toNat

/-- The bytes of a log entry. -/
def logBytes (kind ev : Nat) (ts : Instant) (count react : Nat) (beat : Beat) (detail : BitVec 64) : Bytes :=
  leBytes 8 (ts / ns) ++ leBytes 2 (ev + kind * 4096) ++ leBytes 1 count ++ leBytes 1 react ++ leBytes 4 0
    ++ leBytes 8 beat.toNat ++ leBytes 8 detail.toNat

/-- The address of a log entry in shared SRAM: bank 56. -/
def logAddr (i : BitVec 12) : Nat := 56 * 2 ^ 20 + 32 * i.toNat

/-- Write a log entry; an OCCURRENCE (KIND 0) leaves 64 entries free, and what does not fit is dropped and counted. -/
def Dev.logFuse (d : Dev) (kind ev : Nat) (ts : Instant) (count react : Nat) (beat : Beat) (detail : BitVec 64) : Dev :=
  if (if kind = 0 then 64 else 0) < d.fuse.logFree then
    let d := d.modSram (·.put (logAddr d.fuse.wp) (logBytes kind ev ts count react beat detail))
    d.modFuse fun x => { x with wp := x.wp + 1 }
  else d.countFuse 1

-- scopes (R414)

/-- Reaction bits that a source's range has (R414): ISOLATE_ROOM for rooms, ISOLATE_LANE for lanes, RESET_UNIT where a unit is named. -/
def reactMask (ev : Nat) : BitVec 8 :=
  let iso : Nat := if ev < 256 then 0x08 else if ev < 352 then 0x10 else 0
  let rst : Nat := if ev < 392 ∨ (448 ≤ ev ∧ ev < 480) ∨ (484 ≤ ev ∧ ev < 512) ∨ (832 ≤ ev ∧ ev < 896) then 0x40 else 0
  BitVec.ofNat 8 (0xA7 + iso + rst)

/-- The legs of a flow, as port and subport. -/
def Dev.flowLegs (d : Dev) (i : Nat) : List (Nat × Nat) :=
  let r := (d.flow i).record
  (r.legA.port, r.legA.sub) :: (if r.legB.isSet then [(r.legB.port, r.legB.sub)] else [])

/-- A function's flows: receive flows of its feeds, transmit flows (from 1024) of its drains. -/
def Func.flows (f : Func) : List Nat :=
  f.obj.bindings.filterMap fun b =>
    let feed := Tbl.get 0 f.ends.feeds b.num
    if b.type = 1 ∧ refKind feed = 1 then some (refNum feed)
    else if b.type = 2 then (match refEgress (Tbl.get 0 f.ends.drains b.num) with | some e => if e < 1024 then some (1024 + e) else none | none => none)
    else none

/-- A function is bound to an SDI engine: a receiver, a transmitter, or either. -/
def Func.onSdi (f : Func) (s : Nat) (rx tx : Bool) : Bool :=
  f.obj.bindings.any fun b =>
    let feed := Tbl.get 0 f.ends.feeds b.num
    (rx && b.type == 1 && refKind feed == 2 && refNum feed == s) || (tx && b.type == 2 && refEgress (Tbl.get 0 f.ends.drains b.num) == some (1024 + s))

/-- A function has REMOTE bindings over a bundle: the way to a target, or to a device whose decisions it needs (R265, R272). -/
def Dev.remoteOver (d : Dev) (f : Func) (b : Nat) : Bool :=
  let via (dev : BitVec 11) : Bool := match d.routeTo dev with | some w => w.bundle.toNat == b | none => false
  (f.obj.bindings.any fun x => x.type == 4 && !x.dirIn && via (rtDev (Tbl.get 0 f.ends.remotes x.num)))
    || d.link.deps.any fun x => x.func == f.id && via x.dev

/-- A function uses a serial lane (R414): through a flow on its subport, its SDI engine, or its bundle. -/
def Dev.usesLane (d : Dev) (f : Func) (l : Nat) : Bool :=
  let onPort := l < 32 && (f.flows.any fun i => (d.flowLegs i).any fun (p, s) => decide (l ∈ subLanes (d.eth p) p s) && (d.eth p).en)
  let onSdi := d.media.sdi.any fun (s, _) => f.onSdi s (decide (l ∈ d.rxLanes s)) (decide (l ∈ d.txLanes s))
  let onBd := match (d.laneOwner l).bind (·.bundle) with | some b => d.remoteOver f b | none => false
  onPort || onSdi || onBd

/-- A room lies on a ring: corridor k is row k, stair c column c (R132). -/
def onRing (ring : Nat) (r : RoomId) : Bool := if ring < 16 then r.toNat / 16 == ring else r.toNat % 16 == ring - 16

/-- The function has a hub port of a fabric block (R213, R215). -/
def Func.hasPort (f : Func) (p : Nat) : Bool :=
  let ref := BitVec.ofNat 32 (4 * 2 ^ 28 + p)
  f.obj.bindings.any fun b => (b.type == 3 && Tbl.get 0 f.ends.hubports b.num == ref) || (b.type == 2 && Tbl.get 0 f.ends.drains b.num == ref)

/-- A function is in the scope of ROLLBACK_BEAT for a source (R414). -/
def Dev.inScope (d : Dev) (ev : Nat) (f : Func) : Bool :=
  if ev < 256 then (d.room (BitVec.ofNat 8 ev)).func == f.id
  else if ev < 352 then d.usesLane f (ev - 256)
  else if ev < 360 then f.flows.any fun i => (d.flowLegs i).any (·.1 == ev - 352)
  else if ev < 392 then f.onSdi (ev - 360) true true
  else if ev < 424 then f.flows.any fun i => flowEvent i == ev
  else if ev < 448 then f.obj.rooms.any fun r => !r.streams.isEmpty
  else if ev < 480 then f.rooms.any (onRing (ev - 448))
  else if ev < 512 then false
  else if ev < 576 then f.hasPort (ev - 512)
  else if ev < 768 then true
  else if ev < 832 then false
  else if ev < 896 then d.remoteOver f (ev - 832)
  else f.hasPort ((ev - 896) / 2)

-- forced egress (R419, R420)

/-- Latched sources whose forces have taken effect. -/
def Fuse.forcing (x : Fuse) : List FuseSrc :=
  (x.srcs.filter fun (n, s) => s.latched && !(x.forces.any fun p => p.src.toNat == n)).map (·.2)

/-- The egress groups that forces in effect cover, and whether one of them is DEVICE_SAFE. -/
def forceGroups (l : List FuseSrc) : BitVec 32 × Bool :=
  (l.foldl (fun a s => if s.held.getLsbD 2 then a ||| s.heldEg else a) 0, l.any fun s => s.held.getLsbD 7)

/-- An egress is covered by the groups forced (R419): FUSE_EGMAP's EN and GROUP. -/
def Fuse.covers (x : Fuse) (groups : BitVec 32) (all : Bool) (e : Nat) : Bool :=
  let m := Tbl.get (0 : BitVec 6) x.egmap e
  all || (m.getLsbD 5 && groups.getLsbD (m.toNat % 32))

/-- Order or lift the forces of every egress as the latched sources now have it: a lifted force leaves from the next beat's window on (R220),
at once while the generator stands; DEVICE_SAFE holds the user I/O. -/
def Dev.reforce (d : Dev) : Dev :=
  let (groups, all) := forceGroups d.fuse.forcing
  let n := d.time.n + 1
  let run := d.time.run
  let d := d.each (List.range 1056) fun d e =>
    let want := d.fuse.covers groups all e
    let x := d.egr e
    if want = x.forceWant then d
    else if want then d.setEgr e { x with forceWant := true, liftBeat := none }
    else if run then d.setEgr e { x with forceWant := false, liftBeat := if x.forced then some n else none }
    else d.setEgr e { x with forceWant := false, forced := false, liftBeat := none }
  d.putFabric { d.fabric with ioHeld := all }

-- reactions (R413 to R418)

/-- ISOLATE_ROOM (R416, R336): every beat of the room's function rolls back; a migration with the room among its targets aborts. -/
def Dev.isolateRoom (d : Dev) (r : RoomId) : Dev :=
  let d := d.modRoom r fun x => { x with isolated := true }
  let hit (m : Migration) : Migration := if m.failed.isNone ∧ (m.places.any fun p => p.room == r) then { m with failed := some 2 } else m
  (d.putFuse { d.fuse with exits := d.fuse.exits.filter fun x => x.room != r }).putFuncs (d.funcs.map fun f => { f with migration := f.migration.map hit })

/-- The SDI engine's receiver loses its lock. -/
def Dev.sdiStop (d : Dev) (s : Nat) : Dev := d.sdiLockChange (BitVec.ofNat 5 s) false {}

/-- ISOLATE_LANE (R417), by the lane's owner. -/
def Dev.isolateLane (d : Dev) (l : Nat) : Dev :=
  let owner := d.laneOwner l
  let d := match owner.bind (·.bundle) with | some b => d.degrade b (l % 8) | none => d
  let d := (d.modLane l fun x => { x with isolated := true }).laneTx l
  let d := if (d.lane l).phase = .off ∨ (d.lane l).phase = .sleep then d else d.lanePhase l .off
  match owner.map (·.proto) with
  | some 1 =>
    let n := l / 4
    d.subportUpDown (BitVec.ofNat 3 n) (if (d.eth n).mode = 0 then 0 else BitVec.ofNat 2 l) false
  | some 2 => d.each (d.media.sdi.filter fun (_, x) => x.rxen && x.rxlane.toNat == l) fun d (s, _) => d.sdiStop s
  | _ => d

/-- ROLLBACK_BEAT (R415): every function in scope rolls the affected beat back; where the arbiter has decided it already, the decision stands
and the order is logged as late. -/
def Dev.orderRollback (d : Dev) (o : Occ) : Dev :=
  let ev := o.ev.toNat
  let fs := d.admitted.filter fun f => decide (f.since ≤ o.beat) && d.time.run && d.inScope ev f
  let inTime (f : Func) : Bool := o.beat == d.time.n && f.decided.isNone
  let d := d.each (fs.filter inTime) fun d f => d.modFunc f.id fun g => { g with ordered := true }
  if fs.any fun f => !inTime f then
    (d.countFuse 2).logFuse 4 ev o.ts ((d.src ev).count o.ts) 0x20 o.beat o.detail
  else d

/-- A room holds a function: bound, reserved for one, or a target of a migration (R418). -/
def Dev.roomHeld (d : Dev) (r : RoomId) : Bool := (d.room r).func != 0xFFFF || d.funcs.any fun f => f.phase != .retiring && f.allPlaces.any (·.room == r)

/-- A reset room: data stores, window, slices and write queue cleared (R418). -/
def Room.reset (rm : Room) : Room :=
  { rm with bps := Tbl.mapAll {} rm.bps (fun p => { p with scratch := [], committed := [], working := [], ahead := [] }), win := [], slices := [],
            wq := [], wqAhead := [], ueDs := [] }

/-- RESET_UNIT (R414, R418), by range. -/
def Dev.resetUnit (d : Dev) (ev : Nat) : Dev :=
  if ev < 256 then
    let r := BitVec.ofNat 8 ev
    if d.roomHeld r then (d.isolateRoom r).modSrc ev fun x => { x with rstpend := true, held := x.held ||| 0x08 } else d.modRoom r Room.reset
  else if ev < 352 then
    let l := ev - 256
    if (d.lane l).phase = .up then d.laneLoss l { lane := BitVec.ofNat 7 l } else if (d.lane l).phase = .align then d.lanePhase l .cdr else d
  else if ev < 360 then d.each (List.range 4) fun d s => d.subportUpDown (BitVec.ofNat 3 (ev - 352)) (BitVec.ofNat 2 s) false
  else if ev < 392 then d.sdiStop (ev - 360)
  else if ev < 480 then
    d.modNet fun n => { n with links := n.links.map fun (i, s) => (i, if i / 64 = ev - 448 ∧ s.down then { s with retrains := 0, trained := false } else s) }
  else if ev < 496 then
    let c := BitVec.ofNat 4 (ev - 480)
    if (d.core c).run then ((d.modCore c fun x => { x with phase := .reset }).abandon c |>.startCore c).refillAll.dispatchAll else d
  else if ev < 512 then d.acqDisarm (ev - 496)
  else if ev < 848 then d.bundleDown (ev - 832)
  else d

/-- The latch (R413): logged, then every reaction of the source is applied. -/
def Dev.latch (d : Dev) (o : Occ) : Dev :=
  let ev := o.ev.toNat
  let x := d.src ev
  let re := x.react &&& reactMask ev
  let idx := d.fuse.wp
  let d := d.logFuse 1 ev o.ts (x.count o.ts) re.toNat o.beat o.detail
  let d := d.modSrc ev fun x => { x with latched := true, held := re &&& 0x9C, heldEg := x.egmask }
  let d := if re.getLsbD 1 then
      d.newTask (.event o.ev) x.tclass (BitVec.ofNat 64 (idx.toNat + ev * 65536)) (d.dueOf x.tclass (o.ts / ns)) o.ts
    else d
  let d := if re.getLsbD 2 ∨ re.getLsbD 7 then
      (if x.beatcls ∧ d.time.run then d.modFuse fun f => { f with forces := f.forces ++ [{ src := o.ev }] } else d.reforce)
    else d
  let d := if re.getLsbD 3 then d.isolateRoom (BitVec.ofNat 8 ev) else d
  let d := if re.getLsbD 4 then d.isolateLane (ev - 256) else d
  let d := if re.getLsbD 5 then d.orderRollback o else d
  if re.getLsbD 6 then d.resetUnit ev else d

/-- An occurrence is classified (R409, R411, R413): counted, then the latch, or the entries and orders of a source that is latched or not yet
severe. -/
def Dev.classify (d : Dev) (o : Occ) : Dev :=
  let ev := o.ev.toNat
  let d := d.modSrc ev (·.add o.ts)
  let x := d.src ev
  let re := x.react &&& reactMask ev
  if !x.latched ∧ x.threshold ≤ x.count o.ts then d.latch o
  else
    let done := re &&& (if x.latched then 0x21 else 0x01)
    let d := if done = 0 then d else d.logFuse 0 ev o.ts (x.count o.ts) done.toNat o.beat o.detail
    if done.getLsbD 5 then d.orderRollback o else d

/-- FUSE_CLASSIFY (R409): the first occurrence of the reorder window leaves it, 1 µs after its timestamp. -/
def Dev.fuseClassify (d : Dev) : Dev :=
  match d.fuse.window with
  | [] => d
  | o :: rest => ((d.modFuse fun x => { x with window := rest }).reach (o.ts + 1000 * ns)).classify o
def execFuseClassify (s : State) : Host.Outcome State Fault Refusal := run true Dev.fuseClassify s

-- acknowledge and release

/-- A source is live (R421): its live status shows a cause, or its window count is N or more. -/
def Dev.srcLive (d : Dev) (ev : Nat) : Bool :=
  let x := d.src ev
  d.liveStatus ev == some true || decide (x.threshold ≤ x.count d.now)

/-- The room of a source returns to service: at the next boundary, or at once while no beat runs (R421). -/
def Dev.releaseRoom (d : Dev) (r : RoomId) : Dev :=
  if d.time.run then d.modFuse fun x => { x with exits := x.exits ++ [{ room := r }] } else d.modRoom r fun x => { x with isolated := false }

/-- FUSE_ACK (R420, R421): the acknowledge is accepted only where the source is latched and not live. -/
def Dev.ack (d : Dev) (ev : Nat) : Dev :=
  let x := d.src ev
  let n := x.count d.now
  if !x.latched ∨ d.srcLive ev then (d.countFuse 0).logFuse 3 ev d.now n 0 d.time.n 0
  else
    let d := (d.modSrc ev fun y => { y with latched := false, held := 0, heldEg := 0 }).modFuse fun f => { f with forces := f.forces.filter fun p => p.src.toNat != ev }
    let d := if x.held.getLsbD 2 ∨ x.held.getLsbD 7 then d.reforce else d
    let d := if x.held.getLsbD 3 then d.releaseRoom (BitVec.ofNat 8 ev) else d
    let d := if x.held.getLsbD 4 then (d.modLane (ev - 256) fun y => { y with isolated := false }).laneStart (ev - 256) else d
    d.logFuse 2 ev d.now n 0 d.time.n 0

/-- A write of FUSE_ACK; only the PF writes the block. -/
def Dev.writeFuseAck (d : Dev) (v : Word) : Dev := if bitOf v.toNat 31 then d.ack (v.toNat % 1024) else d
def execFuseAck (q : Requester) (v : Word) (s : State) : Host.Outcome State Fault Refusal :=
  run true (fun d => if d.isPf q then d.writeFuseAck v else d) s

/-- FUSE_RELEASE (R300, R412, R424): window counts are empty, and every source that is live by its status counts one occurrence; a user event signal
that is still 1 raises its event. -/
def Dev.fuseRelease (d : Dev) : Dev :=
  if d.fuse.released then d
  else
    let d := d.modFuse fun x => { x with released := true, window := [], srcs := Tbl.mapAll {} x.srcs fun s => { s with slices := [] } }
    let d := d.logFuse 5 0 d.now 0 0 d.time.n 0
    d.each ((List.range 1024).filter fun ev => d.liveStatus ev == some true) fun d ev =>
      if 896 ≤ ev then d.raise ev else d.fuseReceive { ev := BitVec.ofNat 10 ev, ts := d.now, beat := d.time.n }
def execFuseRelease (s : State) : Host.Outcome State Fault Refusal := run true Dev.fuseRelease s

/-- The fuse box at a boundary (R420, R421): forces of timing class beat take effect, isolations that were acknowledged end. -/
def Dev.fuseAtBoundary (d : Dev) : Dev :=
  let d := d.each d.fuse.exits fun d x => d.modRoom x.room fun r => { r with isolated := false }
  let d := d.modFuse fun x => { x with exits := [] }
  if d.fuse.forces.isEmpty then d else (d.modFuse fun x => { x with forces := [] }).reforce

/-- A warm reset (R425): configurations, latches, held reactions and the log are kept, window counts empty. -/
def Dev.fuseWarm (d : Dev) : Dev :=
  d.modFuse fun x => { x with released := false, window := [], srcs := Tbl.mapAll {} x.srcs fun s => { s with slices := [] } }

-- registers (R426)

def Dev.readFuseReg (d : Dev) (off0 : Nat) : Option Word :=
  let off := off0 % 0x8000
  let x := d.fuse
  let w (n : Nat) : Option Word := some (BitVec.ofNat 32 n)
  let lat (n : Nat) : Bool := (d.src n).latched
  let latched := (x.srcs.filter (·.2.latched)).map (·.2)
  if off % 4 ≠ 0 then none
  else if off = 0 then w (bit x.released 31 + bit (latched.any (·.held.getLsbD 7)) 30 + latched.length)
  else if off = 4 then some (forceGroups latched).1
  else if off = 8 ∨ off = 0x4C then w 0
  else if off = 0x10 then w x.wp.toNat
  else if off = 0x14 then w x.rp.toNat
  else if off = 0x18 then w x.idx.toNat
  else if 0x20 ≤ off ∧ off < 0x40 then w (leNat (d.strong.sram.fetch (logAddr x.idx + (off - 0x20)) 4))
  else if 0x40 ≤ off ∧ off < 0x4C then some (Tbl.get {} x.cnt ((off - 0x40) / 4)).toWord
  else if 0x100 ≤ off ∧ off < 0x180 then w (((List.range 32).map fun i => bit (lat (8 * (off - 0x100) + i)) i).sum)
  else if 0x1000 ≤ off ∧ off < 0x3000 then
    let n := (off - 0x1000) / 8
    let s := d.src n
    if off % 8 = 0 then
      w (s.tclass.toNat * 2 ^ 24 + (s.react &&& reactMask n).toNat * 2 ^ 16 + bit s.beatcls 15 + s.win.toNat * 256 + s.n.toNat)
    else some s.egmask
  else if 0x3000 ≤ off ∧ off < 0x4000 then
    let n := (off - 0x3000) / 4
    let s := d.src n
    w (bit s.latched 31 + bit (d.srcLive n) 30 + bit (decide (s.held ≠ 0)) 29 + bit s.rstpend 28 + s.count d.now)
  else if 0x4000 ≤ off ∧ off < 0x5000 then some (d.src ((off - 0x4000) / 4)).cnt.toWord
  else if 0x6000 ≤ off ∧ off < 0x6420 then
    let i := (off - 0x6000) / 4
    w (((List.range 4).map fun j =>
      let m := Tbl.get (0 : BitVec 6) x.egmap (4 * i + j)
      (bit (m.getLsbD 5) 7 + m.toNat % 32) * 2 ^ (8 * j)).sum)
  else none

/-- A write of FUSE_SRC_CFG (R412, R414): a change of N or WIN empties the source's window count. -/
def Dev.writeFuseCfg (d : Dev) (n : Nat) (v : Word) : Dev :=
  let w := v.toNat
  d.modSrc n fun s =>
    let s' : FuseSrc := { s with tclass := BitVec.ofNat 8 (w / 2 ^ 24), react := BitVec.ofNat 8 (fld w 16 8) &&& reactMask n, beatcls := bitOf w 15,
                                 win := BitVec.ofNat 6 (fld w 8 6), n := BitVec.ofNat 8 w }
    if s'.win = s.win ∧ s'.threshold = s.threshold then s' else { s' with slices := [] }

def Dev.writeFuseReg (d : Dev) (off0 : Nat) (v : Word) : Dev :=
  let off := off0 % 0x8000
  let w := v.toNat
  if off % 4 ≠ 0 then d
  else if off = 8 then d.writeFuseAck v
  else if off = 0x14 then d.modFuse fun x => { x with rp := BitVec.ofNat 12 w }
  else if off = 0x18 then d.modFuse fun x => { x with idx := BitVec.ofNat 12 w }
  else if off = 0x4C then
    let d := d.modFuse fun x => { x with cnt := clearBits x.cnt w 3 }
    if bitOf w 9 then d.modSrc (fld w 10 10) fun s => { s with cnt := {} } else d
  else if 0x1000 ≤ off ∧ off < 0x3000 then
    let n := (off - 0x1000) / 8
    if off % 8 = 0 then d.writeFuseCfg n v else d.modSrc n fun s => { s with egmask := v }
  else if 0x6000 ≤ off ∧ off < 0x6420 then
    let i := (off - 0x6000) / 4
    let d := d.modFuse fun x => { x with egmap := (List.range 4).foldl (fun t j =>
      Tbl.set 0 t (4 * i + j) (BitVec.ofNat 6 (bit (bitOf w (8 * j + 7)) 5 + fld w (8 * j) 5))) x.egmap }
    d.reforce
  else d

end Sys2Proof.Machine
end

