-- ==== Sys2Proof/Machine/Reset.lean ====
section
/-! DEFINITION. Cold reset, wipe, warm reset and their commands (15_strongroom.md R435; 17_power_reset_startup.md R459 to R463), with what each
block keeps through a warm reset. -/

namespace Sys2Proof.Machine
open Sys2Proof

-- cold reset

/-- What a cold reset leaves (R7, R462): fuses, STRONG_WIPE, pins and supplies, and what lies outside the device; everything else is as after
PORST_N. -/
def Dev.coldReset (d : Dev) : Dev :=
  let s := d.strong
  { free := d.free, out := d.out, ident := d.ident, flash := d.flash, record := d.record, fwres := d.fwres, tap := d.tap
    strong := { life := s.life, cycles := s.cycles, ml65 := s.ml65, plainkey := s.plainkey, owner := s.owner, arbOwner := s.arbOwner, arbFw := s.arbFw,
                serial := s.serial, wipeCount := s.wipeCount, wipeCause := s.wipeCause, wipePending := s.wipePending }
    power := { hotCfg := if d.ident.iGrade then 100 else 95, porst := d.power.porst, warmPin := d.power.warmPin, perst := d.power.perst, good := d.power.good, railsOut := d.power.railsOut,
               cold := !d.power.porst || !d.power.good } }

/-- A wipe (R435): keys and secrets are zeroised, the cause is recorded, and the device goes through an internal cold reset. `cause` is a bit of
STRONG_WIPE.CAUSE. -/
def Dev.wipe (d : Dev) (cause : Nat) : Dev :=
  let count := d.strong.wipeCount
  (d.putStrong { d.strong with wipeCount := if count = 255 then 255 else count + 1, wipeCause := BitVec.ofNat 6 (2 ^ cause), wipePending := true }).coldReset

/-- PORST_N low (R461, R462): a cold reset, whatever runs; STRONG_WIPE counts from here. -/
def Dev.porstN (d : Dev) : Dev :=
  (((d.putPower { d.power with porst := false }).putStrong { d.strong with wipeCount := 0 })).coldReset
def execPorstN (s : State) : Host.Outcome State Fault Refusal := run true Dev.porstN s

/-- Cold start begins once PORST_N is high and every monitored rail is good (R459); device time starts at zero (R225). -/
def Dev.leaveCold (d : Dev) : Dev :=
  if d.power.cold ∧ d.power.porst ∧ d.power.good then (d.putPower { d.power with cold := false }).putNow 0 else d

/-- PORST_N high (R464). A TAP instruction that controls the pins gives way to BYPASS (R486). -/
def Dev.porstNRelease (d : Dev) : Dev :=
  let tap : Tap := if d.tap.pins then { d.tap with instr := .bypass, pins := false } else d.tap
  ((d.putPower { d.power with porst := true }).putTap tap).leaveCold
def execPorstNRelease (s : State) : Host.Outcome State Fault Refusal := run true Dev.porstNRelease s

/-- A rail of a user I/O bank, which has no power-good detector (R459). -/
def isVccio : Rail → Bool
  | .vccio _ => true
  | _ => false

/-- POWER_GOOD (R459): every monitored rail has been in range for 1 ms. -/
def Dev.powerGood (d : Dev) : Dev :=
  (d.putPower { d.power with good := true, railsOut := d.power.railsOut.filter isVccio }).leaveCold
def execPowerGood (s : State) : Host.Outcome State Fault Refusal := run true Dev.powerGood s

/-- The voltage tamper sensor covers a rail (R436). -/
def tamperRail : Rail → Bool
  | .vcore _ | .vhub | .vsram | .vaux => true
  | _ => false

/-- RAIL_FAULT (R436, R459, R471): a rail that a tamper sensor covers wipes the device, which stays in cold reset until power is good; another
raises EV0708, and before start-up is over holds the device in cold reset if it is a monitored one. -/
def Dev.railFault (r : Rail) (back : Bool) (d : Dev) : Dev :=
  let p := d.power
  let isOut : Bool := decide (r ∈ p.railsOut)
  if back then
    if !isOut then d
    else
      let d := d.putPower { p with railsOut := p.railsOut.erase r }
      if tamperRail r ∨ p.cold then d else d.raise 708
  else if isOut then d
  else
    let lost (d : Dev) : Dev := d.putPower { d.power with railsOut := r :: d.power.railsOut, good := d.power.good && isVccio r }
    if tamperRail r then (lost d).wipe 0
    else if p.cold then lost d
    else if p.stage < 6 ∧ !isVccio r then (lost d).coldReset
    else (d.putPower { p with railsOut := r :: p.railsOut }).raise 708
def execRailFault (r : Rail) (back : Bool) (s : State) : Host.Outcome State Fault Refusal := run true (Dev.railFault r back) s

-- PCIe reset

/-- PERST_N (R461): low acts as an FLR of every view and takes the link down; at the rise the link retrains. -/
def Dev.perstN (high : Bool) (d : Dev) : Dev :=
  let was := d.power.perst
  let d := d.putPower { d.power with perst := high }
  if high ∨ !was then d
  else
    let d := d.each (List.range 64) fun d v => d.flr (BitVec.ofNat 6 v)
    let d := if d.rings.linkUp then d.raise 768 else d
    (d.putRings { d.rings with linkUp := false, d3 := false }).putSched { d.sched with msixPending := [], msixMasked := [] }
def execPerstN (high : Bool) (s : State) : Host.Outcome State Fault Refusal := run true (Dev.perstN high) s

-- warm reset: rooms and functions

/-- A room at boundary a (R463): the decisions up to beat a - 1 take effect, and it issues nothing. Its counters are lost (R7, R65). -/
def Room.halt (past : List Decision) (n : Beat) (rm : Room) : Room :=
  let rm := { rm with cnt := [], mwrPeak := 0 }
  if rm.func = 0xFFFF then rm
  else
    let rm := Room.catchUp n 65 ({ rm with decisions := past } : Room).dropAhead
    let rm := rm.dropState
    { rm with phase := .idle, undecided := none, decisions := [], wq := [], wqAhead := [], rpos := rm.crpos, wpos := rm.cwpos, sentStream := [],
              sentDrain := [], tokens := [], frameStart := 0, d := 0, att := false, pass := 0, faulted := false, missed := false, late := false, slices := [],
              win := Tbl.mapAll {} rm.win (fun s => { hold := s.hold }) }

/-- What the arbiter and the hub units hold of a function's open beats is lost; its decisions and its REMOTE targets stay (R463). -/
def Func.halt (f : Func) : Func :=
  { f with votes := [], verdicts := [], hubFault := false, ordered := false, remote := [], decided := none, hubDec := none, filling := [], emitting := [],
           emitCommit := false, released := [], hubAtt := false, wlines := [], deadlineD := 0 }

/-- A migration before its switch releases its targets with its XCH reservation, and its descriptor runs again from the start (R337). -/
def Dev.restartMigrations (d : Dev) : Dev :=
  let ms := d.funcs.filterMap fun f => f.migration.map (f.id, ·)
  let d := d.each ms fun d (id, m) =>
    let d := d.clearRooms (m.places.map (·.room))
    let d := d.modNet fun n => { n with reservations := n.reservations.filter fun x => !(x.func == id && x.migrating) }
    d.modFunc id fun f => { f with migration := none }
  d.each (d.openOps.filter fun (_, e) => descOpcode e.desc == 0x12) fun d (x, _) => d.modEntry x fun e => { e with started := false, args := none, ready := none }

/-- An admission that has only reserved its binding is undone, and runs again (R360): only admitted functions are kept (R462). -/
def Dev.restartAdmissions (d : Dev) : Dev :=
  let d := d.each (d.funcs.filter (·.phase == .reserved)) fun d f => d.undoAdmission f
  d.each (d.openOps.filter fun (_, e) => descOpcode e.desc == 0x10) fun d (x, _) => d.modEntry x fun e => { e with started := false, args := none, ready := none }

/-- The committed entries of the write buffer are written back, and the rest is discarded (R182). -/
def Dev.drainWb : Nat → Dev → Dev
  | 0, d => d.modCellar fun c => { c with wb := [] }
  | n + 1, d => if d.cellar.nextBack.isSome then Dev.drainWb n (d.writeBack {}) else d.modCellar fun c => { c with wb := [] }

-- warm reset: the other blocks

/-- The cellar (R182, R190): everything but the counters and what was in flight. -/
def Cellar.warm (c : Cellar) : Cellar := { c with cnt := [], pcCe := [], pcUe := [], flights := [] }

/-- A lane goes OFF; of its fields only the configuration is kept (R282): counters and eye results go. -/
def Lane.warm (x : Lane) : Lane :=
  { x with phase := .off, tx := false, cdrLock := false, adapted := false, inBundle := false, prbsLock := false, err := {}, down := {}, eyeBusy := false,
           eyeValid := false, eye := [] }

/-- Lanes go OFF; ports, engines and bundles lose their link state (R282, R283, R462). -/
def Link.warm (l : Link) : Link :=
  { l with lanes := Tbl.mapAll {} l.lanes Lane.warm
           bundles := Tbl.mapAll {} l.bundles (fun x =>
             { x.cleared with phase := if x.en ∧ l.en then .training else .down, queue := [], cnt := [] })
           cnt := [], atts := [], loop := [], queries := [], uplock := false }

/-- The media ports (R462): flows, feeds, drains and configuration stay; counters, queues and link state go. -/
def Media.warm (m : Media) : Media :=
  { m with flowSel := 0
           eth := Tbl.mapAll {} m.eth (fun p => { p with up := 0, cnt := [], coreQueue := [], bridgeQueue := [] })
           sdi := Tbl.mapAll {} m.sdi (fun e => { e with rate := 0, raster := 0, frate := 0, rxsamp := 0, locked := false, pid := false, mismatch := false, ancQueue := [], cnt := [] })
           flows := Tbl.mapAll {} m.flows (fun f => { f with seen := [], nextA := none, nextB := none, missing := [], cnt := [], filling := [], due := [], subst := false })
           groups := []
           egress := Tbl.mapAll {} m.egress (fun e => { e with queue := [], lineNow := [] }) }

/-- The direct fabric (R300, R304, R322): an application under way begins again; without WARMKEEP its stages are withdrawn. -/
def Fabric.warm (f : Fabric) : Fabric :=
  { f with cnt := [], relIgnored := 0, applying := f.applying.map (fun a => { a with left := a.blocks }), withdrawing := !f.warmkeep
           releasing := if f.warmkeep then f.releasing else []
           hubports := Tbl.mapAll {} f.hubports (fun h => { h with taken := [], closed := false, rx := [], rxNow := none, rxsub := false, rxcount := 0, txcount := 0 }) }

/-- A core is reset; its TCM and configuration stay (R369, R386, R407). -/
def Core.warm (c : Core) : Core :=
  { c with phase := if c.run then .reset else .held, cnt := [], stack := [], postArg := 0, postDl := 0, x := [], pc := 0, machineMode := true, csr := [],
           mcycle := 0, asleepSince := 0 }

/-- A trace stream stops; its configuration and pointers stay (R407, R462). -/
def Stream.warm (s : Stream) : Stream := { s with isOn := false, branches := [], dropped := none, cntOvf := {}, window := [] }

/-- The scheduler (R386, R406): every entry is freed; templates, timers and routes stay. -/
def Sched.warm (s : Sched) : Sched := { s with tasks := [], waiting := [], cnt := [], msixPending := [], msixMasked := [],
                                                   timers := Tbl.mapAll {} s.timers (fun x => { x with late := false }) }

/-- The rings (R360, R366): pairs recover; doorbells are kept and nothing is fetched. -/
def Rings.warm (r : Rings) : Rings :=
  { r with recovering := true, ready := false, cnt := [], linkUp := false, d3 := false
           pairs := r.pairs.map fun (k, p) => (k, if p.en ∧ p.phase = .run then { p with phase := .recover } else p) }

/-- A debug unlock ends, with its event (R440). -/
def Dev.debugEnd (d : Dev) : Dev :=
  if !d.strong.dbg.unlocked then d
  else (d.putStrong { d.strong with dbg := { d.strong.dbg with unlocked := false, scope := 0, remain := 0 } }).raise 642

/-- The hub's units in a warm reset: each loses what R463 says it loses. -/
def Dev.warmUnits (d : Dev) : Dev :=
  { d with
      net := { d.net with xch := [], votes := [], decs := [], holds := [], heldVotes := [], heldDecs := [] },
      cellar := d.cellar.warm, media := d.media.warm, link := d.link.warm, fabric := d.fabric.warm,
      loader := { d.loader with cnt := [], essFrom := none, bgFrom := none },
      rings := d.rings.warm,
      cores := { d.cores with cores := Tbl.mapAll {} d.cores.cores Core.warm, streams := Tbl.mapAll {} d.cores.streams Stream.warm },
      sched := d.sched.warm,
      acq := Tbl.mapAll {} d.acq AcqUnit.warm,
      hub := { d.hub with cnt := [], reqs := [], ignored := [] },
      power := { d.power with cnt := [], sensors := [], above := 0 } }

/-- No event occurrence is on its way (log entry 19). -/
def Dev.dropEvents (d : Dev) : Dev := { d with events := [] }

/-- Boundary a of a warm reset (R463 steps 2 to 4), after the decisions for beat a - 1 have been applied: `n` is a. -/
def Dev.warmHalt (d : Dev) : Dev :=
  let n := d.time.n
  let d := d.restartAdmissions
  let d := d.each (Tbl.keys d.rooms) fun d r =>
    let past := match d.func? (d.room (BitVec.ofNat 8 r)).func with | some f => f.past | none => []
    d.modRoom (BitVec.ofNat 8 r) (Room.halt past n)
  let d := d.restartMigrations
  let d := (d.putFuncs (d.funcs.map Func.halt)).dropEvents
  let d := (Dev.drainWb (d.cellar.wb.length + 1) d).debugEnd
  let d := d.warmUnits
  let d := d.modTime fun t => { t with tdc := Tbl.mapAll {} t.tdc (fun x => { x with fifo := [] }), sourcePresent := false }
  let d := if d.time.src = 0 then d.setServo .holdover else d.holdover
  d.dropEvents.fuseWarm.syncSweeps

/-- A warm reset begins (R461, R463): it takes hold at the next boundary, or at once while the beat generator stands. -/
def Dev.startWarm (d : Dev) : Dev :=
  let run := d.time.run
  let d := d.putPower { d.power with stage := 7, returned := false, warmFrom := some (if run then d.time.n + 1 else d.time.n) }
  let d := d.putRings { d.rings with recovering := true, ready := false }
  if run then d else d.warmHalt

/-- A warm reset is asked for: accepted in READY, else ignored and counted in POWER_CNT_WARMIGN (R461). -/
def Dev.askWarm (d : Dev) : Dev :=
  if d.power.stage = 6 then d.startWarm else d.putPower { d.power with cnt := bumpAt d.power.cnt 2 }

/-- WARMRST_N (R461): low for 1 µs asks for a warm reset, and extends one that runs. -/
def Dev.warmrstN (high : Bool) (d : Dev) : Dev :=
  let was := d.power.warmPin
  let d := d.putPower { d.power with warmPin := high }
  if high ∨ !was ∨ d.power.cold ∨ d.power.stage = 7 then d else d.askWarm
def execWarmrstN (high : Bool) (s : State) : Host.Outcome State Fault Refusal := run true (Dev.warmrstN high) s

/-- A write of POWER_CTL.WARM (R461, R472); only the PF writes the block. -/
def execWarm (q : Requester) (s : State) : Host.Outcome State Fault Refusal := run true (fun d => if d.isPf q then d.askWarm else d) s

-- the hub's return

/-- A timer whose NEXT has passed fires once at once (R386); a periodic one goes on from now. -/
def Dev.lateTimer (d : Dev) (i : BitVec 6) : Dev :=
  let t := d.timer i
  let now := if t.beats then d.time.n.toNat else d.nowNs
  if !t.en ∨ !t.armed ∨ (t.beats ∧ !d.time.run) ∨ now < t.next.toNat then d
  else
    let d := d.timerFire i
    d.modTimer i fun x =>
      if x.armed ∧ x.next.toNat ≤ now then { x with next := x.next + BitVec.ofNat 64 (((now - x.next.toNat) / x.step + 1) * x.step) } else x

/-- The scheduler after a warm reset (R386): sources still asserted create their tasks again, late timers fire. A user event's comes with its event
(R300). -/
def Dev.schedReturn (d : Dev) : Dev :=
  let d := d.each (d.sched.routes.filter fun (ev, r) => decide (ev < 896) && r.ten && !fwClass r.tclass && d.liveStatus ev == some true) fun d (ev, r) =>
    d.newTask (.event (BitVec.ofNat 10 ev)) r.tclass (BitVec.ofNat 64 d.nowNs) (d.dueOf r.tclass d.nowNs) d.now
  d.each (Tbl.keys d.sched.timers) fun d i => d.lateTimer (BitVec.ofNat 6 i)

/-- The cores after a warm reset (R369, R371, R463): firmware restarts from the standby copy, customer cores with RUN = 1 are measured and
start from BOOT. -/
def Dev.coresReturn (d : Dev) : Dev :=
  let d := d.modCores fun c =>
    if c.sb = .ready ∧ c.pendingFw.isNone then { c with secver := c.sbSecver, version := c.sbVersion, hash := c.sbHash } else c
  let d := d.each (List.range 4) fun d c => d.startCore (BitVec.ofNat 4 c)
  d.each ((List.range 12).map (· + 4)) fun d c =>
    let k := BitVec.ofNat 4 c
    if (d.core k).run then (d.measureCore k).startCore k else d

/-- The fabric is released again where a warm reset withdrew it (R299, R300): stages that are left are withdrawn first. Blocks whose application is under
way wait for its boundary (R322). -/
def Dev.fabricReturn (d : Dev) : Dev :=
  if !d.fabric.withdrawing then d
  else
    let d := d.each [1, 2, 3] fun d _ => d.each (Tbl.keys d.fabric.blocks) Dev.withdrawStage
    let d := (d.modFabric fun f => { f with withdrawing := false, rel := 0 }).refreshPads
    let busy := d.fabric.applying.flatMap (·.blocks)
    if d.fabric.autorel then d.startRelease (d.fabric.unreleased.filter fun b => !decide (b ∈ busy)) else d

/-- The rings recover (R360 steps 2 to 5): completions are written again, fetching goes back to the lowest ACCEPTED entry. -/
def Dev.ringsReturn (d : Dev) : Dev :=
  let ks := (d.rings.pairs.filter fun (_, p) => p.en && p.phase == .recover).map (·.1)
  let d := d.each ks fun d k => (d.recoverPair (BitVec.ofNat 9 k)).modRing (BitVec.ofNat 9 k) fun r => { r with phase := .run }
  (d.putRings { d.rings with recovering := false, ready := true }).raise 772

/-- Boundary b (R463 step 5), or at once while the generator stands: lanes repeat bring-up. Rooms start with the boundary itself. -/
def Dev.warmEnd (d : Dev) : Dev :=
  let d := d.putPower { d.power with warmFrom := none, returned := false }
  d.each (Tbl.keys d.link.lanes) fun d l => d.laneStart l

/-- HUB_RETURN (R463 steps 5 and 6): WARMRST_N is high and boundary a has passed; the hub's units, firmware, the fuse box and the rings are back,
and the stage is READY. -/
def Dev.hubReturn (d : Dev) : Dev :=
  if d.power.stage ≠ 7 ∨ !d.power.warmPin ∨ !d.halted then d
  else
    let d := d.putPower { d.power with stage := 6, returned := true }
    let d := d.coresReturn.fuseRelease.schedReturn
    let d := (d.syncSweeps.fabricReturn.ringsReturn).raise 709
    if d.time.run then d else d.warmEnd
def execHubReturn (s : State) : Host.Outcome State Fault Refusal := run true Dev.hubReturn s

end Sys2Proof.Machine
end

