-- ==== Sys2Proof/Machine/Strong.lean ====
section
/-! DEFINITION. The strongroom and device life: key records, attestation, signed commands, debug, tamper sensors, shared SRAM, and the STRONG
registers (15_strongroom.md R427 to R443). -/

namespace Sys2Proof.Machine
open Sys2Proof

/-- The derivation of a label from the seed (R427). -/
def seedOf (label : Nat) : BitVec 256 := shake256 (Config.seed ++ [BitVec.ofNat 8 label])

def bytes256 (x : BitVec 256) : Bytes := leBytes 32 x.toNat

-- KEY_LOAD

/-- The slot key that a key record gives (R441), where the record follows the rules. -/
def Dev.recordKey (d : Dev) (bs : Bytes) : Option (BitVec 256) :=
  let key := slice bs 8 32
  if !zeroRange bs 1 7 ∨ !zeroRange bs 40 24 then none
  else match leAt bs 0 1 with
    | 0 => if d.strong.plainkey then some (BitVec.ofNat 256 (leNat key)) else none
    | 1 => some (shake256 (bytes256 (seedOf 4) ++ bytes256 (Tbl.get ({} : OwnerKey) d.strong.owner 1).hash ++ key))
    | _ => none

/-- A key slot is loaded (R164): ACTIVE and FRESH, with the next load number. -/
def Cellar.loadKey (c : Cellar) (k : BitVec 6) (key : BitVec 256) : Cellar :=
  let n := c.loads + 1
  { c.setKey k { phase := .active, fresh := true, key, load := n, ke := deriveKe key c.nonce n k } with loads := n }

/-- KEY_LOAD (R164, R441). -/
def Dev.keyLoad (x : DescRef) (d : Dev) : Dev :=
  d.runOp x 0x41 true fun d e =>
    let k := BitVec.ofNat 6 (dfld e.desc 0x18 1)
    match d.recordKey (e.args.getD []) with
    | none => d.finish x 5 4
    | some key => if (d.cellar.key k).phase ≠ .empty then d.finish x 0x42 0 else (d.modCellar (·.loadKey k key)).finishOk x
def execKeyLoad (d : DescRef) (s : State) : Host.Outcome State Fault Refusal := run true (Dev.keyLoad d) s

-- attestation (R429, R430)

def lifeCode : Life → Nat
  | .blank => 0 | .provisioned => 1 | .deployed => 2 | .returned => 3 | .decommissioned => 4

/-- An entry of the measurement list (R429). -/
def measureBytes (m : Measure) : Bytes :=
  leBytes 1 m.kind ++ [0] ++ leBytes 2 m.index ++ leBytes 4 m.secver ++ leBytes 8 m.aux.toNat ++ bytes256 m.hash

/-- Bits of the owner keys 1 to 4. -/
def Strong.keyBits (s : Strong) (p : OwnerKey → Bool) : Nat := ((List.range 4).map fun i => bit (p (Tbl.get {} s.owner (i + 1))) i).sum

/-- The snapshot that a requested report takes (R430). -/
def Dev.attSnapshot (d : Dev) : Dev :=
  if !d.strong.attBusy ∨ !d.strong.attWaiting then d
  else
    let s := d.strong
    let old := s.attSnap.getD { time := 0, beat := 0, list := [], nonce := s.attNonce, first := s.attFirst.toNat, debugSeen := false }
    let snap : Snapshot := { old with time := d.now, beat := d.time.n, list := s.measures, debugSeen := s.dbg.seen }
    d.modStrong fun s => { s with attWaiting := false, attSnap := some snap }

/-- A write of STRONG_ATT_CTL (R430, R443): REQ is accepted while no report is being made. -/
def Dev.writeAttCtl (d : Dev) (v : Word) : Dev :=
  let d := d.modStrong fun s => { s with attFirst := BitVec.ofNat 9 v.toNat }
  let s := d.strong
  if !bitOf v.toNat 31 then d
  else if s.attBusy then d.ignore 0xE
  else
    let snap : Snapshot := { time := d.now, beat := d.time.n, list := [], nonce := s.attNonce, first := s.attFirst.toNat, debugSeen := false }
    let d := d.modStrong fun s => { s with attBusy := true, attWaiting := true, attValid := false, attSnap := some snap }
    if d.time.run then d else d.attSnapshot
def execAttReq (q : Requester) (v : Word) (s : State) : Host.Outcome State Fault Refusal :=
  run true (fun d => if d.isPf q then d.writeAttCtl v else d) s

/-- The fuse array as the report's FUSEHASH covers it; its layout is not given (R430; log entry 12). -/
def Dev.fuseHash (d : Dev) : BitVec 256 :=
  let s := d.strong
  Config.fuseHash (lifeCode s.life) s.cycles.toNat (d.ident.disabled.map (·.toNat)) (s.owner.map fun (k, o) => (k, o.pset.toNat, o.hash.toNat, o.revoked))

/-- The bytes of a report before its signature (R430). -/
def Dev.reportBody (d : Dev) (sn : Snapshot) : Bytes :=
  let s := d.strong
  let page := (sn.list.drop sn.first).take 64
  [0x4B, 0x5A, 0x41, 0x52] ++ leBytes 2 0x0100 ++ leBytes 1 (if s.ml65 then 2 else 1) ++ leBytes 1 (lifeCode s.life) ++ leBytes 16 s.serial.toNat
    ++ bytes256 sn.nonce ++ leBytes 8 (sn.time / ns / 10 ^ 9 % 2 ^ 48) ++ leBytes 4 (sn.time / ns % 10 ^ 9) ++ leBytes 4 (sn.time % ns)
    ++ leBytes 8 sn.beat.toNat ++ leBytes 1 s.arbFw.toNat ++ leBytes 1 s.arbOwner.toNat ++ leBytes 1 (s.keyBits (·.revoked))
    ++ leBytes 1 (bit s.ml65 0 + bit s.plainkey 1 + bit sn.debugSeen 2) ++ leBytes 1 s.cycles.toNat ++ leBytes 3 0
    ++ leBytes 2 sn.list.length ++ leBytes 2 sn.first ++ leBytes 2 page.length ++ leBytes 2 0
    ++ bytes256 (sha3 (sn.list.flatMap measureBytes)) ++ bytes256 d.fuseHash ++ page.flatMap measureBytes

/-- ATT_REPORT_READY (R430): the signed report lies in STRONG_ATT_BUF. Signing waits for random output (R428); a decommissioned device does not
sign (R437). -/
def Dev.attReportReady (d : Dev) : Dev :=
  let s := d.strong
  match s.attSnap with
  | none => d
  | some sn =>
    if !s.attBusy ∨ s.attWaiting ∨ !s.rngok ∨ s.life = .decommissioned then d
    else
      let body := d.reportBody sn
      let set := if s.ml65 then 65 else 44
      let report := body ++ Config.mldsaSign set (seedOf (if s.ml65 then 2 else 1)) body (Config.random d.free)
      let report := report.take (8192)
      (((d.take 1).modStrong fun s => { s with attBusy := false, attValid := true, attLen := BitVec.ofNat 14 report.length, attSnap := none,
                                                attBuf := Memory.writeN [] 0 report })).raise 645
def execAttReportReady (s : State) : Host.Outcome State Fault Refusal := run true Dev.attReportReady s

-- signed commands (R439)

/-- The command in STRONG_CMD_BUF, as much as LEN covers. -/
def Strong.cmdBytes (s : Strong) : Bytes := Memory.readN s.cmdBuf 0 s.cmdLen.toNat

/-- The body length of a command; the fields' widths are the model's reading (log entry 47). -/
def cmdBodyLen (cmd : Nat) : Nat := match cmd with | 1 => 133 | 5 => 1 | 6 => 2 | 7 => 4 | _ => 0

/-- A command that is well formed (R439), with its body. -/
def cmdBody (bs : Bytes) : Option Bytes :=
  let cmd := leAt bs 4 1
  let alg := leAt bs 5 1
  let n := leAt bs 0x28 4
  if bs.length < 64 ∨ 8192 < bs.length ∨ bs.take 4 ≠ [0x4B, 0x5A, 0x43, 0x4D] ∨ cmd < 1 ∨ 7 < cmd ∨ alg < 1 ∨ 2 < alg ∨ 4 < leAt bs 6 1
      ∨ !zeroRange bs 7 1 ∨ !zeroRange bs 0x2C 20 ∨ n ≠ cmdBodyLen cmd ∨ bs.length ≠ 64 + n + sigLen alg + pubLen alg then none
  else some (slice bs 64 n)

/-- The parameter set that a command's signer must have, where the signer may give this command in this state (R439, R440). -/
def Strong.cmdSigner (s : Strong) (cmd keyid : Nat) (body : Bytes) : Option Nat :=
  let k := Tbl.get ({} : OwnerKey) s.owner keyid
  let urelayn := keyid == 0
  let ok : Bool := match cmd with
    | 1 => keyid == 1
    | 4 => urelayn == (s.life == .returned)
    | 6 => urelayn == (leAt body 0 1 == 0)
    | 7 => urelayn == (s.life == .returned)
    | _ => !urelayn
  if !ok then none
  else if cmd = 1 then some (leAt body 0 1)
  else if urelayn then some 2
  else if k.pset = 0 ∨ k.revoked then none
  else some k.pset.toNat

/-- States from which a command is accepted (R439). -/
def cmdFrom (cmd : Nat) (l : Life) : Bool :=
  match cmd, l with
  | 1, .blank | 2, .provisioned | 2, .returned | 3, .deployed | 4, .provisioned | 4, .deployed | 4, .returned | 5, .provisioned | 5, .deployed
  | 6, .provisioned | 6, .deployed | 7, .deployed | 7, .returned => true
  | _, _ => false

/-- The owner keys that PROVISION fuses: four entries of parameter set and hash. -/
def provisionKeys (body : Bytes) : Tbl OwnerKey :=
  (List.range 4).foldl (fun t i =>
    Tbl.set {} t (i + 1) { pset := BitVec.ofNat 8 (leAt body (33 * i) 1), hash := BitVec.ofNat 256 (leAt body (33 * i + 1) 32) }) []

/-- A command breaks the rule of its row (R431, R432, R438, R439, R440). -/
def Dev.cmdRuleBad (d : Dev) (cmd keyid : Nat) (body : Bytes) : Bool :=
  let s := d.strong
  let a := leAt body 0 1
  match cmd with
  | 1 => (List.range 4).any (fun i => 2 < leAt body (33 * i) 1) || 4 ≤ leAt body 132 1 || leAt body 0 1 == 0
  | 3 => 16 ≤ s.cycles.toNat
  | 5 =>
    let k := Tbl.get ({} : OwnerKey) s.owner a
    a == 0 || 4 < a || a == keyid || k.pset == 0 || k.revoked
      || !((List.range 4).any fun i => i + 1 != a && (Tbl.get ({} : OwnerKey) s.owner (i + 1)).pset != 0 && !(Tbl.get ({} : OwnerKey) s.owner (i + 1)).revoked)
  | 6 =>
    let n := leAt body 1 1
    let now := if a = 0 then s.arbFw.toNat else s.arbOwner.toNat
    let low : Bool := if a = 0 then decide (d.cores.secver.toNat < n) || (d.cores.sb != .none && decide (d.cores.sbSecver.toNat < n))
      else s.measures.any fun m => (m.kind == 4 || m.kind == 5) && decide (m.secver < n)
    1 < a || n ≤ now || 64 < n || low
  | 7 => 16 ≤ a || (bitOf a 3 && keyid != 0) || leAt body 1 3 == 0
  | _ => false

/-- A life-cycle change (R437): the fuses are blown and the device is wiped. -/
def Dev.lifeTo (d : Dev) (l : Life) : Dev := (d.modStrong fun s => { s with life := l }).wipe 5

/-- The command nonce changes after every GO (R439). -/
def Dev.newNonce (d : Dev) : Dev := (d.modStrong fun s => { s with cmdNonce := (Config.random d.free).setWidth 128 }).take 1

/-- The command in progress completes with a result (R439, R442). -/
def Dev.cmdDone (d : Dev) (r : Nat) : Dev := ((d.modStrong fun s => { s with cmdBusy := false, cmdResult := BitVec.ofNat 8 r }).newNonce).raise 641

/-- The result of a command by the checks that come before its effect: 0 where all hold. `sigOk` says that the public key is the signer's and
that the signature holds. -/
def Dev.cmdCheck (d : Dev) (sigOk : Bool) : Nat :=
  let s := d.strong
  let bs := s.cmdRun
  match cmdBody bs with
  | none => 1
  | some body =>
    let cmd := leAt bs 4 1
    let keyid := leAt bs 6 1
    if s.cmdSigner cmd keyid body ≠ some (leAt bs 5 1) ∨ !sigOk then 2
    else if leAt bs 8 16 ≠ s.serial.toNat ∨ leAt bs 8 16 = 0 then 3
    else if leAt bs 0x18 16 ≠ s.cmdNonce.toNat then 4
    else if !cmdFrom cmd s.life then 5
    else if d.cmdRuleBad cmd keyid body then 6
    else 0

/-- Run the command that GO started, if it is of a code (R439; log entry 121). It waits while the random source gives no nonce (R428). -/
def Dev.runCmd (code : Nat) (sigOk : Bool) (f : Dev → Bytes → Dev) (d : Dev) : Dev :=
  if !d.strong.cmdBusy ∨ !d.strong.rngok ∨ leAt d.strong.cmdRun 4 1 ≠ code then d
  else
    let r := d.cmdCheck sigOk
    if r ≠ 0 then d.cmdDone r else f d (slice d.strong.cmdRun 64 (cmdBodyLen code))

def execProvision (sigOk : SigOk) (s : State) : Host.Outcome State Fault Refusal :=
  run true (Dev.runCmd 1 sigOk fun d body =>
    (d.modStrong fun s => { s with owner := provisionKeys body, ml65 := bitOf (leAt body 132 1) 0, plainkey := bitOf (leAt body 132 1) 1 }).lifeTo .provisioned) s
def execDeploy (sigOk : SigOk) (s : State) : Host.Outcome State Fault Refusal := run true (Dev.runCmd 2 sigOk fun d _ => d.lifeTo .deployed) s
/-- RETURN (R438): a cycle fuse is blown. -/
def execReturn (sigOk : SigOk) (s : State) : Host.Outcome State Fault Refusal :=
  run true (Dev.runCmd 3 sigOk fun d _ => (d.modStrong fun s => { s with cycles := s.cycles + 1 }).lifeTo .returned) s
def execDecommission (sigOk : SigOk) (s : State) : Host.Outcome State Fault Refusal := run true (Dev.runCmd 4 sigOk fun d _ => d.lifeTo .decommissioned) s
/-- KEY_REVOKE (R431). -/
def execKeyRevoke (sigOk : SigOk) (s : State) : Host.Outcome State Fault Refusal :=
  run true (Dev.runCmd 5 sigOk fun d body =>
    (d.modStrong fun s => { s with owner := Tbl.modify {} s.owner (leAt body 0 1) fun k => { k with revoked := true } }).cmdDone 0) s
/-- ARB_ADVANCE (R432). -/
def execArbAdvance (sigOk : SigOk) (s : State) : Host.Outcome State Fault Refusal :=
  run true (Dev.runCmd 6 sigOk fun d body =>
    (d.modStrong fun s => if leAt body 0 1 = 0 then { s with arbFw := BitVec.ofNat 8 (leAt body 1 1) } else { s with arbOwner := BitVec.ofNat 8 (leAt body 1 1) }).cmdDone 0) s
/-- DEBUG_UNLOCK (R440). -/
def execDebugUnlock (sigOk : SigOk) (s : State) : Host.Outcome State Fault Refusal :=
  run true (Dev.runCmd 7 sigOk fun d body =>
    ((d.modStrong fun s => { s with dbg := { s.dbg with unlocked := true, scope := BitVec.ofNat 4 (leAt body 0 1), remain := BitVec.ofNat 24 (leAt body 1 3),
                                                            unlockedSince := d.now, seen := true } }).raise 642).cmdDone 0) s

/-- A write of STRONG_CMD_CTL (R439, R443): GO starts the command in the buffer, unless one runs; a code of no command is a FORMAT error. -/
def Dev.writeCmdCtl (d : Dev) (v : Word) : Dev :=
  let d := d.modStrong fun s => { s with cmdLen := BitVec.ofNat 14 v.toNat }
  if !bitOf v.toNat 31 then d
  else if d.strong.cmdBusy then d.ignore 0xE
  else
    let code := Memory.read d.strong.cmdBuf 4
    let bs := d.strong.cmdBytes
    let d := d.modStrong fun s => { s with cmdBusy := true, cmdCode := code, cmdRun := bs }
    if leAt bs 4 1 < 1 ∨ 7 < leAt bs 4 1 then d.cmdDone 1 else d

-- debug and tamper

/-- Seconds of an unlock that remain; the hub clock's seconds are counted on device time (R440; log entry 21). -/
def Dev.debugRemain (d : Dev) : Nat := d.strong.dbg.remain.toNat - (d.now - d.strong.dbg.unlockedSince) / (10 ^ 9 * ns)

/-- DEBUG_UNLOCK_EXPIRY (R440). -/
def Dev.debugUnlockExpiry (d : Dev) : Dev :=
  let b := d.strong.dbg
  if !b.unlocked then d else (d.reach (b.unlockedSince + b.remain.toNat * 10 ^ 9 * ns)).debugEnd
def execDebugUnlockExpiry (s : State) : Host.Outcome State Fault Refusal := run true Dev.debugUnlockExpiry s

/-- LOCKED_DEBUG_ACCESS (R436, R440): refused and counted; the third since cold start is an intrusion. -/
def Dev.lockedDebugAccess (d : Dev) : Dev :=
  if d.strong.life ≠ .deployed ∧ d.strong.life ≠ .returned then d
  else if d.strong.dbg.refused = 2 then d.wipe 4
  else (d.modStrong fun s => { s with dbg := { s.dbg with refused := s.dbg.refused + 1 } }).raise 642
def execLockedDebugAccess (s : State) : Host.Outcome State Fault Refusal := run true Dev.lockedDebugAccess s

/-- The bit of STRONG_WIPE.CAUSE (R443). -/
def tamperBit : Tamper → Nat
  | .voltage => 0 | .clock => 1 | .temperature => 2 | .glitch => 3 | .intrusion => 4

/-- TAMPER_TRIP (R435, R436). -/
def execTamperTrip (t : Tamper) (s : State) : Host.Outcome State Fault Refusal := run true (fun d => d.wipe (tamperBit t)) s

/-- RNG_HEALTH_FAIL (R428, R442): a health test fails, or the source recovers. -/
def execRngHealthFail (ok : Bool) (s : State) : Host.Outcome State Fault Refusal :=
  run true (fun d => if d.strong.rngok = ok then d else (d.modStrong fun s => { s with rngok := ok }).raise 643) s

-- shared SRAM (R433, R434)

/-- A range of bytes of shared SRAM names a bank. -/
def spansBank (base size b : Nat) : Bool := size != 0 && decide (base / 2 ^ 20 ≤ b ∧ b ≤ (base + size - 1) / 2 ^ 20)

/-- A bank is named by an enabled trace sink, an acquisition sink, the staging area, or the map of a running customer core (R368, R434). -/
def Dev.bankInUse (d : Dev) (b : Nat) : Bool :=
  (d.cores.streams.any fun (_, s) => s.en && !s.sink && spansBank s.ringBase s.ringSize b)
    || (d.acq.any fun (_, u) => (u.phase == .armed || u.phase == .triggered) && !u.arm.cellar && spansBank u.arm.base u.arm.size b)
    || (!d.loader.stgCellar && decide (48 ≤ b ∧ b < 56))
    || (decide (b < d.sinkBanks) && d.cores.cores.any fun (c, x) => decide (4 ≤ c) && x.run)

/-- A write of STRONG_SRAM_PWR_LO or _HI (R434, R443): a bank in use stays on; one switched on again is cleared. -/
def Dev.writeSramPwr (d : Dev) (hi : Bool) (v : Word) : Dev :=
  d.each (List.range (if hi then 24 else 32)) fun d i =>
    let b := if hi then 32 + i else i
    let on := v.getLsbD i
    let one : BitVec 64 := (1 : BitVec 64) <<< b
    if on = d.strong.sram.pwr.getLsbD b ∨ (!on ∧ d.bankInUse b) then d
    else if on then d.modSram fun m => { m with pwr := m.pwr ||| one, clearing := m.clearing ||| one, mem := Memory.clearRange m.mem (b * 2 ^ 20) (2 ^ 20) }
    else d.modSram fun m => { m with pwr := m.pwr &&& ~~~one, clearing := m.clearing &&& ~~~one }

/-- SRAM_CLEAR_DONE (R434). -/
def execSramClearDone (b : BitVec 6) (s : State) : Host.Outcome State Fault Refusal :=
  run true (fun d => d.modSram fun m => { m with clearing := m.clearing &&& ~~~((1 : BitVec 64) <<< b.toNat) }) s

-- registers (R443)

/-- A public key of the device (R427): a decommissioned device's engine refuses the seed (R437). -/
def Dev.pubByte (d : Dev) (set label i : Nat) : Nat :=
  if d.strong.life = .decommissioned then 0 else leAt (Config.mldsaPub set (seedOf label)) i 4

/-- The address in shared SRAM of a window offset, where the page shows banks 0 to 55. -/
def Dev.sramWin (d : Dev) (off : Nat) : Option Nat :=
  if d.strong.sram.page.toNat < 1792 then some (d.strong.sram.page.toNat * 32768 + (off - 0x8000)) else none

def Dev.readStrongReg (d : Dev) (off : Nat) : Option Word :=
  let s := d.strong
  let w (n : Nat) : Option Word := some (BitVec.ofNat 32 n)
  let part (x k : Nat) : Option Word := some (BitVec.ofNat 32 (x / 2 ^ (32 * k)))
  if off % 4 ≠ 0 then none
  else if off = 0 then w (lifeCode s.life * 2 ^ 29 + s.cycles.toNat * 2 ^ 24 + bit s.rngok 23)
  else if off = 4 then w (bit s.ml65 31 + bit s.plainkey 30 + s.keyBits (·.pset != 0) * 2 ^ 26 + s.keyBits (·.revoked) * 2 ^ 22)
  else if off = 8 then w (s.arbOwner.toNat * 256 + s.arbFw.toNat)
  else if off = 0xC then w (s.wipeCount.toNat * 2 ^ 24 + s.wipeCause.toNat)
  else if off = 0x14 then
    w (bit s.dbg.unlocked 31 + s.dbg.scope.toNat * 2 ^ 27 + s.dbg.refused.toNat * 2 ^ 25 + (if s.dbg.unlocked then d.debugRemain else 0))
  else if 0x20 ≤ off ∧ off < 0x30 then part s.serial.toNat ((off - 0x20) / 4)
  else if 0x40 ≤ off ∧ off < 0x50 then part s.cmdNonce.toNat ((off - 0x40) / 4)
  else if off = 0x60 then w s.cmdLen.toNat
  else if off = 0x64 then w (bit s.cmdBusy 31 + s.cmdCode.toNat * 256 + s.cmdResult.toNat)
  else if 0x80 ≤ off ∧ off < 0xA0 then part s.attNonce.toNat ((off - 0x80) / 4)
  else if off = 0xA0 then w s.attFirst.toNat
  else if off = 0xA4 then w (bit s.attBusy 31 + bit s.attValid 30 + s.attLen.toNat)
  else if off = 0xC0 then w s.sram.page.toNat
  else if off = 0xC4 ∨ off = 0xC8 then part s.sram.pwr.toNat ((off - 0xC4) / 4)
  else if off = 0xD0 ∨ off = 0xD4 then some (Tbl.get {} s.sram.cnt ((off - 0xD0) / 4)).toWord
  else if off = 0xD8 then w 0
  else if 0x100 ≤ off ∧ off < 0x200 then
    let b := (off - 0x100) / 4
    w (bit (s.sram.pwr.getLsbD b) 31 + bit (s.sram.clearing.getLsbD b) 30 + bit (d.bankInUse b) 29 + (Config.spareCols b).toNat)
  else if 0x1000 ≤ off ∧ off < 0x1520 then w (d.pubByte 44 1 (off - 0x1000))
  else if 0x1600 ≤ off ∧ off < 0x1DA0 then w (d.pubByte 65 2 (off - 0x1600))
  else if 0x2000 ≤ off ∧ off < 0x4000 then w (Memory.readLe s.cmdBuf (off - 0x2000) 4)
  else if 0x4000 ≤ off ∧ off < 0x6000 then w (Memory.readLe s.attBuf (off - 0x4000) 4)
  else if 0x8000 ≤ off ∧ off < 0x10000 then w (match d.sramWin off with | some a => leNat (s.sram.fetch a 4) | none => 0)
  else none

def Dev.writeStrongReg (d : Dev) (off : Nat) (v : Word) : Dev :=
  if off % 4 ≠ 0 then d
  else if off = 0x60 then d.writeCmdCtl v
  else if 0x80 ≤ off ∧ off < 0xA0 then
    let k := (off - 0x80) / 4
    d.modStrong fun s => { s with attNonce := (s.attNonce &&& ~~~((0xFFFFFFFF : BitVec 256) <<< (32 * k))) ||| (v.setWidth 256 <<< (32 * k)) }
  else if off = 0xA0 then d.writeAttCtl v
  else if off = 0xC0 then d.modSram fun m => { m with page := BitVec.ofNat 11 v.toNat }
  else if off = 0xC4 ∨ off = 0xC8 then d.writeSramPwr (decide (off = 0xC8)) v
  else if off = 0xD8 then d.modSram fun m => { m with cnt := clearBits m.cnt v.toNat 2 }
  else if 0x2000 ≤ off ∧ off < 0x4000 then d.modStrong fun s => { s with cmdBuf := Memory.writeN s.cmdBuf (off - 0x2000) (leBytes 4 v.toNat) }
  else if 0x8000 ≤ off ∧ off < 0x10000 then (match d.sramWin off with | some a => d.modSram (·.put a (leBytes 4 v.toNat)) | none => d)
  else d

end Sys2Proof.Machine
end

