-- ==== Sys2Proof/Machine/Power.lean ====
section
/-! DEFINITION. Start-up stages, PCIe boot, the power governor, thermal sensors, and the POWER registers (17_power_reset_startup.md R464 to
R472). -/

namespace Sys2Proof.Machine
open Sys2Proof

def Dev.modPower (d : Dev) (f : Power → Power) : Dev := { d with power := f d.power }

-- start-up (R464)

/-- Stage 0 ends (R164, R428, R429, R464): the random source runs, the boot nonce and the command nonce are drawn, the foundation ROM is
measured. In DECOMMISSIONED the ROM stops here (R437). -/
def Dev.endRom (d : Dev) : Dev :=
  if d.strong.life = .decommissioned then d
  else
    let d := (d.modCellar fun c => { c with nonce := (Config.random d.free).setWidth 128 }).take 1
    let d := d.newNonce.modStrong fun s => { s with rngok := true }
    (d.measure { kind := 1, index := 0, hash := Config.romHash }).modPower fun p => { p with stage := 1 }

/-- Verified firmware is loaded (R464): both pairs will hold it. -/
def Dev.takeFirmware (d : Dev) (secver : BitVec 8) (version : Word) (hash : BitVec 256) : Dev :=
  (d.modCores fun c => { c with secver, version, hash }).modPower fun p => { p with stage := 2 }

/-- Stage 1 (R464): firmware from a flash copy, or its failure; with no copy left the ROM enters PCIe boot (R465). -/
def Dev.endFwload (x : StageEnd) (d : Dev) : Dev :=
  if d.power.bootsrc = 2 then d
  else match x with
    | .done => d.takeFirmware Config.flashSecver Config.flashVersion Config.flashHash
    | .flashFailed => d.modPower fun p => { p with bootsrc := p.bootsrc + 1 }
    | .deferred => d.modPower fun p => { p with bootsrc := 2 }

/-- OPEN of the record, 0 to 56 (R154). -/
def FwRecord.openArea (r : FwRecord) : BitVec 6 := BitVec.ofNat 6 (min 56 r.open_.toNat)

/-- POWER_CFG as the record has it (R467): a pair that leaves less than 10 W is mended in P_hub. -/
def Dev.recordCeiling (d : Dev) : Dev :=
  let r := d.record
  d.modPower fun p => { p with ceil := r.ceil, hubres := if r.hubres.toNat + 10 ≤ r.ceil.toNat then r.hubres else r.ceil - 10 }

/-- A write that firmware makes from the record: of the fuse box's configuration and egress map, of a port, an engine, a lane or the link. -/
def Dev.recordWrite (d : Dev) (w : RecordWrite) : Dev :=
  let off := w.off.toNat
  match w.block.toNat with
  | 3 => if 0x1000 ≤ off then d.writeFuseReg off w.v else d
  | 5 => d.writeEthPort off w.v
  | 6 => d.writeSdiEngine off w.v
  | 8 => d.writeLaneReg (off / 256) (off % 256) w.v
  | 9 => d.writeLinkReg off w.v
  | _ => d

/-- The record's writes of the fuse box (R424), or those of the lanes, ports and bundles (R464). -/
def Dev.applyRecord (d : Dev) (fuse : Bool) : Dev := d.each (d.record.writes.filter fun w => (w.block == 3) == fuse) fun d w => d.recordWrite w

/-- Stage 2 ends (R371, R424, R429): pair A runs, pair B stands by, the fuse box is configured and released, a wipe is reported (R442). Stage 3 starts with the
recorded row repairs, the open area of the firmware configuration record and the random key in K0 (R154, R159, R181), which waits for the random source (R428). -/
def Dev.endCores (d : Dev) : Dev :=
  if !d.strong.rngok then d
  else
    let d := d.modCores Cores.reloadStandby
    let d := d.each (List.range 4) fun d c => d.startCore (BitVec.ofNat 4 c)
    let m : Measure := { kind := 2, index := 0, secver := d.cores.secver.toNat, aux := d.cores.version.setWidth 64, hash := d.cores.hash }
    let d := (((d.measure m).measure { m with kind := 3 }).recordCeiling.applyRecord true).fuseRelease
    let d := if d.strong.wipePending then (d.modStrong fun s => { s with wipePending := false }).raise 640 d.strong.wipeCause.toNat else d
    let key := Config.random d.free
    let d := (d.modCellar fun c => { (c.loadKey 0 key) with training := false, pcRepair := d.flash, clearing := true, open_ := d.record.openArea }).take 1
    let d := d.modTime fun t => { t with ref10 := d.record.ref10 }
    d.modPower fun p => { p with stage := 3 }

/-- STARTUP_STAGE (R464): the current stage ends. Stage 3 lasts until the start-up sweep is over; with stage 4 the lanes, ports
and bundles of the record are configured; stage 5 lasts until RNGOK = 1, and with its end the device is READY. -/
def Dev.startupStage (x : StageEnd) (d : Dev) : Dev :=
  if d.power.cold then d
  else if d.power.stage = 0 then (if x = .done then d.endRom else d)
  else if d.power.stage = 1 then d.endFwload x
  else if x ≠ .done then d
  else if d.power.stage = 2 then d.endCores
  else if d.power.stage = 3 then (if d.cellar.clearing ∨ d.cellar.startup then d else d.modPower fun p => { p with stage := 4 })
  else if d.power.stage = 4 then
    let d := ((d.applyRecord false).modTime fun t => { t with enabled := true }).modPower fun p => { p with stage := 5 }
    if (d.time.lockedOnce ∧ d.time.src ≠ 3) ∨ d.record.freestart then d.armStart else d
  else if d.power.stage = 5 ∧ d.strong.rngok then
    ((d.putRings { d.rings with ready := true, recovering := false }).putPower { d.power with stage := 6 }).raise 709
  else d
def execStartupStage (x : StageEnd) (s : State) : Host.Outcome State Fault Refusal := run true (Dev.startupStage x) s

-- PCIe boot (R465)

/-- The address of the boot window, shared SRAM bank 48, and its size. -/
abbrev bootWindow : Nat := 48 * 2 ^ 20
abbrev bootSize : Nat := 2 * 2 ^ 20

/-- The next bytes of the image that the window holds: as many as the image still lacks, 2 MiB at most. The header names the number of frames. -/
def Dev.bootChunk (d : Dev) (s : Staging) : Bytes :=
  let m := d.strong.sram.mem
  let had := s.head.length + s.rest.length + 4096 * s.frames
  let head := if had = 0 then Memory.readN m bootWindow 512 else s.head
  Memory.readN m bootWindow (min bootSize (8704 + 4096 * imgFcount head - had))

/-- The window's content is consumed (R317, R465). A refusal is shown in BOOTERR and a new image is awaited; an image that is not firmware is
refused as IMG_BAD_FRAME (log entry 49). A complete image that passes continues start-up at stage 2. -/
def Dev.bootConsume (d : Dev) : Dev :=
  let s := if d.loader.firmware.phase = .receiving then d.loader.firmware else { phase := .receiving }
  let (s, bad) := d.stageFeed 0 s (d.bootChunk s)
  let whole := s.checked = 2 ∧ s.frames = imgFcount s.head
  let bad := if bad.isSome then bad
    else if s.checked ≠ 0 ∧ s.kind ≠ 3 then some { status := 0x22, detail := 1, frame := headFrame }
    else if whole then d.bodyFault s else none
  match bad with
  | some f => (d.modLoader fun l => { l with firmware := {} }).modPower fun p => { p with booterr := BitVec.ofNat 8 f.status }
  | none =>
    if whole then
      let h := s.head.take 512
      (d.modLoader fun l => { l with firmware := { s with phase := .verified } }).takeFirmware (BitVec.ofNat 8 (imgSecver h))
        (Config.firmwareVersion s.body) (sha3 h)
    else d.modLoader fun l => { l with firmware := s }

/-- A write of POWER_CTL.BOOTGO, accepted in PCIe boot alone (R472). -/
def Dev.bootgo (d : Dev) : Dev := if d.power.bootsrc = 2 ∧ d.power.stage = 1 ∧ !d.power.cold then d.bootConsume else d.ignore 0x11

/-- BOOTGO (R465) by the PF, after the host has written `w` into the boot window, which BAR2 maps in PCIe boot. -/
def Dev.bootgoWith (q : Requester) (w : Bytes) (d : Dev) : Dev :=
  if !d.isPf q then d
  else if d.power.bootsrc = 2 ∧ d.power.stage = 1 ∧ !d.power.cold then
    (d.modSram fun m => { m with mem := Memory.writeN m.mem bootWindow (w.take bootSize) }).bootgo
  else d.bootgo
def execBootgo (q : Requester) (w : Bytes) (s : State) : Host.Outcome State Fault Refusal := run true (Dev.bootgoWith q w) s

-- the governor

/-- The power counters: 0 CEILREF, 1 AVSRETRY, 2 WARMIGN (R472). -/
def Dev.countPower (d : Dev) (n : Nat) : Dev := d.modPower fun p => { p with cnt := bumpAt p.cnt n }

/-- The checks of R467 on the two fields of POWER_CFG. -/
def Dev.ceilingOk (d : Dev) (ceil hub : Nat) : Bool :=
  decide (150 ≤ ceil ∧ ceil ≤ 420 ∧ 60 ≤ hub ∧ hub ≤ 200 ∧ hub + 10 ≤ ceil)
    && ((ceil == d.power.ceil.toNat && hub == d.power.hubres.toNat) || (List.range 4).all fun w => decide (d.wingPeak w ≤ d.ceilingOf ceil hub))

/-- A write of POWER_CFG (R467): taken whole, or counted. -/
def Dev.writeCeiling (d : Dev) (v : Word) : Dev :=
  let ceil := fld v.toNat 0 9
  let hub := fld v.toNat 16 9
  if d.ceilingOk ceil hub then d.modPower fun p => { p with ceil := BitVec.ofNat 9 ceil, hubres := BitVec.ofNat 9 hub } else d.countPower 0
def execCeilingWrite (q : Requester) (v : Word) (s : State) : Host.Outcome State Fault Refusal :=
  run true (fun d => if d.isPf q then d.writeCeiling v else d) s

/-- POWER_READING (R468), in 0.1 W units: ten readings above P_ceil in a row set CEILOVER; a reading not above it clears it (log entry 50). -/
def Dev.powerReading (total hub : BitVec 16) (d : Dev) : Dev :=
  let above := if 10 * d.power.ceil.toNat < total.toNat then min 10 (d.power.above + 1) else 0
  let high : Bool := above == 10 || (d.power.ceilOver && above != 0)
  let was := d.power.ceilOver
  let d := d.modPower fun p => { p with measTotal := total, measHub := hub, above, ceilOver := high }
  if high = was then d else (d.raise 704).syncSweeps
def execPowerReading (total hub : BitVec 16) (s : State) : Host.Outcome State Fault Refusal := run true (Dev.powerReading total hub) s

def Power.setpoint (p : Power) (w : BitVec 2) : BitVec 16 := Tbl.get 850 p.vset w.toNat

/-- A wing's regulator faults or recovers (R469): AVSFAULT is set while one is in fault. -/
def Dev.setAvs (d : Dev) (w : BitVec 2) (fault : Bool) : Dev :=
  let d := d.modPower fun p => { p with vfault := Tbl.set false p.vfault w.toNat fault }
  (d.modPower fun p => { p with avsFault := !p.vfault.isEmpty }).raise 707

/-- The setpoint moves towards the one that the path monitors ask for, which the spec leaves open (log entry 51), within 700 to 850 mV and by at
most 5 mV. -/
def stepVcore (now want : Nat) : Nat :=
  let want := max 700 (min 850 want)
  if now < want then min want (now + 5) else max want (now - 5)

/-- VCORE_STEP (R469): the setpoint changes if 100 µs have passed since it did; a regulator that does not acknowledge or reads more than 20 mV
off is commanded to 850 mV. A regulator in fault waits for AVS_RETRY. -/
def Dev.vcoreStep (w : BitVec 2) (meas : BitVec 16) (ack : Bool) (d : Dev) : Dev :=
  let k := w.toNat
  if Tbl.get false d.power.vfault k then d
  else
    let cur := (d.power.setpoint w).toNat
    let due : Bool := decide (Tbl.get 0 d.power.lastVstep k + 100000 * ns ≤ d.now)
    let want := if due then stepVcore cur (Config.vcore d.free) else cur
    let d := if due then d.take 1 else d
    let bad : Bool := !ack || decide (20 < ((meas.toNat : Int) - want).natAbs)
    let moved : Bool := bad || want != cur
    let d := d.modPower fun p =>
      { p with vset := Tbl.set 850 p.vset k (if bad then 850 else BitVec.ofNat 16 want), vmeas := Tbl.set 0 p.vmeas k (if ack then meas else 0),
               lastVstep := if moved then Tbl.set 0 p.lastVstep k d.now else p.lastVstep }
    if bad then d.setAvs w true else d
def execVcoreStep (w : BitVec 2) (meas : BitVec 16) (ack : Bool) (s : State) : Host.Outcome State Fault Refusal :=
  run true (Dev.vcoreStep w meas ack) s

/-- AVS_RETRY (R469): one second after the fault or the last retry the regulator is tried again. -/
def Dev.avsRetry (w : BitVec 2) (ok : Bool) (d : Dev) : Dev :=
  if !Tbl.get false d.power.vfault w.toNat then d
  else
    let d := (d.reach (Tbl.get 0 d.power.lastVstep w.toNat + 10 ^ 9 * ns)).countPower 1
    let d := d.modPower fun p => { p with lastVstep := Tbl.set 0 p.lastVstep w.toNat d.now }
    if ok then d.setAvs w false else d
def execAvsRetry (w : BitVec 2) (ok : Bool) (s : State) : Host.Outcome State Fault Refusal := run true (Dev.avsRetry w ok) s

/-- The grade's maximum junction temperature in °C (R470, R1). -/
def Dev.tjmax (d : Dev) : Nat := if d.ident.iGrade then 105 else 100

/-- THERMAL_SAMPLE (R470), in 0.25 °C units: HOT and OVER follow the sensors. -/
def Dev.thermalSample (s : BitVec 6) (t : BitVec 16) (d : Dev) : Dev :=
  let x := Tbl.get ({} : Sensor) d.power.sensors s.toNat
  let d := d.modPower fun p => { p with sensors := Tbl.set {} p.sensors s.toNat { samples := if x.samples.toNat < 16 then x.samples + 1 else 16, temp := t } }
  let high : Bool := d.power.sensors.any fun (_, s) => decide (4 * (d.tjmax : Int) < s.temp.toInt)
  let d := if high = d.power.overTemp then d else (d.modPower fun p => { p with overTemp := high }).raise 706
  d.updateHot
def execThermalSample (k : BitVec 6) (t : BitVec 16) (s : State) : Host.Outcome State Fault Refusal := run true (Dev.thermalSample k t) s

-- registers (R472)

/-- A change of POWER_ROOMPG.OFF (R466): unbound enabled rooms go OFF, which loses what they hold, or IDLE. -/
def Dev.writeRoomPg (d : Dev) (off : Bool) : Dev :=
  if off = d.power.roomOff then d
  else
    let d := d.modPower fun p => { p with roomOff := off }
    d.each ((List.range 256).map (BitVec.ofNat 8)) fun d r =>
      if d.roomDisabled r ∨ (d.room r).func ≠ 0xFFFF then d
      else d.modRoom r fun x => if off then clearedRoom true x else { x with power := 1 }

/-- The hottest sensor (R472): the lowest number among equals; none before a sample. -/
def Power.hottest (p : Power) : Option (Nat × BitVec 16) :=
  p.sensors.foldl (fun b (k, s) => match b with | none => some (k, s.temp) | some (_, t) => if t.toInt < s.temp.toInt then some (k, s.temp) else b) none

def Power.thermValid (p : Power) : Bool := (List.range 64).all fun k => (Tbl.get ({} : Sensor) p.sensors k).samples == 16

def Dev.readPowerReg (d : Dev) (off : Nat) : Option Word :=
  let p := d.power
  let off := off % 0x200
  let w (n : Nat) : Option Word := some (BitVec.ofNat 32 n)
  if off % 4 ≠ 0 then none
  else if off = 0 then w (p.hubres.toNat * 65536 + p.ceil.toNat)
  else if off = 4 then w 0
  else if off = 8 then
    w (p.booterr.toNat * 2 ^ 24 + p.bootsrc.toNat * 4096 + bit p.thermValid 11 + bit p.avsFault 10 + bit p.ceilOver 9 + bit p.overTemp 8 + bit p.hot 7
      + p.stage.toNat)
  else if off = 0xC then w (p.measHub.toNat * 65536 + p.measTotal.toNat)
  else if off = 0x10 then w (match p.hottest with | some (k, t) => k * 65536 + t.toNat | none => 0)
  else if off = 0x14 then w p.hotCfg.toNat
  else if off = 0x18 then w (bit p.roomOff 0)
  else if off = 0x1C then w d.tokenCeiling
  else if 0x20 ≤ off ∧ off < 0x30 then w (d.wingPeak ((off - 0x20) / 4))
  else if 0x30 ≤ off ∧ off < 0x40 then
    let k := (off - 0x30) / 4
    w ((Tbl.get 0 p.vmeas k).toNat * 65536 + (p.setpoint (BitVec.ofNat 2 k)).toNat)
  else if 0x40 ≤ off ∧ off < 0x4C then some (Tbl.get {} p.cnt ((off - 0x40) / 4)).toWord
  else if off = 0x4C then w 0
  else if 0x100 ≤ off ∧ off < 0x200 then
    let x := Tbl.get ({} : Sensor) p.sensors ((off - 0x100) / 4)
    w (bit (x.samples == 16) 31 + x.temp.toNat)
  else none

/-- The HOT threshold that a write leaves (R472): from 60 °C to the grade's maximum. -/
def Dev.clampHot (d : Dev) (n : Nat) : BitVec 8 := BitVec.ofNat 8 (max 60 (min d.tjmax n))

def Dev.writePowerReg (d : Dev) (off : Nat) (v : Word) : Dev :=
  let off := off % 0x200
  if off = 0 then d.writeCeiling v
  else if off = 4 then
    let d := if bitOf v.toNat 1 then d.bootgo else d
    if bitOf v.toNat 0 then d.askWarm else d
  else if off = 0x14 then (d.modPower fun p => { p with hotCfg := d.clampHot (fld v.toNat 0 8) })
  else if off = 0x18 then d.writeRoomPg (bitOf v.toNat 0)
  else if off = 0x4C then d.modPower fun p => { p with cnt := clearBits p.cnt v.toNat 3 }
  else d

end Sys2Proof.Machine
end

