-- ==== Sys2Proof/Machine/Registers.lean ====
section
/-! DEFINITION. The register interface: address decode, read and write latches, indirect pairs, VF views, the ROOM and HUB registers
(16_registers.md R444 to R457; 02_rooms.md R64, R65). -/

namespace Sys2Proof.Machine
open Sys2Proof

def Dev.req (d : Dev) (q : Requester) : ReqState := Tbl.get {} d.hub.reqs (reqKey q)
def Dev.modReq (d : Dev) (q : Requester) (f : ReqState → ReqState) : Dev :=
  { d with hub := { d.hub with reqs := Tbl.modify {} d.hub.reqs (reqKey q) f } }

/-- One more on a HUB counter: 0 BADACC, 1 DECODE, 2 XERR (R457). -/
def Dev.countHub (d : Dev) (n : Nat) : Dev := { d with hub := { d.hub with cnt := bumpAt d.hub.cnt n } }

-- rooms (R64, R65)

/-- A room register; offsets alias mod 0x48. A fuse-disabled room shows DISABLED alone. An offset that names no register reads 0, and a write of it
is ignored (DESIGN CHOICE, log entry 124). -/
def Dev.readRoomReg (d : Dev) (r : RoomId) (off : Nat) : Word :=
  let x := d.room r
  let w (n : Nat) : Word := BitVec.ofNat 32 n
  let o := off % 0x48
  if d.roomDisabled r then (if o = 0 then 4 else 0)
  else if o = 0 then w (x.func.toNat * 65536 + bit x.thresh 4 + bit x.isolated 3 + x.power.toNat)
  else if o = 4 then w (x.gen.toNat * 256 + x.vroom.toNat)
  else if o = 8 then w (x.lastCommit.toNat % 2 ^ 32)
  else if o = 0xC then w (x.lastCommit.toNat / 2 ^ 32)
  else if 0x10 ≤ o ∧ o < 0x30 ∧ o % 4 = 0 then (Tbl.get {} x.cnt ((o - 0x10) / 4)).toWord
  else if o = 0x30 then w x.mwrPeak.toNat
  else if o = 0x44 then x.faultWord
  else 0

def Dev.writeRoomReg (d : Dev) (r : RoomId) (off : Nat) (v : Word) : Dev :=
  if d.roomDisabled r ∨ off % 0x48 ≠ 0x40 then d
  else d.modRoom r fun x => { x with cnt := clearBits x.cnt v.toNat 8, mwrPeak := if bitOf v.toNat 8 then 0 else x.mwrPeak }

-- the HUB block (R457)

/-- The identity is that of an ordering code (R1, R2): all rooms enabled at any step clock and grade that is supplied, or 16 disabled on each wing. -/
def Ident.legal (x : Ident) : Bool :=
  (x.disabled.isEmpty && (x.slowStep || !x.iGrade))
    || (decide x.disabled.Nodup && x.slowStep && !x.iGrade && (List.range 4).all fun w => (x.disabled.filter fun r => wingOf r == w).length == 16)

/-- A device of 256 rooms has them all; the 192-room codes have 64 disabled (R1, R2). -/
def Dev.enabledRooms (d : Dev) : Nat := 256 - d.ident.disabled.length

def Dev.hubId (d : Dev) : Nat :=
  7 * 2 ^ 24 + d.ident.stepping.toNat * 2 ^ 20 + d.enabledRooms * 256 + bit d.ident.iGrade 7 + bit (!d.ident.slowStep) 6

/-- The arbiter's figures of the selected function. -/
def Dev.figure (d : Dev) : Figure := Tbl.get {} d.hub.figures d.hub.arbSel.toNat

def Dev.readHubReg (d : Dev) (off : Nat) : Option Word :=
  let h := d.hub
  let w (n : Nat) : Option Word := some (BitVec.ofNat 32 n)
  let g := d.figure
  let fn := (d.func? h.arbSel).filter (·.phase == .admitted)
  if off % 4 ≠ 0 then none
  else if off = 0 then w d.hubId
  else if off = 4 then w d.idcode
  else if off = 8 then w (bit h.decode 0)
  else if 0x10 ≤ off ∧ off < 0x30 then
    w ((List.range 32).map fun i => bit (d.roomDisabled (BitVec.ofNat 8 ((off - 0x10) * 8 + i))) i).sum
  else if off = 0x40 then some h.dAddr
  else if off = 0x44 then w (bit h.dValid 31 + bit h.dWrite 30 + h.dView.toNat * 2 ^ 24 + h.dSrc.toNat * 65536)
  else if 0x50 ≤ off ∧ off < 0x5C then some (Tbl.get {} h.cnt ((off - 0x50) / 4)).toWord
  else if off = 0x5C ∨ off = 0x138 then w 0
  else if off = 0x100 then w h.arbSel.toNat
  else if off = 0x104 then w (bit fn.isSome 31 + bit (fn.any (·.obj.dual)) 30 + g.lastCause.toNat * 2 ^ 20)
  else if off = 0x108 then w (g.commits.toNat % 2 ^ 32)
  else if off = 0x10C then w (bit g.sat 31 + g.commits.toNat / 2 ^ 32)
  else if 0x110 ≤ off ∧ off < 0x138 then some (Tbl.get {} g.rollbacks ((off - 0x110) / 4 + 1)).toWord
  else d.readRing off

/-- A write of HUB_ARB_CNT_CLR: the figures of the selected function. -/
def Figure.clear (g : Figure) (w : Nat) : Figure :=
  let rb := (List.range 10).foldl (fun t i => if bitOf w i then Tbl.erase t (i + 1) else t) g.rollbacks
  let keep := !bitOf w 10
  { g with rollbacks := rb, commits := if keep then g.commits else 0, sat := keep && g.sat }
def Dev.clearFigures (d : Dev) (w : Nat) : Dev :=
  { d with hub := { d.hub with figures := Tbl.modify {} d.hub.figures d.hub.arbSel.toNat (·.clear w) } }

def Dev.writeHubReg (d : Dev) (off : Nat) (v : Word) : Dev :=
  let w := v.toNat
  if off = 8 then d.putHub { d.hub with decode := bitOf w 0 }
  else if off = 0x5C then d.putHub { d.hub with cnt := clearBits d.hub.cnt w 3 }
  else if off = 0x100 then d.putHub { d.hub with arbSel := BitVec.ofNat 16 w }
  else if off = 0x138 then d.clearFigures w
  else d.writeRing off v

-- latches (R448)

/-- The offset is the low word of a register of 64 bits that a block of the PF view names: block number and offset. -/
def isLow (b off : Nat) : Bool :=
  match b with
  | 0x0 => off == 0x108
  | 0x1 => decide (0x1000 ≤ off ∧ off < 0x9000 ∧ off % 0x40 ∈ [0x08, 0x10, 0x20, 0x28])
  | 0x2 => decide (0x900 ≤ off ∧ off < 0xD00 ∧ off % 16 = 8)
  | 0x4 => decide (off = 0x38 ∨ off = 0x44)
  | 0xE => off == 0xC4
  | 0xF => (decide (off < 0x1000) && (decide (off % 0x100 = 0x44) || decide (0x80 ≤ off % 0x100 ∧ off % 8 = 0))) || off == 0x1004
  | 0x10 => decide (off % 0x40 ∈ [0x08, 0x10, 0x18])
  | _ => false

/-- Low words that a write holds until the high word is written: those of RW registers, but for SCHED_TMR_NEXT (R406). -/
def isHeldLow (b off : Nat) : Bool :=
  isLow b off && (match b with
    | 0x1 => decide (off % 0x40 ≠ 0x28)
    | 0x4 => off == 0x44
    | 0xE | 0xF => true
    | _ => false)

/-- A read of a 64-bit register's word (R448): the low word latches the high one, and a matching latch answers for the high word once. `live` reads
the words; `tag` is the address of the one read. -/
def Dev.latchRead (d : Dev) (q : Requester) (tag : Nat) (low high : Bool) (live : Nat → Word) : Dev × Word :=
  if low then (d.modReq q fun x => { x with rdTag := some tag, rdVal := live (tag + 4) }, live tag)
  else if high ∧ (d.req q).rdTag = some (tag - 4) then (d.modReq q fun x => { x with rdTag := none, rdVal := 0 }, (d.req q).rdVal)
  else (d, live tag)

/-- A read of word k of TIME_NOW (R249): the fraction latches the other three, each until it is read. -/
def Dev.readNow (d : Dev) (q : Requester) (k : Nat) : Dev × Word :=
  let x := d.req q
  let t := some d.now
  match k with
  | 0 => (d.modReq q fun x => { x with nowNs := t, nowLo := t, nowHi := t }, nowWord d.now 0)
  | 1 => (d.modReq q fun x => { x with nowNs := none }, nowWord (x.nowNs.getD d.now) 1)
  | 2 => (d.modReq q fun x => { x with nowLo := none }, nowWord (x.nowLo.getD d.now) 2)
  | _ => (d.modReq q fun x => { x with nowHi := none }, nowWord (x.nowHi.getD d.now) 3)

-- indirect pairs (R454 to R456)

def ReqState.pair (x : ReqState) (lane : Bool) : Pair := if lane then x.lane else x.room
def Dev.modPair (d : Dev) (q : Requester) (lane : Bool) (f : Pair → Pair) : Dev :=
  d.modReq q fun x => if lane then { x with lane := f x.lane } else { x with room := f x.room }

/-- XA after an access (R455): XA[15:0] advances by STRIDE, and the outcome shows in ERR. -/
def Pair.after (p : Pair) (err : Bool) : Pair :=
  { p with xa := BitVec.ofNat 32 (p.xa.toNat / 65536 * 65536 + (p.xa.toNat + p.stride.toNat) % 65536), err }

/-- The view may reach what XA names: the PF everything, a VF the rooms of its functions (R456). -/
def Dev.roomVisible (d : Dev) (q : Requester) (r : RoomId) : Bool := d.isPf q || d.ownsFunc (d.viewOf q) (d.room r).func

/-- The word that XA = `a` names. -/
def Dev.targetWord (d : Dev) (q : Requester) (lane : Bool) (a : Nat) : Word :=
  if lane then d.readLaneReg (fld a 8 8) (a % 256)
  else
    let r := BitVec.ofNat 8 (fld a 8 8)
    if d.roomVisible q r then d.readRoomReg r (a % 256) else 0

/-- The way to a room or back has a link direction down that the other direction of its ring does not spare (R149, R150, R456). -/
def Dev.roomCut (d : Dev) (r : RoomId) : Bool :=
  (d.net.way (.hub 7) (.room r) ++ d.net.way (.room r) (.hub 7)).any fun k => (Tbl.get ({} : LinkState) d.net.links k).down

/-- The request and the response of an access of a room's register cross the network (R138, R139). -/
def Dev.carryReg (d : Dev) (r : RoomId) (write : Bool) (addr : Nat) (v : Word) : Dev :=
  let op := bit write 0
  d.putNet ((d.net.carry (.hub 7) (.room r) (reqFlits .req (.hub 7) (.room r) op addr (if write then v.toNat else 0))).carry (.room r) (.hub 7)
    (reqFlits .rsp (.room r) (.hub 7) 0 addr (if write then 0 else v.toNat)))

/-- The target did not answer (R456): ERR is set, the failure counts, XA advances. -/
def Dev.xdFail (d : Dev) (q : Requester) (lane : Bool) : Dev := (d.countHub 2).modPair q lane (·.after true)

/-- What a failed read returns (R456): all ones, or a bus error under KZ5 decode. -/
def Dev.xdLost (d : Dev) : Option Word := if d.hub.decode then none else some 0xFFFFFFFF

/-- A read of XD: the named register, with the latch rule at the target. Rooms' tags stand at 2^32, under the offset that their
aliases share (R65), lanes' at 2^33. A room that the network does not reach does not answer (R456). -/
def Dev.xdRead (d : Dev) (q : Requester) (lane : Bool) : Dev × Option Word :=
  let a := ((d.req q).pair lane).xa.toNat % 65536
  let r := BitVec.ofNat 8 (a / 256)
  if !lane ∧ d.roomCut r then (d.xdFail q lane, d.xdLost) else
  let base := if lane then 2 ^ 33 else 2 ^ 32
  let o := if lane then a else a / 256 * 256 + a % 256 % 0x48
  let low : Bool := !lane && o % 256 == 8
  let high : Bool := !lane && o % 256 == 0xC
  let (d, v) := d.latchRead q (base + o) low high fun t => d.targetWord q lane (t - base)
  ((if lane then d else d.carryReg r false a v).modPair q lane (·.after false), some v)

/-- A write of XD. -/
def Dev.xdWrite (d : Dev) (q : Requester) (lane : Bool) (v : Word) : Dev :=
  let a := ((d.req q).pair lane).xa.toNat % 65536
  let unit := fld a 8 8
  let r := BitVec.ofNat 8 unit
  if !lane ∧ d.roomCut r then d.xdFail q lane
  else
    let d := if lane then d.writeLaneReg unit (a % 256) v
      else (if d.roomVisible q r then d.writeRoomReg r (a % 256) v else d).carryReg r true a v
    d.modPair q lane (·.after false)

/-- A register of a pair other than XD, by its number. -/
def Pair.reg (p : Pair) (k : Nat) : Word :=
  match k with
  | 0 => p.xa
  | 2 => p.stride.setWidth 32
  | 3 => BitVec.ofNat 32 (bit p.err 30)
  | _ => 0

def Dev.readPair (d : Dev) (q : Requester) (lane : Bool) (k : Nat) : Dev × Option Word :=
  if k = 1 then d.xdRead q lane else (d, some (((d.req q).pair lane).reg k))

/-- A write of a pair's register: of XA, bits 15:0 (R8, R64, R282). -/
def Dev.writePair (d : Dev) (q : Requester) (lane : Bool) (k : Nat) (v : Word) : Dev :=
  match k with
  | 0 => d.modPair q lane fun p => { p with xa := BitVec.ofNat 32 (v.toNat % 65536) }
  | 1 => d.xdWrite q lane v
  | 2 => d.modPair q lane fun p => { p with stride := BitVec.ofNat 8 v.toNat }
  | _ => d

-- blocks (R445, R452, R453)

/-- The decoded size of a block, by its number. -/
def blockSize (b : Nat) : Nat :=
  [0x9000, 0x9000, 0x2000, 0x8000, 0x600, 0x800, 0x800, 0x200, 0x10, 0x3000, 0x5000, 0x10, 0x1000, 0x400, 0x10000, 0x1200, 0x400, 0x200].getD b 0

/-- The live value of a block's register; none where the block's map has none. -/
def Dev.readBlock (d : Dev) (q : Requester) (b off : Nat) : Option Word :=
  match b with
  | 0x0 => d.readHubReg off
  | 0x1 => d.readRingsReg off
  | 0x2 => d.readSchedReg off
  | 0x3 => d.readFuseReg off
  | 0x4 => d.readTimeReg off
  | 0x5 => d.readEthReg off
  | 0x6 => d.readSdiReg off
  | 0x7 => d.readFlowReg q off
  | 0x8 => if off % 4 = 0 then some (((d.req q).pair true).reg (off / 4)) else none
  | 0x9 => d.readLinkReg off
  | 0xA => d.readCellarReg off
  | 0xB => if off % 4 = 0 then some (((d.req q).pair false).reg (off / 4)) else none
  | 0xC => d.readFabricReg off
  | 0xD => d.readLoaderReg off
  | 0xE => d.readStrongReg off
  | 0xF => d.readCcoreReg off
  | 0x10 => d.readAcqReg off
  | 0x11 => d.readPowerReg off
  | _ => none

def Dev.writeBlock (d : Dev) (q : Requester) (b off : Nat) (v : Word) (lo : Option Word) : Dev :=
  match b with
  | 0x0 => d.writeHubReg off v
  | 0x1 => d.writeRingsReg q off v lo
  | 0x2 => d.writeSchedReg (d.viewOf q) off v
  | 0x3 => d.writeFuseReg off v
  | 0x4 => d.writeTimeReg off v lo
  | 0x5 => d.writeEthPort off v
  | 0x6 => d.writeSdiEngine off v
  | 0x7 => d.writeFlowReg q off v
  | 0x8 => d.writePair q true (off / 4) v
  | 0x9 => d.writeLinkReg off v
  | 0xA => d.writeCellarReg off v
  | 0xB => d.writePair q false (off / 4) v
  | 0xC => d.writeFabricReg off v
  | 0xD => d.writeLoaderReg off v
  | 0xE => d.writeStrongReg off v
  | 0xF => d.writeCcoreReg off v
  | 0x10 => d.writeAcqReg off v
  | 0x11 => d.writePowerReg off v
  | _ => d

/-- Where an access goes: a block's register, a location that reads 0 and ignores writes, or one that KZ5 decode refuses. -/
inductive Loc where
  | reg (block off : Nat)
  | vf (off : Nat)
  | absent
  | refused
  deriving DecidableEq, Repr

/-- PF BAR0 decodes one block alone: STRONG of a decommissioned device (R437), POWER in PCIe boot (R465). -/
def Dev.onlyBlock (d : Dev) : Option Nat :=
  if d.strong.life = .decommissioned then some 0xE
  else if d.power.bootsrc = 2 ∧ d.power.stage.toNat < 6 then some 0x11
  else none

/-- Decode of PF BAR0 (R445, R452, R453). -/
def Dev.locatePf (d : Dev) (q : Requester) (addr : Nat) : Loc :=
  let b := addr / 2 ^ 20
  let raw := addr % 2 ^ 20
  if d.power.cold ∨ d.onlyBlock.any (· ≠ b) then .absent
  else if d.hub.decode then
    if raw < blockSize b ∧ (d.readBlock q b raw).isSome then .reg b raw else .refused
  else if 0x12 ≤ b then .absent
  else .reg b (raw % 65536 % blockSize b)

/-- The offsets that R451 lists: in the pages of doorbells, those of R343. -/
def vfListed (off : Nat) : Bool :=
  decide (off % 4 = 0 ∧
    (off < 0x8000 ∨ off = 0x8000 ∨ off = 0x8004 ∨ off = 0x8008 ∨ (0x8010 ≤ off ∧ off < 0x8028) ∨ (0x8100 ≤ off ∧ off < 0x8300 ∧ off % 0x40 < 0x30)
      ∨ (0x8400 ≤ off ∧ off < 0x8480) ∨ (0x9000 ≤ off ∧ off < 0x9010)))

/-- Decode of a VF's BAR0 (R451 to R453). No VF is enabled in PCIe boot (R465) or on a decommissioned device. -/
def Dev.locateVf (d : Dev) (addr : Nat) : Loc :=
  if d.power.cold ∨ d.onlyBlock.isSome then .absent
  else if vfListed addr then .vf addr
  else if d.hub.decode then .refused
  else .absent

def Dev.locate (d : Dev) (q : Requester) (addr : Nat) : Loc := if d.isPf q then d.locatePf q addr else d.locateVf addr

/-- KZ5 decode refuses an access (R453): it counts, and its address, kind, view and source are recorded. -/
def Dev.refuseAccess (d : Dev) (q : Requester) (addr : Nat) (write : Bool) : Dev :=
  let src : BitVec 5 := match q with | .fn _ => 0 | .core c => BitVec.ofNat 5 (c.toNat + 1)
  let d := d.countHub 1
  { d with hub := { d.hub with dAddr := BitVec.ofNat 32 addr, dValid := true, dWrite := write, dView := d.viewOf q, dSrc := src } }

-- the VF view (R451)

/-- The pairs of a view in ascending order (R343). -/
def Dev.pairsOf (d : Dev) (view : BitVec 6) : List Nat := (d.rings.pairs.filter fun (_, p) => p.owner == view).map (·.1)

/-- The ith pair of a requester's view. -/
def Dev.vfPair (d : Dev) (q : Requester) (i : Nat) : Option (BitVec 9) := (d.pairsOf (d.viewOf q))[i]?.map (BitVec.ofNat 9)

/-- VF_EV_MASK of the sources from 32w on: IEN where the route names the VF. -/
def Dev.evMask (d : Dev) (view : BitVec 6) (w : Nat) : Nat :=
  ((List.range 32).map fun i =>
    let r := Tbl.get ({} : Route) d.sched.routes (32 * w + i)
    bit (r.fn == view && r.ien) i).sum

/-- The live value of a listed offset of the VF view but for TIME_NOW and the indirect pair. -/
def Dev.vfWord (d : Dev) (q : Requester) (off : Nat) : Word :=
  let w (n : Nat) : Word := BitVec.ofNat 32 n
  if off = 0x8000 then w (d.viewOf q).toNat
  else if off = 0x8004 then w d.hubId
  else if off = 0x8008 then w d.idcode
  else if off = 0x8020 then w (d.time.n.toNat % 2 ^ 32)
  else if off = 0x8024 then w (d.time.n.toNat / 2 ^ 32)
  else if 0x8100 ≤ off ∧ off < 0x8300 then
    (match d.vfPair q ((off - 0x8100) / 0x40) with
     | some k => d.readPairReg k (off % 0x40)
     | none => 0)
  else if 0x8400 ≤ off ∧ off < 0x8480 then w (d.evMask (d.viewOf q) ((off - 0x8400) / 4))
  else 0

/-- The low words of the VF view. -/
def vfLow (off : Nat) : Bool := off == 0x8020 || decide (0x8100 ≤ off ∧ off < 0x8300 ∧ off % 0x40 ∈ [0x08, 0x10, 0x20, 0x28])

/-- A read that returns a word. -/
def answered (x : Dev × Word) : Dev × Option Word := (x.1, some x.2)

def Dev.readVf (d : Dev) (q : Requester) (off : Nat) : Dev × Option Word :=
  if 0x8010 ≤ off ∧ off < 0x8020 then answered (d.readNow q ((off - 0x8010) / 4))
  else if 0x9000 ≤ off then d.readPair q false ((off - 0x9000) / 4)
  else answered (d.latchRead q off (vfLow off) (vfLow (off - 4)) (d.vfWord q))

/-- VF_EV_MASK writes IEN of the sources whose route names the VF (R387). -/
def Dev.writeEvMask (d : Dev) (view : BitVec 6) (w : Nat) (v : Word) : Dev :=
  d.each (List.range 32) fun d i =>
    let n := 32 * w + i
    if (Tbl.get ({} : Route) d.sched.routes n).fn = view then d.writeRoute view n (bit (v.getLsbD i) 30) else d

def Dev.writeVf (d : Dev) (q : Requester) (off : Nat) (v : Word) (lo : Option Word) : Dev :=
  if off < 0x8000 then
    match d.vfPair q (off / 0x1000), off % 0x1000 with
    | some k, 0 => d.writeSqPi k v
    | some k, 4 => d.writeCqCi k v
    | _, _ => d
  else if 0x8100 ≤ off ∧ off < 0x8300 then
    match d.vfPair q ((off - 0x8100) / 0x40) with
    | some k =>
      let d := match lo with | some l => d.writePairReg q k (off % 0x40 - 4) l none | none => d
      d.writePairReg q k (off % 0x40) v lo
    | none => d
  else if 0x8400 ≤ off ∧ off < 0x8480 then d.writeEvMask (d.viewOf q) ((off - 0x8400) / 4) v
  else if 0x9000 ≤ off then d.writePair q false ((off - 0x9000) / 4) v
  else d

-- reads and writes

/-- A read of a block's register by the PF view, with the registers that a read moves: XD, TIME_NOW, CCORE_LDD, 64-bit words. -/
def Dev.readAt (d : Dev) (q : Requester) (b off : Nat) : Dev × Option Word :=
  if b = 0xB ∨ b = 0x8 then d.readPair q (b == 8) (off / 4)
  else if b = 4 ∧ 0x10 ≤ off ∧ off < 0x20 then answered (d.readNow q ((off - 0x10) / 4))
  else if b = 0xF ∧ off < 0x1000 ∧ off % 0x100 = 0x14 then answered (d.accessLdd (BitVec.ofNat 4 (off / 0x100)) none)
  else answered <| d.latchRead q (b * 2 ^ 20 + off) (isLow b off) (decide (4 ≤ off) && isLow b (off - 4)) fun t => (d.readBlock q b (t - b * 2 ^ 20)).getD 0

/-- A register read (R447 to R453): none is a bus error. -/
def Dev.regRead (d : Dev) (q : Requester) (addr : Nat) : Dev × Option Word :=
  match d.locate q addr with
  | .reg b off => d.readAt q b off
  | .vf off => d.readVf q off
  | .absent => (d, some 0)
  | .refused => (d.refuseAccess q addr false, none)

/-- A write of a 64-bit register's word (R448): the low word is held, and the high word's write applies both. -/
def Dev.latchWrite (d : Dev) (q : Requester) (tag : Nat) (low high : Bool) (v : Word) (put : Dev → Option Word → Dev) : Dev :=
  if low then d.modReq q fun x => { x with wrTag := some tag, wrVal := v }
  else if high ∧ (d.req q).wrTag = some (tag - 4) then put (d.modReq q fun x => { x with wrTag := none, wrVal := 0 }) (some (d.req q).wrVal)
  else put d none

/-- A write of a block's register by the PF view. -/
def Dev.writeAt (d : Dev) (q : Requester) (b off : Nat) (v : Word) : Dev :=
  d.latchWrite q (b * 2 ^ 20 + off) (isHeldLow b off) (decide (4 ≤ off) && isHeldLow b (off - 4)) v fun d lo =>
    let d := match lo with | some l => d.writeBlock q b (off - 4) l none | none => d
    d.writeBlock q b off v lo

/-- A register write with all byte enables set (R447 to R453). -/
def Dev.regWrite (d : Dev) (q : Requester) (addr : Nat) (v : Word) : Dev :=
  match d.locate q addr with
  | .reg b off => d.writeAt q b off v
  | .vf off => d.latchWrite q off (vfLow off && decide (0x8100 ≤ off)) (vfLow (off - 4) && decide (0x8104 ≤ off)) v fun d lo => d.writeVf q off v lo
  | .absent => d
  | .refused => d.refuseAccess q addr true

/-- What a read returns, or the bus error in its place. -/
def Dev.answer (d : Dev) (q : Requester) (v : Option Word) : Dev :=
  match v with
  | some x => d.emit (.read q x)
  | none => d.emit (.readAbort q)

-- commands

/-- The address of the word that a command about an indirect pair reaches: none for a LANE pair in a VF view. -/
def Dev.xdAllowed (d : Dev) (q : Requester) (lane : Bool) : Bool := !d.power.cold && d.onlyBlock.isNone && (d.isPf q || !lane)

/-- XD_READ (R455). -/
def execXdRead (q : Requester) (lane : Bool) (s : State) : Host.Outcome State Fault Refusal :=
  run true (fun d =>
    if d.xdAllowed q lane then (let (e, v) := d.xdRead q lane; e.answer q v) else d.answer q (some 0)) s

/-- XD_WRITE (R455). -/
def execXdWrite (q : Requester) (lane : Bool) (v : Word) (s : State) : Host.Outcome State Fault Refusal :=
  run true (fun d => if d.xdAllowed q lane then d.xdWrite q lane v else d) s

/-- XD_TIMEOUT (R456): a read answers all ones, or a bus error under KZ5 decode. -/
def Dev.xdTimeout (q : Requester) (lane write : Bool) (d : Dev) : Dev :=
  if !d.xdAllowed q lane then d
  else
    let e := d.xdFail q lane
    if write then e else e.answer q d.xdLost
def execXdTimeout (q : Requester) (lane write : Bool) (s : State) : Host.Outcome State Fault Refusal := run true (Dev.xdTimeout q lane write) s

/-- LATCHED_READ (R448): a read of the word at an offset of the requester's BAR0. Accesses are in aligned words (R447). -/
def execLatchedRead (q : Requester) (addr : BitVec 26) (s : State) : Host.Outcome State Fault Refusal :=
  run true (fun d => let (e, v) := d.regRead q (addr.toNat / 4 * 4); e.answer q v) s

/-- REGISTER_WRITE (R447): a write with a byte enable clear is dropped and counted. -/
def execRegisterWrite (q : Requester) (addr : BitVec 26) (v : Word) (be : BitVec 4) (s : State) : Host.Outcome State Fault Refusal :=
  run true (fun d => if be = 0xF then d.regWrite q (addr.toNat / 4 * 4) v else d.countHub 0) s

/-- COUNTER_CLEAR (R9): a write of a counter-clear register. -/
def execCounterClear (q : Requester) (addr : BitVec 26) (v : Word) (s : State) : Host.Outcome State Fault Refusal :=
  run true (fun d => d.regWrite q (addr.toNat / 4 * 4) v) s

/-- SRAM_BANK_POWER (R434, R448): a write of STRONG_SRAM_PWR_LO, or of _HI. -/
def execSramBankPower (q : Requester) (hi : Bool) (v : Word) (s : State) : Host.Outcome State Fault Refusal :=
  run true (fun d => if d.isPf q then d.regWrite q (if hi then 0xE000C8 else 0xE000C4) v else d) s

end Sys2Proof.Machine
end

