-- ==== Sys2Proof/Machine/Beat.lean ====
section
/-! DEFINITION. The beat boundary: its start, what every unit does at it, and the operations that take effect there (01_organisation.md R18,
R19, R22; 03_beat_and_commit.md R66 to R104; 08_time.md R238 to R242; 12_host_interface.md R357, R358; 17_power_reset_startup.md R463). -/

namespace Sys2Proof.Machine
open Sys2Proof

-- operations at a boundary (R357, R358)

/-- BEAT_SLIP at its boundary (R241): the beat that starts here is longer or shorter; its limits are judged on the functions admitted now. -/
def Dev.slipEffect (x : DescRef) (e : RetEntry) (status : Nat) (d : Dev) : Dev :=
  let units := (BitVec.ofNat 32 (dfld e.desc 0x18 4)).toInt
  let d := d.modTime fun t => { t with slips := t.slips.filter (·.desc != x) }
  match d.slipRefusal units with
  | some k => d.finish x 0x10 k
  | none => (((d.commitPoint x).modTime fun t => { t with slipNow := units, carries := true }).raise 581).finish x status 0

/-- The effect of an operation at the boundary that starts the current beat. -/
def Dev.opEffect (x : DescRef) (e : RetEntry) (status : Nat) (d : Dev) : Dev :=
  match descOpcode e.desc with
  | 0x10 => d.admitEffect x e status d.time.n
  | 0x11 => d.retireEffect x e status
  | 0x13 => d.paramEffect x e status
  | 0x22 => d.routeEffect x e status
  | 0x31 => d.imageEffect x e status
  | 0x50 => d.armEffect x e status
  | 0x61 => d.slipEffect x e status
  | 0x70 => d.mirrorEffect x e status
  | _ => d

/-- A late operation with STRICT completes REFUSED_LATE and has no effect (R358): an admission's binding is undone, a standby pair that was
loaded is reloaded. -/
def Dev.refuseLate (x : DescRef) (e : RetEntry) (d : Dev) : Dev :=
  match descOpcode e.desc with
  | 0x10 => d.undoStrict x e
  | 0x31 => (if d.appliesFw e.desc then d.modCores Cores.reloadStandby else d).finish x 4 0
  | 0x61 => (d.modTime fun t => { t with slips := t.slips.filter (·.desc != x) }).finish x 4 0
  | _ => d.finish x 4 0

/-- The boundary that starts the current beat has reached an operation's target (R242); one without a target takes the first boundary, or on a
mirrored pair its beat (R276). -/
def Dev.opReached (d : Dev) (e : RetEntry) : Bool :=
  if !descTimed e.desc then (match e.apply with | some b => decide (b ≤ d.time.n) | none => true)
  else if descTbase e.desc then decide (descTarget e.desc * ns ≤ d.time.start)
  else decide (descTarget e.desc ≤ d.time.n.toNat)

/-- The boundary lies after the first one that reaches the target (R358): `prev` is the device time of the boundary before, if there was one. -/
def Dev.opLate (d : Dev) (e : RetEntry) (prev : Option Instant) : Bool :=
  descTimed e.desc && (if descTbase e.desc then prev.any (fun p => decide (descTarget e.desc * ns ≤ p)) else decide (descTarget e.desc < d.time.n.toNat))

/-- An operation that acts at boundaries has been ready for 4 µs (R357). A migration judges its own target. -/
def Dev.opReady (d : Dev) (e : RetEntry) : Bool :=
  boundaryOp (descOpcode e.desc) && descOpcode e.desc != 0x12 && e.accept && e.phase == .accepted && e.started
    && (match e.ready with | some r => decide (r + 4000 * ns ≤ d.time.start) | none => false)

/-- It cannot take effect at this boundary for a reason of its own: a slip where the boundary carries one already (R241), firmware that is not
ready, or whose boundary applies a loader application (R22, R372), an admission while a period change is pending (R240). -/
def Dev.opBlocked (d : Dev) (e : RetEntry) (applied : Bool) : Bool :=
  (descOpcode e.desc == 0x61 && d.time.carries) || (descOpcode e.desc == 0x10 && d.time.pendPeriod.isSome)
    || (descOpcode e.desc == 0x31 && d.appliesFw e.desc && (!d.cores.handover || applied))

/-- An open operation at the boundary: it takes effect, on time or late, is refused as late, or waits on. -/
def Dev.opAt (prev : Option Instant) (applied : Bool) (d : Dev) (x : DescRef) : Dev :=
  match d.entry? x with
  | none => d
  | some e =>
    if !d.opReady e ∨ !d.opReached e ∨ d.opBlocked e applied ∨ d.waitsFor e then d
    else if !d.opLate e prev then d.opEffect x e 0
    else if descStrict e.desc then d.refuseLate x e
    else d.opEffect x e 3

/-- Open operations in their order of acceptance (R21). -/
def insertOp (x : DescRef × Nat) : List (DescRef × Nat) → List (DescRef × Nat)
  | [] => [x]
  | y :: t => if x.2 < y.2 then x :: y :: t else y :: insertOp x t
def Dev.opOrder (d : Dev) (p : RetEntry → Bool) : List DescRef :=
  (((d.openOps.filter fun (_, e) => p e).map fun (x, e) => (x, e.order)).foldr insertOp []).map (·.1)

/-- An operation of the loader, firmware apart, took effect. -/
def Dev.tookEffect (d : Dev) (x : DescRef) : Bool :=
  match d.entry? x with
  | some e => e.phase == .committed || (e.phase == .completed && (e.record.status == 0 || e.record.status == 3))
  | none => true

/-- Every operation whose boundary this is: the handover of firmware comes last, and not at a boundary that applies anything else (R22). -/
def Dev.opsAtBoundary (d : Dev) (prev : Option Instant) : Dev :=
  let fw (e : RetEntry) : Bool := descOpcode e.desc == 0x31 && d.appliesFw e.desc
  let loads := d.opOrder fun e => loaderOp (descOpcode e.desc) || (descOpcode e.desc == 0x31 && !fw e)
  let late := d.opOrder fw
  let finishing := d.fabric.applying.any (·.left.isEmpty)
  let d := d.each (d.opOrder fun e => !fw e) (Dev.opAt prev false)
  let applied := finishing || loads.any fun x => d.tookEffect x
  d.each late (Dev.opAt prev applied)

-- the rooms and hub units of functions

/-- A room at the boundary that ends beat `n`, with the PASS packet of its first pass (R18, R83, R396). -/
def Dev.roomBoundary (n : Beat) (d : Dev) (r : RoomId) : Dev :=
  let rm := (d.room r).atBoundary n
  let d := d.setRoom r rm
  if rm.phase = .run then d.trace 0 r.toNat rm.func 0 d.time.n d.now else d

/-- The rooms that run functions. -/
def Dev.boundRooms (d : Dev) : List RoomId := (d.rooms.filter fun (_, x) => x.func != 0xFFFF).map fun (k, _) => BitVec.ofNat 8 k

/-- HP_RXSUB of the hub ports that a function's drains go to, for the beat that starts (R293, R295): 1 where the beat that ends has rolled back. -/
def Dev.markSubst (d : Dev) (f : Func) : Dev :=
  let back := f.decided.any (!·.commit)
  let ports := (f.obj.bindings.filter (·.type == 2)).filterMap fun b =>
    let r := Tbl.get 0 f.ends.drains b.num
    if refKind r = 4 then some (refNum r % 64) else none
  d.each ports fun d p => d.modHp p fun h => { h with rxsub := back }

/-- The hub units of a function at the boundary that ends beat `n` (R81, R83, R99, R217): the words of the beat are emitted in the next one, as the
decision that they hold says. -/
def Dev.hubBoundary (n : Beat) (d : Dev) (f : Func) : Dev :=
  let d := d.markSubst f
  let d := d.modFunc f.id fun f => { f with emitting := f.filling, filling := [], emitBeat := n, emitCommit := false, released := [], hubAtt := false, wlines := [] }
  match f.hubDec with
  | some x => d.hubApply x
  | none => d

/-- The arbiter's entry of a function for the beat that starts (R87): after a ROLLBACK the deadline counts from step 64. -/
def Func.newBeat (f : Func) : Func :=
  { f with votes := [], verdicts := [], hubFault := false, ordered := false, decided := none, hubDec := none,
           deadlineD := (match f.decided with | some x => if x.commit then 0 else 64 | none => 0) }

/-- Undecided functions are decided before the boundary: their vote deadline has passed (R80, R87). -/
def Dev.decideAll (d : Dev) : Dev := d.each (d.funcs.map (·.id)) fun d id => d.tryDecide id true

-- the boundary

/-- The end of beat `n`: rooms, migrations and hub units take the decisions, links and queues take what boundaries change. -/
def Dev.endBeat (d : Dev) (n : Beat) : Dev :=
  let d := d.each d.boundRooms (Dev.roomBoundary n)
  let d := d.migrationsAtBoundary d.time.n d.time.start
  let d := d.each d.funcs (Dev.hubBoundary n)
  let d : Dev := d.putFuncs ((d.funcs.filter fun f : Func => !(f.phase == .retiring && f.places.isEmpty)).map Func.newBeat)
  (d.modCellar fun c => { c with flights := c.flights.filter fun x => decide (n < x.beat) }).linksAtBoundary

/-- The first boundary after the hub's return (R463 step 5): rooms and lanes start. -/
def Dev.startAgain (d : Dev) : Dev :=
  let d := d.each d.boundRooms fun d r => (d.modRoom r fun rm => { rm with phase := .run, undecided := none, ahead := false }).passStart r
  d.warmEnd

/-- Admissions that were reserved before the period changed, and held since, give their reservation back and begin again: their checks were made for
the old period (R240; DESIGN CHOICE, log entry 184). -/
def Dev.admitAgain (d : Dev) : Dev :=
  d.each (d.openOps.filter fun (_, e) => descOpcode e.desc == 0x10 && e.started && e.phase == .accepted) fun d (x, e) =>
    let d := match d.funcs.find? (fun f => f.id == BitVec.ofNat 16 (d.admitId e.desc) && f.phase == .reserved) with
      | some f => d.undoAdmission f
      | none => d
    d.modEntry x fun e => { e with started := false, ready := none }

/-- A pending period change takes effect at its boundary, unless that carries a slip (R240). -/
def Dev.changePeriod (d : Dev) : Dev :=
  match d.time.pendPeriod with
  | some (p, tgt) =>
    if tgt ≤ d.time.n ∧ !d.time.carries then (d.modTime fun t => { t with period := p, pendPeriod := none }).admitAgain else d
  | none => d

/-- The next boundary (R66, R238, R241). -/
def Dev.setNext (d : Dev) : Dev :=
  d.modTime fun t => { t with next := ((t.start : Int) + ((t.period.toNat : Int) + t.slipNow) * (8 * (ns : Int))).toNat }

/-- What the boundary that starts the current beat brings: operations, the beat's length, words of feeds and ports, the fabric, the link, the
fuse box, reports. `from_` is the start of the window of the feeds (R212). -/
def Dev.beginBeat (d : Dev) (prev : Option Instant) (from_ : Instant) (decided : List Decision) : Dev :=
  let d := ((d.queuesAtBoundary.opsAtBoundary prev).changePeriod).setNext
  let d := (d.feedsAtBoundary from_ d.time.start).portsLand.fabricAtBoundary
  ((d.linkAtBoundary decided).fuseAtBoundary).attSnapshot

/-- BEAT_BOUNDARY (R18, R19, R238): device time reaches B_n; the device's own frames for itself have arrived (R265). Through a warm reset the beat number goes on and nothing else does (R463). -/
def Dev.beatBoundary (d : Dev) : Dev :=
  if !d.time.run ∨ d.power.cold then d
  else
    let was := d.halted
    let d := (d.reach d.time.next).deliverOwn.decideAll
    let n := d.time.n
    let old := d.time.start
    let decided := d.funcs.filterMap (·.decided)
    let d := d.modTime fun t => { t with n := t.n + 1, start := t.next, slipNow := 0, carries := false, starts := (t.start :: t.starts).take 64 }
    if was then
      if d.power.returned then d.startAgain.beginBeat (some old) old [] else d.changePeriod.setNext.attSnapshot
    else
      let hubHas (f : Func) : Func := if d.halted then { f with hubDec := f.decided } else f
      let d := (d.putFuncs (d.funcs.map hubHas)).endBeat n
      if d.halted then d.warmHalt.changePeriod.setNext.attSnapshot else d.beginBeat (some old) old decided
def execBeatBoundary (s : State) : Host.Outcome State Fault Refusal := run true Dev.beatBoundary s

/-- BEAT_START (R239): the first boundary of an ordered start. Held scheduler deadlines begin to count (R376). -/
def Dev.beatStart (d : Dev) : Dev :=
  if !d.time.armed ∨ d.time.run ∨ d.power.cold then d
  else
    let d := d.reach d.time.next
    let d := (d.modTime fun t => { t with run := true, armed := false, n := t.first, start := t.next, slipNow := 0, carries := false, starts := [] }).raise 582
    let d := d.beginBeat none (d.time.start - d.period) []
    d.releaseHeld
def execBeatStart (s : State) : Host.Outcome State Fault Refusal := run true Dev.beatStart s

end Sys2Proof.Machine
end

