-- ==== Sys2Proof/Machine/Tap.lean ====
section
/-! DEFINITION. The test access port and the JTAG memory port (18_package_and_electrical.md R483 to R486; 06_cellar.md R185; 15_strongroom.md
R440). -/

namespace Sys2Proof.Machine
open Sys2Proof

/-- The instruction that a code of the instruction register selects (R483). -/
def tapOf (c : BitVec 8) : TapInstr :=
  match c.toNat with
  | 0x00 => .extest | 0x01 => .idcode | 0x02 => .sample | 0x04 => .clamp | 0x05 => .highz | 0x06 => .extestPulse | 0x07 => .extestTrain
  | 0xFF => .bypass | _ => .other c

/-- An instruction that takes control of the pins (R486). -/
def tapDrives : TapInstr → Bool
  | .extest | .clamp | .highz | .extestPulse | .extestTrain => true
  | _ => false

/-- Debug is locked for what bit `k` of SCOPE opens (R440); `none` asks whether anything is open. -/
def Dev.debugLocked (d : Dev) (k : Option Nat) : Bool :=
  let open_ := d.strong.dbg.unlocked && (match k with | some i => d.strong.dbg.scope.getLsbD i | none => true)
  match d.strong.life with
  | .blank | .provisioned => false
  | .deployed | .returned => !open_
  | .decommissioned => true

/-- The TAP's instruction register takes an instruction; `pins` says that the boundary cells drive the pins. -/
def Dev.loadTap (d : Dev) (x : TapInstr) (pins : Bool) : Dev := d.putTap { d.tap with instr := x, pins }

/-- A lane or PCIe receiver or transmitter, which IEEE 1149.6 tests. -/
def isAc : BoundaryPin → Bool
  | .laneTx _ | .laneRx _ | .pcieTx _ | .pcieRx _ => true
  | _ => false

/-- The pins of the boundary register (R484): 96 lanes have cells. -/
def hasCell : BoundaryPin → Bool
  | .laneTx l | .laneRx l => decide (l.toNat < 96)
  | _ => true

/-- What an instruction does with the boundary register (R483, R484, R486): SAMPLE/PRELOAD captures the pins and fills the update stage while the
device drives its pins; the EXTEST instructions capture and drive them, EXTEST_PULSE and EXTEST_TRAIN with their signal on the AC-coupled ones; CLAMP
drives what stands in the update stage and HIGHZ lets every pin go. -/
def Dev.boundary (i : TapInstr) (pins scan : List (BoundaryPin × Bool)) (d : Dev) : Dev :=
  let scanned : Tap := { d.tap with captured := pins.filter (hasCell ·.1), update := scan.filter (hasCell ·.1) }
  match i with
  | .sample => d.putTap scanned
  | .extest => let d := d.putTap scanned; d.emit (.boundary i (d.tap.update.filter fun x => !isAc x.1))
  | .extestPulse | .extestTrain => let d := d.putTap scanned; d.emit (.boundary i d.tap.update)
  | .clamp => d.emit (.boundary i d.tap.update)
  | .highz => d.emit (.boundary i [])
  | _ => d

/-- TAP_INSTRUCTION (R483, R486): an instruction for the pins acts as BYPASS unless PORST_N is low; a reserved or debug code acts as BYPASS where
debug is locked, which counts as a locked access (R440). VAUX must be in range. -/
def Dev.tapInstruction (i : TapInstr) (pins scan : List (BoundaryPin × Bool)) (d : Dev) : Dev :=
  let i := match i with | .other c => tapOf c | x => x
  if .vaux ∈ d.power.railsOut then d
  else match i with
    | .other _ => if d.debugLocked none then (d.loadTap .bypass false).lockedDebugAccess else d.loadTap i false
    | _ =>
      if tapDrives i then (if d.power.porst then d.loadTap .bypass false else (d.loadTap i true).boundary i pins scan)
      else (d.loadTap i false).boundary i pins scan
def execTapInstruction (x : TapScan) (s : State) : Host.Outcome State Fault Refusal :=
  run true (Dev.tapInstruction x.instr x.pins x.scan) s

/-- JTAG_MEMORY_PORT_ACCESS (R185, R440): a read gives the byte as the stack stores it, 0 in the device reserve; a write is performed in an
enabled unsealed region and fails elsewhere. A locked access is refused. A read meets the stack's ECC; a byte of an uncorrectable word is open (R157;
log entry 8). -/
def Dev.jtagMemory (addr : BitVec 34) (x : JtagAccess) (d : Dev) : Dev :=
  let a := addr.toNat
  if d.debugLocked (some 0) then d.lockedDebugAccess.emit .jtagError
  else match x with
    | .read e =>
      if 0x3F0000000 ≤ a then d.emit (.jtag 0)
      else
        let lost : Bool := (e.uncorrectable && decide (a / 8 = 16 * (a / 128) + e.word.toNat)) || decide (a / 8 ∈ d.cellar.unread)
        let d := d.rawEcc (a / 128) e
        if lost then (d.emit (.jtag ((Config.ueLine d.free).setWidth 8))).take 1 else d.emit (.jtag (Memory.read d.cellar.mem a))
    | .write b =>
      if a < 0x380000000 ∧ d.cellar.rawOk (a / 128) then d.modCellar fun c => { c with mem := Memory.write c.mem a b } else d.emit .jtagError
def execJtagMemoryPortAccess (addr : BitVec 34) (x : JtagAccess) (s : State) : Host.Outcome State Fault Refusal :=
  run true (Dev.jtagMemory addr x) s

end Sys2Proof.Machine
end

