-- ==== Sys2Proof/Machine/Dispatch.lean ====
section
/-! DEFINITION. One arm for each command: the one meaning it has. -/

namespace Sys2Proof.Machine
open Sys2Proof

/-- The effect of a command on everything but the queue. -/
def exec (i : Instr) (s : State) : Host.Outcome State Fault Refusal :=
  match i with
  | .beatBoundary => Sys2Proof.Machine.execBeatBoundary s
  | .beatStart => Sys2Proof.Machine.execBeatStart s
  | .eval r b u => Sys2Proof.Machine.execEval r b u s
  | .send r b u => Sys2Proof.Machine.execSend r b u s
  | .mrd r b u => Sys2Proof.Machine.execMrd r b u s
  | .mwr r b u => Sys2Proof.Machine.execMwr r b u s
  | .sli r b u => Sys2Proof.Machine.execSli r b u s
  | .slr r b u => Sys2Proof.Machine.execSlr r b u s
  | .lvb r b u => Sys2Proof.Machine.execLvb r b u s
  | .nopInstruction r b u => Sys2Proof.Machine.execNopInstruction r b u s
  | .levelWaitEnd r => Sys2Proof.Machine.execLevelWaitEnd r s
  | .sliceResultReady r sl => Sys2Proof.Machine.execSliceResultReady r sl s
  | .readStreamIssue st => Sys2Proof.Machine.execReadStreamIssue st s
  | .streamWords st => Sys2Proof.Machine.execStreamWords st s
  | .xchPacket src dst step => Sys2Proof.Machine.execXchPacket src dst step s
  | .vote r => Sys2Proof.Machine.execVote r s
  | .verdict st => Sys2Proof.Machine.execVerdict st s
  | .voteDeadline f => Sys2Proof.Machine.execVoteDeadline f s
  | .decision dest => Sys2Proof.Machine.execDecision dest s
  | .lateStall r => Sys2Proof.Machine.execLateStall r s
  | .remoteDecision dev f beat commit => Sys2Proof.Machine.execRemoteDecision dev f beat commit s
  | .drainRelease f d => Sys2Proof.Machine.execDrainRelease f d s
  | .flitCrcError l => Sys2Proof.Machine.execFlitCrcError l s
  | .linkDown l => Sys2Proof.Machine.execLinkDown l s
  | .linkRetrainDone l => Sys2Proof.Machine.execLinkRetrainDone l s
  | .linkRetrainRetry l => Sys2Proof.Machine.execLinkRetrainRetry l s
  | .ringHoldEnd k => Sys2Proof.Machine.execRingHoldEnd k s
  | .cellarRead k q addr ecc => Sys2Proof.Machine.execCellarRead k q addr ecc s
  | .rowRepairDone pc => Sys2Proof.Machine.execRowRepairDone pc s
  | .cellarWrite k q addr mask data ecc => Sys2Proof.Machine.execCellarWrite k q addr mask data ecc s
  | .writeBack ecc => Sys2Proof.Machine.execWriteBack ecc s
  | .sweepLine e ecc => Sys2Proof.Machine.execSweepLine e ecc s
  | .metadataClearDone => Sys2Proof.Machine.execMetadataClearDone s
  | .patrolRead addr ecc => Sys2Proof.Machine.execPatrolRead addr ecc s
  | .stackTempRead t => Sys2Proof.Machine.execStackTempRead t s
  | .keyRetireRefsZero k => Sys2Proof.Machine.execKeyRetireRefsZero k s
  | .keyRetireTimeout k => Sys2Proof.Machine.execKeyRetireTimeout k s
  | .rgnEnable q n v => Sys2Proof.Machine.execRgnEnable q n v s
  | .qWslotChange rq q v => Sys2Proof.Machine.execQWslotChange rq q v s
  | .fsOpen q f v => Sys2Proof.Machine.execFsOpen q f v s
  | .ethFrame port sub fr => Sys2Proof.Machine.execEthFrame port sub fr s
  | .seqLossTimeout flow => Sys2Proof.Machine.execSeqLossTimeout flow s
  | .legDown flow legB => Sys2Proof.Machine.execLegDown flow legB s
  | .packetRelease flow skew => Sys2Proof.Machine.execPacketRelease flow skew s
  | .sdiLine e l => Sys2Proof.Machine.execSdiLine e l s
  | .sdiLockChange e locked l => Sys2Proof.Machine.execSdiLockChange e locked l s
  | .feedGroup ref g => Sys2Proof.Machine.execFeedGroup ref g s
  | .feedDeadline ref expected => Sys2Proof.Machine.execFeedDeadline ref expected s
  | .egressGroup e => Sys2Proof.Machine.execEgressGroup e s
  | .forceApply e => Sys2Proof.Machine.execForceApply e s
  | .servoMeasurement offset => Sys2Proof.Machine.execServoMeasurement offset s
  | .timeSetAbsolute d => Sys2Proof.Machine.execTimeSetAbsolute d s
  | .timeSetStep d => Sys2Proof.Machine.execTimeSetStep d s
  | .timeSetAccept d => Sys2Proof.Machine.execTimeSetAccept d s
  | .incrWrite q v => Sys2Proof.Machine.execIncrWrite q v s
  | .periodWrite q v => Sys2Proof.Machine.execPeriodWrite q v s
  | .freestart q => Sys2Proof.Machine.execFreestart q s
  | .refLoss => Sys2Proof.Machine.execRefLoss s
  | .refHoldoverEnd => Sys2Proof.Machine.execRefHoldoverEnd s
  | .tdcEdge k falling => Sys2Proof.Machine.execTdcEdge k falling s
  | .tdcPop q k => Sys2Proof.Machine.execTdcPop q k s
  | .ppsOutEdge => Sys2Proof.Machine.execPpsOutEdge s
  | .ppsLoss => Sys2Proof.Machine.execPpsLoss s
  | .stoppedMarker => Sys2Proof.Machine.execStoppedMarker s
  | .beatMarkerRx bd m => Sys2Proof.Machine.execBeatMarkerRx bd m s
  | .upstreamLoss => Sys2Proof.Machine.execUpstreamLoss s
  | .cdrLock l => Sys2Proof.Machine.execCdrLock l s
  | .alignDone l => Sys2Proof.Machine.execAlignDone l s
  | .laneLoss l => Sys2Proof.Machine.execLaneLoss l s
  | .adaptDone l => Sys2Proof.Machine.execAdaptDone l s
  | .eyeStart q l v => Sys2Proof.Machine.execEyeStart q l v s
  | .eyeScanDone l grid => Sys2Proof.Machine.execEyeScanDone l grid s
  | .prbsLock l => Sys2Proof.Machine.execPrbsLock l s
  | .linkFrame bd fr => Sys2Proof.Machine.execLinkFrame bd fr s
  | .retryTimeout bd => Sys2Proof.Machine.execRetryTimeout bd s
  | .nullFrame bd => Sys2Proof.Machine.execNullFrame bd s
  | .laneAdvertise bd => Sys2Proof.Machine.execLaneAdvertise bd s
  | .laneDegrade bd lane => Sys2Proof.Machine.execLaneDegrade bd lane s
  | .bundleDown bd => Sys2Proof.Machine.execBundleDown bd s
  | .remoteQuery from_ target words => Sys2Proof.Machine.execRemoteQuery from_ target words s
  | .applied ring seq status => Sys2Proof.Machine.execApplied ring seq status s
  | .decisionDigest crc => Sys2Proof.Machine.execDecisionDigest crc s
  | .mirrorSplit => Sys2Proof.Machine.execMirrorSplit s
  | .hpTxWord p idx w => Sys2Proof.Machine.execHpTxWord p idx w s
  | .hpClose p => Sys2Proof.Machine.execHpClose p s
  | .hpRxPresent p => Sys2Proof.Machine.execHpRxPresent p s
  | .uevEdge u rising => Sys2Proof.Machine.execUevEdge u rising s
  | .pllLockChange k lock => Sys2Proof.Machine.execPllLockChange k lock s
  | .fabricRelease q => Sys2Proof.Machine.execFabricRelease q s
  | .releaseStage => Sys2Proof.Machine.execReleaseStage s
  | .vccioMatch k cls => Sys2Proof.Machine.execVccioMatch k cls s
  | .iodlyStep k => Sys2Proof.Machine.execIodlyStep k s
  | .fabricBlockWritten => Sys2Proof.Machine.execFabricBlockWritten s
  | .roomWritten r => Sys2Proof.Machine.execRoomWritten r s
  | .retireClearDone f => Sys2Proof.Machine.execRetireClearDone f s
  | .seedLog r => Sys2Proof.Machine.execSeedLog r s
  | .endMark r => Sys2Proof.Machine.execEndMark r s
  | .essentialScrub u x => Sys2Proof.Machine.execEssentialScrub u x s
  | .backgroundReadback u x => Sys2Proof.Machine.execBackgroundReadback u x s
  | .scrubRewrite r b k goldenOk => Sys2Proof.Machine.execScrubRewrite r b k goldenOk s
  | .firmwareReady => Sys2Proof.Machine.execFirmwareReady s
  | .fwStartTimeout => Sys2Proof.Machine.execFwStartTimeout s
  | .sqPi q ring v => Sys2Proof.Machine.execSqPi q ring v s
  | .cqCi q ring v => Sys2Proof.Machine.execCqCi q ring v s
  | .descriptorFetch ring slot => Sys2Proof.Machine.execDescriptorFetch ring slot s
  | .hostMemoryRead d data => Sys2Proof.Machine.execHostMemoryRead d data s
  | .irqCoalesceTimer ring => Sys2Proof.Machine.execIrqCoalesceTimer ring s
  | .nop d => Sys2Proof.Machine.execNop d s
  | .fence d => Sys2Proof.Machine.execFence d s
  | .funcAdmit d => Sys2Proof.Machine.execFuncAdmit d s
  | .funcRetire d => Sys2Proof.Machine.execFuncRetire d s
  | .funcMigrate d => Sys2Proof.Machine.execFuncMigrate d s
  | .paramAt d => Sys2Proof.Machine.execParamAt d s
  | .flowOpen d => Sys2Proof.Machine.execFlowOpen d s
  | .flowClose d => Sys2Proof.Machine.execFlowClose d s
  | .routeAt d => Sys2Proof.Machine.execRouteAt d s
  | .imageStage d => Sys2Proof.Machine.execImageStage d s
  | .imageApply d => Sys2Proof.Machine.execImageApply d s
  | .cellarCopy x => Sys2Proof.Machine.execCellarCopy x s
  | .keyLoad d => Sys2Proof.Machine.execKeyLoad d s
  | .keyRetire d => Sys2Proof.Machine.execKeyRetire d s
  | .sweep d => Sys2Proof.Machine.execSweep d s
  | .acqArm d => Sys2Proof.Machine.execAcqArm d s
  | .beatSlip d => Sys2Proof.Machine.execBeatSlip d s
  | .mirrorForm d partnerAgrees => Sys2Proof.Machine.execMirrorForm d partnerAgrees s
  | .mirrorDissolve d => Sys2Proof.Machine.execMirrorDissolve d s
  | .abort d => Sys2Proof.Machine.execAbort d s
  | .pairEnable q ring v => Sys2Proof.Machine.execPairEnable q ring v s
  | .attach q ring => Sys2Proof.Machine.execAttach q ring s
  | .flr view => Sys2Proof.Machine.execFlr view s
  | .perstN high => Sys2Proof.Machine.execPerstN high s
  | .coreRun q c v => Sys2Proof.Machine.execCoreRun q c v s
  | .coreHold q c v => Sys2Proof.Machine.execCoreHold q c v s
  | .coreLoadData q c write => Sys2Proof.Machine.execCoreLoadData q c write s
  | .coreInstruction c x cycles => Sys2Proof.Machine.execCoreInstruction c x cycles s
  | .coreWfi c => Sys2Proof.Machine.execCoreWfi c s
  | .coreWake c asleep => Sys2Proof.Machine.execCoreWake c asleep s
  | .watchdogExpiry c => Sys2Proof.Machine.execWatchdogExpiry c s
  | .kick c => Sys2Proof.Machine.execKick c s
  | .done c => Sys2Proof.Machine.execDone c s
  | .post c v => Sys2Proof.Machine.execPost c v s
  | .timerArm q k v => Sys2Proof.Machine.execTimerArm q k v s
  | .timerFire k => Sys2Proof.Machine.execTimerFire k s
  | .eventOccurrence ev detail => Sys2Proof.Machine.execEventOccurrence ev detail s
  | .traceSyncTimer c => Sys2Proof.Machine.execTraceSyncTimer c s
  | .traceRpWrite q stream v => Sys2Proof.Machine.execTraceRpWrite q stream v s
  | .acqRecord u payload fill => Sys2Proof.Machine.execAcqRecord u payload fill s
  | .acqTrigger u step frac => Sys2Proof.Machine.execAcqTrigger u step frac s
  | .acqForce q u => Sys2Proof.Machine.execAcqForce q u s
  | .acqDisarm q u => Sys2Proof.Machine.execAcqDisarm q u s
  | .fuseClassify => Sys2Proof.Machine.execFuseClassify s
  | .fuseAck q v => Sys2Proof.Machine.execFuseAck q v s
  | .fuseRelease => Sys2Proof.Machine.execFuseRelease s
  | .attReq q v => Sys2Proof.Machine.execAttReq q v s
  | .attReportReady => Sys2Proof.Machine.execAttReportReady s
  | .provision sigOk => Sys2Proof.Machine.execProvision sigOk s
  | .deploy sigOk => Sys2Proof.Machine.execDeploy sigOk s
  | .return_ sigOk => Sys2Proof.Machine.execReturn sigOk s
  | .decommission sigOk => Sys2Proof.Machine.execDecommission sigOk s
  | .keyRevoke sigOk => Sys2Proof.Machine.execKeyRevoke sigOk s
  | .arbAdvance sigOk => Sys2Proof.Machine.execArbAdvance sigOk s
  | .debugUnlock sigOk => Sys2Proof.Machine.execDebugUnlock sigOk s
  | .debugUnlockExpiry => Sys2Proof.Machine.execDebugUnlockExpiry s
  | .lockedDebugAccess => Sys2Proof.Machine.execLockedDebugAccess s
  | .tamperTrip t => Sys2Proof.Machine.execTamperTrip t s
  | .rngHealthFail ok => Sys2Proof.Machine.execRngHealthFail ok s
  | .sramBankPower q hi v => Sys2Proof.Machine.execSramBankPower q hi v s
  | .sramClearDone b => Sys2Proof.Machine.execSramClearDone b s
  | .porstN => Sys2Proof.Machine.execPorstN s
  | .powerGood => Sys2Proof.Machine.execPowerGood s
  | .railFault r back => Sys2Proof.Machine.execRailFault r back s
  | .startupStage x => Sys2Proof.Machine.execStartupStage x s
  | .bootgo q window => Sys2Proof.Machine.execBootgo q window s
  | .warmrstN high => Sys2Proof.Machine.execWarmrstN high s
  | .warm q => Sys2Proof.Machine.execWarm q s
  | .hubReturn => Sys2Proof.Machine.execHubReturn s
  | .ceilingWrite q v => Sys2Proof.Machine.execCeilingWrite q v s
  | .powerReading total hub => Sys2Proof.Machine.execPowerReading total hub s
  | .vcoreStep w meas ack => Sys2Proof.Machine.execVcoreStep w meas ack s
  | .avsRetry w ok => Sys2Proof.Machine.execAvsRetry w ok s
  | .thermalSample k t => Sys2Proof.Machine.execThermalSample k t s
  | .xdRead q lane => Sys2Proof.Machine.execXdRead q lane s
  | .xdWrite q lane v => Sys2Proof.Machine.execXdWrite q lane v s
  | .xdTimeout q lane write => Sys2Proof.Machine.execXdTimeout q lane write s
  | .latchedRead q addr => Sys2Proof.Machine.execLatchedRead q addr s
  | .counterClear q addr v => Sys2Proof.Machine.execCounterClear q addr v s
  | .registerWrite q addr v be => Sys2Proof.Machine.execRegisterWrite q addr v be s
  | .sourceLoss => Sys2Proof.Machine.execSourceLoss s
  | .subportUpDown port sub up => Sys2Proof.Machine.execSubportUpDown port sub up s
  | .pcieLinkChange x => Sys2Proof.Machine.execPcieLinkChange x s
  | .pfPowerStateChange d3 => Sys2Proof.Machine.execPfPowerStateChange d3 s
  | .porstNRelease => Sys2Proof.Machine.execPorstNRelease s
  | .tapInstruction x => Sys2Proof.Machine.execTapInstruction x s
  | .jtagMemoryPortAccess addr x => Sys2Proof.Machine.execJtagMemoryPortAccess addr x s

end Sys2Proof.Machine
end

