-- ==== Sys2Proof/Machine/Clocks.lean ====
section
/-! DEFINITION. The global clocks of the direct fabric and what their edges do: flip-flops, block RAMs, I/O registers, hub ports, user events
(10_direct_fabric.md R285, R290 to R296, R298, R303). -/

namespace Sys2Proof.Machine
open Sys2Proof

/-- Half periods of a clock of frequency `n / m` kHz from time 0 to `t` (R292; log entry 188). -/
def halfPeriods (n m t : Nat) : Nat := 2 * t * n / (10 ^ 6 * ns * m)

/-- Put an edge among the edges, which stand by their time; edges of one time stand together. -/
def insertEdge (t : Instant) (e : Nat × Bool) : List (Instant × List (Nat × Bool)) → List (Instant × List (Nat × Bool))
  | [] => [(t, [e])]
  | (u, es) :: r => if t < u then (t, [e]) :: (u, es) :: r else if t = u then (u, e :: es) :: r else (u, es) :: insertEdge t e r

/-- The edges of one clock after time `t0` and up to `t1`: a clock with an even number of half periods behind it rises (R292; log entry 188). -/
def Fabric.edgesOf (f : Fabric) (t0 t1 g : Nat) : List (Instant × (Nat × Bool)) :=
  if !f.clockRuns g then []
  else
    let (n, m) := f.clockRate g
    let p := Config.clockPhase g
    let (j0, j1) := (halfPeriods n m (t0 + p), halfPeriods n m (t1 + p))
    (List.range (j1 - j0)).map fun k => let j := j0 + 1 + k; (ceilDiv (j * 10 ^ 6 * ns * m) (2 * n) - p, (g, j % 2 == 0))

/-- The edges of the 32 global clocks in a stretch of time, in order. -/
def Fabric.edges (f : Fabric) (t0 t1 : Instant) : List (Instant × List (Nat × Bool)) :=
  ((List.range 32).flatMap (f.edgesOf t0 t1)).foldr (fun x l => insertEdge x.1 x.2 l) []

/-- A block at edges (R285, R290, R298, R303): its flip-flops move once its release is complete, its RAMs and the registers of its I/O cells from
stage 2 on. A block under threshold hold stands still (log entry 188). -/
def View.blockStep (v : View) (es : List (Nat × Bool)) (b : Nat) (x : FbBlock) : FbBlock :=
  let up (g : Nat) : Bool := decide ((g, true) ∈ es)
  let down (g : Nat) : Bool := decide ((g, false) ∈ es)
  if x.phase ≠ .run ∨ x.rel.toNat < 2 then x
  else
    let y := (List.range 8).foldl (fun y q => v.ramStep b q up y) x
    let pin (t : Tbl IoRegs) (j : Nat) : Tbl IoRegs :=
      let w := (Tbl.get 0 x.config.iocell j).toNat
      let g := fld w 28 5
      if fld w 0 3 = 0 then t
      else if up g then Tbl.modify {} t j (v.ioStep b j true) else if down g then Tbl.modify {} t j (v.ioStep b j false) else t
    let y := { y with io := (List.range 6).foldl pin y.io }
    if x.rel ≠ 3 then y
    else
      let ff (k : Nat) : Bool := if up (v.f.cellClock (4096 * b + k)) then v.nextFf (4096 * b + k) else Tbl.get false x.ffs k
      { y with ffs := ((List.range 4096).map fun k => (k, ff k)).filter (·.2) }

/-- Asynchronous resets act without a clock (R285). -/
def View.asyncStep (v : View) (b : Nat) (x : FbBlock) : FbBlock :=
  if x.phase ≠ .run ∨ x.rel ≠ 3 then x
  else
    let ff (k : Nat) : Bool :=
      let w := v.f.cellWord (4096 * b + k) 13
      if bitOf w 3 && v.inReset (4096 * b + k) then bitOf w 2 else Tbl.get false x.ffs k
    { x with ffs := ((List.range 4096).map fun k => (k, ff k)).filter (·.2) }

/-- Every block by its number. -/
def Fabric.mapBlocks (f : Fabric) (g : Nat → FbBlock → FbBlock) : Fabric :=
  { f with blocks := f.blocks.map fun (b, x) => (b, g b x) }

/-- A hub port at a rising edge of its clock (R293 to R295): the word that the block presents is taken or not; HP_BEAT is 1 for the one cycle after a
beat boundary, and a word that the port presents stands for one cycle. -/
def Dev.hpEdge (v : View) (d : Dev) (p : Nat) : Dev :=
  let d := if v.portIn p 1522 then d.hpTxWord (BitVec.ofNat 6 p) (BitVec.ofNat 6 (v.portNum p 1523 6)) (BitVec.ofNat 64 (v.portNum p 1529 64)) else d
  d.modHp p fun h => { h with beat := h.beatDue, beatDue := false, rxNow := none }

/-- The user event signals of a block follow their flip-flops (R296). -/
def Dev.followUev (old : Fabric) (d : Dev) (b : Nat) : Dev :=
  if !d.fabric.runs b then d
  else d.each [0, 1] fun d i => match (d.fabric.block b).config.uevCell i with
    | some k => let now := d.fabric.ff (4096 * b + k); if now = old.ff (4096 * b + k) then d else d.setUev (2 * b + i) now
    | none => d

/-- Edges of one time: everything that they clock moves from what stood before them. -/
def Dev.clockEdges (d : Dev) (es : List (Nat × Bool)) : Dev :=
  let v := d.fabricView
  let bs := Tbl.keys d.fabric.blocks
  let ports := bs.filter fun p => d.fabric.runs p && bitOf (d.fabric.block p).config.hubport.toNat 0 && decide (((d.fabric.hp p).clk.toNat, true) ∈ es)
  let d' := d.each ports (Dev.hpEdge v)
  let d' := d'.modFabric fun f => f.mapBlocks (v.blockStep es)
  let d' := d'.modFabric fun f => f.mapBlocks ({ d'.fabricView with free := d.free + 1 }).asyncStep
  (d'.each bs (Dev.followUev d.fabric)).take 2

/-- The fabric's clocks run up to the present device time (R292), and its pins follow. -/
def Dev.runFabric (d : Dev) : Dev :=
  let es := d.fabric.edges d.fabric.ran d.now
  ((d.each es fun d e => d.clockEdges e.2).modFabric fun f => { f with ran := d.now }).refreshPads

end Sys2Proof.Machine
end

