-- ==== Sys2Proof/Machine/Idle.lean ====
section
/-! DEFINITION. What the block does where no command waits (08_time.md R226, R234; 13_control_cores_and_observation.md R396; 09_lanes_and_link.md R263,
R265). -/

namespace Sys2Proof.Machine
open Sys2Proof

/-- A tick of the time clock with no command waiting (R226): device time advances, the fabric's clocks run (R292), the packets of the device stream whose window has passed are written
(R396), what PTP has due is sent (R234), the device's own frames for itself arrive (R265), and frames that waited for the order of their lanes for too
long are given up (R263). -/
def Dev.idle (d : Dev) : Dev :=
  if d.power.cold then d
  else
    let d := (d.tick.runFabric.flushTrace).each (Tbl.keys d.time.ports) Dev.ptpDue
    (d.deliverOwn).each (Tbl.keys d.link.bundles) Dev.skewOver

end Sys2Proof.Machine
end

