-- ==== Sys2Proof/Safety.lean ====
section
/-! DEFINITION. What a safe step is, and the terms that the claims use: the parts of a device, what leaves it, what it raises. -/

namespace Sys2Proof
open Sys2Proof.Machine

/-- A step answers a next state: it neither stops nor meets a command without a meaning. -/
def SafeStep (s : State) : Prop := ∃ t, step s = .next t

/-- The strongroom's byte memories (shared SRAM, the command and the report buffer) are in canonical form: addresses strictly rising, no
entry equal to the byte that an unlisted address reads as. -/
def Machine.Strong.memCanon (s : Strong) : Prop :=
  Tbl.wf (0 : Byte) s.sram.mem = true ∧ Tbl.wf (0 : Byte) s.cmdBuf = true ∧ Tbl.wf (0 : Byte) s.attBuf = true

/-- The stack's bytes, the strongroom's memories and the table of rooms are in canonical form. -/
def MemCanon (d : Dev) : Prop := Tbl.wf (0 : Byte) d.cellar.mem = true ∧ d.strong.memCanon ∧ Tbl.wf ({} : Room) d.rooms = true

/-- A retention window's slots are slots of a ring, each held at most once (R342, R354). -/
def WindowOk (w : List RetEntry) : Prop := (w.map fun e => e.slot).Nodup ∧ ∀ e ∈ w, e.slot < 4096

/-- The table of ring pairs is canonical, its numbers name pairs, and their retention windows are in form. -/
def Machine.Rings.windowsOk (r : Rings) : Prop :=
  Tbl.wf ({} : Ring) r.pairs = true ∧ ∀ p ∈ r.pairs, p.1 < 512 ∧ WindowOk p.2.window

/-- The descriptor of a reference has completed with a record (R349). -/
def CompletedWith (d : Dev) (x : DescRef) (c : Completion) : Prop := ∃ y, d.entry? x = some y ∧ y.phase = .completed ∧ y.record = c

/-- The operation of a descriptor can start now (R356), with its entry; its retention window is in form, and it awaits no APPLIED (R276). -/
structure CanRun (d : Dev) (x : DescRef) (op : Nat) (e : RetEntry) : Prop where
  now : d.startable x op = some e
  windows : d.rings.windowsOk
  free : ∀ a ∈ d.link.await, a.desc ≠ x

/-- The entry of a descriptor that has not completed; its retention window is in form, and it awaits no APPLIED (R276). -/
structure OpenDesc (d : Dev) (x : DescRef) (e : RetEntry) : Prop where
  entry : d.entry? x = some e
  unfinished : e.phase ≠ .completed
  windows : d.rings.windowsOk
  free : ∀ a ∈ d.link.await, a.desc ≠ x

/-- No sweep engine holds, and nothing makes a sweep hold: no row is under repair, no background hold applies, and the hub is not in a warm
reset (R22, R182, R470). -/
def SweepsFlow (d : Dev) : Prop :=
  (∀ e ∈ d.cellar.sweeps, e.2.phase ≠ .hold) ∧ d.cellar.repairing = [] ∧ d.background = false ∧ d.hubUp = true

/-- A line of data space that no word of the write buffer covers, and no word of which or of its metadata stays unreadable (R153, R159, R173). -/
def PlainLine (d : Dev) (line : Nat) : Prop :=
  line < dataLines ∧ d.cellar.visible line none = [] ∧ d.cellar.dataUe line {} = false ∧ d.cellar.metaUe line {} = false

/-- The key slot that a write of a line goes under: a sweep's target on lines a sweep covers, else the queue's write slot (R167, R180). -/
def Machine.Cellar.writeSlot (c : Cellar) (q : BitVec 9) (line : Nat) : BitVec 6 :=
  match c.sweepOn line with | some s => s.tgt | none => (c.queue q).weff

/-- An occurrence of an event is on its way to the scheduler and the fuse box (R387, R409). -/
def OnTheWay (d : Dev) (ev : Nat) : Prop := ∃ o ∈ d.events, o.ev = BitVec.ofNat 10 ev

/-- What a fuse keeps from one state of the strongroom to a later one: the serial number stands, anti-rollback and cycle counts never fall,
the state BLANK is never entered, DECOMMISSIONED is never left, and a revoked owner key stays revoked. -/
structure FusesKept (s t : Strong) : Prop where
  serial : t.serial = s.serial
  arbFw : s.arbFw ≤ t.arbFw
  arbOwner : s.arbOwner ≤ t.arbOwner
  cycles : s.cycles ≤ t.cycles
  left : s.life ≠ .blank → t.life ≠ .blank
  final : s.life = .decommissioned → t.life = .decommissioned
  revoked : s.life ≠ .blank → ∀ k, (Tbl.get ({} : OwnerKey) s.owner k).revoked = true → (Tbl.get ({} : OwnerKey) t.owner k).revoked = true

/-- The parts of the device: its fields. -/
inductive Part where
  | now | free | out | events | ident | flash | rooms | funcs | net | cellar | media | time | link | fabric | loader | rings | cores | sched | record | fwres | acq | fuse | strong | hub | power | tap
  deriving DecidableEq, Repr

/-- Two devices agree on a part. -/
def SameOn (d e : Dev) : Part → Prop
  | .now => d.now = e.now
  | .free => d.free = e.free
  | .out => d.out = e.out
  | .events => d.events = e.events
  | .ident => d.ident = e.ident
  | .flash => d.flash = e.flash
  | .rooms => d.rooms = e.rooms
  | .funcs => d.funcs = e.funcs
  | .net => d.net = e.net
  | .cellar => d.cellar = e.cellar
  | .media => d.media = e.media
  | .time => d.time = e.time
  | .link => d.link = e.link
  | .fabric => d.fabric = e.fabric
  | .loader => d.loader = e.loader
  | .rings => d.rings = e.rings
  | .cores => d.cores = e.cores
  | .sched => d.sched = e.sched
  | .record => d.record = e.record
  | .fwres => d.fwres = e.fwres
  | .acq => d.acq = e.acq
  | .fuse => d.fuse = e.fuse
  | .strong => d.strong = e.strong
  | .hub => d.hub = e.hub
  | .power => d.power = e.power
  | .tap => d.tap = e.tap

/-- Only the listed parts differ. -/
def Only (ps : List Part) (d e : Dev) : Prop := ∀ p, p ∉ ps → SameOn e d p

/-- The parts of the device that a command can change, through any of its effects (the counters it counts, the events it raises, and what
follows from them, the wipe of R441 among them); it leaves every other part as it was. -/
def Instr.parts : Instr → List Part
  | .beatBoundary .. | .jtagMemoryPortAccess .. =>
    [.now, .free, .out, .events, .rooms, .funcs, .net, .cellar, .media, .time, .link, .fabric, .loader, .rings, .cores, .sched, .acq, .fuse, .strong,
     .hub, .power]
  | .beatStart .. =>
    [.now, .free, .out, .events, .rooms, .funcs, .net, .cellar, .media, .time, .link, .fabric, .rings, .cores, .sched, .acq, .fuse, .strong, .hub]
  | .eval .. | .send .. | .mrd .. | .mwr .. | .sli .. | .slr .. | .lvb .. | .nopInstruction .. =>
    [.free, .events, .rooms, .funcs, .net]
  | .levelWaitEnd .. | .decision .. =>
    [.free, .events, .rooms, .funcs, .net, .cellar, .cores, .strong]
  | .sliceResultReady .. =>
    [.rooms]
  | .readStreamIssue .. =>
    [.free, .events, .rooms, .funcs, .cellar]
  | .streamWords .. =>
    [.rooms, .net, .cellar]
  | .xchPacket .. =>
    [.out, .events, .rooms, .funcs, .net, .cellar, .link]
  | .vote .. | .verdict .. | .voteDeadline .. | .remoteDecision .. =>
    [.free, .out, .events, .funcs, .net, .cellar, .link, .cores, .strong, .hub]
  | .lateStall .. =>
    [.free, .events, .rooms, .net, .cellar, .cores, .strong]
  | .drainRelease .. =>
    [.out, .events, .funcs, .media, .link, .fabric, .rings, .sched]
  | .flitCrcError .. =>
    [.events, .net]
  | .linkDown .. =>
    [.events, .funcs, .net, .cellar, .cores]
  | .linkRetrainDone .. | .linkRetrainRetry .. | .ringHoldEnd .. =>
    [.net]
  | .cellarRead .. | .cellarWrite .. | .metadataClearDone .. =>
    [.free, .out, .events, .cellar]
  | .rowRepairDone .. =>
    [.events, .flash, .cellar]
  | .writeBack .. =>
    [.free, .events, .cellar]
  | .sweepLine .. | .keyRetireRefsZero .. | .keyLoad .. | .keyRetire .. | .sweep .. =>
    [.out, .events, .cellar, .link, .rings, .sched]
  | .patrolRead .. | .rgnEnable .. =>
    [.events, .cellar]
  | .stackTempRead .. | .powerReading .. | .thermalSample .. =>
    [.events, .cellar, .power]
  | .keyRetireTimeout .. =>
    [.now, .out, .events, .cellar, .link, .rings, .sched]
  | .qWslotChange .. | .fsOpen .. =>
    [.cellar]
  | .ethFrame .. =>
    [.out, .events, .media, .time]
  | .seqLossTimeout .. | .legDown .. | .sdiLine .. | .subportUpDown .. =>
    [.events, .media]
  | .packetRelease .. =>
    [.now, .out, .events, .media, .time]
  | .sdiLockChange .. =>
    [.out, .events, .media, .link]
  | .feedGroup .. =>
    [.free, .events, .cellar, .media]
  | .feedDeadline .. =>
    [.now, .events, .media]
  | .egressGroup .. =>
    [.out, .events, .media]
  | .forceApply .. =>
    [.media]
  | .servoMeasurement .. | .beatMarkerRx .. =>
    [.now, .free, .events, .cellar, .media, .time, .link, .fabric, .loader, .rings, .cores, .strong, .power]
  | .timeSetAbsolute .. | .timeSetStep .. | .timeSetAccept .. =>
    [.now, .out, .events, .cellar, .media, .time, .link, .fabric, .loader, .rings, .cores, .sched, .strong, .power]
  | .incrWrite .. | .refLoss .. | .refHoldoverEnd .. | .sourceLoss .. =>
    [.events, .time]
  | .periodWrite .. | .tdcPop .. =>
    [.time]
  | .freestart .. =>
    [.time, .hub]
  | .tdcEdge .. =>
    [.events, .time, .acq]
  | .ppsOutEdge .. =>
    [.now, .out]
  | .ppsLoss .. =>
    [.now, .events, .time]
  | .stoppedMarker .. =>
    [.free, .out, .link]
  | .upstreamLoss .. =>
    [.events, .time, .link]
  | .cdrLock .. | .alignDone .. | .laneLoss .. | .eyeScanDone .. | .laneDegrade .. | .bundleDown .. | .decisionDigest .. =>
    [.events, .link]
  | .adaptDone .. | .eyeStart .. | .prbsLock .. =>
    [.link]
  | .linkFrame .. =>
    [.free, .out, .events, .rooms, .funcs, .net, .cellar, .link, .rings, .cores, .sched, .strong, .hub]
  | .retryTimeout .. | .remoteQuery .. =>
    [.out, .events, .link]
  | .nullFrame .. =>
    [.out]
  | .laneAdvertise .. =>
    [.out, .link]
  | .applied .. | .mirrorSplit .. | .descriptorFetch .. | .hostMemoryRead .. | .nop .. | .fence .. | .funcRetire .. | .paramAt ..
  | .routeAt .. | .pairEnable .. =>
    [.out, .events, .link, .rings, .sched]
  | .hpTxWord .. | .uevEdge .. | .pllLockChange .. =>
    [.events, .fabric]
  | .hpClose .. =>
    [.now, .fabric]
  | .hpRxPresent .. =>
    [.out, .fabric]
  | .fabricRelease .. | .vccioMatch .. | .iodlyStep .. | .fabricBlockWritten .. =>
    [.fabric]
  | .releaseStage .. =>
    [.free, .events, .fabric]
  | .roomWritten .. =>
    [.rooms, .funcs, .rings]
  | .retireClearDone .. =>
    [.out, .events, .rooms, .funcs, .link, .rings, .sched, .fuse]
  | .seedLog .. | .endMark .. =>
    [.rooms, .funcs, .net]
  | .essentialScrub .. | .backgroundReadback .. | .scrubRewrite .. =>
    [.events, .rooms, .net, .fabric, .loader]
  | .firmwareReady .. | .kick .. =>
    [.cores]
  | .fwStartTimeout .. =>
    [.now, .out, .events, .link, .rings, .cores, .sched]
  | .sqPi .. | .mirrorDissolve .. | .flr .. | .pfPowerStateChange .. =>
    [.rings]
  | .cqCi .. | .pcieLinkChange .. =>
    [.events, .rings]
  | .irqCoalesceTimer .. =>
    [.now, .out, .rings, .sched]
  | .funcAdmit .. =>
    [.free, .out, .events, .rooms, .funcs, .net, .link, .loader, .rings, .sched]
  | .funcMigrate .. =>
    [.out, .events, .rooms, .funcs, .net, .link, .loader, .rings, .sched]
  | .flowOpen .. =>
    [.out, .events, .media, .link, .rings, .sched]
  | .flowClose .. =>
    [.out, .events, .media, .time, .link, .rings, .sched]
  | .imageStage .. =>
    [.free, .out, .events, .cellar, .link, .loader, .rings, .sched, .strong]
  | .imageApply .. =>
    [.out, .events, .link, .rings, .cores, .sched]
  | .cellarCopy .. =>
    [.free, .out, .events, .cellar, .link, .rings, .sched]
  | .acqArm .. =>
    [.out, .events, .link, .rings, .sched, .acq]
  | .beatSlip .. =>
    [.time, .rings]
  | .mirrorForm .. =>
    [.link, .rings]
  | .abort .. =>
    [.out, .events, .rooms, .funcs, .net, .cellar, .time, .link, .loader, .rings, .cores, .sched, .fuse]
  | .attach .. =>
    [.out, .events, .link, .rings, .sched, .hub]
  | .perstN .. =>
    [.events, .rings, .sched, .power]
  | .coreRun .. | .coreHold .. =>
    [.free, .events, .cellar, .rings, .cores, .sched, .strong]
  | .coreLoadData .. =>
    [.out, .cores]
  | .coreInstruction .. =>
    [.free, .events, .cellar, .cores, .sched, .acq, .strong]
  | .coreWfi .. | .traceSyncTimer .. | .traceRpWrite .. =>
    [.free, .events, .cellar, .cores, .strong]
  | .coreWake .. =>
    [.now, .free, .events, .cellar, .cores, .strong]
  | .watchdogExpiry .. =>
    [.now, .free, .out, .events, .cellar, .link, .rings, .cores, .sched, .strong]
  | .done .. | .post .. =>
    [.events, .rings, .cores, .sched]
  | .timerArm .. =>
    [.sched]
  | .timerFire .. =>
    [.now, .events, .rings, .cores, .sched]
  | .eventOccurrence .. =>
    [.free, .out, .events, .net, .cellar, .rings, .cores, .sched, .acq, .fuse, .strong]
  | .acqRecord .. | .acqTrigger .. =>
    [.free, .events, .cellar, .acq, .strong]
  | .acqForce .. =>
    [.free, .events, .cellar, .acq, .strong, .hub]
  | .acqDisarm .. =>
    [.acq, .hub]
  | .fuseClassify .. =>
    [.now, .free, .out, .events, .rooms, .funcs, .net, .cellar, .media, .link, .fabric, .rings, .cores, .sched, .acq, .fuse, .strong]
  | .fuseAck .. =>
    [.out, .events, .rooms, .media, .link, .fabric, .fuse, .strong]
  | .fuseRelease .. =>
    [.events, .fuse, .strong]
  | .attReq .. =>
    [.strong, .hub]
  | .attReportReady .. | .keyRevoke .. | .arbAdvance .. | .debugUnlock .. =>
    [.free, .events, .strong]
  | .provision .. | .deploy .. | .return_ .. | .decommission .. =>
    [.now, .free, .events, .rooms, .funcs, .net, .cellar, .media, .time, .link, .fabric, .loader, .rings, .cores, .sched, .acq, .fuse, .strong, .hub,
     .power]
  | .debugUnlockExpiry .. =>
    [.now, .events, .strong]
  | .lockedDebugAccess .. | .tamperTrip .. | .porstN .. | .railFault .. =>
    [.now, .events, .rooms, .funcs, .net, .cellar, .media, .time, .link, .fabric, .loader, .rings, .cores, .sched, .acq, .fuse, .strong, .hub, .power]
  | .rngHealthFail .. =>
    [.events, .strong]
  | .sramBankPower .. | .warmrstN .. | .warm .. | .counterClear .. | .registerWrite .. =>
    [.free, .out, .events, .rooms, .funcs, .net, .cellar, .media, .time, .link, .fabric, .loader, .rings, .cores, .sched, .acq, .fuse, .strong, .hub,
     .power]
  | .sramClearDone .. =>
    [.strong]
  | .powerGood .. =>
    [.now, .power]
  | .startupStage .. =>
    [.free, .out, .events, .rooms, .cellar, .media, .time, .link, .fabric, .rings, .cores, .fuse, .strong, .power]
  | .bootgo .. =>
    [.loader, .cores, .strong, .hub, .power]
  | .hubReturn .. =>
    [.now, .free, .out, .events, .cellar, .link, .fabric, .rings, .cores, .sched, .fuse, .strong, .power]
  | .ceilingWrite .. =>
    [.power]
  | .vcoreStep .. =>
    [.free, .events, .power]
  | .avsRetry .. =>
    [.now, .events, .power]
  | .xdRead .. =>
    [.out, .net, .hub]
  | .xdWrite .. =>
    [.out, .events, .rooms, .net, .link, .hub]
  | .xdTimeout .. =>
    [.out, .hub]
  | .latchedRead .. =>
    [.out, .net, .cores, .hub]
  | .porstNRelease .. =>
    [.now, .power, .tap]
  | .tapInstruction .. =>
    [.now, .out, .events, .rooms, .funcs, .net, .cellar, .media, .time, .link, .fabric, .loader, .rings, .cores, .sched, .acq, .fuse, .strong, .hub,
     .power, .tap]

/-- The device raises one event occurrence, timestamped with its device time. -/
def Raised (d e : Dev) (ev : Nat) : Prop :=
  ∃ o, e.events = d.events ++ [o] ∧ o.ev = BitVec.ofNat 10 ev ∧ o.ts = e.now

/-- The device sends one output. -/
def Sent (d e : Dev) (o : Output) : Prop := e.out = o :: d.out

/-- The command completes with an effect: exec answers a next state with the queue as it was, in which only the listed parts of the device
differ and `Q` holds of the device. -/
def Completes (c : Instr) (s : State) (ps : List Part) (Q : Dev → Prop) : Prop :=
  ∃ d, exec c s = .next { s with dev := d } ∧ Only ps s.dev d ∧ Q d

/-- A BP with the MRD word on its way in its data store (R42). -/
def Machine.Bp.landed (p : Bp) (runAhead : Bool) : Bp :=
  match p.landing with
  | none => p
  | some l => { p.write runAhead l.dst l.mask l.word l.full with landing := none }

/-- A BP of a room issues instruction i now, of kind k, in a room that holds no uncorrectable word and no plane of an automatic delivery
on its way, and whose window of steps has n tokens left (R26, R62, R124, R131). -/
structure Issues (rm : Room) (b i n : Nat) (k : BitVec 3) : Prop where
  now : rm.canIssue b = some i
  kind : (rm.insnAt b i).kind = k
  clean : rm.planes = [] ∧ rm.ueIm = [] ∧ rm.ueDs = [] ∧ rm.ueBm = []
  budget : Tbl.get 0 rm.tokens (rm.issueStep i / 64) + n ≤ rm.envelope.getD (rm.issueStep i / 64) 0

/-- BP b of a room has issued one instruction: `p` is what the instruction leaves of the BP but for its history, which takes `entry`; the
step ends with the last BP's instruction; every other BP is as it was (R28, R38). -/
structure HasIssued (rm rm' : Room) (b : Nat) (entry : Lanes) (p : Bp) : Prop where
  own : rm'.bp b = { p with hist := (entry :: (rm.bp b).hist).take 65, issued := (rm.bp b).issued + 1 }
  step : (rm'.idx, rm'.done) = if rm.done ||| (1#128 <<< b) = BitVec.allOnes 128 then (rm.idx + 1, 0) else (rm.idx, rm.done ||| (1#128 <<< b))
  others : ∀ c, c ≠ b → rm'.bp c = rm.bp c

/-- What a cold reset leaves of a device (R7, R462): its outputs and what lies outside it stand; of the strongroom the fuses and STRONG_WIPE, which
`f` gives; of power the pins and supplies, which `p` gives; every other part is as after reset, and the device is held while PORST_N is low or a
monitored rail is out of range. -/
structure ColdAfter (s d : Dev) (f : Strong) (p : Power) : Prop where
  parts : ∀ x, x ∉ [Part.free, .out, .ident, .flash, .record, .fwres, .tap, .strong, .power] → SameOn d State.reset.dev x
  kept : ∀ x ∈ [Part.out, .ident, .flash, .record, .fwres, .tap], SameOn d s x
  strong : d.strong = { State.reset.dev.strong with
    life := f.life, cycles := f.cycles, ml65 := f.ml65, plainkey := f.plainkey, owner := f.owner, arbOwner := f.arbOwner, arbFw := f.arbFw,
    serial := f.serial, wipeCount := f.wipeCount, wipeCause := f.wipeCause, wipePending := f.wipePending }
  power : d.power = { State.reset.dev.power with
    porst := p.porst, warmPin := p.warmPin, perst := p.perst, good := p.good, railsOut := p.railsOut, cold := !p.porst || !p.good,
    hotCfg := if s.ident.iGrade then 100 else 95 }

/-- The strongroom's fuses and the record of a wipe with a cause, a bit of STRONG_WIPE.CAUSE (R435, R443). -/
def Machine.Strong.wiped (f : Strong) (cause : Nat) : Strong :=
  { f with wipeCount := if f.wipeCount = 255 then 255 else f.wipeCount + 1, wipeCause := BitVec.ofNat 6 (2 ^ cause), wipePending := true }

/-- Every room but one is as it was. -/
def OtherRooms (r : RoomId) (d e : Dev) : Prop := ∀ q, q ≠ r → e.room q = d.room q

end Sys2Proof
end

