-- ==== Sys2Proof/Certificates/Slice0/Obligations.lean ====
section
/-! DEFINITION. The statements for the provers. -/

open Sys2Proof
open Sys2Proof.Machine

-- the machine as a whole

/-- A step runs the command at the front of the queue on the state with the queue's rest. -/
def Obligations.StepRunsFrontCommand : Prop :=
  ∀ (c : Instr) (s : State), step { s with pending := c :: s.pending } = exec c s

/-- The model's choice (log entry 2): on an empty queue a device in cold reset is as it was; else device time advances by INCR, and the fabric's
clocks run (log entry 188), what PTP sends leaves, trace packets whose time has come are written, and the device's own frames arrive: nothing but
the instant the fabric has run to and the pads it shows changes where no edge of a fabric clock falls in the tick, no subport's PTP is enabled and
no packet or frame waits. -/
def Obligations.IdleStepTicks : Prop :=
  ∀ s : State, s.pending = [] →
    (s.dev.power.cold = true → step s = .next s) ∧
    (s.dev.power.cold = false → ∃ d, step s = .next { s with dev := d } ∧ d.now = s.dev.now + s.dev.time.incr ∧
      Only [.now, .free, .out, .events, .rooms, .funcs, .net, .cellar, .media, .time, .link, .fabric, .rings, .cores, .sched, .strong, .hub] s.dev d ∧
      ((∀ k, (s.dev.timePort k).en = false) → (s.dev.stream 16).window = [] → s.dev.link.loop = [] → (∀ b, (s.dev.bd b).reorder = []) →
        s.dev.fabric.edges s.dev.fabric.ran (s.dev.now + s.dev.time.incr) = [] →
        Only [.now, .cores, .fabric] s.dev d ∧ (∀ k, d.stream k = s.dev.stream k) ∧
        d.fabric = { s.dev.fabric with ran := d.now, pads := d.fabric.pads }))

/-- A command is carried out exactly where it names units that the device has, with the queue left as it is; else it stops with the fault
noSuchUnit (the model's choice, log entry 111). -/
def Obligations.OnlyAbsentUnitsStop : Prop :=
  ∀ (c : Instr) (s : State),
    (c.wellFormed = true → ∃ d, exec c s = .next { s with dev := d }) ∧ (c.wellFormed = false → exec c s = .fault .noSuchUnit)

/-- The frame of every command: it leaves each part of the device that it does not name (`Instr.parts`), and the queue. -/
def Obligations.CommandsLeaveOtherParts : Prop :=
  ∀ (c : Instr) (s t : State), exec c s = .next t → Only c.parts s.dev t.dev ∧ t.pending = s.pending

-- rooms

/-- EVAL: q, the lane operation on the truth table of the four operands, goes to data-store word DST in the predicate's lanes, and the
history takes q. -/
def Obligations.EvalWritesItsResult : Prop :=
  ∀ (s : State) (r : RoomId) (b : BitVec 7) (i : Nat), Issues (s.dev.room r) b.toNat i 1 0 →
    Completes (.eval r b {}) s [.rooms, .funcs] fun d =>
      let rm := s.dev.room r
      let x := rm.insnAt b.toNat i
      let w (op : BitVec 12) : Lanes := (rm.operand s.dev.time.n b.toNat i op).word
      let q := laneOp x.lop x.larg (evalTT x.tt (w x.opa) (w x.opb) (w x.opc) (w x.opd))
      let rm' := d.room r
      HasIssued rm rm' b.toNat q
        (((rm.bp b.toNat).landed rm.ahead).write rm.ahead x.dst.toNat ((rm.bp b.toNat).predMask x.pred) q (x.pred = 0)) ∧
      OtherRooms r s.dev d ∧
      rm' = { rm with bps := rm'.bps, idx := rm'.idx, done := rm'.done, cnt := rm'.cnt, missed := rm'.missed, tokens := rm'.tokens }

/-- SEND of a valid entry whose KIND is 0: q goes to the room's own window, into a slot that holds no word for the beat. KINDs 1 to 4: the word
leaves the room in an XCH packet to the other room, to the plane turners (REMOTE), to the cellar or to a drain. -/
def Obligations.SendPlacesItsWord : Prop :=
  ∀ (s : State) (r : RoomId) (b : BitVec 7) (i : Nat),
    let rm := s.dev.room r
    let x := rm.insnAt b.toNat i
    let e := Tbl.get 0 rm.sends x.dst.toNat
    let kind := (e.extractLsb' 61 3).toNat
    let tgt := (e.extractLsb' 48 8).toNat
    let index := (e.extractLsb' 16 16).toNat
    let w (op : BitVec 12) : Lanes := (rm.operand s.dev.time.n b.toNat i op).word
    let q := laneOp x.lop x.larg (evalTT x.tt (w x.opa) (w x.opb) (w x.opc) (w x.opd))
    let issued (rm' : Room) : Prop := HasIssued rm rm' b.toNat q { (rm.bp b.toNat).landed rm.ahead with landing := none }
    Issues rm b.toNat i (sendTokens (e.extractLsb' 59 2).toNat + if kind = 3 then 120 else 0) 1 → e.getLsbD 0 = true →
    (kind = 0 → (rm.slot (index % 1024)).cur = none →
      Completes (.send r b {}) s [.rooms] fun d =>
        let rm' := d.room r
        issued rm' ∧ OtherRooms r s.dev d ∧
        rm' = { rm with bps := rm'.bps, idx := rm'.idx, done := rm'.done, cnt := rm'.cnt, missed := rm'.missed, tokens := rm'.tokens, win := rm'.win } ∧
        rm'.win = Tbl.set {} rm.win (index % 1024)
          { rm.slot (index % 1024) with
            cur := some { word := q, absent := rm.thresh, level := rm.place, step := rm.issueStep i, src := r.toNat }
            good := if rm.thresh then (rm.slot (index % 1024)).good else some q }) ∧
    (kind ≠ 0 → (s.dev.func? rm.func).isSome = true →
      Completes (.send r b {}) s [.rooms, .net] fun d =>
        let rm' := d.room r
        let dst : Node := match kind with | 1 => .room (BitVec.ofNat 8 tgt) | 2 => .hub 4 | 3 => .hub 2 | _ => .hub 3
        issued rm' ∧ OtherRooms r s.dev d ∧
        rm' = { rm with bps := rm'.bps, idx := rm'.idx, done := rm'.done, cnt := rm'.cnt, missed := rm'.missed, tokens := rm'.tokens,
                        sentStream := rm'.sentStream, sentDrain := rm'.sentDrain } ∧
        rm'.sentStream = (if kind = 3 then Tbl.set none rm.sentStream (tgt * 65536 + index) (some q) else rm.sentStream) ∧
        rm'.sentDrain = (if kind = 4 then Tbl.set none rm.sentDrain (tgt * 65536 + index) (some q) else rm.sentDrain) ∧
        d.net = { s.dev.net with
          xch := packWord
            { src := .room r, dst, kind := (match kind with | 1 => .window | 2 => .remote | 3 => .stream | _ => .drain),
              tgt := if kind = 1 then 0 else tgt, gen := e.extractLsb' 8 8, func := rm.func, set := rm.set, rep := rm.rep, vroom := rm.vroom,
              beat := s.dev.time.n, att := rm.att, level := rm.place, waits := s.dev.net.heldOn (.room r) dst }
            { idx := index, word := q, absent := rm.thresh } s.dev.net.xch })

/-- MRD: the word at the bank's read position, or at the address that operand A gives, with the pending entries of the write queue over it,
is on its way to DST; the read position moves on. -/
def Obligations.MrdReadsItsBank : Prop :=
  ∀ (s : State) (r : RoomId) (b : BitVec 7) (i : Nat), Issues (s.dev.room r) b.toNat i 1 2 →
    Completes (.mrd r b {}) s [.rooms, .funcs] fun d =>
      let rm := s.dev.room r
      let x := rm.insnAt b.toNat i
      let bank := (x.larg.extractLsb' 0 5).toNat
      let pos := Tbl.get 0 rm.rpos bank
      let addr := if x.larg.getLsbD 5 then ((rm.operand s.dev.time.n b.toNat i x.opa).word.extractLsb' 0 11).toNat
                  else (setupBase (rm.setup bank) + pos) % 2048
      let w := mrdWord (rm.wq ++ rm.wqAhead) bank addr (Tbl.get 0 rm.bank (bank * 2048 + addr))
      let rm' := d.room r
      HasIssued rm rm' b.toNat w
        { (rm.bp b.toNat).landed rm.ahead with
          landing := some { dst := x.dst.toNat, word := w, mask := (rm.bp b.toNat).predMask x.pred, full := x.pred = 0 } } ∧
      OtherRooms r s.dev d ∧
      rm'.rpos = (if x.larg.getLsbD 5 then rm.rpos else Tbl.set 0 rm.rpos bank (nextPos (rm.setup bank) pos)) ∧
      rm' = { rm with bps := rm'.bps, idx := rm'.idx, done := rm'.done, cnt := rm'.cnt, missed := rm'.missed, tokens := rm'.tokens, rpos := rm'.rpos }

/-- MWR: one entry joins the room's write queue and the write position moves on; the bank is not written. Where the beat has queued 256 entries,
the entry is not queued, the room's beat is faulted, and the room's event is raised. -/
def Obligations.MwrQueuesItsWrite : Prop :=
  ∀ (s : State) (r : RoomId) (b : BitVec 7) (i : Nat),
    let rm := s.dev.room r
    let x := rm.insnAt b.toNat i
    let bank := (x.larg.extractLsb' 0 5).toNat
    let pos := Tbl.get 0 rm.wpos bank
    let w (op : BitVec 12) : Lanes := (rm.operand s.dev.time.n b.toNat i op).word
    let addr := if x.larg.getLsbD 5 then ((w x.opa).extractLsb' 0 11).toNat else (setupBase (rm.setup bank) + pos) % 2048
    let e : MwrEntry := { bank := BitVec.ofNat 5 bank, addr := BitVec.ofNat 11 addr, data := w x.opb, mask := (rm.bp b.toNat).predMask x.pred,
                          full := x.pred = 0 }
    let n := if rm.ahead then rm.wqAhead.length else rm.wq.length
    let left (rm' : Room) : Prop :=
      HasIssued rm rm' b.toNat 0 { (rm.bp b.toNat).landed rm.ahead with landing := none } ∧
      rm'.wpos = (if x.larg.getLsbD 5 then rm.wpos else Tbl.set 0 rm.wpos bank (nextPos (rm.setup bank) pos)) ∧
      rm'.mwrPeak = BitVec.ofNat 9 (max rm.mwrPeak.toNat (n + 1)) ∧
      rm' = { rm with bps := rm'.bps, idx := rm'.idx, done := rm'.done, cnt := rm'.cnt, missed := rm'.missed, tokens := rm'.tokens, wpos := rm'.wpos,
                      mwrPeak := rm'.mwrPeak, wq := rm'.wq, wqAhead := rm'.wqAhead, faulted := rm'.faulted, ovfCur := rm'.ovfCur }
    Issues rm b.toNat i 1 3 →
    (n < 256 → Completes (.mwr r b {}) s [.rooms, .funcs] fun d =>
      left (d.room r) ∧ OtherRooms r s.dev d ∧ (d.room r).faulted = rm.faulted ∧ (d.room r).ovfCur = rm.ovfCur ∧
      (d.room r).wq = (if rm.ahead then rm.wq else rm.wq ++ [e]) ∧ (d.room r).wqAhead = (if rm.ahead then rm.wqAhead ++ [e] else rm.wqAhead)) ∧
    (256 ≤ n → Completes (.mwr r b {}) s [.rooms, .events] fun d =>
      left (d.room r) ∧ OtherRooms r s.dev d ∧ (d.room r).faulted = true ∧ (d.room r).ovfCur = true ∧
      (d.room r).wq = rm.wq ∧ (d.room r).wqAhead = rm.wqAhead ∧ Raised s.dev d r.toNat)

/-- SLI feeds q to the slice that LARG names, in LARG's role. SLR takes the next plane of the slice's oldest result into DST. LVB and NOP record
ZERO and write nothing. -/
def Obligations.SliceLvbAndNopIssue : Prop :=
  ∀ (s : State) (r : RoomId) (b : BitVec 7) (i : Nat),
    let rm := s.dev.room r
    let x := rm.insnAt b.toNat i
    let p := (rm.bp b.toNat).landed rm.ahead
    let n := (x.larg.extractLsb' 0 3).toNat
    let w (op : BitVec 12) : Lanes := (rm.operand s.dev.time.n b.toNat i op).word
    let q := laneOp 0 0 (evalTT x.tt (w x.opa) (w x.opb) (w x.opc) (w x.opd))
    let ds := parseSlice (Tbl.get 0 rm.sliceDesc n)
    (Issues rm b.toNat i 40 4 → ds.en = true → Completes (.sli r b {}) s [.rooms] fun d =>
      let rm' := d.room r
      HasIssued rm rm' b.toNat q { p with landing := none } ∧ OtherRooms r s.dev d ∧
      rm'.slices = Tbl.set {} rm.slices n ((rm.sl n).feed ds (rm.const ds.cidx) (x.larg.extractLsb' 3 3).toNat (rm.issueStep i) q) ∧
      rm' = { rm with bps := rm'.bps, idx := rm'.idx, done := rm'.done, cnt := rm'.cnt, missed := rm'.missed, tokens := rm'.tokens, slices := rm'.slices }) ∧
    (∀ (y : Lanes) (ys : List Lanes) (rest : List (List Lanes)), Issues rm b.toNat i 1 5 → (rm.sl n).queue = (y :: ys) :: rest →
      Completes (.slr r b {}) s [.rooms, .funcs, .free] fun d =>
        let rm' := d.room r
        HasIssued rm rm' b.toNat y { p.write rm.ahead x.dst.toNat ((rm.bp b.toNat).predMask x.pred) y (x.pred = 0) with landing := none } ∧
        OtherRooms r s.dev d ∧
        rm'.slices = Tbl.set {} rm.slices n { rm.sl n with queue := if ys.isEmpty then rest else ys :: rest } ∧
        rm' = { rm with bps := rm'.bps, idx := rm'.idx, done := rm'.done, tokens := rm'.tokens, slices := rm'.slices }) ∧
    (∀ k : BitVec 3, k = 6 ∨ k = 7 → Issues rm b.toNat i 0 k →
      Completes (if k = 6 then .lvb r b {} else .nopInstruction r b {}) s [.rooms] fun d =>
        let rm' := d.room r
        HasIssued rm rm' b.toNat 0 { p with landing := none } ∧ OtherRooms r s.dev d ∧
        rm' = { rm with bps := rm'.bps, idx := rm'.idx, done := rm'.done, tokens := rm'.tokens })

/-- LEVEL_WAIT_END, once every instruction of the level has issued: the next level begins; after the last level the next pass, with empty
group history and cleared slice accumulators; after the last pass the room sends its VOTE. Of the network nothing else changes but the retry
buffers that trace packets pass (R396). -/
def Obligations.LevelsPassesAndVote : Prop :=
  ∀ (s : State) (r : RoomId),
    let rm := s.dev.room r
    rm.phase = .run → rm.idx = levelEnd rm.levels rm.level →
    (rm.level + 1 < rm.levels.length → Completes (.levelWaitEnd r) s [.rooms] fun d =>
      d.room r = { rm.landAll with level := rm.level + 1 } ∧ OtherRooms r s.dev d) ∧
    (rm.levels.length ≤ rm.level + 1 → rm.pass + 1 < rm.passes →
      Completes (.levelWaitEnd r) s [.free, .rooms, .events, .net, .cellar, .cores, .strong] fun d =>
        let rm' := d.room r
        d.net = { s.dev.net with links := d.net.links } ∧
        rm'.pass = rm.pass + 1 ∧ rm'.level = 0 ∧ rm'.idx = 0 ∧ rm'.done = 0 ∧ rm'.phase = .run ∧
        (∀ e ∈ rm'.bps, e.2.hist = [] ∧ e.2.issued = 0) ∧
        (∀ e ∈ rm'.slices, e.2.acc = [] ∧ e.2.accOvf = 0 ∧ e.2.xs = [] ∧ e.2.ys = [] ∧ e.2.adds = [] ∧ e.2.queue = []) ∧
        OtherRooms r s.dev d) ∧
    (rm.levels.length ≤ rm.level + 1 → rm.passes ≤ rm.pass + 1 →
      Completes (.levelWaitEnd r) s [.free, .events, .rooms, .funcs, .net, .cellar, .cores, .strong] fun d =>
        let rm' := d.room r
        rm' = { rm.landAll.landAllPlanes with phase := .ended } ∧ OtherRooms r s.dev d ∧
        let v : Vote := { func := rm.func, vroom := rm.vroom, set := rm.set, restart := rm.d == 64,
                          status := (if rm.faulted then 1 else if rm.missed then 2 else 0), beat := s.dev.time.n, crc := rm'.crc, room := r }
        d.net = { s.dev.net with
          votes := if s.dev.net.heldOn (.room r) (.hub 0) then s.dev.net.votes else s.dev.net.votes ++ [v]
          heldVotes := if s.dev.net.heldOn (.room r) (.hub 0) then s.dev.net.heldVotes ++ [v] else s.dev.net.heldVotes
          links := d.net.links })

/-- SLICE_RESULT_READY: the oldest result leaves the slice's pipeline; where SAT = 1 SATLANES takes its clamped lanes; with DLV = 0 its planes
join the output queue, with DLV = 1 plane k goes to window slot OSLOT + k at step t + 12 + k. -/
def Obligations.SliceResultsLeaveThePipeline : Prop :=
  ∀ (s : State) (r : RoomId) (sl : BitVec 3) (x : SliceResult) (rest : List SliceResult),
    let rm := s.dev.room r
    let z := rm.sl sl.toNat
    let ds := parseSlice (Tbl.get 0 rm.sliceDesc sl.toNat)
    z.pipe = x :: rest →
    Completes (.sliceResultReady r sl) s [.rooms] fun d =>
      let rm' := d.room r
      OtherRooms r s.dev d ∧ rm' = { rm with slices := rm'.slices, planes := rm'.planes } ∧
      rm'.slices = Tbl.set {} rm.slices sl.toNat
        { z with
          pipe := rest
          satLanes := if ds.sat then x.clamped else z.satLanes
          satPrev := if ds.sat then z.satLanes else z.satPrev
          satStep := if ds.sat then x.t + 12 else z.satStep
          queue := if ds.dlv then z.queue else z.queue ++ [x.planes] } ∧
      rm'.planes = if ds.dlv then
          rm.planes ++ x.planes.zipIdx.map fun y => (ds.oslot + y.2, { word := y.1, level := rm.place, step := x.t + 12 + y.2, src := r.toNat })
        else rm.planes

/-- LATE_STALL: a room in run-ahead whose decision is still out, or a room that began its beat stalled, issues no more in the beat and votes LATE
for it, or FAULT or MISSED where they apply, once in the beat; the vote waits where a ring of its way holds new packets. Of the network nothing
else changes but the retry buffers that trace packets pass (R396). -/
def Obligations.LateRoomsStallAndVote : Prop :=
  ∀ (s : State) (r : RoomId),
    let rm := s.dev.room r
    rm.late = false → ((rm.phase = .run ∨ rm.phase = .ended) ∧ rm.ahead = true ∧ rm.undecided ≠ none ∨ rm.phase = .stalled) →
    Completes (.lateStall r) s [.free, .events, .rooms, .net, .cellar, .cores, .strong] fun d =>
      let v : Vote := { func := rm.func, vroom := rm.vroom, set := rm.set, restart := rm.d == 64,
                        status := (if rm.faulted then 1 else if rm.missed then 2 else 3), beat := s.dev.time.n, crc := rm.crc, room := r }
      d.room r = { rm with phase := .stalled, late := true } ∧ OtherRooms r s.dev d ∧
      d.net = { s.dev.net with
        votes := if s.dev.net.heldOn (.room r) (.hub 0) then s.dev.net.votes else s.dev.net.votes ++ [v]
        heldVotes := if s.dev.net.heldOn (.room r) (.hub 0) then s.dev.net.heldVotes ++ [v] else s.dev.net.heldVotes
        links := d.net.links }

-- packets, votes and decisions

/-- XCH_PACKET at a window: the words of a packet whose GEN is the room's and whose beat is the current or the next one are written to their
slots; the words of any other packet, and those of attempt 0 of a restarted beat, are discarded and counted in ROOM_XCH_STALE. At a drain, each
word within the drain's size is held for the decision, and a word beyond it is dropped and faults the hub. The packet's flits have passed the
retry buffers of its way. -/
def Obligations.PacketsReachWindowsAndDrains : Prop :=
  ∀ (s : State) (src dst : Node) (step : BitVec 17) (p : Packet) (rest : List Packet), takePacket src dst s.dev.net.xch = some (p, rest) →
    (∀ r : RoomId, dst = .room r →
      Completes (.xchPacket src dst step) s [.rooms, .net] fun d =>
        let rm := s.dev.room r
        let fresh := rm.func ≠ 0xFFFF ∧ p.gen = rm.gen ∧ (p.beat = s.dev.time.n ∨ p.beat = s.dev.time.n + 1) ∧
          ¬ (p.beat = s.dev.time.n ∧ rm.att = true ∧ p.att = false)
        let src' := match p.src with | .room q => q.toNat | .hub _ => 256 + p.port
        d.net = { s.dev.net.carry src dst p.flits with xch := rest } ∧ OtherRooms r s.dev d ∧
        (fresh → d.room r = p.words.foldl (fun rm w => rm.writeSlot w.idx (p.beat != s.dev.time.n)
          { word := w.word, absent := w.absent, kept := p.keep, level := p.level, step := step.toNat, src := src' }) rm) ∧
        (¬ fresh → d.room r = p.words.foldl (fun rm _ => rm.count cntXchStale) rm)) ∧
    (∀ (u : BitVec 8) (f : Func) (b : BindRec) (w : PktWord), dst = .hub u → p.kind = .drain → p.words = [w] → s.dev.func? p.func = some f →
      s.dev.hubTakes f p = true → f.obj.bindings.find? (fun b => b.type == 2 && b.num == p.tgt) = some b →
      Completes (.xchPacket src dst step) s [.funcs, .net] fun d =>
        d.net = { s.dev.net.carry src dst p.flits with xch := rest } ∧
        d.func? p.func = some (if w.idx < b.size then
            { f with filling := Tbl.set none f.filling ((p.rep.toNat * 256 + p.tgt) * 65536 + w.idx) (some { word := w.word, beat := p.beat, att := p.att }) }
          else { f with hubFault := true }))

/-- The arbiter takes a room's VOTE of the current beat for the decision, and answers a LATE one with the decisions the room may have missed;
it takes a stream's VERDICT of the current beat and of the attempt that its room of set 0 runs; it takes the decision of a REMOTE sender. -/
def Obligations.ArbiterTakesVotesAndVerdicts : Prop :=
  (∀ (s : State) (r : RoomId) (v : Vote) (f : Func),
    s.dev.net.votes.find? (·.room == r) = some v → s.dev.func? v.func = some f → v.beat = s.dev.time.n → f.places.any (·.room == r) = true →
    f.decided = none →
    Completes (.vote r) s [.free, .out, .events, .funcs, .net, .cellar, .link, .cores, .strong, .hub] fun d =>
      d.net.votes = s.dev.net.votes.erase v ∧
      (∃ g, d.func? v.func = some g ∧ g.votes = f.votes ++ [v] ∧ (v.status ≠ 3 → Tbl.get 0 g.lastVote r.toNat = v.beat)) ∧
      (v.status = 3 → ∀ x ∈ f.past, Tbl.get 0 f.lastVote v.room.toNat ≤ x.beat → x.beat < v.beat →
        (Recipient.room r, x) ∈ if s.dev.net.heldOn (.hub 0) (.room r) then d.net.heldDecs else d.net.decs)) ∧
  (∀ (s : State) (st : StreamRef) (fl : StreamFlight) (f : Func),
    s.dev.cellar.flights.find? (fun x => x.st == st && x.delivered) = some fl → s.dev.func? st.func = some f → fl.beat = s.dev.time.n →
    fl.att = s.dev.streamAtt st → f.decided = none →
    Completes (.verdict st) s [.free, .out, .events, .funcs, .net, .cellar, .link, .cores, .strong, .hub] fun d =>
      ∃ g, d.func? st.func = some g ∧ (st, fl.verdict.passes) ∈ g.verdicts ∧ ∀ v ∈ g.verdicts, v.1 = st → v.2 = fl.verdict.passes) ∧
  (∀ (s : State) (dev : BitVec 11) (sender g : FuncId) (beat : Beat) (commit : Bool) (x : RemoteDep) (f : Func),
    x ∈ s.dev.link.deps → x.dev = dev → x.sender = sender → x.func = g → s.dev.func? g = some f →
    Completes (.remoteDecision dev sender beat commit) s [.free, .out, .events, .funcs, .net, .cellar, .link, .cores, .strong, .hub] fun d =>
      ∃ h, d.func? g = some h ∧ (dev, sender, beat, commit) ∈ h.remote)

/-- VOTE_DEADLINE: the arbiter decides a running function's open beat, with the first cause of R89's table that applies, COMMIT where none does,
and sends the decision to every room of the function and of its migration and to the hub units; one whose way a ring holds waits. Of the network
nothing else changes but the retry buffers that trace packets pass (R396). -/
def Obligations.ArbiterDecidesWithTheFirstCause : Prop :=
  ∀ (s : State) (id : FuncId) (f : Func),
    s.dev.func? id = some f → f.phase = .admitted → f.decided = none → f.since ≤ s.dev.time.n → s.dev.halted = false →
    Completes (.voteDeadline id) s [.free, .out, .events, .funcs, .net, .cellar, .link, .cores, .strong, .hub] fun d =>
      let cause : Nat :=
        if f.ordered = true ∨ (∃ p ∈ f.places, (s.dev.room p.room).isolated = true) then 1
        else if ∃ v ∈ f.votes, v.status = 1 ∨ 4 ≤ v.status.toNat then 2
        else if ∃ v ∈ f.votes, v.status = 3 then 3
        else if (∃ p ∈ f.places, ∀ v ∈ f.votes, v.room ≠ p.room) ∨ (∃ c ∈ f.critical, ∀ v ∈ f.verdicts, v.1 ≠ c) then 4
        else if ∃ v ∈ f.votes, ∃ w ∈ f.votes, v.restart ≠ w.restart then 5
        else if ∃ v ∈ f.votes, v.status = 2 then 6
        else if ∃ v ∈ f.verdicts, v.2 = false ∧ v.1 ∈ f.critical then 7
        else if f.mismatches ≠ [] then 8
        else if f.hubFault = true then 9
        else if ∃ x ∈ s.dev.remoteNeeds f s.dev.time.n, x ≠ some true then 10
        else 0
      let x : Decision := { func := id, beat := s.dev.time.n, commit := cause == 0, cause := BitVec.ofNat 4 cause }
      let rooms := f.rooms ++ (match f.migration with | some m => m.places.map (·.room) | none => [])
      let sent := rooms.map (fun r => (Recipient.room r, x)) ++ [(Recipient.hub id, x)]
      d.net = { s.dev.net with decs := s.dev.net.decs ++ sent.filter (fun y => !s.dev.net.heldTo y.1),
                               heldDecs := s.dev.net.heldDecs ++ sent.filter (fun y => s.dev.net.heldTo y.1), links := d.net.links } ∧
      d.func? id = some { f with decided := some x, past := (x :: f.past).take 64 }

/-- DECISION at a room and at the hub units: one for the beat that runs is held for the boundary; in run-ahead a COMMIT ends it with the
positions reached and the run-ahead queue kept, and a ROLLBACK restarts the beat at step 64 with attempt 1 from the committed positions, with no
MRD word of the attempt before left to land (log entry 162); at a migration's target it restarts nothing of the function's at the hub. -/
def Obligations.DecisionsReachRoomsAndHub : Prop :=
  (∀ (s : State) (r : RoomId) (x : Decision),
    let rm := s.dev.room r
    let net := s.dev.net.carry (.hub 0) (.room r) (evtFlits (.hub 0) (.room r) x.beat false 2 x.payload)
    s.dev.net.decs.find? (fun y => y.1 == .room r) = some (.room r, x) → rm.func = x.func → x ∉ rm.decisions →
    (rm.undecided = none → x.beat = s.dev.time.n → Completes (.decision (.room r)) s [.rooms, .net] fun d =>
      d.net = { net with decs := net.decs.erase (.room r, x) } ∧ OtherRooms r s.dev d ∧
      d.room r = { rm with decisions := rm.decisions ++ [x] }) ∧
    (rm.undecided = some x.beat → rm.phase ≠ .stalled → rm.ahead = true → x.commit = true → Completes (.decision (.room r)) s [.rooms, .net] fun d =>
      let rm' := d.room r
      d.net = { net with decs := net.decs.erase (.room r, x) } ∧ OtherRooms r s.dev d ∧
      rm'.ahead = false ∧ rm'.undecided = none ∧ rm'.lastCommit = x.beat ∧
      rm'.everCommitted = (rm.everCommitted || decide (rm.firstFrom ≤ x.beat)) ∧ rm'.wq = rm.wqAhead ∧ rm'.wqAhead = [] ∧
      rm'.crpos = rm.urpos ∧ rm'.cwpos = rm.uwpos ∧ rm'.rpos = rm.rpos ∧ rm'.wpos = rm.wpos ∧ rm'.phase = rm.phase ∧ rm'.idx = rm.idx ∧
      rm'.level = rm.level ∧ rm'.pass = rm.pass) ∧
    (rm.undecided = some x.beat → rm.phase ≠ .stalled → rm.ahead = true → x.commit = false →
      Completes (.decision (.room r)) s [.free, .events, .rooms, .funcs, .net, .cellar, .cores, .strong] fun d =>
        let rm' := d.room r
        d.net = { net with decs := net.decs.erase (.room r, x), links := d.net.links } ∧ OtherRooms r s.dev d ∧
        ((∀ f, s.dev.func? rm.func = some f → f.places.any (·.room == r) = false) → d.funcs = s.dev.funcs) ∧
        rm'.d = 64 ∧ rm'.att = true ∧ rm'.phase = .run ∧ rm'.ahead = false ∧ rm'.undecided = none ∧ rm'.pass = 0 ∧ rm'.level = 0 ∧ rm'.idx = 0 ∧
        rm'.wq = [] ∧ rm'.wqAhead = [] ∧ rm'.rpos = rm.crpos ∧ rm'.wpos = rm.cwpos ∧ rm'.crpos = rm.crpos ∧ rm'.cwpos = rm.cwpos ∧
        rm'.bank = rm.bank ∧ rm'.lastCommit = rm.lastCommit ∧ (∀ e ∈ rm'.bps, e.2.landing = none) ∧
        ∀ e ∈ rm'.win, ∀ w, e.2.cur = some w → w.kept = true)) ∧
  (∀ (s : State) (id : FuncId) (x : Decision) (f : Func),
    s.dev.net.decs.find? (fun y => y.1 == .hub id) = some (.hub id, x) → s.dev.func? x.func = some f →
    (x.beat = s.dev.time.n → Completes (.decision (.hub id)) s [.funcs, .net] fun d =>
      d.net = { s.dev.net with decs := s.dev.net.decs.erase (.hub id, x) } ∧ d.func? x.func = some { f with hubDec := some x }) ∧
    (x.beat ≠ s.dev.time.n → x.commit = true → Completes (.decision (.hub id)) s [.funcs, .net, .cellar] fun d =>
      d.net = { s.dev.net with decs := s.dev.net.decs.erase (.hub id, x) } ∧
      d.func? x.func = some { f with emitCommit := true, ringK := f.ringK + 1, everCommitted := true } ∧
      ∀ e ∈ d.cellar.wb, e.func = x.func → e.beat = x.beat → e.committed = true))

/-- Link errors of a ring: a flit resent is counted and raises the ring's event; a link that goes down loses every packet, stream word, vote,
decision, event and trace packet on its way over it, and its retry buffer, is counted, raises the event and makes the ring hold new packets; a lost
drain or stream word is a hub fault; a retrain's end and a failed retrain are noted; at a hold's end what the ring held goes on its way. -/
def Obligations.RingLinksFailAndReturn : Prop :=
  ∀ (s : State) (l : LinkDir), linkOk l = true →
    let n := s.dev.net
    let c := s.dev.cellar
    let k := linkDirKey l
    let z := Tbl.get ({} : LinkState) n.links k
    let on (src dst : Node) : Bool := decide (k ∈ n.way src dst)
    let roomOf (i : Nat) (u : BitVec 8) : Bool := decide (i < 256) && on (.room (BitVec.ofNat 8 i)) (.hub u)
    (Completes (.flitCrcError l) s [.net, .events] fun d =>
      d.net = { n with retry := bumpAt n.retry l.ring.toNat } ∧ Raised s.dev d (448 + l.ring.toNat)) ∧
    (Completes (.linkDown l) s [.events, .funcs, .net, .cellar, .cores] fun d =>
      d.net = { n with
        xch := (n.xch.filter fun p => p.waits || !on p.src p.dst).map fun p => { p with waits := p.waits || turnsInto p.src p.dst == some l.ring.toNat }
        votes := n.votes.filter (fun v => !on (.room v.room) (.hub 0))
        decs := n.decs.filter (fun x => match x.1 with | .room r => !on (.hub 0) (.room r) | .hub _ => true)
        ue := bumpAt n.ue l.ring.toNat
        links := Tbl.set {} n.links k { down := true }
        holds := if l.ring ∈ n.holds then n.holds else l.ring :: n.holds } ∧
      d.cellar = { c with flights := c.flights.map fun x => { x with dests := x.dests.filter fun y => !on (.hub 1) (.room y.1) } } ∧
      (d.stream 16).window = (s.dev.stream 16).window.filter (fun p => !roomOf p.2.1 6) ∧
      (∃ o, d.events = (s.dev.events.filter fun o => !roomOf o.ev.toNat 5) ++ [o] ∧ o.ev = BitVec.ofNat 10 (448 + l.ring.toNat) ∧ o.ts = s.dev.now) ∧
      ∀ p ∈ n.xch, p.waits = false → k ∈ n.way p.src p.dst → p.kind = .drain ∨ p.kind = .stream → ∀ f, d.func? p.func = some f → f.hubFault = true) ∧
    (z.down = true → Completes (.linkRetrainDone l) s [.net] fun d => d.net = { n with links := Tbl.set {} n.links k { z with trained := true } }) ∧
    (z.down = true → Completes (.linkRetrainRetry l) s [.net] fun d => d.net = { n with links := Tbl.set {} n.links k { z with retrains := z.retrains + 1 } }) ∧
    (Completes (.ringHoldEnd l.ring) s [.net] fun d =>
      let m := { n with holds := n.holds.filter (· != l.ring) }
      d.net = { m with
        xch := n.xch.map fun p => { p with waits := p.waits && m.heldOn p.src p.dst }
        votes := n.votes ++ n.heldVotes.filter fun v => !m.heldOn (.room v.room) (.hub 0)
        heldVotes := n.heldVotes.filter fun v => m.heldOn (.room v.room) (.hub 0)
        decs := n.decs ++ n.heldDecs.filter fun x => !m.heldTo x.1
        heldDecs := n.heldDecs.filter fun x => m.heldTo x.1 })

-- the cellar

/-- CELLAR_READ of an unsealed region answers the stored bytes GOOD; of a sealed line that verifies, its plaintext GOOD; of a line with state
UNSEALED-ZERO, zeros and UNWRITTEN; a core gets a bus error for a line that does not verify, which is counted and raises EV0440; an access that
R163 refuses is counted, raises EV0446 and ends in a bus error. The window BAR4 reads the stored bytes, of the device reserve zeros. -/
def Obligations.CellarReadsAnswer : Prop :=
  ∀ (s : State) (k : QKind) (q : BitVec 9) (a : BitVec 34), lineOk a = true →
    let c := s.dev.cellar
    let line := a.toNat / 128
    let m := c.metaOf line
    let ke := (c.key m.slot).ke
    let iv := sealIv line m.ctr m.slot
    let good := (c.key m.slot).phase ≠ .empty ∧ gcmTag ke iv (sealAad line m.ctr m.slot) (c.raw line) = m.mac
    (∀ (n : Nat) (r : Region), c.permits k q line (wantOf k false) false = some (n, r) → PlainLine s.dev line →
      (r.sealed_ = false → Completes (.cellarRead k q a {}) s [.out] fun d => Sent s.dev d (.cellar k q .good (c.raw line))) ∧
      (r.sealed_ = true → c.clearing = false → m.rsvOk = true →
        (m.state = 0 → k ≠ .room → Completes (.cellarRead k q a {}) s [.out] fun d => Sent s.dev d (.cellar k q .unwritten 0)) ∧
        (m.state = 1 → good → c.inRepair line = false → Completes (.cellarRead k q a {}) s [.out] fun d =>
          Sent s.dev d (.cellar k q .good (c.raw line ^^^ gcmStream ke iv))) ∧
        (m.state = 1 → ¬ good → k = .core → Completes (.cellarRead k q a {}) s [.out, .events, .cellar] fun d =>
          Sent s.dev d (.busError k q) ∧ Raised s.dev d 440 ∧ d.cellar = { c with cnt := bumpAt c.cnt 0 }))) ∧
    (c.permits k q line (wantOf k false) false = none → k ≠ .room → k ≠ .bar → Completes (.cellarRead k q a {}) s [.out, .events, .cellar] fun d =>
      Sent s.dev d (.busError k q) ∧ Raised s.dev d 446 ∧ d.cellar = { c with cnt := bumpAt c.cnt 2 }) ∧
    (c.dataUe line {} = false ∨ 0x3F0000000 ≤ 128 * line → Completes (.cellarRead .bar q a {}) s [.out] fun d =>
      Sent s.dev d (.cellar .bar 0 .good (if 0x3F0000000 ≤ 128 * line then 0 else c.raw line)))

/-- CELLAR_WRITE to an unsealed region stores exactly the bytes of its mask; every other byte of the stack reads as before. So does a write through
the window BAR4 to such a region that grants BAR_W. -/
def Obligations.PlainWritesStoreTheirBytes : Prop :=
  ∀ (s : State) (k : QKind) (q : BitVec 9) (a : BitVec 34) (mask : BitVec 128) (data : BitVec 1024),
    let c := s.dev.cellar
    let line := a.toNat / 128
    lineOk a = true → MemCanon s.dev → c.clearing = false →
    ((∃ n r, c.permits k q line (wantOf k true) true = some (n, r) ∧ (c.region n).sealed_ = false) ∨
      k = .bar ∧ line < dataLines ∧ ∃ n r, c.regionOf line = some (n, r) ∧ r.sealed_ = false ∧ r.rights.getLsbD 8 = true) →
    Completes (.cellarWrite k q a mask data {}) s [.cellar] fun d =>
      d.cellar = { c with mem := d.cellar.mem, unread := d.cellar.unread } ∧ (∀ w ∈ d.cellar.unread, w ∈ c.unread) ∧
      ∀ x : Nat, Memory.read d.cellar.mem x =
        if a.toNat ≤ x ∧ x < a.toNat + 128 ∧ mask.getLsbD (x - a.toNat) = true then data.extractLsb' (8 * (x - a.toNat)) 8
        else Memory.read c.mem x

/-- CELLAR_WRITE of a whole line of a sealed region seals the line under the write slot with the next counter; a read of it then verifies GOOD
and gives the data, and no stored byte outside the line and its metadata changes; where the line's metadata is unreadable the new counter is a free
value (log entry 173). An access that R163 or R185 refuses stores nothing. -/
def Obligations.SealedWritesReadBack : Prop :=
  ∀ (s : State) (k : QKind) (q : BitVec 9) (a : BitVec 34) (data : BitVec 1024), lineOk a = true → MemCanon s.dev → s.dev.cellar.clearing = false →
    let c := s.dev.cellar
    let line := a.toNat / 128
    let slot := c.writeSlot q line
    let m := c.metaOf line
    (∀ (n : Nat) (r : Region), c.permits k q line (wantOf k true) true = some (n, r) → (c.region n).sealed_ = true → line < dataLines →
      c.inRepair line = false → (c.key slot).phase = .active → (m.state = 0 ∨ m.ctr ≠ BitVec.allOnes 32) →
      let left (d : Dev) : Prop :=
        (d.cellar.metaOf line).slot = slot ∧ (d.cellar.metaOf line).state = 1 ∧ d.cellar.openSealed line {} 0 = (.good, data) ∧
        d.cellar.keys = Tbl.set {} c.keys slot.toNat { c.key slot with fresh := false } ∧
        ∀ x : Nat, (x < a.toNat ∨ a.toNat + 128 ≤ x) → (x < metaAddr line ∨ metaAddr line + 16 ≤ x) →
          Memory.read d.cellar.mem x = Memory.read c.mem x
      (c.metaUe line {} = false → Completes (.cellarWrite k q a (BitVec.allOnes 128) data {}) s [.cellar] fun d =>
        left d ∧ (d.cellar.metaOf line).ctr = (if m.state = 0 then 0 else m.ctr + 1) ∧
        d.cellar = { c with mem := d.cellar.mem, keys := d.cellar.keys, unread := d.cellar.unread }) ∧
      (c.metaUe line {} = true → Completes (.cellarWrite k q a (BitVec.allOnes 128) data {}) s [.free, .events, .cellar] fun d =>
        left d ∧ OnTheWay d (424 + (rowOf (metaAddr line / 128)).1) ∧ (∃ n, (d.cellar.metaOf line).ctr = (Config.ueLine n).setWidth 32) ∧
        d.cellar = { c with mem := d.cellar.mem, keys := d.cellar.keys, unread := d.cellar.unread, pcUe := d.cellar.pcUe })) ∧
    (c.permits k q line (wantOf k true) true = none → k ≠ .bar →
      Completes (.cellarWrite k q a (BitVec.allOnes 128) data {}) s [.out, .events, .cellar] fun d =>
        Sent s.dev d (.busError k q) ∧ Raised s.dev d 446 ∧ d.cellar = { c with cnt := bumpAt c.cnt 2 }) ∧
    (dataLines ≤ line ∨ c.barOk line = false → Completes (.cellarWrite .bar q a (BitVec.allOnes 128) data {}) s [.events, .cellar] fun d =>
      Raised s.dev d 446 ∧ d.cellar = { c with cnt := bumpAt c.cnt 2 })

/-- WRITE_BACK of the next committed entry of the write buffer to an unsealed region: the entry leaves the buffer and its words are stored. -/
def Obligations.WriteBackStoresItsWords : Prop :=
  ∀ (s : State) (w : WbEntry) (n : Nat) (r : Region),
    let c := s.dev.cellar
    c.clearing = false → c.nextBack = some w → c.regionOf w.line = some (n, r) → r.sealed_ = false → (c.region n).sealed_ = false →
    Completes (.writeBack {}) s [.cellar] fun d =>
      d.cellar = { c with wb := c.wb.erase w, mem := Memory.writeN c.mem (128 * w.line) (leBytes 128 (mergeBytes w.bytes.1 w.bytes.2 (c.raw w.line)).toNat),
                          unread := d.cellar.unread } ∧ ∀ x ∈ d.cellar.unread, x ∈ c.unread

/-- SWEEP_LINE reseals a line that verifies under another slot under the target, with the next counter and its plaintext kept, and moves the
boundary on; METADATA_CLEAR_DONE leaves the sealed area's metadata UNSEALED-ZERO and starts the start-up sweep. -/
def Obligations.SweepsResealLines : Prop :=
  (∀ (s : State) (e : BitVec 2) (plain : BitVec 1024),
    let c := s.dev.cellar
    let z := Tbl.get ({} : SweepEngine) c.sweeps e.toNat
    let line := z.bound.toNat
    let m := c.metaOf line
    MemCanon s.dev → SweepsFlow s.dev → z.phase = .run → z.bound + 1 < z.stop → z.bound < z.stop → line < dataLines →
    m.state = 1 → m.slot ≠ z.tgt → m.ctr ≠ BitVec.allOnes 32 → c.openSealed line {} s.dev.free = (.good, plain) → (c.key z.tgt).phase = .active →
    Completes (.sweepLine e {}) s [.cellar] fun d =>
      (d.cellar.metaOf line).slot = z.tgt ∧ (d.cellar.metaOf line).ctr = m.ctr + 1 ∧ d.cellar.openSealed line {} 0 = (.good, plain) ∧
      d.cellar.sweeps = Tbl.set {} c.sweeps e.toNat { z with bound := z.bound + 1 } ∧
      d.cellar = { c with mem := d.cellar.mem, keys := d.cellar.keys, sweeps := d.cellar.sweeps, unread := d.cellar.unread }) ∧
  (∀ s : State, MemCanon s.dev → SweepsFlow s.dev → s.dev.cellar.clearing = true → s.dev.cellar.heldWrites = [] →
    Completes .metadataClearDone s [.cellar, .events] fun d =>
      let c := s.dev.cellar
      d.cellar.clearing = false ∧ d.cellar.startup = true ∧ Raised s.dev d 441 ∧
      Tbl.get ({} : SweepEngine) d.cellar.sweeps 0 = { phase := .run, startup := true, tgt := 0, stop := BitVec.ofNat 27 c.openLine } ∧
      ∀ x : Nat, Memory.read d.cellar.mem x = if metaAddr 0 ≤ x ∧ x < metaAddr c.openLine then 0 else Memory.read c.mem x)

/-- PATROL_READ counts a corrected error of its pseudo-channel; an uncorrectable one is counted, raises the channel's event and starts a repair
of its row. ROW_REPAIR_DONE takes the bank's soft repair, else a spare row, keeps it in the flash and raises the channel's event.
STACK_TEMP_READ shows the temperature, with HOT above 85 °C, and every channel's event where it passes 95 °C. -/
def Obligations.StackErrorsAndRepairs : Prop :=
  (∀ (s : State) (a : BitVec 34), lineOk a = true → s.dev.background = false →
    let c := s.dev.cellar
    let pc := (rowOf (a.toNat / 128)).1
    let row := (rowOf (a.toNat / 128)).2
    c.unread = [] →
    (c.rowErrors = [] → Completes (.patrolRead a { dataCorrected := 1 }) s [.cellar] fun d =>
      d.cellar = { c with pcCe := Tbl.modify {} c.pcCe pc (·.bumpBy 1), rowErrors := [(pc * 2 ^ 20 + row, s.dev.now)] }) ∧
    (∀ w : BitVec 4, (∀ e ∈ c.sweeps, e.2.phase = .idle) → c.repairing = [] →
      Completes (.patrolRead a { uncorrectable := true, word := w }) s [.cellar, .events] fun d =>
        let bad := 16 * (a.toNat / 128) + w.toNat
        d.cellar = { c with pcUe := Tbl.modify {} c.pcUe pc (·.bump), unread := [bad]
                            repairing := [{ pc, row, shadow := rowLines pc row, bad := [bad] }] } ∧
        Raised s.dev d (424 + pc))) ∧
  (∀ (s : State) (pc : BitVec 4) (x : Repair), s.dev.cellar.repairing.find? (fun r => r.pc == pc.toNat) = some x →
    (∀ w ∈ x.bad, w ∉ s.dev.cellar.unread) →
    (∀ e ∈ s.dev.cellar.sweeps, e.2.phase = .idle) →
    let c := s.dev.cellar
    let p := Tbl.get ({} : PcRepair) c.pcRepair pc.toNat
    let p' := if x.row % 64 ∉ p.soft then { p with soft := x.row % 64 :: p.soft } else if p.remap.length < 32 then { p with remap := x.row :: p.remap } else p
    Completes (.rowRepairDone pc) s [.cellar, .flash, .events] fun d =>
      d.flash = Tbl.set {} s.dev.flash pc.toNat p' ∧ Raised s.dev d (424 + pc.toNat) ∧
      d.cellar = { c with pcRepair := Tbl.set {} c.pcRepair pc.toNat p', repairing := c.repairing.filter fun y => !(y.pc == x.pc && y.row == x.row) }) ∧
  (∀ (s : State) (t : BitVec 8), Completes (.stackTempRead t) s [.cellar, .events, .power] fun d =>
    d.cellar.temp = t ∧ d.cellar.hot = decide (85 < t.toNat) ∧ (95 < t.toNat → s.dev.cellar.temp.toNat ≤ 95 → ∀ n < 16, OnTheWay d (424 + n)) ∧
    (d.power.hot = true ↔ (∃ x ∈ s.dev.power.sensors, 4 * (s.dev.power.hotCfg.toNat : Int) ≤ x.2.temp.toInt) ∨ 95 < t.toNat))

/-- Key slots: KEY_LOAD fills an EMPTY slot from its key record, KEY_RETIRE makes a slot that nothing names RETIRING, SWEEP starts a free engine on a
region. KEY_RETIRE's end: at no reference the RETIRING slot is zeroised and EMPTY and the retire completes OK; at its deadline with references left
it completes KEY_IN_USE with EV0445, and the slot stays. -/
def Obligations.KeysAreLoadedSweptAndRetired : Prop :=
  (∀ (s : State) (x : DescRef) (e : RetEntry),
    let w := e.desc
    let c := s.dev.cellar
    let ps : List Part := [.out, .events, .link, .rings, .sched]
    let done (d : Dev) (status detail : Nat) : Prop :=
      CompletedWith d x { seq := e.seq, status, detail, opcode := descOpcode w, beat := s.dev.time.n }
    (∀ bs, CanRun s.dev x 0x41 e → e.args = some bs →
      let k := BitVec.ofNat 6 (dfld w 0x18 1)
      (s.dev.recordKey bs = none → Completes (.keyLoad x) s ps fun d => done d 5 4) ∧
      (∀ key, s.dev.recordKey bs = some key → (c.key k).phase ≠ .empty → Completes (.keyLoad x) s ps fun d => done d 0x42 0) ∧
      (∀ key, s.dev.recordKey bs = some key → (c.key k).phase = .empty → Completes (.keyLoad x) s [.out, .events, .cellar, .link, .rings, .sched] fun d =>
        let n := c.loads + 1
        done d 0 0 ∧ d.cellar = { c with loads := n
                                         keys := Tbl.set {} c.keys k.toNat { phase := .active, fresh := true, key, load := n,
                                                                             ke := deriveKe key c.nonce n k } })) ∧
    (CanRun s.dev x 0x42 e →
      let k := BitVec.ofNat 6 (dfld w 0x18 1)
      ((c.key k).phase = .empty → Completes (.keyRetire x) s ps fun d => done d 2 0) ∧
      ((c.key k).phase ≠ .empty → c.slotUsed k = true → Completes (.keyRetire x) s ps fun d => done d 0x42 0) ∧
      ((c.key k).phase ≠ .empty → c.slotUsed k = false → Completes (.keyRetire x) s [.cellar, .rings] fun d =>
        let y : Retire := { desc := x, slot := k, was := (c.key k).phase, deadline := s.dev.now + dfld w 0x1C 4 * 10 ^ 6 * ns }
        d.cellar = { c with keys := Tbl.set {} c.keys k.toNat { c.key k with phase := .retiring }, retires := c.retires ++ [y] } ∧
        d.rings = (s.dev.start x).rings)) ∧
    (CanRun s.dev x 0x43 e →
      let n := dfld w 0x18 1
      let tgt := BitVec.ofNat 6 (dfld w 0x19 1)
      let whole := dfld w 0x1A 1 = 0
      let first := (c.region n).lines.1 + (if dfld w 0x1A 1 = 0 then 0 else dfld w 0x20 4)
      let stop := if dfld w 0x1A 1 = 0 then (c.region n).lines.2 else first + dfld w 0x24 4
      let r := c.region n
      let refused (d : Dev) (status detail : Nat) : Prop :=
        CompletedWith d x { seq := e.seq, status, detail, opcode := descOpcode w, beat := s.dev.time.n
                            info1 := (Tbl.get ({} : SweepEngine) c.sweeps (c.freeEngine.getD 0)).bound.toNat }
      (¬ whole → (c.region n).lines.2 < stop → Completes (.sweep x) s ps fun d => refused d 5 4) ∧
      (stop ≤ (c.region n).lines.2 → (c.key tgt).phase ≠ .active → Completes (.sweep x) s ps fun d => refused d 0x42 0) ∧
      (∀ en, stop ≤ (c.region n).lines.2 → (c.key tgt).phase = .active → c.freeEngine = some en → c.sweeping n = false → SweepsFlow s.dev →
        Completes (.sweep x) s [.events, .cellar, .rings] fun d =>
          let z : SweepEngine := { phase := .run, tgt, region := BitVec.ofNat 8 n, start := BitVec.ofNat 27 first, bound := BitVec.ofNat 27 first,
                                   stop := BitVec.ofNat 27 stop, desc := some x
                                   exhaust := !r.autosweep && r.pvalid && r.pending == tgt && (first, stop) == r.lines }
          Raised s.dev d 441 ∧ d.cellar = { c with sweeps := Tbl.set {} c.sweeps en z } ∧ d.rings = (s.dev.start x).rings))) ∧
  (∀ (s : State) (k : BitVec 6) (x : Retire) (e : RetEntry),
    let c := s.dev.cellar
    OpenDesc s.dev x.desc e → c.retires.filter (fun r => r.slot == k) = [x] →
    ((c.key k).phase = .retiring → c.refs k = 0 → Completes (.keyRetireRefsZero k) s [.cellar, .rings, .out, .events, .link, .sched] fun d =>
      d.cellar = { c with keys := Tbl.set {} c.keys k.toNat {}, retires := c.retires.filter fun r => r.slot != k } ∧
      CompletedWith d x.desc { seq := e.seq, status := 0, opcode := descOpcode e.desc, beat := s.dev.time.n }) ∧
    (c.refs k ≠ 0 → Completes (.keyRetireTimeout k) s [.now, .cellar, .rings, .out, .events, .link, .sched] fun d =>
      d.now = max s.dev.now x.deadline ∧ d.cellar = { c with retires := c.retires.erase x } ∧ OnTheWay d 445 ∧
      CompletedWith d x.desc { seq := e.seq, status := 0x42, opcode := descOpcode e.desc, beat := s.dev.time.n }))

/-- Writes of the cellar's registers by the PF view: enabling a region that breaks no rule takes its fields, and one that breaks a rule stays
disabled with CFGERR; a queue of kind 0 keeps its write slot until the boundary and any other takes it at once; a frame store that fits its
sealed region opens with VALIDGEN 0. -/
def Obligations.RegionsQueuesAndFrameStores : Prop :=
  ∀ (s : State) (rq : Requester), s.dev.isPf rq = true →
    let c := s.dev.cellar
    (∀ (n : BitVec 8) (v : Word),
      let r := c.region n.toNat
      let r' : Region := { r with sealed_ := v.getLsbD 30, owner := v.extractLsb' 23 7, rights := v.extractLsb' 14 9, autosweep := v.getLsbD 13,
                                  pvalid := false, pending := v.extractLsb' 6 6 }
      let code := c.cfgErr n.toNat r'
      (∀ e ∈ c.regions, e.2.exhausting = false) → r.exhausting = false → r.en = false → v.getLsbD 31 = true → v.getLsbD 12 = false →
      Completes (.rgnEnable rq n v) s [.cellar] fun d =>
        d.cellar = { c with regions := Tbl.set {} c.regions n.toNat { r' with en := code == 0, cfgerr := BitVec.ofNat 3 code } }) ∧
    (∀ (q : BitVec 9) (v : Word),
      let o := c.queue q
      Completes (.qWslotChange rq q v) s [.cellar] fun d =>
        d.cellar = { c with queues := Tbl.set {} c.queues q.toNat {
          en := v.getLsbD 31
          kind := v.extractLsb' 28 3
          owner := v.extractLsb' 21 7
          wvalid := v.getLsbD 20
          wslot := v.extractLsb' 14 6
          wevalid := if v.extractLsb' 28 3 = 0 then o.wevalid else v.getLsbD 20
          weff := if v.extractLsb' 28 3 = 0 then o.weff else v.extractLsb' 14 6 } }) ∧
    (∀ (f : BitVec 6) (v : Word),
      let x := Tbl.get ({} : FrameStore) c.frames f.toNat
      let r := c.region x.region.toNat
      let line := (v.extractLsb' 0 27).toNat
      x.opened = false → v.getLsbD 31 = true → r.en = true → r.sealed_ = true → 1 ≤ x.flines.toNat → 1 ≤ x.sm1.toNat →
      line + (x.sm1.toNat + 1) * x.flines.toNat ≤ r.lines.2 - r.lines.1 →
      Completes (.fsOpen rq f v) s [.cellar] fun d =>
        d.cellar = { c with frames := Tbl.set {} c.frames f.toNat {
          x with line := v.extractLsb' 0 27, opened := true, validgen := 0, wframe := 0, frameBeat := s.dev.time.n, begun := false, got := 0 } })

/-- READ_STREAM_ISSUE puts the stream's words under way once in the beat and attempt of its room of set 0, which pays 120 tokens for the line;
STREAM_WORDS brings them to consecutive window slots of the room, for the beat and attempt they were issued in and the room's placement generation,
and the verdict may then go to the arbiter; other words are discarded and counted, and on a ring that holds new packets, or behind words of a stream
injected earlier for the same room, they wait. -/
def Obligations.ReadStreamsReachTheirRooms : Prop :=
  (∀ (s : State) (st : StreamRef) (f : Func) (sd : StreamDecl) (p : Place) (q : BitVec 9) (g line : Nat) (n : Nat) (r : Region),
    let rm := s.dev.room p.room
    let c := s.dev.cellar
    let w := (rm.d + sd.sigma) / 64
    s.dev.func? st.func = some f → f.stream? st.vroom.toNat st.stream.toNat false = some sd →
    f.placeOf false st.rep.toNat st.vroom.toNat = some p → rm.phase = .run ∨ rm.phase = .ended →
    (∀ x ∈ c.flights, x.st = st → x.beat = s.dev.time.n → x.att ≠ rm.att) →
    f.regionBinding sd = some (q, g) → s.dev.streamLine f sd (f.ringCount rm.ahead) s.dev.time.n = some (line, none) →
    1 ≤ sd.words → sd.words ≤ 16 → sd.mode ≠ 2 → c.permits .room q line .streamR false = some (n, r) → r.sealed_ = false →
    c.visible line (some (f.id, s.dev.time.n)) = [] → c.unread = [] → Tbl.get 0 rm.tokens w + 120 ≤ rm.envelope.getD w 0 →
    Completes (.readStreamIssue { st }) s [.rooms, .cellar] fun d =>
      d.room p.room = { rm with tokens := Tbl.set 0 rm.tokens w (Tbl.get 0 rm.tokens w + 120) } ∧ OtherRooms p.room s.dev d ∧
      d.cellar = { c with flights := c.flights ++
        [{ st, beat := s.dev.time.n, att := rm.att, slot := sd.slot, line, words := (lineWords (c.raw line)).take sd.words, verdict := .good
           dests := f.destinations st.rep.toNat st.vroom.toNat }] }) ∧
  (∀ (s : State) (st : StreamRef) (fl : StreamFlight) (r : RoomId) (gen : BitVec 8),
    let rm := s.dev.room r
    let find (x : StreamFlight) : Bool := x.st == st && (!x.delivered || !x.dests.isEmpty)
    let fls := s.dev.cellar.flights
    let ahead := (if fl.delivered then fls.takeWhile (· ≠ fl) else fls).any fun x => x.delivered && x.dests.any (·.1 == r)
    let held := s.dev.net.heldOn (.hub 1) (.room r) || ahead
    let now (d : Dev) (dests : List (RoomId × BitVec 8)) : Prop :=
      let x := { fl with delivered := true, dests := dests }
      d.cellar = { s.dev.cellar with flights := if fl.delivered then fls.map (fun y => if y = fl then x else y) else fls.erase fl ++ [x] }
    s.dev.cellar.flights.find? find = some fl → fl.dests = [(r, gen)] →
    (held = true → Completes (.streamWords st) s [.cellar] fun d => now d [(r, gen)]) ∧
    (held = false → Completes (.streamWords st) s [.cellar, .rooms, .net] fun d =>
      let fresh := rm.func ≠ 0xFFFF ∧ gen = rm.gen ∧ fl.beat = s.dev.time.n ∧ ¬ (rm.att = true ∧ fl.att = false)
      now d [] ∧ OtherRooms r s.dev d ∧
      (fresh → d.room r = fl.words.zipIdx.foldl (fun rm y =>
        rm.writeSlot (fl.slot + y.2) false { word := y.1, level := rm.place, step := rm.stepNow, src := 512 }) rm) ∧
      (¬ fresh → d.room r = fl.words.foldl (fun rm _ => rm.count cntXchStale) rm)))

-- media ports

/-- ETH_FRAME on an enabled port with its subport up and no bridge: what FEC found is counted; a bad FCS is counted and the frame dropped; a PTP
message goes to the time unit with its ingress timestamp, with nothing more where its subport's PTP is off or its domain is another; a packet of an
open unmerged flow advances its leg, with the numbers the leg skipped counted as lost; any other frame joins the control-core queue.
SUBPORT_UP_DOWN changes UP and raises the port's event.
SDI_LINE takes the line's format into the engine's status, counts its CRC, TRS and ANC errors, raises the engine's event for CRC errors, and queues
its good ANC packets; SDI_LOCK_CHANGE takes lock with the detected format, or clears it, and raises the event where lock changes. -/
def Obligations.FramesAndLinesAreReceived : Prop :=
  (∀ (s : State) (port : BitVec 3) (sub : BitVec 2),
    let n := port.toNat
    let p := s.dev.eth n
    p.en = true →
    (∀ fr : EthFrame, p.up.getLsbD sub.toNat = true → fr.length.toNat ≤ 9216 → s.dev.bridged n = false →
      let good : Prop := fr.fcsOk = true ∧ fr.macControl = false ∧ fr.fecCorrected = 0 ∧ fr.fecUncorrectable = 0
      (fr.fcsOk = false → fr.fecCorrected = 0 → fr.fecUncorrectable = 0 → Completes (.ethFrame port sub fr) s [.media] fun d =>
        d.media = { s.dev.media with eth := Tbl.set {} s.dev.media.eth n { p with cnt := Tbl.modify {} p.cnt 2 (·.bumpBy 1) } }) ∧
      (fr.fcsOk = false → p.mode = 0 → fr.fecCorrected ≠ 0 → fr.fecUncorrectable ≠ 0 → Completes (.ethFrame port sub fr) s [.media, .events] fun d =>
        let c := Tbl.modify {} (Tbl.modify {} p.cnt 0 (·.bumpBy fr.fecCorrected)) 1 (·.bumpBy fr.fecUncorrectable)
        d.eth n = { p with cnt := Tbl.modify {} c 2 (·.bumpBy 1) } ∧ d.media = { s.dev.media with eth := d.media.eth } ∧ Raised s.dev d (352 + n)) ∧
      (good → isPtp fr = true → fr.tags.toNat < 2 →
        let u := s.dev.timePort (subportOf n sub)
        let m := fr.ptp.getD {}
        let to_ : Output := .ptp port sub (u.ingress s.dev.now)
          (if m.kind = .sync ∨ m.kind = .pdelayResp then m.correction + u.asym.signExtend 64 else m.correction)
        (Completes (.ethFrame port sub fr) s [.out, .events, .media, .time] fun d => to_ ∈ d.out) ∧
        (u.en = false ∨ m.domain ≠ s.dev.time.domain → Completes (.ethFrame port sub fr) s [.out] fun d => Sent s.dev d to_)) ∧
      (good → isPtp fr = false → (s.dev.matchLeg n sub.toNat fr = none ∨ fr.udp = false) →
        Completes (.ethFrame port sub fr) s [.media] fun d =>
          d.eth n = { p with coreQueue := p.coreQueue ++ [fr], cnt := Tbl.modify {} p.cnt 5 (·.bumpBy 1) } ∧
          d.media = { s.dev.media with eth := d.media.eth }) ∧
      (∀ (i : Nat) (e : BitVec 16),
        let f := s.dev.flow i
        let gap := (fr.seq - e).toNat
        let c := Tbl.modify {} f.cnt 0 (·.bumpBy 1)
        good → isPtp fr = false → fr.udp = true → fr.fragment = false → fr.tags.toNat < 2 →
        s.dev.matchLeg n sub.toNat fr = some (i, false) → f.opened = true → f.record.merged = false → f.legA = true → f.nextA = some e → gap < 2 ^ 15 →
        Completes (.ethFrame port sub fr) s [.media] fun d =>
          d.flow i = { f with nextA := some (fr.seq + 1), seen := [], missing := f.missing.filter (· != fr.seq),
                              cnt := if gap = 0 then c else Tbl.modify {} c 4 (·.bumpBy gap) } ∧
          d.media = { s.dev.media with flows := d.media.flows })) ∧
    (∀ up : Bool, (p.mode ≠ 0 ∨ sub = 0) → p.up.getLsbD sub.toNat ≠ up → (up = true → ∀ l ∈ subLanes p n sub.toNat, s.dev.laneOut l = false) →
      Completes (.subportUpDown port sub up) s [.media, .events] fun d =>
        d.media = { s.dev.media with eth := Tbl.set {} s.dev.media.eth n {
          p with up := if up then p.up ||| ((1 : BitVec 4) <<< sub.toNat) else p.up &&& ~~~((1 : BitVec 4) <<< sub.toNat) } } ∧
        Raised s.dev d (352 + n))) ∧
  (∀ (s : State) (e : BitVec 5) (l : SdiLine),
    let n := e.toNat
    let x := s.dev.sdi n
    let c0 := if l.crcErrors = 0 then x.cnt else Tbl.modify {} x.cnt 0 (·.bumpBy l.crcErrors)
    let c1 := if l.trsError then Tbl.modify {} c0 1 (·.bumpBy 1) else c0
    let c2 := if l.ancBad = 0 then c1 else Tbl.modify {} c1 2 (·.bumpBy l.ancBad)
    x.rxen = true → s.dev.sdiAlone n = true →
    (x.locked = true → Completes (.sdiLine e l) s [.media, .events] fun d =>
      d.sdi n = { x with pid := l.pid, raster := l.raster, frate := l.frate, rxsamp := l.samp, cnt := c2, ancQueue := x.ancQueue ++ l.anc, mismatch := (d.sdi n).mismatch } ∧
      d.media = { s.dev.media with sdi := d.media.sdi } ∧ (l.crcErrors ≠ 0 → OnTheWay d (360 + n))) ∧
    (x.rateOn l.rate = true → (∀ i ∈ s.dev.rxLanes n, s.dev.laneOut i = false) → Completes (.sdiLockChange e true l) s [.out, .media, .events, .link] fun d =>
      d.sdi n = { x with locked := true, rate := l.rate, raster := l.raster, frate := l.frate, rxsamp := l.samp, pid := l.pid,
                         mismatch := (d.sdi n).mismatch } ∧
      d.media = { s.dev.media with sdi := d.media.sdi } ∧ (x.locked = false → OnTheWay d (360 + n))) ∧
    (Completes (.sdiLockChange e false l) s [.out, .media, .events, .link] fun d =>
      d.sdi n = { x with locked := false, rate := 0, raster := 0, frate := 0, rxsamp := 0, pid := false, mismatch := false } ∧
      d.media = { s.dev.media with sdi := d.media.sdi } ∧ (x.locked = true → OnTheWay d (360 + n))))

/-- Flows: the oldest number that neither leg delivered in time counts as LOST; 10 ms without a packet takes a leg down; at PACKET_RELEASE the
oldest waiting packet leaves at its time, on each leg that is set and whose port is enabled, and counts as LATE where it leaves more than 20 ns behind
it; each raises the flow's event where R221 says so. -/
def Obligations.FlowsCountLossesAndReleases : Prop :=
  ∀ (s : State) (k : BitVec 10),
    (∀ (x : BitVec 16) (t : List (BitVec 16)),
      let f := s.dev.flow k.toNat
      f.missing = x :: t → Completes (.seqLossTimeout k) s [.media, .events] fun d =>
        d.flow k.toNat = { f with missing := t, cnt := Tbl.modify {} f.cnt 1 (·.bumpBy 1) } ∧
        d.media = { s.dev.media with flows := d.media.flows } ∧ Raised s.dev d (392 + k.toNat / 32)) ∧
    (∀ b : Bool,
      let f := s.dev.flow k.toNat
      f.opened = true → (if b then f.legB else f.legA) = true → Completes (.legDown k b) s [.media, .events] fun d =>
        d.media = { s.dev.media with flows := Tbl.set {} s.dev.media.flows k.toNat { f with legA := f.legA && b, legB := f.legB && !b } } ∧
        Raised s.dev d (392 + k.toNat / 32)) ∧
    (∀ (p : FlowPkt) (rest : List FlowPkt) (skew : Nat),
      let f := s.dev.flow (1024 + k.toNat)
      let c := Tbl.modify {} f.cnt 0 (·.bumpBy 1)
      let late := p.time + 20 * ns < s.dev.now
      f.opened = true → f.due = p :: rest → Completes (.packetRelease k skew) s [.now, .out, .events, .media, .time] fun d =>
        d.now = max s.dev.now (p.time - 20 * ns + min skew (40 * ns)) ∧
        d.flow (1024 + k.toNat) = { f with due := rest, cnt := if late then Tbl.modify {} c 3 (·.bumpBy 1) else c } ∧
        (late → Raised s.dev d (392 + k.toNat / 32)) ∧ (¬ late → d.events = s.dev.events) ∧
        ∀ l ∈ [f.record.legA, f.record.legB], s.dev.egressMuted = false → l.isSet = true → (s.dev.eth l.port).en = true →
          (∀ n ∈ subLanes (s.dev.eth l.port) l.port l.sub, s.dev.laneOut n = false) → Output.packet k { l with dmac := l.mac } p.groups ∈ d.out)

/-- FEED_GROUP: a group that is in time waits at its feed under its window time, its nominal time plus OFF_RX; one that comes too late, or one of an
engine with a format mismatch, is written to no frame store. FEED_DEADLINE comes 128 ns before the boundary: the groups of the window that have not
arrived are counted as late, with the event of their flow or engine; a frame store has no such counter.
DRAIN_RELEASE in the beat after a function's beat: a hub port gets the words of a committed beat, which a port whose block does not run discards as
stale, or the substitute mark of a rolled back one;
an ancillary flow's egress gets the committed group slots that are whole, and the others count in SUBST with the flow's event. Each drain is
released once in the beat. -/
def Obligations.FeedsTakeGroupsAndDrainsReleaseThem : Prop :=
  ((∀ (s : State) (ref : EndRef) (g : FedGroup) (fm : Fmt),
    let flow := s.dev.flow (refNum ref)
    let nominal : Instant :=
      if refKind ref ≠ 1 then g.lastNominal
      else if fm.fmt = 1 then
        mediaTime s.dev.now 90000 g.rtp + trOffset fm flow.record.troff + sampleAfter fm g.line.toNat (lastSample fm g.index.toNat)
      else mediaTime s.dev.now (if fm.fmt = 2 ∨ fm.fmt = 3 then audioRate fm else 90000) g.rtp
    let key := nominal + s.dev.offRx ref
    let inTime : Prop := s.dev.time.run = false ∨ s.dev.time.start ≤ key ∧ (s.dev.time.next ≤ key ∨ s.dev.now + 128 * ns ≤ s.dev.time.next)
    s.dev.inFormat ref = some fm →
    (inTime → Completes (.feedGroup ref g) s [.free, .events, .cellar, .media] fun d =>
      d.media = { s.dev.media with groups := s.dev.media.groups ++ [{ src := ref, key, group := { g.toGroup with lastNominal := nominal } }] } ∧
      (s.dev.mismatched ref = true → d.cellar = s.dev.cellar)) ∧
    (¬ inTime → Completes (.feedGroup ref g) s [] fun _ => True)) ∧
  (∀ (s : State) (ref : EndRef) (expected : Nat),
    let have_ := (s.dev.media.groups.filter fun x => x.src == ref && decide (s.dev.time.start ≤ x.key ∧ x.key < s.dev.time.next)).length
    let k := refNum ref
    s.dev.time.run = true → (s.dev.inFormat ref).isSome = true → have_ < expected →
    Completes (.feedDeadline ref expected) s [.now, .media, .events] fun d =>
      d.now = max s.dev.now (s.dev.time.next - 128 * ns) ∧
      (refKind ref = 1 → d.flow k = { s.dev.flow k with cnt := Tbl.modify {} (s.dev.flow k).cnt 3 (·.bumpBy (expected - have_)) } ∧
        d.media = { s.dev.media with flows := d.media.flows } ∧ Raised s.dev d (392 + k % 1024 / 32)) ∧
      (refKind ref = 3 → d.media = s.dev.media ∧ d.events = s.dev.events) ∧
      (refKind ref ≠ 1 → refKind ref ≠ 3 → d.sdi k = { s.dev.sdi k with cnt := Tbl.modify {} (s.dev.sdi k).cnt 1 (·.bumpBy (expected - have_)) } ∧
        d.media = { s.dev.media with sdi := d.media.sdi } ∧ Raised s.dev d (360 + k)))) ∧
  (∀ (s : State) (id : FuncId) (k : BitVec 8) (f : Func) (b : BindRec),
    let ref := Tbl.get 0 f.ends.drains b.num
    s.dev.func? id = some f → f.obj.bindings.find? (fun b => b.type == 2 && b.num == k.toNat) = some b → s.dev.time.run = true →
    f.emitBeat + 1 = s.dev.time.n → b.num ∉ f.released → (∀ y ∈ s.dev.media.reroutes, ¬ (y.func = id ∧ y.drain = b.num)) →
    (refKind ref = 4 → Completes (.drainRelease id k) s [.funcs, .fabric] fun d =>
      let p := refNum ref % 64
      let h := Tbl.get {} s.dev.fabric.hubports p
      let ws := (List.range b.size).filterMap fun i => (Tbl.get none f.emitting (b.num * 65536 + i)).map fun w => (i, w.word)
      let held := (Tbl.get ({} : FbBlock) s.dev.fabric.blocks p).phase ≠ .run
      let h' := if ¬ f.emitCommit then { h with rx := [], rxcount := 0, rxsub := true }
        else if held then { h with rx := [], rxcount := 0, stale := h.stale + ws.length } else { h with rx := ws, rxcount := 0 }
      d.func? id = some { f with released := b.num :: f.released } ∧
      d.fabric = { s.dev.fabric with hubports := Tbl.set {} s.dev.fabric.hubports p h' }) ∧
    (∀ e : Nat, refKind ref = 1 → refEgress ref = some e → b.fmt = 4 → f.emitCommit = true → (s.dev.flow (1024 + e)).opened = true →
      let fl := s.dev.flow (1024 + e)
      let missing := ((List.range b.gmax).filter fun i => (f.drainGroup 0 b.num i 1).isNone).length
      missing = 0 ∨ f.substOf b.num = 4 →
      Completes (.drainRelease id k) s [.events, .funcs, .media] fun d =>
        let items : List EgressItem := (List.range b.gmax).filterMap fun i => (f.drainGroup 0 b.num i 1).map fun ws =>
          { frame := 0, line := 0, index := i, last := decide (i + 1 = b.gmax), time := s.dev.time.start + s.dev.steps64, shown := .words ws, beat := f.emitBeat + 1 }
        d.func? id = some { f with released := b.num :: f.released } ∧
        d.egr e = { s.dev.egr e with queue := (s.dev.egr e).queue ++ items } ∧
        d.flow (1024 + e) = { fl with subst := decide (missing ≠ 0), cnt := if missing = 0 then fl.cnt else Tbl.modify {} fl.cnt 6 (·.bumpBy missing) } ∧
        (missing ≠ 0 → Raised s.dev d (392 + e / 32)) ∧
        d.media = { s.dev.media with egress := d.media.egress, flows := d.media.flows }))

/-- EGRESS_GROUP: the group at the front of an egress leaves it: committed words as they are, or under a force the safe state, here BLACK video in
the raster's lanes. An SDI transmitter sends it; a flow's egress puts it into the flow's packet. An SDI transmitter with nothing queued sends its
safe state. FORCE_APPLY makes an ordered force take effect. -/
def Obligations.EgressShowsGroupsOrItsSafeState : Prop :=
  ∀ (s : State) (e : BitVec 11), egressOk e = true →
    let n := e.toNat
    let x := s.dev.egr n
    let f := s.dev.flow (1024 + n)
    (∀ fm : Fmt, s.dev.outFormat n = some fm → x.liftBeat = none →
      (∀ (it : EgressItem) (rest : List EgressItem), x.queue = it :: rest →
        (∀ ws : List Lanes, it.shown = .words ws → x.forced = false → fm.fmt ≠ 3 → fm.fmt ≠ 4 →
          (n < 1024 → f.filling = [] → f.record.perPacket = 1 → Completes (.egressGroup e) s [.media] fun d =>
            (d.egr n).queue = rest ∧ (d.egr n).committed = true ∧ d.flow (1024 + n) = { f with due := f.due ++ [{ time := it.time, groups := [.words ws], fresh := 1 }] }) ∧
          (1024 ≤ n → it.last = false → s.dev.egressMuted = false → s.dev.txOut n = false → Completes (.egressGroup e) s [.out, .media] fun d =>
            Sent s.dev d (.egress e (.words ws)) ∧ (d.egr n).queue = rest ∧ (d.egr n).committed = true)) ∧
        (x.forced = true → s.dev.safeState n = 2 → fm.fmt = 1 → 1024 ≤ n → it.last = false → s.dev.egressMuted = false → s.dev.txOut n = false →
          Completes (.egressGroup e) s [.out, .media] fun d =>
            Sent s.dev d (.egress e (.words (blackWords fm false it.line it.index))) ∧ d.egr n = { x with queue := rest, black := true })) ∧
      (x.queue = [] → s.dev.safeState n = 2 → fm.fmt = 1 → 1024 ≤ n → s.dev.egressMuted = false → s.dev.txOut n = false →
        Completes (.egressGroup e) s [.out, .events, .media] fun d =>
          let it := s.dev.idleItem n fm
          Output.egress e (.words (blackWords fm false it.line it.index)) ∈ d.out)) ∧
    (x.forceWant = true → Completes (.forceApply e) s [.media] fun d =>
      d.media = { s.dev.media with egress := Tbl.set {} s.dev.media.egress n { x with forced := true, liftBeat := none } })

-- device time and beats

/-- SERVO_MEASUREMENT: the first offset, device time less the source's, is applied as a step that takes it away, the servo goes to LOCKING and the
generator is started; a later offset above the threshold is refused, with HOLDOVER; any other leaves device time as it is and changes INCR only, in
its limits: while LOCKED its frequency part by at most 0.1 ppm per second, with at most 5 ppm beside it. SOURCE_LOSS and PPS_LOSS take the servo to
HOLDOVER, where INCR is the mean of the last 60 s of LOCKED.
TIME_SET steps device time: to a given time, by a given number of ns, or by the offset that was refused; the servo has been locked once, and
the record says by how much time was stepped. The third mode without a refused offset completes with status 2. The instants that running intervals
began at move with a step, as here the last edge of PPS does (log entry 180). -/
def Obligations.TimeFollowsItsSourceAndSteps : Prop :=
  (∀ s : State,
    let t := s.dev.time
    let mean (now : Instant) : Option Nat := (if t.servo = .locked then meanOf now t.incrLog else none).or t.meanIncr
    let log : List (Instant × Nat) := if t.servo = .locked then [] else t.incrLog
    let held (now : Instant) : Nat := (mean now).getD 0x200000000
    (∀ o : Int, t.src ≠ 0 →
      (t.lockedOnce = false → Completes (.servoMeasurement o) s
          [.now, .free, .events, .cellar, .media, .time, .link, .fabric, .loader, .rings, .cores, .strong, .power] fun d =>
        d.now = ((s.dev.now : Int) - o).toNat ∧ d.time.lastPps = t.lastPps.map (fun p => ((p : Int) - o).toNat) ∧ d.time.lockedOnce = true ∧ d.time.servo = .locking ∧ d.time.offset = satOffset o ∧ OnTheWay d 580 ∧
        (t.run = true → d.time.next = ((t.next : Int) - o).toNat) ∧
        (t.src ≠ 3 → t.enabled = true → t.run = false → t.armed = false →
          d.time.armed = true ∧ d.time.next = ceilDiv (d.now + 1000 * ns) s.dev.period * s.dev.period)) ∧
      (t.lockedOnce = true → t.thresh.toNat * ns < o.natAbs → Completes (.servoMeasurement o) s [.time, .events] fun d =>
        OnTheWay d 577 ∧
        d.time = { t with offset := satOffset o, sourcePresent := true, refusing := true, refusedOffset := -o, cnt := bumpAt t.cnt 0,
                          meanIncr := mean s.dev.now, incrLog := log, incr := held s.dev.now, incrBase := held s.dev.now, incrAt := s.dev.now,
                          servo := .holdover,
                          good := if t.servo = .holdover then t.good else 0 }) ∧
      (t.lockedOnce = true → o.natAbs ≤ t.thresh.toNat * ns → Completes (.servoMeasurement o) s [.free, .time, .events] fun d =>
        let good := if o.natAbs < 100 * ns then (if t.servo = .holdover ∨ t.servo = .free then 0 else t.good) + 1 else 0
        d.time.refusing = false ∧ d.time.offset = satOffset o ∧ incrMin ≤ d.time.incr ∧ d.time.incr ≤ incrMax ∧
        d.time.servo = (if t.servo = .locked ∨ 16 ≤ good then .locked else .locking) ∧
        (d.time.servo = .locked →
          let most := (s.dev.now - t.incrAt) * 2 ^ 33 / (10 ^ 7 * (10 ^ 9 * ns))
          d.time.incrBase ≤ t.incrBase + most ∧ t.incrBase ≤ d.time.incrBase + most ∧
          d.time.incr ≤ max incrMin (d.time.incrBase + 42949) ∧ min incrMax (d.time.incrBase - 42949) ≤ d.time.incr))) ∧
    (t.servo = .locked → Completes .sourceLoss s [.time, .events] fun d =>
      OnTheWay d 576 ∧ OnTheWay d 578 ∧ d.time.sourcePresent = false ∧ d.time.servo = .holdover ∧ d.time.incr = held s.dev.now ∧
      (t.src ≠ 1 ∨ t.slavePort = none →
        d.time = { t with sourcePresent := false, servo := .holdover, good := 0, meanIncr := mean s.dev.now, incrLog := [],
                          incr := held s.dev.now, incrBase := held s.dev.now, incrAt := s.dev.now })) ∧
    (∀ p : Instant, t.src = 2 → t.ppsloss = false → t.lastPps = some p → Completes .ppsLoss s [.now, .time, .events] fun d =>
      d.now = max s.dev.now (p + 1500000000 * ns) ∧ OnTheWay d 586 ∧
      d.time = { t with ppsloss := true, sourcePresent := false, servo := .holdover, good := if t.servo = .holdover then t.good else 0,
                        meanIncr := mean d.now, incrLog := log, incr := held d.now, incrBase := held d.now, incrAt := d.now })) ∧
  (∀ (s : State) (x : DescRef) (e : RetEntry), CanRun s.dev x 0x60 e →
    let mode := dfld e.desc 0x18 1
    let whole : Int := ((dfld e.desc 0x20 6 * 10 ^ 9 + dfld e.desc 0x28 4) * ns + dfld e.desc 0x2C 4 : Nat)
    let record (status info : Nat) : Completion :=
      { seq := e.seq, status := status, opcode := descOpcode e.desc, info1 := info, beat := s.dev.time.n }
    let steps (c : Instr) (delta : Int) : Prop :=
      Completes c s [.now, .out, .events, .cellar, .media, .time, .link, .fabric, .loader, .rings, .cores, .sched, .strong, .power] fun d =>
        d.now = ((s.dev.now : Int) + delta).toNat ∧ d.time.lastPps = s.dev.time.lastPps.map (fun p => ((p : Int) + delta).toNat) ∧ d.time.lockedOnce = true ∧ d.time.refusing = false ∧ OnTheWay d 580 ∧
        (s.dev.time.run = true → d.time.next = ((s.dev.time.next : Int) + delta).toNat) ∧
        CompletedWith d x (record 0 (signedNs ((d.now : Int) - s.dev.now)))
    (mode = 0 → steps (.timeSetAbsolute x) (whole - s.dev.now)) ∧
    (mode = 1 → steps (.timeSetStep x) ((BitVec.ofNat 64 (dfld e.desc 0x20 8)).toInt * (ns : Int))) ∧
    (mode = 2 → s.dev.time.refusing = true → steps (.timeSetAccept x) s.dev.time.refusedOffset) ∧
    (mode = 2 → s.dev.time.refusing = false → Completes (.timeSetAccept x) s [.out, .events, .link, .rings, .sched] fun d =>
      CompletedWith d x (record 2 0)))

/-- The time unit's writes, edges and losses: INCR in its limits; a beat period that waits for its boundary; a start of the generator, ignored and
counted while it runs; the 10 MHz reference's loss, its return (a change of its presence while it is lost: the model's choice, log entry 158) and the
synthesiser's move; edges in a TDC FIFO of 16, where a PPS edge more than 1.5 s after the one before is a loss; the next edge of PPSOUT at a whole
second, WIDTH µs long. -/
def Obligations.TimeUnitTakesWritesAndEdges : Prop :=
  ∀ (s : State) (q : Requester),
    let t := s.dev.time
    (s.dev.isPf q = true →
      (∀ v : Word, t.src = 0 → Completes (.incrWrite q v) s [.time, .events] fun d =>
        let want := v.toNat % 256 * 2 ^ 32 + t.incrFrac.toNat
        let w := max incrMin (min incrMax want)
        d.time = { t with incr := w, clamp := w != want, cnt := if w = want then t.cnt else bumpAt t.cnt 1 } ∧ (w ≠ want → OnTheWay d 583)) ∧
      (∀ v : Word, let p := v.toNat % 2 ^ 14
        64 ≤ p → p ≤ 8192 → s.dev.admitted = [] → t.pendPeriod = none → Completes (.periodWrite q v) s [.time] fun d =>
          d.time = { t with pendPeriod := some (BitVec.ofNat 14 p, if t.run = false ∨ t.n < t.pertgt then t.pertgt else t.n + 1) }) ∧
      (t.run = true → Completes (.freestart q) s [.hub] fun d => d.hub = { s.dev.hub with ignored := bumpAt s.dev.hub.ignored 4 }) ∧
      (t.enabled = true → t.run = false → t.armed = false → Completes (.freestart q) s [.time] fun d =>
        let k := ceilDiv (s.dev.now + 1000 * ns) s.dev.period
        d.time = { t with armed := true, next := k * s.dev.period, first := BitVec.ofNat 64 k }) ∧
      (∀ i : BitVec 4, tdcOk i = true → Completes (.tdcPop q i) s [.time] fun d =>
        let x := Tbl.get ({} : Tdc) t.tdc i.toNat
        d.time = { t with tdc := Tbl.set {} t.tdc i.toNat { x with fifo := x.fifo.drop 1 } })) ∧
    (t.ref10 = true → t.refloss = false → Completes .refLoss s [.time, .events] fun d =>
      d.time = { t with refloss := true } ∧ Raised s.dev d 585) ∧
    (t.ref10 = true → t.refloss = true → Completes .refLoss s [.time] fun d => d.time = { t with refloss := false }) ∧
    (t.ref10 = true → t.refloss = true → t.refMoved = false → Completes .refHoldoverEnd s [.time, .events] fun d =>
      d.time = { t with refMoved := true } ∧ Raised s.dev d 585) ∧
    (∀ (i : BitVec 4) (falling : Bool), tdcOk i = true →
      let x := Tbl.get ({} : Tdc) t.tdc i.toNat
      let pps : Bool := i == 8 && t.src == 2
      let late : Prop := ∃ p, t.lastPps = some p ∧ p + 1500000000 * ns < s.dev.now
      let t' : TimeUnit := if i = 8 ∧ falling = false then { t with lastPps := some s.dev.now, ppsloss := !pps && t.ppsloss } else t
      let at_ : Instant := s.dev.now / 2 ^ 26 * 2 ^ 26
      (x.en = true ∨ pps = true) → (x.edge = 2 ∨ x.edge = (if falling then 1 else 0)) →
      (¬ (pps = true ∧ falling = false ∧ late) →
        (x.fifo.length < 16 → Completes (.tdcEdge i falling) s [.time, .events, .acq] fun d =>
          d.time = { t' with tdc := Tbl.set {} t.tdc i.toNat { x with fifo := x.fifo ++ [{ time := at_, falling }] } } ∧
          d.acq = Tbl.mapAll {} s.dev.acq (AcqUnit.edge i.toNat at_) ∧
          (x.fifo = [] → Raised s.dev d (588 + i.toNat)) ∧ (x.fifo ≠ [] → d.events = s.dev.events)) ∧
        (16 ≤ x.fifo.length → Completes (.tdcEdge i falling) s [.time, .acq] fun d =>
          d.time = { t' with cnt := bumpAt t.cnt 2 } ∧ d.acq = Tbl.mapAll {} s.dev.acq (AcqUnit.edge i.toNat at_))) ∧
      (pps = true → falling = false → late → t.ppsloss = false → Completes (.tdcEdge i falling) s [.time, .events, .acq] fun d =>
        OnTheWay d 586 ∧ d.time.ppsloss = true ∧ d.time.lastPps = some s.dev.now ∧ d.time.servo = .holdover)) ∧
    (t.ppsEn = true → Completes .ppsOutEdge s [.now, .out] fun d =>
      let off : Int := t.ppsOffset.toInt * (ns : Int)
      let sec : Int := 10 ^ 9 * (ns : Int)
      let edge := ((((s.dev.now : Int) + off) / sec + 1) * sec - off).toNat
      d.now = edge ∧ d.out = .pps edge (edge + max 1 t.ppsWidth.toNat * 1000 * ns) :: s.dev.out)

/-- BEAT_START completes where a start is ordered: it begins the ordered beat at the first boundary. BEAT_BOUNDARY completes while beats run: it brings
device time to the boundary and begins the next beat, whose length is the period with the beat's slip. BEAT_SLIP completes where its descriptor can
start: the slip joins those that wait for their boundary. -/
def Obligations.BeatsBeginAtTheirBoundary : Prop :=
  ∀ s : State,
    let t := s.dev.time
    let lasts (d : Dev) : Prop := d.time.next = ((d.time.start : Int) + ((d.time.period.toNat : Int) + d.time.slipNow) * (8 * (ns : Int))).toNat
    (t.armed = true → t.run = false → s.dev.power.cold = false → ∃ d : Dev, exec .beatStart s = .next { s with dev := d } ∧
      Only (Instr.parts .beatStart) s.dev d ∧
      d.now = max s.dev.now t.next ∧ d.time.run = true ∧ d.time.armed = false ∧ d.time.n = t.first ∧ d.time.start = t.next ∧ lasts d ∧ OnTheWay d 582) ∧
    (t.run = true → s.dev.power.cold = false → ∃ d : Dev, exec .beatBoundary s = .next { s with dev := d } ∧
      Only (Instr.parts .beatBoundary) s.dev d ∧
      d.now = max s.dev.now t.next ∧ d.time.run = true ∧ d.time.n = t.n + 1 ∧ d.time.start = t.next ∧ lasts d ∧
      (t.pendPeriod = none → d.time.period = t.period)) ∧
    (∀ (x : DescRef) (e : RetEntry), CanRun s.dev x 0x61 e → ∃ d : Dev, exec (.beatSlip x) s = .next { s with dev := d } ∧ Only [.time, .rings] s.dev d ∧
      d.rings = (s.dev.start x).rings ∧
      d.time = { t with slips := t.slips ++ [{ desc := x, beat := BitVec.ofNat 64 (descTarget e.desc),
                                               units := (BitVec.ofNat 32 (dfld e.desc 0x18 4)).toInt }] })

-- lanes, the Bilben link and the mirrored pair

/-- A lane in CDR that locks goes to ALIGN, and one aligned is UP, with its event; an UP lane counts its errors, and returns to CDR, counted, with
its event, where it loses lock or shows 4 errors in 64 blocks. A bundle in training of an enabled link unit comes up on its lanes that are UP; an UP bundle loses a lane that leaves UP,
and is DOWN with its last one. Adaptation, eye scans and PRBS lock show in the lane's status.
An UP bundle advertises the lanes it receives on, with the credits it returns, in a CONTROL frame; loses a lane of 8 CRC failures within 1 ms or out
of UP; goes DOWN with its retry buffer, sequence numbers and partly received packets discarded, what waits to be sent kept, and its lanes in bring-up
again; sends NULL frames with its ACK; and sends stopped markers at a symbol boundary of its lowest active lane while no beats run (log entry 185). -/
def Obligations.LanesAndBundlesComeUpAndFall : Prop :=
  (∀ (s : State) (l : BitVec 7), laneOk l = true →
    let k := s.dev.link
    let n := l.toNat
    let x := s.dev.lane n
    let bundle := (s.dev.laneOwner n).bind (·.bundle)
    let becomes (d : Dev) (y : Lane) : Prop := d.link = { k with lanes := Tbl.set {} k.lanes n y }
    let lost (errors : Nat) : Lane :=
      { x with phase := .cdr, cdrLock := false, adapted := false, inBundle := false, prbsLock := false, err := x.err.bumpBy errors, down := x.down.bump }
    (x.phase = .cdr → Completes (.cdrLock l) s [.link] fun d =>
      becomes d { x with phase := .align, cdrLock := true, adapted := false, inBundle := false, prbsLock := false }) ∧
    (x.phase = .align → (∀ b, bundle = some b → (s.dev.bd b).phase ≠ .training ∨ k.en = false) → Completes (.alignDone l) s [.link, .events] fun d =>
      becomes d { x with phase := .up, cdrLock := true } ∧ Raised s.dev d (256 + n)) ∧
    (∀ b, x.phase = .align → bundle = some b → (s.dev.bd b).phase = .training → k.en = true → Completes (.alignDone l) s [.link, .events] fun d =>
      (d.bd b).phase = .up ∧ OnTheWay d (256 + n) ∧ OnTheWay d (832 + b) ∧
      ∀ i < 8, (d.bd b).active.getLsbD i =
        ((s.dev.bd b).mask.getLsbD i && ((s.dev.lane (8 * (s.dev.bd b).oct.toNat + i)).phase == .up || 8 * (s.dev.bd b).oct.toNat + i == n))) ∧
    (∀ y : LaneErrors, y.lane = l → y.lockLost = false → y.within64 < 4 → x.phase = .up → Completes (.laneLoss y) s [.link] fun d =>
      becomes d { x with err := x.err.bumpBy y.errors }) ∧
    (∀ y : LaneErrors, y.lane = l → (y.lockLost = true ∨ 4 ≤ y.within64) → x.phase = .up →
      (∀ b, bundle = some b → (s.dev.bd b).active.getLsbD (n % 8) = false) →
      Completes (.laneLoss y) s [.link, .events] fun d => d.lane n = lost y.errors ∧ d.link = { k with lanes := d.link.lanes } ∧ Raised s.dev d (256 + n)) ∧
    (∀ (b : Nat) (y : LaneErrors), let z := s.dev.bd b
      y.lane = l → (y.lockLost = true ∨ 4 ≤ y.within64) → x.phase = .up → bundle = some b → z.phase = .up → z.oct.toNat = n / 8 →
      z.active.getLsbD (n % 8) = true →
      Completes (.laneLoss y) s [.link, .events] fun d =>
        let m := z.active &&& ~~~((1 : BitVec 8) <<< (n % 8))
        (d.lane n).phase = .cdr ∧ (d.lane n).inBundle = false ∧ (d.bd b).active = m ∧ (d.bd b).phase = (if m = 0 then .training else .up) ∧
        OnTheWay d (256 + n) ∧ OnTheWay d (832 + b)) ∧
    (x.phase = .up → Completes (.adaptDone l) s [.link] fun d => becomes d { x with adapted := true }) ∧
    (∀ (q : Requester) (v : Word), s.dev.isPf q = true → v.getLsbD 31 = true → (∀ i < 8, (s.dev.lane (n / 8 * 8 + i)).eyeBusy = false) →
      Completes (.eyeStart q l v) s [.link] fun d =>
        becomes d { x with dwell := BitVec.ofNat 6 (max 10 (min 40 (v.toNat / 2 ^ 24 % 64))), eyeBusy := true, eyeValid := false, eye := [] }) ∧
    (∀ grid : Tbl (BitVec 31), x.eyeBusy = true → Completes (.eyeScanDone l grid) s [.link, .events] fun d =>
      becomes d { x with eyeBusy := false, eyeValid := true, eye := grid.foldl (fun t y => Tbl.set 0 t (y.1 % 4096) y.2) [] } ∧
      Raised s.dev d (256 + n)) ∧
    (∀ errors : Nat, s.dev.laneOwner n = none → x.proto = 4 → x.chk = true → x.en = true → Completes (.prbsLock { lane := l, errors }) s [.link] fun d =>
      d.lane n = { x with prbsLock := true, err := x.err.bumpBy errors } ∧ d.link = { k with lanes := d.link.lanes })) ∧
  (∀ (s : State) (bd : BitVec 4),
    let k := s.dev.link
    let b := bd.toNat
    let x := s.dev.bd b
    let others (d : Dev) : Prop := ∀ c, c ≠ b → d.bd c = s.dev.bd c
    let sent (f : Frame) : Output := .frame bd { f with lane := x.deal f.seq, crc := frameCrc f }
    (x.phase = .up → x.retry.length < 256 → Completes (.laneAdvertise bd) s [.link, .out] fun d =>
      ∃ (m : BitVec 8) (f : Frame), (∀ i < 8, m.getLsbD i = (x.mask.getLsbD i && (s.dev.lane (8 * x.oct.toNat + i)).phase == .up)) ∧
        f.type = 2 ∧ f.seq = x.txSeq ∧ f.ack = x.rxAck ∧ f.src = k.devid ∧ f.dest = x.partner ∧ f.bpar = s.dev.time.n.getLsbD 0 ∧
        f.payload.extractLsb' 0 8 = m ∧ f.payload.getLsbD 72 = decide (k.mirror = .paired) ∧
        (∀ i < 8, (f.payload.extractLsb' (8 + 8 * i) 8).toNat = min 255 (Tbl.get 0 x.got i)) ∧
        d.bd b = { x with advert := m, got := x.got.map fun y => (y.1, y.2 - 255), txSeq := x.txSeq + 1, retry := x.retry ++ [f],
                          sentAt := x.sentAt ++ [s.dev.now], sends := x.sends ++ [1] } ∧
        others d ∧ d.link = { k with bundles := d.link.bundles } ∧ Sent s.dev d (sent f)) ∧
    (∀ lane : BitVec 3, let i := lane.toNat
      let n := 8 * x.oct.toNat + i
      let fails := x.crcFails.filter fun y => y.1 == lane && decide (s.dev.now < y.2 + 10 ^ 6 * ns)
      let m := x.active &&& ~~~((1 : BitVec 8) <<< i)
      x.phase = .up → x.active.getLsbD i = true → ((s.dev.lane n).phase ≠ .up ∨ 8 ≤ fails.length) →
      Completes (.laneDegrade bd lane) s [.link, .events] fun d =>
        (d.bd b).active = m ∧ (d.bd b).phase = (if m = 0 then .training else .up) ∧ (d.bd b).cnt = bumpAt x.cnt 2 ∧
        OnTheWay d (256 + n) ∧ OnTheWay d (832 + b) ∧ others d) ∧
    (x.phase = .up → Completes (.bundleDown bd) s [.link, .events] fun d =>
      d.bd b = { x with active := 0, phase := .training, txSeq := 0, rxAck := 0, retry := [], sentAt := [], sends := [], nakSent := false, partial_ := [],
                        reorder := [], passing := [], used := [], got := [], crcFails := [], peerMask := 0, advert := 0, missed := 0, lastTx := [],
                        lastArrival := 0 } ∧
      others d ∧ OnTheWay d (832 + b) ∧
      ∀ l ∈ x.lanes, (s.dev.lane l).phase = .up → (d.lane l).phase = .cdr ∧ OnTheWay d (256 + l)) ∧
    (x.phase = .up → Completes (.nullFrame bd) s [.out] fun d =>
      Sent s.dev d (sent { type := 1, ack := x.rxAck, nak := false, src := k.devid, dest := x.partner, bpar := s.dev.time.n.getLsbD 0 })) ∧
    (s.dev.time.run = false → Tbl.wf ({} : Bundle) k.bundles = true → Completes .stoppedMarker s [.free, .link, .out] fun d =>
      ∀ c, let y := s.dev.bd c
        (y.phase ≠ .up → d.bd c = y) ∧
        (y.phase = .up → ∃ w : Nat,
          let lane := ((List.range 8).find? y.active.getLsbD).getD 0
          let tx := s.dev.now + Config.symbolWait w % y.symbol + Config.laneTxLat (8 * y.oct.toNat + lane)
          let m : Marker := { lane := BitVec.ofNat 3 lane, beatValid := false, hops := if s.dev.time.src = 3 then k.hops else 0,
                              beat := BitVec.allOnes 64, tx, rxLast := y.lastArrival, devid := k.devid, arrival := 0 }
          d.bd c = { y with lastTx := (tx :: y.lastTx).take 8 } ∧ Output.marker (BitVec.ofNat 4 c) { m with crc := markerCrc m } ∈ d.out)))

/-- BEAT_MARKER_RX notes the partner, the arrival and the delay that the four times give, with the newest own marker that the partner can have
answered. One from the upstream partner locks the uplink, and with SRC = BILBEN sets the hops one further and starts the generator at the partner's
next boundary. While beats run, a compensated boundary more than 8 ns off, or another beat number, raises the skew event. UPSTREAM_LOSS unlocks the
uplink, and with SRC = BILBEN takes the servo to HOLDOVER. -/
def Obligations.MarkersMeasureAndStart : Prop :=
  ∀ (s : State) (bd : BitVec 4) (m : Marker),
    let k := s.dev.link
    let t := s.dev.time
    let b := bd.toNat
    let x := s.dev.bd b
    let came : Nat := m.arrival - Config.laneRxLat (8 * x.oct.toNat + m.lane.toNat)
    let arr : Int := (came : Int) - x.asym.toInt * 2 ^ 16
    let answered : Option Nat := if m.rxLast = 0 then none else x.lastTx.find? fun tx => decide (0 ≤ (arr - m.tx) + ((m.rxLast : Int) - tx))
    let delay : Int := match answered with | some tx => ((arr - m.tx) + ((m.rxLast : Int) - tx)) / 2 | none => x.delay.toNat * 2 ^ 24
    let x' : Bundle := { x with partner := m.devid, lastArrival := came, missed := 0, delay := BitVec.ofInt 32 (delay / 2 ^ 24) }
    let ofPair : Prop := b = k.mbundle.toNat ∨ k.altvalid = true ∧ b = k.altbundle.toNat
    let upstream : Bool := k.upvalid && bd == k.upbundle
    let noted : Link := { k with bundles := Tbl.set {} k.bundles b x', mirrorMissed := if ofPair then 0 else k.mirrorMissed, uplock := k.uplock || upstream }
    let follows : Prop := upstream = true ∧ t.src = 3 ∧ m.hops.toNat < 31 ∧ answered.isSome = true
    (x.phase = .up → markerGood m = true →
      (¬ follows → (m.beatValid = false ∨ t.run = false) → Completes (.beatMarkerRx bd m) s [.link] fun d => d.link = noted) ∧
      (¬ follows → m.beatValid = true → t.run = true → (t.start : Int) ≤ arr - delay + (8 * ns : Nat) →
        Completes (.beatMarkerRx bd m) s [.link, .time, .events] fun d =>
          let off := (arr - delay - t.start).natAbs
          d.link = noted ∧ d.time = { t with skew := decide (m.beat ≠ t.n ∨ 8 * ns < off) } ∧
          (m.beat ≠ t.n ∨ 8 * ns < off → Raised s.dev d 587) ∧ (m.beat = t.n → off ≤ 8 * ns → d.events = s.dev.events)) ∧
      (follows → Completes (.beatMarkerRx bd m) s (Instr.parts (.beatMarkerRx bd m)) fun d =>
          d.link.hops = m.hops + 1 ∧ d.link.uplock = true ∧ (d.bd b).partner = m.devid ∧ (d.bd b).delay = x'.delay ∧
          (t.lockedOnce = true → d.link = { noted with hops := m.hops + 1 }) ∧ d.time.lockedOnce = true ∧
          (m.beatValid = true → t.enabled = true → t.run = false → t.armed = false →
            d.time.armed = true ∧ d.time.next = m.tx + s.dev.period ∧ d.time.first = m.beat + 1))) ∧
    (t.src = 3 → k.uplock = true → Completes .upstreamLoss s [.link, .time, .events] fun d =>
      d.link = { k with uplock := false } ∧ d.time.sourcePresent = false ∧ d.time.servo = .holdover ∧ OnTheWay d (832 + k.upbundle.toNat)) ∧
    (t.src ≠ 3 → k.uplock = true → Completes .upstreamLoss s [.link, .events] fun d =>
      d.link = { k with uplock := false } ∧ Raised s.dev d (832 + k.upbundle.toNat))

/-- LINK_FRAME on an UP bundle: a frame of bad CRC, or too far out of sequence, is answered with one NAK, and one that another lane brought too early
waits for the frames before it; ACK frees the frames before it; NAK resends those that wait. A frame in sequence goes on through the bundle of its
entry, with DL's virtual channel, or is dropped and counted, and its credit is noted as it leaves the receive buffer; REMOTE words of this device go to
their slots for the next beat, on a ring that holds new packets after its hold, or are counted. RETRY_TIMEOUT, with a frame older than RTO, resends,
and after 16 sends of a frame takes the bundle DOWN. -/
def Obligations.FramesAreAcknowledgedAndRouted : Prop :=
  ∀ (s : State) (bd : BitVec 4) (fr : Frame),
    let k := s.dev.link
    let b := bd.toNat
    let x := s.dev.bd b
    let c : Instr := .linkFrame bd fr
    let others (d : Dev) : Prop := ∀ i, i ≠ b → d.bd i = s.dev.bd i
    let sent (c : BitVec 4) (f : Frame) : Output := .frame c { f with lane := (s.dev.bd c.toNat).deal f.seq, crc := frameCrc f }
    let nak : Output := sent bd { type := 1, ack := x.rxAck, nak := true, src := k.devid, dest := x.partner, bpar := s.dev.time.n.getLsbD 0 }
    let resent (d : Dev) : Prop :=
      d.bd b = { x with sends := x.sends.map (· + 1), sentAt := x.sentAt.map fun _ => s.dev.now, cnt := Tbl.modify {} x.cnt 0 (·.bumpBy x.retry.length) } ∧
      others d ∧ d.out = (x.retry.map fun f => sent bd { f with ack := x.rxAck }).reverse ++ s.dev.out
    let taken : Bundle := { x with rxAck := x.rxAck + 1, nakSent := false, got := Tbl.modify 0 x.got (2 * fr.cls.toNat + bit fr.vc 0) (· + 1) }
    let passes (d : Dev) : Prop :=
      let key := (fr.src, fr.dest, fr.cls, fr.vc)
      d.bd b = { taken with passing := x.passing.filter (· != key) ++ (if fr.cls = 2 ∨ fr.last = true then [] else [key]), through := (d.bd b).through } ∧
      (fr.cls ≠ 0 → ∀ i, (d.bd i).through = (s.dev.bd i).through)
    let old : Prop := ∃ t, x.sentAt.head? = some t ∧ t + max 1 x.rto.toNat * 100 * ns < s.dev.now
    let inSequence : Prop := frameGood fr = true ∧ fr.nak = false ∧ x.retry = [] ∧ fr.type = 0 ∧ fr.seq = x.rxAck
    x.phase = .up → x.queue = [] → x.reorder = [] →
    (frameGood fr = false → x.nakSent = false → Completes c s [.link, .out] fun d =>
      d.bd b = { x with cnt := bumpAt x.cnt 1, nakSent := true,
                        crcFails := (fr.lane, s.dev.now) :: x.crcFails.filter (fun y => decide (s.dev.now < y.2 + 10 ^ 6 * ns)) } ∧
      others d ∧ Sent s.dev d nak) ∧
    (∀ (f : Frame) (rest : List Frame), let n := (fr.ack - f.seq).toNat
      frameGood fr = true → fr.type = 1 → x.retry = f :: rest →
      (fr.nak = false → 0 < n → n ≤ x.retry.length → Completes c s [.link] fun d =>
        d.bd b = { x with retry := x.retry.drop n, sentAt := x.sentAt.drop n, sends := x.sends.drop n } ∧ others d) ∧
      (fr.nak = true → n = 0 → (∀ y ∈ x.sends, y < 16) → Completes c s [.link, .out] resent)) ∧
    (frameGood fr = true → fr.nak = false → x.retry = [] → fr.type ≠ 1 → fr.seq ≠ x.rxAck →
      let near : Prop := 1 < x.lanes.length ∧ (fr.seq - x.rxAck).toNat < 256
      (near → Completes c s [.link] fun d => d.bd b = { x with reorder := [(fr, s.dev.now)] } ∧ others d) ∧
      (¬ near → x.nakSent = false → Completes c s [.link, .out] fun d =>
        d.bd b = { x with nakSent := true } ∧ others d ∧ Sent s.dev d nak)) ∧
    (inSequence → fr.dest ≠ k.devid →
      let e := Tbl.get ({} : Fwd) k.fwd fr.dest.toNat
      let z := s.dev.bd e.bundle.toNat
      let g : Frame := { fr with vc := fr.vc || e.dl, seq := z.txSeq, ack := z.rxAck }
      (e.valid = false → Completes c s [.link, .events] fun d =>
        passes d ∧ (∀ i, i ≠ b → d.bd i = { s.dev.bd i with through := (d.bd i).through }) ∧ d.link.cnt = bumpAt k.cnt 0 ∧ Raised s.dev d 849) ∧
      (e.valid = true → e.bundle ≠ bd → z.phase = .up → z.queue = [] → z.retry.length < 256 →
        Tbl.get 0 z.used (2 * fr.cls.toNat + bit (fr.vc || e.dl) 0) < 32 → Completes c s [.link, .out] fun d =>
          passes d ∧ Sent s.dev d (sent e.bundle g) ∧
          (d.bd e.bundle.toNat).retry = z.retry ++ [g] ∧ (d.bd e.bundle.toNat).txSeq = z.txSeq + 1)) ∧
    (inSequence → fr.dest = k.devid →
      (fr.cls ≠ 2 → fr.last = false → Completes c s [.link] fun d =>
        d.bd b = { taken with partial_ := x.partial_ ++ [fr] } ∧ others d) ∧
      (fr.cls = 2 → fr.payload.getLsbD 331 = true → (∀ i ∈ [347, 363, 379], fr.payload.getLsbD i = false) →
        let slot := (fr.payload.extractLsb' 320 10).toNat
        let vroom := (fr.payload.extractLsb' 8 8).toNat
        (s.dev.func? (fr.payload.extractLsb' 16 16) = none → Completes c s [.link, .events] fun d =>
          d.bd b = taken ∧ d.link.cnt = bumpAt k.cnt 1 ∧ Raised s.dev d 850) ∧
        (∀ (f : Func) (y : BindRec) (r : RoomId) (gen : BitVec 8),
          s.dev.func? (fr.payload.extractLsb' 16 16) = some f → f.phase = .admitted → f.destinations (fr.payload.extractLsb' 0 8).toNat vroom = [(r, gen)] →
          f.obj.bindings.find? (fun y => y.type == 4 && y.dirIn && y.vroom == vroom && y.holds slot) = some y → fr.att = false → k.atts = [] →
          (fr.bpar ≠ s.dev.time.n.getLsbD 0 → Completes c s [.link, .events] fun d => d.link.cnt = bumpAt k.cnt 2 ∧ Raised s.dev d 850) ∧
          (fr.bpar = s.dev.time.n.getLsbD 0 →
            let held := s.dev.net.heldOn (.hub 4) (.room r)
            let w : PktWord := { idx := slot, word := fr.payload.extractLsb' 64 64, absent := fr.payload.getLsbD 330 }
            (held = false → s.dev.net.downOn (.hub 4) (.room r) = false → (s.dev.room r).func ≠ 0xFFFF → (s.dev.room r).gen = gen →
              Completes c s [.link, .rooms, .net] fun d =>
                OtherRooms r s.dev d ∧ d.net = { s.dev.net with links := d.net.links } ∧
                d.room r = (s.dev.room r).writeSlot slot true
                  { word := w.word, absent := w.absent, kept := true, step := (s.dev.room r).stepNow, src := 514 }) ∧
            (held = true → Completes c s [.link, .net] fun d =>
              d.net = { s.dev.net with xch := s.dev.net.xch ++
                [{ src := .hub 4, dst := .room r, kind := .window, gen, beat := s.dev.time.n + 1, port := 258, keep := true, waits := true, words := [w] }] }))))) ∧
    (x.retry ≠ [] → old → (∀ y ∈ x.sends, y < 16) → Completes (.retryTimeout bd) s [.link, .out] resent) ∧
    (x.retry ≠ [] → old → (∃ y ∈ x.sends, 16 ≤ y) → Completes (.retryTimeout bd) s [.link, .events] fun d =>
      (d.bd b).phase = .training ∧ (d.bd b).retry = [] ∧ (d.bd b).txSeq = 0 ∧ others d ∧ OnTheWay d (832 + b))

/-- REMOTE_QUERY is answered, in a packet to the device that asks, with 0 where the binding is there, takes the words and is fed by no other, else with
0x11 (log entry 32). APPLIED with the primary's own status ends the wait; with another the devices have diverged: counted, EV0848, MIRROR_LOST for an
applied descriptor, a split at the next boundary. Another DECISION_DIGEST is counted with EV0848. A SPLIT completes what has ended here and awaits
APPLIED as MIRROR_LOST, and what has not ended yet does so when it ends. -/
def Obligations.RemoteAndMirrorAgree : Prop :=
  ∀ s : State,
    let k := s.dev.link
    (∀ (dev : BitVec 11) (t : BitVec 64) (words : BitVec 9),
      let fn := t.extractLsb' 37 16
      let vroom := (t.extractLsb' 29 8).toNat
      let rep := (t.extractLsb' 21 8).toNat
      let bind := (t.extractLsb' 13 8).toNat
      let can : Prop := (∃ f, s.dev.func? fn = some f ∧ f.phase = .admitted ∧ rep < f.r ∧
          ∃ b ∈ f.obj.bindings, b.type = 4 ∧ b.dirIn = true ∧ b.num = bind ∧ b.vroom = vroom ∧ words.toNat ≤ b.words) ∧
        ∀ x ∈ k.deps, ¬ (x.func = fn ∧ x.vroom = vroom ∧ x.rep = rep ∧ x.bind = bind)
      let answer (f g : Frame) : Prop :=
        (∀ y ∈ [f, g], y.type = 0 ∧ y.cls = 1 ∧ y.dest = dev ∧ y.src = k.devid) ∧ f.last = false ∧ g.last = true ∧
        f.payload.extractLsb' 208 12 = 0 ∧ f.payload.extractLsb' 136 64 = t ∧
        (can → f.payload.extractLsb' 200 8 = 0) ∧ (¬ can → f.payload.extractLsb' 200 8 = 0x11)
      let e := Tbl.get ({} : Fwd) k.fwd dev.toNat
      let z := s.dev.bd e.bundle.toNat
      (dev = k.devid → Completes (.remoteQuery dev t words) s [.link] fun d =>
        ∃ f g, answer f g ∧ d.link = { k with loop := k.loop ++ [f, g] }) ∧
      (dev ≠ k.devid → e.valid = false → Completes (.remoteQuery dev t words) s [.link, .events] fun d =>
        d.link = { k with cnt := bumpAt (bumpAt k.cnt 0) 0 } ∧ OnTheWay d 849) ∧
      (dev ≠ k.devid → e.valid = true → z.phase = .up → z.queue = [] → z.retry.length < 255 → Tbl.get 0 z.used (2 + bit e.dl 0) < 31 →
        Completes (.remoteQuery dev t words) s [.link, .out] fun d =>
          ∃ f g, answer f g ∧ (d.bd e.bundle.toNat).retry = z.retry ++ [f, g] ∧ d.link.deps = k.deps ∧
            d.out = ([g, f].map fun y => Output.frame e.bundle { y with lane := z.deal y.seq, crc := frameCrc y }) ++ s.dev.out)) ∧
    (∀ (ring : BitVec 9) (seq : BitVec 64) (status : BitVec 8) (a : AwaitApplied), k.await = [a] → a.desc.ring = ring → a.seq = seq →
      a.lost = false → s.dev.rings.windowsOk →
      let ps : List Part := [.out, .events, .link, .rings, .sched]
      (a.own = none → (∀ e, s.dev.entry? a.desc = some e → descOpcode e.desc ≠ 1) → Completes (.applied ring seq status) s ps fun d =>
        d.link.await = [{ a with applied := some status.toNat }]) ∧
      (a.own = some status.toNat → Completes (.applied ring seq status) s ps fun d => d.link.await = []) ∧
      (∀ o, a.own = some o → o ≠ status.toNat → Completes (.applied ring seq status) s ps fun d =>
        d.link.await = [] ∧ Tbl.get {} d.link.cnt 3 = (Tbl.get ({} : Cnt) k.cnt 3).bump ∧ d.link.splitNext = true ∧ d.link.diverged = true ∧
        OnTheWay d 848 ∧
        ∀ e, s.dev.entry? a.desc = some e → e.phase = .completed → (o = 0 ∨ o = 3) → (e.record.status = 0 ∨ e.record.status = 3) →
          CompletedWith d a.desc { e.record with status := 0x60 })) ∧
    (∀ crc : BitVec 64, k.mirror = .paired →
      (crc = k.digest → Completes (.decisionDigest crc) s [] fun d => d = s.dev) ∧
      (crc ≠ k.digest → Completes (.decisionDigest crc) s [.link, .events] fun d =>
        d.link = { k with cnt := bumpAt k.cnt 3 } ∧ Raised s.dev d 848)) ∧
    (k.mirror = .paired → 4 < k.mirrorMissed → s.dev.rings.windowsOk → Completes .mirrorSplit s [.out, .events, .link, .rings, .sched] fun d =>
      d.link.mirror = .split ∧ d.link.splitNext = false ∧ OnTheWay d 848 ∧ (∀ a ∈ d.link.await, a.own = none ∧ a.lost = true) ∧
      (∀ a ∈ k.await, a.own = none → (∀ e, s.dev.entry? a.desc = some e → descOpcode e.desc ≠ 1) → { a with lost := true } ∈ d.link.await) ∧
      ∀ a ∈ k.await, a.own.isSome = true → ∀ e, s.dev.entry? a.desc = some e → e.phase = .completed → (e.record.status = 0 ∨ e.record.status = 3) →
        CompletedWith d a.desc { e.record with status := 0x60 })

-- the direct fabric, images and scrubbing

/-- A hub port takes each word of the coming beat once, up to its WORDS; drops and counts another; closes 64 ns before the boundary; and presents
committed words in order, counting each, while its clock runs. A rising edge of a user event raises its event. A PLL's lock, a bank's supply and the delays of user I/O follow their
commands; a written block leaves its application. -/
def Obligations.HubPortsAndFabricFollowTheirCommands : Prop :=
  ∀ s : State,
    let f := s.dev.fabric
    (∀ (p idx : BitVec 6) (w : Lanes) (y : Func × BindRec), s.dev.hpReady p.toNat = true → s.dev.portRecords p.toNat = [y] →
      let h := f.hp p.toNat
      (idx.toNat < y.2.words → Tbl.get none h.taken idx.toNat = none → Completes (.hpTxWord p idx w) s [.fabric] fun d =>
        d.fabric = { f with hubports := Tbl.set {} f.hubports p.toNat { h with taken := Tbl.set none h.taken idx.toNat (some w) } }) ∧
      ((y.2.words ≤ idx.toNat ∨ (Tbl.get none h.taken idx.toNat).isSome = true) → Completes (.hpTxWord p idx w) s [.fabric, .events] fun d =>
        d.fabric = { f with cnt := bumpAt f.cnt 1 } ∧ Raised s.dev d (512 + p.toNat))) ∧
    (∀ p : BitVec 6, let h := f.hp p.toNat
      f.clockRuns h.clk.toNat = true →
      (s.dev.time.run = true → h.closed = false → s.dev.portRecords p.toNat ≠ [] → Completes (.hpClose p) s [.now, .fabric] fun d =>
        d.now = max s.dev.now (s.dev.time.next - 64 * ns) ∧
        d.fabric = { f with hubports := Tbl.set {} f.hubports p.toNat { h with closed := true, txcount := BitVec.ofNat 7 h.taken.length } }) ∧
      (∀ (i : Nat) (w : Lanes) (rest : List (Nat × Lanes)), h.rx = (i, w) :: rest → (f.block p.toNat).phase = .run → s.dev.hubUp = true →
        Completes (.hpRxPresent p) s [.out, .fabric] fun d =>
          d.fabric = { f with hubports := Tbl.set {} f.hubports p.toNat { h with rx := rest, rxNow := some (i, w), rxcount := h.rxcount + 1 } } ∧
          Sent s.dev d (.hubport p i w))) ∧
    (∀ (u : BitVec 7) (rising : Bool), (f.block (u.toNat / 2)).phase = .run → Tbl.get false f.uev u.toNat ≠ rising →
      Completes (.uevEdge u rising) s [.fabric, .events] fun d =>
        d.fabric = { f with uev := Tbl.set false f.uev u.toNat rising } ∧
        (rising = true → s.dev.hubUp = true → Raised s.dev d (896 + u.toNat)) ∧ (rising = false → d.events = s.dev.events)) ∧
    (∀ (k : BitVec 3) (lock : Bool), f.pllLock.getLsbD k.toNat ≠ lock → (lock = true → (Tbl.get 0 f.pll k.toNat).getLsbD 43 = true) →
      Completes (.pllLockChange k lock) s [.fabric, .events] fun d =>
        Raised s.dev d (512 + 8 * k.toNat) ∧ (∀ i < 8, d.fabric.pllLock.getLsbD i = if i = k.toNat then lock else f.pllLock.getLsbD i) ∧
        d.fabric = { f with pllLock := d.fabric.pllLock, waitclk := !f.releasing.isEmpty && !d.fabric.clockOk, ran := if lock then s.dev.now else f.ran }) ∧
    (∀ k cls : BitVec 3, Completes (.vccioMatch k cls) s [.fabric] fun d =>
      let x := Tbl.get ({} : IoBank) f.banks k.toNat
      let y : IoBank :=
        { x with present := cls != 0, vclass := cls, mismatch := x.mismatch && !(cls != 0 && cls == x.decl) }
      d.fabric = { f with banks := Tbl.set {} f.banks k.toNat y, pads := d.fabric.pads }) ∧
    (∀ i : BitVec 9, i.toNat < 384 → Completes (.iodlyStep i) s [.fabric] fun d =>
      let x := Tbl.get ({} : IoDelay) f.iodly i.toNat
      let step (now target : BitVec 8) : BitVec 8 := if now < target then now + 1 else if target < now then now - 1 else now
      d.fabric = { f with iodly := Tbl.set {} f.iodly i.toNat { x with inow := step x.inow x.idly, onow := step x.onow x.odly } }) ∧
    (∀ (a : Application) (rest : List Application), f.applying = a :: rest → a ∉ rest → a.left ≠ [] → s.dev.hubUp = true →
      Completes .fabricBlockWritten s [.fabric] fun d => d.fabric = { f with applying := { a with left := a.left.drop 1 } :: rest })

/-- FABRIC_RELEASE, from the PF with no application pending, starts the release of the configured blocks that have not been released; with one
pending, with a block past stage 0 that is not released, or with no block configured it is ignored and counted. RELEASE_STAGE takes the blocks under
release one stage on while the release clock runs, and waits with WAITCLK without it; the first stage lifts a block's thresholds, and its user events
take the values of their flip-flops. In a warm reset the stages are withdrawn one by one: the flip-flops take their reset values again, and at last
the cells are held at their thresholds, 0 or 1 where THR says so. -/
def Obligations.BlocksAreReleasedStageByStage : Prop :=
  ∀ s : State,
    let f := s.dev.fabric
    let todo := (f.blocks.filter fun y => y.2.loaded && y.2.rel != 3).map (·.1)
    (∀ q : Requester, s.dev.isPf q = true →
      (todo ≠ [] → s.dev.applyPending = false → f.releasing = [] → (∀ b ∈ todo, (f.block b).rel = 0) → Completes (.fabricRelease q) s [.fabric] fun d =>
        d.fabric = { f with releasing := todo, rel := 0, waitclk := !f.clockOk }) ∧
      ((s.dev.applyPending = true ∨ (∃ b ∈ todo, (f.block b).rel ≠ 0) ∨ ∀ y ∈ f.blocks, y.2.loaded = false) →
        Completes (.fabricRelease q) s [.fabric] fun d => d.fabric = { f with relIgnored := f.relIgnored + 1 })) ∧
    (f.withdrawing = false → f.releasing ≠ [] → f.releasing.Nodup →
      (f.clockOk = true → Completes .releaseStage s [.events, .fabric] fun d =>
        (∀ b, let x := f.block b
          d.fabric.block b = if b ∉ f.releasing then x
            else if x.rel = 0 then { x with rel := 1, phase := .run, released := true, held := [], heldIo := [] } else { x with rel := x.rel + 1 }) ∧
        (∀ b ∈ f.releasing, (f.block b).rel = 0 → ∀ i ∈ [0, 1], Tbl.get false d.fabric.uev (2 * b + i) =
          match (f.block b).config.uevCell i with | some k => f.ff (4096 * b + k) | none => false) ∧
        d.fabric.releasing = f.releasing.filter (fun b => (f.block b).rel != 2) ∧
        d.fabric = { f with blocks := d.fabric.blocks, rel := d.fabric.rel, releasing := d.fabric.releasing, waitclk := false, uev := d.fabric.uev,
                            pads := d.fabric.pads }) ∧
      (f.clockOk = false → Completes .releaseStage s [.fabric] fun d => d.fabric = { f with waitclk := true })) ∧
    (f.withdrawing = true → Tbl.wf ({} : FbBlock) f.blocks = true → Completes .releaseStage s [.free, .events, .fabric] fun d =>
      (∀ b, let x := f.block b
        let y := d.fabric.block b
        (x.rel = 0 ∨ (∃ a ∈ f.applying, b ∈ a.blocks) → y = x) ∧
        (x.rel ≠ 0 → (∀ a ∈ f.applying, b ∉ a.blocks) →
          y = { x with rel := x.rel - 1, phase := if x.rel = 1 then .thresh else x.phase, released := x.released && x.rel != 1
                       ffs := if x.rel = 3 then blockFfs x.config else x.ffs, held := y.held, heldIo := y.heldIo } ∧
          (x.rel ≠ 1 → y.held = x.held ∧ y.heldIo = x.heldIo) ∧
          (x.rel = 1 → ∀ k < 4096, (x.config.thr k = 1 → (k, true) ∉ y.held) ∧ (x.config.thr k = 2 → (k, true) ∈ y.held)))) ∧
      d.fabric = { f with blocks := d.fabric.blocks, rel := if f.rel = 0 then 0 else f.rel - 1, uev := d.fabric.uev, pads := d.fabric.pads })

/-- ROOM_WRITTEN puts a placement's image into the room, and the last room makes the admission ready. RETIRE_CLEAR_DONE clears the rooms of a
retiring function and completes its retirement. SEED_LOG brings a migration's target the snapshot, once the source's beats before it are decided, and
then the writes in the order of the log; END_MARK brings an end mark, and the target then applies or drops the beats whose decision is known. -/
def Obligations.RoomsAreWrittenClearedAndSeeded : Prop :=
  ∀ s : State,
    (∀ (r : RoomId) (f : Func) (places : List Place) (p : Place) (gen : BitVec 8),
      s.dev.writingOf r = some (f, places, p, gen) → s.dev.func? f.id = some f →
      Completes (.roomWritten r) s [.rooms, .funcs, .rings] fun d =>
        OtherRooms r s.dev d ∧
        d.room r = { writtenRoom (s.dev.room r) f.obj places p gen with thresh := f.phase != .reserved } ∧
        (f.phase = .reserved → d.func? f.id = some { f with written := r :: f.written }) ∧
        (f.phase ≠ .reserved → d.func? f.id = some { f with migration := f.migration.map fun m => { m with written := r :: m.written } }) ∧
        (f.phase = .reserved → f.written.length + 1 < f.places.length → d.rings = s.dev.rings) ∧
        (f.phase = .reserved → f.written.length + 1 = f.places.length → ∀ (x : DescRef) (e : RetEntry), OpenDesc s.dev x e →
          e.accept = true → e.phase = .accepted → e.started = true → descOpcode e.desc = 0x10 → s.dev.admitId e.desc = f.id.toNat →
          d.entry? x = some { e with ready := some s.dev.now })) ∧
    (∀ (id : FuncId) (f : Func), s.dev.func? id = some f → f.phase = .retiring → f.places ≠ [] →
      Completes (.retireClearDone id) s [.out, .events, .rooms, .funcs, .link, .rings, .sched, .fuse] fun d =>
        d.func? id = some { f with places := [] } ∧
        (∀ r, d.room r = if r ∈ f.rooms then clearedRoom s.dev.power.roomOff (s.dev.room r) else s.dev.room r) ∧
        ∀ (x : DescRef) (e : RetEntry), OpenDesc s.dev x e → e.accept = true → e.phase = .committed → descOpcode e.desc = 0x11 →
          dfld e.desc 0x18 2 = id.toNat →
          CompletedWith d x { seq := e.seq, status := e.record.status, opcode := 0x11, beat := e.beat }) ∧
    (∀ (r : RoomId) (f : Func) (m : Migration) (p : Place), s.dev.migrationTo r = some (f, m) → s.dev.func? f.id = some f → f.migration = some m →
      m.phase = .seed → m.sourceOf r = some p →
      let now := s.dev.room r
      let src := s.dev.room p.room
      let takes (m' : Migration) (e : SeedEntry) (rest : List SeedEntry) : Migration :=
        { m' with log := Tbl.set [] m.log r.toNat rest, got := Tbl.modify [] m.got r.toNat (· ++ [e]) }
      (r ∉ m.seeded →
        (∀ b, src.undecided = some b → b < m.since → Completes (.seedLog r) s [] fun _ => True) ∧
        ((∀ b, src.undecided = some b → m.since ≤ b) → Completes (.seedLog r) s [.rooms, .funcs] fun d =>
          let rm := d.room r
          OtherRooms r s.dev d ∧ d.func? f.id = some { f with migration := some { m with seeded := r :: m.seeded } } ∧
          rm = { now with bps := rm.bps, win := rm.win, bank := src.bank, crpos := src.crpos, cwpos := src.cwpos, rpos := src.crpos, wpos := src.cwpos } ∧
          (∀ b < 128, (rm.bp b).committed = (src.bp b).committed ∧ (rm.bp b).imem = (now.bp b).imem) ∧
          ∀ k < 1024, rm.slot k = { now.slot k with hold := (src.slot k).hold })) ∧
      (∀ (e : SeedEntry) (rest : List SeedEntry), r ∈ m.seeded → Tbl.get [] m.log r.toNat = e :: rest → e.isMark = false →
        Completes (.seedLog r) s [.funcs, .net] fun d =>
          d.func? f.id = some { f with migration := some (takes m e rest) } ∧ d.net = { s.dev.net with links := d.net.links }) ∧
      (∀ (e : SeedEntry) (rest : List SeedEntry), r ∈ m.seeded → Tbl.get [] m.log r.toNat = e :: rest → e.isMark = true →
        let m' : Migration := { takes m e rest with marks := Tbl.set none m.marks r.toNat (some e.beat) }
        Completes (.endMark r) s [.rooms, .funcs, .net] fun d =>
          OtherRooms r s.dev d ∧ d.net = { s.dev.net with links := d.net.links } ∧
          ∃ got, d.func? f.id = some { f with migration := some { m' with got := got } } ∧
            (m.fates = [] → got = m'.got ∧ d.room r = now) ∧
            ∀ x, m.fates = [x] → x.beat = e.beat → x.beat < s.dev.time.n → (∀ y ∈ rest, y.beat ≠ x.beat) →
              (∀ y ∈ Tbl.get [] got r.toNat, y.beat ≠ x.beat) ∧ (d.room r).lastCommit = now.lastCommit ∧
              (x.commit = false → (d.room r).bank = now.bank)))

/-- Scrubbing of a region that it does not skip: a word of the essential set that fails its check is rewritten from its golden copy, counted, with the
region's event, or counted as unfixable where the copy cannot be read. Background readback checks frames of 64 words: the one wrong bit of a frame is
corrected, and every wrong word of another is rewritten; a word that a fetch found uncorrectable is rewritten at once. A corrected select counts in
the fabric. ESSLAST and BGLAST show how long the last whole cycle took. -/
def Obligations.ScrubbingMendsTheConfiguration : Prop :=
  ∀ (s : State) (u : ScrubUnit) (x : ScrubFind),
    let l := s.dev.loader
    let f := s.dev.fabric
    let ev : Nat := match u with | .room r => r.toNat | .block b => 512 + b.toNat | .ring k => 448 + k.toNat
    let fails : Prop := match u with | .room _ => 0 < x.bits | _ => x.bits % 2 = 1
    let took (since : Option Instant) (unit : Nat) : BitVec 16 := BitVec.ofNat 16 (min 65535 ((s.dev.now - since.getD s.dev.now) / (unit * ns)))
    let ess : Loader := if x.last = true then { l with essFrom := none, essLast := took l.essFrom 10000 }
      else { l with essFrom := some (l.essFrom.getD s.dev.now) }
    let bg : Loader := if x.last = true then { l with bgFrom := none, bgLast := took l.bgFrom 1000000 }
      else { l with bgFrom := some (l.bgFrom.getD s.dev.now) }
    let roomMended (d : Dev) (r : RoomId) (w : Nat) : Prop :=
      let rm := s.dev.room r
      OtherRooms r s.dev d ∧ (s.dev.goldenRoom r = none → d.room r = { rm with ueIm := rm.ueIm.erase w }) ∧
      ∀ g, s.dev.goldenRoom r = some g → d.room r = rm.restoreWord g w ∧
        (w < 65536 → ∀ b i : Nat, i < 512 → Tbl.get nopWord ((d.room r).bp b).imem i =
          Tbl.get nopWord ((if b * 512 + i = w then g else rm).bp b).imem i)
    let mended (y : ScrubFind) (d : Dev) : Prop :=
      (∀ r, u = .room r → roomMended d r y.word) ∧ ((∀ r, u ≠ .room r) → d.rooms = s.dev.rooms) ∧
      (∀ b, u = .block b → y.word ≠ 58946 → ∀ c, d.fabric.block c = if c = b.toNat then (f.block c).restoreWord y.word else f.block c) ∧
      ((∀ b, u ≠ .block b) → d.fabric = { f with cnt := d.fabric.cnt }) ∧ ((∀ k, u ≠ .ring k) → d.net = s.dev.net) ∧
      d.fabric.cnt = if y.select = true then bumpAt f.cnt 0 else f.cnt
    (s.dev.essential u x.word = false → Completes (.essentialScrub u x) s [] fun d => d = s.dev) ∧
    (l.scrubEn = true → s.dev.hubUp = true → s.dev.scrubSkips u = false →
      (s.dev.essential u x.word = true → ¬ fails → Completes (.essentialScrub u x) s [.loader] fun d => d.loader = ess) ∧
      (s.dev.essential u x.word = true → fails → x.goldenOk = true → Completes (.essentialScrub u x) s [.events, .rooms, .net, .fabric, .loader] fun d =>
        mended x d ∧ Raised s.dev d ev ∧ d.loader = { ess with cnt := bumpAt l.cnt 0 }) ∧
      (s.dev.essential u x.word = true → fails → x.goldenOk = false → Completes (.essentialScrub u x) s [.events, .loader] fun d =>
        Raised s.dev d ev ∧ d.loader = { ess with cnt := bumpAt l.cnt 2 }) ∧
      (frameWrong x = [] → Completes (.backgroundReadback u x) s [.loader] fun d => d.loader = bg) ∧
      (∀ y : ScrubFind, frameWrong x = [y] →
        (y.bits = 1 → Completes (.backgroundReadback u x) s [.events, .rooms, .net, .fabric, .loader] fun d =>
          mended y d ∧ d.loader = { bg with cnt := bumpAt l.cnt 1 } ∧
          (y.select = true → Raised s.dev d ev) ∧ (y.select = false → d.events = s.dev.events)) ∧
        (2 ≤ y.bits → x.goldenOk = true → Completes (.backgroundReadback u x) s [.events, .rooms, .net, .fabric, .loader] fun d =>
          mended y d ∧ Raised s.dev d ev ∧ d.loader = { bg with cnt := bumpAt l.cnt 0 }) ∧
        (2 ≤ y.bits → x.goldenOk = false → Completes (.backgroundReadback u x) s [.events, .loader] fun d =>
          Raised s.dev d ev ∧ d.loader = { bg with cnt := bumpAt l.cnt 2 })) ∧
      (2 ≤ (frameWrong x).length → x.goldenOk = true → Completes (.backgroundReadback u x) s [.events, .rooms, .net, .fabric, .loader] fun d =>
        OnTheWay d ev ∧ d.loader = { bg with cnt := d.loader.cnt } ∧
        ∀ b, u = .block b → ∀ y ∈ frameWrong x, y.word < 57344 →
          Tbl.get 0 (d.fabric.block b.toNat).config.cells y.word = Tbl.get 0 (f.block b.toNat).golden.cells y.word)) ∧
    (∀ (r : RoomId) (b : BitVec 7) (i : BitVec 9) (golden : Bool), let n := b.toNat * 512 + i.toNat
      n ∈ (s.dev.room r).ueIm →
      Completes (.scrubRewrite r b i golden) s [.events, .rooms, .loader] fun d =>
        Raised s.dev d r.toNat ∧ d.loader = { l with cnt := bumpAt l.cnt (if golden then 0 else 2) } ∧
        (golden = true → roomMended d r n) ∧ (golden = false → d.rooms = s.dev.rooms))

-- control cores, the scheduler, trace and acquisition

/-- The standby pair's READY lets the handover wait for its boundary; without it within 1 s the application fails with status 0x22 and the standby
pair is reloaded. CORE_RUN measures a customer core's TCM and starts it at BOOT in machine mode with cleared registers; CORE_HOLD stops it, and its
tasks are abandoned; CCORE_LDD reads and writes its TCM while it is held. -/
def Obligations.FirmwareAndCoresStart : Prop :=
  ∀ s : State,
    let k := s.dev.cores
    (k.sb = .loading → k.pendingFw.isSome = true → Completes .firmwareReady s [.cores] fun d =>
      d.cores = { k with sb := .ready, handover := true }) ∧
    (∀ (ho : Handover) (e : RetEntry), k.pendingFw = some ho → k.handover = false → OpenDesc s.dev ho.desc e →
      Completes .fwStartTimeout s [.now, .out, .events, .link, .rings, .cores, .sched] fun d =>
        d.now = (match e.ready with | some t => max s.dev.now (t + 10 ^ 9 * ns) | none => s.dev.now) ∧
        d.cores = { k with sb := .ready, handover := false, pendingFw := none, sbSecver := k.secver, sbVersion := k.version, sbHash := k.hash } ∧
        CompletedWith d ho.desc { seq := e.seq, status := 0x22, detail := 7, opcode := descOpcode e.desc, info0 := 0xFFFFFFFF, info1 := ho.slot.toNat,
                                  beat := s.dev.time.n }) ∧
    (∀ (q : Requester) (c : BitVec 4) (v : Word), let x := s.dev.core c
      s.dev.isPf q = true → 4 ≤ c.toNat →
      (v.getLsbD 31 = true → x.run = false → s.dev.sched.tasks = [] → s.dev.sched.waiting = [] →
        Completes (.coreRun q c v) s (Instr.parts (.coreRun q c v)) fun d =>
          ∃ h, d.core c = { x with view := v.extractLsb' 24 6, queue := v.extractLsb' 0 9, measurement := h, run := true, phase := .run, x := [],
                                   csr := [], pc := x.boot.setWidth 64, machineMode := true, mcycle := 0, wdogSince := s.dev.now, postArg := 0,
                                   postDl := 0 } ∧
            ∃ m ∈ d.strong.measures, m.kind = 6 ∧ m.index = c.toNat ∧ m.hash = h) ∧
      (v.getLsbD 31 = false → x.run = true → s.dev.sched.waiting = [] →
        (∀ t ∈ s.dev.sched.tasks, t.entry ∈ x.stack → ∀ ev, t.source ≠ .event ev) →
        Completes (.coreHold q c v) s (Instr.parts (.coreHold q c v)) fun d =>
          (d.core c).run = false ∧ (d.core c).phase = .held ∧ (d.core c).stack = [] ∧ (∀ t ∈ d.sched.tasks, t.entry ∉ x.stack) ∧
          ∀ m ∈ d.strong.measures, ¬ (m.kind = 6 ∧ m.index = c.toNat)) ∧
      (x.run = false →
        (∀ w : Word, Completes (.coreLoadData q c (some w)) s [.cores] fun d =>
          d.core c = { x with tcm := Memory.writeN x.tcm x.lda.toNat (leBytes 4 w.toNat), lda := x.lda + 4 }) ∧
        Completes (.coreLoadData q c none) s [.out, .cores] fun d =>
          d.core c = { x with lda := x.lda + 4 } ∧ Sent s.dev d (.read q (BitVec.ofNat 32 (Memory.readLe x.tcm x.lda.toNat 4)))))

/-- An instruction that a running core retires counts its cycles and does to the core what it did: a register, the pc, memory, a CSR; a load gives what
the TCM, shared SRAM, the cellar or the core port holds, an AMO what stood there; a store stores its bytes. An access that the core cannot make, that its
protection forbids, that reads an uncorrectable word, that the cellar refuses or whose line does not verify traps to mtvec with its cause, as a trap does and
as an instruction that may not be fetched does (log entry 42), and MRET returns. The external interrupt's signal falls as it is taken (log entry 176). With
tracing, a branch joins the outcomes that wait.
WFI puts a running core to sleep and a wake-up brings it back, after the time asleep. A customer core whose watchdog expires restarts from BOOT,
with its event; a firmware core's pair fails: the standby pair takes over, or is marked as failed. -/
def Obligations.CoresRunSleepAndRestart : Prop :=
  (∀ (s : State) (c : BitVec 4) (cycles : BitVec 32),
    let x := s.dev.core c
    let t := s.dev.stream c.toNat
    let set (rd : BitVec 5) (v : BitVec 64) : Tbl (BitVec 64) := if rd = 0 then x.x else Tbl.set 0 x.x rd.toNat v
    let m := Tbl.get (0 : BitVec 64) x.csr 0x300
    let kept := m &&& ~~~(0x1888 : BitVec 64)
    let len (compressed : Bool) : BitVec 64 := if compressed then 2 else 4
    let others (d : Dev) : Prop := ∀ i, i ≠ c → d.core i = s.dev.core i
    let becomes (y : Core) (d : Dev) : Prop := d.core c = { y with mcycle := x.mcycle + cycles.setWidth 64 } ∧ others d
    let trapped (cause handler : BitVec 64) : Core :=
      let m' := kept ||| (if x.machineMode then 0x1800 else 0) ||| (if m.getLsbD 3 then 0x80 else 0)
      let csr := if cause = 0x800000000000000B then Tbl.set 0 x.csr 0x344 (Tbl.get 0 x.csr 0x344 &&& ~~~(0x800 : BitVec 64)) else x.csr
      { x with pc := handler, machineMode := true, csr := Tbl.set 0 (Tbl.set 0 (Tbl.set 0 csr 0x341 x.pc) 0x342 cause) 0x300 m' }
    let handler : BitVec 64 := Tbl.get 0 x.csr 0x305 &&& ~~~(3 : BitVec 64)
    let csrIs (d : Dev) (l : Tbl (BitVec 64)) : Prop :=
      (∀ n, n ≠ 0x344 → Tbl.get 0 (d.core c).csr n = Tbl.get 0 l n) ∧
      (Tbl.get 0 (d.core c).csr 0x344 = Tbl.get 0 l 0x344 ∨ Tbl.get 0 (d.core c).csr 0x344 = Tbl.get 0 l 0x344 ||| 0x800)
    x.phase = .run → (∀ h ∈ s.dev.sched.waiting, h.source ≠ .post c) →
    (∀ cause target, t.en = false → Completes (.coreInstruction c (.trap cause target) cycles) s [.cores] (becomes (trapped cause target))) ∧
    (∀ i, t.en = false → s.dev.fetchOk c = false → (∀ cause target, i ≠ .trap cause target) →
      Completes (.coreInstruction c i cycles) s [.cores] (becomes (trapped 1 handler))) ∧
    (t.en = false → s.dev.fetchOk c = true →
      (∀ rd v z, Completes (.coreInstruction c (.plain rd v z) cycles) s [.cores] (becomes { x with x := set rd v, pc := x.pc + len z })) ∧
      (∀ taken target z, Completes (.coreInstruction c (.branch taken target z) cycles) s [.cores]
        (becomes { x with pc := if taken then target else x.pc + len z })) ∧
      (∀ ind target rd link, Completes (.coreInstruction c (.jump ind target rd link) cycles) s [.cores]
        (becomes { x with x := set rd link, pc := target })) ∧
      (∀ (a : CoreAccess) (rd : BitVec 5) (z : Bool), s.dev.accessOk c a = true →
        let n := a.addr.toNat
        let k := 2 ^ a.log2.toNat
        let sram := s.dev.strong.sram
        let extended (v : Nat) : BitVec 64 := if a.signed then (BitVec.ofNat (8 * k) v).signExtend 64 else (BitVec.ofNat (8 * k) v).setWidth 64
        let inTcm : Prop := n < 0x40000
        let inSram : Prop := 0x10000000 ≤ n ∧ n < 0x14000000
        let inPort : Prop := 0x30000000 ≤ n ∧ n < 0x30000100
        let cl := s.dev.cellar
        let at_ := n - 0x400000000
        let line := at_ / 128
        let m := cl.metaOf line
        let verifies := (cl.key m.slot).phase ≠ .empty ∧
          gcmTag (cl.key m.slot).ke (sealIv line m.ctr m.slot) (sealAad line m.ctr m.slot) (cl.raw line) = m.mac
        let permitted (write : Bool) (p : Nat × Region) : Prop := cl.permits .core x.queue line (wantOf .core write) write = some p
        let busError (d : Dev) (ev counter : Nat) : Prop :=
          becomes (trapped (if a.store then 7 else 5) handler) d ∧ Raised s.dev d ev ∧ d.cellar = { cl with cnt := bumpAt cl.cnt counter }
        let loads (ps : List Part) (v : BitVec 64) (Q : Dev → Prop) : Prop := Completes (.coreInstruction c (.access a rd z) cycles) s ps fun d =>
          becomes { x with x := set rd v, pc := x.pc + len z } d ∧ Q d
        let held := extended (leNat (sram.fetch (n - 0x10000000) k))
        (a.store = false →
          (inTcm → loads [.cores] (extended (leNat (Memory.readN x.tcm n k))) fun _ => True) ∧
          (inSram → a.ecc = 0 → loads [.cores] held fun _ => True) ∧
          (inSram → a.ecc = 1 → loads [.cores, .strong] held fun d => d.strong = { s.dev.strong with sram := { sram with cnt := bumpAt sram.cnt 0 } }) ∧
          (inPort → loads [.cores] (extended (s.dev.portRead c (n - 0x30000000)).toNat) fun _ => True) ∧
          (¬ inTcm → ¬ inSram → ¬ inPort → inCellar a = false → loads [.cores] a.value fun _ => True)) ∧
        (inCellar a = true → a.line = {} →
          (cl.permits .core x.queue line (wantOf .core a.store) a.store = none →
            Completes (.coreInstruction c (.access a rd z) cycles) s [.events, .cellar, .cores] fun d => busError d 446 2) ∧
          (∀ (i : Nat) (r : Region), permitted false (i, r) → a.store = false → PlainLine s.dev line →
            (r.sealed_ = false → loads [.cores] (extended (cl.raw line >>> (8 * (at_ % 128))).toNat) fun _ => True) ∧
            (r.sealed_ = true → cl.clearing = false → m.rsvOk = true → m.state = 1 → ¬ verifies →
              Completes (.coreInstruction c (.access a rd z) cycles) s [.events, .cellar, .cores] fun d => busError d 440 0)) ∧
          (∀ (i : Nat) (r : Region), permitted true (i, r) → (cl.region i).sealed_ = false → a.store = true → a.amo = 0 → n % k = 0 → MemCanon s.dev →
            cl.clearing = false → Completes (.coreInstruction c (.access a rd z) cycles) s [.cellar, .cores] fun d =>
              becomes { x with pc := x.pc + len z } d ∧ d.cellar = { cl with mem := d.cellar.mem, unread := d.cellar.unread } ∧
              ∀ y : Nat, Memory.read d.cellar.mem y = if at_ ≤ y ∧ y < at_ + k then a.value.extractLsb' (8 * (y - at_)) 8 else Memory.read cl.mem y)) ∧
        (a.store = true → a.amo = 0 → ¬ inTcm → ¬ inSram → inCellar a = false → Completes (.coreInstruction c (.access a rd z) cycles) s [.cores]
          (becomes { x with pc := x.pc + len z, postArg := if n = 0x30000028 then a.value else x.postArg,
                            postDl := if n = 0x30000030 then a.value else x.postDl })) ∧
        (a.store = true → inTcm → Completes (.coreInstruction c (.access a rd z) cycles) s [.cores]
          (becomes { x with tcm := Memory.writeN x.tcm n (leBytes k a.value.toNat), pc := x.pc + len z,
                            x := if a.amo = 0 then x.x else set rd (if a.amo = 3 then 0 else extended (leNat (Memory.readN x.tcm n k))) })) ∧
        (a.store = true → inSram → a.amo = 0 ∨ a.ecc = 0 → Completes (.coreInstruction c (.access a rd z) cycles) s [.cores, .strong] fun d =>
          becomes { x with pc := x.pc + len z, x := if a.amo = 0 then x.x else set rd (if a.amo = 3 then 0 else held) } d ∧
          d.strong = { s.dev.strong with sram := sram.put (n - 0x10000000) (leBytes k a.value.toNat) }) ∧
        (inSram → (a.store = false ∨ a.amo ≠ 0) → a.ecc = 2 → Completes (.coreInstruction c (.access a rd z) cycles) s [.events, .cores, .strong] fun d =>
          becomes (trapped (if a.store then 7 else 5) handler) d ∧ Raised s.dev d 644 ∧
          d.strong = { s.dev.strong with sram := { sram with cnt := bumpAt sram.cnt 1 } })) ∧
      (∀ (a : CoreAccess) (rd : BitVec 5) (z : Bool), s.dev.accessOk c a = false →
        Completes (.coreInstruction c (.access a rd z) cycles) s [.cores] (becomes (trapped (if a.store then 7 else 5) handler))) ∧
      (∀ n v rd old, Completes (.coreInstruction c (.csr n v rd old) cycles) s [.cores, .sched] fun d =>
        let mip := Tbl.get 0 x.csr 0x344
        (d.core c).x = set rd old ∧ (d.core c).pc = x.pc + 4 ∧ (d.core c).machineMode = x.machineMode ∧
        (n = 0xB00 → (d.core c).mcycle = v ∧ csrIs d x.csr) ∧
        (n ≠ 0xB00 → (d.core c).mcycle = x.mcycle + cycles.setWidth 64 ∧
          csrIs d (Tbl.set 0 x.csr n.toNat (if n = 0x344 then (v &&& ~~~(0x800 : BitVec 64)) ||| (mip &&& 0x800) else v)))) ∧
      (∀ target, Completes (.coreInstruction c (.mret target) cycles) s [.cores, .sched] fun d =>
        (d.core c).pc = target ∧ (d.core c).machineMode = m.getLsbD 11 ∧ (d.core c).x = x.x ∧
        csrIs d (Tbl.set 0 x.csr 0x300 (kept ||| (if m.getLsbD 7 then 0x8 else 0) ||| 0x80)) ∧
        (d.core c).mcycle = x.mcycle + cycles.setWidth 64)) ∧
    (∀ taken target z, s.dev.fetchOk c = true → t.en = true → t.isOn = true → t.mode = 0 → t.act = 0 → t.branches.length < 63 →
      Completes (.coreInstruction c (.branch taken target z) cycles) s [.cores] fun d =>
        becomes { x with pc := if taken then target else x.pc + len z } d ∧ d.stream c.toNat = { t with branches := t.branches ++ [taken] })) ∧
  (∀ (s : State) (c : BitVec 4),
    let k := s.dev.cores
    let x := s.dev.core c
    let event : Nat := if c.toNat < 4 then (if 2 ≤ c.toNat then 482 else 480) else 480 + c.toNat
    let passive : Prop := decide (2 ≤ c.toNat) ≠ k.activeB
    (x.phase = .run → Completes (.coreWfi c) s [.free, .events, .cellar, .cores, .strong] fun d =>
      d.core c = { x with phase := .sleep, asleepSince := s.dev.now, pc := x.pc + 4 } ∧
      ((s.dev.stream c.toNat).isOn = false → d.free = s.dev.free ∧ d.events = s.dev.events ∧ d.cellar = s.dev.cellar ∧ d.strong = s.dev.strong)) ∧
    (∀ asleep : BitVec 64, x.phase = .sleep → Completes (.coreWake c asleep) s [.now, .free, .events, .cellar, .cores, .strong] fun d =>
      d.now = max s.dev.now (x.asleepSince + asleep.toNat * ns) ∧ d.core c = { x with phase := .run } ∧
      ((s.dev.stream c.toNat).isOn = false → d.free = s.dev.free ∧ d.events = s.dev.events ∧ d.cellar = s.dev.cellar ∧ d.strong = s.dev.strong)) ∧
    (4 ≤ c.toNat → x.wdogEn = true → x.able = true →
      Completes (.watchdogExpiry c) s (Instr.parts (.watchdogExpiry c)) fun d =>
        let y := d.core c
        d.now = max s.dev.now (x.wdogSince + max 1 x.wdogPeriod.toNat * 1000 * ns) ∧ OnTheWay d event ∧
        y.run = true ∧ y.phase = .run ∧ y.pc = x.boot.setWidth 64 ∧ y.machineMode = true ∧ y.x = [] ∧ (y.stack = [] → y.csr = []) ∧ (∀ n, n ≠ 0x344 → Tbl.get 0 y.csr n = 0) ∧ y.mcycle = 0 ∧
        y.wdogSince = d.now ∧ y.cnt = bumpAt x.cnt 1 ∧ y.tcm = x.tcm ∧ y.boot = x.boot) ∧
    (c.toNat < 4 → x.able = true → passive → Completes (.watchdogExpiry c) s [.events, .cores] fun d =>
      Raised s.dev d event ∧ d.cores = { k with cores := Tbl.set {} k.cores c.toNat { x with cnt := bumpAt x.cnt 1 }, sb := .failed, handover := false }) ∧
    (c.toNat < 4 → x.able = true → ¬ passive → Completes (.watchdogExpiry c) s (Instr.parts (.watchdogExpiry c)) fun d =>
      OnTheWay d event ∧ d.cores.activeB = !k.activeB ∧ d.cores.secver = k.sbSecver ∧ d.cores.version = k.sbVersion ∧ d.cores.hash = k.sbHash))

/-- KICK feeds a watchdog. DONE frees the core's innermost task, late or in time, and the next one of its stack resumes; a user event that is still
asserted has its task created again. POST, a timer and an event's
route create their tasks in the lowest free entry, or merge, or wait; TIMER_ARM arms. An occurrence raises its interrupt and reaches the acquisition
units and the fuse box, a room's on its way over the network; a disabled room raises none. -/
def Obligations.SchedulerRunsTasks : Prop :=
  ∀ s : State,
    let sc := s.dev.sched
    let created (d : Dev) (e : Nat) (source : TaskSource) (tclass : BitVec 8) (arg : BitVec 64) (due : Due) : Prop :=
      ∃ t ∈ d.sched.tasks, t.entry = e ∧ t.source = source ∧ t.tclass = tclass ∧ t.arg = arg ∧ t.due = due ∧ t.count = 1
    (∀ c : BitVec 4, (s.dev.core c).able = true → Completes (.kick c) s [.cores] fun d =>
      d.core c = { s.dev.core c with wdogSince := s.dev.now } ∧ ∀ i, i ≠ c → d.core i = s.dev.core i) ∧
    (∀ (c : BitVec 4) (e : Nat) (rest : List Nat) (t : Task), let x := s.dev.core c
      let late := s.dev.deadline t < s.dev.now
      x.stack = e :: rest → s.dev.task? e = some t → sc.waiting = [] → (∀ y ∈ sc.tasks, y.phase ≠ .pending) →
      (∀ ev : BitVec 10, 896 ≤ ev.toNat → t.source = .event ev → rest = [] → ev.toNat - 896 ∈ Tbl.keys s.dev.fabric.uev →
        (∀ k ∈ Tbl.keys s.dev.fabric.uev, s.dev.liveStatus (896 + k) = some true ↔ k = ev.toNat - 896) →
        (∀ y ∈ sc.tasks, y.source = .event ev → y.entry = e) →
        let r := s.dev.route ev.toNat
        s.dev.hubUp = true → r.ten = true → fwClass r.tclass = false → (s.dev.freeEntry false).isSome = true →
        Completes (.done c) s [.events, .rings, .cores, .sched] fun d =>
          ∃ y ∈ d.sched.tasks, y.source = .event ev ∧ y.tclass = r.tclass ∧ y.arg = BitVec.ofNat 64 s.dev.nowNs ∧ y.due = s.dev.dueOf r.tclass s.dev.nowNs) ∧
      ((∀ k ∈ Tbl.keys s.dev.fabric.uev, s.dev.liveStatus (896 + k) ≠ some true) → Completes (.done c) s [.events, .rings, .cores, .sched] fun d =>
        (late → OnTheWay d (480 + c.toNat) ∧ d.core c = { x with stack := rest, cnt := bumpAt x.cnt 0 } ∧ d.sched.cnt = bumpAt sc.cnt 0) ∧
        (¬ late → d.core c = { x with stack := rest } ∧ d.sched.cnt = sc.cnt) ∧
        (rest = [] → d.sched.tasks = sc.tasks.filter (fun y => y.entry != e)) ∧
        (∀ (r : Nat) (more : List Nat), rest = r :: more → r ≠ e → ∀ y ∈ sc.tasks, y.entry = r → { y with phase := .running } ∈ d.sched.tasks))) ∧
    (∀ (c : BitVec 4) (v : Word), let x := s.dev.core c
      let cls := v.setWidth 8
      let due : Due := if x.postDl = 0 then s.dev.dueOf cls s.dev.nowNs else .ns x.postDl
      x.able = true →
      (∀ e, fwClass cls = decide (c.toNat < 4) → s.dev.freeEntry (fwClass cls) = some e → Completes (.post c v) s [.events, .rings, .cores, .sched] fun d =>
        created d e (.post c) cls x.postArg due) ∧
      (fwClass cls = decide (c.toNat < 4) → s.dev.freeEntry (fwClass cls) = none → Completes (.post c v) s [.sched] fun d =>
        d.sched = { sc with waiting := sc.waiting ++ [{ source := .post c, tclass := cls, arg := x.postArg, due, ts := s.dev.now }] }) ∧
      (fwClass cls ≠ decide (c.toNat < 4) → Completes (.post c v) s [.sched] fun d => d.sched = { sc with cnt := bumpAt sc.cnt 3 })) ∧
    (∀ (q : Requester) (i : BitVec 6) (v : Word), s.dev.isPf q = true → Completes (.timerArm q i v) s [.sched] fun d =>
      let t := s.dev.timer i
      let t' : Timer := { t with next := BitVec.ofNat 64 (t.next.toNat % 2 ^ 32 + v.toNat * 2 ^ 32), armed := true }
      d.sched = { sc with timers := Tbl.set {} sc.timers i.toNat t' }) ∧
    (∀ i : BitVec 6, let t := s.dev.timer i
      let t' : Timer := if t.periodic = true then { t with next := t.next + BitVec.ofNat 64 (max 1000 t.period.toNat) } else { t with armed := false }
      t.en = true → t.armed = true → t.beats = false → 64 ≤ t.tclass.toNat →
      (∀ e, sc.tasks.find? (mergesWith (.timer i)) = none → s.dev.freeEntry false = some e →
        Completes (.timerFire i) s [.now, .events, .rings, .cores, .sched] fun d =>
          d.now = max s.dev.now (t.next.toNat * ns) ∧ d.sched.timers = Tbl.set {} sc.timers i.toNat t' ∧
          created d e (.timer i) t.tclass t.next (s.dev.dueOf t.tclass t.next.toNat)) ∧
      (∀ y, sc.tasks.find? (mergesWith (.timer i)) = some y → Completes (.timerFire i) s [.now, .sched] fun d =>
        d.sched = { sc with timers := Tbl.set {} sc.timers i.toNat t'
                            tasks := sc.tasks.map fun z => if z.entry = y.entry then { z with count := if z.count = 255 then 255 else z.count + 1 } else z })) ∧
    (∀ (ev : BitVec 10) (detail : BitVec 64) (o : Occ) (rest : List Occ),
      takeOcc ev s.dev.events = some (o, rest) ∨
        takeOcc ev s.dev.events = none ∧ rest = s.dev.events ∧ o = { ev, ts := s.dev.now, detail, beat := s.dev.beatAt s.dev.now } →
      let r := s.dev.route o.ev.toNat
      let units (d : Dev) : Prop := d.acq = Tbl.mapAll {} s.dev.acq (AcqUnit.receive o)
      let room : Node := .room (o.ev.setWidth 8)
      let carried (d : Dev) : Prop := d.net = if (takeOcc ev s.dev.events).isSome = true ∧ o.ev < 256
        then s.dev.net.carry room (.hub 5) (evtFlits room (.hub 5) o.beat false 3 (o.ev.toNat * 2 ^ 64 + o.ts / ns)) else s.dev.net
      ¬ (ev.toNat < 256 ∧ s.dev.roomDisabled (BitVec.ofNat 8 ev.toNat) = true) →
      (s.dev.hubUp = false → Completes (.eventOccurrence ev detail) s [.events, .net] fun d => d.events = rest ∧ carried d) ∧
      (s.dev.hubUp = true → r.ten = false → r.trc = false →
        (r.ien = true → r.fn.toNat * 2048 + r.vector.toNat ∉ sc.msixMasked →
          Completes (.eventOccurrence ev detail) s [.out, .events, .net, .acq, .fuse] fun d =>
            d.events = rest ∧ carried d ∧ Sent s.dev d (.msix r.fn r.vector) ∧ units d) ∧
        (r.ien = false → s.dev.fuse.released = true → Completes (.eventOccurrence ev detail) s [.events, .net, .acq, .fuse] fun d =>
          let y := Tbl.get ({} : FuseSrc) s.dev.fuse.srcs o.ev.toNat
          d.events = rest ∧ carried d ∧ units d ∧ d.fuse = { s.dev.fuse with window := insertOcc o s.dev.fuse.window,
                                                                             srcs := Tbl.set {} s.dev.fuse.srcs o.ev.toNat { y with cnt := y.cnt.bump } })) ∧
      (∀ e, s.dev.hubUp = true → r.ten = true → 64 ≤ r.tclass.toNat → sc.tasks.find? (mergesWith (.event o.ev)) = none →
        s.dev.freeEntry false = some e → Completes (.eventOccurrence ev detail) s (Instr.parts (.eventOccurrence ev detail)) fun d =>
          created d e (.event o.ev) r.tclass (BitVec.ofNat 64 (o.ts / ns)) (s.dev.dueOf r.tclass (o.ts / ns)))) ∧
    (∀ (ev : BitVec 10) (detail : BitVec 64), ev.toNat < 256 → s.dev.roomDisabled (BitVec.ofNat 8 ev.toNat) = true →
      Completes (.eventOccurrence ev detail) s [] fun d => d = s.dev)

/-- A stream's periodic SYNC follows its packets; a write of RP returns space and, after an overflow, ends it. An acquisition unit that is armed or
triggered takes, keeps or skips each source record by its divisor; the first trigger among the conditions of the group that hold (log entry 192), at the
position that its condition gives, or FORCE fires every armed unit of the group; DISARM ends a unit, or the master's group; a FORCE or DISARM that is not accepted is counted. -/
def Obligations.TraceAndAcquisitionRun : Prop :=
  ∀ s : State,
    (∀ c : BitVec 4, let t := s.dev.stream c.toNat
      t.isOn = true → (s.dev.core c).phase = .run → t.lastSync < t.pos → 26 ≤ t.avail →
      Completes (.traceSyncTimer c) s [.free, .events, .cellar, .cores, .strong] fun d =>
        d.stream c.toNat = { t with wp := BitVec.ofNat 32 ((t.wp.toNat + 26) % (t.size.toNat / 4096 * 4096)), pos := t.pos + 26, lastSync := t.pos + 26,
                                    cycleBase := (s.dev.core c).mcycle }) ∧
    (∀ (q : Requester) (i : BitVec 5) (v : Word), let t := s.dev.stream i.toNat
      let t' : Stream := { t with rp := v }
      s.dev.isPf q = true → 4 ≤ i.toNat → i.toNat < 17 →
      (t.dropped = none → Completes (.traceRpWrite q i v) s [.cores] fun d => d.stream i.toNat = t') ∧
      (t.dropped.isSome = true → 31 ≤ t'.avail → Completes (.traceRpWrite q i v) s [.free, .events, .cellar, .cores, .strong] fun d =>
        (d.stream i.toNat).dropped = none ∧ (d.stream i.toNat).rp = t'.rp)) ∧
    (∀ (u : BitVec 4) (payload : List (BitVec 64)) (fill : BitVec 17) (type : Nat) (ws : List (BitVec 64)), let x := s.dev.unit u.toNat
      let others (d : Dev) : Prop := ∀ w, w ≠ u.toNat → d.unit w = s.dev.unit w
      s.dev.acqSource x payload = some (type, ws) → fill.toNat ≤ 32768 → x.div.toNat < 6 →
      ((x.phase = .armed ∨ x.phase = .triggered) → x.sample.toNat % 2 ^ x.div.toNat ≠ 0 → Completes (.acqRecord u payload fill) s [.acq] fun d =>
        d.unit u.toNat = { x with sample := x.sample + 1, window := x.window.drop 1 } ∧ others d) ∧
      (x.phase = .armed → x.arm.pre = 0 → Completes (.acqRecord u payload fill) s [.acq] fun d =>
        d.unit u.toNat = { x with sample := x.sample + 1, window := x.window.drop 1 } ∧ others d) ∧
      (x.phase = .triggered → x.sample.toNat % 2 ^ x.div.toNat = 0 → x.arm.cellar = false → 1 < x.left →
        Completes (.acqRecord u payload fill) s [.acq, .strong] fun d =>
          d.unit u.toNat = { x with sample := x.sample + 1, window := x.window.drop 1, written := x.written + 1, left := x.left - 1, trigNext := false,
                                    wp := BitVec.ofNat 64 ((x.wp.toNat + 8 * (ws.length + 1)) % max 1 x.arm.size) } ∧ others d)) ∧
    (∀ u : BitVec 4, let x := s.dev.unit u.toNat
      let group (w : Nat) : Prop := w < 16 ∧ (s.dev.unit w).phase = .armed ∧ (s.dev.unit w).gmaster = x.gmaster
      let fired (origin : Nat) (at_ : TrigPos) (d : Dev) : Prop :=
        (∀ w, ¬ group w → d.unit w = s.dev.unit w) ∧
        ∀ w, group w → let y := s.dev.unit w
          OnTheWay d (496 + w) ∧
          d.unit w = { y with phase := .triggered, origin := BitVec.ofNat 4 origin, prefull := decide (y.arm.pre ≤ y.kept.length), trigBeat := at_.beat, trigStep := at_.step,
                              fracValid := at_.frac.isSome, frac := at_.frac.getD 0, left := y.arm.post, trigNext := true, written := y.kept.length,
                              startOff := y.wp, wp := BitVec.ofNat 64 ((y.wp.toNat + 32) % max 1 y.arm.size) }
      let boundary : TrigPos := s.dev.posAt s.dev.time.start false
      (x.phase = .armed → (∀ w, group w → (s.dev.unit w).arm.cellar = false ∧ (s.dev.unit w).arm.post ≠ 0) →
        (∀ (step : BitVec 17) (frac : BitVec 6),
          let holds (w : Nat) (p : TrigPos) : Prop := let y := s.dev.unit w
            group w ∧ ((y.arm.tkind = 1 ∧ ∃ t, y.hit = some t ∧ p = s.dev.posAt t false) ∨ (y.arm.tkind = 2 ∧ ∃ t, y.hit = some t ∧ p = s.dev.posAt t true) ∨
              (y.arm.tkind = 3 ∧ s.dev.probeHit y = true ∧ p = boundary) ∨
              (y.arm.tkind = 4 ∧ s.dev.time.run = true ∧ y.arm.tvalue ≤ s.dev.time.n ∧ p = boundary) ∨
              (y.arm.tkind = 5 ∧ w = u.toNat ∧ p = { beat := s.dev.time.n, step, frac := some frac, time := s.dev.now }))
          ∀ (v : Nat) (at_ : TrigPos), (∃ p, holds u.toNat p) → holds v at_ →
            (∀ w p, holds w p → at_.time / ns < p.time / ns ∨ at_.time / ns = p.time / ns ∧ v ≤ w) →
            Completes (.acqTrigger u step frac) s [.events, .acq, .strong] (fired v at_)) ∧
        (∀ q : Requester, s.dev.isPf q = true → Completes (.acqForce q u) s [.events, .acq, .strong] (fired u.toNat (s.dev.posAt s.dev.now false)))) ∧
      (∀ q : Requester, s.dev.isPf q = true → x.phase ≠ .armed → Completes (.acqForce q u) s [.hub] fun d =>
        d.hub = { s.dev.hub with ignored := bumpAt s.dev.hub.ignored 0x10 })) ∧
    (∀ (q : Requester) (u : BitVec 4), let x := s.dev.unit u.toNat
      let busy : Prop := x.phase = .armed ∨ x.phase = .triggered
      s.dev.isPf q = true →
      (busy → Completes (.acqDisarm q u) s [.acq] fun d =>
        ∀ w, let y := s.dev.unit w
          d.unit w = if (y.phase = .armed ∨ y.phase = .triggered) ∧ (w = u.toNat ∨ x.master = true ∧ y.gmaster = x.gmaster)
            then { y with phase := .idle, kept := [], window := [] } else y) ∧
      (¬ busy → Completes (.acqDisarm q u) s [.hub] fun d => d.hub = { s.dev.hub with ignored := bumpAt s.dev.hub.ignored 0x10 }))

/-- Doorbells, fetch and acceptance: SQ_PI, CQ_CI (the slots before it leave the window). Fetch pauses while the slot's earlier record stands, and passes a
slot fetched before again. A fetched slot is accepted where its SEQ is NEXTSEQ; else it completes SEQ_DUP, SEQ_GAP or HOST_MEMORY_ERROR, and a malformed descriptor BAD_DESCRIPTOR, each counted and with its event. The memory that a
descriptor names is read, or its read fails. TIMER sends the message of coalesced completions. -/
def Obligations.DescriptorsAreFetched : Prop :=
  ∀ (s : State) (k : BitVec 9),
    let r := s.dev.ring k
    let x : DescRef := { ring := k, slot := r.fetch }
    let ps : List Part := [.out, .events, .link, .rings, .sched]
    let record (seq : BitVec 64) (opcode status detail info0 info1 : Nat) : Completion :=
      { seq, status, detail, opcode, info0, info1, beat := s.dev.time.n }
    let moved (d : Dev) (n : BitVec 64) : Prop :=
      (d.ring k).nextseq = n ∧ (d.ring k).fetch = r.advance.fetch ∧ (d.ring k).parity = r.advance.parity ∧ (d.ring k).sqPi = r.sqPi
    let counts (d : Dev) (n ev : Nat) : Prop := (s.dev.rings.linkUp = true → d.rings.cnt = bumpAt s.dev.rings.cnt n) ∧ OnTheWay d ev
    (∀ (q : Requester) (v : Word), s.dev.pairOk q k = true → Completes (.sqPi q k v) s [.rings] fun d =>
      d.rings = { s.dev.rings with pairs := Tbl.set {} s.dev.rings.pairs k.toNat { r with sqPi := v.setWidth 16 } }) ∧
    (∀ (q : Requester) (v : Word) (a n : Nat),
      let ci : BitVec 16 := v.setWidth 16
      s.dev.pairOk q k = true → r.window.length ≤ r.slots → (∀ i e, r.window[i]? = some e → e.slot = (a + i) % r.slots) →
      n < r.slots → n ≤ r.window.length → ci.toNat % r.slots = (a + n) % r.slots → (∀ e ∈ r.window.take n, e.posted = true) → Completes (.cqCi q k v) s [.events, .rings] fun d =>
        d.ring k = { r with cqCi := ci, window := r.window.drop n, held := (d.ring k).held }) ∧
    (s.dev.canFetch k = true → s.dev.rings.windowsOk → (∀ a ∈ s.dev.link.await, a.desc ≠ x) → s.dev.entry? x = none →
      (s.dev.heldBits k ≠ 0 → ∀ got, Completes (.descriptorFetch k got) s [.events, .rings] fun d => d.ring k = { r with held := s.dev.heldBits k }) ∧
      (s.dev.heldBits k = 0 →
        (Completes (.descriptorFetch k none) s ps fun d => CompletedWith d x (record 0 0 0x70 0 0 0) ∧ moved d r.nextseq ∧ counts d 3 771) ∧
        (∀ w, descSeq w < r.nextseq → Completes (.descriptorFetch k (some w)) s ps fun d =>
          CompletedWith d x (record (descSeq w) (descOpcode w) 0x51 0 (r.original (descSeq w)) 0) ∧ moved d r.nextseq ∧ counts d 0 769) ∧
        (∀ w, r.nextseq < descSeq w → Completes (.descriptorFetch k (some w)) s ps fun d =>
          CompletedWith d x (record (descSeq w) (descOpcode w) 0x50 0 0 r.nextseq.toNat) ∧ moved d r.nextseq ∧ counts d 1 769) ∧
        (∀ w, descSeq w = r.nextseq →
          (∀ bad, s.dev.slotRefusal w = none → s.dev.descBad r.owner w = some bad → Completes (.descriptorFetch k (some w)) s ps fun d =>
            CompletedWith d x (record (descSeq w) (descOpcode w) 5 bad 0 0) ∧ moved d (r.nextseq + 1) ∧ counts d 2 770) ∧
          (∀ n, s.dev.slotRefusal w = some n → n.status ≠ 5 → Completes (.descriptorFetch k (some w)) s ps fun d =>
            CompletedWith d x (record (descSeq w) (descOpcode w) n.status n.detail 0xFFFFFFFF 0x7F00) ∧ moved d (r.nextseq + 1)) ∧
          (s.dev.slotRefusal w = none → s.dev.descBad r.owner w = none → Completes (.descriptorFetch k (some w)) s ps fun d =>
            moved d (r.nextseq + 1) ∧ d.rings.order = s.dev.rings.order + 1 ∧
            ∃ e, d.entry? x = some e ∧ e.seq = descSeq w ∧ e.desc = w ∧ e.accept = true ∧ e.order = d.rings.order ∧ e.par = r.parity ∧
              e.started = false ∧ e.args = none ∧ e.phase = (if descOpcode w = 0 then .committed else .accepted))))) ∧
    (∀ e, s.dev.canFetch k = true → s.dev.entry? x = some e →
      (e.par ≠ r.parity → ∀ got, Completes (.descriptorFetch k got) s [.events, .rings] fun d => d.ring k = { r with held := s.dev.heldBits k }) ∧
      (e.par = r.parity →
        (∀ w, Completes (.descriptorFetch k (some w)) s [.rings] fun d =>
          d.rings = { s.dev.rings with pairs := Tbl.set {} s.dev.rings.pairs k.toNat r.advance }) ∧
        (OpenDesc s.dev x e → e.accept = true → e.phase = .accepted → e.started = false → Completes (.descriptorFetch k none) s ps fun d =>
          CompletedWith d x (record e.seq (descOpcode e.desc) 0x70 0 0 0) ∧ (d.ring k).fetch = r.advance.fetch ∧ counts d 3 771))) ∧
    (∀ (y : DescRef) (e : RetEntry), OpenDesc s.dev y e → e.accept = true → e.phase = .accepted → e.args = none → argLen e.desc ≠ 0 →
      (Completes (.hostMemoryRead y none) s ps fun d =>
        CompletedWith d y (record e.seq (descOpcode e.desc) 0x70 0 0 0) ∧ counts d 3 771) ∧
      (∀ bs, bs.length = argLen e.desc → Completes (.hostMemoryRead y (some bs)) s [.rings] fun d =>
        d.entry? y = some { e with args := some bs, ready := if descOpcode e.desc = 0x10 then none else some s.dev.now } ∧
        ∀ z, (z.ring ≠ y.ring ∨ z.slot ≠ y.slot) → d.entry? z = s.dev.entry? z)) ∧
    (r.irqEn = true → r.irqPending ≠ 0 → r.irqTimer ≠ 0 →
      let i := r.owner.toNat * 2048 + r.irqVector.toNat
      let t := max s.dev.now (r.irqSince + r.irqTimer.toNat * 1000 * ns)
      (i ∉ s.dev.sched.msixMasked → Completes (.irqCoalesceTimer k) s [.now, .out, .rings] fun d =>
        d.now = t ∧ Sent s.dev d (.msix r.owner r.irqVector) ∧ d.ring k = { r with irqPending := 0 }) ∧
      (i ∈ s.dev.sched.msixMasked → Completes (.irqCoalesceTimer k) s [.now, .rings, .sched] fun d =>
        d.now = t ∧ d.sched = { s.dev.sched with msixPending := addKey i s.dev.sched.msixPending } ∧ d.ring k = { r with irqPending := 0 }))

/-- Pairs stop and go on: EN enables or disables a pair with its owner and size, and one that an FLR stopped goes on from its lowest ACCEPTED entry.
ATTACH takes a disabled pair of a split device or a secondary over, and is counted elsewhere. An FLR stops the view's pairs, PERST_N low every pair; a change of the link, and
D3 of the PF. -/
def Obligations.PairsStopAndGoOn : Prop :=
  ∀ s : State,
    let rs := s.dev.rings
    let stoppedWhere (p : BitVec 6 → Prop) (d : Dev) : Prop :=
      ∀ k, (p (s.dev.ring k).owner → k.toNat ∈ Tbl.keys rs.pairs → d.ring k = { s.dev.ring k with stopped := true }) ∧
        (¬ p (s.dev.ring k).owner → d.ring k = s.dev.ring k)
    (∀ (q : Requester) (k : BitVec 9) (v : Word), s.dev.isPf q = true →
      let r := s.dev.ring k
      let o := v.extractLsb' 25 6
      let r' : Ring := if r.en = true then r else { r with owner := o, size := v.extractLsb' 16 4 }
      (r.en = true ∨ o = 0 ∨ o = r.owner ∨ (rs.pairs.filter fun x => x.2.owner == o).length < 8) →
      (v.getLsbD 31 = false → Completes (.pairEnable q k v) s [.rings] fun d =>
        d.rings = { rs with pairs := Tbl.set {} rs.pairs k.toNat { r' with en := false, phase := if r.phase = .mirror then .mirror else .off, held := 0 } }) ∧
      (v.getLsbD 31 = true → r.stopped = false → Completes (.pairEnable q k v) s [.events, .rings] fun d =>
        d.ring k = { r' with en := true, phase := if rs.recovering = true then .recover else .run, held := (d.ring k).held }) ∧
      (v.getLsbD 31 = true → r.stopped = true → Completes (.pairEnable q k v) s [.out, .events, .rings, .sched] fun d =>
        let y := d.ring k
        OnTheWay d 772 ∧ y.en = true ∧ y.stopped = false ∧ y.nextseq = r.nextseq ∧
        (y.fetch, y.parity) = match r.window.find? (fun e => e.accept && e.phase == .accepted) with
          | some e => (BitVec.ofNat 12 e.slot, e.par) | none => (r.fetch, r.parity))) ∧
    (∀ (q : Requester) (k : BitVec 9), s.dev.isPf q = true → (s.dev.ring k).en = false →
      (s.dev.link.mirror = .split ∨ s.dev.link.mirror = .paired ∧ s.dev.link.secondary = true) → s.dev.link.await = [] →
      Completes (.attach q k) s [.out, .events, .rings, .sched] fun d =>
        let r := s.dev.ring k
        let y := d.ring k
        OnTheWay d 772 ∧ y.en = true ∧ y.phase = .run ∧ y.fetch = r.fetch ∧ y.nextseq = r.nextseq ∧
        (rs.linkUp = true → ∀ e ∈ r.window.takeWhile (fun e => e.phase == .completed),
          Output.hostWrite (r.cqbase + BitVec.ofNat 64 (32 * e.slot)) (recordBytes e.record e.par) ∈ d.out)) ∧
    (∀ (q : Requester) (k : BitVec 9), s.dev.isPf q = true →
      ((s.dev.ring k).en = true ∨ ¬ (s.dev.link.mirror = .split ∨ s.dev.link.mirror = .paired ∧ s.dev.link.secondary = true)) →
      Completes (.attach q k) s [.hub] fun d => d.hub = { s.dev.hub with ignored := bumpAt s.dev.hub.ignored 1 }) ∧
    (∀ view : BitVec 6, Completes (.flr view) s [.rings] fun d =>
      stoppedWhere (fun o => o = view) d ∧ d.rings = { rs with pairs := d.rings.pairs }) ∧
    (s.dev.power.perst = true → Completes (.perstN false) s [.events, .rings, .sched, .power] fun d =>
      stoppedWhere (fun _ => True) d ∧ d.rings = { rs with pairs := d.rings.pairs, linkUp := false, d3 := false } ∧
      d.sched = { s.dev.sched with msixPending := [], msixMasked := [] } ∧ d.power = { s.dev.power with perst := false } ∧
      (rs.linkUp = true → Raised s.dev d 768) ∧ (rs.linkUp = false → d.events = s.dev.events)) ∧
    (Completes (.perstN true) s [.power] fun d => d.power = { s.dev.power with perst := true }) ∧
    (∀ x : PcieLink, let ok := 3 ≤ x.gen ∧ x.gen ≤ 5 ∧ (x.width = 16 ∨ x.width = 8 ∨ x.width = 4)
      Completes (.pcieLinkChange x) s [.events, .rings] fun d => Raised s.dev d 768 ∧
        (ok → d.rings = { rs with linkUp := x.up, linkGen := x.gen, linkWidth := x.width }) ∧ (¬ ok → d.rings = { rs with linkUp := x.up })) ∧
    (∀ d3 : Bool, Completes (.pfPowerStateChange d3) s [.rings] fun d => d.rings = { rs with d3 })

/-- Operations that act at a boundary are checked as they start. FUNC_ADMIT asks the devices of its OUT bindings first; it and FUNC_MIGRATE reserve their rooms, which go under threshold hold
while they are written, or complete with the refusal; FUNC_RETIRE, PARAM_AT, ROUTE_AT, MIRROR_FORM, MIRROR_DISSOLVE and a timed ACQ_ARM wait, or
complete with theirs (behind an earlier change of the same object the boundary alone judges them); IMAGE_APPLY is ready, and firmware loads into the standby pair. -/
def Obligations.OperationsWaitForTheirBoundary : Prop :=
  ∀ (s : State) (x : DescRef) (e : RetEntry),
    let w := e.desc
    let started := s.dev.start x
    let ends (c : Instr) (status detail info0 info1 : Nat) : Prop :=
      Completes c s c.parts fun d =>
        CompletedWith d x { seq := e.seq, status, detail, opcode := descOpcode w, info0, info1, beat := s.dev.time.n } ∧
        d.funcs = s.dev.funcs ∧ d.net = s.dev.net ∧ d.acq = s.dev.acq
    let refused (c : Instr) (n : Nak) : Prop := ends c n.status n.detail (n.vroom + n.index * 65536) (n.ikind + n.bp * 256)
    let waits (c : Instr) : Prop := Completes c s [.rings] fun d => d.rings = started.rings
    let underHold (places : List Place) (d : Dev) : Prop := ∀ r, d.room r =
      if (places.any fun p => p.room == r) = true then { s.dev.room r with thresh := true, power := if (s.dev.room r).power = 0 then 1 else (s.dev.room r).power }
      else s.dev.room r
    (∀ args, CanRun s.dev x 0x10 e → e.args = some args →
      let body := (s.dev.stg (dfld w 0x18 1)).body
      let a : Ask := { fid := BitVec.ofNat 16 (s.dev.admitId w), r := dfld w 0x19 1, owner := BitVec.ofNat 7 (dfld w 0x1B 1),
                       pool := if (w.extractLsb' 208 1) = 1 then anyPool else leAt args 0x1500 32, obj := parseObj body, ends := parseEnds args,
                       answers := s.dev.link.queries.filterMap fun q => if q.desc = x then q.answer.map (q.bind, ·) else none }
      let result := s.dev.admission body a
      let asks : Prop := a.unanswered ≠ [] ∧ ((∃ y, result = .ok y) ∨ ∃ n, result = .error n ∧ n.status = 0x11 ∧ n.detail = 0x0A)
      let asked := a.unanswered.filter fun b => !(s.dev.link.queries.any fun q => q.desc == x && q.bind == b.num)
      let query (b : BindRec) : RemoteQuery :=
        let dev := (Tbl.get (0 : BitVec 64) a.ends.remotes b.num).extractLsb' 53 11
        { desc := x, bind := b.num, dev, answer := if dev ≠ s.dev.link.devid ∧ s.dev.routeTo dev = none then some false else none }
      (asks → Completes (.funcAdmit x) s [.out, .events, .link] fun d => d.link.queries = s.dev.link.queries ++ asked.map query) ∧
      (∀ n, ¬ asks → result = .error n → refused (.funcAdmit x) n) ∧
      (∀ places rs, ¬ asks → result = .ok (places, rs) → Completes (.funcAdmit x) s [.free, .rooms, .funcs, .net, .link, .loader, .rings] fun d =>
        let gen := s.dev.loader.gen + 1
        d.funcs = (s.dev.funcs.filter fun f => f.id != a.fid) ++
          [{ id := a.fid, obj := a.obj, r := a.r, owner := a.owner, gen, budget := budgetOf a.obj, places, ends := a.ends,
             hash := sha3 ((s.dev.stg (dfld w 0x18 1)).head.take 512) }] ∧
        d.link = { s.dev.link with queries := s.dev.link.queries.filter (·.desc != x) } ∧
        d.loader = { s.dev.loader with gen } ∧ d.net = { s.dev.net with reservations := s.dev.net.reservations ++ rs } ∧
        d.rings = started.rings ∧ underHold places d)) ∧
    (CanRun s.dev x 0x11 e →
      (started.waitsFor e = false → s.dev.namedFunc w = none → ends (.funcRetire x) 5 4 0 0) ∧
      ((started.waitsFor e = true ∨ (s.dev.namedFunc w).isSome = true) → waits (.funcRetire x))) ∧
    (∀ args f, CanRun s.dev x 0x12 e → e.args = some args → s.dev.namedFunc w = some f → s.dev.func? f.id = some f →
      let set := dfld w 0x1A 1 == 1
      let rep := dfld w 0x1B 1
      let parts := migParts f set rep
      let sources := f.places.filter fun p => decide ((p.set, p.rep) ∈ parts)
      let pool := started.poolRooms (if (w.extractLsb' 232 1) = 1 then anyPool else leNat args)
      (set = true ∧ f.obj.dual = false ∨ rep ≠ 0xFF ∧ f.r ≤ rep → ends (.funcMigrate x) 5 4 0 0) ∧
      (¬ (set = true ∧ f.obj.dual = false ∨ rep ≠ 0xFF ∧ f.r ≤ rep) →
        (pool.length < sources.length → refused (.funcMigrate x) { status := 0x11, detail := 3 }) ∧
        (∀ n, sources.length ≤ pool.length → started.bindUp f.obj parts (sourceGroups f sources) 256 pool = .error n → refused (.funcMigrate x) n) ∧
        (∀ b v j, sources.length ≤ pool.length → started.bindUp f.obj parts (sourceGroups f sources) 256 pool = .ok b →
          started.reserveXch f.id f.obj b.places true parts = .error (v, j) → refused (.funcMigrate x) (linkNak v j)) ∧
        (∀ b rs, sources.length ≤ pool.length → started.bindUp f.obj parts (sourceGroups f sources) 256 pool = .ok b →
          started.reserveXch f.id f.obj b.places true parts = .ok rs → Completes (.funcMigrate x) s [.rooms, .funcs, .net, .loader, .rings] fun d =>
            d.func? f.id = some { f with migration := some { desc := x, set, rep := if rep = 0xFF then none else some rep, k := dfld w 0x1C 1,
                                                             gen := f.gen + 1, places := b.places, sources } } ∧
            d.net = { s.dev.net with reservations := s.dev.net.reservations ++ rs } ∧ d.rings = started.rings ∧ underHold b.places d))) ∧
    (∀ args, CanRun s.dev x 0x13 e → e.args = some args →
      (∀ f, s.dev.namedFunc w = some f → paramOk f w = true → waits (.paramAt x)) ∧ (started.waitsFor e = true → waits (.paramAt x)) ∧
      (started.waitsFor e = false → (∀ f, s.dev.namedFunc w = some f → paramOk f w = false) → ends (.paramAt x) 5 4 0 0)) ∧
    (CanRun s.dev x 0x22 e →
      ((started.waitsFor e = true ∨ started.routeOk w = true) → waits (.routeAt x)) ∧
      (started.waitsFor e = false → started.routeOk w = false → ends (.routeAt x) 0x11 0x0A 0 0)) ∧
    (CanRun s.dev x 0x31 e →
      let k := dfld w 0x18 1
      let st := s.dev.stg k
      let h := st.head.take 512
      let ready (d : Dev) : Prop := d.entry? x = some { e with started := true, ready := some s.dev.now }
      (imgSecver h < s.dev.arbCount (imgKeyid h) → ends (.imageApply x) 0x24 1 0xFFFFFFFF k) ∧
      (s.dev.arbCount (imgKeyid h) ≤ imgSecver h →
        (st.kind ≠ 3 → Completes (.imageApply x) s [.rings] ready) ∧
        (st.kind = 3 → Completes (.imageApply x) s [.rings, .cores] fun d =>
          let ho : Handover := { desc := x, slot := BitVec.ofNat 3 k, secver := BitVec.ofNat 8 (imgSecver h),
                                 version := Config.firmwareVersion st.body, header := sha3 h }
          ready d ∧ d.cores = { s.dev.cores with sb := .loading, handover := false, pendingFw := some ho, sbSecver := ho.secver,
                                                 sbVersion := ho.version, sbHash := ho.header }))) ∧
    (CanRun s.dev x 0x70 e →
      (∀ partner : List (FuncId × BitVec 256), dfld w 0x18 1 = 0 → Completes (.mirrorForm x partner) s [.link, .rings] fun d =>
        d.entry? x = some { e with started := true } ∧ d.link = { s.dev.link with partnerList := partner }) ∧
      (dfld w 0x18 1 = 1 → waits (.mirrorDissolve x))) ∧
    (∀ args, CanRun s.dev x 0x50 e → e.args = some args →
      let us := e.units
      let m := ((us.find? (·.2.master)).map (·.1)).getD 0
      (∀ st k, s.dev.armRefusal us = some (st, k) → ends (.acqArm x) st k 0 0) ∧
      (s.dev.armRefusal us = none → descTimed w = true → waits (.acqArm x)) ∧
      (s.dev.armRefusal us = none → descTimed w = false → e.apply = none → Completes (.acqArm x) s (Instr.parts (.acqArm x)) fun d =>
        CompletedWith d x { seq := e.seq, opcode := descOpcode w, beat := s.dev.time.n } ∧
        (∀ u a, (u, a) ∈ us →
          d.unit u = { phase := .armed, master := a.master, gmaster := BitVec.ofNat 4 m, arm := a, drop := (s.dev.unit u).drop }) ∧
        (∀ u, (∀ a, (u, a) ∉ us) → d.unit u = s.dev.unit u)))

/-- Operations that complete at once. NOP and FENCE in their turn; FLOW_OPEN opens a flow that breaks no rule and FLOW_CLOSE closes an open one;
IMAGE_STAGE takes a slot's bytes, whose frames go to their places in the staging area (log entry 191), or empties it; CELLAR_COPY moves the lines of an
unsealed region, and a write of host memory fails while the link is down (log entry 186); ABORT undoes an abortable target that has not
committed, or says why it has no effect. -/
def Obligations.OperationsComplete : Prop :=
  ∀ (s : State) (x : DescRef) (e : RetEntry),
    let w := e.desc
    let r := s.dev.ring x.ring
    let ps : List Part := [.out, .events, .link, .rings, .sched]
    let record (status detail info0 info1 : Nat) (beat : Beat) : Completion :=
      { seq := e.seq, status, detail, opcode := descOpcode w, info0, info1, beat }
    let done (d : Dev) (status detail info0 info1 : Nat) : Prop := CompletedWith d x (record status detail info0 info1 s.dev.time.n)
    (OpenDesc s.dev x e → e.accept = true → e.phase = .committed → descOpcode w = 0 → descFence w = false → e.apply = none →
      (∀ y ∈ r.window.takeWhile (fun y => y.slot != e.slot), y.phase ≠ .accepted) →
      Completes (.nop x) s ps fun d => CompletedWith d x (record 0 0 0 0 e.beat)) ∧
    (CanRun s.dev x 0x01 e →
      let named := (s.dev.ring (BitVec.ofNat 9 (dfld w 0x18 2))).postedSeq (BitVec.ofNat 64 (dfld w 0x20 8))
      named = true → Completes (.fence x) s ps fun d => done d 0 0 0 0) ∧
    (∀ bs, CanRun s.dev x 0x20 e → e.args = some bs →
      let f := parseFlow bs
      let i := f.flow + 1024 * f.dir
      let barred := r.owner ≠ 0 ∧ s.dev.ownsRecord r.owner f = false
      let anew (y : Egress) : Egress := { y with queue := [], holdLine := [], committed := false, lineNow := [], lineAt := (0, 0), chStatus := [], blockPos := 0,
                                                 preY := 0, black := false, emptyFrom := 0 }
      (barred → Completes (.flowOpen x) s ps fun d => done d 5 3 0 0) ∧
      (∀ k, ¬ barred → s.dev.flowRefusal f = some k → Completes (.flowOpen x) s ps fun d => done d 0x11 k 0 0) ∧
      (¬ barred → s.dev.flowRefusal f = none → Completes (.flowOpen x) s [.out, .events, .media, .link, .rings, .sched] fun d =>
        let fresh : Flow := { opened := true, record := f, owner := r.owner.setWidth 7, cnt := (s.dev.flow i).cnt, since := s.dev.now }
        done d 0 0 0 0 ∧ d.media = { s.dev.media with
          flows := Tbl.set {} s.dev.media.flows i fresh
          egress := if f.dir = 1 then Tbl.set {} s.dev.media.egress f.flow (anew (s.dev.egr f.flow)) else s.dev.media.egress })) ∧
    (CanRun s.dev x 0x21 e →
      let n := dfld w 0x1A 2 % 1024
      let i := n + 1024 * (if dfld w 0x18 1 = 1 then 1 else 0)
      ((s.dev.flow i).opened = false → Completes (.flowClose x) s ps fun d => done d 2 0 0 0) ∧
      ((s.dev.flow i).opened = true → Completes (.flowClose x) s [.out, .events, .media, .link, .rings, .sched] fun d =>
        done d 0 0 0 0 ∧ (d.flow i).opened = false ∧ (∀ j, j ≠ i → d.flow j = s.dev.flow j) ∧
        (i = n → d.media.groups = s.dev.media.groups.filter fun g => g.src != BitVec.ofNat 32 (2 ^ 28 + n)) ∧
        (i ≠ n → (d.egr n).queue = [] ∧ (d.egr n).holdLine = [] ∧ (d.egr n).committed = false ∧ (d.egr n).chStatus = [] ∧ ∀ m, m ≠ n → d.egr m = s.dev.egr m))) ∧
    (∀ bs, CanRun s.dev x 0x30 e → e.args = some bs →
      let k := dfld w 0x18 1
      let first := w.extractLsb' 200 1 = 1
      let last := w.extractLsb' 201 1 = 1
      let fed := s.dev.stageFeed k (if w.extractLsb' 200 1 = 1 then { phase := .receiving } else s.dev.stg k) bs
      let l := s.dev.loader
      let used := (s.dev.start x).slotInUse k
      let ps' : List Part := [.out, .events, .link, .loader, .rings, .sched]
      let ps'' : List Part := [.free, .out, .events, .cellar, .link, .loader, .rings, .sched, .strong]
      let frames := fed.1.fresh.zip (fed.1.places.drop (fed.1.frames - fed.1.fresh.length))
      let stored (d : Dev) : Prop := l.stgCellar = false → d.free = s.dev.free ∧ d.cellar = s.dev.cellar ∧
        d.strong = { s.dev.strong with sram := frames.foldl (fun m (y : Bytes × Nat) => m.put (48 * 2 ^ 20 + 4096 * y.2) y.1) s.dev.strong.sram }
      (first → used = true → Completes (.imageStage x) s ps fun d => done d 0x11 0x32 0xFFFFFFFF 0x7F00) ∧
      (¬ first → (s.dev.stg k).phase ≠ .receiving → Completes (.imageStage x) s ps fun d => done d 0x20 2 0xFFFFFFFF k) ∧
      ((first ∧ used = false ∨ ¬ first ∧ (s.dev.stg k).phase = .receiving) →
        (fed.2 = none → ¬ last → Completes (.imageStage x) s ps'' fun d =>
          done d 0 0 0 0 ∧ stored d ∧ (fed.1.phase = .receiving → d.loader = { l with slots := Tbl.set {} l.slots k { fed.1 with fresh := [] } })) ∧
        (fed.2 = none → last → stageEnd fed.1 = none → s.dev.bodyFault fed.1 = none → Completes (.imageStage x) s ps'' fun d =>
          let y : Staging := { fed.1 with phase := .verified, fresh := [] }
          done d 0 0 0 0 ∧ stored d ∧
          d.loader = { l with slots := Tbl.set {} l.slots k y, firmware := if fed.1.kind = 3 then y else l.firmware }) ∧
        (∀ bad, fed.2 = some bad → bad.status ≠ 0x11 → Completes (.imageStage x) s ps' fun d =>
          done d bad.status bad.detail bad.frame k ∧
          d.loader = { l with slots := Tbl.set {} l.slots k { status := bad.status, detail := bad.detail, failFrame := bad.frame },
                              cnt := bumpAt l.cnt 3 }))) ∧
    (CanRun s.dev x 0x40 e →
      let c := s.dev.cellar
      let q := BitVec.ofNat 9 (dfld w 0x1A 2)
      let line := dfld w 0x28 8 / 128
      let n := dfld w 0x1C 4
      let host (l : Nat) : BitVec 64 := BitVec.ofNat 64 (dfld w 0x20 8 + 128 * (l - line))
      ∀ ecc : List LineEcc,
      (dfld w 0x18 1 = 1 → (∀ f ∈ ecc, f = {}) →
        (∀ l, line ≤ l → l < line + n → PlainLine s.dev l ∧ ∃ m y, c.permits .copy q l .copyOut false = some (m, y) ∧ y.sealed_ = false) →
        Completes (.cellarCopy { desc := x, ecc }) s ps fun d =>
          done d 0 0 0 n ∧ (s.dev.rings.linkUp = true → ∀ l, line ≤ l → l < line + n → Output.hostWrite (host l) (leBytes 128 (c.raw l).toNat) ∈ d.out) ∧
          (s.dev.rings.linkUp = false → 1 ≤ n → OnTheWay d 771)) ∧
      (∀ m y, dfld w 0x18 1 = 1 → 1 ≤ n → c.permits .copy q line .copyOut false = some (m, y) → y.sealed_ = false → c.visible line none = [] →
        (ecc.headD {}).uncorrectable = true → Completes (.cellarCopy { desc := x, ecc }) s [.free, .out, .events, .cellar, .link, .rings, .sched] fun d => done d 0x40 0 0 0) ∧
      (∀ bs, dfld w 0x18 1 = 0 → e.args = some bs → bs.length = 128 * n → c.clearing = false →
        (∀ l, line ≤ l → l < line + n → ∃ m y, c.permits .copy q l .copyIn true = some (m, y) ∧ (c.region m).sealed_ = false) →
        Completes (.cellarCopy { desc := x, ecc }) s [.out, .events, .cellar, .link, .rings, .sched] fun d =>
          done d 0 0 0 n ∧ d.cellar = { c with mem := d.cellar.mem, unread := d.cellar.unread } ∧ (∀ y ∈ d.cellar.unread, y ∈ c.unread) ∧
          ∀ a : Nat, Memory.read d.cellar.mem a =
            if 128 * line ≤ a ∧ a < 128 * (line + n) then bs.getD (a - 128 * line) 0 else Memory.read c.mem a) ∧
      (∀ bs, dfld w 0x18 1 = 0 → e.args = some bs → 1 ≤ n → bs.length = 128 * n → c.permits .copy q line .copyIn true = none →
        Completes (.cellarCopy { desc := x, ecc }) s [.out, .events, .cellar, .link, .rings, .sched] fun d =>
          done d 0x40 0 0 0 ∧ OnTheWay d 446 ∧ d.cellar = { c with cnt := bumpAt c.cnt 2 })) ∧
    (CanRun s.dev x 0x7F e →
      let k := BitVec.ofNat 9 (dfld w 0x18 2)
      let seq := BitVec.ofNat 64 (dfld w 0x20 8)
      let target (t : RetEntry) : Prop :=
        (s.dev.ring k).window.find? (fun t => t.accept && t.seq == seq) = some t ∧ (k ≠ x.ring ∨ t.slot ≠ x.slot.toNat)
      let noEffect (why : Nat) : Prop := Completes (.abort x) s ps fun d => done d 2 0 why 0
      ((s.dev.ring k).window.find? (fun t => t.accept && t.seq == seq) = none → noEffect (if seq < (s.dev.ring k).nextseq then 3 else 1)) ∧
      (∀ t, target t → t.phase = .completed → noEffect 3) ∧
      (∀ t, target t → t.phase = .committed → noEffect 0) ∧
      (∀ t, target t → t.phase = .accepted → descAbortable t.desc = false → noEffect 2) ∧
      (∀ t, target t → t.phase = .accepted → descAbortable t.desc = true →
        let y : DescRef := { ring := k, slot := BitVec.ofNat 12 t.slot }
        (∀ a ∈ s.dev.link.await, a.desc ≠ y) → Completes (.abort x) s (Instr.parts (.abort x)) fun d =>
          done d 0 0 0 0 ∧
          CompletedWith d y { seq := t.seq, status := 1, opcode := descOpcode t.desc, info1 := s.dev.abortInfo y t, beat := s.dev.time.n } ∧
          (descOpcode t.desc = 0x61 → d.time = { s.dev.time with slips := s.dev.time.slips.filter fun z => z.desc != y }) ∧
          (descOpcode t.desc = 0x30 → d.stg (dfld t.desc 0x18 1) = {}) ∧
          (descOpcode t.desc = 0x43 → (∀ p ∈ s.dev.cellar.regions, ¬ (p.2.exhausting = true ∧ p.2.autosweep = true)) → ∀ n, let z := Tbl.get ({} : SweepEngine) s.dev.cellar.sweeps n
            Tbl.get {} d.cellar.sweeps n = if z.desc = some y then { z with phase := .idle, desc := none } else z) ∧
          (∀ n r k, descOpcode t.desc = 0x43 → (s.dev.cellar.regions.filter fun p => p.2.exhausting && p.2.autosweep) = [(n, r)] →
            k < 4 → (Tbl.get ({} : SweepEngine) s.dev.cellar.sweeps k).desc = some y →
            (∀ p ∈ s.dev.cellar.sweeps, p.2.phase ≠ .idle → p.2.startup = false → p.2.region.toNat = n → p.2.desc = some y) →
            OnTheWay d 441 ∧ ∃ j, let z := Tbl.get ({} : SweepEngine) d.cellar.sweeps j
              z.phase ≠ .idle ∧ z.region = BitVec.ofNat 8 n ∧ z.tgt = r.pending ∧ z.exhaust = true) ∧
          (∀ z, descOpcode t.desc = 0x42 → s.dev.cellar.retires.find? (fun z => z.desc == y) = some z →
            d.cellar = { s.dev.cellar with keys := Tbl.set {} s.dev.cellar.keys z.slot.toNat { s.dev.cellar.key z.slot with phase := z.was },
                                           retires := s.dev.cellar.retires.erase z })))

/-- FUSE_CLASSIFY takes the first occurrence of the reorder window: below N it is counted, and logged where LOG is set; at N the source latches, the
latch is logged, and ISOLATE_ROOM, a force, or ROLLBACK_BEAT acts. FUSE_ACK ends the latch of a source that is not live, and refuses any other.
FUSE_RELEASE opens the box with window counts empty, and each source that is live counts one occurrence, a user event as its edge raises it. -/
def Obligations.FuseBoxLatchesAndReleases : Prop :=
  ∀ s : State,
    let fz := s.dev.fuse
    let logged (kind ev : Nat) (ts : Instant) (count react : Nat) (beat : Beat) (detail : BitVec 64) (f : Fuse) (d : Dev) : Prop :=
      (d.strong, d.fuse) =
        if (if kind = 0 then 64 else 0) < fz.logFree then
          let sram := s.dev.strong.sram.put (logAddr fz.wp) (logBytes kind ev ts count react beat detail)
          ({ s.dev.strong with sram := sram }, { f with wp := fz.wp + 1 })
        else (s.dev.strong, { f with cnt := bumpAt f.cnt 1 })
    let sources (ev : Nat) (z : FuseSrc) (d : Dev) : Prop := d.src ev = z ∧ ∀ j, j ≠ ev → d.src j = s.dev.src j
    (∀ (o : Occ) (rest : List Occ), fz.window = o :: rest →
      let ev := o.ev.toNat
      let y := (s.dev.src ev).add o.ts
      let n := y.count o.ts
      let re := y.react &&& reactMask ev
      let t := max s.dev.now (o.ts + 1000 * ns)
      let latch : FuseSrc := { y with latched := true, held := re &&& 0x9C, heldEg := y.egmask }
      let latches (ps : List Part) (held : BitVec 8) (Q : Dev → Prop) : Prop :=
        y.latched = false → y.threshold ≤ n → re &&& 0xFE = held → Completes .fuseClassify s ([.now, .fuse, .strong] ++ ps) fun d =>
          d.now = t ∧ sources ev latch d ∧
          logged 1 ev o.ts n re.toNat o.beat o.detail { fz with window := rest, srcs := d.fuse.srcs, forces := d.fuse.forces, exits := d.fuse.exits } d ∧ Q d
      (y.latched = false → n < y.threshold → re.getLsbD 0 = false → Completes .fuseClassify s [.now, .fuse] fun d =>
        d.now = t ∧ sources ev y d ∧ d.fuse = { fz with window := rest, srcs := d.fuse.srcs }) ∧
      (y.latched = false → n < y.threshold → re.getLsbD 0 = true → Completes .fuseClassify s [.now, .fuse, .strong] fun d =>
        d.now = t ∧ sources ev y d ∧ logged 0 ev o.ts n 1 o.beat o.detail { fz with window := rest, srcs := d.fuse.srcs } d) ∧
      latches [] 0 (fun d => d.fuse.forces = fz.forces ∧ d.fuse.exits = fz.exits) ∧
      latches [.rooms, .funcs] 0x08 (fun d =>
        let r : RoomId := BitVec.ofNat 8 ev
        d.room r = { s.dev.room r with isolated := true } ∧ OtherRooms r s.dev d ∧ d.fuse.forces = fz.forces ∧
        d.fuse.exits = fz.exits.filter (fun x => x.room != r)) ∧
      (y.beatcls = true → s.dev.time.run = true → latches [] 0x04 (fun d => d.fuse.forces = fz.forces ++ [{ src := o.ev }] ∧ d.fuse.exits = fz.exits)) ∧
      (∀ f, s.dev.admitted = [f] → f.since ≤ o.beat → s.dev.time.run = true → s.dev.inScope ev f = true → o.beat = s.dev.time.n → f.decided = none →
        latches [.funcs] 0x20 (fun d => d.func? f.id = (s.dev.func? f.id).map (fun g => { g with ordered := true }) ∧ d.fuse.forces = fz.forces))) ∧
    (∀ (q : Requester) (v : Word), s.dev.isPf q = true → v.getLsbD 31 = true →
      let ev := v.toNat % 1024
      let x := s.dev.src ev
      let n := x.count s.dev.now
      ((x.latched = false ∨ s.dev.srcLive ev = true) → Completes (.fuseAck q v) s [.fuse, .strong] fun d =>
        logged 3 ev s.dev.now n 0 s.dev.time.n 0 { fz with cnt := bumpAt fz.cnt 0 } d) ∧
      (x.latched = true → s.dev.srcLive ev = false →
        let cleared (d : Dev) : Prop := sources ev { x with latched := false, held := 0, heldEg := 0 } d ∧
          d.fuse.forces = fz.forces.filter fun p => p.src.toNat != ev
        let noted (d : Dev) : Prop :=
          logged 2 ev s.dev.now n 0 s.dev.time.n 0 { fz with srcs := d.fuse.srcs, forces := d.fuse.forces, exits := d.fuse.exits } d
        (x.held &&& 0x9C = 0 → Completes (.fuseAck q v) s [.fuse, .strong] fun d => cleared d ∧ noted d ∧ d.fuse.exits = fz.exits) ∧
        (x.held &&& 0x9C = 0x08 → s.dev.time.run = true → Completes (.fuseAck q v) s [.fuse, .strong] fun d =>
          cleared d ∧ noted d ∧ d.fuse.exits = fz.exits ++ [{ room := BitVec.ofNat 8 ev }]) ∧
        (x.held &&& 0x9C = 0x08 → s.dev.time.run = false → Completes (.fuseAck q v) s [.rooms, .fuse, .strong] fun d =>
          let r : RoomId := BitVec.ofNat 8 ev
          cleared d ∧ noted d ∧ d.fuse.exits = fz.exits ∧ d.room r = { s.dev.room r with isolated := false } ∧ OtherRooms r s.dev d))) ∧
    (fz.released = true → Completes .fuseRelease s [] fun d => d = s.dev) ∧
    (fz.released = false → Completes .fuseRelease s [.events, .fuse, .strong] fun d =>
      d.fuse.released = true ∧ d.fuse.forces = fz.forces ∧
      (∀ j, (d.src j).slices = [] ∧ (d.src j).latched = (s.dev.src j).latched ∧ (d.src j).held = (s.dev.src j).held ∧ (d.src j).react = (s.dev.src j).react) ∧
      (∀ ev, 896 ≤ ev → ev < 1024 → s.dev.liveStatus ev = some true → OnTheWay d ev) ∧ (∀ o ∈ s.dev.events, o ∈ d.events) ∧
      (∀ o, o ∈ d.fuse.window ↔ ∃ ev < 896, s.dev.liveStatus ev = some true ∧ o = { ev := BitVec.ofNat 10 ev, ts := s.dev.now, beat := s.dev.time.n }))

/-- Attestation and signed commands: ATT_REQ takes its snapshot at the next boundary, or at once while the generator stands; the signed report is
then ready. A command that breaks a check completes with its result and does nothing else; KEY_REVOKE, ARB_ADVANCE and DEBUG_UNLOCK act at once; each
completion raises EV0641 and draws a new nonce. -/
def Obligations.AttestationAndSignedCommands : Prop :=
  ∀ s : State,
    let g := s.dev.strong
    (∀ (q : Requester) (v : Word), s.dev.isPf q = true →
      let first : BitVec 9 := v.setWidth 9
      let asked : Strong := { g with attFirst := first, attBusy := true, attValid := false }
      (v.getLsbD 31 = false → Completes (.attReq q v) s [.strong] fun d => d.strong = { g with attFirst := first }) ∧
      (v.getLsbD 31 = true → g.attBusy = true → Completes (.attReq q v) s [.strong, .hub] fun d =>
        d.strong = { g with attFirst := first } ∧ d.hub = { s.dev.hub with ignored := bumpAt s.dev.hub.ignored 0xE }) ∧
      (v.getLsbD 31 = true → g.attBusy = false →
        let snap : Snapshot := { time := s.dev.now, beat := s.dev.time.n, list := [], nonce := g.attNonce, first := first.toNat, debugSeen := false }
        (s.dev.time.run = true → Completes (.attReq q v) s [.strong] fun d =>
          d.strong = { asked with attWaiting := true, attSnap := some snap }) ∧
        (s.dev.time.run = false → Completes (.attReq q v) s [.strong] fun d =>
          d.strong = { asked with attWaiting := false, attSnap := some { snap with list := g.measures, debugSeen := g.dbg.seen } }))) ∧
    (∀ sn : Snapshot, g.attSnap = some sn → g.attBusy = true → g.attWaiting = false → g.rngok = true → g.life ≠ .decommissioned →
      Completes .attReportReady s [.free, .events, .strong] fun d =>
        let body := s.dev.reportBody sn
        let report := body ++ Config.mldsaSign (if g.ml65 = true then 65 else 44) (seedOf (if g.ml65 = true then 2 else 1)) body (Config.random s.dev.free)
        let shown := report.take 8192
        Raised s.dev d 645 ∧ d.free = s.dev.free + 1 ∧
        d.strong = { g with attBusy := false, attValid := true, attSnap := none, attLen := BitVec.ofNat 14 shown.length, attBuf := d.strong.attBuf } ∧
        ∀ i, Memory.read d.strong.attBuf i = shown.getD i 0) ∧
    (∀ ok : SigOk,
      let pending (code : Nat) : Prop := g.cmdBusy = true ∧ g.rngok = true ∧ leAt g.cmdRun 4 1 = code
      let body (code : Nat) : Bytes := slice g.cmdRun 64 (cmdBodyLen code)
      let ended (h : Strong) (r : Nat) (d : Dev) : Prop :=
        d.free = s.dev.free + 1 ∧
        d.strong = { h with cmdBusy := false, cmdResult := BitVec.ofNat 8 r, cmdNonce := (Config.random s.dev.free).setWidth 128 }
      let ps : List Part := [.free, .events, .strong]
      (∀ code c, (code, c) ∈ [(1, Instr.provision ok), (2, .deploy ok), (3, .return_ ok), (4, .decommission ok), (5, .keyRevoke ok), (6, .arbAdvance ok),
          (7, .debugUnlock ok)] →
        pending code → s.dev.cmdCheck ok ≠ 0 → Completes c s ps fun d => ended g (s.dev.cmdCheck ok) d ∧ Raised s.dev d 641) ∧
      (pending 5 → s.dev.cmdCheck ok = 0 → Completes (.keyRevoke ok) s ps fun d =>
        let k := leAt (body 5) 0 1
        let y := Tbl.get ({} : OwnerKey) g.owner k
        ended { g with owner := Tbl.set {} g.owner k { y with revoked := true } } 0 d ∧ Raised s.dev d 641) ∧
      (pending 6 → s.dev.cmdCheck ok = 0 → Completes (.arbAdvance ok) s ps fun d =>
        let n : BitVec 8 := BitVec.ofNat 8 (leAt (body 6) 1 1)
        ended (if leAt (body 6) 0 1 = 0 then { g with arbFw := n } else { g with arbOwner := n }) 0 d ∧ Raised s.dev d 641) ∧
      (pending 7 → s.dev.cmdCheck ok = 0 → Completes (.debugUnlock ok) s ps fun d =>
        let open_ : Debug := { g.dbg with unlocked := true, scope := BitVec.ofNat 4 (leAt (body 7) 0 1), remain := BitVec.ofNat 24 (leAt (body 7) 1 3),
                                          unlockedSince := s.dev.now, seen := true }
        ended { g with dbg := open_ } 0 d ∧ OnTheWay d 641 ∧ OnTheWay d 642))

/-- Device life: PROVISION, DEPLOY, RETURN and DECOMMISSION blow their fuses and wipe the device, as a tamper sensor does, and the third locked debug
access; an unlock expires; the random source fails or recovers; banks of shared SRAM are switched off, or on and cleared, and one in use stays on. -/
def Obligations.DeviceLifeTamperAndSram : Prop :=
  ∀ s : State,
    let g := s.dev.strong
    (∀ ok : SigOk,
      let good (code : Nat) : Prop := g.cmdBusy = true ∧ g.rngok = true ∧ leAt g.cmdRun 4 1 = code ∧ s.dev.cmdCheck ok = 0
      let body := slice g.cmdRun 64 133
      let becomes (c : Instr) (f : Strong) : Prop := Completes c s c.parts fun d => ColdAfter s.dev d (f.wiped 5) s.dev.power
      (good 1 → becomes (.provision ok) { g with life := .provisioned, owner := provisionKeys body, ml65 := (leAt body 132 1).testBit 0,
                                                 plainkey := (leAt body 132 1).testBit 1 }) ∧
      (good 2 → becomes (.deploy ok) { g with life := .deployed }) ∧
      (good 3 → becomes (.return_ ok) { g with life := .returned, cycles := g.cycles + 1 }) ∧
      (good 4 → becomes (.decommission ok) { g with life := .decommissioned })) ∧
    (g.dbg.unlocked = true → Completes .debugUnlockExpiry s [.now, .events, .strong] fun d =>
      d.now = max s.dev.now (g.dbg.unlockedSince + g.dbg.remain.toNat * 10 ^ 9 * ns) ∧ Raised s.dev d 642 ∧
      d.strong = { g with dbg := { g.dbg with unlocked := false, scope := 0, remain := 0 } }) ∧
    ((g.life = .deployed ∨ g.life = .returned) →
      (g.dbg.refused ≠ 2 → Completes .lockedDebugAccess s [.events, .strong] fun d =>
        Raised s.dev d 642 ∧ d.strong = { g with dbg := { g.dbg with refused := g.dbg.refused + 1 } }) ∧
      (g.dbg.refused = 2 → Completes .lockedDebugAccess s (Instr.parts .lockedDebugAccess) fun d => ColdAfter s.dev d (g.wiped 4) s.dev.power)) ∧
    (∀ t : Tamper, Completes (.tamperTrip t) s (Instr.parts (.tamperTrip t)) fun d =>
      ColdAfter s.dev d (g.wiped (match t with | .voltage => 0 | .clock => 1 | .temperature => 2 | .glitch => 3 | .intrusion => 4)) s.dev.power) ∧
    (∀ ok : Bool, g.rngok ≠ ok → Completes (.rngHealthFail ok) s [.events, .strong] fun d => Raised s.dev d 643 ∧ d.strong = { g with rngok := ok }) ∧
    (∀ (q : Requester) (v : Word), s.dev.isPf q = true → s.dev.power.cold = false → s.dev.onlyBlock = none →
      let held := s.dev.req q
      let bank (a : Nat) : Nat := a / 2 ^ 20
      let switches (c : Instr) (mine : Nat → Bool) (want : BitVec 64) : Prop := Completes c s [.hub, .strong] fun d =>
        let on (b : Nat) : Bool := if mine b = true then want.getLsbD b || g.sram.pwr.getLsbD b && s.dev.bankInUse b else g.sram.pwr.getLsbD b
        let fresh (b : Nat) : Bool := on b && !g.sram.pwr.getLsbD b
        d.strong = { g with sram := { g.sram with mem := d.strong.sram.mem, pwr := d.strong.sram.pwr, clearing := d.strong.sram.clearing } } ∧
        (∀ b < 64, d.strong.sram.pwr.getLsbD b = on b ∧
          d.strong.sram.clearing.getLsbD b = (fresh b || g.sram.clearing.getLsbD b && (on b || !g.sram.pwr.getLsbD b))) ∧
        ∀ a, Memory.read d.strong.sram.mem a = if fresh (bank a) = true then 0 else Memory.read g.sram.mem a
      Completes (.sramBankPower q false v) s [.hub] (fun d => d.req q = { held with wrTag := some 0xE000C4, wrVal := v }) ∧
      (held.wrTag = some 0xE000C4 → switches (.sramBankPower q true v) (fun b => decide (b < 56)) (v ++ held.wrVal)) ∧
      (held.wrTag ≠ some 0xE000C4 → switches (.sramBankPower q true v) (fun b => decide (32 ≤ b ∧ b < 56)) (v ++ (0 : Word)))) ∧
    (∀ b : BitVec 6, Completes (.sramClearDone b) s [.strong] fun d =>
      d.strong = { g with sram := { g.sram with clearing := g.sram.clearing &&& ~~~((1 : BitVec 64) <<< b.toNat) } })

/-- The governor and its sensors: POWER_CFG is taken whole where it keeps every rule, else counted; ten readings above the ceiling in a row set
CEILOVER; a wing's voltage moves by 5 mV at most between 700 and 850 mV, and a regulator in fault is set to 850 mV until a retry succeeds; a sensor's
temperature sets HOT and OVER. -/
def Obligations.GovernorFollowsItsSensors : Prop :=
  ∀ s : State,
    let p := s.dev.power
    (∀ (q : Requester) (v : Word), s.dev.isPf q = true →
      let ceil : BitVec 9 := v.extractLsb' 0 9
      let hub : BitVec 9 := v.extractLsb' 16 9
      let ok : Prop := 150 ≤ ceil.toNat ∧ ceil.toNat ≤ 420 ∧ 60 ≤ hub.toNat ∧ hub.toNat ≤ 200 ∧ hub.toNat + 10 ≤ ceil.toNat ∧
        (ceil = p.ceil ∧ hub = p.hubres ∨ ∀ w < 4, s.dev.wingPeak w ≤ s.dev.ceilingOf ceil.toNat hub.toNat)
      (ok → Completes (.ceilingWrite q v) s [.power] fun d => d.power = { p with ceil, hubres := hub }) ∧
      (¬ ok → Completes (.ceilingWrite q v) s [.power] fun d => d.power = { p with cnt := bumpAt p.cnt 0 })) ∧
    (∀ total hub : BitVec 16,
      let above := if 10 * p.ceil.toNat < total.toNat then min 10 (p.above + 1) else 0
      let read : Power := { p with measTotal := total, measHub := hub, above }
      (10 * p.ceil.toNat < total.toNat → p.above < 9 → p.ceilOver = false → Completes (.powerReading total hub) s [.power] fun d => d.power = read) ∧
      (10 * p.ceil.toNat < total.toNat → 9 ≤ p.above → p.ceilOver = false → Completes (.powerReading total hub) s [.events, .cellar, .power] fun d =>
        d.power = { read with ceilOver := true } ∧ OnTheWay d 704) ∧
      (10 * p.ceil.toNat < total.toNat → p.ceilOver = true → Completes (.powerReading total hub) s [.power] fun d => d.power = read) ∧
      (total.toNat ≤ 10 * p.ceil.toNat → p.ceilOver = true → Completes (.powerReading total hub) s [.events, .cellar, .power] fun d =>
        d.power = { read with ceilOver := false } ∧ OnTheWay d 704) ∧
      (total.toNat ≤ 10 * p.ceil.toNat → p.ceilOver = false → Completes (.powerReading total hub) s [.power] fun d => d.power = read)) ∧
    (∀ (w : BitVec 2) (meas : BitVec 16) (ack : Bool),
      let cur := (p.setpoint w).toNat
      let due := Tbl.get 0 p.lastVstep w.toNat + 100000 * ns ≤ s.dev.now
      let asked := max 700 (min 850 (Config.vcore s.dev.free))
      Tbl.get false p.vfault w.toNat = false →
      (due → ack = true → 700 ≤ cur → cur ≤ 850 → ∀ want, want = (if cur < asked then min asked (cur + 5) else max asked (cur - 5)) →
        meas.toNat ≤ want + 20 → want ≤ meas.toNat + 20 → Completes (.vcoreStep w meas ack) s [.free, .power] fun d =>
          d.free = s.dev.free + 1 ∧ 700 ≤ want ∧ want ≤ 850 ∧ want ≤ cur + 5 ∧ cur ≤ want + 5 ∧
          d.power = { p with vset := Tbl.set 850 p.vset w.toNat (BitVec.ofNat 16 want), vmeas := Tbl.set 0 p.vmeas w.toNat meas,
                             lastVstep := if want = cur then p.lastVstep else Tbl.set 0 p.lastVstep w.toNat s.dev.now }) ∧
      (ack = false → Completes (.vcoreStep w meas ack) s [.free, .events, .power] fun d =>
        Raised s.dev d 707 ∧
        d.power = { p with vset := Tbl.set 850 p.vset w.toNat 850, vmeas := Tbl.set 0 p.vmeas w.toNat 0, avsFault := true,
                           vfault := Tbl.set false p.vfault w.toNat true, lastVstep := Tbl.set 0 p.lastVstep w.toNat s.dev.now })) ∧
    (∀ (w : BitVec 2) (ok : Bool), Tbl.get false p.vfault w.toNat = true →
      let t := max s.dev.now (Tbl.get 0 p.lastVstep w.toNat + 10 ^ 9 * ns)
      let tried : Power := { p with cnt := bumpAt p.cnt 1, lastVstep := Tbl.set 0 p.lastVstep w.toNat t }
      (ok = false → Completes (.avsRetry w ok) s [.now, .power] fun d => d.now = t ∧ d.power = tried) ∧
      (ok = true → Completes (.avsRetry w ok) s [.now, .events, .power] fun d =>
        let left := Tbl.set false p.vfault w.toNat false
        d.now = t ∧ d.power = { tried with vfault := left, avsFault := decide (left ≠ []) } ∧ Raised s.dev d 707)) ∧
    (∀ (k : BitVec 6) (t : BitVec 16), Completes (.thermalSample k t) s [.events, .cellar, .power] fun d =>
      let x := Tbl.get ({} : Sensor) p.sensors k.toNat
      let sensors := Tbl.set {} p.sensors k.toNat { samples := if x.samples.toNat < 16 then x.samples + 1 else 16, temp := t }
      d.power = { p with sensors, overTemp := d.power.overTemp, hot := d.power.hot } ∧
      (d.power.overTemp = true ↔ ∃ y ∈ sensors, 4 * (if s.dev.ident.iGrade = true then 105 else 100 : Int) < y.2.temp.toInt) ∧
      (d.power.hot = true ↔ (∃ y ∈ sensors, 4 * (p.hotCfg.toNat : Int) ≤ y.2.temp.toInt) ∨ 95 < s.dev.cellar.temp.toNat) ∧
      (d.power.overTemp ≠ p.overTemp → OnTheWay d 706) ∧ (d.power.hot ≠ p.hot → OnTheWay d 705))

/-- Resets and start-up: PORST_N low and a monitored rail out of range reset the device cold, a rail that a tamper sensor covers wipes it, and it
leaves the reset once PORST_N is high and power is good; the stages of start-up up to READY; PCIe boot; a warm reset, asked for in READY, halts at a
boundary, and HUB_RETURN ends it; the TAP's instruction, with what it does at the boundary register, and those for the pins only while PORST_N is low. -/
def Obligations.ResetsAndStartUp : Prop :=
  ∀ s : State,
    let p := s.dev.power
    let g := s.dev.strong
    let c := s.dev.cellar
    Completes .porstN s (Instr.parts .porstN) (fun d => ColdAfter s.dev d { g with wipeCount := 0 } { p with porst := false }) ∧
    Completes .porstNRelease s [.now, .power, .tap] (fun d =>
      d.power = { p with porst := true, cold := p.cold && !p.good } ∧ d.now = (if p.cold = true ∧ p.good = true then 0 else s.dev.now) ∧
      d.tap = if s.dev.tap.pins = true then { s.dev.tap with instr := .bypass, pins := false } else s.dev.tap) ∧
    Completes .powerGood s [.now, .power] (fun d => d.now = (if p.cold = true ∧ p.porst = true then 0 else s.dev.now) ∧ d.power = { p with good := true, railsOut := p.railsOut.filter isVccio, cold := p.cold && !p.porst }) ∧
    (∀ r : Rail, r ∉ p.railsOut →
      let lost : Power := { p with railsOut := r :: p.railsOut, good := p.good && isVccio r }
      let i : Instr := .railFault r false
      (tamperRail r = true → Completes i s i.parts fun d => ColdAfter s.dev d (g.wiped 0) lost) ∧
      (tamperRail r = false → p.cold = true → Completes i s [.power] fun d => d.power = lost) ∧
      (tamperRail r = false → p.cold = false → p.stage < 6 → isVccio r = false → Completes i s i.parts fun d => ColdAfter s.dev d g lost) ∧
      (tamperRail r = false → p.cold = false → (6 ≤ p.stage ∨ isVccio r = true) → Completes i s [.events, .power] fun d =>
        d.power = { p with railsOut := r :: p.railsOut } ∧ Raised s.dev d 708)) ∧
    (∀ r : Rail, r ∈ p.railsOut → tamperRail r = false → p.cold = false → Completes (.railFault r true) s [.events, .power] fun d =>
      d.power = { p with railsOut := p.railsOut.erase r } ∧ Raised s.dev d 708) ∧
    (p.cold = false →
      (p.stage = 0 → g.life ≠ .decommissioned → Completes (.startupStage .done) s [.free, .cellar, .strong, .power] fun d =>
        d.power = { p with stage := 1 } ∧ d.free = s.dev.free + 2 ∧ d.cellar = { c with nonce := (Config.random s.dev.free).setWidth 128 } ∧
        d.strong = { g with rngok := true, cmdNonce := (Config.random (s.dev.free + 1)).setWidth 128,
                            measures := insertMeasure { kind := 1, index := 0, hash := Config.romHash } g.measures }) ∧
      (p.stage = 0 → g.life = .decommissioned → Completes (.startupStage .done) s [] fun d => d = s.dev) ∧
      (p.stage = 1 → p.bootsrc ≠ 2 →
        Completes (.startupStage .done) s [.cores, .power] (fun d => d.power = { p with stage := 2 } ∧
          d.cores = { s.dev.cores with secver := Config.flashSecver, version := Config.flashVersion, hash := Config.flashHash }) ∧
        Completes (.startupStage .flashFailed) s [.power] (fun d => d.power = { p with bootsrc := p.bootsrc + 1 }) ∧
        Completes (.startupStage .deferred) s [.power] (fun d => d.power = { p with bootsrc := 2 })) ∧
      (p.stage = 2 → g.rngok = true → (∀ k < 4, (s.dev.stream k).en = false) → Completes (.startupStage .done) s (Instr.parts (.startupStage .done)) fun d =>
        let r := s.dev.record
        d.power = { p with stage := 3, ceil := r.ceil, hubres := if r.hubres.toNat + 10 ≤ r.ceil.toNat then r.hubres else r.ceil - 10 } ∧
        d.fuse.released = true ∧ d.cores.sb = .ready ∧ (∀ k : BitVec 4, k < 4 → (d.core k).phase = .run) ∧
        d.time = { s.dev.time with ref10 := r.ref10 } ∧
        d.cellar = { (c.loadKey 0 (Config.random s.dev.free)) with training := false, pcRepair := s.dev.flash, clearing := true,
                                                                   open_ := BitVec.ofNat 6 (min 56 r.open_.toNat) } ∧
        d.strong.wipePending = false ∧ (g.wipePending = true → OnTheWay d 640)) ∧
      (p.stage = 3 → c.clearing = false → c.startup = false → Completes (.startupStage .done) s [.power] fun d => d.power = { p with stage := 4 }) ∧
      (p.stage = 4 → Completes (.startupStage .done) s (Instr.parts (.startupStage .done)) fun d =>
        (s.dev.record.writes = [] → Only [.time, .power] s.dev d) ∧ d.power = { p with stage := 5 } ∧ d.time.enabled = true ∧
        ((s.dev.time.lockedOnce = true ∧ s.dev.time.src ≠ 3 ∨ s.dev.record.freestart = true) → s.dev.time.run = false → d.time.armed = true)) ∧
      (p.stage = 5 → g.rngok = true → Completes (.startupStage .done) s [.events, .rings, .power] fun d =>
        d.power = { p with stage := 6 } ∧ d.rings = { s.dev.rings with ready := true, recovering := false } ∧ Raised s.dev d 709)) ∧
    (∀ (q : Requester) (w : Bytes), p.cold = false → p.stage = 1 → p.bootsrc = 2 → s.dev.isPf q = true →
      let l := s.dev.loader
      let sram : Sram := { g.sram with mem := Memory.writeN g.sram.mem bootWindow (w.take bootSize) }
      let filled : Dev := { s.dev with strong := { g with sram } }
      let s0 : Staging := if l.firmware.phase = .receiving then l.firmware else { phase := .receiving }
      let fed := filled.stageFeed 0 s0 (filled.bootChunk s0)
      let h := fed.1.head.take 512
      let whole : Prop := fed.1.checked = 2 ∧ fed.1.frames = imgFcount fed.1.head
      (∀ bad, fed.2 = some bad → Completes (.bootgo q w) s [.loader, .strong, .power] fun d =>
        d.loader = { l with firmware := {} } ∧ d.power = { p with booterr := BitVec.ofNat 8 bad.status } ∧ d.strong = filled.strong) ∧
      (fed.2 = none → fed.1.kind = 3 → ¬ whole → Completes (.bootgo q w) s [.loader, .strong] fun d =>
        d.loader = { l with firmware := fed.1 } ∧ d.strong = filled.strong) ∧
      (fed.2 = none → fed.1.kind = 3 → whole → filled.bodyFault fed.1 = none → Completes (.bootgo q w) s [.loader, .cores, .strong, .power] fun d =>
        d.loader = { l with firmware := { fed.1 with phase := .verified } } ∧ d.power = { p with stage := 2 } ∧ d.strong = filled.strong ∧
        d.cores = { s.dev.cores with secver := BitVec.ofNat 8 (imgSecver h), version := Config.firmwareVersion fed.1.body, hash := sha3 h })) ∧
    (∀ (q : Requester) (w : Bytes), s.dev.isPf q = true → (p.cold = true ∨ p.stage ≠ 1 ∨ p.bootsrc ≠ 2) → Completes (.bootgo q w) s [.hub] fun d =>
      d.hub = { s.dev.hub with ignored := bumpAt s.dev.hub.ignored 0x11 }) ∧
    (let pinned : Power := { p with warmPin := false }
     let begins (i : Instr) (p : Power) : Prop :=
       (p.stage ≠ 6 → Completes i s [.power] fun d => d.power = { p with cnt := bumpAt p.cnt 2 }) ∧
       (p.stage = 6 → s.dev.time.run = true → Completes i s [.rings, .power] fun d =>
         d.power = { p with stage := 7, returned := false, warmFrom := some (s.dev.time.n + 1) } ∧
         d.rings = { s.dev.rings with recovering := true, ready := false }) ∧
       (p.stage = 6 → s.dev.time.run = false → Completes i s i.parts fun d =>
         d.power.stage = 7 ∧ d.power.warmFrom = some s.dev.time.n ∧ d.rings.recovering = true ∧ d.rings.ready = false ∧ d.rings.linkUp = false ∧
         (∀ o ∈ d.events, o.ev = 441) ∧ d.sched.tasks = [] ∧ d.sched.timers = Tbl.mapAll {} s.dev.sched.timers (fun t => { t with late := false }) ∧ d.fuse.released = false ∧
         ((s.dev.funcs.map (·.id)).Nodup → ∀ f ∈ d.funcs, f.migration = none) ∧
         d.cellar.wb = [] ∧ (s.dev.cellar.wb = [] → d.cellar.keys = s.dev.cellar.keys) ∧ d.strong.dbg.unlocked = false)
     Completes (.warmrstN true) s [.power] (fun d => d.power = { p with warmPin := true }) ∧
     (p.warmPin = true → p.cold = false → p.stage ≠ 7 → begins (.warmrstN false) pinned) ∧
     (∀ q : Requester, s.dev.isPf q = true → begins (.warm q) p)) ∧
    (p.stage = 7 → p.warmPin = true → s.dev.halted = true → Completes .hubReturn s (Instr.parts .hubReturn) fun d =>
      d.power.stage = 6 ∧ d.rings.ready = true ∧ d.rings.recovering = false ∧ d.fuse.released = true ∧ OnTheWay d 709 ∧ OnTheWay d 772 ∧
      (s.dev.time.run = true → d.power = { p with stage := 6, returned := true }) ∧
      (s.dev.time.run = false → d.power = { p with stage := 6, returned := false, warmFrom := none })) ∧
    (∀ pins scan : List (BoundaryPin × Bool), Rail.vaux ∉ p.railsOut →
      let tap := s.dev.tap
      let scanned (i : TapInstr) (drives : Bool) : Tap :=
        { instr := i, pins := drives, captured := pins.filter (hasCell ·.1), update := scan.filter (hasCell ·.1) }
      let drives (i : TapInstr) (t : Tap) (out : List (BoundaryPin × Bool)) : Prop :=
        Completes (.tapInstruction { instr := i, pins, scan }) s [.out, .tap] fun d => d.tap = t ∧ Sent s.dev d (.boundary i out)
      (∀ i, (i = .idcode ∨ i = .bypass) → Completes (.tapInstruction { instr := i, pins, scan }) s [.tap] fun d => d.tap = { tap with instr := i, pins := false }) ∧
      (Completes (.tapInstruction { instr := .sample, pins, scan }) s [.tap] fun d => d.tap = scanned .sample false) ∧
      (∀ i, tapDrives i = true → p.porst = true → Completes (.tapInstruction { instr := i, pins, scan }) s [.tap] fun d =>
        d.tap = { tap with instr := .bypass, pins := false }) ∧
      (p.porst = false →
        drives .extest (scanned .extest true) ((scan.filter (hasCell ·.1)).filter fun y => !isAc y.1) ∧
        (∀ i, (i = .extestPulse ∨ i = .extestTrain) → drives i (scanned i true) (scan.filter (hasCell ·.1))) ∧
        drives .clamp { tap with instr := .clamp, pins := true } tap.update ∧ drives .highz { tap with instr := .highz, pins := true } []) ∧
      (∀ code, tapOf code ≠ .other code →
        exec (.tapInstruction { instr := .other code, pins, scan }) s = exec (.tapInstruction { instr := tapOf code, pins, scan }) s) ∧
      (∀ code, tapOf code = .other code →
        (s.dev.debugLocked none = false → Completes (.tapInstruction { instr := .other code, pins, scan }) s [.tap] fun d =>
          d.tap = { tap with instr := .other code, pins := false }) ∧
        (s.dev.debugLocked none = true → (g.life = .deployed ∨ g.life = .returned) → g.dbg.refused ≠ 2 →
          Completes (.tapInstruction { instr := .other code, pins, scan }) s [.events, .strong, .tap] fun d =>
            d.tap = { tap with instr := .bypass, pins := false } ∧ Raised s.dev d 642 ∧
            d.strong = { g with dbg := { g.dbg with refused := g.dbg.refused + 1 } })))

/-- Register accesses: a write with a byte enable clear is dropped and counted; a place that holds no register reads 0 and takes nothing, or under KZ5
decode is refused, counted and recorded; the low word of a 64-bit register latches the high one for its next read; an indirect access reaches the
register that XA names and moves XA on, a room's over the network, and one whose way is cut or that no target answers is counted; a counter-clear clears the counters that it names; the JTAG memory
port gives stored bytes, a free value for an uncorrectable one, and writes unsealed ones only, where debug is open. -/
def Obligations.RegistersAreReadAndWritten : Prop :=
  ∀ (s : State) (q : Requester),
    let h := s.dev.hub
    let x := s.dev.req q
    let othersStand (d : Dev) : Prop := ∀ y, reqKey y ≠ reqKey q → d.req y = s.dev.req y
    (∀ (addr : BitVec 26) (v : Word) (be : BitVec 4), let at_ := s.dev.locate q (addr.toNat / 4 * 4)
      let src : BitVec 5 := match q with | .fn _ => 0 | .core c => BitVec.ofNat 5 (c.toNat + 1)
      let recorded (write : Bool) (d : Dev) : Prop :=
        d.hub = { h with cnt := bumpAt h.cnt 1, dAddr := BitVec.ofNat 32 (addr.toNat / 4 * 4), dValid := true, dWrite := write, dView := s.dev.viewOf q,
                         dSrc := src }
      (be ≠ 0xF → Completes (.registerWrite q addr v be) s [.hub] fun d => d.hub = { h with cnt := bumpAt h.cnt 0 }) ∧
      (at_ = .absent → Completes (.registerWrite q addr v 0xF) s [] (fun d => d = s.dev) ∧
        Completes (.counterClear q addr v) s [] (fun d => d = s.dev) ∧ Completes (.latchedRead q addr) s [.out] fun d => Sent s.dev d (.read q 0)) ∧
      (at_ = .refused → Completes (.registerWrite q addr v 0xF) s [.hub] (recorded true) ∧ Completes (.counterClear q addr v) s [.hub] (recorded true) ∧
        Completes (.latchedRead q addr) s [.out, .hub] fun d => Sent s.dev d (.readAbort q) ∧ recorded false d) ∧
      (∀ b off, at_ = .reg b off → b ≠ 0x8 → b ≠ 0xB → ¬ (b = 4 ∧ 0x10 ≤ off ∧ off < 0x20) → b ≠ 0xF →
        let tag := b * 2 ^ 20 + off
        let live (o : Nat) : Word := (s.dev.readBlock q b o).getD 0
        let high : Bool := decide (4 ≤ off) && isLow b (off - 4)
        (isLow b off = true → Completes (.latchedRead q addr) s [.out, .hub] fun d =>
          Sent s.dev d (.read q (live off)) ∧ d.req q = { x with rdTag := some tag, rdVal := live (off + 4) } ∧ othersStand d) ∧
        (isLow b off = false → high = true → x.rdTag = some (tag - 4) → Completes (.latchedRead q addr) s [.out, .hub] fun d =>
          Sent s.dev d (.read q x.rdVal) ∧ d.req q = { x with rdTag := none, rdVal := 0 } ∧ othersStand d) ∧
        (isLow b off = false → (high = false ∨ x.rdTag ≠ some (tag - 4)) → Completes (.latchedRead q addr) s [.out] fun d =>
          Sent s.dev d (.read q (live off))) ∧
        (isHeldLow b off = true → Completes (.registerWrite q addr v 0xF) s [.hub] fun d =>
          d.req q = { x with wrTag := some tag, wrVal := v } ∧ othersStand d))) ∧
    (s.dev.isPf q = true → s.dev.power.cold = false → s.dev.onlyBlock = none →
      let clears (old new : Tbl Cnt) (v : Word) (n : Nat) : Prop :=
        ∀ i, Tbl.get ({} : Cnt) new i = if i < n ∧ v.getLsbD i = true then {} else Tbl.get {} old i
      ∀ v : Word,
        Completes (.registerWrite q 0x8 v 0xF) s [.hub] (fun d => d.hub = { h with decode := v.getLsbD 0 }) ∧
        Completes (.registerWrite q 0x100 v 0xF) s [.hub] (fun d => d.hub = { h with arbSel := v.setWidth 16 }) ∧
        Completes (.registerWrite q 0xB00000 v 0xF) s [.hub] (fun d =>
          (d.req q).pair false = { x.pair false with xa := (v.setWidth 16).setWidth 32 } ∧ othersStand d) ∧
        Completes (.registerWrite q 0x1100018 v 0xF) s (Instr.parts (.registerWrite q 0x1100018 v 0xF)) (fun d => d.power.roomOff = v.getLsbD 0) ∧
        Completes (.counterClear q 0x5C v) s [.hub] (fun d => d.hub = { h with cnt := d.hub.cnt } ∧ clears h.cnt d.hub.cnt v 3) ∧
        Completes (.counterClear q 0x100020 v) s [.rings] (fun d =>
          d.rings = { s.dev.rings with cnt := d.rings.cnt } ∧ clears s.dev.rings.cnt d.rings.cnt v 4)) ∧
    (∀ (i : Fin 8) (v : Word) (k : BitVec 9), s.dev.isPf q = false → s.dev.power.cold = false → s.dev.onlyBlock = none → s.dev.vfPair q i = some k →
      Completes (.registerWrite q (BitVec.ofNat 26 (0x1000 * i)) v 0xF) s [.rings] fun d =>
        d.rings = { s.dev.rings with pairs := Tbl.set {} s.dev.rings.pairs k.toNat { s.dev.ring k with sqPi := v.setWidth 16 } }) ∧
    (∀ lane : Bool,
      let p := x.pair lane
      let a := p.xa.toNat % 65536
      let unit := a / 256
      let r : RoomId := BitVec.ofNat 8 unit
      let after (err : Bool) (d : Dev) : Prop :=
        (d.req q).pair lane = { p with xa := p.xa.extractLsb' 16 16 ++ (p.xa.setWidth 16 + p.stride.setWidth 16), err } ∧ othersStand d
      (s.dev.xdAllowed q lane = false → Completes (.xdRead q lane) s [.out] (fun d => Sent s.dev d (.read q 0)) ∧
        ∀ v, Completes (.xdWrite q lane v) s [] (fun d => d = s.dev) ∧ ∀ w, Completes (.xdTimeout q lane w) s [] fun d => d = s.dev) ∧
      let lost : Output := if h.decode = true then .readAbort q else .read q 0xFFFFFFFF
      let reaches : Prop := lane = true ∨ s.dev.roomCut r = false
      let carried (write : Bool) (v : Word) (d : Dev) : Prop :=
        d.net = if lane = true then s.dev.net else
          (s.dev.net.carry (.hub 7) (.room r) (reqFlits .req (.hub 7) (.room r) (if write then 1 else 0) a (if write then v.toNat else 0))).carry (.room r)
            (.hub 7) (reqFlits .rsp (.room r) (.hub 7) 0 a (if write then 0 else v.toNat))
      let reads (v : Word) (Q : Dev → Prop) : Prop := Completes (.xdRead q lane) s [.out, .net, .hub] fun d =>
        after false d ∧ Sent s.dev d (.read q v) ∧ carried false v d ∧ Q d
      (s.dev.xdAllowed q lane = true → ¬ reaches →
        Completes (.xdRead q lane) s [.out, .hub] (fun d => after true d ∧ d.hub.cnt = bumpAt h.cnt 2 ∧ Sent s.dev d lost) ∧
        ∀ v, Completes (.xdWrite q lane v) s [.hub] fun d => after true d ∧ d.hub.cnt = bumpAt h.cnt 2) ∧
      (s.dev.xdAllowed q lane = true →
        ((lane = true ∨ a % 256 % 0x48 ≠ 8 ∧ a % 256 % 0x48 ≠ 0xC) → reaches → reads (if lane = true then s.dev.readLaneReg unit (a % 256)
            else if s.dev.roomVisible q r = true then s.dev.readRoomReg r (a % 256) else 0) fun _ => True) ∧
        (lane = false → reaches → a % 256 % 0x48 = 8 → s.dev.roomVisible q r = true → reads (s.dev.readRoomReg r 8) fun d =>
          (d.req q).rdTag = some (2 ^ 32 + unit * 256 + 8) ∧ (d.req q).rdVal = s.dev.readRoomReg r 0xC) ∧
        (lane = false → reaches → a % 256 % 0x48 = 0xC → x.rdTag = some (2 ^ 32 + unit * 256 + 8) → reads x.rdVal fun d => (d.req q).rdTag = none) ∧
        (∀ v : Word, lane = false → reaches → s.dev.roomVisible q r = true → s.dev.roomDisabled r = false → a % 256 % 0x48 = 0x40 →
          Completes (.xdWrite q lane v) s [.rooms, .net, .hub] fun d =>
            let rm := s.dev.room r
            after false d ∧ carried true v d ∧ OtherRooms r s.dev d ∧
            d.room r = { rm with cnt := (d.room r).cnt, mwrPeak := if v.getLsbD 8 = true then 0 else rm.mwrPeak } ∧
            ∀ i, Tbl.get ({} : Cnt) (d.room r).cnt i = if i < 8 ∧ v.getLsbD i = true then {} else Tbl.get {} rm.cnt i) ∧
        Completes (.xdTimeout q lane true) s [.hub] (fun d => after true d ∧ d.hub.cnt = bumpAt h.cnt 2) ∧
        Completes (.xdTimeout q lane false) s [.out, .hub] (fun d => after true d ∧ d.hub.cnt = bumpAt h.cnt 2 ∧ Sent s.dev d lost))) ∧
    (∀ a : BitVec 34,
      (s.dev.debugLocked (some 0) = false →
        (∀ e, 0x3F0000000 ≤ a.toNat → Completes (.jtagMemoryPortAccess a (.read e)) s [.out] fun d => Sent s.dev d (.jtag 0)) ∧
        (a.toNat < 0x3F0000000 → (∀ w ∈ s.dev.cellar.unread, w / 16 ≠ a.toNat / 128) → Completes (.jtagMemoryPortAccess a (.read {})) s [.out] fun d =>
          Sent s.dev d (.jtag (Memory.read s.dev.cellar.mem a.toNat))) ∧
        (∀ e : LineEcc, a.toNat < 0x3F0000000 →
          (e.uncorrectable = true ∧ a.toNat / 8 = 16 * (a.toNat / 128) + e.word.toNat ∨ a.toNat / 8 ∈ s.dev.cellar.unread) →
          Completes (.jtagMemoryPortAccess a (.read e)) s (Instr.parts (.jtagMemoryPortAccess a (.read e))) fun d =>
            ∃ n, Sent s.dev d (.jtag ((Config.ueLine n).setWidth 8))) ∧
        ∀ b : Byte,
          (a.toNat < 0x380000000 → s.dev.cellar.rawOk (a.toNat / 128) = true → Completes (.jtagMemoryPortAccess a (.write b)) s [.cellar] fun d =>
            d.cellar = { s.dev.cellar with mem := d.cellar.mem } ∧
            ∀ y, Memory.read d.cellar.mem y = if y = a.toNat then b else Memory.read s.dev.cellar.mem y) ∧
          ((0x380000000 ≤ a.toNat ∨ s.dev.cellar.rawOk (a.toNat / 128) = false) → Completes (.jtagMemoryPortAccess a (.write b)) s [.out] fun d =>
            Sent s.dev d .jtagError)) ∧
      (s.dev.debugLocked (some 0) = true → (s.dev.strong.life = .deployed ∨ s.dev.strong.life = .returned) → s.dev.strong.dbg.refused ≠ 2 →
        ∀ w, Completes (.jtagMemoryPortAccess a w) s [.out, .events, .strong] fun d =>
          Sent s.dev d .jtagError ∧ Raised s.dev d 642 ∧
          d.strong = { s.dev.strong with dbg := { s.dev.strong.dbg with refused := s.dev.strong.dbg.refused + 1 } }))

-- invariants

/-- Every step keeps the stack, shared SRAM, the strongroom's command and report buffers and the table of rooms in canonical form, and the ring pairs'
retention windows in form. -/
def Obligations.EveryStepKeepsCanonicalForms : Prop :=
  ∀ s t : State, MemCanon s.dev → s.dev.rings.windowsOk → step s = .next t → MemCanon t.dev ∧ t.dev.rings.windowsOk

/-- No step takes a fuse back: the serial number stands, anti-rollback and cycle counts never fall, BLANK is never entered again, DECOMMISSIONED is
never left, and a revoked owner key stays revoked. -/
def Obligations.FusesNeverGoBack : Prop :=
  ∀ s t : State, step s = .next t → FusesKept s.dev.strong t.dev.strong

/-- The state after reset has its memories and retention windows in form, no command waits, and start-up is at stage 0; the ceilings, the beat
generator, the counters and the doors of the strongroom are as R462 and the register tables give them. -/
def Obligations.ResetMeetsTheInvariants : Prop :=
  let d := State.reset.dev
  MemCanon d ∧ d.rings.windowsOk ∧ State.reset.pending = [] ∧ d.power.stage = 0 ∧ d.power.cold = false ∧ d.power.ceil = 300 ∧ d.power.hubres = 120 ∧
  d.power.roomOff = true ∧ d.time.run = false ∧ d.time.n = 0 ∧ d.fuse.released = false ∧ d.strong.rngok = false ∧ d.strong.measures = [] ∧
  d.rings.ready = false ∧ d.events = [] ∧ d.funcs = [] ∧ d.link.mirror = .off ∧ (∀ r : RoomId, d.room r = {}) ∧ (∀ k : BitVec 6, (d.cellar.key k).phase = .empty)

/-- A refused admission leaves no trace in live configuration: no room, function, reservation, image, flow or key slot changes; the descriptor
completes with the refusal. -/
def Obligations.RefusedAdmissionsLeaveNoTrace : Prop :=
  ∀ (s : State) (x : DescRef) (e : RetEntry) (args : Bytes) (n : Nak), CanRun s.dev x 0x10 e → e.args = some args →
    let w := e.desc
    let body := (s.dev.stg (dfld w 0x18 1)).body
    let a : Ask := { fid := BitVec.ofNat 16 (s.dev.admitId w), r := dfld w 0x19 1, owner := BitVec.ofNat 7 (dfld w 0x1B 1),
                     pool := if (w.extractLsb' 208 1) = 1 then anyPool else leAt args 0x1500 32, obj := parseObj body, ends := parseEnds args,
                     answers := s.dev.link.queries.filterMap fun q => if q.desc = x then q.answer.map (q.bind, ·) else none }
    s.dev.admission body a = .error n → (a.unanswered = [] ∨ n.status ≠ 0x11 ∨ n.detail ≠ 0x0A) →
      Completes (.funcAdmit x) s [.free, .out, .events, .link, .rings, .sched] fun d =>
        d.rooms = s.dev.rooms ∧ d.funcs = s.dev.funcs ∧ d.net = s.dev.net ∧ d.loader = s.dev.loader ∧ d.cellar = s.dev.cellar ∧
        d.media = s.dev.media ∧ (∀ b, (d.bd b).reserved = (s.dev.bd b).reserved) ∧
        CompletedWith d x { seq := e.seq, status := n.status, detail := n.detail, opcode := descOpcode w, info0 := n.vroom + n.index * 65536,
                            info1 := n.ikind + n.bp * 256, beat := s.dev.time.n }

/-- Each RETURN blows one of 16 cycle fuses, and STRONG_LC.CYCLES shows how many are blown. When all 16 are blown, RETURN is refused: of the commands
that change device life, only DECOMMISSION remains. -/
def Obligations.ReturnsAreCounted : Prop :=
  ∀ (s : State) (ok : SigOk),
    let g := s.dev.strong
    let asked : Prop := g.cmdBusy = true ∧ g.rngok = true ∧ leAt g.cmdRun 4 1 = 3
    (asked → s.dev.cmdCheck ok = 0 → g.life = .deployed ∧ g.cycles.toNat < 16 ∧ Completes (.return_ ok) s (Instr.parts (.return_ ok)) fun d =>
      d.strong.life = .returned ∧ d.strong.cycles.toNat = g.cycles.toNat + 1) ∧
    (∃ v, s.dev.readStrongReg 0 = some v ∧ v.extractLsb' 24 5 = g.cycles) ∧
    (asked → 16 ≤ g.cycles.toNat → ∃ r, r ≠ 0 ∧ Completes (.return_ ok) s [.free, .events, .strong] fun d =>
      d.strong.cmdResult = BitVec.ofNat 8 r ∧ r < 7 ∧ d.strong.life = g.life ∧ d.strong.cycles = g.cycles ∧ Raised s.dev d 641) ∧
    (g.life = .deployed → 16 ≤ g.cycles.toNat → ∀ c t, c ∈ [Instr.provision ok, .deploy ok, .return_ ok, .decommission ok, .keyRevoke ok, .arbAdvance ok, .debugUnlock ok] →
      exec c s = .next t → t.dev.strong.life = .deployed ∨ t.dev.strong.life = .decommissioned ∧ c = .decommission ok)
end

