-- ==== Sys2Proof/Laws/Memory.lean ====
section
/-! SUPPORT. Sparse tables and byte memory: what a table reads after a store, and that every operation of a byte memory keeps its
canonical form. -/

namespace Sys2Proof

theorem Tbl.get_insert_same {α : Type} (d : α) (t : Tbl α) (i : Nat) (a : α) : Tbl.get d (Tbl.insert t i a) i = a := by
  induction t with
  | nil => simp [Tbl.insert, Tbl.get]
  | cons e t ih =>
    obtain ⟨k, v⟩ := e
    simp only [Tbl.insert]
    split
    · simp [Tbl.get]
    · split
      · simp [Tbl.get]
      · simp [Tbl.get, *]

theorem Tbl.get_insert_other {α : Type} (d : α) (t : Tbl α) (i j : Nat) (a : α) (h : j ≠ i) :
    Tbl.get d (Tbl.insert t i a) j = Tbl.get d t j := by
  induction t with
  | nil => simp [Tbl.insert, Tbl.get, h]
  | cons e t ih =>
    obtain ⟨k, v⟩ := e
    simp only [Tbl.insert]
    split
    · subst_vars; simp [Tbl.get, h]
    · split
      · simp [Tbl.get, h]
      · simp only [Tbl.get, ih]

/-- The keys of a table are strictly rising. -/
def Tbl.Rising {α : Type} (t : Tbl α) : Prop := (t.map (·.1)).Pairwise (· < ·)

theorem Tbl.rising_cons {α : Type} (e : Nat × α) (t : Tbl α) :
    Tbl.Rising (e :: t) ↔ (∀ x ∈ t, e.1 < x.1) ∧ Tbl.Rising t := by
  simp [Tbl.Rising, List.pairwise_cons]

theorem Tbl.erase_eq_filter {α : Type} (t : Tbl α) (i : Nat) : Tbl.erase t i = t.filter fun e => e.1 != i := by
  induction t with
  | nil => rfl
  | cons e t ih =>
    obtain ⟨k, v⟩ := e
    simp only [Tbl.erase, List.filter_cons]
    split
    · rename_i h; simp [h.symm, ih]
    · rename_i h
      have hk : k ≠ i := fun hc => h hc.symm
      simp [hk, ih]

theorem Tbl.get_erase_same {α : Type} (d : α) (t : Tbl α) (i : Nat) : Tbl.get d (Tbl.erase t i) i = d := by
  induction t with
  | nil => rfl
  | cons e t ih =>
    obtain ⟨k, v⟩ := e
    simp only [Tbl.erase]
    split
    · exact ih
    · simp [Tbl.get, *]

theorem Tbl.get_erase_other {α : Type} (d : α) (t : Tbl α) (i j : Nat) (hj : j ≠ i) :
    Tbl.get d (Tbl.erase t i) j = Tbl.get d t j := by
  induction t with
  | nil => rfl
  | cons e t ih =>
    obtain ⟨k, v⟩ := e
    simp only [Tbl.erase]
    split
    · subst_vars; simp [Tbl.get, hj, ih]
    · simp only [Tbl.get, ih]

/-- A read of what was just stored. -/
theorem Tbl.get_set_same {α : Type} [DecidableEq α] (d : α) (t : Tbl α) (i : Nat) (a : α) : Tbl.get d (Tbl.set d t i a) i = a := by
  unfold Tbl.set
  split
  · subst_vars; exact Tbl.get_erase_same _ t i
  · exact Tbl.get_insert_same d t i a

/-- A store leaves what stands at every other key. -/
theorem Tbl.get_set_other {α : Type} [DecidableEq α] (d : α) (t : Tbl α) (i j : Nat) (a : α) (hj : j ≠ i) :
    Tbl.get d (Tbl.set d t i a) j = Tbl.get d t j := by
  unfold Tbl.set
  split
  · subst_vars; exact Tbl.get_erase_other _ t i j hj
  · exact Tbl.get_insert_other d t i j a hj

theorem Tbl.wf_iff {α : Type} [DecidableEq α] (d : α) (t : Tbl α) :
    Tbl.wf d t = true ↔ Tbl.Rising t ∧ ∀ e ∈ t, e.2 ≠ d := by
  simp [Tbl.wf, Tbl.Rising]

theorem Tbl.wf_rising {α : Type} [DecidableEq α] {d : α} {t : Tbl α} (h : Tbl.wf d t = true) : Tbl.Rising t :=
  ((Tbl.wf_iff d t).1 h).1

theorem Tbl.mem_erase {α : Type} (t : Tbl α) (i : Nat) (e : Nat × α) (h : e ∈ Tbl.erase t i) : e ∈ t := by
  rw [Tbl.erase_eq_filter] at h
  exact (List.mem_filter.1 h).1

theorem Tbl.mem_insert {α : Type} (t : Tbl α) (i : Nat) (a : α) (e : Nat × α) (h : e ∈ Tbl.insert t i a) : e = (i, a) ∨ e ∈ t := by
  induction t with
  | nil => simpa [Tbl.insert] using h
  | cons x t ih =>
    obtain ⟨k, v⟩ := x
    simp only [Tbl.insert] at h
    split at h
    · rcases List.mem_cons.1 h with h | h
      · exact .inl h
      · exact .inr (List.mem_cons_of_mem _ h)
    · split at h
      · rcases List.mem_cons.1 h with h | h
        · exact .inl h
        · exact .inr h
      · rcases List.mem_cons.1 h with h | h
        · exact .inr (List.mem_cons.2 (.inl h))
        · exact (ih h).imp id (List.mem_cons_of_mem _)

theorem Tbl.rising_erase {α : Type} (t : Tbl α) (i : Nat) (h : Tbl.Rising t) : Tbl.Rising (Tbl.erase t i) := by
  rw [Tbl.erase_eq_filter]
  exact List.Pairwise.sublist (List.Sublist.map _ List.filter_sublist) h

theorem Tbl.rising_insert {α : Type} (t : Tbl α) (i : Nat) (a : α) (h : Tbl.Rising t) : Tbl.Rising (Tbl.insert t i a) := by
  induction t with
  | nil => simp [Tbl.insert, Tbl.Rising]
  | cons x t ih =>
    obtain ⟨k, v⟩ := x
    have hc := (Tbl.rising_cons _ _).1 h
    simp only [Tbl.insert]
    split
    · subst_vars; exact (Tbl.rising_cons _ _).2 hc
    · split
      · refine (Tbl.rising_cons _ _).2 ⟨fun e he => ?_, h⟩
        rcases List.mem_cons.1 he with rfl | he
        · assumption
        · have := hc.1 e he; simp only at this ⊢; omega
      · refine (Tbl.rising_cons _ _).2 ⟨fun e he => ?_, ih hc.2⟩
        rcases Tbl.mem_insert t i a e he with rfl | he
        · simp only; omega
        · exact hc.1 e he

/-- Storing keeps the canonical form. -/
theorem Tbl.wf_set {α : Type} [DecidableEq α] (d : α) (t : Tbl α) (i : Nat) (a : α) (h : Tbl.wf d t = true) :
    Tbl.wf d (Tbl.set d t i a) = true := by
  rw [Tbl.wf_iff] at *
  unfold Tbl.set
  split
  · exact ⟨Tbl.rising_erase t i h.1, fun e he => h.2 e (Tbl.mem_erase t i e he)⟩
  · refine ⟨Tbl.rising_insert t i a h.1, fun e he => ?_⟩
    rcases Tbl.mem_insert t i a e he with rfl | he
    · assumption
    · exact h.2 e he

theorem Tbl.mem_set {α : Type} [DecidableEq α] (d : α) (t : Tbl α) (i : Nat) (a : α) (e : Nat × α) (h : e ∈ Tbl.set d t i a) :
    e = (i, a) ∨ e ∈ t := by
  unfold Tbl.set at h
  split at h
  · exact .inr (Tbl.mem_erase t i e h)
  · exact Tbl.mem_insert t i a e h

theorem Tbl.get_default_or_mem {α : Type} (d : α) (t : Tbl α) (i : Nat) : Tbl.get d t i = d ∨ (i, Tbl.get d t i) ∈ t := by
  induction t with
  | nil => exact .inl rfl
  | cons e t ih =>
    unfold Tbl.get
    split
    · rename_i h
      exact .inr (by rw [h]; exact List.mem_cons_self)
    · exact ih.imp_right (List.mem_cons_of_mem _)

theorem Tbl.wf_modify {α : Type} [DecidableEq α] (d : α) (t : Tbl α) (i : Nat) (f : α → α) (h : Tbl.wf d t = true) :
    Tbl.wf d (Tbl.modify d t i f) = true := Tbl.wf_set d t i _ h

theorem Tbl.wf_filter {α : Type} [DecidableEq α] (d : α) (t : Tbl α) (p : Nat × α → Bool) (h : Tbl.wf d t = true) :
    Tbl.wf d (t.filter p) = true := by
  rw [Tbl.wf_iff] at *
  refine ⟨?_, fun e he => h.2 e (List.mem_filter.1 he).1⟩
  have hs : ((t.filter p).map (·.1)).Sublist (t.map (·.1)) := List.Sublist.map _ List.filter_sublist
  exact List.Pairwise.sublist hs h.1

theorem Tbl.mem_mapAll {α : Type} [DecidableEq α] (d : α) (t : Tbl α) (f : α → α) (e : Nat × α) (h : e ∈ Tbl.mapAll d t f) :
    e.2 ≠ d ∧ ∃ x ∈ t, e = (x.1, f x.2) := by
  induction t with
  | nil => cases h
  | cons x t ih =>
    obtain ⟨k, v⟩ := x
    simp only [Tbl.mapAll] at h
    split at h
    · have := ih (Tbl.mem_erase _ _ _ h)
      exact ⟨this.1, this.2.imp fun y hy => ⟨List.mem_cons_of_mem _ hy.1, hy.2⟩⟩
    · rename_i hd
      rcases List.mem_cons.1 h with rfl | h
      · exact ⟨hd, _, List.mem_cons_self, rfl⟩
      · have := ih h
        exact ⟨this.1, this.2.imp fun y hy => ⟨List.mem_cons_of_mem _ hy.1, hy.2⟩⟩

/-- A change of every listed value, as a read shows it, where the change leaves the default as it is. -/
theorem Tbl.get_mapAll {α : Type} [DecidableEq α] (d : α) (t : Tbl α) (f : α → α) (hf : f d = d) (j : Nat) :
    Tbl.get d (Tbl.mapAll d t f) j = f (Tbl.get d t j) := by
  induction t with
  | nil => exact hf.symm
  | cons x t ih =>
    obtain ⟨k, v⟩ := x
    simp only [Tbl.mapAll, Tbl.get]
    by_cases hj : j = k
    · subst hj
      split
      · rename_i hv; rw [Tbl.get_erase_same, if_pos rfl, hv]
      · simp [Tbl.get]
    · split
      · rw [Tbl.get_erase_other _ _ _ _ hj, ih]
      · simp only [Tbl.get, if_neg hj, ih]

theorem Tbl.wf_mapAll {α : Type} [DecidableEq α] (d : α) (t : Tbl α) (f : α → α) (h : Tbl.wf d t = true) :
    Tbl.wf d (Tbl.mapAll d t f) = true := by
  rw [Tbl.wf_iff] at *
  refine ⟨?_, fun e he => (Tbl.mem_mapAll d t f e he).1⟩
  have hr := h.1
  clear h
  induction t with
  | nil => exact List.Pairwise.nil
  | cons x t ih =>
    obtain ⟨k, v⟩ := x
    have hc := (Tbl.rising_cons _ _).1 hr
    simp only [Tbl.mapAll]
    split
    · exact Tbl.rising_erase _ _ (ih hc.2)
    · refine (Tbl.rising_cons _ _).2 ⟨fun e he => ?_, ih hc.2⟩
      obtain ⟨_, y, hy, rfl⟩ := Tbl.mem_mapAll d t f e he
      exact hc.1 y hy

namespace Machine

/-- A byte read where it was just stored. -/
theorem Memory.read_write_same (m : Memory) (a : Nat) (b : Byte) : Memory.read (Memory.write m a b) a = b := Tbl.get_set_same 0 m a b

/-- A store of a byte leaves every other byte. -/
theorem Memory.read_write_other (m : Memory) (a x : Nat) (b : Byte) (hx : x ≠ a) : Memory.read (Memory.write m a b) x = Memory.read m x :=
  Tbl.get_set_other 0 m a x b hx

theorem Memory.wf_write (m : Memory) (a : Nat) (b : Byte) (h : Memory.wf m = true) : Memory.wf (Memory.write m a b) = true :=
  Tbl.wf_set 0 m a b h

theorem Memory.wf_writeN (m : Memory) (a : Nat) (bs : Bytes) (h : Memory.wf m = true) : Memory.wf (Memory.writeN m a bs) = true := by
  induction bs generalizing m a with
  | nil => exact h
  | cons b t ih => exact ih _ _ (Memory.wf_write m a b h)

theorem Memory.wf_clearRange (m : Memory) (a n : Nat) (h : Memory.wf m = true) : Memory.wf (Memory.clearRange m a n) = true :=
  Tbl.wf_filter 0 m _ h

/-- Storing bytes leaves every byte outside their range. -/
theorem Memory.read_writeN_outside (m : Memory) (a x : Nat) (bs : Bytes) (hx : x < a ∨ a + bs.length ≤ x) :
    Memory.read (Memory.writeN m a bs) x = Memory.read m x := by
  induction bs generalizing m a with
  | nil => rfl
  | cons b t ih =>
    simp only [List.length_cons] at hx
    rw [Memory.writeN, ih _ _ (by omega), Memory.read_write_other m a x b (by omega)]

/-- Bytes stored are read back. -/
theorem Memory.readN_writeN (m : Memory) (a : Nat) (bs : Bytes) : Memory.readN (Memory.writeN m a bs) a bs.length = bs := by
  induction bs generalizing m a with
  | nil => rfl
  | cons b t ih =>
    show Memory.read (Memory.writeN (Memory.write m a b) (a + 1) t) a :: Memory.readN (Memory.writeN (Memory.write m a b) (a + 1) t) (a + 1) t.length = b :: t
    rw [ih, Memory.read_writeN_outside _ _ _ _ (.inl (Nat.lt_succ_self a)), Memory.read_write_same m a b]

theorem leBytes_length (n w : Nat) : (leBytes n w).length = n := by
  induction n generalizing w with
  | zero => rfl
  | succ n ih => simp [leBytes, ih]

theorem leNat_leBytes (n w : Nat) : leNat (leBytes n w) = w % 256 ^ n := by
  induction n generalizing w with
  | zero => simp [leBytes, leNat, Nat.mod_one]
  | succ n ih =>
    show (BitVec.ofNat 8 w).toNat + 256 * leNat (leBytes n (w / 256)) = w % 256 ^ (n + 1)
    rw [ih, BitVec.toNat_ofNat, show (256 : Nat) ^ (n + 1) = 256 * 256 ^ n from Nat.pow_succ', Nat.mod_mul]

/-- A line written is read back. -/
theorem Cellar.raw_putRaw (c : Cellar) (line : Nat) (v : BitVec 1024) : (c.putRaw line v).raw line = v := by
  unfold Cellar.raw Cellar.putRaw Memory.readLe
  have := Memory.readN_writeN c.mem (128 * line) (leBytes 128 v.toNat)
  rw [leBytes_length] at this
  rw [this, leNat_leBytes]
  apply BitVec.eq_of_toNat_eq
  rw [BitVec.toNat_ofNat]
  have e : (256 : Nat) ^ 128 = 2 ^ (8 * 128) := by rw [show (256 : Nat) = 2 ^ 8 from rfl, ← Nat.pow_mul]
  rw [e]
  exact (congrArg (· % _) (Nat.mod_eq_of_lt v.isLt)).trans (Nat.mod_eq_of_lt v.isLt)

end Machine

end Sys2Proof
end

