-- ==== Sys2Proof/Laws/Keep.lean ====
section
/-! SUPPORT. What each operation of the device can change (1 of 4): `Keep`, and one lemma `Dev.<operation>_keep` for each operation: the parts that it can change; that the memories stay canonical; that the fuses are kept. -/

set_option linter.unusedVariables false
set_option linter.tactic.unusedName false
set_option linter.unusedTactic false
set_option linter.unreachableTactic false

namespace Sys2Proof.Machine
open Sys2Proof

/-- What every operation leaves of the strongroom: its memories in canonical form, and the fuses (`FusesKept`). -/
structure StrongKept (s t : Strong) : Prop where
  mem : s.memCanon → t.memCanon
  fuses : FusesKept s t

theorem StrongKept.same {s t : Strong} (h0 : t.sram.mem = s.sram.mem) (h1 : t.cmdBuf = s.cmdBuf) (h2 : t.attBuf = s.attBuf)
    (h3 : t.serial = s.serial) (h4 : t.arbFw = s.arbFw) (h5 : t.arbOwner = s.arbOwner) (h6 : t.cycles = s.cycles) (h7 : t.life = s.life)
    (h8 : t.owner = s.owner) : StrongKept s t := by
  refine ⟨fun h => ?_, h3, ?_, ?_, ?_, fun h => h7 ▸ h, fun h => h7 ▸ h, fun _ k h => h8 ▸ h⟩
  · unfold Strong.memCanon; rw [h0, h1, h2]; exact h
  · rw [h4]; exact BitVec.le_refl _
  · rw [h5]; exact BitVec.le_refl _
  · rw [h6]; exact BitVec.le_refl _

theorem StrongKept.of {s t : Strong} (hm : s.memCanon → t.memCanon) (h3 : t.serial = s.serial) (h4 : t.arbFw = s.arbFw)
    (h5 : t.arbOwner = s.arbOwner) (h6 : t.cycles = s.cycles) (h7 : t.life = s.life) (h8 : t.owner = s.owner) : StrongKept s t :=
  ⟨hm, h3, h4 ▸ BitVec.le_refl _, h5 ▸ BitVec.le_refl _, h6 ▸ BitVec.le_refl _, fun h => h7 ▸ h, fun h => h7 ▸ h, fun _ k h => h8 ▸ h⟩

/-- A change of a ring pair keeps its retention window in form. -/
def RingKept (r r' : Ring) : Prop := WindowOk r.window → WindowOk r'.window

theorem windowOk_sub {w v : List RetEntry} (h : WindowOk w) (hs : List.Sublist v w) : WindowOk v :=
  ⟨h.1.sublist (List.Sublist.map _ hs), fun e he => h.2 e (hs.subset he)⟩

theorem RingKept.mapped {r r' : Ring} (g : RetEntry → RetEntry) (hg : ∀ e, (g e).slot = e.slot) (h : r'.window = r.window.map g) : RingKept r r' := by
  intro hr
  have : r'.window.map (fun e => e.slot) = r.window.map fun e => e.slot := by rw [h, List.map_map]; exact List.map_congr_left fun e _ => hg e
  refine ⟨by rw [this]; exact hr.1, fun e he => ?_⟩
  rw [h] at he
  obtain ⟨y, hy, rfl⟩ := List.mem_map.1 he
  rw [hg y]; exact hr.2 y hy

theorem Ring.reapply_window (r : Ring) : r.reapply.window = r.window := by
  unfold Ring.reapply
  dsimp only
  split
  · split <;> rfl
  · split <;> rfl

theorem Ring.advance_window (r : Ring) : r.advance.window = r.window := by
  unfold Ring.advance
  split <;> rfl

theorem Dev.reach_ring (d : Dev) (t : Instant) (k : BitVec 9) : (d.reach t).ring k = d.ring k := by
  unfold Dev.reach; split <;> rfl

theorem RingKept.push {r r' : Ring} {e : RetEntry} (h : r'.window = r.window ++ [e]) (hn : ∀ y ∈ r.window, y.slot ≠ e.slot) (he : e.slot < 4096) :
    RingKept r r' := by
  intro hr
  rw [h]
  refine ⟨?_, fun y hy => ?_⟩
  · rw [List.map_append, List.nodup_append]
    refine ⟨hr.1, by simp, ?_⟩
    intro a ha b hb
    simp only [List.mem_map] at ha
    obtain ⟨y, hy, rfl⟩ := ha
    simp only [List.map_cons, List.map_nil, List.mem_singleton] at hb
    subst hb
    exact hn y hy
  · rcases List.mem_append.1 hy with hy | hy
    · exact hr.2 y hy
    · rw [List.mem_singleton.1 hy]; exact he

theorem RingKept.put {r r' : Ring} {e : RetEntry} {n : Nat} (h : r'.window = ((r.window.filter fun y => y.slot != e.slot) ++ [e]).drop n)
    (he : e.slot < 4096) : RingKept r r' := by
  intro hr
  rw [h]
  have hk : RingKept { r with window := r.window.filter fun y => y.slot != e.slot }
      { r with window := (r.window.filter fun y => y.slot != e.slot) ++ [e] } :=
    RingKept.push rfl (fun y hy hs => by simp [hs] at hy) he
  exact windowOk_sub (hk (windowOk_sub hr List.filter_sublist)) (List.drop_sublist _ _)

theorem RingKept.dropped {r r' : Ring} (n : Nat) (h : r'.window = r.window.drop n) : RingKept r r' := by
  intro hr
  rw [h]
  exact windowOk_sub hr (List.drop_sublist _ _)

theorem Rings.windowsOk_get {r : Rings} (h : r.windowsOk) (k : Nat) : WindowOk (Tbl.get ({} : Ring) r.pairs k).window := by
  rcases Tbl.get_default_or_mem ({} : Ring) r.pairs k with hk | hk
  · rw [hk]; exact ⟨List.nodup_nil, fun e he => by cases he⟩
  · exact (h.2 _ hk).2

theorem Rings.windowsOk_set {r : Rings} (h : r.windowsOk) (k : BitVec 9) (x : Ring) (hx : RingKept (Tbl.get {} r.pairs k.toNat) x) :
    Rings.windowsOk { r with pairs := Tbl.set {} r.pairs k.toNat x } := by
  refine ⟨Tbl.wf_set _ _ _ _ h.1, fun p hp => ?_⟩
  rcases Tbl.mem_set _ _ _ _ _ hp with rfl | hp
  · exact ⟨k.isLt, hx (Rings.windowsOk_get h _)⟩
  · exact h.2 p hp

theorem Rings.windowsOk_warm {r : Rings} (h : r.windowsOk) : r.warm.windowsOk := by
  obtain ⟨h1, h2⟩ := h
  refine ⟨?_, ?_⟩
  · have hw := (Tbl.wf_iff ({} : Ring) r.pairs).1 h1
    refine (Tbl.wf_iff ({} : Ring) _).2 ⟨?_, ?_⟩
    · have := hw.1
      unfold Tbl.Rising Rings.warm at *
      dsimp only
      rw [List.map_map]
      exact this
    · intro p hp
      unfold Rings.warm at hp
      simp only [List.mem_map] at hp
      obtain ⟨q, hq, rfl⟩ := hp
      dsimp only
      split
      · intro hc
        have := congrArg Ring.phase hc
        cases this
      · exact hw.2 q hq
  · intro p hp
    unfold Rings.warm at hp
    simp only [List.mem_map] at hp
    obtain ⟨q, hq, rfl⟩ := hp
    refine ⟨(h2 q hq).1, ?_⟩
    dsimp only
    split
    · exact (h2 q hq).2
    · exact (h2 q hq).2

theorem StrongKept.life {s t : Strong} {l : Life} (ht : t = { s with life := l }) (h1 : l ≠ .blank) (h2 : s.life ≠ .decommissioned) : StrongKept s t := by
  subst ht
  exact ⟨fun h => h, rfl, BitVec.le_refl _, BitVec.le_refl _, BitVec.le_refl _, fun _ => h1, fun h => absurd h h2, fun _ _ h => h⟩

theorem Cellar.putRaw_wf {c : Cellar} (h : Tbl.wf 0 c.mem = true) (l : Nat) (v : BitVec 1024) : Tbl.wf 0 (c.putRaw l v).mem = true :=
  Memory.wf_writeN _ _ _ h

theorem Cellar.putMeta_wf {c : Cellar} (h : Tbl.wf 0 c.mem = true) (l : Nat) (m : Meta) : Tbl.wf 0 (c.putMeta l m).mem = true :=
  Memory.wf_writeN _ _ _ h

theorem Cellar.mergeRaw_wf {c : Cellar} (h : Tbl.wf 0 c.mem = true) (l : Nat) (m : BitVec 128) (v : BitVec 1024) :
    Tbl.wf 0 (c.mergeRaw l m v).mem = true := Cellar.putRaw_wf h _ _

theorem Cellar.seal_wf {c : Cellar} (h : Tbl.wf 0 c.mem = true) (l : Nat) (k : BitVec 6) (n : BitVec 32) (p : BitVec 1024) :
    Tbl.wf 0 (c.seal l k n p).mem = true := Cellar.putMeta_wf (Cellar.putRaw_wf h _ _) _ _

theorem Memory.wf_spans (m : Memory) (l : List (Nat × Bytes)) (h : Tbl.wf 0 m = true) :
    Tbl.wf 0 (l.foldl (fun m (x : Nat × Bytes) => Memory.writeN m x.1 x.2) m) = true := by
  induction l generalizing m with
  | nil => exact h
  | cons x l ih => exact ih _ (Memory.wf_writeN _ _ _ h)

theorem Sram.put_wf {m : Sram} (h : Tbl.wf 0 m.mem = true) (a : Nat) (bs : Bytes) : Tbl.wf 0 (m.put a bs).mem = true := by
  unfold Sram.put
  split
  · exact Memory.wf_writeN _ _ _ h
  · exact h

theorem StrongKept.refl (s : Strong) : StrongKept s s := .same rfl rfl rfl rfl rfl rfl rfl rfl rfl

theorem StrongKept.trans {s t u : Strong} (a : StrongKept s t) (b : StrongKept t u) : StrongKept s u where
  mem h := b.mem (a.mem h)
  fuses :=
    { serial := b.fuses.serial.trans a.fuses.serial
      arbFw := BitVec.le_trans a.fuses.arbFw b.fuses.arbFw
      arbOwner := BitVec.le_trans a.fuses.arbOwner b.fuses.arbOwner
      cycles := BitVec.le_trans a.fuses.cycles b.fuses.cycles
      left := fun h => b.fuses.left (a.fuses.left h)
      final := fun h => b.fuses.final (a.fuses.final h)
      revoked := fun h k hk => b.fuses.revoked (a.fuses.left h) k (a.fuses.revoked h k hk) }

/-- Device d is device e but for the parts of the list; its memories and its table of rooms stay canonical, and its fuses are kept. -/
structure Keep (ps : List Part) (e d : Dev) : Prop where
  now : .now ∈ ps ∨ d.now = e.now
  free : .free ∈ ps ∨ d.free = e.free
  out : .out ∈ ps ∨ d.out = e.out
  events : .events ∈ ps ∨ d.events = e.events
  ident : .ident ∈ ps ∨ d.ident = e.ident
  flash : .flash ∈ ps ∨ d.flash = e.flash
  rooms : .rooms ∈ ps ∨ d.rooms = e.rooms
  funcs : .funcs ∈ ps ∨ d.funcs = e.funcs
  net : .net ∈ ps ∨ d.net = e.net
  cellar : .cellar ∈ ps ∨ d.cellar = e.cellar
  media : .media ∈ ps ∨ d.media = e.media
  time : .time ∈ ps ∨ d.time = e.time
  link : .link ∈ ps ∨ d.link = e.link
  fabric : .fabric ∈ ps ∨ d.fabric = e.fabric
  loader : .loader ∈ ps ∨ d.loader = e.loader
  rings : .rings ∈ ps ∨ d.rings = e.rings
  cores : .cores ∈ ps ∨ d.cores = e.cores
  sched : .sched ∈ ps ∨ d.sched = e.sched
  record : .record ∈ ps ∨ d.record = e.record
  fwres : .fwres ∈ ps ∨ d.fwres = e.fwres
  acq : .acq ∈ ps ∨ d.acq = e.acq
  fuse : .fuse ∈ ps ∨ d.fuse = e.fuse
  strong : .strong ∈ ps ∨ d.strong = e.strong
  hub : .hub ∈ ps ∨ d.hub = e.hub
  power : .power ∈ ps ∨ d.power = e.power
  tap : .tap ∈ ps ∨ d.tap = e.tap
  mem : Tbl.wf 0 e.cellar.mem = true → Tbl.wf 0 d.cellar.mem = true
  table : Tbl.wf {} e.rooms = true → Tbl.wf {} d.rooms = true
  strong_ : StrongKept e.strong d.strong
  windows : e.rings.windowsOk → d.rings.windowsOk

theorem Keep.refl (ps : List Part) (d : Dev) : Keep ps d d := ⟨.inr rfl, .inr rfl, .inr rfl, .inr rfl, .inr rfl, .inr rfl, .inr rfl, .inr rfl, .inr rfl, .inr rfl, .inr rfl, .inr rfl, .inr rfl, .inr rfl, .inr rfl, .inr rfl, .inr rfl, .inr rfl, .inr rfl, .inr rfl, .inr rfl, .inr rfl, .inr rfl, .inr rfl, .inr rfl, .inr rfl, id, id, .refl _, id⟩

theorem Keep.ite {ps : List Part} {e a b : Dev} {c : Prop} [Decidable c] (ha : Keep ps e a) (hb : Keep ps e b) :
    Keep ps e (if c then a else b) := by split <;> assumption

theorem Keep.fst {ps : List Part} {e a : Dev} {β : Type} {p : Dev × β} {b : β} (hp : p = (a, b)) (h : Keep ps e p.1) : Keep ps e a := by
  subst hp; exact h

theorem Keep.fst2 {ps : List Part} {e a : Dev} {β γ : Type} {p : Dev × β × γ} {b : β} {c : γ} (hp : p = (a, b, c)) (h : Keep ps e p.1) : Keep ps e a := by
  subst hp; exact h

theorem Keep.iteFst {ps : List Part} {e : Dev} {β : Type} {a b : Dev × β} {c : Prop} [Decidable c] (ha : Keep ps e a.1) (hb : Keep ps e b.1) :
    Keep ps e (if c then a else b).1 := by split <;> assumption

theorem Keep.opt {ps : List Part} {e a : Dev} {o : Option Dev} (hp : o = some a) (h : ∀ x, o = some x → Keep ps e x) : Keep ps e a := h a hp

theorem Dev.each_keep {ps : List Part} {e d : Dev} {α : Type} {l : List α} {f : Dev → α → Dev} (h : Keep ps e d)
    (hf : ∀ x y, Keep ps e x → Keep ps e (f x y)) : Keep ps e (d.each l f) := by
  unfold Dev.each
  induction l generalizing d with
  | nil => exact h
  | cons y l ih => exact ih (hf _ _ h)

theorem Keep.upd_acq {ps : List Part} {e d : Dev} (h : Keep ps e d) (hacq : .acq ∈ ps) {xacq}  :
    Keep ps e { d with acq := xacq } :=
  ⟨h.now, h.free, h.out, h.events, h.ident, h.flash, h.rooms, h.funcs, h.net, h.cellar, h.media, h.time, h.link, h.fabric, h.loader, h.rings, h.cores, h.sched, h.record, h.fwres, .inl hacq, h.fuse, h.strong, h.hub, h.power, h.tap, h.mem, h.table, h.strong_, h.windows⟩

theorem Keep.upd_cellar {ps : List Part} {e d : Dev} (h : Keep ps e d) (hcellar : .cellar ∈ ps) {xcellar : Cellar} (hm : Tbl.wf 0 d.cellar.mem = true → Tbl.wf 0 xcellar.mem = true) :
    Keep ps e { d with cellar := xcellar } :=
  ⟨h.now, h.free, h.out, h.events, h.ident, h.flash, h.rooms, h.funcs, h.net, .inl hcellar, h.media, h.time, h.link, h.fabric, h.loader, h.rings, h.cores, h.sched, h.record, h.fwres, h.acq, h.fuse, h.strong, h.hub, h.power, h.tap, fun x => hm (h.mem x), h.table, h.strong_, h.windows⟩

theorem Keep.upd_cores {ps : List Part} {e d : Dev} (h : Keep ps e d) (hcores : .cores ∈ ps) {xcores}  :
    Keep ps e { d with cores := xcores } :=
  ⟨h.now, h.free, h.out, h.events, h.ident, h.flash, h.rooms, h.funcs, h.net, h.cellar, h.media, h.time, h.link, h.fabric, h.loader, h.rings, .inl hcores, h.sched, h.record, h.fwres, h.acq, h.fuse, h.strong, h.hub, h.power, h.tap, h.mem, h.table, h.strong_, h.windows⟩

theorem Keep.upd_events {ps : List Part} {e d : Dev} (h : Keep ps e d) (hevents : .events ∈ ps) {xevents}  :
    Keep ps e { d with events := xevents } :=
  ⟨h.now, h.free, h.out, .inl hevents, h.ident, h.flash, h.rooms, h.funcs, h.net, h.cellar, h.media, h.time, h.link, h.fabric, h.loader, h.rings, h.cores, h.sched, h.record, h.fwres, h.acq, h.fuse, h.strong, h.hub, h.power, h.tap, h.mem, h.table, h.strong_, h.windows⟩

theorem Keep.upd_fabric {ps : List Part} {e d : Dev} (h : Keep ps e d) (hfabric : .fabric ∈ ps) {xfabric}  :
    Keep ps e { d with fabric := xfabric } :=
  ⟨h.now, h.free, h.out, h.events, h.ident, h.flash, h.rooms, h.funcs, h.net, h.cellar, h.media, h.time, h.link, .inl hfabric, h.loader, h.rings, h.cores, h.sched, h.record, h.fwres, h.acq, h.fuse, h.strong, h.hub, h.power, h.tap, h.mem, h.table, h.strong_, h.windows⟩

theorem Keep.upd_flash {ps : List Part} {e d : Dev} (h : Keep ps e d) (hflash : .flash ∈ ps) {xflash}  :
    Keep ps e { d with flash := xflash } :=
  ⟨h.now, h.free, h.out, h.events, h.ident, .inl hflash, h.rooms, h.funcs, h.net, h.cellar, h.media, h.time, h.link, h.fabric, h.loader, h.rings, h.cores, h.sched, h.record, h.fwres, h.acq, h.fuse, h.strong, h.hub, h.power, h.tap, h.mem, h.table, h.strong_, h.windows⟩

theorem Keep.upd_free {ps : List Part} {e d : Dev} (h : Keep ps e d) (hfree : .free ∈ ps) {xfree}  :
    Keep ps e { d with free := xfree } :=
  ⟨h.now, .inl hfree, h.out, h.events, h.ident, h.flash, h.rooms, h.funcs, h.net, h.cellar, h.media, h.time, h.link, h.fabric, h.loader, h.rings, h.cores, h.sched, h.record, h.fwres, h.acq, h.fuse, h.strong, h.hub, h.power, h.tap, h.mem, h.table, h.strong_, h.windows⟩

theorem Keep.upd_funcs {ps : List Part} {e d : Dev} (h : Keep ps e d) (hfuncs : .funcs ∈ ps) {xfuncs}  :
    Keep ps e { d with funcs := xfuncs } :=
  ⟨h.now, h.free, h.out, h.events, h.ident, h.flash, h.rooms, .inl hfuncs, h.net, h.cellar, h.media, h.time, h.link, h.fabric, h.loader, h.rings, h.cores, h.sched, h.record, h.fwres, h.acq, h.fuse, h.strong, h.hub, h.power, h.tap, h.mem, h.table, h.strong_, h.windows⟩

theorem Keep.upd_fuse {ps : List Part} {e d : Dev} (h : Keep ps e d) (hfuse : .fuse ∈ ps) {xfuse}  :
    Keep ps e { d with fuse := xfuse } :=
  ⟨h.now, h.free, h.out, h.events, h.ident, h.flash, h.rooms, h.funcs, h.net, h.cellar, h.media, h.time, h.link, h.fabric, h.loader, h.rings, h.cores, h.sched, h.record, h.fwres, h.acq, .inl hfuse, h.strong, h.hub, h.power, h.tap, h.mem, h.table, h.strong_, h.windows⟩

theorem Keep.upd_hub {ps : List Part} {e d : Dev} (h : Keep ps e d) (hhub : .hub ∈ ps) {xhub}  :
    Keep ps e { d with hub := xhub } :=
  ⟨h.now, h.free, h.out, h.events, h.ident, h.flash, h.rooms, h.funcs, h.net, h.cellar, h.media, h.time, h.link, h.fabric, h.loader, h.rings, h.cores, h.sched, h.record, h.fwres, h.acq, h.fuse, h.strong, .inl hhub, h.power, h.tap, h.mem, h.table, h.strong_, h.windows⟩

theorem Keep.upd_link {ps : List Part} {e d : Dev} (h : Keep ps e d) (hlink : .link ∈ ps) {xlink}  :
    Keep ps e { d with link := xlink } :=
  ⟨h.now, h.free, h.out, h.events, h.ident, h.flash, h.rooms, h.funcs, h.net, h.cellar, h.media, h.time, .inl hlink, h.fabric, h.loader, h.rings, h.cores, h.sched, h.record, h.fwres, h.acq, h.fuse, h.strong, h.hub, h.power, h.tap, h.mem, h.table, h.strong_, h.windows⟩

theorem Keep.upd_loader {ps : List Part} {e d : Dev} (h : Keep ps e d) (hloader : .loader ∈ ps) {xloader}  :
    Keep ps e { d with loader := xloader } :=
  ⟨h.now, h.free, h.out, h.events, h.ident, h.flash, h.rooms, h.funcs, h.net, h.cellar, h.media, h.time, h.link, h.fabric, .inl hloader, h.rings, h.cores, h.sched, h.record, h.fwres, h.acq, h.fuse, h.strong, h.hub, h.power, h.tap, h.mem, h.table, h.strong_, h.windows⟩

theorem Keep.upd_media {ps : List Part} {e d : Dev} (h : Keep ps e d) (hmedia : .media ∈ ps) {xmedia}  :
    Keep ps e { d with media := xmedia } :=
  ⟨h.now, h.free, h.out, h.events, h.ident, h.flash, h.rooms, h.funcs, h.net, h.cellar, .inl hmedia, h.time, h.link, h.fabric, h.loader, h.rings, h.cores, h.sched, h.record, h.fwres, h.acq, h.fuse, h.strong, h.hub, h.power, h.tap, h.mem, h.table, h.strong_, h.windows⟩

theorem Keep.upd_net {ps : List Part} {e d : Dev} (h : Keep ps e d) (hnet : .net ∈ ps) {xnet}  :
    Keep ps e { d with net := xnet } :=
  ⟨h.now, h.free, h.out, h.events, h.ident, h.flash, h.rooms, h.funcs, .inl hnet, h.cellar, h.media, h.time, h.link, h.fabric, h.loader, h.rings, h.cores, h.sched, h.record, h.fwres, h.acq, h.fuse, h.strong, h.hub, h.power, h.tap, h.mem, h.table, h.strong_, h.windows⟩

theorem Keep.upd_now {ps : List Part} {e d : Dev} (h : Keep ps e d) (hnow : .now ∈ ps) {xnow}  :
    Keep ps e { d with now := xnow } :=
  ⟨.inl hnow, h.free, h.out, h.events, h.ident, h.flash, h.rooms, h.funcs, h.net, h.cellar, h.media, h.time, h.link, h.fabric, h.loader, h.rings, h.cores, h.sched, h.record, h.fwres, h.acq, h.fuse, h.strong, h.hub, h.power, h.tap, h.mem, h.table, h.strong_, h.windows⟩

theorem Keep.upd_out {ps : List Part} {e d : Dev} (h : Keep ps e d) (hout : .out ∈ ps) {xout}  :
    Keep ps e { d with out := xout } :=
  ⟨h.now, h.free, .inl hout, h.events, h.ident, h.flash, h.rooms, h.funcs, h.net, h.cellar, h.media, h.time, h.link, h.fabric, h.loader, h.rings, h.cores, h.sched, h.record, h.fwres, h.acq, h.fuse, h.strong, h.hub, h.power, h.tap, h.mem, h.table, h.strong_, h.windows⟩

theorem Keep.upd_power {ps : List Part} {e d : Dev} (h : Keep ps e d) (hpower : .power ∈ ps) {xpower}  :
    Keep ps e { d with power := xpower } :=
  ⟨h.now, h.free, h.out, h.events, h.ident, h.flash, h.rooms, h.funcs, h.net, h.cellar, h.media, h.time, h.link, h.fabric, h.loader, h.rings, h.cores, h.sched, h.record, h.fwres, h.acq, h.fuse, h.strong, h.hub, .inl hpower, h.tap, h.mem, h.table, h.strong_, h.windows⟩

theorem Keep.upd_rings {ps : List Part} {e d : Dev} (h : Keep ps e d) (hrings : .rings ∈ ps) {xrings : Rings} (hw : d.rings.windowsOk → xrings.windowsOk) :
    Keep ps e { d with rings := xrings } :=
  ⟨h.now, h.free, h.out, h.events, h.ident, h.flash, h.rooms, h.funcs, h.net, h.cellar, h.media, h.time, h.link, h.fabric, h.loader, .inl hrings, h.cores, h.sched, h.record, h.fwres, h.acq, h.fuse, h.strong, h.hub, h.power, h.tap, h.mem, h.table, h.strong_, fun x => hw (h.windows x)⟩

theorem Keep.upd_rooms {ps : List Part} {e d : Dev} (h : Keep ps e d) (hrooms : .rooms ∈ ps) {xrooms : Tbl Room} (ht : Tbl.wf {} d.rooms = true → Tbl.wf {} xrooms = true) :
    Keep ps e { d with rooms := xrooms } :=
  ⟨h.now, h.free, h.out, h.events, h.ident, h.flash, .inl hrooms, h.funcs, h.net, h.cellar, h.media, h.time, h.link, h.fabric, h.loader, h.rings, h.cores, h.sched, h.record, h.fwres, h.acq, h.fuse, h.strong, h.hub, h.power, h.tap, h.mem, fun x => ht (h.table x), h.strong_, h.windows⟩

theorem Keep.upd_sched {ps : List Part} {e d : Dev} (h : Keep ps e d) (hsched : .sched ∈ ps) {xsched}  :
    Keep ps e { d with sched := xsched } :=
  ⟨h.now, h.free, h.out, h.events, h.ident, h.flash, h.rooms, h.funcs, h.net, h.cellar, h.media, h.time, h.link, h.fabric, h.loader, h.rings, h.cores, .inl hsched, h.record, h.fwres, h.acq, h.fuse, h.strong, h.hub, h.power, h.tap, h.mem, h.table, h.strong_, h.windows⟩

theorem Keep.upd_strong {ps : List Part} {e d : Dev} (h : Keep ps e d) (hstrong : .strong ∈ ps) {xstrong : Strong} (hs : StrongKept d.strong xstrong) :
    Keep ps e { d with strong := xstrong } :=
  ⟨h.now, h.free, h.out, h.events, h.ident, h.flash, h.rooms, h.funcs, h.net, h.cellar, h.media, h.time, h.link, h.fabric, h.loader, h.rings, h.cores, h.sched, h.record, h.fwres, h.acq, h.fuse, .inl hstrong, h.hub, h.power, h.tap, h.mem, h.table, h.strong_.trans hs, h.windows⟩

theorem Keep.upd_tap {ps : List Part} {e d : Dev} (h : Keep ps e d) (htap : .tap ∈ ps) {xtap}  :
    Keep ps e { d with tap := xtap } :=
  ⟨h.now, h.free, h.out, h.events, h.ident, h.flash, h.rooms, h.funcs, h.net, h.cellar, h.media, h.time, h.link, h.fabric, h.loader, h.rings, h.cores, h.sched, h.record, h.fwres, h.acq, h.fuse, h.strong, h.hub, h.power, .inl htap, h.mem, h.table, h.strong_, h.windows⟩

theorem Keep.upd_time {ps : List Part} {e d : Dev} (h : Keep ps e d) (htime : .time ∈ ps) {xtime}  :
    Keep ps e { d with time := xtime } :=
  ⟨h.now, h.free, h.out, h.events, h.ident, h.flash, h.rooms, h.funcs, h.net, h.cellar, h.media, .inl htime, h.link, h.fabric, h.loader, h.rings, h.cores, h.sched, h.record, h.fwres, h.acq, h.fuse, h.strong, h.hub, h.power, h.tap, h.mem, h.table, h.strong_, h.windows⟩

theorem Keep.upd_many12 {ps : List Part} {e d : Dev} (h : Keep ps e d) (hnet : .net ∈ ps) (hcellar : .cellar ∈ ps) (hmedia : .media ∈ ps) (hlink : .link ∈ ps) (hfabric : .fabric ∈ ps) (hloader : .loader ∈ ps) (hrings : .rings ∈ ps) (hcores : .cores ∈ ps) (hsched : .sched ∈ ps) (hacq : .acq ∈ ps) (hhub : .hub ∈ ps) (hpower : .power ∈ ps) {xnet} {xcellar : Cellar} {xmedia} {xlink} {xfabric} {xloader} {xrings : Rings} {xcores} {xsched} {xacq} {xhub} {xpower} (hm : Tbl.wf 0 d.cellar.mem = true → Tbl.wf 0 xcellar.mem = true) (hw : d.rings.windowsOk → xrings.windowsOk) :
    Keep ps e { d with net := xnet, cellar := xcellar, media := xmedia, link := xlink, fabric := xfabric, loader := xloader, rings := xrings, cores := xcores, sched := xsched, acq := xacq, hub := xhub, power := xpower } :=
  ⟨h.now, h.free, h.out, h.events, h.ident, h.flash, h.rooms, h.funcs, .inl hnet, .inl hcellar, .inl hmedia, h.time, .inl hlink, .inl hfabric, .inl hloader, .inl hrings, .inl hcores, .inl hsched, h.record, h.fwres, .inl hacq, h.fuse, h.strong, .inl hhub, .inl hpower, h.tap, fun x => hm (h.mem x), h.table, h.strong_, fun x => hw (h.windows x)⟩

theorem Keep.upd_many10 {ps : List Part} {e d : Dev} (h : Keep ps e d) (hcellar : .cellar ∈ ps) (hmedia : .media ∈ ps) (htime : .time ∈ ps) (hlink : .link ∈ ps) (hfabric : .fabric ∈ ps) (hloader : .loader ∈ ps) (hrings : .rings ∈ ps) (hcores : .cores ∈ ps) (hstrong : .strong ∈ ps) (hpower : .power ∈ ps) {xcellar : Cellar} {xmedia} {xtime} {xlink} {xfabric} {xloader} {xrings : Rings} {xcores} {xstrong : Strong} {xpower} (hm : Tbl.wf 0 d.cellar.mem = true → Tbl.wf 0 xcellar.mem = true) (hs : StrongKept d.strong xstrong) (hw : d.rings.windowsOk → xrings.windowsOk) :
    Keep ps e { d with cellar := xcellar, media := xmedia, time := xtime, link := xlink, fabric := xfabric, loader := xloader, rings := xrings, cores := xcores, strong := xstrong, power := xpower } :=
  ⟨h.now, h.free, h.out, h.events, h.ident, h.flash, h.rooms, h.funcs, h.net, .inl hcellar, .inl hmedia, .inl htime, .inl hlink, .inl hfabric, .inl hloader, .inl hrings, .inl hcores, h.sched, h.record, h.fwres, h.acq, h.fuse, .inl hstrong, h.hub, .inl hpower, h.tap, fun x => hm (h.mem x), h.table, h.strong_.trans hs, fun x => hw (h.windows x)⟩

theorem Keep.upd_many19 {ps : List Part} {e d : Dev} (h : Keep ps e d) (hnow : .now ∈ ps) (hevents : .events ∈ ps) (hrooms : .rooms ∈ ps) (hfuncs : .funcs ∈ ps) (hnet : .net ∈ ps) (hcellar : .cellar ∈ ps) (hmedia : .media ∈ ps) (htime : .time ∈ ps) (hlink : .link ∈ ps) (hfabric : .fabric ∈ ps) (hloader : .loader ∈ ps) (hrings : .rings ∈ ps) (hcores : .cores ∈ ps) (hsched : .sched ∈ ps) (hacq : .acq ∈ ps) (hfuse : .fuse ∈ ps) (hstrong : .strong ∈ ps) (hhub : .hub ∈ ps) (hpower : .power ∈ ps) {xnow} {xevents} {xrooms : Tbl Room} {xfuncs} {xnet} {xcellar : Cellar} {xmedia} {xtime} {xlink} {xfabric} {xloader} {xrings : Rings} {xcores} {xsched} {xacq} {xfuse} {xstrong : Strong} {xhub} {xpower} (hm : Tbl.wf 0 d.cellar.mem = true → Tbl.wf 0 xcellar.mem = true) (ht : Tbl.wf {} d.rooms = true → Tbl.wf {} xrooms = true) (hs : StrongKept d.strong xstrong) (hw : d.rings.windowsOk → xrings.windowsOk) :
    Keep ps e { d with now := xnow, events := xevents, rooms := xrooms, funcs := xfuncs, net := xnet, cellar := xcellar, media := xmedia, time := xtime, link := xlink, fabric := xfabric, loader := xloader, rings := xrings, cores := xcores, sched := xsched, acq := xacq, fuse := xfuse, strong := xstrong, hub := xhub, power := xpower } :=
  ⟨.inl hnow, h.free, h.out, .inl hevents, h.ident, h.flash, .inl hrooms, .inl hfuncs, .inl hnet, .inl hcellar, .inl hmedia, .inl htime, .inl hlink, .inl hfabric, .inl hloader, .inl hrings, .inl hcores, .inl hsched, h.record, h.fwres, .inl hacq, .inl hfuse, .inl hstrong, .inl hhub, .inl hpower, h.tap, fun x => hm (h.mem x), fun x => ht (h.table x), h.strong_.trans hs, fun x => hw (h.windows x)⟩

theorem Dev.modSched_keep {ps : List Part} {e d : Dev} (h : Keep ps e d) (hsched : .sched ∈ ps) (a1) : Keep ps e (Dev.modSched d a1) := by
  unfold Dev.modSched
  exact Keep.upd_sched h ‹_›

theorem Dev.countSched_keep {ps : List Part} {e d : Dev} (h : Keep ps e d) (hsched : .sched ∈ ps) (a1) : Keep ps e (Dev.countSched d a1) := by
  unfold Dev.countSched
  repeat' first
    | with_reducible assumption
    | with_reducible refine Dev.modSched_keep ?_ ‹_› _
    | (extract_lets +onlyGivenNames lv; (have hx : Keep ps e lv := ?_); (on_goal 1 => clear_value lv); on_goal 2 => subst lv)
    | (extract_lets +onlyGivenNames lv; clear_value lv)
    | extract_lets +onlyGivenNames lv
    | with_reducible refine Keep.ite ?_ ?_
    | split

theorem Dev.setCore_keep {ps : List Part} {e d : Dev} (h : Keep ps e d) (hcores : .cores ∈ ps) (a1 a2) : Keep ps e (Dev.setCore d a1 a2) := by
  unfold Dev.setCore
  exact Keep.upd_cores h ‹_›

theorem Dev.modCore_keep {ps : List Part} {e d : Dev} (h : Keep ps e d) (hcores : .cores ∈ ps) (a1 a2) : Keep ps e (Dev.modCore d a1 a2) := by
  unfold Dev.modCore
  repeat' first
    | with_reducible assumption
    | with_reducible refine Dev.setCore_keep ?_ ‹_› _ _
    | (extract_lets +onlyGivenNames lv; (have hx : Keep ps e lv := ?_); (on_goal 1 => clear_value lv); on_goal 2 => subst lv)
    | (extract_lets +onlyGivenNames lv; clear_value lv)
    | extract_lets +onlyGivenNames lv
    | with_reducible refine Keep.ite ?_ ?_
    | split

theorem Dev.modCoreAt_keep {ps : List Part} {e d : Dev} (h : Keep ps e d) (hcores : .cores ∈ ps) (a1 a2) : Keep ps e (Dev.modCoreAt d a1 a2) := by
  unfold Dev.modCoreAt
  repeat' first
    | with_reducible assumption
    | with_reducible refine Dev.modCore_keep ?_ ‹_› _ _
    | (extract_lets +onlyGivenNames lv; (have hx : Keep ps e lv := ?_); (on_goal 1 => clear_value lv); on_goal 2 => subst lv)
    | (extract_lets +onlyGivenNames lv; clear_value lv)
    | extract_lets +onlyGivenNames lv
    | with_reducible refine Keep.ite ?_ ?_
    | split

theorem Dev.setPhase_keep {ps : List Part} {e d : Dev} (h : Keep ps e d) (hsched : .sched ∈ ps) (a1 a2) : Keep ps e (Dev.setPhase d a1 a2) := by
  unfold Dev.setPhase
  repeat' first
    | with_reducible assumption
    | with_reducible refine Dev.modSched_keep ?_ ‹_› _
    | (extract_lets +onlyGivenNames lv; (have hx : Keep ps e lv := ?_); (on_goal 1 => clear_value lv); on_goal 2 => subst lv)
    | (extract_lets +onlyGivenNames lv; clear_value lv)
    | extract_lets +onlyGivenNames lv
    | with_reducible refine Keep.ite ?_ ?_
    | split

theorem Dev.giveTask_keep {ps : List Part} {e d : Dev} (h : Keep ps e d) (hcores : .cores ∈ ps) (hsched : .sched ∈ ps) (a1 a2) : Keep ps e (Dev.giveTask d a1 a2) := by
  unfold Dev.giveTask
  repeat' first
    | with_reducible assumption
    | with_reducible refine Dev.modCoreAt_keep ?_ ‹_› _ _
    | with_reducible refine Dev.setPhase_keep ?_ ‹_› _ _
    | (extract_lets +onlyGivenNames lv; (have hx : Keep ps e lv := ?_); (on_goal 1 => clear_value lv); on_goal 2 => subst lv)
    | (extract_lets +onlyGivenNames lv; clear_value lv)
    | extract_lets +onlyGivenNames lv
    | with_reducible refine Keep.ite ?_ ?_
    | split

theorem Dev.dispatch_keep {ps : List Part} {e d : Dev} (h : Keep ps e d) (hcores : .cores ∈ ps) (hsched : .sched ∈ ps) (a0) : Keep ps e (Dev.dispatch a0 d) := by
  induction a0 generalizing d  with
  | zero =>
    unfold Dev.dispatch
    repeat' first
      | with_reducible assumption
      | with_reducible refine Dev.giveTask_keep ?_ ‹_› ‹_› _ _
      | (extract_lets +onlyGivenNames lv; (have hx : Keep ps e lv := ?_); (on_goal 1 => clear_value lv); on_goal 2 => subst lv)
      | (extract_lets +onlyGivenNames lv; clear_value lv)
      | extract_lets +onlyGivenNames lv
      | with_reducible refine Keep.ite ?_ ?_
      | split
  | succ n ih =>
    unfold Dev.dispatch
    repeat' first
      | with_reducible assumption
      | with_reducible apply ih
      | with_reducible refine Dev.giveTask_keep ?_ ‹_› ‹_› _ _
      | (extract_lets +onlyGivenNames lv; (have hx : Keep ps e lv := ?_); (on_goal 1 => clear_value lv); on_goal 2 => subst lv)
      | (extract_lets +onlyGivenNames lv; clear_value lv)
      | extract_lets +onlyGivenNames lv
      | with_reducible refine Keep.ite ?_ ?_
      | split

theorem Dev.dispatchAll_keep {ps : List Part} {e d : Dev} (h : Keep ps e d) (hcores : .cores ∈ ps) (hsched : .sched ∈ ps) : Keep ps e (Dev.dispatchAll d) := by
  unfold Dev.dispatchAll
  repeat' first
    | with_reducible assumption
    | with_reducible refine Dev.dispatch_keep ?_ ‹_› ‹_› _
    | (extract_lets +onlyGivenNames lv; (have hx : Keep ps e lv := ?_); (on_goal 1 => clear_value lv); on_goal 2 => subst lv)
    | (extract_lets +onlyGivenNames lv; clear_value lv)
    | extract_lets +onlyGivenNames lv
    | with_reducible refine Keep.ite ?_ ?_
    | split

theorem Dev.freeTask_keep {ps : List Part} {e d : Dev} (h : Keep ps e d) (hsched : .sched ∈ ps) (a1) : Keep ps e (Dev.freeTask d a1) := by
  unfold Dev.freeTask
  repeat' first
    | with_reducible assumption
    | with_reducible refine Dev.modSched_keep ?_ ‹_› _
    | (extract_lets +onlyGivenNames lv; (have hx : Keep ps e lv := ?_); (on_goal 1 => clear_value lv); on_goal 2 => subst lv)
    | (extract_lets +onlyGivenNames lv; clear_value lv)
    | extract_lets +onlyGivenNames lv
    | with_reducible refine Keep.ite ?_ ?_
    | split

theorem Dev.preempt_keep {ps : List Part} {e d : Dev} (h : Keep ps e d) (hcores : .cores ∈ ps) (hsched : .sched ∈ ps) (a1) : Keep ps e (Dev.preempt d a1) := by
  unfold Dev.preempt
  repeat' first
    | with_reducible assumption
    | with_reducible refine Dev.countSched_keep ?_ ‹_› _
    | with_reducible refine Dev.giveTask_keep ?_ ‹_› ‹_› _ _
    | with_reducible refine Dev.setPhase_keep ?_ ‹_› _ _
    | (extract_lets +onlyGivenNames lv; (have hx : Keep ps e lv := ?_); (on_goal 1 => clear_value lv); on_goal 2 => subst lv)
    | (extract_lets +onlyGivenNames lv; clear_value lv)
    | extract_lets +onlyGivenNames lv
    | with_reducible refine Keep.ite ?_ ?_
    | split

theorem Dev.setRing_keep {ps : List Part} {e d : Dev} (h : Keep ps e d) (hrings : .rings ∈ ps) (k : BitVec 9) (x : Ring) (hw : RingKept (d.ring k) x) : Keep ps e (d.setRing k x) :=
  Keep.upd_rings h hrings fun ho => Rings.windowsOk_set ho k x hw

theorem Dev.modRing_keep {ps : List Part} {e d : Dev} (h : Keep ps e d) (hrings : .rings ∈ ps) (k : BitVec 9) (f : Ring → Ring) (hw : RingKept (d.ring k) (f (d.ring k))) :
    Keep ps e (d.modRing k f) := Dev.setRing_keep h hrings k _ hw

theorem Dev.raiseAt_keep {ps : List Part} {e d : Dev} (h : Keep ps e d) (hevents : .events ∈ ps) (a1 a2 a3) : Keep ps e (Dev.raiseAt d a1 a2 a3) := by
  unfold Dev.raiseAt
  exact Keep.upd_events h ‹_›

theorem Dev.raise_keep {ps : List Part} {e d : Dev} (h : Keep ps e d) (hevents : .events ∈ ps) (a1 a2) : Keep ps e (Dev.raise d a1 a2) := by
  unfold Dev.raise
  repeat' first
    | with_reducible assumption
    | with_reducible refine Dev.raiseAt_keep ?_ ‹_› _ _ _
    | (extract_lets +onlyGivenNames lv; (have hx : Keep ps e lv := ?_); (on_goal 1 => clear_value lv); on_goal 2 => subst lv)
    | (extract_lets +onlyGivenNames lv; clear_value lv)
    | extract_lets +onlyGivenNames lv
    | with_reducible refine Keep.ite ?_ ?_
    | split

theorem Dev.reheld_keep {ps : List Part} {e d : Dev} (h : Keep ps e d) (hevents : .events ∈ ps) (hrings : .rings ∈ ps) (a1) : Keep ps e (Dev.reheld d a1) := by
  unfold Dev.reheld
  repeat' first
    | with_reducible assumption
    | (intro hr; with_reducible exact hr)
    | exact RingKept.dropped _ rfl
    | exact RingKept.mapped _ (fun y => by split <;> rfl) (Ring.reapply_window _)
    | exact RingKept.mapped _ (fun y => by split <;> rfl) rfl
    | (refine RingKept.mapped _ ?_ rfl; intro y; rfl)
    | (intro hr; rw [Dev.reach_ring] at hr; exact hr)
    | (intro hr; (try split) <;> exact hr)
    | (intro hr; dsimp only; split <;> exact hr)
    | with_reducible refine Dev.modRing_keep ?_ ‹_› _ _ ?_
    | with_reducible refine Dev.raise_keep ?_ ‹_› _ _
    | (extract_lets +onlyGivenNames lv; (have hx : Keep ps e lv := ?_); (on_goal 1 => clear_value lv); on_goal 2 => subst lv)
    | (extract_lets +onlyGivenNames lv; clear_value lv)
    | extract_lets +onlyGivenNames lv
    | with_reducible refine Keep.ite ?_ ?_
    | split

theorem Dev.reheldAll_keep {ps : List Part} {e d : Dev} (h : Keep ps e d) (hevents : .events ∈ ps) (hrings : .rings ∈ ps) : Keep ps e (Dev.reheldAll d) := by
  unfold Dev.reheldAll
  repeat' first
    | with_reducible assumption
    | with_reducible refine Dev.each_keep ?_ (fun x y hx => ?_)
    | with_reducible refine Dev.reheld_keep ?_ ‹_› ‹_› _
    | (extract_lets +onlyGivenNames lv; (have hx : Keep ps e lv := ?_); (on_goal 1 => clear_value lv); on_goal 2 => subst lv)
    | (extract_lets +onlyGivenNames lv; clear_value lv)
    | extract_lets +onlyGivenNames lv
    | with_reducible refine Keep.ite ?_ ?_
    | split

theorem Dev.placeTask_keep {ps : List Part} {e d : Dev} (h : Keep ps e d) (hevents : .events ∈ ps) (hrings : .rings ∈ ps) (hcores : .cores ∈ ps) (hsched : .sched ∈ ps) (a1 a2 a3 a4) : ∀ x, Dev.placeTask d a1 a2 a3 a4 = some x → Keep ps e x := by
  unfold Dev.placeTask
  repeat' first
    | with_reducible assumption
    | with_reducible refine Dev.dispatchAll_keep ?_ ‹_› ‹_›
    | with_reducible refine Dev.modSched_keep ?_ ‹_› _
    | with_reducible refine Dev.preempt_keep ?_ ‹_› ‹_› _
    | with_reducible refine Dev.reheldAll_keep ?_ ‹_› ‹_›
    | (extract_lets +onlyGivenNames lv; (have hx : Keep ps e lv := ?_); (on_goal 1 => clear_value lv); on_goal 2 => subst lv)
    | (extract_lets +onlyGivenNames lv; clear_value lv)
    | extract_lets +onlyGivenNames lv
    | with_reducible refine Keep.ite ?_ ?_
    | split
    | (intro y hy; cases hy)
    | (intro y hy)

theorem Dev.setLate_keep {ps : List Part} {e d : Dev} (h : Keep ps e d) (hsched : .sched ∈ ps) (a1 a2) : Keep ps e (Dev.setLate d a1 a2) := by
  unfold Dev.setLate
  repeat' first
    | with_reducible assumption
    | with_reducible refine Dev.modSched_keep ?_ ‹_› _
    | (extract_lets +onlyGivenNames lv; (have hx : Keep ps e lv := ?_); (on_goal 1 => clear_value lv); on_goal 2 => subst lv)
    | (extract_lets +onlyGivenNames lv; clear_value lv)
    | extract_lets +onlyGivenNames lv
    | with_reducible refine Keep.ite ?_ ?_
    | split

theorem Dev.newTask_keep {ps : List Part} {e d : Dev} (h : Keep ps e d) (hevents : .events ∈ ps) (hrings : .rings ∈ ps) (hcores : .cores ∈ ps) (hsched : .sched ∈ ps) (a1 a2 a3 a4 a5) : Keep ps e (Dev.newTask d a1 a2 a3 a4 a5) := by
  unfold Dev.newTask
  repeat' first
    | with_reducible assumption
    | with_reducible refine Dev.countSched_keep ?_ ‹_› _
    | with_reducible refine Dev.modSched_keep ?_ ‹_› _
    | with_reducible refine Dev.placeTask_keep ?_ ‹_› ‹_› ‹_› ‹_› _ _ _ _
    | with_reducible refine Dev.setLate_keep ?_ ‹_› _ _
    | with_reducible refine Keep.opt ‹_› ?_
    | (extract_lets +onlyGivenNames lv; (have hx : Keep ps e lv := ?_); (on_goal 1 => clear_value lv); on_goal 2 => subst lv)
    | (extract_lets +onlyGivenNames lv; clear_value lv)
    | extract_lets +onlyGivenNames lv
    | with_reducible refine Keep.ite ?_ ?_
    | split

theorem Dev.refill_keep {ps : List Part} {e d : Dev} (h : Keep ps e d) (hevents : .events ∈ ps) (hrings : .rings ∈ ps) (hcores : .cores ∈ ps) (hsched : .sched ∈ ps) (a0) : Keep ps e (Dev.refill a0 d) := by
  induction a0 generalizing d  with
  | zero =>
    unfold Dev.refill
    repeat' first
      | with_reducible assumption
      | with_reducible refine Dev.modSched_keep ?_ ‹_› _
      | with_reducible refine Dev.placeTask_keep ?_ ‹_› ‹_› ‹_› ‹_› _ _ _ _
      | with_reducible refine Dev.setLate_keep ?_ ‹_› _ _
      | with_reducible refine Keep.opt ‹_› ?_
      | (extract_lets +onlyGivenNames lv; (have hx : Keep ps e lv := ?_); (on_goal 1 => clear_value lv); on_goal 2 => subst lv)
      | (extract_lets +onlyGivenNames lv; clear_value lv)
      | extract_lets +onlyGivenNames lv
      | with_reducible refine Keep.ite ?_ ?_
      | split
  | succ n ih =>
    unfold Dev.refill
    repeat' first
      | with_reducible assumption
      | with_reducible apply ih
      | with_reducible refine Dev.modSched_keep ?_ ‹_› _
      | with_reducible refine Dev.placeTask_keep ?_ ‹_› ‹_› ‹_› ‹_› _ _ _ _
      | with_reducible refine Dev.setLate_keep ?_ ‹_› _ _
      | with_reducible refine Keep.opt ‹_› ?_
      | (extract_lets +onlyGivenNames lv; (have hx : Keep ps e lv := ?_); (on_goal 1 => clear_value lv); on_goal 2 => subst lv)
      | (extract_lets +onlyGivenNames lv; clear_value lv)
      | extract_lets +onlyGivenNames lv
      | with_reducible refine Keep.ite ?_ ?_
      | split

theorem Dev.refillAll_keep {ps : List Part} {e d : Dev} (h : Keep ps e d) (hevents : .events ∈ ps) (hrings : .rings ∈ ps) (hcores : .cores ∈ ps) (hsched : .sched ∈ ps) : Keep ps e (Dev.refillAll d) := by
  unfold Dev.refillAll
  repeat' first
    | with_reducible assumption
    | with_reducible refine Dev.refill_keep ?_ ‹_› ‹_› ‹_› ‹_› _
    | (extract_lets +onlyGivenNames lv; (have hx : Keep ps e lv := ?_); (on_goal 1 => clear_value lv); on_goal 2 => subst lv)
    | (extract_lets +onlyGivenNames lv; clear_value lv)
    | extract_lets +onlyGivenNames lv
    | with_reducible refine Keep.ite ?_ ?_
    | split

theorem Dev.abandon_keep {ps : List Part} {e d : Dev} (h : Keep ps e d) (hevents : .events ∈ ps) (hrings : .rings ∈ ps) (hcores : .cores ∈ ps) (hsched : .sched ∈ ps) (a1) : Keep ps e (Dev.abandon d a1) := by
  unfold Dev.abandon
  repeat' first
    | with_reducible assumption
    | with_reducible refine Dev.countSched_keep ?_ ‹_› _
    | with_reducible refine Dev.dispatchAll_keep ?_ ‹_› ‹_›
    | with_reducible refine Dev.each_keep ?_ (fun x y hx => ?_)
    | with_reducible refine Dev.freeTask_keep ?_ ‹_› _
    | with_reducible refine Dev.modCore_keep ?_ ‹_› _ _
    | with_reducible refine Dev.newTask_keep ?_ ‹_› ‹_› ‹_› ‹_› _ _ _ _ _
    | with_reducible refine Dev.refillAll_keep ?_ ‹_› ‹_› ‹_› ‹_›
    | with_reducible refine Dev.reheldAll_keep ?_ ‹_› ‹_›
    | (extract_lets +onlyGivenNames lv; (have hx : Keep ps e lv := ?_); (on_goal 1 => clear_value lv); on_goal 2 => subst lv)
    | (extract_lets +onlyGivenNames lv; clear_value lv)
    | extract_lets +onlyGivenNames lv
    | with_reducible refine Keep.ite ?_ ?_
    | split

theorem Dev.commitPoint_keep {ps : List Part} {e d : Dev} (h : Keep ps e d) (hrings : .rings ∈ ps) (a1) : Keep ps e (Dev.commitPoint d a1) := by
  unfold Dev.commitPoint
  repeat' first
    | with_reducible assumption
    | (intro hr; with_reducible exact hr)
    | exact RingKept.dropped _ rfl
    | exact RingKept.mapped _ (fun y => by split <;> rfl) (Ring.reapply_window _)
    | exact RingKept.mapped _ (fun y => by split <;> rfl) rfl
    | (refine RingKept.mapped _ ?_ rfl; intro y; rfl)
    | (intro hr; rw [Dev.reach_ring] at hr; exact hr)
    | (intro hr; (try split) <;> exact hr)
    | (intro hr; dsimp only; split <;> exact hr)
    | with_reducible refine Dev.modRing_keep ?_ ‹_› _ _ ?_
    | (extract_lets +onlyGivenNames lv; (have hx : Keep ps e lv := ?_); (on_goal 1 => clear_value lv); on_goal 2 => subst lv)
    | (extract_lets +onlyGivenNames lv; clear_value lv)
    | extract_lets +onlyGivenNames lv
    | with_reducible refine Keep.ite ?_ ?_
    | split

theorem Dev.countRing_keep {ps : List Part} {e d : Dev} (h : Keep ps e d) (hrings : .rings ∈ ps) (n : Nat) : Keep ps e (d.countRing n) :=
  Keep.upd_rings h hrings id

theorem Dev.putLink_keep {ps : List Part} {e d : Dev} (h : Keep ps e d) (hlink : .link ∈ ps) (a1) : Keep ps e (Dev.putLink d a1) := by
  unfold Dev.putLink
  exact Keep.upd_link h ‹_›

theorem Dev.divergence_keep {ps : List Part} {e d : Dev} (h : Keep ps e d) (hevents : .events ∈ ps) (hlink : .link ∈ ps) : Keep ps e (Dev.divergence d) := by
  unfold Dev.divergence
  repeat' first
    | with_reducible assumption
    | with_reducible refine Dev.putLink_keep ?_ ‹_› _
    | with_reducible refine Dev.raise_keep ?_ ‹_› _ _
    | (extract_lets +onlyGivenNames lv; (have hx : Keep ps e lv := ?_); (on_goal 1 => clear_value lv); on_goal 2 => subst lv)
    | (extract_lets +onlyGivenNames lv; clear_value lv)
    | extract_lets +onlyGivenNames lv
    | with_reducible refine Keep.ite ?_ ?_
    | split

theorem Dev.modLink_keep {ps : List Part} {e d : Dev} (h : Keep ps e d) (hlink : .link ∈ ps) (a1) : Keep ps e (Dev.modLink d a1) := by
  unfold Dev.modLink
  exact Keep.upd_link h ‹_›

theorem Dev.countLink_keep {ps : List Part} {e d : Dev} (h : Keep ps e d) (hlink : .link ∈ ps) (a1) : Keep ps e (Dev.countLink d a1) := by
  unfold Dev.countLink
  repeat' first
    | with_reducible assumption
    | with_reducible refine Dev.modLink_keep ?_ ‹_› _
    | (extract_lets +onlyGivenNames lv; (have hx : Keep ps e lv := ?_); (on_goal 1 => clear_value lv); on_goal 2 => subst lv)
    | (extract_lets +onlyGivenNames lv; clear_value lv)
    | extract_lets +onlyGivenNames lv
    | with_reducible refine Keep.ite ?_ ?_
    | split

theorem Dev.setBd_keep {ps : List Part} {e d : Dev} (h : Keep ps e d) (hlink : .link ∈ ps) (a1 a2) : Keep ps e (Dev.setBd d a1 a2) := by
  unfold Dev.setBd
  repeat' first
    | with_reducible assumption
    | with_reducible refine Dev.modLink_keep ?_ ‹_› _
    | (extract_lets +onlyGivenNames lv; (have hx : Keep ps e lv := ?_); (on_goal 1 => clear_value lv); on_goal 2 => subst lv)
    | (extract_lets +onlyGivenNames lv; clear_value lv)
    | extract_lets +onlyGivenNames lv
    | with_reducible refine Keep.ite ?_ ?_
    | split

theorem Dev.modBd_keep {ps : List Part} {e d : Dev} (h : Keep ps e d) (hlink : .link ∈ ps) (a1 a2) : Keep ps e (Dev.modBd d a1 a2) := by
  unfold Dev.modBd
  repeat' first
    | with_reducible assumption
    | with_reducible refine Dev.setBd_keep ?_ ‹_› _ _
    | (extract_lets +onlyGivenNames lv; (have hx : Keep ps e lv := ?_); (on_goal 1 => clear_value lv); on_goal 2 => subst lv)
    | (extract_lets +onlyGivenNames lv; clear_value lv)
    | extract_lets +onlyGivenNames lv
    | with_reducible refine Keep.ite ?_ ?_
    | split

theorem Dev.creditBack_keep {ps : List Part} {e d : Dev} (h : Keep ps e d) (hlink : .link ∈ ps) (a1) : Keep ps e (Dev.creditBack d a1) := by
  unfold Dev.creditBack
  repeat' first
    | with_reducible assumption
    | with_reducible refine Dev.modBd_keep ?_ ‹_› _ _
    | (extract_lets +onlyGivenNames lv; (have hx : Keep ps e lv := ?_); (on_goal 1 => clear_value lv); on_goal 2 => subst lv)
    | (extract_lets +onlyGivenNames lv; clear_value lv)
    | extract_lets +onlyGivenNames lv
    | with_reducible refine Keep.ite ?_ ?_
    | split

theorem Dev.emit_keep {ps : List Part} {e d : Dev} (h : Keep ps e d) (hout : .out ∈ ps) (a1) : Keep ps e (Dev.emit d a1) := by
  unfold Dev.emit
  exact Keep.upd_out h ‹_›

theorem Dev.emitFrame_keep {ps : List Part} {e d : Dev} (h : Keep ps e d) (hout : .out ∈ ps) (a1 a2) : Keep ps e (Dev.emitFrame d a1 a2) := by
  unfold Dev.emitFrame
  repeat' first
    | with_reducible assumption
    | with_reducible refine Dev.emit_keep ?_ ‹_› _
    | (extract_lets +onlyGivenNames lv; (have hx : Keep ps e lv := ?_); (on_goal 1 => clear_value lv); on_goal 2 => subst lv)
    | (extract_lets +onlyGivenNames lv; clear_value lv)
    | extract_lets +onlyGivenNames lv
    | with_reducible refine Keep.ite ?_ ?_
    | split

theorem Dev.sendSeq_keep {ps : List Part} {e d : Dev} (h : Keep ps e d) (hout : .out ∈ ps) (hlink : .link ∈ ps) (a1 a2) : Keep ps e (Dev.sendSeq d a1 a2) := by
  unfold Dev.sendSeq
  repeat' first
    | with_reducible assumption
    | with_reducible refine Dev.emitFrame_keep ?_ ‹_› _ _
    | with_reducible refine Dev.setBd_keep ?_ ‹_› _ _
    | (extract_lets +onlyGivenNames lv; (have hx : Keep ps e lv := ?_); (on_goal 1 => clear_value lv); on_goal 2 => subst lv)
    | (extract_lets +onlyGivenNames lv; clear_value lv)
    | extract_lets +onlyGivenNames lv
    | with_reducible refine Keep.ite ?_ ?_
    | split

theorem Dev.pump_keep {ps : List Part} {e d : Dev} (h : Keep ps e d) (hout : .out ∈ ps) (hlink : .link ∈ ps) (a0 a1) : Keep ps e (Dev.pump a0 a1 d) := by
  induction a1 generalizing d a0 with
  | zero =>
    unfold Dev.pump
    repeat' first
      | with_reducible assumption
      | with_reducible refine Dev.creditBack_keep ?_ ‹_› _
      | with_reducible refine Dev.sendSeq_keep ?_ ‹_› ‹_› _ _
      | with_reducible refine Dev.setBd_keep ?_ ‹_› _ _
      | (extract_lets +onlyGivenNames lv; (have hx : Keep ps e lv := ?_); (on_goal 1 => clear_value lv); on_goal 2 => subst lv)
      | (extract_lets +onlyGivenNames lv; clear_value lv)
      | extract_lets +onlyGivenNames lv
      | with_reducible refine Keep.ite ?_ ?_
      | split
  | succ n ih =>
    unfold Dev.pump
    repeat' first
      | with_reducible assumption
      | with_reducible apply ih
      | with_reducible refine Dev.creditBack_keep ?_ ‹_› _
      | with_reducible refine Dev.sendSeq_keep ?_ ‹_› ‹_› _ _
      | with_reducible refine Dev.setBd_keep ?_ ‹_› _ _
      | (extract_lets +onlyGivenNames lv; (have hx : Keep ps e lv := ?_); (on_goal 1 => clear_value lv); on_goal 2 => subst lv)
      | (extract_lets +onlyGivenNames lv; clear_value lv)
      | extract_lets +onlyGivenNames lv
      | with_reducible refine Keep.ite ?_ ?_
      | split

theorem Dev.sendFrame_keep {ps : List Part} {e d : Dev} (h : Keep ps e d) (hout : .out ∈ ps) (hlink : .link ∈ ps) (a1 a2 a3) : Keep ps e (Dev.sendFrame d a1 a2 a3) := by
  unfold Dev.sendFrame
  repeat' first
    | with_reducible assumption
    | with_reducible refine Dev.modBd_keep ?_ ‹_› _ _
    | with_reducible refine Dev.pump_keep ?_ ‹_› ‹_› _ _
    | (extract_lets +onlyGivenNames lv; (have hx : Keep ps e lv := ?_); (on_goal 1 => clear_value lv); on_goal 2 => subst lv)
    | (extract_lets +onlyGivenNames lv; clear_value lv)
    | extract_lets +onlyGivenNames lv
    | with_reducible refine Keep.ite ?_ ?_
    | split

theorem Dev.routeFrame_keep {ps : List Part} {e d : Dev} (h : Keep ps e d) (hout : .out ∈ ps) (hevents : .events ∈ ps) (hlink : .link ∈ ps) (a1 a2) : Keep ps e (Dev.routeFrame d a1 a2) := by
  unfold Dev.routeFrame
  repeat' first
    | with_reducible assumption
    | with_reducible refine Dev.countLink_keep ?_ ‹_› _
    | with_reducible refine Dev.creditBack_keep ?_ ‹_› _
    | with_reducible refine Dev.raise_keep ?_ ‹_› _ _
    | with_reducible refine Dev.sendFrame_keep ?_ ‹_› ‹_› _ _ _
    | (extract_lets +onlyGivenNames lv; (have hx : Keep ps e lv := ?_); (on_goal 1 => clear_value lv); on_goal 2 => subst lv)
    | (extract_lets +onlyGivenNames lv; clear_value lv)
    | extract_lets +onlyGivenNames lv
    | with_reducible refine Keep.ite ?_ ?_
    | split

theorem Dev.sendOwn_keep {ps : List Part} {e d : Dev} (h : Keep ps e d) (hout : .out ∈ ps) (hevents : .events ∈ ps) (hlink : .link ∈ ps) (a1) : Keep ps e (Dev.sendOwn d a1) := by
  unfold Dev.sendOwn
  repeat' first
    | with_reducible assumption
    | with_reducible refine Dev.modLink_keep ?_ ‹_› _
    | with_reducible refine Dev.routeFrame_keep ?_ ‹_› ‹_› ‹_› _ _
    | (extract_lets +onlyGivenNames lv; (have hx : Keep ps e lv := ?_); (on_goal 1 => clear_value lv); on_goal 2 => subst lv)
    | (extract_lets +onlyGivenNames lv; clear_value lv)
    | extract_lets +onlyGivenNames lv
    | with_reducible refine Keep.ite ?_ ?_
    | split

theorem Dev.sendPacket_keep {ps : List Part} {e d : Dev} (h : Keep ps e d) (hout : .out ∈ ps) (hevents : .events ∈ ps) (hlink : .link ∈ ps) (a1 a2 a3) : Keep ps e (Dev.sendPacket d a1 a2 a3) := by
  unfold Dev.sendPacket
  repeat' first
    | with_reducible assumption
    | with_reducible refine Dev.each_keep ?_ (fun x y hx => ?_)
    | with_reducible refine Dev.sendOwn_keep ?_ ‹_› ‹_› ‹_› _
    | (extract_lets +onlyGivenNames lv; (have hx : Keep ps e lv := ?_); (on_goal 1 => clear_value lv); on_goal 2 => subst lv)
    | (extract_lets +onlyGivenNames lv; clear_value lv)
    | extract_lets +onlyGivenNames lv
    | with_reducible refine Keep.ite ?_ ?_
    | split

theorem Dev.sendMessage_keep {ps : List Part} {e d : Dev} (h : Keep ps e d) (hout : .out ∈ ps) (hevents : .events ∈ ps) (hlink : .link ∈ ps) (a1 a2 a3 a4 a5 a6 a7) : Keep ps e (Dev.sendMessage d a1 a2 a3 a4 a5 a6 a7) := by
  unfold Dev.sendMessage
  repeat' first
    | with_reducible assumption
    | with_reducible refine Dev.sendPacket_keep ?_ ‹_› ‹_› ‹_› _ _ _
    | (extract_lets +onlyGivenNames lv; (have hx : Keep ps e lv := ?_); (on_goal 1 => clear_value lv); on_goal 2 => subst lv)
    | (extract_lets +onlyGivenNames lv; clear_value lv)
    | extract_lets +onlyGivenNames lv
    | with_reducible refine Keep.ite ?_ ?_
    | split

theorem Dev.modEntry_keep {ps : List Part} {e d : Dev} (h : Keep ps e d) (hrings : .rings ∈ ps) (x : DescRef) (f : RetEntry → RetEntry) (hf : ∀ y, (f y).slot = y.slot) :
    Keep ps e (d.modEntry x f) := Dev.modRing_keep h hrings x.ring _ (.mapped _ (fun y => by split <;> [exact hf y; rfl]) rfl)

theorem Dev.unconfirmed_keep {ps : List Part} {e d : Dev} (h : Keep ps e d) (hrings : .rings ∈ ps) (a1) : Keep ps e (Dev.unconfirmed d a1) := by
  unfold Dev.unconfirmed
  repeat' first
    | with_reducible assumption
    | (intro y; with_reducible rfl)
    | (intro y; split <;> rfl)
    | with_reducible refine Dev.modEntry_keep ?_ ‹_› _ _ ?_
    | (extract_lets +onlyGivenNames lv; (have hx : Keep ps e lv := ?_); (on_goal 1 => clear_value lv); on_goal 2 => subst lv)
    | (extract_lets +onlyGivenNames lv; clear_value lv)
    | extract_lets +onlyGivenNames lv
    | with_reducible refine Keep.ite ?_ ?_
    | split

theorem Dev.resolveAwait_keep {ps : List Part} {e d : Dev} (h : Keep ps e d) (hout : .out ∈ ps) (hevents : .events ∈ ps) (hlink : .link ∈ ps) (hrings : .rings ∈ ps) : Keep ps e (Dev.resolveAwait d) := by
  unfold Dev.resolveAwait
  repeat' first
    | with_reducible assumption
    | with_reducible refine Dev.divergence_keep ?_ ‹_› ‹_›
    | with_reducible refine Dev.each_keep ?_ (fun x y hx => ?_)
    | with_reducible refine Dev.putLink_keep ?_ ‹_› _
    | with_reducible refine Dev.sendMessage_keep ?_ ‹_› ‹_› ‹_› _ _ _ _ _ _ _
    | with_reducible refine Dev.unconfirmed_keep ?_ ‹_› _
    | (extract_lets +onlyGivenNames lv; (have hx : Keep ps e lv := ?_); (on_goal 1 => clear_value lv); on_goal 2 => subst lv)
    | (extract_lets +onlyGivenNames lv; clear_value lv)
    | extract_lets +onlyGivenNames lv
    | with_reducible refine Keep.ite ?_ ?_
    | split

theorem Dev.ownStatus_keep {ps : List Part} {e d : Dev} (h : Keep ps e d) (hout : .out ∈ ps) (hevents : .events ∈ ps) (hlink : .link ∈ ps) (hrings : .rings ∈ ps) (a1 a2) : Keep ps e (Dev.ownStatus d a1 a2) := by
  unfold Dev.ownStatus
  repeat' first
    | with_reducible assumption
    | with_reducible refine Dev.putLink_keep ?_ ‹_› _
    | with_reducible refine Dev.resolveAwait_keep ?_ ‹_› ‹_› ‹_› ‹_›
    | (extract_lets +onlyGivenNames lv; (have hx : Keep ps e lv := ?_); (on_goal 1 => clear_value lv); on_goal 2 => subst lv)
    | (extract_lets +onlyGivenNames lv; clear_value lv)
    | extract_lets +onlyGivenNames lv
    | with_reducible refine Keep.ite ?_ ?_
    | split

theorem Dev.putSched_keep {ps : List Part} {e d : Dev} (h : Keep ps e d) (hsched : .sched ∈ ps) (a1) : Keep ps e (Dev.putSched d a1) := by
  unfold Dev.putSched
  exact Keep.upd_sched h ‹_›

theorem Dev.msix_keep {ps : List Part} {e d : Dev} (h : Keep ps e d) (hout : .out ∈ ps) (hsched : .sched ∈ ps) (a1 a2) : Keep ps e (Dev.msix d a1 a2) := by
  unfold Dev.msix
  repeat' first
    | with_reducible assumption
    | with_reducible refine Dev.emit_keep ?_ ‹_› _
    | with_reducible refine Dev.putSched_keep ?_ ‹_› _
    | (extract_lets +onlyGivenNames lv; (have hx : Keep ps e lv := ?_); (on_goal 1 => clear_value lv); on_goal 2 => subst lv)
    | (extract_lets +onlyGivenNames lv; clear_value lv)
    | extract_lets +onlyGivenNames lv
    | with_reducible refine Keep.ite ?_ ?_
    | split

theorem Dev.coalesce_keep {ps : List Part} {e d : Dev} (h : Keep ps e d) (hout : .out ∈ ps) (hrings : .rings ∈ ps) (hsched : .sched ∈ ps) (a1) : Keep ps e (Dev.coalesce d a1) := by
  unfold Dev.coalesce
  repeat' first
    | with_reducible assumption
    | (intro hr; with_reducible exact hr)
    | exact RingKept.dropped _ rfl
    | exact RingKept.mapped _ (fun y => by split <;> rfl) (Ring.reapply_window _)
    | exact RingKept.mapped _ (fun y => by split <;> rfl) rfl
    | (refine RingKept.mapped _ ?_ rfl; intro y; rfl)
    | (intro hr; rw [Dev.reach_ring] at hr; exact hr)
    | (intro hr; (try split) <;> exact hr)
    | (intro hr; dsimp only; split <;> exact hr)
    | with_reducible refine Dev.msix_keep ?_ ‹_› ‹_› _ _
    | with_reducible refine Dev.setRing_keep ?_ ‹_› _ _ ?_
    | (extract_lets +onlyGivenNames lv; (have hx : Keep ps e lv := ?_); (on_goal 1 => clear_value lv); on_goal 2 => subst lv)
    | (extract_lets +onlyGivenNames lv; (have hfn : ∀ y, Keep ps e y → Keep ps e (lv y) := ?_); (on_goal 1 => clear_value lv); on_goal 2 => (intro y hy; subst lv; beta_reduce))
    | (extract_lets +onlyGivenNames lv; (have hfn : ∀ y z, Keep ps e y → Keep ps e (lv y z) := ?_); (on_goal 1 => clear_value lv); on_goal 2 => (intro y z hy; subst lv; beta_reduce))
    | (extract_lets +onlyGivenNames lv; (have hfn : ∀ y, Keep ps e (Prod.fst y) → Keep ps e (lv y) := ?_); (on_goal 1 => clear_value lv); on_goal 2 => (intro y hy; subst lv; beta_reduce))
    | (extract_lets +onlyGivenNames lv; (have hfn : ∀ y, Keep ps e (lv y) := ?_); (on_goal 1 => clear_value lv); on_goal 2 => (intro y; subst lv; beta_reduce))
    | (extract_lets +onlyGivenNames lv; (have _ty : Ring := lv); subst lv; clear _ty)
    | (extract_lets +onlyGivenNames lv; (have _ty : Rings := lv); subst lv; clear _ty)
    | (extract_lets +onlyGivenNames lv; (have _ty : Strong := lv); subst lv; clear _ty)
    | (extract_lets +onlyGivenNames lv; (have _ty : RetEntry → RetEntry := lv); subst lv; clear _ty)
    | (extract_lets +onlyGivenNames lv; clear_value lv)
    | extract_lets +onlyGivenNames lv
    | with_reducible exact hfn _
    | with_reducible exact hfn _ _
    | with_reducible refine hfn _ ?_
    | with_reducible refine hfn _ _ ?_
    | with_reducible refine hfn _ _ _ ?_
    | with_reducible refine Keep.ite ?_ ?_
    | split

theorem Dev.sendApplied_keep {ps : List Part} {e d : Dev} (h : Keep ps e d) (hout : .out ∈ ps) (hevents : .events ∈ ps) (hlink : .link ∈ ps) (a1 a2 a3) : Keep ps e (Dev.sendApplied d a1 a2 a3) := by
  unfold Dev.sendApplied
  repeat' first
    | with_reducible assumption
    | with_reducible refine Dev.sendMessage_keep ?_ ‹_› ‹_› ‹_› _ _ _ _ _ _ _
    | (extract_lets +onlyGivenNames lv; (have hx : Keep ps e lv := ?_); (on_goal 1 => clear_value lv); on_goal 2 => subst lv)
    | (extract_lets +onlyGivenNames lv; clear_value lv)
    | extract_lets +onlyGivenNames lv
    | with_reducible refine Keep.ite ?_ ?_
    | split

theorem Dev.writeHost_keep {ps : List Part} {e d : Dev} (h : Keep ps e d) (hout : .out ∈ ps) (hevents : .events ∈ ps) (hrings : .rings ∈ ps) (a1 a2) : Keep ps e (Dev.writeHost d a1 a2) := by
  unfold Dev.writeHost
  repeat' first
    | with_reducible assumption
    | with_reducible refine Dev.countRing_keep ?_ ‹_› _
    | with_reducible refine Dev.emit_keep ?_ ‹_› _
    | with_reducible refine Dev.raise_keep ?_ ‹_› _ _
    | (extract_lets +onlyGivenNames lv; (have hx : Keep ps e lv := ?_); (on_goal 1 => clear_value lv); on_goal 2 => subst lv)
    | (extract_lets +onlyGivenNames lv; clear_value lv)
    | extract_lets +onlyGivenNames lv
    | with_reducible refine Keep.ite ?_ ?_
    | split

theorem Dev.postOne_keep {ps : List Part} {e d : Dev} (h : Keep ps e d) (hout : .out ∈ ps) (hevents : .events ∈ ps) (hlink : .link ∈ ps) (hrings : .rings ∈ ps) (hsched : .sched ∈ ps) (a1 a2) : Keep ps e (Dev.postOne d a1 a2) := by
  unfold Dev.postOne
  repeat' first
    | with_reducible assumption
    | (intro hr; with_reducible exact hr)
    | exact RingKept.dropped _ rfl
    | exact RingKept.mapped _ (fun y => by split <;> rfl) (Ring.reapply_window _)
    | exact RingKept.mapped _ (fun y => by split <;> rfl) rfl
    | (refine RingKept.mapped _ ?_ rfl; intro y; rfl)
    | (intro hr; rw [Dev.reach_ring] at hr; exact hr)
    | (intro hr; (try split) <;> exact hr)
    | (intro hr; dsimp only; split <;> exact hr)
    | with_reducible refine Dev.coalesce_keep ?_ ‹_› ‹_› ‹_› _
    | with_reducible refine Dev.modRing_keep ?_ ‹_› _ _ ?_
    | with_reducible refine Dev.sendApplied_keep ?_ ‹_› ‹_› ‹_› _ _ _
    | with_reducible refine Dev.writeHost_keep ?_ ‹_› ‹_› ‹_› _ _
    | (extract_lets +onlyGivenNames lv; (have hx : Keep ps e lv := ?_); (on_goal 1 => clear_value lv); on_goal 2 => subst lv)
    | (extract_lets +onlyGivenNames lv; clear_value lv)
    | extract_lets +onlyGivenNames lv
    | with_reducible refine Keep.ite ?_ ?_
    | split

theorem Dev.postRing_keep {ps : List Part} {e d : Dev} (h : Keep ps e d) (hout : .out ∈ ps) (hevents : .events ∈ ps) (hlink : .link ∈ ps) (hrings : .rings ∈ ps) (hsched : .sched ∈ ps) (a1) : Keep ps e (Dev.postRing d a1) := by
  unfold Dev.postRing
  repeat' first
    | with_reducible assumption
    | with_reducible refine Dev.each_keep ?_ (fun x y hx => ?_)
    | with_reducible refine Dev.postOne_keep ?_ ‹_› ‹_› ‹_› ‹_› ‹_› _ _
    | (extract_lets +onlyGivenNames lv; (have hx : Keep ps e lv := ?_); (on_goal 1 => clear_value lv); on_goal 2 => subst lv)
    | (extract_lets +onlyGivenNames lv; clear_value lv)
    | extract_lets +onlyGivenNames lv
    | with_reducible refine Keep.ite ?_ ?_
    | split

theorem Dev.settle_keep {ps : List Part} {e d : Dev} (h : Keep ps e d) (hout : .out ∈ ps) (hevents : .events ∈ ps) (hlink : .link ∈ ps) (hrings : .rings ∈ ps) (hsched : .sched ∈ ps) (a0) : Keep ps e (Dev.settle a0 d) := by
  induction a0 generalizing d  with
  | zero =>
    unfold Dev.settle
    repeat' first
      | with_reducible assumption
      | (intro hr; with_reducible exact hr)
      | exact RingKept.dropped _ rfl
      | exact RingKept.mapped _ (fun y => by split <;> rfl) (Ring.reapply_window _)
      | exact RingKept.mapped _ (fun y => by split <;> rfl) rfl
      | (refine RingKept.mapped _ ?_ rfl; intro y; rfl)
      | (intro hr; rw [Dev.reach_ring] at hr; exact hr)
      | (intro hr; (try split) <;> exact hr)
      | (intro hr; dsimp only; split <;> exact hr)
      | with_reducible refine Dev.modRing_keep ?_ ‹_› _ _ ?_
      | with_reducible refine Dev.ownStatus_keep ?_ ‹_› ‹_› ‹_› ‹_› _ _
      | with_reducible refine Dev.postRing_keep ?_ ‹_› ‹_› ‹_› ‹_› ‹_› _
      | (extract_lets +onlyGivenNames lv; (have hx : Keep ps e lv := ?_); (on_goal 1 => clear_value lv); on_goal 2 => subst lv)
      | (extract_lets +onlyGivenNames lv; (have hfn : ∀ y, Keep ps e y → Keep ps e (lv y) := ?_); (on_goal 1 => clear_value lv); on_goal 2 => (intro y hy; subst lv; beta_reduce))
      | (extract_lets +onlyGivenNames lv; (have hfn : ∀ y z, Keep ps e y → Keep ps e (lv y z) := ?_); (on_goal 1 => clear_value lv); on_goal 2 => (intro y z hy; subst lv; beta_reduce))
      | (extract_lets +onlyGivenNames lv; (have hfn : ∀ y, Keep ps e (Prod.fst y) → Keep ps e (lv y) := ?_); (on_goal 1 => clear_value lv); on_goal 2 => (intro y hy; subst lv; beta_reduce))
      | (extract_lets +onlyGivenNames lv; (have hfn : ∀ y, Keep ps e (lv y) := ?_); (on_goal 1 => clear_value lv); on_goal 2 => (intro y; subst lv; beta_reduce))
      | (extract_lets +onlyGivenNames lv; (have _ty : Ring := lv); subst lv; clear _ty)
      | (extract_lets +onlyGivenNames lv; (have _ty : Rings := lv); subst lv; clear _ty)
      | (extract_lets +onlyGivenNames lv; (have _ty : Strong := lv); subst lv; clear _ty)
      | (extract_lets +onlyGivenNames lv; (have _ty : RetEntry → RetEntry := lv); subst lv; clear _ty)
      | (extract_lets +onlyGivenNames lv; clear_value lv)
      | extract_lets +onlyGivenNames lv
      | with_reducible exact hfn _
      | with_reducible exact hfn _ _
      | with_reducible refine hfn _ ?_
      | with_reducible refine hfn _ _ ?_
      | with_reducible refine hfn _ _ _ ?_
      | with_reducible refine Keep.ite ?_ ?_
      | split
  | succ n ih =>
    unfold Dev.settle
    repeat' first
      | with_reducible assumption
      | with_reducible apply ih
      | (intro hr; with_reducible exact hr)
      | exact RingKept.dropped _ rfl
      | exact RingKept.mapped _ (fun y => by split <;> rfl) (Ring.reapply_window _)
      | exact RingKept.mapped _ (fun y => by split <;> rfl) rfl
      | (refine RingKept.mapped _ ?_ rfl; intro y; rfl)
      | (intro hr; rw [Dev.reach_ring] at hr; exact hr)
      | (intro hr; (try split) <;> exact hr)
      | (intro hr; dsimp only; split <;> exact hr)
      | with_reducible refine Dev.modRing_keep ?_ ‹_› _ _ ?_
      | with_reducible refine Dev.ownStatus_keep ?_ ‹_› ‹_› ‹_› ‹_› _ _
      | with_reducible refine Dev.postRing_keep ?_ ‹_› ‹_› ‹_› ‹_› ‹_› _
      | (extract_lets +onlyGivenNames lv; (have hx : Keep ps e lv := ?_); (on_goal 1 => clear_value lv); on_goal 2 => subst lv)
      | (extract_lets +onlyGivenNames lv; (have hfn : ∀ y, Keep ps e y → Keep ps e (lv y) := ?_); (on_goal 1 => clear_value lv); on_goal 2 => (intro y hy; subst lv; beta_reduce))
      | (extract_lets +onlyGivenNames lv; (have hfn : ∀ y z, Keep ps e y → Keep ps e (lv y z) := ?_); (on_goal 1 => clear_value lv); on_goal 2 => (intro y z hy; subst lv; beta_reduce))
      | (extract_lets +onlyGivenNames lv; (have hfn : ∀ y, Keep ps e (Prod.fst y) → Keep ps e (lv y) := ?_); (on_goal 1 => clear_value lv); on_goal 2 => (intro y hy; subst lv; beta_reduce))
      | (extract_lets +onlyGivenNames lv; (have hfn : ∀ y, Keep ps e (lv y) := ?_); (on_goal 1 => clear_value lv); on_goal 2 => (intro y; subst lv; beta_reduce))
      | (extract_lets +onlyGivenNames lv; (have _ty : Ring := lv); subst lv; clear _ty)
      | (extract_lets +onlyGivenNames lv; (have _ty : Rings := lv); subst lv; clear _ty)
      | (extract_lets +onlyGivenNames lv; (have _ty : Strong := lv); subst lv; clear _ty)
      | (extract_lets +onlyGivenNames lv; (have _ty : RetEntry → RetEntry := lv); subst lv; clear _ty)
      | (extract_lets +onlyGivenNames lv; clear_value lv)
      | extract_lets +onlyGivenNames lv
      | with_reducible exact hfn _
      | with_reducible exact hfn _ _
      | with_reducible refine hfn _ ?_
      | with_reducible refine hfn _ _ ?_
      | with_reducible refine hfn _ _ _ ?_
      | with_reducible refine Keep.ite ?_ ?_
      | split

theorem Dev.finish_keep {ps : List Part} {e d : Dev} (h : Keep ps e d) (hout : .out ∈ ps) (hevents : .events ∈ ps) (hlink : .link ∈ ps) (hrings : .rings ∈ ps) (hsched : .sched ∈ ps) (a1 a2 a3 a4 a5 a6) : Keep ps e (Dev.finish d a1 a2 a3 a4 a5 a6) := by
  unfold Dev.finish
  repeat' first
    | with_reducible assumption
    | (intro hr; with_reducible exact hr)
    | exact RingKept.dropped _ rfl
    | exact RingKept.mapped _ (fun y => by split <;> rfl) (Ring.reapply_window _)
    | exact RingKept.mapped _ (fun y => by split <;> rfl) rfl
    | (refine RingKept.mapped _ ?_ rfl; intro y; rfl)
    | (intro hr; rw [Dev.reach_ring] at hr; exact hr)
    | (intro hr; (try split) <;> exact hr)
    | (intro hr; dsimp only; split <;> exact hr)
    | with_reducible refine Dev.countRing_keep ?_ ‹_› _
    | with_reducible refine Dev.modRing_keep ?_ ‹_› _ _ ?_
    | with_reducible refine Dev.ownStatus_keep ?_ ‹_› ‹_› ‹_› ‹_› _ _
    | with_reducible refine Dev.postRing_keep ?_ ‹_› ‹_› ‹_› ‹_› ‹_› _
    | with_reducible refine Dev.raise_keep ?_ ‹_› _ _
    | with_reducible refine Dev.settle_keep ?_ ‹_› ‹_› ‹_› ‹_› ‹_› _
    | (extract_lets +onlyGivenNames lv; (have hx : Keep ps e lv := ?_); (on_goal 1 => clear_value lv); on_goal 2 => subst lv)
    | (extract_lets +onlyGivenNames lv; clear_value lv)
    | extract_lets +onlyGivenNames lv
    | with_reducible refine Keep.ite ?_ ?_
    | split

theorem Dev.start_keep {ps : List Part} {e d : Dev} (h : Keep ps e d) (hrings : .rings ∈ ps) (a1) : Keep ps e (Dev.start d a1) := by
  unfold Dev.start
  repeat' first
    | with_reducible assumption
    | (intro y; with_reducible rfl)
    | (intro y; split <;> rfl)
    | with_reducible refine Dev.modEntry_keep ?_ ‹_› _ _ ?_
    | (extract_lets +onlyGivenNames lv; (have hx : Keep ps e lv := ?_); (on_goal 1 => clear_value lv); on_goal 2 => subst lv)
    | (extract_lets +onlyGivenNames lv; clear_value lv)
    | extract_lets +onlyGivenNames lv
    | with_reducible refine Keep.ite ?_ ?_
    | split

theorem Dev.runOp_keep {ps : List Part} {e d : Dev} {x : DescRef} {op : Nat} {n : Bool} {f : Dev → RetEntry → Dev} (h : Keep ps e d)
    (hr : .rings ∈ ps) (hf : ∀ x y, Keep ps e x → Keep ps e (f x y)) : Keep ps e (d.runOp x op n f) := by
  unfold Dev.runOp
  split
  · exact h
  · split
    · exact h
    · exact hf _ _ (Dev.start_keep h hr _)

theorem Dev.modCellar_keep {ps : List Part} {e d : Dev} (h : Keep ps e d) (hcellar : .cellar ∈ ps) (f : Cellar → Cellar)
    (hm : ∀ c : Cellar, Tbl.wf 0 c.mem = true → Tbl.wf 0 (f c).mem = true) : Keep ps e (d.modCellar f) :=
  Keep.upd_cellar h hcellar (hm _)

theorem Dev.syncSweeps_keep {ps : List Part} {e d : Dev} (h : Keep ps e d) (hevents : .events ∈ ps) (hcellar : .cellar ∈ ps) : Keep ps e (Dev.syncSweeps d) := by
  unfold Dev.syncSweeps
  repeat' first
    | with_reducible assumption
    | (intro c hc; with_reducible exact hc)
    | (intro c hc; with_reducible exact Cellar.seal_wf hc _ _ _ _)
    | (intro c hc; with_reducible exact Cellar.mergeRaw_wf hc _ _ _)
    | (intro c hc; (try dsimp only [Cellar.count, Cellar.setRegion, Cellar.setKey, Cellar.loadKey, Cellar.decideWb]); with_reducible exact hc)
    | (intro c hc; (try dsimp only [Cellar.count, Cellar.setRegion, Cellar.setKey, Cellar.loadKey, Cellar.decideWb]); with_reducible exact Cellar.seal_wf hc _ _ _ _)
    | (intro c hc; (try dsimp only [Cellar.count, Cellar.setRegion, Cellar.setKey, Cellar.loadKey, Cellar.decideWb]); with_reducible exact Cellar.mergeRaw_wf hc _ _ _)
    | (intro c hc; (try dsimp only [Cellar.count, Cellar.setRegion, Cellar.setKey, Cellar.loadKey, Cellar.decideWb]); with_reducible exact Cellar.putMeta_wf hc _ _)
    | (intro c hc; (try dsimp only [Cellar.count, Cellar.setRegion, Cellar.setKey, Cellar.loadKey, Cellar.decideWb]); with_reducible exact Cellar.putRaw_wf hc _ _)
    | (intro c hc; (try dsimp only [Cellar.count, Cellar.setRegion, Cellar.setKey, Cellar.loadKey, Cellar.decideWb]); with_reducible exact Memory.wf_write _ _ _ hc)
    | (intro c hc; (try dsimp only [Cellar.count, Cellar.setRegion, Cellar.setKey, Cellar.loadKey, Cellar.decideWb]); with_reducible exact Memory.wf_writeN _ _ _ hc)
    | (intro c hc; (try dsimp only [Cellar.count, Cellar.setRegion, Cellar.setKey, Cellar.loadKey, Cellar.decideWb]); with_reducible exact Memory.wf_clearRange _ _ _ hc)
    | (intro c hc; (try dsimp only [Cellar.count, Cellar.setRegion, Cellar.setKey, Cellar.loadKey, Cellar.decideWb]); with_reducible exact Memory.wf_spans _ _ hc)
    | (intro c hc; (repeat' split) <;> with_reducible exact hc)
    | (intro c hc; dsimp only; split <;> exact hc)
    | (intro c hc; exact hc)
    | with_reducible refine Dev.each_keep ?_ (fun x y hx => ?_)
    | with_reducible refine Dev.modCellar_keep ?_ ‹_› _ ?_
    | with_reducible refine Dev.raise_keep ?_ ‹_› _ _
    | (extract_lets +onlyGivenNames lv; (have hx : Keep ps e lv := ?_); (on_goal 1 => clear_value lv); on_goal 2 => subst lv)
    | (extract_lets +onlyGivenNames lv; (have hfn : ∀ y, Keep ps e y → Keep ps e (lv y) := ?_); (on_goal 1 => clear_value lv); on_goal 2 => (intro y hy; subst lv; beta_reduce))
    | (extract_lets +onlyGivenNames lv; (have hfn : ∀ y, Keep ps e (Prod.fst y) → Keep ps e (lv y) := ?_); (on_goal 1 => clear_value lv); on_goal 2 => (intro y hy; subst lv; beta_reduce))
    | (extract_lets +onlyGivenNames lv; (have hfn : ∀ y, Keep ps e (lv y) := ?_); (on_goal 1 => clear_value lv); on_goal 2 => (intro y; subst lv; beta_reduce))
    | (extract_lets +onlyGivenNames lv; clear_value lv)
    | extract_lets +onlyGivenNames lv
    | with_reducible exact hfn _
    | with_reducible exact hfn _ _
    | with_reducible refine hfn _ ?_
    | with_reducible refine hfn _ _ ?_
    | with_reducible refine hfn _ _ _ ?_
    | with_reducible refine Keep.ite ?_ ?_
    | split

theorem Dev.startSweep_keep {ps : List Part} {e d : Dev} (h : Keep ps e d) (hevents : .events ∈ ps) (hcellar : .cellar ∈ ps) (a1 a2) : Keep ps e (Dev.startSweep d a1 a2) := by
  unfold Dev.startSweep
  repeat' first
    | with_reducible assumption
    | (intro c hc; with_reducible exact hc)
    | (intro c hc; with_reducible exact Cellar.seal_wf hc _ _ _ _)
    | (intro c hc; with_reducible exact Cellar.mergeRaw_wf hc _ _ _)
    | (intro c hc; (try dsimp only [Cellar.count, Cellar.setRegion, Cellar.setKey, Cellar.loadKey, Cellar.decideWb]); with_reducible exact hc)
    | (intro c hc; (try dsimp only [Cellar.count, Cellar.setRegion, Cellar.setKey, Cellar.loadKey, Cellar.decideWb]); with_reducible exact Cellar.seal_wf hc _ _ _ _)
    | (intro c hc; (try dsimp only [Cellar.count, Cellar.setRegion, Cellar.setKey, Cellar.loadKey, Cellar.decideWb]); with_reducible exact Cellar.mergeRaw_wf hc _ _ _)
    | (intro c hc; (try dsimp only [Cellar.count, Cellar.setRegion, Cellar.setKey, Cellar.loadKey, Cellar.decideWb]); with_reducible exact Cellar.putMeta_wf hc _ _)
    | (intro c hc; (try dsimp only [Cellar.count, Cellar.setRegion, Cellar.setKey, Cellar.loadKey, Cellar.decideWb]); with_reducible exact Cellar.putRaw_wf hc _ _)
    | (intro c hc; (try dsimp only [Cellar.count, Cellar.setRegion, Cellar.setKey, Cellar.loadKey, Cellar.decideWb]); with_reducible exact Memory.wf_write _ _ _ hc)
    | (intro c hc; (try dsimp only [Cellar.count, Cellar.setRegion, Cellar.setKey, Cellar.loadKey, Cellar.decideWb]); with_reducible exact Memory.wf_writeN _ _ _ hc)
    | (intro c hc; (try dsimp only [Cellar.count, Cellar.setRegion, Cellar.setKey, Cellar.loadKey, Cellar.decideWb]); with_reducible exact Memory.wf_clearRange _ _ _ hc)
    | (intro c hc; (try dsimp only [Cellar.count, Cellar.setRegion, Cellar.setKey, Cellar.loadKey, Cellar.decideWb]); with_reducible exact Memory.wf_spans _ _ hc)
    | (intro c hc; (repeat' split) <;> with_reducible exact hc)
    | (intro c hc; dsimp only; split <;> exact hc)
    | (intro c hc; exact hc)
    | with_reducible refine Dev.modCellar_keep ?_ ‹_› _ ?_
    | with_reducible refine Dev.raise_keep ?_ ‹_› _ _
    | with_reducible refine Dev.syncSweeps_keep ?_ ‹_› ‹_›
    | (extract_lets +onlyGivenNames lv; (have hx : Keep ps e lv := ?_); (on_goal 1 => clear_value lv); on_goal 2 => subst lv)
    | (extract_lets +onlyGivenNames lv; clear_value lv)
    | extract_lets +onlyGivenNames lv
    | with_reducible refine Keep.ite ?_ ?_
    | split

theorem Dev.autoSweeps_keep {ps : List Part} {e d : Dev} (h : Keep ps e d) (hevents : .events ∈ ps) (hcellar : .cellar ∈ ps) : Keep ps e (Dev.autoSweeps d) := by
  unfold Dev.autoSweeps
  repeat' first
    | with_reducible assumption
    | with_reducible refine Dev.each_keep ?_ (fun x y hx => ?_)
    | with_reducible refine Dev.startSweep_keep ?_ ‹_› ‹_› _ _
    | (extract_lets +onlyGivenNames lv; (have hx : Keep ps e lv := ?_); (on_goal 1 => clear_value lv); on_goal 2 => subst lv)
    | (extract_lets +onlyGivenNames lv; clear_value lv)
    | extract_lets +onlyGivenNames lv
    | with_reducible refine Keep.ite ?_ ?_
    | split

theorem Dev.modCores_keep {ps : List Part} {e d : Dev} (h : Keep ps e d) (hcores : .cores ∈ ps) (a1) : Keep ps e (Dev.modCores d a1) := by
  unfold Dev.modCores
  exact Keep.upd_cores h ‹_›

theorem Dev.putFuncs_keep {ps : List Part} {e d : Dev} (h : Keep ps e d) (hfuncs : .funcs ∈ ps) (a1) : Keep ps e (Dev.putFuncs d a1) := by
  unfold Dev.putFuncs
  exact Keep.upd_funcs h ‹_›

theorem Dev.putTime_keep {ps : List Part} {e d : Dev} (h : Keep ps e d) (htime : .time ∈ ps) (a1) : Keep ps e (Dev.putTime d a1) := by
  unfold Dev.putTime
  exact Keep.upd_time h ‹_›

theorem Dev.modLoader_keep {ps : List Part} {e d : Dev} (h : Keep ps e d) (hloader : .loader ∈ ps) (a1) : Keep ps e (Dev.modLoader d a1) := by
  unfold Dev.modLoader
  exact Keep.upd_loader h ‹_›

theorem Dev.setStg_keep {ps : List Part} {e d : Dev} (h : Keep ps e d) (hloader : .loader ∈ ps) (a1 a2) : Keep ps e (Dev.setStg d a1 a2) := by
  unfold Dev.setStg
  repeat' first
    | with_reducible assumption
    | with_reducible refine Dev.modLoader_keep ?_ ‹_› _
    | (extract_lets +onlyGivenNames lv; (have hx : Keep ps e lv := ?_); (on_goal 1 => clear_value lv); on_goal 2 => subst lv)
    | (extract_lets +onlyGivenNames lv; clear_value lv)
    | extract_lets +onlyGivenNames lv
    | with_reducible refine Keep.ite ?_ ?_
    | split

theorem Dev.setRoom_keep {ps : List Part} {e d : Dev} (h : Keep ps e d) (hrooms : .rooms ∈ ps) (r : RoomId) (x : Room) : Keep ps e (d.setRoom r x) :=
  Keep.upd_rooms h hrooms (Tbl.wf_set _ _ _ _)

theorem Dev.modRoom_keep {ps : List Part} {e d : Dev} (h : Keep ps e d) (hrooms : .rooms ∈ ps) (a1 a2) : Keep ps e (Dev.modRoom d a1 a2) := by
  unfold Dev.modRoom
  repeat' first
    | with_reducible assumption
    | with_reducible refine Dev.setRoom_keep ?_ ‹_› _ _
    | (extract_lets +onlyGivenNames lv; (have hx : Keep ps e lv := ?_); (on_goal 1 => clear_value lv); on_goal 2 => subst lv)
    | (extract_lets +onlyGivenNames lv; clear_value lv)
    | extract_lets +onlyGivenNames lv
    | with_reducible refine Keep.ite ?_ ?_
    | split

theorem Dev.putFuse_keep {ps : List Part} {e d : Dev} (h : Keep ps e d) (hfuse : .fuse ∈ ps) (a1) : Keep ps e (Dev.putFuse d a1) := by
  unfold Dev.putFuse
  exact Keep.upd_fuse h ‹_›

theorem Dev.clearRooms_keep {ps : List Part} {e d : Dev} (h : Keep ps e d) (hrooms : .rooms ∈ ps) (hfuse : .fuse ∈ ps) (a1) : Keep ps e (Dev.clearRooms d a1) := by
  unfold Dev.clearRooms
  repeat' first
    | with_reducible assumption
    | with_reducible refine Dev.each_keep ?_ (fun x y hx => ?_)
    | with_reducible refine Dev.modRoom_keep ?_ ‹_› _ _
    | with_reducible refine Dev.putFuse_keep ?_ ‹_› _
    | (extract_lets +onlyGivenNames lv; (have hx : Keep ps e lv := ?_); (on_goal 1 => clear_value lv); on_goal 2 => subst lv)
    | (extract_lets +onlyGivenNames lv; clear_value lv)
    | extract_lets +onlyGivenNames lv
    | with_reducible refine Keep.ite ?_ ?_
    | split

theorem Dev.modNet_keep {ps : List Part} {e d : Dev} (h : Keep ps e d) (hnet : .net ∈ ps) (a1) : Keep ps e (Dev.modNet d a1) := by
  unfold Dev.modNet
  exact Keep.upd_net h ‹_›

theorem Dev.releaseFrames_keep {ps : List Part} {e d : Dev} (h : Keep ps e d) (hlink : .link ∈ ps) (a1 a2) : Keep ps e (Dev.releaseFrames d a1 a2) := by
  unfold Dev.releaseFrames
  repeat' first
    | with_reducible assumption
    | with_reducible refine Dev.modLink_keep ?_ ‹_› _
    | (extract_lets +onlyGivenNames lv; (have hx : Keep ps e lv := ?_); (on_goal 1 => clear_value lv); on_goal 2 => subst lv)
    | (extract_lets +onlyGivenNames lv; clear_value lv)
    | extract_lets +onlyGivenNames lv
    | with_reducible refine Keep.ite ?_ ?_
    | split

theorem Dev.sendDepend_keep {ps : List Part} {e d : Dev} (h : Keep ps e d) (hout : .out ∈ ps) (hevents : .events ∈ ps) (hlink : .link ∈ ps) (a1 a2 a3 a4 a5) : Keep ps e (Dev.sendDepend d a1 a2 a3 a4 a5) := by
  unfold Dev.sendDepend
  repeat' first
    | with_reducible assumption
    | with_reducible refine Dev.sendMessage_keep ?_ ‹_› ‹_› ‹_› _ _ _ _ _ _ _
    | (extract_lets +onlyGivenNames lv; (have hx : Keep ps e lv := ?_); (on_goal 1 => clear_value lv); on_goal 2 => subst lv)
    | (extract_lets +onlyGivenNames lv; clear_value lv)
    | extract_lets +onlyGivenNames lv
    | with_reducible refine Keep.ite ?_ ?_
    | split

theorem Dev.dropFuncLinks_keep {ps : List Part} {e d : Dev} (h : Keep ps e d) (hout : .out ∈ ps) (hevents : .events ∈ ps) (hnet : .net ∈ ps) (hlink : .link ∈ ps) (a1) : Keep ps e (Dev.dropFuncLinks d a1) := by
  unfold Dev.dropFuncLinks
  repeat' first
    | with_reducible assumption
    | with_reducible refine Dev.each_keep ?_ (fun x y hx => ?_)
    | with_reducible refine Dev.modLink_keep ?_ ‹_› _
    | with_reducible refine Dev.modNet_keep ?_ ‹_› _
    | with_reducible refine Dev.releaseFrames_keep ?_ ‹_› _ _
    | with_reducible refine Dev.sendDepend_keep ?_ ‹_› ‹_› ‹_› _ _ _ _ _
    | (extract_lets +onlyGivenNames lv; (have hx : Keep ps e lv := ?_); (on_goal 1 => clear_value lv); on_goal 2 => subst lv)
    | (extract_lets +onlyGivenNames lv; clear_value lv)
    | extract_lets +onlyGivenNames lv
    | with_reducible refine Keep.ite ?_ ?_
    | split

theorem Dev.undoAdmission_keep {ps : List Part} {e d : Dev} (h : Keep ps e d) (hout : .out ∈ ps) (hevents : .events ∈ ps) (hrooms : .rooms ∈ ps) (hfuncs : .funcs ∈ ps) (hnet : .net ∈ ps) (hlink : .link ∈ ps) (hfuse : .fuse ∈ ps) (a1) : Keep ps e (Dev.undoAdmission d a1) := by
  unfold Dev.undoAdmission
  repeat' first
    | with_reducible assumption
    | with_reducible refine Dev.clearRooms_keep ?_ ‹_› ‹_› _
    | with_reducible refine Dev.dropFuncLinks_keep ?_ ‹_› ‹_› ‹_› ‹_› _
    | with_reducible refine Dev.putFuncs_keep ?_ ‹_› _
    | (extract_lets +onlyGivenNames lv; (have hx : Keep ps e lv := ?_); (on_goal 1 => clear_value lv); on_goal 2 => subst lv)
    | (extract_lets +onlyGivenNames lv; clear_value lv)
    | extract_lets +onlyGivenNames lv
    | with_reducible refine Keep.ite ?_ ?_
    | split

theorem Dev.undoOp_keep {ps : List Part} {e d : Dev} (h : Keep ps e d) (hout : .out ∈ ps) (hevents : .events ∈ ps) (hrooms : .rooms ∈ ps) (hfuncs : .funcs ∈ ps) (hnet : .net ∈ ps) (hcellar : .cellar ∈ ps) (htime : .time ∈ ps) (hlink : .link ∈ ps) (hloader : .loader ∈ ps) (hcores : .cores ∈ ps) (hfuse : .fuse ∈ ps) (a0 a1) : Keep ps e (Dev.undoOp a0 a1 d) := by
  unfold Dev.undoOp
  repeat' first
    | with_reducible assumption
    | (intro c hc; with_reducible exact hc)
    | (intro c hc; with_reducible exact Cellar.seal_wf hc _ _ _ _)
    | (intro c hc; with_reducible exact Cellar.mergeRaw_wf hc _ _ _)
    | (intro c hc; (try dsimp only [Cellar.count, Cellar.setRegion, Cellar.setKey, Cellar.loadKey, Cellar.decideWb]); with_reducible exact hc)
    | (intro c hc; (try dsimp only [Cellar.count, Cellar.setRegion, Cellar.setKey, Cellar.loadKey, Cellar.decideWb]); with_reducible exact Cellar.seal_wf hc _ _ _ _)
    | (intro c hc; (try dsimp only [Cellar.count, Cellar.setRegion, Cellar.setKey, Cellar.loadKey, Cellar.decideWb]); with_reducible exact Cellar.mergeRaw_wf hc _ _ _)
    | (intro c hc; (try dsimp only [Cellar.count, Cellar.setRegion, Cellar.setKey, Cellar.loadKey, Cellar.decideWb]); with_reducible exact Cellar.putMeta_wf hc _ _)
    | (intro c hc; (try dsimp only [Cellar.count, Cellar.setRegion, Cellar.setKey, Cellar.loadKey, Cellar.decideWb]); with_reducible exact Cellar.putRaw_wf hc _ _)
    | (intro c hc; (try dsimp only [Cellar.count, Cellar.setRegion, Cellar.setKey, Cellar.loadKey, Cellar.decideWb]); with_reducible exact Memory.wf_write _ _ _ hc)
    | (intro c hc; (try dsimp only [Cellar.count, Cellar.setRegion, Cellar.setKey, Cellar.loadKey, Cellar.decideWb]); with_reducible exact Memory.wf_writeN _ _ _ hc)
    | (intro c hc; (try dsimp only [Cellar.count, Cellar.setRegion, Cellar.setKey, Cellar.loadKey, Cellar.decideWb]); with_reducible exact Memory.wf_clearRange _ _ _ hc)
    | (intro c hc; (try dsimp only [Cellar.count, Cellar.setRegion, Cellar.setKey, Cellar.loadKey, Cellar.decideWb]); with_reducible exact Memory.wf_spans _ _ hc)
    | (intro c hc; (repeat' split) <;> with_reducible exact hc)
    | (intro c hc; dsimp only; split <;> exact hc)
    | (intro c hc; exact hc)
    | with_reducible refine Dev.autoSweeps_keep ?_ ‹_› ‹_›
    | with_reducible refine Dev.modCellar_keep ?_ ‹_› _ ?_
    | with_reducible refine Dev.modCores_keep ?_ ‹_› _
    | with_reducible refine Dev.putFuncs_keep ?_ ‹_› _
    | with_reducible refine Dev.putTime_keep ?_ ‹_› _
    | with_reducible refine Dev.setStg_keep ?_ ‹_› _ _
    | with_reducible refine Dev.undoAdmission_keep ?_ ‹_› ‹_› ‹_› ‹_› ‹_› ‹_› ‹_› _
    | (extract_lets +onlyGivenNames lv; (have hx : Keep ps e lv := ?_); (on_goal 1 => clear_value lv); on_goal 2 => subst lv)
    | (extract_lets +onlyGivenNames lv; clear_value lv)
    | extract_lets +onlyGivenNames lv
    | with_reducible refine Keep.ite ?_ ?_
    | split

theorem Dev.abort_keep {ps : List Part} {e d : Dev} (h : Keep ps e d) (hout : .out ∈ ps) (hevents : .events ∈ ps) (hrooms : .rooms ∈ ps) (hfuncs : .funcs ∈ ps) (hnet : .net ∈ ps) (hcellar : .cellar ∈ ps) (htime : .time ∈ ps) (hlink : .link ∈ ps) (hloader : .loader ∈ ps) (hrings : .rings ∈ ps) (hcores : .cores ∈ ps) (hsched : .sched ∈ ps) (hfuse : .fuse ∈ ps) (a0) : Keep ps e (Dev.abort a0 d) := by
  unfold Dev.abort
  repeat' first
    | with_reducible assumption
    | with_reducible refine Dev.commitPoint_keep ?_ ‹_› _
    | with_reducible refine Dev.finish_keep ?_ ‹_› ‹_› ‹_› ‹_› ‹_› _ _ _ _ _ _
    | with_reducible refine Dev.runOp_keep ?_ ‹_› (fun x y hx => ?_)
    | with_reducible refine Dev.undoOp_keep ?_ ‹_› ‹_› ‹_› ‹_› ‹_› ‹_› ‹_› ‹_› ‹_› ‹_› ‹_› _ _
    | (extract_lets +onlyGivenNames lv; (have hx : Keep ps e lv := ?_); (on_goal 1 => clear_value lv); on_goal 2 => subst lv)
    | (extract_lets +onlyGivenNames lv; clear_value lv)
    | extract_lets +onlyGivenNames lv
    | with_reducible refine Keep.ite ?_ ?_
    | split

theorem Dev.forwardDesc_keep {ps : List Part} {e d : Dev} (h : Keep ps e d) (hout : .out ∈ ps) (hevents : .events ∈ ps) (hlink : .link ∈ ps) (hrings : .rings ∈ ps) (a1 a2) : Keep ps e (Dev.forwardDesc d a1 a2) := by
  unfold Dev.forwardDesc
  repeat' first
    | with_reducible assumption
    | (intro y; with_reducible rfl)
    | (intro y; split <;> rfl)
    | with_reducible refine Dev.modEntry_keep ?_ ‹_› _ _ ?_
    | with_reducible refine Dev.putLink_keep ?_ ‹_› _
    | with_reducible refine Dev.sendMessage_keep ?_ ‹_› ‹_› ‹_› _ _ _ _ _ _ _
    | (extract_lets +onlyGivenNames lv; (have hx : Keep ps e lv := ?_); (on_goal 1 => clear_value lv); on_goal 2 => subst lv)
    | (extract_lets +onlyGivenNames lv; clear_value lv)
    | extract_lets +onlyGivenNames lv
    | with_reducible refine Keep.ite ?_ ?_
    | split

theorem Dev.refuse_keep {ps : List Part} {e d : Dev} (h : Keep ps e d) (hout : .out ∈ ps) (hevents : .events ∈ ps) (hlink : .link ∈ ps) (hrings : .rings ∈ ps) (hsched : .sched ∈ ps) (a1 a2) : Keep ps e (Dev.refuse d a1 a2) := by
  unfold Dev.refuse
  repeat' first
    | with_reducible assumption
    | with_reducible refine Dev.finish_keep ?_ ‹_› ‹_› ‹_› ‹_› ‹_› _ _ _ _ _ _
    | (extract_lets +onlyGivenNames lv; (have hx : Keep ps e lv := ?_); (on_goal 1 => clear_value lv); on_goal 2 => subst lv)
    | (extract_lets +onlyGivenNames lv; clear_value lv)
    | extract_lets +onlyGivenNames lv
    | with_reducible refine Keep.ite ?_ ?_
    | split

theorem Dev.judge_keep {ps : List Part} {e d : Dev} (h : Keep ps e d) (hout : .out ∈ ps) (hevents : .events ∈ ps) (hlink : .link ∈ ps) (hrings : .rings ∈ ps) (hsched : .sched ∈ ps) (a1 a2 a3) : Keep ps e (Dev.judge d a1 a2 a3) := by
  unfold Dev.judge
  repeat' first
    | with_reducible assumption
    | with_reducible refine Dev.commitPoint_keep ?_ ‹_› _
    | with_reducible refine Dev.finish_keep ?_ ‹_› ‹_› ‹_› ‹_› ‹_› _ _ _ _ _ _
    | with_reducible refine Dev.refuse_keep ?_ ‹_› ‹_› ‹_› ‹_› ‹_› _ _
    | (extract_lets +onlyGivenNames lv; (have hx : Keep ps e lv := ?_); (on_goal 1 => clear_value lv); on_goal 2 => subst lv)
    | (extract_lets +onlyGivenNames lv; clear_value lv)
    | extract_lets +onlyGivenNames lv
    | with_reducible refine Keep.ite ?_ ?_
    | split

theorem Dev.putRings_keep {ps : List Part} {e d : Dev} (h : Keep ps e d) (hrings : .rings ∈ ps) (x : Rings) (hw : d.rings.windowsOk → x.windowsOk) : Keep ps e (d.putRings x) :=
  Keep.upd_rings h hrings hw

theorem Dev.accept_keep {ps : List Part} {e d : Dev} (h : Keep ps e d) (hout : .out ∈ ps) (hevents : .events ∈ ps) (hlink : .link ∈ ps) (hrings : .rings ∈ ps) (hsched : .sched ∈ ps) (a1 a2) : Keep ps e (Dev.accept d a1 a2) := by
  unfold Dev.accept
  repeat' first
    | with_reducible assumption
    | (intro hr; with_reducible exact hr)
    | exact RingKept.dropped _ rfl
    | exact RingKept.mapped _ (fun y => by split <;> rfl) (Ring.reapply_window _)
    | exact RingKept.mapped _ (fun y => by split <;> rfl) rfl
    | (refine RingKept.mapped _ ?_ rfl; intro y; rfl)
    | (intro hr; rw [Dev.reach_ring] at hr; exact hr)
    | (intro hr; (try split) <;> exact hr)
    | (intro hr; dsimp only; split <;> exact hr)
    | (intro y; with_reducible rfl)
    | (intro y; split <;> rfl)
    | (intro hx; exact (show Rings.windowsOk _ from hx))
    | with_reducible refine Dev.forwardDesc_keep ?_ ‹_› ‹_› ‹_› ‹_› _ _
    | with_reducible refine Dev.judge_keep ?_ ‹_› ‹_› ‹_› ‹_› ‹_› _ _ _
    | with_reducible refine Dev.modEntry_keep ?_ ‹_› _ _ ?_
    | with_reducible refine Dev.modRing_keep ?_ ‹_› _ _ ?_
    | with_reducible refine Dev.putRings_keep ?_ ‹_› _ ?_
    | (extract_lets +onlyGivenNames lv; (have hx : Keep ps e lv := ?_); (on_goal 1 => clear_value lv); on_goal 2 => subst lv)
    | (extract_lets +onlyGivenNames lv; clear_value lv)
    | extract_lets +onlyGivenNames lv
    | with_reducible refine Keep.ite ?_ ?_
    | split

theorem Dev.bdPhase_keep {ps : List Part} {e d : Dev} (h : Keep ps e d) (hevents : .events ∈ ps) (hlink : .link ∈ ps) (a1 a2) : Keep ps e (Dev.bdPhase d a1 a2) := by
  unfold Dev.bdPhase
  repeat' first
    | with_reducible assumption
    | with_reducible refine Dev.modBd_keep ?_ ‹_› _ _
    | with_reducible refine Dev.raise_keep ?_ ‹_› _ _
    | (extract_lets +onlyGivenNames lv; (have hx : Keep ps e lv := ?_); (on_goal 1 => clear_value lv); on_goal 2 => subst lv)
    | (extract_lets +onlyGivenNames lv; clear_value lv)
    | extract_lets +onlyGivenNames lv
    | with_reducible refine Keep.ite ?_ ?_
    | split

theorem Dev.setLane_keep {ps : List Part} {e d : Dev} (h : Keep ps e d) (hlink : .link ∈ ps) (a1 a2) : Keep ps e (Dev.setLane d a1 a2) := by
  unfold Dev.setLane
  repeat' first
    | with_reducible assumption
    | with_reducible refine Dev.modLink_keep ?_ ‹_› _
    | (extract_lets +onlyGivenNames lv; (have hx : Keep ps e lv := ?_); (on_goal 1 => clear_value lv); on_goal 2 => subst lv)
    | (extract_lets +onlyGivenNames lv; clear_value lv)
    | extract_lets +onlyGivenNames lv
    | with_reducible refine Keep.ite ?_ ?_
    | split

theorem Dev.lanePhase_keep {ps : List Part} {e d : Dev} (h : Keep ps e d) (hevents : .events ∈ ps) (hlink : .link ∈ ps) (a1 a2) : Keep ps e (Dev.lanePhase d a1 a2) := by
  unfold Dev.lanePhase
  repeat' first
    | with_reducible assumption
    | with_reducible refine Dev.raise_keep ?_ ‹_› _ _
    | with_reducible refine Dev.setLane_keep ?_ ‹_› _ _
    | (extract_lets +onlyGivenNames lv; (have hx : Keep ps e lv := ?_); (on_goal 1 => clear_value lv); on_goal 2 => subst lv)
    | (extract_lets +onlyGivenNames lv; clear_value lv)
    | extract_lets +onlyGivenNames lv
    | with_reducible refine Keep.ite ?_ ?_
    | split

theorem Dev.loseQueries_keep {ps : List Part} {e d : Dev} (h : Keep ps e d) (hlink : .link ∈ ps) (a1) : Keep ps e (Dev.loseQueries d a1) := by
  unfold Dev.loseQueries
  repeat' first
    | with_reducible assumption
    | with_reducible refine Dev.modLink_keep ?_ ‹_› _
    | (extract_lets +onlyGivenNames lv; (have hx : Keep ps e lv := ?_); (on_goal 1 => clear_value lv); on_goal 2 => subst lv)
    | (extract_lets +onlyGivenNames lv; clear_value lv)
    | extract_lets +onlyGivenNames lv
    | with_reducible refine Keep.ite ?_ ?_
    | split

theorem Dev.modLane_keep {ps : List Part} {e d : Dev} (h : Keep ps e d) (hlink : .link ∈ ps) (a1 a2) : Keep ps e (Dev.modLane d a1 a2) := by
  unfold Dev.modLane
  repeat' first
    | with_reducible assumption
    | with_reducible refine Dev.setLane_keep ?_ ‹_› _ _
    | (extract_lets +onlyGivenNames lv; (have hx : Keep ps e lv := ?_); (on_goal 1 => clear_value lv); on_goal 2 => subst lv)
    | (extract_lets +onlyGivenNames lv; clear_value lv)
    | extract_lets +onlyGivenNames lv
    | with_reducible refine Keep.ite ?_ ?_
    | split

theorem Dev.setActive_keep {ps : List Part} {e d : Dev} (h : Keep ps e d) (hlink : .link ∈ ps) (a1 a2) : Keep ps e (Dev.setActive d a1 a2) := by
  unfold Dev.setActive
  repeat' first
    | with_reducible assumption
    | with_reducible refine Dev.each_keep ?_ (fun x y hx => ?_)
    | with_reducible refine Dev.modLane_keep ?_ ‹_› _ _
    | with_reducible refine Dev.setBd_keep ?_ ‹_› _ _
    | (extract_lets +onlyGivenNames lv; (have hx : Keep ps e lv := ?_); (on_goal 1 => clear_value lv); on_goal 2 => subst lv)
    | (extract_lets +onlyGivenNames lv; clear_value lv)
    | extract_lets +onlyGivenNames lv
    | with_reducible refine Keep.ite ?_ ?_
    | split

theorem Dev.bundleDown_keep {ps : List Part} {e d : Dev} (h : Keep ps e d) (hevents : .events ∈ ps) (hlink : .link ∈ ps) (a0) : Keep ps e (Dev.bundleDown a0 d) := by
  unfold Dev.bundleDown
  repeat' first
    | with_reducible assumption
    | with_reducible refine Dev.bdPhase_keep ?_ ‹_› ‹_› _ _
    | with_reducible refine Dev.each_keep ?_ (fun x y hx => ?_)
    | with_reducible refine Dev.lanePhase_keep ?_ ‹_› ‹_› _ _
    | with_reducible refine Dev.loseQueries_keep ?_ ‹_› _
    | with_reducible refine Dev.modBd_keep ?_ ‹_› _ _
    | with_reducible refine Dev.setActive_keep ?_ ‹_› _ _
    | (extract_lets +onlyGivenNames lv; (have hx : Keep ps e lv := ?_); (on_goal 1 => clear_value lv); on_goal 2 => subst lv)
    | (extract_lets +onlyGivenNames lv; clear_value lv)
    | extract_lets +onlyGivenNames lv
    | with_reducible refine Keep.ite ?_ ?_
    | split

theorem Dev.countBd_keep {ps : List Part} {e d : Dev} (h : Keep ps e d) (hlink : .link ∈ ps) (a1 a2 a3) : Keep ps e (Dev.countBd d a1 a2 a3) := by
  unfold Dev.countBd
  repeat' first
    | with_reducible assumption
    | with_reducible refine Dev.modBd_keep ?_ ‹_› _ _
    | (extract_lets +onlyGivenNames lv; (have hx : Keep ps e lv := ?_); (on_goal 1 => clear_value lv); on_goal 2 => subst lv)
    | (extract_lets +onlyGivenNames lv; clear_value lv)
    | extract_lets +onlyGivenNames lv
    | with_reducible refine Keep.ite ?_ ?_
    | split

theorem Dev.removeLane_keep {ps : List Part} {e d : Dev} (h : Keep ps e d) (hevents : .events ∈ ps) (hlink : .link ∈ ps) (a0 a1) : Keep ps e (Dev.removeLane a0 a1 d) := by
  unfold Dev.removeLane
  repeat' first
    | with_reducible assumption
    | with_reducible refine Dev.bundleDown_keep ?_ ‹_› ‹_› _
    | with_reducible refine Dev.countBd_keep ?_ ‹_› _ _ _
    | with_reducible refine Dev.raise_keep ?_ ‹_› _ _
    | with_reducible refine Dev.setActive_keep ?_ ‹_› _ _
    | (extract_lets +onlyGivenNames lv; (have hx : Keep ps e lv := ?_); (on_goal 1 => clear_value lv); on_goal 2 => subst lv)
    | (extract_lets +onlyGivenNames lv; clear_value lv)
    | extract_lets +onlyGivenNames lv
    | with_reducible refine Keep.ite ?_ ?_
    | split

theorem Dev.controlFrame_keep {ps : List Part} {e d : Dev} (h : Keep ps e d) (hout : .out ∈ ps) (hevents : .events ∈ ps) (hlink : .link ∈ ps) (a1 a2) : Keep ps e (Dev.controlFrame d a1 a2) := by
  unfold Dev.controlFrame
  repeat' first
    | with_reducible assumption
    | with_reducible refine Dev.each_keep ?_ (fun x y hx => ?_)
    | with_reducible refine Dev.modBd_keep ?_ ‹_› _ _
    | with_reducible refine Dev.pump_keep ?_ ‹_› ‹_› _ _
    | with_reducible refine Dev.raise_keep ?_ ‹_› _ _
    | with_reducible refine Dev.removeLane_keep ?_ ‹_› ‹_› _ _
    | (extract_lets +onlyGivenNames lv; (have hx : Keep ps e lv := ?_); (on_goal 1 => clear_value lv); on_goal 2 => subst lv)
    | (extract_lets +onlyGivenNames lv; clear_value lv)
    | extract_lets +onlyGivenNames lv
    | with_reducible refine Keep.ite ?_ ?_
    | split

theorem Dev.putNet_keep {ps : List Part} {e d : Dev} (h : Keep ps e d) (hnet : .net ∈ ps) (a1) : Keep ps e (Dev.putNet d a1) := by
  unfold Dev.putNet
  exact Keep.upd_net h ‹_›

theorem Dev.hubSend_keep {ps : List Part} {e d : Dev} (h : Keep ps e d) (hrooms : .rooms ∈ ps) (hnet : .net ∈ ps) (a1 a2 a3 a4 a5) : Keep ps e (Dev.hubSend d a1 a2 a3 a4 a5) := by
  unfold Dev.hubSend
  repeat' first
    | with_reducible assumption
    | with_reducible refine Dev.modRoom_keep ?_ ‹_› _ _
    | with_reducible refine Dev.putNet_keep ?_ ‹_› _
    | (extract_lets +onlyGivenNames lv; (have hx : Keep ps e lv := ?_); (on_goal 1 => clear_value lv); on_goal 2 => subst lv)
    | (extract_lets +onlyGivenNames lv; clear_value lv)
    | extract_lets +onlyGivenNames lv
    | with_reducible refine Keep.ite ?_ ?_
    | split

theorem Dev.remoteWords_keep {ps : List Part} {e d : Dev} (h : Keep ps e d) (hevents : .events ∈ ps) (hrooms : .rooms ∈ ps) (hnet : .net ∈ ps) (hlink : .link ∈ ps) (a1) : Keep ps e (Dev.remoteWords d a1) := by
  unfold Dev.remoteWords
  repeat' first
    | with_reducible assumption
    | with_reducible refine Dev.countLink_keep ?_ ‹_› _
    | with_reducible refine Dev.each_keep ?_ (fun x y hx => ?_)
    | with_reducible refine Dev.hubSend_keep ?_ ‹_› ‹_› _ _ _ _ _
    | with_reducible refine Dev.modLink_keep ?_ ‹_› _
    | with_reducible refine Dev.modRoom_keep ?_ ‹_› _ _
    | with_reducible refine Dev.raise_keep ?_ ‹_› _ _
    | (extract_lets +onlyGivenNames lv; (have hx : Keep ps e lv := ?_); (on_goal 1 => clear_value lv); on_goal 2 => subst lv)
    | (extract_lets +onlyGivenNames lv; clear_value lv)
    | extract_lets +onlyGivenNames lv
    | with_reducible refine Keep.ite ?_ ?_
    | split

theorem Dev.applied_keep {ps : List Part} {e d : Dev} (h : Keep ps e d) (hout : .out ∈ ps) (hevents : .events ∈ ps) (hlink : .link ∈ ps) (hrings : .rings ∈ ps) (hsched : .sched ∈ ps) (a0 a1 a2) : Keep ps e (Dev.applied a0 a1 a2 d) := by
  unfold Dev.applied
  repeat' first
    | with_reducible assumption
    | with_reducible refine Dev.modLink_keep ?_ ‹_› _
    | with_reducible refine Dev.postRing_keep ?_ ‹_› ‹_› ‹_› ‹_› ‹_› _
    | with_reducible refine Dev.resolveAwait_keep ?_ ‹_› ‹_› ‹_› ‹_›
    | with_reducible refine Dev.settle_keep ?_ ‹_› ‹_› ‹_› ‹_› ‹_› _
    | (extract_lets +onlyGivenNames lv; (have hx : Keep ps e lv := ?_); (on_goal 1 => clear_value lv); on_goal 2 => subst lv)
    | (extract_lets +onlyGivenNames lv; clear_value lv)
    | extract_lets +onlyGivenNames lv
    | with_reducible refine Keep.ite ?_ ?_
    | split

theorem Dev.modFunc_keep {ps : List Part} {e d : Dev} (h : Keep ps e d) (hfuncs : .funcs ∈ ps) (a1 a2) : Keep ps e (Dev.modFunc d a1 a2) := by
  unfold Dev.modFunc
  exact Keep.upd_funcs h ‹_›

theorem Dev.putHub_keep {ps : List Part} {e d : Dev} (h : Keep ps e d) (hhub : .hub ∈ ps) (a1) : Keep ps e (Dev.putHub d a1) := by
  unfold Dev.putHub
  exact Keep.upd_hub h ‹_›

theorem Dev.noteFigure_keep {ps : List Part} {e d : Dev} (h : Keep ps e d) (hhub : .hub ∈ ps) (a1) : Keep ps e (Dev.noteFigure d a1) := by
  unfold Dev.noteFigure
  repeat' first
    | with_reducible assumption
    | with_reducible refine Dev.putHub_keep ?_ ‹_› _
    | (extract_lets +onlyGivenNames lv; (have hx : Keep ps e lv := ?_); (on_goal 1 => clear_value lv); on_goal 2 => subst lv)
    | (extract_lets +onlyGivenNames lv; clear_value lv)
    | extract_lets +onlyGivenNames lv
    | with_reducible refine Keep.ite ?_ ?_
    | split

theorem Dev.raiseRoom_keep {ps : List Part} {e d : Dev} (h : Keep ps e d) (hevents : .events ∈ ps) (a1 a2) : Keep ps e (Dev.raiseRoom d a1 a2) := by
  unfold Dev.raiseRoom
  repeat' first
    | with_reducible assumption
    | with_reducible refine Dev.raise_keep ?_ ‹_› _ _
    | (extract_lets +onlyGivenNames lv; (have hx : Keep ps e lv := ?_); (on_goal 1 => clear_value lv); on_goal 2 => subst lv)
    | (extract_lets +onlyGivenNames lv; clear_value lv)
    | extract_lets +onlyGivenNames lv
    | with_reducible refine Keep.ite ?_ ?_
    | split

theorem Dev.sendDecision_keep {ps : List Part} {e d : Dev} (h : Keep ps e d) (hout : .out ∈ ps) (hevents : .events ∈ ps) (hlink : .link ∈ ps) (a1 a2) : Keep ps e (Dev.sendDecision d a1 a2) := by
  unfold Dev.sendDecision
  repeat' first
    | with_reducible assumption
    | with_reducible refine Dev.sendPacket_keep ?_ ‹_› ‹_› ‹_› _ _ _
    | (extract_lets +onlyGivenNames lv; (have hx : Keep ps e lv := ?_); (on_goal 1 => clear_value lv); on_goal 2 => subst lv)
    | (extract_lets +onlyGivenNames lv; clear_value lv)
    | extract_lets +onlyGivenNames lv
    | with_reducible refine Keep.ite ?_ ?_
    | split

theorem Dev.carryTrace_keep {ps : List Part} {e d : Dev} (h : Keep ps e d) (hnet : .net ∈ ps) (a1 a2) : Keep ps e (Dev.carryTrace d a1 a2) := by
  unfold Dev.carryTrace
  repeat' first
    | with_reducible assumption
    | with_reducible refine Dev.putNet_keep ?_ ‹_› _
    | (extract_lets +onlyGivenNames lv; (have hx : Keep ps e lv := ?_); (on_goal 1 => clear_value lv); on_goal 2 => subst lv)
    | (extract_lets +onlyGivenNames lv; clear_value lv)
    | extract_lets +onlyGivenNames lv
    | with_reducible refine Keep.ite ?_ ?_
    | split

theorem Dev.setStream_keep {ps : List Part} {e d : Dev} (h : Keep ps e d) (hcores : .cores ∈ ps) (a1 a2) : Keep ps e (Dev.setStream d a1 a2) := by
  unfold Dev.setStream
  exact Keep.upd_cores h ‹_›

theorem Dev.modSram_keep {ps : List Part} {e d : Dev} (h : Keep ps e d) (hstrong : .strong ∈ ps) (f : Sram → Sram)
    (hm : ∀ m : Sram, Tbl.wf 0 m.mem = true → Tbl.wf 0 (f m).mem = true) : Keep ps e (d.modSram f) :=
  Keep.upd_strong h hstrong (.of (fun x => ⟨hm _ x.1, x.2⟩) rfl rfl rfl rfl rfl rfl)

theorem Dev.cellarRefuse_keep {ps : List Part} {e d : Dev} (h : Keep ps e d) (hevents : .events ∈ ps) (hcellar : .cellar ∈ ps) : Keep ps e (Dev.cellarRefuse d) := by
  unfold Dev.cellarRefuse
  repeat' first
    | with_reducible assumption
    | (intro c hc; with_reducible exact hc)
    | (intro c hc; with_reducible exact Cellar.seal_wf hc _ _ _ _)
    | (intro c hc; with_reducible exact Cellar.mergeRaw_wf hc _ _ _)
    | (intro c hc; (try dsimp only [Cellar.count, Cellar.setRegion, Cellar.setKey, Cellar.loadKey, Cellar.decideWb]); with_reducible exact hc)
    | (intro c hc; (try dsimp only [Cellar.count, Cellar.setRegion, Cellar.setKey, Cellar.loadKey, Cellar.decideWb]); with_reducible exact Cellar.seal_wf hc _ _ _ _)
    | (intro c hc; (try dsimp only [Cellar.count, Cellar.setRegion, Cellar.setKey, Cellar.loadKey, Cellar.decideWb]); with_reducible exact Cellar.mergeRaw_wf hc _ _ _)
    | (intro c hc; (try dsimp only [Cellar.count, Cellar.setRegion, Cellar.setKey, Cellar.loadKey, Cellar.decideWb]); with_reducible exact Cellar.putMeta_wf hc _ _)
    | (intro c hc; (try dsimp only [Cellar.count, Cellar.setRegion, Cellar.setKey, Cellar.loadKey, Cellar.decideWb]); with_reducible exact Cellar.putRaw_wf hc _ _)
    | (intro c hc; (try dsimp only [Cellar.count, Cellar.setRegion, Cellar.setKey, Cellar.loadKey, Cellar.decideWb]); with_reducible exact Memory.wf_write _ _ _ hc)
    | (intro c hc; (try dsimp only [Cellar.count, Cellar.setRegion, Cellar.setKey, Cellar.loadKey, Cellar.decideWb]); with_reducible exact Memory.wf_writeN _ _ _ hc)
    | (intro c hc; (try dsimp only [Cellar.count, Cellar.setRegion, Cellar.setKey, Cellar.loadKey, Cellar.decideWb]); with_reducible exact Memory.wf_clearRange _ _ _ hc)
    | (intro c hc; (try dsimp only [Cellar.count, Cellar.setRegion, Cellar.setKey, Cellar.loadKey, Cellar.decideWb]); with_reducible exact Memory.wf_spans _ _ hc)
    | (intro c hc; (repeat' split) <;> with_reducible exact hc)
    | (intro c hc; dsimp only; split <;> exact hc)
    | (intro c hc; exact hc)
    | with_reducible refine Dev.modCellar_keep ?_ ‹_› _ ?_
    | with_reducible refine Dev.raise_keep ?_ ‹_› _ _
    | (extract_lets +onlyGivenNames lv; (have hx : Keep ps e lv := ?_); (on_goal 1 => clear_value lv); on_goal 2 => subst lv)
    | (extract_lets +onlyGivenNames lv; clear_value lv)
    | extract_lets +onlyGivenNames lv
    | with_reducible refine Keep.ite ?_ ?_
    | split

theorem Dev.deadWords_keep {ps : List Part} {e d : Dev} (h : Keep ps e d) (hevents : .events ∈ ps) (hcellar : .cellar ∈ ps) (a1 a2 a3) : Keep ps e (Dev.deadWords d a1 a2 a3) := by
  unfold Dev.deadWords
  repeat' first
    | with_reducible assumption
    | (intro c hc; with_reducible exact hc)
    | (intro c hc; with_reducible exact Cellar.seal_wf hc _ _ _ _)
    | (intro c hc; with_reducible exact Cellar.mergeRaw_wf hc _ _ _)
    | (intro c hc; (try dsimp only [Cellar.count, Cellar.setRegion, Cellar.setKey, Cellar.loadKey, Cellar.decideWb]); with_reducible exact hc)
    | (intro c hc; (try dsimp only [Cellar.count, Cellar.setRegion, Cellar.setKey, Cellar.loadKey, Cellar.decideWb]); with_reducible exact Cellar.seal_wf hc _ _ _ _)
    | (intro c hc; (try dsimp only [Cellar.count, Cellar.setRegion, Cellar.setKey, Cellar.loadKey, Cellar.decideWb]); with_reducible exact Cellar.mergeRaw_wf hc _ _ _)
    | (intro c hc; (try dsimp only [Cellar.count, Cellar.setRegion, Cellar.setKey, Cellar.loadKey, Cellar.decideWb]); with_reducible exact Cellar.putMeta_wf hc _ _)
    | (intro c hc; (try dsimp only [Cellar.count, Cellar.setRegion, Cellar.setKey, Cellar.loadKey, Cellar.decideWb]); with_reducible exact Cellar.putRaw_wf hc _ _)
    | (intro c hc; (try dsimp only [Cellar.count, Cellar.setRegion, Cellar.setKey, Cellar.loadKey, Cellar.decideWb]); with_reducible exact Memory.wf_write _ _ _ hc)
    | (intro c hc; (try dsimp only [Cellar.count, Cellar.setRegion, Cellar.setKey, Cellar.loadKey, Cellar.decideWb]); with_reducible exact Memory.wf_writeN _ _ _ hc)
    | (intro c hc; (try dsimp only [Cellar.count, Cellar.setRegion, Cellar.setKey, Cellar.loadKey, Cellar.decideWb]); with_reducible exact Memory.wf_clearRange _ _ _ hc)
    | (intro c hc; (try dsimp only [Cellar.count, Cellar.setRegion, Cellar.setKey, Cellar.loadKey, Cellar.decideWb]); with_reducible exact Memory.wf_spans _ _ hc)
    | (intro c hc; (repeat' split) <;> with_reducible exact hc)
    | (intro c hc; dsimp only; split <;> exact hc)
    | (intro c hc; exact hc)
    | with_reducible refine Dev.modCellar_keep ?_ ‹_› _ ?_
    | with_reducible refine Dev.raise_keep ?_ ‹_› _ _
    | (extract_lets +onlyGivenNames lv; (have hx : Keep ps e lv := ?_); (on_goal 1 => clear_value lv); on_goal 2 => subst lv)
    | (extract_lets +onlyGivenNames lv; clear_value lv)
    | extract_lets +onlyGivenNames lv
    | with_reducible refine Keep.ite ?_ ?_
    | split

theorem Dev.startRepair_keep {ps : List Part} {e d : Dev} (h : Keep ps e d) (hevents : .events ∈ ps) (hcellar : .cellar ∈ ps) (a1 a2) : Keep ps e (Dev.startRepair d a1 a2) := by
  unfold Dev.startRepair
  repeat' first
    | with_reducible assumption
    | (intro c hc; with_reducible exact hc)
    | (intro c hc; with_reducible exact Cellar.seal_wf hc _ _ _ _)
    | (intro c hc; with_reducible exact Cellar.mergeRaw_wf hc _ _ _)
    | (intro c hc; (try dsimp only [Cellar.count, Cellar.setRegion, Cellar.setKey, Cellar.loadKey, Cellar.decideWb]); with_reducible exact hc)
    | (intro c hc; (try dsimp only [Cellar.count, Cellar.setRegion, Cellar.setKey, Cellar.loadKey, Cellar.decideWb]); with_reducible exact Cellar.seal_wf hc _ _ _ _)
    | (intro c hc; (try dsimp only [Cellar.count, Cellar.setRegion, Cellar.setKey, Cellar.loadKey, Cellar.decideWb]); with_reducible exact Cellar.mergeRaw_wf hc _ _ _)
    | (intro c hc; (try dsimp only [Cellar.count, Cellar.setRegion, Cellar.setKey, Cellar.loadKey, Cellar.decideWb]); with_reducible exact Cellar.putMeta_wf hc _ _)
    | (intro c hc; (try dsimp only [Cellar.count, Cellar.setRegion, Cellar.setKey, Cellar.loadKey, Cellar.decideWb]); with_reducible exact Cellar.putRaw_wf hc _ _)
    | (intro c hc; (try dsimp only [Cellar.count, Cellar.setRegion, Cellar.setKey, Cellar.loadKey, Cellar.decideWb]); with_reducible exact Memory.wf_write _ _ _ hc)
    | (intro c hc; (try dsimp only [Cellar.count, Cellar.setRegion, Cellar.setKey, Cellar.loadKey, Cellar.decideWb]); with_reducible exact Memory.wf_writeN _ _ _ hc)
    | (intro c hc; (try dsimp only [Cellar.count, Cellar.setRegion, Cellar.setKey, Cellar.loadKey, Cellar.decideWb]); with_reducible exact Memory.wf_clearRange _ _ _ hc)
    | (intro c hc; (try dsimp only [Cellar.count, Cellar.setRegion, Cellar.setKey, Cellar.loadKey, Cellar.decideWb]); with_reducible exact Memory.wf_spans _ _ hc)
    | (intro c hc; (repeat' split) <;> with_reducible exact hc)
    | (intro c hc; dsimp only; split <;> exact hc)
    | (intro c hc; exact hc)
    | with_reducible refine Dev.modCellar_keep ?_ ‹_› _ ?_
    | with_reducible refine Dev.syncSweeps_keep ?_ ‹_› ‹_›
    | (extract_lets +onlyGivenNames lv; (have hx : Keep ps e lv := ?_); (on_goal 1 => clear_value lv); on_goal 2 => subst lv)
    | (extract_lets +onlyGivenNames lv; clear_value lv)
    | extract_lets +onlyGivenNames lv
    | with_reducible refine Keep.ite ?_ ?_
    | split

theorem Dev.rowEcc_keep {ps : List Part} {e d : Dev} (h : Keep ps e d) (hevents : .events ∈ ps) (hcellar : .cellar ∈ ps) (a1 a2 a3) : Keep ps e (Dev.rowEcc d a1 a2 a3) := by
  unfold Dev.rowEcc
  repeat' first
    | with_reducible assumption
    | (intro c hc; with_reducible exact hc)
    | (intro c hc; with_reducible exact Cellar.seal_wf hc _ _ _ _)
    | (intro c hc; with_reducible exact Cellar.mergeRaw_wf hc _ _ _)
    | (intro c hc; (try dsimp only [Cellar.count, Cellar.setRegion, Cellar.setKey, Cellar.loadKey, Cellar.decideWb]); with_reducible exact hc)
    | (intro c hc; (try dsimp only [Cellar.count, Cellar.setRegion, Cellar.setKey, Cellar.loadKey, Cellar.decideWb]); with_reducible exact Cellar.seal_wf hc _ _ _ _)
    | (intro c hc; (try dsimp only [Cellar.count, Cellar.setRegion, Cellar.setKey, Cellar.loadKey, Cellar.decideWb]); with_reducible exact Cellar.mergeRaw_wf hc _ _ _)
    | (intro c hc; (try dsimp only [Cellar.count, Cellar.setRegion, Cellar.setKey, Cellar.loadKey, Cellar.decideWb]); with_reducible exact Cellar.putMeta_wf hc _ _)
    | (intro c hc; (try dsimp only [Cellar.count, Cellar.setRegion, Cellar.setKey, Cellar.loadKey, Cellar.decideWb]); with_reducible exact Cellar.putRaw_wf hc _ _)
    | (intro c hc; (try dsimp only [Cellar.count, Cellar.setRegion, Cellar.setKey, Cellar.loadKey, Cellar.decideWb]); with_reducible exact Memory.wf_write _ _ _ hc)
    | (intro c hc; (try dsimp only [Cellar.count, Cellar.setRegion, Cellar.setKey, Cellar.loadKey, Cellar.decideWb]); with_reducible exact Memory.wf_writeN _ _ _ hc)
    | (intro c hc; (try dsimp only [Cellar.count, Cellar.setRegion, Cellar.setKey, Cellar.loadKey, Cellar.decideWb]); with_reducible exact Memory.wf_clearRange _ _ _ hc)
    | (intro c hc; (try dsimp only [Cellar.count, Cellar.setRegion, Cellar.setKey, Cellar.loadKey, Cellar.decideWb]); with_reducible exact Memory.wf_spans _ _ hc)
    | (intro c hc; (repeat' split) <;> with_reducible exact hc)
    | (intro c hc; dsimp only; split <;> exact hc)
    | (intro c hc; exact hc)
    | with_reducible refine Dev.modCellar_keep ?_ ‹_› _ ?_
    | with_reducible refine Dev.raise_keep ?_ ‹_› _ _
    | with_reducible refine Dev.startRepair_keep ?_ ‹_› ‹_› _ _
    | (extract_lets +onlyGivenNames lv; (have hx : Keep ps e lv := ?_); (on_goal 1 => clear_value lv); on_goal 2 => subst lv)
    | (extract_lets +onlyGivenNames lv; clear_value lv)
    | extract_lets +onlyGivenNames lv
    | with_reducible refine Keep.ite ?_ ?_
    | split

theorem Dev.metaEcc_keep {ps : List Part} {e d : Dev} (h : Keep ps e d) (hevents : .events ∈ ps) (hcellar : .cellar ∈ ps) (a1 a2) : Keep ps e (Dev.metaEcc d a1 a2) := by
  unfold Dev.metaEcc
  repeat' first
    | with_reducible assumption
    | with_reducible refine Dev.deadWords_keep ?_ ‹_› ‹_› _ _ _
    | with_reducible refine Dev.rowEcc_keep ?_ ‹_› ‹_› _ _ _
    | (extract_lets +onlyGivenNames lv; (have hx : Keep ps e lv := ?_); (on_goal 1 => clear_value lv); on_goal 2 => subst lv)
    | (extract_lets +onlyGivenNames lv; clear_value lv)
    | extract_lets +onlyGivenNames lv
    | with_reducible refine Keep.ite ?_ ?_
    | split

theorem Dev.reseal_keep {ps : List Part} {e d : Dev} (h : Keep ps e d) (hevents : .events ∈ ps) (hcellar : .cellar ∈ ps) (a1 a2 a3 a4) : Keep ps e (Dev.reseal d a1 a2 a3 a4).1 := by
  unfold Dev.reseal
  repeat' first
    | with_reducible assumption
    | (intro c hc; with_reducible exact hc)
    | (intro c hc; with_reducible exact Cellar.seal_wf hc _ _ _ _)
    | (intro c hc; with_reducible exact Cellar.mergeRaw_wf hc _ _ _)
    | (intro c hc; (try dsimp only [Cellar.count, Cellar.setRegion, Cellar.setKey, Cellar.loadKey, Cellar.decideWb]); with_reducible exact hc)
    | (intro c hc; (try dsimp only [Cellar.count, Cellar.setRegion, Cellar.setKey, Cellar.loadKey, Cellar.decideWb]); with_reducible exact Cellar.seal_wf hc _ _ _ _)
    | (intro c hc; (try dsimp only [Cellar.count, Cellar.setRegion, Cellar.setKey, Cellar.loadKey, Cellar.decideWb]); with_reducible exact Cellar.mergeRaw_wf hc _ _ _)
    | (intro c hc; (try dsimp only [Cellar.count, Cellar.setRegion, Cellar.setKey, Cellar.loadKey, Cellar.decideWb]); with_reducible exact Cellar.putMeta_wf hc _ _)
    | (intro c hc; (try dsimp only [Cellar.count, Cellar.setRegion, Cellar.setKey, Cellar.loadKey, Cellar.decideWb]); with_reducible exact Cellar.putRaw_wf hc _ _)
    | (intro c hc; (try dsimp only [Cellar.count, Cellar.setRegion, Cellar.setKey, Cellar.loadKey, Cellar.decideWb]); with_reducible exact Memory.wf_write _ _ _ hc)
    | (intro c hc; (try dsimp only [Cellar.count, Cellar.setRegion, Cellar.setKey, Cellar.loadKey, Cellar.decideWb]); with_reducible exact Memory.wf_writeN _ _ _ hc)
    | (intro c hc; (try dsimp only [Cellar.count, Cellar.setRegion, Cellar.setKey, Cellar.loadKey, Cellar.decideWb]); with_reducible exact Memory.wf_clearRange _ _ _ hc)
    | (intro c hc; (try dsimp only [Cellar.count, Cellar.setRegion, Cellar.setKey, Cellar.loadKey, Cellar.decideWb]); with_reducible exact Memory.wf_spans _ _ hc)
    | (intro c hc; (repeat' split) <;> with_reducible exact hc)
    | (intro c hc; dsimp only; split <;> exact hc)
    | (intro c hc; exact hc)
    | with_reducible refine Dev.autoSweeps_keep ?_ ‹_› ‹_›
    | with_reducible refine Dev.modCellar_keep ?_ ‹_› _ ?_
    | with_reducible refine Dev.raise_keep ?_ ‹_› _ _
    | (extract_lets +onlyGivenNames lv; (have hx : Keep ps e lv := ?_); (on_goal 1 => clear_value lv); on_goal 2 => subst lv)
    | (extract_lets +onlyGivenNames lv; clear_value lv)
    | extract_lets +onlyGivenNames lv
    | with_reducible refine Keep.ite ?_ ?_
    | with_reducible refine Keep.iteFst ?_ ?_
    | split

theorem Dev.rawEcc_keep {ps : List Part} {e d : Dev} (h : Keep ps e d) (hevents : .events ∈ ps) (hcellar : .cellar ∈ ps) (a1 a2) : Keep ps e (Dev.rawEcc d a1 a2) := by
  unfold Dev.rawEcc
  repeat' first
    | with_reducible assumption
    | with_reducible refine Dev.deadWords_keep ?_ ‹_› ‹_› _ _ _
    | with_reducible refine Dev.rowEcc_keep ?_ ‹_› ‹_› _ _ _
    | (extract_lets +onlyGivenNames lv; (have hx : Keep ps e lv := ?_); (on_goal 1 => clear_value lv); on_goal 2 => subst lv)
    | (extract_lets +onlyGivenNames lv; clear_value lv)
    | extract_lets +onlyGivenNames lv
    | with_reducible refine Keep.ite ?_ ?_
    | split

theorem Dev.lineEcc_keep {ps : List Part} {e d : Dev} (h : Keep ps e d) (hevents : .events ∈ ps) (hcellar : .cellar ∈ ps) (a1 a2) : Keep ps e (Dev.lineEcc d a1 a2) := by
  unfold Dev.lineEcc
  repeat' first
    | with_reducible assumption
    | with_reducible refine Dev.metaEcc_keep ?_ ‹_› ‹_› _ _
    | with_reducible refine Dev.rawEcc_keep ?_ ‹_› ‹_› _ _
    | (extract_lets +onlyGivenNames lv; (have hx : Keep ps e lv := ?_); (on_goal 1 => clear_value lv); on_goal 2 => subst lv)
    | (extract_lets +onlyGivenNames lv; clear_value lv)
    | extract_lets +onlyGivenNames lv
    | with_reducible refine Keep.ite ?_ ?_
    | split

theorem Dev.poison_keep {ps : List Part} {e d : Dev} (h : Keep ps e d) (hevents : .events ∈ ps) (hcellar : .cellar ∈ ps) (a1 a2) : Keep ps e (Dev.poison d a1 a2) := by
  unfold Dev.poison
  repeat' first
    | with_reducible assumption
    | (intro c hc; with_reducible exact hc)
    | (intro c hc; with_reducible exact Cellar.seal_wf hc _ _ _ _)
    | (intro c hc; with_reducible exact Cellar.mergeRaw_wf hc _ _ _)
    | (intro c hc; (try dsimp only [Cellar.count, Cellar.setRegion, Cellar.setKey, Cellar.loadKey, Cellar.decideWb]); with_reducible exact hc)
    | (intro c hc; (try dsimp only [Cellar.count, Cellar.setRegion, Cellar.setKey, Cellar.loadKey, Cellar.decideWb]); with_reducible exact Cellar.seal_wf hc _ _ _ _)
    | (intro c hc; (try dsimp only [Cellar.count, Cellar.setRegion, Cellar.setKey, Cellar.loadKey, Cellar.decideWb]); with_reducible exact Cellar.mergeRaw_wf hc _ _ _)
    | (intro c hc; (try dsimp only [Cellar.count, Cellar.setRegion, Cellar.setKey, Cellar.loadKey, Cellar.decideWb]); with_reducible exact Cellar.putMeta_wf hc _ _)
    | (intro c hc; (try dsimp only [Cellar.count, Cellar.setRegion, Cellar.setKey, Cellar.loadKey, Cellar.decideWb]); with_reducible exact Cellar.putRaw_wf hc _ _)
    | (intro c hc; (try dsimp only [Cellar.count, Cellar.setRegion, Cellar.setKey, Cellar.loadKey, Cellar.decideWb]); with_reducible exact Memory.wf_write _ _ _ hc)
    | (intro c hc; (try dsimp only [Cellar.count, Cellar.setRegion, Cellar.setKey, Cellar.loadKey, Cellar.decideWb]); with_reducible exact Memory.wf_writeN _ _ _ hc)
    | (intro c hc; (try dsimp only [Cellar.count, Cellar.setRegion, Cellar.setKey, Cellar.loadKey, Cellar.decideWb]); with_reducible exact Memory.wf_clearRange _ _ _ hc)
    | (intro c hc; (try dsimp only [Cellar.count, Cellar.setRegion, Cellar.setKey, Cellar.loadKey, Cellar.decideWb]); with_reducible exact Memory.wf_spans _ _ hc)
    | (intro c hc; (repeat' split) <;> with_reducible exact hc)
    | (intro c hc; dsimp only; split <;> exact hc)
    | (intro c hc; exact hc)
    | with_reducible refine Dev.modCellar_keep ?_ ‹_› _ ?_
    | with_reducible refine Dev.raise_keep ?_ ‹_› _ _
    | (extract_lets +onlyGivenNames lv; (have hx : Keep ps e lv := ?_); (on_goal 1 => clear_value lv); on_goal 2 => subst lv)
    | (extract_lets +onlyGivenNames lv; clear_value lv)
    | extract_lets +onlyGivenNames lv
    | with_reducible refine Keep.ite ?_ ?_
    | split

theorem Dev.secMac_keep {ps : List Part} {e d : Dev} (h : Keep ps e d) (hevents : .events ∈ ps) (hcellar : .cellar ∈ ps) : Keep ps e (Dev.secMac d) := by
  unfold Dev.secMac
  repeat' first
    | with_reducible assumption
    | (intro c hc; with_reducible exact hc)
    | (intro c hc; with_reducible exact Cellar.seal_wf hc _ _ _ _)
    | (intro c hc; with_reducible exact Cellar.mergeRaw_wf hc _ _ _)
    | (intro c hc; (try dsimp only [Cellar.count, Cellar.setRegion, Cellar.setKey, Cellar.loadKey, Cellar.decideWb]); with_reducible exact hc)
    | (intro c hc; (try dsimp only [Cellar.count, Cellar.setRegion, Cellar.setKey, Cellar.loadKey, Cellar.decideWb]); with_reducible exact Cellar.seal_wf hc _ _ _ _)
    | (intro c hc; (try dsimp only [Cellar.count, Cellar.setRegion, Cellar.setKey, Cellar.loadKey, Cellar.decideWb]); with_reducible exact Cellar.mergeRaw_wf hc _ _ _)
    | (intro c hc; (try dsimp only [Cellar.count, Cellar.setRegion, Cellar.setKey, Cellar.loadKey, Cellar.decideWb]); with_reducible exact Cellar.putMeta_wf hc _ _)
    | (intro c hc; (try dsimp only [Cellar.count, Cellar.setRegion, Cellar.setKey, Cellar.loadKey, Cellar.decideWb]); with_reducible exact Cellar.putRaw_wf hc _ _)
    | (intro c hc; (try dsimp only [Cellar.count, Cellar.setRegion, Cellar.setKey, Cellar.loadKey, Cellar.decideWb]); with_reducible exact Memory.wf_write _ _ _ hc)
    | (intro c hc; (try dsimp only [Cellar.count, Cellar.setRegion, Cellar.setKey, Cellar.loadKey, Cellar.decideWb]); with_reducible exact Memory.wf_writeN _ _ _ hc)
    | (intro c hc; (try dsimp only [Cellar.count, Cellar.setRegion, Cellar.setKey, Cellar.loadKey, Cellar.decideWb]); with_reducible exact Memory.wf_clearRange _ _ _ hc)
    | (intro c hc; (try dsimp only [Cellar.count, Cellar.setRegion, Cellar.setKey, Cellar.loadKey, Cellar.decideWb]); with_reducible exact Memory.wf_spans _ _ hc)
    | (intro c hc; (repeat' split) <;> with_reducible exact hc)
    | (intro c hc; dsimp only; split <;> exact hc)
    | (intro c hc; exact hc)
    | with_reducible refine Dev.modCellar_keep ?_ ‹_› _ ?_
    | with_reducible refine Dev.raise_keep ?_ ‹_› _ _
    | (extract_lets +onlyGivenNames lv; (have hx : Keep ps e lv := ?_); (on_goal 1 => clear_value lv); on_goal 2 => subst lv)
    | (extract_lets +onlyGivenNames lv; clear_value lv)
    | extract_lets +onlyGivenNames lv
    | with_reducible refine Keep.ite ?_ ?_
    | split

theorem Dev.mergeOpened_keep {ps : List Part} {e d : Dev} (h : Keep ps e d) (hevents : .events ∈ ps) (hcellar : .cellar ∈ ps) (a1 a2 a3 a4 a5 a6 a7 a8) : Keep ps e (Dev.mergeOpened d a1 a2 a3 a4 a5 a6 a7 a8).1 := by
  have h2 : Keep ps e (d.secMac.poison a2 a6) := Dev.poison_keep (Dev.secMac_keep h ‹_› ‹_›) ‹_› ‹_› _ _
  have hr := Dev.reseal_keep h ‹_› ‹_› a1 a2 a3 (mergeBytes a4 a5 a8)
  unfold Dev.mergeOpened
  generalize d.reseal a1 a2 a3 (mergeBytes a4 a5 a8) = o at hr ⊢
  cases a7 <;> first | exact h | exact h2 | exact hr

theorem Dev.storePart_keep {ps : List Part} {e d : Dev} (h : Keep ps e d) (hevents : .events ∈ ps) (hcellar : .cellar ∈ ps) (a1 a2 a3 a4 a5 a6 a7) : Keep ps e (Dev.storePart d a1 a2 a3 a4 a5 a6 a7).1 := by
  have hs : d.storePart a1 a2 a3 a4 a5 a6 a7 = (d.lineEcc a2 a6).mergeOpened a1 a2 a3 a4 a5 a7
      ((d.lineEcc a2 a6).cellar.openSealed a2 a6 (d.lineEcc a2 a6).free).1 ((d.lineEcc a2 a6).cellar.openSealed a2 a6 (d.lineEcc a2 a6).free).2 := rfl
  rw [hs]
  exact Dev.mergeOpened_keep (Dev.lineEcc_keep h ‹_› ‹_› _ _) ‹_› ‹_› _ _ _ _ _ _ _ _

theorem Dev.take_keep {ps : List Part} {e d : Dev} (h : Keep ps e d) (hfree : .free ∈ ps) (a1) : Keep ps e (Dev.take d a1) := by
  unfold Dev.take
  exact Keep.upd_free h ‹_›

theorem Dev.storeLine_keep {ps : List Part} {e d : Dev} (h : Keep ps e d) (hfree : .free ∈ ps) (hevents : .events ∈ ps) (hcellar : .cellar ∈ ps) (a1 a2 a3 a4 a5 a6 a7) : Keep ps e (Dev.storeLine d a1 a2 a3 a4 a5 a6 a7).1 := by
  unfold Dev.storeLine
  extract_lets +onlyGivenNames r
  split
  · exact Dev.modCellar_keep h ‹_› _ fun c hc => Cellar.mergeRaw_wf hc _ _ _
  · extract_lets +onlyGivenNames s
    clear_value s
    split
    · extract_lets +onlyGivenNames lost d1
      have h1 : Keep ps e d1 := Dev.metaEcc_keep h ‹_› ‹_› _ _
      clear_value d1 lost
      split
      · dsimp only
        with_reducible refine Dev.take_keep (Dev.modCellar_keep h1 ‹_› _ ?_) ‹_› _
        intro c hc
        with_reducible exact Cellar.seal_wf hc _ _ _ _
      · have hr := Dev.reseal_keep h1 ‹_› ‹_› a1 a2 s a5
        generalize d1.reseal a1 a2 s a5 = o at hr ⊢
        obtain ⟨x, y⟩ := o
        with_reducible exact hr
    · exact Dev.storePart_keep h ‹_› ‹_› _ _ _ _ _ _ _

theorem Dev.writeLine_keep {ps : List Part} {e d : Dev} (h : Keep ps e d) (hfree : .free ∈ ps) (hevents : .events ∈ ps) (hcellar : .cellar ∈ ps) (a1 a2 a3 a4 a5 a6) : Keep ps e (Dev.writeLine d a1 a2 a3 a4 a5 a6).1 := by
  unfold Dev.writeLine
  repeat' first
    | with_reducible assumption
    | (intro c hc; with_reducible exact hc)
    | (intro c hc; with_reducible exact Cellar.seal_wf hc _ _ _ _)
    | (intro c hc; with_reducible exact Cellar.mergeRaw_wf hc _ _ _)
    | (intro c hc; (try dsimp only [Cellar.count, Cellar.setRegion, Cellar.setKey, Cellar.loadKey, Cellar.decideWb]); with_reducible exact hc)
    | (intro c hc; (try dsimp only [Cellar.count, Cellar.setRegion, Cellar.setKey, Cellar.loadKey, Cellar.decideWb]); with_reducible exact Cellar.seal_wf hc _ _ _ _)
    | (intro c hc; (try dsimp only [Cellar.count, Cellar.setRegion, Cellar.setKey, Cellar.loadKey, Cellar.decideWb]); with_reducible exact Cellar.mergeRaw_wf hc _ _ _)
    | (intro c hc; (try dsimp only [Cellar.count, Cellar.setRegion, Cellar.setKey, Cellar.loadKey, Cellar.decideWb]); with_reducible exact Cellar.putMeta_wf hc _ _)
    | (intro c hc; (try dsimp only [Cellar.count, Cellar.setRegion, Cellar.setKey, Cellar.loadKey, Cellar.decideWb]); with_reducible exact Cellar.putRaw_wf hc _ _)
    | (intro c hc; (try dsimp only [Cellar.count, Cellar.setRegion, Cellar.setKey, Cellar.loadKey, Cellar.decideWb]); with_reducible exact Memory.wf_write _ _ _ hc)
    | (intro c hc; (try dsimp only [Cellar.count, Cellar.setRegion, Cellar.setKey, Cellar.loadKey, Cellar.decideWb]); with_reducible exact Memory.wf_writeN _ _ _ hc)
    | (intro c hc; (try dsimp only [Cellar.count, Cellar.setRegion, Cellar.setKey, Cellar.loadKey, Cellar.decideWb]); with_reducible exact Memory.wf_clearRange _ _ _ hc)
    | (intro c hc; (try dsimp only [Cellar.count, Cellar.setRegion, Cellar.setKey, Cellar.loadKey, Cellar.decideWb]); with_reducible exact Memory.wf_spans _ _ hc)
    | (intro c hc; (repeat' split) <;> with_reducible exact hc)
    | (intro c hc; dsimp only; split <;> exact hc)
    | (intro c hc; exact hc)
    | with_reducible refine Dev.cellarRefuse_keep ?_ ‹_› ‹_›
    | with_reducible refine Dev.modCellar_keep ?_ ‹_› _ ?_
    | with_reducible refine Dev.storeLine_keep ?_ ‹_› ‹_› ‹_› _ _ _ _ _ _ _
    | with_reducible refine Keep.fst2 ‹_› ?_
    | with_reducible refine Keep.fst ‹_› ?_
    | (extract_lets +onlyGivenNames lv; (have hx : Keep ps e lv := ?_); (on_goal 1 => clear_value lv); on_goal 2 => subst lv)
    | (extract_lets +onlyGivenNames lv; clear_value lv)
    | extract_lets +onlyGivenNames lv
    | with_reducible refine Keep.ite ?_ ?_
    | with_reducible refine Keep.iteFst ?_ ?_
    | split

theorem Dev.putThrough_keep {ps : List Part} {e d : Dev} (h : Keep ps e d) (hfree : .free ∈ ps) (hevents : .events ∈ ps) (hcellar : .cellar ∈ ps) (a1 a2 a3 a4) : Keep ps e (Dev.putThrough d a1 a2 a3 a4) := by
  induction a2 generalizing d a1 a3 a4 with
  | zero =>
    unfold Dev.putThrough
    repeat' first
      | with_reducible assumption
      | with_reducible refine Dev.writeLine_keep ?_ ‹_› ‹_› ‹_› _ _ _ _ _ _
      | with_reducible refine Keep.fst2 ‹_› ?_
      | with_reducible refine Keep.fst ‹_› ?_
      | (extract_lets +onlyGivenNames lv; (have hx : Keep ps e lv := ?_); (on_goal 1 => clear_value lv); on_goal 2 => subst lv)
      | (extract_lets +onlyGivenNames lv; clear_value lv)
      | extract_lets +onlyGivenNames lv
      | with_reducible refine Keep.ite ?_ ?_
      | with_reducible refine Keep.iteFst ?_ ?_
      | split
  | succ n ih =>
    unfold Dev.putThrough
    repeat' first
      | with_reducible assumption
      | with_reducible apply ih
      | with_reducible refine Dev.writeLine_keep ?_ ‹_› ‹_› ‹_› _ _ _ _ _ _
      | with_reducible refine Keep.fst2 ‹_› ?_
      | with_reducible refine Keep.fst ‹_› ?_
      | (extract_lets +onlyGivenNames lv; (have hx : Keep ps e lv := ?_); (on_goal 1 => clear_value lv); on_goal 2 => subst lv)
      | (extract_lets +onlyGivenNames lv; clear_value lv)
      | extract_lets +onlyGivenNames lv
      | with_reducible refine Keep.ite ?_ ?_
      | with_reducible refine Keep.iteFst ?_ ?_
      | split

theorem Dev.ringBytes_keep {ps : List Part} {e d : Dev} (h : Keep ps e d) (hfree : .free ∈ ps) (hevents : .events ∈ ps) (hcellar : .cellar ∈ ps) (hstrong : .strong ∈ ps) (a1 a2 a3 a4) : Keep ps e (Dev.ringBytes d a1 a2 a3 a4) := by
  unfold Dev.ringBytes
  repeat' first
    | with_reducible assumption
    | (intro m hm; with_reducible exact hm)
    | (intro m hm; with_reducible exact Sram.put_wf hm _ _)
    | (intro m hm; with_reducible exact Memory.wf_clearRange _ _ _ hm)
    | (intro m hm; with_reducible exact Memory.wf_writeN _ _ _ hm)
    | with_reducible refine Dev.modSram_keep ?_ ‹_› _ ?_
    | with_reducible refine Dev.putThrough_keep ?_ ‹_› ‹_› ‹_› _ _ _ _
    | (extract_lets +onlyGivenNames lv; (have hx : Keep ps e lv := ?_); (on_goal 1 => clear_value lv); on_goal 2 => subst lv)
    | (extract_lets +onlyGivenNames lv; clear_value lv)
    | extract_lets +onlyGivenNames lv
    | with_reducible refine Keep.ite ?_ ?_
    | split

theorem Dev.ringPut_keep {ps : List Part} {e d : Dev} (h : Keep ps e d) (hfree : .free ∈ ps) (hevents : .events ∈ ps) (hcellar : .cellar ∈ ps) (hstrong : .strong ∈ ps) (a1 a2 a3 a4 a5 a6) : Keep ps e (Dev.ringPut d a1 a2 a3 a4 a5 a6) := by
  unfold Dev.ringPut
  repeat' first
    | with_reducible assumption
    | with_reducible refine Dev.ringBytes_keep ?_ ‹_› ‹_› ‹_› ‹_› _ _ _ _
    | (extract_lets +onlyGivenNames lv; (have hx : Keep ps e lv := ?_); (on_goal 1 => clear_value lv); on_goal 2 => subst lv)
    | (extract_lets +onlyGivenNames lv; clear_value lv)
    | extract_lets +onlyGivenNames lv
    | with_reducible refine Keep.ite ?_ ?_
    | split

theorem Dev.streamPut_keep {ps : List Part} {e d : Dev} (h : Keep ps e d) (hfree : .free ∈ ps) (hevents : .events ∈ ps) (hcellar : .cellar ∈ ps) (hcores : .cores ∈ ps) (hstrong : .strong ∈ ps) (a1 a2) : Keep ps e (Dev.streamPut d a1 a2) := by
  unfold Dev.streamPut
  repeat' first
    | with_reducible assumption
    | with_reducible refine Dev.ringPut_keep ?_ ‹_› ‹_› ‹_› ‹_› _ _ _ _ _ _
    | with_reducible refine Dev.setStream_keep ?_ ‹_› _ _
    | (extract_lets +onlyGivenNames lv; (have hx : Keep ps e lv := ?_); (on_goal 1 => clear_value lv); on_goal 2 => subst lv)
    | (extract_lets +onlyGivenNames lv; clear_value lv)
    | extract_lets +onlyGivenNames lv
    | with_reducible refine Keep.ite ?_ ?_
    | split

theorem Dev.streamReserved_keep {ps : List Part} {e d : Dev} (h : Keep ps e d) (hfree : .free ∈ ps) (hevents : .events ∈ ps) (hcellar : .cellar ∈ ps) (hcores : .cores ∈ ps) (hstrong : .strong ∈ ps) (a1 a2) : Keep ps e (Dev.streamReserved d a1 a2) := by
  unfold Dev.streamReserved
  repeat' first
    | with_reducible assumption
    | with_reducible refine Dev.streamPut_keep ?_ ‹_› ‹_› ‹_› ‹_› ‹_› _ _
    | (extract_lets +onlyGivenNames lv; (have hx : Keep ps e lv := ?_); (on_goal 1 => clear_value lv); on_goal 2 => subst lv)
    | (extract_lets +onlyGivenNames lv; clear_value lv)
    | extract_lets +onlyGivenNames lv
    | with_reducible refine Keep.ite ?_ ?_
    | split

theorem Dev.sync_keep {ps : List Part} {e d : Dev} (h : Keep ps e d) (hfree : .free ∈ ps) (hevents : .events ∈ ps) (hcellar : .cellar ∈ ps) (hcores : .cores ∈ ps) (hstrong : .strong ∈ ps) (a1 a2) : Keep ps e (Dev.sync d a1 a2) := by
  unfold Dev.sync
  repeat' first
    | with_reducible assumption
    | with_reducible refine Dev.setStream_keep ?_ ‹_› _ _
    | with_reducible refine Dev.streamReserved_keep ?_ ‹_› ‹_› ‹_› ‹_› ‹_› _ _
    | (extract_lets +onlyGivenNames lv; (have hx : Keep ps e lv := ?_); (on_goal 1 => clear_value lv); on_goal 2 => subst lv)
    | (extract_lets +onlyGivenNames lv; clear_value lv)
    | extract_lets +onlyGivenNames lv
    | with_reducible refine Keep.ite ?_ ?_
    | split

theorem Dev.streamPacket_keep {ps : List Part} {e d : Dev} (h : Keep ps e d) (hfree : .free ∈ ps) (hevents : .events ∈ ps) (hcellar : .cellar ∈ ps) (hcores : .cores ∈ ps) (hstrong : .strong ∈ ps) (a1 a2) : Keep ps e (Dev.streamPacket d a1 a2) := by
  unfold Dev.streamPacket
  repeat' first
    | with_reducible assumption
    | with_reducible refine Dev.raise_keep ?_ ‹_› _ _
    | with_reducible refine Dev.setStream_keep ?_ ‹_› _ _
    | with_reducible refine Dev.streamPut_keep ?_ ‹_› ‹_› ‹_› ‹_› ‹_› _ _
    | with_reducible refine Dev.sync_keep ?_ ‹_› ‹_› ‹_› ‹_› ‹_› _ _
    | (extract_lets +onlyGivenNames lv; (have hx : Keep ps e lv := ?_); (on_goal 1 => clear_value lv); on_goal 2 => subst lv)
    | (extract_lets +onlyGivenNames lv; clear_value lv)
    | extract_lets +onlyGivenNames lv
    | with_reducible refine Keep.ite ?_ ?_
    | split

theorem Dev.flushTrace_keep {ps : List Part} {e d : Dev} (h : Keep ps e d) (hfree : .free ∈ ps) (hevents : .events ∈ ps) (hnet : .net ∈ ps) (hcellar : .cellar ∈ ps) (hcores : .cores ∈ ps) (hstrong : .strong ∈ ps) : Keep ps e (Dev.flushTrace d) := by
  unfold Dev.flushTrace
  repeat' first
    | with_reducible assumption
    | with_reducible refine Dev.carryTrace_keep ?_ ‹_› _ _
    | with_reducible refine Dev.each_keep ?_ (fun x y hx => ?_)
    | with_reducible refine Dev.setStream_keep ?_ ‹_› _ _
    | with_reducible refine Dev.streamPacket_keep ?_ ‹_› ‹_› ‹_› ‹_› ‹_› _ _
    | (extract_lets +onlyGivenNames lv; (have hx : Keep ps e lv := ?_); (on_goal 1 => clear_value lv); on_goal 2 => subst lv)
    | (extract_lets +onlyGivenNames lv; clear_value lv)
    | extract_lets +onlyGivenNames lv
    | with_reducible refine Keep.ite ?_ ?_
    | split

theorem Dev.trace_keep {ps : List Part} {e d : Dev} (h : Keep ps e d) (hfree : .free ∈ ps) (hevents : .events ∈ ps) (hnet : .net ∈ ps) (hcellar : .cellar ∈ ps) (hcores : .cores ∈ ps) (hstrong : .strong ∈ ps) (a1 a2 a3 a4 a5 a6) : Keep ps e (Dev.trace d a1 a2 a3 a4 a5 a6) := by
  unfold Dev.trace
  repeat' first
    | with_reducible assumption
    | with_reducible refine Dev.flushTrace_keep ?_ ‹_› ‹_› ‹_› ‹_› ‹_› ‹_›
    | with_reducible refine Dev.setStream_keep ?_ ‹_› _ _
    | (extract_lets +onlyGivenNames lv; (have hx : Keep ps e lv := ?_); (on_goal 1 => clear_value lv); on_goal 2 => subst lv)
    | (extract_lets +onlyGivenNames lv; clear_value lv)
    | extract_lets +onlyGivenNames lv
    | with_reducible refine Keep.ite ?_ ?_
    | split

theorem Dev.decideNow_keep {ps : List Part} {e d : Dev} (h : Keep ps e d) (hfree : .free ∈ ps) (hout : .out ∈ ps) (hevents : .events ∈ ps) (hfuncs : .funcs ∈ ps) (hnet : .net ∈ ps) (hcellar : .cellar ∈ ps) (hlink : .link ∈ ps) (hcores : .cores ∈ ps) (hstrong : .strong ∈ ps) (hhub : .hub ∈ ps) (a1) : Keep ps e (Dev.decideNow d a1) := by
  unfold Dev.decideNow
  repeat' first
    | with_reducible assumption
    | with_reducible refine Dev.each_keep ?_ (fun x y hx => ?_)
    | with_reducible refine Dev.modFunc_keep ?_ ‹_› _ _
    | with_reducible refine Dev.noteFigure_keep ?_ ‹_› _
    | with_reducible refine Dev.putNet_keep ?_ ‹_› _
    | with_reducible refine Dev.raiseRoom_keep ?_ ‹_› _ _
    | with_reducible refine Dev.sendDecision_keep ?_ ‹_› ‹_› ‹_› _ _
    | with_reducible refine Dev.trace_keep ?_ ‹_› ‹_› ‹_› ‹_› ‹_› ‹_› _ _ _ _ _ _
    | (extract_lets +onlyGivenNames lv; (have hx : Keep ps e lv := ?_); (on_goal 1 => clear_value lv); on_goal 2 => subst lv)
    | (extract_lets +onlyGivenNames lv; clear_value lv)
    | extract_lets +onlyGivenNames lv
    | with_reducible refine Keep.ite ?_ ?_
    | split

theorem Dev.tryDecide_keep {ps : List Part} {e d : Dev} (h : Keep ps e d) (hfree : .free ∈ ps) (hout : .out ∈ ps) (hevents : .events ∈ ps) (hfuncs : .funcs ∈ ps) (hnet : .net ∈ ps) (hcellar : .cellar ∈ ps) (hlink : .link ∈ ps) (hcores : .cores ∈ ps) (hstrong : .strong ∈ ps) (hhub : .hub ∈ ps) (a1 a2) : Keep ps e (Dev.tryDecide d a1 a2) := by
  unfold Dev.tryDecide
  repeat' first
    | with_reducible assumption
    | with_reducible refine Dev.decideNow_keep ?_ ‹_› ‹_› ‹_› ‹_› ‹_› ‹_› ‹_› ‹_› ‹_› ‹_› _
    | (extract_lets +onlyGivenNames lv; (have hx : Keep ps e lv := ?_); (on_goal 1 => clear_value lv); on_goal 2 => subst lv)
    | (extract_lets +onlyGivenNames lv; clear_value lv)
    | extract_lets +onlyGivenNames lv
    | with_reducible refine Keep.ite ?_ ?_
    | split

theorem Dev.remoteDecision_keep {ps : List Part} {e d : Dev} (h : Keep ps e d) (hfree : .free ∈ ps) (hout : .out ∈ ps) (hevents : .events ∈ ps) (hfuncs : .funcs ∈ ps) (hnet : .net ∈ ps) (hcellar : .cellar ∈ ps) (hlink : .link ∈ ps) (hcores : .cores ∈ ps) (hstrong : .strong ∈ ps) (hhub : .hub ∈ ps) (a0 a1 a2 a3) : Keep ps e (Dev.remoteDecision a0 a1 a2 a3 d) := by
  unfold Dev.remoteDecision
  repeat' first
    | with_reducible assumption
    | with_reducible refine Dev.each_keep ?_ (fun x y hx => ?_)
    | with_reducible refine Dev.modFunc_keep ?_ ‹_› _ _
    | with_reducible refine Dev.tryDecide_keep ?_ ‹_› ‹_› ‹_› ‹_› ‹_› ‹_› ‹_› ‹_› ‹_› ‹_› _ _
    | (extract_lets +onlyGivenNames lv; (have hx : Keep ps e lv := ?_); (on_goal 1 => clear_value lv); on_goal 2 => subst lv)
    | (extract_lets +onlyGivenNames lv; clear_value lv)
    | extract_lets +onlyGivenNames lv
    | with_reducible refine Keep.ite ?_ ?_
    | split

theorem Dev.takeAnswer_keep {ps : List Part} {e d : Dev} (h : Keep ps e d) (hlink : .link ∈ ps) (a1 a2 a3) : Keep ps e (Dev.takeAnswer d a1 a2 a3) := by
  unfold Dev.takeAnswer
  repeat' first
    | with_reducible assumption
    | with_reducible refine Dev.modLink_keep ?_ ‹_› _
    | (extract_lets +onlyGivenNames lv; (have hx : Keep ps e lv := ?_); (on_goal 1 => clear_value lv); on_goal 2 => subst lv)
    | (extract_lets +onlyGivenNames lv; clear_value lv)
    | extract_lets +onlyGivenNames lv
    | with_reducible refine Keep.ite ?_ ?_
    | split

theorem Dev.decisionDigest_keep {ps : List Part} {e d : Dev} (h : Keep ps e d) (hevents : .events ∈ ps) (hlink : .link ∈ ps) (a0) : Keep ps e (Dev.decisionDigest a0 d) := by
  unfold Dev.decisionDigest
  repeat' first
    | with_reducible assumption
    | with_reducible refine Dev.countLink_keep ?_ ‹_› _
    | with_reducible refine Dev.raise_keep ?_ ‹_› _ _
    | (extract_lets +onlyGivenNames lv; (have hx : Keep ps e lv := ?_); (on_goal 1 => clear_value lv); on_goal 2 => subst lv)
    | (extract_lets +onlyGivenNames lv; clear_value lv)
    | extract_lets +onlyGivenNames lv
    | with_reducible refine Keep.ite ?_ ?_
    | split

theorem Dev.mirrorRequest_keep {ps : List Part} {e d : Dev} (h : Keep ps e d) (hout : .out ∈ ps) (hevents : .events ∈ ps) (hlink : .link ∈ ps) (hrings : .rings ∈ ps) (hsched : .sched ∈ ps) (a1 a2) : Keep ps e (Dev.mirrorRequest d a1 a2) := by
  unfold Dev.mirrorRequest
  split
  · exact h
  · extract_lets +onlyGivenNames k slot w r
    split
    · exact h
    · extract_lets +onlyGivenNames en kept r2 d1 rs d2
      have h1 : Keep ps e d1 := Dev.setRing_keep h ‹_› _ _ (RingKept.put (e := en) rfl (Nat.mod_lt _ (by decide)))
      subst rs
      clear_value d1
      have h2 : Keep ps e d2 := Dev.putRings_keep h1 ‹_› _ (fun hx => hx)
      clear_value d2
      exact Dev.judge_keep h2 ‹_› ‹_› ‹_› ‹_› ‹_› _ _ _

theorem Dev.remoteQuery_keep {ps : List Part} {e d : Dev} (h : Keep ps e d) (hout : .out ∈ ps) (hevents : .events ∈ ps) (hlink : .link ∈ ps) (a0 a1 a2 a3) : Keep ps e (Dev.remoteQuery a0 a1 a2 a3 d) := by
  unfold Dev.remoteQuery
  repeat' first
    | with_reducible assumption
    | with_reducible refine Dev.sendMessage_keep ?_ ‹_› ‹_› ‹_› _ _ _ _ _ _ _
    | (extract_lets +onlyGivenNames lv; (have hx : Keep ps e lv := ?_); (on_goal 1 => clear_value lv); on_goal 2 => subst lv)
    | (extract_lets +onlyGivenNames lv; clear_value lv)
    | extract_lets +onlyGivenNames lv
    | with_reducible refine Keep.ite ?_ ?_
    | split

theorem Dev.takeDepend_keep {ps : List Part} {e d : Dev} (h : Keep ps e d) (hlink : .link ∈ ps) (a0 a1 a2 a3) : Keep ps e (Dev.takeDepend a0 a1 a2 a3 d) := by
  unfold Dev.takeDepend
  repeat' first
    | with_reducible assumption
    | with_reducible refine Dev.modLink_keep ?_ ‹_› _
    | (extract_lets +onlyGivenNames lv; (have hx : Keep ps e lv := ?_); (on_goal 1 => clear_value lv); on_goal 2 => subst lv)
    | (extract_lets +onlyGivenNames lv; clear_value lv)
    | extract_lets +onlyGivenNames lv
    | with_reducible refine Keep.ite ?_ ?_
    | split

theorem Dev.takeRequest_keep {ps : List Part} {e d : Dev} (h : Keep ps e d) (hout : .out ∈ ps) (hevents : .events ∈ ps) (hlink : .link ∈ ps) (hrings : .rings ∈ ps) (hsched : .sched ∈ ps) (a1 a2 a3 a4 a5) : Keep ps e (Dev.takeRequest d a1 a2 a3 a4 a5) := by
  unfold Dev.takeRequest
  repeat' first
    | with_reducible assumption
    | with_reducible refine Dev.decisionDigest_keep ?_ ‹_› ‹_› _
    | with_reducible refine Dev.divergence_keep ?_ ‹_› ‹_›
    | with_reducible refine Dev.mirrorRequest_keep ?_ ‹_› ‹_› ‹_› ‹_› ‹_› _ _
    | with_reducible refine Dev.remoteQuery_keep ?_ ‹_› ‹_› ‹_› _ _ _ _
    | with_reducible refine Dev.takeDepend_keep ?_ ‹_› _ _ _ _
    | (extract_lets +onlyGivenNames lv; (have hx : Keep ps e lv := ?_); (on_goal 1 => clear_value lv); on_goal 2 => subst lv)
    | (extract_lets +onlyGivenNames lv; clear_value lv)
    | extract_lets +onlyGivenNames lv
    | with_reducible refine Keep.ite ?_ ?_
    | split

theorem Dev.takeWhole_keep {ps : List Part} {e d : Dev} (h : Keep ps e d) (hfree : .free ∈ ps) (hout : .out ∈ ps) (hevents : .events ∈ ps) (hfuncs : .funcs ∈ ps) (hnet : .net ∈ ps) (hcellar : .cellar ∈ ps) (hlink : .link ∈ ps) (hrings : .rings ∈ ps) (hcores : .cores ∈ ps) (hsched : .sched ∈ ps) (hstrong : .strong ∈ ps) (hhub : .hub ∈ ps) (a1 a2 a3) : Keep ps e (Dev.takeWhole d a1 a2 a3) := by
  unfold Dev.takeWhole
  repeat' first
    | with_reducible assumption
    | with_reducible refine Dev.applied_keep ?_ ‹_› ‹_› ‹_› ‹_› ‹_› _ _ _
    | with_reducible refine Dev.remoteDecision_keep ?_ ‹_› ‹_› ‹_› ‹_› ‹_› ‹_› ‹_› ‹_› ‹_› ‹_› _ _ _ _
    | with_reducible refine Dev.takeAnswer_keep ?_ ‹_› _ _ _
    | with_reducible refine Dev.takeRequest_keep ?_ ‹_› ‹_› ‹_› ‹_› ‹_› _ _ _ _ _
    | (extract_lets +onlyGivenNames lv; (have hx : Keep ps e lv := ?_); (on_goal 1 => clear_value lv); on_goal 2 => subst lv)
    | (extract_lets +onlyGivenNames lv; clear_value lv)
    | extract_lets +onlyGivenNames lv
    | with_reducible refine Keep.ite ?_ ?_
    | split

theorem Dev.deliverFrame_keep {ps : List Part} {e d : Dev} (h : Keep ps e d) (hfree : .free ∈ ps) (hout : .out ∈ ps) (hevents : .events ∈ ps) (hrooms : .rooms ∈ ps) (hfuncs : .funcs ∈ ps) (hnet : .net ∈ ps) (hcellar : .cellar ∈ ps) (hlink : .link ∈ ps) (hrings : .rings ∈ ps) (hcores : .cores ∈ ps) (hsched : .sched ∈ ps) (hstrong : .strong ∈ ps) (hhub : .hub ∈ ps) (a1 a2) : Keep ps e (Dev.deliverFrame d a1 a2) := by
  unfold Dev.deliverFrame
  repeat' first
    | with_reducible assumption
    | with_reducible refine Dev.remoteWords_keep ?_ ‹_› ‹_› ‹_› ‹_› _
    | with_reducible refine Dev.setBd_keep ?_ ‹_› _ _
    | with_reducible refine Dev.takeWhole_keep ?_ ‹_› ‹_› ‹_› ‹_› ‹_› ‹_› ‹_› ‹_› ‹_› ‹_› ‹_› ‹_› _ _ _
    | (extract_lets +onlyGivenNames lv; (have hx : Keep ps e lv := ?_); (on_goal 1 => clear_value lv); on_goal 2 => subst lv)
    | (extract_lets +onlyGivenNames lv; clear_value lv)
    | extract_lets +onlyGivenNames lv
    | with_reducible refine Keep.ite ?_ ?_
    | split

theorem Dev.passDepend_keep {ps : List Part} {e d : Dev} (h : Keep ps e d) (hlink : .link ∈ ps) (a1 a2 a3 a4) : Keep ps e (Dev.passDepend d a1 a2 a3 a4) := by
  unfold Dev.passDepend
  repeat' first
    | with_reducible assumption
    | with_reducible refine Dev.modBd_keep ?_ ‹_› _ _
    | with_reducible refine Dev.modLink_keep ?_ ‹_› _
    | (extract_lets +onlyGivenNames lv; (have hx : Keep ps e lv := ?_); (on_goal 1 => clear_value lv); on_goal 2 => subst lv)
    | (extract_lets +onlyGivenNames lv; clear_value lv)
    | extract_lets +onlyGivenNames lv
    | with_reducible refine Keep.ite ?_ ?_
    | split

theorem Dev.passFrame_keep {ps : List Part} {e d : Dev} (h : Keep ps e d) (hout : .out ∈ ps) (hevents : .events ∈ ps) (hlink : .link ∈ ps) (a1 a2) : Keep ps e (Dev.passFrame d a1 a2) := by
  unfold Dev.passFrame
  repeat' first
    | with_reducible assumption
    | with_reducible refine Dev.passDepend_keep ?_ ‹_› _ _ _ _
    | with_reducible refine Dev.routeFrame_keep ?_ ‹_› ‹_› ‹_› _ _
    | with_reducible refine Dev.setBd_keep ?_ ‹_› _ _
    | (extract_lets +onlyGivenNames lv; (have hx : Keep ps e lv := ?_); (on_goal 1 => clear_value lv); on_goal 2 => subst lv)
    | (extract_lets +onlyGivenNames lv; clear_value lv)
    | extract_lets +onlyGivenNames lv
    | with_reducible refine Keep.ite ?_ ?_
    | split

theorem Dev.acceptFrame_keep {ps : List Part} {e d : Dev} (h : Keep ps e d) (hfree : .free ∈ ps) (hout : .out ∈ ps) (hevents : .events ∈ ps) (hrooms : .rooms ∈ ps) (hfuncs : .funcs ∈ ps) (hnet : .net ∈ ps) (hcellar : .cellar ∈ ps) (hlink : .link ∈ ps) (hrings : .rings ∈ ps) (hcores : .cores ∈ ps) (hsched : .sched ∈ ps) (hstrong : .strong ∈ ps) (hhub : .hub ∈ ps) (a1 a2) : Keep ps e (Dev.acceptFrame d a1 a2) := by
  unfold Dev.acceptFrame
  repeat' first
    | with_reducible assumption
    | with_reducible refine Dev.controlFrame_keep ?_ ‹_› ‹_› ‹_› _ _
    | with_reducible refine Dev.creditBack_keep ?_ ‹_› _
    | with_reducible refine Dev.deliverFrame_keep ?_ ‹_› ‹_› ‹_› ‹_› ‹_› ‹_› ‹_› ‹_› ‹_› ‹_› ‹_› ‹_› ‹_› _ _
    | with_reducible refine Dev.modBd_keep ?_ ‹_› _ _
    | with_reducible refine Dev.passFrame_keep ?_ ‹_› ‹_› ‹_› _ _
    | (extract_lets +onlyGivenNames lv; (have hx : Keep ps e lv := ?_); (on_goal 1 => clear_value lv); on_goal 2 => subst lv)
    | (extract_lets +onlyGivenNames lv; clear_value lv)
    | extract_lets +onlyGivenNames lv
    | with_reducible refine Keep.ite ?_ ?_
    | split

theorem Dev.accessLdd_keep {ps : List Part} {e d : Dev} (h : Keep ps e d) (hcores : .cores ∈ ps) (a1 a2) : Keep ps e (Dev.accessLdd d a1 a2).1 := by
  unfold Dev.accessLdd
  repeat' first
    | with_reducible assumption
    | with_reducible refine Dev.setCore_keep ?_ ‹_› _ _
    | (extract_lets +onlyGivenNames lv; (have hx : Keep ps e lv := ?_); (on_goal 1 => clear_value lv); on_goal 2 => subst lv)
    | (extract_lets +onlyGivenNames lv; clear_value lv)
    | extract_lets +onlyGivenNames lv
    | with_reducible refine Keep.ite ?_ ?_
    | with_reducible refine Keep.iteFst ?_ ?_
    | split

theorem Dev.modFuse_keep {ps : List Part} {e d : Dev} (h : Keep ps e d) (hfuse : .fuse ∈ ps) (a1) : Keep ps e (Dev.modFuse d a1) := by
  unfold Dev.modFuse
  exact Keep.upd_fuse h ‹_›

theorem Dev.countFuse_keep {ps : List Part} {e d : Dev} (h : Keep ps e d) (hfuse : .fuse ∈ ps) (a1) : Keep ps e (Dev.countFuse d a1) := by
  unfold Dev.countFuse
  repeat' first
    | with_reducible assumption
    | with_reducible refine Dev.modFuse_keep ?_ ‹_› _
    | (extract_lets +onlyGivenNames lv; (have hx : Keep ps e lv := ?_); (on_goal 1 => clear_value lv); on_goal 2 => subst lv)
    | (extract_lets +onlyGivenNames lv; clear_value lv)
    | extract_lets +onlyGivenNames lv
    | with_reducible refine Keep.ite ?_ ?_
    | split

theorem Dev.lanePhaseNow_keep {ps : List Part} {e d : Dev} (h : Keep ps e d) (hevents : .events ∈ ps) (hlink : .link ∈ ps) (a1) : Keep ps e (Dev.lanePhaseNow d a1) := by
  unfold Dev.lanePhaseNow
  repeat' first
    | with_reducible assumption
    | with_reducible refine Dev.lanePhase_keep ?_ ‹_› ‹_› _ _
    | with_reducible refine Dev.modLane_keep ?_ ‹_› _ _
    | (extract_lets +onlyGivenNames lv; (have hx : Keep ps e lv := ?_); (on_goal 1 => clear_value lv); on_goal 2 => subst lv)
    | (extract_lets +onlyGivenNames lv; clear_value lv)
    | extract_lets +onlyGivenNames lv
    | with_reducible refine Keep.ite ?_ ?_
    | split

theorem Dev.laneTx_keep {ps : List Part} {e d : Dev} (h : Keep ps e d) (hout : .out ∈ ps) (hlink : .link ∈ ps) (a1) : Keep ps e (Dev.laneTx d a1) := by
  unfold Dev.laneTx
  repeat' first
    | with_reducible assumption
    | with_reducible refine Dev.emit_keep ?_ ‹_› _
    | with_reducible refine Dev.modLane_keep ?_ ‹_› _ _
    | (extract_lets +onlyGivenNames lv; (have hx : Keep ps e lv := ?_); (on_goal 1 => clear_value lv); on_goal 2 => subst lv)
    | (extract_lets +onlyGivenNames lv; clear_value lv)
    | extract_lets +onlyGivenNames lv
    | with_reducible refine Keep.ite ?_ ?_
    | split

theorem Dev.laneStart_keep {ps : List Part} {e d : Dev} (h : Keep ps e d) (hout : .out ∈ ps) (hevents : .events ∈ ps) (hlink : .link ∈ ps) (a1) : Keep ps e (Dev.laneStart d a1) := by
  unfold Dev.laneStart
  repeat' first
    | with_reducible assumption
    | with_reducible refine Dev.lanePhaseNow_keep ?_ ‹_› ‹_› _
    | with_reducible refine Dev.laneTx_keep ?_ ‹_› ‹_› _
    | (extract_lets +onlyGivenNames lv; (have hx : Keep ps e lv := ?_); (on_goal 1 => clear_value lv); on_goal 2 => subst lv)
    | (extract_lets +onlyGivenNames lv; clear_value lv)
    | extract_lets +onlyGivenNames lv
    | with_reducible refine Keep.ite ?_ ?_
    | split

theorem Dev.logFuse_keep {ps : List Part} {e d : Dev} (h : Keep ps e d) (hfuse : .fuse ∈ ps) (hstrong : .strong ∈ ps) (a1 a2 a3 a4 a5 a6 a7) : Keep ps e (Dev.logFuse d a1 a2 a3 a4 a5 a6 a7) := by
  unfold Dev.logFuse
  repeat' first
    | with_reducible assumption
    | (intro m hm; with_reducible exact hm)
    | (intro m hm; with_reducible exact Sram.put_wf hm _ _)
    | (intro m hm; with_reducible exact Memory.wf_clearRange _ _ _ hm)
    | (intro m hm; with_reducible exact Memory.wf_writeN _ _ _ hm)
    | with_reducible refine Dev.countFuse_keep ?_ ‹_› _
    | with_reducible refine Dev.modFuse_keep ?_ ‹_› _
    | with_reducible refine Dev.modSram_keep ?_ ‹_› _ ?_
    | (extract_lets +onlyGivenNames lv; (have hx : Keep ps e lv := ?_); (on_goal 1 => clear_value lv); on_goal 2 => subst lv)
    | (extract_lets +onlyGivenNames lv; clear_value lv)
    | extract_lets +onlyGivenNames lv
    | with_reducible refine Keep.ite ?_ ?_
    | split

theorem Dev.modSrc_keep {ps : List Part} {e d : Dev} (h : Keep ps e d) (hfuse : .fuse ∈ ps) (a1 a2) : Keep ps e (Dev.modSrc d a1 a2) := by
  unfold Dev.modSrc
  repeat' first
    | with_reducible assumption
    | with_reducible refine Dev.modFuse_keep ?_ ‹_› _
    | (extract_lets +onlyGivenNames lv; (have hx : Keep ps e lv := ?_); (on_goal 1 => clear_value lv); on_goal 2 => subst lv)
    | (extract_lets +onlyGivenNames lv; clear_value lv)
    | extract_lets +onlyGivenNames lv
    | with_reducible refine Keep.ite ?_ ?_
    | split

theorem Dev.putFabric_keep {ps : List Part} {e d : Dev} (h : Keep ps e d) (hfabric : .fabric ∈ ps) (a1) : Keep ps e (Dev.putFabric d a1) := by
  unfold Dev.putFabric
  exact Keep.upd_fabric h ‹_›

theorem Dev.modMedia_keep {ps : List Part} {e d : Dev} (h : Keep ps e d) (hmedia : .media ∈ ps) (a1) : Keep ps e (Dev.modMedia d a1) := by
  unfold Dev.modMedia
  exact Keep.upd_media h ‹_›

theorem Dev.setEgr_keep {ps : List Part} {e d : Dev} (h : Keep ps e d) (hmedia : .media ∈ ps) (a1 a2) : Keep ps e (Dev.setEgr d a1 a2) := by
  unfold Dev.setEgr
  repeat' first
    | with_reducible assumption
    | with_reducible refine Dev.modMedia_keep ?_ ‹_› _
    | (extract_lets +onlyGivenNames lv; (have hx : Keep ps e lv := ?_); (on_goal 1 => clear_value lv); on_goal 2 => subst lv)
    | (extract_lets +onlyGivenNames lv; clear_value lv)
    | extract_lets +onlyGivenNames lv
    | with_reducible refine Keep.ite ?_ ?_
    | split

theorem Dev.reforce_keep {ps : List Part} {e d : Dev} (h : Keep ps e d) (hmedia : .media ∈ ps) (hfabric : .fabric ∈ ps) : Keep ps e (Dev.reforce d) := by
  unfold Dev.reforce
  repeat' first
    | with_reducible assumption
    | with_reducible refine Dev.each_keep ?_ (fun x y hx => ?_)
    | with_reducible refine Dev.putFabric_keep ?_ ‹_› _
    | with_reducible refine Dev.setEgr_keep ?_ ‹_› _ _
    | (extract_lets +onlyGivenNames lv; (have hx : Keep ps e lv := ?_); (on_goal 1 => clear_value lv); on_goal 2 => subst lv)
    | (extract_lets +onlyGivenNames lv; clear_value lv)
    | extract_lets +onlyGivenNames lv
    | with_reducible refine Keep.ite ?_ ?_
    | split

theorem Dev.releaseRoom_keep {ps : List Part} {e d : Dev} (h : Keep ps e d) (hrooms : .rooms ∈ ps) (hfuse : .fuse ∈ ps) (a1) : Keep ps e (Dev.releaseRoom d a1) := by
  unfold Dev.releaseRoom
  repeat' first
    | with_reducible assumption
    | with_reducible refine Dev.modFuse_keep ?_ ‹_› _
    | with_reducible refine Dev.modRoom_keep ?_ ‹_› _ _
    | (extract_lets +onlyGivenNames lv; (have hx : Keep ps e lv := ?_); (on_goal 1 => clear_value lv); on_goal 2 => subst lv)
    | (extract_lets +onlyGivenNames lv; clear_value lv)
    | extract_lets +onlyGivenNames lv
    | with_reducible refine Keep.ite ?_ ?_
    | split

end Sys2Proof.Machine
end

