-- ==== Sys2Proof/Laws/KeepUnits.lean ====
section
/-! SUPPORT. What each operation of the device can change (2 of 4): one lemma `Dev.<operation>_keep` for each operation. -/

set_option linter.unusedVariables false
set_option linter.tactic.unusedName false
set_option linter.unusedTactic false
set_option linter.unreachableTactic false

namespace Sys2Proof.Machine
open Sys2Proof

theorem Dev.ack_keep {ps : List Part} {e d : Dev} (h : Keep ps e d) (hout : .out ∈ ps) (hevents : .events ∈ ps) (hrooms : .rooms ∈ ps) (hmedia : .media ∈ ps) (hlink : .link ∈ ps) (hfabric : .fabric ∈ ps) (hfuse : .fuse ∈ ps) (hstrong : .strong ∈ ps) (a1) : Keep ps e (Dev.ack d a1) := by
  unfold Dev.ack
  repeat' first
    | with_reducible assumption
    | with_reducible refine Dev.countFuse_keep ?_ ‹_› _
    | with_reducible refine Dev.laneStart_keep ?_ ‹_› ‹_› ‹_› _
    | with_reducible refine Dev.logFuse_keep ?_ ‹_› ‹_› _ _ _ _ _ _ _
    | with_reducible refine Dev.modFuse_keep ?_ ‹_› _
    | with_reducible refine Dev.modLane_keep ?_ ‹_› _ _
    | with_reducible refine Dev.modSrc_keep ?_ ‹_› _ _
    | with_reducible refine Dev.reforce_keep ?_ ‹_› ‹_›
    | with_reducible refine Dev.releaseRoom_keep ?_ ‹_› ‹_› _
    | (extract_lets +onlyGivenNames lv; (have hx : Keep ps e lv := ?_); (on_goal 1 => clear_value lv); on_goal 2 => subst lv)
    | (extract_lets +onlyGivenNames lv; clear_value lv)
    | extract_lets +onlyGivenNames lv
    | with_reducible refine Keep.ite ?_ ?_
    | split

theorem Dev.setUnit_keep {ps : List Part} {e d : Dev} (h : Keep ps e d) (hacq : .acq ∈ ps) (a1 a2) : Keep ps e (Dev.setUnit d a1 a2) := by
  unfold Dev.setUnit
  exact Keep.upd_acq h ‹_›

theorem Dev.armEffect_keep {ps : List Part} {e d : Dev} (h : Keep ps e d) (hout : .out ∈ ps) (hevents : .events ∈ ps) (hlink : .link ∈ ps) (hrings : .rings ∈ ps) (hsched : .sched ∈ ps) (hacq : .acq ∈ ps) (a0 a1 a2) : Keep ps e (Dev.armEffect a0 a1 a2 d) := by
  unfold Dev.armEffect
  repeat' first
    | with_reducible assumption
    | with_reducible refine Dev.commitPoint_keep ?_ ‹_› _
    | with_reducible refine Dev.each_keep ?_ (fun x y hx => ?_)
    | with_reducible refine Dev.finish_keep ?_ ‹_› ‹_› ‹_› ‹_› ‹_› _ _ _ _ _ _
    | with_reducible refine Dev.setUnit_keep ?_ ‹_› _ _
    | (extract_lets +onlyGivenNames lv; (have hx : Keep ps e lv := ?_); (on_goal 1 => clear_value lv); on_goal 2 => subst lv)
    | (extract_lets +onlyGivenNames lv; clear_value lv)
    | extract_lets +onlyGivenNames lv
    | with_reducible refine Keep.ite ?_ ?_
    | split

theorem Dev.acqArm_keep {ps : List Part} {e d : Dev} (h : Keep ps e d) (hout : .out ∈ ps) (hevents : .events ∈ ps) (hlink : .link ∈ ps) (hrings : .rings ∈ ps) (hsched : .sched ∈ ps) (hacq : .acq ∈ ps) (a0) : Keep ps e (Dev.acqArm a0 d) := by
  unfold Dev.acqArm
  repeat' first
    | with_reducible assumption
    | with_reducible refine Dev.armEffect_keep ?_ ‹_› ‹_› ‹_› ‹_› ‹_› ‹_› _ _ _
    | with_reducible refine Dev.finish_keep ?_ ‹_› ‹_› ‹_› ‹_› ‹_› _ _ _ _ _ _
    | with_reducible refine Dev.runOp_keep ?_ ‹_› (fun x y hx => ?_)
    | (extract_lets +onlyGivenNames lv; (have hx : Keep ps e lv := ?_); (on_goal 1 => clear_value lv); on_goal 2 => subst lv)
    | (extract_lets +onlyGivenNames lv; clear_value lv)
    | extract_lets +onlyGivenNames lv
    | with_reducible refine Keep.ite ?_ ?_
    | split

theorem Dev.modUnit_keep {ps : List Part} {e d : Dev} (h : Keep ps e d) (hacq : .acq ∈ ps) (a1 a2) : Keep ps e (Dev.modUnit d a1 a2) := by
  unfold Dev.modUnit
  repeat' first
    | with_reducible assumption
    | with_reducible refine Dev.setUnit_keep ?_ ‹_› _ _
    | (extract_lets +onlyGivenNames lv; (have hx : Keep ps e lv := ?_); (on_goal 1 => clear_value lv); on_goal 2 => subst lv)
    | (extract_lets +onlyGivenNames lv; clear_value lv)
    | extract_lets +onlyGivenNames lv
    | with_reducible refine Keep.ite ?_ ?_
    | split

theorem Dev.acqPut_keep {ps : List Part} {e d : Dev} (h : Keep ps e d) (hfree : .free ∈ ps) (hevents : .events ∈ ps) (hcellar : .cellar ∈ ps) (hacq : .acq ∈ ps) (hstrong : .strong ∈ ps) (a1 a2) : Keep ps e (Dev.acqPut d a1 a2) := by
  unfold Dev.acqPut
  repeat' first
    | with_reducible assumption
    | (intro c hc; with_reducible exact hc)
    | (intro c hc; with_reducible exact Cellar.seal_wf hc _ _ _ _)
    | (intro c hc; with_reducible exact Cellar.mergeRaw_wf hc _ _ _)
    | (intro c hc; (try dsimp only [Cellar.count, Cellar.setRegion, Cellar.setKey, Cellar.loadKey, Cellar.decideWb]); with_reducible exact hc)
    | (intro c hc; (try dsimp only [Cellar.count, Cellar.setRegion, Cellar.setKey, Cellar.loadKey, Cellar.decideWb]); with_reducible exact Cellar.seal_wf hc _ _ _ _)
    | (intro c hc; (try dsimp only [Cellar.count, Cellar.setRegion, Cellar.setKey, Cellar.loadKey, Cellar.decideWb]); with_reducible exact Cellar.mergeRaw_wf hc _ _ _)
    | (intro c hc; (try dsimp only [Cellar.count, Cellar.setRegion, Cellar.setKey, Cellar.loadKey, Cellar.decideWb]); with_reducible exact Cellar.putMeta_wf hc _ _)
    | (intro c hc; (try dsimp only [Cellar.count, Cellar.setRegion, Cellar.setKey, Cellar.loadKey, Cellar.decideWb]); with_reducible exact Cellar.putRaw_wf hc _ _)
    | (intro c hc; (try dsimp only [Cellar.count, Cellar.setRegion, Cellar.setKey, Cellar.loadKey, Cellar.decideWb]); with_reducible exact Memory.wf_write _ _ _ hc)
    | (intro c hc; (try dsimp only [Cellar.count, Cellar.setRegion, Cellar.setKey, Cellar.loadKey, Cellar.decideWb]); with_reducible exact Memory.wf_writeN _ _ _ hc)
    | (intro c hc; (try dsimp only [Cellar.count, Cellar.setRegion, Cellar.setKey, Cellar.loadKey, Cellar.decideWb]); with_reducible exact Memory.wf_clearRange _ _ _ hc)
    | (intro c hc; (try dsimp only [Cellar.count, Cellar.setRegion, Cellar.setKey, Cellar.loadKey, Cellar.decideWb]); with_reducible exact Memory.wf_spans _ _ hc)
    | (intro c hc; (repeat' split) <;> with_reducible exact hc)
    | (intro c hc; dsimp only; split <;> exact hc)
    | (intro c hc; exact hc)
    | with_reducible refine Dev.cellarRefuse_keep ?_ ‹_› ‹_›
    | with_reducible refine Dev.modCellar_keep ?_ ‹_› _ ?_
    | with_reducible refine Dev.modUnit_keep ?_ ‹_› _ _
    | with_reducible refine Dev.raise_keep ?_ ‹_› _ _
    | with_reducible refine Dev.ringPut_keep ?_ ‹_› ‹_› ‹_› ‹_› _ _ _ _ _ _
    | (extract_lets +onlyGivenNames lv; (have hx : Keep ps e lv := ?_); (on_goal 1 => clear_value lv); on_goal 2 => subst lv)
    | (extract_lets +onlyGivenNames lv; clear_value lv)
    | extract_lets +onlyGivenNames lv
    | with_reducible refine Keep.ite ?_ ?_
    | split

theorem Dev.acqEnd_keep {ps : List Part} {e d : Dev} (h : Keep ps e d) (hfree : .free ∈ ps) (hevents : .events ∈ ps) (hcellar : .cellar ∈ ps) (hacq : .acq ∈ ps) (hstrong : .strong ∈ ps) (a1) : Keep ps e (Dev.acqEnd d a1) := by
  unfold Dev.acqEnd
  repeat' first
    | with_reducible assumption
    | with_reducible refine Dev.acqPut_keep ?_ ‹_› ‹_› ‹_› ‹_› ‹_› _ _
    | with_reducible refine Dev.modUnit_keep ?_ ‹_› _ _
    | with_reducible refine Dev.raise_keep ?_ ‹_› _ _
    | (extract_lets +onlyGivenNames lv; (have hx : Keep ps e lv := ?_); (on_goal 1 => clear_value lv); on_goal 2 => subst lv)
    | (extract_lets +onlyGivenNames lv; clear_value lv)
    | extract_lets +onlyGivenNames lv
    | with_reducible refine Keep.ite ?_ ?_
    | split

theorem Dev.acqFireUnit_keep {ps : List Part} {e d : Dev} (h : Keep ps e d) (hfree : .free ∈ ps) (hevents : .events ∈ ps) (hcellar : .cellar ∈ ps) (hacq : .acq ∈ ps) (hstrong : .strong ∈ ps) (a1 a2 a3) : Keep ps e (Dev.acqFireUnit d a1 a2 a3) := by
  unfold Dev.acqFireUnit
  repeat' first
    | with_reducible assumption
    | with_reducible refine Dev.acqEnd_keep ?_ ‹_› ‹_› ‹_› ‹_› ‹_› _
    | with_reducible refine Dev.acqPut_keep ?_ ‹_› ‹_› ‹_› ‹_› ‹_› _ _
    | with_reducible refine Dev.modUnit_keep ?_ ‹_› _ _
    | with_reducible refine Dev.raise_keep ?_ ‹_› _ _
    | (extract_lets +onlyGivenNames lv; (have hx : Keep ps e lv := ?_); (on_goal 1 => clear_value lv); on_goal 2 => subst lv)
    | (extract_lets +onlyGivenNames lv; clear_value lv)
    | extract_lets +onlyGivenNames lv
    | with_reducible refine Keep.ite ?_ ?_
    | split

theorem Dev.acqFire_keep {ps : List Part} {e d : Dev} (h : Keep ps e d) (hfree : .free ∈ ps) (hevents : .events ∈ ps) (hcellar : .cellar ∈ ps) (hacq : .acq ∈ ps) (hstrong : .strong ∈ ps) (a1 a2) : Keep ps e (Dev.acqFire d a1 a2) := by
  unfold Dev.acqFire
  repeat' first
    | with_reducible assumption
    | with_reducible refine Dev.acqFireUnit_keep ?_ ‹_› ‹_› ‹_› ‹_› ‹_› _ _ _
    | with_reducible refine Dev.each_keep ?_ (fun x y hx => ?_)
    | (extract_lets +onlyGivenNames lv; (have hx : Keep ps e lv := ?_); (on_goal 1 => clear_value lv); on_goal 2 => subst lv)
    | (extract_lets +onlyGivenNames lv; clear_value lv)
    | extract_lets +onlyGivenNames lv
    | with_reducible refine Keep.ite ?_ ?_
    | split

theorem Dev.acqCrossTrigger_keep {ps : List Part} {e d : Dev} (h : Keep ps e d) (hfree : .free ∈ ps) (hevents : .events ∈ ps) (hcellar : .cellar ∈ ps) (hacq : .acq ∈ ps) (hstrong : .strong ∈ ps) : Keep ps e (Dev.acqCrossTrigger d) := by
  unfold Dev.acqCrossTrigger
  repeat' first
    | with_reducible assumption
    | with_reducible refine Dev.acqFire_keep ?_ ‹_› ‹_› ‹_› ‹_› ‹_› _ _
    | with_reducible refine Dev.each_keep ?_ (fun x y hx => ?_)
    | (extract_lets +onlyGivenNames lv; (have hx : Keep ps e lv := ?_); (on_goal 1 => clear_value lv); on_goal 2 => subst lv)
    | (extract_lets +onlyGivenNames lv; clear_value lv)
    | extract_lets +onlyGivenNames lv
    | with_reducible refine Keep.ite ?_ ?_
    | split

theorem Dev.putAcq_keep {ps : List Part} {e d : Dev} (h : Keep ps e d) (hacq : .acq ∈ ps) (a1) : Keep ps e (Dev.putAcq d a1) := by
  unfold Dev.putAcq
  exact Keep.upd_acq h ‹_›

theorem Dev.acqDisarm_keep {ps : List Part} {e d : Dev} (h : Keep ps e d) (hacq : .acq ∈ ps) (a0) : Keep ps e (Dev.acqDisarm a0 d) := by
  unfold Dev.acqDisarm
  repeat' first
    | with_reducible assumption
    | with_reducible refine Dev.modUnit_keep ?_ ‹_› _ _
    | with_reducible refine Dev.putAcq_keep ?_ ‹_› _
    | (extract_lets +onlyGivenNames lv; (have hx : Keep ps e lv := ?_); (on_goal 1 => clear_value lv); on_goal 2 => subst lv)
    | (extract_lets +onlyGivenNames lv; clear_value lv)
    | extract_lets +onlyGivenNames lv
    | with_reducible refine Keep.ite ?_ ?_
    | split

theorem Dev.ignore_keep {ps : List Part} {e d : Dev} (h : Keep ps e d) (hhub : .hub ∈ ps) (a1) : Keep ps e (Dev.ignore d a1) := by
  unfold Dev.ignore
  repeat' first
    | with_reducible assumption
    | with_reducible refine Dev.putHub_keep ?_ ‹_› _
    | (extract_lets +onlyGivenNames lv; (have hx : Keep ps e lv := ?_); (on_goal 1 => clear_value lv); on_goal 2 => subst lv)
    | (extract_lets +onlyGivenNames lv; clear_value lv)
    | extract_lets +onlyGivenNames lv
    | with_reducible refine Keep.ite ?_ ?_
    | split

theorem Dev.acqForce_keep {ps : List Part} {e d : Dev} (h : Keep ps e d) (hfree : .free ∈ ps) (hevents : .events ∈ ps) (hcellar : .cellar ∈ ps) (hacq : .acq ∈ ps) (hstrong : .strong ∈ ps) (hhub : .hub ∈ ps) (a0) : Keep ps e (Dev.acqForce a0 d) := by
  unfold Dev.acqForce
  repeat' first
    | with_reducible assumption
    | with_reducible refine Dev.acqFire_keep ?_ ‹_› ‹_› ‹_› ‹_› ‹_› _ _
    | with_reducible refine Dev.ignore_keep ?_ ‹_› _
    | (extract_lets +onlyGivenNames lv; (have hx : Keep ps e lv := ?_); (on_goal 1 => clear_value lv); on_goal 2 => subst lv)
    | (extract_lets +onlyGivenNames lv; clear_value lv)
    | extract_lets +onlyGivenNames lv
    | with_reducible refine Keep.ite ?_ ?_
    | split

theorem Dev.acqRate_keep {ps : List Part} {e d : Dev} (h : Keep ps e d) (hfree : .free ∈ ps) (hevents : .events ∈ ps) (hcellar : .cellar ∈ ps) (hacq : .acq ∈ ps) (hstrong : .strong ∈ ps) (a1 a2) : Keep ps e (Dev.acqRate d a1 a2) := by
  unfold Dev.acqRate
  repeat' first
    | with_reducible assumption
    | with_reducible refine Dev.acqPut_keep ?_ ‹_› ‹_› ‹_› ‹_› ‹_› _ _
    | with_reducible refine Dev.modUnit_keep ?_ ‹_› _ _
    | (extract_lets +onlyGivenNames lv; (have hx : Keep ps e lv := ?_); (on_goal 1 => clear_value lv); on_goal 2 => subst lv)
    | (extract_lets +onlyGivenNames lv; clear_value lv)
    | extract_lets +onlyGivenNames lv
    | with_reducible refine Keep.ite ?_ ?_
    | split

theorem Dev.acqRecord_keep {ps : List Part} {e d : Dev} (h : Keep ps e d) (hfree : .free ∈ ps) (hevents : .events ∈ ps) (hcellar : .cellar ∈ ps) (hacq : .acq ∈ ps) (hstrong : .strong ∈ ps) (a0 a1 a2) : Keep ps e (Dev.acqRecord a0 a1 a2 d) := by
  unfold Dev.acqRecord
  repeat' first
    | with_reducible assumption
    | with_reducible refine Dev.acqEnd_keep ?_ ‹_› ‹_› ‹_› ‹_› ‹_› _
    | with_reducible refine Dev.acqPut_keep ?_ ‹_› ‹_› ‹_› ‹_› ‹_› _ _
    | with_reducible refine Dev.acqRate_keep ?_ ‹_› ‹_› ‹_› ‹_› ‹_› _ _
    | with_reducible refine Dev.modUnit_keep ?_ ‹_› _ _
    | with_reducible refine Dev.raise_keep ?_ ‹_› _ _
    | (extract_lets +onlyGivenNames lv; (have hx : Keep ps e lv := ?_); (on_goal 1 => clear_value lv); on_goal 2 => subst lv)
    | (extract_lets +onlyGivenNames lv; clear_value lv)
    | extract_lets +onlyGivenNames lv
    | with_reducible refine Keep.ite ?_ ?_
    | split

theorem Dev.acqTrigger_keep {ps : List Part} {e d : Dev} (h : Keep ps e d) (hfree : .free ∈ ps) (hevents : .events ∈ ps) (hcellar : .cellar ∈ ps) (hacq : .acq ∈ ps) (hstrong : .strong ∈ ps) (a0 a1 a2) : Keep ps e (Dev.acqTrigger a0 a1 a2 d) := by
  unfold Dev.acqTrigger
  repeat' first
    | with_reducible assumption
    | with_reducible refine Dev.acqFire_keep ?_ ‹_› ‹_› ‹_› ‹_› ‹_› _ _
    | (extract_lets +onlyGivenNames lv; (have hx : Keep ps e lv := ?_); (on_goal 1 => clear_value lv); on_goal 2 => subst lv)
    | (extract_lets +onlyGivenNames lv; clear_value lv)
    | extract_lets +onlyGivenNames lv
    | with_reducible refine Keep.ite ?_ ?_
    | split

theorem Dev.admitAgain_keep {ps : List Part} {e d : Dev} (h : Keep ps e d) (hout : .out ∈ ps) (hevents : .events ∈ ps) (hrooms : .rooms ∈ ps) (hfuncs : .funcs ∈ ps) (hnet : .net ∈ ps) (hlink : .link ∈ ps) (hrings : .rings ∈ ps) (hfuse : .fuse ∈ ps) : Keep ps e (Dev.admitAgain d) := by
  unfold Dev.admitAgain
  repeat' first
    | with_reducible assumption
    | (intro y; with_reducible rfl)
    | (intro y; split <;> rfl)
    | with_reducible refine Dev.each_keep ?_ (fun x y hx => ?_)
    | with_reducible refine Dev.modEntry_keep ?_ ‹_› _ _ ?_
    | with_reducible refine Dev.undoAdmission_keep ?_ ‹_› ‹_› ‹_› ‹_› ‹_› ‹_› ‹_› _
    | (extract_lets +onlyGivenNames lv; (have hx : Keep ps e lv := ?_); (on_goal 1 => clear_value lv); on_goal 2 => subst lv)
    | (extract_lets +onlyGivenNames lv; clear_value lv)
    | extract_lets +onlyGivenNames lv
    | with_reducible refine Keep.ite ?_ ?_
    | split

theorem Dev.modStrong_keep {ps : List Part} {e d : Dev} (h : Keep ps e d) (hstrong : .strong ∈ ps) (f : Strong → Strong)
    (hs : StrongKept d.strong (f d.strong)) : Keep ps e (d.modStrong f) := Keep.upd_strong h hstrong hs

theorem Dev.measure_keep {ps : List Part} {e d : Dev} (h : Keep ps e d) (hstrong : .strong ∈ ps) (a1) : Keep ps e (Dev.measure d a1) := by
  unfold Dev.measure
  repeat' first
    | with_reducible assumption
    | with_reducible exact StrongKept.same rfl rfl rfl rfl rfl rfl rfl rfl rfl
    | exact StrongKept.of (fun h => ⟨h.1, h.2.1, Memory.wf_writeN _ _ _ rfl⟩) rfl rfl rfl rfl rfl rfl
    | exact StrongKept.of (fun h => ⟨h.1, Memory.wf_writeN _ _ _ h.2.1, h.2.2⟩) rfl rfl rfl rfl rfl rfl
    | with_reducible refine Dev.modStrong_keep ?_ ‹_› _ ?_
    | (extract_lets +onlyGivenNames lv; (have hx : Keep ps e lv := ?_); (on_goal 1 => clear_value lv); on_goal 2 => subst lv)
    | (extract_lets +onlyGivenNames lv; clear_value lv)
    | extract_lets +onlyGivenNames lv
    | with_reducible refine Keep.ite ?_ ?_
    | split

theorem Dev.passStart_keep {ps : List Part} {e d : Dev} (h : Keep ps e d) (hfree : .free ∈ ps) (hevents : .events ∈ ps) (hrooms : .rooms ∈ ps) (hnet : .net ∈ ps) (hcellar : .cellar ∈ ps) (hcores : .cores ∈ ps) (hstrong : .strong ∈ ps) (a1) : Keep ps e (Dev.passStart d a1) := by
  unfold Dev.passStart
  repeat' first
    | with_reducible assumption
    | with_reducible refine Dev.setRoom_keep ?_ ‹_› _ _
    | with_reducible refine Dev.trace_keep ?_ ‹_› ‹_› ‹_› ‹_› ‹_› ‹_› _ _ _ _ _ _
    | (extract_lets +onlyGivenNames lv; (have hx : Keep ps e lv := ?_); (on_goal 1 => clear_value lv); on_goal 2 => subst lv)
    | (extract_lets +onlyGivenNames lv; clear_value lv)
    | extract_lets +onlyGivenNames lv
    | with_reducible refine Keep.ite ?_ ?_
    | split

theorem Dev.reserveFrames_keep {ps : List Part} {e d : Dev} (h : Keep ps e d) (hlink : .link ∈ ps) (a1 a2 a3 a4) : Keep ps e (Dev.reserveFrames d a1 a2 a3 a4) := by
  unfold Dev.reserveFrames
  repeat' first
    | with_reducible assumption
    | with_reducible refine Dev.modBd_keep ?_ ‹_› _ _
    | (extract_lets +onlyGivenNames lv; (have hx : Keep ps e lv := ?_); (on_goal 1 => clear_value lv); on_goal 2 => subst lv)
    | (extract_lets +onlyGivenNames lv; clear_value lv)
    | extract_lets +onlyGivenNames lv
    | with_reducible refine Keep.ite ?_ ?_
    | split

theorem Dev.admitEffect_keep {ps : List Part} {e d : Dev} (h : Keep ps e d) (hfree : .free ∈ ps) (hout : .out ∈ ps) (hevents : .events ∈ ps) (hrooms : .rooms ∈ ps) (hfuncs : .funcs ∈ ps) (hnet : .net ∈ ps) (hcellar : .cellar ∈ ps) (hlink : .link ∈ ps) (hrings : .rings ∈ ps) (hcores : .cores ∈ ps) (hsched : .sched ∈ ps) (hstrong : .strong ∈ ps) (hhub : .hub ∈ ps) (a0 a1 a2 a3) : Keep ps e (Dev.admitEffect a0 a1 a2 a3 d) := by
  unfold Dev.admitEffect
  repeat' first
    | with_reducible assumption
    | with_reducible refine Dev.commitPoint_keep ?_ ‹_› _
    | with_reducible refine Dev.each_keep ?_ (fun x y hx => ?_)
    | with_reducible refine Dev.finish_keep ?_ ‹_› ‹_› ‹_› ‹_› ‹_› _ _ _ _ _ _
    | with_reducible refine Dev.measure_keep ?_ ‹_› _
    | with_reducible refine Dev.modFunc_keep ?_ ‹_› _ _
    | with_reducible refine Dev.modRoom_keep ?_ ‹_› _ _
    | with_reducible refine Dev.passStart_keep ?_ ‹_› ‹_› ‹_› ‹_› ‹_› ‹_› ‹_› _
    | with_reducible refine Dev.putHub_keep ?_ ‹_› _
    | with_reducible refine Dev.reserveFrames_keep ?_ ‹_› _ _ _ _
    | with_reducible refine Dev.sendDepend_keep ?_ ‹_› ‹_› ‹_› _ _ _ _ _
    | (extract_lets +onlyGivenNames lv; (have hx : Keep ps e lv := ?_); (on_goal 1 => clear_value lv); on_goal 2 => subst lv)
    | (extract_lets +onlyGivenNames lv; clear_value lv)
    | extract_lets +onlyGivenNames lv
    | with_reducible refine Keep.ite ?_ ?_
    | split

theorem Dev.modFabric_keep {ps : List Part} {e d : Dev} (h : Keep ps e d) (hfabric : .fabric ∈ ps) (a1) : Keep ps e (Dev.modFabric d a1) := by
  unfold Dev.modFabric
  exact Keep.upd_fabric h ‹_›

theorem Dev.setUev_keep {ps : List Part} {e d : Dev} (h : Keep ps e d) (hevents : .events ∈ ps) (hfabric : .fabric ∈ ps) (a1 a2) : Keep ps e (Dev.setUev d a1 a2) := by
  unfold Dev.setUev
  repeat' first
    | with_reducible assumption
    | with_reducible refine Dev.modFabric_keep ?_ ‹_› _
    | with_reducible refine Dev.raise_keep ?_ ‹_› _ _
    | (extract_lets +onlyGivenNames lv; (have hx : Keep ps e lv := ?_); (on_goal 1 => clear_value lv); on_goal 2 => subst lv)
    | (extract_lets +onlyGivenNames lv; clear_value lv)
    | extract_lets +onlyGivenNames lv
    | with_reducible refine Keep.ite ?_ ?_
    | split

theorem Dev.liftBlock_keep {ps : List Part} {e d : Dev} (h : Keep ps e d) (hevents : .events ∈ ps) (hfabric : .fabric ∈ ps) (a1) : Keep ps e (Dev.liftBlock d a1) := by
  unfold Dev.liftBlock
  repeat' first
    | with_reducible assumption
    | with_reducible refine Dev.each_keep ?_ (fun x y hx => ?_)
    | with_reducible refine Dev.modFabric_keep ?_ ‹_› _
    | with_reducible refine Dev.setUev_keep ?_ ‹_› ‹_› _ _
    | (extract_lets +onlyGivenNames lv; (have hx : Keep ps e lv := ?_); (on_goal 1 => clear_value lv); on_goal 2 => subst lv)
    | (extract_lets +onlyGivenNames lv; clear_value lv)
    | extract_lets +onlyGivenNames lv
    | with_reducible refine Keep.ite ?_ ?_
    | split

theorem Dev.advanceStage_keep {ps : List Part} {e d : Dev} (h : Keep ps e d) (hevents : .events ∈ ps) (hfabric : .fabric ∈ ps) (a1) : Keep ps e (Dev.advanceStage d a1) := by
  unfold Dev.advanceStage
  repeat' first
    | with_reducible assumption
    | with_reducible refine Dev.liftBlock_keep ?_ ‹_› ‹_› _
    | with_reducible refine Dev.modFabric_keep ?_ ‹_› _
    | (extract_lets +onlyGivenNames lv; (have hx : Keep ps e lv := ?_); (on_goal 1 => clear_value lv); on_goal 2 => subst lv)
    | (extract_lets +onlyGivenNames lv; clear_value lv)
    | extract_lets +onlyGivenNames lv
    | with_reducible refine Keep.ite ?_ ?_
    | split

theorem Dev.modTime_keep {ps : List Part} {e d : Dev} (h : Keep ps e d) (htime : .time ∈ ps) (a1) : Keep ps e (Dev.modTime d a1) := by
  unfold Dev.modTime
  exact Keep.upd_time h ‹_›

theorem Dev.armStart_keep {ps : List Part} {e d : Dev} (h : Keep ps e d) (htime : .time ∈ ps) : Keep ps e (Dev.armStart d) := by
  unfold Dev.armStart
  repeat' first
    | with_reducible assumption
    | with_reducible refine Dev.modTime_keep ?_ ‹_› _
    | (extract_lets +onlyGivenNames lv; (have hx : Keep ps e lv := ?_); (on_goal 1 => clear_value lv); on_goal 2 => subst lv)
    | (extract_lets +onlyGivenNames lv; clear_value lv)
    | extract_lets +onlyGivenNames lv
    | with_reducible refine Keep.ite ?_ ?_
    | split

theorem Dev.keepMean_keep {ps : List Part} {e d : Dev} (h : Keep ps e d) (htime : .time ∈ ps) : Keep ps e (Dev.keepMean d) := by
  unfold Dev.keepMean
  repeat' first
    | with_reducible assumption
    | with_reducible refine Dev.modTime_keep ?_ ‹_› _
    | (extract_lets +onlyGivenNames lv; (have hx : Keep ps e lv := ?_); (on_goal 1 => clear_value lv); on_goal 2 => subst lv)
    | (extract_lets +onlyGivenNames lv; clear_value lv)
    | extract_lets +onlyGivenNames lv
    | with_reducible refine Keep.ite ?_ ?_
    | split

theorem Dev.setServo_keep {ps : List Part} {e d : Dev} (h : Keep ps e d) (hevents : .events ∈ ps) (htime : .time ∈ ps) (a1) : Keep ps e (Dev.setServo d a1) := by
  unfold Dev.setServo
  repeat' first
    | with_reducible assumption
    | with_reducible refine Dev.keepMean_keep ?_ ‹_›
    | with_reducible refine Dev.modTime_keep ?_ ‹_› _
    | with_reducible refine Dev.raise_keep ?_ ‹_› _ _
    | (extract_lets +onlyGivenNames lv; (have hx : Keep ps e lv := ?_); (on_goal 1 => clear_value lv); on_goal 2 => subst lv)
    | (extract_lets +onlyGivenNames lv; clear_value lv)
    | extract_lets +onlyGivenNames lv
    | with_reducible refine Keep.ite ?_ ?_
    | split

theorem Dev.holdover_keep {ps : List Part} {e d : Dev} (h : Keep ps e d) (hevents : .events ∈ ps) (htime : .time ∈ ps) : Keep ps e (Dev.holdover d) := by
  unfold Dev.holdover
  repeat' first
    | with_reducible assumption
    | with_reducible refine Dev.keepMean_keep ?_ ‹_›
    | with_reducible refine Dev.modTime_keep ?_ ‹_› _
    | with_reducible refine Dev.setServo_keep ?_ ‹_› ‹_› _
    | (extract_lets +onlyGivenNames lv; (have hx : Keep ps e lv := ?_); (on_goal 1 => clear_value lv); on_goal 2 => subst lv)
    | (extract_lets +onlyGivenNames lv; clear_value lv)
    | extract_lets +onlyGivenNames lv
    | with_reducible refine Keep.ite ?_ ?_
    | split

theorem Dev.afterSet_keep {ps : List Part} {e d : Dev} (h : Keep ps e d) (hevents : .events ∈ ps) (htime : .time ∈ ps) : Keep ps e (Dev.afterSet d) := by
  unfold Dev.afterSet
  repeat' first
    | with_reducible assumption
    | with_reducible refine Dev.armStart_keep ?_ ‹_›
    | with_reducible refine Dev.holdover_keep ?_ ‹_› ‹_›
    | with_reducible refine Dev.modTime_keep ?_ ‹_› _
    | with_reducible refine Dev.setServo_keep ?_ ‹_› ‹_› _
    | (extract_lets +onlyGivenNames lv; (have hx : Keep ps e lv := ?_); (on_goal 1 => clear_value lv); on_goal 2 => subst lv)
    | (extract_lets +onlyGivenNames lv; clear_value lv)
    | extract_lets +onlyGivenNames lv
    | with_reducible refine Keep.ite ?_ ?_
    | split

theorem Dev.bundleUp_keep {ps : List Part} {e d : Dev} (h : Keep ps e d) (hevents : .events ∈ ps) (hlink : .link ∈ ps) (a0) : Keep ps e (Dev.bundleUp a0 d) := by
  unfold Dev.bundleUp
  repeat' first
    | with_reducible assumption
    | with_reducible refine Dev.bdPhase_keep ?_ ‹_› ‹_› _ _
    | with_reducible refine Dev.modBd_keep ?_ ‹_› _ _
    | with_reducible refine Dev.setActive_keep ?_ ‹_› _ _
    | (extract_lets +onlyGivenNames lv; (have hx : Keep ps e lv := ?_); (on_goal 1 => clear_value lv); on_goal 2 => subst lv)
    | (extract_lets +onlyGivenNames lv; clear_value lv)
    | extract_lets +onlyGivenNames lv
    | with_reducible refine Keep.ite ?_ ?_
    | split

theorem Dev.alignDone_keep {ps : List Part} {e d : Dev} (h : Keep ps e d) (hevents : .events ∈ ps) (hlink : .link ∈ ps) (a0) : Keep ps e (Dev.alignDone a0 d) := by
  unfold Dev.alignDone
  repeat' first
    | with_reducible assumption
    | with_reducible refine Dev.bundleUp_keep ?_ ‹_› ‹_› _
    | with_reducible refine Dev.lanePhase_keep ?_ ‹_› ‹_› _ _
    | (extract_lets +onlyGivenNames lv; (have hx : Keep ps e lv := ?_); (on_goal 1 => clear_value lv); on_goal 2 => subst lv)
    | (extract_lets +onlyGivenNames lv; clear_value lv)
    | extract_lets +onlyGivenNames lv
    | with_reducible refine Keep.ite ?_ ?_
    | split

theorem Dev.chooseMaster_keep {ps : List Part} {e d : Dev} (h : Keep ps e d) (hevents : .events ∈ ps) (htime : .time ∈ ps) : Keep ps e (Dev.chooseMaster d) := by
  unfold Dev.chooseMaster
  repeat' first
    | with_reducible assumption
    | with_reducible refine Dev.modTime_keep ?_ ‹_› _
    | with_reducible refine Dev.raise_keep ?_ ‹_› _ _
    | (extract_lets +onlyGivenNames lv; (have hx : Keep ps e lv := ?_); (on_goal 1 => clear_value lv); on_goal 2 => subst lv)
    | (extract_lets +onlyGivenNames lv; clear_value lv)
    | extract_lets +onlyGivenNames lv
    | with_reducible refine Keep.ite ?_ ?_
    | split

theorem Dev.announce_keep {ps : List Part} {e d : Dev} (h : Keep ps e d) (hevents : .events ∈ ps) (htime : .time ∈ ps) (a1 a2) : Keep ps e (Dev.announce d a1 a2) := by
  unfold Dev.announce
  repeat' first
    | with_reducible assumption
    | with_reducible refine Dev.chooseMaster_keep ?_ ‹_› ‹_›
    | with_reducible refine Dev.modTime_keep ?_ ‹_› _
    | (extract_lets +onlyGivenNames lv; (have hx : Keep ps e lv := ?_); (on_goal 1 => clear_value lv); on_goal 2 => subst lv)
    | (extract_lets +onlyGivenNames lv; clear_value lv)
    | extract_lets +onlyGivenNames lv
    | with_reducible refine Keep.ite ?_ ?_
    | split

theorem Dev.answer_keep {ps : List Part} {e d : Dev} (h : Keep ps e d) (hout : .out ∈ ps) (a1 a2) : Keep ps e (Dev.answer d a1 a2) := by
  unfold Dev.answer
  repeat' first
    | with_reducible assumption
    | with_reducible refine Dev.emit_keep ?_ ‹_› _
    | (extract_lets +onlyGivenNames lv; (have hx : Keep ps e lv := ?_); (on_goal 1 => clear_value lv); on_goal 2 => subst lv)
    | (extract_lets +onlyGivenNames lv; clear_value lv)
    | extract_lets +onlyGivenNames lv
    | with_reducible refine Keep.ite ?_ ?_
    | split

theorem Dev.setEth_keep {ps : List Part} {e d : Dev} (h : Keep ps e d) (hmedia : .media ∈ ps) (a1 a2) : Keep ps e (Dev.setEth d a1 a2) := by
  unfold Dev.setEth
  repeat' first
    | with_reducible assumption
    | with_reducible refine Dev.modMedia_keep ?_ ‹_› _
    | (extract_lets +onlyGivenNames lv; (have hx : Keep ps e lv := ?_); (on_goal 1 => clear_value lv); on_goal 2 => subst lv)
    | (extract_lets +onlyGivenNames lv; clear_value lv)
    | extract_lets +onlyGivenNames lv
    | with_reducible refine Keep.ite ?_ ?_
    | split

theorem Dev.countEth_keep {ps : List Part} {e d : Dev} (h : Keep ps e d) (hmedia : .media ∈ ps) (a1 a2 a3) : Keep ps e (Dev.countEth d a1 a2 a3) := by
  unfold Dev.countEth
  repeat' first
    | with_reducible assumption
    | with_reducible refine Dev.setEth_keep ?_ ‹_› _ _
    | (extract_lets +onlyGivenNames lv; (have hx : Keep ps e lv := ?_); (on_goal 1 => clear_value lv); on_goal 2 => subst lv)
    | (extract_lets +onlyGivenNames lv; clear_value lv)
    | extract_lets +onlyGivenNames lv
    | with_reducible refine Keep.ite ?_ ?_
    | split

theorem Dev.sendAt_keep {ps : List Part} {e d : Dev} (h : Keep ps e d) (hout : .out ∈ ps) (htime : .time ∈ ps) (a1 a2 a3) : Keep ps e (Dev.sendAt d a1 a2 a3) := by
  unfold Dev.sendAt
  repeat' first
    | with_reducible assumption
    | with_reducible refine Dev.emit_keep ?_ ‹_› _
    | with_reducible refine Dev.modTime_keep ?_ ‹_› _
    | (extract_lets +onlyGivenNames lv; (have hx : Keep ps e lv := ?_); (on_goal 1 => clear_value lv); on_goal 2 => subst lv)
    | (extract_lets +onlyGivenNames lv; clear_value lv)
    | extract_lets +onlyGivenNames lv
    | with_reducible refine Keep.ite ?_ ?_
    | split

theorem Dev.portFrame_keep {ps : List Part} {e d : Dev} (h : Keep ps e d) (hout : .out ∈ ps) (hevents : .events ∈ ps) (hmedia : .media ∈ ps) (htime : .time ∈ ps) (a1 a2) : Keep ps e (Dev.portFrame d a1 a2) := by
  unfold Dev.portFrame
  repeat' first
    | with_reducible assumption
    | with_reducible refine Dev.countEth_keep ?_ ‹_› _ _ _
    | with_reducible refine Dev.raise_keep ?_ ‹_› _ _
    | with_reducible refine Dev.sendAt_keep ?_ ‹_› ‹_› _ _ _
    | with_reducible refine Dev.setEth_keep ?_ ‹_› _ _
    | (extract_lets +onlyGivenNames lv; (have hx : Keep ps e lv := ?_); (on_goal 1 => clear_value lv); on_goal 2 => subst lv)
    | (extract_lets +onlyGivenNames lv; clear_value lv)
    | extract_lets +onlyGivenNames lv
    | with_reducible refine Keep.ite ?_ ?_
    | split

theorem Dev.answerPtp_keep {ps : List Part} {e d : Dev} (h : Keep ps e d) (hout : .out ∈ ps) (hevents : .events ∈ ps) (hmedia : .media ∈ ps) (htime : .time ∈ ps) (a1 a2 a3) : Keep ps e (Dev.answerPtp d a1 a2 a3) := by
  unfold Dev.answerPtp
  repeat' first
    | with_reducible assumption
    | with_reducible refine Dev.portFrame_keep ?_ ‹_› ‹_› ‹_› ‹_› _ _
    | (extract_lets +onlyGivenNames lv; (have hx : Keep ps e lv := ?_); (on_goal 1 => clear_value lv); on_goal 2 => subst lv)
    | (extract_lets +onlyGivenNames lv; clear_value lv)
    | extract_lets +onlyGivenNames lv
    | with_reducible refine Keep.ite ?_ ?_
    | split

theorem Dev.holdBlock_keep {ps : List Part} {e d : Dev} (h : Keep ps e d) (hfree : .free ∈ ps) (hevents : .events ∈ ps) (hfabric : .fabric ∈ ps) (a0 a2) : Keep ps e (Dev.holdBlock a0 d a2) := by
  unfold Dev.holdBlock
  repeat' first
    | with_reducible assumption
    | with_reducible refine Dev.each_keep ?_ (fun x y hx => ?_)
    | with_reducible refine Dev.modFabric_keep ?_ ‹_› _
    | with_reducible refine Dev.setUev_keep ?_ ‹_› ‹_› _ _
    | with_reducible refine Dev.take_keep ?_ ‹_› _
    | (extract_lets +onlyGivenNames lv; (have hx : Keep ps e lv := ?_); (on_goal 1 => clear_value lv); on_goal 2 => subst lv)
    | (extract_lets +onlyGivenNames lv; clear_value lv)
    | extract_lets +onlyGivenNames lv
    | with_reducible refine Keep.ite ?_ ?_
    | split

theorem Dev.refreshPads_keep {ps : List Part} {e d : Dev} (h : Keep ps e d) (hfabric : .fabric ∈ ps) : Keep ps e (Dev.refreshPads d) := by
  unfold Dev.refreshPads
  repeat' first
    | with_reducible assumption
    | with_reducible refine Dev.modFabric_keep ?_ ‹_› _
    | (extract_lets +onlyGivenNames lv; (have hx : Keep ps e lv := ?_); (on_goal 1 => clear_value lv); on_goal 2 => subst lv)
    | (extract_lets +onlyGivenNames lv; clear_value lv)
    | extract_lets +onlyGivenNames lv
    | with_reducible refine Keep.ite ?_ ?_
    | split

theorem Dev.applyFabric_keep {ps : List Part} {e d : Dev} (h : Keep ps e d) (hfree : .free ∈ ps) (hevents : .events ∈ ps) (hfabric : .fabric ∈ ps) (hrings : .rings ∈ ps) (hstrong : .strong ∈ ps) (a1 a2 a3) : Keep ps e (Dev.applyFabric d a1 a2 a3) := by
  unfold Dev.applyFabric
  repeat' first
    | with_reducible assumption
    | with_reducible refine Dev.commitPoint_keep ?_ ‹_› _
    | with_reducible refine Dev.each_keep ?_ (fun x y hx => ?_)
    | with_reducible refine Dev.holdBlock_keep ?_ ‹_› ‹_› ‹_› _ _
    | with_reducible refine Dev.measure_keep ?_ ‹_› _
    | with_reducible refine Dev.modFabric_keep ?_ ‹_› _
    | with_reducible refine Dev.refreshPads_keep ?_ ‹_›
    | (extract_lets +onlyGivenNames lv; (have hx : Keep ps e lv := ?_); (on_goal 1 => clear_value lv); on_goal 2 => subst lv)
    | (extract_lets +onlyGivenNames lv; clear_value lv)
    | extract_lets +onlyGivenNames lv
    | with_reducible refine Keep.ite ?_ ?_
    | split

theorem Dev.lanesStart_keep {ps : List Part} {e d : Dev} (h : Keep ps e d) (hout : .out ∈ ps) (hevents : .events ∈ ps) (hlink : .link ∈ ps) (a1) : Keep ps e (Dev.lanesStart d a1) := by
  unfold Dev.lanesStart
  repeat' first
    | with_reducible assumption
    | with_reducible refine Dev.each_keep ?_ (fun x y hx => ?_)
    | with_reducible refine Dev.laneStart_keep ?_ ‹_› ‹_› ‹_› _
    | (extract_lets +onlyGivenNames lv; (have hx : Keep ps e lv := ?_); (on_goal 1 => clear_value lv); on_goal 2 => subst lv)
    | (extract_lets +onlyGivenNames lv; clear_value lv)
    | extract_lets +onlyGivenNames lv
    | with_reducible refine Keep.ite ?_ ?_
    | split

theorem Dev.loadTiming_keep {ps : List Part} {e d : Dev} (h : Keep ps e d) (hfree : .free ∈ ps) (htime : .time ∈ ps) (a1) : Keep ps e (Dev.loadTiming d a1) := by
  unfold Dev.loadTiming
  repeat' first
    | with_reducible assumption
    | with_reducible refine Dev.each_keep ?_ (fun x y hx => ?_)
    | with_reducible refine Dev.modTime_keep ?_ ‹_› _
    | with_reducible refine Dev.take_keep ?_ ‹_› _
    | (extract_lets +onlyGivenNames lv; (have hx : Keep ps e lv := ?_); (on_goal 1 => clear_value lv); on_goal 2 => subst lv)
    | (extract_lets +onlyGivenNames lv; clear_value lv)
    | extract_lets +onlyGivenNames lv
    | with_reducible refine Keep.ite ?_ ?_
    | split

theorem Dev.writeEthReg_keep {ps : List Part} {e d : Dev} (h : Keep ps e d) (hfree : .free ∈ ps) (hevents : .events ∈ ps) (hmedia : .media ∈ ps) (htime : .time ∈ ps) (a1 a2) : Keep ps e (Dev.writeEthReg d a1 a2) := by
  unfold Dev.writeEthReg
  repeat' first
    | with_reducible assumption
    | with_reducible refine Dev.each_keep ?_ (fun x y hx => ?_)
    | with_reducible refine Dev.loadTiming_keep ?_ ‹_› ‹_› _
    | with_reducible refine Dev.raise_keep ?_ ‹_› _ _
    | with_reducible refine Dev.setEth_keep ?_ ‹_› _ _
    | (extract_lets +onlyGivenNames lv; (have hx : Keep ps e lv := ?_); (on_goal 1 => clear_value lv); on_goal 2 => subst lv)
    | (extract_lets +onlyGivenNames lv; clear_value lv)
    | extract_lets +onlyGivenNames lv
    | with_reducible refine Keep.ite ?_ ?_
    | split

theorem Dev.writeEthPort_keep {ps : List Part} {e d : Dev} (h : Keep ps e d) (hfree : .free ∈ ps) (hout : .out ∈ ps) (hevents : .events ∈ ps) (hmedia : .media ∈ ps) (htime : .time ∈ ps) (hlink : .link ∈ ps) (a1 a2) : Keep ps e (Dev.writeEthPort d a1 a2) := by
  unfold Dev.writeEthPort
  repeat' first
    | with_reducible assumption
    | with_reducible refine Dev.lanesStart_keep ?_ ‹_› ‹_› ‹_› _
    | with_reducible refine Dev.writeEthReg_keep ?_ ‹_› ‹_› ‹_› ‹_› _ _
    | (extract_lets +onlyGivenNames lv; (have hx : Keep ps e lv := ?_); (on_goal 1 => clear_value lv); on_goal 2 => subst lv)
    | (extract_lets +onlyGivenNames lv; clear_value lv)
    | extract_lets +onlyGivenNames lv
    | with_reducible refine Keep.ite ?_ ?_
    | split

theorem Dev.writeFuseAck_keep {ps : List Part} {e d : Dev} (h : Keep ps e d) (hout : .out ∈ ps) (hevents : .events ∈ ps) (hrooms : .rooms ∈ ps) (hmedia : .media ∈ ps) (hlink : .link ∈ ps) (hfabric : .fabric ∈ ps) (hfuse : .fuse ∈ ps) (hstrong : .strong ∈ ps) (a1) : Keep ps e (Dev.writeFuseAck d a1) := by
  unfold Dev.writeFuseAck
  repeat' first
    | with_reducible assumption
    | with_reducible refine Dev.ack_keep ?_ ‹_› ‹_› ‹_› ‹_› ‹_› ‹_› ‹_› ‹_› _
    | (extract_lets +onlyGivenNames lv; (have hx : Keep ps e lv := ?_); (on_goal 1 => clear_value lv); on_goal 2 => subst lv)
    | (extract_lets +onlyGivenNames lv; clear_value lv)
    | extract_lets +onlyGivenNames lv
    | with_reducible refine Keep.ite ?_ ?_
    | split

theorem Dev.writeFuseCfg_keep {ps : List Part} {e d : Dev} (h : Keep ps e d) (hfuse : .fuse ∈ ps) (a1 a2) : Keep ps e (Dev.writeFuseCfg d a1 a2) := by
  unfold Dev.writeFuseCfg
  repeat' first
    | with_reducible assumption
    | with_reducible refine Dev.modSrc_keep ?_ ‹_› _ _
    | (extract_lets +onlyGivenNames lv; (have hx : Keep ps e lv := ?_); (on_goal 1 => clear_value lv); on_goal 2 => subst lv)
    | (extract_lets +onlyGivenNames lv; clear_value lv)
    | extract_lets +onlyGivenNames lv
    | with_reducible refine Keep.ite ?_ ?_
    | split

theorem Dev.writeFuseReg_keep {ps : List Part} {e d : Dev} (h : Keep ps e d) (hout : .out ∈ ps) (hevents : .events ∈ ps) (hrooms : .rooms ∈ ps) (hmedia : .media ∈ ps) (hlink : .link ∈ ps) (hfabric : .fabric ∈ ps) (hfuse : .fuse ∈ ps) (hstrong : .strong ∈ ps) (a1 a2) : Keep ps e (Dev.writeFuseReg d a1 a2) := by
  unfold Dev.writeFuseReg
  repeat' first
    | with_reducible assumption
    | with_reducible refine Dev.modFuse_keep ?_ ‹_› _
    | with_reducible refine Dev.modSrc_keep ?_ ‹_› _ _
    | with_reducible refine Dev.reforce_keep ?_ ‹_› ‹_›
    | with_reducible refine Dev.writeFuseAck_keep ?_ ‹_› ‹_› ‹_› ‹_› ‹_› ‹_› ‹_› ‹_› _
    | with_reducible refine Dev.writeFuseCfg_keep ?_ ‹_› _ _
    | (extract_lets +onlyGivenNames lv; (have hx : Keep ps e lv := ?_); (on_goal 1 => clear_value lv); on_goal 2 => subst lv)
    | (extract_lets +onlyGivenNames lv; clear_value lv)
    | extract_lets +onlyGivenNames lv
    | with_reducible refine Keep.ite ?_ ?_
    | split

theorem Dev.writeEye_keep {ps : List Part} {e d : Dev} (h : Keep ps e d) (hlink : .link ∈ ps) (a1 a2) : Keep ps e (Dev.writeEye d a1 a2) := by
  unfold Dev.writeEye
  repeat' first
    | with_reducible assumption
    | with_reducible refine Dev.modLane_keep ?_ ‹_› _ _
    | (extract_lets +onlyGivenNames lv; (have hx : Keep ps e lv := ?_); (on_goal 1 => clear_value lv); on_goal 2 => subst lv)
    | (extract_lets +onlyGivenNames lv; clear_value lv)
    | extract_lets +onlyGivenNames lv
    | with_reducible refine Keep.ite ?_ ?_
    | split

theorem Dev.writeLaneReg_keep {ps : List Part} {e d : Dev} (h : Keep ps e d) (hout : .out ∈ ps) (hevents : .events ∈ ps) (hlink : .link ∈ ps) (a1 a2 a3) : Keep ps e (Dev.writeLaneReg d a1 a2 a3) := by
  unfold Dev.writeLaneReg
  repeat' first
    | with_reducible assumption
    | with_reducible refine Dev.laneTx_keep ?_ ‹_› ‹_› _
    | with_reducible refine Dev.lanesStart_keep ?_ ‹_› ‹_› ‹_› _
    | with_reducible refine Dev.modLane_keep ?_ ‹_› _ _
    | with_reducible refine Dev.modLink_keep ?_ ‹_› _
    | with_reducible refine Dev.writeEye_keep ?_ ‹_› _ _
    | (extract_lets +onlyGivenNames lv; (have hx : Keep ps e lv := ?_); (on_goal 1 => clear_value lv); on_goal 2 => subst lv)
    | (extract_lets +onlyGivenNames lv; clear_value lv)
    | extract_lets +onlyGivenNames lv
    | with_reducible refine Keep.ite ?_ ?_
    | split

theorem Dev.writeBdCfg_keep {ps : List Part} {e d : Dev} (h : Keep ps e d) (hout : .out ∈ ps) (hevents : .events ∈ ps) (hlink : .link ∈ ps) (a1 a2) : Keep ps e (Dev.writeBdCfg d a1 a2) := by
  unfold Dev.writeBdCfg
  repeat' first
    | with_reducible assumption
    | with_reducible refine Dev.bdPhase_keep ?_ ‹_› ‹_› _ _
    | with_reducible refine Dev.bundleDown_keep ?_ ‹_› ‹_› _
    | with_reducible refine Dev.bundleUp_keep ?_ ‹_› ‹_› _
    | with_reducible refine Dev.lanesStart_keep ?_ ‹_› ‹_› ‹_› _
    | with_reducible refine Dev.modBd_keep ?_ ‹_› _ _
    | with_reducible refine Dev.setBd_keep ?_ ‹_› _ _
    | (extract_lets +onlyGivenNames lv; (have hx : Keep ps e lv := ?_); (on_goal 1 => clear_value lv); on_goal 2 => subst lv)
    | (extract_lets +onlyGivenNames lv; clear_value lv)
    | extract_lets +onlyGivenNames lv
    | with_reducible refine Keep.ite ?_ ?_
    | split

theorem Dev.writeLinkCfg_keep {ps : List Part} {e d : Dev} (h : Keep ps e d) (hevents : .events ∈ ps) (hlink : .link ∈ ps) (a1) : Keep ps e (Dev.writeLinkCfg d a1) := by
  unfold Dev.writeLinkCfg
  repeat' first
    | with_reducible assumption
    | with_reducible refine Dev.bdPhase_keep ?_ ‹_› ‹_› _ _
    | with_reducible refine Dev.bundleDown_keep ?_ ‹_› ‹_› _
    | with_reducible refine Dev.bundleUp_keep ?_ ‹_› ‹_› _
    | with_reducible refine Dev.each_keep ?_ (fun x y hx => ?_)
    | with_reducible refine Dev.modLink_keep ?_ ‹_› _
    | (extract_lets +onlyGivenNames lv; (have hx : Keep ps e lv := ?_); (on_goal 1 => clear_value lv); on_goal 2 => subst lv)
    | (extract_lets +onlyGivenNames lv; clear_value lv)
    | extract_lets +onlyGivenNames lv
    | with_reducible refine Keep.ite ?_ ?_
    | split

theorem Dev.writeLinkReg_keep {ps : List Part} {e d : Dev} (h : Keep ps e d) (hout : .out ∈ ps) (hevents : .events ∈ ps) (hlink : .link ∈ ps) (a1 a2) : Keep ps e (Dev.writeLinkReg d a1 a2) := by
  unfold Dev.writeLinkReg
  repeat' first
    | with_reducible assumption
    | with_reducible refine Dev.modBd_keep ?_ ‹_› _ _
    | with_reducible refine Dev.modLink_keep ?_ ‹_› _
    | with_reducible refine Dev.writeBdCfg_keep ?_ ‹_› ‹_› ‹_› _ _
    | with_reducible refine Dev.writeLinkCfg_keep ?_ ‹_› ‹_› _
    | (extract_lets +onlyGivenNames lv; (have hx : Keep ps e lv := ?_); (on_goal 1 => clear_value lv); on_goal 2 => subst lv)
    | (extract_lets +onlyGivenNames lv; clear_value lv)
    | extract_lets +onlyGivenNames lv
    | with_reducible refine Keep.ite ?_ ?_
    | split

theorem Dev.modEgr_keep {ps : List Part} {e d : Dev} (h : Keep ps e d) (hmedia : .media ∈ ps) (a1 a2) : Keep ps e (Dev.modEgr d a1 a2) := by
  unfold Dev.modEgr
  repeat' first
    | with_reducible assumption
    | with_reducible refine Dev.setEgr_keep ?_ ‹_› _ _
    | (extract_lets +onlyGivenNames lv; (have hx : Keep ps e lv := ?_); (on_goal 1 => clear_value lv); on_goal 2 => subst lv)
    | (extract_lets +onlyGivenNames lv; clear_value lv)
    | extract_lets +onlyGivenNames lv
    | with_reducible refine Keep.ite ?_ ?_
    | split

theorem Dev.setSdi_keep {ps : List Part} {e d : Dev} (h : Keep ps e d) (hmedia : .media ∈ ps) (a1 a2) : Keep ps e (Dev.setSdi d a1 a2) := by
  unfold Dev.setSdi
  repeat' first
    | with_reducible assumption
    | with_reducible refine Dev.modMedia_keep ?_ ‹_› _
    | (extract_lets +onlyGivenNames lv; (have hx : Keep ps e lv := ?_); (on_goal 1 => clear_value lv); on_goal 2 => subst lv)
    | (extract_lets +onlyGivenNames lv; clear_value lv)
    | extract_lets +onlyGivenNames lv
    | with_reducible refine Keep.ite ?_ ?_
    | split

theorem Dev.writeSdiReg_keep {ps : List Part} {e d : Dev} (h : Keep ps e d) (hevents : .events ∈ ps) (hmedia : .media ∈ ps) (a1 a2) : Keep ps e (Dev.writeSdiReg d a1 a2) := by
  unfold Dev.writeSdiReg
  repeat' first
    | with_reducible assumption
    | with_reducible refine Dev.modEgr_keep ?_ ‹_› _ _
    | with_reducible refine Dev.raise_keep ?_ ‹_› _ _
    | with_reducible refine Dev.setSdi_keep ?_ ‹_› _ _
    | (extract_lets +onlyGivenNames lv; (have hx : Keep ps e lv := ?_); (on_goal 1 => clear_value lv); on_goal 2 => subst lv)
    | (extract_lets +onlyGivenNames lv; clear_value lv)
    | extract_lets +onlyGivenNames lv
    | with_reducible refine Keep.ite ?_ ?_
    | split

theorem Dev.writeSdiEngine_keep {ps : List Part} {e d : Dev} (h : Keep ps e d) (hout : .out ∈ ps) (hevents : .events ∈ ps) (hmedia : .media ∈ ps) (hlink : .link ∈ ps) (a1 a2) : Keep ps e (Dev.writeSdiEngine d a1 a2) := by
  unfold Dev.writeSdiEngine
  repeat' first
    | with_reducible assumption
    | with_reducible refine Dev.lanesStart_keep ?_ ‹_› ‹_› ‹_› _
    | with_reducible refine Dev.writeSdiReg_keep ?_ ‹_› ‹_› _ _
    | (extract_lets +onlyGivenNames lv; (have hx : Keep ps e lv := ?_); (on_goal 1 => clear_value lv); on_goal 2 => subst lv)
    | (extract_lets +onlyGivenNames lv; clear_value lv)
    | extract_lets +onlyGivenNames lv
    | with_reducible refine Keep.ite ?_ ?_
    | split

theorem Dev.recordWrite_keep {ps : List Part} {e d : Dev} (h : Keep ps e d) (hfree : .free ∈ ps) (hout : .out ∈ ps) (hevents : .events ∈ ps) (hrooms : .rooms ∈ ps) (hmedia : .media ∈ ps) (htime : .time ∈ ps) (hlink : .link ∈ ps) (hfabric : .fabric ∈ ps) (hfuse : .fuse ∈ ps) (hstrong : .strong ∈ ps) (a1) : Keep ps e (Dev.recordWrite d a1) := by
  unfold Dev.recordWrite
  repeat' first
    | with_reducible assumption
    | with_reducible refine Dev.writeEthPort_keep ?_ ‹_› ‹_› ‹_› ‹_› ‹_› ‹_› _ _
    | with_reducible refine Dev.writeFuseReg_keep ?_ ‹_› ‹_› ‹_› ‹_› ‹_› ‹_› ‹_› ‹_› _ _
    | with_reducible refine Dev.writeLaneReg_keep ?_ ‹_› ‹_› ‹_› _ _ _
    | with_reducible refine Dev.writeLinkReg_keep ?_ ‹_› ‹_› ‹_› _ _
    | with_reducible refine Dev.writeSdiEngine_keep ?_ ‹_› ‹_› ‹_› ‹_› _ _
    | (extract_lets +onlyGivenNames lv; (have hx : Keep ps e lv := ?_); (on_goal 1 => clear_value lv); on_goal 2 => subst lv)
    | (extract_lets +onlyGivenNames lv; clear_value lv)
    | extract_lets +onlyGivenNames lv
    | with_reducible refine Keep.ite ?_ ?_
    | split

theorem Dev.applyRecord_keep {ps : List Part} {e d : Dev} (h : Keep ps e d) (hfree : .free ∈ ps) (hout : .out ∈ ps) (hevents : .events ∈ ps) (hrooms : .rooms ∈ ps) (hmedia : .media ∈ ps) (htime : .time ∈ ps) (hlink : .link ∈ ps) (hfabric : .fabric ∈ ps) (hfuse : .fuse ∈ ps) (hstrong : .strong ∈ ps) (a1) : Keep ps e (Dev.applyRecord d a1) := by
  unfold Dev.applyRecord
  repeat' first
    | with_reducible assumption
    | with_reducible refine Dev.each_keep ?_ (fun x y hx => ?_)
    | with_reducible refine Dev.recordWrite_keep ?_ ‹_› ‹_› ‹_› ‹_› ‹_› ‹_› ‹_› ‹_› ‹_› ‹_› _
    | (extract_lets +onlyGivenNames lv; (have hx : Keep ps e lv := ?_); (on_goal 1 => clear_value lv); on_goal 2 => subst lv)
    | (extract_lets +onlyGivenNames lv; clear_value lv)
    | extract_lets +onlyGivenNames lv
    | with_reducible refine Keep.ite ?_ ?_
    | split

theorem Dev.askDisarm_keep {ps : List Part} {e d : Dev} (h : Keep ps e d) (hacq : .acq ∈ ps) (hhub : .hub ∈ ps) (a0) : Keep ps e (Dev.askDisarm a0 d) := by
  unfold Dev.askDisarm
  repeat' first
    | with_reducible assumption
    | with_reducible refine Dev.acqDisarm_keep ?_ ‹_› _
    | with_reducible refine Dev.ignore_keep ?_ ‹_› _
    | (extract_lets +onlyGivenNames lv; (have hx : Keep ps e lv := ?_); (on_goal 1 => clear_value lv); on_goal 2 => subst lv)
    | (extract_lets +onlyGivenNames lv; clear_value lv)
    | extract_lets +onlyGivenNames lv
    | with_reducible refine Keep.ite ?_ ?_
    | split

theorem Dev.putPower_keep {ps : List Part} {e d : Dev} (h : Keep ps e d) (hpower : .power ∈ ps) (a1) : Keep ps e (Dev.putPower d a1) := by
  unfold Dev.putPower
  exact Keep.upd_power h ‹_›

theorem Dev.putStrong_keep {ps : List Part} {e d : Dev} (h : Keep ps e d) (hstrong : .strong ∈ ps) (x : Strong)
    (hs : StrongKept d.strong x) : Keep ps e (d.putStrong x) := Keep.upd_strong h hstrong hs

theorem Dev.debugEnd_keep {ps : List Part} {e d : Dev} (h : Keep ps e d) (hevents : .events ∈ ps) (hstrong : .strong ∈ ps) : Keep ps e (Dev.debugEnd d) := by
  unfold Dev.debugEnd
  repeat' first
    | with_reducible assumption
    | with_reducible exact StrongKept.same rfl rfl rfl rfl rfl rfl rfl rfl rfl
    | exact StrongKept.of (fun h => ⟨h.1, h.2.1, Memory.wf_writeN _ _ _ rfl⟩) rfl rfl rfl rfl rfl rfl
    | exact StrongKept.of (fun h => ⟨h.1, Memory.wf_writeN _ _ _ h.2.1, h.2.2⟩) rfl rfl rfl rfl rfl rfl
    | with_reducible refine Dev.putStrong_keep ?_ ‹_› _ ?_
    | with_reducible refine Dev.raise_keep ?_ ‹_› _ _
    | (extract_lets +onlyGivenNames lv; (have hx : Keep ps e lv := ?_); (on_goal 1 => clear_value lv); on_goal 2 => subst lv)
    | (extract_lets +onlyGivenNames lv; (have hfn : ∀ y, Keep ps e y → Keep ps e (lv y) := ?_); (on_goal 1 => clear_value lv); on_goal 2 => (intro y hy; subst lv; beta_reduce))
    | (extract_lets +onlyGivenNames lv; (have hfn : ∀ y z, Keep ps e y → Keep ps e (lv y z) := ?_); (on_goal 1 => clear_value lv); on_goal 2 => (intro y z hy; subst lv; beta_reduce))
    | (extract_lets +onlyGivenNames lv; (have hfn : ∀ y, Keep ps e (Prod.fst y) → Keep ps e (lv y) := ?_); (on_goal 1 => clear_value lv); on_goal 2 => (intro y hy; subst lv; beta_reduce))
    | (extract_lets +onlyGivenNames lv; (have hfn : ∀ y, Keep ps e (lv y) := ?_); (on_goal 1 => clear_value lv); on_goal 2 => (intro y; subst lv; beta_reduce))
    | (extract_lets +onlyGivenNames lv; (have _ty : Ring := lv); subst lv; clear _ty)
    | (extract_lets +onlyGivenNames lv; (have _ty : Rings := lv); subst lv; clear _ty)
    | (extract_lets +onlyGivenNames lv; (have _ty : Strong := lv); subst lv; clear _ty)
    | (extract_lets +onlyGivenNames lv; (have _ty : RetEntry → RetEntry := lv); subst lv; clear _ty)
    | (extract_lets +onlyGivenNames lv; clear_value lv)
    | extract_lets +onlyGivenNames lv
    | with_reducible exact hfn _
    | with_reducible exact hfn _ _
    | with_reducible refine hfn _ ?_
    | with_reducible refine hfn _ _ ?_
    | with_reducible refine hfn _ _ _ ?_
    | with_reducible refine Keep.ite ?_ ?_
    | split

theorem Dev.writeBack_keep {ps : List Part} {e d : Dev} (h : Keep ps e d) (hfree : .free ∈ ps) (hevents : .events ∈ ps) (hcellar : .cellar ∈ ps) (a0) : Keep ps e (Dev.writeBack a0 d) := by
  unfold Dev.writeBack
  repeat' first
    | with_reducible assumption
    | (intro c hc; with_reducible exact hc)
    | (intro c hc; with_reducible exact Cellar.seal_wf hc _ _ _ _)
    | (intro c hc; with_reducible exact Cellar.mergeRaw_wf hc _ _ _)
    | (intro c hc; (try dsimp only [Cellar.count, Cellar.setRegion, Cellar.setKey, Cellar.loadKey, Cellar.decideWb]); with_reducible exact hc)
    | (intro c hc; (try dsimp only [Cellar.count, Cellar.setRegion, Cellar.setKey, Cellar.loadKey, Cellar.decideWb]); with_reducible exact Cellar.seal_wf hc _ _ _ _)
    | (intro c hc; (try dsimp only [Cellar.count, Cellar.setRegion, Cellar.setKey, Cellar.loadKey, Cellar.decideWb]); with_reducible exact Cellar.mergeRaw_wf hc _ _ _)
    | (intro c hc; (try dsimp only [Cellar.count, Cellar.setRegion, Cellar.setKey, Cellar.loadKey, Cellar.decideWb]); with_reducible exact Cellar.putMeta_wf hc _ _)
    | (intro c hc; (try dsimp only [Cellar.count, Cellar.setRegion, Cellar.setKey, Cellar.loadKey, Cellar.decideWb]); with_reducible exact Cellar.putRaw_wf hc _ _)
    | (intro c hc; (try dsimp only [Cellar.count, Cellar.setRegion, Cellar.setKey, Cellar.loadKey, Cellar.decideWb]); with_reducible exact Memory.wf_write _ _ _ hc)
    | (intro c hc; (try dsimp only [Cellar.count, Cellar.setRegion, Cellar.setKey, Cellar.loadKey, Cellar.decideWb]); with_reducible exact Memory.wf_writeN _ _ _ hc)
    | (intro c hc; (try dsimp only [Cellar.count, Cellar.setRegion, Cellar.setKey, Cellar.loadKey, Cellar.decideWb]); with_reducible exact Memory.wf_clearRange _ _ _ hc)
    | (intro c hc; (try dsimp only [Cellar.count, Cellar.setRegion, Cellar.setKey, Cellar.loadKey, Cellar.decideWb]); with_reducible exact Memory.wf_spans _ _ hc)
    | (intro c hc; (repeat' split) <;> with_reducible exact hc)
    | (intro c hc; dsimp only; split <;> exact hc)
    | (intro c hc; exact hc)
    | with_reducible refine Dev.cellarRefuse_keep ?_ ‹_› ‹_›
    | with_reducible refine Dev.modCellar_keep ?_ ‹_› _ ?_
    | with_reducible refine Dev.raise_keep ?_ ‹_› _ _
    | with_reducible refine Dev.storeLine_keep ?_ ‹_› ‹_› ‹_› _ _ _ _ _ _ _
    | with_reducible refine Keep.fst2 ‹_› ?_
    | with_reducible refine Keep.fst ‹_› ?_
    | (extract_lets +onlyGivenNames lv; (have hx : Keep ps e lv := ?_); (on_goal 1 => clear_value lv); on_goal 2 => subst lv)
    | (extract_lets +onlyGivenNames lv; clear_value lv)
    | extract_lets +onlyGivenNames lv
    | with_reducible refine Keep.ite ?_ ?_
    | with_reducible refine Keep.iteFst ?_ ?_
    | split

theorem Dev.drainWb_keep {ps : List Part} {e d : Dev} (h : Keep ps e d) (hfree : .free ∈ ps) (hevents : .events ∈ ps) (hcellar : .cellar ∈ ps) (a0) : Keep ps e (Dev.drainWb a0 d) := by
  induction a0 generalizing d  with
  | zero =>
    unfold Dev.drainWb
    repeat' first
      | with_reducible assumption
      | (intro c hc; with_reducible exact hc)
      | (intro c hc; with_reducible exact Cellar.seal_wf hc _ _ _ _)
      | (intro c hc; with_reducible exact Cellar.mergeRaw_wf hc _ _ _)
      | (intro c hc; (try dsimp only [Cellar.count, Cellar.setRegion, Cellar.setKey, Cellar.loadKey, Cellar.decideWb]); with_reducible exact hc)
      | (intro c hc; (try dsimp only [Cellar.count, Cellar.setRegion, Cellar.setKey, Cellar.loadKey, Cellar.decideWb]); with_reducible exact Cellar.seal_wf hc _ _ _ _)
      | (intro c hc; (try dsimp only [Cellar.count, Cellar.setRegion, Cellar.setKey, Cellar.loadKey, Cellar.decideWb]); with_reducible exact Cellar.mergeRaw_wf hc _ _ _)
      | (intro c hc; (try dsimp only [Cellar.count, Cellar.setRegion, Cellar.setKey, Cellar.loadKey, Cellar.decideWb]); with_reducible exact Cellar.putMeta_wf hc _ _)
      | (intro c hc; (try dsimp only [Cellar.count, Cellar.setRegion, Cellar.setKey, Cellar.loadKey, Cellar.decideWb]); with_reducible exact Cellar.putRaw_wf hc _ _)
      | (intro c hc; (try dsimp only [Cellar.count, Cellar.setRegion, Cellar.setKey, Cellar.loadKey, Cellar.decideWb]); with_reducible exact Memory.wf_write _ _ _ hc)
      | (intro c hc; (try dsimp only [Cellar.count, Cellar.setRegion, Cellar.setKey, Cellar.loadKey, Cellar.decideWb]); with_reducible exact Memory.wf_writeN _ _ _ hc)
      | (intro c hc; (try dsimp only [Cellar.count, Cellar.setRegion, Cellar.setKey, Cellar.loadKey, Cellar.decideWb]); with_reducible exact Memory.wf_clearRange _ _ _ hc)
      | (intro c hc; (try dsimp only [Cellar.count, Cellar.setRegion, Cellar.setKey, Cellar.loadKey, Cellar.decideWb]); with_reducible exact Memory.wf_spans _ _ hc)
      | (intro c hc; (repeat' split) <;> with_reducible exact hc)
      | (intro c hc; dsimp only; split <;> exact hc)
      | (intro c hc; exact hc)
      | with_reducible refine Dev.modCellar_keep ?_ ‹_› _ ?_
      | with_reducible refine Dev.writeBack_keep ?_ ‹_› ‹_› ‹_› _
      | (extract_lets +onlyGivenNames lv; (have hx : Keep ps e lv := ?_); (on_goal 1 => clear_value lv); on_goal 2 => subst lv)
      | (extract_lets +onlyGivenNames lv; clear_value lv)
      | extract_lets +onlyGivenNames lv
      | with_reducible refine Keep.ite ?_ ?_
      | split
  | succ n ih =>
    unfold Dev.drainWb
    repeat' first
      | with_reducible assumption
      | with_reducible apply ih
      | (intro c hc; with_reducible exact hc)
      | (intro c hc; with_reducible exact Cellar.seal_wf hc _ _ _ _)
      | (intro c hc; with_reducible exact Cellar.mergeRaw_wf hc _ _ _)
      | (intro c hc; (try dsimp only [Cellar.count, Cellar.setRegion, Cellar.setKey, Cellar.loadKey, Cellar.decideWb]); with_reducible exact hc)
      | (intro c hc; (try dsimp only [Cellar.count, Cellar.setRegion, Cellar.setKey, Cellar.loadKey, Cellar.decideWb]); with_reducible exact Cellar.seal_wf hc _ _ _ _)
      | (intro c hc; (try dsimp only [Cellar.count, Cellar.setRegion, Cellar.setKey, Cellar.loadKey, Cellar.decideWb]); with_reducible exact Cellar.mergeRaw_wf hc _ _ _)
      | (intro c hc; (try dsimp only [Cellar.count, Cellar.setRegion, Cellar.setKey, Cellar.loadKey, Cellar.decideWb]); with_reducible exact Cellar.putMeta_wf hc _ _)
      | (intro c hc; (try dsimp only [Cellar.count, Cellar.setRegion, Cellar.setKey, Cellar.loadKey, Cellar.decideWb]); with_reducible exact Cellar.putRaw_wf hc _ _)
      | (intro c hc; (try dsimp only [Cellar.count, Cellar.setRegion, Cellar.setKey, Cellar.loadKey, Cellar.decideWb]); with_reducible exact Memory.wf_write _ _ _ hc)
      | (intro c hc; (try dsimp only [Cellar.count, Cellar.setRegion, Cellar.setKey, Cellar.loadKey, Cellar.decideWb]); with_reducible exact Memory.wf_writeN _ _ _ hc)
      | (intro c hc; (try dsimp only [Cellar.count, Cellar.setRegion, Cellar.setKey, Cellar.loadKey, Cellar.decideWb]); with_reducible exact Memory.wf_clearRange _ _ _ hc)
      | (intro c hc; (try dsimp only [Cellar.count, Cellar.setRegion, Cellar.setKey, Cellar.loadKey, Cellar.decideWb]); with_reducible exact Memory.wf_spans _ _ hc)
      | (intro c hc; (repeat' split) <;> with_reducible exact hc)
      | (intro c hc; dsimp only; split <;> exact hc)
      | (intro c hc; exact hc)
      | with_reducible refine Dev.modCellar_keep ?_ ‹_› _ ?_
      | with_reducible refine Dev.writeBack_keep ?_ ‹_› ‹_› ‹_› _
      | (extract_lets +onlyGivenNames lv; (have hx : Keep ps e lv := ?_); (on_goal 1 => clear_value lv); on_goal 2 => subst lv)
      | (extract_lets +onlyGivenNames lv; clear_value lv)
      | extract_lets +onlyGivenNames lv
      | with_reducible refine Keep.ite ?_ ?_
      | split

theorem Dev.dropEvents_keep {ps : List Part} {e d : Dev} (h : Keep ps e d) (hevents : .events ∈ ps) : Keep ps e (Dev.dropEvents d) := by
  unfold Dev.dropEvents
  exact Keep.upd_events h ‹_›

theorem Dev.fuseWarm_keep {ps : List Part} {e d : Dev} (h : Keep ps e d) (hfuse : .fuse ∈ ps) : Keep ps e (Dev.fuseWarm d) := by
  unfold Dev.fuseWarm
  repeat' first
    | with_reducible assumption
    | with_reducible refine Dev.modFuse_keep ?_ ‹_› _
    | (extract_lets +onlyGivenNames lv; (have hx : Keep ps e lv := ?_); (on_goal 1 => clear_value lv); on_goal 2 => subst lv)
    | (extract_lets +onlyGivenNames lv; clear_value lv)
    | extract_lets +onlyGivenNames lv
    | with_reducible refine Keep.ite ?_ ?_
    | split

theorem Dev.restartAdmissions_keep {ps : List Part} {e d : Dev} (h : Keep ps e d) (hout : .out ∈ ps) (hevents : .events ∈ ps) (hrooms : .rooms ∈ ps) (hfuncs : .funcs ∈ ps) (hnet : .net ∈ ps) (hlink : .link ∈ ps) (hrings : .rings ∈ ps) (hfuse : .fuse ∈ ps) : Keep ps e (Dev.restartAdmissions d) := by
  unfold Dev.restartAdmissions
  repeat' first
    | with_reducible assumption
    | (intro y; with_reducible rfl)
    | (intro y; split <;> rfl)
    | with_reducible refine Dev.each_keep ?_ (fun x y hx => ?_)
    | with_reducible refine Dev.modEntry_keep ?_ ‹_› _ _ ?_
    | with_reducible refine Dev.undoAdmission_keep ?_ ‹_› ‹_› ‹_› ‹_› ‹_› ‹_› ‹_› _
    | (extract_lets +onlyGivenNames lv; (have hx : Keep ps e lv := ?_); (on_goal 1 => clear_value lv); on_goal 2 => subst lv)
    | (extract_lets +onlyGivenNames lv; clear_value lv)
    | extract_lets +onlyGivenNames lv
    | with_reducible refine Keep.ite ?_ ?_
    | split

theorem Dev.restartMigrations_keep {ps : List Part} {e d : Dev} (h : Keep ps e d) (hrooms : .rooms ∈ ps) (hfuncs : .funcs ∈ ps) (hnet : .net ∈ ps) (hrings : .rings ∈ ps) (hfuse : .fuse ∈ ps) : Keep ps e (Dev.restartMigrations d) := by
  unfold Dev.restartMigrations
  repeat' first
    | with_reducible assumption
    | (intro y; with_reducible rfl)
    | (intro y; split <;> rfl)
    | with_reducible refine Dev.clearRooms_keep ?_ ‹_› ‹_› _
    | with_reducible refine Dev.each_keep ?_ (fun x y hx => ?_)
    | with_reducible refine Dev.modEntry_keep ?_ ‹_› _ _ ?_
    | with_reducible refine Dev.modFunc_keep ?_ ‹_› _ _
    | with_reducible refine Dev.modNet_keep ?_ ‹_› _
    | (extract_lets +onlyGivenNames lv; (have hx : Keep ps e lv := ?_); (on_goal 1 => clear_value lv); on_goal 2 => subst lv)
    | (extract_lets +onlyGivenNames lv; clear_value lv)
    | extract_lets +onlyGivenNames lv
    | with_reducible refine Keep.ite ?_ ?_
    | split

theorem Dev.warmUnits_keep {ps : List Part} {e d : Dev} (h : Keep ps e d) (hnet : .net ∈ ps) (hcellar : .cellar ∈ ps) (hmedia : .media ∈ ps) (hlink : .link ∈ ps) (hfabric : .fabric ∈ ps) (hloader : .loader ∈ ps) (hrings : .rings ∈ ps) (hcores : .cores ∈ ps) (hsched : .sched ∈ ps) (hacq : .acq ∈ ps) (hhub : .hub ∈ ps) (hpower : .power ∈ ps) : Keep ps e (Dev.warmUnits d) :=
  Keep.upd_many12 h ‹_› ‹_› ‹_› ‹_› ‹_› ‹_› ‹_› ‹_› ‹_› ‹_› ‹_› ‹_› (fun x => x) (fun x => Rings.windowsOk_warm x)

theorem Dev.warmHalt_keep {ps : List Part} {e d : Dev} (h : Keep ps e d) (hfree : .free ∈ ps) (hout : .out ∈ ps) (hevents : .events ∈ ps) (hrooms : .rooms ∈ ps) (hfuncs : .funcs ∈ ps) (hnet : .net ∈ ps) (hcellar : .cellar ∈ ps) (hmedia : .media ∈ ps) (htime : .time ∈ ps) (hlink : .link ∈ ps) (hfabric : .fabric ∈ ps) (hloader : .loader ∈ ps) (hrings : .rings ∈ ps) (hcores : .cores ∈ ps) (hsched : .sched ∈ ps) (hacq : .acq ∈ ps) (hfuse : .fuse ∈ ps) (hstrong : .strong ∈ ps) (hhub : .hub ∈ ps) (hpower : .power ∈ ps) : Keep ps e (Dev.warmHalt d) := by
  unfold Dev.warmHalt
  repeat' first
    | with_reducible assumption
    | with_reducible refine Dev.debugEnd_keep ?_ ‹_› ‹_›
    | with_reducible refine Dev.drainWb_keep ?_ ‹_› ‹_› ‹_› _
    | with_reducible refine Dev.dropEvents_keep ?_ ‹_›
    | with_reducible refine Dev.each_keep ?_ (fun x y hx => ?_)
    | with_reducible refine Dev.fuseWarm_keep ?_ ‹_›
    | with_reducible refine Dev.holdover_keep ?_ ‹_› ‹_›
    | with_reducible refine Dev.modRoom_keep ?_ ‹_› _ _
    | with_reducible refine Dev.modTime_keep ?_ ‹_› _
    | with_reducible refine Dev.putFuncs_keep ?_ ‹_› _
    | with_reducible refine Dev.restartAdmissions_keep ?_ ‹_› ‹_› ‹_› ‹_› ‹_› ‹_› ‹_› ‹_›
    | with_reducible refine Dev.restartMigrations_keep ?_ ‹_› ‹_› ‹_› ‹_› ‹_›
    | with_reducible refine Dev.setServo_keep ?_ ‹_› ‹_› _
    | with_reducible refine Dev.syncSweeps_keep ?_ ‹_› ‹_›
    | with_reducible refine Dev.warmUnits_keep ?_ ‹_› ‹_› ‹_› ‹_› ‹_› ‹_› ‹_› ‹_› ‹_› ‹_› ‹_› ‹_›
    | (extract_lets +onlyGivenNames lv; (have hx : Keep ps e lv := ?_); (on_goal 1 => clear_value lv); on_goal 2 => subst lv)
    | (extract_lets +onlyGivenNames lv; clear_value lv)
    | extract_lets +onlyGivenNames lv
    | with_reducible refine Keep.ite ?_ ?_
    | split

theorem Dev.startWarm_keep {ps : List Part} {e d : Dev} (h : Keep ps e d) (hfree : .free ∈ ps) (hout : .out ∈ ps) (hevents : .events ∈ ps) (hrooms : .rooms ∈ ps) (hfuncs : .funcs ∈ ps) (hnet : .net ∈ ps) (hcellar : .cellar ∈ ps) (hmedia : .media ∈ ps) (htime : .time ∈ ps) (hlink : .link ∈ ps) (hfabric : .fabric ∈ ps) (hloader : .loader ∈ ps) (hrings : .rings ∈ ps) (hcores : .cores ∈ ps) (hsched : .sched ∈ ps) (hacq : .acq ∈ ps) (hfuse : .fuse ∈ ps) (hstrong : .strong ∈ ps) (hhub : .hub ∈ ps) (hpower : .power ∈ ps) : Keep ps e (Dev.startWarm d) := by
  unfold Dev.startWarm
  repeat' first
    | with_reducible assumption
    | (intro hx; exact (show Rings.windowsOk _ from hx))
    | with_reducible refine Dev.putPower_keep ?_ ‹_› _
    | with_reducible refine Dev.putRings_keep ?_ ‹_› _ ?_
    | with_reducible refine Dev.warmHalt_keep ?_ ‹_› ‹_› ‹_› ‹_› ‹_› ‹_› ‹_› ‹_› ‹_› ‹_› ‹_› ‹_› ‹_› ‹_› ‹_› ‹_› ‹_› ‹_› ‹_› ‹_›
    | (extract_lets +onlyGivenNames lv; (have hx : Keep ps e lv := ?_); (on_goal 1 => clear_value lv); on_goal 2 => subst lv)
    | (extract_lets +onlyGivenNames lv; (have hfn : ∀ y, Keep ps e y → Keep ps e (lv y) := ?_); (on_goal 1 => clear_value lv); on_goal 2 => (intro y hy; subst lv; beta_reduce))
    | (extract_lets +onlyGivenNames lv; (have hfn : ∀ y z, Keep ps e y → Keep ps e (lv y z) := ?_); (on_goal 1 => clear_value lv); on_goal 2 => (intro y z hy; subst lv; beta_reduce))
    | (extract_lets +onlyGivenNames lv; (have hfn : ∀ y, Keep ps e (Prod.fst y) → Keep ps e (lv y) := ?_); (on_goal 1 => clear_value lv); on_goal 2 => (intro y hy; subst lv; beta_reduce))
    | (extract_lets +onlyGivenNames lv; (have hfn : ∀ y, Keep ps e (lv y) := ?_); (on_goal 1 => clear_value lv); on_goal 2 => (intro y; subst lv; beta_reduce))
    | (extract_lets +onlyGivenNames lv; (have _ty : Ring := lv); subst lv; clear _ty)
    | (extract_lets +onlyGivenNames lv; (have _ty : Rings := lv); subst lv; clear _ty)
    | (extract_lets +onlyGivenNames lv; (have _ty : Strong := lv); subst lv; clear _ty)
    | (extract_lets +onlyGivenNames lv; (have _ty : RetEntry → RetEntry := lv); subst lv; clear _ty)
    | (extract_lets +onlyGivenNames lv; clear_value lv)
    | extract_lets +onlyGivenNames lv
    | with_reducible exact hfn _
    | with_reducible exact hfn _ _
    | with_reducible refine hfn _ ?_
    | with_reducible refine hfn _ _ ?_
    | with_reducible refine hfn _ _ _ ?_
    | with_reducible refine Keep.ite ?_ ?_
    | split

theorem Dev.askWarm_keep {ps : List Part} {e d : Dev} (h : Keep ps e d) (hfree : .free ∈ ps) (hout : .out ∈ ps) (hevents : .events ∈ ps) (hrooms : .rooms ∈ ps) (hfuncs : .funcs ∈ ps) (hnet : .net ∈ ps) (hcellar : .cellar ∈ ps) (hmedia : .media ∈ ps) (htime : .time ∈ ps) (hlink : .link ∈ ps) (hfabric : .fabric ∈ ps) (hloader : .loader ∈ ps) (hrings : .rings ∈ ps) (hcores : .cores ∈ ps) (hsched : .sched ∈ ps) (hacq : .acq ∈ ps) (hfuse : .fuse ∈ ps) (hstrong : .strong ∈ ps) (hhub : .hub ∈ ps) (hpower : .power ∈ ps) : Keep ps e (Dev.askWarm d) := by
  unfold Dev.askWarm
  repeat' first
    | with_reducible assumption
    | with_reducible refine Dev.putPower_keep ?_ ‹_› _
    | with_reducible refine Dev.startWarm_keep ?_ ‹_› ‹_› ‹_› ‹_› ‹_› ‹_› ‹_› ‹_› ‹_› ‹_› ‹_› ‹_› ‹_› ‹_› ‹_› ‹_› ‹_› ‹_› ‹_› ‹_›
    | (extract_lets +onlyGivenNames lv; (have hx : Keep ps e lv := ?_); (on_goal 1 => clear_value lv); on_goal 2 => subst lv)
    | (extract_lets +onlyGivenNames lv; clear_value lv)
    | extract_lets +onlyGivenNames lv
    | with_reducible refine Keep.ite ?_ ?_
    | split

theorem Dev.attReportReady_keep {ps : List Part} {e d : Dev} (h : Keep ps e d) (hfree : .free ∈ ps) (hevents : .events ∈ ps) (hstrong : .strong ∈ ps) : Keep ps e (Dev.attReportReady d) := by
  unfold Dev.attReportReady
  repeat' first
    | with_reducible assumption
    | with_reducible exact StrongKept.same rfl rfl rfl rfl rfl rfl rfl rfl rfl
    | exact StrongKept.of (fun h => ⟨h.1, h.2.1, Memory.wf_writeN _ _ _ rfl⟩) rfl rfl rfl rfl rfl rfl
    | exact StrongKept.of (fun h => ⟨h.1, Memory.wf_writeN _ _ _ h.2.1, h.2.2⟩) rfl rfl rfl rfl rfl rfl
    | with_reducible refine Dev.modStrong_keep ?_ ‹_› _ ?_
    | with_reducible refine Dev.raise_keep ?_ ‹_› _ _
    | with_reducible refine Dev.take_keep ?_ ‹_› _
    | (extract_lets +onlyGivenNames lv; (have hx : Keep ps e lv := ?_); (on_goal 1 => clear_value lv); on_goal 2 => subst lv)
    | (extract_lets +onlyGivenNames lv; clear_value lv)
    | extract_lets +onlyGivenNames lv
    | with_reducible refine Keep.ite ?_ ?_
    | split

theorem Dev.attSnapshot_keep {ps : List Part} {e d : Dev} (h : Keep ps e d) (hstrong : .strong ∈ ps) : Keep ps e (Dev.attSnapshot d) := by
  unfold Dev.attSnapshot
  repeat' first
    | with_reducible assumption
    | with_reducible exact StrongKept.same rfl rfl rfl rfl rfl rfl rfl rfl rfl
    | exact StrongKept.of (fun h => ⟨h.1, h.2.1, Memory.wf_writeN _ _ _ rfl⟩) rfl rfl rfl rfl rfl rfl
    | exact StrongKept.of (fun h => ⟨h.1, Memory.wf_writeN _ _ _ h.2.1, h.2.2⟩) rfl rfl rfl rfl rfl rfl
    | with_reducible refine Dev.modStrong_keep ?_ ‹_› _ ?_
    | (extract_lets +onlyGivenNames lv; (have hx : Keep ps e lv := ?_); (on_goal 1 => clear_value lv); on_goal 2 => subst lv)
    | (extract_lets +onlyGivenNames lv; clear_value lv)
    | extract_lets +onlyGivenNames lv
    | with_reducible refine Keep.ite ?_ ?_
    | split

theorem Dev.attach_keep {ps : List Part} {e d : Dev} (h : Keep ps e d) (hout : .out ∈ ps) (hevents : .events ∈ ps) (hlink : .link ∈ ps) (hrings : .rings ∈ ps) (hsched : .sched ∈ ps) (hhub : .hub ∈ ps) (a0 a1) : Keep ps e (Dev.attach a0 a1 d) := by
  unfold Dev.attach
  repeat' first
    | with_reducible assumption
    | (intro hr; with_reducible exact hr)
    | exact RingKept.dropped _ rfl
    | exact RingKept.mapped _ (fun y => by split <;> rfl) (Ring.reapply_window _)
    | exact RingKept.mapped _ (fun y => by split <;> rfl) rfl
    | (refine RingKept.mapped _ ?_ rfl; intro y; rfl)
    | (intro hr; rw [Dev.reach_ring] at hr; exact hr)
    | (intro hr; (try split) <;> exact hr)
    | (intro hr; dsimp only; split <;> exact hr)
    | with_reducible refine Dev.ignore_keep ?_ ‹_› _
    | with_reducible refine Dev.modRing_keep ?_ ‹_› _ _ ?_
    | with_reducible refine Dev.postRing_keep ?_ ‹_› ‹_› ‹_› ‹_› ‹_› _
    | with_reducible refine Dev.raise_keep ?_ ‹_› _ _
    | with_reducible refine Dev.reheld_keep ?_ ‹_› ‹_› _
    | (extract_lets +onlyGivenNames lv; (have hx : Keep ps e lv := ?_); (on_goal 1 => clear_value lv); on_goal 2 => subst lv)
    | (extract_lets +onlyGivenNames lv; clear_value lv)
    | extract_lets +onlyGivenNames lv
    | with_reducible refine Keep.ite ?_ ?_
    | split

theorem Dev.modPower_keep {ps : List Part} {e d : Dev} (h : Keep ps e d) (hpower : .power ∈ ps) (a1) : Keep ps e (Dev.modPower d a1) := by
  unfold Dev.modPower
  exact Keep.upd_power h ‹_›

theorem Dev.countPower_keep {ps : List Part} {e d : Dev} (h : Keep ps e d) (hpower : .power ∈ ps) (a1) : Keep ps e (Dev.countPower d a1) := by
  unfold Dev.countPower
  repeat' first
    | with_reducible assumption
    | with_reducible refine Dev.modPower_keep ?_ ‹_› _
    | (extract_lets +onlyGivenNames lv; (have hx : Keep ps e lv := ?_); (on_goal 1 => clear_value lv); on_goal 2 => subst lv)
    | (extract_lets +onlyGivenNames lv; clear_value lv)
    | extract_lets +onlyGivenNames lv
    | with_reducible refine Keep.ite ?_ ?_
    | split

theorem Dev.reach_keep {ps : List Part} {e d : Dev} (h : Keep ps e d) (hnow : .now ∈ ps) (a1) : Keep ps e (Dev.reach d a1) := by
  unfold Dev.reach
  repeat' first
    | with_reducible assumption
    | (extract_lets +onlyGivenNames lv; clear_value lv)
    | extract_lets +onlyGivenNames lv
    | with_reducible exact hfn _
    | with_reducible refine hfn _ ?_
    | with_reducible refine Keep.ite ?_ ?_
    | split
    | (intro x hx)
    | with_reducible refine Keep.upd_now ?_ ‹_›

theorem Dev.setAvs_keep {ps : List Part} {e d : Dev} (h : Keep ps e d) (hevents : .events ∈ ps) (hpower : .power ∈ ps) (a1 a2) : Keep ps e (Dev.setAvs d a1 a2) := by
  unfold Dev.setAvs
  repeat' first
    | with_reducible assumption
    | with_reducible refine Dev.modPower_keep ?_ ‹_› _
    | with_reducible refine Dev.raise_keep ?_ ‹_› _ _
    | (extract_lets +onlyGivenNames lv; (have hx : Keep ps e lv := ?_); (on_goal 1 => clear_value lv); on_goal 2 => subst lv)
    | (extract_lets +onlyGivenNames lv; clear_value lv)
    | extract_lets +onlyGivenNames lv
    | with_reducible refine Keep.ite ?_ ?_
    | split

theorem Dev.avsRetry_keep {ps : List Part} {e d : Dev} (h : Keep ps e d) (hnow : .now ∈ ps) (hevents : .events ∈ ps) (hpower : .power ∈ ps) (a0 a1) : Keep ps e (Dev.avsRetry a0 a1 d) := by
  unfold Dev.avsRetry
  repeat' first
    | with_reducible assumption
    | with_reducible refine Dev.countPower_keep ?_ ‹_› _
    | with_reducible refine Dev.modPower_keep ?_ ‹_› _
    | with_reducible refine Dev.reach_keep ?_ ‹_› _
    | with_reducible refine Dev.setAvs_keep ?_ ‹_› ‹_› _ _
    | (extract_lets +onlyGivenNames lv; (have hx : Keep ps e lv := ?_); (on_goal 1 => clear_value lv); on_goal 2 => subst lv)
    | (extract_lets +onlyGivenNames lv; clear_value lv)
    | extract_lets +onlyGivenNames lv
    | with_reducible refine Keep.ite ?_ ?_
    | split

theorem Dev.countFabric_keep {ps : List Part} {e d : Dev} (h : Keep ps e d) (hfabric : .fabric ∈ ps) (a1) : Keep ps e (Dev.countFabric d a1) := by
  unfold Dev.countFabric
  repeat' first
    | with_reducible assumption
    | with_reducible refine Dev.modFabric_keep ?_ ‹_› _
    | (extract_lets +onlyGivenNames lv; (have hx : Keep ps e lv := ?_); (on_goal 1 => clear_value lv); on_goal 2 => subst lv)
    | (extract_lets +onlyGivenNames lv; clear_value lv)
    | extract_lets +onlyGivenNames lv
    | with_reducible refine Keep.ite ?_ ?_
    | split

theorem Dev.countLoader_keep {ps : List Part} {e d : Dev} (h : Keep ps e d) (hloader : .loader ∈ ps) (a1) : Keep ps e (Dev.countLoader d a1) := by
  unfold Dev.countLoader
  repeat' first
    | with_reducible assumption
    | with_reducible refine Dev.modLoader_keep ?_ ‹_› _
    | (extract_lets +onlyGivenNames lv; (have hx : Keep ps e lv := ?_); (on_goal 1 => clear_value lv); on_goal 2 => subst lv)
    | (extract_lets +onlyGivenNames lv; clear_value lv)
    | extract_lets +onlyGivenNames lv
    | with_reducible refine Keep.ite ?_ ?_
    | split

theorem Dev.mendWord_keep {ps : List Part} {e d : Dev} (h : Keep ps e d) (hrooms : .rooms ∈ ps) (hnet : .net ∈ ps) (hfabric : .fabric ∈ ps) (a1 a2) : Keep ps e (Dev.mendWord d a1 a2) := by
  unfold Dev.mendWord
  repeat' first
    | with_reducible assumption
    | with_reducible refine Dev.modFabric_keep ?_ ‹_› _
    | with_reducible refine Dev.modRoom_keep ?_ ‹_› _ _
    | with_reducible refine Dev.putNet_keep ?_ ‹_› _
    | (extract_lets +onlyGivenNames lv; (have hx : Keep ps e lv := ?_); (on_goal 1 => clear_value lv); on_goal 2 => subst lv)
    | (extract_lets +onlyGivenNames lv; clear_value lv)
    | extract_lets +onlyGivenNames lv
    | with_reducible refine Keep.ite ?_ ?_
    | split

theorem Dev.raiseUnit_keep {ps : List Part} {e d : Dev} (h : Keep ps e d) (hevents : .events ∈ ps) (a1 a2) : Keep ps e (Dev.raiseUnit d a1 a2) := by
  unfold Dev.raiseUnit
  repeat' first
    | with_reducible assumption
    | with_reducible refine Dev.raise_keep ?_ ‹_› _ _
    | with_reducible refine Dev.raiseRoom_keep ?_ ‹_› _ _
    | (extract_lets +onlyGivenNames lv; (have hx : Keep ps e lv := ?_); (on_goal 1 => clear_value lv); on_goal 2 => subst lv)
    | (extract_lets +onlyGivenNames lv; clear_value lv)
    | extract_lets +onlyGivenNames lv
    | with_reducible refine Keep.ite ?_ ?_
    | split

theorem Dev.rewrite_keep {ps : List Part} {e d : Dev} (h : Keep ps e d) (hevents : .events ∈ ps) (hrooms : .rooms ∈ ps) (hnet : .net ∈ ps) (hfabric : .fabric ∈ ps) (hloader : .loader ∈ ps) (a1 a2) : Keep ps e (Dev.rewrite d a1 a2) := by
  unfold Dev.rewrite
  repeat' first
    | with_reducible assumption
    | with_reducible refine Dev.countFabric_keep ?_ ‹_› _
    | with_reducible refine Dev.countLoader_keep ?_ ‹_› _
    | with_reducible refine Dev.mendWord_keep ?_ ‹_› ‹_› ‹_› _ _
    | with_reducible refine Dev.raiseUnit_keep ?_ ‹_› _ _
    | (extract_lets +onlyGivenNames lv; (have hx : Keep ps e lv := ?_); (on_goal 1 => clear_value lv); on_goal 2 => subst lv)
    | (extract_lets +onlyGivenNames lv; clear_value lv)
    | extract_lets +onlyGivenNames lv
    | with_reducible refine Keep.ite ?_ ?_
    | split

theorem Dev.backgroundReadback_keep {ps : List Part} {e d : Dev} (h : Keep ps e d) (hevents : .events ∈ ps) (hrooms : .rooms ∈ ps) (hnet : .net ∈ ps) (hfabric : .fabric ∈ ps) (hloader : .loader ∈ ps) (a0 a1) : Keep ps e (Dev.backgroundReadback a0 a1 d) := by
  unfold Dev.backgroundReadback
  repeat' first
    | with_reducible assumption
    | with_reducible refine Dev.countFabric_keep ?_ ‹_› _
    | with_reducible refine Dev.countLoader_keep ?_ ‹_› _
    | with_reducible refine Dev.each_keep ?_ (fun x y hx => ?_)
    | with_reducible refine Dev.mendWord_keep ?_ ‹_› ‹_› ‹_› _ _
    | with_reducible refine Dev.modLoader_keep ?_ ‹_› _
    | with_reducible refine Dev.raiseUnit_keep ?_ ‹_› _ _
    | with_reducible refine Dev.rewrite_keep ?_ ‹_› ‹_› ‹_› ‹_› ‹_› _ _
    | (extract_lets +onlyGivenNames lv; (have hx : Keep ps e lv := ?_); (on_goal 1 => clear_value lv); on_goal 2 => subst lv)
    | (extract_lets +onlyGivenNames lv; clear_value lv)
    | extract_lets +onlyGivenNames lv
    | with_reducible refine Keep.ite ?_ ?_
    | split

theorem Dev.barRead_keep {ps : List Part} {e d : Dev} (h : Keep ps e d) (hfree : .free ∈ ps) (hout : .out ∈ ps) (hevents : .events ∈ ps) (hcellar : .cellar ∈ ps) (a1 a2) : Keep ps e (Dev.barRead d a1 a2) := by
  unfold Dev.barRead
  repeat' first
    | with_reducible assumption
    | with_reducible refine Dev.emit_keep ?_ ‹_› _
    | with_reducible refine Dev.rawEcc_keep ?_ ‹_› ‹_› _ _
    | with_reducible refine Dev.take_keep ?_ ‹_› _
    | (extract_lets +onlyGivenNames lv; (have hx : Keep ps e lv := ?_); (on_goal 1 => clear_value lv); on_goal 2 => subst lv)
    | (extract_lets +onlyGivenNames lv; clear_value lv)
    | extract_lets +onlyGivenNames lv
    | with_reducible refine Keep.ite ?_ ?_
    | split

theorem Dev.barWrite_keep {ps : List Part} {e d : Dev} (h : Keep ps e d) (hevents : .events ∈ ps) (hcellar : .cellar ∈ ps) (a1 a2 a3) : Keep ps e (Dev.barWrite d a1 a2 a3) := by
  unfold Dev.barWrite
  repeat' first
    | with_reducible assumption
    | (intro c hc; with_reducible exact hc)
    | (intro c hc; with_reducible exact Cellar.seal_wf hc _ _ _ _)
    | (intro c hc; with_reducible exact Cellar.mergeRaw_wf hc _ _ _)
    | (intro c hc; (try dsimp only [Cellar.count, Cellar.setRegion, Cellar.setKey, Cellar.loadKey, Cellar.decideWb]); with_reducible exact hc)
    | (intro c hc; (try dsimp only [Cellar.count, Cellar.setRegion, Cellar.setKey, Cellar.loadKey, Cellar.decideWb]); with_reducible exact Cellar.seal_wf hc _ _ _ _)
    | (intro c hc; (try dsimp only [Cellar.count, Cellar.setRegion, Cellar.setKey, Cellar.loadKey, Cellar.decideWb]); with_reducible exact Cellar.mergeRaw_wf hc _ _ _)
    | (intro c hc; (try dsimp only [Cellar.count, Cellar.setRegion, Cellar.setKey, Cellar.loadKey, Cellar.decideWb]); with_reducible exact Cellar.putMeta_wf hc _ _)
    | (intro c hc; (try dsimp only [Cellar.count, Cellar.setRegion, Cellar.setKey, Cellar.loadKey, Cellar.decideWb]); with_reducible exact Cellar.putRaw_wf hc _ _)
    | (intro c hc; (try dsimp only [Cellar.count, Cellar.setRegion, Cellar.setKey, Cellar.loadKey, Cellar.decideWb]); with_reducible exact Memory.wf_write _ _ _ hc)
    | (intro c hc; (try dsimp only [Cellar.count, Cellar.setRegion, Cellar.setKey, Cellar.loadKey, Cellar.decideWb]); with_reducible exact Memory.wf_writeN _ _ _ hc)
    | (intro c hc; (try dsimp only [Cellar.count, Cellar.setRegion, Cellar.setKey, Cellar.loadKey, Cellar.decideWb]); with_reducible exact Memory.wf_clearRange _ _ _ hc)
    | (intro c hc; (try dsimp only [Cellar.count, Cellar.setRegion, Cellar.setKey, Cellar.loadKey, Cellar.decideWb]); with_reducible exact Memory.wf_spans _ _ hc)
    | (intro c hc; (repeat' split) <;> with_reducible exact hc)
    | (intro c hc; dsimp only; split <;> exact hc)
    | (intro c hc; exact hc)
    | with_reducible refine Dev.cellarRefuse_keep ?_ ‹_› ‹_›
    | with_reducible refine Dev.modCellar_keep ?_ ‹_› _ ?_
    | (extract_lets +onlyGivenNames lv; (have hx : Keep ps e lv := ?_); (on_goal 1 => clear_value lv); on_goal 2 => subst lv)
    | (extract_lets +onlyGivenNames lv; clear_value lv)
    | extract_lets +onlyGivenNames lv
    | with_reducible refine Keep.ite ?_ ?_
    | split

theorem Dev.changePeriod_keep {ps : List Part} {e d : Dev} (h : Keep ps e d) (hout : .out ∈ ps) (hevents : .events ∈ ps) (hrooms : .rooms ∈ ps) (hfuncs : .funcs ∈ ps) (hnet : .net ∈ ps) (htime : .time ∈ ps) (hlink : .link ∈ ps) (hrings : .rings ∈ ps) (hfuse : .fuse ∈ ps) : Keep ps e (Dev.changePeriod d) := by
  unfold Dev.changePeriod
  repeat' first
    | with_reducible assumption
    | with_reducible refine Dev.admitAgain_keep ?_ ‹_› ‹_› ‹_› ‹_› ‹_› ‹_› ‹_› ‹_›
    | with_reducible refine Dev.modTime_keep ?_ ‹_› _
    | (extract_lets +onlyGivenNames lv; (have hx : Keep ps e lv := ?_); (on_goal 1 => clear_value lv); on_goal 2 => subst lv)
    | (extract_lets +onlyGivenNames lv; clear_value lv)
    | extract_lets +onlyGivenNames lv
    | with_reducible refine Keep.ite ?_ ?_
    | split

theorem Dev.modHp_keep {ps : List Part} {e d : Dev} (h : Keep ps e d) (hfabric : .fabric ∈ ps) (a1 a2) : Keep ps e (Dev.modHp d a1 a2) := by
  unfold Dev.modHp
  repeat' first
    | with_reducible assumption
    | with_reducible refine Dev.modFabric_keep ?_ ‹_› _
    | (extract_lets +onlyGivenNames lv; (have hx : Keep ps e lv := ?_); (on_goal 1 => clear_value lv); on_goal 2 => subst lv)
    | (extract_lets +onlyGivenNames lv; clear_value lv)
    | extract_lets +onlyGivenNames lv
    | with_reducible refine Keep.ite ?_ ?_
    | split

theorem Dev.installBlock_keep {ps : List Part} {e d : Dev} (h : Keep ps e d) (hfabric : .fabric ∈ ps) (a1 a2) : Keep ps e (Dev.installBlock d a1 a2) := by
  unfold Dev.installBlock
  repeat' first
    | with_reducible assumption
    | with_reducible refine Dev.modFabric_keep ?_ ‹_› _
    | with_reducible refine Dev.modHp_keep ?_ ‹_› _ _
    | (extract_lets +onlyGivenNames lv; (have hx : Keep ps e lv := ?_); (on_goal 1 => clear_value lv); on_goal 2 => subst lv)
    | (extract_lets +onlyGivenNames lv; clear_value lv)
    | extract_lets +onlyGivenNames lv
    | with_reducible refine Keep.ite ?_ ?_
    | split

theorem Dev.modBank_keep {ps : List Part} {e d : Dev} (h : Keep ps e d) (hfabric : .fabric ∈ ps) (a1 a2) : Keep ps e (Dev.modBank d a1 a2) := by
  unfold Dev.modBank
  repeat' first
    | with_reducible assumption
    | with_reducible refine Dev.modFabric_keep ?_ ‹_› _
    | (extract_lets +onlyGivenNames lv; (have hx : Keep ps e lv := ?_); (on_goal 1 => clear_value lv); on_goal 2 => subst lv)
    | (extract_lets +onlyGivenNames lv; clear_value lv)
    | extract_lets +onlyGivenNames lv
    | with_reducible refine Keep.ite ?_ ?_
    | split

theorem Dev.setDecl_keep {ps : List Part} {e d : Dev} (h : Keep ps e d) (hevents : .events ∈ ps) (hfabric : .fabric ∈ ps) (a1 a2) : Keep ps e (Dev.setDecl d a1 a2) := by
  unfold Dev.setDecl
  repeat' first
    | with_reducible assumption
    | with_reducible refine Dev.modBank_keep ?_ ‹_› _ _
    | with_reducible refine Dev.raise_keep ?_ ‹_› _ _
    | (extract_lets +onlyGivenNames lv; (have hx : Keep ps e lv := ?_); (on_goal 1 => clear_value lv); on_goal 2 => subst lv)
    | (extract_lets +onlyGivenNames lv; clear_value lv)
    | extract_lets +onlyGivenNames lv
    | with_reducible refine Keep.ite ?_ ?_
    | split

theorem Dev.checkClock_keep {ps : List Part} {e d : Dev} (h : Keep ps e d) (hfabric : .fabric ∈ ps) : Keep ps e (Dev.checkClock d) := by
  unfold Dev.checkClock
  repeat' first
    | with_reducible assumption
    | with_reducible refine Dev.modFabric_keep ?_ ‹_› _
    | (extract_lets +onlyGivenNames lv; (have hx : Keep ps e lv := ?_); (on_goal 1 => clear_value lv); on_goal 2 => subst lv)
    | (extract_lets +onlyGivenNames lv; clear_value lv)
    | extract_lets +onlyGivenNames lv
    | with_reducible refine Keep.ite ?_ ?_
    | split

theorem Dev.setPll_keep {ps : List Part} {e d : Dev} (h : Keep ps e d) (hevents : .events ∈ ps) (hfabric : .fabric ∈ ps) (a1 a2) : Keep ps e (Dev.setPll d a1 a2) := by
  unfold Dev.setPll
  repeat' first
    | with_reducible assumption
    | with_reducible refine Dev.checkClock_keep ?_ ‹_›
    | with_reducible refine Dev.modFabric_keep ?_ ‹_› _
    | with_reducible refine Dev.raise_keep ?_ ‹_› _ _
    | (extract_lets +onlyGivenNames lv; (have hx : Keep ps e lv := ?_); (on_goal 1 => clear_value lv); on_goal 2 => subst lv)
    | (extract_lets +onlyGivenNames lv; clear_value lv)
    | extract_lets +onlyGivenNames lv
    | with_reducible refine Keep.ite ?_ ?_
    | split

theorem Dev.startRelease_keep {ps : List Part} {e d : Dev} (h : Keep ps e d) (hfabric : .fabric ∈ ps) (a1) : Keep ps e (Dev.startRelease d a1) := by
  unfold Dev.startRelease
  repeat' first
    | with_reducible assumption
    | with_reducible refine Dev.checkClock_keep ?_ ‹_›
    | with_reducible refine Dev.modFabric_keep ?_ ‹_› _
    | (extract_lets +onlyGivenNames lv; (have hx : Keep ps e lv := ?_); (on_goal 1 => clear_value lv); on_goal 2 => subst lv)
    | (extract_lets +onlyGivenNames lv; clear_value lv)
    | extract_lets +onlyGivenNames lv
    | with_reducible refine Keep.ite ?_ ?_
    | split

theorem Dev.finishApply_keep {ps : List Part} {e d : Dev} (h : Keep ps e d) (hout : .out ∈ ps) (hevents : .events ∈ ps) (hlink : .link ∈ ps) (hfabric : .fabric ∈ ps) (hrings : .rings ∈ ps) (hsched : .sched ∈ ps) (a1) : Keep ps e (Dev.finishApply d a1) := by
  unfold Dev.finishApply
  repeat' first
    | with_reducible assumption
    | with_reducible refine Dev.each_keep ?_ (fun x y hx => ?_)
    | with_reducible refine Dev.finish_keep ?_ ‹_› ‹_› ‹_› ‹_› ‹_› _ _ _ _ _ _
    | with_reducible refine Dev.installBlock_keep ?_ ‹_› _ _
    | with_reducible refine Dev.modFabric_keep ?_ ‹_› _
    | with_reducible refine Dev.refreshPads_keep ?_ ‹_›
    | with_reducible refine Dev.setDecl_keep ?_ ‹_› ‹_› _ _
    | with_reducible refine Dev.setPll_keep ?_ ‹_› ‹_› _ _
    | with_reducible refine Dev.startRelease_keep ?_ ‹_› _
    | (extract_lets +onlyGivenNames lv; (have hx : Keep ps e lv := ?_); (on_goal 1 => clear_value lv); on_goal 2 => subst lv)
    | (extract_lets +onlyGivenNames lv; clear_value lv)
    | extract_lets +onlyGivenNames lv
    | with_reducible refine Keep.ite ?_ ?_
    | split

theorem Dev.fabricAtBoundary_keep {ps : List Part} {e d : Dev} (h : Keep ps e d) (hout : .out ∈ ps) (hevents : .events ∈ ps) (hlink : .link ∈ ps) (hfabric : .fabric ∈ ps) (hrings : .rings ∈ ps) (hsched : .sched ∈ ps) : Keep ps e (Dev.fabricAtBoundary d) := by
  unfold Dev.fabricAtBoundary
  repeat' first
    | with_reducible assumption
    | with_reducible refine Dev.each_keep ?_ (fun x y hx => ?_)
    | with_reducible refine Dev.finishApply_keep ?_ ‹_› ‹_› ‹_› ‹_› ‹_› ‹_› _
    | with_reducible refine Dev.modFabric_keep ?_ ‹_› _
    | (extract_lets +onlyGivenNames lv; (have hx : Keep ps e lv := ?_); (on_goal 1 => clear_value lv); on_goal 2 => subst lv)
    | (extract_lets +onlyGivenNames lv; clear_value lv)
    | extract_lets +onlyGivenNames lv
    | with_reducible refine Keep.ite ?_ ?_
    | split

theorem Dev.drainTags_keep {ps : List Part} {e d : Dev} (h : Keep ps e d) (hrooms : .rooms ∈ ps) (hnet : .net ∈ ps) (a1) : Keep ps e (Dev.drainTags d a1) := by
  unfold Dev.drainTags
  repeat' first
    | with_reducible assumption
    | with_reducible refine Dev.each_keep ?_ (fun x y hx => ?_)
    | with_reducible refine Dev.hubSend_keep ?_ ‹_› ‹_› _ _ _ _ _
    | (extract_lets +onlyGivenNames lv; (have hx : Keep ps e lv := ?_); (on_goal 1 => clear_value lv); on_goal 2 => subst lv)
    | (extract_lets +onlyGivenNames lv; clear_value lv)
    | extract_lets +onlyGivenNames lv
    | with_reducible refine Keep.ite ?_ ?_
    | split

theorem Dev.feedRoom_keep {ps : List Part} {e d : Dev} (h : Keep ps e d) (hrooms : .rooms ∈ ps) (hnet : .net ∈ ps) (a1 a2 a3) : Keep ps e (Dev.feedRoom d a1 a2 a3) := by
  unfold Dev.feedRoom
  repeat' first
    | with_reducible assumption
    | with_reducible refine Dev.hubSend_keep ?_ ‹_› ‹_› _ _ _ _ _
    | with_reducible refine Dev.setRoom_keep ?_ ‹_› _ _
    | (extract_lets +onlyGivenNames lv; (have hx : Keep ps e lv := ?_); (on_goal 1 => clear_value lv); on_goal 2 => subst lv)
    | (extract_lets +onlyGivenNames lv; clear_value lv)
    | extract_lets +onlyGivenNames lv
    | with_reducible refine Keep.ite ?_ ?_
    | split

theorem Dev.setFlow_keep {ps : List Part} {e d : Dev} (h : Keep ps e d) (hmedia : .media ∈ ps) (a1 a2) : Keep ps e (Dev.setFlow d a1 a2) := by
  unfold Dev.setFlow
  repeat' first
    | with_reducible assumption
    | with_reducible refine Dev.modMedia_keep ?_ ‹_› _
    | (extract_lets +onlyGivenNames lv; (have hx : Keep ps e lv := ?_); (on_goal 1 => clear_value lv); on_goal 2 => subst lv)
    | (extract_lets +onlyGivenNames lv; clear_value lv)
    | extract_lets +onlyGivenNames lv
    | with_reducible refine Keep.ite ?_ ?_
    | split

theorem Dev.countFlow_keep {ps : List Part} {e d : Dev} (h : Keep ps e d) (hmedia : .media ∈ ps) (a1 a2 a3) : Keep ps e (Dev.countFlow d a1 a2 a3) := by
  unfold Dev.countFlow
  repeat' first
    | with_reducible assumption
    | with_reducible refine Dev.setFlow_keep ?_ ‹_› _ _
    | (extract_lets +onlyGivenNames lv; (have hx : Keep ps e lv := ?_); (on_goal 1 => clear_value lv); on_goal 2 => subst lv)
    | (extract_lets +onlyGivenNames lv; clear_value lv)
    | extract_lets +onlyGivenNames lv
    | with_reducible refine Keep.ite ?_ ?_
    | split

theorem Dev.countSdi_keep {ps : List Part} {e d : Dev} (h : Keep ps e d) (hmedia : .media ∈ ps) (a1 a2 a3) : Keep ps e (Dev.countSdi d a1 a2 a3) := by
  unfold Dev.countSdi
  repeat' first
    | with_reducible assumption
    | with_reducible refine Dev.setSdi_keep ?_ ‹_› _ _
    | (extract_lets +onlyGivenNames lv; (have hx : Keep ps e lv := ?_); (on_goal 1 => clear_value lv); on_goal 2 => subst lv)
    | (extract_lets +onlyGivenNames lv; clear_value lv)
    | extract_lets +onlyGivenNames lv
    | with_reducible refine Keep.ite ?_ ?_
    | split

theorem Dev.lateGroups_keep {ps : List Part} {e d : Dev} (h : Keep ps e d) (hevents : .events ∈ ps) (hmedia : .media ∈ ps) (a1 a2) : Keep ps e (Dev.lateGroups d a1 a2) := by
  unfold Dev.lateGroups
  repeat' first
    | with_reducible assumption
    | with_reducible refine Dev.countFlow_keep ?_ ‹_› _ _ _
    | with_reducible refine Dev.countSdi_keep ?_ ‹_› _ _ _
    | with_reducible refine Dev.raise_keep ?_ ‹_› _ _
    | (extract_lets +onlyGivenNames lv; (have hx : Keep ps e lv := ?_); (on_goal 1 => clear_value lv); on_goal 2 => subst lv)
    | (extract_lets +onlyGivenNames lv; clear_value lv)
    | extract_lets +onlyGivenNames lv
    | with_reducible refine Keep.ite ?_ ?_
    | split

theorem Dev.feedFunc_keep {ps : List Part} {e d : Dev} (h : Keep ps e d) (hevents : .events ∈ ps) (hrooms : .rooms ∈ ps) (hnet : .net ∈ ps) (hmedia : .media ∈ ps) (a1 a2 a3) : Keep ps e (Dev.feedFunc d a1 a2 a3) := by
  unfold Dev.feedFunc
  repeat' first
    | with_reducible assumption
    | with_reducible refine Dev.each_keep ?_ (fun x y hx => ?_)
    | with_reducible refine Dev.feedRoom_keep ?_ ‹_› ‹_› _ _ _
    | with_reducible refine Dev.lateGroups_keep ?_ ‹_› ‹_› _ _
    | (extract_lets +onlyGivenNames lv; (have hx : Keep ps e lv := ?_); (on_goal 1 => clear_value lv); on_goal 2 => subst lv)
    | (extract_lets +onlyGivenNames lv; clear_value lv)
    | extract_lets +onlyGivenNames lv
    | with_reducible refine Keep.ite ?_ ?_
    | split

theorem Dev.framesAtBoundary_keep {ps : List Part} {e d : Dev} (h : Keep ps e d) (hcellar : .cellar ∈ ps) : Keep ps e (Dev.framesAtBoundary d) := by
  unfold Dev.framesAtBoundary
  repeat' first
    | with_reducible assumption
    | (intro c hc; with_reducible exact hc)
    | (intro c hc; with_reducible exact Cellar.seal_wf hc _ _ _ _)
    | (intro c hc; with_reducible exact Cellar.mergeRaw_wf hc _ _ _)
    | (intro c hc; (try dsimp only [Cellar.count, Cellar.setRegion, Cellar.setKey, Cellar.loadKey, Cellar.decideWb]); with_reducible exact hc)
    | (intro c hc; (try dsimp only [Cellar.count, Cellar.setRegion, Cellar.setKey, Cellar.loadKey, Cellar.decideWb]); with_reducible exact Cellar.seal_wf hc _ _ _ _)
    | (intro c hc; (try dsimp only [Cellar.count, Cellar.setRegion, Cellar.setKey, Cellar.loadKey, Cellar.decideWb]); with_reducible exact Cellar.mergeRaw_wf hc _ _ _)
    | (intro c hc; (try dsimp only [Cellar.count, Cellar.setRegion, Cellar.setKey, Cellar.loadKey, Cellar.decideWb]); with_reducible exact Cellar.putMeta_wf hc _ _)
    | (intro c hc; (try dsimp only [Cellar.count, Cellar.setRegion, Cellar.setKey, Cellar.loadKey, Cellar.decideWb]); with_reducible exact Cellar.putRaw_wf hc _ _)
    | (intro c hc; (try dsimp only [Cellar.count, Cellar.setRegion, Cellar.setKey, Cellar.loadKey, Cellar.decideWb]); with_reducible exact Memory.wf_write _ _ _ hc)
    | (intro c hc; (try dsimp only [Cellar.count, Cellar.setRegion, Cellar.setKey, Cellar.loadKey, Cellar.decideWb]); with_reducible exact Memory.wf_writeN _ _ _ hc)
    | (intro c hc; (try dsimp only [Cellar.count, Cellar.setRegion, Cellar.setKey, Cellar.loadKey, Cellar.decideWb]); with_reducible exact Memory.wf_clearRange _ _ _ hc)
    | (intro c hc; (try dsimp only [Cellar.count, Cellar.setRegion, Cellar.setKey, Cellar.loadKey, Cellar.decideWb]); with_reducible exact Memory.wf_spans _ _ hc)
    | (intro c hc; (repeat' split) <;> with_reducible exact hc)
    | (intro c hc; dsimp only; split <;> exact hc)
    | (intro c hc; exact hc)
    | with_reducible refine Dev.modCellar_keep ?_ ‹_› _ ?_
    | (extract_lets +onlyGivenNames lv; (have hx : Keep ps e lv := ?_); (on_goal 1 => clear_value lv); on_goal 2 => subst lv)
    | (extract_lets +onlyGivenNames lv; clear_value lv)
    | extract_lets +onlyGivenNames lv
    | with_reducible refine Keep.ite ?_ ?_
    | split

theorem Dev.passThrough_keep {ps : List Part} {e d : Dev} (h : Keep ps e d) (hmedia : .media ∈ ps) (a1 a2) : Keep ps e (Dev.passThrough d a1 a2) := by
  unfold Dev.passThrough
  repeat' first
    | with_reducible assumption
    | with_reducible refine Dev.each_keep ?_ (fun x y hx => ?_)
    | with_reducible refine Dev.setEgr_keep ?_ ‹_› _ _
    | (extract_lets +onlyGivenNames lv; (have hx : Keep ps e lv := ?_); (on_goal 1 => clear_value lv); on_goal 2 => subst lv)
    | (extract_lets +onlyGivenNames lv; clear_value lv)
    | extract_lets +onlyGivenNames lv
    | with_reducible refine Keep.ite ?_ ?_
    | split

theorem Dev.routesAtBoundary_keep {ps : List Part} {e d : Dev} (h : Keep ps e d) (hout : .out ∈ ps) (hevents : .events ∈ ps) (hmedia : .media ∈ ps) (hlink : .link ∈ ps) (hrings : .rings ∈ ps) (hsched : .sched ∈ ps) : Keep ps e (Dev.routesAtBoundary d) := by
  unfold Dev.routesAtBoundary
  repeat' first
    | with_reducible assumption
    | with_reducible refine Dev.each_keep ?_ (fun x y hx => ?_)
    | with_reducible refine Dev.finish_keep ?_ ‹_› ‹_› ‹_› ‹_› ‹_› _ _ _ _ _ _
    | with_reducible refine Dev.setEgr_keep ?_ ‹_› _ _
    | (extract_lets +onlyGivenNames lv; (have hx : Keep ps e lv := ?_); (on_goal 1 => clear_value lv); on_goal 2 => subst lv)
    | (extract_lets +onlyGivenNames lv; clear_value lv)
    | extract_lets +onlyGivenNames lv
    | with_reducible refine Keep.ite ?_ ?_
    | split

theorem Dev.feedsAtBoundary_keep {ps : List Part} {e d : Dev} (h : Keep ps e d) (hout : .out ∈ ps) (hevents : .events ∈ ps) (hrooms : .rooms ∈ ps) (hnet : .net ∈ ps) (hcellar : .cellar ∈ ps) (hmedia : .media ∈ ps) (hlink : .link ∈ ps) (hrings : .rings ∈ ps) (hsched : .sched ∈ ps) (a1 a2) : Keep ps e (Dev.feedsAtBoundary d a1 a2) := by
  unfold Dev.feedsAtBoundary
  repeat' first
    | with_reducible assumption
    | with_reducible refine Dev.drainTags_keep ?_ ‹_› ‹_› _
    | with_reducible refine Dev.each_keep ?_ (fun x y hx => ?_)
    | with_reducible refine Dev.feedFunc_keep ?_ ‹_› ‹_› ‹_› ‹_› _ _ _
    | with_reducible refine Dev.framesAtBoundary_keep ?_ ‹_›
    | with_reducible refine Dev.modMedia_keep ?_ ‹_› _
    | with_reducible refine Dev.passThrough_keep ?_ ‹_› _ _
    | with_reducible refine Dev.routesAtBoundary_keep ?_ ‹_› ‹_› ‹_› ‹_› ‹_› ‹_›
    | (extract_lets +onlyGivenNames lv; (have hx : Keep ps e lv := ?_); (on_goal 1 => clear_value lv); on_goal 2 => subst lv)
    | (extract_lets +onlyGivenNames lv; clear_value lv)
    | extract_lets +onlyGivenNames lv
    | with_reducible refine Keep.ite ?_ ?_
    | split

theorem Dev.fuseAtBoundary_keep {ps : List Part} {e d : Dev} (h : Keep ps e d) (hrooms : .rooms ∈ ps) (hmedia : .media ∈ ps) (hfabric : .fabric ∈ ps) (hfuse : .fuse ∈ ps) : Keep ps e (Dev.fuseAtBoundary d) := by
  unfold Dev.fuseAtBoundary
  repeat' first
    | with_reducible assumption
    | with_reducible refine Dev.each_keep ?_ (fun x y hx => ?_)
    | with_reducible refine Dev.modFuse_keep ?_ ‹_› _
    | with_reducible refine Dev.modRoom_keep ?_ ‹_› _ _
    | with_reducible refine Dev.reforce_keep ?_ ‹_› ‹_›
    | (extract_lets +onlyGivenNames lv; (have hx : Keep ps e lv := ?_); (on_goal 1 => clear_value lv); on_goal 2 => subst lv)
    | (extract_lets +onlyGivenNames lv; clear_value lv)
    | extract_lets +onlyGivenNames lv
    | with_reducible refine Keep.ite ?_ ?_
    | split

theorem Dev.endDepends_keep {ps : List Part} {e d : Dev} (h : Keep ps e d) (hrooms : .rooms ∈ ps) (hlink : .link ∈ ps) : Keep ps e (Dev.endDepends d) := by
  unfold Dev.endDepends
  repeat' first
    | with_reducible assumption
    | with_reducible refine Dev.each_keep ?_ (fun x y hx => ?_)
    | with_reducible refine Dev.modLink_keep ?_ ‹_› _
    | with_reducible refine Dev.modRoom_keep ?_ ‹_› _ _
    | (extract_lets +onlyGivenNames lv; (have hx : Keep ps e lv := ?_); (on_goal 1 => clear_value lv); on_goal 2 => subst lv)
    | (extract_lets +onlyGivenNames lv; clear_value lv)
    | extract_lets +onlyGivenNames lv
    | with_reducible refine Keep.ite ?_ ?_
    | split

theorem Dev.lanesTx_keep {ps : List Part} {e d : Dev} (h : Keep ps e d) (hout : .out ∈ ps) (hlink : .link ∈ ps) : Keep ps e (Dev.lanesTx d) := by
  unfold Dev.lanesTx
  repeat' first
    | with_reducible assumption
    | with_reducible refine Dev.each_keep ?_ (fun x y hx => ?_)
    | with_reducible refine Dev.laneTx_keep ?_ ‹_› ‹_› _
    | (extract_lets +onlyGivenNames lv; (have hx : Keep ps e lv := ?_); (on_goal 1 => clear_value lv); on_goal 2 => subst lv)
    | (extract_lets +onlyGivenNames lv; clear_value lv)
    | extract_lets +onlyGivenNames lv
    | with_reducible refine Keep.ite ?_ ?_
    | split

theorem Dev.missMarker_keep {ps : List Part} {e d : Dev} (h : Keep ps e d) (hevents : .events ∈ ps) (hlink : .link ∈ ps) (a1) : Keep ps e (Dev.missMarker d a1) := by
  unfold Dev.missMarker
  repeat' first
    | with_reducible assumption
    | with_reducible refine Dev.raise_keep ?_ ‹_› _ _
    | with_reducible refine Dev.setBd_keep ?_ ‹_› _ _
    | (extract_lets +onlyGivenNames lv; (have hx : Keep ps e lv := ?_); (on_goal 1 => clear_value lv); on_goal 2 => subst lv)
    | (extract_lets +onlyGivenNames lv; clear_value lv)
    | extract_lets +onlyGivenNames lv
    | with_reducible refine Keep.ite ?_ ?_
    | split

theorem Dev.remoteDue_keep {ps : List Part} {e d : Dev} (h : Keep ps e d) (hrooms : .rooms ∈ ps) : Keep ps e (Dev.remoteDue d) := by
  unfold Dev.remoteDue
  repeat' first
    | with_reducible assumption
    | with_reducible refine Dev.each_keep ?_ (fun x y hx => ?_)
    | with_reducible refine Dev.modRoom_keep ?_ ‹_› _ _
    | (extract_lets +onlyGivenNames lv; (have hx : Keep ps e lv := ?_); (on_goal 1 => clear_value lv); on_goal 2 => subst lv)
    | (extract_lets +onlyGivenNames lv; clear_value lv)
    | extract_lets +onlyGivenNames lv
    | with_reducible refine Keep.ite ?_ ?_
    | split

theorem Dev.sendMarkers_keep {ps : List Part} {e d : Dev} (h : Keep ps e d) (hfree : .free ∈ ps) (hout : .out ∈ ps) (hlink : .link ∈ ps) (a1) : Keep ps e (Dev.sendMarkers d a1) := by
  unfold Dev.sendMarkers
  repeat' first
    | with_reducible assumption
    | with_reducible refine Dev.each_keep ?_ (fun x y hx => ?_)
    | with_reducible refine Dev.emit_keep ?_ ‹_› _
    | with_reducible refine Dev.modBd_keep ?_ ‹_› _ _
    | with_reducible refine Dev.take_keep ?_ ‹_› _
    | (extract_lets +onlyGivenNames lv; (have hx : Keep ps e lv := ?_); (on_goal 1 => clear_value lv); on_goal 2 => subst lv)
    | (extract_lets +onlyGivenNames lv; clear_value lv)
    | extract_lets +onlyGivenNames lv
    | with_reducible refine Keep.ite ?_ ?_
    | split

theorem Dev.split_keep {ps : List Part} {e d : Dev} (h : Keep ps e d) (hout : .out ∈ ps) (hevents : .events ∈ ps) (hlink : .link ∈ ps) (hrings : .rings ∈ ps) (hsched : .sched ∈ ps) : Keep ps e (Dev.split d) := by
  unfold Dev.split
  repeat' first
    | with_reducible assumption
    | with_reducible refine Dev.each_keep ?_ (fun x y hx => ?_)
    | with_reducible refine Dev.modLink_keep ?_ ‹_› _
    | with_reducible refine Dev.postRing_keep ?_ ‹_› ‹_› ‹_› ‹_› ‹_› _
    | with_reducible refine Dev.raise_keep ?_ ‹_› _ _
    | with_reducible refine Dev.resolveAwait_keep ?_ ‹_› ‹_› ‹_› ‹_›
    | with_reducible refine Dev.settle_keep ?_ ‹_› ‹_› ‹_› ‹_› ‹_› _
    | (extract_lets +onlyGivenNames lv; (have hx : Keep ps e lv := ?_); (on_goal 1 => clear_value lv); on_goal 2 => subst lv)
    | (extract_lets +onlyGivenNames lv; clear_value lv)
    | extract_lets +onlyGivenNames lv
    | with_reducible refine Keep.ite ?_ ?_
    | split

theorem Dev.linkAtBoundary_keep {ps : List Part} {e d : Dev} (h : Keep ps e d) (hfree : .free ∈ ps) (hout : .out ∈ ps) (hevents : .events ∈ ps) (hrooms : .rooms ∈ ps) (hlink : .link ∈ ps) (hrings : .rings ∈ ps) (hsched : .sched ∈ ps) (a1) : Keep ps e (Dev.linkAtBoundary d a1) := by
  unfold Dev.linkAtBoundary
  repeat' first
    | with_reducible assumption
    | with_reducible refine Dev.each_keep ?_ (fun x y hx => ?_)
    | with_reducible refine Dev.endDepends_keep ?_ ‹_› ‹_›
    | with_reducible refine Dev.lanesTx_keep ?_ ‹_› ‹_›
    | with_reducible refine Dev.missMarker_keep ?_ ‹_› ‹_› _
    | with_reducible refine Dev.modLink_keep ?_ ‹_› _
    | with_reducible refine Dev.raise_keep ?_ ‹_› _ _
    | with_reducible refine Dev.remoteDue_keep ?_ ‹_›
    | with_reducible refine Dev.sendMarkers_keep ?_ ‹_› ‹_› ‹_› _
    | with_reducible refine Dev.sendMessage_keep ?_ ‹_› ‹_› ‹_› _ _ _ _ _ _ _
    | with_reducible refine Dev.setActive_keep ?_ ‹_› _ _
    | with_reducible refine Dev.split_keep ?_ ‹_› ‹_› ‹_› ‹_› ‹_›
    | (extract_lets +onlyGivenNames lv; (have hx : Keep ps e lv := ?_); (on_goal 1 => clear_value lv); on_goal 2 => subst lv)
    | (extract_lets +onlyGivenNames lv; clear_value lv)
    | extract_lets +onlyGivenNames lv
    | with_reducible refine Keep.ite ?_ ?_
    | split

theorem Dev.handover_keep {ps : List Part} {e d : Dev} (h : Keep ps e d) (hout : .out ∈ ps) (hevents : .events ∈ ps) (hlink : .link ∈ ps) (hrings : .rings ∈ ps) (hcores : .cores ∈ ps) (hsched : .sched ∈ ps) (hstrong : .strong ∈ ps) (a0 a1 a2) : Keep ps e (Dev.handover a0 a1 a2 d) := by
  unfold Dev.handover
  repeat' first
    | with_reducible assumption
    | with_reducible refine Dev.commitPoint_keep ?_ ‹_› _
    | with_reducible refine Dev.finish_keep ?_ ‹_› ‹_› ‹_› ‹_› ‹_› _ _ _ _ _ _
    | with_reducible refine Dev.measure_keep ?_ ‹_› _
    | with_reducible refine Dev.modCores_keep ?_ ‹_› _
    | (extract_lets +onlyGivenNames lv; (have hx : Keep ps e lv := ?_); (on_goal 1 => clear_value lv); on_goal 2 => subst lv)
    | (extract_lets +onlyGivenNames lv; clear_value lv)
    | extract_lets +onlyGivenNames lv
    | with_reducible refine Keep.ite ?_ ?_
    | split

theorem Dev.imageEffect_keep {ps : List Part} {e d : Dev} (h : Keep ps e d) (hfree : .free ∈ ps) (hout : .out ∈ ps) (hevents : .events ∈ ps) (hlink : .link ∈ ps) (hfabric : .fabric ∈ ps) (hrings : .rings ∈ ps) (hcores : .cores ∈ ps) (hsched : .sched ∈ ps) (hstrong : .strong ∈ ps) (a0 a1 a2) : Keep ps e (Dev.imageEffect a0 a1 a2 d) := by
  unfold Dev.imageEffect
  repeat' first
    | with_reducible assumption
    | with_reducible refine Dev.applyFabric_keep ?_ ‹_› ‹_› ‹_› ‹_› ‹_› _ _ _
    | with_reducible refine Dev.finish_keep ?_ ‹_› ‹_› ‹_› ‹_› ‹_› _ _ _ _ _ _
    | with_reducible refine Dev.handover_keep ?_ ‹_› ‹_› ‹_› ‹_› ‹_› ‹_› ‹_› _ _ _
    | with_reducible refine Dev.modCores_keep ?_ ‹_› _
    | (extract_lets +onlyGivenNames lv; (have hx : Keep ps e lv := ?_); (on_goal 1 => clear_value lv); on_goal 2 => subst lv)
    | (extract_lets +onlyGivenNames lv; clear_value lv)
    | extract_lets +onlyGivenNames lv
    | with_reducible refine Keep.ite ?_ ?_
    | split

theorem Dev.mirrorEffect_keep {ps : List Part} {e d : Dev} (h : Keep ps e d) (hout : .out ∈ ps) (hevents : .events ∈ ps) (hlink : .link ∈ ps) (hrings : .rings ∈ ps) (hsched : .sched ∈ ps) (a0 a1 a2) : Keep ps e (Dev.mirrorEffect a0 a1 a2 d) := by
  unfold Dev.mirrorEffect
  repeat' first
    | with_reducible assumption
    | with_reducible refine Dev.commitPoint_keep ?_ ‹_› _
    | with_reducible refine Dev.finish_keep ?_ ‹_› ‹_› ‹_› ‹_› ‹_› _ _ _ _ _ _
    | with_reducible refine Dev.lanesTx_keep ?_ ‹_› ‹_›
    | with_reducible refine Dev.modLink_keep ?_ ‹_› _
    | (extract_lets +onlyGivenNames lv; (have hx : Keep ps e lv := ?_); (on_goal 1 => clear_value lv); on_goal 2 => subst lv)
    | (extract_lets +onlyGivenNames lv; clear_value lv)
    | extract_lets +onlyGivenNames lv
    | with_reducible refine Keep.ite ?_ ?_
    | split

theorem Dev.paramEffect_keep {ps : List Part} {e d : Dev} (h : Keep ps e d) (hout : .out ∈ ps) (hevents : .events ∈ ps) (hrooms : .rooms ∈ ps) (hfuncs : .funcs ∈ ps) (hlink : .link ∈ ps) (hrings : .rings ∈ ps) (hsched : .sched ∈ ps) (a0 a1 a2) : Keep ps e (Dev.paramEffect a0 a1 a2 d) := by
  unfold Dev.paramEffect
  repeat' first
    | with_reducible assumption
    | with_reducible refine Dev.commitPoint_keep ?_ ‹_› _
    | with_reducible refine Dev.each_keep ?_ (fun x y hx => ?_)
    | with_reducible refine Dev.finish_keep ?_ ‹_› ‹_› ‹_› ‹_› ‹_› _ _ _ _ _ _
    | with_reducible refine Dev.modFunc_keep ?_ ‹_› _ _
    | with_reducible refine Dev.modRoom_keep ?_ ‹_› _ _
    | (extract_lets +onlyGivenNames lv; (have hx : Keep ps e lv := ?_); (on_goal 1 => clear_value lv); on_goal 2 => subst lv)
    | (extract_lets +onlyGivenNames lv; clear_value lv)
    | extract_lets +onlyGivenNames lv
    | with_reducible refine Keep.ite ?_ ?_
    | split

theorem Dev.unmeasure_keep {ps : List Part} {e d : Dev} (h : Keep ps e d) (hstrong : .strong ∈ ps) (a1 a2) : Keep ps e (Dev.unmeasure d a1 a2) := by
  unfold Dev.unmeasure
  repeat' first
    | with_reducible assumption
    | with_reducible exact StrongKept.same rfl rfl rfl rfl rfl rfl rfl rfl rfl
    | exact StrongKept.of (fun h => ⟨h.1, h.2.1, Memory.wf_writeN _ _ _ rfl⟩) rfl rfl rfl rfl rfl rfl
    | exact StrongKept.of (fun h => ⟨h.1, Memory.wf_writeN _ _ _ h.2.1, h.2.2⟩) rfl rfl rfl rfl rfl rfl
    | with_reducible refine Dev.modStrong_keep ?_ ‹_› _ ?_
    | (extract_lets +onlyGivenNames lv; (have hx : Keep ps e lv := ?_); (on_goal 1 => clear_value lv); on_goal 2 => subst lv)
    | (extract_lets +onlyGivenNames lv; clear_value lv)
    | extract_lets +onlyGivenNames lv
    | with_reducible refine Keep.ite ?_ ?_
    | split

theorem Dev.retireEffect_keep {ps : List Part} {e d : Dev} (h : Keep ps e d) (hout : .out ∈ ps) (hevents : .events ∈ ps) (hrooms : .rooms ∈ ps) (hfuncs : .funcs ∈ ps) (hnet : .net ∈ ps) (hlink : .link ∈ ps) (hrings : .rings ∈ ps) (hsched : .sched ∈ ps) (hstrong : .strong ∈ ps) (a0 a1 a2) : Keep ps e (Dev.retireEffect a0 a1 a2 d) := by
  unfold Dev.retireEffect
  repeat' first
    | with_reducible assumption
    | (intro y; with_reducible rfl)
    | (intro y; split <;> rfl)
    | with_reducible refine Dev.commitPoint_keep ?_ ‹_› _
    | with_reducible refine Dev.dropFuncLinks_keep ?_ ‹_› ‹_› ‹_› ‹_› _
    | with_reducible refine Dev.each_keep ?_ (fun x y hx => ?_)
    | with_reducible refine Dev.finish_keep ?_ ‹_› ‹_› ‹_› ‹_› ‹_› _ _ _ _ _ _
    | with_reducible refine Dev.modEntry_keep ?_ ‹_› _ _ ?_
    | with_reducible refine Dev.modFunc_keep ?_ ‹_› _ _
    | with_reducible refine Dev.modRoom_keep ?_ ‹_› _ _
    | with_reducible refine Dev.unmeasure_keep ?_ ‹_› _ _
    | (extract_lets +onlyGivenNames lv; (have hx : Keep ps e lv := ?_); (on_goal 1 => clear_value lv); on_goal 2 => subst lv)
    | (extract_lets +onlyGivenNames lv; clear_value lv)
    | extract_lets +onlyGivenNames lv
    | with_reducible refine Keep.ite ?_ ?_
    | split

theorem Dev.routeEffect_keep {ps : List Part} {e d : Dev} (h : Keep ps e d) (hout : .out ∈ ps) (hevents : .events ∈ ps) (hfuncs : .funcs ∈ ps) (hmedia : .media ∈ ps) (hlink : .link ∈ ps) (hrings : .rings ∈ ps) (hsched : .sched ∈ ps) (a0 a1 a2) : Keep ps e (Dev.routeEffect a0 a1 a2 d) := by
  unfold Dev.routeEffect
  repeat' first
    | with_reducible assumption
    | with_reducible refine Dev.commitPoint_keep ?_ ‹_› _
    | with_reducible refine Dev.finish_keep ?_ ‹_› ‹_› ‹_› ‹_› ‹_› _ _ _ _ _ _
    | with_reducible refine Dev.modEgr_keep ?_ ‹_› _ _
    | with_reducible refine Dev.modFunc_keep ?_ ‹_› _ _
    | with_reducible refine Dev.modMedia_keep ?_ ‹_› _
    | (extract_lets +onlyGivenNames lv; (have hx : Keep ps e lv := ?_); (on_goal 1 => clear_value lv); on_goal 2 => subst lv)
    | (extract_lets +onlyGivenNames lv; clear_value lv)
    | extract_lets +onlyGivenNames lv
    | with_reducible refine Keep.ite ?_ ?_
    | split

theorem Dev.slipEffect_keep {ps : List Part} {e d : Dev} (h : Keep ps e d) (hout : .out ∈ ps) (hevents : .events ∈ ps) (htime : .time ∈ ps) (hlink : .link ∈ ps) (hrings : .rings ∈ ps) (hsched : .sched ∈ ps) (a0 a1 a2) : Keep ps e (Dev.slipEffect a0 a1 a2 d) := by
  unfold Dev.slipEffect
  repeat' first
    | with_reducible assumption
    | with_reducible refine Dev.commitPoint_keep ?_ ‹_› _
    | with_reducible refine Dev.finish_keep ?_ ‹_› ‹_› ‹_› ‹_› ‹_› _ _ _ _ _ _
    | with_reducible refine Dev.modTime_keep ?_ ‹_› _
    | with_reducible refine Dev.raise_keep ?_ ‹_› _ _
    | (extract_lets +onlyGivenNames lv; (have hx : Keep ps e lv := ?_); (on_goal 1 => clear_value lv); on_goal 2 => subst lv)
    | (extract_lets +onlyGivenNames lv; clear_value lv)
    | extract_lets +onlyGivenNames lv
    | with_reducible refine Keep.ite ?_ ?_
    | split

theorem Dev.opEffect_keep {ps : List Part} {e d : Dev} (h : Keep ps e d) (hfree : .free ∈ ps) (hout : .out ∈ ps) (hevents : .events ∈ ps) (hrooms : .rooms ∈ ps) (hfuncs : .funcs ∈ ps) (hnet : .net ∈ ps) (hcellar : .cellar ∈ ps) (hmedia : .media ∈ ps) (htime : .time ∈ ps) (hlink : .link ∈ ps) (hfabric : .fabric ∈ ps) (hrings : .rings ∈ ps) (hcores : .cores ∈ ps) (hsched : .sched ∈ ps) (hacq : .acq ∈ ps) (hstrong : .strong ∈ ps) (hhub : .hub ∈ ps) (a0 a1 a2) : Keep ps e (Dev.opEffect a0 a1 a2 d) := by
  unfold Dev.opEffect
  repeat' first
    | with_reducible assumption
    | with_reducible refine Dev.admitEffect_keep ?_ ‹_› ‹_› ‹_› ‹_› ‹_› ‹_› ‹_› ‹_› ‹_› ‹_› ‹_› ‹_› ‹_› _ _ _ _
    | with_reducible refine Dev.armEffect_keep ?_ ‹_› ‹_› ‹_› ‹_› ‹_› ‹_› _ _ _
    | with_reducible refine Dev.imageEffect_keep ?_ ‹_› ‹_› ‹_› ‹_› ‹_› ‹_› ‹_› ‹_› ‹_› _ _ _
    | with_reducible refine Dev.mirrorEffect_keep ?_ ‹_› ‹_› ‹_› ‹_› ‹_› _ _ _
    | with_reducible refine Dev.paramEffect_keep ?_ ‹_› ‹_› ‹_› ‹_› ‹_› ‹_› ‹_› _ _ _
    | with_reducible refine Dev.retireEffect_keep ?_ ‹_› ‹_› ‹_› ‹_› ‹_› ‹_› ‹_› ‹_› ‹_› _ _ _
    | with_reducible refine Dev.routeEffect_keep ?_ ‹_› ‹_› ‹_› ‹_› ‹_› ‹_› ‹_› _ _ _
    | with_reducible refine Dev.slipEffect_keep ?_ ‹_› ‹_› ‹_› ‹_› ‹_› ‹_› _ _ _
    | (extract_lets +onlyGivenNames lv; (have hx : Keep ps e lv := ?_); (on_goal 1 => clear_value lv); on_goal 2 => subst lv)
    | (extract_lets +onlyGivenNames lv; clear_value lv)
    | extract_lets +onlyGivenNames lv
    | with_reducible refine Keep.ite ?_ ?_
    | split

theorem Dev.undoStrict_keep {ps : List Part} {e d : Dev} (h : Keep ps e d) (hout : .out ∈ ps) (hevents : .events ∈ ps) (hrooms : .rooms ∈ ps) (hfuncs : .funcs ∈ ps) (hnet : .net ∈ ps) (hlink : .link ∈ ps) (hrings : .rings ∈ ps) (hsched : .sched ∈ ps) (hfuse : .fuse ∈ ps) (a0 a1) : Keep ps e (Dev.undoStrict a0 a1 d) := by
  unfold Dev.undoStrict
  repeat' first
    | with_reducible assumption
    | with_reducible refine Dev.finish_keep ?_ ‹_› ‹_› ‹_› ‹_› ‹_› _ _ _ _ _ _
    | with_reducible refine Dev.undoAdmission_keep ?_ ‹_› ‹_› ‹_› ‹_› ‹_› ‹_› ‹_› _
    | (extract_lets +onlyGivenNames lv; (have hx : Keep ps e lv := ?_); (on_goal 1 => clear_value lv); on_goal 2 => subst lv)
    | (extract_lets +onlyGivenNames lv; clear_value lv)
    | extract_lets +onlyGivenNames lv
    | with_reducible refine Keep.ite ?_ ?_
    | split

theorem Dev.refuseLate_keep {ps : List Part} {e d : Dev} (h : Keep ps e d) (hout : .out ∈ ps) (hevents : .events ∈ ps) (hrooms : .rooms ∈ ps) (hfuncs : .funcs ∈ ps) (hnet : .net ∈ ps) (htime : .time ∈ ps) (hlink : .link ∈ ps) (hrings : .rings ∈ ps) (hcores : .cores ∈ ps) (hsched : .sched ∈ ps) (hfuse : .fuse ∈ ps) (a0 a1) : Keep ps e (Dev.refuseLate a0 a1 d) := by
  unfold Dev.refuseLate
  repeat' first
    | with_reducible assumption
    | with_reducible refine Dev.finish_keep ?_ ‹_› ‹_› ‹_› ‹_› ‹_› _ _ _ _ _ _
    | with_reducible refine Dev.modCores_keep ?_ ‹_› _
    | with_reducible refine Dev.modTime_keep ?_ ‹_› _
    | with_reducible refine Dev.undoStrict_keep ?_ ‹_› ‹_› ‹_› ‹_› ‹_› ‹_› ‹_› ‹_› ‹_› _ _
    | (extract_lets +onlyGivenNames lv; (have hx : Keep ps e lv := ?_); (on_goal 1 => clear_value lv); on_goal 2 => subst lv)
    | (extract_lets +onlyGivenNames lv; clear_value lv)
    | extract_lets +onlyGivenNames lv
    | with_reducible refine Keep.ite ?_ ?_
    | split

theorem Dev.opAt_keep {ps : List Part} {e d : Dev} (h : Keep ps e d) (hfree : .free ∈ ps) (hout : .out ∈ ps) (hevents : .events ∈ ps) (hrooms : .rooms ∈ ps) (hfuncs : .funcs ∈ ps) (hnet : .net ∈ ps) (hcellar : .cellar ∈ ps) (hmedia : .media ∈ ps) (htime : .time ∈ ps) (hlink : .link ∈ ps) (hfabric : .fabric ∈ ps) (hrings : .rings ∈ ps) (hcores : .cores ∈ ps) (hsched : .sched ∈ ps) (hacq : .acq ∈ ps) (hfuse : .fuse ∈ ps) (hstrong : .strong ∈ ps) (hhub : .hub ∈ ps) (a0 a1 a3) : Keep ps e (Dev.opAt a0 a1 d a3) := by
  unfold Dev.opAt
  repeat' first
    | with_reducible assumption
    | with_reducible refine Dev.opEffect_keep ?_ ‹_› ‹_› ‹_› ‹_› ‹_› ‹_› ‹_› ‹_› ‹_› ‹_› ‹_› ‹_› ‹_› ‹_› ‹_› ‹_› ‹_› _ _ _
    | with_reducible refine Dev.refuseLate_keep ?_ ‹_› ‹_› ‹_› ‹_› ‹_› ‹_› ‹_› ‹_› ‹_› ‹_› ‹_› _ _
    | (extract_lets +onlyGivenNames lv; (have hx : Keep ps e lv := ?_); (on_goal 1 => clear_value lv); on_goal 2 => subst lv)
    | (extract_lets +onlyGivenNames lv; clear_value lv)
    | extract_lets +onlyGivenNames lv
    | with_reducible refine Keep.ite ?_ ?_
    | split

theorem Dev.opsAtBoundary_keep {ps : List Part} {e d : Dev} (h : Keep ps e d) (hfree : .free ∈ ps) (hout : .out ∈ ps) (hevents : .events ∈ ps) (hrooms : .rooms ∈ ps) (hfuncs : .funcs ∈ ps) (hnet : .net ∈ ps) (hcellar : .cellar ∈ ps) (hmedia : .media ∈ ps) (htime : .time ∈ ps) (hlink : .link ∈ ps) (hfabric : .fabric ∈ ps) (hrings : .rings ∈ ps) (hcores : .cores ∈ ps) (hsched : .sched ∈ ps) (hacq : .acq ∈ ps) (hfuse : .fuse ∈ ps) (hstrong : .strong ∈ ps) (hhub : .hub ∈ ps) (a1) : Keep ps e (Dev.opsAtBoundary d a1) := by
  unfold Dev.opsAtBoundary
  repeat' first
    | with_reducible assumption
    | with_reducible refine Dev.each_keep ?_ (fun x y hx => ?_)
    | with_reducible refine Dev.opAt_keep ?_ ‹_› ‹_› ‹_› ‹_› ‹_› ‹_› ‹_› ‹_› ‹_› ‹_› ‹_› ‹_› ‹_› ‹_› ‹_› ‹_› ‹_› ‹_› _ _ _
    | (extract_lets +onlyGivenNames lv; (have hx : Keep ps e lv := ?_); (on_goal 1 => clear_value lv); on_goal 2 => subst lv)
    | (extract_lets +onlyGivenNames lv; clear_value lv)
    | extract_lets +onlyGivenNames lv
    | with_reducible refine Keep.ite ?_ ?_
    | split

theorem Dev.portsLand_keep {ps : List Part} {e d : Dev} (h : Keep ps e d) (hrooms : .rooms ∈ ps) (hnet : .net ∈ ps) : Keep ps e (Dev.portsLand d) := by
  unfold Dev.portsLand
  repeat' first
    | with_reducible assumption
    | with_reducible refine Dev.each_keep ?_ (fun x y hx => ?_)
    | with_reducible refine Dev.hubSend_keep ?_ ‹_› ‹_› _ _ _ _ _
    | (extract_lets +onlyGivenNames lv; (have hx : Keep ps e lv := ?_); (on_goal 1 => clear_value lv); on_goal 2 => subst lv)
    | (extract_lets +onlyGivenNames lv; clear_value lv)
    | extract_lets +onlyGivenNames lv
    | with_reducible refine Keep.ite ?_ ?_
    | split

theorem Dev.queuesAtBoundary_keep {ps : List Part} {e d : Dev} (h : Keep ps e d) (hcellar : .cellar ∈ ps) : Keep ps e (Dev.queuesAtBoundary d) := by
  unfold Dev.queuesAtBoundary
  repeat' first
    | with_reducible assumption
    | (intro c hc; with_reducible exact hc)
    | (intro c hc; with_reducible exact Cellar.seal_wf hc _ _ _ _)
    | (intro c hc; with_reducible exact Cellar.mergeRaw_wf hc _ _ _)
    | (intro c hc; (try dsimp only [Cellar.count, Cellar.setRegion, Cellar.setKey, Cellar.loadKey, Cellar.decideWb]); with_reducible exact hc)
    | (intro c hc; (try dsimp only [Cellar.count, Cellar.setRegion, Cellar.setKey, Cellar.loadKey, Cellar.decideWb]); with_reducible exact Cellar.seal_wf hc _ _ _ _)
    | (intro c hc; (try dsimp only [Cellar.count, Cellar.setRegion, Cellar.setKey, Cellar.loadKey, Cellar.decideWb]); with_reducible exact Cellar.mergeRaw_wf hc _ _ _)
    | (intro c hc; (try dsimp only [Cellar.count, Cellar.setRegion, Cellar.setKey, Cellar.loadKey, Cellar.decideWb]); with_reducible exact Cellar.putMeta_wf hc _ _)
    | (intro c hc; (try dsimp only [Cellar.count, Cellar.setRegion, Cellar.setKey, Cellar.loadKey, Cellar.decideWb]); with_reducible exact Cellar.putRaw_wf hc _ _)
    | (intro c hc; (try dsimp only [Cellar.count, Cellar.setRegion, Cellar.setKey, Cellar.loadKey, Cellar.decideWb]); with_reducible exact Memory.wf_write _ _ _ hc)
    | (intro c hc; (try dsimp only [Cellar.count, Cellar.setRegion, Cellar.setKey, Cellar.loadKey, Cellar.decideWb]); with_reducible exact Memory.wf_writeN _ _ _ hc)
    | (intro c hc; (try dsimp only [Cellar.count, Cellar.setRegion, Cellar.setKey, Cellar.loadKey, Cellar.decideWb]); with_reducible exact Memory.wf_clearRange _ _ _ hc)
    | (intro c hc; (try dsimp only [Cellar.count, Cellar.setRegion, Cellar.setKey, Cellar.loadKey, Cellar.decideWb]); with_reducible exact Memory.wf_spans _ _ hc)
    | (intro c hc; (repeat' split) <;> with_reducible exact hc)
    | (intro c hc; dsimp only; split <;> exact hc)
    | (intro c hc; exact hc)
    | with_reducible refine Dev.modCellar_keep ?_ ‹_› _ ?_
    | (extract_lets +onlyGivenNames lv; (have hx : Keep ps e lv := ?_); (on_goal 1 => clear_value lv); on_goal 2 => subst lv)
    | (extract_lets +onlyGivenNames lv; clear_value lv)
    | extract_lets +onlyGivenNames lv
    | with_reducible refine Keep.ite ?_ ?_
    | split

theorem Dev.setNext_keep {ps : List Part} {e d : Dev} (h : Keep ps e d) (htime : .time ∈ ps) : Keep ps e (Dev.setNext d) := by
  unfold Dev.setNext
  repeat' first
    | with_reducible assumption
    | with_reducible refine Dev.modTime_keep ?_ ‹_› _
    | (extract_lets +onlyGivenNames lv; (have hx : Keep ps e lv := ?_); (on_goal 1 => clear_value lv); on_goal 2 => subst lv)
    | (extract_lets +onlyGivenNames lv; clear_value lv)
    | extract_lets +onlyGivenNames lv
    | with_reducible refine Keep.ite ?_ ?_
    | split

theorem Dev.beginBeat_keep {ps : List Part} {e d : Dev} (h : Keep ps e d) (hfree : .free ∈ ps) (hout : .out ∈ ps) (hevents : .events ∈ ps) (hrooms : .rooms ∈ ps) (hfuncs : .funcs ∈ ps) (hnet : .net ∈ ps) (hcellar : .cellar ∈ ps) (hmedia : .media ∈ ps) (htime : .time ∈ ps) (hlink : .link ∈ ps) (hfabric : .fabric ∈ ps) (hrings : .rings ∈ ps) (hcores : .cores ∈ ps) (hsched : .sched ∈ ps) (hacq : .acq ∈ ps) (hfuse : .fuse ∈ ps) (hstrong : .strong ∈ ps) (hhub : .hub ∈ ps) (a1 a2 a3) : Keep ps e (Dev.beginBeat d a1 a2 a3) := by
  unfold Dev.beginBeat
  repeat' first
    | with_reducible assumption
    | with_reducible refine Dev.attSnapshot_keep ?_ ‹_›
    | with_reducible refine Dev.changePeriod_keep ?_ ‹_› ‹_› ‹_› ‹_› ‹_› ‹_› ‹_› ‹_› ‹_›
    | with_reducible refine Dev.fabricAtBoundary_keep ?_ ‹_› ‹_› ‹_› ‹_› ‹_› ‹_›
    | with_reducible refine Dev.feedsAtBoundary_keep ?_ ‹_› ‹_› ‹_› ‹_› ‹_› ‹_› ‹_› ‹_› ‹_› _ _
    | with_reducible refine Dev.fuseAtBoundary_keep ?_ ‹_› ‹_› ‹_› ‹_›
    | with_reducible refine Dev.linkAtBoundary_keep ?_ ‹_› ‹_› ‹_› ‹_› ‹_› ‹_› ‹_› _
    | with_reducible refine Dev.opsAtBoundary_keep ?_ ‹_› ‹_› ‹_› ‹_› ‹_› ‹_› ‹_› ‹_› ‹_› ‹_› ‹_› ‹_› ‹_› ‹_› ‹_› ‹_› ‹_› ‹_› _
    | with_reducible refine Dev.portsLand_keep ?_ ‹_› ‹_›
    | with_reducible refine Dev.queuesAtBoundary_keep ?_ ‹_›
    | with_reducible refine Dev.setNext_keep ?_ ‹_›
    | (extract_lets +onlyGivenNames lv; (have hx : Keep ps e lv := ?_); (on_goal 1 => clear_value lv); on_goal 2 => subst lv)
    | (extract_lets +onlyGivenNames lv; clear_value lv)
    | extract_lets +onlyGivenNames lv
    | with_reducible refine Keep.ite ?_ ?_
    | split

theorem Dev.decideAll_keep {ps : List Part} {e d : Dev} (h : Keep ps e d) (hfree : .free ∈ ps) (hout : .out ∈ ps) (hevents : .events ∈ ps) (hfuncs : .funcs ∈ ps) (hnet : .net ∈ ps) (hcellar : .cellar ∈ ps) (hlink : .link ∈ ps) (hcores : .cores ∈ ps) (hstrong : .strong ∈ ps) (hhub : .hub ∈ ps) : Keep ps e (Dev.decideAll d) := by
  unfold Dev.decideAll
  repeat' first
    | with_reducible assumption
    | with_reducible refine Dev.each_keep ?_ (fun x y hx => ?_)
    | with_reducible refine Dev.tryDecide_keep ?_ ‹_› ‹_› ‹_› ‹_› ‹_› ‹_› ‹_› ‹_› ‹_› ‹_› _ _
    | (extract_lets +onlyGivenNames lv; (have hx : Keep ps e lv := ?_); (on_goal 1 => clear_value lv); on_goal 2 => subst lv)
    | (extract_lets +onlyGivenNames lv; clear_value lv)
    | extract_lets +onlyGivenNames lv
    | with_reducible refine Keep.ite ?_ ?_
    | split

theorem Dev.deliverOwn_keep {ps : List Part} {e d : Dev} (h : Keep ps e d) (hfree : .free ∈ ps) (hout : .out ∈ ps) (hevents : .events ∈ ps) (hrooms : .rooms ∈ ps) (hfuncs : .funcs ∈ ps) (hnet : .net ∈ ps) (hcellar : .cellar ∈ ps) (hlink : .link ∈ ps) (hrings : .rings ∈ ps) (hcores : .cores ∈ ps) (hsched : .sched ∈ ps) (hstrong : .strong ∈ ps) (hhub : .hub ∈ ps) : Keep ps e (Dev.deliverOwn d) := by
  unfold Dev.deliverOwn
  repeat' first
    | with_reducible assumption
    | with_reducible refine Dev.deliverFrame_keep ?_ ‹_› ‹_› ‹_› ‹_› ‹_› ‹_› ‹_› ‹_› ‹_› ‹_› ‹_› ‹_› ‹_› _ _
    | with_reducible refine Dev.each_keep ?_ (fun x y hx => ?_)
    | with_reducible refine Dev.modLink_keep ?_ ‹_› _
    | (extract_lets +onlyGivenNames lv; (have hx : Keep ps e lv := ?_); (on_goal 1 => clear_value lv); on_goal 2 => subst lv)
    | (extract_lets +onlyGivenNames lv; clear_value lv)
    | extract_lets +onlyGivenNames lv
    | with_reducible refine Keep.ite ?_ ?_
    | split

theorem Dev.hubApply_keep {ps : List Part} {e d : Dev} (h : Keep ps e d) (hfuncs : .funcs ∈ ps) (hcellar : .cellar ∈ ps) (a1) : Keep ps e (Dev.hubApply d a1) := by
  unfold Dev.hubApply
  repeat' first
    | with_reducible assumption
    | (intro c hc; with_reducible exact hc)
    | (intro c hc; with_reducible exact Cellar.seal_wf hc _ _ _ _)
    | (intro c hc; with_reducible exact Cellar.mergeRaw_wf hc _ _ _)
    | (intro c hc; (try dsimp only [Cellar.count, Cellar.setRegion, Cellar.setKey, Cellar.loadKey, Cellar.decideWb]); with_reducible exact hc)
    | (intro c hc; (try dsimp only [Cellar.count, Cellar.setRegion, Cellar.setKey, Cellar.loadKey, Cellar.decideWb]); with_reducible exact Cellar.seal_wf hc _ _ _ _)
    | (intro c hc; (try dsimp only [Cellar.count, Cellar.setRegion, Cellar.setKey, Cellar.loadKey, Cellar.decideWb]); with_reducible exact Cellar.mergeRaw_wf hc _ _ _)
    | (intro c hc; (try dsimp only [Cellar.count, Cellar.setRegion, Cellar.setKey, Cellar.loadKey, Cellar.decideWb]); with_reducible exact Cellar.putMeta_wf hc _ _)
    | (intro c hc; (try dsimp only [Cellar.count, Cellar.setRegion, Cellar.setKey, Cellar.loadKey, Cellar.decideWb]); with_reducible exact Cellar.putRaw_wf hc _ _)
    | (intro c hc; (try dsimp only [Cellar.count, Cellar.setRegion, Cellar.setKey, Cellar.loadKey, Cellar.decideWb]); with_reducible exact Memory.wf_write _ _ _ hc)
    | (intro c hc; (try dsimp only [Cellar.count, Cellar.setRegion, Cellar.setKey, Cellar.loadKey, Cellar.decideWb]); with_reducible exact Memory.wf_writeN _ _ _ hc)
    | (intro c hc; (try dsimp only [Cellar.count, Cellar.setRegion, Cellar.setKey, Cellar.loadKey, Cellar.decideWb]); with_reducible exact Memory.wf_clearRange _ _ _ hc)
    | (intro c hc; (try dsimp only [Cellar.count, Cellar.setRegion, Cellar.setKey, Cellar.loadKey, Cellar.decideWb]); with_reducible exact Memory.wf_spans _ _ hc)
    | (intro c hc; (repeat' split) <;> with_reducible exact hc)
    | (intro c hc; dsimp only; split <;> exact hc)
    | (intro c hc; exact hc)
    | with_reducible refine Dev.modCellar_keep ?_ ‹_› _ ?_
    | with_reducible refine Dev.modFunc_keep ?_ ‹_› _ _
    | (extract_lets +onlyGivenNames lv; (have hx : Keep ps e lv := ?_); (on_goal 1 => clear_value lv); on_goal 2 => subst lv)
    | (extract_lets +onlyGivenNames lv; clear_value lv)
    | extract_lets +onlyGivenNames lv
    | with_reducible refine Keep.ite ?_ ?_
    | split

theorem Dev.markSubst_keep {ps : List Part} {e d : Dev} (h : Keep ps e d) (hfabric : .fabric ∈ ps) (a1) : Keep ps e (Dev.markSubst d a1) := by
  unfold Dev.markSubst
  repeat' first
    | with_reducible assumption
    | with_reducible refine Dev.each_keep ?_ (fun x y hx => ?_)
    | with_reducible refine Dev.modHp_keep ?_ ‹_› _ _
    | (extract_lets +onlyGivenNames lv; (have hx : Keep ps e lv := ?_); (on_goal 1 => clear_value lv); on_goal 2 => subst lv)
    | (extract_lets +onlyGivenNames lv; clear_value lv)
    | extract_lets +onlyGivenNames lv
    | with_reducible refine Keep.ite ?_ ?_
    | split

theorem Dev.hubBoundary_keep {ps : List Part} {e d : Dev} (h : Keep ps e d) (hfuncs : .funcs ∈ ps) (hcellar : .cellar ∈ ps) (hfabric : .fabric ∈ ps) (a0 a2) : Keep ps e (Dev.hubBoundary a0 d a2) := by
  unfold Dev.hubBoundary
  repeat' first
    | with_reducible assumption
    | with_reducible refine Dev.hubApply_keep ?_ ‹_› ‹_› _
    | with_reducible refine Dev.markSubst_keep ?_ ‹_› _
    | with_reducible refine Dev.modFunc_keep ?_ ‹_› _ _
    | (extract_lets +onlyGivenNames lv; (have hx : Keep ps e lv := ?_); (on_goal 1 => clear_value lv); on_goal 2 => subst lv)
    | (extract_lets +onlyGivenNames lv; clear_value lv)
    | extract_lets +onlyGivenNames lv
    | with_reducible refine Keep.ite ?_ ?_
    | split

theorem Dev.linksAtBoundary_keep {ps : List Part} {e d : Dev} (h : Keep ps e d) (hnet : .net ∈ ps) : Keep ps e (Dev.linksAtBoundary d) := by
  unfold Dev.linksAtBoundary
  repeat' first
    | with_reducible assumption
    | with_reducible refine Dev.modNet_keep ?_ ‹_› _
    | (extract_lets +onlyGivenNames lv; (have hx : Keep ps e lv := ?_); (on_goal 1 => clear_value lv); on_goal 2 => subst lv)
    | (extract_lets +onlyGivenNames lv; clear_value lv)
    | extract_lets +onlyGivenNames lv
    | with_reducible refine Keep.ite ?_ ?_
    | split

theorem Dev.modMigration_keep {ps : List Part} {e d : Dev} (h : Keep ps e d) (hfuncs : .funcs ∈ ps) (a1 a2) : Keep ps e (Dev.modMigration d a1 a2) := by
  unfold Dev.modMigration
  repeat' first
    | with_reducible assumption
    | with_reducible refine Dev.modFunc_keep ?_ ‹_› _ _
    | (extract_lets +onlyGivenNames lv; (have hx : Keep ps e lv := ?_); (on_goal 1 => clear_value lv); on_goal 2 => subst lv)
    | (extract_lets +onlyGivenNames lv; clear_value lv)
    | extract_lets +onlyGivenNames lv
    | with_reducible refine Keep.ite ?_ ?_
    | split

theorem Dev.settleSeed_keep {ps : List Part} {e d : Dev} (h : Keep ps e d) (hrooms : .rooms ∈ ps) (hfuncs : .funcs ∈ ps) (a0 a1 a2 a3) : Keep ps e (Dev.settleSeed a0 a1 a2 a3 d) := by
  induction a3 generalizing d with
  | zero => exact h
  | succ n ih =>
    unfold Dev.settleSeed
    split
    · exact h
    · split
      · exact h
      · exact ih (Dev.modMigration_keep (Dev.modRoom_keep h ‹_› _ _) ‹_› _ _)

theorem Dev.beginCompare_keep {ps : List Part} {e d : Dev} (h : Keep ps e d) (hfree : .free ∈ ps) (hevents : .events ∈ ps) (hrooms : .rooms ∈ ps) (hfuncs : .funcs ∈ ps) (hnet : .net ∈ ps) (hcellar : .cellar ∈ ps) (hcores : .cores ∈ ps) (hstrong : .strong ∈ ps) (a1 a2 a3) : Keep ps e (Dev.beginCompare d a1 a2 a3) := by
  unfold Dev.beginCompare
  repeat' first
    | with_reducible assumption
    | with_reducible refine Dev.each_keep ?_ (fun x y hx => ?_)
    | with_reducible refine Dev.modMigration_keep ?_ ‹_› _ _
    | with_reducible refine Dev.modRoom_keep ?_ ‹_› _ _
    | with_reducible refine Dev.passStart_keep ?_ ‹_› ‹_› ‹_› ‹_› ‹_› ‹_› ‹_› _
    | with_reducible refine Dev.settleSeed_keep ?_ ‹_› ‹_› _ _ _ _
    | (extract_lets +onlyGivenNames lv; (have hx : Keep ps e lv := ?_); (on_goal 1 => clear_value lv); on_goal 2 => subst lv)
    | (extract_lets +onlyGivenNames lv; clear_value lv)
    | extract_lets +onlyGivenNames lv
    | with_reducible refine Keep.ite ?_ ?_
    | split

theorem Dev.dropMigration_keep {ps : List Part} {e d : Dev} (h : Keep ps e d) (hout : .out ∈ ps) (hevents : .events ∈ ps) (hrooms : .rooms ∈ ps) (hfuncs : .funcs ∈ ps) (hnet : .net ∈ ps) (hlink : .link ∈ ps) (hrings : .rings ∈ ps) (hsched : .sched ∈ ps) (hfuse : .fuse ∈ ps) (a1 a2 a3) : Keep ps e (Dev.dropMigration d a1 a2 a3) := by
  unfold Dev.dropMigration
  repeat' first
    | with_reducible assumption
    | with_reducible refine Dev.clearRooms_keep ?_ ‹_› ‹_› _
    | with_reducible refine Dev.finish_keep ?_ ‹_› ‹_› ‹_› ‹_› ‹_› _ _ _ _ _ _
    | with_reducible refine Dev.modFunc_keep ?_ ‹_› _ _
    | with_reducible refine Dev.modNet_keep ?_ ‹_› _
    | (extract_lets +onlyGivenNames lv; (have hx : Keep ps e lv := ?_); (on_goal 1 => clear_value lv); on_goal 2 => subst lv)
    | (extract_lets +onlyGivenNames lv; clear_value lv)
    | extract_lets +onlyGivenNames lv
    | with_reducible refine Keep.ite ?_ ?_
    | split

theorem Dev.switchMigration_keep {ps : List Part} {e d : Dev} (h : Keep ps e d) (hout : .out ∈ ps) (hevents : .events ∈ ps) (hrooms : .rooms ∈ ps) (hfuncs : .funcs ∈ ps) (hnet : .net ∈ ps) (hlink : .link ∈ ps) (hloader : .loader ∈ ps) (hrings : .rings ∈ ps) (hsched : .sched ∈ ps) (hfuse : .fuse ∈ ps) (a1 a2 a3) : Keep ps e (Dev.switchMigration d a1 a2 a3) := by
  unfold Dev.switchMigration
  repeat' first
    | with_reducible assumption
    | with_reducible refine Dev.clearRooms_keep ?_ ‹_› ‹_› _
    | with_reducible refine Dev.commitPoint_keep ?_ ‹_› _
    | with_reducible refine Dev.each_keep ?_ (fun x y hx => ?_)
    | with_reducible refine Dev.finish_keep ?_ ‹_› ‹_› ‹_› ‹_› ‹_› _ _ _ _ _ _
    | with_reducible refine Dev.modFunc_keep ?_ ‹_› _ _
    | with_reducible refine Dev.modLoader_keep ?_ ‹_› _
    | with_reducible refine Dev.modNet_keep ?_ ‹_› _
    | with_reducible refine Dev.modRoom_keep ?_ ‹_› _ _
    | (extract_lets +onlyGivenNames lv; (have hx : Keep ps e lv := ?_); (on_goal 1 => clear_value lv); on_goal 2 => subst lv)
    | (extract_lets +onlyGivenNames lv; clear_value lv)
    | extract_lets +onlyGivenNames lv
    | with_reducible refine Keep.ite ?_ ?_
    | split

theorem Dev.stepMigration_keep {ps : List Part} {e d : Dev} (h : Keep ps e d) (hfree : .free ∈ ps) (hout : .out ∈ ps) (hevents : .events ∈ ps) (hrooms : .rooms ∈ ps) (hfuncs : .funcs ∈ ps) (hnet : .net ∈ ps) (hcellar : .cellar ∈ ps) (hlink : .link ∈ ps) (hloader : .loader ∈ ps) (hrings : .rings ∈ ps) (hcores : .cores ∈ ps) (hsched : .sched ∈ ps) (hfuse : .fuse ∈ ps) (hstrong : .strong ∈ ps) (a1 a2 a3 a4) : Keep ps e (Dev.stepMigration d a1 a2 a3 a4) := by
  unfold Dev.stepMigration
  repeat' first
    | with_reducible assumption
    | with_reducible refine Dev.beginCompare_keep ?_ ‹_› ‹_› ‹_› ‹_› ‹_› ‹_› ‹_› ‹_› _ _ _
    | with_reducible refine Dev.dropMigration_keep ?_ ‹_› ‹_› ‹_› ‹_› ‹_› ‹_› ‹_› ‹_› ‹_› _ _ _
    | with_reducible refine Dev.each_keep ?_ (fun x y hx => ?_)
    | with_reducible refine Dev.modMigration_keep ?_ ‹_› _ _
    | with_reducible refine Dev.modRoom_keep ?_ ‹_› _ _
    | with_reducible refine Dev.switchMigration_keep ?_ ‹_› ‹_› ‹_› ‹_› ‹_› ‹_› ‹_› ‹_› ‹_› ‹_› _ _ _
    | (extract_lets +onlyGivenNames lv; (have hx : Keep ps e lv := ?_); (on_goal 1 => clear_value lv); on_goal 2 => subst lv)
    | (extract_lets +onlyGivenNames lv; (have hfn : ∀ y, Keep ps e y → Keep ps e (lv y) := ?_); (on_goal 1 => clear_value lv); on_goal 2 => (intro y hy; subst lv; beta_reduce))
    | (extract_lets +onlyGivenNames lv; (have hfn : ∀ y, Keep ps e (Prod.fst y) → Keep ps e (lv y) := ?_); (on_goal 1 => clear_value lv); on_goal 2 => (intro y hy; subst lv; beta_reduce))
    | (extract_lets +onlyGivenNames lv; (have hfn : ∀ y, Keep ps e (lv y) := ?_); (on_goal 1 => clear_value lv); on_goal 2 => (intro y; subst lv; beta_reduce))
    | (extract_lets +onlyGivenNames lv; clear_value lv)
    | extract_lets +onlyGivenNames lv
    | with_reducible exact hfn _
    | with_reducible exact hfn _ _
    | with_reducible refine hfn _ ?_
    | with_reducible refine hfn _ _ ?_
    | with_reducible refine hfn _ _ _ ?_
    | with_reducible refine Keep.ite ?_ ?_
    | split

theorem Dev.migrationsAtBoundary_keep {ps : List Part} {e d : Dev} (h : Keep ps e d) (hfree : .free ∈ ps) (hout : .out ∈ ps) (hevents : .events ∈ ps) (hrooms : .rooms ∈ ps) (hfuncs : .funcs ∈ ps) (hnet : .net ∈ ps) (hcellar : .cellar ∈ ps) (hlink : .link ∈ ps) (hloader : .loader ∈ ps) (hrings : .rings ∈ ps) (hcores : .cores ∈ ps) (hsched : .sched ∈ ps) (hfuse : .fuse ∈ ps) (hstrong : .strong ∈ ps) (a1 a2) : Keep ps e (Dev.migrationsAtBoundary d a1 a2) := by
  unfold Dev.migrationsAtBoundary
  repeat' first
    | with_reducible assumption
    | with_reducible refine Dev.each_keep ?_ (fun x y hx => ?_)
    | with_reducible refine Dev.stepMigration_keep ?_ ‹_› ‹_› ‹_› ‹_› ‹_› ‹_› ‹_› ‹_› ‹_› ‹_› ‹_› ‹_› ‹_› ‹_› _ _ _ _
    | (extract_lets +onlyGivenNames lv; (have hx : Keep ps e lv := ?_); (on_goal 1 => clear_value lv); on_goal 2 => subst lv)
    | (extract_lets +onlyGivenNames lv; clear_value lv)
    | extract_lets +onlyGivenNames lv
    | with_reducible refine Keep.ite ?_ ?_
    | split

theorem Dev.roomBoundary_keep {ps : List Part} {e d : Dev} (h : Keep ps e d) (hfree : .free ∈ ps) (hevents : .events ∈ ps) (hrooms : .rooms ∈ ps) (hnet : .net ∈ ps) (hcellar : .cellar ∈ ps) (hcores : .cores ∈ ps) (hstrong : .strong ∈ ps) (a0 a2) : Keep ps e (Dev.roomBoundary a0 d a2) := by
  unfold Dev.roomBoundary
  repeat' first
    | with_reducible assumption
    | with_reducible refine Dev.setRoom_keep ?_ ‹_› _ _
    | with_reducible refine Dev.trace_keep ?_ ‹_› ‹_› ‹_› ‹_› ‹_› ‹_› _ _ _ _ _ _
    | (extract_lets +onlyGivenNames lv; (have hx : Keep ps e lv := ?_); (on_goal 1 => clear_value lv); on_goal 2 => subst lv)
    | (extract_lets +onlyGivenNames lv; clear_value lv)
    | extract_lets +onlyGivenNames lv
    | with_reducible refine Keep.ite ?_ ?_
    | split

theorem Dev.endBeat_keep {ps : List Part} {e d : Dev} (h : Keep ps e d) (hfree : .free ∈ ps) (hout : .out ∈ ps) (hevents : .events ∈ ps) (hrooms : .rooms ∈ ps) (hfuncs : .funcs ∈ ps) (hnet : .net ∈ ps) (hcellar : .cellar ∈ ps) (hlink : .link ∈ ps) (hfabric : .fabric ∈ ps) (hloader : .loader ∈ ps) (hrings : .rings ∈ ps) (hcores : .cores ∈ ps) (hsched : .sched ∈ ps) (hfuse : .fuse ∈ ps) (hstrong : .strong ∈ ps) (a1) : Keep ps e (Dev.endBeat d a1) := by
  unfold Dev.endBeat
  repeat' first
    | with_reducible assumption
    | (intro c hc; with_reducible exact hc)
    | (intro c hc; with_reducible exact Cellar.seal_wf hc _ _ _ _)
    | (intro c hc; with_reducible exact Cellar.mergeRaw_wf hc _ _ _)
    | (intro c hc; (try dsimp only [Cellar.count, Cellar.setRegion, Cellar.setKey, Cellar.loadKey, Cellar.decideWb]); with_reducible exact hc)
    | (intro c hc; (try dsimp only [Cellar.count, Cellar.setRegion, Cellar.setKey, Cellar.loadKey, Cellar.decideWb]); with_reducible exact Cellar.seal_wf hc _ _ _ _)
    | (intro c hc; (try dsimp only [Cellar.count, Cellar.setRegion, Cellar.setKey, Cellar.loadKey, Cellar.decideWb]); with_reducible exact Cellar.mergeRaw_wf hc _ _ _)
    | (intro c hc; (try dsimp only [Cellar.count, Cellar.setRegion, Cellar.setKey, Cellar.loadKey, Cellar.decideWb]); with_reducible exact Cellar.putMeta_wf hc _ _)
    | (intro c hc; (try dsimp only [Cellar.count, Cellar.setRegion, Cellar.setKey, Cellar.loadKey, Cellar.decideWb]); with_reducible exact Cellar.putRaw_wf hc _ _)
    | (intro c hc; (try dsimp only [Cellar.count, Cellar.setRegion, Cellar.setKey, Cellar.loadKey, Cellar.decideWb]); with_reducible exact Memory.wf_write _ _ _ hc)
    | (intro c hc; (try dsimp only [Cellar.count, Cellar.setRegion, Cellar.setKey, Cellar.loadKey, Cellar.decideWb]); with_reducible exact Memory.wf_writeN _ _ _ hc)
    | (intro c hc; (try dsimp only [Cellar.count, Cellar.setRegion, Cellar.setKey, Cellar.loadKey, Cellar.decideWb]); with_reducible exact Memory.wf_clearRange _ _ _ hc)
    | (intro c hc; (try dsimp only [Cellar.count, Cellar.setRegion, Cellar.setKey, Cellar.loadKey, Cellar.decideWb]); with_reducible exact Memory.wf_spans _ _ hc)
    | (intro c hc; (repeat' split) <;> with_reducible exact hc)
    | (intro c hc; dsimp only; split <;> exact hc)
    | (intro c hc; exact hc)
    | with_reducible refine Dev.each_keep ?_ (fun x y hx => ?_)
    | with_reducible refine Dev.hubBoundary_keep ?_ ‹_› ‹_› ‹_› _ _
    | with_reducible refine Dev.linksAtBoundary_keep ?_ ‹_›
    | with_reducible refine Dev.migrationsAtBoundary_keep ?_ ‹_› ‹_› ‹_› ‹_› ‹_› ‹_› ‹_› ‹_› ‹_› ‹_› ‹_› ‹_› ‹_› ‹_› _ _
    | with_reducible refine Dev.modCellar_keep ?_ ‹_› _ ?_
    | with_reducible refine Dev.putFuncs_keep ?_ ‹_› _
    | with_reducible refine Dev.roomBoundary_keep ?_ ‹_› ‹_› ‹_› ‹_› ‹_› ‹_› ‹_› _ _
    | (extract_lets +onlyGivenNames lv; (have hx : Keep ps e lv := ?_); (on_goal 1 => clear_value lv); on_goal 2 => subst lv)
    | (extract_lets +onlyGivenNames lv; clear_value lv)
    | extract_lets +onlyGivenNames lv
    | with_reducible refine Keep.ite ?_ ?_
    | split

theorem Dev.warmEnd_keep {ps : List Part} {e d : Dev} (h : Keep ps e d) (hout : .out ∈ ps) (hevents : .events ∈ ps) (hlink : .link ∈ ps) (hpower : .power ∈ ps) : Keep ps e (Dev.warmEnd d) := by
  unfold Dev.warmEnd
  repeat' first
    | with_reducible assumption
    | with_reducible refine Dev.each_keep ?_ (fun x y hx => ?_)
    | with_reducible refine Dev.laneStart_keep ?_ ‹_› ‹_› ‹_› _
    | with_reducible refine Dev.putPower_keep ?_ ‹_› _
    | (extract_lets +onlyGivenNames lv; (have hx : Keep ps e lv := ?_); (on_goal 1 => clear_value lv); on_goal 2 => subst lv)
    | (extract_lets +onlyGivenNames lv; clear_value lv)
    | extract_lets +onlyGivenNames lv
    | with_reducible refine Keep.ite ?_ ?_
    | split

theorem Dev.startAgain_keep {ps : List Part} {e d : Dev} (h : Keep ps e d) (hfree : .free ∈ ps) (hout : .out ∈ ps) (hevents : .events ∈ ps) (hrooms : .rooms ∈ ps) (hnet : .net ∈ ps) (hcellar : .cellar ∈ ps) (hlink : .link ∈ ps) (hcores : .cores ∈ ps) (hstrong : .strong ∈ ps) (hpower : .power ∈ ps) : Keep ps e (Dev.startAgain d) := by
  unfold Dev.startAgain
  repeat' first
    | with_reducible assumption
    | with_reducible refine Dev.each_keep ?_ (fun x y hx => ?_)
    | with_reducible refine Dev.modRoom_keep ?_ ‹_› _ _
    | with_reducible refine Dev.passStart_keep ?_ ‹_› ‹_› ‹_› ‹_› ‹_› ‹_› ‹_› _
    | with_reducible refine Dev.warmEnd_keep ?_ ‹_› ‹_› ‹_› ‹_›
    | (extract_lets +onlyGivenNames lv; (have hx : Keep ps e lv := ?_); (on_goal 1 => clear_value lv); on_goal 2 => subst lv)
    | (extract_lets +onlyGivenNames lv; clear_value lv)
    | extract_lets +onlyGivenNames lv
    | with_reducible refine Keep.ite ?_ ?_
    | split

theorem Dev.beatBoundary_keep {ps : List Part} {e d : Dev} (h : Keep ps e d) (hnow : .now ∈ ps) (hfree : .free ∈ ps) (hout : .out ∈ ps) (hevents : .events ∈ ps) (hrooms : .rooms ∈ ps) (hfuncs : .funcs ∈ ps) (hnet : .net ∈ ps) (hcellar : .cellar ∈ ps) (hmedia : .media ∈ ps) (htime : .time ∈ ps) (hlink : .link ∈ ps) (hfabric : .fabric ∈ ps) (hloader : .loader ∈ ps) (hrings : .rings ∈ ps) (hcores : .cores ∈ ps) (hsched : .sched ∈ ps) (hacq : .acq ∈ ps) (hfuse : .fuse ∈ ps) (hstrong : .strong ∈ ps) (hhub : .hub ∈ ps) (hpower : .power ∈ ps) : Keep ps e (Dev.beatBoundary d) := by
  unfold Dev.beatBoundary
  repeat' first
    | with_reducible assumption
    | with_reducible refine Dev.attSnapshot_keep ?_ ‹_›
    | with_reducible refine Dev.beginBeat_keep ?_ ‹_› ‹_› ‹_› ‹_› ‹_› ‹_› ‹_› ‹_› ‹_› ‹_› ‹_› ‹_› ‹_› ‹_› ‹_› ‹_› ‹_› ‹_› _ _ _
    | with_reducible refine Dev.changePeriod_keep ?_ ‹_› ‹_› ‹_› ‹_› ‹_› ‹_› ‹_› ‹_› ‹_›
    | with_reducible refine Dev.decideAll_keep ?_ ‹_› ‹_› ‹_› ‹_› ‹_› ‹_› ‹_› ‹_› ‹_› ‹_›
    | with_reducible refine Dev.deliverOwn_keep ?_ ‹_› ‹_› ‹_› ‹_› ‹_› ‹_› ‹_› ‹_› ‹_› ‹_› ‹_› ‹_› ‹_›
    | with_reducible refine Dev.endBeat_keep ?_ ‹_› ‹_› ‹_› ‹_› ‹_› ‹_› ‹_› ‹_› ‹_› ‹_› ‹_› ‹_› ‹_› ‹_› ‹_› _
    | with_reducible refine Dev.modTime_keep ?_ ‹_› _
    | with_reducible refine Dev.putFuncs_keep ?_ ‹_› _
    | with_reducible refine Dev.reach_keep ?_ ‹_› _
    | with_reducible refine Dev.setNext_keep ?_ ‹_›
    | with_reducible refine Dev.startAgain_keep ?_ ‹_› ‹_› ‹_› ‹_› ‹_› ‹_› ‹_› ‹_› ‹_› ‹_›
    | with_reducible refine Dev.warmHalt_keep ?_ ‹_› ‹_› ‹_› ‹_› ‹_› ‹_› ‹_› ‹_› ‹_› ‹_› ‹_› ‹_› ‹_› ‹_› ‹_› ‹_› ‹_› ‹_› ‹_› ‹_›
    | (extract_lets +onlyGivenNames lv; (have hx : Keep ps e lv := ?_); (on_goal 1 => clear_value lv); on_goal 2 => subst lv)
    | (extract_lets +onlyGivenNames lv; clear_value lv)
    | extract_lets +onlyGivenNames lv
    | with_reducible refine Keep.ite ?_ ?_
    | split

theorem Dev.countTime_keep {ps : List Part} {e d : Dev} (h : Keep ps e d) (htime : .time ∈ ps) (a1) : Keep ps e (Dev.countTime d a1) := by
  unfold Dev.countTime
  repeat' first
    | with_reducible assumption
    | with_reducible refine Dev.modTime_keep ?_ ‹_› _
    | (extract_lets +onlyGivenNames lv; (have hx : Keep ps e lv := ?_); (on_goal 1 => clear_value lv); on_goal 2 => subst lv)
    | (extract_lets +onlyGivenNames lv; clear_value lv)
    | extract_lets +onlyGivenNames lv
    | with_reducible refine Keep.ite ?_ ?_
    | split

theorem Dev.setIncr_keep {ps : List Part} {e d : Dev} (h : Keep ps e d) (hevents : .events ∈ ps) (htime : .time ∈ ps) (a1) : Keep ps e (Dev.setIncr d a1) := by
  unfold Dev.setIncr
  repeat' first
    | with_reducible assumption
    | with_reducible refine Dev.countTime_keep ?_ ‹_› _
    | with_reducible refine Dev.modTime_keep ?_ ‹_› _
    | with_reducible refine Dev.raise_keep ?_ ‹_› _ _
    | (extract_lets +onlyGivenNames lv; (have hx : Keep ps e lv := ?_); (on_goal 1 => clear_value lv); on_goal 2 => subst lv)
    | (extract_lets +onlyGivenNames lv; clear_value lv)
    | extract_lets +onlyGivenNames lv
    | with_reducible refine Keep.ite ?_ ?_
    | split

theorem Rings.windowsOk_moved {r : Rings} (h : r.windowsOk) (mv : Instant → Instant) : (r.moved mv).windowsOk := by
  refine ⟨Tbl.wf_mapAll _ _ _ h.1, fun p hp => ?_⟩
  obtain ⟨_, q, hq, rfl⟩ := Tbl.mem_mapAll _ _ _ _ hp
  have hs : ((q.2.window.map fun e => { e with ready := e.ready.map mv }).map fun e => e.slot) = q.2.window.map fun e => e.slot := by simp [List.map_map, Function.comp_def]
  obtain ⟨hk, hw⟩ := h.2 q hq
  refine ⟨hk, ?_, fun e he => ?_⟩
  · show ((q.2.window.map fun e => { e with ready := e.ready.map mv }).map fun e => e.slot).Nodup
    rw [hs]; exact hw.1
  · obtain ⟨y, hy, rfl⟩ := List.mem_map.1 (show e ∈ q.2.window.map fun e => { e with ready := e.ready.map mv } from he)
    exact hw.2 y hy

theorem Dev.moveTimes_keep {ps : List Part} {e d : Dev} (h : Keep ps e d) (hcellar : .cellar ∈ ps) (hmedia : .media ∈ ps) (htime : .time ∈ ps) (hlink : .link ∈ ps) (hfabric : .fabric ∈ ps) (hloader : .loader ∈ ps) (hrings : .rings ∈ ps) (hcores : .cores ∈ ps) (hstrong : .strong ∈ ps) (hpower : .power ∈ ps) (a1) : Keep ps e (Dev.moveTimes d a1) :=
  Keep.upd_many10 h ‹_› ‹_› ‹_› ‹_› ‹_› ‹_› ‹_› ‹_› ‹_› ‹_› (fun x => x) (StrongKept.same rfl rfl rfl rfl rfl rfl rfl rfl rfl) (fun x => Rings.windowsOk_moved x _)

theorem Dev.putNow_keep {ps : List Part} {e d : Dev} (h : Keep ps e d) (hnow : .now ∈ ps) (a1) : Keep ps e (Dev.putNow d a1) := by
  unfold Dev.putNow
  exact Keep.upd_now h ‹_›

theorem Dev.stepEgress_keep {ps : List Part} {e d : Dev} (h : Keep ps e d) (hmedia : .media ∈ ps) (a0 a2) : Keep ps e (Dev.stepEgress a0 d a2) := by
  unfold Dev.stepEgress
  repeat' first
    | with_reducible assumption
    | with_reducible refine Dev.setEgr_keep ?_ ‹_› _ _
    | with_reducible refine Dev.setFlow_keep ?_ ‹_› _ _
    | (extract_lets +onlyGivenNames lv; (have hx : Keep ps e lv := ?_); (on_goal 1 => clear_value lv); on_goal 2 => subst lv)
    | (extract_lets +onlyGivenNames lv; clear_value lv)
    | extract_lets +onlyGivenNames lv
    | with_reducible refine Keep.ite ?_ ?_
    | split

theorem Dev.stepTime_keep {ps : List Part} {e d : Dev} (h : Keep ps e d) (hnow : .now ∈ ps) (hevents : .events ∈ ps) (hcellar : .cellar ∈ ps) (hmedia : .media ∈ ps) (htime : .time ∈ ps) (hlink : .link ∈ ps) (hfabric : .fabric ∈ ps) (hloader : .loader ∈ ps) (hrings : .rings ∈ ps) (hcores : .cores ∈ ps) (hstrong : .strong ∈ ps) (hpower : .power ∈ ps) (a1) : Keep ps e (Dev.stepTime d a1) := by
  unfold Dev.stepTime
  repeat' first
    | with_reducible assumption
    | with_reducible refine Dev.each_keep ?_ (fun x y hx => ?_)
    | with_reducible refine Dev.moveTimes_keep ?_ ‹_› ‹_› ‹_› ‹_› ‹_› ‹_› ‹_› ‹_› ‹_› ‹_› _
    | with_reducible refine Dev.putNow_keep ?_ ‹_› _
    | with_reducible refine Dev.raise_keep ?_ ‹_› _ _
    | with_reducible refine Dev.stepEgress_keep ?_ ‹_› _ _
    | (extract_lets +onlyGivenNames lv; (have hx : Keep ps e lv := ?_); (on_goal 1 => clear_value lv); on_goal 2 => subst lv)
    | (extract_lets +onlyGivenNames lv; clear_value lv)
    | extract_lets +onlyGivenNames lv
    | with_reducible refine Keep.ite ?_ ?_
    | split

theorem Dev.servoMeasurement_keep {ps : List Part} {e d : Dev} (h : Keep ps e d) (hnow : .now ∈ ps) (hfree : .free ∈ ps) (hevents : .events ∈ ps) (hcellar : .cellar ∈ ps) (hmedia : .media ∈ ps) (htime : .time ∈ ps) (hlink : .link ∈ ps) (hfabric : .fabric ∈ ps) (hloader : .loader ∈ ps) (hrings : .rings ∈ ps) (hcores : .cores ∈ ps) (hstrong : .strong ∈ ps) (hpower : .power ∈ ps) (a0) : Keep ps e (Dev.servoMeasurement a0 d) := by
  unfold Dev.servoMeasurement
  repeat' first
    | with_reducible assumption
    | with_reducible refine Dev.armStart_keep ?_ ‹_›
    | with_reducible refine Dev.countTime_keep ?_ ‹_› _
    | with_reducible refine Dev.holdover_keep ?_ ‹_› ‹_›
    | with_reducible refine Dev.modTime_keep ?_ ‹_› _
    | with_reducible refine Dev.raise_keep ?_ ‹_› _ _
    | with_reducible refine Dev.setIncr_keep ?_ ‹_› ‹_› _
    | with_reducible refine Dev.setServo_keep ?_ ‹_› ‹_› _
    | with_reducible refine Dev.stepTime_keep ?_ ‹_› ‹_› ‹_› ‹_› ‹_› ‹_› ‹_› ‹_› ‹_› ‹_› ‹_› ‹_› _
    | with_reducible refine Dev.take_keep ?_ ‹_› _
    | (extract_lets +onlyGivenNames lv; (have hx : Keep ps e lv := ?_); (on_goal 1 => clear_value lv); on_goal 2 => subst lv)
    | (extract_lets +onlyGivenNames lv; clear_value lv)
    | extract_lets +onlyGivenNames lv
    | with_reducible refine Keep.ite ?_ ?_
    | split

theorem Dev.beatMarkerRx_keep {ps : List Part} {e d : Dev} (h : Keep ps e d) (hnow : .now ∈ ps) (hfree : .free ∈ ps) (hevents : .events ∈ ps) (hcellar : .cellar ∈ ps) (hmedia : .media ∈ ps) (htime : .time ∈ ps) (hlink : .link ∈ ps) (hfabric : .fabric ∈ ps) (hloader : .loader ∈ ps) (hrings : .rings ∈ ps) (hcores : .cores ∈ ps) (hstrong : .strong ∈ ps) (hpower : .power ∈ ps) (a0 a1) : Keep ps e (Dev.beatMarkerRx a0 a1 d) := by
  unfold Dev.beatMarkerRx
  repeat' first
    | with_reducible assumption
    | with_reducible refine Dev.modLink_keep ?_ ‹_› _
    | with_reducible refine Dev.modTime_keep ?_ ‹_› _
    | with_reducible refine Dev.raise_keep ?_ ‹_› _ _
    | with_reducible refine Dev.servoMeasurement_keep ?_ ‹_› ‹_› ‹_› ‹_› ‹_› ‹_› ‹_› ‹_› ‹_› ‹_› ‹_› ‹_› ‹_› _
    | with_reducible refine Dev.setBd_keep ?_ ‹_› _ _
    | (extract_lets +onlyGivenNames lv; (have hx : Keep ps e lv := ?_); (on_goal 1 => clear_value lv); on_goal 2 => subst lv)
    | (extract_lets +onlyGivenNames lv; clear_value lv)
    | extract_lets +onlyGivenNames lv
    | with_reducible refine Keep.ite ?_ ?_
    | split

theorem Dev.beatSlip_keep {ps : List Part} {e d : Dev} (h : Keep ps e d) (htime : .time ∈ ps) (hrings : .rings ∈ ps) (a0) : Keep ps e (Dev.beatSlip a0 d) := by
  unfold Dev.beatSlip
  repeat' first
    | with_reducible assumption
    | with_reducible refine Dev.modTime_keep ?_ ‹_› _
    | with_reducible refine Dev.runOp_keep ?_ ‹_› (fun x y hx => ?_)
    | (extract_lets +onlyGivenNames lv; (have hx : Keep ps e lv := ?_); (on_goal 1 => clear_value lv); on_goal 2 => subst lv)
    | (extract_lets +onlyGivenNames lv; clear_value lv)
    | extract_lets +onlyGivenNames lv
    | with_reducible refine Keep.ite ?_ ?_
    | split

theorem Dev.releaseHeld_keep {ps : List Part} {e d : Dev} (h : Keep ps e d) (hcores : .cores ∈ ps) (hsched : .sched ∈ ps) : Keep ps e (Dev.releaseHeld d) := by
  unfold Dev.releaseHeld
  repeat' first
    | with_reducible assumption
    | with_reducible refine Dev.dispatchAll_keep ?_ ‹_› ‹_›
    | with_reducible refine Dev.each_keep ?_ (fun x y hx => ?_)
    | with_reducible refine Dev.modSched_keep ?_ ‹_› _
    | with_reducible refine Dev.preempt_keep ?_ ‹_› ‹_› _
    | (extract_lets +onlyGivenNames lv; (have hx : Keep ps e lv := ?_); (on_goal 1 => clear_value lv); on_goal 2 => subst lv)
    | (extract_lets +onlyGivenNames lv; clear_value lv)
    | extract_lets +onlyGivenNames lv
    | with_reducible refine Keep.ite ?_ ?_
    | split

end Sys2Proof.Machine
end

