-- ==== Sys2Proof/Laws/KeepFlow.lean ====
section
/-! SUPPORT. What each operation of the device can change (3 of 4): one lemma `Dev.<operation>_keep` for each operation. -/

set_option linter.unusedVariables false
set_option linter.tactic.unusedName false
set_option linter.unusedTactic false
set_option linter.unreachableTactic false

namespace Sys2Proof.Machine
open Sys2Proof

theorem Dev.beatStart_keep {ps : List Part} {e d : Dev} (h : Keep ps e d) (hnow : .now ∈ ps) (hfree : .free ∈ ps) (hout : .out ∈ ps) (hevents : .events ∈ ps) (hrooms : .rooms ∈ ps) (hfuncs : .funcs ∈ ps) (hnet : .net ∈ ps) (hcellar : .cellar ∈ ps) (hmedia : .media ∈ ps) (htime : .time ∈ ps) (hlink : .link ∈ ps) (hfabric : .fabric ∈ ps) (hrings : .rings ∈ ps) (hcores : .cores ∈ ps) (hsched : .sched ∈ ps) (hacq : .acq ∈ ps) (hfuse : .fuse ∈ ps) (hstrong : .strong ∈ ps) (hhub : .hub ∈ ps) : Keep ps e (Dev.beatStart d) := by
  unfold Dev.beatStart
  repeat' first
    | with_reducible assumption
    | with_reducible refine Dev.beginBeat_keep ?_ ‹_› ‹_› ‹_› ‹_› ‹_› ‹_› ‹_› ‹_› ‹_› ‹_› ‹_› ‹_› ‹_› ‹_› ‹_› ‹_› ‹_› ‹_› _ _ _
    | with_reducible refine Dev.modTime_keep ?_ ‹_› _
    | with_reducible refine Dev.raise_keep ?_ ‹_› _ _
    | with_reducible refine Dev.reach_keep ?_ ‹_› _
    | with_reducible refine Dev.releaseHeld_keep ?_ ‹_› ‹_›
    | (extract_lets +onlyGivenNames lv; (have hx : Keep ps e lv := ?_); (on_goal 1 => clear_value lv); on_goal 2 => subst lv)
    | (extract_lets +onlyGivenNames lv; clear_value lv)
    | extract_lets +onlyGivenNames lv
    | with_reducible refine Keep.ite ?_ ?_
    | split

theorem Dev.takeFirmware_keep {ps : List Part} {e d : Dev} (h : Keep ps e d) (hcores : .cores ∈ ps) (hpower : .power ∈ ps) (a1 a2 a3) : Keep ps e (Dev.takeFirmware d a1 a2 a3) := by
  unfold Dev.takeFirmware
  repeat' first
    | with_reducible assumption
    | with_reducible refine Dev.modCores_keep ?_ ‹_› _
    | with_reducible refine Dev.modPower_keep ?_ ‹_› _
    | (extract_lets +onlyGivenNames lv; (have hx : Keep ps e lv := ?_); (on_goal 1 => clear_value lv); on_goal 2 => subst lv)
    | (extract_lets +onlyGivenNames lv; clear_value lv)
    | extract_lets +onlyGivenNames lv
    | with_reducible refine Keep.ite ?_ ?_
    | split

theorem Dev.bootConsume_keep {ps : List Part} {e d : Dev} (h : Keep ps e d) (hloader : .loader ∈ ps) (hcores : .cores ∈ ps) (hpower : .power ∈ ps) : Keep ps e (Dev.bootConsume d) := by
  unfold Dev.bootConsume
  repeat' first
    | with_reducible assumption
    | with_reducible refine Dev.modLoader_keep ?_ ‹_› _
    | with_reducible refine Dev.modPower_keep ?_ ‹_› _
    | with_reducible refine Dev.takeFirmware_keep ?_ ‹_› ‹_› _ _ _
    | (extract_lets +onlyGivenNames lv; (have hx : Keep ps e lv := ?_); (on_goal 1 => clear_value lv); on_goal 2 => subst lv)
    | (extract_lets +onlyGivenNames lv; clear_value lv)
    | extract_lets +onlyGivenNames lv
    | with_reducible refine Keep.ite ?_ ?_
    | split

theorem Dev.bootgo_keep {ps : List Part} {e d : Dev} (h : Keep ps e d) (hloader : .loader ∈ ps) (hcores : .cores ∈ ps) (hhub : .hub ∈ ps) (hpower : .power ∈ ps) : Keep ps e (Dev.bootgo d) := by
  unfold Dev.bootgo
  repeat' first
    | with_reducible assumption
    | with_reducible refine Dev.bootConsume_keep ?_ ‹_› ‹_› ‹_›
    | with_reducible refine Dev.ignore_keep ?_ ‹_› _
    | (extract_lets +onlyGivenNames lv; (have hx : Keep ps e lv := ?_); (on_goal 1 => clear_value lv); on_goal 2 => subst lv)
    | (extract_lets +onlyGivenNames lv; clear_value lv)
    | extract_lets +onlyGivenNames lv
    | with_reducible refine Keep.ite ?_ ?_
    | split

theorem Dev.bootgoWith_keep {ps : List Part} {e d : Dev} (h : Keep ps e d) (hloader : .loader ∈ ps) (hcores : .cores ∈ ps) (hstrong : .strong ∈ ps) (hhub : .hub ∈ ps) (hpower : .power ∈ ps) (a0 a1) : Keep ps e (Dev.bootgoWith a0 a1 d) := by
  unfold Dev.bootgoWith
  repeat' first
    | with_reducible assumption
    | (intro m hm; with_reducible exact hm)
    | (intro m hm; with_reducible exact Sram.put_wf hm _ _)
    | (intro m hm; with_reducible exact Memory.wf_clearRange _ _ _ hm)
    | (intro m hm; with_reducible exact Memory.wf_writeN _ _ _ hm)
    | with_reducible refine Dev.bootgo_keep ?_ ‹_› ‹_› ‹_› ‹_›
    | with_reducible refine Dev.modSram_keep ?_ ‹_› _ ?_
    | (extract_lets +onlyGivenNames lv; (have hx : Keep ps e lv := ?_); (on_goal 1 => clear_value lv); on_goal 2 => subst lv)
    | (extract_lets +onlyGivenNames lv; clear_value lv)
    | extract_lets +onlyGivenNames lv
    | with_reducible refine Keep.ite ?_ ?_
    | split

theorem Dev.putTap_keep {ps : List Part} {e d : Dev} (h : Keep ps e d) (htap : .tap ∈ ps) (a1) : Keep ps e (Dev.putTap d a1) := by
  unfold Dev.putTap
  exact Keep.upd_tap h ‹_›

theorem Dev.boundary_keep {ps : List Part} {e d : Dev} (h : Keep ps e d) (hout : .out ∈ ps) (htap : .tap ∈ ps) (a0 a1 a2) : Keep ps e (Dev.boundary a0 a1 a2 d) := by
  unfold Dev.boundary
  repeat' first
    | with_reducible assumption
    | with_reducible refine Dev.emit_keep ?_ ‹_› _
    | with_reducible refine Dev.putTap_keep ?_ ‹_› _
    | (extract_lets +onlyGivenNames lv; (have hx : Keep ps e lv := ?_); (on_goal 1 => clear_value lv); on_goal 2 => subst lv)
    | (extract_lets +onlyGivenNames lv; clear_value lv)
    | extract_lets +onlyGivenNames lv
    | with_reducible refine Keep.ite ?_ ?_
    | split

theorem Dev.bridgeSend_keep {ps : List Part} {e d : Dev} (h : Keep ps e d) (hout : .out ∈ ps) (hmedia : .media ∈ ps) (htime : .time ∈ ps) (a0 a1 a2) : Keep ps e (Dev.bridgeSend a0 a1 a2 d) := by
  induction a1 generalizing d a0 a2 with
  | nil =>
    unfold Dev.bridgeSend
    repeat' first
      | with_reducible assumption
      | with_reducible refine Dev.sendAt_keep ?_ ‹_› ‹_› _ _ _
      | with_reducible refine Dev.setEth_keep ?_ ‹_› _ _
      | (extract_lets +onlyGivenNames lv; (have hx : Keep ps e lv := ?_); (on_goal 1 => clear_value lv); on_goal 2 => subst lv)
      | (extract_lets +onlyGivenNames lv; clear_value lv)
      | extract_lets +onlyGivenNames lv
      | with_reducible refine Keep.ite ?_ ?_
      | split
  | cons x l ih =>
    unfold Dev.bridgeSend
    repeat' first
      | with_reducible assumption
      | with_reducible apply ih
      | with_reducible refine Dev.sendAt_keep ?_ ‹_› ‹_› _ _ _
      | with_reducible refine Dev.setEth_keep ?_ ‹_› _ _
      | (extract_lets +onlyGivenNames lv; (have hx : Keep ps e lv := ?_); (on_goal 1 => clear_value lv); on_goal 2 => subst lv)
      | (extract_lets +onlyGivenNames lv; clear_value lv)
      | extract_lets +onlyGivenNames lv
      | with_reducible refine Keep.ite ?_ ?_
      | split

theorem Dev.bridgeFlush_keep {ps : List Part} {e d : Dev} (h : Keep ps e d) (hout : .out ∈ ps) (hmedia : .media ∈ ps) (htime : .time ∈ ps) (a1) : Keep ps e (Dev.bridgeFlush d a1) := by
  unfold Dev.bridgeFlush
  repeat' first
    | with_reducible assumption
    | with_reducible refine Dev.bridgeSend_keep ?_ ‹_› ‹_› ‹_› _ _ _
    | (extract_lets +onlyGivenNames lv; (have hx : Keep ps e lv := ?_); (on_goal 1 => clear_value lv); on_goal 2 => subst lv)
    | (extract_lets +onlyGivenNames lv; clear_value lv)
    | extract_lets +onlyGivenNames lv
    | with_reducible refine Keep.ite ?_ ?_
    | split

theorem Dev.bridgeForward_keep {ps : List Part} {e d : Dev} (h : Keep ps e d) (hout : .out ∈ ps) (hevents : .events ∈ ps) (hmedia : .media ∈ ps) (htime : .time ∈ ps) (a1 a2 a3) : Keep ps e (Dev.bridgeForward d a1 a2 a3) := by
  unfold Dev.bridgeForward
  repeat' first
    | with_reducible assumption
    | with_reducible refine Dev.portFrame_keep ?_ ‹_› ‹_› ‹_› ‹_› _ _
    | (extract_lets +onlyGivenNames lv; (have hx : Keep ps e lv := ?_); (on_goal 1 => clear_value lv); on_goal 2 => subst lv)
    | (extract_lets +onlyGivenNames lv; clear_value lv)
    | extract_lets +onlyGivenNames lv
    | with_reducible refine Keep.ite ?_ ?_
    | split

theorem Dev.bufferWord_keep {ps : List Part} {e d : Dev} (h : Keep ps e d) (hevents : .events ∈ ps) (hfuncs : .funcs ∈ ps) (hcellar : .cellar ∈ ps) (a1 a2 a3 a4 a5 a6 a7 a8) : Keep ps e (Dev.bufferWord d a1 a2 a3 a4 a5 a6 a7 a8) := by
  unfold Dev.bufferWord
  repeat' first
    | with_reducible assumption
    | (intro c hc; with_reducible exact hc)
    | (intro c hc; with_reducible exact Cellar.seal_wf hc _ _ _ _)
    | (intro c hc; with_reducible exact Cellar.mergeRaw_wf hc _ _ _)
    | (intro c hc; (try dsimp only [Cellar.count, Cellar.setRegion, Cellar.setKey, Cellar.loadKey, Cellar.decideWb]); with_reducible exact hc)
    | (intro c hc; (try dsimp only [Cellar.count, Cellar.setRegion, Cellar.setKey, Cellar.loadKey, Cellar.decideWb]); with_reducible exact Cellar.seal_wf hc _ _ _ _)
    | (intro c hc; (try dsimp only [Cellar.count, Cellar.setRegion, Cellar.setKey, Cellar.loadKey, Cellar.decideWb]); with_reducible exact Cellar.mergeRaw_wf hc _ _ _)
    | (intro c hc; (try dsimp only [Cellar.count, Cellar.setRegion, Cellar.setKey, Cellar.loadKey, Cellar.decideWb]); with_reducible exact Cellar.putMeta_wf hc _ _)
    | (intro c hc; (try dsimp only [Cellar.count, Cellar.setRegion, Cellar.setKey, Cellar.loadKey, Cellar.decideWb]); with_reducible exact Cellar.putRaw_wf hc _ _)
    | (intro c hc; (try dsimp only [Cellar.count, Cellar.setRegion, Cellar.setKey, Cellar.loadKey, Cellar.decideWb]); with_reducible exact Memory.wf_write _ _ _ hc)
    | (intro c hc; (try dsimp only [Cellar.count, Cellar.setRegion, Cellar.setKey, Cellar.loadKey, Cellar.decideWb]); with_reducible exact Memory.wf_writeN _ _ _ hc)
    | (intro c hc; (try dsimp only [Cellar.count, Cellar.setRegion, Cellar.setKey, Cellar.loadKey, Cellar.decideWb]); with_reducible exact Memory.wf_clearRange _ _ _ hc)
    | (intro c hc; (try dsimp only [Cellar.count, Cellar.setRegion, Cellar.setKey, Cellar.loadKey, Cellar.decideWb]); with_reducible exact Memory.wf_spans _ _ hc)
    | (intro c hc; (repeat' split) <;> with_reducible exact hc)
    | (intro c hc; dsimp only; split <;> exact hc)
    | (intro c hc; exact hc)
    | with_reducible refine Dev.cellarRefuse_keep ?_ ‹_› ‹_›
    | with_reducible refine Dev.modCellar_keep ?_ ‹_› _ ?_
    | with_reducible refine Dev.modFunc_keep ?_ ‹_› _ _
    | (extract_lets +onlyGivenNames lv; (have hx : Keep ps e lv := ?_); (on_goal 1 => clear_value lv); on_goal 2 => subst lv)
    | (extract_lets +onlyGivenNames lv; clear_value lv)
    | extract_lets +onlyGivenNames lv
    | with_reducible refine Keep.ite ?_ ?_
    | split

theorem Dev.carryEvent_keep {ps : List Part} {e d : Dev} (h : Keep ps e d) (hnet : .net ∈ ps) (a1) : Keep ps e (Dev.carryEvent d a1) := by
  unfold Dev.carryEvent
  repeat' first
    | with_reducible assumption
    | with_reducible refine Dev.putNet_keep ?_ ‹_› _
    | (extract_lets +onlyGivenNames lv; (have hx : Keep ps e lv := ?_); (on_goal 1 => clear_value lv); on_goal 2 => subst lv)
    | (extract_lets +onlyGivenNames lv; clear_value lv)
    | extract_lets +onlyGivenNames lv
    | with_reducible refine Keep.ite ?_ ?_
    | split

theorem Dev.carryReg_keep {ps : List Part} {e d : Dev} (h : Keep ps e d) (hnet : .net ∈ ps) (a1 a2 a3 a4) : Keep ps e (Dev.carryReg d a1 a2 a3 a4) := by
  unfold Dev.carryReg
  repeat' first
    | with_reducible assumption
    | with_reducible refine Dev.putNet_keep ?_ ‹_› _
    | (extract_lets +onlyGivenNames lv; (have hx : Keep ps e lv := ?_); (on_goal 1 => clear_value lv); on_goal 2 => subst lv)
    | (extract_lets +onlyGivenNames lv; clear_value lv)
    | extract_lets +onlyGivenNames lv
    | with_reducible refine Keep.ite ?_ ?_
    | split

theorem Dev.carrySeed_keep {ps : List Part} {e d : Dev} (h : Keep ps e d) (hnet : .net ∈ ps) (a1 a2 a3 a4) : Keep ps e (Dev.carrySeed d a1 a2 a3 a4) := by
  unfold Dev.carrySeed
  repeat' first
    | with_reducible assumption
    | with_reducible refine Dev.putNet_keep ?_ ‹_› _
    | (extract_lets +onlyGivenNames lv; (have hx : Keep ps e lv := ?_); (on_goal 1 => clear_value lv); on_goal 2 => subst lv)
    | (extract_lets +onlyGivenNames lv; clear_value lv)
    | extract_lets +onlyGivenNames lv
    | with_reducible refine Keep.ite ?_ ?_
    | split

theorem Dev.cdrLock_keep {ps : List Part} {e d : Dev} (h : Keep ps e d) (hevents : .events ∈ ps) (hlink : .link ∈ ps) (a0) : Keep ps e (Dev.cdrLock a0 d) := by
  unfold Dev.cdrLock
  repeat' first
    | with_reducible assumption
    | with_reducible refine Dev.lanePhase_keep ?_ ‹_› ‹_› _ _
    | (extract_lets +onlyGivenNames lv; (have hx : Keep ps e lv := ?_); (on_goal 1 => clear_value lv); on_goal 2 => subst lv)
    | (extract_lets +onlyGivenNames lv; clear_value lv)
    | extract_lets +onlyGivenNames lv
    | with_reducible refine Keep.ite ?_ ?_
    | split

theorem Dev.copyIn_keep {ps : List Part} {e d : Dev} (h : Keep ps e d) (hfree : .free ∈ ps) (hevents : .events ∈ ps) (hcellar : .cellar ∈ ps) (a1 a2 a3 a4) : Keep ps e (Dev.copyIn d a1 a2 a3 a4).1 := by
  induction a4 generalizing d a1 a2 a3 with
  | nil =>
    unfold Dev.copyIn
    repeat' first
      | with_reducible assumption
      | with_reducible refine Dev.writeLine_keep ?_ ‹_› ‹_› ‹_› _ _ _ _ _ _
      | with_reducible refine Keep.fst2 ‹_› ?_
      | with_reducible refine Keep.fst ‹_› ?_
      | (extract_lets +onlyGivenNames lv; (have hx : Keep ps e lv := ?_); (on_goal 1 => clear_value lv); on_goal 2 => subst lv)
      | (extract_lets +onlyGivenNames lv; clear_value lv)
      | extract_lets +onlyGivenNames lv
      | with_reducible refine Keep.ite ?_ ?_
      | with_reducible refine Keep.iteFst ?_ ?_
      | split
  | cons x l ih =>
    unfold Dev.copyIn
    repeat' first
      | with_reducible assumption
      | with_reducible apply ih
      | with_reducible refine Dev.writeLine_keep ?_ ‹_› ‹_› ‹_› _ _ _ _ _ _
      | with_reducible refine Keep.fst2 ‹_› ?_
      | with_reducible refine Keep.fst ‹_› ?_
      | (extract_lets +onlyGivenNames lv; (have hx : Keep ps e lv := ?_); (on_goal 1 => clear_value lv); on_goal 2 => subst lv)
      | (extract_lets +onlyGivenNames lv; clear_value lv)
      | extract_lets +onlyGivenNames lv
      | with_reducible refine Keep.ite ?_ ?_
      | with_reducible refine Keep.iteFst ?_ ?_
      | split

theorem Dev.readLine_keep {ps : List Part} {e d : Dev} (h : Keep ps e d) (hfree : .free ∈ ps) (hevents : .events ∈ ps) (hcellar : .cellar ∈ ps) (a1 a2 a3 a4 a5 a6) : Keep ps e (Dev.readLine d a1 a2 a3 a4 a5 a6).1 := by
  unfold Dev.readLine
  repeat' first
    | with_reducible assumption
    | with_reducible refine Dev.cellarRefuse_keep ?_ ‹_› ‹_›
    | with_reducible refine Dev.lineEcc_keep ?_ ‹_› ‹_› _ _
    | with_reducible refine Dev.secMac_keep ?_ ‹_› ‹_›
    | with_reducible refine Dev.take_keep ?_ ‹_› _
    | (extract_lets +onlyGivenNames lv; (have hx : Keep ps e lv := ?_); (on_goal 1 => clear_value lv); on_goal 2 => subst lv)
    | (extract_lets +onlyGivenNames lv; clear_value lv)
    | extract_lets +onlyGivenNames lv
    | with_reducible refine Keep.ite ?_ ?_
    | with_reducible refine Keep.iteFst ?_ ?_
    | split

theorem Dev.copyOut_keep {ps : List Part} {e d : Dev} (h : Keep ps e d) (hfree : .free ∈ ps) (hout : .out ∈ ps) (hevents : .events ∈ ps) (hcellar : .cellar ∈ ps) (hrings : .rings ∈ ps) (a1 a2 a3 a4 a5) : Keep ps e (Dev.copyOut d a1 a2 a3 a4 a5).1 := by
  induction a5 generalizing d a1 a2 a3 a4 with
  | zero =>
    unfold Dev.copyOut
    repeat' first
      | with_reducible assumption
      | with_reducible refine Dev.readLine_keep ?_ ‹_› ‹_› ‹_› _ _ _ _ _ _
      | with_reducible refine Dev.writeHost_keep ?_ ‹_› ‹_› ‹_› _ _
      | with_reducible refine Keep.fst2 ‹_› ?_
      | with_reducible refine Keep.fst ‹_› ?_
      | (extract_lets +onlyGivenNames lv; (have hx : Keep ps e lv := ?_); (on_goal 1 => clear_value lv); on_goal 2 => subst lv)
      | (extract_lets +onlyGivenNames lv; clear_value lv)
      | extract_lets +onlyGivenNames lv
      | with_reducible refine Keep.ite ?_ ?_
      | with_reducible refine Keep.iteFst ?_ ?_
      | split
  | succ n ih =>
    unfold Dev.copyOut
    repeat' first
      | with_reducible assumption
      | with_reducible apply ih
      | with_reducible refine Dev.readLine_keep ?_ ‹_› ‹_› ‹_› _ _ _ _ _ _
      | with_reducible refine Dev.writeHost_keep ?_ ‹_› ‹_› ‹_› _ _
      | with_reducible refine Keep.fst2 ‹_› ?_
      | with_reducible refine Keep.fst ‹_› ?_
      | (extract_lets +onlyGivenNames lv; (have hx : Keep ps e lv := ?_); (on_goal 1 => clear_value lv); on_goal 2 => subst lv)
      | (extract_lets +onlyGivenNames lv; clear_value lv)
      | extract_lets +onlyGivenNames lv
      | with_reducible refine Keep.ite ?_ ?_
      | with_reducible refine Keep.iteFst ?_ ?_
      | split

theorem Dev.finishOk_keep {ps : List Part} {e d : Dev} (h : Keep ps e d) (hout : .out ∈ ps) (hevents : .events ∈ ps) (hlink : .link ∈ ps) (hrings : .rings ∈ ps) (hsched : .sched ∈ ps) (a1 a2 a3) : Keep ps e (Dev.finishOk d a1 a2 a3) := by
  unfold Dev.finishOk
  repeat' first
    | with_reducible assumption
    | with_reducible refine Dev.commitPoint_keep ?_ ‹_› _
    | with_reducible refine Dev.finish_keep ?_ ‹_› ‹_› ‹_› ‹_› ‹_› _ _ _ _ _ _
    | (extract_lets +onlyGivenNames lv; (have hx : Keep ps e lv := ?_); (on_goal 1 => clear_value lv); on_goal 2 => subst lv)
    | (extract_lets +onlyGivenNames lv; clear_value lv)
    | extract_lets +onlyGivenNames lv
    | with_reducible refine Keep.ite ?_ ?_
    | split

theorem Dev.cellarCopy_keep {ps : List Part} {e d : Dev} (h : Keep ps e d) (hfree : .free ∈ ps) (hout : .out ∈ ps) (hevents : .events ∈ ps) (hcellar : .cellar ∈ ps) (hlink : .link ∈ ps) (hrings : .rings ∈ ps) (hsched : .sched ∈ ps) (a0 a1) : Keep ps e (Dev.cellarCopy a0 a1 d) := by
  unfold Dev.cellarCopy
  repeat' first
    | with_reducible assumption
    | with_reducible refine Dev.copyIn_keep ?_ ‹_› ‹_› ‹_› _ _ _ _
    | with_reducible refine Dev.copyOut_keep ?_ ‹_› ‹_› ‹_› ‹_› ‹_› _ _ _ _ _
    | with_reducible refine Dev.finish_keep ?_ ‹_› ‹_› ‹_› ‹_› ‹_› _ _ _ _ _ _
    | with_reducible refine Dev.finishOk_keep ?_ ‹_› ‹_› ‹_› ‹_› ‹_› _ _ _
    | with_reducible refine Dev.start_keep ?_ ‹_› _
    | with_reducible refine Keep.fst2 ‹_› ?_
    | with_reducible refine Keep.fst ‹_› ?_
    | (extract_lets +onlyGivenNames lv; (have hx : Keep ps e lv := ?_); (on_goal 1 => clear_value lv); on_goal 2 => subst lv)
    | (extract_lets +onlyGivenNames lv; (have hfn : ∀ y, Keep ps e y → Keep ps e (lv y) := ?_); (on_goal 1 => clear_value lv); on_goal 2 => (intro y hy; subst lv; beta_reduce))
    | (extract_lets +onlyGivenNames lv; (have hfn : ∀ y, Keep ps e (Prod.fst y) → Keep ps e (lv y) := ?_); (on_goal 1 => clear_value lv); on_goal 2 => (intro y hy; subst lv; beta_reduce))
    | (extract_lets +onlyGivenNames lv; (have hfn : ∀ y, Keep ps e (lv y) := ?_); (on_goal 1 => clear_value lv); on_goal 2 => (intro y; subst lv; beta_reduce))
    | (extract_lets +onlyGivenNames lv; clear_value lv)
    | extract_lets +onlyGivenNames lv
    | with_reducible exact hfn _
    | with_reducible exact hfn _ _
    | with_reducible refine hfn _ ?_
    | with_reducible refine hfn _ _ ?_
    | with_reducible refine hfn _ _ _ ?_
    | with_reducible refine Keep.ite ?_ ?_
    | with_reducible refine Keep.iteFst ?_ ?_
    | split

theorem Dev.cellarLoad_keep {ps : List Part} {e d : Dev} (h : Keep ps e d) (hfree : .free ∈ ps) (hevents : .events ∈ ps) (hcellar : .cellar ∈ ps) (a1 a2) : Keep ps e (Dev.cellarLoad d a1 a2).1 := by
  unfold Dev.cellarLoad
  repeat' first
    | with_reducible assumption
    | with_reducible refine Dev.readLine_keep ?_ ‹_› ‹_› ‹_› _ _ _ _ _ _
    | with_reducible refine Keep.fst2 ‹_› ?_
    | with_reducible refine Keep.fst ‹_› ?_
    | (extract_lets +onlyGivenNames lv; (have hx : Keep ps e lv := ?_); (on_goal 1 => clear_value lv); on_goal 2 => subst lv)
    | (extract_lets +onlyGivenNames lv; clear_value lv)
    | extract_lets +onlyGivenNames lv
    | with_reducible refine Keep.ite ?_ ?_
    | with_reducible refine Keep.iteFst ?_ ?_
    | split

theorem Dev.streamVerdict_keep {ps : List Part} {e d : Dev} (h : Keep ps e d) (hcellar : .cellar ∈ ps) (a1 a2) : Keep ps e (Dev.streamVerdict d a1 a2) := by
  unfold Dev.streamVerdict
  repeat' first
    | with_reducible assumption
    | (intro c hc; with_reducible exact hc)
    | (intro c hc; with_reducible exact Cellar.seal_wf hc _ _ _ _)
    | (intro c hc; with_reducible exact Cellar.mergeRaw_wf hc _ _ _)
    | (intro c hc; (try dsimp only [Cellar.count, Cellar.setRegion, Cellar.setKey, Cellar.loadKey, Cellar.decideWb]); with_reducible exact hc)
    | (intro c hc; (try dsimp only [Cellar.count, Cellar.setRegion, Cellar.setKey, Cellar.loadKey, Cellar.decideWb]); with_reducible exact Cellar.seal_wf hc _ _ _ _)
    | (intro c hc; (try dsimp only [Cellar.count, Cellar.setRegion, Cellar.setKey, Cellar.loadKey, Cellar.decideWb]); with_reducible exact Cellar.mergeRaw_wf hc _ _ _)
    | (intro c hc; (try dsimp only [Cellar.count, Cellar.setRegion, Cellar.setKey, Cellar.loadKey, Cellar.decideWb]); with_reducible exact Cellar.putMeta_wf hc _ _)
    | (intro c hc; (try dsimp only [Cellar.count, Cellar.setRegion, Cellar.setKey, Cellar.loadKey, Cellar.decideWb]); with_reducible exact Cellar.putRaw_wf hc _ _)
    | (intro c hc; (try dsimp only [Cellar.count, Cellar.setRegion, Cellar.setKey, Cellar.loadKey, Cellar.decideWb]); with_reducible exact Memory.wf_write _ _ _ hc)
    | (intro c hc; (try dsimp only [Cellar.count, Cellar.setRegion, Cellar.setKey, Cellar.loadKey, Cellar.decideWb]); with_reducible exact Memory.wf_writeN _ _ _ hc)
    | (intro c hc; (try dsimp only [Cellar.count, Cellar.setRegion, Cellar.setKey, Cellar.loadKey, Cellar.decideWb]); with_reducible exact Memory.wf_clearRange _ _ _ hc)
    | (intro c hc; (try dsimp only [Cellar.count, Cellar.setRegion, Cellar.setKey, Cellar.loadKey, Cellar.decideWb]); with_reducible exact Memory.wf_spans _ _ hc)
    | (intro c hc; (repeat' split) <;> with_reducible exact hc)
    | (intro c hc; dsimp only; split <;> exact hc)
    | (intro c hc; exact hc)
    | with_reducible refine Dev.modCellar_keep ?_ ‹_› _ ?_
    | (extract_lets +onlyGivenNames lv; (have hx : Keep ps e lv := ?_); (on_goal 1 => clear_value lv); on_goal 2 => subst lv)
    | (extract_lets +onlyGivenNames lv; clear_value lv)
    | extract_lets +onlyGivenNames lv
    | with_reducible refine Keep.ite ?_ ?_
    | split

theorem Dev.cellarRead_keep {ps : List Part} {e d : Dev} (h : Keep ps e d) (hfree : .free ∈ ps) (hout : .out ∈ ps) (hevents : .events ∈ ps) (hcellar : .cellar ∈ ps) (a0 a1 a2 a3) : Keep ps e (Dev.cellarRead a0 a1 a2 a3 d) := by
  unfold Dev.cellarRead
  repeat' first
    | with_reducible assumption
    | with_reducible refine Dev.barRead_keep ?_ ‹_› ‹_› ‹_› ‹_› _ _
    | with_reducible refine Dev.emit_keep ?_ ‹_› _
    | with_reducible refine Dev.readLine_keep ?_ ‹_› ‹_› ‹_› _ _ _ _ _ _
    | with_reducible refine Dev.streamVerdict_keep ?_ ‹_› _ _
    | with_reducible refine Keep.fst2 ‹_› ?_
    | with_reducible refine Keep.fst ‹_› ?_
    | (extract_lets +onlyGivenNames lv; (have hx : Keep ps e lv := ?_); (on_goal 1 => clear_value lv); on_goal 2 => subst lv)
    | (extract_lets +onlyGivenNames lv; clear_value lv)
    | extract_lets +onlyGivenNames lv
    | with_reducible refine Keep.ite ?_ ?_
    | with_reducible refine Keep.iteFst ?_ ?_
    | split

theorem Dev.cellarStore_keep {ps : List Part} {e d : Dev} (h : Keep ps e d) (hfree : .free ∈ ps) (hevents : .events ∈ ps) (hcellar : .cellar ∈ ps) (a1 a2) : Keep ps e (Dev.cellarStore d a1 a2).1 := by
  unfold Dev.cellarStore
  repeat' first
    | with_reducible assumption
    | with_reducible refine Dev.writeLine_keep ?_ ‹_› ‹_› ‹_› _ _ _ _ _ _
    | with_reducible refine Keep.fst2 ‹_› ?_
    | with_reducible refine Keep.fst ‹_› ?_
    | (extract_lets +onlyGivenNames lv; (have hx : Keep ps e lv := ?_); (on_goal 1 => clear_value lv); on_goal 2 => subst lv)
    | (extract_lets +onlyGivenNames lv; clear_value lv)
    | extract_lets +onlyGivenNames lv
    | with_reducible refine Keep.ite ?_ ?_
    | with_reducible refine Keep.iteFst ?_ ?_
    | split

theorem Dev.cellarTouch_keep {ps : List Part} {e d : Dev} (h : Keep ps e d) (hfree : .free ∈ ps) (hevents : .events ∈ ps) (hcellar : .cellar ∈ ps) (a1 a2) : Keep ps e (Dev.cellarTouch d a1 a2) := by
  unfold Dev.cellarTouch
  repeat' first
    | with_reducible assumption
    | with_reducible refine Dev.cellarLoad_keep ?_ ‹_› ‹_› ‹_› _ _
    | with_reducible refine Dev.cellarStore_keep ?_ ‹_› ‹_› ‹_› _ _
    | with_reducible refine Keep.fst2 ‹_› ?_
    | with_reducible refine Keep.fst ‹_› ?_
    | (extract_lets +onlyGivenNames lv; (have hx : Keep ps e lv := ?_); (on_goal 1 => clear_value lv); on_goal 2 => subst lv)
    | (extract_lets +onlyGivenNames lv; clear_value lv)
    | extract_lets +onlyGivenNames lv
    | with_reducible refine Keep.ite ?_ ?_
    | with_reducible refine Keep.iteFst ?_ ?_
    | split

theorem Dev.writeAnswered_keep {ps : List Part} {e d : Dev} (h : Keep ps e d) (hfree : .free ∈ ps) (hout : .out ∈ ps) (hevents : .events ∈ ps) (hcellar : .cellar ∈ ps) (a1 a2 a3 a4 a5 a6) : Keep ps e (Dev.writeAnswered d a1 a2 a3 a4 a5 a6) := by
  unfold Dev.writeAnswered
  repeat' first
    | with_reducible assumption
    | with_reducible refine Dev.emit_keep ?_ ‹_› _
    | with_reducible refine Dev.writeLine_keep ?_ ‹_› ‹_› ‹_› _ _ _ _ _ _
    | with_reducible refine Keep.fst2 ‹_› ?_
    | with_reducible refine Keep.fst ‹_› ?_
    | (extract_lets +onlyGivenNames lv; (have hx : Keep ps e lv := ?_); (on_goal 1 => clear_value lv); on_goal 2 => subst lv)
    | (extract_lets +onlyGivenNames lv; clear_value lv)
    | extract_lets +onlyGivenNames lv
    | with_reducible refine Keep.ite ?_ ?_
    | with_reducible refine Keep.iteFst ?_ ?_
    | split

theorem Dev.cellarWrite_keep {ps : List Part} {e d : Dev} (h : Keep ps e d) (hfree : .free ∈ ps) (hout : .out ∈ ps) (hevents : .events ∈ ps) (hcellar : .cellar ∈ ps) (a0 a1 a2 a3 a4 a5) : Keep ps e (Dev.cellarWrite a0 a1 a2 a3 a4 a5 d) := by
  unfold Dev.cellarWrite
  repeat' first
    | with_reducible assumption
    | with_reducible refine Dev.barWrite_keep ?_ ‹_› ‹_› _ _ _
    | with_reducible refine Dev.writeAnswered_keep ?_ ‹_› ‹_› ‹_› ‹_› _ _ _ _ _ _
    | (extract_lets +onlyGivenNames lv; (have hx : Keep ps e lv := ?_); (on_goal 1 => clear_value lv); on_goal 2 => subst lv)
    | (extract_lets +onlyGivenNames lv; clear_value lv)
    | extract_lets +onlyGivenNames lv
    | with_reducible refine Keep.ite ?_ ?_
    | split

theorem Dev.chargeRoom_keep {ps : List Part} {e d : Dev} (h : Keep ps e d) (hevents : .events ∈ ps) (hrooms : .rooms ∈ ps) (hfuncs : .funcs ∈ ps) (a1 a2 a3) : Keep ps e (Dev.chargeRoom d a1 a2 a3) := by
  unfold Dev.chargeRoom
  repeat' first
    | with_reducible assumption
    | with_reducible refine Dev.modFunc_keep ?_ ‹_› _ _
    | with_reducible refine Dev.raiseRoom_keep ?_ ‹_› _ _
    | with_reducible refine Dev.setRoom_keep ?_ ‹_› _ _
    | (extract_lets +onlyGivenNames lv; (have hx : Keep ps e lv := ?_); (on_goal 1 => clear_value lv); on_goal 2 => subst lv)
    | (extract_lets +onlyGivenNames lv; clear_value lv)
    | extract_lets +onlyGivenNames lv
    | with_reducible refine Keep.ite ?_ ?_
    | split

theorem Dev.checkMigration_keep {ps : List Part} {e d : Dev} (h : Keep ps e d) (hfuncs : .funcs ∈ ps) (a1) : Keep ps e (Dev.checkMigration d a1) := by
  unfold Dev.checkMigration
  repeat' first
    | with_reducible assumption
    | with_reducible refine Dev.modFunc_keep ?_ ‹_› _ _
    | (extract_lets +onlyGivenNames lv; (have hx : Keep ps e lv := ?_); (on_goal 1 => clear_value lv); on_goal 2 => subst lv)
    | (extract_lets +onlyGivenNames lv; clear_value lv)
    | extract_lets +onlyGivenNames lv
    | with_reducible refine Keep.ite ?_ ?_
    | split

theorem Dev.degrade_keep {ps : List Part} {e d : Dev} (h : Keep ps e d) (hevents : .events ∈ ps) (hlink : .link ∈ ps) (a0 a1) : Keep ps e (Dev.degrade a0 a1 d) := by
  unfold Dev.degrade
  repeat' first
    | with_reducible assumption
    | with_reducible refine Dev.lanePhase_keep ?_ ‹_› ‹_› _ _
    | with_reducible refine Dev.modBd_keep ?_ ‹_› _ _
    | with_reducible refine Dev.raise_keep ?_ ‹_› _ _
    | with_reducible refine Dev.removeLane_keep ?_ ‹_› ‹_› _ _
    | (extract_lets +onlyGivenNames lv; (have hx : Keep ps e lv := ?_); (on_goal 1 => clear_value lv); on_goal 2 => subst lv)
    | (extract_lets +onlyGivenNames lv; clear_value lv)
    | extract_lets +onlyGivenNames lv
    | with_reducible refine Keep.ite ?_ ?_
    | split

theorem Dev.noteMismatch_keep {ps : List Part} {e d : Dev} (h : Keep ps e d) (hevents : .events ∈ ps) (hmedia : .media ∈ ps) (a1) : Keep ps e (Dev.noteMismatch d a1) := by
  unfold Dev.noteMismatch
  repeat' first
    | with_reducible assumption
    | with_reducible refine Dev.raise_keep ?_ ‹_› _ _
    | with_reducible refine Dev.setSdi_keep ?_ ‹_› _ _
    | (extract_lets +onlyGivenNames lv; (have hx : Keep ps e lv := ?_); (on_goal 1 => clear_value lv); on_goal 2 => subst lv)
    | (extract_lets +onlyGivenNames lv; clear_value lv)
    | extract_lets +onlyGivenNames lv
    | with_reducible refine Keep.ite ?_ ?_
    | split

theorem Dev.sdiLockChange_keep {ps : List Part} {e d : Dev} (h : Keep ps e d) (hevents : .events ∈ ps) (hmedia : .media ∈ ps) (a0 a1 a2) : Keep ps e (Dev.sdiLockChange a0 a1 a2 d) := by
  unfold Dev.sdiLockChange
  repeat' first
    | with_reducible assumption
    | with_reducible refine Dev.noteMismatch_keep ?_ ‹_› ‹_› _
    | with_reducible refine Dev.raise_keep ?_ ‹_› _ _
    | with_reducible refine Dev.setSdi_keep ?_ ‹_› _ _
    | (extract_lets +onlyGivenNames lv; (have hx : Keep ps e lv := ?_); (on_goal 1 => clear_value lv); on_goal 2 => subst lv)
    | (extract_lets +onlyGivenNames lv; clear_value lv)
    | extract_lets +onlyGivenNames lv
    | with_reducible refine Keep.ite ?_ ?_
    | split

theorem Dev.sdiStop_keep {ps : List Part} {e d : Dev} (h : Keep ps e d) (hevents : .events ∈ ps) (hmedia : .media ∈ ps) (a1) : Keep ps e (Dev.sdiStop d a1) := by
  unfold Dev.sdiStop
  repeat' first
    | with_reducible assumption
    | with_reducible refine Dev.sdiLockChange_keep ?_ ‹_› ‹_› _ _ _
    | (extract_lets +onlyGivenNames lv; (have hx : Keep ps e lv := ?_); (on_goal 1 => clear_value lv); on_goal 2 => subst lv)
    | (extract_lets +onlyGivenNames lv; clear_value lv)
    | extract_lets +onlyGivenNames lv
    | with_reducible refine Keep.ite ?_ ?_
    | split

theorem Dev.subportUpDown_keep {ps : List Part} {e d : Dev} (h : Keep ps e d) (hevents : .events ∈ ps) (hmedia : .media ∈ ps) (a0 a1 a2) : Keep ps e (Dev.subportUpDown a0 a1 a2 d) := by
  unfold Dev.subportUpDown
  repeat' first
    | with_reducible assumption
    | with_reducible refine Dev.raise_keep ?_ ‹_› _ _
    | with_reducible refine Dev.setEth_keep ?_ ‹_› _ _
    | (extract_lets +onlyGivenNames lv; (have hx : Keep ps e lv := ?_); (on_goal 1 => clear_value lv); on_goal 2 => subst lv)
    | (extract_lets +onlyGivenNames lv; clear_value lv)
    | extract_lets +onlyGivenNames lv
    | with_reducible refine Keep.ite ?_ ?_
    | split

theorem Dev.isolateLane_keep {ps : List Part} {e d : Dev} (h : Keep ps e d) (hout : .out ∈ ps) (hevents : .events ∈ ps) (hmedia : .media ∈ ps) (hlink : .link ∈ ps) (a1) : Keep ps e (Dev.isolateLane d a1) := by
  unfold Dev.isolateLane
  repeat' first
    | with_reducible assumption
    | with_reducible refine Dev.degrade_keep ?_ ‹_› ‹_› _ _
    | with_reducible refine Dev.each_keep ?_ (fun x y hx => ?_)
    | with_reducible refine Dev.lanePhase_keep ?_ ‹_› ‹_› _ _
    | with_reducible refine Dev.laneTx_keep ?_ ‹_› ‹_› _
    | with_reducible refine Dev.modLane_keep ?_ ‹_› _ _
    | with_reducible refine Dev.sdiStop_keep ?_ ‹_› ‹_› _
    | with_reducible refine Dev.subportUpDown_keep ?_ ‹_› ‹_› _ _ _
    | (extract_lets +onlyGivenNames lv; (have hx : Keep ps e lv := ?_); (on_goal 1 => clear_value lv); on_goal 2 => subst lv)
    | (extract_lets +onlyGivenNames lv; clear_value lv)
    | extract_lets +onlyGivenNames lv
    | with_reducible refine Keep.ite ?_ ?_
    | split

theorem Dev.isolateRoom_keep {ps : List Part} {e d : Dev} (h : Keep ps e d) (hrooms : .rooms ∈ ps) (hfuncs : .funcs ∈ ps) (hfuse : .fuse ∈ ps) (a1) : Keep ps e (Dev.isolateRoom d a1) := by
  unfold Dev.isolateRoom
  repeat' first
    | with_reducible assumption
    | with_reducible refine Dev.modRoom_keep ?_ ‹_› _ _
    | with_reducible refine Dev.putFuncs_keep ?_ ‹_› _
    | with_reducible refine Dev.putFuse_keep ?_ ‹_› _
    | (extract_lets +onlyGivenNames lv; (have hx : Keep ps e lv := ?_); (on_goal 1 => clear_value lv); on_goal 2 => subst lv)
    | (extract_lets +onlyGivenNames lv; clear_value lv)
    | extract_lets +onlyGivenNames lv
    | with_reducible refine Keep.ite ?_ ?_
    | split

theorem Dev.orderRollback_keep {ps : List Part} {e d : Dev} (h : Keep ps e d) (hfuncs : .funcs ∈ ps) (hfuse : .fuse ∈ ps) (hstrong : .strong ∈ ps) (a1) : Keep ps e (Dev.orderRollback d a1) := by
  unfold Dev.orderRollback
  repeat' first
    | with_reducible assumption
    | with_reducible refine Dev.countFuse_keep ?_ ‹_› _
    | with_reducible refine Dev.each_keep ?_ (fun x y hx => ?_)
    | with_reducible refine Dev.logFuse_keep ?_ ‹_› ‹_› _ _ _ _ _ _ _
    | with_reducible refine Dev.modFunc_keep ?_ ‹_› _ _
    | (extract_lets +onlyGivenNames lv; (have hx : Keep ps e lv := ?_); (on_goal 1 => clear_value lv); on_goal 2 => subst lv)
    | (extract_lets +onlyGivenNames lv; clear_value lv)
    | extract_lets +onlyGivenNames lv
    | with_reducible refine Keep.ite ?_ ?_
    | split

theorem Dev.laneErrors_keep {ps : List Part} {e d : Dev} (h : Keep ps e d) (hlink : .link ∈ ps) (a1 a2) : Keep ps e (Dev.laneErrors d a1 a2) := by
  unfold Dev.laneErrors
  repeat' first
    | with_reducible assumption
    | with_reducible refine Dev.modLane_keep ?_ ‹_› _ _
    | (extract_lets +onlyGivenNames lv; (have hx : Keep ps e lv := ?_); (on_goal 1 => clear_value lv); on_goal 2 => subst lv)
    | (extract_lets +onlyGivenNames lv; clear_value lv)
    | extract_lets +onlyGivenNames lv
    | with_reducible refine Keep.ite ?_ ?_
    | split

theorem Dev.laneLoss_keep {ps : List Part} {e d : Dev} (h : Keep ps e d) (hevents : .events ∈ ps) (hlink : .link ∈ ps) (a0 a1) : Keep ps e (Dev.laneLoss a0 a1 d) := by
  unfold Dev.laneLoss
  repeat' first
    | with_reducible assumption
    | with_reducible refine Dev.degrade_keep ?_ ‹_› ‹_› _ _
    | with_reducible refine Dev.laneErrors_keep ?_ ‹_› _ _
    | with_reducible refine Dev.lanePhase_keep ?_ ‹_› ‹_› _ _
    | (extract_lets +onlyGivenNames lv; (have hx : Keep ps e lv := ?_); (on_goal 1 => clear_value lv); on_goal 2 => subst lv)
    | (extract_lets +onlyGivenNames lv; clear_value lv)
    | extract_lets +onlyGivenNames lv
    | with_reducible refine Keep.ite ?_ ?_
    | split

theorem Dev.startCore_keep {ps : List Part} {e d : Dev} (h : Keep ps e d) (hfree : .free ∈ ps) (hevents : .events ∈ ps) (hcellar : .cellar ∈ ps) (hcores : .cores ∈ ps) (hstrong : .strong ∈ ps) (a1) : Keep ps e (Dev.startCore d a1) := by
  unfold Dev.startCore
  repeat' first
    | with_reducible assumption
    | with_reducible refine Dev.modCore_keep ?_ ‹_› _ _
    | with_reducible refine Dev.setStream_keep ?_ ‹_› _ _
    | with_reducible refine Dev.sync_keep ?_ ‹_› ‹_› ‹_› ‹_› ‹_› _ _
    | (extract_lets +onlyGivenNames lv; (have hx : Keep ps e lv := ?_); (on_goal 1 => clear_value lv); on_goal 2 => subst lv)
    | (extract_lets +onlyGivenNames lv; clear_value lv)
    | extract_lets +onlyGivenNames lv
    | with_reducible refine Keep.ite ?_ ?_
    | split

theorem Dev.resetUnit_keep {ps : List Part} {e d : Dev} (h : Keep ps e d) (hfree : .free ∈ ps) (hevents : .events ∈ ps) (hrooms : .rooms ∈ ps) (hfuncs : .funcs ∈ ps) (hnet : .net ∈ ps) (hcellar : .cellar ∈ ps) (hmedia : .media ∈ ps) (hlink : .link ∈ ps) (hrings : .rings ∈ ps) (hcores : .cores ∈ ps) (hsched : .sched ∈ ps) (hacq : .acq ∈ ps) (hfuse : .fuse ∈ ps) (hstrong : .strong ∈ ps) (a1) : Keep ps e (Dev.resetUnit d a1) := by
  unfold Dev.resetUnit
  repeat' first
    | with_reducible assumption
    | with_reducible refine Dev.abandon_keep ?_ ‹_› ‹_› ‹_› ‹_› _
    | with_reducible refine Dev.acqDisarm_keep ?_ ‹_› _
    | with_reducible refine Dev.bundleDown_keep ?_ ‹_› ‹_› _
    | with_reducible refine Dev.dispatchAll_keep ?_ ‹_› ‹_›
    | with_reducible refine Dev.each_keep ?_ (fun x y hx => ?_)
    | with_reducible refine Dev.isolateRoom_keep ?_ ‹_› ‹_› ‹_› _
    | with_reducible refine Dev.laneLoss_keep ?_ ‹_› ‹_› _ _
    | with_reducible refine Dev.lanePhase_keep ?_ ‹_› ‹_› _ _
    | with_reducible refine Dev.modCore_keep ?_ ‹_› _ _
    | with_reducible refine Dev.modNet_keep ?_ ‹_› _
    | with_reducible refine Dev.modRoom_keep ?_ ‹_› _ _
    | with_reducible refine Dev.modSrc_keep ?_ ‹_› _ _
    | with_reducible refine Dev.refillAll_keep ?_ ‹_› ‹_› ‹_› ‹_›
    | with_reducible refine Dev.sdiStop_keep ?_ ‹_› ‹_› _
    | with_reducible refine Dev.startCore_keep ?_ ‹_› ‹_› ‹_› ‹_› ‹_› _
    | with_reducible refine Dev.subportUpDown_keep ?_ ‹_› ‹_› _ _ _
    | (extract_lets +onlyGivenNames lv; (have hx : Keep ps e lv := ?_); (on_goal 1 => clear_value lv); on_goal 2 => subst lv)
    | (extract_lets +onlyGivenNames lv; clear_value lv)
    | extract_lets +onlyGivenNames lv
    | with_reducible refine Keep.ite ?_ ?_
    | split

theorem Dev.latch_keep {ps : List Part} {e d : Dev} (h : Keep ps e d) (hfree : .free ∈ ps) (hout : .out ∈ ps) (hevents : .events ∈ ps) (hrooms : .rooms ∈ ps) (hfuncs : .funcs ∈ ps) (hnet : .net ∈ ps) (hcellar : .cellar ∈ ps) (hmedia : .media ∈ ps) (hlink : .link ∈ ps) (hfabric : .fabric ∈ ps) (hrings : .rings ∈ ps) (hcores : .cores ∈ ps) (hsched : .sched ∈ ps) (hacq : .acq ∈ ps) (hfuse : .fuse ∈ ps) (hstrong : .strong ∈ ps) (a1) : Keep ps e (Dev.latch d a1) := by
  unfold Dev.latch
  repeat' first
    | with_reducible assumption
    | with_reducible refine Dev.isolateLane_keep ?_ ‹_› ‹_› ‹_› ‹_› _
    | with_reducible refine Dev.isolateRoom_keep ?_ ‹_› ‹_› ‹_› _
    | with_reducible refine Dev.logFuse_keep ?_ ‹_› ‹_› _ _ _ _ _ _ _
    | with_reducible refine Dev.modFuse_keep ?_ ‹_› _
    | with_reducible refine Dev.modSrc_keep ?_ ‹_› _ _
    | with_reducible refine Dev.newTask_keep ?_ ‹_› ‹_› ‹_› ‹_› _ _ _ _ _
    | with_reducible refine Dev.orderRollback_keep ?_ ‹_› ‹_› ‹_› _
    | with_reducible refine Dev.reforce_keep ?_ ‹_› ‹_›
    | with_reducible refine Dev.resetUnit_keep ?_ ‹_› ‹_› ‹_› ‹_› ‹_› ‹_› ‹_› ‹_› ‹_› ‹_› ‹_› ‹_› ‹_› ‹_› _
    | (extract_lets +onlyGivenNames lv; (have hx : Keep ps e lv := ?_); (on_goal 1 => clear_value lv); on_goal 2 => subst lv)
    | (extract_lets +onlyGivenNames lv; clear_value lv)
    | extract_lets +onlyGivenNames lv
    | with_reducible refine Keep.ite ?_ ?_
    | split

theorem Dev.classify_keep {ps : List Part} {e d : Dev} (h : Keep ps e d) (hfree : .free ∈ ps) (hout : .out ∈ ps) (hevents : .events ∈ ps) (hrooms : .rooms ∈ ps) (hfuncs : .funcs ∈ ps) (hnet : .net ∈ ps) (hcellar : .cellar ∈ ps) (hmedia : .media ∈ ps) (hlink : .link ∈ ps) (hfabric : .fabric ∈ ps) (hrings : .rings ∈ ps) (hcores : .cores ∈ ps) (hsched : .sched ∈ ps) (hacq : .acq ∈ ps) (hfuse : .fuse ∈ ps) (hstrong : .strong ∈ ps) (a1) : Keep ps e (Dev.classify d a1) := by
  unfold Dev.classify
  repeat' first
    | with_reducible assumption
    | with_reducible refine Dev.latch_keep ?_ ‹_› ‹_› ‹_› ‹_› ‹_› ‹_› ‹_› ‹_› ‹_› ‹_› ‹_› ‹_› ‹_› ‹_› ‹_› ‹_› _
    | with_reducible refine Dev.logFuse_keep ?_ ‹_› ‹_› _ _ _ _ _ _ _
    | with_reducible refine Dev.modSrc_keep ?_ ‹_› _ _
    | with_reducible refine Dev.orderRollback_keep ?_ ‹_› ‹_› ‹_› _
    | (extract_lets +onlyGivenNames lv; (have hx : Keep ps e lv := ?_); (on_goal 1 => clear_value lv); on_goal 2 => subst lv)
    | (extract_lets +onlyGivenNames lv; clear_value lv)
    | extract_lets +onlyGivenNames lv
    | with_reducible refine Keep.ite ?_ ?_
    | split

theorem Dev.clearFigures_keep {ps : List Part} {e d : Dev} (h : Keep ps e d) (hhub : .hub ∈ ps) (a1) : Keep ps e (Dev.clearFigures d a1) := by
  unfold Dev.clearFigures
  exact Keep.upd_hub h ‹_›

theorem Dev.followUev_keep {ps : List Part} {e d : Dev} (h : Keep ps e d) (hevents : .events ∈ ps) (hfabric : .fabric ∈ ps) (a0 a2) : Keep ps e (Dev.followUev a0 d a2) := by
  unfold Dev.followUev
  repeat' first
    | with_reducible assumption
    | with_reducible refine Dev.each_keep ?_ (fun x y hx => ?_)
    | with_reducible refine Dev.setUev_keep ?_ ‹_› ‹_› _ _
    | (extract_lets +onlyGivenNames lv; (have hx : Keep ps e lv := ?_); (on_goal 1 => clear_value lv); on_goal 2 => subst lv)
    | (extract_lets +onlyGivenNames lv; clear_value lv)
    | extract_lets +onlyGivenNames lv
    | with_reducible refine Keep.ite ?_ ?_
    | split

theorem Dev.hpTxWord_keep {ps : List Part} {e d : Dev} (h : Keep ps e d) (hevents : .events ∈ ps) (hfabric : .fabric ∈ ps) (a0 a1 a2) : Keep ps e (Dev.hpTxWord a0 a1 a2 d) := by
  unfold Dev.hpTxWord
  repeat' first
    | with_reducible assumption
    | with_reducible refine Dev.countFabric_keep ?_ ‹_› _
    | with_reducible refine Dev.modHp_keep ?_ ‹_› _ _
    | with_reducible refine Dev.raise_keep ?_ ‹_› _ _
    | (extract_lets +onlyGivenNames lv; (have hx : Keep ps e lv := ?_); (on_goal 1 => clear_value lv); on_goal 2 => subst lv)
    | (extract_lets +onlyGivenNames lv; clear_value lv)
    | extract_lets +onlyGivenNames lv
    | with_reducible refine Keep.ite ?_ ?_
    | split

theorem Dev.hpEdge_keep {ps : List Part} {e d : Dev} (h : Keep ps e d) (hevents : .events ∈ ps) (hfabric : .fabric ∈ ps) (a0 a2) : Keep ps e (Dev.hpEdge a0 d a2) := by
  unfold Dev.hpEdge
  repeat' first
    | with_reducible assumption
    | with_reducible refine Dev.hpTxWord_keep ?_ ‹_› ‹_› _ _ _
    | with_reducible refine Dev.modHp_keep ?_ ‹_› _ _
    | (extract_lets +onlyGivenNames lv; (have hx : Keep ps e lv := ?_); (on_goal 1 => clear_value lv); on_goal 2 => subst lv)
    | (extract_lets +onlyGivenNames lv; clear_value lv)
    | extract_lets +onlyGivenNames lv
    | with_reducible refine Keep.ite ?_ ?_
    | split

theorem Dev.clockEdges_keep {ps : List Part} {e d : Dev} (h : Keep ps e d) (hfree : .free ∈ ps) (hevents : .events ∈ ps) (hfabric : .fabric ∈ ps) (a1) : Keep ps e (Dev.clockEdges d a1) := by
  unfold Dev.clockEdges
  repeat' first
    | with_reducible assumption
    | with_reducible refine Dev.each_keep ?_ (fun x y hx => ?_)
    | with_reducible refine Dev.followUev_keep ?_ ‹_› ‹_› _ _
    | with_reducible refine Dev.hpEdge_keep ?_ ‹_› ‹_› _ _
    | with_reducible refine Dev.modFabric_keep ?_ ‹_› _
    | with_reducible refine Dev.take_keep ?_ ‹_› _
    | (extract_lets +onlyGivenNames lv; (have hx : Keep ps e lv := ?_); (on_goal 1 => clear_value lv); on_goal 2 => subst lv)
    | (extract_lets +onlyGivenNames lv; clear_value lv)
    | extract_lets +onlyGivenNames lv
    | with_reducible refine Keep.ite ?_ ?_
    | split

theorem Dev.newNonce_keep {ps : List Part} {e d : Dev} (h : Keep ps e d) (hfree : .free ∈ ps) (hstrong : .strong ∈ ps) : Keep ps e (Dev.newNonce d) := by
  unfold Dev.newNonce
  repeat' first
    | with_reducible assumption
    | with_reducible exact StrongKept.same rfl rfl rfl rfl rfl rfl rfl rfl rfl
    | exact StrongKept.of (fun h => ⟨h.1, h.2.1, Memory.wf_writeN _ _ _ rfl⟩) rfl rfl rfl rfl rfl rfl
    | exact StrongKept.of (fun h => ⟨h.1, Memory.wf_writeN _ _ _ h.2.1, h.2.2⟩) rfl rfl rfl rfl rfl rfl
    | with_reducible refine Dev.modStrong_keep ?_ ‹_› _ ?_
    | with_reducible refine Dev.take_keep ?_ ‹_› _
    | (extract_lets +onlyGivenNames lv; (have hx : Keep ps e lv := ?_); (on_goal 1 => clear_value lv); on_goal 2 => subst lv)
    | (extract_lets +onlyGivenNames lv; clear_value lv)
    | extract_lets +onlyGivenNames lv
    | with_reducible refine Keep.ite ?_ ?_
    | split

theorem Dev.cmdDone_keep {ps : List Part} {e d : Dev} (h : Keep ps e d) (hfree : .free ∈ ps) (hevents : .events ∈ ps) (hstrong : .strong ∈ ps) (a1) : Keep ps e (Dev.cmdDone d a1) := by
  unfold Dev.cmdDone
  repeat' first
    | with_reducible assumption
    | with_reducible exact StrongKept.same rfl rfl rfl rfl rfl rfl rfl rfl rfl
    | exact StrongKept.of (fun h => ⟨h.1, h.2.1, Memory.wf_writeN _ _ _ rfl⟩) rfl rfl rfl rfl rfl rfl
    | exact StrongKept.of (fun h => ⟨h.1, Memory.wf_writeN _ _ _ h.2.1, h.2.2⟩) rfl rfl rfl rfl rfl rfl
    | with_reducible refine Dev.modStrong_keep ?_ ‹_› _ ?_
    | with_reducible refine Dev.newNonce_keep ?_ ‹_› ‹_›
    | with_reducible refine Dev.raise_keep ?_ ‹_› _ _
    | (extract_lets +onlyGivenNames lv; (have hx : Keep ps e lv := ?_); (on_goal 1 => clear_value lv); on_goal 2 => subst lv)
    | (extract_lets +onlyGivenNames lv; clear_value lv)
    | extract_lets +onlyGivenNames lv
    | with_reducible refine Keep.ite ?_ ?_
    | split

theorem Dev.coldReset_keep {ps : List Part} {e d : Dev} (h : Keep ps e d) (hnow : .now ∈ ps) (hevents : .events ∈ ps) (hrooms : .rooms ∈ ps) (hfuncs : .funcs ∈ ps) (hnet : .net ∈ ps) (hcellar : .cellar ∈ ps) (hmedia : .media ∈ ps) (htime : .time ∈ ps) (hlink : .link ∈ ps) (hfabric : .fabric ∈ ps) (hloader : .loader ∈ ps) (hrings : .rings ∈ ps) (hcores : .cores ∈ ps) (hsched : .sched ∈ ps) (hacq : .acq ∈ ps) (hfuse : .fuse ∈ ps) (hstrong : .strong ∈ ps) (hhub : .hub ∈ ps) (hpower : .power ∈ ps) : Keep ps e (Dev.coldReset d) := by
  unfold Dev.coldReset
  exact Keep.upd_many19 h ‹_› ‹_› ‹_› ‹_› ‹_› ‹_› ‹_› ‹_› ‹_› ‹_› ‹_› ‹_› ‹_› ‹_› ‹_› ‹_› ‹_› ‹_› ‹_› (fun _ => rfl) (fun _ => rfl)
    (.of (fun _ => ⟨rfl, rfl, rfl⟩) rfl rfl rfl rfl rfl rfl) (fun _ => ⟨rfl, fun _ hp => nomatch hp⟩)

theorem Dev.countSramEcc_keep {ps : List Part} {e d : Dev} (h : Keep ps e d) (hevents : .events ∈ ps) (hstrong : .strong ∈ ps) (a1) : Keep ps e (Dev.countSramEcc d a1) := by
  unfold Dev.countSramEcc
  repeat' first
    | with_reducible assumption
    | (intro m hm; with_reducible exact hm)
    | (intro m hm; with_reducible exact Sram.put_wf hm _ _)
    | (intro m hm; with_reducible exact Memory.wf_clearRange _ _ _ hm)
    | (intro m hm; with_reducible exact Memory.wf_writeN _ _ _ hm)
    | with_reducible refine Dev.modSram_keep ?_ ‹_› _ ?_
    | with_reducible refine Dev.raise_keep ?_ ‹_› _ _
    | (extract_lets +onlyGivenNames lv; (have hx : Keep ps e lv := ?_); (on_goal 1 => clear_value lv); on_goal 2 => subst lv)
    | (extract_lets +onlyGivenNames lv; clear_value lv)
    | extract_lets +onlyGivenNames lv
    | with_reducible refine Keep.ite ?_ ?_
    | split

theorem Dev.preemptOn_keep {ps : List Part} {e d : Dev} (h : Keep ps e d) (hcores : .cores ∈ ps) (hsched : .sched ∈ ps) (a1) : Keep ps e (Dev.preemptOn d a1) := by
  unfold Dev.preemptOn
  repeat' first
    | with_reducible assumption
    | with_reducible refine Dev.preempt_keep ?_ ‹_› ‹_› _
    | (extract_lets +onlyGivenNames lv; (have hx : Keep ps e lv := ?_); (on_goal 1 => clear_value lv); on_goal 2 => subst lv)
    | (extract_lets +onlyGivenNames lv; clear_value lv)
    | extract_lets +onlyGivenNames lv
    | with_reducible refine Keep.ite ?_ ?_
    | split

theorem Dev.putSram_keep {ps : List Part} {e d : Dev} (h : Keep ps e d) (hstrong : .strong ∈ ps) (k : Nat) (bs : Bytes) :
    Keep ps e (d.modSram (·.put k bs)) := Dev.modSram_keep h hstrong _ fun _ hm => Sram.put_wf hm _ _

theorem Dev.coreStore_keep {ps : List Part} {e d : Dev} (h : Keep ps e d) (hcores : .cores ∈ ps) (hstrong : .strong ∈ ps) (a1 a2) : Keep ps e (Dev.coreStore d a1 a2) := by
  unfold Dev.coreStore
  extract_lets n bs
  generalize n - 0x10000000 = k
  repeat' first
    | exact Dev.modCore_keep h ‹_› _ _
    | exact Dev.putSram_keep h ‹_› _ _
    | exact h
    | split

theorem Dev.retireState_keep {ps : List Part} {e d : Dev} (h : Keep ps e d) (hfree : .free ∈ ps) (hevents : .events ∈ ps) (hcellar : .cellar ∈ ps) (hcores : .cores ∈ ps) (hstrong : .strong ∈ ps) (a1 a2) : Keep ps e (Dev.retireState d a1 a2) := by
  unfold Dev.retireState
  repeat' first
    | with_reducible assumption
    | with_reducible refine Dev.cellarTouch_keep ?_ ‹_› ‹_› ‹_› _ _
    | with_reducible refine Dev.coreStore_keep ?_ ‹_› ‹_› _ _
    | with_reducible refine Dev.modCore_keep ?_ ‹_› _ _
    | (extract_lets +onlyGivenNames lv; (have hx : Keep ps e lv := ?_); (on_goal 1 => clear_value lv); on_goal 2 => subst lv)
    | (extract_lets +onlyGivenNames lv; clear_value lv)
    | extract_lets +onlyGivenNames lv
    | with_reducible refine Keep.ite ?_ ?_
    | split

theorem Dev.tracePkt_keep {ps : List Part} {e d : Dev} (h : Keep ps e d) (hfree : .free ∈ ps) (hevents : .events ∈ ps) (hcellar : .cellar ∈ ps) (hcores : .cores ∈ ps) (hstrong : .strong ∈ ps) (a1 a2 a3) : Keep ps e (Dev.tracePkt d a1 a2 a3) := by
  unfold Dev.tracePkt
  repeat' first
    | with_reducible assumption
    | with_reducible refine Dev.setStream_keep ?_ ‹_› _ _
    | with_reducible refine Dev.streamPacket_keep ?_ ‹_› ‹_› ‹_› ‹_› ‹_› _ _
    | (extract_lets +onlyGivenNames lv; (have hx : Keep ps e lv := ?_); (on_goal 1 => clear_value lv); on_goal 2 => subst lv)
    | (extract_lets +onlyGivenNames lv; clear_value lv)
    | extract_lets +onlyGivenNames lv
    | with_reducible refine Keep.ite ?_ ?_
    | split

theorem Dev.flushBranches_keep {ps : List Part} {e d : Dev} (h : Keep ps e d) (hfree : .free ∈ ps) (hevents : .events ∈ ps) (hcellar : .cellar ∈ ps) (hcores : .cores ∈ ps) (hstrong : .strong ∈ ps) (a1) : Keep ps e (Dev.flushBranches d a1) := by
  unfold Dev.flushBranches
  repeat' first
    | with_reducible assumption
    | with_reducible refine Dev.setStream_keep ?_ ‹_› _ _
    | with_reducible refine Dev.tracePkt_keep ?_ ‹_› ‹_› ‹_› ‹_› ‹_› _ _ _
    | (extract_lets +onlyGivenNames lv; (have hx : Keep ps e lv := ?_); (on_goal 1 => clear_value lv); on_goal 2 => subst lv)
    | (extract_lets +onlyGivenNames lv; clear_value lv)
    | extract_lets +onlyGivenNames lv
    | with_reducible refine Keep.ite ?_ ?_
    | split

theorem Dev.traceOne_keep {ps : List Part} {e d : Dev} (h : Keep ps e d) (hfree : .free ∈ ps) (hevents : .events ∈ ps) (hcellar : .cellar ∈ ps) (hcores : .cores ∈ ps) (hstrong : .strong ∈ ps) (a1 a2 a3) : Keep ps e (Dev.traceOne d a1 a2 a3) := by
  unfold Dev.traceOne
  repeat' first
    | with_reducible assumption
    | with_reducible refine Dev.flushBranches_keep ?_ ‹_› ‹_› ‹_› ‹_› ‹_› _
    | with_reducible refine Dev.tracePkt_keep ?_ ‹_› ‹_› ‹_› ‹_› ‹_› _ _ _
    | (extract_lets +onlyGivenNames lv; (have hx : Keep ps e lv := ?_); (on_goal 1 => clear_value lv); on_goal 2 => subst lv)
    | (extract_lets +onlyGivenNames lv; clear_value lv)
    | extract_lets +onlyGivenNames lv
    | with_reducible refine Keep.ite ?_ ?_
    | split

theorem Dev.traceOff_keep {ps : List Part} {e d : Dev} (h : Keep ps e d) (hfree : .free ∈ ps) (hevents : .events ∈ ps) (hcellar : .cellar ∈ ps) (hcores : .cores ∈ ps) (hstrong : .strong ∈ ps) (a1 a2) : Keep ps e (Dev.traceOff d a1 a2) := by
  unfold Dev.traceOff
  repeat' first
    | with_reducible assumption
    | with_reducible refine Dev.setStream_keep ?_ ‹_› _ _
    | with_reducible refine Dev.traceOne_keep ?_ ‹_› ‹_› ‹_› ‹_› ‹_› _ _ _
    | (extract_lets +onlyGivenNames lv; (have hx : Keep ps e lv := ?_); (on_goal 1 => clear_value lv); on_goal 2 => subst lv)
    | (extract_lets +onlyGivenNames lv; clear_value lv)
    | extract_lets +onlyGivenNames lv
    | with_reducible refine Keep.ite ?_ ?_
    | split

theorem Dev.traceOn_keep {ps : List Part} {e d : Dev} (h : Keep ps e d) (hfree : .free ∈ ps) (hevents : .events ∈ ps) (hcellar : .cellar ∈ ps) (hcores : .cores ∈ ps) (hstrong : .strong ∈ ps) (a1 a2) : Keep ps e (Dev.traceOn d a1 a2) := by
  unfold Dev.traceOn
  repeat' first
    | with_reducible assumption
    | with_reducible refine Dev.setStream_keep ?_ ‹_› _ _
    | with_reducible refine Dev.sync_keep ?_ ‹_› ‹_› ‹_› ‹_› ‹_› _ _
    | with_reducible refine Dev.traceOne_keep ?_ ‹_› ‹_› ‹_› ‹_› ‹_› _ _ _
    | (extract_lets +onlyGivenNames lv; (have hx : Keep ps e lv := ?_); (on_goal 1 => clear_value lv); on_goal 2 => subst lv)
    | (extract_lets +onlyGivenNames lv; clear_value lv)
    | extract_lets +onlyGivenNames lv
    | with_reducible refine Keep.ite ?_ ?_
    | split

theorem Dev.traceFilter_keep {ps : List Part} {e d : Dev} (h : Keep ps e d) (hfree : .free ∈ ps) (hevents : .events ∈ ps) (hcellar : .cellar ∈ ps) (hcores : .cores ∈ ps) (hacq : .acq ∈ ps) (hstrong : .strong ∈ ps) (a1 a2) : Keep ps e (Dev.traceFilter d a1 a2) := by
  unfold Dev.traceFilter
  repeat' first
    | with_reducible assumption
    | with_reducible refine Dev.acqCrossTrigger_keep ?_ ‹_› ‹_› ‹_› ‹_› ‹_›
    | with_reducible refine Dev.each_keep ?_ (fun x y hx => ?_)
    | with_reducible refine Dev.traceOff_keep ?_ ‹_› ‹_› ‹_› ‹_› ‹_› _ _
    | with_reducible refine Dev.traceOn_keep ?_ ‹_› ‹_› ‹_› ‹_› ‹_› _ _
    | with_reducible refine Dev.traceOne_keep ?_ ‹_› ‹_› ‹_› ‹_› ‹_› _ _ _
    | (extract_lets +onlyGivenNames lv; (have hx : Keep ps e lv := ?_); (on_goal 1 => clear_value lv); on_goal 2 => subst lv)
    | (extract_lets +onlyGivenNames lv; clear_value lv)
    | extract_lets +onlyGivenNames lv
    | with_reducible refine Keep.ite ?_ ?_
    | split

theorem Dev.traceRetired_keep {ps : List Part} {e d : Dev} (h : Keep ps e d) (hfree : .free ∈ ps) (hevents : .events ∈ ps) (hcellar : .cellar ∈ ps) (hcores : .cores ∈ ps) (hstrong : .strong ∈ ps) (a1 a2) : Keep ps e (Dev.traceRetired d a1 a2) := by
  unfold Dev.traceRetired
  repeat' first
    | with_reducible assumption
    | with_reducible refine Dev.flushBranches_keep ?_ ‹_› ‹_› ‹_› ‹_› ‹_› _
    | with_reducible refine Dev.setStream_keep ?_ ‹_› _ _
    | with_reducible refine Dev.traceOne_keep ?_ ‹_› ‹_› ‹_› ‹_› ‹_› _ _ _
    | (extract_lets +onlyGivenNames lv; (have hx : Keep ps e lv := ?_); (on_goal 1 => clear_value lv); on_goal 2 => subst lv)
    | (extract_lets +onlyGivenNames lv; clear_value lv)
    | extract_lets +onlyGivenNames lv
    | with_reducible refine Keep.ite ?_ ?_
    | split

theorem Dev.coreInstruction_keep {ps : List Part} {e d : Dev} (h : Keep ps e d) (hfree : .free ∈ ps) (hevents : .events ∈ ps) (hcellar : .cellar ∈ ps) (hcores : .cores ∈ ps) (hsched : .sched ∈ ps) (hacq : .acq ∈ ps) (hstrong : .strong ∈ ps) (a0 a1 a2) : Keep ps e (Dev.coreInstruction a0 a1 a2 d) := by
  unfold Dev.coreInstruction
  repeat' first
    | with_reducible assumption
    | with_reducible refine Dev.cellarTouch_keep ?_ ‹_› ‹_› ‹_› _ _
    | with_reducible refine Dev.countSramEcc_keep ?_ ‹_› ‹_› _
    | with_reducible refine Dev.modCore_keep ?_ ‹_› _ _
    | with_reducible refine Dev.preemptOn_keep ?_ ‹_› ‹_› _
    | with_reducible refine Dev.retireState_keep ?_ ‹_› ‹_› ‹_› ‹_› ‹_› _ _
    | with_reducible refine Dev.traceFilter_keep ?_ ‹_› ‹_› ‹_› ‹_› ‹_› ‹_› _ _
    | with_reducible refine Dev.traceRetired_keep ?_ ‹_› ‹_› ‹_› ‹_› ‹_› _ _
    | (extract_lets +onlyGivenNames lv; (have hx : Keep ps e lv := ?_); (on_goal 1 => clear_value lv); on_goal 2 => subst lv)
    | (extract_lets +onlyGivenNames lv; clear_value lv)
    | extract_lets +onlyGivenNames lv
    | with_reducible refine Keep.ite ?_ ?_
    | split

theorem Dev.coreLoadData_keep {ps : List Part} {e d : Dev} (h : Keep ps e d) (hout : .out ∈ ps) (hcores : .cores ∈ ps) (a0 a1 a2) : Keep ps e (Dev.coreLoadData a0 a1 a2 d) := by
  unfold Dev.coreLoadData
  repeat' first
    | with_reducible assumption
    | with_reducible refine Dev.accessLdd_keep ?_ ‹_› _ _
    | with_reducible refine Dev.emit_keep ?_ ‹_› _
    | with_reducible refine Keep.fst2 ‹_› ?_
    | with_reducible refine Keep.fst ‹_› ?_
    | (extract_lets +onlyGivenNames lv; (have hx : Keep ps e lv := ?_); (on_goal 1 => clear_value lv); on_goal 2 => subst lv)
    | (extract_lets +onlyGivenNames lv; clear_value lv)
    | extract_lets +onlyGivenNames lv
    | with_reducible refine Keep.ite ?_ ?_
    | with_reducible refine Keep.iteFst ?_ ?_
    | split

theorem Dev.coreWake_keep {ps : List Part} {e d : Dev} (h : Keep ps e d) (hnow : .now ∈ ps) (hfree : .free ∈ ps) (hevents : .events ∈ ps) (hcellar : .cellar ∈ ps) (hcores : .cores ∈ ps) (hstrong : .strong ∈ ps) (a0 a1) : Keep ps e (Dev.coreWake a0 a1 d) := by
  unfold Dev.coreWake
  repeat' first
    | with_reducible assumption
    | with_reducible refine Dev.modCore_keep ?_ ‹_› _ _
    | with_reducible refine Dev.reach_keep ?_ ‹_› _
    | with_reducible refine Dev.streamReserved_keep ?_ ‹_› ‹_› ‹_› ‹_› ‹_› _ _
    | with_reducible refine Dev.sync_keep ?_ ‹_› ‹_› ‹_› ‹_› ‹_› _ _
    | (extract_lets +onlyGivenNames lv; (have hx : Keep ps e lv := ?_); (on_goal 1 => clear_value lv); on_goal 2 => subst lv)
    | (extract_lets +onlyGivenNames lv; clear_value lv)
    | extract_lets +onlyGivenNames lv
    | with_reducible refine Keep.ite ?_ ?_
    | split

theorem Dev.coreWfi_keep {ps : List Part} {e d : Dev} (h : Keep ps e d) (hfree : .free ∈ ps) (hevents : .events ∈ ps) (hcellar : .cellar ∈ ps) (hcores : .cores ∈ ps) (hstrong : .strong ∈ ps) (a0) : Keep ps e (Dev.coreWfi a0 d) := by
  unfold Dev.coreWfi
  repeat' first
    | with_reducible assumption
    | with_reducible refine Dev.flushBranches_keep ?_ ‹_› ‹_› ‹_› ‹_› ‹_› _
    | with_reducible refine Dev.modCore_keep ?_ ‹_› _ _
    | with_reducible refine Dev.setStream_keep ?_ ‹_› _ _
    | with_reducible refine Dev.streamReserved_keep ?_ ‹_› ‹_› ‹_› ‹_› ‹_› _ _
    | (extract_lets +onlyGivenNames lv; (have hx : Keep ps e lv := ?_); (on_goal 1 => clear_value lv); on_goal 2 => subst lv)
    | (extract_lets +onlyGivenNames lv; clear_value lv)
    | extract_lets +onlyGivenNames lv
    | with_reducible refine Keep.ite ?_ ?_
    | split

theorem Dev.measureCore_keep {ps : List Part} {e d : Dev} (h : Keep ps e d) (hcores : .cores ∈ ps) (hstrong : .strong ∈ ps) (a1) : Keep ps e (Dev.measureCore d a1) := by
  unfold Dev.measureCore
  repeat' first
    | with_reducible assumption
    | with_reducible refine Dev.measure_keep ?_ ‹_› _
    | with_reducible refine Dev.setCore_keep ?_ ‹_› _ _
    | (extract_lets +onlyGivenNames lv; (have hx : Keep ps e lv := ?_); (on_goal 1 => clear_value lv); on_goal 2 => subst lv)
    | (extract_lets +onlyGivenNames lv; clear_value lv)
    | extract_lets +onlyGivenNames lv
    | with_reducible refine Keep.ite ?_ ?_
    | split

theorem Dev.coresReturn_keep {ps : List Part} {e d : Dev} (h : Keep ps e d) (hfree : .free ∈ ps) (hevents : .events ∈ ps) (hcellar : .cellar ∈ ps) (hcores : .cores ∈ ps) (hstrong : .strong ∈ ps) : Keep ps e (Dev.coresReturn d) := by
  unfold Dev.coresReturn
  repeat' first
    | with_reducible assumption
    | with_reducible refine Dev.each_keep ?_ (fun x y hx => ?_)
    | with_reducible refine Dev.measureCore_keep ?_ ‹_› ‹_› _
    | with_reducible refine Dev.modCores_keep ?_ ‹_› _
    | with_reducible refine Dev.startCore_keep ?_ ‹_› ‹_› ‹_› ‹_› ‹_› _
    | (extract_lets +onlyGivenNames lv; (have hx : Keep ps e lv := ?_); (on_goal 1 => clear_value lv); on_goal 2 => subst lv)
    | (extract_lets +onlyGivenNames lv; clear_value lv)
    | extract_lets +onlyGivenNames lv
    | with_reducible refine Keep.ite ?_ ?_
    | split

theorem Dev.countHub_keep {ps : List Part} {e d : Dev} (h : Keep ps e d) (hhub : .hub ∈ ps) (a1) : Keep ps e (Dev.countHub d a1) := by
  unfold Dev.countHub
  exact Keep.upd_hub h ‹_›

theorem Dev.countSubst_keep {ps : List Part} {e d : Dev} (h : Keep ps e d) (hevents : .events ∈ ps) (hmedia : .media ∈ ps) (a1 a2 a3) : Keep ps e (Dev.countSubst d a1 a2 a3) := by
  unfold Dev.countSubst
  repeat' first
    | with_reducible assumption
    | with_reducible refine Dev.countFlow_keep ?_ ‹_› _ _ _
    | with_reducible refine Dev.raise_keep ?_ ‹_› _ _
    | (extract_lets +onlyGivenNames lv; (have hx : Keep ps e lv := ?_); (on_goal 1 => clear_value lv); on_goal 2 => subst lv)
    | (extract_lets +onlyGivenNames lv; clear_value lv)
    | extract_lets +onlyGivenNames lv
    | with_reducible refine Keep.ite ?_ ?_
    | split

theorem Dev.debugUnlockExpiry_keep {ps : List Part} {e d : Dev} (h : Keep ps e d) (hnow : .now ∈ ps) (hevents : .events ∈ ps) (hstrong : .strong ∈ ps) : Keep ps e (Dev.debugUnlockExpiry d) := by
  unfold Dev.debugUnlockExpiry
  repeat' first
    | with_reducible assumption
    | with_reducible refine Dev.debugEnd_keep ?_ ‹_› ‹_›
    | with_reducible refine Dev.reach_keep ?_ ‹_› _
    | (extract_lets +onlyGivenNames lv; (have hx : Keep ps e lv := ?_); (on_goal 1 => clear_value lv); on_goal 2 => subst lv)
    | (extract_lets +onlyGivenNames lv; clear_value lv)
    | extract_lets +onlyGivenNames lv
    | with_reducible refine Keep.ite ?_ ?_
    | split

theorem Dev.hubRestart_keep {ps : List Part} {e d : Dev} (h : Keep ps e d) (hfuncs : .funcs ∈ ps) (hcellar : .cellar ∈ ps) (a1) : Keep ps e (Dev.hubRestart d a1) := by
  unfold Dev.hubRestart
  repeat' first
    | with_reducible assumption
    | (intro c hc; with_reducible exact hc)
    | (intro c hc; with_reducible exact Cellar.seal_wf hc _ _ _ _)
    | (intro c hc; with_reducible exact Cellar.mergeRaw_wf hc _ _ _)
    | (intro c hc; (try dsimp only [Cellar.count, Cellar.setRegion, Cellar.setKey, Cellar.loadKey, Cellar.decideWb]); with_reducible exact hc)
    | (intro c hc; (try dsimp only [Cellar.count, Cellar.setRegion, Cellar.setKey, Cellar.loadKey, Cellar.decideWb]); with_reducible exact Cellar.seal_wf hc _ _ _ _)
    | (intro c hc; (try dsimp only [Cellar.count, Cellar.setRegion, Cellar.setKey, Cellar.loadKey, Cellar.decideWb]); with_reducible exact Cellar.mergeRaw_wf hc _ _ _)
    | (intro c hc; (try dsimp only [Cellar.count, Cellar.setRegion, Cellar.setKey, Cellar.loadKey, Cellar.decideWb]); with_reducible exact Cellar.putMeta_wf hc _ _)
    | (intro c hc; (try dsimp only [Cellar.count, Cellar.setRegion, Cellar.setKey, Cellar.loadKey, Cellar.decideWb]); with_reducible exact Cellar.putRaw_wf hc _ _)
    | (intro c hc; (try dsimp only [Cellar.count, Cellar.setRegion, Cellar.setKey, Cellar.loadKey, Cellar.decideWb]); with_reducible exact Memory.wf_write _ _ _ hc)
    | (intro c hc; (try dsimp only [Cellar.count, Cellar.setRegion, Cellar.setKey, Cellar.loadKey, Cellar.decideWb]); with_reducible exact Memory.wf_writeN _ _ _ hc)
    | (intro c hc; (try dsimp only [Cellar.count, Cellar.setRegion, Cellar.setKey, Cellar.loadKey, Cellar.decideWb]); with_reducible exact Memory.wf_clearRange _ _ _ hc)
    | (intro c hc; (try dsimp only [Cellar.count, Cellar.setRegion, Cellar.setKey, Cellar.loadKey, Cellar.decideWb]); with_reducible exact Memory.wf_spans _ _ hc)
    | (intro c hc; (repeat' split) <;> with_reducible exact hc)
    | (intro c hc; dsimp only; split <;> exact hc)
    | (intro c hc; exact hc)
    | with_reducible refine Dev.modCellar_keep ?_ ‹_› _ ?_
    | with_reducible refine Dev.modFunc_keep ?_ ‹_› _ _
    | (extract_lets +onlyGivenNames lv; (have hx : Keep ps e lv := ?_); (on_goal 1 => clear_value lv); on_goal 2 => subst lv)
    | (extract_lets +onlyGivenNames lv; clear_value lv)
    | extract_lets +onlyGivenNames lv
    | with_reducible refine Keep.ite ?_ ?_
    | split

theorem Dev.hubDecide_keep {ps : List Part} {e d : Dev} (h : Keep ps e d) (hfuncs : .funcs ∈ ps) (hcellar : .cellar ∈ ps) (a1) : Keep ps e (Dev.hubDecide d a1) := by
  unfold Dev.hubDecide
  repeat' first
    | with_reducible assumption
    | with_reducible refine Dev.hubApply_keep ?_ ‹_› ‹_› _
    | with_reducible refine Dev.hubRestart_keep ?_ ‹_› ‹_› _
    | with_reducible refine Dev.modFunc_keep ?_ ‹_› _ _
    | (extract_lets +onlyGivenNames lv; (have hx : Keep ps e lv := ?_); (on_goal 1 => clear_value lv); on_goal 2 => subst lv)
    | (extract_lets +onlyGivenNames lv; clear_value lv)
    | extract_lets +onlyGivenNames lv
    | with_reducible refine Keep.ite ?_ ?_
    | split

theorem Dev.decision_keep {ps : List Part} {e d : Dev} (h : Keep ps e d) (hfree : .free ∈ ps) (hevents : .events ∈ ps) (hrooms : .rooms ∈ ps) (hfuncs : .funcs ∈ ps) (hnet : .net ∈ ps) (hcellar : .cellar ∈ ps) (hcores : .cores ∈ ps) (hstrong : .strong ∈ ps) (a0) : Keep ps e (Dev.decision a0 d) := by
  unfold Dev.decision
  repeat' first
    | with_reducible assumption
    | with_reducible refine Dev.hubDecide_keep ?_ ‹_› ‹_› _
    | with_reducible refine Dev.hubRestart_keep ?_ ‹_› ‹_› _
    | with_reducible refine Dev.modRoom_keep ?_ ‹_› _ _
    | with_reducible refine Dev.putNet_keep ?_ ‹_› _
    | with_reducible refine Dev.trace_keep ?_ ‹_› ‹_› ‹_› ‹_› ‹_› ‹_› _ _ _ _ _ _
    | (extract_lets +onlyGivenNames lv; (have hx : Keep ps e lv := ?_); (on_goal 1 => clear_value lv); on_goal 2 => subst lv)
    | (extract_lets +onlyGivenNames lv; clear_value lv)
    | extract_lets +onlyGivenNames lv
    | with_reducible refine Keep.ite ?_ ?_
    | split

theorem Dev.fuseReceive_keep {ps : List Part} {e d : Dev} (h : Keep ps e d) (hfuse : .fuse ∈ ps) (a1) : Keep ps e (Dev.fuseReceive d a1) := by
  unfold Dev.fuseReceive
  repeat' first
    | with_reducible assumption
    | with_reducible refine Dev.putFuse_keep ?_ ‹_› _
    | (extract_lets +onlyGivenNames lv; (have hx : Keep ps e lv := ?_); (on_goal 1 => clear_value lv); on_goal 2 => subst lv)
    | (extract_lets +onlyGivenNames lv; clear_value lv)
    | extract_lets +onlyGivenNames lv
    | with_reducible refine Keep.ite ?_ ?_
    | split

theorem Dev.deliver_keep {ps : List Part} {e d : Dev} (h : Keep ps e d) (hfree : .free ∈ ps) (hout : .out ∈ ps) (hevents : .events ∈ ps) (hnet : .net ∈ ps) (hcellar : .cellar ∈ ps) (hrings : .rings ∈ ps) (hcores : .cores ∈ ps) (hsched : .sched ∈ ps) (hacq : .acq ∈ ps) (hfuse : .fuse ∈ ps) (hstrong : .strong ∈ ps) (a1) : Keep ps e (Dev.deliver d a1) := by
  unfold Dev.deliver
  repeat' first
    | with_reducible assumption
    | with_reducible refine Dev.fuseReceive_keep ?_ ‹_› _
    | with_reducible refine Dev.msix_keep ?_ ‹_› ‹_› _ _
    | with_reducible refine Dev.newTask_keep ?_ ‹_› ‹_› ‹_› ‹_› _ _ _ _ _
    | with_reducible refine Dev.putAcq_keep ?_ ‹_› _
    | with_reducible refine Dev.trace_keep ?_ ‹_› ‹_› ‹_› ‹_› ‹_› ‹_› _ _ _ _ _ _
    | (extract_lets +onlyGivenNames lv; (have hx : Keep ps e lv := ?_); (on_goal 1 => clear_value lv); on_goal 2 => subst lv)
    | (extract_lets +onlyGivenNames lv; clear_value lv)
    | extract_lets +onlyGivenNames lv
    | with_reducible refine Keep.ite ?_ ?_
    | split

theorem Dev.descriptorFetch_keep {ps : List Part} {e d : Dev} (h : Keep ps e d) (hout : .out ∈ ps) (hevents : .events ∈ ps) (hlink : .link ∈ ps) (hrings : .rings ∈ ps) (hsched : .sched ∈ ps) (a0 a1) : Keep ps e (Dev.descriptorFetch a0 a1 d) := by
  unfold Dev.descriptorFetch
  extract_lets +onlyGivenNames r
  split
  · exact h
  · extract_lets +onlyGivenNames x
    split
    · extract_lets +onlyGivenNames d2
      have h2 : Keep ps e d2 := Dev.modRing_keep h ‹_› _ _ (fun hr => by rw [Ring.advance_window]; exact hr)
      clear_value d2
      split
      · split
        · exact Dev.finish_keep h2 ‹_› ‹_› ‹_› ‹_› ‹_› _ _ _ _ _ _
        · exact h2
      · exact h2
    · split
      · exact Dev.reheld_keep h ‹_› ‹_› _
      · rename_i hn
        extract_lets +onlyGivenNames w seq ok entry d0 d1
        have hne : ∀ y ∈ (d.ring a0).window, y.slot ≠ entry.slot := fun y hy hs => by
          have hx : d.entry? x = none := by simpa using (not_or.1 hn).2
          have := List.find?_eq_none.1 hx y hy
          exact this (beq_iff_eq.2 hs)
        have h0 : Keep ps e d0 := Dev.modRing_keep h ‹_› _ _ (fun hr => by rw [Ring.advance_window]; exact RingKept.push rfl hne r.fetch.isLt hr)
        have h1 : Keep ps e d1 := by
          subst d1
          clear_value d0
          split
          · exact Dev.finish_keep h0 ‹_› ‹_› ‹_› ‹_› ‹_› _ _ _ _ _ _
          · split
            · exact Dev.finish_keep h0 ‹_› ‹_› ‹_› ‹_› ‹_› _ _ _ _ _ _
            · split
              · exact Dev.finish_keep h0 ‹_› ‹_› ‹_› ‹_› ‹_› _ _ _ _ _ _
              · exact Dev.accept_keep h0 ‹_› ‹_› ‹_› ‹_› ‹_› _ _
        exact Dev.reheld_keep h1 ‹_› ‹_› _

theorem Dev.nextTask_keep {ps : List Part} {e d : Dev} (h : Keep ps e d) (hcores : .cores ∈ ps) (hsched : .sched ∈ ps) (a1) : Keep ps e (Dev.nextTask d a1) := by
  unfold Dev.nextTask
  repeat' first
    | with_reducible assumption
    | with_reducible refine Dev.giveTask_keep ?_ ‹_› ‹_› _ _
    | with_reducible refine Dev.setPhase_keep ?_ ‹_› _ _
    | (extract_lets +onlyGivenNames lv; (have hx : Keep ps e lv := ?_); (on_goal 1 => clear_value lv); on_goal 2 => subst lv)
    | (extract_lets +onlyGivenNames lv; clear_value lv)
    | extract_lets +onlyGivenNames lv
    | with_reducible refine Keep.ite ?_ ?_
    | split

theorem Dev.reassert_keep {ps : List Part} {e d : Dev} (h : Keep ps e d) (hevents : .events ∈ ps) (hrings : .rings ∈ ps) (hcores : .cores ∈ ps) (hsched : .sched ∈ ps) : Keep ps e (Dev.reassert d) := by
  unfold Dev.reassert
  repeat' first
    | with_reducible assumption
    | with_reducible refine Dev.each_keep ?_ (fun x y hx => ?_)
    | with_reducible refine Dev.newTask_keep ?_ ‹_› ‹_› ‹_› ‹_› _ _ _ _ _
    | (extract_lets +onlyGivenNames lv; (have hx : Keep ps e lv := ?_); (on_goal 1 => clear_value lv); on_goal 2 => subst lv)
    | (extract_lets +onlyGivenNames lv; clear_value lv)
    | extract_lets +onlyGivenNames lv
    | with_reducible refine Keep.ite ?_ ?_
    | split

theorem Dev.done_keep {ps : List Part} {e d : Dev} (h : Keep ps e d) (hevents : .events ∈ ps) (hrings : .rings ∈ ps) (hcores : .cores ∈ ps) (hsched : .sched ∈ ps) (a0) : Keep ps e (Dev.done a0 d) := by
  unfold Dev.done
  repeat' first
    | with_reducible assumption
    | with_reducible refine Dev.countSched_keep ?_ ‹_› _
    | with_reducible refine Dev.dispatchAll_keep ?_ ‹_› ‹_›
    | with_reducible refine Dev.freeTask_keep ?_ ‹_› _
    | with_reducible refine Dev.modCore_keep ?_ ‹_› _ _
    | with_reducible refine Dev.nextTask_keep ?_ ‹_› ‹_› _
    | with_reducible refine Dev.raise_keep ?_ ‹_› _ _
    | with_reducible refine Dev.reassert_keep ?_ ‹_› ‹_› ‹_› ‹_›
    | with_reducible refine Dev.refillAll_keep ?_ ‹_› ‹_› ‹_› ‹_›
    | with_reducible refine Dev.reheldAll_keep ?_ ‹_› ‹_›
    | (extract_lets +onlyGivenNames lv; (have hx : Keep ps e lv := ?_); (on_goal 1 => clear_value lv); on_goal 2 => subst lv)
    | (extract_lets +onlyGivenNames lv; clear_value lv)
    | extract_lets +onlyGivenNames lv
    | with_reducible refine Keep.ite ?_ ?_
    | split

theorem Dev.releaseTo_keep {ps : List Part} {e d : Dev} (h : Keep ps e d) (hevents : .events ∈ ps) (hmedia : .media ∈ ps) (a1 a2 a3 a4) : Keep ps e (Dev.releaseTo d a1 a2 a3 a4) := by
  unfold Dev.releaseTo
  repeat' first
    | with_reducible assumption
    | with_reducible refine Dev.countSubst_keep ?_ ‹_› ‹_› _ _ _
    | with_reducible refine Dev.setEgr_keep ?_ ‹_› _ _
    | with_reducible refine Dev.setFlow_keep ?_ ‹_› _ _
    | (extract_lets +onlyGivenNames lv; (have hx : Keep ps e lv := ?_); (on_goal 1 => clear_value lv); on_goal 2 => subst lv)
    | (extract_lets +onlyGivenNames lv; clear_value lv)
    | extract_lets +onlyGivenNames lv
    | with_reducible refine Keep.ite ?_ ?_
    | split

theorem Dev.releaseToPort_keep {ps : List Part} {e d : Dev} (h : Keep ps e d) (hfabric : .fabric ∈ ps) (a1 a2 a3) : Keep ps e (Dev.releaseToPort d a1 a2 a3) := by
  unfold Dev.releaseToPort
  repeat' first
    | with_reducible assumption
    | with_reducible refine Dev.putFabric_keep ?_ ‹_› _
    | (extract_lets +onlyGivenNames lv; (have hx : Keep ps e lv := ?_); (on_goal 1 => clear_value lv); on_goal 2 => subst lv)
    | (extract_lets +onlyGivenNames lv; clear_value lv)
    | extract_lets +onlyGivenNames lv
    | with_reducible refine Keep.ite ?_ ?_
    | split

theorem Dev.rerouteDone_keep {ps : List Part} {e d : Dev} (h : Keep ps e d) (hout : .out ∈ ps) (hevents : .events ∈ ps) (hfuncs : .funcs ∈ ps) (hmedia : .media ∈ ps) (hlink : .link ∈ ps) (hrings : .rings ∈ ps) (hsched : .sched ∈ ps) (a1 a2) : Keep ps e (Dev.rerouteDone d a1 a2) := by
  unfold Dev.rerouteDone
  repeat' first
    | with_reducible assumption
    | with_reducible refine Dev.finish_keep ?_ ‹_› ‹_› ‹_› ‹_› ‹_› _ _ _ _ _ _
    | with_reducible refine Dev.modFunc_keep ?_ ‹_› _ _
    | with_reducible refine Dev.modMedia_keep ?_ ‹_› _
    | (extract_lets +onlyGivenNames lv; (have hx : Keep ps e lv := ?_); (on_goal 1 => clear_value lv); on_goal 2 => subst lv)
    | (extract_lets +onlyGivenNames lv; clear_value lv)
    | extract_lets +onlyGivenNames lv
    | with_reducible refine Keep.ite ?_ ?_
    | split

theorem Dev.drainRelease_keep {ps : List Part} {e d : Dev} (h : Keep ps e d) (hout : .out ∈ ps) (hevents : .events ∈ ps) (hfuncs : .funcs ∈ ps) (hmedia : .media ∈ ps) (hlink : .link ∈ ps) (hfabric : .fabric ∈ ps) (hrings : .rings ∈ ps) (hsched : .sched ∈ ps) (a0 a1) : Keep ps e (Dev.drainRelease a0 a1 d) := by
  unfold Dev.drainRelease
  repeat' first
    | with_reducible assumption
    | with_reducible refine Dev.countSubst_keep ?_ ‹_› ‹_› _ _ _
    | with_reducible refine Dev.modFunc_keep ?_ ‹_› _ _
    | with_reducible refine Dev.releaseTo_keep ?_ ‹_› ‹_› _ _ _ _
    | with_reducible refine Dev.releaseToPort_keep ?_ ‹_› _ _ _
    | with_reducible refine Dev.rerouteDone_keep ?_ ‹_› ‹_› ‹_› ‹_› ‹_› ‹_› ‹_› _ _
    | with_reducible refine Dev.setEgr_keep ?_ ‹_› _ _
    | (extract_lets +onlyGivenNames lv; (have hx : Keep ps e lv := ?_); (on_goal 1 => clear_value lv); on_goal 2 => subst lv)
    | (extract_lets +onlyGivenNames lv; clear_value lv)
    | extract_lets +onlyGivenNames lv
    | with_reducible refine Keep.ite ?_ ?_
    | split

theorem Dev.emitShown_keep {ps : List Part} {e d : Dev} (h : Keep ps e d) (hout : .out ∈ ps) (hmedia : .media ∈ ps) (a1 a2 a3 a4) : Keep ps e (Dev.emitShown d a1 a2 a3 a4) := by
  unfold Dev.emitShown
  repeat' first
    | with_reducible assumption
    | with_reducible refine Dev.emit_keep ?_ ‹_› _
    | with_reducible refine Dev.setFlow_keep ?_ ‹_› _ _
    | (extract_lets +onlyGivenNames lv; (have hx : Keep ps e lv := ?_); (on_goal 1 => clear_value lv); on_goal 2 => subst lv)
    | (extract_lets +onlyGivenNames lv; clear_value lv)
    | extract_lets +onlyGivenNames lv
    | with_reducible refine Keep.ite ?_ ?_
    | split

theorem Dev.insertAnc_keep {ps : List Part} {e d : Dev} (h : Keep ps e d) (hout : .out ∈ ps) (hevents : .events ∈ ps) (hmedia : .media ∈ ps) (a1 a2 a3) : Keep ps e (Dev.insertAnc d a1 a2 a3) := by
  unfold Dev.insertAnc
  repeat' first
    | with_reducible assumption
    | with_reducible refine Dev.countSdi_keep ?_ ‹_› _ _ _
    | with_reducible refine Dev.emit_keep ?_ ‹_› _
    | with_reducible refine Dev.raise_keep ?_ ‹_› _ _
    | with_reducible refine Dev.setEgr_keep ?_ ‹_› _ _
    | (extract_lets +onlyGivenNames lv; (have hx : Keep ps e lv := ?_); (on_goal 1 => clear_value lv); on_goal 2 => subst lv)
    | (extract_lets +onlyGivenNames lv; clear_value lv)
    | extract_lets +onlyGivenNames lv
    | with_reducible refine Keep.ite ?_ ?_
    | split

theorem Dev.egressGroup_keep {ps : List Part} {e d : Dev} (h : Keep ps e d) (hout : .out ∈ ps) (hevents : .events ∈ ps) (hmedia : .media ∈ ps) (a0) : Keep ps e (Dev.egressGroup a0 d) := by
  unfold Dev.egressGroup
  repeat' first
    | with_reducible assumption
    | with_reducible refine Dev.emitShown_keep ?_ ‹_› ‹_› _ _ _ _
    | with_reducible refine Dev.insertAnc_keep ?_ ‹_› ‹_› ‹_› _ _ _
    | with_reducible refine Dev.modEgr_keep ?_ ‹_› _ _
    | with_reducible refine Dev.setEgr_keep ?_ ‹_› _ _
    | (extract_lets +onlyGivenNames lv; (have hx : Keep ps e lv := ?_); (on_goal 1 => clear_value lv); on_goal 2 => subst lv)
    | (extract_lets +onlyGivenNames lv; clear_value lv)
    | extract_lets +onlyGivenNames lv
    | with_reducible refine Keep.ite ?_ ?_
    | split

theorem Dev.fuseRelease_keep {ps : List Part} {e d : Dev} (h : Keep ps e d) (hevents : .events ∈ ps) (hfuse : .fuse ∈ ps) (hstrong : .strong ∈ ps) : Keep ps e (Dev.fuseRelease d) := by
  unfold Dev.fuseRelease
  repeat' first
    | with_reducible assumption
    | with_reducible refine Dev.each_keep ?_ (fun x y hx => ?_)
    | with_reducible refine Dev.fuseReceive_keep ?_ ‹_› _
    | with_reducible refine Dev.logFuse_keep ?_ ‹_› ‹_› _ _ _ _ _ _ _
    | with_reducible refine Dev.modFuse_keep ?_ ‹_› _
    | with_reducible refine Dev.raise_keep ?_ ‹_› _ _
    | (extract_lets +onlyGivenNames lv; (have hx : Keep ps e lv := ?_); (on_goal 1 => clear_value lv); on_goal 2 => subst lv)
    | (extract_lets +onlyGivenNames lv; clear_value lv)
    | extract_lets +onlyGivenNames lv
    | with_reducible refine Keep.ite ?_ ?_
    | split

theorem Dev.recordCeiling_keep {ps : List Part} {e d : Dev} (h : Keep ps e d) (hpower : .power ∈ ps) : Keep ps e (Dev.recordCeiling d) := by
  unfold Dev.recordCeiling
  repeat' first
    | with_reducible assumption
    | with_reducible refine Dev.modPower_keep ?_ ‹_› _
    | (extract_lets +onlyGivenNames lv; (have hx : Keep ps e lv := ?_); (on_goal 1 => clear_value lv); on_goal 2 => subst lv)
    | (extract_lets +onlyGivenNames lv; clear_value lv)
    | extract_lets +onlyGivenNames lv
    | with_reducible refine Keep.ite ?_ ?_
    | split

theorem Dev.endCores_keep {ps : List Part} {e d : Dev} (h : Keep ps e d) (hfree : .free ∈ ps) (hout : .out ∈ ps) (hevents : .events ∈ ps) (hrooms : .rooms ∈ ps) (hcellar : .cellar ∈ ps) (hmedia : .media ∈ ps) (htime : .time ∈ ps) (hlink : .link ∈ ps) (hfabric : .fabric ∈ ps) (hcores : .cores ∈ ps) (hfuse : .fuse ∈ ps) (hstrong : .strong ∈ ps) (hpower : .power ∈ ps) : Keep ps e (Dev.endCores d) := by
  unfold Dev.endCores
  repeat' first
    | with_reducible assumption
    | (intro c hc; with_reducible exact hc)
    | (intro c hc; with_reducible exact Cellar.seal_wf hc _ _ _ _)
    | (intro c hc; with_reducible exact Cellar.mergeRaw_wf hc _ _ _)
    | (intro c hc; (try dsimp only [Cellar.count, Cellar.setRegion, Cellar.setKey, Cellar.loadKey, Cellar.decideWb]); with_reducible exact hc)
    | (intro c hc; (try dsimp only [Cellar.count, Cellar.setRegion, Cellar.setKey, Cellar.loadKey, Cellar.decideWb]); with_reducible exact Cellar.seal_wf hc _ _ _ _)
    | (intro c hc; (try dsimp only [Cellar.count, Cellar.setRegion, Cellar.setKey, Cellar.loadKey, Cellar.decideWb]); with_reducible exact Cellar.mergeRaw_wf hc _ _ _)
    | (intro c hc; (try dsimp only [Cellar.count, Cellar.setRegion, Cellar.setKey, Cellar.loadKey, Cellar.decideWb]); with_reducible exact Cellar.putMeta_wf hc _ _)
    | (intro c hc; (try dsimp only [Cellar.count, Cellar.setRegion, Cellar.setKey, Cellar.loadKey, Cellar.decideWb]); with_reducible exact Cellar.putRaw_wf hc _ _)
    | (intro c hc; (try dsimp only [Cellar.count, Cellar.setRegion, Cellar.setKey, Cellar.loadKey, Cellar.decideWb]); with_reducible exact Memory.wf_write _ _ _ hc)
    | (intro c hc; (try dsimp only [Cellar.count, Cellar.setRegion, Cellar.setKey, Cellar.loadKey, Cellar.decideWb]); with_reducible exact Memory.wf_writeN _ _ _ hc)
    | (intro c hc; (try dsimp only [Cellar.count, Cellar.setRegion, Cellar.setKey, Cellar.loadKey, Cellar.decideWb]); with_reducible exact Memory.wf_clearRange _ _ _ hc)
    | (intro c hc; (try dsimp only [Cellar.count, Cellar.setRegion, Cellar.setKey, Cellar.loadKey, Cellar.decideWb]); with_reducible exact Memory.wf_spans _ _ hc)
    | (intro c hc; (repeat' split) <;> with_reducible exact hc)
    | (intro c hc; dsimp only; split <;> exact hc)
    | (intro c hc; exact hc)
    | with_reducible exact StrongKept.same rfl rfl rfl rfl rfl rfl rfl rfl rfl
    | exact StrongKept.of (fun h => ⟨h.1, h.2.1, Memory.wf_writeN _ _ _ rfl⟩) rfl rfl rfl rfl rfl rfl
    | exact StrongKept.of (fun h => ⟨h.1, Memory.wf_writeN _ _ _ h.2.1, h.2.2⟩) rfl rfl rfl rfl rfl rfl
    | with_reducible refine Dev.applyRecord_keep ?_ ‹_› ‹_› ‹_› ‹_› ‹_› ‹_› ‹_› ‹_› ‹_› ‹_› _
    | with_reducible refine Dev.each_keep ?_ (fun x y hx => ?_)
    | with_reducible refine Dev.fuseRelease_keep ?_ ‹_› ‹_› ‹_›
    | with_reducible refine Dev.measure_keep ?_ ‹_› _
    | with_reducible refine Dev.modCellar_keep ?_ ‹_› _ ?_
    | with_reducible refine Dev.modCores_keep ?_ ‹_› _
    | with_reducible refine Dev.modPower_keep ?_ ‹_› _
    | with_reducible refine Dev.modStrong_keep ?_ ‹_› _ ?_
    | with_reducible refine Dev.modTime_keep ?_ ‹_› _
    | with_reducible refine Dev.raise_keep ?_ ‹_› _ _
    | with_reducible refine Dev.recordCeiling_keep ?_ ‹_›
    | with_reducible refine Dev.startCore_keep ?_ ‹_› ‹_› ‹_› ‹_› ‹_› _
    | with_reducible refine Dev.take_keep ?_ ‹_› _
    | (extract_lets +onlyGivenNames lv; (have hx : Keep ps e lv := ?_); (on_goal 1 => clear_value lv); on_goal 2 => subst lv)
    | (extract_lets +onlyGivenNames lv; clear_value lv)
    | extract_lets +onlyGivenNames lv
    | with_reducible refine Keep.ite ?_ ?_
    | split

theorem Dev.endFwload_keep {ps : List Part} {e d : Dev} (h : Keep ps e d) (hcores : .cores ∈ ps) (hpower : .power ∈ ps) (a0) : Keep ps e (Dev.endFwload a0 d) := by
  unfold Dev.endFwload
  repeat' first
    | with_reducible assumption
    | with_reducible refine Dev.modPower_keep ?_ ‹_› _
    | with_reducible refine Dev.takeFirmware_keep ?_ ‹_› ‹_› _ _ _
    | (extract_lets +onlyGivenNames lv; (have hx : Keep ps e lv := ?_); (on_goal 1 => clear_value lv); on_goal 2 => subst lv)
    | (extract_lets +onlyGivenNames lv; clear_value lv)
    | extract_lets +onlyGivenNames lv
    | with_reducible refine Keep.ite ?_ ?_
    | split

theorem Dev.seedArrives_keep {ps : List Part} {e d : Dev} (h : Keep ps e d) (hfuncs : .funcs ∈ ps) (hnet : .net ∈ ps) (a1 a2 a3 a4 a5) : Keep ps e (Dev.seedArrives d a1 a2 a3 a4 a5) := by
  unfold Dev.seedArrives
  repeat' first
    | with_reducible assumption
    | with_reducible refine Dev.carrySeed_keep ?_ ‹_› _ _ _ _
    | with_reducible refine Dev.modMigration_keep ?_ ‹_› _ _
    | (extract_lets +onlyGivenNames lv; (have hx : Keep ps e lv := ?_); (on_goal 1 => clear_value lv); on_goal 2 => subst lv)
    | (extract_lets +onlyGivenNames lv; clear_value lv)
    | extract_lets +onlyGivenNames lv
    | with_reducible refine Keep.ite ?_ ?_
    | split

theorem Dev.endMark_keep {ps : List Part} {e d : Dev} (h : Keep ps e d) (hrooms : .rooms ∈ ps) (hfuncs : .funcs ∈ ps) (hnet : .net ∈ ps) (a0) : Keep ps e (Dev.endMark a0 d) := by
  unfold Dev.endMark
  repeat' first
    | with_reducible assumption
    | with_reducible refine Dev.modMigration_keep ?_ ‹_› _ _
    | with_reducible refine Dev.seedArrives_keep ?_ ‹_› ‹_› _ _ _ _ _
    | with_reducible refine Dev.settleSeed_keep ?_ ‹_› ‹_› _ _ _ _
    | (extract_lets +onlyGivenNames lv; (have hx : Keep ps e lv := ?_); (on_goal 1 => clear_value lv); on_goal 2 => subst lv)
    | (extract_lets +onlyGivenNames lv; clear_value lv)
    | extract_lets +onlyGivenNames lv
    | with_reducible refine Keep.ite ?_ ?_
    | split

theorem Dev.endRom_keep {ps : List Part} {e d : Dev} (h : Keep ps e d) (hfree : .free ∈ ps) (hcellar : .cellar ∈ ps) (hstrong : .strong ∈ ps) (hpower : .power ∈ ps) : Keep ps e (Dev.endRom d) := by
  unfold Dev.endRom
  repeat' first
    | with_reducible assumption
    | (intro c hc; with_reducible exact hc)
    | (intro c hc; with_reducible exact Cellar.seal_wf hc _ _ _ _)
    | (intro c hc; with_reducible exact Cellar.mergeRaw_wf hc _ _ _)
    | (intro c hc; (try dsimp only [Cellar.count, Cellar.setRegion, Cellar.setKey, Cellar.loadKey, Cellar.decideWb]); with_reducible exact hc)
    | (intro c hc; (try dsimp only [Cellar.count, Cellar.setRegion, Cellar.setKey, Cellar.loadKey, Cellar.decideWb]); with_reducible exact Cellar.seal_wf hc _ _ _ _)
    | (intro c hc; (try dsimp only [Cellar.count, Cellar.setRegion, Cellar.setKey, Cellar.loadKey, Cellar.decideWb]); with_reducible exact Cellar.mergeRaw_wf hc _ _ _)
    | (intro c hc; (try dsimp only [Cellar.count, Cellar.setRegion, Cellar.setKey, Cellar.loadKey, Cellar.decideWb]); with_reducible exact Cellar.putMeta_wf hc _ _)
    | (intro c hc; (try dsimp only [Cellar.count, Cellar.setRegion, Cellar.setKey, Cellar.loadKey, Cellar.decideWb]); with_reducible exact Cellar.putRaw_wf hc _ _)
    | (intro c hc; (try dsimp only [Cellar.count, Cellar.setRegion, Cellar.setKey, Cellar.loadKey, Cellar.decideWb]); with_reducible exact Memory.wf_write _ _ _ hc)
    | (intro c hc; (try dsimp only [Cellar.count, Cellar.setRegion, Cellar.setKey, Cellar.loadKey, Cellar.decideWb]); with_reducible exact Memory.wf_writeN _ _ _ hc)
    | (intro c hc; (try dsimp only [Cellar.count, Cellar.setRegion, Cellar.setKey, Cellar.loadKey, Cellar.decideWb]); with_reducible exact Memory.wf_clearRange _ _ _ hc)
    | (intro c hc; (try dsimp only [Cellar.count, Cellar.setRegion, Cellar.setKey, Cellar.loadKey, Cellar.decideWb]); with_reducible exact Memory.wf_spans _ _ hc)
    | (intro c hc; (repeat' split) <;> with_reducible exact hc)
    | (intro c hc; dsimp only; split <;> exact hc)
    | (intro c hc; exact hc)
    | with_reducible exact StrongKept.same rfl rfl rfl rfl rfl rfl rfl rfl rfl
    | exact StrongKept.of (fun h => ⟨h.1, h.2.1, Memory.wf_writeN _ _ _ rfl⟩) rfl rfl rfl rfl rfl rfl
    | exact StrongKept.of (fun h => ⟨h.1, Memory.wf_writeN _ _ _ h.2.1, h.2.2⟩) rfl rfl rfl rfl rfl rfl
    | with_reducible refine Dev.measure_keep ?_ ‹_› _
    | with_reducible refine Dev.modCellar_keep ?_ ‹_› _ ?_
    | with_reducible refine Dev.modPower_keep ?_ ‹_› _
    | with_reducible refine Dev.modStrong_keep ?_ ‹_› _ ?_
    | with_reducible refine Dev.newNonce_keep ?_ ‹_› ‹_›
    | with_reducible refine Dev.take_keep ?_ ‹_› _
    | (extract_lets +onlyGivenNames lv; (have hx : Keep ps e lv := ?_); (on_goal 1 => clear_value lv); on_goal 2 => subst lv)
    | (extract_lets +onlyGivenNames lv; clear_value lv)
    | extract_lets +onlyGivenNames lv
    | with_reducible refine Keep.ite ?_ ?_
    | split

theorem Dev.essentialScrub_keep {ps : List Part} {e d : Dev} (h : Keep ps e d) (hevents : .events ∈ ps) (hrooms : .rooms ∈ ps) (hnet : .net ∈ ps) (hfabric : .fabric ∈ ps) (hloader : .loader ∈ ps) (a0 a1) : Keep ps e (Dev.essentialScrub a0 a1 d) := by
  unfold Dev.essentialScrub
  repeat' first
    | with_reducible assumption
    | with_reducible refine Dev.modLoader_keep ?_ ‹_› _
    | with_reducible refine Dev.rewrite_keep ?_ ‹_› ‹_› ‹_› ‹_› ‹_› _ _
    | (extract_lets +onlyGivenNames lv; (have hx : Keep ps e lv := ?_); (on_goal 1 => clear_value lv); on_goal 2 => subst lv)
    | (extract_lets +onlyGivenNames lv; clear_value lv)
    | extract_lets +onlyGivenNames lv
    | with_reducible refine Keep.ite ?_ ?_
    | split

theorem Dev.fecFound_keep {ps : List Part} {e d : Dev} (h : Keep ps e d) (hevents : .events ∈ ps) (hmedia : .media ∈ ps) (a1 a2) : Keep ps e (Dev.fecFound d a1 a2) := by
  unfold Dev.fecFound
  repeat' first
    | with_reducible assumption
    | with_reducible refine Dev.countEth_keep ?_ ‹_› _ _ _
    | with_reducible refine Dev.raise_keep ?_ ‹_› _ _
    | (extract_lets +onlyGivenNames lv; (have hx : Keep ps e lv := ?_); (on_goal 1 => clear_value lv); on_goal 2 => subst lv)
    | (extract_lets +onlyGivenNames lv; clear_value lv)
    | extract_lets +onlyGivenNames lv
    | with_reducible refine Keep.ite ?_ ?_
    | split

theorem Dev.flowPacket_keep {ps : List Part} {e d : Dev} (h : Keep ps e d) (hevents : .events ∈ ps) (hmedia : .media ∈ ps) (a1 a2 a3) : Keep ps e (Dev.flowPacket d a1 a2 a3) := by
  unfold Dev.flowPacket
  repeat' first
    | with_reducible assumption
    | with_reducible refine Dev.countFlow_keep ?_ ‹_› _ _ _
    | with_reducible refine Dev.raise_keep ?_ ‹_› _ _
    | with_reducible refine Dev.setFlow_keep ?_ ‹_› _ _
    | (extract_lets +onlyGivenNames lv; (have hx : Keep ps e lv := ?_); (on_goal 1 => clear_value lv); on_goal 2 => subst lv)
    | (extract_lets +onlyGivenNames lv; clear_value lv)
    | extract_lets +onlyGivenNames lv
    | with_reducible refine Keep.ite ?_ ?_
    | split

theorem Dev.ptpRx_keep {ps : List Part} {e d : Dev} (h : Keep ps e d) (hout : .out ∈ ps) (hevents : .events ∈ ps) (hmedia : .media ∈ ps) (htime : .time ∈ ps) (a1 a2 a3) : Keep ps e (Dev.ptpRx d a1 a2 a3) := by
  unfold Dev.ptpRx
  repeat' first
    | with_reducible assumption
    | with_reducible refine Dev.announce_keep ?_ ‹_› ‹_› _ _
    | with_reducible refine Dev.answerPtp_keep ?_ ‹_› ‹_› ‹_› ‹_› _ _ _
    | with_reducible refine Dev.emit_keep ?_ ‹_› _
    | with_reducible refine Dev.modTime_keep ?_ ‹_› _
    | (extract_lets +onlyGivenNames lv; (have hx : Keep ps e lv := ?_); (on_goal 1 => clear_value lv); on_goal 2 => subst lv)
    | (extract_lets +onlyGivenNames lv; clear_value lv)
    | extract_lets +onlyGivenNames lv
    | with_reducible refine Keep.ite ?_ ?_
    | split

theorem Dev.ethFrame_keep {ps : List Part} {e d : Dev} (h : Keep ps e d) (hout : .out ∈ ps) (hevents : .events ∈ ps) (hmedia : .media ∈ ps) (htime : .time ∈ ps) (a0 a1 a2) : Keep ps e (Dev.ethFrame a0 a1 a2 d) := by
  unfold Dev.ethFrame
  repeat' first
    | with_reducible assumption
    | with_reducible refine Dev.bridgeForward_keep ?_ ‹_› ‹_› ‹_› ‹_› _ _ _
    | with_reducible refine Dev.countEth_keep ?_ ‹_› _ _ _
    | with_reducible refine Dev.fecFound_keep ?_ ‹_› ‹_› _ _
    | with_reducible refine Dev.flowPacket_keep ?_ ‹_› ‹_› _ _ _
    | with_reducible refine Dev.ptpRx_keep ?_ ‹_› ‹_› ‹_› ‹_› _ _ _
    | with_reducible refine Dev.setEth_keep ?_ ‹_› _ _
    | (extract_lets +onlyGivenNames lv; (have hx : Keep ps e lv := ?_); (on_goal 1 => clear_value lv); on_goal 2 => subst lv)
    | (extract_lets +onlyGivenNames lv; clear_value lv)
    | extract_lets +onlyGivenNames lv
    | with_reducible refine Keep.ite ?_ ?_
    | split

theorem Dev.putEvents_keep {ps : List Part} {e d : Dev} (h : Keep ps e d) (hevents : .events ∈ ps) (a1) : Keep ps e (Dev.putEvents d a1) := by
  unfold Dev.putEvents
  exact Keep.upd_events h ‹_›

theorem Dev.eventOccurrence_keep {ps : List Part} {e d : Dev} (h : Keep ps e d) (hfree : .free ∈ ps) (hout : .out ∈ ps) (hevents : .events ∈ ps) (hnet : .net ∈ ps) (hcellar : .cellar ∈ ps) (hrings : .rings ∈ ps) (hcores : .cores ∈ ps) (hsched : .sched ∈ ps) (hacq : .acq ∈ ps) (hfuse : .fuse ∈ ps) (hstrong : .strong ∈ ps) (a0 a1) : Keep ps e (Dev.eventOccurrence a0 a1 d) := by
  unfold Dev.eventOccurrence
  repeat' first
    | with_reducible assumption
    | with_reducible refine Dev.carryEvent_keep ?_ ‹_› _
    | with_reducible refine Dev.deliver_keep ?_ ‹_› ‹_› ‹_› ‹_› ‹_› ‹_› ‹_› ‹_› ‹_› ‹_› ‹_› _
    | with_reducible refine Dev.putEvents_keep ?_ ‹_› _
    | (extract_lets +onlyGivenNames lv; (have hx : Keep ps e lv := ?_); (on_goal 1 => clear_value lv); on_goal 2 => subst lv)
    | (extract_lets +onlyGivenNames lv; clear_value lv)
    | extract_lets +onlyGivenNames lv
    | with_reducible refine Keep.ite ?_ ?_
    | split

theorem Dev.eyeScanDone_keep {ps : List Part} {e d : Dev} (h : Keep ps e d) (hevents : .events ∈ ps) (hlink : .link ∈ ps) (a0 a1) : Keep ps e (Dev.eyeScanDone a0 a1 d) := by
  unfold Dev.eyeScanDone
  repeat' first
    | with_reducible assumption
    | with_reducible refine Dev.modLane_keep ?_ ‹_› _ _
    | with_reducible refine Dev.raise_keep ?_ ‹_› _ _
    | (extract_lets +onlyGivenNames lv; (have hx : Keep ps e lv := ?_); (on_goal 1 => clear_value lv); on_goal 2 => subst lv)
    | (extract_lets +onlyGivenNames lv; clear_value lv)
    | extract_lets +onlyGivenNames lv
    | with_reducible refine Keep.ite ?_ ?_
    | split

theorem Dev.fabricBlockWritten_keep {ps : List Part} {e d : Dev} (h : Keep ps e d) (hfabric : .fabric ∈ ps) : Keep ps e (Dev.fabricBlockWritten d) := by
  unfold Dev.fabricBlockWritten
  repeat' first
    | with_reducible assumption
    | with_reducible refine Dev.modFabric_keep ?_ ‹_› _
    | (extract_lets +onlyGivenNames lv; (have hx : Keep ps e lv := ?_); (on_goal 1 => clear_value lv); on_goal 2 => subst lv)
    | (extract_lets +onlyGivenNames lv; clear_value lv)
    | extract_lets +onlyGivenNames lv
    | with_reducible refine Keep.ite ?_ ?_
    | split

theorem Dev.withdrawStage_keep {ps : List Part} {e d : Dev} (h : Keep ps e d) (hfree : .free ∈ ps) (hevents : .events ∈ ps) (hfabric : .fabric ∈ ps) (a1) : Keep ps e (Dev.withdrawStage d a1) := by
  unfold Dev.withdrawStage
  repeat' first
    | with_reducible assumption
    | with_reducible refine Dev.holdBlock_keep ?_ ‹_› ‹_› ‹_› _ _
    | with_reducible refine Dev.modFabric_keep ?_ ‹_› _
    | (extract_lets +onlyGivenNames lv; (have hx : Keep ps e lv := ?_); (on_goal 1 => clear_value lv); on_goal 2 => subst lv)
    | (extract_lets +onlyGivenNames lv; clear_value lv)
    | extract_lets +onlyGivenNames lv
    | with_reducible refine Keep.ite ?_ ?_
    | split

theorem Dev.fabricReturn_keep {ps : List Part} {e d : Dev} (h : Keep ps e d) (hfree : .free ∈ ps) (hevents : .events ∈ ps) (hfabric : .fabric ∈ ps) : Keep ps e (Dev.fabricReturn d) := by
  unfold Dev.fabricReturn
  repeat' first
    | with_reducible assumption
    | with_reducible refine Dev.each_keep ?_ (fun x y hx => ?_)
    | with_reducible refine Dev.modFabric_keep ?_ ‹_› _
    | with_reducible refine Dev.refreshPads_keep ?_ ‹_›
    | with_reducible refine Dev.startRelease_keep ?_ ‹_› _
    | with_reducible refine Dev.withdrawStage_keep ?_ ‹_› ‹_› ‹_› _
    | (extract_lets +onlyGivenNames lv; (have hx : Keep ps e lv := ?_); (on_goal 1 => clear_value lv); on_goal 2 => subst lv)
    | (extract_lets +onlyGivenNames lv; clear_value lv)
    | extract_lets +onlyGivenNames lv
    | with_reducible refine Keep.ite ?_ ?_
    | split

theorem Dev.rewindPair_keep {ps : List Part} {e d : Dev} (h : Keep ps e d) (hout : .out ∈ ps) (hevents : .events ∈ ps) (hlink : .link ∈ ps) (hrings : .rings ∈ ps) (hsched : .sched ∈ ps) (a1) : Keep ps e (Dev.rewindPair d a1) := by
  unfold Dev.rewindPair
  repeat' first
    | with_reducible assumption
    | (intro hr; with_reducible exact hr)
    | exact RingKept.dropped _ rfl
    | exact RingKept.mapped _ (fun y => by split <;> rfl) (Ring.reapply_window _)
    | exact RingKept.mapped _ (fun y => by split <;> rfl) rfl
    | (refine RingKept.mapped _ ?_ rfl; intro y; rfl)
    | (intro hr; rw [Dev.reach_ring] at hr; exact hr)
    | (intro hr; (try split) <;> exact hr)
    | (intro hr; dsimp only; split <;> exact hr)
    | with_reducible refine Dev.modRing_keep ?_ ‹_› _ _ ?_
    | with_reducible refine Dev.postRing_keep ?_ ‹_› ‹_› ‹_› ‹_› ‹_› _
    | (extract_lets +onlyGivenNames lv; (have hx : Keep ps e lv := ?_); (on_goal 1 => clear_value lv); on_goal 2 => subst lv)
    | (extract_lets +onlyGivenNames lv; clear_value lv)
    | extract_lets +onlyGivenNames lv
    | with_reducible refine Keep.ite ?_ ?_
    | split

theorem Dev.failover_keep {ps : List Part} {e d : Dev} (h : Keep ps e d) (hfree : .free ∈ ps) (hout : .out ∈ ps) (hevents : .events ∈ ps) (hcellar : .cellar ∈ ps) (hlink : .link ∈ ps) (hrings : .rings ∈ ps) (hcores : .cores ∈ ps) (hsched : .sched ∈ ps) (hstrong : .strong ∈ ps) : Keep ps e (Dev.failover d) := by
  unfold Dev.failover
  repeat' first
    | with_reducible assumption
    | with_reducible refine Dev.dispatchAll_keep ?_ ‹_› ‹_›
    | with_reducible refine Dev.each_keep ?_ (fun x y hx => ?_)
    | with_reducible refine Dev.measure_keep ?_ ‹_› _
    | with_reducible refine Dev.modCoreAt_keep ?_ ‹_› _ _
    | with_reducible refine Dev.modCores_keep ?_ ‹_› _
    | with_reducible refine Dev.rewindPair_keep ?_ ‹_› ‹_› ‹_› ‹_› ‹_› _
    | with_reducible refine Dev.setPhase_keep ?_ ‹_› _ _
    | with_reducible refine Dev.startCore_keep ?_ ‹_› ‹_› ‹_› ‹_› ‹_› _
    | (extract_lets +onlyGivenNames lv; (have hx : Keep ps e lv := ?_); (on_goal 1 => clear_value lv); on_goal 2 => subst lv)
    | (extract_lets +onlyGivenNames lv; clear_value lv)
    | extract_lets +onlyGivenNames lv
    | with_reducible refine Keep.ite ?_ ?_
    | split

theorem Dev.feedDeadline_keep {ps : List Part} {e d : Dev} (h : Keep ps e d) (hnow : .now ∈ ps) (hevents : .events ∈ ps) (hmedia : .media ∈ ps) (a0 a1) : Keep ps e (Dev.feedDeadline a0 a1 d) := by
  unfold Dev.feedDeadline
  repeat' first
    | with_reducible assumption
    | with_reducible refine Dev.lateGroups_keep ?_ ‹_› ‹_› _ _
    | with_reducible refine Dev.reach_keep ?_ ‹_› _
    | (extract_lets +onlyGivenNames lv; (have hx : Keep ps e lv := ?_); (on_goal 1 => clear_value lv); on_goal 2 => subst lv)
    | (extract_lets +onlyGivenNames lv; clear_value lv)
    | extract_lets +onlyGivenNames lv
    | with_reducible refine Keep.ite ?_ ?_
    | split

theorem Keep.foldFst {ps : List Part} {e : Dev} {α β : Type} {l : List α} {f : Dev × β → α → Dev × β} {y : Dev × β} (h : Keep ps e y.1)
    (hf : ∀ y k, Keep ps e y.1 → Keep ps e (f y k).1) : Keep ps e (l.foldl f y).1 := by
  induction l generalizing y with
  | nil => exact h
  | cons x l ih => exact ih (hf _ _ h)

theorem Dev.storeGroup_keep {ps : List Part} {e d : Dev} (h : Keep ps e d) (hfree : .free ∈ ps) (hevents : .events ∈ ps) (hcellar : .cellar ∈ ps) (a1 a2 a3 a4 a5 a6 a7) : Keep ps e (Dev.storeGroup d a1 a2 a3 a4 a5 a6 a7) := by
  unfold Dev.storeGroup
  extract_lets +onlyGivenNames w n lim fs
  split
  · exact h
  · extract_lets +onlyGivenNames words first base count
    split
    rename_i hf
    have hk := congrArg Prod.fst hf
    dsimp only at hk
    rw [← hk]
    refine Dev.modCellar_keep (Keep.foldFst h fun y k hy => ?_) ‹_› _ fun c hc => hc
    split
    · exact hy
    · generalize hw : Dev.writeLine y.1 _ _ _ _ _ _ = o
      have := Dev.writeLine_keep hy ‹_› ‹_› ‹_› .feed (BitVec.ofNat 9 w.toNat) (base + (first / 16 + k))
          (wordsAt first (first / 16 + k) words).1 (wordsAt first (first / 16 + k) words).2 (a7.getD k {})
      rw [hw] at this
      exact this

theorem Dev.feedGroup_keep {ps : List Part} {e d : Dev} (h : Keep ps e d) (hfree : .free ∈ ps) (hevents : .events ∈ ps) (hcellar : .cellar ∈ ps) (hmedia : .media ∈ ps) (a0 a1) : Keep ps e (Dev.feedGroup a0 a1 d) := by
  unfold Dev.feedGroup
  repeat' first
    | with_reducible assumption
    | with_reducible refine Dev.each_keep ?_ (fun x y hx => ?_)
    | with_reducible refine Dev.modMedia_keep ?_ ‹_› _
    | with_reducible refine Dev.storeGroup_keep ?_ ‹_› ‹_› ‹_› _ _ _ _ _ _ _
    | (extract_lets +onlyGivenNames lv; (have hx : Keep ps e lv := ?_); (on_goal 1 => clear_value lv); on_goal 2 => subst lv)
    | (extract_lets +onlyGivenNames lv; clear_value lv)
    | extract_lets +onlyGivenNames lv
    | with_reducible refine Keep.ite ?_ ?_
    | split

theorem Dev.fence_keep {ps : List Part} {e d : Dev} (h : Keep ps e d) (hout : .out ∈ ps) (hevents : .events ∈ ps) (hlink : .link ∈ ps) (hrings : .rings ∈ ps) (hsched : .sched ∈ ps) (a0) : Keep ps e (Dev.fence a0 d) := by
  unfold Dev.fence
  repeat' first
    | with_reducible assumption
    | with_reducible refine Dev.runOp_keep ?_ ‹_› (fun x y hx => ?_)
    | with_reducible refine Dev.settle_keep ?_ ‹_› ‹_› ‹_› ‹_› ‹_› _
    | (extract_lets +onlyGivenNames lv; (have hx : Keep ps e lv := ?_); (on_goal 1 => clear_value lv); on_goal 2 => subst lv)
    | (extract_lets +onlyGivenNames lv; clear_value lv)
    | extract_lets +onlyGivenNames lv
    | with_reducible refine Keep.ite ?_ ?_
    | split

theorem Dev.firmwareReady_keep {ps : List Part} {e d : Dev} (h : Keep ps e d) (hcores : .cores ∈ ps) : Keep ps e (Dev.firmwareReady d) := by
  unfold Dev.firmwareReady
  repeat' first
    | with_reducible assumption
    | with_reducible refine Dev.modCores_keep ?_ ‹_› _
    | (extract_lets +onlyGivenNames lv; (have hx : Keep ps e lv := ?_); (on_goal 1 => clear_value lv); on_goal 2 => subst lv)
    | (extract_lets +onlyGivenNames lv; clear_value lv)
    | extract_lets +onlyGivenNames lv
    | with_reducible refine Keep.ite ?_ ?_
    | split

theorem Dev.flitCrcError_keep {ps : List Part} {e d : Dev} (h : Keep ps e d) (hevents : .events ∈ ps) (hnet : .net ∈ ps) (a0) : Keep ps e (Dev.flitCrcError a0 d) := by
  unfold Dev.flitCrcError
  repeat' first
    | with_reducible assumption
    | with_reducible refine Dev.modNet_keep ?_ ‹_› _
    | with_reducible refine Dev.raise_keep ?_ ‹_› _ _
    | (extract_lets +onlyGivenNames lv; (have hx : Keep ps e lv := ?_); (on_goal 1 => clear_value lv); on_goal 2 => subst lv)
    | (extract_lets +onlyGivenNames lv; clear_value lv)
    | extract_lets +onlyGivenNames lv
    | with_reducible refine Keep.ite ?_ ?_
    | split

theorem Dev.flowClose_keep {ps : List Part} {e d : Dev} (h : Keep ps e d) (hout : .out ∈ ps) (hevents : .events ∈ ps) (hmedia : .media ∈ ps) (htime : .time ∈ ps) (hlink : .link ∈ ps) (hrings : .rings ∈ ps) (hsched : .sched ∈ ps) (a0) : Keep ps e (Dev.flowClose a0 d) := by
  unfold Dev.flowClose
  repeat' first
    | with_reducible assumption
    | with_reducible refine Dev.bridgeFlush_keep ?_ ‹_› ‹_› ‹_› _
    | with_reducible refine Dev.countSubst_keep ?_ ‹_› ‹_› _ _ _
    | with_reducible refine Dev.finish_keep ?_ ‹_› ‹_› ‹_› ‹_› ‹_› _ _ _ _ _ _
    | with_reducible refine Dev.finishOk_keep ?_ ‹_› ‹_› ‹_› ‹_› ‹_› _ _ _
    | with_reducible refine Dev.modEgr_keep ?_ ‹_› _ _
    | with_reducible refine Dev.modMedia_keep ?_ ‹_› _
    | with_reducible refine Dev.runOp_keep ?_ ‹_› (fun x y hx => ?_)
    | with_reducible refine Dev.setFlow_keep ?_ ‹_› _ _
    | (extract_lets +onlyGivenNames lv; (have hx : Keep ps e lv := ?_); (on_goal 1 => clear_value lv); on_goal 2 => subst lv)
    | (extract_lets +onlyGivenNames lv; clear_value lv)
    | extract_lets +onlyGivenNames lv
    | with_reducible refine Keep.ite ?_ ?_
    | split

theorem Dev.flowOpen_keep {ps : List Part} {e d : Dev} (h : Keep ps e d) (hout : .out ∈ ps) (hevents : .events ∈ ps) (hmedia : .media ∈ ps) (hlink : .link ∈ ps) (hrings : .rings ∈ ps) (hsched : .sched ∈ ps) (a0) : Keep ps e (Dev.flowOpen a0 d) := by
  unfold Dev.flowOpen
  repeat' first
    | with_reducible assumption
    | with_reducible refine Dev.finish_keep ?_ ‹_› ‹_› ‹_› ‹_› ‹_› _ _ _ _ _ _
    | with_reducible refine Dev.finishOk_keep ?_ ‹_› ‹_› ‹_› ‹_› ‹_› _ _ _
    | with_reducible refine Dev.modEgr_keep ?_ ‹_› _ _
    | with_reducible refine Dev.runOp_keep ?_ ‹_› (fun x y hx => ?_)
    | with_reducible refine Dev.setFlow_keep ?_ ‹_› _ _
    | (extract_lets +onlyGivenNames lv; (have hx : Keep ps e lv := ?_); (on_goal 1 => clear_value lv); on_goal 2 => subst lv)
    | (extract_lets +onlyGivenNames lv; clear_value lv)
    | extract_lets +onlyGivenNames lv
    | with_reducible refine Keep.ite ?_ ?_
    | split

theorem Dev.flr_keep {ps : List Part} {e d : Dev} (h : Keep ps e d) (hrings : .rings ∈ ps) (a0) : Keep ps e (Dev.flr a0 d) := by
  unfold Dev.flr
  repeat' first
    | with_reducible assumption
    | (intro hr; with_reducible exact hr)
    | exact RingKept.dropped _ rfl
    | exact RingKept.mapped _ (fun y => by split <;> rfl) (Ring.reapply_window _)
    | exact RingKept.mapped _ (fun y => by split <;> rfl) rfl
    | (refine RingKept.mapped _ ?_ rfl; intro y; rfl)
    | (intro hr; rw [Dev.reach_ring] at hr; exact hr)
    | (intro hr; (try split) <;> exact hr)
    | (intro hr; dsimp only; split <;> exact hr)
    | with_reducible refine Dev.each_keep ?_ (fun x y hx => ?_)
    | with_reducible refine Dev.modRing_keep ?_ ‹_› _ _ ?_
    | (extract_lets +onlyGivenNames lv; (have hx : Keep ps e lv := ?_); (on_goal 1 => clear_value lv); on_goal 2 => subst lv)
    | (extract_lets +onlyGivenNames lv; clear_value lv)
    | extract_lets +onlyGivenNames lv
    | with_reducible refine Keep.ite ?_ ?_
    | split

theorem Dev.freestart_keep {ps : List Part} {e d : Dev} (h : Keep ps e d) (htime : .time ∈ ps) (hhub : .hub ∈ ps) : Keep ps e (Dev.freestart d) := by
  unfold Dev.freestart
  repeat' first
    | with_reducible assumption
    | with_reducible refine Dev.armStart_keep ?_ ‹_›
    | with_reducible refine Dev.ignore_keep ?_ ‹_› _
    | (extract_lets +onlyGivenNames lv; (have hx : Keep ps e lv := ?_); (on_goal 1 => clear_value lv); on_goal 2 => subst lv)
    | (extract_lets +onlyGivenNames lv; clear_value lv)
    | extract_lets +onlyGivenNames lv
    | with_reducible refine Keep.ite ?_ ?_
    | split

theorem Dev.writeFs_keep {ps : List Part} {e d : Dev} (h : Keep ps e d) (hcellar : .cellar ∈ ps) (a1 a2) : Keep ps e (Dev.writeFs d a1 a2) := by
  unfold Dev.writeFs
  repeat' first
    | with_reducible assumption
    | (intro c hc; with_reducible exact hc)
    | (intro c hc; with_reducible exact Cellar.seal_wf hc _ _ _ _)
    | (intro c hc; with_reducible exact Cellar.mergeRaw_wf hc _ _ _)
    | (intro c hc; (try dsimp only [Cellar.count, Cellar.setRegion, Cellar.setKey, Cellar.loadKey, Cellar.decideWb]); with_reducible exact hc)
    | (intro c hc; (try dsimp only [Cellar.count, Cellar.setRegion, Cellar.setKey, Cellar.loadKey, Cellar.decideWb]); with_reducible exact Cellar.seal_wf hc _ _ _ _)
    | (intro c hc; (try dsimp only [Cellar.count, Cellar.setRegion, Cellar.setKey, Cellar.loadKey, Cellar.decideWb]); with_reducible exact Cellar.mergeRaw_wf hc _ _ _)
    | (intro c hc; (try dsimp only [Cellar.count, Cellar.setRegion, Cellar.setKey, Cellar.loadKey, Cellar.decideWb]); with_reducible exact Cellar.putMeta_wf hc _ _)
    | (intro c hc; (try dsimp only [Cellar.count, Cellar.setRegion, Cellar.setKey, Cellar.loadKey, Cellar.decideWb]); with_reducible exact Cellar.putRaw_wf hc _ _)
    | (intro c hc; (try dsimp only [Cellar.count, Cellar.setRegion, Cellar.setKey, Cellar.loadKey, Cellar.decideWb]); with_reducible exact Memory.wf_write _ _ _ hc)
    | (intro c hc; (try dsimp only [Cellar.count, Cellar.setRegion, Cellar.setKey, Cellar.loadKey, Cellar.decideWb]); with_reducible exact Memory.wf_writeN _ _ _ hc)
    | (intro c hc; (try dsimp only [Cellar.count, Cellar.setRegion, Cellar.setKey, Cellar.loadKey, Cellar.decideWb]); with_reducible exact Memory.wf_clearRange _ _ _ hc)
    | (intro c hc; (try dsimp only [Cellar.count, Cellar.setRegion, Cellar.setKey, Cellar.loadKey, Cellar.decideWb]); with_reducible exact Memory.wf_spans _ _ hc)
    | (intro c hc; (repeat' split) <;> with_reducible exact hc)
    | (intro c hc; dsimp only; split <;> exact hc)
    | (intro c hc; exact hc)
    | with_reducible refine Dev.modCellar_keep ?_ ‹_› _ ?_
    | (extract_lets +onlyGivenNames lv; (have hx : Keep ps e lv := ?_); (on_goal 1 => clear_value lv); on_goal 2 => subst lv)
    | (extract_lets +onlyGivenNames lv; clear_value lv)
    | extract_lets +onlyGivenNames lv
    | with_reducible refine Keep.ite ?_ ?_
    | split

theorem Dev.fsOpen_keep {ps : List Part} {e d : Dev} (h : Keep ps e d) (hcellar : .cellar ∈ ps) (a0 a1 a2) : Keep ps e (Dev.fsOpen a0 a1 a2 d) := by
  unfold Dev.fsOpen
  repeat' first
    | with_reducible assumption
    | with_reducible refine Dev.writeFs_keep ?_ ‹_› _ _
    | (extract_lets +onlyGivenNames lv; (have hx : Keep ps e lv := ?_); (on_goal 1 => clear_value lv); on_goal 2 => subst lv)
    | (extract_lets +onlyGivenNames lv; clear_value lv)
    | extract_lets +onlyGivenNames lv
    | with_reducible refine Keep.ite ?_ ?_
    | split

theorem Dev.query_keep {ps : List Part} {e d : Dev} (h : Keep ps e d) (hout : .out ∈ ps) (hevents : .events ∈ ps) (hlink : .link ∈ ps) (a1 a2) : Keep ps e (Dev.query d a1 a2) := by
  unfold Dev.query
  repeat' first
    | with_reducible assumption
    | with_reducible refine Dev.each_keep ?_ (fun x y hx => ?_)
    | with_reducible refine Dev.modLink_keep ?_ ‹_› _
    | with_reducible refine Dev.sendMessage_keep ?_ ‹_› ‹_› ‹_› _ _ _ _ _ _ _
    | (extract_lets +onlyGivenNames lv; (have hx : Keep ps e lv := ?_); (on_goal 1 => clear_value lv); on_goal 2 => subst lv)
    | (extract_lets +onlyGivenNames lv; clear_value lv)
    | extract_lets +onlyGivenNames lv
    | with_reducible refine Keep.ite ?_ ?_
    | split

theorem Dev.funcAdmit_keep {ps : List Part} {e d : Dev} (h : Keep ps e d) (hfree : .free ∈ ps) (hout : .out ∈ ps) (hevents : .events ∈ ps) (hrooms : .rooms ∈ ps) (hfuncs : .funcs ∈ ps) (hnet : .net ∈ ps) (hlink : .link ∈ ps) (hloader : .loader ∈ ps) (hrings : .rings ∈ ps) (hsched : .sched ∈ ps) (a0) : Keep ps e (Dev.funcAdmit a0 d) := by
  unfold Dev.funcAdmit
  repeat' first
    | with_reducible assumption
    | with_reducible refine Dev.each_keep ?_ (fun x y hx => ?_)
    | with_reducible refine Dev.modLink_keep ?_ ‹_› _
    | with_reducible refine Dev.modLoader_keep ?_ ‹_› _
    | with_reducible refine Dev.modNet_keep ?_ ‹_› _
    | with_reducible refine Dev.modRoom_keep ?_ ‹_› _ _
    | with_reducible refine Dev.putFuncs_keep ?_ ‹_› _
    | with_reducible refine Dev.query_keep ?_ ‹_› ‹_› ‹_› _ _
    | with_reducible refine Dev.refuse_keep ?_ ‹_› ‹_› ‹_› ‹_› ‹_› _ _
    | with_reducible refine Dev.start_keep ?_ ‹_› _
    | with_reducible refine Dev.take_keep ?_ ‹_› _
    | (extract_lets +onlyGivenNames lv; (have hx : Keep ps e lv := ?_); (on_goal 1 => clear_value lv); on_goal 2 => subst lv)
    | (extract_lets +onlyGivenNames lv; clear_value lv)
    | extract_lets +onlyGivenNames lv
    | with_reducible refine Keep.ite ?_ ?_
    | split

theorem Dev.funcMigrate_keep {ps : List Part} {e d : Dev} (h : Keep ps e d) (hout : .out ∈ ps) (hevents : .events ∈ ps) (hrooms : .rooms ∈ ps) (hfuncs : .funcs ∈ ps) (hnet : .net ∈ ps) (hlink : .link ∈ ps) (hloader : .loader ∈ ps) (hrings : .rings ∈ ps) (hsched : .sched ∈ ps) (a0) : Keep ps e (Dev.funcMigrate a0 d) := by
  unfold Dev.funcMigrate
  repeat' first
    | with_reducible assumption
    | with_reducible refine Dev.each_keep ?_ (fun x y hx => ?_)
    | with_reducible refine Dev.finish_keep ?_ ‹_› ‹_› ‹_› ‹_› ‹_› _ _ _ _ _ _
    | with_reducible refine Dev.modFunc_keep ?_ ‹_› _ _
    | with_reducible refine Dev.modLoader_keep ?_ ‹_› _
    | with_reducible refine Dev.modNet_keep ?_ ‹_› _
    | with_reducible refine Dev.modRoom_keep ?_ ‹_› _ _
    | with_reducible refine Dev.refuse_keep ?_ ‹_› ‹_› ‹_› ‹_› ‹_› _ _
    | with_reducible refine Dev.runOp_keep ?_ ‹_› (fun x y hx => ?_)
    | (extract_lets +onlyGivenNames lv; (have hx : Keep ps e lv := ?_); (on_goal 1 => clear_value lv); on_goal 2 => subst lv)
    | (extract_lets +onlyGivenNames lv; clear_value lv)
    | extract_lets +onlyGivenNames lv
    | with_reducible refine Keep.ite ?_ ?_
    | split

theorem Dev.funcRetire_keep {ps : List Part} {e d : Dev} (h : Keep ps e d) (hout : .out ∈ ps) (hevents : .events ∈ ps) (hlink : .link ∈ ps) (hrings : .rings ∈ ps) (hsched : .sched ∈ ps) (a0) : Keep ps e (Dev.funcRetire a0 d) := by
  unfold Dev.funcRetire
  repeat' first
    | with_reducible assumption
    | with_reducible refine Dev.finish_keep ?_ ‹_› ‹_› ‹_› ‹_› ‹_› _ _ _ _ _ _
    | with_reducible refine Dev.runOp_keep ?_ ‹_› (fun x y hx => ?_)
    | (extract_lets +onlyGivenNames lv; (have hx : Keep ps e lv := ?_); (on_goal 1 => clear_value lv); on_goal 2 => subst lv)
    | (extract_lets +onlyGivenNames lv; clear_value lv)
    | extract_lets +onlyGivenNames lv
    | with_reducible refine Keep.ite ?_ ?_
    | split

theorem Dev.fuseClassify_keep {ps : List Part} {e d : Dev} (h : Keep ps e d) (hnow : .now ∈ ps) (hfree : .free ∈ ps) (hout : .out ∈ ps) (hevents : .events ∈ ps) (hrooms : .rooms ∈ ps) (hfuncs : .funcs ∈ ps) (hnet : .net ∈ ps) (hcellar : .cellar ∈ ps) (hmedia : .media ∈ ps) (hlink : .link ∈ ps) (hfabric : .fabric ∈ ps) (hrings : .rings ∈ ps) (hcores : .cores ∈ ps) (hsched : .sched ∈ ps) (hacq : .acq ∈ ps) (hfuse : .fuse ∈ ps) (hstrong : .strong ∈ ps) : Keep ps e (Dev.fuseClassify d) := by
  unfold Dev.fuseClassify
  repeat' first
    | with_reducible assumption
    | with_reducible refine Dev.classify_keep ?_ ‹_› ‹_› ‹_› ‹_› ‹_› ‹_› ‹_› ‹_› ‹_› ‹_› ‹_› ‹_› ‹_› ‹_› ‹_› ‹_› _
    | with_reducible refine Dev.modFuse_keep ?_ ‹_› _
    | with_reducible refine Dev.reach_keep ?_ ‹_› _
    | (extract_lets +onlyGivenNames lv; (have hx : Keep ps e lv := ?_); (on_goal 1 => clear_value lv); on_goal 2 => subst lv)
    | (extract_lets +onlyGivenNames lv; clear_value lv)
    | extract_lets +onlyGivenNames lv
    | with_reducible refine Keep.ite ?_ ?_
    | split

theorem Dev.fwStartTimeout_keep {ps : List Part} {e d : Dev} (h : Keep ps e d) (hnow : .now ∈ ps) (hout : .out ∈ ps) (hevents : .events ∈ ps) (hlink : .link ∈ ps) (hrings : .rings ∈ ps) (hcores : .cores ∈ ps) (hsched : .sched ∈ ps) : Keep ps e (Dev.fwStartTimeout d) := by
  unfold Dev.fwStartTimeout
  repeat' first
    | with_reducible assumption
    | with_reducible refine Dev.finish_keep ?_ ‹_› ‹_› ‹_› ‹_› ‹_› _ _ _ _ _ _
    | with_reducible refine Dev.modCores_keep ?_ ‹_› _
    | with_reducible refine Dev.reach_keep ?_ ‹_› _
    | (extract_lets +onlyGivenNames lv; (have hx : Keep ps e lv := ?_); (on_goal 1 => clear_value lv); on_goal 2 => subst lv)
    | (extract_lets +onlyGivenNames lv; clear_value lv)
    | extract_lets +onlyGivenNames lv
    | with_reducible refine Keep.ite ?_ ?_
    | split

theorem Dev.hostMemoryRead_keep {ps : List Part} {e d : Dev} (h : Keep ps e d) (hout : .out ∈ ps) (hevents : .events ∈ ps) (hlink : .link ∈ ps) (hrings : .rings ∈ ps) (hsched : .sched ∈ ps) (a0 a1) : Keep ps e (Dev.hostMemoryRead a0 a1 d) := by
  unfold Dev.hostMemoryRead
  repeat' first
    | with_reducible assumption
    | (intro y; with_reducible rfl)
    | (intro y; split <;> rfl)
    | with_reducible refine Dev.finish_keep ?_ ‹_› ‹_› ‹_› ‹_› ‹_› _ _ _ _ _ _
    | with_reducible refine Dev.modEntry_keep ?_ ‹_› _ _ ?_
    | (extract_lets +onlyGivenNames lv; (have hx : Keep ps e lv := ?_); (on_goal 1 => clear_value lv); on_goal 2 => subst lv)
    | (extract_lets +onlyGivenNames lv; clear_value lv)
    | extract_lets +onlyGivenNames lv
    | with_reducible refine Keep.ite ?_ ?_
    | split

theorem Dev.hpClose_keep {ps : List Part} {e d : Dev} (h : Keep ps e d) (hnow : .now ∈ ps) (hfabric : .fabric ∈ ps) (a0) : Keep ps e (Dev.hpClose a0 d) := by
  unfold Dev.hpClose
  repeat' first
    | with_reducible assumption
    | with_reducible refine Dev.modHp_keep ?_ ‹_› _ _
    | with_reducible refine Dev.reach_keep ?_ ‹_› _
    | (extract_lets +onlyGivenNames lv; (have hx : Keep ps e lv := ?_); (on_goal 1 => clear_value lv); on_goal 2 => subst lv)
    | (extract_lets +onlyGivenNames lv; clear_value lv)
    | extract_lets +onlyGivenNames lv
    | with_reducible refine Keep.ite ?_ ?_
    | split

theorem Dev.hpRxPresent_keep {ps : List Part} {e d : Dev} (h : Keep ps e d) (hout : .out ∈ ps) (hfabric : .fabric ∈ ps) (a0) : Keep ps e (Dev.hpRxPresent a0 d) := by
  unfold Dev.hpRxPresent
  repeat' first
    | with_reducible assumption
    | with_reducible refine Dev.emit_keep ?_ ‹_› _
    | with_reducible refine Dev.modHp_keep ?_ ‹_› _ _
    | (extract_lets +onlyGivenNames lv; (have hx : Keep ps e lv := ?_); (on_goal 1 => clear_value lv); on_goal 2 => subst lv)
    | (extract_lets +onlyGivenNames lv; clear_value lv)
    | extract_lets +onlyGivenNames lv
    | with_reducible refine Keep.ite ?_ ?_
    | split

theorem Dev.recoverPair_keep {ps : List Part} {e d : Dev} (h : Keep ps e d) (hout : .out ∈ ps) (hevents : .events ∈ ps) (hlink : .link ∈ ps) (hrings : .rings ∈ ps) (hsched : .sched ∈ ps) (a1) : Keep ps e (Dev.recoverPair d a1) := by
  unfold Dev.recoverPair
  repeat' first
    | with_reducible assumption
    | with_reducible refine Dev.each_keep ?_ (fun x y hx => ?_)
    | with_reducible refine Dev.rewindPair_keep ?_ ‹_› ‹_› ‹_› ‹_› ‹_› _
    | with_reducible refine Dev.writeHost_keep ?_ ‹_› ‹_› ‹_› _ _
    | (extract_lets +onlyGivenNames lv; (have hx : Keep ps e lv := ?_); (on_goal 1 => clear_value lv); on_goal 2 => subst lv)
    | (extract_lets +onlyGivenNames lv; clear_value lv)
    | extract_lets +onlyGivenNames lv
    | with_reducible refine Keep.ite ?_ ?_
    | split

theorem Dev.ringsReturn_keep {ps : List Part} {e d : Dev} (h : Keep ps e d) (hout : .out ∈ ps) (hevents : .events ∈ ps) (hlink : .link ∈ ps) (hrings : .rings ∈ ps) (hsched : .sched ∈ ps) : Keep ps e (Dev.ringsReturn d) := by
  unfold Dev.ringsReturn
  repeat' first
    | with_reducible assumption
    | (intro hr; with_reducible exact hr)
    | exact RingKept.dropped _ rfl
    | exact RingKept.mapped _ (fun y => by split <;> rfl) (Ring.reapply_window _)
    | exact RingKept.mapped _ (fun y => by split <;> rfl) rfl
    | (refine RingKept.mapped _ ?_ rfl; intro y; rfl)
    | (intro hr; rw [Dev.reach_ring] at hr; exact hr)
    | (intro hr; (try split) <;> exact hr)
    | (intro hr; dsimp only; split <;> exact hr)
    | (intro hx; exact (show Rings.windowsOk _ from hx))
    | with_reducible refine Dev.each_keep ?_ (fun x y hx => ?_)
    | with_reducible refine Dev.modRing_keep ?_ ‹_› _ _ ?_
    | with_reducible refine Dev.putRings_keep ?_ ‹_› _ ?_
    | with_reducible refine Dev.raise_keep ?_ ‹_› _ _
    | with_reducible refine Dev.recoverPair_keep ?_ ‹_› ‹_› ‹_› ‹_› ‹_› _
    | (extract_lets +onlyGivenNames lv; (have hx : Keep ps e lv := ?_); (on_goal 1 => clear_value lv); on_goal 2 => subst lv)
    | (extract_lets +onlyGivenNames lv; clear_value lv)
    | extract_lets +onlyGivenNames lv
    | with_reducible refine Keep.ite ?_ ?_
    | split

theorem Dev.modTimer_keep {ps : List Part} {e d : Dev} (h : Keep ps e d) (hsched : .sched ∈ ps) (a1 a2) : Keep ps e (Dev.modTimer d a1 a2) := by
  unfold Dev.modTimer
  repeat' first
    | with_reducible assumption
    | with_reducible refine Dev.modSched_keep ?_ ‹_› _
    | (extract_lets +onlyGivenNames lv; (have hx : Keep ps e lv := ?_); (on_goal 1 => clear_value lv); on_goal 2 => subst lv)
    | (extract_lets +onlyGivenNames lv; clear_value lv)
    | extract_lets +onlyGivenNames lv
    | with_reducible refine Keep.ite ?_ ?_
    | split

theorem Dev.timerFire_keep {ps : List Part} {e d : Dev} (h : Keep ps e d) (hnow : .now ∈ ps) (hevents : .events ∈ ps) (hrings : .rings ∈ ps) (hcores : .cores ∈ ps) (hsched : .sched ∈ ps) (a0) : Keep ps e (Dev.timerFire a0 d) := by
  unfold Dev.timerFire
  repeat' first
    | with_reducible assumption
    | with_reducible refine Dev.modTimer_keep ?_ ‹_› _ _
    | with_reducible refine Dev.newTask_keep ?_ ‹_› ‹_› ‹_› ‹_› _ _ _ _ _
    | with_reducible refine Dev.reach_keep ?_ ‹_› _
    | (extract_lets +onlyGivenNames lv; (have hx : Keep ps e lv := ?_); (on_goal 1 => clear_value lv); on_goal 2 => subst lv)
    | (extract_lets +onlyGivenNames lv; clear_value lv)
    | extract_lets +onlyGivenNames lv
    | with_reducible refine Keep.ite ?_ ?_
    | split

theorem Dev.lateTimer_keep {ps : List Part} {e d : Dev} (h : Keep ps e d) (hnow : .now ∈ ps) (hevents : .events ∈ ps) (hrings : .rings ∈ ps) (hcores : .cores ∈ ps) (hsched : .sched ∈ ps) (a1) : Keep ps e (Dev.lateTimer d a1) := by
  unfold Dev.lateTimer
  repeat' first
    | with_reducible assumption
    | with_reducible refine Dev.modTimer_keep ?_ ‹_› _ _
    | with_reducible refine Dev.timerFire_keep ?_ ‹_› ‹_› ‹_› ‹_› ‹_› _
    | (extract_lets +onlyGivenNames lv; (have hx : Keep ps e lv := ?_); (on_goal 1 => clear_value lv); on_goal 2 => subst lv)
    | (extract_lets +onlyGivenNames lv; clear_value lv)
    | extract_lets +onlyGivenNames lv
    | with_reducible refine Keep.ite ?_ ?_
    | split

theorem Dev.schedReturn_keep {ps : List Part} {e d : Dev} (h : Keep ps e d) (hnow : .now ∈ ps) (hevents : .events ∈ ps) (hrings : .rings ∈ ps) (hcores : .cores ∈ ps) (hsched : .sched ∈ ps) : Keep ps e (Dev.schedReturn d) := by
  unfold Dev.schedReturn
  repeat' first
    | with_reducible assumption
    | with_reducible refine Dev.each_keep ?_ (fun x y hx => ?_)
    | with_reducible refine Dev.lateTimer_keep ?_ ‹_› ‹_› ‹_› ‹_› ‹_› _
    | with_reducible refine Dev.newTask_keep ?_ ‹_› ‹_› ‹_› ‹_› _ _ _ _ _
    | (extract_lets +onlyGivenNames lv; (have hx : Keep ps e lv := ?_); (on_goal 1 => clear_value lv); on_goal 2 => subst lv)
    | (extract_lets +onlyGivenNames lv; clear_value lv)
    | extract_lets +onlyGivenNames lv
    | with_reducible refine Keep.ite ?_ ?_
    | split

theorem Dev.hubReturn_keep {ps : List Part} {e d : Dev} (h : Keep ps e d) (hnow : .now ∈ ps) (hfree : .free ∈ ps) (hout : .out ∈ ps) (hevents : .events ∈ ps) (hcellar : .cellar ∈ ps) (hlink : .link ∈ ps) (hfabric : .fabric ∈ ps) (hrings : .rings ∈ ps) (hcores : .cores ∈ ps) (hsched : .sched ∈ ps) (hfuse : .fuse ∈ ps) (hstrong : .strong ∈ ps) (hpower : .power ∈ ps) : Keep ps e (Dev.hubReturn d) := by
  unfold Dev.hubReturn
  repeat' first
    | with_reducible assumption
    | with_reducible refine Dev.coresReturn_keep ?_ ‹_› ‹_› ‹_› ‹_› ‹_›
    | with_reducible refine Dev.fabricReturn_keep ?_ ‹_› ‹_› ‹_›
    | with_reducible refine Dev.fuseRelease_keep ?_ ‹_› ‹_› ‹_›
    | with_reducible refine Dev.putPower_keep ?_ ‹_› _
    | with_reducible refine Dev.raise_keep ?_ ‹_› _ _
    | with_reducible refine Dev.ringsReturn_keep ?_ ‹_› ‹_› ‹_› ‹_› ‹_›
    | with_reducible refine Dev.schedReturn_keep ?_ ‹_› ‹_› ‹_› ‹_› ‹_›
    | with_reducible refine Dev.syncSweeps_keep ?_ ‹_› ‹_›
    | with_reducible refine Dev.warmEnd_keep ?_ ‹_› ‹_› ‹_› ‹_›
    | (extract_lets +onlyGivenNames lv; (have hx : Keep ps e lv := ?_); (on_goal 1 => clear_value lv); on_goal 2 => subst lv)
    | (extract_lets +onlyGivenNames lv; clear_value lv)
    | extract_lets +onlyGivenNames lv
    | with_reducible refine Keep.ite ?_ ?_
    | split

theorem Dev.sendPtp_keep {ps : List Part} {e d : Dev} (h : Keep ps e d) (hfree : .free ∈ ps) (hout : .out ∈ ps) (hevents : .events ∈ ps) (hmedia : .media ∈ ps) (htime : .time ∈ ps) (a1 a2) : Keep ps e (Dev.sendPtp d a1 a2) := by
  unfold Dev.sendPtp
  repeat' first
    | with_reducible assumption
    | with_reducible refine Dev.portFrame_keep ?_ ‹_› ‹_› ‹_› ‹_› _ _
    | with_reducible refine Dev.take_keep ?_ ‹_› _
    | (extract_lets +onlyGivenNames lv; (have hx : Keep ps e lv := ?_); (on_goal 1 => clear_value lv); on_goal 2 => subst lv)
    | (extract_lets +onlyGivenNames lv; clear_value lv)
    | extract_lets +onlyGivenNames lv
    | with_reducible refine Keep.ite ?_ ?_
    | split

theorem Dev.ptpDue_keep {ps : List Part} {e d : Dev} (h : Keep ps e d) (hfree : .free ∈ ps) (hout : .out ∈ ps) (hevents : .events ∈ ps) (hmedia : .media ∈ ps) (htime : .time ∈ ps) (a1) : Keep ps e (Dev.ptpDue d a1) := by
  unfold Dev.ptpDue
  repeat' first
    | with_reducible assumption
    | with_reducible refine Dev.modTime_keep ?_ ‹_› _
    | with_reducible refine Dev.sendPtp_keep ?_ ‹_› ‹_› ‹_› ‹_› ‹_› _ _
    | (extract_lets +onlyGivenNames lv; (have hx : Keep ps e lv := ?_); (on_goal 1 => clear_value lv); on_goal 2 => subst lv)
    | (extract_lets +onlyGivenNames lv; (have hx : Keep ps e (Prod.fst lv) := ?_); (on_goal 1 => clear_value lv); on_goal 2 => subst lv)
    | (extract_lets +onlyGivenNames lv; (have hfn : ∀ y, Keep ps e y → Keep ps e (lv y) := ?_); (on_goal 1 => clear_value lv); on_goal 2 => (intro y hy; subst lv; beta_reduce))
    | (extract_lets +onlyGivenNames lv; (have hfn : ∀ y z, Keep ps e y → Keep ps e (lv y z) := ?_); (on_goal 1 => clear_value lv); on_goal 2 => (intro y z hy; subst lv; beta_reduce))
    | (extract_lets +onlyGivenNames lv; (have hfn : ∀ y z w, Keep ps e w → Keep ps e (lv y z w) := ?_); (on_goal 1 => clear_value lv); on_goal 2 => (intro y z w hy; subst lv; beta_reduce))
    | (extract_lets +onlyGivenNames lv; (have hfn : ∀ y, Keep ps e (Prod.fst y) → Keep ps e (lv y) := ?_); (on_goal 1 => clear_value lv); on_goal 2 => (intro y hy; subst lv; beta_reduce))
    | (extract_lets +onlyGivenNames lv; (have hfn : ∀ y, Keep ps e (lv y) := ?_); (on_goal 1 => clear_value lv); on_goal 2 => (intro y; subst lv; beta_reduce))
    | (extract_lets +onlyGivenNames lv; (have _ty : Ring := lv); subst lv; clear _ty)
    | (extract_lets +onlyGivenNames lv; (have _ty : Rings := lv); subst lv; clear _ty)
    | (extract_lets +onlyGivenNames lv; (have _ty : Strong := lv); subst lv; clear _ty)
    | (extract_lets +onlyGivenNames lv; (have _ty : Cellar := lv); subst lv; clear _ty)
    | (extract_lets +onlyGivenNames lv; clear_value lv)
    | extract_lets +onlyGivenNames lv
    | with_reducible exact hfn _
    | with_reducible exact hfn _ _
    | with_reducible refine hfn _ ?_
    | with_reducible refine hfn _ _ ?_
    | with_reducible refine hfn _ _ _ ?_
    | with_reducible refine Keep.ite ?_ ?_
    | split

theorem Dev.runFabric_keep {ps : List Part} {e d : Dev} (h : Keep ps e d) (hfree : .free ∈ ps) (hevents : .events ∈ ps) (hfabric : .fabric ∈ ps) : Keep ps e (Dev.runFabric d) := by
  unfold Dev.runFabric
  repeat' first
    | with_reducible assumption
    | with_reducible refine Dev.clockEdges_keep ?_ ‹_› ‹_› ‹_› _
    | with_reducible refine Dev.each_keep ?_ (fun x y hx => ?_)
    | with_reducible refine Dev.modFabric_keep ?_ ‹_› _
    | with_reducible refine Dev.refreshPads_keep ?_ ‹_›
    | (extract_lets +onlyGivenNames lv; (have hx : Keep ps e lv := ?_); (on_goal 1 => clear_value lv); on_goal 2 => subst lv)
    | (extract_lets +onlyGivenNames lv; clear_value lv)
    | extract_lets +onlyGivenNames lv
    | with_reducible refine Keep.ite ?_ ?_
    | split

theorem Dev.nullFrame_keep {ps : List Part} {e d : Dev} (h : Keep ps e d) (hout : .out ∈ ps) (a0 a1) : Keep ps e (Dev.nullFrame a0 a1 d) := by
  unfold Dev.nullFrame
  repeat' first
    | with_reducible assumption
    | with_reducible refine Dev.emitFrame_keep ?_ ‹_› _ _
    | (extract_lets +onlyGivenNames lv; (have hx : Keep ps e lv := ?_); (on_goal 1 => clear_value lv); on_goal 2 => subst lv)
    | (extract_lets +onlyGivenNames lv; clear_value lv)
    | extract_lets +onlyGivenNames lv
    | with_reducible refine Keep.ite ?_ ?_
    | split

theorem Dev.sendNak_keep {ps : List Part} {e d : Dev} (h : Keep ps e d) (hout : .out ∈ ps) (hlink : .link ∈ ps) (a1) : Keep ps e (Dev.sendNak d a1) := by
  unfold Dev.sendNak
  repeat' first
    | with_reducible assumption
    | with_reducible refine Dev.modBd_keep ?_ ‹_› _ _
    | with_reducible refine Dev.nullFrame_keep ?_ ‹_› _ _
    | (extract_lets +onlyGivenNames lv; (have hx : Keep ps e lv := ?_); (on_goal 1 => clear_value lv); on_goal 2 => subst lv)
    | (extract_lets +onlyGivenNames lv; clear_value lv)
    | extract_lets +onlyGivenNames lv
    | with_reducible refine Keep.ite ?_ ?_
    | split

theorem Dev.skewOver_keep {ps : List Part} {e d : Dev} (h : Keep ps e d) (hout : .out ∈ ps) (hlink : .link ∈ ps) (a1) : Keep ps e (Dev.skewOver d a1) := by
  unfold Dev.skewOver
  repeat' first
    | with_reducible assumption
    | with_reducible refine Dev.modBd_keep ?_ ‹_› _ _
    | with_reducible refine Dev.sendNak_keep ?_ ‹_› ‹_› _
    | (extract_lets +onlyGivenNames lv; (have hx : Keep ps e lv := ?_); (on_goal 1 => clear_value lv); on_goal 2 => subst lv)
    | (extract_lets +onlyGivenNames lv; clear_value lv)
    | extract_lets +onlyGivenNames lv
    | with_reducible refine Keep.ite ?_ ?_
    | split

theorem Dev.tick_keep {ps : List Part} {e d : Dev} (h : Keep ps e d) (hnow : .now ∈ ps) : Keep ps e (Dev.tick d) := by
  unfold Dev.tick
  exact Keep.upd_now h ‹_›

theorem Dev.idle_keep {ps : List Part} {e d : Dev} (h : Keep ps e d) (hnow : .now ∈ ps) (hfree : .free ∈ ps) (hout : .out ∈ ps) (hevents : .events ∈ ps) (hrooms : .rooms ∈ ps) (hfuncs : .funcs ∈ ps) (hnet : .net ∈ ps) (hcellar : .cellar ∈ ps) (hmedia : .media ∈ ps) (htime : .time ∈ ps) (hlink : .link ∈ ps) (hfabric : .fabric ∈ ps) (hrings : .rings ∈ ps) (hcores : .cores ∈ ps) (hsched : .sched ∈ ps) (hstrong : .strong ∈ ps) (hhub : .hub ∈ ps) : Keep ps e (Dev.idle d) := by
  unfold Dev.idle
  repeat' first
    | with_reducible assumption
    | with_reducible refine Dev.deliverOwn_keep ?_ ‹_› ‹_› ‹_› ‹_› ‹_› ‹_› ‹_› ‹_› ‹_› ‹_› ‹_› ‹_› ‹_›
    | with_reducible refine Dev.each_keep ?_ (fun x y hx => ?_)
    | with_reducible refine Dev.flushTrace_keep ?_ ‹_› ‹_› ‹_› ‹_› ‹_› ‹_›
    | with_reducible refine Dev.ptpDue_keep ?_ ‹_› ‹_› ‹_› ‹_› ‹_› _
    | with_reducible refine Dev.runFabric_keep ?_ ‹_› ‹_› ‹_›
    | with_reducible refine Dev.skewOver_keep ?_ ‹_› ‹_› _
    | with_reducible refine Dev.tick_keep ?_ ‹_›
    | (extract_lets +onlyGivenNames lv; (have hx : Keep ps e lv := ?_); (on_goal 1 => clear_value lv); on_goal 2 => subst lv)
    | (extract_lets +onlyGivenNames lv; clear_value lv)
    | extract_lets +onlyGivenNames lv
    | with_reducible refine Keep.ite ?_ ?_
    | split

theorem Dev.setReady_keep {ps : List Part} {e d : Dev} (h : Keep ps e d) (hrings : .rings ∈ ps) (a1) : Keep ps e (Dev.setReady d a1) := by
  unfold Dev.setReady
  repeat' first
    | with_reducible assumption
    | (intro y; with_reducible rfl)
    | (intro y; split <;> rfl)
    | with_reducible refine Dev.modEntry_keep ?_ ‹_› _ _ ?_
    | (extract_lets +onlyGivenNames lv; (have hx : Keep ps e lv := ?_); (on_goal 1 => clear_value lv); on_goal 2 => subst lv)
    | (extract_lets +onlyGivenNames lv; clear_value lv)
    | extract_lets +onlyGivenNames lv
    | with_reducible refine Keep.ite ?_ ?_
    | split

theorem Dev.imageApply_keep {ps : List Part} {e d : Dev} (h : Keep ps e d) (hout : .out ∈ ps) (hevents : .events ∈ ps) (hlink : .link ∈ ps) (hrings : .rings ∈ ps) (hcores : .cores ∈ ps) (hsched : .sched ∈ ps) (a0) : Keep ps e (Dev.imageApply a0 d) := by
  unfold Dev.imageApply
  repeat' first
    | with_reducible assumption
    | with_reducible refine Dev.finish_keep ?_ ‹_› ‹_› ‹_› ‹_› ‹_› _ _ _ _ _ _
    | with_reducible refine Dev.modCores_keep ?_ ‹_› _
    | with_reducible refine Dev.runOp_keep ?_ ‹_› (fun x y hx => ?_)
    | with_reducible refine Dev.setReady_keep ?_ ‹_› _
    | (extract_lets +onlyGivenNames lv; (have hx : Keep ps e lv := ?_); (on_goal 1 => clear_value lv); on_goal 2 => subst lv)
    | (extract_lets +onlyGivenNames lv; clear_value lv)
    | extract_lets +onlyGivenNames lv
    | with_reducible refine Keep.ite ?_ ?_
    | split

theorem Dev.storeFrames_keep {ps : List Part} {e d : Dev} (h : Keep ps e d) (hfree : .free ∈ ps) (hevents : .events ∈ ps) (hcellar : .cellar ∈ ps) (hstrong : .strong ∈ ps) (a1) : Keep ps e (Dev.storeFrames d a1) := by
  unfold Dev.storeFrames
  repeat' first
    | with_reducible assumption
    | (intro m hm; with_reducible exact hm)
    | (intro m hm; with_reducible exact Sram.put_wf hm _ _)
    | (intro m hm; with_reducible exact Memory.wf_clearRange _ _ _ hm)
    | (intro m hm; with_reducible exact Memory.wf_writeN _ _ _ hm)
    | with_reducible refine Dev.each_keep ?_ (fun x y hx => ?_)
    | with_reducible refine Dev.modSram_keep ?_ ‹_› _ ?_
    | with_reducible refine Dev.putThrough_keep ?_ ‹_› ‹_› ‹_› _ _ _ _
    | (extract_lets +onlyGivenNames lv; (have hx : Keep ps e lv := ?_); (on_goal 1 => clear_value lv); on_goal 2 => subst lv)
    | (extract_lets +onlyGivenNames lv; clear_value lv)
    | extract_lets +onlyGivenNames lv
    | with_reducible refine Keep.ite ?_ ?_
    | split

theorem Dev.imageStage_keep {ps : List Part} {e d : Dev} (h : Keep ps e d) (hfree : .free ∈ ps) (hout : .out ∈ ps) (hevents : .events ∈ ps) (hcellar : .cellar ∈ ps) (hlink : .link ∈ ps) (hloader : .loader ∈ ps) (hrings : .rings ∈ ps) (hsched : .sched ∈ ps) (hstrong : .strong ∈ ps) (a0) : Keep ps e (Dev.imageStage a0 d) := by
  unfold Dev.imageStage
  repeat' first
    | with_reducible assumption
    | with_reducible refine Dev.countLoader_keep ?_ ‹_› _
    | with_reducible refine Dev.finish_keep ?_ ‹_› ‹_› ‹_› ‹_› ‹_› _ _ _ _ _ _
    | with_reducible refine Dev.finishOk_keep ?_ ‹_› ‹_› ‹_› ‹_› ‹_› _ _ _
    | with_reducible refine Dev.modLoader_keep ?_ ‹_› _
    | with_reducible refine Dev.refuse_keep ?_ ‹_› ‹_› ‹_› ‹_› ‹_› _ _
    | with_reducible refine Dev.runOp_keep ?_ ‹_› (fun x y hx => ?_)
    | with_reducible refine Dev.setStg_keep ?_ ‹_› _ _
    | with_reducible refine Dev.storeFrames_keep ?_ ‹_› ‹_› ‹_› ‹_› _
    | (extract_lets +onlyGivenNames lv; (have hx : Keep ps e lv := ?_); (on_goal 1 => clear_value lv); on_goal 2 => subst lv)
    | (extract_lets +onlyGivenNames lv; clear_value lv)
    | extract_lets +onlyGivenNames lv
    | with_reducible refine Keep.ite ?_ ?_
    | split

theorem Dev.inOrder_keep {ps : List Part} {e d : Dev} (h : Keep ps e d) (hfree : .free ∈ ps) (hout : .out ∈ ps) (hevents : .events ∈ ps) (hrooms : .rooms ∈ ps) (hfuncs : .funcs ∈ ps) (hnet : .net ∈ ps) (hcellar : .cellar ∈ ps) (hlink : .link ∈ ps) (hrings : .rings ∈ ps) (hcores : .cores ∈ ps) (hsched : .sched ∈ ps) (hstrong : .strong ∈ ps) (hhub : .hub ∈ ps) (a0 a1) : Keep ps e (Dev.inOrder a0 a1 d) := by
  induction a1 generalizing d a0 with
  | zero =>
    unfold Dev.inOrder
    repeat' first
      | with_reducible assumption
      | with_reducible refine Dev.acceptFrame_keep ?_ ‹_› ‹_› ‹_› ‹_› ‹_› ‹_› ‹_› ‹_› ‹_› ‹_› ‹_› ‹_› ‹_› _ _
      | with_reducible refine Dev.modBd_keep ?_ ‹_› _ _
      | (extract_lets +onlyGivenNames lv; (have hx : Keep ps e lv := ?_); (on_goal 1 => clear_value lv); on_goal 2 => subst lv)
      | (extract_lets +onlyGivenNames lv; clear_value lv)
      | extract_lets +onlyGivenNames lv
      | with_reducible refine Keep.ite ?_ ?_
      | split
  | succ n ih =>
    unfold Dev.inOrder
    repeat' first
      | with_reducible assumption
      | with_reducible apply ih
      | with_reducible refine Dev.acceptFrame_keep ?_ ‹_› ‹_› ‹_› ‹_› ‹_› ‹_› ‹_› ‹_› ‹_› ‹_› ‹_› ‹_› ‹_› _ _
      | with_reducible refine Dev.modBd_keep ?_ ‹_› _ _
      | (extract_lets +onlyGivenNames lv; (have hx : Keep ps e lv := ?_); (on_goal 1 => clear_value lv); on_goal 2 => subst lv)
      | (extract_lets +onlyGivenNames lv; clear_value lv)
      | extract_lets +onlyGivenNames lv
      | with_reducible refine Keep.ite ?_ ?_
      | split

theorem Dev.iodlyStep_keep {ps : List Part} {e d : Dev} (h : Keep ps e d) (hfabric : .fabric ∈ ps) (a0) : Keep ps e (Dev.iodlyStep a0 d) := by
  unfold Dev.iodlyStep
  repeat' first
    | with_reducible assumption
    | with_reducible refine Dev.modFabric_keep ?_ ‹_› _
    | (extract_lets +onlyGivenNames lv; (have hx : Keep ps e lv := ?_); (on_goal 1 => clear_value lv); on_goal 2 => subst lv)
    | (extract_lets +onlyGivenNames lv; clear_value lv)
    | extract_lets +onlyGivenNames lv
    | with_reducible refine Keep.ite ?_ ?_
    | split

theorem Dev.irqCoalesceTimer_keep {ps : List Part} {e d : Dev} (h : Keep ps e d) (hnow : .now ∈ ps) (hout : .out ∈ ps) (hrings : .rings ∈ ps) (hsched : .sched ∈ ps) (a0) : Keep ps e (Dev.irqCoalesceTimer a0 d) := by
  unfold Dev.irqCoalesceTimer
  repeat' first
    | with_reducible assumption
    | (intro hr; with_reducible exact hr)
    | exact RingKept.dropped _ rfl
    | exact RingKept.mapped _ (fun y => by split <;> rfl) (Ring.reapply_window _)
    | exact RingKept.mapped _ (fun y => by split <;> rfl) rfl
    | (refine RingKept.mapped _ ?_ rfl; intro y; rfl)
    | (intro hr; rw [Dev.reach_ring] at hr; exact hr)
    | (intro hr; (try split) <;> exact hr)
    | (intro hr; dsimp only; split <;> exact hr)
    | with_reducible refine Dev.msix_keep ?_ ‹_› ‹_› _ _
    | with_reducible refine Dev.reach_keep ?_ ‹_› _
    | with_reducible refine Dev.setRing_keep ?_ ‹_› _ _ ?_
    | (extract_lets +onlyGivenNames lv; (have hx : Keep ps e lv := ?_); (on_goal 1 => clear_value lv); on_goal 2 => subst lv)
    | (extract_lets +onlyGivenNames lv; (have hfn : ∀ y, Keep ps e y → Keep ps e (lv y) := ?_); (on_goal 1 => clear_value lv); on_goal 2 => (intro y hy; subst lv; beta_reduce))
    | (extract_lets +onlyGivenNames lv; (have hfn : ∀ y z, Keep ps e y → Keep ps e (lv y z) := ?_); (on_goal 1 => clear_value lv); on_goal 2 => (intro y z hy; subst lv; beta_reduce))
    | (extract_lets +onlyGivenNames lv; (have hfn : ∀ y, Keep ps e (Prod.fst y) → Keep ps e (lv y) := ?_); (on_goal 1 => clear_value lv); on_goal 2 => (intro y hy; subst lv; beta_reduce))
    | (extract_lets +onlyGivenNames lv; (have hfn : ∀ y, Keep ps e (lv y) := ?_); (on_goal 1 => clear_value lv); on_goal 2 => (intro y; subst lv; beta_reduce))
    | (extract_lets +onlyGivenNames lv; (have _ty : Ring := lv); subst lv; clear _ty)
    | (extract_lets +onlyGivenNames lv; (have _ty : Rings := lv); subst lv; clear _ty)
    | (extract_lets +onlyGivenNames lv; (have _ty : Strong := lv); subst lv; clear _ty)
    | (extract_lets +onlyGivenNames lv; (have _ty : RetEntry → RetEntry := lv); subst lv; clear _ty)
    | (extract_lets +onlyGivenNames lv; clear_value lv)
    | extract_lets +onlyGivenNames lv
    | with_reducible exact hfn _
    | with_reducible exact hfn _ _
    | with_reducible refine hfn _ ?_
    | with_reducible refine hfn _ _ ?_
    | with_reducible refine hfn _ _ _ ?_
    | with_reducible refine Keep.ite ?_ ?_
    | split

theorem Dev.logSeed_keep {ps : List Part} {e d : Dev} (h : Keep ps e d) (hfuncs : .funcs ∈ ps) (a1 a2) : Keep ps e (Dev.logSeed d a1 a2) := by
  unfold Dev.logSeed
  repeat' first
    | with_reducible assumption
    | with_reducible refine Dev.modFunc_keep ?_ ‹_› _ _
    | (extract_lets +onlyGivenNames lv; (have hx : Keep ps e lv := ?_); (on_goal 1 => clear_value lv); on_goal 2 => subst lv)
    | (extract_lets +onlyGivenNames lv; clear_value lv)
    | extract_lets +onlyGivenNames lv
    | with_reducible refine Keep.ite ?_ ?_
    | split

theorem Dev.sendOut_keep {ps : List Part} {e d : Dev} (h : Keep ps e d) (hnet : .net ∈ ps) (a1 a2) : Keep ps e (Dev.sendOut d a1 a2) := by
  unfold Dev.sendOut
  repeat' first
    | with_reducible assumption
    | with_reducible refine Dev.putNet_keep ?_ ‹_› _
    | (extract_lets +onlyGivenNames lv; (have hx : Keep ps e lv := ?_); (on_goal 1 => clear_value lv); on_goal 2 => subst lv)
    | (extract_lets +onlyGivenNames lv; clear_value lv)
    | extract_lets +onlyGivenNames lv
    | with_reducible refine Keep.ite ?_ ?_
    | split

theorem Dev.issue_keep {ps : List Part} {e d : Dev} (h : Keep ps e d) (hfree : .free ∈ ps) (hevents : .events ∈ ps) (hrooms : .rooms ∈ ps) (hfuncs : .funcs ∈ ps) (hnet : .net ∈ ps) (a1 a2 a3) : Keep ps e (Dev.issue d a1 a2 a3) := by
  unfold Dev.issue
  repeat' first
    | with_reducible assumption
    | with_reducible refine Dev.logSeed_keep ?_ ‹_› _ _
    | with_reducible refine Dev.modFunc_keep ?_ ‹_› _ _
    | with_reducible refine Dev.raiseRoom_keep ?_ ‹_› _ _
    | with_reducible refine Dev.sendOut_keep ?_ ‹_› _ _
    | with_reducible refine Dev.setRoom_keep ?_ ‹_› _ _
    | with_reducible refine Dev.take_keep ?_ ‹_› _
    | (extract_lets +onlyGivenNames lv; (have hx : Keep ps e lv := ?_); (on_goal 1 => clear_value lv); on_goal 2 => subst lv)
    | (extract_lets +onlyGivenNames lv; clear_value lv)
    | extract_lets +onlyGivenNames lv
    | with_reducible refine Keep.ite ?_ ?_
    | split

theorem Dev.wipe_keep {ps : List Part} {e d : Dev} (h : Keep ps e d) (hnow : .now ∈ ps) (hevents : .events ∈ ps) (hrooms : .rooms ∈ ps) (hfuncs : .funcs ∈ ps) (hnet : .net ∈ ps) (hcellar : .cellar ∈ ps) (hmedia : .media ∈ ps) (htime : .time ∈ ps) (hlink : .link ∈ ps) (hfabric : .fabric ∈ ps) (hloader : .loader ∈ ps) (hrings : .rings ∈ ps) (hcores : .cores ∈ ps) (hsched : .sched ∈ ps) (hacq : .acq ∈ ps) (hfuse : .fuse ∈ ps) (hstrong : .strong ∈ ps) (hhub : .hub ∈ ps) (hpower : .power ∈ ps) (a1) : Keep ps e (Dev.wipe d a1) := by
  unfold Dev.wipe
  repeat' first
    | with_reducible assumption
    | with_reducible exact StrongKept.same rfl rfl rfl rfl rfl rfl rfl rfl rfl
    | exact StrongKept.of (fun h => ⟨h.1, h.2.1, Memory.wf_writeN _ _ _ rfl⟩) rfl rfl rfl rfl rfl rfl
    | exact StrongKept.of (fun h => ⟨h.1, Memory.wf_writeN _ _ _ h.2.1, h.2.2⟩) rfl rfl rfl rfl rfl rfl
    | with_reducible refine Dev.coldReset_keep ?_ ‹_› ‹_› ‹_› ‹_› ‹_› ‹_› ‹_› ‹_› ‹_› ‹_› ‹_› ‹_› ‹_› ‹_› ‹_› ‹_› ‹_› ‹_› ‹_›
    | with_reducible refine Dev.putStrong_keep ?_ ‹_› _ ?_
    | (extract_lets +onlyGivenNames lv; (have hx : Keep ps e lv := ?_); (on_goal 1 => clear_value lv); on_goal 2 => subst lv)
    | (extract_lets +onlyGivenNames lv; clear_value lv)
    | extract_lets +onlyGivenNames lv
    | with_reducible refine Keep.ite ?_ ?_
    | split

theorem Dev.lockedDebugAccess_keep {ps : List Part} {e d : Dev} (h : Keep ps e d) (hnow : .now ∈ ps) (hevents : .events ∈ ps) (hrooms : .rooms ∈ ps) (hfuncs : .funcs ∈ ps) (hnet : .net ∈ ps) (hcellar : .cellar ∈ ps) (hmedia : .media ∈ ps) (htime : .time ∈ ps) (hlink : .link ∈ ps) (hfabric : .fabric ∈ ps) (hloader : .loader ∈ ps) (hrings : .rings ∈ ps) (hcores : .cores ∈ ps) (hsched : .sched ∈ ps) (hacq : .acq ∈ ps) (hfuse : .fuse ∈ ps) (hstrong : .strong ∈ ps) (hhub : .hub ∈ ps) (hpower : .power ∈ ps) : Keep ps e (Dev.lockedDebugAccess d) := by
  unfold Dev.lockedDebugAccess
  repeat' first
    | with_reducible assumption
    | with_reducible exact StrongKept.same rfl rfl rfl rfl rfl rfl rfl rfl rfl
    | exact StrongKept.of (fun h => ⟨h.1, h.2.1, Memory.wf_writeN _ _ _ rfl⟩) rfl rfl rfl rfl rfl rfl
    | exact StrongKept.of (fun h => ⟨h.1, Memory.wf_writeN _ _ _ h.2.1, h.2.2⟩) rfl rfl rfl rfl rfl rfl
    | with_reducible refine Dev.modStrong_keep ?_ ‹_› _ ?_
    | with_reducible refine Dev.raise_keep ?_ ‹_› _ _
    | with_reducible refine Dev.wipe_keep ?_ ‹_› ‹_› ‹_› ‹_› ‹_› ‹_› ‹_› ‹_› ‹_› ‹_› ‹_› ‹_› ‹_› ‹_› ‹_› ‹_› ‹_› ‹_› ‹_› _
    | (extract_lets +onlyGivenNames lv; (have hx : Keep ps e lv := ?_); (on_goal 1 => clear_value lv); on_goal 2 => subst lv)
    | (extract_lets +onlyGivenNames lv; clear_value lv)
    | extract_lets +onlyGivenNames lv
    | with_reducible refine Keep.ite ?_ ?_
    | split

theorem Dev.jtagMemory_keep {ps : List Part} {e d : Dev} (h : Keep ps e d) (hnow : .now ∈ ps) (hfree : .free ∈ ps) (hout : .out ∈ ps) (hevents : .events ∈ ps) (hrooms : .rooms ∈ ps) (hfuncs : .funcs ∈ ps) (hnet : .net ∈ ps) (hcellar : .cellar ∈ ps) (hmedia : .media ∈ ps) (htime : .time ∈ ps) (hlink : .link ∈ ps) (hfabric : .fabric ∈ ps) (hloader : .loader ∈ ps) (hrings : .rings ∈ ps) (hcores : .cores ∈ ps) (hsched : .sched ∈ ps) (hacq : .acq ∈ ps) (hfuse : .fuse ∈ ps) (hstrong : .strong ∈ ps) (hhub : .hub ∈ ps) (hpower : .power ∈ ps) (a0 a1) : Keep ps e (Dev.jtagMemory a0 a1 d) := by
  unfold Dev.jtagMemory
  repeat' first
    | with_reducible assumption
    | (intro c hc; with_reducible exact hc)
    | (intro c hc; with_reducible exact Cellar.seal_wf hc _ _ _ _)
    | (intro c hc; with_reducible exact Cellar.mergeRaw_wf hc _ _ _)
    | (intro c hc; (try dsimp only [Cellar.count, Cellar.setRegion, Cellar.setKey, Cellar.loadKey, Cellar.decideWb]); with_reducible exact hc)
    | (intro c hc; (try dsimp only [Cellar.count, Cellar.setRegion, Cellar.setKey, Cellar.loadKey, Cellar.decideWb]); with_reducible exact Cellar.seal_wf hc _ _ _ _)
    | (intro c hc; (try dsimp only [Cellar.count, Cellar.setRegion, Cellar.setKey, Cellar.loadKey, Cellar.decideWb]); with_reducible exact Cellar.mergeRaw_wf hc _ _ _)
    | (intro c hc; (try dsimp only [Cellar.count, Cellar.setRegion, Cellar.setKey, Cellar.loadKey, Cellar.decideWb]); with_reducible exact Cellar.putMeta_wf hc _ _)
    | (intro c hc; (try dsimp only [Cellar.count, Cellar.setRegion, Cellar.setKey, Cellar.loadKey, Cellar.decideWb]); with_reducible exact Cellar.putRaw_wf hc _ _)
    | (intro c hc; (try dsimp only [Cellar.count, Cellar.setRegion, Cellar.setKey, Cellar.loadKey, Cellar.decideWb]); with_reducible exact Memory.wf_write _ _ _ hc)
    | (intro c hc; (try dsimp only [Cellar.count, Cellar.setRegion, Cellar.setKey, Cellar.loadKey, Cellar.decideWb]); with_reducible exact Memory.wf_writeN _ _ _ hc)
    | (intro c hc; (try dsimp only [Cellar.count, Cellar.setRegion, Cellar.setKey, Cellar.loadKey, Cellar.decideWb]); with_reducible exact Memory.wf_clearRange _ _ _ hc)
    | (intro c hc; (try dsimp only [Cellar.count, Cellar.setRegion, Cellar.setKey, Cellar.loadKey, Cellar.decideWb]); with_reducible exact Memory.wf_spans _ _ hc)
    | (intro c hc; (repeat' split) <;> with_reducible exact hc)
    | (intro c hc; dsimp only; split <;> exact hc)
    | (intro c hc; exact hc)
    | with_reducible refine Dev.emit_keep ?_ ‹_› _
    | with_reducible refine Dev.lockedDebugAccess_keep ?_ ‹_› ‹_› ‹_› ‹_› ‹_› ‹_› ‹_› ‹_› ‹_› ‹_› ‹_› ‹_› ‹_› ‹_› ‹_› ‹_› ‹_› ‹_› ‹_›
    | with_reducible refine Dev.modCellar_keep ?_ ‹_› _ ?_
    | with_reducible refine Dev.rawEcc_keep ?_ ‹_› ‹_› _ _
    | with_reducible refine Dev.take_keep ?_ ‹_› _
    | (extract_lets +onlyGivenNames lv; (have hx : Keep ps e lv := ?_); (on_goal 1 => clear_value lv); on_goal 2 => subst lv)
    | (extract_lets +onlyGivenNames lv; clear_value lv)
    | extract_lets +onlyGivenNames lv
    | with_reducible refine Keep.ite ?_ ?_
    | split

theorem Dev.keyLoad_keep {ps : List Part} {e d : Dev} (h : Keep ps e d) (hout : .out ∈ ps) (hevents : .events ∈ ps) (hcellar : .cellar ∈ ps) (hlink : .link ∈ ps) (hrings : .rings ∈ ps) (hsched : .sched ∈ ps) (a0) : Keep ps e (Dev.keyLoad a0 d) := by
  unfold Dev.keyLoad
  repeat' first
    | with_reducible assumption
    | (intro c hc; with_reducible exact hc)
    | (intro c hc; with_reducible exact Cellar.seal_wf hc _ _ _ _)
    | (intro c hc; with_reducible exact Cellar.mergeRaw_wf hc _ _ _)
    | (intro c hc; (try dsimp only [Cellar.count, Cellar.setRegion, Cellar.setKey, Cellar.loadKey, Cellar.decideWb]); with_reducible exact hc)
    | (intro c hc; (try dsimp only [Cellar.count, Cellar.setRegion, Cellar.setKey, Cellar.loadKey, Cellar.decideWb]); with_reducible exact Cellar.seal_wf hc _ _ _ _)
    | (intro c hc; (try dsimp only [Cellar.count, Cellar.setRegion, Cellar.setKey, Cellar.loadKey, Cellar.decideWb]); with_reducible exact Cellar.mergeRaw_wf hc _ _ _)
    | (intro c hc; (try dsimp only [Cellar.count, Cellar.setRegion, Cellar.setKey, Cellar.loadKey, Cellar.decideWb]); with_reducible exact Cellar.putMeta_wf hc _ _)
    | (intro c hc; (try dsimp only [Cellar.count, Cellar.setRegion, Cellar.setKey, Cellar.loadKey, Cellar.decideWb]); with_reducible exact Cellar.putRaw_wf hc _ _)
    | (intro c hc; (try dsimp only [Cellar.count, Cellar.setRegion, Cellar.setKey, Cellar.loadKey, Cellar.decideWb]); with_reducible exact Memory.wf_write _ _ _ hc)
    | (intro c hc; (try dsimp only [Cellar.count, Cellar.setRegion, Cellar.setKey, Cellar.loadKey, Cellar.decideWb]); with_reducible exact Memory.wf_writeN _ _ _ hc)
    | (intro c hc; (try dsimp only [Cellar.count, Cellar.setRegion, Cellar.setKey, Cellar.loadKey, Cellar.decideWb]); with_reducible exact Memory.wf_clearRange _ _ _ hc)
    | (intro c hc; (try dsimp only [Cellar.count, Cellar.setRegion, Cellar.setKey, Cellar.loadKey, Cellar.decideWb]); with_reducible exact Memory.wf_spans _ _ hc)
    | (intro c hc; (repeat' split) <;> with_reducible exact hc)
    | (intro c hc; dsimp only; split <;> exact hc)
    | (intro c hc; exact hc)
    | with_reducible refine Dev.finish_keep ?_ ‹_› ‹_› ‹_› ‹_› ‹_› _ _ _ _ _ _
    | with_reducible refine Dev.finishOk_keep ?_ ‹_› ‹_› ‹_› ‹_› ‹_› _ _ _
    | with_reducible refine Dev.modCellar_keep ?_ ‹_› _ ?_
    | with_reducible refine Dev.runOp_keep ?_ ‹_› (fun x y hx => ?_)
    | (extract_lets +onlyGivenNames lv; (have hx : Keep ps e lv := ?_); (on_goal 1 => clear_value lv); on_goal 2 => subst lv)
    | (extract_lets +onlyGivenNames lv; clear_value lv)
    | extract_lets +onlyGivenNames lv
    | with_reducible refine Keep.ite ?_ ?_
    | split

theorem Dev.keyRetire_keep {ps : List Part} {e d : Dev} (h : Keep ps e d) (hout : .out ∈ ps) (hevents : .events ∈ ps) (hcellar : .cellar ∈ ps) (hlink : .link ∈ ps) (hrings : .rings ∈ ps) (hsched : .sched ∈ ps) (a0) : Keep ps e (Dev.keyRetire a0 d) := by
  unfold Dev.keyRetire
  repeat' first
    | with_reducible assumption
    | (intro c hc; with_reducible exact hc)
    | (intro c hc; with_reducible exact Cellar.seal_wf hc _ _ _ _)
    | (intro c hc; with_reducible exact Cellar.mergeRaw_wf hc _ _ _)
    | (intro c hc; (try dsimp only [Cellar.count, Cellar.setRegion, Cellar.setKey, Cellar.loadKey, Cellar.decideWb]); with_reducible exact hc)
    | (intro c hc; (try dsimp only [Cellar.count, Cellar.setRegion, Cellar.setKey, Cellar.loadKey, Cellar.decideWb]); with_reducible exact Cellar.seal_wf hc _ _ _ _)
    | (intro c hc; (try dsimp only [Cellar.count, Cellar.setRegion, Cellar.setKey, Cellar.loadKey, Cellar.decideWb]); with_reducible exact Cellar.mergeRaw_wf hc _ _ _)
    | (intro c hc; (try dsimp only [Cellar.count, Cellar.setRegion, Cellar.setKey, Cellar.loadKey, Cellar.decideWb]); with_reducible exact Cellar.putMeta_wf hc _ _)
    | (intro c hc; (try dsimp only [Cellar.count, Cellar.setRegion, Cellar.setKey, Cellar.loadKey, Cellar.decideWb]); with_reducible exact Cellar.putRaw_wf hc _ _)
    | (intro c hc; (try dsimp only [Cellar.count, Cellar.setRegion, Cellar.setKey, Cellar.loadKey, Cellar.decideWb]); with_reducible exact Memory.wf_write _ _ _ hc)
    | (intro c hc; (try dsimp only [Cellar.count, Cellar.setRegion, Cellar.setKey, Cellar.loadKey, Cellar.decideWb]); with_reducible exact Memory.wf_writeN _ _ _ hc)
    | (intro c hc; (try dsimp only [Cellar.count, Cellar.setRegion, Cellar.setKey, Cellar.loadKey, Cellar.decideWb]); with_reducible exact Memory.wf_clearRange _ _ _ hc)
    | (intro c hc; (try dsimp only [Cellar.count, Cellar.setRegion, Cellar.setKey, Cellar.loadKey, Cellar.decideWb]); with_reducible exact Memory.wf_spans _ _ hc)
    | (intro c hc; (repeat' split) <;> with_reducible exact hc)
    | (intro c hc; dsimp only; split <;> exact hc)
    | (intro c hc; exact hc)
    | with_reducible refine Dev.finish_keep ?_ ‹_› ‹_› ‹_› ‹_› ‹_› _ _ _ _ _ _
    | with_reducible refine Dev.modCellar_keep ?_ ‹_› _ ?_
    | with_reducible refine Dev.runOp_keep ?_ ‹_› (fun x y hx => ?_)
    | (extract_lets +onlyGivenNames lv; (have hx : Keep ps e lv := ?_); (on_goal 1 => clear_value lv); on_goal 2 => subst lv)
    | (extract_lets +onlyGivenNames lv; clear_value lv)
    | extract_lets +onlyGivenNames lv
    | with_reducible refine Keep.ite ?_ ?_
    | split

end Sys2Proof.Machine
end

