-- ==== Sys2Proof/Laws/KeepAll.lean ====
section
/-! SUPPORT. What each operation of the device can change (4 of 4): one lemma `Dev.<operation>_keep` for each operation, and the signed commands. -/

set_option linter.unusedVariables false
set_option linter.tactic.unusedName false
set_option linter.unusedTactic false
set_option linter.unreachableTactic false

namespace Sys2Proof.Machine
open Sys2Proof

theorem Dev.keyRetireRefsZero_keep {ps : List Part} {e d : Dev} (h : Keep ps e d) (hout : .out ∈ ps) (hevents : .events ∈ ps) (hcellar : .cellar ∈ ps) (hlink : .link ∈ ps) (hrings : .rings ∈ ps) (hsched : .sched ∈ ps) (a0) : Keep ps e (Dev.keyRetireRefsZero a0 d) := by
  unfold Dev.keyRetireRefsZero
  repeat' first
    | with_reducible assumption
    | (intro c hc; with_reducible exact hc)
    | (intro c hc; with_reducible exact Cellar.seal_wf hc _ _ _ _)
    | (intro c hc; with_reducible exact Cellar.mergeRaw_wf hc _ _ _)
    | (intro c hc; (try dsimp only [Cellar.count, Cellar.setRegion, Cellar.setKey, Cellar.loadKey, Cellar.decideWb]); with_reducible exact hc)
    | (intro c hc; (try dsimp only [Cellar.count, Cellar.setRegion, Cellar.setKey, Cellar.loadKey, Cellar.decideWb]); with_reducible exact Cellar.seal_wf hc _ _ _ _)
    | (intro c hc; (try dsimp only [Cellar.count, Cellar.setRegion, Cellar.setKey, Cellar.loadKey, Cellar.decideWb]); with_reducible exact Cellar.mergeRaw_wf hc _ _ _)
    | (intro c hc; (try dsimp only [Cellar.count, Cellar.setRegion, Cellar.setKey, Cellar.loadKey, Cellar.decideWb]); with_reducible exact Cellar.putMeta_wf hc _ _)
    | (intro c hc; (try dsimp only [Cellar.count, Cellar.setRegion, Cellar.setKey, Cellar.loadKey, Cellar.decideWb]); with_reducible exact Cellar.putRaw_wf hc _ _)
    | (intro c hc; (try dsimp only [Cellar.count, Cellar.setRegion, Cellar.setKey, Cellar.loadKey, Cellar.decideWb]); with_reducible exact Memory.wf_write _ _ _ hc)
    | (intro c hc; (try dsimp only [Cellar.count, Cellar.setRegion, Cellar.setKey, Cellar.loadKey, Cellar.decideWb]); with_reducible exact Memory.wf_writeN _ _ _ hc)
    | (intro c hc; (try dsimp only [Cellar.count, Cellar.setRegion, Cellar.setKey, Cellar.loadKey, Cellar.decideWb]); with_reducible exact Memory.wf_clearRange _ _ _ hc)
    | (intro c hc; (try dsimp only [Cellar.count, Cellar.setRegion, Cellar.setKey, Cellar.loadKey, Cellar.decideWb]); with_reducible exact Memory.wf_spans _ _ hc)
    | (intro c hc; (repeat' split) <;> with_reducible exact hc)
    | (intro c hc; dsimp only; split <;> exact hc)
    | (intro c hc; exact hc)
    | with_reducible refine Dev.each_keep ?_ (fun x y hx => ?_)
    | with_reducible refine Dev.finishOk_keep ?_ ‹_› ‹_› ‹_› ‹_› ‹_› _ _ _
    | with_reducible refine Dev.modCellar_keep ?_ ‹_› _ ?_
    | (extract_lets +onlyGivenNames lv; (have hx : Keep ps e lv := ?_); (on_goal 1 => clear_value lv); on_goal 2 => subst lv)
    | (extract_lets +onlyGivenNames lv; clear_value lv)
    | extract_lets +onlyGivenNames lv
    | with_reducible refine Keep.ite ?_ ?_
    | split

theorem Dev.keyRetireTimeout_keep {ps : List Part} {e d : Dev} (h : Keep ps e d) (hnow : .now ∈ ps) (hout : .out ∈ ps) (hevents : .events ∈ ps) (hcellar : .cellar ∈ ps) (hlink : .link ∈ ps) (hrings : .rings ∈ ps) (hsched : .sched ∈ ps) (a0) : Keep ps e (Dev.keyRetireTimeout a0 d) := by
  unfold Dev.keyRetireTimeout
  repeat' first
    | with_reducible assumption
    | (intro c hc; with_reducible exact hc)
    | (intro c hc; with_reducible exact Cellar.seal_wf hc _ _ _ _)
    | (intro c hc; with_reducible exact Cellar.mergeRaw_wf hc _ _ _)
    | (intro c hc; (try dsimp only [Cellar.count, Cellar.setRegion, Cellar.setKey, Cellar.loadKey, Cellar.decideWb]); with_reducible exact hc)
    | (intro c hc; (try dsimp only [Cellar.count, Cellar.setRegion, Cellar.setKey, Cellar.loadKey, Cellar.decideWb]); with_reducible exact Cellar.seal_wf hc _ _ _ _)
    | (intro c hc; (try dsimp only [Cellar.count, Cellar.setRegion, Cellar.setKey, Cellar.loadKey, Cellar.decideWb]); with_reducible exact Cellar.mergeRaw_wf hc _ _ _)
    | (intro c hc; (try dsimp only [Cellar.count, Cellar.setRegion, Cellar.setKey, Cellar.loadKey, Cellar.decideWb]); with_reducible exact Cellar.putMeta_wf hc _ _)
    | (intro c hc; (try dsimp only [Cellar.count, Cellar.setRegion, Cellar.setKey, Cellar.loadKey, Cellar.decideWb]); with_reducible exact Cellar.putRaw_wf hc _ _)
    | (intro c hc; (try dsimp only [Cellar.count, Cellar.setRegion, Cellar.setKey, Cellar.loadKey, Cellar.decideWb]); with_reducible exact Memory.wf_write _ _ _ hc)
    | (intro c hc; (try dsimp only [Cellar.count, Cellar.setRegion, Cellar.setKey, Cellar.loadKey, Cellar.decideWb]); with_reducible exact Memory.wf_writeN _ _ _ hc)
    | (intro c hc; (try dsimp only [Cellar.count, Cellar.setRegion, Cellar.setKey, Cellar.loadKey, Cellar.decideWb]); with_reducible exact Memory.wf_clearRange _ _ _ hc)
    | (intro c hc; (try dsimp only [Cellar.count, Cellar.setRegion, Cellar.setKey, Cellar.loadKey, Cellar.decideWb]); with_reducible exact Memory.wf_spans _ _ hc)
    | (intro c hc; (repeat' split) <;> with_reducible exact hc)
    | (intro c hc; dsimp only; split <;> exact hc)
    | (intro c hc; exact hc)
    | with_reducible refine Dev.finish_keep ?_ ‹_› ‹_› ‹_› ‹_› ‹_› _ _ _ _ _ _
    | with_reducible refine Dev.keyRetireRefsZero_keep ?_ ‹_› ‹_› ‹_› ‹_› ‹_› ‹_› _
    | with_reducible refine Dev.modCellar_keep ?_ ‹_› _ ?_
    | with_reducible refine Dev.raise_keep ?_ ‹_› _ _
    | with_reducible refine Dev.reach_keep ?_ ‹_› _
    | (extract_lets +onlyGivenNames lv; (have hx : Keep ps e lv := ?_); (on_goal 1 => clear_value lv); on_goal 2 => subst lv)
    | (extract_lets +onlyGivenNames lv; clear_value lv)
    | extract_lets +onlyGivenNames lv
    | with_reducible refine Keep.ite ?_ ?_
    | split

theorem Dev.modReq_keep {ps : List Part} {e d : Dev} (h : Keep ps e d) (hhub : .hub ∈ ps) (a1 a2) : Keep ps e (Dev.modReq d a1 a2) := by
  unfold Dev.modReq
  exact Keep.upd_hub h ‹_›

theorem Dev.latchRead_keep {ps : List Part} {e d : Dev} (h : Keep ps e d) (hhub : .hub ∈ ps) (a1 a2 a3 a4 a5) : Keep ps e (Dev.latchRead d a1 a2 a3 a4 a5).1 := by
  unfold Dev.latchRead
  repeat' first
    | with_reducible assumption
    | with_reducible refine Dev.modReq_keep ?_ ‹_› _ _
    | (extract_lets +onlyGivenNames lv; (have hx : Keep ps e lv := ?_); (on_goal 1 => clear_value lv); on_goal 2 => subst lv)
    | (extract_lets +onlyGivenNames lv; clear_value lv)
    | extract_lets +onlyGivenNames lv
    | with_reducible refine Keep.ite ?_ ?_
    | with_reducible refine Keep.iteFst ?_ ?_
    | split

theorem Dev.latchWrite_keep {ps : List Part} {e d : Dev} {q : Requester} {t : Nat} {lo hi : Bool} {v : Word} {f : Dev → Option Word → Dev} (h : Keep ps e d)
    (hhub : .hub ∈ ps) (hf : ∀ x y, Keep ps e x → Keep ps e (f x y)) : Keep ps e (d.latchWrite q t lo hi v f) := by
  unfold Dev.latchWrite
  split
  · exact Dev.modReq_keep h hhub _ _
  · split
    · exact hf _ _ (Dev.modReq_keep h hhub _ _)
    · exact hf _ _ h

theorem Dev.sendVote_keep {ps : List Part} {e d : Dev} (h : Keep ps e d) (hfree : .free ∈ ps) (hevents : .events ∈ ps) (hnet : .net ∈ ps) (hcellar : .cellar ∈ ps) (hcores : .cores ∈ ps) (hstrong : .strong ∈ ps) (a1 a2) : Keep ps e (Dev.sendVote d a1 a2) := by
  unfold Dev.sendVote
  repeat' first
    | with_reducible assumption
    | with_reducible refine Dev.putNet_keep ?_ ‹_› _
    | with_reducible refine Dev.trace_keep ?_ ‹_› ‹_› ‹_› ‹_› ‹_› ‹_› _ _ _ _ _ _
    | (extract_lets +onlyGivenNames lv; (have hx : Keep ps e lv := ?_); (on_goal 1 => clear_value lv); on_goal 2 => subst lv)
    | (extract_lets +onlyGivenNames lv; clear_value lv)
    | extract_lets +onlyGivenNames lv
    | with_reducible refine Keep.ite ?_ ?_
    | split

theorem Dev.lateStall_keep {ps : List Part} {e d : Dev} (h : Keep ps e d) (hfree : .free ∈ ps) (hevents : .events ∈ ps) (hrooms : .rooms ∈ ps) (hnet : .net ∈ ps) (hcellar : .cellar ∈ ps) (hcores : .cores ∈ ps) (hstrong : .strong ∈ ps) (a0) : Keep ps e (Dev.lateStall a0 d) := by
  unfold Dev.lateStall
  repeat' first
    | with_reducible assumption
    | with_reducible refine Dev.sendVote_keep ?_ ‹_› ‹_› ‹_› ‹_› ‹_› ‹_› _ _
    | with_reducible refine Dev.setRoom_keep ?_ ‹_› _ _
    | (extract_lets +onlyGivenNames lv; (have hx : Keep ps e lv := ?_); (on_goal 1 => clear_value lv); on_goal 2 => subst lv)
    | (extract_lets +onlyGivenNames lv; clear_value lv)
    | extract_lets +onlyGivenNames lv
    | with_reducible refine Keep.ite ?_ ?_
    | split

theorem Dev.leaveCold_keep {ps : List Part} {e d : Dev} (h : Keep ps e d) (hnow : .now ∈ ps) (hpower : .power ∈ ps) : Keep ps e (Dev.leaveCold d) := by
  unfold Dev.leaveCold
  repeat' first
    | with_reducible assumption
    | with_reducible refine Dev.putNow_keep ?_ ‹_› _
    | with_reducible refine Dev.putPower_keep ?_ ‹_› _
    | (extract_lets +onlyGivenNames lv; (have hx : Keep ps e lv := ?_); (on_goal 1 => clear_value lv); on_goal 2 => subst lv)
    | (extract_lets +onlyGivenNames lv; clear_value lv)
    | extract_lets +onlyGivenNames lv
    | with_reducible refine Keep.ite ?_ ?_
    | split

theorem Dev.legDown_keep {ps : List Part} {e d : Dev} (h : Keep ps e d) (hevents : .events ∈ ps) (hmedia : .media ∈ ps) (a0 a1) : Keep ps e (Dev.legDown a0 a1 d) := by
  unfold Dev.legDown
  repeat' first
    | with_reducible assumption
    | with_reducible refine Dev.raise_keep ?_ ‹_› _ _
    | with_reducible refine Dev.setFlow_keep ?_ ‹_› _ _
    | (extract_lets +onlyGivenNames lv; (have hx : Keep ps e lv := ?_); (on_goal 1 => clear_value lv); on_goal 2 => subst lv)
    | (extract_lets +onlyGivenNames lv; clear_value lv)
    | extract_lets +onlyGivenNames lv
    | with_reducible refine Keep.ite ?_ ?_
    | split

theorem Dev.levelWaitEnd_keep {ps : List Part} {e d : Dev} (h : Keep ps e d) (hfree : .free ∈ ps) (hevents : .events ∈ ps) (hrooms : .rooms ∈ ps) (hfuncs : .funcs ∈ ps) (hnet : .net ∈ ps) (hcellar : .cellar ∈ ps) (hcores : .cores ∈ ps) (hstrong : .strong ∈ ps) (a0) : Keep ps e (Dev.levelWaitEnd a0 d) := by
  unfold Dev.levelWaitEnd
  repeat' first
    | with_reducible assumption
    | with_reducible refine Dev.logSeed_keep ?_ ‹_› _ _
    | with_reducible refine Dev.passStart_keep ?_ ‹_› ‹_› ‹_› ‹_› ‹_› ‹_› ‹_› _
    | with_reducible refine Dev.sendVote_keep ?_ ‹_› ‹_› ‹_› ‹_› ‹_› ‹_› _ _
    | with_reducible refine Dev.setRoom_keep ?_ ‹_› _ _
    | (extract_lets +onlyGivenNames lv; (have hx : Keep ps e lv := ?_); (on_goal 1 => clear_value lv); on_goal 2 => subst lv)
    | (extract_lets +onlyGivenNames lv; clear_value lv)
    | extract_lets +onlyGivenNames lv
    | with_reducible refine Keep.ite ?_ ?_
    | split

theorem Dev.lifeTo_keep {ps : List Part} {e d : Dev} (h : Keep ps e d) (hnow : .now ∈ ps) (hevents : .events ∈ ps) (hrooms : .rooms ∈ ps) (hfuncs : .funcs ∈ ps) (hnet : .net ∈ ps) (hcellar : .cellar ∈ ps) (hmedia : .media ∈ ps) (htime : .time ∈ ps) (hlink : .link ∈ ps) (hfabric : .fabric ∈ ps) (hloader : .loader ∈ ps) (hrings : .rings ∈ ps) (hcores : .cores ∈ ps) (hsched : .sched ∈ ps) (hacq : .acq ∈ ps) (hfuse : .fuse ∈ ps) (hstrong : .strong ∈ ps) (hhub : .hub ∈ ps) (hpower : .power ∈ ps) (l : Life)
    (h1 : l ≠ .blank) (h2 : d.strong.life ≠ .decommissioned) : Keep ps e (Dev.lifeTo d l) := by
  unfold Dev.lifeTo
  exact Dev.wipe_keep (Dev.modStrong_keep h ‹_› _ (.life rfl h1 h2)) ‹_› ‹_› ‹_› ‹_› ‹_› ‹_› ‹_› ‹_› ‹_› ‹_› ‹_› ‹_› ‹_› ‹_› ‹_› ‹_› ‹_› ‹_› ‹_› _

theorem Dev.lostWord_keep {ps : List Part} {e d : Dev} (h : Keep ps e d) (hfuncs : .funcs ∈ ps) (a1) : Keep ps e (Dev.lostWord d a1) := by
  unfold Dev.lostWord
  repeat' first
    | with_reducible assumption
    | with_reducible refine Dev.modFunc_keep ?_ ‹_› _ _
    | (extract_lets +onlyGivenNames lv; (have hx : Keep ps e lv := ?_); (on_goal 1 => clear_value lv); on_goal 2 => subst lv)
    | (extract_lets +onlyGivenNames lv; clear_value lv)
    | extract_lets +onlyGivenNames lv
    | with_reducible refine Keep.ite ?_ ?_
    | split

theorem Dev.linkDown_keep {ps : List Part} {e d : Dev} (h : Keep ps e d) (hevents : .events ∈ ps) (hfuncs : .funcs ∈ ps) (hnet : .net ∈ ps) (hcellar : .cellar ∈ ps) (hcores : .cores ∈ ps) (a0) : Keep ps e (Dev.linkDown a0 d) := by
  unfold Dev.linkDown
  repeat' first
    | with_reducible assumption
    | (intro c hc; with_reducible exact hc)
    | (intro c hc; with_reducible exact Cellar.seal_wf hc _ _ _ _)
    | (intro c hc; with_reducible exact Cellar.mergeRaw_wf hc _ _ _)
    | (intro c hc; (try dsimp only [Cellar.count, Cellar.setRegion, Cellar.setKey, Cellar.loadKey, Cellar.decideWb]); with_reducible exact hc)
    | (intro c hc; (try dsimp only [Cellar.count, Cellar.setRegion, Cellar.setKey, Cellar.loadKey, Cellar.decideWb]); with_reducible exact Cellar.seal_wf hc _ _ _ _)
    | (intro c hc; (try dsimp only [Cellar.count, Cellar.setRegion, Cellar.setKey, Cellar.loadKey, Cellar.decideWb]); with_reducible exact Cellar.mergeRaw_wf hc _ _ _)
    | (intro c hc; (try dsimp only [Cellar.count, Cellar.setRegion, Cellar.setKey, Cellar.loadKey, Cellar.decideWb]); with_reducible exact Cellar.putMeta_wf hc _ _)
    | (intro c hc; (try dsimp only [Cellar.count, Cellar.setRegion, Cellar.setKey, Cellar.loadKey, Cellar.decideWb]); with_reducible exact Cellar.putRaw_wf hc _ _)
    | (intro c hc; (try dsimp only [Cellar.count, Cellar.setRegion, Cellar.setKey, Cellar.loadKey, Cellar.decideWb]); with_reducible exact Memory.wf_write _ _ _ hc)
    | (intro c hc; (try dsimp only [Cellar.count, Cellar.setRegion, Cellar.setKey, Cellar.loadKey, Cellar.decideWb]); with_reducible exact Memory.wf_writeN _ _ _ hc)
    | (intro c hc; (try dsimp only [Cellar.count, Cellar.setRegion, Cellar.setKey, Cellar.loadKey, Cellar.decideWb]); with_reducible exact Memory.wf_clearRange _ _ _ hc)
    | (intro c hc; (try dsimp only [Cellar.count, Cellar.setRegion, Cellar.setKey, Cellar.loadKey, Cellar.decideWb]); with_reducible exact Memory.wf_spans _ _ hc)
    | (intro c hc; (repeat' split) <;> with_reducible exact hc)
    | (intro c hc; dsimp only; split <;> exact hc)
    | (intro c hc; exact hc)
    | with_reducible refine Dev.each_keep ?_ (fun x y hx => ?_)
    | with_reducible refine Dev.lostWord_keep ?_ ‹_› _
    | with_reducible refine Dev.modCellar_keep ?_ ‹_› _ ?_
    | with_reducible refine Dev.modNet_keep ?_ ‹_› _
    | with_reducible refine Dev.raise_keep ?_ ‹_› _ _
    | with_reducible refine Dev.setStream_keep ?_ ‹_› _ _
    | with_reducible refine Keep.upd_events ?_ ‹_›
    | (extract_lets +onlyGivenNames lv; (have hx : Keep ps e lv := ?_); (on_goal 1 => clear_value lv); on_goal 2 => subst lv)
    | (extract_lets +onlyGivenNames lv; clear_value lv)
    | extract_lets +onlyGivenNames lv
    | with_reducible refine Keep.ite ?_ ?_
    | split

theorem Dev.resendFrames_keep {ps : List Part} {e d : Dev} (h : Keep ps e d) (hout : .out ∈ ps) (hevents : .events ∈ ps) (hlink : .link ∈ ps) (a1) : Keep ps e (Dev.resendFrames d a1) := by
  unfold Dev.resendFrames
  repeat' first
    | with_reducible assumption
    | with_reducible refine Dev.bundleDown_keep ?_ ‹_› ‹_› _
    | with_reducible refine Dev.countBd_keep ?_ ‹_› _ _ _
    | with_reducible refine Dev.each_keep ?_ (fun x y hx => ?_)
    | with_reducible refine Dev.emitFrame_keep ?_ ‹_› _ _
    | with_reducible refine Dev.modBd_keep ?_ ‹_› _ _
    | (extract_lets +onlyGivenNames lv; (have hx : Keep ps e lv := ?_); (on_goal 1 => clear_value lv); on_goal 2 => subst lv)
    | (extract_lets +onlyGivenNames lv; clear_value lv)
    | extract_lets +onlyGivenNames lv
    | with_reducible refine Keep.ite ?_ ?_
    | split

theorem Dev.takeAck_keep {ps : List Part} {e d : Dev} (h : Keep ps e d) (hlink : .link ∈ ps) (a1 a2) : Keep ps e (Dev.takeAck d a1 a2) := by
  unfold Dev.takeAck
  repeat' first
    | with_reducible assumption
    | with_reducible refine Dev.setBd_keep ?_ ‹_› _ _
    | (extract_lets +onlyGivenNames lv; (have hx : Keep ps e lv := ?_); (on_goal 1 => clear_value lv); on_goal 2 => subst lv)
    | (extract_lets +onlyGivenNames lv; clear_value lv)
    | extract_lets +onlyGivenNames lv
    | with_reducible refine Keep.ite ?_ ?_
    | split

theorem Dev.linkFrame_keep {ps : List Part} {e d : Dev} (h : Keep ps e d) (hfree : .free ∈ ps) (hout : .out ∈ ps) (hevents : .events ∈ ps) (hrooms : .rooms ∈ ps) (hfuncs : .funcs ∈ ps) (hnet : .net ∈ ps) (hcellar : .cellar ∈ ps) (hlink : .link ∈ ps) (hrings : .rings ∈ ps) (hcores : .cores ∈ ps) (hsched : .sched ∈ ps) (hstrong : .strong ∈ ps) (hhub : .hub ∈ ps) (a0 a1) : Keep ps e (Dev.linkFrame a0 a1 d) := by
  unfold Dev.linkFrame
  repeat' first
    | with_reducible assumption
    | with_reducible refine Dev.acceptFrame_keep ?_ ‹_› ‹_› ‹_› ‹_› ‹_› ‹_› ‹_› ‹_› ‹_› ‹_› ‹_› ‹_› ‹_› _ _
    | with_reducible refine Dev.inOrder_keep ?_ ‹_› ‹_› ‹_› ‹_› ‹_› ‹_› ‹_› ‹_› ‹_› ‹_› ‹_› ‹_› ‹_› _ _
    | with_reducible refine Dev.modBd_keep ?_ ‹_› _ _
    | with_reducible refine Dev.modLink_keep ?_ ‹_› _
    | with_reducible refine Dev.pump_keep ?_ ‹_› ‹_› _ _
    | with_reducible refine Dev.resendFrames_keep ?_ ‹_› ‹_› ‹_› _
    | with_reducible refine Dev.sendNak_keep ?_ ‹_› ‹_› _
    | with_reducible refine Dev.skewOver_keep ?_ ‹_› ‹_› _
    | with_reducible refine Dev.takeAck_keep ?_ ‹_› _ _
    | (extract_lets +onlyGivenNames lv; (have hx : Keep ps e lv := ?_); (on_goal 1 => clear_value lv); on_goal 2 => subst lv)
    | (extract_lets +onlyGivenNames lv; clear_value lv)
    | extract_lets +onlyGivenNames lv
    | with_reducible refine Keep.ite ?_ ?_
    | split

theorem Dev.linkRetrainDone_keep {ps : List Part} {e d : Dev} (h : Keep ps e d) (hnet : .net ∈ ps) (a0) : Keep ps e (Dev.linkRetrainDone a0 d) := by
  unfold Dev.linkRetrainDone
  repeat' first
    | with_reducible assumption
    | with_reducible refine Dev.modNet_keep ?_ ‹_› _
    | (extract_lets +onlyGivenNames lv; (have hx : Keep ps e lv := ?_); (on_goal 1 => clear_value lv); on_goal 2 => subst lv)
    | (extract_lets +onlyGivenNames lv; clear_value lv)
    | extract_lets +onlyGivenNames lv
    | with_reducible refine Keep.ite ?_ ?_
    | split

theorem Dev.linkRetrainRetry_keep {ps : List Part} {e d : Dev} (h : Keep ps e d) (hnet : .net ∈ ps) (a0) : Keep ps e (Dev.linkRetrainRetry a0 d) := by
  unfold Dev.linkRetrainRetry
  repeat' first
    | with_reducible assumption
    | with_reducible refine Dev.modNet_keep ?_ ‹_› _
    | (extract_lets +onlyGivenNames lv; (have hx : Keep ps e lv := ?_); (on_goal 1 => clear_value lv); on_goal 2 => subst lv)
    | (extract_lets +onlyGivenNames lv; clear_value lv)
    | extract_lets +onlyGivenNames lv
    | with_reducible refine Keep.ite ?_ ?_
    | split

theorem Dev.loadTap_keep {ps : List Part} {e d : Dev} (h : Keep ps e d) (htap : .tap ∈ ps) (a1 a2) : Keep ps e (Dev.loadTap d a1 a2) := by
  unfold Dev.loadTap
  repeat' first
    | with_reducible assumption
    | with_reducible refine Dev.putTap_keep ?_ ‹_› _
    | (extract_lets +onlyGivenNames lv; (have hx : Keep ps e lv := ?_); (on_goal 1 => clear_value lv); on_goal 2 => subst lv)
    | (extract_lets +onlyGivenNames lv; clear_value lv)
    | extract_lets +onlyGivenNames lv
    | with_reducible refine Keep.ite ?_ ?_
    | split

theorem Dev.metadataClearDone_keep {ps : List Part} {e d : Dev} (h : Keep ps e d) (hfree : .free ∈ ps) (hout : .out ∈ ps) (hevents : .events ∈ ps) (hcellar : .cellar ∈ ps) : Keep ps e (Dev.metadataClearDone d) := by
  unfold Dev.metadataClearDone
  repeat' first
    | with_reducible assumption
    | (intro c hc; with_reducible exact hc)
    | (intro c hc; with_reducible exact Cellar.seal_wf hc _ _ _ _)
    | (intro c hc; with_reducible exact Cellar.mergeRaw_wf hc _ _ _)
    | (intro c hc; (try dsimp only [Cellar.count, Cellar.setRegion, Cellar.setKey, Cellar.loadKey, Cellar.decideWb]); with_reducible exact hc)
    | (intro c hc; (try dsimp only [Cellar.count, Cellar.setRegion, Cellar.setKey, Cellar.loadKey, Cellar.decideWb]); with_reducible exact Cellar.seal_wf hc _ _ _ _)
    | (intro c hc; (try dsimp only [Cellar.count, Cellar.setRegion, Cellar.setKey, Cellar.loadKey, Cellar.decideWb]); with_reducible exact Cellar.mergeRaw_wf hc _ _ _)
    | (intro c hc; (try dsimp only [Cellar.count, Cellar.setRegion, Cellar.setKey, Cellar.loadKey, Cellar.decideWb]); with_reducible exact Cellar.putMeta_wf hc _ _)
    | (intro c hc; (try dsimp only [Cellar.count, Cellar.setRegion, Cellar.setKey, Cellar.loadKey, Cellar.decideWb]); with_reducible exact Cellar.putRaw_wf hc _ _)
    | (intro c hc; (try dsimp only [Cellar.count, Cellar.setRegion, Cellar.setKey, Cellar.loadKey, Cellar.decideWb]); with_reducible exact Memory.wf_write _ _ _ hc)
    | (intro c hc; (try dsimp only [Cellar.count, Cellar.setRegion, Cellar.setKey, Cellar.loadKey, Cellar.decideWb]); with_reducible exact Memory.wf_writeN _ _ _ hc)
    | (intro c hc; (try dsimp only [Cellar.count, Cellar.setRegion, Cellar.setKey, Cellar.loadKey, Cellar.decideWb]); with_reducible exact Memory.wf_clearRange _ _ _ hc)
    | (intro c hc; (try dsimp only [Cellar.count, Cellar.setRegion, Cellar.setKey, Cellar.loadKey, Cellar.decideWb]); with_reducible exact Memory.wf_spans _ _ hc)
    | (intro c hc; (repeat' split) <;> with_reducible exact hc)
    | (intro c hc; dsimp only; split <;> exact hc)
    | (intro c hc; exact hc)
    | with_reducible refine Dev.each_keep ?_ (fun x y hx => ?_)
    | with_reducible refine Dev.modCellar_keep ?_ ‹_› _ ?_
    | with_reducible refine Dev.startSweep_keep ?_ ‹_› ‹_› _ _
    | with_reducible refine Dev.writeAnswered_keep ?_ ‹_› ‹_› ‹_› ‹_› _ _ _ _ _ _
    | (extract_lets +onlyGivenNames lv; (have hx : Keep ps e lv := ?_); (on_goal 1 => clear_value lv); on_goal 2 => subst lv)
    | (extract_lets +onlyGivenNames lv; clear_value lv)
    | extract_lets +onlyGivenNames lv
    | with_reducible refine Keep.ite ?_ ?_
    | split

theorem Dev.mirrorDissolve_keep {ps : List Part} {e d : Dev} (h : Keep ps e d) (hrings : .rings ∈ ps) (a0) : Keep ps e (Dev.mirrorDissolve a0 d) := by
  unfold Dev.mirrorDissolve
  repeat' first
    | with_reducible assumption
    | with_reducible refine Dev.runOp_keep ?_ ‹_› (fun x y hx => ?_)
    | (extract_lets +onlyGivenNames lv; (have hx : Keep ps e lv := ?_); (on_goal 1 => clear_value lv); on_goal 2 => subst lv)
    | (extract_lets +onlyGivenNames lv; clear_value lv)
    | extract_lets +onlyGivenNames lv
    | with_reducible refine Keep.ite ?_ ?_
    | split

theorem Dev.mirrorForm_keep {ps : List Part} {e d : Dev} (h : Keep ps e d) (hlink : .link ∈ ps) (hrings : .rings ∈ ps) (a0 a1) : Keep ps e (Dev.mirrorForm a0 a1 d) := by
  unfold Dev.mirrorForm
  repeat' first
    | with_reducible assumption
    | with_reducible refine Dev.modLink_keep ?_ ‹_› _
    | with_reducible refine Dev.runOp_keep ?_ ‹_› (fun x y hx => ?_)
    | (extract_lets +onlyGivenNames lv; (have hx : Keep ps e lv := ?_); (on_goal 1 => clear_value lv); on_goal 2 => subst lv)
    | (extract_lets +onlyGivenNames lv; clear_value lv)
    | extract_lets +onlyGivenNames lv
    | with_reducible refine Keep.ite ?_ ?_
    | split

theorem Dev.mirrorSplit_keep {ps : List Part} {e d : Dev} (h : Keep ps e d) (hout : .out ∈ ps) (hevents : .events ∈ ps) (hlink : .link ∈ ps) (hrings : .rings ∈ ps) (hsched : .sched ∈ ps) : Keep ps e (Dev.mirrorSplit d) := by
  unfold Dev.mirrorSplit
  repeat' first
    | with_reducible assumption
    | with_reducible refine Dev.split_keep ?_ ‹_› ‹_› ‹_› ‹_› ‹_›
    | (extract_lets +onlyGivenNames lv; (have hx : Keep ps e lv := ?_); (on_goal 1 => clear_value lv); on_goal 2 => subst lv)
    | (extract_lets +onlyGivenNames lv; clear_value lv)
    | extract_lets +onlyGivenNames lv
    | with_reducible refine Keep.ite ?_ ?_
    | split

theorem Dev.modPair_keep {ps : List Part} {e d : Dev} (h : Keep ps e d) (hhub : .hub ∈ ps) (a1 a2 a3) : Keep ps e (Dev.modPair d a1 a2 a3) := by
  unfold Dev.modPair
  repeat' first
    | with_reducible assumption
    | with_reducible refine Dev.modReq_keep ?_ ‹_› _ _
    | (extract_lets +onlyGivenNames lv; (have hx : Keep ps e lv := ?_); (on_goal 1 => clear_value lv); on_goal 2 => subst lv)
    | (extract_lets +onlyGivenNames lv; clear_value lv)
    | extract_lets +onlyGivenNames lv
    | with_reducible refine Keep.ite ?_ ?_
    | split

theorem Dev.nop_keep {ps : List Part} {e d : Dev} (h : Keep ps e d) (hout : .out ∈ ps) (hevents : .events ∈ ps) (hlink : .link ∈ ps) (hrings : .rings ∈ ps) (hsched : .sched ∈ ps) (a0) : Keep ps e (Dev.nop a0 d) := by
  unfold Dev.nop
  repeat' first
    | with_reducible assumption
    | with_reducible refine Dev.finish_keep ?_ ‹_› ‹_› ‹_› ‹_› ‹_› _ _ _ _ _ _
    | (extract_lets +onlyGivenNames lv; (have hx : Keep ps e lv := ?_); (on_goal 1 => clear_value lv); on_goal 2 => subst lv)
    | (extract_lets +onlyGivenNames lv; clear_value lv)
    | extract_lets +onlyGivenNames lv
    | with_reducible refine Keep.ite ?_ ?_
    | split

theorem Dev.sendLeg_keep {ps : List Part} {e d : Dev} (h : Keep ps e d) (hout : .out ∈ ps) (a1 a2 a3) : Keep ps e (Dev.sendLeg d a1 a2 a3) := by
  unfold Dev.sendLeg
  repeat' first
    | with_reducible assumption
    | with_reducible refine Dev.emit_keep ?_ ‹_› _
    | (extract_lets +onlyGivenNames lv; (have hx : Keep ps e lv := ?_); (on_goal 1 => clear_value lv); on_goal 2 => subst lv)
    | (extract_lets +onlyGivenNames lv; clear_value lv)
    | extract_lets +onlyGivenNames lv
    | with_reducible refine Keep.ite ?_ ?_
    | split

theorem Dev.packetRelease_keep {ps : List Part} {e d : Dev} (h : Keep ps e d) (hnow : .now ∈ ps) (hout : .out ∈ ps) (hevents : .events ∈ ps) (hmedia : .media ∈ ps) (htime : .time ∈ ps) (a0 a1) : Keep ps e (Dev.packetRelease a0 a1 d) := by
  unfold Dev.packetRelease
  repeat' first
    | with_reducible assumption
    | with_reducible refine Dev.bridgeFlush_keep ?_ ‹_› ‹_› ‹_› _
    | with_reducible refine Dev.countFlow_keep ?_ ‹_› _ _ _
    | with_reducible refine Dev.raise_keep ?_ ‹_› _ _
    | with_reducible refine Dev.reach_keep ?_ ‹_› _
    | with_reducible refine Dev.sendLeg_keep ?_ ‹_› _ _ _
    | with_reducible refine Dev.setFlow_keep ?_ ‹_› _ _
    | (extract_lets +onlyGivenNames lv; (have hx : Keep ps e lv := ?_); (on_goal 1 => clear_value lv); on_goal 2 => subst lv)
    | (extract_lets +onlyGivenNames lv; clear_value lv)
    | extract_lets +onlyGivenNames lv
    | with_reducible refine Keep.ite ?_ ?_
    | split

theorem Dev.paramAt_keep {ps : List Part} {e d : Dev} (h : Keep ps e d) (hout : .out ∈ ps) (hevents : .events ∈ ps) (hlink : .link ∈ ps) (hrings : .rings ∈ ps) (hsched : .sched ∈ ps) (a0) : Keep ps e (Dev.paramAt a0 d) := by
  unfold Dev.paramAt
  repeat' first
    | with_reducible assumption
    | with_reducible refine Dev.finish_keep ?_ ‹_› ‹_› ‹_› ‹_› ‹_› _ _ _ _ _ _
    | with_reducible refine Dev.runOp_keep ?_ ‹_› (fun x y hx => ?_)
    | (extract_lets +onlyGivenNames lv; (have hx : Keep ps e lv := ?_); (on_goal 1 => clear_value lv); on_goal 2 => subst lv)
    | (extract_lets +onlyGivenNames lv; clear_value lv)
    | extract_lets +onlyGivenNames lv
    | with_reducible refine Keep.ite ?_ ?_
    | split

theorem Dev.patrolRead_keep {ps : List Part} {e d : Dev} (h : Keep ps e d) (hevents : .events ∈ ps) (hcellar : .cellar ∈ ps) (a0 a1) : Keep ps e (Dev.patrolRead a0 a1 d) := by
  unfold Dev.patrolRead
  repeat' first
    | with_reducible assumption
    | with_reducible refine Dev.rawEcc_keep ?_ ‹_› ‹_› _ _
    | (extract_lets +onlyGivenNames lv; (have hx : Keep ps e lv := ?_); (on_goal 1 => clear_value lv); on_goal 2 => subst lv)
    | (extract_lets +onlyGivenNames lv; clear_value lv)
    | extract_lets +onlyGivenNames lv
    | with_reducible refine Keep.ite ?_ ?_
    | split

theorem Dev.pcieLinkChange_keep {ps : List Part} {e d : Dev} (h : Keep ps e d) (hevents : .events ∈ ps) (hrings : .rings ∈ ps) (a0) : Keep ps e (Dev.pcieLinkChange a0 d) := by
  unfold Dev.pcieLinkChange
  repeat' first
    | with_reducible assumption
    | (intro hx; exact (show Rings.windowsOk _ from hx))
    | with_reducible refine Dev.putRings_keep ?_ ‹_› _ ?_
    | with_reducible refine Dev.raise_keep ?_ ‹_› _ _
    | (extract_lets +onlyGivenNames lv; (have hx : Keep ps e lv := ?_); (on_goal 1 => clear_value lv); on_goal 2 => subst lv)
    | (extract_lets +onlyGivenNames lv; clear_value lv)
    | extract_lets +onlyGivenNames lv
    | with_reducible refine Keep.ite ?_ ?_
    | split

theorem Dev.perstN_keep {ps : List Part} {e d : Dev} (h : Keep ps e d) (hevents : .events ∈ ps) (hrings : .rings ∈ ps) (hsched : .sched ∈ ps) (hpower : .power ∈ ps) (a0) : Keep ps e (Dev.perstN a0 d) := by
  unfold Dev.perstN
  repeat' first
    | with_reducible assumption
    | (intro hx; exact (show Rings.windowsOk _ from hx))
    | with_reducible refine Dev.each_keep ?_ (fun x y hx => ?_)
    | with_reducible refine Dev.flr_keep ?_ ‹_› _
    | with_reducible refine Dev.putPower_keep ?_ ‹_› _
    | with_reducible refine Dev.putRings_keep ?_ ‹_› _ ?_
    | with_reducible refine Dev.putSched_keep ?_ ‹_› _
    | with_reducible refine Dev.raise_keep ?_ ‹_› _ _
    | (extract_lets +onlyGivenNames lv; (have hx : Keep ps e lv := ?_); (on_goal 1 => clear_value lv); on_goal 2 => subst lv)
    | (extract_lets +onlyGivenNames lv; (have hfn : ∀ y, Keep ps e y → Keep ps e (lv y) := ?_); (on_goal 1 => clear_value lv); on_goal 2 => (intro y hy; subst lv; beta_reduce))
    | (extract_lets +onlyGivenNames lv; (have hfn : ∀ y z, Keep ps e y → Keep ps e (lv y z) := ?_); (on_goal 1 => clear_value lv); on_goal 2 => (intro y z hy; subst lv; beta_reduce))
    | (extract_lets +onlyGivenNames lv; (have hfn : ∀ y, Keep ps e (Prod.fst y) → Keep ps e (lv y) := ?_); (on_goal 1 => clear_value lv); on_goal 2 => (intro y hy; subst lv; beta_reduce))
    | (extract_lets +onlyGivenNames lv; (have hfn : ∀ y, Keep ps e (lv y) := ?_); (on_goal 1 => clear_value lv); on_goal 2 => (intro y; subst lv; beta_reduce))
    | (extract_lets +onlyGivenNames lv; (have _ty : Ring := lv); subst lv; clear _ty)
    | (extract_lets +onlyGivenNames lv; (have _ty : Rings := lv); subst lv; clear _ty)
    | (extract_lets +onlyGivenNames lv; (have _ty : Strong := lv); subst lv; clear _ty)
    | (extract_lets +onlyGivenNames lv; (have _ty : RetEntry → RetEntry := lv); subst lv; clear _ty)
    | (extract_lets +onlyGivenNames lv; clear_value lv)
    | extract_lets +onlyGivenNames lv
    | with_reducible exact hfn _
    | with_reducible exact hfn _ _
    | with_reducible refine hfn _ ?_
    | with_reducible refine hfn _ _ ?_
    | with_reducible refine hfn _ _ _ ?_
    | with_reducible refine Keep.ite ?_ ?_
    | split

theorem Dev.pllLockChange_keep {ps : List Part} {e d : Dev} (h : Keep ps e d) (hevents : .events ∈ ps) (hfabric : .fabric ∈ ps) (a0 a1) : Keep ps e (Dev.pllLockChange a0 a1 d) := by
  unfold Dev.pllLockChange
  repeat' first
    | with_reducible assumption
    | with_reducible refine Dev.checkClock_keep ?_ ‹_›
    | with_reducible refine Dev.modFabric_keep ?_ ‹_› _
    | with_reducible refine Dev.raise_keep ?_ ‹_› _ _
    | (extract_lets +onlyGivenNames lv; (have hx : Keep ps e lv := ?_); (on_goal 1 => clear_value lv); on_goal 2 => subst lv)
    | (extract_lets +onlyGivenNames lv; clear_value lv)
    | extract_lets +onlyGivenNames lv
    | with_reducible refine Keep.ite ?_ ?_
    | split

theorem Dev.poisonWord_keep {ps : List Part} {e d : Dev} (h : Keep ps e d) (hevents : .events ∈ ps) (hcellar : .cellar ∈ ps) (a1) : Keep ps e (Dev.poisonWord d a1) := by
  unfold Dev.poisonWord
  repeat' first
    | with_reducible assumption
    | with_reducible refine Dev.poison_keep ?_ ‹_› ‹_› _ _
    | (extract_lets +onlyGivenNames lv; (have hx : Keep ps e lv := ?_); (on_goal 1 => clear_value lv); on_goal 2 => subst lv)
    | (extract_lets +onlyGivenNames lv; clear_value lv)
    | extract_lets +onlyGivenNames lv
    | with_reducible refine Keep.ite ?_ ?_
    | split

theorem Dev.popTdc_keep {ps : List Part} {e d : Dev} (h : Keep ps e d) (htime : .time ∈ ps) (a1) : Keep ps e (Dev.popTdc d a1) := by
  unfold Dev.popTdc
  repeat' first
    | with_reducible assumption
    | with_reducible refine Dev.modTime_keep ?_ ‹_› _
    | (extract_lets +onlyGivenNames lv; (have hx : Keep ps e lv := ?_); (on_goal 1 => clear_value lv); on_goal 2 => subst lv)
    | (extract_lets +onlyGivenNames lv; clear_value lv)
    | extract_lets +onlyGivenNames lv
    | with_reducible refine Keep.ite ?_ ?_
    | split

theorem Dev.porstN_keep {ps : List Part} {e d : Dev} (h : Keep ps e d) (hnow : .now ∈ ps) (hevents : .events ∈ ps) (hrooms : .rooms ∈ ps) (hfuncs : .funcs ∈ ps) (hnet : .net ∈ ps) (hcellar : .cellar ∈ ps) (hmedia : .media ∈ ps) (htime : .time ∈ ps) (hlink : .link ∈ ps) (hfabric : .fabric ∈ ps) (hloader : .loader ∈ ps) (hrings : .rings ∈ ps) (hcores : .cores ∈ ps) (hsched : .sched ∈ ps) (hacq : .acq ∈ ps) (hfuse : .fuse ∈ ps) (hstrong : .strong ∈ ps) (hhub : .hub ∈ ps) (hpower : .power ∈ ps) : Keep ps e (Dev.porstN d) := by
  unfold Dev.porstN
  repeat' first
    | with_reducible assumption
    | with_reducible exact StrongKept.same rfl rfl rfl rfl rfl rfl rfl rfl rfl
    | exact StrongKept.of (fun h => ⟨h.1, h.2.1, Memory.wf_writeN _ _ _ rfl⟩) rfl rfl rfl rfl rfl rfl
    | exact StrongKept.of (fun h => ⟨h.1, Memory.wf_writeN _ _ _ h.2.1, h.2.2⟩) rfl rfl rfl rfl rfl rfl
    | with_reducible refine Dev.coldReset_keep ?_ ‹_› ‹_› ‹_› ‹_› ‹_› ‹_› ‹_› ‹_› ‹_› ‹_› ‹_› ‹_› ‹_› ‹_› ‹_› ‹_› ‹_› ‹_› ‹_›
    | with_reducible refine Dev.putPower_keep ?_ ‹_› _
    | with_reducible refine Dev.putStrong_keep ?_ ‹_› _ ?_
    | (extract_lets +onlyGivenNames lv; (have hx : Keep ps e lv := ?_); (on_goal 1 => clear_value lv); on_goal 2 => subst lv)
    | (extract_lets +onlyGivenNames lv; clear_value lv)
    | extract_lets +onlyGivenNames lv
    | with_reducible refine Keep.ite ?_ ?_
    | split

theorem Dev.porstNRelease_keep {ps : List Part} {e d : Dev} (h : Keep ps e d) (hnow : .now ∈ ps) (hpower : .power ∈ ps) (htap : .tap ∈ ps) : Keep ps e (Dev.porstNRelease d) := by
  unfold Dev.porstNRelease
  repeat' first
    | with_reducible assumption
    | with_reducible refine Dev.leaveCold_keep ?_ ‹_› ‹_›
    | with_reducible refine Dev.putPower_keep ?_ ‹_› _
    | with_reducible refine Dev.putTap_keep ?_ ‹_› _
    | (extract_lets +onlyGivenNames lv; (have hx : Keep ps e lv := ?_); (on_goal 1 => clear_value lv); on_goal 2 => subst lv)
    | (extract_lets +onlyGivenNames lv; clear_value lv)
    | extract_lets +onlyGivenNames lv
    | with_reducible refine Keep.ite ?_ ?_
    | split

theorem Dev.post_keep {ps : List Part} {e d : Dev} (h : Keep ps e d) (hevents : .events ∈ ps) (hrings : .rings ∈ ps) (hcores : .cores ∈ ps) (hsched : .sched ∈ ps) (a0 a1) : Keep ps e (Dev.post a0 a1 d) := by
  unfold Dev.post
  repeat' first
    | with_reducible assumption
    | with_reducible refine Dev.countSched_keep ?_ ‹_› _
    | with_reducible refine Dev.newTask_keep ?_ ‹_› ‹_› ‹_› ‹_› _ _ _ _ _
    | (extract_lets +onlyGivenNames lv; (have hx : Keep ps e lv := ?_); (on_goal 1 => clear_value lv); on_goal 2 => subst lv)
    | (extract_lets +onlyGivenNames lv; clear_value lv)
    | extract_lets +onlyGivenNames lv
    | with_reducible refine Keep.ite ?_ ?_
    | split

theorem Dev.powerGood_keep {ps : List Part} {e d : Dev} (h : Keep ps e d) (hnow : .now ∈ ps) (hpower : .power ∈ ps) : Keep ps e (Dev.powerGood d) := by
  unfold Dev.powerGood
  repeat' first
    | with_reducible assumption
    | with_reducible refine Dev.leaveCold_keep ?_ ‹_› ‹_›
    | with_reducible refine Dev.putPower_keep ?_ ‹_› _
    | (extract_lets +onlyGivenNames lv; (have hx : Keep ps e lv := ?_); (on_goal 1 => clear_value lv); on_goal 2 => subst lv)
    | (extract_lets +onlyGivenNames lv; clear_value lv)
    | extract_lets +onlyGivenNames lv
    | with_reducible refine Keep.ite ?_ ?_
    | split

theorem Dev.powerReading_keep {ps : List Part} {e d : Dev} (h : Keep ps e d) (hevents : .events ∈ ps) (hcellar : .cellar ∈ ps) (hpower : .power ∈ ps) (a0 a1) : Keep ps e (Dev.powerReading a0 a1 d) := by
  unfold Dev.powerReading
  repeat' first
    | with_reducible assumption
    | with_reducible refine Dev.modPower_keep ?_ ‹_› _
    | with_reducible refine Dev.raise_keep ?_ ‹_› _ _
    | with_reducible refine Dev.syncSweeps_keep ?_ ‹_› ‹_›
    | (extract_lets +onlyGivenNames lv; (have hx : Keep ps e lv := ?_); (on_goal 1 => clear_value lv); on_goal 2 => subst lv)
    | (extract_lets +onlyGivenNames lv; clear_value lv)
    | extract_lets +onlyGivenNames lv
    | with_reducible refine Keep.ite ?_ ?_
    | split

theorem Dev.ppsEdge_keep {ps : List Part} {e d : Dev} (h : Keep ps e d) (hevents : .events ∈ ps) (htime : .time ∈ ps) : Keep ps e (Dev.ppsEdge d) := by
  unfold Dev.ppsEdge
  repeat' first
    | with_reducible assumption
    | with_reducible refine Dev.holdover_keep ?_ ‹_› ‹_›
    | with_reducible refine Dev.modTime_keep ?_ ‹_› _
    | with_reducible refine Dev.raise_keep ?_ ‹_› _ _
    | (extract_lets +onlyGivenNames lv; (have hx : Keep ps e lv := ?_); (on_goal 1 => clear_value lv); on_goal 2 => subst lv)
    | (extract_lets +onlyGivenNames lv; clear_value lv)
    | extract_lets +onlyGivenNames lv
    | with_reducible refine Keep.ite ?_ ?_
    | split

theorem Dev.ppsLoss_keep {ps : List Part} {e d : Dev} (h : Keep ps e d) (hnow : .now ∈ ps) (hevents : .events ∈ ps) (htime : .time ∈ ps) : Keep ps e (Dev.ppsLoss d) := by
  unfold Dev.ppsLoss
  repeat' first
    | with_reducible assumption
    | with_reducible refine Dev.holdover_keep ?_ ‹_› ‹_›
    | with_reducible refine Dev.modTime_keep ?_ ‹_› _
    | with_reducible refine Dev.raise_keep ?_ ‹_› _ _
    | with_reducible refine Dev.reach_keep ?_ ‹_› _
    | (extract_lets +onlyGivenNames lv; (have hx : Keep ps e lv := ?_); (on_goal 1 => clear_value lv); on_goal 2 => subst lv)
    | (extract_lets +onlyGivenNames lv; clear_value lv)
    | extract_lets +onlyGivenNames lv
    | with_reducible refine Keep.ite ?_ ?_
    | split

theorem Dev.ppsOutEdge_keep {ps : List Part} {e d : Dev} (h : Keep ps e d) (hnow : .now ∈ ps) (hout : .out ∈ ps) : Keep ps e (Dev.ppsOutEdge d) := by
  unfold Dev.ppsOutEdge
  repeat' first
    | with_reducible assumption
    | with_reducible refine Dev.emit_keep ?_ ‹_› _
    | with_reducible refine Dev.reach_keep ?_ ‹_› _
    | (extract_lets +onlyGivenNames lv; (have hx : Keep ps e lv := ?_); (on_goal 1 => clear_value lv); on_goal 2 => subst lv)
    | (extract_lets +onlyGivenNames lv; clear_value lv)
    | extract_lets +onlyGivenNames lv
    | with_reducible refine Keep.ite ?_ ?_
    | split

theorem Dev.prbsLock_keep {ps : List Part} {e d : Dev} (h : Keep ps e d) (hlink : .link ∈ ps) (a0 a1) : Keep ps e (Dev.prbsLock a0 a1 d) := by
  unfold Dev.prbsLock
  repeat' first
    | with_reducible assumption
    | with_reducible refine Dev.laneErrors_keep ?_ ‹_› _ _
    | with_reducible refine Dev.modLane_keep ?_ ‹_› _ _
    | (extract_lets +onlyGivenNames lv; (have hx : Keep ps e lv := ?_); (on_goal 1 => clear_value lv); on_goal 2 => subst lv)
    | (extract_lets +onlyGivenNames lv; clear_value lv)
    | extract_lets +onlyGivenNames lv
    | with_reducible refine Keep.ite ?_ ?_
    | split

theorem Dev.putFlash_keep {ps : List Part} {e d : Dev} (h : Keep ps e d) (hflash : .flash ∈ ps) (a1) : Keep ps e (Dev.putFlash d a1) := by
  unfold Dev.putFlash
  exact Keep.upd_flash h ‹_›

theorem Dev.putMedia_keep {ps : List Part} {e d : Dev} (h : Keep ps e d) (hmedia : .media ∈ ps) (a1) : Keep ps e (Dev.putMedia d a1) := by
  unfold Dev.putMedia
  exact Keep.upd_media h ‹_›

theorem Dev.writeQueue_keep {ps : List Part} {e d : Dev} (h : Keep ps e d) (hcellar : .cellar ∈ ps) (a1 a2) : Keep ps e (Dev.writeQueue d a1 a2) := by
  unfold Dev.writeQueue
  repeat' first
    | with_reducible assumption
    | (intro c hc; with_reducible exact hc)
    | (intro c hc; with_reducible exact Cellar.seal_wf hc _ _ _ _)
    | (intro c hc; with_reducible exact Cellar.mergeRaw_wf hc _ _ _)
    | (intro c hc; (try dsimp only [Cellar.count, Cellar.setRegion, Cellar.setKey, Cellar.loadKey, Cellar.decideWb]); with_reducible exact hc)
    | (intro c hc; (try dsimp only [Cellar.count, Cellar.setRegion, Cellar.setKey, Cellar.loadKey, Cellar.decideWb]); with_reducible exact Cellar.seal_wf hc _ _ _ _)
    | (intro c hc; (try dsimp only [Cellar.count, Cellar.setRegion, Cellar.setKey, Cellar.loadKey, Cellar.decideWb]); with_reducible exact Cellar.mergeRaw_wf hc _ _ _)
    | (intro c hc; (try dsimp only [Cellar.count, Cellar.setRegion, Cellar.setKey, Cellar.loadKey, Cellar.decideWb]); with_reducible exact Cellar.putMeta_wf hc _ _)
    | (intro c hc; (try dsimp only [Cellar.count, Cellar.setRegion, Cellar.setKey, Cellar.loadKey, Cellar.decideWb]); with_reducible exact Cellar.putRaw_wf hc _ _)
    | (intro c hc; (try dsimp only [Cellar.count, Cellar.setRegion, Cellar.setKey, Cellar.loadKey, Cellar.decideWb]); with_reducible exact Memory.wf_write _ _ _ hc)
    | (intro c hc; (try dsimp only [Cellar.count, Cellar.setRegion, Cellar.setKey, Cellar.loadKey, Cellar.decideWb]); with_reducible exact Memory.wf_writeN _ _ _ hc)
    | (intro c hc; (try dsimp only [Cellar.count, Cellar.setRegion, Cellar.setKey, Cellar.loadKey, Cellar.decideWb]); with_reducible exact Memory.wf_clearRange _ _ _ hc)
    | (intro c hc; (try dsimp only [Cellar.count, Cellar.setRegion, Cellar.setKey, Cellar.loadKey, Cellar.decideWb]); with_reducible exact Memory.wf_spans _ _ hc)
    | (intro c hc; (repeat' split) <;> with_reducible exact hc)
    | (intro c hc; dsimp only; split <;> exact hc)
    | (intro c hc; exact hc)
    | with_reducible refine Dev.modCellar_keep ?_ ‹_› _ ?_
    | (extract_lets +onlyGivenNames lv; (have hx : Keep ps e lv := ?_); (on_goal 1 => clear_value lv); on_goal 2 => subst lv)
    | (extract_lets +onlyGivenNames lv; clear_value lv)
    | extract_lets +onlyGivenNames lv
    | with_reducible refine Keep.ite ?_ ?_
    | split

theorem Dev.qWslotChange_keep {ps : List Part} {e d : Dev} (h : Keep ps e d) (hcellar : .cellar ∈ ps) (a0 a1 a2) : Keep ps e (Dev.qWslotChange a0 a1 a2 d) := by
  unfold Dev.qWslotChange
  repeat' first
    | with_reducible assumption
    | with_reducible refine Dev.writeQueue_keep ?_ ‹_› _ _
    | (extract_lets +onlyGivenNames lv; (have hx : Keep ps e lv := ?_); (on_goal 1 => clear_value lv); on_goal 2 => subst lv)
    | (extract_lets +onlyGivenNames lv; clear_value lv)
    | extract_lets +onlyGivenNames lv
    | with_reducible refine Keep.ite ?_ ?_
    | split

theorem Dev.railFault_keep {ps : List Part} {e d : Dev} (h : Keep ps e d) (hnow : .now ∈ ps) (hevents : .events ∈ ps) (hrooms : .rooms ∈ ps) (hfuncs : .funcs ∈ ps) (hnet : .net ∈ ps) (hcellar : .cellar ∈ ps) (hmedia : .media ∈ ps) (htime : .time ∈ ps) (hlink : .link ∈ ps) (hfabric : .fabric ∈ ps) (hloader : .loader ∈ ps) (hrings : .rings ∈ ps) (hcores : .cores ∈ ps) (hsched : .sched ∈ ps) (hacq : .acq ∈ ps) (hfuse : .fuse ∈ ps) (hstrong : .strong ∈ ps) (hhub : .hub ∈ ps) (hpower : .power ∈ ps) (a0 a1) : Keep ps e (Dev.railFault a0 a1 d) := by
  unfold Dev.railFault
  repeat' first
    | with_reducible assumption
    | with_reducible refine Dev.coldReset_keep ?_ ‹_› ‹_› ‹_› ‹_› ‹_› ‹_› ‹_› ‹_› ‹_› ‹_› ‹_› ‹_› ‹_› ‹_› ‹_› ‹_› ‹_› ‹_› ‹_›
    | with_reducible refine Dev.putPower_keep ?_ ‹_› _
    | with_reducible refine Dev.raise_keep ?_ ‹_› _ _
    | with_reducible refine Dev.wipe_keep ?_ ‹_› ‹_› ‹_› ‹_› ‹_› ‹_› ‹_› ‹_› ‹_› ‹_› ‹_› ‹_› ‹_› ‹_› ‹_› ‹_› ‹_› ‹_› ‹_› _
    | (extract_lets +onlyGivenNames lv; (have hx : Keep ps e lv := ?_); (on_goal 1 => clear_value lv); on_goal 2 => subst lv)
    | (extract_lets +onlyGivenNames lv; (have hfn : ∀ y, Keep ps e y → Keep ps e (lv y) := ?_); (on_goal 1 => clear_value lv); on_goal 2 => (intro y hy; subst lv; beta_reduce))
    | (extract_lets +onlyGivenNames lv; (have hfn : ∀ y, Keep ps e (Prod.fst y) → Keep ps e (lv y) := ?_); (on_goal 1 => clear_value lv); on_goal 2 => (intro y hy; subst lv; beta_reduce))
    | (extract_lets +onlyGivenNames lv; (have hfn : ∀ y, Keep ps e (lv y) := ?_); (on_goal 1 => clear_value lv); on_goal 2 => (intro y; subst lv; beta_reduce))
    | (extract_lets +onlyGivenNames lv; clear_value lv)
    | extract_lets +onlyGivenNames lv
    | with_reducible exact hfn _
    | with_reducible exact hfn _ _
    | with_reducible refine hfn _ ?_
    | with_reducible refine hfn _ _ ?_
    | with_reducible refine hfn _ _ _ ?_
    | with_reducible refine Keep.ite ?_ ?_
    | split

theorem Dev.readNow_keep {ps : List Part} {e d : Dev} (h : Keep ps e d) (hhub : .hub ∈ ps) (a1 a2) : Keep ps e (Dev.readNow d a1 a2).1 := by
  unfold Dev.readNow
  repeat' first
    | with_reducible assumption
    | with_reducible refine Dev.modReq_keep ?_ ‹_› _ _
    | (extract_lets +onlyGivenNames lv; (have hx : Keep ps e lv := ?_); (on_goal 1 => clear_value lv); on_goal 2 => subst lv)
    | (extract_lets +onlyGivenNames lv; clear_value lv)
    | extract_lets +onlyGivenNames lv
    | with_reducible refine Keep.ite ?_ ?_
    | with_reducible refine Keep.iteFst ?_ ?_
    | split

theorem Dev.xdFail_keep {ps : List Part} {e d : Dev} (h : Keep ps e d) (hhub : .hub ∈ ps) (a1 a2) : Keep ps e (Dev.xdFail d a1 a2) := by
  unfold Dev.xdFail
  repeat' first
    | with_reducible assumption
    | with_reducible refine Dev.countHub_keep ?_ ‹_› _
    | with_reducible refine Dev.modPair_keep ?_ ‹_› _ _ _
    | (extract_lets +onlyGivenNames lv; (have hx : Keep ps e lv := ?_); (on_goal 1 => clear_value lv); on_goal 2 => subst lv)
    | (extract_lets +onlyGivenNames lv; clear_value lv)
    | extract_lets +onlyGivenNames lv
    | with_reducible refine Keep.ite ?_ ?_
    | split

theorem Dev.xdRead_keep {ps : List Part} {e d : Dev} (h : Keep ps e d) (hnet : .net ∈ ps) (hhub : .hub ∈ ps) (a1 a2) : Keep ps e (Dev.xdRead d a1 a2).1 := by
  unfold Dev.xdRead
  repeat' first
    | with_reducible assumption
    | with_reducible refine Dev.carryReg_keep ?_ ‹_› _ _ _ _
    | with_reducible refine Dev.latchRead_keep ?_ ‹_› _ _ _ _ _
    | with_reducible refine Dev.modPair_keep ?_ ‹_› _ _ _
    | with_reducible refine Dev.xdFail_keep ?_ ‹_› _ _
    | with_reducible refine Keep.fst2 ‹_› ?_
    | with_reducible refine Keep.fst ‹_› ?_
    | (extract_lets +onlyGivenNames lv; (have hx : Keep ps e lv := ?_); (on_goal 1 => clear_value lv); on_goal 2 => subst lv)
    | (extract_lets +onlyGivenNames lv; clear_value lv)
    | extract_lets +onlyGivenNames lv
    | with_reducible refine Keep.ite ?_ ?_
    | with_reducible refine Keep.iteFst ?_ ?_
    | split

theorem Dev.readPair_keep {ps : List Part} {e d : Dev} (h : Keep ps e d) (hnet : .net ∈ ps) (hhub : .hub ∈ ps) (a1 a2 a3) : Keep ps e (Dev.readPair d a1 a2 a3).1 := by
  unfold Dev.readPair
  repeat' first
    | with_reducible assumption
    | with_reducible refine Dev.xdRead_keep ?_ ‹_› ‹_› _ _
    | with_reducible refine Keep.fst2 ‹_› ?_
    | with_reducible refine Keep.fst ‹_› ?_
    | (extract_lets +onlyGivenNames lv; (have hx : Keep ps e lv := ?_); (on_goal 1 => clear_value lv); on_goal 2 => subst lv)
    | (extract_lets +onlyGivenNames lv; clear_value lv)
    | extract_lets +onlyGivenNames lv
    | with_reducible refine Keep.ite ?_ ?_
    | with_reducible refine Keep.iteFst ?_ ?_
    | split

theorem answered_keep {ps : List Part} {e : Dev} {x : Dev × Word} (h : Keep ps e x.1) : Keep ps e (answered x).1 := h

theorem Dev.readAt_keep {ps : List Part} {e d : Dev} (h : Keep ps e d) (hnet : .net ∈ ps) (hcores : .cores ∈ ps) (hhub : .hub ∈ ps) (a1 a2 a3) : Keep ps e (Dev.readAt d a1 a2 a3).1 := by
  unfold Dev.readAt
  split
  · exact Dev.readPair_keep h ‹_› ‹_› _ _ _
  · split
    · refine answered_keep ?_
      with_reducible exact Dev.readNow_keep h ‹_› _ _
    · split
      · refine answered_keep ?_
        with_reducible exact Dev.accessLdd_keep h ‹_› _ _
      · refine answered_keep ?_
        with_reducible exact Dev.latchRead_keep h ‹_› _ _ _ _ _

theorem Dev.readLines_keep {ps : List Part} {e d : Dev} (h : Keep ps e d) (hfree : .free ∈ ps) (hevents : .events ∈ ps) (hcellar : .cellar ∈ ps) (a1 a2 a3 a4 a5 a6) : Keep ps e (Dev.readLines d a1 a2 a3 a4 a5 a6).1 := by
  induction a6 generalizing d a1 a2 a3 a4 a5 with
  | zero =>
    unfold Dev.readLines
    repeat' first
      | with_reducible assumption
      | with_reducible refine Dev.readLine_keep ?_ ‹_› ‹_› ‹_› _ _ _ _ _ _
      | with_reducible refine Keep.fst2 ‹_› ?_
      | with_reducible refine Keep.fst ‹_› ?_
      | (extract_lets +onlyGivenNames lv; (have hx : Keep ps e lv := ?_); (on_goal 1 => clear_value lv); on_goal 2 => subst lv)
      | (extract_lets +onlyGivenNames lv; clear_value lv)
      | extract_lets +onlyGivenNames lv
      | with_reducible refine Keep.ite ?_ ?_
      | with_reducible refine Keep.iteFst ?_ ?_
      | split
  | succ n ih =>
    unfold Dev.readLines
    repeat' first
      | with_reducible assumption
      | with_reducible apply ih
      | with_reducible refine Dev.readLine_keep ?_ ‹_› ‹_› ‹_› _ _ _ _ _ _
      | with_reducible refine Keep.fst2 ‹_› ?_
      | with_reducible refine Keep.fst ‹_› ?_
      | (extract_lets +onlyGivenNames lv; (have hx : Keep ps e lv := ?_); (on_goal 1 => clear_value lv); on_goal 2 => subst lv)
      | (extract_lets +onlyGivenNames lv; clear_value lv)
      | extract_lets +onlyGivenNames lv
      | with_reducible refine Keep.ite ?_ ?_
      | with_reducible refine Keep.iteFst ?_ ?_
      | split

theorem Dev.readStreamIssue_keep {ps : List Part} {e d : Dev} (h : Keep ps e d) (hfree : .free ∈ ps) (hevents : .events ∈ ps) (hrooms : .rooms ∈ ps) (hfuncs : .funcs ∈ ps) (hcellar : .cellar ∈ ps) (a0 a1) : Keep ps e (Dev.readStreamIssue a0 a1 d) := by
  unfold Dev.readStreamIssue
  repeat' first
    | with_reducible assumption
    | (intro c hc; with_reducible exact hc)
    | (intro c hc; with_reducible exact Cellar.seal_wf hc _ _ _ _)
    | (intro c hc; with_reducible exact Cellar.mergeRaw_wf hc _ _ _)
    | (intro c hc; (try dsimp only [Cellar.count, Cellar.setRegion, Cellar.setKey, Cellar.loadKey, Cellar.decideWb]); with_reducible exact hc)
    | (intro c hc; (try dsimp only [Cellar.count, Cellar.setRegion, Cellar.setKey, Cellar.loadKey, Cellar.decideWb]); with_reducible exact Cellar.seal_wf hc _ _ _ _)
    | (intro c hc; (try dsimp only [Cellar.count, Cellar.setRegion, Cellar.setKey, Cellar.loadKey, Cellar.decideWb]); with_reducible exact Cellar.mergeRaw_wf hc _ _ _)
    | (intro c hc; (try dsimp only [Cellar.count, Cellar.setRegion, Cellar.setKey, Cellar.loadKey, Cellar.decideWb]); with_reducible exact Cellar.putMeta_wf hc _ _)
    | (intro c hc; (try dsimp only [Cellar.count, Cellar.setRegion, Cellar.setKey, Cellar.loadKey, Cellar.decideWb]); with_reducible exact Cellar.putRaw_wf hc _ _)
    | (intro c hc; (try dsimp only [Cellar.count, Cellar.setRegion, Cellar.setKey, Cellar.loadKey, Cellar.decideWb]); with_reducible exact Memory.wf_write _ _ _ hc)
    | (intro c hc; (try dsimp only [Cellar.count, Cellar.setRegion, Cellar.setKey, Cellar.loadKey, Cellar.decideWb]); with_reducible exact Memory.wf_writeN _ _ _ hc)
    | (intro c hc; (try dsimp only [Cellar.count, Cellar.setRegion, Cellar.setKey, Cellar.loadKey, Cellar.decideWb]); with_reducible exact Memory.wf_clearRange _ _ _ hc)
    | (intro c hc; (try dsimp only [Cellar.count, Cellar.setRegion, Cellar.setKey, Cellar.loadKey, Cellar.decideWb]); with_reducible exact Memory.wf_spans _ _ hc)
    | (intro c hc; (repeat' split) <;> with_reducible exact hc)
    | (intro c hc; dsimp only; split <;> exact hc)
    | (intro c hc; exact hc)
    | with_reducible refine Dev.chargeRoom_keep ?_ ‹_› ‹_› ‹_› _ _ _
    | with_reducible refine Dev.modCellar_keep ?_ ‹_› _ ?_
    | with_reducible refine Dev.readLines_keep ?_ ‹_› ‹_› ‹_› _ _ _ _ _ _
    | with_reducible refine Keep.fst2 ‹_› ?_
    | with_reducible refine Keep.fst ‹_› ?_
    | (extract_lets +onlyGivenNames lv; (have hx : Keep ps e lv := ?_); (on_goal 1 => clear_value lv); on_goal 2 => subst lv)
    | (extract_lets +onlyGivenNames lv; clear_value lv)
    | extract_lets +onlyGivenNames lv
    | with_reducible refine Keep.ite ?_ ?_
    | with_reducible refine Keep.iteFst ?_ ?_
    | split

theorem Dev.readVf_keep {ps : List Part} {e d : Dev} (h : Keep ps e d) (hnet : .net ∈ ps) (hhub : .hub ∈ ps) (a1 a2) : Keep ps e (Dev.readVf d a1 a2).1 := by
  unfold Dev.readVf
  split
  · refine answered_keep ?_
    with_reducible exact Dev.readNow_keep h ‹_› _ _
  · split
    · with_reducible exact Dev.readPair_keep h ‹_› ‹_› _ _ _
    · refine answered_keep ?_
      with_reducible exact Dev.latchRead_keep h ‹_› _ _ _ _ _

theorem Dev.refLoss_keep {ps : List Part} {e d : Dev} (h : Keep ps e d) (hevents : .events ∈ ps) (htime : .time ∈ ps) : Keep ps e (Dev.refLoss d) := by
  unfold Dev.refLoss
  repeat' first
    | with_reducible assumption
    | with_reducible refine Dev.modTime_keep ?_ ‹_› _
    | with_reducible refine Dev.raise_keep ?_ ‹_› _ _
    | (extract_lets +onlyGivenNames lv; (have hx : Keep ps e lv := ?_); (on_goal 1 => clear_value lv); on_goal 2 => subst lv)
    | (extract_lets +onlyGivenNames lv; clear_value lv)
    | extract_lets +onlyGivenNames lv
    | with_reducible refine Keep.ite ?_ ?_
    | split

theorem Dev.refuseAccess_keep {ps : List Part} {e d : Dev} (h : Keep ps e d) (hhub : .hub ∈ ps) (a1 a2 a3) : Keep ps e (Dev.refuseAccess d a1 a2 a3) := by
  unfold Dev.refuseAccess
  repeat' first
    | with_reducible assumption
    | with_reducible refine Dev.countHub_keep ?_ ‹_› _
    | with_reducible refine Keep.upd_hub ?_ ‹_›
    | (extract_lets +onlyGivenNames lv; (have hx : Keep ps e lv := ?_); (on_goal 1 => clear_value lv); on_goal 2 => subst lv)
    | (extract_lets +onlyGivenNames lv; clear_value lv)
    | extract_lets +onlyGivenNames lv
    | with_reducible refine Keep.ite ?_ ?_
    | split

theorem Dev.regRead_keep {ps : List Part} {e d : Dev} (h : Keep ps e d) (hnet : .net ∈ ps) (hcores : .cores ∈ ps) (hhub : .hub ∈ ps) (a1 a2) : Keep ps e (Dev.regRead d a1 a2).1 := by
  unfold Dev.regRead
  repeat' first
    | with_reducible assumption
    | with_reducible refine Dev.readAt_keep ?_ ‹_› ‹_› ‹_› _ _ _
    | with_reducible refine Dev.readVf_keep ?_ ‹_› ‹_› _ _
    | with_reducible refine Dev.refuseAccess_keep ?_ ‹_› _ _ _
    | with_reducible refine Keep.fst2 ‹_› ?_
    | with_reducible refine Keep.fst ‹_› ?_
    | (extract_lets +onlyGivenNames lv; (have hx : Keep ps e lv := ?_); (on_goal 1 => clear_value lv); on_goal 2 => subst lv)
    | (extract_lets +onlyGivenNames lv; clear_value lv)
    | extract_lets +onlyGivenNames lv
    | with_reducible refine Keep.ite ?_ ?_
    | with_reducible refine Keep.iteFst ?_ ?_
    | split

theorem Dev.writeAcqReg_keep {ps : List Part} {e d : Dev} (h : Keep ps e d) (hfree : .free ∈ ps) (hevents : .events ∈ ps) (hcellar : .cellar ∈ ps) (hacq : .acq ∈ ps) (hstrong : .strong ∈ ps) (hhub : .hub ∈ ps) (a1 a2) : Keep ps e (Dev.writeAcqReg d a1 a2) := by
  unfold Dev.writeAcqReg
  repeat' first
    | with_reducible assumption
    | with_reducible refine Dev.acqForce_keep ?_ ‹_› ‹_› ‹_› ‹_› ‹_› ‹_› _
    | with_reducible refine Dev.askDisarm_keep ?_ ‹_› ‹_› _
    | with_reducible refine Dev.modUnit_keep ?_ ‹_› _ _
    | (extract_lets +onlyGivenNames lv; (have hx : Keep ps e lv := ?_); (on_goal 1 => clear_value lv); on_goal 2 => subst lv)
    | (extract_lets +onlyGivenNames lv; clear_value lv)
    | extract_lets +onlyGivenNames lv
    | with_reducible refine Keep.ite ?_ ?_
    | split

theorem Dev.writeCoreCfg_keep {ps : List Part} {e d : Dev} (h : Keep ps e d) (hfree : .free ∈ ps) (hevents : .events ∈ ps) (hcellar : .cellar ∈ ps) (hrings : .rings ∈ ps) (hcores : .cores ∈ ps) (hsched : .sched ∈ ps) (hstrong : .strong ∈ ps) (a1 a2) : Keep ps e (Dev.writeCoreCfg d a1 a2) := by
  unfold Dev.writeCoreCfg
  repeat' first
    | with_reducible assumption
    | with_reducible refine Dev.abandon_keep ?_ ‹_› ‹_› ‹_› ‹_› _
    | with_reducible refine Dev.dispatchAll_keep ?_ ‹_› ‹_›
    | with_reducible refine Dev.measureCore_keep ?_ ‹_› ‹_› _
    | with_reducible refine Dev.modCore_keep ?_ ‹_› _ _
    | with_reducible refine Dev.refillAll_keep ?_ ‹_› ‹_› ‹_› ‹_›
    | with_reducible refine Dev.setCore_keep ?_ ‹_› _ _
    | with_reducible refine Dev.startCore_keep ?_ ‹_› ‹_› ‹_› ‹_› ‹_› _
    | with_reducible refine Dev.unmeasure_keep ?_ ‹_› _ _
    | (extract_lets +onlyGivenNames lv; (have hx : Keep ps e lv := ?_); (on_goal 1 => clear_value lv); on_goal 2 => subst lv)
    | (extract_lets +onlyGivenNames lv; clear_value lv)
    | extract_lets +onlyGivenNames lv
    | with_reducible refine Keep.ite ?_ ?_
    | split

theorem Dev.writeTrCtl_keep {ps : List Part} {e d : Dev} (h : Keep ps e d) (hfree : .free ∈ ps) (hevents : .events ∈ ps) (hcellar : .cellar ∈ ps) (hcores : .cores ∈ ps) (hstrong : .strong ∈ ps) (a1 a2) : Keep ps e (Dev.writeTrCtl d a1 a2) := by
  unfold Dev.writeTrCtl
  repeat' first
    | with_reducible assumption
    | with_reducible refine Dev.flushBranches_keep ?_ ‹_› ‹_› ‹_› ‹_› ‹_› _
    | with_reducible refine Dev.setStream_keep ?_ ‹_› _ _
    | with_reducible refine Dev.sync_keep ?_ ‹_› ‹_› ‹_› ‹_› ‹_› _ _
    | (extract_lets +onlyGivenNames lv; (have hx : Keep ps e lv := ?_); (on_goal 1 => clear_value lv); on_goal 2 => subst lv)
    | (extract_lets +onlyGivenNames lv; clear_value lv)
    | extract_lets +onlyGivenNames lv
    | with_reducible refine Keep.ite ?_ ?_
    | split

theorem Dev.streamRecover_keep {ps : List Part} {e d : Dev} (h : Keep ps e d) (hfree : .free ∈ ps) (hevents : .events ∈ ps) (hcellar : .cellar ∈ ps) (hcores : .cores ∈ ps) (hstrong : .strong ∈ ps) (a1) : Keep ps e (Dev.streamRecover d a1) := by
  unfold Dev.streamRecover
  repeat' first
    | with_reducible assumption
    | with_reducible refine Dev.setStream_keep ?_ ‹_› _ _
    | with_reducible refine Dev.streamReserved_keep ?_ ‹_› ‹_› ‹_› ‹_› ‹_› _ _
    | with_reducible refine Dev.sync_keep ?_ ‹_› ‹_› ‹_› ‹_› ‹_› _ _
    | (extract_lets +onlyGivenNames lv; (have hx : Keep ps e lv := ?_); (on_goal 1 => clear_value lv); on_goal 2 => subst lv)
    | (extract_lets +onlyGivenNames lv; clear_value lv)
    | extract_lets +onlyGivenNames lv
    | with_reducible refine Keep.ite ?_ ?_
    | split

theorem Dev.writeTraceRp_keep {ps : List Part} {e d : Dev} (h : Keep ps e d) (hfree : .free ∈ ps) (hevents : .events ∈ ps) (hcellar : .cellar ∈ ps) (hcores : .cores ∈ ps) (hstrong : .strong ∈ ps) (a1 a2) : Keep ps e (Dev.writeTraceRp d a1 a2) := by
  unfold Dev.writeTraceRp
  repeat' first
    | with_reducible assumption
    | with_reducible refine Dev.setStream_keep ?_ ‹_› _ _
    | with_reducible refine Dev.streamRecover_keep ?_ ‹_› ‹_› ‹_› ‹_› ‹_› _
    | (extract_lets +onlyGivenNames lv; (have hx : Keep ps e lv := ?_); (on_goal 1 => clear_value lv); on_goal 2 => subst lv)
    | (extract_lets +onlyGivenNames lv; clear_value lv)
    | extract_lets +onlyGivenNames lv
    | with_reducible refine Keep.ite ?_ ?_
    | split

theorem Dev.writeCoreReg_keep {ps : List Part} {e d : Dev} (h : Keep ps e d) (hfree : .free ∈ ps) (hevents : .events ∈ ps) (hcellar : .cellar ∈ ps) (hrings : .rings ∈ ps) (hcores : .cores ∈ ps) (hsched : .sched ∈ ps) (hstrong : .strong ∈ ps) (a1 a2 a3) : Keep ps e (Dev.writeCoreReg d a1 a2 a3) := by
  unfold Dev.writeCoreReg
  repeat' first
    | with_reducible assumption
    | with_reducible refine Dev.accessLdd_keep ?_ ‹_› _ _
    | with_reducible refine Dev.modCore_keep ?_ ‹_› _ _
    | with_reducible refine Dev.setStream_keep ?_ ‹_› _ _
    | with_reducible refine Dev.writeCoreCfg_keep ?_ ‹_› ‹_› ‹_› ‹_› ‹_› ‹_› ‹_› _ _
    | with_reducible refine Dev.writeTrCtl_keep ?_ ‹_› ‹_› ‹_› ‹_› ‹_› _ _
    | with_reducible refine Dev.writeTraceRp_keep ?_ ‹_› ‹_› ‹_› ‹_› ‹_› _ _
    | with_reducible refine Keep.fst2 ‹_› ?_
    | with_reducible refine Keep.fst ‹_› ?_
    | (extract_lets +onlyGivenNames lv; (have hx : Keep ps e lv := ?_); (on_goal 1 => clear_value lv); on_goal 2 => subst lv)
    | (extract_lets +onlyGivenNames lv; (have hfn : ∀ y, Keep ps e y → Keep ps e (lv y) := ?_); (on_goal 1 => clear_value lv); on_goal 2 => (intro y hy; subst lv; beta_reduce))
    | (extract_lets +onlyGivenNames lv; (have hfn : ∀ y, Keep ps e (Prod.fst y) → Keep ps e (lv y) := ?_); (on_goal 1 => clear_value lv); on_goal 2 => (intro y hy; subst lv; beta_reduce))
    | (extract_lets +onlyGivenNames lv; (have hfn : ∀ y, Keep ps e (lv y) := ?_); (on_goal 1 => clear_value lv); on_goal 2 => (intro y; subst lv; beta_reduce))
    | (extract_lets +onlyGivenNames lv; clear_value lv)
    | extract_lets +onlyGivenNames lv
    | with_reducible exact hfn _
    | with_reducible exact hfn _ _
    | with_reducible refine hfn _ ?_
    | with_reducible refine hfn _ _ ?_
    | with_reducible refine hfn _ _ _ ?_
    | with_reducible refine Keep.ite ?_ ?_
    | with_reducible refine Keep.iteFst ?_ ?_
    | split

theorem Dev.writeCcoreReg_keep {ps : List Part} {e d : Dev} (h : Keep ps e d) (hfree : .free ∈ ps) (hevents : .events ∈ ps) (hcellar : .cellar ∈ ps) (hrings : .rings ∈ ps) (hcores : .cores ∈ ps) (hsched : .sched ∈ ps) (hstrong : .strong ∈ ps) (a1 a2) : Keep ps e (Dev.writeCcoreReg d a1 a2) := by
  unfold Dev.writeCcoreReg
  repeat' first
    | with_reducible assumption
    | with_reducible refine Dev.setStream_keep ?_ ‹_› _ _
    | with_reducible refine Dev.writeCoreReg_keep ?_ ‹_› ‹_› ‹_› ‹_› ‹_› ‹_› ‹_› _ _ _
    | with_reducible refine Dev.writeTrCtl_keep ?_ ‹_› ‹_› ‹_› ‹_› ‹_› _ _
    | with_reducible refine Dev.writeTraceRp_keep ?_ ‹_› ‹_› ‹_› ‹_› ‹_› _ _
    | (extract_lets +onlyGivenNames lv; (have hx : Keep ps e lv := ?_); (on_goal 1 => clear_value lv); on_goal 2 => subst lv)
    | (extract_lets +onlyGivenNames lv; clear_value lv)
    | extract_lets +onlyGivenNames lv
    | with_reducible refine Keep.ite ?_ ?_
    | split

theorem Dev.writeRegion_keep {ps : List Part} {e d : Dev} (h : Keep ps e d) (hevents : .events ∈ ps) (hcellar : .cellar ∈ ps) (a1 a2) : Keep ps e (Dev.writeRegion d a1 a2) := by
  unfold Dev.writeRegion
  repeat' first
    | with_reducible assumption
    | (intro c hc; with_reducible exact hc)
    | (intro c hc; with_reducible exact Cellar.seal_wf hc _ _ _ _)
    | (intro c hc; with_reducible exact Cellar.mergeRaw_wf hc _ _ _)
    | (intro c hc; (try dsimp only [Cellar.count, Cellar.setRegion, Cellar.setKey, Cellar.loadKey, Cellar.decideWb]); with_reducible exact hc)
    | (intro c hc; (try dsimp only [Cellar.count, Cellar.setRegion, Cellar.setKey, Cellar.loadKey, Cellar.decideWb]); with_reducible exact Cellar.seal_wf hc _ _ _ _)
    | (intro c hc; (try dsimp only [Cellar.count, Cellar.setRegion, Cellar.setKey, Cellar.loadKey, Cellar.decideWb]); with_reducible exact Cellar.mergeRaw_wf hc _ _ _)
    | (intro c hc; (try dsimp only [Cellar.count, Cellar.setRegion, Cellar.setKey, Cellar.loadKey, Cellar.decideWb]); with_reducible exact Cellar.putMeta_wf hc _ _)
    | (intro c hc; (try dsimp only [Cellar.count, Cellar.setRegion, Cellar.setKey, Cellar.loadKey, Cellar.decideWb]); with_reducible exact Cellar.putRaw_wf hc _ _)
    | (intro c hc; (try dsimp only [Cellar.count, Cellar.setRegion, Cellar.setKey, Cellar.loadKey, Cellar.decideWb]); with_reducible exact Memory.wf_write _ _ _ hc)
    | (intro c hc; (try dsimp only [Cellar.count, Cellar.setRegion, Cellar.setKey, Cellar.loadKey, Cellar.decideWb]); with_reducible exact Memory.wf_writeN _ _ _ hc)
    | (intro c hc; (try dsimp only [Cellar.count, Cellar.setRegion, Cellar.setKey, Cellar.loadKey, Cellar.decideWb]); with_reducible exact Memory.wf_clearRange _ _ _ hc)
    | (intro c hc; (try dsimp only [Cellar.count, Cellar.setRegion, Cellar.setKey, Cellar.loadKey, Cellar.decideWb]); with_reducible exact Memory.wf_spans _ _ hc)
    | (intro c hc; (repeat' split) <;> with_reducible exact hc)
    | (intro c hc; dsimp only; split <;> exact hc)
    | (intro c hc; exact hc)
    | with_reducible refine Dev.autoSweeps_keep ?_ ‹_› ‹_›
    | with_reducible refine Dev.modCellar_keep ?_ ‹_› _ ?_
    | (extract_lets +onlyGivenNames lv; (have hx : Keep ps e lv := ?_); (on_goal 1 => clear_value lv); on_goal 2 => subst lv)
    | (extract_lets +onlyGivenNames lv; clear_value lv)
    | extract_lets +onlyGivenNames lv
    | with_reducible refine Keep.ite ?_ ?_
    | split

theorem Dev.writeCellarReg_keep {ps : List Part} {e d : Dev} (h : Keep ps e d) (hevents : .events ∈ ps) (hcellar : .cellar ∈ ps) (a1 a2) : Keep ps e (Dev.writeCellarReg d a1 a2) := by
  unfold Dev.writeCellarReg
  repeat' first
    | with_reducible assumption
    | (intro c hc; with_reducible exact hc)
    | (intro c hc; with_reducible exact Cellar.seal_wf hc _ _ _ _)
    | (intro c hc; with_reducible exact Cellar.mergeRaw_wf hc _ _ _)
    | (intro c hc; (try dsimp only [Cellar.count, Cellar.setRegion, Cellar.setKey, Cellar.loadKey, Cellar.decideWb]); with_reducible exact hc)
    | (intro c hc; (try dsimp only [Cellar.count, Cellar.setRegion, Cellar.setKey, Cellar.loadKey, Cellar.decideWb]); with_reducible exact Cellar.seal_wf hc _ _ _ _)
    | (intro c hc; (try dsimp only [Cellar.count, Cellar.setRegion, Cellar.setKey, Cellar.loadKey, Cellar.decideWb]); with_reducible exact Cellar.mergeRaw_wf hc _ _ _)
    | (intro c hc; (try dsimp only [Cellar.count, Cellar.setRegion, Cellar.setKey, Cellar.loadKey, Cellar.decideWb]); with_reducible exact Cellar.putMeta_wf hc _ _)
    | (intro c hc; (try dsimp only [Cellar.count, Cellar.setRegion, Cellar.setKey, Cellar.loadKey, Cellar.decideWb]); with_reducible exact Cellar.putRaw_wf hc _ _)
    | (intro c hc; (try dsimp only [Cellar.count, Cellar.setRegion, Cellar.setKey, Cellar.loadKey, Cellar.decideWb]); with_reducible exact Memory.wf_write _ _ _ hc)
    | (intro c hc; (try dsimp only [Cellar.count, Cellar.setRegion, Cellar.setKey, Cellar.loadKey, Cellar.decideWb]); with_reducible exact Memory.wf_writeN _ _ _ hc)
    | (intro c hc; (try dsimp only [Cellar.count, Cellar.setRegion, Cellar.setKey, Cellar.loadKey, Cellar.decideWb]); with_reducible exact Memory.wf_clearRange _ _ _ hc)
    | (intro c hc; (try dsimp only [Cellar.count, Cellar.setRegion, Cellar.setKey, Cellar.loadKey, Cellar.decideWb]); with_reducible exact Memory.wf_spans _ _ hc)
    | (intro c hc; (repeat' split) <;> with_reducible exact hc)
    | (intro c hc; dsimp only; split <;> exact hc)
    | (intro c hc; exact hc)
    | with_reducible refine Dev.modCellar_keep ?_ ‹_› _ ?_
    | with_reducible refine Dev.writeFs_keep ?_ ‹_› _ _
    | with_reducible refine Dev.writeQueue_keep ?_ ‹_› _ _
    | with_reducible refine Dev.writeRegion_keep ?_ ‹_› ‹_› _ _
    | (extract_lets +onlyGivenNames lv; (have hx : Keep ps e lv := ?_); (on_goal 1 => clear_value lv); on_goal 2 => subst lv)
    | (extract_lets +onlyGivenNames lv; clear_value lv)
    | extract_lets +onlyGivenNames lv
    | with_reducible refine Keep.ite ?_ ?_
    | split

theorem Dev.writeRelease_keep {ps : List Part} {e d : Dev} (h : Keep ps e d) (hfabric : .fabric ∈ ps) : Keep ps e (Dev.writeRelease d) := by
  unfold Dev.writeRelease
  repeat' first
    | with_reducible assumption
    | with_reducible refine Dev.modFabric_keep ?_ ‹_› _
    | with_reducible refine Dev.startRelease_keep ?_ ‹_› _
    | (extract_lets +onlyGivenNames lv; (have hx : Keep ps e lv := ?_); (on_goal 1 => clear_value lv); on_goal 2 => subst lv)
    | (extract_lets +onlyGivenNames lv; clear_value lv)
    | extract_lets +onlyGivenNames lv
    | with_reducible refine Keep.ite ?_ ?_
    | split

theorem Dev.writeFabricReg_keep {ps : List Part} {e d : Dev} (h : Keep ps e d) (hfabric : .fabric ∈ ps) (a1 a2) : Keep ps e (Dev.writeFabricReg d a1 a2) := by
  unfold Dev.writeFabricReg
  repeat' first
    | with_reducible assumption
    | with_reducible refine Dev.checkClock_keep ?_ ‹_›
    | with_reducible refine Dev.modFabric_keep ?_ ‹_› _
    | with_reducible refine Dev.writeRelease_keep ?_ ‹_›
    | (extract_lets +onlyGivenNames lv; (have hx : Keep ps e lv := ?_); (on_goal 1 => clear_value lv); on_goal 2 => subst lv)
    | (extract_lets +onlyGivenNames lv; clear_value lv)
    | extract_lets +onlyGivenNames lv
    | with_reducible refine Keep.ite ?_ ?_
    | split

theorem Dev.writeFlowReg_keep {ps : List Part} {e d : Dev} (h : Keep ps e d) (hmedia : .media ∈ ps) (a1 a2 a3) : Keep ps e (Dev.writeFlowReg d a1 a2 a3) := by
  unfold Dev.writeFlowReg
  repeat' first
    | with_reducible assumption
    | with_reducible refine Dev.modMedia_keep ?_ ‹_› _
    | with_reducible refine Dev.setFlow_keep ?_ ‹_› _ _
    | (extract_lets +onlyGivenNames lv; (have hx : Keep ps e lv := ?_); (on_goal 1 => clear_value lv); on_goal 2 => subst lv)
    | (extract_lets +onlyGivenNames lv; clear_value lv)
    | extract_lets +onlyGivenNames lv
    | with_reducible refine Keep.ite ?_ ?_
    | split

theorem Dev.writeRing_keep {ps : List Part} {e d : Dev} (h : Keep ps e d) (hnet : .net ∈ ps) (a1 a2) : Keep ps e (Dev.writeRing d a1 a2) := by
  unfold Dev.writeRing
  repeat' first
    | with_reducible assumption
    | with_reducible refine Dev.modNet_keep ?_ ‹_› _
    | (extract_lets +onlyGivenNames lv; (have hx : Keep ps e lv := ?_); (on_goal 1 => clear_value lv); on_goal 2 => subst lv)
    | (extract_lets +onlyGivenNames lv; clear_value lv)
    | extract_lets +onlyGivenNames lv
    | with_reducible refine Keep.ite ?_ ?_
    | split

theorem Dev.writeHubReg_keep {ps : List Part} {e d : Dev} (h : Keep ps e d) (hnet : .net ∈ ps) (hhub : .hub ∈ ps) (a1 a2) : Keep ps e (Dev.writeHubReg d a1 a2) := by
  unfold Dev.writeHubReg
  repeat' first
    | with_reducible assumption
    | with_reducible refine Dev.clearFigures_keep ?_ ‹_› _
    | with_reducible refine Dev.putHub_keep ?_ ‹_› _
    | with_reducible refine Dev.writeRing_keep ?_ ‹_› _ _
    | (extract_lets +onlyGivenNames lv; (have hx : Keep ps e lv := ?_); (on_goal 1 => clear_value lv); on_goal 2 => subst lv)
    | (extract_lets +onlyGivenNames lv; clear_value lv)
    | extract_lets +onlyGivenNames lv
    | with_reducible refine Keep.ite ?_ ?_
    | split

theorem Dev.writeLoaderReg_keep {ps : List Part} {e d : Dev} (h : Keep ps e d) (hloader : .loader ∈ ps) (a1 a2) : Keep ps e (Dev.writeLoaderReg d a1 a2) := by
  unfold Dev.writeLoaderReg
  repeat' first
    | with_reducible assumption
    | with_reducible refine Dev.modLoader_keep ?_ ‹_› _
    | (extract_lets +onlyGivenNames lv; (have hx : Keep ps e lv := ?_); (on_goal 1 => clear_value lv); on_goal 2 => subst lv)
    | (extract_lets +onlyGivenNames lv; clear_value lv)
    | extract_lets +onlyGivenNames lv
    | with_reducible refine Keep.ite ?_ ?_
    | split

theorem Dev.writeRoomReg_keep {ps : List Part} {e d : Dev} (h : Keep ps e d) (hrooms : .rooms ∈ ps) (a1 a2 a3) : Keep ps e (Dev.writeRoomReg d a1 a2 a3) := by
  unfold Dev.writeRoomReg
  repeat' first
    | with_reducible assumption
    | with_reducible refine Dev.modRoom_keep ?_ ‹_› _ _
    | (extract_lets +onlyGivenNames lv; (have hx : Keep ps e lv := ?_); (on_goal 1 => clear_value lv); on_goal 2 => subst lv)
    | (extract_lets +onlyGivenNames lv; clear_value lv)
    | extract_lets +onlyGivenNames lv
    | with_reducible refine Keep.ite ?_ ?_
    | split

theorem Dev.xdWrite_keep {ps : List Part} {e d : Dev} (h : Keep ps e d) (hout : .out ∈ ps) (hevents : .events ∈ ps) (hrooms : .rooms ∈ ps) (hnet : .net ∈ ps) (hlink : .link ∈ ps) (hhub : .hub ∈ ps) (a1 a2 a3) : Keep ps e (Dev.xdWrite d a1 a2 a3) := by
  unfold Dev.xdWrite
  repeat' first
    | with_reducible assumption
    | with_reducible refine Dev.carryReg_keep ?_ ‹_› _ _ _ _
    | with_reducible refine Dev.modPair_keep ?_ ‹_› _ _ _
    | with_reducible refine Dev.writeLaneReg_keep ?_ ‹_› ‹_› ‹_› _ _ _
    | with_reducible refine Dev.writeRoomReg_keep ?_ ‹_› _ _ _
    | with_reducible refine Dev.xdFail_keep ?_ ‹_› _ _
    | (extract_lets +onlyGivenNames lv; (have hx : Keep ps e lv := ?_); (on_goal 1 => clear_value lv); on_goal 2 => subst lv)
    | (extract_lets +onlyGivenNames lv; clear_value lv)
    | extract_lets +onlyGivenNames lv
    | with_reducible refine Keep.ite ?_ ?_
    | split

theorem Dev.writePair_keep {ps : List Part} {e d : Dev} (h : Keep ps e d) (hout : .out ∈ ps) (hevents : .events ∈ ps) (hrooms : .rooms ∈ ps) (hnet : .net ∈ ps) (hlink : .link ∈ ps) (hhub : .hub ∈ ps) (a1 a2 a3 a4) : Keep ps e (Dev.writePair d a1 a2 a3 a4) := by
  unfold Dev.writePair
  repeat' first
    | with_reducible assumption
    | with_reducible refine Dev.modPair_keep ?_ ‹_› _ _ _
    | with_reducible refine Dev.xdWrite_keep ?_ ‹_› ‹_› ‹_› ‹_› ‹_› ‹_› _ _ _
    | (extract_lets +onlyGivenNames lv; (have hx : Keep ps e lv := ?_); (on_goal 1 => clear_value lv); on_goal 2 => subst lv)
    | (extract_lets +onlyGivenNames lv; clear_value lv)
    | extract_lets +onlyGivenNames lv
    | with_reducible refine Keep.ite ?_ ?_
    | split

theorem Dev.writeCeiling_keep {ps : List Part} {e d : Dev} (h : Keep ps e d) (hpower : .power ∈ ps) (a1) : Keep ps e (Dev.writeCeiling d a1) := by
  unfold Dev.writeCeiling
  repeat' first
    | with_reducible assumption
    | with_reducible refine Dev.countPower_keep ?_ ‹_› _
    | with_reducible refine Dev.modPower_keep ?_ ‹_› _
    | (extract_lets +onlyGivenNames lv; (have hx : Keep ps e lv := ?_); (on_goal 1 => clear_value lv); on_goal 2 => subst lv)
    | (extract_lets +onlyGivenNames lv; clear_value lv)
    | extract_lets +onlyGivenNames lv
    | with_reducible refine Keep.ite ?_ ?_
    | split

theorem Dev.writeRoomPg_keep {ps : List Part} {e d : Dev} (h : Keep ps e d) (hrooms : .rooms ∈ ps) (hpower : .power ∈ ps) (a1) : Keep ps e (Dev.writeRoomPg d a1) := by
  unfold Dev.writeRoomPg
  repeat' first
    | with_reducible assumption
    | with_reducible refine Dev.each_keep ?_ (fun x y hx => ?_)
    | with_reducible refine Dev.modPower_keep ?_ ‹_› _
    | with_reducible refine Dev.modRoom_keep ?_ ‹_› _ _
    | (extract_lets +onlyGivenNames lv; (have hx : Keep ps e lv := ?_); (on_goal 1 => clear_value lv); on_goal 2 => subst lv)
    | (extract_lets +onlyGivenNames lv; clear_value lv)
    | extract_lets +onlyGivenNames lv
    | with_reducible refine Keep.ite ?_ ?_
    | split

theorem Dev.writePowerReg_keep {ps : List Part} {e d : Dev} (h : Keep ps e d) (hfree : .free ∈ ps) (hout : .out ∈ ps) (hevents : .events ∈ ps) (hrooms : .rooms ∈ ps) (hfuncs : .funcs ∈ ps) (hnet : .net ∈ ps) (hcellar : .cellar ∈ ps) (hmedia : .media ∈ ps) (htime : .time ∈ ps) (hlink : .link ∈ ps) (hfabric : .fabric ∈ ps) (hloader : .loader ∈ ps) (hrings : .rings ∈ ps) (hcores : .cores ∈ ps) (hsched : .sched ∈ ps) (hacq : .acq ∈ ps) (hfuse : .fuse ∈ ps) (hstrong : .strong ∈ ps) (hhub : .hub ∈ ps) (hpower : .power ∈ ps) (a1 a2) : Keep ps e (Dev.writePowerReg d a1 a2) := by
  unfold Dev.writePowerReg
  repeat' first
    | with_reducible assumption
    | with_reducible refine Dev.askWarm_keep ?_ ‹_› ‹_› ‹_› ‹_› ‹_› ‹_› ‹_› ‹_› ‹_› ‹_› ‹_› ‹_› ‹_› ‹_› ‹_› ‹_› ‹_› ‹_› ‹_› ‹_›
    | with_reducible refine Dev.bootgo_keep ?_ ‹_› ‹_› ‹_› ‹_›
    | with_reducible refine Dev.modPower_keep ?_ ‹_› _
    | with_reducible refine Dev.writeCeiling_keep ?_ ‹_› _
    | with_reducible refine Dev.writeRoomPg_keep ?_ ‹_› ‹_› _
    | (extract_lets +onlyGivenNames lv; (have hx : Keep ps e lv := ?_); (on_goal 1 => clear_value lv); on_goal 2 => subst lv)
    | (extract_lets +onlyGivenNames lv; clear_value lv)
    | extract_lets +onlyGivenNames lv
    | with_reducible refine Keep.ite ?_ ?_
    | split

theorem Dev.writePairCfg_keep {ps : List Part} {e d : Dev} (h : Keep ps e d) (hout : .out ∈ ps) (hevents : .events ∈ ps) (hlink : .link ∈ ps) (hrings : .rings ∈ ps) (hsched : .sched ∈ ps) (a1 a2 a3) : Keep ps e (Dev.writePairCfg d a1 a2 a3) := by
  unfold Dev.writePairCfg
  repeat' first
    | with_reducible assumption
    | (intro hr; with_reducible exact hr)
    | exact RingKept.dropped _ rfl
    | exact RingKept.mapped _ (fun y => by split <;> rfl) (Ring.reapply_window _)
    | exact RingKept.mapped _ (fun y => by split <;> rfl) rfl
    | (refine RingKept.mapped _ ?_ rfl; intro y; rfl)
    | (intro hr; rw [Dev.reach_ring] at hr; exact hr)
    | (intro hr; (try split) <;> exact hr)
    | (intro hr; dsimp only; split <;> exact hr)
    | with_reducible refine Dev.raise_keep ?_ ‹_› _ _
    | with_reducible refine Dev.recoverPair_keep ?_ ‹_› ‹_› ‹_› ‹_› ‹_› _
    | with_reducible refine Dev.reheld_keep ?_ ‹_› ‹_› _
    | with_reducible refine Dev.setRing_keep ?_ ‹_› _ _ ?_
    | (extract_lets +onlyGivenNames lv; (have hx : Keep ps e lv := ?_); (on_goal 1 => clear_value lv); on_goal 2 => subst lv)
    | (extract_lets +onlyGivenNames lv; (have hfn : ∀ y, Keep ps e y → Keep ps e (lv y) := ?_); (on_goal 1 => clear_value lv); on_goal 2 => (intro y hy; subst lv; beta_reduce))
    | (extract_lets +onlyGivenNames lv; (have hfn : ∀ y z, Keep ps e y → Keep ps e (lv y z) := ?_); (on_goal 1 => clear_value lv); on_goal 2 => (intro y z hy; subst lv; beta_reduce))
    | (extract_lets +onlyGivenNames lv; (have hfn : ∀ y, Keep ps e (Prod.fst y) → Keep ps e (lv y) := ?_); (on_goal 1 => clear_value lv); on_goal 2 => (intro y hy; subst lv; beta_reduce))
    | (extract_lets +onlyGivenNames lv; (have hfn : ∀ y, Keep ps e (lv y) := ?_); (on_goal 1 => clear_value lv); on_goal 2 => (intro y; subst lv; beta_reduce))
    | (extract_lets +onlyGivenNames lv; (have _ty : Ring := lv); subst lv; clear _ty)
    | (extract_lets +onlyGivenNames lv; (have _ty : Rings := lv); subst lv; clear _ty)
    | (extract_lets +onlyGivenNames lv; (have _ty : Strong := lv); subst lv; clear _ty)
    | (extract_lets +onlyGivenNames lv; (have _ty : RetEntry → RetEntry := lv); subst lv; clear _ty)
    | (extract_lets +onlyGivenNames lv; clear_value lv)
    | extract_lets +onlyGivenNames lv
    | with_reducible exact hfn _
    | with_reducible exact hfn _ _
    | with_reducible refine hfn _ ?_
    | with_reducible refine hfn _ _ ?_
    | with_reducible refine hfn _ _ _ ?_
    | with_reducible refine Keep.ite ?_ ?_
    | split

theorem Dev.writePairReg_keep {ps : List Part} {e d : Dev} (h : Keep ps e d) (hout : .out ∈ ps) (hevents : .events ∈ ps) (hlink : .link ∈ ps) (hrings : .rings ∈ ps) (hsched : .sched ∈ ps) (hhub : .hub ∈ ps) (a1 a2 a3 a4 a5) : Keep ps e (Dev.writePairReg d a1 a2 a3 a4 a5) := by
  unfold Dev.writePairReg
  repeat' first
    | with_reducible assumption
    | (intro hr; with_reducible exact hr)
    | exact RingKept.dropped _ rfl
    | exact RingKept.mapped _ (fun y => by split <;> rfl) (Ring.reapply_window _)
    | exact RingKept.mapped _ (fun y => by split <;> rfl) rfl
    | (refine RingKept.mapped _ ?_ rfl; intro y; rfl)
    | (intro hr; rw [Dev.reach_ring] at hr; exact hr)
    | (intro hr; (try split) <;> exact hr)
    | (intro hr; dsimp only; split <;> exact hr)
    | with_reducible refine Dev.attach_keep ?_ ‹_› ‹_› ‹_› ‹_› ‹_› ‹_› _ _
    | with_reducible refine Dev.modRing_keep ?_ ‹_› _ _ ?_
    | with_reducible refine Dev.writePairCfg_keep ?_ ‹_› ‹_› ‹_› ‹_› ‹_› _ _ _
    | (extract_lets +onlyGivenNames lv; (have hx : Keep ps e lv := ?_); (on_goal 1 => clear_value lv); on_goal 2 => subst lv)
    | (extract_lets +onlyGivenNames lv; clear_value lv)
    | extract_lets +onlyGivenNames lv
    | with_reducible refine Keep.ite ?_ ?_
    | split

theorem Dev.writeRingsReg_keep {ps : List Part} {e d : Dev} (h : Keep ps e d) (hout : .out ∈ ps) (hevents : .events ∈ ps) (hlink : .link ∈ ps) (hrings : .rings ∈ ps) (hsched : .sched ∈ ps) (hhub : .hub ∈ ps) (a1 a2 a3 a4) : Keep ps e (Dev.writeRingsReg d a1 a2 a3 a4) := by
  unfold Dev.writeRingsReg
  repeat' first
    | with_reducible assumption
    | (intro hx; exact (show Rings.windowsOk _ from hx))
    | with_reducible refine Dev.putRings_keep ?_ ‹_› _ ?_
    | with_reducible refine Dev.writePairReg_keep ?_ ‹_› ‹_› ‹_› ‹_› ‹_› ‹_› _ _ _ _ _
    | (extract_lets +onlyGivenNames lv; (have hx : Keep ps e lv := ?_); (on_goal 1 => clear_value lv); on_goal 2 => subst lv)
    | (extract_lets +onlyGivenNames lv; (have hfn : ∀ y, Keep ps e y → Keep ps e (lv y) := ?_); (on_goal 1 => clear_value lv); on_goal 2 => (intro y hy; subst lv; beta_reduce))
    | (extract_lets +onlyGivenNames lv; (have hfn : ∀ y z, Keep ps e y → Keep ps e (lv y z) := ?_); (on_goal 1 => clear_value lv); on_goal 2 => (intro y z hy; subst lv; beta_reduce))
    | (extract_lets +onlyGivenNames lv; (have hfn : ∀ y, Keep ps e (Prod.fst y) → Keep ps e (lv y) := ?_); (on_goal 1 => clear_value lv); on_goal 2 => (intro y hy; subst lv; beta_reduce))
    | (extract_lets +onlyGivenNames lv; (have hfn : ∀ y, Keep ps e (lv y) := ?_); (on_goal 1 => clear_value lv); on_goal 2 => (intro y; subst lv; beta_reduce))
    | (extract_lets +onlyGivenNames lv; (have _ty : Ring := lv); subst lv; clear _ty)
    | (extract_lets +onlyGivenNames lv; (have _ty : Rings := lv); subst lv; clear _ty)
    | (extract_lets +onlyGivenNames lv; (have _ty : Strong := lv); subst lv; clear _ty)
    | (extract_lets +onlyGivenNames lv; (have _ty : RetEntry → RetEntry := lv); subst lv; clear _ty)
    | (extract_lets +onlyGivenNames lv; clear_value lv)
    | extract_lets +onlyGivenNames lv
    | with_reducible exact hfn _
    | with_reducible exact hfn _ _
    | with_reducible refine hfn _ ?_
    | with_reducible refine hfn _ _ ?_
    | with_reducible refine hfn _ _ _ ?_
    | with_reducible refine Keep.ite ?_ ?_
    | split

theorem Dev.writeRoute_keep {ps : List Part} {e d : Dev} (h : Keep ps e d) (hevents : .events ∈ ps) (hrings : .rings ∈ ps) (hcores : .cores ∈ ps) (hsched : .sched ∈ ps) (a1 a2 a3) : Keep ps e (Dev.writeRoute d a1 a2 a3) := by
  unfold Dev.writeRoute
  repeat' first
    | with_reducible assumption
    | with_reducible refine Dev.modSched_keep ?_ ‹_› _
    | with_reducible refine Dev.reassert_keep ?_ ‹_› ‹_› ‹_› ‹_›
    | (extract_lets +onlyGivenNames lv; (have hx : Keep ps e lv := ?_); (on_goal 1 => clear_value lv); on_goal 2 => subst lv)
    | (extract_lets +onlyGivenNames lv; clear_value lv)
    | extract_lets +onlyGivenNames lv
    | with_reducible refine Keep.ite ?_ ?_
    | split

theorem Dev.writeTimerNext_keep {ps : List Part} {e d : Dev} (h : Keep ps e d) (hsched : .sched ∈ ps) (a1 a2 a3) : Keep ps e (Dev.writeTimerNext d a1 a2 a3) := by
  unfold Dev.writeTimerNext
  repeat' first
    | with_reducible assumption
    | with_reducible refine Dev.modTimer_keep ?_ ‹_› _ _
    | (extract_lets +onlyGivenNames lv; (have hx : Keep ps e lv := ?_); (on_goal 1 => clear_value lv); on_goal 2 => subst lv)
    | (extract_lets +onlyGivenNames lv; clear_value lv)
    | extract_lets +onlyGivenNames lv
    | with_reducible refine Keep.ite ?_ ?_
    | split

theorem Dev.writeSchedReg_keep {ps : List Part} {e d : Dev} (h : Keep ps e d) (hevents : .events ∈ ps) (hrings : .rings ∈ ps) (hcores : .cores ∈ ps) (hsched : .sched ∈ ps) (a1 a2 a3) : Keep ps e (Dev.writeSchedReg d a1 a2 a3) := by
  unfold Dev.writeSchedReg
  repeat' first
    | with_reducible assumption
    | with_reducible refine Dev.modSched_keep ?_ ‹_› _
    | with_reducible refine Dev.modTimer_keep ?_ ‹_› _ _
    | with_reducible refine Dev.writeRoute_keep ?_ ‹_› ‹_› ‹_› ‹_› _ _ _
    | with_reducible refine Dev.writeTimerNext_keep ?_ ‹_› _ _ _
    | (extract_lets +onlyGivenNames lv; (have hx : Keep ps e lv := ?_); (on_goal 1 => clear_value lv); on_goal 2 => subst lv)
    | (extract_lets +onlyGivenNames lv; clear_value lv)
    | extract_lets +onlyGivenNames lv
    | with_reducible refine Keep.ite ?_ ?_
    | split

theorem Dev.writeAttCtl_keep {ps : List Part} {e d : Dev} (h : Keep ps e d) (hstrong : .strong ∈ ps) (hhub : .hub ∈ ps) (a1) : Keep ps e (Dev.writeAttCtl d a1) := by
  unfold Dev.writeAttCtl
  repeat' first
    | with_reducible assumption
    | with_reducible exact StrongKept.same rfl rfl rfl rfl rfl rfl rfl rfl rfl
    | exact StrongKept.of (fun h => ⟨h.1, h.2.1, Memory.wf_writeN _ _ _ rfl⟩) rfl rfl rfl rfl rfl rfl
    | exact StrongKept.of (fun h => ⟨h.1, Memory.wf_writeN _ _ _ h.2.1, h.2.2⟩) rfl rfl rfl rfl rfl rfl
    | with_reducible refine Dev.attSnapshot_keep ?_ ‹_›
    | with_reducible refine Dev.ignore_keep ?_ ‹_› _
    | with_reducible refine Dev.modStrong_keep ?_ ‹_› _ ?_
    | (extract_lets +onlyGivenNames lv; (have hx : Keep ps e lv := ?_); (on_goal 1 => clear_value lv); on_goal 2 => subst lv)
    | (extract_lets +onlyGivenNames lv; clear_value lv)
    | extract_lets +onlyGivenNames lv
    | with_reducible refine Keep.ite ?_ ?_
    | split

theorem Dev.writeCmdCtl_keep {ps : List Part} {e d : Dev} (h : Keep ps e d) (hfree : .free ∈ ps) (hevents : .events ∈ ps) (hstrong : .strong ∈ ps) (hhub : .hub ∈ ps) (a1) : Keep ps e (Dev.writeCmdCtl d a1) := by
  unfold Dev.writeCmdCtl
  repeat' first
    | with_reducible assumption
    | with_reducible exact StrongKept.same rfl rfl rfl rfl rfl rfl rfl rfl rfl
    | exact StrongKept.of (fun h => ⟨h.1, h.2.1, Memory.wf_writeN _ _ _ rfl⟩) rfl rfl rfl rfl rfl rfl
    | exact StrongKept.of (fun h => ⟨h.1, Memory.wf_writeN _ _ _ h.2.1, h.2.2⟩) rfl rfl rfl rfl rfl rfl
    | with_reducible refine Dev.cmdDone_keep ?_ ‹_› ‹_› ‹_› _
    | with_reducible refine Dev.ignore_keep ?_ ‹_› _
    | with_reducible refine Dev.modStrong_keep ?_ ‹_› _ ?_
    | (extract_lets +onlyGivenNames lv; (have hx : Keep ps e lv := ?_); (on_goal 1 => clear_value lv); on_goal 2 => subst lv)
    | (extract_lets +onlyGivenNames lv; clear_value lv)
    | extract_lets +onlyGivenNames lv
    | with_reducible refine Keep.ite ?_ ?_
    | split

theorem Dev.writeSramPwr_keep {ps : List Part} {e d : Dev} (h : Keep ps e d) (hstrong : .strong ∈ ps) (a1 a2) : Keep ps e (Dev.writeSramPwr d a1 a2) := by
  unfold Dev.writeSramPwr
  repeat' first
    | with_reducible assumption
    | (intro m hm; with_reducible exact hm)
    | (intro m hm; with_reducible exact Sram.put_wf hm _ _)
    | (intro m hm; with_reducible exact Memory.wf_clearRange _ _ _ hm)
    | (intro m hm; with_reducible exact Memory.wf_writeN _ _ _ hm)
    | with_reducible refine Dev.each_keep ?_ (fun x y hx => ?_)
    | with_reducible refine Dev.modSram_keep ?_ ‹_› _ ?_
    | (extract_lets +onlyGivenNames lv; (have hx : Keep ps e lv := ?_); (on_goal 1 => clear_value lv); on_goal 2 => subst lv)
    | (extract_lets +onlyGivenNames lv; clear_value lv)
    | extract_lets +onlyGivenNames lv
    | with_reducible refine Keep.ite ?_ ?_
    | split

theorem Dev.writeStrongReg_keep {ps : List Part} {e d : Dev} (h : Keep ps e d) (hfree : .free ∈ ps) (hevents : .events ∈ ps) (hstrong : .strong ∈ ps) (hhub : .hub ∈ ps) (a1 a2) : Keep ps e (Dev.writeStrongReg d a1 a2) := by
  unfold Dev.writeStrongReg
  repeat' first
    | with_reducible assumption
    | (intro m hm; with_reducible exact hm)
    | (intro m hm; with_reducible exact Sram.put_wf hm _ _)
    | (intro m hm; with_reducible exact Memory.wf_clearRange _ _ _ hm)
    | (intro m hm; with_reducible exact Memory.wf_writeN _ _ _ hm)
    | with_reducible exact StrongKept.same rfl rfl rfl rfl rfl rfl rfl rfl rfl
    | exact StrongKept.of (fun h => ⟨h.1, h.2.1, Memory.wf_writeN _ _ _ rfl⟩) rfl rfl rfl rfl rfl rfl
    | exact StrongKept.of (fun h => ⟨h.1, Memory.wf_writeN _ _ _ h.2.1, h.2.2⟩) rfl rfl rfl rfl rfl rfl
    | with_reducible refine Dev.modSram_keep ?_ ‹_› _ ?_
    | with_reducible refine Dev.modStrong_keep ?_ ‹_› _ ?_
    | with_reducible refine Dev.writeAttCtl_keep ?_ ‹_› ‹_› _
    | with_reducible refine Dev.writeCmdCtl_keep ?_ ‹_› ‹_› ‹_› ‹_› _
    | with_reducible refine Dev.writeSramPwr_keep ?_ ‹_› _ _
    | (extract_lets +onlyGivenNames lv; (have hx : Keep ps e lv := ?_); (on_goal 1 => clear_value lv); on_goal 2 => subst lv)
    | (extract_lets +onlyGivenNames lv; clear_value lv)
    | extract_lets +onlyGivenNames lv
    | with_reducible refine Keep.ite ?_ ?_
    | split

theorem Dev.writeIncr_keep {ps : List Part} {e d : Dev} (h : Keep ps e d) (hevents : .events ∈ ps) (htime : .time ∈ ps) (a1) : Keep ps e (Dev.writeIncr d a1) := by
  unfold Dev.writeIncr
  repeat' first
    | with_reducible assumption
    | with_reducible refine Dev.setIncr_keep ?_ ‹_› ‹_› _
    | (extract_lets +onlyGivenNames lv; (have hx : Keep ps e lv := ?_); (on_goal 1 => clear_value lv); on_goal 2 => subst lv)
    | (extract_lets +onlyGivenNames lv; clear_value lv)
    | extract_lets +onlyGivenNames lv
    | with_reducible refine Keep.ite ?_ ?_
    | split

theorem Dev.writePeriod_keep {ps : List Part} {e d : Dev} (h : Keep ps e d) (htime : .time ∈ ps) (a1) : Keep ps e (Dev.writePeriod d a1) := by
  unfold Dev.writePeriod
  repeat' first
    | with_reducible assumption
    | with_reducible refine Dev.modTime_keep ?_ ‹_› _
    | (extract_lets +onlyGivenNames lv; (have hx : Keep ps e lv := ?_); (on_goal 1 => clear_value lv); on_goal 2 => subst lv)
    | (extract_lets +onlyGivenNames lv; clear_value lv)
    | extract_lets +onlyGivenNames lv
    | with_reducible refine Keep.ite ?_ ?_
    | split

theorem Dev.writeTimeCfg_keep {ps : List Part} {e d : Dev} (h : Keep ps e d) (hevents : .events ∈ ps) (htime : .time ∈ ps) (hhub : .hub ∈ ps) (a1) : Keep ps e (Dev.writeTimeCfg d a1) := by
  unfold Dev.writeTimeCfg
  repeat' first
    | with_reducible assumption
    | with_reducible refine Dev.chooseMaster_keep ?_ ‹_› ‹_›
    | with_reducible refine Dev.freestart_keep ?_ ‹_› ‹_›
    | with_reducible refine Dev.holdover_keep ?_ ‹_› ‹_›
    | with_reducible refine Dev.modTime_keep ?_ ‹_› _
    | (extract_lets +onlyGivenNames lv; (have hx : Keep ps e lv := ?_); (on_goal 1 => clear_value lv); on_goal 2 => subst lv)
    | (extract_lets +onlyGivenNames lv; clear_value lv)
    | extract_lets +onlyGivenNames lv
    | with_reducible refine Keep.ite ?_ ?_
    | split

theorem Dev.writeTimeReg_keep {ps : List Part} {e d : Dev} (h : Keep ps e d) (hevents : .events ∈ ps) (htime : .time ∈ ps) (hhub : .hub ∈ ps) (a1 a2 a3) : Keep ps e (Dev.writeTimeReg d a1 a2 a3) := by
  unfold Dev.writeTimeReg
  repeat' first
    | with_reducible assumption
    | with_reducible refine Dev.chooseMaster_keep ?_ ‹_› ‹_›
    | with_reducible refine Dev.modTime_keep ?_ ‹_› _
    | with_reducible refine Dev.popTdc_keep ?_ ‹_› _
    | with_reducible refine Dev.writeIncr_keep ?_ ‹_› ‹_› _
    | with_reducible refine Dev.writePeriod_keep ?_ ‹_› _
    | with_reducible refine Dev.writeTimeCfg_keep ?_ ‹_› ‹_› ‹_› _
    | (extract_lets +onlyGivenNames lv; (have hx : Keep ps e lv := ?_); (on_goal 1 => clear_value lv); on_goal 2 => subst lv)
    | (extract_lets +onlyGivenNames lv; clear_value lv)
    | extract_lets +onlyGivenNames lv
    | with_reducible refine Keep.ite ?_ ?_
    | split

theorem Dev.writeBlock_keep {ps : List Part} {e d : Dev} (h : Keep ps e d) (hfree : .free ∈ ps) (hout : .out ∈ ps) (hevents : .events ∈ ps) (hrooms : .rooms ∈ ps) (hfuncs : .funcs ∈ ps) (hnet : .net ∈ ps) (hcellar : .cellar ∈ ps) (hmedia : .media ∈ ps) (htime : .time ∈ ps) (hlink : .link ∈ ps) (hfabric : .fabric ∈ ps) (hloader : .loader ∈ ps) (hrings : .rings ∈ ps) (hcores : .cores ∈ ps) (hsched : .sched ∈ ps) (hacq : .acq ∈ ps) (hfuse : .fuse ∈ ps) (hstrong : .strong ∈ ps) (hhub : .hub ∈ ps) (hpower : .power ∈ ps) (a1 a2 a3 a4 a5) : Keep ps e (Dev.writeBlock d a1 a2 a3 a4 a5) := by
  unfold Dev.writeBlock
  repeat' first
    | with_reducible assumption
    | with_reducible refine Dev.writeAcqReg_keep ?_ ‹_› ‹_› ‹_› ‹_› ‹_› ‹_› _ _
    | with_reducible refine Dev.writeCcoreReg_keep ?_ ‹_› ‹_› ‹_› ‹_› ‹_› ‹_› ‹_› _ _
    | with_reducible refine Dev.writeCellarReg_keep ?_ ‹_› ‹_› _ _
    | with_reducible refine Dev.writeEthPort_keep ?_ ‹_› ‹_› ‹_› ‹_› ‹_› ‹_› _ _
    | with_reducible refine Dev.writeFabricReg_keep ?_ ‹_› _ _
    | with_reducible refine Dev.writeFlowReg_keep ?_ ‹_› _ _ _
    | with_reducible refine Dev.writeFuseReg_keep ?_ ‹_› ‹_› ‹_› ‹_› ‹_› ‹_› ‹_› ‹_› _ _
    | with_reducible refine Dev.writeHubReg_keep ?_ ‹_› ‹_› _ _
    | with_reducible refine Dev.writeLinkReg_keep ?_ ‹_› ‹_› ‹_› _ _
    | with_reducible refine Dev.writeLoaderReg_keep ?_ ‹_› _ _
    | with_reducible refine Dev.writePair_keep ?_ ‹_› ‹_› ‹_› ‹_› ‹_› ‹_› _ _ _ _
    | with_reducible refine Dev.writePowerReg_keep ?_ ‹_› ‹_› ‹_› ‹_› ‹_› ‹_› ‹_› ‹_› ‹_› ‹_› ‹_› ‹_› ‹_› ‹_› ‹_› ‹_› ‹_› ‹_› ‹_› ‹_› _ _
    | with_reducible refine Dev.writeRingsReg_keep ?_ ‹_› ‹_› ‹_› ‹_› ‹_› ‹_› _ _ _ _
    | with_reducible refine Dev.writeSchedReg_keep ?_ ‹_› ‹_› ‹_› ‹_› _ _ _
    | with_reducible refine Dev.writeSdiEngine_keep ?_ ‹_› ‹_› ‹_› ‹_› _ _
    | with_reducible refine Dev.writeStrongReg_keep ?_ ‹_› ‹_› ‹_› ‹_› _ _
    | with_reducible refine Dev.writeTimeReg_keep ?_ ‹_› ‹_› ‹_› _ _ _
    | (extract_lets +onlyGivenNames lv; (have hx : Keep ps e lv := ?_); (on_goal 1 => clear_value lv); on_goal 2 => subst lv)
    | (extract_lets +onlyGivenNames lv; clear_value lv)
    | extract_lets +onlyGivenNames lv
    | with_reducible refine Keep.ite ?_ ?_
    | split

theorem Dev.writeAt_keep {ps : List Part} {e d : Dev} (h : Keep ps e d) (hfree : .free ∈ ps) (hout : .out ∈ ps) (hevents : .events ∈ ps) (hrooms : .rooms ∈ ps) (hfuncs : .funcs ∈ ps) (hnet : .net ∈ ps) (hcellar : .cellar ∈ ps) (hmedia : .media ∈ ps) (htime : .time ∈ ps) (hlink : .link ∈ ps) (hfabric : .fabric ∈ ps) (hloader : .loader ∈ ps) (hrings : .rings ∈ ps) (hcores : .cores ∈ ps) (hsched : .sched ∈ ps) (hacq : .acq ∈ ps) (hfuse : .fuse ∈ ps) (hstrong : .strong ∈ ps) (hhub : .hub ∈ ps) (hpower : .power ∈ ps) (a1 a2 a3 a4) : Keep ps e (Dev.writeAt d a1 a2 a3 a4) := by
  unfold Dev.writeAt
  repeat' first
    | with_reducible assumption
    | with_reducible refine Dev.latchWrite_keep ?_ ‹_› (fun x y hx => ?_)
    | with_reducible refine Dev.writeBlock_keep ?_ ‹_› ‹_› ‹_› ‹_› ‹_› ‹_› ‹_› ‹_› ‹_› ‹_› ‹_› ‹_› ‹_› ‹_› ‹_› ‹_› ‹_› ‹_› ‹_› ‹_› _ _ _ _ _
    | (extract_lets +onlyGivenNames lv; (have hx : Keep ps e lv := ?_); (on_goal 1 => clear_value lv); on_goal 2 => subst lv)
    | (extract_lets +onlyGivenNames lv; clear_value lv)
    | extract_lets +onlyGivenNames lv
    | with_reducible refine Keep.ite ?_ ?_
    | split

theorem Dev.writeCqCi_keep {ps : List Part} {e d : Dev} (h : Keep ps e d) (hevents : .events ∈ ps) (hrings : .rings ∈ ps) (a1 a2) : Keep ps e (Dev.writeCqCi d a1 a2) := by
  unfold Dev.writeCqCi
  repeat' first
    | with_reducible assumption
    | (intro hr; with_reducible exact hr)
    | exact RingKept.dropped _ rfl
    | exact RingKept.mapped _ (fun y => by split <;> rfl) (Ring.reapply_window _)
    | exact RingKept.mapped _ (fun y => by split <;> rfl) rfl
    | (refine RingKept.mapped _ ?_ rfl; intro y; rfl)
    | (intro hr; rw [Dev.reach_ring] at hr; exact hr)
    | (intro hr; (try split) <;> exact hr)
    | (intro hr; dsimp only; split <;> exact hr)
    | with_reducible refine Dev.reheld_keep ?_ ‹_› ‹_› _
    | with_reducible refine Dev.setRing_keep ?_ ‹_› _ _ ?_
    | (extract_lets +onlyGivenNames lv; (have hx : Keep ps e lv := ?_); (on_goal 1 => clear_value lv); on_goal 2 => subst lv)
    | (extract_lets +onlyGivenNames lv; clear_value lv)
    | extract_lets +onlyGivenNames lv
    | with_reducible refine Keep.ite ?_ ?_
    | split

theorem Dev.writeEvMask_keep {ps : List Part} {e d : Dev} (h : Keep ps e d) (hevents : .events ∈ ps) (hrings : .rings ∈ ps) (hcores : .cores ∈ ps) (hsched : .sched ∈ ps) (a1 a2 a3) : Keep ps e (Dev.writeEvMask d a1 a2 a3) := by
  unfold Dev.writeEvMask
  repeat' first
    | with_reducible assumption
    | with_reducible refine Dev.each_keep ?_ (fun x y hx => ?_)
    | with_reducible refine Dev.writeRoute_keep ?_ ‹_› ‹_› ‹_› ‹_› _ _ _
    | (extract_lets +onlyGivenNames lv; (have hx : Keep ps e lv := ?_); (on_goal 1 => clear_value lv); on_goal 2 => subst lv)
    | (extract_lets +onlyGivenNames lv; clear_value lv)
    | extract_lets +onlyGivenNames lv
    | with_reducible refine Keep.ite ?_ ?_
    | split

theorem Dev.writeSqPi_keep {ps : List Part} {e d : Dev} (h : Keep ps e d) (hrings : .rings ∈ ps) (a1 a2) : Keep ps e (Dev.writeSqPi d a1 a2) := by
  unfold Dev.writeSqPi
  repeat' first
    | with_reducible assumption
    | (intro hr; with_reducible exact hr)
    | exact RingKept.dropped _ rfl
    | exact RingKept.mapped _ (fun y => by split <;> rfl) (Ring.reapply_window _)
    | exact RingKept.mapped _ (fun y => by split <;> rfl) rfl
    | (refine RingKept.mapped _ ?_ rfl; intro y; rfl)
    | (intro hr; rw [Dev.reach_ring] at hr; exact hr)
    | (intro hr; (try split) <;> exact hr)
    | (intro hr; dsimp only; split <;> exact hr)
    | with_reducible refine Dev.modRing_keep ?_ ‹_› _ _ ?_
    | (extract_lets +onlyGivenNames lv; (have hx : Keep ps e lv := ?_); (on_goal 1 => clear_value lv); on_goal 2 => subst lv)
    | (extract_lets +onlyGivenNames lv; clear_value lv)
    | extract_lets +onlyGivenNames lv
    | with_reducible refine Keep.ite ?_ ?_
    | split

theorem Dev.writeVf_keep {ps : List Part} {e d : Dev} (h : Keep ps e d) (hout : .out ∈ ps) (hevents : .events ∈ ps) (hrooms : .rooms ∈ ps) (hnet : .net ∈ ps) (hlink : .link ∈ ps) (hrings : .rings ∈ ps) (hcores : .cores ∈ ps) (hsched : .sched ∈ ps) (hhub : .hub ∈ ps) (a1 a2 a3 a4) : Keep ps e (Dev.writeVf d a1 a2 a3 a4) := by
  unfold Dev.writeVf
  repeat' first
    | with_reducible assumption
    | with_reducible refine Dev.writeCqCi_keep ?_ ‹_› ‹_› _ _
    | with_reducible refine Dev.writeEvMask_keep ?_ ‹_› ‹_› ‹_› ‹_› _ _ _
    | with_reducible refine Dev.writePair_keep ?_ ‹_› ‹_› ‹_› ‹_› ‹_› ‹_› _ _ _ _
    | with_reducible refine Dev.writePairReg_keep ?_ ‹_› ‹_› ‹_› ‹_› ‹_› ‹_› _ _ _ _ _
    | with_reducible refine Dev.writeSqPi_keep ?_ ‹_› _ _
    | (extract_lets +onlyGivenNames lv; (have hx : Keep ps e lv := ?_); (on_goal 1 => clear_value lv); on_goal 2 => subst lv)
    | (extract_lets +onlyGivenNames lv; clear_value lv)
    | extract_lets +onlyGivenNames lv
    | with_reducible refine Keep.ite ?_ ?_
    | split

theorem Dev.regWrite_keep {ps : List Part} {e d : Dev} (h : Keep ps e d) (hfree : .free ∈ ps) (hout : .out ∈ ps) (hevents : .events ∈ ps) (hrooms : .rooms ∈ ps) (hfuncs : .funcs ∈ ps) (hnet : .net ∈ ps) (hcellar : .cellar ∈ ps) (hmedia : .media ∈ ps) (htime : .time ∈ ps) (hlink : .link ∈ ps) (hfabric : .fabric ∈ ps) (hloader : .loader ∈ ps) (hrings : .rings ∈ ps) (hcores : .cores ∈ ps) (hsched : .sched ∈ ps) (hacq : .acq ∈ ps) (hfuse : .fuse ∈ ps) (hstrong : .strong ∈ ps) (hhub : .hub ∈ ps) (hpower : .power ∈ ps) (a1 a2 a3) : Keep ps e (Dev.regWrite d a1 a2 a3) := by
  unfold Dev.regWrite
  repeat' first
    | with_reducible assumption
    | with_reducible refine Dev.latchWrite_keep ?_ ‹_› (fun x y hx => ?_)
    | with_reducible refine Dev.refuseAccess_keep ?_ ‹_› _ _ _
    | with_reducible refine Dev.writeAt_keep ?_ ‹_› ‹_› ‹_› ‹_› ‹_› ‹_› ‹_› ‹_› ‹_› ‹_› ‹_› ‹_› ‹_› ‹_› ‹_› ‹_› ‹_› ‹_› ‹_› ‹_› _ _ _ _
    | with_reducible refine Dev.writeVf_keep ?_ ‹_› ‹_› ‹_› ‹_› ‹_› ‹_› ‹_› ‹_› ‹_› _ _ _ _
    | (extract_lets +onlyGivenNames lv; (have hx : Keep ps e lv := ?_); (on_goal 1 => clear_value lv); on_goal 2 => subst lv)
    | (extract_lets +onlyGivenNames lv; clear_value lv)
    | extract_lets +onlyGivenNames lv
    | with_reducible refine Keep.ite ?_ ?_
    | split

theorem Dev.releaseStage_keep {ps : List Part} {e d : Dev} (h : Keep ps e d) (hfree : .free ∈ ps) (hevents : .events ∈ ps) (hfabric : .fabric ∈ ps) : Keep ps e (Dev.releaseStage d) := by
  unfold Dev.releaseStage
  repeat' first
    | with_reducible assumption
    | with_reducible refine Dev.advanceStage_keep ?_ ‹_› ‹_› _
    | with_reducible refine Dev.checkClock_keep ?_ ‹_›
    | with_reducible refine Dev.each_keep ?_ (fun x y hx => ?_)
    | with_reducible refine Dev.modFabric_keep ?_ ‹_› _
    | with_reducible refine Dev.refreshPads_keep ?_ ‹_›
    | with_reducible refine Dev.withdrawStage_keep ?_ ‹_› ‹_› ‹_› _
    | (extract_lets +onlyGivenNames lv; (have hx : Keep ps e lv := ?_); (on_goal 1 => clear_value lv); on_goal 2 => subst lv)
    | (extract_lets +onlyGivenNames lv; clear_value lv)
    | extract_lets +onlyGivenNames lv
    | with_reducible refine Keep.ite ?_ ?_
    | split

theorem Dev.retireClearDone_keep {ps : List Part} {e d : Dev} (h : Keep ps e d) (hout : .out ∈ ps) (hevents : .events ∈ ps) (hrooms : .rooms ∈ ps) (hfuncs : .funcs ∈ ps) (hlink : .link ∈ ps) (hrings : .rings ∈ ps) (hsched : .sched ∈ ps) (hfuse : .fuse ∈ ps) (a0) : Keep ps e (Dev.retireClearDone a0 d) := by
  unfold Dev.retireClearDone
  repeat' first
    | with_reducible assumption
    | with_reducible refine Dev.clearRooms_keep ?_ ‹_› ‹_› _
    | with_reducible refine Dev.each_keep ?_ (fun x y hx => ?_)
    | with_reducible refine Dev.finish_keep ?_ ‹_› ‹_› ‹_› ‹_› ‹_› _ _ _ _ _ _
    | with_reducible refine Dev.modFunc_keep ?_ ‹_› _ _
    | (extract_lets +onlyGivenNames lv; (have hx : Keep ps e lv := ?_); (on_goal 1 => clear_value lv); on_goal 2 => subst lv)
    | (extract_lets +onlyGivenNames lv; clear_value lv)
    | extract_lets +onlyGivenNames lv
    | with_reducible refine Keep.ite ?_ ?_
    | split

theorem Dev.retryTimeout_keep {ps : List Part} {e d : Dev} (h : Keep ps e d) (hout : .out ∈ ps) (hevents : .events ∈ ps) (hlink : .link ∈ ps) (a0) : Keep ps e (Dev.retryTimeout a0 d) := by
  unfold Dev.retryTimeout
  repeat' first
    | with_reducible assumption
    | with_reducible refine Dev.resendFrames_keep ?_ ‹_› ‹_› ‹_› _
    | (extract_lets +onlyGivenNames lv; (have hx : Keep ps e lv := ?_); (on_goal 1 => clear_value lv); on_goal 2 => subst lv)
    | (extract_lets +onlyGivenNames lv; clear_value lv)
    | extract_lets +onlyGivenNames lv
    | with_reducible refine Keep.ite ?_ ?_
    | split

theorem Dev.rgnEnable_keep {ps : List Part} {e d : Dev} (h : Keep ps e d) (hevents : .events ∈ ps) (hcellar : .cellar ∈ ps) (a0 a1 a2) : Keep ps e (Dev.rgnEnable a0 a1 a2 d) := by
  unfold Dev.rgnEnable
  repeat' first
    | with_reducible assumption
    | with_reducible refine Dev.writeRegion_keep ?_ ‹_› ‹_› _ _
    | (extract_lets +onlyGivenNames lv; (have hx : Keep ps e lv := ?_); (on_goal 1 => clear_value lv); on_goal 2 => subst lv)
    | (extract_lets +onlyGivenNames lv; clear_value lv)
    | extract_lets +onlyGivenNames lv
    | with_reducible refine Keep.ite ?_ ?_
    | split

theorem Dev.ringHoldEnd_keep {ps : List Part} {e d : Dev} (h : Keep ps e d) (hnet : .net ∈ ps) (a0) : Keep ps e (Dev.ringHoldEnd a0 d) := by
  unfold Dev.ringHoldEnd
  repeat' first
    | with_reducible assumption
    | with_reducible refine Dev.modNet_keep ?_ ‹_› _
    | (extract_lets +onlyGivenNames lv; (have hx : Keep ps e lv := ?_); (on_goal 1 => clear_value lv); on_goal 2 => subst lv)
    | (extract_lets +onlyGivenNames lv; clear_value lv)
    | extract_lets +onlyGivenNames lv
    | with_reducible refine Keep.ite ?_ ?_
    | split

theorem Dev.roomWritten_keep {ps : List Part} {e d : Dev} (h : Keep ps e d) (hrooms : .rooms ∈ ps) (hfuncs : .funcs ∈ ps) (hrings : .rings ∈ ps) (a0) : Keep ps e (Dev.roomWritten a0 d) := by
  unfold Dev.roomWritten
  repeat' first
    | with_reducible assumption
    | with_reducible refine Dev.each_keep ?_ (fun x y hx => ?_)
    | with_reducible refine Dev.modFunc_keep ?_ ‹_› _ _
    | with_reducible refine Dev.modRoom_keep ?_ ‹_› _ _
    | with_reducible refine Dev.setReady_keep ?_ ‹_› _
    | (extract_lets +onlyGivenNames lv; (have hx : Keep ps e lv := ?_); (on_goal 1 => clear_value lv); on_goal 2 => subst lv)
    | (extract_lets +onlyGivenNames lv; clear_value lv)
    | extract_lets +onlyGivenNames lv
    | with_reducible refine Keep.ite ?_ ?_
    | split

theorem Dev.routeAt_keep {ps : List Part} {e d : Dev} (h : Keep ps e d) (hout : .out ∈ ps) (hevents : .events ∈ ps) (hlink : .link ∈ ps) (hrings : .rings ∈ ps) (hsched : .sched ∈ ps) (a0) : Keep ps e (Dev.routeAt a0 d) := by
  unfold Dev.routeAt
  repeat' first
    | with_reducible assumption
    | with_reducible refine Dev.finish_keep ?_ ‹_› ‹_› ‹_› ‹_› ‹_› _ _ _ _ _ _
    | with_reducible refine Dev.runOp_keep ?_ ‹_› (fun x y hx => ?_)
    | (extract_lets +onlyGivenNames lv; (have hx : Keep ps e lv := ?_); (on_goal 1 => clear_value lv); on_goal 2 => subst lv)
    | (extract_lets +onlyGivenNames lv; clear_value lv)
    | extract_lets +onlyGivenNames lv
    | with_reducible refine Keep.ite ?_ ?_
    | split

theorem Dev.rowRepairDone_keep {ps : List Part} {e d : Dev} (h : Keep ps e d) (hevents : .events ∈ ps) (hflash : .flash ∈ ps) (hcellar : .cellar ∈ ps) (a0) : Keep ps e (Dev.rowRepairDone a0 d) := by
  unfold Dev.rowRepairDone
  repeat' first
    | with_reducible assumption
    | (intro c hc; with_reducible exact hc)
    | (intro c hc; with_reducible exact Cellar.seal_wf hc _ _ _ _)
    | (intro c hc; with_reducible exact Cellar.mergeRaw_wf hc _ _ _)
    | (intro c hc; (try dsimp only [Cellar.count, Cellar.setRegion, Cellar.setKey, Cellar.loadKey, Cellar.decideWb]); with_reducible exact hc)
    | (intro c hc; (try dsimp only [Cellar.count, Cellar.setRegion, Cellar.setKey, Cellar.loadKey, Cellar.decideWb]); with_reducible exact Cellar.seal_wf hc _ _ _ _)
    | (intro c hc; (try dsimp only [Cellar.count, Cellar.setRegion, Cellar.setKey, Cellar.loadKey, Cellar.decideWb]); with_reducible exact Cellar.mergeRaw_wf hc _ _ _)
    | (intro c hc; (try dsimp only [Cellar.count, Cellar.setRegion, Cellar.setKey, Cellar.loadKey, Cellar.decideWb]); with_reducible exact Cellar.putMeta_wf hc _ _)
    | (intro c hc; (try dsimp only [Cellar.count, Cellar.setRegion, Cellar.setKey, Cellar.loadKey, Cellar.decideWb]); with_reducible exact Cellar.putRaw_wf hc _ _)
    | (intro c hc; (try dsimp only [Cellar.count, Cellar.setRegion, Cellar.setKey, Cellar.loadKey, Cellar.decideWb]); with_reducible exact Memory.wf_write _ _ _ hc)
    | (intro c hc; (try dsimp only [Cellar.count, Cellar.setRegion, Cellar.setKey, Cellar.loadKey, Cellar.decideWb]); with_reducible exact Memory.wf_writeN _ _ _ hc)
    | (intro c hc; (try dsimp only [Cellar.count, Cellar.setRegion, Cellar.setKey, Cellar.loadKey, Cellar.decideWb]); with_reducible exact Memory.wf_clearRange _ _ _ hc)
    | (intro c hc; (try dsimp only [Cellar.count, Cellar.setRegion, Cellar.setKey, Cellar.loadKey, Cellar.decideWb]); with_reducible exact Memory.wf_spans _ _ hc)
    | (intro c hc; (repeat' split) <;> with_reducible exact hc)
    | (intro c hc; dsimp only; split <;> exact hc)
    | (intro c hc; exact hc)
    | with_reducible refine Dev.each_keep ?_ (fun x y hx => ?_)
    | with_reducible refine Dev.modCellar_keep ?_ ‹_› _ ?_
    | with_reducible refine Dev.poisonWord_keep ?_ ‹_› ‹_› _
    | with_reducible refine Dev.putFlash_keep ?_ ‹_› _
    | with_reducible refine Dev.raise_keep ?_ ‹_› _ _
    | with_reducible refine Dev.syncSweeps_keep ?_ ‹_› ‹_›
    | (extract_lets +onlyGivenNames lv; (have hx : Keep ps e lv := ?_); (on_goal 1 => clear_value lv); on_goal 2 => subst lv)
    | (extract_lets +onlyGivenNames lv; clear_value lv)
    | extract_lets +onlyGivenNames lv
    | with_reducible refine Keep.ite ?_ ?_
    | split

theorem cmdBody_some {bs body : Bytes} (h : cmdBody bs = some body) : body = slice bs 64 (cmdBodyLen (leAt bs 4 1)) := by
  unfold cmdBody at h
  dsimp only at h
  split at h
  · cases h
  · rename_i hc
    simp only [not_or] at hc
    have hn : leAt bs 0x28 4 = cmdBodyLen (leAt bs 4 1) := Decidable.of_not_not hc.2.2.2.2.2.2.2.2.2.2.1
    cases h
    rw [hn]

theorem Dev.cmdCheck_zero {d : Dev} {g : Bool} (h : d.cmdCheck g = 0) :
    cmdFrom (leAt d.strong.cmdRun 4 1) d.strong.life = true ∧
      d.cmdRuleBad (leAt d.strong.cmdRun 4 1) (leAt d.strong.cmdRun 6 1) (slice d.strong.cmdRun 64 (cmdBodyLen (leAt d.strong.cmdRun 4 1))) = false := by
  unfold Dev.cmdCheck at h
  dsimp only at h
  split at h
  · cases h
  · rename_i body hb
    have := cmdBody_some hb
    subst this
    split at h
    · cases h
    · split at h
      · cases h
      · split at h
        · cases h
        · split at h
          · cases h
          · rename_i hf
            split at h
            · cases h
            · rename_i hr
              exact ⟨by simpa using hf, by simpa using hr⟩

/-- What a signed command does: nothing, a result of its checks, or its effect where every check holds. -/
theorem Dev.runCmd_keep {ps : List Part} {e d : Dev} {code : Nat} {g : Bool} {f : Dev → Bytes → Dev} (h : Keep ps e d) (hfree : .free ∈ ps)
    (hevents : .events ∈ ps) (hstrong : .strong ∈ ps)
    (hf : cmdFrom code d.strong.life = true → d.cmdRuleBad code (leAt d.strong.cmdRun 6 1) (slice d.strong.cmdRun 64 (cmdBodyLen code)) = false →
      Keep ps e (f d (slice d.strong.cmdRun 64 (cmdBodyLen code)))) : Keep ps e (d.runCmd code g f) := by
  unfold Dev.runCmd
  split
  · exact h
  · rename_i hc
    simp only [not_or] at hc
    have hcode : leAt d.strong.cmdRun 4 1 = code := Decidable.of_not_not hc.2.2
    dsimp only
    split
    · exact Dev.cmdDone_keep h hfree hevents hstrong _
    · rename_i hz
      have := Dev.cmdCheck_zero (g := g) (d := d) (by simpa using hz)
      rw [hcode] at this
      exact hf this.1 this.2

theorem Dev.scrubRewrite_keep {ps : List Part} {e d : Dev} (h : Keep ps e d) (hevents : .events ∈ ps) (hrooms : .rooms ∈ ps) (hnet : .net ∈ ps) (hfabric : .fabric ∈ ps) (hloader : .loader ∈ ps) (a0 a1 a2) : Keep ps e (Dev.scrubRewrite a0 a1 a2 d) := by
  unfold Dev.scrubRewrite
  repeat' first
    | with_reducible assumption
    | with_reducible refine Dev.rewrite_keep ?_ ‹_› ‹_› ‹_› ‹_› ‹_› _ _
    | (extract_lets +onlyGivenNames lv; (have hx : Keep ps e lv := ?_); (on_goal 1 => clear_value lv); on_goal 2 => subst lv)
    | (extract_lets +onlyGivenNames lv; clear_value lv)
    | extract_lets +onlyGivenNames lv
    | with_reducible refine Keep.ite ?_ ?_
    | split

theorem Dev.sdiLine_keep {ps : List Part} {e d : Dev} (h : Keep ps e d) (hevents : .events ∈ ps) (hmedia : .media ∈ ps) (a0 a1) : Keep ps e (Dev.sdiLine a0 a1 d) := by
  unfold Dev.sdiLine
  repeat' first
    | with_reducible assumption
    | with_reducible refine Dev.countSdi_keep ?_ ‹_› _ _ _
    | with_reducible refine Dev.noteMismatch_keep ?_ ‹_› ‹_› _
    | with_reducible refine Dev.raise_keep ?_ ‹_› _ _
    | with_reducible refine Dev.setSdi_keep ?_ ‹_› _ _
    | (extract_lets +onlyGivenNames lv; (have hx : Keep ps e lv := ?_); (on_goal 1 => clear_value lv); on_goal 2 => subst lv)
    | (extract_lets +onlyGivenNames lv; clear_value lv)
    | extract_lets +onlyGivenNames lv
    | with_reducible refine Keep.ite ?_ ?_
    | split

theorem Dev.seedLog_keep {ps : List Part} {e d : Dev} (h : Keep ps e d) (hrooms : .rooms ∈ ps) (hfuncs : .funcs ∈ ps) (hnet : .net ∈ ps) (a0) : Keep ps e (Dev.seedLog a0 d) := by
  unfold Dev.seedLog
  repeat' first
    | with_reducible assumption
    | with_reducible refine Dev.modMigration_keep ?_ ‹_› _ _
    | with_reducible refine Dev.modRoom_keep ?_ ‹_› _ _
    | with_reducible refine Dev.seedArrives_keep ?_ ‹_› ‹_› _ _ _ _ _
    | (extract_lets +onlyGivenNames lv; (have hx : Keep ps e lv := ?_); (on_goal 1 => clear_value lv); on_goal 2 => subst lv)
    | (extract_lets +onlyGivenNames lv; clear_value lv)
    | extract_lets +onlyGivenNames lv
    | with_reducible refine Keep.ite ?_ ?_
    | split

theorem Dev.sendControl_keep {ps : List Part} {e d : Dev} (h : Keep ps e d) (hout : .out ∈ ps) (hlink : .link ∈ ps) (a1) : Keep ps e (Dev.sendControl d a1) := by
  unfold Dev.sendControl
  repeat' first
    | with_reducible assumption
    | with_reducible refine Dev.sendSeq_keep ?_ ‹_› ‹_› _ _
    | with_reducible refine Dev.setBd_keep ?_ ‹_› _ _
    | (extract_lets +onlyGivenNames lv; (have hx : Keep ps e lv := ?_); (on_goal 1 => clear_value lv); on_goal 2 => subst lv)
    | (extract_lets +onlyGivenNames lv; clear_value lv)
    | extract_lets +onlyGivenNames lv
    | with_reducible refine Keep.ite ?_ ?_
    | split

theorem Dev.sendRemote_keep {ps : List Part} {e d : Dev} (h : Keep ps e d) (hout : .out ∈ ps) (hevents : .events ∈ ps) (hlink : .link ∈ ps) (a1 a2 a3 a4 a5) : Keep ps e (Dev.sendRemote d a1 a2 a3 a4 a5) := by
  unfold Dev.sendRemote
  repeat' first
    | with_reducible assumption
    | with_reducible refine Dev.each_keep ?_ (fun x y hx => ?_)
    | with_reducible refine Dev.sendOwn_keep ?_ ‹_› ‹_› ‹_› _
    | (extract_lets +onlyGivenNames lv; (have hx : Keep ps e lv := ?_); (on_goal 1 => clear_value lv); on_goal 2 => subst lv)
    | (extract_lets +onlyGivenNames lv; clear_value lv)
    | extract_lets +onlyGivenNames lv
    | with_reducible refine Keep.ite ?_ ?_
    | split

theorem Dev.seqLossTimeout_keep {ps : List Part} {e d : Dev} (h : Keep ps e d) (hevents : .events ∈ ps) (hmedia : .media ∈ ps) (a0) : Keep ps e (Dev.seqLossTimeout a0 d) := by
  unfold Dev.seqLossTimeout
  repeat' first
    | with_reducible assumption
    | with_reducible refine Dev.countFlow_keep ?_ ‹_› _ _ _
    | with_reducible refine Dev.raise_keep ?_ ‹_› _ _
    | with_reducible refine Dev.setFlow_keep ?_ ‹_› _ _
    | (extract_lets +onlyGivenNames lv; (have hx : Keep ps e lv := ?_); (on_goal 1 => clear_value lv); on_goal 2 => subst lv)
    | (extract_lets +onlyGivenNames lv; clear_value lv)
    | extract_lets +onlyGivenNames lv
    | with_reducible refine Keep.ite ?_ ?_
    | split

theorem Dev.sourceLoss_keep {ps : List Part} {e d : Dev} (h : Keep ps e d) (hevents : .events ∈ ps) (htime : .time ∈ ps) : Keep ps e (Dev.sourceLoss d) := by
  unfold Dev.sourceLoss
  repeat' first
    | with_reducible assumption
    | with_reducible refine Dev.chooseMaster_keep ?_ ‹_› ‹_›
    | with_reducible refine Dev.holdover_keep ?_ ‹_› ‹_›
    | with_reducible refine Dev.modTime_keep ?_ ‹_› _
    | (extract_lets +onlyGivenNames lv; (have hx : Keep ps e lv := ?_); (on_goal 1 => clear_value lv); on_goal 2 => subst lv)
    | (extract_lets +onlyGivenNames lv; clear_value lv)
    | extract_lets +onlyGivenNames lv
    | with_reducible refine Keep.ite ?_ ?_
    | split

theorem Dev.updateHot_keep {ps : List Part} {e d : Dev} (h : Keep ps e d) (hevents : .events ∈ ps) (hcellar : .cellar ∈ ps) (hpower : .power ∈ ps) : Keep ps e (Dev.updateHot d) := by
  unfold Dev.updateHot
  repeat' first
    | with_reducible assumption
    | with_reducible refine Dev.putPower_keep ?_ ‹_› _
    | with_reducible refine Dev.raise_keep ?_ ‹_› _ _
    | with_reducible refine Dev.syncSweeps_keep ?_ ‹_› ‹_›
    | (extract_lets +onlyGivenNames lv; (have hx : Keep ps e lv := ?_); (on_goal 1 => clear_value lv); on_goal 2 => subst lv)
    | (extract_lets +onlyGivenNames lv; clear_value lv)
    | extract_lets +onlyGivenNames lv
    | with_reducible refine Keep.ite ?_ ?_
    | split

theorem Dev.stackTempRead_keep {ps : List Part} {e d : Dev} (h : Keep ps e d) (hevents : .events ∈ ps) (hcellar : .cellar ∈ ps) (hpower : .power ∈ ps) (a0) : Keep ps e (Dev.stackTempRead a0 d) := by
  unfold Dev.stackTempRead
  repeat' first
    | with_reducible assumption
    | (intro c hc; with_reducible exact hc)
    | (intro c hc; with_reducible exact Cellar.seal_wf hc _ _ _ _)
    | (intro c hc; with_reducible exact Cellar.mergeRaw_wf hc _ _ _)
    | (intro c hc; (try dsimp only [Cellar.count, Cellar.setRegion, Cellar.setKey, Cellar.loadKey, Cellar.decideWb]); with_reducible exact hc)
    | (intro c hc; (try dsimp only [Cellar.count, Cellar.setRegion, Cellar.setKey, Cellar.loadKey, Cellar.decideWb]); with_reducible exact Cellar.seal_wf hc _ _ _ _)
    | (intro c hc; (try dsimp only [Cellar.count, Cellar.setRegion, Cellar.setKey, Cellar.loadKey, Cellar.decideWb]); with_reducible exact Cellar.mergeRaw_wf hc _ _ _)
    | (intro c hc; (try dsimp only [Cellar.count, Cellar.setRegion, Cellar.setKey, Cellar.loadKey, Cellar.decideWb]); with_reducible exact Cellar.putMeta_wf hc _ _)
    | (intro c hc; (try dsimp only [Cellar.count, Cellar.setRegion, Cellar.setKey, Cellar.loadKey, Cellar.decideWb]); with_reducible exact Cellar.putRaw_wf hc _ _)
    | (intro c hc; (try dsimp only [Cellar.count, Cellar.setRegion, Cellar.setKey, Cellar.loadKey, Cellar.decideWb]); with_reducible exact Memory.wf_write _ _ _ hc)
    | (intro c hc; (try dsimp only [Cellar.count, Cellar.setRegion, Cellar.setKey, Cellar.loadKey, Cellar.decideWb]); with_reducible exact Memory.wf_writeN _ _ _ hc)
    | (intro c hc; (try dsimp only [Cellar.count, Cellar.setRegion, Cellar.setKey, Cellar.loadKey, Cellar.decideWb]); with_reducible exact Memory.wf_clearRange _ _ _ hc)
    | (intro c hc; (try dsimp only [Cellar.count, Cellar.setRegion, Cellar.setKey, Cellar.loadKey, Cellar.decideWb]); with_reducible exact Memory.wf_spans _ _ hc)
    | (intro c hc; (repeat' split) <;> with_reducible exact hc)
    | (intro c hc; dsimp only; split <;> exact hc)
    | (intro c hc; exact hc)
    | with_reducible refine Dev.each_keep ?_ (fun x y hx => ?_)
    | with_reducible refine Dev.modCellar_keep ?_ ‹_› _ ?_
    | with_reducible refine Dev.raise_keep ?_ ‹_› _ _
    | with_reducible refine Dev.updateHot_keep ?_ ‹_› ‹_› ‹_›
    | (extract_lets +onlyGivenNames lv; (have hx : Keep ps e lv := ?_); (on_goal 1 => clear_value lv); on_goal 2 => subst lv)
    | (extract_lets +onlyGivenNames lv; clear_value lv)
    | extract_lets +onlyGivenNames lv
    | with_reducible refine Keep.ite ?_ ?_
    | split

theorem Dev.startupStage_keep {ps : List Part} {e d : Dev} (h : Keep ps e d) (hfree : .free ∈ ps) (hout : .out ∈ ps) (hevents : .events ∈ ps) (hrooms : .rooms ∈ ps) (hcellar : .cellar ∈ ps) (hmedia : .media ∈ ps) (htime : .time ∈ ps) (hlink : .link ∈ ps) (hfabric : .fabric ∈ ps) (hrings : .rings ∈ ps) (hcores : .cores ∈ ps) (hfuse : .fuse ∈ ps) (hstrong : .strong ∈ ps) (hpower : .power ∈ ps) (a0) : Keep ps e (Dev.startupStage a0 d) := by
  unfold Dev.startupStage
  repeat' first
    | with_reducible assumption
    | (intro hx; exact (show Rings.windowsOk _ from hx))
    | with_reducible refine Dev.applyRecord_keep ?_ ‹_› ‹_› ‹_› ‹_› ‹_› ‹_› ‹_› ‹_› ‹_› ‹_› _
    | with_reducible refine Dev.armStart_keep ?_ ‹_›
    | with_reducible refine Dev.endCores_keep ?_ ‹_› ‹_› ‹_› ‹_› ‹_› ‹_› ‹_› ‹_› ‹_› ‹_› ‹_› ‹_› ‹_›
    | with_reducible refine Dev.endFwload_keep ?_ ‹_› ‹_› _
    | with_reducible refine Dev.endRom_keep ?_ ‹_› ‹_› ‹_› ‹_›
    | with_reducible refine Dev.modPower_keep ?_ ‹_› _
    | with_reducible refine Dev.modTime_keep ?_ ‹_› _
    | with_reducible refine Dev.putPower_keep ?_ ‹_› _
    | with_reducible refine Dev.putRings_keep ?_ ‹_› _ ?_
    | with_reducible refine Dev.raise_keep ?_ ‹_› _ _
    | (extract_lets +onlyGivenNames lv; (have hx : Keep ps e lv := ?_); (on_goal 1 => clear_value lv); on_goal 2 => subst lv)
    | (extract_lets +onlyGivenNames lv; (have hfn : ∀ y, Keep ps e y → Keep ps e (lv y) := ?_); (on_goal 1 => clear_value lv); on_goal 2 => (intro y hy; subst lv; beta_reduce))
    | (extract_lets +onlyGivenNames lv; (have hfn : ∀ y z, Keep ps e y → Keep ps e (lv y z) := ?_); (on_goal 1 => clear_value lv); on_goal 2 => (intro y z hy; subst lv; beta_reduce))
    | (extract_lets +onlyGivenNames lv; (have hfn : ∀ y, Keep ps e (Prod.fst y) → Keep ps e (lv y) := ?_); (on_goal 1 => clear_value lv); on_goal 2 => (intro y hy; subst lv; beta_reduce))
    | (extract_lets +onlyGivenNames lv; (have hfn : ∀ y, Keep ps e (lv y) := ?_); (on_goal 1 => clear_value lv); on_goal 2 => (intro y; subst lv; beta_reduce))
    | (extract_lets +onlyGivenNames lv; (have _ty : Ring := lv); subst lv; clear _ty)
    | (extract_lets +onlyGivenNames lv; (have _ty : Rings := lv); subst lv; clear _ty)
    | (extract_lets +onlyGivenNames lv; (have _ty : Strong := lv); subst lv; clear _ty)
    | (extract_lets +onlyGivenNames lv; (have _ty : RetEntry → RetEntry := lv); subst lv; clear _ty)
    | (extract_lets +onlyGivenNames lv; clear_value lv)
    | extract_lets +onlyGivenNames lv
    | with_reducible exact hfn _
    | with_reducible exact hfn _ _
    | with_reducible refine hfn _ ?_
    | with_reducible refine hfn _ _ ?_
    | with_reducible refine hfn _ _ _ ?_
    | with_reducible refine Keep.ite ?_ ?_
    | split

theorem Dev.streamCarry_keep {ps : List Part} {e d : Dev} (h : Keep ps e d) (hnet : .net ∈ ps) (a1 a2 a3) : Keep ps e (Dev.streamCarry d a1 a2 a3) := by
  unfold Dev.streamCarry
  repeat' first
    | with_reducible assumption
    | with_reducible refine Dev.putNet_keep ?_ ‹_› _
    | (extract_lets +onlyGivenNames lv; (have hx : Keep ps e lv := ?_); (on_goal 1 => clear_value lv); on_goal 2 => subst lv)
    | (extract_lets +onlyGivenNames lv; clear_value lv)
    | extract_lets +onlyGivenNames lv
    | with_reducible refine Keep.ite ?_ ?_
    | split

theorem Dev.streamWords_keep {ps : List Part} {e d : Dev} (h : Keep ps e d) (hrooms : .rooms ∈ ps) (hnet : .net ∈ ps) (hcellar : .cellar ∈ ps) (a0) : Keep ps e (Dev.streamWords a0 d) := by
  unfold Dev.streamWords
  repeat' first
    | with_reducible assumption
    | (intro c hc; with_reducible exact hc)
    | (intro c hc; with_reducible exact Cellar.seal_wf hc _ _ _ _)
    | (intro c hc; with_reducible exact Cellar.mergeRaw_wf hc _ _ _)
    | (intro c hc; (try dsimp only [Cellar.count, Cellar.setRegion, Cellar.setKey, Cellar.loadKey, Cellar.decideWb]); with_reducible exact hc)
    | (intro c hc; (try dsimp only [Cellar.count, Cellar.setRegion, Cellar.setKey, Cellar.loadKey, Cellar.decideWb]); with_reducible exact Cellar.seal_wf hc _ _ _ _)
    | (intro c hc; (try dsimp only [Cellar.count, Cellar.setRegion, Cellar.setKey, Cellar.loadKey, Cellar.decideWb]); with_reducible exact Cellar.mergeRaw_wf hc _ _ _)
    | (intro c hc; (try dsimp only [Cellar.count, Cellar.setRegion, Cellar.setKey, Cellar.loadKey, Cellar.decideWb]); with_reducible exact Cellar.putMeta_wf hc _ _)
    | (intro c hc; (try dsimp only [Cellar.count, Cellar.setRegion, Cellar.setKey, Cellar.loadKey, Cellar.decideWb]); with_reducible exact Cellar.putRaw_wf hc _ _)
    | (intro c hc; (try dsimp only [Cellar.count, Cellar.setRegion, Cellar.setKey, Cellar.loadKey, Cellar.decideWb]); with_reducible exact Memory.wf_write _ _ _ hc)
    | (intro c hc; (try dsimp only [Cellar.count, Cellar.setRegion, Cellar.setKey, Cellar.loadKey, Cellar.decideWb]); with_reducible exact Memory.wf_writeN _ _ _ hc)
    | (intro c hc; (try dsimp only [Cellar.count, Cellar.setRegion, Cellar.setKey, Cellar.loadKey, Cellar.decideWb]); with_reducible exact Memory.wf_clearRange _ _ _ hc)
    | (intro c hc; (try dsimp only [Cellar.count, Cellar.setRegion, Cellar.setKey, Cellar.loadKey, Cellar.decideWb]); with_reducible exact Memory.wf_spans _ _ hc)
    | (intro c hc; (repeat' split) <;> with_reducible exact hc)
    | (intro c hc; dsimp only; split <;> exact hc)
    | (intro c hc; exact hc)
    | with_reducible refine Dev.each_keep ?_ (fun x y hx => ?_)
    | with_reducible refine Dev.modCellar_keep ?_ ‹_› _ ?_
    | with_reducible refine Dev.modRoom_keep ?_ ‹_› _ _
    | with_reducible refine Dev.streamCarry_keep ?_ ‹_› _ _ _
    | (extract_lets +onlyGivenNames lv; (have hx : Keep ps e lv := ?_); (on_goal 1 => clear_value lv); on_goal 2 => subst lv)
    | (extract_lets +onlyGivenNames lv; clear_value lv)
    | extract_lets +onlyGivenNames lv
    | with_reducible refine Keep.ite ?_ ?_
    | split

theorem Dev.sweep_keep {ps : List Part} {e d : Dev} (h : Keep ps e d) (hout : .out ∈ ps) (hevents : .events ∈ ps) (hcellar : .cellar ∈ ps) (hlink : .link ∈ ps) (hrings : .rings ∈ ps) (hsched : .sched ∈ ps) (a0) : Keep ps e (Dev.sweep a0 d) := by
  unfold Dev.sweep
  repeat' first
    | with_reducible assumption
    | with_reducible refine Dev.finish_keep ?_ ‹_› ‹_› ‹_› ‹_› ‹_› _ _ _ _ _ _
    | with_reducible refine Dev.start_keep ?_ ‹_› _
    | with_reducible refine Dev.startSweep_keep ?_ ‹_› ‹_› _ _
    | (extract_lets +onlyGivenNames lv; (have hx : Keep ps e lv := ?_); (on_goal 1 => clear_value lv); on_goal 2 => subst lv)
    | (extract_lets +onlyGivenNames lv; clear_value lv)
    | extract_lets +onlyGivenNames lv
    | with_reducible refine Keep.ite ?_ ?_
    | split

theorem Dev.sweepDone_keep {ps : List Part} {e d : Dev} (h : Keep ps e d) (hout : .out ∈ ps) (hevents : .events ∈ ps) (hcellar : .cellar ∈ ps) (hlink : .link ∈ ps) (hrings : .rings ∈ ps) (hsched : .sched ∈ ps) (a1) : Keep ps e (Dev.sweepDone d a1) := by
  unfold Dev.sweepDone
  repeat' first
    | with_reducible assumption
    | (intro c hc; with_reducible exact hc)
    | (intro c hc; with_reducible exact Cellar.seal_wf hc _ _ _ _)
    | (intro c hc; with_reducible exact Cellar.mergeRaw_wf hc _ _ _)
    | (intro c hc; (try dsimp only [Cellar.count, Cellar.setRegion, Cellar.setKey, Cellar.loadKey, Cellar.decideWb]); with_reducible exact hc)
    | (intro c hc; (try dsimp only [Cellar.count, Cellar.setRegion, Cellar.setKey, Cellar.loadKey, Cellar.decideWb]); with_reducible exact Cellar.seal_wf hc _ _ _ _)
    | (intro c hc; (try dsimp only [Cellar.count, Cellar.setRegion, Cellar.setKey, Cellar.loadKey, Cellar.decideWb]); with_reducible exact Cellar.mergeRaw_wf hc _ _ _)
    | (intro c hc; (try dsimp only [Cellar.count, Cellar.setRegion, Cellar.setKey, Cellar.loadKey, Cellar.decideWb]); with_reducible exact Cellar.putMeta_wf hc _ _)
    | (intro c hc; (try dsimp only [Cellar.count, Cellar.setRegion, Cellar.setKey, Cellar.loadKey, Cellar.decideWb]); with_reducible exact Cellar.putRaw_wf hc _ _)
    | (intro c hc; (try dsimp only [Cellar.count, Cellar.setRegion, Cellar.setKey, Cellar.loadKey, Cellar.decideWb]); with_reducible exact Memory.wf_write _ _ _ hc)
    | (intro c hc; (try dsimp only [Cellar.count, Cellar.setRegion, Cellar.setKey, Cellar.loadKey, Cellar.decideWb]); with_reducible exact Memory.wf_writeN _ _ _ hc)
    | (intro c hc; (try dsimp only [Cellar.count, Cellar.setRegion, Cellar.setKey, Cellar.loadKey, Cellar.decideWb]); with_reducible exact Memory.wf_clearRange _ _ _ hc)
    | (intro c hc; (try dsimp only [Cellar.count, Cellar.setRegion, Cellar.setKey, Cellar.loadKey, Cellar.decideWb]); with_reducible exact Memory.wf_spans _ _ hc)
    | (intro c hc; (repeat' split) <;> with_reducible exact hc)
    | (intro c hc; dsimp only; split <;> exact hc)
    | (intro c hc; exact hc)
    | with_reducible refine Dev.autoSweeps_keep ?_ ‹_› ‹_›
    | with_reducible refine Dev.finishOk_keep ?_ ‹_› ‹_› ‹_› ‹_› ‹_› _ _ _
    | with_reducible refine Dev.modCellar_keep ?_ ‹_› _ ?_
    | with_reducible refine Dev.raise_keep ?_ ‹_› _ _
    | (extract_lets +onlyGivenNames lv; (have hx : Keep ps e lv := ?_); (on_goal 1 => clear_value lv); on_goal 2 => subst lv)
    | (extract_lets +onlyGivenNames lv; clear_value lv)
    | extract_lets +onlyGivenNames lv
    | with_reducible refine Keep.ite ?_ ?_
    | split

theorem Dev.sweepOne_keep {ps : List Part} {e d : Dev} (h : Keep ps e d) (hevents : .events ∈ ps) (hcellar : .cellar ∈ ps) (a1 a2 a3) : Keep ps e (Dev.sweepOne d a1 a2 a3) := by
  unfold Dev.sweepOne
  extract_lets +onlyGivenNames m lost d1
  have h1 : Keep ps e d1 := Dev.metaEcc_keep h ‹_› ‹_› _ _
  clear_value d1 lost
  split
  · exact Dev.poison_keep (Dev.secMac_keep h1 ‹_› ‹_›) ‹_› ‹_› _ _
  · split
    · split
      · exact Dev.modCellar_keep h1 ‹_› _ fun c hc => Cellar.seal_wf hc _ _ _ _
      · exact h1
    · split
      · extract_lets +onlyGivenNames d2
        have h2 : Keep ps e d2 := Dev.rawEcc_keep h1 ‹_› ‹_› _ _
        clear_value d2
        generalize d2.cellar.openSealed a2 a3 d2.free = o
        obtain ⟨v, plain⟩ := o
        dsimp only
        split
        · exact Dev.poison_keep (Dev.secMac_keep h2 ‹_› ‹_›) ‹_› ‹_› _ _
        · exact Dev.reseal_keep h2 ‹_› ‹_› _ _ _ _
      · exact h1

theorem Dev.sweepLine_keep {ps : List Part} {e d : Dev} (h : Keep ps e d) (hout : .out ∈ ps) (hevents : .events ∈ ps) (hcellar : .cellar ∈ ps) (hlink : .link ∈ ps) (hrings : .rings ∈ ps) (hsched : .sched ∈ ps) (a0 a1) : Keep ps e (Dev.sweepLine a0 a1 d) := by
  unfold Dev.sweepLine
  repeat' first
    | with_reducible assumption
    | (intro c hc; with_reducible exact hc)
    | (intro c hc; with_reducible exact Cellar.seal_wf hc _ _ _ _)
    | (intro c hc; with_reducible exact Cellar.mergeRaw_wf hc _ _ _)
    | (intro c hc; (try dsimp only [Cellar.count, Cellar.setRegion, Cellar.setKey, Cellar.loadKey, Cellar.decideWb]); with_reducible exact hc)
    | (intro c hc; (try dsimp only [Cellar.count, Cellar.setRegion, Cellar.setKey, Cellar.loadKey, Cellar.decideWb]); with_reducible exact Cellar.seal_wf hc _ _ _ _)
    | (intro c hc; (try dsimp only [Cellar.count, Cellar.setRegion, Cellar.setKey, Cellar.loadKey, Cellar.decideWb]); with_reducible exact Cellar.mergeRaw_wf hc _ _ _)
    | (intro c hc; (try dsimp only [Cellar.count, Cellar.setRegion, Cellar.setKey, Cellar.loadKey, Cellar.decideWb]); with_reducible exact Cellar.putMeta_wf hc _ _)
    | (intro c hc; (try dsimp only [Cellar.count, Cellar.setRegion, Cellar.setKey, Cellar.loadKey, Cellar.decideWb]); with_reducible exact Cellar.putRaw_wf hc _ _)
    | (intro c hc; (try dsimp only [Cellar.count, Cellar.setRegion, Cellar.setKey, Cellar.loadKey, Cellar.decideWb]); with_reducible exact Memory.wf_write _ _ _ hc)
    | (intro c hc; (try dsimp only [Cellar.count, Cellar.setRegion, Cellar.setKey, Cellar.loadKey, Cellar.decideWb]); with_reducible exact Memory.wf_writeN _ _ _ hc)
    | (intro c hc; (try dsimp only [Cellar.count, Cellar.setRegion, Cellar.setKey, Cellar.loadKey, Cellar.decideWb]); with_reducible exact Memory.wf_clearRange _ _ _ hc)
    | (intro c hc; (try dsimp only [Cellar.count, Cellar.setRegion, Cellar.setKey, Cellar.loadKey, Cellar.decideWb]); with_reducible exact Memory.wf_spans _ _ hc)
    | (intro c hc; (repeat' split) <;> with_reducible exact hc)
    | (intro c hc; dsimp only; split <;> exact hc)
    | (intro c hc; exact hc)
    | with_reducible refine Dev.lineEcc_keep ?_ ‹_› ‹_› _ _
    | with_reducible refine Dev.modCellar_keep ?_ ‹_› _ ?_
    | with_reducible refine Dev.sweepDone_keep ?_ ‹_› ‹_› ‹_› ‹_› ‹_› ‹_› _
    | with_reducible refine Dev.sweepOne_keep ?_ ‹_› ‹_› _ _ _
    | with_reducible refine Dev.syncSweeps_keep ?_ ‹_› ‹_›
    | (extract_lets +onlyGivenNames lv; (have hx : Keep ps e lv := ?_); (on_goal 1 => clear_value lv); on_goal 2 => subst lv)
    | (extract_lets +onlyGivenNames lv; clear_value lv)
    | extract_lets +onlyGivenNames lv
    | with_reducible refine Keep.ite ?_ ?_
    | split

theorem Dev.tapInstruction_keep {ps : List Part} {e d : Dev} (h : Keep ps e d) (hnow : .now ∈ ps) (hout : .out ∈ ps) (hevents : .events ∈ ps) (hrooms : .rooms ∈ ps) (hfuncs : .funcs ∈ ps) (hnet : .net ∈ ps) (hcellar : .cellar ∈ ps) (hmedia : .media ∈ ps) (htime : .time ∈ ps) (hlink : .link ∈ ps) (hfabric : .fabric ∈ ps) (hloader : .loader ∈ ps) (hrings : .rings ∈ ps) (hcores : .cores ∈ ps) (hsched : .sched ∈ ps) (hacq : .acq ∈ ps) (hfuse : .fuse ∈ ps) (hstrong : .strong ∈ ps) (hhub : .hub ∈ ps) (hpower : .power ∈ ps) (htap : .tap ∈ ps) (a0 a1 a2) : Keep ps e (Dev.tapInstruction a0 a1 a2 d) := by
  unfold Dev.tapInstruction
  repeat' first
    | with_reducible assumption
    | with_reducible refine Dev.boundary_keep ?_ ‹_› ‹_› _ _ _
    | with_reducible refine Dev.loadTap_keep ?_ ‹_› _ _
    | with_reducible refine Dev.lockedDebugAccess_keep ?_ ‹_› ‹_› ‹_› ‹_› ‹_› ‹_› ‹_› ‹_› ‹_› ‹_› ‹_› ‹_› ‹_› ‹_› ‹_› ‹_› ‹_› ‹_› ‹_›
    | (extract_lets +onlyGivenNames lv; (have hx : Keep ps e lv := ?_); (on_goal 1 => clear_value lv); on_goal 2 => subst lv)
    | (extract_lets +onlyGivenNames lv; clear_value lv)
    | extract_lets +onlyGivenNames lv
    | with_reducible refine Keep.ite ?_ ?_
    | split

theorem Dev.tdcEdge_keep {ps : List Part} {e d : Dev} (h : Keep ps e d) (hevents : .events ∈ ps) (htime : .time ∈ ps) (hacq : .acq ∈ ps) (a0 a1) : Keep ps e (Dev.tdcEdge a0 a1 d) := by
  unfold Dev.tdcEdge
  repeat' first
    | with_reducible assumption
    | with_reducible refine Dev.countTime_keep ?_ ‹_› _
    | with_reducible refine Dev.modTime_keep ?_ ‹_› _
    | with_reducible refine Dev.ppsEdge_keep ?_ ‹_› ‹_›
    | with_reducible refine Dev.putAcq_keep ?_ ‹_› _
    | with_reducible refine Dev.raise_keep ?_ ‹_› _ _
    | (extract_lets +onlyGivenNames lv; (have hx : Keep ps e lv := ?_); (on_goal 1 => clear_value lv); on_goal 2 => subst lv)
    | (extract_lets +onlyGivenNames lv; clear_value lv)
    | extract_lets +onlyGivenNames lv
    | with_reducible refine Keep.ite ?_ ?_
    | split

theorem Dev.thermalSample_keep {ps : List Part} {e d : Dev} (h : Keep ps e d) (hevents : .events ∈ ps) (hcellar : .cellar ∈ ps) (hpower : .power ∈ ps) (a0 a1) : Keep ps e (Dev.thermalSample a0 a1 d) := by
  unfold Dev.thermalSample
  repeat' first
    | with_reducible assumption
    | with_reducible refine Dev.modPower_keep ?_ ‹_› _
    | with_reducible refine Dev.raise_keep ?_ ‹_› _ _
    | with_reducible refine Dev.updateHot_keep ?_ ‹_› ‹_› ‹_›
    | (extract_lets +onlyGivenNames lv; (have hx : Keep ps e lv := ?_); (on_goal 1 => clear_value lv); on_goal 2 => subst lv)
    | (extract_lets +onlyGivenNames lv; clear_value lv)
    | extract_lets +onlyGivenNames lv
    | with_reducible refine Keep.ite ?_ ?_
    | split

theorem Dev.timeSet_keep {ps : List Part} {e d : Dev} (h : Keep ps e d) (hnow : .now ∈ ps) (hout : .out ∈ ps) (hevents : .events ∈ ps) (hcellar : .cellar ∈ ps) (hmedia : .media ∈ ps) (htime : .time ∈ ps) (hlink : .link ∈ ps) (hfabric : .fabric ∈ ps) (hloader : .loader ∈ ps) (hrings : .rings ∈ ps) (hcores : .cores ∈ ps) (hsched : .sched ∈ ps) (hstrong : .strong ∈ ps) (hpower : .power ∈ ps) (a0 a1) : Keep ps e (Dev.timeSet a0 a1 d) := by
  unfold Dev.timeSet
  repeat' first
    | with_reducible assumption
    | with_reducible refine Dev.afterSet_keep ?_ ‹_› ‹_›
    | with_reducible refine Dev.finish_keep ?_ ‹_› ‹_› ‹_› ‹_› ‹_› _ _ _ _ _ _
    | with_reducible refine Dev.finishOk_keep ?_ ‹_› ‹_› ‹_› ‹_› ‹_› _ _ _
    | with_reducible refine Dev.start_keep ?_ ‹_› _
    | with_reducible refine Dev.stepTime_keep ?_ ‹_› ‹_› ‹_› ‹_› ‹_› ‹_› ‹_› ‹_› ‹_› ‹_› ‹_› ‹_› _
    | (extract_lets +onlyGivenNames lv; (have hx : Keep ps e lv := ?_); (on_goal 1 => clear_value lv); on_goal 2 => subst lv)
    | (extract_lets +onlyGivenNames lv; clear_value lv)
    | extract_lets +onlyGivenNames lv
    | with_reducible refine Keep.ite ?_ ?_
    | split

theorem Dev.traceSyncTimer_keep {ps : List Part} {e d : Dev} (h : Keep ps e d) (hfree : .free ∈ ps) (hevents : .events ∈ ps) (hcellar : .cellar ∈ ps) (hcores : .cores ∈ ps) (hstrong : .strong ∈ ps) (a0) : Keep ps e (Dev.traceSyncTimer a0 d) := by
  unfold Dev.traceSyncTimer
  repeat' first
    | with_reducible assumption
    | with_reducible refine Dev.sync_keep ?_ ‹_› ‹_› ‹_› ‹_› ‹_› _ _
    | (extract_lets +onlyGivenNames lv; (have hx : Keep ps e lv := ?_); (on_goal 1 => clear_value lv); on_goal 2 => subst lv)
    | (extract_lets +onlyGivenNames lv; clear_value lv)
    | extract_lets +onlyGivenNames lv
    | with_reducible refine Keep.ite ?_ ?_
    | split

theorem Dev.uevEdge_keep {ps : List Part} {e d : Dev} (h : Keep ps e d) (hevents : .events ∈ ps) (hfabric : .fabric ∈ ps) (a0 a1) : Keep ps e (Dev.uevEdge a0 a1 d) := by
  unfold Dev.uevEdge
  repeat' first
    | with_reducible assumption
    | with_reducible refine Dev.setUev_keep ?_ ‹_› ‹_› _ _
    | (extract_lets +onlyGivenNames lv; (have hx : Keep ps e lv := ?_); (on_goal 1 => clear_value lv); on_goal 2 => subst lv)
    | (extract_lets +onlyGivenNames lv; clear_value lv)
    | extract_lets +onlyGivenNames lv
    | with_reducible refine Keep.ite ?_ ?_
    | split

theorem Dev.upstreamLoss_keep {ps : List Part} {e d : Dev} (h : Keep ps e d) (hevents : .events ∈ ps) (htime : .time ∈ ps) (hlink : .link ∈ ps) : Keep ps e (Dev.upstreamLoss d) := by
  unfold Dev.upstreamLoss
  repeat' first
    | with_reducible assumption
    | with_reducible refine Dev.holdover_keep ?_ ‹_› ‹_›
    | with_reducible refine Dev.modLink_keep ?_ ‹_› _
    | with_reducible refine Dev.raise_keep ?_ ‹_› _ _
    | with_reducible refine Dev.sourceLoss_keep ?_ ‹_› ‹_›
    | (extract_lets +onlyGivenNames lv; (have hx : Keep ps e lv := ?_); (on_goal 1 => clear_value lv); on_goal 2 => subst lv)
    | (extract_lets +onlyGivenNames lv; clear_value lv)
    | extract_lets +onlyGivenNames lv
    | with_reducible refine Keep.ite ?_ ?_
    | split

theorem Dev.vccioMatch_keep {ps : List Part} {e d : Dev} (h : Keep ps e d) (hfabric : .fabric ∈ ps) (a0 a1) : Keep ps e (Dev.vccioMatch a0 a1 d) := by
  unfold Dev.vccioMatch
  repeat' first
    | with_reducible assumption
    | with_reducible refine Dev.modBank_keep ?_ ‹_› _ _
    | with_reducible refine Dev.refreshPads_keep ?_ ‹_›
    | (extract_lets +onlyGivenNames lv; (have hx : Keep ps e lv := ?_); (on_goal 1 => clear_value lv); on_goal 2 => subst lv)
    | (extract_lets +onlyGivenNames lv; clear_value lv)
    | extract_lets +onlyGivenNames lv
    | with_reducible refine Keep.ite ?_ ?_
    | split

theorem Dev.vcoreStep_keep {ps : List Part} {e d : Dev} (h : Keep ps e d) (hfree : .free ∈ ps) (hevents : .events ∈ ps) (hpower : .power ∈ ps) (a0 a1 a2) : Keep ps e (Dev.vcoreStep a0 a1 a2 d) := by
  unfold Dev.vcoreStep
  repeat' first
    | with_reducible assumption
    | with_reducible refine Dev.modPower_keep ?_ ‹_› _
    | with_reducible refine Dev.setAvs_keep ?_ ‹_› ‹_› _ _
    | with_reducible refine Dev.take_keep ?_ ‹_› _
    | (extract_lets +onlyGivenNames lv; (have hx : Keep ps e lv := ?_); (on_goal 1 => clear_value lv); on_goal 2 => subst lv)
    | (extract_lets +onlyGivenNames lv; clear_value lv)
    | extract_lets +onlyGivenNames lv
    | with_reducible refine Keep.ite ?_ ?_
    | split

theorem Dev.verdict_keep {ps : List Part} {e d : Dev} (h : Keep ps e d) (hfree : .free ∈ ps) (hout : .out ∈ ps) (hevents : .events ∈ ps) (hfuncs : .funcs ∈ ps) (hnet : .net ∈ ps) (hcellar : .cellar ∈ ps) (hlink : .link ∈ ps) (hcores : .cores ∈ ps) (hstrong : .strong ∈ ps) (hhub : .hub ∈ ps) (a0) : Keep ps e (Dev.verdict a0 d) := by
  unfold Dev.verdict
  repeat' first
    | with_reducible assumption
    | (intro c hc; with_reducible exact hc)
    | (intro c hc; with_reducible exact Cellar.seal_wf hc _ _ _ _)
    | (intro c hc; with_reducible exact Cellar.mergeRaw_wf hc _ _ _)
    | (intro c hc; (try dsimp only [Cellar.count, Cellar.setRegion, Cellar.setKey, Cellar.loadKey, Cellar.decideWb]); with_reducible exact hc)
    | (intro c hc; (try dsimp only [Cellar.count, Cellar.setRegion, Cellar.setKey, Cellar.loadKey, Cellar.decideWb]); with_reducible exact Cellar.seal_wf hc _ _ _ _)
    | (intro c hc; (try dsimp only [Cellar.count, Cellar.setRegion, Cellar.setKey, Cellar.loadKey, Cellar.decideWb]); with_reducible exact Cellar.mergeRaw_wf hc _ _ _)
    | (intro c hc; (try dsimp only [Cellar.count, Cellar.setRegion, Cellar.setKey, Cellar.loadKey, Cellar.decideWb]); with_reducible exact Cellar.putMeta_wf hc _ _)
    | (intro c hc; (try dsimp only [Cellar.count, Cellar.setRegion, Cellar.setKey, Cellar.loadKey, Cellar.decideWb]); with_reducible exact Cellar.putRaw_wf hc _ _)
    | (intro c hc; (try dsimp only [Cellar.count, Cellar.setRegion, Cellar.setKey, Cellar.loadKey, Cellar.decideWb]); with_reducible exact Memory.wf_write _ _ _ hc)
    | (intro c hc; (try dsimp only [Cellar.count, Cellar.setRegion, Cellar.setKey, Cellar.loadKey, Cellar.decideWb]); with_reducible exact Memory.wf_writeN _ _ _ hc)
    | (intro c hc; (try dsimp only [Cellar.count, Cellar.setRegion, Cellar.setKey, Cellar.loadKey, Cellar.decideWb]); with_reducible exact Memory.wf_clearRange _ _ _ hc)
    | (intro c hc; (try dsimp only [Cellar.count, Cellar.setRegion, Cellar.setKey, Cellar.loadKey, Cellar.decideWb]); with_reducible exact Memory.wf_spans _ _ hc)
    | (intro c hc; (repeat' split) <;> with_reducible exact hc)
    | (intro c hc; dsimp only; split <;> exact hc)
    | (intro c hc; exact hc)
    | with_reducible refine Dev.modCellar_keep ?_ ‹_› _ ?_
    | with_reducible refine Dev.modFunc_keep ?_ ‹_› _ _
    | with_reducible refine Dev.tryDecide_keep ?_ ‹_› ‹_› ‹_› ‹_› ‹_› ‹_› ‹_› ‹_› ‹_› ‹_› _ _
    | (extract_lets +onlyGivenNames lv; (have hx : Keep ps e lv := ?_); (on_goal 1 => clear_value lv); on_goal 2 => subst lv)
    | (extract_lets +onlyGivenNames lv; clear_value lv)
    | extract_lets +onlyGivenNames lv
    | with_reducible refine Keep.ite ?_ ?_
    | split

theorem Dev.vote_keep {ps : List Part} {e d : Dev} (h : Keep ps e d) (hfree : .free ∈ ps) (hout : .out ∈ ps) (hevents : .events ∈ ps) (hfuncs : .funcs ∈ ps) (hnet : .net ∈ ps) (hcellar : .cellar ∈ ps) (hlink : .link ∈ ps) (hcores : .cores ∈ ps) (hstrong : .strong ∈ ps) (hhub : .hub ∈ ps) (a0) : Keep ps e (Dev.vote a0 d) := by
  unfold Dev.vote
  repeat' first
    | with_reducible assumption
    | with_reducible refine Dev.checkMigration_keep ?_ ‹_› _
    | with_reducible refine Dev.modFunc_keep ?_ ‹_› _ _
    | with_reducible refine Dev.putNet_keep ?_ ‹_› _
    | with_reducible refine Dev.tryDecide_keep ?_ ‹_› ‹_› ‹_› ‹_› ‹_› ‹_› ‹_› ‹_› ‹_› ‹_› _ _
    | (extract_lets +onlyGivenNames lv; (have hx : Keep ps e lv := ?_); (on_goal 1 => clear_value lv); on_goal 2 => subst lv)
    | (extract_lets +onlyGivenNames lv; clear_value lv)
    | extract_lets +onlyGivenNames lv
    | with_reducible refine Keep.ite ?_ ?_
    | split

theorem Dev.warmrstN_keep {ps : List Part} {e d : Dev} (h : Keep ps e d) (hfree : .free ∈ ps) (hout : .out ∈ ps) (hevents : .events ∈ ps) (hrooms : .rooms ∈ ps) (hfuncs : .funcs ∈ ps) (hnet : .net ∈ ps) (hcellar : .cellar ∈ ps) (hmedia : .media ∈ ps) (htime : .time ∈ ps) (hlink : .link ∈ ps) (hfabric : .fabric ∈ ps) (hloader : .loader ∈ ps) (hrings : .rings ∈ ps) (hcores : .cores ∈ ps) (hsched : .sched ∈ ps) (hacq : .acq ∈ ps) (hfuse : .fuse ∈ ps) (hstrong : .strong ∈ ps) (hhub : .hub ∈ ps) (hpower : .power ∈ ps) (a0) : Keep ps e (Dev.warmrstN a0 d) := by
  unfold Dev.warmrstN
  repeat' first
    | with_reducible assumption
    | with_reducible refine Dev.askWarm_keep ?_ ‹_› ‹_› ‹_› ‹_› ‹_› ‹_› ‹_› ‹_› ‹_› ‹_› ‹_› ‹_› ‹_› ‹_› ‹_› ‹_› ‹_› ‹_› ‹_› ‹_›
    | with_reducible refine Dev.putPower_keep ?_ ‹_› _
    | (extract_lets +onlyGivenNames lv; (have hx : Keep ps e lv := ?_); (on_goal 1 => clear_value lv); on_goal 2 => subst lv)
    | (extract_lets +onlyGivenNames lv; clear_value lv)
    | extract_lets +onlyGivenNames lv
    | with_reducible refine Keep.ite ?_ ?_
    | split

theorem Dev.watchdogExpiry_keep {ps : List Part} {e d : Dev} (h : Keep ps e d) (hnow : .now ∈ ps) (hfree : .free ∈ ps) (hout : .out ∈ ps) (hevents : .events ∈ ps) (hcellar : .cellar ∈ ps) (hlink : .link ∈ ps) (hrings : .rings ∈ ps) (hcores : .cores ∈ ps) (hsched : .sched ∈ ps) (hstrong : .strong ∈ ps) (a0) : Keep ps e (Dev.watchdogExpiry a0 d) := by
  unfold Dev.watchdogExpiry
  repeat' first
    | with_reducible assumption
    | with_reducible refine Dev.abandon_keep ?_ ‹_› ‹_› ‹_› ‹_› _
    | with_reducible refine Dev.dispatchAll_keep ?_ ‹_› ‹_›
    | with_reducible refine Dev.failover_keep ?_ ‹_› ‹_› ‹_› ‹_› ‹_› ‹_› ‹_› ‹_› ‹_›
    | with_reducible refine Dev.modCore_keep ?_ ‹_› _ _
    | with_reducible refine Dev.modCores_keep ?_ ‹_› _
    | with_reducible refine Dev.raise_keep ?_ ‹_› _ _
    | with_reducible refine Dev.reach_keep ?_ ‹_› _
    | with_reducible refine Dev.refillAll_keep ?_ ‹_› ‹_› ‹_› ‹_›
    | with_reducible refine Dev.startCore_keep ?_ ‹_› ‹_› ‹_› ‹_› ‹_› _
    | (extract_lets +onlyGivenNames lv; (have hx : Keep ps e lv := ?_); (on_goal 1 => clear_value lv); on_goal 2 => subst lv)
    | (extract_lets +onlyGivenNames lv; clear_value lv)
    | extract_lets +onlyGivenNames lv
    | with_reducible refine Keep.ite ?_ ?_
    | split

theorem Dev.xchPacket_keep {ps : List Part} {e d : Dev} (h : Keep ps e d) (hout : .out ∈ ps) (hevents : .events ∈ ps) (hrooms : .rooms ∈ ps) (hfuncs : .funcs ∈ ps) (hnet : .net ∈ ps) (hcellar : .cellar ∈ ps) (hlink : .link ∈ ps) (a0 a1 a2) : Keep ps e (Dev.xchPacket a0 a1 a2 d) := by
  unfold Dev.xchPacket
  repeat' first
    | with_reducible assumption
    | with_reducible refine Dev.bufferWord_keep ?_ ‹_› ‹_› ‹_› _ _ _ _ _ _ _ _
    | with_reducible refine Dev.each_keep ?_ (fun x y hx => ?_)
    | with_reducible refine Dev.modFunc_keep ?_ ‹_› _ _
    | with_reducible refine Dev.modNet_keep ?_ ‹_› _
    | with_reducible refine Dev.modRoom_keep ?_ ‹_› _ _
    | with_reducible refine Dev.sendRemote_keep ?_ ‹_› ‹_› ‹_› _ _ _ _ _
    | (extract_lets +onlyGivenNames lv; (have hx : Keep ps e lv := ?_); (on_goal 1 => clear_value lv); on_goal 2 => subst lv)
    | (extract_lets +onlyGivenNames lv; clear_value lv)
    | extract_lets +onlyGivenNames lv
    | with_reducible refine Keep.ite ?_ ?_
    | split

theorem Dev.xdTimeout_keep {ps : List Part} {e d : Dev} (h : Keep ps e d) (hout : .out ∈ ps) (hhub : .hub ∈ ps) (a0 a1 a2) : Keep ps e (Dev.xdTimeout a0 a1 a2 d) := by
  unfold Dev.xdTimeout
  repeat' first
    | with_reducible assumption
    | with_reducible refine Dev.answer_keep ?_ ‹_› _ _
    | with_reducible refine Dev.xdFail_keep ?_ ‹_› _ _
    | (extract_lets +onlyGivenNames lv; (have hx : Keep ps e lv := ?_); (on_goal 1 => clear_value lv); on_goal 2 => subst lv)
    | (extract_lets +onlyGivenNames lv; clear_value lv)
    | extract_lets +onlyGivenNames lv
    | with_reducible refine Keep.ite ?_ ?_
    | split

theorem StrongKept.provision {s : Strong} {o : Tbl OwnerKey} {x y : Bool} (h : s.life = .blank) :
    StrongKept s { s with owner := o, ml65 := x, plainkey := y } :=
  ⟨id, rfl, BitVec.le_refl _, BitVec.le_refl _, BitVec.le_refl _, id, id, fun hn => absurd h hn⟩

theorem StrongKept.ageing {s : Strong} (h : ¬ 16 ≤ s.cycles.toNat) : StrongKept s { s with cycles := s.cycles + 1 } :=
  ⟨id, rfl, BitVec.le_refl _, BitVec.le_refl _, by rw [BitVec.le_def, BitVec.toNat_add]; simp; omega, id, id, fun _ _ => id⟩

theorem StrongKept.revoke (s : Strong) (k : Nat) :
    StrongKept s { s with owner := Tbl.modify {} s.owner k fun x => { x with revoked := true } } := by
  refine ⟨id, rfl, BitVec.le_refl _, BitVec.le_refl _, BitVec.le_refl _, id, id, fun _ j hj => ?_⟩
  have hne : ({ Tbl.get ({} : OwnerKey) s.owner k with revoked := true } : OwnerKey) ≠ {} := fun h => by
    have := congrArg OwnerKey.revoked h
    cases this
  unfold Tbl.modify
  by_cases hk : j = k
  · rw [hk, Tbl.get_set_same _ _ _ _]
  · rw [Tbl.get_set_other _ _ _ _ _ hk]; exact hj

theorem StrongKept.arbFw {s : Strong} {n : Nat} (h : s.arbFw.toNat < n) (h' : n ≤ 64) : StrongKept s { s with arbFw := BitVec.ofNat 8 n } :=
  ⟨id, rfl, by rw [BitVec.le_def, BitVec.toNat_ofNat]; omega, BitVec.le_refl _, BitVec.le_refl _, id, id, fun _ _ => id⟩

theorem StrongKept.arbOwner {s : Strong} {n : Nat} (h : s.arbOwner.toNat < n) (h' : n ≤ 64) :
    StrongKept s { s with arbOwner := BitVec.ofNat 8 n } :=
  ⟨id, rfl, BitVec.le_refl _, by rw [BitVec.le_def, BitVec.toNat_ofNat]; omega, BitVec.le_refl _, id, id, fun _ _ => id⟩

theorem cmdFrom_life {c : Nat} {l : Life} (h : cmdFrom c l = true) : l ≠ .decommissioned ∧ (c = 1 → l = .blank) := by
  unfold cmdFrom at h
  split at h <;> first | (cases h; done) | simp

/-- ARB_ADVANCE raises the value it names, to at most 64 (R432). -/
theorem Dev.arbRule {d : Dev} {k : Nat} {body : Bytes} (h : d.cmdRuleBad 6 k body = false) :
    leAt body 1 1 ≤ 64 ∧ (leAt body 0 1 = 0 → d.strong.arbFw.toNat < leAt body 1 1) ∧ (leAt body 0 1 ≠ 0 → d.strong.arbOwner.toNat < leAt body 1 1) := by
  unfold Dev.cmdRuleBad at h
  dsimp only at h
  simp only [Bool.or_eq_false_iff, decide_eq_false_iff_not] at h
  obtain ⟨⟨⟨_, h1⟩, h2⟩, _⟩ := h
  refine ⟨by omega, fun h0 => ?_, fun h0 => ?_⟩
  · rw [if_pos h0] at h1; omega
  · rw [if_neg h0] at h1; omega

theorem Dev.returnRule {d : Dev} {k : Nat} {body : Bytes} (h : d.cmdRuleBad 3 k body = false) : ¬ 16 ≤ d.strong.cycles.toNat := by
  unfold Dev.cmdRuleBad at h
  simpa using h

end Sys2Proof.Machine
end

