-- ==== Sys2Proof/Laws/State.lean ====
section
/-! SUPPORT. What each shared update of the device does to each field: one lemma per field and update. -/

namespace Sys2Proof.Machine
open Sys2Proof

-- emit
@[simp] theorem Dev.emit_now (d : Dev) (o : Output) : (d.emit o).now = d.now := rfl
@[simp] theorem Dev.emit_free (d : Dev) (o : Output) : (d.emit o).free = d.free := rfl
@[simp] theorem Dev.emit_out (d : Dev) (o : Output) : (d.emit o).out = o :: d.out := rfl
@[simp] theorem Dev.emit_events (d : Dev) (o : Output) : (d.emit o).events = d.events := rfl
@[simp] theorem Dev.emit_ident (d : Dev) (o : Output) : (d.emit o).ident = d.ident := rfl
@[simp] theorem Dev.emit_flash (d : Dev) (o : Output) : (d.emit o).flash = d.flash := rfl
@[simp] theorem Dev.emit_rooms (d : Dev) (o : Output) : (d.emit o).rooms = d.rooms := rfl
@[simp] theorem Dev.emit_funcs (d : Dev) (o : Output) : (d.emit o).funcs = d.funcs := rfl
@[simp] theorem Dev.emit_net (d : Dev) (o : Output) : (d.emit o).net = d.net := rfl
@[simp] theorem Dev.emit_cellar (d : Dev) (o : Output) : (d.emit o).cellar = d.cellar := rfl
@[simp] theorem Dev.emit_media (d : Dev) (o : Output) : (d.emit o).media = d.media := rfl
@[simp] theorem Dev.emit_time (d : Dev) (o : Output) : (d.emit o).time = d.time := rfl
@[simp] theorem Dev.emit_link (d : Dev) (o : Output) : (d.emit o).link = d.link := rfl
@[simp] theorem Dev.emit_fabric (d : Dev) (o : Output) : (d.emit o).fabric = d.fabric := rfl
@[simp] theorem Dev.emit_loader (d : Dev) (o : Output) : (d.emit o).loader = d.loader := rfl
@[simp] theorem Dev.emit_rings (d : Dev) (o : Output) : (d.emit o).rings = d.rings := rfl
@[simp] theorem Dev.emit_cores (d : Dev) (o : Output) : (d.emit o).cores = d.cores := rfl
@[simp] theorem Dev.emit_sched (d : Dev) (o : Output) : (d.emit o).sched = d.sched := rfl
@[simp] theorem Dev.emit_record (d : Dev) (o : Output) : (d.emit o).record = d.record := rfl
@[simp] theorem Dev.emit_fwres (d : Dev) (o : Output) : (d.emit o).fwres = d.fwres := rfl
@[simp] theorem Dev.emit_acq (d : Dev) (o : Output) : (d.emit o).acq = d.acq := rfl
@[simp] theorem Dev.emit_fuse (d : Dev) (o : Output) : (d.emit o).fuse = d.fuse := rfl
@[simp] theorem Dev.emit_strong (d : Dev) (o : Output) : (d.emit o).strong = d.strong := rfl
@[simp] theorem Dev.emit_hub (d : Dev) (o : Output) : (d.emit o).hub = d.hub := rfl
@[simp] theorem Dev.emit_power (d : Dev) (o : Output) : (d.emit o).power = d.power := rfl
@[simp] theorem Dev.emit_tap (d : Dev) (o : Output) : (d.emit o).tap = d.tap := rfl

-- take
@[simp] theorem Dev.take_now (d : Dev) (n : Nat) : (d.take n).now = d.now := rfl
@[simp] theorem Dev.take_free (d : Dev) (n : Nat) : (d.take n).free = d.free + n := rfl
@[simp] theorem Dev.take_out (d : Dev) (n : Nat) : (d.take n).out = d.out := rfl
@[simp] theorem Dev.take_events (d : Dev) (n : Nat) : (d.take n).events = d.events := rfl
@[simp] theorem Dev.take_ident (d : Dev) (n : Nat) : (d.take n).ident = d.ident := rfl
@[simp] theorem Dev.take_flash (d : Dev) (n : Nat) : (d.take n).flash = d.flash := rfl
@[simp] theorem Dev.take_rooms (d : Dev) (n : Nat) : (d.take n).rooms = d.rooms := rfl
@[simp] theorem Dev.take_funcs (d : Dev) (n : Nat) : (d.take n).funcs = d.funcs := rfl
@[simp] theorem Dev.take_net (d : Dev) (n : Nat) : (d.take n).net = d.net := rfl
@[simp] theorem Dev.take_cellar (d : Dev) (n : Nat) : (d.take n).cellar = d.cellar := rfl
@[simp] theorem Dev.take_media (d : Dev) (n : Nat) : (d.take n).media = d.media := rfl
@[simp] theorem Dev.take_time (d : Dev) (n : Nat) : (d.take n).time = d.time := rfl
@[simp] theorem Dev.take_link (d : Dev) (n : Nat) : (d.take n).link = d.link := rfl
@[simp] theorem Dev.take_fabric (d : Dev) (n : Nat) : (d.take n).fabric = d.fabric := rfl
@[simp] theorem Dev.take_loader (d : Dev) (n : Nat) : (d.take n).loader = d.loader := rfl
@[simp] theorem Dev.take_rings (d : Dev) (n : Nat) : (d.take n).rings = d.rings := rfl
@[simp] theorem Dev.take_cores (d : Dev) (n : Nat) : (d.take n).cores = d.cores := rfl
@[simp] theorem Dev.take_sched (d : Dev) (n : Nat) : (d.take n).sched = d.sched := rfl
@[simp] theorem Dev.take_record (d : Dev) (n : Nat) : (d.take n).record = d.record := rfl
@[simp] theorem Dev.take_fwres (d : Dev) (n : Nat) : (d.take n).fwres = d.fwres := rfl
@[simp] theorem Dev.take_acq (d : Dev) (n : Nat) : (d.take n).acq = d.acq := rfl
@[simp] theorem Dev.take_fuse (d : Dev) (n : Nat) : (d.take n).fuse = d.fuse := rfl
@[simp] theorem Dev.take_strong (d : Dev) (n : Nat) : (d.take n).strong = d.strong := rfl
@[simp] theorem Dev.take_hub (d : Dev) (n : Nat) : (d.take n).hub = d.hub := rfl
@[simp] theorem Dev.take_power (d : Dev) (n : Nat) : (d.take n).power = d.power := rfl
@[simp] theorem Dev.take_tap (d : Dev) (n : Nat) : (d.take n).tap = d.tap := rfl

-- tick
@[simp] theorem Dev.tick_now (d : Dev) : (d.tick).now = d.now + d.time.incr := rfl
@[simp] theorem Dev.tick_free (d : Dev) : (d.tick).free = d.free := rfl
@[simp] theorem Dev.tick_out (d : Dev) : (d.tick).out = d.out := rfl
@[simp] theorem Dev.tick_events (d : Dev) : (d.tick).events = d.events := rfl
@[simp] theorem Dev.tick_ident (d : Dev) : (d.tick).ident = d.ident := rfl
@[simp] theorem Dev.tick_flash (d : Dev) : (d.tick).flash = d.flash := rfl
@[simp] theorem Dev.tick_rooms (d : Dev) : (d.tick).rooms = d.rooms := rfl
@[simp] theorem Dev.tick_funcs (d : Dev) : (d.tick).funcs = d.funcs := rfl
@[simp] theorem Dev.tick_net (d : Dev) : (d.tick).net = d.net := rfl
@[simp] theorem Dev.tick_cellar (d : Dev) : (d.tick).cellar = d.cellar := rfl
@[simp] theorem Dev.tick_media (d : Dev) : (d.tick).media = d.media := rfl
@[simp] theorem Dev.tick_time (d : Dev) : (d.tick).time = d.time := rfl
@[simp] theorem Dev.tick_link (d : Dev) : (d.tick).link = d.link := rfl
@[simp] theorem Dev.tick_fabric (d : Dev) : (d.tick).fabric = d.fabric := rfl
@[simp] theorem Dev.tick_loader (d : Dev) : (d.tick).loader = d.loader := rfl
@[simp] theorem Dev.tick_rings (d : Dev) : (d.tick).rings = d.rings := rfl
@[simp] theorem Dev.tick_cores (d : Dev) : (d.tick).cores = d.cores := rfl
@[simp] theorem Dev.tick_sched (d : Dev) : (d.tick).sched = d.sched := rfl
@[simp] theorem Dev.tick_record (d : Dev) : (d.tick).record = d.record := rfl
@[simp] theorem Dev.tick_fwres (d : Dev) : (d.tick).fwres = d.fwres := rfl
@[simp] theorem Dev.tick_acq (d : Dev) : (d.tick).acq = d.acq := rfl
@[simp] theorem Dev.tick_fuse (d : Dev) : (d.tick).fuse = d.fuse := rfl
@[simp] theorem Dev.tick_strong (d : Dev) : (d.tick).strong = d.strong := rfl
@[simp] theorem Dev.tick_hub (d : Dev) : (d.tick).hub = d.hub := rfl
@[simp] theorem Dev.tick_power (d : Dev) : (d.tick).power = d.power := rfl
@[simp] theorem Dev.tick_tap (d : Dev) : (d.tick).tap = d.tap := rfl

-- raiseAt
@[simp] theorem Dev.raiseAt_now (d : Dev) (ev : Nat) (ts : Instant) (n : Nat) : (d.raiseAt ev ts n).now = d.now := rfl
@[simp] theorem Dev.raiseAt_free (d : Dev) (ev : Nat) (ts : Instant) (n : Nat) : (d.raiseAt ev ts n).free = d.free := rfl
@[simp] theorem Dev.raiseAt_out (d : Dev) (ev : Nat) (ts : Instant) (n : Nat) : (d.raiseAt ev ts n).out = d.out := rfl
@[simp] theorem Dev.raiseAt_events (d : Dev) (ev : Nat) (ts : Instant) (n : Nat) : (d.raiseAt ev ts n).events = d.events ++ [{ ev := BitVec.ofNat 10 ev, ts := ts, detail := BitVec.ofNat 64 n, beat := d.beatAt ts }] := rfl
@[simp] theorem Dev.raiseAt_ident (d : Dev) (ev : Nat) (ts : Instant) (n : Nat) : (d.raiseAt ev ts n).ident = d.ident := rfl
@[simp] theorem Dev.raiseAt_flash (d : Dev) (ev : Nat) (ts : Instant) (n : Nat) : (d.raiseAt ev ts n).flash = d.flash := rfl
@[simp] theorem Dev.raiseAt_rooms (d : Dev) (ev : Nat) (ts : Instant) (n : Nat) : (d.raiseAt ev ts n).rooms = d.rooms := rfl
@[simp] theorem Dev.raiseAt_funcs (d : Dev) (ev : Nat) (ts : Instant) (n : Nat) : (d.raiseAt ev ts n).funcs = d.funcs := rfl
@[simp] theorem Dev.raiseAt_net (d : Dev) (ev : Nat) (ts : Instant) (n : Nat) : (d.raiseAt ev ts n).net = d.net := rfl
@[simp] theorem Dev.raiseAt_cellar (d : Dev) (ev : Nat) (ts : Instant) (n : Nat) : (d.raiseAt ev ts n).cellar = d.cellar := rfl
@[simp] theorem Dev.raiseAt_media (d : Dev) (ev : Nat) (ts : Instant) (n : Nat) : (d.raiseAt ev ts n).media = d.media := rfl
@[simp] theorem Dev.raiseAt_time (d : Dev) (ev : Nat) (ts : Instant) (n : Nat) : (d.raiseAt ev ts n).time = d.time := rfl
@[simp] theorem Dev.raiseAt_link (d : Dev) (ev : Nat) (ts : Instant) (n : Nat) : (d.raiseAt ev ts n).link = d.link := rfl
@[simp] theorem Dev.raiseAt_fabric (d : Dev) (ev : Nat) (ts : Instant) (n : Nat) : (d.raiseAt ev ts n).fabric = d.fabric := rfl
@[simp] theorem Dev.raiseAt_loader (d : Dev) (ev : Nat) (ts : Instant) (n : Nat) : (d.raiseAt ev ts n).loader = d.loader := rfl
@[simp] theorem Dev.raiseAt_rings (d : Dev) (ev : Nat) (ts : Instant) (n : Nat) : (d.raiseAt ev ts n).rings = d.rings := rfl
@[simp] theorem Dev.raiseAt_cores (d : Dev) (ev : Nat) (ts : Instant) (n : Nat) : (d.raiseAt ev ts n).cores = d.cores := rfl
@[simp] theorem Dev.raiseAt_sched (d : Dev) (ev : Nat) (ts : Instant) (n : Nat) : (d.raiseAt ev ts n).sched = d.sched := rfl
@[simp] theorem Dev.raiseAt_record (d : Dev) (ev : Nat) (ts : Instant) (n : Nat) : (d.raiseAt ev ts n).record = d.record := rfl
@[simp] theorem Dev.raiseAt_fwres (d : Dev) (ev : Nat) (ts : Instant) (n : Nat) : (d.raiseAt ev ts n).fwres = d.fwres := rfl
@[simp] theorem Dev.raiseAt_acq (d : Dev) (ev : Nat) (ts : Instant) (n : Nat) : (d.raiseAt ev ts n).acq = d.acq := rfl
@[simp] theorem Dev.raiseAt_fuse (d : Dev) (ev : Nat) (ts : Instant) (n : Nat) : (d.raiseAt ev ts n).fuse = d.fuse := rfl
@[simp] theorem Dev.raiseAt_strong (d : Dev) (ev : Nat) (ts : Instant) (n : Nat) : (d.raiseAt ev ts n).strong = d.strong := rfl
@[simp] theorem Dev.raiseAt_hub (d : Dev) (ev : Nat) (ts : Instant) (n : Nat) : (d.raiseAt ev ts n).hub = d.hub := rfl
@[simp] theorem Dev.raiseAt_power (d : Dev) (ev : Nat) (ts : Instant) (n : Nat) : (d.raiseAt ev ts n).power = d.power := rfl
@[simp] theorem Dev.raiseAt_tap (d : Dev) (ev : Nat) (ts : Instant) (n : Nat) : (d.raiseAt ev ts n).tap = d.tap := rfl

-- raise
@[simp] theorem Dev.raise_now (d : Dev) (ev n : Nat) : (d.raise ev n).now = d.now := rfl
@[simp] theorem Dev.raise_free (d : Dev) (ev n : Nat) : (d.raise ev n).free = d.free := rfl
@[simp] theorem Dev.raise_out (d : Dev) (ev n : Nat) : (d.raise ev n).out = d.out := rfl
@[simp] theorem Dev.raise_events (d : Dev) (ev n : Nat) : (d.raise ev n).events = d.events ++ [{ ev := BitVec.ofNat 10 ev, ts := d.now, detail := BitVec.ofNat 64 n, beat := d.beatAt d.now }] := rfl
@[simp] theorem Dev.raise_ident (d : Dev) (ev n : Nat) : (d.raise ev n).ident = d.ident := rfl
@[simp] theorem Dev.raise_flash (d : Dev) (ev n : Nat) : (d.raise ev n).flash = d.flash := rfl
@[simp] theorem Dev.raise_rooms (d : Dev) (ev n : Nat) : (d.raise ev n).rooms = d.rooms := rfl
@[simp] theorem Dev.raise_funcs (d : Dev) (ev n : Nat) : (d.raise ev n).funcs = d.funcs := rfl
@[simp] theorem Dev.raise_net (d : Dev) (ev n : Nat) : (d.raise ev n).net = d.net := rfl
@[simp] theorem Dev.raise_cellar (d : Dev) (ev n : Nat) : (d.raise ev n).cellar = d.cellar := rfl
@[simp] theorem Dev.raise_media (d : Dev) (ev n : Nat) : (d.raise ev n).media = d.media := rfl
@[simp] theorem Dev.raise_time (d : Dev) (ev n : Nat) : (d.raise ev n).time = d.time := rfl
@[simp] theorem Dev.raise_link (d : Dev) (ev n : Nat) : (d.raise ev n).link = d.link := rfl
@[simp] theorem Dev.raise_fabric (d : Dev) (ev n : Nat) : (d.raise ev n).fabric = d.fabric := rfl
@[simp] theorem Dev.raise_loader (d : Dev) (ev n : Nat) : (d.raise ev n).loader = d.loader := rfl
@[simp] theorem Dev.raise_rings (d : Dev) (ev n : Nat) : (d.raise ev n).rings = d.rings := rfl
@[simp] theorem Dev.raise_cores (d : Dev) (ev n : Nat) : (d.raise ev n).cores = d.cores := rfl
@[simp] theorem Dev.raise_sched (d : Dev) (ev n : Nat) : (d.raise ev n).sched = d.sched := rfl
@[simp] theorem Dev.raise_record (d : Dev) (ev n : Nat) : (d.raise ev n).record = d.record := rfl
@[simp] theorem Dev.raise_fwres (d : Dev) (ev n : Nat) : (d.raise ev n).fwres = d.fwres := rfl
@[simp] theorem Dev.raise_acq (d : Dev) (ev n : Nat) : (d.raise ev n).acq = d.acq := rfl
@[simp] theorem Dev.raise_fuse (d : Dev) (ev n : Nat) : (d.raise ev n).fuse = d.fuse := rfl
@[simp] theorem Dev.raise_strong (d : Dev) (ev n : Nat) : (d.raise ev n).strong = d.strong := rfl
@[simp] theorem Dev.raise_hub (d : Dev) (ev n : Nat) : (d.raise ev n).hub = d.hub := rfl
@[simp] theorem Dev.raise_power (d : Dev) (ev n : Nat) : (d.raise ev n).power = d.power := rfl
@[simp] theorem Dev.raise_tap (d : Dev) (ev n : Nat) : (d.raise ev n).tap = d.tap := rfl

-- setRoom
@[simp] theorem Dev.setRoom_now (d : Dev) (r : RoomId) (x : Room) : (d.setRoom r x).now = d.now := rfl
@[simp] theorem Dev.setRoom_free (d : Dev) (r : RoomId) (x : Room) : (d.setRoom r x).free = d.free := rfl
@[simp] theorem Dev.setRoom_out (d : Dev) (r : RoomId) (x : Room) : (d.setRoom r x).out = d.out := rfl
@[simp] theorem Dev.setRoom_events (d : Dev) (r : RoomId) (x : Room) : (d.setRoom r x).events = d.events := rfl
@[simp] theorem Dev.setRoom_ident (d : Dev) (r : RoomId) (x : Room) : (d.setRoom r x).ident = d.ident := rfl
@[simp] theorem Dev.setRoom_flash (d : Dev) (r : RoomId) (x : Room) : (d.setRoom r x).flash = d.flash := rfl
@[simp] theorem Dev.setRoom_rooms (d : Dev) (r : RoomId) (x : Room) : (d.setRoom r x).rooms = Tbl.set {} d.rooms r.toNat x := rfl
@[simp] theorem Dev.setRoom_funcs (d : Dev) (r : RoomId) (x : Room) : (d.setRoom r x).funcs = d.funcs := rfl
@[simp] theorem Dev.setRoom_net (d : Dev) (r : RoomId) (x : Room) : (d.setRoom r x).net = d.net := rfl
@[simp] theorem Dev.setRoom_cellar (d : Dev) (r : RoomId) (x : Room) : (d.setRoom r x).cellar = d.cellar := rfl
@[simp] theorem Dev.setRoom_media (d : Dev) (r : RoomId) (x : Room) : (d.setRoom r x).media = d.media := rfl
@[simp] theorem Dev.setRoom_time (d : Dev) (r : RoomId) (x : Room) : (d.setRoom r x).time = d.time := rfl
@[simp] theorem Dev.setRoom_link (d : Dev) (r : RoomId) (x : Room) : (d.setRoom r x).link = d.link := rfl
@[simp] theorem Dev.setRoom_fabric (d : Dev) (r : RoomId) (x : Room) : (d.setRoom r x).fabric = d.fabric := rfl
@[simp] theorem Dev.setRoom_loader (d : Dev) (r : RoomId) (x : Room) : (d.setRoom r x).loader = d.loader := rfl
@[simp] theorem Dev.setRoom_rings (d : Dev) (r : RoomId) (x : Room) : (d.setRoom r x).rings = d.rings := rfl
@[simp] theorem Dev.setRoom_cores (d : Dev) (r : RoomId) (x : Room) : (d.setRoom r x).cores = d.cores := rfl
@[simp] theorem Dev.setRoom_sched (d : Dev) (r : RoomId) (x : Room) : (d.setRoom r x).sched = d.sched := rfl
@[simp] theorem Dev.setRoom_record (d : Dev) (r : RoomId) (x : Room) : (d.setRoom r x).record = d.record := rfl
@[simp] theorem Dev.setRoom_fwres (d : Dev) (r : RoomId) (x : Room) : (d.setRoom r x).fwres = d.fwres := rfl
@[simp] theorem Dev.setRoom_acq (d : Dev) (r : RoomId) (x : Room) : (d.setRoom r x).acq = d.acq := rfl
@[simp] theorem Dev.setRoom_fuse (d : Dev) (r : RoomId) (x : Room) : (d.setRoom r x).fuse = d.fuse := rfl
@[simp] theorem Dev.setRoom_strong (d : Dev) (r : RoomId) (x : Room) : (d.setRoom r x).strong = d.strong := rfl
@[simp] theorem Dev.setRoom_hub (d : Dev) (r : RoomId) (x : Room) : (d.setRoom r x).hub = d.hub := rfl
@[simp] theorem Dev.setRoom_power (d : Dev) (r : RoomId) (x : Room) : (d.setRoom r x).power = d.power := rfl
@[simp] theorem Dev.setRoom_tap (d : Dev) (r : RoomId) (x : Room) : (d.setRoom r x).tap = d.tap := rfl

-- modRoom
@[simp] theorem Dev.modRoom_now (d : Dev) (r : RoomId) (f : Room → Room) : (d.modRoom r f).now = d.now := rfl
@[simp] theorem Dev.modRoom_free (d : Dev) (r : RoomId) (f : Room → Room) : (d.modRoom r f).free = d.free := rfl
@[simp] theorem Dev.modRoom_out (d : Dev) (r : RoomId) (f : Room → Room) : (d.modRoom r f).out = d.out := rfl
@[simp] theorem Dev.modRoom_events (d : Dev) (r : RoomId) (f : Room → Room) : (d.modRoom r f).events = d.events := rfl
@[simp] theorem Dev.modRoom_ident (d : Dev) (r : RoomId) (f : Room → Room) : (d.modRoom r f).ident = d.ident := rfl
@[simp] theorem Dev.modRoom_flash (d : Dev) (r : RoomId) (f : Room → Room) : (d.modRoom r f).flash = d.flash := rfl
@[simp] theorem Dev.modRoom_rooms (d : Dev) (r : RoomId) (f : Room → Room) : (d.modRoom r f).rooms = Tbl.set {} d.rooms r.toNat (f (d.room r)) := rfl
@[simp] theorem Dev.modRoom_funcs (d : Dev) (r : RoomId) (f : Room → Room) : (d.modRoom r f).funcs = d.funcs := rfl
@[simp] theorem Dev.modRoom_net (d : Dev) (r : RoomId) (f : Room → Room) : (d.modRoom r f).net = d.net := rfl
@[simp] theorem Dev.modRoom_cellar (d : Dev) (r : RoomId) (f : Room → Room) : (d.modRoom r f).cellar = d.cellar := rfl
@[simp] theorem Dev.modRoom_media (d : Dev) (r : RoomId) (f : Room → Room) : (d.modRoom r f).media = d.media := rfl
@[simp] theorem Dev.modRoom_time (d : Dev) (r : RoomId) (f : Room → Room) : (d.modRoom r f).time = d.time := rfl
@[simp] theorem Dev.modRoom_link (d : Dev) (r : RoomId) (f : Room → Room) : (d.modRoom r f).link = d.link := rfl
@[simp] theorem Dev.modRoom_fabric (d : Dev) (r : RoomId) (f : Room → Room) : (d.modRoom r f).fabric = d.fabric := rfl
@[simp] theorem Dev.modRoom_loader (d : Dev) (r : RoomId) (f : Room → Room) : (d.modRoom r f).loader = d.loader := rfl
@[simp] theorem Dev.modRoom_rings (d : Dev) (r : RoomId) (f : Room → Room) : (d.modRoom r f).rings = d.rings := rfl
@[simp] theorem Dev.modRoom_cores (d : Dev) (r : RoomId) (f : Room → Room) : (d.modRoom r f).cores = d.cores := rfl
@[simp] theorem Dev.modRoom_sched (d : Dev) (r : RoomId) (f : Room → Room) : (d.modRoom r f).sched = d.sched := rfl
@[simp] theorem Dev.modRoom_record (d : Dev) (r : RoomId) (f : Room → Room) : (d.modRoom r f).record = d.record := rfl
@[simp] theorem Dev.modRoom_fwres (d : Dev) (r : RoomId) (f : Room → Room) : (d.modRoom r f).fwres = d.fwres := rfl
@[simp] theorem Dev.modRoom_acq (d : Dev) (r : RoomId) (f : Room → Room) : (d.modRoom r f).acq = d.acq := rfl
@[simp] theorem Dev.modRoom_fuse (d : Dev) (r : RoomId) (f : Room → Room) : (d.modRoom r f).fuse = d.fuse := rfl
@[simp] theorem Dev.modRoom_strong (d : Dev) (r : RoomId) (f : Room → Room) : (d.modRoom r f).strong = d.strong := rfl
@[simp] theorem Dev.modRoom_hub (d : Dev) (r : RoomId) (f : Room → Room) : (d.modRoom r f).hub = d.hub := rfl
@[simp] theorem Dev.modRoom_power (d : Dev) (r : RoomId) (f : Room → Room) : (d.modRoom r f).power = d.power := rfl
@[simp] theorem Dev.modRoom_tap (d : Dev) (r : RoomId) (f : Room → Room) : (d.modRoom r f).tap = d.tap := rfl

-- modFunc
@[simp] theorem Dev.modFunc_now (d : Dev) (i : FuncId) (g : Func → Func) : (d.modFunc i g).now = d.now := rfl
@[simp] theorem Dev.modFunc_free (d : Dev) (i : FuncId) (g : Func → Func) : (d.modFunc i g).free = d.free := rfl
@[simp] theorem Dev.modFunc_out (d : Dev) (i : FuncId) (g : Func → Func) : (d.modFunc i g).out = d.out := rfl
@[simp] theorem Dev.modFunc_events (d : Dev) (i : FuncId) (g : Func → Func) : (d.modFunc i g).events = d.events := rfl
@[simp] theorem Dev.modFunc_ident (d : Dev) (i : FuncId) (g : Func → Func) : (d.modFunc i g).ident = d.ident := rfl
@[simp] theorem Dev.modFunc_flash (d : Dev) (i : FuncId) (g : Func → Func) : (d.modFunc i g).flash = d.flash := rfl
@[simp] theorem Dev.modFunc_rooms (d : Dev) (i : FuncId) (g : Func → Func) : (d.modFunc i g).rooms = d.rooms := rfl
@[simp] theorem Dev.modFunc_funcs (d : Dev) (i : FuncId) (g : Func → Func) : (d.modFunc i g).funcs = d.funcs.map fun x => if x.id = i then g x else x := rfl
@[simp] theorem Dev.modFunc_net (d : Dev) (i : FuncId) (g : Func → Func) : (d.modFunc i g).net = d.net := rfl
@[simp] theorem Dev.modFunc_cellar (d : Dev) (i : FuncId) (g : Func → Func) : (d.modFunc i g).cellar = d.cellar := rfl
@[simp] theorem Dev.modFunc_media (d : Dev) (i : FuncId) (g : Func → Func) : (d.modFunc i g).media = d.media := rfl
@[simp] theorem Dev.modFunc_time (d : Dev) (i : FuncId) (g : Func → Func) : (d.modFunc i g).time = d.time := rfl
@[simp] theorem Dev.modFunc_link (d : Dev) (i : FuncId) (g : Func → Func) : (d.modFunc i g).link = d.link := rfl
@[simp] theorem Dev.modFunc_fabric (d : Dev) (i : FuncId) (g : Func → Func) : (d.modFunc i g).fabric = d.fabric := rfl
@[simp] theorem Dev.modFunc_loader (d : Dev) (i : FuncId) (g : Func → Func) : (d.modFunc i g).loader = d.loader := rfl
@[simp] theorem Dev.modFunc_rings (d : Dev) (i : FuncId) (g : Func → Func) : (d.modFunc i g).rings = d.rings := rfl
@[simp] theorem Dev.modFunc_cores (d : Dev) (i : FuncId) (g : Func → Func) : (d.modFunc i g).cores = d.cores := rfl
@[simp] theorem Dev.modFunc_sched (d : Dev) (i : FuncId) (g : Func → Func) : (d.modFunc i g).sched = d.sched := rfl
@[simp] theorem Dev.modFunc_record (d : Dev) (i : FuncId) (g : Func → Func) : (d.modFunc i g).record = d.record := rfl
@[simp] theorem Dev.modFunc_fwres (d : Dev) (i : FuncId) (g : Func → Func) : (d.modFunc i g).fwres = d.fwres := rfl
@[simp] theorem Dev.modFunc_acq (d : Dev) (i : FuncId) (g : Func → Func) : (d.modFunc i g).acq = d.acq := rfl
@[simp] theorem Dev.modFunc_fuse (d : Dev) (i : FuncId) (g : Func → Func) : (d.modFunc i g).fuse = d.fuse := rfl
@[simp] theorem Dev.modFunc_strong (d : Dev) (i : FuncId) (g : Func → Func) : (d.modFunc i g).strong = d.strong := rfl
@[simp] theorem Dev.modFunc_hub (d : Dev) (i : FuncId) (g : Func → Func) : (d.modFunc i g).hub = d.hub := rfl
@[simp] theorem Dev.modFunc_power (d : Dev) (i : FuncId) (g : Func → Func) : (d.modFunc i g).power = d.power := rfl
@[simp] theorem Dev.modFunc_tap (d : Dev) (i : FuncId) (g : Func → Func) : (d.modFunc i g).tap = d.tap := rfl

-- modNet
@[simp] theorem Dev.modNet_now (d : Dev) (f : Net → Net) : (d.modNet f).now = d.now := rfl
@[simp] theorem Dev.modNet_free (d : Dev) (f : Net → Net) : (d.modNet f).free = d.free := rfl
@[simp] theorem Dev.modNet_out (d : Dev) (f : Net → Net) : (d.modNet f).out = d.out := rfl
@[simp] theorem Dev.modNet_events (d : Dev) (f : Net → Net) : (d.modNet f).events = d.events := rfl
@[simp] theorem Dev.modNet_ident (d : Dev) (f : Net → Net) : (d.modNet f).ident = d.ident := rfl
@[simp] theorem Dev.modNet_flash (d : Dev) (f : Net → Net) : (d.modNet f).flash = d.flash := rfl
@[simp] theorem Dev.modNet_rooms (d : Dev) (f : Net → Net) : (d.modNet f).rooms = d.rooms := rfl
@[simp] theorem Dev.modNet_funcs (d : Dev) (f : Net → Net) : (d.modNet f).funcs = d.funcs := rfl
@[simp] theorem Dev.modNet_net (d : Dev) (f : Net → Net) : (d.modNet f).net = f d.net := rfl
@[simp] theorem Dev.modNet_cellar (d : Dev) (f : Net → Net) : (d.modNet f).cellar = d.cellar := rfl
@[simp] theorem Dev.modNet_media (d : Dev) (f : Net → Net) : (d.modNet f).media = d.media := rfl
@[simp] theorem Dev.modNet_time (d : Dev) (f : Net → Net) : (d.modNet f).time = d.time := rfl
@[simp] theorem Dev.modNet_link (d : Dev) (f : Net → Net) : (d.modNet f).link = d.link := rfl
@[simp] theorem Dev.modNet_fabric (d : Dev) (f : Net → Net) : (d.modNet f).fabric = d.fabric := rfl
@[simp] theorem Dev.modNet_loader (d : Dev) (f : Net → Net) : (d.modNet f).loader = d.loader := rfl
@[simp] theorem Dev.modNet_rings (d : Dev) (f : Net → Net) : (d.modNet f).rings = d.rings := rfl
@[simp] theorem Dev.modNet_cores (d : Dev) (f : Net → Net) : (d.modNet f).cores = d.cores := rfl
@[simp] theorem Dev.modNet_sched (d : Dev) (f : Net → Net) : (d.modNet f).sched = d.sched := rfl
@[simp] theorem Dev.modNet_record (d : Dev) (f : Net → Net) : (d.modNet f).record = d.record := rfl
@[simp] theorem Dev.modNet_fwres (d : Dev) (f : Net → Net) : (d.modNet f).fwres = d.fwres := rfl
@[simp] theorem Dev.modNet_acq (d : Dev) (f : Net → Net) : (d.modNet f).acq = d.acq := rfl
@[simp] theorem Dev.modNet_fuse (d : Dev) (f : Net → Net) : (d.modNet f).fuse = d.fuse := rfl
@[simp] theorem Dev.modNet_strong (d : Dev) (f : Net → Net) : (d.modNet f).strong = d.strong := rfl
@[simp] theorem Dev.modNet_hub (d : Dev) (f : Net → Net) : (d.modNet f).hub = d.hub := rfl
@[simp] theorem Dev.modNet_power (d : Dev) (f : Net → Net) : (d.modNet f).power = d.power := rfl
@[simp] theorem Dev.modNet_tap (d : Dev) (f : Net → Net) : (d.modNet f).tap = d.tap := rfl

-- modCellar
@[simp] theorem Dev.modCellar_now (d : Dev) (f : Cellar → Cellar) : (d.modCellar f).now = d.now := rfl
@[simp] theorem Dev.modCellar_free (d : Dev) (f : Cellar → Cellar) : (d.modCellar f).free = d.free := rfl
@[simp] theorem Dev.modCellar_out (d : Dev) (f : Cellar → Cellar) : (d.modCellar f).out = d.out := rfl
@[simp] theorem Dev.modCellar_events (d : Dev) (f : Cellar → Cellar) : (d.modCellar f).events = d.events := rfl
@[simp] theorem Dev.modCellar_ident (d : Dev) (f : Cellar → Cellar) : (d.modCellar f).ident = d.ident := rfl
@[simp] theorem Dev.modCellar_flash (d : Dev) (f : Cellar → Cellar) : (d.modCellar f).flash = d.flash := rfl
@[simp] theorem Dev.modCellar_rooms (d : Dev) (f : Cellar → Cellar) : (d.modCellar f).rooms = d.rooms := rfl
@[simp] theorem Dev.modCellar_funcs (d : Dev) (f : Cellar → Cellar) : (d.modCellar f).funcs = d.funcs := rfl
@[simp] theorem Dev.modCellar_net (d : Dev) (f : Cellar → Cellar) : (d.modCellar f).net = d.net := rfl
@[simp] theorem Dev.modCellar_cellar (d : Dev) (f : Cellar → Cellar) : (d.modCellar f).cellar = f d.cellar := rfl
@[simp] theorem Dev.modCellar_media (d : Dev) (f : Cellar → Cellar) : (d.modCellar f).media = d.media := rfl
@[simp] theorem Dev.modCellar_time (d : Dev) (f : Cellar → Cellar) : (d.modCellar f).time = d.time := rfl
@[simp] theorem Dev.modCellar_link (d : Dev) (f : Cellar → Cellar) : (d.modCellar f).link = d.link := rfl
@[simp] theorem Dev.modCellar_fabric (d : Dev) (f : Cellar → Cellar) : (d.modCellar f).fabric = d.fabric := rfl
@[simp] theorem Dev.modCellar_loader (d : Dev) (f : Cellar → Cellar) : (d.modCellar f).loader = d.loader := rfl
@[simp] theorem Dev.modCellar_rings (d : Dev) (f : Cellar → Cellar) : (d.modCellar f).rings = d.rings := rfl
@[simp] theorem Dev.modCellar_cores (d : Dev) (f : Cellar → Cellar) : (d.modCellar f).cores = d.cores := rfl
@[simp] theorem Dev.modCellar_sched (d : Dev) (f : Cellar → Cellar) : (d.modCellar f).sched = d.sched := rfl
@[simp] theorem Dev.modCellar_record (d : Dev) (f : Cellar → Cellar) : (d.modCellar f).record = d.record := rfl
@[simp] theorem Dev.modCellar_fwres (d : Dev) (f : Cellar → Cellar) : (d.modCellar f).fwres = d.fwres := rfl
@[simp] theorem Dev.modCellar_acq (d : Dev) (f : Cellar → Cellar) : (d.modCellar f).acq = d.acq := rfl
@[simp] theorem Dev.modCellar_fuse (d : Dev) (f : Cellar → Cellar) : (d.modCellar f).fuse = d.fuse := rfl
@[simp] theorem Dev.modCellar_strong (d : Dev) (f : Cellar → Cellar) : (d.modCellar f).strong = d.strong := rfl
@[simp] theorem Dev.modCellar_hub (d : Dev) (f : Cellar → Cellar) : (d.modCellar f).hub = d.hub := rfl
@[simp] theorem Dev.modCellar_power (d : Dev) (f : Cellar → Cellar) : (d.modCellar f).power = d.power := rfl
@[simp] theorem Dev.modCellar_tap (d : Dev) (f : Cellar → Cellar) : (d.modCellar f).tap = d.tap := rfl

-- modMedia
@[simp] theorem Dev.modMedia_now (d : Dev) (f : Media → Media) : (d.modMedia f).now = d.now := rfl
@[simp] theorem Dev.modMedia_free (d : Dev) (f : Media → Media) : (d.modMedia f).free = d.free := rfl
@[simp] theorem Dev.modMedia_out (d : Dev) (f : Media → Media) : (d.modMedia f).out = d.out := rfl
@[simp] theorem Dev.modMedia_events (d : Dev) (f : Media → Media) : (d.modMedia f).events = d.events := rfl
@[simp] theorem Dev.modMedia_ident (d : Dev) (f : Media → Media) : (d.modMedia f).ident = d.ident := rfl
@[simp] theorem Dev.modMedia_flash (d : Dev) (f : Media → Media) : (d.modMedia f).flash = d.flash := rfl
@[simp] theorem Dev.modMedia_rooms (d : Dev) (f : Media → Media) : (d.modMedia f).rooms = d.rooms := rfl
@[simp] theorem Dev.modMedia_funcs (d : Dev) (f : Media → Media) : (d.modMedia f).funcs = d.funcs := rfl
@[simp] theorem Dev.modMedia_net (d : Dev) (f : Media → Media) : (d.modMedia f).net = d.net := rfl
@[simp] theorem Dev.modMedia_cellar (d : Dev) (f : Media → Media) : (d.modMedia f).cellar = d.cellar := rfl
@[simp] theorem Dev.modMedia_media (d : Dev) (f : Media → Media) : (d.modMedia f).media = f d.media := rfl
@[simp] theorem Dev.modMedia_time (d : Dev) (f : Media → Media) : (d.modMedia f).time = d.time := rfl
@[simp] theorem Dev.modMedia_link (d : Dev) (f : Media → Media) : (d.modMedia f).link = d.link := rfl
@[simp] theorem Dev.modMedia_fabric (d : Dev) (f : Media → Media) : (d.modMedia f).fabric = d.fabric := rfl
@[simp] theorem Dev.modMedia_loader (d : Dev) (f : Media → Media) : (d.modMedia f).loader = d.loader := rfl
@[simp] theorem Dev.modMedia_rings (d : Dev) (f : Media → Media) : (d.modMedia f).rings = d.rings := rfl
@[simp] theorem Dev.modMedia_cores (d : Dev) (f : Media → Media) : (d.modMedia f).cores = d.cores := rfl
@[simp] theorem Dev.modMedia_sched (d : Dev) (f : Media → Media) : (d.modMedia f).sched = d.sched := rfl
@[simp] theorem Dev.modMedia_record (d : Dev) (f : Media → Media) : (d.modMedia f).record = d.record := rfl
@[simp] theorem Dev.modMedia_fwres (d : Dev) (f : Media → Media) : (d.modMedia f).fwres = d.fwres := rfl
@[simp] theorem Dev.modMedia_acq (d : Dev) (f : Media → Media) : (d.modMedia f).acq = d.acq := rfl
@[simp] theorem Dev.modMedia_fuse (d : Dev) (f : Media → Media) : (d.modMedia f).fuse = d.fuse := rfl
@[simp] theorem Dev.modMedia_strong (d : Dev) (f : Media → Media) : (d.modMedia f).strong = d.strong := rfl
@[simp] theorem Dev.modMedia_hub (d : Dev) (f : Media → Media) : (d.modMedia f).hub = d.hub := rfl
@[simp] theorem Dev.modMedia_power (d : Dev) (f : Media → Media) : (d.modMedia f).power = d.power := rfl
@[simp] theorem Dev.modMedia_tap (d : Dev) (f : Media → Media) : (d.modMedia f).tap = d.tap := rfl

-- modTime
@[simp] theorem Dev.modTime_now (d : Dev) (f : TimeUnit → TimeUnit) : (d.modTime f).now = d.now := rfl
@[simp] theorem Dev.modTime_free (d : Dev) (f : TimeUnit → TimeUnit) : (d.modTime f).free = d.free := rfl
@[simp] theorem Dev.modTime_out (d : Dev) (f : TimeUnit → TimeUnit) : (d.modTime f).out = d.out := rfl
@[simp] theorem Dev.modTime_events (d : Dev) (f : TimeUnit → TimeUnit) : (d.modTime f).events = d.events := rfl
@[simp] theorem Dev.modTime_ident (d : Dev) (f : TimeUnit → TimeUnit) : (d.modTime f).ident = d.ident := rfl
@[simp] theorem Dev.modTime_flash (d : Dev) (f : TimeUnit → TimeUnit) : (d.modTime f).flash = d.flash := rfl
@[simp] theorem Dev.modTime_rooms (d : Dev) (f : TimeUnit → TimeUnit) : (d.modTime f).rooms = d.rooms := rfl
@[simp] theorem Dev.modTime_funcs (d : Dev) (f : TimeUnit → TimeUnit) : (d.modTime f).funcs = d.funcs := rfl
@[simp] theorem Dev.modTime_net (d : Dev) (f : TimeUnit → TimeUnit) : (d.modTime f).net = d.net := rfl
@[simp] theorem Dev.modTime_cellar (d : Dev) (f : TimeUnit → TimeUnit) : (d.modTime f).cellar = d.cellar := rfl
@[simp] theorem Dev.modTime_media (d : Dev) (f : TimeUnit → TimeUnit) : (d.modTime f).media = d.media := rfl
@[simp] theorem Dev.modTime_time (d : Dev) (f : TimeUnit → TimeUnit) : (d.modTime f).time = f d.time := rfl
@[simp] theorem Dev.modTime_link (d : Dev) (f : TimeUnit → TimeUnit) : (d.modTime f).link = d.link := rfl
@[simp] theorem Dev.modTime_fabric (d : Dev) (f : TimeUnit → TimeUnit) : (d.modTime f).fabric = d.fabric := rfl
@[simp] theorem Dev.modTime_loader (d : Dev) (f : TimeUnit → TimeUnit) : (d.modTime f).loader = d.loader := rfl
@[simp] theorem Dev.modTime_rings (d : Dev) (f : TimeUnit → TimeUnit) : (d.modTime f).rings = d.rings := rfl
@[simp] theorem Dev.modTime_cores (d : Dev) (f : TimeUnit → TimeUnit) : (d.modTime f).cores = d.cores := rfl
@[simp] theorem Dev.modTime_sched (d : Dev) (f : TimeUnit → TimeUnit) : (d.modTime f).sched = d.sched := rfl
@[simp] theorem Dev.modTime_record (d : Dev) (f : TimeUnit → TimeUnit) : (d.modTime f).record = d.record := rfl
@[simp] theorem Dev.modTime_fwres (d : Dev) (f : TimeUnit → TimeUnit) : (d.modTime f).fwres = d.fwres := rfl
@[simp] theorem Dev.modTime_acq (d : Dev) (f : TimeUnit → TimeUnit) : (d.modTime f).acq = d.acq := rfl
@[simp] theorem Dev.modTime_fuse (d : Dev) (f : TimeUnit → TimeUnit) : (d.modTime f).fuse = d.fuse := rfl
@[simp] theorem Dev.modTime_strong (d : Dev) (f : TimeUnit → TimeUnit) : (d.modTime f).strong = d.strong := rfl
@[simp] theorem Dev.modTime_hub (d : Dev) (f : TimeUnit → TimeUnit) : (d.modTime f).hub = d.hub := rfl
@[simp] theorem Dev.modTime_power (d : Dev) (f : TimeUnit → TimeUnit) : (d.modTime f).power = d.power := rfl
@[simp] theorem Dev.modTime_tap (d : Dev) (f : TimeUnit → TimeUnit) : (d.modTime f).tap = d.tap := rfl

-- modLink
@[simp] theorem Dev.modLink_now (d : Dev) (f : Link → Link) : (d.modLink f).now = d.now := rfl
@[simp] theorem Dev.modLink_free (d : Dev) (f : Link → Link) : (d.modLink f).free = d.free := rfl
@[simp] theorem Dev.modLink_out (d : Dev) (f : Link → Link) : (d.modLink f).out = d.out := rfl
@[simp] theorem Dev.modLink_events (d : Dev) (f : Link → Link) : (d.modLink f).events = d.events := rfl
@[simp] theorem Dev.modLink_ident (d : Dev) (f : Link → Link) : (d.modLink f).ident = d.ident := rfl
@[simp] theorem Dev.modLink_flash (d : Dev) (f : Link → Link) : (d.modLink f).flash = d.flash := rfl
@[simp] theorem Dev.modLink_rooms (d : Dev) (f : Link → Link) : (d.modLink f).rooms = d.rooms := rfl
@[simp] theorem Dev.modLink_funcs (d : Dev) (f : Link → Link) : (d.modLink f).funcs = d.funcs := rfl
@[simp] theorem Dev.modLink_net (d : Dev) (f : Link → Link) : (d.modLink f).net = d.net := rfl
@[simp] theorem Dev.modLink_cellar (d : Dev) (f : Link → Link) : (d.modLink f).cellar = d.cellar := rfl
@[simp] theorem Dev.modLink_media (d : Dev) (f : Link → Link) : (d.modLink f).media = d.media := rfl
@[simp] theorem Dev.modLink_time (d : Dev) (f : Link → Link) : (d.modLink f).time = d.time := rfl
@[simp] theorem Dev.modLink_link (d : Dev) (f : Link → Link) : (d.modLink f).link = f d.link := rfl
@[simp] theorem Dev.modLink_fabric (d : Dev) (f : Link → Link) : (d.modLink f).fabric = d.fabric := rfl
@[simp] theorem Dev.modLink_loader (d : Dev) (f : Link → Link) : (d.modLink f).loader = d.loader := rfl
@[simp] theorem Dev.modLink_rings (d : Dev) (f : Link → Link) : (d.modLink f).rings = d.rings := rfl
@[simp] theorem Dev.modLink_cores (d : Dev) (f : Link → Link) : (d.modLink f).cores = d.cores := rfl
@[simp] theorem Dev.modLink_sched (d : Dev) (f : Link → Link) : (d.modLink f).sched = d.sched := rfl
@[simp] theorem Dev.modLink_record (d : Dev) (f : Link → Link) : (d.modLink f).record = d.record := rfl
@[simp] theorem Dev.modLink_fwres (d : Dev) (f : Link → Link) : (d.modLink f).fwres = d.fwres := rfl
@[simp] theorem Dev.modLink_acq (d : Dev) (f : Link → Link) : (d.modLink f).acq = d.acq := rfl
@[simp] theorem Dev.modLink_fuse (d : Dev) (f : Link → Link) : (d.modLink f).fuse = d.fuse := rfl
@[simp] theorem Dev.modLink_strong (d : Dev) (f : Link → Link) : (d.modLink f).strong = d.strong := rfl
@[simp] theorem Dev.modLink_hub (d : Dev) (f : Link → Link) : (d.modLink f).hub = d.hub := rfl
@[simp] theorem Dev.modLink_power (d : Dev) (f : Link → Link) : (d.modLink f).power = d.power := rfl
@[simp] theorem Dev.modLink_tap (d : Dev) (f : Link → Link) : (d.modLink f).tap = d.tap := rfl

-- modFabric
@[simp] theorem Dev.modFabric_now (d : Dev) (f : Fabric → Fabric) : (d.modFabric f).now = d.now := rfl
@[simp] theorem Dev.modFabric_free (d : Dev) (f : Fabric → Fabric) : (d.modFabric f).free = d.free := rfl
@[simp] theorem Dev.modFabric_out (d : Dev) (f : Fabric → Fabric) : (d.modFabric f).out = d.out := rfl
@[simp] theorem Dev.modFabric_events (d : Dev) (f : Fabric → Fabric) : (d.modFabric f).events = d.events := rfl
@[simp] theorem Dev.modFabric_ident (d : Dev) (f : Fabric → Fabric) : (d.modFabric f).ident = d.ident := rfl
@[simp] theorem Dev.modFabric_flash (d : Dev) (f : Fabric → Fabric) : (d.modFabric f).flash = d.flash := rfl
@[simp] theorem Dev.modFabric_rooms (d : Dev) (f : Fabric → Fabric) : (d.modFabric f).rooms = d.rooms := rfl
@[simp] theorem Dev.modFabric_funcs (d : Dev) (f : Fabric → Fabric) : (d.modFabric f).funcs = d.funcs := rfl
@[simp] theorem Dev.modFabric_net (d : Dev) (f : Fabric → Fabric) : (d.modFabric f).net = d.net := rfl
@[simp] theorem Dev.modFabric_cellar (d : Dev) (f : Fabric → Fabric) : (d.modFabric f).cellar = d.cellar := rfl
@[simp] theorem Dev.modFabric_media (d : Dev) (f : Fabric → Fabric) : (d.modFabric f).media = d.media := rfl
@[simp] theorem Dev.modFabric_time (d : Dev) (f : Fabric → Fabric) : (d.modFabric f).time = d.time := rfl
@[simp] theorem Dev.modFabric_link (d : Dev) (f : Fabric → Fabric) : (d.modFabric f).link = d.link := rfl
@[simp] theorem Dev.modFabric_fabric (d : Dev) (f : Fabric → Fabric) : (d.modFabric f).fabric = f d.fabric := rfl
@[simp] theorem Dev.modFabric_loader (d : Dev) (f : Fabric → Fabric) : (d.modFabric f).loader = d.loader := rfl
@[simp] theorem Dev.modFabric_rings (d : Dev) (f : Fabric → Fabric) : (d.modFabric f).rings = d.rings := rfl
@[simp] theorem Dev.modFabric_cores (d : Dev) (f : Fabric → Fabric) : (d.modFabric f).cores = d.cores := rfl
@[simp] theorem Dev.modFabric_sched (d : Dev) (f : Fabric → Fabric) : (d.modFabric f).sched = d.sched := rfl
@[simp] theorem Dev.modFabric_record (d : Dev) (f : Fabric → Fabric) : (d.modFabric f).record = d.record := rfl
@[simp] theorem Dev.modFabric_fwres (d : Dev) (f : Fabric → Fabric) : (d.modFabric f).fwres = d.fwres := rfl
@[simp] theorem Dev.modFabric_acq (d : Dev) (f : Fabric → Fabric) : (d.modFabric f).acq = d.acq := rfl
@[simp] theorem Dev.modFabric_fuse (d : Dev) (f : Fabric → Fabric) : (d.modFabric f).fuse = d.fuse := rfl
@[simp] theorem Dev.modFabric_strong (d : Dev) (f : Fabric → Fabric) : (d.modFabric f).strong = d.strong := rfl
@[simp] theorem Dev.modFabric_hub (d : Dev) (f : Fabric → Fabric) : (d.modFabric f).hub = d.hub := rfl
@[simp] theorem Dev.modFabric_power (d : Dev) (f : Fabric → Fabric) : (d.modFabric f).power = d.power := rfl
@[simp] theorem Dev.modFabric_tap (d : Dev) (f : Fabric → Fabric) : (d.modFabric f).tap = d.tap := rfl

-- modLoader
@[simp] theorem Dev.modLoader_now (d : Dev) (f : Loader → Loader) : (d.modLoader f).now = d.now := rfl
@[simp] theorem Dev.modLoader_free (d : Dev) (f : Loader → Loader) : (d.modLoader f).free = d.free := rfl
@[simp] theorem Dev.modLoader_out (d : Dev) (f : Loader → Loader) : (d.modLoader f).out = d.out := rfl
@[simp] theorem Dev.modLoader_events (d : Dev) (f : Loader → Loader) : (d.modLoader f).events = d.events := rfl
@[simp] theorem Dev.modLoader_ident (d : Dev) (f : Loader → Loader) : (d.modLoader f).ident = d.ident := rfl
@[simp] theorem Dev.modLoader_flash (d : Dev) (f : Loader → Loader) : (d.modLoader f).flash = d.flash := rfl
@[simp] theorem Dev.modLoader_rooms (d : Dev) (f : Loader → Loader) : (d.modLoader f).rooms = d.rooms := rfl
@[simp] theorem Dev.modLoader_funcs (d : Dev) (f : Loader → Loader) : (d.modLoader f).funcs = d.funcs := rfl
@[simp] theorem Dev.modLoader_net (d : Dev) (f : Loader → Loader) : (d.modLoader f).net = d.net := rfl
@[simp] theorem Dev.modLoader_cellar (d : Dev) (f : Loader → Loader) : (d.modLoader f).cellar = d.cellar := rfl
@[simp] theorem Dev.modLoader_media (d : Dev) (f : Loader → Loader) : (d.modLoader f).media = d.media := rfl
@[simp] theorem Dev.modLoader_time (d : Dev) (f : Loader → Loader) : (d.modLoader f).time = d.time := rfl
@[simp] theorem Dev.modLoader_link (d : Dev) (f : Loader → Loader) : (d.modLoader f).link = d.link := rfl
@[simp] theorem Dev.modLoader_fabric (d : Dev) (f : Loader → Loader) : (d.modLoader f).fabric = d.fabric := rfl
@[simp] theorem Dev.modLoader_loader (d : Dev) (f : Loader → Loader) : (d.modLoader f).loader = f d.loader := rfl
@[simp] theorem Dev.modLoader_rings (d : Dev) (f : Loader → Loader) : (d.modLoader f).rings = d.rings := rfl
@[simp] theorem Dev.modLoader_cores (d : Dev) (f : Loader → Loader) : (d.modLoader f).cores = d.cores := rfl
@[simp] theorem Dev.modLoader_sched (d : Dev) (f : Loader → Loader) : (d.modLoader f).sched = d.sched := rfl
@[simp] theorem Dev.modLoader_record (d : Dev) (f : Loader → Loader) : (d.modLoader f).record = d.record := rfl
@[simp] theorem Dev.modLoader_fwres (d : Dev) (f : Loader → Loader) : (d.modLoader f).fwres = d.fwres := rfl
@[simp] theorem Dev.modLoader_acq (d : Dev) (f : Loader → Loader) : (d.modLoader f).acq = d.acq := rfl
@[simp] theorem Dev.modLoader_fuse (d : Dev) (f : Loader → Loader) : (d.modLoader f).fuse = d.fuse := rfl
@[simp] theorem Dev.modLoader_strong (d : Dev) (f : Loader → Loader) : (d.modLoader f).strong = d.strong := rfl
@[simp] theorem Dev.modLoader_hub (d : Dev) (f : Loader → Loader) : (d.modLoader f).hub = d.hub := rfl
@[simp] theorem Dev.modLoader_power (d : Dev) (f : Loader → Loader) : (d.modLoader f).power = d.power := rfl
@[simp] theorem Dev.modLoader_tap (d : Dev) (f : Loader → Loader) : (d.modLoader f).tap = d.tap := rfl

-- setRing
@[simp] theorem Dev.setRing_now (d : Dev) (k : BitVec 9) (x : Ring) : (d.setRing k x).now = d.now := rfl
@[simp] theorem Dev.setRing_free (d : Dev) (k : BitVec 9) (x : Ring) : (d.setRing k x).free = d.free := rfl
@[simp] theorem Dev.setRing_out (d : Dev) (k : BitVec 9) (x : Ring) : (d.setRing k x).out = d.out := rfl
@[simp] theorem Dev.setRing_events (d : Dev) (k : BitVec 9) (x : Ring) : (d.setRing k x).events = d.events := rfl
@[simp] theorem Dev.setRing_ident (d : Dev) (k : BitVec 9) (x : Ring) : (d.setRing k x).ident = d.ident := rfl
@[simp] theorem Dev.setRing_flash (d : Dev) (k : BitVec 9) (x : Ring) : (d.setRing k x).flash = d.flash := rfl
@[simp] theorem Dev.setRing_rooms (d : Dev) (k : BitVec 9) (x : Ring) : (d.setRing k x).rooms = d.rooms := rfl
@[simp] theorem Dev.setRing_funcs (d : Dev) (k : BitVec 9) (x : Ring) : (d.setRing k x).funcs = d.funcs := rfl
@[simp] theorem Dev.setRing_net (d : Dev) (k : BitVec 9) (x : Ring) : (d.setRing k x).net = d.net := rfl
@[simp] theorem Dev.setRing_cellar (d : Dev) (k : BitVec 9) (x : Ring) : (d.setRing k x).cellar = d.cellar := rfl
@[simp] theorem Dev.setRing_media (d : Dev) (k : BitVec 9) (x : Ring) : (d.setRing k x).media = d.media := rfl
@[simp] theorem Dev.setRing_time (d : Dev) (k : BitVec 9) (x : Ring) : (d.setRing k x).time = d.time := rfl
@[simp] theorem Dev.setRing_link (d : Dev) (k : BitVec 9) (x : Ring) : (d.setRing k x).link = d.link := rfl
@[simp] theorem Dev.setRing_fabric (d : Dev) (k : BitVec 9) (x : Ring) : (d.setRing k x).fabric = d.fabric := rfl
@[simp] theorem Dev.setRing_loader (d : Dev) (k : BitVec 9) (x : Ring) : (d.setRing k x).loader = d.loader := rfl
@[simp] theorem Dev.setRing_rings (d : Dev) (k : BitVec 9) (x : Ring) : (d.setRing k x).rings = { d.rings with pairs := Tbl.set {} d.rings.pairs k.toNat x } := rfl
@[simp] theorem Dev.setRing_cores (d : Dev) (k : BitVec 9) (x : Ring) : (d.setRing k x).cores = d.cores := rfl
@[simp] theorem Dev.setRing_sched (d : Dev) (k : BitVec 9) (x : Ring) : (d.setRing k x).sched = d.sched := rfl
@[simp] theorem Dev.setRing_record (d : Dev) (k : BitVec 9) (x : Ring) : (d.setRing k x).record = d.record := rfl
@[simp] theorem Dev.setRing_fwres (d : Dev) (k : BitVec 9) (x : Ring) : (d.setRing k x).fwres = d.fwres := rfl
@[simp] theorem Dev.setRing_acq (d : Dev) (k : BitVec 9) (x : Ring) : (d.setRing k x).acq = d.acq := rfl
@[simp] theorem Dev.setRing_fuse (d : Dev) (k : BitVec 9) (x : Ring) : (d.setRing k x).fuse = d.fuse := rfl
@[simp] theorem Dev.setRing_strong (d : Dev) (k : BitVec 9) (x : Ring) : (d.setRing k x).strong = d.strong := rfl
@[simp] theorem Dev.setRing_hub (d : Dev) (k : BitVec 9) (x : Ring) : (d.setRing k x).hub = d.hub := rfl
@[simp] theorem Dev.setRing_power (d : Dev) (k : BitVec 9) (x : Ring) : (d.setRing k x).power = d.power := rfl
@[simp] theorem Dev.setRing_tap (d : Dev) (k : BitVec 9) (x : Ring) : (d.setRing k x).tap = d.tap := rfl

-- modRing
@[simp] theorem Dev.modRing_now (d : Dev) (k : BitVec 9) (f : Ring → Ring) : (d.modRing k f).now = d.now := rfl
@[simp] theorem Dev.modRing_free (d : Dev) (k : BitVec 9) (f : Ring → Ring) : (d.modRing k f).free = d.free := rfl
@[simp] theorem Dev.modRing_out (d : Dev) (k : BitVec 9) (f : Ring → Ring) : (d.modRing k f).out = d.out := rfl
@[simp] theorem Dev.modRing_events (d : Dev) (k : BitVec 9) (f : Ring → Ring) : (d.modRing k f).events = d.events := rfl
@[simp] theorem Dev.modRing_ident (d : Dev) (k : BitVec 9) (f : Ring → Ring) : (d.modRing k f).ident = d.ident := rfl
@[simp] theorem Dev.modRing_flash (d : Dev) (k : BitVec 9) (f : Ring → Ring) : (d.modRing k f).flash = d.flash := rfl
@[simp] theorem Dev.modRing_rooms (d : Dev) (k : BitVec 9) (f : Ring → Ring) : (d.modRing k f).rooms = d.rooms := rfl
@[simp] theorem Dev.modRing_funcs (d : Dev) (k : BitVec 9) (f : Ring → Ring) : (d.modRing k f).funcs = d.funcs := rfl
@[simp] theorem Dev.modRing_net (d : Dev) (k : BitVec 9) (f : Ring → Ring) : (d.modRing k f).net = d.net := rfl
@[simp] theorem Dev.modRing_cellar (d : Dev) (k : BitVec 9) (f : Ring → Ring) : (d.modRing k f).cellar = d.cellar := rfl
@[simp] theorem Dev.modRing_media (d : Dev) (k : BitVec 9) (f : Ring → Ring) : (d.modRing k f).media = d.media := rfl
@[simp] theorem Dev.modRing_time (d : Dev) (k : BitVec 9) (f : Ring → Ring) : (d.modRing k f).time = d.time := rfl
@[simp] theorem Dev.modRing_link (d : Dev) (k : BitVec 9) (f : Ring → Ring) : (d.modRing k f).link = d.link := rfl
@[simp] theorem Dev.modRing_fabric (d : Dev) (k : BitVec 9) (f : Ring → Ring) : (d.modRing k f).fabric = d.fabric := rfl
@[simp] theorem Dev.modRing_loader (d : Dev) (k : BitVec 9) (f : Ring → Ring) : (d.modRing k f).loader = d.loader := rfl
@[simp] theorem Dev.modRing_rings (d : Dev) (k : BitVec 9) (f : Ring → Ring) : (d.modRing k f).rings = { d.rings with pairs := Tbl.set {} d.rings.pairs k.toNat (f (d.ring k)) } := rfl
@[simp] theorem Dev.modRing_cores (d : Dev) (k : BitVec 9) (f : Ring → Ring) : (d.modRing k f).cores = d.cores := rfl
@[simp] theorem Dev.modRing_sched (d : Dev) (k : BitVec 9) (f : Ring → Ring) : (d.modRing k f).sched = d.sched := rfl
@[simp] theorem Dev.modRing_record (d : Dev) (k : BitVec 9) (f : Ring → Ring) : (d.modRing k f).record = d.record := rfl
@[simp] theorem Dev.modRing_fwres (d : Dev) (k : BitVec 9) (f : Ring → Ring) : (d.modRing k f).fwres = d.fwres := rfl
@[simp] theorem Dev.modRing_acq (d : Dev) (k : BitVec 9) (f : Ring → Ring) : (d.modRing k f).acq = d.acq := rfl
@[simp] theorem Dev.modRing_fuse (d : Dev) (k : BitVec 9) (f : Ring → Ring) : (d.modRing k f).fuse = d.fuse := rfl
@[simp] theorem Dev.modRing_strong (d : Dev) (k : BitVec 9) (f : Ring → Ring) : (d.modRing k f).strong = d.strong := rfl
@[simp] theorem Dev.modRing_hub (d : Dev) (k : BitVec 9) (f : Ring → Ring) : (d.modRing k f).hub = d.hub := rfl
@[simp] theorem Dev.modRing_power (d : Dev) (k : BitVec 9) (f : Ring → Ring) : (d.modRing k f).power = d.power := rfl
@[simp] theorem Dev.modRing_tap (d : Dev) (k : BitVec 9) (f : Ring → Ring) : (d.modRing k f).tap = d.tap := rfl

-- modCores
@[simp] theorem Dev.modCores_now (d : Dev) (f : Cores → Cores) : (d.modCores f).now = d.now := rfl
@[simp] theorem Dev.modCores_free (d : Dev) (f : Cores → Cores) : (d.modCores f).free = d.free := rfl
@[simp] theorem Dev.modCores_out (d : Dev) (f : Cores → Cores) : (d.modCores f).out = d.out := rfl
@[simp] theorem Dev.modCores_events (d : Dev) (f : Cores → Cores) : (d.modCores f).events = d.events := rfl
@[simp] theorem Dev.modCores_ident (d : Dev) (f : Cores → Cores) : (d.modCores f).ident = d.ident := rfl
@[simp] theorem Dev.modCores_flash (d : Dev) (f : Cores → Cores) : (d.modCores f).flash = d.flash := rfl
@[simp] theorem Dev.modCores_rooms (d : Dev) (f : Cores → Cores) : (d.modCores f).rooms = d.rooms := rfl
@[simp] theorem Dev.modCores_funcs (d : Dev) (f : Cores → Cores) : (d.modCores f).funcs = d.funcs := rfl
@[simp] theorem Dev.modCores_net (d : Dev) (f : Cores → Cores) : (d.modCores f).net = d.net := rfl
@[simp] theorem Dev.modCores_cellar (d : Dev) (f : Cores → Cores) : (d.modCores f).cellar = d.cellar := rfl
@[simp] theorem Dev.modCores_media (d : Dev) (f : Cores → Cores) : (d.modCores f).media = d.media := rfl
@[simp] theorem Dev.modCores_time (d : Dev) (f : Cores → Cores) : (d.modCores f).time = d.time := rfl
@[simp] theorem Dev.modCores_link (d : Dev) (f : Cores → Cores) : (d.modCores f).link = d.link := rfl
@[simp] theorem Dev.modCores_fabric (d : Dev) (f : Cores → Cores) : (d.modCores f).fabric = d.fabric := rfl
@[simp] theorem Dev.modCores_loader (d : Dev) (f : Cores → Cores) : (d.modCores f).loader = d.loader := rfl
@[simp] theorem Dev.modCores_rings (d : Dev) (f : Cores → Cores) : (d.modCores f).rings = d.rings := rfl
@[simp] theorem Dev.modCores_cores (d : Dev) (f : Cores → Cores) : (d.modCores f).cores = f d.cores := rfl
@[simp] theorem Dev.modCores_sched (d : Dev) (f : Cores → Cores) : (d.modCores f).sched = d.sched := rfl
@[simp] theorem Dev.modCores_record (d : Dev) (f : Cores → Cores) : (d.modCores f).record = d.record := rfl
@[simp] theorem Dev.modCores_fwres (d : Dev) (f : Cores → Cores) : (d.modCores f).fwres = d.fwres := rfl
@[simp] theorem Dev.modCores_acq (d : Dev) (f : Cores → Cores) : (d.modCores f).acq = d.acq := rfl
@[simp] theorem Dev.modCores_fuse (d : Dev) (f : Cores → Cores) : (d.modCores f).fuse = d.fuse := rfl
@[simp] theorem Dev.modCores_strong (d : Dev) (f : Cores → Cores) : (d.modCores f).strong = d.strong := rfl
@[simp] theorem Dev.modCores_hub (d : Dev) (f : Cores → Cores) : (d.modCores f).hub = d.hub := rfl
@[simp] theorem Dev.modCores_power (d : Dev) (f : Cores → Cores) : (d.modCores f).power = d.power := rfl
@[simp] theorem Dev.modCores_tap (d : Dev) (f : Cores → Cores) : (d.modCores f).tap = d.tap := rfl

-- modCore
@[simp] theorem Dev.modCore_now (d : Dev) (c : BitVec 4) (f : Core → Core) : (d.modCore c f).now = d.now := rfl
@[simp] theorem Dev.modCore_free (d : Dev) (c : BitVec 4) (f : Core → Core) : (d.modCore c f).free = d.free := rfl
@[simp] theorem Dev.modCore_out (d : Dev) (c : BitVec 4) (f : Core → Core) : (d.modCore c f).out = d.out := rfl
@[simp] theorem Dev.modCore_events (d : Dev) (c : BitVec 4) (f : Core → Core) : (d.modCore c f).events = d.events := rfl
@[simp] theorem Dev.modCore_ident (d : Dev) (c : BitVec 4) (f : Core → Core) : (d.modCore c f).ident = d.ident := rfl
@[simp] theorem Dev.modCore_flash (d : Dev) (c : BitVec 4) (f : Core → Core) : (d.modCore c f).flash = d.flash := rfl
@[simp] theorem Dev.modCore_rooms (d : Dev) (c : BitVec 4) (f : Core → Core) : (d.modCore c f).rooms = d.rooms := rfl
@[simp] theorem Dev.modCore_funcs (d : Dev) (c : BitVec 4) (f : Core → Core) : (d.modCore c f).funcs = d.funcs := rfl
@[simp] theorem Dev.modCore_net (d : Dev) (c : BitVec 4) (f : Core → Core) : (d.modCore c f).net = d.net := rfl
@[simp] theorem Dev.modCore_cellar (d : Dev) (c : BitVec 4) (f : Core → Core) : (d.modCore c f).cellar = d.cellar := rfl
@[simp] theorem Dev.modCore_media (d : Dev) (c : BitVec 4) (f : Core → Core) : (d.modCore c f).media = d.media := rfl
@[simp] theorem Dev.modCore_time (d : Dev) (c : BitVec 4) (f : Core → Core) : (d.modCore c f).time = d.time := rfl
@[simp] theorem Dev.modCore_link (d : Dev) (c : BitVec 4) (f : Core → Core) : (d.modCore c f).link = d.link := rfl
@[simp] theorem Dev.modCore_fabric (d : Dev) (c : BitVec 4) (f : Core → Core) : (d.modCore c f).fabric = d.fabric := rfl
@[simp] theorem Dev.modCore_loader (d : Dev) (c : BitVec 4) (f : Core → Core) : (d.modCore c f).loader = d.loader := rfl
@[simp] theorem Dev.modCore_rings (d : Dev) (c : BitVec 4) (f : Core → Core) : (d.modCore c f).rings = d.rings := rfl
@[simp] theorem Dev.modCore_cores (d : Dev) (c : BitVec 4) (f : Core → Core) : (d.modCore c f).cores = { d.cores with cores := Tbl.set {} d.cores.cores c.toNat (f (d.core c)) } := rfl
@[simp] theorem Dev.modCore_sched (d : Dev) (c : BitVec 4) (f : Core → Core) : (d.modCore c f).sched = d.sched := rfl
@[simp] theorem Dev.modCore_record (d : Dev) (c : BitVec 4) (f : Core → Core) : (d.modCore c f).record = d.record := rfl
@[simp] theorem Dev.modCore_fwres (d : Dev) (c : BitVec 4) (f : Core → Core) : (d.modCore c f).fwres = d.fwres := rfl
@[simp] theorem Dev.modCore_acq (d : Dev) (c : BitVec 4) (f : Core → Core) : (d.modCore c f).acq = d.acq := rfl
@[simp] theorem Dev.modCore_fuse (d : Dev) (c : BitVec 4) (f : Core → Core) : (d.modCore c f).fuse = d.fuse := rfl
@[simp] theorem Dev.modCore_strong (d : Dev) (c : BitVec 4) (f : Core → Core) : (d.modCore c f).strong = d.strong := rfl
@[simp] theorem Dev.modCore_hub (d : Dev) (c : BitVec 4) (f : Core → Core) : (d.modCore c f).hub = d.hub := rfl
@[simp] theorem Dev.modCore_power (d : Dev) (c : BitVec 4) (f : Core → Core) : (d.modCore c f).power = d.power := rfl
@[simp] theorem Dev.modCore_tap (d : Dev) (c : BitVec 4) (f : Core → Core) : (d.modCore c f).tap = d.tap := rfl

-- modSched
@[simp] theorem Dev.modSched_now (d : Dev) (f : Sched → Sched) : (d.modSched f).now = d.now := rfl
@[simp] theorem Dev.modSched_free (d : Dev) (f : Sched → Sched) : (d.modSched f).free = d.free := rfl
@[simp] theorem Dev.modSched_out (d : Dev) (f : Sched → Sched) : (d.modSched f).out = d.out := rfl
@[simp] theorem Dev.modSched_events (d : Dev) (f : Sched → Sched) : (d.modSched f).events = d.events := rfl
@[simp] theorem Dev.modSched_ident (d : Dev) (f : Sched → Sched) : (d.modSched f).ident = d.ident := rfl
@[simp] theorem Dev.modSched_flash (d : Dev) (f : Sched → Sched) : (d.modSched f).flash = d.flash := rfl
@[simp] theorem Dev.modSched_rooms (d : Dev) (f : Sched → Sched) : (d.modSched f).rooms = d.rooms := rfl
@[simp] theorem Dev.modSched_funcs (d : Dev) (f : Sched → Sched) : (d.modSched f).funcs = d.funcs := rfl
@[simp] theorem Dev.modSched_net (d : Dev) (f : Sched → Sched) : (d.modSched f).net = d.net := rfl
@[simp] theorem Dev.modSched_cellar (d : Dev) (f : Sched → Sched) : (d.modSched f).cellar = d.cellar := rfl
@[simp] theorem Dev.modSched_media (d : Dev) (f : Sched → Sched) : (d.modSched f).media = d.media := rfl
@[simp] theorem Dev.modSched_time (d : Dev) (f : Sched → Sched) : (d.modSched f).time = d.time := rfl
@[simp] theorem Dev.modSched_link (d : Dev) (f : Sched → Sched) : (d.modSched f).link = d.link := rfl
@[simp] theorem Dev.modSched_fabric (d : Dev) (f : Sched → Sched) : (d.modSched f).fabric = d.fabric := rfl
@[simp] theorem Dev.modSched_loader (d : Dev) (f : Sched → Sched) : (d.modSched f).loader = d.loader := rfl
@[simp] theorem Dev.modSched_rings (d : Dev) (f : Sched → Sched) : (d.modSched f).rings = d.rings := rfl
@[simp] theorem Dev.modSched_cores (d : Dev) (f : Sched → Sched) : (d.modSched f).cores = d.cores := rfl
@[simp] theorem Dev.modSched_sched (d : Dev) (f : Sched → Sched) : (d.modSched f).sched = f d.sched := rfl
@[simp] theorem Dev.modSched_record (d : Dev) (f : Sched → Sched) : (d.modSched f).record = d.record := rfl
@[simp] theorem Dev.modSched_fwres (d : Dev) (f : Sched → Sched) : (d.modSched f).fwres = d.fwres := rfl
@[simp] theorem Dev.modSched_acq (d : Dev) (f : Sched → Sched) : (d.modSched f).acq = d.acq := rfl
@[simp] theorem Dev.modSched_fuse (d : Dev) (f : Sched → Sched) : (d.modSched f).fuse = d.fuse := rfl
@[simp] theorem Dev.modSched_strong (d : Dev) (f : Sched → Sched) : (d.modSched f).strong = d.strong := rfl
@[simp] theorem Dev.modSched_hub (d : Dev) (f : Sched → Sched) : (d.modSched f).hub = d.hub := rfl
@[simp] theorem Dev.modSched_power (d : Dev) (f : Sched → Sched) : (d.modSched f).power = d.power := rfl
@[simp] theorem Dev.modSched_tap (d : Dev) (f : Sched → Sched) : (d.modSched f).tap = d.tap := rfl

-- setUnit
@[simp] theorem Dev.setUnit_now (d : Dev) (u : Nat) (x : AcqUnit) : (d.setUnit u x).now = d.now := rfl
@[simp] theorem Dev.setUnit_free (d : Dev) (u : Nat) (x : AcqUnit) : (d.setUnit u x).free = d.free := rfl
@[simp] theorem Dev.setUnit_out (d : Dev) (u : Nat) (x : AcqUnit) : (d.setUnit u x).out = d.out := rfl
@[simp] theorem Dev.setUnit_events (d : Dev) (u : Nat) (x : AcqUnit) : (d.setUnit u x).events = d.events := rfl
@[simp] theorem Dev.setUnit_ident (d : Dev) (u : Nat) (x : AcqUnit) : (d.setUnit u x).ident = d.ident := rfl
@[simp] theorem Dev.setUnit_flash (d : Dev) (u : Nat) (x : AcqUnit) : (d.setUnit u x).flash = d.flash := rfl
@[simp] theorem Dev.setUnit_rooms (d : Dev) (u : Nat) (x : AcqUnit) : (d.setUnit u x).rooms = d.rooms := rfl
@[simp] theorem Dev.setUnit_funcs (d : Dev) (u : Nat) (x : AcqUnit) : (d.setUnit u x).funcs = d.funcs := rfl
@[simp] theorem Dev.setUnit_net (d : Dev) (u : Nat) (x : AcqUnit) : (d.setUnit u x).net = d.net := rfl
@[simp] theorem Dev.setUnit_cellar (d : Dev) (u : Nat) (x : AcqUnit) : (d.setUnit u x).cellar = d.cellar := rfl
@[simp] theorem Dev.setUnit_media (d : Dev) (u : Nat) (x : AcqUnit) : (d.setUnit u x).media = d.media := rfl
@[simp] theorem Dev.setUnit_time (d : Dev) (u : Nat) (x : AcqUnit) : (d.setUnit u x).time = d.time := rfl
@[simp] theorem Dev.setUnit_link (d : Dev) (u : Nat) (x : AcqUnit) : (d.setUnit u x).link = d.link := rfl
@[simp] theorem Dev.setUnit_fabric (d : Dev) (u : Nat) (x : AcqUnit) : (d.setUnit u x).fabric = d.fabric := rfl
@[simp] theorem Dev.setUnit_loader (d : Dev) (u : Nat) (x : AcqUnit) : (d.setUnit u x).loader = d.loader := rfl
@[simp] theorem Dev.setUnit_rings (d : Dev) (u : Nat) (x : AcqUnit) : (d.setUnit u x).rings = d.rings := rfl
@[simp] theorem Dev.setUnit_cores (d : Dev) (u : Nat) (x : AcqUnit) : (d.setUnit u x).cores = d.cores := rfl
@[simp] theorem Dev.setUnit_sched (d : Dev) (u : Nat) (x : AcqUnit) : (d.setUnit u x).sched = d.sched := rfl
@[simp] theorem Dev.setUnit_record (d : Dev) (u : Nat) (x : AcqUnit) : (d.setUnit u x).record = d.record := rfl
@[simp] theorem Dev.setUnit_fwres (d : Dev) (u : Nat) (x : AcqUnit) : (d.setUnit u x).fwres = d.fwres := rfl
@[simp] theorem Dev.setUnit_acq (d : Dev) (u : Nat) (x : AcqUnit) : (d.setUnit u x).acq = Tbl.set {} d.acq u x := rfl
@[simp] theorem Dev.setUnit_fuse (d : Dev) (u : Nat) (x : AcqUnit) : (d.setUnit u x).fuse = d.fuse := rfl
@[simp] theorem Dev.setUnit_strong (d : Dev) (u : Nat) (x : AcqUnit) : (d.setUnit u x).strong = d.strong := rfl
@[simp] theorem Dev.setUnit_hub (d : Dev) (u : Nat) (x : AcqUnit) : (d.setUnit u x).hub = d.hub := rfl
@[simp] theorem Dev.setUnit_power (d : Dev) (u : Nat) (x : AcqUnit) : (d.setUnit u x).power = d.power := rfl
@[simp] theorem Dev.setUnit_tap (d : Dev) (u : Nat) (x : AcqUnit) : (d.setUnit u x).tap = d.tap := rfl

-- modFuse
@[simp] theorem Dev.modFuse_now (d : Dev) (f : Fuse → Fuse) : (d.modFuse f).now = d.now := rfl
@[simp] theorem Dev.modFuse_free (d : Dev) (f : Fuse → Fuse) : (d.modFuse f).free = d.free := rfl
@[simp] theorem Dev.modFuse_out (d : Dev) (f : Fuse → Fuse) : (d.modFuse f).out = d.out := rfl
@[simp] theorem Dev.modFuse_events (d : Dev) (f : Fuse → Fuse) : (d.modFuse f).events = d.events := rfl
@[simp] theorem Dev.modFuse_ident (d : Dev) (f : Fuse → Fuse) : (d.modFuse f).ident = d.ident := rfl
@[simp] theorem Dev.modFuse_flash (d : Dev) (f : Fuse → Fuse) : (d.modFuse f).flash = d.flash := rfl
@[simp] theorem Dev.modFuse_rooms (d : Dev) (f : Fuse → Fuse) : (d.modFuse f).rooms = d.rooms := rfl
@[simp] theorem Dev.modFuse_funcs (d : Dev) (f : Fuse → Fuse) : (d.modFuse f).funcs = d.funcs := rfl
@[simp] theorem Dev.modFuse_net (d : Dev) (f : Fuse → Fuse) : (d.modFuse f).net = d.net := rfl
@[simp] theorem Dev.modFuse_cellar (d : Dev) (f : Fuse → Fuse) : (d.modFuse f).cellar = d.cellar := rfl
@[simp] theorem Dev.modFuse_media (d : Dev) (f : Fuse → Fuse) : (d.modFuse f).media = d.media := rfl
@[simp] theorem Dev.modFuse_time (d : Dev) (f : Fuse → Fuse) : (d.modFuse f).time = d.time := rfl
@[simp] theorem Dev.modFuse_link (d : Dev) (f : Fuse → Fuse) : (d.modFuse f).link = d.link := rfl
@[simp] theorem Dev.modFuse_fabric (d : Dev) (f : Fuse → Fuse) : (d.modFuse f).fabric = d.fabric := rfl
@[simp] theorem Dev.modFuse_loader (d : Dev) (f : Fuse → Fuse) : (d.modFuse f).loader = d.loader := rfl
@[simp] theorem Dev.modFuse_rings (d : Dev) (f : Fuse → Fuse) : (d.modFuse f).rings = d.rings := rfl
@[simp] theorem Dev.modFuse_cores (d : Dev) (f : Fuse → Fuse) : (d.modFuse f).cores = d.cores := rfl
@[simp] theorem Dev.modFuse_sched (d : Dev) (f : Fuse → Fuse) : (d.modFuse f).sched = d.sched := rfl
@[simp] theorem Dev.modFuse_record (d : Dev) (f : Fuse → Fuse) : (d.modFuse f).record = d.record := rfl
@[simp] theorem Dev.modFuse_fwres (d : Dev) (f : Fuse → Fuse) : (d.modFuse f).fwres = d.fwres := rfl
@[simp] theorem Dev.modFuse_acq (d : Dev) (f : Fuse → Fuse) : (d.modFuse f).acq = d.acq := rfl
@[simp] theorem Dev.modFuse_fuse (d : Dev) (f : Fuse → Fuse) : (d.modFuse f).fuse = f d.fuse := rfl
@[simp] theorem Dev.modFuse_strong (d : Dev) (f : Fuse → Fuse) : (d.modFuse f).strong = d.strong := rfl
@[simp] theorem Dev.modFuse_hub (d : Dev) (f : Fuse → Fuse) : (d.modFuse f).hub = d.hub := rfl
@[simp] theorem Dev.modFuse_power (d : Dev) (f : Fuse → Fuse) : (d.modFuse f).power = d.power := rfl
@[simp] theorem Dev.modFuse_tap (d : Dev) (f : Fuse → Fuse) : (d.modFuse f).tap = d.tap := rfl

-- modStrong
@[simp] theorem Dev.modStrong_now (d : Dev) (f : Strong → Strong) : (d.modStrong f).now = d.now := rfl
@[simp] theorem Dev.modStrong_free (d : Dev) (f : Strong → Strong) : (d.modStrong f).free = d.free := rfl
@[simp] theorem Dev.modStrong_out (d : Dev) (f : Strong → Strong) : (d.modStrong f).out = d.out := rfl
@[simp] theorem Dev.modStrong_events (d : Dev) (f : Strong → Strong) : (d.modStrong f).events = d.events := rfl
@[simp] theorem Dev.modStrong_ident (d : Dev) (f : Strong → Strong) : (d.modStrong f).ident = d.ident := rfl
@[simp] theorem Dev.modStrong_flash (d : Dev) (f : Strong → Strong) : (d.modStrong f).flash = d.flash := rfl
@[simp] theorem Dev.modStrong_rooms (d : Dev) (f : Strong → Strong) : (d.modStrong f).rooms = d.rooms := rfl
@[simp] theorem Dev.modStrong_funcs (d : Dev) (f : Strong → Strong) : (d.modStrong f).funcs = d.funcs := rfl
@[simp] theorem Dev.modStrong_net (d : Dev) (f : Strong → Strong) : (d.modStrong f).net = d.net := rfl
@[simp] theorem Dev.modStrong_cellar (d : Dev) (f : Strong → Strong) : (d.modStrong f).cellar = d.cellar := rfl
@[simp] theorem Dev.modStrong_media (d : Dev) (f : Strong → Strong) : (d.modStrong f).media = d.media := rfl
@[simp] theorem Dev.modStrong_time (d : Dev) (f : Strong → Strong) : (d.modStrong f).time = d.time := rfl
@[simp] theorem Dev.modStrong_link (d : Dev) (f : Strong → Strong) : (d.modStrong f).link = d.link := rfl
@[simp] theorem Dev.modStrong_fabric (d : Dev) (f : Strong → Strong) : (d.modStrong f).fabric = d.fabric := rfl
@[simp] theorem Dev.modStrong_loader (d : Dev) (f : Strong → Strong) : (d.modStrong f).loader = d.loader := rfl
@[simp] theorem Dev.modStrong_rings (d : Dev) (f : Strong → Strong) : (d.modStrong f).rings = d.rings := rfl
@[simp] theorem Dev.modStrong_cores (d : Dev) (f : Strong → Strong) : (d.modStrong f).cores = d.cores := rfl
@[simp] theorem Dev.modStrong_sched (d : Dev) (f : Strong → Strong) : (d.modStrong f).sched = d.sched := rfl
@[simp] theorem Dev.modStrong_record (d : Dev) (f : Strong → Strong) : (d.modStrong f).record = d.record := rfl
@[simp] theorem Dev.modStrong_fwres (d : Dev) (f : Strong → Strong) : (d.modStrong f).fwres = d.fwres := rfl
@[simp] theorem Dev.modStrong_acq (d : Dev) (f : Strong → Strong) : (d.modStrong f).acq = d.acq := rfl
@[simp] theorem Dev.modStrong_fuse (d : Dev) (f : Strong → Strong) : (d.modStrong f).fuse = d.fuse := rfl
@[simp] theorem Dev.modStrong_strong (d : Dev) (f : Strong → Strong) : (d.modStrong f).strong = f d.strong := rfl
@[simp] theorem Dev.modStrong_hub (d : Dev) (f : Strong → Strong) : (d.modStrong f).hub = d.hub := rfl
@[simp] theorem Dev.modStrong_power (d : Dev) (f : Strong → Strong) : (d.modStrong f).power = d.power := rfl
@[simp] theorem Dev.modStrong_tap (d : Dev) (f : Strong → Strong) : (d.modStrong f).tap = d.tap := rfl

-- modSram
@[simp] theorem Dev.modSram_now (d : Dev) (f : Sram → Sram) : (d.modSram f).now = d.now := rfl
@[simp] theorem Dev.modSram_free (d : Dev) (f : Sram → Sram) : (d.modSram f).free = d.free := rfl
@[simp] theorem Dev.modSram_out (d : Dev) (f : Sram → Sram) : (d.modSram f).out = d.out := rfl
@[simp] theorem Dev.modSram_events (d : Dev) (f : Sram → Sram) : (d.modSram f).events = d.events := rfl
@[simp] theorem Dev.modSram_ident (d : Dev) (f : Sram → Sram) : (d.modSram f).ident = d.ident := rfl
@[simp] theorem Dev.modSram_flash (d : Dev) (f : Sram → Sram) : (d.modSram f).flash = d.flash := rfl
@[simp] theorem Dev.modSram_rooms (d : Dev) (f : Sram → Sram) : (d.modSram f).rooms = d.rooms := rfl
@[simp] theorem Dev.modSram_funcs (d : Dev) (f : Sram → Sram) : (d.modSram f).funcs = d.funcs := rfl
@[simp] theorem Dev.modSram_net (d : Dev) (f : Sram → Sram) : (d.modSram f).net = d.net := rfl
@[simp] theorem Dev.modSram_cellar (d : Dev) (f : Sram → Sram) : (d.modSram f).cellar = d.cellar := rfl
@[simp] theorem Dev.modSram_media (d : Dev) (f : Sram → Sram) : (d.modSram f).media = d.media := rfl
@[simp] theorem Dev.modSram_time (d : Dev) (f : Sram → Sram) : (d.modSram f).time = d.time := rfl
@[simp] theorem Dev.modSram_link (d : Dev) (f : Sram → Sram) : (d.modSram f).link = d.link := rfl
@[simp] theorem Dev.modSram_fabric (d : Dev) (f : Sram → Sram) : (d.modSram f).fabric = d.fabric := rfl
@[simp] theorem Dev.modSram_loader (d : Dev) (f : Sram → Sram) : (d.modSram f).loader = d.loader := rfl
@[simp] theorem Dev.modSram_rings (d : Dev) (f : Sram → Sram) : (d.modSram f).rings = d.rings := rfl
@[simp] theorem Dev.modSram_cores (d : Dev) (f : Sram → Sram) : (d.modSram f).cores = d.cores := rfl
@[simp] theorem Dev.modSram_sched (d : Dev) (f : Sram → Sram) : (d.modSram f).sched = d.sched := rfl
@[simp] theorem Dev.modSram_record (d : Dev) (f : Sram → Sram) : (d.modSram f).record = d.record := rfl
@[simp] theorem Dev.modSram_fwres (d : Dev) (f : Sram → Sram) : (d.modSram f).fwres = d.fwres := rfl
@[simp] theorem Dev.modSram_acq (d : Dev) (f : Sram → Sram) : (d.modSram f).acq = d.acq := rfl
@[simp] theorem Dev.modSram_fuse (d : Dev) (f : Sram → Sram) : (d.modSram f).fuse = d.fuse := rfl
@[simp] theorem Dev.modSram_strong (d : Dev) (f : Sram → Sram) : (d.modSram f).strong = { d.strong with sram := f d.strong.sram } := rfl
@[simp] theorem Dev.modSram_hub (d : Dev) (f : Sram → Sram) : (d.modSram f).hub = d.hub := rfl
@[simp] theorem Dev.modSram_power (d : Dev) (f : Sram → Sram) : (d.modSram f).power = d.power := rfl
@[simp] theorem Dev.modSram_tap (d : Dev) (f : Sram → Sram) : (d.modSram f).tap = d.tap := rfl

-- countHub
@[simp] theorem Dev.countHub_now (d : Dev) (n : Nat) : (d.countHub n).now = d.now := rfl
@[simp] theorem Dev.countHub_free (d : Dev) (n : Nat) : (d.countHub n).free = d.free := rfl
@[simp] theorem Dev.countHub_out (d : Dev) (n : Nat) : (d.countHub n).out = d.out := rfl
@[simp] theorem Dev.countHub_events (d : Dev) (n : Nat) : (d.countHub n).events = d.events := rfl
@[simp] theorem Dev.countHub_ident (d : Dev) (n : Nat) : (d.countHub n).ident = d.ident := rfl
@[simp] theorem Dev.countHub_flash (d : Dev) (n : Nat) : (d.countHub n).flash = d.flash := rfl
@[simp] theorem Dev.countHub_rooms (d : Dev) (n : Nat) : (d.countHub n).rooms = d.rooms := rfl
@[simp] theorem Dev.countHub_funcs (d : Dev) (n : Nat) : (d.countHub n).funcs = d.funcs := rfl
@[simp] theorem Dev.countHub_net (d : Dev) (n : Nat) : (d.countHub n).net = d.net := rfl
@[simp] theorem Dev.countHub_cellar (d : Dev) (n : Nat) : (d.countHub n).cellar = d.cellar := rfl
@[simp] theorem Dev.countHub_media (d : Dev) (n : Nat) : (d.countHub n).media = d.media := rfl
@[simp] theorem Dev.countHub_time (d : Dev) (n : Nat) : (d.countHub n).time = d.time := rfl
@[simp] theorem Dev.countHub_link (d : Dev) (n : Nat) : (d.countHub n).link = d.link := rfl
@[simp] theorem Dev.countHub_fabric (d : Dev) (n : Nat) : (d.countHub n).fabric = d.fabric := rfl
@[simp] theorem Dev.countHub_loader (d : Dev) (n : Nat) : (d.countHub n).loader = d.loader := rfl
@[simp] theorem Dev.countHub_rings (d : Dev) (n : Nat) : (d.countHub n).rings = d.rings := rfl
@[simp] theorem Dev.countHub_cores (d : Dev) (n : Nat) : (d.countHub n).cores = d.cores := rfl
@[simp] theorem Dev.countHub_sched (d : Dev) (n : Nat) : (d.countHub n).sched = d.sched := rfl
@[simp] theorem Dev.countHub_record (d : Dev) (n : Nat) : (d.countHub n).record = d.record := rfl
@[simp] theorem Dev.countHub_fwres (d : Dev) (n : Nat) : (d.countHub n).fwres = d.fwres := rfl
@[simp] theorem Dev.countHub_acq (d : Dev) (n : Nat) : (d.countHub n).acq = d.acq := rfl
@[simp] theorem Dev.countHub_fuse (d : Dev) (n : Nat) : (d.countHub n).fuse = d.fuse := rfl
@[simp] theorem Dev.countHub_strong (d : Dev) (n : Nat) : (d.countHub n).strong = d.strong := rfl
@[simp] theorem Dev.countHub_hub (d : Dev) (n : Nat) : (d.countHub n).hub = { d.hub with cnt := bumpAt d.hub.cnt n } := rfl
@[simp] theorem Dev.countHub_power (d : Dev) (n : Nat) : (d.countHub n).power = d.power := rfl
@[simp] theorem Dev.countHub_tap (d : Dev) (n : Nat) : (d.countHub n).tap = d.tap := rfl

-- modPower
@[simp] theorem Dev.modPower_now (d : Dev) (f : Power → Power) : (d.modPower f).now = d.now := rfl
@[simp] theorem Dev.modPower_free (d : Dev) (f : Power → Power) : (d.modPower f).free = d.free := rfl
@[simp] theorem Dev.modPower_out (d : Dev) (f : Power → Power) : (d.modPower f).out = d.out := rfl
@[simp] theorem Dev.modPower_events (d : Dev) (f : Power → Power) : (d.modPower f).events = d.events := rfl
@[simp] theorem Dev.modPower_ident (d : Dev) (f : Power → Power) : (d.modPower f).ident = d.ident := rfl
@[simp] theorem Dev.modPower_flash (d : Dev) (f : Power → Power) : (d.modPower f).flash = d.flash := rfl
@[simp] theorem Dev.modPower_rooms (d : Dev) (f : Power → Power) : (d.modPower f).rooms = d.rooms := rfl
@[simp] theorem Dev.modPower_funcs (d : Dev) (f : Power → Power) : (d.modPower f).funcs = d.funcs := rfl
@[simp] theorem Dev.modPower_net (d : Dev) (f : Power → Power) : (d.modPower f).net = d.net := rfl
@[simp] theorem Dev.modPower_cellar (d : Dev) (f : Power → Power) : (d.modPower f).cellar = d.cellar := rfl
@[simp] theorem Dev.modPower_media (d : Dev) (f : Power → Power) : (d.modPower f).media = d.media := rfl
@[simp] theorem Dev.modPower_time (d : Dev) (f : Power → Power) : (d.modPower f).time = d.time := rfl
@[simp] theorem Dev.modPower_link (d : Dev) (f : Power → Power) : (d.modPower f).link = d.link := rfl
@[simp] theorem Dev.modPower_fabric (d : Dev) (f : Power → Power) : (d.modPower f).fabric = d.fabric := rfl
@[simp] theorem Dev.modPower_loader (d : Dev) (f : Power → Power) : (d.modPower f).loader = d.loader := rfl
@[simp] theorem Dev.modPower_rings (d : Dev) (f : Power → Power) : (d.modPower f).rings = d.rings := rfl
@[simp] theorem Dev.modPower_cores (d : Dev) (f : Power → Power) : (d.modPower f).cores = d.cores := rfl
@[simp] theorem Dev.modPower_sched (d : Dev) (f : Power → Power) : (d.modPower f).sched = d.sched := rfl
@[simp] theorem Dev.modPower_record (d : Dev) (f : Power → Power) : (d.modPower f).record = d.record := rfl
@[simp] theorem Dev.modPower_fwres (d : Dev) (f : Power → Power) : (d.modPower f).fwres = d.fwres := rfl
@[simp] theorem Dev.modPower_acq (d : Dev) (f : Power → Power) : (d.modPower f).acq = d.acq := rfl
@[simp] theorem Dev.modPower_fuse (d : Dev) (f : Power → Power) : (d.modPower f).fuse = d.fuse := rfl
@[simp] theorem Dev.modPower_strong (d : Dev) (f : Power → Power) : (d.modPower f).strong = d.strong := rfl
@[simp] theorem Dev.modPower_hub (d : Dev) (f : Power → Power) : (d.modPower f).hub = d.hub := rfl
@[simp] theorem Dev.modPower_power (d : Dev) (f : Power → Power) : (d.modPower f).power = f d.power := rfl
@[simp] theorem Dev.modPower_tap (d : Dev) (f : Power → Power) : (d.modPower f).tap = d.tap := rfl

-- reach
theorem Dev.reach_now (d : Dev) (t : Instant) : (d.reach t).now = max d.now t := by
  unfold Dev.reach
  split
  · next h => exact (Nat.max_eq_right (Nat.le_of_lt h)).symm
  · next h => exact (Nat.max_eq_left (Nat.le_of_not_lt h)).symm
@[simp] theorem Dev.reach_free (d : Dev) (t : Instant) : (d.reach t).free = d.free := by unfold Dev.reach; split <;> rfl
@[simp] theorem Dev.reach_out (d : Dev) (t : Instant) : (d.reach t).out = d.out := by unfold Dev.reach; split <;> rfl
@[simp] theorem Dev.reach_events (d : Dev) (t : Instant) : (d.reach t).events = d.events := by unfold Dev.reach; split <;> rfl
@[simp] theorem Dev.reach_ident (d : Dev) (t : Instant) : (d.reach t).ident = d.ident := by unfold Dev.reach; split <;> rfl
@[simp] theorem Dev.reach_flash (d : Dev) (t : Instant) : (d.reach t).flash = d.flash := by unfold Dev.reach; split <;> rfl
@[simp] theorem Dev.reach_rooms (d : Dev) (t : Instant) : (d.reach t).rooms = d.rooms := by unfold Dev.reach; split <;> rfl
@[simp] theorem Dev.reach_funcs (d : Dev) (t : Instant) : (d.reach t).funcs = d.funcs := by unfold Dev.reach; split <;> rfl
@[simp] theorem Dev.reach_net (d : Dev) (t : Instant) : (d.reach t).net = d.net := by unfold Dev.reach; split <;> rfl
@[simp] theorem Dev.reach_cellar (d : Dev) (t : Instant) : (d.reach t).cellar = d.cellar := by unfold Dev.reach; split <;> rfl
@[simp] theorem Dev.reach_media (d : Dev) (t : Instant) : (d.reach t).media = d.media := by unfold Dev.reach; split <;> rfl
@[simp] theorem Dev.reach_time (d : Dev) (t : Instant) : (d.reach t).time = d.time := by unfold Dev.reach; split <;> rfl
@[simp] theorem Dev.reach_link (d : Dev) (t : Instant) : (d.reach t).link = d.link := by unfold Dev.reach; split <;> rfl
@[simp] theorem Dev.reach_fabric (d : Dev) (t : Instant) : (d.reach t).fabric = d.fabric := by unfold Dev.reach; split <;> rfl
@[simp] theorem Dev.reach_loader (d : Dev) (t : Instant) : (d.reach t).loader = d.loader := by unfold Dev.reach; split <;> rfl
@[simp] theorem Dev.reach_rings (d : Dev) (t : Instant) : (d.reach t).rings = d.rings := by unfold Dev.reach; split <;> rfl
@[simp] theorem Dev.reach_cores (d : Dev) (t : Instant) : (d.reach t).cores = d.cores := by unfold Dev.reach; split <;> rfl
@[simp] theorem Dev.reach_sched (d : Dev) (t : Instant) : (d.reach t).sched = d.sched := by unfold Dev.reach; split <;> rfl
@[simp] theorem Dev.reach_record (d : Dev) (t : Instant) : (d.reach t).record = d.record := by unfold Dev.reach; split <;> rfl
@[simp] theorem Dev.reach_fwres (d : Dev) (t : Instant) : (d.reach t).fwres = d.fwres := by unfold Dev.reach; split <;> rfl
@[simp] theorem Dev.reach_acq (d : Dev) (t : Instant) : (d.reach t).acq = d.acq := by unfold Dev.reach; split <;> rfl
@[simp] theorem Dev.reach_fuse (d : Dev) (t : Instant) : (d.reach t).fuse = d.fuse := by unfold Dev.reach; split <;> rfl
@[simp] theorem Dev.reach_strong (d : Dev) (t : Instant) : (d.reach t).strong = d.strong := by unfold Dev.reach; split <;> rfl
@[simp] theorem Dev.reach_hub (d : Dev) (t : Instant) : (d.reach t).hub = d.hub := by unfold Dev.reach; split <;> rfl
@[simp] theorem Dev.reach_power (d : Dev) (t : Instant) : (d.reach t).power = d.power := by unfold Dev.reach; split <;> rfl
@[simp] theorem Dev.reach_tap (d : Dev) (t : Instant) : (d.reach t).tap = d.tap := by unfold Dev.reach; split <;> rfl

end Sys2Proof.Machine
end

