-- ==== Sys2Proof/Laws/Finish.lean ====
section
/-! SUPPORT. What completing a descriptor leaves in its pair's retention window: `Dev.finish_completed`, `Dev.finishOk_completed`. -/

set_option linter.unusedVariables false

namespace Sys2Proof.Machine
open Sys2Proof

theorem Dev.ring_setRing (d : Dev) (j k : BitVec 9) (x : Ring) (h : d.rings.windowsOk) :
    (d.setRing k x).ring j = if j = k then x else d.ring j := by
  unfold Dev.ring Dev.setRing
  dsimp only
  split
  · rename_i hk; subst hk
    exact Tbl.get_set_same _ _ _ _
  · rename_i hk
    exact Tbl.get_set_other _ _ _ _ _ (fun hc => hk (BitVec.eq_of_toNat_eq hc))

/-- What a completion leaves of an entry: its slot, its state and its record. -/
def RetEntry.done (e : RetEntry) : Nat × RetPhase × Completion := (e.slot, e.phase, e.record)

/-- Two devices' retention windows agree on slots, states and records. -/
def SameDone (d e : Dev) : Prop := ∀ k, (e.ring k).window.map RetEntry.done = (d.ring k).window.map RetEntry.done

theorem SameDone.refl (d : Dev) : SameDone d d := fun _ => rfl
theorem SameDone.trans {a b c : Dev} (x : SameDone a b) (y : SameDone b c) : SameDone a c := fun k => (y k).trans (x k)
theorem SameDone.rings {d e : Dev} (h : e.rings = d.rings) : SameDone d e := fun k => by unfold Dev.ring; rw [h]

theorem SameDone.setRing {d : Dev} {k : BitVec 9} {x : Ring} (h : d.rings.windowsOk) (hx : x.window.map RetEntry.done = (d.ring k).window.map RetEntry.done) :
    SameDone d (d.setRing k x) := fun j => by
  rw [Dev.ring_setRing d j k x h]
  split
  · rename_i hk; rw [hk]; exact hx
  · rfl

theorem Dev.entry_done {d e : Dev} {x : DescRef} {c : Completion} (h : SameDone d e) (hc : CompletedWith d x c) : CompletedWith e x c := by
  obtain ⟨y, hy, hp, hr⟩ := hc
  have key : ∀ l l' : List RetEntry, l'.map RetEntry.done = l.map RetEntry.done → l.find? (fun e => e.slot == x.slot.toNat) = some y →
      ∃ z, l'.find? (fun e => e.slot == x.slot.toNat) = some z ∧ z.done = y.done := by
    intro l
    induction l with
    | nil => intro l' _ hf; cases hf
    | cons a l ih =>
      intro l' hm hf
      cases l' with
      | nil => cases hm
      | cons b l' =>
        simp only [List.map_cons, List.cons.injEq] at hm
        have hs : b.slot = a.slot := congrArg Prod.fst hm.1
        rw [List.find?_cons] at hf ⊢
        rw [hs]
        split at hf
        · cases hf; exact ⟨b, rfl, hm.1⟩
        · exact ih l' hm.2 hf
  obtain ⟨z, hz, hd⟩ := key _ _ (h x.ring) hy
  refine ⟨z, hz, ?_, ?_⟩
  · rw [← hp]; exact congrArg (fun t => t.2.1) hd
  · rw [← hr]; exact congrArg (fun t => t.2.2) hd

theorem Dev.msix_rings (d : Dev) (fn : BitVec 6) (v : BitVec 11) : (d.msix fn v).rings = d.rings := by
  unfold Dev.msix; dsimp only; split <;> rfl

theorem Dev.coalesce_done (d : Dev) (k : BitVec 9) (h : d.rings.windowsOk) : SameDone d (d.coalesce k) ∧ (d.coalesce k).rings.windowsOk := by
  unfold Dev.coalesce
  dsimp only
  split
  · exact ⟨.trans (.setRing (x := { d.ring k with irqPending := 0 }) h rfl) (.rings (Dev.msix_rings _ _ _)), by rw [Dev.msix_rings]; exact Rings.windowsOk_set h k _ (fun x => x)⟩
  · exact ⟨.refl d, h⟩

/-- Sending on the link: neither the RING pairs nor the descriptors that await APPLIED change. -/
def Sent (d e : Dev) : Prop := e.link.await = d.link.await ∧ e.rings = d.rings

theorem Sent.refl (d : Dev) : Sent d d := ⟨rfl, rfl⟩
theorem Sent.trans {a b c : Dev} (x : Sent a b) (y : Sent b c) : Sent a c := ⟨y.1.trans x.1, y.2.trans x.2⟩

theorem Sent.each {α : Type} {l : List α} {f : Dev → α → Dev} (hf : ∀ d a, Sent d (f d a)) (d : Dev) : Sent d (d.each l f) := by
  unfold Dev.each
  induction l generalizing d with
  | nil => exact .refl d
  | cons a l ih => exact (hf d a).trans (ih _)

theorem Dev.creditBack_sent (d : Dev) (x : Option (Nat × Nat)) : Sent d (d.creditBack x) := by
  unfold Dev.creditBack; split <;> exact ⟨rfl, rfl⟩

theorem Dev.sendSeq_sent (d : Dev) (b : Nat) (f : Frame) : Sent d (d.sendSeq b f) := by
  unfold Dev.sendSeq Dev.emitFrame; exact ⟨rfl, rfl⟩

theorem Dev.pump_sent (b n : Nat) (d : Dev) : Sent d (Dev.pump b n d) := by
  induction n generalizing d with
  | zero => exact .refl d
  | succ n ih =>
    unfold Dev.pump
    dsimp only
    split
    · exact .refl d
    · split
      · exact .refl d
      · exact .trans (.trans (.trans (⟨rfl, rfl⟩ : Sent d (d.setBd b _)) (Dev.sendSeq_sent _ _ _)) (Dev.creditBack_sent _ _)) (ih _)

theorem Dev.sendOwn_sent (d : Dev) (f : Frame) : Sent d (d.sendOwn f) := by
  unfold Dev.sendOwn Dev.routeFrame Dev.sendFrame
  split
  · exact ⟨rfl, rfl⟩
  · split
    · exact .trans (⟨rfl, rfl⟩ : Sent d (d.modBd _ _)) (Dev.pump_sent _ _ _)
    · exact .trans ⟨by rw [Dev.raise_link]; rfl, by rw [Dev.raise_rings]; rfl⟩ (Dev.creditBack_sent _ _)

theorem Dev.sendMessage_sent (d : Dev) (dest : BitVec 11) (cls : FlitClass) (tag op addr flits body : Nat) :
    Sent d (d.sendMessage dest cls tag op addr flits body) := by
  unfold Dev.sendMessage Dev.sendPacket
  exact Sent.each (fun d _ => Dev.sendOwn_sent d _) d

theorem Dev.sendApplied_sent (d : Dev) (k : BitVec 9) (seq : BitVec 64) (st : Nat) : Sent d (d.sendApplied k seq st) := Dev.sendMessage_sent _ _ _ _ _ _ _ _

theorem Dev.writeHost_link (d : Dev) (a : BitVec 64) (x : Bytes) : (d.writeHost a x).link = d.link := by
  unfold Dev.writeHost; split
  · rfl
  · rw [Dev.raise_link]; rfl

theorem Dev.writeHost_pairs (d : Dev) (a : BitVec 64) (x : Bytes) : (d.writeHost a x).rings.pairs = d.rings.pairs := by
  unfold Dev.writeHost; split
  · rfl
  · rw [Dev.raise_rings]; rfl

theorem SameDone.pairs {d e : Dev} (h : e.rings.pairs = d.rings.pairs) : SameDone d e := fun k => by unfold Dev.ring; rw [h]

theorem Rings.windowsOk_pairs {x y : Rings} (h : y.pairs = x.pairs) (hx : x.windowsOk) : y.windowsOk := by
  unfold Rings.windowsOk at *; rw [h]; exact hx

/-- Storing a ring pair that keeps slots, states and records, after a step that leaves the pairs. -/
theorem Dev.setRing_done {d d' : Dev} {k : BitVec 9} {x : Ring} (h : d.rings.windowsOk) (hp : d'.rings.pairs = d.rings.pairs) {f : RetEntry → RetEntry}
    (hf : ∀ y, (f y).done = y.done) (hx : x.window = (d'.ring k).window.map f) :
    SameDone d (d'.setRing k x) ∧ (d'.setRing k x).rings.windowsOk := by
  have hw := Rings.windowsOk_pairs hp h
  refine ⟨.trans (.pairs hp) (.setRing hw ?_), Rings.windowsOk_set hw k _ (RingKept.mapped f (fun y => congrArg Prod.fst (hf y)) hx)⟩
  rw [hx, List.map_map]
  exact List.map_congr_left fun y _ => hf y

theorem Dev.postOne_done (d : Dev) (k : BitVec 9) (e : RetEntry) (h : d.rings.windowsOk) :
    SameDone d (d.postOne k e) ∧ (d.postOne k e).rings.windowsOk := by
  have hm : ∀ y : RetEntry, (if y.slot = e.slot then { y with posted := true } else y).done = y.done := fun y => by split <;> rfl
  unfold Dev.postOne
  dsimp only
  split
  · exact Dev.setRing_done h (congrArg Rings.pairs (Dev.sendApplied_sent d k e.seq e.record.status).2) hm rfl
  · have hp := Dev.writeHost_pairs d ((d.ring k).cqbase + BitVec.ofNat 64 (32 * e.slot)) (recordBytes e.record e.par)
    generalize d.writeHost ((d.ring k).cqbase + BitVec.ofNat 64 (32 * e.slot)) (recordBytes e.record e.par) = d' at hp
    have h1 := Dev.setRing_done (x := { d'.ring k with
      window := ((d'.ring k).window.map fun x => if x.slot = e.slot then { x with posted := true } else x),
      irqSince := (if (d'.ring k).irqPending = 0 then d'.now else (d'.ring k).irqSince), irqPending := (d'.ring k).irqPending + 1 }) h hp hm rfl
    have h2 := Dev.coalesce_done _ k h1.2
    exact ⟨h1.1.trans h2.1, h2.2⟩

theorem Dev.postRing_done (d : Dev) (k : BitVec 9) (h : d.rings.windowsOk) : SameDone d (d.postRing k) ∧ (d.postRing k).rings.windowsOk := by
  unfold Dev.postRing Dev.each
  generalize postable (d.awaits k) (d.ring k).window = l
  induction l generalizing d with
  | nil => exact ⟨.refl d, h⟩
  | cons a l ih =>
    have := Dev.postOne_done d k a h
    have h2 := ih _ this.2
    exact ⟨this.1.trans h2.1, h2.2⟩

theorem find_slot_unique {l : List RetEntry} (hn : (l.map fun e => e.slot).Nodup) {a b : RetEntry} (ha : a ∈ l) (hb : b ∈ l) (h : a.slot = b.slot) : a = b := by
  induction l with
  | nil => cases ha
  | cons c l ih =>
    simp only [List.map_cons, List.nodup_cons, List.mem_map, not_exists, not_and] at hn
    rcases List.mem_cons.1 ha with ha | ha <;> rcases List.mem_cons.1 hb with hb | hb
    · rw [ha, hb]
    · exact absurd (by rw [← h, ha]) (hn.1 _ hb)
    · exact absurd (by rw [h, hb]) (hn.1 _ ha)
    · exact ih hn.2 ha hb

theorem Tbl.get_of_mem {α : Type} (d : α) {t : Tbl α} (h : Tbl.Rising t) {p : Nat × α} (hp : p ∈ t) : Tbl.get d t p.1 = p.2 := by
  induction t with
  | nil => cases hp
  | cons e t ih =>
    have hc := (Tbl.rising_cons e t).1 h
    unfold Tbl.get
    rcases List.mem_cons.1 hp with rfl | hp
    · simp
    · have := hc.1 p hp
      rw [if_neg (by omega)]
      exact ih hc.2 hp

/-- Storing a ring pair whose entries, but for those of one slot, keep slot, state and record. -/
theorem Dev.completed_setRing {d : Dev} {k : BitVec 9} {n : Nat} {r : Ring} {f : RetEntry → RetEntry} {x : DescRef} {c : Completion} (h : d.rings.windowsOk)
    (hw : r.window = (d.ring k).window.map fun y => if y.slot = n then f y else y) (hf : ∀ y, (f y).slot = y.slot)
    (hx : x.ring ≠ k ∨ x.slot.toNat ≠ n) (hc : CompletedWith d x c) : CompletedWith (d.setRing k r) x c := by
  obtain ⟨y, hy, hp⟩ := hc
  refine ⟨y, ?_, hp⟩
  unfold Dev.entry? at hy ⊢
  rw [Dev.ring_setRing d _ _ _ h]
  split
  · rename_i hk
    have hn : x.slot.toNat ≠ n := hx.resolve_left (fun hne => hne hk)
    rw [hw, List.find?_map]
    have hcomp : ((fun e : RetEntry => e.slot == x.slot.toNat) ∘ fun y => if y.slot = n then f y else y) = fun e : RetEntry => e.slot == x.slot.toNat := by
      funext y; dsimp only [Function.comp]; split
      · rw [hf]
      · rfl
    rw [hcomp, ← hk, hy]
    have hs : y.slot = x.slot.toNat := by
      have := List.find?_some hy; simpa using this
    simp [hs, hn]
  · exact hy

/-- A completion record changed: the other descriptors' stay. -/
theorem Dev.unconfirmed_completed {d : Dev} {x y : DescRef} {c : Completion} (h : d.rings.windowsOk) (hne : y ≠ x) (hc : CompletedWith d x c) :
    CompletedWith (d.unconfirmed y) x c ∧ (d.unconfirmed y).rings.windowsOk := by
  have hs : x.ring ≠ y.ring ∨ x.slot.toNat ≠ y.slot.toNat := by
    by_contra hcon
    simp only [not_or, ne_eq, not_not] at hcon
    refine hne ?_
    obtain ⟨ring, slot⟩ := x
    obtain ⟨ring', slot'⟩ := y
    dsimp only at hcon
    rw [hcon.1, BitVec.eq_of_toNat_eq hcon.2]
  exact ⟨Dev.completed_setRing (f := fun e => if e.record.status = 0 ∨ e.record.status = 3 then { e with record := { e.record with status := 0x60 } } else e) h rfl
      (fun e => by split <;> rfl) hs hc,
    Rings.windowsOk_set h y.ring _ (RingKept.mapped _ (fun e => by split <;> [(dsimp only; split <;> rfl); rfl]) rfl)⟩

theorem Dev.unconfirmed_link (d : Dev) (x : DescRef) : (d.unconfirmed x).link = d.link := rfl

theorem Dev.divergence_sent (d : Dev) : Sent d d.divergence :=
  ⟨show (d.raise 848).link.await = d.link.await from congrArg Link.await (Dev.raise_link d 848 0), Dev.raise_rings d 848 0⟩

theorem CompletedWith.sent {d e : Dev} {x : DescRef} {c : Completion} (h : Sent d e) (hc : CompletedWith d x c) : CompletedWith e x c :=
  Dev.entry_done (.rings h.2) hc

theorem Dev.resolveAwait_completed {d : Dev} {x : DescRef} {c : Completion} (h : d.rings.windowsOk) (ha : ∀ a ∈ d.link.await, a.desc ≠ x)
    (hc : CompletedWith d x c) : CompletedWith d.resolveAwait x c ∧ d.resolveAwait.rings.windowsOk := by
  unfold Dev.resolveAwait Dev.each
  have hl : ∀ a ∈ d.link.await.filter (fun a => a.own.isSome && (a.lost || a.applied.isSome)), a.desc ≠ x := fun a hm => ha a (List.mem_filter.1 hm).1
  generalize d.link.await.filter (fun a => a.own.isSome && (a.lost || a.applied.isSome)) = l at hl
  clear ha
  induction l generalizing d with
  | nil => exact ⟨hc, h⟩
  | cons a l ih =>
    rw [List.foldl_cons]
    dsimp only
    have hrest : ∀ b ∈ l, b.desc ≠ x := fun b hb => hl b (List.mem_cons_of_mem _ hb)
    have hu := Dev.unconfirmed_completed (d := d.putLink { d.link with await := d.link.await.erase a }) h (hl a List.mem_cons_self) hc
    split
    · exact ih hu.2 hu.1 hrest
    · split
      · exact ih (d := d.putLink _) h hc hrest
      · have hs := (Dev.sendMessage_sent ((d.putLink { d.link with await := d.link.await.erase a }).unconfirmed a.desc)
          (d.putLink { d.link with await := d.link.await.erase a }).link.partner .req 0 8 0 1 0).trans (Dev.divergence_sent _)
        exact ih (by rw [hs.2]; exact hu.2) (CompletedWith.sent hs hu.1) hrest

/-- No descriptor awaits APPLIED for x, before and after. -/
theorem Dev.resolveAwait_free {d : Dev} {x : DescRef} (ha : ∀ a ∈ d.link.await, a.desc ≠ x) : ∀ a ∈ d.resolveAwait.link.await, a.desc ≠ x := by
  unfold Dev.resolveAwait Dev.each
  generalize d.link.await.filter (fun a => a.own.isSome && (a.lost || a.applied.isSome)) = l
  induction l generalizing d with
  | nil => exact ha
  | cons a l ih =>
    rw [List.foldl_cons]
    dsimp only
    have he : ∀ b ∈ (d.putLink { d.link with await := d.link.await.erase a }).link.await, b.desc ≠ x := fun b hb => ha b (List.mem_of_mem_erase hb)
    split
    · exact ih (d := Dev.unconfirmed _ _) he
    · split
      · exact ih (d := d.putLink _) he
      · have hs := (Dev.sendMessage_sent ((d.putLink { d.link with await := d.link.await.erase a }).unconfirmed a.desc)
          (d.putLink { d.link with await := d.link.await.erase a }).link.partner .req 0 8 0 1 0).trans (Dev.divergence_sent _)
        exact ih (by rw [hs.1]; exact he)

theorem Dev.ownStatus_completed {d : Dev} {x : DescRef} {c : Completion} (h : d.rings.windowsOk) (ha : ∀ a ∈ d.link.await, a.desc ≠ x)
    (hc : CompletedWith d x c) (y : DescRef) (st : Nat) :
    CompletedWith (d.ownStatus y st) x c ∧ (d.ownStatus y st).rings.windowsOk ∧ ∀ a ∈ (d.ownStatus y st).link.await, a.desc ≠ x := by
  unfold Dev.ownStatus
  generalize hq : (d.putLink { d.link with await := d.link.await.map fun a => if a.desc = y then { a with own := some st } else a,
                                           queries := d.link.queries.filter fun q => q.desc != y }) = d'
  have hm : ∀ a ∈ d'.link.await, a.desc ≠ x := by
    intro a hm
    rw [← hq] at hm
    simp only [Dev.putLink, List.mem_map] at hm
    obtain ⟨b', hb, rfl⟩ := hm
    split
    · exact ha b' hb
    · exact ha b' hb
  have hr := Dev.resolveAwait_completed (d := d') (by rw [← hq]; exact h) hm (by rw [← hq]; exact hc)
  exact ⟨hr.1, hr.2, Dev.resolveAwait_free hm⟩

theorem Dev.msix_link (d : Dev) (fn : BitVec 6) (v : BitVec 11) : (d.msix fn v).link = d.link := by
  unfold Dev.msix; dsimp only; split <;> rfl

theorem Dev.postOne_await (d : Dev) (k : BitVec 9) (e : RetEntry) : (d.postOne k e).link.await = d.link.await := by
  unfold Dev.postOne Dev.coalesce
  dsimp only
  split
  · exact (Dev.sendApplied_sent d k e.seq e.record.status).1
  · split
    · rw [Dev.msix_link]; exact congrArg Link.await (Dev.writeHost_link d _ _)
    · exact congrArg Link.await (Dev.writeHost_link d _ _)

theorem Dev.postRing_await (d : Dev) (k : BitVec 9) : (d.postRing k).link.await = d.link.await := by
  unfold Dev.postRing Dev.each
  generalize postable (d.awaits k) (d.ring k).window = l
  induction l generalizing d with
  | nil => rfl
  | cons a l ih => rw [List.foldl_cons, ih, Dev.postOne_await]

theorem Dev.settle_completed (n : Nat) {d : Dev} {x : DescRef} {c : Completion} (h : d.rings.windowsOk) (ha : ∀ a ∈ d.link.await, a.desc ≠ x)
    (hc : CompletedWith d x c) :
    CompletedWith (Dev.settle n d) x c := by
  induction n generalizing d with
  | zero => exact hc
  | succ n ih =>
    unfold Dev.settle
    split
    · exact hc
    · rename_i k e hfr
      dsimp only
      have hw' := Rings.windowsOk_set h k (Ring.reapply { d.ring k with window := (d.ring k).window.map fun x => if x.slot = e.slot then { x with phase := .completed, record := { seq := x.seq, opcode := 1, beat := d.time.n } } else x })
        (RingKept.mapped _ (fun y => by split <;> rfl) (Ring.reapply_window _))
      have hne : x.ring ≠ k ∨ x.slot.toNat ≠ e.slot := by
        by_contra hcon
        simp only [not_or, ne_eq, not_not] at hcon
        unfold Dev.fenceReady at hfr
        obtain ⟨p, hp, hq⟩ := List.exists_of_findSome?_eq_some hfr
        simp only [Option.map_eq_some_iff] at hq
        obtain ⟨e', he', hpair⟩ := hq
        cases hpair
        have hmem := List.mem_of_find?_eq_some he'
        have hphase : e.phase = .accepted := by
          have := List.find?_some he'
          simp only [Bool.and_eq_true, beq_iff_eq] at this
          exact this.1.1.1.2
        have hk := (h.2 p hp).1
        have hring : d.ring x.ring = p.2 := by
          unfold Dev.ring
          rw [hcon.1, BitVec.toNat_ofNat, Nat.mod_eq_of_lt (by omega)]
          exact Tbl.get_of_mem _ (Tbl.wf_rising h.1) hp
        obtain ⟨y, hy, hyp, _⟩ := hc
        unfold Dev.entry? at hy
        rw [hring] at hy
        have hys : y.slot = x.slot.toNat := by have := List.find?_some hy; simpa using this
        have := find_slot_unique (h.2 p hp).2.1 (List.mem_of_find?_eq_some hy) hmem (hys.trans hcon.2)
        rw [this, hphase] at hyp
        cases hyp
      have h1 := Dev.completed_setRing (f := fun x => { x with phase := .completed, record := { seq := x.seq, opcode := 1, beat := d.time.n } }) h
        (Ring.reapply_window { d.ring k with window := (d.ring k).window.map fun x => if x.slot = e.slot then { x with phase := .completed, record := { seq := x.seq, opcode := 1, beat := d.time.n } } else x }) (fun _ => rfl) hne hc
      have h2 := Dev.ownStatus_completed (d := d.setRing k _) hw' ha h1 { ring := k, slot := BitVec.ofNat 12 e.slot } 0
      have h3 := Dev.postRing_done _ k h2.2.1
      exact ih h3.2 (by rw [Dev.postRing_await]; exact h2.2.2) (Dev.entry_done h3.1 h2.1)

/-- Completing an open descriptor that awaits no APPLIED leaves its record in its entry. -/
theorem Dev.finish_completed {d : Dev} {x : DescRef} {e : RetEntry} (h : d.rings.windowsOk) (he : d.entry? x = some e) (hp : e.phase ≠ .completed)
    (ha : ∀ a ∈ d.link.await, a.desc ≠ x) (st det i0 i1 : Nat) (b : Option Beat) :
    CompletedWith (d.finish x st det i0 i1 b) x
      { seq := e.seq, status := st, detail := det, opcode := descOpcode e.desc, info0 := i0, info1 := i1, beat := b.getD d.time.n } := by
  unfold Dev.finish
  rw [he]
  dsimp only
  rw [if_neg hp]
  generalize ({ seq := e.seq, status := st, detail := det, opcode := descOpcode e.desc, info0 := i0, info1 := i1, beat := b.getD d.time.n } : Completion) = c
  have hs : e.slot = x.slot.toNat := by have := List.find?_some he; simpa using this
  have hw := Rings.windowsOk_set h x.ring (Ring.reapply { d.ring x.ring with window := (d.ring x.ring).window.map fun y => if y.slot = x.slot.toNat then { y with phase := .completed, record := c } else y })
        (RingKept.mapped _ (fun y => by split <;> rfl) (Ring.reapply_window _))
  have h1 : CompletedWith (d.modRing x.ring fun r => Ring.reapply { r with window := r.window.map fun y => if y.slot = x.slot.toNat then { y with phase := .completed, record := c } else y }) x c := by
    refine ⟨{ e with phase := .completed, record := c }, ?_, rfl, rfl⟩
    unfold Dev.entry? Dev.modRing at *
    rw [Dev.ring_setRing d _ _ _ h, if_pos rfl, Ring.reapply_window, List.find?_map]
    have hcomp : ((fun e : RetEntry => e.slot == x.slot.toNat) ∘ fun y => if y.slot = x.slot.toNat then { y with phase := .completed, record := c } else y) = fun e : RetEntry => e.slot == x.slot.toNat := by
      funext y; dsimp only [Function.comp]; split <;> rfl
    rw [hcomp, he]
    simp [hs]
  generalize hd1 : (d.modRing x.ring fun r => Ring.reapply { r with window := r.window.map fun y => if y.slot = x.slot.toNat then { y with phase := .completed, record := c } else y }) = d1 at h1
  have hw1 : d1.rings.windowsOk := by rw [← hd1]; exact hw
  have hl1 : d1.link = d.link := by rw [← hd1]; rfl
  have step : ∀ d2 : Dev, d2.rings.pairs = d1.rings.pairs → d2.link = d1.link →
      CompletedWith (Dev.settle (d2.ownStatus x st).fences ((d2.ownStatus x st).postRing x.ring)) x c := by
    intro d2 hp2 hl2
    have hr := Dev.ownStatus_completed (Rings.windowsOk_pairs hp2 hw1) (by rw [hl2, hl1]; exact ha) (Dev.entry_done (.pairs hp2) h1) x st
    have hpst := Dev.postRing_done _ x.ring hr.2.1
    exact Dev.settle_completed _ hpst.2 (by rw [Dev.postRing_await]; exact hr.2.2) (Dev.entry_done hpst.1 hr.1)
  split
  all_goals first
    | exact step _ (by rw [Dev.raise_rings]; rfl) (by rw [Dev.raise_link]; rfl)
    | exact step _ rfl rfl

/-- Changing the entry of a descriptor. -/
theorem Dev.entry_setRing {d : Dev} {x : DescRef} {e : RetEntry} {r : Ring} {f : RetEntry → RetEntry} (h : d.rings.windowsOk) (he : d.entry? x = some e)
    (hw : r.window = (d.ring x.ring).window.map fun y => if y.slot = x.slot.toNat then f y else y) (hf : ∀ y, (f y).slot = y.slot) :
    (d.setRing x.ring r).entry? x = some (f e) := by
  unfold Dev.entry? at he ⊢
  have hs : e.slot = x.slot.toNat := by have := List.find?_some he; simpa using this
  rw [Dev.ring_setRing d _ _ _ h, if_pos rfl, hw, List.find?_map]
  have hcomp : ((fun e : RetEntry => e.slot == x.slot.toNat) ∘ fun y => if y.slot = x.slot.toNat then f y else y) = fun e : RetEntry => e.slot == x.slot.toNat := by
    funext y; dsimp only [Function.comp]; split
    · rw [hf]
    · rfl
  rw [hcomp, he]
  simp [hs]

/-- A started operation: its entry is marked, and nothing else of it changes. -/
theorem Dev.start_entry {d : Dev} {x : DescRef} {e : RetEntry} (h : d.rings.windowsOk) (he : d.entry? x = some e) :
    (d.start x).entry? x = some { e with started := true } ∧ (d.start x).rings.windowsOk :=
  ⟨Dev.entry_setRing (f := fun y => { y with started := true }) h he rfl fun _ => rfl, Rings.windowsOk_set h x.ring _ (RingKept.mapped _ (fun y => by split <;> rfl) rfl)⟩

/-- The commit point of an open descriptor. -/
theorem Dev.commitPoint_entry {d : Dev} {x : DescRef} {e : RetEntry} (h : d.rings.windowsOk) (he : d.entry? x = some e) (hp : e.phase ≠ .completed) :
    (∃ y, (d.commitPoint x).entry? x = some y ∧ y.phase ≠ .completed ∧ y.seq = e.seq ∧ y.desc = e.desc) ∧ (d.commitPoint x).rings.windowsOk := by
  have hm : ∀ l : List RetEntry, (l.map fun y => if y.slot = x.slot.toNat ∧ y.phase = .accepted then { y with phase := .committed, beat := d.time.n } else y)
      = l.map fun y => if y.slot = x.slot.toNat then (if y.phase = .accepted then { y with phase := .committed, beat := d.time.n } else y) else y := by
    intro l
    refine List.map_congr_left fun y _ => ?_
    by_cases h1 : y.slot = x.slot.toNat <;> by_cases h2 : y.phase = .accepted <;> simp [h1, h2]
  refine ⟨⟨_, Dev.entry_setRing (f := fun y => if y.phase = .accepted then { y with phase := .committed, beat := d.time.n } else y) h he
    ((Ring.reapply_window _).trans (hm _)) (fun y => by split <;> rfl), ?_, ?_, ?_⟩,
    Rings.windowsOk_set h x.ring _ (RingKept.mapped _ (fun y => by split <;> rfl) (Ring.reapply_window _))⟩
  · split
    · intro hc; cases hc
    · exact hp
  · split <;> rfl
  · split <;> rfl

/-- Committing and completing an open descriptor that awaits no APPLIED leaves its record, with status OK, in its entry. -/
theorem Dev.finishOk_completed {d : Dev} {x : DescRef} {e : RetEntry} (h : d.rings.windowsOk) (he : d.entry? x = some e) (hp : e.phase ≠ .completed)
    (ha : ∀ a ∈ d.link.await, a.desc ≠ x) (i0 i1 : Nat) :
    CompletedWith (d.finishOk x i0 i1) x { seq := e.seq, status := 0, opcode := descOpcode e.desc, info0 := i0, info1 := i1, beat := d.time.n } := by
  obtain ⟨⟨y, hy, hyp, hs, hd⟩, hw⟩ := Dev.commitPoint_entry h he hp
  have := Dev.finish_completed hw hy hyp (fun a hm => ha a hm) 0 0 i0 i1 none
  rw [hs, hd] at this
  exact this

end Sys2Proof.Machine
end

