-- ==== Sys2Proof/Laws/Seal.lean ====
section
/-! SUPPORT. Sealed lines: what a seal stores, and that it opens to its plaintext. -/

namespace Sys2Proof.Machine
open Sys2Proof

theorem Memory.readN_congr (m k : Memory) (a n : Nat) (h : ∀ x, a ≤ x → x < a + n → Memory.read m x = Memory.read k x) :
    Memory.readN m a n = Memory.readN k a n := by
  induction n generalizing a with
  | zero => rfl
  | succ n ih =>
    show Memory.read m a :: Memory.readN m (a + 1) n = Memory.read k a :: Memory.readN k (a + 1) n
    rw [h a (Nat.le_refl a) (by omega), ih (a + 1) fun x hx hy => h x (by omega) (by omega)]

/-- Metadata written is read back. -/
theorem Cellar.metaOf_putMeta (c : Cellar) (line : Nat) (m : Meta) (h : m.state < 4) :
    (c.putMeta line m).metaOf line = { m with rsvOk := true } := by
  have hn := Memory.readN_writeN c.mem (metaAddr line) (leBytes 16 (m.ctr.toNat + m.mac.toNat * 2 ^ 32 + m.slot.toNat * 2 ^ 96 + m.state * 2 ^ 102))
  rw [leBytes_length] at hn
  have hc := m.ctr.isLt
  have hm := m.mac.isLt
  have hs := m.slot.isLt
  unfold Cellar.metaOf Cellar.putMeta Memory.readLe
  dsimp only
  rw [hn, leNat_leBytes]
  have e1 : BitVec.ofNat 32 ((m.ctr.toNat + m.mac.toNat * 2 ^ 32 + m.slot.toNat * 2 ^ 96 + m.state * 2 ^ 102) % 256 ^ 16) = m.ctr := by
    apply BitVec.eq_of_toNat_eq
    rw [BitVec.toNat_ofNat]
    omega
  have e2 : BitVec.ofNat 64 (fld ((m.ctr.toNat + m.mac.toNat * 2 ^ 32 + m.slot.toNat * 2 ^ 96 + m.state * 2 ^ 102) % 256 ^ 16) 32 64) = m.mac := by
    apply BitVec.eq_of_toNat_eq
    rw [BitVec.toNat_ofNat, fld, Nat.shiftRight_eq_div_pow]
    omega
  have e3 : BitVec.ofNat 6 (fld ((m.ctr.toNat + m.mac.toNat * 2 ^ 32 + m.slot.toNat * 2 ^ 96 + m.state * 2 ^ 102) % 256 ^ 16) 96 6) = m.slot := by
    apply BitVec.eq_of_toNat_eq
    rw [BitVec.toNat_ofNat, fld, Nat.shiftRight_eq_div_pow]
    omega
  have e4 : fld ((m.ctr.toNat + m.mac.toNat * 2 ^ 32 + m.slot.toNat * 2 ^ 96 + m.state * 2 ^ 102) % 256 ^ 16) 102 2 = m.state := by
    rw [fld, Nat.shiftRight_eq_div_pow]
    omega
  have e5 : fld ((m.ctr.toNat + m.mac.toNat * 2 ^ 32 + m.slot.toNat * 2 ^ 96 + m.state * 2 ^ 102) % 256 ^ 16) 104 24 = 0 := by
    rw [fld, Nat.shiftRight_eq_div_pow]
    omega
  rw [e1, e2, e3, e4, e5]
  rfl

/-- The metadata of a line stands apart from the lines of data space. -/
theorem Cellar.raw_putMeta (c : Cellar) (line l : Nat) (m : Meta) (h : l < dataLines) : (c.putMeta line m).raw l = c.raw l := by
  unfold Cellar.raw Cellar.putMeta Memory.readLe
  dsimp only
  rw [Memory.readN_congr]
  intro x hx hy
  apply Memory.read_writeN_outside
  left
  unfold metaAddr
  unfold dataLines at h
  omega

theorem Cellar.key_setKey_same (c : Cellar) (k : BitVec 6) (x : KeySlot) : (c.setKey k x).key k = x := Tbl.get_set_same _ _ _ _

/-- A line's metadata and bytes are read from the stack alone. -/
theorem Cellar.metaOf_congr {c k : Cellar} (h : c.mem = k.mem) (l : Nat) : c.metaOf l = k.metaOf l := by
  unfold Cellar.metaOf
  rw [h]

theorem Cellar.raw_congr {c k : Cellar} (h : c.mem = k.mem) (l : Nat) : c.raw l = k.raw l := by
  unfold Cellar.raw
  rw [h]

theorem Cellar.metaOf_setKey (c : Cellar) (k : BitVec 6) (x : KeySlot) (l : Nat) : (c.setKey k x).metaOf l = c.metaOf l :=
  Cellar.metaOf_congr (c := c.setKey k x) (k := c) (show (c.setKey k x).mem = c.mem from rfl) l

theorem Cellar.clearing_setKey (c : Cellar) (k : BitVec 6) (x : KeySlot) : (c.setKey k x).clearing = c.clearing := rfl

theorem Cellar.clearing_putMeta (c : Cellar) (l : Nat) (m : Meta) : (c.putMeta l m).clearing = c.clearing := by
  unfold Cellar.putMeta
  generalize leBytes 16 _ = b
  rfl

theorem Cellar.clearing_putRaw (c : Cellar) (l : Nat) (v : BitVec 1024) : (c.putRaw l v).clearing = c.clearing := by
  unfold Cellar.putRaw
  generalize leBytes 128 _ = b
  rfl

theorem Cellar.key_putMeta (c : Cellar) (l : Nat) (m : Meta) (k : BitVec 6) : (c.putMeta l m).key k = c.key k := by
  unfold Cellar.putMeta Cellar.key
  generalize leBytes 16 _ = b
  rfl

theorem Cellar.key_putRaw (c : Cellar) (l : Nat) (v : BitVec 1024) (k : BitVec 6) : (c.putRaw l v).key k = c.key k := by
  unfold Cellar.putRaw Cellar.key
  generalize leBytes 128 _ = b
  rfl

theorem Cellar.raw_setKey (c : Cellar) (k : BitVec 6) (x : KeySlot) (l : Nat) : (c.setKey k x).raw l = c.raw l :=
  Cellar.raw_congr (c := c.setKey k x) (k := c) (show (c.setKey k x).mem = c.mem from rfl) l

/-- What a seal leaves of its line's metadata. -/
theorem Cellar.metaOf_seal (c : Cellar) (line : Nat) (slot : BitVec 6) (ctr : BitVec 32) (p : BitVec 1024) :
    (c.seal line slot ctr p).metaOf line =
      { ctr, slot, state := 1, rsvOk := true,
        mac := gcmTag (c.key slot).ke (sealIv line ctr slot) (sealAad line ctr slot)
          (p ^^^ gcmStream (c.key slot).ke (sealIv line ctr slot)) } := by
  unfold Cellar.seal
  dsimp only
  rw [Cellar.metaOf_setKey, Cellar.metaOf_putMeta _ _ _ (Nat.one_lt_ofNat : (1 : Nat) < 4)]

/-- What a seal stores in its line. -/
theorem Cellar.raw_seal (c : Cellar) (line : Nat) (slot : BitVec 6) (ctr : BitVec 32) (p : BitVec 1024) (h : line < dataLines) :
    (c.seal line slot ctr p).raw line = p ^^^ gcmStream (c.key slot).ke (sealIv line ctr slot) := by
  unfold Cellar.seal
  dsimp only
  rw [Cellar.raw_setKey, Cellar.raw_putMeta _ _ _ _ h, Cellar.raw_putRaw]

/-- A seal leaves its key slot as it was, but FRESH. -/
theorem Cellar.key_seal (c : Cellar) (line : Nat) (slot : BitVec 6) (ctr : BitVec 32) (p : BitVec 1024) :
    (c.seal line slot ctr p).key slot = { c.key slot with fresh := false } := by
  unfold Cellar.seal
  dsimp only
  rw [Cellar.key_setKey_same, Cellar.key_putMeta, Cellar.key_putRaw]

/-- A seal leaves every other key slot as it was. -/
theorem Cellar.key_seal_other (c : Cellar) (line : Nat) (slot k : BitVec 6) (ctr : BitVec 32) (p : BitVec 1024) (h : k ≠ slot) :
    (c.seal line slot ctr p).key k = c.key k := by
  unfold Cellar.seal Cellar.setKey
  dsimp only
  unfold Cellar.key
  dsimp only
  rw [Tbl.get_set_other _ _ _ _ _ fun e => h (BitVec.eq_of_toNat_eq e)]
  exact (Cellar.key_putMeta _ _ _ k).trans (Cellar.key_putRaw _ _ _ k)

/-- A seal writes every word of its line and of the line's metadata, so that none of them stays unreadable. -/
theorem Cellar.unread_seal (c : Cellar) (line : Nat) (slot : BitVec 6) (ctr : BitVec 32) (p : BitVec 1024) :
    (c.seal line slot ctr p).unread = (c.unread.filter (!wordIn (128 * line) 128 ·)).filter (!wordIn (metaAddr line) 16 ·) := by
  unfold Cellar.seal Cellar.setKey Cellar.putMeta Cellar.putRaw
  generalize leBytes 128 _ = b
  generalize leBytes 16 _ = b'
  rfl

/-- A seal leaves the rows under repair as they were. -/
theorem Cellar.inRepair_seal (c : Cellar) (line l : Nat) (slot : BitVec 6) (ctr : BitVec 32) (p : BitVec 1024) :
    (c.seal line slot ctr p).inRepair l = c.inRepair l := by
  unfold Cellar.inRepair Cellar.seal Cellar.setKey Cellar.putMeta Cellar.putRaw
  generalize leBytes 128 _ = b
  generalize leBytes 16 _ = b'
  rfl

/-- A sealed line opens to its plaintext, GOOD while its row is not under repair (R159, R169). -/
theorem Cellar.openSealed_seal (c : Cellar) (line : Nat) (slot : BitVec 6) (ctr : BitVec 32) (p : BitVec 1024) (n : Nat) (hl : line < dataLines)
    (hk : (c.key slot).phase ≠ .empty) (hc : c.clearing = false) (hr : c.inRepair line = false) :
    (c.seal line slot ctr p).openSealed line {} n = (.good, p) := by
  have hc' : (c.seal line slot ctr p).clearing = false := by
    unfold Cellar.seal
    dsimp only
    rw [Cellar.clearing_setKey, Cellar.clearing_putMeta, Cellar.clearing_putRaw, hc]
  have hm : (c.seal line slot ctr p).metaUe line {} = false := by
    unfold Cellar.metaUe
    rw [Cellar.unread_seal]
    simp +contextual
  have hd : (c.seal line slot ctr p).dataUe line {} = false := by
    unfold Cellar.dataUe
    rw [Cellar.unread_seal]
    simp +contextual
  unfold Cellar.openSealed
  simp only [hm, hd]
  simp [hc', Cellar.metaOf_seal, Cellar.raw_seal _ _ _ _ _ hl, Cellar.key_seal, hk, Cellar.inRepair_seal, hr]

end Sys2Proof.Machine
end

