-- ==== Sys2Proof/Tests/Slice0.lean ====
section
/-! SUPPORT. Tests of the model: commands that name absent units, a state that meets the hypotheses of each clause of each statement (a state is its
device, with an empty queue), and values that the spec gives. -/

section

-- the tests one after the other: their evaluations side by side take more memory than a check has
set_option Elab.async false

open Sys2Proof
open Sys2Proof.Machine

-- commands that name a unit which the device does not have (WellFormed)

theorem test_wellFormed_refuses_absent_links :
    [Instr.flitCrcError ⟨15, 16, false⟩, .linkDown ⟨0, 16, true⟩, .linkRetrainDone ⟨16, 17, false⟩, .linkRetrainRetry ⟨31, 31, true⟩].all
      (fun c => !c.wellFormed) = true := by decide

theorem test_wellFormed_refuses_parts_of_lines :
    [Instr.cellarRead .core 0 1 {}, .cellarWrite .core 0 0x7F 0 0 {}, .patrolRead 0x81 {}].all (fun c => !c.wellFormed) = true := by decide

theorem test_wellFormed_refuses_absent_lanes :
    [Instr.cdrLock 96, .alignDone 96, .laneLoss { lane := 127 }, .adaptDone 96, .eyeStart (.fn 0) 96 0, .eyeScanDone 96 [], .prbsLock { lane := 100 }].all
      (fun c => !c.wellFormed) = true := by decide

theorem test_wellFormed_refuses_absent_egresses_inputs_and_streams :
    [Instr.egressGroup 1056, .forceApply 2047, .tdcEdge 9 false, .tdcPop (.fn 0) 15, .iodlyStep 384, .traceRpWrite (.fn 0) 17 0].all
      (fun c => !c.wellFormed) = true := by decide

theorem test_wellFormed_takes_the_last_unit_of_each_kind :
    [Instr.flitCrcError ⟨15, 15, false⟩, .linkDown ⟨16, 16, true⟩, .cdrLock 95, .egressGroup 1055, .tdcEdge 8 true, .iodlyStep 383,
     .traceRpWrite (.fn 0) 16 0, .patrolRead 0x80 {}].all Instr.wellFormed = true := by decide

theorem test_absent_lane_stops : exec (.cdrLock 96) State.reset = .fault .noSuchUnit := rfl

theorem witness_IdleStepTicks :
    (State.reset.pending = [] ∧ ({ State.reset.dev with power := {} } : Dev).power.cold = true ∧ State.reset.dev.power.cold = false) ∧
    (∀ k, (State.reset.dev.timePort k).en = false) ∧ (State.reset.dev.stream 16).window = [] ∧ State.reset.dev.link.loop = [] ∧
    (∀ b, (State.reset.dev.bd b).reorder = []) ∧
    State.reset.dev.fabric.edges State.reset.dev.fabric.ran (State.reset.dev.now + State.reset.dev.time.incr) = [] :=
  ⟨⟨rfl, rfl, rfl⟩, fun _ => rfl, rfl, rfl, fun _ => rfl, by decide +kernel⟩

theorem witness_OnlyAbsentUnitsStop : (Instr.cdrLock 95).wellFormed = true ∧ (Instr.cdrLock 96).wellFormed = false := by decide

theorem witness_CommandsLeaveOtherParts : ∃ t, exec (.ringHoldEnd 3) State.reset = .next t := ⟨_, rfl⟩

-- rooms

/-- A room whose BP 0 issues the word `w`, as its one instruction of the step, with 200 tokens in the window. -/
def Tests.roomWith (w : BitVec 96) : Room :=
  { phase := .run, levels := [(1, 12)], passes := 1, bps := [(0, { imem := [(0, w)] })], envelope := [200], func := 7 }

/-- The device whose room 3 is `rm`. -/
def Tests.withRoom (rm : Room) : Dev := { State.reset.dev with rooms := [(3, rm)] }

theorem witness_EvalWritesItsResult : Issues ((Tests.withRoom (Tests.roomWith 0)).room 3) 0 0 1 0 :=
  ⟨by decide, by decide, by decide, by decide⟩

/-- A room that sends by entry `e`, of a device that holds function 7. -/
def Tests.sender (e : BitVec 64) : Dev :=
  { Tests.withRoom { Tests.roomWith 0x40 with sends := [(0, e)] } with
    funcs := [{ id := 7, obj := {}, r := 1, owner := 0, gen := 0, budget := 0, places := [], ends := {} }] }

theorem witness_SendPlacesItsWord :
    (let d := Tests.sender 1
     Issues (d.room 3) 0 0 1 1 ∧ ((d.room 3).slot 0).cur = none) ∧
    (let d := Tests.sender 0x6000000000000001
     Issues (d.room 3) 0 0 121 1 ∧ (d.func? (d.room 3).func).isSome = true) := by
  refine ⟨⟨⟨?_, ?_, ?_, ?_⟩, ?_⟩, ⟨?_, ?_, ?_, ?_⟩, ?_⟩ <;> decide

theorem witness_MrdReadsItsBank : Issues ((Tests.withRoom (Tests.roomWith 0x80)).room 3) 0 0 1 2 :=
  ⟨by decide, by decide, by decide, by decide⟩

/-- A write queue of 256 entries. -/
def Tests.fullQueue : List MwrEntry := List.replicate 256 { bank := 0, addr := 0, data := 0, mask := 0, full := false }

theorem witness_MwrQueuesItsWrite :
    (let rm := Tests.roomWith 0xC0
     Issues rm 0 0 1 3 ∧ rm.wq.length < 256) ∧
    (let rm := { Tests.roomWith 0xC0 with wq := Tests.fullQueue }
     Issues rm 0 0 1 3 ∧ 256 ≤ rm.wq.length) := by
  refine ⟨⟨⟨?_, ?_, ?_, ?_⟩, ?_⟩, ⟨?_, ?_, ?_, ?_⟩, (List.length_replicate ..).ge⟩ <;> decide

theorem witness_SliceLvbAndNopIssue :
    (let rm := { Tests.roomWith 0x100 with sliceDesc := [(0, 0x80000000)] }
     Issues rm 0 0 40 4 ∧ (parseSlice (Tbl.get 0 rm.sliceDesc 0)).en = true) ∧
    (let rm := { Tests.roomWith 0x140 with slices := [(0, { queue := [[5]] })] }
     Issues rm 0 0 1 5 ∧ (rm.sl 0).queue = [[5]]) ∧
    Issues (Tests.roomWith 0x180) 0 0 0 6 ∧ Issues (Tests.roomWith 0x1C0) 0 0 0 7 := by
  refine ⟨⟨⟨?_, ?_, ?_, ?_⟩, ?_⟩, ⟨⟨?_, ?_, ?_, ?_⟩, ?_⟩, ⟨?_, ?_, ?_, ?_⟩, ?_, ?_, ?_, ?_⟩ <;> decide

theorem witness_LevelsPassesAndVote :
    (let rm : Room := { phase := .run, levels := [(1, 12), (2, 12)], idx := 1, passes := 1 }
     rm.idx = levelEnd rm.levels rm.level ∧ rm.level + 1 < rm.levels.length) ∧
    (let rm : Room := { phase := .run, levels := [(1, 12)], idx := 1, passes := 2 }
     rm.idx = levelEnd rm.levels rm.level ∧ rm.levels.length ≤ rm.level + 1 ∧ rm.pass + 1 < rm.passes) ∧
    (let rm : Room := { phase := .run, levels := [(1, 12)], idx := 1, passes := 2, pass := 1 }
     rm.idx = levelEnd rm.levels rm.level ∧ rm.levels.length ≤ rm.level + 1 ∧ rm.passes ≤ rm.pass + 1) := by decide

theorem witness_SliceResultsLeaveThePipeline :
    ((Tests.withRoom { slices := [(2, { pipe := [{ t := 0, planes := [1], clamped := 0 }] })] }).room 3 |>.sl 2).pipe =
      [{ t := 0, planes := [1], clamped := 0 }] := by decide

theorem witness_LateRoomsStallAndVote :
    (let rm : Room := { undecided := some 4, ahead := true, phase := .ended }
     rm.undecided ≠ none ∧ rm.late = false ∧ (rm.phase = .run ∨ rm.phase = .ended) ∧ rm.ahead = true) ∧
    (let rm : Room := { phase := .stalled }
     rm.undecided = none ∧ rm.late = false ∧ rm.phase = .stalled) := by decide

-- packets, votes and decisions

/-- A function of one room, room 3. -/
def Tests.func : Func :=
  { id := 7, obj := { bindings := [{ type := 2, num := 1, vroom := 0, size := 4 }] }, r := 1, owner := 0, gen := 0, budget := 0,
    places := [⟨false, 0, 0, 3⟩], ends := {}, phase := .admitted }

/-- A device that holds the function and the packet. -/
def Tests.carrying (p : Packet) : Dev := { Tests.withRoom { func := 7 } with net := { xch := [p] }, funcs := [Tests.func] }

theorem witness_PacketsReachWindowsAndDrains :
    (let p : Packet := { src := .room 5, dst := .room 3, kind := .window, beat := 1, words := [{ idx := 1023, word := 1 }] }
     let d := Tests.carrying p
     takePacket (.room 5) (.room 3) d.net.xch = some (p, []) ∧ (d.room 3).func ≠ 0xFFFF ∧ p.gen = (d.room 3).gen ∧ p.beat = d.time.n + 1) ∧
    (let p : Packet := { src := .room 5, dst := .room 3, kind := .window, beat := 2 }
     let d := Tests.carrying p
     takePacket (.room 5) (.room 3) d.net.xch = some (p, []) ∧ ¬ (p.beat = d.time.n ∨ p.beat = d.time.n + 1)) ∧
    (∀ i : Fin 2,
      let w : PktWord := { idx := 3 + i, word := 1 }
      let p : Packet := { src := .room 3, dst := .hub 3, kind := .drain, tgt := 1, func := 7, beat := 0, words := [w] }
      let d := Tests.carrying p
      takePacket (.room 3) (.hub 3) d.net.xch = some (p, []) ∧ d.func? p.func = some Tests.func ∧ d.hubTakes Tests.func p = true ∧
      Tests.func.obj.bindings.find? (fun b => b.type == 2 && b.num == p.tgt) = some { type := 2, num := 1, vroom := 0, size := 4 }) := by
  decide

/-- A vote of room 3 for beat 0. -/
def Tests.vote : Vote := { func := 7, vroom := 0, set := false, restart := false, status := 3, beat := 0, crc := 0, room := 3 }

/-- A stream that has been delivered for beat 0. -/
def Tests.flight : StreamFlight :=
  { st := ⟨7, 0, 0, 2⟩, beat := 0, att := false, slot := 4, words := [1, 2], verdict := .good, delivered := true }

/-- What a function of another device depends on. -/
def Tests.dep : RemoteDep := { dev := 9, sender := 5, func := 7, vroom := 0, rep := 0, bind := 0, since := 0 }

theorem witness_ArbiterTakesVotesAndVerdicts :
    (let d := { Tests.withRoom {} with net := { votes := [Tests.vote] }, funcs := [Tests.func] }
     d.net.votes.find? (·.room == 3) = some Tests.vote ∧ d.func? 7 = some Tests.func ∧ Tests.vote.beat = d.time.n ∧
     Tests.func.places.any (·.room == 3) = true ∧ Tests.func.decided = none) ∧
    (let d := { Tests.withRoom {} with cellar := { flights := [Tests.flight] }, funcs := [Tests.func] }
     d.cellar.flights.find? (fun x => x.st == ⟨7, 0, 0, 2⟩ && x.delivered) = some Tests.flight ∧ d.func? 7 = some Tests.func ∧
     Tests.flight.beat = d.time.n ∧ Tests.flight.att = d.streamAtt ⟨7, 0, 0, 2⟩ ∧ Tests.func.decided = none) ∧
    (let f : Func := { Tests.func with past := [{ func := 7, beat := 4, commit := true, cause := 0 }, { func := 7, beat := 5, commit := true, cause := 0 }] }
     let v : Vote := { Tests.vote with beat := 6 }
     v.status = 3 ∧ ∀ x ∈ f.past, Tbl.get 0 f.lastVote v.room.toNat ≤ x.beat ∧ x.beat < v.beat) ∧
    (let d := { Tests.withRoom {} with link := { deps := [Tests.dep] }, funcs := [Tests.func] }
     Tests.dep ∈ d.link.deps ∧ d.func? Tests.dep.func = some Tests.func) := by decide

theorem witness_ArbiterDecidesWithTheFirstCause :
    let d := { Tests.withRoom {} with funcs := [Tests.func] }
    d.func? 7 = some Tests.func ∧ Tests.func.phase = .admitted ∧ Tests.func.decided = none ∧ Tests.func.since ≤ d.time.n ∧ d.halted = false := by
  decide

/-- A decision of function 7. -/
def Tests.dec (beat : Beat) (commit : Bool) : Decision := { func := 7, beat, commit, cause := 0 }

/-- A device whose room 3 is `rm` and to which a decision is on its way. -/
def Tests.deciding (rm : Room) (to_ : Recipient) (x : Decision) : Dev :=
  { Tests.withRoom rm with net := { decs := [(to_, x)] }, funcs := [Tests.func], time := { n := 6 } }

theorem witness_DecisionsReachRoomsAndHub :
    (let d := Tests.deciding { func := 7 } (.room 3) (Tests.dec 6 true)
     d.net.decs.find? (fun y => y.1 == .room 3) = some (.room 3, Tests.dec 6 true) ∧ (d.room 3).func = 7 ∧ Tests.dec 6 true ∉ (d.room 3).decisions ∧
     (d.room 3).undecided = none ∧ (Tests.dec 6 true).beat = d.time.n) ∧
    (∀ c : Bool, let d := Tests.deciding { func := 7, undecided := some 5, ahead := true, phase := .run } (.room 3) (Tests.dec 5 c)
     d.net.decs.find? (fun y => y.1 == .room 3) = some (.room 3, Tests.dec 5 c) ∧ (d.room 3).func = 7 ∧ Tests.dec 5 c ∉ (d.room 3).decisions ∧
     (d.room 3).undecided = some (Tests.dec 5 c).beat ∧ (d.room 3).phase ≠ .stalled ∧ (d.room 3).ahead = true) ∧
    (∀ b : Bool, let x := Tests.dec (if b then 6 else 5) true
     let d := Tests.deciding {} (.hub 7) x
     d.net.decs.find? (fun y => y.1 == .hub 7) = some (.hub 7, x) ∧ d.func? x.func = some Tests.func ∧ (x.beat = d.time.n ↔ b = true)) := by decide

theorem witness_RingLinksFailAndReturn :
    linkOk ⟨15, 15, true⟩ = true ∧ linkOk ⟨31, 16, false⟩ = true ∧
    (let n : Net := { links := [(linkDirKey ⟨0, 0, false⟩, { down := true })] }
     (Tbl.get ({} : LinkState) n.links (linkDirKey ⟨0, 0, false⟩)).down = true) := by decide

-- the cellar

/-- A cellar of one region, lines 0 to 31, with every right, and queue 0 of a kind under write slot 1, which is active. -/
def Tests.cellar (sealed_ : Bool) (kind : BitVec 3) : Cellar :=
  { regions := [(2, { en := true, sealed_, rights := 0x1FF })], queues := [(0, { en := true, kind, wevalid := true, weff := 1 })],
    keys := [(1, { phase := .active })], training := false }

/-- The device with that cellar. -/
def Tests.withCellar (c : Cellar) : Dev := { State.reset.dev with cellar := c }

/-- Line 5 sealed under slot 1. -/
def Tests.sealed_ : Cellar := (Tests.cellar true 2).seal 5 1 7 0xBEE

theorem Tests.sealed_meta : Tests.sealed_.metaOf 5 =
    { ctr := 7, slot := 1, state := 1, rsvOk := true, mac := gcmTag 0 (sealIv 5 7 1) (sealAad 5 7 1) (0xBEE ^^^ gcmStream 0 (sealIv 5 7 1)) } :=
  Cellar.metaOf_seal _ _ _ _ _

/-- Line 5 with state 1 and a MAC that fails: its slot is EMPTY. -/
def Tests.spoilt : Cellar := { (Tests.cellar true 2).putMeta 5 { ctr := 7, mac := 0, slot := 9, state := 1, rsvOk := true } with keys := [] }

theorem witness_CellarReadsAnswer_plain :
    (Tests.cellar false 2).permits .core 0 0 (wantOf .core false) false = some (2, { en := true, rights := 0x1FF }) ∧
    PlainLine (Tests.withCellar (Tests.cellar false 2)) 31 := ⟨by decide, by decide, by decide, by decide, by decide⟩

theorem witness_CellarReadsAnswer_bar :
    lineOk 0 = true ∧ (Tests.cellar false 2).dataUe 0 {} = false ∧ lineOk 0x3F0000000 = true ∧ 0x3F0000000 ≤ 128 * ((0x3F0000000 : BitVec 34).toNat / 128) := by
  decide +kernel

theorem witness_CellarReadsAnswer_unwritten :
    (Tests.cellar true 2).permits .core 0 5 (wantOf .core false) false = some (2, { en := true, sealed_ := true, rights := 0x1FF }) ∧
    ((Tests.cellar true 2).metaOf 5).rsvOk = true ∧ ((Tests.cellar true 2).metaOf 5).state = 0 := by decide

theorem witness_CellarReadsAnswer_good :
    (Tests.sealed_.metaOf 5).rsvOk = true ∧ (Tests.sealed_.metaOf 5).state = 1 ∧ Tests.sealed_.inRepair 5 = false ∧
    (Tests.sealed_.key (Tests.sealed_.metaOf 5).slot).phase ≠ .empty ∧
    gcmTag (Tests.sealed_.key (Tests.sealed_.metaOf 5).slot).ke (sealIv 5 (Tests.sealed_.metaOf 5).ctr (Tests.sealed_.metaOf 5).slot)
      (sealAad 5 (Tests.sealed_.metaOf 5).ctr (Tests.sealed_.metaOf 5).slot) (Tests.sealed_.raw 5) = (Tests.sealed_.metaOf 5).mac := by
  rw [Tests.sealed_meta]
  refine ⟨rfl, rfl, by rw [Tests.sealed_, Cellar.inRepair_seal]; decide, by rw [Tests.sealed_, Cellar.key_seal]; decide, ?_⟩
  rw [Tests.sealed_, Cellar.key_seal, Cellar.raw_seal _ _ _ _ _ (by decide)]
  rfl

theorem witness_CellarReadsAnswer_stops :
    ((Tests.spoilt.metaOf 5).rsvOk = true ∧ (Tests.spoilt.metaOf 5).state = 1 ∧ (Tests.spoilt.key (Tests.spoilt.metaOf 5).slot).phase = .empty) ∧
    ({} : Cellar).permits .core 0 5 (wantOf .core false) false = none := by decide +kernel

theorem witness_PlainWritesStoreTheirBytes :
    lineOk (31 * 128) = true ∧ MemCanon (Tests.withCellar (Tests.cellar false 2)) ∧
    (Tests.cellar false 2).permits .core 0 31 (wantOf .core true) true = some (2, { en := true, rights := 0x1FF }) ∧
    ((Tests.cellar false 2).region 2).sealed_ = false ∧ (Tests.cellar false 2).clearing = false ∧
    (31 < dataLines ∧ (Tests.cellar false 2).regionOf 31 = some (2, { en := true, rights := 0x1FF }) ∧ (0x1FF : BitVec 9).getLsbD 8 = true) :=
  ⟨by decide, ⟨by decide, ⟨by decide, by decide, by decide⟩, by decide⟩, by decide, by decide, by decide, by decide⟩

theorem witness_SealedWritesReadBack :
    ((Tests.cellar true 2).permits .core 0 31 (wantOf .core true) true = some (2, { en := true, sealed_ := true, rights := 0x1FF }) ∧
     ((Tests.cellar true 2).region 2).sealed_ = true ∧ ((Tests.cellar true 2).key ((Tests.cellar true 2).writeSlot 0 31)).phase = .active ∧
     ((Tests.cellar true 2).metaOf 31).state = 0 ∧ (Tests.cellar true 2).inRepair 31 = false ∧ (Tests.cellar true 2).metaUe 31 {} = false) ∧
    (let c := { Tests.cellar true 2 with unread := [metaAddr 31 / 8] }
     c.permits .core 0 31 (wantOf .core true) true = some (2, { en := true, sealed_ := true, rights := 0x1FF }) ∧ (c.region 2).sealed_ = true ∧
     (c.key (c.writeSlot 0 31)).phase = .active ∧ (c.metaOf 31).state = 0 ∧ c.inRepair 31 = false ∧ c.metaUe 31 {} = true) ∧
    (Tests.cellar true 2).permits .core 0 32 (wantOf .core true) true = none ∧
    (dataLines ≤ (0x3FFFFFF80 : BitVec 34).toNat / 128 ∧ (Tests.cellar true 2).barOk 32 = false) := by decide +kernel

/-- A committed entry of the write buffer for line 31. -/
def Tests.wbEntry : WbEntry :=
  { func := 7, rep := 0, beat := 4, att := false, line := 31, words := [(0, some 1)], slot := none, queue := 0, committed := true }

theorem witness_WriteBackStoresItsWords :
    let c := { Tests.cellar false 0 with wb := [Tests.wbEntry] }
    c.nextBack = some Tests.wbEntry ∧ c.regionOf Tests.wbEntry.line = some (2, { en := true, rights := 0x1FF }) ∧ (c.region 2).sealed_ = false := by
  decide

/-- A sweep from slot 1 to slot 2 at line 5, which stands sealed under slot 1. -/
def Tests.swept : Cellar :=
  { Tests.cellar true 2 with
    sweeps := [(3, { phase := .run, tgt := 2, region := 2, bound := 5, stop := 32 })], keys := [(1, { phase := .active }), (2, { phase := .active })] }

theorem witness_SweepsResealLines :
    (let c := Tests.swept.seal 5 1 7 0xBEE
     MemCanon (Tests.withCellar c) ∧ SweepsFlow (Tests.withCellar Tests.swept) ∧ (c.metaOf 5).state = 1 ∧ (c.metaOf 5).slot = 1 ∧ (c.metaOf 5).ctr = 7 ∧
     c.openSealed 5 {} 0 = (.good, 0xBEE) ∧ (c.key 2).phase = .active) ∧
    (let c : Cellar := { clearing := true }
     MemCanon (Tests.withCellar c) ∧ SweepsFlow (Tests.withCellar c) ∧ c.heldWrites = []) := by
  refine ⟨⟨⟨Cellar.seal_wf (by decide) _ _ _ _, ⟨by decide, by decide, by decide⟩, by decide⟩, ⟨by decide, by decide, by decide, by decide⟩,
    ?_, ?_, ?_, Cellar.openSealed_seal _ _ _ _ _ _ (by decide) (by decide) (by decide) (by decide), ?_⟩,
    ⟨by decide, ⟨by decide, by decide, by decide⟩, by decide⟩, ⟨by decide, by decide, by decide, by decide⟩, by decide⟩
  · rw [Cellar.metaOf_seal]
  · rw [Cellar.metaOf_seal]
  · rw [Cellar.metaOf_seal]
  · rw [Cellar.key_seal_other _ _ _ _ _ _ (by decide)]
    decide

-- descriptors, for the operations

/-- The entry of a descriptor, with the memory that it names. -/
def Tests.entry (w : BitVec 512) (args : Option Bytes := none) : RetEntry := { slot := 0, seq := 0, desc := w, args }

/-- A device with that entry as the only one of pair 0's window. -/
def Tests.withEntry (d : Dev) (e : RetEntry) : Dev :=
  { d with rings := { pairs := [(0, { en := true, phase := .run, window := [e], nextseq := 1 })], ready := true } }

theorem Tests.windows (d : Dev) (e : RetEntry) (h : e.slot < 4096) : (Tests.withEntry d e).rings.windowsOk := by
  refine ⟨by simp [Tests.withEntry, Tbl.wf], ?_⟩
  intro p hp
  rw [show p = _ from List.mem_singleton.1 hp]
  exact ⟨Nat.succ_pos 511, by simp, fun x hx => List.mem_singleton.1 hx ▸ h⟩

theorem Tests.runs {d : Dev} {e : RetEntry} {op : Nat} (h : (Tests.withEntry d e).startable ⟨0, 0⟩ op = some e) (hs : e.slot < 4096)
    (hl : d.link.await = []) : CanRun (Tests.withEntry d e) ⟨0, 0⟩ op e :=
  ⟨h, Tests.windows d e hs, fun a ha => by rw [show (Tests.withEntry d e).link.await = [] from hl] at ha; cases ha⟩

theorem Tests.opens {d : Dev} {e : RetEntry} (h : (Tests.withEntry d e).entry? ⟨0, 0⟩ = some e) (hp : e.phase ≠ .completed) (hs : e.slot < 4096)
    (hl : d.link.await = []) : OpenDesc (Tests.withEntry d e) ⟨0, 0⟩ e :=
  ⟨h, hp, Tests.windows d e hs, fun a ha => by rw [show (Tests.withEntry d e).link.await = [] from hl] at ha; cases ha⟩

/-- A reset device whose strongroom takes plain keys, with a cellar. -/
def Tests.plain (c : Cellar) : Dev := { Tests.withCellar c with strong := { plainkey := true } }

theorem witness_StackErrorsAndRepairs :
    (State.reset.dev.background = false ∧ State.reset.dev.cellar.rowErrors = [] ∧ State.reset.dev.cellar.repairing = [] ∧
     State.reset.dev.cellar.unread = [] ∧ ∀ e ∈ State.reset.dev.cellar.sweeps, e.2.phase = .idle) ∧
    (let d := Tests.withCellar { repairing := [{ pc := 15, row := 9 }] }
     d.cellar.repairing.find? (fun r => r.pc == (15 : BitVec 4).toNat) = some { pc := 15, row := 9 } ∧
     (∀ w ∈ ({ pc := 15, row := 9 } : Repair).bad, w ∉ d.cellar.unread) ∧ ∀ e ∈ d.cellar.sweeps, e.2.phase = .idle) := by
  decide +kernel

theorem witness_KeysAreLoadedSweptAndRetired_load :
    (CanRun (Tests.withEntry (Tests.plain {}) (Tests.entry 0x41 (some [2]))) ⟨0, 0⟩ 0x41 (Tests.entry 0x41 (some [2])) ∧
     (Tests.plain {}).recordKey [2] = none) ∧
    (CanRun (Tests.withEntry (Tests.plain {}) (Tests.entry 0x41 (some []))) ⟨0, 0⟩ 0x41 (Tests.entry 0x41 (some [])) ∧
     (Tests.plain {}).recordKey [] = some 0 ∧ ((Tests.plain {}).cellar.key 0).phase = .empty) ∧
    ((Tests.plain { keys := [(0, { phase := .active })] }).recordKey [] = some 0 ∧
     ((Tests.plain { keys := [(0, { phase := .active })] }).cellar.key 0).phase ≠ .empty) := by
  refine ⟨⟨Tests.runs ?_ ?_ ?_, ?_⟩, ⟨Tests.runs ?_ ?_ ?_, ?_, ?_⟩, ?_, ?_⟩ <;> decide +kernel

theorem witness_KeysAreLoadedSweptAndRetired_retire :
    CanRun (Tests.withEntry (Tests.withCellar {}) (Tests.entry 0x42)) ⟨0, 0⟩ 0x42 (Tests.entry 0x42) ∧
    ((({} : Cellar).key 0).phase = .empty) ∧
    (let c : Cellar := { keys := [(0, { phase := .active })], queues := [(511, { wevalid := true })] }
     (c.key 0).phase ≠ .empty ∧ c.slotUsed 0 = true) ∧
    (let c : Cellar := { keys := [(0, { phase := .active })] }
     (c.key 0).phase ≠ .empty ∧ c.slotUsed 0 = false) := by
  refine ⟨Tests.runs ?_ ?_ ?_, ?_⟩ <;> decide +kernel

theorem witness_KeysAreLoadedSweptAndRetired_sweep :
    (CanRun (Tests.withEntry (Tests.withCellar {}) (Tests.entry (0x43 + 2 ^ 208 + 33 * 2 ^ 288))) ⟨0, 0⟩ 0x43 (Tests.entry (0x43 + 2 ^ 208 + 33 * 2 ^ 288)) ∧
     dfld (0x43 + 2 ^ 208 + 33 * 2 ^ 288) 0x1A 1 ≠ 0 ∧ (({} : Cellar).region 0).lines.2 < dfld (0x43 + 2 ^ 208 + 33 * 2 ^ 288) 0x24 4) ∧
    (CanRun (Tests.withEntry (Tests.withCellar {}) (Tests.entry 0x43)) ⟨0, 0⟩ 0x43 (Tests.entry 0x43) ∧ (({} : Cellar).key 0).phase ≠ .active) ∧
    (let c : Cellar := { keys := [(0, { phase := .active })] }
     (c.key 0).phase = .active ∧ c.freeEngine = some 0 ∧ c.sweeping 0 = false ∧ SweepsFlow (Tests.withCellar c)) := by
  refine ⟨⟨Tests.runs ?_ ?_ ?_, ?_⟩, ⟨Tests.runs ?_ ?_ ?_, ?_⟩, ?_, ?_, ?_, ?_, ?_, ?_, ?_⟩ <;> decide +kernel

/-- A cellar in which the retire of a slot runs, with as many references as `wb` has entries. -/
def Tests.retiring (wb : List WbEntry) : Cellar :=
  { keys := [(63, { phase := .retiring })], retires := [{ desc := ⟨0, 0⟩, slot := 63, was := .active, deadline := 9 }], wb }

theorem witness_KeysAreLoadedSweptAndRetired_ends :
    OpenDesc (Tests.withEntry (Tests.withCellar (Tests.retiring [])) (Tests.entry 0x42)) ⟨0, 0⟩ (Tests.entry 0x42) ∧
    (Tests.retiring []).retires.filter (fun r => r.slot == 63) = [{ desc := ⟨0, 0⟩, slot := 63, was := .active, deadline := 9 }] ∧
    ((Tests.retiring []).key 63).phase = .retiring ∧ (Tests.retiring []).refs 63 = 0 ∧
    (Tests.retiring [{ Tests.wbEntry with slot := some 63 }]).refs 63 ≠ 0 := by
  refine ⟨Tests.opens ?_ ?_ ?_ ?_, ?_⟩ <;> decide +kernel

theorem witness_RegionsQueuesAndFrameStores :
    State.reset.dev.isPf (.fn 0) = true ∧
    (let r := ({} : Cellar).region 255
     (∀ e ∈ ({} : Cellar).regions, e.2.exhausting = false) ∧ r.exhausting = false ∧ r.en = false ∧ (0x80000000 : Word).getLsbD 31 = true ∧ (0x80000000 : Word).getLsbD 12 = false) ∧
    (let c : Cellar := { Tests.cellar true 2 with frames := [(63, { region := 2, sm1 := 1, flines := 16 })] }
     let x := Tbl.get ({} : FrameStore) c.frames 63
     x.opened = false ∧ 1 ≤ x.flines.toNat ∧ 1 ≤ x.sm1.toNat ∧ (c.region 2).en = true ∧ (c.region 2).sealed_ = true ∧
     0 + (x.sm1.toNat + 1) * x.flines.toNat ≤ (c.region 2).lines.2 - (c.region 2).lines.1) := by decide +kernel

/-- A stream of function 7's room. -/
def Tests.streamDecl : StreamDecl :=
  { vroom := 0, write := false, stream := 15, sigma := 0, slot := 4, words := 16, fpass := 0, region := 0, mode := 0, line := 31, step := 0, rlog := 0, raw := 0 }

/-- A function whose room reads that stream from region 2 by queue 0. -/
def Tests.reader : Func := { Tests.func with obj := { rooms := [{ streams := [Tests.streamDecl] }] }, ends := { regions := [(0, 0x80020000)] } }

theorem witness_ReadStreamsReachTheirRooms :
    (let d := { Tests.withRoom { func := 7, phase := .run, envelope := [120] } with funcs := [Tests.reader], cellar := Tests.cellar false 0 }
     d.func? 7 = some Tests.reader ∧ Tests.reader.stream? 0 15 false = some Tests.streamDecl ∧
     Tests.reader.placeOf false 0 0 = some ⟨false, 0, 0, 3⟩ ∧ (d.room 3).phase = .run ∧ d.cellar.flights = [] ∧ d.cellar.unread = [] ∧
     (let w := ((d.room 3).d + Tests.streamDecl.sigma) / 64
      Tbl.get 0 (d.room 3).tokens w + 120 ≤ (d.room 3).envelope.getD w 0) ∧
     Tests.reader.regionBinding Tests.streamDecl = some (0, 2) ∧
     d.streamLine Tests.reader Tests.streamDecl (Tests.reader.ringCount (d.room 3).ahead) d.time.n = some (31, none) ∧
     d.cellar.permits .room 0 31 .streamR false = some (2, { en := true, rights := 0x1FF }) ∧ d.cellar.visible 31 (some (7, d.time.n)) = []) ∧
    (∀ holds ∈ [([] : List (BitVec 5)), [19]], ∀ gen : Fin 2, ∀ delivered other : Bool,
     let fl := { Tests.flight with delivered, dests := [(3, BitVec.ofNat 8 gen)] }
     let first := if other then [{ Tests.flight with st := ⟨7, 0, 0, 1⟩, dests := [(3, 0)] }] else []
     let d := { Tests.withRoom { func := 7 } with funcs := [Tests.func], cellar := { flights := first ++ [fl] }, net := { holds } }
     let fls := d.cellar.flights
     fls.find? (fun x => x.st == ⟨7, 0, 0, 2⟩ && (!x.delivered || !x.dests.isEmpty)) = some fl ∧
     (d.net.heldOn (.hub 1) (.room 3) = true ↔ holds ≠ []) ∧
     ((if fl.delivered then fls.takeWhile (· ≠ fl) else fls).any (fun x => x.delivered && x.dests.any (·.1 == 3)) = other) ∧
     fl.beat = d.time.n ∧ (d.room 3).func ≠ 0xFFFF ∧ (BitVec.ofNat 8 gen = (d.room 3).gen ↔ gen = 0)) := by decide +kernel

-- media ports

/-- A device with Ethernet port 7 enabled and its four subports up. -/
def Tests.port : Dev := { State.reset.dev with media := { eth := [(7, { en := true, mode := 1, up := 0xF })] } }

/-- An open receive flow, number 1023, whose leg A comes to subport 3 of port 7 and expects packet 9. -/
def Tests.flow : Flow :=
  { opened := true, record := { legA := { port := 7, sub := 3, ipver := 4, isSet := true } }, legA := true, nextA := some 9 }

/-- The device with the port and the flow. -/
def Tests.flowing : Dev := { Tests.port with media := { Tests.port.media with flows := [(1023, Tests.flow)] } }

theorem witness_FramesAndLinesAreReceived_eth :
    ((Tests.port.eth 7).en = true ∧ (Tests.port.eth 7).up.getLsbD 3 = true ∧ Tests.port.bridged 7 = false ∧ (9216 : BitVec 14).toNat ≤ 9216) ∧
    (let d : Dev := { Tests.port with media := { eth := [(7, { en := true, up := 1 })] } }
     (d.eth 7).en = true ∧ (d.eth 7).up.getLsbD 0 = true ∧ (d.eth 7).mode = 0 ∧ d.bridged 7 = false) ∧
    isPtp { ethertype := 0x88F7, tags := 1 } = true ∧ isPtp {} = false ∧ Tests.port.matchLeg 7 3 {} = none ∧
    ((Tests.port.timePort (subportOf 7 3)).en = false ∧ ({ domain := 126 } : PtpMsg).domain ≠ Tests.port.time.domain) ∧
    (Tests.flowing.matchLeg 7 3 {} = some (1023, false) ∧ (Tests.flowing.flow 1023).opened = true ∧ (Tests.flowing.flow 1023).record.merged = false ∧ (Tests.flowing.flow 1023).legA = true ∧
     (Tests.flowing.flow 1023).nextA = some 9 ∧ ((0x8008 : BitVec 16) - 9).toNat < 2 ^ 15) ∧
    ((Tests.port.eth 7).mode ≠ 0 ∧ (Tests.port.eth 7).up.getLsbD 3 ≠ false) ∧
    (let d : Dev := { Tests.port with media := { eth := [(7, { en := true })] } }
     (d.eth 7).up.getLsbD 0 ≠ true ∧ ∀ l ∈ subLanes (d.eth 7) 7 0, d.laneOut l = false) := by decide +kernel

/-- A device with the receiver of SDI engine 31 enabled, locked or not. -/
def Tests.sdi (locked : Bool) : Dev := { State.reset.dev with media := { sdi := [(31, { rxen := true, locked })] } }

theorem witness_FramesAndLinesAreReceived_sdi :
    ∀ k : Bool, ((Tests.sdi k).sdi 31).rxen = true ∧ (Tests.sdi k).sdiAlone 31 = true ∧ ((Tests.sdi k).sdi 31).locked = k ∧
      ((Tests.sdi k).sdi 31).rateOn 5 = true ∧ ∀ i ∈ (Tests.sdi k).rxLanes 31, (Tests.sdi k).laneOut i = false := by decide +kernel

theorem witness_FlowsCountLossesAndReleases :
    (let f : Flow := { Tests.flow with missing := [9] }
     let d : Dev := { State.reset.dev with media := { flows := [(1023, f)] } }
     (d.flow 1023).opened = true ∧ (d.flow 1023).missing = [9] ∧ (d.flow 1023).legA = true) ∧
    (∀ k : Bool,
     let p : FlowPkt := { time := 9, groups := [.words [1]] }
     let d : Dev := { Tests.port with
       now := if k then 20 * ns + 10 else 20 * ns + 9
       media := { Tests.port.media with flows := [(2047, { opened := true, due := [p], record := { legA := { port := 7, isSet := true } } })] } }
     (d.flow (1024 + 1023)).opened = true ∧ (d.flow (1024 + 1023)).due = [p] ∧ (p.time + 20 * ns < d.now ↔ k = true) ∧
     d.egressMuted = false ∧ (d.flow 2047).record.legA.isSet = true ∧ (d.eth (d.flow 2047).record.legA.port).en = true ∧
     ∀ n ∈ subLanes (d.eth 7) 7 0, d.laneOut n = false) := by decide +kernel

/-- A function whose drain 1 goes to `ref`, with format `fmt`, and which has committed its last beat. -/
def Tests.drains (ref : Word) (fmt : Nat) : Func :=
  { Tests.func with obj := { bindings := [{ type := 2, num := 1, vroom := 0, size := 4, fmt }] }, ends := { drains := [(1, ref)] }, emitCommit := true,
                    emitBeat := 5 }

theorem witness_FeedsTakeGroupsAndDrainsReleaseThem :
    (∀ k ∈ [1, 2, 4],
     let d := { Tests.port with media := { flows := [(1023, { Tests.flow with record := { Tests.flow.record with fmt := k } })] } }
     (d.inFormat 0x100003FF).map (·.fmt) = some k ∧ refKind 0x100003FF = 1 ∧ d.time.run = false) ∧
    (∀ late : Bool,
     let d := { State.reset.dev with
       now := 10 ^ 6 * ns, time := { run := true, start := 10 ^ 6 * ns, next := (10 ^ 6 + 100) * ns }
       media := { sdi := [(31, { rxen := true, locked := true, mismatch := true })] } }
     let key := (if late then 0 else 10 ^ 6 * ns) + d.offRx 0x2000001F
     (d.inFormat 0x2000001F).isSome = true ∧ refKind 0x2000001F = 2 ∧ d.mismatched 0x2000001F = true ∧
     (d.time.run = false ∨ d.time.start ≤ key ∧ (d.time.next ≤ key ∨ d.now + 128 * ns ≤ d.time.next) ↔ late = false)) := by decide +kernel

/-- An ingress of each kind that can be late: a flow, an engine, and a frame store that an admitted function's feed writes. -/
def Tests.ingress : Dev :=
  let f : Func := { Tests.func with
    obj := { bindings := [{ type := 1, num := 0, vroom := 0, target := 1 }] }, ends := { regions := [(0, 0x80050000)], feeds := [(0, 0x2000001F)] } }
  { Tests.flowing with
    time := { run := true, start := 0, next := 200 * ns }
    funcs := [f]
    cellar := { frames := [(5, { opened := true })] }
    media := { Tests.flowing.media with sdi := [(31, { rxen := true, locked := true })] } }

theorem witness_FeedsTakeGroupsAndDrainsReleaseThem_deadline :
    Tests.ingress.time.run = true ∧
    ∀ p ∈ [((0x100003FF : EndRef), 1), (0x2000001F, 2), (0x30000005, 3)],
      refKind p.1 = p.2 ∧ (Tests.ingress.inFormat p.1).isSome = true ∧
      (Tests.ingress.media.groups.filter fun x => x.src == p.1 && decide (Tests.ingress.time.start ≤ x.key ∧ x.key < Tests.ingress.time.next)).length < 1 := by
  decide +kernel

theorem witness_FeedsTakeGroupsAndDrainsReleaseThem_drains :
    (∀ commit held : Bool,
     let f := { Tests.drains 0x4000003F 0 with emitCommit := commit }
     let d := { State.reset.dev with funcs := [f], time := { run := true, n := 6 }
                                     fabric := { blocks := [(63, { phase := if held then .thresh else .run })] } }
     d.func? 7 = some f ∧ (f.obj.bindings.find? fun b => b.type == 2 && b.num == (1 : BitVec 8).toNat).isSome = true ∧
     refKind (Tbl.get 0 f.ends.drains 1) = 4 ∧ f.emitBeat + 1 = d.time.n ∧ 1 ∉ f.released ∧
     ((Tbl.get ({} : FbBlock) d.fabric.blocks (refNum (Tbl.get 0 f.ends.drains 1) % 64)).phase ≠ .run ↔ held = true)) ∧
    (∀ gmax ∈ [0, 1],
     let f := { Tests.drains 0x100003FF 4 with
       obj := { bindings := [{ type := 2, num := 1, vroom := 0, size := 4, fmt := 4, gmax }], subst := [0, 4] } }
     let d := { State.reset.dev with funcs := [f], time := { run := true, n := 6 }, media := { flows := [(2047, { opened := true })] } }
     d.func? 7 = some f ∧ (f.obj.bindings.find? fun b => b.type == 2 && b.num == (1 : BitVec 8).toNat).map (·.fmt) = some 4 ∧
     refKind (Tbl.get 0 f.ends.drains 1) = 1 ∧ refEgress (Tbl.get 0 f.ends.drains 1) = some 1023 ∧ f.emitCommit = true ∧
     f.emitBeat + 1 = d.time.n ∧ 1 ∉ f.released ∧ (d.flow (1024 + 1023)).opened = true ∧ d.media.reroutes = [] ∧ f.substOf 1 = 4 ∧
     ((List.range gmax).filter fun i => (f.drainGroup 0 1 i 1).isNone).length = gmax) := by decide +kernel

/-- One group that waits at an egress. -/
def Tests.item : EgressItem := { frame := 0, line := 0, index := 0, last := false, time := 0, shown := .words [1], beat := 1 }

theorem witness_EgressShowsGroupsOrItsSafeState_flow :
    let d : Dev := { State.reset.dev with
      media := { egress := [(1023, { queue := [Tests.item] })], flows := [(2047, { opened := true, record := { fmt := 1, width := 64, height := 64 } })] } }
    egressOk 1023 = true ∧ (d.outFormat 1023).map (·.fmt) = some 1 ∧ (d.egr 1023).liftBeat = none ∧ (d.egr 1023).queue = [Tests.item] ∧
    (d.egr 1023).forced = false ∧ (d.flow 2047).filling = [] ∧ (d.flow 2047).record.perPacket = 1 := by decide +kernel

theorem witness_EgressShowsGroupsOrItsSafeState_sdi :
    egressOk 1055 = true ∧
    (∀ k : Bool,
     let d : Dev := { State.reset.dev with media := { egress := [(1055, { queue := [Tests.item], forced := k })], sdi := [(31, { txen := true })] } }
     (d.egr 1055).queue = [Tests.item] ∧ (d.egr 1055).liftBeat = none ∧ d.egressMuted = false ∧ d.txOut 1055 = false ∧
     (d.outFormat 1055).map (·.fmt) = some 1 ∧ (d.egr 1055).forced = k ∧ d.safeState 1055 = 2) ∧
    (let d : Dev := { State.reset.dev with media := { sdi := [(31, { txen := true })] } }
     (d.egr 1055).queue = [] ∧ (d.egr 1055).liftBeat = none ∧ d.egressMuted = false ∧ d.txOut 1055 = false ∧
     (d.outFormat 1055).map (·.fmt) = some 1 ∧ d.safeState 1055 = 2) ∧
    (let d : Dev := { State.reset.dev with media := { egress := [(1055, { forceWant := true })] } }
     (d.egr 1055).forceWant = true) := by decide +kernel

-- device time and beats

theorem witness_TimeFollowsItsSourceAndSteps :
    (let t : TimeUnit := { src := 1 }
     t.src ≠ 0 ∧ t.lockedOnce = false) ∧
    (let t : TimeUnit := { src := 1, lockedOnce := true }
     t.lockedOnce = true ∧ t.thresh.toNat * ns < ((1000 * ns + 1 : Nat) : Int).natAbs ∧ ((1000 * ns : Nat) : Int).natAbs ≤ t.thresh.toNat * ns) ∧
    (let t : TimeUnit := { src := 2, servo := .locked, lastPps := some 5 }
     t.servo = .locked ∧ (t.src ≠ 1 ∨ t.slavePort = none) ∧ t.src = 2 ∧ t.ppsloss = false ∧ t.lastPps = some 5) ∧
    (∀ mode : Fin 3, let e := Tests.entry (0x60 + BitVec.ofNat 512 mode * 2 ^ 192)
     (Tests.withEntry State.reset.dev e).startable ⟨0, 0⟩ 0x60 = some e ∧ dfld e.desc 0x18 1 = mode) ∧
    (∀ b : Bool, ({ refusing := b } : TimeUnit).refusing = b) := by decide +kernel

theorem witness_TimeFollowsItsSourceAndSteps_runs : CanRun (Tests.withEntry State.reset.dev (Tests.entry 0x60)) ⟨0, 0⟩ 0x60 (Tests.entry 0x60) := by
  refine Tests.runs ?_ ?_ ?_ <;> decide +kernel

theorem witness_TimeUnitTakesWritesAndEdges :
    (State.reset.dev.isPf (.fn 0) = true ∧ State.reset.dev.time.src = 0 ∧ State.reset.dev.admitted = [] ∧ State.reset.dev.time.pendPeriod = none) ∧
    (64 ≤ (8192 : Word).toNat % 2 ^ 14 ∧ (8192 : Word).toNat % 2 ^ 14 ≤ 8192) ∧
    ({ run := true } : TimeUnit).run = true ∧
    (let t : TimeUnit := { enabled := true, ref10 := true, ppsEn := true }
     t.enabled = true ∧ t.run = false ∧ t.armed = false ∧ t.ref10 = true ∧ t.refloss = false ∧ t.ppsEn = true) ∧
    (let t : TimeUnit := { ref10 := true, refloss := true }
     t.ref10 = true ∧ t.refloss = true ∧ t.refMoved = false) := by decide +kernel

theorem witness_TimeUnitTakesWritesAndEdges_edges :
    tdcOk 8 = true ∧
    (let t : TimeUnit := { src := 2, lastPps := some 5, tdc := [(8, { edge := 2, fifo := List.replicate 15 ⟨0, false⟩ })] }
     let x := Tbl.get ({} : Tdc) t.tdc 8
     t.src = 2 ∧ x.edge = 2 ∧ x.fifo.length < 16 ∧ t.lastPps = some 5 ∧ t.ppsloss = false ∧ ¬ 5 + 1500000000 * ns < 1500000000 * ns + 5 ∧
     5 + 1500000000 * ns < 1500000000 * ns + 6) ∧
    (let x : Tdc := { en := true, edge := 1, fifo := List.replicate 16 ⟨0, true⟩ }
     x.en = true ∧ x.edge = 1 ∧ 16 ≤ x.fifo.length) := by decide +kernel

theorem witness_BeatsBeginAtTheirBoundary :
    (let d : Dev := { State.reset.dev with time := { armed := true, next := 9, first := 4 } }
     d.time.armed = true ∧ d.time.run = false ∧ d.power.cold = false) ∧
    (let d : Dev := { State.reset.dev with time := { run := true, next := 9 } }
     d.time.run = true ∧ d.power.cold = false ∧ d.time.pendPeriod = none) ∧
    CanRun (Tests.withEntry State.reset.dev (Tests.entry 0x61)) ⟨0, 0⟩ 0x61 (Tests.entry 0x61) := by
  refine ⟨?_, ?_, Tests.runs ?_ ?_ ?_⟩ <;> decide +kernel

-- lanes, the Bilben link and the mirrored pair

/-- A device with lane 95 in a phase, which bundle 15 owns, and the bundle in one. -/
def Tests.lane (p : LanePhase) (b : BdPhase) : Dev :=
  { State.reset.dev with link := { en := true, lanes := [(95, { phase := p })], bundles := [(15, { en := true, oct := 11, mask := 0x80, active := 0x80, phase := b })] } }

/-- A device with lane 95 in a phase and without an owner. -/
def Tests.alone (x : Lane) : Dev := { State.reset.dev with link := { lanes := [(95, x)] } }

theorem witness_LanesAndBundlesComeUpAndFall_lanes :
    laneOk 95 = true ∧ ((Tests.alone { phase := .cdr }).lane 95).phase = .cdr ∧
    (((Tests.alone { phase := .align }).lane 95).phase = .align ∧ (Tests.alone { phase := .align }).laneOwner 95 = none) ∧
    (let d := Tests.lane .align .training
     (d.lane 95).phase = .align ∧ (d.laneOwner 95).bind (·.bundle) = some 15 ∧ (d.bd 15).phase = .training ∧ d.link.en = true) ∧
    (((Tests.alone { phase := .up }).lane 95).phase = .up ∧ (Tests.alone { phase := .up }).laneOwner 95 = none) ∧
    (let d := Tests.lane .up .up
     (d.lane 95).phase = .up ∧ (d.laneOwner 95).bind (·.bundle) = some 15 ∧ (d.bd 15).phase = .up ∧ (d.bd 15).oct.toNat = 95 / 8 ∧
     (d.bd 15).active.getLsbD (95 % 8) = true) ∧
    (({ lane := 95, lockLost := false, within64 := 3 } : LaneErrors).lockLost = false ∧
     4 ≤ ({ lane := 95, lockLost := false, within64 := 4 } : LaneErrors).within64 ∧ ({ lane := 95 } : LaneErrors).lockLost = true) ∧
    (State.reset.dev.isPf (.fn 0) = true ∧ (0x80000000 : Word).getLsbD 31 = true ∧ ∀ i < 8, (State.reset.dev.lane (95 / 8 * 8 + i)).eyeBusy = false) ∧
    ((Tests.alone { eyeBusy := true }).lane 95).eyeBusy = true ∧
    (let d := Tests.alone { proto := 4, chk := true, en := true }
     d.laneOwner 95 = none ∧ (d.lane 95).proto = 4 ∧ (d.lane 95).chk = true ∧ (d.lane 95).en = true) := by decide +kernel

theorem witness_LanesAndBundlesComeUpAndFall_bundles :
    (let d := Tests.lane .cdr .up
     (d.bd 15).phase = .up ∧ (d.bd 15).retry.length < 256 ∧ (d.bd 15).active.getLsbD (7 : BitVec 3).toNat = true ∧
     (d.lane (8 * (d.bd 15).oct.toNat + 7)).phase ≠ .up) ∧
    (let x : Bundle := { crcFails := List.replicate 8 (7, 0) }
     8 ≤ (x.crcFails.filter fun y => y.1 == (7 : BitVec 3) && decide (0 < y.2 + 10 ^ 6 * ns)).length) ∧
    (State.reset.dev.time.run = false ∧ Tbl.wf ({} : Bundle) (Tests.lane .cdr .up).link.bundles = true) := by decide +kernel

/-- An UP bundle whose last marker had TX 100. -/
def Tests.bundle : Bundle := { en := true, phase := .up, lastTx := [100] }

/-- A device with that bundle as bundle 0, in a state of the time unit. -/
def Tests.marked (t : TimeUnit) (k : Link) : Dev := { State.reset.dev with time := t, link := { k with bundles := [(0, Tests.bundle)] } }

/-- A marker with its CRC. -/
def Tests.marker (m : Marker) : Marker := { m with crc := markerCrc m }

theorem Tests.marker_good (m : Marker) : markerGood (Tests.marker m) = true := by
  simp [markerGood, markerCrc, Tests.marker]

theorem witness_MarkersMeasureAndStart :
    (let d := Tests.marked {} {}
     (d.bd 0).phase = .up ∧ d.time.run = false ∧ d.time.src ≠ 3) ∧
    (let d := Tests.marked { run := true } {}
     let m := Tests.marker { beatValid := true, arrival := 7 }
     d.time.src ≠ 3 ∧ m.beatValid = true ∧ d.time.run = true ∧ m.rxLast = 0) ∧
    (let d := Tests.marked { src := 3, enabled := true } { upvalid := true, upbundle := 0 }
     let m := Tests.marker { hops := 30, rxLast := 100, beatValid := true }
     (d.time.src = 3 ∧ d.link.upvalid = true ∧ (0 : BitVec 4) = d.link.upbundle) ∧ m.hops.toNat < 31 ∧ m.rxLast ≠ 0 ∧ (d.bd 0).lastTx = [100] ∧
     m.beatValid = true ∧ d.time.enabled = true ∧ d.time.run = false ∧ d.time.armed = false) ∧
    (let d := Tests.marked { src := 3 } { uplock := true }
     d.time.src = 3 ∧ d.link.uplock = true) := by decide +kernel

/-- Whatever the receive latency, the marker without RXLAST came no earlier than 8 ns before the boundary, and the other answers the marker of TX 100. -/
theorem witness_MarkersMeasureAndStart_times (lat : Nat) :
    (((Tests.marked { run := true } {}).time.start : Int) ≤ (((7 - lat : Nat) : Int) - ((Tests.bundle).asym.toInt * 2 ^ 16)) -
      (Tests.bundle.delay.toNat * 2 ^ 24 : Nat) + (8 * ns : Nat)) ∧
    (Tests.bundle.lastTx.find? fun tx =>
      decide (0 ≤ ((((0 - lat : Nat) : Int) - (Tests.bundle.asym.toInt * 2 ^ 16)) - ((0 : Nat) : Int)) + (((100 : Nat) : Int) - tx))) = some 100 := by
  refine ⟨?_, ?_⟩
  · simp [Tests.marked, Tests.bundle]
    omega
  · simp [Tests.bundle]

/-- A frame with its CRC. -/
def Tests.sent (f : Frame) : Frame := { f with crc := frameCrc f }

theorem Tests.frameHeader_crc (f : Frame) (c : BitVec 32) : frameHeader { f with crc := c } = frameHeader f := by
  simp only [frameHeader]

theorem Tests.frameCrc_crc (f : Frame) (c : BitVec 32) : frameCrc { f with crc := c } = frameCrc f := by
  unfold frameCrc
  rw [Tests.frameHeader_crc]

theorem Tests.frameGood_of {f : Frame} (h : f.crc = frameCrc f) : frameGood f = true := beq_iff_eq.2 h

theorem Tests.crc_set (f : Frame) (c : BitVec 32) : ({ f with crc := c } : Frame).crc = c := rfl

theorem Tests.sent_good (f : Frame) : frameGood (Tests.sent f) = true :=
  Tests.frameGood_of ((Tests.crc_set f _).trans (Tests.frameCrc_crc f _).symm)

/-- A frame of a sequence number. -/
def Tests.frame (seq : BitVec 12) : Frame := Tests.sent { seq }

/-- A device whose bundle 0 is `x`. -/
def Tests.withBundle (x : Bundle) (k : Link := {}) : Dev := { State.reset.dev with link := { k with bundles := [(0, x)] } }

/-- An XCH frame of one word for slot 4 of virtual room 0 of function 7. -/
def Tests.remoteFrame : Frame := Tests.sent { payload := (7 <<< 16) + (4 <<< 320) + (1 <<< 331) }

/-- A function with an IN binding of a REMOTE. -/
def Tests.remote : Func :=
  { Tests.func with obj := { bindings := [{ type := 4, num := 0, vroom := 0, slot0 := 4, words := 1, dirIn := true }] } }

theorem witness_FramesAreAcknowledgedAndRouted_replies :
    ((Tests.withBundle { phase := .up }).bd 0).phase = .up ∧ ((Tests.withBundle { phase := .up }).bd 0).queue = [] ∧
    ((Tests.withBundle { phase := .up }).bd 0).reorder = [] ∧
    ((Tests.withBundle { phase := .up }).bd 0).nakSent = false ∧ ((Tests.withBundle { phase := .up }).bd 0).retry = [] ∧
    frameGood ({} : Frame) = false ∧
    (let x : Bundle := { phase := .up, retry := [Tests.frame 0xFFF, Tests.frame 0], sends := [15, 1] }
     let ack := Tests.sent { type := 1, ack := 1 }
     let nak := Tests.sent { type := 1, ack := 0xFFF, nak := true }
     ack.type = 1 ∧ nak.type = 1 ∧ x.retry = [Tests.frame 0xFFF, Tests.frame 0] ∧ 0 < (ack.ack - (Tests.frame 0xFFF).seq).toNat ∧ ack.nak = false ∧
     (ack.ack - (Tests.frame 0xFFF).seq).toNat ≤ x.retry.length ∧ nak.nak = true ∧ (nak.ack - (Tests.frame 0xFFF).seq).toNat = 0 ∧ ∀ y ∈ x.sends, y < 16) ∧
    (∀ n ∈ [15, 16],
     let x : Bundle := { phase := .up, retry := [Tests.frame 0], sends := [n], sentAt := [3] }
     x.retry ≠ [] ∧ x.sentAt.head? = some 3 ∧ 3 + max 1 x.rto.toNat * 100 * ns < 2000 * ns + 4 ∧ ((∀ y ∈ x.sends, y < 16) ↔ n = 15) ∧
     ((∃ y ∈ x.sends, 16 ≤ y) ↔ n = 16)) ∧
    (let x : Bundle := { phase := .up, rxAck := 4, mask := 3 }
     let near (f : Frame) : Prop := 1 < x.lanes.length ∧ (f.seq - x.rxAck).toNat < 256
     (∀ q ∈ [(5 : BitVec 12), 4 + 255, 4 + 256], (Tests.frame q).type ≠ 1 ∧ (Tests.frame q).nak = false ∧ (Tests.frame q).seq ≠ x.rxAck) ∧
     near (Tests.frame 5) ∧ near (Tests.frame (4 + 255)) ∧ ¬ near (Tests.frame (4 + 256)) ∧ x.nakSent = false ∧ x.retry = []) := by decide +kernel

theorem witness_FramesAreAcknowledgedAndRouted_routes :
    (let d := Tests.withBundle { phase := .up, rxAck := 4 } { devid := 1 }
     let fr := Tests.frame 4
     fr.nak = false ∧ (d.bd 0).retry = [] ∧ fr.type = 0 ∧ fr.seq = (d.bd 0).rxAck ∧ fr.dest ≠ d.link.devid ∧
     (Tbl.get ({} : Fwd) d.link.fwd fr.dest.toNat).valid = false) ∧
    (let k : Link := { devid := 1, fwd := [(0, { valid := true, bundle := 15 })], bundles := [(0, { phase := .up }), (15, { phase := .up })] }
     let e := Tbl.get ({} : Fwd) k.fwd (Tests.frame 0).dest.toNat
     let z := Tbl.get ({} : Bundle) k.bundles 15
     e.valid = true ∧ e.bundle ≠ 0 ∧ z.phase = .up ∧ z.queue = [] ∧ z.retry.length < 256 ∧
     Tbl.get 0 z.used (2 * (Tests.frame 0).cls.toNat + bit ((Tests.frame 0).vc || e.dl) 0) < 32) ∧
    (let fr := Tests.sent { cls := 1, last := false }
     fr.dest = ({} : Link).devid ∧ fr.cls ≠ 2 ∧ fr.last = false) := by decide +kernel

theorem witness_FramesAreAcknowledgedAndRouted_words :
    let fr := Tests.remoteFrame
    let d := { Tests.withRoom { func := 7 } with funcs := [Tests.remote] }
    fr.type = 0 ∧ fr.nak = false ∧ fr.cls = 2 ∧ fr.payload.getLsbD 331 = true ∧ (∀ i ∈ [347, 363, 379], fr.payload.getLsbD i = false) ∧
    fr.payload.extractLsb' 16 16 = 7 ∧ fr.payload.extractLsb' 320 10 = 4 ∧ State.reset.dev.func? 7 = none ∧ d.func? 7 = some Tests.remote ∧
    Tests.remote.phase = .admitted ∧ Tests.remote.destinations 0 0 = [(3, 0)] ∧
    (Tests.remote.obj.bindings.find? fun y => y.type == 4 && y.dirIn && y.vroom == 0 && y.holds 4).isSome = true ∧ fr.att = false ∧ d.link.atts = [] ∧
    (d.room 3).func ≠ 0xFFFF ∧ (d.room 3).gen = 0 ∧ d.net.heldOn (.hub 4) (.room 3) = false ∧ d.net.downOn (.hub 4) (.room 3) = false ∧
    ({ d.net with holds := [19] } : Net).heldOn (.hub 4) (.room 3) = true ∧ fr.bpar = (0 : Beat).getLsbD 0 ∧ fr.bpar ≠ (1 : Beat).getLsbD 0 := by decide +kernel

/-- A device with an entry of pair 0 that awaits APPLIED. -/
def Tests.awaiting (own : Option Nat) : Dev :=
  { Tests.withEntry State.reset.dev { Tests.entry 0 with phase := .completed } with
    link := { mirror := .paired, await := [{ desc := ⟨0, 0⟩, seq := 0, own, applied := none }] } }

theorem Tests.awaiting_windows (own : Option Nat) : (Tests.awaiting own).rings.windowsOk := Tests.windows State.reset.dev _ (by decide)

/-- A query for binding 255 of virtual room 0 and replica 0 of function 7, with TAG 0 (R269, R272). -/
def Tests.query : BitVec 64 := 7 * 2 ^ 37 + 255 * 2 ^ 13

theorem witness_RemoteAndMirrorAgree_queries :
    (let f := { Tests.remote with r := 1, obj := { bindings := [{ type := 4, num := 255, vroom := 0, words := 1, dirIn := true }] } }
     let d := { State.reset.dev with funcs := [f] }
     Tests.query.extractLsb' 37 16 = 7 ∧ (Tests.query.extractLsb' 29 8).toNat = 0 ∧ (Tests.query.extractLsb' 21 8).toNat = 0 ∧
     (Tests.query.extractLsb' 13 8).toNat = 255 ∧ d.func? 7 = some f ∧ f.phase = .admitted ∧ (0 : Nat) < f.r ∧
     (∃ b ∈ f.obj.bindings, b.type = 4 ∧ b.dirIn = true ∧ b.num = 255 ∧ b.vroom = 0 ∧ (1 : BitVec 9).toNat ≤ b.words) ∧
     (∀ b ∈ f.obj.bindings, ¬ (2 : BitVec 9).toNat ≤ b.words) ∧ ∀ x ∈ d.link.deps, ¬ (x.func = 7 ∧ x.vroom = 0 ∧ x.rep = 0 ∧ x.bind = 255)) ∧
    ((9 : BitVec 11) ≠ State.reset.dev.link.devid ∧ (State.reset.dev.link.devid : BitVec 11) = 0 ∧
     (Tbl.get ({} : Fwd) State.reset.dev.link.fwd (9 : BitVec 11).toNat).valid = false) ∧
    (let k : Link := { fwd := [(9, { valid := true, bundle := 15 })], bundles := [(15, { phase := .up, retry := List.replicate 254 {}, used := [(2, 30)] })] }
     let d : Dev := { State.reset.dev with link := k }
     let z := d.bd 15
     (Tbl.get ({} : Fwd) k.fwd 9).valid = true ∧ z.phase = .up ∧ z.queue = [] ∧ z.retry.length < 255 ∧ Tbl.get 0 z.used (2 + bit false 0) < 31) := by
  decide +kernel

theorem witness_RemoteAndMirrorAgree :
    (∀ own ∈ [none, some 3],
     (Tests.awaiting own).link.await = [{ desc := ⟨0, 0⟩, seq := 0, own, applied := none }] ∧ (Tests.awaiting own).link.mirror = .paired ∧
     (Tests.awaiting own).entry? ⟨0, 0⟩ = some { Tests.entry 0 with phase := .completed } ∧ descOpcode (Tests.entry 0).desc ≠ 1 ∧
     (Tests.entry 0).record.status = 0) ∧
    (Tests.awaiting none).rings.windowsOk ∧ (Tests.awaiting (some 3)).rings.windowsOk ∧
    (some (3 : Nat) = some (3 : BitVec 8).toNat ∧ (3 : Nat) ≠ (255 : BitVec 8).toNat) ∧
    ((Tests.awaiting none).link.digest ≠ 1 ∧ 4 < ({ (Tests.awaiting none).link with mirrorMissed := 5 } : Link).mirrorMissed) :=
  ⟨by decide +kernel, Tests.awaiting_windows _, Tests.awaiting_windows _, by decide +kernel, by decide +kernel⟩

-- the direct fabric, images and scrubbing

/-- A function with a hub port record of two words at port 63. -/
def Tests.ported : Func :=
  { Tests.func with obj := { bindings := [{ type := 3, num := 0, vroom := 0, words := 2 }] }, ends := { hubports := [(0, 0x4000003F)] } }

/-- A device whose port 63 is ready for that function. -/
def Tests.ready (taken : Tbl (Option Lanes)) : Dev :=
  { State.reset.dev with funcs := [Tests.ported], time := { run := true, next := 100 * ns },
                         fabric := { blocks := [(63, { phase := .run })], hubports := [(63, { taken, rx := [(0, 5)] })],
                                     pll := [(0, 0x80000000000 + 2 ^ 15)], pllLock := 1 } }

/-- Blocks that are configured and not released, with the release clock running or not. -/
def Tests.blocks (clk : Bool) : Fabric :=
  { blocks := [(63, { phase := .thresh, loaded := true })], pll := [(0, 0x80000000000 + 2 ^ 15)], pllLock := if clk then 1 else 0 }

theorem witness_HubPortsAndFabricFollowTheirCommands :
    (∀ t ∈ [[], [(1, some 7)]], (Tests.ready t).hpReady 63 = true ∧ (Tests.ready t).portRecords 63 = [(Tests.ported, { type := 3, num := 0, vroom := 0, words := 2 })]) ∧
    ((1 : BitVec 6).toNat < 2 ∧ 2 ≤ (2 : BitVec 6).toNat ∧ Tbl.get none (((Tests.ready []).fabric.hp 63).taken) 1 = none ∧
     (Tbl.get none (((Tests.ready [(1, some 7)]).fabric.hp 63).taken) 1).isSome = true) ∧
    ((Tests.ready []).fabric.clockRuns ((Tests.ready []).fabric.hp 63).clk.toNat = true ∧ (Tests.ready []).time.run = true ∧ ((Tests.ready []).fabric.hp 63).closed = false ∧ (Tests.ready []).portRecords 63 ≠ []) ∧
    (((Tests.ready []).fabric.hp 63).rx = [(0, 5)] ∧ ((Tests.ready []).fabric.block 63).phase = .run ∧ (Tests.ready []).hubUp = true) ∧
    (((Tests.ready []).fabric.block ((127 : BitVec 7).toNat / 2)).phase = .run ∧ Tbl.get false (Tests.ready []).fabric.uev 127 ≠ true) ∧
    ((Tests.blocks true).pllLock.getLsbD 0 ≠ false ∧ (Tests.blocks false).pllLock.getLsbD 0 ≠ true ∧ (Tbl.get 0 (Tests.blocks false).pll 0).getLsbD 43 = true) ∧
    (383 : BitVec 9).toNat < 384 ∧
    (let a : Application := { desc := ⟨0, 0⟩, slot := 0, left := [63], blocks := [63] }
     a ∉ ([] : List Application) ∧ a.left ≠ []) := by decide +kernel

theorem witness_BlocksAreReleasedStageByStage :
    (let d : Dev := { State.reset.dev with fabric := Tests.blocks true }
     d.isPf (.fn 0) = true ∧ ((d.fabric.blocks.filter fun y => y.2.loaded && y.2.rel != 3).map (·.1)) = [63] ∧ d.applyPending = false ∧
     d.fabric.releasing = [] ∧ (∀ b ∈ [63], (d.fabric.block b).rel = 0)) ∧
    (let d : Dev := { State.reset.dev with fabric := { Tests.blocks true with applying := [{ desc := ⟨0, 0⟩, slot := 0, left := [63], blocks := [63] }] } }
     d.applyPending = true) ∧
    (let f : Fabric := { blocks := [(62, { phase := .run, rel := 1, loaded := true }), (63, { phase := .empty })] }
     62 ∈ ((f.blocks.filter fun y => y.2.loaded && y.2.rel != 3).map (·.1)) ∧ (f.block 62).rel ≠ 0) ∧
    (∀ y ∈ State.reset.dev.fabric.blocks, y.2.loaded = false) ∧
    (∀ c : Bool, let f := { Tests.blocks c with releasing := [63] }
     f.withdrawing = false ∧ f.releasing ≠ [] ∧ f.releasing.Nodup ∧ f.clockOk = c) ∧
    (let f : Fabric := { blocks := [(59, { rel := 3 }), (60, { phase := .thresh }), (61, { rel := 1, phase := .run }), (62, { rel := 2 }), (63, { rel := 3 })], withdrawing := true,
                         applying := [{ desc := ⟨0, 0⟩, slot := 0, left := [62], blocks := [62] }] }
     f.withdrawing = true ∧ Tbl.wf ({} : FbBlock) f.blocks = true ∧ (f.block 60).rel = 0 ∧ (∃ a ∈ f.applying, 62 ∈ a.blocks) ∧
     ∀ b ∈ [59, 61, 63], (f.block b).rel ≠ 0 ∧ ∀ a ∈ f.applying, b ∉ a.blocks) := by decide +kernel

/-- A reserved function whose room 3 is not written yet. -/
def Tests.reserved : Func := { Tests.func with phase := .reserved }

/-- A migration of function 7 from room 3 to room 200. -/
def Tests.migration : Migration :=
  { desc := ⟨0, 0⟩, set := false, rep := none, k := 0, gen := 1, places := [⟨false, 0, 0, 200⟩], sources := [⟨false, 0, 0, 3⟩] }

/-- An admitted function in that migration. -/
def Tests.migrating (m : Migration) : Func := { Tests.func with migration := some m }

/-- A device with one function. -/
def Tests.with1 (f : Func) : Dev := { State.reset.dev with funcs := [f] }

/-- A state word's write, and the end mark of a beat, in a migration's log. -/
def Tests.logged : SeedEntry := { beat := 4, att := false, item := .state 127 383 ⟨1, true⟩ }
def Tests.endMark (b : Beat) : SeedEntry := { beat := b, att := false, item := .mark [] [] [] }

/-- A migration past its load, with the log of room 200. -/
def Tests.seeding (seeded : List RoomId) (log : List SeedEntry) : Migration :=
  { Tests.migration with phase := .seed, seeded, log := [(200, log)] }

/-- An admission that has started. -/
def Tests.admitting : RetEntry := { Tests.entry (0x10 + 2 ^ 209 + 7 * 2 ^ 224) (some []) with started := true }

/-- A retirement that has passed its boundary. -/
def Tests.retires : RetEntry := { Tests.entry (0x11 + 7 * 2 ^ 192) with phase := .committed }

theorem witness_RoomsAreWrittenClearedAndSeeded :
    ((Tests.with1 Tests.reserved).writingOf 3 = some (Tests.reserved, Tests.reserved.places, ⟨false, 0, 0, 3⟩, 0) ∧
     (Tests.with1 Tests.reserved).func? 7 = some Tests.reserved ∧ Tests.reserved.written.length + 1 = Tests.reserved.places.length) ∧
    ((Tests.with1 (Tests.migrating Tests.migration)).writingOf 200 = some (Tests.migrating Tests.migration, Tests.migration.places, ⟨false, 0, 0, 200⟩, 1) ∧
     (Tests.migrating Tests.migration).phase ≠ .reserved) ∧
    (OpenDesc (Tests.withEntry (Tests.with1 Tests.reserved) Tests.admitting) ⟨0, 0⟩ Tests.admitting ∧ Tests.admitting.accept = true ∧
     Tests.admitting.phase = .accepted ∧ Tests.admitting.started = true ∧ descOpcode Tests.admitting.desc = 0x10 ∧
     (Tests.with1 Tests.reserved).admitId Tests.admitting.desc = 7) ∧
    ((Tests.with1 { Tests.func with phase := .retiring }).func? 7 = some { Tests.func with phase := .retiring } ∧ Tests.func.places ≠ [] ∧
     OpenDesc (Tests.withEntry (Tests.with1 { Tests.func with phase := .retiring }) Tests.retires) ⟨0, 0⟩ Tests.retires ∧ Tests.retires.accept = true ∧
     Tests.retires.phase = .committed ∧ descOpcode Tests.retires.desc = 0x11 ∧ dfld Tests.retires.desc 0x18 2 = 7) ∧
    (∀ m ∈ [Tests.seeding [] [], Tests.seeding [200] [Tests.logged], Tests.seeding [200] [Tests.endMark 4], { Tests.seeding [200] [Tests.endMark 4] with fates := [Tests.dec 4 false] }],
      (Tests.with1 (Tests.migrating m)).migrationTo 200 = some (Tests.migrating m, m) ∧ (Tests.with1 (Tests.migrating m)).func? 7 = some (Tests.migrating m) ∧
      m.phase = .seed ∧ m.sourceOf 200 = some ⟨false, 0, 0, 3⟩) ∧
    (({} : Room).undecided = none ∧ (3 : Beat) < 4 ∧
     Tests.logged.isMark = false ∧ (Tests.endMark 4).isMark = true ∧ (Tests.dec 4 false).beat = (Tests.endMark 4).beat ∧ (Tests.dec 4 false).beat < (5 : Beat)) := by
  refine ⟨?_, ?_, ⟨Tests.opens ?_ ?_ ?_ ?_, ?_⟩, ⟨?_, ?_, Tests.opens ?_ ?_ ?_ ?_, ?_⟩, ?_, ?_⟩ <;> decide +kernel

theorem witness_ScrubbingMendsTheConfiguration :
    (let d := { Tests.withRoom { ueIm := [127 * 512 + 511], len := 12, sends := [(511, 1)] } with
                net := { reservations := [{ func := 7, set := false, rep := 0, uses := [{ link := 31 * 64, step := 0 }] }] } }
     d.loader.scrubEn = true ∧ d.hubUp = true ∧ d.scrubSkips (.room 3) = false ∧ d.scrubSkips (.ring 31) = false ∧
     d.essential (.room 3) (127 * 512 + 11) = true ∧ d.essential (.room 3) (127 * 512 + 12) = false ∧ d.essential (.room 3) (65536 + 511) = true ∧
     d.essential (.ring 31) 0 = true ∧ d.essential (.ring 30) 0 = false ∧ d.goldenRoom 3 = none ∧
     (127 : BitVec 7).toNat * 512 + (511 : BitVec 9).toNat ∈ (d.room 3).ueIm) ∧
    (Tests.with1 Tests.func).goldenRoom 3 ≠ none ∧
    (let d : Dev := { State.reset.dev with fabric := { blocks := [(63, { phase := .run, config := { mapped := true } })] } }
     d.scrubSkips (.block 63) = false ∧ d.essential (.block 63) 57344 = true ∧ d.essential (.block 63) 57343 = false) ∧
    (frameWrong {} = [] ∧ (∀ n ∈ [1, 2], frameWrong { bits := n } = [{ bits := n }]) ∧ (frameWrong { word := 64, bits := 1, also := [(127, 1, false)] }).length = 2) := by
  decide +kernel

-- control cores, the scheduler, trace and acquisition

/-- A device with core 15 in a phase. -/
def Tests.core (p : CorePhase) : Dev := { State.reset.dev with cores := { cores := [(15, { phase := p, run := p != .held, stack := [2, 3], wdogEn := true })] } }

/-- A device with firmware in the standby pair. -/
def Tests.standby (sb : Standby) : Dev :=
  { State.reset.dev with cores := { sb, pendingFw := some { desc := ⟨0, 0⟩, slot := 1, secver := 1, version := 1, header := 0 } } }

theorem witness_FirmwareAndCoresStart :
    ((Tests.standby .loading).cores.sb = .loading ∧ (Tests.standby .loading).cores.pendingFw.isSome = true) ∧
    ((Tests.standby .loading).cores.handover = false ∧
      OpenDesc (Tests.withEntry (Tests.standby .loading) (Tests.entry 0x31)) ⟨0, 0⟩ (Tests.entry 0x31)) ∧
    (State.reset.dev.isPf (.fn 0) = true ∧ 4 ≤ (15 : BitVec 4).toNat ∧ 4 ≤ (4 : BitVec 4).toNat) ∧
    ((Tests.core .held).core 15).run = false ∧ (Tests.core .held).sched.tasks = [] ∧ (Tests.core .held).sched.waiting = [] ∧
    (let d := { Tests.core .run with sched := { tasks := [{ entry := 2, source := .timer 1, tclass := 64, phase := .running }] } }
     (d.core 15).run = true ∧ d.sched.waiting = [] ∧ ∀ t ∈ d.sched.tasks, t.entry ∈ (d.core 15).stack ∧ t.source = .timer 1) := by
  refine ⟨?_, ⟨?_, Tests.opens ?_ ?_ ?_ ?_⟩, ?_, ?_, ?_, ?_, ?_⟩ <;> decide +kernel

theorem witness_CoresRunSleepAndRestart :
    (((Tests.core .run).core 15).phase = .run ∧ (Tests.core .run).sched.waiting = [] ∧ ((Tests.core .run).stream 15).en = false) ∧
    ((Tests.core .run).fetchOk 15 = true ∧
     ({ State.reset.dev with cores := { cores := [(15, { phase := .run, run := true, pc := 0x40000 })] } } : Dev).fetchOk 15 = false) ∧
    (let t : Stream := { en := true, isOn := true, branches := List.replicate 62 true }
     t.en = true ∧ t.isOn = true ∧ t.mode = 0 ∧ t.act = 0 ∧ t.branches.length < 63) ∧
    (((Tests.core .sleep).core 15).phase = .sleep ∧ ((Tests.core .sleep).stream 15).isOn = false) ∧
    (((Tests.core .sleep).core 15).wdogEn = true ∧ ((Tests.core .sleep).core 15).able = true) ∧
    (∀ b : Bool, let d : Dev := { State.reset.dev with cores := { cores := [(3, { phase := .run })], activeB := b } }
     (d.core 3).able = true ∧ (decide (2 ≤ (3 : BitVec 4).toNat) ≠ d.cores.activeB ↔ b = false)) := by decide +kernel

/-- Accesses that a core makes: the ends of its TCM, of shared SRAM and of its core port, the register window and the cellar. -/
def Tests.accesses : List Nat := [0, 0x3FFFF, 0x10000000, 0x130FFFFF, 0x20000000, 0x30000000, 0x300000FF, 0x400000000, 0x7FFFFFFFF]

theorem witness_CoresRunSleepAndRestart_accesses :
    (∀ n ∈ Tests.accesses, ∀ store : Bool, ∀ k ∈ [0, 1, 2, 3],
      (Tests.core .run).accessOk 3 { store, amo := BitVec.ofNat 2 k, addr := BitVec.ofNat 64 n, log2 := 3 } = true ↔
        k ≤ 1 ∨ n < 0x10000000 ∨ 0x14000000 ≤ n) ∧
    (Tests.core .run).accessOk 15 { store := false, addr := 0x40000, log2 := 0 } = false ∧
    amoOk { store := true, amo := 1, addr := 0x10000000, log2 := 1 } = false := by decide +kernel

theorem witness_CoresRunSleepAndRestart_cellar :
    (∀ store : Bool, ({} : Cellar).permits .core 0 31 (wantOf .core store) store = none) ∧
    (∀ store : Bool, (Tests.cellar false 2).permits .core 0 31 (wantOf .core store) store = some (2, { en := true, rights := 0x1FF })) ∧
    PlainLine (Tests.withCellar (Tests.cellar false 2)) 31 ∧ ((Tests.cellar false 2).region 2).sealed_ = false ∧ MemCanon (Tests.withCellar (Tests.cellar false 2)) ∧
    (0x400000000 + 31 * 128) % 8 = 0 ∧ inCellar { store := true, addr := BitVec.ofNat 64 (0x400000000 + 31 * 128), log2 := 3 } = true ∧
    (Tests.spoilt.permits .core 0 5 (wantOf .core false) false = some (2, { en := true, sealed_ := true, rights := 0x1FF }) ∧
     PlainLine (Tests.withCellar Tests.spoilt) 5 ∧ Tests.spoilt.clearing = false ∧ (Tests.spoilt.metaOf 5).rsvOk = true ∧ (Tests.spoilt.metaOf 5).state = 1 ∧
     (Tests.spoilt.key (Tests.spoilt.metaOf 5).slot).phase = .empty) := by
  refine ⟨?_, ?_, ⟨?_, ?_, ?_, ?_⟩, ?_, ⟨?_, ⟨?_, ?_, ?_⟩, ?_⟩, ?_, ?_, ?_, ⟨?_, ?_, ?_, ?_⟩, ?_⟩ <;> decide +kernel

/-- A task in entry 2 of the table. -/
def Tests.task (p : TaskPhase) (src : TaskSource) : Task := { entry := 2, source := src, tclass := 64, phase := p }

theorem witness_SchedulerRunsTasks_tasks :
    (let d := { Tests.core .run with sched := { tasks := [Tests.task .running (.timer 1)] } }
     (d.core 15).able = true ∧ (d.core 15).stack = [2, 3] ∧ d.task? 2 = some (Tests.task .running (.timer 1)) ∧ d.sched.waiting = [] ∧
     (∀ y ∈ d.sched.tasks, y.phase ≠ .pending) ∧ ∀ k ∈ Tbl.keys d.fabric.uev, d.liveStatus (896 + k) ≠ some true) ∧
    (∀ late : Bool, let d := { Tests.core .run with now := if late then ns else 0 }
     d.deadline (Tests.task .running (.timer 1)) < d.now ↔ late = true) ∧
    (fwClass 64 = decide ((15 : BitVec 4).toNat < 4) ∧ fwClass 63 ≠ decide ((15 : BitVec 4).toNat < 4) ∧ (Tests.core .run).freeEntry false = some 64) ∧
    (fwClass 63 = decide ((3 : BitVec 4).toNat < 4) ∧ { Tests.core .run with fwres := 0 }.freeEntry true = none) := by decide +kernel

/-- A customer core has done the only task of user event 1023, which is still asserted and which the scheduler turns into a task. -/
theorem witness_SchedulerRunsTasks_again :
    let d := { Tests.core .run with
      cores := { cores := [(15, { phase := .run, run := true, stack := [2] })] }
      sched := { tasks := [Tests.task .running (.event 1023)], routes := [(1023, { ten := true, tclass := 64 })] }
      fabric := { uev := [(126, false), (127, true)] } }
    (d.core 15).stack = [2] ∧ d.task? 2 = some (Tests.task .running (.event 1023)) ∧ d.sched.waiting = [] ∧ (∀ y ∈ d.sched.tasks, y.phase ≠ .pending) ∧
    (1023 : BitVec 10).toNat - 896 ∈ Tbl.keys d.fabric.uev ∧
    (∀ k ∈ Tbl.keys d.fabric.uev, d.liveStatus (896 + k) = some true ↔ k = (1023 : BitVec 10).toNat - 896) ∧
    (∀ y ∈ d.sched.tasks, y.source = .event 1023 → y.entry = 2) ∧ d.hubUp = true ∧ (d.route 1023).ten = true ∧ fwClass (d.route 1023).tclass = false ∧
    (d.freeEntry false).isSome = true := by decide +kernel

theorem witness_SchedulerRunsTasks_events :
    (let d : Dev := { State.reset.dev with sched := { timers := [(63, { en := true, armed := true, tclass := 64 })] } }
     (d.timer 63).en = true ∧ (d.timer 63).armed = true ∧ (d.timer 63).beats = false ∧ 64 ≤ (d.timer 63).tclass.toNat ∧
     d.sched.tasks.find? (mergesWith (.timer 63)) = none ∧ d.freeEntry false = some 64) ∧
    [Tests.task .pending (.timer 63)].find? (mergesWith (.timer 63)) = some (Tests.task .pending (.timer 63)) ∧
    (takeOcc 1023 [{ ev := 1023, ts := 5 }] = some ({ ev := 1023, ts := 5 }, []) ∧ takeOcc 1023 [] = none) ∧
    (let d : Dev := { State.reset.dev with power := { warmFrom := some 0 } }
     d.hubUp = false) ∧
    (State.reset.dev.hubUp = true ∧ (State.reset.dev.route 1023).ten = false ∧ (State.reset.dev.route 1023).trc = false ∧
     (State.reset.dev.route 1023).ien = false ∧ State.reset.dev.roomDisabled 255 = false) ∧
    (let d : Dev := { State.reset.dev with sched := { routes := [(1023, { ien := true }), (1022, { ten := true, tclass := 64 })] }, fuse := { released := true } }
     (d.route 1023).ien = true ∧ (d.route 1022).ten = true ∧ 64 ≤ (d.route 1022).tclass.toNat ∧ d.fuse.released = true ∧ d.sched.msixMasked = [] ∧
     d.sched.tasks.find? (mergesWith (.event 1022)) = none) ∧
    ({ State.reset.dev with ident := { disabled := [255] } } : Dev).roomDisabled 255 = true := by decide +kernel

/-- A device with acquisition units 14 and 15 in a phase, of one group, with no divisor and with divisor 32. -/
def Tests.armed (p : AcqPhase) (arm : ArmRec := { src := 4, post := 9, size := 4096 }) (hit : Option Instant := none) : Dev :=
  { State.reset.dev with acq := [(14, { phase := p, gmaster := 15, arm, hit, left := 9 }),
                                 (15, { phase := p, gmaster := 15, sample := 1, div := 5, arm, hit, left := 2 })] }

theorem witness_TraceAndAcquisitionRun :
    (let t : Stream := { isOn := true, size := 4096, rp := 27, pos := 1 }
     t.isOn = true ∧ ((Tests.core .run).core 15).phase = .run ∧ t.lastSync < t.pos ∧ t.avail = 26) ∧
    ((16 : BitVec 5).toNat < 17 ∧ ({} : Stream).dropped = none) ∧
    (let t : Stream := { size := 4096, dropped := some 1, rp := 32 }
     t.dropped.isSome = true ∧ t.avail = 31) ∧
    ((Tests.armed .armed).acqSource ((Tests.armed .armed).unit 15) [3] = some (2, [3]) ∧
     (32768 : BitVec 17).toNat ≤ 32768 ∧ ((Tests.armed .armed).unit 15).div.toNat < 6 ∧ ((Tests.armed .armed).unit 15).phase = .armed ∧
     ((Tests.armed .armed).unit 15).sample.toNat % 2 ^ ((Tests.armed .armed).unit 15).div.toNat ≠ 0 ∧ ((Tests.armed .armed).unit 15).arm.pre = 0) ∧
    (let x := (Tests.armed .triggered).unit 14
     x.phase = .triggered ∧ x.sample.toNat % 2 ^ x.div.toNat = 0 ∧ x.arm.cellar = false ∧ 1 < x.left) ∧
    (∀ w < 16, ((Tests.armed .armed).unit w).phase = .armed → ((Tests.armed .armed).unit w).arm.cellar = false ∧ ((Tests.armed .armed).unit w).arm.post ≠ 0) ∧
    (((Tests.armed .armed).unit 13).phase ≠ .armed ∧ ((Tests.armed .triggered).unit 15).phase ≠ .armed) := by decide +kernel

theorem witness_TraceAndAcquisitionRun_triggers :
    (∀ k ∈ [1, 2], let x := (Tests.armed .armed { src := 4, tkind := k, post := 9, size := 4096 } (some 5)).unit 15
      x.phase = .armed ∧ x.arm.tkind = k ∧ x.hit = some 5) ∧
    -- of two units of a group whose conditions hold at one time the lower one triggers
    (let d := Tests.armed .armed { src := 4, tkind := 1, post := 9, size := 4096 } (some 5)
     ∀ w < 16, (d.unit w).phase = .armed → (d.unit w).gmaster = (d.unit 15).gmaster → (w = 14 ∨ w = 15) ∧ (d.unit w).hit = some 5) ∧
    (let d := { Tests.armed .armed { src := 1, sel1 := 7, tkind := 3, tvalue := 1, tmask := 2, post := 9, size := 4096 } with
                funcs := [{ Tests.func with obj := { rooms := [{ probes := [0] }] } }] }
     d.probeHit (d.unit 15) = true) ∧
    (let d := { Tests.armed .armed { src := 4, tkind := 4, tvalue := 6, post := 9, size := 4096 } with time := { run := true, n := 6 } }
     d.time.run = true ∧ (d.unit 15).arm.tkind = 4 ∧ (d.unit 15).arm.tvalue ≤ d.time.n) ∧
    ((Tests.armed .armed { src := 4, tkind := 5, post := 9, size := 4096 }).unit 15).arm.tkind = 5 := by decide +kernel

-- the host interface

/-- A device whose pair 511 of function 63 can fetch slot 15, the last of its 16. -/
def Tests.fetching (window : List RetEntry) (nextseq : BitVec 64) : Dev :=
  { State.reset.dev with
    rings := { ready := true, linkUp := true,
               pairs := [(511, { en := true, owner := 63, phase := .run, fetch := 15, sqPi := 16, nextseq, window, irqEn := true, irqPending := 1, irqTimer := 1 })] } }

/-- A NOP descriptor of a sequence number. -/
def Tests.nop (seq : Nat) : BitVec 512 := BitVec.ofNat 512 (seq * 2 ^ 64)

theorem Tests.fetching_windows (n : BitVec 64) : (Tests.fetching [] n).rings.windowsOk := by
  refine ⟨rfl, ?_⟩
  intro p hp
  rw [show p = _ from List.mem_singleton.1 hp]
  exact ⟨Nat.lt_succ_self 511, List.nodup_nil, fun x hx => by cases hx⟩

theorem witness_DescriptorsAreFetched :
    ((Tests.fetching [] 1).canFetch 511 = true ∧ (Tests.fetching [] 1).rings.windowsOk ∧ (Tests.fetching [] 1).link.await = [] ∧
     (Tests.fetching [] 1).entry? ⟨511, 15⟩ = none ∧ (Tests.fetching [] 1).heldBits 511 = 0) ∧
    ((Tests.fetching ((List.range 16).map fun i => { Tests.entry 0 with slot := i + 16 }) 1).heldBits 511 ≠ 0) ∧
    (descSeq (Tests.nop 0) < 1 ∧ 1 < descSeq (Tests.nop 2) ∧ descSeq (Tests.nop 1) = 1 ∧ (Tests.fetching [] 1).slotRefusal (Tests.nop 1) = none ∧
     (Tests.fetching [] 1).descBad 63 (Tests.nop 1) = none ∧ (Tests.fetching [] 1).descBad 63 (Tests.nop 1 + 2) = some 1 ∧
     (Tests.fetching [] 1).slotRefusal (Tests.nop 1 + 0x31) = some { status := 0x11, detail := 0x33 }) ∧
    (∀ par : Bool, let e : RetEntry := { Tests.entry 0x60 with slot := 15, par }
     let d := Tests.fetching [e] 1
     d.canFetch 511 = true ∧ d.entry? ⟨511, 15⟩ = some e ∧ (e.par = (d.ring 511).parity ↔ par = true) ∧ e.accept = true ∧ e.phase = .accepted ∧ e.started = false) ∧
    ((Tests.fetching [] 1).pairOk (.fn 63) 511 = true ∧ (Tests.fetching [] 1).pairOk (.fn 0) 511 = true) ∧
    -- slots 14, 15, 0 and 1 of the 16 stand in the window, and CQ_CI moves past the first two to slot 0
    (let posted (n : Nat) : RetEntry := { Tests.entry 0 with slot := n, posted := true }
     let r := (Tests.fetching [posted 14, posted 15, posted 0, Tests.entry 1] 1).ring 511
     r.window.length ≤ r.slots ∧ (∀ i < 3, (r.window[i]?).map (·.slot) = some ((14 + i) % r.slots)) ∧ 2 < r.slots ∧ 2 ≤ r.window.length ∧
     (16 : BitVec 16).toNat % r.slots = (14 + 2) % r.slots ∧ ∀ e ∈ r.window.take 2, e.posted = true) ∧
    (OpenDesc (Tests.withEntry State.reset.dev (Tests.entry 0x41)) ⟨0, 0⟩ (Tests.entry 0x41) ∧ argLen (Tests.entry 0x41).desc = 64 ∧
     (Tests.entry 0x41).accept = true ∧ (Tests.entry 0x41).phase = .accepted ∧ (Tests.entry 0x41).args = none) ∧
    (let r := (Tests.fetching [] 1).ring 511
     r.irqEn = true ∧ r.irqPending ≠ 0 ∧ r.irqTimer ≠ 0) := by
  refine ⟨⟨?_, Tests.fetching_windows _, ?_⟩, ?_, ?_, ?_, ?_, ?_, ⟨Tests.opens ?_ ?_ ?_ ?_, ?_⟩, ?_⟩ <;> decide +kernel

/-- The entry of the slot that the next fetch names is still to be done, with the parity of this lap. -/
theorem witness_DescriptorsAreFetched_open :
    let e : RetEntry := { Tests.entry 0x60 with slot := 15, par := true }
    OpenDesc (Tests.fetching [e] 1) ⟨511, 15⟩ e := by
  refine ⟨by decide +kernel, by decide, ⟨rfl, ?_⟩, fun a ha => by cases ha⟩
  intro p hp
  rw [show p = _ from List.mem_singleton.1 hp]
  exact ⟨Nat.lt_succ_self 511, by simp, fun x hx => by rw [List.mem_singleton.1 hx]; decide⟩

theorem witness_PairsStopAndGoOn :
    (State.reset.dev.isPf (.fn 0) = true ∧ (State.reset.dev.ring 511).en = false ∧ (State.reset.dev.ring 511).stopped = false ∧
     (State.reset.dev.rings.pairs.filter fun x => x.2.owner == 63).length < 8) ∧
    (let r : Ring := { en := true, stopped := true, window := [Tests.entry 0] }
     r.en = true ∧ r.stopped = true ∧ r.window.find? (fun e => e.accept && e.phase == .accepted) = some (Tests.entry 0)) ∧
    (let d : Dev := { State.reset.dev with link := { mirror := .paired, secondary := true } }
     (d.ring 511).en = false ∧ d.link.mirror = .paired ∧ d.link.secondary = true ∧ d.link.await = []) ∧
    ({ mirror := .split } : Link).mirror = .split ∧ State.reset.dev.power.perst = true ∧ State.reset.dev.rings.linkUp = false ∧
    (let x : PcieLink := { up := true, gen := 5, width := 4 }
     3 ≤ x.gen ∧ x.gen ≤ 5 ∧ (x.width = 16 ∨ x.width = 8 ∨ x.width = 4)) ∧ ¬ 3 ≤ ({ up := true, gen := 2, width := 4 } : PcieLink).gen ∧
    (State.reset.dev.link.mirror ≠ .split ∧ State.reset.dev.link.mirror ≠ .paired) := by decide +kernel

/-- Bytes of zero. -/
def Tests.zeros (n : Nat) : Bytes := List.replicate n 0

/-- A section directory entry of virtual room 0 (R113). -/
def Tests.sect (type count offset length : Nat) : Bytes := leBytes 4 type ++ leBytes 4 count ++ leBytes 4 offset ++ leBytes 4 length

/-- A schedule object of one virtual room with one level of one NOP in each BP, one pass, W = `w`, and at most one binding record (R111 to R117). -/
def Tests.object (w : Nat) (bind : Bytes := []) : Bytes :=
  let k := if bind.isEmpty then 0 else 1
  let at_ := 336 + 16 * k
  [0x4B, 0x5A, 0x53, 0x4F] ++ leBytes 2 0x100 ++ leBytes 2 256 ++ leBytes 2 7 ++ leBytes 2 1 ++ [1, 1] ++ leBytes 2 1 ++ leBytes 4 w ++ leBytes 2 1 ++ [0, 0] ++
  leBytes 2 (5 + k) ++ Tests.zeros 6 ++ leBytes 4 1 ++ Tests.zeros 220 ++
  Tests.sect 1 1 at_ 1536 ++ Tests.sect 2 256 (at_ + 1536) 2048 ++ Tests.sect 3 0 (at_ + 3584) 0 ++ Tests.sect 4 1 (at_ + 3584) 2448 ++
  (if k = 1 then Tests.sect 0xFFFF0008 1 (at_ + 6048) 32 else []) ++ Tests.sect 0xA 1 (at_ + 6032) 4 ++
  (List.replicate 128 (leBytes 12 0x1C0)).flatten ++ Tests.zeros 4500 ++ (if k = 1 then Tests.zeros 12 ++ bind else [])

/-- REMOTE binding 0 of virtual room 0, of direction OUT and one word (R269). -/
def Tests.outBinding : Bytes := [4, 0, 0, 0, 0, 0, 1] ++ Tests.zeros 25

/-- An admission of that object. -/
def Tests.ask (w : Nat) : Ask := { fid := 7, r := 1, owner := 0, pool := anyPool, obj := parseObj (Tests.object w), ends := {} }

/-- The operation of a descriptor runs on a device, as the only one of pair 0. -/
def Tests.Runs (d : Dev) (w : BitVec 512) (args : Option Bytes := none) : Prop :=
  CanRun (Tests.withEntry d (Tests.entry w args)) ⟨0, 0⟩ (descOpcode w) (Tests.entry w args)

theorem Tests.run {d : Dev} {w : BitVec 512} {args : Option Bytes}
    (h : (Tests.withEntry d (Tests.entry w args)).startable ⟨0, 0⟩ (descOpcode w) = some (Tests.entry w args)) (hl : d.link.await = []) :
    Tests.Runs d w args := Tests.runs h (by decide : (0 : Nat) < 4096) hl

/-- A device whose staging slot 0 holds a body. -/
def Tests.staged (body : Bytes) : Dev := { State.reset.dev with loader := { slots := [(0, { body })] } }

/-- A FUNC_ADMIT of slot 0, one replica, into any room. -/
def Tests.admission : BitVec 512 := 0x10 + 2 ^ 200 + 2 ^ 208

/-- What the admission of a device's staging slot 0 gives, with its body. -/
def Tests.result (body : Bytes) : Except Nak (List Place × List Reservation) :=
  (Tests.withEntry (Tests.staged body) (Tests.entry Tests.admission (some []))).admission body
    { Tests.ask 0 with obj := parseObj body, ends := parseEnds [] }

set_option maxRecDepth 20000 in
theorem witness_OperationsWaitForTheirBoundary_admit :
    (Tests.Runs (Tests.staged []) Tests.admission (some []) ∧ (∃ n, Tests.result [] = .error n) ∧
     ({ Tests.ask 0 with obj := parseObj [] } : Ask).unanswered = []) ∧
    (Tests.Runs (Tests.staged (Tests.object 7)) Tests.admission (some []) ∧ (Tests.staged (Tests.object 7)).admitId Tests.admission = 7 ∧
     dfld Tests.admission 0x19 1 = 1 ∧ (Tests.result (Tests.object 7)).isOk = true ∧ (Tests.ask 7).unanswered = []) ∧
    (let body := Tests.object 7 Tests.outBinding
     Tests.Runs (Tests.staged body) Tests.admission (some []) ∧ (Tests.staged body).admitId Tests.admission = 7 ∧
     ({ Tests.ask 7 with obj := parseObj body } : Ask).unanswered ≠ [] ∧
     (match Tests.result body with | .error n => n.status == 0x11 && n.detail == 0x0A | .ok _ => false) = true) := by
  refine ⟨⟨Tests.run ?_ ?_, ⟨_, rfl⟩, ?_⟩, ⟨Tests.run ?_ ?_, ?_⟩, ⟨Tests.run ?_ ?_, ?_⟩⟩ <;> decide +kernel

/-- A function of one virtual room that is bound to room 3. -/
def Tests.movable : Func := { Tests.func with obj := { v := 1, rooms := [{}] } }

theorem witness_OperationsWaitForTheirBoundary_migrate :
    (Tests.Runs State.reset.dev (0x11 + 7 * 2 ^ 192) ∧ State.reset.dev.namedFunc (0x11 + 7 * 2 ^ 192) = none) ∧
    (Tests.Runs (Tests.with1 Tests.movable) (0x11 + 7 * 2 ^ 192) ∧ ((Tests.with1 Tests.movable).namedFunc (0x11 + 7 * 2 ^ 192)).isSome = true) ∧
    (∀ w ∈ [0x12 + 7 * 2 ^ 192 + 1 * 2 ^ 216, 0x12 + 7 * 2 ^ 192, 0x12 + 7 * 2 ^ 192 + 2 ^ 232],
      Tests.Runs (Tests.with1 Tests.movable) w (some []) ∧ (Tests.with1 Tests.movable).namedFunc w = some Tests.movable) ∧
    (dfld (0x12 + 7 * 2 ^ 192 + 1 * 2 ^ 216) 0x1B 1 = 1 ∧ Tests.movable.r ≤ 1 ∧ dfld (0x12 + 7 * 2 ^ 192) 0x1A 2 = 0 ∧
     ((Tests.with1 Tests.movable).poolRooms 0).length < Tests.movable.places.length) ∧
    (let d := (Tests.withEntry (Tests.with1 Tests.movable) (Tests.entry (0x12 + 7 * 2 ^ 192 + 2 ^ 232) (some []))).start ⟨0, 0⟩
     (match d.bindUp Tests.movable.obj [(false, 0)] (sourceGroups Tests.movable Tests.movable.places) 256 (d.poolRooms anyPool) with
      | .ok b => (d.reserveXch 7 Tests.movable.obj b.places true [(false, 0)]).isOk
      | .error _ => false) = true) := by
  refine ⟨⟨Tests.run ?_ ?_, ?_⟩, ⟨Tests.run ?_ ?_, ?_⟩, ?_, ?_, ?_⟩
  case refine_7 => 
    intro w hw
    simp only [List.mem_cons, List.not_mem_nil, or_false] at hw
    rcases hw with rfl | rfl | rfl <;> refine ⟨Tests.run ?_ ?_, ?_⟩ <;> decide +kernel
  all_goals decide +kernel

/-- A function with an input binding of ancillary words. -/
def Tests.input : Func := { Tests.func with obj := { v := 1, bindings := [{ type := 1, num := 0, vroom := 0, fmt := 4 }] } }

/-- A device with that function, and the receiver of SDI engine 31. -/
def Tests.inputs : Dev := { Tests.sdi true with funcs := [Tests.input] }

theorem witness_OperationsWaitForTheirBoundary_params :
    (∀ w ∈ [0x13 + 7 * 2 ^ 192, 0x13 + 7 * 2 ^ 192 + 2 ^ 208], Tests.Runs Tests.inputs w (some []) ∧ Tests.inputs.namedFunc w = some Tests.input) ∧
    (paramOk Tests.input (0x13 + 7 * 2 ^ 192) = true ∧ paramOk Tests.input (0x13 + 7 * 2 ^ 192 + 2 ^ 208) = false) ∧
    (∀ p ∈ [((0x22 : BitVec 512) + 7 * 2 ^ 192 + 0x6000001F * 2 ^ 224, true), (0x22, false)], Tests.Runs Tests.inputs p.1 ∧
      ((Tests.withEntry Tests.inputs (Tests.entry p.1)).start ⟨0, 0⟩).routeOk p.1 = p.2) := by
  refine ⟨?_, ?_, ?_⟩
  · intro w hw
    simp only [List.mem_cons, List.not_mem_nil, or_false] at hw
    rcases hw with rfl | rfl <;> refine ⟨Tests.run ?_ ?_, ?_⟩ <;> decide +kernel
  · decide +kernel
  · intro p hp
    simp only [List.mem_cons, List.not_mem_nil, or_false] at hp
    rcases hp with rfl | rfl <;> refine ⟨Tests.run ?_ ?_, ?_⟩ <;> decide +kernel

/-- A device whose staging slot 0 holds an image of a kind, with an anti-rollback count. -/
def Tests.applies (kind : BitVec 3) (arb : BitVec 8) : Dev :=
  { State.reset.dev with loader := { slots := [(0, { kind })] }, strong := { arbFw := arb } }

theorem witness_OperationsWaitForTheirBoundary_apply :
    (∀ p ∈ [((4 : BitVec 3), (1 : BitVec 8)), (4, 0), (3, 0)], Tests.Runs (Tests.applies p.1 p.2) 0x31 ∧ ((Tests.applies p.1 p.2).stg 0).kind = p.1) ∧
    (imgSecver [] < (Tests.applies 4 1).arbCount (imgKeyid []) ∧ (Tests.applies 4 0).arbCount (imgKeyid []) ≤ imgSecver [] ∧
     (Tests.applies 3 0).arbCount (imgKeyid []) ≤ imgSecver []) ∧
    (∀ w ∈ [(0x70 : BitVec 512), 0x70 + 2 ^ 192], Tests.Runs State.reset.dev w) ∧
    (dfld 0x70 0x18 1 = 0 ∧ dfld (0x70 + 2 ^ 192) 0x18 1 = 1) := by
  refine ⟨?_, ?_, ?_, ?_⟩
  · intro p hp
    simp only [List.mem_cons, List.not_mem_nil, or_false] at hp
    rcases hp with rfl | rfl | rfl <;> refine ⟨Tests.run ?_ ?_, ?_⟩ <;> decide +kernel
  · decide +kernel
  · intro w hw
    simp only [List.mem_cons, List.not_mem_nil, or_false] at hw
    rcases hw with rfl | rfl <;> refine Tests.run ?_ ?_ <;> decide +kernel
  · decide +kernel

/-- The arm record of a lane source, master, with a ring of 4,096 bytes in shared SRAM (R398). -/
def Tests.armRecord : Bytes := [4, 1] ++ Tests.zeros 47 ++ [0x10] ++ Tests.zeros 14

theorem witness_OperationsWaitForTheirBoundary_arm :
    (∀ p ∈ [((0x50 + 2 ^ 192 : BitVec 512), ([] : Bytes)), (0x50 + 2 ^ 192, Tests.armRecord), (0x50 + 2 ^ 10 + 2 ^ 192, Tests.armRecord)],
      Tests.Runs State.reset.dev p.1 (some p.2)) ∧
    (State.reset.dev.armRefusal (armUnits 1 []) = some (5, 4) ∧ State.reset.dev.armRefusal (armUnits 1 Tests.armRecord) = none ∧
     descTimed (0x50 + 2 ^ 10 + 2 ^ 192) = true ∧ descTimed (0x50 + 2 ^ 192) = false ∧ (Tests.entry (0x50 + 2 ^ 192)).apply = none) := by
  refine ⟨?_, ?_⟩
  · intro p hp
    simp only [List.mem_cons, List.not_mem_nil, or_false] at hp
    rcases hp with rfl | rfl | rfl <;> refine Tests.run ?_ ?_ <;> decide +kernel
  · decide +kernel

theorem witness_OperationsComplete_nop :
    (let e : RetEntry := { Tests.entry 0 with phase := .committed }
     OpenDesc (Tests.withEntry State.reset.dev e) ⟨0, 0⟩ e ∧ e.accept = true ∧ descOpcode e.desc = 0 ∧ descFence e.desc = false ∧ e.apply = none ∧
     ∀ y ∈ ((Tests.withEntry State.reset.dev e).ring 0).window.takeWhile (fun y => y.slot != e.slot), y.phase ≠ .accepted) ∧
    (let e : RetEntry := { Tests.entry 1 with seq := 1 }
     CanRun (Tests.withEntry State.reset.dev e) ⟨0, 0⟩ 1 e ∧ ((Tests.withEntry State.reset.dev e).ring 0).postedSeq 0 = true) := by
  refine ⟨⟨Tests.opens ?_ ?_ ?_ ?_, ?_⟩, ⟨Tests.runs ?_ ?_ ?_, ?_⟩⟩ <;> decide +kernel

/-- A device whose pair 0, of a function, holds two descriptors. -/
def Tests.withTwo (d : Dev) (owner : BitVec 6) (e t : RetEntry) : Dev :=
  { d with rings := { pairs := [(0, { en := true, phase := .run, owner, window := [e, { t with slot := 1 }], nextseq := 2 })], ready := true } }

theorem Tests.runs2 {d : Dev} {o : BitVec 6} {e t : RetEntry} {op : Nat} (h : (Tests.withTwo d o e t).startable ⟨0, 0⟩ op = some e) (hs : e.slot = 0)
    (hl : d.link.await = []) : CanRun (Tests.withTwo d o e t) ⟨0, 0⟩ op e := by
  refine ⟨h, ⟨by simp [Tests.withTwo, Tbl.wf], ?_⟩, fun a ha => by rw [show (Tests.withTwo d o e t).link.await = [] from hl] at ha; cases ha⟩
  intro p hp
  rw [show p = _ from List.mem_singleton.1 hp]
  refine ⟨Nat.succ_pos 511, by simp [hs], fun x hx => ?_⟩
  simp only [List.mem_cons, List.not_mem_nil, or_false] at hx
  rcases hx with rfl | rfl
  · exact hs ▸ Nat.succ_pos 4095
  · exact Nat.lt_of_sub_eq_succ rfl

/-- An entry of a descriptor, with an earlier change of the same function that has started. -/
def Tests.behind (w : BitVec 512) (args : Option Bytes) : RetEntry := { Tests.entry w args with order := 1 }
def Tests.before : RetEntry := { Tests.entry (0x11 + 7 * 2 ^ 192) with started := true }

theorem witness_OperationsWaitForTheirBoundary_waits :
    (∀ p ∈ [((0x11 + 7 * 2 ^ 192 : BitVec 512), (none : Option Bytes)), (0x13 + 7 * 2 ^ 192, some []), (0x22 + 7 * 2 ^ 192, none)],
      CanRun (Tests.withTwo State.reset.dev 0 (Tests.behind p.1 p.2) Tests.before) ⟨0, 0⟩ (descOpcode p.1) (Tests.behind p.1 p.2) ∧
      ((Tests.withTwo State.reset.dev 0 (Tests.behind p.1 p.2) Tests.before).start ⟨0, 0⟩).waitsFor (Tests.behind p.1 p.2) = true) ∧
    [(0x11 + 7 * 2 ^ 192 : BitVec 512), 0x13 + 7 * 2 ^ 192, 0x22 + 7 * 2 ^ 192].all (fun w =>
      !((Tests.withEntry State.reset.dev (Tests.entry w)).start ⟨0, 0⟩).waitsFor (Tests.entry w)) = true := by
  refine ⟨?_, by decide +kernel⟩
  intro p hp
  simp only [List.mem_cons, List.not_mem_nil, or_false] at hp
  rcases hp with rfl | rfl | rfl <;> refine ⟨Tests.runs2 ?_ rfl rfl, ?_⟩ <;> decide +kernel

/-- The record of receive flow 1023, of ancillary words, on subport 3 of port 7 (R202, R203). -/
def Tests.flowRecord : Bytes :=
  [0, 4, 0xFF, 3] ++ Tests.zeros 12 ++ [7, 3, 0, 0, 4, 96] ++ Tests.zeros 58 ++ Tests.zeros 64 ++ Tests.zeros 12 ++ leBytes 4 400 ++ Tests.zeros 96

theorem witness_OperationsComplete_flows :
    (let e := Tests.entry 0x20 (some [])
     CanRun (Tests.withTwo State.reset.dev 63 e (Tests.entry 0)) ⟨0, 0⟩ 0x20 e ∧
     ((Tests.withTwo State.reset.dev 63 e (Tests.entry 0)).ring 0).owner ≠ 0 ∧
     (Tests.withTwo State.reset.dev 63 e (Tests.entry 0)).ownsRecord 63 (parseFlow []) = false) ∧
    (Tests.Runs Tests.port 0x20 (some []) ∧ Tests.port.flowRefusal (parseFlow []) = some 0x21) ∧
    (Tests.Runs Tests.port 0x20 (some Tests.flowRecord) ∧ Tests.port.flowRefusal (parseFlow Tests.flowRecord) = none) ∧
    (Tests.Runs State.reset.dev (0x21 + 1023 * 2 ^ 208) ∧ (State.reset.dev.flow 1023).opened = false) ∧
    (let d : Dev := { State.reset.dev with media := { flows := [(1023, Tests.flow), (2047, Tests.flow)] } }
     (Tests.Runs d (0x21 + 1023 * 2 ^ 208) ∧ (d.flow 1023).opened = true) ∧
     (Tests.Runs d (0x21 + 2 ^ 192 + 1023 * 2 ^ 208) ∧ (d.flow 2047).opened = true)) := by
  refine ⟨⟨Tests.runs2 ?_ rfl ?_, ?_⟩, ⟨Tests.run ?_ ?_, ?_⟩, ⟨Tests.run ?_ ?_, ?_⟩, ⟨Tests.run ?_ ?_, ?_⟩, ⟨⟨Tests.run ?_ ?_, ?_⟩, ⟨Tests.run ?_ ?_, ?_⟩⟩⟩ <;>
    decide +kernel

/-- A staging slot whose header and signature block, all zero but for a kind, have been taken. -/
def Tests.checked (kind : Nat) (frames : Nat) : Staging :=
  { phase := .receiving, kind := BitVec.ofNat 3 kind, head := Tests.zeros 10 ++ [BitVec.ofNat 8 kind] ++ Tests.zeros 8693, checked := 2, frames }

/-- A device that has such a slot 0. -/
def Tests.receiving : Dev := { State.reset.dev with loader := { slots := [(0, Tests.checked 4 0)] } }

set_option maxRecDepth 20000 in
theorem witness_OperationsComplete_image :
    (let e := Tests.entry (0x30 + 2 ^ 200) (some [])
     CanRun (Tests.withTwo State.reset.dev 0 e (Tests.entry 0x31)) ⟨0, 0⟩ 0x30 e ∧
     ((Tests.withTwo State.reset.dev 0 e (Tests.entry 0x31)).start ⟨0, 0⟩).slotInUse 0 = true) ∧
    (Tests.Runs State.reset.dev 0x30 (some []) ∧ (State.reset.dev.stg 0).phase ≠ .receiving) ∧
    (Tests.Runs State.reset.dev (0x30 + 2 ^ 200) (some []) ∧
     ((Tests.withEntry State.reset.dev (Tests.entry (0x30 + 2 ^ 200) (some []))).start ⟨0, 0⟩).slotInUse 0 = false ∧
     (State.reset.dev.stageFeed 0 { phase := .receiving } []).2 = none ∧ (State.reset.dev.stageFeed 0 { phase := .receiving } []).1.phase = .receiving) ∧
    (Tests.Runs State.reset.dev (0x30 + 2 ^ 200) (some (Tests.zeros 512)) ∧
     (State.reset.dev.stageFeed 0 { phase := .receiving } (Tests.zeros 512)).2 = some { status := 0x22, detail := 1, frame := headFrame }) ∧
    (Tests.Runs Tests.receiving (0x30 + 2 ^ 201) (some []) ∧ (Tests.receiving.stg 0).phase = .receiving ∧
     (let fed := Tests.receiving.stageFeed 0 (Tests.receiving.stg 0) []
      fed.2 = none ∧ stageEnd fed.1 = none ∧ Tests.receiving.bodyFault fed.1 = none)) := by
  refine ⟨⟨Tests.runs2 ?_ rfl ?_, ?_⟩, ⟨Tests.run ?_ ?_, ?_⟩, ⟨Tests.run ?_ ?_, ?_⟩, ⟨Tests.run ?_ ?_, ?_⟩, ⟨Tests.run ?_ ?_, ?_⟩⟩ <;> decide +kernel

/-- A CELLAR_COPY of line 31 by queue 0, out of the cellar or into it (R158). -/
def Tests.copy (out : Bool) : BitVec 512 := 0x40 + (if out then 2 ^ 192 else 0) + 2 ^ 224 + (31 * 128) * 2 ^ 320

theorem witness_OperationsComplete_copy :
    (Tests.Runs (Tests.withCellar (Tests.cellar false 1)) (Tests.copy true) ∧ dfld (Tests.copy true) 0x18 1 = 1 ∧ dfld (Tests.copy true) 0x1C 4 = 1 ∧
     dfld (Tests.copy true) 0x28 8 / 128 = 31 ∧ PlainLine (Tests.withCellar (Tests.cellar false 1)) 31 ∧
     (Tests.cellar false 1).permits .copy 0 31 .copyOut false = some (2, { en := true, rights := 0x1FF }) ∧
     (Tests.cellar false 1).visible 31 none = [] ∧ (([{ uncorrectable := true }] : List LineEcc).headD {}).uncorrectable = true) ∧
    (Tests.Runs (Tests.withCellar (Tests.cellar false 1)) (Tests.copy false) (some (Tests.zeros 128)) ∧ dfld (Tests.copy false) 0x18 1 = 0 ∧
     dfld (Tests.copy false) 0x1C 4 = 1 ∧ dfld (Tests.copy false) 0x28 8 / 128 = 31 ∧
     (Tests.cellar false 1).permits .copy 0 31 .copyIn true = some (2, { en := true, rights := 0x1FF }) ∧
     ((Tests.cellar false 1).region 2).sealed_ = false) ∧
    (Tests.Runs (Tests.withCellar {}) (Tests.copy false) (some (Tests.zeros 128)) ∧ ({} : Cellar).permits .copy 0 31 .copyIn true = none) := by
  refine ⟨⟨Tests.run ?_ ?_, ?_, ?_, ?_, ⟨?_, ?_, ?_, ?_⟩, ?_⟩, ⟨Tests.run ?_ ?_, ?_⟩, ⟨Tests.run ?_ ?_, ?_⟩⟩ <;> decide +kernel

/-- An ABORT of the descriptor of sequence number 1 of pair 0. -/
def Tests.abort : RetEntry := Tests.entry (0x7F + 2 ^ 256)

/-- A device that holds it and its target, which has an opcode and flags. -/
def Tests.aborts (w : BitVec 512) (phase : RetPhase) (started : Bool) : Dev :=
  Tests.withTwo { State.reset.dev with cellar := { retires := [{ desc := ⟨0, 1⟩, slot := 63, was := .active, deadline := 9 }] } } 0 Tests.abort { slot := 1, seq := 1, desc := w, phase, started }

/-- The ABORT runs, and finds its target. -/
def Tests.Aborts (w : BitVec 512) (phase : RetPhase := .accepted) (started : Bool := false) : Prop :=
  CanRun (Tests.aborts w phase started) ⟨0, 0⟩ 0x7F Tests.abort ∧
  ((Tests.aborts w phase started).ring 0).window.find? (fun t => t.accept && t.seq == 1) = some { slot := 1, seq := 1, desc := w, phase, started }

theorem Tests.abortRuns {w : BitVec 512} {p : RetPhase} {b : Bool} (h : (Tests.aborts w p b).startable ⟨0, 0⟩ 0x7F = some Tests.abort) : Tests.Aborts w p b :=
  ⟨Tests.runs2 h rfl rfl, rfl⟩

theorem witness_OperationsComplete_abort :
    (Tests.Runs State.reset.dev (0x7F + 2 ^ 256) ∧
     ((Tests.withEntry State.reset.dev (Tests.entry (0x7F + 2 ^ 256))).ring 0).window.find? (fun t => t.accept && t.seq == 1) = none) ∧
    (Tests.Aborts 0x42 .completed ∧ Tests.Aborts 0x42 .committed ∧ Tests.Aborts 0x42 ∧ descAbortable 0x42 = false) ∧
    ((Tests.aborts 0x842 .accepted false).cellar.retires.find? fun z => z.desc == ⟨0, 1⟩).isSome = true ∧
    (Tests.Aborts 0x842 ∧ Tests.Aborts 0x861 ∧ Tests.Aborts 0x830 .accepted true ∧ Tests.Aborts 0x843) ∧
    (descAbortable 0x842 = true ∧ descAbortable 0x861 = true ∧ descAbortable 0x830 = true ∧ descAbortable 0x843 = true ∧
     descOpcode 0x842 = 0x42 ∧ descOpcode 0x861 = 0x61 ∧ descOpcode 0x830 = 0x30 ∧ descOpcode 0x843 = 0x43) := by
  refine ⟨⟨Tests.run ?_ ?_, ?_⟩, ⟨Tests.abortRuns ?_, Tests.abortRuns ?_, Tests.abortRuns ?_, ?_⟩, ?_,
    ⟨Tests.abortRuns ?_, Tests.abortRuns ?_, Tests.abortRuns ?_, Tests.abortRuns ?_⟩, ?_⟩ <;> decide +kernel

/-- A region that exhausts its key waits for an engine, and the SWEEP to abort holds the only one that could be free. -/
def Tests.exhausts : Cellar :=
  { regions := [(2, { en := true, sealed_ := true, exhausting := true, autosweep := true, pending := 5 })],
    sweeps := [(3, { phase := .run, region := 2, desc := some ⟨0, 1⟩ })] }

theorem witness_OperationsComplete_abort_sweep :
    (Tests.exhausts.regions.filter fun p => p.2.exhausting && p.2.autosweep) =
      [(2, { en := true, sealed_ := true, exhausting := true, autosweep := true, pending := 5 })] ∧
    (Tbl.get ({} : SweepEngine) Tests.exhausts.sweeps 3).desc = some ⟨0, 1⟩ ∧
    (∀ p ∈ Tests.exhausts.sweeps, p.2.phase ≠ .idle → p.2.startup = false → p.2.region.toNat = 2 → p.2.desc = some ⟨0, 1⟩) ∧
    (∀ p ∈ (Tests.cellar true 2).regions, ¬ (p.2.exhausting = true ∧ p.2.autosweep = true)) := by decide +kernel

-- the fuse box, the strongroom, power and the register map

/-- A device whose source 3 has a form, with one occurrence of it in the reorder window. -/
def Tests.fused (x : FuseSrc) (run : Bool) : Dev :=
  { State.reset.dev with fuse := { srcs := [(3, x)], window := [{ ev := 3, ts := 0 }] }, time := { run } }

/-- The reactions beside LOG of source 3 with a reaction register. -/
def Tests.latches (react : BitVec 8) : BitVec 8 := (((Tests.fused { react, beatcls := true } true).src 3).add 0).react &&& reactMask 3 &&& 0xFE

theorem witness_FuseBoxLatchesAndReleases_classify :
    (let x : FuseSrc := { n := 2, react := 0 }
     let y := ((Tests.fused x false).src 3).add 0
     y.latched = false ∧ y.count 0 < y.threshold ∧ (y.react &&& reactMask 3).getLsbD 0 = false) ∧
    (let x : FuseSrc := { n := 2 }
     let y := ((Tests.fused x false).src 3).add 0
     y.latched = false ∧ y.count 0 < y.threshold ∧ (y.react &&& reactMask 3).getLsbD 0 = true) ∧
    (Tests.latches 1 = 0 ∧ Tests.latches 8 = 8 ∧ Tests.latches 4 = 4 ∧ Tests.latches 0x20 = 0x20) ∧
    (let y := ((Tests.fused { beatcls := true } true).src 3).add 0
     y.latched = false ∧ y.threshold ≤ y.count 0 ∧ y.beatcls = true) ∧
    (let d := { Tests.fused { react := 0x20 } true with funcs := [Tests.func], rooms := [(3, { func := 7 })] }
     d.admitted = [Tests.func] ∧ Tests.func.since ≤ (0 : Beat) ∧ d.time.run = true ∧ d.inScope 3 Tests.func = true ∧ (0 : Beat) = d.time.n ∧
     Tests.func.decided = none) := by decide +kernel

theorem witness_FuseBoxLatchesAndReleases_ack :
    (State.reset.dev.isPf (.fn 0) = true ∧ (0x80000003 : Word).getLsbD 31 = true ∧ (0x80000003 : Word).toNat % 1024 = 3) ∧
    ((Tests.fused {} false).src 3).latched = false ∧
    (∀ h ∈ [(0 : BitVec 8), 8], ∀ run : Bool,
      let d := Tests.fused { latched := true, held := h } run
      (d.src 3).latched = true ∧ d.srcLive 3 = false ∧ (d.src 3).held &&& 0x9C = h ∧ d.time.run = run) ∧
    (∀ b : Bool, ({ released := b } : Fuse).released = b) := by decide +kernel

/-- A signed command of owner key 1, for the device of serial number 1 and nonce 0 (R439). -/
def Tests.signed (code : Nat) (body : Bytes) : Bytes :=
  [0x4B, 0x5A, 0x43, 0x4D, BitVec.ofNat 8 code, 1, 1, 0, 1] ++ Tests.zeros 31 ++ leBytes 4 body.length ++ Tests.zeros 20 ++ body ++ Tests.zeros 3732

/-- A device that runs it, with two owner keys. -/
def Tests.runs_ (life : Life) (code : Nat) (body : Bytes) : Dev :=
  { State.reset.dev with
    strong := { life, rngok := true, cmdBusy := true, cmdRun := Tests.signed code body, owner := [(1, { pset := 1 }), (2, { pset := 1 })] } }

/-- The command waits to be run. -/
def Tests.pends (d : Dev) (code : Nat) : Bool := d.strong.cmdBusy && d.strong.rngok && leAt d.strong.cmdRun 4 1 == code

set_option maxRecDepth 20000 in
theorem witness_AttestationAndSignedCommands :
    (State.reset.dev.isPf (.fn 0) = true ∧ (0x80000000 : Word).getLsbD 31 = true ∧ State.reset.dev.strong.attBusy = false ∧
     ∀ run : Bool, ({ run } : TimeUnit).run = run) ∧
    (let g : Strong := { attSnap := some { time := 0, beat := 0, list := [], nonce := 0, first := 0, debugSeen := false }, attBusy := true, rngok := true }
     g.attSnap.isSome = true ∧ g.attBusy = true ∧ g.attWaiting = false ∧ g.rngok = true ∧ g.life ≠ .decommissioned) ∧
    (∀ code ∈ [1, 2, 3, 4, 5, 6, 7], let d : Dev := { State.reset.dev with strong := { rngok := true, cmdBusy := true, cmdRun := [0, 0, 0, 0, BitVec.ofNat 8 code] } }
     Tests.pends d code = true ∧ d.cmdCheck true = 1) ∧
    (∀ p ∈ [(Tests.runs_ .provisioned 5 [2], 5), (Tests.runs_ .provisioned 6 [1, 1], 6), (Tests.runs_ .deployed 7 [1, 1, 0, 0], 7)],
      Tests.pends p.1 p.2 = true ∧ p.1.cmdCheck true = 0) := by decide +kernel

set_option maxRecDepth 20000 in
theorem witness_DeviceLifeTamperAndSram :
    (∀ p ∈ [(Tests.runs_ .blank 1 (1 :: Tests.zeros 132), 1), (Tests.runs_ .provisioned 2 [], 2), (Tests.runs_ .deployed 3 [], 3),
            (Tests.runs_ .provisioned 4 [], 4)],
      Tests.pends p.1 p.2 = true ∧ p.1.cmdCheck true = 0) ∧
    (let g : Strong := { life := .deployed, dbg := { unlocked := true, refused := 2 } }
     g.dbg.unlocked = true ∧ g.life = .deployed ∧ g.dbg.refused = 2) ∧
    (({ life := .returned } : Strong).life = .returned ∧ ({ life := .returned } : Strong).dbg.refused ≠ 2 ∧ ({} : Strong).rngok ≠ true) ∧
    (State.reset.dev.isPf (.fn 0) = true ∧ State.reset.dev.power.cold = false ∧ State.reset.dev.onlyBlock = none ∧
     (State.reset.dev.req (.fn 0)).wrTag ≠ some 0xE000C4) ∧
    (let d : Dev := { State.reset.dev with hub := { reqs := [(reqKey (.fn 0), { wrTag := some 0xE000C4 })] } }
     (d.req (.fn 0)).wrTag = some 0xE000C4) := by decide +kernel

theorem witness_GovernorFollowsItsSensors :
    (State.reset.dev.isPf (.fn 0) = true ∧ ((0x78012C : Word).extractLsb' 0 9).toNat = 300 ∧ ((0x78012C : Word).extractLsb' 16 9).toNat = 120 ∧
     State.reset.dev.power.ceil = 300 ∧ State.reset.dev.power.hubres = 120 ∧ ¬ (150 ≤ ((0 : Word).extractLsb' 0 9).toNat)) ∧
    (∀ above ∈ [0, 8, 9], ∀ b : Bool, let p : Power := { above, ceilOver := b }
     (10 * p.ceil.toNat < (3001 : BitVec 16).toNat ∧ (3000 : BitVec 16).toNat ≤ 10 * p.ceil.toNat) ∧ (p.above < 9 ∨ above = 9 ∧ 9 ≤ p.above) ∧
     p.ceilOver = b) ∧
    (let d : Dev := { State.reset.dev with now := 100000 * ns }
     Tbl.get false d.power.vfault 3 = false ∧ Tbl.get 0 d.power.lastVstep 3 + 100000 * ns ≤ d.now ∧ 700 ≤ (d.power.setpoint 3).toNat ∧
     (d.power.setpoint 3).toNat ≤ 850) ∧
    Tbl.get false ({ vfault := [(3, true)] } : Power).vfault 3 = true := by decide +kernel

/-- A reading of 847 mV agrees with the step from 850 mV, whatever voltage the governor wants. -/
theorem witness_GovernorFollowsItsSensors_step (n : Nat) :
    let asked := max 700 (min 850 (Config.vcore n))
    let want := if 850 < asked then min asked (850 + 5) else max asked (850 - 5)
    (847 : BitVec 16).toNat ≤ want + 20 ∧ want ≤ (847 : BitVec 16).toNat + 20 := by
  simp only [show (847 : BitVec 16).toNat = 847 from rfl]
  generalize Config.vcore n = a
  split <;> omega

/-- A device at a stage of start-up. -/
def Tests.stage (stage : BitVec 4) : Dev := { State.reset.dev with power := { stage, cold := false } }

theorem witness_ResetsAndStartUp_rails :
    (∀ r ∈ [Rail.vhub, .vlane, .vccio 7], r ∉ ({} : Power).railsOut) ∧
    (tamperRail .vhub = true ∧ tamperRail .vlane = false ∧ isVccio .vlane = false ∧ tamperRail (.vccio 7) = false ∧ isVccio (.vccio 7) = true) ∧
    (({} : Power).cold = true ∧ (Tests.stage 5).power.cold = false ∧ (Tests.stage 5).power.stage < 6 ∧ 6 ≤ (Tests.stage 6).power.stage) ∧
    (Rail.vlane ∈ ({ railsOut := [.vlane] } : Power).railsOut) := by decide +kernel

theorem witness_ResetsAndStartUp_stages :
    (∀ k ∈ [(0 : BitVec 4), 1, 2, 3, 4, 5, 6, 7], (Tests.stage k).power.stage = k ∧ (Tests.stage k).power.cold = false ∧ (Tests.stage k).power.bootsrc ≠ 2 ∧
      (Tests.stage k).strong.life ≠ .decommissioned ∧ (Tests.stage k).power.warmPin = true ∧ (∀ n < 4, ((Tests.stage k).stream n).en = false)) ∧
    (let d : Dev := { Tests.stage 2 with strong := { rngok := true } }
     d.strong.rngok = true) ∧
    (({} : Cellar).clearing = false ∧ ({ startup := false } : Cellar).startup = false) ∧
    (let t : TimeUnit := { lockedOnce := true }
     t.lockedOnce = true ∧ t.src ≠ 3 ∧ t.run = false ∧ State.reset.dev.record.writes = [] ∧ ({ freestart := true } : FwRecord).freestart = true) ∧
    (∀ run : Bool, let d : Dev := { Tests.stage 6 with time := { run } }
     d.power.stage = 6 ∧ d.power.warmPin = true ∧ d.time.run = run ∧ (d.funcs.map (·.id)).Nodup ∧ d.cellar.wb = []) ∧
    (∀ run : Bool, let d : Dev := { Tests.stage 7 with power := { stage := 7, cold := false, warmFrom := some 0 }, time := { run } }
     d.power.stage = 7 ∧ d.power.warmPin = true ∧ d.halted = true ∧ d.time.run = run) := by decide +kernel

/-- A device that boots over PCIe, with the firmware bytes it has. -/
def Tests.boots (firmware : Staging) : Dev :=
  { State.reset.dev with power := { stage := 1, bootsrc := 2, cold := false }, loader := { firmware } }

set_option maxRecDepth 20000 in
theorem witness_ResetsAndStartUp_boot :
    ((Tests.stage 2).power.stage ≠ 1 ∧ (Tests.stage 1).power.bootsrc ≠ 2) ∧
    (∀ f ∈ [({} : Staging), Tests.checked 3 1], (Tests.boots f).power.stage = 1 ∧ (Tests.boots f).power.bootsrc = 2 ∧ (Tests.boots f).isPf (.fn 0) = true) ∧
    (let d := Tests.boots {}
     let s0 : Staging := { phase := .receiving }
     (d.stageFeed 0 s0 (d.bootChunk s0)).2 = some { status := 0x22, detail := 1, frame := headFrame }) ∧
    (let d := Tests.boots (Tests.checked 3 1)
     let fed := d.stageFeed 0 (Tests.checked 3 1) (d.bootChunk (Tests.checked 3 1))
     (Tests.checked 3 1).phase = .receiving ∧ fed.2 = none ∧ fed.1.kind = 3 ∧ fed.1.frames ≠ imgFcount fed.1.head) ∧
    (let d := Tests.boots (Tests.checked 3 0)
     let fed := d.stageFeed 0 (Tests.checked 3 0) (d.bootChunk (Tests.checked 3 0))
     fed.2 = none ∧ fed.1.kind = 3 ∧ fed.1.checked = 2 ∧ fed.1.frames = imgFcount fed.1.head) := by decide +kernel

theorem witness_ResetsAndStartUp_tap :
    Rail.vaux ∉ ({} : Power).railsOut ∧ tapDrives .highz = true ∧ ({ porst := false } : Power).porst = false ∧ State.reset.dev.power.porst = true ∧
    tapOf 0x01 ≠ .other 0x01 ∧ tapOf 0x03 = .other 0x03 ∧
    State.reset.dev.debugLocked none = false ∧
    (let d : Dev := { State.reset.dev with strong := { life := .returned } }
     d.debugLocked none = true ∧ d.strong.life = .returned ∧ d.strong.dbg.refused ≠ 2) := by decide +kernel

/-- A device whose PF has a latch and two indirect pairs. -/
def Tests.latched (rdTag : Option Nat) (xa : Word) : Dev :=
  { State.reset.dev with hub := { reqs := [(reqKey (.fn 0), { rdTag, room := { xa }, lane := { xa } })] } }

/-- A device whose stair ring 15 is down in both directions. -/
def Tests.cut : Dev :=
  { State.reset.dev with net := { links := (List.range 32).foldl (fun t k =>
      Tbl.set {} (Tbl.set {} t (linkDirKey ⟨31, BitVec.ofNat 5 k, false⟩) { down := true }) (linkDirKey ⟨31, BitVec.ofNat 5 k, true⟩) { down := true }) [] } }

theorem witness_RegistersAreReadAndWritten_direct :
    ((7 : BitVec 4) ≠ 0xF ∧ State.reset.dev.locate (.fn 0) (0x1200000 / 4 * 4) = .absent) ∧
    (let d : Dev := { State.reset.dev with hub := { decode := true } }
     d.locate (.fn 0) (0x1200000 / 4 * 4) = .refused) ∧
    (State.reset.dev.locate (.fn 0) 0x108 = .reg 0 0x108 ∧ isLow 0 0x108 = true) ∧
    (State.reset.dev.locate (.fn 0) 0x10C = .reg 0 0x10C ∧ isLow 0 0x10C = false ∧ isLow 0 (0x10C - 4) = true ∧
     ((Tests.latched (some 0x108) 0).req (.fn 0)).rdTag = some (0x10C - 4) ∧ ((Tests.latched none 0).req (.fn 0)).rdTag ≠ some (0x10C - 4)) ∧
    (State.reset.dev.locate (.fn 0) 0xE000C4 = .reg 0xE 0xC4 ∧ isHeldLow 0xE 0xC4 = true) ∧
    (State.reset.dev.isPf (.fn 0) = true ∧ State.reset.dev.power.cold = false ∧ State.reset.dev.onlyBlock = none) ∧
    (let d : Dev := { State.reset.dev with rings := { pairs := [(511, { owner := 63 })] } }
     d.isPf (.fn 63) = false ∧ d.vfPair (.fn 63) 0 = some 511) := by decide +kernel

theorem witness_RegistersAreReadAndWritten_indirect :
    (State.reset.dev.xdAllowed (.fn 63) true = false ∧ ∀ lane : Bool, State.reset.dev.xdAllowed (.fn 0) lane = true) ∧
    (∀ lane : Bool, (((Tests.latched none 0xFF00).req (.fn 0)).pair lane).xa.toNat % 65536 = 0xFF00 ∧
      (((Tests.latched none 0xFF08).req (.fn 0)).pair lane).xa.toNat % 65536 = 0xFF08 ∧
      (((Tests.latched none 0xFF40).req (.fn 0)).pair lane).xa.toNat % 65536 = 0xFF40) ∧
    (let x := (Tests.latched (some (2 ^ 32 + 255 * 256 + 8)) 0xFF54).req (.fn 0)
     (x.pair false).xa.toNat % 65536 = 0xFF54 ∧ 0xFF54 % 256 % 0x48 = 0xC ∧ 0xFF54 / 256 = 255 ∧ x.rdTag = some (2 ^ 32 + 255 * 256 + 8)) ∧
    ((Tests.latched none 0xFF40).roomVisible (.fn 0) 255 = true ∧ (Tests.latched none 0xFF40).roomDisabled 255 = false ∧
     (Tests.latched none 0xFF40).roomCut 255 = false ∧
     Tests.cut.roomCut 255 = true) ∧
    (0xFF00 % 256 % 0x48 = 0 ∧ 0xFF08 % 256 % 0x48 = 8 ∧ 0xFF40 % 256 % 0x48 = 0x40) := by decide +kernel

theorem witness_RegistersAreReadAndWritten_jtag :
    (let d := Tests.withCellar (Tests.cellar false 0)
     d.debugLocked (some 0) = false ∧ d.cellar.unread = [] ∧ (0xFFF : BitVec 34).toNat < 0x3F0000000 ∧
     (let e : LineEcc := { uncorrectable := true, word := 15 }
      e.uncorrectable = true ∧ (0xFFF : BitVec 34).toNat / 8 = 16 * ((0xFFF : BitVec 34).toNat / 128) + e.word.toNat) ∧
     (0xFFF : BitVec 34).toNat < 0x380000000 ∧ d.cellar.rawOk ((0xFFF : BitVec 34).toNat / 128) = true ∧
     d.cellar.rawOk (0x1000 / 128) = false ∧ 0x380000000 ≤ (0x380000000 : BitVec 34).toNat) ∧
    (let d : Dev := { State.reset.dev with strong := { life := .deployed } }
     d.debugLocked (some 0) = true ∧ d.strong.life = .deployed ∧ d.strong.dbg.refused ≠ 2) := by decide +kernel

-- invariants and fuses

theorem witness_EveryStepKeepsCanonicalForms :
    MemCanon (Tests.withCellar (Tests.cellar false 2)) ∧ State.reset.dev.rings.windowsOk ∧
    ∃ t, step { dev := Tests.withCellar (Tests.cellar false 2), pending := [] } = .next t :=
  ⟨⟨by decide, ⟨by decide, by decide, by decide⟩, by decide⟩, ⟨rfl, fun p hp => by cases hp⟩, ⟨_, rfl⟩⟩

theorem witness_FusesNeverGoBack : ∃ t, step { dev := Tests.runs_ .deployed 3 [], pending := [.return_ true] } = .next t := ⟨_, rfl⟩

theorem witness_RefusedAdmissionsLeaveNoTrace :
    Tests.Runs (Tests.staged []) Tests.admission (some []) ∧ (∃ n, Tests.result [] = .error n) ∧
    ({ Tests.ask 0 with obj := parseObj [] } : Ask).unanswered = [] :=
  witness_OperationsWaitForTheirBoundary_admit.1

/-- A device that runs RETURN, with every cycle fuse blown. -/
def Tests.worn : Dev := { Tests.runs_ .deployed 3 [] with strong := { (Tests.runs_ .deployed 3 []).strong with cycles := 16 } }

set_option maxRecDepth 20000 in
theorem witness_ReturnsAreCounted :
    (Tests.pends (Tests.runs_ .deployed 3 []) 3 = true ∧ (Tests.runs_ .deployed 3 []).cmdCheck true = 0) ∧
    (Tests.pends Tests.worn 3 = true ∧ 16 ≤ Tests.worn.strong.cycles.toNat ∧ Tests.worn.strong.life = .deployed) := by decide +kernel

theorem witness_ReturnsAreCounted_next : ∃ t, exec (.return_ true) { dev := Tests.worn, pending := [] } = .next t := ⟨_, rfl⟩

-- worked examples of the spec

/-- 05_corridors_and_stairs.md, "two routes": 16 words from room 0x5A to room 0xC3 take 14 hops, 2 crossings and 50 steps. -/
theorem test_route_between_rooms :
    (fixedWay (.room 0x5A) (.room 0xC3)).length = 14 ∧ ((fixedWay (.room 0x5A) (.room 0xC3)).map crossings).sum = 2 ∧
    packetTime (fixedWay (.room 0x5A) (.room 0xC3)) 16 = 50 := by decide +kernel

/-- The same example's vote of room 0xF5: one hop over the wrap link of stair 5, and 21 steps. -/
theorem test_route_over_a_dateline :
    (fixedWay (.room 0xF5) (.hub 0)).length = 1 ∧ packetTime (fixedWay (.room 0xF5) (.hub 0)) 1 = 21 := by decide +kernel

/-- 07_media_ports.md, "the up-converter's feed and drain": peaks of 5 and 19 groups per beat of 2,048 ns. -/
theorem test_peak_groups :
    peakOf { fmt := 1, samp := 1, b := 10, width := 1920, height := 1080, rate := 6 } 2048 = 5 ∧
    peakOf { fmt := 1, samp := 1, b := 10, width := 3840, height := 2160, rate := 6 } 2048 = 19 := by decide +kernel

end
end

section
/-! Register accesses (16_registers.md R444 to R457; 06_cellar.md R185): what a requester's banked registers, the decode and the commands of the
register interface do, and from it the statement about register accesses. -/

namespace Sys2Proof.Machine
open Sys2Proof

-- what a command leaves

/-- What `Keep` says of the device's parts is the frame that `Completes` asks for. -/
theorem Keep.only {ps : List Part} {e d : Dev} (h : Keep ps e d) : Only ps e d
  | .now, hp => h.now.resolve_left hp
  | .free, hp => h.free.resolve_left hp
  | .out, hp => h.out.resolve_left hp
  | .events, hp => h.events.resolve_left hp
  | .ident, hp => h.ident.resolve_left hp
  | .flash, hp => h.flash.resolve_left hp
  | .rooms, hp => h.rooms.resolve_left hp
  | .funcs, hp => h.funcs.resolve_left hp
  | .net, hp => h.net.resolve_left hp
  | .cellar, hp => h.cellar.resolve_left hp
  | .media, hp => h.media.resolve_left hp
  | .time, hp => h.time.resolve_left hp
  | .link, hp => h.link.resolve_left hp
  | .fabric, hp => h.fabric.resolve_left hp
  | .loader, hp => h.loader.resolve_left hp
  | .rings, hp => h.rings.resolve_left hp
  | .cores, hp => h.cores.resolve_left hp
  | .sched, hp => h.sched.resolve_left hp
  | .record, hp => h.record.resolve_left hp
  | .fwres, hp => h.fwres.resolve_left hp
  | .acq, hp => h.acq.resolve_left hp
  | .fuse, hp => h.fuse.resolve_left hp
  | .strong, hp => h.strong.resolve_left hp
  | .hub, hp => h.hub.resolve_left hp
  | .power, hp => h.power.resolve_left hp
  | .tap, hp => h.tap.resolve_left hp

theorem completes_imp {c : Instr} {s : State} {ps : List Part} {Q Q' : Dev → Prop} (h : Completes c s ps Q) (hi : ∀ d, Q d → Q' d) :
    Completes c s ps Q' := by
  obtain ⟨d, he, ho, hq⟩ := h
  exact ⟨d, he, ho, hi d hq⟩

-- a requester's banked registers

theorem Dev.req_modReq_same (d : Dev) (q : Requester) (f : ReqState → ReqState) : (d.modReq q f).req q = f (d.req q) :=
  Tbl.get_set_same _ _ _ _

theorem Dev.req_modReq_other {q y : Requester} (d : Dev) (f : ReqState → ReqState) (h : reqKey y ≠ reqKey q) : (d.modReq q f).req y = d.req y :=
  Tbl.get_set_other _ _ _ _ _ h

theorem Dev.req_answer (d : Dev) (q : Requester) (v : Option Word) (y : Requester) : (d.answer q v).req y = d.req y := by
  cases v <;> rfl

/-- The output of a read: its word, or the bus error in its place. -/
def readOutput (q : Requester) : Option Word → Output
  | some v => .read q v
  | none => .readAbort q

theorem Dev.answer_eq_emit (d : Dev) (q : Requester) (v : Option Word) : d.answer q v = d.emit (readOutput q v) := by
  cases v <;> rfl

theorem Dev.readOutput_xdLost (d : Dev) (q : Requester) :
    readOutput q d.xdLost = if d.hub.decode = true then .readAbort q else .read q 0xFFFFFFFF := by
  unfold Dev.xdLost
  split <;> rfl

/-- The requester's banked registers have changed by `f`, and no other requester's. -/
def ReqMoved (q : Requester) (f : ReqState → ReqState) (d e : Dev) : Prop :=
  e.req q = f (d.req q) ∧ ∀ y, reqKey y ≠ reqKey q → e.req y = d.req y

theorem Dev.modReq_moved (d : Dev) (q : Requester) (f : ReqState → ReqState) : ReqMoved q f d (d.modReq q f) :=
  ⟨d.req_modReq_same q f, fun _ hy => d.req_modReq_other f hy⟩

/-- The requester's pair has changed by `f`, and no other requester's banked registers. -/
def PairMoved (q : Requester) (lane : Bool) (f : Pair → Pair) (d e : Dev) : Prop :=
  (e.req q).pair lane = f ((d.req q).pair lane) ∧ ∀ y, reqKey y ≠ reqKey q → e.req y = d.req y

theorem ReqMoved.pair {q : Requester} {f : ReqState → ReqState} {g : Pair → Pair} {d e : Dev} (h : ReqMoved q f d e) (lane : Bool)
    (hf : (f (d.req q)).pair lane = g ((d.req q).pair lane)) : PairMoved q lane g d e :=
  ⟨h.1 ▸ hf, h.2⟩

theorem PairMoved.modPair {q : Requester} {lane : Bool} {d e : Dev} (h : PairMoved q lane id d e) (f : Pair → Pair) :
    PairMoved q lane f d (e.modPair q lane f) := by
  obtain ⟨hp, ho⟩ := h
  refine ⟨?_, fun y hy => (e.req_modReq_other _ hy).trans (ho y hy)⟩
  rw [← id_eq ((d.req q).pair lane), ← hp, Dev.modPair, Dev.req_modReq_same]
  cases lane <;> rfl

/-- The messages of a register access over the network change the network alone. -/
theorem Dev.carryReg_eq_putNet (d : Dev) (r : RoomId) (w : Bool) (a : Nat) (v : Word) : ∃ n, d.carryReg r w a v = d.putNet n := ⟨_, rfl⟩

theorem Dev.req_carryReg (d : Dev) (r : RoomId) (w : Bool) (a : Nat) (v : Word) (y : Requester) : (d.carryReg r w a v).req y = d.req y := by
  obtain ⟨n, hn⟩ := d.carryReg_eq_putNet r w a v
  rw [hn]; rfl

theorem Dev.room_carryReg (d : Dev) (r : RoomId) (w : Bool) (a : Nat) (v : Word) (y : RoomId) : (d.carryReg r w a v).room y = d.room y := by
  obtain ⟨n, hn⟩ := d.carryReg_eq_putNet r w a v
  rw [hn]; rfl

theorem Dev.out_carryReg (d : Dev) (r : RoomId) (w : Bool) (a : Nat) (v : Word) : (d.carryReg r w a v).out = d.out := by
  obtain ⟨n, hn⟩ := d.carryReg_eq_putNet r w a v
  rw [hn]; rfl

theorem PairMoved.carryReg {q : Requester} {lane : Bool} {f : Pair → Pair} {d e : Dev} (h : PairMoved q lane f d e) (r : RoomId) (w : Bool) (a : Nat)
    (v : Word) : PairMoved q lane f d (e.carryReg r w a v) := by
  simp only [PairMoved, Dev.req_carryReg]
  exact h

theorem Dev.net_carryReg_of_net {d e : Dev} (h : e.net = d.net) (r : RoomId) (w : Bool) (a : Nat) (v : Word) :
    (e.carryReg r w a v).net = (d.carryReg r w a v).net := by
  unfold Dev.carryReg
  rw [h]
  rfl

theorem Dev.room_modPair (d : Dev) (q : Requester) (lane : Bool) (f : Pair → Pair) (r : RoomId) : (d.modPair q lane f).room r = d.room r := rfl
theorem Dev.out_modPair (d : Dev) (q : Requester) (lane : Bool) (f : Pair → Pair) : (d.modPair q lane f).out = d.out := rfl
theorem Dev.net_modPair (d : Dev) (q : Requester) (lane : Bool) (f : Pair → Pair) : (d.modPair q lane f).net = d.net := rfl

theorem Dev.net_answer (d : Dev) (q : Requester) (v : Option Word) : (d.answer q v).net = d.net := by
  cases v <;> rfl

theorem Dev.rdTag_modPair (d : Dev) (q : Requester) (lane : Bool) (f : Pair → Pair) : ((d.modPair q lane f).req q).rdTag = (d.req q).rdTag := by
  rw [Dev.modPair, Dev.req_modReq_same]
  cases lane <;> rfl

theorem Dev.rdVal_modPair (d : Dev) (q : Requester) (lane : Bool) (f : Pair → Pair) : ((d.modPair q lane f).req q).rdVal = (d.req q).rdVal := by
  rw [Dev.modPair, Dev.req_modReq_same]
  cases lane <;> rfl

theorem Dev.modPair_moved (d : Dev) (q : Requester) (lane : Bool) (f : Pair → Pair) : PairMoved q lane f d (d.modPair q lane f) :=
  PairMoved.modPair ⟨rfl, fun _ _ => rfl⟩ f

/-- XA's upper half stands, and its lower half advances by STRIDE (R455). -/
theorem Pair.after_eq (p : Pair) (err : Bool) :
    p.after err = { p with xa := p.xa.extractLsb' 16 16 ++ (p.xa.setWidth 16 + p.stride.setWidth 16), err } := by
  have hx : BitVec.ofNat 32 (p.xa.toNat / 65536 * 65536 + (p.xa.toNat + p.stride.toNat) % 65536)
      = p.xa.extractLsb' 16 16 ++ (p.xa.setWidth 16 + p.stride.setWidth 16) := by
    apply BitVec.eq_of_toNat_eq
    rw [BitVec.toNat_append, ← Nat.shiftLeft_add_eq_or_of_lt (BitVec.isLt _)]
    simp only [BitVec.toNat_ofNat, BitVec.extractLsb'_toNat, BitVec.toNat_add, BitVec.toNat_setWidth, Nat.shiftLeft_eq, Nat.shiftRight_eq_div_pow]
    omega
  unfold Pair.after
  rw [hx]

/-- The upper half of a 16-bit XA names the unit. -/
theorem fld_unit {a : Nat} (h : a < 65536) : fld a 8 8 = a / 256 := by
  simp only [fld, Nat.shiftRight_eq_div_pow]
  omega

theorem get_clearBits (t : Tbl Cnt) (w n i : Nat) :
    Tbl.get {} (clearBits t w n) i = if i < n ∧ w.testBit i = true then {} else Tbl.get {} t i := by
  induction n with
  | zero => rfl
  | succ n ih =>
    have hstep : clearBits t w (n + 1) = if bitOf w n then Tbl.erase (clearBits t w n) n else clearBits t w n := by
      unfold clearBits; rw [List.range_succ, List.foldl_append]; rfl
    rw [hstep]
    by_cases hi : i = n
    · subst hi
      split
      · next hb => rw [Tbl.get_erase_same, if_pos ⟨Nat.lt_succ_self i, hb⟩]
      · next hb => rw [ih, if_neg (fun h => Nat.lt_irrefl i h.1), if_neg (fun h => hb h.2)]
    · have hn : Tbl.get ({} : Cnt) (if bitOf w n then Tbl.erase (clearBits t w n) n else clearBits t w n) i = Tbl.get {} (clearBits t w n) i := by
        split
        · exact Tbl.get_erase_other _ _ _ _ hi
        · rfl
      rw [hn, ih]
      have : i < n ↔ i < n + 1 := by omega
      simp only [this]

theorem Dev.readRoomReg_mod (d : Dev) (r : RoomId) (off : Nat) : d.readRoomReg r (off % 0x48) = d.readRoomReg r off := by
  unfold Dev.readRoomReg
  simp only [Nat.mod_mod]

theorem Dev.deadWords_clean {d : Dev} {line : Nat} (h : ∀ w ∈ d.cellar.unread, w / 16 ≠ line) : d.deadWords line (128 * line) 128 = d := by
  have hf : d.cellar.unread.filter (wordIn (128 * line) 128) = [] := by
    rw [List.filter_eq_nil_iff]
    intro w hw
    have := h w hw
    rw [wordIn, decide_eq_true_iff]
    omega
  unfold Dev.deadWords
  rw [hf]
  rfl

theorem Dev.rowEcc_good (d : Dev) (pr : Nat × Nat) : d.rowEcc pr 0 none = d := by
  obtain ⟨pc, row⟩ := pr
  exact (if_neg fun h => h.2 rfl).trans (if_pos rfl)

theorem Dev.each_power {α : Type} {f : Dev → α → Dev} (hf : ∀ d a, (f d a).power = d.power) (d : Dev) (l : List α) : (d.each l f).power = d.power := by
  unfold Dev.each
  induction l generalizing d with
  | nil => rfl
  | cons a l ih => exact (ih (f d a)).trans (hf d a)

theorem Dev.writeRoomPg_roomOff (d : Dev) (off : Bool) : (d.writeRoomPg off).power.roomOff = off := by
  unfold Dev.writeRoomPg
  split
  · next h => exact h.symm
  · dsimp only
    rw [Dev.each_power fun e r => by split <;> rfl]
    rfl

-- reads and writes of a block's words

theorem Dev.latchRead_low (d : Dev) (q : Requester) (tag : Nat) (high : Bool) (live : Nat → Word) :
    d.latchRead q tag true high live = (d.modReq q fun x => { x with rdTag := some tag, rdVal := live (tag + 4) }, live tag) := rfl

theorem Dev.latchRead_high {d : Dev} {q : Requester} {tag : Nat} (live : Nat → Word) (h : (d.req q).rdTag = some (tag - 4)) :
    d.latchRead q tag false true live = (d.modReq q fun x => { x with rdTag := none, rdVal := 0 }, (d.req q).rdVal) := by
  unfold Dev.latchRead
  rw [if_neg Bool.false_ne_true, if_pos ⟨rfl, h⟩]

theorem Dev.latchRead_plain {d : Dev} {q : Requester} {tag : Nat} {high : Bool} (live : Nat → Word)
    (h : high = false ∨ (d.req q).rdTag ≠ some (tag - 4)) : d.latchRead q tag false high live = (d, live tag) := by
  unfold Dev.latchRead
  rw [if_neg Bool.false_ne_true, if_neg fun hc => h.elim (fun hf => Bool.false_ne_true (hf.symm.trans hc.1)) fun hn => hn hc.2]

theorem Dev.readAt_word {b off : Nat} (d : Dev) (q : Requester) (h8 : b ≠ 0x8) (hB : b ≠ 0xB) (ht : ¬ (b = 4 ∧ 0x10 ≤ off ∧ off < 0x20))
    (hF : b ≠ 0xF) : d.readAt q b off = answered (d.latchRead q (b * 2 ^ 20 + off) (isLow b off) (decide (4 ≤ off) && isLow b (off - 4))
      fun t => (d.readBlock q b (t - b * 2 ^ 20)).getD 0) := by
  unfold Dev.readAt
  rw [if_neg (fun h => h.elim hB h8), if_neg ht, if_neg (fun h => hF h.1)]

theorem Dev.regRead_reg {d : Dev} {q : Requester} {addr b off : Nat} (h : d.locate q addr = .reg b off) : d.regRead q addr = d.readAt q b off := by
  unfold Dev.regRead; rw [h]

theorem Dev.regRead_absent {d : Dev} {q : Requester} {addr : Nat} (h : d.locate q addr = .absent) : d.regRead q addr = (d, some 0) := by
  unfold Dev.regRead; rw [h]

theorem Dev.regRead_refused {d : Dev} {q : Requester} {addr : Nat} (h : d.locate q addr = .refused) :
    d.regRead q addr = (d.refuseAccess q addr false, none) := by
  unfold Dev.regRead; rw [h]

theorem Dev.regWrite_absent {d : Dev} {q : Requester} {addr : Nat} (v : Word) (h : d.locate q addr = .absent) : d.regWrite q addr v = d := by
  unfold Dev.regWrite; rw [h]

theorem Dev.regWrite_refused {d : Dev} {q : Requester} {addr : Nat} (v : Word) (h : d.locate q addr = .refused) :
    d.regWrite q addr v = d.refuseAccess q addr true := by
  unfold Dev.regWrite; rw [h]

theorem Dev.regWrite_heldLow {d : Dev} {q : Requester} {addr b off : Nat} (v : Word) (h : d.locate q addr = .reg b off) (hl : isHeldLow b off = true) :
    d.regWrite q addr v = d.modReq q fun x => { x with wrTag := some (b * 2 ^ 20 + off), wrVal := v } := by
  unfold Dev.regWrite
  rw [h]
  exact if_pos hl

/-- A register of 32 bits takes its word at once. -/
theorem Dev.regWrite_word {d : Dev} {q : Requester} {addr b off : Nat} (v : Word) (h : d.locate q addr = .reg b off) (hl : isHeldLow b off = false)
    (hh : (decide (4 ≤ off) && isHeldLow b (off - 4)) = false) : d.regWrite q addr v = d.writeBlock q b off v none := by
  unfold Dev.regWrite
  rw [h]
  show d.writeAt q b off v = _
  unfold Dev.writeAt Dev.latchWrite
  rw [hl, hh]
  rfl

/-- A register that its block's map has is found by the PF view, under either decode (R445, R452, R453). -/
theorem Dev.locate_reg {d : Dev} {q : Requester} {addr : Nat} (hq : d.isPf q = true) (hc : d.power.cold = false) (ho : d.onlyBlock = none) (b off : Nat)
    (ha : addr = b * 2 ^ 20 + off) (hb : b < 0x12) (h16 : off < 65536) (hs : off < blockSize b) (hm : (d.readBlock q b off).isSome = true) :
    d.locate q addr = .reg b off := by
  have hdiv : addr / 2 ^ 20 = b := by omega
  have hmod : addr % 2 ^ 20 = off := by omega
  unfold Dev.locate Dev.locatePf
  simp only [hq, hc, ho, hdiv, hmod, Option.any_none, if_true]
  rw [if_neg (by simp)]
  split
  · exact if_pos ⟨hs, hm⟩
  · rw [if_neg (by omega), Nat.mod_eq_of_lt h16, Nat.mod_eq_of_lt hs]

/-- A place of block `b` that takes 32 bits at once, within the decoded size of the block. -/
def isPlain (b off : Nat) : Bool :=
  decide (b < 0x12 ∧ off < 65536 ∧ off < blockSize b) && !isHeldLow b off && !(decide (4 ≤ off) && isHeldLow b (off - 4))

theorem Dev.regWrite_plain {d : Dev} {q : Requester} {addr : Nat} (v : Word) (hq : d.isPf q = true) (hc : d.power.cold = false) (ho : d.onlyBlock = none)
    (b off : Nat) (ha : addr = b * 2 ^ 20 + off) (hp : isPlain b off = true) (hm : (d.readBlock q b off).isSome = true) :
    d.regWrite q addr v = d.writeBlock q b off v none := by
  simp only [isPlain, Bool.and_eq_true, decide_eq_true_eq, Bool.not_eq_true'] at hp
  obtain ⟨⟨⟨hb, h16, hs⟩, hl⟩, hh⟩ := hp
  exact Dev.regWrite_word v (Dev.locate_reg hq hc ho b off ha hb h16 hs hm) hl hh

theorem Dev.writePair_xa (d : Dev) (q : Requester) (lane : Bool) (v : Word) :
    d.writePair q lane 0 v = d.modPair q lane fun p => { p with xa := (v.setWidth 16).setWidth 32 } := by
  have hx : BitVec.ofNat 32 (v.toNat % 65536) = (v.setWidth 16).setWidth 32 := by
    apply BitVec.eq_of_toNat_eq
    simp
  show (d.modPair q lane fun p => { p with xa := BitVec.ofNat 32 (v.toNat % 65536) }) = _
  rw [hx]

theorem Dev.writeRingsReg_clear {d : Dev} {q : Requester} (v : Word) (lo : Option Word) (hq : d.isPf q = true) :
    d.writeRingsReg q 0x20 v lo = d.putRings { d.rings with cnt := clearBits d.rings.cnt v.toNat 4 } := by
  unfold Dev.writeRingsReg
  rw [hq]
  rfl

/-- Page `i` of a VF's doorbells begins with the SQ_PI of the view's pair `i` (R343, R451). -/
theorem Dev.regWrite_vfDoorbell {d : Dev} {q : Requester} {i : Nat} {k : BitVec 9} (v : Word) (hi : i < 8) (hq : d.isPf q = false) (hc : d.power.cold = false)
    (ho : d.onlyBlock = none) (hk : d.vfPair q i = some k) : d.regWrite q (0x1000 * i) v = d.writeSqPi k v := by
  have hlisted : vfListed (0x1000 * i) = true := by
    unfold vfListed
    exact decide_eq_true ⟨by omega, .inl (by omega)⟩
  have hloc : d.locate q (0x1000 * i) = .vf (0x1000 * i) := by
    unfold Dev.locate Dev.locateVf
    rw [hq, hc, ho, hlisted]
    rfl
  have hlow : (vfLow (0x1000 * i) && decide (0x8100 ≤ 0x1000 * i)) = false := by
    rw [decide_eq_false (by omega), Bool.and_false]
  have hhigh : (vfLow (0x1000 * i - 4) && decide (0x8104 ≤ 0x1000 * i)) = false := by
    rw [decide_eq_false (by omega), Bool.and_false]
  unfold Dev.regWrite
  rw [hloc]
  unfold Dev.latchWrite
  simp only [hlow, hhigh, Bool.false_eq_true, if_false, false_and]
  unfold Dev.writeVf
  rw [if_pos (by omega), show 0x1000 * i / 0x1000 = i by omega, show 0x1000 * i % 0x1000 = 0 by omega, hk]
  rfl

theorem Dev.refuseAccess_hub (d : Dev) (q : Requester) (addr : Nat) (write : Bool) :
    (d.refuseAccess q addr write).hub = { d.hub with
      cnt := bumpAt d.hub.cnt 1, dAddr := BitVec.ofNat 32 addr, dValid := true, dWrite := write, dView := d.viewOf q,
      dSrc := match q with | .fn _ => 0 | .core c => BitVec.ofNat 5 (c.toNat + 1) } := rfl

theorem Dev.refuseAccess_out (d : Dev) (q : Requester) (addr : Nat) (write : Bool) : (d.refuseAccess q addr write).out = d.out :=
  (Dev.refuseAccess_keep (ps := [.hub]) (.refl _ d) (by decide) q addr write).out.resolve_left (by decide)

-- indirect pairs

theorem Dev.xdFail_out (d : Dev) (q : Requester) (lane : Bool) : (d.xdFail q lane).out = d.out :=
  (Dev.xdFail_keep (ps := [.hub]) (.refl _ d) (by decide) q lane).out.resolve_left (by decide)

theorem Dev.latchRead_net (d : Dev) (q : Requester) (tag : Nat) (low high : Bool) (live : Nat → Word) :
    (d.latchRead q tag low high live).1.net = d.net := by
  unfold Dev.latchRead
  split
  · rfl
  · split <;> rfl

theorem Dev.latchRead_out (d : Dev) (q : Requester) (tag : Nat) (low high : Bool) (live : Nat → Word) :
    (d.latchRead q tag low high live).1.out = d.out := by
  unfold Dev.latchRead
  split
  · rfl
  · split <;> rfl

/-- A read latch leaves the requester's pairs, and what is banked for other requesters. -/
theorem Dev.latchRead_pairs (d : Dev) (q : Requester) (tag : Nat) (low high : Bool) (live : Nat → Word) (lane : Bool) :
    PairMoved q lane id d (d.latchRead q tag low high live).1 := by
  unfold Dev.latchRead
  split
  · exact (d.modReq_moved q _).pair lane (by cases lane <;> rfl)
  · split
    · exact (d.modReq_moved q _).pair lane (by cases lane <;> rfl)
    · exact ⟨rfl, fun _ _ => rfl⟩

/-- XA[15:0] of a requester's pair. -/
def Dev.xdAddr (d : Dev) (q : Requester) (lane : Bool) : Nat := ((d.req q).pair lane).xa.toNat % 65536

/-- The room that a requester's room pair names. -/
def Dev.xdRoom (d : Dev) (q : Requester) : RoomId := BitVec.ofNat 8 (d.xdAddr q false / 256)

/-- The register that a requester's room pair names, under the offset that its aliases share (R65). -/
def Dev.xdOffset (d : Dev) (q : Requester) : Nat := d.xdAddr q false / 256 * 256 + d.xdAddr q false % 256 % 0x48

/-- What the latch of R448 makes of a read of the room register that XA names. -/
def Dev.xdLatch (d : Dev) (q : Requester) : Dev × Word :=
  d.latchRead q (2 ^ 32 + d.xdOffset q) (d.xdOffset q % 256 == 8) (d.xdOffset q % 256 == 0xC) fun t => d.targetWord q false (t - 2 ^ 32)

theorem Dev.xdRead_cut {d : Dev} {q : Requester} (h : d.roomCut (d.xdRoom q) = true) : d.xdRead q false = (d.xdFail q false, d.xdLost) :=
  if_pos ⟨rfl, h⟩

theorem Dev.xdRead_room {d : Dev} {q : Requester} (h : d.roomCut (d.xdRoom q) = false) :
    d.xdRead q false = (((d.xdLatch q).1.carryReg (d.xdRoom q) false (d.xdAddr q false) (d.xdLatch q).2).modPair q false (·.after false),
      some (d.xdLatch q).2) :=
  if_neg fun hc => by cases h.symm.trans hc.2

theorem Dev.xdRead_lane (d : Dev) (q : Requester) :
    d.xdRead q true = (d.modPair q true (·.after false), some (d.readLaneReg (d.xdAddr q true / 256) (d.xdAddr q true % 256))) := by
  have hu : fld (d.xdAddr q true) 8 8 = d.xdAddr q true / 256 := fld_unit (Nat.mod_lt _ (by decide))
  rw [← hu]
  show _ = (d.modPair q true (·.after false), some (d.targetWord q true (d.xdAddr q true)))
  rw [← Nat.add_sub_cancel_left (n := 2 ^ 33) (m := d.xdAddr q true)]
  rfl

theorem Dev.xdRoom_eq_fld (d : Dev) (q : Requester) : BitVec.ofNat 8 (fld (d.xdAddr q false) 8 8) = d.xdRoom q :=
  congrArg (BitVec.ofNat 8) (fld_unit (Nat.mod_lt _ (by decide)))

theorem Dev.xdWrite_cut {d : Dev} {q : Requester} (v : Word) (h : d.roomCut (d.xdRoom q) = true) : d.xdWrite q false v = d.xdFail q false :=
  if_pos ⟨rfl, (d.xdRoom_eq_fld q).symm ▸ h⟩

theorem Dev.xdWrite_room {d : Dev} {q : Requester} (v : Word) (h : d.roomCut (d.xdRoom q) = false) (hv : d.roomVisible q (d.xdRoom q) = true) :
    d.xdWrite q false v = ((d.writeRoomReg (d.xdRoom q) (d.xdAddr q false % 256) v).carryReg (d.xdRoom q) true (d.xdAddr q false) v).modPair q false
      (·.after false) := by
  rw [← d.xdRoom_eq_fld q] at h hv ⊢
  refine (if_neg fun hc => Bool.false_ne_true (h.symm.trans hc.2)).trans ?_
  show ((if d.roomVisible q (BitVec.ofNat 8 (fld (d.xdAddr q false) 8 8)) = true then _ else _ : Dev).carryReg _ true _ v).modPair q false _ = _
  rw [if_pos hv]
  rfl

theorem Dev.xdOffset_div (d : Dev) (q : Requester) : d.xdOffset q / 256 = d.xdAddr q false / 256 := by
  unfold Dev.xdOffset
  omega

theorem Dev.xdOffset_mod (d : Dev) (q : Requester) : d.xdOffset q % 256 = d.xdAddr q false % 256 % 0x48 := by
  unfold Dev.xdOffset
  omega

/-- The words of the register that XA names: at its offset, and at the next. -/
theorem Dev.targetWord_room (d : Dev) (q : Requester) {k : Nat} (hk : d.xdOffset q % 256 + k < 256) :
    d.targetWord q false (d.xdOffset q + k)
      = if d.roomVisible q (d.xdRoom q) = true then d.readRoomReg (d.xdRoom q) (d.xdOffset q % 256 + k) else 0 := by
  have ha : d.xdAddr q false < 65536 := Nat.mod_lt _ (by decide)
  have hd := d.xdOffset_div q
  have hu : fld (d.xdOffset q + k) 8 8 = d.xdAddr q false / 256 := by
    rw [fld_unit (by omega)]
    omega
  have hm : (d.xdOffset q + k) % 256 = d.xdOffset q % 256 + k := by omega
  unfold Dev.targetWord
  rw [hu, hm]
  rfl

theorem Dev.xdLatch_word {d : Dev} {q : Requester} (h8 : d.xdAddr q false % 256 % 0x48 ≠ 8) (hC : d.xdAddr q false % 256 % 0x48 ≠ 0xC) :
    d.xdLatch q = (d, if d.roomVisible q (d.xdRoom q) = true then d.readRoomReg (d.xdRoom q) (d.xdAddr q false % 256) else 0) := by
  have h0 := d.targetWord_room q (k := 0) (by omega)
  rw [Nat.add_zero, Nat.add_zero] at h0
  unfold Dev.xdLatch
  rw [d.xdOffset_mod q, beq_false_of_ne h8, beq_false_of_ne hC, Dev.latchRead_plain _ (.inl rfl), Nat.add_sub_cancel_left, h0,
    d.xdOffset_mod q, d.readRoomReg_mod]

theorem Dev.xdLatch_low {d : Dev} {q : Requester} (h8 : d.xdAddr q false % 256 % 0x48 = 8) (hv : d.roomVisible q (d.xdRoom q) = true) :
    d.xdLatch q = (d.modReq q fun x => { x with rdTag := some (2 ^ 32 + d.xdAddr q false / 256 * 256 + 8), rdVal := d.readRoomReg (d.xdRoom q) 0xC },
      d.readRoomReg (d.xdRoom q) 8) := by
  have hm := (d.xdOffset_mod q).trans h8
  have h0 := d.targetWord_room q (k := 0) (by omega)
  rw [Nat.add_zero, Nat.add_zero] at h0
  have h4 : d.targetWord q false (d.xdOffset q + 4) = _ := d.targetWord_room q (by omega)
  have htag : 2 ^ 32 + d.xdAddr q false / 256 * 256 + 8 = 2 ^ 32 + d.xdOffset q := by
    have := d.xdOffset_div q
    omega
  unfold Dev.xdLatch
  rw [htag, hm, beq_self_eq_true, Dev.latchRead_low, Nat.add_assoc, Nat.add_sub_cancel_left, Nat.add_sub_cancel_left, h0, h4, hm, if_pos hv, if_pos hv]

theorem Dev.xdLatch_high {d : Dev} {q : Requester} (hC : d.xdAddr q false % 256 % 0x48 = 0xC)
    (ht : (d.req q).rdTag = some (2 ^ 32 + d.xdAddr q false / 256 * 256 + 8)) :
    d.xdLatch q = (d.modReq q fun x => { x with rdTag := none, rdVal := 0 }, (d.req q).rdVal) := by
  have hm := (d.xdOffset_mod q).trans hC
  have hd := d.xdOffset_div q
  unfold Dev.xdLatch
  rw [hm]
  refine Dev.latchRead_high _ (ht.trans (congrArg some ?_))
  omega

-- what the commands of the register interface do

/-- XA of the requester's pair has advanced, ERR shows the outcome (R455), and no other requester's registers have changed. -/
def XaAdvanced (q : Requester) (lane err : Bool) (d e : Dev) : Prop :=
  (e.req q).pair lane = { (d.req q).pair lane with
    xa := ((d.req q).pair lane).xa.extractLsb' 16 16 ++ (((d.req q).pair lane).xa.setWidth 16 + ((d.req q).pair lane).stride.setWidth 16), err }
  ∧ ∀ y, reqKey y ≠ reqKey q → e.req y = d.req y

theorem PairMoved.advanced {q : Requester} {lane err : Bool} {d e : Dev} (h : PairMoved q lane (·.after err) d e) : XaAdvanced q lane err d e :=
  ⟨h.1.trans (Pair.after_eq _ _), h.2⟩

theorem PairMoved.answer {q : Requester} {lane : Bool} {f : Pair → Pair} {d e : Dev} (h : PairMoved q lane f d e) (v : Option Word) :
    PairMoved q lane f d (e.answer q v) := by
  rw [Dev.answer_eq_emit]; exact h

theorem exec_registerWrite (q : Requester) (addr : BitVec 26) (v : Word) (be : BitVec 4) (s : State) : exec (.registerWrite q addr v be) s
    = run true (fun d => if be = 0xF then d.regWrite q (addr.toNat / 4 * 4) v else d.countHub 0) s := rfl

theorem exec_counterClear (q : Requester) (addr : BitVec 26) (v : Word) (s : State) : exec (.counterClear q addr v) s
    = run true (fun d => d.regWrite q (addr.toNat / 4 * 4) v) s := rfl

theorem exec_latchedRead (q : Requester) (addr : BitVec 26) (s : State) : exec (.latchedRead q addr) s
    = run true (fun d => (d.regRead q (addr.toNat / 4 * 4)).1.answer q (d.regRead q (addr.toNat / 4 * 4)).2) s := rfl

theorem exec_xdRead (q : Requester) (lane : Bool) (s : State) : exec (.xdRead q lane) s
    = run true (fun d => if d.xdAllowed q lane then (d.xdRead q lane).1.answer q (d.xdRead q lane).2 else d.answer q (some 0)) s := rfl

theorem exec_xdWrite (q : Requester) (lane : Bool) (v : Word) (s : State) : exec (.xdWrite q lane v) s
    = run true (fun d => if d.xdAllowed q lane then d.xdWrite q lane v else d) s := rfl

theorem exec_xdTimeout (q : Requester) (lane write : Bool) (s : State) : exec (.xdTimeout q lane write) s
    = run true (Dev.xdTimeout q lane write) s := rfl

theorem exec_jtagMemoryPortAccess (a : BitVec 34) (x : JtagAccess) (s : State) : exec (.jtagMemoryPortAccess a x) s = run true (Dev.jtagMemory a x) s := rfl

section
variable {s : State} {q : Requester} {ps : List Part} {Q : Dev → Prop} {d : Dev}

theorem completes_of_run {c : Instr} {f : Dev → Dev} (hc : exec c s = run true f s) (hf : f s.dev = d) (hk : Keep ps s.dev d) (hQ : Q d) :
    Completes c s ps Q := ⟨d, hc.trans (hf ▸ rfl), hk.only, hQ⟩

theorem completes_registerWrite {addr : BitVec 26} {v : Word} (hw : s.dev.regWrite q (addr.toNat / 4 * 4) v = d) (hk : Keep ps s.dev d) (hQ : Q d) :
    Completes (.registerWrite q addr v 0xF) s ps Q := completes_of_run (exec_registerWrite ..) ((if_pos rfl).trans hw) hk hQ

theorem completes_registerWrite_masked {addr : BitVec 26} {v : Word} {be : BitVec 4} (hb : be ≠ 0xF) :
    Completes (.registerWrite q addr v be) s [.hub] fun d => d.hub = { s.dev.hub with cnt := bumpAt s.dev.hub.cnt 0 } :=
  completes_of_run (exec_registerWrite ..) (if_neg hb) (Dev.countHub_keep (.refl _ _) (by decide) _) rfl

theorem completes_counterClear {addr : BitVec 26} {v : Word} (hw : s.dev.regWrite q (addr.toNat / 4 * 4) v = d) (hk : Keep ps s.dev d) (hQ : Q d) :
    Completes (.counterClear q addr v) s ps Q := completes_of_run (exec_counterClear ..) hw hk hQ

/-- A read's answer is its one output. -/
theorem sent_answer (v : Option Word) (h : d.out = s.dev.out) : Sys2Proof.Sent s.dev (d.answer q v) (readOutput q v) := by
  rw [Dev.answer_eq_emit]
  exact congrArg (readOutput q v :: ·) h

theorem completes_latchedRead {addr : BitVec 26} {v : Option Word} (hr : s.dev.regRead q (addr.toNat / 4 * 4) = (d, v)) (hk : Keep ps s.dev d)
    (hout : .out ∈ ps) (hQ : Q (d.answer q v)) : Completes (.latchedRead q addr) s ps Q :=
  completes_of_run (exec_latchedRead ..) (by simp only [hr]) (Dev.answer_keep hk hout _ _) hQ

theorem completes_xdRead {lane : Bool} {v : Option Word} (ha : s.dev.xdAllowed q lane = true) (hr : s.dev.xdRead q lane = (d, v)) (hk : Keep ps s.dev d)
    (hout : .out ∈ ps) (hQ : Q (d.answer q v)) : Completes (.xdRead q lane) s ps Q :=
  completes_of_run (exec_xdRead ..) (by simp only [ha, hr, if_true]) (Dev.answer_keep hk hout _ _) hQ

theorem completes_xdWrite {lane : Bool} {v : Word} (ha : s.dev.xdAllowed q lane = true) (hw : s.dev.xdWrite q lane v = d) (hk : Keep ps s.dev d)
    (hQ : Q d) : Completes (.xdWrite q lane v) s ps Q := completes_of_run (exec_xdWrite ..) ((if_pos ha).trans hw) hk hQ

theorem completes_jtag {a : BitVec 34} {x : JtagAccess} (hj : Dev.jtagMemory a x s.dev = d) (hk : Keep ps s.dev d) (hQ : Q d) :
    Completes (.jtagMemoryPortAccess a x) s ps Q := completes_of_run (exec_jtagMemoryPortAccess ..) hj hk hQ

end

-- indirect accesses

section
variable {s : State} {q : Requester}

/-- A view without the pair reads 0 from it, and its other accesses change nothing (R451, R456). -/
theorem completes_xdRead_barred {lane : Bool} (h : s.dev.xdAllowed q lane = false) :
    Completes (.xdRead q lane) s [.out] fun d => Sys2Proof.Sent s.dev d (.read q 0) :=
  completes_of_run (exec_xdRead ..) (if_neg (ne_true_of_eq_false h)) (Dev.answer_keep (.refl _ _) (by decide) _ _) (sent_answer (some 0) rfl)

theorem completes_xdWrite_barred {lane : Bool} (v : Word) (h : s.dev.xdAllowed q lane = false) :
    Completes (.xdWrite q lane v) s [] fun d => d = s.dev :=
  completes_of_run (exec_xdWrite ..) (if_neg (ne_true_of_eq_false h)) (.refl _ _) rfl

theorem completes_xdTimeout_barred {lane : Bool} (w : Bool) (h : s.dev.xdAllowed q lane = false) :
    Completes (.xdTimeout q lane w) s [] fun d => d = s.dev :=
  completes_of_run (exec_xdTimeout ..) (if_pos (by rw [h]; rfl)) (.refl _ _) rfl

/-- An access that no target answers has advanced XA with ERR set, and is counted (R456). -/
theorem Dev.xdFail_advanced (d : Dev) (q : Requester) (lane : Bool) : XaAdvanced q lane true d (d.xdFail q lane) :=
  (PairMoved.modPair (e := d.countHub 2) ⟨rfl, fun _ _ => rfl⟩ _).advanced

theorem XaAdvanced.answer {lane err : Bool} {d e : Dev} (h : XaAdvanced q lane err d e) (v : Option Word) : XaAdvanced q lane err d (e.answer q v) := by
  rw [Dev.answer_eq_emit]; exact h

/-- What a read whose target does not answer leaves. -/
theorem Dev.xdFail_answered (q : Requester) (lane : Bool) : let e := (s.dev.xdFail q lane).answer q s.dev.xdLost
    XaAdvanced q lane true s.dev e ∧ e.hub.cnt = bumpAt s.dev.hub.cnt 2 ∧
      Sys2Proof.Sent s.dev e (if s.dev.hub.decode = true then .readAbort q else .read q 0xFFFFFFFF) := by
  refine ⟨(s.dev.xdFail_advanced q lane).answer _, ?_, ?_⟩
  · rw [Dev.answer_eq_emit]; rfl
  · rw [← s.dev.readOutput_xdLost q]
    exact sent_answer _ (s.dev.xdFail_out q lane)

theorem completes_xdRead_cut (ha : s.dev.xdAllowed q false = true) (hcut : s.dev.roomCut (s.dev.xdRoom q) = true) :
    Completes (.xdRead q false) s [.out, .hub] fun d => XaAdvanced q false true s.dev d ∧ d.hub.cnt = bumpAt s.dev.hub.cnt 2 ∧
      Sys2Proof.Sent s.dev d (if s.dev.hub.decode = true then .readAbort q else .read q 0xFFFFFFFF) :=
  completes_xdRead ha (Dev.xdRead_cut hcut) (Dev.xdFail_keep (.refl _ _) (by decide) _ _) (by decide) (Dev.xdFail_answered q false)

theorem completes_xdWrite_cut (v : Word) (ha : s.dev.xdAllowed q false = true) (hcut : s.dev.roomCut (s.dev.xdRoom q) = true) :
    Completes (.xdWrite q false v) s [.hub] fun d => XaAdvanced q false true s.dev d ∧ d.hub.cnt = bumpAt s.dev.hub.cnt 2 :=
  completes_xdWrite ha (Dev.xdWrite_cut v hcut) (Dev.xdFail_keep (.refl _ _) (by decide) _ _) ⟨s.dev.xdFail_advanced q false, rfl⟩

theorem completes_xdTimeout_write {lane : Bool} (ha : s.dev.xdAllowed q lane = true) :
    Completes (.xdTimeout q lane true) s [.hub] fun d => XaAdvanced q lane true s.dev d ∧ d.hub.cnt = bumpAt s.dev.hub.cnt 2 :=
  completes_of_run (exec_xdTimeout ..) (if_neg (by rw [ha]; exact Bool.false_ne_true)) (Dev.xdFail_keep (.refl _ _) (by decide) _ _)
    ⟨s.dev.xdFail_advanced q lane, rfl⟩

theorem completes_xdTimeout_read {lane : Bool} (ha : s.dev.xdAllowed q lane = true) :
    Completes (.xdTimeout q lane false) s [.out, .hub] fun d => XaAdvanced q lane true s.dev d ∧ d.hub.cnt = bumpAt s.dev.hub.cnt 2 ∧
      Sys2Proof.Sent s.dev d (if s.dev.hub.decode = true then .readAbort q else .read q 0xFFFFFFFF) :=
  completes_of_run (exec_xdTimeout ..) (if_neg (by rw [ha]; exact Bool.false_ne_true))
    (Dev.answer_keep (Dev.xdFail_keep (.refl _ _) (by decide) _ _) (by decide) _ _) (Dev.xdFail_answered q lane)

theorem completes_xdRead_lane (ha : s.dev.xdAllowed q true = true) : Completes (.xdRead q true) s [.out, .net, .hub] fun d =>
    XaAdvanced q true false s.dev d ∧ Sys2Proof.Sent s.dev d (.read q (s.dev.readLaneReg (s.dev.xdAddr q true / 256) (s.dev.xdAddr q true % 256))) ∧
      d.net = s.dev.net :=
  completes_xdRead ha (s.dev.xdRead_lane q) (Dev.modPair_keep (.refl _ _) (by decide) _ _ _) (by decide)
    ⟨(s.dev.modPair_moved q true _).advanced.answer _, sent_answer _ rfl, rfl⟩

/-- A read of a room's register: XA advances, the latch of R448 gives the word, request and response cross the network, and the latch stands. -/
theorem completes_xdRead_room {d : Dev} {v : Word} (ha : s.dev.xdAllowed q false = true) (hcut : s.dev.roomCut (s.dev.xdRoom q) = false)
    (hl : s.dev.xdLatch q = (d, v)) : Completes (.xdRead q false) s [.out, .net, .hub] fun e =>
      XaAdvanced q false false s.dev e ∧ Sys2Proof.Sent s.dev e (.read q v) ∧
        e.net = (s.dev.carryReg (s.dev.xdRoom q) false (s.dev.xdAddr q false) v).net ∧
        (e.req q).rdTag = (d.req q).rdTag ∧ (e.req q).rdVal = (d.req q).rdVal := by
  have hd : d = (s.dev.xdLatch q).1 := by rw [hl]
  have hnet : d.net = s.dev.net := hd ▸ Dev.latchRead_net ..
  have hout : d.out = s.dev.out := hd ▸ Dev.latchRead_out ..
  have hpair : PairMoved q false id s.dev d := hd ▸ Dev.latchRead_pairs ..
  have hkeep : Keep [.out, .net, .hub] s.dev d := hd ▸ Dev.latchRead_keep (.refl _ _) (by decide) _ _ _ _ _
  have hread := Dev.xdRead_room hcut
  rw [hl] at hread
  dsimp only at hread
  refine completes_xdRead ha hread (Dev.modPair_keep (Dev.carryReg_keep hkeep (by decide) _ _ _ _) (by decide) _ _ _) (by decide)
    ⟨((hpair.carryReg _ _ _ _).modPair _).advanced.answer _, sent_answer _ ?_, ?_, ?_, ?_⟩
  · rw [Dev.out_modPair, Dev.out_carryReg, hout]
  · rw [Dev.net_answer, Dev.net_modPair]
    exact Dev.net_carryReg_of_net hnet _ _ _ _
  · rw [Dev.req_answer, Dev.rdTag_modPair, Dev.req_carryReg]
  · rw [Dev.req_answer, Dev.rdVal_modPair, Dev.req_carryReg]

/-- A room after a write of its counter-clear register: the counters that the word names are cleared (R9, R65). -/
def Room.countersCleared (w : Nat) (x : Room) : Room := { x with cnt := clearBits x.cnt w 8, mwrPeak := if bitOf w 8 then 0 else x.mwrPeak }

theorem Dev.writeRoomReg_clear {d : Dev} {r : RoomId} {off : Nat} (v : Word) (hd : d.roomDisabled r = false) (ho : off % 0x48 = 0x40) :
    d.writeRoomReg r off v = d.modRoom r (Room.countersCleared v.toNat) :=
  if_neg fun h => h.elim (ne_true_of_eq_false hd) fun hn => hn ho

theorem Dev.room_modRoom_same (d : Dev) (r : RoomId) (f : Room → Room) : (d.modRoom r f).room r = f (d.room r) := Tbl.get_set_same _ _ _ _

theorem Dev.modRoom_otherRooms (d : Dev) (r : RoomId) (f : Room → Room) : OtherRooms r d (d.modRoom r f) :=
  fun _ hy => Tbl.get_set_other _ _ _ _ _ fun h => hy (BitVec.eq_of_toNat_eq h)

/-- A write of a room's counter-clear register over the network (R9, R65, R456). -/
theorem completes_xdWrite_room (v : Word) (ha : s.dev.xdAllowed q false = true) (hcut : s.dev.roomCut (s.dev.xdRoom q) = false)
    (hv : s.dev.roomVisible q (s.dev.xdRoom q) = true) (hd : s.dev.roomDisabled (s.dev.xdRoom q) = false)
    (ho : s.dev.xdAddr q false % 256 % 0x48 = 0x40) : Completes (.xdWrite q false v) s [.rooms, .net, .hub] fun d =>
      XaAdvanced q false false s.dev d ∧ d.net = (s.dev.carryReg (s.dev.xdRoom q) true (s.dev.xdAddr q false) v).net ∧
        OtherRooms (s.dev.xdRoom q) s.dev d ∧ d.room (s.dev.xdRoom q) = (s.dev.room (s.dev.xdRoom q)).countersCleared v.toNat := by
  have hw := Dev.xdWrite_room v hcut hv
  rw [Dev.writeRoomReg_clear v hd ho] at hw
  have hmoved : PairMoved q false id s.dev (s.dev.modRoom (s.dev.xdRoom q) (Room.countersCleared v.toNat)) := ⟨rfl, fun _ _ => rfl⟩
  refine completes_xdWrite ha hw
    (Dev.modPair_keep (Dev.carryReg_keep (Dev.modRoom_keep (.refl _ _) (by decide) _ _) (by decide) _ _ _ _) (by decide) _ _ _)
    ⟨((hmoved.carryReg _ _ _ _).modPair _).advanced, ?_, fun y hy => ?_, ?_⟩
  · rw [Dev.net_modPair]
    exact Dev.net_carryReg_of_net (s.dev.modRoom_net _ _) _ _ _ _
  · rw [Dev.room_modPair, Dev.room_carryReg]
    exact s.dev.modRoom_otherRooms _ _ y hy
  · rw [Dev.room_modPair, Dev.room_carryReg]
    exact s.dev.room_modRoom_same _ _

end

-- registers of the blocks

section
variable {s : State} {q : Requester}

theorem completes_latchedRead_low {addr : BitVec 26} {b off : Nat} (h : s.dev.regRead q (addr.toNat / 4 * 4)
      = answered (s.dev.latchRead q (b * 2 ^ 20 + off) true (decide (4 ≤ off) && isLow b (off - 4)) fun t => (s.dev.readBlock q b (t - b * 2 ^ 20)).getD 0)) :
    Completes (.latchedRead q addr) s [.out, .hub] fun d => Sys2Proof.Sent s.dev d (.read q ((s.dev.readBlock q b off).getD 0)) ∧
      ReqMoved q (fun x => { x with rdTag := some (b * 2 ^ 20 + off), rdVal := (s.dev.readBlock q b (off + 4)).getD 0 }) s.dev d := by
  rw [Dev.latchRead_low, Nat.add_assoc, Nat.add_sub_cancel_left, Nat.add_sub_cancel_left] at h
  exact completes_latchedRead h (Dev.modReq_keep (.refl _ _) (by decide) _ _) (by decide) ⟨sent_answer _ rfl, s.dev.modReq_moved q _⟩

end

theorem registerWrite_parts (q : Requester) (addr : BitVec 26) (v : Word) (be : BitVec 4) :
    Instr.parts (.registerWrite q addr v be) = Instr.parts (.warmrstN true) := rfl

-- the JTAG memory port

theorem jtagMemoryPortAccess_parts (a : BitVec 34) (x : JtagAccess) : Instr.parts (.jtagMemoryPortAccess a x) = Instr.parts .beatBoundary := rfl

theorem Dev.rawEcc_clean {d : Dev} {line : Nat} (h : ∀ w ∈ d.cellar.unread, w / 16 ≠ line) : d.rawEcc line {} = d := by
  unfold Dev.rawEcc
  rw [Dev.deadWords_clean h]
  exact d.rowEcc_good _

theorem Dev.rawEcc_out (d : Dev) (line : Nat) (e : LineEcc) : (d.rawEcc line e).out = d.out :=
  (Dev.rawEcc_keep (ps := [.events, .cellar]) (.refl _ d) (by decide) (by decide) line e).out.resolve_left (by decide)

theorem Dev.lockedDebugAccess_counted {d : Dev} (hl : d.strong.life = .deployed ∨ d.strong.life = .returned) (h2 : d.strong.dbg.refused ≠ 2) :
    d.lockedDebugAccess = (d.modStrong fun s => { s with dbg := { s.dbg with refused := s.dbg.refused + 1 } }).raise 642 := by
  unfold Dev.lockedDebugAccess
  rw [if_neg (fun h => hl.elim h.1 h.2), if_neg h2]

section
variable {s : State} {a : BitVec 34}

theorem completes_jtag_reserve (e : LineEcc) (hd : s.dev.debugLocked (some 0) = false) (ha : 0x3F0000000 ≤ a.toNat) :
    Completes (.jtagMemoryPortAccess a (.read e)) s [.out] fun d => Sys2Proof.Sent s.dev d (.jtag 0) :=
  completes_jtag ((if_neg (ne_true_of_eq_false hd)).trans (if_pos ha)) (Dev.emit_keep (.refl _ _) (by decide) _) rfl

theorem completes_jtag_stored (hd : s.dev.debugLocked (some 0) = false) (ha : a.toNat < 0x3F0000000)
    (hu : ∀ w ∈ s.dev.cellar.unread, w / 16 ≠ a.toNat / 128) :
    Completes (.jtagMemoryPortAccess a (.read {})) s [.out] fun d => Sys2Proof.Sent s.dev d (.jtag (Memory.read s.dev.cellar.mem a.toNat)) := by
  have hl : a.toNat / 8 ∉ s.dev.cellar.unread := fun hm => hu _ hm (by omega)
  have hj : Dev.jtagMemory a (.read {}) s.dev = s.dev.emit (.jtag (Memory.read s.dev.cellar.mem a.toNat)) := by
    unfold Dev.jtagMemory
    simp only [hd, Bool.false_eq_true, if_false, Nat.not_le.2 ha, Bool.false_and, hl, decide_false, Bool.or_self, Dev.rawEcc_clean hu]
  exact completes_jtag hj (Dev.emit_keep (.refl _ _) (by decide) _) rfl

theorem completes_jtag_lost {e : LineEcc} (hd : s.dev.debugLocked (some 0) = false) (ha : a.toNat < 0x3F0000000)
    (hu : e.uncorrectable = true ∧ a.toNat / 8 = 16 * (a.toNat / 128) + e.word.toNat ∨ a.toNat / 8 ∈ s.dev.cellar.unread) :
    Completes (.jtagMemoryPortAccess a (.read e)) s (Instr.parts (.jtagMemoryPortAccess a (.read e))) fun d =>
      ∃ n, Sys2Proof.Sent s.dev d (.jtag ((Config.ueLine n).setWidth 8)) := by
  have hl : (e.uncorrectable && decide (a.toNat / 8 = 16 * (a.toNat / 128) + e.word.toNat) || decide (a.toNat / 8 ∈ s.dev.cellar.unread)) = true := by
    simpa using hu
  have hj : Dev.jtagMemory a (.read e) s.dev
      = ((s.dev.rawEcc (a.toNat / 128) e).emit (.jtag ((Config.ueLine (s.dev.rawEcc (a.toNat / 128) e).free).setWidth 8))).take 1 := by
    unfold Dev.jtagMemory
    simp only [hd, Bool.false_eq_true, if_false, Nat.not_le.2 ha, hl, if_true]
  rw [jtagMemoryPortAccess_parts]
  exact completes_jtag hj
    (Dev.take_keep (Dev.emit_keep (Dev.rawEcc_keep (.refl _ _) (by decide) (by decide) _ _) (by decide) _) (by decide) _)
    ⟨_, congrArg (_ :: ·) (s.dev.rawEcc_out _ _)⟩

theorem completes_jtag_write (b : Byte) (hd : s.dev.debugLocked (some 0) = false) (ha : a.toNat < 0x380000000)
    (hr : s.dev.cellar.rawOk (a.toNat / 128) = true) :
    Completes (.jtagMemoryPortAccess a (.write b)) s [.cellar] fun d => d.cellar = { s.dev.cellar with mem := Memory.write s.dev.cellar.mem a.toNat b } :=
  completes_jtag ((if_neg (ne_true_of_eq_false hd)).trans (if_pos ⟨ha, hr⟩))
    (Dev.modCellar_keep (.refl _ _) (by decide) _ fun _ hc => Memory.wf_write _ _ _ hc) rfl

theorem completes_jtag_writeRefused (b : Byte) (hd : s.dev.debugLocked (some 0) = false)
    (hr : 0x380000000 ≤ a.toNat ∨ s.dev.cellar.rawOk (a.toNat / 128) = false) :
    Completes (.jtagMemoryPortAccess a (.write b)) s [.out] fun d => Sys2Proof.Sent s.dev d .jtagError :=
  completes_jtag ((if_neg (ne_true_of_eq_false hd)).trans (if_neg fun h => hr.elim (Nat.not_le.2 h.1) fun hf => Bool.false_ne_true (hf.symm.trans h.2)))
    (Dev.emit_keep (.refl _ _) (by decide) _) rfl

theorem completes_jtag_locked (x : JtagAccess) (hd : s.dev.debugLocked (some 0) = true) (hl : s.dev.strong.life = .deployed ∨ s.dev.strong.life = .returned)
    (h2 : s.dev.strong.dbg.refused ≠ 2) : Completes (.jtagMemoryPortAccess a x) s [.out, .events, .strong] fun d =>
      Sys2Proof.Sent s.dev d .jtagError ∧ Raised s.dev d 642 ∧
        d.strong = { s.dev.strong with dbg := { s.dev.strong.dbg with refused := s.dev.strong.dbg.refused + 1 } } := by
  refine completes_jtag ((if_pos hd).trans (congrArg (Dev.emit · .jtagError) (Dev.lockedDebugAccess_counted hl h2)))
    (Dev.emit_keep (Dev.raise_keep (Dev.modStrong_keep (.refl _ _) (by decide) _ ?_) (by decide) _ _) (by decide) _)
    ⟨rfl, ⟨_, rfl, rfl, rfl⟩, rfl⟩
  exact StrongKept.same rfl rfl rfl rfl rfl rfl rfl rfl rfl

end

/-- A byte memory after a store. -/
theorem Memory.read_write (m : Memory) (a y : Nat) (b : Byte) : Memory.read (Memory.write m a b) y = if y = a then b else Memory.read m y := by
  split
  · next h => rw [h, Memory.read_write_same m a b]
  · next h => exact Memory.read_write_other m a y b h

/-- Settles O55: each clause is the command's own lemma, at the place that decode finds. -/
theorem registersAreReadAndWritten : Obligations.RegistersAreReadAndWritten := by
  intro s q h x othersStand
  refine ⟨?_, ?_, ?_, ?_, ?_⟩
  · intro addr v be at_ src recorded
    refine ⟨completes_registerWrite_masked, fun ha => ⟨?_, ?_, ?_⟩, fun hr => ⟨?_, ?_, ?_⟩, ?_⟩
    · exact completes_registerWrite (Dev.regWrite_absent v ha) (.refl _ _) rfl
    · exact completes_counterClear (Dev.regWrite_absent v ha) (.refl _ _) rfl
    · exact completes_latchedRead (Dev.regRead_absent ha) (.refl _ _) (by decide) (sent_answer _ rfl)
    · exact completes_registerWrite (Dev.regWrite_refused v hr) (Dev.refuseAccess_keep (.refl _ _) (by decide) _ _ _) (s.dev.refuseAccess_hub _ _ _)
    · exact completes_counterClear (Dev.regWrite_refused v hr) (Dev.refuseAccess_keep (.refl _ _) (by decide) _ _ _) (s.dev.refuseAccess_hub _ _ _)
    · exact completes_latchedRead (Dev.regRead_refused hr) (Dev.refuseAccess_keep (.refl _ _) (by decide) _ _ _) (by decide)
        ⟨sent_answer _ (s.dev.refuseAccess_out _ _ _), s.dev.refuseAccess_hub _ _ _⟩
    · intro b off hloc h8 hB ht hF tag live high
      have hread := (Dev.regRead_reg hloc).trans (s.dev.readAt_word q h8 hB ht hF)
      refine ⟨fun hl => ?_, fun hl hh htag => ?_, fun hl hh => ?_, fun hl => ?_⟩
      · rw [hl] at hread
        exact completes_latchedRead_low hread
      · rw [hl, show (decide (4 ≤ off) && isLow b (off - 4)) = true from hh, Dev.latchRead_high _ htag] at hread
        exact completes_latchedRead hread (Dev.modReq_keep (.refl _ _) (by decide) _ _) (by decide) ⟨sent_answer _ rfl, s.dev.modReq_moved q _⟩
      · rw [hl, Dev.latchRead_plain _ hh, Nat.add_sub_cancel_left] at hread
        exact completes_latchedRead hread (.refl _ _) (by decide) (sent_answer _ rfl)
      · exact completes_registerWrite (Dev.regWrite_heldLow v hloc hl) (Dev.modReq_keep (.refl _ _) (by decide) _ _) (s.dev.modReq_moved q _)
  · intro hq hc ho clears v
    have hplain := @Dev.regWrite_plain s.dev q
    refine ⟨?_, ?_, ?_, ?_, ?_, ?_⟩
    · exact completes_registerWrite (d := s.dev.putHub { h with decode := v.getLsbD 0 }) (hplain v hq hc ho 0 0x8 rfl rfl rfl)
        (Keep.upd_hub (.refl _ _) (by decide)) rfl
    · exact completes_registerWrite (d := s.dev.putHub { h with arbSel := v.setWidth 16 }) (hplain v hq hc ho 0 0x100 rfl rfl rfl)
        (Keep.upd_hub (.refl _ _) (by decide)) rfl
    · exact completes_registerWrite ((hplain v hq hc ho 0xB 0 rfl rfl rfl).trans (s.dev.writePair_xa q false v))
        (Dev.modPair_keep (.refl _ _) (by decide) _ _ _) (s.dev.modPair_moved q false _)
    · rw [registerWrite_parts]
      exact completes_registerWrite (hplain v hq hc ho 0x11 0x18 rfl rfl rfl)
        (Dev.writeRoomPg_keep (.refl _ _) (by decide) (by decide) _) (s.dev.writeRoomPg_roomOff _)
    · exact completes_counterClear (d := s.dev.putHub { h with cnt := clearBits h.cnt v.toNat 3 }) (hplain v hq hc ho 0 0x5C rfl rfl rfl)
        (Keep.upd_hub (.refl _ _) (by decide)) ⟨rfl, get_clearBits _ _ _⟩
    · exact completes_counterClear ((hplain v hq hc ho 1 0x20 rfl rfl rfl).trans (Dev.writeRingsReg_clear v none hq))
        (Keep.upd_rings (.refl _ _) (by decide) id) ⟨rfl, get_clearBits _ _ _⟩
  · intro i v k hq hc ho hk
    have haddr : (BitVec.ofNat 26 (0x1000 * i)).toNat / 4 * 4 = 0x1000 * i := by
      rw [BitVec.toNat_ofNat, Nat.mod_eq_of_lt (by omega)]
      omega
    exact completes_registerWrite (by rw [haddr, Dev.regWrite_vfDoorbell v i.isLt hq hc ho hk]) (Dev.writeSqPi_keep (.refl _ _) (by decide) _ _) rfl
  · intro lane p a unit r after
    refine ⟨fun hb => ⟨?_, fun v => ⟨?_, fun w => ?_⟩⟩, ?_⟩
    · exact completes_xdRead_barred hb
    · exact completes_xdWrite_barred v hb
    · exact completes_xdTimeout_barred w hb
    intro lost reaches carried reads
    cases lane
    case false =>
      refine ⟨fun ha hn => ?_, fun ha => ⟨fun hw hr => ?_, fun _ hr h8 hv => ?_, fun _ hr hC ht => ?_, fun v _ hr hv hd ho => ?_, ?_, ?_⟩⟩
      · have hcut : s.dev.roomCut (s.dev.xdRoom q) = true := Bool.eq_true_of_not_eq_false fun hf => hn (.inr hf)
        exact ⟨completes_xdRead_cut ha hcut, fun v => completes_xdWrite_cut v ha hcut⟩
      · obtain ⟨h8, hC⟩ := hw.resolve_left Bool.false_ne_true
        exact completes_imp (completes_xdRead_room ha (hr.resolve_left Bool.false_ne_true) (Dev.xdLatch_word h8 hC))
          fun d ⟨hx, hsent, hnet, _⟩ => ⟨hx, hsent, hnet, trivial⟩
      · exact completes_imp (completes_xdRead_room ha (hr.resolve_left Bool.false_ne_true) (Dev.xdLatch_low h8 hv))
          fun d ⟨hx, hsent, hnet, ht, hval⟩ => ⟨hx, hsent, hnet, ht.trans (congrArg ReqState.rdTag (s.dev.req_modReq_same q _)),
            hval.trans (congrArg ReqState.rdVal (s.dev.req_modReq_same q _))⟩
      · exact completes_imp (completes_xdRead_room ha (hr.resolve_left Bool.false_ne_true) (Dev.xdLatch_high hC ht))
          fun d ⟨hx, hsent, hnet, ht, _⟩ => ⟨hx, hsent, hnet, ht.trans (congrArg ReqState.rdTag (s.dev.req_modReq_same q _))⟩
      · refine completes_imp (completes_xdWrite_room v ha (hr.resolve_left Bool.false_ne_true) hv hd ho)
          fun d ⟨hx, hnet, hother, hroom⟩ => ⟨hx, hnet, hother, ?_, fun i => ?_⟩
        · exact hroom.trans (by rw [show d.room r = _ from hroom]; rfl)
        · rw [show d.room r = _ from hroom]
          exact get_clearBits _ _ _ _
      · exact completes_xdTimeout_write ha
      · exact completes_xdTimeout_read ha
    case true =>
      refine ⟨fun _ hn => absurd (.inl rfl) hn, fun ha => ⟨fun _ _ => ?_, nofun, nofun, nofun, ?_, ?_⟩⟩
      · exact completes_imp (completes_xdRead_lane ha) fun d ⟨hx, hsent, hnet⟩ => ⟨hx, hsent, hnet, trivial⟩
      · exact completes_xdTimeout_write ha
      · exact completes_xdTimeout_read ha
  · intro a
    refine ⟨fun hd => ⟨?_, ?_, ?_, fun b => ⟨?_, ?_⟩⟩, ?_⟩
    · exact fun e ha => completes_jtag_reserve e hd ha
    · exact completes_jtag_stored hd
    · exact fun e ha hu => completes_jtag_lost hd ha hu
    · intro ha hr
      refine completes_imp (completes_jtag_write b hd ha hr) fun d hc => ⟨by rw [hc], fun y => ?_⟩
      rw [hc]
      exact Memory.read_write _ _ _ _
    · exact completes_jtag_writeRefused b hd
    · exact fun hd hl h2 w => completes_jtag_locked w hd hl h2

end Sys2Proof.Machine
end

section
/-! The occurrences of events that are on their way stay on their way through all that begins a beat (R387, R409): one lemma
`Dev.EnRoute.<operation>` for each operation that a boundary calls. -/

namespace Sys2Proof.Machine
open Sys2Proof

/-- What every round keeps, the whole of `each` keeps. -/
theorem Dev.each_induct {α : Type} {P : Dev → Prop} {d : Dev} {l : List α} {f : Dev → α → Dev} (h : P d) (hf : ∀ d a, P d → P (f d a)) :
    P (d.each l f) := by
  unfold Dev.each
  induction l generalizing d with
  | nil => exact h
  | cons a l ih => exact ih (hf d a h)

/-- The occurrence is on its way to the scheduler and the fuse box (R387, R409). -/
def Dev.EnRoute (d : Dev) (o : Occ) : Prop := o ∈ d.events

section
variable {d e : Dev} {o : Occ}

theorem Dev.EnRoute.keep {ps : List Part} (h : d.EnRoute o) (hk : Keep ps d e) (hp : .events ∉ ps) : e.EnRoute o := by
  unfold Dev.EnRoute
  rw [hk.events.resolve_left hp]
  exact h

theorem Dev.EnRoute.ite {c : Prop} [Decidable c] (hd : c → d.EnRoute o) (he : ¬ c → e.EnRoute o) : (if c then d else e).EnRoute o :=
  iteInduction (motive := (Dev.EnRoute · o)) hd he

theorem Dev.EnRoute.each {α : Type} {l : List α} {f : Dev → α → Dev} (h : d.EnRoute o) (hf : ∀ d a, d.EnRoute o → (f d a).EnRoute o) :
    (d.each l f).EnRoute o :=
  Dev.each_induct (P := (Dev.EnRoute · o)) h hf

theorem Dev.EnRoute.raise (h : d.EnRoute o) {ev n : Nat} : (d.raise ev n).EnRoute o := List.mem_append_left _ h

theorem Dev.enRoute_raise (d : Dev) (ev n : Nat) :
    (d.raise ev n).EnRoute { ev := BitVec.ofNat 10 ev, ts := d.now, detail := BitVec.ofNat 64 n, beat := d.beatAt d.now } :=
  List.mem_append_right _ (List.mem_singleton_self _)

-- what leaves the occurrences alone

theorem Dev.EnRoute.take (h : d.EnRoute o) {n} : (d.take n).EnRoute o := h
theorem Dev.EnRoute.modNet (h : d.EnRoute o) {f} : (d.modNet f).EnRoute o := h
theorem Dev.EnRoute.modLink (h : d.EnRoute o) {f} : (d.modLink f).EnRoute o := h
theorem Dev.EnRoute.putLink (h : d.EnRoute o) {l} : (d.putLink l).EnRoute o := h
theorem Dev.EnRoute.setBd (h : d.EnRoute o) {b x} : (d.setBd b x).EnRoute o := h
theorem Dev.EnRoute.countLink (h : d.EnRoute o) {n} : (d.countLink n).EnRoute o := h
theorem Dev.EnRoute.modCellar (h : d.EnRoute o) {f} : (d.modCellar f).EnRoute o := h
theorem Dev.EnRoute.modFabric (h : d.EnRoute o) {f} : (d.modFabric f).EnRoute o := h
theorem Dev.EnRoute.modBank (h : d.EnRoute o) {k f} : (d.modBank k f).EnRoute o := h
theorem Dev.EnRoute.modTime (h : d.EnRoute o) {f} : (d.modTime f).EnRoute o := h
theorem Dev.EnRoute.modRing (h : d.EnRoute o) {k f} : (d.modRing k f).EnRoute o := h
theorem Dev.EnRoute.modEntry (h : d.EnRoute o) {x f} : (d.modEntry x f).EnRoute o := h
theorem Dev.EnRoute.countRing (h : d.EnRoute o) {n} : (d.countRing n).EnRoute o := h
theorem Dev.EnRoute.commitPoint (h : d.EnRoute o) {x} : (d.commitPoint x).EnRoute o := h
theorem Dev.EnRoute.unconfirmed (h : d.EnRoute o) {x} : (d.unconfirmed x).EnRoute o := h
theorem Dev.EnRoute.modRoom (h : d.EnRoute o) {r f} : (d.modRoom r f).EnRoute o := h
theorem Dev.EnRoute.modFunc (h : d.EnRoute o) {i f} : (d.modFunc i f).EnRoute o := h
theorem Dev.EnRoute.modCores (h : d.EnRoute o) {f} : (d.modCores f).EnRoute o := h
theorem Dev.EnRoute.setStream (h : d.EnRoute o) {i x} : (d.setStream i x).EnRoute o := h
theorem Dev.EnRoute.setUnit (h : d.EnRoute o) {u x} : (d.setUnit u x).EnRoute o := h
theorem Dev.EnRoute.putHub (h : d.EnRoute o) {x} : (d.putHub x).EnRoute o := h
theorem Dev.EnRoute.modMedia (h : d.EnRoute o) {f} : (d.modMedia f).EnRoute o := h
theorem Dev.EnRoute.setEgr (h : d.EnRoute o) {i x} : (d.setEgr i x).EnRoute o := h
theorem Dev.EnRoute.modEgr (h : d.EnRoute o) {i f} : (d.modEgr i f).EnRoute o := h
theorem Dev.EnRoute.countFlow (h : d.EnRoute o) {i k m} : (d.countFlow i k m).EnRoute o := h
theorem Dev.EnRoute.countSdi (h : d.EnRoute o) {i k m} : (d.countSdi i k m).EnRoute o := h

-- frames to other devices

theorem Dev.EnRoute.creditBack (h : d.EnRoute o) {b} : (d.creditBack b).EnRoute o :=
  h.keep (ps := [.link]) (Dev.creditBack_keep (.refl _ _) (by decide) _) (by decide)

theorem Dev.EnRoute.sendFrame (h : d.EnRoute o) {b f k} : (d.sendFrame b f k).EnRoute o :=
  h.keep (ps := [.out, .link]) (Dev.sendFrame_keep (.refl _ _) (by decide) (by decide) _ _ _) (by decide)

theorem Dev.EnRoute.routeFrame (h : d.EnRoute o) {f b} : (d.routeFrame f b).EnRoute o := by
  unfold Dev.routeFrame
  split
  · exact h.sendFrame
  · exact .creditBack (.raise (.countLink h))

theorem Dev.EnRoute.sendOwn (h : d.EnRoute o) {f} : (d.sendOwn f).EnRoute o := .ite (fun _ => h) fun _ => h.routeFrame

theorem Dev.EnRoute.sendMessage (h : d.EnRoute o) {dest cls tag op addr flits body} : (d.sendMessage dest cls tag op addr flits body).EnRoute o :=
  h.each fun _ _ h => h.sendOwn

theorem Dev.EnRoute.sendDepend (h : d.EnRoute o) {op f t w n} : (d.sendDepend op f t w n).EnRoute o := h.sendMessage

-- completions

theorem Dev.EnRoute.divergence (h : d.EnRoute o) : d.divergence.EnRoute o := h.raise

theorem Dev.EnRoute.resolveAwait (h : d.EnRoute o) : d.resolveAwait.EnRoute o :=
  h.each fun _ _ h => .ite (fun _ => .unconfirmed (.putLink h)) fun _ => .ite (fun _ => .putLink h) fun _ =>
    .divergence (.sendMessage (.unconfirmed (.putLink h)))

theorem Dev.EnRoute.ownStatus (h : d.EnRoute o) {x st} : (d.ownStatus x st).EnRoute o := .resolveAwait (.putLink h)

theorem Dev.EnRoute.writeHost (h : d.EnRoute o) {a b} : (d.writeHost a b).EnRoute o :=
  .ite (fun _ => h) fun _ => h.countRing.raise

theorem Dev.EnRoute.coalesce (h : d.EnRoute o) {k} : (d.coalesce k).EnRoute o :=
  h.keep (ps := [.out, .rings, .sched]) (Dev.coalesce_keep (.refl _ _) (by decide) (by decide) (by decide) _) (by decide)

theorem Dev.EnRoute.postOne (h : d.EnRoute o) {k e} : (d.postOne k e).EnRoute o :=
  .ite (fun _ => Dev.EnRoute.sendMessage h) fun _ => Dev.EnRoute.coalesce (d := Dev.modRing _ k _) h.writeHost

theorem Dev.EnRoute.postRing (h : d.EnRoute o) {k} : (d.postRing k).EnRoute o := h.each fun _ _ h => h.postOne

theorem Dev.EnRoute.settle (h : d.EnRoute o) {n} : (Dev.settle n d).EnRoute o := by
  induction n generalizing d with
  | zero => exact h
  | succ n ih =>
    unfold Dev.settle
    split
    · exact h
    · next k _ _ => exact ih (Dev.EnRoute.postRing (Dev.EnRoute.ownStatus (d := d.modRing k _) h))

theorem Dev.EnRoute.finish (h : d.EnRoute o) {x st k i j b} : (d.finish x st k i j b).EnRoute o := by
  unfold Dev.finish
  split
  · exact h
  · refine .ite (fun _ => h) fun _ => .settle (.postRing (.ownStatus ?_))
    split
    · exact .raise (.countRing (.modRing h))
    · exact .raise (.countRing (.modRing h))
    · exact .raise (.countRing (.modRing h))
    · exact .raise (.countRing (.modRing h))
    · exact .modRing h

-- admissions and the links of functions

theorem Dev.EnRoute.releaseFrames (h : d.EnRoute o) {f n} : (d.releaseFrames f n).EnRoute o :=
  h.keep (ps := [.link]) (Dev.releaseFrames_keep (.refl _ _) (by decide) _ _) (by decide)

theorem Dev.EnRoute.dropFuncLinks (h : d.EnRoute o) {f} : (d.dropFuncLinks f).EnRoute o :=
  .ite (fun _ => h.modNet.modLink) fun _ => h.modNet.modLink.each fun _ _ h => h.sendDepend.releaseFrames

theorem Dev.EnRoute.clearRooms (h : d.EnRoute o) {rs} : (d.clearRooms rs).EnRoute o :=
  h.keep (ps := [.rooms, .fuse]) (Dev.clearRooms_keep (.refl _ _) (by decide) (by decide) _) (by decide)

theorem Dev.EnRoute.undoAdmission (h : d.EnRoute o) {f} : (d.undoAdmission f).EnRoute o := h.dropFuncLinks.clearRooms

theorem Dev.EnRoute.admitAgain (h : d.EnRoute o) : d.admitAgain.EnRoute o := by
  refine h.each fun d a h => ?_
  unfold Dev.modEntry
  dsimp only
  split
  · exact h.undoAdmission
  · exact h

theorem Dev.EnRoute.changePeriod (h : d.EnRoute o) : d.changePeriod.EnRoute o := by
  unfold Dev.changePeriod
  split
  · exact .ite (fun _ => h.modTime.admitAgain) fun _ => h
  · exact h

-- the cellar, where a trace stream's ring lies in it

theorem Dev.EnRoute.syncSweeps (h : d.EnRoute o) : d.syncSweeps.EnRoute o := by
  refine h.each fun d a h => ?_
  obtain ⟨n, s⟩ := a
  dsimp only
  split
  · exact h
  · exact .ite (fun _ => h.modCellar.raise) fun _ => h
  · exact .ite (fun _ => h) fun _ => h.modCellar

theorem Dev.EnRoute.startSweep (h : d.EnRoute o) {e s} : (d.startSweep e s).EnRoute o := h.modCellar.raise.syncSweeps

theorem Dev.EnRoute.autoSweeps (h : d.EnRoute o) : d.autoSweeps.EnRoute o := by
  refine h.each fun d a h => ?_
  obtain ⟨n, r⟩ := a
  dsimp only
  split
  · exact h
  · exact h.startSweep

theorem Dev.EnRoute.deadWords (h : d.EnRoute o) {line a n} : (d.deadWords line a n).EnRoute o := by
  unfold Dev.deadWords
  split
  · exact h
  · exact h.modCellar.raise

theorem Dev.EnRoute.startRepair (h : d.EnRoute o) {pr w} : (d.startRepair pr w).EnRoute o := h.modCellar.syncSweeps

theorem Dev.EnRoute.rowEcc (h : d.EnRoute o) {pr corr bad} : (d.rowEcc pr corr bad).EnRoute o := by
  unfold Dev.rowEcc
  split
  extract_lets +onlyGivenNames key d1 d2
  have h1 : d1.EnRoute o := .ite (fun _ => h) fun _ => .modCellar h
  have h2 : d2.EnRoute o := by
    unfold d2
    split
    · exact h1.modCellar.raise.startRepair
    · exact h1
  exact .ite (fun _ => .modCellar h2.startRepair) fun _ => h2

theorem Dev.EnRoute.metaEcc (h : d.EnRoute o) {line e} : (d.metaEcc line e).EnRoute o := .ite (fun _ => h) fun _ => h.deadWords.rowEcc
theorem Dev.EnRoute.rawEcc (h : d.EnRoute o) {line e} : (d.rawEcc line e).EnRoute o := h.deadWords.rowEcc
theorem Dev.EnRoute.lineEcc (h : d.EnRoute o) {line e} : (d.lineEcc line e).EnRoute o := h.rawEcc.metaEcc

theorem Dev.EnRoute.reseal (h : d.EnRoute o) {n line slot p} : (d.reseal n line slot p).1.EnRoute o := by
  unfold Dev.reseal
  dsimp only
  split
  · exact h.modCellar
  split
  · exact h.modCellar
  split
  · exact h.raise
  · exact Dev.EnRoute.autoSweeps (.ite (fun _ => h.modCellar) fun _ => h.modCellar.raise)

theorem Dev.EnRoute.mergeOpened (h : d.EnRoute o) {n line slot mask data f v p} : (d.mergeOpened n line slot mask data f v p).1.EnRoute o := by
  have hlost : (d.secMac.poison line f).EnRoute o := h.modCellar.raise.modCellar.raise
  have hr : (d.reseal n line slot (mergeBytes mask data p)).1.EnRoute o := h.reseal
  unfold Dev.mergeOpened
  generalize d.reseal n line slot (mergeBytes mask data p) = q at hr ⊢
  obtain ⟨e, ok⟩ := q
  split
  · exact h
  · exact hlost
  · exact hlost
  · exact hlost
  · exact hr

theorem Dev.EnRoute.storePart (h : d.EnRoute o) {n line slot mask data e f} : (d.storePart n line slot mask data e f).1.EnRoute o := by
  unfold Dev.storePart
  exact .mergeOpened h.lineEcc

theorem Dev.EnRoute.storeLine (h : d.EnRoute o) {n line slot mask data e f} : (d.storeLine n line slot mask data e f).1.EnRoute o := by
  unfold Dev.storeLine
  extract_lets +onlyGivenNames r
  split
  · exact h.modCellar
  extract_lets +onlyGivenNames slot
  clear_value slot
  split
  · extract_lets +onlyGivenNames lost d1
    have h1 : d1.EnRoute o := h.metaEcc
    split
    · exact .take (.modCellar h1)
    · have hr : (d1.reseal n line slot data).1.EnRoute o := .reseal h1
      generalize d1.reseal n line slot data = p at hr ⊢
      obtain ⟨e, ok⟩ := p
      exact hr
  · exact h.storePart

theorem Dev.EnRoute.writeLine (h : d.EnRoute o) {k q line mask data e} : (d.writeLine k q line mask data e).1.EnRoute o := by
  unfold Dev.writeLine
  split
  · exact h.modCellar.raise
  · split
    · exact h.modCellar
    · exact h.storeLine

theorem Dev.EnRoute.putThrough (h : d.EnRoute o) {q n a bs} : (d.putThrough q n a bs).EnRoute o := by
  induction n generalizing d a bs with
  | zero => exact h
  | succ n ih => exact .ite (fun _ => h) fun _ => ih h.writeLine

-- trace streams

theorem Dev.EnRoute.ringBytes (h : d.EnRoute o) {c q a b} : (d.ringBytes c q a b).EnRoute o :=
  .ite (fun _ => h.putThrough) fun _ => .ite (fun _ => h) fun _ => h

theorem Dev.EnRoute.streamPut (h : d.EnRoute o) {i bs} : (d.streamPut i bs).EnRoute o :=
  Dev.EnRoute.ringBytes (Dev.EnRoute.ringBytes h)

theorem Dev.EnRoute.sync (h : d.EnRoute o) {i r} : (d.sync i r).EnRoute o :=
  Dev.EnRoute.ite (fun _ => h.streamPut) fun _ => h

theorem Dev.EnRoute.carryTrace (h : d.EnRoute o) {n t} : (d.carryTrace n t).EnRoute o :=
  h.keep (ps := [.net]) (Dev.carryTrace_keep (.refl _ _) (by decide) _ _) (by decide)

theorem Dev.EnRoute.streamPacket (h : d.EnRoute o) {i bs} : (d.streamPacket i bs).EnRoute o :=
  .ite (fun _ => .ite (fun _ => .raise (.setStream h)) fun _ => h) fun _ =>
    .ite (fun _ => h.streamPut.sync) fun _ => h.streamPut

theorem Dev.EnRoute.flushTrace (h : d.EnRoute o) : d.flushTrace.EnRoute o :=
  .each (.setStream h) fun _ _ h => .streamPacket (.carryTrace h)

theorem Dev.EnRoute.trace (h : d.EnRoute o) {k src f i b ts} : (d.trace k src f i b ts).EnRoute o :=
  .ite (fun _ => h.flushTrace) fun _ => h.flushTrace

-- the fabric

theorem Dev.EnRoute.setUev (h : d.EnRoute o) {u v} : (d.setUev u v).EnRoute o := .ite (fun _ => h.modFabric.raise) fun _ => h.modFabric

theorem Dev.EnRoute.holdBlock (h : d.EnRoute o) {c b} : (Dev.holdBlock c d b).EnRoute o :=
  .modFabric (.each (.take h) fun _ _ h => h.setUev)

theorem Dev.EnRoute.refreshPads (h : d.EnRoute o) : d.refreshPads.EnRoute o :=
  h.keep (ps := [.fabric]) (Dev.refreshPads_keep (.refl _ _) (by decide)) (by decide)

theorem Dev.EnRoute.measure (h : d.EnRoute o) {m} : (d.measure m).EnRoute o :=
  h.keep (ps := [.strong]) (Dev.measure_keep (.refl _ _) (by decide) _) (by decide)

theorem Dev.EnRoute.unmeasure (h : d.EnRoute o) {k i} : (d.unmeasure k i).EnRoute o :=
  h.keep (ps := [.strong]) (Dev.unmeasure_keep (.refl _ _) (by decide) _ _) (by decide)

theorem Dev.EnRoute.applyFabric (h : d.EnRoute o) {x k st} : (d.applyFabric x k st).EnRoute o :=
  Dev.EnRoute.refreshPads <| Dev.EnRoute.modFabric <| Dev.EnRoute.each (h.commitPoint.each fun _ _ h => h.measure) fun _ _ h => h.holdBlock

theorem Dev.EnRoute.setPll (h : d.EnRoute o) {k w} : (d.setPll k w).EnRoute o :=
  (Dev.EnRoute.ite (fun _ => h.modFabric.raise) fun _ => h.modFabric).keep (ps := [.fabric]) (Dev.checkClock_keep (.refl _ _) (by decide))
    (by decide)

theorem Dev.EnRoute.setDecl (h : d.EnRoute o) {k b} : (d.setDecl k b).EnRoute o :=
  .ite (fun _ => .raise (.modBank h)) fun _ => .modBank h

theorem Dev.EnRoute.installBlock (h : d.EnRoute o) {rs b} : (d.installBlock rs b).EnRoute o :=
  h.keep (ps := [.fabric]) (Dev.installBlock_keep (.refl _ _) (by decide) _ _) (by decide)

theorem Dev.EnRoute.startRelease (h : d.EnRoute o) {bs} : (d.startRelease bs).EnRoute o :=
  h.keep (ps := [.fabric]) (Dev.startRelease_keep (.refl _ _) (by decide) _) (by decide)

theorem Dev.EnRoute.finishApply (h : d.EnRoute o) {a} : (d.finishApply a).EnRoute o := by
  unfold Dev.finishApply
  extract_lets s rs d1 d2 d3 d4 d5
  have h1 : d1.EnRoute o := h.each fun _ _ h => h.installBlock
  have h2 : d2.EnRoute o := h1.each fun _ _ h => h.setPll
  have h3 : d3.EnRoute o := h2.each fun _ _ h => h.setDecl
  have h4 : d4.EnRoute o := .modFabric h3
  exact .finish (.refreshPads (.ite (fun _ => .startRelease h4) fun _ => h4))

theorem Dev.EnRoute.fabricAtBoundary (h : d.EnRoute o) : d.fabricAtBoundary.EnRoute o :=
  .modFabric (.each (.modFabric h) fun _ _ h => h.finishApply)

-- feeds, routes and the link

theorem Dev.EnRoute.lateGroups (h : d.EnRoute o) {r n} : (d.lateGroups r n).EnRoute o :=
  .ite (fun _ => h) fun _ => .ite (fun _ => .raise (.countFlow h)) fun _ => .ite (fun _ => h) fun _ =>
    .raise (.countSdi h)

theorem Dev.EnRoute.feedRoom (h : d.EnRoute o) {b gs r} : (d.feedRoom b gs r).EnRoute o :=
  h.keep (ps := [.rooms, .net]) (Dev.feedRoom_keep (.refl _ _) (by decide) (by decide) _ _ _) (by decide)

theorem Dev.EnRoute.feedFunc (h : d.EnRoute o) {f a z} : (d.feedFunc f a z).EnRoute o := by
  refine h.each fun d b h => .each h fun d rep h => ?_
  extract_lets mine d1
  have h1 : d1.EnRoute o := h.each fun _ _ h => h.feedRoom
  exact .ite (fun _ => h1) fun _ => h1.lateGroups

theorem Dev.EnRoute.drainTags (h : d.EnRoute o) {f} : (d.drainTags f).EnRoute o :=
  h.keep (ps := [.rooms, .net]) (Dev.drainTags_keep (.refl _ _) (by decide) (by decide) _) (by decide)

theorem Dev.EnRoute.passThrough (h : d.EnRoute o) {src g} : (d.passThrough src g).EnRoute o :=
  h.keep (ps := [.media]) (Dev.passThrough_keep (.refl _ _) (by decide) _ _) (by decide)

theorem Dev.EnRoute.framesAtBoundary (h : d.EnRoute o) : d.framesAtBoundary.EnRoute o :=
  h.keep (ps := [.cellar]) (Dev.framesAtBoundary_keep (.refl _ _) (by decide)) (by decide)

theorem Dev.EnRoute.routesAtBoundary (h : d.EnRoute o) : d.routesAtBoundary.EnRoute o := by
  refine h.each fun d e h => ?_
  dsimp only
  split
  · exact .ite (fun _ => h) fun _ => .finish (.setEgr h)
  · exact h

theorem Dev.EnRoute.feedsAtBoundary (h : d.EnRoute o) {a z} : (d.feedsAtBoundary a z).EnRoute o := by
  unfold Dev.feedsAtBoundary
  extract_lets d1 d2
  have h1 : d1.EnRoute o := h.each fun _ _ h => .drainTags h.feedFunc
  have h2 : d2.EnRoute o := h1.each fun _ _ h => h.passThrough
  exact .modMedia h2.routesAtBoundary.framesAtBoundary

theorem Dev.EnRoute.missMarker (h : d.EnRoute o) {b} : (d.missMarker b).EnRoute o :=
  .ite (fun _ => h) fun _ => .ite (fun _ => .raise (.setBd h)) fun _ => .setBd h

theorem Dev.EnRoute.split (h : d.EnRoute o) : d.split.EnRoute o :=
  .ite (fun _ => h) fun _ => .settle (.each (.resolveAwait (.raise (.modLink h))) fun _ _ h => h.postRing)

theorem Dev.EnRoute.setActive (h : d.EnRoute o) {b m} : (d.setActive b m).EnRoute o :=
  h.keep (ps := [.link]) (Dev.setActive_keep (.refl _ _) (by decide) _ _) (by decide)

theorem Dev.EnRoute.sendMarkers (h : d.EnRoute o) {b} : (d.sendMarkers b).EnRoute o :=
  h.keep (ps := [.free, .out, .link]) (Dev.sendMarkers_keep (.refl _ _) (by decide) (by decide) (by decide) _) (by decide)

theorem Dev.EnRoute.lanesTx (h : d.EnRoute o) : d.lanesTx.EnRoute o :=
  h.keep (ps := [.out, .link]) (Dev.lanesTx_keep (.refl _ _) (by decide) (by decide)) (by decide)

theorem Dev.EnRoute.endDepends (h : d.EnRoute o) : d.endDepends.EnRoute o :=
  h.keep (ps := [.rooms, .link]) (Dev.endDepends_keep (.refl _ _) (by decide) (by decide)) (by decide)

theorem Dev.EnRoute.remoteDue (h : d.EnRoute o) : d.remoteDue.EnRoute o :=
  h.keep (ps := [.rooms]) (Dev.remoteDue_keep (.refl _ _) (by decide)) (by decide)

theorem Dev.EnRoute.linkAtBoundary (h : d.EnRoute o) {ds} : (d.linkAtBoundary ds).EnRoute o := by
  unfold Dev.linkAtBoundary
  extract_lets d1 d2 d3 d4 d5 d6 d7
  have h2 : d2.EnRoute o := .each (.modLink h) fun _ _ h => h.missMarker
  have h3 : d3.EnRoute o := h2.each fun _ _ h => .ite (fun _ => h) fun _ => .raise (.setActive (h.each fun _ _ h => h.raise))
  have h4 : d4.EnRoute o := h3.sendMarkers
  have h5 : d5.EnRoute o := .ite (fun _ => h4.sendMessage) fun _ => h4
  have h6 : d6.EnRoute o := .ite (fun _ => h5.split) fun _ => h5
  have h7 : d7.EnRoute o := h6.endDepends.remoteDue
  exact .ite (fun _ => .lanesTx (.modLink h7)) fun _ => h7

-- the operations of boundaries

theorem Dev.EnRoute.reserveFrames (h : d.EnRoute o) {f b t w} : (d.reserveFrames f b t w).EnRoute o :=
  h.keep (ps := [.link]) (Dev.reserveFrames_keep (.refl _ _) (by decide) _ _ _ _) (by decide)

theorem Dev.EnRoute.passStart (h : d.EnRoute o) {r} : (d.passStart r).EnRoute o :=
  Dev.EnRoute.trace (d := d.setRoom r _) h

theorem Dev.EnRoute.admitEffect (h : d.EnRoute o) {x e st n} : (d.admitEffect x e st n).EnRoute o := by
  unfold Dev.admitEffect
  extract_lets fid
  split
  · exact h
  · exact .finish <| .putHub <| .measure <| .each (.each (.modFunc (.commitPoint h)) fun _ _ h => .passStart (.modRoom h)) fun _ _ h =>
      h.reserveFrames.sendDepend

theorem Dev.EnRoute.retireEffect (h : d.EnRoute o) {x e st} : (d.retireEffect x e st).EnRoute o := by
  unfold Dev.retireEffect
  split
  · exact h.finish
  · extract_lets d1 d2 d3 d4
    have h1 : d1.EnRoute o := .dropFuncLinks (.commitPoint h)
    have h4 : d4.EnRoute o := .unmeasure (.modFunc (.modEntry h1))
    exact h4.each fun _ _ h => h.modRoom

theorem Dev.EnRoute.paramEffect (h : d.EnRoute o) {x e st} : (d.paramEffect x e st).EnRoute o := by
  unfold Dev.paramEffect
  split
  · exact h.finish
  · refine .ite (fun _ => h.finish) fun _ => ?_
    extract_lets v first ws mine d1 d2
    have h2 : d2.EnRoute o := .each (.commitPoint h) fun _ _ h => h.modRoom
    exact .finish (.modFunc h2)

theorem Dev.EnRoute.routeEffect (h : d.EnRoute o) {x e st} : (d.routeEffect x e st).EnRoute o := by
  unfold Dev.routeEffect
  extract_lets
  refine .ite (fun _ => h.finish) fun _ => ?_
  extract_lets
  split
  · exact .finish (.modFunc (.commitPoint h))
  · exact .modMedia (.commitPoint h)
  · exact .ite (fun _ => .modEgr (.commitPoint h)) fun _ => .finish (.modEgr (.commitPoint h))

theorem Dev.EnRoute.imageEffect (h : d.EnRoute o) {x e st} : (d.imageEffect x e st).EnRoute o := by
  unfold Dev.imageEffect
  extract_lets k
  refine .ite (fun _ => .finish (.ite (fun _ => h.modCores) fun _ => h)) fun _ => .ite (fun _ => h.applyFabric) fun _ => ?_
  split
  · exact .finish (.measure (.measure (.modCores (.commitPoint h))))
  · exact h

theorem Dev.EnRoute.armEffect (h : d.EnRoute o) {x e st} : (d.armEffect x e st).EnRoute o := by
  unfold Dev.armEffect
  split
  · exact h.finish
  · exact .finish (.each (.commitPoint h) fun _ _ h => h.setUnit)

theorem Dev.EnRoute.slipEffect (h : d.EnRoute o) {x e st} : (d.slipEffect x e st).EnRoute o := by
  unfold Dev.slipEffect
  extract_lets units d1
  split
  · exact .finish (.modTime h)
  · exact .finish (.raise (.modTime (.commitPoint (.modTime h))))

theorem Dev.EnRoute.mirrorEffect (h : d.EnRoute o) {x e st} : (d.mirrorEffect x e st).EnRoute o :=
  .ite (fun _ => .finish (.lanesTx (.modLink (.commitPoint h)))) fun _ => .ite (fun _ => h.finish) fun _ =>
    .finish (.lanesTx (.modLink (.commitPoint h)))

theorem Dev.EnRoute.opEffect (h : d.EnRoute o) {x e st} : (d.opEffect x e st).EnRoute o := by
  unfold Dev.opEffect
  split
  · exact h.admitEffect
  · exact h.retireEffect
  · exact h.paramEffect
  · exact h.routeEffect
  · exact h.imageEffect
  · exact h.armEffect
  · exact h.slipEffect
  · exact h.mirrorEffect
  · exact h

theorem Dev.EnRoute.undoStrict (h : d.EnRoute o) {x e} : (d.undoStrict x e).EnRoute o := by
  unfold Dev.undoStrict
  split
  · exact h.undoAdmission.finish
  · exact h.finish

theorem Dev.EnRoute.refuseLate (h : d.EnRoute o) {x e} : (d.refuseLate x e).EnRoute o := by
  unfold Dev.refuseLate
  split
  · exact h.undoStrict
  · exact .finish (.ite (fun _ => h.modCores) fun _ => h)
  · exact .finish (.modTime h)
  · exact h.finish

theorem Dev.EnRoute.opAt (h : d.EnRoute o) {p a x} : (Dev.opAt p a d x).EnRoute o := by
  unfold Dev.opAt
  split
  · exact h
  · exact .ite (fun _ => h) fun _ => .ite (fun _ => h.opEffect) fun _ => .ite (fun _ => h.refuseLate) fun _ => h.opEffect

theorem Dev.EnRoute.opsAtBoundary (h : d.EnRoute o) {p} : (d.opsAtBoundary p).EnRoute o :=
  .each (.each h fun _ _ h => h.opAt) fun _ _ h => h.opAt

theorem Dev.EnRoute.portsLand (h : d.EnRoute o) : d.portsLand.EnRoute o :=
  h.keep (ps := [.rooms, .net]) (Dev.portsLand_keep (.refl _ _) (by decide) (by decide)) (by decide)

theorem Dev.EnRoute.queuesAtBoundary (h : d.EnRoute o) : d.queuesAtBoundary.EnRoute o :=
  h.keep (ps := [.cellar]) (Dev.queuesAtBoundary_keep (.refl _ _) (by decide)) (by decide)

theorem Dev.EnRoute.fuseAtBoundary (h : d.EnRoute o) : d.fuseAtBoundary.EnRoute o :=
  h.keep (ps := [.rooms, .media, .fabric, .fuse]) (Dev.fuseAtBoundary_keep (.refl _ _) (by decide) (by decide) (by decide) (by decide))
    (by decide)

theorem Dev.EnRoute.attSnapshot (h : d.EnRoute o) : d.attSnapshot.EnRoute o :=
  h.keep (ps := [.strong]) (Dev.attSnapshot_keep (.refl _ _) (by decide)) (by decide)

theorem Dev.EnRoute.releaseHeld (h : d.EnRoute o) : d.releaseHeld.EnRoute o :=
  h.keep (ps := [.cores, .sched]) (Dev.releaseHeld_keep (.refl _ _) (by decide) (by decide)) (by decide)

theorem Dev.EnRoute.beginBeat (h : d.EnRoute o) {p a ds} : (d.beginBeat p a ds).EnRoute o := by
  unfold Dev.beginBeat
  extract_lets d1 d2
  have h1 : d1.EnRoute o := .modTime h.queuesAtBoundary.opsAtBoundary.changePeriod
  have h2 : d2.EnRoute o := h1.feedsAtBoundary.portsLand.fabricAtBoundary
  exact h2.linkAtBoundary.fuseAtBoundary.attSnapshot

end
end Sys2Proof.Machine
end

section
/-! The beat generator at its boundaries (03_beat_and_commit.md R66; 08_time.md R238 to R241): the operations of a boundary leave the beat that
begins there, and the boundary fixes where it ends. From it the statement about BEAT_START, BEAT_BOUNDARY and BEAT_SLIP. -/

namespace Sys2Proof.Machine
open Sys2Proof

-- the beat that runs

/-- The parts of the device apart from one. -/
def partsBut (p : Part) : List Part :=
  [.now, .free, .out, .events, .ident, .flash, .rooms, .funcs, .net, .cellar, .media, .time, .link, .fabric, .loader, .rings, .cores, .sched, .record,
   .fwres, .acq, .fuse, .strong, .hub, .power, .tap].filter (· != p)

theorem Keep.now_eq {d e : Dev} (h : Keep (partsBut .now) d e) : e.now = d.now := h.now.resolve_left (by decide)

theorem Keep.time_eq {d e : Dev} (h : Keep (partsBut .time) d e) : e.time = d.time := h.time.resolve_left (by decide)

/-- The device is in the beat of `t`: its number, its start and what its length comes from are those of `t`, apart from the slip that the boundary
carries (R66, R241). -/
structure Dev.InBeat (d : Dev) (t : TimeUnit) : Prop where
  run : d.time.run = t.run
  armed : d.time.armed = t.armed
  n : d.time.n = t.n
  start : d.time.start = t.start
  period : d.time.period = t.period
  pend : d.time.pendPeriod = t.pendPeriod

/-- The beat of `t` has begun: the next boundary is fixed, a period and a slip after its start, and the period is that of `t` unless one was pending
(R238, R240, R241). -/
structure Dev.Begun (d : Dev) (t : TimeUnit) : Prop where
  run : d.time.run = t.run
  armed : d.time.armed = t.armed
  n : d.time.n = t.n
  start : d.time.start = t.start
  next : d.time.next = ((d.time.start : Int) + ((d.time.period.toNat : Int) + d.time.slipNow) * (8 * (ns : Int))).toNat
  period : t.pendPeriod = none → d.time.period = t.period

section
variable {d e : Dev} {t : TimeUnit}

theorem Dev.InBeat.of_time (h : d.time = t) : d.InBeat t := by
  subst h
  exact ⟨rfl, rfl, rfl, rfl, rfl, rfl⟩

theorem Dev.InBeat.keep (h : d.InBeat t) (hk : Keep (partsBut .time) d e) : e.InBeat t := by
  obtain ⟨h1, h2, h3, h4, h5, h6⟩ := h
  rw [← hk.time_eq] at h1 h2 h3 h4 h5 h6
  exact ⟨h1, h2, h3, h4, h5, h6⟩

theorem Dev.Begun.keep (h : d.Begun t) (hk : Keep (partsBut .time) d e) : e.Begun t := by
  obtain ⟨h1, h2, h3, h4, h5, h6⟩ := h
  rw [← hk.time_eq] at h1 h2 h3 h4 h5 h6
  exact ⟨h1, h2, h3, h4, h5, h6⟩

theorem Dev.InBeat.ite {c : Prop} [Decidable c] (hd : c → d.InBeat t) (he : ¬ c → e.InBeat t) : (if c then d else e).InBeat t :=
  iteInduction (motive := (Dev.InBeat · t)) hd he

theorem Dev.InBeat.each {α : Type} {l : List α} {f : Dev → α → Dev} (h : d.InBeat t) (hf : ∀ d a, d.InBeat t → (f d a).InBeat t) :
    (d.each l f).InBeat t :=
  Dev.each_induct (P := (Dev.InBeat · t)) h hf

/-- A change of the time unit that leaves the beat as it was. -/
theorem Dev.InBeat.modTime (h : d.InBeat t) {f : TimeUnit → TimeUnit} (hf : Dev.InBeat { d with time := f d.time } d.time) :
    (d.modTime f).InBeat t :=
  ⟨hf.run.trans h.run, hf.armed.trans h.armed, hf.n.trans h.n, hf.start.trans h.start, hf.period.trans h.period, hf.pend.trans h.pend⟩

theorem Dev.InBeat.modRoom (h : d.InBeat t) {r f} : (d.modRoom r f).InBeat t := ⟨h.run, h.armed, h.n, h.start, h.period, h.pend⟩
theorem Dev.InBeat.modCores (h : d.InBeat t) {f} : (d.modCores f).InBeat t := ⟨h.run, h.armed, h.n, h.start, h.period, h.pend⟩
theorem Dev.InBeat.commitPoint (h : d.InBeat t) {x} : (d.commitPoint x).InBeat t := ⟨h.run, h.armed, h.n, h.start, h.period, h.pend⟩
theorem Dev.InBeat.raise (h : d.InBeat t) {ev k} : (d.raise ev k).InBeat t := ⟨h.run, h.armed, h.n, h.start, h.period, h.pend⟩

theorem Dev.InBeat.finish (h : d.InBeat t) {x st k i j b} : (d.finish x st k i j b).InBeat t :=
  h.keep (Dev.finish_keep (.refl _ _) (by decide) (by decide) (by decide) (by decide) (by decide) _ _ _ _ _ _)

theorem Dev.InBeat.slipEffect (h : d.InBeat t) {x e st} : (d.slipEffect x e st).InBeat t := by
  unfold Dev.slipEffect
  extract_lets units d1
  have h1 : d1.InBeat t := h.modTime ⟨rfl, rfl, rfl, rfl, rfl, rfl⟩
  clear_value d1
  split
  · exact h1.finish
  · exact .finish (.raise (.modTime (.commitPoint h1) ⟨rfl, rfl, rfl, rfl, rfl, rfl⟩))

theorem Dev.InBeat.opEffect (h : d.InBeat t) {x e st} : (d.opEffect x e st).InBeat t := by
  unfold Dev.opEffect
  split
  · exact h.keep (by apply Dev.admitEffect_keep (.refl _ _) <;> decide)
  · exact h.keep (by apply Dev.retireEffect_keep (.refl _ _) <;> decide)
  · exact h.keep (by apply Dev.paramEffect_keep (.refl _ _) <;> decide)
  · exact h.keep (by apply Dev.routeEffect_keep (.refl _ _) <;> decide)
  · exact h.keep (by apply Dev.imageEffect_keep (.refl _ _) <;> decide)
  · exact h.keep (by apply Dev.armEffect_keep (.refl _ _) <;> decide)
  · exact h.slipEffect
  · exact h.keep (by apply Dev.mirrorEffect_keep (.refl _ _) <;> decide)
  · exact h

theorem Dev.InBeat.refuseLate (h : d.InBeat t) {x e} : (d.refuseLate x e).InBeat t := by
  unfold Dev.refuseLate
  split
  · exact h.keep (by apply Dev.undoStrict_keep (.refl _ _) <;> decide)
  · exact .finish (.ite (fun _ => h.modCores) fun _ => h)
  · exact .finish (h.modTime ⟨rfl, rfl, rfl, rfl, rfl, rfl⟩)
  · exact h.finish

theorem Dev.InBeat.opAt (h : d.InBeat t) {p a x} : (Dev.opAt p a d x).InBeat t := by
  unfold Dev.opAt
  split
  · exact h
  · exact .ite (fun _ => h) fun _ => .ite (fun _ => h.opEffect) fun _ => .ite (fun _ => h.refuseLate) fun _ => h.opEffect

theorem Dev.InBeat.opsAtBoundary (h : d.InBeat t) {p} : (d.opsAtBoundary p).InBeat t :=
  .each (.each h fun _ _ h => h.opAt) fun _ _ h => h.opAt

-- the beat through a warm reset

theorem Dev.InBeat.keepMean (h : d.InBeat t) : d.keepMean.InBeat t := .ite (fun _ => h.modTime ⟨rfl, rfl, rfl, rfl, rfl, rfl⟩) fun _ => h

theorem Dev.InBeat.setServo (h : d.InBeat t) {x} : (d.setServo x).InBeat t := by
  have hmean : d.keepMean.InBeat t := h.keepMean
  unfold Dev.setServo
  generalize d.keepMean = m at hmean ⊢
  split
  · exact h
  · extract_lets d1
    have h1 : d1.InBeat t := .raise (hmean.modTime ⟨rfl, rfl, rfl, rfl, rfl, rfl⟩)
    exact .ite (fun _ => h1.raise) fun _ => h1

theorem Dev.InBeat.holdover (h : d.InBeat t) : d.holdover.InBeat t := by
  unfold Dev.holdover
  extract_lets d1 incr
  have h1 : d1.InBeat t := h.keepMean
  clear_value incr d1
  exact .setServo (h1.modTime ⟨rfl, rfl, rfl, rfl, rfl, rfl⟩)

theorem Dev.InBeat.warmHalt (h : d.InBeat t) : d.warmHalt.InBeat t := by
  unfold Dev.warmHalt
  extract_lets n d1 d2 d3 d4 d5 d6 d7 d8
  have h1 : d1.InBeat t := h.keep (by apply Dev.restartAdmissions_keep (.refl _ _) <;> decide)
  have h2 : d2.InBeat t := h1.each fun _ _ h => h.modRoom
  have h3 : d3.InBeat t := h2.keep (by apply Dev.restartMigrations_keep (.refl _ _) <;> decide)
  have k4 : Keep (partsBut .time) d3 d4 := Dev.dropEvents_keep (Dev.putFuncs_keep (.refl _ _) (by decide) _) (by decide)
  have k5 : Keep (partsBut .time) d3 d5 := Dev.debugEnd_keep (by apply Dev.drainWb_keep k4 <;> decide) (by decide) (by decide)
  have h6 : d6.InBeat t := h3.keep (by apply Dev.warmUnits_keep k5 <;> decide)
  clear_value d6
  have h7 : d7.InBeat t := h6.modTime ⟨rfl, rfl, rfl, rfl, rfl, rfl⟩
  have h8 : d8.InBeat t := .ite (fun _ => h7.setServo) fun _ => h7.holdover
  have k9 : Keep (partsBut .time) d8 d8.dropEvents.fuseWarm := Dev.fuseWarm_keep (Dev.dropEvents_keep (.refl _ _) (by decide)) (by decide)
  exact h8.keep (Dev.syncSweeps_keep k9 (by decide) (by decide))

-- the beat that begins

theorem Dev.admitAgain_time (d : Dev) : d.admitAgain.time = d.time := by
  refine Keep.time_eq ?_
  apply Dev.admitAgain_keep (.refl _ _) <;> decide

theorem Dev.InBeat.begun (h : d.InBeat t) : d.changePeriod.setNext.Begun t := by
  have hold : d.setNext.Begun t := ⟨h.run, h.armed, h.n, h.start, rfl, fun _ => h.period⟩
  unfold Dev.changePeriod
  split
  · next p tgt hp =>
    split
    · refine ⟨?_, ?_, ?_, ?_, rfl, fun hn => ?_⟩
      · exact (congrArg TimeUnit.run (Dev.admitAgain_time _)).trans h.run
      · exact (congrArg TimeUnit.armed (Dev.admitAgain_time _)).trans h.armed
      · exact (congrArg TimeUnit.n (Dev.admitAgain_time _)).trans h.n
      · exact (congrArg TimeUnit.start (Dev.admitAgain_time _)).trans h.start
      · rw [← h.pend, hp] at hn
        cases hn
    · exact hold
  · exact hold

theorem Dev.InBeat.beginBeat (h : d.InBeat t) {p a ds} : (d.beginBeat p a ds).Begun t := by
  unfold Dev.beginBeat
  extract_lets d1 d2
  have hq : d.queuesAtBoundary.InBeat t := h.keep (Dev.queuesAtBoundary_keep (.refl _ _) (by decide))
  have h1 : d1.Begun t := Dev.InBeat.begun hq.opsAtBoundary
  have hfeeds : Keep (partsBut .time) d1 (d1.feedsAtBoundary a d1.time.start) := by apply Dev.feedsAtBoundary_keep (.refl _ _) <;> decide
  have hports : Keep (partsBut .time) d1 d2 := by apply Dev.fabricAtBoundary_keep (Dev.portsLand_keep hfeeds (by decide) (by decide)) <;> decide
  have hlink : Keep (partsBut .time) d1 (d2.linkAtBoundary ds) := by apply Dev.linkAtBoundary_keep hports <;> decide
  have hfuse : Keep (partsBut .time) d1 (d2.linkAtBoundary ds).fuseAtBoundary := by apply Dev.fuseAtBoundary_keep hlink <;> decide
  exact h1.keep (Dev.attSnapshot_keep hfuse (by decide))

theorem Dev.Begun.attSnapshot (h : d.Begun t) : d.attSnapshot.Begun t := h.keep (Dev.attSnapshot_keep (.refl _ _) (by decide))

end

-- the two boundaries

/-- The time unit at an ordered start: the ordered beat begins at the first boundary (R239). -/
def TimeUnit.atStart (t : TimeUnit) : TimeUnit :=
  { t with run := true, armed := false, n := t.first, start := t.next, slipNow := 0, carries := false, starts := [] }

/-- The time unit at a boundary: the next beat begins there (R66). -/
def TimeUnit.atBoundary (t : TimeUnit) : TimeUnit :=
  { t with n := t.n + 1, start := t.next, slipNow := 0, carries := false, starts := (t.start :: t.starts).take 64 }

section
variable {d : Dev}

theorem Dev.beatStart_eq (ha : d.time.armed = true) (hr : d.time.run = false) (hc : d.power.cold = false) :
    d.beatStart = ((((d.reach d.time.next).modTime TimeUnit.atStart).raise 582).beginBeat none
      ((d.reach d.time.next).time.next - ((d.reach d.time.next).modTime TimeUnit.atStart).period) []).releaseHeld := by
  unfold Dev.beatStart
  rw [if_neg (by simp [ha, hr, hc])]
  rfl

theorem Dev.beatStart_now (ha : d.time.armed = true) (hr : d.time.run = false) (hc : d.power.cold = false) :
    d.beatStart.now = max d.now d.time.next := by
  rw [Dev.beatStart_eq ha hr hc, ← Dev.reach_now]
  exact Keep.now_eq (d := ((d.reach d.time.next).modTime TimeUnit.atStart).raise 582)
    (Dev.releaseHeld_keep (by apply Dev.beginBeat_keep (.refl _ _) <;> decide) (by decide) (by decide))

theorem Dev.beatStart_begun (ha : d.time.armed = true) (hr : d.time.run = false) (hc : d.power.cold = false) :
    d.beatStart.Begun d.time.atStart := by
  rw [Dev.beatStart_eq ha hr hc]
  have hstart : (((d.reach d.time.next).modTime TimeUnit.atStart).raise 582).InBeat d.time.atStart :=
    .of_time (congrArg TimeUnit.atStart (d.reach_time _))
  exact hstart.beginBeat.keep (Dev.releaseHeld_keep (.refl _ _) (by decide) (by decide))

theorem Dev.beatStart_onTheWay (ha : d.time.armed = true) (hr : d.time.run = false) (hc : d.power.cold = false) : OnTheWay d.beatStart 582 := by
  rw [Dev.beatStart_eq ha hr hc]
  exact ⟨_, (Dev.enRoute_raise ((d.reach d.time.next).modTime TimeUnit.atStart) 582 0).beginBeat.releaseHeld, rfl⟩

theorem Dev.changePeriod_setNext_attSnapshot_now (d : Dev) : d.changePeriod.setNext.attSnapshot.now = d.now := by
  have hperiod : Keep (partsBut .now) d d.changePeriod := by apply Dev.changePeriod_keep (.refl _ _) <;> decide
  exact Keep.now_eq (Dev.attSnapshot_keep (Dev.setNext_keep hperiod (by decide)) (by decide))

theorem Dev.beatBoundary_begun (hr : d.time.run = true) (hc : d.power.cold = false) :
    d.beatBoundary.now = max d.now d.time.next ∧ d.beatBoundary.Begun d.time.atBoundary := by
  unfold Dev.beatBoundary
  rw [if_neg (by simp [hr, hc])]
  extract_lets was d1 n old decided d2 hubHas d3
  have keepsNow : Keep (partsBut .now) (d.reach d.time.next) d1 := by
    apply Dev.decideAll_keep (by apply Dev.deliverOwn_keep (.refl _ _) <;> decide) <;> decide
  have keepsTime : Keep (partsBut .time) (d.reach d.time.next) d1 := by
    apply Dev.decideAll_keep (by apply Dev.deliverOwn_keep (.refl _ _) <;> decide) <;> decide
  have hnow : d2.now = max d.now d.time.next := keepsNow.now_eq.trans (d.reach_now _)
  have h2 : d2.InBeat d.time.atBoundary := .of_time (congrArg TimeUnit.atBoundary (keepsTime.time_eq.trans (d.reach_time _)))
  have endKeepsTime : Keep (partsBut .time) d2 d3 := by apply Dev.endBeat_keep (Dev.putFuncs_keep (.refl _ _) (by decide) _) <;> decide
  have endKeepsNow : Keep (partsBut .now) d2 d3 := by apply Dev.endBeat_keep (Dev.putFuncs_keep (.refl _ _) (by decide) _) <;> decide
  rw [← hnow]
  clear_value d2 d3
  split
  · split
    · exact ⟨Keep.now_eq (by apply Dev.beginBeat_keep (by apply Dev.startAgain_keep (.refl _ _) <;> decide) <;> decide),
        (h2.keep (by apply Dev.startAgain_keep (.refl _ _) <;> decide)).beginBeat⟩
    · exact ⟨Dev.changePeriod_setNext_attSnapshot_now d2, h2.begun.attSnapshot⟩
  · split
    · exact ⟨(Dev.changePeriod_setNext_attSnapshot_now _).trans (Keep.now_eq (by apply Dev.warmHalt_keep endKeepsNow <;> decide)),
        (h2.keep endKeepsTime).warmHalt.begun.attSnapshot⟩
    · exact ⟨Keep.now_eq (by apply Dev.beginBeat_keep endKeepsNow <;> decide), (h2.keep endKeepsTime).beginBeat⟩

-- a slip

theorem Dev.beatSlip_run {x : DescRef} {e : RetEntry} (h : d.startable x 0x61 = some e) :
    d.beatSlip x = (d.start x).modTime fun t => { t with slips := t.slips ++
      [{ desc := x, beat := BitVec.ofNat 64 (descTarget e.desc), units := (BitVec.ofNat 32 (dfld e.desc 0x18 4)).toInt }] } := by
  unfold Dev.beatSlip Dev.runOp
  rw [h]
  rfl

end

/-- Settles O33: a beat that has begun (`Dev.Begun`) is what both boundaries leave, whatever they do besides. -/
theorem beatsBeginAtTheirBoundary : Obligations.BeatsBeginAtTheirBoundary := by
  intro s t lasts
  refine ⟨fun ha hr hc => ?_, fun hr hc => ?_, fun x e hx => ?_⟩
  · obtain ⟨hrun, harmed, hn, hstart, hnext, -⟩ := Dev.beatStart_begun ha hr hc
    have hkeep : Keep (Instr.parts .beatStart) s.dev s.dev.beatStart := by apply Dev.beatStart_keep (.refl _ _) <;> decide
    exact ⟨s.dev.beatStart, rfl, hkeep.only, Dev.beatStart_now ha hr hc, hrun, harmed, hn, hstart, hnext, Dev.beatStart_onTheWay ha hr hc⟩
  · obtain ⟨hnow, hrun, -, hn, hstart, hnext, hperiod⟩ := Dev.beatBoundary_begun hr hc
    have hkeep : Keep (Instr.parts .beatBoundary) s.dev s.dev.beatBoundary := by apply Dev.beatBoundary_keep (.refl _ _) <;> decide
    exact ⟨s.dev.beatBoundary, rfl, hkeep.only, hnow, hrun.trans hr, hn, hstart, hnext, hperiod⟩
  · have hslip := Dev.beatSlip_run hx.now
    exact ⟨s.dev.beatSlip x, rfl, (Dev.beatSlip_keep (.refl _ _) (by decide) (by decide) x).only, by rw [hslip]; rfl, by rw [hslip]; rfl⟩

end Sys2Proof.Machine
end

section
/-! One instruction of one BP (02_rooms.md R27 to R53): what its fetch, its checks, its token charge, the MRD word before it and its data-store
write are in a room that `Issues` it, and from these the statements about EVAL and MWR; and a delivery that passes into the next level (R59). -/

namespace Sys2Proof.Machine
open Sys2Proof

-- the data store of a BP

@[simp] theorem Bp.write_hist (p : Bp) (ah : Bool) (a : Nat) (m v : Lanes) (full : Bool) : (p.write ah a m v full).hist = p.hist := by
  unfold Bp.write
  repeat' split
  all_goals rfl

@[simp] theorem Bp.write_issued (p : Bp) (ah : Bool) (a : Nat) (m v : Lanes) (full : Bool) : (p.write ah a m v full).issued = p.issued := by
  unfold Bp.write
  repeat' split
  all_goals rfl

@[simp] theorem Bp.write_landing (p : Bp) (ah : Bool) (a : Nat) (m v : Lanes) (full : Bool) : (p.write ah a m v full).landing = p.landing := by
  unfold Bp.write
  repeat' split
  all_goals rfl

/-- A data-store write takes no notice of the MRD word on its way. -/
theorem Bp.write_without_landing (p : Bp) (ah : Bool) (a : Nat) (m v : Lanes) (full : Bool) :
    Bp.write { p with landing := none } ah a m v full = { p.write ah a m v full with landing := none } := by
  unfold Bp.write
  repeat' split
  all_goals rfl

theorem Bp.landed_of_none {p : Bp} (h : p.landing = none) (ah : Bool) : p.landed ah = p := by
  unfold Bp.landed
  rw [h]

theorem Bp.landed_of_some {p : Bp} {l : Landing} (h : p.landing = some l) (ah : Bool) :
    p.landed ah = { p.write ah l.dst l.mask l.word l.full with landing := none } := by
  unfold Bp.landed
  rw [h]

@[simp] theorem Bp.landed_hist (p : Bp) (ah : Bool) : (p.landed ah).hist = p.hist := by
  unfold Bp.landed
  split
  · rfl
  · exact p.write_hist ..

@[simp] theorem Bp.landed_issued (p : Bp) (ah : Bool) : (p.landed ah).issued = p.issued := by
  unfold Bp.landed
  split
  · rfl
  · exact p.write_issued ..

@[simp] theorem Bp.landed_landing (p : Bp) (ah : Bool) : (p.landed ah).landing = none := by
  unfold Bp.landed
  split
  · assumption
  · rfl

/-- A BP that no MRD word is on its way to. -/
theorem Bp.without_landing {p : Bp} (h : p.landing = none) : { p with landing := none } = p := by
  rw [← h]

-- a room's BPs

@[simp] theorem Room.bp_setBp_same (rm : Room) (b : Nat) (p : Bp) : (rm.setBp b p).bp b = p := Tbl.get_set_same _ _ _ _

theorem Room.bp_setBp_other (rm : Room) {b c : Nat} (p : Bp) (h : c ≠ b) : (rm.setBp b p).bp c = rm.bp c := Tbl.get_set_other _ _ _ _ _ h

theorem Room.land_of_none {rm : Room} {b : Nat} (h : (rm.bp b).landing = none) : rm.land b = rm := by
  unfold Room.land
  rw [h]

theorem Room.land_of_some {rm : Room} {b : Nat} {l : Landing} (h : (rm.bp b).landing = some l) :
    rm.land b = (rm.setBp b { rm.bp b with landing := none }).writeDs b l.dst l.mask l.word l.full := by
  unfold Room.land
  rw [h]

/-- `rm'` is `rm` but for its BP b, which is `p`. -/
structure Room.BpPut (rm rm' : Room) (b : Nat) (p : Bp) : Prop where
  own : rm'.bp b = p
  others : ∀ c, c ≠ b → rm'.bp c = rm.bp c
  rest : rm' = { rm with bps := rm'.bps }

theorem Room.BpPut.setBp (rm : Room) (b : Nat) (p : Bp) : rm.BpPut (rm.setBp b p) b p :=
  ⟨rm.bp_setBp_same b p, fun _ hc => rm.bp_setBp_other p hc, rfl⟩

theorem Room.BpPut.trans {rm rm' rm'' : Room} {b : Nat} {p q : Bp} (h : rm.BpPut rm' b p) (h' : rm'.BpPut rm'' b q) : rm.BpPut rm'' b q :=
  ⟨h'.own, fun c hc => (h'.others c hc).trans (h.others c hc), h'.rest.trans (congrArg (fun x : Room => { x with bps := rm''.bps }) h.rest)⟩

section
variable {rm : Room} (hds : rm.ueDs = [])
include hds

/-- Where no word is uncorrectable, a data-store write changes its BP alone (R488). -/
theorem Room.writeDs_clean (b a : Nat) (m v : Lanes) (full : Bool) :
    rm.writeDs b a m v full = rm.setBp b ((rm.bp b).write rm.ahead a m v full) := by
  have hue : (rm.setBp b ((rm.bp b).write rm.ahead a m v full)).ueDs = [] := hds
  unfold Room.writeDs
  dsimp only
  split
  · rw [hue, List.erase_nil, ← hue]
  · rfl

theorem Room.land_put (b : Nat) : rm.BpPut (rm.land b) b ((rm.bp b).landed rm.ahead) := by
  cases hl : (rm.bp b).landing with
  | none =>
    rw [Room.land_of_none hl, Bp.landed_of_none hl]
    exact ⟨rfl, fun _ _ => rfl, rfl⟩
  | some l =>
    rw [Room.land_of_some hl, Bp.landed_of_some hl, ← Bp.write_without_landing]
    refine (Room.BpPut.setBp rm b { rm.bp b with landing := none }).trans ?_
    rw [Room.writeDs_clean (rm := rm.setBp b { rm.bp b with landing := none }) hds, Room.bp_setBp_same]
    exact .setBp _ b _

theorem Room.writeDs_put (b a : Nat) (m v : Lanes) (full : Bool) :
    rm.BpPut (rm.writeDs b a m v full) b ((rm.bp b).write rm.ahead a m v full) := by
  rw [Room.writeDs_clean hds]
  exact .setBp rm b _

/-- An EVAL's write comes after the landing of the MRD word before it. -/
theorem Room.land_writeDs_put (b a : Nat) (m v : Lanes) (full : Bool) :
    rm.BpPut ((rm.land b).writeDs b a m v full) b (((rm.bp b).landed rm.ahead).write rm.ahead a m v full) := by
  have hland := Room.land_put hds b
  have hahead : (rm.land b).ahead = rm.ahead := by rw [hland.rest]
  have hue : (rm.land b).ueDs = [] := by rw [hland.rest]; exact hds
  have hput := Room.writeDs_put hue b a m v full
  rw [hland.own, hahead] at hput
  exact hland.trans hput

-- the checks of an instruction's reads

theorem Room.readsUe_clean (b a : Nat) : rm.readsUe b a = false := by
  unfold Room.readsUe
  rw [hds]
  simp

theorem Room.dataCheck_clean (b : Nat) (reads : List Nat) : rm.dataCheck b reads [] = (rm, false) := by
  unfold Room.dataCheck
  simp [Room.readsUe_clean hds]

theorem Room.operandU_clean (beat : Beat) (free b i : Nat) (op : BitVec 12) : rm.operandU beat free b i op = rm.operand beat b i op :=
  if_neg (by simp [Room.readsUe_clean hds])

theorem Room.predMaskU_clean (free b : Nat) (pred : BitVec 3) : rm.predMaskU free b pred = (rm.bp b).predMask pred :=
  if_neg (by simp [Room.readsUe_clean hds])

end

theorem Room.landPlanes_nil {rm : Room} (h : rm.planes = []) (k : Nat) : rm.landPlanes k = rm := by
  unfold Room.landPlanes
  rw [h]

theorem Room.fetch_clean {rm : Room} (h : rm.ueIm = []) (b i : Nat) : rm.fetch b i .ok = (rm, true) :=
  if_neg (by simp [h])

-- the token charge

/-- A room whose window of a step has `n` more tokens issued. -/
def Room.charged (rm : Room) (step n : Nat) : Room :=
  { rm with tokens := Tbl.set 0 rm.tokens (step / 64) (Tbl.get 0 rm.tokens (step / 64) + n) }

theorem Room.charge_within {rm : Room} {step n : Nat} (h : Tbl.get 0 rm.tokens (step / 64) + n ≤ rm.envelope.getD (step / 64) 0) :
    rm.charge step n = (rm.charged step n, false) := by
  have hle : ¬ rm.envelope.getD (step / 64) 0 < Tbl.get 0 rm.tokens (step / 64) + n := Nat.not_lt.mpr h
  unfold Room.charge Room.charged
  simp only [gt_iff_lt, hle, decide_false, Bool.or_false, and_false]

@[simp] theorem Room.operand_charged (rm : Room) (step n : Nat) (beat : Beat) (b i : Nat) (op : BitVec 12) :
    (rm.charged step n).operand beat b i op = rm.operand beat b i op := rfl

-- an issue

theorem Room.canIssue_idx {rm : Room} {b i : Nat} (h : rm.canIssue b = some i) : rm.idx = i := by
  unfold Room.canIssue at h
  split at h
  · exact Option.some.inj h
  · cases h

theorem Room.issue_rest (rm : Room) (b : Nat) (entry : Lanes) (l : Option Landing) :
    rm.issue b entry l =
      { rm with bps := (rm.issue b entry l).bps, idx := (rm.issue b entry l).idx, done := (rm.issue b entry l).done } := by
  unfold Room.issue
  dsimp only
  split <;> rfl

theorem Room.bps_issue (rm : Room) (b : Nat) (entry : Lanes) (l : Option Landing) : (rm.issue b entry l).bps =
    (rm.setBp b { rm.bp b with hist := (entry :: (rm.bp b).hist).take 65, issued := (rm.bp b).issued + 1, landing := l }).bps := by
  unfold Room.issue
  dsimp only
  split <;> rfl

theorem Room.step_issue (rm : Room) (b : Nat) (entry : Lanes) (l : Option Landing) : ((rm.issue b entry l).idx, (rm.issue b entry l).done) =
    if rm.done ||| (1#128 <<< b) = BitVec.allOnes 128 then (rm.idx + 1, 0) else (rm.idx, rm.done ||| (1#128 <<< b)) := by
  unfold Room.issue
  dsimp only
  exact apply_ite (fun x : Room => (x.idx, x.done)) _ _ _

/-- The record of an issue, on a room in which the instruction has left its BP as `p` (R28, R38). -/
theorem Room.BpPut.hasIssued {rm rm1 : Room} {b : Nat} {p : Bp} (h : rm.BpPut rm1 b p) (hhist : p.hist = (rm.bp b).hist)
    (hcount : p.issued = (rm.bp b).issued) (entry : Lanes) (l : Option Landing) :
    HasIssued rm (rm1.issue b entry l) b entry { p with landing := l } := by
  obtain ⟨own, others, rest⟩ := h
  have hbp (c : Nat) := congrArg (fun bps : Tbl Bp => Tbl.get {} bps c) (rm1.bps_issue b entry l)
  refine ⟨?_, ?_, fun c hc => ?_⟩
  · rw [← hhist, ← hcount, ← own]
    exact (hbp b).trans (rm1.bp_setBp_same b _)
  · rw [Room.step_issue, rest]
  · exact (hbp c).trans ((rm1.bp_setBp_other _ hc).trans (others c hc))

theorem Room.BpPut.issue_rest {rm rm1 : Room} {b : Nat} {p : Bp} (h : rm.BpPut rm1 b p) (entry : Lanes) (l : Option Landing) :
    rm1.issue b entry l =
      { rm with bps := (rm1.issue b entry l).bps, idx := (rm1.issue b entry l).idx, done := (rm1.issue b entry l).done } :=
  (rm1.issue_rest b entry l).trans (congrArg
    (fun y : Room => { y with bps := (rm1.issue b entry l).bps, idx := (rm1.issue b entry l).idx, done := (rm1.issue b entry l).done }) h.rest)

/-- `HasIssued` speaks of the BPs and the step of the room before the issue alone. -/
theorem Room.hasIssued_of_same {rm rm0 rm' : Room} {b : Nat} {entry : Lanes} {p : Bp} (h : HasIssued rm0 rm' b entry p)
    (hbps : rm0.bps = rm.bps) (hidx : rm0.idx = rm.idx) (hdone : rm0.done = rm.done) : HasIssued rm rm' b entry p := by
  have hbp (c : Nat) : rm0.bp c = rm.bp c := by rw [Room.bp, hbps]; rfl
  obtain ⟨own, step, others⟩ := h
  rw [hidx, hdone] at step
  rw [hbp] at own
  exact ⟨own, step, fun c hc => (others c hc).trans (hbp c)⟩

theorem Room.ueDs_of_issues {rm : Room} {b i n : Nat} {k : BitVec 3} (h : Issues rm b i n k) : rm.ueDs = [] := by
  obtain ⟨-, -, ⟨-, -, hds, -⟩, -⟩ := h
  exact hds

/-- What an issue makes of what its instruction gives: the room, the history entry, the MRD word it puts on its way. -/
def Issued.recorded (x : Issued × Lanes × Option Landing) (b : Nat) : Issued := { x.1 with room := x.1.room.issue b x.2.1 x.2.2 }

/-- Without an upset, an instruction that issues acts on the room with its tokens charged (R26, R131). -/
theorem Room.runKind_issues {rm : Room} {b i n : Nat} {k : BitVec 3} (h : Issues rm b i n k)
    (act : Room → Nat → Insn → Issued × Lanes × Option Landing) :
    rm.runKind b k {} n act = Issued.recorded (act (rm.charged (rm.issueStep i) n) i (rm.insnAt b i)) b := by
  obtain ⟨hnow, hkind, ⟨hplanes, him, -, -⟩, hbudget⟩ := h
  unfold Room.runKind
  rw [hnow]
  dsimp only
  rw [if_neg (not_not_intro hkind), Room.landPlanes_nil hplanes, Room.fetch_clean him, Room.charge_within hbudget]
  simp only [Bool.not_true, Bool.false_eq_true, if_false, Bool.or_false, Issued.recorded]

/-- The result q of the instruction that BP b issues at index i, from its four operands (R27, R40). -/
def Room.result (rm : Room) (beat : Beat) (b i : Nat) : Lanes :=
  let x := rm.insnAt b i
  laneOp x.lop x.larg (evalTT x.tt (rm.operand beat b i x.opa).word (rm.operand beat b i x.opb).word (rm.operand beat b i x.opc).word
    (rm.operand beat b i x.opd).word)

theorem Room.evaluate_clean {rm : Room} (hds : rm.ueDs = []) (beat : Beat) (free b i : Nat) (x : Insn) (lop : BitVec 4) (larg : BitVec 6) :
    rm.evaluate beat free b i x lop larg =
      (rm.noteReads [rm.operand beat b i x.opa, rm.operand beat b i x.opb, rm.operand beat b i x.opc, rm.operand beat b i x.opd],
        laneOp lop larg (evalTT x.tt (rm.operand beat b i x.opa).word (rm.operand beat b i x.opb).word (rm.operand beat b i x.opc).word
          (rm.operand beat b i x.opd).word)) := by
  simp only [Room.evaluate, Room.operandU_clean hds]

/-- A room of which the instruction at index i has read operands, with its tokens charged: absent reads counted, a missed bound noted (R47, R76,
R131). -/
def Room.reading (rm : Room) (i n : Nat) (ops : List OpRead) : Room := (rm.charged (rm.issueStep i) n).noteReads ops

theorem Room.ueDs_reading {rm : Room} {b i n : Nat} {k : BitVec 3} (h : Issues rm b i n k) (ops : List OpRead) : (rm.reading i n ops).ueDs = [] :=
  show rm.ueDs = [] from Room.ueDs_of_issues h

/-- What an EVAL leaves of its BP but for the issue's record: the MRD word before it has landed, and q stands at DST in the lanes that the predicate
gave before that (log entry 125). -/
def Room.evalLeaves (rm : Room) (beat : Beat) (b i : Nat) : Bp :=
  let x := rm.insnAt b i
  ((rm.bp b).landed rm.ahead).write rm.ahead x.dst.toNat ((rm.bp b).predMask x.pred) (rm.result beat b i) (x.pred = 0)

/-- The operands that the EVAL of BP b at index i reads. -/
def Room.evalReads (rm : Room) (beat : Beat) (b i : Nat) : List OpRead :=
  let x := rm.insnAt b i
  [rm.operand beat b i x.opa, rm.operand beat b i x.opb, rm.operand beat b i x.opc, rm.operand beat b i x.opd]

theorem Room.eval_eq {rm : Room} {b i : Nat} (h : Issues rm b i 1 0) (beat : Beat) (free : Nat) : rm.eval beat free b {} =
    { room := (((rm.reading i 1 (rm.evalReads beat b i)).land b).writeDs b (rm.insnAt b i).dst.toNat ((rm.bp b).predMask (rm.insnAt b i).pred)
        (rm.result beat b i) ((rm.insnAt b i).pred = 0)).issue b (rm.result beat b i) none } := by
  have hds : rm.ueDs = [] := Room.ueDs_of_issues h
  unfold Room.eval
  rw [Room.runKind_issues h, Room.dataCheck_clean (rm := rm.charged _ _) hds]
  dsimp only
  rw [Room.evaluate_clean (rm := rm.charged _ _) hds]
  dsimp only
  rw [Room.predMaskU_clean (rm := (rm.charged _ _).noteReads _) hds]
  simp only [Room.operand_charged]
  rfl

/-- What EVAL leaves of the room. -/
theorem Room.eval_issues {rm : Room} {b i : Nat} (h : Issues rm b i 1 0) (beat : Beat) (free : Nat) : ∃ rm',
    rm.eval beat free b {} = { room := rm' } ∧ HasIssued rm rm' b (rm.result beat b i) (rm.evalLeaves beat b i) ∧
    rm' = { rm with bps := rm'.bps, idx := rm'.idx, done := rm'.done, cnt := rm'.cnt, missed := rm'.missed, tokens := rm'.tokens } := by
  let x := rm.insnAt b i
  let q := rm.result beat b i
  let rd := rm.reading i 1 (rm.evalReads beat b i)
  let wr := (rd.land b).writeDs b x.dst.toNat ((rm.bp b).predMask x.pred) q (x.pred = 0)
  have hput : rd.BpPut wr b (rm.evalLeaves beat b i) := Room.land_writeDs_put (Room.ueDs_reading h _) b _ _ _ _
  have hissued : HasIssued rd (wr.issue b q none) b q { rm.evalLeaves beat b i with landing := none } :=
    hput.hasIssued ((Bp.write_hist ..).trans (Bp.landed_hist ..)) ((Bp.write_issued ..).trans (Bp.landed_issued ..)) q none
  rw [Bp.without_landing (p := rm.evalLeaves beat b i) ((Bp.write_landing ..).trans (Bp.landed_landing ..))] at hissued
  exact ⟨wr.issue b q none, Room.eval_eq h beat free, Room.hasIssued_of_same hissued rfl rfl rfl, by rw [hput.issue_rest]; rfl⟩

-- MWR

/-- The bank that an MRD or MWR names, and whether it takes its address from operand A (R50). -/
def Insn.bank (x : Insn) : Nat := (x.larg.extractLsb' 0 5).toNat
def Insn.byWord (x : Insn) : Bool := x.larg.getLsbD 5

/-- The entries that the beat has queued (R53, R92). -/
def Room.queued (rm : Room) : Nat := if rm.ahead then rm.wqAhead.length else rm.wq.length

/-- The write position of an instruction's bank. -/
def Room.writePos (rm : Room) (x : Insn) : Nat := Tbl.get 0 rm.wpos x.bank

/-- The entry that the MWR of BP b at index i queues (R50, R53). -/
def Room.mwrEntry (rm : Room) (beat : Beat) (b i : Nat) : MwrEntry :=
  let x := rm.insnAt b i
  let addr := if x.byWord then ((rm.operand beat b i x.opa).word.extractLsb' 0 11).toNat
              else (setupBase (rm.setup x.bank) + rm.writePos x) % 2048
  { bank := BitVec.ofNat 5 x.bank, addr := BitVec.ofNat 11 addr, data := (rm.operand beat b i x.opb).word,
    mask := (rm.bp b).predMask x.pred, full := x.pred = 0 }

/-- A room whose MWR `x` has entry `e` to queue: the write position moves on, the peak is noted, and the entry joins the queue of the beat, or
overflows it and faults the beat (R50, R53, R62, R65). -/
def Room.enqueue (rm : Room) (x : Insn) (e : MwrEntry) : Room :=
  { rm with
    wpos := if x.byWord then rm.wpos else Tbl.set 0 rm.wpos x.bank (nextPos (rm.setup x.bank) (rm.writePos x))
    mwrPeak := BitVec.ofNat 9 (max rm.mwrPeak.toNat (rm.queued + 1))
    wq := if 256 ≤ rm.queued ∨ rm.ahead then rm.wq else rm.wq ++ [e]
    wqAhead := if rm.queued < 256 ∧ rm.ahead then rm.wqAhead ++ [e] else rm.wqAhead
    faulted := if 256 ≤ rm.queued then true else rm.faulted
    ovfCur := if 256 ≤ rm.queued then true else rm.ovfCur }

theorem Room.bankAddr_write (rm : Room) (bank : Nat) (byWord : Bool) (opa : Lanes) : rm.bankAddr bank byWord opa true =
    ({ rm with wpos := if byWord then rm.wpos else Tbl.set 0 rm.wpos bank (nextPos (rm.setup bank) (Tbl.get 0 rm.wpos bank)) },
      if byWord then (opa.extractLsb' 0 11).toNat else (setupBase (rm.setup bank) + Tbl.get 0 rm.wpos bank) % 2048) := by
  cases byWord <;> rfl

/-- `Room.enqueue` is the model's case split over a full queue and run-ahead. -/
theorem Room.enqueue_eq_ite (rm : Room) (x : Insn) (e : MwrEntry) : rm.enqueue x e =
    (let moved := { rm with
        wpos := if x.byWord then rm.wpos else Tbl.set 0 rm.wpos x.bank (nextPos (rm.setup x.bank) (rm.writePos x))
        mwrPeak := BitVec.ofNat 9 (max rm.mwrPeak.toNat (rm.queued + 1)) }
     if 256 ≤ rm.queued then { moved.fault false with ovfCur := true }
     else if rm.ahead then { moved with wqAhead := rm.wqAhead ++ [e] } else { moved with wq := rm.wq ++ [e] }) := by
  unfold Room.enqueue
  by_cases hfull : 256 ≤ rm.queued
  · simp [hfull, Room.fault]
  · cases hahead : rm.ahead <;> simp [hfull, Nat.lt_of_not_le hfull]

/-- The operands that the MWR of BP b at index i reads; operand A only for its address. -/
def Room.mwrReads (rm : Room) (beat : Beat) (b i : Nat) : List OpRead :=
  let x := rm.insnAt b i
  [if x.byWord then rm.operand beat b i x.opa else { word := 0 }, rm.operand beat b i x.opb]

theorem Room.mwr_eq {rm : Room} {b i : Nat} (h : Issues rm b i 1 3) (beat : Beat) (free : Nat) : rm.mwr beat free b {} =
    { room := (((rm.reading i 1 (rm.mwrReads beat b i)).land b).enqueue (rm.insnAt b i) (rm.mwrEntry beat b i)).issue b 0 none
      report := 256 ≤ rm.queued } := by
  have hds : rm.ueDs = [] := Room.ueDs_of_issues h
  have hrest := (Room.land_put (Room.ueDs_reading h (rm.mwrReads beat b i)) b).rest
  unfold Room.mwr
  rw [Room.runKind_issues h]
  extract_lets byWord bank
  rw [Room.dataCheck_clean (rm := rm.charged _ _) hds]
  dsimp -zeta only
  extract_lets +onlyGivenNames ra rb m L entry
  have hra : ra = if byWord then rm.operand beat b i (rm.insnAt b i).opa else { word := 0 } := by
    rw [← Room.operand_charged rm (rm.issueStep i) 1, ← Room.operandU_clean (rm := rm.charged _ _) hds beat free]
  have hrb : rb = rm.operand beat b i (rm.insnAt b i).opb := Room.operandU_clean (rm := rm.charged _ _) hds ..
  have hm : m = (rm.bp b).predMask (rm.insnAt b i).pred := Room.predMaskU_clean (rm := rm.charged _ _) hds ..
  have hL : L = (rm.reading i 1 (rm.mwrReads beat b i)).land b := by
    unfold L
    rw [hra, hrb]
    rfl
  have hqueued : L.queued = rm.queued := by rw [hL, hrest]; rfl
  have hentry : entry = rm.mwrEntry beat b i := by
    unfold entry
    rw [Room.bankAddr_write, hL, hrest, hrb, hm, hra]
    -- where the address comes from operand A, that is the operand read
    refine congrArg (fun a => ({ bank := _, addr := BitVec.ofNat 11 a, data := _, mask := _, full := _ } : MwrEntry))
      (ite_congr rfl (fun hw => ?_) fun _ => rfl)
    rw [if_pos hw]
  rw [← hL, ← hqueued, ← hentry, Room.bankAddr_write, Room.enqueue_eq_ite]
  clear_value L ra rb m entry
  simp only [Issued.recorded, Bool.false_or, decide_eq_true_eq, Bool.false_eq_true, if_false]
  rfl

/-- What MWR leaves of the room. -/
theorem Room.mwr_issues {rm : Room} {b i : Nat} (h : Issues rm b i 1 3) (beat : Beat) (free : Nat) : ∃ rm' : Room,
    rm.mwr beat free b {} = { room := rm', report := 256 ≤ rm.queued } ∧
    HasIssued rm rm' b 0 { (rm.bp b).landed rm.ahead with landing := none } ∧
    rm' = { rm.enqueue (rm.insnAt b i) (rm.mwrEntry beat b i) with
      bps := rm'.bps, idx := rm'.idx, done := rm'.done, cnt := rm'.cnt, missed := rm'.missed, tokens := rm'.tokens } := by
  let x := rm.insnAt b i
  let e := rm.mwrEntry beat b i
  let rd := rm.reading i 1 (rm.mwrReads beat b i)
  have hland : rd.BpPut (rd.land b) b ((rm.bp b).landed rm.ahead) := Room.land_put (Room.ueDs_reading h _) b
  have hput : (rd.enqueue x e).BpPut ((rd.land b).enqueue x e) b ((rm.bp b).landed rm.ahead) := by
    refine ⟨hland.own, hland.others, ?_⟩
    rw [hland.rest]
    rfl
  have hissued := hput.hasIssued (Bp.landed_hist ..) (Bp.landed_issued ..) 0 none
  exact ⟨((rd.land b).enqueue x e).issue b 0 none, Room.mwr_eq h beat free, Room.hasIssued_of_same hissued rfl rfl rfl,
    by rw [hput.issue_rest]; rfl⟩

-- an issue that sends nothing, on the device

theorem Dev.room_setRoom_same (d : Dev) (r : RoomId) (x : Room) : (d.setRoom r x).room r = x := Tbl.get_set_same _ _ _ _

theorem Dev.setRoom_otherRooms (d : Dev) (r : RoomId) (x : Room) : OtherRooms r d (d.setRoom r x) :=
  fun _ hq => Tbl.get_set_other _ _ _ _ _ fun h => hq (BitVec.eq_of_toNat_eq h)

theorem Dev.take_zero (d : Dev) : d.take 0 = d := rfl

/-- An issue with no report and no word sent changes its room, and the function whose migration logs it. -/
theorem Dev.issue_quiet (d : Dev) (r : RoomId) (b : Nat) {o : Issued} {rm' : Room} (ho : o = { room := rm' }) :
    Only [.rooms, .funcs] d (d.issue r b o) ∧ (d.issue r b o).room r = rm' ∧ OtherRooms r d (d.issue r b o) := by
  subst ho
  have hset : Keep [.rooms, .funcs] d (d.setRoom r rm') := Dev.setRoom_keep (.refl _ _) (by decide) r rm'
  unfold Dev.issue
  simp only [Dev.take_zero, Bool.false_eq_true, if_false]
  cases seedItem (d.room r) rm' b with
  | none => exact ⟨hset.only, d.room_setRoom_same r rm', d.setRoom_otherRooms r rm'⟩
  | some x => exact ⟨(Dev.logSeed_keep hset (by decide) r x).only, d.room_setRoom_same r rm', d.setRoom_otherRooms r rm'⟩

/-- An issue that reports a fault and adds nothing to a migration's log. -/
theorem Dev.issue_report {d : Dev} {r : RoomId} {b : Nat} {rm' : Room} (hseed : seedItem (d.room r) rm' b = none) :
    d.issue r b { room := rm', report := true } = (d.setRoom r rm').raiseRoom r 0 := by
  unfold Dev.issue
  rw [hseed]
  rfl

/-- An MWR that overflows the queue leaves nothing for a migration's log. -/
theorem seedItem_none {was now : Room} {b : Nat} (hwq : now.wq = was.wq) (hahead : now.wqAhead = was.wqAhead)
    (hkind : (was.insnAt b was.idx).kind = 3) : seedItem was now b = none := by
  unfold seedItem
  simp [hwq, hahead, hkind]

/-- Settles O5: an EVAL that issues changes its room as `Room.eval_issues` says, and adds at most its state word to a migration's log. -/
theorem evalWritesItsResult : Obligations.EvalWritesItsResult := by
  intro s r b i h
  obtain ⟨rm', heval, hissued, hrest⟩ := Room.eval_issues h s.dev.time.n s.dev.free
  obtain ⟨honly, hroom, hothers⟩ := s.dev.issue_quiet r b.toNat heval
  refine ⟨_, rfl, honly, ?_⟩
  dsimp only
  rw [hroom]
  exact ⟨hissued, hothers, hrest⟩

/-- Settles O8: the two clauses are the two branches of `Room.enqueue`; an overflow alone reports, and leaves nothing for a migration's log. -/
theorem mwrQueuesItsWrite : Obligations.MwrQueuesItsWrite := by
  intro s r b i rm x bank pos w addr e n left h
  obtain ⟨rm', hmwr, hissued, hrest⟩ := Room.mwr_issues h s.dev.time.n s.dev.free
  have hwq : rm'.wq = if 256 ≤ n ∨ rm.ahead then rm.wq else rm.wq ++ [e] := by rw [hrest]; rfl
  have hwqAhead : rm'.wqAhead = if n < 256 ∧ rm.ahead then rm.wqAhead ++ [e] else rm.wqAhead := by rw [hrest]; rfl
  have hfaulted : rm'.faulted = if 256 ≤ n then true else rm.faulted := by rw [hrest]; rfl
  have hovf : rm'.ovfCur = if 256 ≤ n then true else rm.ovfCur := by rw [hrest]; rfl
  have hleft : left rm' := ⟨hissued, by rw [hrest]; rfl, by rw [hrest]; rfl, by rw [hrest]; rfl⟩
  refine ⟨fun hfits => ?_, fun hfull => ?_⟩
  · have hnot : ¬ 256 ≤ n := Nat.not_le.mpr hfits
    simp only [hnot, hfits, false_or, true_and, if_false] at hwq hwqAhead hfaulted hovf
    rw [decide_eq_false (p := 256 ≤ rm.queued) hnot] at hmwr
    obtain ⟨honly, hroom, hothers⟩ := s.dev.issue_quiet r b.toNat hmwr
    refine ⟨_, rfl, honly, ?_⟩
    dsimp only
    rw [hroom]
    exact ⟨hleft, hothers, hfaulted, hovf, hwq, hwqAhead⟩
  · have hnot : ¬ n < 256 := Nat.not_lt.mpr hfull
    simp only [hnot, hfull, true_or, false_and, if_true, if_false] at hwq hwqAhead hfaulted hovf
    rw [decide_eq_true (p := 256 ≤ rm.queued) hfull] at hmwr
    have hkind : (rm.insnAt b.toNat rm.idx).kind = 3 := Room.canIssue_idx h.now ▸ h.kind
    have hissue := Dev.issue_report (d := s.dev) (b := b.toNat) (seedItem_none hwq hwqAhead hkind)
    rw [← hmwr] at hissue
    have hroom : ((s.dev.setRoom r rm').raiseRoom r 0).room r = rm' := s.dev.room_setRoom_same r rm'
    refine ⟨(s.dev.setRoom r rm').raiseRoom r 0, by rw [← hissue]; rfl,
      (Dev.raiseRoom_keep (Dev.setRoom_keep (.refl _ _) (by decide) r rm') (by decide) r 0).only, ?_⟩
    dsimp only
    rw [hroom]
    exact ⟨hleft, s.dev.setRoom_otherRooms r rm', hfaulted, hovf, hwq, hwqAhead, _, rfl, rfl, rfl⟩

-- a slice's oldest result

/-- A room of three levels of one instruction each, in the wait of the second (steps 7 to 13). Its slice 2 delivers to slots 0 to 2 a result of step
0 with three planes: the last is due at step 14, the first of the third level. -/
def deliveringRoom : Room :=
  { phase := .run, levels := [(1, 0), (1, 0), (1, 0)], passes := 1, level := 1, idx := 2,
    sliceDesc := [(2, BitVec.ofNat 128 (2 ^ 31 + 2 ^ 40 + 3 * 2 ^ 41))]
    slices := [(2, { pipe := [{ t := 0, planes := [1, 1, 1], clamped := 0 }] })] }

/-- A device whose room 3 is `deliveringRoom`. -/
def deliveringState : State := { State.reset with dev := { State.reset.dev with rooms := [(3, deliveringRoom)] } }

/-- Refutes O11: the planes of a delivery stand at the level of their own step, as R49 compares words, and not all at the level in which the result
becomes ready: plane 2 of `deliveringState` stands at level 2, where the statement says level 1. -/
theorem not_sliceResultsLeaveThePipeline : ¬ Obligations.SliceResultsLeaveThePipeline := by
  intro h
  obtain ⟨d, hexec, -, -, -, -, hplanes⟩ := h deliveringState 3 2 { t := 0, planes := [1, 1, 1], clamped := 0 } [] (by decide)
  have hd : deliveringState.dev.modRoom 3 (·.sliceReady 3 2) = d := congrArg State.dev (Host.Outcome.next.inj hexec)
  rw [← hd] at hplanes
  exact absurd hplanes (by decide)

end Sys2Proof.Machine
end

section
/-! What an operation leaves of the network and of the functions (03_beat_and_commit.md R84 to R90; 05_corridors_and_stairs.md R148, R150;
13_control_cores_and_observation.md R396): a message on its way and a trace packet change the retry buffers alone, and the arbiter's decision changes
its function alone. -/

namespace Sys2Proof.Machine
open Sys2Proof

-- parts that stand

section
variable {ps : List Part} {d e : Dev}

theorem Keep.room_eq (h : Keep ps d e) (hp : .rooms ∉ ps) (r : RoomId) : e.room r = d.room r :=
  congrArg (fun t : Tbl Room => Tbl.get ({} : Room) t r.toNat) (h.rooms.resolve_left hp)

theorem Keep.otherRooms (h : Keep ps d e) (hp : .rooms ∉ ps) (r : RoomId) : OtherRooms r d e := fun q _ => h.room_eq hp q

end

theorem otherRooms_trans {r : RoomId} {c d e : Dev} (h : OtherRooms r c d) (h' : OtherRooms r d e) : OtherRooms r c e :=
  fun q hq => (h' q hq).trans (h q hq)

/-- The parts that a trace packet can change (R396). -/
abbrev traceParts : List Part := [.free, .events, .net, .cellar, .cores, .strong]

theorem Dev.trace_parts (d : Dev) (kind src : Nat) (func : FuncId) (info : Nat) (beat : Beat) (ts : Instant) :
    Keep traceParts d (d.trace kind src func info beat ts) := by
  apply Dev.trace_keep (.refl _ _) <;> decide

-- messages and the retry buffers

/-- A network that is `n` but for the state of its links, of which the same are down (R148). -/
structure Net.SameButRetry (m n : Net) : Prop where
  rest : m = { n with links := m.links }
  down : ∀ k, (Tbl.get ({} : LinkState) m.links k).down = (Tbl.get ({} : LinkState) n.links k).down

theorem Net.carry_down (net : Net) (src dst : Node) (flits : Bool → List (BitVec 256)) (k : Nat) :
    (Tbl.get ({} : LinkState) (net.carry src dst flits).links k).down = (Tbl.get ({} : LinkState) net.links k).down := by
  unfold Net.carry
  dsimp only
  generalize net.links = t
  induction net.channels src dst generalizing t with
  | nil => rfl
  | cons c cs ih =>
    rw [List.foldl_cons, ih, Tbl.modify]
    by_cases hk : k = c.1
    · rw [hk, Tbl.get_set_same]
    · rw [Tbl.get_set_other _ _ _ _ _ hk]

theorem Net.carry_sameButRetry (net : Net) (src dst : Node) (flits : Bool → List (BitVec 256)) : (net.carry src dst flits).SameButRetry net :=
  ⟨rfl, net.carry_down src dst flits⟩

section
variable {l m n : Net}

theorem Net.SameButRetry.refl (n : Net) : n.SameButRetry n := ⟨rfl, fun _ => rfl⟩

theorem Net.SameButRetry.of_eq (h : m = n) : m.SameButRetry n := h ▸ .refl m

theorem Net.SameButRetry.trans (h : l.SameButRetry m) (h' : m.SameButRetry n) : l.SameButRetry n :=
  ⟨h.rest.trans (congrArg (fun x : Net => { x with links := l.links }) h'.rest), fun k => (h.down k).trans (h'.down k)⟩

/-- The ways are the same, and so the messages that wait for a ring's hold (R150). -/
theorem Net.SameButRetry.heldTo (h : m.SameButRetry n) (x : Recipient) : m.heldTo x = n.heldTo x := by
  have hholds : m.holds = n.holds := by rw [h.rest]
  cases x with
  | hub f => rfl
  | room r =>
    have hway : m.way (.hub 0) (.room r) = n.way (.hub 0) (.room r) := by simp only [Net.way, Net.ringWay, h.down]
    simp only [Net.heldTo, Net.heldOn, hway, hholds]

theorem Net.SameButRetry.sendDecs (h : m.SameButRetry n) (x : List (Recipient × Decision)) : (m.sendDecs x).SameButRetry (n.sendDecs x) := by
  refine ⟨?_, h.down⟩
  unfold Net.sendDecs
  simp only [h.heldTo]
  rw [h.rest]

end

theorem Net.sendDecs_nil (net : Net) : net.sendDecs [] = net := by
  simp [Net.sendDecs]

theorem Net.votes_sendDecs (net : Net) (l : List (Recipient × Decision)) : (net.sendDecs l).votes = net.votes := rfl

/-- Where a message to a recipient stands once it has left the arbiter: with those that wait, or on its way (R150). -/
def Net.decsTo (net : Net) (waits : Bool) : List (Recipient × Decision) := if waits then net.heldDecs else net.decs

theorem Net.decsTo_sendDecs (net : Net) (l : List (Recipient × Decision)) (waits : Bool) :
    (net.sendDecs l).decsTo waits = net.decsTo waits ++ l.filter fun x => net.heldTo x.1 == waits := by
  cases waits <;> simp [Net.decsTo, Net.sendDecs]

-- a trace packet

section
variable {d e : Dev}

theorem Keep.net_eq {ps : List Part} (h : Keep ps d e) (hp : .net ∉ ps) : e.net = d.net := h.net.resolve_left hp

theorem Dev.carryTrace_net (d : Dev) (src : Nat) (ts : Instant) : (d.carryTrace src ts).net.SameButRetry d.net := by
  unfold Dev.carryTrace
  split
  · exact Net.carry_sameButRetry ..
  · exact .refl _

theorem Dev.streamPacket_net (d : Dev) (i : Nat) (bs : Bytes) : (d.streamPacket i bs).net = d.net :=
  Keep.net_eq (ps := [.free, .events, .cellar, .cores, .strong]) (by apply Dev.streamPacket_keep (.refl _ _) <;> decide) (by decide)

theorem Dev.flushTrace_net (d : Dev) : d.flushTrace.net.SameButRetry d.net := by
  refine Dev.each_induct (P := fun e => e.net.SameButRetry d.net) (.refl _) fun e p h => ?_
  exact (Net.SameButRetry.of_eq (Dev.streamPacket_net ..)).trans ((e.carryTrace_net p.2.1 p.1).trans h)

theorem Dev.trace_net (d : Dev) (kind src : Nat) (func : FuncId) (info : Nat) (beat : Beat) (ts : Instant) :
    (d.trace kind src func info beat ts).net.SameButRetry d.net := by
  unfold Dev.trace
  dsimp only
  split <;> exact d.flushTrace_net

end

-- the functions

theorem Dev.id_of_func? {d : Dev} {i : FuncId} {f : Func} (h : d.func? i = some f) : f.id = i := by
  simpa using List.find?_some h

/-- What a change of one function that keeps its ID leaves at every ID. -/
theorem Dev.func?_modFunc {g : Func → Func} (hg : ∀ x, (g x).id = x.id) (d : Dev) (i j : FuncId) :
    (d.modFunc i g).func? j = (d.func? j).map fun x => if x.id = i then g x else x := by
  have hid : ((fun x : Func => x.id == j) ∘ fun x : Func => if x.id = i then g x else x) = fun x => x.id == j := by
    funext x
    simp only [Function.comp_apply, apply_ite Func.id, hg, ite_self]
  unfold Dev.func? Dev.modFunc
  rw [List.find?_map, hid]

theorem Dev.func?_modFunc_same {g : Func → Func} (hg : ∀ x, (g x).id = x.id) {d : Dev} {i : FuncId} {f : Func} (h : d.func? i = some f) :
    (d.modFunc i g).func? i = some (g f) := by
  rw [Dev.func?_modFunc hg, h, Option.map_some, if_pos (Dev.id_of_func? h)]

theorem Dev.func?_modFunc_other {g : Func → Func} (hg : ∀ x, (g x).id = x.id) (d : Dev) {i j : FuncId} (h : j ≠ i) :
    (d.modFunc i g).func? j = d.func? j := by
  rw [Dev.func?_modFunc hg]
  cases hf : d.func? j with
  | none => rfl
  | some f => rw [Option.map_some, if_neg fun hi => h ((Dev.id_of_func? hf).symm.trans hi)]

-- the arbiter's decision

/-- The decision that the arbiter takes now (R88 to R90). -/
def Dev.decisionOf (d : Dev) (f : Func) : Decision :=
  { func := f.id, beat := d.time.n, commit := d.causeOf f d.time.n == 0, cause := BitVec.ofNat 4 (d.causeOf f d.time.n) }

/-- A decision with its recipients: the rooms of the function and of its migration, and the hub units (R90). -/
def Func.sends (f : Func) (x : Decision) : List (Recipient × Decision) :=
  (f.rooms ++ (match f.migration with | some m => m.places.map (·.room) | none => [])).map (fun r => (Recipient.room r, x)) ++ [(Recipient.hub f.id, x)]

/-- The function once a decision of its beat is taken, kept for rooms that vote LATE (R149). -/
def Func.takes (f : Func) (x : Decision) : Func := { f with decided := some x, past := (x :: f.past).take 64 }

/-- What a decision leaves of the functions and of the network (R88 to R90, R149, R150). -/
theorem Dev.decideNow_leaves (d : Dev) (f : Func) : (d.decideNow f).funcs = (d.modFunc f.id (·.takes (d.decisionOf f))).funcs ∧
    (d.decideNow f).net.SameButRetry (d.net.sendDecs (f.sends (d.decisionOf f))) := by
  unfold Dev.decideNow
  extract_lets n cause x rooms d1 d2 d3 d4
  have keepsMismatch : Keep [.events] d d1 :=
    Dev.each_keep (.refl _ _) fun _ _ h => Dev.each_keep h fun _ _ h => Dev.raiseRoom_keep h (by decide) _ _
  have hfuncs1 : d1.funcs = d.funcs := keepsMismatch.funcs.resolve_left (by decide)
  have hnet1 : d1.net = d.net := keepsMismatch.net_eq (by decide)
  have keepsSent : Keep [.out, .events, .link] d3 d4 :=
    Dev.each_keep (.refl _ _) fun _ _ h => Dev.sendDecision_keep h (by decide) (by decide) (by decide) _ _
  have hnet4 : d4.net = d.net.sendDecs (f.sends x) := (keepsSent.net_eq (by decide)).trans (congrArg (Net.sendDecs · (f.sends x)) hnet1)
  have keepsTrace := d4.trace_parts 2 1024 f.id (bit x.commit 0 + cause * 16) n d4.now
  refine ⟨?_, (Dev.trace_net ..).trans (.of_eq hnet4)⟩
  rw [keepsTrace.funcs.resolve_left (by decide), keepsSent.funcs.resolve_left (by decide)]
  exact congrArg (List.map fun g : Func => if g.id = f.id then g.takes x else g) hfuncs1

/-- A function after the arbiter may have decided its beat: only the decision is new, and the list of those kept for rooms that vote LATE. -/
def Func.SameButDecision (f g : Func) : Prop := g = { f with decided := g.decided, past := g.past }

/-- The arbiter decides or waits. -/
theorem Dev.tryDecide_cases (d : Dev) (id : FuncId) (deadline : Bool) :
    d.tryDecide id deadline = d ∨ ∃ f, d.func? id = some f ∧ d.tryDecide id deadline = d.decideNow f := by
  unfold Dev.tryDecide
  cases hf : d.func? id with
  | none => exact .inl rfl
  | some f =>
    dsimp only
    split
    · exact .inl rfl
    · split
      · exact .inr ⟨f, rfl, rfl⟩
      · exact .inl rfl

theorem Dev.tryDecide_net (d : Dev) (id : FuncId) (deadline : Bool) :
    ∃ l, (d.tryDecide id deadline).net.SameButRetry (d.net.sendDecs l) := by
  obtain h | ⟨f, -, h⟩ := d.tryDecide_cases id deadline
  · exact ⟨[], .of_eq (by rw [h, Net.sendDecs_nil])⟩
  · exact ⟨_, h ▸ (d.decideNow_leaves f).2⟩

theorem Dev.func?_decideNow (d : Dev) (f : Func) (i : FuncId) :
    (d.decideNow f).func? i = (d.modFunc f.id (·.takes (d.decisionOf f))).func? i :=
  congrArg (List.find? fun x : Func => x.id == i) (d.decideNow_leaves f).1

theorem Dev.func?_tryDecide {d : Dev} {i : FuncId} {g : Func} (h : d.func? i = some g) (id : FuncId) (deadline : Bool) :
    ∃ g', (d.tryDecide id deadline).func? i = some g' ∧ g.SameButDecision g' := by
  obtain hd | ⟨f, -, hd⟩ := d.tryDecide_cases id deadline
  · exact ⟨g, by rw [hd, h], rfl⟩
  · rw [hd, Dev.func?_decideNow]
    by_cases hi : i = f.id
    · exact ⟨g.takes (d.decisionOf f), hi ▸ Dev.func?_modFunc_same (g := (·.takes (d.decisionOf f))) (fun _ => rfl) h, rfl⟩
    · exact ⟨g, by rw [Dev.func?_modFunc_other (g := (·.takes _)) (fun _ => rfl) _ hi, h], rfl⟩

/-- At its vote deadline a running function's open beat is decided (R87). -/
theorem Dev.tryDecide_deadline {d : Dev} {id : FuncId} {f : Func} (h : d.func? id = some f) (hphase : f.phase = .admitted)
    (hopen : f.decided = none) (hsince : f.since ≤ d.time.n) (hhalted : d.halted = false) : d.tryDecide id true = d.decideNow f := by
  have hwaits : ¬ (f.phase ≠ .admitted ∨ f.decided.isSome = true ∨ d.time.n < f.since ∨ d.halted = true) := by
    simp [hphase, hopen, hhalted, BitVec.not_lt.2 hsince]
  unfold Dev.tryDecide
  rw [h]
  dsimp only
  rw [if_neg hwaits, if_pos (.inl rfl)]

end Sys2Proof.Machine
end

section
/-! The arbiter's cause and what reaches the arbiter (03_beat_and_commit.md R77, R84 to R90, R149). -/

namespace Sys2Proof.Machine
open Sys2Proof

-- the causes of R89's table

theorem Dev.ordered_or_isolated (d : Dev) (f : Func) :
    (f.ordered = true ∨ d.isolated f = true) ↔ f.ordered = true ∨ ∃ p ∈ f.places, (d.room p.room).isolated = true :=
  or_congr_right List.any_eq_true

theorem Func.any_status (f : Func) (p : BitVec 3 → Bool) : (f.votes.map (·.status)).any p = true ↔ ∃ v ∈ f.votes, p v.status = true := by
  rw [List.any_map, List.any_eq_true]
  rfl

theorem Func.any_fault (f : Func) :
    (f.votes.map (·.status)).any (fun s => s == 1 || decide (4 ≤ s.toNat)) = true ↔ ∃ v ∈ f.votes, v.status = 1 ∨ 4 ≤ v.status.toNat := by
  simp only [Func.any_status, Bool.or_eq_true, beq_iff_eq, decide_eq_true_eq]

theorem Func.any_status_eq (f : Func) (k : BitVec 3) : (f.votes.map (·.status)).any (· == k) = true ↔ ∃ v ∈ f.votes, v.status = k := by
  simp only [Func.any_status, beq_iff_eq]

theorem Func.not_allVoted (f : Func) : (!f.allVoted) = true ↔ ∃ p ∈ f.places, ∀ v ∈ f.votes, v.room ≠ p.room := by
  simp only [Func.allVoted, Bool.not_eq_true', List.all_eq_false, Bool.not_eq_true, List.any_eq_false, beq_iff_eq, ne_eq]

theorem Func.not_allVerdicts (f : Func) : (!f.allVerdicts) = true ↔ ∃ c ∈ f.critical, ∀ v ∈ f.verdicts, v.1 ≠ c := by
  simp only [Func.allVerdicts, Bool.not_eq_true', List.all_eq_false, Bool.not_eq_true, List.any_eq_false, beq_iff_eq, ne_eq]

theorem Func.restart_differs (f : Func) :
    (f.votes.any (·.restart) = true ∧ f.votes.any (fun v => !v.restart) = true) ↔ ∃ v ∈ f.votes, ∃ w ∈ f.votes, v.restart ≠ w.restart := by
  simp only [List.any_eq_true, Bool.not_eq_true']
  constructor
  · rintro ⟨⟨v, hv, htrue⟩, w, hw, hfalse⟩
    exact ⟨v, hv, w, hw, by rw [htrue, hfalse]; decide⟩
  · rintro ⟨v, hv, w, hw, hne⟩
    cases h : v.restart with
    | true => exact ⟨⟨v, hv, h⟩, w, hw, Bool.eq_false_iff.2 fun h' => hne (h.trans h'.symm)⟩
    | false => exact ⟨⟨w, hw, by simpa [h] using hne⟩, v, hv, h⟩

theorem Func.any_verdict_failed (f : Func) :
    f.verdicts.any (fun v => !v.2 && decide (v.1 ∈ f.critical)) = true ↔ ∃ v ∈ f.verdicts, v.2 = false ∧ v.1 ∈ f.critical := by
  simp only [List.any_eq_true, Bool.and_eq_true, Bool.not_eq_true', decide_eq_true_eq]

theorem any_not_committed (l : List (Option Bool)) : l.any (fun x => x != some true) = true ↔ ∃ x ∈ l, x ≠ some true := by
  simp only [List.any_eq_true, bne_iff_ne]

/-- Settles O15: the arbiter's checks are R89's table row by row, and `Dev.decideNow_leaves` says what the decision leaves. -/
theorem arbiterDecidesWithTheFirstCause : Obligations.ArbiterDecidesWithTheFirstCause := by
  intro s id f hf hphase hopen hsince hhalted
  obtain rfl : f.id = id := Dev.id_of_func? hf
  refine completes_of_run (f := fun d => d.tryDecide f.id true) rfl (Dev.tryDecide_deadline hf hphase hopen hsince hhalted)
    (by apply Dev.decideNow_keep (.refl _ _) <;> decide) ?_
  extract_lets cause x rooms sent
  have hcause : s.dev.causeOf f s.dev.time.n = cause :=
    if_congr (s.dev.ordered_or_isolated f) rfl <|
    if_congr f.any_fault rfl <|
    if_congr (f.any_status_eq 3) rfl <|
    if_congr (or_congr f.not_allVoted f.not_allVerdicts) rfl <|
    if_congr f.restart_differs rfl <|
    if_congr (f.any_status_eq 2) rfl <|
    if_congr f.any_verdict_failed rfl <|
    if_congr (by simp) rfl <|
    if_congr Iff.rfl rfl <|
    if_congr (any_not_committed _) rfl rfl
  have hx : s.dev.decisionOf f = x := by
    unfold Dev.decisionOf
    rw [hcause]
  have hleaves := s.dev.decideNow_leaves f
  rw [hx] at hleaves
  refine ⟨hleaves.2.rest, ?_⟩
  rw [Dev.func?_decideNow, hx]
  exact Dev.func?_modFunc_same (g := (·.takes x)) (fun _ => rfl) hf

end Sys2Proof.Machine
end

section
/-! What reaches the arbiter: votes, verdicts of streams and decisions of other devices (03_beat_and_commit.md R77, R84 to R88, R149). -/

namespace Sys2Proof.Machine
open Sys2Proof

-- a vote

/-- A function after its migration's votes are compared (R336): only its migration has changed. -/
theorem Dev.func?_checkMigration {d : Dev} {i : FuncId} {f : Func} (h : d.func? i = some f) :
    ∃ m, (d.checkMigration i).func? i = some { f with migration := m } := by
  unfold Dev.checkMigration
  rw [Dev.func?_modFunc_same ?_ h]
  · exact ⟨_, rfl⟩
  · exact fun _ => rfl

/-- The arbiter's function with one vote more (R87): none once the beat is decided. -/
def Func.withVote (f : Func) (v : Vote) : Func := if f.decided.isSome then f else { f with votes := f.votes ++ [v] }

theorem Func.id_withVote (v : Vote) (f : Func) : (f.withVote v).id = f.id := by
  unfold Func.withVote
  split <;> rfl

theorem Func.withVote_open {f : Func} (h : f.decided = none) (v : Vote) : f.withVote v = { f with votes := f.votes ++ [v] } := by
  unfold Func.withVote
  rw [h]
  rfl

/-- The arbiter has taken the vote for the beat: a LATE one is answered, of another one the beat is noted (R87, R149). -/
def Dev.votedBy (d : Dev) (r : RoomId) (v : Vote) (f : Func) : Dev :=
  let e := d.putNet { d.net.carry (.room r) (.hub 0) (evtFlits (.room r) (.hub 0) v.beat v.restart 1 v.payload) with votes := d.net.votes.erase v }
  if v.status = 3 then e.putNet (e.net.sendDecs ((f.resend v).map fun x => (Recipient.room r, x)))
  else e.modFunc f.id fun f => { f with lastVote := Tbl.insert f.lastVote r.toNat v.beat }

theorem Dev.vote_current {d : Dev} {r : RoomId} {v : Vote} {f : Func} (hv : d.net.votes.find? (·.room == r) = some v)
    (hf : d.func? v.func = some f) (hbeat : v.beat = d.time.n) (hplace : f.places.any (·.room == r) = true) :
    Dev.vote r d = (((d.votedBy r v f).modFunc f.id (·.withVote v)).checkMigration f.id).tryDecide f.id false := by
  unfold Dev.vote
  split
  case h_1 hnone => exact absurd (hv.symm.trans hnone) nofun
  case h_2 v' hsome =>
    obtain rfl : v = v' := Option.some.inj (hv.symm.trans hsome)
    extract_lets e
    split
    case h_1 hnone => exact absurd (hf.symm.trans hnone) nofun
    case h_2 f' hsome' =>
      obtain rfl : f = f' := Option.some.inj (hf.symm.trans hsome')
      extract_lets again e'
      have hbeat' : ¬ v.beat ≠ e'.time.n := by
        have htime : e'.time = d.time := by
          unfold e'
          split <;> rfl
        exact not_not_intro (hbeat.trans (congrArg TimeUnit.n htime.symm))
      exact (if_neg hbeat').trans (if_pos hplace)

/-- A LATE vote alone is answered (R149). -/
def Func.answers (f : Func) (r : RoomId) (v : Vote) : List (Recipient × Decision) :=
  if v.status = 3 then (f.resend v).map fun x => (Recipient.room r, x) else []

theorem Dev.votedBy_net (d : Dev) (r : RoomId) (v : Vote) (f : Func) :
    (d.votedBy r v f).net.SameButRetry (({ d.net with votes := d.net.votes.erase v } : Net).sendDecs (f.answers r v)) := by
  have hcarried := Net.carry_sameButRetry { d.net with votes := d.net.votes.erase v } (.room r) (.hub 0)
    (evtFlits (.room r) (.hub 0) v.beat v.restart 1 v.payload)
  unfold Dev.votedBy Func.answers
  dsimp only
  split
  · exact hcarried.sendDecs _
  · rw [Net.sendDecs_nil]
    exact hcarried

theorem Dev.func?_votedBy {d : Dev} {v : Vote} {f : Func} (r : RoomId) (hf : d.func? v.func = some f) :
    ∃ t, (d.votedBy r v f).func? v.func = some { f with lastVote := t } ∧ (v.status ≠ 3 → Tbl.get 0 t r.toNat = v.beat) := by
  unfold Dev.votedBy
  dsimp only
  split
  · next hlate => exact ⟨f.lastVote, hf, fun h => absurd hlate h⟩
  · refine ⟨Tbl.insert f.lastVote r.toNat v.beat, ?_, fun _ => Tbl.get_insert_same _ _ _ _⟩
    have hid : f.id = v.func := Dev.id_of_func? hf
    rw [← hid] at hf ⊢
    exact Dev.func?_modFunc_same (g := fun f => { f with lastVote := Tbl.insert f.lastVote r.toNat v.beat }) (fun _ => rfl) hf

/-- What the arbiter's function holds after a vote of its open beat. -/
theorem Dev.func?_vote {d : Dev} {r : RoomId} {v : Vote} {f : Func} (hv : d.net.votes.find? (·.room == r) = some v)
    (hf : d.func? v.func = some f) (hbeat : v.beat = d.time.n) (hplace : f.places.any (·.room == r) = true) (hopen : f.decided = none) :
    ∃ g, (Dev.vote r d).func? v.func = some g ∧ g.votes = f.votes ++ [v] ∧ (v.status ≠ 3 → Tbl.get 0 g.lastVote r.toNat = v.beat) := by
  rw [Dev.vote_current hv hf hbeat hplace, Dev.id_of_func? hf]
  obtain ⟨t, hvoted, ht⟩ := Dev.func?_votedBy r hf
  have hwith := Dev.func?_modFunc_same (Func.id_withVote v) hvoted
  rw [Func.withVote_open (f := { f with lastVote := t }) hopen] at hwith
  obtain ⟨m, hm⟩ := Dev.func?_checkMigration hwith
  obtain ⟨g, hg, hsame⟩ := Dev.func?_tryDecide hm v.func false
  exact ⟨g, hg, by rw [hsame], by rw [hsame]; exact ht⟩

/-- What a vote of its open beat leaves of the network: the vote is gone, a LATE one is answered, and the arbiter may decide. -/
theorem Dev.vote_net {d : Dev} {r : RoomId} {v : Vote} {f : Func} (hv : d.net.votes.find? (·.room == r) = some v)
    (hf : d.func? v.func = some f) (hbeat : v.beat = d.time.n) (hplace : f.places.any (·.room == r) = true) :
    ∃ l, (Dev.vote r d).net.SameButRetry ((({ d.net with votes := d.net.votes.erase v } : Net).sendDecs (f.answers r v)).sendDecs l) := by
  rw [Dev.vote_current hv hf hbeat hplace]
  obtain ⟨l, hl⟩ := Dev.tryDecide_net (((d.votedBy r v f).modFunc f.id (·.withVote v)).checkMigration f.id) f.id false
  exact ⟨l, hl.trans ((d.votedBy_net r v f).sendDecs l)⟩

theorem Func.mem_resend {f : Func} {v : Vote} {x : Decision} (hx : x ∈ f.past) (hfrom : Tbl.get 0 f.lastVote v.room.toNat ≤ x.beat)
    (hto : x.beat < v.beat) : x ∈ f.resend v :=
  List.mem_filter.2 ⟨List.mem_reverse.2 hx, decide_eq_true ⟨hfrom, hto⟩⟩

theorem completes_vote {s : State} {r : RoomId} {v : Vote} {f : Func} (hv : s.dev.net.votes.find? (·.room == r) = some v)
    (hf : s.dev.func? v.func = some f) (hbeat : v.beat = s.dev.time.n) (hplace : f.places.any (·.room == r) = true) (hopen : f.decided = none) :
    Completes (.vote r) s [.free, .out, .events, .funcs, .net, .cellar, .link, .cores, .strong, .hub] fun d =>
      d.net.votes = s.dev.net.votes.erase v ∧
      (∃ g, d.func? v.func = some g ∧ g.votes = f.votes ++ [v] ∧ (v.status ≠ 3 → Tbl.get 0 g.lastVote r.toNat = v.beat)) ∧
      (v.status = 3 → ∀ x ∈ f.past, Tbl.get 0 f.lastVote v.room.toNat ≤ x.beat → x.beat < v.beat →
        (Recipient.room r, x) ∈ d.net.decsTo (s.dev.net.heldOn (.hub 0) (.room r))) := by
  obtain ⟨l, hnet⟩ := Dev.vote_net hv hf hbeat hplace
  refine completes_of_run rfl rfl (by apply Dev.vote_keep (.refl _ _) <;> decide) ⟨?_, Dev.func?_vote hv hf hbeat hplace hopen, ?_⟩
  · rw [hnet.rest, Net.votes_sendDecs, Net.votes_sendDecs]
  · intro hlate x hx hfrom hto
    have hanswer : (Recipient.room r, x) ∈ f.answers r v := by
      unfold Func.answers
      rw [if_pos hlate]
      exact List.mem_map_of_mem (Func.mem_resend hx hfrom hto)
    have hdecs : (Dev.vote r s.dev).net.decsTo (s.dev.net.heldOn (.hub 0) (.room r)) =
        ((({ s.dev.net with votes := s.dev.net.votes.erase v } : Net).sendDecs (f.answers r v)).sendDecs l).decsTo
          (s.dev.net.heldOn (.hub 0) (.room r)) := by
      rw [hnet.rest]
      rfl
    rw [hdecs, Net.decsTo_sendDecs, Net.decsTo_sendDecs]
    exact List.mem_append_left _ (List.mem_append_right _ (List.mem_filter.2 ⟨hanswer, beq_self_eq_true _⟩))

-- a stream's verdict

/-- The arbiter's function with the verdict of a stream (R88): the one verdict that it holds of the stream, unless the beat is decided. -/
def Func.withVerdict (f : Func) (st : StreamRef) (passes : Bool) : Func :=
  if f.decided.isSome then f else { f with verdicts := f.verdicts.filter (fun v => v.1 != st) ++ [(st, passes)] }

theorem Func.id_withVerdict (st : StreamRef) (passes : Bool) (f : Func) : (f.withVerdict st passes).id = f.id := by
  unfold Func.withVerdict
  split <;> rfl

theorem Func.verdicts_withVerdict {f : Func} (h : f.decided = none) (st : StreamRef) (passes : Bool) :
    (f.withVerdict st passes).verdicts = f.verdicts.filter (fun v => v.1 != st) ++ [(st, passes)] := by
  unfold Func.withVerdict
  rw [h]
  rfl

theorem Dev.verdict_current {d : Dev} {st : StreamRef} {fl : StreamFlight} (hfl : d.cellar.flights.find? (fun x => x.st == st && x.delivered) = some fl)
    (hbeat : fl.beat = d.time.n) (hatt : fl.att = d.streamAtt st) : Dev.verdict st d =
      ((d.modCellar fun c => { c with flights := c.flights.erase fl }).modFunc st.func (·.withVerdict st fl.verdict.passes)).tryDecide st.func false := by
  unfold Dev.verdict
  rw [hfl]
  exact if_neg (not_or.2 ⟨not_not_intro hbeat, not_not_intro hatt⟩)

theorem Dev.func?_verdict {d : Dev} {st : StreamRef} {fl : StreamFlight} {f : Func}
    (hfl : d.cellar.flights.find? (fun x => x.st == st && x.delivered) = some fl) (hf : d.func? st.func = some f)
    (hbeat : fl.beat = d.time.n) (hatt : fl.att = d.streamAtt st) (hopen : f.decided = none) :
    ∃ g, (Dev.verdict st d).func? st.func = some g ∧ g.verdicts = f.verdicts.filter (fun v => v.1 != st) ++ [(st, fl.verdict.passes)] := by
  rw [Dev.verdict_current hfl hbeat hatt]
  obtain ⟨g, hg, hsame⟩ := Dev.func?_tryDecide (Dev.func?_modFunc_same (Func.id_withVerdict st fl.verdict.passes)
    (d := d.modCellar fun c => { c with flights := c.flights.erase fl }) hf) st.func false
  exact ⟨g, hg, by rw [hsame]; exact Func.verdicts_withVerdict hopen st _⟩

-- the decision of a REMOTE sender

/-- A function that a decision of a sender on another device reaches (R77): it is kept, and may be the last that the arbiter waited for. -/
def Dev.takeRemote (x : BitVec 11 × FuncId × Beat × Bool) (d : Dev) (g : FuncId) : Dev :=
  (d.modFunc g fun f => { f with remote := (x :: f.remote).take 64 }).tryDecide g false

/-- The device holds the function, and the sender's decision for it. -/
def Dev.HasRemote (d : Dev) (g : FuncId) (x : BitVec 11 × FuncId × Beat × Bool) : Prop := ∃ f, d.func? g = some f ∧ x ∈ f.remote

section
variable {d : Dev} {g : FuncId} {f : Func} (x : BitVec 11 × FuncId × Beat × Bool)

theorem Dev.takeRemote_same (hf : d.func? g = some f) : (d.takeRemote x g).HasRemote g x := by
  obtain ⟨f', hf', hsame⟩ := Dev.func?_tryDecide
    (Dev.func?_modFunc_same (g := fun f => { f with remote := (x :: f.remote).take 64 }) (fun _ => rfl) hf) g false
  exact ⟨f', hf', by rw [hsame]; exact List.mem_cons_self⟩

theorem Dev.takeRemote_other (hf : d.func? g = some f) {i : FuncId} (h : g ≠ i) :
    ∃ f', (d.takeRemote x i).func? g = some f' ∧ f'.remote = f.remote := by
  have hmod : (d.modFunc i fun f => { f with remote := (x :: f.remote).take 64 }).func? g = some f := by
    rw [Dev.func?_modFunc_other _ _ h, hf]
    exact fun _ => rfl
  obtain ⟨f', hf', hsame⟩ := Dev.func?_tryDecide hmod i false
  exact ⟨f', hf', by rw [hsame]⟩

theorem Dev.takeRemote_keeps (h : d.HasRemote g x) (i : FuncId) : (d.takeRemote x i).HasRemote g x := by
  obtain ⟨f, hf, hx⟩ := h
  by_cases hi : g = i
  · exact hi ▸ Dev.takeRemote_same x hf
  · obtain ⟨f', hf', hremote⟩ := Dev.takeRemote_other x hf hi
    exact ⟨f', hf', hremote ▸ hx⟩

/-- The decision reaches every function of the list. -/
theorem Dev.each_takeRemote {l : List FuncId} (hg : g ∈ l) (hf : d.func? g = some f) : (d.each l (Dev.takeRemote x)).HasRemote g x := by
  induction l generalizing d f with
  | nil => cases hg
  | cons i l ih =>
    by_cases hi : g = i
    · exact Dev.each_induct (P := (Dev.HasRemote · g x)) (d := d.takeRemote x i) (hi ▸ Dev.takeRemote_same x hf)
        fun _ j h => Dev.takeRemote_keeps x h j
    · obtain ⟨f', hf', -⟩ := Dev.takeRemote_other x hf hi
      exact ih ((List.mem_cons.1 hg).resolve_left hi) hf'

end

theorem Dev.mem_remoteFuncs {d : Dev} {x : RemoteDep} (hx : x ∈ d.link.deps) :
    x.func ∈ ((d.link.deps.filter fun y => y.dev == x.dev && y.sender == x.sender).map (·.func)).eraseDups :=
  List.mem_eraseDups.2 (List.mem_map_of_mem (List.mem_filter.2 ⟨hx, by simp⟩))

/-- Settles O14: each clause is what the message's own command leaves of the function, and of the network for a LATE vote. -/
theorem arbiterTakesVotesAndVerdicts : Obligations.ArbiterTakesVotesAndVerdicts := by
  refine ⟨fun s r v f hv hf hbeat hplace hopen => completes_vote hv hf hbeat hplace hopen, fun s st fl f hfl hf hbeat hatt hopen => ?_, ?_⟩
  · obtain ⟨g, hg, hverdicts⟩ := Dev.func?_verdict hfl hf hbeat hatt hopen
    refine completes_of_run rfl rfl (by apply Dev.verdict_keep (.refl _ _) <;> decide) ⟨g, hg, ?_, ?_⟩
    · rw [hverdicts]
      exact List.mem_append_right _ (List.mem_singleton_self _)
    · intro v hv hst
      rw [hverdicts] at hv
      rcases List.mem_append.1 hv with hold | hnew
      · exact absurd hst (bne_iff_ne.1 (List.mem_filter.1 hold).2)
      · rw [List.mem_singleton.1 hnew]
  · rintro s _ _ _ beat commit x f hx rfl rfl rfl hf
    exact completes_of_run rfl rfl (by apply Dev.remoteDecision_keep (.refl _ _) <;> decide)
      (Dev.each_takeRemote (x.dev, x.sender, beat, commit) (Dev.mem_remoteFuncs hx) hf)

end Sys2Proof.Machine
end

section
/-! The end of a level (02_rooms.md R42, R59; 03_beat_and_commit.md R71, R72, R75, R84 to R86): what landing words leave of the room, and the next
level, the next pass or the room's VOTE. -/

namespace Sys2Proof.Machine
open Sys2Proof

-- words that land

/-- `rm'` is `rm` but for what words change that land in its data stores and its window (R42, R59). -/
def Room.Landed (rm rm' : Room) : Prop :=
  rm' = { rm with bps := rm'.bps, ueDs := rm'.ueDs, win := rm'.win, planes := rm'.planes, cnt := rm'.cnt }

theorem Room.Landed.trans {a b c : Room} (h : a.Landed b) (h' : b.Landed c) : a.Landed c :=
  Eq.trans h' (congrArg (fun x : Room => { x with bps := c.bps, ueDs := c.ueDs, win := c.win, planes := c.planes, cnt := c.cnt }) h)

theorem Room.Landed.foldl {α : Type} {f : Room → α → Room} (hf : ∀ (rm : Room) (a : α), rm.Landed (f rm a)) (l : List α) (rm : Room) :
    rm.Landed (l.foldl f rm) := by
  induction l generalizing rm with
  | nil => rfl
  | cons a l ih => exact (hf rm a).trans (ih _)

theorem Room.writeDs_landed (rm : Room) (b a : Nat) (mask new : Lanes) (full : Bool) : rm.Landed (rm.writeDs b a mask new full) := by
  unfold Room.writeDs
  extract_lets rm1
  have hput : rm.Landed rm1 := rfl
  clear_value rm1
  refine hput.trans ?_
  split <;> rfl

theorem Room.land_landed (rm : Room) (b : Nat) : rm.Landed (rm.land b) := by
  unfold Room.land
  split
  · rfl
  · exact Room.Landed.trans (b := rm.setBp b _) rfl (Room.writeDs_landed ..)

theorem Room.landAll_landed (rm : Room) : rm.Landed rm.landAll := .foldl (fun rm b => rm.land_landed b) _ rm

theorem Room.writeSlot_landed (rm : Room) (n : Nat) (next : Bool) (w : WinWord) : rm.Landed (rm.writeSlot n next w) := by
  unfold Room.writeSlot
  extract_lets s old clash wins rm1
  have hcount : rm.Landed rm1 := iteInduction (motive := rm.Landed) (fun _ => rfl) fun _ => rfl
  clear_value rm1
  refine hcount.trans ?_
  split
  · rfl
  · split <;> rfl

theorem Room.landAllPlanes_landed (rm : Room) : rm.Landed rm.landAllPlanes :=
  Room.Landed.trans (b := { rm with planes := [] }) rfl (.foldl (fun rm (x : Nat × WinWord) => rm.writeSlot_landed x.1 false x.2) _ _)

theorem Room.allLanded (rm : Room) : rm.Landed rm.landAll.landAllPlanes := rm.landAll_landed.trans rm.landAll.landAllPlanes_landed

section
variable (rm : Room)

@[simp] theorem Room.level_landAll : rm.landAll.level = rm.level := by rw [rm.landAll_landed]

@[simp] theorem Room.levels_landAll : rm.landAll.levels = rm.levels := by rw [rm.landAll_landed]

@[simp] theorem Room.pass_allLanded : rm.landAll.landAllPlanes.pass = rm.pass := by rw [rm.allLanded]

@[simp] theorem Room.passes_allLanded : rm.landAll.landAllPlanes.passes = rm.passes := by rw [rm.allLanded]

@[simp] theorem Room.phase_allLanded : rm.landAll.landAllPlanes.phase = rm.phase := by rw [rm.allLanded]

@[simp] theorem Room.voteStatus_allLanded : rm.landAll.landAllPlanes.voteStatus = rm.voteStatus := by
  unfold Room.voteStatus
  rw [rm.allLanded]

end

/-- The room at its end step (R84): every word has landed, and the beat has ended. -/
def Room.ended (rm : Room) : Room := { rm.landAll.landAllPlanes with phase := .ended }

/-- A room at its end step sends the VOTE that it would have sent before, with the CRC of all its results. -/
theorem Room.vote_ended (rm : Room) (r : RoomId) (n : Beat) (status : BitVec 3) :
    rm.ended.vote r n status = { rm.vote r n status with crc := rm.ended.crc } := by
  have hlanded := rm.allLanded
  unfold Room.vote Room.ended
  generalize rm.landAll.landAllPlanes = landed at hlanded ⊢
  rw [hlanded]

-- a pass that starts

theorem Room.bps_passStart {rm : Room} {e : Nat × Bp} (h : e ∈ rm.passStart.bps) : e.2.hist = [] ∧ e.2.issued = 0 ∧ e.2.landing = none := by
  obtain ⟨-, x, -, rfl⟩ := Tbl.mem_mapAll _ _ _ _ h
  exact ⟨rfl, rfl, rfl⟩

theorem Room.slices_passStart {rm : Room} {e : Nat × Slice} (h : e ∈ rm.passStart.slices) :
    e.2.acc = [] ∧ e.2.accOvf = 0 ∧ e.2.xs = [] ∧ e.2.ys = [] ∧ e.2.adds = [] ∧ e.2.queue = [] := by
  obtain ⟨-, x, -, rfl⟩ := Tbl.mem_mapAll _ _ _ _ h
  exact ⟨rfl, rfl, rfl, rfl, rfl, rfl⟩

section
variable (d : Dev) (r : RoomId)

theorem Dev.room_passStart : (d.passStart r).room r = (d.room r).passStart :=
  ((Dev.trace_parts ..).room_eq (by decide) r).trans (d.room_setRoom_same r _)

theorem Dev.passStart_otherRooms : OtherRooms r d (d.passStart r) :=
  otherRooms_trans (d.setRoom_otherRooms r _) ((Dev.trace_parts ..).otherRooms (by decide) r)

theorem Dev.passStart_net : (d.passStart r).net.SameButRetry d.net := Dev.trace_net ..

-- the room's VOTE

theorem Net.sendVote_eq (net : Net) (v : Vote) : net.sendVote v = { net with
    votes := if net.heldOn (.room v.room) (.hub 0) then net.votes else net.votes ++ [v]
    heldVotes := if net.heldOn (.room v.room) (.hub 0) then net.heldVotes ++ [v] else net.heldVotes } := by
  unfold Net.sendVote
  split <;> rfl

theorem Dev.sendVote_net (status : BitVec 3) :
    (d.sendVote r status).net.SameButRetry (d.net.sendVote ((d.room r).vote r d.time.n status)) := Dev.trace_net ..

theorem Dev.sendVote_parts (status : BitVec 3) : Keep traceParts d (d.sendVote r status) := by
  apply Dev.sendVote_keep (.refl _ _) <;> decide

end

-- the end of a level

section
variable {d : Dev} {r : RoomId} (hrun : (d.room r).phase = .run) (hend : (d.room r).idx = levelEnd (d.room r).levels (d.room r).level)
include hrun hend

theorem Dev.levelWaitEnd_level (h : (d.room r).level + 1 < (d.room r).levels.length) :
    Dev.levelWaitEnd r d = d.setRoom r { (d.room r).landAll with level := (d.room r).level + 1 } := by
  rw [← Room.level_landAll]
  exact (if_neg (not_or.2 ⟨not_not_intro hrun, not_not_intro hend⟩)).trans (if_pos (by simpa using h))

theorem Dev.levelWaitEnd_last (h : (d.room r).levels.length ≤ (d.room r).level + 1) : let rm := (d.room r).landAll.landAllPlanes
    Dev.levelWaitEnd r d = if rm.pass + 1 < rm.passes then (d.setRoom r { rm with pass := rm.pass + 1 }).passStart r
      else ((d.setRoom r { rm with phase := .ended }).sendVote r rm.voteStatus).logSeed r
        (.mark rm.rpos rm.wpos ((rm.slotEntry.filter fun (_, w) => w.toNat / 2 ^ 14 == 2).map fun (k, _) => (k, (rm.slot k).good))) := by
  exact (if_neg (not_or.2 ⟨not_not_intro hrun, not_not_intro hend⟩)).trans (if_neg (by simpa using h))

theorem Dev.levelWaitEnd_pass (h : (d.room r).levels.length ≤ (d.room r).level + 1) (hmore : (d.room r).pass + 1 < (d.room r).passes) :
    Dev.levelWaitEnd r d = (d.setRoom r { (d.room r).landAll.landAllPlanes with pass := (d.room r).pass + 1 }).passStart r := by
  rw [← Room.pass_allLanded]
  exact (Dev.levelWaitEnd_last hrun hend h).trans (if_pos (by simpa using hmore))

theorem Dev.levelWaitEnd_vote (h : (d.room r).levels.length ≤ (d.room r).level + 1) (hdone : (d.room r).passes ≤ (d.room r).pass + 1) :
    ∃ item, Dev.levelWaitEnd r d = ((d.setRoom r (d.room r).ended).sendVote r (d.room r).voteStatus).logSeed r item := by
  rw [← Room.voteStatus_allLanded]
  exact ⟨_, (Dev.levelWaitEnd_last hrun hend h).trans (if_neg (by simpa using hdone))⟩

end

/-- What the room's VOTE leaves (R84): the room has ended its beat, and the vote is on its way or waits for a ring's hold (R150). -/
theorem Dev.vote_leaves (d : Dev) (r : RoomId) (rm : Room) (status : BitVec 3) (item : SeedItem) :
    let e := ((d.setRoom r rm).sendVote r status).logSeed r item
    Keep [.free, .events, .rooms, .funcs, .net, .cellar, .cores, .strong] d e ∧ e.room r = rm ∧ OtherRooms r d e ∧
      e.net.SameButRetry (d.net.sendVote (rm.vote r d.time.n status)) := by
  intro e
  have hvote : Keep traceParts (d.setRoom r rm) ((d.setRoom r rm).sendVote r status) := Dev.sendVote_parts ..
  have hlog : Keep [.funcs] ((d.setRoom r rm).sendVote r status) e := Dev.logSeed_keep (.refl _ _) (by decide) r item
  have hroom (q : RoomId) : e.room q = (d.setRoom r rm).room q := (hlog.room_eq (by decide) q).trans (hvote.room_eq (by decide) q)
  have hnet := Dev.sendVote_net (d.setRoom r rm) r status
  rw [d.room_setRoom_same r rm] at hnet
  refine ⟨?_, (hroom r).trans (d.room_setRoom_same r rm), fun q hq => (hroom q).trans (d.setRoom_otherRooms r rm q hq),
    (Net.SameButRetry.of_eq (hlog.net_eq (by decide))).trans hnet⟩
  apply Dev.logSeed_keep (Dev.sendVote_keep (Dev.setRoom_keep (.refl _ _) (by decide) r rm) _ _ _ _ _ _ _ _) <;> decide

/-- Settles O10: the three ends of a level are the three branches of `Dev.levelWaitEnd`, and landing words (`Room.Landed`) decide none of them. -/
theorem levelsPassesAndVote : Obligations.LevelsPassesAndVote := by
  intro s r rm hrun hend
  refine ⟨fun hnext => ?_, fun hlast hmore => ?_, fun hlast hdone => ?_⟩
  · exact completes_of_run rfl (Dev.levelWaitEnd_level hrun hend hnext) (Dev.setRoom_keep (.refl _ _) (by decide) _ _)
      ⟨s.dev.room_setRoom_same r _, s.dev.setRoom_otherRooms r _⟩
  · refine completes_of_run rfl (Dev.levelWaitEnd_pass hrun hend hlast hmore)
      (by apply Dev.passStart_keep (Dev.setRoom_keep (.refl _ _) (by decide) _ _) <;> decide) ?_
    dsimp only
    rw [Dev.room_passStart, Dev.room_setRoom_same]
    exact ⟨(Dev.passStart_net ..).rest, rfl, rfl, rfl, rfl, rm.phase_allLanded.trans hrun, fun e he => (Room.bps_passStart he).imp_right And.left,
      fun e he => Room.slices_passStart he, otherRooms_trans (s.dev.setRoom_otherRooms r _) (Dev.passStart_otherRooms _ r)⟩
  · obtain ⟨item, hvote⟩ := Dev.levelWaitEnd_vote hrun hend hlast hdone
    obtain ⟨hkeep, hroom, hothers, hnet⟩ := s.dev.vote_leaves r rm.ended rm.voteStatus item
    rw [Room.vote_ended, Net.sendVote_eq] at hnet
    refine completes_of_run rfl hvote hkeep ?_
    dsimp only
    rw [hroom]
    exact ⟨rfl, hothers, hnet.rest⟩

end Sys2Proof.Machine
end

section
/-! A decision at its recipients (03_beat_and_commit.md R81 to R83, R90 to R96, R99): what a room and the hub units take of it, and what a restart
leaves. -/

namespace Sys2Proof.Machine
open Sys2Proof

-- a decision in a room

theorem Room.applyQueue_rest (rm : Room) : rm.applyQueue = { rm with bank := rm.applyQueue.bank, ueBm := rm.applyQueue.ueBm } := by
  refine List.foldlRecOn (motive := fun x : Room => x = { rm with bank := x.bank, ueBm := x.ueBm }) rm.wq _ rfl fun x h e _ => ?_
  dsimp only
  rw [h]

theorem Room.decide_held {rm : Room} {x : Decision} (hnew : x ∉ rm.decisions) (hopen : rm.undecided = none) :
    rm.decide x.beat x = { rm with decisions := rm.decisions ++ [x] } := by
  unfold Room.decide
  rw [if_neg hnew, hopen]
  exact if_pos rfl

section
variable {rm : Room} {x : Decision} (hnew : x ∉ rm.decisions) (hbeat : rm.undecided = some x.beat) (hstalled : rm.phase ≠ .stalled)
  (hahead : rm.ahead = true) (n : Beat)
include hnew hbeat hstalled hahead

theorem Room.decide_ahead : rm.decide n x =
    if x.commit then { rm.applyCommit x.beat rm.urpos rm.uwpos with ahead := false, undecided := none } else rm.restart := by
  unfold Room.decide
  rw [if_neg hnew, hbeat]
  exact if_pos ⟨hstalled, hahead, rfl⟩

theorem Room.decide_commit (hc : x.commit = true) :
    rm.decide n x = { rm.applyCommit x.beat rm.urpos rm.uwpos with ahead := false, undecided := none } :=
  (Room.decide_ahead hnew hbeat hstalled hahead n).trans (if_pos hc)

theorem Room.decide_rollback (hc : x.commit = false) : rm.decide n x = rm.restart :=
  (Room.decide_ahead hnew hbeat hstalled hahead n).trans (if_neg (ne_true_of_eq_false hc))

end

/-- A commit moves what the beat left to its committed place; where the room stands in the beat that runs is as it was (R83, R94). -/
theorem Room.applyCommit_rest (rm : Room) (n : Beat) (rp wp : Tbl Nat) : let rm' := rm.applyCommit n rp wp
    rm' = { rm with bps := rm'.bps, ueDs := rm'.ueDs, bank := rm'.bank, ueBm := rm'.ueBm, win := rm'.win, wq := rm.wqAhead, wqAhead := [],
                    crpos := rp, cwpos := wp, lastCommit := n, everCommitted := rm.everCommitted || Decidable.decide (rm.firstFrom ≤ n) } := by
  have hqueue := rm.commitState.applyQueue_rest
  unfold Room.applyCommit
  dsimp only
  rw [hqueue]
  rfl

section
variable (rm : Room)

theorem Room.dropAhead_rest : rm.dropAhead = { rm with bps := rm.dropAhead.bps, wqAhead := [], ahead := false } := rfl

theorem Room.applyRollback_rest :
    rm.applyRollback = { rm with bps := rm.applyRollback.bps, win := rm.applyRollback.win, wq := rm.wqAhead, wqAhead := [] } := rfl

theorem Room.resetWindow_rest : rm.resetWindow = { rm with win := rm.resetWindow.win } := rfl

/-- What a restart takes back (R81, R95). -/
def Room.undone : Room := rm.dropAhead.applyRollback.resetWindow

theorem Room.undone_rest : rm.undone = { rm with bps := rm.undone.bps, win := rm.undone.win, wq := [], wqAhead := [], ahead := false } := by
  unfold Room.undone
  rw [Room.resetWindow_rest, Room.applyRollback_rest, Room.dropAhead_rest]

/-- The beat that runs starts again, from the committed positions (R95). -/
def Room.again : Room :=
  { rm with rpos := rm.crpos, wpos := rm.cwpos, d := 64, att := true, phase := .run, pass := 0, undecided := none, sentStream := [], sentDrain := [],
            tokens := [] }

theorem Room.restart_eq : rm.restart = rm.undone.again.passStart := rfl

theorem Room.restart_rest : rm.restart =
    { rm with bps := rm.restart.bps, win := rm.restart.win, slices := rm.restart.slices, planes := [], wq := [], wqAhead := [], rpos := rm.crpos,
              wpos := rm.cwpos, d := 64, att := true, phase := .run, ahead := false, undecided := none, pass := 0, level := 0, idx := 0, done := 0,
              sentStream := [], sentDrain := [], tokens := [] } := by
  have hundone := rm.undone_rest
  rw [rm.restart_eq]
  generalize rm.undone = u at hundone ⊢
  rw [hundone]
  rfl

end

theorem Room.bps_restart {rm : Room} {e : Nat × Bp} (h : e ∈ rm.restart.bps) : e.2.landing = none := by
  rw [rm.restart_eq] at h
  exact (Room.bps_passStart h).2.2

theorem Room.win_restart {rm : Room} {e : Nat × Slot} (h : e ∈ rm.restart.win) {w : WinWord} (hw : e.2.cur = some w) : w.kept = true := by
  obtain ⟨-, x, -, rfl⟩ := Tbl.mem_mapAll _ _ _ _ h
  dsimp only at hw
  split at hw
  · split at hw
    · next hcur hkept =>
      rw [hcur] at hw
      exact Option.some.inj hw ▸ hkept
    · cases hw
  · next hcur =>
    rw [hcur] at hw
    cases hw

-- a decision that reaches a room

/-- The oldest decision under way to a room has reached it (R90, R148). -/
def Net.delivered (net : Net) (r : RoomId) (x : Decision) : Net :=
  ({ net with decs := net.decs.erase (.room r, x) } : Net).carry (.hub 0) (.room r) (evtFlits (.hub 0) (.room r) x.beat false 2 x.payload)

/-- The room has received its decision (R94 to R96), which has left the network. -/
def Dev.received (d : Dev) (r : RoomId) (x : Decision) : Dev := (d.putNet (d.net.delivered r x)).modRoom r (·.decide d.time.n x)

section
variable {d : Dev} {r : RoomId} {x : Decision}

theorem Dev.received_keep : Keep [.rooms, .net] d (d.received r x) := by
  unfold Dev.received
  exact Dev.modRoom_keep (Dev.putNet_keep (.refl _ _) (by decide) _) (by decide) _ _

theorem Dev.room_received : (d.received r x).room r = (d.room r).decide d.time.n x := Dev.room_modRoom_same (d.putNet _) r _

theorem Dev.received_otherRooms : OtherRooms r d (d.received r x) := Dev.modRoom_otherRooms (d.putNet _) r _

section
variable (hx : d.net.decs.find? (fun y => y.1 == .room r) = some (.room r, x)) (hfunc : (d.room r).func = x.func)
include hx hfunc

/-- Where the decision restarts the room, the hub restarts too if the function places the room, and the restart is traced (R95, R396). -/
theorem Dev.decision_room : Dev.decision (.room r) d =
    if (!(d.room r).att) = true ∧ (((d.room r).decide d.time.n x).att) = true then
      (if (d.func? (d.room r).func).any (fun f => f.places.any (·.room == r)) then (d.received r x).hubRestart (d.room r).func
        else d.received r x).trace 0 r.toNat (d.room r).func 0 d.time.n d.now
    else d.received r x := by
  unfold Dev.decision
  rw [hx, ← Dev.room_received]
  exact if_neg (not_not_intro hfunc)

/-- A decision that restarts nothing changes its room and the network alone. -/
theorem Dev.decision_room_quiet (hatt : ((d.room r).decide d.time.n x).att = (d.room r).att) : Dev.decision (.room r) d = d.received r x := by
  rw [Dev.decision_room hx hfunc, hatt]
  exact if_neg fun h => by simp at h

theorem Dev.decision_room_restart : Keep (.funcs :: traceParts) (d.received r x) (Dev.decision (.room r) d) ∧
    (Dev.decision (.room r) d).net.SameButRetry (d.received r x).net ∧
    ((d.func? (d.room r).func).any (fun f => f.places.any (·.room == r)) = false → (Dev.decision (.room r) d).funcs = (d.received r x).funcs) := by
  have hhub : Keep [.funcs, .cellar] (d.received r x) ((d.received r x).hubRestart (d.room r).func) :=
    Dev.hubRestart_keep (.refl _ _) (by decide) (by decide) _
  rw [Dev.decision_room hx hfunc]
  split
  · split
    · next hown =>
      refine ⟨?_, (Dev.trace_net ..).trans (.of_eq (hhub.net_eq (by decide))), fun h => absurd (hown.symm.trans h) nofun⟩
      apply Dev.trace_keep (Dev.hubRestart_keep (.refl _ _) _ _ _) <;> decide
    · exact ⟨by apply Dev.trace_keep (.refl _ _) <;> decide, Dev.trace_net .., fun _ => (Dev.trace_parts ..).funcs.resolve_left (by decide)⟩
  · exact ⟨.refl _ _, .refl _, fun _ => rfl⟩

end

end

-- a decision that reaches the hub units

theorem Dev.decision_hub {d : Dev} {id : FuncId} {x : Decision} (hx : d.net.decs.find? (fun y => y.1 == .hub id) = some (.hub id, x)) :
    Dev.decision (.hub id) d = (d.putNet { d.net with decs := d.net.decs.erase (.hub id, x) }).hubDecide x := by
  unfold Dev.decision
  rw [hx]

theorem Cellar.decideWb_commit {c : Cellar} {x : Decision} (hc : x.commit = true) {e : WbEntry} (he : e ∈ (c.decideWb x).wb)
    (hfunc : e.func = x.func) (hbeat : e.beat = x.beat) : e.committed = true := by
  unfold Cellar.decideWb at he
  dsimp only at he
  rw [if_pos hc] at he
  obtain ⟨y, -, rfl⟩ := List.mem_map.1 he
  split
  · rfl
  · next hy =>
    rw [if_neg hy] at hfunc hbeat
    simpa [hfunc, hbeat] using hy

/-- A COMMIT of the beat before takes effect in the hub units at once (R83, R99). -/
theorem Dev.hubApply_commit {d : Dev} {x : Decision} {f : Func} (hf : d.func? x.func = some f) (hc : x.commit = true) :
    (d.hubApply x).func? x.func = some { f with emitCommit := true, ringK := f.ringK + 1, everCommitted := true } := by
  have hcellar : (d.modCellar (·.decideWb x)).func? x.func = some f := hf
  unfold Dev.hubApply
  rw [hc, Dev.func?_modFunc_same ?_ hcellar]
  · rw [if_pos rfl, Bool.or_true]
  · exact fun _ => rfl

/-- Settles O16: in a room the clauses are the three answers of `Room.decide`, at the hub the first two of `Dev.hubDecide`. -/
theorem decisionsReachRoomsAndHub : Obligations.DecisionsReachRoomsAndHub := by
  refine ⟨fun s r x => ?_, fun s id x f hx hf => ⟨fun hbeat => ?_, fun hbeat hc => ?_⟩⟩
  · intro rm net hx hfunc hnew
    refine ⟨fun hopen hbeat => ?_, fun hbeat hstalled hahead hc => ?_, fun hbeat hstalled hahead hc => ?_⟩
    · have hdecide : rm.decide s.dev.time.n x = { rm with decisions := rm.decisions ++ [x] } := hbeat ▸ Room.decide_held hnew hopen
      exact completes_of_run rfl (Dev.decision_room_quiet hx hfunc (by rw [hdecide])) Dev.received_keep
        ⟨rfl, Dev.received_otherRooms, Dev.room_received.trans hdecide⟩
    · have hdecide := Room.decide_commit hnew hbeat hstalled hahead s.dev.time.n hc
      have hrest := rm.applyCommit_rest x.beat rm.urpos rm.uwpos
      generalize rm.applyCommit x.beat rm.urpos rm.uwpos = committed at hrest hdecide
      rw [hrest] at hdecide
      refine completes_of_run rfl (Dev.decision_room_quiet hx hfunc (by rw [hdecide])) Dev.received_keep ?_
      dsimp only
      rw [Dev.room_received, hdecide]
      exact ⟨rfl, Dev.received_otherRooms, rfl, rfl, rfl, rfl, rfl, rfl, rfl, rfl, rfl, rfl, rfl, rfl, rfl, rfl⟩
    · have hdecide := Room.decide_rollback hnew hbeat hstalled hahead s.dev.time.n hc
      obtain ⟨hkeep, hnet, hfuncs⟩ := Dev.decision_room_restart hx hfunc
      have hroom : (Dev.decision (.room r) s.dev).room r = rm.restart := (hkeep.room_eq (by decide) r).trans (Dev.room_received.trans hdecide)
      have hrest := rm.restart_rest
      have hbps (e) : e ∈ rm.restart.bps → e.2.landing = none := Room.bps_restart
      have hwin (e) : e ∈ rm.restart.win → ∀ w, e.2.cur = some w → w.kept = true := fun he _ => Room.win_restart he
      refine completes_of_run rfl rfl (by apply Dev.decision_keep (.refl _ _) <;> decide) ?_
      dsimp only
      rw [hroom]
      clear hroom hdecide
      generalize rm.restart = restarted at hrest hbps hwin ⊢
      rw [hrest]
      refine ⟨hnet.rest, otherRooms_trans Dev.received_otherRooms (hkeep.otherRooms (by decide) r), fun hplaced => ?_,
        rfl, rfl, rfl, rfl, rfl, rfl, rfl, rfl, rfl, rfl, rfl, rfl, rfl, rfl, rfl, rfl, hbps, hwin⟩
      refine (hfuncs ?_).trans rfl
      cases hf : s.dev.func? rm.func with
      | none => rfl
      | some f => exact hplaced f hf
  · refine completes_of_run rfl ((Dev.decision_hub hx).trans (if_pos hbeat))
      (Dev.modFunc_keep (Dev.putNet_keep (.refl _ _) (by decide) _) (by decide) _ _) ⟨rfl, ?_⟩
    exact Dev.func?_modFunc_same (g := fun f => { f with hubDec := some x }) (fun _ => rfl) hf
  · refine completes_of_run rfl ((Dev.decision_hub hx).trans ((if_neg hbeat).trans (if_pos hc)))
      (Dev.hubApply_keep (Dev.putNet_keep (.refl _ _) (by decide) _) (by decide) (by decide) _) ⟨rfl, Dev.hubApply_commit hf hc, ?_⟩
    exact fun e he hfunc heb => Cellar.decideWb_commit hc he hfunc heb

end Sys2Proof.Machine
end

section
/-! A refused admission (04_schedule_contract.md R127, R129; 09_lanes_and_link.md R273): the messages and completions that a refusal sends leave the
frames that bindings have reserved on the bundles, and a refusal changes nothing of the configuration besides. -/

namespace Sys2Proof.Machine
open Sys2Proof

-- the frames reserved on the bundles

/-- On every bundle the frames of each beat that bindings have reserved are the same (R273). -/
structure SameReserved (d e : Dev) : Prop where
  bundle (b : Nat) : (e.bd b).reserved = (d.bd b).reserved

section
variable {c d e : Dev}

theorem SameReserved.refl (d : Dev) : SameReserved d d := ⟨fun _ => rfl⟩
theorem SameReserved.trans (h : SameReserved c d) (h' : SameReserved d e) : SameReserved c e := ⟨fun b => (h'.bundle b).trans (h.bundle b)⟩

theorem SameReserved.of_bundles (h : e.link.bundles = d.link.bundles) : SameReserved d e := ⟨fun b => by unfold Dev.bd; rw [h]⟩

theorem SameReserved.ite {p : Prop} [Decidable p] (hd : p → SameReserved c d) (he : ¬ p → SameReserved c e) : SameReserved c (if p then d else e) :=
  iteInduction (motive := SameReserved c) hd he

theorem SameReserved.each {α : Type} {l : List α} {f : Dev → α → Dev} (hf : ∀ d a, SameReserved d (f d a)) : SameReserved d (d.each l f) :=
  Dev.each_induct (P := SameReserved d) (.refl d) fun e a he => he.trans (hf e a)

theorem Dev.setBd_sameReserved {b : Nat} {x : Bundle} (h : x.reserved = (d.bd b).reserved) : SameReserved d (d.setBd b x) := by
  refine ⟨fun k => ?_⟩
  by_cases hk : k = b
  · subst hk
    exact (congrArg Bundle.reserved (Tbl.get_set_same _ _ _ _)).trans h
  · exact congrArg Bundle.reserved (Tbl.get_set_other _ _ _ _ _ hk)

theorem Dev.creditBack_sameReserved (d : Dev) (x : Option (Nat × Nat)) : SameReserved d (d.creditBack x) := by
  cases x with
  | none => exact .refl d
  | some p => exact Dev.setBd_sameReserved (by rfl)

theorem Dev.emitFrame_sameReserved (d : Dev) (b : Nat) (f : Frame) : SameReserved d (d.emitFrame b f) := .of_bundles rfl

theorem Dev.sendSeq_sameReserved (d : Dev) (b : Nat) (f : Frame) : SameReserved d (d.sendSeq b f) :=
  .trans (Dev.setBd_sameReserved (by rfl)) (Dev.emitFrame_sameReserved ..)

theorem Dev.pump_sameReserved (b n : Nat) (d : Dev) : SameReserved d (Dev.pump b n d) := by
  induction n generalizing d with
  | zero => exact .refl d
  | succ n ih =>
    unfold Dev.pump
    dsimp only
    split
    · exact .refl d
    · refine .ite (fun _ => .refl d) fun _ => ?_
      exact (Dev.setBd_sameReserved (by rfl)).trans ((Dev.sendSeq_sameReserved ..).trans ((Dev.creditBack_sameReserved ..).trans (ih _)))

theorem Dev.routeFrame_sameReserved (d : Dev) (f : Frame) (x : Option (Nat × Nat)) : SameReserved d (d.routeFrame f x) := by
  unfold Dev.routeFrame Dev.sendFrame
  split
  · exact (Dev.setBd_sameReserved (by rfl)).trans (Dev.pump_sameReserved ..)
  · exact .trans (.of_bundles (by rfl)) (Dev.creditBack_sameReserved ..)

theorem Dev.sendMessage_sameReserved (d : Dev) (dest : BitVec 11) (cls : FlitClass) (tag op addr flits body : Nat) :
    SameReserved d (d.sendMessage dest cls tag op addr flits body) := by
  unfold Dev.sendMessage Dev.sendPacket Dev.sendOwn
  exact .each fun d _ => .ite (fun _ => .of_bundles (by rfl)) fun _ => Dev.routeFrame_sameReserved ..

-- completions

theorem Dev.coalesce_link (d : Dev) (k : BitVec 9) : (d.coalesce k).link = d.link := by
  unfold Dev.coalesce
  dsimp only
  split
  · exact Dev.msix_link ..
  · rfl

theorem Dev.postOne_sameReserved (d : Dev) (k : BitVec 9) (e : RetEntry) : SameReserved d (d.postOne k e) := by
  unfold Dev.postOne
  refine .ite (fun _ => (Dev.sendMessage_sameReserved ..).trans (.of_bundles (by rfl))) fun _ => .of_bundles (congrArg Link.bundles ?_)
  exact (Dev.coalesce_link ..).trans (Dev.writeHost_link ..)

theorem Dev.postRing_sameReserved (d : Dev) (k : BitVec 9) : SameReserved d (d.postRing k) := .each fun d e => Dev.postOne_sameReserved d k e

theorem Dev.divergence_sameReserved (d : Dev) : SameReserved d d.divergence := .of_bundles rfl

theorem Dev.resolveAwait_sameReserved (d : Dev) : SameReserved d d.resolveAwait :=
  .each fun _ _ => .ite (fun _ => .of_bundles (by rfl)) fun _ => .ite (fun _ => .of_bundles (by rfl)) fun _ =>
    .trans (.of_bundles (by rfl)) (.trans (Dev.sendMessage_sameReserved ..) (Dev.divergence_sameReserved _))

theorem Dev.ownStatus_sameReserved (d : Dev) (x : DescRef) (status : Nat) : SameReserved d (d.ownStatus x status) :=
  .trans (.of_bundles (by rfl)) (Dev.resolveAwait_sameReserved _)

theorem Dev.settle_sameReserved (n : Nat) (d : Dev) : SameReserved d (Dev.settle n d) := by
  induction n generalizing d with
  | zero => exact .refl d
  | succ n ih =>
    unfold Dev.settle
    split
    · exact .refl d
    · exact .trans (.of_bundles (by rfl))
        ((Dev.ownStatus_sameReserved ..).trans ((Dev.postRing_sameReserved ..).trans (ih _)))

theorem Dev.finish_sameReserved (d : Dev) (x : DescRef) (status detail info0 info1 : Nat) (beat : Option Beat) :
    SameReserved d (d.finish x status detail info0 info1 beat) := by
  have posted (c : Dev) : SameReserved c (Dev.settle (c.ownStatus x status).fences ((c.ownStatus x status).postRing x.ring)) :=
    (Dev.ownStatus_sameReserved ..).trans ((Dev.postRing_sameReserved ..).trans (Dev.settle_sameReserved ..))
  unfold Dev.finish
  split
  · exact .refl d
  · refine .ite (fun _ => .refl d) fun _ => .trans ?_ (posted _)
    split <;> exact .of_bundles (by rfl)

end

-- a refusal

section
variable {d : Dev} {x : DescRef} {e : RetEntry} {n : Nak}

theorem Dev.canStart_accepted (h : d.canStart x e = true) : e.phase = .accepted := by
  simp only [Dev.canStart, Bool.and_eq_true, beq_iff_eq] at h
  obtain ⟨⟨⟨⟨⟨⟨-, haccepted⟩, -⟩, -⟩, -⟩, -⟩, -⟩ := h
  exact haccepted

/-- The entry of a descriptor whose operation can start is open (R356). -/
theorem openDesc_of_canRun {op : Nat} (h : CanRun d x op e) : OpenDesc d x e := by
  obtain ⟨hentry, hcan⟩ := Option.filter_eq_some_iff.1 h.now
  simp only [Bool.and_eq_true] at hcan
  obtain ⟨⟨-, hstart⟩, -⟩ := hcan
  exact ⟨hentry, by simp [Dev.canStart_accepted hstart], h.windows, h.free⟩

theorem Dev.refuse_completed (h : OpenDesc d x e) :
    CompletedWith (d.refuse x n) x
      { seq := e.seq, status := n.status, detail := n.detail, opcode := descOpcode e.desc,
        info0 := n.vroom + n.index * 65536, info1 := n.ikind + n.bp * 256, beat := d.time.n } :=
  Dev.finish_completed h.windows h.entry h.unfinished h.free ..

/-- What an evaluation that asks no device does before its result: the operation has started and its queries are over (R272); one with OUT bindings
has taken an open value. -/
def Dev.evaluated (d : Dev) (x : DescRef) (a : Ask) : Dev :=
  let d := (d.start x).modLink fun l => { l with queries := l.queries.filter (·.desc != x) }
  if a.obj.bindings.any (fun b => b.type == 4 && !b.dirIn) then d.take 1 else d

/-- An evaluation leaves the bundles, the beat and the open entry of its descriptor, which has started. -/
theorem Dev.evaluated_open (a : Ask) (h : OpenDesc d x e) :
    OpenDesc (d.evaluated x a) x { e with started := true } ∧ (d.evaluated x a).time = d.time ∧ SameReserved d (d.evaluated x a) := by
  obtain ⟨hentry, hwindows⟩ := Dev.start_entry h.windows h.entry
  unfold Dev.evaluated
  dsimp only
  split <;> exact ⟨⟨hentry, h.unfinished, hwindows, h.free⟩, rfl, .of_bundles (by rfl)⟩

theorem Dev.funcAdmit_refused (hx : d.startable x 0x10 = some e) {args : Bytes} (hargs : e.args = some args)
    (hn : d.admission (d.stg (dfld e.desc 0x18 1)).body (d.askOf x e) = .error n)
    (hasked : (d.askOf x e).unanswered = [] ∨ n.status ≠ 0x11 ∨ n.detail ≠ 0x0A) :
    Dev.funcAdmit x d = (d.evaluated x (d.askOf x e)).refuse x n := by
  have hasks : ¬ ((!(d.askOf x e).unanswered.isEmpty && (n.status == 0x11 && n.detail == 0x0A)) = true) := by
    simp only [Bool.and_eq_true, Bool.not_eq_true', List.isEmpty_eq_false_iff, beq_iff_eq]
    rintro ⟨hne, hstatus, hdetail⟩
    exact hasked.elim hne fun h => h.elim (· hstatus) (· hdetail)
  unfold Dev.funcAdmit
  rw [hx]
  dsimp only
  rw [hn, if_neg (by simp [hargs]), if_neg hasks]
  rfl

/-- The lowest bit of a descriptor's byte (R345), as a bit of the descriptor. -/
theorem bitOf_dfld_zero (w : BitVec 512) (off : Nat) : bitOf (dfld w off 1) 0 = decide (w.extractLsb' (8 * off) 1 = 1) := by
  rw [bitOf, dfld, fld, Nat.testBit_mod_two_pow, Nat.testBit_shiftRight, ← BitVec.getLsbD, BitVec.getLsbD_eq_extractLsb']
  rfl

theorem Dev.askOf_eq {args : Bytes} (h : e.args = some args) :
    d.askOf x e = { fid := BitVec.ofNat 16 (d.admitId e.desc), r := dfld e.desc 0x19 1, owner := BitVec.ofNat 7 (dfld e.desc 0x1B 1),
                    pool := if e.desc.extractLsb' 208 1 = 1 then anyPool else leAt args 0x1500 32,
                    obj := parseObj (d.stg (dfld e.desc 0x18 1)).body, ends := parseEnds args,
                    answers := d.link.queries.filterMap fun q => if q.desc = x then q.answer.map (q.bind, ·) else none } := by
  simp only [Dev.askOf, h, Option.getD_some, bitOf_dfld_zero, decide_eq_true_eq]

/-- The parts that a refusal can change. -/
abbrev refusalParts : List Part := [.free, .out, .events, .link, .rings, .sched]

theorem Dev.evaluated_refuse_keep (d : Dev) (x : DescRef) (a : Ask) (n : Nak) : Keep refusalParts d ((d.evaluated x a).refuse x n) := by
  have hstarted : Keep refusalParts d ((d.start x).modLink fun l => { l with queries := l.queries.filter (·.desc != x) }) :=
    Dev.modLink_keep (Dev.start_keep (.refl _ _) (by decide) x) (by decide) _
  exact Dev.refuse_keep (.ite (Dev.take_keep hstarted (by decide) 1) hstarted) (by decide) (by decide) (by decide) (by decide) (by decide) x n

end

/-- Settles O59: a refused FUNC_ADMIT starts, drops its queries and completes with the refusal (`Dev.funcAdmit_refused`); of what binds or reserves, it
can reach the bundles alone, and leaves their reservations (`SameReserved`). -/
theorem refusedAdmissionsLeaveNoTrace : Obligations.RefusedAdmissionsLeaveNoTrace := by
  intro s x e args n hx hargs w body a hn hasked
  have ha : s.dev.askOf x e = a := Dev.askOf_eq hargs
  obtain ⟨hopen, htime, hreserved⟩ := Dev.evaluated_open a (openDesc_of_canRun hx)
  have hkeep := s.dev.evaluated_refuse_keep x a n
  have hcompleted := Dev.refuse_completed (n := n) hopen
  rw [htime] at hcompleted
  have hrun : Dev.funcAdmit x s.dev = (s.dev.evaluated x a).refuse x n :=
    ha ▸ Dev.funcAdmit_refused hx.now hargs (ha.symm ▸ hn) (ha.symm ▸ hasked)
  refine completes_of_run rfl hrun hkeep ⟨?_, ?_, ?_, ?_, ?_, ?_, (hreserved.trans (Dev.finish_sameReserved ..)).bundle, hcompleted⟩
  · exact hkeep.rooms.resolve_left (by decide)
  · exact hkeep.funcs.resolve_left (by decide)
  · exact hkeep.net_eq (by decide)
  · exact hkeep.loader.resolve_left (by decide)
  · exact hkeep.cellar.resolve_left (by decide)
  · exact hkeep.media.resolve_left (by decide)

end Sys2Proof.Machine
end

section
/-! An XCH packet at its destination (02_rooms.md R49; 03_beat_and_commit.md R81, R131; 05_corridors_and_stairs.md R146 to R148): what a room's window
and a drain take of its words, once its flits have crossed its way. -/

namespace Sys2Proof.Machine
open Sys2Proof

/-- A room takes the words of a packet of its own GEN, of the beat that runs or the next one, and not of attempt 0 of a beat that it has restarted
(R146, R147). -/
def Room.accepts (rm : Room) (n : Beat) (p : Packet) : Prop :=
  rm.func ≠ 0xFFFF ∧ p.gen = rm.gen ∧ (p.beat = n ∨ p.beat = n + 1) ∧ ¬ (p.beat = n ∧ rm.att = true ∧ p.att = false)

/-- A packet's word as its window slot holds it (R49, R95). -/
def Packet.slotWord (p : Packet) (step : Nat) (w : PktWord) : WinWord :=
  { word := w.word, absent := w.absent, kept := p.keep, level := p.level, step, src := writerNo p }

section
variable {rm : Room} {n : Beat} {p : Packet} {step : Nat}

theorem Room.receive_of_accepts (h : rm.accepts n p) :
    rm.receive n p step = p.words.foldl (fun rm w => rm.writeSlot w.idx (p.beat != n) (p.slotWord step w)) rm := by
  obtain ⟨hbound, hgen, hbeat, hattempt⟩ := h
  exact congrArg (p.words.foldl · rm) (funext₂ fun _ _ => if_pos ⟨hbound, hgen, hbeat, by simpa [imp_iff_not_or] using hattempt⟩)

theorem Room.receive_of_not_accepts (h : ¬ rm.accepts n p) : rm.receive n p step = p.words.foldl (fun rm _ => rm.count cntXchStale) rm := by
  refine congrArg (p.words.foldl · rm) (funext₂ fun _ _ => if_neg ?_)
  rintro ⟨hbound, hgen, hbeat, hattempt⟩
  exact h ⟨hbound, hgen, hbeat, by simpa [imp_iff_not_or] using hattempt⟩

end

/-- The network once the next packet of a source has arrived: its flits have passed the retry buffers of its way, and `rest` is still under way
(R148). -/
def Net.arrived (net : Net) (src dst : Node) (p : Packet) (rest : List Packet) : Net := { net.carry src dst p.flits with xch := rest }

section
variable {d : Dev} {src : Node} {p : Packet} {rest : List Packet} {step : BitVec 17}

theorem Dev.func?_modNet (d : Dev) (g : Net → Net) (i : FuncId) : (d.modNet g).func? i = d.func? i := rfl

theorem Dev.hubTakes_modNet (d : Dev) (g : Net → Net) (f : Func) (p : Packet) : (d.modNet g).hubTakes f p = d.hubTakes f p := rfl

theorem Dev.xchPacket_room {r : RoomId} (hp : takePacket src (.room r) d.net.xch = some (p, rest)) :
    Dev.xchPacket src (.room r) step d
      = (d.putNet (d.net.arrived src (.room r) p rest)).modRoom r fun rm => rm.receive d.time.n p step.toNat := by
  unfold Dev.xchPacket
  rw [hp]
  rfl

theorem Dev.xchPacket_drain {u : BitVec 8} {f : Func} (hp : takePacket src (.hub u) d.net.xch = some (p, rest)) (hkind : p.kind = .drain)
    (hf : d.func? p.func = some f) (htakes : d.hubTakes f p = true) :
    Dev.xchPacket src (.hub u) step d
      = (d.putNet (d.net.arrived src (.hub u) p rest)).modFunc p.func fun f => p.words.foldl (fun f w => f.drainWord p w) f := by
  unfold Dev.xchPacket
  simp only [hp, Dev.func?_modNet, hf, Dev.hubTakes_modNet, htakes, hkind, Dev.id_of_func? hf]
  rfl

end

theorem Func.drainWord_id (f : Func) (p : Packet) (w : PktWord) : (f.drainWord p w).id = f.id := by
  unfold Func.drainWord
  split
  · rfl
  · split <;> rfl

theorem Func.drainWord_eq {f : Func} {p : Packet} {b : BindRec} (w : PktWord)
    (hb : f.obj.bindings.find? (fun b => b.type == 2 && b.num == p.tgt) = some b) :
    f.drainWord p w = if w.idx < b.size then
        { f with filling := Tbl.set none f.filling ((p.rep.toNat * 256 + p.tgt) * 65536 + w.idx) (some { word := w.word, beat := p.beat, att := p.att }) }
      else { f with hubFault := true } := by
  unfold Func.drainWord
  simp only [hb, ← Nat.not_lt, ite_not]

/-- Settles O13: a room's window takes a packet's words or counts them (`Room.receive`), and a drain takes its one word (`Func.drainWord`), after the
packet has left the network over its way (`Net.arrived`). -/
theorem packetsReachWindowsAndDrains : Obligations.PacketsReachWindowsAndDrains := by
  intro s src dst step p rest hp
  refine ⟨?_, ?_⟩
  · rintro r rfl
    refine completes_of_run rfl (Dev.xchPacket_room hp) (Dev.modRoom_keep (Dev.putNet_keep (.refl _ _) (by decide) _) (by decide) _ _)
      ⟨rfl, Dev.modRoom_otherRooms (s.dev.putNet _) r _, fun hfresh => ?_, fun hstale => ?_⟩
    · exact (Dev.room_modRoom_same _ _ _).trans (Room.receive_of_accepts hfresh)
    · exact (Dev.room_modRoom_same _ _ _).trans (Room.receive_of_not_accepts hstale)
  · rintro u f b w rfl hkind hwords hf htakes hb
    refine completes_of_run rfl (Dev.xchPacket_drain hp hkind hf htakes)
      (Dev.modFunc_keep (Dev.putNet_keep (.refl _ _) (by decide) _) (by decide) _ _) ⟨rfl, ?_⟩
    rw [hwords]
    exact (Dev.func?_modFunc_same (fun g => Func.drainWord_id g p w) hf).trans (congrArg some (Func.drainWord_eq w hb))

end Sys2Proof.Machine
end

section
/-! Reads of the cellar (06_cellar.md R157, R163, R165, R169, R170, R173, R185): what the checks, the ECC of readable words, the opening of a line and
the write buffer make of a read, and from it the statement about reads. -/

namespace Sys2Proof.Machine
open Sys2Proof

theorem exec_cellarRead {k : QKind} {q : BitVec 9} {a : BitVec 34} (e : LineEcc) (s : State) (ha : lineOk a = true) :
    exec (.cellarRead k q a e) s = run true (Dev.cellarRead k q a e) s :=
  congrArg (run · (Dev.cellarRead k q a e) s) ha

/-- No queue has the KIND of BAR4, so R163 refuses it everywhere. -/
theorem Cellar.permits_bar (c : Cellar) (q : BitVec 9) (line : Nat) (want : Want) (write : Bool) : c.permits .bar q line want write = none := by
  have hkind : (c.queue q).kind.toNat ≠ kindCode .bar := Nat.ne_of_lt (c.queue q).kind.isLt
  unfold Cellar.permits
  split
  · rfl
  · exact if_pos (.inr (.inl hkind))

theorem Cellar.ne_bar_of_permits {c : Cellar} {k : QKind} {q : BitVec 9} {line : Nat} {want : Want} {write : Bool} {x : Nat × Region}
    (h : c.permits k q line want write = some x) : k ≠ .bar := by
  rintro rfl
  cases (c.permits_bar q line want write).symm.trans h

-- the ECC of words that can be read

section
variable {d : Dev} {line : Nat}

theorem Dev.deadWords_readable {l a n : Nat} (h : d.cellar.unread.any (wordIn a n) = false) : d.deadWords l a n = d := by
  have hnone : d.cellar.unread.filter (wordIn a n) = [] := by
    rw [List.filter_eq_nil_iff]
    exact List.any_eq_false.1 h
  unfold Dev.deadWords
  rw [hnone]
  rfl

theorem Dev.rawEcc_readable (h : d.cellar.dataUe line {} = false) : d.rawEcc line {} = d := by
  unfold Dev.rawEcc
  rw [Dev.deadWords_readable h]
  exact d.rowEcc_good _

theorem Dev.metaEcc_readable (h : d.cellar.metaUe line {} = false) : d.metaEcc line {} = d := by
  unfold Dev.metaEcc
  dsimp only
  rw [Dev.deadWords_readable h]
  exact (ite_eq_left_iff.2 fun _ => d.rowEcc_good _)

theorem Dev.lineEcc_readable (hdata : d.cellar.dataUe line {} = false) (hmeta : d.cellar.metaUe line {} = false) : d.lineEcc line {} = d := by
  rw [Dev.lineEcc, Dev.rawEcc_readable hdata, Dev.metaEcc_readable hmeta]

end

-- opening a line

section
variable {c : Cellar} {line : Nat} (n : Nat)

/-- The line's slot holds a key, and the MAC stored for the line is that of its stored bytes (R165, R169). -/
def Cellar.Verifies (c : Cellar) (line : Nat) : Prop :=
  let m := c.metaOf line
  (c.key m.slot).phase ≠ .empty ∧
    gcmTag (c.key m.slot).ke (sealIv line m.ctr m.slot) (sealAad line m.ctr m.slot) (c.raw line) = m.mac

/-- What the line's stored bytes decrypt to (R166). -/
def Cellar.plainOf (c : Cellar) (line : Nat) : BitVec 1024 :=
  let m := c.metaOf line
  c.raw line ^^^ gcmStream (c.key m.slot).ke (sealIv line m.ctr m.slot)

theorem Cellar.openPlain_good (hdata : c.dataUe line {} = false) : c.openPlain line {} n = (.good, c.raw line) := by
  unfold Cellar.openPlain
  rw [if_neg (ne_true_of_eq_false hdata)]
  rfl

theorem Cellar.openSealed_unwritten (hclear : c.clearing = false) (hmeta : c.metaUe line {} = false) (hstate : (c.metaOf line).state = 0)
    (hrsv : (c.metaOf line).rsvOk = true) : c.openSealed line {} n = (.unwritten, 0) := by
  unfold Cellar.openSealed
  dsimp only
  rw [if_neg (ne_true_of_eq_false hclear), if_neg (ne_true_of_eq_false hmeta), if_pos ⟨hstate, hrsv⟩]

/-- A SEALED line that verifies, in a row that is not under repair, opens to its plaintext (R169). -/
theorem Cellar.openSealed_good (hclear : c.clearing = false) (hmeta : c.metaUe line {} = false) (hdata : c.dataUe line {} = false)
    (hstate : (c.metaOf line).state = 1) (hrsv : (c.metaOf line).rsvOk = true) (hverifies : c.Verifies line) (hrow : c.inRepair line = false) :
    c.openSealed line {} n = (.good, c.plainOf line) := by
  obtain ⟨hkey, hmac⟩ := hverifies
  unfold Cellar.openSealed
  simp only [hmeta, hdata]
  simp [hclear, hstate, hrsv, hkey, hmac, hrow, Cellar.plainOf]

theorem Cellar.openSealed_macFail (hclear : c.clearing = false) (hmeta : c.metaUe line {} = false) (hdata : c.dataUe line {} = false)
    (hstate : (c.metaOf line).state = 1) (hverifies : ¬ c.Verifies line) : c.openSealed line {} n = (.macFail, c.plainOf line) := by
  rw [Cellar.Verifies, not_and_or, not_not] at hverifies
  unfold Cellar.openSealed
  simp only [hmeta, hdata]
  simp [hclear, hstate, hverifies, Cellar.plainOf]

end

theorem Cellar.forward_uncovered {c : Cellar} {line : Nat} {who : Option (FuncId × Beat)} (h : c.visible line who = []) (v : Verdict)
    (data : BitVec 1024) : c.forward line who v data = (v, data) := by
  unfold Cellar.forward
  rw [h]
  rfl

-- a read of one line

section
variable {d : Dev} {k : QKind} {q : BitVec 9} {line : Nat} {want : Want}

/-- What a read of a line in a region answers before the write buffer is asked (R169). -/
def Cellar.opened (c : Cellar) (r : Region) (line free : Nat) : Verdict × BitVec 1024 :=
  if r.sealed_ then c.openSealed line {} free else c.openPlain line {} free

theorem Cellar.opened_of_sealed {c : Cellar} {r : Region} (h : r.sealed_ = true) (line free : Nat) :
    c.opened r line free = c.openSealed line {} free := if_pos h

theorem Cellar.opened_of_unsealed {c : Cellar} {r : Region} (h : r.sealed_ = false) (line free : Nat) :
    c.opened r line free = c.openPlain line {} free := if_neg (ne_true_of_eq_false h)

theorem Dev.readLine_refused (who : Option (FuncId × Beat)) (e : LineEcc) (h : d.cellar.permits k q line want false = none) :
    d.readLine k q line want who e = (d.cellarRefuse, .slotMiss, 0) := by
  unfold Dev.readLine
  rw [h]

theorem Dev.readLine_plainLine {n : Nat} {r : Region} {v : Verdict} {data : BitVec 1024} (hp : d.cellar.permits k q line want false = some (n, r))
    (hl : PlainLine d line) (ho : d.cellar.opened r line d.free = (v, data)) (hue : v ≠ .ue) :
    d.readLine k q line want none {} = (if v = .macFail then d.secMac else d, v, data) := by
  obtain ⟨-, hvisible, hdata, hmeta⟩ := hl
  have hforward : ∀ d' : Dev, d'.cellar.wb = d.cellar.wb → d'.cellar.forward line none v data = (v, data) := fun d' hwb =>
    Cellar.forward_uncovered (by rw [Cellar.visible, hwb]; exact hvisible) v data
  unfold Dev.readLine
  rw [hp]
  dsimp only
  rw [Dev.lineEcc_readable hdata hmeta]
  rw [Cellar.opened] at ho
  rw [ho]
  dsimp only
  rw [if_neg hue, hforward _ (by split <;> rfl)]

/-- The one verdict that no other is below leaves the verdicts of streams in flight (R98). -/
theorem Dev.streamVerdict_good (d : Dev) (line : Nat) : d.streamVerdict line .good = d := by
  unfold Dev.streamVerdict
  simp only [Verdict.code, Nat.not_lt_zero, and_false, if_false, List.map_id']
  rfl

/-- A read whose verdict lets data through is answered with it (R169, R170). -/
theorem Dev.cellarRead_answer {a : BitVec 34} {e : LineEcc} {v : Verdict} {data : BitVec 1024} (hbar : k ≠ .bar)
    (hr : d.readLine k q (a.toNat / 128) (wantOf k false) none e = (d, v, data)) (hpass : v.passes = true) (hroom : k = .room → v = .good) :
    Dev.cellarRead k q a e d = d.emit (.cellar k q v data) := by
  have hstreams : (if k = .room then d.streamVerdict (a.toNat / 128) v else d) = d :=
    ite_eq_right_iff.2 fun hk => hroom hk ▸ d.streamVerdict_good _
  have hslot : v ≠ .slotMiss := by rintro rfl; cases hpass
  unfold Dev.cellarRead
  dsimp only
  rw [if_neg hbar, hr]
  dsimp only
  rw [hstreams, if_neg (by simp [hpass, hslot])]

/-- A read that is refused, or whose verdict a core gets no data for, ends in a bus error (R163, R170). -/
theorem Dev.cellarRead_busError {a : BitVec 34} {e : LineEcc} {d' : Dev} {v : Verdict} {data : BitVec 1024} (hbar : k ≠ .bar) (hroom : k ≠ .room)
    (hr : d.readLine k q (a.toNat / 128) (wantOf k false) none e = (d', v, data)) (hstop : k = .core ∧ v.passes = false ∨ v = .slotMiss) :
    Dev.cellarRead k q a e d = d'.emit (.busError k q) := by
  unfold Dev.cellarRead
  dsimp only
  rw [if_neg hbar, hr]
  dsimp only
  rw [if_neg hroom, if_pos (hstop.imp (fun h => ⟨h.1, by rw [h.2]; rfl⟩) fun h => ⟨h, hroom⟩)]

/-- BAR4 reads zeros of the device reserve, and below it what is stored (R185). -/
theorem Dev.barRead_readable (h : d.cellar.dataUe line {} = false ∨ 0x3F0000000 ≤ 128 * line) :
    d.barRead line {} = d.emit (.cellar .bar 0 .good (if 0x3F0000000 ≤ 128 * line then 0 else d.cellar.raw line)) := by
  unfold Dev.barRead
  split
  · rfl
  · next hspace =>
    have hdata := h.resolve_right hspace
    rw [Dev.rawEcc_readable hdata]
    exact if_neg (ne_true_of_eq_false hdata)

end

section
variable {s : State} {k : QKind} {q : BitVec 9} {a : BitVec 34} {v : Verdict} {data : BitVec 1024}

/-- A read of a readable line in a region with a verdict that lets data through changes nothing of the device. -/
theorem completes_cellarRead_answer {n : Nat} {r : Region} (ha : lineOk a = true)
    (hp : s.dev.cellar.permits k q (a.toNat / 128) (wantOf k false) false = some (n, r)) (hl : PlainLine s.dev (a.toNat / 128))
    (ho : s.dev.cellar.opened r (a.toNat / 128) s.dev.free = (v, data)) (hpass : v.passes = true) (hroom : k = .room → v = .good) :
    Completes (.cellarRead k q a {}) s [.out] fun d => Sys2Proof.Sent s.dev d (.cellar k q v data) := by
  have hue : v ≠ .ue := by rintro rfl; cases hpass
  have hmac : v ≠ .macFail := by rintro rfl; cases hpass
  have hr := Dev.readLine_plainLine hp hl ho hue
  rw [if_neg hmac] at hr
  exact completes_of_run (exec_cellarRead {} s ha) (Dev.cellarRead_answer (Cellar.ne_bar_of_permits hp) hr hpass hroom)
    (Dev.emit_keep (.refl _ _) (by decide) _) rfl

/-- A core's read of a line that does not verify is counted, raises EV0440 and ends in a bus error (R169, R170, R189). -/
theorem completes_cellarRead_macFail {n : Nat} {r : Region} (ha : lineOk a = true)
    (hp : s.dev.cellar.permits .core q (a.toNat / 128) (wantOf .core false) false = some (n, r)) (hl : PlainLine s.dev (a.toNat / 128))
    (ho : s.dev.cellar.opened r (a.toNat / 128) s.dev.free = (.macFail, data)) :
    Completes (.cellarRead .core q a {}) s [.out, .events, .cellar] fun d =>
      Sys2Proof.Sent s.dev d (.busError .core q) ∧ Raised s.dev d 440 ∧ d.cellar = { s.dev.cellar with cnt := bumpAt s.dev.cellar.cnt 0 } :=
  completes_of_run (exec_cellarRead {} s ha)
    (Dev.cellarRead_busError (by decide) (by decide) (Dev.readLine_plainLine hp hl ho (by decide)) (.inl ⟨rfl, rfl⟩))
    (Dev.emit_keep (Dev.secMac_keep (.refl _ _) (by decide) (by decide)) (by decide) _) ⟨rfl, ⟨_, rfl, rfl, rfl⟩, rfl⟩

theorem completes_cellarRead_refused (ha : lineOk a = true)
    (hp : s.dev.cellar.permits k q (a.toNat / 128) (wantOf k false) false = none) (hroom : k ≠ .room) (hbar : k ≠ .bar) :
    Completes (.cellarRead k q a {}) s [.out, .events, .cellar] fun d =>
      Sys2Proof.Sent s.dev d (.busError k q) ∧ Raised s.dev d 446 ∧ d.cellar = { s.dev.cellar with cnt := bumpAt s.dev.cellar.cnt 2 } :=
  completes_of_run (exec_cellarRead {} s ha) (Dev.cellarRead_busError hbar hroom (Dev.readLine_refused none {} hp) (.inr rfl))
    (Dev.emit_keep (Dev.cellarRefuse_keep (.refl _ _) (by decide) (by decide)) (by decide) _) ⟨rfl, ⟨_, rfl, rfl, rfl⟩, rfl⟩

end

/-- Settles O18: what the checks and the opening of the line (`Cellar.opened`) answer decides the output, by the case of the line's metadata. -/
theorem cellarReadsAnswer : Obligations.CellarReadsAnswer := by
  intro s k q a ha c line m ke iv good
  refine ⟨fun n r hp hl => ?_, fun hp hroom hbar => completes_cellarRead_refused ha hp hroom hbar, fun h => ?_⟩
  · have ⟨_, _, hdata, hmeta⟩ := hl
    refine ⟨fun hplain => ?_, fun hsealed hclear hrsv => ⟨fun hzero hroom => ?_, fun hone hgood hrow => ?_, fun hone hbad hcore => ?_⟩⟩
    · have ho := (Cellar.opened_of_unsealed hplain line s.dev.free).trans (Cellar.openPlain_good _ hdata)
      exact completes_cellarRead_answer ha hp hl ho rfl fun _ => rfl
    · have ho := (Cellar.opened_of_sealed hsealed line s.dev.free).trans (Cellar.openSealed_unwritten _ hclear hmeta hzero hrsv)
      exact completes_cellarRead_answer ha hp hl ho rfl fun hk => absurd hk hroom
    · have ho := (Cellar.opened_of_sealed hsealed line s.dev.free).trans (Cellar.openSealed_good _ hclear hmeta hdata hone hrsv hgood hrow)
      exact completes_cellarRead_answer ha hp hl ho rfl fun _ => rfl
    · subst hcore
      have ho := (Cellar.opened_of_sealed hsealed line s.dev.free).trans (Cellar.openSealed_macFail _ hclear hmeta hdata hone hbad)
      exact completes_cellarRead_macFail ha hp hl ho
  · exact completes_of_run (exec_cellarRead {} s ha) (Dev.barRead_readable h) (Dev.emit_keep (.refl _ _) (by decide) _) rfl

end Sys2Proof.Machine
end

section
/-! Bytes of a line stored as they are (06_cellar.md R159, R163, R172, R174, R185): what the stack reads after a store under a byte mask, and from it
the statements about writes to unsealed regions and about the write-back. -/

namespace Sys2Proof.Machine
open Sys2Proof

-- little-endian numbers as the bytes they are

theorem leNat_lt (bs : Bytes) : leNat bs < 256 ^ bs.length := by
  induction bs with
  | nil => exact Nat.one_pos
  | cons b t ih =>
    have hb := b.isLt
    rw [leNat, List.length_cons, Nat.pow_succ']
    omega

theorem leNat_append (bs cs : Bytes) : leNat (bs ++ cs) = leNat bs + leNat cs * 256 ^ bs.length := by
  induction bs with
  | nil => simp [leNat]
  | cons b t ih =>
    rw [List.cons_append, leNat, leNat, ih, List.length_cons, Nat.pow_succ']
    ring

theorem leBytes_leNat (bs : Bytes) : leBytes bs.length (leNat bs) = bs := by
  induction bs with
  | nil => rfl
  | cons b t ih =>
    have hb := b.isLt
    rw [List.length_cons, leBytes, leNat, show (b.toNat + 256 * leNat t) / 256 = leNat t by omega, ih]
    congr 1
    apply BitVec.eq_of_toNat_eq
    rw [BitVec.toNat_ofNat]
    omega

/-- Byte `k` of a little-endian number. -/
theorem leNat_shift_mod (bs : Bytes) (k : Nat) : leNat bs >>> (8 * k) % 256 = (bs.getD k 0).toNat := by
  induction bs generalizing k with
  | nil => simp [leNat]
  | cons b t ih =>
    have hb := b.isLt
    cases k with
    | zero =>
      simp only [leNat, Nat.mul_zero, Nat.shiftRight_zero, List.getD_cons_zero]
      omega
    | succ k =>
      rw [List.getD_cons_succ, ← ih k, leNat, Nat.shiftRight_eq_div_pow, Nat.shiftRight_eq_div_pow, show 8 * (k + 1) = 8 + 8 * k by ring, Nat.pow_add,
        ← Nat.div_div_eq_div_mul, show (b.toNat + 256 * leNat t) / 2 ^ 8 = leNat t by omega]

theorem leNat_lt_two_pow {bs : Bytes} {w : Nat} (h : 8 * bs.length = w) : leNat bs < 2 ^ w := by
  rw [← h, Nat.pow_mul]
  exact leNat_lt bs

/-- Byte `k` of a word that is given by its bytes. -/
theorem extractLsb'_ofNat_leNat {bs : Bytes} {w : Nat} (h : 8 * bs.length = w) (k : Nat) :
    (BitVec.ofNat w (leNat bs)).extractLsb' (8 * k) 8 = bs.getD k 0 := by
  apply BitVec.eq_of_toNat_eq
  rw [BitVec.extractLsb'_toNat, BitVec.toNat_ofNat, Nat.mod_eq_of_lt (leNat_lt_two_pow h)]
  exact leNat_shift_mod bs k

theorem leBytes_ofNat_leNat {bs : Bytes} {w n : Nat} (hn : bs.length = n) (h : 8 * n = w) : leBytes n (BitVec.ofNat w (leNat bs)).toNat = bs := by
  subst hn
  rw [BitVec.toNat_ofNat, Nat.mod_eq_of_lt (leNat_lt_two_pow h), leBytes_leNat]

-- bytes of a byte memory

theorem Memory.readN_length (m : Memory) (a n : Nat) : (Memory.readN m a n).length = n := by
  induction n generalizing a with
  | zero => rfl
  | succ n ih => simp [Memory.readN, ih]

theorem Memory.readN_getD (m : Memory) (a : Nat) {n k : Nat} (h : k < n) : (Memory.readN m a n).getD k 0 = Memory.read m (a + k) := by
  induction n generalizing a k with
  | zero => omega
  | succ n ih =>
    cases k with
    | zero => rfl
    | succ k => rw [Memory.readN, List.getD_cons_succ, ih (a + 1) (by omega), Nat.add_assoc, Nat.add_comm 1 k]

theorem Memory.read_writeN (m : Memory) (a x : Nat) (bs : Bytes) :
    Memory.read (Memory.writeN m a bs) x = if a ≤ x ∧ x < a + bs.length then bs.getD (x - a) 0 else Memory.read m x := by
  split
  · next h =>
    have hread := Memory.readN_getD (Memory.writeN m a bs) a (n := bs.length) (k := x - a) (by omega)
    rw [Memory.readN_writeN, Nat.add_sub_cancel' h.1] at hread
    exact hread.symm
  · next h => exact Memory.read_writeN_outside m a x bs (by omega)

-- a line merged under a byte mask

/-- Byte `k` of a line. -/
def byteOf (v : BitVec 1024) (k : Nat) : Byte := v.extractLsb' (8 * k) 8

theorem Cellar.byteOf_raw (c : Cellar) (line : Nat) {k : Nat} (hk : k < 128) : byteOf (c.raw line) k = Memory.read c.mem (128 * line + k) := by
  unfold byteOf Cellar.raw Memory.readLe
  rw [extractLsb'_ofNat_leNat (by rw [Memory.readN_length]), Memory.readN_getD _ _ hk]

/-- The bytes of a merged line. -/
def mergedBytes (mask : BitVec 128) (new old : BitVec 1024) : Bytes :=
  (List.range 128).map fun k => byteOf (if mask.getLsbD k then new else old) k

theorem mergedBytes_length (mask : BitVec 128) (new old : BitVec 1024) : (mergedBytes mask new old).length = 128 := by
  simp [mergedBytes]

theorem mergedBytes_getD (mask : BitVec 128) (new old : BitVec 1024) {k : Nat} (hk : k < 128) :
    (mergedBytes mask new old).getD k 0 = if mask.getLsbD k then byteOf new k else byteOf old k := by
  simp [mergedBytes, List.getD_eq_getElem?_getD, hk, apply_ite (byteOf · k)]

/-- A sum of bytes, each at its weight, is the little-endian number of the bytes. -/
theorem foldl_range_byte (f : Nat → Byte) (n : Nat) :
    (List.range n).foldl (fun acc k => acc + (f k).toNat * 2 ^ (8 * k)) 0 = leNat ((List.range n).map f) := by
  induction n with
  | zero => rfl
  | succ n ih =>
    rw [List.range_succ, List.foldl_append, ih, List.map_append, leNat_append, List.length_map, List.length_range]
    simp [leNat, Nat.pow_mul]

theorem mergeBytes_eq (mask : BitVec 128) (new old : BitVec 1024) : mergeBytes mask new old = BitVec.ofNat 1024 (leNat (mergedBytes mask new old)) := by
  unfold mergeBytes mergedBytes
  rw [← foldl_range_byte]
  rfl

theorem leBytes_mergeBytes (mask : BitVec 128) (new old : BitVec 1024) :
    leBytes 128 (mergeBytes mask new old).toNat = mergedBytes mask new old := by
  rw [mergeBytes_eq, leBytes_ofNat_leNat (mergedBytes_length mask new old) rfl]

/-- The words that a merge writes whole are readable again; every other cell of the cellar but the line's bytes stands (R159). -/
theorem Cellar.mergeRaw_rest (c : Cellar) (line : Nat) (mask : BitVec 128) (data : BitVec 1024) : let c' := c.mergeRaw line mask data
    c' = { c with mem := c'.mem, unread := c'.unread } ∧ ∀ w ∈ c'.unread, w ∈ c.unread := by
  unfold Cellar.mergeRaw Cellar.putRaw
  generalize leBytes 128 _ = bs
  exact ⟨rfl, fun w hw => (List.mem_filter.1 hw).1⟩

theorem Cellar.mem_mergeRaw (c : Cellar) (line : Nat) (mask : BitVec 128) (data : BitVec 1024) :
    (c.mergeRaw line mask data).mem = Memory.writeN c.mem (128 * line) (leBytes 128 (mergeBytes mask data (c.raw line)).toNat) := by
  unfold Cellar.mergeRaw Cellar.putRaw
  generalize leBytes 128 _ = bs
  rfl

theorem Cellar.read_mergeRaw (c : Cellar) (line : Nat) (mask : BitVec 128) (data : BitVec 1024) (x : Nat) :
    Memory.read (c.mergeRaw line mask data).mem x =
      if 128 * line ≤ x ∧ x < 128 * line + 128 ∧ mask.getLsbD (x - 128 * line) = true then byteOf data (x - 128 * line) else Memory.read c.mem x := by
  rw [c.mem_mergeRaw line mask data, leBytes_mergeBytes, Memory.read_writeN, mergedBytes_length]
  by_cases hx : 128 * line ≤ x ∧ x < 128 * line + 128
  · have hk : x - 128 * line < 128 := by omega
    rw [if_pos hx, mergedBytes_getD _ _ _ hk, Cellar.byteOf_raw _ _ hk, Nat.add_sub_cancel' hx.1]
    exact if_congr ⟨fun h => ⟨hx.1, hx.2, h⟩, fun h => h.2.2⟩ rfl rfl
  · rw [if_neg hx, if_neg fun h => hx ⟨h.1, h.2.1⟩]

-- the commands

theorem exec_cellarWrite {k : QKind} {q : BitVec 9} {a : BitVec 34} (mask : BitVec 128) (data : BitVec 1024) (e : LineEcc) (s : State)
    (ha : lineOk a = true) : exec (.cellarWrite k q a mask data e) s = run true (Dev.cellarWrite k q a mask data e) s :=
  congrArg (run · (Dev.cellarWrite k q a mask data e) s) ha

section
variable {d : Dev} {k : QKind} {q : BitVec 9} {line : Nat} {mask : BitVec 128} {data : BitVec 1024} {e : LineEcc}

theorem Dev.storeLine_unsealed {n : Nat} (slot : BitVec 6) (f : FuncId) (h : (d.cellar.region n).sealed_ = false) :
    d.storeLine n line slot mask data e f = (d.modCellar (·.mergeRaw line mask data), .ok) :=
  if_pos (congrArg not h)

/-- A write that passes R163 is stored, and where the store succeeds the requester gets no answer. -/
theorem Dev.cellarWrite_stored {a : BitVec 34} {n : Nat} {r : Region} {d' : Dev}
    (hp : d.cellar.permits k q (a.toNat / 128) (wantOf k true) true = some (n, r)) (hclear : d.cellar.clearing = false)
    (hs : d.storeLine n (a.toNat / 128) (d.cellar.queue q).weff mask data e 0xFFFF = (d', .ok)) : Dev.cellarWrite k q a mask data e d = d' := by
  have hw : d.writeLine k q (a.toNat / 128) mask data e = (d', .ok) := by
    unfold Dev.writeLine
    rw [hp]
    dsimp only
    rw [if_neg fun h => Bool.false_ne_true (hclear.symm.trans h.1), hs]
  unfold Dev.cellarWrite Dev.writeAnswered
  rw [if_neg (Cellar.ne_bar_of_permits hp), hw]

theorem Cellar.barOk_of_region {c : Cellar} {n : Nat} {r : Region} (hr : c.regionOf line = some (n, r)) (hsealed : r.sealed_ = false)
    (hright : r.rights.getLsbD 8 = true) : c.barOk line = true := by
  unfold Cellar.barOk
  rw [hr]
  dsimp only
  rw [hsealed, show Want.barW.bit = 8 from rfl, hright]
  rfl

theorem Dev.cellarWrite_bar (a : BitVec 34) (hspace : a.toNat / 128 < dataLines) (hok : d.cellar.barOk (a.toNat / 128) = true) :
    Dev.cellarWrite .bar q a mask data e d = d.modCellar (·.mergeRaw (a.toNat / 128) mask data) := by
  unfold Dev.cellarWrite Dev.barWrite
  rw [if_pos rfl, if_pos ⟨hspace, hok⟩]

end

theorem lineOk_mul {a : BitVec 34} (h : lineOk a = true) : 128 * (a.toNat / 128) = a.toNat := by
  have := of_decide_eq_true h
  omega

/-- Settles O19: through a queue or through BAR4 the bytes reach `Cellar.mergeRaw`, whose bytes `Cellar.read_mergeRaw` gives. -/
theorem plainWritesStoreTheirBytes : Obligations.PlainWritesStoreTheirBytes := by
  intro s k q a mask data c line ha _ hclear hway
  have hstore : Dev.cellarWrite k q a mask data {} s.dev = s.dev.modCellar (·.mergeRaw line mask data) := by
    rcases hway with ⟨n, r, hp, hsealed⟩ | ⟨rfl, hspace, n, r, hr, hsealed, hright⟩
    · exact Dev.cellarWrite_stored hp hclear (Dev.storeLine_unsealed _ _ hsealed)
    · exact Dev.cellarWrite_bar a hspace (Cellar.barOk_of_region hr hsealed hright)
  obtain ⟨hrest, hunread⟩ := c.mergeRaw_rest line mask data
  refine completes_of_run (exec_cellarWrite mask data {} s ha) hstore
    (Dev.modCellar_keep (.refl _ _) (by decide) _ fun _ hm => Cellar.mergeRaw_wf hm _ _ _) ⟨hrest, hunread, fun x => ?_⟩
  exact lineOk_mul ha ▸ c.read_mergeRaw line mask data x

/-- The next entry in an unsealed region leaves the buffer, and its words are stored as they are (R172, R174). -/
theorem Dev.writeBack_unsealed {d : Dev} {w : WbEntry} {n : Nat} {r : Region} (hclear : d.cellar.clearing = false)
    (hnext : d.cellar.nextBack = some w) (hregion : d.cellar.regionOf w.line = some (n, r)) (hr : r.sealed_ = false)
    (hn : (d.cellar.region n).sealed_ = false) : Dev.writeBack {} d =
      (d.modCellar fun c => { c with wb := c.wb.erase w }).modCellar (·.mergeRaw w.line w.bytes.1 w.bytes.2) := by
  unfold Dev.writeBack
  rw [if_neg (ne_true_of_eq_false hclear), hnext]
  dsimp only
  rw [show (d.modCellar fun c => { c with wb := c.wb.erase w }).cellar.regionOf w.line = some (n, r) from hregion]
  dsimp only
  rw [if_neg fun h => Bool.false_ne_true (hr.symm.trans h.1),
    Dev.storeLine_unsealed (d := d.modCellar fun c => { c with wb := c.wb.erase w }) _ _ hn]
  exact if_neg Stored.noConfusion

/-- Settles O21: the entry leaves the buffer, and its words meet the bytes that the stack held (`Dev.writeBack_unsealed`, `Cellar.mem_mergeRaw`). -/
theorem writeBackStoresItsWords : Obligations.WriteBackStoresItsWords := by
  intro s w n r c hclear hnext hregion hr hn
  let taken : Cellar := { c with wb := c.wb.erase w }
  obtain ⟨hrest, hunread⟩ := taken.mergeRaw_rest w.line w.bytes.1 w.bytes.2
  have htaken : Keep [.cellar] s.dev (s.dev.modCellar fun c => { c with wb := c.wb.erase w }) :=
    Dev.modCellar_keep (.refl _ _) (by decide) _ fun _ hm => hm
  refine completes_of_run rfl (Dev.writeBack_unsealed hclear hnext hregion hr hn)
    (Dev.modCellar_keep htaken (by decide) _ fun _ hm => Cellar.mergeRaw_wf hm _ _ _) ⟨?_, hunread⟩
  rw [taken.mem_mergeRaw w.line w.bytes.1 w.bytes.2] at hrest
  exact hrest

end Sys2Proof.Machine
end

section
/-! Sealed lines and sweeps (06_cellar.md R154, R163, R165, R167, R169, R174, R179 to R181): what a seal leaves of the cellar, when a sweep flows, and from
them the statements about sealed writes and about sweeps. -/

namespace Sys2Proof.Machine
open Sys2Proof

-- what a seal leaves

/-- A seal changes bytes of the stack, its key slot and which words are unreadable. -/
theorem Cellar.seal_rest (c : Cellar) (line : Nat) (slot : BitVec 6) (ctr : BitVec 32) (p : BitVec 1024) :
    ∃ m k u, c.seal line slot ctr p = { c with mem := m, keys := k, unread := u } := by
  unfold Cellar.seal Cellar.setKey Cellar.putMeta Cellar.putRaw
  generalize leBytes 128 _ = bytes
  generalize leBytes 16 _ = metaBytes
  exact ⟨_, _, _, rfl⟩

theorem Cellar.readable_of_openSealed_good {c : Cellar} {line n : Nat} {e : LineEcc} {plain : BitVec 1024} (h : c.openSealed line e n = (.good, plain)) :
    c.clearing = false ∧ c.metaUe line e = false ∧ c.dataUe line e = false := by
  unfold Cellar.openSealed at h
  dsimp only at h
  by_cases hclear : c.clearing = true
  · rw [if_pos hclear] at h; cases h
  by_cases hmeta : c.metaUe line e = true
  · rw [if_neg hclear, if_pos hmeta] at h; cases h
  by_cases hdata : c.dataUe line e = true
  · rw [if_neg hclear, if_neg hmeta, if_pos hdata] at h
    split at h
    · cases h
    · split at h <;> cases h
  exact ⟨Bool.eq_false_iff.2 hclear, Bool.eq_false_iff.2 hmeta, Bool.eq_false_iff.2 hdata⟩

/-- The first part of a known pair, without a comparison of what the pair holds. -/
theorem fst_of_eq_mk {α β : Type} {p : α × β} {a : α} {b : β} (h : p = (a, b)) : p.1 = a := by
  rw [h]

/-- A SEALED line whose counter has not ended is sealed again with the next counter (R167). -/
theorem Dev.reseal_next {d : Dev} {line : Nat} (n : Nat) (slot : BitVec 6) (plain : BitVec 1024) (hstate : (d.cellar.metaOf line).state ≠ 0)
    (hctr : (d.cellar.metaOf line).ctr ≠ BitVec.allOnes 32) :
    d.reseal n line slot plain = ({ d with cellar := d.cellar.seal line slot ((d.cellar.metaOf line).ctr + 1) plain }, true) :=
  (if_neg hstate).trans (if_pos hctr)

-- sweeps that flow

theorem Dev.each_fixed {α : Type} {d : Dev} {l : List α} {f : Dev → α → Dev} (h : ∀ a ∈ l, f d a = d) : d.each l f = d := by
  unfold Dev.each
  induction l with
  | nil => rfl
  | cons a l ih => rw [List.foldl_cons, h a List.mem_cons_self, ih fun b hb => h b (List.mem_cons_of_mem a hb)]

theorem Cellar.inRepair_of_no_repair {c : Cellar} (h : c.repairing = []) (line : Nat) : c.inRepair line = false := by
  unfold Cellar.inRepair
  rw [h]
  rfl

section
variable {d : Dev}

theorem Dev.engineHeld_of_flow (h : SweepsFlow d) (z : SweepEngine) : d.engineHeld z = false := by
  obtain ⟨-, hrepair, hbackground, hup⟩ := h
  unfold Dev.engineHeld
  rw [hbackground, hup, Cellar.inRepair_of_no_repair hrepair]
  rfl

/-- Where sweeps flow, none comes to hold and none goes on (R22, R182, R470). -/
theorem Dev.syncSweeps_of_flow (h : SweepsFlow d) : d.syncSweeps = d := by
  unfold Dev.syncSweeps
  refine Dev.each_fixed fun ⟨n, z⟩ hz => ?_
  dsimp only
  split
  · rfl
  · rw [Dev.engineHeld_of_flow h]; rfl
  · next hphase => exact absurd hphase (h.1 _ hz)

/-- Sweeps flow on where an engine is set to a state other than hold. -/
theorem sweepsFlow_of_set {e : Dev} {n : Nat} {z : SweepEngine} (h : SweepsFlow d) (hz : z.phase ≠ .hold)
    (hsweeps : e.cellar.sweeps = Tbl.set {} d.cellar.sweeps n z) (hrepair : e.cellar.repairing = d.cellar.repairing)
    (htemp : e.cellar.temp = d.cellar.temp) (hpower : e.power = d.power) (htime : e.time = d.time) : SweepsFlow e := by
  obtain ⟨hnone, hrows, hbackground, hup⟩ := h
  refine ⟨fun x hx => ?_, hrepair.trans hrows, ?_, ?_⟩
  · rcases Tbl.mem_set _ _ _ _ _ (hsweeps ▸ hx) with rfl | hx
    · exact hz
    · exact hnone x hx
  · rw [← hbackground, Dev.background, Dev.background, hpower, htemp]
  · rw [← hup, Dev.hubUp, Dev.hubUp, Dev.halted, Dev.halted, hpower, htime]

end

-- the line at a sweep's boundary

section
variable {d : Dev} {z : SweepEngine} {plain : BitVec 1024}

theorem Dev.sweepStopped_readable (hdata : d.cellar.dataUe z.bound.toNat {} = false) (hmeta : d.cellar.metaUe z.bound.toNat {} = false) :
    d.sweepStopped z {} = false := by
  unfold Dev.sweepStopped
  dsimp only
  rw [Dev.lineEcc_readable hdata hmeta, Bool.and_assoc, Bool.not_and_self, Bool.and_false]

/-- A line that verifies under another slot is sealed under the target with its next counter (R179). -/
theorem Dev.sweepOne_reseals {line : Nat} (hstate : (d.cellar.metaOf line).state = 1) (hslot : (d.cellar.metaOf line).slot ≠ z.tgt)
    (hctr : (d.cellar.metaOf line).ctr ≠ BitVec.allOnes 32) (hopen : d.cellar.openSealed line {} d.free = (.good, plain)) :
    d.sweepOne z line {} = { d with cellar := d.cellar.seal line z.tgt ((d.cellar.metaOf line).ctr + 1) plain } := by
  obtain ⟨-, hmeta, hdata⟩ := Cellar.readable_of_openSealed_good hopen
  have hzero : (d.cellar.metaOf line).state ≠ 0 := by rw [hstate]; decide
  have hreseal := fst_of_eq_mk (Dev.reseal_next z.region.toNat z.tgt plain hzero hctr)
  unfold Dev.sweepOne
  rw [Dev.metaEcc_readable hmeta]
  refine (if_neg (ne_true_of_eq_false hmeta)).trans ((if_neg hzero).trans ((if_pos ⟨hstate, hslot⟩).trans ?_))
  rw [Dev.rawEcc_readable hdata]
  dsimp -iota only
  rw [hopen]
  dsimp only
  rw [if_neg (by simp), hreseal]

/-- The boundary of an engine has moved on by one line (R179). -/
def Cellar.movedOn (c : Cellar) (n : Nat) (z : SweepEngine) : Cellar := { c with sweeps := Tbl.set {} c.sweeps n { z with bound := z.bound + 1 } }

theorem Cellar.metaOf_movedOn (c : Cellar) (n : Nat) (z : SweepEngine) (line : Nat) : (c.movedOn n z).metaOf line = c.metaOf line := rfl

theorem Cellar.openSealed_movedOn (c : Cellar) (n : Nat) (z : SweepEngine) (line : Nat) (e : LineEcc) (free : Nat) :
    (c.movedOn n z).openSealed line e free = c.openSealed line e free := rfl

/-- SWEEP_LINE before its last line, where the line's words can be read, does the line and moves the boundary on; sweeps flow on (R22, R179). -/
theorem Dev.sweepLine_moves {e : BitVec 2} {c' : Cellar} (hz : Tbl.get {} d.cellar.sweeps e.toNat = z) (hflow : SweepsFlow d)
    (hrun : z.phase = .run) (hnext : z.bound + 1 < z.stop) (hbound : z.bound < z.stop) (hdata : d.cellar.dataUe z.bound.toNat {} = false)
    (hmeta : d.cellar.metaUe z.bound.toNat {} = false) (hone : d.sweepOne z z.bound.toNat {} = { d with cellar := c' })
    (hrest : ∃ m k u, c' = { d.cellar with mem := m, keys := k, unread := u }) :
    Dev.sweepLine e {} d = { d with cellar := c'.movedOn e.toNat z } := by
  obtain ⟨m, k, u, rfl⟩ := hrest
  unfold Dev.sweepLine
  dsimp only
  rw [hz, if_neg (not_not.2 hrun), if_neg (BitVec.not_le.2 hbound), if_neg (ne_true_of_eq_false (Dev.sweepStopped_readable hdata hmeta)),
    if_neg (BitVec.not_le.2 hnext), hone, hz]
  exact Dev.syncSweeps_of_flow
    (sweepsFlow_of_set (z := { z with bound := z.bound + 1 }) hflow (by rw [hrun]; decide) rfl rfl rfl rfl rfl)

end

-- the start-up clear

theorem get_filter_key {α : Type} (d : α) (t : Tbl α) (p : Nat → Bool) (i : Nat) :
    Tbl.get d (t.filter fun e => p e.1) i = if p i then Tbl.get d t i else d := by
  induction t with
  | nil => simp [Tbl.get]
  | cons e t ih =>
    obtain ⟨k, v⟩ := e
    by_cases hi : i = k
    · subst hi
      by_cases hp : p i = true
      · simp [hp, Tbl.get]
      · simp [hp, ih]
    · by_cases hp : p k = true
      · simp [hp, Tbl.get, hi, ih]
      · simp [hp, Tbl.get, hi, ih]

theorem Memory.read_clearRange (m : Memory) (a n x : Nat) :
    Memory.read (Memory.clearRange m a n) x = if a ≤ x ∧ x < a + n then 0 else Memory.read m x := by
  have hread := get_filter_key (0 : Byte) m (fun k => !decide (a ≤ k ∧ k < a + n)) x
  simp only [Bool.not_eq_true', decide_eq_false_iff_not, ite_not] at hread
  exact hread

/-- The start-up sweep, of the whole sealed area to K0 (R181). -/
def Cellar.startupSweep (c : Cellar) : SweepEngine := { phase := .run, startup := true, tgt := 0, stop := BitVec.ofNat 27 c.openLine }

/-- The cellar once the clear has ended: the metadata of the sealed area is zeros, and the start-up sweep stands on engine 0 (R181). -/
def Cellar.cleared (c : Cellar) : Cellar :=
  { c with mem := Memory.clearRange c.mem (metaAddr 0) (16 * c.openLine), unread := c.unread.filter (!wordIn (metaAddr 0) (16 * c.openLine) ·),
           clearing := false, startup := true, heldWrites := [], sweeps := Tbl.set {} c.sweeps 0 c.startupSweep }

theorem Dev.metadataClearDone_clears {d : Dev} (hflow : SweepsFlow d) (hclear : d.cellar.clearing = true) (hheld : d.cellar.heldWrites = []) :
    d.metadataClearDone = (d.modCellar (·.cleared)).raise 441 := by
  have hflow' : SweepsFlow ((d.modCellar (·.cleared)).raise 441) :=
    sweepsFlow_of_set (z := d.cellar.startupSweep) hflow SweepPhase.noConfusion rfl rfl rfl rfl rfl
  unfold Dev.metadataClearDone
  rw [if_neg (by rw [hclear]; decide), hheld]
  exact Dev.syncSweeps_of_flow hflow'

/-- Settles O22: SWEEP_LINE is a seal of the line that verifies and a move of the boundary (`Dev.sweepOne_reseals`, `Dev.sweepLine_moves`), and
METADATA_CLEAR_DONE leaves `Cellar.cleared`. -/
theorem sweepsResealLines : Obligations.SweepsResealLines := by
  refine ⟨?_, ?_⟩
  · intro s e plain c z line m _ hflow hrun hnext hbound hline hstate hslot hctr hopen htgt
    obtain ⟨hclear, hmeta, hdata⟩ := Cellar.readable_of_openSealed_good hopen
    have hkey : (c.key z.tgt).phase ≠ .empty := by rw [htgt]; decide
    have ⟨_, hrows, _, _⟩ := hflow
    have hrow := Cellar.inRepair_of_no_repair hrows line
    have hrest := c.seal_rest line z.tgt (m.ctr + 1) plain
    have hsweep := Dev.sweepLine_moves rfl hflow hrun hnext hbound hdata hmeta (Dev.sweepOne_reseals hstate hslot hctr hopen) hrest
    refine completes_imp (completes_of_run (Q := fun d => d.cellar = (c.seal line z.tgt (m.ctr + 1) plain).movedOn e.toNat z) rfl hsweep
      (Keep.upd_cellar (.refl _ _) (by decide) fun hm => Cellar.seal_wf hm _ _ _ _) rfl) fun d hd => ?_
    rw [hd, Cellar.metaOf_movedOn, Cellar.openSealed_movedOn, Cellar.metaOf_seal, c.openSealed_seal _ _ _ _ _ hline hkey hclear hrow]
    obtain ⟨mem, keys, unread, hseal⟩ := hrest
    rw [hseal]
    exact ⟨rfl, rfl, rfl, rfl, rfl⟩
  · intro s _ hflow hclear hheld
    refine completes_of_run rfl (Dev.metadataClearDone_clears hflow hclear hheld)
      (Dev.raise_keep (Dev.modCellar_keep (.refl _ _) (by decide) _ fun _ hm => Memory.wf_clearRange _ _ _ hm) (by decide) _ _)
      ⟨rfl, rfl, ⟨_, rfl, rfl, rfl⟩, Tbl.get_set_same _ s.dev.cellar.sweeps 0 s.dev.cellar.startupSweep, fun x => ?_⟩
    exact Memory.read_clearRange _ _ _ x

-- a sealed region in the open area

theorem Dev.metaEcc_openArea {d : Dev} {line : Nat} (e : LineEcc) (h : d.cellar.openLine ≤ line) : d.metaEcc line e = d := if_pos h

/-- The metadata of a line of the open area is never read (R154), so a write of a whole line of it raises nothing, though a word of that metadata is
unreadable. -/
theorem Dev.storeLine_openArea {d : Dev} {n line : Nat} {e : LineEcc} (slot : BitVec 6) (data : BitVec 1024) (f : FuncId)
    (hsealed : (d.cellar.region n).sealed_ = true) (hlost : d.cellar.metaUe line e = true) (hopen : d.cellar.openLine ≤ line) :
    ∃ d', d.storeLine n line slot (BitVec.allOnes 128) data e f = (d', .ok) ∧ d'.events = d.events := by
  refine ⟨_, (if_neg ?_).trans ((if_pos rfl).trans (if_pos hlost)), ?_⟩
  · rw [hsealed]
    decide
  · rw [Dev.take_events, Dev.modCellar_events, Dev.metaEcc_openArea e hopen]

/-- What a command completes with holds of what its run leaves. -/
theorem run_of_completes {c : Instr} {s : State} {ps : List Part} {Q : Dev → Prop} {f : Dev → Dev} (hc : exec c s = run true f s)
    (h : Completes c s ps Q) : Q (f s.dev) := by
  obtain ⟨d, he, -, hq⟩ := h
  have hd : f s.dev = d := congrArg State.dev (Host.Outcome.next.inj (hc.symm.trans he))
  exact hd ▸ hq

/-- A device whose open area is the whole data space, with a sealed region of lines 0 to 31 in it, which R154 and the CFGERR of R160 rule out, and with
an unreadable word in the metadata of line 0. -/
def Dev.sealedInOpenArea : Dev :=
  { cellar :=
      { open_ := 56, training := false, unread := [metaAddr 0 / 8], keys := [(1, { phase := .active })]
        regions := [(2, { en := true, sealed_ := true, rights := 0x1FF })]
        queues := [(0, { en := true, kind := 2, wevalid := true, weff := 1 })] } }

theorem Dev.sealedInOpenArea_memCanon : MemCanon Dev.sealedInOpenArea := ⟨by decide, ⟨by decide, by decide, by decide⟩, by decide⟩

theorem Dev.sealedInOpenArea_permits : Dev.sealedInOpenArea.cellar.permits .core 0 0 (wantOf .core true) true =
    some (2, { en := true, sealed_ := true, rights := 0x1FF }) := by decide

theorem Dev.sealedInOpenArea_lost : Dev.sealedInOpenArea.cellar.metaUe 0 {} = true := by decide

/-- Refutes O20: of a line whose metadata is unreadable it claims an event of the metadata's pseudo-channel, for a line of the open area too, whose
metadata is never read (R154). In `Dev.sealedInOpenArea` a core writes line 0 whole: the line is sealed and no event is on its way. -/
theorem not_sealedWritesReadBack : ¬ Obligations.SealedWritesReadBack := by
  intro h
  let s : State := { dev := .sealedInOpenArea }
  obtain ⟨d, hstore, hevents⟩ := Dev.storeLine_openArea (d := s.dev) (n := 2) (line := 0) (s.dev.cellar.queue 0).weff 0 0xFFFF (by decide)
    Dev.sealedInOpenArea_lost (by decide)
  have hwrite : Dev.cellarWrite .core 0 0 (BitVec.allOnes 128) 0 {} s.dev = d :=
    Dev.cellarWrite_stored (a := 0) Dev.sealedInOpenArea_permits rfl hstore
  obtain ⟨hwrites, -, -⟩ := h s .core 0 0 0 (by decide) Dev.sealedInOpenArea_memCanon rfl
  obtain ⟨-, hclaim⟩ := hwrites 2 _ Dev.sealedInOpenArea_permits (by decide) (by decide) (by decide) (by decide) (by decide)
  obtain ⟨-, ⟨o, ho, -⟩, -⟩ := run_of_completes (exec_cellarWrite _ 0 {} s (by decide)) (hclaim Dev.sealedInOpenArea_lost)
  rw [hwrite, hevents] at ho
  cases ho

end Sys2Proof.Machine
end

section
/-! Ethernet ports and SDI engines (07_media_ports.md R192 to R200, R205, R221, R222; 08_time.md R234, R235): what counts and settings leave of a port, an
engine or a flow, where a received frame goes, and from them the statement about frames, port changes, SDI lines and locks. -/

namespace Sys2Proof.Machine
open Sys2Proof

-- a port, an engine or a flow after a store

section
variable (d : Dev) (n : Nat)

@[simp] theorem Dev.eth_setEth (x : EthPort) : (d.setEth n x).eth n = x := Tbl.get_set_same _ _ _ _
@[simp] theorem Dev.sdi_setSdi (x : SdiEngine) : (d.setSdi n x).sdi n = x := Tbl.get_set_same _ _ _ _
@[simp] theorem Dev.flow_setFlow (x : Flow) : (d.setFlow n x).flow n = x := Tbl.get_set_same _ _ _ _
@[simp] theorem Dev.egr_setEgr (x : Egress) : (d.setEgr n x).egr n = x := Tbl.get_set_same _ _ _ _

@[simp] theorem Dev.eth_countEth (k m : Nat) :
    (d.countEth n k m).eth n = { d.eth n with cnt := Tbl.modify {} (d.eth n).cnt k (·.bumpBy m) } := Tbl.get_set_same _ _ _ _
@[simp] theorem Dev.sdi_countSdi (k m : Nat) :
    (d.countSdi n k m).sdi n = { d.sdi n with cnt := Tbl.modify {} (d.sdi n).cnt k (·.bumpBy m) } := Tbl.get_set_same _ _ _ _
@[simp] theorem Dev.flow_countFlow (k m : Nat) :
    (d.countFlow n k m).flow n = { d.flow n with cnt := Tbl.modify {} (d.flow n).cnt k (·.bumpBy m) } := Tbl.get_set_same _ _ _ _

@[simp] theorem Dev.eth_raise (ev k : Nat) : (d.raise ev k).eth n = d.eth n := rfl
@[simp] theorem Dev.sdi_raise (ev k : Nat) : (d.raise ev k).sdi n = d.sdi n := rfl
@[simp] theorem Dev.flow_raise (ev k : Nat) : (d.raise ev k).flow n = d.flow n := rfl

end

-- what FEC found (R192, R222)

theorem Dev.fecFound_none (d : Dev) (n : Nat) {fr : EthFrame} (hc : fr.fecCorrected = 0) (hu : fr.fecUncorrectable = 0) : d.fecFound n fr = d := by
  unfold Dev.fecFound
  dsimp only
  rw [if_pos hc, if_pos hu, ite_self]

/-- At 100 Gb/s both counts go up, and an uncorrectable codeword raises the port's event. -/
theorem Dev.fecFound_both {d : Dev} {n : Nat} {fr : EthFrame} (hmode : (d.eth n).mode = 0) (hc : fr.fecCorrected ≠ 0) (hu : fr.fecUncorrectable ≠ 0) :
    d.fecFound n fr = ((d.countEth n 0 fr.fecCorrected).countEth n 1 fr.fecUncorrectable).raise (352 + n) := by
  unfold Dev.fecFound
  dsimp only
  rw [hmode, if_neg (by simp), if_neg hc, if_neg hu]
  rfl

-- where a received frame goes (R193 to R195)

/-- A port takes a frame: it is enabled, the frame's subport is up, and the frame is not too long (R192, R193). -/
structure EthPort.Takes (p : EthPort) (sub : BitVec 2) (fr : EthFrame) : Prop where
  enabled : p.en = true
  up : p.up.getLsbD sub.toNat = true
  short : fr.length.toNat ≤ 9216

/-- A frame of which no check finds anything (R193, R222). -/
structure GoodFrame (fr : EthFrame) : Prop where
  fcs : fr.fcsOk = true
  data : fr.macControl = false
  corrected : fr.fecCorrected = 0
  uncorrectable : fr.fecUncorrectable = 0

/-- What becomes of a good frame of a port without a bridge: it is a PTP message, a packet of a flow, or the control cores' (R194). -/
def Dev.sortFrame (d : Dev) (n : Nat) (sub : BitVec 2) (fr : EthFrame) : Dev :=
  if isPtp fr ∧ fr.tags.toNat < 2 then d.ptpRx n sub fr
  else match (if fr.udp ∧ !fr.fragment ∧ fr.tags.toNat < 2 then d.matchLeg n sub.toNat fr else none) with
    | some (i, legB) => d.flowPacket i legB fr.seq
    | none => (d.setEth n { d.eth n with coreQueue := (d.eth n).coreQueue ++ [fr] }).countEth n 5

section
variable {d : Dev} {port : BitVec 3} {sub : BitVec 2} {fr : EthFrame}

theorem Dev.ethFrame_badFcs (hp : (d.eth port.toNat).Takes sub fr) (hfcs : fr.fcsOk = false) :
    Dev.ethFrame port sub fr d = (d.fecFound port.toNat fr).countEth port.toNat 2 := by
  unfold Dev.ethFrame
  dsimp only
  rw [if_neg (by simp [hp.enabled, hp.up, hp.short]), if_pos (by simp [hfcs])]

theorem Dev.ethFrame_good (hp : (d.eth port.toNat).Takes sub fr) (hfr : GoodFrame fr) (hbridge : d.bridged port.toNat = false) :
    Dev.ethFrame port sub fr d = d.sortFrame port.toNat sub fr := by
  unfold Dev.ethFrame
  dsimp only
  rw [if_neg (by simp [hp.enabled, hp.up, hp.short]), Dev.fecFound_none d _ hfr.corrected hfr.uncorrectable, if_neg (by simp [hfr.fcs]),
    if_neg (by simp [hfr.data]), if_neg (ne_true_of_eq_false hbridge)]
  rfl

variable {n : Nat}

theorem Dev.sortFrame_ptp (hptp : isPtp fr = true) (htags : fr.tags.toNat < 2) : d.sortFrame n sub fr = d.ptpRx n sub fr := if_pos ⟨hptp, htags⟩

theorem Dev.sortFrame_flow {i : Nat} {legB : Bool} (hptp : isPtp fr = false) (hudp : fr.udp = true) (hwhole : fr.fragment = false)
    (htags : fr.tags.toNat < 2) (hleg : d.matchLeg n sub.toNat fr = some (i, legB)) : d.sortFrame n sub fr = d.flowPacket i legB fr.seq := by
  unfold Dev.sortFrame
  rw [if_neg (by simp [hptp]), if_pos (by simp [hudp, hwhole, htags]), hleg]

theorem Dev.sortFrame_core (hptp : isPtp fr = false) (hleg : d.matchLeg n sub.toNat fr = none ∨ fr.udp = false) :
    d.sortFrame n sub fr = (d.setEth n { d.eth n with coreQueue := (d.eth n).coreQueue ++ [fr] }).countEth n 5 := by
  have hnone : (if fr.udp ∧ !fr.fragment ∧ fr.tags.toNat < 2 then d.matchLeg n sub.toNat fr else none) = none := by
    rcases hleg with h | h
    · rw [h, ite_self]
    · exact if_neg (by simp [h])
  unfold Dev.sortFrame
  rw [if_neg (by simp [hptp]), hnone]

end

-- PTP messages (R194, R234, R235)

section
variable {d : Dev} {o : Output}

theorem Dev.out_announce (d : Dev) (k : Nat) (m : PtpMsg) : (d.announce k m).out = d.out :=
  (Dev.announce_keep (.refl [.events, .time] d) (by decide) (by decide) k m).out.resolve_left (by decide)

theorem Dev.mem_out_ite {e : Dev} {c : Prop} [Decidable c] (hd : o ∈ d.out) (he : o ∈ e.out) : o ∈ (if c then d else e).out :=
  iteInduction (motive := (o ∈ Dev.out ·)) (fun _ => hd) fun _ => he

theorem Dev.mem_out_sendAt (h : o ∈ d.out) (n : Nat) (x : PortFrame) (t : Instant) : o ∈ (d.sendAt n x t).out := by
  unfold Dev.sendAt
  extract_lets k p sent
  have hsent : o ∈ sent.out := Dev.mem_out_ite h (List.mem_cons_of_mem _ h)
  exact Dev.mem_out_ite hsent hsent

theorem Dev.mem_out_portFrame (h : o ∈ d.out) (n : Nat) (x : PortFrame) : o ∈ (d.portFrame n x).out :=
  Dev.mem_out_ite (Dev.mem_out_sendAt h _ _ _) (Dev.mem_out_ite h h)

theorem Dev.mem_out_answerPtp (h : o ∈ d.out) (k : Nat) (fr : EthFrame) (m : PtpMsg) : o ∈ (d.answerPtp k fr m).out :=
  Dev.mem_out_portFrame h _ _

/-- What the time unit has of a received message: its ingress timestamp, and its correctionField with delayAsymmetry in it (R235). -/
def Dev.ptpTaken (d : Dev) (n : Nat) (sub : BitVec 2) (m : PtpMsg) : Output :=
  let p := d.timePort (subportOf n sub)
  .ptp (BitVec.ofNat 3 n) sub (p.ingress d.now) (m.correction + p.asymIn m.kind)

theorem Dev.ptpTaken_eq (d : Dev) (port : BitVec 3) (sub : BitVec 2) (m : PtpMsg) : let u := d.timePort (subportOf port.toNat sub)
    d.ptpTaken port.toNat sub m = .ptp port sub (u.ingress d.now)
      (if m.kind = .sync ∨ m.kind = .pdelayResp then m.correction + u.asym.signExtend 64 else m.correction) := by
  unfold Dev.ptpTaken TimePort.asymIn
  dsimp only
  rw [BitVec.ofNat_toNat, BitVec.setWidth_eq]
  split
  · rfl
  · exact congrArg _ (BitVec.add_zero _)

theorem Dev.ptpRx_taken (d : Dev) (n : Nat) (sub : BitVec 2) (fr : EthFrame) : d.ptpTaken n sub (fr.ptp.getD {}) ∈ (d.ptpRx n sub fr).out := by
  unfold Dev.ptpRx
  extract_lets k p rx m corr taken p' noted
  have htaken : d.ptpTaken n sub m ∈ taken.out := List.mem_cons_self
  refine Dev.mem_out_ite htaken ?_
  have hnoted : d.ptpTaken n sub m ∈ noted.out := htaken
  clear_value noted
  split
  · exact (Dev.out_announce noted k m).symm ▸ hnoted
  · exact Dev.mem_out_ite (Dev.mem_out_answerPtp hnoted _ _ _) hnoted
  · exact Dev.mem_out_ite (Dev.mem_out_answerPtp hnoted _ _ _) hnoted
  · exact Dev.mem_out_ite hnoted hnoted
  · exact Dev.mem_out_answerPtp hnoted _ _ _
  · exact hnoted

theorem Dev.ptpRx_unused {n : Nat} {sub : BitVec 2} {fr : EthFrame}
    (h : (d.timePort (subportOf n sub)).en = false ∨ (fr.ptp.getD {}).domain ≠ d.time.domain) :
    d.ptpRx n sub fr = d.emit (d.ptpTaken n sub (fr.ptp.getD {})) := by
  unfold Dev.ptpRx
  exact if_pos (h.imp_left fun h => by rw [h]; rfl)

end

-- a packet of a flow (R205)

theorem length_skipped (e seq : BitVec 16) (h : (seq - e).toNat < 2 ^ 15) : (skipped (some e) seq).length = (seq - e).toNat := by
  unfold skipped
  dsimp only
  rw [if_pos h, List.length_map, List.length_range]

/-- The leg A of an unmerged flow, once it has brought a packet. -/
def Flow.advanced (f : Flow) (seq : BitVec 16) : Flow :=
  { f with nextA := some (seq + 1), seen := [], missing := f.missing.filter (· != seq) }

/-- Leg A of an unmerged flow goes on behind the packet, and the numbers that it skipped count as lost on it. -/
theorem Dev.flowPacket_unmerged {d : Dev} {i : Nat} {e seq : BitVec 16} (hmerged : (d.flow i).record.merged = false) (hup : (d.flow i).legA = true)
    (hnext : (d.flow i).nextA = some e) (hgap : (seq - e).toNat < 2 ^ 15) :
    d.flowPacket i false seq = (if (seq - e).toNat = 0 then (d.setFlow i ((d.flow i).advanced seq)).countFlow i 0 1
      else ((d.setFlow i ((d.flow i).advanced seq)).countFlow i 0 1).countFlow i 4 (seq - e).toNat) := by
  have hempty : ((skipped (some e) seq).isEmpty = true) = ((seq - e).toNat = 0) := by
    rw [List.isEmpty_iff_length_eq_zero, length_skipped e seq hgap]
  have hfresh : (seq - e).toNat < 32768 := hgap
  unfold Dev.flowPacket Flow.advanced
  simp [hmerged, hup, hnext, hfresh, hempty, length_skipped e seq hgap, -BitVec.toNat_sub]

-- a subport comes up or goes down (R221, R222)

theorem Dev.subportUpDown_changes {d : Dev} {port : BitVec 3} {sub : BitVec 2} {up : Bool} (hen : (d.eth port.toNat).en = true)
    (hmode : (d.eth port.toNat).mode ≠ 0 ∨ sub = 0) (hchange : (d.eth port.toNat).up.getLsbD sub.toNat ≠ up)
    (hlanes : up = true → ∀ l ∈ subLanes (d.eth port.toNat) port.toNat sub.toNat, d.laneOut l = false) :
    Dev.subportUpDown port sub up d = (d.setEth port.toNat { d.eth port.toNat with
      up := if up then (d.eth port.toNat).up ||| ((1 : BitVec 4) <<< sub.toNat)
            else (d.eth port.toNat).up &&& ~~~((1 : BitVec 4) <<< sub.toNat) }).raise (352 + port.toNat) := by
  have hsub : ¬ ((d.eth port.toNat).mode = 0 ∧ sub ≠ 0) := fun ⟨h0, h⟩ => hmode.elim (· h0) h
  have hout : ¬ (up = true ∧ (subLanes (d.eth port.toNat) port.toNat sub.toNat).any d.laneOut = true) := by
    rintro ⟨hup, hany⟩
    obtain ⟨l, hl, hlane⟩ := List.any_eq_true.1 hany
    exact Bool.false_ne_true ((hlanes hup l hl).symm.trans hlane)
  unfold Dev.subportUpDown
  exact if_neg (by rw [hen]; simp only [hsub, hchange, hout]; decide)

-- SDI lines and locks (R197, R221)

/-- An engine has come to `x`, and of the media ports nothing but engines has changed. -/
structure Dev.SdiNow (d e : Dev) (n : Nat) (x : SdiEngine) : Prop where
  engine : e.sdi n = x
  rest : e.media = { d.media with sdi := e.media.sdi }

section
variable {d e e' : Dev} {n : Nat} {x : SdiEngine}

theorem Dev.SdiNow.set (h : d.SdiNow e n x) (y : SdiEngine) : d.SdiNow (e.setSdi n y) n y :=
  ⟨e.sdi_setSdi n y, congrArg (fun m : Media => { m with sdi := (e.setSdi n y).media.sdi }) h.rest⟩

theorem Dev.SdiNow.raise (h : d.SdiNow e n x) (ev k : Nat) : d.SdiNow (e.raise ev k) n x := ⟨h.engine, h.rest⟩

theorem Dev.SdiNow.count (h : d.SdiNow e n x) (k m : Nat) : d.SdiNow (e.countSdi n k m) n { x with cnt := Tbl.modify {} x.cnt k (·.bumpBy m) } :=
  h.engine ▸ h.set _

theorem Dev.SdiNow.ite {c : Prop} [Decidable c] (h : d.SdiNow e n x) (h' : d.SdiNow e' n x) : d.SdiNow (if c then e else e') n x :=
  iteInduction (motive := (d.SdiNow · n x)) (fun _ => h) fun _ => h'

/-- A count that is kept or not, as a choice of the counters. -/
theorem Dev.SdiNow.iteCnt {c : Prop} [Decidable c] {s t : Tbl Cnt} (h : d.SdiNow e n { x with cnt := s }) (h' : d.SdiNow e' n { x with cnt := t }) :
    d.SdiNow (if c then e else e') n { x with cnt := if c then s else t } := by
  split
  · exact h
  · exact h'

/-- MISMATCH alone follows (R197). -/
theorem Dev.SdiNow.noteMismatch (h : d.SdiNow e n x) : d.SdiNow (e.noteMismatch n) n { x with mismatch := e.sdiMismatch n } := by
  have hset := h.set { e.sdi n with mismatch := e.sdiMismatch n }
  rw [h.engine] at hset
  exact .ite (h.engine.symm ▸ hset.raise _ _) (h.engine.symm ▸ hset)

/-- What leaves the media ports alone. -/
theorem Dev.SdiNow.keep {ps : List Part} (h : d.SdiNow e n x) (hk : Keep ps e e') (hp : .media ∉ ps) : d.SdiNow e' n x := by
  have hmedia : e'.media = e.media := hk.media.resolve_left hp
  refine ⟨?_, hmedia ▸ h.rest⟩
  rw [← h.engine, Dev.sdi, hmedia]
  rfl

theorem Dev.EnRoute.noteMismatch {o : Occ} (h : e.EnRoute o) : (e.noteMismatch n).EnRoute o := .ite (fun _ => h.raise) fun _ => h

theorem Dev.SdiNow.mismatch {m : Bool} (h : d.SdiNow e n { x with mismatch := m }) : e.sdi n = { x with mismatch := (e.sdi n).mismatch } := by
  rw [h.engine]

theorem Dev.SdiNow.queueAnc (h : d.SdiNow e n x) (anc : List Bytes) :
    d.SdiNow (if anc.isEmpty then e else e.setSdi n { e.sdi n with ancQueue := (e.sdi n).ancQueue ++ anc }) n
      { x with ancQueue := x.ancQueue ++ anc } := by
  split
  · next hempty => rw [List.isEmpty_iff.1 hempty, List.append_nil]; exact h
  · exact h.engine ▸ h.set _

end

section
variable {d : Dev} {e : BitVec 5} {l : SdiLine}

/-- The counters of an engine that has received a line (R197, R223). -/
def SdiEngine.lineCnt (x : SdiEngine) (l : SdiLine) : Tbl Cnt :=
  let crc := if l.crcErrors = 0 then x.cnt else Tbl.modify {} x.cnt 0 (·.bumpBy l.crcErrors)
  let trs := if l.trsError then Tbl.modify {} crc 1 (·.bumpBy 1) else crc
  if l.ancBad = 0 then trs else Tbl.modify {} trs 2 (·.bumpBy l.ancBad)

/-- An engine that has received a line, but for MISMATCH (R197). -/
def SdiEngine.received (x : SdiEngine) (l : SdiLine) : SdiEngine :=
  { x with pid := l.pid, raster := l.raster, frate := l.frate, rxsamp := l.samp, cnt := x.lineCnt l, ancQueue := x.ancQueue ++ l.anc }

theorem Dev.sdiLine_received (hrx : (d.sdi e.toNat).rxen = true) (hlock : (d.sdi e.toNat).locked = true) (halone : d.sdiAlone e.toNat = true) :
    (∃ m, d.SdiNow (Dev.sdiLine e l d) e.toNat { (d.sdi e.toNat).received l with mismatch := m }) ∧
    (l.crcErrors ≠ 0 → OnTheWay (Dev.sdiLine e l d) (360 + e.toNat)) := by
  unfold Dev.sdiLine
  extract_lets n x format crc trs bad old queued
  rw [if_neg (by simp [n, x, hrx, hlock, halone])]
  have hformat : d.SdiNow format n { x with pid := l.pid, raster := l.raster, frate := l.frate, rxsamp := l.samp } :=
    Dev.SdiNow.set (x := x) ⟨rfl, rfl⟩ _
  have hcrc := Dev.SdiNow.iteCnt (c := l.crcErrors = 0) hformat ((hformat.count 0 l.crcErrors).raise (360 + n) 0)
  have htrs := Dev.SdiNow.iteCnt (c := l.trsError = true) (hcrc.count 1 1) hcrc
  have hbad := Dev.SdiNow.iteCnt (c := l.ancBad = 0) htrs (htrs.count 2 l.ancBad)
  refine ⟨⟨_, (hbad.queueAnc l.anc).noteMismatch⟩, fun herr => ?_⟩
  obtain ⟨o, ho, hev⟩ : OnTheWay crc (360 + n) := by
    unfold crc
    rw [if_neg herr]
    exact ⟨_, Dev.enRoute_raise _ _ _, rfl⟩
  have htrs' : trs.EnRoute o := .ite (fun _ => ho) fun _ => ho
  have hbad' : bad.EnRoute o := .ite (fun _ => htrs') fun _ => htrs'
  have hqueued : queued.EnRoute o := .ite (fun _ => hbad') fun _ => hbad'
  exact ⟨o, hqueued.noteMismatch, hev⟩

/-- A change of lock leaves the engine as `x` but for MISMATCH, and raises its event where lock has changed (R197, R221). -/
theorem Dev.noteMismatch_lock {c : Prop} [Decidable c] {n : Nat} (x : SdiEngine) :
    let d' := if c then d.setSdi n x else (d.setSdi n x).raise (360 + n)
    d.SdiNow (d'.noteMismatch n) n { x with mismatch := d'.sdiMismatch n } ∧ (¬ c → OnTheWay (d'.noteMismatch n) (360 + n)) := by
  have hset : d.SdiNow (d.setSdi n x) n x := Dev.SdiNow.set (x := d.sdi n) ⟨rfl, rfl⟩ x
  refine ⟨(hset.ite (hset.raise _ _)).noteMismatch, fun hc => ?_⟩
  rw [if_neg hc]
  exact ⟨_, (Dev.enRoute_raise _ _ _).noteMismatch, rfl⟩

/-- An engine that has locked to a line's format, but for MISMATCH (R197). -/
def SdiEngine.lockedTo (x : SdiEngine) (l : SdiLine) : SdiEngine :=
  { x with locked := true, rate := l.rate, raster := l.raster, frate := l.frate, rxsamp := l.samp, pid := l.pid }

/-- An engine that has lost lock, but for MISMATCH (R197). -/
def SdiEngine.unlocked (x : SdiEngine) : SdiEngine := { x with locked := false, rate := 0, raster := 0, frate := 0, rxsamp := 0, pid := false }

theorem Dev.sdiLockChange_locks (hrx : (d.sdi e.toNat).rxen = true) (halone : d.sdiAlone e.toNat = true)
    (hrate : (d.sdi e.toNat).rateOn l.rate = true) (hlanes : ∀ i ∈ d.rxLanes e.toNat, d.laneOut i = false) :
    (∃ m, d.SdiNow (Dev.sdiLockChange e true l d) e.toNat { (d.sdi e.toNat).lockedTo l with mismatch := m }) ∧
    ((d.sdi e.toNat).locked = false → OnTheWay (Dev.sdiLockChange e true l d) (360 + e.toNat)) := by
  obtain ⟨hnow, hevent⟩ := Dev.noteMismatch_lock (d := d) (c := true = (d.sdi e.toNat).locked) (n := e.toNat) ((d.sdi e.toNat).lockedTo l)
  unfold Dev.sdiLockChange
  dsimp only
  rw [if_neg (by simpa [hrx, halone, hrate] using hlanes), if_pos rfl]
  exact ⟨⟨_, hnow⟩, fun hlock => hevent (by rw [hlock]; decide)⟩

theorem Dev.sdiMismatch_unlocked {n : Nat} (h : (d.sdi n).locked = false) : d.sdiMismatch n = false := by
  unfold Dev.sdiMismatch
  dsimp only
  rw [h, Bool.false_and]

theorem Dev.sdiLockChange_unlocks (hrx : (d.sdi e.toNat).rxen = true) (halone : d.sdiAlone e.toNat = true) :
    d.SdiNow (Dev.sdiLockChange e false l d) e.toNat { (d.sdi e.toNat).unlocked with mismatch := false } ∧
    ((d.sdi e.toNat).locked = true → OnTheWay (Dev.sdiLockChange e false l d) (360 + e.toNat)) := by
  obtain ⟨hnow, hevent⟩ := Dev.noteMismatch_lock (d := d) (c := false = (d.sdi e.toNat).locked) (n := e.toNat) (d.sdi e.toNat).unlocked
  rw [Dev.sdiMismatch_unlocked (by split <;> simp [SdiEngine.unlocked])] at hnow
  unfold Dev.sdiLockChange
  dsimp only
  rw [if_neg (by simp [hrx, halone]), if_neg Bool.false_ne_true]
  exact ⟨hnow, fun hlock => hevent (by rw [hlock]; decide)⟩

end

-- SDI_LOCK_CHANGE, and the lanes at the rate that the engine has then (R197, R250)

section
variable {d : Dev} {o : Occ}

theorem Dev.EnRoute.lanePhase (h : d.EnRoute o) {i p} : (d.lanePhase i p).EnRoute o :=
  .ite (fun _ => Dev.EnRoute.raise (d := d.setLane i _) h) fun _ => h

theorem Dev.EnRoute.laneStart (h : d.EnRoute o) {i} : (d.laneStart i).EnRoute o := by
  have hphase : (d.lanePhaseNow i).EnRoute o := by
    unfold Dev.lanePhaseNow
    extract_lets lock third started now
    have hstarted : started.EnRoute o := h
    exact .ite (fun _ => hstarted.lanePhase) fun _ => .ite (fun _ => hstarted.lanePhase) fun _ => .ite (fun _ => hstarted.lanePhase) fun _ =>
      .ite (fun _ => hstarted) fun _ => hstarted.lanePhase
  exact .ite (fun _ => hphase) fun _ => hphase

theorem Dev.EnRoute.lanesStart (h : d.EnRoute o) {ls} : (d.lanesStart ls).EnRoute o :=
  (h.each fun _ _ h => h.laneStart).each fun _ _ h => h.laneStart

end

/-- SDI_LOCK_CHANGE: the change of lock, and then the engine's lanes at their rate. -/
def Dev.sdiLockLanes (e : BitVec 5) (locked : Bool) (l : SdiLine) (d : Dev) : Dev :=
  let d := Dev.sdiLockChange e locked l d
  d.lanesStart (d.rxLanes e.toNat)

theorem exec_sdiLockChange (e : BitVec 5) (locked : Bool) (l : SdiLine) (s : State) :
    exec (.sdiLockChange e locked l) s = run true (Dev.sdiLockLanes e locked l) s := rfl

/-- The lanes follow a change of lock without a change of the engine or a loss of its event. -/
theorem completes_sdiLockChange {s : State} {e : BitVec 5} {locked : Bool} {l : SdiLine} {x : SdiEngine} {changed : Prop}
    (hnow : s.dev.SdiNow (Dev.sdiLockChange e locked l s.dev) e.toNat x)
    (hevent : changed → OnTheWay (Dev.sdiLockChange e locked l s.dev) (360 + e.toNat)) :
    Completes (.sdiLockChange e locked l) s [.out, .media, .events, .link] fun d =>
      s.dev.SdiNow d e.toNat x ∧ (changed → OnTheWay d (360 + e.toNat)) := by
  refine completes_of_run (exec_sdiLockChange ..) rfl
    (Dev.lanesStart_keep (Dev.sdiLockChange_keep (.refl _ _) (by decide) (by decide) _ _ _) (by decide) (by decide) (by decide) _)
    ⟨hnow.keep (ps := [.out, .events, .link]) (Dev.lanesStart_keep (.refl _ _) (by decide) (by decide) (by decide) _) (by decide), fun h => ?_⟩
  obtain ⟨o, ho, hev⟩ := hevent h
  exact ⟨o, Dev.EnRoute.lanesStart ho, hev⟩

/-- Settles O27: a frame goes where `Dev.ethFrame_good` and `Dev.sortFrame` send it, and what an SDI engine receives follows in `Dev.SdiNow`. -/
theorem framesAndLinesAreReceived : Obligations.FramesAndLinesAreReceived := by
  refine ⟨?_, ?_⟩
  · intro s port sub n p hen
    refine ⟨?_, ?_⟩
    · intro fr hup hshort hbridge good
      have htakes : (s.dev.eth n).Takes sub fr := ⟨hen, hup, hshort⟩
      have hsort (h : good) : Dev.ethFrame port sub fr s.dev = s.dev.sortFrame n sub fr := by
        obtain ⟨hfcs, hdata, hc, hu⟩ := h
        exact Dev.ethFrame_good htakes ⟨hfcs, hdata, hc, hu⟩ hbridge
      refine ⟨?badFcs, ?fec, ?ptp, ?core, ?flow⟩
      case badFcs =>
        intro hfcs hc hu
        exact completes_of_run rfl ((Dev.ethFrame_badFcs htakes hfcs).trans (by rw [Dev.fecFound_none s.dev _ hc hu]))
          (Dev.countEth_keep (.refl _ _) (by decide) _ _ _) rfl
      case fec =>
        intro hfcs hmode hc hu
        refine completes_of_run rfl ((Dev.ethFrame_badFcs htakes hfcs).trans (by rw [Dev.fecFound_both hmode hc hu]))
          (Dev.countEth_keep (Dev.raise_keep (Dev.countEth_keep (Dev.countEth_keep (.refl _ _) (by decide) _ _ _) (by decide) _ _ _) (by decide) _ _)
            (by decide) _ _ _) ⟨?_, rfl, _, rfl, rfl, rfl⟩
        simp only [n, p, Dev.eth_countEth, Dev.eth_raise]
      case ptp =>
        intro hgood hptp htags u m to_
        have hrun := (hsort hgood).trans (Dev.sortFrame_ptp hptp htags)
        have hto : s.dev.ptpTaken n sub m = to_ := s.dev.ptpTaken_eq port sub m
        refine ⟨completes_of_run rfl hrun (Dev.ptpRx_keep (.refl _ _) (by decide) (by decide) (by decide) (by decide) _ _ _)
          (hto ▸ s.dev.ptpRx_taken n sub fr), fun hunused => ?_⟩
        exact completes_of_run rfl (hrun.trans (Dev.ptpRx_unused hunused)) (Dev.emit_keep (.refl _ _) (by decide) _)
          (congrArg (· :: s.dev.out) hto)
      case core =>
        intro hgood hptp hleg
        refine completes_of_run rfl ((hsort hgood).trans (Dev.sortFrame_core hptp hleg))
          (Dev.countEth_keep (Dev.setEth_keep (.refl _ _) (by decide) _ _) (by decide) _ _ _) ⟨?_, rfl⟩
        simp only [n, p, Dev.eth_countEth, Dev.eth_setEth]
      case flow =>
        intro i e f gap c hgood hptp hudp hwhole htags hleg _ hmerged hup hnext hgap
        have hrun := (hsort hgood).trans (Dev.sortFrame_flow hptp hudp hwhole htags hleg)
        have hadvanced := Dev.flowPacket_unmerged hmerged hup hnext hgap
        have hcounted := Dev.countFlow_keep (Dev.setFlow_keep (.refl [.media] s.dev) (by decide) i (f.advanced fr.seq)) (by decide) i 0 1
        by_cases hnone : gap = 0
        · rw [if_pos hnone] at hadvanced ⊢
          refine completes_of_run rfl (hrun.trans hadvanced) hcounted ⟨?_, rfl⟩
          simp only [Dev.flow_countFlow, Dev.flow_setFlow]
          rfl
        · rw [if_neg hnone] at hadvanced ⊢
          refine completes_of_run rfl (hrun.trans hadvanced) (Dev.countFlow_keep hcounted (by decide) _ _ _) ⟨?_, rfl⟩
          simp only [Dev.flow_countFlow, Dev.flow_setFlow]
          rfl
    · intro up hmode hchange hlanes
      exact completes_of_run rfl (Dev.subportUpDown_changes hen hmode hchange hlanes)
        (Dev.raise_keep (Dev.setEth_keep (.refl _ _) (by decide) _ _) (by decide) _ _) ⟨rfl, _, rfl, rfl, rfl⟩
  · intro s e l n x c0 c1 c2 hrx halone
    refine ⟨?line, ?lock, ?unlock⟩
    case line =>
      intro hlock
      obtain ⟨⟨m, hnow⟩, hevent⟩ := Dev.sdiLine_received (l := l) hrx hlock halone
      exact completes_of_run rfl rfl (Dev.sdiLine_keep (.refl _ _) (by decide) (by decide) _ _) ⟨hnow.mismatch, hnow.rest, hevent⟩
    case lock =>
      intro hrate hlanes
      obtain ⟨⟨m, hnow⟩, hevent⟩ := Dev.sdiLockChange_locks hrx halone hrate hlanes
      exact completes_imp (completes_sdiLockChange hnow hevent) fun d ⟨hd, hraised⟩ => ⟨hd.mismatch, hd.rest, hraised⟩
    case unlock =>
      obtain ⟨hnow, hevent⟩ := Dev.sdiLockChange_unlocks (l := l) hrx halone
      exact completes_imp (completes_sdiLockChange hnow hevent) fun d ⟨hd, hraised⟩ => ⟨hd.engine, hd.rest, hraised⟩

end Sys2Proof.Machine
end

section
/-! Feeds and drains (07_media_ports.md R208 to R218, R221; 10_direct_fabric.md R295, R326; 03_beat_and_commit.md R100): when a group is in time, what a
deadline counts, what a drain puts on a hub port or an egress, and from them the statement about feeds and drains. -/

namespace Sys2Proof.Machine
open Sys2Proof

/-- An event raised after what raises none. -/
theorem Keep.raised {d e : Dev} {ps : List Part} (h : Keep ps d e) (hp : .events ∉ ps) (ev n : Nat) : Raised d (e.raise ev n) ev :=
  ⟨_, by rw [Dev.raise_events, h.events.resolve_left hp], rfl, rfl⟩

-- groups at a feed (R208, R209)

section
variable {d : Dev} {ref : EndRef}

theorem Dev.nominal_eq (d : Dev) (ref : EndRef) (fm : Fmt) (g : FedGroup) : d.nominal ref fm g =
    if refKind ref ≠ 1 then g.lastNominal
    else if fm.fmt = 1 then
      mediaTime d.now 90000 g.rtp + trOffset fm (d.flow (refNum ref)).record.troff + sampleAfter fm g.line.toNat (lastSample fm g.index.toNat)
    else mediaTime d.now (if fm.fmt = 2 ∨ fm.fmt = 3 then audioRate fm else 90000) g.rtp := by
  unfold Dev.nominal
  refine ite_congr rfl (fun _ => rfl) fun _ => ?_
  split
  · next h => rw [if_pos h]
  · next h => rw [if_neg (by omega), if_pos (.inl h)]
  · next h => rw [if_neg (by omega), if_pos (.inr h)]
  · next h1 h2 h3 => rw [if_neg h1, if_neg (not_or.2 ⟨h2, h3⟩)]

/-- A group is in time for its beat: its window has begun, and the deadline of its beat has not passed (R209). -/
def Dev.InTime (d : Dev) (key : Instant) : Prop :=
  d.time.run = false ∨ d.time.start ≤ key ∧ (d.time.next ≤ key ∨ d.now + 128 * ns ≤ d.time.next)

theorem Dev.late_iff_not_inTime (d : Dev) (key : Instant) :
    (d.time.run && (decide (key < d.time.start) || (decide (key < d.time.next) && decide (d.time.next < d.now + 128 * ns)))) = true ↔ ¬ d.InTime key := by
  unfold Dev.InTime
  cases d.time.run
  · simp
  · simp only [Bool.true_and, Bool.or_eq_true, Bool.and_eq_true, decide_eq_true_eq, Bool.true_eq_false, false_or, not_and_or, not_or, not_le]

/-- The group as it waits at its feed. -/
def Dev.fed (d : Dev) (ref : EndRef) (fm : Fmt) (g : FedGroup) : FeedGroup :=
  { src := ref, key := d.nominal ref fm g + d.offRx ref, group := { g.toGroup with lastNominal := d.nominal ref fm g } }

theorem Dev.feedGroup_late {fm : Fmt} {g : FedGroup} (hfm : d.inFormat ref = some fm) (h : ¬ d.InTime (d.nominal ref fm g + d.offRx ref)) :
    Dev.feedGroup ref g d = d := by
  unfold Dev.feedGroup
  rw [hfm]
  exact if_pos ((d.late_iff_not_inTime _).2 h)

/-- A group in time waits at its feed, once frame stores have taken it; under MISMATCH they do not (R197, R209). -/
theorem Dev.feedGroup_inTime {fm : Fmt} {g : FedGroup} (hfm : d.inFormat ref = some fm) (h : d.InTime (d.nominal ref fm g + d.offRx ref)) :
    ∃ e, Dev.feedGroup ref g d = e.modMedia (fun m => { m with groups := m.groups ++ [d.fed ref fm g] }) ∧ Keep [.free, .events, .cellar] d e ∧
      (d.mismatched ref = true → e = d) := by
  unfold Dev.feedGroup
  rw [hfm]
  refine ⟨_, if_neg fun hlate => (d.late_iff_not_inTime _).1 hlate h, Keep.ite (.refl _ _) ?_, fun hm => if_pos hm⟩
  exact Dev.each_keep (.refl _ _) fun _ f hf => Dev.each_keep hf fun _ b hb => Dev.storeGroup_keep hb (by decide) (by decide) (by decide) _ _ _ _ _ _ _

-- the deadline of a feed (R209)

/-- How many groups of a source have arrived in the feed window of the beat. -/
def Dev.arrived (d : Dev) (ref : EndRef) : Nat :=
  (d.media.groups.filter fun x => x.src == ref && decide (d.time.start ≤ x.key ∧ x.key < d.time.next)).length

theorem Dev.feedDeadline_eq {expected : Nat} (hrun : d.time.run = true) (hin : (d.inFormat ref).isSome = true) :
    Dev.feedDeadline ref expected d = (d.reach (d.time.next - 128 * ns)).lateGroups ref (expected - d.arrived ref) := by
  unfold Dev.feedDeadline
  dsimp only
  rw [if_neg (by simp [hrun, Option.isSome_iff_ne_none.1 hin]), Dev.reach_media, Dev.reach_time]
  rfl

variable {n : Nat} (hn : n ≠ 0)
include hn

theorem Dev.lateGroups_flow (h : refKind ref = 1) : d.lateGroups ref n = (d.countFlow (refNum ref) 3 n).raise (flowEvent (refNum ref)) := by
  unfold Dev.lateGroups
  rw [if_neg hn, if_pos h]

theorem Dev.lateGroups_store (h : refKind ref = 3) : d.lateGroups ref n = d := by
  unfold Dev.lateGroups
  rw [if_neg hn, if_neg (by omega), if_pos h]

theorem Dev.lateGroups_engine (h1 : refKind ref ≠ 1) (h3 : refKind ref ≠ 3) :
    d.lateGroups ref n = (d.countSdi (refNum ref) 1 n).raise (360 + refNum ref) := by
  unfold Dev.lateGroups
  rw [if_neg hn, if_neg h1, if_neg h3]

end

-- the release of a drain (R100)

/-- A drain of a function that is released directly in this beat: the function has emitted the beat before, has not released the drain, and no
reroute of the drain waits (R100, R216). -/
structure Dev.Drains (d : Dev) (id : FuncId) (k : BitVec 8) (f : Func) (b : BindRec) : Prop where
  func : d.func? id = some f
  record : f.obj.bindings.find? (fun b => b.type == 2 && b.num == k.toNat) = some b
  run : d.time.run = true
  beat : f.emitBeat + 1 = d.time.n
  unreleased : b.num ∉ f.released
  settled : ∀ y ∈ d.media.reroutes, ¬ (y.func = id ∧ y.drain = b.num)

/-- The function has released a drain. -/
def Func.release (f : Func) (dr : Nat) : Func := { f with released := dr :: f.released }

section
variable {d : Dev} {id : FuncId} {k : BitVec 8} {f : Func} {b : BindRec}

/-- The device once the function has noted the release. -/
def Dev.noteRelease (d : Dev) (id : FuncId) (dr : Nat) : Dev := d.modFunc id (·.release dr)

theorem Dev.Drains.func?_noteRelease (h : d.Drains id k f b) : (d.noteRelease id b.num).func? id = some (f.release b.num) :=
  Dev.func?_modFunc_same (g := (·.release b.num)) (fun _ => rfl) h.func

theorem Dev.Drains.find?_reroute (h : d.Drains id k f b) : d.media.reroutes.find? (fun y => y.func == id && y.drain == b.num) = none :=
  List.find?_eq_none.2 fun y hy => by simpa using h.settled y hy

theorem Dev.Drains.guard (h : d.Drains id k f b) : ¬ ((!d.time.run) = true ∨ f.emitBeat + 1 ≠ d.time.n ∨ b.num ∈ f.released) := by
  rw [h.run, h.beat]
  simp [h.unreleased]

theorem Dev.refOut_of_media {e : Dev} (h : e.media = d.media) (r : EndRef) : e.refOut r = d.refOut r := by
  have hout : e.outFormat = d.outFormat := by
    funext i
    unfold Dev.outFormat Dev.engine Dev.sdiAlone Dev.sdi Dev.flow
    rw [h]
  unfold Dev.refOut
  rw [hout]

theorem Dev.drainRelease_port (h : d.Drains id k f b) (hkind : refKind (Tbl.get 0 f.ends.drains b.num) = 4) :
    Dev.drainRelease id k d = (d.noteRelease id b.num).releaseToPort f b (refNum (Tbl.get 0 f.ends.drains b.num) % 64) := by
  have hfind := h.find?_reroute
  unfold Dev.drainRelease
  simp only [h.func, h.record]
  rw [if_neg h.guard]
  simp only [Dev.modFunc_media, hfind]
  rw [if_pos hkind]
  rfl

theorem Dev.drainRelease_egress {e : Nat} {fm : Fmt} (h : d.Drains id k f b) (hkind : refKind (Tbl.get 0 f.ends.drains b.num) ≠ 4)
    (he : refEgress (Tbl.get 0 f.ends.drains b.num) = some e) (hfm : d.refOut (Tbl.get 0 f.ends.drains b.num) = some fm) :
    Dev.drainRelease id k d = ((d.noteRelease id b.num).setEgr e ((d.noteRelease id b.num).drainPlaces f b e fm).2).releaseTo f b e
      ((d.noteRelease id b.num).drainPlaces f b e fm).1 := by
  have hfind := h.find?_reroute
  have hfm' : (d.modFunc id fun f => { f with released := b.num :: f.released }).refOut (Tbl.get 0 f.ends.drains b.num) = some fm :=
    (Dev.refOut_of_media (Dev.modFunc_media ..) _).trans hfm
  unfold Dev.drainRelease
  simp only [h.func, h.record]
  rw [if_neg h.guard]
  simp only [Dev.modFunc_media, hfind]
  rw [if_neg hkind]
  simp only [he, hfm']
  rfl

end

-- a hub port (R295, R326)

/-- The words of a hub port's drain, by their place. -/
def Func.portWords (f : Func) (b : BindRec) : List (Nat × Lanes) :=
  (List.range b.size).filterMap fun i => (Tbl.get none f.emitting (b.num * 65536 + i)).map fun w => (i, w.word)

/-- A hub port once its drain is released: it takes the words of a committed beat, which are stale where its block does not run (R295, R326). -/
def HubPort.released (h : HubPort) (commit : Bool) (block : FbPhase) (ws : List (Nat × Lanes)) : HubPort :=
  if ¬ commit then { h with rx := [], rxcount := 0, rxsub := true }
  else if block ≠ .run then { h with rx := [], rxcount := 0, stale := h.stale + ws.length }
  else { h with rx := ws, rxcount := 0 }

theorem Dev.releaseToPort_fabric (d : Dev) (f : Func) (b : BindRec) (p : Nat) : (d.releaseToPort f b p).fabric =
    { d.fabric with hubports := Tbl.set {} d.fabric.hubports p ((Tbl.get {} d.fabric.hubports p).released f.emitCommit
        (Tbl.get ({} : FbBlock) d.fabric.blocks p).phase (f.portWords b)) } := by
  unfold Dev.releaseToPort HubPort.released Func.portWords
  generalize (Tbl.get ({} : FbBlock) d.fabric.blocks p).phase = block
  cases f.emitCommit
  · simp [Dev.putFabric, Tbl.modify]
  · by_cases hrun : block = .run
    · simp [Dev.putFabric, Tbl.modify, hrun]
    · simp [Dev.putFabric, Tbl.modify, hrun]

-- the egress of a flow (R215, R217, R221)

section
variable {d : Dev} {ref : EndRef} {e : Nat}

theorem refEgress_flow_lt (hkind : refKind ref = 1) (he : refEgress ref = some e) : e < 1024 := by
  unfold refEgress at he
  by_cases hlt : refNum ref < 1024
  · rw [if_pos ⟨hkind, hlt⟩] at he
    exact Option.some.inj he ▸ hlt
  · simp [hkind, hlt] at he

theorem Dev.refOut_flow (hkind : refKind ref = 1) (he : refEgress ref = some e) (hopen : (d.flow (1024 + e)).opened = true) :
    d.refOut ref = some (d.flow (1024 + e)).record.format := by
  unfold Dev.refOut
  rw [if_neg (by omega), he, Option.bind_some, Dev.outFormat, if_pos (refEgress_flow_lt hkind he), if_pos hopen]

theorem flowEvent_of_lt (he : e < 1024) : flowEvent e = 392 + e / 32 := by
  rw [flowEvent, Nat.mod_eq_of_lt he]

/-- Substitutes of a committed beat count on the flow, and raise its event where there are any (R217, R221). -/
theorem Dev.countSubst_counts (d : Dev) (he : e < 1024) (n : Nat) : let c := d.countSubst e n (decide (n ≠ 0))
    c.flow (1024 + e) = { d.flow (1024 + e) with
      cnt := if n = 0 then (d.flow (1024 + e)).cnt else Tbl.modify {} (d.flow (1024 + e)).cnt 6 (·.bumpBy n) } ∧
    c.media = { d.media with flows := c.media.flows } ∧ (n ≠ 0 → Raised d c (392 + e / 32)) := by
  by_cases hn : n = 0
  · have hc : d.countSubst e n (decide (n ≠ 0)) = d := if_pos (.inr hn)
    rw [hc, if_pos hn]
    exact ⟨rfl, rfl, fun h => absurd hn h⟩
  · have hc : d.countSubst e n (decide (n ≠ 0)) = (d.countFlow (1024 + e) 6 n).raise (392 + e / 32) := by
      unfold Dev.countSubst
      rw [if_neg (not_or.2 ⟨Nat.not_le.2 he, hn⟩), decide_eq_true hn, flowEvent_of_lt he]
      rfl
    rw [hc, if_neg hn]
    exact ⟨Dev.flow_countFlow .., rfl, fun _ => (Dev.countFlow_keep (.refl [.media] d) (by decide) _ _ _).raised (by decide) _ _⟩

end

-- an egress of ANC (R217 to R219)

section
variable {f : Func} {b : BindRec}

theorem Func.drainShown_committed (hc : f.emitCommit = true) (rep gw : Nat) {slot : Nat} (hs : slot < b.gmax) :
    f.drainShown b rep slot gw = (f.drainGroup rep b.num slot gw).elim (.subst (f.substOf b.num), true) fun ws => (.words ws, false) := by
  unfold Func.drainShown
  rw [if_pos ⟨hc, hs⟩, hc]
  cases f.drainGroup rep b.num slot gw <;> rfl

/-- The place of a slot of an ANC drain in the beat's window (R217). -/
def Dev.ancPlace (d : Dev) (b : BindRec) (k : Nat) : Spot :=
  { frame := 0, line := 0, index := k, last := decide (k + 1 = b.gmax), time := d.time.start + d.steps64 }

theorem Dev.drainPlaces_anc (d : Dev) (f : Func) (e : Nat) (fm : Fmt) (h : b.fmt = 4) :
    d.drainPlaces f b e fm = ((List.range b.gmax).map fun k => (d.ancPlace b k, 0, k), d.egr e) := if_pos h

/-- The item shows a substitute. -/
def EgressItem.substituted (x : EgressItem) : Bool := match x.shown with | .subst _ => true | _ => false

/-- Of items whose substitutes are all STOP, an ANC egress takes those that are not substituted (R219). -/
theorem Dev.ancItems_stop (d : Dev) (e : Nat) {xs : List EgressItem} (h : ∀ x ∈ xs, ∀ c, x.shown = .subst c → c = 4) :
    d.ancItems e xs = xs.filter (!·.substituted) := by
  unfold Dev.ancItems
  extract_lets code quiet
  have hquiet : xs.filter (fun x => !quiet x) = xs.filter (!·.substituted) := by
    refine List.filter_congr fun x hx => ?_
    unfold quiet EgressItem.substituted
    cases hs : x.shown with
    | subst c => rw [h x hx c hs]; rfl
    | words | passed => rfl
  rw [hquiet, List.find?_eq_none.2, Option.toList_none, ite_self, List.append_nil]
  intro x hx
  cases hs : x.shown with
  | subst c => rw [h x hx c hs]; exact Bool.false_ne_true
  | words | passed => exact Bool.false_ne_true

/-- The slots of an ANC drain that are not whole (R217). -/
def Func.missingSlots (f : Func) (b : BindRec) : List Nat := (List.range b.gmax).filter fun i => (f.drainGroup 0 b.num i 1).isNone

/-- A group of a drain as an egress holds it. -/
def Spot.item (p : Spot) (beat : Beat) (w : Shown) : EgressItem :=
  { frame := p.frame, line := p.line, index := p.index, last := p.last, time := p.time, shown := w, beat }

/-- The whole group slots of an ANC drain, at their places (R217). -/
def Func.wholeItems (f : Func) (b : BindRec) (place : Nat → Spot) : List EgressItem :=
  (List.range b.gmax).filterMap fun i => (f.drainGroup 0 b.num i 1).map fun ws => (place i).item (f.emitBeat + 1) (.words ws)

section
variable (hc : f.emitCommit = true)
include hc

theorem Func.substituted_length (place : Nat → Spot) :
    (((List.range b.gmax).map fun k => (place k, f.drainShown b 0 k 1)).filter fun y => match y.2.1 with | .subst _ => true | _ => false).length =
      (f.missingSlots b).length := by
  rw [List.filter_map, List.length_map]
  refine congrArg List.length (List.filter_congr fun k hk => ?_)
  rw [Function.comp_apply, Func.drainShown_committed hc 0 1 (List.mem_range.1 hk)]
  cases f.drainGroup 0 b.num k 1 <;> rfl

theorem Func.any_substituted (place : Nat → Spot) :
    (((List.range b.gmax).map fun k => (place k, f.drainShown b 0 k 1)).any (·.2.2)) = decide ((f.missingSlots b).length ≠ 0) := by
  rw [Bool.eq_iff_iff, decide_eq_true_iff, List.any_map, List.any_eq_true, ne_eq, List.length_eq_zero_iff, Func.missingSlots, List.filter_eq_nil_iff]
  push Not
  refine exists_congr fun k => and_congr_right fun hk => ?_
  rw [Function.comp_apply, Func.drainShown_committed hc 0 1 (List.mem_range.1 hk)]
  cases f.drainGroup 0 b.num k 1 <;> rfl

theorem Func.filter_items (place : Nat → Spot) :
    ((List.range b.gmax).map fun k => (place k).item (f.emitBeat + 1) (f.drainShown b 0 k 1).1).filter (!·.substituted) = f.wholeItems b place := by
  rw [← List.filterMap_eq_filter, List.filterMap_map]
  refine List.filterMap_congr fun k hk => ?_
  rw [Function.comp_apply, Func.drainShown_committed hc 0 1 (List.mem_range.1 hk)]
  cases f.drainGroup 0 b.num k 1 <;> rfl

/-- The substitutes of a drain whose slots are all whole, or whose substitute is STOP, are all STOP. -/
theorem Func.stop_items (hstop : (f.missingSlots b).length = 0 ∨ f.substOf b.num = 4) (place : Nat → Spot) :
    ∀ x ∈ (List.range b.gmax).map fun k => (place k).item (f.emitBeat + 1) (f.drainShown b 0 k 1).1, ∀ c, x.shown = .subst c → c = 4 := by
  intro x hx c hs
  obtain ⟨k, hk, rfl⟩ := List.mem_map.1 hx
  rw [Spot.item, Func.drainShown_committed hc 0 1 (List.mem_range.1 hk)] at hs
  cases hg : f.drainGroup 0 b.num k 1 with
  | some ws => rw [hg] at hs; cases hs
  | none =>
    rw [hg] at hs
    have hk' : k ∈ f.missingSlots b := List.mem_filter.2 ⟨hk, hg ▸ rfl⟩
    exact (Shown.subst.inj hs).symm.trans (hstop.resolve_left (List.length_pos_of_mem hk').ne')

/-- A committed beat's ANC drain puts its whole slots on the egress; the others count in SUBST, with the flow's event (R217, R221). -/
theorem Dev.releaseTo_anc (d : Dev) {e : Nat} (place : Nat → Spot) (hfmt : b.fmt = 4) (he : e < 1024)
    (hstop : (f.missingSlots b).length = 0 ∨ f.substOf b.num = 4) :
    let missing := (f.missingSlots b).length
    let counted := d.countSubst e missing (decide (missing ≠ 0))
    d.releaseTo f b e ((List.range b.gmax).map fun k => (place k, 0, k)) =
      (counted.setFlow (1024 + e) { counted.flow (1024 + e) with subst := decide (missing ≠ 0) }).setEgr e
        { d.egr e with queue := (d.egr e).queue ++ f.wholeItems b place } := by
  intro missing counted
  unfold Dev.releaseTo
  extract_lets gw x shown item subs counted' fl noted items
  have hgw : gw = 1 := if_pos (.inl hfmt)
  have hshown : shown = (List.range b.gmax).map fun k => (place k, f.drainShown b 0 k 1) := by
    unfold shown
    rw [List.map_map, hgw]
    rfl
  have hsubs : subs = missing := by
    unfold subs
    rw [hshown]
    exact Func.substituted_length hc place
  have hcounted : counted' = counted := by
    unfold counted'
    rw [hsubs, hshown, Func.any_substituted hc place]
  have hnoted : noted = counted.setFlow (1024 + e) { counted.flow (1024 + e) with subst := decide (missing ≠ 0) } := by
    unfold noted fl
    rw [if_pos he, hsubs, hcounted]
  have hitems : items = (List.range b.gmax).map fun k => (place k).item (f.emitBeat + 1) (f.drainShown b 0 k 1).1 := by
    unfold items item
    rw [hshown, List.map_map]
    refine List.map_congr_left fun k _ => ?_
    simp [hfmt, Spot.item]
  rw [if_pos hfmt, hitems, Dev.ancItems_stop _ _ (Func.stop_items hc hstop place), Func.filter_items hc place, hnoted]

end

end

/-- What the release of an ANC drain leaves of the function, the egress and the flow: the egress has the whole slots of the committed beat (R217). -/
theorem Dev.drainRelease_anc {d : Dev} {id : FuncId} {k : BitVec 8} {f : Func} {b : BindRec} {e : Nat} (h : d.Drains id k f b)
    (hkind : refKind (Tbl.get 0 f.ends.drains b.num) = 1) (he : refEgress (Tbl.get 0 f.ends.drains b.num) = some e) (hfmt : b.fmt = 4)
    (hc : f.emitCommit = true) (hopen : (d.flow (1024 + e)).opened = true)
    (hstop : (f.missingSlots b).length = 0 ∨ f.substOf b.num = 4) :
    let missing := (f.missingSlots b).length
    let fl := d.flow (1024 + e)
    let d' := Dev.drainRelease id k d
    Keep [.events, .funcs, .media] d d' ∧ d'.func? id = some (f.release b.num) ∧
    d'.egr e = { d.egr e with queue := (d.egr e).queue ++ f.wholeItems b (d.ancPlace b) } ∧
    d'.flow (1024 + e) = { fl with subst := decide (missing ≠ 0), cnt := if missing = 0 then fl.cnt else Tbl.modify {} fl.cnt 6 (·.bumpBy missing) } ∧
    (missing ≠ 0 → Raised d d' (392 + e / 32)) ∧ d'.media = { d.media with egress := d'.media.egress, flows := d'.media.flows } := by
  intro missing fl d'
  have hlt := refEgress_flow_lt hkind he
  let noted := d.noteRelease id b.num
  let asked := noted.setEgr e (noted.egr e)
  let counted := asked.countSubst e missing (decide (missing ≠ 0))
  let left := (counted.setFlow (1024 + e) { counted.flow (1024 + e) with subst := decide (missing ≠ 0) }).setEgr e
    { asked.egr e with queue := (asked.egr e).queue ++ f.wholeItems b (d.ancPlace b) }
  have hrun : d' = left := by
    refine (Dev.drainRelease_egress h (fun h4 => absurd (hkind.symm.trans h4) (by decide)) he (Dev.refOut_flow hkind he hopen)).trans ?_
    rw [Dev.drainPlaces_anc _ _ _ _ hfmt]
    exact asked.releaseTo_anc hc (d.ancPlace b) hfmt hlt hstop
  have hasked : Keep [.events, .funcs, .media] d asked := Dev.setEgr_keep (Dev.modFunc_keep (.refl _ _) (by decide) _ _) (by decide) _ _
  have hcounted : Keep [.events, .media] asked counted := Dev.countSubst_keep (.refl _ _) (by decide) (by decide) _ _ _
  have hfuncs : counted.funcs = noted.funcs := hcounted.funcs.resolve_left (by decide)
  obtain ⟨hflow, hmedia, hraised⟩ := asked.countSubst_counts hlt missing
  rw [hrun]
  refine ⟨Dev.setEgr_keep (Dev.setFlow_keep (Dev.countSubst_keep hasked (by decide) (by decide) _ _ _) (by decide) _ _) (by decide) _ _,
    ?_, ?_, ?_, hraised, congrArg (fun m : Media => { m with egress := left.media.egress, flows := left.media.flows }) hmedia⟩
  · exact (congrArg (List.find? fun x : Func => x.id == id) hfuncs).trans h.func?_noteRelease
  · rw [Dev.egr_setEgr, noted.egr_setEgr e]
    rfl
  · refine (Dev.flow_setFlow _ _ _).trans ?_
    rw [hflow]
    rfl

/-- Settles O29: a group is in time or too late (`Dev.feedGroup_inTime`), a deadline counts what has not arrived (`Dev.feedDeadline_eq`), and a drain
is released to its hub port or its egress (`Dev.drainRelease_port`, `Dev.drainRelease_egress`). -/
theorem feedsTakeGroupsAndDrainsReleaseThem : Obligations.FeedsTakeGroupsAndDrainsReleaseThem := by
  refine ⟨⟨?groups, ?deadline⟩, ?drains⟩
  case groups =>
    intro s ref g fm flow nominal key inTime hfm
    have hnominal : s.dev.nominal ref fm g = nominal := s.dev.nominal_eq ref fm g
    have hkey : s.dev.InTime (s.dev.nominal ref fm g + s.dev.offRx ref) ↔ inTime := by rw [hnominal]; rfl
    refine ⟨fun htime => ?_, fun hlate => ?_⟩
    · obtain ⟨e, hrun, hkeep, hmismatch⟩ := Dev.feedGroup_inTime hfm (hkey.2 htime)
      have hmedia : e.media = s.dev.media := hkeep.media.resolve_left (by decide)
      refine completes_of_run rfl rfl (Dev.feedGroup_keep (.refl _ _) (by decide) (by decide) (by decide) (by decide) _ _) ?_
      rw [hrun, Dev.modMedia_media, Dev.modMedia_cellar, hmedia, Dev.fed, hnominal]
      exact ⟨rfl, fun hm => congrArg Dev.cellar (hmismatch hm)⟩
    · exact completes_of_run rfl (Dev.feedGroup_late hfm (mt hkey.1 hlate)) (.refl _ _) trivial
  case deadline =>
    intro s ref expected have_ k hrun hin hmissing
    have hlate : expected - s.dev.arrived ref ≠ 0 := Nat.sub_ne_zero_of_lt hmissing
    have hdeadline := Dev.feedDeadline_eq (expected := expected) hrun hin
    have hreach : Keep [.now, .media] s.dev (s.dev.reach (s.dev.time.next - 128 * ns)) := Dev.reach_keep (.refl _ _) (by decide) _
    have hnow := Dev.reach_now s.dev (s.dev.time.next - 128 * ns)
    have hmedia := Dev.reach_media s.dev (s.dev.time.next - 128 * ns)
    generalize s.dev.reach (s.dev.time.next - 128 * ns) = r at hdeadline hreach hnow hmedia
    have hkeep : Keep [.media, .events] r (r.lateGroups ref (expected - s.dev.arrived ref)) :=
      Dev.lateGroups_keep (.refl _ _) (by decide) (by decide) _ _
    refine completes_of_run rfl rfl (Dev.feedDeadline_keep (.refl _ _) (by decide) (by decide) (by decide) _ _) ?_
    rw [hdeadline]
    refine ⟨(hkeep.now.resolve_left (by decide)).trans hnow, fun h1 => ?_, fun h3 => ?_, fun h1 h3 => ?_⟩
    · rw [Dev.lateGroups_flow hlate h1]
      have hflow : r.flow k = s.dev.flow k := by rw [Dev.flow, hmedia]; rfl
      refine ⟨?_, ?_, (Dev.countFlow_keep hreach (by decide) _ _ _).raised (by decide) _ _⟩
      · rw [Dev.flow_raise, Dev.flow_countFlow, hflow]
        rfl
      · rw [← hmedia]
        rfl
    · rw [Dev.lateGroups_store hlate h3]
      exact ⟨hmedia, hreach.events.resolve_left (by decide)⟩
    · rw [Dev.lateGroups_engine hlate h1 h3]
      have hsdi : r.sdi k = s.dev.sdi k := by rw [Dev.sdi, hmedia]; rfl
      refine ⟨?_, ?_, (Dev.countSdi_keep hreach (by decide) _ _ _).raised (by decide) _ _⟩
      · rw [Dev.sdi_raise, Dev.sdi_countSdi, hsdi]
        rfl
      · rw [← hmedia]
        rfl
  case drains =>
    intro s id k f b ref hf hb hrun hbeat hnew hroute
    have hdrains : s.dev.Drains id k f b := ⟨hf, hb, hrun, hbeat, hnew, hroute⟩
    have hfunc := hdrains.func?_noteRelease
    refine ⟨?port, ?egress⟩
    case port =>
      intro hkind
      refine completes_of_run rfl (Dev.drainRelease_port hdrains hkind)
        (Dev.releaseToPort_keep (Dev.modFunc_keep (.refl _ _) (by decide) _ _) (by decide) _ _ _) ⟨hfunc, ?_⟩
      rw [Dev.releaseToPort_fabric]
      rfl
    case egress =>
      intro e hkind he hfmt hc hopen fl missing hstop
      obtain ⟨hkeep, hleaves⟩ := Dev.drainRelease_anc hdrains hkind he hfmt hc hopen hstop
      exact completes_of_run rfl rfl hkeep hleaves

end Sys2Proof.Machine
end

section
/-! Device time and its source (08_time.md R228 to R233, R239, R243, R245, R248): what a change of the servo's state, HOLDOVER, a slewed measurement and a
step of device time leave of the time unit, and from them the statement about measured offsets, losses of the source and TIME_SET. -/

namespace Sys2Proof.Machine
open Sys2Proof

-- the servo's state (R230, R248)

/-- The mean of INCR over the last 60 s of LOCKED, of the period that ends now or of an earlier one. -/
def TimeUnit.meanAt (t : TimeUnit) (now : Instant) : Option Nat := (if t.servo = .locked then meanOf now t.incrLog else none).or t.meanIncr

/-- The time unit in HOLDOVER from an instant on. -/
def TimeUnit.heldAt (t : TimeUnit) (now : Instant) : TimeUnit :=
  { t with meanIncr := t.meanAt now, incrLog := if t.servo = .locked then [] else t.incrLog,
           incr := (t.meanAt now).getD 0x200000000, incrBase := (t.meanAt now).getD 0x200000000, incrAt := now,
           servo := .holdover, good := if t.servo = .holdover then t.good else 0 }

theorem TimeUnit.heldAt_locked {t : TimeUnit} (h : t.servo = .locked) (now : Instant) : t.heldAt now =
    { t with meanIncr := t.meanAt now, incrLog := [], incr := (t.meanAt now).getD 0x200000000, incrBase := (t.meanAt now).getD 0x200000000,
             incrAt := now, servo := .holdover, good := 0 } := by
  simp [TimeUnit.heldAt, h]

section
variable {d : Dev} {o : Occ} {x : Servo}

/-- Where no INCR was set while LOCKED there is no mean. -/
theorem meanOf_nil (now : Instant) : meanOf now [] = none := rfl

theorem Dev.keepMean_time (d : Dev) : d.keepMean.time =
    { d.time with meanIncr := d.time.meanAt d.now, incrLog := if d.time.servo = .locked then [] else d.time.incrLog } := by
  unfold Dev.keepMean TimeUnit.meanAt
  by_cases h : d.time.servo = .locked
  · simp only [if_pos h, Dev.modTime_time]
  · simp only [if_neg h, Option.none_or]

theorem Dev.keepMean_now (d : Dev) : d.keepMean.now = d.now :=
  Keep.now_eq (Dev.keepMean_keep (.refl _ _) (by decide))

theorem Dev.setServo_now (d : Dev) (x : Servo) : (d.setServo x).now = d.now :=
  Keep.now_eq (Dev.setServo_keep (.refl _ _) (by decide) (by decide) x)

theorem Dev.setServo_same (h : d.time.servo = x) : d.setServo x = d := if_pos h

theorem Dev.setServo_new (h : d.time.servo ≠ x) : (d.setServo x).time = { d.keepMean.time with servo := x, good := 0 } := by
  unfold Dev.setServo
  rw [if_neg h]
  dsimp only
  split <;> rfl

/-- A servo that enters a state changes the state, its count of small offsets and what stands of the mean, and nothing else of the time unit. -/
theorem Dev.setServo_time (d : Dev) (x : Servo) :
    ∃ g m l, (d.setServo x).time = { d.time with servo := x, good := g, meanIncr := m, incrLog := l } := by
  by_cases h : d.time.servo = x
  · exact ⟨d.time.good, d.time.meanIncr, d.time.incrLog, by rw [Dev.setServo_same h, ← h]⟩
  · exact ⟨0, _, _, by rw [Dev.setServo_new h, Dev.keepMean_time]⟩

theorem Dev.holdover_time (d : Dev) : d.holdover.time = d.time.heldAt d.now := by
  unfold Dev.holdover TimeUnit.heldAt
  extract_lets m incr
  by_cases h : d.time.servo = .holdover
  · rw [Dev.setServo_same (by simpa [m, Dev.keepMean_time] using h)]
    simp [m, incr, Dev.keepMean_time, Dev.keepMean_now, h]
  · rw [Dev.setServo_new (by simpa [m, Dev.keepMean_time] using h)]
    by_cases hl : d.time.servo = .locked
    · simp [m, incr, Dev.keepMean_time, Dev.keepMean_now, hl, TimeUnit.meanAt, meanOf_nil]
    · simp [m, incr, Dev.keepMean_time, Dev.keepMean_now, h, hl, TimeUnit.meanAt]

theorem Dev.EnRoute.keepMean (h : d.EnRoute o) : d.keepMean.EnRoute o := .ite (fun _ => h.modTime) fun _ => h

theorem Dev.EnRoute.setServo (h : d.EnRoute o) : (d.setServo x).EnRoute o :=
  .ite (fun _ => h) fun _ => .ite (fun _ => h.keepMean.modTime.raise.raise) fun _ => h.keepMean.modTime.raise

theorem Dev.EnRoute.holdover (h : d.EnRoute o) : d.holdover.EnRoute o := h.keepMean.modTime.setServo

/-- A change to HOLDOVER raises its two events. -/
theorem Dev.setServo_holdover_raises (h : d.time.servo ≠ .holdover) :
    OnTheWay (d.setServo .holdover) 576 ∧ OnTheWay (d.setServo .holdover) 578 := by
  unfold Dev.setServo
  rw [if_neg h]
  exact ⟨⟨_, (Dev.enRoute_raise _ 576 0).raise, rfl⟩, ⟨_, Dev.enRoute_raise _ 578 0, rfl⟩⟩

theorem Dev.holdover_raises (h : d.time.servo ≠ .holdover) : OnTheWay d.holdover 576 ∧ OnTheWay d.holdover 578 :=
  Dev.setServo_holdover_raises (by simpa [Dev.keepMean_time] using h)

theorem Dev.setIncr_time (d : Dev) (v : Nat) : (d.setIncr v).time =
    let w := max incrMin (min incrMax v)
    { d.time with incr := w, clamp := w != v, cnt := if w = v then d.time.cnt else bumpAt d.time.cnt 1 } := by
  unfold Dev.setIncr
  extract_lets w e
  split <;> rfl

end

-- the generator's start (R239)

section
variable {d : Dev}

theorem Dev.armStart_ordered (he : d.time.enabled = true) (hr : d.time.run = false) (ha : d.time.armed = false) :
    d.armStart.time = { d.time with armed := true, next := ceilDiv (d.now + 1000 * ns) d.period * d.period,
                                    first := BitVec.ofNat 64 (ceilDiv (d.now + 1000 * ns) d.period) } := by
  unfold Dev.armStart
  rw [if_neg (by simp [he, hr, ha])]
  rfl

theorem Dev.armStart_running (hr : d.time.run = true) : d.armStart = d := if_pos (.inr (.inl hr))

theorem Dev.armStart_time (d : Dev) : ∃ a n f, d.armStart.time = { d.time with armed := a, next := n, first := f } := by
  unfold Dev.armStart
  split
  · exact ⟨_, _, _, rfl⟩
  · exact ⟨_, _, _, rfl⟩

theorem Dev.armStart_now (d : Dev) : d.armStart.now = d.now := Keep.now_eq (Dev.armStart_keep (.refl _ _) (by decide))

theorem Dev.EnRoute.armStart {o : Occ} (h : d.EnRoute o) : d.armStart.EnRoute o := .ite (fun _ => h) fun _ => h

end

-- a step of device time (R228, R238, R243)

/-- The time unit `u` has what a step by `mv` leaves of the beats of `t` and of its PPS input. -/
structure TimeUnit.SteppedTo (t : TimeUnit) (mv : Instant → Instant) (u : TimeUnit) : Prop where
  run : u.run = t.run
  n : u.n = t.n
  lastPps : u.lastPps = t.lastPps.map mv
  next : t.run = true → u.next = mv t.next

theorem map_movedBy (t : Option Instant) (delta : Int) : t.map (fun p => ((p : Int) + delta).toNat) = t.map (movedBy delta) := by
  cases t <;> rfl

/-- Device time after a step, with all the times that the step moves but those of the rasters. -/
def Dev.shifted (d : Dev) (delta : Int) : Dev := (d.putNow (movedBy delta d.now)).moveTimes (movedBy delta)

section
variable {d : Dev}

/-- A step leaves the servo, the beat's number and length, and whether beats run or are ordered; the last edge of PPS moves. -/
theorem TimeUnit.moved_time (t : TimeUnit) (mv : Instant → Instant) : ∃ nx st sts ia il ps, t.moved mv =
    { t with next := nx, start := st, starts := sts, lastPps := t.lastPps.map mv, incrAt := ia, incrLog := il, ports := ps } := by
  unfold TimeUnit.moved
  split <;> exact ⟨_, _, _, _, _, _, rfl⟩

theorem TimeUnit.steppedTo_moved (t : TimeUnit) (mv : Instant → Instant) : t.SteppedTo mv (t.moved mv) := by
  obtain ⟨nx, st, sts, ia, il, ps, h⟩ := t.moved_time mv
  refine ⟨by rw [h], by rw [h], by rw [h], fun hr => ?_⟩
  unfold TimeUnit.moved
  rw [if_pos (.inl hr)]

/-- The generator's start does not touch the beats that run. -/
theorem TimeUnit.SteppedTo.armStart {t : TimeUnit} {mv : Instant → Instant} (h : t.SteppedTo mv d.time) : t.SteppedTo mv d.armStart.time := by
  obtain ⟨a, n, f, harm⟩ := d.armStart_time
  refine ⟨by rw [harm]; exact h.run, by rw [harm]; exact h.n, by rw [harm]; exact h.lastPps, fun hr => ?_⟩
  rw [Dev.armStart_running (h.run.trans hr)]
  exact h.next hr

theorem Dev.stepTime_keeps (d : Dev) (delta : Int) : Keep [.media, .events] (d.shifted delta) (d.stepTime delta) :=
  Dev.raise_keep (Dev.each_keep (.refl _ _) fun _ _ h => Dev.stepEgress_keep h (by decide) _ _) (by decide) _ _

theorem Dev.stepTime_now (d : Dev) (delta : Int) : (d.stepTime delta).now = movedBy delta d.now := (d.stepTime_keeps delta).now.resolve_left (by decide)

theorem Dev.stepTime_time (d : Dev) (delta : Int) : (d.stepTime delta).time = d.time.moved (movedBy delta) :=
  (d.stepTime_keeps delta).time.resolve_left (by decide)

theorem Dev.stepTime_raises (d : Dev) (delta : Int) : OnTheWay (d.stepTime delta) 580 := ⟨_, Dev.enRoute_raise _ 580 0, rfl⟩

end

-- a measured offset (R230, R231)

/-- The time unit with the offset that has been measured. -/
def TimeUnit.measured (t : TimeUnit) (o : Int) : TimeUnit := { t with offset := satOffset o, sourcePresent := true }

/-- The device after the step that takes the first measured offset away, LOCKING. -/
def Dev.firstLock (d : Dev) (o : Int) : Dev :=
  (((d.modTime (·.measured o)).stepTime (-o)).modTime fun t => { t with lockedOnce := true }).setServo .locking

/-- The generator starts on its own unless the source is the bridged link (R239). -/
def Dev.startUnlessUplink (d : Dev) : Dev := if d.time.src = 3 then d else d.armStart

/-- The device with a measured offset whose correction is refused (R231). -/
def Dev.refused (d : Dev) (o : Int) : Dev :=
  (((d.modTime (·.measured o)).modTime fun t => { t with refusing := true, refusedOffset := -o }).raise 577).countTime 0

/-- The device with a measured offset that the servo takes. -/
def Dev.taken (d : Dev) (o : Int) : Dev := (d.modTime (·.measured o)).modTime fun t => { t with refusing := false }

/-- The servo follows its source: LOCKING from HOLDOVER and from FREE, LOCKED after 16 small offsets in a row (R230). -/
def Dev.follows (d : Dev) (o : Int) : Dev :=
  let d := if d.time.servo = .holdover ∨ d.time.servo = .free then d.setServo .locking else d
  let good := if o.natAbs < 100 * ns then d.time.good + 1 else 0
  if d.time.servo = .locking then (if 16 ≤ good then d.setServo .locked else d.modTime fun t => { t with good }) else d

/-- The servo sets the INCR that it asks for (R231). -/
def Dev.slewed (d : Dev) : Dev :=
  let e := ((d.take 2).modTime fun t => { t with incrBase := d.servoAsk.1, incrAt := d.now }).setIncr d.servoAsk.2
  if e.time.servo = .locked then e.modTime fun t => { t with incrLog := (e.now, t.incr) :: t.incrLog } else e

section
variable {d : Dev} {o : Int}

theorem Dev.servoMeasurement_first (hs : d.time.src ≠ 0) (hl : d.time.lockedOnce = false) :
    d.servoMeasurement o = (d.firstLock o).startUnlessUplink := by
  unfold Dev.servoMeasurement
  rw [if_neg hs]
  exact if_pos (by simp [hl])

theorem Dev.servoMeasurement_refused (hs : d.time.src ≠ 0) (hl : d.time.lockedOnce = true) (ho : d.time.thresh.toNat * ns < o.natAbs) :
    d.servoMeasurement o = (d.refused o).holdover := by
  unfold Dev.servoMeasurement
  rw [if_neg hs]
  exact (if_neg (by simp [hl])).trans (if_pos ho)

theorem Dev.servoMeasurement_taken (hs : d.time.src ≠ 0) (hl : d.time.lockedOnce = true) (ho : o.natAbs ≤ d.time.thresh.toNat * ns) :
    d.servoMeasurement o = ((d.taken o).follows o).slewed := by
  unfold Dev.servoMeasurement
  rw [if_neg hs]
  exact (if_neg (by simp [hl])).trans (if_neg (Nat.not_lt.2 ho))

theorem Dev.firstLock_now : (d.firstLock o).now = movedBy (-o) d.now := (Dev.setServo_now _ _).trans (Dev.stepTime_now _ _)

theorem Dev.firstLock_time : ∃ g m l, (d.firstLock o).time =
    { (d.time.measured o).moved (movedBy (-o)) with lockedOnce := true, servo := .locking, good := g, meanIncr := m, incrLog := l } := by
  obtain ⟨g, m, l, h⟩ := Dev.setServo_time (((d.modTime (·.measured o)).stepTime (-o)).modTime fun t => { t with lockedOnce := true }) .locking
  rw [Dev.modTime_time, Dev.stepTime_time, Dev.modTime_time] at h
  exact ⟨g, m, l, h⟩

theorem Dev.firstLock_steppedTo : d.time.SteppedTo (movedBy (-o)) (d.firstLock o).time := by
  obtain ⟨g, m, l, h⟩ := d.firstLock_time (o := o)
  obtain ⟨hrun, hn, hpps, hnext⟩ := (d.time.measured o).steppedTo_moved (movedBy (-o))
  rw [h]
  exact ⟨hrun, hn, hpps, hnext⟩

theorem Dev.firstLock_raises : OnTheWay (d.firstLock o) 580 := by
  obtain ⟨x, hx, hev⟩ := (d.modTime (·.measured o)).stepTime_raises (-o)
  exact ⟨x, Dev.EnRoute.setServo (Dev.EnRoute.modTime hx), hev⟩

theorem Dev.startUnlessUplink_now : d.startUnlessUplink.now = d.now := by
  unfold Dev.startUnlessUplink
  split
  · rfl
  · exact d.armStart_now

theorem Dev.startUnlessUplink_time : ∃ a n f, d.startUnlessUplink.time = { d.time with armed := a, next := n, first := f } := by
  unfold Dev.startUnlessUplink
  split
  · exact ⟨_, _, _, rfl⟩
  · exact d.armStart_time

theorem Dev.startUnlessUplink_steppedTo {t : TimeUnit} {mv : Instant → Instant} (h : t.SteppedTo mv d.time) :
    t.SteppedTo mv d.startUnlessUplink.time := by
  unfold Dev.startUnlessUplink
  split
  · exact h
  · exact h.armStart

theorem Dev.EnRoute.startUnlessUplink {x : Occ} (h : d.EnRoute x) : d.startUnlessUplink.EnRoute x := .ite (fun _ => h) fun _ => h.armStart

theorem Dev.refused_keeps : Keep [.time, .events] d (d.refused o) :=
  Dev.countTime_keep (Dev.raise_keep (Dev.modTime_keep (Dev.modTime_keep (.refl _ _) (by decide) _) (by decide) _) (by decide) _ _) (by decide) _

theorem Dev.taken_keeps : Keep [.free, .time, .events] d (d.taken o) := Dev.modTime_keep (Dev.modTime_keep (.refl _ _) (by decide) _) (by decide) _

theorem Dev.follows_keep {ps : List Part} {e : Dev} (h : Keep ps e d) (hevents : .events ∈ ps) (htime : .time ∈ ps) : Keep ps e (d.follows o) := by
  unfold Dev.follows
  extract_lets d1 good
  have h1 : Keep ps e d1 := .ite (Dev.setServo_keep h hevents htime _) h
  exact .ite (.ite (Dev.setServo_keep h1 hevents htime _) (Dev.modTime_keep h1 htime _)) h1

theorem Dev.slewed_keep {ps : List Part} {e : Dev} (h : Keep ps e d) (hfree : .free ∈ ps) (hevents : .events ∈ ps) (htime : .time ∈ ps) :
    Keep ps e d.slewed := by
  unfold Dev.slewed
  extract_lets d1
  have h1 : Keep ps e d1 := Dev.setIncr_keep (Dev.modTime_keep (Dev.take_keep h hfree _) htime _) hevents htime _
  exact .ite (Dev.modTime_keep h1 htime _) h1

/-- The offsets under 100 ns in a row, with this one; the count begins again where the servo begins to follow. -/
def TimeUnit.goodWith (t : TimeUnit) (o : Int) : Nat :=
  if o.natAbs < 100 * ns then (if t.servo = .holdover ∨ t.servo = .free then 0 else t.good) + 1 else 0

theorem Dev.follows_locked (h : d.time.servo = .locked) : d.follows o = d := by
  simp [Dev.follows, h]

theorem Dev.follows_locking (h : d.time.servo = .locking) : d.follows o =
    if 16 ≤ d.time.goodWith o then d.setServo .locked else d.modTime fun t => { t with good := d.time.goodWith o } := by
  simp [Dev.follows, TimeUnit.goodWith, h]

/-- A servo that begins to follow its source has had one small offset at most. -/
theorem TimeUnit.goodWith_begins {t : TimeUnit} (h : t.servo = .holdover ∨ t.servo = .free) : t.goodWith o = if o.natAbs < 100 * ns then 1 else 0 := by
  simp only [TimeUnit.goodWith, if_pos h, Nat.zero_add]

theorem TimeUnit.goodWith_begins_few {t : TimeUnit} (h : t.servo = .holdover ∨ t.servo = .free) : ¬ 16 ≤ t.goodWith o := by
  rw [TimeUnit.goodWith_begins h]
  split <;> decide

theorem Dev.follows_begins (h : d.time.servo = .holdover ∨ d.time.servo = .free) :
    d.follows o = (d.setServo .locking).modTime fun t => { t with good := d.time.goodWith o } := by
  have hnew : (d.setServo .locking).time = _ := Dev.setServo_new (by rcases h with h | h <;> simp [h])
  unfold Dev.follows
  simp only [if_pos h, hnew, Nat.zero_add, ← TimeUnit.goodWith_begins h, if_neg (TimeUnit.goodWith_begins_few h), if_true]

theorem Dev.follows_time : ∃ g m l, (d.follows o).time =
    { d.time with servo := if d.time.servo = .locked ∨ 16 ≤ d.time.goodWith o then .locked else .locking, good := g, meanIncr := m, incrLog := l } := by
  by_cases hbegins : d.time.servo = .holdover ∨ d.time.servo = .free
  · obtain ⟨g, m, l, hset⟩ := d.setServo_time .locking
    have hnot : ¬ (d.time.servo = .locked ∨ 16 ≤ d.time.goodWith o) := by
      rintro (hl | hg)
      · rcases hbegins with h | h <;> cases h.symm.trans hl
      · exact TimeUnit.goodWith_begins_few hbegins hg
    exact ⟨_, m, l, by rw [Dev.follows_begins hbegins, Dev.modTime_time, hset, if_neg hnot]⟩
  cases h : d.time.servo with
  | free => exact absurd (.inr h) hbegins
  | holdover => exact absurd (.inl h) hbegins
  | locked => exact ⟨_, _, _, by rw [Dev.follows_locked h, if_pos (.inl rfl), ← h]⟩
  | locking =>
    rw [Dev.follows_locking h]
    by_cases hg : 16 ≤ d.time.goodWith o
    · obtain ⟨g, m, l, hset⟩ := d.setServo_time .locked
      exact ⟨g, m, l, by rw [if_pos hg, if_pos (.inr hg), hset]⟩
    · exact ⟨_, _, _, by rw [if_neg hg, if_neg (by simp [hg]), Dev.modTime_time, ← h]⟩

theorem Dev.slewed_time (d : Dev) : ∃ c k l, d.slewed.time =
    { d.time with incrBase := d.servoAsk.1, incrAt := d.now, incr := max incrMin (min incrMax d.servoAsk.2), clamp := c, cnt := k, incrLog := l } := by
  unfold Dev.slewed
  extract_lets e
  have he : e.time = _ := Dev.setIncr_time _ _
  split
  · exact ⟨_, _, _, by rw [Dev.modTime_time, he]; rfl⟩
  · exact ⟨_, _, _, by rw [he]; rfl⟩

/-- While LOCKED the frequency part moves by at most 0.1 ppm for each second since it was last set, and the slewing part is at most 5 ppm. -/
theorem Dev.servoAsk_locked (h : d.time.servo = .locked) :
    let most := (d.now - d.time.incrAt) * 2 ^ 33 / (10 ^ 7 * (10 ^ 9 * ns))
    d.servoAsk.1 ≤ d.time.incrBase + most ∧ d.time.incrBase ≤ d.servoAsk.1 + most ∧
    d.servoAsk.2 ≤ d.servoAsk.1 + 42949 ∧ d.servoAsk.1 - 42949 ≤ d.servoAsk.2 := by
  intro most
  unfold Dev.servoAsk
  extract_lets t ask phase _ base
  rw [if_neg (not_not.2 h)]
  have hbase : base = max (d.time.incrBase - most) (min (d.time.incrBase + most) ask) := rfl
  clear_value base most
  dsimp only
  omega

end

-- losses of the source (R230, R232, R245)

/-- The source is lost. -/
def TimeUnit.sourceGone (t : TimeUnit) : TimeUnit := { t with sourcePresent := false }

/-- The master of a PTP source is no longer heard (R232). -/
def Dev.masterLost (d : Dev) : Dev :=
  match d.time.src.toNat, d.time.slavePort with
  | 1, some (k, _) => (d.modTime fun t => { t with ports := Tbl.modify {} t.ports k fun p => { p with best := none } }).chooseMaster
  | _, _ => d

section
variable {d : Dev}

theorem Dev.chooseMaster_time (d : Dev) : ∃ ps gm, d.chooseMaster.time = { d.time with ports := ps, grandmaster := gm } := by
  unfold Dev.chooseMaster
  extract_lets best role gm was e
  split <;> exact ⟨_, _, rfl⟩

theorem Dev.masterLost_time (d : Dev) : ∃ ps gm, d.masterLost.time = { d.time with ports := ps, grandmaster := gm } := by
  unfold Dev.masterLost
  split
  · obtain ⟨ps, gm, h⟩ := Dev.chooseMaster_time (d.modTime _)
    exact ⟨ps, gm, h⟩
  · exact ⟨_, _, rfl⟩

theorem Dev.masterLost_none (h : d.time.src ≠ 1 ∨ d.time.slavePort = none) : d.masterLost = d := by
  unfold Dev.masterLost
  split
  · next k x hsrc hport =>
    rcases h with h | h
    · exact absurd (BitVec.eq_of_toNat_eq hsrc) h
    · cases hport.symm.trans h
  · rfl

/-- A LOCKED servo whose source is lost (R230). -/
theorem Dev.sourceLoss_locked (h : d.time.servo = .locked) :
    d.sourceLoss = (d.modTime TimeUnit.sourceGone).masterLost.holdover := by
  obtain ⟨ps, gm, hlost⟩ := (d.modTime TimeUnit.sourceGone).masterLost_time
  exact if_pos (show (d.modTime TimeUnit.sourceGone).masterLost.time.servo = .locked by rw [hlost]; exact h)

theorem Dev.masterLost_now (d : Dev) : d.masterLost.now = d.now := by
  unfold Dev.masterLost
  split
  · exact Keep.now_eq (d := d) (Dev.chooseMaster_keep (Dev.modTime_keep (.refl _ _) (by decide) _) (by decide) (by decide))
  · rfl

/-- The device that shows the loss of the PPS input, at an instant (R245). -/
def Dev.ppsMissed (d : Dev) (at_ : Instant) : Dev :=
  ((d.reach at_).modTime fun x => { x with ppsloss := true, sourcePresent := false }).raise 586

theorem Dev.ppsLoss_shown {p : Instant} (hs : d.time.src = 2) (hl : d.time.ppsloss = false) (hp : d.time.lastPps = some p) :
    d.ppsLoss = (d.ppsMissed (p + 1500000000 * ns)).holdover := by
  unfold Dev.ppsLoss
  rw [hp]
  exact if_neg (by simp [hs, hl])

theorem Dev.ppsMissed_holdover (d : Dev) (at_ : Instant) : let e := (d.ppsMissed at_).holdover
    e.now = max d.now at_ ∧ OnTheWay e 586 ∧ e.time = TimeUnit.heldAt { d.time with ppsloss := true, sourcePresent := false } e.now := by
  have hnow : (d.ppsMissed at_).holdover.now = (d.ppsMissed at_).now := Keep.now_eq (Dev.holdover_keep (.refl _ _) (by decide) (by decide))
  refine ⟨hnow.trans (d.reach_now at_), ⟨_, Dev.EnRoute.holdover (Dev.enRoute_raise _ 586 0), rfl⟩, ?_⟩
  rw [Dev.holdover_time, hnow]
  unfold Dev.ppsMissed
  rw [Dev.raise_time, Dev.modTime_time, Dev.reach_time]

end

-- TIME_SET (R233)

theorem Tbl.get_mapAll_listed {α : Type} [DecidableEq α] (d : α) (t : Tbl α) (f : α → α) (j : Nat) (h : Tbl.get d t j ≠ d) :
    Tbl.get d (Tbl.mapAll d t f) j = f (Tbl.get d t j) := by
  induction t with
  | nil => exact absurd rfl h
  | cons x t ih =>
    obtain ⟨k, v⟩ := x
    simp only [Tbl.mapAll, Tbl.get] at h ⊢
    by_cases hj : j = k
    · subst hj
      split
      · next hv => rw [Tbl.get_erase_same, if_pos rfl, hv]
      · simp [Tbl.get]
    · rw [if_neg hj] at h
      split
      · rw [Tbl.get_erase_other _ _ _ _ hj, ih h]
      · simp only [Tbl.get, if_neg hj, ih h]

/-- An entry after a step of device time. -/
def RetEntry.moved (mv : Instant → Instant) (e : RetEntry) : RetEntry := { e with ready := e.ready.map mv }

section
variable {d : Dev} {x : DescRef} {e : RetEntry}

theorem Dev.entry_shifted (h : d.entry? x = some e) (delta : Int) : (d.shifted delta).entry? x = some (e.moved (movedBy delta)) := by
  unfold Dev.entry? at h ⊢
  have hlisted : Tbl.get ({} : Ring) d.rings.pairs x.ring.toNat ≠ {} := by
    intro hnone
    unfold Dev.ring at h
    rw [hnone] at h
    cases h
  have hring : ((d.shifted delta).ring x.ring).window = (d.ring x.ring).window.map (RetEntry.moved (movedBy delta)) :=
    congrArg Ring.window (Tbl.get_mapAll_listed _ _ _ _ hlisted)
  rw [hring, List.find?_map]
  exact congrArg (Option.map _) h

theorem Dev.shifted_keep (d : Dev) (delta : Int) :
    Keep [.now, .cellar, .media, .time, .link, .fabric, .loader, .rings, .cores, .strong, .power] d (d.shifted delta) := by
  apply Dev.moveTimes_keep (Dev.putNow_keep (.refl _ _) (by decide) _) <;> decide

theorem openDesc_keep {ps : List Part} {d' : Dev} (h : OpenDesc d x e) (hk : Keep ps d d') (hr : .rings ∉ ps) (hl : .link ∉ ps) : OpenDesc d' x e := by
  obtain ⟨hentry, hopen, hwindows, hfree⟩ := h
  refine ⟨?_, hopen, hk.windows hwindows, ?_⟩
  · unfold Dev.entry? Dev.ring at hentry ⊢
    rw [hk.rings.resolve_left hr]
    exact hentry
  · rw [hk.link.resolve_left hl]
    exact hfree

theorem openDesc_start (h : OpenDesc d x e) : OpenDesc (d.start x) x { e with started := true } := by
  obtain ⟨hentry, hwindows⟩ := Dev.start_entry h.windows h.entry
  exact ⟨hentry, h.unfinished, hwindows, h.free⟩

theorem openDesc_stepTime (h : OpenDesc d x e) (delta : Int) : OpenDesc (d.stepTime delta) x (e.moved (movedBy delta)) := by
  have hshifted : OpenDesc (d.shifted delta) x (e.moved (movedBy delta)) :=
    ⟨Dev.entry_shifted h.entry delta, h.unfinished, (d.shifted_keep delta).windows h.windows, h.free⟩
  exact openDesc_keep hshifted (d.stepTime_keeps delta) (by decide) (by decide)

theorem Dev.EnRoute.afterSet {o : Occ} (h : d.EnRoute o) : d.afterSet.EnRoute o :=
  .armStart (.ite (fun _ => h.modTime.setServo) fun _ => h.modTime.holdover)

theorem Dev.EnRoute.finishOk {o : Occ} (h : d.EnRoute o) {i j : Nat} : (d.finishOk x i j).EnRoute o := h.commitPoint.finish

/-- What TIME_SET does of the servo (R233). -/
def Dev.servoAfterSet (d : Dev) : Dev :=
  let e := d.modTime fun t => { t with lockedOnce := true, refusing := false }
  if e.time.sourcePresent ∧ e.time.src ≠ 0 then e.setServo .locking else e.holdover

theorem Dev.afterSet_eq (d : Dev) : d.afterSet = d.servoAfterSet.armStart := rfl

theorem Dev.servoAfterSet_time (d : Dev) : ∃ sv g m l i b a, d.servoAfterSet.time =
    { d.time with lockedOnce := true, refusing := false, servo := sv, good := g, meanIncr := m, incrLog := l, incr := i, incrBase := b, incrAt := a } := by
  unfold Dev.servoAfterSet
  extract_lets e
  split
  · obtain ⟨g, m, l, h⟩ := e.setServo_time .locking
    exact ⟨_, _, _, _, _, _, _, h⟩
  · exact ⟨_, _, _, _, _, _, _, e.holdover_time⟩

/-- The device after TIME_SET's step, before its descriptor completes. -/
def Dev.setBy (d : Dev) (x : DescRef) (delta : Int) : Dev := ((d.start x).stepTime delta).afterSet

theorem Dev.setBy_keeps (d : Dev) (x : DescRef) (delta : Int) : Keep [.events, .time] ((d.start x).stepTime delta) (d.setBy x delta) :=
  Dev.afterSet_keep (.refl _ _) (by decide) (by decide)

theorem Dev.setBy_now (d : Dev) (x : DescRef) (delta : Int) : (d.setBy x delta).now = movedBy delta d.now :=
  ((d.setBy_keeps x delta).now.resolve_left (by decide)).trans (Dev.stepTime_now _ _)

theorem Dev.setBy_raises (d : Dev) (x : DescRef) (delta : Int) : ∃ o, (d.setBy x delta).EnRoute o ∧ o.ev = BitVec.ofNat 10 580 := by
  obtain ⟨o, ho, hev⟩ := (d.start x).stepTime_raises delta
  exact ⟨o, Dev.EnRoute.afterSet ho, hev⟩

theorem Dev.setBy_steppedTo (d : Dev) (x : DescRef) (delta : Int) : d.time.SteppedTo (movedBy delta) (d.setBy x delta).time := by
  rw [Dev.setBy, Dev.afterSet_eq]
  refine TimeUnit.SteppedTo.armStart ?_
  obtain ⟨sv, g, m, l, i, b, a, h⟩ := ((d.start x).stepTime delta).servoAfterSet_time
  rw [Dev.stepTime_time] at h
  obtain ⟨hrun, hn, hpps, hnext⟩ := d.time.steppedTo_moved (movedBy delta)
  rw [h]
  exact ⟨hrun, hn, hpps, hnext⟩

theorem Dev.setBy_servo (d : Dev) (x : DescRef) (delta : Int) :
    (d.setBy x delta).time.lockedOnce = true ∧ (d.setBy x delta).time.refusing = false := by
  obtain ⟨sv, g, m, l, i, b, a, hservo⟩ := ((d.start x).stepTime delta).servoAfterSet_time
  obtain ⟨ar, nx, fi, harm⟩ := ((d.start x).stepTime delta).servoAfterSet.armStart_time
  rw [hservo, ← Dev.afterSet_eq] at harm
  exact ⟨congrArg TimeUnit.lockedOnce harm, congrArg TimeUnit.refusing harm⟩

/-- TIME_SET with the step that its mode gives. -/
def Dev.setDone (d : Dev) (x : DescRef) (delta : Int) : Dev :=
  (d.setBy x delta).finishOk x 0 (signedNs (((d.setBy x delta).now : Int) - d.now))

/-- The device time that TIME_SET's first mode names. -/
def timeNamed (w : BitVec 512) : Int := ((dfld w 0x20 6 * 10 ^ 9 + dfld w 0x28 4) * ns + dfld w 0x2C 4 : Nat)

theorem Dev.start_refusing (d : Dev) : (d.start x).time.refusing = d.time.refusing := rfl

theorem Dev.timeSet_absolute (hx : d.startable x 0x60 = some e) (hm : dfld e.desc 0x18 1 = 0) :
    d.timeSet 0 x = d.setDone x (timeNamed e.desc - d.now) := by
  unfold Dev.timeSet
  rw [hx]
  exact (if_neg (not_not.2 hm)).trans (if_neg fun h => by cases h.1)

theorem Dev.timeSet_step (hx : d.startable x 0x60 = some e) (hm : dfld e.desc 0x18 1 = 1) :
    d.timeSet 1 x = d.setDone x ((BitVec.ofNat 64 (dfld e.desc 0x20 8)).toInt * (ns : Int)) := by
  unfold Dev.timeSet
  rw [hx]
  exact (if_neg (not_not.2 hm)).trans (if_neg fun h => by cases h.1)

theorem Dev.timeSet_accept (hx : d.startable x 0x60 = some e) (hm : dfld e.desc 0x18 1 = 2) (hr : d.time.refusing = true) :
    d.timeSet 2 x = d.setDone x d.time.refusedOffset := by
  unfold Dev.timeSet
  rw [hx]
  exact (if_neg (not_not.2 hm)).trans (if_neg fun h => Bool.false_ne_true ((congrArg not (d.start_refusing.trans hr)).symm.trans h.2))

theorem Dev.timeSet_nothingRefused (hx : d.startable x 0x60 = some e) (hm : dfld e.desc 0x18 1 = 2) (hr : d.time.refusing = false) :
    d.timeSet 2 x = (d.start x).finish x 2 0 := by
  unfold Dev.timeSet
  rw [hx]
  exact (if_neg (not_not.2 hm)).trans (if_pos ⟨rfl, congrArg not (d.start_refusing.trans hr)⟩)

theorem openDesc_setBy (h : OpenDesc d x e) (delta : Int) :
    OpenDesc (d.setBy x delta) x (RetEntry.moved (movedBy delta) { e with started := true }) :=
  openDesc_keep (openDesc_stepTime (openDesc_start h) delta) (d.setBy_keeps x delta) (by decide) (by decide)

/-- What TIME_SET leaves where it steps device time by `delta`. -/
theorem completes_timeSet {s : State} {c : Instr} {mode : Nat} {delta : Int} (hc : exec c s = run true (Dev.timeSet mode x) s)
    (hset : s.dev.timeSet mode x = s.dev.setDone x delta) (hx : OpenDesc s.dev x e) :
    Completes c s [.now, .out, .events, .cellar, .media, .time, .link, .fabric, .loader, .rings, .cores, .sched, .strong, .power] fun d =>
      d.now = movedBy delta s.dev.now ∧ d.time.lastPps = s.dev.time.lastPps.map (fun p => ((p : Int) + delta).toNat) ∧ d.time.lockedOnce = true ∧
      d.time.refusing = false ∧ OnTheWay d 580 ∧ (s.dev.time.run = true → d.time.next = movedBy delta s.dev.time.next) ∧
      CompletedWith d x { seq := e.seq, status := 0, opcode := descOpcode e.desc, info1 := signedNs ((d.now : Int) - s.dev.now), beat := s.dev.time.n } := by
  have hkeep : Keep [.now, .out, .events, .cellar, .media, .time, .link, .fabric, .loader, .rings, .cores, .sched, .strong, .power] s.dev
      (s.dev.setDone x delta) := by
    rw [← hset]
    apply Dev.timeSet_keep (.refl _ _) <;> decide
  have hdone : Keep [.out, .events, .link, .rings, .sched] (s.dev.setBy x delta) (s.dev.setDone x delta) := by
    apply Dev.finishOk_keep (.refl _ _) <;> decide
  have hnow : (s.dev.setDone x delta).now = (s.dev.setBy x delta).now := hdone.now.resolve_left (by decide)
  have htime : (s.dev.setDone x delta).time = (s.dev.setBy x delta).time := hdone.time.resolve_left (by decide)
  obtain ⟨-, hn, hpps, hnext⟩ := s.dev.setBy_steppedTo x delta
  obtain ⟨hlocked, hrefusing⟩ := s.dev.setBy_servo x delta
  obtain ⟨o, ho, hev⟩ := s.dev.setBy_raises x delta
  obtain ⟨hentry, hopen, hwindows, hfree⟩ := openDesc_setBy hx delta
  refine completes_of_run hc hset hkeep ?_
  rw [htime, hnow, ← hn]
  exact ⟨s.dev.setBy_now x delta, hpps.trans (map_movedBy _ _).symm, hlocked, hrefusing, ⟨o, ho.finishOk, hev⟩, hnext,
    Dev.finishOk_completed hwindows hentry hopen hfree _ _⟩

end

-- measured offsets and losses

section
variable {s : State} {o : Int}

/-- The first offset is stepped away, and the generator is started (R230, R239). -/
theorem completes_servoMeasurement_first (hs : s.dev.time.src ≠ 0) (hl : s.dev.time.lockedOnce = false) : Completes (.servoMeasurement o) s
    [.now, .free, .events, .cellar, .media, .time, .link, .fabric, .loader, .rings, .cores, .strong, .power] fun d =>
      d.now = movedBy (-o) s.dev.now ∧ d.time.lastPps = s.dev.time.lastPps.map (fun p => ((p : Int) - o).toNat) ∧ d.time.lockedOnce = true ∧
      d.time.servo = .locking ∧ d.time.offset = satOffset o ∧ OnTheWay d 580 ∧ (s.dev.time.run = true → d.time.next = movedBy (-o) s.dev.time.next) ∧
      (s.dev.time.src ≠ 3 → s.dev.time.enabled = true → s.dev.time.run = false → s.dev.time.armed = false →
        d.time.armed = true ∧ d.time.next = ceilDiv (d.now + 1000 * ns) s.dev.period * s.dev.period) := by
  have hkeep : Keep [.now, .free, .events, .cellar, .media, .time, .link, .fabric, .loader, .rings, .cores, .strong, .power] s.dev
      (s.dev.servoMeasurement o) := by apply Dev.servoMeasurement_keep (.refl _ _) <;> decide
  rw [Dev.servoMeasurement_first hs hl] at hkeep
  refine completes_of_run rfl (Dev.servoMeasurement_first hs hl) hkeep ?_
  obtain ⟨g, m, l, hlock⟩ := s.dev.firstLock_time (o := o)
  obtain ⟨nx, st, sts, ia, il, ps, hmoved⟩ := (s.dev.time.measured o).moved_time (movedBy (-o))
  obtain ⟨a, n, f, hstart⟩ := (s.dev.firstLock o).startUnlessUplink_time
  obtain ⟨x, hx, hev⟩ := s.dev.firstLock_raises (o := o)
  obtain ⟨-, -, hpps, hnext⟩ := Dev.startUnlessUplink_steppedTo (s.dev.firstLock_steppedTo (o := o))
  rw [hmoved] at hlock
  refine ⟨Dev.startUnlessUplink_now.trans Dev.firstLock_now, hpps.trans (map_movedBy _ _).symm, ?_, ?_, ?_,
    ⟨x, Dev.EnRoute.startUnlessUplink hx, hev⟩, hnext, fun h3 he hr ha => ?_⟩
  · rw [hstart, hlock]
  · rw [hstart, hlock]
  · rw [hstart, hlock]; rfl
  · have hsrc : (s.dev.firstLock o).startUnlessUplink = (s.dev.firstLock o).armStart := if_neg (by rw [hlock]; exact h3)
    have hperiod : (s.dev.firstLock o).period = s.dev.period := by unfold Dev.period; rw [hlock]; rfl
    rw [hsrc, Dev.armStart_now, Dev.armStart_ordered (by rw [hlock]; exact he) (by rw [hlock]; exact hr) (by rw [hlock]; exact ha), hperiod]
    exact ⟨rfl, rfl⟩

/-- An offset beyond the jump threshold is kept as refused, in HOLDOVER (R231). -/
theorem completes_servoMeasurement_refused (hs : s.dev.time.src ≠ 0) (hl : s.dev.time.lockedOnce = true)
    (ho : s.dev.time.thresh.toNat * ns < o.natAbs) : Completes (.servoMeasurement o) s [.time, .events] fun d => OnTheWay d 577 ∧
      d.time = TimeUnit.heldAt { s.dev.time with offset := satOffset o, sourcePresent := true, refusing := true, refusedOffset := -o,
                                                 cnt := bumpAt s.dev.time.cnt 0 } s.dev.now := by
  have hkeep : Keep [.time, .events] s.dev (s.dev.refused o).holdover := Dev.holdover_keep Dev.refused_keeps (by decide) (by decide)
  refine completes_of_run rfl (Dev.servoMeasurement_refused hs hl ho) hkeep
    ⟨⟨_, Dev.EnRoute.holdover (Dev.EnRoute.modTime (Dev.enRoute_raise _ 577 0)), rfl⟩, ?_⟩
  rw [Dev.holdover_time]
  rfl

/-- Any other offset is slewed out by INCR (R231). -/
theorem completes_servoMeasurement_taken (hs : s.dev.time.src ≠ 0) (hl : s.dev.time.lockedOnce = true)
    (ho : o.natAbs ≤ s.dev.time.thresh.toNat * ns) : Completes (.servoMeasurement o) s [.free, .time, .events] fun d =>
      d.time.refusing = false ∧ d.time.offset = satOffset o ∧ incrMin ≤ d.time.incr ∧ d.time.incr ≤ incrMax ∧
      d.time.servo = (if s.dev.time.servo = .locked ∨ 16 ≤ s.dev.time.goodWith o then .locked else .locking) ∧
      (d.time.servo = .locked →
        let most := (s.dev.now - s.dev.time.incrAt) * 2 ^ 33 / (10 ^ 7 * (10 ^ 9 * ns))
        d.time.incrBase ≤ s.dev.time.incrBase + most ∧ s.dev.time.incrBase ≤ d.time.incrBase + most ∧
        d.time.incr ≤ max incrMin (d.time.incrBase + 42949) ∧ min incrMax (d.time.incrBase - 42949) ≤ d.time.incr) := by
  have hfollows : Keep [.free, .time, .events] s.dev ((s.dev.taken o).follows o) := Dev.follows_keep Dev.taken_keeps (by decide) (by decide)
  have hkeep : Keep [.free, .time, .events] s.dev ((s.dev.taken o).follows o).slewed := by apply Dev.slewed_keep hfollows <;> decide
  refine completes_of_run rfl (Dev.servoMeasurement_taken hs hl ho) hkeep ?_
  have hnow : ((s.dev.taken o).follows o).now = s.dev.now := hfollows.now.resolve_left (by decide)
  obtain ⟨g, m, l, hservo⟩ := (s.dev.taken o).follows_time (o := o)
  obtain ⟨c, k, l', hslewed⟩ := ((s.dev.taken o).follows o).slewed_time
  have hask := fun h => ((s.dev.taken o).follows o).servoAsk_locked h
  rw [hnow, hservo] at hask
  rw [hslewed, hservo]
  have hlimits : incrMin ≤ incrMax := by decide
  refine ⟨rfl, rfl, ?_, ?_, rfl, fun h => ?_⟩
  · exact Nat.le_max_left _ _
  · exact max_le hlimits (min_le_left _ _)
  · obtain ⟨hup, hdown, hmost, hleast⟩ := hask h
    exact ⟨hup, hdown, max_le_max le_rfl ((min_le_right _ _).trans hmost), (min_le_min le_rfl hleast).trans (le_max_right _ _)⟩

theorem completes_sourceLoss (h : s.dev.time.servo = .locked) : Completes .sourceLoss s [.time, .events] fun d =>
    OnTheWay d 576 ∧ OnTheWay d 578 ∧ d.time.sourcePresent = false ∧ d.time.servo = .holdover ∧
    d.time.incr = (s.dev.time.meanAt s.dev.now).getD 0x200000000 ∧
    (s.dev.time.src ≠ 1 ∨ s.dev.time.slavePort = none →
      d.time = { s.dev.time with
        sourcePresent := false, servo := .holdover, good := 0, meanIncr := s.dev.time.meanAt s.dev.now, incrLog := [],
        incr := (s.dev.time.meanAt s.dev.now).getD 0x200000000, incrBase := (s.dev.time.meanAt s.dev.now).getD 0x200000000,
        incrAt := s.dev.now }) := by
  have hkeep : Keep [.time, .events] s.dev s.dev.sourceLoss := Dev.sourceLoss_keep (.refl _ _) (by decide) (by decide)
  rw [Dev.sourceLoss_locked h] at hkeep
  refine completes_of_run rfl (Dev.sourceLoss_locked h) hkeep ?_
  obtain ⟨ps, gm, hlost⟩ := (s.dev.modTime TimeUnit.sourceGone).masterLost_time
  obtain ⟨hchange, hheld⟩ := Dev.holdover_raises (d := (s.dev.modTime TimeUnit.sourceGone).masterLost)
    (by rw [hlost]; exact fun hc => by cases h.symm.trans hc)
  refine ⟨hchange, hheld, ?_, ?_, ?_, fun hsame => ?_⟩
  · rw [Dev.holdover_time, hlost]; rfl
  · rw [Dev.holdover_time]; rfl
  · rw [Dev.holdover_time, hlost, Dev.masterLost_now]; rfl
  · rw [Dev.holdover_time, Dev.masterLost_none (d := s.dev.modTime TimeUnit.sourceGone) hsame]
    exact TimeUnit.heldAt_locked (t := s.dev.time.sourceGone) h s.dev.now

theorem completes_ppsLoss {p : Instant} (hs : s.dev.time.src = 2) (hl : s.dev.time.ppsloss = false) (hp : s.dev.time.lastPps = some p) :
    Completes .ppsLoss s [.now, .time, .events] fun d => d.now = max s.dev.now (p + 1500000000 * ns) ∧ OnTheWay d 586 ∧
      d.time = TimeUnit.heldAt { s.dev.time with ppsloss := true, sourcePresent := false } d.now := by
  have hkeep : Keep [.now, .time, .events] s.dev s.dev.ppsLoss := Dev.ppsLoss_keep (.refl _ _) (by decide) (by decide) (by decide)
  rw [Dev.ppsLoss_shown hs hl hp] at hkeep
  exact completes_of_run rfl (Dev.ppsLoss_shown hs hl hp) hkeep (s.dev.ppsMissed_holdover _)

end

/-- Settles O31: each command takes one branch of its meaning, and what the branch leaves of the time unit is known from the rules of the servo
(`TimeUnit.heldAt`, `Dev.follows_time`, `Dev.servoAsk_locked`) and of a step (`TimeUnit.SteppedTo`). -/
theorem timeFollowsItsSourceAndSteps : Obligations.TimeFollowsItsSourceAndSteps := by
  refine ⟨fun s => ?_, fun s x e hx => ?_⟩
  · intro t mean log held
    refine ⟨fun o hs => ⟨fun hl => ?_, fun hl ho => ?_, fun hl ho => ?_⟩, fun hl => ?_, fun p hs hl hp => ?_⟩
    · exact completes_servoMeasurement_first hs hl
    · exact completes_servoMeasurement_refused hs hl ho
    · exact completes_servoMeasurement_taken hs hl ho
    · exact completes_sourceLoss hl
    · exact completes_ppsLoss hs hl hp
  · intro mode whole record steps
    have hopen := openDesc_of_canRun hx
    refine ⟨fun hm => ?_, fun hm => ?_, fun hm hr => ?_, fun hm hr => ?_⟩
    · exact completes_timeSet (c := .timeSetAbsolute x) rfl (Dev.timeSet_absolute hx.now hm) hopen
    · exact completes_timeSet (c := .timeSetStep x) rfl (Dev.timeSet_step hx.now hm) hopen
    · exact completes_timeSet (c := .timeSetAccept x) rfl (Dev.timeSet_accept hx.now hm hr) hopen
    · have hkeep : Keep [.out, .events, .link, .rings, .sched] s.dev ((s.dev.start x).finish x 2 0) := by
        apply Dev.finish_keep (Dev.start_keep (.refl _ _) (by decide) _) <;> decide
      obtain ⟨hentry, hunfinished, hwindows, hfree⟩ := openDesc_start hopen
      exact completes_of_run rfl (Dev.timeSet_nothingRefused hx.now hm hr) hkeep (Dev.finish_completed hwindows hentry hunfinished hfree ..)

end Sys2Proof.Machine
end

section
/-! Beat markers (08_time.md R239, R246; 09_lanes_and_link.md R267, R268, R281): what the link notes of a marker, what a marker of the upstream partner
does to the servo and to the generator, the skew that a marker shows, and the loss of the uplink. From it the statement about BEAT_MARKER_RX and
UPSTREAM_LOSS. -/

namespace Sys2Proof.Machine
open Sys2Proof

-- a bundle after a store

theorem Dev.bd_setBd_same (d : Dev) (b : Nat) (x : Bundle) : (d.setBd b x).bd b = x := Tbl.get_set_same _ _ _ _

theorem Dev.bd_setBd_other {b c : Nat} (d : Dev) (x : Bundle) (h : c ≠ b) : (d.setBd b x).bd c = d.bd c := Tbl.get_set_other _ _ _ _ _ h

-- the partner of the mirrored pair (R275, R280)

/-- The bundle leads to the partner of the mirrored pair. -/
abbrev Link.ToMate (l : Link) (b : Nat) : Prop := b = l.mbundle.toNat ∨ l.altvalid = true ∧ b = l.altbundle.toNat

/-- The device has had a sign of the partner of its pair, where the bundle leads to that. -/
def Dev.heard (b : Nat) (d : Dev) : Dev := d.modLink fun l => { l with mirrorMissed := if l.ToMate b then 0 else l.mirrorMissed }

theorem Dev.heard_eq (b : Nat) (d : Dev) : (if d.link.ToMate b then d.modLink fun l => { l with mirrorMissed := 0 } else d) = d.heard b := by
  by_cases h : d.link.ToMate b
  · rw [if_pos h]
    simp only [Dev.heard, Dev.modLink, if_pos h]
  · rw [if_neg h]
    simp only [Dev.heard, Dev.modLink, if_neg h]

-- what a marker tells (R267, R268)

/-- When the marker reached the balls (R267). -/
def Bundle.ballTime (x : Bundle) (m : Marker) : Nat := m.arrival - Config.laneRxLat (8 * x.oct.toNat + m.lane.toNat)

/-- The marker's arrival with the asymmetry taken off (R268). -/
def Bundle.arrivalOf (x : Bundle) (m : Marker) : Int := (x.ballTime m : Int) - x.asym.toInt * 2 ^ 16

/-- The newest own marker that the partner can have answered (R268). -/
def Bundle.answeredBy (x : Bundle) (m : Marker) : Option Nat :=
  if m.rxLast = 0 then none else x.lastTx.find? fun tx => decide (0 ≤ (x.arrivalOf m - m.tx) + ((m.rxLast : Int) - tx))

/-- The delay after a marker: the one that the four times give, or the last one that was measured (R268). -/
def Bundle.delayFrom (x : Bundle) (m : Marker) : Int :=
  match x.answeredBy m with
  | some tx => ((x.arrivalOf m - m.tx) + ((m.rxLast : Int) - tx)) / 2
  | none => x.delay.toNat * 2 ^ 24

/-- The bundle with what the marker tells of it. -/
def Bundle.noted (x : Bundle) (m : Marker) : Bundle :=
  { x with partner := m.devid, lastArrival := x.ballTime m, missed := 0, delay := BitVec.ofInt 32 (x.delayFrom m / 2 ^ 24) }

/-- The bundle is that of the upstream partner. -/
def Link.isUp (l : Link) (bd : BitVec 4) : Bool := l.upvalid && bd == l.upbundle

/-- The device after what the link notes of a marker. -/
def Dev.noteMarker (d : Dev) (bd : BitVec 4) (m : Marker) : Dev :=
  d.modLink fun l => { l with bundles := Tbl.set {} l.bundles bd.toNat ((d.bd bd.toNat).noted m),
                              mirrorMissed := if l.ToMate bd.toNat then 0 else l.mirrorMissed, uplock := l.uplock || l.isUp bd }

/-- The marker brings a measurement to the servo (R268). -/
abbrev Dev.FollowsMarker (d : Dev) (bd : BitVec 4) (m : Marker) : Prop :=
  d.link.isUp bd = true ∧ d.time.src = 3 ∧ m.hops.toNat < 31 ∧ ((d.bd bd.toNat).answeredBy m).isSome = true

/-- The generator starts at the partner's next boundary where it is enabled and stands (R239). -/
def Dev.startWith (d : Dev) (m : Marker) : Dev :=
  if m.beatValid ∧ d.time.enabled ∧ !d.time.run ∧ !d.time.armed ∧ d.time.lockedOnce then
    d.modTime fun t => { t with armed := true, next := m.tx + d.period, first := m.beat + 1 }
  else d

/-- The device is one hop further than the partner (R239). -/
def Dev.oneFurther (d : Dev) (m : Marker) : Dev := d.modLink fun l => { l with hops := m.hops + 1 }

/-- The servo and the generator follow a marker of the upstream partner, which shows an offset. -/
def Dev.follow (d : Dev) (m : Marker) (o : Int) : Dev := ((d.oneFurther m).servoMeasurement o).startWith m

/-- While beats run, a marker that carries one shows the skew (R246). -/
def Dev.checkSkew (d : Dev) (m : Marker) (arr delay : Int) : Dev :=
  if m.beatValid ∧ d.time.run then
    let e := d.modTime fun t => { t with skew := d.skewed m arr delay }
    if d.skewed m arr delay then e.raise 587 else e
  else d

/-- Another beat number, or a compensated boundary more than 8 ns off the start of the beat that runs (R246). -/
abbrev Dev.ShowsSkew (d : Dev) (m : Marker) (arr delay : Int) : Prop := m.beat ≠ d.time.n ∨ 8 * ns < (arr - delay - d.time.start).natAbs

section
variable {d : Dev} {bd : BitVec 4} {m : Marker}

theorem Bundle.oneWay_eq (x : Bundle) (m : Marker) :
    x.oneWay (x.arrivalOf m) m = (x.answeredBy m).map fun tx : Nat => ((x.arrivalOf m - m.tx) + ((m.rxLast : Int) - tx)) / 2 := by
  unfold Bundle.oneWay Bundle.answeredBy
  split
  · rfl
  · have hcast : (do let a ← x.lastTx; pure (a : Int)) = x.lastTx.map (Nat.cast : Nat → Int) := List.map_eq_flatMap.symm
    rw [hcast, List.map_map, List.find?_map, Option.map_map]
    rfl

theorem Bundle.delayFrom_eq (x : Bundle) (m : Marker) : (x.oneWay (x.arrivalOf m) m).getD (x.delay.toNat * 2 ^ 24) = x.delayFrom m := by
  rw [Bundle.oneWay_eq]
  unfold Bundle.delayFrom
  cases x.answeredBy m <;> rfl

/-- What the link notes, in the three changes of BEAT_MARKER_RX. -/
theorem Dev.noteMarker_eq (d : Dev) (bd : BitVec 4) (m : Marker) :
    (if d.link.isUp bd = true then
        ((d.setBd bd.toNat ((d.bd bd.toNat).noted m)).heard bd.toNat).modLink fun l => { l with uplock := true }
      else (d.setBd bd.toNat ((d.bd bd.toNat).noted m)).heard bd.toNat) = d.noteMarker bd m := by
  unfold Dev.noteMarker
  cases h : d.link.isUp bd
  · simp only [Dev.heard, Dev.setBd, Dev.modLink, h, Bool.or_false, Bool.false_eq_true, if_false]
    rfl
  · simp only [Dev.heard, Dev.setBd, Dev.modLink, h, Bool.or_true, if_true]
    rfl

/-- BEAT_MARKER_RX in its three parts. -/
theorem Dev.beatMarkerRx_eq (hup : (d.bd bd.toNat).phase = .up) (hgood : markerGood m = true) :
    Dev.beatMarkerRx bd m d =
      (if d.FollowsMarker bd m then
          (d.noteMarker bd m).follow m ((d.bd bd.toNat).arrivalOf m - m.tx - (d.bd bd.toNat).delayFrom m)
        else d.noteMarker bd m).checkSkew m ((d.bd bd.toNat).arrivalOf m) ((d.bd bd.toNat).delayFrom m) := by
  unfold Dev.beatMarkerRx
  extract_lets b x asym ball arr way delay d1 d2 upstream d3 hopped measured d4 bad shown
  rw [if_neg (by simp [x, b, hup, hgood])]
  have hdelay : delay = x.delayFrom m := Bundle.delayFrom_eq x m
  have hway : way.isSome = (x.answeredBy m).isSome := by
    change (x.oneWay (x.arrivalOf m) m).isSome = _
    rw [Bundle.oneWay_eq, Option.isSome_map]
  have h2 : d2 = (d.setBd b (x.noted m)).heard b := by
    have h1 : d1 = d.setBd b (x.noted m) := by
      simp only [d1, hdelay]
      rfl
    rw [← Dev.heard_eq, ← h1]
  have hupstream : upstream = d.link.isUp bd := by
    simp only [upstream, h2]
    rfl
  have h3 : d3 = d.noteMarker bd m := by
    simp only [d3, hupstream, h2]
    exact Dev.noteMarker_eq d bd m
  have h4 : d4 = if d.FollowsMarker bd m then (d.noteMarker bd m).follow m (x.arrivalOf m - m.tx - x.delayFrom m) else d.noteMarker bd m := by
    simp only [d4, measured, hopped, hupstream, h3, hway, hdelay]
    rfl
  clear_value d4
  subst h4
  simp only [shown, bad, hdelay]
  rfl

end

-- what the servo leaves of the generator and of the link (R230, R231, R239)

/-- Two states of the time unit agree on whether beats run or are ordered, and on their length. -/
structure TimeUnit.SameGenerator (t u : TimeUnit) : Prop where
  enabled : u.enabled = t.enabled
  run : u.run = t.run
  armed : u.armed = t.armed
  period : u.period = t.period

/-- Two states of the link agree on the uplink, and on the partners of the bundles and the delays to them. -/
structure Link.SameMarks (k l : Link) : Prop where
  hops : l.hops = k.hops
  uplock : l.uplock = k.uplock
  partner : ∀ b, (Tbl.get ({} : Bundle) l.bundles b).partner = (Tbl.get ({} : Bundle) k.bundles b).partner
  delay : ∀ b, (Tbl.get ({} : Bundle) l.bundles b).delay = (Tbl.get ({} : Bundle) k.bundles b).delay

theorem Link.SameMarks.of_eq {k l : Link} (h : l = k) : k.SameMarks l := h ▸ ⟨rfl, rfl, fun _ => rfl, fun _ => rfl⟩

/-- A bundle after a step of device time (R228). -/
def Bundle.moved (mv : Instant → Instant) (x : Bundle) : Bundle :=
  { x with sentAt := x.sentAt.map mv, crcFails := x.crcFails.map (fun (k, t) => (k, mv t)), lastTx := x.lastTx.map mv,
           reorder := x.reorder.map (fun (f, t) => (f, mv t)), lastArrival := if x.lastArrival = 0 then 0 else mv x.lastArrival }

theorem Link.bundle_moved (l : Link) (mv : Instant → Instant) (b : Nat) :
    Tbl.get ({} : Bundle) (l.moved mv).bundles b = (Tbl.get ({} : Bundle) l.bundles b).moved mv := Tbl.get_mapAll _ _ (Bundle.moved mv) rfl _

theorem Link.moved_sameMarks (l : Link) (mv : Instant → Instant) : l.SameMarks (l.moved mv) :=
  ⟨rfl, rfl, fun b => by rw [Link.bundle_moved]; rfl, fun b => by rw [Link.bundle_moved]; rfl⟩

section
variable {d : Dev} {m : Marker} {o arr delay : Int}

theorem Dev.firstLock_link (d : Dev) (o : Int) : (d.firstLock o).link = d.link.moved (movedBy (-o)) := by
  have hservo (e : Dev) : (e.setServo .locking).link = e.link :=
    (Dev.setServo_keep (ps := [.events, .time]) (.refl _ _) (by decide) (by decide) _).link.resolve_left (by decide)
  exact (hservo _).trans (((d.modTime (·.measured o)).stepTime_keeps (-o)).link.resolve_left (by decide))

/-- The first offset under SRC = BILBEN starts no generator (R239). -/
theorem Dev.firstLock_startUnlessUplink (hs : d.time.src = 3) : (d.firstLock o).startUnlessUplink = d.firstLock o := by
  obtain ⟨g, m, l, hlock⟩ := d.firstLock_time (o := o)
  obtain ⟨nx, st, sts, ia, il, ps, hmoved⟩ := (d.time.measured o).moved_time (movedBy (-o))
  rw [hmoved] at hlock
  exact if_pos (by rw [hlock]; exact hs)

/-- A measurement under SRC = BILBEN leaves the generator, and the servo has been locked once. -/
theorem Dev.servoMeasurement_uplink (hs : d.time.src = 3) :
    d.time.SameGenerator (d.servoMeasurement o).time ∧ (d.servoMeasurement o).time.lockedOnce = true := by
  have h0 : d.time.src ≠ 0 := by rw [hs]; decide
  cases hl : d.time.lockedOnce with
  | false =>
    obtain ⟨g, m, l, hlock⟩ := d.firstLock_time (o := o)
    obtain ⟨nx, st, sts, ia, il, ps, hmoved⟩ := (d.time.measured o).moved_time (movedBy (-o))
    rw [Dev.servoMeasurement_first h0 hl, Dev.firstLock_startUnlessUplink hs, hlock, hmoved]
    exact ⟨⟨rfl, rfl, rfl, rfl⟩, rfl⟩
  | true =>
    rcases Nat.lt_or_ge (d.time.thresh.toNat * ns) o.natAbs with ho | ho
    · have hrefused : (d.refused o).time =
          { d.time.measured o with refusing := true, refusedOffset := -o, cnt := bumpAt d.time.cnt 0 } := rfl
      rw [Dev.servoMeasurement_refused h0 hl ho, Dev.holdover_time, hrefused]
      unfold TimeUnit.heldAt
      exact ⟨⟨rfl, rfl, rfl, rfl⟩, hl⟩
    · obtain ⟨c, k, l, hslewed⟩ := ((d.taken o).follows o).slewed_time
      obtain ⟨g, m, l', hfollows⟩ := (d.taken o).follows_time (o := o)
      rw [Dev.servoMeasurement_taken h0 hl ho, hslewed, hfollows]
      exact ⟨⟨rfl, rfl, rfl, rfl⟩, hl⟩

/-- Once locked, the servo does not step device time, and the link stands. -/
theorem Dev.servoMeasurement_link_locked (hs : d.time.src = 3) (hl : d.time.lockedOnce = true) : (d.servoMeasurement o).link = d.link := by
  have h0 : d.time.src ≠ 0 := by rw [hs]; decide
  rcases Nat.lt_or_ge (d.time.thresh.toNat * ns) o.natAbs with ho | ho
  · rw [Dev.servoMeasurement_refused h0 hl ho]
    exact (Dev.holdover_keep Dev.refused_keeps (by decide) (by decide)).link.resolve_left (by decide)
  · rw [Dev.servoMeasurement_taken h0 hl ho]
    have hfollows : Keep [.free, .time, .events] d ((d.taken o).follows o) := Dev.follows_keep Dev.taken_keeps (by decide) (by decide)
    exact (Dev.slewed_keep hfollows (by decide) (by decide) (by decide)).link.resolve_left (by decide)

theorem Dev.servoMeasurement_sameMarks (hs : d.time.src = 3) : d.link.SameMarks (d.servoMeasurement o).link := by
  cases hl : d.time.lockedOnce with
  | false =>
    rw [Dev.servoMeasurement_first (by rw [hs]; decide) hl, Dev.firstLock_startUnlessUplink hs, Dev.firstLock_link]
    exact Link.moved_sameMarks ..
  | true => exact .of_eq (Dev.servoMeasurement_link_locked hs hl)

theorem Dev.startWith_link (d : Dev) (m : Marker) : (d.startWith m).link = d.link := by
  unfold Dev.startWith
  split <;> rfl

theorem Dev.startWith_lockedOnce (d : Dev) (m : Marker) : (d.startWith m).time.lockedOnce = d.time.lockedOnce := by
  unfold Dev.startWith
  split <;> rfl

theorem Dev.startWith_starts (hv : m.beatValid = true) (he : d.time.enabled = true) (hr : d.time.run = false) (ha : d.time.armed = false)
    (hl : d.time.lockedOnce = true) : (d.startWith m).time = { d.time with armed := true, next := m.tx + d.period, first := m.beat + 1 } := by
  unfold Dev.startWith
  rw [if_pos (by simp [hv, he, hr, ha, hl])]
  rfl

theorem Dev.follow_sameMarks (hs : d.time.src = 3) : (d.oneFurther m).link.SameMarks (d.follow m o).link := by
  unfold Dev.follow
  rw [Dev.startWith_link]
  exact Dev.servoMeasurement_sameMarks (d := d.oneFurther m) hs

theorem Dev.follow_link_locked (hs : d.time.src = 3) (hl : d.time.lockedOnce = true) : (d.follow m o).link = { d.link with hops := m.hops + 1 } :=
  (Dev.startWith_link ..).trans (Dev.servoMeasurement_link_locked (d := d.oneFurther m) hs hl)

theorem Dev.follow_lockedOnce (hs : d.time.src = 3) : (d.follow m o).time.lockedOnce = true :=
  (Dev.startWith_lockedOnce ..).trans (Dev.servoMeasurement_uplink (d := d.oneFurther m) hs).2

/-- The generator starts at the partner's next boundary (R239). -/
theorem Dev.follow_starts (hs : d.time.src = 3) (hv : m.beatValid = true) (he : d.time.enabled = true) (hr : d.time.run = false)
    (ha : d.time.armed = false) :
    (d.follow m o).time.armed = true ∧ (d.follow m o).time.next = m.tx + d.period ∧ (d.follow m o).time.first = m.beat + 1 := by
  obtain ⟨⟨henabled, hrun, harmed, hperiod⟩, hlocked⟩ := Dev.servoMeasurement_uplink (d := d.oneFurther m) (o := o) hs
  have hlength : ((d.oneFurther m).servoMeasurement o).period = d.period := by unfold Dev.period; rw [hperiod]; rfl
  unfold Dev.follow
  rw [Dev.startWith_starts hv (henabled.trans he) (hrun.trans hr) (harmed.trans ha) hlocked, hlength]
  exact ⟨rfl, rfl, rfl⟩

theorem Dev.checkSkew_link (d : Dev) (m : Marker) (arr delay : Int) : (d.checkSkew m arr delay).link = d.link := by
  unfold Dev.checkSkew
  split
  · dsimp only
    split <;> rfl
  · rfl

theorem Dev.checkSkew_time (d : Dev) (m : Marker) (arr delay : Int) : ∃ b, (d.checkSkew m arr delay).time = { d.time with skew := b } := by
  unfold Dev.checkSkew
  split
  · dsimp only
    split <;> exact ⟨_, rfl⟩
  · exact ⟨_, rfl⟩

theorem Dev.checkSkew_still (h : m.beatValid = false ∨ d.time.run = false) : d.checkSkew m arr delay = d :=
  if_neg fun hc => by rcases h with h | h <;> simp [h] at hc

/-- A compensated boundary that is not more than 8 ns before the start of the present beat is compared with that beat (R246). -/
theorem Dev.skewed_iff (hb : (d.time.start : Int) ≤ arr - delay + (8 * ns : Nat)) :
    d.skewed m arr delay = true ↔ d.ShowsSkew m arr delay := by
  have hbeat : d.beatAt (arr - delay + (8 * ns : Nat)).toNat = d.time.n := if_pos (.inr (Int.ofNat_le.1 (hb.trans (Int.self_le_toNat _))))
  have hstart : d.startOf d.time.n = d.time.start := if_pos (by simp)
  unfold Dev.skewed
  dsimp only
  rw [hbeat, hstart, Bool.or_eq_true, bne_iff_ne, decide_eq_true_iff, ne_comm]

theorem Dev.checkSkew_shows (hv : m.beatValid = true) (hr : d.time.run = true) (hs : d.skewed m arr delay = true) :
    d.checkSkew m arr delay = (d.modTime fun t => { t with skew := true }).raise 587 := by
  unfold Dev.checkSkew
  rw [if_pos ⟨hv, hr⟩, hs]
  rfl

theorem Dev.checkSkew_clears (hv : m.beatValid = true) (hr : d.time.run = true) (hs : d.skewed m arr delay = false) :
    d.checkSkew m arr delay = d.modTime fun t => { t with skew := false } := by
  unfold Dev.checkSkew
  rw [if_pos ⟨hv, hr⟩, hs]
  rfl

end

-- the uplink's loss (R268, R281)

/-- The device whose uplink is no longer locked. -/
def Dev.uplinkLost (d : Dev) : Dev := (d.modLink fun l => { l with uplock := false }).raise (832 + d.link.upbundle.toNat)

section
variable {d : Dev} {o : Occ}

theorem Dev.upstreamLoss_locked (h : d.link.uplock = true) :
    d.upstreamLoss = if d.time.src = 3 then d.uplinkLost.sourceLoss.holdover else d.uplinkLost := by
  unfold Dev.upstreamLoss
  rw [if_neg (by simp [h])]
  rfl

theorem Dev.sourceLoss_bilben (h : d.time.src = 3) :
    d.sourceLoss = if d.time.servo = .locked then (d.modTime TimeUnit.sourceGone).holdover else d.modTime TimeUnit.sourceGone := by
  have hlost : (d.modTime TimeUnit.sourceGone).masterLost = d.modTime TimeUnit.sourceGone :=
    Dev.masterLost_none (.inl (by rw [Dev.modTime_time]; show d.time.src ≠ 1; rw [h]; decide))
  change (if (d.modTime TimeUnit.sourceGone).masterLost.time.servo = .locked then (d.modTime TimeUnit.sourceGone).masterLost.holdover
    else (d.modTime TimeUnit.sourceGone).masterLost) = _
  rw [hlost]
  rfl

theorem Dev.sourceLoss_bilben_sourcePresent (h : d.time.src = 3) : d.sourceLoss.time.sourcePresent = false := by
  rw [Dev.sourceLoss_bilben h]
  split
  · rw [Dev.holdover_time]; rfl
  · rfl

theorem Dev.EnRoute.sourceLoss_bilben (hd : d.EnRoute o) (h : d.time.src = 3) : d.sourceLoss.EnRoute o := by
  rw [Dev.sourceLoss_bilben h]
  exact .ite (fun _ => .holdover (.modTime hd)) fun _ => .modTime hd

end

-- the commands

section
variable {s : State} {bd : BitVec 4} {m : Marker}

theorem completes_beatMarkerRx_noted (hup : (s.dev.bd bd.toNat).phase = .up) (hgood : markerGood m = true) (hf : ¬ s.dev.FollowsMarker bd m)
    (hstill : m.beatValid = false ∨ s.dev.time.run = false) :
    Completes (.beatMarkerRx bd m) s [.link] fun d => d.link = (s.dev.noteMarker bd m).link := by
  refine completes_of_run rfl ((Dev.beatMarkerRx_eq hup hgood).trans ?_) (Dev.modLink_keep (.refl _ _) (by decide) _) rfl
  rw [if_neg hf]
  exact Dev.checkSkew_still (d := s.dev.noteMarker bd m) hstill

theorem completes_beatMarkerRx_skew (hup : (s.dev.bd bd.toNat).phase = .up) (hgood : markerGood m = true) (hf : ¬ s.dev.FollowsMarker bd m)
    (hv : m.beatValid = true) (hr : s.dev.time.run = true)
    (hb : (s.dev.time.start : Int) ≤ (s.dev.bd bd.toNat).arrivalOf m - (s.dev.bd bd.toNat).delayFrom m + (8 * ns : Nat)) :
    let off := ((s.dev.bd bd.toNat).arrivalOf m - (s.dev.bd bd.toNat).delayFrom m - s.dev.time.start).natAbs
    Completes (.beatMarkerRx bd m) s [.link, .time, .events] fun d =>
      d.link = (s.dev.noteMarker bd m).link ∧ d.time = { s.dev.time with skew := decide (m.beat ≠ s.dev.time.n ∨ 8 * ns < off) } ∧
      (m.beat ≠ s.dev.time.n ∨ 8 * ns < off → Raised s.dev d 587) ∧ (m.beat = s.dev.time.n → off ≤ 8 * ns → d.events = s.dev.events) := by
  have hnoted : Keep [.link, .time, .events] s.dev (s.dev.noteMarker bd m) := Dev.modLink_keep (.refl _ _) (by decide) _
  have hskewed := Dev.skewed_iff (d := s.dev.noteMarker bd m) (m := m) hb
  have hrx := Dev.beatMarkerRx_eq hup hgood
  rw [if_neg hf] at hrx
  intro off
  by_cases hbad : m.beat ≠ s.dev.time.n ∨ 8 * ns < off
  · refine completes_of_run rfl (hrx.trans (Dev.checkSkew_shows hv hr (hskewed.2 hbad)))
      (Dev.raise_keep (Dev.modTime_keep hnoted (by decide) _) (by decide) _ _)
      ⟨rfl, by rw [decide_eq_true hbad]; rfl, fun _ => ⟨_, rfl, rfl, rfl⟩, fun hn ho => ?_⟩
    exact hbad.elim (absurd hn) (absurd ho ∘ Nat.not_le.2)
  · refine completes_of_run rfl (hrx.trans (Dev.checkSkew_clears hv hr (eq_false_of_ne_true fun h => hbad (hskewed.1 h))))
      (Dev.modTime_keep hnoted (by decide) _) ⟨rfl, by rw [decide_eq_false hbad]; rfl, fun h => absurd h hbad, fun _ _ => rfl⟩

theorem completes_beatMarkerRx_follows (hup : (s.dev.bd bd.toNat).phase = .up) (hgood : markerGood m = true) (hf : s.dev.FollowsMarker bd m) :
    Completes (.beatMarkerRx bd m) s (Instr.parts (.beatMarkerRx bd m)) fun d =>
      d.link.hops = m.hops + 1 ∧ d.link.uplock = true ∧ (d.bd bd.toNat).partner = m.devid ∧
      (d.bd bd.toNat).delay = ((s.dev.bd bd.toNat).noted m).delay ∧
      (s.dev.time.lockedOnce = true → d.link = { (s.dev.noteMarker bd m).link with hops := m.hops + 1 }) ∧ d.time.lockedOnce = true ∧
      (m.beatValid = true → s.dev.time.enabled = true → s.dev.time.run = false → s.dev.time.armed = false →
        d.time.armed = true ∧ d.time.next = m.tx + s.dev.period ∧ d.time.first = m.beat + 1) := by
  have hkeep : Keep [.now, .free, .events, .cellar, .media, .time, .link, .fabric, .loader, .rings, .cores, .strong, .power] s.dev
      (Dev.beatMarkerRx bd m s.dev) := by apply Dev.beatMarkerRx_keep (.refl _ _) <;> decide
  have hrx := Dev.beatMarkerRx_eq hup hgood
  rw [if_pos hf] at hrx
  generalize (s.dev.bd bd.toNat).arrivalOf m - m.tx - (s.dev.bd bd.toNat).delayFrom m = o at hrx
  obtain ⟨hisUp, hsrc, -, -⟩ := hf
  obtain ⟨hhops, huplock, hpartner, hdelay⟩ := Dev.follow_sameMarks (d := s.dev.noteMarker bd m) (m := m) (o := o) hsrc
  obtain ⟨b, htime⟩ := ((s.dev.noteMarker bd m).follow m o).checkSkew_time m ((s.dev.bd bd.toNat).arrivalOf m) ((s.dev.bd bd.toNat).delayFrom m)
  have hlink : (Dev.beatMarkerRx bd m s.dev).link = ((s.dev.noteMarker bd m).follow m o).link := by rw [hrx, Dev.checkSkew_link]
  have hbundle : Tbl.get ({} : Bundle) ((s.dev.noteMarker bd m).oneFurther m).link.bundles bd.toNat = (s.dev.bd bd.toNat).noted m :=
    Tbl.get_set_same _ _ _ _
  refine completes_of_run rfl rfl hkeep ?_
  unfold Dev.bd at hbundle ⊢
  rw [hlink, hhops, huplock, hpartner, hdelay, hbundle, hrx, htime]
  refine ⟨rfl, ?_, rfl, rfl, Dev.follow_link_locked (d := s.dev.noteMarker bd m) hsrc, Dev.follow_lockedOnce (d := s.dev.noteMarker bd m) hsrc,
    Dev.follow_starts (d := s.dev.noteMarker bd m) hsrc⟩
  exact (congrArg (s.dev.link.uplock || ·) hisUp).trans (Bool.or_true _)

theorem completes_upstreamLoss_bilben (hs : s.dev.time.src = 3) (hu : s.dev.link.uplock = true) :
    Completes .upstreamLoss s [.link, .time, .events] fun d =>
      d.link = { s.dev.link with uplock := false } ∧ d.time.sourcePresent = false ∧ d.time.servo = .holdover ∧
      OnTheWay d (832 + s.dev.link.upbundle.toNat) := by
  have hrun := Dev.upstreamLoss_locked hu
  rw [if_pos hs] at hrun
  have hlost : Keep [.link, .events] s.dev s.dev.uplinkLost := Dev.raise_keep (Dev.modLink_keep (.refl _ _) (by decide) _) (by decide) _ _
  have hkeep : Keep [.link, .time, .events] s.dev s.dev.upstreamLoss := by apply Dev.upstreamLoss_keep (.refl _ _) <;> decide
  have hservo : Keep [.events, .time] s.dev.uplinkLost s.dev.uplinkLost.sourceLoss.holdover :=
    Dev.holdover_keep (Dev.sourceLoss_keep (.refl _ _) (by decide) (by decide)) (by decide) (by decide)
  refine completes_of_run rfl hrun (hrun ▸ hkeep) ⟨hservo.link.resolve_left (by decide), ?_, ?_, ?_⟩
  · rw [Dev.holdover_time]
    exact Dev.sourceLoss_bilben_sourcePresent (d := s.dev.uplinkLost) hs
  · rw [Dev.holdover_time]; rfl
  · exact ⟨_, Dev.EnRoute.holdover (Dev.EnRoute.sourceLoss_bilben (Dev.enRoute_raise ..) hs), rfl⟩

theorem completes_upstreamLoss_other (hs : s.dev.time.src ≠ 3) (hu : s.dev.link.uplock = true) :
    Completes .upstreamLoss s [.link, .events] fun d =>
      d.link = { s.dev.link with uplock := false } ∧ Raised s.dev d (832 + s.dev.link.upbundle.toNat) :=
  completes_of_run rfl ((Dev.upstreamLoss_locked hu).trans (if_neg hs))
    (Dev.raise_keep (Dev.modLink_keep (.refl _ _) (by decide) _) (by decide) _ _) ⟨rfl, _, rfl, rfl, rfl⟩

end

/-- Settles O35: BEAT_MARKER_RX notes the marker, follows that of the upstream partner and compares the beats (`Dev.beatMarkerRx_eq`). -/
theorem markersMeasureAndStart : Obligations.MarkersMeasureAndStart := by
  intro s bd m k t b x came arr answered delay x' ofPair upstream noted follows
  refine ⟨fun hup hgood => ⟨fun hf hstill => ?_, fun hf hv hr hb => ?_, fun hf => ?_⟩, fun hs hu => ?_, fun hs hu => ?_⟩
  · exact completes_beatMarkerRx_noted hup hgood hf hstill
  · exact completes_beatMarkerRx_skew hup hgood hf hv hr hb
  · exact completes_beatMarkerRx_follows hup hgood hf
  · exact completes_upstreamLoss_bilben hs hu
  · exact completes_upstreamLoss_other hs hu

end Sys2Proof.Machine
end

section
/-! Bilben frames (09_lanes_and_link.md R260 to R265): what a change of one bundle leaves of the others, what leaves the device on a bundle, and how
a bundle answers, resends and places the frames that arrive. -/

namespace Sys2Proof.Machine
open Sys2Proof

-- one bundle changes

/-- In `e` the bundle is `x`, and every other bundle is as in `d`. -/
structure Dev.BdNow (d e : Dev) (b : Nat) (x : Bundle) : Prop where
  own : e.bd b = x
  others : ∀ i, i ≠ b → e.bd i = d.bd i

section
variable {d e f : Dev} {b : Nat} {x y : Bundle}

theorem Dev.BdNow.refl (d : Dev) (b : Nat) : d.BdNow d b (d.bd b) := ⟨rfl, fun _ _ => rfl⟩

theorem Dev.BdNow.setBd (h : d.BdNow e b y) (x : Bundle) : d.BdNow (e.setBd b x) b x :=
  ⟨Dev.bd_setBd_same _ _ _, fun i hi => (Dev.bd_setBd_other _ _ hi).trans (h.others i hi)⟩

theorem Dev.BdNow.modBd (h : d.BdNow e b x) (g : Bundle → Bundle) : d.BdNow (e.modBd b g) b (g x) := by
  rw [← h.own]
  exact h.setBd _

theorem Dev.BdNow.of_bundles (h : d.BdNow e b x) (hf : f.link.bundles = e.link.bundles) : d.BdNow f b x := by
  have hbd (i : Nat) : f.bd i = e.bd i := congrArg (fun t => Tbl.get ({} : Bundle) t i) hf
  exact ⟨(hbd b).trans h.own, fun i hi => (hbd i).trans (h.others i hi)⟩

end

-- frames that leave (R260, R261, R263)

/-- A frame as it leaves on a bundle, with its lane and its CRC. -/
def Dev.frameOut (d : Dev) (bd : BitVec 4) (f : Frame) : Output := .frame bd { f with lane := (d.bd bd.toNat).deal f.seq, crc := frameCrc f }

/-- The NULL frame with NAK of a bundle (R261). -/
def Dev.nakOf (d : Dev) (bd : BitVec 4) : Frame :=
  { type := 1, ack := (d.bd bd.toNat).rxAck, nak := true, src := d.link.devid, dest := (d.bd bd.toNat).partner, bpar := d.time.n.getLsbD 0 }

section
variable {d e : Dev} {bd : BitVec 4}

/-- Frames are dealt to the active lanes alone (R263). -/
theorem Dev.BdNow.frameOut {x : Bundle} (h : d.BdNow e bd.toNat x) (ha : x.active = (d.bd bd.toNat).active) (f : Frame) :
    e.frameOut bd f = d.frameOut bd f := by
  unfold Dev.frameOut Bundle.deal
  rw [h.own, ha]

theorem Dev.emitFrame_eq (d : Dev) (bd : BitVec 4) (f : Frame) : d.emitFrame bd.toNat f = d.emit (d.frameOut bd f) := by
  unfold Dev.emitFrame Dev.frameOut
  rw [BitVec.ofNat_toNat, BitVec.setWidth_eq]

/-- Frames that leave on a bundle one after the other change nothing but the outputs. -/
theorem Dev.each_emitFrame (d : Dev) (bd : BitVec 4) (l : List Frame) (g : Frame → Frame) :
    (d.each l fun e f => e.emitFrame bd.toNat (g f)) = { d with out := (l.map fun f => d.frameOut bd (g f)).reverse ++ d.out } := by
  unfold Dev.each
  induction l generalizing d with
  | nil => rfl
  | cons f l ih =>
    rw [List.foldl_cons, ih, Dev.emitFrame_eq]
    simp only [List.map_cons, List.reverse_cons, List.append_assoc, List.singleton_append]
    rfl

-- NAK (R261)

/-- The first discard is answered with NAK. -/
theorem Dev.sendNak_first (hup : (d.bd bd.toNat).phase = .up) (hn : (d.bd bd.toNat).nakSent = false) :
    d.BdNow (d.sendNak bd.toNat) bd.toNat { d.bd bd.toNat with nakSent := true } ∧
      (d.sendNak bd.toNat).out = d.frameOut bd (d.nakOf bd) :: d.out := by
  have hnow : d.BdNow (d.modBd bd.toNat fun x => { x with nakSent := true }) bd.toNat { d.bd bd.toNat with nakSent := true } := (Dev.BdNow.refl ..).modBd _
  have hnak : d.sendNak bd.toNat
      = (d.modBd bd.toNat fun x => { x with nakSent := true }).emit ((d.modBd bd.toNat fun x => { x with nakSent := true }).frameOut bd (d.nakOf bd)) := by
    unfold Dev.sendNak Dev.nullFrame
    rw [if_neg (ne_true_of_eq_false hn), hnow.own, if_neg (not_not.2 hup), Dev.emitFrame_eq]
    rfl
  rw [hnak]
  exact ⟨hnow.of_bundles rfl, congrArg (· :: d.out) (hnow.frameOut rfl _)⟩

end

-- go-back-N (R261, R262)

/-- A bundle whose unacknowledged frames have all been sent again. -/
def Bundle.sentAgain (x : Bundle) (now : Instant) : Bundle :=
  { x with sends := x.sends.map (· + 1), sentAt := x.sentAt.map fun _ => now, cnt := Tbl.modify {} x.cnt 0 (·.bumpBy x.retry.length) }

section
variable {d : Dev} {bd : BitVec 4}

theorem Dev.resendFrames_again (hr : (d.bd bd.toNat).retry ≠ []) (hs : ∀ y ∈ (d.bd bd.toNat).sends, y < 16) :
    d.BdNow (d.resendFrames bd.toNat) bd.toNat ((d.bd bd.toNat).sentAgain d.now) ∧
      (∀ {ps : List Part} {e : Dev}, Keep ps e d → .out ∈ ps → .link ∈ ps → Keep ps e (d.resendFrames bd.toNat)) ∧
      (d.resendFrames bd.toNat).out
        = ((d.bd bd.toNat).retry.map fun f => d.frameOut bd { f with ack := (d.bd bd.toNat).rxAck }).reverse ++ d.out := by
  let e : Dev := (d.modBd bd.toNat fun x => { x with sends := x.sends.map (· + 1), sentAt := x.sentAt.map fun _ => d.now }).countBd bd.toNat 0
    (d.bd bd.toNat).retry.length
  have hnow : d.BdNow e bd.toNat ((d.bd bd.toNat).sentAgain d.now) := ((Dev.BdNow.refl ..).modBd _).modBd _
  have hrun : d.resendFrames bd.toNat = e.each (d.bd bd.toNat).retry fun e f => e.emitFrame bd.toNat { f with ack := (d.bd bd.toNat).rxAck } := by
    unfold Dev.resendFrames
    rw [if_neg (by simpa using hr), if_neg (by simpa using hs)]
  have hframes : e.frameOut bd = d.frameOut bd := funext (hnow.frameOut rfl)
  rw [hrun, Dev.each_emitFrame, hframes]
  exact ⟨hnow.of_bundles rfl, fun hk hout hlink => (Dev.countBd_keep (Dev.modBd_keep hk hlink _ _) hlink _ _ _).upd_out hout, rfl⟩

/-- A bundle after BUNDLE_DOWN (R262). -/
def Bundle.fallen (x : Bundle) : Bundle := { x.cleared with phase := .training }

theorem Dev.setActive_bundles (d : Dev) (b : Nat) (m : BitVec 8) : (d.setActive b m).link.bundles = (d.setBd b { d.bd b with active := m }).link.bundles := by
  unfold Dev.setActive
  refine Dev.each_induct (P := fun e => e.link.bundles = _) rfl fun e i he => ?_
  split <;> exact he

theorem Dev.lanePhase_bundles (d : Dev) (l : Nat) (p : LanePhase) : (d.lanePhase l p).link.bundles = d.link.bundles := by
  unfold Dev.lanePhase
  dsimp only
  split <;> rfl

theorem Dev.bundleDown_falls {b : Nat} (hup : (d.bd b).phase = .up) :
    d.BdNow (Dev.bundleDown b d) b (d.bd b).fallen ∧ OnTheWay (Dev.bundleDown b d) (832 + b) := by
  unfold Dev.bundleDown
  extract_lets x d1 d2
  rw [if_neg (not_not.2 hup)]
  have h1 : d.BdNow d1 b x.cleared := (((Dev.BdNow.refl d b).setBd _).of_bundles (d.setActive_bundles b 0)).modBd _
  have h2 : d.BdNow d2 b x.cleared := by
    refine Dev.each_induct (P := fun e => d.BdNow e b x.cleared) h1 fun e l he => ?_
    split
    · exact he.of_bundles (Dev.lanePhase_bundles ..)
    · exact he
  have h3 : d.BdNow (d2.loseQueries b) b x.cleared := h2.of_bundles rfl
  unfold Dev.bdPhase
  rw [if_neg (by rw [h3.own]; change (d.bd b).phase ≠ _; rw [hup]; decide)]
  exact ⟨(h3.modBd fun y => { y with phase := .training }).of_bundles rfl, _, Dev.enRoute_raise _ _ 0, rfl⟩

/-- A frame that was sent 16 times in vain takes the bundle down (R262). -/
theorem Dev.resendFrames_gives_up {b : Nat} (hr : (d.bd b).retry ≠ []) (hs : ∃ y ∈ (d.bd b).sends, 16 ≤ y) : d.resendFrames b = Dev.bundleDown b d := by
  unfold Dev.resendFrames
  rw [if_neg (by simpa using hr), if_pos (by simpa using hs)]

end

end Sys2Proof.Machine
end

section
/-! Bilben frames that arrive (09_lanes_and_link.md R261 to R265, R270, R271; 05_corridors_and_stairs.md R146, R150): where a frame goes that is in
sequence, and what the words of an XCH frame reach. From it the statement about LINK_FRAME and RETRY_TIMEOUT. -/

namespace Sys2Proof.Machine
open Sys2Proof

-- the place of a frame in the sequence (R261, R263)

/-- The bundle after a frame of bad CRC. -/
def Bundle.crcFailed (x : Bundle) (lane : BitVec 3) (now : Instant) : Bundle :=
  { x with cnt := bumpAt x.cnt 1, crcFails := (lane, now) :: x.crcFails.filter (fun y => decide (now < y.2 + 10 ^ 6 * ns)) }

/-- The first `n` unacknowledged frames are free. -/
def Bundle.freed (x : Bundle) (n : Nat) : Bundle := { x with retry := x.retry.drop n, sentAt := x.sentAt.drop n, sends := x.sends.drop n }

/-- ACK and NAK of a good frame are taken (R261). -/
def Dev.replied (d : Dev) (b : Nat) (fr : Frame) : Dev :=
  let e := (d.heard b).takeAck b fr.ack
  if fr.nak then e.resendFrames b else Dev.pump b (e.bd b).queue.length e

/-- A good frame after its ACK: nothing more for a NULL frame; the next in order is accepted, one that is ahead waits, any other is answered. -/
def Dev.place (d : Dev) (b : Nat) (fr : Frame) : Dev :=
  let x := d.bd b
  let ahead := (fr.seq - x.rxAck).toNat
  if fr.type = 1 ∨ x.phase ≠ .up then d
  else if ahead = 0 then Dev.inOrder b ((d.acceptFrame b fr).bd b).reorder.length (d.acceptFrame b fr)
  else if 1 < x.lanes.length ∧ ahead < 256 ∧ !(x.reorder.any fun y => y.1.seq == fr.seq) then
    d.modBd b fun x => { x with reorder := x.reorder ++ [(fr, d.now)] }
  else d.sendNak b

section
variable {d : Dev} {b : Nat} {bd : BitVec 4} {fr : Frame}

theorem Dev.pump_idle (h : (d.bd b).queue = []) : Dev.pump b (d.bd b).queue.length d = d := by rw [h]; rfl

theorem Dev.skewOver_none (h : (d.bd b).reorder = []) : d.skewOver b = d := by
  unfold Dev.skewOver
  rw [h]
  rfl

theorem Dev.inOrder_none (h : (d.bd b).reorder = []) : Dev.inOrder b (d.bd b).reorder.length d = d := by rw [h]; rfl

theorem Dev.takeAck_nothing {ack : BitVec 12} (h : (d.bd b).retry = []) : d.takeAck b ack = d := by
  unfold Dev.takeAck
  dsimp only
  rw [h]

theorem Dev.takeAck_frees {ack : BitVec 12} {f : Frame} {rest : List Frame} (h : (d.bd b).retry = f :: rest) (h0 : 0 < (ack - f.seq).toNat)
    (hn : (ack - f.seq).toNat ≤ (d.bd b).retry.length) : d.takeAck b ack = d.modBd b (·.freed (ack - f.seq).toNat) := by
  unfold Dev.takeAck
  dsimp only
  split
  · next hnil => rw [h] at hnil; cases hnil
  · next g t hcons =>
    obtain ⟨rfl, rfl⟩ := List.cons.inj (h.symm.trans hcons)
    exact if_neg (by omega)

theorem Dev.takeAck_none {ack : BitVec 12} {f : Frame} {rest : List Frame} (h : (d.bd b).retry = f :: rest) (h0 : (ack - f.seq).toNat = 0) :
    d.takeAck b ack = d := by
  unfold Dev.takeAck
  dsimp only
  split
  · rfl
  · next g t hcons =>
    obtain ⟨rfl, rfl⟩ := List.cons.inj (h.symm.trans hcons)
    exact if_pos (.inl h0)

theorem seq_ahead {a c : BitVec 12} (h : a ≠ c) : (a - c).toNat ≠ 0 := fun h0 => h (by bv_omega)

theorem Dev.linkFrame_bad (hup : (d.bd bd.toNat).phase = .up) (hbad : frameGood fr = false) :
    d.linkFrame bd fr = (d.modBd bd.toNat fun x => x.crcFailed fr.lane d.now).sendNak bd.toNat := by
  unfold Dev.linkFrame
  rw [if_neg (not_not.2 hup), if_pos (by rw [hbad]; rfl)]
  rfl

theorem Dev.linkFrame_good (hup : (d.bd bd.toNat).phase = .up) (hgood : frameGood fr = true)
    (hreorder : ((d.replied bd.toNat fr).bd bd.toNat).reorder = []) : d.linkFrame bd fr = (d.replied bd.toNat fr).place bd.toNat fr := by
  have hrun : d.linkFrame bd fr = ((d.replied bd.toNat fr).skewOver bd.toNat).place bd.toNat fr := by
    unfold Dev.linkFrame
    extract_lets b x d1
    rw [if_neg (not_not.2 hup), if_neg (by rw [hgood]; decide)]
    have h1 : d1 = d.heard b := Dev.heard_eq b d
    clear_value d1
    subst h1
    rfl
  rw [hrun, Dev.skewOver_none hreorder]

/-- Where no frame is unacknowledged or waits, a good frame without NAK is only to be placed. -/
theorem Dev.replied_idle (hretry : (d.bd b).retry = []) (hqueue : (d.bd b).queue = []) (hnak : fr.nak = false) : d.replied b fr = d.heard b := by
  unfold Dev.replied
  rw [Dev.takeAck_nothing (d := d.heard b) hretry, hnak]
  exact Dev.pump_idle (d := d.heard b) hqueue

theorem Dev.place_null (h : fr.type = 1) : d.place b fr = d := if_pos (.inl h)

theorem Dev.place_next {e : Dev} (hup : (d.bd b).phase = .up) (ht : fr.type ≠ 1) (hseq : fr.seq = (d.bd b).rxAck) (he : d.acceptFrame b fr = e)
    (hreorder : (e.bd b).reorder = []) : d.place b fr = e := by
  unfold Dev.place
  dsimp only
  rw [if_neg (not_or.2 ⟨ht, not_not.2 hup⟩), if_pos (by rw [hseq]; simp), he]
  exact Dev.inOrder_none hreorder

theorem Dev.place_ahead (hup : (d.bd b).phase = .up) (ht : fr.type ≠ 1) (hseq : fr.seq ≠ (d.bd b).rxAck) (hreorder : (d.bd b).reorder = [])
    (hnear : 1 < (d.bd b).lanes.length ∧ (fr.seq - (d.bd b).rxAck).toNat < 256) :
    d.place b fr = d.modBd b fun x => { x with reorder := x.reorder ++ [(fr, d.now)] } := by
  unfold Dev.place
  dsimp only
  rw [if_neg (not_or.2 ⟨ht, not_not.2 hup⟩), if_neg (seq_ahead hseq), if_pos ⟨hnear.1, hnear.2, by rw [hreorder]; rfl⟩]

theorem Dev.place_far (hup : (d.bd b).phase = .up) (ht : fr.type ≠ 1) (hseq : fr.seq ≠ (d.bd b).rxAck)
    (hfar : ¬ (1 < (d.bd b).lanes.length ∧ (fr.seq - (d.bd b).rxAck).toNat < 256)) : d.place b fr = d.sendNak b := by
  unfold Dev.place
  dsimp only
  rw [if_neg (not_or.2 ⟨ht, not_not.2 hup⟩), if_neg (seq_ahead hseq), if_neg fun h => hfar ⟨h.1, h.2.1⟩]

end

-- a frame in sequence (R261, R264)

/-- A frame's place in the receive buffer is free, and its credit noted. -/
def Bundle.credited (x : Bundle) (k : Nat) : Bundle := { x with got := Tbl.modify 0 x.got k (· + 1) }

/-- The bundle has accepted a frame whose place in the receive buffer is free again. -/
def Bundle.took (x : Bundle) (fr : Frame) : Bundle := { x with rxAck := x.rxAck + 1, nakSent := false }.credited (vcKey fr)

/-- The device has accepted a frame for itself. -/
def Dev.took (d : Dev) (b : Nat) (fr : Frame) : Dev :=
  (d.modBd b fun x => { x with rxAck := x.rxAck + 1, nakSent := false }).creditBack (some (b, vcKey fr))

/-- What passes over a bundle, once a frame has (R260). -/
def Bundle.passingWith (x : Bundle) (fr : Frame) : List (BitVec 11 × BitVec 11 × BitVec 2 × Bool) :=
  x.passing.filter (· != (fr.src, fr.dest, fr.cls, fr.vc)) ++ (if fr.cls = 2 ∨ fr.last = true then [] else [(fr.src, fr.dest, fr.cls, fr.vc)])

/-- The device has accepted a frame that goes on, and has noted of its bundle what passes. -/
def Dev.onItsWay (d : Dev) (b : Nat) (fr : Frame) : Dev :=
  (d.modBd b fun x => { x with rxAck := x.rxAck + 1, nakSent := false }).modBd b fun x => { x with passing := x.passingWith fr }

/-- It has noted also what a binding of another device reserves on its way (R273). -/
def Dev.passes (d : Dev) (b : Nat) (fr : Frame) : Dev :=
  let h := fr.payload.toNat
  if (fr.cls != 2 && !(decide ((fr.src, fr.dest, fr.cls, fr.vc) ∈
      ((d.modBd b fun x => { x with rxAck := x.rxAck + 1, nakSent := false }).bd b).passing))) = true ∧ fr.cls = 0 then
    (d.onItsWay b fr).passDepend fr.src (fld h 200 8) (BitVec.ofNat 64 (fld h 136 64)) (h >>> 256)
  else d.onItsWay b fr

/-- `e` is `d` but for the frames that bindings of other devices reserve on its bundles (R273). -/
structure Dev.SameButThrough (d e : Dev) : Prop where
  bundle (i : Nat) : ∃ t, e.bd i = { d.bd i with through := t }
  cnt : e.link.cnt = d.link.cnt
  fwd : e.link.fwd = d.link.fwd
  keep : Keep [.link] d e

/-- A frame waits on the bundle. -/
def Bundle.asked (x : Bundle) (w : Waiting) : Bundle := { x with queue := x.queue ++ [w] }

/-- A waiting frame has its credit (R264). -/
def Bundle.granted (x : Bundle) (w : Waiting) : Bundle := { x with queue := x.queue.erase w, used := Tbl.modify 0 x.used (vcKey w.frame) (· + 1) }

/-- A frame has the next SEQ and stands in the retry buffer (R261). -/
def Bundle.sequenced (x : Bundle) (f : Frame) (now : Instant) : Bundle :=
  { x with txSeq := x.txSeq + 1, retry := x.retry ++ [{ f with seq := x.txSeq, ack := x.rxAck }], sentAt := x.sentAt ++ [now], sends := x.sends ++ [1] }

section
variable {d e : Dev} {b : Nat} {fr : Frame}

theorem Dev.bdNow_took (d : Dev) (b : Nat) (fr : Frame) : d.BdNow (d.took b fr) b ((d.bd b).took fr) :=
  ((Dev.BdNow.refl d b).modBd _).modBd (·.credited (vcKey fr))

theorem Dev.BdNow.creditBack {x : Bundle} (h : d.BdNow e b x) (k : Nat) : d.BdNow (e.creditBack (some (b, k))) b (x.credited k) := h.modBd (·.credited k)

theorem Dev.took_keep {ps : List Part} (h : Keep ps e d) (hlink : .link ∈ ps) (b : Nat) (fr : Frame) : Keep ps e (d.took b fr) :=
  Dev.creditBack_keep (Dev.modBd_keep h hlink _ _) hlink _

theorem Dev.acceptFrame_own (ht : fr.type = 0) (hd : fr.dest = d.link.devid) : d.acceptFrame b fr = (d.took b fr).deliverFrame b fr := by
  unfold Dev.acceptFrame
  rw [ht]
  exact if_pos hd

theorem Dev.acceptFrame_on (ht : fr.type = 0) (hd : fr.dest ≠ d.link.devid) :
    d.acceptFrame b fr = (d.passes b fr).routeFrame fr (some (b, vcKey fr)) := by
  unfold Dev.acceptFrame
  rw [ht]
  exact if_neg hd

theorem Dev.SameButThrough.refl (d : Dev) : d.SameButThrough d := ⟨fun i => ⟨(d.bd i).through, rfl⟩, rfl, rfl, .refl _ _⟩

theorem Dev.modBd_sameButThrough (d : Dev) (b : Nat) (g : Bundle → List Through) :
    d.SameButThrough (d.modBd b fun x => { x with through := g x }) := by
  refine ⟨fun i => ?_, rfl, rfl, Dev.modBd_keep (.refl _ _) (by decide) _ _⟩
  by_cases hi : i = b
  · subst hi
    exact ⟨_, Dev.bd_setBd_same ..⟩
  · exact ⟨(d.bd i).through, Dev.bd_setBd_other _ _ hi⟩

theorem Dev.passDepend_sameButThrough (d : Dev) (src : BitVec 11) (op : Nat) (t : BitVec 64) (body : Nat) :
    d.SameButThrough (d.passDepend src op t body) := by
  unfold Dev.passDepend
  dsimp only
  split
  · split
    · exact .refl d
    · exact Dev.modBd_sameButThrough ..
  · split
    · exact ⟨fun i => ⟨_, Tbl.get_mapAll ({} : Bundle) _ _ rfl i⟩, rfl, rfl, Dev.modLink_keep (.refl _ _) (by decide) _⟩
    · exact .refl d

theorem Dev.bdNow_onItsWay (d : Dev) (b : Nat) (fr : Frame) :
    d.BdNow (d.onItsWay b fr) b { d.bd b with rxAck := (d.bd b).rxAck + 1, nakSent := false, passing := (d.bd b).passingWith fr } :=
  ((Dev.BdNow.refl d b).modBd _).modBd fun x => { x with passing := x.passingWith fr }

theorem Dev.passes_sameButThrough (d : Dev) (b : Nat) (fr : Frame) : (d.onItsWay b fr).SameButThrough (d.passes b fr) := by
  unfold Dev.passes
  dsimp only
  split
  · exact Dev.passDepend_sameButThrough ..
  · exact .refl _

theorem Dev.passes_other (h : fr.cls ≠ 0) : d.passes b fr = d.onItsWay b fr := if_neg fun hc => h hc.2

theorem Dev.passes_keep {ps : List Part} (h : Keep ps e d) (hlink : .link ∈ ps) (b : Nat) (fr : Frame) : Keep ps e (d.passes b fr) := by
  have hway : Keep ps e (d.onItsWay b fr) := Dev.modBd_keep (Dev.modBd_keep h hlink _ _) hlink _ _
  exact .ite (Dev.passDepend_keep hway hlink ..) hway

/-- The bundle of a frame that has gone on, with its credit noted (R264). -/
theorem Dev.passes_own {f : Dev}
    (h : f.bd b = ((d.passes b fr).bd b).credited (vcKey fr)) :
    f.bd b = { (d.bd b).took fr with passing := (d.bd b).passingWith fr, through := (f.bd b).through } := by
  obtain ⟨t, ht⟩ := (d.passes_sameButThrough b fr).bundle b
  rw [ht, (d.bdNow_onItsWay b fr).own] at h
  rw [h]
  rfl

theorem Dev.passes_others {i : Nat} (hi : i ≠ b) : ∃ t, (d.passes b fr).bd i = { d.bd i with through := t } := by
  obtain ⟨t, ht⟩ := (d.passes_sameButThrough b fr).bundle i
  exact ⟨t, by rw [ht, (d.bdNow_onItsWay b fr).others i hi]⟩

theorem Dev.passes_through (h : fr.cls ≠ 0) (i : Nat) : ((d.passes b fr).bd i).through = (d.bd i).through := by
  rw [Dev.passes_other h]
  by_cases hi : i = b
  · subst hi
    rw [(d.bdNow_onItsWay i fr).own]
  · rw [(d.bdNow_onItsWay b fr).others i hi]

-- the next bundle (R261, R264, R265)

theorem Dev.routeFrame_nowhere {x : Option (Nat × Nat)} (h : (Tbl.get ({} : Fwd) d.link.fwd fr.dest.toNat).valid = false) :
    d.routeFrame fr x = ((d.countLink 0).raise 849).creditBack x := by
  have hroute : d.routeTo fr.dest = none := if_neg (ne_true_of_eq_false h)
  unfold Dev.routeFrame
  rw [hroute]

theorem Dev.routeFrame_on {x : Option (Nat × Nat)} {e : Fwd} (he : Tbl.get ({} : Fwd) d.link.fwd fr.dest.toNat = e) (h : e.valid = true) :
    d.routeFrame fr x = d.sendFrame e.bundle.toNat { fr with vc := fr.vc || e.dl } x := by
  have hroute : d.routeTo fr.dest = some e := by
    subst he
    exact if_pos h
  unfold Dev.routeFrame
  rw [hroute]

theorem Bundle.next_only {x : Bundle} {w : Waiting} (hq : x.queue = [w]) (hc : Tbl.get 0 x.used (vcKey w.frame) < 32) : x.next = some w := by
  have hcredit : ([w].filter fun f => decide (Tbl.get 0 x.used (vcKey f.frame) < 32)) = [w] := List.filter_cons_of_pos (decide_eq_true hc)
  unfold Bundle.next
  rw [hq, hcredit]
  rfl

theorem Dev.pump_one {w : Waiting} (hnext : (d.bd b).next = some w) (hup : (d.bd b).phase = .up) (hroom : (d.bd b).retry.length < 256) :
    Dev.pump b 1 d = ((d.modBd b (·.granted w)).sendSeq b w.frame).creditBack w.buffer := by
  unfold Dev.pump
  dsimp only
  rw [hnext]
  exact if_neg (by rw [hup]; simpa using hroom)

theorem Dev.sendSeq_sends (d : Dev) (bd : BitVec 4) (f : Frame) :
    d.BdNow (d.sendSeq bd.toNat f) bd.toNat ((d.bd bd.toNat).sequenced f d.now) ∧
      (d.sendSeq bd.toNat f).out = d.frameOut bd { f with seq := (d.bd bd.toNat).txSeq, ack := (d.bd bd.toNat).rxAck } :: d.out := by
  have hnow : d.BdNow (d.setBd bd.toNat ((d.bd bd.toNat).sequenced f d.now)) bd.toNat ((d.bd bd.toNat).sequenced f d.now) := (Dev.BdNow.refl ..).setBd _
  unfold Dev.sendSeq
  dsimp only
  rw [Dev.emitFrame_eq]
  exact ⟨hnow.of_bundles rfl, congrArg (· :: d.out) (hnow.frameOut rfl _)⟩

/-- A frame that finds no other waiting, with room and credit for it, leaves at once. -/
theorem Dev.sendFrame_leaves {bd : BitVec 4} {f : Frame} {x : Option (Nat × Nat)} (hup : (d.bd bd.toNat).phase = .up) (hq : (d.bd bd.toNat).queue = [])
    (hroom : (d.bd bd.toNat).retry.length < 256) (hcredit : Tbl.get 0 (d.bd bd.toNat).used (vcKey f) < 32) :
    ∃ e, d.sendFrame bd.toNat f x = e.creditBack x ∧
      d.BdNow e bd.toNat ((((d.bd bd.toNat).asked ⟨f, x⟩).granted ⟨f, x⟩).sequenced f d.now) ∧
      e.out = d.frameOut bd { f with seq := (d.bd bd.toNat).txSeq, ack := (d.bd bd.toNat).rxAck } :: d.out := by
  have hasked : d.BdNow (d.modBd bd.toNat (·.asked ⟨f, x⟩)) bd.toNat ((d.bd bd.toNat).asked ⟨f, x⟩) := (Dev.BdNow.refl ..).modBd _
  have hqueue : ((d.bd bd.toNat).asked ⟨f, x⟩).queue = [⟨f, x⟩] := congrArg (· ++ [_]) hq
  have hrun : d.sendFrame bd.toNat f x
      = (((d.modBd bd.toNat (·.asked ⟨f, x⟩)).modBd bd.toNat (·.granted ⟨f, x⟩)).sendSeq bd.toNat f).creditBack x := by
    have hlength : ((d.modBd bd.toNat (·.asked ⟨f, x⟩)).bd bd.toNat).queue.length = 1 := by rw [hasked.own, hqueue]; rfl
    unfold Dev.sendFrame
    change Dev.pump bd.toNat ((d.modBd bd.toNat (·.asked ⟨f, x⟩)).bd bd.toNat).queue.length (d.modBd bd.toNat (·.asked ⟨f, x⟩)) = _
    rw [hlength]
    refine Dev.pump_one (w := ⟨f, x⟩) (Bundle.next_only ?_ ?_) ?_ ?_ <;> rw [hasked.own]
    · exact hqueue
    · exact hcredit
    · exact hup
    · exact hroom
  have hgranted := hasked.modBd (·.granted ⟨f, x⟩)
  obtain ⟨hnow, hout⟩ := ((d.modBd bd.toNat (·.asked ⟨f, x⟩)).modBd bd.toNat (·.granted ⟨f, x⟩)).sendSeq_sends bd f
  rw [hgranted.own] at hnow hout
  exact ⟨_, hrun, ⟨hnow.own, fun i hi => (hnow.others i hi).trans (hgranted.others i hi)⟩,
    hout.trans (congrArg (· :: d.out) (hgranted.frameOut rfl _))⟩

end

-- the words of an XCH frame (R270, R271)

/-- The target of an XCH frame, in the fields of a remote target without its device (R269, R270). -/
def remoteTarget (fr : Frame) : BitVec 64 := BitVec.ofNat 64 (fld fr.payload.toNat 0 43 * 2 ^ 21)

/-- One of the four entries of an XCH frame: slot, absent and word of a valid one. -/
def frameEntry (fr : Frame) (k : Nat) : Option (Nat × Bool × Lanes) :=
  let e := fld fr.payload.toNat (320 + 16 * k) 16
  if bitOf e 11 then some (e % 1024, bitOf e 10, BitVec.ofNat 64 (fld fr.payload.toNat (64 + 64 * k) 64)) else none

section
variable {d : Dev} {fr : Frame} {w : Nat × Bool × Lanes} {f : Func} {b : BindRec} {r : RoomId} {gen : BitVec 8}

theorem bitOf_fld {p : Nat} {lo n k : Nat} (h : k < n) : bitOf (fld p lo n) k = p.testBit (lo + k) := by
  unfold bitOf fld
  rw [Nat.testBit_mod_two_pow, decide_eq_true h, Bool.true_and, Nat.testBit_shiftRight]

/-- The fields of the target are those of the frame's first 43 bits. -/
theorem remoteTarget_field (fr : Frame) {lo n : Nat} (h : lo + n ≤ 43) : (remoteTarget fr).extractLsb' (lo + 21) n = fr.payload.extractLsb' lo n := by
  apply BitVec.eq_of_getLsbD_eq
  intro i hi
  have hlow : lo + 21 + i - 21 = lo + i := by omega
  have hin : lo + i < 43 := by omega
  have hword : lo + 21 + i < 64 := by omega
  have habove : 21 ≤ lo + 21 + i := by omega
  simp only [remoteTarget, fld, BitVec.getLsbD_extractLsb', BitVec.getLsbD_ofNat, Nat.testBit_mul_two_pow, Nat.testBit_mod_two_pow, hlow, hin, hword,
    habove, Nat.shiftRight_zero, decide_true, Bool.true_and]
  rfl

theorem rtFunc_remoteTarget (fr : Frame) : rtFunc (remoteTarget fr) = fr.payload.extractLsb' 16 16 := remoteTarget_field fr (by decide)

theorem rtVroom_remoteTarget (fr : Frame) : rtVroom (remoteTarget fr) = (fr.payload.extractLsb' 8 8).toNat :=
  congrArg BitVec.toNat (remoteTarget_field fr (lo := 8) (by decide))

theorem rtRep_remoteTarget (fr : Frame) : rtRep (remoteTarget fr) = (fr.payload.extractLsb' 0 8).toNat :=
  congrArg BitVec.toNat (remoteTarget_field fr (lo := 0) (by decide))

theorem frameEntry_invalid {k : Nat} (h : fr.payload.getLsbD (320 + 16 * k + 11) = false) : frameEntry fr k = none :=
  if_neg (ne_true_of_eq_false ((bitOf_fld (by decide)).trans h))

theorem frameEntry_first (h : fr.payload.getLsbD 331 = true) :
    frameEntry fr 0 = some ((fr.payload.extractLsb' 320 10).toNat, fr.payload.getLsbD 330, fr.payload.extractLsb' 64 64) := by
  have hslot : fld fr.payload.toNat 320 16 % 1024 = (fr.payload.extractLsb' 320 10).toNat := Nat.mod_mod_of_dvd _ (by norm_num)
  have habsent : bitOf (fld fr.payload.toNat 320 16) 10 = fr.payload.getLsbD 330 := bitOf_fld (by decide)
  have hword : BitVec.ofNat 64 (fld fr.payload.toNat 64 64) = fr.payload.extractLsb' 64 64 := BitVec.eq_of_toNat_eq (Nat.mod_mod _ _)
  have hvalid : bitOf (fld fr.payload.toNat 320 16) 11 = true := (bitOf_fld (by decide)).trans h
  rw [← hslot, ← habsent, ← hword]
  exact if_pos hvalid

/-- The words of a frame whose first entry alone is valid. -/
theorem frameWords_first (h : fr.payload.getLsbD 331 = true) (hrest : ∀ i ∈ [347, 363, 379], fr.payload.getLsbD i = false) :
    frameWords fr = [((fr.payload.extractLsb' 320 10).toNat, fr.payload.getLsbD 330, fr.payload.extractLsb' 64 64)] := by
  have h1 : frameEntry fr 1 = none := frameEntry_invalid (hrest 347 (by decide))
  have h2 : frameEntry fr 2 = none := frameEntry_invalid (hrest 363 (by decide))
  have h3 : frameEntry fr 3 = none := frameEntry_invalid (hrest 379 (by decide))
  change [0, 1, 2, 3].filterMap (frameEntry fr) = _
  rw [List.filterMap_cons_some (frameEntry_first h), List.filterMap_cons_none h1, List.filterMap_cons_none h2, List.filterMap_cons_none h3]
  rfl

/-- The function and the binding that the words of a frame are for (R271). -/
def Dev.remoteFor (d : Dev) (fr : Frame) : Option (Func × BindRec) :=
  (d.func? (rtFunc (remoteTarget fr))).bind fun f =>
    if f.phase ≠ .admitted ∨ (f.receivers (rtRep (remoteTarget fr)) (rtVroom (remoteTarget fr))).isEmpty then none
    else (f.obj.bindings.find? fun b => b.type == 4 && b.dirIn && b.vroom == rtVroom (remoteTarget fr) && (frameWords fr).any fun w => b.holds w.1).map
      fun b => (f, b)

theorem Dev.remoteWords_nowhere (hw : frameWords fr = [w]) (h : d.remoteFor fr = none) : d.remoteWords fr = (d.countLink 1).raise 850 := by
  unfold Dev.remoteWords
  extract_lets t next ws target
  have htarget : target = none := h
  have hws : ws = [w] := hw
  rw [htarget, hws]
  rfl

theorem Dev.remoteWords_late (hw : frameWords fr = [w]) (h : d.remoteFor fr = some (f, b)) (hb : fr.bpar ≠ d.time.n.getLsbD 0) :
    d.remoteWords fr = (d.countLink 2).raise 850 := by
  unfold Dev.remoteWords
  extract_lets t next ws target
  have htarget : target = some (f, b) := h
  have hws : ws = [w] := hw
  rw [htarget, hws]
  exact if_pos (by simpa [next] using hb)

/-- A word of attempt 0 for one room, where none of attempt 1 came before, goes on to the room. -/
theorem Dev.remoteWords_next (hw : frameWords fr = [w]) (h : d.remoteFor fr = some (f, b)) (hb : fr.bpar = d.time.n.getLsbD 0) (ha : fr.att = false)
    (hatts : d.link.atts = []) (hholds : b.holds w.1 = true)
    (hdest : f.destinations (rtRep (remoteTarget fr)) (rtVroom (remoteTarget fr)) = [(r, gen)]) :
    d.remoteWords fr = d.hubSend 4 258 (d.time.n + 1) (r, gen) [{ idx := w.1, word := w.2.2, absent := w.2.1 }] := by
  unfold Dev.remoteWords
  extract_lets t next ws target
  have htarget : target = some (f, b) := h
  have hws : ws = [w] := hw
  have hnext : (!next) = false := by simp [next, hb]
  have ht : t = remoteTarget fr := rfl
  clear_value t target ws next
  subst ht
  simp only [htarget, hws, hnext, ha, hatts, hdest, hholds, Dev.each, List.foldl_cons, List.foldl_nil, List.not_mem_nil, Bool.false_eq_true,
    decide_false, Bool.not_true, if_false, false_and, and_false]

theorem Dev.remoteFor_none (hf : d.func? (fr.payload.extractLsb' 16 16) = none) : d.remoteFor fr = none := by
  unfold Dev.remoteFor
  rw [rtFunc_remoteTarget, hf]
  rfl

theorem Dev.remoteFor_some (hw : frameWords fr = [w]) (hf : d.func? (fr.payload.extractLsb' 16 16) = some f) (hphase : f.phase = .admitted)
    (hdest : f.destinations (fr.payload.extractLsb' 0 8).toNat (fr.payload.extractLsb' 8 8).toNat = [(r, gen)])
    (hb : (f.obj.bindings.find? fun y => y.type == 4 && y.dirIn && y.vroom == (fr.payload.extractLsb' 8 8).toNat && y.holds w.1) = some b) :
    d.remoteFor fr = some (f, b) := by
  have hreceivers : f.receivers (fr.payload.extractLsb' 0 8).toNat (fr.payload.extractLsb' 8 8).toNat = [r] := congrArg (·.map (·.1)) hdest
  have hserved : ¬ (f.phase ≠ .admitted ∨ ([r] : List RoomId).isEmpty = true) := by simp [hphase]
  have hany (y : BindRec) : ([w].any fun w => y.holds w.1) = y.holds w.1 := Bool.or_false _
  unfold Dev.remoteFor
  rw [rtFunc_remoteTarget, rtVroom_remoteTarget, rtRep_remoteTarget, hf, hw, Option.bind_some, hreceivers, if_neg hserved]
  simp only [hany, hb, Option.map_some]

end

-- one word of a hub unit on its way to a room (R139, R146, R150)

/-- A word of a hub unit as a packet to a room. -/
def hubPacket (u : BitVec 8) (port : Nat) (beat : Beat) (y : RoomId × BitVec 8) (waits : Bool) (w : PktWord) : Packet :=
  { src := .hub u, dst := .room y.1, kind := .window, gen := y.2, beat, port, keep := true, waits, words := [w] }

section
variable {d : Dev} {u : BitVec 8} {port : Nat} {beat : Beat} {r : RoomId} {gen : BitVec 8} {w : PktWord}

theorem packets_one (w : PktWord) : packets [w] = [[w]] := by
  have hone : ceilDiv [w].length 16 = 1 := by change ceilDiv 1 16 = 1; decide
  unfold packets
  rw [hone]
  rfl

theorem Dev.hubSend_held (h : d.net.heldOn (.hub u) (.room r) = true) :
    d.hubSend u port beat (r, gen) [w] = d.putNet { d.net with xch := d.net.xch ++ [hubPacket u port beat (r, gen) true w] } := by
  unfold Dev.hubSend
  dsimp only
  rw [if_pos (.inl h), h, packets_one]
  rfl

theorem Dev.hubSend_open (hheld : d.net.heldOn (.hub u) (.room r) = false) (hdown : d.net.downOn (.hub u) (.room r) = false) :
    d.hubSend u port beat (r, gen) [w] = (d.putNet (d.net.carry (.hub u) (.room r) (hubPacket u port beat (r, gen) false w).flits)).modRoom r fun rm =>
      rm.receive d.time.n (hubPacket u port beat (r, gen) false w) rm.stepNow := by
  unfold Dev.hubSend
  dsimp only
  rw [if_neg (by rw [hheld, hdown]; decide), hheld, packets_one]
  rfl

/-- A word for the next beat goes to its slot. -/
theorem Room.receive_hubPacket_next {rm : Room} {n : Beat} {step src : Nat} (hfunc : rm.func ≠ 0xFFFF) (hgen : rm.gen = gen) (hsrc : 256 + port = src) :
    rm.receive n (hubPacket u port (n + 1) (r, gen) false w) step
      = rm.writeSlot w.idx true { word := w.word, absent := w.absent, kept := true, step, src } := by
  subst hsrc
  have hnext : n + 1 ≠ n := by bv_omega
  have hlater : (n + 1 != n) = true := bne_iff_ne.2 hnext
  rw [Room.receive_of_accepts ⟨hfunc, hgen.symm, .inr rfl, fun h => hnext h.1⟩]
  change rm.writeSlot w.idx (n + 1 != n) _ = _
  rw [hlater]
  rfl

/-- In `e` a word of the hub unit for the next beat stands in its slot of the room. -/
def Dev.WordReaches (d e : Dev) (r : RoomId) (src : Nat) (w : PktWord) : Prop :=
  OtherRooms r d e ∧ e.net = { d.net with links := e.net.links } ∧ e.room r = (d.room r).writeSlot w.idx true
    { word := w.word, absent := w.absent, kept := true, step := (d.room r).stepNow, src }

theorem Dev.WordReaches.of_eq {a e : Dev} {src : Nat} (h : a.WordReaches e r src w) (hrooms : a.rooms = d.rooms) (hnet : a.net = d.net) :
    d.WordReaches e r src w := by
  have hroom : a.room = d.room := funext fun q => congrArg (fun t => Tbl.get ({} : Room) t q.toNat) hrooms
  unfold Dev.WordReaches OtherRooms at h ⊢
  rw [hroom, hnet] at h
  exact h

theorem Dev.hubSend_reaches {src : Nat} (hheld : d.net.heldOn (.hub u) (.room r) = false) (hdown : d.net.downOn (.hub u) (.room r) = false)
    (hfunc : (d.room r).func ≠ 0xFFFF) (hgen : (d.room r).gen = gen) (hsrc : 256 + port = src) :
    d.WordReaches (d.hubSend u port (d.time.n + 1) (r, gen) [w]) r src w := by
  rw [Dev.hubSend_open hheld hdown]
  refine ⟨Dev.modRoom_otherRooms (d.putNet _) r _, rfl, ?_⟩
  rw [Dev.room_modRoom_same]
  exact Room.receive_hubPacket_next hfunc hgen hsrc

end

-- a frame that is placed at once

/-- A DATA frame in sequence, where no frame is unacknowledged. -/
structure Bundle.Next (x : Bundle) (fr : Frame) : Prop where
  good : frameGood fr = true
  nak : fr.nak = false
  retry : x.retry = []
  type : fr.type = 0
  seq : fr.seq = x.rxAck

/-- The bundle is UP, and no frame waits on it, out or in. -/
structure Bundle.Still (x : Bundle) : Prop where
  up : x.phase = .up
  queue : x.queue = []
  reorder : x.reorder = []

section
variable {d e : Dev} {bd : BitVec 4} {fr : Frame}

theorem Dev.linkFrame_placed (hx : (d.bd bd.toNat).Still) (hgood : frameGood fr = true) (hnak : fr.nak = false) (hretry : (d.bd bd.toNat).retry = []) :
    d.linkFrame bd fr = (d.heard bd.toNat).place bd.toNat fr := by
  obtain ⟨hup, hqueue, hreorder⟩ := hx
  have hidle := Dev.replied_idle hretry hqueue hnak
  rw [Dev.linkFrame_good hup hgood (by rw [hidle]; exact hreorder), hidle]

theorem Dev.linkFrame_next (hx : (d.bd bd.toNat).Still) (hn : (d.bd bd.toNat).Next fr) (he : (d.heard bd.toNat).acceptFrame bd.toNat fr = e)
    (hreorder : (e.bd bd.toNat).reorder = []) : d.linkFrame bd fr = e := by
  obtain ⟨hgood, hnak, hretry, htype, hseq⟩ := hn
  rw [Dev.linkFrame_placed hx hgood hnak hretry]
  exact Dev.place_next (d := d.heard bd.toNat) hx.up (by rw [htype]; decide) hseq he hreorder

end

end Sys2Proof.Machine
end

section
/-! LINK_FRAME and RETRY_TIMEOUT (95_what_each_step_holds.md R261): each case of the statement as a completed command. -/

namespace Sys2Proof.Machine
open Sys2Proof

/-- In `e` a frame of `d`'s bundle has gone on or was dropped: it is accepted, what passes is noted, and its place in the receive buffer is free. -/
def Dev.Passed (d e : Dev) (b : Nat) (fr : Frame) : Prop :=
  e.bd b = { (d.bd b).took fr with passing := (d.bd b).passingWith fr, through := (e.bd b).through } ∧
    (fr.cls ≠ 0 → ∀ i, (e.bd i).through = (d.bd i).through)

/-- In `e` the unacknowledged frames of `d`'s bundle have been sent again. -/
def Dev.Resent (d e : Dev) (bd : BitVec 4) : Prop :=
  d.BdNow e bd.toNat ((d.bd bd.toNat).sentAgain d.now) ∧
    e.out = ((d.bd bd.toNat).retry.map fun f => d.frameOut bd { f with ack := (d.bd bd.toNat).rxAck }).reverse ++ d.out

section
variable {s : State} {d e : Dev} {b : Nat} {bd : BitVec 4} {fr : Frame}

theorem Dev.raise_raised (h : e.events = d.events) (ev : Nat) : Raised d (e.raise ev) ev := ⟨_, congrArg (· ++ [_]) h, rfl, rfl⟩

theorem Dev.BdNow.heard (d : Dev) (b : Nat) : d.BdNow (d.heard b) b (d.bd b) := (Dev.BdNow.refl d b).of_bundles rfl

-- frames that are answered, or wait (R261, R263)

theorem completes_linkFrame_bad (hup : (s.dev.bd bd.toNat).phase = .up) (hbad : frameGood fr = false) (hn : (s.dev.bd bd.toNat).nakSent = false) :
    Completes (.linkFrame bd fr) s [.link, .out] fun d =>
      s.dev.BdNow d bd.toNat { (s.dev.bd bd.toNat).crcFailed fr.lane s.dev.now with nakSent := true } ∧
        Sys2Proof.Sent s.dev d (s.dev.frameOut bd (s.dev.nakOf bd)) := by
  have hfailed : s.dev.BdNow (s.dev.modBd bd.toNat fun x => x.crcFailed fr.lane s.dev.now) bd.toNat ((s.dev.bd bd.toNat).crcFailed fr.lane s.dev.now) :=
    (Dev.BdNow.refl ..).modBd fun x => x.crcFailed fr.lane s.dev.now
  obtain ⟨hnow, hout⟩ := (s.dev.modBd bd.toNat fun x => x.crcFailed fr.lane s.dev.now).sendNak_first
    (bd := bd) (by rw [hfailed.own]; exact hup) (by rw [hfailed.own]; exact hn)
  have hnak : (s.dev.modBd bd.toNat fun x => x.crcFailed fr.lane s.dev.now).nakOf bd = s.dev.nakOf bd := by
    unfold Dev.nakOf
    rw [hfailed.own]
    rfl
  rw [hfailed.own] at hnow
  rw [hnak, hfailed.frameOut rfl] at hout
  exact completes_of_run rfl (Dev.linkFrame_bad hup hbad) (Dev.sendNak_keep (Dev.modBd_keep (.refl _ _) (by decide) _ _) (by decide) (by decide) _)
    ⟨⟨hnow.own, fun i hi => (hnow.others i hi).trans (hfailed.others i hi)⟩, hout⟩

theorem completes_linkFrame_ack {f : Frame} {rest : List Frame} (hx : (s.dev.bd bd.toNat).Still) (hgood : frameGood fr = true) (htype : fr.type = 1)
    (hretry : (s.dev.bd bd.toNat).retry = f :: rest) (hnak : fr.nak = false) (h0 : 0 < (fr.ack - f.seq).toNat)
    (hn : (fr.ack - f.seq).toNat ≤ (s.dev.bd bd.toNat).retry.length) :
    Completes (.linkFrame bd fr) s [.link] fun d => s.dev.BdNow d bd.toNat ((s.dev.bd bd.toNat).freed (fr.ack - f.seq).toNat) := by
  obtain ⟨hup, hqueue, hreorder⟩ := hx
  have hfreed := (Dev.BdNow.heard s.dev bd.toNat).modBd (·.freed (fr.ack - f.seq).toNat)
  have hreplied : s.dev.replied bd.toNat fr = (s.dev.heard bd.toNat).modBd bd.toNat (·.freed (fr.ack - f.seq).toNat) := by
    unfold Dev.replied
    rw [Dev.takeAck_frees (d := s.dev.heard bd.toNat) hretry h0 hn, hnak]
    exact Dev.pump_idle (by rw [hfreed.own]; exact hqueue)
  refine completes_of_run rfl (Dev.linkFrame_good hup hgood ?_) ?_ ?_ <;> rw [hreplied]
  · rw [hfreed.own]
    exact hreorder
  · rw [Dev.place_null htype]
    exact Dev.modBd_keep (Dev.modLink_keep (.refl _ _) (by decide) _) (by decide) _ _
  · rw [Dev.place_null htype]
    exact hfreed

theorem completes_linkFrame_nak {f : Frame} {rest : List Frame} (hx : (s.dev.bd bd.toNat).Still) (hgood : frameGood fr = true) (htype : fr.type = 1)
    (hretry : (s.dev.bd bd.toNat).retry = f :: rest) (hnak : fr.nak = true) (h0 : (fr.ack - f.seq).toNat = 0)
    (hsends : ∀ y ∈ (s.dev.bd bd.toNat).sends, y < 16) : Completes (.linkFrame bd fr) s [.link, .out] fun d => s.dev.Resent d bd := by
  have hreplied : s.dev.replied bd.toNat fr = (s.dev.heard bd.toNat).resendFrames bd.toNat := by
    unfold Dev.replied
    rw [Dev.takeAck_none (d := s.dev.heard bd.toNat) hretry h0, hnak]
    rfl
  obtain ⟨hnow, hkeep, hout⟩ := (s.dev.heard bd.toNat).resendFrames_again (List.ne_nil_of_mem (hretry ▸ List.mem_cons_self)) hsends
  refine completes_of_run rfl (Dev.linkFrame_good hx.up hgood ?_) ?_ ?_ <;> rw [hreplied]
  · rw [hnow.own]
    exact hx.reorder
  · rw [Dev.place_null htype]
    exact hkeep (Dev.modLink_keep (.refl _ _) (by decide) _) (by decide) (by decide)
  · rw [Dev.place_null htype]
    exact ⟨⟨hnow.own, hnow.others⟩, hout⟩

theorem completes_linkFrame_ahead (hx : (s.dev.bd bd.toNat).Still) (hgood : frameGood fr = true) (hnak : fr.nak = false)
    (hretry : (s.dev.bd bd.toNat).retry = []) (htype : fr.type ≠ 1) (hseq : fr.seq ≠ (s.dev.bd bd.toNat).rxAck)
    (hnear : 1 < (s.dev.bd bd.toNat).lanes.length ∧ (fr.seq - (s.dev.bd bd.toNat).rxAck).toNat < 256) :
    Completes (.linkFrame bd fr) s [.link] fun d => s.dev.BdNow d bd.toNat { s.dev.bd bd.toNat with reorder := [(fr, s.dev.now)] } := by
  refine completes_of_run rfl
    ((Dev.linkFrame_placed hx hgood hnak hretry).trans (Dev.place_ahead (d := s.dev.heard bd.toNat) hx.up htype hseq hx.reorder hnear))
    (Dev.modBd_keep (Dev.modLink_keep (.refl _ _) (by decide) _) (by decide) _ _) ?_
  have hwaits := (Dev.BdNow.heard s.dev bd.toNat).modBd fun x =>
    { x with reorder := x.reorder ++ [(fr, s.dev.now)] }
  rw [hx.reorder] at hwaits
  exact hwaits

theorem completes_linkFrame_far (hx : (s.dev.bd bd.toNat).Still) (hgood : frameGood fr = true) (hnak : fr.nak = false)
    (hretry : (s.dev.bd bd.toNat).retry = []) (htype : fr.type ≠ 1) (hseq : fr.seq ≠ (s.dev.bd bd.toNat).rxAck)
    (hfar : ¬ (1 < (s.dev.bd bd.toNat).lanes.length ∧ (fr.seq - (s.dev.bd bd.toNat).rxAck).toNat < 256)) (hn : (s.dev.bd bd.toNat).nakSent = false) :
    Completes (.linkFrame bd fr) s [.link, .out] fun d =>
      s.dev.BdNow d bd.toNat { s.dev.bd bd.toNat with nakSent := true } ∧ Sys2Proof.Sent s.dev d (s.dev.frameOut bd (s.dev.nakOf bd)) := by
  obtain ⟨hnow, hout⟩ := (s.dev.heard bd.toNat).sendNak_first (bd := bd) hx.up hn
  exact completes_of_run rfl
    ((Dev.linkFrame_placed hx hgood hnak hretry).trans (Dev.place_far (d := s.dev.heard bd.toNat) hx.up htype hseq hfar))
    (Dev.sendNak_keep (Dev.modLink_keep (.refl _ _) (by decide) _) (by decide) (by decide) _) ⟨⟨hnow.own, hnow.others⟩, hout⟩

-- frames for other devices (R264, R265)

/-- A frame has passed once its bundle's place in the receive buffer is free, whatever has left since. -/
theorem Dev.passed_of (hown : e.bd b = ((d.passes b fr).bd b).credited (vcKey fr))
    (hthrough : ∀ i, (e.bd i).through = ((d.passes b fr).bd i).through) : d.Passed e b fr :=
  ⟨Dev.passes_own hown, fun hcls i => (hthrough i).trans (Dev.passes_through hcls i)⟩

/-- A frame without a route is dropped and counted. -/
def Dev.unrouted (d : Dev) (b : Nat) (fr : Frame) : Dev := ((d.countLink 0).raise 849).creditBack (some (b, vcKey fr))

theorem Dev.bdNow_unrouted (d : Dev) (b : Nat) (fr : Frame) : d.BdNow (d.unrouted b fr) b ((d.bd b).credited (vcKey fr)) :=
  Dev.BdNow.creditBack (e := (d.countLink 0).raise 849) ((Dev.BdNow.refl d b).of_bundles rfl) _

theorem Dev.unrouted_keep {ps : List Part} (h : Keep ps e d) (hlink : .link ∈ ps) (hevents : .events ∈ ps) (b : Nat) (fr : Frame) :
    Keep ps e (d.unrouted b fr) := Dev.creditBack_keep (Dev.raise_keep (Dev.countLink_keep h hlink _) hevents _ _) hlink _

theorem Dev.acceptFrame_nowhere (ht : fr.type = 0) (hd : fr.dest ≠ d.link.devid) (hv : (Tbl.get ({} : Fwd) d.link.fwd fr.dest.toNat).valid = false) :
    d.acceptFrame b fr = (d.passes b fr).unrouted b fr :=
  (Dev.acceptFrame_on ht hd).trans (Dev.routeFrame_nowhere (by rw [(d.passes_sameButThrough b fr).fwd]; exact hv))

theorem Dev.passed_unrouted (d : Dev) (b : Nat) (fr : Frame) : d.Passed ((d.passes b fr).unrouted b fr) b fr := by
  have hnow := (d.passes b fr).bdNow_unrouted b fr
  refine Dev.passed_of hnow.own fun i => ?_
  by_cases hi : i = b
  · rw [hi, hnow.own]
    rfl
  · rw [hnow.others i hi]

theorem Dev.unrouted_shows (d : Dev) (b : Nat) (fr : Frame) :
    ((d.passes b fr).unrouted b fr).link.cnt = bumpAt d.link.cnt 0 ∧ Raised d ((d.passes b fr).unrouted b fr) 849 := by
  have hevents : (d.passes b fr).events = d.events := (Dev.passes_keep (ps := [.link]) (.refl _ d) (by decide) b fr).events.resolve_left (by decide)
  have hcnt := (d.passes_sameButThrough b fr).cnt
  generalize d.passes b fr = p at hevents hcnt
  exact ⟨congrArg (bumpAt · 0) hcnt, Dev.raise_raised (e := p.countLink 0) hevents 849⟩

theorem completes_linkFrame_nowhere (hx : (s.dev.bd bd.toNat).Still) (hn : (s.dev.bd bd.toNat).Next fr) (hd : fr.dest ≠ s.dev.link.devid)
    (hv : (Tbl.get ({} : Fwd) s.dev.link.fwd fr.dest.toNat).valid = false) :
    Completes (.linkFrame bd fr) s [.link, .events] fun d => s.dev.Passed d bd.toNat fr ∧
      (∀ i, i ≠ bd.toNat → d.bd i = { s.dev.bd i with through := (d.bd i).through }) ∧ d.link.cnt = bumpAt s.dev.link.cnt 0 ∧ Raised s.dev d 849 := by
  have hpassed : s.dev.Passed _ bd.toNat fr := (s.dev.heard bd.toNat).passed_unrouted bd.toNat fr
  refine completes_of_run rfl
    (Dev.linkFrame_next hx hn (Dev.acceptFrame_nowhere (d := s.dev.heard bd.toNat) hn.type hd hv) (by rw [hpassed.1]; exact hx.reorder))
    (Dev.unrouted_keep (Dev.passes_keep (Dev.modLink_keep (.refl _ _) (by decide) _) (by decide) _ _) (by decide) (by decide) _ _)
    ⟨hpassed, fun i hi => ?_, (s.dev.heard bd.toNat).unrouted_shows bd.toNat fr⟩
  obtain ⟨t, ht⟩ := Dev.passes_others (d := s.dev.heard bd.toNat) (fr := fr) hi
  rw [(Dev.bdNow_unrouted ..).others i hi, ht]
  rfl

/-- A frame as it goes on over the bundle of its entry: DL's virtual channel, the next SEQ, the newest ACK (R261, R264). -/
def Dev.nextHop (d : Dev) (x : Fwd) (fr : Frame) : Frame :=
  { fr with vc := fr.vc || x.dl, seq := (d.bd x.bundle.toNat).txSeq, ack := (d.bd x.bundle.toNat).rxAck }

/-- The frame goes on over the bundle of its entry. -/
def Dev.Forwarded (d e : Dev) (b : Nat) (x : Fwd) (fr : Frame) : Prop :=
  d.Passed e b fr ∧ Sys2Proof.Sent d e (d.frameOut x.bundle (d.nextHop x fr)) ∧
    (e.bd x.bundle.toNat).retry = (d.bd x.bundle.toNat).retry ++ [d.nextHop x fr] ∧ (e.bd x.bundle.toNat).txSeq = (d.bd x.bundle.toNat).txSeq + 1

/-- The bundle has room and credit for a frame, and none waits on it. -/
structure Bundle.Free (x : Bundle) (f : Frame) : Prop where
  up : x.phase = .up
  queue : x.queue = []
  room : x.retry.length < 256
  credit : Tbl.get 0 x.used (vcKey f) < 32

theorem Dev.routeFrame_forwards {x : Fwd} (hroute : Tbl.get ({} : Fwd) d.link.fwd fr.dest.toNat = x) (hv : x.valid = true) (hb : x.bundle.toNat ≠ b)
    (hfree : (d.bd x.bundle.toNat).Free { fr with vc := fr.vc || x.dl }) :
    d.Forwarded ((d.passes b fr).routeFrame fr (some (b, vcKey fr))) b x fr := by
  have hsame := d.passes_sameButThrough b fr
  obtain ⟨t, ht⟩ := Dev.passes_others (d := d) (fr := fr) hb
  obtain ⟨hup, hqueue, hroom, hcredit⟩ := hfree
  obtain ⟨e, hsend, hnow, hout⟩ := Dev.sendFrame_leaves (d := d.passes b fr) (bd := x.bundle) (f := { fr with vc := fr.vc || x.dl })
    (x := some (b, vcKey fr)) (by rw [ht]; exact hup) (by rw [ht]; exact hqueue) (by rw [ht]; exact hroom) (by rw [ht]; exact hcredit)
  have hlast : e.BdNow (e.creditBack (some (b, vcKey fr))) b ((e.bd b).credited (vcKey fr)) := (Dev.BdNow.refl e b).creditBack _
  have hoff : (d.passes b fr).frameOut x.bundle = d.frameOut x.bundle := by
    unfold Dev.frameOut Bundle.deal
    rw [ht]
  have hkept : (d.passes b fr).out = d.out := (Dev.passes_keep (ps := [.link]) (.refl _ d) (by decide) b fr).out.resolve_left (by decide)
  rw [hoff, hkept] at hout
  rw [ht] at hnow hout
  rw [Dev.routeFrame_on (d := d.passes b fr) (by rw [hsame.fwd]; exact hroute) hv, hsend]
  refine ⟨Dev.passed_of ?_ fun i => ?_, hout, ?_, ?_⟩
  · rw [hlast.own, hnow.others b hb.symm]
  · by_cases hi : i = b
    · rw [hi, hlast.own, ← hnow.others b hb.symm]
      rfl
    · rw [hlast.others i hi]
      by_cases hc : i = x.bundle.toNat
      · rw [hc, hnow.own, ht]
        rfl
      · rw [hnow.others i hc]
  · rw [hlast.others _ hb, hnow.own]
    rfl
  · rw [hlast.others _ hb, hnow.own]
    rfl

theorem completes_linkFrame_forwards {x : Fwd} (hx : (s.dev.bd bd.toNat).Still) (hn : (s.dev.bd bd.toNat).Next fr) (hd : fr.dest ≠ s.dev.link.devid)
    (hroute : Tbl.get ({} : Fwd) s.dev.link.fwd fr.dest.toNat = x) (hv : x.valid = true) (hb : x.bundle ≠ bd)
    (hfree : (s.dev.bd x.bundle.toNat).Free { fr with vc := fr.vc || x.dl }) :
    Completes (.linkFrame bd fr) s [.link, .out] fun d => s.dev.Forwarded d bd.toNat x fr := by
  have hsent := Dev.routeFrame_forwards (d := s.dev.heard bd.toNat) hroute hv (fun h => hb (BitVec.eq_of_toNat_eq h)) hfree
  have hpassed : s.dev.Passed _ bd.toNat fr := hsent.1
  refine completes_of_run rfl
    (Dev.linkFrame_next hx hn (Dev.acceptFrame_on (d := s.dev.heard bd.toNat) hn.type hd) (by rw [hpassed.1]; exact hx.reorder)) ?_ hsent
  rw [Dev.routeFrame_on (by rw [((s.dev.heard bd.toNat).passes_sameButThrough bd.toNat fr).fwd]; exact hroute) hv]
  exact Dev.sendFrame_keep (Dev.passes_keep (Dev.modLink_keep (.refl _ _) (by decide) _) (by decide) _ _) (by decide) (by decide) _ _ _

-- frames for this device (R265, R270, R271)

theorem Dev.deliverFrame_part (hcls : fr.cls ≠ 2) (hlast : fr.last = false) :
    d.deliverFrame b fr = d.modBd b fun x => { x with partial_ := x.partial_ ++ [fr] } := by
  unfold Dev.deliverFrame
  rw [if_neg hcls, hlast]
  rfl

theorem Dev.deliverFrame_words (hcls : fr.cls = 2) : d.deliverFrame b fr = d.remoteWords fr := if_pos hcls

theorem completes_linkFrame_part (hx : (s.dev.bd bd.toNat).Still) (hn : (s.dev.bd bd.toNat).Next fr) (hd : fr.dest = s.dev.link.devid)
    (hcls : fr.cls ≠ 2) (hlast : fr.last = false) : Completes (.linkFrame bd fr) s [.link] fun d =>
      s.dev.BdNow d bd.toNat { (s.dev.bd bd.toNat).took fr with partial_ := (s.dev.bd bd.toNat).partial_ ++ [fr] } := by
  have htook := ((s.dev.heard bd.toNat).bdNow_took bd.toNat fr).modBd fun x => { x with partial_ := x.partial_ ++ [fr] }
  refine completes_of_run rfl (Dev.linkFrame_next hx hn
      ((Dev.acceptFrame_own (d := s.dev.heard bd.toNat) hn.type hd).trans (Dev.deliverFrame_part hcls hlast)) (by rw [htook.own]; exact hx.reorder))
    (Dev.modBd_keep (Dev.took_keep (Dev.modLink_keep (.refl _ _) (by decide) _) (by decide) _ _) (by decide) _ _) ⟨htook.own, htook.others⟩

/-- `t` has done no more than accept a frame: what the delivery of its words reads and writes is as in `d`. -/
structure Dev.Accepts (d t : Dev) : Prop where
  rooms : t.rooms = d.rooms
  funcs : t.funcs = d.funcs
  net : t.net = d.net
  time : t.time = d.time
  events : t.events = d.events
  cnt : t.link.cnt = d.link.cnt
  atts : t.link.atts = d.link.atts
  keep : ∀ {ps : List Part}, .link ∈ ps → Keep ps d t

theorem Dev.accepts_took (d : Dev) (b : Nat) (fr : Frame) : d.Accepts ((d.heard b).took b fr) := by
  have hkeep {ps : List Part} (h : .link ∈ ps) : Keep ps d ((d.heard b).took b fr) := Dev.took_keep (Dev.modLink_keep (.refl _ _) h _) h _ _
  have hlink : Keep [.link] d ((d.heard b).took b fr) := hkeep (by decide)
  exact ⟨hlink.rooms.resolve_left (by decide), hlink.funcs.resolve_left (by decide), hlink.net.resolve_left (by decide),
    hlink.time.resolve_left (by decide), hlink.events.resolve_left (by decide), rfl, rfl, hkeep⟩

/-- What the words of an XCH frame in sequence do, they do after the frame is accepted. -/
theorem Dev.linkFrame_words (hx : (d.bd bd.toNat).Still) (hn : (d.bd bd.toNat).Next fr) (hd : fr.dest = d.link.devid) (hcls : fr.cls = 2) :
    ∃ t, d.Accepts t ∧ ∀ e, t.remoteWords fr = e → e.link.bundles = t.link.bundles →
      d.linkFrame bd fr = e ∧ e.bd bd.toNat = (d.bd bd.toNat).took fr := by
  refine ⟨(d.heard bd.toNat).took bd.toNat fr, d.accepts_took bd.toNat fr, fun e he hbundles => ?_⟩
  have hown := (((d.heard bd.toNat).bdNow_took bd.toNat fr).of_bundles hbundles).own
  refine ⟨Dev.linkFrame_next hx hn ?_ (by rw [hown]; exact hx.reorder), hown⟩
  rw [Dev.acceptFrame_own (d := d.heard bd.toNat) hn.type hd, Dev.deliverFrame_words hcls, he]

end

section
variable {s : State} {d t : Dev} {bd : BitVec 4} {fr : Frame} {f : Func} {y : BindRec} {r : RoomId} {gen : BitVec 8}

/-- A frame of remote words for this device, whose first entry alone is valid. -/
structure OneWord (d : Dev) (fr : Frame) : Prop where
  here : fr.dest = d.link.devid
  cls : fr.cls = 2
  valid : fr.payload.getLsbD 331 = true
  rest : ∀ i ∈ [347, 363, 379], fr.payload.getLsbD i = false

/-- The one word of the frame. -/
def firstWord (fr : Frame) : PktWord :=
  { idx := (fr.payload.extractLsb' 320 10).toNat, word := fr.payload.extractLsb' 64 64, absent := fr.payload.getLsbD 330 }

theorem Dev.Accepts.remoteFor (h : d.Accepts t) : t.remoteFor fr = d.remoteFor fr := by
  have hfunc (n : FuncId) : t.func? n = d.func? n := congrArg (List.find? fun x : Func => x.id == n) h.funcs
  unfold Dev.remoteFor
  rw [hfunc]

/-- A word that is for no binding, or for another beat, is counted. -/
theorem Dev.Accepts.counts (h : d.Accepts t) (n : Nat) :
    ((t.countLink n).raise 850).link.cnt = bumpAt d.link.cnt n ∧ Raised d ((t.countLink n).raise 850) 850 :=
  ⟨congrArg (bumpAt · n) h.cnt, Dev.raise_raised (e := t.countLink n) h.events 850⟩

theorem Dev.Accepts.counts_keep (h : d.Accepts t) (n : Nat) : Keep [.link, .events] d ((t.countLink n).raise 850) :=
  Dev.raise_keep (Dev.countLink_keep (h.keep (by decide)) (by decide) _) (by decide) _ _

theorem completes_linkFrame_noBinding (hx : (s.dev.bd bd.toNat).Still) (hn : (s.dev.bd bd.toNat).Next fr) (hw : OneWord s.dev fr)
    (hfor : s.dev.remoteFor fr = none) : Completes (.linkFrame bd fr) s [.link, .events] fun d =>
      d.bd bd.toNat = (s.dev.bd bd.toNat).took fr ∧ d.link.cnt = bumpAt s.dev.link.cnt 1 ∧ Raised s.dev d 850 := by
  obtain ⟨t, ht, hthen⟩ := Dev.linkFrame_words hx hn hw.here hw.cls
  obtain ⟨hrun, hown⟩ := hthen _ (Dev.remoteWords_nowhere (frameWords_first hw.valid hw.rest) (ht.remoteFor.trans hfor)) rfl
  exact completes_of_run rfl hrun (ht.counts_keep 1) ⟨hown, ht.counts 1⟩

theorem completes_linkFrame_late (hx : (s.dev.bd bd.toNat).Still) (hn : (s.dev.bd bd.toNat).Next fr) (hw : OneWord s.dev fr)
    (hfor : s.dev.remoteFor fr = some (f, y)) (hb : fr.bpar ≠ s.dev.time.n.getLsbD 0) :
    Completes (.linkFrame bd fr) s [.link, .events] fun d => d.link.cnt = bumpAt s.dev.link.cnt 2 ∧ Raised s.dev d 850 := by
  obtain ⟨t, ht, hthen⟩ := Dev.linkFrame_words hx hn hw.here hw.cls
  obtain ⟨hrun, -⟩ := hthen _ (Dev.remoteWords_late (frameWords_first hw.valid hw.rest) (ht.remoteFor.trans hfor) (by rw [ht.time]; exact hb)) rfl
  exact completes_of_run rfl hrun (ht.counts_keep 2) (ht.counts 2)

/-- The function and the binding that take a word of attempt 0 for one room, where none of attempt 1 came before. -/
structure TakesWord (d : Dev) (fr : Frame) (f : Func) (y : BindRec) (r : RoomId) (gen : BitVec 8) : Prop where
  func : d.func? (fr.payload.extractLsb' 16 16) = some f
  phase : f.phase = .admitted
  dest : f.destinations (fr.payload.extractLsb' 0 8).toNat (fr.payload.extractLsb' 8 8).toNat = [(r, gen)]
  binding : (f.obj.bindings.find? fun y => y.type == 4 && y.dirIn && y.vroom == (fr.payload.extractLsb' 8 8).toNat &&
    y.holds (fr.payload.extractLsb' 320 10).toNat) = some y
  att : fr.att = false
  first : d.link.atts = []

theorem TakesWord.remoteFor (h : TakesWord d fr f y r gen) (hw : OneWord d fr) : d.remoteFor fr = some (f, y) :=
  Dev.remoteFor_some (frameWords_first hw.valid hw.rest) h.func h.phase h.dest h.binding

/-- The word goes on to the room for the next beat. -/
theorem TakesWord.remoteWords (h : TakesWord d fr f y r gen) (hw : OneWord d fr) (ht : d.Accepts t) (hb : fr.bpar = d.time.n.getLsbD 0) :
    t.remoteWords fr = t.hubSend 4 258 (t.time.n + 1) (r, gen) [firstWord fr] := by
  have hholds : y.holds (fr.payload.extractLsb' 320 10).toNat = true := by
    have hfound := List.find?_some h.binding
    simp only [Bool.and_eq_true] at hfound
    exact hfound.2
  refine Dev.remoteWords_next (frameWords_first hw.valid hw.rest) (ht.remoteFor.trans (h.remoteFor hw)) (by rw [ht.time]; exact hb) h.att
    (ht.atts.trans h.first) hholds ?_
  rw [rtRep_remoteTarget, rtVroom_remoteTarget]
  exact h.dest

theorem completes_linkFrame_word (hx : (s.dev.bd bd.toNat).Still) (hn : (s.dev.bd bd.toNat).Next fr) (hw : OneWord s.dev fr)
    (htakes : TakesWord s.dev fr f y r gen) (hb : fr.bpar = s.dev.time.n.getLsbD 0) (hheld : s.dev.net.heldOn (.hub 4) (.room r) = false)
    (hdown : s.dev.net.downOn (.hub 4) (.room r) = false) (hfunc : (s.dev.room r).func ≠ 0xFFFF) (hgen : (s.dev.room r).gen = gen) :
    Completes (.linkFrame bd fr) s [.link, .rooms, .net] fun d => s.dev.WordReaches d r 514 (firstWord fr) := by
  obtain ⟨t, ht, hthen⟩ := Dev.linkFrame_words hx hn hw.here hw.cls
  have hroom : t.room r = s.dev.room r := congrArg (fun z => Tbl.get ({} : Room) z r.toNat) ht.rooms
  rw [← ht.net] at hheld hdown
  rw [← hroom] at hfunc hgen
  obtain ⟨hrun, -⟩ := hthen _ (htakes.remoteWords hw ht hb) (congrArg (·.link.bundles) (Dev.hubSend_open hheld hdown))
  exact completes_of_run rfl hrun (Dev.hubSend_keep (ht.keep (by decide)) (by decide) (by decide) _ _ _ _ _)
    ((Dev.hubSend_reaches hheld hdown hfunc hgen rfl).of_eq ht.rooms ht.net)

theorem completes_linkFrame_wordHeld (hx : (s.dev.bd bd.toNat).Still) (hn : (s.dev.bd bd.toNat).Next fr) (hw : OneWord s.dev fr)
    (htakes : TakesWord s.dev fr f y r gen) (hb : fr.bpar = s.dev.time.n.getLsbD 0) (hheld : s.dev.net.heldOn (.hub 4) (.room r) = true) :
    Completes (.linkFrame bd fr) s [.link, .net] fun d =>
      d.net = { s.dev.net with xch := s.dev.net.xch ++ [hubPacket 4 258 (s.dev.time.n + 1) (r, gen) true (firstWord fr)] } := by
  obtain ⟨t, ht, hthen⟩ := Dev.linkFrame_words hx hn hw.here hw.cls
  rw [← ht.net] at hheld
  obtain ⟨hrun, -⟩ := hthen _ ((htakes.remoteWords hw ht hb).trans (Dev.hubSend_held hheld)) rfl
  refine completes_of_run rfl hrun (Dev.putNet_keep (ht.keep (by decide)) (by decide) _) ?_
  rw [← ht.net, ← ht.time]
  rfl

-- frames that are not acknowledged (R261, R262)

/-- The oldest unacknowledged frame is older than RTO. -/
def Bundle.Overdue (x : Bundle) (now : Instant) : Prop := ∃ t, x.sentAt.head? = some t ∧ t + max 1 x.rto.toNat * 100 * ns < now

theorem Dev.retryTimeout_overdue {d : Dev} {b : Nat} (hup : (d.bd b).phase = .up) (ho : (d.bd b).Overdue d.now) :
    Dev.retryTimeout b d = d.resendFrames b := by
  obtain ⟨t, ht, hlate⟩ := ho
  unfold Dev.retryTimeout
  dsimp only
  rw [if_pos ⟨hup, by rw [ht, Option.any_some, decide_eq_true_iff]; exact hlate⟩]

theorem completes_retryTimeout_resends (hup : (s.dev.bd bd.toNat).phase = .up) (ho : (s.dev.bd bd.toNat).Overdue s.dev.now)
    (hr : (s.dev.bd bd.toNat).retry ≠ []) (hs : ∀ y ∈ (s.dev.bd bd.toNat).sends, y < 16) :
    Completes (.retryTimeout bd) s [.link, .out] fun d => s.dev.Resent d bd := by
  obtain ⟨hnow, hkeep, hout⟩ := s.dev.resendFrames_again hr hs
  exact completes_of_run rfl (Dev.retryTimeout_overdue hup ho) (hkeep (.refl _ _) (by decide) (by decide)) ⟨hnow, hout⟩

theorem completes_retryTimeout_gives_up (hup : (s.dev.bd bd.toNat).phase = .up) (ho : (s.dev.bd bd.toNat).Overdue s.dev.now)
    (hr : (s.dev.bd bd.toNat).retry ≠ []) (hs : ∃ y ∈ (s.dev.bd bd.toNat).sends, 16 ≤ y) :
    Completes (.retryTimeout bd) s [.link, .events] fun d =>
      s.dev.BdNow d bd.toNat (s.dev.bd bd.toNat).fallen ∧ OnTheWay d (832 + bd.toNat) :=
  completes_of_run rfl ((Dev.retryTimeout_overdue hup ho).trans (Dev.resendFrames_gives_up hr hs))
    (Dev.bundleDown_keep (.refl _ _) (by decide) (by decide) _) (Dev.bundleDown_falls hup)

end

-- the statement

/-- Settles O36: each clause is a case of LINK_FRAME or RETRY_TIMEOUT, by the lemma that carries it out. -/
theorem framesAreAcknowledgedAndRouted : Obligations.FramesAreAcknowledgedAndRouted := by
  intro s bd fr k b x c others sent nak resent taken passes old inSequence hup hqueue hreorder
  have hx : x.Still := ⟨hup, hqueue, hreorder⟩
  have hresent (d : Dev) (h : s.dev.Resent d bd) : resent d := ⟨h.1.own, h.1.others, h.2⟩
  refine ⟨?bad, ?acknowledged, ?outOfSequence, ?away, ?here, ?resends, ?falls⟩
  case bad =>
    intro hbad hn
    exact completes_imp (completes_linkFrame_bad hup hbad hn) fun _ ⟨hnow, hsent⟩ => ⟨hnow.own, hnow.others, hsent⟩
  case acknowledged =>
    intro f rest n hgood htype hretry
    constructor
    · intro hnak h0 hn
      exact completes_imp (completes_linkFrame_ack hx hgood htype hretry hnak h0 hn) fun d h => ⟨h.own, h.others⟩
    · intro hnak h0 hsends
      exact completes_imp (completes_linkFrame_nak hx hgood htype hretry hnak h0 hsends) hresent
  case outOfSequence =>
    intro hgood hnak hretry htype hseq near
    constructor
    · intro hnear
      exact completes_imp (completes_linkFrame_ahead hx hgood hnak hretry htype hseq hnear) fun d h => ⟨h.own, h.others⟩
    · intro hfar hn
      exact completes_imp (completes_linkFrame_far hx hgood hnak hretry htype hseq hfar hn) fun _ ⟨hnow, hsent⟩ => ⟨hnow.own, hnow.others, hsent⟩
  case away =>
    intro ⟨hgood, hnak, hretry, htype, hseq⟩ hd e z g
    have hin : x.Next fr := ⟨hgood, hnak, hretry, htype, hseq⟩
    constructor
    · intro hv
      exact completes_linkFrame_nowhere hx hin hd hv
    · intro hv hb hz hzqueue hroom hcredit
      exact completes_linkFrame_forwards hx hin hd rfl hv hb ⟨hz, hzqueue, hroom, hcredit⟩
  case here =>
    intro ⟨hgood, hnak, hretry, htype, hseq⟩ hd
    have hin : x.Next fr := ⟨hgood, hnak, hretry, htype, hseq⟩
    constructor
    · intro hcls hlast
      exact completes_imp (completes_linkFrame_part hx hin hd hcls hlast) fun d h => ⟨h.own, h.others⟩
    · intro hcls hvalid hrest slot vroom
      have hw : OneWord s.dev fr := ⟨hd, hcls, hvalid, hrest⟩
      refine ⟨fun hf => completes_linkFrame_noBinding hx hin hw (Dev.remoteFor_none hf), ?_⟩
      intro f y r gen hf hphase hdest hy hatt hatts
      have htakes : TakesWord s.dev fr f y r gen := ⟨hf, hphase, hdest, hy, hatt, hatts⟩
      refine ⟨completes_linkFrame_late hx hin hw (htakes.remoteFor hw), ?_⟩
      intro hb held w
      exact ⟨completes_linkFrame_word hx hin hw htakes hb, completes_linkFrame_wordHeld hx hin hw htakes hb⟩
  case resends =>
    intro hr ho hs
    exact completes_imp (completes_retryTimeout_resends hup ho hr hs) hresent
  case falls =>
    intro hr ho hs
    refine completes_imp (completes_retryTimeout_gives_up hup ho hr hs) fun d h => ?_
    obtain ⟨hnow, hevent⟩ := h
    rw [hnow.own]
    exact ⟨rfl, rfl, rfl, hnow.others, hevent⟩

end Sys2Proof.Machine
end

section
/-! What a descriptor's completion leaves of the ring pairs, and of the record of a refusal (12_host_interface.md R349 to R356, R365, R366): a refusal's
record stays, whatever APPLIED tells, and its status alone is counted while the PCIe link is up. -/

namespace Sys2Proof.Machine
open Sys2Proof

-- what a completion leaves of the ring pairs

/-- A ring pair but for its retention window, for APPLIED and HELD, and for the completions that its message waits for. -/
def Ring.position (r : Ring) : Ring := { r with window := [], applied := 0, held := 0, irqPending := 0, irqSince := 0 }

theorem Ring.reapply_position (r : Ring) : r.reapply.position = r.position := by
  unfold Ring.reapply
  dsimp only
  split
  · split <;> rfl
  · split <;> rfl

/-- The ring pairs stand where they stood, and nothing is counted while the PCIe link is up (R349, R366). -/
structure Dev.RingsStand (d e : Dev) : Prop where
  position (k : BitVec 9) : (e.ring k).position = (d.ring k).position
  vfPorts : e.rings.vfPorts = d.rings.vfPorts
  order : e.rings.order = d.rings.order
  linkUp : e.rings.linkUp = d.rings.linkUp
  cnt : d.rings.linkUp = true → e.rings.cnt = d.rings.cnt

section
variable {c d e : Dev}

theorem Dev.RingsStand.refl (d : Dev) : d.RingsStand d := ⟨fun _ => rfl, rfl, rfl, rfl, fun _ => rfl⟩

theorem Dev.RingsStand.trans (h : c.RingsStand d) (h' : d.RingsStand e) : c.RingsStand e :=
  ⟨fun k => (h'.position k).trans (h.position k), h'.vfPorts.trans h.vfPorts, h'.order.trans h.order, h'.linkUp.trans h.linkUp,
   fun hup => (h'.cnt (h.linkUp.trans hup)).trans (h.cnt hup)⟩

theorem Dev.RingsStand.of_rings (h : e.rings = d.rings) : d.RingsStand e :=
  ⟨fun k => by unfold Dev.ring; rw [h], by rw [h], by rw [h], by rw [h], fun _ => by rw [h]⟩

theorem Dev.RingsStand.ite {p : Prop} [Decidable p] (hd : p → c.RingsStand d) (he : ¬ p → c.RingsStand e) : c.RingsStand (if p then d else e) :=
  iteInduction (motive := c.RingsStand) hd he

theorem Dev.RingsStand.each {α : Type} {l : List α} {f : Dev → α → Dev} (hf : ∀ d a, Dev.RingsStand d (f d a)) : d.RingsStand (d.each l f) :=
  Dev.each_induct (P := d.RingsStand) (.refl d) fun e a he => he.trans (hf e a)

theorem Dev.ring_setRing_same (d : Dev) (k : BitVec 9) (x : Ring) : (d.setRing k x).ring k = x := Tbl.get_set_same _ _ _ _

theorem Dev.ring_setRing_other (d : Dev) {j k : BitVec 9} (x : Ring) (h : j ≠ k) : (d.setRing k x).ring j = d.ring j :=
  Tbl.get_set_other _ _ _ _ _ fun hn => h (BitVec.eq_of_toNat_eq hn)

theorem Dev.setRing_ringsStand {k : BitVec 9} {x : Ring} (h : x.position = (d.ring k).position) : d.RingsStand (d.setRing k x) := by
  refine ⟨fun j => ?_, rfl, rfl, rfl, fun _ => rfl⟩
  by_cases hj : j = k
  · subst hj; rw [Dev.ring_setRing_same, h]
  · rw [Dev.ring_setRing_other d x hj]

theorem Dev.modRing_ringsStand {k : BitVec 9} {f : Ring → Ring} (h : (f (d.ring k)).position = (d.ring k).position) : d.RingsStand (d.modRing k f) :=
  Dev.setRing_ringsStand h

theorem Dev.sendMessage_ringsStand (d : Dev) (dest : BitVec 11) (cls : FlitClass) (tag op addr flits body : Nat) :
    d.RingsStand (d.sendMessage dest cls tag op addr flits body) := .of_rings (Dev.sendMessage_sent ..).2

theorem Dev.writeHost_ringsStand (d : Dev) (a : BitVec 64) (bs : Bytes) : d.RingsStand (d.writeHost a bs) := by
  unfold Dev.writeHost
  split
  · exact .of_rings rfl
  · next hdown => exact ⟨fun _ => rfl, rfl, rfl, rfl, fun hup => absurd hup hdown⟩

theorem Dev.coalesce_ringsStand (d : Dev) (k : BitVec 9) : d.RingsStand (d.coalesce k) := by
  unfold Dev.coalesce
  dsimp only
  split
  · exact (Dev.setRing_ringsStand (x := { d.ring k with irqPending := 0 }) rfl).trans (.of_rings (Dev.msix_rings ..))
  · exact .refl d

theorem Dev.postOne_ringsStand (d : Dev) (k : BitVec 9) (x : RetEntry) : d.RingsStand (d.postOne k x) := by
  unfold Dev.postOne
  exact .ite (fun _ => (Dev.sendMessage_ringsStand ..).trans (Dev.modRing_ringsStand rfl)) fun _ =>
    (Dev.writeHost_ringsStand ..).trans ((Dev.modRing_ringsStand rfl).trans (Dev.coalesce_ringsStand ..))

theorem Dev.postRing_ringsStand (d : Dev) (k : BitVec 9) : d.RingsStand (d.postRing k) := .each fun d x => Dev.postOne_ringsStand d k x

theorem Dev.unconfirmed_ringsStand (d : Dev) (x : DescRef) : d.RingsStand (d.unconfirmed x) := Dev.setRing_ringsStand rfl

theorem Dev.resolveAwait_ringsStand (d : Dev) : d.RingsStand d.resolveAwait :=
  .each fun _ _ => .ite (fun _ => .trans (.of_rings (by rfl)) (Dev.unconfirmed_ringsStand ..)) fun _ => .ite (fun _ => .of_rings (by rfl)) fun _ =>
    .trans (.of_rings (by rfl)) ((Dev.unconfirmed_ringsStand ..).trans ((Dev.sendMessage_ringsStand ..).trans (.of_rings (Dev.divergence_sent _).2)))

theorem Dev.ownStatus_ringsStand (d : Dev) (x : DescRef) (status : Nat) : d.RingsStand (d.ownStatus x status) :=
  .trans (.of_rings (by rfl)) (Dev.resolveAwait_ringsStand _)

theorem Dev.reheld_ringsStand (d : Dev) (k : BitVec 9) : d.RingsStand (d.reheld k) := by
  unfold Dev.reheld
  exact .ite (fun _ => .refl d) fun _ => (Dev.modRing_ringsStand rfl).trans (.ite (fun _ => .refl _) fun _ => .of_rings rfl)

end

-- the entry of a descriptor changed

section
variable {d : Dev} {x : DescRef} {e : RetEntry} {f : RetEntry → RetEntry}

theorem Dev.modEntry_entry (hw : d.rings.windowsOk) (he : d.entry? x = some e) (hf : ∀ y, (f y).slot = y.slot) : (d.modEntry x f).entry? x = some (f e) :=
  Dev.entry_setRing (f := f) hw he rfl hf

theorem Dev.modEntry_windowsOk (hw : d.rings.windowsOk) (hf : ∀ y, (f y).slot = y.slot) : (d.modEntry x f).rings.windowsOk :=
  (Dev.modEntry_keep (.refl [.rings] d) (by decide) x f hf).windows hw

theorem Dev.modEntry_ringsStand (d : Dev) (x : DescRef) (f : RetEntry → RetEntry) : d.RingsStand (d.modEntry x f) := Dev.modRing_ringsStand (by rfl)

end

-- the steps of a completion

/-- The entries of one slot changed, and APPLIED with them (R354). -/
def Dev.marked (d : Dev) (k : BitVec 9) (n : Nat) (f : RetEntry → RetEntry) : Dev :=
  d.modRing k fun r => Ring.reapply { r with window := r.window.map fun y => if y.slot = n then f y else y }

/-- The counter and the event of a status (R365, R366). -/
def Dev.reported (d : Dev) (status : Nat) : Dev :=
  match status with
  | 0x05 => (d.countRing 2).raise 770
  | 0x50 => (d.countRing 1).raise 769
  | 0x51 => (d.countRing 0).raise 769
  | 0x70 => (d.countRing 3).raise 771
  | _ => d

/-- What follows a recorded status: the comparison with APPLIED, posting, and the FENCEs that waited for it (R277, R356). -/
def Dev.closed (d : Dev) (x : DescRef) (status : Nat) : Dev :=
  Dev.settle (d.ownStatus x status).fences ((d.ownStatus x status).postRing x.ring)

/-- An open descriptor's end, step by step (R349 to R353). -/
theorem Dev.finish_eq {d : Dev} {x : DescRef} {e : RetEntry} (he : d.entry? x = some e) (hp : e.phase ≠ .completed) (st det i0 i1 : Nat) :
    d.finish x st det i0 i1 = ((d.marked x.ring x.slot.toNat fun y => { y with
      phase := .completed
      record := { seq := e.seq, status := st, detail := det, opcode := descOpcode e.desc, info0 := i0, info1 := i1, beat := d.time.n } }).reported
        st).closed x st := by
  unfold Dev.finish
  rw [he]
  dsimp only
  rw [if_neg hp]
  rfl

/-- What the end of each FENCE, each comparison with APPLIED and each posting keeps, settling keeps. -/
theorem Dev.settle_induct {P : Dev → Prop} {d : Dev} (n : Nat)
    (hfence : ∀ d k e f, d.fenceReady = some (k, e) → (∀ y, (f y).slot = y.slot) → P d → P (d.marked k e.slot f))
    (hown : ∀ d x st, P d → P (d.ownStatus x st)) (hpost : ∀ d k, P d → P (d.postRing k)) (h : P d) : P (Dev.settle n d) := by
  induction n generalizing d with
  | zero => exact h
  | succ n ih =>
    unfold Dev.settle
    split
    · exact h
    · next k e hready =>
      exact ih (hpost _ _ (hown _ _ _ (hfence d k e (fun y => { y with phase := .completed, record := { seq := y.seq, opcode := 1, beat := d.time.n } })
        hready (fun _ => rfl) h)))

theorem Dev.marked_ringsStand (d : Dev) (k : BitVec 9) (n : Nat) (f : RetEntry → RetEntry) : d.RingsStand (d.marked k n f) :=
  Dev.modRing_ringsStand (Ring.reapply_position _)

theorem Dev.closed_ringsStand (d : Dev) (x : DescRef) (st : Nat) : d.RingsStand (d.closed x st) :=
  Dev.settle_induct (P := d.RingsStand) _ (fun _ _ _ _ _ _ h => h.trans (Dev.marked_ringsStand ..)) (fun _ _ _ h => h.trans (Dev.ownStatus_ringsStand ..))
    (fun _ _ h => h.trans (Dev.postRing_ringsStand ..)) ((Dev.ownStatus_ringsStand ..).trans (Dev.postRing_ringsStand ..))

-- the record of a refusal stays, whatever APPLIED tells (R277, R280)

section
variable {d : Dev} {x : DescRef} {c : Completion}

/-- A descriptor has completed with a record, in windows that are in form. -/
def Dev.Recorded (d : Dev) (x : DescRef) (c : Completion) : Prop := CompletedWith d x c ∧ d.rings.windowsOk

theorem Dev.Recorded.of_rings {e : Dev} (h : d.Recorded x c) (hr : e.rings.pairs = d.rings.pairs) : e.Recorded x c :=
  ⟨Dev.entry_done (.pairs hr) h.1, Rings.windowsOk_pairs hr h.2⟩

theorem Dev.Recorded.unconfirmed (h : d.Recorded x c) (hok : c.status ≠ 0) (hpart : c.status ≠ 3) (y : DescRef) : (d.unconfirmed y).Recorded x c := by
  by_cases hy : y = x
  · subst hy
    obtain ⟨⟨e, he, hphase, hrecord⟩, hw⟩ := h
    have hfirm : ¬ (e.record.status = 0 ∨ e.record.status = 3) := by rw [hrecord]; exact not_or.2 ⟨hok, hpart⟩
    exact ⟨⟨e, (Dev.modEntry_entry hw he fun e => by split <;> rfl).trans (congrArg some (if_neg hfirm)), hphase, hrecord⟩,
      Dev.modEntry_windowsOk hw fun e => by split <;> rfl⟩
  · exact Dev.unconfirmed_completed h.2 hy h.1

theorem Dev.Recorded.resolveAwait (h : d.Recorded x c) (hok : c.status ≠ 0) (hpart : c.status ≠ 3) : d.resolveAwait.Recorded x c := by
  refine Dev.each_induct (P := (Dev.Recorded · x c)) h fun d a h => ?_
  have hu := Dev.Recorded.unconfirmed (h.of_rings (e := d.putLink { d.link with await := d.link.await.erase a }) rfl) hok hpart a.desc
  exact iteInduction (motive := (Dev.Recorded · x c)) (fun _ => hu) fun _ =>
    iteInduction (motive := (Dev.Recorded · x c)) (fun _ => h.of_rings rfl) fun _ =>
      hu.of_rings (congrArg Rings.pairs ((Dev.sendMessage_sent ..).trans (Dev.divergence_sent _)).2)

theorem Dev.Recorded.ownStatus (h : d.Recorded x c) (hok : c.status ≠ 0) (hpart : c.status ≠ 3) (y : DescRef) (st : Nat) :
    (d.ownStatus y st).Recorded x c :=
  Dev.Recorded.resolveAwait (h.of_rings rfl) hok hpart

theorem Dev.Recorded.postRing (h : d.Recorded x c) (k : BitVec 9) : (d.postRing k).Recorded x c := by
  obtain ⟨hdone, hw⟩ := Dev.postRing_done d k h.2
  exact ⟨Dev.entry_done hdone h.1, hw⟩

/-- A FENCE that is ready is an entry that has not completed. -/
theorem Dev.fenceReady_accepted {k : BitVec 9} {e : RetEntry} (hw : d.rings.windowsOk) (h : d.fenceReady = some (k, e)) :
    e ∈ (d.ring k).window ∧ e.phase = .accepted := by
  obtain ⟨p, hp, hq⟩ := List.exists_of_findSome?_eq_some h
  obtain ⟨y, hfound, hpair⟩ := Option.map_eq_some_iff.1 hq
  cases hpair
  have hring : d.ring (BitVec.ofNat 9 p.1) = p.2 := by
    unfold Dev.ring
    rw [BitVec.toNat_ofNat, Nat.mod_eq_of_lt (hw.2 p hp).1]
    exact Tbl.get_of_mem _ (Tbl.wf_rising hw.1) hp
  rw [hring]
  refine ⟨List.mem_of_find?_eq_some hfound, ?_⟩
  have := List.find?_some hfound
  simp only [Bool.and_eq_true, beq_iff_eq] at this
  obtain ⟨⟨⟨⟨-, haccepted⟩, -⟩, -⟩, -⟩ := this
  exact haccepted

theorem Dev.Recorded.fence {k : BitVec 9} {e : RetEntry} {f : RetEntry → RetEntry} (h : d.Recorded x c) (hready : d.fenceReady = some (k, e))
    (hf : ∀ y, (f y).slot = y.slot) : (d.marked k e.slot f).Recorded x c := by
  obtain ⟨⟨y, hy, hphase, hrecord⟩, hw⟩ := h
  obtain ⟨hmem, haccepted⟩ := Dev.fenceReady_accepted hw hready
  have hother : x.ring ≠ k ∨ x.slot.toNat ≠ e.slot := by
    by_contra hsame
    obtain ⟨rfl, hslot⟩ := not_or.1 hsame |>.imp not_not.1 not_not.1
    have hy' : y.slot = x.slot.toNat := by simpa using List.find?_some hy
    have : y = e := find_slot_unique (Rings.windowsOk_get hw _).1 (List.mem_of_find?_eq_some hy) hmem (hy'.trans hslot)
    rw [this, haccepted] at hphase
    cases hphase
  exact ⟨Dev.completed_setRing hw (Ring.reapply_window _) hf hother ⟨y, hy, hphase, hrecord⟩,
    Rings.windowsOk_set hw k _ (RingKept.mapped _ (fun y => by split <;> [exact hf y; rfl]) (Ring.reapply_window _))⟩

theorem Dev.Recorded.closed (h : d.Recorded x c) (hok : c.status ≠ 0) (hpart : c.status ≠ 3) (y : DescRef) (st : Nat) : (d.closed y st).Recorded x c :=
  Dev.settle_induct (P := (Dev.Recorded · x c)) _ (fun _ _ _ _ hready hf h => h.fence hready hf) (fun _ _ _ h => h.ownStatus hok hpart _ _)
    (fun _ _ h => h.postRing _) ((h.ownStatus hok hpart _ _).postRing _)

theorem Dev.reported_pairs (d : Dev) (st : Nat) : (d.reported st).rings.pairs = d.rings.pairs := by
  unfold Dev.reported
  split <;> rfl

theorem Dev.reported_linkUp (d : Dev) (st : Nat) : (d.reported st).rings.linkUp = d.rings.linkUp := by
  unfold Dev.reported
  split <;> rfl

theorem Dev.EnRoute.closed {o : Occ} (h : d.EnRoute o) {st : Nat} : (d.closed x st).EnRoute o := .settle (.postRing (.ownStatus h))

/-- One occurrence is counted while the PCIe link is up, and its event is on its way (R365, R366). -/
def Dev.Counts (d e : Dev) (n ev : Nat) : Prop := (d.rings.linkUp = true → e.rings.cnt = bumpAt d.rings.cnt n) ∧ OnTheWay e ev

/-- A descriptor's refusal records its status for good, leaves the ring pairs where they stand, and counts and raises what its status says. -/
structure Dev.Refused (d e : Dev) (x : DescRef) (c : Completion) : Prop where
  recorded : e.Recorded x c
  position (k : BitVec 9) : (e.ring k).position = (d.ring k).position
  linkUp : e.rings.linkUp = d.rings.linkUp
  counts (n ev : Nat) : (∀ d, Dev.reported d c.status = (d.countRing n).raise ev) → d.Counts e n ev

theorem Dev.finish_refused {e : RetEntry} (hw : d.rings.windowsOk) (he : d.entry? x = some e) (hp : e.phase ≠ .completed) {st : Nat} (hok : st ≠ 0)
    (hpart : st ≠ 3) (det i0 i1 : Nat) :
    d.Refused (d.finish x st det i0 i1) x
      { seq := e.seq, status := st, detail := det, opcode := descOpcode e.desc, info0 := i0, info1 := i1, beat := d.time.n } := by
  rw [Dev.finish_eq he hp]
  generalize hc : ({ seq := e.seq, status := st, detail := det, opcode := descOpcode e.desc, info0 := i0, info1 := i1, beat := d.time.n } : Completion) = c
  have hst : c.status = st := hc ▸ rfl
  generalize hm : d.marked x.ring x.slot.toNat (fun y => { y with phase := .completed, record := c }) = m
  have hrecorded : m.Recorded x c := by
    subst hm
    exact ⟨⟨_, Dev.entry_setRing (f := fun y => { y with phase := .completed, record := c }) hw he (Ring.reapply_window _) fun _ => rfl, rfl, rfl⟩,
      Rings.windowsOk_set hw _ _ (RingKept.mapped _ (fun y => by split <;> rfl) (Ring.reapply_window _))⟩
  have hstand : d.RingsStand m := hm ▸ Dev.marked_ringsStand ..
  have hclosed := (m.reported st).closed_ringsStand x st
  refine ⟨(hrecorded.of_rings (m.reported_pairs st)).closed (hst ▸ hok) (hst ▸ hpart) x st, fun k => ?_,
    hclosed.linkUp.trans ((m.reported_linkUp st).trans hstand.linkUp), fun n ev hreport => ?_⟩
  · rw [hclosed.position k, ← hstand.position k]
    unfold Dev.ring
    rw [m.reported_pairs st]
  · rw [← hst, hreport] at hclosed ⊢
    refine ⟨fun hup => ?_, _, (m.countRing n).enRoute_raise ev 0 |>.closed, rfl⟩
    rw [hclosed.cnt (hstand.linkUp.trans hup)]
    exact congrArg (bumpAt · n) (hstand.cnt hup)

end

end Sys2Proof.Machine
end

section
/-! The fetch slot and acceptance (12_host_interface.md R343, R352, R355; 11_images_and_reconfiguration.md R324): the entry that a fetch puts in the
window, what acceptance leaves of it, and what acceptance finds out. -/

namespace Sys2Proof.Machine
open Sys2Proof

-- a fetched slot (R352)

theorem Dev.EnRoute.reheld {d : Dev} {o : Occ} (h : d.EnRoute o) {k : BitVec 9} : (d.reheld k).EnRoute o :=
  .ite (fun _ => h) fun _ => .ite (fun _ => .modRing h) fun _ => .raise (.modRing h)

theorem Dev.reheld_entry {d : Dev} (hw : d.rings.windowsOk) (k : BitVec 9) (x : DescRef) : (d.reheld k).entry? x = d.entry? x := by
  have hwindow (e : Dev) : e.rings.pairs = (d.setRing k { d.ring k with held := d.heldBits k }).rings.pairs → e.entry? x = d.entry? x := by
    intro he
    have hr : (e.ring x.ring).window = (d.ring x.ring).window := by
      unfold Dev.ring
      rw [he]
      refine (congrArg Ring.window (Dev.ring_setRing d x.ring k _ hw)).trans ?_
      split
      · next hk => subst hk; rfl
      · rfl
    unfold Dev.entry?
    rw [hr]
  unfold Dev.reheld
  exact iteInduction (motive := fun e : Dev => e.entry? x = d.entry? x) (fun _ => rfl) fun _ =>
    iteInduction (motive := fun e : Dev => e.entry? x = d.entry? x) (fun _ => hwindow _ rfl) fun _ => hwindow _ rfl

/-- HELD follows the causes of a pause (R355). -/
theorem Dev.reheld_ring (d : Dev) (k : BitVec 9) : (d.reheld k).ring k = { d.ring k with held := d.heldBits k } := by
  have hset := d.ring_setRing_same k { d.ring k with held := d.heldBits k }
  unfold Dev.reheld
  refine iteInduction (motive := fun e : Dev => e.ring k = _) (fun hsame => ?_) fun _ =>
    iteInduction (motive := fun e : Dev => e.ring k = _) (fun _ => hset) fun _ => hset
  rw [hsame]

/-- The entry that a fetch puts in the window (R352). -/
def Ring.entryOf (r : Ring) (got : Option (BitVec 512)) : RetEntry :=
  let seq := if got.isSome then descSeq (got.getD 0) else 0
  { slot := r.fetch.toNat, seq, desc := got.getD 0, accept := got.isSome && seq == r.nextseq, par := r.parity }

/-- The fetch slot's entry stands in the window, and the fetch has moved on. -/
def Dev.fetched (d : Dev) (k : BitVec 9) (got : Option (BitVec 512)) : Dev :=
  d.modRing k fun r => Ring.advance { r with window := r.window ++ [(d.ring k).entryOf got] }

section
variable {d : Dev} {k : BitVec 9}

theorem Dev.descriptorFetch_pauses {got : Option (BitVec 512)} (hf : d.canFetch k = true)
    (hn : (d.entry? ⟨k, (d.ring k).fetch⟩).filter (·.par == (d.ring k).parity) = none)
    (h : d.heldBits k ≠ 0 ∨ (d.entry? ⟨k, (d.ring k).fetch⟩).isSome = true) : Dev.descriptorFetch k got d = d.reheld k := by
  unfold Dev.descriptorFetch
  dsimp only
  rw [if_neg (by simp [hf]), hn]
  exact if_pos h

theorem Dev.descriptorFetch_again {e : RetEntry} (hf : d.canFetch k = true) (he : d.entry? ⟨k, (d.ring k).fetch⟩ = some e)
    (hpar : e.par = (d.ring k).parity) (got : Option (BitVec 512)) :
    Dev.descriptorFetch k got d =
      if got = none ∧ e.accept = true ∧ e.phase = .accepted ∧ e.started = false then (d.modRing k Ring.advance).finish ⟨k, (d.ring k).fetch⟩ 0x70 0
      else d.modRing k Ring.advance := by
  unfold Dev.descriptorFetch
  dsimp only
  rw [if_neg (by simp [hf]), he, Option.filter_some_pos (by simp [hpar])]
  cases got with
  | none => simp
  | some w => simp

section
variable (hf : d.canFetch k = true) (hn : d.entry? ⟨k, (d.ring k).fetch⟩ = none) (h0 : d.heldBits k = 0)
include hf hn h0

theorem Dev.descriptorFetch_unread :
    Dev.descriptorFetch k none d = ((d.fetched k none).finish ⟨k, (d.ring k).fetch⟩ 0x70 0).reheld k := by
  unfold Dev.descriptorFetch
  dsimp only
  rw [if_neg (by simp [hf]), hn]
  exact if_neg (by simp [h0])

theorem Dev.descriptorFetch_read (w : BitVec 512) :
    Dev.descriptorFetch k (some w) d = Dev.reheld (if descSeq w < (d.ring k).nextseq then
        (d.fetched k (some w)).finish ⟨k, (d.ring k).fetch⟩ 0x51 0 ((d.ring k).original (descSeq w))
      else if (d.ring k).nextseq < descSeq w then (d.fetched k (some w)).finish ⟨k, (d.ring k).fetch⟩ 0x50 0 0 (d.ring k).nextseq.toNat
      else (d.fetched k (some w)).accept ⟨k, (d.ring k).fetch⟩ w) k := by
  unfold Dev.descriptorFetch
  dsimp only
  rw [if_neg (by simp [hf]), hn]
  exact if_neg (by simp [h0])

end

/-- A fetch's parts, and the parts of the reads that a descriptor names. -/
abbrev fetchParts : List Part := [.out, .events, .link, .rings, .sched]

/-- The pair's numbers after a fetch: NEXTSEQ, and the fetch slot moved on (R352). -/
def Ring.Moved (r r' : Ring) (n : BitVec 64) : Prop :=
  r'.nextseq = n ∧ r'.fetch = r.advance.fetch ∧ r'.parity = r.advance.parity ∧ r'.sqPi = r.sqPi

theorem Ring.Moved.of_position {r r' r'' : Ring} {n : BitVec 64} (h : r.Moved r' n) (hp : r''.position = r'.position) : r.Moved r'' n := by
  obtain ⟨hnext, hfetch, hparity, hpi⟩ := h
  exact ⟨(congrArg Ring.nextseq hp :).trans hnext, (congrArg Ring.fetch hp :).trans hfetch, (congrArg Ring.parity hp :).trans hparity,
    (congrArg Ring.sqPi hp :).trans hpi⟩

theorem Ring.advance_moved (r : Ring) : r.Moved r.advance r.nextseq := by
  unfold Ring.Moved Ring.advance
  split <;> exact ⟨rfl, rfl, rfl, rfl⟩

theorem Ring.advance_push_moved (r : Ring) (w : List RetEntry) : r.Moved (Ring.advance { r with window := w }) r.nextseq := by
  have hslots : Ring.slots { r with window := w } = r.slots := rfl
  unfold Ring.Moved Ring.advance
  rw [hslots]
  split <;> exact ⟨rfl, rfl, rfl, rfl⟩

/-- A fetch has put an open entry in the fetch slot and moved on, and NEXTSEQ stands at a number (R352 steps 1 to 3). -/
structure Dev.FetchedAs (d t : Dev) (x : DescRef) (n : BitVec 64) (e : RetEntry) : Prop where
  keep : Keep fetchParts d t
  windows : t.rings.windowsOk
  entry : t.entry? x = some e
  unfinished : e.phase ≠ .completed
  moved : (d.ring x.ring).Moved (t.ring x.ring) n
  linkUp : t.rings.linkUp = d.rings.linkUp
  cnt : d.rings.linkUp = true → t.rings.cnt = d.rings.cnt

section
variable (hw : d.rings.windowsOk) (hn : d.entry? ⟨k, (d.ring k).fetch⟩ = none)
include hw hn

theorem Dev.fetched_as (got : Option (BitVec 512)) :
    d.FetchedAs (d.fetched k got) ⟨k, (d.ring k).fetch⟩ (d.ring k).nextseq ((d.ring k).entryOf got) := by
  have hfree : ∀ y ∈ (d.ring k).window, y.slot ≠ (d.ring k).fetch.toNat := by simpa [Dev.entry?] using hn
  have hkept : RingKept (d.ring k) (Ring.advance { d.ring k with window := (d.ring k).window ++ [(d.ring k).entryOf got] }) :=
    RingKept.push (Ring.advance_window _) hfree (d.ring k).fetch.isLt
  have hkeep : Keep fetchParts d (d.fetched k got) := Dev.modRing_keep (.refl _ _) (by decide) _ _ hkept
  have hring : (d.fetched k got).ring k = Ring.advance { d.ring k with window := (d.ring k).window ++ [(d.ring k).entryOf got] } :=
    d.ring_setRing_same k _
  refine ⟨hkeep, hkeep.windows hw, ?_, by rintro ⟨⟩, ?_, rfl, fun _ => rfl⟩
  · unfold Dev.entry? at hn ⊢
    rw [hring, Ring.advance_window, List.find?_append, hn, Option.none_or, List.find?_cons_of_pos]
    exact beq_self_eq_true (d.ring k).fetch.toNat
  · rw [hring]
    exact (d.ring k).advance_push_moved _

end

theorem Dev.Refused.reheld {e : Dev} {x : DescRef} {c : Completion} (h : d.Refused e x c) (k : BitVec 9) : d.Refused (e.reheld k) x c := by
  obtain ⟨⟨⟨y, hy, hdone⟩, hw⟩, hposition, hlink, hcounts⟩ := h
  have hstand := e.reheld_ringsStand k
  refine ⟨⟨⟨y, (e.reheld_entry hw k x).trans hy, hdone⟩, (Dev.reheld_keep (.refl [.events, .rings] e) (by decide) (by decide) k).windows hw⟩,
    fun j => (hstand.position j).trans (hposition j), hstand.linkUp.trans hlink, fun n ev hreport => ?_⟩
  obtain ⟨hcnt, o, ho, hev⟩ := hcounts n ev hreport
  exact ⟨fun hup => (hstand.cnt (hlink.trans hup)).trans (hcnt hup), o, Dev.EnRoute.reheld ho, hev⟩

end

-- acceptance (R352 steps 3 and 4)

/-- NEXTSEQ and the order of acceptance have moved on (R352 step 3). -/
def Dev.numbered (d : Dev) (k : BitVec 9) : Dev :=
  let d := d.modRing k fun r => { r with nextseq := r.nextseq + 1 }
  d.putRings { d.rings with order := d.rings.order + 1 }

/-- The entry of a descriptor that has been accepted, the number-th over all rings (R352 step 3, R357). -/
def RetEntry.acceptedAs (e : RetEntry) (w : BitVec 512) (order : Nat) (now : Instant) : RetEntry :=
  { e with order, ready := if argLen w = 0 ∧ descOpcode w ≠ 0x31 then some now else none }

/-- A descriptor has been accepted and, on a paired primary, forwarded; acceptance has not judged it yet (R276, R352 step 3). -/
def Dev.accepted (d : Dev) (x : DescRef) (w : BitVec 512) : Dev :=
  ((d.numbered x.ring).modEntry x fun e => e.acceptedAs w (d.rings.order + 1) d.now).forwardDesc x w

section
variable {d : Dev} {x : DescRef} {w : BitVec 512}

theorem Dev.numbered_ring_same (d : Dev) (k : BitVec 9) : (d.numbered k).ring k = { d.ring k with nextseq := (d.ring k).nextseq + 1 } :=
  Dev.ring_setRing_same ..

theorem Dev.numbered_owner (d : Dev) (k j : BitVec 9) : ((d.numbered k).ring j).owner = (d.ring j).owner := by
  by_cases hj : j = k
  · subst hj
    rw [d.numbered_ring_same]
  · exact congrArg Ring.owner (d.ring_setRing_other _ hj)

theorem Dev.numbered_entry (d : Dev) (x : DescRef) : (d.numbered x.ring).entry? x = d.entry? x := by
  unfold Dev.entry?
  rw [d.numbered_ring_same]

theorem Dev.numbered_windowsOk {k : BitVec 9} (hw : d.rings.windowsOk) : (d.numbered k).rings.windowsOk :=
  Rings.windowsOk_pairs (x := { d.rings with pairs := _ }) rfl (Rings.windowsOk_set hw k _ fun h => h)

theorem Dev.accept_eq (d : Dev) (x : DescRef) (w : BitVec 512) : d.accept x w = (d.accepted x w).judge x (d.ring x.ring).owner w := by
  have howner : (((d.numbered x.ring).modEntry x fun e => e.acceptedAs w (d.rings.order + 1) d.now).ring x.ring).owner = (d.ring x.ring).owner :=
    (congrArg Ring.owner ((Dev.modEntry_ringsStand ..).position x.ring) :).trans (d.numbered_owner ..)
  rw [← howner]
  rfl

/-- Forwarding gives the entry a beat to be applied in, and changes nothing else of the rings (R276). -/
theorem Dev.forwardDesc_rings (d : Dev) (x : DescRef) (w : BitVec 512) :
    (d.forwardDesc x w).rings = d.rings ∨ ∃ b, (d.forwardDesc x w).rings = (d.modEntry x fun e => { e with apply := some b }).rings := by
  unfold Dev.forwardDesc
  split
  · exact .inl rfl
  · dsimp only
    rw [(Dev.sendMessage_sent ..).2]
    split
    · exact .inl rfl
    · exact .inr ⟨_, rfl⟩

theorem Dev.forwardDesc_ringsStand (d : Dev) (x : DescRef) (w : BitVec 512) : d.RingsStand (d.forwardDesc x w) := by
  rcases d.forwardDesc_rings x w with h | ⟨b, h⟩
  · exact .of_rings h
  · exact (d.modEntry_ringsStand x _).trans (.of_rings h)

theorem Dev.forwardDesc_entry {e : RetEntry} (hw : d.rings.windowsOk) (he : d.entry? x = some e) :
    ∃ a, (d.forwardDesc x w).entry? x = some { e with apply := a } := by
  have hsame {t : Dev} (h : (d.forwardDesc x w).rings = t.rings) : (d.forwardDesc x w).entry? x = t.entry? x := by
    unfold Dev.entry? Dev.ring
    rw [h]
  rcases d.forwardDesc_rings x w with h | ⟨b, h⟩
  · exact ⟨_, (hsame h).trans he⟩
  · exact ⟨some b, (hsame h).trans (Dev.modEntry_entry hw he fun _ => rfl)⟩

theorem Dev.accepted_ringsStand (d : Dev) (x : DescRef) (w : BitVec 512) : (d.numbered x.ring).RingsStand (d.accepted x w) :=
  (Dev.modEntry_ringsStand ..).trans (Dev.forwardDesc_ringsStand ..)

theorem Dev.accepted_owner (d : Dev) (x : DescRef) (w : BitVec 512) (k : BitVec 9) : ((d.accepted x w).ring k).owner = (d.ring k).owner :=
  (congrArg Ring.owner ((d.accepted_ringsStand x w).position k) :).trans (d.numbered_owner ..)

theorem Dev.numbered_keep {e : Dev} (h : Keep fetchParts e d) (k : BitVec 9) : Keep fetchParts e (d.numbered k) := by
  unfold Dev.numbered
  exact Dev.putRings_keep (Dev.modRing_keep h (by decide) _ _ fun h => h) (by decide) _ (Rings.windowsOk_pairs rfl)

theorem Dev.accepted_keep {e : Dev} (h : Keep fetchParts e d) (x : DescRef) (w : BitVec 512) : Keep fetchParts e (d.accepted x w) := by
  unfold Dev.accepted
  refine Dev.forwardDesc_keep ?_ (by decide) (by decide) (by decide) (by decide) _ _
  refine Dev.modEntry_keep ?_ (by decide) _ _ ?_
  · exact Dev.numbered_keep h _
  · intro y
    rfl

/-- A fetched descriptor with the expected SEQ is accepted, with NEXTSEQ and the order of acceptance moved on (R352 step 3). -/
theorem Dev.FetchedAs.accept {t : Dev} {n : BitVec 64} {e : RetEntry} (h : d.FetchedAs t x n e) (w : BitVec 512) :
    ∃ a, d.FetchedAs (t.accepted x w) x (n + 1) { e.acceptedAs w (t.rings.order + 1) t.now with apply := a } := by
  have hnumbered : (t.numbered x.ring).rings.windowsOk := Dev.numbered_windowsOk h.windows
  have hslot (y : RetEntry) : (y.acceptedAs w (t.rings.order + 1) t.now).slot = y.slot := rfl
  obtain ⟨a, ha⟩ := Dev.forwardDesc_entry (w := w) (Dev.modEntry_windowsOk hnumbered hslot)
    (Dev.modEntry_entry hnumbered ((t.numbered_entry x).trans h.entry) hslot)
  have hstand := t.accepted_ringsStand x w
  have hmoved : (d.ring x.ring).Moved ((t.numbered x.ring).ring x.ring) (n + 1) := by
    obtain ⟨hnext, hfetch, hparity, hpi⟩ := h.moved
    rw [t.numbered_ring_same]
    exact ⟨congrArg (· + 1) hnext, hfetch, hparity, hpi⟩
  have hkeep : Keep fetchParts t (t.accepted x w) := Dev.accepted_keep (.refl _ t) x w
  exact ⟨a, Dev.accepted_keep h.keep x w, hkeep.windows h.windows, ha, h.unfinished, hmoved.of_position (hstand.position _),
    hstand.linkUp.trans h.linkUp, fun hup => (hstand.cnt (h.linkUp.trans hup)).trans (h.cnt hup)⟩

end

-- what acceptance finds out (R324, R345 to R347)

theorem Dev.slotRefusal_congr {d e : Dev} (h : e.loader = d.loader) (w : BitVec 512) : e.slotRefusal w = d.slotRefusal w := by
  unfold Dev.slotRefusal
  rw [h]

theorem Dev.descBad_congr {d e : Dev} (hfuncs : e.funcs = d.funcs) (hcellar : e.cellar = d.cellar) (hmedia : e.media = d.media)
    (hports : e.rings.vfPorts = d.rings.vfPorts) (howner : ∀ k, (e.ring k).owner = (d.ring k).owner) (view : BitVec 6) (w : BitVec 512) :
    e.descBad view w = d.descBad view w := by
  have hlegs (r : FlowRec) : e.ownsLegs view r = d.ownsLegs view r := by unfold Dev.ownsLegs; rw [hports]
  have hflow (i : Nat) : e.ownsFlow view i = d.ownsFlow view i := by unfold Dev.ownsFlow; simp only [hmedia, hlegs]
  have href (base ref : Nat) : e.ownsRef view base ref = d.ownsRef view base ref := by unfold Dev.ownsRef; simp only [hcellar, hflow]
  have hfunc (f : FuncId) : e.ownsFunc view f = d.ownsFunc view f := by unfold Dev.ownsFunc; rw [hfuncs]
  have hprivilege : e.privilegeBad view w = d.privilegeBad view w := by unfold Dev.privilegeBad; simp only [hfunc, hflow, href, hcellar]
  have hoperand : e.operandBad view w = d.operandBad view w := by unfold Dev.operandBad; simp only [howner]
  unfold Dev.descBad
  rw [hprivilege, hoperand]

/-- A staging slot's refusal other than BAD_DESCRIPTOR names no room, instruction or BP (R324, R350). -/
theorem Dev.slotRefusal_state {d : Dev} {w : BitVec 512} {n : Nak} (h : d.slotRefusal w = some n) (hn : n.status ≠ 5) :
    n.status = 0x11 ∧ n.vroom + n.index * 65536 = 0xFFFFFFFF ∧ n.ikind + n.bp * 256 = 0x7F00 := by
  unfold Dev.slotRefusal at h
  dsimp only at h
  split at h
  · cases h
  split at h
  · cases h; exact absurd rfl hn
  split at h
  · cases h; exact ⟨rfl, rfl, rfl⟩
  split at h
  · cases h; exact ⟨rfl, rfl, rfl⟩
  · cases h

end Sys2Proof.Machine
end

section
/-! Doorbells, DESCRIPTOR_FETCH, HOST_MEMORY_READ and IRQ_COALESCE_TIMER (12_host_interface.md R341 to R356, R360, R366), and from them the statement about
descriptors. -/

namespace Sys2Proof.Machine
open Sys2Proof

section
variable {d : Dev} {k : BitVec 9} {w : BitVec 512}

theorem Ring.advance_owner (r : Ring) : r.advance.owner = r.owner := by
  unfold Ring.advance
  split <;> rfl

theorem Dev.fetched_owner (d : Dev) (k j : BitVec 9) (got : Option (BitVec 512)) : ((d.fetched k got).ring j).owner = (d.ring j).owner := by
  by_cases hj : j = k
  · subst hj
    exact (congrArg Ring.owner (d.ring_setRing_same j _)).trans (Ring.advance_owner _)
  · exact congrArg Ring.owner (d.ring_setRing_other _ hj)

/-- What acceptance finds out after a fetch is what it would have found before it. -/
theorem Dev.FetchedAs.judgement {t : Dev} {x : DescRef} {n : BitVec 64} {e : RetEntry} (h : d.FetchedAs (t.accepted x w) x n e)
    (hports : t.rings.vfPorts = d.rings.vfPorts) (howner : ∀ k, (t.ring k).owner = (d.ring k).owner) (view : BitVec 6) :
    (t.accepted x w).slotRefusal w = d.slotRefusal w ∧ (t.accepted x w).descBad view w = d.descBad view w :=
  ⟨Dev.slotRefusal_congr (h.keep.loader.resolve_left (by decide)) w,
   Dev.descBad_congr (h.keep.funcs.resolve_left (by decide)) (h.keep.cellar.resolve_left (by decide)) (h.keep.media.resolve_left (by decide))
    ((t.accepted_ringsStand x w).vfPorts.trans hports) (fun k => (t.accepted_owner x w k).trans (howner k)) view w⟩

theorem Dev.judge_bad {x : DescRef} {view : BitVec 6} {bad : Nat} (hs : d.slotRefusal w = none) (hb : d.descBad view w = some bad) :
    d.judge x view w = d.finish x 5 bad := by
  unfold Dev.judge
  rw [hs]
  dsimp only
  rw [hb]

theorem Dev.judge_refused {x : DescRef} {view : BitVec 6} {n : Nak} (hs : d.slotRefusal w = some n) (hn : n.status ≠ 5) :
    d.judge x view w = d.finish x n.status n.detail 0xFFFFFFFF 0x7F00 := by
  unfold Dev.judge
  rw [hs]
  dsimp only
  obtain ⟨-, hinfo0, hinfo1⟩ := Dev.slotRefusal_state hs hn
  rw [if_neg hn, Dev.refuse, hinfo0, hinfo1]

theorem Dev.judge_good {x : DescRef} {view : BitVec 6} (hs : d.slotRefusal w = none) (hb : d.descBad view w = none) :
    d.judge x view w = if descOpcode w = 0 then d.commitPoint x else d := by
  unfold Dev.judge
  rw [hs]
  dsimp only
  rw [hb]

theorem Dev.commitPoint_committed {x : DescRef} {e : RetEntry} (hw : d.rings.windowsOk) (he : d.entry? x = some e) (hp : e.phase = .accepted) :
    (d.commitPoint x).entry? x = some { e with phase := .committed, beat := d.time.n } := by
  have hmap (l : List RetEntry) :
      (l.map fun y => if y.slot = x.slot.toNat ∧ y.phase = .accepted then { y with phase := .committed, beat := d.time.n } else y) =
        l.map fun y => if y.slot = x.slot.toNat then if y.phase = .accepted then { y with phase := .committed, beat := d.time.n } else y else y :=
    List.map_congr_left fun y _ => ite_and ..
  have hentry : (d.commitPoint x).entry? x = some (if e.phase = .accepted then { e with phase := .committed, beat := d.time.n } else e) :=
    Dev.entry_setRing (f := fun y => if y.phase = .accepted then { y with phase := .committed, beat := d.time.n } else y) hw he
      ((Ring.reapply_window _).trans (hmap _)) fun y => by split <;> rfl
  exact hentry.trans (congrArg some (if_pos hp))

theorem Dev.commitPoint_ringsStand (d : Dev) (x : DescRef) : d.RingsStand (d.commitPoint x) := Dev.modRing_ringsStand (Ring.reapply_position _)

theorem Dev.descriptorFetch_next (hf : d.canFetch k = true) (hn : d.entry? ⟨k, (d.ring k).fetch⟩ = none) (h0 : d.heldBits k = 0)
    (hseq : descSeq w = (d.ring k).nextseq) :
    Dev.descriptorFetch k (some w) d =
      (((d.fetched k (some w)).accepted ⟨k, (d.ring k).fetch⟩ w).judge ⟨k, (d.ring k).fetch⟩ (d.ring k).owner w).reheld k := by
  rw [Dev.descriptorFetch_read hf hn h0, hseq, if_neg (BitVec.lt_irrefl _), if_neg (BitVec.lt_irrefl _), Dev.accept_eq, Dev.fetched_owner]

end

section
variable {d t : Dev} {x : DescRef} {n : BitVec 64} {e : RetEntry} (h : d.FetchedAs t x n e)
include h

theorem Dev.FetchedAs.finish_keep {st det i0 i1 : Nat} : Keep fetchParts d (t.finish x st det i0 i1) :=
  Dev.finish_keep h.keep (by decide) (by decide) (by decide) (by decide) (by decide) x st det i0 i1 none

theorem Dev.FetchedAs.finish_refused {st : Nat} (hok : st ≠ 0) (hpart : st ≠ 3) (det i0 i1 : Nat) : t.Refused (t.finish x st det i0 i1) x
    { seq := e.seq, status := st, detail := det, opcode := descOpcode e.desc, info0 := i0, info1 := i1, beat := d.time.n } := by
  rw [← h.keep.time.resolve_left (by decide)]
  exact Dev.finish_refused h.windows h.entry h.unfinished hok hpart det i0 i1

/-- What a refusal after a fetch leaves, against the device before the fetch. -/
theorem Dev.FetchedAs.leaves {e' : Dev} {c : Completion} (hrefused : t.Refused e' x c) :
    CompletedWith e' x c ∧ (d.ring x.ring).Moved (e'.ring x.ring) n ∧
    ∀ m ev, (∀ d, Dev.reported d c.status = (d.countRing m).raise ev) → d.Counts e' m ev := by
  refine ⟨hrefused.recorded.1, h.moved.of_position (hrefused.position _), fun m ev hreport => ?_⟩
  obtain ⟨hcnt, hevent⟩ := hrefused.counts m ev hreport
  exact ⟨fun hup => (hcnt (h.linkUp.trans hup)).trans (congrArg (bumpAt · m) (h.cnt hup)), hevent⟩

end

-- DESCRIPTOR_FETCH

theorem descOpcode_zero : descOpcode 0 = 0 := by
  unfold descOpcode dfld fld
  rw [show BitVec.toNat (0 : BitVec 512) = 0 from BitVec.toNat_zero, Nat.zero_shiftRight, Nat.zero_mod]

section
variable {s : State} {k : BitVec 9}

/-- A fetch that pauses leaves the pair as it was, but for HELD (R355). -/
theorem completes_fetch_pauses {got : Option (BitVec 512)} (hf : s.dev.canFetch k = true)
    (hn : (s.dev.entry? ⟨k, (s.dev.ring k).fetch⟩).filter (·.par == (s.dev.ring k).parity) = none)
    (h : s.dev.heldBits k ≠ 0 ∨ (s.dev.entry? ⟨k, (s.dev.ring k).fetch⟩).isSome = true) :
    Completes (.descriptorFetch k got) s [.events, .rings] fun d => d.ring k = { s.dev.ring k with held := s.dev.heldBits k } :=
  completes_of_run rfl (Dev.descriptorFetch_pauses hf hn h) (Dev.reheld_keep (.refl _ _) (by decide) (by decide) k) (s.dev.reheld_ring k)

/-- A fetch whose descriptor ends with a refusal (R352 steps 1 to 4). -/
theorem completes_fetch_refused {got : Option (BitVec 512)} {t : Dev} {n : BitVec 64} {e : RetEntry} {st det i0 i1 : Nat}
    (h : s.dev.FetchedAs t ⟨k, (s.dev.ring k).fetch⟩ n e)
    (hrun : Dev.descriptorFetch k got s.dev = (t.finish ⟨k, (s.dev.ring k).fetch⟩ st det i0 i1).reheld k) (hok : st ≠ 0) (hpart : st ≠ 3) :
    Completes (.descriptorFetch k got) s fetchParts fun d =>
      CompletedWith d ⟨k, (s.dev.ring k).fetch⟩
        { seq := e.seq, status := st, detail := det, opcode := descOpcode e.desc, info0 := i0, info1 := i1, beat := s.dev.time.n } ∧
      (s.dev.ring k).Moved (d.ring k) n ∧
      ∀ c ev, (∀ d, Dev.reported d st = (d.countRing c).raise ev) → s.dev.Counts d c ev :=
  completes_of_run rfl hrun (Dev.reheld_keep h.finish_keep (by decide) (by decide) k) (h.leaves ((h.finish_refused hok hpart det i0 i1).reheld k))

section
variable (hf : s.dev.canFetch k = true) (hw : s.dev.rings.windowsOk) (hn : s.dev.entry? ⟨k, (s.dev.ring k).fetch⟩ = none) (h0 : s.dev.heldBits k = 0)
include hf hw hn h0

theorem completes_fetch_unread : Completes (.descriptorFetch k none) s fetchParts fun d =>
    CompletedWith d ⟨k, (s.dev.ring k).fetch⟩ { status := 0x70, beat := s.dev.time.n } ∧
    (s.dev.ring k).Moved (d.ring k) (s.dev.ring k).nextseq ∧ s.dev.Counts d 3 771 := by
  refine completes_imp (completes_fetch_refused (Dev.fetched_as hw hn none) (Dev.descriptorFetch_unread hf hn h0) (by decide) (by decide))
    fun _ ⟨hrecord, hmoved, hcounts⟩ => ⟨?_, hmoved, hcounts 3 771 fun _ => rfl⟩
  have hopcode : descOpcode ((s.dev.ring k).entryOf none).desc = 0 := descOpcode_zero
  rw [hopcode] at hrecord
  exact hrecord

variable {w : BitVec 512}

theorem completes_fetch_duplicate (hseq : descSeq w < (s.dev.ring k).nextseq) : Completes (.descriptorFetch k (some w)) s fetchParts fun d =>
    CompletedWith d ⟨k, (s.dev.ring k).fetch⟩ { seq := descSeq w, status := 0x51, opcode := descOpcode w, beat := s.dev.time.n,
                                                info0 := (s.dev.ring k).original (descSeq w) } ∧
    (s.dev.ring k).Moved (d.ring k) (s.dev.ring k).nextseq ∧ s.dev.Counts d 0 769 :=
  completes_imp (completes_fetch_refused (Dev.fetched_as hw hn (some w))
      ((Dev.descriptorFetch_read hf hn h0 w).trans (by rw [if_pos hseq])) (by decide) (by decide))
    fun _ ⟨hrecord, hmoved, hcounts⟩ => ⟨hrecord, hmoved, hcounts 0 769 fun _ => rfl⟩

theorem completes_fetch_gap (hseq : (s.dev.ring k).nextseq < descSeq w) : Completes (.descriptorFetch k (some w)) s fetchParts fun d =>
    CompletedWith d ⟨k, (s.dev.ring k).fetch⟩ { seq := descSeq w, status := 0x50, opcode := descOpcode w, beat := s.dev.time.n,
                                                info1 := (s.dev.ring k).nextseq.toNat } ∧
    (s.dev.ring k).Moved (d.ring k) (s.dev.ring k).nextseq ∧ s.dev.Counts d 1 769 :=
  completes_imp (completes_fetch_refused (Dev.fetched_as hw hn (some w))
      ((Dev.descriptorFetch_read hf hn h0 w).trans (by rw [if_neg (BitVec.lt_asymm hseq), if_pos hseq])) (by decide) (by decide))
    fun _ ⟨hrecord, hmoved, hcounts⟩ => ⟨hrecord, hmoved, hcounts 1 769 fun _ => rfl⟩

variable (hseq : descSeq w = (s.dev.ring k).nextseq)
include hseq

theorem completes_fetch_malformed {bad : Nat} (hs : s.dev.slotRefusal w = none) (hb : s.dev.descBad (s.dev.ring k).owner w = some bad) :
    Completes (.descriptorFetch k (some w)) s fetchParts fun d =>
      CompletedWith d ⟨k, (s.dev.ring k).fetch⟩ { seq := descSeq w, status := 5, detail := bad, opcode := descOpcode w, beat := s.dev.time.n } ∧
      (s.dev.ring k).Moved (d.ring k) ((s.dev.ring k).nextseq + 1) ∧ s.dev.Counts d 2 770 := by
  obtain ⟨a, h⟩ := (Dev.fetched_as hw hn (some w)).accept w
  obtain ⟨hslot, hbad⟩ := h.judgement rfl (s.dev.fetched_owner k · (some w)) (s.dev.ring k).owner
  refine completes_imp (completes_fetch_refused h ?_ (by decide) (by decide)) fun _ ⟨hrecord, hmoved, hcounts⟩ =>
    ⟨hrecord, hmoved, hcounts 2 770 fun _ => rfl⟩
  rw [Dev.descriptorFetch_next hf hn h0 hseq, Dev.judge_bad (hslot.trans hs) (hbad.trans hb)]

theorem completes_fetch_slotRefused {n : Nak} (hs : s.dev.slotRefusal w = some n) (hstatus : n.status ≠ 5) :
    Completes (.descriptorFetch k (some w)) s fetchParts fun d =>
      CompletedWith d ⟨k, (s.dev.ring k).fetch⟩ { seq := descSeq w, status := n.status, detail := n.detail, opcode := descOpcode w,
                                                  info0 := 0xFFFFFFFF, info1 := 0x7F00, beat := s.dev.time.n } ∧
      (s.dev.ring k).Moved (d.ring k) ((s.dev.ring k).nextseq + 1) := by
  obtain ⟨a, h⟩ := (Dev.fetched_as hw hn (some w)).accept w
  obtain ⟨hslot, -⟩ := h.judgement rfl (s.dev.fetched_owner k · (some w)) (s.dev.ring k).owner
  obtain ⟨hstate, -⟩ := Dev.slotRefusal_state hs hstatus
  refine completes_imp (completes_fetch_refused h ?_ (by rw [hstate]; decide) (by rw [hstate]; decide)) fun _ ⟨hrecord, hmoved, _⟩ => ⟨hrecord, hmoved⟩
  rw [Dev.descriptorFetch_next hf hn h0 hseq, Dev.judge_refused (hslot.trans hs) hstatus]

theorem completes_fetch_accepted (hs : s.dev.slotRefusal w = none) (hb : s.dev.descBad (s.dev.ring k).owner w = none) :
    Completes (.descriptorFetch k (some w)) s fetchParts fun d =>
      (s.dev.ring k).Moved (d.ring k) ((s.dev.ring k).nextseq + 1) ∧ d.rings.order = s.dev.rings.order + 1 ∧
      ∃ e, d.entry? ⟨k, (s.dev.ring k).fetch⟩ = some e ∧ e.seq = descSeq w ∧ e.desc = w ∧ e.accept = true ∧ e.order = d.rings.order ∧
        e.par = (s.dev.ring k).parity ∧ e.started = false ∧ e.args = none ∧ e.phase = (if descOpcode w = 0 then .committed else .accepted) := by
  obtain ⟨a, h⟩ := (Dev.fetched_as hw hn (some w)).accept w
  obtain ⟨hslot, hbad⟩ := h.judgement rfl (s.dev.fetched_owner k · (some w)) (s.dev.ring k).owner
  have hrun := (Dev.descriptorFetch_next hf hn h0 hseq).trans (congrArg (Dev.reheld · k) (Dev.judge_good (hslot.trans hs) (hbad.trans hb)))
  have horder := ((s.dev.fetched k (some w)).accepted_ringsStand ⟨k, (s.dev.ring k).fetch⟩ w).order
  have hmatch : (true && descSeq w == (s.dev.ring k).nextseq) = true := by simp [hseq]
  generalize (s.dev.fetched k (some w)).accepted ⟨k, (s.dev.ring k).fetch⟩ w = t at h hrun horder
  have hjudged : t.RingsStand (if descOpcode w = 0 then t.commitPoint ⟨k, (s.dev.ring k).fetch⟩ else t) :=
    .ite (fun _ => t.commitPoint_ringsStand _) fun _ => .refl t
  have hcommit : Keep fetchParts s.dev (if descOpcode w = 0 then t.commitPoint ⟨k, (s.dev.ring k).fetch⟩ else t) :=
    .ite (Dev.commitPoint_keep h.keep (by decide) _) h.keep
  have hwindows : (if descOpcode w = 0 then t.commitPoint ⟨k, (s.dev.ring k).fetch⟩ else t).rings.windowsOk :=
    hcommit.windows hw
  have hstand := hjudged.trans (Dev.reheld_ringsStand _ k)
  refine completes_of_run rfl hrun (Dev.reheld_keep hcommit (by decide) (by decide) k)
    ⟨h.moved.of_position (hstand.position k), hstand.order.trans horder, ?_⟩
  rw [Dev.reheld_entry hwindows, hstand.order.trans horder]
  split
  · exact ⟨_, Dev.commitPoint_committed h.windows h.entry rfl, rfl, rfl, hmatch, rfl, rfl, rfl, rfl, rfl⟩
  · exact ⟨_, h.entry, rfl, rfl, hmatch, rfl, rfl, rfl, rfl, rfl⟩

end

end

-- the consumed slots (R343, R354)

theorem add_mod_sub_mod {a j n : Nat} (hj : j < n) : ((a + j) % n + n - a % n) % n = j := by
  have ha : a % n < n := Nat.mod_lt _ (by omega)
  rw [← Nat.mod_add_mod]
  by_cases hwrap : a % n + j < n
  · rw [Nat.mod_eq_of_lt hwrap, show a % n + j + n - a % n = j + n by omega, Nat.add_mod_right, Nat.mod_eq_of_lt hj]
  · have hunder : (a % n + j) % n = a % n + j - n := by rw [Nat.mod_eq_sub_mod (by omega), Nat.mod_eq_of_lt (by omega)]
    rw [hunder, show a % n + j - n + n - a % n = j by omega, Nat.mod_eq_of_lt hj]

/-- Where a predicate marks the first entries, it takes them. -/
theorem takeWhile_eq_take {α : Type} {p : α → Bool} {l : List α} {n : Nat} (h : ∀ i e, l[i]? = some e → (p e = true ↔ i < n)) :
    l.takeWhile p = l.take n := by
  induction l generalizing n with
  | nil => simp
  | cons x t ih =>
    have hx := h 0 x rfl
    cases n with
    | zero => simp [show p x = false by simpa using hx]
    | succ n =>
      have ht : t.takeWhile p = t.take n := ih fun i e he => (h (i + 1) e he).trans (by omega)
      simp [hx.2 (by omega), ht]

section
variable {r : Ring} {a : Nat}

theorem Ring.ahead_eq {e : RetEntry} {slot j : Nat} (hhead : r.window.head? = some e) (he : e.slot = a % r.slots) (hslot : slot % r.slots = (a + j) % r.slots)
    (hj : j < r.slots) : r.ahead slot = j := by
  unfold Ring.ahead
  cases hwindow : r.window with
  | nil => rw [hwindow] at hhead; cases hhead
  | cons y t =>
    rw [hwindow] at hhead
    cases hhead
    dsimp only
    rw [he, hslot, Nat.mod_mod]
    exact add_mod_sub_mod hj

/-- In a window whose slots follow one another, the entries before a slot are those that stand before it (R354). -/
theorem Ring.before_eq {slot n : Nat} (hlen : r.window.length ≤ r.slots) (hslots : ∀ i e, r.window[i]? = some e → e.slot = (a + i) % r.slots)
    (hn : n < r.slots) (hle : n ≤ r.window.length) (hslot : slot % r.slots = (a + n) % r.slots) : r.before slot = r.window.take n := by
  cases hhead : r.window.head? with
  | none =>
    have hempty : r.window = [] := List.head?_eq_none_iff.1 hhead
    simp [Ring.before, hempty]
  | some e =>
    have he : e.slot = a % r.slots := hslots 0 e (List.head?_eq_getElem? ▸ hhead)
    have hahead : r.ahead slot = n := Ring.ahead_eq hhead he hslot hn
    have hentry (i : Nat) (y : RetEntry) (hy : r.window[i]? = some y) : r.ahead y.slot = i := by
      have hi : i < r.window.length := (List.getElem?_eq_some_iff.1 hy).1
      exact Ring.ahead_eq hhead he (by rw [hslots i y hy, Nat.mod_mod]) (by omega)
    have hlast : (r.window.getLast?).any (fun y => decide (r.ahead slot ≤ r.ahead y.slot + 1)) = true := by
      cases hl : r.window.getLast? with
      | none => simp [List.getLast?_eq_none_iff.1 hl] at hhead
      | some y =>
        rw [Option.any_some, decide_eq_true_eq, hahead, hentry _ y (List.getLast?_eq_getElem? ▸ hl)]
        omega
    unfold Ring.before
    rw [if_pos hlast, hahead]
    exact takeWhile_eq_take fun i y hy => by rw [hentry i y hy, decide_eq_true_eq]

end

section
variable {s : State} {k : BitVec 9}

theorem completes_sqPi {q : Requester} (v : Word) (hq : s.dev.pairOk q k = true) : Completes (.sqPi q k v) s [.rings] fun d =>
    d.rings = { s.dev.rings with pairs := Tbl.set {} s.dev.rings.pairs k.toNat { s.dev.ring k with sqPi := v.setWidth 16 } } :=
  completes_of_run (f := fun d => if d.pairOk q k then d.writeSqPi k v else d) rfl (if_pos hq) (Dev.modRing_keep (.refl _ _) (by decide) _ _ fun h => h) rfl

theorem completes_cqCi {q : Requester} {v : Word} {a n : Nat} (hq : s.dev.pairOk q k = true) (hlen : (s.dev.ring k).window.length ≤ (s.dev.ring k).slots)
    (hslots : ∀ i e, (s.dev.ring k).window[i]? = some e → e.slot = (a + i) % (s.dev.ring k).slots) (hn : n < (s.dev.ring k).slots)
    (hle : n ≤ (s.dev.ring k).window.length) (hci : (v.setWidth 16 : BitVec 16).toNat % (s.dev.ring k).slots = (a + n) % (s.dev.ring k).slots)
    (hposted : ∀ e ∈ (s.dev.ring k).window.take n, e.posted = true) : Completes (.cqCi q k v) s [.events, .rings] fun d =>
      d.ring k = { s.dev.ring k with cqCi := v.setWidth 16, window := (s.dev.ring k).window.drop n, held := (d.ring k).held } := by
  have hgone : (((s.dev.ring k).before (v.setWidth 16 : BitVec 16).toNat).takeWhile (·.posted)).length = n := by
    rw [Ring.before_eq hlen hslots hn hle hci, List.takeWhile_eq_self_iff.2 hposted, List.length_take, Nat.min_eq_left hle]
  refine completes_of_run (f := fun d => if d.pairOk q k then d.writeCqCi k v else d) rfl (if_pos hq)
    (Dev.writeCqCi_keep (.refl _ _) (by decide) (by decide) k v) ?_
  unfold Dev.writeCqCi
  dsimp only
  rw [Dev.reheld_ring, Dev.ring_setRing_same, hgone]

-- a slot that was fetched before (R360)

theorem Dev.advance_keep {ps : List Part} (d : Dev) (k : BitVec 9) (hrings : .rings ∈ ps) : Keep ps d (d.modRing k Ring.advance) :=
  Dev.modRing_keep (.refl _ _) hrings k _ (by unfold RingKept; rw [Ring.advance_window]; exact id)

theorem completes_fetch_passes {e : RetEntry} (hf : s.dev.canFetch k = true) (he : s.dev.entry? ⟨k, (s.dev.ring k).fetch⟩ = some e)
    (hpar : e.par = (s.dev.ring k).parity) (w : BitVec 512) : Completes (.descriptorFetch k (some w)) s [.rings] fun d =>
      d.rings = { s.dev.rings with pairs := Tbl.set {} s.dev.rings.pairs k.toNat (s.dev.ring k).advance } :=
  completes_of_run rfl ((Dev.descriptorFetch_again hf he hpar _).trans (if_neg fun h => nomatch h.1)) (s.dev.advance_keep k (by decide))
    (Dev.modRing_rings ..)

theorem Dev.fetched_again {d : Dev} {e : RetEntry} (ho : OpenDesc d ⟨k, (d.ring k).fetch⟩ e) :
    d.FetchedAs (d.modRing k Ring.advance) ⟨k, (d.ring k).fetch⟩ (d.ring k).nextseq e := by
  have hkeep : Keep fetchParts d (d.modRing k Ring.advance) := d.advance_keep k (by decide)
  have hring : (d.modRing k Ring.advance).ring k = (d.ring k).advance := Dev.ring_setRing_same ..
  have hentry := ho.entry
  refine ⟨hkeep, hkeep.windows ho.windows, ?_, ho.unfinished, ?_, rfl, fun _ => rfl⟩
  · unfold Dev.entry? at hentry ⊢
    rwa [hring, Ring.advance_window]
  · rw [hring]
    exact (d.ring k).advance_moved

theorem completes_fetch_unreadAgain {e : RetEntry} (hf : s.dev.canFetch k = true) (ho : OpenDesc s.dev ⟨k, (s.dev.ring k).fetch⟩ e)
    (hpar : e.par = (s.dev.ring k).parity) (ha : e.accept = true) (hp : e.phase = .accepted) (hs : e.started = false) :
    Completes (.descriptorFetch k none) s fetchParts fun d =>
      CompletedWith d ⟨k, (s.dev.ring k).fetch⟩ { seq := e.seq, status := 0x70, opcode := descOpcode e.desc, beat := s.dev.time.n } ∧
      (d.ring k).fetch = (s.dev.ring k).advance.fetch ∧ s.dev.Counts d 3 771 := by
  have h := Dev.fetched_again ho
  have hrun := (Dev.descriptorFetch_again hf ho.entry hpar none).trans (if_pos ⟨rfl, ha, hp, hs⟩)
  generalize s.dev.modRing k Ring.advance = t at h hrun
  obtain ⟨hrecord, ⟨-, hfetch, -⟩, hcounts⟩ := h.leaves (h.finish_refused (st := 0x70) (by decide) (by decide) 0 0 0)
  exact completes_of_run rfl hrun h.finish_keep ⟨hrecord, hfetch, hcounts 3 771 fun _ => rfl⟩

-- HOST_MEMORY_READ

theorem Dev.modEntry_entry_other {d : Dev} {y z : DescRef} (f : RetEntry → RetEntry) (hf : ∀ e, (f e).slot = e.slot)
    (h : z.ring ≠ y.ring ∨ z.slot ≠ y.slot) : (d.modEntry y f).entry? z = d.entry? z := by
  unfold Dev.entry?
  by_cases hring : z.ring = y.ring
  · have hslot : z.slot.toNat ≠ y.slot.toNat := fun hs => h.elim (· hring) (· (BitVec.eq_of_toNat_eq hs))
    rw [hring]
    refine (congrArg (fun r : Ring => r.window.find? fun e => e.slot == z.slot.toNat) (d.ring_setRing_same y.ring _)).trans ?_
    dsimp only
    rw [List.find?_map]
    have hcomp : ((fun e : RetEntry => e.slot == z.slot.toNat) ∘ fun e => if e.slot = y.slot.toNat then f e else e) =
        fun e : RetEntry => e.slot == z.slot.toNat := by
      funext e
      dsimp only [Function.comp]
      split
      · rw [hf]
      · rfl
    rw [hcomp]
    cases hfound : (d.ring y.ring).window.find? (fun e => e.slot == z.slot.toNat) with
    | none => rfl
    | some e =>
      have he : e.slot = z.slot.toNat := by simpa using List.find?_some hfound
      exact congrArg some (if_neg (he ▸ hslot))
  · exact congrArg (fun r : Ring => r.window.find? fun e => e.slot == z.slot.toNat) (d.ring_setRing_other _ hring)

section
variable {y : DescRef} {e : RetEntry} (ho : OpenDesc s.dev y e) (ha : e.accept = true) (hp : e.phase = .accepted) (hargs : e.args = none)
  (hlen : argLen e.desc ≠ 0)
include ho ha hp hargs hlen

theorem Dev.hostMemoryRead_named (data : Option Bytes) : Dev.hostMemoryRead y data s.dev =
    match data with
    | none => s.dev.finish y 0x70 0
    | some bs => if bs.length ≠ argLen e.desc then s.dev
      else s.dev.modEntry y fun e => { e with args := some bs, ready := if descOpcode e.desc = 0x10 then none else some s.dev.now } := by
  unfold Dev.hostMemoryRead
  rw [ho.entry]
  exact if_neg (by simp [ha, hp, hargs, hlen])

theorem completes_hostMemoryRead_fails : Completes (.hostMemoryRead y none) s fetchParts fun d =>
    CompletedWith d y { seq := e.seq, status := 0x70, opcode := descOpcode e.desc, beat := s.dev.time.n } ∧ s.dev.Counts d 3 771 := by
  have hrefused := Dev.finish_refused ho.windows ho.entry ho.unfinished (st := 0x70) (by decide) (by decide) 0 0 0
  exact completes_of_run rfl (Dev.hostMemoryRead_named ho ha hp hargs hlen none)
    (Dev.finish_keep (.refl _ _) (by decide) (by decide) (by decide) (by decide) (by decide) _ _ _ _ _ _)
    ⟨hrefused.recorded.1, hrefused.counts 3 771 fun _ => rfl⟩

theorem completes_hostMemoryRead_reads {bs : Bytes} (hbs : bs.length = argLen e.desc) : Completes (.hostMemoryRead y (some bs)) s [.rings] fun d =>
    d.entry? y = some { e with args := some bs, ready := if descOpcode e.desc = 0x10 then none else some s.dev.now } ∧
    ∀ z, (z.ring ≠ y.ring ∨ z.slot ≠ y.slot) → d.entry? z = s.dev.entry? z := by
  have hrun := (Dev.hostMemoryRead_named ho ha hp hargs hlen (some bs)).trans (if_neg (not_not.2 hbs))
  exact completes_of_run rfl hrun (Dev.modEntry_keep (.refl _ _) (by decide) _ _ fun _ => rfl)
    ⟨Dev.modEntry_entry ho.windows ho.entry fun _ => rfl, fun z hz => Dev.modEntry_entry_other _ (fun _ => rfl) hz⟩

end

-- IRQ_COALESCE_TIMER (R341, R366)

theorem Dev.emit_ring (d : Dev) (o : Output) (k : BitVec 9) : (d.emit o).ring k = d.ring k := rfl
theorem Dev.putSched_now (d : Dev) (x : Sched) : (d.putSched x).now = d.now := rfl
theorem Dev.putSched_sched (d : Dev) (x : Sched) : (d.putSched x).sched = x := rfl
theorem Dev.putSched_ring (d : Dev) (x : Sched) (k : BitVec 9) : (d.putSched x).ring k = d.ring k := rfl

theorem Dev.msix_unmasked {d : Dev} {fn : BitVec 6} {v : BitVec 11} (h : fn.toNat * 2048 + v.toNat ∉ d.sched.msixMasked) :
    d.msix fn v = d.emit (.msix fn v) := by
  unfold Dev.msix
  exact if_neg h

theorem Dev.msix_masked {d : Dev} {fn : BitVec 6} {v : BitVec 11} (h : fn.toNat * 2048 + v.toNat ∈ d.sched.msixMasked) :
    d.msix fn v = d.putSched { d.sched with msixPending := addKey (fn.toNat * 2048 + v.toNat) d.sched.msixPending } := by
  unfold Dev.msix
  exact if_pos h

/-- TIMER's instant has come and no completion waits for the message any more (R366). -/
def Dev.coalesced (d : Dev) (k : BitVec 9) : Dev :=
  (d.reach ((d.ring k).irqSince + (d.ring k).irqTimer.toNat * 1000 * ns)).setRing k { d.ring k with irqPending := 0 }

theorem Dev.coalesced_now (d : Dev) (k : BitVec 9) :
    (d.coalesced k).now = max d.now ((d.ring k).irqSince + (d.ring k).irqTimer.toNat * 1000 * ns) := by
  rw [Dev.coalesced, Dev.setRing_now, Dev.reach_now]

theorem Dev.coalesced_ring (d : Dev) (k : BitVec 9) : (d.coalesced k).ring k = { d.ring k with irqPending := 0 } := Dev.ring_setRing_same ..

theorem Dev.coalesced_out (d : Dev) (k : BitVec 9) : (d.coalesced k).out = d.out := by rw [Dev.coalesced, Dev.setRing_out, Dev.reach_out]

theorem Dev.coalesced_sched (d : Dev) (k : BitVec 9) : (d.coalesced k).sched = d.sched := by rw [Dev.coalesced, Dev.setRing_sched, Dev.reach_sched]

theorem Dev.coalesced_keep {ps : List Part} (d : Dev) (k : BitVec 9) (hnow : .now ∈ ps) (hrings : .rings ∈ ps) : Keep ps d (d.coalesced k) :=
  Dev.setRing_keep (Dev.reach_keep (.refl _ _) hnow _) hrings k _ (by rw [Dev.reach_ring]; exact fun h => h)

theorem Dev.irqCoalesceTimer_expired {d : Dev} (hen : (d.ring k).irqEn = true) (hpending : (d.ring k).irqPending ≠ 0) (htimer : (d.ring k).irqTimer ≠ 0) :
    Dev.irqCoalesceTimer k d = (d.coalesced k).msix (d.ring k).owner (d.ring k).irqVector := by
  unfold Dev.irqCoalesceTimer
  exact if_neg (not_or.2 ⟨by simp [hen], not_or.2 ⟨hpending, htimer⟩⟩)

section
variable (hen : (s.dev.ring k).irqEn = true) (hpending : (s.dev.ring k).irqPending ≠ 0) (htimer : (s.dev.ring k).irqTimer ≠ 0)
include hen hpending htimer

theorem completes_irqCoalesceTimer_sends (hmask : (s.dev.ring k).owner.toNat * 2048 + (s.dev.ring k).irqVector.toNat ∉ s.dev.sched.msixMasked) :
    Completes (.irqCoalesceTimer k) s [.now, .out, .rings] fun d =>
      d.now = max s.dev.now ((s.dev.ring k).irqSince + (s.dev.ring k).irqTimer.toNat * 1000 * ns) ∧
      d.out = .msix (s.dev.ring k).owner (s.dev.ring k).irqVector :: s.dev.out ∧ d.ring k = { s.dev.ring k with irqPending := 0 } := by
  have hsched := s.dev.coalesced_sched k
  exact completes_of_run rfl ((Dev.irqCoalesceTimer_expired hen hpending htimer).trans (Dev.msix_unmasked (hsched ▸ hmask)))
    (Dev.emit_keep (s.dev.coalesced_keep k (by decide) (by decide)) (by decide) _)
    ⟨(Dev.emit_now ..).trans (s.dev.coalesced_now k), (Dev.emit_out ..).trans (congrArg _ (s.dev.coalesced_out k)),
     (Dev.emit_ring ..).trans (s.dev.coalesced_ring k)⟩

theorem completes_irqCoalesceTimer_masked (hmask : (s.dev.ring k).owner.toNat * 2048 + (s.dev.ring k).irqVector.toNat ∈ s.dev.sched.msixMasked) :
    Completes (.irqCoalesceTimer k) s [.now, .rings, .sched] fun d =>
      d.now = max s.dev.now ((s.dev.ring k).irqSince + (s.dev.ring k).irqTimer.toNat * 1000 * ns) ∧
      d.sched = { s.dev.sched with msixPending := addKey ((s.dev.ring k).owner.toNat * 2048 + (s.dev.ring k).irqVector.toNat) s.dev.sched.msixPending } ∧
      d.ring k = { s.dev.ring k with irqPending := 0 } := by
  have hsched := s.dev.coalesced_sched k
  refine completes_of_run rfl ((Dev.irqCoalesceTimer_expired hen hpending htimer).trans (Dev.msix_masked (hsched ▸ hmask)))
    (Dev.putSched_keep (s.dev.coalesced_keep k (by decide) (by decide)) (by decide) _)
    ⟨(Dev.putSched_now ..).trans (s.dev.coalesced_now k), ?_, (Dev.putSched_ring ..).trans (s.dev.coalesced_ring k)⟩
  rw [Dev.putSched_sched, hsched]

end

end

/-- Settles O46: the doorbells, each end of a fetch by what the slot holds, the reads that descriptors name, and TIMER, each by its own lemma; a
fetch or read that ends in a refusal rests on `Dev.finish_refused`. -/
theorem descriptorsAreFetched : Obligations.DescriptorsAreFetched := by
  intro s k r x ps record moved counts
  refine ⟨fun q v hq => completes_sqPi v hq, ?consumed, ?fresh, ?again, ?arguments, ?timer⟩
  case consumed =>
    intro q v a n ci hq hlen hslots hn hle hci hposted
    exact completes_cqCi hq hlen hslots hn hle hci hposted
  case fresh =>
    intro hf hw _ hnone
    refine ⟨fun hheld got => completes_fetch_pauses hf (by rw [hnone]; rfl) (.inl hheld), fun h0 => ⟨?_, ?_, ?_, ?_⟩⟩
    · exact completes_fetch_unread hf hw hnone h0
    · exact fun w hseq => completes_fetch_duplicate hf hw hnone h0 hseq
    · exact fun w hseq => completes_fetch_gap hf hw hnone h0 hseq
    · exact fun w hseq => ⟨fun bad hs hb => completes_fetch_malformed hf hw hnone h0 hseq hs hb,
        fun n hs hn => completes_fetch_slotRefused hf hw hnone h0 hseq hs hn, fun hs hb => completes_fetch_accepted hf hw hnone h0 hseq hs hb⟩
  case again =>
    intro e hf he
    refine ⟨fun hpar got => completes_fetch_pauses hf ?_ (.inr ?_), fun hpar => ⟨fun w => completes_fetch_passes hf he hpar w, ?_⟩⟩
    · rw [he]
      exact Option.filter_some_neg (by simpa using hpar)
    · rw [he]
      rfl
    · exact fun ho ha hp hs => completes_fetch_unreadAgain hf ho hpar ha hp hs
  case arguments =>
    intro y e ho ha hp hargs hlen
    exact ⟨completes_hostMemoryRead_fails ho ha hp hargs hlen, fun bs hbs => completes_hostMemoryRead_reads ho ha hp hargs hlen hbs⟩
  case timer =>
    intro hen hpending htimer i t
    exact ⟨completes_irqCoalesceTimer_sends hen hpending htimer, completes_irqCoalesceTimer_masked hen hpending htimer⟩

end Sys2Proof.Machine
end

section
/-! The frame of every command and what every step keeps (95_what_each_step_holds.md; 15_strongroom.md R427, R431, R437, R438; 12_host_interface.md
R342, R354): each arm of `exec` is the run of one effect, and `Keep` of the effect says which parts it leaves, that the memories and retention
windows stay in form and that no fuse goes back. -/

namespace Sys2Proof.Machine
open Sys2Proof

/-- A part that stands in a command's list. -/
theorem listed {p : Part} {ps : List Part} (h : decide (p ∈ ps) = true) : p ∈ ps := of_decide_eq_true h

/-- What every command is: the run, where the units that it names exist, of an effect that leaves the parts it does not name, the canonical forms
and the fuses. -/
def Framed (c : Instr) (s : State) : Prop := ∃ f, exec c s = run c.wellFormed f s ∧ Keep c.parts s.dev (f s.dev)

theorem Framed.of_run {c : Instr} {s : State} {ok : Bool} {f : Dev → Dev} (hc : exec c s = run ok f s) (hw : c.wellFormed = ok)
    (hk : Keep c.parts s.dev (f s.dev)) : Framed c s := ⟨f, hw ▸ hc, hk⟩

theorem Framed.of_arm {c : Instr} {s : State} {o : Host.Outcome State Fault Refusal} {ok : Bool} {f : Dev → Dev} (hc : exec c s = o)
    (ho : o = run ok f s) (hw : c.wellFormed = ok) (hk : Keep c.parts s.dev (f s.dev)) : Framed c s := .of_run (hc.trans ho) hw hk

/-- The device leaves its life for one that is not BLANK. -/
theorem Dev.lifeTo_keep_changed {d e : Dev} (h : Keep (Instr.parts (.deploy false)) d e) {l : Life} (hl : l ≠ .blank)
    (he : e.strong.life ≠ .decommissioned) : Keep (Instr.parts (.deploy false)) d (e.lifeTo l) := by
  apply Dev.lifeTo_keep h
  case h1 => exact hl
  case h2 => exact he
  all_goals exact listed rfl

theorem Framed.of_runCmd {c : Instr} {s : State} {code : Nat} {ok : SigOk} {f : Dev → Bytes → Dev} (hc : exec c s = run true (Dev.runCmd code ok f) s)
    (hw : c.wellFormed = true) (hfree : .free ∈ c.parts) (hevents : .events ∈ c.parts) (hstrong : .strong ∈ c.parts)
    (hf : s.dev.strong.life ≠ .decommissioned → (code = 1 → s.dev.strong.life = .blank) → ∀ body,
      s.dev.cmdRuleBad code (leAt s.dev.strong.cmdRun 6 1) body = false → Keep c.parts s.dev (f s.dev body)) : Framed c s :=
  .of_run hc hw (Dev.runCmd_keep (.refl _ _) hfree hevents hstrong fun hlife hrule =>
    hf (cmdFrom_life hlife).1 (cmdFrom_life hlife).2 _ hrule)

theorem framed_provision (ok : SigOk) (s : State) : Framed (.provision ok) s :=
  .of_runCmd rfl rfl (listed rfl) (listed rfl) (listed rfl) fun hlife hblank _ _ => Dev.lifeTo_keep_changed (Dev.modStrong_keep (.refl _ _) (listed rfl) _ (.provision (hblank rfl))) nofun hlife

theorem framed_deploy (ok : SigOk) (s : State) : Framed (.deploy ok) s :=
  .of_runCmd rfl rfl (listed rfl) (listed rfl) (listed rfl) fun hlife _ _ _ => Dev.lifeTo_keep_changed (.refl _ _) nofun hlife

theorem framed_return (ok : SigOk) (s : State) : Framed (.return_ ok) s :=
  .of_runCmd rfl rfl (listed rfl) (listed rfl) (listed rfl) fun hlife _ _ hrule =>
    Dev.lifeTo_keep_changed (Dev.modStrong_keep (.refl _ _) (listed rfl) _ (.ageing (Dev.returnRule hrule))) nofun hlife

theorem framed_decommission (ok : SigOk) (s : State) : Framed (.decommission ok) s :=
  .of_runCmd rfl rfl (listed rfl) (listed rfl) (listed rfl) fun hlife _ _ _ => Dev.lifeTo_keep_changed (.refl _ _) nofun hlife

theorem framed_keyRevoke (ok : SigOk) (s : State) : Framed (.keyRevoke ok) s :=
  .of_runCmd rfl rfl (listed rfl) (listed rfl) (listed rfl) fun _ _ _ _ => Dev.cmdDone_keep (Dev.modStrong_keep (.refl _ _) (listed rfl) _ (.revoke _ _)) (listed rfl) (listed rfl) (listed rfl) _

/-- The anti-rollback count that ARB_ADVANCE names rises. -/
theorem StrongKept.arbAdvance {d : Dev} {k : Nat} {body : Bytes} (h : d.cmdRuleBad 6 k body = false) :
    StrongKept d.strong (if leAt body 0 1 = 0 then { d.strong with arbFw := BitVec.ofNat 8 (leAt body 1 1) }
      else { d.strong with arbOwner := BitVec.ofNat 8 (leAt body 1 1) }) := by
  obtain ⟨hmost, hfw, howner⟩ := Dev.arbRule h
  split
  case isTrue hsel => exact .arbFw (hfw hsel) hmost
  case isFalse hsel => exact .arbOwner (howner hsel) hmost

theorem framed_arbAdvance (ok : SigOk) (s : State) : Framed (.arbAdvance ok) s :=
  .of_runCmd rfl rfl (listed rfl) (listed rfl) (listed rfl) fun _ _ _ hrule => Dev.cmdDone_keep (Dev.modStrong_keep (.refl _ _) (listed rfl) _ (.arbAdvance hrule)) (listed rfl) (listed rfl) (listed rfl) _

theorem framed_debugUnlock (ok : SigOk) (s : State) : Framed (.debugUnlock ok) s :=
  .of_runCmd rfl rfl (listed rfl) (listed rfl) (listed rfl) fun _ _ _ _ =>
    Dev.cmdDone_keep (Dev.raise_keep (Dev.modStrong_keep (.refl _ _) (listed rfl) _ (.same rfl rfl rfl rfl rfl rfl rfl rfl rfl)) (listed rfl) _ _) (listed rfl) (listed rfl) (listed rfl) _

/-- One case for each command: `Keep` of its effect. -/
theorem exec_framed (c : Instr) (s : State) : Framed c s := by
  cases c with
  | beatBoundary => exact .of_arm (o := execBeatBoundary s) rfl rfl rfl (by apply Dev.beatBoundary_keep (.refl _ _) <;> exact listed rfl)
  | beatStart => exact .of_arm (o := execBeatStart s) rfl rfl rfl (by apply Dev.beatStart_keep (.refl _ _) <;> exact listed rfl)
  | eval r b u => exact .of_arm (o := execEval r b u s) rfl rfl rfl (by apply Dev.issue_keep (.refl _ _) <;> exact listed rfl)
  | send r b u => exact .of_arm (o := execSend r b u s) rfl rfl rfl (by apply Dev.issue_keep (.refl _ _) <;> exact listed rfl)
  | mrd r b u => exact .of_arm (o := execMrd r b u s) rfl rfl rfl (by apply Dev.issue_keep (.refl _ _) <;> exact listed rfl)
  | mwr r b u => exact .of_arm (o := execMwr r b u s) rfl rfl rfl (by apply Dev.issue_keep (.refl _ _) <;> exact listed rfl)
  | sli r b u => exact .of_arm (o := execSli r b u s) rfl rfl rfl (by apply Dev.issue_keep (.refl _ _) <;> exact listed rfl)
  | slr r b u => exact .of_arm (o := execSlr r b u s) rfl rfl rfl (by apply Dev.issue_keep (.refl _ _) <;> exact listed rfl)
  | lvb r b u => exact .of_arm (o := execLvb r b u s) rfl rfl rfl (by apply Dev.issue_keep (.refl _ _) <;> exact listed rfl)
  | nopInstruction r b u => exact .of_arm (o := execNopInstruction r b u s) rfl rfl rfl (by apply Dev.issue_keep (.refl _ _) <;> exact listed rfl)
  | levelWaitEnd r => exact .of_arm (o := execLevelWaitEnd r s) rfl rfl rfl (by apply Dev.levelWaitEnd_keep (.refl _ _) <;> exact listed rfl)
  | sliceResultReady r sl => exact .of_arm (o := execSliceResultReady r sl s) rfl rfl rfl (Dev.modRoom_keep (.refl _ _) (listed rfl) _ _)
  | readStreamIssue st => exact .of_arm (o := execReadStreamIssue st s) rfl rfl rfl (by apply Dev.readStreamIssue_keep (.refl _ _) <;> exact listed rfl)
  | streamWords st => exact .of_arm (o := execStreamWords st s) rfl rfl rfl (by apply Dev.streamWords_keep (.refl _ _) <;> exact listed rfl)
  | xchPacket src dst step => exact .of_arm (o := execXchPacket src dst step s) rfl rfl rfl (by apply Dev.xchPacket_keep (.refl _ _) <;> exact listed rfl)
  | vote r => exact .of_arm (o := execVote r s) rfl rfl rfl (by apply Dev.vote_keep (.refl _ _) <;> exact listed rfl)
  | verdict st => exact .of_arm (o := execVerdict st s) rfl rfl rfl (by apply Dev.verdict_keep (.refl _ _) <;> exact listed rfl)
  | voteDeadline f => exact .of_arm (o := execVoteDeadline f s) rfl rfl rfl (by apply Dev.tryDecide_keep (.refl _ _) <;> exact listed rfl)
  | decision dest => exact .of_arm (o := execDecision dest s) rfl rfl rfl (by apply Dev.decision_keep (.refl _ _) <;> exact listed rfl)
  | lateStall r => exact .of_arm (o := execLateStall r s) rfl rfl rfl (by apply Dev.lateStall_keep (.refl _ _) <;> exact listed rfl)
  | remoteDecision dev f beat commit => exact .of_arm (o := execRemoteDecision dev f beat commit s) rfl rfl rfl (by apply Dev.remoteDecision_keep (.refl _ _) <;> exact listed rfl)
  | drainRelease f d => exact .of_arm (o := execDrainRelease f d s) rfl rfl rfl (by apply Dev.drainRelease_keep (.refl _ _) <;> exact listed rfl)
  | flitCrcError l => exact .of_arm (o := execFlitCrcError l s) rfl rfl rfl (by apply Dev.flitCrcError_keep (.refl _ _) <;> exact listed rfl)
  | linkDown l => exact .of_arm (o := execLinkDown l s) rfl rfl rfl (by apply Dev.linkDown_keep (.refl _ _) <;> exact listed rfl)
  | linkRetrainDone l => exact .of_arm (o := execLinkRetrainDone l s) rfl rfl rfl (by apply Dev.linkRetrainDone_keep (.refl _ _); exact listed rfl)
  | linkRetrainRetry l => exact .of_arm (o := execLinkRetrainRetry l s) rfl rfl rfl (by apply Dev.linkRetrainRetry_keep (.refl _ _); exact listed rfl)
  | ringHoldEnd k => exact .of_arm (o := execRingHoldEnd k s) rfl rfl rfl (by apply Dev.ringHoldEnd_keep (.refl _ _); exact listed rfl)
  | cellarRead k q addr ecc => exact .of_arm (o := execCellarRead k q addr ecc s) rfl rfl rfl (by apply Dev.cellarRead_keep (.refl _ _) <;> exact listed rfl)
  | rowRepairDone pc => exact .of_arm (o := execRowRepairDone pc s) rfl rfl rfl (by apply Dev.rowRepairDone_keep (.refl _ _) <;> exact listed rfl)
  | cellarWrite k q addr mask data ecc => exact .of_arm (o := execCellarWrite k q addr mask data ecc s) rfl rfl rfl (by apply Dev.cellarWrite_keep (.refl _ _) <;> exact listed rfl)
  | writeBack ecc => exact .of_arm (o := execWriteBack ecc s) rfl rfl rfl (by apply Dev.writeBack_keep (.refl _ _) <;> exact listed rfl)
  | sweepLine e ecc => exact .of_arm (o := execSweepLine e ecc s) rfl rfl rfl (by apply Dev.sweepLine_keep (.refl _ _) <;> exact listed rfl)
  | metadataClearDone => exact .of_arm (o := execMetadataClearDone s) rfl rfl rfl (by apply Dev.metadataClearDone_keep (.refl _ _) <;> exact listed rfl)
  | patrolRead addr ecc => exact .of_arm (o := execPatrolRead addr ecc s) rfl rfl rfl (by apply Dev.patrolRead_keep (.refl _ _) <;> exact listed rfl)
  | stackTempRead t => exact .of_arm (o := execStackTempRead t s) rfl rfl rfl (by apply Dev.stackTempRead_keep (.refl _ _) <;> exact listed rfl)
  | keyRetireRefsZero k => exact .of_arm (o := execKeyRetireRefsZero k s) rfl rfl rfl (by apply Dev.keyRetireRefsZero_keep (.refl _ _) <;> exact listed rfl)
  | keyRetireTimeout k => exact .of_arm (o := execKeyRetireTimeout k s) rfl rfl rfl (by apply Dev.keyRetireTimeout_keep (.refl _ _) <;> exact listed rfl)
  | rgnEnable q n v => exact .of_arm (o := execRgnEnable q n v s) rfl rfl rfl (by apply Dev.rgnEnable_keep (.refl _ _) <;> exact listed rfl)
  | qWslotChange rq q v => exact .of_arm (o := execQWslotChange rq q v s) rfl rfl rfl (by apply Dev.qWslotChange_keep (.refl _ _); exact listed rfl)
  | fsOpen q f v => exact .of_arm (o := execFsOpen q f v s) rfl rfl rfl (by apply Dev.fsOpen_keep (.refl _ _); exact listed rfl)
  | ethFrame port sub fr => exact .of_arm (o := execEthFrame port sub fr s) rfl rfl rfl (by apply Dev.ethFrame_keep (.refl _ _) <;> exact listed rfl)
  | seqLossTimeout flow => exact .of_arm (o := execSeqLossTimeout flow s) rfl rfl rfl (by apply Dev.seqLossTimeout_keep (.refl _ _) <;> exact listed rfl)
  | legDown flow legB => exact .of_arm (o := execLegDown flow legB s) rfl rfl rfl (by apply Dev.legDown_keep (.refl _ _) <;> exact listed rfl)
  | packetRelease flow skew => exact .of_arm (o := execPacketRelease flow skew s) rfl rfl rfl (by apply Dev.packetRelease_keep (.refl _ _) <;> exact listed rfl)
  | sdiLine e l => exact .of_arm (o := execSdiLine e l s) rfl rfl rfl (by apply Dev.sdiLine_keep (.refl _ _) <;> exact listed rfl)
  | sdiLockChange e locked l => exact .of_arm (o := execSdiLockChange e locked l s) rfl rfl rfl (Dev.lanesStart_keep (Dev.sdiLockChange_keep (.refl _ _) (listed rfl) (listed rfl) _ _ _) (listed rfl) (listed rfl) (listed rfl) _)
  | feedGroup ref g => exact .of_arm (o := execFeedGroup ref g s) rfl rfl rfl (by apply Dev.feedGroup_keep (.refl _ _) <;> exact listed rfl)
  | feedDeadline ref expected => exact .of_arm (o := execFeedDeadline ref expected s) rfl rfl rfl (by apply Dev.feedDeadline_keep (.refl _ _) <;> exact listed rfl)
  | egressGroup e => exact .of_arm (o := execEgressGroup e s) rfl rfl rfl (by apply Dev.egressGroup_keep (.refl _ _) <;> exact listed rfl)
  | forceApply e => exact .of_arm (o := execForceApply e s) rfl rfl rfl (Dev.modEgr_keep (.refl _ _) (listed rfl) _ _)
  | servoMeasurement offset => exact .of_arm (o := execServoMeasurement offset s) rfl rfl rfl (by apply Dev.servoMeasurement_keep (.refl _ _) <;> exact listed rfl)
  | timeSetAbsolute d => exact .of_arm (o := execTimeSetAbsolute d s) rfl rfl rfl (by apply Dev.timeSet_keep (.refl _ _) <;> exact listed rfl)
  | timeSetStep d => exact .of_arm (o := execTimeSetStep d s) rfl rfl rfl (by apply Dev.timeSet_keep (.refl _ _) <;> exact listed rfl)
  | timeSetAccept d => exact .of_arm (o := execTimeSetAccept d s) rfl rfl rfl (by apply Dev.timeSet_keep (.refl _ _) <;> exact listed rfl)
  | incrWrite q v => exact .of_arm (o := execIncrWrite q v s) rfl rfl rfl (.ite (by apply Dev.writeIncr_keep (.refl _ _) <;> exact listed rfl) (.refl _ _))
  | periodWrite q v => exact .of_arm (o := execPeriodWrite q v s) rfl rfl rfl (.ite (by apply Dev.writePeriod_keep (.refl _ _); exact listed rfl) (.refl _ _))
  | freestart q => exact .of_arm (o := execFreestart q s) rfl rfl rfl (.ite (by apply Dev.freestart_keep (.refl _ _) <;> exact listed rfl) (.refl _ _))
  | refLoss => exact .of_arm (o := execRefLoss s) rfl rfl rfl (by apply Dev.refLoss_keep (.refl _ _) <;> exact listed rfl)
  | refHoldoverEnd => exact .of_arm (o := execRefHoldoverEnd s) rfl rfl rfl (.ite (Dev.raise_keep (Dev.modTime_keep (.refl _ _) (listed rfl) _) (listed rfl) _ _) (.refl _ _))
  | tdcEdge k falling => exact .of_arm (o := execTdcEdge k falling s) rfl rfl rfl (by apply Dev.tdcEdge_keep (.refl _ _) <;> exact listed rfl)
  | tdcPop q k => exact .of_arm (o := execTdcPop q k s) rfl rfl rfl (.ite (by apply Dev.popTdc_keep (.refl _ _); exact listed rfl) (.refl _ _))
  | ppsOutEdge => exact .of_arm (o := execPpsOutEdge s) rfl rfl rfl (by apply Dev.ppsOutEdge_keep (.refl _ _) <;> exact listed rfl)
  | ppsLoss => exact .of_arm (o := execPpsLoss s) rfl rfl rfl (by apply Dev.ppsLoss_keep (.refl _ _) <;> exact listed rfl)
  | stoppedMarker => exact .of_arm (o := execStoppedMarker s) rfl rfl rfl (.ite (.refl _ _) (by apply Dev.sendMarkers_keep (.refl _ _) <;> exact listed rfl))
  | beatMarkerRx bd m => exact .of_arm (o := execBeatMarkerRx bd m s) rfl rfl rfl (by apply Dev.beatMarkerRx_keep (.refl _ _) <;> exact listed rfl)
  | upstreamLoss => exact .of_arm (o := execUpstreamLoss s) rfl rfl rfl (by apply Dev.upstreamLoss_keep (.refl _ _) <;> exact listed rfl)
  | cdrLock l => exact .of_arm (o := execCdrLock l s) rfl rfl rfl (by apply Dev.cdrLock_keep (.refl _ _) <;> exact listed rfl)
  | alignDone l => exact .of_arm (o := execAlignDone l s) rfl rfl rfl (by apply Dev.alignDone_keep (.refl _ _) <;> exact listed rfl)
  | laneLoss l => exact .of_arm (o := execLaneLoss l s) rfl rfl rfl (by apply Dev.laneLoss_keep (.refl _ _) <;> exact listed rfl)
  | adaptDone l => exact .of_arm (o := execAdaptDone l s) rfl rfl rfl (Dev.modLane_keep (.refl _ _) (listed rfl) _ _)
  | eyeStart q l v => exact .of_arm (o := execEyeStart q l v s) rfl rfl rfl (.ite (by apply Dev.writeEye_keep (.refl _ _); exact listed rfl) (.refl _ _))
  | eyeScanDone l grid => exact .of_arm (o := execEyeScanDone l grid s) rfl rfl rfl (by apply Dev.eyeScanDone_keep (.refl _ _) <;> exact listed rfl)
  | prbsLock l => exact .of_arm (o := execPrbsLock l s) rfl rfl rfl (by apply Dev.prbsLock_keep (.refl _ _); exact listed rfl)
  | linkFrame bd fr => exact .of_arm (o := execLinkFrame bd fr s) rfl rfl rfl (by apply Dev.linkFrame_keep (.refl _ _) <;> exact listed rfl)
  | retryTimeout bd => exact .of_arm (o := execRetryTimeout bd s) rfl rfl rfl (by apply Dev.retryTimeout_keep (.refl _ _) <;> exact listed rfl)
  | nullFrame bd => exact .of_arm (o := execNullFrame bd s) rfl rfl rfl (by apply Dev.nullFrame_keep (.refl _ _); exact listed rfl)
  | laneAdvertise bd => exact .of_arm (o := execLaneAdvertise bd s) rfl rfl rfl (.ite (.refl _ _) (Dev.sendControl_keep (Dev.modBd_keep (.refl _ _) (listed rfl) _ _) (listed rfl) (listed rfl) _))
  | laneDegrade bd lane => exact .of_arm (o := execLaneDegrade bd lane s) rfl rfl rfl (.ite (Dev.degrade_keep (.refl _ _) (listed rfl) (listed rfl) _ _) (.refl _ _))
  | bundleDown bd => exact .of_arm (o := execBundleDown bd s) rfl rfl rfl (by apply Dev.bundleDown_keep (.refl _ _) <;> exact listed rfl)
  | remoteQuery from_ target words => exact .of_arm (o := execRemoteQuery from_ target words s) rfl rfl rfl (by apply Dev.remoteQuery_keep (.refl _ _) <;> exact listed rfl)
  | applied ring seq status => exact .of_arm (o := execApplied ring seq status s) rfl rfl rfl (by apply Dev.applied_keep (.refl _ _) <;> exact listed rfl)
  | decisionDigest crc => exact .of_arm (o := execDecisionDigest crc s) rfl rfl rfl (by apply Dev.decisionDigest_keep (.refl _ _) <;> exact listed rfl)
  | mirrorSplit => exact .of_arm (o := execMirrorSplit s) rfl rfl rfl (by apply Dev.mirrorSplit_keep (.refl _ _) <;> exact listed rfl)
  | hpTxWord p idx w => exact .of_arm (o := execHpTxWord p idx w s) rfl rfl rfl (by apply Dev.hpTxWord_keep (.refl _ _) <;> exact listed rfl)
  | hpClose p => exact .of_arm (o := execHpClose p s) rfl rfl rfl (by apply Dev.hpClose_keep (.refl _ _) <;> exact listed rfl)
  | hpRxPresent p => exact .of_arm (o := execHpRxPresent p s) rfl rfl rfl (by apply Dev.hpRxPresent_keep (.refl _ _) <;> exact listed rfl)
  | uevEdge u rising => exact .of_arm (o := execUevEdge u rising s) rfl rfl rfl (by apply Dev.uevEdge_keep (.refl _ _) <;> exact listed rfl)
  | pllLockChange k lock => exact .of_arm (o := execPllLockChange k lock s) rfl rfl rfl (by apply Dev.pllLockChange_keep (.refl _ _) <;> exact listed rfl)
  | fabricRelease q => exact .of_arm (o := execFabricRelease q s) rfl rfl rfl (.ite (by apply Dev.writeRelease_keep (.refl _ _); exact listed rfl) (.refl _ _))
  | releaseStage => exact .of_arm (o := execReleaseStage s) rfl rfl rfl (by apply Dev.releaseStage_keep (.refl _ _) <;> exact listed rfl)
  | vccioMatch k cls => exact .of_arm (o := execVccioMatch k cls s) rfl rfl rfl (by apply Dev.vccioMatch_keep (.refl _ _); exact listed rfl)
  | iodlyStep k => exact .of_arm (o := execIodlyStep k s) rfl rfl rfl (by apply Dev.iodlyStep_keep (.refl _ _); exact listed rfl)
  | fabricBlockWritten => exact .of_arm (o := execFabricBlockWritten s) rfl rfl rfl (by apply Dev.fabricBlockWritten_keep (.refl _ _); exact listed rfl)
  | roomWritten r => exact .of_arm (o := execRoomWritten r s) rfl rfl rfl (by apply Dev.roomWritten_keep (.refl _ _) <;> exact listed rfl)
  | retireClearDone f => exact .of_arm (o := execRetireClearDone f s) rfl rfl rfl (by apply Dev.retireClearDone_keep (.refl _ _) <;> exact listed rfl)
  | seedLog r => exact .of_arm (o := execSeedLog r s) rfl rfl rfl (by apply Dev.seedLog_keep (.refl _ _) <;> exact listed rfl)
  | endMark r => exact .of_arm (o := execEndMark r s) rfl rfl rfl (by apply Dev.endMark_keep (.refl _ _) <;> exact listed rfl)
  | essentialScrub u x => exact .of_arm (o := execEssentialScrub u x s) rfl rfl rfl (by apply Dev.essentialScrub_keep (.refl _ _) <;> exact listed rfl)
  | backgroundReadback u x => exact .of_arm (o := execBackgroundReadback u x s) rfl rfl rfl (by apply Dev.backgroundReadback_keep (.refl _ _) <;> exact listed rfl)
  | scrubRewrite r b k goldenOk => exact .of_arm (o := execScrubRewrite r b k goldenOk s) rfl rfl rfl (by apply Dev.scrubRewrite_keep (.refl _ _) <;> exact listed rfl)
  | firmwareReady => exact .of_arm (o := execFirmwareReady s) rfl rfl rfl (by apply Dev.firmwareReady_keep (.refl _ _); exact listed rfl)
  | fwStartTimeout => exact .of_arm (o := execFwStartTimeout s) rfl rfl rfl (by apply Dev.fwStartTimeout_keep (.refl _ _) <;> exact listed rfl)
  | sqPi q ring v => exact .of_arm (o := execSqPi q ring v s) rfl rfl rfl (.ite (by apply Dev.writeSqPi_keep (.refl _ _); exact listed rfl) (.refl _ _))
  | cqCi q ring v => exact .of_arm (o := execCqCi q ring v s) rfl rfl rfl (.ite (by apply Dev.writeCqCi_keep (.refl _ _) <;> exact listed rfl) (.refl _ _))
  | descriptorFetch ring slot => exact .of_arm (o := execDescriptorFetch ring slot s) rfl rfl rfl (by apply Dev.descriptorFetch_keep (.refl _ _) <;> exact listed rfl)
  | hostMemoryRead d data => exact .of_arm (o := execHostMemoryRead d data s) rfl rfl rfl (by apply Dev.hostMemoryRead_keep (.refl _ _) <;> exact listed rfl)
  | irqCoalesceTimer ring => exact .of_arm (o := execIrqCoalesceTimer ring s) rfl rfl rfl (by apply Dev.irqCoalesceTimer_keep (.refl _ _) <;> exact listed rfl)
  | nop d => exact .of_arm (o := execNop d s) rfl rfl rfl (by apply Dev.nop_keep (.refl _ _) <;> exact listed rfl)
  | fence d => exact .of_arm (o := execFence d s) rfl rfl rfl (by apply Dev.fence_keep (.refl _ _) <;> exact listed rfl)
  | funcAdmit d => exact .of_arm (o := execFuncAdmit d s) rfl rfl rfl (by apply Dev.funcAdmit_keep (.refl _ _) <;> exact listed rfl)
  | funcRetire d => exact .of_arm (o := execFuncRetire d s) rfl rfl rfl (by apply Dev.funcRetire_keep (.refl _ _) <;> exact listed rfl)
  | funcMigrate d => exact .of_arm (o := execFuncMigrate d s) rfl rfl rfl (by apply Dev.funcMigrate_keep (.refl _ _) <;> exact listed rfl)
  | paramAt d => exact .of_arm (o := execParamAt d s) rfl rfl rfl (by apply Dev.paramAt_keep (.refl _ _) <;> exact listed rfl)
  | flowOpen d => exact .of_arm (o := execFlowOpen d s) rfl rfl rfl (by apply Dev.flowOpen_keep (.refl _ _) <;> exact listed rfl)
  | flowClose d => exact .of_arm (o := execFlowClose d s) rfl rfl rfl (by apply Dev.flowClose_keep (.refl _ _) <;> exact listed rfl)
  | routeAt d => exact .of_arm (o := execRouteAt d s) rfl rfl rfl (by apply Dev.routeAt_keep (.refl _ _) <;> exact listed rfl)
  | imageStage d => exact .of_arm (o := execImageStage d s) rfl rfl rfl (by apply Dev.imageStage_keep (.refl _ _) <;> exact listed rfl)
  | imageApply d => exact .of_arm (o := execImageApply d s) rfl rfl rfl (by apply Dev.imageApply_keep (.refl _ _) <;> exact listed rfl)
  | cellarCopy x => exact .of_arm (o := execCellarCopy x s) rfl rfl rfl (by apply Dev.cellarCopy_keep (.refl _ _) <;> exact listed rfl)
  | keyLoad d => exact .of_arm (o := execKeyLoad d s) rfl rfl rfl (by apply Dev.keyLoad_keep (.refl _ _) <;> exact listed rfl)
  | keyRetire d => exact .of_arm (o := execKeyRetire d s) rfl rfl rfl (by apply Dev.keyRetire_keep (.refl _ _) <;> exact listed rfl)
  | sweep d => exact .of_arm (o := execSweep d s) rfl rfl rfl (by apply Dev.sweep_keep (.refl _ _) <;> exact listed rfl)
  | acqArm d => exact .of_arm (o := execAcqArm d s) rfl rfl rfl (by apply Dev.acqArm_keep (.refl _ _) <;> exact listed rfl)
  | beatSlip d => exact .of_arm (o := execBeatSlip d s) rfl rfl rfl (by apply Dev.beatSlip_keep (.refl _ _) <;> exact listed rfl)
  | mirrorForm d partnerAgrees => exact .of_arm (o := execMirrorForm d partnerAgrees s) rfl rfl rfl (by apply Dev.mirrorForm_keep (.refl _ _) <;> exact listed rfl)
  | mirrorDissolve d => exact .of_arm (o := execMirrorDissolve d s) rfl rfl rfl (by apply Dev.mirrorDissolve_keep (.refl _ _); exact listed rfl)
  | abort d => exact .of_arm (o := execAbort d s) rfl rfl rfl (by apply Dev.abort_keep (.refl _ _) <;> exact listed rfl)
  | pairEnable q ring v => exact .of_arm (o := execPairEnable q ring v s) rfl rfl rfl (by apply Dev.writePairCfg_keep (.refl _ _) <;> exact listed rfl)
  | attach q ring => exact .of_arm (o := execAttach q ring s) rfl rfl rfl (by apply Dev.attach_keep (.refl _ _) <;> exact listed rfl)
  | flr view => exact .of_arm (o := execFlr view s) rfl rfl rfl (by apply Dev.flr_keep (.refl _ _); exact listed rfl)
  | perstN high => exact .of_arm (o := execPerstN high s) rfl rfl rfl (by apply Dev.perstN_keep (.refl _ _) <;> exact listed rfl)
  | coreRun q c v => exact .of_arm (o := execCoreRun q c v s) rfl rfl rfl (.ite (by apply Dev.writeCoreCfg_keep (.refl _ _) <;> exact listed rfl) (.refl _ _))
  | coreHold q c v => exact .of_arm (o := execCoreHold q c v s) rfl rfl rfl (.ite (by apply Dev.writeCoreCfg_keep (.refl _ _) <;> exact listed rfl) (.refl _ _))
  | coreLoadData q c write => exact .of_arm (o := execCoreLoadData q c write s) rfl rfl rfl (by apply Dev.coreLoadData_keep (.refl _ _) <;> exact listed rfl)
  | coreInstruction c x cycles => exact .of_arm (o := execCoreInstruction c x cycles s) rfl rfl rfl (by apply Dev.coreInstruction_keep (.refl _ _) <;> exact listed rfl)
  | coreWfi c => exact .of_arm (o := execCoreWfi c s) rfl rfl rfl (by apply Dev.coreWfi_keep (.refl _ _) <;> exact listed rfl)
  | coreWake c asleep => exact .of_arm (o := execCoreWake c asleep s) rfl rfl rfl (by apply Dev.coreWake_keep (.refl _ _) <;> exact listed rfl)
  | watchdogExpiry c => exact .of_arm (o := execWatchdogExpiry c s) rfl rfl rfl (by apply Dev.watchdogExpiry_keep (.refl _ _) <;> exact listed rfl)
  | kick c => exact .of_arm (o := execKick c s) rfl rfl rfl (.ite (Dev.modCore_keep (.refl _ _) (listed rfl) _ _) (.refl _ _))
  | done c => exact .of_arm (o := execDone c s) rfl rfl rfl (by apply Dev.done_keep (.refl _ _) <;> exact listed rfl)
  | post c v => exact .of_arm (o := execPost c v s) rfl rfl rfl (by apply Dev.post_keep (.refl _ _) <;> exact listed rfl)
  | timerArm q k v => exact .of_arm (o := execTimerArm q k v s) rfl rfl rfl (.ite (by apply Dev.writeTimerNext_keep (.refl _ _); exact listed rfl) (.refl _ _))
  | timerFire k => exact .of_arm (o := execTimerFire k s) rfl rfl rfl (by apply Dev.timerFire_keep (.refl _ _) <;> exact listed rfl)
  | eventOccurrence ev detail => exact .of_arm (o := execEventOccurrence ev detail s) rfl rfl rfl (by apply Dev.eventOccurrence_keep (.refl _ _) <;> exact listed rfl)
  | traceSyncTimer c => exact .of_arm (o := execTraceSyncTimer c s) rfl rfl rfl (by apply Dev.traceSyncTimer_keep (.refl _ _) <;> exact listed rfl)
  | traceRpWrite q stream v => exact .of_arm (o := execTraceRpWrite q stream v s) rfl rfl rfl (.ite (by apply Dev.writeTraceRp_keep (.refl _ _) <;> exact listed rfl) (.refl _ _))
  | acqRecord u payload fill => exact .of_arm (o := execAcqRecord u payload fill s) rfl rfl rfl (by apply Dev.acqRecord_keep (.refl _ _) <;> exact listed rfl)
  | acqTrigger u step frac => exact .of_arm (o := execAcqTrigger u step frac s) rfl rfl rfl (by apply Dev.acqTrigger_keep (.refl _ _) <;> exact listed rfl)
  | acqForce q u => exact .of_arm (o := execAcqForce q u s) rfl rfl rfl (.ite (by apply Dev.acqForce_keep (.refl _ _) <;> exact listed rfl) (.refl _ _))
  | acqDisarm q u => exact .of_arm (o := execAcqDisarm q u s) rfl rfl rfl (.ite (by apply Dev.askDisarm_keep (.refl _ _) <;> exact listed rfl) (.refl _ _))
  | fuseClassify => exact .of_arm (o := execFuseClassify s) rfl rfl rfl (by apply Dev.fuseClassify_keep (.refl _ _) <;> exact listed rfl)
  | fuseAck q v => exact .of_arm (o := execFuseAck q v s) rfl rfl rfl (.ite (by apply Dev.writeFuseAck_keep (.refl _ _) <;> exact listed rfl) (.refl _ _))
  | fuseRelease => exact .of_arm (o := execFuseRelease s) rfl rfl rfl (by apply Dev.fuseRelease_keep (.refl _ _) <;> exact listed rfl)
  | attReq q v => exact .of_arm (o := execAttReq q v s) rfl rfl rfl (.ite (by apply Dev.writeAttCtl_keep (.refl _ _) <;> exact listed rfl) (.refl _ _))
  | attReportReady => exact .of_arm (o := execAttReportReady s) rfl rfl rfl (by apply Dev.attReportReady_keep (.refl _ _) <;> exact listed rfl)
  | provision _ => exact framed_provision _ s
  | deploy _ => exact framed_deploy _ s
  | return_ _ => exact framed_return _ s
  | decommission _ => exact framed_decommission _ s
  | keyRevoke _ => exact framed_keyRevoke _ s
  | arbAdvance _ => exact framed_arbAdvance _ s
  | debugUnlock _ => exact framed_debugUnlock _ s
  | debugUnlockExpiry => exact .of_arm (o := execDebugUnlockExpiry s) rfl rfl rfl (by apply Dev.debugUnlockExpiry_keep (.refl _ _) <;> exact listed rfl)
  | lockedDebugAccess => exact .of_arm (o := execLockedDebugAccess s) rfl rfl rfl (by apply Dev.lockedDebugAccess_keep (.refl _ _) <;> exact listed rfl)
  | tamperTrip t => exact .of_arm (o := execTamperTrip t s) rfl rfl rfl (by apply Dev.wipe_keep (.refl _ _) <;> exact listed rfl)
  | rngHealthFail ok => exact .of_arm (o := execRngHealthFail ok s) rfl rfl rfl (.ite (.refl _ _) (Dev.raise_keep (Dev.modStrong_keep (.refl _ _) (listed rfl) _ (.same rfl rfl rfl rfl rfl rfl rfl rfl rfl)) (listed rfl) _ _))
  | sramBankPower q hi v => exact .of_arm (o := execSramBankPower q hi v s) rfl rfl rfl (.ite (by apply Dev.regWrite_keep (.refl _ _) <;> exact listed rfl) (.refl _ _))
  | sramClearDone b => exact .of_arm (o := execSramClearDone b s) rfl rfl rfl (Dev.modSram_keep (.refl _ _) (listed rfl) _ fun _ hm => hm)
  | porstN => exact .of_arm (o := execPorstN s) rfl rfl rfl (by apply Dev.porstN_keep (.refl _ _) <;> exact listed rfl)
  | powerGood => exact .of_arm (o := execPowerGood s) rfl rfl rfl (by apply Dev.powerGood_keep (.refl _ _) <;> exact listed rfl)
  | railFault r back => exact .of_arm (o := execRailFault r back s) rfl rfl rfl (by apply Dev.railFault_keep (.refl _ _) <;> exact listed rfl)
  | startupStage x => exact .of_arm (o := execStartupStage x s) rfl rfl rfl (by apply Dev.startupStage_keep (.refl _ _) <;> exact listed rfl)
  | bootgo q window => exact .of_arm (o := execBootgo q window s) rfl rfl rfl (by apply Dev.bootgoWith_keep (.refl _ _) <;> exact listed rfl)
  | warmrstN high => exact .of_arm (o := execWarmrstN high s) rfl rfl rfl (by apply Dev.warmrstN_keep (.refl _ _) <;> exact listed rfl)
  | warm q => exact .of_arm (o := execWarm q s) rfl rfl rfl (.ite (by apply Dev.askWarm_keep (.refl _ _) <;> exact listed rfl) (.refl _ _))
  | hubReturn => exact .of_arm (o := execHubReturn s) rfl rfl rfl (by apply Dev.hubReturn_keep (.refl _ _) <;> exact listed rfl)
  | ceilingWrite q v => exact .of_arm (o := execCeilingWrite q v s) rfl rfl rfl (.ite (by apply Dev.writeCeiling_keep (.refl _ _); exact listed rfl) (.refl _ _))
  | powerReading total hub => exact .of_arm (o := execPowerReading total hub s) rfl rfl rfl (by apply Dev.powerReading_keep (.refl _ _) <;> exact listed rfl)
  | vcoreStep w meas ack => exact .of_arm (o := execVcoreStep w meas ack s) rfl rfl rfl (by apply Dev.vcoreStep_keep (.refl _ _) <;> exact listed rfl)
  | avsRetry w ok => exact .of_arm (o := execAvsRetry w ok s) rfl rfl rfl (by apply Dev.avsRetry_keep (.refl _ _) <;> exact listed rfl)
  | thermalSample k t => exact .of_arm (o := execThermalSample k t s) rfl rfl rfl (by apply Dev.thermalSample_keep (.refl _ _) <;> exact listed rfl)
  | xdRead q lane => exact .of_arm (o := execXdRead q lane s) rfl rfl rfl (.ite (Dev.answer_keep (Dev.xdRead_keep (.refl _ _) (listed rfl) (listed rfl) _ _) (listed rfl) _ _) (Dev.answer_keep (.refl _ _) (listed rfl) _ _))
  | xdWrite q lane v => exact .of_arm (o := execXdWrite q lane v s) rfl rfl rfl (.ite (by apply Dev.xdWrite_keep (.refl _ _) <;> exact listed rfl) (.refl _ _))
  | xdTimeout q lane write => exact .of_arm (o := execXdTimeout q lane write s) rfl rfl rfl (by apply Dev.xdTimeout_keep (.refl _ _) <;> exact listed rfl)
  | latchedRead q addr => exact .of_arm (o := execLatchedRead q addr s) rfl rfl rfl (Dev.answer_keep (Dev.regRead_keep (.refl _ _) (listed rfl) (listed rfl) (listed rfl) _ _) (listed rfl) _ _)
  | counterClear q addr v => exact .of_arm (o := execCounterClear q addr v s) rfl rfl rfl (by apply Dev.regWrite_keep (.refl _ _) <;> exact listed rfl)
  | registerWrite q addr v be => exact .of_arm (o := execRegisterWrite q addr v be s) rfl rfl rfl (.ite (by apply Dev.regWrite_keep (.refl _ _) <;> exact listed rfl) (Dev.countHub_keep (.refl _ _) (listed rfl) _))
  | sourceLoss => exact .of_arm (o := execSourceLoss s) rfl rfl rfl (by apply Dev.sourceLoss_keep (.refl _ _) <;> exact listed rfl)
  | subportUpDown port sub up => exact .of_arm (o := execSubportUpDown port sub up s) rfl rfl rfl (by apply Dev.subportUpDown_keep (.refl _ _) <;> exact listed rfl)
  | pcieLinkChange x => exact .of_arm (o := execPcieLinkChange x s) rfl rfl rfl (by apply Dev.pcieLinkChange_keep (.refl _ _) <;> exact listed rfl)
  | pfPowerStateChange d3 => exact .of_arm (o := execPfPowerStateChange d3 s) rfl rfl rfl (Dev.putRings_keep (.refl _ _) (listed rfl) _ id)
  | porstNRelease => exact .of_arm (o := execPorstNRelease s) rfl rfl rfl (by apply Dev.porstNRelease_keep (.refl _ _) <;> exact listed rfl)
  | tapInstruction x => exact .of_arm (o := execTapInstruction x s) rfl rfl rfl (by apply Dev.tapInstruction_keep (.refl _ _) <;> exact listed rfl)
  | jtagMemoryPortAccess addr x => exact .of_arm (o := execJtagMemoryPortAccess addr x s) rfl rfl rfl (by apply Dev.jtagMemory_keep (.refl _ _) <;> exact listed rfl)


/-- The framed commands (above) on one side, the idle step on the other: what every step is. -/
theorem step_cases {s t : State} (h : step s = .next t) :
    (s.pending = [] ∧ t = { s with dev := s.dev.idle }) ∨
    ∃ c rest, s.pending = c :: rest ∧ exec c { s with pending := rest } = .next t := by
  unfold step at h
  split at h
  case h_1 hp => exact .inl ⟨hp, (Host.Outcome.next.inj h).symm⟩
  case h_2 c rest hp => exact .inr ⟨c, rest, hp, h⟩

/-- A command that answers a next state runs an effect within its frame and leaves the queue. -/
theorem exec_next {c : Instr} {s t : State} (h : exec c s = .next t) : Keep c.parts s.dev t.dev ∧ t.pending = s.pending := by
  obtain ⟨f, hf, hk⟩ := exec_framed c s
  rw [hf] at h
  unfold run at h
  split at h
  case isTrue => cases h; exact ⟨hk, rfl⟩
  case isFalse => cases h

/-- Every step, of a command or idle, keeps the canonical forms, the windows and the fuses. -/
theorem step_keep {s t : State} (h : step s = .next t) : ∃ ps, Keep ps s.dev t.dev := by
  rcases step_cases h with ⟨-, rfl⟩ | ⟨c, rest, -, hc⟩
  · exact ⟨[.now, .free, .out, .events, .rooms, .funcs, .net, .cellar, .media, .time, .link, .fabric, .rings, .cores, .sched, .strong, .hub],
      by apply Dev.idle_keep (.refl _ _) <;> exact listed rfl⟩
  · exact ⟨c.parts, (exec_next hc).1⟩

/-- Settles O1: by the definition of a step. -/
theorem stepRunsFrontCommand : Obligations.StepRunsFrontCommand := fun _ _ => rfl

/-- Settles O3: every command is a run of an effect under `Instr.wellFormed`. -/
theorem onlyAbsentUnitsStop : Obligations.OnlyAbsentUnitsStop := by
  intro c s
  obtain ⟨f, hf, -⟩ := exec_framed c s
  exact ⟨fun hc => ⟨f s.dev, hf.trans (if_pos hc)⟩, fun hc => hf.trans (if_neg (ne_true_of_eq_false hc))⟩

/-- Settles O4, from the frame of each command's effect. -/
theorem commandsLeaveOtherParts : Obligations.CommandsLeaveOtherParts := fun _ _ _ h => ⟨(exec_next h).1.only, (exec_next h).2⟩

/-- Settles O56: every operation keeps the memories canonical and the windows in form. -/
theorem everyStepKeepsCanonicalForms : Obligations.EveryStepKeepsCanonicalForms := by
  intro s t ⟨hmem, hstrong, htable⟩ hwindows h
  obtain ⟨ps, hk⟩ := step_keep h
  exact ⟨⟨hk.mem hmem, hk.strong_.mem hstrong, hk.table htable⟩, hk.windows hwindows⟩

/-- Settles O57: every operation keeps the fuses. -/
theorem fusesNeverGoBack : Obligations.FusesNeverGoBack := by
  intro s t h
  obtain ⟨ps, hk⟩ := step_keep h
  exact hk.strong_.fuses

end Sys2Proof.Machine
end

section
/-! The idle step (08_time.md R226; 10_direct_fabric.md R292; 13_control_cores_and_observation.md R396; 09_lanes_and_link.md R263, R265), where nothing is
due and where something is; and the state after reset (17_power_reset_startup.md R462). -/

namespace Sys2Proof.Machine
open Sys2Proof

theorem Fabric.refreshPads_pads (f : Fabric) : f.refreshPads = { f with pads := f.refreshPads.pads } := by
  unfold Fabric.refreshPads
  split <;> rfl

/-- Without an edge of a clock the fabric's run moves its instant and its pads alone. -/
theorem Dev.runFabric_quiet {d : Dev} (h : d.fabric.edges d.fabric.ran d.now = []) :
    ∃ pads, d.runFabric = { d with fabric := { d.fabric with ran := d.now, pads } } := by
  unfold Dev.runFabric
  rw [h]
  exact ⟨_, congrArg (fun f : Fabric => ({ d with fabric := f } : Dev)) (Fabric.refreshPads_pads { d.fabric with ran := d.now })⟩

/-- Without a packet that waits, the device stream is stored as it is. -/
theorem Dev.flushTrace_quiet {d : Dev} (h : (d.stream 16).window = []) : d.flushTrace = d.setStream 16 (d.stream 16) := by
  have hs : { d.stream 16 with window := [] } = d.stream 16 := by rw [← h]
  unfold Dev.flushTrace
  simp only [h, List.takeWhile_nil, List.length_nil, List.drop_nil]
  exact congrArg (Dev.setStream d 16) hs

theorem Dev.stream_setStream_stored (d : Dev) (i k : Nat) : (d.setStream i (d.stream i)).stream k = d.stream k := by
  by_cases hk : k = i
  · rw [hk]; exact Tbl.get_set_same _ _ _ _
  · exact Tbl.get_set_other _ _ _ _ _ hk

theorem Dev.ptpDue_quiet {d : Dev} {k : Nat} (h : (d.timePort k).en = false) : d.ptpDue k = d := if_pos (.inl (by simp [h]))

theorem Dev.deliverOwn_quiet {d : Dev} (h : d.link.loop = []) : d.deliverOwn = d := by
  have hl : { d.link with loop := [] } = d.link := by rw [← h]
  unfold Dev.deliverOwn
  rw [h]
  exact congrArg (fun l : Link => ({ d with link := l } : Dev)) hl

theorem Dev.skewOver_quiet {d : Dev} {b : Nat} (h : (d.bd b).reorder = []) : d.skewOver b = d := by
  unfold Dev.skewOver
  rw [h]
  rfl

/-- Behind the fabric and the trace an idle step does nothing where no PTP is enabled, no own frame and no frame out of order waits. -/
theorem Dev.idle_of_flushTrace {d e : Dev} (hcold : d.power.cold = false) (he : d.tick.runFabric.flushTrace = e) (hptp : ∀ k, (e.timePort k).en = false)
    (hloop : e.link.loop = []) (hreorder : ∀ b, (e.bd b).reorder = []) : d.idle = e := by
  unfold Dev.idle
  rw [if_neg (ne_true_of_eq_false hcold), he]
  dsimp only
  rw [Dev.each_fixed fun k _ => Dev.ptpDue_quiet (hptp k), Dev.deliverOwn_quiet hloop, Dev.each_fixed fun b _ => Dev.skewOver_quiet (hreorder b)]

/-- An idle step in which no clock has an edge, no PTP is due and nothing waits. -/
theorem Dev.idle_quiet {d : Dev} (hcold : d.power.cold = false) (hptp : ∀ k, (d.timePort k).en = false) (hwindow : (d.stream 16).window = [])
    (hloop : d.link.loop = []) (hreorder : ∀ b, (d.bd b).reorder = []) (hedges : d.fabric.edges d.fabric.ran (d.now + d.time.incr) = []) :
    ∃ pads, d.idle = Dev.setStream { d.tick with fabric := { d.fabric with ran := d.tick.now, pads } } 16 (d.stream 16) := by
  obtain ⟨pads, hrun⟩ := Dev.runFabric_quiet (d := d.tick) hedges
  have hflush : d.tick.runFabric.flushTrace = d.tick.runFabric.setStream 16 (d.tick.runFabric.stream 16) :=
    Dev.flushTrace_quiet (by rw [hrun]; exact hwindow)
  rw [hrun] at hflush
  exact ⟨pads, Dev.idle_of_flushTrace hcold (by rw [hrun]; exact hflush) hptp hloop hreorder⟩

/-- The idle step moves device time by the tick alone. -/
theorem Dev.idle_now {d : Dev} (hcold : d.power.cold = false) : d.idle.now = d.now + d.time.incr := by
  refine Keep.now_eq (d := d.tick) ?_
  unfold Dev.idle
  rw [if_neg (ne_true_of_eq_false hcold)]
  apply Dev.each_keep
  · apply Dev.deliverOwn_keep
    · apply Dev.each_keep
      · apply Dev.flushTrace_keep (Dev.runFabric_keep (.refl _ _) (by decide) (by decide) (by decide)) <;> exact listed rfl
      · intro x k hx
        apply Dev.ptpDue_keep hx <;> exact listed rfl
    all_goals exact listed rfl
  · intro x b hx
    apply Dev.skewOver_keep hx <;> exact listed rfl

/-- Settles O2: the tick of the idle step, and what stands still where nothing is due. -/
theorem idleStepTicks : Obligations.IdleStepTicks := by
  intro s hp
  have hstep : step s = .next { s with dev := s.dev.idle } := by
    unfold step
    rw [hp]
  refine ⟨fun hcold => hstep.trans ?_, fun hcold => ⟨s.dev.idle, hstep, Dev.idle_now hcold, ?_, ?_⟩⟩
  · rw [show s.dev.idle = s.dev from if_pos hcold]
  · exact Keep.only (by apply Dev.idle_keep (.refl _ _) <;> exact listed rfl)
  · intro hptp hwindow hloop hreorder hedges
    obtain ⟨pads, hquiet⟩ := Dev.idle_quiet hcold hptp hwindow hloop hreorder hedges
    rw [hquiet]
    refine ⟨Keep.only (Dev.setStream_keep (Keep.upd_fabric (Dev.tick_keep (.refl _ _) (by decide)) (by decide)) (by decide) _ _), fun k => ?_, rfl⟩
    exact Dev.stream_setStream_stored _ 16 k

/-- Settles O58: the reset state's tables are empty and its registers hold the values of their tables. -/
theorem resetMeetsTheInvariants : Obligations.ResetMeetsTheInvariants :=
  ⟨⟨rfl, ⟨rfl, rfl, rfl⟩, rfl⟩, ⟨rfl, nofun⟩, rfl, rfl, rfl, rfl, rfl, rfl, rfl, rfl, rfl, rfl, rfl, rfl, rfl, rfl, rfl, fun _ => rfl, fun _ => rfl⟩

end Sys2Proof.Machine
end

section
/-! More instructions of a BP (02_rooms.md R42 to R53, R57 to R59; 03_beat_and_commit.md R123): what MRD, the slice instructions, LVB, NOP and SEND leave of a
room that `Issues` them, and of the network. -/

namespace Sys2Proof.Machine
open Sys2Proof

-- an issue that reports nothing

/-- An issue that sends and reports nothing, with nothing for a migration's log. -/
theorem Dev.issue_unlogged {d : Dev} {r : RoomId} {b used : Nat} {rm' : Room} (hseed : seedItem (d.room r) rm' b = none) :
    d.issue r b { room := rm', used } = (d.setRoom r rm').take used := by
  unfold Dev.issue
  rw [hseed]
  rfl

/-- Of the instructions an EVAL, an MRD and an SLR alone write a state word, and an MWR alone queues an entry (R333). -/
theorem seedItem_of_kind {was now : Room} {b i : Nat} {k : BitVec 3} (hnow : was.canIssue b = some i) (hkind : (was.insnAt b i).kind = k)
    (h0 : k ≠ 0) (h2 : k ≠ 2) (h5 : k ≠ 5) (hwq : now.wq = was.wq) (hahead : now.wqAhead = was.wqAhead) : seedItem was now b = none := by
  have hx : (was.insnAt b was.idx).kind = k := Room.canIssue_idx hnow ▸ hkind
  unfold seedItem
  dsimp only
  rw [hwq, hahead, hx, if_neg (lt_irrefl _), if_neg (lt_irrefl _), if_neg fun h => h.2.1.elim h0 fun h => h.elim h2 h5]

/-- An issue that sends and reports nothing changes its room, the function whose migration logs it, and takes its open values. -/
theorem Dev.issue_used (d : Dev) (r : RoomId) (b : Nat) {o : Issued} {rm' : Room} {used : Nat} (ho : o = { room := rm', used }) :
    Only [.rooms, .funcs, .free] d (d.issue r b o) ∧ (d.issue r b o).room r = rm' ∧ OtherRooms r d (d.issue r b o) := by
  subst ho
  have hset : Keep [.rooms, .funcs, .free] d ((d.setRoom r rm').take used) :=
    Dev.take_keep (Dev.setRoom_keep (.refl _ _) (by decide) r rm') (by decide) used
  unfold Dev.issue
  simp only [Bool.false_eq_true, if_false]
  cases seedItem (d.room r) rm' b with
  | none => exact ⟨hset.only, d.room_setRoom_same r rm', d.setRoom_otherRooms r rm'⟩
  | some x => exact ⟨(Dev.logSeed_keep hset (by decide) r x).only, d.room_setRoom_same r rm', d.setRoom_otherRooms r rm'⟩

-- MRD

/-- The read position of an instruction's bank, and the address that the MRD of BP b at index i reads (R50). -/
def Room.readPos (rm : Room) (x : Insn) : Nat := Tbl.get 0 rm.rpos x.bank
def Room.readAddr (rm : Room) (beat : Beat) (b i : Nat) : Nat :=
  let x := rm.insnAt b i
  if x.byWord then ((rm.operand beat b i x.opa).word.extractLsb' 0 11).toNat else (setupBase (rm.setup x.bank) + rm.readPos x) % 2048

/-- The word that the MRD of BP b at index i brings: the bank's, with what the write queues hold for it (R53). -/
def Room.mrdReads (rm : Room) (beat : Beat) (b i : Nat) : Lanes :=
  let bank := (rm.insnAt b i).bank
  mrdWord (rm.wq ++ rm.wqAhead) bank (rm.readAddr beat b i) (Tbl.get 0 rm.bank (bank * 2048 + rm.readAddr beat b i))

/-- The MRD word on its way to DST, in the lanes that the predicate gave as it issued (R42). -/
def Room.mrdLanding (rm : Room) (beat : Beat) (b i : Nat) : Landing :=
  let x := rm.insnAt b i
  { dst := x.dst.toNat, word := rm.mrdReads beat b i, mask := (rm.bp b).predMask x.pred, full := x.pred = 0 }

/-- A room whose MRD `x` has read: the read position moves on (R50). -/
def Room.readOn (rm : Room) (x : Insn) : Room :=
  { rm with rpos := if x.byWord then rm.rpos else Tbl.set 0 rm.rpos x.bank (nextPos (rm.setup x.bank) (rm.readPos x)) }

/-- The operand that the MRD of BP b at index i reads, for its address alone. -/
def Room.mrdOperands (rm : Room) (beat : Beat) (b i : Nat) : List OpRead :=
  let x := rm.insnAt b i
  [if x.byWord then rm.operand beat b i x.opa else { word := 0 }]

theorem Room.bankAddr_read (rm : Room) (bank : Nat) (byWord : Bool) (opa : Lanes) : rm.bankAddr bank byWord opa false =
    ({ rm with rpos := if byWord then rm.rpos else Tbl.set 0 rm.rpos bank (nextPos (rm.setup bank) (Tbl.get 0 rm.rpos bank)) },
      if byWord then (opa.extractLsb' 0 11).toNat else (setupBase (rm.setup bank) + Tbl.get 0 rm.rpos bank) % 2048) := by
  cases byWord <;> rfl

theorem Room.bankCheck_clean {rm : Room} (h : rm.ueBm = []) (key : Nat) (fromBank : Bool) : rm.bankCheck key fromBank .ok = (rm, false) := by
  unfold Room.bankCheck
  simp [h]

theorem Room.mrd_eq {rm : Room} {b i : Nat} (h : Issues rm b i 1 2) (beat : Beat) (free : Nat) : rm.mrd beat free b {} =
    { room := (((rm.reading i 1 (rm.mrdOperands beat b i)).land b).readOn (rm.insnAt b i)).issue b (rm.mrdReads beat b i)
        (some (rm.mrdLanding beat b i)) } := by
  have hds : rm.ueDs = [] := Room.ueDs_of_issues h
  have hbm : rm.ueBm = [] := h.clean.2.2.2
  have hrest := (Room.land_put (Room.ueDs_reading h (rm.mrdOperands beat b i)) b).rest
  unfold Room.mrd
  rw [Room.runKind_issues h]
  extract_lets byWord bank
  rw [Room.dataCheck_clean (rm := rm.charged _ _) hds]
  dsimp -zeta only
  extract_lets +onlyGivenNames ra m L
  have hra : ra = if byWord then rm.operand beat b i (rm.insnAt b i).opa else { word := 0 } := by
    rw [← Room.operand_charged rm (rm.issueStep i) 1, ← Room.operandU_clean (rm := rm.charged _ _) hds beat free]
  have hm : m = (rm.bp b).predMask (rm.insnAt b i).pred := Room.predMaskU_clean (rm := rm.charged _ _) hds ..
  have hL : L = (rm.reading i 1 (rm.mrdOperands beat b i)).land b := by
    unfold L
    rw [hra]
    rfl
  have haddr : L.bankAddr bank byWord ra.word false = (L.readOn (rm.insnAt b i), rm.readAddr beat b i) := by
    rw [Room.bankAddr_read]
    refine congrArg (Prod.mk _) ?_
    rw [hL, hrest, hra]
    exact ite_congr rfl (fun hw => by rw [if_pos (show byWord = true from hw)]) fun _ => rfl
  have hLrest := hL.trans hrest
  have hclean (key : Nat) (fromBank : Bool) : (L.readOn (rm.insnAt b i)).bankCheck key fromBank .ok = (L.readOn (rm.insnAt b i), false) :=
    Room.bankCheck_clean (by rw [hLrest]; exact hbm) key fromBank
  simp only [haddr, hclean, Issued.recorded, Bool.or_false, Bool.false_eq_true, if_false, hm]
  rw [← hL]
  have hreads : mrdWord ((L.readOn (rm.insnAt b i)).wq ++ (L.readOn (rm.insnAt b i)).wqAhead) bank (rm.readAddr beat b i)
      (Tbl.get 0 (L.readOn (rm.insnAt b i)).bank (bank * 2048 + rm.readAddr beat b i)) = rm.mrdReads beat b i := by
    rw [hLrest]
    rfl
  rw [hreads]
  rfl

/-- What MRD leaves of the room. -/
theorem Room.mrd_issues {rm : Room} {b i : Nat} (h : Issues rm b i 1 2) (beat : Beat) (free : Nat) : ∃ rm' : Room,
    rm.mrd beat free b {} = { room := rm' } ∧
    HasIssued rm rm' b (rm.mrdReads beat b i) { (rm.bp b).landed rm.ahead with landing := some (rm.mrdLanding beat b i) } ∧
    rm' = { rm.readOn (rm.insnAt b i) with
      bps := rm'.bps, idx := rm'.idx, done := rm'.done, cnt := rm'.cnt, missed := rm'.missed, tokens := rm'.tokens } := by
  let x := rm.insnAt b i
  let rd := rm.reading i 1 (rm.mrdOperands beat b i)
  have hland : rd.BpPut (rd.land b) b ((rm.bp b).landed rm.ahead) := Room.land_put (Room.ueDs_reading h _) b
  have hput : (rd.readOn x).BpPut ((rd.land b).readOn x) b ((rm.bp b).landed rm.ahead) := by
    refine ⟨hland.own, hland.others, ?_⟩
    rw [hland.rest]
    rfl
  have hissued := hput.hasIssued (Bp.landed_hist ..) (Bp.landed_issued ..) (rm.mrdReads beat b i) (some (rm.mrdLanding beat b i))
  exact ⟨((rd.land b).readOn x).issue b _ _, Room.mrd_eq h beat free, Room.hasIssued_of_same hissued rfl rfl rfl, by rw [hput.issue_rest]; rfl⟩

/-- Settles O7: an MRD that issues changes its room as `Room.mrd_issues` says, and adds at most its state word to a migration's log. -/
theorem mrdReadsItsBank : Obligations.MrdReadsItsBank := by
  intro s r b i h
  obtain ⟨rm', hmrd, hissued, hrest⟩ := Room.mrd_issues h s.dev.time.n s.dev.free
  obtain ⟨honly, hroom, hothers⟩ := s.dev.issue_quiet r b.toNat hmrd
  refine ⟨_, rfl, honly, ?_⟩
  dsimp only
  rw [hroom]
  exact ⟨hissued, hothers, by rw [hrest]; rfl, by rw [hrest]; rfl⟩

-- slices

/-- The result of an SLI: the truth table's alone, without a lane operation (R57). -/
def Room.plainResult (rm : Room) (beat : Beat) (b i : Nat) : Lanes :=
  let x := rm.insnAt b i
  laneOp 0 0 (evalTT x.tt (rm.operand beat b i x.opa).word (rm.operand beat b i x.opb).word (rm.operand beat b i x.opc).word
    (rm.operand beat b i x.opd).word)

/-- The slice that an SLI or SLR names, and its descriptor. -/
def Insn.slice (x : Insn) : Nat := (x.larg.extractLsb' 0 3).toNat
def Room.sliceOf (rm : Room) (x : Insn) : SliceDesc := parseSlice (Tbl.get 0 rm.sliceDesc x.slice)

/-- The slice of the SLI of BP b at index i, fed its result in the role that LARG names. -/
def Room.fedSlice (rm : Room) (beat : Beat) (b i : Nat) : Slice :=
  let x := rm.insnAt b i
  (rm.sl x.slice).feed (rm.sliceOf x) (rm.const (rm.sliceOf x).cidx) (x.larg.extractLsb' 3 3).toNat (rm.issueStep i) (rm.plainResult beat b i)

theorem Room.BpPut.setSl {rm rm' : Room} {b : Nat} {p : Bp} (h : rm.BpPut rm' b p) (n : Nat) (x : Slice) :
    (rm.setSl n x).BpPut (rm'.setSl n x) b p := by
  refine ⟨h.own, h.others, ?_⟩
  rw [h.rest]
  rfl

theorem Room.sli_eq {rm : Room} {b i : Nat} (h : Issues rm b i 40 4) (hen : (rm.sliceOf (rm.insnAt b i)).en = true) (beat : Beat) (free : Nat) :
    rm.sli beat free b {} =
      { room := (((rm.reading i 40 (rm.evalReads beat b i)).land b).setSl (rm.insnAt b i).slice (rm.fedSlice beat b i)).issue b
          (rm.plainResult beat b i) none } := by
  have hds : rm.ueDs = [] := Room.ueDs_of_issues h
  unfold Room.sli
  rw [Room.runKind_issues h, Room.dataCheck_clean (rm := rm.charged _ _) hds]
  dsimp -zeta only
  rw [Room.evaluate_clean (rm := rm.charged _ _) hds]
  dsimp -zeta only
  extract_lets +onlyGivenNames L n ds
  have hL : L = (rm.reading i 40 (rm.evalReads beat b i)).land b := rfl
  have hrest := (Room.land_put (Room.ueDs_reading h (rm.evalReads beat b i)) b).rest
  rw [← hL] at hrest ⊢
  have hdesc : ds = rm.sliceOf (rm.insnAt b i) := by
    unfold ds
    rw [hrest]
    rfl
  have hfed : (L.sl n).feed ds (L.const ds.cidx) ((rm.insnAt b i).larg.extractLsb' 3 3).toNat (L.issueStep i) (rm.plainResult beat b i) =
      rm.fedSlice beat b i := by
    rw [hdesc, hrest]
    rfl
  rw [← hfed]
  clear_value L
  simp only [Issued.recorded, hdesc, hen, if_true, Bool.or_false, Bool.false_eq_true, if_false]
  rfl

/-- What SLI leaves of the room. -/
theorem Room.sli_issues {rm : Room} {b i : Nat} (h : Issues rm b i 40 4) (hen : (rm.sliceOf (rm.insnAt b i)).en = true) (beat : Beat) (free : Nat) :
    ∃ rm' : Room, rm.sli beat free b {} = { room := rm' } ∧
    HasIssued rm rm' b (rm.plainResult beat b i) { (rm.bp b).landed rm.ahead with landing := none } ∧
    rm' = { rm.setSl (rm.insnAt b i).slice (rm.fedSlice beat b i) with
      bps := rm'.bps, idx := rm'.idx, done := rm'.done, cnt := rm'.cnt, missed := rm'.missed, tokens := rm'.tokens } := by
  have hput := (Room.land_put (Room.ueDs_reading h (rm.evalReads beat b i)) b).setSl (rm.insnAt b i).slice (rm.fedSlice beat b i)
  exact ⟨_, Room.sli_eq h hen beat free, Room.hasIssued_of_same (hput.hasIssued (Bp.landed_hist ..) (Bp.landed_issued ..) _ none) rfl rfl rfl,
    by rw [hput.issue_rest]; rfl⟩

/-- The slice of an SLR's instruction once the next plane of its oldest result is taken (R59). -/
def Room.slrLeaves (rm : Room) (b : Nat) (x : Insn) (y : Lanes) : Bp :=
  ((rm.bp b).landed rm.ahead).write rm.ahead x.dst.toNat ((rm.bp b).predMask x.pred) y (x.pred = 0)

theorem Slice.readPlane_next {s : Slice} {y : Lanes} {ys : List Lanes} {rest : List (List Lanes)} (h : s.queue = (y :: ys) :: rest) (free : Nat) :
    s.readPlane free = (y, { s with queue := if ys.isEmpty then rest else ys :: rest }) := by
  unfold Slice.readPlane
  rw [h]

theorem Room.slr_eq {rm : Room} {b i : Nat} {y : Lanes} {t : Slice} (h : Issues rm b i 1 5) (free : Nat)
    (hread : (rm.sl (rm.insnAt b i).slice).readPlane free = (y, t)) : rm.slr free b {} =
      { room := ((((rm.charged (rm.issueStep i) 1).setSl (rm.insnAt b i).slice t).land b).writeDs b (rm.insnAt b i).dst.toNat
          ((rm.bp b).predMask (rm.insnAt b i).pred) y ((rm.insnAt b i).pred = 0)).issue b y none
        used := 5 } := by
  have hds : rm.ueDs = [] := Room.ueDs_of_issues h
  unfold Room.slr
  rw [Room.runKind_issues h, Room.dataCheck_clean (rm := rm.charged _ _) hds]
  dsimp -zeta only
  rw [Room.predMaskU_clean (rm := rm.charged _ _) hds]
  have hplane : ((rm.charged (rm.issueStep i) 1).sl ((rm.insnAt b i).larg.extractLsb' 0 3).toNat).readPlane free = (y, t) := hread
  simp only [hplane, Issued.recorded, Bool.or_false, Bool.false_eq_true, if_false]
  rfl

/-- What SLR leaves of the room. -/
theorem Room.slr_issues {rm : Room} {b i : Nat} {y : Lanes} {t : Slice} (h : Issues rm b i 1 5) (free : Nat)
    (hread : (rm.sl (rm.insnAt b i).slice).readPlane free = (y, t)) : ∃ rm' : Room, rm.slr free b {} = { room := rm', used := 5 } ∧
    HasIssued rm rm' b y { rm.slrLeaves b (rm.insnAt b i) y with landing := none } ∧
    rm' = { rm.setSl (rm.insnAt b i).slice t with bps := rm'.bps, idx := rm'.idx, done := rm'.done, tokens := rm'.tokens } := by
  have hds : rm.ueDs = [] := Room.ueDs_of_issues h
  have hput : ((rm.charged (rm.issueStep i) 1).setSl (rm.insnAt b i).slice t).BpPut _ b (rm.slrLeaves b (rm.insnAt b i) y) :=
    Room.land_writeDs_put (rm := (rm.charged _ 1).setSl _ t) hds b _ _ _ _
  exact ⟨_, Room.slr_eq h free hread, Room.hasIssued_of_same (hput.hasIssued ((Bp.write_hist ..).trans (Bp.landed_hist ..))
    ((Bp.write_issued ..).trans (Bp.landed_issued ..)) y none) rfl rfl rfl, by rw [hput.issue_rest]; rfl⟩

/-- What an instruction that only lands the MRD word before it leaves of the room: LVB and NOP (R42). -/
theorem Room.idle_issues {rm : Room} {b i : Nat} {k : BitVec 3} (h : Issues rm b i 0 k) : ∃ rm' : Room,
    rm.runKind b k {} 0 (fun rm _ _ => ({ room := rm.land b }, 0, none)) = { room := rm' } ∧
    HasIssued rm rm' b 0 { (rm.bp b).landed rm.ahead with landing := none } ∧
    rm' = { rm with bps := rm'.bps, idx := rm'.idx, done := rm'.done, tokens := rm'.tokens } := by
  have hput : (rm.charged (rm.issueStep i) 0).BpPut _ b ((rm.bp b).landed rm.ahead) :=
    Room.land_put (rm := rm.charged _ 0) (show rm.ueDs = [] from Room.ueDs_of_issues h) b
  exact ⟨_, Room.runKind_issues h _, Room.hasIssued_of_same (hput.hasIssued (Bp.landed_hist ..) (Bp.landed_issued ..) 0 none) rfl rfl rfl,
    by rw [hput.issue_rest]; rfl⟩

/-- Settles O9: SLI by `Room.sli_issues`, SLR by `Room.slr_issues`; LVB and NOP only land the MRD word before them. -/
theorem sliceLvbAndNopIssue : Obligations.SliceLvbAndNopIssue := by
  intro s r b i rm x p n w q ds
  refine ⟨fun h hen => ?sli, fun y ys rest h hqueue => ?slr, fun k hk h => ?idle⟩
  case sli =>
    obtain ⟨rm', hsli, hissued, hrest⟩ := Room.sli_issues h hen s.dev.time.n s.dev.free
    have hseed : seedItem rm rm' b.toNat = none :=
      seedItem_of_kind h.now h.kind (by decide) (by decide) (by decide) (by rw [hrest]; rfl) (by rw [hrest]; rfl)
    have hrun : s.dev.issue r b.toNat (rm.sli s.dev.time.n s.dev.free b.toNat {}) = s.dev.setRoom r rm' := by rw [hsli]; exact Dev.issue_unlogged hseed
    refine completes_of_run (f := fun d => d.issue r b.toNat ((d.room r).sli d.time.n d.free b.toNat {})) rfl hrun
      (Dev.setRoom_keep (.refl _ _) (by decide) r rm') ?_
    dsimp only
    rw [s.dev.room_setRoom_same r rm']
    exact ⟨hissued, s.dev.setRoom_otherRooms r rm', by rw [hrest]; rfl, by rw [hrest]; rfl⟩
  case slr =>
    obtain ⟨rm', hslr, hissued, hrest⟩ := Room.slr_issues h s.dev.free (Slice.readPlane_next hqueue s.dev.free)
    obtain ⟨honly, hroom, hothers⟩ := s.dev.issue_used r b.toNat hslr
    refine ⟨_, rfl, honly, ?_⟩
    dsimp only
    rw [hroom]
    exact ⟨hissued, hothers, by rw [hrest]; rfl, by rw [hrest]; rfl⟩
  case idle =>
    obtain ⟨rm', hidle, hissued, hrest⟩ := Room.idle_issues h
    have hseed : seedItem rm rm' b.toNat = none := by
      refine seedItem_of_kind h.now h.kind ?_ ?_ ?_ (by rw [hrest]) (by rw [hrest]) <;> rcases hk with rfl | rfl <;> decide
    have hrun : s.dev.issue r b.toNat (rm.runKind b.toNat k {} 0 fun rm _ _ => ({ room := rm.land b.toNat }, 0, none)) = s.dev.setRoom r rm' := by
      rw [hidle]
      exact Dev.issue_unlogged hseed
    refine completes_of_run (f := fun d => d.issue r b.toNat ((d.room r).runKind b.toNat k {} 0 fun rm _ _ => ({ room := rm.land b.toNat }, 0, none)))
      ?_ hrun (Dev.setRoom_keep (.refl _ _) (by decide) r rm') ?_
    · rcases hk with rfl | rfl <;> rfl
    · dsimp only
      rw [s.dev.room_setRoom_same r rm']
      exact ⟨hissued, s.dev.setRoom_otherRooms r rm', hrest⟩

-- sends

theorem Room.issues_mono {rm : Room} {b i n m : Nat} {k : BitVec 3} (h : Issues rm b i n k) (hm : m ≤ n) : Issues rm b i m k :=
  ⟨h.now, h.kind, h.clean, le_trans (Nat.add_le_add_left hm _) h.budget⟩

/-- A word for a slot that holds none for the beat takes it (R47). -/
theorem Room.writeSlot_empty {rm : Room} {n : Nat} (h : (rm.slot n).cur = none) (w : WinWord) : rm.writeSlot n false w =
    rm.setSlot n { rm.slot n with cur := some w, good := if w.absent then (rm.slot n).good else some w.word } := by
  unfold Room.writeSlot
  simp only [Bool.false_eq_true, if_false, h, Bool.not_true]

/-- Charges within the envelope add up (R123, R131). -/
theorem Room.charge_charged {rm : Room} {step m n : Nat} (h : Tbl.get 0 rm.tokens (step / 64) + (m + n) ≤ rm.envelope.getD (step / 64) 0) :
    (rm.charged step m).charge step n = ((rm.charged step m).charged step n, false) := by
  refine Room.charge_within ?_
  show Tbl.get 0 (Tbl.set 0 rm.tokens (step / 64) (Tbl.get 0 rm.tokens (step / 64) + m)) (step / 64) + n ≤ rm.envelope.getD (step / 64) 0
  rw [Tbl.get_set_same, Nat.add_assoc]
  exact h

/-- Where the envelope holds a SEND's tokens, a word for the own window is placed in its slot (R45, R123). -/
theorem Room.placeSend_window {rm : Room} {step : Nat} {o : SendOut} (hkind : o.kind = 0)
    (h : Tbl.get 0 rm.tokens (step / 64) + (sendTokens o.cls - 1) ≤ rm.envelope.getD (step / 64) 0) (roomNo : Nat) (view : StreamView) :
    rm.placeSend step roomNo view o = ((rm.charged step (sendTokens o.cls - 1)).writeSlot (o.index % 1024) false
      { word := o.word, absent := o.absent, level := rm.place, step, src := roomNo }, none, false) := by
  unfold Room.placeSend
  rw [Room.charge_within h, hkind]
  rfl

/-- A SEND that completes its line is charged the line's tokens too (R123). -/
theorem Room.chargeLine_within {rm : Room} {step m : Nat} (h : Tbl.get 0 rm.tokens (step / 64) + (m + 120) ≤ rm.envelope.getD (step / 64) 0) (full : Bool) :
    ∃ tokens, (if full = true then (rm.charged step m).charge step 120 else (rm.charged step m, false)) = ({ rm with tokens }, false) := by
  cases full with
  | false => exact ⟨(rm.charged step m).tokens, rfl⟩
  | true =>
    rw [Room.charge_charged h]
    exact ⟨((rm.charged step m).charged step 120).tokens, rfl⟩

/-- A room that has sent word `o` to a hub unit or another room: what it has sent to streams and drains takes it (R123). -/
def Room.noteSent (rm : Room) (o : SendOut) : Room :=
  { rm with
    sentStream := if o.kind = 3 then Tbl.set none rm.sentStream (o.tgt * 65536 + o.index) (some o.word) else rm.sentStream
    sentDrain := if o.kind = 4 then Tbl.set none rm.sentDrain (o.tgt * 65536 + o.index) (some o.word) else rm.sentDrain }

/-- Where the envelope holds a SEND's tokens and those of a line, a word for another unit overruns nothing and goes out (R123). -/
theorem Room.placeSend_out {rm : Room} {step : Nat} {o : SendOut} (hkind : o.kind ≠ 0) (h : Tbl.get 0 rm.tokens (step / 64) +
      (sendTokens o.cls - 1 + if o.kind = 3 then 120 else 0) ≤ rm.envelope.getD (step / 64) 0) (roomNo : Nat) (view : StreamView) :
    ∃ tokens, rm.placeSend step roomNo view o = (Room.noteSent { rm with tokens } o, some o, false) := by
  have hclass : rm.charge step (sendTokens o.cls - 1) = (rm.charged step (sendTokens o.cls - 1), false) :=
    Room.charge_within (le_trans (by omega) h)
  unfold Room.placeSend Room.noteSent
  rw [hclass]
  dsimp only
  split
  case h_1 h0 => exact absurd h0 hkind
  case h_2 h3 =>
    rw [h3, if_pos rfl] at h
    obtain ⟨tokens, hline⟩ := Room.chargeLine_within h (completesLine (rm.charged step (sendTokens o.cls - 1)).sentStream view o.tgt o.index)
    rw [h3, hline]
    exact ⟨tokens, rfl⟩
  case h_3 h4 =>
    rw [h4]
    exact ⟨(rm.charged step (sendTokens o.cls - 1)).tokens, rfl⟩
  case h_4 h3 h4 =>
    rw [if_neg h3, if_neg h4]
    exact ⟨(rm.charged step (sendTokens o.cls - 1)).tokens, rfl⟩

/-- The send-table entry of an instruction's DST (R43). -/
def Room.sendEntry (rm : Room) (x : Insn) : BitVec 64 := Tbl.get 0 rm.sends x.dst.toNat

/-- The word that the SEND of BP b at index i sends to its entry. -/
def Room.sentWord (rm : Room) (beat : Beat) (b i : Nat) : SendOut :=
  let e := rm.sendEntry (rm.insnAt b i)
  { kind := (e.extractLsb' 61 3).toNat, cls := (e.extractLsb' 59 2).toNat, tgt := (e.extractLsb' 48 8).toNat, index := (e.extractLsb' 16 16).toNat,
    gen := e.extractLsb' 8 8, word := rm.result beat b i, absent := rm.thresh }

/-- The SEND of BP b at index i charges this (R123). -/
def Room.sendCost (rm : Room) (b i : Nat) : Nat :=
  let e := rm.sendEntry (rm.insnAt b i)
  sendTokens (e.extractLsb' 59 2).toNat + if (e.extractLsb' 61 3).toNat = 3 then 120 else 0

theorem sendTokens_pos (cls : Nat) : 1 ≤ sendTokens cls := by
  unfold sendTokens
  split <;> decide

/-- A room whose SEND has been charged its first token and has read its operands, with the MRD word before it landed. -/
def Room.sending (rm : Room) (beat : Beat) (b i : Nat) : Room := (rm.reading i 1 (rm.evalReads beat b i)).land b

/-- What a SEND's placement leaves is what the issue records. -/
theorem Room.send_eq {rm : Room} {b i : Nat} (h : Issues rm b i (rm.sendCost b i) 1) (hvalid : (rm.sendEntry (rm.insnAt b i)).getLsbD 0 = true)
    {beat : Beat} {roomNo : Nat} {view : StreamView} {rm' : Room} {out : Option SendOut}
    (hplace : (rm.sending beat b i).placeSend (rm.issueStep i) roomNo view (rm.sentWord beat b i) = (rm', out, false)) (free : Nat) :
    rm.send roomNo view beat free b {} = { room := rm'.issue b (rm.result beat b i) none, send := out } := by
  have hds : rm.ueDs = [] := Room.ueDs_of_issues h
  have hone : Issues rm b i 1 1 := Room.issues_mono h (le_trans (sendTokens_pos _) (Nat.le_add_right _ _))
  have hrest := (Room.land_put (Room.ueDs_reading hone (rm.evalReads beat b i)) b).rest
  have hparse : parseSend (Tbl.get 0 (rm.sending beat b i).sends (rm.insnAt b i).dst.toNat) (rm.result beat b i) (rm.sending beat b i).thresh =
      some (rm.sentWord beat b i) := by
    unfold Room.sending
    rw [hrest]
    exact if_pos hvalid
  have hstep : (rm.sending beat b i).issueStep i = rm.issueStep i := by
    unfold Room.sending
    rw [hrest]
    rfl
  rw [← hstep] at hplace
  unfold Room.send
  rw [Room.runKind_issues hone, Room.dataCheck_clean (rm := rm.charged _ _) hds]
  dsimp -zeta only
  rw [Room.evaluate_clean (rm := rm.charged _ _) hds]
  dsimp -zeta only
  extract_lets +onlyGivenNames L
  have hL : L = rm.sending beat b i := rfl
  generalize hq : laneOp (rm.insnAt b i).lop (rm.insnAt b i).larg _ = q
  obtain rfl : rm.result beat b i = q := hq
  rw [hL, hparse]
  dsimp only
  rw [hplace]
  rfl

theorem Room.sending_put {rm : Room} {b i n : Nat} {k : BitVec 3} (h : Issues rm b i n k) (beat : Beat) :
    (rm.reading i 1 (rm.evalReads beat b i)).BpPut (rm.sending beat b i) b ((rm.bp b).landed rm.ahead) :=
  Room.land_put (rm := rm.reading i 1 _) (show rm.ueDs = [] from Room.ueDs_of_issues h) b

/-- What is left of the window's tokens holds the rest of a SEND's cost. -/
theorem Room.sending_budget {rm : Room} {b i : Nat} (h : Issues rm b i (rm.sendCost b i) 1) (beat : Beat) :
    Tbl.get 0 (rm.sending beat b i).tokens (rm.issueStep i / 64) +
      (sendTokens (rm.sentWord beat b i).cls - 1 + if (rm.sentWord beat b i).kind = 3 then 120 else 0) ≤
      (rm.sending beat b i).envelope.getD (rm.issueStep i / 64) 0 := by
  have htokens : Tbl.get 0 (rm.sending beat b i).tokens (rm.issueStep i / 64) = Tbl.get 0 rm.tokens (rm.issueStep i / 64) + 1 := by
    rw [(Room.sending_put h beat).rest]
    exact Tbl.get_set_same (0 : Nat) rm.tokens _ (Tbl.get 0 rm.tokens (rm.issueStep i / 64) + 1)
  have henvelope : (rm.sending beat b i).envelope = rm.envelope := by
    rw [(Room.sending_put h beat).rest]
    rfl
  have hpos := sendTokens_pos (rm.sentWord beat b i).cls
  have hbudget : _ + (sendTokens (rm.sentWord beat b i).cls + if (rm.sentWord beat b i).kind = 3 then 120 else 0) ≤ _ := h.budget
  rw [htokens, henvelope]
  omega

/-- A room whose SEND has placed word `o` in its own window. -/
def Room.windowed (rm : Room) (step roomNo : Nat) (o : SendOut) : Room :=
  rm.setSlot (o.index % 1024) { rm.slot (o.index % 1024) with
    cur := some { word := o.word, absent := o.absent, level := rm.place, step, src := roomNo }
    good := if o.absent then (rm.slot (o.index % 1024)).good else some o.word }

/-- What a SEND into the room's own window leaves of the room. -/
theorem Room.send_window {rm : Room} {b i : Nat} {beat : Beat} (h : Issues rm b i (rm.sendCost b i) 1)
    (hvalid : (rm.sendEntry (rm.insnAt b i)).getLsbD 0 = true) (hkind : (rm.sentWord beat b i).kind = 0)
    (hempty : (rm.slot ((rm.sentWord beat b i).index % 1024)).cur = none) (roomNo : Nat) (view : StreamView) (free : Nat) : ∃ rm' : Room,
    rm.send roomNo view beat free b {} = { room := rm' } ∧
    HasIssued rm rm' b (rm.result beat b i) { (rm.bp b).landed rm.ahead with landing := none } ∧
    rm' = { rm.windowed (rm.issueStep i) roomNo (rm.sentWord beat b i) with
      bps := rm'.bps, idx := rm'.idx, done := rm'.done, cnt := rm'.cnt, missed := rm'.missed, tokens := rm'.tokens } := by
  let o := rm.sentWord beat b i
  let step := rm.issueStep i
  let rd := rm.reading i 1 (rm.evalReads beat b i)
  let m := sendTokens o.cls - 1
  have hsending := Room.sending_put h beat
  have hslot : (((rm.sending beat b i).charged step m).slot (o.index % 1024)).cur = none := by
    rw [hsending.rest]
    exact hempty
  have hplace : (rm.sending beat b i).placeSend step roomNo view o = (((rm.sending beat b i).charged step m).windowed step roomNo o, none, false) := by
    rw [Room.placeSend_window hkind (le_trans (Nat.add_le_add_left (Nat.le_add_right _ _) _) (Room.sending_budget h beat)), Room.writeSlot_empty hslot]
    rfl
  have hput : ((rd.charged step m).windowed step roomNo o).BpPut (((rm.sending beat b i).charged step m).windowed step roomNo o) b
      ((rm.bp b).landed rm.ahead) := by
    refine ⟨hsending.own, hsending.others, ?_⟩
    rw [hsending.rest]
    rfl
  have hissued := hput.hasIssued (Bp.landed_hist ..) (Bp.landed_issued ..) (rm.result beat b i) none
  exact ⟨_, Room.send_eq h hvalid hplace free, Room.hasIssued_of_same hissued rfl rfl rfl, by rw [hput.issue_rest]; rfl⟩

/-- What a SEND to another unit leaves of the room. -/
theorem Room.send_out {rm : Room} {b i : Nat} {beat : Beat} (h : Issues rm b i (rm.sendCost b i) 1)
    (hvalid : (rm.sendEntry (rm.insnAt b i)).getLsbD 0 = true) (hkind : (rm.sentWord beat b i).kind ≠ 0)
    (roomNo : Nat) (view : StreamView) (free : Nat) : ∃ rm' : Room,
    rm.send roomNo view beat free b {} = { room := rm', send := some (rm.sentWord beat b i) } ∧
    HasIssued rm rm' b (rm.result beat b i) { (rm.bp b).landed rm.ahead with landing := none } ∧
    rm' = { rm.noteSent (rm.sentWord beat b i) with
      bps := rm'.bps, idx := rm'.idx, done := rm'.done, cnt := rm'.cnt, missed := rm'.missed, tokens := rm'.tokens } := by
  let o := rm.sentWord beat b i
  let rd := rm.reading i 1 (rm.evalReads beat b i)
  have hsending := Room.sending_put h beat
  obtain ⟨tokens, hplace⟩ := Room.placeSend_out hkind (Room.sending_budget h beat) roomNo view
  have hput : (Room.noteSent { rd with tokens } o).BpPut (Room.noteSent { rm.sending beat b i with tokens } o) b ((rm.bp b).landed rm.ahead) := by
    refine ⟨hsending.own, hsending.others, ?_⟩
    rw [hsending.rest]
    rfl
  have hissued := hput.hasIssued (Bp.landed_hist ..) (Bp.landed_issued ..) (rm.result beat b i) none
  exact ⟨_, Room.send_eq h hvalid hplace free, Room.hasIssued_of_same hissued rfl rfl rfl, by rw [hput.issue_rest]; rfl⟩

-- a word on its way

/-- The kind of the packet that carries a SEND's word, and where it goes (R43, R138). -/
def SendOut.pktKind (o : SendOut) : PktKind := match o.kind with | 1 => .window | 2 => .remote | 3 => .stream | _ => .drain
def SendOut.node (o : SendOut) : Node := match o.kind with | 1 => .room (BitVec.ofNat 8 o.tgt) | 2 => .hub 4 | 3 => .hub 2 | _ => .hub 3

/-- The packet of a SEND of a room. -/
def Dev.packetOf (d : Dev) (r : RoomId) (rm : Room) (o : SendOut) : Packet :=
  { src := .room r, dst := o.node, kind := o.pktKind, tgt := if o.kind = 1 then 0 else o.tgt, gen := o.gen, func := rm.func, set := rm.set, rep := rm.rep,
    vroom := rm.vroom, beat := d.time.n, att := rm.att, level := rm.place, waits := d.net.heldOn (.room r) o.node }

theorem Dev.sendOut_packed {d : Dev} {r : RoomId} {o : SendOut} (h : (d.func? (d.room r).func).isSome = true) : d.sendOut r o =
    d.putNet { d.net with xch := packWord (d.packetOf r (d.room r) o) { idx := o.index, word := o.word, absent := o.absent } d.net.xch } := by
  obtain ⟨f, hf⟩ := Option.isSome_iff_exists.1 h
  unfold Dev.sendOut
  simp only [hf]
  obtain ⟨kind, _, _, _, _, _, _⟩ := o
  rcases kind with _ | _ | _ | _ | kind <;> rfl

/-- An issue whose word leaves the room, with nothing for a migration's log. -/
theorem Dev.issue_sends {d : Dev} {r : RoomId} {b : Nat} {rm' : Room} {o : SendOut} (hseed : seedItem (d.room r) rm' b = none) :
    d.issue r b { room := rm', send := some o } = (d.setRoom r rm').sendOut r o := by
  unfold Dev.issue
  rw [hseed]
  rfl

/-- Settles O6: the word goes to the room's window by `Room.send_window`, or out of the room by `Room.send_out`. -/
theorem sendPlacesItsWord : Obligations.SendPlacesItsWord := by
  intro s r b i rm x e kind tgt index w q issued h hvalid
  have hseed {rm' : Room} (hwq : rm'.wq = rm.wq) (hahead : rm'.wqAhead = rm.wqAhead) : seedItem rm rm' b.toNat = none :=
    seedItem_of_kind h.now h.kind (by decide) (by decide) (by decide) hwq hahead
  refine ⟨fun hkind hempty => ?window, fun hkind hfunc => ?out⟩
  case window =>
    obtain ⟨rm', hsend, hissued, hrest⟩ := Room.send_window (beat := s.dev.time.n) h hvalid hkind hempty r.toNat (s.dev.streamView r) s.dev.free
    have hrun : s.dev.issue r b.toNat (rm.send r.toNat (s.dev.streamView r) s.dev.time.n s.dev.free b.toNat {}) = s.dev.setRoom r rm' := by
      rw [hsend]
      exact Dev.issue_unlogged (hseed (by rw [hrest]; rfl) (by rw [hrest]; rfl))
    refine completes_of_run (f := fun d => d.issue r b.toNat ((d.room r).send r.toNat (d.streamView r) d.time.n d.free b.toNat {})) rfl hrun
      (Dev.setRoom_keep (.refl _ _) (by decide) r rm') ?_
    dsimp only
    rw [s.dev.room_setRoom_same r rm']
    exact ⟨hissued, s.dev.setRoom_otherRooms r rm', by rw [hrest]; rfl, by rw [hrest]; rfl⟩
  case out =>
    let o := rm.sentWord s.dev.time.n b.toNat i
    obtain ⟨rm', hsend, hissued, hrest⟩ := Room.send_out (beat := s.dev.time.n) h hvalid hkind r.toNat (s.dev.streamView r) s.dev.free
    let d := s.dev.setRoom r rm'
    have hroom : d.room r = rm' := s.dev.room_setRoom_same r rm'
    have hfunc' : (d.func? (d.room r).func).isSome = true := by
      rw [hroom, hrest]
      exact hfunc
    have hrun : s.dev.issue r b.toNat (rm.send r.toNat (s.dev.streamView r) s.dev.time.n s.dev.free b.toNat {}) =
        d.putNet { s.dev.net with xch := packWord (s.dev.packetOf r rm' o) { idx := o.index, word := o.word, absent := o.absent } s.dev.net.xch } := by
      rw [hsend, Dev.issue_sends (hseed (by rw [hrest]; rfl) (by rw [hrest]; rfl)), Dev.sendOut_packed hfunc', hroom]
      rfl
    refine completes_of_run (f := fun d => d.issue r b.toNat ((d.room r).send r.toNat (d.streamView r) d.time.n d.free b.toNat {})) rfl hrun
      (Dev.putNet_keep (Dev.setRoom_keep (.refl _ _) (by decide) r rm') (by decide) _) ?_
    have hpacket : s.dev.packetOf r rm' o = s.dev.packetOf r rm o := by rw [hrest]; rfl
    have hroom' : (d.putNet { s.dev.net with
        xch := packWord (s.dev.packetOf r rm' o) { idx := o.index, word := o.word, absent := o.absent } s.dev.net.xch }).room r = rm' := hroom
    dsimp only
    rw [hroom', hpacket]
    exact ⟨hissued, s.dev.setRoom_otherRooms r rm', by rw [hrest]; rfl, by rw [hrest]; rfl, by rw [hrest]; rfl, rfl⟩

end Sys2Proof.Machine
end

section
/-! Signed commands: what a command that passes or fails its checks does, and RETURN's count -/

namespace Sys2Proof.Machine
open Sys2Proof

/-- A command changes parts of its list alone: the frame that `Completes` asks for. -/
theorem completes_parts {c : Instr} {s : State} {f : Dev → Dev} {d : Dev} {Q : Dev → Prop} (hc : exec c s = run true f s) (hf : f s.dev = d) (hQ : Q d) :
    Completes c s c.parts Q := by
  have hnext : exec c s = .next { s with dev := d } := hc.trans (hf ▸ rfl)
  exact ⟨d, hnext, (exec_next hnext).1.only, hQ⟩

-- signed commands

/-- A signed command of code `code` has been started and the random source gives a nonce: it runs now (R428, R439). -/
structure Strong.Asked (g : Strong) (code : Nat) : Prop where
  busy : g.cmdBusy = true
  rng : g.rngok = true
  code : leAt g.cmdRun 4 1 = code

section
variable {d : Dev} {code : Nat} {ok : SigOk} {f : Dev → Bytes → Dev}

theorem Dev.runCmd_refused (h : d.strong.Asked code) (hr : d.cmdCheck ok ≠ 0) : d.runCmd code ok f = d.cmdDone (d.cmdCheck ok) := by
  unfold Dev.runCmd
  rw [if_neg (by simp [h.busy, h.rng, h.code])]
  exact if_pos hr

theorem Dev.runCmd_acts (h : d.strong.Asked code) (hr : d.cmdCheck ok = 0) : d.runCmd code ok f = f d (slice d.strong.cmdRun 64 (cmdBodyLen code)) := by
  unfold Dev.runCmd
  rw [if_neg (by simp [h.busy, h.rng, h.code])]
  exact if_neg (not_not_intro hr)

theorem Dev.runCmd_waits (h : ¬ d.strong.Asked code) : d.runCmd code ok f = d := by
  unfold Dev.runCmd
  refine if_pos ?_
  by_contra hn
  simp only [not_or, Bool.not_eq_true', Bool.not_eq_false, not_not] at hn
  exact h ⟨hn.1, hn.2.1, hn.2.2⟩

end

/-- A command that has completed with result `r` leaves the strongroom's record of it, and a new nonce (R439). -/
def Strong.answered (g : Strong) (r : Nat) (nonce : BitVec 128) : Strong := { g with cmdBusy := false, cmdResult := BitVec.ofNat 8 r, cmdNonce := nonce }

theorem Dev.cmdDone_eq (d : Dev) (r : Nat) : d.cmdDone r =
    ((d.putStrong (d.strong.answered r ((Config.random d.free).setWidth 128))).take 1).raise 641 := rfl

theorem Dev.cmdDone_strong (d : Dev) (r : Nat) : (d.cmdDone r).strong = d.strong.answered r ((Config.random d.free).setWidth 128) := rfl

theorem Dev.cmdDone_raised (d : Dev) (r : Nat) : Raised d (d.cmdDone r) 641 := ⟨_, rfl, rfl, rfl⟩

/-- The checks before a command's effect answer a result below 7 (R439). -/
theorem Dev.cmdCheck_lt (d : Dev) (ok : SigOk) : d.cmdCheck ok < 7 := by
  unfold Dev.cmdCheck
  dsimp only
  split
  · decide
  · split_ifs <;> decide

/-- A command that passes its checks is given in a life that admits it, and keeps its rule (R439). -/
theorem Dev.cmdCheck_passed {d : Dev} {code : Nat} {ok : SigOk} (h : d.strong.Asked code) (hr : d.cmdCheck ok = 0) :
    cmdFrom code d.strong.life = true ∧
      d.cmdRuleBad code (leAt d.strong.cmdRun 6 1) (slice d.strong.cmdRun 64 (cmdBodyLen code)) = false :=
  h.code ▸ Dev.cmdCheck_zero hr

-- RETURN

theorem cmdFrom_return {l : Life} (h : cmdFrom 3 l = true) : l = .deployed := by
  revert h
  cases l <;> decide

/-- With all 16 cycle fuses blown RETURN breaks its rule (R438). -/
theorem Dev.cmdCheck_return_spent {d : Dev} {ok : SigOk} (h : d.strong.Asked 3) (hc : 16 ≤ d.strong.cycles.toNat) : d.cmdCheck ok ≠ 0 :=
  fun hr => Dev.returnRule (Dev.cmdCheck_passed h hr).2 hc

theorem Dev.lifeTo_life (d : Dev) (l : Life) : (d.lifeTo l).strong.life = l := rfl

/-- STRONG_LC holds CYCLES in bits 28 to 24 (R443). -/
theorem cycles_field (life : Nat) (c : BitVec 5) (b : Bool) :
    (BitVec.ofNat 32 (life * 2 ^ 29 + c.toNat * 2 ^ 24 + bit b 23)).extractLsb' 24 5 = c := by
  apply BitVec.eq_of_toNat_eq
  have hb : bit b 23 < 2 ^ 24 := by cases b <;> decide
  have hc := c.isLt
  rw [BitVec.extractLsb'_toNat, BitVec.toNat_ofNat, Nat.shiftRight_eq_div_pow]
  omega

/-- A command whose effect leaves the life as it is. -/
theorem Dev.runCmd_life {d : Dev} {code : Nat} {ok : SigOk} {f : Dev → Bytes → Dev} (hf : ∀ bs, d.cmdCheck ok = 0 → d.strong.Asked code → (f d bs).strong.life = d.strong.life) :
    (d.runCmd code ok f).strong.life = d.strong.life := by
  by_cases h : d.strong.Asked code
  · by_cases hr : d.cmdCheck ok = 0
    · rw [Dev.runCmd_acts h hr]
      exact hf _ hr h
    · rw [Dev.runCmd_refused h hr]
      rfl
  · rw [Dev.runCmd_waits h]

/-- A command that is not given in the present life leaves it as it is. -/
theorem Dev.runCmd_life_barred {d : Dev} {code : Nat} {ok : SigOk} {f : Dev → Bytes → Dev} (h : cmdFrom code d.strong.life = false) :
    (d.runCmd code ok f).strong.life = d.strong.life :=
  Dev.runCmd_life fun _ hr hasked => absurd (Dev.cmdCheck_passed hasked hr).1 (ne_true_of_eq_false h)

theorem next_dev {c : Instr} {s t : State} {f : Dev → Dev} (hc : exec c s = run true f s) (h : exec c s = .next t) : t.dev = f s.dev := by
  rw [hc] at h
  cases h
  rfl

/-- Of the signed commands on a DEPLOYED device whose cycle fuses are all blown, DECOMMISSION alone changes its life (R438, R439). -/
theorem life_of_deployed_spent {s t : State} {ok : SigOk} (hlife : s.dev.strong.life = .deployed) (hspent : 16 ≤ s.dev.strong.cycles.toNat) {c : Instr}
    (hc : c ∈ [Instr.provision ok, .deploy ok, .return_ ok, .decommission ok, .keyRevoke ok, .arbAdvance ok, .debugUnlock ok]) (h : exec c s = .next t) :
    t.dev.strong.life = .deployed ∨ t.dev.strong.life = .decommissioned ∧ c = .decommission ok := by
  have barred {code : Nat} {f : Dev → Bytes → Dev} (hb : cmdFrom code .deployed = false) : (s.dev.runCmd code ok f).strong.life = .deployed :=
    (Dev.runCmd_life_barred (hlife ▸ hb)).trans hlife
  have plain {code : Nat} {f : Dev → Bytes → Dev} (hf : ∀ bs, (f s.dev bs).strong.life = s.dev.strong.life) :
      (s.dev.runCmd code ok f).strong.life = .deployed := (Dev.runCmd_life fun bs _ _ => hf bs).trans hlife
  simp only [List.mem_cons, List.not_mem_nil, or_false] at hc
  rcases hc with rfl | rfl | rfl | rfl | rfl | rfl | rfl
  · exact .inl (next_dev rfl h ▸ barred rfl)
  · exact .inl (next_dev rfl h ▸ barred rfl)
  · refine .inl (next_dev rfl h ▸ (Dev.runCmd_life fun _ hr hasked => ?_).trans hlife)
    exact absurd hr (Dev.cmdCheck_return_spent hasked hspent)
  · rw [next_dev rfl h]
    by_cases hasked : s.dev.strong.Asked 4
    · by_cases hr : s.dev.cmdCheck ok = 0
      · exact .inr ⟨by rw [Dev.runCmd_acts hasked hr]; rfl, rfl⟩
      · exact .inl (by rw [Dev.runCmd_refused hasked hr]; exact hlife)
    · exact .inl (by rw [Dev.runCmd_waits hasked]; exact hlife)
  · exact .inl (next_dev rfl h ▸ plain fun _ => rfl)
  · refine .inl (next_dev rfl h ▸ plain fun bs => ?_)
    show (if leAt bs 0 1 = 0 then _ else _ : Strong).life = _
    split <;> rfl
  · exact .inl (next_dev rfl h ▸ plain fun _ => rfl)

/-- Settles O60: a RETURN that passes its checks blows one more fuse, and with all of them blown its rule refuses it. -/
theorem returnsAreCounted : Obligations.ReturnsAreCounted := by
  intro s ok g asked
  refine ⟨fun ⟨hbusy, hrng, hcode⟩ hr => ?blows, ⟨_, rfl, cycles_field _ _ _⟩, fun ⟨hbusy, hrng, hcode⟩ hspent => ?refused,
    fun hlife hspent c t hc h => life_of_deployed_spent hlife hspent hc h⟩
  case blows =>
    have hasked : s.dev.strong.Asked 3 := ⟨hbusy, hrng, hcode⟩
    obtain ⟨hfrom, hrule⟩ := Dev.cmdCheck_passed hasked hr
    have hlt : g.cycles.toNat < 16 := Nat.not_le.1 (Dev.returnRule hrule)
    refine ⟨cmdFrom_return hfrom, hlt, completes_parts rfl (Dev.runCmd_acts hasked hr) ⟨rfl, ?_⟩⟩
    show (g.cycles + 1).toNat = _
    rw [BitVec.toNat_add]
    exact Nat.mod_eq_of_lt (by simp; omega)
  case refused =>
    have hasked : s.dev.strong.Asked 3 := ⟨hbusy, hrng, hcode⟩
    have hr := Dev.cmdCheck_return_spent (ok := ok) hasked hspent
    exact ⟨_, hr, completes_of_run rfl (Dev.runCmd_refused hasked hr) (Dev.cmdDone_keep (.refl _ _) (by decide) (by decide) (by decide) _)
      ⟨rfl, Dev.cmdCheck_lt _ _, rfl, rfl, Dev.cmdDone_raised _ _⟩⟩

end Sys2Proof.Machine
end

section
/-! Device life, tamper sensors and the power of shared SRAM's banks (15_strongroom.md R433 to R440): the wipe and the switch of one bank -/

namespace Sys2Proof.Machine
open Sys2Proof

-- a wipe (R435)

/-- A wipe after the fuses that `f` holds are blown: the device is as after a cold reset, with the wipe on record (R435, R462). -/
theorem Dev.wipe_coldAfter (d : Dev) (f : Strong) (cause : Nat) : ColdAfter d (Dev.wipe { d with strong := f } cause) (f.wiped cause) d.power where
  parts x hx := by
    cases x
    case free | out | ident | flash | record | fwres | tap | strong | power => exact absurd (listed rfl) hx
    all_goals rfl
  kept x hx := by
    simp only [List.mem_cons, List.not_mem_nil, or_false] at hx
    rcases hx with rfl | rfl | rfl | rfl | rfl | rfl <;> rfl
  strong := rfl
  power := rfl

/-- A command that blows fuses, of which `f` is the record, wipes the device (R437). -/
theorem completes_wiping {c : Instr} {s : State} {g : Dev → Dev} {f : Strong} {cause : Nat} (hc : exec c s = run true g s)
    (hg : g s.dev = Dev.wipe { s.dev with strong := f } cause) : Completes c s c.parts fun d => ColdAfter s.dev d (f.wiped cause) s.dev.power :=
  completes_parts hc hg (s.dev.wipe_coldAfter f cause)

-- power of shared SRAM's banks (R434)

/-- One bank is switched on or off by a write of STRONG_SRAM_PWR, where `used` says whether it is in use. -/
def Sram.switch (used on : Bool) (b : Nat) (m : Sram) : Sram :=
  if on = m.pwr.getLsbD b ∨ (!on ∧ used) then m
  else if on then { m with pwr := m.pwr ||| (1 : BitVec 64) <<< b, clearing := m.clearing ||| (1 : BitVec 64) <<< b, mem := Memory.clearRange m.mem (b * 2 ^ 20) (2 ^ 20) }
  else { m with pwr := m.pwr &&& ~~~((1 : BitVec 64) <<< b), clearing := m.clearing &&& ~~~((1 : BitVec 64) <<< b) }

/-- Banks of a list are switched one after another. -/
def Sram.switches (used on : Nat → Bool) (l : List Nat) (m : Sram) : Sram := l.foldl (fun m b => m.switch (used b) (on b) b) m

/-- The banks that a write of STRONG_SRAM_PWR_LO, or of _HI, names. -/
def pwrBanks (hi : Bool) : List Nat := if hi then (List.range 24).map (32 + ·) else List.range 32

/-- A bank is on after a switch where it is to be on, or is on and in use (R434). -/
def Sram.onAfter (used on : Bool) (b : Nat) (m : Sram) : Bool := on || m.pwr.getLsbD b && used

/-- The switch turns a bank on again, which clears it (R434). -/
def Sram.freshAfter (used on : Bool) (b : Nat) (m : Sram) : Bool := m.onAfter used on b && !m.pwr.getLsbD b

theorem getLsbD_one_shiftLeft {b c : Nat} (hc : c < 64) : (1#64 <<< b).getLsbD c = decide (c = b) := by
  rw [← BitVec.twoPow_eq, BitVec.getLsbD_twoPow, ← Bool.decide_and, decide_eq_decide]
  omega

theorem getLsbD_or_one {x : BitVec 64} {b c : Nat} (hc : c < 64) : (x ||| 1#64 <<< b).getLsbD c = (x.getLsbD c || decide (c = b)) := by
  rw [BitVec.getLsbD_or, getLsbD_one_shiftLeft hc]

theorem getLsbD_and_not_one {x : BitVec 64} {b c : Nat} (hc : c < 64) : (x &&& ~~~(1#64 <<< b)).getLsbD c = (x.getLsbD c && !decide (c = b)) := by
  rw [BitVec.getLsbD_and, BitVec.getLsbD_not, getLsbD_one_shiftLeft hc, decide_eq_true hc, Bool.true_and]

section
variable (used on : Bool) (b : Nat) (m : Sram)

theorem Sram.switch_pwr {c : Nat} (hc : c < 64) :
    (m.switch used on b).pwr.getLsbD c = if c = b then m.onAfter used on b else m.pwr.getLsbD c := by
  unfold Sram.switch Sram.onAfter
  by_cases hcb : c = b
  · subst hcb
    cases on <;> cases used <;> cases hp : m.pwr.getLsbD c <;> simp [hp, getLsbD_or_one hc, getLsbD_and_not_one hc, -BitVec.getLsbD_eq_getElem, -BitVec.getLsbD_or, -BitVec.getLsbD_and]
  · split_ifs <;> simp [hcb, getLsbD_or_one hc, getLsbD_and_not_one hc, -BitVec.getLsbD_eq_getElem, -BitVec.getLsbD_or, -BitVec.getLsbD_and]

theorem Sram.switch_clearing {c : Nat} (hc : c < 64) : (m.switch used on b).clearing.getLsbD c =
    if c = b then m.freshAfter used on b || m.clearing.getLsbD b && (m.onAfter used on b || !m.pwr.getLsbD b) else m.clearing.getLsbD c := by
  unfold Sram.switch Sram.freshAfter Sram.onAfter
  by_cases hcb : c = b
  · subst hcb
    cases on <;> cases used <;> cases m.pwr.getLsbD c <;> simp [getLsbD_or_one hc, getLsbD_and_not_one hc, -BitVec.getLsbD_eq_getElem, -BitVec.getLsbD_or, -BitVec.getLsbD_and]
  · split_ifs <;> simp [hcb, getLsbD_or_one hc, getLsbD_and_not_one hc, -BitVec.getLsbD_eq_getElem, -BitVec.getLsbD_or, -BitVec.getLsbD_and]

theorem Sram.switch_mem (a : Nat) :
    Memory.read (m.switch used on b).mem a = if a / 2 ^ 20 = b ∧ m.freshAfter used on b = true then 0 else Memory.read m.mem a := by
  have hbank : b * 2 ^ 20 ≤ a ∧ a < b * 2 ^ 20 + 2 ^ 20 ↔ a / 2 ^ 20 = b := by omega
  unfold Sram.switch Sram.freshAfter Sram.onAfter
  cases on <;> cases used <;> cases m.pwr.getLsbD b <;> simp [Memory.read_clearRange, hbank, -Nat.reducePow]

theorem Sram.switch_rest : m.switch used on b = { m with mem := (m.switch used on b).mem, pwr := (m.switch used on b).pwr, clearing := (m.switch used on b).clearing } := by
  unfold Sram.switch
  split_ifs <;> rfl

end

/-- The banks `mine` of `m₀` have been switched as `on` says. -/
structure Sram.Switched (used on mine : Nat → Bool) (m₀ m : Sram) : Prop where
  rest : m = { m₀ with mem := m.mem, pwr := m.pwr, clearing := m.clearing }
  pwr : ∀ b < 64, m.pwr.getLsbD b = if mine b = true then m₀.onAfter (used b) (on b) b else m₀.pwr.getLsbD b
  clearing : ∀ b < 64, m.clearing.getLsbD b =
    if mine b = true then m₀.freshAfter (used b) (on b) b || m₀.clearing.getLsbD b && (m₀.onAfter (used b) (on b) b || !m₀.pwr.getLsbD b) else m₀.clearing.getLsbD b
  mem : ∀ a, Memory.read m.mem a = if mine (a / 2 ^ 20) = true ∧ m₀.freshAfter (used (a / 2 ^ 20)) (on (a / 2 ^ 20)) (a / 2 ^ 20) = true then 0 else Memory.read m₀.mem a

theorem Sram.Switched.none {used on : Nat → Bool} (m : Sram) : Sram.Switched used on (fun _ => false) m m :=
  ⟨rfl, fun _ _ => rfl, fun _ _ => rfl, fun _ => rfl⟩

theorem Sram.Switched.switch {used on mine : Nat → Bool} {m₀ m : Sram} (h : Sram.Switched used on mine m₀ m) {b : Nat} (hb : mine b = false) (h64 : b < 64) :
    Sram.Switched used on (fun c => mine c || c == b) m₀ (m.switch (used b) (on b) b) := by
  have hpwr : m.pwr.getLsbD b = m₀.pwr.getLsbD b := by simp [h.pwr b h64, hb]
  have hclr : m.clearing.getLsbD b = m₀.clearing.getLsbD b := by simp [h.clearing b h64, hb]
  have hon : m.onAfter (used b) (on b) b = m₀.onAfter (used b) (on b) b := by unfold Sram.onAfter; rw [hpwr]
  have hfresh : m.freshAfter (used b) (on b) b = m₀.freshAfter (used b) (on b) b := by unfold Sram.freshAfter; rw [hpwr, hon]
  refine ⟨?_, fun c hc => ?_, fun c hc => ?_, fun a => ?_⟩
  · rw [m.switch_rest, h.rest]
  · rw [m.switch_pwr _ _ _ hc, hon, h.pwr c hc]
    by_cases hcb : c = b <;> simp [hcb]
  · rw [m.switch_clearing _ _ _ hc, hon, hfresh, hpwr, hclr, h.clearing c hc]
    by_cases hcb : c = b <;> simp [hcb]
  · rw [m.switch_mem, hfresh, h.mem a]
    by_cases hab : a / 2 ^ 20 = b <;> simp [hab, hb, -Nat.reducePow]

theorem Sram.Switched.switches {used on mine : Nat → Bool} {m₀ m : Sram} (l : List Nat) (h : Sram.Switched used on mine m₀ m) (hl : ∀ b ∈ l, mine b = false ∧ b < 64)
    (hnd : l.Nodup) : Sram.Switched used on (fun c => mine c || l.contains c) m₀ (Sram.switches used on l m) := by
  induction l generalizing mine m with
  | nil => simpa [Sram.switches] using h
  | cons b l ih =>
    obtain ⟨hbl, hnd⟩ := List.nodup_cons.1 hnd
    obtain ⟨hb, h64⟩ := hl b List.mem_cons_self
    have hrest : ∀ c ∈ l, (mine c || c == b) = false ∧ c < 64 := fun c hc => by
      obtain ⟨hm, hc64⟩ := hl c (List.mem_cons_of_mem _ hc)
      exact ⟨by simp [hm]; rintro rfl; exact hbl hc, hc64⟩
    have := ih (h.switch hb h64) hrest hnd
    have hset : (fun c => mine c || c == b || l.contains c) = fun c => mine c || (b :: l).contains c := by
      funext c
      rw [List.contains_cons, Bool.or_assoc, Bool.beq_comm]
    exact hset ▸ this

/-- A run of steps that each change shared SRAM alone. -/
theorem Dev.each_modSram {α : Type} {d : Dev} {l : List α} {f : Dev → α → Dev} {g : α → Sram → Sram}
    (h : ∀ a ∈ l, ∀ m, f (d.modSram fun _ => m) a = d.modSram fun _ => g a m) : d.each l f = d.modSram fun m => l.foldl (fun m a => g a m) m := by
  have hrun : ∀ m, (d.modSram fun _ => m).each l f = d.modSram fun _ => l.foldl (fun m a => g a m) m := by
    unfold Dev.each
    induction l with
    | nil => exact fun _ => rfl
    | cons a l ih =>
      intro m
      rw [List.foldl_cons, h a List.mem_cons_self m, ih fun b hb => h b (List.mem_cons_of_mem a hb)]
      rfl
  exact hrun d.strong.sram

/-- A write of STRONG_SRAM_PWR switches the banks that it names, each as `on` says. -/
theorem Dev.writeSramPwr_eq (d : Dev) (hi : Bool) (v : Word) (on : Nat → Bool) (hon : ∀ i < 32, v.getLsbD i = on (if hi then 32 + i else i)) :
    d.writeSramPwr hi v = d.modSram (Sram.switches d.bankInUse on (pwrBanks hi)) := by
  have hstep : ∀ i ∈ List.range (if hi then 24 else 32), v.getLsbD i = on (if hi then 32 + i else i) := fun i hi' =>
    hon i (Nat.lt_of_lt_of_le (List.mem_range.1 hi') (by cases hi <;> decide))
  refine (Dev.each_modSram (g := fun i m => m.switch (d.bankInUse (if hi then 32 + i else i)) (v.getLsbD i) (if hi then 32 + i else i)) fun i _ m => ?_).trans ?_
  · unfold Sram.switch
    dsimp only
    rw [apply_ite (fun m => d.modSram fun _ => m), apply_ite (fun m => d.modSram fun _ => m)]
    rfl
  · congr 1
    funext m
    unfold Sram.switches pwrBanks
    cases hi with
    | false => exact List.foldl_ext _ _ _ fun m i hi => by rw [hstep i hi]; rfl
    | true =>
      rw [if_pos rfl, if_pos rfl, List.foldl_map]
      exact List.foldl_ext _ _ _ fun m i hi => by rw [hstep i hi]; rfl

theorem contains_pwrBanks (hi : Bool) (b : Nat) : (pwrBanks hi).contains b = if hi then decide (32 ≤ b ∧ b < 56) else decide (b < 32) := by
  cases hi with
  | false => simp [pwrBanks]
  | true =>
    rw [Bool.eq_iff_iff]
    simp [pwrBanks]
    exact ⟨by rintro ⟨a, ha, rfl⟩; omega, fun ⟨h, h'⟩ => ⟨b - 32, by omega, by omega⟩⟩

theorem pwrBanks_nodup (hi : Bool) : (pwrBanks hi).Nodup := by
  cases hi <;> decide

/-- Shared SRAM after the low word `lo`, where one is held, and the high word. -/
theorem Sram.Switched.both (used on : Nat → Bool) (m : Sram) :
    Sram.Switched used on (fun b => decide (b < 56)) m (Sram.switches used on (pwrBanks true) (Sram.switches used on (pwrBanks false) m)) := by
  have hlow := (Sram.Switched.none (used := used) (on := on) m).switches (pwrBanks false) (by simp [pwrBanks]; omega) (pwrBanks_nodup _)
  have hhigh := hlow.switches (pwrBanks true) (by simp [pwrBanks]; omega) (pwrBanks_nodup _)
  have hset : (fun c => (false || (pwrBanks false).contains c) || (pwrBanks true).contains c) = fun b => decide (b < 56) := by
    funext c
    rw [contains_pwrBanks, contains_pwrBanks, Bool.eq_iff_iff]
    simp
    omega
  exact hset ▸ hhigh

theorem Sram.Switched.high (used on : Nat → Bool) (m : Sram) :
    Sram.Switched used on (fun b => decide (32 ≤ b ∧ b < 56)) m (Sram.switches used on (pwrBanks true) m) := by
  have hhigh := (Sram.Switched.none (used := used) (on := on) m).switches (pwrBanks true) (by simp [pwrBanks]; omega) (pwrBanks_nodup _)
  have hset : (fun c => false || (pwrBanks true).contains c) = fun b => decide (32 ≤ b ∧ b < 56) := by
    funext c
    rw [contains_pwrBanks]
    rfl
  exact hset ▸ hhigh

section
variable {d : Dev} {q : Requester} {v : Word} (hq : d.isPf q = true) (hc : d.power.cold = false) (ho : d.onlyBlock = none)
include hq hc ho

/-- STRONG_SRAM_PWR_LO is held until _HI is written (R448). -/
theorem Dev.regWrite_sramPwr_low : d.regWrite q 0xE000C4 v = d.modReq q fun x => { x with wrTag := some 0xE000C4, wrVal := v } :=
  Dev.regWrite_heldLow v (Dev.locate_reg hq hc ho 0xE 0xC4 rfl (by decide) (by decide) (by decide) rfl) (by decide)

/-- STRONG_SRAM_PWR_HI applies the low word that is held, and then itself (R448). -/
theorem Dev.regWrite_sramPwr_held (ht : (d.req q).wrTag = some 0xE000C4) :
    d.regWrite q 0xE000C8 v = ((d.modReq q fun x => { x with wrTag := none, wrVal := 0 }).writeSramPwr false (d.req q).wrVal).writeSramPwr true v := by
  have hloc : d.locate q 0xE000C8 = .reg 0xE 0xC8 := Dev.locate_reg hq hc ho 0xE 0xC8 rfl (by decide) (by decide) (by decide) rfl
  unfold Dev.regWrite
  rw [hloc]
  exact if_pos ⟨by decide, ht⟩

theorem Dev.regWrite_sramPwr_alone (ht : (d.req q).wrTag ≠ some 0xE000C4) : d.regWrite q 0xE000C8 v = d.writeSramPwr true v := by
  have hloc : d.locate q 0xE000C8 = .reg 0xE 0xC8 := Dev.locate_reg hq hc ho 0xE 0xC8 rfl (by decide) (by decide) (by decide) rfl
  unfold Dev.regWrite
  rw [hloc]
  exact if_neg fun h => ht h.2

end

/-- The words of STRONG_SRAM_PWR hold the bits of its value (R443). -/
theorem getLsbD_words (hi lo : Word) (b : Nat) : (hi ++ lo : BitVec 64).getLsbD b = if b < 32 then lo.getLsbD b else hi.getLsbD (b - 32) :=
  BitVec.getLsbD_append

/-- A bank's power after a write of STRONG_SRAM_PWR, and whether it is switched on again: `mine` are the banks that the write names (R434). -/
def Sram.powered (used mine : Nat → Bool) (want : BitVec 64) (m : Sram) (b : Nat) : Bool :=
  if mine b = true then want.getLsbD b || m.pwr.getLsbD b && used b else m.pwr.getLsbD b

/-- The device after a write of STRONG_SRAM_PWR: of the strongroom the banks' power and contents have changed, bank by bank. -/
theorem Sram.Switched.shown {used mine : Nat → Bool} {want : BitVec 64} {g f : Strong} {m : Sram} (h : Sram.Switched used want.getLsbD mine g.sram m)
    (hf : f = { g with sram := m }) :
    f = { g with sram := { g.sram with mem := f.sram.mem, pwr := f.sram.pwr, clearing := f.sram.clearing } } ∧
    (∀ b < 64, f.sram.pwr.getLsbD b = g.sram.powered used mine want b ∧ f.sram.clearing.getLsbD b =
      (g.sram.powered used mine want b && !g.sram.pwr.getLsbD b || g.sram.clearing.getLsbD b && (g.sram.powered used mine want b || !g.sram.pwr.getLsbD b))) ∧
    ∀ a, Memory.read f.sram.mem a = if (g.sram.powered used mine want (a / 2 ^ 20) && !g.sram.pwr.getLsbD (a / 2 ^ 20)) = true then 0 else Memory.read g.sram.mem a := by
  subst hf
  refine ⟨congrArg (fun m => { g with sram := m }) h.rest, fun b hb => ⟨h.pwr b hb, ?_⟩, fun a => ?_⟩
  · rw [h.clearing b hb]
    unfold Sram.powered Sram.freshAfter Sram.onAfter
    by_cases hm : mine b = true
    · rw [if_pos hm, if_pos hm]
    · rw [if_neg hm, if_neg hm]
      simp
  · rw [h.mem a]
    unfold Sram.powered Sram.freshAfter Sram.onAfter
    by_cases hm : mine (a / 2 ^ 20) = true
    · simp only [hm, if_true, true_and]
    · rw [if_neg (fun hn => hm hn.1), if_neg hm, Bool.and_not_self]
      rfl

theorem getLsbD_words_low (hi lo : Word) (i : Nat) (h : i < 32) : lo.getLsbD i = (hi ++ lo : BitVec 64).getLsbD (if false then 32 + i else i) := by
  rw [getLsbD_words]
  exact (if_pos h).symm

theorem getLsbD_words_high (hi lo : Word) (i : Nat) (_ : i < 32) : hi.getLsbD i = (hi ++ lo : BitVec 64).getLsbD (if true then 32 + i else i) := by
  rw [getLsbD_words, if_pos rfl, if_neg (by omega), Nat.add_sub_cancel_left]

theorem Dev.writeSramPwr_strong_high (d : Dev) (v lo : Word) :
    (d.writeSramPwr true v).strong = { d.strong with sram := Sram.switches d.bankInUse (v ++ lo : BitVec 64).getLsbD (pwrBanks true) d.strong.sram } := by
  rw [Dev.writeSramPwr_eq _ _ _ _ (getLsbD_words_high v lo)]
  rfl

theorem Dev.writeSramPwr_strong_both (d : Dev) (v lo : Word) : ((d.writeSramPwr false lo).writeSramPwr true v).strong =
    { d.strong with sram := Sram.switches d.bankInUse (v ++ lo : BitVec 64).getLsbD (pwrBanks true) <|
                              Sram.switches d.bankInUse (v ++ lo : BitVec 64).getLsbD (pwrBanks false) d.strong.sram } := by
  rw [Dev.writeSramPwr_strong_high _ _ lo, Dev.writeSramPwr_eq _ _ _ _ (getLsbD_words_low v lo)]
  rfl

/-- No debug unlock stands (R440). -/
def Strong.locked (g : Strong) : Strong := { g with dbg := { g.dbg with unlocked := false, scope := 0, remain := 0 } }

/-- A debug unlock ends at an instant, with its event (R440). -/
def Dev.lockAt (d : Dev) (t : Instant) : Dev := ((d.reach t).modStrong Strong.locked).raise 642

theorem Dev.debugUnlockExpiry_ends {d : Dev} (h : d.strong.dbg.unlocked = true) :
    d.debugUnlockExpiry = d.lockAt (d.strong.dbg.unlockedSince + d.strong.dbg.remain.toNat * 10 ^ 9 * ns) := by
  unfold Dev.debugUnlockExpiry Dev.debugEnd
  rw [if_neg (by simp [h])]
  exact if_neg (by simp [h])

theorem Dev.lockAt_ends (d : Dev) (t : Instant) :
    (d.lockAt t).now = max d.now t ∧ Raised d (d.lockAt t) 642 ∧ (d.lockAt t).strong = d.strong.locked :=
  ⟨Dev.reach_now _ _, Dev.raise_raised (Dev.reach_events _ _) _, congrArg Strong.locked (Dev.reach_strong _ _)⟩

/-- Settles O52: each change of life and each tamper wipes the device, and a write of the power words switches bank by bank. -/
theorem deviceLifeTamperAndSram : Obligations.DeviceLifeTamperAndSram := by
  intro s g
  refine ⟨?life, ?expiry, fun hl => ⟨fun h2 => ?counted, fun h2 => ?intrusion⟩, fun t => ?tamper, fun ok hok => ?rng, ?power, fun b => ?done⟩
  case life =>
    intro ok good body becomes
    refine ⟨?_, ?_, ?_, ?_⟩ <;> exact fun ⟨hb, hr, hcode, h0⟩ => completes_wiping rfl (Dev.runCmd_acts ⟨hb, hr, hcode⟩ h0)
  case expiry =>
    intro hu
    exact completes_of_run rfl (Dev.debugUnlockExpiry_ends hu)
      (Dev.debugUnlockExpiry_ends hu ▸ Dev.debugUnlockExpiry_keep (.refl _ _) (by decide) (by decide) (by decide)) (Dev.lockAt_ends _ _)
  case counted =>
    have hstep : (fun d : Dev => d.lockedDebugAccess) s.dev = _ := Dev.lockedDebugAccess_counted hl h2
    refine completes_of_run rfl hstep (Dev.raise_keep (Dev.modStrong_keep (.refl _ _) (by decide) _ (.same rfl rfl rfl rfl rfl rfl rfl rfl rfl)) (by decide) _ _) ⟨⟨_, rfl, rfl, rfl⟩, rfl⟩
  case intrusion => exact completes_wiping (f := s.dev.strong) rfl ((if_neg fun h => hl.elim h.1 h.2).trans (if_pos h2))
  case tamper => exact completes_wiping (g := fun d => d.wipe (tamperBit t)) (f := s.dev.strong) rfl (by cases t <;> rfl)
  case rng =>
    exact completes_of_run (f := fun d => if d.strong.rngok = ok then d else (d.modStrong fun s => { s with rngok := ok }).raise 643) rfl (if_neg hok) (Dev.raise_keep (Dev.modStrong_keep (.refl _ _) (by decide) _ (.same rfl rfl rfl rfl rfl rfl rfl rfl rfl)) (by decide) _ _) ⟨⟨_, rfl, rfl, rfl⟩, rfl⟩
  case power =>
    intro q v hq hc ho held bank switches
    refine ⟨?low, fun ht => ?both, fun ht => ?high⟩
    case low =>
      exact completes_of_run (f := fun d => if d.isPf q then d.regWrite q _ v else d) rfl ((if_pos hq).trans (Dev.regWrite_sramPwr_low hq hc ho)) (Dev.modReq_keep (.refl _ _) (by decide) _ _) (Dev.req_modReq_same _ _ _)
    case both =>
      refine completes_of_run (f := fun d => if d.isPf q then d.regWrite q _ v else d) rfl ((if_pos hq).trans (Dev.regWrite_sramPwr_held hq hc ho ht))
        (Dev.writeSramPwr_keep (Dev.writeSramPwr_keep (Dev.modReq_keep (.refl _ _) (by decide) _ _) (by decide) _ _) (by decide) _ _) ?_
      exact (Sram.Switched.both s.dev.bankInUse _ g.sram).shown (Dev.writeSramPwr_strong_both _ v held.wrVal)
    case high =>
      refine completes_of_run (f := fun d => if d.isPf q then d.regWrite q _ v else d) rfl ((if_pos hq).trans (Dev.regWrite_sramPwr_alone hq hc ho ht)) (Dev.writeSramPwr_keep (.refl _ _) (by decide) _ _) ?_
      exact (Sram.Switched.high s.dev.bankInUse _ g.sram).shown (Dev.writeSramPwr_strong_high _ v 0)
  case done => exact completes_of_run (f := fun d => d.modSram fun m => { m with clearing := m.clearing &&& ~~~((1 : BitVec 64) <<< b.toNat) }) rfl rfl (Dev.modSram_keep (.refl _ _) (by decide) _ fun _ hm => hm) rfl

end Sys2Proof.Machine
end

section
/-! Attestation and signed commands (15_strongroom.md R430 to R432, R439, R440) -/

namespace Sys2Proof.Machine
open Sys2Proof

-- attestation (R430)

section
variable {d : Dev} {v : Word}

/-- A request takes FIRST whether or not it asks for a report (R443). -/
theorem Dev.writeAttCtl_first (h : v.getLsbD 31 = false) : d.writeAttCtl v = d.modStrong fun g => { g with attFirst := v.setWidth 9 } :=
  if_pos (congrArg (fun b => !b) h)

theorem Dev.writeAttCtl_busy (h : v.getLsbD 31 = true) (hb : d.strong.attBusy = true) :
    d.writeAttCtl v = (d.modStrong fun g => { g with attFirst := v.setWidth 9 }).ignore 0xE := by
  unfold Dev.writeAttCtl
  exact (if_neg (by rw [show bitOf v.toNat 31 = true from h]; decide)).trans (if_pos hb)

/-- The snapshot of a request that is accepted, before its boundary (R430). -/
def Dev.attAsked (d : Dev) (first : BitVec 9) : Snapshot :=
  { time := d.now, beat := d.time.n, list := [], nonce := d.strong.attNonce, first := first.toNat, debugSeen := false }

theorem Dev.writeAttCtl_waits (h : v.getLsbD 31 = true) (hb : d.strong.attBusy = false) (hr : d.time.run = true) :
    d.writeAttCtl v = d.modStrong fun g =>
      { g with attFirst := v.setWidth 9, attBusy := true, attWaiting := true, attValid := false, attSnap := some (d.attAsked (v.setWidth 9)) } := by
  unfold Dev.writeAttCtl
  exact (if_neg (by rw [show bitOf v.toNat 31 = true from h]; decide)).trans ((if_neg (by exact ne_true_of_eq_false hb)).trans (if_pos hr))

theorem Dev.writeAttCtl_stands (h : v.getLsbD 31 = true) (hb : d.strong.attBusy = false) (hr : d.time.run = false) :
    d.writeAttCtl v = d.modStrong fun g =>
      { g with attFirst := v.setWidth 9, attBusy := true, attWaiting := false, attValid := false,
               attSnap := some { d.attAsked (v.setWidth 9) with list := g.measures, debugSeen := g.dbg.seen } } := by
  unfold Dev.writeAttCtl
  refine (if_neg (by rw [show bitOf v.toNat 31 = true from h]; decide)).trans ((if_neg (by exact ne_true_of_eq_false hb)).trans ((if_neg (by exact ne_true_of_eq_false hr)).trans ?_))
  rfl

end

/-- The frame of a change of the strongroom that leaves fuses and memories alone. -/
theorem Dev.modStrong_same (d : Dev) {f : Strong → Strong} (h : StrongKept d.strong (f d.strong)) : Keep [.strong] d (d.modStrong f) :=
  Dev.modStrong_keep (.refl _ _) (by decide) _ h

/-- The signed report for a snapshot (R430). -/
def Dev.report (d : Dev) (sn : Snapshot) : Bytes :=
  d.reportBody sn ++
    Config.mldsaSign (if d.strong.ml65 then 65 else 44) (seedOf (if d.strong.ml65 then 2 else 1)) (d.reportBody sn) (Config.random d.free)

/-- The strongroom with a report of these bytes in STRONG_ATT_BUF. -/
def Strong.reported (g : Strong) (shown : Bytes) : Strong :=
  { g with attBusy := false, attValid := true, attSnap := none, attLen := BitVec.ofNat 14 shown.length, attBuf := Memory.writeN [] 0 shown }

theorem Dev.attReportReady_eq {d : Dev} {sn : Snapshot} (h : d.strong.attSnap = some sn) (hb : d.strong.attBusy = true) (hw : d.strong.attWaiting = false)
    (hr : d.strong.rngok = true) (hl : d.strong.life ≠ .decommissioned) :
    d.attReportReady = ((d.take 1).modStrong fun g => g.reported ((d.report sn).take 8192)).raise 645 := by
  unfold Dev.attReportReady
  dsimp only
  rw [h]
  exact if_neg (by simp [hb, hw, hr, hl])

theorem Memory.read_report (bs : Bytes) (i : Nat) : Memory.read (Memory.writeN [] 0 bs) i = bs.getD i 0 := by
  rw [Memory.read_writeN]
  split
  · rfl
  · next h => rw [List.getD_eq_default _ _ (by omega)]; rfl

/-- A report of these bytes stands ready in STRONG_ATT_BUF (R430). -/
def Dev.Reported (d e : Dev) (shown : Bytes) : Prop :=
  Raised d e 645 ∧ e.free = d.free + 1 ∧
  e.strong = { d.strong with attBusy := false, attValid := true, attSnap := none, attLen := BitVec.ofNat 14 shown.length, attBuf := e.strong.attBuf } ∧
  ∀ i, Memory.read e.strong.attBuf i = shown.getD i 0

theorem Dev.reported_shows (d : Dev) (shown : Bytes) : d.Reported (((d.take 1).modStrong fun g => g.reported shown).raise 645) shown :=
  ⟨⟨_, rfl, rfl, rfl⟩, rfl, rfl, Memory.read_report shown⟩

-- signed commands (R439)

/-- A command whose effect leaves the strongroom as `h` completes with result `r` (R439). -/
theorem Dev.cmdDone_after (d : Dev) (h : Strong) (r : Nat) : ((Dev.cmdDone { d with strong := h } r).free = d.free + 1 ∧
    (Dev.cmdDone { d with strong := h } r).strong =
      { h with cmdBusy := false, cmdResult := BitVec.ofNat 8 r, cmdNonce := (Config.random d.free).setWidth 128 }) ∧
    Raised d (Dev.cmdDone { d with strong := h } r) 641 := ⟨⟨rfl, rfl⟩, ⟨_, rfl, rfl, rfl⟩⟩

/-- Settles O51: a request by what it finds of the one before, a report from its snapshot, and a command by its checks. -/
theorem attestationAndSignedCommands : Obligations.AttestationAndSignedCommands := by
  intro s g
  refine ⟨?request, fun sn hsn hb hw hr hl => ?report, ?command⟩
  case request =>
    intro q v hq first asked
    have hrun {d : Dev} {ps : List Part} {Q : Dev → Prop} (hd : s.dev.writeAttCtl v = d) : Keep ps s.dev d → Q d → Completes (.attReq q v) s ps Q :=
      completes_of_run (f := fun d => if d.isPf q then d.writeAttCtl v else d) rfl ((if_pos hq).trans hd)
    refine ⟨fun hv => ?first, fun hv hb => ?busy, fun hv hb => And.intro (fun hr => ?waits) fun hr => ?stands⟩
    case first => exact hrun (Dev.writeAttCtl_first hv) (Dev.modStrong_same _ (.same rfl rfl rfl rfl rfl rfl rfl rfl rfl)) rfl
    case busy =>
      refine hrun (Dev.writeAttCtl_busy hv hb) (Dev.ignore_keep (Dev.modStrong_keep (.refl _ _) (by decide) _ (.same rfl rfl rfl rfl rfl rfl rfl rfl rfl)) (by decide) _) ⟨rfl, rfl⟩
    case waits =>
      exact hrun (Dev.writeAttCtl_waits hv hb hr) (Dev.modStrong_same _ (.same rfl rfl rfl rfl rfl rfl rfl rfl rfl)) rfl
    case stands =>
      exact hrun (Dev.writeAttCtl_stands hv hb hr) (Dev.modStrong_same _ (.same rfl rfl rfl rfl rfl rfl rfl rfl rfl)) rfl
  case report =>
    exact completes_parts rfl (Dev.attReportReady_eq hsn hb hw hr hl) (s.dev.reported_shows ((s.dev.report sn).take 8192))
  case command =>
    intro ok pending body ended ps
    refine ⟨fun code c hc => ?refused, ?keyRevoke, ?arbAdvance, ?debugUnlock⟩
    case refused =>
      rintro ⟨hb, hr, hcode⟩ hbad
      have hkeep := Dev.cmdDone_keep (.refl [.free, .events, .strong] s.dev) (by decide) (by decide) (by decide) (s.dev.cmdCheck ok)
      have hshown : ended g (s.dev.cmdCheck ok) (s.dev.cmdDone (s.dev.cmdCheck ok)) ∧ Raised s.dev (s.dev.cmdDone (s.dev.cmdCheck ok)) 641 :=
        ⟨⟨rfl, rfl⟩, Dev.cmdDone_raised _ _⟩
      simp only [List.mem_cons, Prod.mk.injEq, List.not_mem_nil, or_false] at hc
      rcases hc with ⟨rfl, rfl⟩ | ⟨rfl, rfl⟩ | ⟨rfl, rfl⟩ | ⟨rfl, rfl⟩ | ⟨rfl, rfl⟩ | ⟨rfl, rfl⟩ | ⟨rfl, rfl⟩ <;>
        exact completes_of_run rfl (Dev.runCmd_refused ⟨hb, hr, hcode⟩ hbad) hkeep hshown
    case keyRevoke => exact fun ⟨hb, hr, hcode⟩ h0 => completes_parts rfl (Dev.runCmd_acts ⟨hb, hr, hcode⟩ h0) (s.dev.cmdDone_after _ 0)
    case arbAdvance => exact fun ⟨hb, hr, hcode⟩ h0 => completes_parts rfl (Dev.runCmd_acts ⟨hb, hr, hcode⟩ h0) (s.dev.cmdDone_after _ 0)
    case debugUnlock =>
      refine fun ⟨hb, hr, hcode⟩ h0 => completes_parts rfl (Dev.runCmd_acts ⟨hb, hr, hcode⟩ h0) ⟨⟨rfl, rfl⟩, ?done, ?unlocked⟩
      case done => exact ⟨_, List.mem_append_right _ (List.mem_singleton_self _), rfl⟩
      case unlocked => exact ⟨_, List.mem_append_left _ (List.mem_append_right _ (List.mem_singleton_self _)), rfl⟩

end Sys2Proof.Machine
end

section
/-! The fuse box (14_fuse_box.md R409 to R424): the log's entry, FUSE_CLASSIFY, FUSE_ACK and FUSE_RELEASE -/

namespace Sys2Proof.Machine
open Sys2Proof

-- the log (R422)

/-- The strongroom and the fuse box after a log entry, where the log is that of `fz` and `f` is the fuse box but for the entry. -/
def fuseLogged (g : Strong) (fz f : Fuse) (kind ev : Nat) (ts : Instant) (count react : Nat) (beat : Beat) (detail : BitVec 64) : Strong × Fuse :=
  if (if kind = 0 then 64 else 0) < fz.logFree then
    let sram := g.sram.put (logAddr fz.wp) (logBytes kind ev ts count react beat detail)
    ({ g with sram := sram }, { f with wp := fz.wp + 1 })
  else (g, { f with cnt := bumpAt f.cnt 1 })

/-- What is not of the log in a fuse box that took an entry: its sources, orders and window, which a later change may replace. -/
def Fuse.with (f : Fuse) (x : Fuse) : Fuse := { f with srcs := x.srcs, forces := x.forces, exits := x.exits, window := x.window }

section
variable (g : Strong) (fz f x : Fuse) (kind ev : Nat) (ts : Instant) (count react : Nat) (beat : Beat) (detail : BitVec 64)

theorem Dev.logFuse_eq (d : Dev) : d.logFuse kind ev ts count react beat detail =
    { d with strong := (fuseLogged d.strong d.fuse d.fuse kind ev ts count react beat detail).1,
             fuse := (fuseLogged d.strong d.fuse d.fuse kind ev ts count react beat detail).2 } := by
  unfold Dev.logFuse fuseLogged
  by_cases h : (if kind = 0 then 64 else 0) < d.fuse.logFree
  · simp only [if_pos h]
    rfl
  · simp only [if_neg h]
    rfl

/-- Sources, orders and window do not bear on the log. -/
theorem fuseLogged_with : ((fuseLogged g fz f kind ev ts count react beat detail).1, (fuseLogged g fz f kind ev ts count react beat detail).2.with x) =
    fuseLogged g fz (f.with x) kind ev ts count react beat detail := by
  unfold fuseLogged
  by_cases h : (if kind = 0 then 64 else 0) < fz.logFree
  · simp only [if_pos h]
    rfl
  · simp only [if_neg h]
    rfl

theorem fuseLogged_rest : (fuseLogged g fz f kind ev ts count react beat detail).2.with f = (fuseLogged g fz f kind ev ts count react beat detail).2 := by
  unfold fuseLogged
  by_cases h : (if kind = 0 then 64 else 0) < fz.logFree
  · simp only [if_pos h]
    rfl
  · simp only [if_neg h]
    rfl

end

section
variable {g : Strong} {fz f : Fuse} {kind ev : Nat} {ts : Instant} {count react : Nat} {beat : Beat} {detail : BitVec 64}

theorem fuseLogged_srcs : (fuseLogged g fz f kind ev ts count react beat detail).2.srcs = f.srcs := by
  rw [← fuseLogged_rest]
  rfl

theorem fuseLogged_released : (fuseLogged g fz f kind ev ts count react beat detail).2.released = f.released := by
  unfold fuseLogged
  by_cases h : (if kind = 0 then 64 else 0) < fz.logFree
  · simp only [if_pos h]
  · simp only [if_neg h]

/-- A log entry bears on no health of the random source. -/
theorem fuseLogged_rngok : (fuseLogged g fz f kind ev ts count react beat detail).1.rngok = g.rngok := by
  unfold fuseLogged
  by_cases h : (if kind = 0 then 64 else 0) < fz.logFree
  · simp only [if_pos h]
  · simp only [if_neg h]

theorem fuseLogged_forces : (fuseLogged g fz f kind ev ts count react beat detail).2.forces = f.forces := by
  rw [← fuseLogged_rest]
  rfl

theorem fuseLogged_exits : (fuseLogged g fz f kind ev ts count react beat detail).2.exits = f.exits := by
  rw [← fuseLogged_rest]
  rfl

theorem fuseLogged_window : (fuseLogged g fz f kind ev ts count react beat detail).2.window = f.window := by
  rw [← fuseLogged_rest]
  rfl

end

/-- The device's strongroom and log are those of `p`. -/
structure Dev.LogIs (d : Dev) (p : Strong × Fuse) : Prop where
  strong : d.strong = p.1
  fuse : d.fuse = p.2.with d.fuse

/-- Orders do not bear on the log. -/
theorem Dev.LogIs.with_orders {d e : Dev} {p : Strong × Fuse} {a : List PendingForce} {b : List IsolationExit} (h : d.LogIs p) (hs : e.strong = d.strong)
    (hf : e.fuse = { d.fuse with forces := a, exits := b }) : e.LogIs p := by
  refine ⟨hs.trans h.strong, ?_⟩
  rw [hf]
  exact congrArg (fun f : Fuse => { f with forces := a, exits := b }) h.fuse

/-- A device whose log has taken an entry, where sources and orders may have changed since. -/
theorem Dev.LogIs.shows {d : Dev} {g : Strong} {fz f : Fuse} {kind ev : Nat} {ts : Instant} {count react : Nat} {beat : Beat} {detail : BitVec 64}
    (h : d.LogIs (fuseLogged g fz f kind ev ts count react beat detail)) :
    (d.strong, d.fuse) = fuseLogged g fz (f.with d.fuse) kind ev ts count react beat detail := by
  rw [← fuseLogged_with, ← h.fuse, h.strong]

section
variable (d : Dev) (kind ev : Nat) (ts : Instant) (count react : Nat) (beat : Beat) (detail : BitVec 64)

theorem Dev.logFuse_src (j : Nat) : (d.logFuse kind ev ts count react beat detail).src j = d.src j := by
  unfold Dev.src
  rw [Dev.logFuse_eq]
  exact congrArg (Tbl.get {} · j) fuseLogged_srcs

theorem Dev.logFuse_now : (d.logFuse kind ev ts count react beat detail).now = d.now := by rw [Dev.logFuse_eq]

theorem Dev.logFuse_room : (d.logFuse kind ev ts count react beat detail).room = d.room := by rw [Dev.logFuse_eq]; rfl

theorem Dev.logFuse_srcs : (d.logFuse kind ev ts count react beat detail).fuse.srcs = d.fuse.srcs := by
  rw [Dev.logFuse_eq]
  exact fuseLogged_srcs

theorem Dev.logFuse_forces : (d.logFuse kind ev ts count react beat detail).fuse.forces = d.fuse.forces := by
  rw [Dev.logFuse_eq]
  exact fuseLogged_forces

theorem Dev.logFuse_exits : (d.logFuse kind ev ts count react beat detail).fuse.exits = d.fuse.exits := by
  rw [Dev.logFuse_eq]
  exact fuseLogged_exits

theorem Dev.logFuse_log : ((d.logFuse kind ev ts count react beat detail).strong, (d.logFuse kind ev ts count react beat detail).fuse) =
    fuseLogged d.strong d.fuse d.fuse kind ev ts count react beat detail := by rw [Dev.logFuse_eq]

end

-- a latch (R413)

/-- The reactions of a source, as its range has them (R414). -/
def Dev.reactOf (d : Dev) (ev : Nat) : BitVec 8 := (d.src ev).react &&& reactMask ev

/-- A source as its latch leaves it (R413). -/
def FuseSrc.latch (x : FuseSrc) (re : BitVec 8) : FuseSrc := { x with latched := true, held := re &&& 0x9C, heldEg := x.egmask }

/-- The latch of a source, logged, before any of its reactions (R413, R422). -/
def Dev.latched (d : Dev) (o : Occ) : Dev :=
  (d.logFuse 1 o.ev.toNat o.ts ((d.src o.ev.toNat).count o.ts) (d.reactOf o.ev.toNat).toNat o.beat o.detail).modSrc o.ev.toNat (·.latch (d.reactOf o.ev.toNat))

theorem Dev.latched_log (d : Dev) (o : Occ) :
    (d.latched o).LogIs (fuseLogged d.strong d.fuse d.fuse 1 o.ev.toNat o.ts ((d.src o.ev.toNat).count o.ts) (d.reactOf o.ev.toNat).toNat o.beat o.detail) := by
  unfold Dev.latched
  rw [Dev.logFuse_eq]
  exact ⟨rfl, rfl⟩

theorem Dev.latched_src (d : Dev) (o : Occ) : (d.latched o).src o.ev.toNat = (d.src o.ev.toNat).latch (d.reactOf o.ev.toNat) := by
  unfold Dev.latched
  rw [Dev.logFuse_eq]
  refine (Tbl.get_set_same _ _ _ _).trans ?_
  rw [fuseLogged_srcs]
  rfl

theorem Dev.latched_src_other (d : Dev) (o : Occ) {j : Nat} (hj : j ≠ o.ev.toNat) : (d.latched o).src j = d.src j := by
  unfold Dev.latched
  rw [Dev.logFuse_eq]
  refine (Tbl.get_set_other _ _ _ _ _ hj).trans ?_
  rw [fuseLogged_srcs]
  rfl

/-- The bits of a mask are those of the masked word. -/
theorem getLsbD_of_reacts {re m held : BitVec 8} (h : re &&& m = held) (i : Nat) (hi : m.getLsbD i = true) :
    re.getLsbD i = held.getLsbD i := by
  rw [← h, BitVec.getLsbD_and, hi, Bool.and_true]

section
variable {d : Dev} {o : Occ}

/-- What each reaction bit adds to a latch, where CREATE_TASK is not set (R413 to R418). -/
theorem Dev.latch_eq {held : BitVec 8} (h : d.reactOf o.ev.toNat &&& 0xFE = held) (h1 : held.getLsbD 1 = false) : d.latch o =
    let e := d.latched o
    let e := if held.getLsbD 2 ∨ held.getLsbD 7 then
        (if (d.src o.ev.toNat).beatcls ∧ e.time.run then e.modFuse fun f => { f with forces := f.forces ++ [{ src := o.ev }] } else e.reforce)
      else e
    let e := if held.getLsbD 3 then e.isolateRoom (BitVec.ofNat 8 o.ev.toNat) else e
    let e := if held.getLsbD 4 then e.isolateLane (o.ev.toNat - 256) else e
    let e := if held.getLsbD 5 then e.orderRollback o else e
    if held.getLsbD 6 then e.resetUnit o.ev.toNat else e := by
  have htask : ¬ (d.reactOf o.ev.toNat).getLsbD 1 = true := by rw [getLsbD_of_reacts h 1 rfl, h1]; decide
  rw [← getLsbD_of_reacts h 2 rfl, ← getLsbD_of_reacts h 3 rfl, ← getLsbD_of_reacts h 4 rfl, ← getLsbD_of_reacts h 5 rfl, ← getLsbD_of_reacts h 6 rfl,
    ← getLsbD_of_reacts h 7 rfl]
  unfold Dev.latch
  dsimp only
  rw [show (d.src o.ev.toNat).react &&& reactMask o.ev.toNat = d.reactOf o.ev.toNat from rfl, if_neg htask]
  rfl

theorem Dev.latch_alone (h : d.reactOf o.ev.toNat &&& 0xFE = 0) : d.latch o = d.latched o := Dev.latch_eq h rfl

theorem Dev.latch_isolates (h : d.reactOf o.ev.toNat &&& 0xFE = 0x08) : d.latch o = (d.latched o).isolateRoom (BitVec.ofNat 8 o.ev.toNat) := Dev.latch_eq h rfl

theorem Dev.latch_rolls (h : d.reactOf o.ev.toNat &&& 0xFE = 0x20) : d.latch o = (d.latched o).orderRollback o := Dev.latch_eq h rfl

theorem Dev.latched_time : (d.latched o).time = d.time := by
  unfold Dev.latched
  rw [Dev.logFuse_eq]
  rfl

theorem Dev.latched_now : (d.latched o).now = d.now := by
  unfold Dev.latched
  rw [Dev.logFuse_eq]
  rfl

theorem Dev.latched_window : (d.latched o).fuse.window = d.fuse.window := by
  unfold Dev.latched
  rw [Dev.logFuse_eq]
  exact fuseLogged_window

theorem Dev.latched_forces : (d.latched o).fuse.forces = d.fuse.forces := by
  unfold Dev.latched
  rw [Dev.logFuse_eq]
  exact fuseLogged_forces

theorem Dev.latched_exits : (d.latched o).fuse.exits = d.fuse.exits := by
  unfold Dev.latched
  rw [Dev.logFuse_eq]
  exact fuseLogged_exits

theorem Dev.latch_forces (h : d.reactOf o.ev.toNat &&& 0xFE = 0x04) (hb : (d.src o.ev.toNat).beatcls = true) (hr : d.time.run = true) :
    d.latch o = (d.latched o).modFuse fun f => { f with forces := f.forces ++ [{ src := o.ev }] } := by
  have hrun : (d.latched o).time.run = true := by rw [Dev.latched_time, hr]
  exact (Dev.latch_eq h rfl).trans (if_pos (c := (d.src o.ev.toNat).beatcls = true ∧ (d.latched o).time.run = true) ⟨hb, hrun⟩)

theorem Dev.latched_keep {ps : List Part} {e : Dev} (h : Keep ps e d) (hfuse : .fuse ∈ ps) (hstrong : .strong ∈ ps) : Keep ps e (d.latched o) :=
  Dev.modSrc_keep (Dev.logFuse_keep h hfuse hstrong _ _ _ _ _ _ _) hfuse _ _

end

-- FUSE_CLASSIFY (R409, R411)

/-- The device after the first occurrence of the reorder window has been counted (R409, R411). -/
def Dev.counted (d : Dev) (o : Occ) (rest : List Occ) : Dev :=
  { d with now := max d.now (o.ts + 1000 * ns), fuse := { d.fuse with window := rest, srcs := Tbl.modify {} d.fuse.srcs o.ev.toNat (·.add o.ts) } }

theorem Dev.reach_eq (d : Dev) (t : Instant) : d.reach t = { d with now := max d.now t } := by
  unfold Dev.reach
  split
  · next h => rw [Nat.max_eq_right (Nat.le_of_lt h)]
  · next h => rw [Nat.max_eq_left (Nat.le_of_not_lt h)]

theorem Dev.fuseClassify_eq {d : Dev} {o : Occ} {rest : List Occ} (h : d.fuse.window = o :: rest) : d.fuseClassify =
    let e := d.counted o rest
    let x := e.src o.ev.toNat
    if !x.latched ∧ x.threshold ≤ x.count o.ts then e.latch o
    else
      let done := e.reactOf o.ev.toNat &&& (if x.latched then 0x21 else 0x01)
      let e := if done = 0 then e else e.logFuse 0 o.ev.toNat o.ts (x.count o.ts) done.toNat o.beat o.detail
      if done.getLsbD 5 then e.orderRollback o else e := by
  unfold Dev.fuseClassify
  rw [h]
  show ((d.modFuse fun x => { x with window := rest }).reach (o.ts + 1000 * ns)).classify o = _
  rw [Dev.reach_eq]
  rfl


section
variable {d : Dev} {o : Occ} {rest : List Occ}

theorem Dev.counted_src : (d.counted o rest).src o.ev.toNat = (d.src o.ev.toNat).add o.ts := Tbl.get_set_same _ _ _ _

theorem Dev.counted_src_other {j : Nat} (hj : j ≠ o.ev.toNat) : (d.counted o rest).src j = d.src j := Tbl.get_set_other _ _ _ _ _ hj

theorem Dev.counted_react : (d.counted o rest).reactOf o.ev.toNat = ((d.src o.ev.toNat).add o.ts).react &&& reactMask o.ev.toNat := by
  unfold Dev.reactOf
  rw [Dev.counted_src]

theorem Dev.counted_keep {ps : List Part} (hnow : .now ∈ ps) (hfuse : .fuse ∈ ps) : Keep ps d (d.counted o rest) :=
  Keep.upd_fuse (Keep.upd_now (.refl _ _) hnow) hfuse

/-- Below the threshold an occurrence is counted, and logged where LOG is set (R413). -/
theorem Dev.fuseClassify_below (h : d.fuse.window = o :: rest) (hl : ((d.src o.ev.toNat).add o.ts).latched = false)
    (hn : ((d.src o.ev.toNat).add o.ts).count o.ts < ((d.src o.ev.toNat).add o.ts).threshold) : d.fuseClassify =
    if (d.counted o rest).reactOf o.ev.toNat &&& 0x01 = 0 then d.counted o rest
    else (d.counted o rest).logFuse 0 o.ev.toNat o.ts (((d.src o.ev.toNat).add o.ts).count o.ts) ((d.counted o rest).reactOf o.ev.toNat &&& 0x01).toNat o.beat o.detail := by
  have hbit : ((d.counted o rest).reactOf o.ev.toNat &&& 0x01).getLsbD 5 = false := by
    rw [BitVec.getLsbD_and]
    exact Bool.and_false _
  rw [Dev.fuseClassify_eq h]
  dsimp only
  rw [Dev.counted_src, if_neg (fun hc => absurd hc.2 (Nat.not_le.2 hn)), hl]
  exact if_neg (by rw [if_neg Bool.false_ne_true, hbit]; decide)

theorem Dev.fuseClassify_latches (h : d.fuse.window = o :: rest) (hl : ((d.src o.ev.toNat).add o.ts).latched = false)
    (hn : ((d.src o.ev.toNat).add o.ts).threshold ≤ ((d.src o.ev.toNat).add o.ts).count o.ts) : d.fuseClassify = (d.counted o rest).latch o := by
  rw [Dev.fuseClassify_eq h]
  dsimp only
  rw [Dev.counted_src]
  exact if_pos ⟨by rw [hl]; decide, hn⟩

end

theorem and_one_eq {x : BitVec 8} : x &&& 0x01 = if x.getLsbD 0 then 1 else 0 := by
  revert x
  decide

section
variable {d : Dev} {o : Occ} {rest : List Occ}

/-- What every latch of FUSE_CLASSIFY leaves: the source and the log, where sources and orders may have changed since (R413, R422). -/
structure Dev.LatchShown (d : Dev) (o : Occ) (rest : List Occ) (e : Dev) : Prop where
  now : e.now = max d.now (o.ts + 1000 * ns)
  src : e.src o.ev.toNat = ((d.src o.ev.toNat).add o.ts).latch (((d.src o.ev.toNat).add o.ts).react &&& reactMask o.ev.toNat)
  others : ∀ j, j ≠ o.ev.toNat → e.src j = d.src j
  log : (e.strong, e.fuse) = fuseLogged d.strong d.fuse { d.fuse with window := rest, srcs := e.fuse.srcs, forces := e.fuse.forces, exits := e.fuse.exits } 1
    o.ev.toNat o.ts (((d.src o.ev.toNat).add o.ts).count o.ts) (((d.src o.ev.toNat).add o.ts).react &&& reactMask o.ev.toNat).toNat o.beat o.detail

/-- A device after the latch, where orders alone have changed since. -/
theorem Dev.latchShown_of {e : Dev} {a : List PendingForce} {b : List IsolationExit} (hnow : e.now = ((d.counted o rest).latched o).now)
    (hstrong : e.strong = ((d.counted o rest).latched o).strong) (hfuse : e.fuse = { ((d.counted o rest).latched o).fuse with forces := a, exits := b }) :
    d.LatchShown o rest e where
  now := hnow.trans Dev.latched_now
  src := by
    have hsrc := (d.counted o rest).latched_src o
    rw [Dev.counted_src, Dev.counted_react] at hsrc
    rw [← hsrc]
    unfold Dev.src
    rw [hfuse]
  others j hj := by
    have hsrc := (d.counted o rest).latched_src_other o hj
    rw [Dev.counted_src_other hj] at hsrc
    rw [← hsrc]
    unfold Dev.src
    rw [hfuse]
  log := by
    have hlog := (((d.counted o rest).latched_log o).with_orders hstrong hfuse).shows
    rw [Dev.counted_src, Dev.counted_react] at hlog
    have hwin : e.fuse.window = rest := by
      rw [hfuse]
      exact Dev.latched_window
    have hwith : (d.counted o rest).fuse.with e.fuse =
        { d.fuse with window := rest, srcs := e.fuse.srcs, forces := e.fuse.forces, exits := e.fuse.exits } := by
      rw [← hwin]
      rfl
    rw [hwith] at hlog
    exact hlog


theorem Dev.latchShown_latched : d.LatchShown o rest ((d.counted o rest).latched o) := Dev.latchShown_of rfl rfl rfl

theorem Dev.isolateRoom_fuse (d : Dev) (r : RoomId) : (d.isolateRoom r).fuse = { d.fuse with exits := d.fuse.exits.filter fun x => x.room != r } := rfl

theorem Dev.isolateRoom_room (d : Dev) (r : RoomId) : (d.isolateRoom r).room r = { d.room r with isolated := true } :=
  Dev.room_modRoom_same d r fun x => { x with isolated := true }

theorem Dev.isolateRoom_otherRooms (d : Dev) (r : RoomId) : OtherRooms r d (d.isolateRoom r) := d.modRoom_otherRooms r fun x => { x with isolated := true }

theorem Dev.isolateRoom_now (d : Dev) (r : RoomId) : (d.isolateRoom r).now = d.now := rfl

theorem Dev.isolateRoom_strong (d : Dev) (r : RoomId) : (d.isolateRoom r).strong = d.strong := rfl

theorem Dev.latchShown_isolated (r : RoomId) : d.LatchShown o rest (((d.counted o rest).latched o).isolateRoom r) :=
  Dev.latchShown_of (Dev.isolateRoom_now _ _) (Dev.isolateRoom_strong _ _) (Dev.isolateRoom_fuse _ _)

theorem Dev.latchShown_forced (p : PendingForce) : d.LatchShown o rest (((d.counted o rest).latched o).modFuse fun f => { f with forces := f.forces ++ [p] }) :=
  Dev.latchShown_of rfl rfl rfl

theorem Dev.latchShown_ordered (i : FuncId) (g : Func → Func) : d.LatchShown o rest (((d.counted o rest).latched o).modFunc i g) := Dev.latchShown_of rfl rfl rfl

theorem Dev.latched_rooms : ((d.counted o rest).latched o).rooms = d.rooms := by
  unfold Dev.latched
  rw [Dev.logFuse_eq]
  rfl

/-- ISOLATE_ROOM after a latch: the room and the acknowledged exits (R416, R421). -/
theorem Dev.isolates_shown (r : RoomId) {e : Dev} (he : e = ((d.counted o rest).latched o).isolateRoom r) :
    e.room r = { d.room r with isolated := true } ∧ OtherRooms r d e ∧ e.fuse.forces = d.fuse.forces ∧ e.fuse.exits = d.fuse.exits.filter fun x => x.room != r := by
  have hroom : ((d.counted o rest).latched o).room = d.room := by
    unfold Dev.room
    rw [Dev.latched_rooms]
  subst he
  refine ⟨?_, ?_, ?_, ?_⟩
  · rw [Dev.isolateRoom_room, hroom]
  · intro q hq
    rw [← hroom]
    exact Dev.isolateRoom_otherRooms _ r q hq
  · rw [Dev.isolateRoom_fuse]
    exact Dev.latched_forces
  · rw [Dev.isolateRoom_fuse]
    exact congrArg (List.filter fun x => x.room != r) Dev.latched_exits

/-- ROLLBACK_BEAT in time for the one function that runs: its beat is ordered to roll back (R415). -/
theorem Dev.orderRollback_one {f : Func} (h : d.admitted = [f]) (hsince : f.since ≤ o.beat) (hrun : d.time.run = true) (hscope : d.inScope o.ev.toNat f = true)
    (hbeat : o.beat = d.time.n) (hdec : f.decided = none) : d.orderRollback o = d.modFunc f.id fun g => { g with ordered := true } := by
  unfold Dev.orderRollback
  have hone : [f].filter (fun f => decide (f.since ≤ o.beat) && d.time.run && d.inScope o.ev.toNat f) = [f] := by simp [hsince, hrun, hscope]
  dsimp only
  rw [h, hone]
  simp [hbeat, hdec, Dev.each]

/-- The latch touches nothing that a scope is read from (R414). -/
theorem Dev.latched_inScope (ev : Nat) (f : Func) : ((d.counted o rest).latched o).inScope ev f = d.inScope ev f := by
  unfold Dev.latched
  rw [Dev.logFuse_eq]
  rfl

theorem Dev.latched_admitted : ((d.counted o rest).latched o).admitted = d.admitted := by
  unfold Dev.latched
  rw [Dev.logFuse_eq]
  rfl

theorem Dev.modFunc_ordered (d : Dev) (i : FuncId) :
    (d.modFunc i fun g => { g with ordered := true }).func? i = (d.func? i).map fun g => { g with ordered := true } := by
  rw [Dev.func?_modFunc (g := fun g : Func => { g with ordered := true }) fun _ => rfl]
  cases h : d.func? i with
  | none => rfl
  | some x => exact congrArg some (if_pos (Dev.id_of_func? h))

theorem Dev.latched_func? (i : FuncId) : ((d.counted o rest).latched o).func? i = d.func? i := by
  unfold Dev.latched
  rw [Dev.logFuse_eq]
  rfl

end

/-- FUSE_CLASSIFY at a source's threshold. -/
theorem completes_latching {s : State} {o : Occ} {rest : List Occ} {ps : List Part} {e : Dev} {Q : Dev → Prop} (h : s.dev.fuse.window = o :: rest)
    (hl : ((s.dev.src o.ev.toNat).add o.ts).latched = false)
    (hn : ((s.dev.src o.ev.toNat).add o.ts).threshold ≤ ((s.dev.src o.ev.toNat).add o.ts).count o.ts) (he : (s.dev.counted o rest).latch o = e)
    (hk : Keep ps s.dev e) (hs : s.dev.LatchShown o rest e) (hQ : Q e) :
    Completes .fuseClassify s ps fun d => d.now = max s.dev.now (o.ts + 1000 * ns) ∧
      (d.src o.ev.toNat = ((s.dev.src o.ev.toNat).add o.ts).latch (((s.dev.src o.ev.toNat).add o.ts).react &&& reactMask o.ev.toNat) ∧
        ∀ j, j ≠ o.ev.toNat → d.src j = s.dev.src j) ∧
      (d.strong, d.fuse) = fuseLogged s.dev.strong s.dev.fuse
        { s.dev.fuse with window := rest, srcs := d.fuse.srcs, forces := d.fuse.forces, exits := d.fuse.exits } 1 o.ev.toNat o.ts
        (((s.dev.src o.ev.toNat).add o.ts).count o.ts) (((s.dev.src o.ev.toNat).add o.ts).react &&& reactMask o.ev.toNat).toNat o.beat o.detail ∧ Q d :=
  completes_of_run rfl ((Dev.fuseClassify_latches h hl hn).trans he) hk ⟨hs.now, ⟨hs.src, hs.others⟩, hs.log, hQ⟩

-- FUSE_ACK (R420, R421)

section
variable {d : Dev} {ev : Nat}

theorem Dev.ack_refused (h : (d.src ev).latched = false ∨ d.srcLive ev = true) :
    d.ack ev = (d.countFuse 0).logFuse 3 ev d.now ((d.src ev).count d.now) 0 d.time.n 0 := by
  unfold Dev.ack
  exact if_pos (h.imp_left fun hl => by rw [hl]; decide)

/-- The latch of a source is over, and so are the forces that it ordered (R420, R421). -/
def Dev.unlatched (d : Dev) (ev : Nat) : Dev :=
  (d.modSrc ev fun y => { y with latched := false, held := 0, heldEg := 0 }).modFuse fun f => { f with forces := f.forces.filter fun p => p.src.toNat != ev }

theorem Dev.unlatched_keep {ps : List Part} (hfuse : .fuse ∈ ps) : Keep ps d (d.unlatched ev) := Dev.modFuse_keep (Dev.modSrc_keep (.refl _ _) hfuse _ _) hfuse _

/-- The room of an acknowledged source is on its way back to service, or the orders alone have changed. -/
theorem Dev.acked_keep (b : Bool) (r : RoomId) : Keep [.rooms, .fuse] d (if b then (d.unlatched ev).releaseRoom r else d.unlatched ev) :=
  .ite (Dev.releaseRoom_keep (Dev.unlatched_keep (by decide)) (by decide) (by decide) _) (Dev.unlatched_keep (by decide))

/-- The room of an acknowledged source returns at the next boundary, or at once while the generator stands (R421). -/
theorem Dev.releaseRoom_waits {r : RoomId} (h : d.time.run = true) :
    (d.unlatched ev).releaseRoom r = (d.unlatched ev).modFuse fun f => { f with exits := f.exits ++ [{ room := r }] } := if_pos h

theorem Dev.releaseRoom_atOnce {r : RoomId} (h : d.time.run = false) :
    (d.unlatched ev).releaseRoom r = (d.unlatched ev).modRoom r fun x => { x with isolated := false } := if_neg (ne_true_of_eq_false h)

theorem Dev.unlatched_returns (d : Dev) (ev : Nat) (r : RoomId) :
    ((d.unlatched ev).modRoom r fun x => { x with isolated := false }).room r = { d.room r with isolated := false } ∧
      OtherRooms r d ((d.unlatched ev).modRoom r fun x => { x with isolated := false }) :=
  ⟨Dev.room_modRoom_same (d.unlatched ev) r fun x => { x with isolated := false },
    Dev.modRoom_otherRooms (d.unlatched ev) r fun x => { x with isolated := false }⟩

/-- An entry of the present instant. -/
theorem Dev.log_now {e : Dev} {kind n react : Nat} (h : Keep [.rooms, .fuse] d e) :
    e.logFuse kind ev e.now n react e.time.n 0 = e.logFuse kind ev d.now n react d.time.n 0 := by
  rw [h.now.resolve_left (by decide), h.time.resolve_left (by decide)]

/-- An acknowledge of a latch that holds at most ISOLATE_ROOM (R421). -/
theorem Dev.ack_accepted {held : BitVec 8} (hl : (d.src ev).latched = true) (hlive : d.srcLive ev = false) (h : (d.src ev).held &&& 0x9C = held)
    (h2 : held.getLsbD 2 = false) (h4 : held.getLsbD 4 = false) (h7 : held.getLsbD 7 = false) : d.ack ev =
    Dev.logFuse (if held.getLsbD 3 then (d.unlatched ev).releaseRoom (BitVec.ofNat 8 ev) else d.unlatched ev) 2 ev d.now ((d.src ev).count d.now) 0 d.time.n 0 := by
  have hlook : ¬ ((!(d.src ev).latched) = true ∨ d.srcLive ev = true) := by simp [hl, hlive]
  have hforce : ¬ ((d.src ev).held.getLsbD 2 = true ∨ (d.src ev).held.getLsbD 7 = true) := by
    rw [getLsbD_of_reacts h 2 rfl, getLsbD_of_reacts h 7 rfl, h2, h7]
    decide
  have hlane : ¬ (d.src ev).held.getLsbD 4 = true := by rw [getLsbD_of_reacts h 4 rfl, h4]; decide
  unfold Dev.ack
  dsimp only
  rw [if_neg hlook, if_neg hforce, if_neg hlane, getLsbD_of_reacts h 3 rfl]
  exact Dev.log_now (Dev.acked_keep _ _)

theorem Dev.unlatched_src : (d.unlatched ev).src ev = { d.src ev with latched := false, held := 0, heldEg := 0 } := Tbl.get_set_same _ _ _ _

theorem Dev.unlatched_src_other {j : Nat} (hj : j ≠ ev) : (d.unlatched ev).src j = d.src j := Tbl.get_set_other _ _ _ _ _ hj

/-- An acknowledge that is accepted, where `e` is the device before its log entry: the latch is over, and orders alone have changed beyond it. -/
theorem Dev.acked_shows {e : Dev} {b : List IsolationExit} (n : Nat) (hstrong : e.strong = d.strong) (hfuse : e.fuse = { (d.unlatched ev).fuse with exits := b })
    {a : Dev} (ha : a = e.logFuse 2 ev d.now n 0 d.time.n 0) :
    ((a.src ev = { d.src ev with latched := false, held := 0, heldEg := 0 } ∧ ∀ j, j ≠ ev → a.src j = d.src j) ∧
      a.fuse.forces = d.fuse.forces.filter fun p => p.src.toNat != ev) ∧
    (a.strong, a.fuse) = fuseLogged d.strong d.fuse { d.fuse with srcs := a.fuse.srcs, forces := a.fuse.forces, exits := a.fuse.exits } 2 ev d.now n 0 d.time.n 0 ∧
    a.fuse.exits = b := by
  have hsrc (j : Nat) : a.src j = (d.unlatched ev).src j := by
    rw [ha, Dev.logFuse_src]
    unfold Dev.src
    rw [hfuse]
  refine ⟨⟨⟨(hsrc ev).trans Dev.unlatched_src, fun j hj => (hsrc j).trans (Dev.unlatched_src_other hj)⟩, ?_⟩, ?_, ?_⟩
  · rw [ha, Dev.logFuse_forces, hfuse]
    rfl
  · rw [ha, Dev.logFuse_log, Dev.logFuse_srcs, Dev.logFuse_forces, Dev.logFuse_exits, hfuse, hstrong]
    rfl
  · rw [ha, Dev.logFuse_exits, hfuse]

end

-- FUSE_RELEASE (R300, R412, R424)

/-- The occurrence that a live source counts at the fuse box's release (R412). -/
def Dev.releaseOcc (d : Dev) (ev : Nat) : Occ := { ev := BitVec.ofNat 10 ev, ts := d.now, beat := d.time.n }

theorem mem_insertOcc {o x : Occ} {l : List Occ} : x ∈ insertOcc o l ↔ x = o ∨ x ∈ l := by
  induction l with
  | nil => simp [insertOcc]
  | cons y l ih =>
    unfold insertOcc
    split
    · exact List.mem_cons
    · simp only [List.mem_cons, ih]
      exact or_left_comm

/-- The fuse box of `s` has been released, and the live sources `done` have counted their occurrence. -/
structure Dev.Releasing (s : Dev) (done : List Nat) (d : Dev) : Prop where
  now : d.now = s.now
  time : d.time = s.time
  released : d.fuse.released = true
  forces : d.fuse.forces = s.fuse.forces
  srcs : ∀ j, (d.src j).slices = [] ∧ (d.src j).latched = (s.src j).latched ∧ (d.src j).held = (s.src j).held ∧ (d.src j).react = (s.src j).react
  raised : ∀ ev ∈ done, 896 ≤ ev → OnTheWay d ev
  events : ∀ o ∈ s.events, o ∈ d.events
  window : ∀ o, o ∈ d.fuse.window ↔ ∃ ev ∈ done, ev < 896 ∧ o = s.releaseOcc ev

section
variable {s d : Dev} {done : List Nat} {ev : Nat}

theorem Dev.Releasing.raise (h : s.Releasing done d) (hev : 896 ≤ ev) : s.Releasing (done ++ [ev]) (d.raise ev) where
  now := h.now
  time := h.time
  released := h.released
  forces := h.forces
  srcs := h.srcs
  raised x hx hx' := by
    rcases List.mem_append.1 hx with hx | hx
    · obtain ⟨o, ho, he⟩ := h.raised x hx hx'
      exact ⟨o, List.mem_append_left _ ho, he⟩
    · rw [List.mem_singleton.1 hx]
      exact ⟨_, List.mem_append_right _ (List.mem_singleton_self _), rfl⟩
  events o ho := List.mem_append_left _ (h.events o ho)
  window o := by
    rw [show (d.raise ev).fuse.window = d.fuse.window from rfl, h.window o]
    constructor
    · exact fun ⟨x, hx, hlt⟩ => ⟨x, List.mem_append_left _ hx, hlt⟩
    · rintro ⟨x, hx, hlt, ho⟩
      rcases List.mem_append.1 hx with hx | hx
      · exact ⟨x, hx, hlt, ho⟩
      · exact absurd hlt (Nat.not_lt.2 (List.mem_singleton.1 hx ▸ hev))

theorem Dev.fuseReceive_eq (o : Occ) (h : d.fuse.released = true) : d.fuseReceive o =
    d.putFuse { d.fuse with window := insertOcc o d.fuse.window, srcs := Tbl.modify {} d.fuse.srcs o.ev.toNat fun x => { x with cnt := x.cnt.bump } } :=
  if_neg (by rw [h]; decide)

theorem Dev.Releasing.receive (h : s.Releasing done d) (hev : ev < 896) : s.Releasing (done ++ [ev]) (d.fuseReceive (d.releaseOcc ev)) := by
  have hocc : d.releaseOcc ev = s.releaseOcc ev := by
    unfold Dev.releaseOcc
    rw [h.now, h.time]
  rw [hocc, Dev.fuseReceive_eq _ h.released]
  exact {
    now := h.now
    time := h.time
    released := h.released
    forces := h.forces
    srcs := fun j => by
      have hsrc := h.srcs j
      by_cases hj : j = (s.releaseOcc ev).ev.toNat
      · subst hj
        unfold Dev.src at hsrc ⊢
        rw [show Tbl.get _ (Dev.putFuse d _).fuse.srcs _ = _ from Tbl.get_set_same _ _ _ _]
        exact hsrc
      · unfold Dev.src at hsrc ⊢
        rw [show Tbl.get _ (Dev.putFuse d _).fuse.srcs _ = _ from Tbl.get_set_other _ _ _ _ _ hj]
        exact hsrc
    raised := fun x hx hx' => by
      rcases List.mem_append.1 hx with hx | hx
      · exact h.raised x hx hx'
      · exact absurd hev (Nat.not_lt.2 (List.mem_singleton.1 hx ▸ hx'))
    events := h.events
    window := fun o => by
      refine mem_insertOcc.trans ?_
      rw [h.window o]
      constructor
      · rintro (rfl | ⟨x, hx, hlt⟩)
        · exact ⟨ev, List.mem_append_right _ (List.mem_singleton_self _), hev, rfl⟩
        · exact ⟨x, List.mem_append_left _ hx, hlt⟩
      · rintro ⟨x, hx, hlt, ho⟩
        rcases List.mem_append.1 hx with hx | hx
        · exact .inr ⟨x, hx, hlt, ho⟩
        · exact .inl (List.mem_singleton.1 hx ▸ ho) }

/-- The loop of FUSE_RELEASE over live sources. -/
def Dev.releaseStep (d : Dev) (ev : Nat) : Dev := if 896 ≤ ev then d.raise ev else d.fuseReceive (d.releaseOcc ev)

theorem Dev.Releasing.each (h : s.Releasing done d) (l : List Nat) : s.Releasing (done ++ l) (d.each l Dev.releaseStep) := by
  unfold Dev.each
  induction l generalizing done d with
  | nil => exact (List.append_nil done).symm ▸ h
  | cons ev l ih =>
    have hstep : s.Releasing (done ++ [ev]) (d.releaseStep ev) := by
      unfold Dev.releaseStep
      split
      · next hev => exact h.raise hev
      · next hev => exact h.receive (Nat.lt_of_not_le hev)
    exact List.append_cons done ev l ▸ ih hstep

/-- The fuse box opens with window counts empty, and its log takes the RELEASE entry (R422, R424). -/
def Dev.fuseOpened (d : Dev) : Dev :=
  (d.modFuse fun x => { x with released := true, window := [], srcs := Tbl.mapAll {} x.srcs fun s => { s with slices := [] } }).logFuse 5 0 d.now 0 0 d.time.n 0

theorem Dev.fuseOpened_releasing (d : Dev) : d.Releasing [] d.fuseOpened where
  now := Dev.logFuse_now ..
  time := by unfold Dev.fuseOpened; rw [Dev.logFuse_eq]; rfl
  released := by unfold Dev.fuseOpened; rw [Dev.logFuse_eq]; exact fuseLogged_released
  forces := Dev.logFuse_forces ..
  srcs j := by
    unfold Dev.fuseOpened
    rw [Dev.logFuse_src]
    have hsrc := Tbl.get_mapAll ({} : FuseSrc) d.fuse.srcs (fun s => { s with slices := [] }) rfl j
    unfold Dev.src
    rw [show Tbl.get _ (Dev.modFuse d _).fuse.srcs _ = _ from hsrc]
    exact ⟨rfl, rfl, rfl, rfl⟩
  raised _ h := absurd h List.not_mem_nil
  events o ho := by unfold Dev.fuseOpened; rw [Dev.logFuse_eq]; exact ho
  window o := by
    unfold Dev.fuseOpened
    rw [Dev.logFuse_eq, fuseLogged_window]
    simp [Dev.modFuse]

/-- A source's live status is read from neither the fuse box nor the log (R421). -/
theorem Dev.liveStatus_with (d : Dev) {g : Strong} {f : Fuse} (h : g.rngok = d.strong.rngok) : Dev.liveStatus { d with strong := g, fuse := f } = d.liveStatus := by
  have hpower : Dev.powerLive { d with strong := g, fuse := f } = d.powerLive := by
    funext ev
    unfold Dev.powerLive
    rw [← h]
  funext ev
  unfold Dev.liveStatus
  rw [hpower]
  rfl

theorem Dev.fuseRelease_eq (h : d.fuse.released = false) :
    d.fuseRelease = d.fuseOpened.each ((List.range 1024).filter fun ev => d.liveStatus ev == some true) Dev.releaseStep := by
  have hlive : d.fuseOpened.liveStatus = d.liveStatus := by
    unfold Dev.fuseOpened
    rw [Dev.logFuse_eq]
    exact d.liveStatus_with fuseLogged_rngok
  unfold Dev.fuseRelease
  rw [if_neg (by rw [h]; decide), ← hlive]
  rfl

end

/-- A room whose isolation ends at a later boundary (R420). -/
def Dev.exitWaits (d : Dev) (ev : Nat) : Dev := (d.unlatched ev).modFuse fun f => { f with exits := f.exits ++ [{ room := BitVec.ofNat 8 ev }] }

/-- A room whose isolation ends at once, as no beats run (R420). -/
def Dev.exitDone (d : Dev) (ev : Nat) : Dev := (d.unlatched ev).modRoom (BitVec.ofNat 8 ev) fun x => { x with isolated := false }

section
variable {d : Dev} {ev : Nat} (hl : (d.src ev).latched = true) (hlive : d.srcLive ev = false) (hh : (d.src ev).held &&& 0x9C = 0x08)
include hl hlive hh

theorem Dev.ack_waits (hr : d.time.run = true) : d.ack ev = (d.exitWaits ev).logFuse 2 ev d.now ((d.src ev).count d.now) 0 d.time.n 0 := by
  rw [Dev.ack_accepted hl hlive hh rfl rfl rfl, if_pos (by rfl), Dev.releaseRoom_waits hr]
  rfl

theorem Dev.ack_atOnce (hr : d.time.run = false) : d.ack ev = (d.exitDone ev).logFuse 2 ev d.now ((d.src ev).count d.now) 0 d.time.n 0 := by
  rw [Dev.ack_accepted hl hlive hh rfl rfl rfl, if_pos (by rfl), Dev.releaseRoom_atOnce hr]
  rfl

end

section
variable (e : Dev)

theorem Dev.modFuse_forces (x : List PendingForce) :
    (e.modFuse fun f => { f with forces := f.forces ++ x }).fuse.forces = e.fuse.forces ++ x ∧
      (e.modFuse fun f => { f with forces := f.forces ++ x }).fuse.exits = e.fuse.exits := ⟨rfl, rfl⟩

theorem Dev.modFuse_exits (x : List IsolationExit) :
    (e.modFuse fun f => { f with exits := f.exits ++ x }).fuse = { e.fuse with exits := e.fuse.exits ++ x } := rfl

theorem Dev.unlatched_exits (ev : Nat) : (e.unlatched ev).fuse.exits = e.fuse.exits ∧ (e.unlatched ev).strong = e.strong := ⟨rfl, rfl⟩

theorem Dev.modRoom_strong_fuse (r : RoomId) (f : Room → Room) : (e.modRoom r f).strong = e.strong ∧ (e.modRoom r f).fuse = e.fuse := ⟨rfl, rfl⟩

theorem Dev.exitWaits_fuse (ev : Nat) : (e.exitWaits ev).strong = e.strong ∧
    (e.exitWaits ev).fuse = { (e.unlatched ev).fuse with exits := e.fuse.exits ++ [{ room := BitVec.ofNat 8 ev }] } := by
  unfold Dev.exitWaits
  exact ⟨(Dev.modFuse_strong ..).trans (e.unlatched_exits ev).2, (Dev.modFuse_exits ..).trans (by rw [(e.unlatched_exits ev).1])⟩

theorem Dev.exitDone_fuse (ev : Nat) : (e.exitDone ev).strong = e.strong ∧ (e.exitDone ev).fuse = { (e.unlatched ev).fuse with exits := e.fuse.exits } := by
  unfold Dev.exitDone
  exact ⟨(Dev.modRoom_strong_fuse ..).1.trans (e.unlatched_exits ev).2, (Dev.modRoom_strong_fuse ..).2.trans (by rw [← (e.unlatched_exits ev).1])⟩

theorem Dev.exitDone_returns (ev : Nat) : (e.exitDone ev).room (BitVec.ofNat 8 ev) = { e.room (BitVec.ofNat 8 ev) with isolated := false } ∧
    OtherRooms (BitVec.ofNat 8 ev) e (e.exitDone ev) := e.unlatched_returns ev _

end

/-- The sources whose live status stands as the fuse box is released (R421, R422). -/
def Dev.liveSources (d : Dev) : List Nat := (List.range 1024).filter fun ev => d.liveStatus ev == some true

theorem Dev.mem_liveSources (d : Dev) (ev : Nat) : ev ∈ d.liveSources ↔ ev < 1024 ∧ d.liveStatus ev = some true := by
  unfold Dev.liveSources
  rw [List.mem_filter, List.mem_range, beq_iff_eq]

theorem completes_fuseRelease {s : State} (h : s.dev.fuse.released = false) :
    Completes .fuseRelease s [.events, .fuse, .strong] (s.dev.Releasing s.dev.liveSources) := by
  have hopened := (Dev.fuseOpened_releasing s.dev).each s.dev.liveSources
  rw [List.nil_append] at hopened
  exact completes_of_run rfl (Dev.fuseRelease_eq h) (Dev.fuseRelease_eq h ▸ Dev.fuseRelease_keep (.refl _ _) (by decide) (by decide) (by decide)) hopened

/-- What the release counts of the live sources. -/
theorem Dev.Releasing.window_live {s d : Dev} (h : s.Releasing s.liveSources d) (o : Occ) :
    o ∈ d.fuse.window ↔ ∃ ev < 896, s.liveStatus ev = some true ∧ o = s.releaseOcc ev := by
  refine (h.window o).trans (exists_congr fun ev => ?_)
  rw [s.mem_liveSources]
  exact ⟨fun ⟨⟨_, hlive⟩, hlt, ho⟩ => ⟨hlt, hlive, ho⟩, fun ⟨hlt, hlive, ho⟩ => ⟨⟨by omega, hlive⟩, hlt, ho⟩⟩

/-- Settles O50: FUSE_CLASSIFY by the source's count against its threshold and the reaction it has, an acknowledge by what the latch held, and the release
by induction on the live sources. -/
theorem fuseBoxLatchesAndReleases : Obligations.FuseBoxLatchesAndReleases := by
  intro s fz logged sources
  refine ⟨?classify, ?ack, ?released, ?release⟩
  case classify =>
    intro o rest hw ev y n re t latch latches
    have hre : (s.dev.counted o rest).reactOf ev = re := Dev.counted_react
    refine ⟨?counts, ?logs, ?alone, ?isolates, ?forces, ?rolls⟩
    case counts =>
      intro hl hn h0
      refine completes_of_run rfl ((Dev.fuseClassify_below hw hl hn).trans (if_pos ?_)) (Dev.counted_keep (by decide) (by decide))
        ⟨rfl, ⟨Dev.counted_src, fun j hj => Dev.counted_src_other hj⟩, rfl⟩
      rw [hre, and_one_eq, h0]
      decide
    case logs =>
      intro hl hn h1
      have hone : (s.dev.counted o rest).reactOf ev &&& 0x01 = 1 := by
        rw [hre, and_one_eq, h1]
        decide
      refine completes_of_run rfl ((Dev.fuseClassify_below hw hl hn).trans (if_neg ?_)) (Dev.logFuse_keep (Dev.counted_keep (by decide) (by decide)) (by decide) (by decide) _ _ _ _ _ _ _)
        ?_
      · rw [hone]
        decide
      · refine ⟨(Dev.logFuse_now ..), ⟨(Dev.logFuse_src ..).trans Dev.counted_src, fun j hj => (Dev.logFuse_src ..).trans (Dev.counted_src_other hj)⟩, ?_⟩
        refine (Dev.logFuse_log ..).trans ?_
        rw [Dev.logFuse_srcs, hone]
        rfl
    case alone =>
      intro hl hn hr
      exact completes_latching hw hl hn (Dev.latch_alone (hre ▸ hr)) (Dev.latched_keep (Dev.counted_keep (by decide) (by decide)) (by decide) (by decide)) Dev.latchShown_latched ⟨Dev.latched_forces, Dev.latched_exits⟩
    case isolates =>
      intro hl hn hr
      refine completes_latching hw hl hn (Dev.latch_isolates (hre ▸ hr)) (Dev.isolateRoom_keep (Dev.latched_keep (Dev.counted_keep (by decide) (by decide)) (by decide) (by decide)) (by decide) (by decide) (by decide) _)
        (Dev.latchShown_isolated _) (Dev.isolates_shown _ rfl)
    case forces =>
      intro hb hrun hl hn hr
      have hbeat : ((s.dev.counted o rest).src o.ev.toNat).beatcls = true := by rw [Dev.counted_src]; exact hb
      exact completes_latching hw hl hn (Dev.latch_forces (hre ▸ hr) hbeat hrun) (Dev.modFuse_keep (Dev.latched_keep (Dev.counted_keep (by decide) (by decide)) (by decide) (by decide)) (by decide) _)
        (Dev.latchShown_forced _) ⟨(Dev.modFuse_forces ..).1.trans (congrArg (· ++ _) Dev.latched_forces), (Dev.modFuse_forces ..).2.trans Dev.latched_exits⟩
    case rolls =>
      intro f hf hsince hrun hscope hbeat hdec hl hn hr
      have hroll : ((s.dev.counted o rest).latched o).orderRollback o = _ := Dev.orderRollback_one (Dev.latched_admitted.trans hf) hsince
        (by rw [Dev.latched_time]; exact hrun) ((Dev.latched_inScope ev f).trans hscope) (by rw [Dev.latched_time]; exact hbeat) hdec
      refine completes_latching hw hl hn ((Dev.latch_rolls (hre ▸ hr)).trans hroll) (Dev.modFunc_keep (Dev.latched_keep (Dev.counted_keep (by decide) (by decide)) (by decide) (by decide)) (by decide) _ _)
        (Dev.latchShown_ordered _ _) ⟨?_, (congrArg Fuse.forces (Dev.modFunc_fuse ..)).trans Dev.latched_forces⟩
      rw [Dev.modFunc_ordered, Dev.latched_func?]
  case ack =>
    intro q v hq h31 ev x n
    have hrun {ps : List Part} {d : Dev} {Q : Dev → Prop} (hd : s.dev.ack ev = d) (hk : Keep ps s.dev d) (hQ : Q d) : Completes (.fuseAck q v) s ps Q :=
      completes_of_run (f := fun d => if d.isPf q then d.writeFuseAck v else d) rfl ((if_pos hq).trans ((if_pos h31).trans hd)) hk hQ
    refine ⟨fun hc => ?refused, fun hl hlive => And.intro (fun hh => ?plain) (And.intro (fun hh hr => ?waits) fun hh hr => ?atOnce)⟩
    case refused =>
      exact hrun (Dev.ack_refused hc) (Dev.logFuse_keep (Dev.countFuse_keep (.refl _ _) (by decide) _) (by decide) (by decide) _ _ _ _ _ _ _) (Dev.logFuse_log ..)
    case plain =>
      have ⟨hcleared, hnoted, hexits⟩ := Dev.acked_shows (d := s.dev) (e := s.dev.unlatched ev) (ev := ev) (b := fz.exits) n rfl rfl rfl
      exact hrun (Dev.ack_accepted hl hlive hh rfl rfl rfl) (Dev.logFuse_keep (Dev.unlatched_keep (by decide)) (by decide) (by decide) _ _ _ _ _ _ _) ⟨hcleared, hnoted, hexits⟩
    case waits =>
      have ⟨hcleared, hnoted, hexits⟩ := Dev.acked_shows (d := s.dev) (e := s.dev.exitWaits ev) (ev := ev) (b := fz.exits ++ [{ room := BitVec.ofNat 8 ev }]) n
        (s.dev.exitWaits_fuse ev).1 (s.dev.exitWaits_fuse ev).2 rfl
      exact hrun (Dev.ack_waits hl hlive hh hr) (Dev.logFuse_keep (Dev.modFuse_keep (Dev.unlatched_keep (by decide)) (by decide) _) (by decide) (by decide) _ _ _ _ _ _ _)
        ⟨hcleared, hnoted, hexits⟩
    case atOnce =>
      have ⟨hcleared, hnoted, hexits⟩ := Dev.acked_shows (d := s.dev) (e := s.dev.exitDone ev) (ev := ev) (b := fz.exits) n
        (s.dev.exitDone_fuse ev).1 (s.dev.exitDone_fuse ev).2 rfl
      have hroom : ((s.dev.exitDone ev).logFuse 2 ev s.dev.now n 0 s.dev.time.n 0).room = (s.dev.exitDone ev).room := Dev.logFuse_room ..
      have hreturns := s.dev.exitDone_returns ev
      refine hrun (Dev.ack_atOnce hl hlive hh hr) (Dev.logFuse_keep (Dev.modRoom_keep (Dev.unlatched_keep (by decide)) (by decide) _ _) (by decide) (by decide) _ _ _ _ _ _ _)
        ⟨hcleared, hnoted, hexits, ?_, ?_⟩
      · rw [hroom]
        exact hreturns.1
      · intro q hq
        rw [hroom]
        exact hreturns.2 q hq
  case released => exact fun h => completes_of_run rfl (if_pos h) (.refl _ _) rfl
  case release =>
    intro h
    refine completes_imp (completes_fuseRelease h) fun d hrel =>
      ⟨hrel.released, hrel.forces, hrel.srcs, fun ev hev hlt hlive => ?_, hrel.events, hrel.window_live⟩
    exact hrel.raised ev ((s.dev.mem_liveSources ev).2 ⟨hlt, hlive⟩) hev

end Sys2Proof.Machine
end

section
/-! The power governor, its regulators and sensors (17_power_reset_startup.md R467 to R470) -/

namespace Sys2Proof.Machine
open Sys2Proof

-- the ceilings (R467)

/-- A write of POWER_CFG keeps every rule (R467). -/
def Dev.CeilingOk (d : Dev) (ceil hub : BitVec 9) : Prop :=
  150 ≤ ceil.toNat ∧ ceil.toNat ≤ 420 ∧ 60 ≤ hub.toNat ∧ hub.toNat ≤ 200 ∧ hub.toNat + 10 ≤ ceil.toNat ∧
    (ceil = d.power.ceil ∧ hub = d.power.hubres ∨ ∀ w < 4, d.wingPeak w ≤ d.ceilingOf ceil.toNat hub.toNat)

theorem Dev.ceilingOk_iff (d : Dev) (ceil hub : BitVec 9) : d.ceilingOk ceil.toNat hub.toNat = true ↔ d.CeilingOk ceil hub := by
  unfold Dev.ceilingOk Dev.CeilingOk
  simp only [Bool.and_eq_true, Bool.or_eq_true, decide_eq_true_eq, beq_iff_eq, List.all_eq_true, List.mem_range, BitVec.toNat_inj, and_assoc]

/-- POWER_CFG is taken whole where it keeps every rule, else counted (R467). -/
theorem Dev.writeCeiling_eq (d : Dev) (v : Word) : d.writeCeiling v =
    if d.ceilingOk (v.extractLsb' 0 9).toNat (v.extractLsb' 16 9).toNat then d.modPower fun p => { p with ceil := v.extractLsb' 0 9, hubres := v.extractLsb' 16 9 }
    else d.countPower 0 := by
  have hfld (lo : Nat) : fld v.toNat lo 9 = (v.extractLsb' lo 9).toNat := (BitVec.extractLsb'_toNat lo 9 v).symm
  unfold Dev.writeCeiling
  simp only [hfld, BitVec.ofNat_toNat, BitVec.setWidth_eq]

-- readings (R468)

/-- The power block after a reading, but for CEILOVER (R468). -/
def Power.read (p : Power) (total hub : BitVec 16) : Power :=
  { p with measTotal := total, measHub := hub, above := if 10 * p.ceil.toNat < total.toNat then min 10 (p.above + 1) else 0 }

section
variable {d : Dev} {total hub : BitVec 16}

/-- CEILOVER after a reading: set by ten in a row above the ceiling, cleared by one that is not above it (R468). -/
def Power.overAfter (p : Power) (total hub : BitVec 16) : Bool := (p.read total hub).above == 10 || (p.ceilOver && (p.read total hub).above != 0)

theorem Power.overAfter_eq {p : Power} {n : Nat} {b : Bool} (hn : (p.read total hub).above = n) (hb : p.ceilOver = b) :
    p.overAfter total hub = (n == 10 || (b && n != 0)) := by
  unfold Power.overAfter
  rw [hn, hb]

theorem Dev.powerReading_same (h : d.power.overAfter total hub = d.power.ceilOver) : d.powerReading total hub = d.modPower fun p => p.read total hub := by
  refine (if_pos h).trans ?_
  exact congrArg (fun b => d.modPower fun p => { p.read total hub with ceilOver := b }) h

theorem Dev.powerReading_turns (h : d.power.overAfter total hub ≠ d.power.ceilOver) :
    d.powerReading total hub = ((d.modPower fun p => { p.read total hub with ceilOver := d.power.overAfter total hub }).raise 704).syncSweeps := if_neg h

theorem Dev.syncSweeps_power (d : Dev) : d.syncSweeps.power = d.power :=
  (Dev.syncSweeps_keep (.refl [.events, .cellar] d) (by decide) (by decide)).power.resolve_left (by decide)

end

-- regulators (R469)

/-- Where the regulator's setpoint goes, given what the path monitors ask for: by at most 5 mV, within 700 to 850 mV. -/
theorem stepVcore_bounds {cur : Nat} (ask : Nat) (hlo : 700 ≤ cur) (hhi : cur ≤ 850) :
    700 ≤ stepVcore cur ask ∧ stepVcore cur ask ≤ 850 ∧ stepVcore cur ask ≤ cur + 5 ∧ cur ≤ stepVcore cur ask + 5 := by
  unfold stepVcore
  dsimp only
  split <;> omega

section
variable {d : Dev} {w : BitVec 2} {meas : BitVec 16}

/-- The power block after a wing's setpoint `want` was commanded and read back (R469). -/
def Power.stepped (p : Power) (w : BitVec 2) (want : Nat) (meas : BitVec 16) (now : Instant) : Power :=
  { p with vset := Tbl.set 850 p.vset w.toNat (BitVec.ofNat 16 want), vmeas := Tbl.set 0 p.vmeas w.toNat meas,
           lastVstep := if want = (p.setpoint w).toNat then p.lastVstep else Tbl.set 0 p.lastVstep w.toNat now }

theorem Dev.vcoreStep_steps {want : Nat} (hf : Tbl.get false d.power.vfault w.toNat = false) (hdue : Tbl.get 0 d.power.lastVstep w.toNat + 100000 * ns ≤ d.now)
    (hw : want = stepVcore (d.power.setpoint w).toNat (Config.vcore d.free)) (h1 : meas.toNat ≤ want + 20) (h2 : want ≤ meas.toNat + 20) :
    d.vcoreStep w meas true = (d.take 1).modPower fun _ => d.power.stepped w want meas d.now := by
  have hbad : ¬ 20 < ((meas.toNat : Int) - want).natAbs := by omega
  unfold Dev.vcoreStep
  rw [if_neg (by rw [hf]; decide)]
  simp only [decide_eq_true hdue, if_true, ← hw, hbad, decide_false, Bool.not_true, Bool.or_self, Bool.false_or, Bool.false_eq_true, if_false]
  unfold Power.stepped
  by_cases he : want = (d.power.setpoint w).toNat
  · have hmoved : (want != (d.power.setpoint w).toNat) = false := bne_eq_false_iff_eq.2 he
    simp only [hmoved, Bool.false_eq_true, if_false, if_pos he]
    rfl
  · have hmoved : (want != (d.power.setpoint w).toNat) = true := bne_iff_ne.2 he
    simp only [hmoved, if_true, if_neg he]
    rfl

/-- The power block after a regulator did not acknowledge: commanded to 850 mV, and in fault (R469). -/
def Power.faulted (p : Power) (w : BitVec 2) (now : Instant) : Power :=
  { p with vset := Tbl.set 850 p.vset w.toNat 850, vmeas := Tbl.set 0 p.vmeas w.toNat 0, avsFault := true, vfault := Tbl.set false p.vfault w.toNat true,
           lastVstep := Tbl.set 0 p.lastVstep w.toNat now }

theorem Tbl.set_ne_nil {α : Type} [DecidableEq α] {e : α} {t : Tbl α} {i : Nat} {a : α} (h : a ≠ e) : Tbl.set e t i a ≠ [] := by
  intro hn
  have hget := Tbl.get_set_same e t i a
  rw [hn] at hget
  exact h hget.symm

theorem Dev.setAvs_faults (e : Dev) : ((e.modPower fun p =>
      { p with vset := Tbl.set 850 p.vset w.toNat 850, vmeas := Tbl.set 0 p.vmeas w.toNat 0, lastVstep := Tbl.set 0 p.lastVstep w.toNat e.now }).setAvs w true) =
    (e.modPower fun p => p.faulted w e.now).raise 707 := by
  have hfault : (Tbl.set false e.power.vfault w.toNat true).isEmpty = false := List.isEmpty_eq_false_iff.2 (Tbl.set_ne_nil (by decide))
  unfold Dev.setAvs Dev.modPower Power.faulted
  dsimp only
  rw [hfault]
  rfl

theorem Dev.vcoreStep_faults (hf : Tbl.get false d.power.vfault w.toNat = false) :
    d.vcoreStep w meas false = ((if Tbl.get 0 d.power.lastVstep w.toNat + 100000 * ns ≤ d.now then d.take 1 else d).modPower fun p => p.faulted w d.now).raise 707 := by
  unfold Dev.vcoreStep
  rw [if_neg (by rw [hf]; decide)]
  by_cases hdue : Tbl.get 0 d.power.lastVstep w.toNat + 100000 * ns ≤ d.now
  · simp only [if_true, Bool.not_false, Bool.true_or, hdue]
    exact Dev.setAvs_faults (d.take 1)
  · simp only [if_true, Bool.not_false, Bool.true_or, hdue, if_false]
    exact Dev.setAvs_faults d

/-- A fault is raised and shown, whether or not the paths were asked before it (R469). -/
theorem Dev.faulted_shows {c : Prop} [Decidable c] (w : BitVec 2) : Raised d (((if c then d.take 1 else d).modPower fun p => p.faulted w d.now).raise 707) 707 ∧
    (((if c then d.take 1 else d).modPower fun p => p.faulted w d.now).raise 707).power = d.power.faulted w d.now := by
  split
  · exact ⟨Dev.raise_raised rfl 707, rfl⟩
  · exact ⟨Dev.raise_raised rfl 707, rfl⟩

/-- The power block after a retry of a regulator in fault (R469). -/
def Power.tried (p : Power) (w : BitVec 2) (t : Instant) : Power := { p with cnt := bumpAt p.cnt 1, lastVstep := Tbl.set 0 p.lastVstep w.toNat t }

/-- The regulator has recovered: AVSFAULT stays where another is in fault (R469). -/
def Power.mended (p : Power) (w : BitVec 2) : Power :=
  { p with vfault := Tbl.set false p.vfault w.toNat false, avsFault := decide (Tbl.set false p.vfault w.toNat false ≠ []) }

/-- A regulator in fault is tried at `t`. -/
def Dev.triedAt (d : Dev) (w : BitVec 2) (t : Instant) : Dev := (d.reach t).modPower fun p => p.tried w (max d.now t)

theorem Dev.triedAt_eq (d : Dev) (w : BitVec 2) (t : Instant) : d.triedAt w t =
    ((d.reach t).countPower 1).modPower fun p => { p with lastVstep := Tbl.set 0 p.lastVstep w.toNat ((d.reach t).countPower 1).now } := by
  unfold Dev.triedAt
  rw [← Dev.reach_now]
  rfl

theorem Dev.avsRetry_eq (ok : Bool) (hf : Tbl.get false d.power.vfault w.toNat = true) : d.avsRetry w ok =
    if ok then (d.triedAt w (Tbl.get 0 d.power.lastVstep w.toNat + 10 ^ 9 * ns)).setAvs w false
    else d.triedAt w (Tbl.get 0 d.power.lastVstep w.toNat + 10 ^ 9 * ns) := by
  rw [Dev.triedAt_eq]
  exact if_neg (by rw [hf]; decide)

theorem Dev.triedAt_keep {ps : List Part} (d : Dev) (w : BitVec 2) (t : Instant) (hnow : .now ∈ ps) (hpower : .power ∈ ps) : Keep ps d (d.triedAt w t) :=
  Dev.modPower_keep (Dev.reach_keep (.refl _ _) hnow _) hpower _

theorem Dev.triedAt_shows (d : Dev) (w : BitVec 2) (t : Instant) : (d.triedAt w t).now = max d.now t ∧ (d.triedAt w t).power = d.power.tried w (max d.now t) :=
  ⟨Dev.reach_now _ _, congrArg (fun p => Power.tried p w _) (Dev.reach_power _ _)⟩

theorem Dev.setAvs_shows (e : Dev) (w : BitVec 2) : (e.setAvs w false).now = e.now ∧ (e.setAvs w false).power = e.power.mended w ∧ Raised e (e.setAvs w false) 707 := by
  have hempty (t : Tbl Bool) : (!t.isEmpty) = decide (t ≠ []) := by cases t <;> rfl
  refine ⟨rfl, ?_, Dev.raise_raised rfl 707⟩
  unfold Dev.setAvs Dev.modPower Power.mended
  rw [← hempty]
  rfl

/-- A retry that succeeds, with its event (R469). -/
theorem Dev.mendedAt_shows (d : Dev) (w : BitVec 2) (t : Instant) : ((d.triedAt w t).setAvs w false).now = max d.now t ∧
    ((d.triedAt w t).setAvs w false).power = (d.power.tried w (max d.now t)).mended w ∧ Raised d ((d.triedAt w t).setAvs w false) 707 := by
  obtain ⟨hnow, hpower⟩ := d.triedAt_shows w t
  have hevents : (d.triedAt w t).events = d.events := (Dev.triedAt_keep (ps := [.now, .power]) d w t (by decide) (by decide)).events.resolve_left (by decide)
  obtain ⟨hthen, hmended, o, ho, hev, hts⟩ := (d.triedAt w t).setAvs_shows w
  exact ⟨hthen.trans hnow, hpower ▸ hmended, o, hevents ▸ ho, hev, hts⟩

end

-- sensors (R470)

/-- A sensor has taken a sample (R470). -/
def Power.sampled (p : Power) (k : BitVec 6) (t : BitVec 16) : Tbl Sensor :=
  Tbl.set {} p.sensors k.toNat
    { samples := if (Tbl.get ({} : Sensor) p.sensors k.toNat).samples.toNat < 16 then (Tbl.get ({} : Sensor) p.sensors k.toNat).samples + 1 else 16, temp := t }

section
variable (d : Dev) (k : BitVec 6) (t : BitVec 16)

/-- OVER as the sensors have it (R470). -/
def Dev.overBy (d : Dev) (sensors : Tbl Sensor) : Bool := sensors.any fun (_, s) => decide (4 * (d.tjmax : Int) < s.temp.toInt)

/-- HOT as the sensors and the stack have it (R470). -/
def Dev.hotBy (d : Dev) (sensors : Tbl Sensor) : Bool :=
  (sensors.any fun (_, s) => decide (4 * (d.power.hotCfg.toNat : Int) ≤ s.temp.toInt)) || decide (95 < d.cellar.temp.toNat)

/-- The sample is taken, and OVER follows it (R470). -/
def Dev.sampledOver : Dev :=
  let e := d.modPower fun p => { p with sensors := p.sampled k t }
  if d.overBy (d.power.sampled k t) = d.power.overTemp then e else (e.modPower fun p => { p with overTemp := d.overBy (d.power.sampled k t) }).raise 706

theorem Dev.sampledOver_shows : (d.sampledOver k t).power = { d.power with sensors := d.power.sampled k t, overTemp := d.overBy (d.power.sampled k t) } ∧
    (d.sampledOver k t).cellar = d.cellar ∧ (d.overBy (d.power.sampled k t) ≠ d.power.overTemp → OnTheWay (d.sampledOver k t) 706) := by
  unfold Dev.sampledOver
  dsimp only
  by_cases h : d.overBy (d.power.sampled k t) = d.power.overTemp
  · rw [if_pos h, h]
    exact ⟨rfl, rfl, fun hn => absurd rfl hn⟩
  · rw [if_neg h]
    exact ⟨rfl, rfl, fun _ => ⟨_, Dev.enRoute_raise _ 706 0, rfl⟩⟩

/-- HOT follows the sensors, with its event where it changes, and what was on its way stays on its way (R470). -/
theorem Dev.updateHot_shows (d : Dev) : d.updateHot.power = { d.power with hot := d.hotBy d.power.sensors } ∧
    (d.hotBy d.power.sensors ≠ d.power.hot → OnTheWay d.updateHot 705) ∧ ∀ ev, OnTheWay d ev → OnTheWay d.updateHot ev := by
  have hstep : d.updateHot =
      (if d.hotBy d.power.sensors = d.power.hot then d else (d.putPower { d.power with hot := d.hotBy d.power.sensors }).raise 705).syncSweeps := rfl
  rw [hstep, Dev.syncSweeps_power]
  by_cases h : d.hotBy d.power.sensors = d.power.hot
  · rw [if_pos h, h]
    exact ⟨rfl, fun hn => absurd rfl hn, fun ev ⟨o, ho, he⟩ => ⟨o, Dev.EnRoute.syncSweeps ho, he⟩⟩
  · rw [if_neg h]
    exact ⟨rfl, fun _ => ⟨_, (Dev.enRoute_raise _ 705 0).syncSweeps, rfl⟩,
      fun ev ⟨o, ho, he⟩ => ⟨o, (Dev.EnRoute.raise (d := d.putPower { d.power with hot := d.hotBy d.power.sensors }) ho).syncSweeps, he⟩⟩

theorem Dev.thermalSample_shows : (d.thermalSample k t).power =
      { d.power with sensors := d.power.sampled k t, overTemp := d.overBy (d.power.sampled k t), hot := d.hotBy (d.power.sampled k t) } ∧
    (d.overBy (d.power.sampled k t) ≠ d.power.overTemp → OnTheWay (d.thermalSample k t) 706) ∧
    (d.hotBy (d.power.sampled k t) ≠ d.power.hot → OnTheWay (d.thermalSample k t) 705) := by
  have hstep : d.thermalSample k t = (d.sampledOver k t).updateHot := rfl
  obtain ⟨hpower, hcellar, hover⟩ := d.sampledOver_shows k t
  obtain ⟨hhot, hraised, hkept⟩ := (d.sampledOver k t).updateHot_shows
  have hby : (d.sampledOver k t).hotBy (d.sampledOver k t).power.sensors = d.hotBy (d.power.sampled k t) := by
    unfold Dev.hotBy
    rw [hpower, hcellar]
  rw [hby, hpower] at hhot hraised
  rw [hstep]
  exact ⟨hhot, fun h => hkept _ (hover h), hraised⟩

theorem Dev.overBy_iff (sensors : Tbl Sensor) :
    d.overBy sensors = true ↔ ∃ y ∈ sensors, 4 * (if d.ident.iGrade = true then 105 else 100 : Int) < y.2.temp.toInt := by
  have hmax : (d.tjmax : Int) = if d.ident.iGrade = true then 105 else 100 := by
    unfold Dev.tjmax
    split <;> rfl
  unfold Dev.overBy
  simp only [List.any_eq_true, decide_eq_true_eq, hmax]

theorem Dev.hotBy_iff (sensors : Tbl Sensor) :
    d.hotBy sensors = true ↔ (∃ y ∈ sensors, 4 * (d.power.hotCfg.toNat : Int) ≤ y.2.temp.toInt) ∨ 95 < d.cellar.temp.toNat := by
  unfold Dev.hotBy
  simp only [Bool.or_eq_true, List.any_eq_true, decide_eq_true_eq]

end

/-- Settles O53: each sensor and regulator by what its reading says against the limits, and the events by the flags that change. -/
theorem governorFollowsItsSensors : Obligations.GovernorFollowsItsSensors := by
  intro s p
  refine ⟨?ceilings, ?readings, ?steps, ?retries, ?samples⟩
  case ceilings =>
    intro q v hq ceil hub ok
    have hiff : s.dev.ceilingOk ceil.toNat hub.toNat = true ↔ ok := s.dev.ceilingOk_iff ceil hub
    have hrun {ps : List Part} {d : Dev} {Q : Dev → Prop} (hd : s.dev.writeCeiling v = d) (hk : Keep ps s.dev d) (hQ : Q d) : Completes (.ceilingWrite q v) s ps Q :=
      completes_of_run (f := fun d => if d.isPf q then d.writeCeiling v else d) rfl ((if_pos hq).trans hd) hk hQ
    exact ⟨fun hok => hrun ((Dev.writeCeiling_eq _ v).trans (if_pos (hiff.2 hok))) (Dev.modPower_keep (.refl _ _) (by decide) _) rfl,
      fun hbad => hrun ((Dev.writeCeiling_eq _ v).trans (if_neg (mt hiff.1 hbad))) (Dev.modPower_keep (.refl _ _) (by decide) _) rfl⟩
  case readings =>
    intro total hub above read
    have same (h : p.overAfter total hub = p.ceilOver) : Completes (.powerReading total hub) s [.power] fun d => d.power = read :=
      completes_of_run rfl (Dev.powerReading_same h) (Dev.modPower_keep (.refl _ _) (by decide) _) rfl
    have turns {b : Bool} (h : p.overAfter total hub = b) (hb : b ≠ p.ceilOver) :
        Completes (.powerReading total hub) s [.events, .cellar, .power] fun d => d.power = { read with ceilOver := b } ∧ OnTheWay d 704 := by
      refine completes_of_run rfl (Dev.powerReading_turns (h ▸ hb)) (Dev.syncSweeps_keep (Dev.raise_keep (Dev.modPower_keep (.refl _ _) (by decide) _) (by decide) _ _) (by decide) (by decide))
        ⟨?_, _, (Dev.enRoute_raise _ 704 0).syncSweeps, rfl⟩
      rw [Dev.syncSweeps_power, ← h]
      rfl
    have habove (h : 10 * p.ceil.toNat < total.toNat) : (p.read total hub).above = min 10 (p.above + 1) := if_pos h
    have hbelow (h : total.toNat ≤ 10 * p.ceil.toNat) : (p.read total hub).above = 0 := if_neg (Nat.not_lt.2 h)
    refine ⟨fun h h9 ho => same ?_, fun h h9 ho => turns ?_ ?_, fun h ho => same ?_, fun h ho => turns ?_ ?_, fun h ho => same ?_⟩
    · rw [Power.overAfter_eq (habove h) ho, ho]
      simp
      omega
    · rw [Power.overAfter_eq (habove h) ho]
      simp
      omega
    · rw [ho]
      decide
    · rw [Power.overAfter_eq (habove h) ho, ho]
      simp
    · rw [Power.overAfter_eq (hbelow h) ho]
      rfl
    · rw [ho]
      decide
    · rw [Power.overAfter_eq (hbelow h) ho, ho]
      rfl
  case steps =>
    intro w meas ack cur due asked hf
    refine ⟨?_, ?_⟩
    · rintro hdue rfl hlo hhi want hwant h1 h2
      obtain ⟨h700, h850, hup, hdown⟩ := stepVcore_bounds (Config.vcore s.dev.free) hlo hhi
      have hw : want = stepVcore cur (Config.vcore s.dev.free) := hwant
      refine completes_of_run rfl (Dev.vcoreStep_steps hf hdue hw h1 h2) (Dev.modPower_keep (Dev.take_keep (.refl _ _) (by decide) _) (by decide) _)
        ⟨rfl, hw ▸ h700, hw ▸ h850, hw ▸ hup, hw ▸ hdown, rfl⟩
    · rintro rfl
      refine completes_of_run rfl (Dev.vcoreStep_faults hf) (Dev.raise_keep (Dev.modPower_keep (.ite (Dev.take_keep (.refl _ _) (by decide) _) (.refl _ _)) (by decide) _) (by decide) _ _) 
        (Dev.faulted_shows w)
  case retries =>
    intro w ok hf t tried
    obtain ⟨hnow, hpower⟩ := s.dev.triedAt_shows w (Tbl.get 0 p.lastVstep w.toNat + 10 ^ 9 * ns)
    refine ⟨?_, ?_⟩
    · rintro rfl
      exact completes_of_run rfl (Dev.avsRetry_eq false hf) (Dev.triedAt_keep _ _ _ (by decide) (by decide)) ⟨hnow, hpower⟩
    · rintro rfl
      exact completes_of_run rfl (Dev.avsRetry_eq true hf) (Dev.setAvs_keep (Dev.triedAt_keep _ _ _ (by decide) (by decide)) (by decide) (by decide) _ _)
        (s.dev.mendedAt_shows w (Tbl.get 0 p.lastVstep w.toNat + 10 ^ 9 * ns))
  case samples =>
    intro k t
    obtain ⟨hpower, hover, hhot⟩ := s.dev.thermalSample_shows k t
    refine completes_of_run rfl rfl (Dev.thermalSample_keep (.refl _ _) (by decide) (by decide) (by decide) _ _) ⟨?_, ?_, ?_, ?_, ?_⟩
    · rw [hpower]
      rfl
    · rw [hpower]
      exact s.dev.overBy_iff _
    · rw [hpower]
      exact s.dev.hotBy_iff _
    · exact fun h => hover fun he => h ((congrArg Power.overTemp hpower).trans he)
    · exact fun h => hhot fun he => h ((congrArg Power.hot hpower).trans he)

end Sys2Proof.Machine
end

section
/-! Errors of the stack, row repairs and its temperature (06_cellar.md R157 to R159, R470) -/

namespace Sys2Proof.Machine
open Sys2Proof

section
variable {d : Dev}

/-- Sweeps that are idle neither hold nor go on. -/
theorem Dev.syncSweeps_of_idle (h : ∀ e ∈ d.cellar.sweeps, e.2.phase = .idle) : d.syncSweeps = d := by
  unfold Dev.syncSweeps
  refine Dev.each_fixed fun ⟨n, z⟩ hz => ?_
  have hidle : z.phase = .idle := h _ hz
  dsimp only
  rw [hidle]

/-- Of the cellar, holding and resuming sweeps changes the engines alone. -/
theorem Dev.syncSweeps_cellar (d : Dev) : ∃ z, d.syncSweeps.cellar = { d.cellar with sweeps := z } := by
  unfold Dev.syncSweeps
  refine Dev.each_induct (P := fun e => ∃ z, e.cellar = { d.cellar with sweeps := z }) ⟨_, rfl⟩ fun e ⟨n, z⟩ he => ?_
  obtain ⟨y, hy⟩ := he
  have hset (p : SweepPhase) : ∃ z', (e.modCellar fun c => { c with sweeps := Tbl.set {} c.sweeps n { z with phase := p } }).cellar = { d.cellar with sweeps := z' } :=
    ⟨_, congrArg (fun c : Cellar => { c with sweeps := Tbl.set {} c.sweeps n { z with phase := p } }) hy⟩
  dsimp only
  split
  · exact ⟨y, hy⟩
  · split
    · exact hset .hold
    · exact ⟨y, hy⟩
  · split
    · exact ⟨y, hy⟩
    · exact hset .run

-- PATROL_READ (R157, R159)

/-- A row whose earlier errors are none takes one corrected error. -/
theorem Dev.rowEcc_corrected (pc row : Nat) (h : d.cellar.rowErrors = []) : d.rowEcc (pc, row) 1 none =
    d.modCellar fun c => { c with pcCe := Tbl.modify {} c.pcCe pc (·.bumpBy 1), rowErrors := [(pc * 2 ^ 20 + row, d.now)] } := by
  have hold : (List.replicate 1 (pc * 2 ^ 20 + row, d.now)) ++ d.cellar.rowErrors.filter (fun x => decide (d.now < x.2 + 10 ^ 9 * ns)) = [(pc * 2 ^ 20 + row, d.now)] := by
    rw [h]
    rfl
  unfold Dev.rowEcc Dev.modCellar
  dsimp only
  rw [if_neg Nat.one_ne_zero, hold]
  refine if_neg fun hc => absurd hc.1 ?_
  simp

/-- The cellar with a row under repair for an uncorrectable word (R159). -/
def Cellar.rowLost (c : Cellar) (pc row bad : Nat) : Cellar :=
  { c with pcUe := Tbl.modify {} c.pcUe pc (·.bump), unread := [bad], repairing := [{ pc, row, shadow := rowLines pc row, bad := [bad] }] }

theorem Dev.rowEcc_lost (pc row bad : Nat) (hu : d.cellar.unread = []) (hr : d.cellar.repairing = []) (hidle : ∀ e ∈ d.cellar.sweeps, e.2.phase = .idle) :
    d.rowEcc (pc, row) 0 (some bad) = (d.modCellar (·.rowLost pc row bad)).raise (424 + pc) := by
  have hrepair : (((d.modCellar fun c => { c with pcUe := Tbl.modify {} c.pcUe pc (·.bump) }).raise (424 + pc)).startRepair (pc, row) (some bad)) =
      (d.modCellar (·.rowLost pc row bad)).raise (424 + pc) := by
    unfold Dev.startRepair
    refine Eq.trans (Dev.syncSweeps_of_idle hidle) ?_
    unfold Dev.modCellar Cellar.rowLost Dev.raise Dev.raiseAt
    dsimp only
    rw [hr, hu]
    rfl
  exact (if_neg fun h => h.2 rfl).trans hrepair

theorem Dev.patrolRead_eq {a : BitVec 34} {e : LineEcc} (hb : d.background = false) (hu : d.cellar.unread = []) :
    d.patrolRead a e = d.rowEcc (rowOf (a.toNat / 128)) e.dataCorrected (if e.uncorrectable then some (16 * (a.toNat / 128) + e.word.toNat) else none) := by
  refine (if_neg (ne_true_of_eq_false hb)).trans ?_
  unfold Dev.rawEcc
  rw [Dev.deadWords_clean (by rw [hu]; exact fun w hw => absurd hw List.not_mem_nil)]

-- ROW_REPAIR_DONE (R159)

/-- A repair takes the bank's soft repair, else a spare row (R159). -/
def PcRepair.take (p : PcRepair) (row : Nat) : PcRepair :=
  if row % 64 ∉ p.soft then { p with soft := row % 64 :: p.soft } else if p.remap.length < 32 then { p with remap := row :: p.remap } else p

/-- The cellar after a row's repair (R159). -/
def Cellar.repaired (c : Cellar) (x : Repair) (p : PcRepair) : Cellar :=
  { c with pcRepair := Tbl.set {} c.pcRepair x.pc p, repairing := c.repairing.filter fun y => !(y.pc == x.pc && y.row == x.row) }

theorem Dev.rowRepairDone_eq {pc : BitVec 4} {x : Repair} (h : d.cellar.repairing.find? (fun r => r.pc == pc.toNat) = some x)
    (hbad : ∀ w ∈ x.bad, w ∉ d.cellar.unread) (hidle : ∀ e ∈ d.cellar.sweeps, e.2.phase = .idle) : d.rowRepairDone pc =
    let p := (Tbl.get ({} : PcRepair) d.cellar.pcRepair x.pc).take x.row
    ((d.putFlash (Tbl.set {} d.flash x.pc p)).modCellar (·.repaired x p)).raise (424 + x.pc) := by
  have hnone : x.bad.filter (fun w => decide (w ∈ d.cellar.unread)) = [] := by
    rw [List.filter_eq_nil_iff]
    exact fun w hw => by simpa using hbad w hw
  unfold Dev.rowRepairDone
  rw [h]
  dsimp only
  rw [hnone]
  exact congrArg (Dev.raise · (424 + x.pc)) (Dev.syncSweeps_of_idle hidle)

-- STACK_TEMP_READ (R158, R470)

/-- The temperature shows, with the events of every channel where it passes 95 °C. -/
def Dev.tempShown (d : Dev) (t : BitVec 8) : Dev :=
  let e := d.modCellar fun c => { c with temp := t, hot := decide (85 < t.toNat) }
  if 95 < t.toNat ∧ d.cellar.temp.toNat ≤ 95 then e.each (List.range 16) fun d n => d.raise (424 + n) else e

theorem Dev.updateHot_cellar (d : Dev) : ∃ z, d.updateHot.cellar = { d.cellar with sweeps := z } := by
  have hstep : d.updateHot =
      (if d.hotBy d.power.sensors = d.power.hot then d else (d.putPower { d.power with hot := d.hotBy d.power.sensors }).raise 705).syncSweeps := rfl
  obtain ⟨z, hz⟩ := Dev.syncSweeps_cellar (if d.hotBy d.power.sensors = d.power.hot then d else (d.putPower { d.power with hot := d.hotBy d.power.sensors }).raise 705)
  refine ⟨z, hstep ▸ hz.trans ?_⟩
  split <;> rfl

/-- Raising one event after another puts each of them on its way, and changes nothing else. -/
theorem Dev.each_raise (d : Dev) (base : Nat) (l : List Nat) :
    (d.each l fun d n => d.raise (base + n)).cellar = d.cellar ∧ (d.each l fun d n => d.raise (base + n)).power = d.power ∧
      ∀ n ∈ l, OnTheWay (d.each l fun d n => d.raise (base + n)) (base + n) := by
  unfold Dev.each
  induction l generalizing d with
  | nil => exact ⟨rfl, rfl, fun _ h => absurd h List.not_mem_nil⟩
  | cons m l ih =>
    obtain ⟨hc, hp, hev⟩ := ih (d.raise (base + m))
    refine ⟨hc, hp, fun n hn => ?_⟩
    rcases List.mem_cons.1 hn with rfl | hn
    · exact ⟨_, (Dev.enRoute_raise d (base + n) 0).each fun e a he => he.raise, rfl⟩
    · exact hev n hn

theorem Dev.tempShown_shows (d : Dev) (t : BitVec 8) :
    (d.tempShown t).cellar = { d.cellar with temp := t, hot := decide (85 < t.toNat) } ∧ (d.tempShown t).power = d.power ∧
      (95 < t.toNat → d.cellar.temp.toNat ≤ 95 → ∀ n < 16, OnTheWay (d.tempShown t) (424 + n)) := by
  unfold Dev.tempShown
  dsimp only
  split
  · obtain ⟨hc, hp, hev⟩ := Dev.each_raise (d.modCellar fun c => { c with temp := t, hot := decide (85 < t.toNat) }) 424 (List.range 16)
    exact ⟨hc, hp, fun _ _ n hn => hev n (List.mem_range.2 hn)⟩
  · next h => exact ⟨rfl, rfl, fun h1 h2 => absurd ⟨h1, h2⟩ h⟩

theorem Dev.stackTempRead_shows (d : Dev) (t : BitVec 8) :
    (d.stackTempRead t).cellar.temp = t ∧ (d.stackTempRead t).cellar.hot = decide (85 < t.toNat) ∧
      (95 < t.toNat → d.cellar.temp.toNat ≤ 95 → ∀ n < 16, OnTheWay (d.stackTempRead t) (424 + n)) ∧
      ((d.stackTempRead t).power.hot = true ↔ (∃ x ∈ d.power.sensors, 4 * (d.power.hotCfg.toNat : Int) ≤ x.2.temp.toInt) ∨ 95 < t.toNat) := by
  have hstep : d.stackTempRead t = (d.tempShown t).updateHot := rfl
  obtain ⟨hcellar, hpower, hev⟩ := d.tempShown_shows t
  obtain ⟨hhot, -, hkept⟩ := (d.tempShown t).updateHot_shows
  obtain ⟨z, hz⟩ := (d.tempShown t).updateHot_cellar
  rw [hstep]
  refine ⟨?_, ?_, fun h1 h2 n hn => hkept _ (hev h1 h2 n hn), ?_⟩
  · rw [hz, hcellar]
  · rw [hz, hcellar]
  · have hflag := (d.tempShown t).hotBy_iff (d.tempShown t).power.sensors
    rw [hhot]
    refine hflag.trans ?_
    rw [hpower, hcellar]

end

/-- Settles O23: a row without earlier errors takes one, a repair that no sealed word blocks ends, and the temperature's events come one by one. -/
theorem stackErrorsAndRepairs : Obligations.StackErrorsAndRepairs := by
  refine ⟨?patrol, ?repair, ?temp⟩
  case patrol =>
    intro s a ha hb c pc row hu
    have hexec (e : LineEcc) : exec (.patrolRead a e) s = run true (Dev.patrolRead a e) s := congrArg (fun ok => run ok (Dev.patrolRead a e) s) ha
    refine ⟨fun hr => ?corrected, fun w hidle hrep => ?lost⟩
    case corrected =>
      exact completes_of_run (hexec _) ((Dev.patrolRead_eq hb hu).trans (Dev.rowEcc_corrected pc row hr)) (Dev.modCellar_keep (.refl _ _) (by decide) _ fun _ h => h) rfl
    case lost =>
      refine completes_of_run (hexec _) rfl (Dev.patrolRead_keep (.refl _ _) (by decide) (by decide) _ _) ?_
      rw [Dev.patrolRead_eq hb hu]
      exact Dev.rowEcc_lost pc row _ hu hrep hidle ▸ ⟨rfl, Dev.raise_raised rfl _⟩
  case repair =>
    intro s pc x hx hbad hidle c p p'
    have hpc : x.pc = pc.toNat := by simpa using List.find?_some hx
    refine completes_of_run rfl rfl (Dev.rowRepairDone_keep (.refl _ _) (by decide) (by decide) (by decide) _) ?_
    rw [Dev.rowRepairDone_eq hx hbad hidle, hpc]
    refine ⟨rfl, Dev.raise_raised rfl _, ?_⟩
    show s.dev.cellar.repaired x p' = _
    unfold Cellar.repaired
    rw [hpc]
  case temp =>
    exact fun s t => completes_of_run rfl rfl (Dev.stackTempRead_keep (.refl _ _) (by decide) (by decide) (by decide) _) (s.dev.stackTempRead_shows t)

end Sys2Proof.Machine
end

section
/-! Key slots (06_cellar.md R164, R177 to R179): KEY_LOAD, KEY_RETIRE with its end, and SWEEP -/

namespace Sys2Proof.Machine
open Sys2Proof

-- operations that can run

section
variable {d : Dev} {x : DescRef} {e : RetEntry} {op : Nat}

/-- An operation that can start runs, with the arguments it needs (R352, R356). -/
theorem Dev.runOp_runs (h : CanRun d x op e) {args : Bool} (ha : (args && e.args.isNone) = false) (f : Dev → RetEntry → Dev) : d.runOp x op args f = f (d.start x) e := by
  unfold Dev.runOp
  rw [h.now]
  exact if_neg (ne_true_of_eq_false ha)

/-- An operation that has started is still open. -/
theorem openDesc_started (h : OpenDesc d x e) : OpenDesc (d.start x) x { e with started := true } := by
  obtain ⟨hentry, hwindows⟩ := Dev.start_entry h.windows h.entry
  exact ⟨hentry, h.unfinished, hwindows, h.free⟩

theorem openDesc_ran (h : CanRun d x op e) : OpenDesc (d.start x) x { e with started := true } := openDesc_started (openDesc_of_canRun h)

/-- The descriptor of an open entry stays open where rings and the awaited descriptors stand. -/
theorem openDesc_same {d' : Dev} (h : OpenDesc d x e) (hrings : d'.rings = d.rings) (hlink : d'.link.await = d.link.await) : OpenDesc d' x e where
  entry := by
    rw [← h.entry]
    unfold Dev.entry? Dev.ring
    rw [hrings]
  unfinished := h.unfinished
  windows := hrings ▸ h.windows
  free := hlink ▸ h.free

/-- Where an operation that has started ends, its descriptor completes. -/
theorem canRun_finished (h : CanRun d x op e) (status detail : Nat) (i j : Nat) :
    CompletedWith ((d.start x).finish x status detail i j) x
      { seq := e.seq, status, detail, opcode := descOpcode e.desc, info0 := i, info1 := j, beat := d.time.n } :=
  Dev.finish_completed (openDesc_ran h).windows (openDesc_ran h).entry (openDesc_ran h).unfinished (openDesc_ran h).free status detail i j none

theorem Dev.finish_cellar (d : Dev) (x : DescRef) (st det i j : Nat) : (d.finish x st det i j).cellar = d.cellar :=
  (Dev.finish_keep (ps := [.out, .events, .link, .rings, .sched]) (.refl _ d) (by decide) (by decide) (by decide) (by decide) (by decide) x st det i j none).cellar.resolve_left (by decide)

theorem Dev.finish_now (d : Dev) (x : DescRef) (st det i j : Nat) : (d.finish x st det i j).now = d.now :=
  (Dev.finish_keep (ps := [.out, .events, .link, .rings, .sched]) (.refl _ d) (by decide) (by decide) (by decide) (by decide) (by decide) x st det i j none).now.resolve_left (by decide)

theorem Dev.finishOk_cellar (d : Dev) (x : DescRef) (i j : Nat) : (d.finishOk x i j).cellar = d.cellar :=
  (Dev.finishOk_keep (ps := [.out, .events, .link, .rings, .sched]) (.refl _ d) (by decide) (by decide) (by decide) (by decide) (by decide) x i j).cellar.resolve_left (by decide)

-- KEY_LOAD (R164, R441)

theorem Dev.keyLoad_runs (h : CanRun d x 0x41 e) {bs : Bytes} (ha : e.args = some bs) : Dev.keyLoad x d =
    match d.recordKey bs with
    | none => (d.start x).finish x 5 4
    | some key => if (d.cellar.key (BitVec.ofNat 6 (dfld e.desc 0x18 1))).phase ≠ .empty then (d.start x).finish x 0x42 0
      else ((d.start x).modCellar (·.loadKey (BitVec.ofNat 6 (dfld e.desc 0x18 1)) key)).finishOk x := by
  unfold Dev.keyLoad
  rw [Dev.runOp_runs h (by rw [ha]; rfl), ha]
  rfl

-- KEY_RETIRE (R177)

theorem Dev.keyRetire_runs (h : CanRun d x 0x42 e) : Dev.keyRetire x d =
    if (d.cellar.key (BitVec.ofNat 6 (dfld e.desc 0x18 1))).phase = .empty then (d.start x).finish x 2 0
    else if d.cellar.slotUsed (BitVec.ofNat 6 (dfld e.desc 0x18 1)) then (d.start x).finish x 0x42 0
    else (d.start x).modCellar fun c => { c.setKey (BitVec.ofNat 6 (dfld e.desc 0x18 1)) { d.cellar.key (BitVec.ofNat 6 (dfld e.desc 0x18 1)) with phase := .retiring } with
      retires := c.retires ++ [{ desc := x, slot := BitVec.ofNat 6 (dfld e.desc 0x18 1), was := (d.cellar.key (BitVec.ofNat 6 (dfld e.desc 0x18 1))).phase
                                 deadline := d.now + dfld e.desc 0x1C 4 * 10 ^ 6 * ns }] } :=
  Dev.runOp_runs h rfl _

/-- The slot of a retire is zeroised and EMPTY, and no retire of it is open (R177). -/
def Cellar.retired (c : Cellar) (k : BitVec 6) : Cellar := { c.setKey k {} with retires := c.retires.filter (fun r => r.slot != k) }

section
variable {k : BitVec 6} {y : Retire}

theorem Dev.keyRetireRefsZero_ends (hy : d.cellar.retires.filter (fun r => r.slot == k) = [y]) (hp : (d.cellar.key k).phase = .retiring) (hr : d.cellar.refs k = 0) :
    d.keyRetireRefsZero k = (d.modCellar (·.retired k)).finishOk y.desc := by
  have hany : d.cellar.retires.any (fun r => r.slot == k) = true := by
    have hmem : y ∈ d.cellar.retires.filter (fun r => r.slot == k) := hy ▸ List.mem_singleton_self y
    rw [List.mem_filter] at hmem
    exact List.any_eq_true.2 ⟨y, hmem⟩
  unfold Dev.keyRetireRefsZero
  rw [if_pos ⟨hp, hr, hany⟩, hy]
  rfl

theorem Dev.keyRetireTimeout_ends (hy : d.cellar.retires.filter (fun r => r.slot == k) = [y]) (hr : d.cellar.refs k ≠ 0) :
    d.keyRetireTimeout k = (((d.reach y.deadline).modCellar fun c => { c with retires := c.retires.erase y }).raise 445).finish y.desc 0x42 0 := by
  have hfind : d.cellar.retires.find? (fun r => r.slot == k) = some y := by
    rw [← List.head?_filter, hy]
    rfl
  unfold Dev.keyRetireTimeout
  rw [hfind]
  exact if_neg (by rw [Dev.reach_cellar]; exact hr)

end

-- SWEEP (R179)

/-- The lines that a SWEEP names: all of its region, or a range of it. -/
def Dev.sweepLines (d : Dev) (w : BitVec 512) : Nat × Nat :=
  let r := d.cellar.region (dfld w 0x18 1)
  let first := r.lines.1 + (if dfld w 0x1A 1 = 0 then 0 else dfld w 0x20 4)
  (first, if dfld w 0x1A 1 = 0 then r.lines.2 else first + dfld w 0x24 4)

/-- The engine of a SWEEP as it starts (R179). -/
def Dev.sweepEngine (d : Dev) (x : DescRef) (w : BitVec 512) : SweepEngine :=
  { phase := .run, tgt := BitVec.ofNat 6 (dfld w 0x19 1), region := BitVec.ofNat 8 (dfld w 0x18 1), start := BitVec.ofNat 27 (d.sweepLines w).1
    bound := BitVec.ofNat 27 (d.sweepLines w).1, stop := BitVec.ofNat 27 (d.sweepLines w).2
    exhaust := d.exhausts (dfld w 0x18 1) (d.sweepLines w).1 (d.sweepLines w).2 (BitVec.ofNat 6 (dfld w 0x19 1)), desc := some x }

theorem Dev.sweep_runs (h : CanRun d x 0x43 e) : Dev.sweep x d =
    if ¬ (d.sweepLines e.desc).2 ≤ (d.cellar.region (dfld e.desc 0x18 1)).lines.2 then (d.start x).finish x 5 4 0 d.sweepBound
    else if (d.cellar.key (BitVec.ofNat 6 (dfld e.desc 0x19 1))).phase ≠ .active then (d.start x).finish x 0x42 0 0 d.sweepBound
    else match d.cellar.freeEngine with
      | none => d
      | some en => if d.cellar.sweeping (dfld e.desc 0x18 1) then d else (d.start x).startSweep en (d.sweepEngine x e.desc) := by
  unfold Dev.sweep
  rw [h.now]
  unfold Dev.sweepEngine Dev.sweepLines
  by_cases hw : dfld e.desc 0x1A 1 = 0
  · simp only [hw, if_true, Nat.add_zero, le_refl, not_true_eq_false, if_false, Bool.not_true, Bool.false_eq_true] <;> rfl
  · simp only [hw, if_false, Bool.not_eq_true', decide_eq_false_iff_not] <;> rfl

/-- A sweep starts, where none holds (R179, R189). -/
theorem Dev.startSweep_flows {en : Nat} {z : SweepEngine} (h : SweepsFlow d) (hz : z.phase ≠ .hold) :
    d.startSweep en z = (d.modCellar fun c => { c with sweeps := Tbl.set {} c.sweeps en z }).raise 441 :=
  Dev.syncSweeps_of_flow (sweepsFlow_of_set h hz rfl rfl rfl rfl rfl)

end

/-- Settles O24: each operation by the slot it names, and the end of a retire by the slot's references. -/
theorem keysAreLoadedSweptAndRetired : Obligations.KeysAreLoadedSweptAndRetired := by
  refine ⟨?operations, ?ends⟩
  case operations =>
    intro s x e w c ps done
    have finishKeep (st det i j : Nat) : Keep [.out, .events, .link, .rings, .sched] s.dev ((s.dev.start x).finish x st det i j) :=
      Dev.finish_keep (Dev.start_keep (.refl _ _) (by decide) x) (by decide) (by decide) (by decide) (by decide) (by decide) _ _ _ _ _ _
    refine ⟨?load, ?retire, ?sweep⟩
    case load =>
      intro bs hrun ha k
      refine ⟨fun hkey => ?_, fun key hkey hk => ?_, fun key hkey hk => ?_⟩
      · refine completes_of_run rfl ((Dev.keyLoad_runs hrun ha).trans ?_) (finishKeep 5 4 0 0) (canRun_finished hrun 5 4 0 0)
        rw [hkey]
      · refine completes_of_run rfl ((Dev.keyLoad_runs hrun ha).trans ?_) (finishKeep 0x42 0 0 0) (canRun_finished hrun 0x42 0 0 0)
        rw [hkey]
        exact if_pos hk
      · have hopen := openDesc_same (d' := (s.dev.start x).modCellar (·.loadKey k key)) (openDesc_ran hrun) rfl rfl
        have heq : Dev.keyLoad x s.dev = ((s.dev.start x).modCellar (·.loadKey k key)).finishOk x := by
          rw [Dev.keyLoad_runs hrun ha, hkey]
          exact if_neg (not_not_intro hk)
        refine completes_of_run rfl heq (heq ▸ Dev.keyLoad_keep (.refl _ _) (by decide) (by decide) (by decide) (by decide) (by decide) (by decide) _)
          ⟨Dev.finishOk_completed hopen.windows hopen.entry hopen.unfinished hopen.free 0 0, ?_⟩
        rw [Dev.finishOk_cellar]
        rfl
    case retire =>
      intro hrun k
      refine ⟨fun hk => ?_, fun hk hu => ?_, fun hk hu => ?_⟩
      · exact completes_of_run rfl ((Dev.keyRetire_runs hrun).trans (if_pos hk)) (finishKeep 2 0 0 0) (canRun_finished hrun 2 0 0 0)
      · exact completes_of_run rfl ((Dev.keyRetire_runs hrun).trans ((if_neg hk).trans (if_pos hu))) (finishKeep 0x42 0 0 0) (canRun_finished hrun 0x42 0 0 0)
      · exact completes_of_run rfl ((Dev.keyRetire_runs hrun).trans ((if_neg hk).trans (if_neg (ne_true_of_eq_false hu))))
          (Dev.modCellar_keep (Dev.start_keep (.refl _ _) (by decide) x) (by decide) _ (by exact fun _ h => h)) ⟨rfl, rfl⟩
    case sweep =>
      intro hrun n tgt whole first stop r refused
      refine ⟨fun hw hlt => ?_, fun hle hk => ?_, fun en hle hk hfree hbusy hflow => ?_⟩
      · exact completes_of_run rfl ((Dev.sweep_runs hrun).trans (if_pos (Nat.not_le.2 hlt))) (finishKeep 5 4 0 _) (canRun_finished hrun 5 4 0 _)
      · exact completes_of_run rfl ((Dev.sweep_runs hrun).trans ((if_neg (not_not_intro hle)).trans (if_pos hk))) (finishKeep 0x42 0 0 _) (canRun_finished hrun 0x42 0 0 _)
      · have heq : Dev.sweep x s.dev = ((s.dev.start x).modCellar fun c => { c with sweeps := Tbl.set {} c.sweeps en (s.dev.sweepEngine x e.desc) }).raise 441 := by
          refine (Dev.sweep_runs hrun).trans ((if_neg (not_not_intro hle)).trans ((if_neg (not_not_intro hk)).trans ?_))
          rw [hfree]
          exact (if_neg (ne_true_of_eq_false hbusy)).trans (Dev.startSweep_flows (d := s.dev.start x) hflow SweepPhase.noConfusion)
        exact completes_of_run (f := Dev.sweep x) rfl heq (Dev.raise_keep (Dev.modCellar_keep (Dev.start_keep (.refl _ _) (by decide) x) (by decide) _ (by exact fun _ h => h)) (by decide) _ _)
          ⟨Dev.raise_raised rfl 441, rfl, rfl⟩
  case ends =>
    intro s k x e c hopen hy
    refine ⟨fun hp hr => ?zero, fun hr => ?timeout⟩
    case zero =>
      have hopen' := openDesc_same (d' := s.dev.modCellar (·.retired k)) hopen rfl rfl
      refine completes_of_run (f := Dev.keyRetireRefsZero k) rfl (Dev.keyRetireRefsZero_ends hy hp hr)
        (Dev.finishOk_keep (Dev.modCellar_keep (.refl _ _) (by decide) _ (by exact fun _ h => h)) (by decide) (by decide) (by decide) (by decide) (by decide) _ _ _)
        ⟨?_, Dev.finishOk_completed hopen'.windows hopen'.entry hopen'.unfinished hopen'.free 0 0⟩
      rw [Dev.finishOk_cellar]
      rfl
    case timeout =>
      let d := ((s.dev.reach x.deadline).modCellar fun c => { c with retires := c.retires.erase x }).raise 445
      have hopen' := openDesc_same (d' := d) hopen (Dev.reach_rings ..) (congrArg Link.await (Dev.reach_link ..))
      have hdone := Dev.finish_completed hopen'.windows hopen'.entry hopen'.unfinished hopen'.free 0x42 0 0 0 none
      refine completes_of_run (f := Dev.keyRetireTimeout k) rfl (Dev.keyRetireTimeout_ends hy hr)
        (Dev.finish_keep (Dev.raise_keep (Dev.modCellar_keep (Dev.reach_keep (.refl _ _) (by decide) _) (by decide) _ (by exact fun _ h => h)) (by decide) _ _) (by decide) (by decide) (by decide) (by decide) (by decide) _ _ _ _ _ _)
        ⟨?_, ?_, ⟨_, (Dev.enRoute_raise _ 445 0).finish, rfl⟩, ?_⟩
      · exact (Dev.finish_now ..).trans (Dev.reach_now ..)
      · rw [Dev.finish_cellar]
        exact congrArg (fun c : Cellar => { c with retires := c.retires.erase x }) (Dev.reach_cellar ..)
      · rw [show d.time = s.dev.time from Dev.reach_time ..] at hdone
        exact hdone

end Sys2Proof.Machine
end

section
/-! Regions, queues and frame stores (R160, R162, R184, R190) -/

namespace Sys2Proof.Machine
open Sys2Proof

/-- A field of a register word (R447). -/
theorem ofNat_fld_eq {k : Nat} (v : BitVec k) (lo n : Nat) : BitVec.ofNat n (fld v.toNat lo n) = v.extractLsb' lo n := by
  apply BitVec.eq_of_toNat_eq
  rw [BitVec.extractLsb'_toNat, BitVec.toNat_ofNat]
  unfold fld
  rw [Nat.mod_mod]

section
variable {d : Dev}

-- CELLAR_RGN_CFG (R160, R190)

/-- A region as a write of its configuration that enables it takes it, but for the check (R160). -/
def Region.taken (r : Region) (v : Word) : Region :=
  { r with sealed_ := v.getLsbD 30, owner := v.extractLsb' 23 7, rights := v.extractLsb' 14 9, autosweep := v.getLsbD 13, pvalid := false, pending := v.extractLsb' 6 6 }

/-- A region that is being enabled, with the code of the rule that it breaks (R160, R190). -/
def Cellar.enabled (c : Cellar) (n : Nat) (r : Region) : Region := { r with en := c.cfgErr n r == 0, cfgerr := BitVec.ofNat 3 (c.cfgErr n r) }

/-- No region exhausts its counters, so that none starts a sweep of its own (R176). -/
theorem Dev.autoSweeps_of_none (h : ∀ e ∈ d.cellar.regions, e.2.exhausting = false) : d.autoSweeps = d := by
  have hnone : d.cellar.regions.filter (fun (n, r) => r.exhausting && r.autosweep && !d.cellar.sweeping n) = [] := by
    rw [List.filter_eq_nil_iff]
    exact fun e he => by simp [h e he]
  unfold Dev.autoSweeps
  rw [hnone]
  rfl

theorem Dev.writeRegion_enables {n : Nat} {v : Word} (hall : ∀ e ∈ d.cellar.regions, e.2.exhausting = false) (hex : (d.cellar.region n).exhausting = false)
    (hen : (d.cellar.region n).en = false) (h31 : v.getLsbD 31 = true) (h12 : v.getLsbD 12 = false) :
    d.writeRegion n v = d.modCellar (·.setRegion n (d.cellar.enabled n ((d.cellar.region n).taken v))) := by
  have h31' : bitOf v.toNat 31 = true := h31
  have h12' : bitOf v.toNat 12 = false := h12
  have hnone : ∀ e ∈ Tbl.set {} d.cellar.regions n (d.cellar.enabled n ((d.cellar.region n).taken v)), e.2.exhausting = false := by
    intro e he
    rcases Tbl.mem_set _ _ _ _ _ he with rfl | he
    · exact hex
    · exact hall e he
  rw [← Dev.autoSweeps_of_none (d := d.modCellar (·.setRegion n (d.cellar.enabled n ((d.cellar.region n).taken v)))) hnone]
  unfold Dev.writeRegion Cellar.enabled Region.taken
  simp only [ofNat_fld_eq, hen, hex, h31', h12', if_true, Bool.not_false, Bool.false_eq_true, if_false]
  rfl

-- CELLAR_Q_CFG (R162, R190)

theorem Dev.writeQueue_eq (d : Dev) (q : BitVec 9) (v : Word) : d.writeQueue q v = d.modCellar fun c => { c with queues := Tbl.set {} c.queues q.toNat {
    en := v.getLsbD 31
    kind := v.extractLsb' 28 3
    owner := v.extractLsb' 21 7
    wvalid := v.getLsbD 20
    wslot := v.extractLsb' 14 6
    wevalid := if v.extractLsb' 28 3 = 0 then (c.queue q).wevalid else v.getLsbD 20
    weff := if v.extractLsb' 28 3 = 0 then (c.queue q).weff else v.extractLsb' 14 6 } } := by
  unfold Dev.writeQueue
  simp only [ofNat_fld_eq]
  by_cases hk : v.extractLsb' 28 3 = 0
  · simp only [hk, if_true]
    rfl
  · simp only [hk, if_false]
    rfl

-- CELLAR_FS_CFG (R184, R190)

theorem Dev.writeFs_opens {f : Nat} {v : Word} (hx : (Tbl.get ({} : FrameStore) d.cellar.frames f).opened = false) (h31 : v.getLsbD 31 = true)
    (hen : (d.cellar.region (Tbl.get ({} : FrameStore) d.cellar.frames f).region.toNat).en = true)
    (hs : (d.cellar.region (Tbl.get ({} : FrameStore) d.cellar.frames f).region.toNat).sealed_ = true)
    (hl : 1 ≤ (Tbl.get ({} : FrameStore) d.cellar.frames f).flines.toNat) (hm : 1 ≤ (Tbl.get ({} : FrameStore) d.cellar.frames f).sm1.toNat)
    (hfit : (v.extractLsb' 0 27).toNat + ((Tbl.get ({} : FrameStore) d.cellar.frames f).sm1.toNat + 1) * (Tbl.get ({} : FrameStore) d.cellar.frames f).flines.toNat ≤
      (d.cellar.region (Tbl.get ({} : FrameStore) d.cellar.frames f).region.toNat).lines.2 - (d.cellar.region (Tbl.get ({} : FrameStore) d.cellar.frames f).region.toNat).lines.1) :
    d.writeFs f v = d.modCellar fun c => { c with frames := Tbl.set {} c.frames f { Tbl.get ({} : FrameStore) d.cellar.frames f with
      line := v.extractLsb' 0 27, opened := true, validgen := 0, wframe := 0, frameBeat := d.time.n, begun := false, got := 0 } } := by
  unfold Dev.writeFs
  have h31' : bitOf v.toNat 31 = true := h31
  simp only [ofNat_fld_eq, hx, h31', hen, hs, Bool.true_and, Bool.false_eq_true, if_false, decide_eq_true (And.intro hl (And.intro hm hfit)), Bool.not_true,
    or_self, and_false]

end

/-- Settles O25: what `Dev.writeRegion`, `Dev.writeQueue` and `Dev.writeFs` make of a word that the PF view writes. -/
theorem regionsQueuesAndFrameStores : Obligations.RegionsQueuesAndFrameStores := by
  intro s rq hq
  refine ⟨?region, ?queue, ?frames⟩
  case region =>
    intro n v r r' code hall hex hen h31 h12
    exact completes_of_run (f := Dev.rgnEnable rq n v) rfl ((if_pos hq).trans (Dev.writeRegion_enables hall hex hen h31 h12))
      (Dev.modCellar_keep (.refl _ _) (by decide) _ (by exact fun _ h => h)) rfl
  case queue =>
    intro q v o
    exact completes_of_run (f := Dev.qWslotChange rq q v) rfl ((if_pos hq).trans (Dev.writeQueue_eq _ q v))
      (Dev.modCellar_keep (.refl _ _) (by decide) _ (by exact fun _ h => h)) rfl
  case frames =>
    intro f v x r line hx h31 hen hs hl hm hfit
    exact completes_of_run (f := Dev.fsOpen rq f v) rfl ((if_pos hq).trans (Dev.writeFs_opens hx h31 hen hs hl hm hfit))
      (Dev.modCellar_keep (.refl _ _) (by decide) _ (by exact fun _ h => h)) rfl

end Sys2Proof.Machine
end

section
/-! Flows: losses, legs and packet releases (R205, R206, R221) -/

namespace Sys2Proof.Machine
open Sys2Proof

-- what the frames of a bridge leave of the flows and of what the device has sent (R195)

/-- Flows stand and what has been sent stays sent. -/
def Dev.Bridged (d e : Dev) : Prop := e.media.flows = d.media.flows ∧ ∀ o ∈ d.out, o ∈ e.out

section
variable {d e : Dev}

theorem Dev.Bridged.refl (d : Dev) : d.Bridged d := ⟨rfl, fun _ h => h⟩

theorem Dev.Bridged.trans {f : Dev} (x : d.Bridged e) (y : e.Bridged f) : d.Bridged f :=
  ⟨y.1.trans x.1, fun o h => y.2 o (x.2 o h)⟩

theorem Dev.emit_bridged (d : Dev) (o : Output) : d.Bridged (d.emit o) := ⟨rfl, fun _ h => List.mem_cons_of_mem _ h⟩

theorem Dev.sendAt_bridged (d : Dev) (n : Nat) (x : PortFrame) (t : Instant) : d.Bridged (d.sendAt n x t) := by
  have hsent (o : Output) : d.Bridged (if d.egressMuted then d else d.emit o) := by
    split
    · exact .refl d
    · exact d.emit_bridged o
  unfold Dev.sendAt
  dsimp only
  split
  · exact (hsent _).trans ⟨rfl, fun _ h => h⟩
  · exact hsent _

theorem Dev.bridgeSend_bridged (n : Nat) (l : List PortFrame) (t : Instant) (d : Dev) : d.Bridged (Dev.bridgeSend n l t d) := by
  induction l generalizing t d with
  | nil => exact ⟨rfl, fun _ h => h⟩
  | cons x l ih =>
    unfold Dev.bridgeSend
    split
    · exact (d.sendAt_bridged n x t).trans (ih _ _)
    · exact ⟨rfl, fun _ h => h⟩

theorem Dev.bridgeFlush_bridged (d : Dev) (n : Nat) : d.Bridged (d.bridgeFlush n) := Dev.bridgeSend_bridged ..

-- a packet on its legs (R205, R279)

theorem Dev.sendLeg_bridged (d : Dev) (k : BitVec 10) (l : Leg) (gs : List Shown) : d.Bridged (d.sendLeg k l gs) := by
  unfold Dev.sendLeg
  split
  · exact .refl d
  · exact d.emit_bridged _

/-- The port of a leg is enabled and has its lanes (R205). -/
def Dev.LegOpen (d : Dev) (l : Leg) : Prop :=
  l.isSet = true ∧ (d.eth l.port).en = true ∧ ∀ n ∈ subLanes (d.eth l.port) l.port l.sub, d.laneOut n = false

theorem Dev.sendLeg_out {l : Leg} (h : d.LegOpen l) (k : BitVec 10) (gs : List Shown) : .packet k { l with dmac := l.mac } gs ∈ (d.sendLeg k l gs).out := by
  obtain ⟨hset, hen, hlanes⟩ := h
  have hany : (subLanes (d.eth l.port) l.port l.sub).any d.laneOut = false := List.any_eq_false.2 fun n hn => by simp [hlanes n hn]
  unfold Dev.sendLeg
  rw [hset, hen, hany]
  exact List.mem_cons_self

theorem Dev.LegOpen.sendLeg {l : Leg} (h : d.LegOpen l) (k : BitVec 10) (m : Leg) (gs : List Shown) : (d.sendLeg k m gs).LegOpen l := by
  unfold Dev.sendLeg
  split <;> exact h

/-- A packet leaves on both legs, but on a muted secondary. -/
def Dev.sendLegs (d : Dev) (k : BitVec 10) (a b : Leg) (gs : List Shown) : Dev := if d.egressMuted then d else (d.sendLeg k a gs).sendLeg k b gs

theorem Dev.sendLegs_bridged (d : Dev) (k : BitVec 10) (a b : Leg) (gs : List Shown) : d.Bridged (d.sendLegs k a b gs) := by
  unfold Dev.sendLegs
  split
  · exact .refl d
  · exact (d.sendLeg_bridged ..).trans (Dev.sendLeg_bridged ..)

theorem Dev.sendLegs_out {k : BitVec 10} {a b l : Leg} {gs : List Shown} (hm : d.egressMuted = false) (hl : l ∈ [a, b]) (h : d.LegOpen l) :
    .packet k { l with dmac := l.mac } gs ∈ (d.sendLegs k a b gs).out := by
  unfold Dev.sendLegs
  rw [hm, if_neg Bool.false_ne_true]
  rcases List.mem_pair.1 hl with rfl | rfl
  · exact (Dev.sendLeg_bridged ..).2 _ (Dev.sendLeg_out h k gs)
  · exact Dev.sendLeg_out (h.sendLeg ..) k gs

-- a packet's release (R206)

/-- The oldest packet of a transmit flow is taken at an instant and counted, as late where it is late. -/
def Dev.takePacket (d : Dev) (i : Nat) (rest : List FlowPkt) (at_ : Instant) (late : Bool) : Dev :=
  let d := ((d.reach at_).setFlow i { d.flow i with due := rest }).countFlow i 0 1
  if late then (d.countFlow i 3 1).raise (flowEvent i) else d

/-- The frames that wait behind a flow's packet, on its legs' ports. -/
def Dev.flushLegs (d : Dev) (a b : Leg) : Dev :=
  let d := d.bridgeFlush a.port
  if b.isSet then d.bridgeFlush b.port else d

theorem Dev.flushLegs_bridged (d : Dev) (a b : Leg) : d.Bridged (d.flushLegs a b) := by
  unfold Dev.flushLegs
  dsimp only
  split
  · exact (d.bridgeFlush_bridged _).trans (Dev.bridgeFlush_bridged ..)
  · exact d.bridgeFlush_bridged _

/-- No event is raised and no time passes as a packet and the frames behind it leave. -/
theorem Dev.flushLegs_sendLegs_keep (k : BitVec 10) (a b : Leg) (gs : List Shown) :
    ((d.sendLegs k a b gs).flushLegs a b).now = d.now ∧ ((d.sendLegs k a b gs).flushLegs a b).events = d.events := by
  have hlegs : Keep [.out, .media, .time] d (d.sendLegs k a b gs) := by
    unfold Dev.sendLegs
    exact .ite (.refl _ _) (Dev.sendLeg_keep (Dev.sendLeg_keep (.refl _ _) (by decide) _ _ _) (by decide) _ _ _)
  have hflush : Keep [.out, .media, .time] d ((d.sendLegs k a b gs).flushLegs a b) := by
    have hone := Dev.bridgeFlush_keep hlegs (by decide) (by decide) (by decide) a.port
    unfold Dev.flushLegs
    exact .ite (Dev.bridgeFlush_keep hone (by decide) (by decide) (by decide) _) hone
  exact ⟨hflush.now.resolve_left (by decide), hflush.events.resolve_left (by decide)⟩

/-- The release of a packet: it is taken, it leaves on its legs, and the frames behind it leave. -/
def Dev.releasePacket (d : Dev) (k : BitVec 10) (p : FlowPkt) (rest : List FlowPkt) (at_ : Instant) (late : Bool) : Dev :=
  let r := (d.flow (1024 + k.toNat)).record
  ((d.takePacket (1024 + k.toNat) rest at_ late).sendLegs k r.legA r.legB p.groups).flushLegs r.legA r.legB

theorem Dev.packetRelease_eq {k : BitVec 10} {skew : Nat} {p : FlowPkt} {rest : List FlowPkt} (ho : (d.flow (1024 + k.toNat)).opened = true)
    (hd : (d.flow (1024 + k.toNat)).due = p :: rest) :
    Dev.packetRelease k skew d = d.releasePacket k p rest (p.time - 20 * ns + min skew (40 * ns)) (decide (p.time + 20 * ns < d.now)) := by
  unfold Dev.packetRelease Dev.releasePacket Dev.flushLegs Dev.sendLegs Dev.takePacket
  simp only [hd, ho, Bool.not_true, Bool.false_eq_true, if_false, decide_eq_true_eq]

/-- The event of a flow's group, by the flow's number in its direction (R221). -/
theorem flowEvent_rx (k : BitVec 10) : flowEvent k.toNat = 392 + k.toNat / 32 := by
  unfold flowEvent
  omega

theorem flowEvent_tx (k : BitVec 10) : flowEvent (1024 + k.toNat) = 392 + k.toNat / 32 := by
  unfold flowEvent
  omega

/-- The flow whose packet leaves, after it. -/
def Flow.released (f : Flow) (rest : List FlowPkt) (late : Bool) : Flow :=
  let c := Tbl.modify {} f.cnt 0 (·.bumpBy 1)
  { f with due := rest, cnt := if late then Tbl.modify {} c 3 (·.bumpBy 1) else c }

theorem Dev.takePacket_flow (i : Nat) (rest : List FlowPkt) (t : Instant) (late : Bool) :
    (d.takePacket i rest t late).flow i = (d.flow i).released rest late := by
  cases late <;> simp [Dev.takePacket, Flow.released]

theorem Dev.takePacket_now (i : Nat) (rest : List FlowPkt) (t : Instant) (late : Bool) : (d.takePacket i rest t late).now = max d.now t := by
  unfold Dev.takePacket
  rw [Dev.reach_eq]
  cases late <;> rfl

theorem Dev.takePacket_late (i : Nat) (rest : List FlowPkt) (t : Instant) : Raised d (d.takePacket i rest t true) (flowEvent i) := by
  unfold Dev.takePacket
  rw [Dev.reach_eq]
  exact Dev.raise_raised rfl _

theorem Dev.takePacket_inTime (i : Nat) (rest : List FlowPkt) (t : Instant) : (d.takePacket i rest t false).events = d.events := by
  unfold Dev.takePacket
  rw [Dev.reach_eq]
  rfl

theorem Dev.takePacket_link (i : Nat) (rest : List FlowPkt) (t : Instant) (late : Bool) : (d.takePacket i rest t late).link = d.link := by
  unfold Dev.takePacket
  rw [Dev.reach_eq]
  cases late <;> rfl

theorem Dev.takePacket_eth (i : Nat) (rest : List FlowPkt) (t : Instant) (late : Bool) : (d.takePacket i rest t late).media.eth = d.media.eth := by
  unfold Dev.takePacket
  rw [Dev.reach_eq]
  cases late <;> rfl

theorem Dev.LegOpen.takePacket {l : Leg} (h : d.LegOpen l) (i : Nat) (rest : List FlowPkt) (t : Instant) (late : Bool) :
    (d.takePacket i rest t late).LegOpen l := by
  unfold Dev.LegOpen Dev.laneOut Dev.eth at *
  rw [d.takePacket_link, d.takePacket_eth]
  exact h

theorem Dev.takePacket_muted (i : Nat) (rest : List FlowPkt) (t : Instant) (late : Bool) : (d.takePacket i rest t late).egressMuted = d.egressMuted := by
  unfold Dev.egressMuted
  rw [d.takePacket_link]

section
variable (k : BitVec 10) (p : FlowPkt) (rest : List FlowPkt) (t : Instant) (late : Bool)

theorem Dev.releasePacket_bridged : (d.takePacket (1024 + k.toNat) rest t late).Bridged (d.releasePacket k p rest t late) :=
  (Dev.sendLegs_bridged ..).trans (Dev.flushLegs_bridged ..)

theorem Dev.releasePacket_now : (d.releasePacket k p rest t late).now = max d.now t :=
  (Dev.flushLegs_sendLegs_keep ..).1.trans (d.takePacket_now ..)

theorem Dev.releasePacket_flow : (d.releasePacket k p rest t late).flow (1024 + k.toNat) = (d.flow (1024 + k.toNat)).released rest late :=
  (congrArg (fun t => Tbl.get ({} : Flow) t (1024 + k.toNat)) (Dev.releasePacket_bridged ..).1).trans (d.takePacket_flow ..)

theorem Dev.releasePacket_late (hl : late = true) : Raised d (d.releasePacket k p rest t late) (392 + k.toNat / 32) := by
  subst hl
  rw [← flowEvent_tx]
  obtain ⟨o, he, hev, hts⟩ := d.takePacket_late (1024 + k.toNat) rest t
  have hrest := Dev.flushLegs_sendLegs_keep (d := d.takePacket (1024 + k.toNat) rest t true) k (d.flow (1024 + k.toNat)).record.legA
    (d.flow (1024 + k.toNat)).record.legB p.groups
  exact ⟨o, hrest.2.trans he, hev, hts.trans hrest.1.symm⟩

theorem Dev.releasePacket_inTime (hl : late = false) : (d.releasePacket k p rest t late).events = d.events := by
  subst hl
  exact (Dev.flushLegs_sendLegs_keep ..).2.trans (d.takePacket_inTime ..)

theorem Dev.releasePacket_out {l : Leg} (hl : l ∈ [(d.flow (1024 + k.toNat)).record.legA, (d.flow (1024 + k.toNat)).record.legB])
    (hm : d.egressMuted = false) (ho : d.LegOpen l) : .packet k { l with dmac := l.mac } p.groups ∈ (d.releasePacket k p rest t late).out :=
  (Dev.flushLegs_bridged ..).2 _ (Dev.sendLegs_out ((d.takePacket_muted ..).trans hm) hl (ho.takePacket ..))

end

end

/-- Settles O28: the losses and the leg are one change with the flow's event; a released packet is taken and counted (`Dev.takePacket`), leaves on the
legs that are open (`Dev.sendLegs_out`), and what follows it takes nothing back (`Dev.Bridged`). -/
theorem flowsCountLossesAndReleases : Obligations.FlowsCountLossesAndReleases := by
  intro s k
  refine ⟨?lost, ?down, ?release⟩
  case lost =>
    intro x t f hmiss
    have hf : Dev.seqLossTimeout k.toNat s.dev = ((s.dev.setFlow k.toNat { f with missing := t }).countFlow k.toNat 1 1).raise (flowEvent k.toNat) := by
      unfold Dev.seqLossTimeout
      dsimp only
      rw [show (s.dev.flow k.toNat).missing = x :: t from hmiss]
    refine completes_of_run (f := Dev.seqLossTimeout k.toNat) rfl hf (hf ▸ Dev.seqLossTimeout_keep (.refl _ _) (by decide) (by decide) _) ⟨?_, rfl, ?_⟩
    · rw [Dev.flow_raise, Dev.flow_countFlow, Dev.flow_setFlow]
    · exact flowEvent_rx k ▸ Dev.raise_raised rfl _
  case down =>
    intro b f hopen hleg
    have hf : Dev.legDown k.toNat b s.dev = (s.dev.setFlow k.toNat { f with legA := f.legA && b, legB := f.legB && !b }).raise (flowEvent k.toNat) := by
      unfold Dev.legDown
      exact if_neg (by rw [hopen, hleg]; decide)
    exact completes_of_run (f := Dev.legDown k.toNat b) rfl hf (hf ▸ Dev.legDown_keep (.refl _ _) (by decide) (by decide) _ _)
      ⟨rfl, flowEvent_rx k ▸ Dev.raise_raised rfl _⟩
  case release =>
    intro p rest skew f c late hopen hdue
    have hf := Dev.packetRelease_eq (skew := skew) hopen hdue
    have hkeep := hf ▸ Dev.packetRelease_keep (.refl [.now, .out, .events, .media, .time] s.dev) (by decide) (by decide) (by decide) (by decide) (by decide) k skew
    refine completes_of_run (f := Dev.packetRelease k skew) rfl hf hkeep ?_
    refine ⟨Dev.releasePacket_now .., (Dev.releasePacket_flow ..).trans ?_, ?_, ?_, ?_⟩
    · simp only [Flow.released, decide_eq_true_eq]
      rfl
    · exact fun hl => Dev.releasePacket_late _ _ _ _ _ (decide_eq_true hl)
    · exact fun hl => Dev.releasePacket_inTime _ _ _ _ _ (decide_eq_false hl)
    · exact fun l hl hm hset hen hlanes => Dev.releasePacket_out _ _ _ _ _ hl hm ⟨hset, hen, hlanes⟩

end Sys2Proof.Machine
end

section
/-! Egress groups, safe states and forces (R198, R206, R219, R220) -/

namespace Sys2Proof.Machine
open Sys2Proof

section
variable {d : Dev} {n : Nat} {fm : Fmt} {it : EgressItem}

/-- What FORCE_APPLY does to the egress. -/
def Dev.applyForce (n : Nat) (d : Dev) : Dev := d.modEgr n fun x => if x.forceWant then { x with forced := true, liftBeat := none } else x

theorem Dev.egr_setFlow (x : Flow) (k : Nat) : (d.setFlow k x).egr n = d.egr n := rfl
theorem Dev.egr_emit (o : Output) : (d.emit o).egr n = d.egr n := rfl

-- what an egress emits (R206, R219)

theorem Dev.emitShown_sdi {s : Shown} (hs : s ≠ .subst 4) (hn : 1024 ≤ n) (hm : d.egressMuted = false) (ht : d.txOut n = false) (t : Instant) (fresh : Bool) :
    d.emitShown n t fresh s = d.emit (.egress (BitVec.ofNat 11 n) s) := by
  unfold Dev.emitShown
  rw [if_neg hs, if_neg (by omega), hm, ht]
  exact if_neg (by decide)

theorem Dev.emitShown_flow {s : Shown} (hs : s ≠ .subst 4) (hn : n < 1024) (t : Instant) (fresh : Bool) :
    d.emitShown n t fresh s = d.setFlow (1024 + n) ((d.flow (1024 + n)).pack t fresh s) := by
  unfold Dev.emitShown
  rw [if_neg hs, if_pos hn]

/-- A packet of one group waits for its release as soon as it holds the group (R206). -/
theorem Flow.pack_whole {f : Flow} (hf : f.filling = []) (hp : f.record.perPacket = 1) (t : Instant) (ws : List Lanes) :
    f.pack t true (.words ws) = { f with due := f.due ++ [{ time := t, groups := [.words ws], fresh := 1 }] } := by
  unfold Flow.pack
  simp [hf, hp]

-- what an egress shows (R219, R220)

/-- Committed words are shown as they are, and enter the hold line. -/
theorem Dev.showItem_words {ws : List Lanes} (hw : it.shown = .words ws) (hforced : (d.egr n).forced = false) (h3 : fm.fmt ≠ 3) (h4 : fm.fmt ≠ 4) :
    d.showItem n fm it = (.words ws, { d.egr n with black := false }.noteCommitted fm it ws) := by
  unfold Dev.showItem
  simp only [hforced, hw, if_neg h3, if_neg h4]
  rfl

theorem Egress.noteCommitted_queue (x : Egress) (fm : Fmt) (it : EgressItem) (ws : List Lanes) : (x.noteCommitted fm it ws).queue = x.queue := by
  unfold Egress.noteCommitted
  dsimp only
  split
  · split <;> rfl
  · split <;> rfl

theorem Egress.noteCommitted_committed (x : Egress) (fm : Fmt) (it : EgressItem) (ws : List Lanes) : (x.noteCommitted fm it ws).committed = true := by
  unfold Egress.noteCommitted
  dsimp only
  split
  · split <;> rfl
  · split <;> rfl

theorem Egress.noteCommitted_forced (x : Egress) (fm : Fmt) (it : EgressItem) (ws : List Lanes) : (x.noteCommitted fm it ws).forced = x.forced := by
  unfold Egress.noteCommitted
  dsimp only
  split
  · split <;> rfl
  · split <;> rfl

/-- BLACK of an SDI transmitter's video has narrow range. -/
theorem Dev.showSubst_black (hf : fm.fmt = 1) (hn : 1024 ≤ n) :
    d.showSubst n 2 it fm = (.words (blackWords fm false it.line it.index), { d.egr n with black := true }) := by
  have hfull : d.fullRange n = false := by
    unfold Dev.fullRange
    rw [decide_eq_false (by omega), Bool.false_and]
  unfold Dev.showSubst
  simp [hf, hfull]

theorem Dev.showItem_black (hs : (d.egr n).forced = true ∨ it.shown = .subst 0) (h2 : d.safeState n = 2) (hf : fm.fmt = 1) (hn : 1024 ≤ n) :
    d.showItem n fm it = (.words (blackWords fm false it.line it.index), { d.egr n with black := true }) := by
  unfold Dev.showItem
  rcases hs with hforced | hsub
  · rw [h2, Dev.showSubst_black hf hn]
    exact if_pos hforced
  · simp only [hsub, h2, if_true, Dev.showSubst_black hf hn, ite_self]

-- EGRESS_GROUP

/-- The group that leaves an egress next: the one at the front, or the transmitter's own. -/
def Dev.nextItem (d : Dev) (n : Nat) (fm : Fmt) : Option EgressItem :=
  match (d.egr n).queue with | it :: _ => some it | [] => if 1024 ≤ n ∨ (d.egr n).forced then some (d.idleItem n fm) else none

/-- A group has been taken from an egress's queue. -/
def Dev.dequeue (d : Dev) (n : Nat) : Dev := d.setEgr n { d.egr n with queue := (d.egr n).queue.drop 1 }

/-- An egress shows a group in its place. -/
def Dev.showOn (d : Dev) (n : Nat) (fm : Fmt) (it : EgressItem) : Dev :=
  let r := d.showItem n fm it
  (d.setEgr n r.2).emitShown n it.time (it.fresh && !r.2.forced) (egressShown fm r.1)

theorem Dev.egressGroup_eq {e : BitVec 11} (hfm : d.outFormat e.toNat = some fm) (hl : (d.egr e.toNat).liftBeat = none)
    (hit : d.nextItem e.toNat fm = some it) :
    Dev.egressGroup e d = if 1024 ≤ e.toNat ∧ e.toNat < 1056 ∧ it.last then ((d.dequeue e.toNat).showOn e.toNat fm it).insertAnc (e.toNat - 1024) fm it
      else (d.dequeue e.toNat).showOn e.toNat fm it := by
  unfold Dev.nextItem at hit
  unfold Dev.egressGroup Dev.showOn Dev.dequeue
  simp only [hfm, hl]
  cases hq : (d.egr e.toNat).queue with
  | nil =>
    simp only [hq] at hit ⊢
    simp only [hit]
  | cons i rest =>
    simp only [hq, Option.some.injEq] at hit ⊢
    subst hit
    rfl

theorem Dev.nextItem_queued {rest : List EgressItem} (h : (d.egr n).queue = it :: rest) : d.nextItem n fm = some it := by
  unfold Dev.nextItem
  rw [h]

theorem Dev.nextItem_idle (h : (d.egr n).queue = []) (hn : 1024 ≤ n) : d.nextItem n fm = some (d.idleItem n fm) := by
  unfold Dev.nextItem
  rw [h]
  exact if_pos (.inl hn)

/-- What an SDI transmitter shows is sent. -/
theorem Dev.showOn_sdi {ws : List Lanes} {x : Egress} (hs : d.showItem n fm it = (.words ws, x)) (hn : 1024 ≤ n) (hm : d.egressMuted = false)
    (ht : d.txOut n = false) : d.showOn n fm it = (d.setEgr n x).emit (.egress (BitVec.ofNat 11 n) (.words ws)) := by
  unfold Dev.showOn
  rw [hs]
  exact Dev.emitShown_sdi (d := d.setEgr n x) (s := .words ws) Shown.noConfusion hn hm ht _ _

/-- A flow packs what its egress shows; a packet of one group is whole with it. -/
theorem Dev.showOn_flow {ws : List Lanes} {x : Egress} (hs : d.showItem n fm it = (.words ws, x)) (hw : it.shown = .words ws) (hx : x.forced = false)
    (hn : n < 1024) (hf : (d.flow (1024 + n)).filling = []) (hp : (d.flow (1024 + n)).record.perPacket = 1) :
    d.showOn n fm it = (d.setEgr n x).setFlow (1024 + n) { d.flow (1024 + n) with
      due := (d.flow (1024 + n)).due ++ [{ time := it.time, groups := [.words ws], fresh := 1 }] } := by
  have hfresh : it.fresh = true := by
    unfold EgressItem.fresh
    rw [hw]
  unfold Dev.showOn
  rw [hs]
  refine (Dev.emitShown_flow (s := .words ws) Shown.noConfusion hn _ _).trans (congrArg (Dev.setFlow _ _) ?_)
  rw [hfresh, hx]
  exact Flow.pack_whole hf hp _ _

theorem Dev.mem_out_countSdi_raise {o : Output} (h : o ∈ d.out) {i k m ev : Nat} : o ∈ ((d.countSdi i k m).raise ev).out := h

theorem Dev.insertAnc_out (k : Nat) : ∀ o ∈ d.out, o ∈ (d.insertAnc k fm it).out := by
  intro o ho
  unfold Dev.insertAnc
  dsimp only
  refine Dev.mem_out_ite ?_ (Dev.mem_out_countSdi_raise ?_) <;> exact Dev.mem_out_ite ho (List.mem_cons_of_mem _ ho)

end

/-- Settles O30: the group that leaves next (`Dev.nextItem`) is taken and shown in its place; what `Dev.showItem` makes of it is emitted. -/
theorem egressShowsGroupsOrItsSafeState : Obligations.EgressShowsGroupsOrItsSafeState := by
  intro s e he n x f
  have hrun (f : Dev → Dev) : run (egressOk e) f s = run true f s := by rw [he]
  have hself (w : Shown) : Output.egress (BitVec.ofNat 11 n) w :: s.dev.out = .egress e w :: s.dev.out := by rw [show BitVec.ofNat 11 n = e from BitVec.ofNat_toNat ..]
  refine ⟨?shown, ?force⟩
  case shown =>
    intro fm hfm hl
    refine ⟨?queued, ?idle⟩
    case queued =>
      intro it rest hq
      have heq := Dev.egressGroup_eq hfm hl (Dev.nextItem_queued hq)
      have hdq : (s.dev.dequeue n).egr n = { x with queue := rest } := by
        unfold Dev.dequeue
        rw [Dev.egr_setEgr, show (s.dev.egr n).queue = it :: rest from hq]
        rfl
      refine ⟨?words, ?black⟩
      case words =>
        intro ws hw hforced h3 h4
        have hitem := Dev.showItem_words (d := s.dev.dequeue n) (n := n) hw (by rw [hdq]; exact hforced) h3 h4
        refine ⟨?flow, ?sdi⟩
        case flow =>
          intro hn hfill hper
          rw [if_neg (by omega), Dev.showOn_flow hitem hw (by rw [Egress.noteCommitted_forced, hdq]; exact hforced) hn hfill hper] at heq
          refine completes_of_run (hrun _) heq (Dev.setFlow_keep (Dev.setEgr_keep (Dev.setEgr_keep (.refl _ _) (by decide) _ _) (by decide) _ _) (by decide) _ _) ⟨?_, ?_, ?_⟩
          · rw [Dev.egr_setFlow, Dev.egr_setEgr, Egress.noteCommitted_queue, hdq]
          · rw [Dev.egr_setFlow, Dev.egr_setEgr, Egress.noteCommitted_committed]
          · exact Dev.flow_setFlow ..
        case sdi =>
          intro hn hlast hm ht
          rw [if_neg (by simp [hlast]), Dev.showOn_sdi hitem hn hm ht] at heq
          refine completes_of_run (hrun _) heq (Dev.emit_keep (Dev.setEgr_keep (Dev.setEgr_keep (.refl _ _) (by decide) _ _) (by decide) _ _) (by decide) _) ⟨?_, ?_, ?_⟩
          · exact hself _
          · rw [Dev.egr_emit, Dev.egr_setEgr, Egress.noteCommitted_queue, hdq]
          · rw [Dev.egr_emit, Dev.egr_setEgr, Egress.noteCommitted_committed]
      case black =>
        intro hforced h2 hf hn hlast hm ht
        have hitem := Dev.showItem_black (d := s.dev.dequeue n) (it := it) (.inl (by rw [hdq]; exact hforced)) h2 hf hn
        rw [if_neg (by simp [hlast]), Dev.showOn_sdi hitem hn hm ht] at heq
        refine completes_of_run (hrun _) heq (Dev.emit_keep (Dev.setEgr_keep (Dev.setEgr_keep (.refl _ _) (by decide) _ _) (by decide) _ _) (by decide) _) ⟨hself _, ?_⟩
        rw [Dev.egr_emit, Dev.egr_setEgr, hdq]
    case idle =>
      intro hq h2 hf hn hm ht
      have heq := Dev.egressGroup_eq hfm hl (Dev.nextItem_idle hq hn)
      have hshow := Dev.showOn_sdi (Dev.showItem_black (d := s.dev.dequeue n) (it := s.dev.idleItem n fm) (.inr rfl) h2 hf hn) hn hm ht
      have hsent : .egress e (.words (blackWords fm false (s.dev.idleItem n fm).line (s.dev.idleItem n fm).index)) ∈
          ((s.dev.dequeue n).showOn n fm (s.dev.idleItem n fm)).out := by
        rw [hshow, show BitVec.ofNat 11 n = e from BitVec.ofNat_toNat ..]
        exact List.mem_cons_self
      refine completes_of_run (hrun _) heq (heq ▸ Dev.egressGroup_keep (.refl _ _) (by decide) (by decide) (by decide) e) ?_
      split
      · exact Dev.insertAnc_out _ _ hsent
      · exact hsent
  case force =>
    intro hw
    have hf : Dev.applyForce n s.dev = s.dev.setEgr n { x with forced := true, liftBeat := none } := congrArg (s.dev.setEgr n) (if_pos hw)
    exact completes_of_run (hrun (Dev.applyForce n)) hf (Dev.setEgr_keep (.refl _ _) (by decide) _ _) rfl

end Sys2Proof.Machine
end

section
/-! The time unit's writes, references, edges and PPSOUT (R226, R227, R239 to R245) -/

namespace Sys2Proof.Machine
open Sys2Proof

section
variable {d : Dev}

-- a write of INCR, a period, a start (R226, R239, R240)

theorem Dev.setIncr_raises {v : Nat} (h : max incrMin (min incrMax v) ≠ v) : OnTheWay (d.setIncr v) 583 := by
  unfold Dev.setIncr
  rw [if_neg h]
  exact ⟨_, Dev.enRoute_raise _ 583 0, rfl⟩

theorem Dev.armStart_ordered_eq (he : d.time.enabled = true) (hr : d.time.run = false) (ha : d.time.armed = false) :
    d.armStart = { d with time := { d.time with armed := true, next := ceilDiv (d.now + 1000 * ns) d.period * d.period,
                                                first := BitVec.ofNat 64 (ceilDiv (d.now + 1000 * ns) d.period) } } := by
  unfold Dev.armStart
  rw [if_neg (by simp [he, hr, ha])]
  rfl

theorem Dev.writePeriod_waits {v : Word} (hlo : 64 ≤ v.toNat % 2 ^ 14) (hhi : v.toNat % 2 ^ 14 ≤ 8192) (ha : d.admitted = []) (hp : d.time.pendPeriod = none) :
    d.writePeriod v = d.modTime fun t => { t with
      pendPeriod := some (BitVec.ofNat 14 (v.toNat % 2 ^ 14), if d.time.run = false ∨ d.time.n < d.time.pertgt then d.time.pertgt else d.time.n + 1) } := by
  unfold Dev.writePeriod
  rw [if_neg (by simp [ha, hp]; omega)]
  simp only [Bool.not_eq_true']

-- an edge of the PPS input (R245)

/-- The PPS input under SRC = PPS shows a loss: its last edge lies more than `most` back. -/
def Dev.ppsLate (d : Dev) (most : Nat) : Bool := d.time.src == 2 && d.time.lastPps.any fun t => decide (t + most < d.now)

theorem Dev.ppsLate_iff {most : Nat} : d.ppsLate most = true ↔ d.time.src = 2 ∧ ∃ p, d.time.lastPps = some p ∧ p + most < d.now := by
  unfold Dev.ppsLate
  simp [Option.any_eq_true]

/-- The time unit after an edge of the PPS input. -/
def TimeUnit.ppsEdge (t : TimeUnit) (now : Instant) (late : Bool) : TimeUnit := { t with lastPps := some now, ppsloss := if t.src == 2 then late else t.ppsloss }

theorem Dev.ppsEdge_eq (d : Dev) : d.ppsEdge =
    if d.ppsLate (1500000000 * ns) ∧ !d.time.ppsloss then ((d.modTime (·.ppsEdge d.now (d.ppsLate (1500000000 * ns)))).raise 586).holdover
    else d.modTime (·.ppsEdge d.now (d.ppsLate (1500000000 * ns))) := rfl

-- an edge at a TDC (R244)

/-- An input's TDC runs: it is enabled, or it is that of the PPS input under SRC = PPS. -/
def Dev.tdcOn (d : Dev) (i : BitVec 4) : Bool := (Tbl.get ({} : Tdc) d.time.tdc i.toNat).en || (i == 8 && d.time.src == 2)

/-- A timestamped edge reaches the acquisition units. -/
def Dev.edgeSeen (d : Dev) (i : Nat) (at_ : Instant) : Dev := d.putAcq (Tbl.mapAll {} d.acq (AcqUnit.edge i at_))

/-- The time unit with a timestamped edge behind the others in its TDC's FIFO. -/
def TimeUnit.stored (x : TimeUnit) (i : Nat) (t : Tdc) (at_ : Instant) (falling : Bool) : TimeUnit :=
  { x with tdc := Tbl.set {} x.tdc i { t with fifo := t.fifo ++ [{ time := at_, falling }] } }

/-- A timestamped edge enters the FIFO of its TDC, or is dropped and counted. -/
def Dev.edgeKept (d : Dev) (i : Nat) (t : Tdc) (at_ : Instant) (falling : Bool) : Dev :=
  if 16 ≤ t.fifo.length then d.countTime 2
  else
    let d := d.modTime (·.stored i t at_ falling)
    if t.fifo.isEmpty then d.raise (588 + i) else d

theorem Dev.tdcEdge_eq {i : BitVec 4} {falling : Bool} (hon : d.tdcOn i = true)
    (hedge : (Tbl.get ({} : Tdc) d.time.tdc i.toNat).edge = 2 ∨ (Tbl.get ({} : Tdc) d.time.tdc i.toNat).edge = if falling then 1 else 0) :
    Dev.tdcEdge i falling d = ((if i = 8 ∧ !falling then d.ppsEdge else d).edgeSeen i.toNat
      ((if i = 8 ∧ !falling then d.ppsEdge else d).now / 2 ^ 26 * 2 ^ 26)).edgeKept i.toNat (Tbl.get {} d.time.tdc i.toNat)
        ((if i = 8 ∧ !falling then d.ppsEdge else d).now / 2 ^ 26 * 2 ^ 26) falling := by
  unfold Dev.tdcOn at hon
  unfold Dev.tdcEdge Dev.edgeSeen Dev.edgeKept TimeUnit.stored
  rcases hedge with h | h
  · have h2 : (Tbl.get ({} : Tdc) d.time.tdc i.toNat).edge.toNat = 2 := congrArg BitVec.toNat h
    simp only [hon, h2, Bool.not_true, Bool.false_eq_true, or_self, if_false, Bool.and_self, if_true]
  · cases falling with
    | true =>
      have h1 : (Tbl.get ({} : Tdc) d.time.tdc i.toNat).edge.toNat = 1 := congrArg BitVec.toNat h
      simp only [hon, h1, Bool.not_true, Bool.false_eq_true, or_self, if_false, Bool.and_self, if_true]
    | false =>
      have h0 : (Tbl.get ({} : Tdc) d.time.tdc i.toNat).edge.toNat = 0 := congrArg BitVec.toNat h
      simp only [hon, h0, Bool.not_true, Bool.not_false, Bool.false_eq_true, or_self, if_false, Bool.and_self, if_true]

theorem Dev.edgeKept_full {i : Nat} {t : Tdc} (h : 16 ≤ t.fifo.length) (at_ : Instant) (falling : Bool) : d.edgeKept i t at_ falling = d.countTime 2 := if_pos h

theorem Dev.edgeKept_stored {i : Nat} {t : Tdc} (h : t.fifo.length < 16) (at_ : Instant) (falling : Bool) :
    d.edgeKept i t at_ falling = if t.fifo.isEmpty then (d.modTime (·.stored i t at_ falling)).raise (588 + i)
      else d.modTime (·.stored i t at_ falling) := if_neg (by omega)

/-- What an edge enters leaves the rest of the time unit and the events under way. -/
theorem Dev.edgeKept_time (d : Dev) (i : Nat) (t : Tdc) (at_ : Instant) (falling : Bool) : ∃ l c, (d.edgeKept i t at_ falling).time = { d.time with tdc := l, cnt := c } := by
  rcases Nat.lt_or_ge t.fifo.length 16 with h | h
  · rw [Dev.edgeKept_stored h]
    split <;> exact ⟨_, _, rfl⟩
  · rw [Dev.edgeKept_full h]
    exact ⟨_, _, rfl⟩

theorem Dev.EnRoute.edgeKept {o : Occ} (h : d.EnRoute o) (i : Nat) (t : Tdc) (at_ : Instant) (falling : Bool) : (d.edgeKept i t at_ falling).EnRoute o := by
  rcases Nat.lt_or_ge t.fifo.length 16 with hl | hl
  · rw [Dev.edgeKept_stored hl]
    exact .ite (fun _ => h.modTime.raise) fun _ => h.modTime
  · rw [Dev.edgeKept_full hl]
    exact h

-- the next edge of PPSOUT (R245)

/-- The next whole second lies ahead. -/
theorem nextSecond_ahead (now : Nat) (off : Int) {sec : Int} (h : 0 < sec) : now ≤ ((((now : Int) + off) / sec + 1) * sec - off).toNat := by
  have hlt := Int.lt_ediv_add_one_mul_self ((now : Int) + off) h
  generalize (((now : Int) + off) / sec + 1) * sec = q at hlt ⊢
  omega

/-- The instant of the next edge of PPSOUT, for a second's length. -/
def Dev.nextPps (d : Dev) (sec : Int) : Instant :=
  ((((d.now : Int) + d.time.ppsOffset.toInt * (ns : Int)) / sec + 1) * sec - d.time.ppsOffset.toInt * (ns : Int)).toNat

theorem Dev.ppsOutEdge_eq (h : d.time.ppsEn = true) : d.ppsOutEdge =
    (d.reach (d.nextPps (10 ^ 9 * (ns : Int)))).emit
      (.pps (d.nextPps (10 ^ 9 * (ns : Int))) (d.nextPps (10 ^ 9 * (ns : Int)) + max 1 d.time.ppsWidth.toNat * 1000 * ns)) := by
  unfold Dev.ppsOutEdge
  rw [h]
  rfl

theorem Dev.reach_ahead {t : Instant} (h : d.now ≤ t) : (d.reach t).now = t := (d.reach_now t).trans (max_eq_right h)

-- an edge of the PPS input before its timestamp (R245)

/-- What an edge does to the PPS input's time, in time. -/
def TimeUnit.edgeInTime (t : TimeUnit) (i : BitVec 4) (falling : Bool) (now : Instant) : TimeUnit :=
  if i = 8 ∧ falling = false then { t with lastPps := some now, ppsloss := !(i == 8 && t.src == 2) && t.ppsloss } else t

theorem TimeUnit.edgeInTime_rest (t : TimeUnit) (i : BitVec 4) (falling : Bool) (now : Instant) :
    (t.edgeInTime i falling now).tdc = t.tdc ∧ (t.edgeInTime i falling now).cnt = t.cnt := by
  unfold TimeUnit.edgeInTime
  split <;> exact ⟨rfl, rfl⟩

theorem Dev.ppsEdge_inTime {i : BitVec 4} {falling : Bool}
    (h : ¬ ((i == 8 && d.time.src == 2) = true ∧ falling = false ∧ ∃ p, d.time.lastPps = some p ∧ p + 1500000000 * ns < d.now)) :
    (if i = 8 ∧ !falling then d.ppsEdge else d) = { d with time := d.time.edgeInTime i falling d.now } := by
  unfold TimeUnit.edgeInTime
  by_cases hi : i = 8 ∧ falling = false
  · obtain ⟨rfl, rfl⟩ := hi
    have hlate : d.ppsLate (1500000000 * ns) = false := by
      rw [Bool.eq_false_iff]
      intro hl
      obtain ⟨hsrc, hp⟩ := Dev.ppsLate_iff.1 hl
      exact h ⟨by rw [hsrc]; rfl, rfl, hp⟩
    rw [if_pos ⟨rfl, rfl⟩, if_pos ⟨rfl, rfl⟩, Dev.ppsEdge_eq, hlate, if_neg (by simp)]
    have hloss : (if d.time.src == 2 then false else d.time.ppsloss) = (!((8 : BitVec 4) == 8 && d.time.src == 2) && d.time.ppsloss) := by
      cases d.time.src == 2 <;> rfl
    exact congrArg (fun b => { d with time := { d.time with lastPps := some d.now, ppsloss := b } }) hloss
  · rw [if_neg (by simpa using hi), if_neg hi]

theorem Dev.ppsEdge_late (h : d.ppsLate (1500000000 * ns) = true) (hl : d.time.ppsloss = false) :
    OnTheWay d.ppsEdge 586 ∧ d.ppsEdge.time.ppsloss = true ∧ d.ppsEdge.time.lastPps = some d.now ∧ d.ppsEdge.time.servo = .holdover := by
  have hsrc := (Dev.ppsLate_iff.1 h).1
  rw [Dev.ppsEdge_eq, h, if_pos ⟨rfl, by rw [hl]; rfl⟩]
  refine ⟨⟨_, (Dev.enRoute_raise _ 586 0).holdover, rfl⟩, ?_, ?_, ?_⟩ <;> rw [Dev.holdover_time]
  · simp [TimeUnit.heldAt, TimeUnit.ppsEdge, Dev.modTime, hsrc]
  · rfl
  · rfl

end

/-- Settles O32: the writes and references are one change each; an edge that its TDC takes is stamped and kept (`Dev.tdcEdge_eq`) behind what the PPS
input makes of it (`Dev.ppsEdge_eq`). -/
theorem timeUnitTakesWritesAndEdges : Obligations.TimeUnitTakesWritesAndEdges := by
  intro s q t
  refine ⟨?writes, ?lost, ?returned, ?moved, ?edge, ?ppsOut⟩
  case writes =>
    intro hq
    refine ⟨?incr, ?period, ?ignored, ?started, ?pop⟩
    case incr =>
      intro v hsrc
      have hf : s.dev.writeIncr v = s.dev.setIncr (v.toNat % 256 * 2 ^ 32 + t.incrFrac.toNat) := if_pos hsrc
      exact completes_of_run (f := fun d => if d.isPf q then d.writeIncr v else d) rfl ((if_pos hq).trans hf)
        (Dev.setIncr_keep (.refl _ _) (by decide) (by decide) _) ⟨Dev.setIncr_time .., Dev.setIncr_raises⟩
    case period =>
      intro v p hlo hhi hadm hpend
      exact completes_of_run (f := fun d => if d.isPf q then d.writePeriod v else d) rfl ((if_pos hq).trans (Dev.writePeriod_waits hlo hhi hadm hpend))
        (Dev.modTime_keep (.refl _ _) (by decide) _) rfl
    case ignored =>
      intro hrun
      exact completes_of_run (f := fun d => if d.isPf q then d.freestart else d) rfl ((if_pos hq).trans (if_pos hrun)) (Dev.ignore_keep (.refl _ _) (by decide) _) rfl
    case started =>
      intro hen hrun harm
      have hf : s.dev.freestart = s.dev.armStart := if_neg (by rw [hrun]; exact Bool.false_ne_true)
      exact completes_of_run (f := fun d => if d.isPf q then d.freestart else d) rfl ((if_pos hq).trans hf) (Dev.armStart_keep (.refl _ _) (by decide))
        (Dev.armStart_ordered hen hrun harm)
    case pop =>
      intro i hi
      exact completes_of_run (f := fun d => if d.isPf q then d.popTdc i.toNat else d) (congrArg (run · _ s) hi) (if_pos hq) (Dev.popTdc_keep (.refl _ _) (by decide) _) rfl
  case lost =>
    intro href hloss
    have hf : s.dev.refLoss = (s.dev.modTime fun t => { t with refloss := true }).raise 585 := by
      unfold Dev.refLoss
      rw [href, hloss]
      rfl
    exact completes_of_run (f := Dev.refLoss) rfl hf (hf ▸ Dev.refLoss_keep (.refl _ _) (by decide) (by decide)) ⟨rfl, Dev.raise_raised rfl _⟩
  case returned =>
    intro href hloss
    have hf : s.dev.refLoss = s.dev.modTime fun t => { t with refloss := false } := by
      unfold Dev.refLoss
      rw [href, hloss]
      rfl
    exact completes_of_run (f := Dev.refLoss) rfl hf (Dev.modTime_keep (.refl _ _) (by decide) _) rfl
  case moved =>
    intro href hloss hmoved
    exact completes_of_run (f := fun d => if d.time.ref10 ∧ d.time.refloss ∧ !d.time.refMoved then (d.modTime fun t => { t with refMoved := true }).raise 585 else d)
      rfl (if_pos ⟨href, hloss, by rw [hmoved]; rfl⟩) (Dev.raise_keep (Dev.modTime_keep (.refl _ _) (by decide) _) (by decide) _ _) ⟨rfl, Dev.raise_raised rfl _⟩
  case edge =>
    intro i falling hi x pps late t' at_ hon hedge
    have hf := Dev.tdcEdge_eq (d := s.dev) (i := i) (falling := falling) (Bool.or_eq_true_iff.2 hon) hedge
    have hrun : exec (.tdcEdge i falling) s = run true (Dev.tdcEdge i falling) s := congrArg (run · _ s) hi
    refine ⟨?inTime, ?late⟩
    case inTime =>
      intro hin
      rw [Dev.ppsEdge_inTime hin] at hf
      have ht : t'.tdc = t.tdc ∧ t'.cnt = t.cnt := t.edgeInTime_rest i falling s.dev.now
      have hstored : t'.stored i.toNat x at_ falling = { t' with tdc := Tbl.set {} t.tdc i.toNat { x with fifo := x.fifo ++ [{ time := at_, falling }] } } := by
        unfold TimeUnit.stored
        rw [ht.1]
      refine ⟨?stored, ?full⟩
      case stored =>
        intro hlen
        rw [Dev.edgeKept_stored hlen] at hf
        refine completes_of_run hrun hf (hf ▸ Dev.tdcEdge_keep (.refl _ _) (by decide) (by decide) (by decide) i falling) ?_
        by_cases hempty : x.fifo = []
        · rw [if_pos (List.isEmpty_iff.2 hempty)]
          exact ⟨hstored, rfl, fun _ => Dev.raise_raised rfl _, fun h => absurd hempty h⟩
        · rw [if_neg (mt List.isEmpty_iff.1 hempty)]
          exact ⟨hstored, rfl, fun h => absurd h hempty, fun _ => rfl⟩
      case full =>
        intro hlen
        rw [Dev.edgeKept_full hlen] at hf
        refine completes_of_run hrun hf (Keep.upd_time (Keep.upd_acq (Keep.upd_time (.refl _ _) (by decide)) (by decide)) (by decide)) ⟨?_, rfl⟩
        exact congrArg (fun c => { t' with cnt := bumpAt c 2 }) ht.2
    case late =>
      intro hpps hfall hlate hloss
      obtain ⟨hi8, hsrc⟩ : i = 8 ∧ t.src = 2 := by simpa [pps] using hpps
      have hlost := Dev.ppsEdge_late (d := s.dev) (Dev.ppsLate_iff.2 ⟨hsrc, hlate⟩) hloss
      rw [if_pos ⟨hi8, by rw [hfall]; rfl⟩] at hf
      generalize s.dev.ppsEdge = e at hf hlost
      obtain ⟨⟨o, ho, hev⟩, hppsloss, hlast, hservo⟩ := hlost
      obtain ⟨l, c, htime⟩ := (e.edgeSeen i.toNat (e.now / 2 ^ 26 * 2 ^ 26)).edgeKept_time i.toNat x (e.now / 2 ^ 26 * 2 ^ 26) falling
      refine completes_of_run hrun hf (hf ▸ Dev.tdcEdge_keep (.refl _ _) (by decide) (by decide) (by decide) i falling)
        ⟨⟨o, Dev.EnRoute.edgeKept (d := e.edgeSeen i.toNat (e.now / 2 ^ 26 * 2 ^ 26)) ho _ _ _ _, hev⟩, ?_, ?_, ?_⟩
      · rw [htime]
        exact hppsloss
      · rw [htime]
        exact hlast
      · rw [htime]
        exact hservo
  case ppsOut =>
    intro hen
    refine completes_of_run (f := Dev.ppsOutEdge) rfl (Dev.ppsOutEdge_eq hen) (Dev.ppsOutEdge_eq hen ▸ Dev.ppsOutEdge_keep (.refl _ _) (by decide) (by decide)) ⟨?_, ?_⟩
    · exact Dev.reach_ahead (nextSecond_ahead _ _ (by decide))
    · exact congrArg (_ :: ·) (s.dev.reach_out _)

end Sys2Proof.Machine
end

section
/-! Hub ports, user events, PLL locks, banks, delays and written blocks (R292 to R303, R321) -/

namespace Sys2Proof.Machine
open Sys2Proof

section
variable {d : Dev}

-- hub ports (R294, R295)

theorem Dev.hpTxWord_takes {p idx : BitVec 6} {w : Lanes} {y : Func × BindRec} (hr : d.hpReady p.toNat = true) (hy : d.portRecords p.toNat = [y])
    (hi : idx.toNat < y.2.words) (ht : Tbl.get none (d.fabric.hp p.toNat).taken idx.toNat = none) :
    Dev.hpTxWord p idx w d = d.modHp p.toNat fun h => { h with taken := Tbl.set none h.taken idx.toNat (some w) } := by
  unfold Dev.hpTxWord
  simp [hr, hy, ht, Nat.not_le.2 hi]

theorem Dev.hpTxWord_drops {p idx : BitVec 6} {w : Lanes} {y : Func × BindRec} (hr : d.hpReady p.toNat = true) (hy : d.portRecords p.toNat = [y])
    (h : y.2.words ≤ idx.toNat ∨ (Tbl.get none (d.fabric.hp p.toNat).taken idx.toNat).isSome = true) :
    Dev.hpTxWord p idx w d = (d.countFabric 1).raise (512 + p.toNat) := by
  unfold Dev.hpTxWord
  simp [hr, hy, h]

theorem Dev.hpClose_closes {p : BitVec 6} (hc : d.fabric.clockRuns (d.fabric.hp p.toNat).clk.toNat = true) (hr : d.time.run = true)
    (ho : (d.fabric.hp p.toNat).closed = false) (hy : d.portRecords p.toNat ≠ []) :
    Dev.hpClose p d = (d.reach (d.time.next - 64 * ns)).modHp p.toNat fun h => { h with closed := true, txcount := BitVec.ofNat 7 h.taken.length } := by
  have hy' : (d.portRecords p.toNat).isEmpty = false := by simpa using hy
  unfold Dev.hpClose
  dsimp only
  rw [hc, hr, ho, hy']
  exact if_neg (by decide)

theorem Dev.hpRxPresent_shows {p : BitVec 6} {i : Nat} {w : Lanes} {rest : List (Nat × Lanes)} (hc : d.fabric.clockRuns (d.fabric.hp p.toNat).clk.toNat = true)
    (hrx : (d.fabric.hp p.toNat).rx = (i, w) :: rest) (hp : (d.fabric.block p.toNat).phase = .run) (hu : d.hubUp = true) :
    Dev.hpRxPresent p d = (d.modHp p.toNat fun h => { h with rx := rest, rxNow := some (i, w), rxcount := h.rxcount + 1 }).emit (.hubport p i w) := by
  unfold Dev.hpRxPresent
  simp [hrx, hc, Fabric.runs, hp, hu]

-- user events (R296)

theorem Dev.uevEdge_sets {u : BitVec 7} {rising : Bool} (hp : (d.fabric.block (u.toNat / 2)).phase = .run) (hw : Tbl.get false d.fabric.uev u.toNat ≠ rising) :
    Dev.uevEdge u rising d = d.setUev u.toNat rising := by
  unfold Dev.uevEdge
  simp [Fabric.runs, hp, hw]

/-- A user event's signal is set. -/
def Dev.uevSet (d : Dev) (u : Nat) (v : Bool) : Dev := d.modFabric fun f => { f with uev := Tbl.set false f.uev u v }

theorem Dev.setUev_rises {u : Nat} (hw : Tbl.get false d.fabric.uev u = false) (hu : d.hubUp = true) : d.setUev u true = (d.uevSet u true).raise (896 + u) := by
  unfold Dev.setUev
  exact if_pos ⟨rfl, by rw [hw]; rfl, hu⟩

theorem Dev.setUev_falls {u : Nat} : d.setUev u false = d.uevSet u false := by
  unfold Dev.setUev
  exact if_neg fun h => Bool.false_ne_true h.1

theorem Dev.setUev_fabric (d : Dev) (u : Nat) (v : Bool) : (d.setUev u v).fabric = { d.fabric with uev := Tbl.set false d.fabric.uev u v } := by
  unfold Dev.setUev
  dsimp only
  split <;> rfl

-- the lock of a PLL (R292)

/-- The locks of the PLLs after a change of one. -/
def lockMask (x : BitVec 8) (k : Nat) (lock : Bool) : BitVec 8 := if lock then x ||| (1 : BitVec 8) <<< k else x &&& ~~~((1 : BitVec 8) <<< k)

theorem lockMask_getLsbD {x : BitVec 8} {k i : Nat} (hi : i < 8) (lock : Bool) : (lockMask x k lock).getLsbD i = if i = k then lock else x.getLsbD i := by
  have hbit : (1#8 <<< k).getLsbD i = decide (i = k) := by
    rw [← BitVec.twoPow_eq, BitVec.getLsbD_twoPow, ← Bool.decide_and, decide_eq_decide]
    omega
  unfold lockMask
  cases lock with
  | true =>
    rw [if_pos rfl]
    refine (BitVec.getLsbD_or ..).trans ?_
    rw [BitVec.ofNat_eq_ofNat, hbit]
    by_cases hk : i = k <;> simp [hk]
  | false =>
    rw [if_neg Bool.false_ne_true]
    refine (BitVec.getLsbD_and ..).trans ?_
    rw [BitVec.getLsbD_not, BitVec.ofNat_eq_ofNat, hbit, decide_eq_true hi]
    by_cases hk : i = k <;> simp [hk]

theorem Dev.pllLockChange_changes {k : BitVec 3} {lock : Bool} (hl : d.fabric.pllLock.getLsbD k.toNat ≠ lock)
    (hon : lock = true → (Tbl.get 0 d.fabric.pll k.toNat).getLsbD 43 = true) : Dev.pllLockChange k lock d =
      ((d.modFabric fun f => { f with pllLock := lockMask f.pllLock k.toNat lock, ran := if lock then d.now else f.ran }).raise (512 + 8 * k.toNat)).checkClock := by
  have hoff : ¬ (lock = true ∧ !bitOf (Tbl.get (0 : BitVec 64) d.fabric.pll k.toNat).toNat 43) := by
    rintro ⟨h, hn⟩
    have hb : bitOf (Tbl.get (0 : BitVec 64) d.fabric.pll k.toNat).toNat 43 = true := hon h
    rw [hb] at hn
    exact Bool.false_ne_true hn
  unfold Dev.pllLockChange
  exact if_neg (not_or.2 ⟨hl, hoff⟩)

-- pads and banks (R302)

/-- The user I/O are drawn anew: nothing but the pads changes. -/
theorem Dev.refreshPads_fabric (d : Dev) : d.refreshPads.fabric = { d.fabric with pads := d.refreshPads.fabric.pads } := by
  unfold Dev.refreshPads Dev.modFabric Fabric.refreshPads
  dsimp only
  split <;> rfl

-- an application's blocks (R321)

theorem Dev.fabricBlockWritten_first {a : Application} {rest : List Application} (ha : d.fabric.applying = a :: rest) (hn : a ∉ rest) (hl : a.left ≠ [])
    (hu : d.hubUp = true) : d.fabricBlockWritten = d.modFabric fun f => { f with applying := { a with left := a.left.drop 1 } :: rest } := by
  have hmap : rest.map (fun y => if y = a then { y with left := y.left.drop 1 } else y) = rest :=
    (List.map_congr_left fun y hy => if_neg fun (h : y = a) => hn (h ▸ hy)).trans (List.map_id _)
  unfold Dev.fabricBlockWritten Dev.modFabric
  simpa [ha, hl, hu] using hmap

end

/-- Settles O38: each command is one change of the fabric, under the conditions that its statement names. -/
theorem hubPortsAndFabricFollowTheirCommands : Obligations.HubPortsAndFabricFollowTheirCommands := by
  intro s f
  refine ⟨?words, ?port, ?event, ?lock, ?bank, ?delay, ?written⟩
  case words =>
    intro p idx w y hr hy h
    refine ⟨fun hi ht => ?_, fun hdrop => ?_⟩
    · exact completes_of_run (f := Dev.hpTxWord p idx w) rfl (Dev.hpTxWord_takes hr hy hi ht) (Dev.modHp_keep (.refl _ _) (by decide) _ _) rfl
    · have hf := Dev.hpTxWord_drops (w := w) hr hy hdrop
      exact completes_of_run (f := Dev.hpTxWord p idx w) rfl hf (hf ▸ Dev.hpTxWord_keep (.refl _ _) (by decide) (by decide) p idx w) ⟨rfl, Dev.raise_raised rfl _⟩
  case port =>
    intro p h hc
    refine ⟨fun hrun hopen hy => ?_, fun i w rest hrx hp hu => ?_⟩
    · refine completes_of_run (f := Dev.hpClose p) rfl (Dev.hpClose_closes hc hrun hopen hy) (Dev.modHp_keep (Dev.reach_keep (.refl _ _) (by decide) _) (by decide) _ _) ?_
      rw [Dev.reach_eq]
      exact ⟨rfl, rfl⟩
    · exact completes_of_run (f := Dev.hpRxPresent p) rfl (Dev.hpRxPresent_shows hc hrx hp hu)
        (Dev.emit_keep (Dev.modHp_keep (.refl _ _) (by decide) _ _) (by decide) _) ⟨rfl, rfl⟩
  case event =>
    intro u rising hp hw
    refine completes_of_run (f := Dev.uevEdge u rising) rfl (Dev.uevEdge_sets hp hw) (Dev.setUev_keep (.refl _ _) (by decide) (by decide) _ _)
      ⟨Dev.setUev_fabric .., fun hrise hu => ?_, fun hfall => ?_⟩
    · subst hrise
      rw [Dev.setUev_rises (by simpa using hw) hu]
      exact Dev.raise_raised rfl _
    · subst hfall
      rw [Dev.setUev_falls]
      rfl
  case lock =>
    intro k lock hl hon
    refine completes_of_run (f := Dev.pllLockChange k lock) rfl (Dev.pllLockChange_changes hl hon)
      (Dev.checkClock_keep (Dev.raise_keep (Dev.modFabric_keep (.refl _ _) (by decide) _) (by decide) _ _) (by decide)) ⟨Dev.raise_raised rfl _, ?_, ?_⟩
    · exact fun i hi => lockMask_getLsbD hi lock
    · rfl
  case bank =>
    intro k cls
    exact completes_of_run (f := Dev.vccioMatch k cls) rfl rfl (Dev.vccioMatch_keep (.refl _ _) (by decide) k cls) (Dev.refreshPads_fabric _)
  case delay =>
    intro i hi
    exact completes_of_run (f := Dev.iodlyStep i.toNat) (congrArg (run · _ s) (decide_eq_true hi)) rfl (Dev.iodlyStep_keep (.refl _ _) (by decide) _) rfl
  case written =>
    intro a rest ha hn hl hu
    exact completes_of_run (f := Dev.fabricBlockWritten) rfl (Dev.fabricBlockWritten_first ha hn hl hu) (Dev.modFabric_keep (.refl _ _) (by decide) _) rfl

end Sys2Proof.Machine
end

section
/-! Release and withdrawal of fabric blocks, stage by stage (R297 to R300) -/

namespace Sys2Proof.Machine
open Sys2Proof

-- what a step of one block leaves of the fabric (R297, R298, R300)

/-- Nothing of the fabric but its blocks and user events has changed. -/
def Dev.OnlyBlocks (d e : Dev) : Prop := e.fabric = { d.fabric with blocks := e.fabric.blocks, uev := e.fabric.uev }

theorem Dev.OnlyBlocks.refl (d : Dev) : d.OnlyBlocks d := rfl

theorem Dev.OnlyBlocks.trans {d e g : Dev} (x : d.OnlyBlocks e) (y : e.OnlyBlocks g) : d.OnlyBlocks g := by
  unfold Dev.OnlyBlocks at *
  rw [y, x]

theorem Dev.OnlyBlocks.clockOk {d e : Dev} (h : d.OnlyBlocks e) : e.fabric.clockOk = d.fabric.clockOk := by
  have hclock := congrArg Fabric.clockOk h
  exact hclock

theorem Dev.OnlyBlocks.releasing {d e : Dev} (h : d.OnlyBlocks e) : e.fabric.releasing = d.fabric.releasing := by
  have hrel := congrArg Fabric.releasing h
  exact hrel

theorem Dev.OnlyBlocks.applying {d e : Dev} (h : d.OnlyBlocks e) : e.fabric.applying = d.fabric.applying := by
  have happ := congrArg Fabric.applying h
  exact happ

/-- One block has become `y`; of the other blocks and their user events nothing has changed. -/
structure Dev.BlockStep (d : Dev) (b : Nat) (y : FbBlock) (e : Dev) : Prop where
  rest : d.OnlyBlocks e
  same : e.fabric.block b = y
  others : ∀ c, c ≠ b → e.fabric.block c = d.fabric.block c
  uev : ∀ c, c ≠ b → ∀ i ∈ [0, 1], Tbl.get false e.fabric.uev (2 * c + i) = Tbl.get false d.fabric.uev (2 * c + i)

/-- Steps of different blocks: each block of the list takes its own, and the others stay. `R` says what a block's step makes of it and its user events. -/
theorem Dev.each_blockStep {f : Dev → Nat → Dev} {R : Nat → FbBlock → FbBlock → (Nat → Bool) → Prop} {d : Dev} {l : List Nat} (hl : l.Nodup)
    (hf : ∀ e b, d.OnlyBlocks e → e.BlockStep b ((f e b).fabric.block b) (f e b) ∧
      ∀ u, (∀ i ∈ [0, 1], Tbl.get false (f e b).fabric.uev (2 * b + i) = u i) → R b (e.fabric.block b) ((f e b).fabric.block b) u) :
    d.OnlyBlocks (d.each l f) ∧ (∀ b ∉ l, (d.each l f).fabric.block b = d.fabric.block b) ∧
      ∀ b ∈ l, ∀ u, (∀ i ∈ [0, 1], Tbl.get false (d.each l f).fabric.uev (2 * b + i) = u i) → R b (d.fabric.block b) ((d.each l f).fabric.block b) u := by
  suffices h : ∀ e, d.OnlyBlocks e → d.OnlyBlocks (e.each l f) ∧ (∀ b ∉ l, (e.each l f).fabric.block b = e.fabric.block b ∧
      ∀ i ∈ [0, 1], Tbl.get false (e.each l f).fabric.uev (2 * b + i) = Tbl.get false e.fabric.uev (2 * b + i)) ∧
      ∀ b ∈ l, ∀ u, (∀ i ∈ [0, 1], Tbl.get false (e.each l f).fabric.uev (2 * b + i) = u i) → R b (e.fabric.block b) ((e.each l f).fabric.block b) u from
    ⟨(h d (.refl d)).1, fun b hb => ((h d (.refl d)).2.1 b hb).1, (h d (.refl d)).2.2⟩
  unfold Dev.each
  induction l with
  | nil => exact fun e he => ⟨he, fun b _ => ⟨rfl, fun _ _ => rfl⟩, fun b hb => absurd hb List.not_mem_nil⟩
  | cons a l ih =>
    intro e he
    obtain ⟨hal, hl⟩ := List.nodup_cons.1 hl
    obtain ⟨hstep, hR⟩ := hf e a he
    obtain ⟨honly, hothers, heach⟩ := ih hl (f e a) (he.trans hstep.rest)
    refine ⟨honly, fun b hb => ?_, fun b hb u hu => ?_⟩
    · obtain ⟨hba, hbl⟩ := not_or.1 (mt List.mem_cons.2 hb)
      exact ⟨(hothers b hbl).1.trans (hstep.others b hba), fun i hi => ((hothers b hbl).2 i hi).trans (hstep.uev b hba i hi)⟩
    · by_cases hba : b = a
      · subst hba
        have hsame := hothers b hal
        rw [List.foldl_cons, hsame.1]
        exact hR u fun i hi => (hsame.2 i hi).symm.trans (hu i hi)
      · have hmem : b ∈ l := (List.mem_cons.1 hb).resolve_left hba
        rw [← hstep.others b hba]
        exact heach b hmem u hu

section
variable (f : Fabric) (b : Nat) (y : FbBlock)

theorem Fabric.block_setBlock : (f.setBlock b y).block b = y := Tbl.get_set_same ..

theorem Fabric.block_setBlock_other {c : Nat} (h : c ≠ b) : (f.setBlock b y).block c = f.block c := Tbl.get_set_other _ _ _ _ _ h

/-- A fabric with a block and its user event signals changed. -/
def Fabric.withBlock (v : Nat → Bool) : Fabric :=
  { f with blocks := Tbl.set {} f.blocks b y, uev := Tbl.set false (Tbl.set false f.uev (2 * b + 0) (v 0)) (2 * b + 1) (v 1) }

theorem Fabric.block_withBlock (v : Nat → Bool) : (f.withBlock b y v).block b = y := Tbl.get_set_same ..

theorem Fabric.block_withBlock_other (v : Nat → Bool) {c : Nat} (h : c ≠ b) : (f.withBlock b y v).block c = f.block c := Tbl.get_set_other _ _ _ _ _ h

end

/-- A block's user event signals take their values: the other blocks' stay. -/
theorem Tbl.get_uevs {u : Tbl Bool} {b : Nat} (v : Nat → Bool) (c : Nat) {i : Nat} (hi : i ∈ [0, 1]) :
    Tbl.get false (Tbl.set false (Tbl.set false u (2 * b + 0) (v 0)) (2 * b + 1) (v 1)) (2 * c + i) = if c = b then v i else Tbl.get false u (2 * c + i) := by
  have h01 : i = 0 ∨ i = 1 := by simpa using hi
  by_cases h : c = b
  · subst h
    rw [if_pos rfl]
    rcases h01 with rfl | rfl
    · rw [Tbl.get_set_other _ _ _ _ _ (by omega), Tbl.get_set_same]
    · rw [Tbl.get_set_same]
  · rw [if_neg h, Tbl.get_set_other _ _ _ _ _ (by omega), Tbl.get_set_other _ _ _ _ _ (by omega)]

section
variable {d : Dev} {b : Nat}

/-- Both user event signals of a block are set. -/
theorem Dev.setUevs_fabric (v : Dev → Nat → Bool) {u : Nat → Bool} (h0 : v d 0 = u 0) (h1 : ∀ w, v (d.setUev (2 * b + 0) w) 1 = u 1) :
    (d.each [0, 1] fun d i => d.setUev (2 * b + i) (v d i)).fabric =
      { d.fabric with uev := Tbl.set false (Tbl.set false d.fabric.uev (2 * b + 0) (u 0)) (2 * b + 1) (u 1) } := by
  refine (Dev.setUev_fabric ..).trans ?_
  rw [h1, Dev.setUev_fabric, h0]

-- a stage on (R298)

/-- What a block's user event signal becomes as its threshold cells lift: what its flip-flop holds, where it has one. -/
def FbBlock.uevValue (x : FbBlock) (i : Nat) : Bool := match x.config.uevCell i with | some k => Tbl.get false x.ffs k | none => false

theorem FbConfig.uevCell_lt {c : FbConfig} {i k : Nat} (h : c.uevCell i = some k) : k < 4096 := by
  unfold FbConfig.uevCell at h
  dsimp only at h
  split at h
  · cases h
    exact Nat.mod_lt _ (by decide)
  · cases h

theorem Fabric.uevValue_eq (f : Fabric) (b i : Nat) :
    (match (f.block b).config.uevCell i with | some k => f.ff (4096 * b + k) | none => false) = (f.block b).uevValue i := by
  unfold FbBlock.uevValue
  cases h : (f.block b).config.uevCell i with
  | none => rfl
  | some k =>
    have hk := FbConfig.uevCell_lt h
    show f.ff (4096 * b + k) = Tbl.get false (f.block b).ffs k
    unfold Fabric.ff
    rw [show (4096 * b + k) / 4096 = b by omega, show (4096 * b + k) % 4096 = k by omega]

/-- A block at its next stage. -/
def FbBlock.advanced (x : FbBlock) : FbBlock :=
  if x.rel = 0 then { x with rel := 1, phase := .run, released := true, held := [], heldIo := [] } else { x with rel := x.rel + 1 }

/-- A block whose threshold cells have lifted (R298). -/
def FbBlock.lifted (x : FbBlock) : FbBlock := { x with phase := .run, released := true, held := [], heldIo := [] }

theorem FbBlock.advanced_rel (x : FbBlock) : x.advanced.rel = x.rel + 1 := by
  unfold FbBlock.advanced
  split
  · next h => rw [h]; rfl
  · rfl

theorem next_ne_three (r : BitVec 2) : (r + 1 != 3) = (r != 2) := by
  revert r
  decide

theorem Dev.liftBlock_fabric (d : Dev) (b : Nat) :
    (d.liftBlock b).fabric = d.fabric.withBlock b (d.fabric.block b).lifted (d.fabric.block b).uevValue := by
  have hval (e : Dev) (he : e.fabric.block b = (d.fabric.block b).lifted) (i : Nat) :
      (match (e.fabric.block b).config.uevCell i with | some k => e.fabric.ff (4096 * b + k) | none => false) = (d.fabric.block b).uevValue i := by
    refine (e.fabric.uevValue_eq b i).trans ?_
    rw [he]
    rfl
  refine Dev.setUevs_fabric (d := d.modFabric (·.setBlock b (d.fabric.block b).lifted))
    (fun d i => match (d.fabric.block b).config.uevCell i with | some k => d.fabric.ff (4096 * b + k) | none => false) (hval _ ?_ 0) fun w => hval _ ?_ 1
  · exact Fabric.block_setBlock ..
  · rw [Dev.setUev_fabric]
    exact Fabric.block_setBlock d.fabric b (d.fabric.block b).lifted

/-- What a step of a block makes of it, of its user events and of the rest of the fabric. -/
theorem Dev.blockStep_of_fabric {e : Dev} {y : FbBlock} {v : Nat → Bool}
    (h : e.fabric = { d.fabric with blocks := e.fabric.blocks, uev := Tbl.set false (Tbl.set false d.fabric.uev (2 * b + 0) (v 0)) (2 * b + 1) (v 1) })
    (hsame : e.fabric.block b = y) (hothers : ∀ c, c ≠ b → e.fabric.block c = d.fabric.block c) :
    d.BlockStep b y e ∧ ∀ i ∈ [0, 1], Tbl.get false e.fabric.uev (2 * b + i) = v i := by
  have huev := congrArg Fabric.uev h
  refine ⟨⟨?_, hsame, hothers, fun c hc i hi => ?_⟩, fun i hi => ?_⟩
  · unfold Dev.OnlyBlocks
    rw [huev]
    exact h
  · rw [huev, Tbl.get_uevs v c hi, if_neg hc]
  · rw [huev, Tbl.get_uevs v b hi, if_pos rfl]

theorem Dev.blockStep_of_blocks {e : Dev} {y : FbBlock} (h : e.fabric = { d.fabric with blocks := e.fabric.blocks }) (hsame : e.fabric.block b = y)
    (hothers : ∀ c, c ≠ b → e.fabric.block c = d.fabric.block c) : d.BlockStep b y e := by
  have huev := congrArg Fabric.uev h
  refine ⟨?_, hsame, hothers, fun c _ i _ => by rw [huev]⟩
  unfold Dev.OnlyBlocks
  rw [huev]
  exact h

theorem Dev.advanceStage_step (d : Dev) (b : Nat) : d.BlockStep b (d.fabric.block b).advanced (d.advanceStage b) ∧
    ((d.fabric.block b).rel = 0 → ∀ i ∈ [0, 1], Tbl.get false (d.advanceStage b).fabric.uev (2 * b + i) = (d.fabric.block b).uevValue i) := by
  by_cases h : (d.fabric.block b).rel = 0
  · have he : d.advanceStage b = (d.liftBlock b).modFabric fun f => f.setBlock b { f.block b with rel := (f.block b).rel + 1 } := by
      unfold Dev.advanceStage
      rw [if_pos h]
    have hfab := d.liftBlock_fabric b
    have hblock : (d.liftBlock b).fabric.block b = (d.fabric.block b).lifted := by rw [hfab, Fabric.block_withBlock]
    have hnext : { (d.liftBlock b).fabric.block b with rel := ((d.liftBlock b).fabric.block b).rel + 1 } = (d.fabric.block b).advanced := by
      rw [hblock]
      unfold FbBlock.advanced
      rw [if_pos h]
      exact congrArg (fun r => { (d.fabric.block b).lifted with rel := r + 1 }) h
    have hset : (d.advanceStage b).fabric = (d.fabric.withBlock b (d.fabric.block b).lifted (d.fabric.block b).uevValue).setBlock b (d.fabric.block b).advanced := by
      rw [he, ← hnext, ← hfab]
      rfl
    have hstep := Dev.blockStep_of_fabric (d := d) (b := b) (e := d.advanceStage b) (y := (d.fabric.block b).advanced) (v := (d.fabric.block b).uevValue)
      (by rw [hset]; rfl) (by rw [hset, Fabric.block_setBlock]) fun c hc => by rw [hset, Fabric.block_setBlock_other _ _ _ hc, Fabric.block_withBlock_other _ _ _ _ hc]
    exact ⟨hstep.1, fun _ => hstep.2⟩
  · have he : d.advanceStage b = d.modFabric fun f => f.setBlock b { f.block b with rel := (f.block b).rel + 1 } := by
      unfold Dev.advanceStage
      rw [if_neg h]
    refine ⟨Dev.blockStep_of_blocks (by rw [he]; rfl) ?_ fun c hc => ?_, fun h0 => absurd h0 h⟩
    · rw [he]
      refine (Fabric.block_setBlock ..).trans ?_
      unfold FbBlock.advanced
      rw [if_neg h]
    · rw [he]
      exact Fabric.block_setBlock_other _ _ _ hc

end

-- a stage back (R300)

/-- A block at the stage before: out of stage 3 its flip-flops are in reset again, out of stage 1 its threshold cells hold. -/
structure FbBlock.Withdrawn (x y : FbBlock) : Prop where
  block : y = { x with rel := x.rel - 1, phase := if x.rel = 1 then .thresh else x.phase, released := x.released && x.rel != 1
                       ffs := if x.rel = 3 then blockFfs x.config else x.ffs, held := y.held, heldIo := y.heldIo }
  held : x.rel ≠ 1 → y.held = x.held ∧ y.heldIo = x.heldIo
  cells : x.rel = 1 → ∀ k < 4096, (x.config.thr k = 1 → (k, true) ∉ y.held) ∧ (x.config.thr k = 2 → (k, true) ∈ y.held)

section
variable (d : Dev) (b : Nat)

/-- What the threshold cells of a block's cells hold. -/
def heldCells (c : FbConfig) (presents : Nat → Bool) : List (Nat × Bool) := ((List.range 4096).map fun k => (k, thrValue (c.thr k) (presents k))).filter (·.2)

theorem mem_heldCells {c : FbConfig} {presents : Nat → Bool} {k : Nat} (hk : k < 4096) :
    (c.thr k = 1 → (k, true) ∉ heldCells c presents) ∧ (c.thr k = 2 → (k, true) ∈ heldCells c presents) := by
  have hmem : (k, true) ∈ heldCells c presents ↔ thrValue (c.thr k) (presents k) = true := by
    unfold heldCells
    simp [hk]
  rw [hmem]
  refine ⟨fun h => ?_, fun h => ?_⟩
  · rw [h]
    exact Bool.false_ne_true
  · rw [h]
    rfl

/-- The block's user event signals as its threshold cells begin to hold. -/
def Dev.heldUev (c : FbConfig) (i : Nat) : Bool := match c.uevCell i with | some k => thrValue (c.thr k) (Tbl.get false d.fabric.uev (2 * b + i)) | none => false

/-- What the threshold cells of a block's pins hold: data and enable. -/
def Dev.heldPins (c : FbConfig) : Tbl (Bool × Bool) :=
  let pin (j : Nat) : Bool × Bool :=
    let w := (Tbl.get 0 c.iocell j).toNat
    let p := Tbl.get ({} : Pad) d.fabric.pads (6 * b + j)
    (thrValue (fld w 33 2) (p.drive.getD false), thrValue (fld w 35 2) p.drive.isSome)
  ((List.range 6).map fun j => (j, pin j)).filter fun e => decide (e.2 ≠ (false, false))

/-- A block whose threshold cells hold. -/
def FbBlock.holding (x : FbBlock) (held : Tbl Bool) (io : Tbl (Bool × Bool)) : FbBlock := { x with phase := .thresh, held, heldIo := io }

theorem Dev.holdBlock_fabric (c : FbConfig) : ∃ held io v, (Dev.holdBlock c d b).fabric = d.fabric.withBlock b ((d.fabric.block b).holding held io) v ∧
    ∀ k < 4096, (c.thr k = 1 → (k, true) ∉ held) ∧ (c.thr k = 2 → (k, true) ∈ held) := by
  have huev := Dev.setUevs_fabric (d := d.take 1) (b := b) (u := d.heldUev b c) (fun d i => d.heldUev b c i) rfl fun w => ?_
  · refine ⟨heldCells c (d.fabricView.presents b), d.heldPins b c, d.heldUev b c, ?_, fun k hk => mem_heldCells hk⟩
    refine (congrArg (fun f : Fabric => f.setBlock b { f.block b with phase := .thresh, held := heldCells c (d.fabricView.presents b), heldIo := d.heldPins b c }) huev).trans rfl
  · unfold Dev.heldUev
    cases c.uevCell 1 with
    | none => rfl
    | some k =>
      refine congrArg (thrValue (c.thr k)) ?_
      rw [Dev.setUev_fabric]
      exact Tbl.get_set_other _ _ _ _ _ (by omega)

end

section
variable {d : Dev} {b : Nat}

/-- A block goes back by a stage, unless it is at none or its application is under way. -/
def Dev.Goes (d : Dev) (b : Nat) : Prop := (d.fabric.block b).rel ≠ 0 ∧ ∀ a ∈ d.fabric.applying, b ∉ a.blocks

theorem Dev.withdrawStage_stays (h : ¬ d.Goes b) : d.withdrawStage b = d := by
  unfold Dev.withdrawStage
  refine if_pos ?_
  by_contra hn
  obtain ⟨h0, ha⟩ := not_or.1 hn
  exact h ⟨h0, fun a hm hb => ha (List.any_eq_true.2 ⟨a, hm, decide_eq_true hb⟩)⟩

/-- A block with its stage, its release and its flip-flops as withdrawal leaves them. -/
def FbBlock.back (y : FbBlock) : FbBlock :=
  { y with rel := y.rel - 1, released := y.released && y.rel != 1, ffs := if y.rel = 3 then blockFfs y.config else y.ffs }

theorem Dev.withdrawStage_goes (h : d.Goes b) : d.withdrawStage b =
    (if (d.fabric.block b).rel = 1 then Dev.holdBlock (d.fabric.block b).config d b else d).modFabric fun f => f.setBlock b (f.block b).back := by
  obtain ⟨h0, ha⟩ := h
  unfold Dev.withdrawStage
  refine if_neg (not_or.2 ⟨h0, fun hany => ?_⟩)
  obtain ⟨a, hm, hb⟩ := List.any_eq_true.1 hany
  exact ha a hm (of_decide_eq_true hb)

theorem Dev.withdrawStage_step (h : d.Goes b) : ∃ y, d.BlockStep b y (d.withdrawStage b) ∧ (d.fabric.block b).Withdrawn y := by
  by_cases h1 : (d.fabric.block b).rel = 1
  · obtain ⟨held, io, v, hfab, hcells⟩ := d.holdBlock_fabric b (d.fabric.block b).config
    have he : (d.withdrawStage b).fabric =
        (d.fabric.withBlock b ((d.fabric.block b).holding held io) v).setBlock b ((d.fabric.block b).holding held io).back := by
      rw [Dev.withdrawStage_goes h, if_pos h1]
      refine (congrArg (fun f : Fabric => f.setBlock b (f.block b).back) hfab).trans ?_
      rw [Fabric.block_withBlock]
    refine ⟨_, (Dev.blockStep_of_fabric (v := v) (by rw [he]; rfl) (by rw [he, Fabric.block_setBlock]) fun c hc => ?_).1, ?_, fun hn => absurd h1 hn, fun _ => hcells⟩
    · rw [he, Fabric.block_setBlock_other _ _ _ hc, Fabric.block_withBlock_other _ _ _ _ hc]
    · rw [if_pos h1]
      rfl
  · have he : (d.withdrawStage b).fabric = d.fabric.setBlock b (d.fabric.block b).back := by
      rw [Dev.withdrawStage_goes h, if_neg h1]
      rfl
    refine ⟨(d.fabric.block b).back, Dev.blockStep_of_blocks (by rw [he]; rfl) (by rw [he, Fabric.block_setBlock]) fun c hc => ?_, ?_, fun _ => ⟨rfl, rfl⟩, fun hn => absurd hn h1⟩
    · rw [he, Fabric.block_setBlock_other _ _ _ hc]
    · rw [if_neg h1]
      rfl

theorem Dev.BlockStep.refl (d : Dev) (b : Nat) : d.BlockStep b (d.fabric.block b) d := ⟨.refl d, rfl, fun _ _ => rfl, fun _ _ _ _ => rfl⟩

-- the stages of all blocks

theorem Tbl.nodup_keys {t : Tbl FbBlock} (h : Tbl.wf ({} : FbBlock) t = true) : (Tbl.keys t).Nodup :=
  (Tbl.wf_rising h).imp fun h => Nat.ne_of_lt h

theorem Tbl.get_of_not_key {t : Tbl FbBlock} (h : b ∉ Tbl.keys t) : Tbl.get ({} : FbBlock) t b = {} :=
  (Tbl.get_default_or_mem _ t b).resolve_right fun hm => h (List.mem_map_of_mem (f := Prod.fst) hm)

/-- Every block that goes back has gone back by a stage; the others stand. -/
theorem Dev.each_withdrawStage (hwf : Tbl.wf ({} : FbBlock) d.fabric.blocks = true) :
    d.OnlyBlocks (d.each (Tbl.keys d.fabric.blocks) Dev.withdrawStage) ∧
      ∀ b, (¬ d.Goes b → (d.each (Tbl.keys d.fabric.blocks) Dev.withdrawStage).fabric.block b = d.fabric.block b) ∧
        (d.Goes b → (d.fabric.block b).Withdrawn ((d.each (Tbl.keys d.fabric.blocks) Dev.withdrawStage).fabric.block b)) := by
  have hsteps := Dev.each_blockStep (d := d) (R := fun b x y _ => (¬ (x.rel ≠ 0 ∧ ∀ a ∈ d.fabric.applying, b ∉ a.blocks) → y = x) ∧
      ((x.rel ≠ 0 ∧ ∀ a ∈ d.fabric.applying, b ∉ a.blocks) → x.Withdrawn y)) (f := Dev.withdrawStage) (Tbl.nodup_keys hwf) fun e b he => ?_
  · obtain ⟨honly, hothers, heach⟩ := hsteps
    refine ⟨honly, fun b => ?_⟩
    by_cases hb : b ∈ Tbl.keys d.fabric.blocks
    · exact heach b hb _ fun _ _ => rfl
    · refine ⟨fun _ => hothers b hb, fun hg => absurd ?_ hg.1⟩
      exact congrArg FbBlock.rel (Tbl.get_of_not_key hb)
  · have happ : e.fabric.applying = d.fabric.applying := he.applying
    rw [← happ]
    by_cases hg : e.Goes b
    · obtain ⟨y, hstep, hw⟩ := Dev.withdrawStage_step hg
      rw [hstep.same]
      exact ⟨hstep, fun _ _ => ⟨fun hn => absurd hg hn, fun _ => hw⟩⟩
    · rw [Dev.withdrawStage_stays hg]
      exact ⟨.refl e b, fun _ _ => ⟨fun _ => rfl, fun h => absurd h hg⟩⟩

/-- Every block under release has entered its next stage. -/
theorem Dev.each_advanceStage {l : List Nat} (hl : l.Nodup) : d.OnlyBlocks (d.each l Dev.advanceStage) ∧
    ∀ b, (b ∉ l → (d.each l Dev.advanceStage).fabric.block b = d.fabric.block b) ∧
      (b ∈ l → (d.each l Dev.advanceStage).fabric.block b = (d.fabric.block b).advanced ∧
        ((d.fabric.block b).rel = 0 → ∀ i ∈ [0, 1], Tbl.get false (d.each l Dev.advanceStage).fabric.uev (2 * b + i) = (d.fabric.block b).uevValue i)) := by
  have hsteps := Dev.each_blockStep (d := d) (R := fun _ x y u => y = x.advanced ∧ (x.rel = 0 → ∀ i ∈ [0, 1], u i = x.uevValue i)) (f := Dev.advanceStage) hl
    fun e b _ => ?_
  · obtain ⟨honly, hothers, heach⟩ := hsteps
    exact ⟨honly, fun b => ⟨hothers b, fun hb => heach b hb (fun i => _) fun _ _ => rfl⟩⟩
  · obtain ⟨hstep, huev⟩ := e.advanceStage_step b
    rw [hstep.same]
    exact ⟨hstep, fun u hu => ⟨rfl, fun h0 i hi => (hu i hi).symm.trans (huev h0 i hi)⟩⟩

/-- The blocks that have reached stage 3 leave the release. -/
def Fabric.stageEnd (f : Fabric) : Fabric :=
  { f with rel := (match f.releasing.getLast? with | some b => (f.block b).rel | none => f.rel), releasing := f.releasing.filter fun b => (f.block b).rel != 3 }

/-- The end of a stage: the blocks that have reached stage 3 leave the release, and the user I/O are drawn anew (R298, R299). -/
def Dev.endStage (d : Dev) : Dev := (d.modFabric Fabric.stageEnd).checkClock.refreshPads

theorem Dev.checkClock_running (hc : d.fabric.clockOk = true) : d.checkClock.fabric = { d.fabric with waitclk := false } := by
  unfold Dev.checkClock Dev.modFabric
  simp only [hc, Bool.not_true, Bool.and_false]

theorem Dev.endStage_fabric (hc : d.fabric.clockOk = true) : ∃ rel pads, d.endStage.fabric =
    { d.fabric with rel := rel, releasing := d.fabric.releasing.filter fun b => (d.fabric.block b).rel != 3, waitclk := false, pads := pads } := by
  have hclock := Dev.checkClock_running (d := d.modFabric Fabric.stageEnd) hc
  refine ⟨d.fabric.stageEnd.rel, d.endStage.fabric.pads, (Dev.refreshPads_fabric _).trans ?_⟩
  rw [hclock]
  rfl

theorem Dev.releaseStage_on (hw : d.fabric.withdrawing = false) (hr : d.fabric.releasing ≠ []) (hc : d.fabric.clockOk = true) :
    d.releaseStage = (d.each d.fabric.releasing Dev.advanceStage).endStage := by
  have hr' : d.fabric.releasing.isEmpty = false := by simpa using hr
  unfold Dev.releaseStage
  simp only [hw, hr', hc, Bool.false_eq_true, if_false, Bool.not_true]
  rfl

theorem Dev.releaseStage_waits (hw : d.fabric.withdrawing = false) (hr : d.fabric.releasing ≠ []) (hc : d.fabric.clockOk = false) :
    d.releaseStage = d.modFabric fun f => { f with waitclk := true } := by
  have hr' : d.fabric.releasing.isEmpty = false := by simpa using hr
  unfold Dev.releaseStage Dev.checkClock Dev.modFabric
  simp only [hw, hr', hc, Bool.false_eq_true, if_false, Bool.not_false, Bool.and_self, if_true]

theorem Dev.releaseStage_back (hw : d.fabric.withdrawing = true) : d.releaseStage =
    ((d.each (Tbl.keys d.fabric.blocks) Dev.withdrawStage).modFabric fun f => { f with rel := if f.rel = 0 then 0 else f.rel - 1 }).refreshPads := if_pos hw

-- FABRIC_RELEASE (R299)

theorem Dev.writeRelease_starts (hn : d.fabric.unreleased ≠ []) (hp : d.applyPending = false) (hr : d.fabric.releasing = [])
    (h0 : ∀ b ∈ d.fabric.unreleased, (d.fabric.block b).rel = 0) :
    d.writeRelease = d.modFabric fun f => { f with releasing := d.fabric.unreleased, rel := 0, waitclk := !f.clockOk } := by
  have hloaded : ¬ d.fabric.blocks.all (fun y => !y.2.loaded) = true := by
    obtain ⟨b, hb⟩ := List.exists_mem_of_ne_nil _ hn
    obtain ⟨y, hy, -⟩ := List.mem_map.1 hb
    obtain ⟨hmem, hl⟩ := List.mem_filter.1 hy
    intro hall
    have hy' := List.all_eq_true.1 hall y hmem
    simp_all
  have hrel : ¬ d.fabric.unreleased.any (fun b => (d.fabric.block b).rel != 0) = true := by
    intro hany
    obtain ⟨b, hb, h⟩ := List.any_eq_true.1 hany
    rw [h0 b hb] at h
    exact absurd h (by decide)
  have htodo : d.fabric.unreleased.filter (fun b => !decide (b ∈ d.fabric.releasing)) = d.fabric.unreleased :=
    List.filter_eq_self.2 fun b _ => by rw [hr]; rfl
  have hempty : d.fabric.unreleased.isEmpty = false := by simpa using hn
  unfold Dev.writeRelease
  dsimp only
  rw [htodo, if_neg (by rw [hp]; simp only [hloaded, hrel, Bool.false_eq_true, or_self, not_false_eq_true]), hempty]
  unfold Dev.startRelease Dev.checkClock Dev.modFabric
  simp only [hr, List.nil_append, hempty, Bool.not_false, Bool.true_and, Bool.false_eq_true, if_false]
  rfl

theorem Dev.writeRelease_ignored (h : d.applyPending = true ∨ (∃ b ∈ d.fabric.unreleased, (d.fabric.block b).rel ≠ 0) ∨ ∀ y ∈ d.fabric.blocks, y.2.loaded = false) :
    d.writeRelease = d.modFabric fun f => { f with relIgnored := f.relIgnored + 1 } := by
  refine if_pos ?_
  rcases h with hp | ⟨b, hb, h⟩ | hl
  · exact .inr (.inl hp)
  · exact .inr (.inr (List.any_eq_true.2 ⟨b, hb, bne_iff_ne.2 h⟩))
  · exact .inl (List.all_eq_true.2 fun ⟨b, x⟩ hy => by simpa using hl _ hy)

end

/-- Settles O39: FABRIC_RELEASE by what it finds; a stage on or back by the blocks' own steps (`Dev.each_blockStep`), after which the user I/O are drawn
anew. -/
theorem blocksAreReleasedStageByStage : Obligations.BlocksAreReleasedStageByStage := by
  intro s f todo
  refine ⟨?release, ?on, ?back⟩
  case release =>
    intro q hq
    refine ⟨fun hn hp hr h0 => ?_, fun h => ?_⟩
    · exact completes_of_run (f := fun d => if d.isPf q then d.writeRelease else d) rfl ((if_pos hq).trans (Dev.writeRelease_starts hn hp hr h0))
        (Dev.modFabric_keep (.refl _ _) (by decide) _) rfl
    · exact completes_of_run (f := fun d => if d.isPf q then d.writeRelease else d) rfl ((if_pos hq).trans (Dev.writeRelease_ignored h))
        (Dev.modFabric_keep (.refl _ _) (by decide) _) rfl
  case on =>
    intro hw hr hnd
    refine ⟨fun hc => ?_, fun hc => ?_⟩
    · obtain ⟨honly, hblocks⟩ := Dev.each_advanceStage (d := s.dev) hnd
      have hkeep : Keep [.events, .fabric] s.dev (s.dev.each f.releasing Dev.advanceStage) :=
        Dev.each_keep (.refl _ _) fun x y hx => Dev.advanceStage_keep hx (by decide) (by decide) y
      have hrun := Dev.releaseStage_on hw hr hc
      generalize s.dev.each f.releasing Dev.advanceStage = e at honly hblocks hkeep hrun
      obtain ⟨rel, pads, hend⟩ := e.endStage_fabric (honly.clockOk.trans hc)
      have hblock (b : Nat) : e.endStage.fabric.block b = e.fabric.block b := by
        unfold Fabric.block
        rw [hend]
      have hreleasing : e.endStage.fabric.releasing = f.releasing.filter fun b => (f.block b).rel != 2 := by
        rw [hend, show e.fabric.releasing = f.releasing from honly.releasing]
        refine List.filter_congr fun b hb => ?_
        rw [((hblocks b).2 hb).1, FbBlock.advanced_rel, next_ne_three]
      refine completes_of_run rfl hrun (Dev.refreshPads_keep (Dev.checkClock_keep (Dev.modFabric_keep hkeep (by decide) _) (by decide)) (by decide))
        ⟨fun b => (hblock b).trans ?_, fun b hb h0 i hi => ?_, hreleasing, ?_⟩
      · by_cases hb : b ∈ f.releasing
        · rw [if_neg (not_not_intro hb), ((hblocks b).2 hb).1]
          rfl
        · rw [if_pos hb, (hblocks b).1 hb]
      · rw [hend]
        exact (((hblocks b).2 hb).2 h0 i hi).trans (f.uevValue_eq b i).symm
      · obtain ⟨blocks, uev, he⟩ : ∃ blocks uev, e.fabric = { f with blocks := blocks, uev := uev } := ⟨_, _, honly⟩
        rw [hend, he]
    · exact completes_of_run rfl (Dev.releaseStage_waits hw hr hc) (Dev.modFabric_keep (.refl _ _) (by decide) _) rfl
  case back =>
    intro hw hwf
    obtain ⟨honly, hblocks⟩ := Dev.each_withdrawStage hwf
    have hrun := Dev.releaseStage_back hw
    have hkeep := hrun ▸ Dev.releaseStage_keep (.refl [.free, .events, .fabric] s.dev) (by decide) (by decide) (by decide)
    generalize s.dev.each (Tbl.keys s.dev.fabric.blocks) Dev.withdrawStage = e at honly hblocks hkeep hrun
    obtain ⟨pads, hend⟩ : ∃ pads, (e.modFabric fun f => { f with rel := if f.rel = 0 then 0 else f.rel - 1 }).refreshPads.fabric =
        { e.fabric with rel := if e.fabric.rel = 0 then 0 else e.fabric.rel - 1, pads := pads } := ⟨_, Dev.refreshPads_fabric _⟩
    obtain ⟨blocks, uev, he⟩ : ∃ blocks uev, e.fabric = { f with blocks := blocks, uev := uev } := ⟨_, _, honly⟩
    refine completes_of_run rfl hrun hkeep ⟨fun b => ?_, ?_⟩
    · have hblock : ((e.modFabric fun f => { f with rel := if f.rel = 0 then 0 else f.rel - 1 }).refreshPads).fabric.block b = e.fabric.block b := by
        unfold Fabric.block
        rw [hend]
      dsimp only
      rw [hblock]
      refine ⟨fun h => (hblocks b).1 fun hg => ?_, fun h0 ha => ?_⟩
      · rcases h with h0 | ⟨a, ham, hb⟩
        · exact hg.1 h0
        · exact hg.2 a ham hb
      · obtain ⟨hblk, hheld, hcells⟩ := (hblocks b).2 ⟨h0, ha⟩
        exact ⟨hblk, hheld, hcells⟩
    · rw [hend, he]

end Sys2Proof.Machine
end

section
/-! O41: scrubbing mends the configuration -/

namespace Sys2Proof.Machine
open Sys2Proof

section
variable {d e : Dev} {u : ScrubUnit} {w : Nat}

-- a word of a room (R327)

theorem Room.restoreWord_imem {rm g : Room} (hw : w < 65536) (b i : Nat) (hi : i < 512) :
    Tbl.get nopWord ((rm.restoreWord g w).bp b).imem i = Tbl.get nopWord ((if b * 512 + i = w then g else rm).bp b).imem i := by
  unfold Room.restoreWord
  rw [if_pos hw]
  show Tbl.get nopWord (Tbl.get {} (Tbl.set {} rm.bps (w / 512) _) b).imem i = _
  by_cases hb : b = w / 512
  · subst hb
    rw [Tbl.get_set_same]
    by_cases hk : i = w % 512
    · subst hk
      rw [Tbl.get_set_same, if_pos (by omega)]
    · rw [Tbl.get_set_other _ _ _ _ _ hk, if_neg (by omega)]
  · rw [Tbl.get_set_other _ _ _ _ _ hb, if_neg (by omega)]
    rfl

/-- A word of a room is as its golden copy has it, and whole again. -/
def Dev.RoomMended (d : Dev) (r : RoomId) (w : Nat) (e : Dev) : Prop :=
  OtherRooms r d e ∧ (d.goldenRoom r = none → e.room r = { d.room r with ueIm := (d.room r).ueIm.erase w }) ∧
  ∀ g, d.goldenRoom r = some g → e.room r = (d.room r).restoreWord g w ∧
    (w < 65536 → ∀ b i : Nat, i < 512 → Tbl.get nopWord ((e.room r).bp b).imem i = Tbl.get nopWord ((if b * 512 + i = w then g else d.room r).bp b).imem i)

theorem Dev.mendWord_room (d : Dev) (r : RoomId) (w : Nat) : d.RoomMended r w (d.mendWord (.room r) w) := by
  cases hg : d.goldenRoom r with
  | none =>
    have hm : d.mendWord (.room r) w = d.modRoom r fun rm => { rm with ueIm := rm.ueIm.erase w } := by
      unfold Dev.mendWord
      simp only [hg]
    rw [hm]
    exact ⟨Dev.modRoom_otherRooms _ _ _, fun _ => Dev.room_modRoom_same .., (fun g h => by rw [hg] at h; cases h)⟩
  | some g =>
    have hm : d.mendWord (.room r) w = d.modRoom r (·.restoreWord g w) := by
      unfold Dev.mendWord
      simp only [hg]
    have hroom : (d.modRoom r (·.restoreWord g w)).room r = (d.room r).restoreWord g w := Dev.room_modRoom_same ..
    rw [hm]
    refine ⟨Dev.modRoom_otherRooms _ _ _, (fun h => by rw [hg] at h; cases h), fun g' h => ?_⟩
    rw [hg] at h
    cases h
    rw [hroom]
    exact ⟨rfl, fun hw b i hi => Room.restoreWord_imem hw b i hi⟩

-- a word of a region (R289, R327)

/-- A word of a region has been mended: nothing of another region has changed. -/
structure Dev.Mended (d : Dev) (u : ScrubUnit) (w : Nat) (e : Dev) : Prop where
  room : ∀ r, u = .room r → d.RoomMended r w e
  rooms : (∀ r, u ≠ .room r) → e.rooms = d.rooms
  block : ∀ b, u = .block b → w ≠ 58946 → ∀ c, e.fabric.block c = if c = b.toNat then (d.fabric.block c).restoreWord w else d.fabric.block c
  fabric : (∀ b, u ≠ .block b) → e.fabric = { d.fabric with cnt := e.fabric.cnt }
  net : (∀ k, u ≠ .ring k) → e.net = d.net

theorem Dev.mendWord_room_keep {ps : List Part} {e : Dev} (h : Keep ps e d) (hrooms : .rooms ∈ ps) (r : RoomId) (w : Nat) :
    Keep ps e (d.mendWord (.room r) w) := by
  unfold Dev.mendWord
  dsimp only
  split <;> exact Dev.modRoom_keep h hrooms _ _

/-- A word of a block that is not its PLL's. -/
theorem Dev.mendWord_block (d : Dev) (b : BitVec 6) (h : w ≠ 58946) :
    d.mendWord (.block b) w = d.modFabric fun f => f.setBlock b.toNat ((f.block b.toNat).restoreWord w) := if_neg h

theorem Dev.mendWord_mended (d : Dev) (u : ScrubUnit) (w : Nat) : d.Mended u w (d.mendWord u w) := by
  cases u with
  | room r =>
    have hk := Dev.mendWord_room_keep (.refl [.rooms] d) (by decide) r w
    refine ⟨fun q h => ?_, fun h => absurd rfl (h r), (fun b h => nomatch h), fun _ => ?_, fun _ => hk.net.resolve_left (by decide)⟩
    · cases h
      exact d.mendWord_room r w
    · rw [hk.fabric.resolve_left (by decide)]
  | block b =>
    have hk : Keep [.fabric] d (d.mendWord (.block b) w) := by
      unfold Dev.mendWord
      dsimp only
      split
      · split
        · exact Dev.modFabric_keep (.refl _ _) (by decide) _
        · exact .refl _ _
      · exact Dev.modFabric_keep (.refl _ _) (by decide) _
    refine ⟨(fun r h => nomatch h), fun _ => hk.rooms.resolve_left (by decide), fun c h hw k => ?_, fun h => absurd rfl (h b), fun _ => hk.net.resolve_left (by decide)⟩
    cases h
    rw [Dev.mendWord_block d b hw]
    by_cases hc : k = b.toNat
    · rw [if_pos hc, hc]
      exact Fabric.block_setBlock ..
    · rw [if_neg hc]
      exact Fabric.block_setBlock_other _ _ _ hc
  | ring k =>
    have hk : Keep [.net] d (d.mendWord (.ring k) w) := by
      unfold Dev.mendWord
      dsimp only
      split
      · exact .refl _ _
      · exact Keep.upd_net (.refl _ _) (by decide)
    refine ⟨(fun r h => nomatch h), fun _ => hk.rooms.resolve_left (by decide), (fun b h => nomatch h), fun _ => ?_, fun h => absurd rfl (h k)⟩
    rw [hk.fabric.resolve_left (by decide)]

theorem Dev.mendWord_cnt (d : Dev) (u : ScrubUnit) (w : Nat) : (d.mendWord u w).fabric.cnt = d.fabric.cnt := by
  cases u with
  | room r => rw [(Dev.mendWord_room_keep (.refl [.rooms] d) (by decide) r w).fabric.resolve_left (by decide)]
  | block b =>
    unfold Dev.mendWord
    dsimp only
    split
    · split <;> rfl
    · rfl
  | ring k =>
    unfold Dev.mendWord
    dsimp only
    split <;> rfl

theorem Dev.mendWord_rest (d : Dev) (u : ScrubUnit) (w : Nat) : Keep [.rooms, .net, .fabric] d (d.mendWord u w) :=
  Dev.mendWord_keep (.refl _ _) (by decide) (by decide) (by decide) _ _

-- a word rewritten, or counted as unfixable (R289, R328, R330)

/-- The event of a region (R328). -/
def unitEvent : ScrubUnit → Nat
  | .room r => r.toNat
  | .block b => 512 + b.toNat
  | .ring k => 448 + k.toNat

theorem Dev.raiseUnit_eq (d : Dev) (u : ScrubUnit) (bits : Nat) : ∃ n, d.raiseUnit u bits = d.raise (unitEvent u) n := by
  cases u <;> exact ⟨_, rfl⟩

theorem Dev.raiseUnit_raised (h : e.events = d.events) (u : ScrubUnit) (bits : Nat) : Raised d (e.raiseUnit u bits) (unitEvent u) := by
  obtain ⟨n, hn⟩ := e.raiseUnit_eq u bits
  rw [hn]
  exact ⟨_, congrArg (· ++ [_]) h, rfl, rfl⟩

/-- A corrected select is counted in the fabric (R289). -/
def Dev.countSelect (d : Dev) (select : Bool) : Dev := if select then d.countFabric 0 else d

theorem Dev.rewrite_ok (d : Dev) (u : ScrubUnit) {x : ScrubFind} (h : x.goldenOk = true) :
    d.rewrite u x = (((d.mendWord u x.word).countLoader 0).raiseUnit u (2 ^ 9)).countSelect x.select := by
  unfold Dev.rewrite Dev.countSelect
  rw [h]
  rfl

theorem Dev.rewrite_lost (d : Dev) (u : ScrubUnit) {x : ScrubFind} (h : x.goldenOk = false) : d.rewrite u x = (d.countLoader 2).raiseUnit u (2 ^ 10) := by
  unfold Dev.rewrite
  rw [h]
  rfl

theorem Dev.Mended.congr {e' : Dev} {c : Tbl Cnt} (h : d.Mended u w e) (hr : e'.rooms = e.rooms) (hf : e'.fabric = { e.fabric with cnt := c })
    (hn : e'.net = e.net) : d.Mended u w e' := by
  have hroom : e'.room = e.room := by
    funext r
    unfold Dev.room
    rw [hr]
  have hblock : e'.fabric.block = e.fabric.block := by
    funext b
    unfold Fabric.block
    rw [hf]
  refine ⟨fun r hu => ?_, fun hu => hr.trans (h.rooms hu), fun b hu hw => ?_, fun hu => ?_, fun hu => hn.trans (h.net hu)⟩
  · unfold Dev.RoomMended OtherRooms
    rw [hroom]
    exact h.room r hu
  · rw [hblock]
    exact h.block b hu hw
  · have hc : e'.fabric.cnt = c := congrArg Fabric.cnt hf
    rw [hc, hf, h.fabric hu]

/-- The loader's own registers do not bear on how a word is mended. -/
theorem Dev.Mended.of_loader {l : Loader} (h : Dev.Mended { d with loader := l } u w e) : d.Mended u w e :=
  ⟨h.room, h.rooms, h.block, h.fabric, h.net⟩

/-- A word is mended and a corrected select counted. -/
def Dev.MendedAs (d : Dev) (u : ScrubUnit) (x : ScrubFind) (e : Dev) : Prop :=
  d.Mended u x.word e ∧ e.fabric.cnt = if x.select = true then bumpAt d.fabric.cnt 0 else d.fabric.cnt

theorem Dev.countSelect_fabric (d : Dev) (select : Bool) :
    (d.countSelect select).fabric = { d.fabric with cnt := if select = true then bumpAt d.fabric.cnt 0 else d.fabric.cnt } := by
  unfold Dev.countSelect
  split <;> rfl

theorem Dev.countSelect_keep (d : Dev) (select : Bool) : Keep [.fabric] d (d.countSelect select) := by
  unfold Dev.countSelect
  split
  · exact Dev.modFabric_keep (.refl _ _) (by decide) _
  · exact .refl _ _

/-- What follows the mended word: its loader's count, its region's event and the select. -/
theorem Dev.mendedAs_of {x : ScrubFind} {l : Loader} {e : Dev} (hk : Keep [.events, .loader] (Dev.mendWord { d with loader := l } u x.word) e) :
    d.MendedAs u x (e.countSelect x.select) := by
  have hm := Dev.Mended.of_loader (Dev.mendWord_mended { d with loader := l } u x.word)
  have hsel := e.countSelect_keep x.select
  have hfab := e.countSelect_fabric x.select
  have hcnt := Dev.mendWord_cnt { d with loader := l } u x.word
  rw [hk.fabric.resolve_left (by decide)] at hfab
  refine ⟨hm.congr ((hsel.rooms.resolve_left (by decide)).trans (hk.rooms.resolve_left (by decide))) hfab
    ((hsel.net.resolve_left (by decide)).trans (hk.net.resolve_left (by decide))), ?_⟩
  rw [hfab, hcnt]

/-- A word rewritten from its golden copy. -/
theorem Dev.rewrite_shown {x : ScrubFind} (l : Loader) (h : x.goldenOk = true) : d.MendedAs u x (Dev.rewrite { d with loader := l } u x) ∧
    Raised d (Dev.rewrite { d with loader := l } u x) (unitEvent u) ∧ (Dev.rewrite { d with loader := l } u x).loader = { l with cnt := bumpAt l.cnt 0 } := by
  rw [Dev.rewrite_ok _ _ h]
  have hm := Dev.mendWord_rest { d with loader := l } u x.word
  have hmended := Dev.mendedAs_of (d := d) (u := u) (x := x) (l := l)
    (Dev.raiseUnit_keep (Dev.countLoader_keep (.refl _ _) (by decide) 0) (by decide) u (2 ^ 9))
  generalize Dev.mendWord { d with loader := l } u x.word = m at hm hmended
  have hevents : (m.countLoader 0).events = d.events := hm.events.resolve_left (by decide)
  have hloader : (m.countLoader 0).loader = { l with cnt := bumpAt l.cnt 0 } :=
    congrArg (fun k : Loader => { k with cnt := bumpAt k.cnt 0 }) (hm.loader.resolve_left (by decide))
  generalize m.countLoader 0 = n at hevents hloader hmended
  have hraise := (Dev.raiseUnit_keep (.refl [.events] n) (by decide) u (2 ^ 9)).loader.resolve_left (by decide)
  have hsel := (n.raiseUnit u (2 ^ 9)).countSelect_keep x.select
  obtain ⟨o, he, hev, hts⟩ := Dev.raiseUnit_raised hevents u (2 ^ 9)
  exact ⟨hmended, ⟨o, (hsel.events.resolve_left (by decide)).trans he, hev, hts.trans (hsel.now.resolve_left (by decide)).symm⟩,
    (hsel.loader.resolve_left (by decide)).trans (hraise.trans hloader)⟩

/-- A word whose golden copy cannot be read. -/
theorem Dev.lost_shown {x : ScrubFind} (l : Loader) (h : x.goldenOk = false) : Keep [.events, .loader] d (Dev.rewrite { d with loader := l } u x) ∧
    Raised d (Dev.rewrite { d with loader := l } u x) (unitEvent u) ∧ (Dev.rewrite { d with loader := l } u x).loader = { l with cnt := bumpAt l.cnt 2 } := by
  rw [Dev.rewrite_lost _ _ h]
  have hk : Keep [.events, .loader] d (Dev.countLoader { d with loader := l } 2) := Dev.countLoader_keep (Keep.upd_loader (.refl _ _) (by decide)) (by decide) _
  refine ⟨Dev.raiseUnit_keep hk (by decide) _ _, Dev.raiseUnit_raised rfl _ _, ?_⟩
  exact (Dev.raiseUnit_keep (ps := [.events]) (.refl _ _) (by decide) _ _).loader.resolve_left (by decide)

-- the cycles of the essential scrub and of background readback (R328, R329, R338)

/-- How long a cycle took, in units of `unit` ns. -/
def cycleTook (now : Instant) (since : Option Instant) (unit : Nat) : BitVec 16 := BitVec.ofNat 16 (min 65535 ((now - since.getD now) / (unit * ns)))

/-- The loader after a word of the essential set has been read. -/
def Loader.essRead (l : Loader) (now : Instant) (last : Bool) : Loader :=
  if last = true then { l with essFrom := none, essLast := cycleTook now l.essFrom 10000 } else { l with essFrom := some (l.essFrom.getD now) }

/-- The loader after a frame has been read back. -/
def Loader.bgRead (l : Loader) (now : Instant) (last : Bool) : Loader :=
  if last = true then { l with bgFrom := none, bgLast := cycleTook now l.bgFrom 1000000 } else { l with bgFrom := some (l.bgFrom.getD now) }

theorem Loader.essRead_cnt (l : Loader) (now : Instant) (last : Bool) : (l.essRead now last).cnt = l.cnt := by cases last <;> rfl
theorem Loader.bgRead_cnt (l : Loader) (now : Instant) (last : Bool) : (l.bgRead now last).cnt = l.cnt := by cases last <;> rfl

theorem Dev.essentialScrub_eq {x : ScrubFind} (hen : d.loader.scrubEn = true) (hup : d.hubUp = true) (hs : d.scrubSkips u = false)
    (he : d.essential u x.word = true) : Dev.essentialScrub u x d =
      if codeFails u x.bits then Dev.rewrite { d with loader := d.loader.essRead d.now x.last } u x else { d with loader := d.loader.essRead d.now x.last } := by
  unfold Dev.essentialScrub
  rw [if_neg (by simp [hen, hup, hs, he])]
  cases hl : x.last <;> rfl

theorem Dev.essentialScrub_other {x : ScrubFind} (he : d.essential u x.word = false) : Dev.essentialScrub u x d = d := if_pos (by simp [he])

/-- What background readback does with the wrong words of a frame. -/
def Dev.readBack (d : Dev) (u : ScrubUnit) (wrong : List ScrubFind) : Dev :=
  match wrong with
  | [] => d
  | [y] =>
    if y.bits = 1 then
      let d := (d.mendWord u y.word).countLoader 1
      if y.select then (d.countFabric 0).raiseUnit u 0 else d
    else d.rewrite u y
  | ys => d.each ys fun d y => d.rewrite u y

theorem Dev.backgroundReadback_eq {x : ScrubFind} (hen : d.loader.scrubEn = true) (hup : d.hubUp = true) (hs : d.scrubSkips u = false) :
    Dev.backgroundReadback u x d = Dev.readBack { d with loader := d.loader.bgRead d.now x.last } u (frameWrong x) := by
  unfold Dev.backgroundReadback
  rw [if_neg (by simp [hen, hup, hs])]
  cases hl : x.last <;> rfl

theorem Dev.MendedAs.raise {x : ScrubFind} (h : d.MendedAs u x e) (n : Nat) : d.MendedAs u x (e.raiseUnit u n) := by
  have hk := Dev.raiseUnit_keep (.refl [.events] e) (by decide) u n
  have hfab := hk.fabric.resolve_left (by decide)
  exact ⟨h.1.congr (c := e.fabric.cnt) (hk.rooms.resolve_left (by decide)) hfab (hk.net.resolve_left (by decide)), (congrArg Fabric.cnt hfab).trans h.2⟩

/-- The one wrong bit of a frame, corrected in place. -/
theorem Dev.corrected_shown {y : ScrubFind} (l : Loader) (hy : y.bits = 1) : d.MendedAs u y (Dev.readBack { d with loader := l } u [y]) ∧
    (Dev.readBack { d with loader := l } u [y]).loader = { l with cnt := bumpAt l.cnt 1 } ∧
    (y.select = true → Raised d (Dev.readBack { d with loader := l } u [y]) (unitEvent u)) ∧
    (y.select = false → (Dev.readBack { d with loader := l } u [y]).events = d.events) := by
  have hm := Dev.mendWord_rest { d with loader := l } u y.word
  have hmended := Dev.mendedAs_of (d := d) (u := u) (x := y) (l := l) (Dev.countLoader_keep (.refl _ _) (by decide) 1)
  have hread : Dev.readBack { d with loader := l } u [y] = if y.select then
      (((Dev.mendWord { d with loader := l } u y.word).countLoader 1).countSelect y.select).raiseUnit u 0
      else ((Dev.mendWord { d with loader := l } u y.word).countLoader 1).countSelect y.select := by
    refine (if_pos hy).trans ?_
    cases y.select <;> rfl
  have hevents : ((Dev.mendWord { d with loader := l } u y.word).countLoader 1).events = d.events := hm.events.resolve_left (by decide)
  have hloader : ((Dev.mendWord { d with loader := l } u y.word).countLoader 1).loader = { l with cnt := bumpAt l.cnt 1 } :=
    congrArg (fun k : Loader => { k with cnt := bumpAt k.cnt 1 }) (hm.loader.resolve_left (by decide))
  have hsel := ((Dev.mendWord { d with loader := l } u y.word).countLoader 1).countSelect_keep y.select
  rw [hread]
  generalize ((Dev.mendWord { d with loader := l } u y.word).countLoader 1).countSelect y.select = n at hmended hsel
  have hnloader := (hsel.loader.resolve_left (by decide)).trans hloader
  have hnevents := (hsel.events.resolve_left (by decide)).trans hevents
  cases y.select with
  | true =>
    refine ⟨hmended.raise 0, ?_, fun _ => Dev.raiseUnit_raised hnevents u 0, fun h => absurd h.symm Bool.false_ne_true⟩
    exact ((Dev.raiseUnit_keep (.refl [.events] n) (by decide) u 0).loader.resolve_left (by decide)).trans hnloader
  | false => exact ⟨hmended, hnloader, fun h => absurd h Bool.false_ne_true, fun _ => hnevents⟩

-- several wrong words of a frame (R329)

theorem Dev.rewrite_loader {y : ScrubFind} (h : y.goldenOk = true) : ∃ c, (d.rewrite u y).loader = { d.loader with cnt := c } :=
  ⟨_, (Dev.rewrite_shown (d := d) (u := u) d.loader h).2.2⟩

theorem Dev.rewrite_raised {y : ScrubFind} (h : y.goldenOk = true) : Raised d (d.rewrite u y) (unitEvent u) := (Dev.rewrite_shown (d := d) d.loader h).2.1

theorem Dev.each_rewrite {ys : List ScrubFind} (h : ∀ y ∈ ys, y.goldenOk = true) :
    (∃ c, (d.each ys fun d y => d.rewrite u y).loader = { d.loader with cnt := c }) ∧ (∀ o ∈ d.events, o ∈ (d.each ys fun d y => d.rewrite u y).events) ∧
      (ys ≠ [] → OnTheWay (d.each ys fun d y => d.rewrite u y) (unitEvent u)) := by
  unfold Dev.each
  induction ys generalizing d with
  | nil => exact ⟨⟨_, rfl⟩, fun _ ho => ho, fun hn => absurd rfl hn⟩
  | cons y ys ih =>
    obtain ⟨hy, hys⟩ := List.forall_mem_cons.1 h
    obtain ⟨c, hl⟩ := Dev.rewrite_loader (d := d) (u := u) hy
    obtain ⟨o, he, hev, -⟩ := Dev.rewrite_raised (d := d) (u := u) hy
    obtain ⟨⟨c', hl'⟩, hkeeps, -⟩ := ih (d := d.rewrite u y) hys
    rw [List.foldl_cons]
    refine ⟨⟨c', ?_⟩, fun x hx => hkeeps x ?_, fun _ => ⟨o, hkeeps o ?_, hev⟩⟩
    · rw [hl', hl]
    · rw [he]
      exact List.mem_append_left _ hx
    · rw [he]
      exact List.mem_append_right _ (List.mem_singleton_self o)

/-- A CELLS word of a block is as its golden copy has it. -/
def FbBlock.CellGood (x : FbBlock) (golden : FbConfig) (w : Nat) : Prop := x.golden = golden ∧ Tbl.get 0 x.config.cells w = Tbl.get 0 golden.cells w

theorem FbBlock.restoreWord_golden (x : FbBlock) (w : Nat) : (x.restoreWord w).golden = x.golden := by
  unfold FbBlock.restoreWord
  dsimp only
  split
  · rfl
  · split
    · rfl
    · split <;> rfl

theorem FbBlock.restoreWord_cells (x : FbBlock) (w k : Nat) (hk : k < 57344) :
    Tbl.get 0 (x.restoreWord w).config.cells k = if k = w then Tbl.get 0 x.golden.cells k else Tbl.get 0 x.config.cells k := by
  unfold FbBlock.restoreWord
  dsimp only
  split
  · by_cases h : k = w
    · rw [if_pos h, h, Tbl.get_set_same]
    · rw [if_neg h, Tbl.get_set_other _ _ _ _ _ h]
  · next hw =>
    refine .trans ?_ (if_neg (show ¬ k = w by rintro rfl; exact hw hk)).symm
    split
    · rfl
    · split <;> rfl

/-- The PLL's word of a block is not part of the block. -/
theorem Dev.mendWord_pll {b : BitVec 6} (h : w = 58946) (c : Nat) : (d.mendWord (.block b) w).fabric.block c = d.fabric.block c := by
  unfold Dev.mendWord
  dsimp only
  rw [if_pos (show w = pllWord from h)]
  split <;> rfl

theorem Dev.rewrite_pll {b : BitVec 6} {y : ScrubFind} (h : y.goldenOk = true) (hw : y.word = 58946) :
    (d.rewrite (.block b) y).fabric.block b.toNat = d.fabric.block b.toNat := by
  have hk := Dev.raiseUnit_keep (Dev.countLoader_keep (.refl [.events, .loader] (d.mendWord (.block b) y.word)) (by decide) 0) (by decide) (.block b) (2 ^ 9)
  rw [Dev.rewrite_ok _ _ h, Dev.countSelect_fabric, hk.fabric.resolve_left (by decide)]
  exact Dev.mendWord_pll hw _

/-- A word of a block rewritten: the block is as before, or has the word from its golden copy. -/
theorem Dev.rewrite_block {b : BitVec 6} {y : ScrubFind} (h : y.goldenOk = true) : (d.rewrite (.block b) y).fabric.block b.toNat =
    if y.word = 58946 then d.fabric.block b.toNat else (d.fabric.block b.toNat).restoreWord y.word := by
  split
  · next hw => exact Dev.rewrite_pll h hw
  · next hw => exact ((Dev.rewrite_shown (d := d) d.loader h).1.1.block b rfl hw b.toNat).trans (if_pos rfl)

theorem Dev.each_rewrite_cells {b : BitVec 6} {ys : List ScrubFind} (h : ∀ y ∈ ys, y.goldenOk = true) {k : Nat} (hk : k < 57344)
    (hgood : (∃ y ∈ ys, y.word = k) ∨ Tbl.get 0 (d.fabric.block b.toNat).config.cells k = Tbl.get 0 (d.fabric.block b.toNat).golden.cells k) :
    Tbl.get 0 ((d.each ys fun d y => d.rewrite (.block b) y).fabric.block b.toNat).config.cells k = Tbl.get 0 (d.fabric.block b.toNat).golden.cells k := by
  unfold Dev.each
  induction ys generalizing d with
  | nil => exact hgood.resolve_left fun ⟨_, hy, _⟩ => absurd hy List.not_mem_nil
  | cons y ys ih =>
    obtain ⟨hy, hys⟩ := List.forall_mem_cons.1 h
    have hblock := Dev.rewrite_block (d := d) (b := b) hy
    have hgolden : ((d.rewrite (.block b) y).fabric.block b.toNat).golden = (d.fabric.block b.toNat).golden := by
      rw [hblock]
      split
      · rfl
      · exact FbBlock.restoreWord_golden ..
    rw [List.foldl_cons, ← hgolden]
    refine ih (d := d.rewrite (.block b) y) hys ?_
    rw [hgolden, hblock]
    rcases hgood with ⟨z, hz, hzk⟩ | hcell
    · rcases List.mem_cons.1 hz with rfl | hz
      · refine .inr ?_
        rw [if_neg (by omega), FbBlock.restoreWord_cells _ _ _ hk, if_pos hzk.symm]
      · exact .inl ⟨z, hz, hzk⟩
    · refine .inr ?_
      split
      · exact hcell
      · rw [FbBlock.restoreWord_cells _ _ _ hk]
        split
        · rfl
        · exact hcell

theorem mem_frameWrong_golden {x y : ScrubFind} (h : y ∈ frameWrong x) : y.goldenOk = x.goldenOk := by
  obtain ⟨hy, -⟩ := List.mem_filter.1 h
  rcases List.mem_cons.1 hy with rfl | hy
  · rfl
  · obtain ⟨z, -, rfl⟩ := List.mem_map.1 hy
    rfl

theorem codeFails_iff {bits : Nat} : codeFails u bits = true ↔ match u with | .room _ => 0 < bits | _ => bits % 2 = 1 := by
  cases u <;> exact decide_eq_true_iff

/-- A frame with one wrong word of several bits, or with several wrong words, has them rewritten. -/
theorem Dev.readBack_several {y : ScrubFind} (h : 2 ≤ y.bits) : d.readBack u [y] = d.rewrite u y := if_neg (by omega)

theorem Dev.readBack_words : ∀ {ys : List ScrubFind}, 2 ≤ ys.length → d.readBack u ys = d.each ys fun d y => d.rewrite u y
  | _ :: _ :: _, _ => rfl

theorem Dev.rewriteParts_keep {ps : List Part} {e : Dev} (h : Keep ps e d) (hp : [.events, .rooms, .net, .fabric, .loader] ⊆ ps) (y : ScrubFind) :
    Keep ps e (d.rewrite u y) := by
  apply Dev.rewrite_keep h <;> exact hp (by decide)

theorem Dev.readBack_keep {ps : List Part} {e : Dev} (h : Keep ps e d) (hp : [.events, .rooms, .net, .fabric, .loader] ⊆ ps) (wrong : List ScrubFind) :
    Keep ps e (d.readBack u wrong) := by
  match wrong with
  | [] => exact h
  | _ :: _ :: _ => exact Dev.each_keep h fun x y hx => Dev.rewriteParts_keep hx hp y
  | [y] =>
    have hmend : Keep ps e ((d.mendWord u y.word).countLoader 1) := by
      refine Dev.countLoader_keep ?_ (hp (by decide)) 1
      apply Dev.mendWord_keep h <;> exact hp (by decide)
    refine .ite (.ite (Dev.raiseUnit_keep ?_ (hp (by decide)) _ _) hmend) (Dev.rewriteParts_keep h hp y)
    exact Dev.modFabric_keep hmend (hp (by decide)) _

/-- SCRUB_REWRITE of a word that a fetch found uncorrectable (R289). -/
theorem Dev.scrubRewrite_eq {r : RoomId} {golden : Bool} (h : w ∈ (d.room r).ueIm) :
    Dev.scrubRewrite r w golden d = d.rewrite (.room r) { bits := 2, goldenOk := golden, word := w } := if_pos h

theorem Dev.rewrite_room_keep (r : RoomId) {y : ScrubFind} (h : y.select = false) : Keep [.events, .rooms, .loader] d (d.rewrite (.room r) y) := by
  cases hg : y.goldenOk with
  | true =>
    rw [Dev.rewrite_ok _ _ hg, h, Dev.countSelect, if_neg (by decide)]
    exact Dev.raiseUnit_keep (Dev.countLoader_keep (Dev.mendWord_room_keep (.refl [.events, .rooms, .loader] d) (by decide) r _) (by decide) _) (by decide) _ _
  | false =>
    rw [Dev.rewrite_lost _ _ hg]
    exact Dev.raiseUnit_keep (Dev.countLoader_keep (.refl _ _) (by decide) _) (by decide) _ _

end

/-- Settles O41: a word that fails is mended (`Dev.Mended`), counted and raises its region's event; the frames of background readback by how many words
are wrong. -/
theorem scrubbingMendsTheConfiguration : Obligations.ScrubbingMendsTheConfiguration := by
  intro s u x l f ev fails took ess bg roomMended mended
  have hev : unitEvent u = ev := by cases u <;> rfl
  have hmended {y : ScrubFind} {e : Dev} (h : s.dev.MendedAs u y e) : mended y e := ⟨h.1.room, h.1.rooms, h.1.block, h.1.fabric, h.1.net, h.2⟩
  have hfails : codeFails u x.bits = true ↔ fails := codeFails_iff
  have hess : (l.essRead s.dev.now x.last).cnt = l.cnt := l.essRead_cnt _ _
  have hbg : (l.bgRead s.dev.now x.last).cnt = l.cnt := l.bgRead_cnt _ _
  have hrewrite (l' : Loader) (y : ScrubFind) : Keep [.events, .rooms, .net, .fabric, .loader] s.dev (Dev.rewrite { s.dev with loader := l' } u y) :=
    Dev.rewriteParts_keep (Keep.upd_loader (.refl _ _) (by decide)) (fun _ h => h) y
  have hread (l' : Loader) (ys : List ScrubFind) : Keep [.events, .rooms, .net, .fabric, .loader] s.dev (Dev.readBack { s.dev with loader := l' } u ys) :=
    Dev.readBack_keep (Keep.upd_loader (.refl _ _) (by decide)) (fun _ h => h) ys
  refine ⟨fun he => ?unnamed, fun hen hup hs => ⟨fun he hf => ?whole, fun he hf hok => ?mend, fun he hf hok => ?lost, fun hw => ?clean,
    fun y hw => ⟨fun hy => ?bit, fun hy hok => ?word, fun hy hok => ?noWord⟩, fun hw hok => ?words⟩, fun r b i golden hn => ?fetched⟩
  case unnamed => exact completes_of_run (f := Dev.essentialScrub u x) rfl (Dev.essentialScrub_other he) (.refl _ _) rfl
  case whole =>
    exact completes_of_run (f := Dev.essentialScrub u x) rfl ((Dev.essentialScrub_eq hen hup hs he).trans (if_neg fun h => hf (hfails.1 h)))
      (Keep.upd_loader (.refl _ _) (by decide)) rfl
  case mend =>
    obtain ⟨hm, hr, hl⟩ := Dev.rewrite_shown (d := s.dev) (u := u) (x := x) (l.essRead s.dev.now x.last) hok
    rw [hess] at hl
    exact completes_of_run (f := Dev.essentialScrub u x) rfl ((Dev.essentialScrub_eq hen hup hs he).trans (if_pos (hfails.2 hf)))
      (hrewrite _ x) ⟨hmended hm, hev ▸ hr, hl⟩
  case lost =>
    obtain ⟨hk, hr, hl⟩ := Dev.lost_shown (d := s.dev) (u := u) (x := x) (l.essRead s.dev.now x.last) hok
    rw [hess] at hl
    exact completes_of_run (f := Dev.essentialScrub u x) rfl ((Dev.essentialScrub_eq hen hup hs he).trans (if_pos (hfails.2 hf))) hk ⟨hev ▸ hr, hl⟩
  case clean =>
    refine completes_of_run (f := Dev.backgroundReadback u x) rfl ((Dev.backgroundReadback_eq hen hup hs).trans (by rw [hw]; rfl))
      (Keep.upd_loader (.refl _ _) (by decide)) rfl
  case bit =>
    obtain ⟨hm, hl, hr, hq⟩ := Dev.corrected_shown (d := s.dev) (u := u) (l.bgRead s.dev.now x.last) hy
    rw [hbg] at hl
    exact completes_of_run (f := Dev.backgroundReadback u x) rfl ((Dev.backgroundReadback_eq hen hup hs).trans (by rw [hw]))
      (hread _ [y]) ⟨hmended hm, hl, fun h => hev ▸ hr h, hq⟩
  case word =>
    have hyok : y.goldenOk = true := (mem_frameWrong_golden (hw ▸ List.mem_singleton_self y)).trans hok
    obtain ⟨hm, hr, hl⟩ := Dev.rewrite_shown (d := s.dev) (u := u) (x := y) (l.bgRead s.dev.now x.last) hyok
    rw [hbg] at hl
    exact completes_of_run (f := Dev.backgroundReadback u x) rfl ((Dev.backgroundReadback_eq hen hup hs).trans (by rw [hw, Dev.readBack_several hy]))
      (hrewrite _ y) ⟨hmended hm, hev ▸ hr, hl⟩
  case noWord =>
    have hyok : y.goldenOk = false := (mem_frameWrong_golden (hw ▸ List.mem_singleton_self y)).trans hok
    obtain ⟨hk, hr, hl⟩ := Dev.lost_shown (d := s.dev) (u := u) (x := y) (l.bgRead s.dev.now x.last) hyok
    rw [hbg] at hl
    exact completes_of_run (f := Dev.backgroundReadback u x) rfl ((Dev.backgroundReadback_eq hen hup hs).trans (by rw [hw, Dev.readBack_several hy]))
      hk ⟨hev ▸ hr, hl⟩
  case words =>
    have hall : ∀ y ∈ frameWrong x, y.goldenOk = true := fun y hy => (mem_frameWrong_golden hy).trans hok
    obtain ⟨⟨c, hl⟩, -, hr⟩ := Dev.each_rewrite (d := { s.dev with loader := l.bgRead s.dev.now x.last }) (u := u) hall
    refine completes_of_run (f := Dev.backgroundReadback u x) rfl (Dev.backgroundReadback_eq hen hup hs) (hread _ _) ?_
    rw [Dev.readBack_words hw]
    refine ⟨hev ▸ hr (by rintro h; rw [h] at hw; cases hw), ?_, ?_⟩
    · rw [hl]
      rfl
    · rintro b rfl y hy hcell
      exact Dev.each_rewrite_cells hall hcell (.inl ⟨y, hy, rfl⟩)
  case fetched =>
    have hk : Keep [.events, .rooms, .loader] s.dev (s.dev.rewrite (.room r) { bits := 2, goldenOk := golden, word := b.toNat * 512 + i.toNat }) :=
      Dev.rewrite_room_keep r rfl
    refine completes_of_run (f := Dev.scrubRewrite r (b.toNat * 512 + i.toNat) golden) rfl (Dev.scrubRewrite_eq hn) hk ?_
    cases golden with
    | true =>
      obtain ⟨⟨hm, -⟩, hr, hl⟩ := Dev.rewrite_shown (d := s.dev) (u := .room r) (x := { bits := 2, goldenOk := true, word := b.toNat * 512 + i.toNat })
        l rfl
      exact ⟨hr, hl, fun _ => hm.room r rfl, fun h => nomatch h⟩
    | false =>
      obtain ⟨hk', hr, hl⟩ := Dev.lost_shown (d := s.dev) (u := .room r) (x := { bits := 2, goldenOk := false, word := b.toNat * 512 + i.toNat })
        l rfl
      exact ⟨hr, hl, (fun h => nomatch h), fun _ => hk'.rooms.resolve_left (by decide)⟩

end Sys2Proof.Machine
end

section
/-! O12: rooms in run-ahead stall and vote -/

namespace Sys2Proof.Machine
open Sys2Proof

-- a room that votes LATE (R85, R96)

/-- A room that issues no more in its beat. -/
def Room.stalledLate (rm : Room) : Room := { rm with phase := .stalled, late := true }

/-- LATE, or FAULT or MISSED where they apply. -/
def Room.lateStatus (rm : Room) : BitVec 3 := if rm.faulted then 1 else if rm.missed then 2 else 3

theorem Room.lateStatus_eq (rm : Room) : (if rm.voteStatus = 0 then 3 else rm.voteStatus) = rm.lateStatus := by
  unfold Room.voteStatus Room.lateStatus
  cases rm.faulted <;> cases rm.missed <;> rfl

theorem Dev.lateStall_eq {d : Dev} {r : RoomId} (hlate : (d.room r).late = false)
    (h : ((d.room r).phase = .run ∨ (d.room r).phase = .ended) ∧ (d.room r).ahead = true ∧ (d.room r).undecided ≠ none ∨ (d.room r).phase = .stalled) :
    Dev.lateStall r d = (d.setRoom r (d.room r).stalledLate).sendVote r (d.room r).lateStatus := by
  rw [← Room.lateStatus_eq]
  refine if_pos ⟨by rw [hlate]; rfl, ?_⟩
  rcases h with ⟨hphase, hahead, hu⟩ | hphase
  · exact .inr ⟨Option.isSome_iff_ne_none.2 hu, hahead, hphase⟩
  · exact .inl hphase

/-- Settles O12: the stalled room is set and its vote sent; the trace packet of the vote changes nothing of the network but retry buffers. -/
theorem lateRoomsStallAndVote : Obligations.LateRoomsStallAndVote := by
  intro s r rm hlate h
  have hvote := Dev.sendVote_parts (s.dev.setRoom r rm.stalledLate) r rm.lateStatus
  have hnet := Dev.sendVote_net (s.dev.setRoom r rm.stalledLate) r rm.lateStatus
  rw [Dev.room_setRoom_same, Net.sendVote_eq] at hnet
  refine completes_of_run (f := Dev.lateStall r) rfl (Dev.lateStall_eq hlate h) ?_ ⟨?_, ?_, hnet.rest⟩
  · apply Dev.sendVote_keep (Dev.setRoom_keep (.refl _ _) (by decide) r _) <;> exact listed rfl
  · exact (hvote.room_eq (by decide) r).trans (s.dev.room_setRoom_same r _)
  · exact otherRooms_trans (s.dev.setRoom_otherRooms r _) (hvote.otherRooms (by decide) r)

end Sys2Proof.Machine
end

section
/-! O17: ring links fail and return -/

namespace Sys2Proof.Machine
open Sys2Proof

section
variable {d e : Dev} {l : LinkDir}

-- a link that goes down (R147, R148)

/-- A command that names a link of the device. -/
theorem completes_of_link {c : Instr} {s : State} {f : Dev → Dev} {ps : List Part} {Q : Dev → Prop} (hl : linkOk l = true)
    (hc : exec c s = run (linkOk l) f s) (hk : Keep ps s.dev (f s.dev)) (hQ : Q (f s.dev)) : Completes c s ps Q :=
  completes_of_run (hl ▸ hc) rfl hk hQ

/-- The ways over which a link's loss loses what is on them. -/
def Net.over (n : Net) (k : Nat) (src dst : Node) : Bool := decide (k ∈ n.way src dst)

/-- What a room's node sends to a hub unit, lost over a link. -/
def Net.roomOver (n : Net) (k i : Nat) (u : BitVec 8) : Bool := decide (i < 256) && n.over k (.room (BitVec.ofNat 8 i)) (.hub u)

/-- A network that has lost a link, with what was on its way over it. -/
def Net.linkLost (n : Net) (l : LinkDir) : Net :=
  { n with
    xch := (n.xch.filter fun p => p.waits || !n.over (linkDirKey l) p.src p.dst).map fun p => { p with waits := p.waits || turnsInto p.src p.dst == some l.ring.toNat }
    votes := n.votes.filter (fun v => !n.over (linkDirKey l) (.room v.room) (.hub 0))
    decs := n.decs.filter (fun x => match x.1 with | .room r => !n.over (linkDirKey l) (.hub 0) (.room r) | .hub _ => true)
    ue := bumpAt n.ue l.ring.toNat
    links := Tbl.set {} n.links (linkDirKey l) { down := true }
    holds := if l.ring ∈ n.holds then n.holds else l.ring :: n.holds }

/-- The device without what was on its way over a link that goes down, before the hub learns of its lost words. -/
def Dev.withoutLink (d : Dev) (l : LinkDir) : Dev :=
  let k := linkDirKey l
  let n := d.net
  let d := { d with events := d.events.filter fun o => !n.roomOver k o.ev.toNat 5 }
  let d := d.modCellar fun c => { c with flights := c.flights.map fun x => { x with dests := x.dests.filter fun y => !n.over k (.hub 1) (.room y.1) } }
  let d := d.setStream 16 { d.stream 16 with window := (d.stream 16).window.filter fun p => !n.roomOver k p.2.1 6 }
  { d with net := n.linkLost l }

/-- A decision on its way over a link that is lost. -/
theorem notToRoom_eq (n : Net) (k : Nat) (x : Recipient × Decision) :
    (!match x.1 with | .room r => n.over k (.hub 0) (.room r) | .hub _ => false) =
      match x.1 with | .room r => !n.over k (.hub 0) (.room r) | .hub _ => true := by
  obtain ⟨x, y⟩ := x
  cases x <;> rfl

theorem Dev.linkDown_eq (l : LinkDir) (d : Dev) : Dev.linkDown l d =
    ((d.withoutLink l).each (d.net.xch.filter fun p => !p.waits && d.net.over (linkDirKey l) p.src p.dst) Dev.lostWord).raise (448 + l.ring.toNat) := by
  have hdecs : (d.net.decs.filter fun x => !match x.1 with | .room r => d.net.over (linkDirKey l) (.hub 0) (.room r) | .hub _ => false) =
      (d.net.linkLost l).decs := congrArg (d.net.decs.filter ·) (funext (notToRoom_eq d.net (linkDirKey l)))
  unfold Dev.withoutLink
  dsimp only
  unfold Net.linkLost at hdecs ⊢
  dsimp only at hdecs ⊢
  rw [← hdecs]
  rfl

-- the words that are lost: a drain or a stream word is a hub fault (R89)

theorem Dev.func?_lostWord (p : Packet) (i : FuncId) : (d.lostWord p).func? i = (d.func? i).map fun f =>
    if (p.kind = .drain ∨ p.kind = .stream) ∧ f.id = p.func then { f with hubFault := true } else f := by
  unfold Dev.lostWord
  split
  · next hk =>
    rw [Dev.func?_modFunc (g := fun f => { f with hubFault := true }) fun _ => rfl]
    simp only [hk, true_and]
  · next hk => simp only [hk, false_and, if_false, Option.map_id']

/-- The function of an ID, where it is there, has a hub fault. -/
def Dev.HubFault (d : Dev) (i : FuncId) : Prop := ∀ f, d.func? i = some f → f.hubFault = true

theorem Dev.HubFault.lostWord {i : FuncId} (h : d.HubFault i) (p : Packet) : (d.lostWord p).HubFault i := by
  intro f hf
  rw [Dev.func?_lostWord] at hf
  obtain ⟨g, hg, rfl⟩ := Option.map_eq_some_iff.1 hf
  split
  · rfl
  · exact h g hg

theorem Dev.lostWord_hubFault {p : Packet} (h : p.kind = .drain ∨ p.kind = .stream) : (d.lostWord p).HubFault p.func := by
  intro f hf
  rw [Dev.func?_lostWord] at hf
  obtain ⟨g, hg, rfl⟩ := Option.map_eq_some_iff.1 hf
  rw [if_pos ⟨h, Dev.id_of_func? hg⟩]

theorem Dev.lostWords_hubFault {ps : List Packet} {p : Packet} (hp : p ∈ ps) (h : p.kind = .drain ∨ p.kind = .stream) :
    (d.each ps Dev.lostWord).HubFault p.func := by
  obtain ⟨before, after, rfl⟩ := List.append_of_mem hp
  unfold Dev.each
  rw [List.foldl_append, List.foldl_cons]
  exact Dev.each_induct (P := fun e => e.HubFault p.func) (Dev.lostWord_hubFault h) fun e q he => he.lostWord q

theorem Dev.stream_withoutLink (d : Dev) (l : LinkDir) :
    ((d.withoutLink l).stream 16).window = (d.stream 16).window.filter fun p => !d.net.roomOver (linkDirKey l) p.2.1 6 :=
  congrArg Stream.window (Tbl.get_set_same ({} : Stream) _ _ _)

end

/-- Settles O17: a link's loss takes what is on its way over it, then each lost drain or stream word faults the hub of its function. -/
theorem ringLinksFailAndReturn : Obligations.RingLinksFailAndReturn := by
  intro s l hl n c k z on roomOf
  refine ⟨?resent, ?lost, fun hdown => ?trained, fun hdown => ?retry, ?ended⟩
  case resent =>
    exact completes_of_link (f := Dev.flitCrcError l) hl rfl (Dev.raise_keep (Dev.modNet_keep (.refl _ _) (by decide) _) (by decide) _ _)
      ⟨rfl, Dev.raise_raised rfl _⟩
  case lost =>
    have hk : Keep [.funcs] (s.dev.withoutLink l) ((s.dev.withoutLink l).each (n.xch.filter fun p => !p.waits && n.over k p.src p.dst) Dev.lostWord) :=
      Dev.each_keep (.refl _ _) fun x p h => Dev.lostWord_keep h (by decide) p
    have hfault (p : Packet) (hp : p ∈ n.xch) (hw : p.waits = false) (hway : k ∈ n.way p.src p.dst) (hkind : p.kind = .drain ∨ p.kind = .stream) :
        ((s.dev.withoutLink l).each (n.xch.filter fun p => !p.waits && n.over k p.src p.dst) Dev.lostWord).HubFault p.func :=
      Dev.lostWords_hubFault (List.mem_filter.2 ⟨hp, by simp [hw, Net.over, hway]⟩) hkind
    have hstream := s.dev.stream_withoutLink l
    have heq : Dev.linkDown l s.dev = _ := Dev.linkDown_eq l s.dev
    refine completes_of_link (f := Dev.linkDown l) hl rfl ?_ ?_
    · apply Dev.linkDown_keep (.refl _ _) <;> exact listed rfl
    rw [heq]
    generalize Dev.each _ _ Dev.lostWord = e at hk hfault
    refine ⟨hk.net.resolve_left (by decide), hk.cellar.resolve_left (by decide), ?_, ⟨_, congrArg (· ++ [_]) (hk.events.resolve_left (by decide)), rfl,
      hk.now.resolve_left (by decide)⟩, fun p hp hw hway hkind f hf => hfault p hp hw hway hkind f hf⟩
    exact (congrArg (fun c : Cores => (Tbl.get ({} : Stream) c.streams 16).window) (hk.cores.resolve_left (by decide))).trans hstream
  case trained =>
    exact completes_of_link (f := Dev.linkRetrainDone l) hl rfl (Dev.modNet_keep (.refl _ _) (by decide) _)
      (congrArg (fun x => { n with links := Tbl.set {} n.links k x }) (if_pos hdown))
  case retry =>
    exact completes_of_link (f := Dev.linkRetrainRetry l) hl rfl (Dev.modNet_keep (.refl _ _) (by decide) _)
      (congrArg (fun x => { n with links := Tbl.set {} n.links k x }) (if_pos hdown))
  case ended => exact completes_of_run (f := Dev.ringHoldEnd l.ring) rfl rfl (Dev.modNet_keep (.refl _ _) (by decide) _) rfl

end Sys2Proof.Machine
end

section
/-! O26: read streams reach their rooms -/

namespace Sys2Proof.Machine
open Sys2Proof

-- a read stream is issued (R98)

section
variable {d : Dev}

/-- A room that stays within its envelope pays its tokens and raises nothing (R89). -/
theorem Dev.chargeRoom_within {r : RoomId} {step n : Nat}
    (h : Tbl.get 0 (d.room r).tokens (step / 64) + n ≤ (d.room r).envelope.getD (step / 64) 0) :
    d.chargeRoom r step n = d.setRoom r ((d.room r).charged step n) := by
  unfold Dev.chargeRoom
  rw [Room.charge_within h]
  rfl

/-- One line of an unsealed region that no write covers is read as it is stored. -/
theorem Dev.readLines_plain {q : BitVec 9} {want : Want} {who : FuncId × Beat} {line n : Nat} {r : Region}
    (hp : d.cellar.permits .room q line want false = some (n, r)) (hr : r.sealed_ = false) (hu : d.cellar.unread = [])
    (hv : d.cellar.visible line (some who) = []) : d.readLines q want who [] line 1 = (d, .good, lineWords (d.cellar.raw line)) := by
  have hdata : d.cellar.dataUe line {} = false := by
    unfold Cellar.dataUe
    rw [hu]
    rfl
  have hmeta : d.cellar.metaUe line {} = false := by
    unfold Cellar.metaUe
    rw [hu]
    rfl
  have hline : d.readLine .room q line want (some who) {} = (d, .good, d.cellar.raw line) := by
    unfold Dev.readLine
    rw [hp]
    dsimp only
    rw [Dev.lineEcc_readable hdata hmeta, if_neg (ne_true_of_eq_false hr), Cellar.openPlain_good _ hdata]
    dsimp only
    rw [if_neg nofun, if_neg nofun, Cellar.forward_uncovered hv]
  unfold Dev.readLines
  rw [List.headD_nil, hline]
  dsimp only
  unfold Dev.readLines
  dsimp only
  rw [List.append_nil, if_neg (by decide)]

theorem Dev.readStreamIssue_eq {st : StreamRef} {f : Func} {sd : StreamDecl} {p : Place} {q : BitVec 9} {g line : Nat} (hf : d.func? st.func = some f)
    (hs : f.stream? st.vroom.toNat st.stream.toNat false = some sd) (hp : f.placeOf false st.rep.toNat st.vroom.toNat = some p)
    (hphase : (d.room p.room).phase = .run ∨ (d.room p.room).phase = .ended)
    (honce : ∀ x ∈ d.cellar.flights, x.st = st → x.beat = d.time.n → x.att ≠ (d.room p.room).att)
    (hq : f.regionBinding sd = some (q, g)) (hl : d.streamLine f sd (f.ringCount (d.room p.room).ahead) d.time.n = some (line, none)) (hm : sd.mode ≠ 2) :
    Dev.readStreamIssue st [] d =
      let c := d.chargeRoom p.room ((d.room p.room).d + sd.sigma) (120 * ceilDiv sd.words 16)
      let x := c.readLines q .streamR (f.id, c.time.n) [] line (ceilDiv sd.words 16)
      x.1.modCellar fun k => { k with flights := k.flights ++
        [{ st, beat := x.1.time.n, att := (d.room p.room).att, slot := sd.slot, line, words := x.2.2.take sd.words, verdict := x.2.1
           dests := f.destinations st.rep.toNat st.vroom.toNat }] } := by
  have hissue : ¬ (((d.room p.room).phase ≠ .run ∧ (d.room p.room).phase ≠ .ended) ∨
      d.cellar.flights.any (fun x => x.st == st && x.beat == d.time.n && x.att == (d.room p.room).att) = true) := by
    rintro (⟨hr, he⟩ | hany)
    · exact hphase.elim hr he
    · obtain ⟨x, hx, hsame⟩ := List.any_eq_true.1 hany
      simp only [Bool.and_eq_true, beq_iff_eq] at hsame
      exact honce x hx hsame.1.1 hsame.1.2 hsame.2
  unfold Dev.readStreamIssue
  simp only [hf, hs, hp, if_neg hissue, hq, hl, if_neg hm]

end

-- its words reach their room (R102, R146)

section
variable {d : Dev} {rm : Room} {n : Beat} {gen : BitVec 8} {fl : StreamFlight}

/-- The word of a stream at its place of the window. -/
def Room.streamWrite (fl : StreamFlight) (rm : Room) (y : Lanes × Nat) : Room :=
  rm.writeSlot (fl.slot + y.2) false { word := y.1, level := rm.place, step := rm.stepNow, src := 512 }

/-- The words of a stream are for what runs in the room. -/
def Room.Awaits (rm : Room) (n : Beat) (gen : BitVec 8) (fl : StreamFlight) : Prop :=
  rm.func ≠ 0xFFFF ∧ gen = rm.gen ∧ fl.beat = n ∧ ¬ (rm.att = true ∧ fl.att = false)

theorem Room.streamWrite_landed (fl : StreamFlight) (rm : Room) (y : Lanes × Nat) : rm.Landed (rm.streamWrite fl y) := Room.writeSlot_landed ..

theorem Room.Landed.awaits {rm' : Room} (h : rm.Landed rm') : rm'.Awaits n gen fl ↔ rm.Awaits n gen fl := by
  have heq : rm' = _ := h
  have hfunc : rm'.func = rm.func := (congrArg Room.func heq :)
  have hgen : rm'.gen = rm.gen := (congrArg Room.gen heq :)
  have hatt : rm'.att = rm.att := (congrArg Room.att heq :)
  unfold Room.Awaits
  rw [hfunc, hgen, hatt]

/-- One word of a stream at a room. -/
def Room.streamWord (n : Beat) (gen : BitVec 8) (fl : StreamFlight) (rm : Room) (y : Lanes × Nat) : Room :=
  if fl.beat = n ∧ (!(rm.att && !fl.att)) = true then
    rm.hubWord gen (fl.slot + y.2) false { word := y.1, level := rm.place, step := rm.stepNow, src := 512 }
  else rm.count cntXchStale

theorem Room.streamTake_eq : rm.streamTake n gen fl = fl.words.zipIdx.foldl (Room.streamWord n gen fl) rm := rfl

/-- Words of attempt 0 are not for a restarted room (R146). -/
theorem restarted_eq {a b : Bool} : (!(a && !b)) = true ↔ ¬ (a = true ∧ b = false) := by cases a <;> cases b <;> simp

theorem Room.streamWord_fresh (h : rm.Awaits n gen fl) (y : Lanes × Nat) : rm.streamWord n gen fl y = rm.streamWrite fl y := by
  obtain ⟨hfunc, hgen, hbeat, hatt⟩ := h
  exact (if_pos ⟨hbeat, restarted_eq.2 hatt⟩).trans (if_pos ⟨hfunc, hgen.symm⟩)

theorem Room.streamWord_stale (h : ¬ rm.Awaits n gen fl) (y : Lanes × Nat) : rm.streamWord n gen fl y = rm.count cntXchStale := by
  unfold Room.streamWord
  split
  · next hb =>
    exact if_neg fun hg => h ⟨hg.1, hg.2.symm, hb.1, restarted_eq.1 hb.2⟩
  · rfl

theorem Room.streamTake_fresh (h : rm.Awaits n gen fl) : rm.streamTake n gen fl = fl.words.zipIdx.foldl (Room.streamWrite fl) rm := by
  rw [Room.streamTake_eq]
  generalize fl.words.zipIdx = l
  induction l generalizing rm with
  | nil => rfl
  | cons y l ih =>
    rw [List.foldl_cons, List.foldl_cons, Room.streamWord_fresh h]
    exact ih ((rm.streamWrite_landed fl y).awaits.2 h)

theorem Room.streamTake_stale (h : ¬ rm.Awaits n gen fl) : rm.streamTake n gen fl = fl.words.foldl (fun rm _ => rm.count cntXchStale) rm := by
  have hwords : fl.words.foldl (fun rm _ => rm.count cntXchStale) rm = fl.words.zipIdx.foldl (fun (rm : Room) (_ : Lanes × Nat) => rm.count cntXchStale) rm := by
    conv_lhs => rw [← List.zipIdx_map_fst 0 fl.words, List.foldl_map]
  rw [Room.streamTake_eq, hwords]
  clear hwords
  generalize fl.words.zipIdx = l
  induction l generalizing rm with
  | nil => rfl
  | cons y l ih =>
    have hcount : rm.Landed (rm.count cntXchStale) := rfl
    rw [List.foldl_cons, List.foldl_cons, Room.streamWord_stale h]
    exact ih fun h' => h (hcount.awaits.1 h')

end

/-- The flight with its remaining destinations. -/
def Dev.injected (d : Dev) (fl : StreamFlight) (dests : List (RoomId × BitVec 8)) : Dev := d.modCellar (·.inject fl dests)

section
variable {d : Dev} {st : StreamRef} {fl : StreamFlight} {r : RoomId} {gen : BitVec 8}
  (hfl : d.cellar.flights.find? (fun x => x.st == st && (!x.delivered || !x.dests.isEmpty)) = some fl) (hd : fl.dests = [(r, gen)])
include hfl hd

theorem Dev.streamWords_wait (hw : (d.net.heldOn (.hub 1) (.room r) || d.cellar.streamAhead fl r) = true) :
    Dev.streamWords st d = d.injected fl [(r, gen)] := by
  unfold Dev.streamWords
  simp only [hfl, hd, List.filter_cons, hw, if_true, List.filter_nil, Bool.not_true, Bool.false_eq_true, if_false]
  rfl

theorem Dev.streamWords_reach (hw : (d.net.heldOn (.hub 1) (.room r) || d.cellar.streamAhead fl r) = false) :
    Dev.streamWords st d = ((d.injected fl []).streamCarry fl r gen).modRoom r fun rm => rm.streamTake d.time.n gen fl := by
  unfold Dev.streamWords
  simp only [hfl, hd, List.filter_cons, hw, if_true, List.filter_nil, Bool.not_false, Bool.false_eq_true, if_false]
  rfl

end

/-- Settles O26: the stream's line is read and its flight begins; at its room the words are taken (`Room.streamTake`) as what runs there awaits them
(`Room.Awaits`). -/
theorem readStreamsReachTheirRooms : Obligations.ReadStreamsReachTheirRooms := by
  refine ⟨?issue, ?words⟩
  case issue =>
    intro s st f sd p q g line n r rm c w hf hs hp hphase honce hq hl hpos hle hm hperm hr hv hu ht
    have hcount : ceilDiv sd.words 16 = 1 := by unfold ceilDiv; omega
    have hcharge : s.dev.chargeRoom p.room (rm.d + sd.sigma) 120 = s.dev.setRoom p.room (rm.charged (rm.d + sd.sigma) 120) := Dev.chargeRoom_within ht
    have hread := Dev.readLines_plain (d := s.dev.setRoom p.room (rm.charged (rm.d + sd.sigma) 120)) 
      (who := (f.id, (s.dev.setRoom p.room (rm.charged (rm.d + sd.sigma) 120)).time.n)) hperm hr hu hv
    have hissue := Dev.readStreamIssue_eq hf hs hp hphase honce hq hl hm
    dsimp only at hissue
    rw [hcount, hcharge, hread] at hissue
    exact completes_of_run (f := Dev.readStreamIssue st []) rfl hissue
      (Dev.modCellar_keep (Dev.setRoom_keep (.refl _ _) (by decide) _ _) (by decide) _ (by exact fun _ h => h)) ⟨s.dev.room_setRoom_same _ _, s.dev.setRoom_otherRooms _ _, rfl⟩
  case words =>
    intro s st fl r gen rm find fls ahead held now hfl hd
    refine ⟨fun hw => ?_, fun hw => ?_⟩
    · exact completes_of_run (f := Dev.streamWords st) rfl (Dev.streamWords_wait hfl hd hw) (Dev.modCellar_keep (.refl _ _) (by decide) _ (by exact fun _ h => h)) rfl
    · have hroom : (((s.dev.injected fl []).streamCarry fl r gen).modRoom r fun rm => rm.streamTake s.dev.time.n gen fl).room r =
        rm.streamTake s.dev.time.n gen fl := Dev.room_modRoom_same ..
      refine completes_of_run (f := Dev.streamWords st) rfl (Dev.streamWords_reach hfl hd hw)
        (Dev.modRoom_keep (Dev.putNet_keep (Dev.modCellar_keep (.refl _ _) (by decide) _ (by exact fun _ h => h)) (by decide) _) (by decide) _ _) ?_
      refine ⟨rfl, Dev.modRoom_otherRooms _ _ _, fun h => hroom.trans (Room.streamTake_fresh h), fun h => hroom.trans (Room.streamTake_stale h)⟩

end Sys2Proof.Machine
end

section
/-! Rules of the scheduler, the cores and the trace streams -/

namespace Sys2Proof.Machine
open Sys2Proof

-- a core's and a stream's places

section
variable (d : Dev)

theorem Dev.core_setCore_same (c : BitVec 4) (x : Core) : (d.setCore c x).core c = x := Tbl.get_set_same ..

theorem Dev.core_setCore_other {c i : BitVec 4} (h : i ≠ c) (x : Core) : (d.setCore c x).core i = d.core i :=
  Tbl.get_set_other _ _ _ _ _ fun h' => h (BitVec.eq_of_toNat_eq h')

theorem Dev.core_modCore_same (c : BitVec 4) (f : Core → Core) : (d.modCore c f).core c = f (d.core c) := d.core_setCore_same ..

theorem Dev.core_modCore_other {c i : BitVec 4} (h : i ≠ c) (f : Core → Core) : (d.modCore c f).core i = d.core i := d.core_setCore_other h _

theorem Dev.stream_setStream_same (i : Nat) (x : Stream) : (d.setStream i x).stream i = x := Tbl.get_set_same ..

theorem Dev.stream_setStream_other {i j : Nat} (h : j ≠ i) (x : Stream) : (d.setStream i x).stream j = d.stream j := Tbl.get_set_other _ _ _ _ _ h

end

-- what a packet of a trace stream changes (R389)

/-- Of the cores stream `i` alone has changed, and of the strongroom shared SRAM. -/
structure Dev.Streamed (i : Nat) (d e : Dev) : Prop where
  cores : e.cores = { d.cores with streams := e.cores.streams }
  others : ∀ j, j ≠ i → e.stream j = d.stream j
  strong : e.strong = { d.strong with sram := e.strong.sram }

section
variable {c d e : Dev} {i : Nat}

theorem Dev.Streamed.refl (i : Nat) (d : Dev) : d.Streamed i d := ⟨rfl, fun _ _ => rfl, rfl⟩

theorem Dev.Streamed.trans (h : c.Streamed i d) (h' : d.Streamed i e) : c.Streamed i e :=
  ⟨h'.cores.trans (congrArg (fun k : Cores => { k with streams := e.cores.streams }) h.cores), fun j hj => (h'.others j hj).trans (h.others j hj),
    h'.strong.trans (congrArg (fun k : Strong => { k with sram := e.strong.sram }) h.strong)⟩

theorem Dev.Streamed.core (h : d.Streamed i e) (k : BitVec 4) : e.core k = d.core k := by
  unfold Dev.core
  rw [h.cores]

theorem Dev.Streamed.measures (h : d.Streamed i e) : e.strong.measures = d.strong.measures := by rw [h.strong]

theorem Dev.Streamed.of_keep {ps : List Part} (h : Keep ps d e) (hc : .cores ∉ ps) (hs : .strong ∉ ps) : d.Streamed i e := by
  have hcores := h.cores.resolve_left hc
  refine ⟨by rw [hcores], fun j _ => ?_, by rw [h.strong.resolve_left hs]⟩
  unfold Dev.stream
  rw [hcores]

theorem Dev.setStream_streamed (d : Dev) (i : Nat) (x : Stream) : d.Streamed i (d.setStream i x) :=
  ⟨rfl, fun _ hj => d.stream_setStream_other hj x, rfl⟩

theorem Dev.ringBytes_streamed (d : Dev) (i : Nat) (cellar : Bool) (q : BitVec 9) (a : Nat) (b : Bytes) : d.Streamed i (d.ringBytes cellar q a b) := by
  unfold Dev.ringBytes
  split
  · exact .of_keep (ps := [.free, .events, .cellar]) (by apply Dev.putThrough_keep (.refl _ _) <;> exact listed rfl) (by decide) (by decide)
  · split
    · exact ⟨rfl, fun _ _ => rfl, rfl⟩
    · exact .refl _ _

theorem Dev.streamPut_streamed (d : Dev) (i : Nat) (bs : Bytes) : d.Streamed i (d.streamPut i bs) :=
  ((Dev.ringBytes_streamed ..).trans (Dev.ringBytes_streamed ..)).trans (Dev.setStream_streamed ..)

theorem Dev.streamReserved_streamed (d : Dev) (i : Nat) (bs : Bytes) : d.Streamed i (d.streamReserved i bs) := by
  unfold Dev.streamReserved
  split
  · exact d.streamPut_streamed i bs
  · exact .refl _ _

theorem Dev.sync_streamed (d : Dev) (i reason : Nat) : d.Streamed i (d.sync i reason) :=
  (Dev.streamReserved_streamed ..).trans (Dev.setStream_streamed ..)

theorem Dev.raise_streamed (d : Dev) (i ev detail : Nat) : d.Streamed i (d.raise ev detail) := ⟨rfl, fun _ _ => rfl, rfl⟩

theorem Dev.streamPacket_streamed (d : Dev) (i : Nat) (bs : Bytes) : d.Streamed i (d.streamPacket i bs) := by
  unfold Dev.streamPacket
  dsimp only
  split
  · split
    · exact (d.setStream_streamed i _).trans (Dev.raise_streamed ..)
    · exact d.setStream_streamed i _
  · split
    · exact (d.streamPut_streamed i bs).trans (Dev.sync_streamed ..)
    · exact d.streamPut_streamed i bs

theorem Dev.tracePkt_streamed (d : Dev) (c : BitVec 4) (type : Nat) (fields : Bytes) : d.Streamed c.toNat (d.tracePkt c type fields) := by
  unfold Dev.tracePkt
  dsimp only
  split
  · exact Dev.streamPacket_streamed ..
  · refine .trans (.trans ?_ (Dev.setStream_streamed ..)) (Dev.streamPacket_streamed ..)
    split
    · exact Dev.streamPacket_streamed ..
    · exact .refl _ _

theorem Dev.flushBranches_streamed (d : Dev) (c : BitVec 4) : d.Streamed c.toNat (d.flushBranches c) := by
  unfold Dev.flushBranches
  dsimp only
  split
  · exact .refl _ _
  · exact (d.setStream_streamed _ _).trans (Dev.tracePkt_streamed ..)

end

-- what the scheduler changes of the cores (R377, R378)

/-- A core that may have been given tasks: its stack and its external interrupt's signal alone have changed. -/
structure Core.Given (x y : Core) : Prop where
  rest : y = { x with stack := y.stack, csr := y.csr }
  csr : ∀ n, n ≠ 0x344 → Tbl.get 0 y.csr n = Tbl.get 0 x.csr n
  meip : Tbl.get 0 y.csr 0x344 = Tbl.get 0 x.csr 0x344 ∨ Tbl.get 0 y.csr 0x344 = Tbl.get 0 x.csr 0x344 ||| 0x800
  idle : y.stack = [] → y = x
  held : x.able = false → y = x

section
variable {w x y : Core}

theorem Core.Given.refl (x : Core) : x.Given x := ⟨rfl, fun _ _ => rfl, .inl rfl, fun _ => rfl, fun _ => rfl⟩

theorem Core.Given.able (h : x.Given y) : y.able = x.able := by
  rw [h.rest]
  rfl

theorem Core.Given.trans (h : w.Given x) (h' : x.Given y) : w.Given y where
  rest := h'.rest.trans (congrArg (fun k : Core => { k with stack := y.stack, csr := y.csr }) h.rest)
  csr n hn := (h'.csr n hn).trans (h.csr n hn)
  meip := by
    have hor (a : BitVec 64) : a ||| 0x800 ||| 0x800 = a ||| 0x800 := by rw [BitVec.or_assoc, BitVec.or_self]
    rcases h.meip with hx | hx <;> rcases h'.meip with hy | hy
    · exact .inl (hy.trans hx)
    · exact .inr (hy.trans (by rw [hx]))
    · exact .inr (hy.trans hx)
    · exact .inr (hy.trans (by rw [hx, hor]))
  idle hs := by
    have hy := h'.idle hs
    exact hy.trans (h.idle (hy ▸ hs))
  held hw := (h'.held (h.able.trans hw)).trans (h.held hw)

end

/-- The cores of the device may have been given tasks. -/
structure Dev.Given (d e : Dev) : Prop where
  cores : e.cores = { d.cores with cores := e.cores.cores }
  core : ∀ c, (d.core c).Given (e.core c)

section
variable {c d e : Dev}

theorem Dev.Given.of_cores (h : e.cores = d.cores) : d.Given e := by
  refine ⟨by rw [h], fun c => ?_⟩
  unfold Dev.core
  rw [h]
  exact .refl _

theorem Dev.Given.refl (d : Dev) : d.Given d := .of_cores rfl

theorem Dev.Given.trans (h : c.Given d) (h' : d.Given e) : c.Given e :=
  ⟨h'.cores.trans (congrArg (fun k : Cores => { k with cores := e.cores.cores }) h.cores), fun k => (h.core k).trans (h'.core k)⟩

theorem Dev.Given.of_keep {ps : List Part} (h : Keep ps d e) (hc : .cores ∉ ps) : d.Given e := .of_cores (h.cores.resolve_left hc)

theorem Dev.Given.stream (h : d.Given e) (i : Nat) : e.stream i = d.stream i := by
  unfold Dev.stream
  rw [h.cores]

/-- A task that waits is given to a core that can take it. -/
theorem Dev.giveTask_given {k n : Nat} (h : (d.coreAt k).able = true) : d.Given (d.giveTask k n) := by
  refine ⟨rfl, fun c => ?_⟩
  by_cases hc : c = BitVec.ofNat 4 k
  · have hcore : (d.giveTask k n).core c =
        { d.core c with stack := n :: (d.core c).stack, csr := Tbl.modify (0 : BitVec 64) (d.core c).csr 0x344 (· ||| 0x800) } := by
      rw [hc]
      exact Dev.core_modCore_same ..
    rw [hcore]
    refine ⟨rfl, fun i hi => Tbl.get_set_other _ _ _ _ _ hi, .inr (Tbl.get_set_same ..), fun hs => (by cases hs), fun hs => ?_⟩
    rw [hc] at hs
    exact absurd (hs.symm.trans h) Bool.false_ne_true
  · have hcore : (d.giveTask k n).core c = d.core c := (d.setPhase n .running).core_modCore_other hc _
    rw [hcore]
    exact .refl _

theorem Dev.ableCores_able {t : BitVec 8} {k : Nat} (h : k ∈ d.ableCores t) : (d.coreAt k).able = true := (List.mem_filter.1 h).2

/-- The task that goes first is one of them. -/
theorem Dev.firstTask_mem {l : List Task} {t : Task} (h : d.firstTask l = some t) : t ∈ l := by
  have hfold : ∀ (l : List Task) (a : Option Task), l.foldl (fun acc t => match acc with
      | none => some t | some a => if d.goesFirst t a then some t else some a) a = some t → t ∈ l ∨ a = some t := by
    intro l
    induction l with
    | nil => exact fun a ha => .inr ha
    | cons x l ih =>
      intro a ha
      rw [List.foldl_cons] at ha
      rcases ih _ ha with hl | hx
      · exact .inl (List.mem_cons_of_mem _ hl)
      · cases a with
        | none => exact .inl (Option.some.inj hx ▸ List.mem_cons_self)
        | some a =>
          dsimp only at hx
          split at hx
          · exact .inl (Option.some.inj hx ▸ List.mem_cons_self)
          · exact .inr hx
  exact (hfold l none h).resolve_right nofun

/-- What every gift of a task keeps, dispatching keeps. -/
theorem Dev.dispatch_induct {P : Dev → Prop} (hgive : ∀ (x : Dev) (k : Nat) (t : Task), P x → t ∈ x.pendingTasks → k ∈ x.ableCores t.tclass →
    P (x.giveTask k t.entry)) (n : Nat) (h : P d) : P (Dev.dispatch n d) := by
  induction n generalizing d with
  | zero => exact h
  | succ n ih =>
    unfold Dev.dispatch
    dsimp only
    split
    · exact h
    · next t ht =>
      split
      · exact h
      · next k hk =>
        have hidle := List.mem_filter.1 (List.mem_of_mem_head? hk)
        exact ih (hgive d k t h (List.mem_filter.1 (Dev.firstTask_mem ht)).1 hidle.1)

theorem Dev.dispatchAll_given (d : Dev) : d.Given d.dispatchAll :=
  Dev.dispatch_induct (P := d.Given) (fun _ _ _ h _ hk => h.trans (Dev.giveTask_given (Dev.ableCores_able hk))) _ (.refl d)

/-- No task waits, none is given. -/
theorem Dev.dispatchAll_of_none (h : ∀ t ∈ d.sched.tasks, t.phase ≠ .pending) : d.dispatchAll = d := by
  have hpending : d.pendingTasks = [] := List.filter_eq_nil_iff.2 fun t ht hp => h t ht (by simpa using hp)
  unfold Dev.dispatchAll
  cases d.sched.tasks.length with
  | zero => rfl
  | succ n =>
    unfold Dev.dispatch
    rw [hpending]
    rfl

theorem Dev.victim_able {t : Task} {k : Nat} (h : d.victim t = some k) : (d.coreAt k).able = true := by
  have hfold : ∀ (l : List Nat) (a : Option Nat), l.foldl (fun acc c => match acc with
      | none => some c | some a => if d.runningDeadline a ≤ d.runningDeadline c then some c else some a) a = some k → k ∈ l ∨ a = some k := by
    intro l
    induction l with
    | nil => exact fun a ha => .inr ha
    | cons x l ih =>
      intro a ha
      rw [List.foldl_cons] at ha
      rcases ih _ ha with hl | hx
      · exact .inl (List.mem_cons_of_mem _ hl)
      · cases a with
        | none => exact .inl (Option.some.inj hx ▸ List.mem_cons_self)
        | some a =>
          dsimp only at hx
          split at hx
          · exact .inl (Option.some.inj hx ▸ List.mem_cons_self)
          · exact .inr hx
  unfold Dev.victim at h
  dsimp only at h
  split at h
  · cases h
  · exact Dev.ableCores_able ((hfold _ none h).resolve_right nofun)

/-- A pre-emption suspends what a core that can take tasks runs, and gives it the task (R378). -/
theorem Dev.preempt_cases (d : Dev) (n : Nat) : d.preempt n = d ∨ ∃ (x : Dev) (k : Nat),
    (x = d ∨ ∃ r, x = d.setPhase r .suspended) ∧ (d.coreAt k).able = true ∧ d.preempt n = (x.giveTask k n).countSched 2 := by
  unfold Dev.preempt
  split
  · exact .inl rfl
  · split
    · exact .inl rfl
    · next k hk =>
      dsimp only
      split
      · refine .inr ⟨_, k, ?_, Dev.victim_able hk, rfl⟩
        split
        · exact .inr ⟨_, rfl⟩
        · exact .inl rfl
      · exact .inl rfl

theorem Dev.preempt_given (d : Dev) (n : Nat) : d.Given (d.preempt n) := by
  rcases d.preempt_cases n with h | ⟨x, k, hx, hk, h⟩
  · rw [h]
    exact .refl d
  · have hcores : x.cores = d.cores := by
      rcases hx with rfl | ⟨r, rfl⟩ <;> rfl
    have hable : (x.coreAt k).able = true := by
      unfold Dev.coreAt Dev.core at hk ⊢
      rwa [hcores]
    rw [h]
    exact ((Dev.Given.of_cores hcores).trans (Dev.giveTask_given hable)).trans (.of_cores rfl)

theorem Dev.reheldAll_given (d : Dev) : d.Given d.reheldAll := .of_keep (Dev.reheldAll_keep (.refl [.events, .rings] _) (by decide) (by decide)) (by decide)

theorem Dev.modSched_given (d : Dev) (f : Sched → Sched) : d.Given (d.modSched f) := .of_cores rfl

theorem Dev.placeTask_given {src : TaskSource} {tclass : BitVec 8} {arg : BitVec 64} {due : Due} (h : d.placeTask src tclass arg due = some e) :
    d.Given e := by
  unfold Dev.placeTask at h
  split at h
  · cases h
    exact .of_cores rfl
  · split at h
    · cases h
    · cases h
      exact (((d.modSched_given _).trans (Dev.dispatchAll_given _)).trans (Dev.preempt_given ..)).trans (Dev.reheldAll_given _)

theorem Dev.setLate_given (d : Dev) (src : TaskSource) (late : Bool) : d.Given (d.setLate src late) := by
  unfold Dev.setLate
  split <;> exact .of_cores rfl

theorem Dev.newTask_given (d : Dev) (src : TaskSource) (tclass : BitVec 8) (arg : BitVec 64) (due : Due) (ts : Nat) :
    d.Given (d.newTask src tclass arg due ts) := by
  unfold Dev.newTask
  split
  · next h => exact Dev.placeTask_given h
  · have hwait : d.Given ((d.modSched fun s => { s with waiting := s.waiting ++ [{ source := src, tclass, arg, due, ts }] }).setLate src true) :=
      (d.modSched_given _).trans (Dev.setLate_given ..)
    dsimp only
    split
    · exact hwait
    · exact hwait.trans (Dev.modSched_given ..)

theorem Dev.refill_given (n : Nat) (d : Dev) : d.Given (Dev.refill n d) := by
  induction n generalizing d with
  | zero => exact .refl d
  | succ n ih =>
    unfold Dev.refill
    dsimp only
    split
    · exact .refl d
    · next h _ =>
      have htaken (late : Bool) : d.Given (if late = true then d.modSched fun s => { s with waiting := s.waiting.erase h }
          else (d.modSched fun s => { s with waiting := s.waiting.erase h }).setLate h.source false) := by
        split
        · exact d.modSched_given _
        · exact (d.modSched_given _).trans (Dev.setLate_given ..)
      split
      · next hp => exact ((htaken _).trans (Dev.placeTask_given hp)).trans (ih _)
      · exact htaken _

theorem Dev.refillAll_given (d : Dev) : d.Given d.refillAll := Dev.refill_given _ d

/-- No occurrence waits, none is placed. -/
theorem Dev.refillAll_of_none (h : d.sched.waiting = []) : d.refillAll = d := by
  unfold Dev.refillAll
  rw [h]
  rfl

end

-- what dispatching changes of the tasks (R377)

/-- A task but for its phase. -/
def Task.unphased (t : Task) : Task := { t with phase := .pending }

/-- Of the scheduler phases of tasks alone have changed, and its counters. -/
structure Dev.Rephased (d e : Dev) : Prop where
  tasks : e.sched.tasks.map Task.unphased = d.sched.tasks.map Task.unphased
  rest : e.sched = { d.sched with tasks := e.sched.tasks, cnt := e.sched.cnt }

section
variable {c d e : Dev}

theorem Dev.Rephased.of_sched (h : e.sched = d.sched) : d.Rephased e := ⟨by rw [h], by rw [h]⟩

theorem Dev.Rephased.refl (d : Dev) : d.Rephased d := .of_sched rfl

theorem Dev.Rephased.trans (h : c.Rephased d) (h' : d.Rephased e) : c.Rephased e :=
  ⟨h'.tasks.trans h.tasks, h'.rest.trans (congrArg (fun k : Sched => { k with tasks := e.sched.tasks, cnt := e.sched.cnt }) h.rest)⟩

theorem Dev.setPhase_rephased (d : Dev) (n : Nat) (p : TaskPhase) : d.Rephased (d.setPhase n p) := by
  refine ⟨?_, rfl⟩
  refine (List.map_map ..).trans (List.map_congr_left fun t _ => ?_)
  show Task.unphased (if t.entry = n then _ else t) = _
  split <;> rfl

theorem Dev.giveTask_rephased (d : Dev) (k n : Nat) : d.Rephased (d.giveTask k n) := (d.setPhase_rephased n .running).trans (.of_sched rfl)

theorem Dev.dispatchAll_rephased (d : Dev) : d.Rephased d.dispatchAll :=
  Dev.dispatch_induct (P := d.Rephased) (fun _ _ _ h _ _ => h.trans (Dev.giveTask_rephased ..)) _ (.refl d)

theorem Dev.countSched_rephased (d : Dev) (n : Nat) : d.Rephased (d.countSched n) := ⟨rfl, rfl⟩

theorem Dev.preempt_rephased (d : Dev) (n : Nat) : d.Rephased (d.preempt n) := by
  rcases d.preempt_cases n with h | ⟨x, k, hx, -, h⟩
  · rw [h]
    exact .refl d
  · have hphase : d.Rephased x := by
      rcases hx with rfl | ⟨r, rfl⟩
      · exact .refl _
      · exact Dev.setPhase_rephased ..
    rw [h]
    exact (hphase.trans (Dev.giveTask_rephased ..)).trans (Dev.countSched_rephased ..)

theorem Dev.reheldAll_rephased (d : Dev) : d.Rephased d.reheldAll :=
  .of_sched ((Dev.reheldAll_keep (.refl [.events, .rings] d) (by decide) (by decide)).sched.resolve_left (by decide))

/-- A task that has been there is still there, in some phase, and no other is. -/
theorem Dev.Rephased.mem (h : d.Rephased e) {t : Task} (ht : t ∈ d.sched.tasks) : ∃ t' ∈ e.sched.tasks, t'.unphased = t.unphased := by
  have hmem : t.unphased ∈ e.sched.tasks.map Task.unphased := h.tasks ▸ List.mem_map_of_mem ht
  obtain ⟨t', ht', heq⟩ := List.mem_map.1 hmem
  exact ⟨t', ht', heq⟩

theorem Dev.Rephased.symm_mem (h : d.Rephased e) {t : Task} (ht : t ∈ e.sched.tasks) : ∃ t' ∈ d.sched.tasks, t'.unphased = t.unphased := by
  have hmem : t.unphased ∈ d.sched.tasks.map Task.unphased := h.tasks ▸ List.mem_map_of_mem ht
  obtain ⟨t', ht', heq⟩ := List.mem_map.1 hmem
  exact ⟨t', ht', heq⟩

end

end Sys2Proof.Machine
end

section
/-! O42: firmware and customer cores start -/

namespace Sys2Proof.Machine
open Sys2Proof

-- firmware (R372)

/-- A command completes with what its effect leaves, of the parts that its frame names. -/
theorem completes_framed {c : Instr} {s : State} {f : Dev → Dev} {d : Dev} {Q : Dev → Prop} (hc : exec c s = run true f s) (hf : f s.dev = d) (hQ : Q d) :
    Completes c s c.parts Q := by
  have hexec : exec c s = .next { s with dev := d } := hc.trans (hf ▸ rfl)
  exact ⟨d, hexec, (exec_next hexec).1.only, hQ⟩

theorem Dev.firmwareReady_eq {d : Dev} (hsb : d.cores.sb = .loading) (hp : d.cores.pendingFw.isSome = true) :
    d.firmwareReady = { d with cores := { d.cores with sb := .ready, handover := true } } := if_pos ⟨hsb, hp⟩

/-- The second that READY may take has passed (R372). -/
def Dev.overdue (d : Dev) (e : RetEntry) : Dev := match e.ready with | some t => d.reach (t + 10 ^ 9 * ns) | none => d

theorem Dev.overdue_eq (d : Dev) (e : RetEntry) : d.overdue e = { d with now := match e.ready with | some t => max d.now (t + 10 ^ 9 * ns) | none => d.now } := by
  unfold Dev.overdue
  cases e.ready with
  | none => rfl
  | some t => exact Dev.reach_eq ..

theorem Dev.fwStartTimeout_eq {d : Dev} {ho : Handover} {e : RetEntry} (hp : d.cores.pendingFw = some ho) (hh : d.cores.handover = false)
    (he : d.entry? ho.desc = some e) :
    d.fwStartTimeout = ((d.overdue e).modCores Cores.reloadStandby).finish ho.desc 0x22 7 headFrame ho.slot.toNat := by
  unfold Dev.fwStartTimeout
  rw [hp]
  dsimp only
  rw [hh, he]
  rfl

theorem Dev.timeout_shown {d : Dev} {x : DescRef} {e : RetEntry} (h : OpenDesc d x e) (slot : Nat) :
    let d' := ((d.overdue e).modCores Cores.reloadStandby).finish x 0x22 7 headFrame slot
    CompletedWith d' x { seq := e.seq, status := 0x22, detail := 7, opcode := descOpcode e.desc, info0 := headFrame, info1 := slot, beat := d.time.n } ∧
      d'.now = (match e.ready with | some t => max d.now (t + 10 ^ 9 * ns) | none => d.now) ∧ d'.cores = d.cores.reloadStandby := by
  intro d'
  have hopen : OpenDesc ((d.overdue e).modCores Cores.reloadStandby) x e := by
    rw [Dev.overdue_eq]
    exact openDesc_same h rfl rfl
  have hk := Dev.finish_keep (ps := [.out, .events, .link, .rings, .sched]) (.refl _ ((d.overdue e).modCores Cores.reloadStandby))
    (by decide) (by decide) (by decide) (by decide) (by decide) x 0x22 7 headFrame slot none
  have hdone := Dev.finish_completed hopen.windows hopen.entry hopen.unfinished hopen.free 0x22 7 headFrame slot none
  have htime : ((d.overdue e).modCores Cores.reloadStandby).time = d.time := by rw [Dev.overdue_eq]; rfl
  rw [htime] at hdone
  refine ⟨hdone, (hk.now.resolve_left (by decide)).trans ?_, (hk.cores.resolve_left (by decide)).trans ?_⟩ <;> rw [Dev.overdue_eq] <;> rfl

-- customer cores (R369)

section
variable {d : Dev} {c : BitVec 4}

/-- A core that starts at its boot address (R369). -/
def Core.started (x : Core) (now : Instant) : Core :=
  { x with run := true, phase := .run, x := [], csr := [], pc := x.boot.setWidth 64, machineMode := true, mcycle := 0, wdogSince := now, postArg := 0,
           postDl := 0 }

/-- What the start of a core changes: it, and its trace stream. -/
theorem Dev.startCore_shown (d : Dev) (c : BitVec 4) : (d.startCore c).core c = (d.core c).started d.now ∧
    (∀ i, i ≠ c → (d.startCore c).core i = d.core i) ∧ (d.startCore c).strong.measures = d.strong.measures := by
  have hmod : ∀ e : Dev, (d.modCore c (·.started d.now)).Streamed c.toNat e → e.core c = (d.core c).started d.now ∧
      (∀ i, i ≠ c → e.core i = d.core i) ∧ e.strong.measures = d.strong.measures := fun e he =>
    ⟨(he.core c).trans (d.core_modCore_same ..), fun i hi => (he.core i).trans (d.core_modCore_other hi _), he.measures⟩
  refine hmod _ ?_
  unfold Dev.startCore
  dsimp only
  split
  · exact (Dev.setStream_streamed ..).trans (Dev.sync_streamed ..)
  · exact .refl _ _

theorem mem_insertMeasure (m : Measure) (l : List Measure) : m ∈ insertMeasure m l := by
  induction l with
  | nil => exact List.mem_singleton_self m
  | cons x l ih =>
    unfold insertMeasure
    split
    · exact List.mem_cons_self
    · split
      · exact List.mem_cons_self
      · exact List.mem_cons_of_mem _ ih

theorem Dev.measureCore_shown (d : Dev) (c : BitVec 4) : ∃ h, (d.measureCore c).core c = { d.core c with measurement := h } ∧
    ∃ m ∈ (d.measureCore c).strong.measures, m.kind = 6 ∧ m.index = c.toNat ∧ m.hash = h := by
  exact ⟨sha3 (Memory.readN (d.core c).tcm 0 (256 * 1024)), d.core_setCore_same c _, _, mem_insertMeasure _ _, rfl, rfl, rfl⟩

/-- The core as a write of CCORE_CFG configures it while it is held (R407). -/
def Core.configured (x : Core) (v : Word) : Core := { x with view := v.extractLsb' 24 6, queue := v.extractLsb' 0 9 }

theorem ofNat_low_eq {k : Nat} (v : BitVec k) (n : Nat) : BitVec.ofNat n v.toNat = v.extractLsb' 0 n := by
  refine BitVec.eq_of_toNat_eq ?_
  rw [BitVec.toNat_ofNat, BitVec.extractLsb'_toNat, Nat.shiftRight_zero]

theorem Dev.writeCoreCfg_start {v : Word} (hc : 4 ≤ c.toNat) (hv : v.getLsbD 31 = true) (hr : (d.core c).run = false) :
    d.writeCoreCfg c v = (((d.setCore c ((d.core c).configured v)).measureCore c).startCore c).refillAll.dispatchAll := by
  have h31 : bitOf v.toNat 31 = true := hv
  unfold Dev.writeCoreCfg
  dsimp only
  rw [if_neg (by omega : ¬ c.toNat < 4), if_neg (c := bitOf v.toNat 31 = (d.core c).run) (by rw [h31, hr]; exact Bool.false_ne_true.symm),
    if_pos (c := bitOf v.toNat 31 = true) h31, if_neg (c := (d.core c).run = true) (by rw [hr]; exact Bool.false_ne_true), ofNat_fld_eq, ofNat_low_eq]
  rfl

theorem Dev.writeCoreCfg_hold {v : Word} (hc : 4 ≤ c.toNat) (hv : v.getLsbD 31 = false) (hr : (d.core c).run = true) :
    d.writeCoreCfg c v = ((d.modCore c fun x => { x with run := false, phase := .held }).abandon c).unmeasure 6 c.toNat := by
  have h31 : bitOf v.toNat 31 = false := hv
  unfold Dev.writeCoreCfg
  dsimp only
  rw [if_neg (by omega), h31, hr, if_pos rfl, if_neg Bool.false_ne_true, if_neg Bool.false_ne_true]

/-- A core measured and started with no task anywhere. -/
theorem Dev.coreStarted_shown (h : d.sched.tasks = []) (hw : d.sched.waiting = []) :
    let e := ((d.measureCore c).startCore c).refillAll.dispatchAll
    ∃ h, e.core c = { (d.core c).started d.now with measurement := h } ∧ ∃ m ∈ e.strong.measures, m.kind = 6 ∧ m.index = c.toNat ∧ m.hash = h := by
  intro e
  have hk : Keep [.free, .events, .cellar, .cores, .strong] d ((d.measureCore c).startCore c) := by
    apply Dev.startCore_keep
    case h => apply Dev.measureCore_keep (.refl _ _) <;> exact listed rfl
    all_goals exact listed rfl
  have hsched := hk.sched.resolve_left (by decide)
  have he : e = (d.measureCore c).startCore c := by
    show Dev.dispatchAll (Dev.refillAll _) = _
    rw [Dev.refillAll_of_none (by rw [hsched, hw]), Dev.dispatchAll_of_none (by rw [hsched, h]; exact fun _ ht => nomatch ht)]
  obtain ⟨x, hcore, m, hm, hkind⟩ := d.measureCore_shown c
  obtain ⟨hstarted, -, hmeasures⟩ := (d.measureCore c).startCore_shown c
  rw [he]
  refine ⟨x, ?_, m, hmeasures ▸ hm, hkind⟩
  rw [hstarted, hcore]
  rfl

-- tasks that are abandoned (R383)

/-- The tasks of some entries are gone, counted as abandoned. -/
def Dev.abandoned (d : Dev) (ts : List Task) : Dev := d.each ts fun d t => (d.freeTask t.entry).countSched 3

theorem Dev.abandoned_shown (d : Dev) (ts : List Task) : (d.abandoned ts).cores = d.cores ∧ (d.abandoned ts).sched.waiting = d.sched.waiting ∧
    ∀ t, t ∈ (d.abandoned ts).sched.tasks ↔ t ∈ d.sched.tasks ∧ ∀ u ∈ ts, t.entry ≠ u.entry := by
  unfold Dev.abandoned Dev.each
  induction ts generalizing d with
  | nil => exact ⟨rfl, rfl, fun t => by simp⟩
  | cons u ts ih =>
    rw [List.foldl_cons]
    obtain ⟨hcores, hwaiting, htasks⟩ := ih ((d.freeTask u.entry).countSched 3)
    refine ⟨hcores, hwaiting, fun t => ?_⟩
    have hfree : t ∈ ((d.freeTask u.entry).countSched 3).sched.tasks ↔ t ∈ d.sched.tasks ∧ t.entry ≠ u.entry := by
      refine List.mem_filter.trans ?_
      simp
    rw [htasks, hfree, List.forall_mem_cons, and_assoc]

theorem Dev.abandon_eq (h : ∀ t ∈ (d.core c).stack.filterMap d.task?, ∀ ev, t.source ≠ .event ev) :
    d.abandon c = ((d.modCore c fun x => { x with stack := [] }).abandoned ((d.core c).stack.filterMap d.task?)).refillAll.dispatchAll.reheldAll := by
  unfold Dev.abandon
  refine congrArg (fun e : Dev => e.refillAll.dispatchAll.reheldAll) (Dev.each_fixed fun t ht => ?_)
  have hsrc := h t ht
  split
  · next ev hev => exact absurd hev (hsrc ev)
  · rfl

end

theorem Core.able_of_held {x : Core} (h : x.phase = .held) : x.able = false := by
  unfold Core.able
  rw [h]
  rfl

theorem Dev.unmeasured {d : Dev} {kind index : Nat} {m : Measure} (h : m ∈ (d.unmeasure kind index).strong.measures) :
    ¬ (m.kind = kind ∧ m.index = index) := by
  have hm : m ∈ d.strong.measures.filter fun m => !(m.kind == kind && m.index == index) := h
  have hkeep := (List.mem_filter.1 hm).2
  rintro ⟨rfl, rfl⟩
  simp at hkeep

/-- A customer core that is held: no task of its stack is left (R383). -/
theorem Dev.coreHeld_shown {d : Dev} {c : BitVec 4} (hw : d.sched.waiting = [])
    (hev : ∀ t ∈ d.sched.tasks, t.entry ∈ (d.core c).stack → ∀ ev, t.source ≠ .event ev) :
    let e := ((d.modCore c fun x => { x with run := false, phase := .held }).abandon c).unmeasure 6 c.toNat
    e.core c = { d.core c with run := false, phase := .held, stack := [] } ∧ (∀ t ∈ e.sched.tasks, t.entry ∉ (d.core c).stack) ∧
      ∀ m ∈ e.strong.measures, ¬ (m.kind = 6 ∧ m.index = c.toNat) := by
  intro e
  let d1 := d.modCore c fun x => { x with run := false, phase := .held }
  let ts := (d1.core c).stack.filterMap d1.task?
  have hcore1 : d1.core c = { d.core c with run := false, phase := .held } := d.core_modCore_same ..
  have hstack : (d1.core c).stack = (d.core c).stack := by rw [hcore1]
  have hts (t : Task) (ht : t ∈ ts) : t ∈ d.sched.tasks ∧ t.entry ∈ (d.core c).stack := by
    obtain ⟨n, hn, htask⟩ := List.mem_filterMap.1 ht
    have hentry : t.entry = n := by simpa using List.find?_some htask
    exact ⟨List.mem_of_find?_eq_some htask, hentry ▸ hstack ▸ hn⟩
  have habandon := Dev.abandon_eq (d := d1) (c := c) fun t ht => hev t (hts t ht).1 (hts t ht).2
  obtain ⟨hcores, hwaiting, htasks⟩ := (d1.modCore c fun x => { x with stack := [] }).abandoned_shown ts
  rw [Dev.refillAll_of_none (hwaiting.trans hw)] at habandon
  generalize hfreed : (d1.modCore c fun x => { x with stack := [] }).abandoned ts = freed at habandon hcores hwaiting htasks
  have hfree : freed.core c = { d.core c with run := false, phase := .held, stack := [] } := by
    unfold Dev.core
    rw [hcores]
    refine (d1.core_modCore_same c _).trans ?_
    rw [hcore1]
    rfl
  have hgiven := (freed.dispatchAll_given.trans (Dev.reheldAll_given _)).core c
  have hphases := freed.dispatchAll_rephased.trans (Dev.reheldAll_rephased _)
  have he : e = (freed.dispatchAll.reheldAll).unmeasure 6 c.toNat := congrArg (·.unmeasure 6 c.toNat) habandon
  refine ⟨?_, fun t ht hin => ?_, fun m hm => Dev.unmeasured (he ▸ hm)⟩
  · rw [he]
    exact (hgiven.held (Core.able_of_held (congrArg Core.phase hfree))).trans hfree
  · rw [he] at ht
    obtain ⟨u, hu, hsame⟩ := hphases.symm_mem (t := t) ht
    have hentry : u.entry = t.entry := (congrArg Task.entry hsame :)
    obtain ⟨hud, hune⟩ := (htasks u).1 hu
    obtain ⟨w, hw⟩ : ∃ w, d1.task? t.entry = some w := Option.isSome_iff_exists.1 (List.find?_isSome.2 ⟨u, hud, by simp [hentry]⟩)
    have hwe : w.entry = t.entry := by simpa using List.find?_some hw
    exact hune w (List.mem_filterMap.2 ⟨t.entry, hstack ▸ hin, hw⟩) (hentry.trans hwe.symm)

/-- An access of CCORE_LDD while the core is held (R369). -/
theorem Dev.accessLdd_held {d : Dev} {c : BitVec 4} (hr : (d.core c).run = false) (hc : 4 ≤ c.toNat) (write : Option Word) :
    d.accessLdd c write = (d.setCore c { d.core c with
        tcm := match write with | some w => Memory.writeN (d.core c).tcm (d.core c).lda.toNat (leBytes 4 w.toNat) | none => (d.core c).tcm
        lda := (d.core c).lda + 4 },
      match write with | some _ => 0 | none => BitVec.ofNat 32 (Memory.readLe (d.core c).tcm (d.core c).lda.toNat 4)) :=
  if_neg (by rw [hr]; simpa using hc)

theorem Dev.coreLoadData_read {d : Dev} {q : Requester} {c : BitVec 4} (hq : d.isPf q = true) (hr : (d.core c).run = false) (hc : 4 ≤ c.toNat) :
    Dev.coreLoadData q c none d = (d.setCore c { d.core c with lda := (d.core c).lda + 4 }).emit
      (.read q (BitVec.ofNat 32 (Memory.readLe (d.core c).tcm (d.core c).lda.toNat 4))) := by
  unfold Dev.coreLoadData
  dsimp only
  rw [if_pos hq, Dev.accessLdd_held hr hc]

/-- Settles O42: the standby pair's READY and its time-out; a customer core is measured and started, or held with its tasks abandoned, as CCORE_CFG
says. -/
theorem firmwareAndCoresStart : Obligations.FirmwareAndCoresStart := by
  intro s k
  refine ⟨fun hsb hp => ?ready, fun ho e hp hh he => ?timeout, fun q c v hq hc => ⟨fun hv hr ht hw => ?start, fun hv hr hw hev => ?hold, fun hr => ?data⟩⟩
  case ready => exact completes_of_run (f := Dev.firmwareReady) rfl (Dev.firmwareReady_eq hsb hp) (Keep.upd_cores (.refl _ _) (by decide)) rfl
  case timeout =>
    have hrun := Dev.fwStartTimeout_eq hp hh he.entry
    obtain ⟨hdone, hnow, hcores⟩ := Dev.timeout_shown (d := s.dev) he ho.slot.toNat
    refine completes_of_run (f := Dev.fwStartTimeout) rfl hrun ?_ ⟨hnow, hcores.trans ?_, hdone⟩
    · rw [← hrun]
      apply Dev.fwStartTimeout_keep (.refl _ _) <;> exact listed rfl
    · rfl
  case start =>
    have hcfg : s.dev.writeCoreCfg c v = _ := Dev.writeCoreCfg_start hc hv hr
    obtain ⟨h, hcore, hm⟩ := Dev.coreStarted_shown (d := s.dev.setCore c ((s.dev.core c).configured v)) (c := c) ht hw
    refine completes_framed (f := fun d => if d.isPf q ∧ bitOf v.toNat 31 then d.writeCoreCfg c v else d) rfl ((if_pos ⟨hq, hv⟩).trans hcfg)
      ⟨h, hcore.trans ?_, hm⟩
    rw [Dev.core_setCore_same]
    rfl
  case hold =>
    have hcfg : s.dev.writeCoreCfg c v = _ := Dev.writeCoreCfg_hold hc hv hr
    have hv' : (!bitOf v.toNat 31) = true := by rw [show bitOf v.toNat 31 = false from hv]; rfl
    obtain ⟨hcore, htasks, hm⟩ := Dev.coreHeld_shown hw hev
    refine completes_framed (f := fun d => if d.isPf q ∧ !bitOf v.toNat 31 then d.writeCoreCfg c v else d) rfl ((if_pos ⟨hq, hv'⟩).trans hcfg) ?_
    exact ⟨by rw [hcore], by rw [hcore], by rw [hcore], htasks, hm⟩
  case data =>
    refine ⟨fun w => ?_, ?_⟩
    · exact completes_of_run (f := Dev.coreLoadData q c (some w)) rfl ((if_pos hq).trans (congrArg Prod.fst (Dev.accessLdd_held hr hc (some w))))
        (Dev.setCore_keep (.refl _ _) (by decide) c _) (s.dev.core_setCore_same c _)
    · refine completes_of_run (f := Dev.coreLoadData q c none) rfl (Dev.coreLoadData_read hq hr hc) ?_ ⟨s.dev.core_setCore_same c _, rfl⟩
      exact Dev.emit_keep (Dev.setCore_keep (.refl _ _) (by decide) c _) (by decide) _

end Sys2Proof.Machine
end

section
/-! O47: pairs stop and go on -/

namespace Sys2Proof.Machine
open Sys2Proof

-- what the posting of completions changes of a pair (R345, R360)

/-- An entry but for whether its completion has been posted. -/
def RetEntry.unposted (e : RetEntry) : RetEntry := { e with posted := false }

section
variable {d e : Dev} {k : BitVec 9}

theorem Dev.RingsStand.phase (h : d.RingsStand e) (k : BitVec 9) : (e.ring k).phase = (d.ring k).phase := (congrArg Ring.phase (h.position k) :)

theorem Dev.writeHost_ring (d : Dev) (a : BitVec 64) (bs : Bytes) (k : BitVec 9) : (d.writeHost a bs).ring k = d.ring k :=
  congrArg (fun t => Tbl.get ({} : Ring) t k.toNat) (Dev.writeHost_pairs d a bs)

theorem Dev.coalesce_window (d : Dev) (k : BitVec 9) : ((d.coalesce k).ring k).window = (d.ring k).window := by
  have hmsix (e : Dev) (fn : BitVec 6) (v : BitVec 11) : (e.msix fn v).ring k = e.ring k := by
    unfold Dev.ring
    rw [Dev.msix_rings]
  unfold Dev.coalesce
  dsimp only
  split
  · rw [hmsix, Dev.ring_setRing_same]
  · rfl

/-- The posting of a pair of this device leaves its entries but for what has been posted. -/
theorem Dev.postOne_window (h : (d.ring k).phase ≠ .mirror) (x : RetEntry) :
    ((d.postOne k x).ring k).window.map RetEntry.unposted = (d.ring k).window.map RetEntry.unposted := by
  unfold Dev.postOne
  dsimp only
  rw [if_neg h, Dev.coalesce_window, Dev.modRing, Dev.ring_setRing_same, Dev.writeHost_ring, List.map_map]
  refine List.map_congr_left fun y _ => ?_
  show RetEntry.unposted (if y.slot = x.slot then { y with posted := true } else y) = y.unposted
  split <;> rfl

theorem Dev.postOne_parts {ps : List Part} (hk : Keep ps e d) (hout : .out ∈ ps) (hevents : .events ∈ ps) (hrings : .rings ∈ ps) (hsched : .sched ∈ ps)
    (h : (d.ring k).phase ≠ .mirror) (x : RetEntry) : Keep ps e (d.postOne k x) := by
  unfold Dev.postOne
  dsimp only
  rw [if_neg h]
  refine Dev.coalesce_keep (Dev.modRing_keep (Dev.writeHost_keep hk hout hevents hrings _ _) hrings k _ ?_) hout hrings hsched k
  exact RingKept.mapped _ (fun y => by split <;> rfl) rfl

/-- What each posting of a pair of this device keeps, all keep. -/
theorem Dev.postRing_induct {P : Dev → Prop} (h : (d.ring k).phase ≠ .mirror) (hP : P d)
    (hf : ∀ (e : Dev) (x : RetEntry), (e.ring k).phase ≠ .mirror → P e → P (e.postOne k x)) : P (d.postRing k) := by
  have hboth : ((d.postRing k).ring k).phase ≠ .mirror ∧ P (d.postRing k) :=
    Dev.each_induct (P := fun e => (e.ring k).phase ≠ .mirror ∧ P e) ⟨h, hP⟩ fun e x he =>
      ⟨((Dev.postOne_ringsStand e k x).phase k).symm ▸ he.1, hf e x he.1 he.2⟩
  exact hboth.2

theorem Dev.postRing_window (h : (d.ring k).phase ≠ .mirror) :
    ((d.postRing k).ring k).window.map RetEntry.unposted = (d.ring k).window.map RetEntry.unposted :=
  Dev.postRing_induct (P := fun e => (e.ring k).window.map RetEntry.unposted = (d.ring k).window.map RetEntry.unposted) h rfl
    fun _ x he hP => (Dev.postOne_window he x).trans hP

theorem Dev.postRing_parts {ps : List Part} (hk : Keep ps e d) (hout : .out ∈ ps) (hevents : .events ∈ ps) (hrings : .rings ∈ ps) (hsched : .sched ∈ ps)
    (h : (d.ring k).phase ≠ .mirror) : Keep ps e (d.postRing k) :=
  Dev.postRing_induct h hk fun _ x hx hP => Dev.postOne_parts hP hout hevents hrings hsched hx x

theorem Dev.coalesce_out {o : Output} (ho : o ∈ d.out) : o ∈ (d.coalesce k).out := by
  unfold Dev.coalesce Dev.msix
  dsimp only
  split
  · split
    · exact ho
    · exact List.mem_cons_of_mem _ ho
  · exact ho

theorem Dev.writeHost_out {a : BitVec 64} {bs : Bytes} {o : Output} (ho : o ∈ d.out) : o ∈ (d.writeHost a bs).out := by
  unfold Dev.writeHost
  split
  · exact List.mem_cons_of_mem _ ho
  · exact ho

/-- A completion that is posted while the link is up has been written to the host. -/
theorem Dev.postOne_writes (h : (d.ring k).phase ≠ .mirror) (hup : d.rings.linkUp = true) (x : RetEntry) :
    Output.hostWrite ((d.ring k).cqbase + BitVec.ofNat 64 (32 * x.slot)) (recordBytes x.record x.par) ∈ (d.postOne k x).out := by
  unfold Dev.postOne
  dsimp only
  rw [if_neg h, Dev.writeHost, if_pos hup]
  exact Dev.coalesce_out List.mem_cons_self

theorem Dev.postOne_out (h : (d.ring k).phase ≠ .mirror) (x : RetEntry) {o : Output} (ho : o ∈ d.out) : o ∈ (d.postOne k x).out := by
  unfold Dev.postOne
  dsimp only
  rw [if_neg h]
  exact Dev.coalesce_out (Dev.writeHost_out ho)

/-- Every completion that can be posted is written to the host. -/
theorem Dev.postRing_writes (h : (d.ring k).phase ≠ .mirror) (hup : d.rings.linkUp = true) {x : RetEntry}
    (hx : x ∈ postable (d.awaits k) (d.ring k).window) :
    Output.hostWrite ((d.ring k).cqbase + BitVec.ofNat 64 (32 * x.slot)) (recordBytes x.record x.par) ∈ (d.postRing k).out := by
  unfold Dev.postRing Dev.each
  generalize postable (d.awaits k) (d.ring k).window = l at hx
  have hkeeps : ∀ (l : List RetEntry) (e : Dev) (o : Output), (e.ring k).phase ≠ .mirror → o ∈ e.out → o ∈ (l.foldl (fun d x => d.postOne k x) e).out := by
    intro l
    induction l with
    | nil => exact fun _ _ _ ho => ho
    | cons y l ih => exact fun e o he ho => ih _ o ((Dev.postOne_ringsStand e k y).phase k ▸ he) (Dev.postOne_out he y ho)
  induction l generalizing d with
  | nil => cases hx
  | cons y l ih =>
    have hstand := Dev.postOne_ringsStand d k y
    rw [List.foldl_cons]
    rcases List.mem_cons.1 hx with rfl | hx
    · exact hkeeps l _ _ (hstand.phase k ▸ h) (Dev.postOne_writes h hup _)
    · have hbase : ((d.postOne k y).ring k).cqbase = (d.ring k).cqbase := (congrArg Ring.cqbase (hstand.position k) :)
      rw [← hbase]
      exact ih (hstand.phase k ▸ h) (hstand.linkUp.trans hup) hx

/-- While nothing is awaited and nothing has been posted, the completed entries at the front can be posted. -/
theorem postable_fresh (w : List RetEntry) : postable (fun _ => false) (w.map RetEntry.unposted) =
    (w.takeWhile fun e => e.phase == .completed).map RetEntry.unposted := by
  induction w with
  | nil => rfl
  | cons e w ih =>
    rw [List.map_cons, postable, List.takeWhile_cons]
    by_cases he : e.phase = .completed
    · rw [if_neg (by simp [RetEntry.unposted, he]), if_neg (by simp [RetEntry.unposted]), if_pos (by simp [he]), List.map_cons, ih]
    · rw [if_pos (.inl he), if_neg (by simpa using he)]
      rfl

-- going back to the lowest accepted entry (R360)

/-- The lowest ACCEPTED entry of a pair. -/
def Ring.lowest (r : Ring) : Option RetEntry := r.window.find? fun e => e.accept && e.phase == .accepted

/-- A pair whose fetching goes back to its lowest ACCEPTED entry. -/
def Ring.rewound (r : Ring) : Ring :=
  match r.lowest with
  | some e => { r with fetch := BitVec.ofNat 12 e.slot, parity := e.par, stopped := false }
  | none => { r with stopped := false }

theorem Dev.ring_rewindPair (d : Dev) (k : BitVec 9) : (d.rewindPair k).ring k = ((d.postRing k).ring k).rewound := Dev.ring_setRing_same ..

theorem Ring.lowest_unposted {r r' : Ring} (h : r'.window.map RetEntry.unposted = r.window.map RetEntry.unposted) :
    r'.lowest.map RetEntry.unposted = r.lowest.map RetEntry.unposted := by
  have hmap (r : Ring) : r.lowest.map RetEntry.unposted = (r.window.map RetEntry.unposted).find? fun e => e.accept && e.phase == .accepted :=
    (List.find?_map (f := RetEntry.unposted) (p := fun e : RetEntry => e.accept && e.phase == .accepted) (l := r.window)).symm
  rw [hmap, hmap, h]

/-- Where a pair goes on. -/
def Ring.goesOn (r : Ring) : BitVec 12 × Bool := match r.lowest with | some e => (BitVec.ofNat 12 e.slot, e.par) | none => (r.fetch, r.parity)

theorem Ring.rewound_goesOn {r r' : Ring} (h : r'.window.map RetEntry.unposted = r.window.map RetEntry.unposted) (hp : r'.position = r.position) :
    (r'.rewound.fetch, r'.rewound.parity) = r.goesOn := by
  have hlow := Ring.lowest_unposted h
  unfold Ring.rewound Ring.goesOn
  cases hr : r.lowest with
  | none =>
    rw [hr] at hlow
    rw [Option.map_eq_none_iff.1 hlow]
    exact Prod.ext (congrArg Ring.fetch hp :) (congrArg Ring.parity hp :)
  | some e =>
    rw [hr] at hlow
    obtain ⟨e', he', hsame⟩ := Option.map_eq_some_iff.1 hlow
    rw [he']
    exact Prod.ext (congrArg (fun x : RetEntry => BitVec.ofNat 12 x.slot) hsame :) (congrArg RetEntry.par hsame :)

theorem Ring.rewound_stopped (r : Ring) : r.rewound.stopped = false := by
  unfold Ring.rewound
  split <;> rfl

theorem Ring.rewound_en (r : Ring) : r.rewound.en = r.en := by
  unfold Ring.rewound
  split <;> rfl

theorem Ring.rewound_nextseq (r : Ring) : r.rewound.nextseq = r.nextseq := by
  unfold Ring.rewound
  split <;> rfl

-- EN (R361, R366)

/-- The owner and size that a write of RINGS_PAIR_CFG gives a disabled pair. -/
def Ring.configured (r : Ring) (v : Word) : Ring := if r.en = true then r else { r with owner := v.extractLsb' 25 6, size := v.extractLsb' 16 4 }

/-- The owner may hold the pair (R366). -/
def Dev.MayOwn (d : Dev) (r : Ring) (o : BitVec 6) : Prop :=
  r.en = true ∨ o = 0 ∨ o = r.owner ∨ (d.rings.pairs.filter fun x => x.2.owner == o).length < 8

/-- The pair that a write of EN = 1 leaves, before it goes on. -/
def Dev.enabled (d : Dev) (k : BitVec 9) (v : Word) : Dev :=
  d.setRing k { (d.ring k).configured v with en := true, phase := if d.rings.recovering then .recover else .run }

section
variable {q : Requester} {v : Word} (hq : d.isPf q = true) (ho : d.MayOwn (d.ring k) (v.extractLsb' 25 6))
include hq ho

theorem Dev.writePairCfg_eq : d.writePairCfg q k v = if bitOf v.toNat 31 then
      (if (d.ring k).stopped then ((d.enabled k v).recoverPair k).raise 772 else d.enabled k v).reheld k
    else d.setRing k { (d.ring k).configured v with en := false, phase := if (d.ring k).phase = .mirror then .mirror else .off, held := 0 } := by
  have hcfg : (if (d.ring k).en = true ∨ (!d.isPf q) = true then d.ring k
      else { d.ring k with owner := v.extractLsb' 25 6, size := v.extractLsb' 16 4 }) = (d.ring k).configured v := by
    unfold Ring.configured
    rw [hq]
    simp only [Bool.not_true, Bool.false_eq_true, or_false]
  have hfull : ¬ ((!d.pairOk q k) = true ∨ d.isPf q = true ∧ (!(d.ring k).en) = true ∧ v.extractLsb' 25 6 ≠ 0 ∧ v.extractLsb' 25 6 ≠ (d.ring k).owner ∧
      8 ≤ (d.rings.pairs.filter fun x => x.2.owner == v.extractLsb' 25 6).length) := by
    unfold Dev.pairOk
    rw [hq]
    rintro (h | ⟨-, hen, h0, hown, h8⟩)
    · cases h
    · rcases ho with ho | ho | ho | ho
      · rw [ho] at hen
        cases hen
      · exact h0 ho
      · exact hown ho
      · omega
  unfold Dev.writePairCfg
  dsimp only
  rw [ofNat_fld_eq, ofNat_fld_eq, if_neg hfull, hcfg]
  rfl

end

section
variable {q : Requester} {v : Word} (hq : d.isPf q = true) (ho : d.MayOwn (d.ring k) (v.extractLsb' 25 6))
include hq ho

theorem Dev.writePairCfg_off (hv : v.getLsbD 31 = false) : d.writePairCfg q k v =
    d.setRing k { (d.ring k).configured v with en := false, phase := if (d.ring k).phase = .mirror then .mirror else .off, held := 0 } := by
  rw [Dev.writePairCfg_eq hq ho, if_neg]
  exact ne_true_of_eq_false hv

theorem Dev.writePairCfg_on (hv : v.getLsbD 31 = true) (hs : (d.ring k).stopped = false) : d.writePairCfg q k v = (d.enabled k v).reheld k := by
  rw [Dev.writePairCfg_eq hq ho, if_pos, if_neg (ne_true_of_eq_false hs)]
  exact hv

theorem Dev.writePairCfg_resumed (hv : v.getLsbD 31 = true) (hs : (d.ring k).stopped = true) :
    d.writePairCfg q k v = (((d.enabled k v).recoverPair k).raise 772).reheld k := by
  rw [Dev.writePairCfg_eq hq ho, if_pos, if_pos hs]
  exact hv

end

theorem Dev.recoverPair_ring (d : Dev) (k : BitVec 9) (h : (d.ring k).phase ≠ .mirror) :
    ∃ r : Ring, (d.recoverPair k).ring k = r.rewound ∧ r.position = (d.ring k).position ∧ r.window.map RetEntry.unposted = (d.ring k).window.map RetEntry.unposted := by
  have hagain : ((d.each ((d.ring k).window.filter (·.posted)) fun d e =>
      d.writeHost ((d.ring k).cqbase + BitVec.ofNat 64 (32 * e.slot)) (recordBytes e.record e.par)).ring k) = d.ring k :=
    Dev.each_induct (P := fun e => e.ring k = d.ring k) rfl fun e x he => (Dev.writeHost_ring ..).trans he
  unfold Dev.recoverPair
  dsimp only
  rw [Dev.ring_rewindPair]
  refine ⟨_, rfl, ?_, ?_⟩
  · rw [(Dev.postRing_ringsStand _ k).position k, hagain]
  · rw [Dev.postRing_window (by rw [hagain]; exact h), hagain]

theorem Dev.recoverPair_parts {ps : List Part} (hk : Keep ps e d) (hout : .out ∈ ps) (hevents : .events ∈ ps) (hrings : .rings ∈ ps) (hsched : .sched ∈ ps)
    (h : (d.ring k).phase ≠ .mirror) : Keep ps e (d.recoverPair k) := by
  have hagain : Keep ps e (d.each ((d.ring k).window.filter (·.posted)) fun d e =>
        d.writeHost ((d.ring k).cqbase + BitVec.ofNat 64 (32 * e.slot)) (recordBytes e.record e.par)) ∧
      (d.each ((d.ring k).window.filter (·.posted)) fun d e =>
        d.writeHost ((d.ring k).cqbase + BitVec.ofNat 64 (32 * e.slot)) (recordBytes e.record e.par)).ring k = d.ring k :=
    Dev.each_induct (P := fun x => Keep ps e x ∧ x.ring k = d.ring k) ⟨hk, rfl⟩ fun x y hx =>
      ⟨Dev.writeHost_keep hx.1 hout hevents hrings _ _, (Dev.writeHost_ring ..).trans hx.2⟩
  unfold Dev.recoverPair Dev.rewindPair
  dsimp only
  refine Dev.modRing_keep (Dev.postRing_parts hagain.1 hout hevents hrings hsched (by rw [hagain.2]; exact h)) hrings k _ ?_
  split <;> exact fun hw => hw

theorem Ring.configured_window (r : Ring) (v : Word) : (r.configured v).window = r.window := by
  unfold Ring.configured
  split <;> rfl

theorem Ring.configured_nextseq (r : Ring) (v : Word) : (r.configured v).nextseq = r.nextseq := by
  unfold Ring.configured
  split <;> rfl

theorem Ring.configured_goesOn (r : Ring) (v : Word) (phase : RingPhase) : ({ r.configured v with en := true, phase } : Ring).goesOn = r.goesOn := by
  unfold Ring.configured
  split <;> rfl

theorem Dev.configured_kept {v : Word} {r : Ring} (h : r.window = ((d.ring k).configured v).window) : RingKept (d.ring k) r := by
  intro hw
  rw [h, Ring.configured_window]
  exact hw

theorem Dev.enabled_ring (d : Dev) (k : BitVec 9) (v : Word) : (d.enabled k v).ring k =
    { (d.ring k).configured v with en := true, phase := if d.rings.recovering then .recover else .run } := Dev.ring_setRing_same ..

theorem Dev.enabled_phase (d : Dev) (k : BitVec 9) (v : Word) : ((d.enabled k v).ring k).phase ≠ .mirror := by
  rw [Dev.enabled_ring]
  dsimp only
  split <;> nofun

theorem Dev.enabled_keep {ps : List Part} (hk : Keep ps e d) (hrings : .rings ∈ ps) (k : BitVec 9) (v : Word) : Keep ps e (d.enabled k v) :=
  Dev.setRing_keep hk hrings k _ (Dev.configured_kept rfl)

/-- HELD alone follows the causes of a pause (R355). -/
theorem Dev.reheld_shown (d : Dev) (k : BitVec 9) : let y := (d.reheld k).ring k
    y.en = (d.ring k).en ∧ y.stopped = (d.ring k).stopped ∧ y.nextseq = (d.ring k).nextseq ∧ y.fetch = (d.ring k).fetch ∧ y.parity = (d.ring k).parity ∧
      y.phase = (d.ring k).phase := by
  rw [Dev.reheld_ring]
  exact ⟨rfl, rfl, rfl, rfl, rfl, rfl⟩

theorem Dev.ring_raise (d : Dev) (ev detail : Nat) (k : BitVec 9) : (d.raise ev detail).ring k = d.ring k := rfl

/-- The pair that EN brings back to its lowest ACCEPTED entry (R361). -/
theorem Dev.resumed_ring (d : Dev) (k : BitVec 9) (v : Word) :
    let y := ((((d.enabled k v).recoverPair k).raise 772).reheld k).ring k
    y.en = true ∧ y.stopped = false ∧ y.nextseq = (d.ring k).nextseq ∧ (y.fetch, y.parity) = (d.ring k).goesOn := by
  obtain ⟨r, hr, hpos, hwin⟩ := Dev.recoverPair_ring (d.enabled k v) k (d.enabled_phase k v)
  have hgo := Ring.rewound_goesOn hwin hpos
  rw [d.enabled_ring k v] at hpos hgo
  have hen : r.en = true := (congrArg Ring.en hpos :)
  have hseq : r.nextseq = (d.ring k).nextseq := (congrArg Ring.nextseq hpos :).trans (Ring.configured_nextseq ..)
  have hraise : (((d.enabled k v).recoverPair k).raise 772).ring k = r.rewound := (Dev.ring_raise ..).trans hr
  generalize ((d.enabled k v).recoverPair k).raise 772 = e at hraise
  obtain ⟨hyen, hystop, hyseq, hyfetch, hypar, -⟩ := e.reheld_shown k
  rw [hraise] at hyen hystop hyseq hyfetch hypar
  refine ⟨hyen.trans (r.rewound_en.trans hen), hystop.trans r.rewound_stopped, hyseq.trans (r.rewound_nextseq.trans hseq), ?_⟩
  rw [hyfetch, hypar, hgo]
  exact Ring.configured_goesOn ..

-- FLR (R361)

/-- A pair of the view that is reset. -/
def Ring.stoppedOf (r : Ring) (view : BitVec 6) : Ring := if r.owner = view then { r with stopped := true } else r

theorem Dev.ring_modStopped (d : Dev) (view : BitVec 6) (n : Nat) (k : BitVec 9) :
    (d.modRing (BitVec.ofNat 9 n) (·.stoppedOf view)).ring k = if BitVec.ofNat 9 n = k then (d.ring k).stoppedOf view else d.ring k := by
  by_cases h : BitVec.ofNat 9 n = k
  · rw [if_pos h, ← h]
    exact Dev.ring_setRing_same ..
  · rw [if_neg h]
    exact Dev.ring_setRing_other _ _ fun h' => h h'.symm

theorem Ring.stoppedOf_twice (r : Ring) (view : BitVec 6) : (r.stoppedOf view).stoppedOf view = r.stoppedOf view := by
  by_cases h : r.owner = view <;> simp only [Ring.stoppedOf, h, if_true, if_false]

theorem Dev.ring_stopEach (d : Dev) (view : BitVec 6) (ns : List Nat) (k : BitVec 9) :
    (d.each ns fun d n => d.modRing (BitVec.ofNat 9 n) (·.stoppedOf view)).ring k =
      if ∃ n ∈ ns, BitVec.ofNat 9 n = k then (d.ring k).stoppedOf view else d.ring k := by
  unfold Dev.each
  induction ns generalizing d with
  | nil => exact (if_neg (by simp)).symm
  | cons n ns ih =>
    rw [List.foldl_cons, ih, Dev.ring_modStopped]
    by_cases hn : BitVec.ofNat 9 n = k
    · rw [if_pos hn, if_pos (c := ∃ m ∈ n :: ns, BitVec.ofNat 9 m = k) ⟨n, List.mem_cons_self, hn⟩, Ring.stoppedOf_twice, ite_self]
    · rw [if_neg hn]
      simp only [List.exists_mem_cons_iff, hn, false_or]

/-- An FLR stops the pairs of its view (R361). -/
theorem Dev.ring_flr (d : Dev) (view : BitVec 6) (k : BitVec 9) :
    (Dev.flr view d).ring k = if ∃ n ∈ Tbl.keys d.rings.pairs, BitVec.ofNat 9 n = k then (d.ring k).stoppedOf view else d.ring k := d.ring_stopEach view _ k

theorem Dev.rings_flr (d : Dev) (view : BitVec 6) : (Dev.flr view d).rings = { d.rings with pairs := (Dev.flr view d).rings.pairs } :=
  Dev.each_induct (P := fun e => e.rings = { d.rings with pairs := e.rings.pairs }) rfl fun e n he =>
    congrArg (fun r : Rings => { r with pairs := Tbl.set {} e.rings.pairs (BitVec.ofNat 9 n).toNat ((e.ring (BitVec.ofNat 9 n)).stoppedOf view) }) he

-- PERST_N (R339)

theorem Dev.ring_flr_stopped {view : BitVec 6} (h : (d.ring k).stopped = true) : (Dev.flr view d).ring k = d.ring k := by
  have hsame : (d.ring k).stoppedOf view = d.ring k := by
    unfold Ring.stoppedOf
    split
    · rw [← h]
    · rfl
  rw [Dev.ring_flr, hsame, ite_self]

/-- A pair that is owned by a VF is (by decide). -/
theorem Dev.ring_listed (h : (d.ring k).owner ≠ 0) : ∃ n ∈ Tbl.keys d.rings.pairs, BitVec.ofNat 9 n = k := by
  refine ⟨k.toNat, ?_, BitVec.ofNat_toNat 9 k⟩
  rcases Tbl.get_default_or_mem ({} : Ring) d.rings.pairs k.toNat with hd | hm
  · exact absurd (congrArg Ring.owner hd) h
  · exact List.mem_map_of_mem hm

/-- The pair as it is, stopped. -/
def Ring.halted (r : Ring) : Ring := { r with stopped := true }

theorem Dev.ring_flr_either (d : Dev) (view : BitVec 6) (k : BitVec 9) : (Dev.flr view d).ring k = d.ring k ∨ (Dev.flr view d).ring k = (d.ring k).halted := by
  rw [Dev.ring_flr]
  unfold Ring.stoppedOf
  split
  · split
    · exact .inr rfl
    · exact .inl rfl
  · exact .inl rfl

/-- FLRs of the views of a list. -/
def Dev.flrs (d : Dev) (views : List Nat) : Dev := d.each views fun d v => d.flr (BitVec.ofNat 6 v)

theorem Dev.ring_flrs_halted {r : Ring} {views : List Nat} (h : d.ring k = r.halted) : (d.flrs views).ring k = r.halted :=
  Dev.each_induct (P := fun e => e.ring k = r.halted) h fun e v he => (Dev.ring_flr_stopped (by rw [he]; rfl)).trans he

theorem Dev.ring_flrs_either (d : Dev) (views : List Nat) (k : BitVec 9) : (d.flrs views).ring k = d.ring k ∨ (d.flrs views).ring k = (d.ring k).halted :=
  Dev.each_induct (P := fun e => e.ring k = d.ring k ∨ e.ring k = (d.ring k).halted) (.inl rfl) fun e v he => by
    rcases he with he | he
    · rw [← he]
      exact e.ring_flr_either _ k
    · exact .inr ((Dev.ring_flr_stopped (by rw [he]; rfl)).trans he)

theorem Dev.flr_owned {view : BitVec 6} (ho : (d.ring k).owner = view) (hk : ∃ n ∈ Tbl.keys d.rings.pairs, BitVec.ofNat 9 n = k) :
    (Dev.flr view d).ring k = (d.ring k).halted := by
  rw [Dev.ring_flr, if_pos hk]
  exact if_pos ho

theorem Dev.flrs_append (d : Dev) (before after : List Nat) (v : Nat) :
    d.flrs (before ++ v :: after) = (Dev.flr (BitVec.ofNat 6 v) (d.flrs before)).flrs after := by
  unfold Dev.flrs Dev.each
  rw [List.foldl_append, List.foldl_cons]

/-- FLRs of all views, the PF's first, stop every pair that is (by decide). -/
theorem Dev.ring_flrs_all {views : List Nat} (hv : ∀ v < 64, v ∈ 0 :: views) (hk : k.toNat ∈ Tbl.keys d.rings.pairs) :
    (d.flrs (0 :: views)).ring k = (d.ring k).halted := by
  by_cases h0 : (d.ring k).owner = 0
  · exact Dev.ring_flrs_halted (d := Dev.flr (BitVec.ofNat 6 0) d) (Dev.flr_owned h0 ⟨_, hk, BitVec.ofNat_toNat 9 k⟩)
  · obtain ⟨before, after, hsplit⟩ := List.append_of_mem (hv _ (d.ring k).owner.isLt)
    have hstep : (Dev.flr (BitVec.ofNat 6 (d.ring k).owner.toNat) (d.flrs before)).ring k = (d.ring k).halted := by
      rw [BitVec.ofNat_toNat, BitVec.setWidth_eq]
      rcases d.ring_flrs_either before k with he | he
      · rw [Dev.flr_owned (by rw [he]) (Dev.ring_listed (by rw [he]; exact h0)), he]
      · exact (Dev.ring_flr_stopped (by rw [he]; rfl)).trans he
    rw [hsplit, Dev.flrs_append]
    exact Dev.ring_flrs_halted hstep

/-- Every view, the PF first. -/
theorem allViews : List.range 64 = 0 :: (List.range 63).map Nat.succ := List.range_succ_eq_map

theorem Dev.rings_flrs (d : Dev) (views : List Nat) : (d.flrs views).rings = { d.rings with pairs := (d.flrs views).rings.pairs } :=
  Dev.each_induct (P := fun e => e.rings = { d.rings with pairs := e.rings.pairs }) rfl fun e v he =>
    (e.rings_flr _).trans (congrArg (fun r : Rings => { r with pairs := (Dev.flr (BitVec.ofNat 6 v) e).rings.pairs }) he)

theorem Dev.flrs_keep {ps : List Part} (h : Keep ps e d) (hrings : .rings ∈ ps) (views : List Nat) : Keep ps e (d.flrs views) :=
  Dev.each_keep h fun _ _ hx => Dev.flr_keep hx hrings _

/-- The link is down and the PF in D0, with no message of a vector pending (R339). -/
def Dev.linkLost (d : Dev) : Dev :=
  (d.putRings { d.rings with linkUp := false, d3 := false }).putSched { d.sched with msixPending := [], msixMasked := [] }

theorem Dev.perstN_high (d : Dev) : Dev.perstN true d = d.putPower { d.power with perst := true } := by
  unfold Dev.perstN
  exact if_pos (.inl rfl)

/-- PERST_N goes low (R339). -/
theorem Dev.perstN_low (h : d.power.perst = true) : ∃ views, (∀ v < 64, v ∈ 0 :: views) ∧ Dev.perstN false d =
    let e := (d.putPower { d.power with perst := false }).flrs (0 :: views)
    (if e.rings.linkUp then e.raise 768 else e).linkLost := by
  have hviews := allViews
  generalize (List.range 63).map Nat.succ = views at hviews
  refine ⟨views, fun v hv => ?_, ?_⟩
  · rw [← hviews]
    exact List.mem_range.2 hv
  · unfold Dev.perstN
    dsimp only
    rw [if_neg (by rw [h]; decide), hviews]
    rfl

/-- What PERST_N leaves (R339, R361). -/
theorem Dev.perstLow_shown (d : Dev) {views : List Nat} (hv : ∀ v < 64, v ∈ 0 :: views) :
    let e := (d.putPower { d.power with perst := false }).flrs (0 :: views)
    let e := (if e.rings.linkUp then e.raise 768 else e).linkLost
    (∀ k : BitVec 9, k.toNat ∈ Tbl.keys d.rings.pairs → e.ring k = (d.ring k).halted) ∧
      e.rings = { d.rings with pairs := e.rings.pairs, linkUp := false, d3 := false } ∧
      e.sched = { d.sched with msixPending := [], msixMasked := [] } ∧ e.power = { d.power with perst := false } ∧
      (d.rings.linkUp = true → Raised d e 768) ∧ (d.rings.linkUp = false → e.events = d.events) := by
  have hall := fun k hk => Dev.ring_flrs_all (d := d.putPower { d.power with perst := false }) (k := k) hv hk
  have hrings := (d.putPower { d.power with perst := false }).rings_flrs (0 :: views)
  have hk := Dev.flrs_keep (.refl [.rings] (d.putPower { d.power with perst := false })) (by decide) (0 :: views)
  generalize (d.putPower { d.power with perst := false }).flrs (0 :: views) = e at hall hrings hk
  have hup : e.rings.linkUp = d.rings.linkUp := (congrArg Rings.linkUp hrings :)
  have hevents : e.events = d.events := hk.events.resolve_left (by decide)
  have hsched : e.sched = d.sched := hk.sched.resolve_left (by decide)
  have hpower : e.power = { d.power with perst := false } := hk.power.resolve_left (by decide)
  have hlost (x : Dev) (hx : x.rings = e.rings) (hs : x.sched = e.sched) :
      (∀ k : BitVec 9, k.toNat ∈ Tbl.keys d.rings.pairs → x.linkLost.ring k = (d.ring k).halted) ∧
      x.linkLost.rings = { d.rings with pairs := x.linkLost.rings.pairs, linkUp := false, d3 := false } ∧
      x.linkLost.sched = { d.sched with msixPending := [], msixMasked := [] } := by
    refine ⟨fun k hk => (congrArg (fun r : Rings => Tbl.get ({} : Ring) r.pairs k.toNat) hx).trans (hall k hk), ?_, ?_⟩
    · show { x.rings with linkUp := false, d3 := false } = _
      rw [hx, hrings]
      exact congrArg (fun r : Rings => { d.rings with pairs := r.pairs, linkUp := false, d3 := false }) hx.symm
    · show { x.sched with msixPending := [], msixMasked := [] } = _
      rw [hs, hsched]
  dsimp only
  rw [hup]
  cases hl : d.rings.linkUp with
  | true =>
    obtain ⟨hring, hrs, hsc⟩ := hlost (e.raise 768) rfl rfl
    exact ⟨hring, hrs, hsc, hpower, fun _ => Dev.raise_raised hevents 768, fun h => nomatch h⟩
  | false =>
    obtain ⟨hring, hrs, hsc⟩ := hlost e rfl rfl
    exact ⟨hring, hrs, hsc, hpower, (fun h => nomatch h), fun _ => hevents⟩

theorem Dev.linkChanged_known {x : PcieLink} (h : pcieLinkOk x = true) :
    (Dev.pcieLinkChange x d).rings = { d.rings with linkUp := x.up, linkGen := x.gen, linkWidth := x.width } := by
  unfold Dev.pcieLinkChange
  rw [h]
  rfl

theorem Dev.linkChanged_unknown {x : PcieLink} (h : ¬ pcieLinkOk x = true) : (Dev.pcieLinkChange x d).rings = { d.rings with linkUp := x.up } := by
  unfold Dev.pcieLinkChange
  rw [eq_false_of_ne_true h]
  rfl

-- ATTACH (R364)

/-- A pair that takes the primary's ring over: what it has completed has not been posted here. -/
def Dev.attached (d : Dev) (k : BitVec 9) : Dev := d.modRing k fun r => { r with phase := .run, window := r.window.map RetEntry.unposted }

theorem Dev.attach_eq {q : Requester} (hq : d.isPf q = true) (hen : (d.ring k).en = false)
    (hm : d.link.mirror = .split ∨ d.link.mirror = .paired ∧ d.link.secondary = true) :
    Dev.attach q k d = ((((d.attached k).postRing k).modRing k fun r => { r with en := true }).raise 772).reheld k := by
  unfold Dev.attach
  rw [if_neg (by rw [hq]; decide), if_neg (by simp [hen, hm])]
  rfl

theorem Dev.attach_ignored {q : Requester} (hq : d.isPf q = true)
    (h : (d.ring k).en = true ∨ ¬ (d.link.mirror = .split ∨ d.link.mirror = .paired ∧ d.link.secondary = true)) :
    Dev.attach q k d = d.ignore 1 := by
  unfold Dev.attach
  rw [if_neg (by rw [hq]; decide), if_pos (by simpa [imp_iff_not_or] using h)]

theorem Dev.attached_ring (d : Dev) (k : BitVec 9) : (d.attached k).ring k = { d.ring k with phase := .run, window := (d.ring k).window.map RetEntry.unposted } :=
  Dev.ring_setRing_same ..

theorem Dev.attached_phase (d : Dev) (k : BitVec 9) : ((d.attached k).ring k).phase ≠ .mirror := by
  rw [Dev.attached_ring]
  nofun

theorem Dev.attach_parts (d : Dev) (k : BitVec 9) : Keep [.out, .events, .rings, .sched] d
    (((((d.attached k).postRing k).modRing k fun r => { r with en := true }).raise 772).reheld k) := by
  refine Dev.reheld_keep (Dev.raise_keep (Dev.modRing_keep (Dev.postRing_parts (Dev.modRing_keep (.refl _ _) (by decide) k _ ?_) (by decide) (by decide) (by decide) (by decide)
    (d.attached_phase k)) (by decide) k _ fun h => h) (by decide) 772 0) (by decide) (by decide) k
  exact RingKept.mapped RetEntry.unposted (fun _ => rfl) rfl

/-- The pair that ATTACH enables. -/
theorem Dev.attach_ring (d : Dev) (k : BitVec 9) :
    let y := (((((d.attached k).postRing k).modRing k fun r => { r with en := true }).raise 772).reheld k).ring k
    y.en = true ∧ y.phase = .run ∧ y.fetch = (d.ring k).fetch ∧ y.nextseq = (d.ring k).nextseq := by
  have hpos := (Dev.postRing_ringsStand (d.attached k) k).position k
  rw [Dev.attached_ring] at hpos
  have hring : ((((d.attached k).postRing k).modRing k fun r => { r with en := true }).raise 772).ring k =
      { ((d.attached k).postRing k).ring k with en := true } := (Dev.ring_raise ..).trans (Dev.ring_setRing_same ..)
  generalize ((((d.attached k).postRing k).modRing k fun r => { r with en := true }).raise 772) = e at hring
  obtain ⟨hen, -, hseq, hfetch, -, hphase⟩ := e.reheld_shown k
  rw [hring] at hen hseq hfetch hphase
  exact ⟨hen, hphase.trans (congrArg Ring.phase hpos :), hfetch.trans (congrArg Ring.fetch hpos :), hseq.trans (congrArg Ring.nextseq hpos :)⟩

/-- What has completed at the front of the window is posted anew. -/
theorem Dev.attach_writes (ha : d.link.await = []) (hup : d.rings.linkUp = true) {x : RetEntry}
    (hx : x ∈ (d.ring k).window.takeWhile fun e => e.phase == .completed) :
    Output.hostWrite ((d.ring k).cqbase + BitVec.ofNat 64 (32 * x.slot)) (recordBytes x.record x.par) ∈
      (((((d.attached k).postRing k).modRing k fun r => { r with en := true }).raise 772).reheld k).out := by
  have hawait : (d.attached k).awaits k = fun _ => false := by
    funext e
    show d.link.await.any _ = false
    rw [ha]
    rfl
  have hmem : x.unposted ∈ postable ((d.attached k).awaits k) ((d.attached k).ring k).window := by
    rw [hawait, Dev.attached_ring, postable_fresh]
    exact List.mem_map_of_mem hx
  have hwrites := Dev.postRing_writes (d.attached_phase k) hup hmem
  rw [Dev.attached_ring] at hwrites
  have hreheld := (Dev.reheld_keep (.refl [.events, .rings] ((((d.attached k).postRing k).modRing k fun r => { r with en := true }).raise 772))
    (by decide) (by decide) k).out.resolve_left (by decide)
  rw [hreheld]
  exact hwrites

end

/-- Settles O47: what EN, ATTACH, FLR and PERST_N do to the pairs, and the link's and the PF's own state. -/
theorem pairsStopAndGoOn : Obligations.PairsStopAndGoOn := by
  intro s rs stoppedWhere
  refine ⟨fun q k v hq ho => ⟨fun hv => ?off, fun hv hs => ?on, fun hv hs => ?again⟩, fun q k hq hen hm ha => ?attach, fun q k hq hno => ?attachNot,
    fun view => ?flr, fun hp => ?perst, ?high, fun x => ?link, fun d3 => ?d3⟩
  case off =>
    exact completes_of_run (f := fun d => d.writePairCfg q k v) rfl (Dev.writePairCfg_off hq ho hv)
      (Dev.setRing_keep (.refl _ _) (by decide) k _ (Dev.configured_kept rfl)) rfl
  case on =>
    refine completes_of_run (f := fun d => d.writePairCfg q k v) rfl (Dev.writePairCfg_on hq ho hv hs)
      (Dev.reheld_keep (Dev.enabled_keep (.refl _ _) (by decide) k v) (by decide) (by decide) k) ?_
    rw [Dev.reheld_ring, Dev.enabled_ring]
    rfl
  case again =>
    obtain ⟨hen, hstop, hseq, hgo⟩ := s.dev.resumed_ring k v
    refine completes_of_run (f := fun d => d.writePairCfg q k v) rfl (Dev.writePairCfg_resumed hq ho hv hs) ?_
      ⟨⟨_, (Dev.enRoute_raise _ 772 0).reheld, rfl⟩, hen, hstop, hseq, hgo⟩
    refine Dev.reheld_keep (Dev.raise_keep (Dev.recoverPair_parts (Dev.enabled_keep (.refl _ _) (by decide) k v) (by decide) (by decide) (by decide) (by decide) ?_) (by decide) 772 0)
      (by decide) (by decide) k
    exact s.dev.enabled_phase k v
  case attach =>
    obtain ⟨hy, hphase, hfetch, hseq⟩ := s.dev.attach_ring k
    exact completes_of_run (f := Dev.attach q k) rfl (Dev.attach_eq hq hen hm) (s.dev.attach_parts k)
      ⟨⟨_, (Dev.enRoute_raise _ 772 0).reheld, rfl⟩, hy, hphase, hfetch, hseq, fun hup x hx => Dev.attach_writes ha hup hx⟩
  case attachNot =>
    exact completes_of_run (f := Dev.attach q k) rfl (Dev.attach_ignored hq hno) (Dev.ignore_keep (.refl _ _) (by decide) 1) rfl
  case flr =>
    refine completes_of_run (f := Dev.flr view) rfl rfl (Dev.flr_keep (.refl _ _) (by decide) view) ⟨fun k => ⟨fun ho hk => ?_, fun ho => ?_⟩, s.dev.rings_flr view⟩
    · exact Dev.flr_owned ho ⟨_, hk, BitVec.ofNat_toNat 9 k⟩
    · rw [Dev.ring_flr, Ring.stoppedOf, if_neg ho, ite_self]
  case perst =>
    obtain ⟨views, hviews, hlow⟩ := Dev.perstN_low hp
    obtain ⟨hpairs, hrings, hsched, hpower, hup, hdown⟩ := Dev.perstLow_shown s.dev hviews
    refine completes_of_run (f := Dev.perstN false) rfl hlow ?_ ⟨fun k => ⟨fun _ hk => hpairs k hk, fun h => absurd trivial h⟩, hrings, hsched, hpower, hup, hdown⟩
    rw [← hlow]
    apply Dev.perstN_keep (.refl _ _) <;> exact listed rfl
  case high => exact completes_of_run (f := Dev.perstN true) rfl s.dev.perstN_high (Dev.putPower_keep (.refl _ _) (by decide) _) rfl
  case link =>
    intro ok
    have hok : pcieLinkOk x = true ↔ ok := by
      unfold pcieLinkOk
      simp [ok, and_assoc, or_assoc]
    refine completes_of_run (f := Dev.pcieLinkChange x) rfl rfl (Dev.pcieLinkChange_keep (.refl _ _) (by decide) (by decide) x)
      ⟨Dev.raise_raised rfl 768, fun h => ?_, fun h => ?_⟩
    · exact Dev.linkChanged_known (hok.2 h)
    · exact Dev.linkChanged_unknown fun h' => h (hok.1 h')
  case d3 => exact completes_of_run (f := fun d => d.putRings { d.rings with d3 }) rfl rfl (Keep.upd_rings (.refl _ _) (by decide) fun h => h) rfl

end Sys2Proof.Machine
end

section
/-! Trace streams and acquisition units (13_control_cores_and_observation.md R389 to R404) -/

namespace Sys2Proof.Machine
open Sys2Proof

-- packets of a trace stream (R389, R390, R394)

section
variable {d e : Dev} {i : Nat}

/-- A stream that has written bytes. -/
def Stream.wrote (s : Stream) (n : Nat) : Stream := { s with wp := BitVec.ofNat 32 ((s.wp.toNat + n) % s.ringSize), pos := s.pos + n }

theorem Dev.stream_streamPut (d : Dev) (i : Nat) (bs : Bytes) : (d.streamPut i bs).stream i = (d.stream i).wrote bs.length := Dev.stream_setStream_same ..

/-- SYNC of a core's stream, where its sink has room. -/
theorem Dev.stream_sync (hi : i < 16) (h : 26 ≤ (d.stream i).avail) (reason : Nat) :
    (d.sync i reason).stream i =
      { (d.stream i).wrote 26 with cycleBase := (d.core (BitVec.ofNat 4 i)).mcycle, lastSync := (d.stream i).pos + 26 } := by
  unfold Dev.sync
  dsimp only
  rw [if_pos hi]
  dsimp only
  rw [Dev.stream_setStream_same, Dev.streamReserved, if_pos (by simpa [leBytes_length] using h), Dev.stream_streamPut]
  simp only [List.length_append, leBytes_length]
  rfl

/-- What SYNC leaves of a stream in any case. -/
theorem Dev.stream_sync_rest (d : Dev) (i reason : Nat) : ((d.sync i reason).stream i).dropped = (d.stream i).dropped ∧
    ((d.sync i reason).stream i).rp = (d.stream i).rp := by
  have hreserved (bs : Bytes) : ((d.streamReserved i bs).stream i).dropped = (d.stream i).dropped ∧ ((d.streamReserved i bs).stream i).rp = (d.stream i).rp := by
    unfold Dev.streamReserved
    split
    · rw [Dev.stream_streamPut]
      exact ⟨rfl, rfl⟩
    · exact ⟨rfl, rfl⟩
  unfold Dev.sync
  dsimp only
  rw [Dev.stream_setStream_same]
  exact hreserved _

theorem Dev.streamRecover_shown (n : Nat) (hd : (d.stream i).dropped = some n) (h : 31 ≤ (d.stream i).avail) :
    ((d.streamRecover i).stream i).dropped = none ∧ ((d.streamRecover i).stream i).rp = (d.stream i).rp := by
  unfold Dev.streamRecover
  dsimp only
  rw [hd]
  dsimp only
  rw [if_pos h]
  obtain ⟨hdropped, hrp⟩ := Dev.stream_sync_rest (((d.setStream i { d.stream i with dropped := none }).streamReserved i (leBytes 1 7 ++ leBytes 4 n))) i 3
  rw [hdropped, hrp]
  unfold Dev.streamReserved
  split
  · rw [Dev.stream_streamPut, Dev.stream_setStream_same]
    exact ⟨rfl, rfl⟩
  · rw [Dev.stream_setStream_same]
    exact ⟨rfl, rfl⟩

end

-- what a unit writes (R403, R404)

/-- A unit that has written words to its ring. -/
def AcqUnit.wrote (x : AcqUnit) (n : Nat) : AcqUnit := { x with wp := BitVec.ofNat 64 ((x.wp.toNat + 8 * n) % max 1 x.arm.size) }

section
variable {d e : Dev} {u : Nat}

theorem Dev.unit_setUnit_same (d : Dev) (u : Nat) (x : AcqUnit) : (d.setUnit u x).unit u = x := Tbl.get_set_same ..

theorem Dev.unit_setUnit_other (d : Dev) {u w : Nat} (h : w ≠ u) (x : AcqUnit) : (d.setUnit u x).unit w = d.unit w := Tbl.get_set_other _ _ _ _ _ h

/-- A change of shared SRAM that keeps its canonical form. -/
def SramChange (f : Sram → Sram) : Prop := ∀ m, Tbl.wf 0 m.mem = true → Tbl.wf 0 (f m).mem = true

theorem Dev.unit_raise (d : Dev) (ev detail w : Nat) : (d.raise ev detail).unit w = d.unit w := rfl

theorem Dev.unit_modSram (d : Dev) (f : Sram → Sram) (w : Nat) : (d.modSram f).unit w = d.unit w := rfl

theorem Dev.ringPut_sram (d : Dev) (q : BitVec 9) (base size off : Nat) (bs : Bytes) :
    ∃ f, SramChange f ∧ d.ringPut false q base size off bs = d.modSram f := by
  have hbytes (d : Dev) (a : Nat) (b : Bytes) : ∃ f, SramChange f ∧ d.ringBytes false q a b = d.modSram f := by
    unfold Dev.ringBytes
    rw [if_neg Bool.false_ne_true]
    split
    · exact ⟨_, fun _ hm => Sram.put_wf hm _ _, rfl⟩
    · exact ⟨id, fun _ hm => hm, rfl⟩
  unfold Dev.ringPut
  dsimp only
  obtain ⟨f, hf, hd⟩ := hbytes d (base + off) (bs.take (min bs.length (size - off)))
  obtain ⟨g, hg, he⟩ := hbytes (d.modSram f) base (bs.drop (min bs.length (size - off)))
  rw [hd, he]
  exact ⟨g ∘ f, fun m hm => hg _ (hf m hm), rfl⟩

theorem words_length (ws : List (BitVec 64)) : (ws.flatMap fun w => leBytes 8 w.toNat).length = 8 * ws.length := by
  induction ws with
  | nil => rfl
  | cons w ws ih => rw [List.flatMap_cons, List.length_append, leBytes_length, ih, List.length_cons]; omega

/-- A record in shared SRAM. -/
theorem Dev.acqPut_sram (h : (d.unit u).arm.cellar = false) (ws : List (BitVec 64)) :
    ∃ f, SramChange f ∧ d.acqPut u ws = (d.modSram f).setUnit u ((d.unit u).wrote ws.length) := by
  obtain ⟨f, hsram, hf⟩ := d.ringPut_sram (BitVec.ofNat 9 (d.unit u).arm.queue) (d.unit u).arm.base (d.unit u).arm.size (d.unit u).wp.toNat
    (ws.flatMap fun w => leBytes 8 w.toNat)
  refine ⟨f, hsram, ?_⟩
  unfold Dev.acqPut
  dsimp only
  rw [h, if_neg (by simp), if_neg (by simp), hf, words_length]
  rfl

-- source records (R400, R401)

/-- A unit that has seen a source record. -/
def AcqUnit.saw (x : AcqUnit) : AcqUnit := { x with sample := x.sample + 1, window := x.window.drop 1 }

/-- A triggered unit that has written a record. -/
def AcqUnit.noted (x : AcqUnit) : AcqUnit := { x with written := x.written + 1, left := x.left - 1, trigNext := false }

/-- A unit that has more to write goes on. -/
theorem Dev.noted_more {x : AcqUnit} (hx : d.unit u = x) (hl : 1 < x.left) :
    (if ((d.modUnit u AcqUnit.noted).unit u).phase = .triggered ∧ ((d.modUnit u AcqUnit.noted).unit u).left = 0 then (d.modUnit u AcqUnit.noted).acqEnd u
      else d.modUnit u AcqUnit.noted) = d.setUnit u x.noted := by
  have hunit : (d.modUnit u AcqUnit.noted).unit u = x.noted := (d.unit_setUnit_same u _).trans (by rw [hx])
  have hleft : x.noted.left = x.left - 1 := rfl
  rw [hunit, if_neg (by omega), Dev.modUnit, hx]

theorem Dev.acqRate_low {fill : Nat} (h : fill ≤ 32768) : d.acqRate u fill = d := if_pos (.inl h)

section
variable {payload : List (BitVec 64)} {fill type : Nat} {ws : List (BitVec 64)} (hs : d.acqSource (d.unit u) payload = some (type, ws))
  (hf : fill ≤ 32768)
include hs hf

/-- A record whose sample the divisor skips. -/
theorem Dev.acqRecord_skips (hp : (d.unit u).phase = .armed ∨ (d.unit u).phase = .triggered) (hn : (d.unit u).sample.toNat % 2 ^ (d.unit u).div.toNat ≠ 0) :
    Dev.acqRecord u payload fill d = d.setUnit u (d.unit u).saw := by
  unfold Dev.acqRecord
  dsimp only
  rw [if_neg (by simpa [or_iff_not_imp_left] using hp), hs]
  dsimp only
  rw [Dev.acqRate_low hf, if_pos (.inr hn)]
  rfl

theorem Dev.acqRecord_armed (hd : (d.unit u).div.toNat < 6) (hp : (d.unit u).phase = .armed) (hpre : (d.unit u).arm.pre = 0) :
    Dev.acqRecord u payload fill d = d.setUnit u (d.unit u).saw := by
  by_cases hn : (d.unit u).sample.toNat % 2 ^ (d.unit u).div.toNat ≠ 0
  · exact Dev.acqRecord_skips hs hf (.inl hp) hn
  · have hdiv : (d.unit u).div ≠ 6 := by
      intro h
      rw [h] at hd
      exact absurd hd (by decide)
    unfold Dev.acqRecord
    dsimp only
    rw [if_neg (by simp [hp]), hs]
    dsimp only
    rw [Dev.acqRate_low hf, if_neg (by simp [hp]; omega), if_neg fun h => hdiv h.1, if_pos hp, if_pos hpre]
    rfl

/-- A triggered unit writes the record that its divisor takes. -/
theorem Dev.acqRecord_kept (hd : (d.unit u).div.toNat < 6) (hp : (d.unit u).phase = .triggered)
    (hn : (d.unit u).sample.toNat % 2 ^ (d.unit u).div.toNat = 0) (hc : (d.unit u).arm.cellar = false) (hl : 1 < (d.unit u).left) :
    ∃ f, SramChange f ∧ Dev.acqRecord u payload fill d = (((d.setUnit u (d.unit u).saw).modSram f).setUnit u ((d.unit u).saw.wrote (ws.length + 1))).setUnit u
      ((d.unit u).saw.wrote (ws.length + 1)).noted := by
  have hdiv : (d.unit u).div ≠ 6 := by
    intro h
    rw [h] at hd
    exact absurd hd (by decide)
  have hsaw : (d.setUnit u (d.unit u).saw).unit u = (d.unit u).saw := d.unit_setUnit_same u _
  obtain ⟨f, hsram, hput⟩ := Dev.acqPut_sram (d := d.setUnit u (d.unit u).saw) (u := u) (by rw [hsaw]; exact hc)
    (acqHeader type ws.length (d.unit u).div.toNat (d.unit u).trigNext (d.unit u).sample.toNat :: ws)
  rw [hsaw, List.length_cons] at hput
  have hunit : ((d.setUnit u (d.unit u).saw).acqPut u
      (acqHeader type ws.length (d.unit u).div.toNat (d.unit u).trigNext (d.unit u).sample.toNat :: ws)).unit u =
      (d.unit u).saw.wrote (ws.length + 1) := by
    rw [hput]
    exact Dev.unit_setUnit_same ..
  refine ⟨f, hsram, ?_⟩
  unfold Dev.acqRecord
  dsimp only
  rw [if_neg (by simp [hp]), hs]
  dsimp only
  rw [Dev.acqRate_low hf, if_neg (by simp [hp, hn]), if_neg fun h => hdiv h.1, if_neg (by rw [hp]; nofun)]
  refine (Dev.noted_more hunit ?_).trans (by rw [hput])
  exact hl

end

-- triggers (R399, R402)

/-- A unit that a trigger fires. -/
def AcqUnit.triggered (x : AcqUnit) (origin : Nat) (at_ : TrigPos) : AcqUnit :=
  { x with phase := .triggered, origin := BitVec.ofNat 4 origin, prefull := decide (x.arm.pre ≤ x.kept.length), trigBeat := at_.beat,
           trigStep := at_.step, fracValid := at_.frac.isSome, frac := at_.frac.getD 0, left := x.arm.post, trigNext := true, written := x.kept.length,
           startOff := x.wp }

/-- It has written its trigger record of four words. -/
def AcqUnit.fired (x : AcqUnit) (origin : Nat) (at_ : TrigPos) : AcqUnit := (x.triggered origin at_).wrote 4

/-- A unit in shared SRAM that has records to write has fired. -/
theorem Dev.acqFireUnit_eq (hc : (d.unit u).arm.cellar = false) (hp : (d.unit u).arm.post ≠ 0) (origin : Nat) (at_ : TrigPos) :
    ∃ f, SramChange f ∧ d.acqFireUnit u origin at_ =
      (((d.setUnit u ((d.unit u).triggered origin at_)).modSram f).setUnit u ((d.unit u).fired origin at_)).raise (496 + u) := by
  have htriggered : (d.setUnit u ((d.unit u).triggered origin at_)).unit u = (d.unit u).triggered origin at_ := d.unit_setUnit_same u _
  have hput (ws : List (BitVec 64)) : ∃ f, SramChange f ∧ (d.setUnit u ((d.unit u).triggered origin at_)).acqPut u ws =
      ((d.setUnit u ((d.unit u).triggered origin at_)).modSram f).setUnit u (((d.unit u).triggered origin at_).wrote ws.length) := by
    have hput := Dev.acqPut_sram (d := d.setUnit u ((d.unit u).triggered origin at_)) (u := u) (by rw [htriggered]; exact hc) ws
    rwa [htriggered] at hput
  unfold Dev.acqFireUnit
  dsimp only
  rw [if_neg fun h => hp h.1]
  obtain ⟨f, hsram, hf⟩ := hput [acqHeader 0x11 3 (d.unit u).div.toNat false (d.unit u).sample.toNat, at_.beat,
    BitVec.ofNat 64 (at_.step.toNat + (at_.frac.getD 0).toNat * 2 ^ 17 + bit at_.frac.isSome 23 + origin * 2 ^ 24 +
      ((d.setUnit u ((d.unit u).triggered origin at_)).unit origin).arm.tkind % 8 * 2 ^ 28), BitVec.ofNat 64 (at_.time / ns)]
  exact ⟨f, hsram, congrArg (Dev.raise · (496 + u)) hf⟩

theorem Dev.acqFireUnit_shown (hc : (d.unit u).arm.cellar = false) (hp : (d.unit u).arm.post ≠ 0) (origin : Nat) (at_ : TrigPos) :
    (d.acqFireUnit u origin at_).unit u = (d.unit u).fired origin at_ ∧ (∀ w, w ≠ u → (d.acqFireUnit u origin at_).unit w = d.unit w) ∧
      (∃ o, (d.acqFireUnit u origin at_).events = d.events ++ [o] ∧ o.ev = BitVec.ofNat 10 (496 + u)) := by
  obtain ⟨f, -, hf⟩ := Dev.acqFireUnit_eq hc hp origin at_
  rw [hf]
  refine ⟨?_, fun w hw => ?_, _, rfl, rfl⟩
  · rw [Dev.unit_raise, Dev.unit_setUnit_same]
  · rw [Dev.unit_raise, Dev.unit_setUnit_other _ hw, Dev.unit_modSram, Dev.unit_setUnit_other _ hw]

theorem Dev.acqFireUnit_parts {ps : List Part} (hk : Keep ps e d) (hev : .events ∈ ps) (ha : .acq ∈ ps) (hst : .strong ∈ ps)
    (hc : (d.unit u).arm.cellar = false) (hp : (d.unit u).arm.post ≠ 0) (origin : Nat) (at_ : TrigPos) : Keep ps e (d.acqFireUnit u origin at_) := by
  obtain ⟨f, hsram, hf⟩ := Dev.acqFireUnit_eq hc hp origin at_
  rw [hf]
  exact Dev.raise_keep (Dev.setUnit_keep (Dev.modSram_keep (Dev.setUnit_keep hk ha _ _) hst f hsram) ha _ _) hev _ _

theorem Dev.fireAll_parts {ps : List Part} (hk : Keep ps e d) (hev : .events ∈ ps) (ha : .acq ∈ ps) (hst : .strong ∈ ps) {l : List Nat} (hl : l.Nodup)
    (origin : Nat) (at_ : TrigPos) (h : ∀ w ∈ l, (d.unit w).arm.cellar = false ∧ (d.unit w).arm.post ≠ 0) :
    Keep ps e (d.each l fun d u => d.acqFireUnit u origin at_) := by
  unfold Dev.each
  induction l generalizing d with
  | nil => exact hk
  | cons u l ih =>
    obtain ⟨hu, hnodup⟩ := List.nodup_cons.1 hl
    obtain ⟨⟨hc, hp⟩, hrest⟩ := List.forall_mem_cons.1 h
    obtain ⟨-, hothers, -⟩ := Dev.acqFireUnit_shown hc hp origin at_
    rw [List.foldl_cons]
    refine ih (Dev.acqFireUnit_parts hk hev ha hst hc hp origin at_) hnodup fun w hw => ?_
    rw [hothers w fun h => hu (h ▸ hw)]
    exact hrest w hw

/-- All units of a list fire. -/
theorem Dev.fireAll_shown {l : List Nat} (hl : l.Nodup) (origin : Nat) (at_ : TrigPos)
    (h : ∀ w ∈ l, (d.unit w).arm.cellar = false ∧ (d.unit w).arm.post ≠ 0) :
    (∀ w, w ∉ l → (d.each l fun d u => d.acqFireUnit u origin at_).unit w = d.unit w) ∧
    (∀ w ∈ l, OnTheWay (d.each l fun d u => d.acqFireUnit u origin at_) (496 + w) ∧
      (d.each l fun d u => d.acqFireUnit u origin at_).unit w = (d.unit w).fired origin at_) ∧
    ∀ o ∈ d.events, o ∈ (d.each l fun d u => d.acqFireUnit u origin at_).events := by
  unfold Dev.each
  induction l generalizing d with
  | nil => exact ⟨fun _ _ => rfl, fun _ hw => (by cases hw), fun _ ho => ho⟩
  | cons u l ih =>
    obtain ⟨hu, hnodup⟩ := List.nodup_cons.1 hl
    obtain ⟨⟨hc, hp⟩, hrest⟩ := List.forall_mem_cons.1 h
    obtain ⟨hunit, hothers, o, hevents, hev⟩ := Dev.acqFireUnit_shown hc hp origin at_
    have hne (w : Nat) (hw : w ∈ l) : w ≠ u := fun h => hu (h ▸ hw)
    obtain ⟨hout, hin, hmem⟩ := ih (d := d.acqFireUnit u origin at_) hnodup fun w hw => by rw [hothers w (hne w hw)]; exact hrest w hw
    rw [List.foldl_cons]
    refine ⟨fun w hw => ?_, fun w hw => ?_, fun x hx => hmem x (by rw [hevents]; exact List.mem_append_left _ hx)⟩
    · obtain ⟨hwu, hwl⟩ := not_or.1 (mt List.mem_cons.2 hw)
      exact (hout w hwl).trans (hothers w hwu)
    · rcases List.mem_cons.1 hw with rfl | hw
      · exact ⟨⟨o, hmem o (by rw [hevents]; exact List.mem_append_right _ (List.mem_singleton_self o)), hev⟩, (hout _ hu).trans hunit⟩
      · obtain ⟨hon, hw'⟩ := hin w hw
        exact ⟨hon, hw'.trans (by rw [hothers w (hne w hw)])⟩

/-- The armed units of a group. -/
def Dev.armedOf (d : Dev) (g : BitVec 4) : List Nat := (List.range 16).filter fun u => (d.unit u).phase == .armed && (d.unit u).gmaster == g

theorem Dev.mem_armedOf {g : BitVec 4} {w : Nat} : w ∈ d.armedOf g ↔ w < 16 ∧ (d.unit w).phase = .armed ∧ (d.unit w).gmaster = g := by
  simp [Dev.armedOf]

theorem Dev.acqFire_eq (h : (d.unit u).phase = .armed) (at_ : TrigPos) :
    d.acqFire u at_ = d.each (d.armedOf (d.unit u).gmaster) fun d w => d.acqFireUnit w u at_ := if_neg (by rw [h]; nofun)

theorem Dev.nodup_armedOf (g : BitVec 4) : (d.armedOf g).Nodup := List.Nodup.filter _ List.nodup_range

/-- One trigger after those before it (R399). -/
def laterTrigger (acc : Option (Nat × TrigPos)) (y : Nat × TrigPos) : Option (Nat × TrigPos) :=
  match acc with
  | none => some y
  | some x => if y.2.time / ns < x.2.time / ns then some y else some x

theorem firstTrigger_eq_foldl (l : List (Nat × TrigPos)) : firstTrigger l = l.foldl laterTrigger none := rfl

/-- The first of some triggers in unit order: that which is earlier than every other, and lower of equals. -/
theorem firstTrigger_eq {l : List (Nat × TrigPos)} {v : Nat} {p : TrigPos} (hl : l.Pairwise fun a b => a.1 < b.1) (hmem : (v, p) ∈ l)
    (h : ∀ y ∈ l, p.time / ns < y.2.time / ns ∨ p.time / ns = y.2.time / ns ∧ v ≤ y.1) : firstTrigger l = some (v, p) := by
  obtain ⟨before, after, rfl⟩ := List.append_of_mem hmem
  have hbefore : ∀ y ∈ before, p.time / ns < y.2.time / ns := fun y hy => by
    have hlt : y.1 < v := (List.pairwise_append.1 hl).2.2 y hy (v, p) List.mem_cons_self
    rcases h y (List.mem_append_left _ hy) with h | h
    · exact h
    · exact absurd h.2 (by omega)
  have hstart : ∀ (l : List (Nat × TrigPos)) (a : Option (Nat × TrigPos)), (∀ y ∈ l, p.time / ns < y.2.time / ns) → (∀ y, a = some y → p.time / ns < y.2.time / ns) →
      ∀ y, l.foldl laterTrigger a = some y → p.time / ns < y.2.time / ns := by
    intro l
    induction l with
    | nil => exact fun a _ ha => ha
    | cons z l ih =>
      intro a hl ha
      obtain ⟨hz, hl⟩ := List.forall_mem_cons.1 hl
      refine ih _ hl fun y hy => ?_
      cases a with
      | none => exact Option.some.inj hy ▸ hz
      | some x =>
        unfold laterTrigger at hy
        dsimp only at hy
        split at hy
        · exact Option.some.inj hy ▸ hz
        · exact Option.some.inj hy ▸ ha x rfl
  have hfirst := hstart before none hbefore (fun _ h => nomatch h)
  have hkeep : ∀ l : List (Nat × TrigPos), (∀ y ∈ l, p.time / ns ≤ y.2.time / ns) → l.foldl laterTrigger (some (v, p)) = some (v, p) := by
    intro l
    induction l with
    | nil => exact fun _ => rfl
    | cons z l ih =>
      intro hl
      obtain ⟨hz, hl⟩ := List.forall_mem_cons.1 hl
      rw [List.foldl_cons, laterTrigger, if_neg (Nat.not_lt.2 hz)]
      exact ih hl
  rw [firstTrigger_eq_foldl, List.foldl_append, List.foldl_cons]
  have hv : laterTrigger (before.foldl laterTrigger none) (v, p) = some (v, p) := by
    cases ha : before.foldl laterTrigger none with
    | none => rfl
    | some x => exact if_pos (hfirst x ha)
  rw [hv]
  refine hkeep after fun y hy => ?_
  rcases h y (List.mem_append_right _ (List.mem_cons_of_mem _ hy)) with h | h
  · exact h.le
  · exact h.1.le

/-- The units whose triggers count with those of unit `u`. -/
def Dev.joins (d : Dev) (u v : Nat) : Prop := v = u ∨ ((d.unit v).phase == .armed && (d.unit v).gmaster == (d.unit u).gmaster && (d.unit v).arm.tkind != 5) = true

theorem Dev.mem_triggers {step : BitVec 17} {frac : BitVec 6} {v : Nat} {p : TrigPos} :
    (v, p) ∈ d.triggers u step frac ↔ v < 16 ∧ d.joins u v ∧ d.trigger (d.unit v) step frac = some p := by
  unfold Dev.triggers Dev.joins
  dsimp only
  rw [List.mem_filterMap]
  constructor
  · rintro ⟨w, hw, h⟩
    split at h
    · next hj =>
      obtain ⟨q, hq, heq⟩ := Option.map_eq_some_iff.1 h
      obtain ⟨rfl, rfl⟩ := Prod.mk.inj heq
      exact ⟨List.mem_range.1 hw, hj, hq⟩
    · exact nomatch h
  · rintro ⟨hv, hj, hp⟩
    exact ⟨v, List.mem_range.2 hv, by rw [if_pos hj, hp]; rfl⟩

theorem Dev.triggers_ascend (u : Nat) (step : BitVec 17) (frac : BitVec 6) : (d.triggers u step frac).Pairwise fun a b => a.1 < b.1 := by
  have hfst : ∀ (w : Nat) (b : Nat × TrigPos), (if w = u ∨ ((d.unit w).phase == .armed && (d.unit w).gmaster == (d.unit u).gmaster && (d.unit w).arm.tkind != 5) = true
      then (d.trigger (d.unit w) step frac).map fun p => (w, p) else none) = some b → b.1 = w := by
    intro w b h
    split at h
    · obtain ⟨q, -, heq⟩ := Option.map_eq_some_iff.1 h
      rw [← heq]
    · exact nomatch h
  refine List.Pairwise.filterMap _ (fun a a' hlt b hb b' hb' => ?_) List.pairwise_lt_range
  rw [hfst a b hb, hfst a' b' hb']
  exact hlt

/-- The conditions of a unit's trigger kinds (R398, R402). -/
theorem Dev.trigger_eq_some {x : AcqUnit} {step : BitVec 17} {frac : BitVec 6} {p : TrigPos} : d.trigger x step frac = some p ↔
    (x.arm.tkind = 1 ∧ ∃ t, x.hit = some t ∧ p = d.posAt t false) ∨ (x.arm.tkind = 2 ∧ ∃ t, x.hit = some t ∧ p = d.posAt t true) ∨
      (x.arm.tkind = 3 ∧ d.probeHit x = true ∧ p = d.posAt d.time.start false) ∨
      (x.arm.tkind = 4 ∧ (d.time.run = true ∧ x.arm.tvalue ≤ d.time.n) ∧ p = d.posAt d.time.start false) ∨
      (x.arm.tkind = 5 ∧ p = { beat := d.time.n, step, frac := some frac, time := d.now }) := by
  have hhit (fine : Bool) : (x.hit.map fun t => d.posAt t fine) = some p ↔ ∃ t, x.hit = some t ∧ p = d.posAt t fine := by
    rw [Option.map_eq_some_iff]
    exact exists_congr fun _ => and_congr_right fun _ => eq_comm
  have hsome (q : TrigPos) : some q = some p ↔ p = q := Option.some_inj.trans eq_comm
  have hif (c : Prop) [Decidable c] (q : TrigPos) : (if c then some q else none) = some p ↔ c ∧ p = q := by
    by_cases h : c
    · rw [if_pos h, hsome]; exact (and_iff_right h).symm
    · rw [if_neg h]; exact ⟨fun h => (nomatch h), fun hc => absurd hc.1 h⟩
  unfold Dev.trigger
  split
  case h_1 h => simp only [h, hhit, true_and, Nat.reduceEqDiff, false_and, or_false]
  case h_2 h => simp only [h, hhit, true_and, Nat.reduceEqDiff, false_and, or_false, false_or]
  case h_3 h => simp only [h, hif, true_and, Nat.reduceEqDiff, false_and, or_false, false_or]
  case h_4 h => simp only [h, hif, true_and, Nat.reduceEqDiff, false_and, or_false, false_or]
  case h_5 h => simp only [h, hsome, true_and, Nat.reduceEqDiff, false_and, false_or]
  case h_6 h1 h2 h3 h4 h5 =>
    constructor
    · exact fun h => nomatch h
    · rintro (h | h | h | h | h)
      exacts [(h1 h.1).elim, (h2 h.1).elim, (h3 h.1).elim, (h4 h.1).elim, (h5 h.1).elim]

/-- The condition of unit `w`'s trigger kind, as it counts with unit `u`. -/
def Dev.holds (d : Dev) (u : Nat) (step : BitVec 17) (frac : BitVec 6) (w : Nat) (p : TrigPos) : Prop :=
  ((d.unit w).arm.tkind = 1 ∧ ∃ t, (d.unit w).hit = some t ∧ p = d.posAt t false) ∨
    ((d.unit w).arm.tkind = 2 ∧ ∃ t, (d.unit w).hit = some t ∧ p = d.posAt t true) ∨
    ((d.unit w).arm.tkind = 3 ∧ d.probeHit (d.unit w) = true ∧ p = d.posAt d.time.start false) ∨
    ((d.unit w).arm.tkind = 4 ∧ d.time.run = true ∧ (d.unit w).arm.tvalue ≤ d.time.n ∧ p = d.posAt d.time.start false) ∨
    ((d.unit w).arm.tkind = 5 ∧ w = u ∧ p = { beat := d.time.n, step, frac := some frac, time := d.now })

theorem Dev.holds_iff {step : BitVec 17} {frac : BitVec 6} {w : Nat} {p : TrigPos} :
    d.holds u step frac w p ↔ d.trigger (d.unit w) step frac = some p ∧ ((d.unit w).arm.tkind = 5 → w = u) := by
  rw [Dev.trigger_eq_some, Dev.holds]
  constructor
  · rintro (h | h | h | ⟨h, hrun, hn, hp⟩ | ⟨h, hw, hp⟩)
    · exact ⟨.inl h, fun h5 => absurd (h.1.symm.trans h5) (by decide)⟩
    · exact ⟨.inr (.inl h), fun h5 => absurd (h.1.symm.trans h5) (by decide)⟩
    · exact ⟨.inr (.inr (.inl h)), fun h5 => absurd (h.1.symm.trans h5) (by decide)⟩
    · exact ⟨.inr (.inr (.inr (.inl ⟨h, ⟨hrun, hn⟩, hp⟩))), fun h5 => absurd (h.symm.trans h5) (by decide)⟩
    · exact ⟨.inr (.inr (.inr (.inr ⟨h, hp⟩))), fun _ => hw⟩
  · rintro ⟨h | h | h | ⟨h, ⟨hrun, hn⟩, hp⟩ | ⟨h, hp⟩, hw⟩
    exacts [.inl h, .inr (.inl h), .inr (.inr (.inl h)), .inr (.inr (.inr (.inl ⟨h, hrun, hn, hp⟩))), .inr (.inr (.inr (.inr ⟨h, hw h, hp⟩)))]

theorem Dev.mem_triggers_of_holds (d : Dev) {u : Nat} {step : BitVec 17} {frac : BitVec 6} {w : Nat} {p : TrigPos} (hw : w < 16)
    (hp : (d.unit w).phase = .armed) (hg : (d.unit w).gmaster = (d.unit u).gmaster) (h : d.holds u step frac w p) : (w, p) ∈ d.triggers u step frac := by
  obtain ⟨htrigger, hown⟩ := Dev.holds_iff.1 h
  refine Dev.mem_triggers.2 ⟨hw, ?_, htrigger⟩
  by_cases h5 : (d.unit w).arm.tkind = 5
  · exact .inl (hown h5)
  · exact .inr (by simp [hp, hg, h5])

theorem Dev.holds_of_mem_triggers (d : Dev) {u : Nat} {step : BitVec 17} {frac : BitVec 6} (hu : u < 16) (hp : (d.unit u).phase = .armed) {w : Nat} {p : TrigPos}
    (h : (w, p) ∈ d.triggers u step frac) :
    (w < 16 ∧ (d.unit w).phase = .armed ∧ (d.unit w).gmaster = (d.unit u).gmaster) ∧ d.holds u step frac w p := by
  obtain ⟨hw, hj, htrigger⟩ := Dev.mem_triggers.1 h
  rcases hj with rfl | hj
  · exact ⟨⟨hu, hp, rfl⟩, Dev.holds_iff.2 ⟨htrigger, fun _ => rfl⟩⟩
  · simp only [Bool.and_eq_true, beq_iff_eq, bne_iff_ne, ne_eq] at hj
    obtain ⟨⟨hphase, hgroup⟩, h5⟩ := hj
    exact ⟨⟨hw, hphase, hgroup⟩, Dev.holds_iff.2 ⟨htrigger, fun h => absurd h h5⟩⟩

theorem Dev.acqTrigger_eq {step : BitVec 17} {frac : BitVec 6} {p : TrigPos} {v : Nat} {at_ : TrigPos} (hp : d.trigger (d.unit u) step frac = some p)
    (hf : firstTrigger (d.triggers u step frac) = some (v, at_)) : Dev.acqTrigger u step frac d = d.acqFire v at_ := by
  unfold Dev.acqTrigger
  rw [hp, hf]

-- disarming (R399, R408)

theorem AcqUnit.disarm_busy {x : AcqUnit} (h : x.phase = .armed ∨ x.phase = .triggered) : x.disarm = { x with phase := .idle, kept := [], window := [] } :=
  if_pos (by simpa using h)

theorem AcqUnit.disarm_other {x : AcqUnit} (h : ¬ (x.phase = .armed ∨ x.phase = .triggered)) : x.disarm = x :=
  if_neg (by simpa using h)

/-- The units that DISARM of a unit ends. -/
theorem Dev.unit_disarm (h : (d.unit u).phase = .armed ∨ (d.unit u).phase = .triggered) (w : Nat) : (d.askDisarm u).unit w =
    if ((d.unit w).phase = .armed ∨ (d.unit w).phase = .triggered) ∧ (w = u ∨ (d.unit u).master = true ∧ (d.unit w).gmaster = (d.unit u).gmaster)
      then { d.unit w with phase := .idle, kept := [], window := [] } else d.unit w := by
  have hdisarm (c : Prop) [Decidable c] (x : AcqUnit) : (if c then x.disarm else x) =
      if (x.phase = .armed ∨ x.phase = .triggered) ∧ c then { x with phase := .idle, kept := [], window := [] } else x := by
    by_cases hc : c
    · by_cases hx : x.phase = .armed ∨ x.phase = .triggered
      · rw [if_pos hc, if_pos ⟨hx, hc⟩, AcqUnit.disarm_busy hx]
      · rw [if_pos hc, if_neg fun h => hx h.1, AcqUnit.disarm_other hx]
    · rw [if_neg hc, if_neg fun h => hc h.2]
  refine Eq.trans ?_ (hdisarm _ _)
  unfold Dev.askDisarm Dev.acqDisarm
  dsimp only
  rw [if_pos h, if_neg (by simpa [or_iff_not_imp_left] using h)]
  by_cases hm : (d.unit u).master = true
  · rw [if_neg (by simp [hm])]
    refine (Tbl.get_mapAll {} d.acq (fun y => if y.gmaster = (d.unit u).gmaster then y.disarm else y) (ite_self _) w).trans ?_
    by_cases hw : w = u
    · subst hw
      rw [if_pos (c := w = w ∨ _) (.inl rfl)]
      exact if_pos rfl
    · exact if_congr ⟨fun h => .inr ⟨hm, h⟩, fun h => (h.resolve_left hw).2⟩ rfl rfl
  · rw [if_pos (by simpa using hm)]
    by_cases hw : w = u
    · subst hw
      rw [if_pos (.inl rfl)]
      exact Dev.unit_setUnit_same ..
    · rw [if_neg fun h => h.elim hw fun h => hm h.1]
      exact Dev.unit_setUnit_other _ hw _

theorem Dev.acqDisarm_eq_askDisarm (h : (d.unit u).phase = .armed ∨ (d.unit u).phase = .triggered) : d.askDisarm u = d.acqDisarm u := if_pos h

theorem Dev.acqForce_busy (h : (d.unit u).phase = .armed) : Dev.acqForce u d = d.acqFire u (d.posAt d.now false) := if_pos h

theorem Dev.acqForce_ignored (h : (d.unit u).phase ≠ .armed) : Dev.acqForce u d = d.ignore 0x10 := if_neg h

theorem Dev.askDisarm_ignored (h : ¬ ((d.unit u).phase = .armed ∨ (d.unit u).phase = .triggered)) : d.askDisarm u = d.ignore 0x10 := if_neg h

theorem traceRpWrite_runs (q : Requester) {i : BitVec 5} (v : Word) (s : State) (h : i.toNat < 17) :
    exec (.traceRpWrite q i v) s = run true (fun d => if d.isPf q = true then d.writeTraceRp i.toNat v else d) s :=
  congrArg (fun b => run b (fun d => if d.isPf q = true then d.writeTraceRp i.toNat v else d) s) (decide_eq_true h)

/-- A write of RP frees space; no overflow waits. -/
theorem Dev.writeTraceRp_eq {i : Nat} (h : 4 ≤ i) (v : Word) : d.writeTraceRp i v = (d.setStream i { d.stream i with rp := v }).streamRecover i :=
  if_neg (by simp [streamFixed]; omega)

theorem Dev.writeTraceRp_fits {i : Nat} (h : 4 ≤ i) (v : Word) (hd : (d.stream i).dropped = none) :
    d.writeTraceRp i v = d.setStream i { d.stream i with rp := v } := by
  rw [Dev.writeTraceRp_eq h]
  unfold Dev.streamRecover
  dsimp only
  rw [Dev.stream_setStream_same]
  dsimp only
  rw [hd]

theorem Dev.writeTraceRp_recovers {i n : Nat} (h : 4 ≤ i) (v : Word) (hd : (d.stream i).dropped = some n)
    (hroom : 31 ≤ Stream.avail { d.stream i with rp := v }) :
    ((d.writeTraceRp i v).stream i).dropped = none ∧ ((d.writeTraceRp i v).stream i).rp = v := by
  have hset : (d.setStream i { d.stream i with rp := v }).stream i = { d.stream i with rp := v } := Dev.stream_setStream_same ..
  obtain ⟨hdropped, hrp⟩ := Dev.streamRecover_shown (d := d.setStream i { d.stream i with rp := v }) n (by rw [hset]; exact hd) (by rw [hset]; exact hroom)
  rw [Dev.writeTraceRp_eq h]
  exact ⟨hdropped, hrp.trans (by rw [hset])⟩

/-- What firing a group does: its armed units have fired, and the others stand. -/
theorem Dev.acqFire_shown (h : (d.unit u).phase = .armed) (at_ : TrigPos)
    (hg : ∀ w, w < 16 ∧ (d.unit w).phase = .armed ∧ (d.unit w).gmaster = (d.unit u).gmaster → (d.unit w).arm.cellar = false ∧ (d.unit w).arm.post ≠ 0) :
    Keep [.events, .acq, .strong] d (d.acqFire u at_) ∧
    (∀ w, ¬ (w < 16 ∧ (d.unit w).phase = .armed ∧ (d.unit w).gmaster = (d.unit u).gmaster) → (d.acqFire u at_).unit w = d.unit w) ∧
    ∀ w, w < 16 ∧ (d.unit w).phase = .armed ∧ (d.unit w).gmaster = (d.unit u).gmaster →
      OnTheWay (d.acqFire u at_) (496 + w) ∧ (d.acqFire u at_).unit w = (d.unit w).fired u at_ := by
  have hall : ∀ w ∈ d.armedOf (d.unit u).gmaster, (d.unit w).arm.cellar = false ∧ (d.unit w).arm.post ≠ 0 := fun w hw => hg w (Dev.mem_armedOf.1 hw)
  rw [Dev.acqFire_eq h]
  obtain ⟨hout, hin, -⟩ := Dev.fireAll_shown (Dev.nodup_armedOf _) u at_ hall
  exact ⟨Dev.fireAll_parts (.refl _ d) (by decide) (by decide) (by decide) (Dev.nodup_armedOf _) u at_ hall, fun w hw => hout w fun h => hw (Dev.mem_armedOf.1 h),
    fun w hw => hin w (Dev.mem_armedOf.2 hw)⟩

end

/-- Settles O45: a stream by what its packets write; a unit by the branch of `Dev.acqRecord`; a group by firing each of its armed units, where the
first trigger is earlier than every other that holds; DISARM by the units it ends. -/
theorem traceAndAcquisitionRun : Obligations.TraceAndAcquisitionRun := by
  unfold Obligations.TraceAndAcquisitionRun
  refine fun s => ⟨fun c hon hrun hlast hroom => ?_, fun q i v hq h4 h17 => ⟨fun hd => ?_, fun hd hroom => ?_⟩,
    fun u payload fill type ws hs hf hdiv => ⟨fun hp hn => ?_, fun hp hpre => ?_, fun hp hn hc hl => ?_⟩,
    fun u => ⟨fun hp hg => ⟨fun step frac v at_ hown hv hfirst => ?_, fun q hq => ?_⟩, fun q hq hp => ?_⟩,
    fun q u hq => ⟨fun hb => ?_, fun hb => ?_⟩⟩
  · have hc : BitVec.ofNat 4 c.toNat = c := BitVec.ofNat_toNat ..
    refine completes_of_run (f := Dev.traceSyncTimer c) rfl (if_pos ⟨hon, hrun, hlast⟩) (by apply Dev.sync_keep (.refl _ _) <;> exact listed rfl) ?_
    refine (Dev.stream_sync c.isLt hroom 0).trans ?_
    rw [hc]
    rfl
  · exact completes_of_run (traceRpWrite_runs q v s h17) ((if_pos hq).trans (Dev.writeTraceRp_fits h4 v hd)) (Dev.setStream_keep (.refl _ _) (by decide) _ _)
      (Dev.stream_setStream_same ..)
  · obtain ⟨n, hn⟩ := Option.isSome_iff_exists.1 hd
    obtain ⟨hdropped, hrp⟩ := Dev.writeTraceRp_recovers h4 v hn hroom
    exact completes_of_run (traceRpWrite_runs q v s h17) (if_pos hq) (by apply Dev.writeTraceRp_keep (.refl _ _) <;> exact listed rfl) ⟨hdropped, hrp⟩
  · exact completes_of_run (f := Dev.acqRecord u.toNat payload fill.toNat) rfl (Dev.acqRecord_skips hs hf hp hn) (Dev.setUnit_keep (.refl _ _) (by decide) _ _)
      ⟨Dev.unit_setUnit_same .., fun w hw => Dev.unit_setUnit_other _ hw _⟩
  · exact completes_of_run (f := Dev.acqRecord u.toNat payload fill.toNat) rfl (Dev.acqRecord_armed hs hf hdiv hp hpre) (Dev.setUnit_keep (.refl _ _) (by decide) _ _)
      ⟨Dev.unit_setUnit_same .., fun w hw => Dev.unit_setUnit_other _ hw _⟩
  · obtain ⟨f, hsram, hd⟩ := Dev.acqRecord_kept hs hf hdiv hp hn hc hl
    refine completes_of_run (f := Dev.acqRecord u.toNat payload fill.toNat) rfl hd (Dev.setUnit_keep (Dev.setUnit_keep (Dev.modSram_keep
      (Dev.setUnit_keep (.refl _ _) (by decide) _ _) (by decide) f hsram) (by decide) _ _) (by decide) _ _) ⟨Dev.unit_setUnit_same .., fun w hw => ?_⟩
    rw [Dev.unit_setUnit_other _ hw, Dev.unit_setUnit_other _ hw, Dev.unit_modSram, Dev.unit_setUnit_other _ hw]
  · obtain ⟨own, hown⟩ := hown
    have htrigger {w : Nat} {p : TrigPos} (h : (w < 16 ∧ (s.dev.unit w).phase = .armed ∧ (s.dev.unit w).gmaster = (s.dev.unit u.toNat).gmaster) ∧
        s.dev.holds u.toNat step frac w p) : (w, p) ∈ s.dev.triggers u.toNat step frac := s.dev.mem_triggers_of_holds h.1.1 h.1.2.1 h.1.2.2 h.2
    have hfires := firstTrigger_eq (s.dev.triggers_ascend u.toNat step frac) (htrigger hv) fun y hy => by
      obtain ⟨w, p⟩ := y
      exact hfirst w p (s.dev.holds_of_mem_triggers u.isLt hp hy)
    have hgroup : (s.dev.unit v).gmaster = (s.dev.unit u.toNat).gmaster := hv.1.2.2
    obtain ⟨hk, hout, hin⟩ := Dev.acqFire_shown hv.1.2.1 at_ (hgroup ▸ hg)
    rw [hgroup] at hout hin
    exact completes_of_run (f := Dev.acqTrigger u.toNat step frac) rfl (Dev.acqTrigger_eq (Dev.mem_triggers.1 (htrigger hown)).2.2 hfires) hk ⟨hout, hin⟩
  · obtain ⟨hk, hout, hin⟩ := Dev.acqFire_shown hp (s.dev.posAt s.dev.now false) hg
    exact completes_of_run (f := fun d => if d.isPf q = true then d.acqForce u.toNat else d) rfl ((if_pos hq).trans (Dev.acqForce_busy hp)) hk ⟨hout, hin⟩
  · exact completes_of_run (f := fun d => if d.isPf q = true then d.acqForce u.toNat else d) rfl ((if_pos hq).trans (Dev.acqForce_ignored hp))
      (Dev.ignore_keep (.refl _ _) (by decide) _) rfl
  · exact completes_of_run (f := fun d => if d.isPf q = true then d.askDisarm u.toNat else d) rfl ((if_pos hq).trans (Dev.acqDisarm_eq_askDisarm hb))
      (Dev.acqDisarm_keep (.refl _ _) (by decide) _) fun w => Dev.acqDisarm_eq_askDisarm hb ▸ Dev.unit_disarm hb w
  · exact completes_of_run (f := fun d => if d.isPf q = true then d.askDisarm u.toNat else d) rfl ((if_pos hq).trans (Dev.askDisarm_ignored hb))
      (Dev.ignore_keep (.refl _ _) (by decide) _) rfl

end Sys2Proof.Machine
end

section
/-! The scheduler's tasks, timers and events (13_control_cores_and_observation.md R374 to R388) -/

namespace Sys2Proof.Machine
open Sys2Proof

section
variable {c d e : Dev}

theorem Dev.EnRoute.reheldAll {o : Occ} (h : d.EnRoute o) : d.reheldAll.EnRoute o := h.each fun _ _ h => h.reheld

-- user event sources that stay asserted (R296)

/-- One source's task is created again where it stays asserted. -/
def Dev.reasserted (d : Dev) (ev : Nat) : Dev :=
  if (d.route ev).ten ∧ !fwClass (d.route ev).tclass ∧ d.uevWaits ev ∧ !(d.sched.waiting.any fun h => h.source == .event (BitVec.ofNat 10 ev)) then
    d.newTask (.event (BitVec.ofNat 10 ev)) (d.route ev).tclass (BitVec.ofNat 64 d.nowNs) (d.dueOf (d.route ev).tclass d.nowNs) d.now
  else d

theorem Dev.reassert_eq (h : d.hubUp = true) : d.reassert = d.each ((Tbl.keys d.fabric.uev).map (896 + ·)) Dev.reasserted :=
  if_neg (by rw [h]; exact Bool.false_ne_true)

theorem Dev.reasserted_quiet {ev : Nat} (h : d.uevWaits ev = false) : d.reasserted ev = d := if_neg fun hc => Bool.false_ne_true (h.symm.trans hc.2.2.1)

theorem Dev.each_reasserted_quiet {l : List Nat} (h : ∀ ev ∈ l, d.uevWaits ev = false) : d.each l Dev.reasserted = d :=
  Dev.each_fixed fun ev hev => Dev.reasserted_quiet (h ev hev)

theorem Dev.uevWaits_of_quiet {ev : Nat} (h : d.liveStatus ev ≠ some true) : d.uevWaits ev = false := by
  unfold Dev.uevWaits
  rw [beq_false_of_ne h, Bool.and_false, Bool.false_and]

theorem Dev.uevWaits_of_task {ev : Nat} (h : ∃ t ∈ d.sched.tasks, t.source = .event (BitVec.ofNat 10 ev)) : d.uevWaits ev = false := by
  obtain ⟨t, ht, hs⟩ := h
  unfold Dev.uevWaits
  have hany : (d.sched.tasks.any fun t => t.source == .event (BitVec.ofNat 10 ev)) = true := List.any_eq_true.2 ⟨t, ht, beq_iff_eq.2 hs⟩
  rw [hany, Bool.not_true, Bool.and_false]

theorem Dev.reassert_quiet (h : ∀ k ∈ Tbl.keys d.fabric.uev, d.liveStatus (896 + k) ≠ some true) : d.reassert = d := by
  by_cases hup : d.hubUp = true
  · rw [Dev.reassert_eq hup]
    refine Dev.each_reasserted_quiet fun ev hev => ?_
    obtain ⟨k, hk, rfl⟩ := List.mem_map.1 hev
    exact Dev.uevWaits_of_quiet (h k hk)
  · exact if_pos (by simpa using hup)

theorem Dev.liveStatus_uev {ev : Nat} (h : 896 ≤ ev) : d.liveStatus ev = some (Tbl.get false d.fabric.uev (ev - 896)) := by
  unfold Dev.liveStatus
  iterate 13 rw [if_neg (by omega)]

theorem Dev.liveStatus_uev_of_fabric (h : e.fabric = d.fabric) {ev : Nat} (hev : 896 ≤ ev) : e.liveStatus ev = d.liveStatus ev := by
  rw [Dev.liveStatus_uev hev, Dev.liveStatus_uev hev, h]

-- creating a task (R374, R375)

/-- The task that entry `n` comes to hold. -/
def Dev.taskOf (d : Dev) (n : Nat) (src : TaskSource) (tclass : BitVec 8) (arg : BitVec 64) (due : Due) : Task :=
  { entry := n, source := src, tclass, arg, due,
    phase := if (match due with | .beat _ => true | .ns _ => false) && !d.time.run then .held else .pending, order := d.sched.order }

/-- The device with a task more. -/
def Dev.withTask (d : Dev) (t : Task) : Dev := d.modSched fun s => { s with tasks := s.tasks ++ [t], order := s.order + 1 }

section
variable {src : TaskSource} {tclass : BitVec 8} {arg : BitVec 64} {due : Due} {ts n : Nat}

theorem Dev.newTask_free (hm : d.sched.tasks.find? (mergesWith src) = none) (hf : d.freeEntry (fwClass tclass) = some n) :
    d.newTask src tclass arg due ts = ((d.withTask (d.taskOf n src tclass arg due)).dispatchAll.preempt n).reheldAll := by
  unfold Dev.newTask Dev.placeTask
  rw [hm]
  dsimp only
  rw [hf]
  rfl

/-- The scheduler but for phases of tasks, with the new one. -/
theorem Dev.newTask_rephased (hm : d.sched.tasks.find? (mergesWith src) = none) (hf : d.freeEntry (fwClass tclass) = some n) :
    (d.withTask (d.taskOf n src tclass arg due)).Rephased (d.newTask src tclass arg due ts) := by
  rw [Dev.newTask_free hm hf]
  exact ((Dev.dispatchAll_rephased _).trans (Dev.preempt_rephased ..)).trans (Dev.reheldAll_rephased _)

theorem Dev.newTask_created (hm : d.sched.tasks.find? (mergesWith src) = none) (hf : d.freeEntry (fwClass tclass) = some n) :
    ∃ t ∈ (d.newTask src tclass arg due ts).sched.tasks, t.entry = n ∧ t.source = src ∧ t.tclass = tclass ∧ t.arg = arg ∧ t.due = due ∧ t.count = 1 := by
  have hmem : d.taskOf n src tclass arg due ∈ (d.withTask (d.taskOf n src tclass arg due)).sched.tasks :=
    List.mem_append_right _ (List.mem_singleton_self _)
  obtain ⟨t, ht, htask⟩ := (Dev.newTask_rephased (ts := ts) hm hf).mem hmem
  exact ⟨t, ht, (congrArg Task.entry htask :), (congrArg Task.source htask :), (congrArg Task.tclass htask :), (congrArg Task.arg htask :),
    (congrArg Task.due htask :), (congrArg Task.count htask :)⟩

theorem Dev.newTask_full (hm : d.sched.tasks.find? (mergesWith src) = none) (hf : d.freeEntry (fwClass tclass) = none) {k : BitVec 4} (hs : src = .post k) :
    d.newTask src tclass arg due ts = d.modSched fun s => { s with waiting := s.waiting ++ [{ source := src, tclass, arg, due, ts }] } := by
  subst hs
  unfold Dev.newTask Dev.placeTask
  rw [hm]
  dsimp only
  rw [hf]
  rfl

/-- The scheduler with one more occurrence of the task that has entry `n`. -/
def Sched.merged (s : Sched) (n : Nat) : Sched :=
  { s with tasks := s.tasks.map fun z => if z.entry = n then { z with count := if z.count = 255 then 255 else z.count + 1 } else z }

theorem Dev.newTask_merged {y : Task} (hm : d.sched.tasks.find? (mergesWith src) = some y) :
    d.newTask src tclass arg due ts = d.modSched (·.merged y.entry) := by
  unfold Dev.newTask Dev.placeTask
  rw [hm]
  rfl

theorem mergesWith_post (k : BitVec 4) (l : List Task) : l.find? (mergesWith (.post k)) = none :=
  List.find?_eq_none.2 fun t _ => by simp [mergesWith]

theorem mergesWith_of_fresh {l : List Task} (h : ∀ t ∈ l, t.source ≠ src) : l.find? (mergesWith src) = none :=
  List.find?_eq_none.2 fun t ht hm => by
    simp only [mergesWith, Bool.and_eq_true, beq_iff_eq] at hm
    exact h t ht hm.1.2

end

/-- Freeing entries leaves a free entry. -/
theorem Dev.freeEntry_isSome (hf : e.fwres = d.fwres) (hs : ∀ t ∈ e.sched.tasks, ∃ t' ∈ d.sched.tasks, t'.entry = t.entry) (h : (d.freeEntry false).isSome = true) :
    (e.freeEntry false).isSome = true := by
  have hunused (n : Nat) (hn : (d.sched.tasks.any fun t => t.entry == n) = false) : (e.sched.tasks.any fun t => t.entry == n) = false := by
    refine List.any_eq_false.2 fun t ht hte => ?_
    obtain ⟨t', ht', hentry⟩ := hs t ht
    exact List.any_eq_false.1 hn t' ht' (by rw [hentry]; exact hte)
  unfold Dev.freeEntry at h ⊢
  simp only [Bool.false_eq_true, if_false, Option.isSome_map, List.find?_isSome, Bool.not_eq_true'] at h ⊢
  obtain ⟨n, hn, hfree⟩ := h
  exact ⟨n, hf ▸ hn, hunused _ (by rw [hf]; exact hfree)⟩

-- DONE (R379)

/-- The device as a core's innermost task has left it, before its next one. -/
def Dev.completed (d : Dev) (c : BitVec 4) (n : Nat) (rest : List Nat) (late : Bool) : Dev :=
  ((if late then ((d.countSched 0).modCore c fun x => { x with cnt := bumpAt x.cnt 0 }).raise (480 + c.toNat) else d).freeTask n).modCore c
    fun x => { x with stack := rest }

/-- A core as its innermost task has left it. -/
def Core.completed (x : Core) (rest : List Nat) (late : Bool) : Core :=
  if late then { x with stack := rest, cnt := bumpAt x.cnt 0 } else { x with stack := rest }

section
variable {k : BitVec 4} {n : Nat} {rest : List Nat} {late : Bool}

theorem Dev.core_of_cores (h : e.cores = d.cores) (k : BitVec 4) : e.core k = d.core k := by
  unfold Dev.core
  rw [h]

theorem Dev.completed_core : (d.completed k n rest late).core k = (d.core k).completed rest late := by
  cases late
  · exact Dev.core_modCore_same ..
  · have hcounted : ((((d.countSched 0).modCore k fun x => { x with cnt := bumpAt x.cnt 0 }).raise (480 + k.toNat)).freeTask n).core k =
        ((d.countSched 0).modCore k fun x => { x with cnt := bumpAt x.cnt 0 }).core k := Dev.core_of_cores rfl k
    have hcore : ((d.countSched 0).modCore k fun x => { x with cnt := bumpAt x.cnt 0 }).core k = { d.core k with cnt := bumpAt (d.core k).cnt 0 } := by
      rw [Dev.core_modCore_same]
      exact congrArg (fun x : Core => { x with cnt := bumpAt x.cnt 0 }) (Dev.core_of_cores rfl k)
    unfold Dev.completed Core.completed
    rw [if_pos rfl, if_pos rfl, Dev.core_modCore_same, hcounted, hcore]

theorem Dev.completed_sched : (d.completed k n rest late).sched =
    { d.sched with tasks := d.sched.tasks.filter fun t => t.entry != n, cnt := if late then bumpAt d.sched.cnt 0 else d.sched.cnt } := by
  cases late <;> rfl

theorem Dev.completed_raised : ∃ o, (d.completed k n rest true).EnRoute o ∧ o.ev = BitVec.ofNat 10 (480 + k.toNat) :=
  ⟨_, List.mem_append_right _ (List.mem_singleton_self _), rfl⟩

theorem Dev.completed_keep : Keep [.events, .rings, .cores, .sched] d (d.completed k n rest late) := by
  unfold Dev.completed
  refine Dev.modCore_keep (Dev.freeTask_keep ?_ (by decide) _) (by decide) _ _
  refine Keep.ite ?_ (.refl _ _)
  exact Dev.raise_keep (Dev.modCore_keep (Dev.countSched_keep (.refl _ _) (by decide) _) (by decide) _ _) (by decide) _ _

/-- No task waits, and the innermost suspended task of the core resumes. -/
theorem Dev.nextTask_alone (hp : ∀ t ∈ d.sched.tasks, t.phase ≠ .pending) (k : BitVec 4) :
    d.nextTask k.toNat = (((d.core k).stack.head?.bind d.task?).map fun t => d.setPhase t.entry .running).getD d := by
  have hpending : d.pendingTasks = [] := List.filter_eq_nil_iff.2 fun t ht hphase => hp t ht (by simpa using hphase)
  have hcore : d.coreAt k.toNat = d.core k := congrArg d.core (BitVec.ofNat_toNat ..)
  unfold Dev.nextTask
  dsimp only
  rw [hpending, hcore]
  cases (d.core k).stack.head?.bind d.task? with
  | none => rfl
  | some t => rfl

theorem Dev.task?_eq_some {t : Task} (h : d.task? n = some t) : t.entry = n := by simpa using List.find?_some h

/-- Of the scheduler only the next task of the core has changed, and nothing else. -/
theorem Dev.nextTask_cases (hp : ∀ t ∈ d.sched.tasks, t.phase ≠ .pending) (k : BitVec 4) :
    d.nextTask k.toNat = d ∨ ∃ r, d.nextTask k.toNat = d.setPhase r .running := by
  rw [Dev.nextTask_alone hp]
  cases (d.core k).stack.head?.bind d.task? with
  | none => exact .inl rfl
  | some t => exact .inr ⟨t.entry, rfl⟩

theorem Dev.nextTask_resumes (hp : ∀ t ∈ d.sched.tasks, t.phase ≠ .pending) {r : Nat} {more : List Nat} (hs : (d.core k).stack = r :: more) {y : Task}
    (hy : y ∈ d.sched.tasks) (hr : y.entry = r) : { y with phase := .running } ∈ (d.nextTask k.toNat).sched.tasks := by
  obtain ⟨t, ht⟩ : ∃ t, d.task? r = some t := Option.isSome_iff_exists.1 (List.find?_isSome.2 ⟨y, hy, by simpa using hr⟩)
  have hnext : d.nextTask k.toNat = d.setPhase r .running := by
    rw [Dev.nextTask_alone hp, hs]
    show ((d.task? r).map _).getD d = _
    rw [ht, ← Dev.task?_eq_some ht]
    rfl
  rw [hnext]
  exact List.mem_map.2 ⟨y, hy, if_pos hr⟩

theorem Dev.setPhase_running_waits {r : Nat} (hp : ∀ t ∈ d.sched.tasks, t.phase ≠ .pending) : ∀ t ∈ (d.setPhase r .running).sched.tasks, t.phase ≠ .pending := by
  intro t ht
  obtain ⟨t', ht', rfl⟩ := List.mem_map.1 ht
  split
  · exact nofun
  · exact hp t' ht'

/-- The device as the core's next task has resumed, where it has one. -/
def Dev.resumed (d : Dev) (c : BitVec 4) (n : Nat) (rest : List Nat) (late : Bool) : Dev :=
  if rest.isEmpty then d.completed c n rest late else (d.completed c n rest late).nextTask c.toNat

section
variable (hp : ∀ t ∈ d.sched.tasks, t.phase ≠ .pending)
include hp

theorem Dev.completed_waits : ∀ t ∈ (d.completed k n rest late).sched.tasks, t.phase ≠ .pending := fun t ht => by
  rw [Dev.completed_sched] at ht
  exact hp t (List.mem_filter.1 ht).1

theorem Dev.resumed_cases (late : Bool) : d.resumed k n rest late = d.completed k n rest late ∨
    rest ≠ [] ∧ ∃ r, d.resumed k n rest late = (d.completed k n rest late).setPhase r .running := by
  unfold Dev.resumed
  split
  · exact .inl rfl
  · next h => exact (Dev.nextTask_cases (Dev.completed_waits hp) k).imp_right fun hr => ⟨fun hr => h (hr ▸ rfl), hr⟩

theorem Dev.resumed_waits : ∀ t ∈ (d.resumed k n rest late).sched.tasks, t.phase ≠ .pending := by
  rcases Dev.resumed_cases hp late with h | ⟨-, r, h⟩ <;> rw [h]
  · exact Dev.completed_waits hp
  · exact Dev.setPhase_running_waits (Dev.completed_waits hp)

theorem Dev.resumed_sched : (d.resumed k n rest late).sched =
    { d.sched with tasks := (d.resumed k n rest late).sched.tasks, cnt := if late then bumpAt d.sched.cnt 0 else d.sched.cnt } := by
  rcases Dev.resumed_cases hp late with h | ⟨-, r, h⟩ <;> rw [h]
  · rw [Dev.completed_sched]
  · have hsched : ((d.completed k n rest late).setPhase r .running).sched =
        { (d.completed k n rest late).sched with tasks := ((d.completed k n rest late).setPhase r .running).sched.tasks } := rfl
    rw [hsched, Dev.completed_sched]

/-- The entries of the tasks that are left are entries of tasks. -/
theorem Dev.resumed_entries : ∀ t ∈ (d.resumed k n rest late).sched.tasks, ∃ t' ∈ d.sched.tasks, t'.entry = t.entry := by
  intro t ht
  have hcompleted : ∀ t ∈ (d.completed k n rest late).sched.tasks, t ∈ d.sched.tasks := fun t ht => by
    rw [Dev.completed_sched] at ht
    exact (List.mem_filter.1 ht).1
  rcases Dev.resumed_cases hp late with h | ⟨-, r, h⟩ <;> rw [h] at ht
  · exact ⟨t, hcompleted t ht, rfl⟩
  · obtain ⟨t', ht', rfl⟩ := List.mem_map.1 ht
    refine ⟨t', hcompleted t' ht', ?_⟩
    split <;> rfl

theorem Dev.resumed_core : (d.resumed k n rest late).core k = (d.core k).completed rest late := by
  rcases Dev.resumed_cases hp late with h | ⟨-, r, h⟩ <;> rw [h]
  · exact Dev.completed_core
  · exact (Dev.core_of_cores rfl k).trans Dev.completed_core

theorem Dev.resumed_events : (d.resumed k n rest late).events = (d.completed k n rest late).events := by
  rcases Dev.resumed_cases hp late with h | ⟨-, r, h⟩ <;> rw [h]
  rfl

theorem Dev.resumed_keep : Keep [.events, .rings, .cores, .sched] d (d.resumed k n rest late) := by
  rcases Dev.resumed_cases hp late with h | ⟨-, r, h⟩ <;> rw [h]
  · exact Dev.completed_keep
  · exact Dev.setPhase_keep Dev.completed_keep (by decide) _ _

/-- What a task's end leaves, where nothing waits at a source and no task for a core. -/
theorem Dev.done_eq (hw : d.sched.waiting = []) {t : Task} (hs : (d.core k).stack = n :: rest) (ht : d.task? n = some t) :
    Dev.done k d = (d.resumed k n rest (decide (d.deadline t < d.now))).reheldAll.reassert := by
  have hstill (late : Bool) : (d.resumed k n rest late).refillAll.dispatchAll = d.resumed k n rest late := by
    rw [Dev.refillAll_of_none (by rw [Dev.resumed_sched hp]; exact hw), Dev.dispatchAll_of_none (Dev.resumed_waits hp)]
  unfold Dev.done
  rw [hs]
  dsimp only
  rw [ht]
  exact congrArg (fun d => d.reheldAll.reassert) (hstill _)

end

/-- A user event source that stays asserted has its task created again. -/
theorem Dev.each_reasserted_created {ev : BitVec 10} {l : List Nat} (hw : d.sched.waiting = []) (hev : 896 ≤ ev.toNat) (hk : ev.toNat - 896 ∈ l)
    (hlive : ∀ k ∈ l, d.liveStatus (896 + k) = some true ↔ k = ev.toNat - 896) (hfresh : ∀ t ∈ d.sched.tasks, t.source ≠ .event ev)
    (hten : (d.route ev.toNat).ten = true) (hclass : fwClass (d.route ev.toNat).tclass = false) (hfree : (d.freeEntry false).isSome = true) :
    ∃ y ∈ (d.each (l.map (896 + ·)) Dev.reasserted).sched.tasks, y.source = .event ev ∧ y.tclass = (d.route ev.toNat).tclass ∧
      y.arg = BitVec.ofNat 64 d.nowNs ∧ y.due = d.dueOf (d.route ev.toNat).tclass d.nowNs := by
  induction l with
  | nil => exact nomatch hk
  | cons a l ih =>
    obtain ⟨ha, hl⟩ := List.forall_mem_cons.1 hlive
    rw [List.map_cons, Dev.each, List.foldl_cons]
    by_cases hak : a = ev.toNat - 896
    · have hnum : 896 + a = ev.toNat := by omega
      have hsrc : BitVec.ofNat 10 ev.toNat = ev := BitVec.ofNat_toNat ..
      have hwaits : d.uevWaits ev.toNat = true := by
        have hasserted : d.liveStatus ev.toNat = some true := hnum ▸ ha.2 hak
        have hnone : (d.sched.tasks.any fun t => t.source == .event ev) = false := List.any_eq_false.2 fun t ht => by simpa using hfresh t ht
        unfold Dev.uevWaits
        rw [hasserted, hsrc, hnone, decide_eq_true hev]
        rfl
      obtain ⟨n, hn⟩ := Option.isSome_iff_exists.1 hfree
      obtain ⟨y, hy, -, hsource, htclass, harg, hdue, -⟩ := Dev.newTask_created (src := .event ev) (arg := BitVec.ofNat 64 d.nowNs)
        (due := d.dueOf (d.route ev.toNat).tclass d.nowNs) (ts := d.now) (mergesWith_of_fresh hfresh) (hclass ▸ hn)
      have hstep : d.reasserted (896 + a) = d.newTask (.event ev) (d.route ev.toNat).tclass (BitVec.ofNat 64 d.nowNs)
          (d.dueOf (d.route ev.toNat).tclass d.nowNs) d.now := by
        unfold Dev.reasserted
        rw [hnum, hsrc, if_pos ⟨hten, by rw [hclass]; rfl, hwaits, by rw [hw]; rfl⟩]
      have hfabric := (Dev.newTask_keep (.refl [.events, .rings, .cores, .sched] d) (by decide) (by decide) (by decide) (by decide) (.event ev) (d.route ev.toNat).tclass
        (BitVec.ofNat 64 d.nowNs) (d.dueOf (d.route ev.toNat).tclass d.nowNs) d.now).fabric.resolve_left (by decide)
      rw [hstep]
      refine ⟨y, ?_, hsource, htclass, harg, hdue⟩
      have hquiet {e : Dev} (h : ∀ n ∈ l.map (896 + ·), e.uevWaits n = false) : (l.map (896 + ·)).foldl Dev.reasserted e = e := Dev.each_reasserted_quiet h
      rw [hquiet fun n hn => ?_]
      · exact hy
      obtain ⟨k, hk, rfl⟩ := List.mem_map.1 hn
      by_cases hkk : k = a
      · exact Dev.uevWaits_of_task ⟨y, hy, by rw [hkk, hnum, hsrc]; exact hsource⟩
      · refine Dev.uevWaits_of_quiet ?_
        rw [Dev.liveStatus_uev_of_fabric hfabric (by omega)]
        exact fun h => hkk (((hl k hk).1 h).trans hak.symm)
    · rw [Dev.reasserted_quiet (Dev.uevWaits_of_quiet fun h => hak (ha.1 h))]
      exact ih ((List.mem_cons.1 hk).resolve_left fun h => hak h.symm) hl

end
end

-- the device as DONE leaves it but for user events

section
variable {d : Dev} {k : BitVec 4} {n : Nat} {rest : List Nat} {late : Bool} (hp : ∀ t ∈ d.sched.tasks, t.phase ≠ .pending)
include hp

theorem Dev.rested_keep : Keep [.events, .rings, .cores, .sched] d (d.resumed k n rest late).reheldAll := Dev.reheldAll_keep (Dev.resumed_keep hp) (by decide) (by decide)

omit hp in
theorem Dev.rested_sched : (d.resumed k n rest late).reheldAll.sched = (d.resumed k n rest late).sched :=
  (Dev.reheldAll_keep (.refl [.events, .rings] _) (by decide) (by decide)).sched.resolve_left (by decide)

theorem Dev.rested_quiet (h : ∀ k ∈ Tbl.keys d.fabric.uev, d.liveStatus (896 + k) ≠ some true) :
    (d.resumed k n rest late).reheldAll.reassert = (d.resumed k n rest late).reheldAll := by
  have hfabric : (d.resumed k n rest late).reheldAll.fabric = d.fabric := (Dev.rested_keep hp).fabric.resolve_left (by decide)
  refine Dev.reassert_quiet fun k hk => ?_
  rw [Dev.liveStatus_uev_of_fabric hfabric (by omega)]
  exact h k (hfabric ▸ hk)

theorem Dev.rested_reasserts {ev : BitVec 10} (hw : d.sched.waiting = []) (hev : 896 ≤ ev.toNat) (hk : ev.toNat - 896 ∈ Tbl.keys d.fabric.uev)
    (hlive : ∀ k ∈ Tbl.keys d.fabric.uev, d.liveStatus (896 + k) = some true ↔ k = ev.toNat - 896)
    (hfresh : ∀ t ∈ d.sched.tasks, t.source = .event ev → t.entry = n) (hup : d.hubUp = true) (hten : (d.route ev.toNat).ten = true)
    (hclass : fwClass (d.route ev.toNat).tclass = false) (hfree : (d.freeEntry false).isSome = true) :
    ∃ y ∈ (d.resumed k n [] late).reheldAll.reassert.sched.tasks, y.source = .event ev ∧ y.tclass = (d.route ev.toNat).tclass ∧
      y.arg = BitVec.ofNat 64 d.nowNs ∧ y.due = d.dueOf (d.route ev.toNat).tclass d.nowNs := by
  have hkeep := Dev.rested_keep (k := k) (n := n) (rest := []) (late := late) hp
  have hsched := (Dev.rested_sched (d := d) (k := k) (n := n) (rest := []) (late := late)).trans (Dev.resumed_sched hp)
  have htasks : (d.resumed k n [] late).sched.tasks = d.sched.tasks.filter fun t => t.entry != n := congrArg Sched.tasks Dev.completed_sched
  rw [htasks] at hsched
  generalize (d.resumed k n [] late).reheldAll = e at hkeep hsched
  have hfabric : e.fabric = d.fabric := hkeep.fabric.resolve_left (by decide)
  have hnow : e.nowNs = d.nowNs := congrArg (· / ns) (hkeep.now.resolve_left (by decide))
  have hroute : e.route ev.toNat = d.route ev.toNat := by
    unfold Dev.route
    rw [hsched]
  have hdue (t : BitVec 8) (n : Nat) : e.dueOf t n = d.dueOf t n := by
    unfold Dev.dueOf Dev.tmpl
    rw [hsched, hkeep.time.resolve_left (by decide)]
  have hhub : e.hubUp = true := by
    unfold Dev.hubUp Dev.halted at hup ⊢
    rwa [hkeep.power.resolve_left (by decide), hkeep.time.resolve_left (by decide)]
  have hreassert := Dev.reassert_eq hhub
  rw [hreassert, ← hnow, ← hdue, ← hroute]
  refine Dev.each_reasserted_created (by rw [hsched]; exact hw) hev (hfabric ▸ hk) (fun k hk => ?_) (fun t ht hsource => ?_) (hroute ▸ hten) (hroute ▸ hclass)
    (Dev.freeEntry_isSome (hkeep.fwres.resolve_left (by decide)) (fun t ht => ?_) hfree)
  · rw [Dev.liveStatus_uev_of_fabric hfabric (by omega)]
    exact hlive k (hfabric ▸ hk)
  · rw [hsched] at ht
    obtain ⟨ht, hentry⟩ := List.mem_filter.1 ht
    exact absurd (hfresh t ht hsource) (by simpa using hentry)
  · rw [hsched] at ht
    exact ⟨t, (List.mem_filter.1 ht).1, rfl⟩

/-- What DONE shows of the core and of the tasks. -/
theorem Dev.rested_shown {t : Task} :
    (d.deadline t < d.now → OnTheWay (d.resumed k n rest (decide (d.deadline t < d.now))).reheldAll (480 + k.toNat) ∧
      (d.resumed k n rest (decide (d.deadline t < d.now))).reheldAll.core k = { d.core k with stack := rest, cnt := bumpAt (d.core k).cnt 0 } ∧
      (d.resumed k n rest (decide (d.deadline t < d.now))).reheldAll.sched.cnt = bumpAt d.sched.cnt 0) ∧
    (¬ d.deadline t < d.now → (d.resumed k n rest (decide (d.deadline t < d.now))).reheldAll.core k = { d.core k with stack := rest } ∧
      (d.resumed k n rest (decide (d.deadline t < d.now))).reheldAll.sched.cnt = d.sched.cnt) ∧
    (rest = [] → (d.resumed k n rest (decide (d.deadline t < d.now))).reheldAll.sched.tasks = d.sched.tasks.filter fun y => y.entry != n) ∧
    ∀ (r : Nat) (more : List Nat), rest = r :: more → r ≠ n → ∀ y ∈ d.sched.tasks, y.entry = r →
      { y with phase := .running } ∈ (d.resumed k n rest (decide (d.deadline t < d.now))).reheldAll.sched.tasks := by
  have hcore (late : Bool) : (d.resumed k n rest late).reheldAll.core k = (d.core k).completed rest late :=
    (Dev.core_of_cores ((Dev.reheldAll_keep (.refl [.events, .rings] _) (by decide) (by decide)).cores.resolve_left (by decide)) k).trans (Dev.resumed_core hp)
  have hcnt (late : Bool) : (d.resumed k n rest late).reheldAll.sched.cnt = if late then bumpAt d.sched.cnt 0 else d.sched.cnt := by
    rw [Dev.rested_sched, Dev.resumed_sched hp]
  refine ⟨fun hl => ?_, fun hl => ?_, fun hrest => ?_, fun r more hrest hr y hy hentry => ?_⟩
  · rw [hcore, hcnt, decide_eq_true hl]
    obtain ⟨o, ho, hev⟩ := Dev.completed_raised (d := d) (k := k) (n := n) (rest := rest)
    exact ⟨⟨o, Dev.EnRoute.reheldAll (show o ∈ _ by rw [Dev.resumed_events hp]; exact ho), hev⟩, rfl, rfl⟩
  · rw [hcore, hcnt, decide_eq_false hl]
    exact ⟨rfl, rfl⟩
  · subst hrest
    exact (congrArg Sched.tasks (Dev.rested_sched)).trans (congrArg Sched.tasks Dev.completed_sched)
  · subst hrest
    rw [Dev.rested_sched]
    refine Dev.nextTask_resumes (Dev.completed_waits hp) (by rw [Dev.completed_core]; unfold Core.completed; split <;> rfl) ?_ hentry
    rw [Dev.completed_sched]
    exact List.mem_filter.2 ⟨hy, by simpa [hentry] using hr⟩

end

-- deliveries (R387, R388)

section
variable {d : Dev} {o : Occ}

theorem Dev.deliver_down (h : d.hubUp = false) : d.deliver o = d := if_pos (by rw [h]; rfl)

/-- What the acquisition units and the fuse box receive. -/
def Dev.noticed (d : Dev) (o : Occ) : Dev := (d.putAcq (Tbl.mapAll {} d.acq (AcqUnit.receive o))).fuseReceive o

theorem Dev.deliver_quiet (hup : d.hubUp = true) (hten : (d.route o.ev.toNat).ten = false) (htrc : (d.route o.ev.toNat).trc = false) :
    d.deliver o = (if (d.route o.ev.toNat).ien then d.msix (d.route o.ev.toNat).fn (d.route o.ev.toNat).vector else d).noticed o := by
  unfold Dev.deliver
  dsimp only
  rw [hup, hten, htrc]
  rfl

theorem Dev.deliver_message (hup : d.hubUp = true) (hten : (d.route o.ev.toNat).ten = false) (htrc : (d.route o.ev.toNat).trc = false)
    (hien : (d.route o.ev.toNat).ien = true) (hmask : (d.route o.ev.toNat).fn.toNat * 2048 + (d.route o.ev.toNat).vector.toNat ∉ d.sched.msixMasked) :
    d.deliver o = (d.emit (.msix (d.route o.ev.toNat).fn (d.route o.ev.toNat).vector)).noticed o := by
  rw [Dev.deliver_quiet hup hten htrc, if_pos hien, Dev.msix_unmasked hmask]

theorem Dev.deliver_noticed (hup : d.hubUp = true) (hten : (d.route o.ev.toNat).ten = false) (htrc : (d.route o.ev.toNat).trc = false)
    (hien : (d.route o.ev.toNat).ien = false) : d.deliver o = d.noticed o := by
  rw [Dev.deliver_quiet hup hten htrc, if_neg (by rw [hien]; exact Bool.false_ne_true)]

theorem Dev.noticed_rest (d : Dev) (o : Occ) : d.noticed o = { d with acq := (d.noticed o).acq, fuse := (d.noticed o).fuse } := by
  unfold Dev.noticed Dev.fuseReceive
  split <;> rfl

theorem Dev.noticed_acq (d : Dev) (o : Occ) : (d.noticed o).acq = Tbl.mapAll {} d.acq (AcqUnit.receive o) := by
  unfold Dev.noticed Dev.fuseReceive
  split <;> rfl

theorem Dev.noticed_fuse (h : d.fuse.released = true) : (d.noticed o).fuse = { d.fuse with
    window := insertOcc o d.fuse.window, srcs := Tbl.modify {} d.fuse.srcs o.ev.toNat fun x => { x with cnt := x.cnt.bump } } := by
  unfold Dev.noticed Dev.fuseReceive
  rw [if_neg (by show ¬ (!d.fuse.released) = true; rw [h]; exact Bool.false_ne_true)]
  rfl

theorem Dev.noticed_keep {ps : List Part} {e : Dev} (h : Keep ps e d) (hacq : .acq ∈ ps) (hfuse : .fuse ∈ ps) : Keep ps e (d.noticed o) :=
  Dev.fuseReceive_keep (Dev.putAcq_keep h hacq _) hfuse _

theorem Dev.msix_tasks (fn : BitVec 6) (vector : BitVec 11) : (d.msix fn vector).sched.tasks = d.sched.tasks := by
  unfold Dev.msix
  dsimp only
  split <;> rfl

theorem Dev.deliver_tasks (hup : d.hubUp = true) (hten : (d.route o.ev.toNat).ten = true) (hclass : fwClass (d.route o.ev.toNat).tclass = false) :
    (d.deliver o).sched.tasks = (d.newTask (.event o.ev) (d.route o.ev.toNat).tclass (BitVec.ofNat 64 (o.ts / ns))
      (d.dueOf (d.route o.ev.toNat).tclass (o.ts / ns)) o.ts).sched.tasks := by
  unfold Dev.deliver
  dsimp only
  rw [hup, if_neg (by decide), if_pos (c := (d.route o.ev.toNat).ten = true ∧ _) ⟨hten, by rw [hclass]; rfl⟩]
  generalize d.newTask (.event o.ev) (d.route o.ev.toNat).tclass (BitVec.ofNat 64 (o.ts / ns)) (d.dueOf (d.route o.ev.toNat).tclass (o.ts / ns)) o.ts = e
  have hfuse (d : Dev) : (d.fuseReceive o).sched = d.sched := by
    unfold Dev.fuseReceive
    split <;> rfl
  rw [hfuse]
  have htrace (d : Dev) (c : Bool) : (if c then d.trace 3 o.ev.toNat 0 0 o.beat o.ts else d).sched = d.sched := by
    split
    · exact (Dev.trace_keep (.refl [.free, .events, .net, .cellar, .cores, .strong] d) (by decide) (by decide) (by decide) (by decide) (by decide) (by decide) _ _ _ _ _ _).sched.resolve_left (by decide)
    · rfl
  refine (congrArg Sched.tasks (htrace _ _)).trans ?_
  split
  · exact Dev.msix_tasks ..
  · rfl

/-- The device as an occurrence is on its way no more, and a room's has crossed the network. -/
def Dev.handed (d : Dev) (rest : List Occ) (o : Occ) (found : Bool) : Dev :=
  { d with events := rest
           net := if found = true ∧ o.ev < 256
             then d.net.carry (.room (o.ev.setWidth 8)) (.hub 5) (evtFlits (.room (o.ev.setWidth 8)) (.hub 5) o.beat false 3 (o.ev.toNat * 2 ^ 64 + o.ts / ns))
             else d.net }

theorem Dev.handed_keep {ps : List Part} (hevents : .events ∈ ps) (hnet : .net ∈ ps) {rest : List Occ} {found : Bool} : Keep ps d (d.handed rest o found) := by
  exact Dev.putNet_keep (Dev.putEvents_keep (.refl _ _) hevents rest) hnet _

theorem Dev.eventOccurrence_eq {ev : BitVec 10} {detail : BitVec 64} {rest : List Occ} (ho : takeOcc ev d.events = some (o, rest) ∨
      takeOcc ev d.events = none ∧ rest = d.events ∧ o = { ev, ts := d.now, detail, beat := d.beatAt d.now })
    (h : ¬ (ev.toNat < 256 ∧ d.roomDisabled (BitVec.ofNat 8 ev.toNat) = true)) :
    Dev.eventOccurrence ev detail d = (d.handed rest o (takeOcc ev d.events).isSome).deliver o := by
  unfold Dev.eventOccurrence
  rw [if_neg h]
  rcases ho with ho | ⟨ho, rfl, rfl⟩
  · rw [ho]
    refine congrArg (Dev.deliver · o) ?_
    unfold Dev.carryEvent Dev.handed
    by_cases hev : o.ev < 256
    · rw [if_pos hev, if_pos ⟨rfl, hev⟩]
      rfl
    · rw [if_neg hev, if_neg fun h => hev h.2]
      rfl
  · rw [ho]
    rfl

end

section
variable {d : Dev}

theorem fwClass_of_le {t : BitVec 8} (h : 64 ≤ t.toNat) : fwClass t = false := decide_eq_false (by omega)

-- timers and posts (R375, R381)

/-- A timer that has fired. -/
def Timer.fired (t : Timer) : Timer := if t.periodic then { t with next := t.next + BitVec.ofNat 64 t.step } else { t with armed := false }

theorem Timer.fired_eq {t : Timer} (h : t.beats = false) : t.fired =
    if t.periodic = true then { t with next := t.next + BitVec.ofNat 64 (max 1000 t.period.toNat) } else { t with armed := false } := by
  unfold Timer.fired Timer.step
  rw [h]
  rfl

/-- The device with a timer fired, at a device time. -/
def Dev.fired (d : Dev) (i : BitVec 6) (t : Nat) : Dev := (d.reach t).modTimer i Timer.fired

theorem Dev.fired_now (i : BitVec 6) (t : Nat) : (d.fired i t).now = max d.now t := congrArg Dev.now (d.reach_eq t)

theorem Dev.fired_sched (i : BitVec 6) (t : Nat) : (d.fired i t).sched = { d.sched with timers := Tbl.set {} d.sched.timers i.toNat (d.timer i).fired } := by
  unfold Dev.fired
  rw [Dev.reach_eq]
  rfl

theorem Dev.fired_keep (i : BitVec 6) (t : Nat) : Keep [.now, .sched] d (d.fired i t) := Dev.modTimer_keep (Dev.reach_keep (.refl _ _) (by decide) _) (by decide) _ _

theorem Dev.fired_dueOf (i : BitVec 6) (t : Nat) (c : BitVec 8) (n : Nat) : (d.fired i t).dueOf c n = d.dueOf c n := by
  unfold Dev.dueOf Dev.tmpl
  rw [Dev.fired_sched, (Dev.fired_keep i t).time.resolve_left (by decide)]

theorem Dev.fired_freeEntry (i : BitVec 6) (t : Nat) (fw : Bool) : (d.fired i t).freeEntry fw = d.freeEntry fw := by
  unfold Dev.freeEntry
  rw [Dev.fired_sched, (Dev.fired_keep i t).fwres.resolve_left (by decide)]

theorem Dev.timerFire_eq {i : BitVec 6} (hen : (d.timer i).en = true) (harm : (d.timer i).armed = true) (hb : (d.timer i).beats = false)
    (hc : fwClass (d.timer i).tclass = false) :
    Dev.timerFire i d = (d.fired i ((d.timer i).next.toNat * ns)).newTask (.timer i) (d.timer i).tclass (d.timer i).next
      (d.dueOf (d.timer i).tclass (d.timer i).next.toNat) ((d.timer i).next.toNat * ns) := by
  rw [← Dev.fired_dueOf i ((d.timer i).next.toNat * ns)]
  have hready : ¬ (!((d.timer i).en && (d.timer i).armed && (!(d.timer i).beats || (d.time.run && decide ((d.timer i).next ≤ d.time.n))))) = true := by
    rw [hen, harm, hb]
    exact Bool.false_ne_true
  have hbeats : ¬ (d.timer i).beats = true := by rw [hb]; exact Bool.false_ne_true
  have hclass : ¬ fwClass (d.timer i).tclass = true := by rw [hc]; exact Bool.false_ne_true
  unfold Dev.timerFire
  dsimp only
  rw [if_neg hready, if_neg hbeats, if_neg hbeats, if_neg hclass, BitVec.ofNat_toNat, BitVec.setWidth_eq]
  rfl

theorem Dev.post_eq {k : BitVec 4} {v : Word} (h : (d.core k).able = true) (hc : fwClass (v.setWidth 8) = decide (k.toNat < 4)) :
    Dev.post k v d = d.newTask (.post k) (v.setWidth 8) (d.core k).postArg
      (if (d.core k).postDl = 0 then d.dueOf (v.setWidth 8) d.nowNs else .ns (d.core k).postDl) d.now := by
  unfold Dev.post
  dsimp only
  rw [if_neg (by rw [h]; decide), if_neg (not_not.2 hc)]

theorem Dev.post_ignored {k : BitVec 4} {v : Word} (h : (d.core k).able = true) (hc : fwClass (v.setWidth 8) ≠ decide (k.toNat < 4)) :
    Dev.post k v d = d.countSched 3 := by
  unfold Dev.post
  dsimp only
  rw [if_neg (by rw [h]; decide), if_pos hc]

theorem Dev.kick_eq {k : BitVec 4} (h : (d.core k).able = true) :
    (if (d.core k).able then d.modCore k fun x => { x with wdogSince := d.now } else d) = d.modCore k fun x => { x with wdogSince := d.now } := if_pos h

end

/-- Settles O44: a task comes by `Dev.newTask`, DONE ends one by `Dev.done_eq`, and an occurrence is delivered. -/
theorem schedulerRunsTasks : Obligations.SchedulerRunsTasks := by
  unfold Obligations.SchedulerRunsTasks
  refine fun s => ⟨fun c hable => ?_, fun c e rest t hstack ht hw hp => ⟨fun ev hev hsource hrest hkey hlive hfresh hup hten hclass hfree => ?_, fun hquiet => ?_⟩,
    fun c v hable => ⟨fun e hc hf => ?_, fun hc hf => ?_, fun hc => ?_⟩, fun q i v hq => ?_, fun i hen harm hb hc => ⟨fun e hm hf => ?_, fun y hm => ?_⟩,
    fun ev detail o rest ho hroom => ⟨fun hdown => ?_, fun hup hten htrc => ⟨fun hien hmask => ?_, fun hien hrel => ?_⟩, fun e hup hten hc hm hf => ?_⟩,
    fun ev detail hev hroom => ?_⟩
  · exact completes_of_run (f := fun d => if (d.core c).able then d.modCore c fun x => { x with wdogSince := d.now } else d) rfl (Dev.kick_eq hable)
      (Dev.modCore_keep (.refl _ _) (by decide) _ _) ⟨Dev.core_modCore_same .., fun i hi => Dev.core_modCore_other _ hi _⟩
  · subst hrest
    refine completes_of_run (f := Dev.done c) rfl (Dev.done_eq hp hw hstack ht) (Dev.reassert_keep (Dev.rested_keep hp) (by decide) (by decide) (by decide) (by decide)) ?_
    exact Dev.rested_reasserts hp hw hev hkey hlive hfresh hup hten hclass hfree
  · refine completes_of_run (f := Dev.done c) rfl ((Dev.done_eq hp hw hstack ht).trans (Dev.rested_quiet hp hquiet)) (Dev.rested_keep hp) ?_
    exact Dev.rested_shown hp
  · exact completes_of_run (f := Dev.post c v) rfl (Dev.post_eq hable hc) (Dev.newTask_keep (.refl _ _) (by decide) (by decide) (by decide) (by decide) _ _ _ _ _)
      (Dev.newTask_created (mergesWith_post c _) hf)
  · exact completes_of_run (f := Dev.post c v) rfl ((Dev.post_eq hable hc).trans (Dev.newTask_full (mergesWith_post c _) hf rfl))
      (Dev.modSched_keep (.refl _ _) (by decide) _) rfl
  · exact completes_of_run (f := Dev.post c v) rfl (Dev.post_ignored hable hc) (Dev.countSched_keep (.refl _ _) (by decide) _) rfl
  · exact completes_of_run (f := fun d => if d.isPf q = true then d.writeTimerNext i true v else d) rfl (if_pos hq)
      (Dev.writeTimerNext_keep (.refl _ _) (by decide) _ _ _) rfl
  · have hclass := fwClass_of_le hc
    have hm' : (s.dev.fired i ((s.dev.timer i).next.toNat * ns)).sched.tasks.find? (mergesWith (.timer i)) = none := by rw [Dev.fired_sched]; exact hm
    have hf' : (s.dev.fired i ((s.dev.timer i).next.toNat * ns)).freeEntry (fwClass (s.dev.timer i).tclass) = some e := by
      rw [Dev.fired_freeEntry, hclass]; exact hf
    refine completes_of_run (f := Dev.timerFire i) rfl (Dev.timerFire_eq hen harm hb hclass)
      (Dev.newTask_keep ((Dev.modTimer_keep (Dev.reach_keep (.refl _ _) (by decide) _) (by decide) _ _)) (by decide) (by decide) (by decide) (by decide) _ _ _ _ _)
      ⟨?_, ?_, Dev.newTask_created hm' hf'⟩
    · exact ((Dev.newTask_keep (.refl [.events, .rings, .cores, .sched] _) (by decide) (by decide) (by decide) (by decide) _ _ _ _ _).now.resolve_left (by decide)).trans
        (Dev.fired_now ..)
    · rw [(Dev.newTask_rephased hm' hf').rest]
      refine (congrArg Sched.timers (Dev.fired_sched ..)).trans ?_
      rw [Timer.fired_eq hb]
  · have hm' : (s.dev.fired i ((s.dev.timer i).next.toNat * ns)).sched.tasks.find? (mergesWith (.timer i)) = some y := by rw [Dev.fired_sched]; exact hm
    refine completes_of_run (f := Dev.timerFire i) rfl ((Dev.timerFire_eq hen harm hb (fwClass_of_le hc)).trans (Dev.newTask_merged hm'))
      (Dev.modSched_keep (Dev.fired_keep ..) (by decide) _) ?_
    refine (congrArg (·.merged y.entry) (Dev.fired_sched ..)).trans ?_
    rw [Timer.fired_eq hb]
    rfl
  · exact completes_of_run (f := Dev.eventOccurrence ev detail) rfl ((Dev.eventOccurrence_eq ho hroom).trans (Dev.deliver_down hdown))
      (Dev.handed_keep (by decide) (by decide)) ⟨rfl, rfl⟩
  · refine completes_of_run (f := Dev.eventOccurrence ev detail) rfl ((Dev.eventOccurrence_eq ho hroom).trans (Dev.deliver_message hup hten htrc hien hmask)) ?_ ?_
    · exact Dev.noticed_keep (Dev.emit_keep (Dev.handed_keep (by decide) (by decide)) (by decide) _) (by decide) (by decide)
    · exact ⟨congrArg Dev.events (Dev.noticed_rest _ o), congrArg Dev.net (Dev.noticed_rest _ o), congrArg Dev.out (Dev.noticed_rest _ o), Dev.noticed_acq _ o⟩
  · refine completes_of_run (f := Dev.eventOccurrence ev detail) rfl ((Dev.eventOccurrence_eq ho hroom).trans (Dev.deliver_noticed hup hten htrc hien))
      (Dev.noticed_keep (Dev.handed_keep (by decide) (by decide)) (by decide) (by decide)) ?_
    exact ⟨congrArg Dev.events (Dev.noticed_rest _ o), congrArg Dev.net (Dev.noticed_rest _ o), Dev.noticed_acq _ o, Dev.noticed_fuse hrel⟩
  · have hclass := fwClass_of_le hc
    refine completes_framed (f := Dev.eventOccurrence ev detail) rfl (Dev.eventOccurrence_eq ho hroom) ?_
    have htasks := Dev.deliver_tasks (d := s.dev.handed rest o (takeOcc ev s.dev.events).isSome) (o := o) hup hten hclass
    obtain ⟨t, ht, hshown⟩ := Dev.newTask_created (d := s.dev.handed rest o (takeOcc ev s.dev.events).isSome) (arg := BitVec.ofNat 64 (o.ts / ns))
      (due := s.dev.dueOf (s.dev.route o.ev.toNat).tclass (o.ts / ns)) (ts := o.ts) hm (hclass ▸ hf)
    exact ⟨t, htasks ▸ ht, hshown⟩
  · exact completes_of_run (f := Dev.eventOccurrence ev detail) rfl (if_pos ⟨hev, hroom⟩) (.refl _ _) rfl

end Sys2Proof.Machine
end

section
/-! The control cores: instructions, sleep and watchdogs (13_control_cores_and_observation.md R367 to R373, R390 to R395) -/

namespace Sys2Proof.Machine
open Sys2Proof

-- what retiring an instruction comes to (R367, R390)

section
variable {d e : Dev} {c : BitVec 4} {i : Retired} {cycles : BitVec 32}

/-- The core's counter has run. -/
def Dev.cycled (d : Dev) (c : BitVec 4) (cycles : BitVec 32) : Dev := d.modCore c fun k => { k with mcycle := k.mcycle + cycles.setWidth 64 }

/-- The device as an instruction has retired, or trapped, before its trace and before a pre-emption that waited. -/
def Dev.retired (d : Dev) (c : BitVec 4) (i : Retired) (cycles : BitVec 32) : Dev :=
  ((if d.asRetired c i = i then d.cycled c cycles else (d.cycled c cycles).cellarTouch c i).retireState c (d.asRetired c i)).countSramEcc (d.sramFinding c i)

theorem Dev.coreInstruction_running (hrun : (d.core c).phase = .run) (hpost : ∀ h ∈ d.sched.waiting, h.source ≠ .post c) :
    Dev.coreInstruction c i cycles d =
      let e := if (d.stream c.toNat).en then
        ((d.cycled c cycles).traceFilter c (dataAddr (d.asRetired c i))).traceRetired c (d.asRetired c i) else d.cycled c cycles
      if (d.stream c.toNat).en ∧ (d.stream c.toNat).stall ∧ 4 ≤ c.toNat ∧ (d.stream c.toNat).dropped.isNone ∧ (e.stream c.toNat).dropped.isSome then d
      else
        let e := ((if d.asRetired c i = i then e else e.cellarTouch c i).retireState c (d.asRetired c i)).countSramEcc (d.sramFinding c i)
        if !(d.core c).intEnabled ∧ (e.core c).intEnabled then e.preemptOn c.toNat else e := by
  have hposting : (d.sched.waiting.any fun h => h.source == .post c) = false := List.any_eq_false.2 fun h hh => by simpa using hpost h hh
  unfold Dev.coreInstruction
  dsimp only
  rw [hposting, if_neg fun h => h.elim (fun h => h hrun) Bool.false_ne_true]
  rfl

theorem Dev.coreInstruction_untraced (hrun : (d.core c).phase = .run) (hpost : ∀ h ∈ d.sched.waiting, h.source ≠ .post c)
    (hen : (d.stream c.toNat).en = false) : Dev.coreInstruction c i cycles d =
      if (!(d.core c).intEnabled) = true ∧ ((d.retired c i cycles).core c).intEnabled = true then (d.retired c i cycles).preemptOn c.toNat
      else d.retired c i cycles := by
  rw [Dev.coreInstruction_running hrun hpost]
  dsimp only
  rw [hen, if_neg (c := false = true) Bool.false_ne_true, if_neg fun h => Bool.false_ne_true h.1]
  rfl

/-- No interrupt comes to be taken: the instruction is all. -/
theorem Dev.coreInstruction_quiet (hrun : (d.core c).phase = .run) (hpost : ∀ h ∈ d.sched.waiting, h.source ≠ .post c)
    (hen : (d.stream c.toNat).en = false) (hint : ((d.retired c i cycles).core c).intEnabled = true → (d.core c).intEnabled = true) :
    Dev.coreInstruction c i cycles d = d.retired c i cycles := by
  rw [Dev.coreInstruction_untraced hrun hpost hen]
  exact if_neg fun h => Bool.false_ne_true ((Bool.not_eq_true' _ ▸ h.1 : (d.core c).intEnabled = false).symm.trans (hint h.2))

/-- Of the cores core `c` alone has changed. -/
def Dev.Becomes (d e : Dev) (c : BitVec 4) (y : Core) : Prop := e.core c = y ∧ ∀ i, i ≠ c → e.core i = d.core i

theorem Dev.becomes_modCore (hd : e.cores = d.cores) (f : Core → Core) : d.Becomes (e.modCore c f) c (f (d.core c)) := by
  have hcore (k : BitVec 4) : e.core k = d.core k := Dev.core_of_cores hd k
  exact ⟨(Dev.core_modCore_same ..).trans (congrArg f (hcore c)), fun k hk => (Dev.core_modCore_other _ hk _).trans (hcore k)⟩

theorem Dev.Becomes.modCore {y : Core} (h : d.Becomes e c y) (f : Core → Core) : d.Becomes (e.modCore c f) c (f y) :=
  ⟨(Dev.core_modCore_same ..).trans (congrArg f h.1), fun k hk => (Dev.core_modCore_other _ hk _).trans (h.2 k hk)⟩

theorem Dev.Becomes.of_cores {y : Core} {e' : Dev} (h : d.Becomes e c y) (hc : e'.cores = e.cores) : d.Becomes e' c y :=
  ⟨(Dev.core_of_cores hc c).trans h.1, fun k hk => (Dev.core_of_cores hc k).trans (h.2 k hk)⟩

theorem Dev.Becomes.of_core {y : Core} {e' : Dev} (h : d.Becomes e c y) (hc : ∀ k, e'.core k = e.core k) : d.Becomes e' c y :=
  ⟨(hc c).trans h.1, fun k hk => (hc k).trans (h.2 k hk)⟩

theorem Dev.cycled_becomes : d.Becomes (d.cycled c cycles) c { d.core c with mcycle := (d.core c).mcycle + cycles.setWidth 64 } :=
  Dev.becomes_modCore rfl _

theorem Dev.cycled_keep {ps : List Part} (h : .cores ∈ ps) : Keep ps d (d.cycled c cycles) := Dev.modCore_keep (.refl _ _) h _ _

theorem Dev.countSramEcc_zero : d.countSramEcc 0 = d := rfl

theorem Core.intEnabled_same {x y : Core} (hm : y.machineMode = x.machineMode) (hc : y.csr = x.csr) : y.intEnabled = x.intEnabled := by
  unfold Core.intEnabled
  rw [hm, hc]

-- instructions that may not be fetched, and traps (R367)

theorem Core.enterTrap_eq (x : Core) (cause handler : BitVec 64) : x.enterTrap cause handler =
    { x with pc := handler, machineMode := true,
             csr := Tbl.set 0 (Tbl.set 0 (Tbl.set 0 (if cause = 0x800000000000000B then Tbl.set 0 x.csr 0x344 (Tbl.get 0 x.csr 0x344 &&& ~~~(0x800 : BitVec 64))
                else x.csr) 0x341 x.pc) 0x342 cause) 0x300
               ((Tbl.get 0 x.csr 0x300 &&& ~~~(0x1888 : BitVec 64)) ||| (if x.machineMode then 0x1800 else 0) ||| (if (Tbl.get 0 x.csr 0x300).getLsbD 3 then 0x80 else 0)) } := by
  by_cases h : cause = 0x800000000000000B
  · simp only [Core.enterTrap, Core.setCsr, Core.csrAt, if_pos h]
    rfl
  · simp only [Core.enterTrap, Core.setCsr, Core.csrAt, if_neg h]
    rfl

/-- A trap masks the external interrupt. -/
theorem Core.intEnabled_enterTrap (x : Core) (cause handler : BitVec 64) : (x.enterTrap cause handler).intEnabled = false := by
  have hbit (m : BitVec 64) (p q : Bool) : ((m &&& ~~~(0x1888 : BitVec 64)) ||| (if p then 0x1800 else 0) ||| (if q then 0x80 else 0)).getLsbD 3 = false := by
    cases p <;> cases q <;> simp
  rw [Core.enterTrap_eq]
  unfold Core.intEnabled
  dsimp only
  rw [Tbl.get_set_same, hbit]
  rfl

/-- The instruction traps, and the cellar's and shared SRAM's part in it is `e`. -/
theorem Dev.retired_trap {cause handler : BitVec 64} {t : Dev} (ht : d.asRetired c i = .trap cause handler)
    (htouch : (if d.asRetired c i = i then d.cycled c cycles else (d.cycled c cycles).cellarTouch c i) = t) :
    d.retired c i cycles = (t.modCore c (·.enterTrap cause handler)).countSramEcc (d.sramFinding c i) := by
  unfold Dev.retired
  rw [htouch, ht]
  rfl

theorem Core.setX_eq (x : Core) (rd : BitVec 5) (v : BitVec 64) : x.setX rd v = { x with x := if rd = 0 then x.x else Tbl.set 0 x.x rd.toNat v } := by
  unfold Core.setX
  split <;> rfl

theorem Dev.fetchOk_cycled : (d.cycled c cycles).fetchOk c = d.fetchOk c := by
  unfold Dev.fetchOk Dev.coreReaches
  rw [Dev.cycled_becomes.1]
  rfl

theorem Dev.accessOk_cycled (a : CoreAccess) : (d.cycled c cycles).accessOk c a = d.accessOk c a := by
  unfold Dev.accessOk Dev.coreReaches
  rw [Dev.cycled_becomes.1]
  rfl

theorem Dev.handler_eq : (d.core c).handler = Tbl.get 0 (d.core c).csr 0x305 &&& ~~~(3 : BitVec 64) := rfl

/-- An instruction that the core may not fetch traps, whatever it is. -/
theorem Dev.asRetired_unfetched (h : d.fetchOk c = false) (ht : ∀ cause target, i ≠ .trap cause target) : d.asRetired c i = .trap 1 (d.core c).handler := by
  cases i with
  | trap cause target => exact absurd rfl (ht cause target)
  | access a rd z => exact if_pos (by rw [h]; rfl)
  | plain | branch | jump | csr | mret => exact if_neg (by rw [h]; exact Bool.false_ne_true)

theorem Dev.cellarTouch_unfetched (h : d.fetchOk c = false) : d.cellarTouch c i = d := by
  cases i with
  | access a rd z => exact if_pos (.inl (by rw [h]; rfl))
  | plain | branch | jump | csr | mret | trap => rfl

theorem Dev.sramFinding_unfetched (h : d.fetchOk c = false) : d.sramFinding c i = 0 := by
  cases i with
  | access a rd z => exact if_neg fun hc => Bool.false_ne_true (h.symm.trans hc.1)
  | plain | branch | jump | csr | mret | trap => rfl

theorem Dev.retired_unfetched (h : d.fetchOk c = false) (ht : ∀ cause target, i ≠ .trap cause target) :
    d.retired c i cycles = (d.cycled c cycles).modCore c (·.enterTrap 1 (d.core c).handler) := by
  rw [Dev.retired_trap (Dev.asRetired_unfetched h ht) (t := d.cycled c cycles) (by
    split
    · rfl
    · exact Dev.cellarTouch_unfetched (Dev.fetchOk_cycled.trans h)), Dev.sramFinding_unfetched h]
  rfl

theorem Dev.retired_trapped (cause target : BitVec 64) :
    d.retired c (.trap cause target) cycles = (d.cycled c cycles).modCore c (·.enterTrap cause target) :=
  Dev.retired_trap rfl (if_pos rfl)

/-- An instruction that does not trap. -/
theorem Dev.retired_kept (h : d.asRetired c i = i) : d.retired c i cycles = ((d.cycled c cycles).retireState c i).countSramEcc (d.sramFinding c i) := by
  unfold Dev.retired
  rw [if_pos h, h]

/-- An instruction other than an access retires as it is where the core may fetch it. -/
theorem Dev.retired_fetched (h : d.fetchOk c = true) (ha : dataAddr i = none) : d.retired c i cycles = (d.cycled c cycles).retireState c i := by
  cases i with
  | access a rd z => exact nomatch ha
  | trap cause target => exact Dev.retired_kept rfl
  | plain | branch | jump | csr | mret => exact Dev.retired_kept (if_pos h)

theorem Core.setX_pc (x : Core) (rd : BitVec 5) (v : BitVec 64) : (x.setX rd v).pc = x.pc := by rw [Core.setX_eq]

theorem Dev.retired_plain (h : d.fetchOk c = true) (rd : BitVec 5) (v : BitVec 64) (z : Bool) : d.retired c (.plain rd v z) cycles =
    (d.cycled c cycles).modCore c fun x => { x.setX rd v with pc := x.pc + insnLen z } := by
  rw [Dev.retired_fetched h rfl]
  unfold Dev.retireState
  simp only [Core.setX_pc]

theorem Dev.retired_branch (h : d.fetchOk c = true) (taken : Bool) (target : BitVec 64) (z : Bool) : d.retired c (.branch taken target z) cycles =
    (d.cycled c cycles).modCore c fun x => { x with pc := if taken then target else x.pc + insnLen z } := by
  rw [Dev.retired_fetched h rfl]
  cases taken <;> rfl

theorem Dev.retired_jump (h : d.fetchOk c = true) (ind : Bool) (target : BitVec 64) (rd : BitVec 5) (link : BitVec 64) :
    d.retired c (.jump ind target rd link) cycles = (d.cycled c cycles).modCore c fun x => { x.setX rd link with pc := target } :=
  Dev.retired_fetched h rfl

-- accesses (R367, R368, R434)

section
variable {a : CoreAccess} {rd : BitVec 5} {z : Bool}

theorem Dev.asRetired_access (hf : d.fetchOk c = true) (ha : d.accessOk c a = true) (hs : d.sramFinding c (.access a rd z) ≠ 2)
    (hc : d.cellarFails c a = false) : d.asRetired c (.access a rd z) = .access a rd z :=
  (if_neg (by rw [hf]; exact Bool.false_ne_true)).trans (if_pos ⟨ha, hs, by rw [hc]; rfl⟩)

/-- An access traps where it is forbidden, reads an uncorrectable word, or meets a bus error. -/
theorem Dev.asRetired_fails (hf : d.fetchOk c = true)
    (h : d.accessOk c a = false ∨ d.sramFinding c (.access a rd z) = 2 ∨ d.cellarFails c a = true) :
    d.asRetired c (.access a rd z) = .trap (if a.store then 7 else 5) (d.core c).handler := by
  refine (if_neg (by rw [hf]; exact Bool.false_ne_true)).trans (if_neg fun hc => ?_)
  obtain ⟨ha, hs, hcellar⟩ := hc
  rcases h with h | h | h
  · exact Bool.false_ne_true (h.symm.trans ha)
  · exact hs h
  · rw [h] at hcellar
    exact Bool.false_ne_true hcellar

theorem inCellar_iff : inCellar a = true ↔ 0x400000000 ≤ a.addr.toNat ∧ a.addr.toNat < 0x800000000 := decide_eq_true_iff

theorem Dev.cellarFails_outside (h : inCellar a = false) : d.cellarFails c a = false := by
  unfold Dev.cellarFails
  rw [h, Bool.false_and]

theorem Dev.cellarTouch_outside (h : inCellar a = false) : d.cellarTouch c (.access a rd z) = d := if_pos (.inr (.inr (by rw [h]; rfl)))

theorem Dev.cellarTouch_inside (hf : d.fetchOk c = true) (ha : d.accessOk c a = true) (h : inCellar a = true) :
    d.cellarTouch c (.access a rd z) = if a.store then (d.cellarStore c a).1 else (d.cellarLoad c a).1 :=
  if_neg (by rw [hf, ha, h]; simp)

theorem Dev.sramFinding_outside (h : ¬ (0x10000000 ≤ a.addr.toNat ∧ a.addr.toNat < 0x14000000)) : d.sramFinding c (.access a rd z) = 0 :=
  if_neg fun hc => h ⟨hc.2.2.1, hc.2.2.2.1⟩

theorem Dev.sramFinding_stores (hs : a.store = true) (h : a.amo = 0) : d.sramFinding c (.access a rd z) = 0 :=
  if_neg fun hc => hc.2.2.2.2.elim (by rw [hs]; exact Bool.false_ne_true) fun hn => hn h

theorem Dev.sramFinding_reads (hf : d.fetchOk c = true) (ha : d.accessOk c a = true) (h : 0x10000000 ≤ a.addr.toNat ∧ a.addr.toNat < 0x14000000)
    (hr : a.store = false ∨ a.amo ≠ 0) : d.sramFinding c (.access a rd z) = a.ecc.toNat :=
  if_pos ⟨hf, ha, h.1, h.2, hr.imp_left fun hs => by rw [hs]; rfl⟩

theorem Dev.sramFinding_forbidden (ha : d.accessOk c a = false) : d.sramFinding c (.access a rd z) = 0 :=
  if_neg fun hc => Bool.false_ne_true (ha.symm.trans hc.2.1)

theorem Dev.cellarTouch_forbidden (ha : d.accessOk c a = false) : d.cellarTouch c (.access a rd z) = d := if_pos (.inr (.inl (by rw [ha]; rfl)))

/-- A load brings its value. -/
theorem Dev.retireState_load (hs : a.store = false) : d.retireState c (.access a rd z) =
    (d.cellarTouch c (.access a rd z)).modCore c fun x => { x.setX rd (d.coreLoad c a) with pc := x.pc + insnLen z } := by
  have hresult : d.accessResult c a = some (d.coreLoad c a) := if_pos (by rw [hs]; rfl)
  unfold Dev.retireState
  dsimp only
  rw [hresult, if_neg (by rw [hs]; exact Bool.false_ne_true)]
  simp only [Core.setX_pc]

/-- A store leaves the registers. -/
theorem Dev.retireState_store (hs : a.store = true) (h : a.amo = 0) : d.retireState c (.access a rd z) =
    ((d.cellarTouch c (.access a rd z)).coreStore c a).modCore c fun x => { x with pc := x.pc + insnLen z } := by
  have hresult : d.accessResult c a = none := (if_neg (by rw [hs]; exact Bool.false_ne_true)).trans (by rw [h]; rfl)
  unfold Dev.retireState
  dsimp only
  rw [hresult, if_pos hs]

/-- An AMO brings what stood there before its store, SC its success. -/
theorem Dev.retireState_amo (hs : a.store = true) (h : a.amo ≠ 0) : d.retireState c (.access a rd z) =
    ((d.cellarTouch c (.access a rd z)).coreStore c a).modCore c
      fun x => { x.setX rd (if a.amo = 3 then 0 else d.coreLoad c a) with pc := x.pc + insnLen z } := by
  have hresult : d.accessResult c a = some (if a.amo = 3 then 0 else d.coreLoad c a) := by
    refine (if_neg (by rw [hs]; exact Bool.false_ne_true)).trans ?_
    generalize a.amo = n at h ⊢
    obtain ⟨n, hn⟩ := n
    match n, hn with
    | 0, _ => exact absurd rfl h
    | 1, _ => rfl
    | 2, _ => rfl
    | 3, _ => rfl
  unfold Dev.retireState
  dsimp only
  rw [hresult, if_pos hs]
  simp only [Core.setX_pc]

theorem Dev.portRead_cycled (n : Nat) : (d.cycled c cycles).portRead c n = d.portRead c n := by
  unfold Dev.portRead Dev.portTask
  rw [Dev.cycled_becomes.1]
  rfl

/-- What a load brings from elsewhere than the cellar does not hang on the counter. -/
theorem Dev.coreLoad_cycled (h : inCellar a = false) : (d.cycled c cycles).coreLoad c a = d.coreLoad c a := by
  unfold Dev.coreLoad
  dsimp only
  rw [Dev.cycled_becomes.1, Dev.portRead_cycled, if_neg (c := inCellar a = true) (by rw [h]; exact Bool.false_ne_true),
    if_neg (c := inCellar a = true) (by rw [h]; exact Bool.false_ne_true)]
  rfl

-- accesses of the cellar (R170, R368)

/-- The line of an access. -/
def accessLine (a : CoreAccess) : Nat := cellarAddr a / 128

theorem outside_of_inCellar (h : inCellar a = true) : ¬ (0x10000000 ≤ a.addr.toNat ∧ a.addr.toNat < 0x14000000) := by
  have hin := inCellar_iff.1 h
  omega

/-- The cellar refuses an access. -/
theorem Dev.cellar_refuses (h : d.cellar.permits .core (d.core c).queue (accessLine a) (wantOf .core a.store) a.store = none) :
    (if a.store then (d.cellarStore c a).1 else (d.cellarLoad c a).1) = d.cellarRefuse ∧
      (if a.store then (d.cellarStore c a).2 != .ok else !(d.cellarLoad c a).2.1.passes) = true := by
  cases hs : a.store with
  | false =>
    rw [hs] at h
    have hload : d.cellarLoad c a = (d.cellarRefuse, .slotMiss, 0) := Dev.readLine_refused none a.line h
    rw [hload]
    exact ⟨rfl, rfl⟩
  | true =>
    rw [hs] at h
    have hstore : d.cellarStore c a = (d.cellarRefuse, .busError) := by
      unfold Dev.cellarStore Dev.writeLine
      dsimp only
      unfold accessLine at h
      rw [h]
    rw [hstore]
    exact ⟨rfl, rfl⟩

theorem Dev.retired_refused (hf : d.fetchOk c = true) (ha : d.accessOk c a = true) (hin : inCellar a = true)
    (h : d.cellar.permits .core (d.core c).queue (accessLine a) (wantOf .core a.store) a.store = none) :
    d.retired c (.access a rd z) cycles =
      (d.cycled c cycles).cellarRefuse.modCore c (·.enterTrap (if a.store then 7 else 5) (d.core c).handler) := by
  have hfails : d.cellarFails c a = true := by
    unfold Dev.cellarFails
    rw [hin, (Dev.cellar_refuses h).2]
    rfl
  have hret := Dev.asRetired_fails (rd := rd) (z := z) hf (.inr (.inr hfails))
  have htouch : (d.cycled c cycles).cellarTouch c (.access a rd z) = (d.cycled c cycles).cellarRefuse := by
    rw [Dev.cellarTouch_inside (Dev.fetchOk_cycled.trans hf) ((Dev.accessOk_cycled a).trans ha) hin]
    refine (Dev.cellar_refuses ?_).1
    rw [Dev.cycled_becomes.1]
    exact h
  rw [Dev.retired_trap hret (t := (d.cycled c cycles).cellarRefuse) (by rw [if_neg (by rw [hret]; nofun), htouch]),
    Dev.sramFinding_outside (outside_of_inCellar hin), Dev.countSramEcc_zero]

/-- A load of a plain line through its queue. -/
theorem Dev.cellarLoad_plain {n : Nat} {r : Region} {v : Verdict} {data : BitVec 1024} (hl : a.line = {})
    (hp : d.cellar.permits .core (d.core c).queue (accessLine a) (wantOf .core false) false = some (n, r)) (hline : PlainLine d (accessLine a))
    (ho : d.cellar.opened r (accessLine a) d.free = (v, data)) (hv : v ≠ .ue) : d.cellarLoad c a = (if v = .macFail then d.secMac else d, v, data) := by
  unfold Dev.cellarLoad
  rw [hl]
  exact Dev.readLine_plainLine hp hline ho hv

theorem Dev.cellarLoad_unsealed {n : Nat} {r : Region} (hl : a.line = {})
    (hp : d.cellar.permits .core (d.core c).queue (accessLine a) (wantOf .core false) false = some (n, r)) (hline : PlainLine d (accessLine a))
    (hr : r.sealed_ = false) : d.cellarLoad c a = (d, .good, d.cellar.raw (accessLine a)) := by
  have hopen : d.cellar.opened r (accessLine a) d.free = (.good, d.cellar.raw (accessLine a)) := by
    rw [Cellar.opened_of_unsealed hr]
    exact (if_neg (by rw [hline.2.2.1]; exact Bool.false_ne_true)).trans (if_neg (by decide))
  exact (Dev.cellarLoad_plain hl hp hline hopen nofun).trans (by rw [if_neg nofun])

theorem Dev.cellarLoad_fails {n : Nat} {r : Region} (hl : a.line = {})
    (hp : d.cellar.permits .core (d.core c).queue (accessLine a) (wantOf .core false) false = some (n, r)) (hline : PlainLine d (accessLine a))
    (hr : r.sealed_ = true) (hclear : d.cellar.clearing = false) (hstate : (d.cellar.metaOf (accessLine a)).state = 1)
    (hverify : ¬ d.cellar.Verifies (accessLine a)) : d.cellarLoad c a = (d.secMac, .macFail, d.cellar.plainOf (accessLine a)) := by
  have hopen : d.cellar.opened r (accessLine a) d.free = (.macFail, d.cellar.plainOf (accessLine a)) := by
    rw [Cellar.opened_of_sealed hr]
    exact Cellar.openSealed_macFail _ hclear hline.2.2.2 hline.2.2.1 hstate hverify
  exact (Dev.cellarLoad_plain hl hp hline hopen nofun).trans (by rw [if_pos rfl])

theorem Dev.retired_loads {n : Nat} {r : Region} (hf : d.fetchOk c = true) (ha : d.accessOk c a = true) (hin : inCellar a = true) (hs : a.store = false)
    (hl : a.line = {}) (hp : d.cellar.permits .core (d.core c).queue (accessLine a) (wantOf .core false) false = some (n, r))
    (hline : PlainLine d (accessLine a)) (hr : r.sealed_ = false) : d.retired c (.access a rd z) cycles = (d.cycled c cycles).modCore c fun x =>
      { x.setX rd (extendBytes a (d.cellar.raw (accessLine a) >>> (8 * (cellarAddr a % 128))).toNat) with pc := x.pc + insnLen z } := by
  have hload := Dev.cellarLoad_unsealed hl hp hline hr
  have hcycled : (d.cycled c cycles).cellarLoad c a = (d.cycled c cycles, .good, d.cellar.raw (accessLine a)) :=
    Dev.cellarLoad_unsealed hl (by rw [Dev.cycled_becomes.1]; exact hp) hline hr
  have hfails : d.cellarFails c a = false := by
    unfold Dev.cellarFails
    rw [hs, if_neg Bool.false_ne_true, hload]
    exact Bool.and_false _
  have hin' := inCellar_iff.1 hin
  have hvalue : (d.cycled c cycles).coreLoad c a = extendBytes a (d.cellar.raw (accessLine a) >>> (8 * (cellarAddr a % 128))).toNat := by
    unfold Dev.coreLoad
    dsimp only
    rw [if_neg (by omega), if_neg (by omega), if_neg (by omega), if_pos hin, hcycled]
  rw [Dev.retired_kept (Dev.asRetired_access hf ha (by rw [Dev.sramFinding_outside (outside_of_inCellar hin)]; decide) hfails),
    Dev.sramFinding_outside (outside_of_inCellar hin), Dev.countSramEcc_zero, Dev.retireState_load hs, hvalue,
    Dev.cellarTouch_inside (Dev.fetchOk_cycled.trans hf) ((Dev.accessOk_cycled a).trans ha) hin, hs, if_neg Bool.false_ne_true, hcycled]

theorem Dev.retired_unverified {n : Nat} {r : Region} (hf : d.fetchOk c = true) (ha : d.accessOk c a = true) (hin : inCellar a = true)
    (hs : a.store = false) (hl : a.line = {})
    (hp : d.cellar.permits .core (d.core c).queue (accessLine a) (wantOf .core false) false = some (n, r)) (hline : PlainLine d (accessLine a))
    (hr : r.sealed_ = true) (hclear : d.cellar.clearing = false) (hstate : (d.cellar.metaOf (accessLine a)).state = 1)
    (hverify : ¬ d.cellar.Verifies (accessLine a)) : d.retired c (.access a rd z) cycles =
      (d.cycled c cycles).secMac.modCore c (·.enterTrap (if a.store then 7 else 5) (d.core c).handler) := by
  have hload := Dev.cellarLoad_fails hl hp hline hr hclear hstate hverify
  have hcycled : (d.cycled c cycles).cellarLoad c a = ((d.cycled c cycles).secMac, .macFail, d.cellar.plainOf (accessLine a)) :=
    Dev.cellarLoad_fails hl (by rw [Dev.cycled_becomes.1]; exact hp) hline hr hclear hstate hverify
  have hfails : d.cellarFails c a = true := by
    unfold Dev.cellarFails
    rw [hs, if_neg Bool.false_ne_true, hload, hin]
    rfl
  have hret := Dev.asRetired_fails (rd := rd) (z := z) hf (.inr (.inr hfails))
  rw [Dev.retired_trap hret (t := (d.cycled c cycles).secMac) (by
      rw [if_neg (by rw [hret]; nofun), Dev.cellarTouch_inside (Dev.fetchOk_cycled.trans hf) ((Dev.accessOk_cycled a).trans ha) hin, hs,
        if_neg Bool.false_ne_true, hcycled]),
    Dev.sramFinding_outside (outside_of_inCellar hin), Dev.countSramEcc_zero]

/-- The bytes that a store writes in its line, and their mask. -/
def storeMask (a : CoreAccess) : BitVec 128 := BitVec.ofNat 128 ((2 ^ 2 ^ a.log2.toNat - 1) * 2 ^ (cellarAddr a % 128))
def storeData (a : CoreAccess) : BitVec 1024 :=
  BitVec.ofNat 1024 (a.value.toNat % 2 ^ (8 * 2 ^ a.log2.toNat) * 2 ^ (8 * (cellarAddr a % 128)))

theorem getLsbD_storeMask {k : Nat} (hk : k < 128) : (storeMask a).getLsbD k = true ↔
    cellarAddr a % 128 ≤ k ∧ k < cellarAddr a % 128 + 2 ^ a.log2.toNat := by
  unfold storeMask
  rw [BitVec.getLsbD_ofNat, Nat.testBit_mul_two_pow, Nat.testBit_two_pow_sub_one]
  simp only [Bool.and_eq_true, decide_eq_true_eq]
  omega

theorem byteOf_storeData {k : Nat} (hlo : cellarAddr a % 128 ≤ k) (hhi : k < cellarAddr a % 128 + 2 ^ a.log2.toNat) (hk : k < 128) :
    byteOf (storeData a) k = a.value.extractLsb' (8 * (k - cellarAddr a % 128)) 8 := by
  unfold byteOf storeData
  apply BitVec.eq_of_getLsbD_eq
  intro i hi
  rw [BitVec.getLsbD_extractLsb', BitVec.getLsbD_extractLsb', BitVec.getLsbD_ofNat, Nat.testBit_mul_two_pow, Nat.testBit_mod_two_pow]
  have hsub : 8 * k + i - 8 * (cellarAddr a % 128) = 8 * (k - cellarAddr a % 128) + i := by omega
  rw [hsub]
  generalize 2 ^ a.log2.toNat = n at hhi
  generalize cellarAddr a % 128 = m at hlo hhi
  rw [decide_eq_true (by omega), decide_eq_true (by omega), decide_eq_true (by omega), decide_eq_true (by omega)]
  simp [BitVec.getLsbD]

theorem Dev.cellarStore_merges {n : Nat} {r : Region} (hp : d.cellar.permits .core (d.core c).queue (accessLine a) (wantOf .core true) true = some (n, r))
    (hr : (d.cellar.region n).sealed_ = false) (hclear : d.cellar.clearing = false) :
    d.cellarStore c a = (d.modCellar (·.mergeRaw (accessLine a) (storeMask a) (storeData a)), .ok) := by
  unfold Dev.cellarStore Dev.writeLine
  dsimp only
  unfold accessLine at hp
  rw [hp]
  dsimp only
  rw [if_neg fun h => Bool.false_ne_true (hclear.symm.trans h.1), Dev.storeLine_unsealed _ _ hr]
  rfl

theorem Dev.retired_stores {n : Nat} {r : Region} (hf : d.fetchOk c = true) (ha : d.accessOk c a = true) (hin : inCellar a = true) (hs : a.store = true)
    (hamo : a.amo = 0) (hp : d.cellar.permits .core (d.core c).queue (accessLine a) (wantOf .core true) true = some (n, r))
    (hr : (d.cellar.region n).sealed_ = false) (hclear : d.cellar.clearing = false) : d.retired c (.access a rd z) cycles =
      ((d.cycled c cycles).modCellar (·.mergeRaw (accessLine a) (storeMask a) (storeData a))).modCore c fun x => { x with pc := x.pc + insnLen z } := by
  have hstore := Dev.cellarStore_merges hp hr hclear
  have hcycled : (d.cycled c cycles).cellarStore c a = ((d.cycled c cycles).modCellar (·.mergeRaw (accessLine a) (storeMask a) (storeData a)), .ok) :=
    Dev.cellarStore_merges (by rw [Dev.cycled_becomes.1]; exact hp) hr hclear
  have hfails : d.cellarFails c a = false := by
    unfold Dev.cellarFails
    rw [hs, if_pos rfl, hstore]
    exact Bool.and_false _
  have hin' := inCellar_iff.1 hin
  have hout (e : Dev) : e.coreStore c a = e := by
    unfold Dev.coreStore
    dsimp only
    rw [if_neg (by omega), if_neg (by omega), if_neg (by omega), if_neg (by omega)]
  rw [Dev.retired_kept (Dev.asRetired_access hf ha (by rw [Dev.sramFinding_outside (outside_of_inCellar hin)]; decide) hfails),
    Dev.sramFinding_outside (outside_of_inCellar hin), Dev.countSramEcc_zero, Dev.retireState_store hs hamo, hout,
    Dev.cellarTouch_inside (Dev.fetchOk_cycled.trans hf) ((Dev.accessOk_cycled a).trans ha) hin, hs, if_pos rfl, hcycled]

/-- The bytes of the stack after an aligned store. -/
theorem read_stored (cl : Cellar) (hn : a.addr.toNat % 2 ^ a.log2.toNat = 0) (hin : inCellar a = true) (y : Nat) :
    Memory.read (cl.mergeRaw (accessLine a) (storeMask a) (storeData a)).mem y =
      if cellarAddr a ≤ y ∧ y < cellarAddr a + 2 ^ a.log2.toNat then a.value.extractLsb' (8 * (y - cellarAddr a)) 8 else Memory.read cl.mem y := by
  have hfits : cellarAddr a % 128 + 2 ^ a.log2.toNat ≤ 128 := by
    have haddr : a.addr.toNat = cellarAddr a + 0x400000000 := by
      have hin' := inCellar_iff.1 hin
      unfold cellarAddr
      omega
    rw [haddr] at hn
    generalize cellarAddr a = m at hn
    have hlog : a.log2.toNat < 4 := a.log2.isLt
    generalize a.log2.toNat = l at hn hlog
    match l, hlog with
    | 0, _ => omega
    | 1, _ => omega
    | 2, _ => omega
    | 3, _ => omega
  rw [cl.read_mergeRaw]
  have hsplit : 128 * accessLine a + cellarAddr a % 128 = cellarAddr a := Nat.div_add_mod ..
  by_cases hy : cellarAddr a ≤ y ∧ y < cellarAddr a + 2 ^ a.log2.toNat
  · have hoff : y - 128 * accessLine a < 128 := by omega
    have hindex : y - 128 * accessLine a - cellarAddr a % 128 = y - cellarAddr a := by omega
    rw [if_pos hy, if_pos ⟨by omega, by omega, (getLsbD_storeMask hoff).2 ⟨by omega, by omega⟩⟩,
      byteOf_storeData (by omega) (by omega) hoff, hindex]
  · rw [if_neg hy, if_neg]
    rintro ⟨hlo, hhi, hbit⟩
    have hspan := (getLsbD_storeMask (by omega)).1 hbit
    omega

-- accesses elsewhere (R368, R380, R433)

theorem Dev.retired_loads_outside (hf : d.fetchOk c = true) (ha : d.accessOk c a = true) (hin : inCellar a = false) (hs : a.store = false)
    (hfound : d.sramFinding c (.access a rd z) ≠ 2) : d.retired c (.access a rd z) cycles =
      ((d.cycled c cycles).modCore c fun x => { x.setX rd (d.coreLoad c a) with pc := x.pc + insnLen z }).countSramEcc (d.sramFinding c (.access a rd z)) := by
  rw [Dev.retired_kept (Dev.asRetired_access hf ha hfound (Dev.cellarFails_outside hin)), Dev.retireState_load hs, Dev.cellarTouch_outside hin,
    Dev.coreLoad_cycled hin]

theorem Dev.retired_stores_outside (hf : d.fetchOk c = true) (ha : d.accessOk c a = true) (hin : inCellar a = false) (hs : a.store = true)
    (hamo : a.amo = 0) : d.retired c (.access a rd z) cycles = ((d.cycled c cycles).coreStore c a).modCore c fun x => { x with pc := x.pc + insnLen z } := by
  have hfound := Dev.sramFinding_stores (d := d) (c := c) (rd := rd) (z := z) hs hamo
  rw [Dev.retired_kept (Dev.asRetired_access hf ha (by rw [hfound]; decide) (Dev.cellarFails_outside hin)), Dev.retireState_store hs hamo,
    Dev.cellarTouch_outside hin, hfound, Dev.countSramEcc_zero]

theorem Dev.retired_amo_outside (hf : d.fetchOk c = true) (ha : d.accessOk c a = true) (hin : inCellar a = false) (hs : a.store = true)
    (hamo : a.amo ≠ 0) (hfound : d.sramFinding c (.access a rd z) = 0) : d.retired c (.access a rd z) cycles =
      ((d.cycled c cycles).coreStore c a).modCore c fun x => { x.setX rd (if a.amo = 3 then 0 else d.coreLoad c a) with pc := x.pc + insnLen z } := by
  rw [Dev.retired_kept (Dev.asRetired_access hf ha (by rw [hfound]; decide) (Dev.cellarFails_outside hin)), Dev.retireState_amo hs hamo,
    Dev.cellarTouch_outside hin, Dev.coreLoad_cycled hin, hfound, Dev.countSramEcc_zero]

theorem Dev.retired_loads_clean (hf : d.fetchOk c = true) (ha : d.accessOk c a = true) (hin : inCellar a = false) (hs : a.store = false)
    (hfound : d.sramFinding c (.access a rd z) = 0) : d.retired c (.access a rd z) cycles =
      (d.cycled c cycles).modCore c fun x => { x.setX rd (d.coreLoad c a) with pc := x.pc + insnLen z } := by
  rw [Dev.retired_loads_outside hf ha hin hs (by rw [hfound]; decide), hfound, Dev.countSramEcc_zero]

theorem Dev.retired_loads_corrected (hf : d.fetchOk c = true) (ha : d.accessOk c a = true) (hin : inCellar a = false) (hs : a.store = false)
    (hfound : d.sramFinding c (.access a rd z) = 1) : d.retired c (.access a rd z) cycles =
      ((d.cycled c cycles).modCore c fun x => { x.setX rd (d.coreLoad c a) with pc := x.pc + insnLen z }).modSram fun m => { m with cnt := bumpAt m.cnt 0 } := by
  rw [Dev.retired_loads_outside hf ha hin hs (by rw [hfound]; decide), hfound]
  rfl

theorem inCellar_below (h : a.addr.toNat < 0x400000000) : inCellar a = false := decide_eq_false (by omega)

/-- What the register takes that a store or an AMO names. -/
def Core.taking (x : Core) (a : CoreAccess) (rd : BitVec 5) (v : BitVec 64) : Core := if a.amo = 0 then x else x.setX rd (if a.amo = 3 then 0 else v)

theorem Core.taking_eq (x : Core) (a : CoreAccess) (rd : BitVec 5) (v : BitVec 64) : x.taking a rd v =
    { x with x := if a.amo = 0 then x.x else if rd = 0 then x.x else Tbl.set 0 x.x rd.toNat (if a.amo = 3 then 0 else v) } := by
  unfold Core.taking
  by_cases h : a.amo = 0
  · rw [if_pos h, if_pos h]
  · rw [if_neg h, if_neg h, Core.setX_eq]

theorem Dev.retired_writes (hf : d.fetchOk c = true) (ha : d.accessOk c a = true) (hin : inCellar a = false) (hs : a.store = true)
    (hfound : d.sramFinding c (.access a rd z) = 0) : d.retired c (.access a rd z) cycles =
      ((d.cycled c cycles).coreStore c a).modCore c fun x => { x.taking a rd (d.coreLoad c a) with pc := x.pc + insnLen z } := by
  unfold Core.taking
  by_cases hamo : a.amo = 0
  · simp only [if_pos hamo]
    exact Dev.retired_stores_outside hf ha hin hs hamo
  · simp only [if_neg hamo]
    exact Dev.retired_amo_outside hf ha hin hs hamo hfound

/-- An access that meets an uncorrectable word of shared SRAM traps. -/
theorem Dev.retired_uncorrectable (hf : d.fetchOk c = true) (hin : inCellar a = false) (hfound : d.sramFinding c (.access a rd z) = 2) :
    d.retired c (.access a rd z) cycles =
      ((d.cycled c cycles).modCore c (·.enterTrap (if a.store then 7 else 5) (d.core c).handler)).countSramEcc 2 := by
  have hret := Dev.asRetired_fails (rd := rd) (z := z) hf (.inr (.inl hfound))
  rw [Dev.retired_trap hret (t := d.cycled c cycles) (by rw [if_neg (by rw [hret]; nofun), Dev.cellarTouch_outside hin]), hfound]

theorem Dev.retired_forbidden (hf : d.fetchOk c = true) (ha : d.accessOk c a = false) : d.retired c (.access a rd z) cycles =
    (d.cycled c cycles).modCore c (·.enterTrap (if a.store then 7 else 5) (d.core c).handler) := by
  have hret := Dev.asRetired_fails (rd := rd) (z := z) hf (.inl ha)
  rw [Dev.retired_trap hret (t := d.cycled c cycles) (by
      rw [if_neg (by rw [hret]; nofun), Dev.cellarTouch_forbidden ((Dev.accessOk_cycled a).trans ha)]),
    Dev.sramFinding_forbidden ha, Dev.countSramEcc_zero]

theorem Dev.coreLoad_tcm (h : a.addr.toNat < 0x40000) :
    d.coreLoad c a = extendBytes a (leNat (Memory.readN (d.core c).tcm a.addr.toNat (2 ^ a.log2.toNat))) := if_pos h

theorem Dev.coreLoad_sram (h : 0x10000000 ≤ a.addr.toNat ∧ a.addr.toNat < 0x14000000) :
    d.coreLoad c a = extendBytes a (leNat (d.strong.sram.fetch (a.addr.toNat - 0x10000000) (2 ^ a.log2.toNat))) := by
  unfold Dev.coreLoad
  dsimp only
  rw [if_neg (by omega), if_pos h]

theorem Dev.coreLoad_port (h : 0x30000000 ≤ a.addr.toNat ∧ a.addr.toNat < 0x30000100) :
    d.coreLoad c a = extendBytes a (d.portRead c (a.addr.toNat - 0x30000000)).toNat := by
  unfold Dev.coreLoad
  dsimp only
  rw [if_neg (by omega), if_neg (by omega), if_pos h]

theorem Dev.coreLoad_view (ht : ¬ a.addr.toNat < 0x40000) (hs : ¬ (0x10000000 ≤ a.addr.toNat ∧ a.addr.toNat < 0x14000000))
    (hp : ¬ (0x30000000 ≤ a.addr.toNat ∧ a.addr.toNat < 0x30000100)) (hin : inCellar a = false) : d.coreLoad c a = a.value := by
  unfold Dev.coreLoad
  dsimp only
  rw [if_neg ht, if_neg hs, if_neg hp, if_neg (by rw [hin]; exact Bool.false_ne_true)]

theorem Dev.coreStore_tcm (h : a.addr.toNat < 0x40000) : d.coreStore c a =
    d.modCore c fun x => { x with tcm := Memory.writeN x.tcm a.addr.toNat (leBytes (2 ^ a.log2.toNat) a.value.toNat) } := if_pos h

theorem Dev.coreStore_sram (h : 0x10000000 ≤ a.addr.toNat ∧ a.addr.toNat < 0x14000000) :
    d.coreStore c a = d.modSram (·.put (a.addr.toNat - 0x10000000) (leBytes (2 ^ a.log2.toNat) a.value.toNat)) := by
  unfold Dev.coreStore
  dsimp only
  rw [if_neg (by omega), if_pos h]

/-- A store beyond memories reaches the post registers alone. -/
theorem Dev.coreStore_port {y : Core} (hy : d.Becomes e c y) (ht : ¬ a.addr.toNat < 0x40000) (hs : ¬ (0x10000000 ≤ a.addr.toNat ∧ a.addr.toNat < 0x14000000)) :
    d.Becomes (e.coreStore c a) c { y with postArg := if a.addr.toNat = 0x30000028 then a.value else y.postArg,
                                           postDl := if a.addr.toNat = 0x30000030 then a.value else y.postDl } := by
  unfold Dev.coreStore
  dsimp only
  rw [if_neg ht, if_neg hs]
  split
  · next h =>
    rw [if_neg (c := a.addr.toNat = 0x30000030) (by omega)]
    exact hy.modCore _
  · split
    · exact hy.modCore _
    · exact hy

theorem Dev.coreStore_port_keep {ps : List Part} (hk : Keep ps d e) (hcores : .cores ∈ ps) (ht : ¬ a.addr.toNat < 0x40000)
    (hs : ¬ (0x10000000 ≤ a.addr.toNat ∧ a.addr.toNat < 0x14000000)) : Keep ps d (e.coreStore c a) := by
  unfold Dev.coreStore
  dsimp only
  rw [if_neg ht, if_neg hs]
  exact .ite (Dev.modCore_keep hk hcores _ _) (.ite (Dev.modCore_keep hk hcores _ _) hk)

end

-- the state that an instruction leaves, where no interrupt comes to be taken

theorem completes_retired {s : State} {ps : List Part} {Q : Dev → Prop} (hrun : (s.dev.core c).phase = .run)
    (hpost : ∀ h ∈ s.dev.sched.waiting, h.source ≠ .post c) (hen : (s.dev.stream c.toNat).en = false) (hd : s.dev.retired c i cycles = e)
    (hint : (e.core c).intEnabled = true → (s.dev.core c).intEnabled = true) (hk : Keep ps s.dev e) (hQ : Q e) :
    Completes (.coreInstruction c i cycles) s ps Q :=
  completes_of_run (f := Dev.coreInstruction c i cycles) rfl ((Dev.coreInstruction_quiet hrun hpost hen (by rw [hd]; exact hint)).trans hd) hk hQ

/-- The core as a trap leaves it, its counter run. -/
theorem Dev.Becomes.trap {y : Core} (h : d.Becomes e c y) (cause handler : BitVec 64) :
    d.Becomes (e.modCore c (·.enterTrap cause handler)) c (y.enterTrap cause handler) := h.modCore _

theorem Dev.Becomes.trapMasked {y : Core} {cause handler : BitVec 64} (h : d.Becomes e c (y.enterTrap cause handler)) {p : Prop} :
    (e.core c).intEnabled = true → p := fun hi => by
  rw [h.1, Core.intEnabled_enterTrap] at hi
  exact absurd hi Bool.false_ne_true

theorem Dev.Becomes.masked {y : Core} (h : d.Becomes e c y) (hm : y.machineMode = (d.core c).machineMode) (hc : y.csr = (d.core c).csr) :
    (e.core c).intEnabled = true → (d.core c).intEnabled = true := fun hi => by
  rw [h.1] at hi
  exact (Core.intEnabled_same hm hc).symm.trans hi

theorem Dev.coreInstruction_given (hrun : (d.core c).phase = .run) (hpost : ∀ h ∈ d.sched.waiting, h.source ≠ .post c)
    (hen : (d.stream c.toNat).en = false) : (d.retired c i cycles).Given (Dev.coreInstruction c i cycles d) := by
  rw [Dev.coreInstruction_untraced hrun hpost hen]
  split
  · unfold Dev.preemptOn
    split
    · exact Dev.preempt_given _ _
    · exact .refl _
  · exact .refl _

theorem Dev.Becomes.eq {y y' : Core} (h : d.Becomes e c y) (hy : y = y') : d.Becomes e c y' := hy ▸ h

theorem Dev.strong_modSram (d : Dev) (c : BitVec 4) (f : Core → Core) (g : Sram → Sram) :
    ((d.modSram g).modCore c f).strong = { d.strong with sram := g d.strong.sram } := rfl

/-- The core with its counter run. -/
def Core.cycled (x : Core) (cycles : BitVec 32) : Core := { x with mcycle := x.mcycle + cycles.setWidth 64 }

section
variable {s : State} (hrun : (s.dev.core c).phase = .run) (hpost : ∀ h ∈ s.dev.sched.waiting, h.source ≠ .post c)
  (hen : (s.dev.stream c.toNat).en = false)
include hrun hpost hen

/-- An instruction that changes its core alone. -/
theorem completes_core {f : Core → Core} {y : Core} (hd : s.dev.retired c i cycles = (s.dev.cycled c cycles).modCore c f)
    (hy : f ((s.dev.core c).cycled cycles) = y) (hint : y.intEnabled = true → (s.dev.core c).intEnabled = true) :
    Completes (.coreInstruction c i cycles) s [.cores] fun d => s.dev.Becomes d c y := by
  have hb := (Dev.cycled_becomes (d := s.dev) (c := c) (cycles := cycles)).modCore f
  subst hy
  exact completes_retired hrun hpost hen hd (fun hi => hint (hb.1 ▸ hi)) (Dev.modCore_keep (Dev.cycled_keep (by decide)) (by decide) _ _) hb

/-- An instruction that leaves mode and CSRs. -/
theorem completes_plain {f : Core → Core} {y : Core} (hd : s.dev.retired c i cycles = (s.dev.cycled c cycles).modCore c f)
    (hy : f ((s.dev.core c).cycled cycles) = y) (hm : y.machineMode = (s.dev.core c).machineMode) (hc : y.csr = (s.dev.core c).csr) :
    Completes (.coreInstruction c i cycles) s [.cores] fun d => s.dev.Becomes d c y :=
  completes_core hrun hpost hen hd hy fun hi => (Core.intEnabled_same hm hc).symm.trans hi

theorem completes_trap {cause target : BitVec 64} {y : Core}
    (hd : s.dev.retired c i cycles = (s.dev.cycled c cycles).modCore c (·.enterTrap cause target))
    (hy : ((s.dev.core c).cycled cycles).enterTrap cause target = y) : Completes (.coreInstruction c i cycles) s [.cores] fun d => s.dev.Becomes d c y :=
  completes_core hrun hpost hen hd hy fun hi => absurd ((Core.intEnabled_enterTrap ..).symm.trans (hy ▸ hi)) Bool.false_ne_true

end
end

section
variable {d : Dev} {c : BitVec 4} {cycles : BitVec 32}

-- a branch that is traced (R390, R393)

/-- No comparator acts, and no range. -/
theorem Dev.traceFilter_idle (hmode : (d.stream c.toNat).mode = 0) (hact : (d.stream c.toNat).act = 0) (data : Option (BitVec 64)) :
    d.traceFilter c data = d := by
  have hmatches : (d.stream c.toNat).matches (d.core c).pc data = [] := List.filter_eq_nil_iff.2 fun k _ hk => by
    have haction : (d.stream c.toNat).action k = 0 := by
      unfold Stream.action
      rw [hact]
      simp [fld]
    rw [haction] at hk
    exact absurd hk (by simp)
  unfold Dev.traceFilter
  dsimp only
  rw [hmatches, hmode]
  rfl

theorem Dev.traceRetired_branch (hon : (d.stream c.toNat).isOn = true) (hlen : (d.stream c.toNat).branches.length < 63) (taken : Bool) (target : BitVec 64)
    (z : Bool) : d.traceRetired c (.branch taken target z) =
      d.setStream c.toNat { d.stream c.toNat with branches := (d.stream c.toNat).branches ++ [taken] } := by
  unfold Dev.traceRetired
  dsimp only
  rw [if_neg (by rw [hon]; decide), if_neg]
  rw [Dev.stream_setStream_same]
  show ¬ ((d.stream c.toNat).branches ++ [taken]).length = 64
  rw [List.length_append, List.length_singleton]
  omega

/-- A branch whose outcome waits with others. -/
theorem Dev.coreInstruction_branchTraced (hrun : (d.core c).phase = .run) (hpost : ∀ h ∈ d.sched.waiting, h.source ≠ .post c) (hf : d.fetchOk c = true)
    (hen : (d.stream c.toNat).en = true) (hon : (d.stream c.toNat).isOn = true) (hmode : (d.stream c.toNat).mode = 0) (hact : (d.stream c.toNat).act = 0)
    (hlen : (d.stream c.toNat).branches.length < 63) (taken : Bool) (target : BitVec 64) (z : Bool) :
    Dev.coreInstruction c (.branch taken target z) cycles d =
      ((d.cycled c cycles).setStream c.toNat { d.stream c.toNat with branches := (d.stream c.toNat).branches ++ [taken] }).modCore c
        fun x => { x with pc := if taken then target else x.pc + insnLen z } := by
  have hstays : d.asRetired c (.branch taken target z) = .branch taken target z := if_pos hf
  have htraced : ((d.cycled c cycles).traceFilter c none).traceRetired c (.branch taken target z) =
      (d.cycled c cycles).setStream c.toNat { d.stream c.toNat with branches := (d.stream c.toNat).branches ++ [taken] } := by
    rw [Dev.traceFilter_idle (d := d.cycled c cycles) hmode hact]
    exact Dev.traceRetired_branch (d := d.cycled c cycles) hon hlen taken target z
  have hb := ((Dev.cycled_becomes (d := d) (c := c) (cycles := cycles)).of_core (e' := (d.cycled c cycles).setStream c.toNat
    { d.stream c.toNat with branches := (d.stream c.toNat).branches ++ [taken] }) fun _ => rfl).modCore
      fun x => { x with pc := if taken then target else x.pc + insnLen z }
  have hbranch : ((d.cycled c cycles).setStream c.toNat { d.stream c.toNat with branches := (d.stream c.toNat).branches ++ [taken] }).retireState c
      (.branch taken target z) = ((d.cycled c cycles).setStream c.toNat { d.stream c.toNat with branches := (d.stream c.toNat).branches ++ [taken] }).modCore c
        fun x => { x with pc := if taken then target else x.pc + insnLen z } := by
    cases taken <;> rfl
  have hdropped : (((d.cycled c cycles).setStream c.toNat { d.stream c.toNat with branches := (d.stream c.toNat).branches ++ [taken] }).stream c.toNat).dropped =
      (d.stream c.toNat).dropped := by rw [Dev.stream_setStream_same]
  rw [Dev.coreInstruction_running hrun hpost, hstays]
  dsimp only [dataAddr]
  rw [if_pos hen, htraced, if_neg, if_pos rfl, hbranch]
  · exact if_neg fun h => Bool.false_ne_true ((Bool.not_eq_true' _ ▸ h.1 : (d.core c).intEnabled = false).symm.trans (hb.masked rfl rfl h.2))
  · rw [hdropped]
    rintro ⟨-, -, -, hnone, hsome⟩
    rw [Option.isNone_iff_eq_none.1 hnone] at hsome
    exact absurd hsome (by decide)

/-- Its external interrupt's signal may have risen, and its other CSRs stand. -/
theorem Core.Given.signals {x y : Core} {l : Tbl (BitVec 64)} (h : x.Given y) (hl : x.csr = l) : (∀ n, n ≠ 0x344 → Tbl.get 0 y.csr n = Tbl.get 0 l n) ∧
    (Tbl.get 0 y.csr 0x344 = Tbl.get 0 l 0x344 ∨ Tbl.get 0 y.csr 0x344 = Tbl.get 0 l 0x344 ||| 0x800) := by
  subst hl
  exact ⟨h.csr, h.meip⟩

/-- The core after a write of a CSR, its counter run. -/
theorem Core.writeCsr_shown (x : Core) (cycles : BitVec 32) (n : BitVec 12) (v : BitVec 64) (rd : BitVec 5) (old : BitVec 64) :
    let y : Core := { ((x.cycled cycles).setX rd old).writeCsr n.toNat v with pc := (((x.cycled cycles).setX rd old).writeCsr n.toNat v).pc + 4 }
    y.x = (if rd = 0 then x.x else Tbl.set 0 x.x rd.toNat old) ∧ y.pc = x.pc + 4 ∧ y.machineMode = x.machineMode ∧
      (n = 0xB00 → y.mcycle = v ∧ y.csr = x.csr) ∧
      (n ≠ 0xB00 → y.mcycle = x.mcycle + cycles.setWidth 64 ∧ y.csr = Tbl.set 0 x.csr n.toNat
        (if n = 0x344 then (v &&& ~~~(0x800 : BitVec 64)) ||| (Tbl.get 0 x.csr 0x344 &&& 0x800) else v)) := by
  rw [Core.setX_eq]
  unfold Core.writeCsr
  by_cases hc : n = 0xB00
  · subst hc
    exact ⟨rfl, rfl, rfl, fun _ => ⟨rfl, rfl⟩, fun h => absurd rfl h⟩
  · have hnat : n.toNat ≠ 0xB00 := fun h => hc (BitVec.eq_of_toNat_eq h)
    by_cases hm : n = 0x344
    · subst hm
      exact ⟨rfl, rfl, rfl, fun h => absurd h hc, fun _ => ⟨rfl, by rw [if_pos rfl]; rfl⟩⟩
    · have hmip : n.toNat ≠ 0x344 := fun h => hm (BitVec.eq_of_toNat_eq h)
      rw [if_neg hnat, if_neg hmip]
      exact ⟨rfl, rfl, rfl, fun h => absurd h hc, fun _ => ⟨rfl, by rw [if_neg hm]; rfl⟩⟩

theorem Dev.retired_csr (h : d.fetchOk c = true) (n : BitVec 12) (v : BitVec 64) (rd : BitVec 5) (old : BitVec 64) :
    d.retired c (.csr n v rd old) cycles = (d.cycled c cycles).modCore c
      fun x => { (x.setX rd old).writeCsr n.toNat v with pc := ((x.setX rd old).writeCsr n.toNat v).pc + 4 } := Dev.retired_fetched h rfl

theorem Dev.retired_mret (h : d.fetchOk c = true) (target : BitVec 64) :
    d.retired c (.mret target) cycles = (d.cycled c cycles).modCore c (·.leaveTrap target) := Dev.retired_fetched h rfl

/-- An instruction behind which an interrupt may be taken. -/
theorem completes_given {s : State} {i : Retired} {f : Core → Core} {Q : Dev → Prop} (hrun : (s.dev.core c).phase = .run)
    (hpost : ∀ h ∈ s.dev.sched.waiting, h.source ≠ .post c) (hen : (s.dev.stream c.toNat).en = false)
    (hd : s.dev.retired c i cycles = (s.dev.cycled c cycles).modCore c f)
    (hQ : ∀ d, (f ((s.dev.core c).cycled cycles)).Given (d.core c) → Q d) : Completes (.coreInstruction c i cycles) s [.cores, .sched] Q := by
  have hgiven := Dev.coreInstruction_given (i := i) (cycles := cycles) hrun hpost hen
  have hcore : (s.dev.retired c i cycles).core c = f ((s.dev.core c).cycled cycles) := by
    rw [hd]
    exact ((Dev.cycled_becomes (d := s.dev) (c := c) (cycles := cycles)).modCore f).1
  refine completes_of_run (f := Dev.coreInstruction c i cycles) rfl rfl ?_ (hQ _ (hcore ▸ hgiven.core c))
  rw [Dev.coreInstruction_untraced hrun hpost hen, hd]
  have hk : Keep [.cores, .sched] s.dev ((s.dev.cycled c cycles).modCore c f) := Dev.modCore_keep (Dev.cycled_keep (by decide)) (by decide) _ _
  exact .ite (Dev.preemptOn_keep hk (by decide) (by decide) _) hk

end

-- sleep (R395)

section
variable {d e : Dev} {c : BitVec 4}

/-- The stream of a core that goes to sleep has its packet. -/
def Dev.dozing (d : Dev) (c : BitVec 4) : Dev :=
  if (d.stream c.toNat).isOn then
    let d := (d.flushBranches c).streamReserved c.toNat (leBytes 1 8 ++ leBytes 8 (d.core c).mcycle.toNat)
    d.setStream c.toNat { d.stream c.toNat with cycleBase := (d.core c).mcycle }
  else d

theorem Dev.dozing_streamed (d : Dev) (c : BitVec 4) : d.Streamed c.toNat (d.dozing c) := by
  unfold Dev.dozing
  split
  · exact (d.flushBranches_streamed c).trans ((Dev.streamReserved_streamed ..).trans (Dev.setStream_streamed ..))
  · exact .refl _ _

theorem Dev.dozing_keep : Keep [.free, .events, .cellar, .cores, .strong] d (d.dozing c) := by
  unfold Dev.dozing
  refine .ite (Dev.setStream_keep (Dev.streamReserved_keep (Dev.flushBranches_keep (.refl _ _) (by decide) (by decide) (by decide) (by decide) (by decide) _)
    (by decide) (by decide) (by decide) (by decide) (by decide) _ _) (by decide) _ _) (.refl _ _)

theorem Dev.coreWfi_eq (h : (d.core c).phase = .run) : Dev.coreWfi c d =
    (d.dozing c).modCore c fun x => { x with phase := .sleep, asleepSince := d.now, pc := x.pc + 4 } := by
  have hnow : (d.dozing c).now = d.now := Dev.dozing_keep.now.resolve_left (by decide)
  unfold Dev.coreWfi
  rw [if_neg (not_not.2 h), ← hnow]
  rfl

/-- The stream of a core that wakes has its packets. -/
def Dev.waking (d : Dev) (c : BitVec 4) (since : Instant) : Dev :=
  if (d.stream c.toNat).isOn then (d.sync c.toNat 2).streamReserved c.toNat (leBytes 1 9 ++ leBytes 8 ((d.now - since) / ns)) else d

theorem Dev.waking_streamed (d : Dev) (c : BitVec 4) (since : Instant) : d.Streamed c.toNat (d.waking c since) := by
  unfold Dev.waking
  split
  · exact (Dev.sync_streamed ..).trans (Dev.streamReserved_streamed ..)
  · exact .refl _ _

theorem Dev.waking_keep {since : Instant} : Keep [.free, .events, .cellar, .cores, .strong] d (d.waking c since) := by
  unfold Dev.waking
  exact .ite (Dev.streamReserved_keep (by apply Dev.sync_keep (.refl _ _) <;> exact listed rfl) (by decide) (by decide) (by decide) (by decide) (by decide) _ _) (.refl _ _)

theorem Dev.coreWake_eq (h : (d.core c).phase = .sleep) (asleep : BitVec 64) : Dev.coreWake c asleep d =
    ((d.reach ((d.core c).asleepSince + asleep.toNat * ns)).waking c (d.core c).asleepSince).modCore c fun x => { x with phase := .run } := by
  unfold Dev.coreWake
  exact if_neg (not_not.2 h)

end

-- watchdogs (R370, R373)

section
variable {d e : Dev} {c : BitVec 4} {o : Occ}

theorem Dev.EnRoute.dispatchAll (h : d.EnRoute o) : d.dispatchAll.EnRoute o := h.keep (Dev.dispatchAll_keep (.refl [.cores, .sched] _) (by decide) (by decide)) (by decide)

theorem Dev.EnRoute.preempt (h : d.EnRoute o) {n : Nat} : (d.preempt n).EnRoute o :=
  h.keep (Dev.preempt_keep (.refl [.cores, .sched] _) (by decide) (by decide) _) (by decide)

theorem Dev.EnRoute.placeTask {src : TaskSource} {tclass : BitVec 8} {arg : BitVec 64} {due : Due} (h : d.EnRoute o)
    (hp : d.placeTask src tclass arg due = some e) : e.EnRoute o := by
  unfold Dev.placeTask at hp
  split at hp
  · cases hp
    exact h
  · split at hp
    · cases hp
    · cases hp
      exact Dev.EnRoute.reheldAll (Dev.EnRoute.preempt (Dev.EnRoute.dispatchAll (d := d.modSched _) h))

theorem Dev.EnRoute.setLate (h : d.EnRoute o) {src : TaskSource} {late : Bool} : (d.setLate src late).EnRoute o := by
  unfold Dev.setLate
  split <;> exact h

theorem Dev.EnRoute.newTask (h : d.EnRoute o) {src : TaskSource} {tclass : BitVec 8} {arg : BitVec 64} {due : Due} {ts : Nat} :
    (d.newTask src tclass arg due ts).EnRoute o := by
  unfold Dev.newTask
  split
  · next hp => exact h.placeTask hp
  · dsimp only
    split <;> exact Dev.EnRoute.setLate (d := d.modSched _) h

theorem Dev.EnRoute.refill (h : d.EnRoute o) (n : Nat) : (Dev.refill n d).EnRoute o := by
  induction n generalizing d with
  | zero => exact h
  | succ n ih =>
    unfold Dev.refill
    dsimp only
    split
    · exact h
    · next w _ =>
      have htaken : (if (d.modSched fun s => { s with waiting := s.waiting.erase w }).sched.waiting.any (fun y => y.source == w.source) then
          d.modSched fun s => { s with waiting := s.waiting.erase w }
        else (d.modSched fun s => { s with waiting := s.waiting.erase w }).setLate w.source false).EnRoute o :=
        .ite (fun _ => h) fun _ => Dev.EnRoute.setLate (d := d.modSched _) h
      split
      · next hp => exact ih (htaken.placeTask hp)
      · exact htaken

theorem Dev.EnRoute.refillAll (h : d.EnRoute o) : d.refillAll.EnRoute o := h.refill _

theorem Dev.EnRoute.abandon (h : d.EnRoute o) : (d.abandon c).EnRoute o := by
  refine Dev.EnRoute.reheldAll (Dev.EnRoute.dispatchAll (Dev.EnRoute.refillAll (.each (.each h fun _ _ h => h) fun d t h => ?_)))
  split
  · exact .ite (fun _ => h.newTask) fun _ => h
  · exact h

theorem Dev.EnRoute.startCore (h : d.EnRoute o) : (d.startCore c).EnRoute o := by
  have hcore (f : Core → Core) : (d.modCore c f).EnRoute o := h
  unfold Dev.startCore
  dsimp only
  split
  · exact (hcore _).setStream.sync
  · exact hcore _

/-- The stack of a core is given up, and other cores may take what its tasks leave. -/
theorem Dev.abandon_given (d : Dev) (c : BitVec 4) : (d.modCore c fun x => { x with stack := [] }).Given (d.abandon c) := by
  refine Dev.Given.trans ?_ (((Dev.refillAll_given _).trans (Dev.dispatchAll_given _)).trans (Dev.reheldAll_given _))
  refine Dev.Given.trans (d := (d.modCore c fun x => { x with stack := [] }).each ((d.core c).stack.filterMap d.task?) fun d t => (d.freeTask t.entry).countSched 3)
    (Dev.each_induct (P := Dev.Given _) (.refl _) fun _ _ h => h.trans (.of_cores rfl)) ?_
  refine Dev.each_induct (P := Dev.Given _) (.refl _) fun d t h => ?_
  split
  · split
    · exact h.trans (Dev.newTask_given ..)
    · exact h
  · exact h

theorem Dev.EnRoute.rewindPair (h : d.EnRoute o) {k : BitVec 9} : (d.rewindPair k).EnRoute o := Dev.EnRoute.postRing h

/-- A customer core whose watchdog has expired, before its start. -/
def Core.expired (x : Core) : Core := { x with cnt := bumpAt x.cnt 1, phase := .reset }

/-- The device as a customer core's watchdog has expired. -/
def Dev.expired (d : Dev) (c : BitVec 4) (t : Instant) : Dev := ((d.reach t).modCore c Core.expired).raise (480 + c.toNat)

theorem Dev.watchdogExpiry_customer (hc : 4 ≤ c.toNat) (hen : (d.core c).wdogEn = true) (hable : (d.core c).able = true) :
    Dev.watchdogExpiry c d =
      ((((d.expired c ((d.core c).wdogSince + max 1 (d.core c).wdogPeriod.toNat * 1000 * ns)).abandon c).startCore c).refillAll.dispatchAll) := by
  unfold Dev.watchdogExpiry
  dsimp only
  rw [if_neg (by omega), if_neg (by rw [hen, hable]; decide)]
  rfl

theorem Dev.core_expired (d : Dev) (c : BitVec 4) (t : Instant) : (d.expired c t).core c = (d.core c).expired := by
  refine (Dev.core_of_cores (d := (d.reach t).modCore c Core.expired) rfl c).trans ((Dev.core_modCore_same ..).trans (congrArg Core.expired ?_))
  exact Dev.core_of_cores ((Dev.reach_keep (.refl [.now] d) (by decide) t).cores.resolve_left (by decide)) c

/-- The core waits in reset with an empty stack while its tasks are created again. -/
theorem Dev.core_abandon_expired (d : Dev) (c : BitVec 4) (t : Instant) :
    ((d.expired c t).abandon c).core c = { (d.core c).expired with stack := [] } := by
  have hcore : ((d.expired c t).modCore c fun x => { x with stack := [] }).core c = { (d.core c).expired with stack := [] } := by
    rw [Dev.core_modCore_same, Dev.core_expired]
  have hgiven := (Dev.abandon_given (d.expired c t) c).core c
  rw [hcore] at hgiven
  exact hgiven.held rfl

/-- What a customer core's watchdog leaves of it. -/
theorem Dev.expired_restarts (d : Dev) (c : BitVec 4) (t : Instant) : let e := ((((d.expired c t).abandon c).startCore c).refillAll.dispatchAll)
    e.now = max d.now t ∧ OnTheWay e (480 + c.toNat) ∧ (Core.started { (d.core c).expired with stack := [] } e.now).Given (e.core c) := by
  have hnow : ((d.expired c t).abandon c).now = max d.now t :=
    ((Dev.abandon_keep (.refl [.events, .rings, .cores, .sched] (d.expired c t)) (by decide) (by decide) (by decide) (by decide) c).now.resolve_left (by decide)).trans
      (congrArg Dev.now (d.reach_eq t))
  have hstart : (((d.expired c t).abandon c).startCore c).now = max d.now t :=
    ((Dev.startCore_keep (.refl [.free, .events, .cellar, .cores, .strong] _) (by decide) (by decide) (by decide) (by decide) (by decide) c).now.resolve_left (by decide)).trans hnow
  have hend : ((((d.expired c t).abandon c).startCore c).refillAll.dispatchAll).now = max d.now t :=
    ((Dev.dispatchAll_keep (Dev.refillAll_keep (.refl [.events, .rings, .cores, .sched] _) (by decide) (by decide) (by decide) (by decide)) (by decide) (by decide)).now.resolve_left
      (by decide)).trans hstart
  have hgiven := ((Dev.refillAll_given (((d.expired c t).abandon c).startCore c)).trans (Dev.dispatchAll_given _)).core c
  rw [(Dev.startCore_shown ((d.expired c t).abandon c) c).1, Dev.core_abandon_expired, hnow] at hgiven
  have hraised : ∃ o, (d.expired c t).EnRoute o ∧ o.ev = BitVec.ofNat 10 (480 + c.toNat) := ⟨_, List.mem_append_right _ (List.mem_singleton_self _), rfl⟩
  obtain ⟨o, ho, hev⟩ := hraised
  exact ⟨hend, ⟨o, Dev.EnRoute.dispatchAll (Dev.EnRoute.refillAll (Dev.EnRoute.startCore (Dev.EnRoute.abandon ho))), hev⟩, hend.symm ▸ hgiven⟩

-- a firmware pair that fails

/-- The firmware that the active pair runs has stayed. -/
def Dev.SamePair (d e : Dev) : Prop := e.cores.activeB = d.cores.activeB ∧ e.cores.secver = d.cores.secver ∧ e.cores.version = d.cores.version ∧ e.cores.hash = d.cores.hash

theorem Dev.SamePair.refl (d : Dev) : d.SamePair d := ⟨rfl, rfl, rfl, rfl⟩

theorem Dev.SamePair.trans {b : Dev} (h : b.SamePair d) (h' : d.SamePair e) : b.SamePair e := by
  obtain ⟨hactive, hsecver, hversion, hhash⟩ := h
  obtain ⟨hactive', hsecver', hversion', hhash'⟩ := h'
  exact ⟨hactive'.trans hactive, hsecver'.trans hsecver, hversion'.trans hversion, hhash'.trans hhash⟩

theorem Dev.SamePair.of_cores (h : e.cores = d.cores) : d.SamePair e := by
  unfold Dev.SamePair
  rw [h]
  exact ⟨rfl, rfl, rfl, rfl⟩

theorem Dev.Given.samePair (h : d.Given e) : d.SamePair e := by
  unfold Dev.SamePair
  rw [h.cores]
  exact ⟨rfl, rfl, rfl, rfl⟩

theorem Dev.Streamed.samePair {i : Nat} (h : d.Streamed i e) : d.SamePair e := by
  unfold Dev.SamePair
  rw [h.cores]
  exact ⟨rfl, rfl, rfl, rfl⟩

theorem Dev.modCore_samePair (d : Dev) (c : BitVec 4) (f : Core → Core) : d.SamePair (d.modCore c f) := .refl d

theorem Dev.startCore_samePair (d : Dev) (c : BitVec 4) : d.SamePair (d.startCore c) := by
  refine (d.modCore_samePair c (·.started d.now)).trans ?_
  unfold Dev.startCore
  dsimp only
  split
  · exact ((Dev.setStream_streamed ..).trans (Dev.sync_streamed ..)).samePair
  · exact .refl _

/-- The tasks of the active pair wait again. -/
def Dev.unpaired (d : Dev) : Dev :=
  (d.each d.cores.activePair fun d c => d.modCoreAt c fun x => { x with stack := [] }).each
    (d.cores.activePair.flatMap fun c => (d.coreAt c).stack) fun d e => d.setPhase e .pending

theorem Dev.unpaired_cores (d : Dev) : d.unpaired.cores = { d.cores with cores := d.unpaired.cores.cores } := by
  refine Dev.each_induct (P := fun x => x.cores = { d.cores with cores := x.cores.cores }) ?_ fun x n h => h
  refine Dev.each_induct (P := fun x => x.cores = { d.cores with cores := x.cores.cores }) rfl fun x n h => ?_
  exact congrArg (fun k : Cores => { k with cores := (x.modCoreAt n fun x => { x with stack := [] }).cores.cores }) h

theorem Dev.EnRoute.unpaired (h : d.EnRoute o) : d.unpaired.EnRoute o := by
  unfold Dev.unpaired
  refine .each (.each h fun x k hx => ?_) fun x k hx => ?_
  · exact hx
  · exact hx

/-- The standby pair takes over. -/
def Cores.takeOver (c : Cores) : Cores :=
  let c := { c with activeB := !c.activeB, secver := c.sbSecver, version := c.sbVersion, hash := c.sbHash }
  if c.pendingFw.isSome then c else c.reloadStandby

theorem Cores.takeOver_shown (c : Cores) :
    c.takeOver.activeB = (!c.activeB) ∧ c.takeOver.secver = c.sbSecver ∧ c.takeOver.version = c.sbVersion ∧ c.takeOver.hash = c.sbHash := by
  unfold Cores.takeOver
  dsimp only
  split <;> exact ⟨rfl, rfl, rfl, rfl⟩

/-- The device as the standby pair has taken over, before the failed pair's start. -/
def Dev.takenOver (d : Dev) : Dev := d.unpaired.modCores Cores.takeOver

/-- The new active pair's firmware: the standby pair's. -/
theorem Dev.takenOver_shown (d : Dev) : d.takenOver.cores.activeB = (!d.cores.activeB) ∧ d.takenOver.cores.secver = d.cores.sbSecver ∧
    d.takenOver.cores.version = d.cores.sbVersion ∧ d.takenOver.cores.hash = d.cores.sbHash := by
  obtain ⟨hactive, hsecver, hversion, hhash⟩ := d.unpaired.cores.takeOver_shown
  have hcores := d.unpaired_cores
  exact ⟨hactive.trans (congrArg (fun k : Cores => !k.activeB) hcores :), hsecver.trans (congrArg Cores.sbSecver hcores :),
    hversion.trans (congrArg Cores.sbVersion hcores :), hhash.trans (congrArg Cores.sbHash hcores :)⟩

theorem Dev.failover_eq (d : Dev) : d.failover =
    (((d.takenOver.measure { kind := 2, index := 0, secver := d.takenOver.cores.secver.toNat, aux := d.takenOver.cores.version.setWidth 64, hash := d.takenOver.cores.hash
        }).each (Tbl.keys d.takenOver.rings.pairs) fun d k => if (d.ring (BitVec.ofNat 9 k)).en then d.rewindPair (BitVec.ofNat 9 k) else d).each d.cores.activePair
          fun d c => d.startCore (BitVec.ofNat 4 c)).dispatchAll := rfl

theorem Dev.failover_shown (d : Dev) : d.takenOver.SamePair d.failover ∧ ∀ o, d.EnRoute o → d.failover.EnRoute o := by
  rw [Dev.failover_eq]
  refine ⟨?_, fun o h => ?_⟩
  · refine Dev.SamePair.trans ?_ (Dev.dispatchAll_given _).samePair
    refine Dev.each_induct (P := Dev.SamePair _) ?_ fun x k hx => hx.trans (x.startCore_samePair _)
    refine Dev.each_induct (P := Dev.SamePair _) (.refl _) fun x k hx => ?_
    split
    · exact hx.trans (.of_cores ((Dev.rewindPair_keep (.refl [.out, .events, .link, .rings, .sched] x) (by decide) (by decide) (by decide) (by decide) (by decide) _).cores.resolve_left (by decide)))
    · exact hx
  · refine Dev.EnRoute.dispatchAll (Dev.EnRoute.each (Dev.EnRoute.each (Dev.EnRoute.measure (Dev.EnRoute.modCores h.unpaired)) fun x k hx => ?_) fun x k hx => hx.startCore)
    exact .ite (fun _ => hx.rewindPair) fun _ => hx

/-- A firmware core whose watchdog has expired, with its pair's event. -/
def Dev.fwExpired (d : Dev) (c : BitVec 4) : Dev :=
  (d.modCore c fun x => { x with cnt := bumpAt x.cnt 1 }).raise (if decide (2 ≤ c.toNat) then 482 else 480)

theorem Dev.watchdogExpiry_firmware (hc : c.toNat < 4) (hable : (d.core c).able = true) : Dev.watchdogExpiry c d =
    if decide (2 ≤ c.toNat) = d.cores.activeB then (d.fwExpired c).failover else (d.fwExpired c).modCores fun k => { k with sb := .failed, handover := false } := by
  unfold Dev.watchdogExpiry
  dsimp only
  rw [if_pos hc, if_neg (by rw [hable]; decide)]
  rfl

theorem Dev.fwExpired_raised : OnTheWay (d.fwExpired c) (if decide (2 ≤ c.toNat) then 482 else 480) :=
  ⟨_, List.mem_append_right _ (List.mem_singleton_self _), rfl⟩

theorem Dev.fwExpired_fails {ev : Nat} (hev : ev = if decide (2 ≤ c.toNat) then 482 else 480) : OnTheWay (d.fwExpired c).failover ev ∧
    (d.fwExpired c).failover.cores.activeB = (!d.cores.activeB) ∧ (d.fwExpired c).failover.cores.secver = d.cores.sbSecver ∧
    (d.fwExpired c).failover.cores.version = d.cores.sbVersion ∧ (d.fwExpired c).failover.cores.hash = d.cores.sbHash := by
  obtain ⟨⟨hactive, hsecver, hversion, hhash⟩, hroute⟩ := (d.fwExpired c).failover_shown
  obtain ⟨hactive', hsecver', hversion', hhash'⟩ := (d.fwExpired c).takenOver_shown
  obtain ⟨o, ho, hoev⟩ := Dev.fwExpired_raised (d := d) (c := c)
  exact ⟨⟨o, hroute o ho, hev ▸ hoev⟩, hactive.trans hactive', hsecver.trans hsecver', hversion.trans hversion', hhash.trans hhash'⟩

end

-- the commands of sleep and of the watchdog

section
variable {s : State} {c : BitVec 4}

theorem coreWfi_completes (hrun : (s.dev.core c).phase = .run) : Completes (.coreWfi c) s [.free, .events, .cellar, .cores, .strong] fun d =>
    d.core c = { s.dev.core c with phase := .sleep, asleepSince := s.dev.now, pc := (s.dev.core c).pc + 4 } ∧
    ((s.dev.stream c.toNat).isOn = false → d.free = s.dev.free ∧ d.events = s.dev.events ∧ d.cellar = s.dev.cellar ∧ d.strong = s.dev.strong) := by
  have hcore := (s.dev.dozing_streamed c).core c
  refine completes_of_run (f := Dev.coreWfi c) rfl (Dev.coreWfi_eq hrun) (Dev.modCore_keep Dev.dozing_keep (by decide) _ _)
    ⟨(Dev.core_modCore_same ..).trans (by rw [hcore]), fun hoff => ?_⟩
  have hstill : s.dev.dozing c = s.dev := if_neg (by rw [hoff]; exact Bool.false_ne_true)
  rw [hstill]
  exact ⟨rfl, rfl, rfl, rfl⟩

theorem Dev.woken_shown {d : Dev} (c : BitVec 4) (t since : Instant) : (((d.reach t).waking c since).modCore c fun x => { x with phase := .run }).now = max d.now t ∧
    (((d.reach t).waking c since).modCore c fun x => { x with phase := .run }).core c = { d.core c with phase := .run } ∧
    ((d.stream c.toNat).isOn = false → Keep [.now, .cores] d (((d.reach t).waking c since).modCore c fun x => { x with phase := .run })) := by
  have hreach : (d.reach t).cores = d.cores := (Dev.reach_keep (.refl [.now] d) (by decide) _).cores.resolve_left (by decide)
  have hcore : ((d.reach t).waking c since).core c = d.core c := ((Dev.waking_streamed ..).core c).trans (Dev.core_of_cores hreach c)
  refine ⟨(Dev.waking_keep.now.resolve_left (by decide)).trans (congrArg Dev.now (d.reach_eq _)), (Dev.core_modCore_same ..).trans (by rw [hcore]), fun hoff => ?_⟩
  have hstream : (d.reach t).stream c.toNat = d.stream c.toNat := by
    unfold Dev.stream
    rw [hreach]
  have hstill : (d.reach t).waking c since = d.reach t := if_neg (by rw [hstream, hoff]; exact Bool.false_ne_true)
  rw [hstill]
  exact Dev.modCore_keep (Dev.reach_keep (.refl _ d) (by decide) _) (by decide) _ _

theorem coreWake_completes (asleep : BitVec 64) (hsleep : (s.dev.core c).phase = .sleep) :
    Completes (.coreWake c asleep) s [.now, .free, .events, .cellar, .cores, .strong] fun d =>
      d.now = max s.dev.now ((s.dev.core c).asleepSince + asleep.toNat * ns) ∧ d.core c = { s.dev.core c with phase := .run } ∧
      ((s.dev.stream c.toNat).isOn = false → d.free = s.dev.free ∧ d.events = s.dev.events ∧ d.cellar = s.dev.cellar ∧ d.strong = s.dev.strong) := by
  obtain ⟨hnow, hcore, hoff⟩ := Dev.woken_shown (d := s.dev) c ((s.dev.core c).asleepSince + asleep.toNat * ns) (s.dev.core c).asleepSince
  refine completes_of_run (f := Dev.coreWake c asleep) rfl (Dev.coreWake_eq hsleep asleep) ?_ ⟨hnow, hcore, fun h => ?_⟩
  · rw [← Dev.coreWake_eq hsleep asleep]
    apply Dev.coreWake_keep (.refl _ _) <;> exact listed rfl
  · have hk := hoff h
    exact ⟨hk.free.resolve_left (by decide), hk.events.resolve_left (by decide), hk.cellar.resolve_left (by decide), hk.strong.resolve_left (by decide)⟩

theorem watchdog_restarts (hc : 4 ≤ c.toNat) (hen : (s.dev.core c).wdogEn = true) (hable : (s.dev.core c).able = true) :
    Completes (.watchdogExpiry c) s (Instr.parts (.watchdogExpiry c)) fun d =>
      d.now = max s.dev.now ((s.dev.core c).wdogSince + max 1 (s.dev.core c).wdogPeriod.toNat * 1000 * ns) ∧ OnTheWay d (480 + c.toNat) ∧
      (Core.started { (s.dev.core c).expired with stack := [] } d.now).Given (d.core c) :=
  completes_framed (f := Dev.watchdogExpiry c) rfl (Dev.watchdogExpiry_customer hc hen hable) (s.dev.expired_restarts c _)

theorem Core.restarted_shown {x y : Core} {now : Instant} (hgiven : (Core.started { x.expired with stack := [] } now).Given y) :
    y.run = true ∧ y.phase = .run ∧ y.pc = x.boot.setWidth 64 ∧ y.machineMode = true ∧ y.x = [] ∧ (y.stack = [] → y.csr = []) ∧
      (∀ n, n ≠ 0x344 → Tbl.get 0 y.csr n = 0) ∧ y.mcycle = 0 ∧ y.wdogSince = now ∧ y.cnt = bumpAt x.cnt 1 ∧ y.tcm = x.tcm ∧ y.boot = x.boot := by
  have hrest := hgiven.rest
  exact ⟨(congrArg Core.run hrest :), (congrArg Core.phase hrest :), (congrArg Core.pc hrest :), (congrArg Core.machineMode hrest :),
    (congrArg Core.x hrest :), fun hs => (congrArg Core.csr (hgiven.idle hs) :), fun n hn => hgiven.csr n hn, (congrArg Core.mcycle hrest :),
    (congrArg Core.wdogSince hrest :), (congrArg Core.cnt hrest :), (congrArg Core.tcm hrest :), (congrArg Core.boot hrest :)⟩

theorem Dev.fwExpired_standby {d : Dev} (c : BitVec 4) : let e := (d.fwExpired c).modCores fun k => { k with sb := .failed, handover := false }
    Raised d e (if 2 ≤ c.toNat then 482 else 480) ∧
      e.cores = { d.cores with cores := Tbl.set {} d.cores.cores c.toNat { d.core c with cnt := bumpAt (d.core c).cnt 1 }, sb := .failed, handover := false } := by
  have hev : (if decide (2 ≤ c.toNat) = true then 482 else 480) = if 2 ≤ c.toNat then 482 else 480 := if_congr decide_eq_true_iff rfl rfl
  exact ⟨⟨_, rfl, by rw [← hev], rfl⟩, rfl⟩

theorem watchdog_standby (hc : c.toNat < 4) (hable : (s.dev.core c).able = true) (hpassive : decide (2 ≤ c.toNat) ≠ s.dev.cores.activeB) :
    Completes (.watchdogExpiry c) s [.events, .cores] fun d => Raised s.dev d (if 2 ≤ c.toNat then 482 else 480) ∧
      d.cores = { s.dev.cores with cores := Tbl.set {} s.dev.cores.cores c.toNat { s.dev.core c with cnt := bumpAt (s.dev.core c).cnt 1 }, sb := .failed, handover := false } :=
  completes_of_run (f := Dev.watchdogExpiry c) rfl ((Dev.watchdogExpiry_firmware hc hable).trans (if_neg hpassive))
    (Dev.modCores_keep (Dev.raise_keep (Dev.modCore_keep (.refl _ _) (by decide) _ _) (by decide) _ _) (by decide) _) (Dev.fwExpired_standby c)

theorem watchdog_fails (hc : c.toNat < 4) (hable : (s.dev.core c).able = true) (hactive : decide (2 ≤ c.toNat) = s.dev.cores.activeB) :
    Completes (.watchdogExpiry c) s (Instr.parts (.watchdogExpiry c)) fun d => OnTheWay d (if 2 ≤ c.toNat then 482 else 480) ∧
      d.cores.activeB = (!s.dev.cores.activeB) ∧ d.cores.secver = s.dev.cores.sbSecver ∧ d.cores.version = s.dev.cores.sbVersion ∧ d.cores.hash = s.dev.cores.sbHash :=
  completes_framed (f := Dev.watchdogExpiry c) rfl ((Dev.watchdogExpiry_firmware hc hable).trans (if_pos hactive))
    (Dev.fwExpired_fails (if_congr decide_eq_true_iff.symm rfl rfl))

end

/-- Settles O43: an instruction comes to `Dev.retired`, and what that is for each kind of instruction and each place of an access is a lemma of its own;
a core sleeps and wakes beside its stream; a customer core restarts as `Dev.expired_restarts`, a firmware pair fails as `Dev.failover_shown`. -/
theorem coresRunSleepAndRestart : Obligations.CoresRunSleepAndRestart := by
  unfold Obligations.CoresRunSleepAndRestart
  refine ⟨fun s c cycles => ?_, fun s c => ?_⟩
  · intro x t set m kept len others becomes trapped handler csrIs hrun hpost
    have htrap (cause target : BitVec 64) : ((s.dev.core c).cycled cycles).enterTrap cause target = { trapped cause target with mcycle := x.mcycle + cycles.setWidth 64 } :=
      Core.enterTrap_eq ..
    have hset (rd : BitVec 5) (v pc : BitVec 64) : { ((s.dev.core c).cycled cycles).setX rd v with pc } =
        ({ x with x := set rd v, pc, mcycle := x.mcycle + cycles.setWidth 64 } : Core) := by
      rw [Core.setX_eq]
      rfl
    refine ⟨fun cause target hen => ?_, fun i hen hf ht => ?_, fun hen hf => ⟨fun rd v z => ?_, fun taken target z => ?_, fun ind target rd link => ?_,
      fun a rd z hok => ⟨fun hs => ⟨fun htcm => ?_, fun hsram hecc => ?_, fun hsram hecc => ?_, fun hport => ?_, fun htcm hsram hport hin => ?_⟩,
        fun hin hl => ⟨fun hp => ?_, fun i r hp hs hline => ⟨fun hr => ?_, fun hr hclear hrsv hstate hverify => ?_⟩,
          fun i r hp hr hs hamo hn hcanon hclear => ?_⟩,
        fun hs hamo htcm hsram hin => ?_, fun hs htcm => ?_, fun hs hsram hamo => ?_, fun hsram hreads hecc => ?_⟩,
      fun a rd z hok => ?_, fun n v rd old => ?_, fun target => ?_⟩, fun taken target z hf hen hon hmode hact hlen => ?_⟩
    · exact completes_trap hrun hpost hen (Dev.retired_trapped cause target) (htrap cause target)
    · exact completes_trap hrun hpost hen (Dev.retired_unfetched hf ht) (htrap 1 handler)
    · exact completes_plain hrun hpost hen (Dev.retired_plain hf rd v z) (hset rd v _) rfl rfl
    · exact completes_plain hrun hpost hen (Dev.retired_branch hf taken target z) rfl rfl rfl
    · exact completes_plain hrun hpost hen (Dev.retired_jump hf ind target rd link) (hset rd link target) rfl rfl
    · have hin : inCellar a = false := inCellar_below (by omega)
      refine completes_imp (completes_plain hrun hpost hen (Dev.retired_loads_clean hf hok hin hs (Dev.sramFinding_outside (by omega))) (hset rd _ _) rfl rfl) fun d hd => ⟨?_, trivial⟩
      rwa [Dev.coreLoad_tcm htcm] at hd
    · have hin : inCellar a = false := inCellar_below (by omega)
      refine completes_imp (completes_plain hrun hpost hen (Dev.retired_loads_clean hf hok hin hs
        ((Dev.sramFinding_reads hf hok hsram (.inl hs)).trans (by rw [hecc]; rfl))) (hset rd _ _) rfl rfl) fun d hd => ⟨?_, trivial⟩
      rwa [Dev.coreLoad_sram hsram] at hd
    · have hin : inCellar a = false := inCellar_below (by omega)
      have hb := ((Dev.cycled_becomes (d := s.dev) (c := c) (cycles := cycles)).modCore fun x =>
        { x.setX rd (s.dev.coreLoad c a) with pc := x.pc + insnLen z }).of_cores (e' := ((s.dev.cycled c cycles).modCore c fun x =>
        { x.setX rd (s.dev.coreLoad c a) with pc := x.pc + insnLen z }).modSram fun m => { m with cnt := bumpAt m.cnt 0 }) rfl
      refine completes_retired hrun hpost hen (Dev.retired_loads_corrected hf hok hin hs ((Dev.sramFinding_reads hf hok hsram (.inl hs)).trans (by rw [hecc]; rfl)))
        ((hb.eq (hset rd _ _)).masked rfl rfl) (Dev.modSram_keep (Dev.modCore_keep (Dev.cycled_keep (by decide)) (by decide) _ _) (by decide) _ fun _ h => h)
        ⟨hb.eq ?_, rfl⟩
      rw [Dev.coreLoad_sram hsram]
      exact hset rd _ _
    · have hin : inCellar a = false := inCellar_below (by omega)
      refine completes_imp (completes_plain hrun hpost hen (Dev.retired_loads_clean hf hok hin hs (Dev.sramFinding_outside (by omega))) (hset rd _ _) rfl rfl) fun d hd => ⟨?_, trivial⟩
      rwa [Dev.coreLoad_port hport] at hd
    · refine completes_imp (completes_plain hrun hpost hen (Dev.retired_loads_clean hf hok hin hs (Dev.sramFinding_outside hsram)) (hset rd _ _) rfl rfl) fun d hd => ⟨?_, trivial⟩
      rwa [Dev.coreLoad_view htcm hsram hport hin] at hd
    · have hb := ((Dev.cycled_becomes (d := s.dev) (c := c) (cycles := cycles)).of_cores (e' := (s.dev.cycled c cycles).cellarRefuse) rfl).trap
        (if a.store then 7 else 5) handler
      exact completes_retired hrun hpost hen (Dev.retired_refused hf hok hin hp) hb.trapMasked
        (Dev.modCore_keep (Dev.cellarRefuse_keep (Dev.cycled_keep (by decide)) (by decide) (by decide)) (by decide) _ _) ⟨hb.eq (htrap _ handler), ⟨_, rfl, rfl, rfl⟩, rfl⟩
    · exact completes_imp (completes_plain hrun hpost hen (Dev.retired_loads hf hok hin hs hl hp hline hr) (hset rd _ _) rfl rfl) fun d hd => ⟨hd, trivial⟩
    · have hb := ((Dev.cycled_becomes (d := s.dev) (c := c) (cycles := cycles)).of_cores (e' := (s.dev.cycled c cycles).secMac) rfl).trap
        (if a.store then 7 else 5) handler
      exact completes_retired hrun hpost hen (Dev.retired_unverified hf hok hin hs hl hp hline hr hclear hstate hverify) hb.trapMasked
        (Dev.modCore_keep (Dev.secMac_keep (Dev.cycled_keep (by decide)) (by decide) (by decide)) (by decide) _ _) ⟨hb.eq (htrap _ handler), ⟨_, rfl, rfl, rfl⟩, rfl⟩
    · have hb := ((Dev.cycled_becomes (d := s.dev) (c := c) (cycles := cycles)).of_cores
        (e' := (s.dev.cycled c cycles).modCellar (·.mergeRaw (accessLine a) (storeMask a) (storeData a))) rfl).modCore fun x => { x with pc := x.pc + insnLen z }
      exact completes_retired hrun hpost hen (Dev.retired_stores hf hok hin hs hamo hp hr hclear) (hb.masked rfl rfl)
        (Dev.modCore_keep (Dev.modCellar_keep (Dev.cycled_keep (by decide)) (by decide) _ fun _ hm => Cellar.mergeRaw_wf hm _ _ _) (by decide) _ _)
        ⟨hb, (Cellar.mergeRaw_rest ..).1, fun y => read_stored _ hn hin y⟩
    · have hb := (Dev.coreStore_port (a := a) (Dev.cycled_becomes (d := s.dev) (c := c) (cycles := cycles)) htcm hsram).modCore fun x => { x with pc := x.pc + insnLen z }
      exact completes_retired hrun hpost hen (Dev.retired_stores_outside hf hok hin hs hamo) (hb.masked rfl rfl)
        (Dev.modCore_keep (Dev.coreStore_port_keep (Dev.cycled_keep (by decide)) (by decide) htcm hsram) (by decide) _ _) hb
    · have hin : inCellar a = false := inCellar_below (by omega)
      have hb := ((Dev.cycled_becomes (d := s.dev) (c := c) (cycles := cycles)).modCore fun x =>
        { x with tcm := Memory.writeN x.tcm a.addr.toNat (leBytes (2 ^ a.log2.toNat) a.value.toNat) }).modCore fun x =>
          { x.taking a rd (s.dev.coreLoad c a) with pc := x.pc + insnLen z }
      have hd := Dev.retired_writes (cycles := cycles) (rd := rd) (z := z) hf hok hin hs (Dev.sramFinding_outside (by omega))
      rw [Dev.coreStore_tcm htcm] at hd
      refine completes_retired hrun hpost hen hd (hb.masked (by rw [Core.taking_eq]) (by rw [Core.taking_eq]))
        (Dev.modCore_keep (Dev.modCore_keep (Dev.cycled_keep (by decide)) (by decide) _ _) (by decide) _ _) (hb.eq ?_)
      rw [Core.taking_eq, Dev.coreLoad_tcm htcm]
      rfl
    · have hin : inCellar a = false := inCellar_below (by omega)
      have hb := ((Dev.cycled_becomes (d := s.dev) (c := c) (cycles := cycles)).of_cores
        (e' := (s.dev.cycled c cycles).modSram (·.put (a.addr.toNat - 0x10000000) (leBytes (2 ^ a.log2.toNat) a.value.toNat))) rfl).modCore fun x =>
          { x.taking a rd (s.dev.coreLoad c a) with pc := x.pc + insnLen z }
      have hfound : s.dev.sramFinding c (.access a rd z) = 0 := by
        by_cases h : a.amo = 0
        · exact Dev.sramFinding_stores hs h
        · rw [Dev.sramFinding_reads hf hok hsram (.inr h), hamo.resolve_left h]
          rfl
      have hd := Dev.retired_writes (cycles := cycles) hf hok hin hs hfound
      rw [Dev.coreStore_sram hsram] at hd
      refine completes_retired hrun hpost hen hd (hb.masked (by rw [Core.taking_eq]) (by rw [Core.taking_eq]))
        (Dev.modCore_keep (Dev.putSram_keep (Dev.cycled_keep (by decide)) (by decide) _ _) (by decide) _ _) ⟨hb.eq ?_, Dev.strong_modSram _ _ _ _⟩
      rw [Core.taking_eq, Dev.coreLoad_sram hsram]
      rfl
    · have hin : inCellar a = false := inCellar_below (by omega)
      have hb := (((Dev.cycled_becomes (d := s.dev) (c := c) (cycles := cycles)).trap (if a.store then 7 else 5) handler)).of_cores
        (e' := ((s.dev.cycled c cycles).modCore c (·.enterTrap (if a.store then 7 else 5) handler)).countSramEcc 2) rfl
      refine completes_retired hrun hpost hen (Dev.retired_uncorrectable hf hin ((Dev.sramFinding_reads hf hok hsram hreads).trans (by rw [hecc]; rfl)))
        hb.trapMasked ?_ ⟨hb.eq (htrap _ handler), ⟨_, rfl, rfl, rfl⟩, rfl⟩
      exact Dev.countSramEcc_keep (Dev.modCore_keep (Dev.cycled_keep (by decide)) (by decide) _ _) (by decide) (by decide) _
    · exact completes_trap hrun hpost hen (Dev.retired_forbidden hf hok) (htrap _ handler)
    · refine completes_given hrun hpost hen (Dev.retired_csr hf n v rd old) fun d hgiven => ?_
      obtain ⟨hx, hpc, hmode, hcycle, hcsr⟩ := Core.writeCsr_shown (s.dev.core c) cycles n v rd old
      have hrest := hgiven.rest
      exact ⟨(congrArg Core.x hrest :).trans hx, (congrArg Core.pc hrest :).trans hpc, (congrArg Core.machineMode hrest :).trans hmode,
        fun hn => ⟨(congrArg Core.mcycle hrest :).trans (hcycle hn).1, hgiven.signals (hcycle hn).2⟩,
        fun hn => ⟨(congrArg Core.mcycle hrest :).trans (hcsr hn).1, hgiven.signals (hcsr hn).2⟩⟩
    · refine completes_given hrun hpost hen (Dev.retired_mret hf target) fun d hgiven => ?_
      have hrest := hgiven.rest
      exact ⟨(congrArg Core.pc hrest :), (congrArg Core.machineMode hrest :), (congrArg Core.x hrest :), hgiven.signals rfl, (congrArg Core.mcycle hrest :)⟩
    · have hb := ((Dev.cycled_becomes (d := s.dev) (c := c) (cycles := cycles)).of_core (e' := (s.dev.cycled c cycles).setStream c.toNat
        { s.dev.stream c.toNat with branches := (s.dev.stream c.toNat).branches ++ [taken] }) fun _ => rfl).modCore
          fun x => { x with pc := if taken then target else x.pc + insnLen z }
      exact completes_of_run (f := Dev.coreInstruction c (.branch taken target z) cycles) rfl
        (Dev.coreInstruction_branchTraced hrun hpost hf hen hon hmode hact hlen taken target z)
        (Dev.modCore_keep (Dev.setStream_keep (Dev.cycled_keep (by decide)) (by decide) _ _) (by decide) _ _) ⟨hb, Dev.stream_setStream_same (s.dev.cycled c cycles) _ _⟩
  · refine ⟨coreWfi_completes, coreWake_completes, fun hc hen hable => ?_, fun hc hable hpassive => ?_, fun hc hable hpassive => ?_⟩
    · rw [if_neg (c := c.toNat < 4) (by omega)]
      exact completes_imp (watchdog_restarts hc hen hable) fun d ⟨hnow, hevent, hgiven⟩ => ⟨hnow, hevent, Core.restarted_shown hgiven⟩
    · rw [if_pos (c := c.toNat < 4) hc]
      exact watchdog_standby hc hable hpassive
    · rw [if_pos (c := c.toNat < 4) hc]
      exact watchdog_fails hc hable (not_not.1 hpassive)

end Sys2Proof.Machine
end

section
/-! O40: rooms are written, cleared and seeded -/

namespace Sys2Proof.Machine
open Sys2Proof

-- an entry, while other descriptors end (R349 to R356)

section
variable {d e : Dev} {x y : DescRef} {t : RetEntry} {k : BitVec 9}

/-- A descriptor's entry is `t` but for whether its completion has been posted, the windows are in form, and the descriptor awaits no APPLIED. -/
structure Dev.Retains (d : Dev) (x : DescRef) (t : RetEntry) : Prop where
  windows : d.rings.windowsOk
  free : ∀ a ∈ d.link.await, a.desc ≠ x
  entry : (d.entry? x).map RetEntry.unposted = some t.unposted

theorem openDesc_retains {r : RetEntry} (h : OpenDesc d x r) : d.Retains x r := ⟨h.windows, h.free, congrArg (Option.map RetEntry.unposted) h.entry⟩

theorem Dev.Retains.found (h : d.Retains x t) : ∃ r, d.entry? x = some r ∧ r.unposted = t.unposted := Option.map_eq_some_iff.1 h.entry

/-- Windows that keep their entries but for what has been posted. -/
def Dev.SameWindows (d e : Dev) : Prop := ∀ k, (e.ring k).window.map RetEntry.unposted = (d.ring k).window.map RetEntry.unposted

theorem Dev.SameWindows.of_pairs (h : e.rings.pairs = d.rings.pairs) : d.SameWindows e := fun k => by
  unfold Dev.ring
  rw [h]

theorem Dev.SameWindows.trans {c : Dev} (h : c.SameWindows d) (he : d.SameWindows e) : c.SameWindows e := fun k => (he k).trans (h k)

theorem Dev.SameWindows.setRing {r : Ring} (h : r.window.map RetEntry.unposted = (d.ring k).window.map RetEntry.unposted) : d.SameWindows (d.setRing k r) := by
  intro j
  by_cases hj : j = k
  · rw [hj, Dev.ring_setRing_same, h]
  · rw [Dev.ring_setRing_other _ _ hj]

theorem Dev.SameWindows.entry (h : d.SameWindows e) (x : DescRef) : (e.entry? x).map RetEntry.unposted = (d.entry? x).map RetEntry.unposted := by
  have hmap (w : List RetEntry) : (w.find? fun r => r.slot == x.slot.toNat).map RetEntry.unposted = (w.map RetEntry.unposted).find? fun r => r.slot == x.slot.toNat :=
    (List.find?_map (f := RetEntry.unposted) (p := fun r : RetEntry => r.slot == x.slot.toNat) (l := w)).symm
  unfold Dev.entry?
  rw [hmap, hmap, h]

theorem Dev.Retains.of_same (h : d.Retains x t) (hs : d.SameWindows e) (hw : e.rings.windowsOk) (ha : e.link.await = d.link.await) : e.Retains x t :=
  ⟨hw, ha ▸ h.free, (hs.entry x).trans h.entry⟩

theorem Dev.Retains.sent (h : d.Retains x t) (hs : Sent d e) : e.Retains x t :=
  h.of_same (.of_pairs (congrArg Rings.pairs hs.2)) (hs.2 ▸ h.windows) hs.1

theorem Dev.coalesce_sameWindows (d : Dev) (k : BitVec 9) : d.SameWindows (d.coalesce k) := by
  unfold Dev.coalesce
  dsimp only
  split
  · exact .trans (.setRing (r := { d.ring k with irqPending := 0 }) rfl) (.of_pairs (congrArg Rings.pairs (Dev.msix_rings ..)))
  · exact fun _ => rfl

theorem Dev.postOne_sameWindows (d : Dev) (k : BitVec 9) (r : RetEntry) : d.SameWindows (d.postOne k r) := by
  have hposted (w : List RetEntry) : (w.map fun y => if y.slot = r.slot then { y with posted := true } else y).map RetEntry.unposted = w.map RetEntry.unposted := by
    rw [List.map_map]
    exact List.map_congr_left fun y _ => by dsimp only [Function.comp]; split <;> rfl
  unfold Dev.postOne
  dsimp only
  split
  · refine .trans (.of_pairs (congrArg Rings.pairs (Dev.sendApplied_sent ..).2)) (.setRing ?_)
    exact hposted _
  · generalize hw : d.writeHost _ _ = c
    have hc : d.SameWindows c := .of_pairs (hw ▸ Dev.writeHost_pairs ..)
    exact hc.trans (.trans (.setRing (hposted _)) (Dev.coalesce_sameWindows (c.modRing k _) k))

theorem Dev.Retains.postRing (h : d.Retains x t) (k : BitVec 9) : (d.postRing k).Retains x t :=
  Dev.each_induct (P := (Dev.Retains · x t)) h fun d r h =>
    h.of_same (Dev.postOne_sameWindows d k r) (Dev.postOne_done d k r h.windows).2 (Dev.postOne_await d k r)

theorem Dev.marked_entry_other {n : Nat} {f : RetEntry → RetEntry} (hf : ∀ y, (f y).slot = y.slot) (hother : x.ring ≠ k ∨ x.slot.toNat ≠ n) :
    (d.marked k n f).entry? x = d.entry? x := by
  unfold Dev.entry? Dev.marked Dev.modRing
  by_cases hring : x.ring = k
  · have hn := hother.resolve_left (· hring)
    rw [hring, Dev.ring_setRing_same, Ring.reapply_window, List.find?_map]
    have hcomp : ((fun e : RetEntry => e.slot == x.slot.toNat) ∘ fun y => if y.slot = n then f y else y) = fun e => e.slot == x.slot.toNat := by
      funext y
      dsimp only [Function.comp]
      split
      · rw [hf]
      · rfl
    rw [hcomp]
    cases hfound : (d.ring k).window.find? (fun e => e.slot == x.slot.toNat) with
    | none => rfl
    | some r =>
      have hslot : r.slot = x.slot.toNat := by simpa using List.find?_some hfound
      rw [Option.map_some, if_neg (hslot ▸ hn)]
  · rw [Dev.ring_setRing_other _ _ hring]

theorem Dev.marked_windowsOk {n : Nat} {f : RetEntry → RetEntry} (hw : d.rings.windowsOk) (hf : ∀ y, (f y).slot = y.slot) : (d.marked k n f).rings.windowsOk :=
  Rings.windowsOk_set hw k _ (RingKept.mapped _ (fun y => by split <;> [exact hf y; rfl]) (Ring.reapply_window _))

/-- The entries of another slot changed. -/
theorem Dev.Retains.marked (h : d.Retains x t) {n : Nat} {f : RetEntry → RetEntry} (hf : ∀ y, (f y).slot = y.slot) (hother : x.ring ≠ k ∨ x.slot.toNat ≠ n) :
    (d.marked k n f).Retains x t :=
  ⟨Dev.marked_windowsOk h.windows hf, h.free, by rw [Dev.marked_entry_other hf hother, h.entry]⟩

theorem DescRef.apart (h : y ≠ x) : x.ring ≠ y.ring ∨ x.slot ≠ y.slot := by
  by_contra hsame
  obtain ⟨hring, hslot⟩ := not_or.1 hsame |>.imp not_not.1 not_not.1
  cases x
  cases y
  exact h (by rw [DescRef.mk.injEq]; exact ⟨hring.symm, hslot.symm⟩)

theorem DescRef.apart_nat (h : y ≠ x) : x.ring ≠ y.ring ∨ x.slot.toNat ≠ y.slot.toNat := (DescRef.apart h).imp_right fun hs hn => hs (BitVec.eq_of_toNat_eq hn)

theorem Dev.Retains.unconfirmed (h : d.Retains x t) (hne : y ≠ x) : (d.unconfirmed y).Retains x t := by
  have hslot (e : RetEntry) : (if e.record.status = 0 ∨ e.record.status = 3 then { e with record := { e.record with status := 0x60 } } else e).slot = e.slot := by
    split <;> rfl
  refine ⟨Dev.modEntry_windowsOk h.windows hslot, h.free, ?_⟩
  rw [show (d.unconfirmed y).entry? x = d.entry? x from Dev.modEntry_entry_other _ hslot (DescRef.apart hne), h.entry]

theorem Dev.Retains.resolveAwait (h : d.Retains x t) : d.resolveAwait.Retains x t := by
  unfold Dev.resolveAwait
  have hl : ∀ a ∈ d.link.await.filter (fun a => a.own.isSome && (a.lost || a.applied.isSome)), a.desc ≠ x := fun a hm => h.free a (List.mem_filter.1 hm).1
  generalize d.link.await.filter (fun a => a.own.isSome && (a.lost || a.applied.isSome)) = l at hl
  unfold Dev.each
  induction l generalizing d with
  | nil => exact h
  | cons a l ih =>
    have herased : (d.putLink { d.link with await := d.link.await.erase a }).Retains x t := ⟨h.windows, fun b hb => h.free b (List.mem_of_mem_erase hb), h.entry⟩
    have hu := herased.unconfirmed (hl a List.mem_cons_self)
    rw [List.foldl_cons]
    refine ih ?_ fun b hb => hl b (List.mem_cons_of_mem _ hb)
    dsimp only
    split
    · exact hu
    · split
      · exact herased
      · exact hu.sent ((Dev.sendMessage_sent ..).trans (Dev.divergence_sent _))

theorem Dev.Retains.ownStatus (h : d.Retains x t) (y : DescRef) (st : Nat) : (d.ownStatus y st).Retains x t := by
  refine Dev.Retains.resolveAwait ⟨h.windows, fun a ha => ?_, h.entry⟩
  obtain ⟨b, hb, rfl⟩ := List.mem_map.1 ha
  split
  · exact h.free b hb
  · exact h.free b hb

/-- A FENCE that is ready is not a descriptor that has committed or completed. -/
theorem Dev.Retains.fence {r : RetEntry} {f : RetEntry → RetEntry} (h : d.Retains x t) (hp : t.phase ≠ .accepted) (hready : d.fenceReady = some (k, r))
    (hf : ∀ y, (f y).slot = y.slot) : (d.marked k r.slot f).Retains x t := by
  refine h.marked hf ?_
  obtain ⟨hmem, haccepted⟩ := Dev.fenceReady_accepted h.windows hready
  obtain ⟨u, hu, hut⟩ := h.found
  by_contra hsame
  obtain ⟨rfl, hslot⟩ := not_or.1 hsame |>.imp not_not.1 not_not.1
  have hus : u.slot = x.slot.toNat := by simpa using List.find?_some hu
  have : u = r := find_slot_unique (Rings.windowsOk_get h.windows _).1 (List.mem_of_find?_eq_some hu) hmem (hus.trans hslot)
  exact hp ((congrArg RetEntry.phase hut :).symm.trans (this ▸ haccepted))

theorem Dev.Retains.closed (h : d.Retains x t) (hp : t.phase ≠ .accepted) (y : DescRef) (st : Nat) : (d.closed y st).Retains x t :=
  Dev.settle_induct (P := (Dev.Retains · x t)) _ (fun _ _ _ _ hready hf h => h.fence hp hready hf) (fun _ _ _ h => h.ownStatus _ _)
    (fun _ _ h => h.postRing _) ((h.ownStatus _ _).postRing _)

theorem Dev.reported_await (d : Dev) (st : Nat) : (d.reported st).link.await = d.link.await := by
  unfold Dev.reported
  split <;> rfl

theorem Dev.Retains.reported (h : d.Retains x t) (st : Nat) : (d.reported st).Retains x t :=
  h.of_same (.of_pairs (d.reported_pairs st)) (Rings.windowsOk_pairs (d.reported_pairs st) h.windows) (d.reported_await st)

/-- The record that an end leaves (R349). -/
def RetEntry.ended (e : RetEntry) (c : Completion) : RetEntry := { e with phase := .completed, record := c }

/-- An open descriptor's end, step by step, with the beat that it reports (R349 to R353). -/
theorem Dev.finish_ended {r : RetEntry} (hr : d.entry? x = some r) (hp : r.phase ≠ .completed) (st det i0 i1 : Nat) (b : Option Beat) :
    d.finish x st det i0 i1 b = ((d.marked x.ring x.slot.toNat fun y => y.ended
      { seq := r.seq, status := st, detail := det, opcode := descOpcode r.desc, info0 := i0, info1 := i1, beat := b.getD d.time.n }).reported st).closed x st := by
  unfold Dev.finish
  rw [hr]
  dsimp only
  rw [if_neg hp]
  rfl

theorem Dev.finish_absent (h : d.entry? x = none) (st det i0 i1 : Nat) (b : Option Beat) : d.finish x st det i0 i1 b = d := by
  unfold Dev.finish
  rw [h]

theorem Dev.finish_again {r : RetEntry} (hr : d.entry? x = some r) (hp : r.phase = .completed) (st det i0 i1 : Nat) (b : Option Beat) :
    d.finish x st det i0 i1 b = d := by
  unfold Dev.finish
  rw [hr]
  exact if_pos hp

/-- Another descriptor's end leaves the entry of one that has committed or completed. -/
theorem Dev.Retains.finish_other (h : d.Retains x t) (hp : t.phase ≠ .accepted) (hne : y ≠ x) (st det i0 i1 : Nat) (b : Option Beat) :
    (d.finish y st det i0 i1 b).Retains x t := by
  cases hr : d.entry? y with
  | none => rwa [Dev.finish_absent hr]
  | some r =>
    by_cases hdone : r.phase = .completed
    · rwa [Dev.finish_again hr hdone]
    · rw [Dev.finish_ended hr hdone]
      refine Dev.Retains.closed (Dev.Retains.reported (h.marked ?_ (DescRef.apart_nat hne)) st) hp y st
      exact fun _ => rfl

/-- A descriptor's own end: its entry holds its record. -/
theorem Dev.Retains.finish_same (h : d.Retains x t) (hp : t.phase ≠ .completed) (st det i0 i1 : Nat) (b : Option Beat) :
    (d.finish x st det i0 i1 b).Retains x
      (t.ended { seq := t.seq, status := st, detail := det, opcode := descOpcode t.desc, info0 := i0, info1 := i1, beat := b.getD d.time.n }) := by
  obtain ⟨r, hr, hrt⟩ := h.found
  have hdesc : r.desc = t.desc := (congrArg RetEntry.desc hrt :)
  have hseq : r.seq = t.seq := (congrArg RetEntry.seq hrt :)
  rw [Dev.finish_ended hr (fun hc => hp ((congrArg RetEntry.phase hrt :).symm.trans hc)), hdesc, hseq]
  generalize ({ seq := t.seq, status := st, detail := det, opcode := descOpcode t.desc, info0 := i0, info1 := i1, beat := b.getD d.time.n } : Completion) = c
  have hended : (t.ended c).phase ≠ .accepted := RetPhase.noConfusion
  refine Dev.Retains.closed (Dev.Retains.reported ?_ st) hended x st
  refine ⟨?_, h.free, ?_⟩
  · exact Rings.windowsOk_set h.windows _ _ (RingKept.mapped _ (fun y => by split <;> rfl) (Ring.reapply_window _))
  · rw [show (d.marked x.ring x.slot.toNat fun y => y.ended c).entry? x = some (r.ended c) from
      Dev.entry_setRing (f := fun y => y.ended c) h.windows hr (Ring.reapply_window _) fun _ => rfl]
    exact congrArg some (show (r.unposted).ended c = (t.unposted).ended c by rw [hrt])

theorem Dev.Retains.completed {c : Completion} (h : d.Retains x (t.ended c)) : CompletedWith d x c := by
  obtain ⟨r, hr, hrt⟩ := h.found
  exact ⟨r, hr, (congrArg RetEntry.phase hrt :), (congrArg RetEntry.record hrt :)⟩

/-- A completed descriptor's entry stays, whatever descriptor ends. -/
theorem Dev.Retains.finish_completed (h : d.Retains x t) (hp : t.phase = .completed) (y : DescRef) (st det i0 i1 : Nat) (b : Option Beat) :
    (d.finish y st det i0 i1 b).Retains x t := by
  by_cases hy : y = x
  · obtain ⟨r, hr, hrt⟩ := h.found
    rwa [hy, Dev.finish_again hr ((congrArg RetEntry.phase hrt :).trans hp)]
  · exact h.finish_other (hp ▸ nofun) hy ..

end

-- the descriptors of the windows

section
variable {d : Dev} {x : DescRef} {e : RetEntry}

/-- A reference to an entry of a window. -/
def entryRef (k : Nat) (e : RetEntry) : DescRef := { ring := BitVec.ofNat 9 k, slot := BitVec.ofNat 12 e.slot }

/-- An entry of a pair is the one that its reference finds. -/
theorem openDesc_unique {k : Nat} {r : Ring} {y : RetEntry} (h : OpenDesc d x e) (hk : (k, r) ∈ d.rings.pairs) (hy : y ∈ r.window)
    (href : entryRef k y = x) : y = e := by
  obtain ⟨hlt, hok⟩ := h.windows.2 _ hk
  have hring : d.ring x.ring = r := by
    rw [← href]
    unfold Dev.ring entryRef
    rw [BitVec.toNat_ofNat, Nat.mod_eq_of_lt hlt]
    exact Tbl.get_of_mem _ (Tbl.wf_rising h.windows.1) hk
  have hslot : x.slot.toNat = y.slot := by
    rw [← href]
    exact Nat.mod_eq_of_lt (hok.2 y hy)
  have he : e.slot = x.slot.toNat := by simpa using List.find?_some h.entry
  have hmem : e ∈ r.window := hring ▸ List.mem_of_find?_eq_some h.entry
  exact find_slot_unique hok.1 hy hmem (hslot.symm.trans he.symm)

/-- The entry of a descriptor stands in its pair's window. -/
theorem openDesc_listed (h : OpenDesc d x e) : (x.ring.toNat, d.ring x.ring) ∈ d.rings.pairs ∧ e ∈ (d.ring x.ring).window ∧ entryRef x.ring.toNat e = x := by
  have hmem : e ∈ (d.ring x.ring).window := List.mem_of_find?_eq_some h.entry
  have he : e.slot = x.slot.toNat := by simpa using List.find?_some h.entry
  refine ⟨?_, hmem, ?_⟩
  · refine (Tbl.get_default_or_mem ({} : Ring) d.rings.pairs x.ring.toNat).resolve_left fun hnone => ?_
    rw [Dev.ring, hnone] at hmem
    cases hmem
  · unfold entryRef
    rw [he, BitVec.ofNat_toNat, BitVec.ofNat_toNat, BitVec.setWidth_eq, BitVec.setWidth_eq]

/-- The entries of the windows that a test picks, with their references. -/
def Dev.picked (d : Dev) (p : RetEntry → Bool) : List (DescRef × RetEntry) :=
  d.rings.pairs.flatMap fun (k, r) => (r.window.filter p).map fun e => (entryRef k e, e)

theorem openDesc_mem_picked {p : RetEntry → Bool} (h : OpenDesc d x e) (hp : p e = true) : (x, e) ∈ d.picked p := by
  obtain ⟨hpair, hmem, href⟩ := openDesc_listed h
  exact List.mem_flatMap.2 ⟨_, hpair, List.mem_map.2 ⟨e, List.mem_filter.2 ⟨hmem, hp⟩, by rw [href]⟩⟩

theorem openDesc_eq_of_mem_picked {p : RetEntry → Bool} (h : OpenDesc d x e) {z : DescRef × RetEntry} (hz : z ∈ d.picked p) (hx : z.1 = x) : z.2 = e := by
  obtain ⟨⟨k, r⟩, hpair, hin⟩ := List.mem_flatMap.1 hz
  obtain ⟨y, hy, rfl⟩ := List.mem_map.1 hin
  exact openDesc_unique h hpair (List.mem_filter.1 hy).1 hx

end

-- ROOM_WRITTEN (R323, R332, R357)

section
variable {d : Dev} {x : DescRef} {e : RetEntry} {r : RoomId} {f : Func} {places : List Place} {p : Place} {gen : BitVec 8}

theorem Dev.setReady_entry {y : DescRef} (hw : d.rings.windowsOk) (he : d.entry? x = some e) :
    (d.setReady y).entry? x = some (if y = x then { e with ready := some d.now } else e) := by
  split
  · next hy => exact hy ▸ Dev.modEntry_entry hw (hy ▸ he) fun _ => rfl
  · next hy =>
    have hother := Dev.modEntry_entry_other (d := d) (fun e => { e with ready := some d.now }) (fun _ => rfl) (DescRef.apart hy)
    exact hother.trans he

theorem Dev.each_setReady_entry {l : List (DescRef × RetEntry)} (hw : d.rings.windowsOk) (he : d.entry? x = some e) :
    (d.each l fun d z => d.setReady z.1).entry? x = some (if x ∈ l.map Prod.fst then { e with ready := some d.now } else e) := by
  induction l generalizing d e with
  | nil => exact he
  | cons z l ih =>
    have hw' : (d.setReady z.1).rings.windowsOk := Dev.modEntry_windowsOk hw fun _ => rfl
    refine (ih hw' (Dev.setReady_entry hw he)).trans (congrArg some ?_)
    show (if x ∈ l.map Prod.fst then _ else _) = if x ∈ z.1 :: l.map Prod.fst then _ else _
    have hnow : (d.setReady z.1).now = d.now := rfl
    rw [hnow]
    by_cases hz : z.1 = x <;> by_cases hl : x ∈ l.map Prod.fst <;> simp [hz, hl, eq_comm (a := x)]

/-- A function that has one more room written (R323, R332). -/
def Func.roomDone (r : RoomId) (f : Func) : Func :=
  if f.phase = .reserved then { f with written := r :: f.written } else { f with migration := f.migration.map fun m => { m with written := r :: m.written } }

theorem Func.roomDone_id (r : RoomId) (f : Func) : (f.roomDone r).id = f.id := by
  unfold Func.roomDone
  split <;> rfl

/-- A room with the image of its placement: a room of a running function is under threshold hold (R332). -/
def Func.imageRoom (f : Func) (places : List Place) (p : Place) (gen : BitVec 8) (rm : Room) : Room :=
  { writtenRoom rm f.obj places p gen with thresh := f.phase != .reserved }

/-- A room with the image of its placement, marked as written. -/
def Dev.imaged (d : Dev) (r : RoomId) (f : Func) (places : List Place) (p : Place) (gen : BitVec 8) : Dev :=
  (d.modRoom r (f.imageRoom places p gen)).modFunc f.id (Func.roomDone r)

theorem Dev.roomWritten_eq (h : d.writingOf r = some (f, places, p, gen)) :
    d.roomWritten r = if f.phase = .reserved ∧ f.written.length + 1 = f.places.length then
      (d.imaged r f places p gen).each ((d.imaged r f places p gen).openOps.filter fun z =>
        descOpcode z.2.desc == 0x10 && z.2.started && (d.imaged r f places p gen).admitId z.2.desc == f.id.toNat) fun d z => d.setReady z.1
      else d.imaged r f places p gen := by
  have hmark : (fun x : Func => if x.phase = .reserved then { x with written := r :: x.written } else
      { x with migration := x.migration.map fun m => { m with written := r :: m.written } }) = Func.roomDone r := rfl
  have hphase : (fun x : Func => (match x.phase with
      | .reserved => { x with written := r :: x.written }
      | _ => { x with migration := x.migration.map fun m => { m with written := r :: m.written } } : Func)) = Func.roomDone r := by
    funext x
    unfold Func.roomDone
    cases x.phase <;> rfl
  unfold Dev.roomWritten Dev.imaged
  rw [h, ← hphase]
  rfl

theorem Dev.imaged_shown (h : d.func? f.id = some f) : OtherRooms r d (d.imaged r f places p gen) ∧
    (d.imaged r f places p gen).room r = { writtenRoom (d.room r) f.obj places p gen with thresh := f.phase != .reserved } ∧
    (d.imaged r f places p gen).func? f.id = some (f.roomDone r) :=
  ⟨Dev.modRoom_otherRooms d r (f.imageRoom places p gen), Dev.room_modRoom_same d r (f.imageRoom places p gen),
    Dev.func?_modFunc_same (Func.roomDone_id r) (d := d.modRoom r (f.imageRoom places p gen)) h⟩

theorem Dev.imaged_keep {ps : List Part} (d : Dev) (hrooms : .rooms ∈ ps) (hfuncs : .funcs ∈ ps) : Keep ps d (d.imaged r f places p gen) :=
  Dev.modFunc_keep (Dev.modRoom_keep (.refl _ _) hrooms _ _) hfuncs _ _

theorem Dev.each_setReady_keep {ps : List Part} {c : Dev} (h : Keep ps c d) (hrings : .rings ∈ ps) (l : List (DescRef × RetEntry)) :
    Keep ps c (d.each l fun d z => d.setReady z.1) := Dev.each_keep h fun _ _ h => Dev.setReady_keep h hrings _

theorem completes_roomWritten {s : State} (hw : s.dev.writingOf r = some (f, places, p, gen)) (hf : s.dev.func? f.id = some f) :
    Completes (.roomWritten r) s [.rooms, .funcs, .rings] fun d =>
      OtherRooms r s.dev d ∧
      d.room r = { writtenRoom (s.dev.room r) f.obj places p gen with thresh := f.phase != .reserved } ∧
      (f.phase = .reserved → d.func? f.id = some { f with written := r :: f.written }) ∧
      (f.phase ≠ .reserved → d.func? f.id = some { f with migration := f.migration.map fun m => { m with written := r :: m.written } }) ∧
      (f.phase = .reserved → f.written.length + 1 < f.places.length → d.rings = s.dev.rings) ∧
      (f.phase = .reserved → f.written.length + 1 = f.places.length → ∀ (x : DescRef) (e : RetEntry), OpenDesc s.dev x e →
        e.accept = true → e.phase = .accepted → e.started = true → descOpcode e.desc = 0x10 → s.dev.admitId e.desc = f.id.toNat →
        d.entry? x = some { e with ready := some s.dev.now }) := by
  have heq := Dev.roomWritten_eq hw
  have hopen : (s.dev.imaged r f places p gen).openOps = s.dev.picked fun e => e.accept && e.phase == .accepted := rfl
  have hadmit (w : BitVec 512) : (s.dev.imaged r f places p gen).admitId w = s.dev.admitId w := rfl
  have hnow : (s.dev.imaged r f places p gen).now = s.dev.now := rfl
  have hentry (x : DescRef) : (s.dev.imaged r f places p gen).entry? x = s.dev.entry? x := rfl
  have hrings : (s.dev.imaged r f places p gen).rings = s.dev.rings := rfl
  obtain ⟨hother, hroom, hfunc⟩ := Dev.imaged_shown (r := r) (places := places) (p := p) (gen := gen) hf
  have hkeep : Keep [.rooms, .funcs, .rings] s.dev (s.dev.imaged r f places p gen) := Dev.imaged_keep _ (by decide) (by decide)
  generalize s.dev.imaged r f places p gen = i at *
  have hreserved : f.phase = .reserved → i.func? f.id = some { f with written := r :: f.written } := fun hp => hfunc.trans (congrArg some (if_pos hp))
  have hmigrates : f.phase ≠ .reserved → i.func? f.id = some { f with migration := f.migration.map fun m => { m with written := r :: m.written } } :=
    fun hp => hfunc.trans (congrArg some (if_neg hp))
  by_cases hlast : f.phase = .reserved ∧ f.written.length + 1 = f.places.length
  · have hstay : ∀ l : List (DescRef × RetEntry), Keep [.rings] i (i.each l fun d z => d.setReady z.1) := fun l => Dev.each_setReady_keep (.refl _ _) (by decide) l
    refine completes_of_run rfl (heq.trans (if_pos hlast)) (Dev.each_setReady_keep hkeep (by decide) _)
      ⟨fun q hq => ((hstay _).room_eq (by decide) q).trans (hother q hq), ((hstay _).room_eq (by decide) r).trans hroom, fun hp => ?_,
        fun hp => absurd hlast.1 hp, fun _ hlt => absurd hlast.2 (Nat.ne_of_lt hlt), fun _ _ x e ho ha hp hs hop hid => ?_⟩
    · rw [Dev.func?, (hstay _).funcs.resolve_left (by decide)]
      exact hreserved hp
    · have hmem : (x, e) ∈ i.openOps.filter fun z => descOpcode z.2.desc == 0x10 && z.2.started && i.admitId z.2.desc == f.id.toNat := by
        rw [List.mem_filter, hopen]
        exact ⟨openDesc_mem_picked ho (by simp [ha, hp]), by simp [hop, hs, hadmit, hid]⟩
      rw [Dev.each_setReady_entry (hrings ▸ ho.windows) ((hentry x).trans ho.entry), if_pos (List.mem_map.2 ⟨_, hmem, rfl⟩), hnow]
  · exact completes_of_run rfl (heq.trans (if_neg hlast)) hkeep
      ⟨hother, hroom, hreserved, hmigrates, fun _ _ => hrings, fun hp hl => absurd ⟨hp, hl⟩ hlast⟩

end

-- RETIRE_CLEAR_DONE (R325)

section
variable {d : Dev} {x : DescRef} {e : RetEntry} {id : FuncId} {f : Func}

theorem clearedRoom_again (off : Bool) (old : Room) : clearedRoom off (clearedRoom off old) = clearedRoom off old := rfl

theorem Dev.clearRooms_room (d : Dev) (rs : List RoomId) (r : RoomId) :
    (d.clearRooms rs).room r = if r ∈ rs then clearedRoom d.power.roomOff (d.room r) else d.room r := by
  induction rs generalizing d with
  | nil => rfl
  | cons q rs ih =>
    refine (ih ((d.modRoom q (clearedRoom d.power.roomOff)).putFuse _)).trans ?_
    show (if r ∈ rs then clearedRoom d.power.roomOff ((d.modRoom q _).room r) else (d.modRoom q _).room r) = _
    by_cases hq : r = q
    · rw [hq, Dev.room_modRoom_same, if_pos List.mem_cons_self, clearedRoom_again, ite_self]
    · rw [Dev.modRoom_otherRooms d q _ r hq]
      simp only [List.mem_cons, hq, false_or]

/-- The descriptors of a retirement's end, each with the status and the beat that its boundary gave it. -/
def Dev.endAll (d : Dev) (l : List (DescRef × RetEntry)) : Dev := d.each l fun d z => d.finish z.1 z.2.record.status 0 0 0 (some z.2.beat)

theorem Dev.endAll_keep {ps : List Part} {c : Dev} (h : Keep ps c d) (hout : .out ∈ ps) (hevents : .events ∈ ps) (hlink : .link ∈ ps) (hrings : .rings ∈ ps)
    (hsched : .sched ∈ ps) (l : List (DescRef × RetEntry)) : Keep ps c (d.endAll l) :=
  Dev.each_keep h fun _ _ h => Dev.finish_keep h hout hevents hlink hrings hsched _ _ _ _ _ _

theorem Dev.Retains.endAll (h : d.Retains x e) (hp : e.phase = .committed) {l : List (DescRef × RetEntry)} (hone : ∀ z ∈ l, z.1 = x → z.2 = e)
    (hx : (x, e) ∈ l) :
    CompletedWith (d.endAll l) x { seq := e.seq, status := e.record.status, opcode := descOpcode e.desc, beat := e.beat } := by
  induction l generalizing d with
  | nil => cases hx
  | cons z l ih =>
    by_cases hz : z.1 = x
    · have hze := hone z List.mem_cons_self hz
      have hsame := h.finish_same (hp ▸ nofun) e.record.status 0 0 0 (some e.beat)
      show CompletedWith ((d.finish z.1 z.2.record.status 0 0 0 (some z.2.beat)).endAll l) x _
      rw [hz, hze]
      exact Dev.Retains.completed (t := e) (Dev.each_induct (P := (Dev.Retains · x _)) hsame fun d y hd => hd.finish_completed rfl y.1 ..)
    · have htail : (x, e) ∈ l := (List.mem_cons.1 hx).resolve_left fun heq => hz (heq ▸ rfl)
      exact ih (h.finish_other (hp ▸ nofun) hz ..) (fun y hy => hone y (List.mem_cons_of_mem _ hy)) htail

/-- The function under retirement that an ID names, with rooms to be cleared. -/
theorem Dev.retiring_found (h : d.func? id = some f) (hp : f.phase = .retiring) (hplaces : f.places ≠ []) :
    d.funcs.find? (fun f => f.id == id && f.phase == .retiring && !f.places.isEmpty) = some f := by
  obtain ⟨hid, before, after, heq, hbefore⟩ := List.find?_eq_some_iff_append.1 h
  refine List.find?_eq_some_iff_append.2 ⟨?_, before, after, heq, fun y hy => ?_⟩
  · simp [by simpa using hid, hp, hplaces]
  · have := hbefore y hy
    simp_all

/-- A retirement whose rooms are clear. -/
def Dev.vacated (d : Dev) (id : FuncId) (rs : List RoomId) : Dev := (d.clearRooms rs).modFunc id fun f => { f with places := [] }

/-- The retirements of a function that have committed. -/
def retires (id : FuncId) (e : RetEntry) : Bool := e.accept && e.phase == .committed && descOpcode e.desc == 0x11 && dfld e.desc 0x18 2 == id.toNat

theorem Dev.retireClearDone_eq (h : d.func? id = some f) (hp : f.phase = .retiring) (hplaces : f.places ≠ []) :
    d.retireClearDone id = (d.vacated id f.rooms).endAll ((d.vacated id f.rooms).picked (retires id)) := by
  unfold Dev.retireClearDone
  rw [Dev.retiring_found h hp hplaces]
  rfl

theorem completes_retireClearDone {s : State} (hf : s.dev.func? id = some f) (hp : f.phase = .retiring) (hplaces : f.places ≠ []) :
    Completes (.retireClearDone id) s [.out, .events, .rooms, .funcs, .link, .rings, .sched, .fuse] fun d =>
      d.func? id = some { f with places := [] } ∧
      (∀ r, d.room r = if r ∈ f.rooms then clearedRoom s.dev.power.roomOff (s.dev.room r) else s.dev.room r) ∧
      ∀ (x : DescRef) (e : RetEntry), OpenDesc s.dev x e → e.accept = true → e.phase = .committed → descOpcode e.desc = 0x11 →
        dfld e.desc 0x18 2 = id.toNat →
        CompletedWith d x { seq := e.seq, status := e.record.status, opcode := 0x11, beat := e.beat } := by
  have heq := Dev.retireClearDone_eq hf hp hplaces
  have hcleared : Keep [.rooms, .fuse] s.dev (s.dev.clearRooms f.rooms) := Dev.clearRooms_keep (.refl _ _) (by decide) (by decide) _
  have hvacated : Keep [.rooms, .funcs, .fuse] s.dev (s.dev.vacated id f.rooms) :=
    Dev.modFunc_keep (Dev.clearRooms_keep (.refl _ _) (by decide) (by decide) _) (by decide) _ _
  have hrings := hvacated.rings.resolve_left (by decide)
  have hlink := hvacated.link.resolve_left (by decide)
  have hfunc : (s.dev.vacated id f.rooms).func? id = some { f with places := [] } := by
    refine Dev.func?_modFunc_same (g := fun f => { f with places := [] }) (fun _ => rfl) ?_
    rw [Dev.func?, hcleared.funcs.resolve_left (by decide)]
    exact hf
  have hroom (r : RoomId) := Dev.clearRooms_room s.dev f.rooms r
  replace hroom (r : RoomId) : (s.dev.vacated id f.rooms).room r = _ := hroom r
  generalize s.dev.vacated id f.rooms = v at *
  have hended (l : List (DescRef × RetEntry)) : Keep [.out, .events, .link, .rings, .sched] v (v.endAll l) :=
    Dev.endAll_keep (.refl _ _) (by decide) (by decide) (by decide) (by decide) (by decide) l
  refine completes_framed rfl heq ⟨?_, fun r => ((hended _).room_eq (by decide) r).trans (hroom r), fun x e ho ha hcommitted hop hid => ?_⟩
  · rw [Dev.func?, (hended _).funcs.resolve_left (by decide)]
    exact hfunc
  · have ho' := openDesc_same ho hrings (congrArg Link.await hlink)
    have hx : (x, e) ∈ v.picked (retires id) := openDesc_mem_picked ho' (by simp [retires, ha, hcommitted, hop, hid])
    rw [← hop]
    exact Dev.Retains.endAll (openDesc_retains ho') hcommitted (fun _ hz => openDesc_eq_of_mem_picked ho' hz) hx

end

-- SEED_LOG and END_MARK (R332, R333)

section
variable {d : Dev} {r : RoomId} {id : FuncId} {f : Func} {m : Migration} {p : Place}

theorem Dev.func?_modMigration (hf : d.func? id = some f) (hm : f.migration = some m) (g : Migration → Migration) :
    (d.modMigration id g).func? id = some { f with migration := some (g m) } := by
  refine (Dev.func?_modFunc_same (g := fun f => { f with migration := f.migration.map g }) (fun _ => rfl) hf).trans ?_
  rw [hm]
  rfl

/-- A table that lists what differs from the default among the first `n` keys. -/
theorem Tbl.get_range {α : Type} [DecidableEq α] (d : α) (n : Nat) (g : Nat → α) {k : Nat} (hk : k < n) :
    Tbl.get d (((List.range n).map fun b => (b, g b)).filter fun e => decide (e.2 ≠ d)) k = g k := by
  have hlist (l : List Nat) (hmem : k ∈ l) : Tbl.get d ((l.map fun b => (b, g b)).filter fun e => decide (e.2 ≠ d)) k = g k := by
    induction l with
    | nil => cases hmem
    | cons b l ih =>
      by_cases hb : k = b
      · by_cases hd : g b = d
        · rw [List.map_cons, List.filter_cons_of_neg (by simpa using hd)]
          by_cases hl : k ∈ l
          · exact ih hl
          · rw [hb, hd]
            refine (Tbl.get_default_or_mem d _ b).resolve_right fun hin => hl ?_
            obtain ⟨a, ha, hab⟩ := List.mem_map.1 (List.mem_filter.1 hin).1
            have hab : a = b := (congrArg Prod.fst hab :)
            rw [hb, ← hab]
            exact ha
        · rw [List.map_cons, List.filter_cons_of_pos (by simpa using hd), hb]
          exact if_pos rfl
      · have hrest := ih ((List.mem_cons.1 hmem).resolve_left hb)
        rw [List.map_cons, List.filter_cons]
        split
        · exact (if_neg hb).trans hrest
        · exact hrest
  exact hlist _ (List.mem_range.2 hk)

/-- What a snapshot leaves of its target, and what it takes of its source (R31, R333). -/
theorem snapshotRoom_shown (t s : Room) :
    let rm := snapshotRoom t s
    rm = { t with bps := rm.bps, win := rm.win, bank := s.bank, crpos := s.crpos, cwpos := s.cwpos, rpos := s.crpos, wpos := s.cwpos } ∧
    (∀ b < 128, (rm.bp b).committed = (s.bp b).committed ∧ (rm.bp b).imem = (t.bp b).imem) ∧
    ∀ k < 1024, rm.slot k = { t.slot k with hold := (s.slot k).hold } := by
  refine ⟨?_, fun b hb => ?_, fun k hk => ?_⟩
  · unfold snapshotRoom
    dsimp only
  · have hbp : (snapshotRoom t s).bp b = { ({} : Bp) with imem := (t.bp b).imem, committed := (s.bp b).committed } := by
      rw [Room.bp, snapshotRoom]
      exact Tbl.get_range ({} : Bp) 128 (fun b => { ({} : Bp) with imem := (t.bp b).imem, committed := (s.bp b).committed }) hb
    rw [hbp]
    exact ⟨rfl, rfl⟩
  · have hslot := Tbl.get_range ({} : Slot) 1024 (fun k => { t.slot k with hold := (s.slot k).hold }) hk
    unfold Room.slot at hslot ⊢
    unfold snapshotRoom
    dsimp only at hslot ⊢
    exact hslot

-- what a target has settled

theorem Room.settleBeat_lastCommit (t : Room) (es : List SeedEntry) (x : Decision) : (t.settleBeat es x).lastCommit = t.lastCommit := by
  unfold Room.settleBeat
  rfl

theorem Room.settleBeat_dropped (t : Room) (es : List SeedEntry) {x : Decision} (hx : x.commit = false) : (t.settleBeat es x).bank = t.bank := by
  unfold Room.settleBeat
  simp only [hx, Bool.false_eq_true, if_false]
  rfl

/-- A target applies one decision (R333). -/
def Dev.settledOne (d : Dev) (id : FuncId) (r : RoomId) (m : Migration) (x : Decision) : Dev :=
  (d.modRoom r fun t => t.settleBeat (Tbl.get [] m.got r.toNat) x).modMigration id fun m' =>
    { m' with got := Tbl.set [] m'.got r.toNat ((Tbl.get [] m.got r.toNat).filter fun e => e.beat != x.beat) }

theorem Dev.settleSeed_ripe {limit : Beat} {x : Decision} (hm : (d.func? id).bind (·.migration) = some m) (hx : m.ripe r.toNat limit = some x) (n : Nat) :
    Dev.settleSeed id r limit (n + 1) d = Dev.settleSeed id r limit n (d.settledOne id r m x) := by
  rw [Dev.settleSeed, hm]
  dsimp only
  rw [hx]
  rfl

theorem Dev.settleSeed_unripe {limit : Beat} (hm : (d.func? id).bind (·.migration) = some m) (hx : m.ripe r.toNat limit = none) (n : Nat) :
    Dev.settleSeed id r limit n d = d := by
  cases n with
  | zero => rfl
  | succ n =>
    rw [Dev.settleSeed, hm]
    dsimp only
    rw [hx]

theorem Dev.settledOne_shown (hf : d.func? id = some f) (hm : f.migration = some m) (x : Decision) :
    OtherRooms r d (d.settledOne id r m x) ∧ (d.settledOne id r m x).room r = (d.room r).settleBeat (Tbl.get [] m.got r.toNat) x ∧
    (d.settledOne id r m x).func? id = some { f with migration := some { m with
      got := Tbl.set [] m.got r.toNat ((Tbl.get [] m.got r.toNat).filter fun e => e.beat != x.beat) } } :=
  ⟨Dev.modRoom_otherRooms d r fun t => t.settleBeat (Tbl.get [] m.got r.toNat) x,
    Dev.room_modRoom_same d r fun t => t.settleBeat (Tbl.get [] m.got r.toNat) x,
    Dev.func?_modMigration (d := d.modRoom r fun t => t.settleBeat (Tbl.get [] m.got r.toNat) x) hf hm _⟩

/-- What settling leaves: the other rooms, and of the function all but what the target has received. -/
theorem Dev.settleSeed_shown (limit : Beat) (n : Nat) (hf : d.func? id = some f) (hm : f.migration = some m) :
    OtherRooms r d (Dev.settleSeed id r limit n d) ∧
    ∃ got, (Dev.settleSeed id r limit n d).func? id = some { f with migration := some { m with got := got } } := by
  induction n generalizing d f m with
  | zero => exact ⟨fun _ _ => rfl, m.got, hf.trans (congrArg some (by cases f; cases hm; rfl))⟩
  | succ n ih =>
    have hbind : (d.func? id).bind (·.migration) = some m := by rw [hf]; exact hm
    cases hx : m.ripe r.toNat limit with
    | none =>
      rw [Dev.settleSeed_unripe hbind hx]
      exact ⟨fun _ _ => rfl, m.got, hf.trans (congrArg some (by cases f; cases hm; rfl))⟩
    | some x =>
      obtain ⟨hother, -, hfunc⟩ := Dev.settledOne_shown (r := r) hf hm x
      obtain ⟨hothers, got, hgot⟩ := ih hfunc rfl
      rw [Dev.settleSeed_ripe hbind hx]
      exact ⟨fun q hq => (hothers q hq).trans (hother q hq), got, hgot⟩

-- the entry that arrives

/-- A migration whose target has received the oldest entry of its log. -/
def Migration.takes (m : Migration) (r : RoomId) (e : SeedEntry) (rest : List SeedEntry) : Migration :=
  { m with log := Tbl.set [] m.log r.toNat rest, got := Tbl.modify [] m.got r.toNat (· ++ [e]) }

theorem Dev.seedArrives_shown (hf : d.func? f.id = some f) (hm : f.migration = some m) {e : SeedEntry} {rest : List SeedEntry}
    (hlog : Tbl.get [] m.log r.toNat = e :: rest) (src : RoomId) :
    (d.seedArrives f m r src e).func? f.id = some { f with migration := some (m.takes r e rest) } ∧
    (d.seedArrives f m r src e).net = { d.net with links := (d.seedArrives f m r src e).net.links } := by
  unfold Dev.seedArrives
  rw [hlog]
  exact ⟨Dev.func?_modMigration (d := d.carrySeed ..) hf hm _, rfl⟩

/-- The one decision of a migration is ripe once the end mark of its beat has arrived. -/
theorem Migration.ripe_marked {e : SeedEntry} {x : Decision} {limit : Beat} (hfates : m.fates = [x]) (hlimit : x.beat < limit)
    (hgot : e ∈ Tbl.get [] m.got r.toNat) (hmark : e.isMark = true) (hbeat : x.beat = e.beat) (hrest : ∀ y ∈ Tbl.get [] m.log r.toNat, y.beat ≠ x.beat) :
    m.ripe r.toNat limit = some x := by
  have hany : ((Tbl.get [] m.got r.toNat).any fun e => e.beat == x.beat && e.isMark) = true :=
    List.any_eq_true.2 ⟨e, hgot, by simp [hbeat, hmark]⟩
  have hnone : ((Tbl.get [] m.log r.toNat).any fun e => e.beat == x.beat) = false := by
    rw [List.any_eq_false]
    exact fun y hy => by simpa using hrest y hy
  unfold Migration.ripe
  rw [hfates]
  refine List.find?_cons_of_pos ?_
  rw [hany, hnone]
  simpa using hlimit


/-- What a target has settled that has no decision, or one that is ripe (R333). -/
theorem Dev.settleSeed_settled (limit : Beat) (hf : d.func? id = some f) (hm : f.migration = some m) :
    ∃ got, (Dev.settleSeed id r limit m.fates.length d).func? id = some { f with migration := some { m with got := got } } ∧
      (m.fates = [] → got = m.got ∧ (Dev.settleSeed id r limit m.fates.length d).room r = d.room r) ∧
      ∀ x, m.fates = [x] → m.ripe r.toNat limit = some x →
        (∀ y ∈ Tbl.get [] got r.toNat, y.beat ≠ x.beat) ∧ ((Dev.settleSeed id r limit m.fates.length d).room r).lastCommit = (d.room r).lastCommit ∧
        (x.commit = false → ((Dev.settleSeed id r limit m.fates.length d).room r).bank = (d.room r).bank) := by
  have hbind : (d.func? id).bind (·.migration) = some m := by rw [hf]; exact hm
  by_cases hone : ∃ x, m.fates = [x] ∧ m.ripe r.toNat limit = some x
  · obtain ⟨x, hfates, hripe⟩ := hone
    obtain ⟨-, hroom, hfunc⟩ := Dev.settledOne_shown (r := r) hf hm x
    have hlen : m.fates.length = 0 + 1 := by rw [hfates]; rfl
    rw [hlen, Dev.settleSeed_ripe hbind hripe, Dev.settleSeed]
    refine ⟨_, hfunc, fun hnone => absurd (hfates.symm.trans hnone) (List.cons_ne_nil _ _), fun y hy _ => ?_⟩
    obtain rfl : x = y := (List.cons.inj (hfates.symm.trans hy)).1
    rw [hroom, Tbl.get_set_same]
    exact ⟨fun y hy => by simpa using (List.mem_filter.1 hy).2, Room.settleBeat_lastCommit .., fun hx => Room.settleBeat_dropped _ _ hx⟩
  · obtain ⟨-, got, hgot⟩ := Dev.settleSeed_shown (r := r) limit m.fates.length hf hm
    refine ⟨got, hgot, fun hnone => ?_, fun x hx hripe => absurd ⟨x, hx, hripe⟩ hone⟩
    have hlen : m.fates.length = 0 := by rw [hnone]; rfl
    rw [hlen, Dev.settleSeed] at hgot ⊢
    have hmig := congrArg Func.migration (Option.some.inj (hf.symm.trans hgot))
    exact ⟨(congrArg Migration.got (Option.some.inj (hm.symm.trans hmig)) :).symm, rfl⟩

theorem Dev.seedLog_eq (hto : d.migrationTo r = some (f, m)) (hphase : m.phase = .seed) (hsrc : m.sourceOf r = some p) :
    (r ∉ m.seeded → d.seedLog r = if (d.room p.room).undecided.any (fun b => decide (b < m.since)) then d else
      (d.modRoom r fun t => snapshotRoom t (d.room p.room)).modMigration f.id fun m => { m with seeded := r :: m.seeded }) ∧
    ∀ (e : SeedEntry) (rest : List SeedEntry), r ∈ m.seeded → Tbl.get [] m.log r.toNat = e :: rest → e.isMark = false →
      d.seedLog r = d.seedArrives f m r p.room e := by
  unfold Dev.seedLog
  rw [hto]
  dsimp only
  rw [hsrc]
  dsimp only
  rw [if_neg (not_not.2 hphase)]
  refine ⟨fun hr => if_pos hr, fun e rest hr hlog hmark => ?_⟩
  rw [if_neg (not_not.2 hr), hlog]
  exact if_neg (ne_true_of_eq_false hmark)

theorem Dev.endMark_eq (hto : d.migrationTo r = some (f, m)) (hphase : m.phase = .seed) (hsrc : m.sourceOf r = some p) (hr : r ∈ m.seeded) {e : SeedEntry}
    {rest : List SeedEntry} (hlog : Tbl.get [] m.log r.toNat = e :: rest) (hmark : e.isMark = true) :
    d.endMark r = Dev.settleSeed f.id r d.time.n m.fates.length
      ((d.seedArrives f m r p.room e).modMigration f.id fun m => { m with marks := Tbl.set none m.marks r.toNat (some e.beat) }) := by
  unfold Dev.endMark
  rw [hto]
  dsimp only
  rw [hsrc]
  dsimp only
  rw [if_neg (not_or.2 ⟨not_not.2 hphase, not_not.2 hr⟩), hlog]
  exact if_neg (by simp [hmark])

/-- SEED_LOG of a target that waits for its snapshot (R31, R333). -/
theorem completes_seedLog_snapshot {s : State} (hto : s.dev.migrationTo r = some (f, m)) (hf : s.dev.func? f.id = some f) (hm : f.migration = some m)
    (hphase : m.phase = .seed) (hsrc : m.sourceOf r = some p) (hr : r ∉ m.seeded) :
    (∀ b, (s.dev.room p.room).undecided = some b → b < m.since → Completes (.seedLog r) s [] fun _ => True) ∧
    ((∀ b, (s.dev.room p.room).undecided = some b → m.since ≤ b) → Completes (.seedLog r) s [.rooms, .funcs] fun d =>
      OtherRooms r s.dev d ∧ d.func? f.id = some { f with migration := some { m with seeded := r :: m.seeded } } ∧
      d.room r = snapshotRoom (s.dev.room r) (s.dev.room p.room)) := by
  have heq := (Dev.seedLog_eq hto hphase hsrc).1 hr
  refine ⟨fun b hb hlt => completes_of_run rfl (heq.trans (if_pos (by simp [hb, hlt]))) (.refl _ _) trivial, fun hage => ?_⟩
  have hopen : ¬ (s.dev.room p.room).undecided.any (fun b => decide (b < m.since)) = true := by
    cases hb : (s.dev.room p.room).undecided with
    | none => exact nofun
    | some b => simpa using hage b hb
  refine completes_of_run rfl (heq.trans (if_neg hopen)) (Dev.modMigration_keep (Dev.modRoom_keep (.refl _ _) (by decide) _ _) (by decide) _ _) ⟨?_, ?_, ?_⟩
  · exact Dev.modRoom_otherRooms s.dev r fun t => snapshotRoom t (s.dev.room p.room)
  · exact Dev.func?_modMigration (d := s.dev.modRoom r fun t => snapshotRoom t (s.dev.room p.room)) hf hm _
  · exact Dev.room_modRoom_same s.dev r fun t => snapshotRoom t (s.dev.room p.room)

/-- END_MARK (R332, R333). -/
theorem completes_endMark {s : State} (hto : s.dev.migrationTo r = some (f, m)) (hf : s.dev.func? f.id = some f) (hm : f.migration = some m)
    (hphase : m.phase = .seed) (hsrc : m.sourceOf r = some p) {e : SeedEntry} {rest : List SeedEntry} (hr : r ∈ m.seeded)
    (hlog : Tbl.get [] m.log r.toNat = e :: rest) (hmark : e.isMark = true) :
    let m' : Migration := { m.takes r e rest with marks := Tbl.set none m.marks r.toNat (some e.beat) }
    Completes (.endMark r) s [.rooms, .funcs, .net] fun d =>
      OtherRooms r s.dev d ∧ d.net = { s.dev.net with links := d.net.links } ∧
      ∃ got, d.func? f.id = some { f with migration := some { m' with got := got } } ∧
        (m.fates = [] → got = m'.got ∧ d.room r = s.dev.room r) ∧
        ∀ x, m.fates = [x] → x.beat = e.beat → x.beat < s.dev.time.n → (∀ y ∈ rest, y.beat ≠ x.beat) →
          (∀ y ∈ Tbl.get [] got r.toNat, y.beat ≠ x.beat) ∧ (d.room r).lastCommit = (s.dev.room r).lastCommit ∧
          (x.commit = false → (d.room r).bank = (s.dev.room r).bank) := by
  intro m'
  have heq := Dev.endMark_eq hto hphase hsrc hr hlog hmark
  obtain ⟨hfunc, hnet⟩ := Dev.seedArrives_shown hf hm hlog p.room
  have harrived : Keep [.funcs, .net] s.dev (s.dev.seedArrives f m r p.room e) := Dev.seedArrives_keep (.refl _ _) (by decide) (by decide) _ _ _ _ _
  have hmoved : Keep [.funcs, .net] s.dev ((s.dev.seedArrives f m r p.room e).modMigration f.id fun m => { m with marks := Tbl.set none m.marks r.toNat (some e.beat) }) :=
    Dev.modMigration_keep harrived (by decide) _ _
  have hfunc' := Dev.func?_modMigration hfunc rfl fun m => { m with marks := Tbl.set none m.marks r.toNat (some e.beat) }
  replace hnet : ((s.dev.seedArrives f m r p.room e).modMigration f.id fun m => { m with marks := Tbl.set none m.marks r.toNat (some e.beat) }).net = _ := hnet
  generalize (s.dev.seedArrives f m r p.room e).modMigration f.id _ = v at *
  obtain ⟨hother, -⟩ := Dev.settleSeed_shown (r := r) s.dev.time.n m.fates.length hfunc' rfl
  obtain ⟨got, hgot, hnone, hone⟩ := Dev.settleSeed_settled (r := r) s.dev.time.n hfunc' rfl
  have hroom (q : RoomId) : v.room q = s.dev.room q := hmoved.room_eq (by decide) q
  have hsettled (n : Nat) : Keep [.rooms, .funcs] v (Dev.settleSeed f.id r s.dev.time.n n v) := Dev.settleSeed_keep (.refl _ _) (by decide) (by decide) _ _ _ _
  have hlisted : Tbl.get [] m'.log r.toNat = rest := Tbl.get_set_same ..
  have hmem : e ∈ Tbl.get [] m'.got r.toNat := by
    rw [show m'.got = Tbl.modify [] m.got r.toNat (· ++ [e]) from rfl, Tbl.modify, Tbl.get_set_same]
    exact List.mem_append_right _ List.mem_cons_self
  refine completes_framed rfl heq ⟨fun q hq => (hother q hq).trans (hroom q), ?_, got, hgot, fun h => ?_, fun x hx hbeat hlimit hrest => ?_⟩
  · rw [(hsettled _).net.resolve_left (by decide)]
    exact hnet.trans (by rw [hnet])
  · rw [← hroom r]
    exact hnone h
  · rw [← hroom r]
    exact hone x hx (Migration.ripe_marked hx hlimit hmem hmark hbeat fun y hy => hrest y (hlisted ▸ hy))

end

/-- Settles O40: by command, from the equations of `roomWritten`, `retireClearDone`, `seedLog` and `endMark`; an entry stands while other descriptors end
(`Dev.Retains`), and a target's settling changes its own room and what it has received. -/
theorem roomsAreWrittenClearedAndSeeded : Obligations.RoomsAreWrittenClearedAndSeeded := by
  unfold Obligations.RoomsAreWrittenClearedAndSeeded
  intro s
  refine ⟨fun r f places p gen hw hf => completes_roomWritten hw hf, fun id f hf hp hplaces => completes_retireClearDone hf hp hplaces,
    fun r f m p hto hf hm hphase hsrc => ⟨fun hr => ?_, fun e rest hr hlog hmark => ?_,
      fun e rest hr hlog hmark => completes_endMark hto hf hm hphase hsrc hr hlog hmark⟩⟩
  · obtain ⟨hwaits, htakes⟩ := completes_seedLog_snapshot hto hf hm hphase hsrc hr
    obtain ⟨hrest, hbps, hwin⟩ := snapshotRoom_shown (s.dev.room r) (s.dev.room p.room)
    refine ⟨hwaits, fun hage => completes_imp (htakes hage) fun d ⟨hother, hfunc, hroom⟩ => ?_⟩
    rw [← hroom] at hrest hbps hwin
    exact ⟨hother, hfunc, hrest, hbps, hwin⟩
  · obtain ⟨hfunc, hnet⟩ := Dev.seedArrives_shown hf hm hlog p.room
    exact completes_of_run rfl ((Dev.seedLog_eq hto hphase hsrc).2 e rest hr hlog hmark) (Dev.seedArrives_keep (.refl _ _) (by decide) (by decide) _ _ _ _ _)
      ⟨hfunc, hnet⟩

end Sys2Proof.Machine
end

section
/-! O37: REMOTE queries and the mirrored pair -/

namespace Sys2Proof.Machine
open Sys2Proof

-- what sending leaves of the link unit (R264, R283)

/-- Frames on their way: of the link unit the bundles change, the device's own frames, and the counter of frames that have no way. -/
structure Link.Forwards (k l : Link) : Prop where
  rest : l = { k with bundles := l.bundles, cnt := l.cnt, loop := l.loop }
  counts (n : Nat) : n ≠ 0 → Tbl.get ({} : Cnt) l.cnt n = Tbl.get {} k.cnt n

section
variable {c d e : Dev} {k l m : Link}

theorem Link.Forwards.refl (l : Link) : l.Forwards l := ⟨rfl, fun _ _ => rfl⟩

theorem Link.Forwards.trans (h : k.Forwards l) (h' : l.Forwards m) : k.Forwards m :=
  ⟨h'.rest.trans (by rw [h.rest]), fun n hn => (h'.counts n hn).trans (h.counts n hn)⟩

theorem Link.Forwards.of_eq (h : l = k) : k.Forwards l := h ▸ .refl k

theorem Dev.setBd_forwards (d : Dev) (b : Nat) (x : Bundle) : d.link.Forwards (d.setBd b x).link := ⟨rfl, fun _ _ => rfl⟩

theorem Dev.countLink_forwards (d : Dev) : d.link.Forwards (d.countLink 0).link := ⟨rfl, fun _ hn => Tbl.get_set_other _ _ _ _ _ hn⟩

theorem Dev.creditBack_forwards (d : Dev) (x : Option (Nat × Nat)) : d.link.Forwards (d.creditBack x).link := by
  cases x with
  | none => exact .refl _
  | some p => exact d.setBd_forwards p.1 _

theorem Dev.sendSeq_forwards (d : Dev) (b : Nat) (f : Frame) : d.link.Forwards (d.sendSeq b f).link := d.setBd_forwards b _

theorem Dev.pump_forwards (b n : Nat) (d : Dev) : d.link.Forwards (Dev.pump b n d).link := by
  induction n generalizing d with
  | zero => exact .refl _
  | succ n ih =>
    unfold Dev.pump
    dsimp only
    split
    · exact .refl _
    · split
      · exact .refl _
      · exact (d.setBd_forwards b _).trans ((Dev.sendSeq_forwards ..).trans ((Dev.creditBack_forwards ..).trans (ih _)))

theorem Dev.sendFrame_forwards (d : Dev) (b : Nat) (f : Frame) (x : Option (Nat × Nat)) : d.link.Forwards (d.sendFrame b f x).link :=
  (d.setBd_forwards b _).trans (Dev.pump_forwards b _ _)

theorem Dev.sendOwn_forwards (d : Dev) (f : Frame) : d.link.Forwards (d.sendOwn f).link := by
  unfold Dev.sendOwn Dev.routeFrame
  split
  · exact ⟨rfl, fun _ _ => rfl⟩
  · split
    · exact Dev.sendFrame_forwards ..
    · exact d.countLink_forwards

theorem Dev.sendMessage_forwards (d : Dev) (dest : BitVec 11) (cls : FlitClass) (tag op addr flits body : Nat) :
    d.link.Forwards (d.sendMessage dest cls tag op addr flits body).link :=
  Dev.each_induct (P := fun e => d.link.Forwards e.link) (.refl _) fun _ _ h => h.trans (Dev.sendOwn_forwards ..)

-- a message of one data flit (R260, log entry 32)

/-- A message's bytes, a header flit and a data flit. -/
def messageBytes (head data : BitVec 256) : Bytes := leBytes 32 head.toNat ++ leBytes 32 data.toNat

/-- One of the two frames of a message. -/
def messageFrame (src dest : BitVec 11) (h : Header) (data : BitVec 256) (i : Nat) : Frame :=
  let body := slice (messageBytes (h.flit false) data) (48 * i) 48
  { cls := BitVec.ofNat 2 h.cls.code, dest, src, len := BitVec.ofNat 6 body.length, bpar := h.bpar, att := h.att, last := decide (i + 1 = 2)
    payload := BitVec.ofNat 384 (leNat body) }

theorem Dev.sendPacket_two (d : Dev) (dest : BitVec 11) (h : Header) (data : BitVec 256) :
    d.sendPacket dest h [data] = (d.sendOwn (messageFrame d.link.devid dest h data 0)).sendOwn (messageFrame d.link.devid dest h data 1) := by
  have hbytes : ((h.flit false :: [data]).flatMap fun b => leBytes 32 b.toNat) = messageBytes (h.flit false) data := by
    simp only [List.flatMap_cons, List.flatMap_nil, List.append_nil]
    rfl
  have hlength : (messageBytes (h.flit false) data).length = 64 := by
    unfold messageBytes
    rw [List.length_append, leBytes_length, leBytes_length]
  have hdevid : (d.sendOwn (messageFrame d.link.devid dest h data 0)).link.devid = d.link.devid :=
    (congrArg Link.devid (d.sendOwn_forwards (messageFrame d.link.devid dest h data 0)).rest :)
  have htwo : ceilDiv 64 48 = 2 := by decide
  unfold Dev.sendPacket
  dsimp only
  rw [hbytes, hlength, htwo]
  show Dev.sendOwn (d.sendOwn (messageFrame d.link.devid dest h data 0))
    (messageFrame (d.sendOwn (messageFrame d.link.devid dest h data 0)).link.devid dest h data 1) = _
  rw [hdevid]

-- the fields of an answer

theorem Header.flit_low (h : Header) (vc : Bool) : (h.flit vc).toNat % 2 ^ 220 = h.layout % 2 ^ 220 := by
  unfold Header.flit bit
  rw [BitVec.toNat_ofNat, Nat.mod_mod_of_dvd _ (Nat.pow_dvd_pow 2 (by decide))]
  generalize h.cls.code = a, h.ndata - 1 = b, nodeCode h.dst = c, nodeCode h.src = e, h.gen.toNat = g, h.layout = l
  split <;> split <;> split <;> omega

/-- The first frame of a message begins with its header. -/
theorem messageFrame_low (src dest : BitVec 11) (h : Header) (data : BitVec 256) :
    (messageFrame src dest h data 0).payload.toNat % 2 ^ 220 = h.layout % 2 ^ 220 := by
  have hslice : slice (messageBytes (h.flit false) data) 0 48 = leBytes 32 (h.flit false).toNat ++ (leBytes 32 data.toNat).take 16 := by
    unfold slice messageBytes
    rw [List.drop_zero, List.take_append, leBytes_length, List.take_of_length_le (by rw [leBytes_length]; decide)]
  show (BitVec.ofNat 384 (leNat (slice (messageBytes (h.flit false) data) 0 48))).toNat % 2 ^ 220 = _
  rw [hslice, leNat_append, leNat_leBytes, leBytes_length, BitVec.toNat_ofNat, ← h.flit_low false]
  have := (h.flit false).isLt
  omega

/-- The fields of a message's header in its first frame (log entry 32). -/
theorem layout_fields {p : BitVec 384} {tag op : Nat} {t : BitVec 64} (h : p.toNat % 2 ^ 220 = reqLayout tag op t.toNat % 2 ^ 220) :
    p.extractLsb' 208 12 = BitVec.ofNat 12 tag ∧ p.extractLsb' 136 64 = t ∧ p.extractLsb' 200 8 = BitVec.ofNat 8 op := by
  have ht := t.isLt
  unfold reqLayout at h
  refine ⟨?_, ?_, ?_⟩ <;> apply BitVec.eq_of_toNat_eq <;> simp only [BitVec.extractLsb'_toNat, BitVec.toNat_ofNat, Nat.shiftRight_eq_div_pow] <;> omega

end

-- REMOTE_QUERY (R272)

section
variable {d e : Dev} {dev : BitVec 11} {t : BitVec 64} {words : BitVec 9}

/-- A binding can take the words of an OUT binding, and no other feeds it (R272). -/
def Dev.Takes (d : Dev) (t : BitVec 64) (words : BitVec 9) : Prop :=
  (∃ f, d.func? (rtFunc t) = some f ∧ f.phase = .admitted ∧ rtRep t < f.r ∧
    ∃ b ∈ f.obj.bindings, b.type = 4 ∧ b.dirIn = true ∧ b.num = rtBind t ∧ b.vroom = rtVroom t ∧ words.toNat ≤ b.words) ∧
  ∀ x ∈ d.link.deps, ¬ (x.func = rtFunc t ∧ x.vroom = rtVroom t ∧ x.rep = rtRep t ∧ x.bind = rtBind t)

/-- The frames of an answer, first and last. -/
def Dev.answerFrame (d : Dev) (dev : BitVec 11) (t : BitVec 64) (status i : Nat) : Frame :=
  messageFrame d.link.devid dev
    { cls := .rsp, ndata := 1, dst := .hub 4, src := .hub 4, bpar := d.time.n.getLsbD 0, layout := reqLayout 0 status t.toNat } (BitVec.ofNat 256 0) i

/-- A query is answered with OK or with the refusal (R138, R272). -/
theorem Dev.remoteQuery_eq (d : Dev) (dev : BitVec 11) (t : BitVec 64) (words : BitVec 9) : ∃ status,
    (d.Takes t words → status = 0) ∧ (¬ d.Takes t words → status = 0x11) ∧
    d.remoteQuery dev t words 0 = (d.sendOwn (d.answerFrame dev t status 0)).sendOwn (d.answerFrame dev t status 1) := by
  unfold Dev.remoteQuery
  extract_lets fed ok
  have hok : ok = true ↔ d.Takes t words := by
    have hfed : (!fed) = true ↔ ∀ x ∈ d.link.deps, ¬ (x.func = rtFunc t ∧ x.vroom = rtVroom t ∧ x.rep = rtRep t ∧ x.bind = rtBind t) := by
      simp [fed, and_assoc]
    unfold Dev.Takes
    rw [← hfed]
    simp only [ok]
    rw [Bool.and_comm]
    cases hf : d.func? (rtFunc t) with
    | none => simp
    | some f => simp [List.any_eq_true, and_assoc]
  refine ⟨if ok then 0 else 0x11, fun h => if_pos (hok.2 h), fun h => if_neg fun hc => h (hok.1 hc), ?_⟩
  exact Dev.sendPacket_two ..

/-- What the two frames of an answer say (R260, R272, log entry 32). -/
theorem Dev.answerFrame_says (d : Dev) (dev : BitVec 11) (t : BitVec 64) (status : Nat) :
    (∀ i, (d.answerFrame dev t status i).type = 0 ∧ (d.answerFrame dev t status i).cls = 1 ∧ (d.answerFrame dev t status i).dest = dev ∧
      (d.answerFrame dev t status i).src = d.link.devid) ∧
    (d.answerFrame dev t status 0).last = false ∧ (d.answerFrame dev t status 1).last = true ∧
    (d.answerFrame dev t status 0).payload.extractLsb' 208 12 = 0 ∧ (d.answerFrame dev t status 0).payload.extractLsb' 136 64 = t ∧
    (d.answerFrame dev t status 0).payload.extractLsb' 200 8 = BitVec.ofNat 8 status := by
  obtain ⟨htag, ht, hstatus⟩ := layout_fields (messageFrame_low d.link.devid dev
    { cls := .rsp, ndata := 1, dst := .hub 4, src := .hub 4, bpar := d.time.n.getLsbD 0, layout := reqLayout 0 status t.toNat } (BitVec.ofNat 256 0))
  exact ⟨fun _ => ⟨rfl, rfl, rfl, rfl⟩, rfl, rfl, htag, ht, hstatus⟩

/-- A frame as a bundle sends it: its virtual channel, SEQ and ACK. -/
def frameOn (f : Frame) (vc : Bool) (x : Bundle) : Frame := { f with vc := f.vc || vc, seq := x.txSeq, ack := x.rxAck }

/-- A frame of this device that leaves at once on the bundle of its way (R261, R264, R265). -/
theorem Dev.sendOwn_leaves {f : Frame} {w : Fwd} (hw : Tbl.get ({} : Fwd) d.link.fwd f.dest.toNat = w) (hvalid : w.valid = true) (hown : f.dest ≠ d.link.devid)
    (hup : (d.bd w.bundle.toNat).phase = .up) (hq : (d.bd w.bundle.toNat).queue = []) (hroom : (d.bd w.bundle.toNat).retry.length < 256)
    (hcredit : Tbl.get 0 (d.bd w.bundle.toNat).used (vcKey { f with vc := f.vc || w.dl }) < 32) :
    let y := (d.sendOwn f).bd w.bundle.toNat
    let x := d.bd w.bundle.toNat
    (y.phase = x.phase ∧ y.queue = [] ∧ y.retry = x.retry ++ [frameOn f w.dl x] ∧ y.used = Tbl.modify 0 x.used (vcKey { f with vc := f.vc || w.dl }) (· + 1) ∧
      y.active = x.active ∧ y.rxAck = x.rxAck ∧ y.txSeq = x.txSeq + 1) ∧
    (d.sendOwn f).out = d.frameOut w.bundle (frameOn f w.dl x) :: d.out := by
  intro y x
  obtain ⟨e, hsend, hnow, hout⟩ := Dev.sendFrame_leaves (bd := w.bundle) (x := none) (f := { f with vc := f.vc || w.dl }) hup hq hroom hcredit
  have hrun : d.sendOwn f = e := (if_neg hown).trans ((Dev.routeFrame_on hw hvalid).trans hsend)
  have hy : y = _ := (congrArg (·.bd w.bundle.toNat) hrun).trans hnow.own
  refine ⟨?_, by rw [hrun, hout]; rfl⟩
  rw [hy]
  have herase {l : List Waiting} (w : Waiting) (hl : l = []) : (l ++ [w]).erase w = [] := by simp [hl]
  exact ⟨rfl, herase _ hq, rfl, rfl, rfl, rfl, rfl⟩

theorem Dev.sendOwn_loop {f : Frame} (h : f.dest = d.link.devid) : (d.sendOwn f).link = { d.link with loop := d.link.loop ++ [f] } := by
  unfold Dev.sendOwn
  rw [if_pos h]
  rfl

theorem Dev.sendOwn_nowhere {f : Frame} (h : f.dest ≠ d.link.devid) (hv : (Tbl.get ({} : Fwd) d.link.fwd f.dest.toNat).valid = false) :
    d.sendOwn f = (d.countLink 0).raise 849 := by
  unfold Dev.sendOwn
  rw [if_neg h, Dev.routeFrame_nowhere hv]
  rfl

/-- The frames of an answer to a query. -/
def Dev.Answers (d : Dev) (dev : BitVec 11) (t : BitVec 64) (words : BitVec 9) (f g : Frame) : Prop :=
  (∀ y ∈ [f, g], y.type = 0 ∧ y.cls = 1 ∧ y.dest = dev ∧ y.src = d.link.devid) ∧ f.last = false ∧ g.last = true ∧
  f.payload.extractLsb' 208 12 = 0 ∧ f.payload.extractLsb' 136 64 = t ∧
  (d.Takes t words → f.payload.extractLsb' 200 8 = 0) ∧ (¬ d.Takes t words → f.payload.extractLsb' 200 8 = 0x11)

theorem Dev.answers_frames {status : Nat} (hok : d.Takes t words → status = 0) (hno : ¬ d.Takes t words → status = 0x11) {f g : Frame}
    (hf : ∃ vc q a, f = { d.answerFrame dev t status 0 with vc := vc, seq := q, ack := a })
    (hg : ∃ vc q a, g = { d.answerFrame dev t status 1 with vc := vc, seq := q, ack := a }) : d.Answers dev t words f g := by
  obtain ⟨hsays, hlast, hlast', htag, ht, hstatus⟩ := d.answerFrame_says dev t status
  obtain ⟨_, _, _, rfl⟩ := hf
  obtain ⟨_, _, _, rfl⟩ := hg
  refine ⟨fun y hy => ?_, hlast, hlast', htag, ht, fun h => hstatus.trans (by rw [hok h]; rfl), fun h => hstatus.trans (by rw [hno h]; rfl)⟩
  rcases List.mem_cons.1 hy with rfl | hy
  · exact hsays 0
  · obtain rfl := List.mem_singleton.1 hy
    exact hsays 1

/-- A query of this device's own. -/
theorem completes_remoteQuery_own {s : State} (hdev : dev = s.dev.link.devid) : Completes (.remoteQuery dev t words) s [.link] fun d =>
    ∃ f g, s.dev.Answers dev t words f g ∧ d.link = { s.dev.link with loop := s.dev.link.loop ++ [f, g] } := by
  obtain ⟨status, hok, hno, heq⟩ := s.dev.remoteQuery_eq dev t words
  have hfirst : (s.dev.answerFrame dev t status 0).dest = s.dev.link.devid := hdev
  have hsecond : (s.dev.answerFrame dev t status 1).dest = s.dev.link.devid := hdev
  have hans := Dev.answers_frames (dev := dev) (f := s.dev.answerFrame dev t status 0) (g := s.dev.answerFrame dev t status 1) hok hno ⟨_, _, _, rfl⟩ ⟨_, _, _, rfl⟩
  generalize s.dev.answerFrame dev t status 0 = f at *
  generalize s.dev.answerFrame dev t status 1 = g at *
  have hrun : (s.dev.sendOwn f).sendOwn g = (s.dev.modLink fun l => { l with loop := l.loop ++ [f] }).modLink fun l => { l with loop := l.loop ++ [g] } := by
    unfold Dev.sendOwn
    rw [if_pos hfirst]
    exact if_pos hsecond
  refine completes_of_run rfl (heq.trans hrun) (Dev.modLink_keep (Dev.modLink_keep (.refl _ _) (by decide) _) (by decide) _) ⟨f, g, hans, ?_⟩
  show ({ s.dev.link with loop := (s.dev.link.loop ++ [f]) ++ [g] } : Link) = _
  rw [List.append_assoc]
  rfl

/-- A query of a device that no bundle leads to (R265). -/
theorem completes_remoteQuery_nowhere {s : State} (hdev : dev ≠ s.dev.link.devid) (hv : (Tbl.get ({} : Fwd) s.dev.link.fwd dev.toNat).valid = false) :
    Completes (.remoteQuery dev t words) s [.link, .events] fun d =>
      d.link = { s.dev.link with cnt := bumpAt (bumpAt s.dev.link.cnt 0) 0 } ∧ OnTheWay d 849 := by
  obtain ⟨status, -, -, heq⟩ := s.dev.remoteQuery_eq dev t words
  have hfirst : (s.dev.answerFrame dev t status 0).dest = dev := rfl
  have hsecond : (s.dev.answerFrame dev t status 1).dest = dev := rfl
  generalize s.dev.answerFrame dev t status 0 = f at *
  generalize s.dev.answerFrame dev t status 1 = g at *
  have hone := Dev.sendOwn_nowhere (d := s.dev) (f := f) (hfirst ▸ hdev) (hfirst ▸ hv)
  have htwo := Dev.sendOwn_nowhere (d := (s.dev.countLink 0).raise 849) (f := g) (hsecond ▸ hdev) (hsecond ▸ hv)
  rw [hone, htwo] at heq
  exact completes_of_run rfl heq
    (Dev.raise_keep (Dev.countLink_keep (Dev.raise_keep (Dev.countLink_keep (.refl _ _) (by decide) _) (by decide) _ _) (by decide) _) (by decide) _ _)
    ⟨rfl, _, Dev.enRoute_raise _ 849 0, rfl⟩

/-- A query whose answer leaves at once (R261, R264). -/
theorem completes_remoteQuery_leaves {s : State} {w : Fwd} (hw : Tbl.get ({} : Fwd) s.dev.link.fwd dev.toNat = w) (hdev : dev ≠ s.dev.link.devid)
    (hv : w.valid = true) (hup : (s.dev.bd w.bundle.toNat).phase = .up) (hq : (s.dev.bd w.bundle.toNat).queue = [])
    (hroom : (s.dev.bd w.bundle.toNat).retry.length < 255) (hcredit : Tbl.get 0 (s.dev.bd w.bundle.toNat).used (2 + bit w.dl 0) < 31) :
    let z := s.dev.bd w.bundle.toNat
    Completes (.remoteQuery dev t words) s [.link, .out] fun d =>
      ∃ f g, s.dev.Answers dev t words f g ∧ (d.bd w.bundle.toNat).retry = z.retry ++ [f, g] ∧ d.link.deps = s.dev.link.deps ∧
        d.out = ([g, f].map fun y => Output.frame w.bundle { y with lane := z.deal y.seq, crc := frameCrc y }) ++ s.dev.out := by
  intro z
  obtain ⟨status, hok, hno, heq⟩ := s.dev.remoteQuery_eq dev t words
  have hkey (i : Nat) : vcKey { s.dev.answerFrame dev t status i with vc := (s.dev.answerFrame dev t status i).vc || w.dl } = 2 + bit w.dl 0 := by
    cases hdl : w.dl <;> rfl
  have hdest (i : Nat) : (s.dev.answerFrame dev t status i).dest = dev := rfl
  have hans (x y : Bundle) := Dev.answers_frames (d := s.dev) (dev := dev) hok hno (f := frameOn (s.dev.answerFrame dev t status 0) w.dl x)
    (g := frameOn (s.dev.answerFrame dev t status 1) w.dl y) ⟨_, _, _, rfl⟩ ⟨_, _, _, rfl⟩
  generalize s.dev.answerFrame dev t status = a at *
  have hfirst := Dev.sendOwn_leaves (d := s.dev) (f := a 0) (by rw [hdest]; exact hw) hv (by rw [hdest]; exact hdev) hup hq (by omega) (by rw [hkey]; omega)
  have hlink := s.dev.sendOwn_forwards (a 0)
  have hkeep : ∀ {e c : Dev} {f : Frame} {ps : List Part}, Keep ps c e → .out ∈ ps → .link ∈ ps → f.dest = dev → e.link.devid = s.dev.link.devid →
      Tbl.get ({} : Fwd) e.link.fwd dev.toNat = w → Keep ps c (e.sendOwn f) := by
    intro e c f ps he ho hl hf hid hfwd
    have hrun : e.sendOwn f = e.sendFrame w.bundle.toNat { f with vc := f.vc || w.dl } none :=
      (if_neg (by rw [hf, hid]; exact hdev)).trans (Dev.routeFrame_on (by rw [hf]; exact hfwd) hv)
    rw [hrun]
    exact Dev.sendFrame_keep he ho hl _ _ _
  have hone : Keep [.link, .out] s.dev (s.dev.sendOwn (a 0)) := hkeep (.refl _ _) (by decide) (by decide) (hdest 0) rfl hw
  generalize s.dev.sendOwn (a 0) = e at *
  obtain ⟨⟨hphase, hqueue, hretry, hused, hactive, hack, htx⟩, hout⟩ := hfirst
  have hid : e.link.devid = s.dev.link.devid := (congrArg Link.devid hlink.rest :)
  have hfwd : Tbl.get ({} : Fwd) e.link.fwd dev.toNat = w := (congrArg (fun l : Link => Tbl.get ({} : Fwd) l.fwd dev.toNat) hlink.rest :).trans hw
  have hsecond := Dev.sendOwn_leaves (d := e) (f := a 1) (by rw [hdest]; exact hfwd) hv (by rw [hdest, hid]; exact hdev) (hphase.trans hup) hqueue
    (by rw [hretry, List.length_append]; exact Nat.succ_lt_succ hroom) (by rw [hkey, hused, hkey, Tbl.modify, Tbl.get_set_same]; omega)
  have hlink' := e.sendOwn_forwards (a 1)
  have htwo := hkeep hone (by decide) (by decide) (hdest 1) hid hfwd
  generalize e.sendOwn (a 1) = e' at *
  obtain ⟨⟨-, -, hretry', -, -, -, -⟩, hout'⟩ := hsecond
  refine completes_of_run rfl heq htwo ⟨_, _, hans z (e.bd w.bundle.toNat), ?_, (congrArg Link.deps (hlink.trans hlink').rest :), ?_⟩
  · rw [hretry', hretry, List.append_assoc]
    rfl
  · rw [hout', hout]
    have hdeal : (e.bd w.bundle.toNat).deal = z.deal := by
      funext q
      unfold Bundle.deal
      rw [hactive]
    unfold Dev.frameOut
    rw [hdeal]
    rfl

end

-- what the end of a FENCE leaves (R276, R354)

section
variable {c d e : Dev} {x y : DescRef} {k : BitVec 9} {r : RetEntry}

/-- The reference of a FENCE that is ready. -/
def fenceRef (k : BitVec 9) (e : RetEntry) : DescRef := { ring := k, slot := BitVec.ofNat 12 e.slot }

/-- What each end of a FENCE and each posting keeps, settling keeps. -/
theorem Dev.settle_fences {P : Dev → Prop} {d : Dev} (n : Nat)
    (hfence : ∀ d k e f, d.fenceReady = some (k, e) → (∀ y, (f y).slot = y.slot) → P d → P ((d.marked k e.slot f).ownStatus (fenceRef k e) 0))
    (hpost : ∀ d k, P d → P (d.postRing k)) (h : P d) : P (Dev.settle n d) := by
  induction n generalizing d with
  | zero => exact h
  | succ n ih =>
    unfold Dev.settle
    split
    · exact h
    · next k e hready =>
      exact ih (hpost _ _ (hfence d k e (fun y => { y with phase := .completed, record := { seq := y.seq, opcode := 1, beat := d.time.n } }) hready
        (fun _ => rfl) h))

/-- A descriptor is no FENCE, in windows that are in form. -/
structure Dev.NoFence (d : Dev) (x : DescRef) : Prop where
  windows : d.rings.windowsOk
  opcode (w : BitVec 512) : (d.entry? x).map RetEntry.desc = some w → descOpcode w ≠ 1

theorem Dev.NoFence.of_entry (hw : d.rings.windowsOk) (h : ∀ e, d.entry? x = some e → descOpcode e.desc ≠ 1) : d.NoFence x := by
  refine ⟨hw, fun w hd => ?_⟩
  obtain ⟨e, he, rfl⟩ := Option.map_eq_some_iff.1 hd
  exact h e he

theorem Dev.NoFence.of_desc (h : d.NoFence x) (hw : e.rings.windowsOk) (hd : (e.entry? x).map RetEntry.desc = (d.entry? x).map RetEntry.desc) : e.NoFence x :=
  ⟨hw, fun w he => h.opcode w (hd ▸ he)⟩

theorem Dev.NoFence.of_rings (h : d.NoFence x) (hr : e.rings = d.rings) : e.NoFence x :=
  h.of_desc (hr ▸ h.windows) (by unfold Dev.entry? Dev.ring; rw [hr])

theorem Dev.SameWindows.desc (h : d.SameWindows e) (x : DescRef) : (e.entry? x).map RetEntry.desc = (d.entry? x).map RetEntry.desc := by
  have hunposted (o : Option RetEntry) : o.map RetEntry.desc = (o.map RetEntry.unposted).map RetEntry.desc := by cases o <;> rfl
  rw [hunposted, h.entry x, ← hunposted]

theorem Dev.NoFence.postRing (h : d.NoFence x) (k : BitVec 9) : (d.postRing k).NoFence x :=
  Dev.each_induct (P := (Dev.NoFence · x)) h fun d r h => h.of_desc (Dev.postOne_done d k r h.windows).2 ((Dev.postOne_sameWindows d k r).desc x)

/-- The entry of a descriptor after a change that keeps its slot. -/
theorem Dev.modEntry_same (d : Dev) (y : DescRef) {f : RetEntry → RetEntry} (hf : ∀ e, (f e).slot = e.slot) :
    (d.modEntry y f).entry? y = (d.entry? y).map f := by
  unfold Dev.entry? Dev.modEntry Dev.modRing
  rw [Dev.ring_setRing_same, List.find?_map]
  have hcomp : ((fun e : RetEntry => e.slot == y.slot.toNat) ∘ fun e => if e.slot = y.slot.toNat then f e else e) = fun e => e.slot == y.slot.toNat := by
    funext e
    dsimp only [Function.comp]
    split
    · rw [hf]
    · rfl
  rw [hcomp]
  cases hfound : (d.ring y.ring).window.find? (fun e => e.slot == y.slot.toNat) with
  | none => rfl
  | some e =>
    have hslot : e.slot = y.slot.toNat := by simpa using List.find?_some hfound
    rw [Option.map_some, Option.map_some, if_pos hslot]

theorem Dev.NoFence.unconfirmed (h : d.NoFence x) (y : DescRef) : (d.unconfirmed y).NoFence x := by
  have hslot (e : RetEntry) : (if e.record.status = 0 ∨ e.record.status = 3 then { e with record := { e.record with status := 0x60 } } else e).slot = e.slot := by
    split <;> rfl
  refine h.of_desc (Dev.modEntry_windowsOk h.windows hslot) ?_
  by_cases hy : y = x
  · subst hy
    rw [show (d.unconfirmed y).entry? y = _ from Dev.modEntry_same d y hslot]
    cases d.entry? y with
    | none => rfl
    | some e =>
      show some (RetEntry.desc (if _ then _ else _)) = some e.desc
      split <;> rfl
  · rw [show (d.unconfirmed y).entry? x = d.entry? x from Dev.modEntry_entry_other _ hslot (DescRef.apart hy)]

/-- A FENCE that is ready is not a descriptor of another operation. -/
theorem Dev.NoFence.ne_fenceRef (h : d.NoFence x) (hready : d.fenceReady = some (k, r)) : fenceRef k r ≠ x := by
  intro hx
  obtain ⟨hmem, -⟩ := Dev.fenceReady_accepted h.windows hready
  obtain ⟨hnodup, hlt⟩ := Rings.windowsOk_get h.windows k.toNat
  have hentry : d.entry? x = some r := by
    have hfound : (d.ring k).window.find? (fun e => e.slot == r.slot) = some r := by
      cases hf : (d.ring k).window.find? (fun e => e.slot == r.slot) with
      | none => exact absurd (List.find?_eq_none.1 hf r hmem) (by simp)
      | some e => exact congrArg some (find_slot_unique hnodup (List.mem_of_find?_eq_some hf) hmem (by simpa using List.find?_some hf))
    rw [← hx]
    show (d.ring k).window.find? (fun e => e.slot == (BitVec.ofNat 12 r.slot).toNat) = some r
    rw [BitVec.toNat_ofNat, Nat.mod_eq_of_lt (hlt r hmem)]
    exact hfound
  refine h.opcode r.desc (by rw [hentry]; rfl) ?_
  obtain ⟨p, -, hq⟩ := List.exists_of_findSome?_eq_some hready
  obtain ⟨z, hz, hpair⟩ := Option.map_eq_some_iff.1 hq
  obtain rfl : z = r := (Prod.mk.inj hpair).2
  have htest := List.find?_some hz
  simp only [Bool.and_eq_true, beq_iff_eq] at htest
  exact htest.1.2

theorem Dev.NoFence.marked (h : d.NoFence x) {f : RetEntry → RetEntry} (hready : d.fenceReady = some (k, r)) (hf : ∀ y, (f y).slot = y.slot) :
    (d.marked k r.slot f).NoFence x := by
  have hother := h.ne_fenceRef hready
  obtain ⟨hmem, -⟩ := Dev.fenceReady_accepted h.windows hready
  have hlt := (Rings.windowsOk_get h.windows k.toNat).2 r hmem
  have hapart := DescRef.apart_nat hother
  rw [show (fenceRef k r).slot.toNat = r.slot from Nat.mod_eq_of_lt hlt] at hapart
  have hentry := Dev.marked_entry_other (d := d) (k := k) hf hapart
  exact h.of_desc (Dev.marked_windowsOk h.windows hf) (by rw [hentry])

-- the wait for APPLIED (R276, R277, R280)

theorem Dev.resolveAwait_waits (h : ∀ a ∈ d.link.await, a.own = none) : d.resolveAwait = d := by
  have hnone : d.link.await.filter (fun a => a.own.isSome && (a.lost || a.applied.isSome)) = [] :=
    List.filter_eq_nil_iff.2 fun a ha => by simp [h a ha]
  unfold Dev.resolveAwait
  rw [hnone]
  rfl

/-- Descriptors that await no APPLIED any more leave the list (R280). -/
theorem Dev.each_lost_link (l : List AwaitApplied) (hl : ∀ a ∈ l, a.lost = true) :
    (d.each l fun d a => let d := d.putLink { d.link with await := d.link.await.erase a }
      if a.lost then d.unconfirmed a.desc
      else if a.own = a.applied then d
      else ((d.unconfirmed a.desc).sendMessage d.link.partner .req 0 8 0 1 0).divergence).link = { d.link with await := d.link.await.diff l } := by
  induction l generalizing d with
  | nil => rfl
  | cons a l ih =>
    unfold Dev.each
    rw [List.foldl_cons]
    dsimp only
    rw [if_pos (hl a List.mem_cons_self)]
    refine (ih fun b hb => hl b (List.mem_cons_of_mem _ hb)).trans ?_
    rw [List.diff_cons]
    rfl

theorem mem_diff_filter {α : Type} [BEq α] [LawfulBEq α] {l : List α} {p : α → Bool} {a : α} : a ∈ l.diff (l.filter p) ↔ a ∈ l ∧ p a = false := by
  rw [← List.count_pos_iff, List.count_diff, ← List.count_pos_iff (l := l)]
  cases hp : p a with
  | true => rw [List.count_filter hp]; simp
  | false =>
    have hnone : (l.filter p).count a = 0 := List.count_eq_zero.2 fun h => by simp [hp] at h
    rw [hnone]
    simp

theorem Dev.resolveAwait_lost (h : ∀ a ∈ d.link.await, a.lost = true) :
    d.resolveAwait.link = { d.link with await := d.resolveAwait.link.await } ∧
      ∀ a, a ∈ d.resolveAwait.link.await ↔ a ∈ d.link.await ∧ a.own = none := by
  have hpick : d.link.await.filter (fun a => a.own.isSome && (a.lost || a.applied.isSome)) = d.link.await.filter fun a => a.own.isSome :=
    List.filter_congr fun a ha => by simp [h a ha]
  have hlink : d.resolveAwait.link = { d.link with await := d.link.await.diff (d.link.await.filter fun a => a.own.isSome) } := by
    unfold Dev.resolveAwait
    rw [hpick]
    exact Dev.each_lost_link _ fun a ha => h a (List.mem_filter.1 ha).1
  rw [hlink]
  exact ⟨rfl, fun a => mem_diff_filter.trans (and_congr_right fun _ => by simp)⟩

theorem Dev.NoFence.resolveAwait (h : d.NoFence x) : d.resolveAwait.NoFence x := by
  refine Dev.each_induct (P := (Dev.NoFence · x)) h fun d a h => ?_
  have hu := (h.of_rings (e := d.putLink { d.link with await := d.link.await.erase a }) rfl).unconfirmed a.desc
  exact iteInduction (motive := (Dev.NoFence · x)) (fun _ => hu) fun _ =>
    iteInduction (motive := (Dev.NoFence · x)) (fun _ => h.of_rings rfl) fun _ =>
      hu.of_rings ((Dev.sendMessage_sent ..).trans (Dev.divergence_sent _)).2

theorem Dev.NoFence.ownStatus (h : d.NoFence x) (y : DescRef) (st : Nat) : (d.ownStatus y st).NoFence x :=
  Dev.NoFence.resolveAwait (h.of_rings (e := d.putLink _) rfl)

theorem Dev.postOne_forwards (d : Dev) (k : BitVec 9) (r : RetEntry) : d.link.Forwards (d.postOne k r).link := by
  unfold Dev.postOne Dev.coalesce
  dsimp only
  split
  · exact Dev.sendMessage_forwards ..
  · refine .of_eq ?_
    split
    · exact (Dev.msix_link ..).trans (Dev.writeHost_link ..)
    · exact Dev.writeHost_link ..

theorem Dev.postRing_forwards (d : Dev) (k : BitVec 9) : d.link.Forwards (d.postRing k).link :=
  Dev.each_induct (P := fun e => d.link.Forwards e.link) (.refl _) fun _ _ h => h.trans (Dev.postOne_forwards ..)

/-- The mirrored pair's state and its counter stand (R276 to R280). -/
structure Link.SamePair (k l : Link) : Prop where
  mirror : l.mirror = k.mirror
  splitNext : l.splitNext = k.splitNext
  diverged : l.diverged = k.diverged
  counts : Tbl.get ({} : Cnt) l.cnt 3 = Tbl.get {} k.cnt 3

theorem Link.SamePair.refl (l : Link) : l.SamePair l := ⟨rfl, rfl, rfl, rfl⟩

theorem Link.SamePair.trans {k l m : Link} (h : k.SamePair l) (h' : l.SamePair m) : k.SamePair m :=
  ⟨h'.mirror.trans h.mirror, h'.splitNext.trans h.splitNext, h'.diverged.trans h.diverged, h'.counts.trans h.counts⟩

theorem Link.Forwards.samePair {k l : Link} (h : k.Forwards l) : k.SamePair l :=
  ⟨(congrArg Link.mirror h.rest :), (congrArg Link.splitNext h.rest :), (congrArg Link.diverged h.rest :), h.counts 3 (by decide)⟩

/-- A device whose descriptors await no APPLIED keeps its pair while completions are posted. -/
theorem Dev.settle_resolved {k : Link} (n : Nat) (h : d.link.await = [] ∧ k.SamePair d.link) :
    (Dev.settle n d).link.await = [] ∧ k.SamePair (Dev.settle n d).link := by
  refine Dev.settle_induct (P := fun d => d.link.await = [] ∧ k.SamePair d.link) n (fun d j e f _ _ h => h) (fun d y st h => ?_) (fun d j h => ?_) h
  · have hmap : (d.link.await.map fun a => if a.desc = y then { a with own := some st } else a) = [] := by rw [h.1]; rfl
    unfold Dev.ownStatus
    rw [Dev.resolveAwait_waits]
    · exact ⟨hmap, h.2.trans ⟨rfl, rfl, rfl, rfl⟩⟩
    · intro a ha
      exact absurd (hmap ▸ ha : a ∈ []) List.not_mem_nil
  · exact ⟨(Dev.postRing_await d j).trans h.1, h.2.trans (Dev.postRing_forwards d j).samePair⟩

theorem Dev.Recorded.settle {c : Completion} (h : d.Recorded x c) (hok : c.status ≠ 0) (hpart : c.status ≠ 3) (n : Nat) : (Dev.settle n d).Recorded x c :=
  Dev.settle_induct (P := (Dev.Recorded · x c)) n (fun _ _ _ _ hready hf h => h.fence hready hf) (fun _ _ _ h => h.ownStatus hok hpart _ _)
    (fun _ _ h => h.postRing _) h

/-- MIRROR_LOST in place of a status that says that the descriptor was applied (R277, R280). -/
theorem Dev.unconfirmed_recorded {c : Completion} (h : d.Recorded x c) (happlied : c.status = 0 ∨ c.status = 3) :
    (d.unconfirmed x).Recorded x { c with status := 0x60 } := by
  obtain ⟨⟨y, hy, hphase, rfl⟩, hw⟩ := h
  have hslot (e : RetEntry) : (if e.record.status = 0 ∨ e.record.status = 3 then { e with record := { e.record with status := 0x60 } } else e).slot = e.slot := by
    split <;> rfl
  exact ⟨⟨_, (Dev.modEntry_entry hw hy hslot).trans (congrArg some (if_pos happlied)), hphase, rfl⟩, Dev.modEntry_windowsOk hw hslot⟩

/-- The partner is told that the devices differ (R277). -/
theorem Dev.diverges (d : Dev) (dest : BitVec 11) :
    let v := (d.sendMessage dest .req 0 8 0 1 0).divergence
    v.link.await = d.link.await ∧ Tbl.get ({} : Cnt) v.link.cnt 3 = (Tbl.get ({} : Cnt) d.link.cnt 3).bump ∧ v.link.splitNext = true ∧
      v.link.diverged = true ∧ ∃ o, v.EnRoute o ∧ o.ev = BitVec.ofNat 10 848 := by
  obtain ⟨hawait, -⟩ := d.sendMessage_sent dest .req 0 8 0 1 0
  have hcount := (d.sendMessage_forwards dest .req 0 8 0 1 0).counts 3 (by decide)
  generalize d.sendMessage dest .req 0 8 0 1 0 = v at *
  refine ⟨hawait, ?_, rfl, rfl, _, Dev.enRoute_raise v 848 0, rfl⟩
  rw [← hcount]
  exact Tbl.get_set_same ..

theorem Dev.Recorded.diverges {c : Completion} (h : d.Recorded x c) (dest : BitVec 11) : (d.sendMessage dest .req 0 8 0 1 0).divergence.Recorded x c :=
  h.of_rings (congrArg Rings.pairs ((Dev.sendMessage_sent ..).trans (Dev.divergence_sent _)).2)

theorem lost_ne_ok : (0x60 : Nat) ≠ 0 := by decide
theorem lost_ne_partial : (0x60 : Nat) ≠ 3 := by decide

-- APPLIED (R276, R277)

section
variable {s : State} {ring : BitVec 9} {seq : BitVec 64} {status : BitVec 8} {a : AwaitApplied}

/-- The partner's status has arrived. -/
def Dev.told (d : Dev) (b : AwaitApplied) : Dev := d.putLink { d.link with await := [b] }

theorem Dev.applied_eq (ha : d.link.await = [a]) (hring : a.desc.ring = ring) (hseq : a.seq = seq) :
    Dev.applied ring seq status d = Dev.settle (d.told { a with applied := some status.toNat }).fences
      ((d.told { a with applied := some status.toNat }).resolveAwait.postRing ring) := by
  have htold : d.link.await.map (fun a => if a.desc.ring = ring ∧ a.seq = seq then { a with applied := some status.toNat } else a)
      = [{ a with applied := some status.toNat }] := by
    rw [ha, List.map_singleton, if_pos ⟨hring, hseq⟩]
  exact congrArg (fun l => Dev.settle (d.putLink { d.link with await := l }).fences ((d.putLink { d.link with await := l }).resolveAwait.postRing ring)) htold

theorem Dev.settle_waiting {b : AwaitApplied} (n : Nat) (hown : b.own = none) (h : d.NoFence b.desc ∧ d.link.await = [b]) :
    (Dev.settle n d).link.await = [b] := by
  have hboth : (Dev.settle n d).NoFence b.desc ∧ (Dev.settle n d).link.await = [b] := by
    refine Dev.settle_fences (P := fun d => d.NoFence b.desc ∧ d.link.await = [b]) n (fun d k e f hready hf h => ?_) (fun d k h => ?_) h
    · refine ⟨(h.1.marked hready hf).ownStatus _ _, ?_⟩
      have hmap : ((d.marked k e.slot f).link.await.map fun a => if a.desc = fenceRef k e then { a with own := some 0 } else a) = [b] := by
        rw [show (d.marked k e.slot f).link.await = [b] from h.2, List.map_singleton, if_neg fun hb => h.1.ne_fenceRef hready hb.symm]
      unfold Dev.ownStatus
      rw [Dev.resolveAwait_waits]
      · exact hmap
      · intro a ha
        rw [List.mem_singleton.1 (hmap ▸ ha : a ∈ [b])]
        exact hown
    · exact ⟨h.1.postRing k, (Dev.postRing_await d k).trans h.2⟩
  exact hboth.2

theorem completes_applied_early (ha : s.dev.link.await = [a]) (hring : a.desc.ring = ring) (hseq : a.seq = seq) (hw : s.dev.rings.windowsOk)
    (hown : a.own = none) (hno : ∀ e, s.dev.entry? a.desc = some e → descOpcode e.desc ≠ 1) :
    Completes (.applied ring seq status) s [.out, .events, .link, .rings, .sched] fun d => d.link.await = [{ a with applied := some status.toNat }] := by
  refine completes_framed rfl (Dev.applied_eq ha hring hseq) ?_
  have htold : (s.dev.told { a with applied := some status.toNat }).NoFence a.desc := .of_entry hw hno
  rw [Dev.resolveAwait_waits fun b hb => by rw [List.mem_singleton.1 hb]; exact hown]
  exact Dev.settle_waiting (b := { a with applied := some status.toNat }) _ hown ⟨htold.postRing ring, Dev.postRing_await _ ring⟩

theorem completes_applied_same (ha : s.dev.link.await = [a]) (hring : a.desc.ring = ring) (hseq : a.seq = seq) (hlost : a.lost = false)
    (hown : a.own = some status.toNat) :
    Completes (.applied ring seq status) s [.out, .events, .link, .rings, .sched] fun d => d.link.await = [] := by
  refine completes_framed rfl (Dev.applied_eq ha hring hseq) ?_
  have hresolved : (s.dev.told { a with applied := some status.toNat }).resolveAwait.link.await = [] := by
    unfold Dev.resolveAwait Dev.told
    simp [hown, hlost, Dev.each, Dev.putLink]
  exact (Dev.settle_resolved _ ⟨(Dev.postRing_await _ ring).trans hresolved, .refl _⟩).1

/-- What is known of a pair whose devices differ (R277). -/
theorem completes_applied_differs {o : Nat} (ha : s.dev.link.await = [a]) (hring : a.desc.ring = ring) (hseq : a.seq = seq) (hlost : a.lost = false)
    (hw : s.dev.rings.windowsOk) (hown : a.own = some o) (hne : o ≠ status.toNat) :
    Completes (.applied ring seq status) s [.out, .events, .link, .rings, .sched] fun d =>
      d.link.await = [] ∧ Tbl.get {} d.link.cnt 3 = (Tbl.get ({} : Cnt) s.dev.link.cnt 3).bump ∧ d.link.splitNext = true ∧ d.link.diverged = true ∧
      OnTheWay d 848 ∧
      ∀ e, s.dev.entry? a.desc = some e → e.phase = .completed → (o = 0 ∨ o = 3) → (e.record.status = 0 ∨ e.record.status = 3) →
        CompletedWith d a.desc { e.record with status := 0x60 } := by
  refine completes_framed rfl (Dev.applied_eq ha hring hseq) ?_
  have hresolved : (s.dev.told { a with applied := some status.toNat }).resolveAwait
      = (((s.dev.putLink { s.dev.link with await := [] }).unconfirmed a.desc).sendMessage s.dev.link.partner .req 0 8 0 1 0).divergence := by
    unfold Dev.resolveAwait Dev.told
    simp [hown, hlost, Dev.each, Dev.putLink, hne]
  obtain ⟨hawait, hcount, hsplit, hdiverged, o, hroute, hev⟩ :=
    ((s.dev.putLink { s.dev.link with await := [] }).unconfirmed a.desc).diverges s.dev.link.partner
  have hrecorded {c : Completion} (hc : CompletedWith s.dev a.desc c) (happlied : c.status = 0 ∨ c.status = 3) :=
    (Dev.unconfirmed_recorded (d := s.dev.putLink { s.dev.link with await := [] }) ⟨hc, hw⟩ happlied).diverges s.dev.link.partner
  replace hawait : _ = [] := hawait
  replace hcount : _ = (Tbl.get ({} : Cnt) s.dev.link.cnt 3).bump := hcount
  rw [hresolved]
  generalize (((s.dev.putLink { s.dev.link with await := [] }).unconfirmed a.desc).sendMessage s.dev.link.partner .req 0 8 0 1 0).divergence = v at *
  obtain ⟨hend, hpair⟩ := Dev.settle_resolved (d := v.postRing ring) (k := v.link) (s.dev.told { a with applied := some status.toNat }).fences
    ⟨(Dev.postRing_await v ring).trans hawait, (Dev.postRing_forwards v ring).samePair⟩
  refine ⟨hend, hpair.counts.trans hcount, hpair.splitNext.trans hsplit, hpair.diverged.trans hdiverged, ⟨o, Dev.EnRoute.settle (.postRing hroute), hev⟩,
    fun e he hdone _ happlied => ?_⟩
  exact (((hrecorded ⟨e, he, hdone, rfl⟩ happlied).postRing ring).settle lost_ne_ok lost_ne_partial _).1

end

-- DECISION_DIGEST and MIRROR_SPLIT (R278, R280)

section
variable {s : State}

theorem completes_decisionDigest {crc : BitVec 64} (hp : s.dev.link.mirror = .paired) (hne : crc ≠ s.dev.link.digest) :
    Completes (.decisionDigest crc) s [.link, .events] fun d =>
      d.link = { s.dev.link with cnt := bumpAt s.dev.link.cnt 3 } ∧ Raised s.dev d 848 :=
  completes_of_run rfl (if_neg fun h => h.elim (· hp) hne) (Dev.raise_keep (Dev.countLink_keep (.refl _ _) (by decide) _) (by decide) _ _)
    ⟨rfl, Dev.raise_raised (e := s.dev.countLink 3) rfl 848⟩

/-- A pair that has split: no APPLIED comes any more. -/
def Dev.parted (d : Dev) : Dev :=
  (d.modLink fun l => { l with mirror := .split, splitNext := false, await := l.await.map fun a => { a with lost := true } }).raise 848

/-- The end of a split: what can be posted, and the FENCEs that waited, go on. -/
def Dev.reposted (d : Dev) (rs : List (BitVec 9)) : Dev := Dev.settle (d.each rs fun d k => d.postRing k).fences (d.each rs fun d k => d.postRing k)

theorem Dev.mirrorSplit_eq (hp : d.link.mirror = .paired) (hm : 4 < d.link.mirrorMissed) :
    d.mirrorSplit = d.parted.resolveAwait.reposted (d.link.await.map (·.desc.ring)).eraseDups :=
  (if_neg (Nat.not_le.2 hm)).trans (if_neg (not_not.2 hp))

/-- No descriptor that awaits APPLIED has ended here, and none gets it. -/
def Link.Parted (l : Link) : Prop := ∀ a ∈ l.await, a.own = none ∧ a.lost = true

theorem Dev.ownStatus_parted (h : d.link.Parted) (y : DescRef) (st : Nat) :
    (d.ownStatus y st).link.Parted ∧ d.link.SamePair (d.ownStatus y st).link ∧ ∀ a ∈ d.link.await, a.desc ≠ y → a ∈ (d.ownStatus y st).link.await := by
  have hlost : ∀ a ∈ (d.link.await.map fun a => if a.desc = y then { a with own := some st } else a), a.lost = true := by
    intro a ha
    obtain ⟨b, hb, rfl⟩ := List.mem_map.1 ha
    split <;> exact (h b hb).2
  obtain ⟨hlink, hmem⟩ := Dev.resolveAwait_lost (d := d.putLink { d.link with
    await := d.link.await.map (fun a => if a.desc = y then { a with own := some st } else a), queries := d.link.queries.filter fun q => q.desc != y }) hlost
  refine ⟨fun a ha => ?_, ?_, fun a ha hy => (hmem a).2 ⟨List.mem_map.2 ⟨a, ha, if_neg hy⟩, (h a ha).1⟩⟩
  · obtain ⟨hin, hown⟩ := (hmem a).1 ha
    exact ⟨hown, hlost a hin⟩
  · exact Link.SamePair.mk (congrArg Link.mirror hlink :) (congrArg Link.splitNext hlink :) (congrArg Link.diverged hlink :)
      (congrArg (fun l : Link => Tbl.get ({} : Cnt) l.cnt 3) hlink :)

/-- What posts and FENCEs leave of a pair that has split, with the descriptors of `l` that wait for their own end. -/
theorem Dev.reposted_parted {k : Link} {l : List AwaitApplied} (rs : List (BitVec 9))
    (h : d.link.Parted ∧ k.SamePair d.link ∧ ∀ a ∈ l, d.NoFence a.desc ∧ a ∈ d.link.await) :
    (d.reposted rs).link.Parted ∧ k.SamePair (d.reposted rs).link ∧ ∀ a ∈ l, (d.reposted rs).NoFence a.desc ∧ a ∈ (d.reposted rs).link.await := by
  have hpost (d : Dev) (j : BitVec 9) (h : d.link.Parted ∧ k.SamePair d.link ∧ ∀ a ∈ l, d.NoFence a.desc ∧ a ∈ d.link.await) :
      (d.postRing j).link.Parted ∧ k.SamePair (d.postRing j).link ∧ ∀ a ∈ l, (d.postRing j).NoFence a.desc ∧ a ∈ (d.postRing j).link.await := by
    obtain ⟨hparted, hpair, hl⟩ := h
    refine ⟨?_, hpair.trans (Dev.postRing_forwards d j).samePair, fun a ha => ⟨(hl a ha).1.postRing j, ?_⟩⟩
    · unfold Link.Parted
      rw [Dev.postRing_await]
      exact hparted
    · rw [Dev.postRing_await]
      exact (hl a ha).2
  refine Dev.settle_fences (P := fun d => d.link.Parted ∧ k.SamePair d.link ∧ ∀ a ∈ l, d.NoFence a.desc ∧ a ∈ d.link.await) _
    (fun d j e f hready hf h => ?_) hpost (Dev.each_induct h hpost)
  obtain ⟨hparted, hpair, hl⟩ := h
  obtain ⟨hparted', hpair', hstay⟩ := Dev.ownStatus_parted (d := d.marked j e.slot f) hparted (fenceRef j e) 0
  refine ⟨hparted', hpair.trans hpair', fun a ha => ?_⟩
  obtain ⟨hno, hin⟩ := hl a ha
  exact ⟨(hno.marked hready hf).ownStatus _ _, hstay a hin fun hy => hno.ne_fenceRef hready hy.symm⟩

theorem Dev.Recorded.reposted {c : Completion} (h : d.Recorded x c) (hok : c.status ≠ 0) (hpart : c.status ≠ 3) (rs : List (BitVec 9)) :
    (d.reposted rs).Recorded x c :=
  Dev.Recorded.settle (Dev.each_induct (P := (Dev.Recorded · x c)) h fun _ k h => h.postRing k) hok hpart _

/-- A descriptor that has ended here completes as MIRROR_LOST in place of an applied status (R280). -/
theorem Dev.resolveAwait_recorded {a : AwaitApplied} {c : Completion} (hl : ∀ a ∈ d.link.await, a.lost = true) (ha : a ∈ d.link.await) (hown : a.own.isSome = true)
    (hc : d.Recorded a.desc c) (happlied : c.status = 0 ∨ c.status = 3) : d.resolveAwait.Recorded a.desc { c with status := 0x60 } := by
  unfold Dev.resolveAwait
  have hin : a ∈ d.link.await.filter fun a => a.own.isSome && (a.lost || a.applied.isSome) := List.mem_filter.2 ⟨ha, by simp [hown, hl a ha]⟩
  have hlost : ∀ a ∈ d.link.await.filter (fun a => a.own.isSome && (a.lost || a.applied.isSome)), a.lost = true := fun b hb => hl b (List.mem_filter.1 hb).1
  generalize d.link.await.filter (fun a => a.own.isSome && (a.lost || a.applied.isSome)) = l at hin hlost
  unfold Dev.each
  clear hl ha
  induction l generalizing d with
  | nil => cases hin
  | cons b l ih =>
    rw [List.foldl_cons]
    dsimp only
    rw [if_pos (hlost b List.mem_cons_self)]
    have hput : (d.putLink { d.link with await := d.link.await.erase b }).Recorded a.desc c := hc.of_rings rfl
    by_cases hb : b.desc = a.desc
    · have hdone := Dev.unconfirmed_recorded hput happlied
      rw [hb]
      refine Dev.each_induct (P := (Dev.Recorded · a.desc { c with status := 0x60 })) (l := l) hdone fun d b h => ?_
      have hu := (h.of_rings (e := d.putLink { d.link with await := d.link.await.erase b }) rfl).unconfirmed lost_ne_ok lost_ne_partial b.desc
      exact iteInduction (motive := (Dev.Recorded · a.desc _)) (fun _ => hu) fun _ =>
        iteInduction (motive := (Dev.Recorded · a.desc _)) (fun _ => h.of_rings rfl) fun _ => hu.diverges _
    · have htail : a ∈ l := (List.mem_cons.1 hin).resolve_left fun he => hb (congrArg AwaitApplied.desc he.symm)
      have hother := Dev.unconfirmed_completed hput.2 hb hput.1
      exact ih ⟨hother.1, hother.2⟩ htail fun z hz => hlost z (List.mem_cons_of_mem _ hz)

theorem completes_mirrorSplit (hp : s.dev.link.mirror = .paired) (hm : 4 < s.dev.link.mirrorMissed) (hw : s.dev.rings.windowsOk) :
    Completes .mirrorSplit s [.out, .events, .link, .rings, .sched] fun d =>
      d.link.mirror = .split ∧ d.link.splitNext = false ∧ OnTheWay d 848 ∧ (∀ a ∈ d.link.await, a.own = none ∧ a.lost = true) ∧
      (∀ a ∈ s.dev.link.await, a.own = none → (∀ e, s.dev.entry? a.desc = some e → descOpcode e.desc ≠ 1) → { a with lost := true } ∈ d.link.await) ∧
      ∀ a ∈ s.dev.link.await, a.own.isSome = true → ∀ e, s.dev.entry? a.desc = some e → e.phase = .completed →
        (e.record.status = 0 ∨ e.record.status = 3) → CompletedWith d a.desc { e.record with status := 0x60 } := by
  refine completes_framed rfl (Dev.mirrorSplit_eq hp hm) ?_
  have hlost : ∀ a ∈ s.dev.parted.link.await, a.lost = true := by
    intro a ha
    obtain ⟨b, -, rfl⟩ := List.mem_map.1 ha
    rfl
  have hin {a : AwaitApplied} (ha : a ∈ s.dev.link.await) : { a with lost := true } ∈ s.dev.parted.link.await := List.mem_map.2 ⟨a, ha, rfl⟩
  have hroute := (s.dev.modLink fun l => { l with mirror := .split, splitNext := false, await := l.await.map fun a => { a with lost := true } }).enRoute_raise 848 0
  replace hroute : s.dev.parted.EnRoute _ := hroute
  have hpartedRings : s.dev.parted.rings = s.dev.rings := rfl
  have hentry (x : DescRef) : s.dev.parted.entry? x = s.dev.entry? x := rfl
  have hmirror : s.dev.parted.link.mirror = .split ∧ s.dev.parted.link.splitNext = false := ⟨rfl, rfl⟩
  generalize s.dev.parted = p at *
  obtain ⟨hlink, hmem⟩ := Dev.resolveAwait_lost hlost
  have hparted : p.resolveAwait.link.Parted := fun a ha => ⟨((hmem a).1 ha).2, hlost a ((hmem a).1 ha).1⟩
  have hpair : p.link.SamePair p.resolveAwait.link := Link.SamePair.mk (congrArg Link.mirror hlink :) (congrArg Link.splitNext hlink :)
    (congrArg Link.diverged hlink :) (congrArg (fun l : Link => Tbl.get ({} : Cnt) l.cnt 3) hlink :)
  have hrest (l : List AwaitApplied) := Dev.reposted_parted (d := p.resolveAwait) (k := p.link) (l := l) (s.dev.link.await.map (·.desc.ring)).eraseDups
  obtain ⟨hend, hsame, -⟩ := hrest [] ⟨hparted, hpair, fun a ha => absurd ha List.not_mem_nil⟩
  refine ⟨hsame.mirror.trans hmirror.1, hsame.splitNext.trans hmirror.2, ⟨_, Dev.EnRoute.settle (.each (.resolveAwait hroute) fun _ _ h => .postRing h), rfl⟩, hend,
    fun a ha hown hno => ?_, fun a ha hown e he hdone happlied => ?_⟩
  · have hnofence : p.NoFence a.desc := .of_entry (hpartedRings ▸ hw) fun e he => hno e ((hentry _).symm.trans he)
    exact ((hrest [{ a with lost := true }] ⟨hparted, hpair, fun b hb => by
      rw [List.mem_singleton.1 hb]
      exact ⟨hnofence.resolveAwait, (hmem _).2 ⟨hin ha, hown⟩⟩⟩).2.2 _ (List.mem_singleton_self _)).2
  · have hrecorded : p.Recorded a.desc e.record := ⟨⟨e, (hentry _).trans he, hdone, rfl⟩, hpartedRings ▸ hw⟩
    exact ((Dev.resolveAwait_recorded (a := { a with lost := true }) hlost (hin ha) hown hrecorded happlied).reposted lost_ne_ok lost_ne_partial _).1

end

end

/-- Settles O37: by command; an answer's fields are those of its header flit (`messageFrame_low`), and the wait for APPLIED is followed through postings and
FENCEs (`Dev.settle_fences`). -/
theorem remoteAndMirrorAgree : Obligations.RemoteAndMirrorAgree := by
  unfold Obligations.RemoteAndMirrorAgree
  intro s
  refine ⟨fun dev t words => ⟨completes_remoteQuery_own, completes_remoteQuery_nowhere, fun hdev hv hup hq hroom hcredit =>
      completes_remoteQuery_leaves rfl hdev hv hup hq hroom hcredit⟩,
    fun ring seq status a ha hring hseq hlost hw => ⟨completes_applied_early ha hring hseq hw, completes_applied_same ha hring hseq hlost,
      fun o hown hne => completes_applied_differs ha hring hseq hlost hw hown hne⟩,
    fun crc hp => ⟨fun heq => completes_of_run rfl (if_pos (.inr heq)) (.refl _ _) rfl, completes_decisionDigest hp⟩, completes_mirrorSplit⟩

end Sys2Proof.Machine
end

section
/-! O34: lanes and bundles -/

namespace Sys2Proof.Machine
open Sys2Proof

/-- A device whose table of bundles is not in canonical form: of its two entries for bundle 0, reads find the first, which has no lane, and the owner of
lane 0 is the second. -/
def bundleTwice : Dev :=
  { State.reset.dev with link :=
    { en := true, lanes := [(0, { phase := .align })], bundles := [(0, { phase := .training }), (0, { en := true, mask := 1 })] } }

theorem bundleTwice_owned : (bundleTwice.laneOwner 0).bind (·.bundle) = some 0 := by rfl

theorem bundleTwice_stays : ((Dev.alignDone 0 bundleTwice).bd 0).phase = .training := by rfl

/-- Refutes O34: ALIGN_DONE of a lane whose bundle is in training need not bring the bundle up. Where the table of bundles lists one number twice, which
the statement does not exclude, the lane's owner is found in the second entry (`laneOwner`), while the bundle is read from the first, whose mask has no
lane: the bundle stays in training. -/
theorem not_lanesAndBundlesComeUpAndFall : ¬ Obligations.LanesAndBundlesComeUpAndFall := by
  unfold Obligations.LanesAndBundlesComeUpAndFall
  rintro ⟨hlanes, -⟩
  obtain ⟨-, -, halign, -⟩ := hlanes { dev := bundleTwice } 0 rfl
  obtain ⟨d, hexec, -, hup, -⟩ := halign 0 rfl bundleTwice_owned rfl rfl
  have hrun : exec (.alignDone 0) { dev := bundleTwice } = .next { dev := Dev.alignDone 0 bundleTwice } := rfl
  have hdev : Dev.alignDone 0 bundleTwice = d := congrArg State.dev (Host.Outcome.next.inj (hrun.symm.trans hexec))
  rw [← hdev, bundleTwice_stays] at hup
  cases hup

end Sys2Proof.Machine
end

section
/-! O49: operations that complete at once -/

namespace Sys2Proof.Machine
open Sys2Proof

/-- The device that a command answers is the one that its function gives. -/
theorem answer_of_run {c : Instr} {s : State} {f : Dev → Dev} {d : Dev} (hc : exec c s = run true f s) (h : exec c s = .next { s with dev := d }) :
    f s.dev = d := congrArg State.dev (Host.Outcome.next.inj (hc.symm.trans h))

/-- A FLOW_CLOSE of transmit flow 0, at slot 0 of ring pair 0. -/
def closing : RetEntry := { slot := 0, seq := 0, desc := BitVec.setWidth' (show 256 ≤ 512 by decide) (BitVec.ofNat 256 (0x21 + 2 ^ 192)), accept := true }

/-- A device with an open transmit flow 0 on port 0, subport 0, whose bridge buffer holds a peer delay request of its own (R195). -/
def delayWaits : Dev :=
  { State.reset.dev with
    rings := { pairs := [(0, { window := [closing] })] }
    media := { flows := [(1024, { opened := true })],
               eth := [(0, { bridgeQueue := [{ sub := 0, frame := { ptp := some { kind := .pdelayReq } } }] })] }
    time := { ports := [(0, { txlat := 1 })] } }

theorem delayWaits_canRun : CanRun delayWaits { ring := 0, slot := 0 } 0x21 closing where
  now := by rfl
  windows := by
    refine ⟨rfl, fun p hp => ?_⟩
    obtain rfl := List.mem_singleton.1 hp
    exact ⟨by decide, List.nodup_singleton _, by decide⟩
  free := nofun

/-- The request leaves as the flow closes, and the time unit keeps when it did. -/
theorem delayWaits_sent : ((Dev.flowClose { ring := 0, slot := 0 } delayWaits).timePort 0).reqSent = 2 ^ 16 := by rfl

/-- Refutes O49: FLOW_CLOSE of an open flow can change the time unit, which its clause leaves out of what changes. What waits in the bridge buffer of the
flow's port leaves as no release holds it back any more, and of a Pdelay_Req among it the time unit keeps its time of leaving (R195, R237). -/
theorem not_operationsComplete : ¬ Obligations.OperationsComplete := by
  unfold Obligations.OperationsComplete
  intro h
  obtain ⟨-, -, -, hclose, -⟩ := h { dev := delayWaits } { ring := 0, slot := 0 } closing
  obtain ⟨d, hexec, honly, -⟩ := (hclose delayWaits_canRun).2 rfl
  have hdev : Dev.flowClose { ring := 0, slot := 0 } delayWaits = d := answer_of_run rfl hexec
  have htime : d.time = delayWaits.time := honly .time (by decide)
  have hsent := delayWaits_sent
  rw [hdev, Dev.timePort, htime] at hsent
  exact absurd hsent (by decide)

end Sys2Proof.Machine
end

section
/-! Cold resets and monitored rails (17_power_reset_startup.md R459, R462) -/

namespace Sys2Proof.Machine
open Sys2Proof

-- cold resets (R459, R462)

/-- A cold reset of a device whose strongroom and power are `f` and `p`. -/
theorem Dev.coldReset_coldAfter (d : Dev) (f : Strong) (p : Power) : ColdAfter d (Dev.coldReset { d with strong := f, power := p }) f p where
  parts x hx := by
    cases x
    case free | out | ident | flash | record | fwres | tap | strong | power => exact absurd (by decide) hx
    all_goals rfl
  kept x hx := by
    simp only [List.mem_cons, List.not_mem_nil, or_false] at hx
    rcases hx with rfl | rfl | rfl | rfl | rfl | rfl <;> rfl
  strong := rfl
  power := rfl

theorem completes_cold {c : Instr} {s : State} {g : Dev → Dev} {f : Strong} {p : Power} (hc : exec c s = run true g s)
    (hg : g s.dev = Dev.coldReset { s.dev with strong := f, power := p }) : Completes c s c.parts fun d => ColdAfter s.dev d f p :=
  completes_framed hc hg (s.dev.coldReset_coldAfter f p)

theorem Dev.leaveCold_power (d : Dev) : d.leaveCold.power = { d.power with cold := d.power.cold && !(d.power.porst && d.power.good) } := by
  unfold Dev.leaveCold
  split
  · next h =>
    obtain ⟨-, hporst, hgood⟩ := h
    have hleft : (d.power.cold && !(d.power.porst && d.power.good)) = false := by rw [hporst, hgood, Bool.and_self, Bool.not_true, Bool.and_false]
    rw [hleft]
    rfl
  · next h =>
    have hheld : (d.power.cold && !(d.power.porst && d.power.good)) = d.power.cold := by
      cases hcold : d.power.cold with
      | false => rfl
      | true => exact (Bool.true_and _).trans (Bool.not_eq_true' _ ▸ Bool.eq_false_iff.2 fun hup => h ⟨hcold, (Bool.and_eq_true _ _).mp hup⟩)
    rw [hheld]

theorem Dev.leaveCold_now (d : Dev) : d.leaveCold.now = if d.power.cold = true ∧ d.power.porst = true ∧ d.power.good = true then 0 else d.now := by
  unfold Dev.leaveCold
  split <;> rfl

theorem Dev.leaveCold_tap (d : Dev) : d.leaveCold.tap = d.tap :=
  (Dev.leaveCold_keep (.refl [.now, .power] d) (by decide) (by decide)).tap.resolve_left (by decide)

theorem completes_porstN (s : State) : Completes .porstN s (Instr.parts .porstN)
    fun d => ColdAfter s.dev d { s.dev.strong with wipeCount := 0 } { s.dev.power with porst := false } := completes_cold rfl rfl

theorem completes_porstNRelease {s : State} : let p := s.dev.power
    Completes .porstNRelease s [.now, .power, .tap] fun d =>
      d.power = { p with porst := true, cold := p.cold && !p.good } ∧ d.now = (if p.cold = true ∧ p.good = true then 0 else s.dev.now) ∧
      d.tap = if s.dev.tap.pins = true then { s.dev.tap with instr := .bypass, pins := false } else s.dev.tap := by
  refine completes_of_run (f := Dev.porstNRelease) rfl rfl (Dev.porstNRelease_keep (.refl _ _) (by decide) (by decide) (by decide)) ⟨Dev.leaveCold_power _, ?_, ?_⟩
  · refine (Dev.leaveCold_now _).trans (if_congr ?_ rfl rfl)
    exact ⟨fun h => ⟨h.1, h.2.2⟩, fun h => ⟨h.1, rfl, h.2⟩⟩
  · exact Dev.leaveCold_tap _

theorem completes_powerGood {s : State} : let p := s.dev.power
    Completes .powerGood s [.now, .power] fun d => d.now = (if p.cold = true ∧ p.porst = true then 0 else s.dev.now) ∧
      d.power = { p with good := true, railsOut := p.railsOut.filter isVccio, cold := p.cold && !p.porst } := by
  refine completes_of_run (f := Dev.powerGood) rfl rfl (Dev.powerGood_keep (.refl _ _) (by decide) (by decide)) ⟨?_, ?_⟩
  · refine (Dev.leaveCold_now _).trans (if_congr ?_ rfl rfl)
    exact ⟨fun h => ⟨h.1, h.2.1⟩, fun h => ⟨h.1, h.2, rfl⟩⟩
  · exact (Dev.leaveCold_power _).trans (congrArg (fun up => ({ s.dev.power with
      good := true, railsOut := s.dev.power.railsOut.filter isVccio, cold := s.dev.power.cold && !up } : Power)) (Bool.and_true s.dev.power.porst))

-- monitored rails (R459, R433)

section
variable {s : State} {r : Rail}

/-- Power as a rail leaves its range. -/
def Power.without (p : Power) (r : Rail) : Power := { p with railsOut := r :: p.railsOut, good := p.good && isVccio r }

theorem Dev.railFault_lost {d : Dev} (hin : r ∉ d.power.railsOut) : Dev.railFault r false d =
    if tamperRail r = true then Dev.wipe (d.putPower (d.power.without r)) 0
    else if d.power.cold = true then d.putPower (d.power.without r)
    else if d.power.stage < 6 ∧ (!isVccio r) = true then (d.putPower (d.power.without r)).coldReset
    else (d.putPower { d.power with railsOut := r :: d.power.railsOut }).raise 708 := by
  unfold Dev.railFault
  dsimp only
  rw [if_neg Bool.false_ne_true, if_neg (ne_true_of_eq_false (decide_eq_false hin))]
  rfl

theorem completes_railTampers (hin : r ∉ s.dev.power.railsOut) (ht : tamperRail r = true) :
    Completes (.railFault r false) s (Instr.parts (.railFault r false)) fun d => ColdAfter s.dev d (s.dev.strong.wiped 0) (s.dev.power.without r) :=
  completes_cold (g := Dev.railFault r false) rfl ((Dev.railFault_lost hin).trans (if_pos ht))

theorem completes_railHeld (hin : r ∉ s.dev.power.railsOut) (ht : tamperRail r = false) (hc : s.dev.power.cold = true) :
    Completes (.railFault r false) s [.power] fun d => d.power = s.dev.power.without r :=
  completes_of_run (f := Dev.railFault r false) rfl ((Dev.railFault_lost hin).trans ((if_neg (ne_true_of_eq_false ht)).trans (if_pos hc)))
    (Dev.putPower_keep (.refl _ _) (by decide) _) rfl

theorem completes_railResets (hin : r ∉ s.dev.power.railsOut) (ht : tamperRail r = false) (hc : s.dev.power.cold = false) (hs : s.dev.power.stage < 6)
    (hv : isVccio r = false) :
    Completes (.railFault r false) s (Instr.parts (.railFault r false)) fun d => ColdAfter s.dev d s.dev.strong (s.dev.power.without r) :=
  completes_cold (g := Dev.railFault r false) rfl ((Dev.railFault_lost hin).trans ((if_neg (ne_true_of_eq_false ht)).trans
    ((if_neg (ne_true_of_eq_false hc)).trans (if_pos ⟨hs, (congrArg not hv :)⟩))))

theorem completes_railNoted (hin : r ∉ s.dev.power.railsOut) (ht : tamperRail r = false) (hc : s.dev.power.cold = false)
    (hs : 6 ≤ s.dev.power.stage ∨ isVccio r = true) : Completes (.railFault r false) s [.events, .power] fun d =>
      d.power = { s.dev.power with railsOut := r :: s.dev.power.railsOut } ∧ Raised s.dev d 708 := by
  have hstays : ¬ (s.dev.power.stage < 6 ∧ (!isVccio r) = true) := fun ⟨hlt, hv⟩ =>
    hs.elim (fun h => absurd hlt (BitVec.not_lt.2 h)) fun h => by rw [h] at hv; cases hv
  exact completes_of_run (f := Dev.railFault r false) rfl ((Dev.railFault_lost hin).trans ((if_neg (ne_true_of_eq_false ht)).trans
    ((if_neg (ne_true_of_eq_false hc)).trans (if_neg hstays)))) (Dev.raise_keep (Dev.putPower_keep (.refl _ _) (by decide) _) (by decide) _ _)
    ⟨rfl, Dev.raise_raised rfl _⟩

theorem completes_railReturns (hout : r ∈ s.dev.power.railsOut) (ht : tamperRail r = false) (hc : s.dev.power.cold = false) :
    Completes (.railFault r true) s [.events, .power] fun d =>
      d.power = { s.dev.power with railsOut := s.dev.power.railsOut.erase r } ∧ Raised s.dev d 708 := by
  have hquiet : ¬ (tamperRail r = true ∨ s.dev.power.cold = true) := by rw [ht, hc]; decide
  have hback : Dev.railFault r true s.dev = (s.dev.putPower { s.dev.power with railsOut := s.dev.power.railsOut.erase r }).raise 708 := by
    unfold Dev.railFault
    dsimp only
    rw [if_pos rfl, if_neg (by rw [decide_eq_true hout]; decide), if_neg hquiet]
  exact completes_of_run (f := Dev.railFault r true) rfl hback
    (Dev.raise_keep (Dev.putPower_keep (.refl _ _) (by decide) _) (by decide) _ _) ⟨rfl, Dev.raise_raised rfl _⟩

end

end Sys2Proof.Machine
end

section
/-! The start of the cores (R465): the record's ceilings, the fuse box and the stack's key -/

namespace Sys2Proof.Machine
open Sys2Proof

-- a wipe that waits to be told (R435), through the fuse box's writes and release

section
variable {c d e : Dev}

theorem fuseLogged_wipePending {g : Strong} {fz f : Fuse} {kind ev : Nat} {ts : Instant} {count react : Nat} {beat : Beat} {detail : BitVec 64} :
    (fuseLogged g fz f kind ev ts count react beat detail).1.wipePending = g.wipePending := by
  unfold fuseLogged
  by_cases h : (if kind = 0 then 64 else 0) < fz.logFree
  · rw [if_pos h]
  · rw [if_neg h]

theorem Dev.logFuse_wipePending (d : Dev) (kind ev : Nat) (ts : Instant) (count react : Nat) (beat : Beat) (detail : BitVec 64) :
    (d.logFuse kind ev ts count react beat detail).strong.wipePending = d.strong.wipePending := by
  rw [Dev.logFuse_eq]
  exact fuseLogged_wipePending

theorem Dev.ack_wipePending (d : Dev) (ev : Nat) : (d.ack ev).strong.wipePending = d.strong.wipePending := by
  unfold Dev.ack
  dsimp only
  split
  · exact Dev.logFuse_wipePending ..
  · refine (Dev.logFuse_wipePending ..).trans (congrArg Strong.wipePending ?_)
    let ps : List Part := [.out, .events, .rooms, .media, .link, .fabric, .fuse]
    have hunlatched : Keep ps d ((d.modSrc ev fun y => { y with latched := false, held := 0, heldEg := 0 }).modFuse fun f =>
        { f with forces := f.forces.filter fun p => p.src.toNat != ev }) := Dev.modFuse_keep (Dev.modSrc_keep (.refl _ _) (by decide) _ _) (by decide) _
    have hforced := Keep.ite (c := (d.src ev).held.getLsbD 2 = true ∨ (d.src ev).held.getLsbD 7 = true)
      (Dev.reforce_keep hunlatched (by decide) (by decide)) hunlatched
    have hroom := Keep.ite (c := (d.src ev).held.getLsbD 3 = true) (Dev.releaseRoom_keep hforced (by decide) (by decide) (BitVec.ofNat 8 ev)) hforced
    exact (Keep.ite (Dev.laneStart_keep (Dev.modLane_keep hroom (by decide) _ _) (by decide) (by decide) (by decide) _) hroom).strong.resolve_left (by decide)

theorem Dev.writeFuseReg_wipePending (d : Dev) (off : Nat) (v : Word) : (d.writeFuseReg off v).strong.wipePending = d.strong.wipePending := by
  unfold Dev.writeFuseReg Dev.writeFuseAck
  dsimp only
  refine iteInduction (motive := fun e : Dev => e.strong.wipePending = d.strong.wipePending) (fun _ => rfl) fun _ => ?_
  refine iteInduction (motive := fun e : Dev => e.strong.wipePending = d.strong.wipePending)
    (fun _ => iteInduction (motive := fun e : Dev => e.strong.wipePending = d.strong.wipePending) (fun _ => d.ack_wipePending _) fun _ => rfl) fun _ => ?_
  refine iteInduction (motive := fun e : Dev => e.strong.wipePending = d.strong.wipePending) (fun _ => rfl) fun _ => ?_
  refine iteInduction (motive := fun e : Dev => e.strong.wipePending = d.strong.wipePending) (fun _ => rfl) fun _ => ?_
  refine congrArg Strong.wipePending (Keep.strong (ps := [.media, .fabric, .fuse]) ?_ |>.resolve_left (by decide))
  refine .ite (.ite (Dev.modSrc_keep ?_ (by decide) _ _) ?_) (.ite (.ite (Dev.writeFuseCfg_keep (.refl _ _) (by decide) _ _)
    (Dev.modSrc_keep (.refl _ _) (by decide) _ _)) (.ite (Dev.reforce_keep ?_ (by decide) (by decide)) (.refl _ _)))
  all_goals exact Dev.modFuse_keep (.refl _ _) (by decide) _

/-- The parts that a write of the fuse box's configuration can change. -/
def fuseParts : List Part := [.out, .events, .rooms, .media, .link, .fabric, .fuse, .strong]

theorem Dev.applyRecord_fuse {ps : List Part} (hps : ∀ p ∈ fuseParts, p ∈ ps) (h : Keep ps c d) :
    Keep ps c (d.applyRecord true) ∧ (d.applyRecord true).strong.wipePending = d.strong.wipePending := by
  unfold Dev.applyRecord
  generalize hws : d.record.writes.filter _ = ws
  have hfuse : ∀ w ∈ ws, w.block = 3 := fun w hw => by
    rw [← hws] at hw
    exact eq_of_beq (eq_of_beq (List.mem_filter.1 hw).2)
  clear hws
  refine List.foldlRecOn (motive := fun e : Dev => Keep ps c e ∧ e.strong.wipePending = d.strong.wipePending) ws _ ⟨h, rfl⟩ fun e ⟨hkept, hwipe⟩ w hw => ?_
  have hblock : e.recordWrite w = if 0x1000 ≤ w.off.toNat then e.writeFuseReg w.off.toNat w.v else e := by
    unfold Dev.recordWrite
    rw [hfuse w hw]
    rfl
  rw [hblock]
  split
  · exact ⟨Dev.writeFuseReg_keep hkept (hps _ (by decide)) (hps _ (by decide)) (hps _ (by decide)) (hps _ (by decide)) (hps _ (by decide)) (hps _ (by decide))
        (hps _ (by decide)) (hps _ (by decide)) _ _,
      (e.writeFuseReg_wipePending _ _).trans hwipe⟩
  · exact ⟨hkept, hwipe⟩

/-- The release leaves the box released, and a wipe that waits to be told waiting. -/
theorem Dev.fuseRelease_opens (d : Dev) : d.fuseRelease.fuse.released = true ∧ d.fuseRelease.strong.wipePending = d.strong.wipePending := by
  cases hr : d.fuse.released with
  | true =>
    have hstays : d.fuseRelease = d := if_pos hr
    rw [hstays]
    exact ⟨hr, rfl⟩
  | false =>
    rw [Dev.fuseRelease_eq hr]
    refine Dev.each_induct (P := fun e => e.fuse.released = true ∧ e.strong.wipePending = d.strong.wipePending) ⟨?_, Dev.logFuse_wipePending ..⟩
      fun e ev ⟨hreleased, hwipe⟩ => ?_
    · unfold Dev.fuseOpened
      rw [Dev.logFuse_eq]
      exact fuseLogged_released
    · unfold Dev.releaseStep
      refine iteInduction (motive := fun e : Dev => e.fuse.released = true ∧ e.strong.wipePending = d.strong.wipePending) (fun _ => ⟨hreleased, hwipe⟩) fun _ => ?_
      unfold Dev.fuseReceive
      rw [if_neg (by rw [hreleased]; decide)]
      exact ⟨hreleased, hwipe⟩

end

-- start-up's cores (R465)

section
variable {c d e : Dev}

/-- A core starts without a record where its stream is off. -/
theorem Dev.startCore_untraced {c : BitVec 4} (h : (d.stream c.toNat).en = false) : d.startCore c = d.modCore c (·.started d.now) :=
  if_neg (ne_true_of_eq_false h)

/-- Cores whose streams are off start, one after another. -/
theorem Dev.startCores_untraced {ps : List Part} (cs : List (BitVec 4)) (hcores : .cores ∈ ps) (hkeep : Keep ps c d)
    (h : ∀ c ∈ cs, (d.stream c.toNat).en = false) :
    let e := d.each cs Dev.startCore
    Keep ps c e ∧ e.cores.sb = d.cores.sb ∧ ∀ c, c ∈ cs ∨ (d.core c).phase = .run → (e.core c).phase = .run := by
  induction cs generalizing d with
  | nil => exact ⟨hkeep, rfl, fun c hc => hc.resolve_left (List.not_mem_nil)⟩
  | cons c cs ih =>
    have hfirst := Dev.startCore_untraced (h c (List.mem_cons_self ..))
    obtain ⟨hkept, hsb, hrun⟩ := ih (d := d.startCore c) (hfirst ▸ Dev.modCore_keep hkeep hcores _ _)
      fun i hi => by rw [hfirst]; exact h i (List.mem_cons_of_mem _ hi)
    refine ⟨hkept, ?_, fun i hi => hrun i ?_⟩
    · exact hsb.trans (by rw [hfirst]; rfl)
    · by_cases hic : i = c
      · rw [hic, (d.startCore_shown c).1]
        exact .inr rfl
      · rw [(d.startCore_shown c).2.1 i hic]
        exact hi.imp_left fun hm => (List.mem_cons.1 hm).resolve_left hic

/-- The cores start, are measured, and the firmware configuration record's ceilings and fuse box are taken (R465). -/
def Dev.coresUp (d : Dev) : Dev :=
  let d := d.modCores Cores.reloadStandby
  let d := d.each [0, 1, 2, 3] Dev.startCore
  let m : Measure := { kind := 2, index := 0, secver := d.cores.secver.toNat, aux := d.cores.version.setWidth 64, hash := d.cores.hash }
  (((d.measure m).measure { m with kind := 3 }).recordCeiling.applyRecord true).fuseRelease

/-- A wipe that waits to be told raises its event (R435). -/
def Dev.wipeTold (d : Dev) : Dev :=
  if d.strong.wipePending then (d.modStrong fun s => { s with wipePending := false }).raise 640 d.strong.wipeCause.toNat else d

/-- The stack's key, its repairs and the clearing of its metadata (R465). -/
def Dev.stackUp (d : Dev) : Dev :=
  let d := (d.modCellar fun c => { (c.loadKey 0 (Config.random d.free)) with
    training := false, pcRepair := d.flash, clearing := true, open_ := d.record.openArea }).take 1
  (d.modTime fun t => { t with ref10 := d.record.ref10 }).modPower fun p => { p with stage := 3 }

theorem Dev.endCores_up (h : d.strong.rngok = true) : d.endCores = d.coresUp.wipeTold.stackUp := if_neg (by rw [h]; decide)

/-- What the cores' start leaves, where no core's stream is on. -/
structure Dev.StartsCores (d e : Dev) : Prop where
  kept : Keep [.out, .events, .rooms, .media, .link, .fabric, .cores, .fuse, .strong, .power] d e
  power : e.power = { d.power with ceil := d.record.ceil,
                                   hubres := if d.record.hubres.toNat + 10 ≤ d.record.ceil.toNat then d.record.hubres else d.record.ceil - 10 }
  released : e.fuse.released = true
  wipe : e.strong.wipePending = d.strong.wipePending
  standby : e.cores.sb = .ready
  run (k : BitVec 4) : k < 4 → (e.core k).phase = .run

theorem mem_firmwareCores {k : BitVec 4} (h : k < 4) : k ∈ ([0, 1, 2, 3] : List (BitVec 4)) := by
  revert k
  decide

theorem Dev.coresUp_starts (h : ∀ k < 4, (d.stream k).en = false) : d.StartsCores d.coresUp := by
  have hoff : ∀ k ∈ ([0, 1, 2, 3] : List (BitVec 4)), ((d.modCores Cores.reloadStandby).stream k.toNat).en = false :=
    fun k hk => h k.toNat (by revert k; decide)
  obtain ⟨hcores, hsb, hrun⟩ := Dev.startCores_untraced (c := d) (ps := [.cores]) [0, 1, 2, 3] (by decide) (Dev.modCores_keep (.refl _ _) (by decide) _) hoff
  obtain ⟨hkept, -, -⟩ := Dev.startCores_untraced (c := d) (ps := [.out, .events, .rooms, .media, .link, .fabric, .cores, .fuse, .strong, .power])
    [0, 1, 2, 3] (by decide) (Dev.modCores_keep (.refl _ _) (by decide) _) hoff
  unfold Dev.coresUp
  dsimp only
  generalize (d.modCores Cores.reloadStandby).each [0, 1, 2, 3] Dev.startCore = b at hcores hsb hrun hkept ⊢
  generalize hm : (b.measure _).measure _ = m
  have hmeasured : Keep [.strong] b m := hm ▸ Dev.measure_keep (Dev.measure_keep (.refl _ _) (by decide) _) (by decide) _
  have hmkept := Dev.measure_keep (Dev.measure_keep hkept (by decide) { kind := 2, index := 0, secver := b.cores.secver.toNat, aux := b.cores.version.setWidth 64, hash := b.cores.hash }) (by decide)
    { kind := 3, index := 0, secver := b.cores.secver.toNat, aux := b.cores.version.setWidth 64, hash := b.cores.hash }
  rw [hm] at hmkept
  have hwipe : m.strong.wipePending = d.strong.wipePending := by
    rw [← hm]
    exact (congrArg Strong.wipePending (hcores.strong.resolve_left (by decide)) :)
  have hrecord : m.record = d.record := (hmeasured.record.resolve_left (by decide)).trans (hcores.record.resolve_left (by decide))
  have hpower : m.power = d.power := (hmeasured.power.resolve_left (by decide)).trans (hcores.power.resolve_left (by decide))
  have hmcores : m.cores = b.cores := hmeasured.cores.resolve_left (by decide)
  have hceil : m.recordCeiling.power = { d.power with
      ceil := d.record.ceil, hubres := if d.record.hubres.toNat + 10 ≤ d.record.ceil.toNat then d.record.hubres else d.record.ceil - 10 } := by
    rw [← hpower, ← hrecord]
    rfl
  obtain ⟨hfuse, hfusewipe⟩ := Dev.applyRecord_fuse (ps := fuseParts) (fun _ h => h) (.refl _ m.recordCeiling)
  obtain ⟨hall, -⟩ := Dev.applyRecord_fuse (by decide) (Dev.recordCeiling_keep hmkept (by decide))
  obtain ⟨hreleased, hreleasewipe⟩ := (m.recordCeiling.applyRecord true).fuseRelease_opens
  have hlast := Dev.fuseRelease_keep hfuse (by decide) (by decide) (by decide)
  have hlastcores : (m.recordCeiling.applyRecord true).fuseRelease.cores = b.cores := (hlast.cores.resolve_left (by decide)).trans hmcores
  refine ⟨Dev.fuseRelease_keep hall (by decide) (by decide) (by decide), (hlast.power.resolve_left (by decide)).trans hceil, hreleased,
    hreleasewipe.trans (hfusewipe.trans hwipe), ?_, fun k hk => ?_⟩
  · rw [hlastcores, hsb]
    rfl
  · unfold Dev.core
    rw [hlastcores]
    exact hrun k (.inl (mem_firmwareCores hk))

theorem Dev.wipeTold_tells (d : Dev) : Keep [.events, .strong] d d.wipeTold ∧ d.wipeTold.strong.wipePending = false ∧
    (d.strong.wipePending = true → OnTheWay d.wipeTold 640) := by
  unfold Dev.wipeTold
  split
  · exact ⟨Dev.raise_keep (Dev.modStrong_keep (.refl _ _) (by decide) _ (.same rfl rfl rfl rfl rfl rfl rfl rfl rfl)) (by decide) _ _, rfl,
      fun _ => ⟨_, Dev.enRoute_raise _ 640 _, rfl⟩⟩
  · next hw => exact ⟨.refl _ _, Bool.eq_false_iff.2 hw, fun h => absurd h hw⟩

theorem completes_coresStart {s : State} (hc : s.dev.power.cold = false) (hs : s.dev.power.stage = 2) (hr : s.dev.strong.rngok = true)
    (hoff : ∀ k < 4, (s.dev.stream k).en = false) : let r := s.dev.record
    Completes (.startupStage .done) s (Instr.parts (.startupStage .done)) fun d =>
      d.power = { s.dev.power with stage := 3, ceil := r.ceil, hubres := if r.hubres.toNat + 10 ≤ r.ceil.toNat then r.hubres else r.ceil - 10 } ∧
      d.fuse.released = true ∧ d.cores.sb = .ready ∧ (∀ k : BitVec 4, k < 4 → (d.core k).phase = .run) ∧
      d.time = { s.dev.time with ref10 := r.ref10 } ∧
      d.cellar = { (s.dev.cellar.loadKey 0 (Config.random s.dev.free)) with
        training := false, pcRepair := s.dev.flash, clearing := true, open_ := BitVec.ofNat 6 (min 56 r.open_.toNat) } ∧
      d.strong.wipePending = false ∧ (s.dev.strong.wipePending = true → OnTheWay d 640) := by
  have hrun : Dev.startupStage .done s.dev = s.dev.coresUp.wipeTold.stackUp := by
    refine Eq.trans ?_ (Dev.endCores_up hr)
    unfold Dev.startupStage
    rw [if_neg (by rw [hc]; decide), if_neg (by rw [hs]; decide), if_neg (by rw [hs]; decide), if_neg (fun h => h rfl), if_pos hs]
  have hup := Dev.coresUp_starts hoff
  obtain ⟨htold, hwipe, hevent⟩ := s.dev.coresUp.wipeTold_tells
  generalize s.dev.coresUp = e at hup htold hwipe hevent hrun
  generalize e.wipeTold = w at htold hwipe hevent hrun
  have hrecord : w.record = s.dev.record := (htold.record.resolve_left (by decide)).trans (hup.kept.record.resolve_left (by decide))
  have hflash : w.flash = s.dev.flash := (htold.flash.resolve_left (by decide)).trans (hup.kept.flash.resolve_left (by decide))
  have hfree : w.free = s.dev.free := (htold.free.resolve_left (by decide)).trans (hup.kept.free.resolve_left (by decide))
  have hcellar : w.cellar = s.dev.cellar := (htold.cellar.resolve_left (by decide)).trans (hup.kept.cellar.resolve_left (by decide))
  have htime : w.time = s.dev.time := (htold.time.resolve_left (by decide)).trans (hup.kept.time.resolve_left (by decide))
  have hpower := (htold.power.resolve_left (by decide)).trans hup.power
  have hfuse : w.fuse = e.fuse := htold.fuse.resolve_left (by decide)
  have hcores : w.cores = e.cores := htold.cores.resolve_left (by decide)
  refine completes_framed (f := Dev.startupStage .done) rfl hrun ⟨?_, ?_, ?_, ?_, ?_, ?_, hwipe, fun h => hevent (hup.wipe.trans h)⟩
  · exact congrArg (fun p => ({ p with stage := 3 } : Power)) hpower
  · exact (congrArg Fuse.released hfuse).trans hup.released
  · exact (congrArg Cores.sb hcores).trans hup.standby
  · intro k hk
    exact (congrArg (fun x : Cores => (Tbl.get ({} : Core) x.cores k.toNat).phase) hcores).trans (hup.run k hk)
  · rw [← hrecord, ← htime]
    rfl
  · rw [← hrecord, ← hflash, ← hcellar, ← hfree]
    rfl

end

end Sys2Proof.Machine
end

section
/-! The stages of start-up (R464, R465) -/

namespace Sys2Proof.Machine
open Sys2Proof

-- the stages of start-up (R464, R465)

section
variable {s : State} (hc : s.dev.power.cold = false)
include hc

theorem startupStage_rom (hs : s.dev.power.stage = 0) : Dev.startupStage .done s.dev = s.dev.endRom := by
  unfold Dev.startupStage
  rw [if_neg (by rw [hc]; decide), if_pos hs, if_pos rfl]

theorem startupStage_fwload (hs : s.dev.power.stage = 1) (x : StageEnd) : Dev.startupStage x s.dev = s.dev.endFwload x := by
  unfold Dev.startupStage
  rw [if_neg (by rw [hc]; decide), if_neg (by rw [hs]; decide), if_pos hs]

/-- From stage 3 on. -/
theorem startupStage_late (h0 : s.dev.power.stage ≠ 0) (h1 : s.dev.power.stage ≠ 1) (h2 : s.dev.power.stage ≠ 2) : Dev.startupStage .done s.dev =
    let d := s.dev
    if d.power.stage = 3 then (if d.cellar.clearing ∨ d.cellar.startup then d else d.modPower fun p => { p with stage := 4 })
    else if d.power.stage = 4 then
      let d := ((d.applyRecord false).modTime fun t => { t with enabled := true }).modPower fun p => { p with stage := 5 }
      if (d.time.lockedOnce ∧ d.time.src ≠ 3) ∨ d.record.freestart then d.armStart else d
    else if d.power.stage = 5 ∧ d.strong.rngok then
      ((d.putRings { d.rings with ready := true, recovering := false }).putPower { d.power with stage := 6 }).raise 709
    else d := by
  unfold Dev.startupStage
  rw [if_neg (by rw [hc]; decide), if_neg h0, if_neg h1, if_neg fun h => h rfl, if_neg h2]

theorem completes_romDone (hs : s.dev.power.stage = 0) (hl : s.dev.strong.life ≠ .decommissioned) :
    Completes (.startupStage .done) s [.free, .cellar, .strong, .power] fun d =>
      d.power = { s.dev.power with stage := 1 } ∧ d.free = s.dev.free + 2 ∧
      d.cellar = { s.dev.cellar with nonce := (Config.random s.dev.free).setWidth 128 } ∧
      d.strong = { s.dev.strong with rngok := true, cmdNonce := (Config.random (s.dev.free + 1)).setWidth 128,
                                     measures := insertMeasure { kind := 1, index := 0, hash := Config.romHash } s.dev.strong.measures } := by
  have hkeep := Dev.endRom_keep (.refl [.free, .cellar, .strong, .power] s.dev) (by decide) (by decide) (by decide) (by decide)
  have hrom : s.dev.endRom = _ := if_neg hl
  exact completes_of_run (f := Dev.startupStage .done) rfl ((startupStage_rom hc hs).trans hrom) (hrom ▸ hkeep) ⟨rfl, rfl, rfl, rfl⟩

theorem completes_romHeld (hs : s.dev.power.stage = 0) (hl : s.dev.strong.life = .decommissioned) :
    Completes (.startupStage .done) s [] fun d => d = s.dev :=
  completes_of_run (f := Dev.startupStage .done) rfl ((startupStage_rom hc hs).trans (if_pos hl)) (.refl _ _) rfl

theorem completes_firmwareFrom (hs : s.dev.power.stage = 1) (hb : s.dev.power.bootsrc ≠ 2) :
    Completes (.startupStage .done) s [.cores, .power] (fun d => d.power = { s.dev.power with stage := 2 } ∧
      d.cores = { s.dev.cores with secver := Config.flashSecver, version := Config.flashVersion, hash := Config.flashHash }) ∧
    Completes (.startupStage .flashFailed) s [.power] (fun d => d.power = { s.dev.power with bootsrc := s.dev.power.bootsrc + 1 }) ∧
    Completes (.startupStage .deferred) s [.power] (fun d => d.power = { s.dev.power with bootsrc := 2 }) :=
  have hload (x : StageEnd) := (startupStage_fwload hc hs x).trans (if_neg hb)
  ⟨completes_of_run (f := Dev.startupStage .done) rfl (hload .done) (Dev.takeFirmware_keep (.refl _ _) (by decide) (by decide) _ _ _) ⟨rfl, rfl⟩,
    completes_of_run (f := Dev.startupStage .flashFailed) rfl (hload .flashFailed) (Dev.modPower_keep (.refl _ _) (by decide) _) rfl,
    completes_of_run (f := Dev.startupStage .deferred) rfl (hload .deferred) (Dev.modPower_keep (.refl _ _) (by decide) _) rfl⟩

theorem completes_metadataDone (hs : s.dev.power.stage = 3) (hclear : s.dev.cellar.clearing = false) (hstart : s.dev.cellar.startup = false) :
    Completes (.startupStage .done) s [.power] fun d => d.power = { s.dev.power with stage := 4 } := by
  have hdone : ¬ (s.dev.cellar.clearing = true ∨ s.dev.cellar.startup = true) := by rw [hclear, hstart]; decide
  refine completes_of_run (f := Dev.startupStage .done) rfl ((startupStage_late hc ?_ ?_ ?_).trans ((if_pos hs).trans (if_neg hdone)))
    (Dev.modPower_keep (.refl _ _) (by decide) _) rfl <;> rw [hs] <;> decide

theorem completes_readyDone (hs : s.dev.power.stage = 5) (hr : s.dev.strong.rngok = true) :
    Completes (.startupStage .done) s [.events, .rings, .power] fun d =>
      d.power = { s.dev.power with stage := 6 } ∧ d.rings = { s.dev.rings with ready := true, recovering := false } ∧ Raised s.dev d 709 := by
  refine completes_of_run (f := Dev.startupStage .done) rfl ((startupStage_late hc ?_ ?_ ?_).trans
    ((if_neg (by rw [hs]; decide)).trans ((if_neg (by rw [hs]; decide)).trans (if_pos ⟨hs, hr⟩))))
    (Dev.raise_keep (Dev.putPower_keep (Dev.putRings_keep (.refl [.events, .rings, .power] s.dev) (by decide) _ (by exact fun h => h)) (by decide) _) (by decide) _ _)
    ⟨rfl, rfl, Dev.raise_raised rfl _⟩ <;> rw [hs] <;> decide

end

-- what the configuration record's writes leave of the time unit (R465)

section
variable {c d e : Dev}

/-- Of the time unit only the subports' timing changes. -/
def Dev.TimedAs (d e : Dev) : Prop := ∃ ports, e.time = { d.time with ports }

theorem Dev.TimedAs.same (h : e.time = d.time) : d.TimedAs e := ⟨d.time.ports, h⟩

theorem Dev.TimedAs.trans (h : c.TimedAs d) (h' : d.TimedAs e) : c.TimedAs e := by
  obtain ⟨_, hd⟩ := h
  obtain ⟨ports, he⟩ := h'
  exact ⟨ports, by rw [he, hd]⟩

theorem Dev.loadTiming_timed (d : Dev) (n : Nat) : d.TimedAs (d.loadTiming n) :=
  Dev.each_induct (P := d.TimedAs) (.same rfl) fun _ _ h => h.trans ⟨_, rfl⟩

theorem Dev.writeEthReg_timed (d : Dev) (off : Nat) (v : Word) : d.TimedAs (d.writeEthReg off v) := by
  have hport (n : Nat) (p : EthPort) : d.TimedAs (d.setEth n p) := .same rfl
  unfold Dev.writeEthReg
  extract_lets n w p
  split
  · next was p1 p2 ok p3 d1 d2 _ _ =>
    have hloaded : d.TimedAs d2 := iteInduction (motive := d.TimedAs) (fun _ => (hport n p3).trans (Dev.loadTiming_timed _ n)) fun _ => hport n p3
    exact Dev.each_induct (P := d.TimedAs) hloaded fun _ _ h => h.trans (.same rfl)
  · exact hport _ _
  · exact .same rfl

theorem Dev.writeEthPort_timed (d : Dev) (off : Nat) (v : Word) : d.TimedAs (d.writeEthPort off v) := by
  unfold Dev.writeEthPort
  refine (d.writeEthReg_timed off v).trans (.same (Keep.time (ps := [.out, .events, .link]) ?_ |>.resolve_left (by decide)))
  exact .ite (Dev.lanesStart_keep (.refl _ _) (by decide) (by decide) (by decide) _) (.refl _ _)

theorem Dev.recordWrite_timed (d : Dev) (w : RecordWrite) : d.TimedAs (d.recordWrite w) := by
  let ps : List Part := [.out, .events, .rooms, .media, .link, .fabric, .fuse, .strong]
  have hkept {e : Dev} (h : Keep ps d e) : d.TimedAs e := .same (h.time.resolve_left (by decide))
  unfold Dev.recordWrite
  dsimp only
  split
  · exact hkept (.ite (Dev.writeFuseReg_keep (.refl _ _) (by decide) (by decide) (by decide) (by decide) (by decide) (by decide) (by decide) (by decide) _ _)
      (.refl _ _))
  · exact d.writeEthPort_timed _ _
  · exact hkept (Dev.writeSdiEngine_keep (.refl _ _) (by decide) (by decide) (by decide) (by decide) _ _)
  · exact hkept (Dev.writeLaneReg_keep (.refl _ _) (by decide) (by decide) (by decide) _ _ _)
  · exact hkept (Dev.writeLinkReg_keep (.refl _ _) (by decide) (by decide) (by decide) _ _)
  · exact .same rfl

theorem Dev.applyRecord_timed (d : Dev) (fuse : Bool) : d.TimedAs (d.applyRecord fuse) :=
  Dev.each_induct (P := d.TimedAs) (.same rfl) fun e w h => h.trans (e.recordWrite_timed w)

/-- A start that is asked for of an enabled unit at rest arms it (R239). -/
theorem Dev.armStart_arms (henabled : d.time.enabled = true) (hrun : d.time.run = false) : d.armStart.time.armed = true := by
  unfold Dev.armStart
  by_cases harmed : d.time.armed = true
  · rw [if_pos (.inr (.inr harmed))]
    exact harmed
  · rw [if_neg (by rw [henabled, hrun]; simpa using harmed)]
    rfl

end

/-- The beat generator may run from now on, and starts where the record or a reference that has locked asks for it (R465). -/
def Dev.timeUp (d : Dev) : Dev :=
  let d := (d.modTime fun t => { t with enabled := true }).modPower fun p => { p with stage := 5 }
  if (d.time.lockedOnce ∧ d.time.src ≠ 3) ∨ d.record.freestart then d.armStart else d

theorem Dev.timeUp_keep {ps : List Part} {c d : Dev} (h : Keep ps c d) (htime : .time ∈ ps) (hpower : .power ∈ ps) : Keep ps c d.timeUp :=
  have hup := Dev.modPower_keep (Dev.modTime_keep h htime _) hpower _
  .ite (Dev.armStart_keep hup htime) hup

theorem Dev.timeUp_shown (d : Dev) : d.timeUp.power = { d.power with stage := 5 } ∧ d.timeUp.time.enabled = true ∧
    ((d.time.lockedOnce = true ∧ d.time.src ≠ 3 ∨ d.record.freestart = true) → d.time.run = false → d.timeUp.time.armed = true) := by
  unfold Dev.timeUp
  generalize hup : (d.modTime fun t => { t with enabled := true }).modPower (fun p => { p with stage := 5 }) = u
  have henabled : u.time.enabled = true := hup ▸ rfl
  have hpower : u.power = { d.power with stage := 5 } := hup ▸ rfl
  have hkept := Dev.armStart_keep (.refl [.time] u) (by decide)
  have harmed : u.armStart.time.enabled = true := by
    unfold Dev.armStart
    split
    · exact henabled
    · exact henabled
  refine ⟨?_, ?_, fun hasks hrun => ?_⟩
  · exact iteInduction (motive := fun e : Dev => e.power = _) (fun _ => (hkept.power.resolve_left (by decide)).trans hpower) fun _ => hpower
  · exact iteInduction (motive := fun e : Dev => e.time.enabled = true) (fun _ => harmed) fun _ => henabled
  · have hasks' : (u.time.lockedOnce = true ∧ u.time.src ≠ 3) ∨ u.record.freestart = true := hup ▸ hasks
    dsimp only
    rw [if_pos hasks']
    exact Dev.armStart_arms henabled (hup ▸ hrun)

theorem completes_recordDone {s : State} (hc : s.dev.power.cold = false) (hs : s.dev.power.stage = 4) :
    Completes (.startupStage .done) s (Instr.parts (.startupStage .done)) fun d =>
      (s.dev.record.writes = [] → Only [.time, .power] s.dev d) ∧ d.power = { s.dev.power with stage := 5 } ∧ d.time.enabled = true ∧
      ((s.dev.time.lockedOnce = true ∧ s.dev.time.src ≠ 3 ∨ s.dev.record.freestart = true) → s.dev.time.run = false → d.time.armed = true) := by
  have hrun : Dev.startupStage .done s.dev = (s.dev.applyRecord false).timeUp :=
    (startupStage_late hc (by rw [hs]; decide) (by rw [hs]; decide) (by rw [hs]; decide)).trans ((if_neg (by rw [hs]; decide)).trans (if_pos hs))
  have hempty : s.dev.record.writes = [] → s.dev.applyRecord false = s.dev := fun hw => by
    unfold Dev.applyRecord
    rw [hw]
    rfl
  have hkept := Dev.applyRecord_keep (.refl [.free, .out, .events, .rooms, .media, .time, .link, .fabric, .fuse, .strong] s.dev) (by decide) (by decide)
    (by decide) (by decide) (by decide) (by decide) (by decide) (by decide) (by decide) (by decide) false
  obtain ⟨ports, htime⟩ := s.dev.applyRecord_timed false
  generalize s.dev.applyRecord false = a at hrun hempty hkept htime
  obtain ⟨hpower, henabled, harmed⟩ := a.timeUp_shown
  rw [hkept.power.resolve_left (by decide)] at hpower
  rw [htime, hkept.record.resolve_left (by decide)] at harmed
  exact completes_framed (f := Dev.startupStage .done) rfl hrun
    ⟨fun hw => (Dev.timeUp_keep (hempty hw ▸ .refl _ _) (by decide) (by decide)).only, hpower, henabled, harmed⟩

end Sys2Proof.Machine
end

section
/-! Boot over PCIe (R374, R465) -/

namespace Sys2Proof.Machine
open Sys2Proof

-- boot over PCIe (R374, R465)

section
variable {d : Dev}

/-- What of an image has come over PCIe before. -/
def Dev.bootStart (d : Dev) : Staging := if d.loader.firmware.phase = .receiving then d.loader.firmware else { phase := .receiving }

/-- What has come, with the chunk in the boot window. -/
def Dev.bootFed (d : Dev) : Staging × Option ImgFault := d.stageFeed 0 d.bootStart (d.bootChunk d.bootStart)

/-- What of it fails a check: a frame, its kind, or the body once it is whole. -/
def Dev.bootFault (d : Dev) : Option ImgFault :=
  if d.bootFed.2.isSome then d.bootFed.2
  else if d.bootFed.1.checked ≠ 0 ∧ d.bootFed.1.kind ≠ 3 then some { status := 0x22, detail := 1, frame := headFrame }
  else if d.bootFed.1.checked = 2 ∧ d.bootFed.1.frames = imgFcount d.bootFed.1.head then d.bodyFault d.bootFed.1 else none

/-- What has come is kept; once it is whole the firmware is taken. -/
def Dev.bootTaken (d : Dev) : Dev :=
  let s := d.bootFed.1
  if s.checked = 2 ∧ s.frames = imgFcount s.head then
    (d.modLoader fun l => { l with firmware := { s with phase := .verified } }).takeFirmware (BitVec.ofNat 8 (imgSecver (s.head.take 512)))
      (Config.firmwareVersion s.body) (sha3 (s.head.take 512))
  else d.modLoader fun l => { l with firmware := s }

/-- The image is given up. -/
def Dev.bootFailed (d : Dev) (f : ImgFault) : Dev :=
  (d.modLoader fun l => { l with firmware := {} }).modPower fun p => { p with booterr := BitVec.ofNat 8 f.status }

theorem Dev.bootConsume_eq (d : Dev) : d.bootConsume = d.bootFault.elim d.bootTaken d.bootFailed := by
  unfold Dev.bootConsume Dev.bootTaken Dev.bootFailed Dev.bootFault Dev.bootFed Dev.bootStart
  dsimp only
  generalize d.stageFeed 0 _ _ = fed
  obtain ⟨st, bad⟩ := fed
  dsimp only
  generalize (if bad.isSome = true then bad else _) = fault
  cases fault <;> rfl

theorem Dev.bootFault_fed {f : ImgFault} (h : d.bootFed.2 = some f) : d.bootFault = some f := by
  unfold Dev.bootFault
  rw [h]
  rfl

theorem Dev.bootFault_none (h : d.bootFed.2 = none) (hk : d.bootFed.1.kind = 3)
    (hb : d.bootFed.1.checked = 2 ∧ d.bootFed.1.frames = imgFcount d.bootFed.1.head → d.bodyFault d.bootFed.1 = none) : d.bootFault = none := by
  unfold Dev.bootFault
  rw [h, if_neg (by decide), if_neg fun hkind => hkind.2 hk]
  split
  · next hwhole => exact hb hwhole
  · rfl

end

section
variable {s : State} (q : Requester) (w : Bytes)

/-- The device with a chunk of the image in the boot window (R374). -/
def Dev.windowed (d : Dev) (w : Bytes) : Dev := d.modSram fun m => { m with mem := Memory.writeN m.mem bootWindow (w.take bootSize) }

theorem bootgoWith_takes (hc : s.dev.power.cold = false) (hs : s.dev.power.stage = 1) (hb : s.dev.power.bootsrc = 2) (hq : s.dev.isPf q = true) :
    Dev.bootgoWith q w s.dev = (s.dev.windowed w).bootConsume := by
  have hboots : s.dev.power.bootsrc = 2 ∧ s.dev.power.stage = 1 ∧ (!s.dev.power.cold) = true := ⟨hb, hs, by rw [hc]; rfl⟩
  unfold Dev.bootgoWith
  rw [if_neg (by rw [hq]; decide), if_pos hboots]
  exact if_pos hboots

theorem completes_bootgo (hc : s.dev.power.cold = false) (hs : s.dev.power.stage = 1) (hb : s.dev.power.bootsrc = 2) (hq : s.dev.isPf q = true) :
    let l := s.dev.loader
    let filled := s.dev.windowed w
    let fed := filled.bootFed
    let whole : Prop := fed.1.checked = 2 ∧ fed.1.frames = imgFcount fed.1.head
    (∀ bad, fed.2 = some bad → Completes (.bootgo q w) s [.loader, .strong, .power] fun d =>
      d.loader = { l with firmware := {} } ∧ d.power = { s.dev.power with booterr := BitVec.ofNat 8 bad.status } ∧ d.strong = filled.strong) ∧
    (fed.2 = none → fed.1.kind = 3 → ¬ whole → Completes (.bootgo q w) s [.loader, .strong] fun d =>
      d.loader = { l with firmware := fed.1 } ∧ d.strong = filled.strong) ∧
    (fed.2 = none → fed.1.kind = 3 → whole → filled.bodyFault fed.1 = none → Completes (.bootgo q w) s [.loader, .cores, .strong, .power] fun d =>
      d.loader = { l with firmware := { fed.1 with phase := .verified } } ∧ d.power = { s.dev.power with stage := 2 } ∧ d.strong = filled.strong ∧
      d.cores = { s.dev.cores with secver := BitVec.ofNat 8 (imgSecver (fed.1.head.take 512)), version := Config.firmwareVersion fed.1.body,
                                   hash := sha3 (fed.1.head.take 512) }) := by
  have hrun := (bootgoWith_takes q w hc hs hb hq).trans (s.dev.windowed w).bootConsume_eq
  have hwindow {ps : List Part} (hin : .strong ∈ ps) : Keep ps s.dev (s.dev.windowed w) := Dev.modSram_keep (.refl _ _) hin _ fun m h => Memory.wf_writeN _ _ _ h
  have hloader : (s.dev.windowed w).loader = s.dev.loader := rfl
  have hpower : (s.dev.windowed w).power = s.dev.power := rfl
  have hcores : (s.dev.windowed w).cores = s.dev.cores := rfl
  dsimp only
  generalize s.dev.windowed w = e at hrun hwindow hloader hpower hcores ⊢
  rw [← hloader, ← hpower, ← hcores]
  refine ⟨fun bad hbad => ?_, fun hfed hkind hpart => ?_, fun hfed hkind hwhole hbody => ?_⟩
  · have hfault : e.bootFault.elim e.bootTaken e.bootFailed = e.bootFailed bad := by rw [Dev.bootFault_fed hbad]; rfl
    exact completes_of_run (f := Dev.bootgoWith q w) rfl (hrun.trans hfault)
      (Dev.modPower_keep (Dev.modLoader_keep (hwindow (by decide)) (by decide) _) (by decide) _) ⟨rfl, rfl, rfl⟩
  · have htaken : e.bootFault.elim e.bootTaken e.bootFailed = e.modLoader fun l => { l with firmware := e.bootFed.1 } := by
      rw [Dev.bootFault_none hfed hkind fun hwhole => absurd hwhole hpart]
      exact if_neg hpart
    exact completes_of_run (f := Dev.bootgoWith q w) rfl (hrun.trans htaken) (Dev.modLoader_keep (hwindow (by decide)) (by decide) _) ⟨rfl, rfl⟩
  · have htaken : e.bootFault.elim e.bootTaken e.bootFailed = e.bootTaken := by rw [Dev.bootFault_none hfed hkind fun _ => hbody]; rfl
    replace htaken := htaken.trans (if_pos hwhole)
    exact completes_of_run (f := Dev.bootgoWith q w) rfl (hrun.trans htaken)
      (Dev.takeFirmware_keep (Dev.modLoader_keep (hwindow (by decide)) (by decide) _) (by decide) (by decide) _ _ _) ⟨rfl, rfl, rfl, rfl⟩

theorem completes_bootgoIgnored (hq : s.dev.isPf q = true) (hno : s.dev.power.cold = true ∨ s.dev.power.stage ≠ 1 ∨ s.dev.power.bootsrc ≠ 2) :
    Completes (.bootgo q w) s [.hub] fun d => d.hub = { s.dev.hub with ignored := bumpAt s.dev.hub.ignored 0x11 } := by
  have hnone : ¬ (s.dev.power.bootsrc = 2 ∧ s.dev.power.stage = 1 ∧ (!s.dev.power.cold) = true) := fun ⟨hb, hs, hc⟩ =>
    hno.elim (fun h => by rw [h] at hc; cases hc) fun h => h.elim (· hs) (· hb)
  have hrun : Dev.bootgoWith q w s.dev = s.dev.ignore 0x11 := by
    unfold Dev.bootgoWith
    rw [if_neg (by rw [hq]; decide), if_neg hnone]
    exact if_neg hnone
  exact completes_of_run (f := Dev.bootgoWith q w) rfl hrun (Dev.ignore_keep (.refl _ _) (by decide) _) rfl

end

end Sys2Proof.Machine
end

section
/-! The halt of a warm reset (R463) -/

namespace Sys2Proof.Machine
open Sys2Proof

-- the halt of a warm reset (R463)

section
variable {c d e : Dev}

/-- The targets that a migration reserved are given back (R463). -/
def Dev.undoMigration (d : Dev) (p : FuncId × Migration) : Dev :=
  ((d.clearRooms (p.2.places.map (·.room))).modNet fun n => { n with reservations := n.reservations.filter fun x => !(x.func == p.1 && x.migrating) }).modFunc p.1
    fun f => { f with migration := none }

theorem Dev.undoMigration_funcs (d : Dev) (p : FuncId × Migration) :
    (d.undoMigration p).funcs = d.funcs.map fun f => if f.id = p.1 then { f with migration := none } else f :=
  congrArg (List.map fun f : Func => if f.id = p.1 then ({ f with migration := none } : Func) else f)
    ((Dev.clearRooms_keep (.refl [.rooms, .fuse] d) (by decide) (by decide) _).funcs.resolve_left (by decide))

/-- Where the migrations of all functions are dropped, none is left. -/
theorem Dev.undoMigrations_none (ms : List (FuncId × Migration)) (h : ∀ f ∈ d.funcs, f.migration = none ∨ ∃ m, (f.id, m) ∈ ms) :
    ∀ f ∈ (d.each ms Dev.undoMigration).funcs, f.migration = none := by
  induction ms generalizing d with
  | nil => exact fun f hf => (h f hf).resolve_right fun ⟨_, hm⟩ => List.not_mem_nil hm
  | cons p ms ih =>
    refine ih (d := d.undoMigration p) fun f hf => ?_
    rw [Dev.undoMigration_funcs] at hf
    obtain ⟨g, hg, rfl⟩ := List.mem_map.1 hf
    split
    · exact .inl rfl
    · next hid =>
      exact (h g hg).imp_right fun ⟨m, hm⟩ => ⟨m, (List.mem_cons.1 hm).resolve_left fun heq => hid (congrArg Prod.fst heq)⟩

/-- Operations of one kind begin again after a warm reset. -/
def Dev.restartOps (d : Dev) (op : Nat) : Dev :=
  d.each (d.openOps.filter fun p => descOpcode p.2.desc == op) fun d p => d.modEntry p.1 fun e => { e with started := false, args := none, ready := none }

theorem Dev.restartOps_keep {ps : List Part} (h : Keep ps c d) (hrings : .rings ∈ ps) (op : Nat) : Keep ps c (d.restartOps op) :=
  Dev.each_keep h fun _ _ h => Dev.modEntry_keep h hrings _ _ fun _ => rfl

theorem Dev.restartMigrations_eq (d : Dev) :
    d.restartMigrations = (d.each (d.funcs.filterMap fun f => f.migration.map (f.id, ·)) Dev.undoMigration).restartOps 0x12 := rfl

theorem Dev.restartMigrations_none (d : Dev) : ∀ f ∈ d.restartMigrations.funcs, f.migration = none := by
  rw [Dev.restartMigrations_eq]
  generalize hms : d.funcs.filterMap (fun f => f.migration.map (f.id, ·)) = ms
  have hnone : ∀ f ∈ (d.each ms Dev.undoMigration).funcs, f.migration = none := Dev.undoMigrations_none ms fun f hf => by
    cases hm : f.migration with
    | none => exact .inl rfl
    | some m => exact .inr ⟨m, hms ▸ List.mem_filterMap.2 ⟨f, hf, by rw [hm]; rfl⟩⟩
  rw [(Dev.restartOps_keep (.refl [.rings] (d.each ms Dev.undoMigration)) (by decide) 0x12).funcs.resolve_left (by decide)]
  exact hnone

/-- The write queues to the stack are empty after a drain; keys stand where they were empty before. -/
theorem Dev.drainWb_empties (n : Nat) (d : Dev) : (Dev.drainWb n d).cellar.wb = [] ∧ (d.cellar.wb = [] → (Dev.drainWb n d).cellar.keys = d.cellar.keys) := by
  induction n generalizing d with
  | zero => exact ⟨rfl, fun _ => rfl⟩
  | succ n ih =>
    unfold Dev.drainWb
    split
    · next hnext =>
      refine ⟨(ih _).1, fun hw => ?_⟩
      rw [Cellar.nextBack, hw] at hnext
      cases hnext
    · exact ⟨rfl, fun _ => rfl⟩

theorem Dev.debugEnd_locked (d : Dev) : d.debugEnd.strong.dbg.unlocked = false := by
  unfold Dev.debugEnd
  split
  · next h => exact (Bool.not_eq_true' _).mp h
  · rfl

/-- The time unit's servo holds its rate (R463). -/
def Dev.servoHeld (d : Dev) : Dev :=
  let d := d.modTime fun t => { t with tdc := Tbl.mapAll {} t.tdc (fun x => { x with fifo := [] }), sourcePresent := false }
  if d.time.src = 0 then d.setServo .holdover else d.holdover

theorem Dev.servoHeld_keep {ps : List Part} (h : Keep ps c d) (hevents : .events ∈ ps) (htime : .time ∈ ps) : Keep ps c d.servoHeld :=
  have hheld := Dev.modTime_keep h htime _
  .ite (Dev.setServo_keep hheld hevents htime _) (Dev.holdover_keep hheld hevents htime)

/-- Sweeps that hold or go on raise their event and no other (R178). -/
theorem Dev.syncSweeps_events {P : Occ → Prop} (hsweep : ∀ o : Occ, o.ev = 441 → P o) (h : ∀ o ∈ d.events, P o) : ∀ o ∈ d.syncSweeps.events, P o := by
  refine Dev.each_induct (P := fun e => ∀ o ∈ e.events, P o) h fun e p he => ?_
  dsimp only
  split
  · exact he
  · refine iteInduction (motive := fun e : Dev => ∀ o ∈ e.events, P o) (fun _ o ho => ?_) fun _ => he
    exact (List.mem_append.1 ho).elim (he o) fun hnew => hsweep o (by rw [List.mem_singleton.1 hnew]; rfl)
  · exact iteInduction (motive := fun e : Dev => ∀ o ∈ e.events, P o) (fun _ => he) fun _ => he

/-- What the halt at a warm reset's boundary leaves of a device (R463). -/
structure Dev.HaltsTo (d e : Dev) : Prop where
  power : e.power = { d.power with cnt := [], sensors := [], above := 0 }
  rings : e.rings.recovering = true ∧ e.rings.ready = false ∧ e.rings.linkUp = false
  events (o : Occ) : o ∈ e.events → o.ev = 441
  sched : e.sched = d.sched.warm
  released : e.fuse.released = false
  funcs (f : Func) : f ∈ e.funcs → f.migration = none
  written : e.cellar.wb = []
  keys : d.cellar.wb = [] → e.cellar.keys = d.cellar.keys
  locked : e.strong.dbg.unlocked = false

theorem Dev.warmHalt_halts (d : Dev) : d.HaltsTo d.warmHalt := by
  unfold Dev.warmHalt
  extract_lets n d1 d2 d3 d4 d5 d6 d7 d8
  have h1 := Dev.restartAdmissions_keep (.refl [.out, .events, .rooms, .funcs, .net, .link, .rings, .fuse] d) (by decide) (by decide) (by decide) (by decide)
    (by decide) (by decide) (by decide) (by decide)
  change Keep _ d d1 at h1
  clear_value d1
  have h2 : Keep [.out, .events, .rooms, .funcs, .net, .link, .rings, .fuse] d d2 := Dev.each_keep h1 fun _ _ h => Dev.modRoom_keep h (by decide) _ _
  clear_value d2
  have h3 := Dev.restartMigrations_keep h2 (by decide) (by decide) (by decide) (by decide) (by decide)
  have hnone := d2.restartMigrations_none
  change Keep _ d d3 at h3
  change ∀ f ∈ d3.funcs, f.migration = none at hnone
  clear_value d3
  have hwork := Dev.dropEvents_keep (Dev.putFuncs_keep h3 (by decide) (d3.funcs.map Func.halt)) (by decide)
  change Keep _ d d4 at hwork
  have hfuncs : ∀ f ∈ d4.funcs, f.migration = none := fun f hf => by
    obtain ⟨g, hg, rfl⟩ := List.mem_map.1 hf
    exact hnone g hg
  clear_value d4
  have hdrained : Keep [.free, .events, .cellar, .strong] d4 d5 :=
    Dev.debugEnd_keep (Dev.drainWb_keep (.refl _ _) (by decide) (by decide) (by decide) _) (by decide) (by decide)
  obtain ⟨hwb, hkeys⟩ := Dev.drainWb_empties (d4.cellar.wb.length + 1) d4
  have hcellar : d5.cellar = (Dev.drainWb (d4.cellar.wb.length + 1) d4).cellar :=
    (Dev.debugEnd_keep (.refl [.events, .strong] _) (by decide) (by decide)).cellar.resolve_left (by decide)
  have hlocked : d5.strong.dbg.unlocked = false := Dev.debugEnd_locked _
  rw [← hcellar] at hwb hkeys
  rw [hwork.cellar.resolve_left (by decide)] at hkeys
  clear_value d5
  have hpower : d6.power = { d5.power with cnt := [], sensors := [], above := 0 } := rfl
  have hrings : d6.rings = d5.rings.warm := rfl
  have hsched : d6.sched = d5.sched.warm := rfl
  have hsame : d6.funcs = d5.funcs ∧ d6.cellar.wb = d5.cellar.wb ∧ d6.cellar.keys = d5.cellar.keys ∧ d6.strong = d5.strong := ⟨rfl, rfl, rfl, rfl⟩
  have hheld : Keep [.events, .time, .fuse, .cellar] d6 d8 :=
    have hfifo := Dev.modTime_keep (.refl [.events, .time, .fuse, .cellar] d6) (by decide) _
    .ite (Dev.setServo_keep hfifo (by decide) (by decide) _) (Dev.holdover_keep hfifo (by decide) (by decide))
  have hstack : Keep [.events, .time, .fuse] d6 d8 :=
    have hfifo := Dev.modTime_keep (.refl [.events, .time, .fuse] d6) (by decide) _
    .ite (Dev.setServo_keep hfifo (by decide) (by decide) _) (Dev.holdover_keep hfifo (by decide) (by decide))
  clear_value d8 d7 d6
  have hend := Dev.fuseWarm_keep (Dev.dropEvents_keep hheld (by decide)) (by decide)
  have hclosed : d8.dropEvents.fuseWarm.fuse.released = false := rfl
  have hquiet : ∀ o ∈ d8.dropEvents.fuseWarm.events, o.ev = 441 := fun o ho => absurd ho List.not_mem_nil
  have hsweeps : d8.dropEvents.fuseWarm.cellar = d6.cellar := hstack.cellar.resolve_left (by decide)
  obtain ⟨hfuncs', hwb', hkeys', hstrong⟩ := hsame
  generalize d8.dropEvents.fuseWarm = f at hend hclosed hquiet hsweeps ⊢
  obtain ⟨z, hz⟩ := f.syncSweeps_cellar
  have hlast := Dev.syncSweeps_keep hend (by decide) (by decide)
  have hfuse := Dev.syncSweeps_keep (.refl [.events, .cellar] f) (by decide) (by decide)
  refine ⟨?_, ?_, f.syncSweeps_events (fun _ h => h) hquiet, ?_, ?_, ?_, ?_, fun hw => ?_, ?_⟩
  · rw [hlast.power.resolve_left (by decide), hpower, hdrained.power.resolve_left (by decide), hwork.power.resolve_left (by decide)]
  · rw [hlast.rings.resolve_left (by decide), hrings]
    exact ⟨rfl, rfl, rfl⟩
  · rw [hlast.sched.resolve_left (by decide), hsched, hdrained.sched.resolve_left (by decide), hwork.sched.resolve_left (by decide)]
  · rw [hfuse.fuse.resolve_left (by decide), hclosed]
  · rw [hlast.funcs.resolve_left (by decide), hfuncs', hdrained.funcs.resolve_left (by decide)]
    exact hfuncs
  · rw [hz, hsweeps]
    exact hwb'.trans hwb
  · rw [hz, hsweeps]
    exact hkeys'.trans (hkeys hw)
  · rw [hlast.strong.resolve_left (by decide), hstrong, hlocked]

end

end Sys2Proof.Machine
end

section
/-! A warm reset begins, and the hub returns (R461, R463) -/

namespace Sys2Proof.Machine
open Sys2Proof

-- a warm reset begins (R461, R463)

section
variable {s : State} {i : Instr} {f : Dev → Dev} {p : Power}

/-- The device as a warm reset that is accepted holds off the host (R463). -/
def Dev.warmAsked (d : Dev) (from_ : Beat) : Dev :=
  (d.putPower { d.power with stage := 7, returned := false, warmFrom := some from_ }).putRings { d.rings with recovering := true, ready := false }

theorem Dev.askWarm_accepted {d : Dev} (h : d.power.stage = 6) :
    d.askWarm = if d.time.run = true then d.warmAsked (d.time.n + 1) else (d.warmAsked d.time.n).warmHalt := by
  refine (if_pos h).trans ?_
  have hstart : d.startWarm = if d.time.run = true then d.warmAsked (if d.time.run = true then d.time.n + 1 else d.time.n)
      else (d.warmAsked (if d.time.run = true then d.time.n + 1 else d.time.n)).warmHalt := rfl
  rw [hstart]
  by_cases hrun : d.time.run = true
  · rw [if_pos hrun, if_pos hrun, if_pos hrun]
  · rw [if_neg hrun, if_neg hrun, if_neg hrun]

theorem completes_warmIgnored (hc : exec i s = run true f s) (hf : f s.dev = (s.dev.putPower p).askWarm) (hs : p.stage ≠ 6) :
    Completes i s [.power] fun d => d.power = { p with cnt := bumpAt p.cnt 2 } :=
  completes_of_run hc (hf.trans (if_neg hs)) (Dev.putPower_keep (Dev.putPower_keep (.refl _ _) (by decide) _) (by decide) _) rfl

theorem completes_warmWaits (hc : exec i s = run true f s) (hf : f s.dev = (s.dev.putPower p).askWarm) (hs : p.stage = 6) (hrun : s.dev.time.run = true) :
    Completes i s [.rings, .power] fun d => d.power = { p with stage := 7, returned := false, warmFrom := some (s.dev.time.n + 1) } ∧
      d.rings = { s.dev.rings with recovering := true, ready := false } :=
  completes_of_run hc (hf.trans ((Dev.askWarm_accepted (d := s.dev.putPower p) hs).trans (if_pos hrun)))
    (Dev.putRings_keep (Dev.putPower_keep (Dev.putPower_keep (.refl _ _) (by decide) _) (by decide) _) (by decide) _ (by exact fun h => h)) ⟨rfl, rfl⟩

theorem completes_warmHalts (hc : exec i s = run true f s) (hf : f s.dev = (s.dev.putPower p).askWarm) (hs : p.stage = 6) (hrun : s.dev.time.run = false) :
    Completes i s i.parts fun d =>
      d.power.stage = 7 ∧ d.power.warmFrom = some s.dev.time.n ∧ d.rings.recovering = true ∧ d.rings.ready = false ∧ d.rings.linkUp = false ∧
      (∀ o ∈ d.events, o.ev = 441) ∧ d.sched.tasks = [] ∧ d.sched.timers = Tbl.mapAll {} s.dev.sched.timers (fun t => { t with late := false }) ∧
      d.fuse.released = false ∧ ((s.dev.funcs.map (·.id)).Nodup → ∀ f ∈ d.funcs, f.migration = none) ∧
      d.cellar.wb = [] ∧ (s.dev.cellar.wb = [] → d.cellar.keys = s.dev.cellar.keys) ∧ d.strong.dbg.unlocked = false := by
  have hhalt := ((s.dev.putPower p).warmAsked s.dev.time.n).warmHalt_halts
  refine completes_framed hc (hf.trans ((Dev.askWarm_accepted (d := s.dev.putPower p) hs).trans (if_neg (ne_true_of_eq_false hrun)))) ?_
  change Dev.HaltsTo _ (((s.dev.putPower p).warmAsked (s.dev.putPower p).time.n).warmHalt) at hhalt
  generalize ((s.dev.putPower p).warmAsked (s.dev.putPower p).time.n).warmHalt = e at hhalt ⊢
  obtain ⟨hrecovering, hready, hlink⟩ := hhalt.rings
  exact ⟨congrArg Power.stage hhalt.power, congrArg Power.warmFrom hhalt.power, hrecovering, hready, hlink, hhalt.events, congrArg Sched.tasks hhalt.sched,
    congrArg Sched.timers hhalt.sched, hhalt.released, fun _ => hhalt.funcs, hhalt.written, hhalt.keys, hhalt.locked⟩

theorem completes_warmBegins (hc : exec i s = run true f s) (hf : f s.dev = (s.dev.putPower p).askWarm) :
    (p.stage ≠ 6 → Completes i s [.power] fun d => d.power = { p with cnt := bumpAt p.cnt 2 }) ∧
    (p.stage = 6 → s.dev.time.run = true → Completes i s [.rings, .power] fun d =>
      d.power = { p with stage := 7, returned := false, warmFrom := some (s.dev.time.n + 1) } ∧
      d.rings = { s.dev.rings with recovering := true, ready := false }) ∧
    (p.stage = 6 → s.dev.time.run = false → Completes i s i.parts fun d =>
      d.power.stage = 7 ∧ d.power.warmFrom = some s.dev.time.n ∧ d.rings.recovering = true ∧ d.rings.ready = false ∧ d.rings.linkUp = false ∧
      (∀ o ∈ d.events, o.ev = 441) ∧ d.sched.tasks = [] ∧ d.sched.timers = Tbl.mapAll {} s.dev.sched.timers (fun t => { t with late := false }) ∧
      d.fuse.released = false ∧ ((s.dev.funcs.map (·.id)).Nodup → ∀ f ∈ d.funcs, f.migration = none) ∧
      d.cellar.wb = [] ∧ (s.dev.cellar.wb = [] → d.cellar.keys = s.dev.cellar.keys) ∧ d.strong.dbg.unlocked = false) :=
  ⟨completes_warmIgnored hc hf, completes_warmWaits hc hf, completes_warmHalts hc hf⟩

end

-- the hub returns from a warm reset (R463)

theorem Dev.warmEnd_shown (d : Dev) : d.warmEnd.power = { d.power with warmFrom := none, returned := false } ∧
    Keep [.out, .events, .link, .power] d d.warmEnd ∧ ∀ o, d.EnRoute o → d.warmEnd.EnRoute o := by
  have hlanes := Dev.each_keep (l := Tbl.keys d.link.lanes) (.refl [.out, .events, .link] (d.putPower { d.power with warmFrom := none, returned := false }))
    fun _ l h => Dev.laneStart_keep h (by decide) (by decide) (by decide) l
  exact ⟨hlanes.power.resolve_left (by decide), Dev.warmEnd_keep (.refl _ _) (by decide) (by decide) (by decide) (by decide),
    fun o ho => Dev.each_induct (P := (Dev.EnRoute · o)) ho fun _ _ h => h.laneStart⟩

/-- The parts that the hub's return changes besides the hold on the host. -/
def returnParts : List Part := [.now, .free, .out, .events, .cellar, .link, .fabric, .rings, .cores, .sched, .fuse, .strong]

/-- The units as the hub returns: cores start, the fuse box opens, tasks and sweeps go on, the fabric and the rings return. -/
def Dev.unitsReturn (d : Dev) : Dev := ((d.coresReturn.fuseRelease.schedReturn).syncSweeps.fabricReturn.ringsReturn).raise 709

theorem Dev.unitsReturn_keep {c d : Dev} {ps : List Part} (hps : ∀ p ∈ returnParts, p ∈ ps) (h : Keep ps c d) : Keep ps c d.unitsReturn := by
  have hin {p : Part} (hp : p ∈ returnParts) : p ∈ ps := hps p hp
  have h1 := Dev.coresReturn_keep h (hin (by decide)) (hin (by decide)) (hin (by decide)) (hin (by decide)) (hin (by decide))
  have h2 := Dev.fuseRelease_keep h1 (hin (by decide)) (hin (by decide)) (hin (by decide))
  have h3 := Dev.schedReturn_keep h2 (hin (by decide)) (hin (by decide)) (hin (by decide)) (hin (by decide)) (hin (by decide))
  have h4 := Dev.fabricReturn_keep (Dev.syncSweeps_keep h3 (hin (by decide)) (hin (by decide))) (hin (by decide)) (hin (by decide)) (hin (by decide))
  exact Dev.raise_keep (Dev.ringsReturn_keep h4 (hin (by decide)) (hin (by decide)) (hin (by decide)) (hin (by decide)) (hin (by decide))) (hin (by decide)) _ _

/-- The fuse box is open, the rings are ready, and their events are on the way. -/
structure Dev.Returned (d : Dev) : Prop where
  released : d.fuse.released = true
  ready : d.rings.ready = true
  recovering : d.rings.recovering = false
  ready_ : OnTheWay d 709
  recovered : OnTheWay d 772

theorem Dev.unitsReturn_returned (d : Dev) : d.unitsReturn.Returned := by
  unfold Dev.unitsReturn
  have hreleased : d.coresReturn.fuseRelease.fuse.released = true := (Dev.fuseRelease_opens _).1
  generalize d.coresReturn.fuseRelease = b at hreleased ⊢
  have h3 := Dev.schedReturn_keep (.refl [.now, .free, .out, .events, .cellar, .link, .fabric, .rings, .cores, .sched] b) (by decide) (by decide) (by decide)
    (by decide) (by decide)
  have h4 := Dev.fabricReturn_keep (Dev.syncSweeps_keep h3 (by decide) (by decide)) (by decide) (by decide) (by decide)
  generalize b.schedReturn.syncSweeps.fabricReturn = e at h4 ⊢
  have h5 := Dev.ringsReturn_keep h4 (by decide) (by decide) (by decide) (by decide) (by decide)
  have hrings : e.ringsReturn.rings.ready = true ∧ e.ringsReturn.rings.recovering = false ∧ OnTheWay e.ringsReturn 772 := by
    unfold Dev.ringsReturn
    exact ⟨rfl, rfl, _, Dev.enRoute_raise _ 772 0, rfl⟩
  obtain ⟨hready, hrecovering, o, ho, hev⟩ := hrings
  exact ⟨(congrArg Fuse.released (h5.fuse.resolve_left (by decide))).trans hreleased, hready, hrecovering, ⟨_, Dev.enRoute_raise _ 709 0, rfl⟩,
    o, Dev.EnRoute.raise ho, hev⟩

/-- The warm reset is over: the device is back at its last stage. -/
def Dev.backUp (d : Dev) : Dev := d.putPower { d.power with stage := 6, returned := true }

theorem Dev.hubReturn_eq {d : Dev} (h : ¬ (d.power.stage ≠ 7 ∨ (!d.power.warmPin) = true ∨ (!d.halted) = true)) :
    d.hubReturn = if d.backUp.unitsReturn.time.run = true then d.backUp.unitsReturn else d.backUp.unitsReturn.warmEnd := by
  unfold Dev.hubReturn
  rw [if_neg h]
  extract_lets power up woken returned
  have hreturned : returned = (woken.syncSweeps.fabricReturn.ringsReturn).raise 709 := rfl
  have hwoken : woken = up.coresReturn.fuseRelease.schedReturn := rfl
  have hup : up = d.backUp := rfl
  clear_value returned woken up power
  rw [Dev.unitsReturn, hreturned, hwoken, hup]

theorem completes_hubReturn {s : State} (hs : s.dev.power.stage = 7) (hpin : s.dev.power.warmPin = true) (hhalt : s.dev.halted = true) :
    Completes .hubReturn s (Instr.parts .hubReturn) fun d =>
      d.power.stage = 6 ∧ d.rings.ready = true ∧ d.rings.recovering = false ∧ d.fuse.released = true ∧ OnTheWay d 709 ∧ OnTheWay d 772 ∧
      (s.dev.time.run = true → d.power = { s.dev.power with stage := 6, returned := true }) ∧
      (s.dev.time.run = false → d.power = { s.dev.power with stage := 6, returned := false, warmFrom := none }) := by
  have hreturns : ¬ (s.dev.power.stage ≠ 7 ∨ (!s.dev.power.warmPin) = true ∨ (!s.dev.halted) = true) := by rw [hs, hpin, hhalt]; decide
  have hrun := Dev.hubReturn_eq hreturns
  have hkept := Dev.unitsReturn_keep (fun _ h => h) (.refl returnParts s.dev.backUp)
  have hreturned := s.dev.backUp.unitsReturn_returned
  generalize s.dev.backUp.unitsReturn = e at hrun hkept hreturned
  have htime : e.time = s.dev.time := hkept.time.resolve_left (by decide)
  have hpower : e.power = { s.dev.power with stage := 6, returned := true } := hkept.power.resolve_left (by decide)
  obtain ⟨hreleased, hready, hrecovering, h709, h772⟩ := hreturned
  rw [htime] at hrun
  cases hr : s.dev.time.run with
  | true =>
    exact completes_framed (f := Dev.hubReturn) rfl (hrun.trans (if_pos hr))
      ⟨congrArg Power.stage hpower, hready, hrecovering, hreleased, h709, h772, fun _ => hpower, (fun h => nomatch h)⟩
  | false =>
    obtain ⟨hend, hkeep, hroute⟩ := e.warmEnd_shown
    have hlast : e.warmEnd.power = { s.dev.power with stage := 6, returned := false, warmFrom := none } :=
      hend.trans (congrArg (fun p => ({ p with warmFrom := none, returned := false } : Power)) hpower)
    have hrings : e.warmEnd.rings = e.rings := hkeep.rings.resolve_left (by decide)
    have hfuse : e.warmEnd.fuse = e.fuse := hkeep.fuse.resolve_left (by decide)
    have honward {ev : Nat} (h : OnTheWay e ev) : OnTheWay e.warmEnd ev := h.imp fun o ho => ⟨hroute o ho.1, ho.2⟩
    exact completes_framed (f := Dev.hubReturn) rfl (hrun.trans (if_neg (ne_true_of_eq_false hr)))
      ⟨congrArg Power.stage hlast, hrings ▸ hready, hrings ▸ hrecovering, hfuse ▸ hreleased, honward h709, honward h772, (fun h => nomatch h), fun _ => hlast⟩

end Sys2Proof.Machine
end

section
/-! O54: resets, start-up, warm reset and the TAP -/

namespace Sys2Proof.Machine
open Sys2Proof

-- the TAP (R483, R484)

/-- A code is that of an instruction of the list, or names none. -/
theorem tapOf_cases (code : BitVec 8) : tapOf code = .other code ∨ ∀ c, tapOf code ≠ .other c := by
  unfold tapOf
  split
  case h_9 => exact .inl rfl
  all_goals exact .inr nofun

section
variable {s : State} {pins scan : List (BoundaryPin × Bool)}

theorem Dev.tapInstruction_named {d : Dev} (hv : Rail.vaux ∉ d.power.railsOut) {i : TapInstr} (hi : ∀ c, i ≠ .other c) :
    Dev.tapInstruction i pins scan d =
      if tapDrives i = true then (if d.power.porst = true then d.loadTap .bypass false else (d.loadTap i true).boundary i pins scan)
      else (d.loadTap i false).boundary i pins scan := by
  cases i
  case other c => exact absurd rfl (hi c)
  all_goals exact if_neg hv

theorem Dev.tapInstruction_unlisted {d : Dev} (hv : Rail.vaux ∉ d.power.railsOut) {code : BitVec 8} (h : tapOf code = .other code) :
    Dev.tapInstruction (.other code) pins scan d =
      if d.debugLocked none = true then (d.loadTap .bypass false).lockedDebugAccess else d.loadTap (.other code) false := by
  unfold Dev.tapInstruction
  dsimp only
  rw [h]
  exact if_neg hv

theorem Dev.tapInstruction_listed {d : Dev} {code : BitVec 8} (h : tapOf code ≠ .other code) :
    Dev.tapInstruction (.other code) pins scan d = Dev.tapInstruction (tapOf code) pins scan d := by
  have hnamed := (tapOf_cases code).resolve_left h
  unfold Dev.tapInstruction
  dsimp only
  generalize tapOf code = i at hnamed
  cases i
  case other c => exact absurd rfl (hnamed c)
  all_goals rfl

theorem completes_tapLoads {i : TapInstr} {x : TapInstr} {b : Bool} (hrun : Dev.tapInstruction i pins scan s.dev = s.dev.loadTap x b) :
    Completes (.tapInstruction { instr := i, pins, scan }) s [.tap] fun d => d.tap = { s.dev.tap with instr := x, pins := b } :=
  completes_of_run (f := Dev.tapInstruction i pins scan) rfl hrun (Dev.putTap_keep (.refl _ _) (by decide) _) rfl

/-- What the instruction at the boundary register leaves, and what the pins are driven with. -/
theorem completes_tapDrives {i : TapInstr} {t : Tap} {out : List (BoundaryPin × Bool)} (hv : Rail.vaux ∉ s.dev.power.railsOut)
    (hp : s.dev.power.porst = false) (hi : ∀ c, i ≠ .other c) (hd : tapDrives i = true)
    (hb : (s.dev.loadTap i true).boundary i pins scan = (s.dev.putTap t).emit (.boundary i out)) :
    Completes (.tapInstruction { instr := i, pins, scan }) s [.out, .tap] fun d => d.tap = t ∧ Sys2Proof.Sent s.dev d (.boundary i out) :=
  completes_of_run (f := Dev.tapInstruction i pins scan) rfl
    ((Dev.tapInstruction_named hv hi).trans ((if_pos hd).trans ((if_neg (ne_true_of_eq_false hp)).trans hb)))
    (Dev.emit_keep (Dev.putTap_keep (.refl _ _) (by decide) _) (by decide) _) ⟨rfl, rfl⟩

theorem completes_tapPassive (hv : Rail.vaux ∉ s.dev.power.railsOut) {i : TapInstr} (hi : i = .idcode ∨ i = .bypass) :
    Completes (.tapInstruction { instr := i, pins, scan }) s [.tap] fun d => d.tap = { s.dev.tap with instr := i, pins := false } := by
  rcases hi with rfl | rfl
  · exact completes_tapLoads ((Dev.tapInstruction_named hv fun _ => TapInstr.noConfusion).trans (if_neg (by decide)))
  · exact completes_tapLoads ((Dev.tapInstruction_named hv fun _ => TapInstr.noConfusion).trans (if_neg (by decide)))

theorem completes_tapBarred (hv : Rail.vaux ∉ s.dev.power.railsOut) {i : TapInstr} (hd : tapDrives i = true) (hp : s.dev.power.porst = true) :
    Completes (.tapInstruction { instr := i, pins, scan }) s [.tap] fun d => d.tap = { s.dev.tap with instr := .bypass, pins := false } := by
  have hnamed : ∀ c, i ≠ .other c := fun c h => by rw [h] at hd; cases hd
  exact completes_tapLoads ((Dev.tapInstruction_named hv hnamed).trans ((if_pos hd).trans (if_pos hp)))

/-- The boundary register after a scan. -/
def Tap.scanned (i : TapInstr) (pins scan : List (BoundaryPin × Bool)) : Tap :=
  { instr := i, pins := true, captured := pins.filter (hasCell ·.1), update := scan.filter (hasCell ·.1) }

section
variable (hv : Rail.vaux ∉ s.dev.power.railsOut) (hp : s.dev.power.porst = false)
include hv hp

theorem completes_tapExtest : Completes (.tapInstruction { instr := .extest, pins, scan }) s [.out, .tap] fun d =>
    d.tap = Tap.scanned .extest pins scan ∧ Sys2Proof.Sent s.dev d (.boundary .extest ((scan.filter (hasCell ·.1)).filter fun y => !isAc y.1)) :=
  completes_tapDrives hv hp (fun _ => TapInstr.noConfusion) rfl rfl

theorem completes_tapAc {i : TapInstr} (hi : i = .extestPulse ∨ i = .extestTrain) :
    Completes (.tapInstruction { instr := i, pins, scan }) s [.out, .tap] fun d =>
      d.tap = Tap.scanned i pins scan ∧ Sys2Proof.Sent s.dev d (.boundary i (scan.filter (hasCell ·.1))) := by
  rcases hi with rfl | rfl
  · exact completes_tapDrives hv hp (fun _ => TapInstr.noConfusion) rfl rfl
  · exact completes_tapDrives hv hp (fun _ => TapInstr.noConfusion) rfl rfl

theorem completes_tapClamp : Completes (.tapInstruction { instr := .clamp, pins, scan }) s [.out, .tap] fun d =>
    d.tap = { s.dev.tap with instr := .clamp, pins := true } ∧ Sys2Proof.Sent s.dev d (.boundary .clamp s.dev.tap.update) :=
  completes_tapDrives hv hp (fun _ => TapInstr.noConfusion) rfl rfl

theorem completes_tapHighz : Completes (.tapInstruction { instr := .highz, pins, scan }) s [.out, .tap] fun d =>
    d.tap = { s.dev.tap with instr := .highz, pins := true } ∧ Sys2Proof.Sent s.dev d (.boundary .highz []) :=
  completes_tapDrives hv hp (fun _ => TapInstr.noConfusion) rfl rfl

end

theorem completes_tapOpen (hv : Rail.vaux ∉ s.dev.power.railsOut) {code : BitVec 8} (hcode : tapOf code = .other code)
    (hopen : s.dev.debugLocked none = false) :
    Completes (.tapInstruction { instr := .other code, pins, scan }) s [.tap] fun d => d.tap = { s.dev.tap with instr := .other code, pins := false } :=
  completes_tapLoads ((Dev.tapInstruction_unlisted hv hcode).trans (if_neg (ne_true_of_eq_false hopen)))

theorem exec_tapListed {code : BitVec 8} (hcode : tapOf code ≠ .other code) :
    exec (.tapInstruction { instr := .other code, pins, scan }) s = exec (.tapInstruction { instr := tapOf code, pins, scan }) s :=
  congrArg (fun e : Dev => (Host.Outcome.next { s with dev := e } : Host.Outcome State Fault Refusal)) (Dev.tapInstruction_listed (d := s.dev) hcode)

theorem completes_tapSample (hv : Rail.vaux ∉ s.dev.power.railsOut) :
    Completes (.tapInstruction { instr := .sample, pins, scan }) s [.tap] fun d =>
      d.tap = { instr := .sample, pins := false, captured := pins.filter (hasCell ·.1), update := scan.filter (hasCell ·.1) } :=
  completes_of_run (f := Dev.tapInstruction .sample pins scan) rfl ((Dev.tapInstruction_named hv (i := .sample) (fun _ => TapInstr.noConfusion)).trans (if_neg (by decide)))
    (Dev.putTap_keep (Dev.putTap_keep (.refl _ _) (by decide) _) (by decide) _) rfl

theorem completes_tapLocked {code : BitVec 8} (hv : Rail.vaux ∉ s.dev.power.railsOut) (hcode : tapOf code = .other code)
    (hlocked : s.dev.debugLocked none = true) (hlife : s.dev.strong.life = .deployed ∨ s.dev.strong.life = .returned) (hrefused : s.dev.strong.dbg.refused ≠ 2) :
    Completes (.tapInstruction { instr := .other code, pins, scan }) s [.events, .strong, .tap] fun d =>
      d.tap = { s.dev.tap with instr := .bypass, pins := false } ∧ Raised s.dev d 642 ∧
      d.strong = { s.dev.strong with dbg := { s.dev.strong.dbg with refused := s.dev.strong.dbg.refused + 1 } } :=
  completes_of_run (f := Dev.tapInstruction (.other code) pins scan) rfl
    ((Dev.tapInstruction_unlisted hv hcode).trans ((if_pos hlocked).trans (Dev.lockedDebugAccess_counted (d := s.dev.loadTap .bypass false) hlife hrefused)))
    (Dev.raise_keep (Dev.modStrong_keep (Dev.putTap_keep (.refl _ _) (by decide) _) (by decide) _ (.same rfl rfl rfl rfl rfl rfl rfl rfl rfl)) (by decide) _ _)
    ⟨rfl, Dev.raise_raised rfl _, rfl⟩

end

theorem warmrstN_high (d : Dev) : Dev.warmrstN true d = d.putPower { d.power with warmPin := true } := by
  unfold Dev.warmrstN
  exact if_pos (.inl rfl)

theorem completes_warmPinHigh (s : State) : Completes (.warmrstN true) s [.power] fun d => d.power = { s.dev.power with warmPin := true } :=
  completes_of_run (f := Dev.warmrstN true) rfl (warmrstN_high s.dev) (Dev.putPower_keep (.refl _ _) (by decide) _) rfl

theorem Dev.warmrstN_asks {d : Dev} (hpin : d.power.warmPin = true) (hc : d.power.cold = false) (hs : d.power.stage ≠ 7) :
    Dev.warmrstN false d = (d.putPower { d.power with warmPin := false }).askWarm :=
  if_neg fun h => h.elim nofun fun h => h.elim (fun hp => by rw [hpin] at hp; cases hp) fun h => h.elim (fun hcold => by
    rw [show (d.putPower { d.power with warmPin := false }).power.cold = d.power.cold from rfl, hc] at hcold
    cases hcold) hs

/-- Settles O54: cold resets leave what `ColdAfter` lists; each stage of start-up, a warm reset's halt and the hub's return have a lemma of their own, from
the parts that their steps change. -/
theorem resetsAndStartUp : Obligations.ResetsAndStartUp := by
  unfold Obligations.ResetsAndStartUp
  intro s
  dsimp only
  refine ⟨completes_porstN s, completes_porstNRelease, completes_powerGood, fun r hin => ⟨completes_railTampers hin, completes_railHeld hin,
    completes_railResets hin, completes_railNoted hin⟩, fun r => completes_railReturns, fun hc => ⟨completes_romDone hc, completes_romHeld hc,
    completes_firmwareFrom hc, completes_coresStart hc, completes_metadataDone hc, completes_recordDone hc, completes_readyDone hc⟩,
    fun q w hc hs hb hq => completes_bootgo q w hc hs hb hq, fun q w => completes_bootgoIgnored q w, ?warm, completes_hubReturn, ?tap⟩
  case warm =>
    exact ⟨completes_warmPinHigh s, fun hpin hc hs => completes_warmBegins (f := Dev.warmrstN false) rfl (Dev.warmrstN_asks hpin hc hs),
      fun q hq => completes_warmBegins (f := fun d => if d.isPf q then d.askWarm else d) rfl (if_pos hq)⟩
  case tap =>
    intro pins scan hv
    exact ⟨fun i => completes_tapPassive hv, completes_tapSample hv, fun i => completes_tapBarred hv, fun hp => ⟨completes_tapExtest hv hp,
      fun i => completes_tapAc hv hp, completes_tapClamp hv hp, completes_tapHighz hv hp⟩, fun code => exec_tapListed,
      fun code hcode => ⟨completes_tapOpen hv hcode, completes_tapLocked hv hcode⟩⟩

end Sys2Proof.Machine
end

section
/-! Operations that act at a boundary: how each is refused or waits as it starts (12_host_interface.md R347, R356; 11_images_and_reconfiguration.md R322). -/

namespace Sys2Proof.Machine
open Sys2Proof

-- an operation that acts at a boundary completes as it starts, or waits (R21, R356)

section
variable {s : State} {x : DescRef} {e : RetEntry} {op : Nat} {c : Instr} {f : Dev → Dev} {b d : Dev}

/-- A device that an operation has touched without its windows, its partner's answers or device time, nor functions, ring reservations or acquisition. -/
structure Dev.Undecided (d b : Dev) : Prop where
  rings : b.rings = d.rings
  await : b.link.await = d.link.await
  time : b.time = d.time
  funcs : b.funcs = d.funcs
  net : b.net = d.net
  acq : b.acq = d.acq

theorem Dev.Undecided.refl (d : Dev) : d.Undecided d := ⟨rfl, rfl, rfl, rfl, rfl, rfl⟩

/-- The operation completes with a record, and no function, reservation or acquisition unit changes. -/
theorem completes_ended (hrun : CanRun s.dev x op e) (hb : (s.dev.start x).Undecided b) (hc : exec c s = run true f s) {status detail i j : Nat}
    (hf : f s.dev = b.finish x status detail i j) : Completes c s c.parts fun d =>
      CompletedWith d x { seq := e.seq, status, detail, opcode := descOpcode e.desc, info0 := i, info1 := j, beat := s.dev.time.n } ∧
      d.funcs = s.dev.funcs ∧ d.net = s.dev.net ∧ d.acq = s.dev.acq := by
  have hopen := openDesc_same (openDesc_ran hrun) hb.rings hb.await
  have hkeep := Dev.finish_keep (.refl [.out, .events, .link, .rings, .sched] b) (by decide) (by decide) (by decide) (by decide) (by decide) x status detail i j none
  have hdone := Dev.finish_completed hopen.windows hopen.entry hopen.unfinished hopen.free status detail i j none
  rw [hb.time] at hdone
  exact completes_framed hc hf ⟨hdone, (hkeep.funcs.resolve_left (by decide)).trans hb.funcs, (hkeep.net.resolve_left (by decide)).trans hb.net,
    (hkeep.acq.resolve_left (by decide)).trans hb.acq⟩

/-- The operation has started and waits for its boundary. -/
theorem completes_waits (hc : exec c s = run true f s) (hf : f s.dev = s.dev.start x) :
    Completes c s [.rings] fun d => d.rings = (s.dev.start x).rings :=
  completes_of_run hc hf (Dev.start_keep (.refl _ _) (by decide) _) rfl

end

-- FUNC_RETIRE, PARAM_AT and ROUTE_AT (R347)

section
variable {s : State} {x : DescRef} {e : RetEntry}

theorem completes_funcRetire (hrun : CanRun s.dev x 0x11 e) :
    ((s.dev.start x).waitsFor e = false → s.dev.namedFunc e.desc = none → Completes (.funcRetire x) s (Instr.parts (.funcRetire x)) fun d =>
      CompletedWith d x { seq := e.seq, status := 5, detail := 4, opcode := descOpcode e.desc, info0 := 0, info1 := 0, beat := s.dev.time.n } ∧
      d.funcs = s.dev.funcs ∧ d.net = s.dev.net ∧ d.acq = s.dev.acq) ∧
    (((s.dev.start x).waitsFor e = true ∨ (s.dev.namedFunc e.desc).isSome = true) →
      Completes (.funcRetire x) s [.rings] fun d => d.rings = (s.dev.start x).rings) := by
  have hruns := Dev.runOp_runs hrun (args := false) rfl fun d e => if !d.waitsFor e && (d.namedFunc e.desc).isNone then d.finish x 5 4 else d
  refine ⟨fun hfree hnone => ?_, fun hwaits => ?_⟩
  · exact completes_ended hrun (.refl _) rfl (hruns.trans (if_pos (by rw [hfree, show (s.dev.start x).namedFunc e.desc = none from hnone]; rfl)))
  · refine completes_waits rfl (hruns.trans (if_neg fun h => ?_))
    obtain ⟨hfree, hnone⟩ := (Bool.and_eq_true _ _).mp h
    exact hwaits.elim (fun hw => by rw [hw] at hfree; cases hfree) fun hs => by
      rw [show (s.dev.start x).namedFunc e.desc = s.dev.namedFunc e.desc from rfl, Option.isNone_iff_eq_none] at hnone
      rw [hnone] at hs
      cases hs

theorem completes_paramAt {args : Bytes} (hrun : CanRun s.dev x 0x13 e) (ha : e.args = some args) :
    (∀ f, s.dev.namedFunc e.desc = some f → paramOk f e.desc = true → Completes (.paramAt x) s [.rings] fun d => d.rings = (s.dev.start x).rings) ∧
    ((s.dev.start x).waitsFor e = true → Completes (.paramAt x) s [.rings] fun d => d.rings = (s.dev.start x).rings) ∧
    ((s.dev.start x).waitsFor e = false → (∀ f, s.dev.namedFunc e.desc = some f → paramOk f e.desc = false) →
      Completes (.paramAt x) s (Instr.parts (.paramAt x)) fun d =>
        CompletedWith d x { seq := e.seq, status := 5, detail := 4, opcode := descOpcode e.desc, info0 := 0, info1 := 0, beat := s.dev.time.n } ∧
        d.funcs = s.dev.funcs ∧ d.net = s.dev.net ∧ d.acq = s.dev.acq) := by
  have hsome : Dev.paramAt x s.dev = (s.dev.namedFunc e.desc).elim (if (s.dev.start x).waitsFor e = true then s.dev.start x else (s.dev.start x).finish x 5 4)
      fun f => if ((s.dev.start x).waitsFor e || paramOk f e.desc) = true then s.dev.start x else (s.dev.start x).finish x 5 4 := by
    refine (Dev.runOp_runs hrun (by rw [ha]; rfl) _).trans ?_
    rw [show (s.dev.start x).namedFunc e.desc = s.dev.namedFunc e.desc from rfl]
    cases s.dev.namedFunc e.desc <;> rfl
  refine ⟨fun f hf hok => completes_waits (f := Dev.paramAt x) rfl ?_, fun hw => completes_waits (f := Dev.paramAt x) rfl ?_,
    fun hw hbad => completes_ended (f := Dev.paramAt x) hrun (.refl _) rfl ?_⟩ <;> rw [hsome]
  · rw [hf]
    exact if_pos (by rw [hok, Bool.or_true])
  · cases s.dev.namedFunc e.desc with
    | none => exact if_pos hw
    | some f => exact if_pos (by rw [hw, Bool.true_or])
  · cases hf : s.dev.namedFunc e.desc with
    | none => exact if_neg (ne_true_of_eq_false hw)
    | some f => exact if_neg (by rw [hw, hbad f hf]; decide)

theorem completes_routeAt (hrun : CanRun s.dev x 0x22 e) :
    (((s.dev.start x).waitsFor e = true ∨ (s.dev.start x).routeOk e.desc = true) → Completes (.routeAt x) s [.rings] fun d => d.rings = (s.dev.start x).rings) ∧
    ((s.dev.start x).waitsFor e = false → (s.dev.start x).routeOk e.desc = false → Completes (.routeAt x) s (Instr.parts (.routeAt x)) fun d =>
      CompletedWith d x { seq := e.seq, status := 0x11, detail := 0x0A, opcode := descOpcode e.desc, info0 := 0, info1 := 0, beat := s.dev.time.n } ∧
      d.funcs = s.dev.funcs ∧ d.net = s.dev.net ∧ d.acq = s.dev.acq) := by
  have hruns := Dev.runOp_runs hrun (args := false) rfl fun d e => if d.waitsFor e || d.routeOk e.desc then d else d.finish x 0x11 0x0A
  refine ⟨fun h => completes_waits (f := Dev.routeAt x) rfl (hruns.trans (if_pos ((Bool.or_eq_true _ _).mpr h))), fun hw hbad =>
    completes_ended (f := Dev.routeAt x) hrun (.refl _) rfl (hruns.trans (if_neg (by rw [hw, hbad]; decide)))⟩

end

-- IMAGE_APPLY, MIRROR_FORM and MIRROR_DISSOLVE (R322, R374, R276)

section
variable {s : State} {x : DescRef} {e : RetEntry}

theorem Dev.setReady_started (hrun : CanRun s.dev x 0x31 e) {d : Dev} (hd : d.rings = ((s.dev.start x).setReady x).rings) :
    d.entry? x = some { e with started := true, ready := some s.dev.now } := by
  have hopen := openDesc_ran hrun
  unfold Dev.entry? Dev.ring
  rw [hd]
  exact (Dev.setReady_entry hopen.windows hopen.entry).trans (by rw [if_pos rfl]; rfl)

theorem completes_imageApply (hrun : CanRun s.dev x 0x31 e) :
    let k := dfld e.desc 0x18 1
    let st := s.dev.stg k
    let h := st.head.take 512
    let ready (d : Dev) : Prop := d.entry? x = some { e with started := true, ready := some s.dev.now }
    (imgSecver h < s.dev.arbCount (imgKeyid h) → Completes (.imageApply x) s (Instr.parts (.imageApply x)) fun d =>
      CompletedWith d x { seq := e.seq, status := 0x24, detail := 1, opcode := descOpcode e.desc, info0 := 0xFFFFFFFF, info1 := k, beat := s.dev.time.n } ∧
      d.funcs = s.dev.funcs ∧ d.net = s.dev.net ∧ d.acq = s.dev.acq) ∧
    (s.dev.arbCount (imgKeyid h) ≤ imgSecver h →
      (st.kind ≠ 3 → Completes (.imageApply x) s [.rings] ready) ∧
      (st.kind = 3 → Completes (.imageApply x) s [.rings, .cores] fun d =>
        let ho : Handover := { desc := x, slot := BitVec.ofNat 3 k, secver := BitVec.ofNat 8 (imgSecver h),
                               version := Config.firmwareVersion st.body, header := sha3 h }
        ready d ∧ d.cores = { s.dev.cores with sb := .loading, handover := false, pendingFw := some ho, sbSecver := ho.secver,
                                               sbVersion := ho.version, sbHash := ho.header })) := by
  dsimp only
  generalize hk : dfld e.desc 0x18 1 = k
  have hruns : Dev.imageApply x s.dev = if s.dev.rolledBack ((s.dev.stg k).head.take 512) = true then (s.dev.start x).finish x 0x24 1 headFrame k
      else if (!((s.dev.start x).setReady x).appliesFw e.desc) = true then (s.dev.start x).setReady x
      else ((s.dev.start x).setReady x).modCores fun c => { c with
        sb := .loading, handover := false,
        pendingFw := some { desc := x, slot := BitVec.ofNat 3 k, secver := BitVec.ofNat 8 (imgSecver ((s.dev.stg k).head.take 512)),
                            version := Config.firmwareVersion (s.dev.stg k).body, header := sha3 ((s.dev.stg k).head.take 512) },
        sbSecver := BitVec.ofNat 8 (imgSecver ((s.dev.stg k).head.take 512)), sbVersion := Config.firmwareVersion (s.dev.stg k).body,
        sbHash := sha3 ((s.dev.stg k).head.take 512) } := hk ▸ Dev.runOp_runs hrun rfl _
  refine ⟨fun hlow => ?_, fun hhigh => ?_⟩
  · exact completes_ended (f := Dev.imageApply x) hrun (.refl _) rfl (hruns.trans (if_pos (decide_eq_true hlow)))
  · replace hruns := hruns.trans (if_neg fun h => absurd (of_decide_eq_true h) (Nat.not_lt.2 hhigh))
    have hkept {ps : List Part} (hr : .rings ∈ ps) : Keep ps s.dev ((s.dev.start x).setReady x) :=
      Dev.setReady_keep (Dev.start_keep (.refl _ _) hr _) hr _
    have happlies : ((s.dev.start x).setReady x).appliesFw e.desc = ((s.dev.stg k).kind == 3) := hk ▸ rfl
    rw [happlies] at hruns
    refine ⟨fun hkind => ?_, fun hkind => ?_⟩
    · exact completes_of_run (f := Dev.imageApply x) rfl (hruns.trans (if_pos (by simpa using hkind))) (hkept (by decide)) (Dev.setReady_started hrun rfl)
    · exact completes_of_run (f := Dev.imageApply x) rfl (hruns.trans (if_neg (by rw [hkind]; decide))) (Dev.modCores_keep (hkept (by decide)) (by decide) _)
        ⟨Dev.setReady_started hrun rfl, rfl⟩

theorem completes_mirrorForm (hrun : CanRun s.dev x 0x70 e) (partner : List (FuncId × BitVec 256)) (hk : dfld e.desc 0x18 1 = 0) :
    Completes (.mirrorForm x partner) s [.link, .rings] fun d =>
      d.entry? x = some { e with started := true } ∧ d.link = { s.dev.link with partnerList := partner } := by
  have hform : Dev.mirrorForm x partner s.dev = (s.dev.start x).modLink fun l => { l with partnerList := partner } := by
    unfold Dev.mirrorForm
    rw [(openDesc_of_canRun hrun).entry]
    exact (if_neg (not_not_intro hk)).trans (Dev.runOp_runs hrun rfl _)
  exact completes_of_run (f := Dev.mirrorForm x partner) rfl hform (Dev.modLink_keep (Dev.start_keep (.refl _ _) (by decide) _) (by decide) _)
    ⟨(openDesc_ran hrun).entry, rfl⟩

theorem completes_mirrorDissolve (hrun : CanRun s.dev x 0x70 e) (hk : dfld e.desc 0x18 1 = 1) :
    Completes (.mirrorDissolve x) s [.rings] fun d => d.rings = (s.dev.start x).rings := by
  have hdissolve : Dev.mirrorDissolve x s.dev = s.dev.start x := by
    unfold Dev.mirrorDissolve
    rw [(openDesc_of_canRun hrun).entry]
    exact (if_neg (not_not_intro hk)).trans (Dev.runOp_runs hrun rfl _)
  exact completes_waits (f := Dev.mirrorDissolve x) rfl hdissolve

end

end Sys2Proof.Machine
end

section
/-! ACQ_ARM: a refusal, a wait for its boundary, or the units that its records name armed at once (13_control_cores_and_observation.md R400). -/

namespace Sys2Proof.Machine
open Sys2Proof

-- ACQ_ARM arms each unit that its records name (R400)

section
variable {s : State} {x : DescRef} {e : RetEntry}

/-- Each unit has at most one record, since the records follow the units of the mask. -/
theorem RetEntry.units_nodup (e : RetEntry) : (e.units.map (·.1)).Nodup := by
  unfold RetEntry.units armUnits
  rw [List.map_map, show ((·.1) ∘ fun y : Nat × Bytes => (y.1, parseArm y.2)) = Prod.fst from rfl, List.zip_eq_zip_take_min,
    List.map_fst_zip (by simp)]
  exact (List.nodup_range.filter _).sublist (List.take_sublist ..)

theorem Dev.each_setUnit_units (g : ArmRec → AcqUnit → AcqUnit) {us : List (Nat × ArmRec)} (hn : (us.map (·.1)).Nodup) (d : Dev) :
    (∀ u a, (u, a) ∈ us → (d.each us fun d y => d.setUnit y.1 (g y.2 (d.unit y.1))).unit u = g a (d.unit u)) ∧
    ∀ u, (∀ a, (u, a) ∉ us) → (d.each us fun d y => d.setUnit y.1 (g y.2 (d.unit y.1))).unit u = d.unit u := by
  induction us generalizing d with
  | nil => exact ⟨fun _ _ h => (nomatch h), fun _ _ => rfl⟩
  | cons y us ih =>
    obtain ⟨hy, hn⟩ := List.nodup_cons.mp hn
    obtain ⟨hnamed, hothers⟩ := ih hn (d.setUnit y.1 (g y.2 (d.unit y.1)))
    refine ⟨fun u a h => ?_, fun u h => ?_⟩
    · cases List.mem_cons.mp h with
      | inl heq =>
        subst heq
        exact (hothers u fun b hb => hy (List.mem_map.mpr ⟨_, hb, rfl⟩)).trans (d.unit_setUnit_same ..)
      | inr hin =>
        have hne : u ≠ y.1 := fun heq => hy (List.mem_map.mpr ⟨_, hin, heq⟩)
        exact (hnamed u a hin).trans (congrArg (g a) (d.unit_setUnit_other hne _))
    · have hne : u ≠ y.1 := fun heq => h y.2 (List.mem_cons.mpr (.inl (by rw [heq])))
      exact (hothers u fun a ha => h a (List.mem_cons_of_mem _ ha)).trans (d.unit_setUnit_other hne _)

theorem completes_acqArm {args : Bytes} (hrun : CanRun s.dev x 0x50 e) (ha : e.args = some args) :
    let us := e.units
    let m := ((us.find? (·.2.master)).map (·.1)).getD 0
    (∀ st k, s.dev.armRefusal us = some (st, k) → Completes (.acqArm x) s (Instr.parts (.acqArm x)) fun d =>
      CompletedWith d x { seq := e.seq, status := st, detail := k, opcode := descOpcode e.desc, info0 := 0, info1 := 0, beat := s.dev.time.n } ∧
      d.funcs = s.dev.funcs ∧ d.net = s.dev.net ∧ d.acq = s.dev.acq) ∧
    (s.dev.armRefusal us = none → descTimed e.desc = true → Completes (.acqArm x) s [.rings] fun d => d.rings = (s.dev.start x).rings) ∧
    (s.dev.armRefusal us = none → descTimed e.desc = false → e.apply = none → Completes (.acqArm x) s (Instr.parts (.acqArm x)) fun d =>
      CompletedWith d x { seq := e.seq, opcode := descOpcode e.desc, beat := s.dev.time.n } ∧
      (∀ u a, (u, a) ∈ us →
        d.unit u = { phase := .armed, master := a.master, gmaster := BitVec.ofNat 4 m, arm := a, drop := (s.dev.unit u).drop }) ∧
      (∀ u, (∀ a, (u, a) ∉ us) → d.unit u = s.dev.unit u)) := by
  intro us m
  have hrefusal : (s.dev.start x).armRefusal us = s.dev.armRefusal us := rfl
  have hruns := Dev.runOp_runs hrun (args := true) (by rw [ha]; rfl) fun d e => match d.armRefusal e.units with
    | some (st, k) => d.finish x st k
    | none =>
      let waits : Bool := descTimed e.desc || (match e.apply with | some b => decide (d.time.n < b) | none => false)
      if waits then d else d.armEffect x e 0
  refine ⟨fun st k hr => ?_, fun hr ht => ?_, fun hr ht happly => ?_⟩
  · exact completes_ended (f := Dev.acqArm x) hrun (.refl _) rfl (hruns.trans (by rw [show e.units = us from rfl, hrefusal, hr]))
  · exact completes_waits (f := Dev.acqArm x) rfl (hruns.trans (by rw [show e.units = us from rfl, hrefusal, hr]; dsimp only; rw [ht]; rfl))
  · have heffect : Dev.acqArm x s.dev = (((s.dev.start x).commitPoint x).each us fun d y =>
        d.setUnit y.1 { phase := .armed, master := y.2.master, gmaster := BitVec.ofNat 4 m, arm := y.2, drop := (d.unit y.1).drop }).finish x 0 0 := by
      refine hruns.trans ?_
      unfold Dev.armEffect
      rw [show e.units = us from rfl, hrefusal, hr]
      dsimp only
      rw [ht, happly]
      rfl
    generalize hd : (((s.dev.start x).commitPoint x).each us fun d y =>
        d.setUnit y.1 { phase := .armed, master := y.2.master, gmaster := BitVec.ofNat 4 m, arm := y.2, drop := (d.unit y.1).drop }) = d at heffect
    have hkeep : Keep [.acq] ((s.dev.start x).commitPoint x) d := by
      rw [← hd]
      exact Dev.each_keep (.refl _ _) fun _ _ h => Dev.setUnit_keep h (by decide) _ _
    obtain ⟨hnamed, hothers⟩ := ((s.dev.start x).commitPoint x).each_setUnit_units
      (fun a y => { phase := .armed, master := a.master, gmaster := BitVec.ofNat 4 m, arm := a, drop := y.drop }) e.units_nodup
    have hopen := openDesc_ran hrun
    obtain ⟨⟨y, hy, hphase, hseq, hdesc⟩, hwindows⟩ := Dev.commitPoint_entry hopen.windows hopen.entry hopen.unfinished
    have hentry : d.entry? x = some y := by
      unfold Dev.entry? Dev.ring at hy ⊢
      rw [hkeep.rings.resolve_left (by decide)]
      exact hy
    have hdone := Dev.finish_completed ((hkeep.rings.resolve_left (by decide) : d.rings = _) ▸ hwindows) hentry hphase
      (by rw [hkeep.link.resolve_left (by decide)]; exact hopen.free) 0 0 0 0 none
    rw [hseq, hdesc, show d.time = _ from hkeep.time.resolve_left (by decide)] at hdone
    have hacq : (d.finish x 0 0).acq = d.acq := (Dev.finish_keep (.refl [.out, .events, .link, .rings, .sched] d) (by decide) (by decide) (by decide)
      (by decide) (by decide) x 0 0 0 0 none).acq.resolve_left (by decide)
    have hunit (u : Nat) : (d.finish x 0 0).unit u = d.unit u := congrArg (Tbl.get ({} : AcqUnit) · u) hacq
    refine completes_framed (f := Dev.acqArm x) rfl heffect ⟨hdone, fun u a h => ?_, fun u h => ?_⟩
    · rw [hunit, ← hd]
      exact hnamed u a h
    · rw [hunit, ← hd]
      exact hothers u h

end

end Sys2Proof.Machine
end

section
/-! FUNC_MIGRATE: a refusal, or the rooms of the migration reserved and under threshold hold (11_images_and_reconfiguration.md R319, R323). -/

namespace Sys2Proof.Machine
open Sys2Proof

-- a reserved room goes under threshold hold while it is written (R319, R323)

section

/-- The room under threshold hold, powered at least for it. -/
def Room.held (rm : Room) : Room := { rm with thresh := true, power := if rm.power = 0 then 1 else rm.power }

theorem Room.held_power (rm : Room) : rm.held.power ≠ 0 := by
  unfold Room.held
  dsimp only
  split
  · decide
  · assumption

theorem Room.held_held (rm : Room) : rm.held.held = rm.held :=
  congrArg (fun p => { rm.held with power := p }) (if_neg rm.held_power)

/-- The rooms of these places go under threshold hold. -/
def Dev.holdPlaces (places : List Place) (d : Dev) : Dev := d.each places fun d p => d.modRoom p.room Room.held

theorem Dev.holdPlaces_rooms (places : List Place) (d : Dev) (r : RoomId) :
    (d.holdPlaces places).room r = if (places.any fun p => p.room == r) = true then (d.room r).held else d.room r := by
  induction places generalizing d with
  | nil => rfl
  | cons p places ih =>
    refine (ih (d.modRoom p.room Room.held)).trans ?_
    rw [List.any_cons]
    by_cases hr : p.room = r
    · subst hr
      rw [Dev.room_modRoom_same, beq_self_eq_true, Bool.true_or, if_pos rfl]
      split
      · exact Room.held_held _
      · rfl
    · rw [d.modRoom_otherRooms p.room Room.held r (Ne.symm hr), beq_eq_false_iff_ne.mpr hr, Bool.false_or]

theorem Dev.holdPlaces_keep {ps : List Part} {e d : Dev} (h : Keep ps e d) (hrooms : .rooms ∈ ps) (places : List Place) : Keep ps e (d.holdPlaces places) :=
  Dev.each_keep h fun _ _ h => Dev.modRoom_keep h hrooms _ _

@[simp] theorem Dev.holdPlaces_funcs (places : List Place) (d : Dev) : (d.holdPlaces places).funcs = d.funcs :=
  (Dev.holdPlaces_keep (.refl [.rooms] d) (by decide) places).funcs.resolve_left (by decide)

@[simp] theorem Dev.holdPlaces_net (places : List Place) (d : Dev) : (d.holdPlaces places).net = d.net :=
  (Dev.holdPlaces_keep (.refl [.rooms] d) (by decide) places).net.resolve_left (by decide)

@[simp] theorem Dev.holdPlaces_link (places : List Place) (d : Dev) : (d.holdPlaces places).link = d.link :=
  (Dev.holdPlaces_keep (.refl [.rooms] d) (by decide) places).link.resolve_left (by decide)

@[simp] theorem Dev.holdPlaces_loader (places : List Place) (d : Dev) : (d.holdPlaces places).loader = d.loader :=
  (Dev.holdPlaces_keep (.refl [.rooms] d) (by decide) places).loader.resolve_left (by decide)

@[simp] theorem Dev.holdPlaces_rings (places : List Place) (d : Dev) : (d.holdPlaces places).rings = d.rings :=
  (Dev.holdPlaces_keep (.refl [.rooms] d) (by decide) places).rings.resolve_left (by decide)

end

-- FUNC_MIGRATE reserves its rooms (R323)

section
variable {s : State} {x : DescRef} {e : RetEntry} {f : Func} {args : Bytes}

/-- The migration that FUNC_MIGRATE records of a function. -/
def migrationOf (x : DescRef) (w : BitVec 512) (f : Func) (places : List Place) : Migration :=
  { desc := x, set := dfld w 0x1A 1 == 1, rep := if dfld w 0x1B 1 = 0xFF then none else some (dfld w 0x1B 1), k := dfld w 0x1C 1, gen := f.gen + 1, places,
    sources := f.places.filter fun p => decide ((p.set, p.rep) ∈ migParts f (dfld w 0x1A 1 == 1) (dfld w 0x1B 1)) }

/-- The device with the rooms of a migration reserved and under hold. -/
def Dev.reserved (d : Dev) (f : Func) (m : Migration) (rs : List Reservation) : Dev :=
  (((d.modFunc f.id fun f => { f with migration := some m }).modNet fun n => { n with reservations := n.reservations ++ rs }).modLoader
    fun l => { l with switched := l.switched.erase f.id }).holdPlaces m.places

theorem Dev.reserved_keep {ps : List Part} {b d : Dev} (h : Keep ps b d) (hrooms : .rooms ∈ ps) (hfuncs : .funcs ∈ ps) (hnet : .net ∈ ps)
    (hloader : .loader ∈ ps) (f : Func) (m : Migration) (rs : List Reservation) : Keep ps b (d.reserved f m rs) :=
  Dev.holdPlaces_keep (Dev.modLoader_keep (Dev.modNet_keep (Dev.modFunc_keep h hfuncs _ _) hnet _) hloader _) hrooms _

theorem completes_funcMigrate (hrun : CanRun s.dev x 0x12 e) (ha : e.args = some args) (hnamed : s.dev.namedFunc e.desc = some f)
    (hf : s.dev.func? f.id = some f) :
    let w := e.desc
    let started := s.dev.start x
    let ends (status detail info0 info1 : Nat) : Prop := Completes (.funcMigrate x) s (Instr.parts (.funcMigrate x)) fun d =>
      CompletedWith d x { seq := e.seq, status, detail, opcode := descOpcode w, info0, info1, beat := s.dev.time.n } ∧
      d.funcs = s.dev.funcs ∧ d.net = s.dev.net ∧ d.acq = s.dev.acq
    let refused (n : Nak) : Prop := ends n.status n.detail (n.vroom + n.index * 65536) (n.ikind + n.bp * 256)
    let set := dfld w 0x1A 1 == 1
    let rep := dfld w 0x1B 1
    let parts := migParts f set rep
    let sources := f.places.filter fun p => decide ((p.set, p.rep) ∈ parts)
    let pool := started.poolRooms (if (w.extractLsb' 232 1) = 1 then anyPool else leNat args)
    (set = true ∧ f.obj.dual = false ∨ rep ≠ 0xFF ∧ f.r ≤ rep → ends 5 4 0 0) ∧
    (¬ (set = true ∧ f.obj.dual = false ∨ rep ≠ 0xFF ∧ f.r ≤ rep) →
      (pool.length < sources.length → refused { status := 0x11, detail := 3 }) ∧
      (∀ n, sources.length ≤ pool.length → started.bindUp f.obj parts (sourceGroups f sources) 256 pool = .error n → refused n) ∧
      (∀ b v j, sources.length ≤ pool.length → started.bindUp f.obj parts (sourceGroups f sources) 256 pool = .ok b →
        started.reserveXch f.id f.obj b.places true parts = .error (v, j) → refused (linkNak v j)) ∧
      (∀ b rs, sources.length ≤ pool.length → started.bindUp f.obj parts (sourceGroups f sources) 256 pool = .ok b →
        started.reserveXch f.id f.obj b.places true parts = .ok rs → Completes (.funcMigrate x) s [.rooms, .funcs, .net, .loader, .rings] fun d =>
          d.func? f.id = some { f with migration := some (migrationOf x w f b.places) } ∧
          d.net = { s.dev.net with reservations := s.dev.net.reservations ++ rs } ∧ d.rings = started.rings ∧
          ∀ r, d.room r = if (b.places.any fun p => p.room == r) = true then (s.dev.room r).held else s.dev.room r)) := by
  intro w started ends refused set rep parts sources pool
  have hend {st k i j : Nat} (h : Dev.funcMigrate x s.dev = started.finish x st k i j) : ends st k i j :=
    completes_ended (f := Dev.funcMigrate x) hrun (.refl _) rfl h
  have hpool : started.poolRooms (if bitOf (dfld w 0x1D 1) 0 then anyPool else leNat (e.args.getD [])) = pool := by
    rw [bitOf_dfld_zero, ha]
    simp only [decide_eq_true_eq]
    rfl
  have hnamed' : started.namedFunc w = some f := hnamed
  have hdual : (set = true ∧ (!f.obj.dual) = true ∨ rep ≠ 0xFF ∧ f.r ≤ rep) ↔ (set = true ∧ f.obj.dual = false ∨ rep ≠ 0xFF ∧ f.r ≤ rep) := by
    rw [Bool.not_eq_true']
  have hruns : Dev.funcMigrate x s.dev = if set = true ∧ f.obj.dual = false ∨ rep ≠ 0xFF ∧ f.r ≤ rep then started.finish x 5 4
      else if pool.length < sources.length then started.refuse x { status := 0x11, detail := 3 }
      else match started.bindUp f.obj parts (sourceGroups f sources) 256 pool with
        | .error n => started.refuse x n
        | .ok b => match started.reserveXch f.id f.obj b.places true parts with
          | .error (v, j) => started.refuse x (linkNak v j)
          | .ok rs => started.reserved f (migrationOf x w f b.places) rs := by
    refine (Dev.runOp_runs hrun (by rw [ha]; rfl) _).trans ?_
    dsimp only
    rw [hnamed', hpool]
    dsimp only
    refine (if_congr hdual rfl rfl).trans ?_
    rfl
  refine ⟨fun hbad => hend (hruns.trans (if_pos hbad)), fun hgood => ?_⟩
  rw [if_neg hgood] at hruns
  refine ⟨fun hfew => hend (hruns.trans (if_pos hfew)), fun n henough hbind => hend ?_, fun b v j henough hbind hres => hend ?_,
    fun b rs henough hbind hres => ?_⟩
  · rw [hruns, if_neg (Nat.not_lt.2 henough), hbind]
    rfl
  · rw [hruns, if_neg (Nat.not_lt.2 henough), hbind]
    dsimp only
    rw [hres]
    rfl
  · have hgo : Dev.funcMigrate x s.dev = started.reserved f (migrationOf x w f b.places) rs := by
      rw [hruns, if_neg (Nat.not_lt.2 henough), hbind]
      dsimp only
      rw [hres]
    refine completes_of_run (f := Dev.funcMigrate x) rfl hgo
      (Dev.reserved_keep (Dev.start_keep (.refl _ _) (by decide) _) (by decide) (by decide) (by decide) (by decide) _ _ _) ⟨?_, ?_, ?_, fun r => ?_⟩
    · unfold Dev.func? Dev.reserved
      rw [Dev.holdPlaces_funcs]
      exact Dev.func?_modFunc_same (g := fun h => { h with migration := some (migrationOf x w f b.places) }) (fun _ => rfl) (d := started) hf
    · exact Dev.holdPlaces_net ..
    · exact Dev.holdPlaces_rings ..
    · exact Dev.holdPlaces_rooms _ _ r

end

end Sys2Proof.Machine
end

section
/-! FUNC_ADMIT: queries to the devices of its OUT bindings, a refusal, or the rooms reserved (04_schedule_contract.md R129; 09_lanes_and_link.md R272); and O48. -/

namespace Sys2Proof.Machine
open Sys2Proof

-- FUNC_ADMIT asks, refuses or reserves (R129, R272)

section
variable {s : State} {d : Dev} {x : DescRef} {e : RetEntry} {a : Ask} {args : Bytes}

/-- The query that FUNC_ADMIT sends to the device of an OUT binding; it is answered at once where no route leads there (R272). -/
def Dev.queryOf (d : Dev) (x : DescRef) (a : Ask) (b : BindRec) : RemoteQuery :=
  let dev := (Tbl.get (0 : BitVec 64) a.ends.remotes b.num).extractLsb' 53 11
  { desc := x, bind := b.num, dev, answer := if dev ≠ d.link.devid ∧ d.routeTo dev = none then some false else none }

/-- The OUT bindings whose devices have not answered and are not yet asked. -/
def Dev.asked (d : Dev) (x : DescRef) (a : Ask) : List BindRec :=
  a.unanswered.filter fun b => !(d.link.queries.any fun q => q.desc == x && q.bind == b.num)

/-- The device with one more query under way. -/
def Dev.askDevice (x : DescRef) (a : Ask) (d : Dev) (b : BindRec) : Dev :=
  let t := Tbl.get 0 a.ends.remotes b.num
  (d.modLink fun l => { l with queries := l.queries ++ [d.queryOf x a b] }).sendMessage (rtDev t) .req b.num 2 t.toNat 1 b.words

theorem Dev.query_eq (d : Dev) (x : DescRef) (a : Ask) : d.query x a = d.each (d.asked x a) (Dev.askDevice x a) := by
  unfold Dev.query Dev.askDevice Dev.queryOf Dev.asked
  simp only [Bool.and_eq_true, bne_iff_ne, Option.isNone_iff_eq_none]
  rfl

theorem Dev.askDevice_link (x : DescRef) (a : Ask) (d : Dev) (b : BindRec) :
    (Dev.askDevice x a d b).link.queries = d.link.queries ++ [d.queryOf x a b] ∧ (Dev.askDevice x a d b).link.devid = d.link.devid ∧
      (Dev.askDevice x a d b).link.fwd = d.link.fwd := by
  have hrest := (Dev.sendMessage_forwards (d.modLink fun l => { l with queries := l.queries ++ [d.queryOf x a b] })
    (rtDev (Tbl.get 0 a.ends.remotes b.num)) .req b.num 2 (Tbl.get 0 a.ends.remotes b.num).toNat 1 b.words).rest
  exact ⟨(congrArg Link.queries hrest :), (congrArg Link.devid hrest :), (congrArg Link.fwd hrest :)⟩

theorem Dev.queryOf_congr {b d : Dev} (hdevid : b.link.devid = d.link.devid) (hfwd : b.link.fwd = d.link.fwd) (x : DescRef) (a : Ask) :
    b.queryOf x a = d.queryOf x a := by
  funext y
  unfold Dev.queryOf Dev.routeTo
  rw [hdevid, hfwd]

theorem Dev.each_askDevice_queries (x : DescRef) (a : Ask) (bs : List BindRec) (d : Dev) :
    (d.each bs (Dev.askDevice x a)).link.queries = d.link.queries ++ bs.map (d.queryOf x a) := by
  induction bs generalizing d with
  | nil => exact (List.append_nil _).symm
  | cons b bs ih =>
    obtain ⟨hqueries, hdevid, hfwd⟩ := Dev.askDevice_link x a d b
    refine (ih _).trans ?_
    rw [hqueries, Dev.queryOf_congr hdevid hfwd, List.append_assoc]
    rfl

theorem Dev.query_queries (d : Dev) (x : DescRef) (a : Ask) : (d.query x a).link.queries = d.link.queries ++ (d.asked x a).map (d.queryOf x a) := by
  rw [Dev.query_eq]
  exact Dev.each_askDevice_queries ..

theorem Dev.funcAdmit_asks (hx : d.startable x 0x10 = some e) (hargs : e.args = some args) (hopen : (d.askOf x e).unanswered ≠ [])
    (hres : (∃ y, d.admission (d.stg (dfld e.desc 0x18 1)).body (d.askOf x e) = .ok y) ∨
      ∃ n, d.admission (d.stg (dfld e.desc 0x18 1)).body (d.askOf x e) = .error n ∧ n.status = 0x11 ∧ n.detail = 0x0A) :
    Dev.funcAdmit x d = d.query x (d.askOf x e) := by
  have hne : (!(d.askOf x e).unanswered.isEmpty) = true := by simpa using hopen
  unfold Dev.funcAdmit
  rw [hx]
  dsimp only
  rw [if_neg (by simp [hargs]), if_pos]
  refine Bool.and_eq_true_iff.mpr ⟨hne, ?_⟩
  obtain ⟨y, hy⟩ | ⟨n, hn, hstatus, hdetail⟩ := hres
  · rw [hy]
  · rw [hn]
    dsimp only
    rw [hstatus, hdetail]
    rfl

/-- The function that an admission binds. -/
def Dev.newFunc (d : Dev) (a : Ask) (stage : Nat) (places : List Place) : Func :=
  { id := a.fid, obj := a.obj, r := a.r, owner := a.owner, gen := d.loader.gen + 1, budget := budgetOf a.obj, places, ends := a.ends,
    hash := sha3 ((d.stg stage).head.take 512) }

/-- The device with an admission's rooms reserved and under hold. -/
def Dev.admits (d : Dev) (a : Ask) (stage : Nat) (places : List Place) (rs : List Reservation) : Dev :=
  (((d.putFuncs (d.funcs.filter (fun f => f.id != a.fid) ++ [d.newFunc a stage places])).modLoader fun l => { l with gen := d.loader.gen + 1 }).modNet
    fun n => { n with reservations := n.reservations ++ rs }).holdPlaces places

theorem Dev.funcAdmit_admits (hx : d.startable x 0x10 = some e) (hargs : e.args = some args) (hclosed : (d.askOf x e).unanswered = []) {places : List Place}
    {rs : List Reservation} (hres : d.admission (d.stg (dfld e.desc 0x18 1)).body (d.askOf x e) = .ok (places, rs)) :
    Dev.funcAdmit x d = (d.evaluated x (d.askOf x e)).admits (d.askOf x e) (dfld e.desc 0x18 1) places rs := by
  unfold Dev.funcAdmit
  rw [hx]
  dsimp only
  rw [if_neg (by simp [hargs]), if_neg (by simp [hclosed]), hres]
  rfl

theorem Dev.evaluated_undecided (d : Dev) (x : DescRef) (a : Ask) : (d.start x).Undecided (d.evaluated x a) := by
  unfold Dev.evaluated
  dsimp only
  split <;> exact ⟨rfl, rfl, rfl, rfl, rfl, rfl⟩

theorem Dev.evaluated_rest (d : Dev) (x : DescRef) (a : Ask) : (d.evaluated x a).loader = d.loader ∧ (d.evaluated x a).rooms = d.rooms ∧
    (d.evaluated x a).link = { d.link with queries := d.link.queries.filter (·.desc != x) } := by
  unfold Dev.evaluated
  dsimp only
  split <;> exact ⟨rfl, rfl, rfl⟩

end

section
variable {s : State} {x : DescRef} {e : RetEntry} {args : Bytes}

theorem Dev.evaluated_keep {ps : List Part} {b d : Dev} (h : Keep ps b d) (hfree : .free ∈ ps) (hlink : .link ∈ ps) (hrings : .rings ∈ ps) (x : DescRef) (a : Ask) :
    Keep ps b (d.evaluated x a) :=
  have hstarted : Keep ps b ((d.start x).modLink fun l => { l with queries := l.queries.filter (·.desc != x) }) :=
    Dev.modLink_keep (Dev.start_keep h hrings x) hlink _
  .ite (Dev.take_keep hstarted hfree 1) hstarted

theorem Dev.admits_keep {ps : List Part} {b d : Dev} (h : Keep ps b d) (hrooms : .rooms ∈ ps) (hfuncs : .funcs ∈ ps) (hnet : .net ∈ ps)
    (hloader : .loader ∈ ps) (a : Ask) (stage : Nat) (places : List Place) (rs : List Reservation) : Keep ps b (d.admits a stage places rs) :=
  Dev.holdPlaces_keep (Dev.modNet_keep (Dev.modLoader_keep (Dev.putFuncs_keep h hfuncs _) hloader _) hnet _) hrooms _

theorem Dev.admits_room (d : Dev) (a : Ask) (stage : Nat) (places : List Place) (rs : List Reservation) (r : RoomId) :
    (d.admits a stage places rs).room r = if (places.any fun p => p.room == r) = true then (d.room r).held else d.room r :=
  Dev.holdPlaces_rooms places _ r

theorem Dev.admits_rest {b d : Dev} (hfuncs : b.funcs = d.funcs) (hnet : b.net = d.net) (hloader : b.loader = d.loader) (a : Ask) (stage : Nat)
    (places : List Place) (rs : List Reservation) :
    (b.admits a stage places rs).funcs = (d.funcs.filter fun f => f.id != a.fid) ++ [d.newFunc a stage places] ∧
    (b.admits a stage places rs).link = b.link ∧ (b.admits a stage places rs).loader = { d.loader with gen := d.loader.gen + 1 } ∧
    (b.admits a stage places rs).net = { d.net with reservations := d.net.reservations ++ rs } ∧ (b.admits a stage places rs).rings = b.rings := by
  have hnew : b.newFunc a stage places = d.newFunc a stage places := by
    unfold Dev.newFunc Dev.stg
    rw [hloader]
  unfold Dev.admits
  refine ⟨(Dev.holdPlaces_funcs ..).trans ?_, (Dev.holdPlaces_link ..).trans rfl, (Dev.holdPlaces_loader ..).trans ?_, (Dev.holdPlaces_net ..).trans ?_,
    (Dev.holdPlaces_rings ..).trans rfl⟩
  · rw [← hnew, ← hfuncs]
    rfl
  · rw [← hloader]
    rfl
  · rw [← hnet]
    rfl

/-- A descriptor that asks no more waits for no device, or is refused for another reason. -/
theorem asked_of_not_asks {bs : List BindRec} {r : Except Nak (List Place × List Reservation)} {n : Nak}
    (h : ¬ (bs ≠ [] ∧ ((∃ y, r = .ok y) ∨ ∃ n, r = .error n ∧ n.status = 0x11 ∧ n.detail = 0x0A))) (hn : r = .error n) :
    bs = [] ∨ n.status ≠ 0x11 ∨ n.detail ≠ 0x0A := by
  by_contra hc
  obtain ⟨hopen, hrest⟩ := not_or.mp hc
  obtain ⟨hstatus, hdetail⟩ := not_or.mp hrest
  exact h ⟨hopen, .inr ⟨n, hn, not_not.mp hstatus, not_not.mp hdetail⟩⟩

theorem completes_funcAdmit (hrun : CanRun s.dev x 0x10 e) (hargs : e.args = some args) :
    let w := e.desc
    let started := s.dev.start x
    let refused (n : Nak) : Prop := Completes (.funcAdmit x) s (Instr.parts (.funcAdmit x)) fun d =>
      CompletedWith d x { seq := e.seq, status := n.status, detail := n.detail, opcode := descOpcode w, info0 := n.vroom + n.index * 65536,
                          info1 := n.ikind + n.bp * 256, beat := s.dev.time.n } ∧
      d.funcs = s.dev.funcs ∧ d.net = s.dev.net ∧ d.acq = s.dev.acq
    let a := s.dev.askOf x e
    let result := s.dev.admission (s.dev.stg (dfld w 0x18 1)).body a
    let asks : Prop := a.unanswered ≠ [] ∧ ((∃ y, result = .ok y) ∨ ∃ n, result = .error n ∧ n.status = 0x11 ∧ n.detail = 0x0A)
    (asks → Completes (.funcAdmit x) s [.out, .events, .link] fun d =>
      d.link.queries = s.dev.link.queries ++ (s.dev.asked x a).map (s.dev.queryOf x a)) ∧
    (∀ n, ¬ asks → result = .error n → refused n) ∧
    (∀ places rs, ¬ asks → result = .ok (places, rs) → Completes (.funcAdmit x) s [.free, .rooms, .funcs, .net, .link, .loader, .rings] fun d =>
      d.funcs = (s.dev.funcs.filter fun f => f.id != a.fid) ++ [s.dev.newFunc a (dfld w 0x18 1) places] ∧
      d.link = { s.dev.link with queries := s.dev.link.queries.filter (·.desc != x) } ∧
      d.loader = { s.dev.loader with gen := s.dev.loader.gen + 1 } ∧ d.net = { s.dev.net with reservations := s.dev.net.reservations ++ rs } ∧
      d.rings = started.rings ∧
      ∀ r, d.room r = if (places.any fun p => p.room == r) = true then (s.dev.room r).held else s.dev.room r) := by
  intro w started refused a result asks
  refine ⟨fun ⟨hopen, hres⟩ => ?_, fun n hno hres => ?_, fun places rs hno hres => ?_⟩
  · exact completes_of_run (f := Dev.funcAdmit x) rfl (Dev.funcAdmit_asks hrun.now hargs hopen hres)
      (Dev.query_keep (.refl _ _) (by decide) (by decide) (by decide) _ _) (Dev.query_queries ..)
  · exact completes_ended (f := Dev.funcAdmit x) hrun (Dev.evaluated_undecided ..) rfl
      (Dev.funcAdmit_refused hrun.now hargs hres (asked_of_not_asks hno hres))
  · have hclosed : a.unanswered = [] := not_not.mp fun hopen => hno ⟨hopen, .inl ⟨_, hres⟩⟩
    have hevaluated := s.dev.evaluated_undecided x a
    obtain ⟨hloader, hrooms, hlink⟩ := s.dev.evaluated_rest x a
    have hgo := Dev.funcAdmit_admits hrun.now hargs hclosed hres
    have hkeep : Keep [.free, .rooms, .funcs, .net, .link, .loader, .rings] s.dev (s.dev.evaluated x a) :=
      Dev.evaluated_keep (.refl _ _) (by decide) (by decide) (by decide) _ _
    generalize s.dev.evaluated x (s.dev.askOf x e) = b at *
    obtain ⟨hfuncs', hlink', hloader', hnet', hrings'⟩ := Dev.admits_rest hevaluated.funcs hevaluated.net hloader a (dfld w 0x18 1) places rs
    refine completes_of_run (f := Dev.funcAdmit x) rfl hgo (Dev.admits_keep hkeep (by decide) (by decide) (by decide) (by decide) _ _ _ _)
      ⟨hfuncs', hlink'.trans hlink, hloader', hnet', hrings'.trans hevaluated.rings, fun r => ?_⟩
    have hroom : b.room r = s.dev.room r := congrArg (Tbl.get ({} : Room) · r.toNat) hrooms
    exact hroom ▸ b.admits_room a _ places rs r

end

/-- Settles O48: each operation runs as it starts (`Dev.runOp_runs`), and then completes with a refusal (`completes_ended`), waits (`completes_waits`), or
reserves the rooms of its function, which go under threshold hold (`Dev.holdPlaces_rooms`). -/
theorem operationsWaitForTheirBoundary : Obligations.OperationsWaitForTheirBoundary := by
  intro s x e w started ends refused waits underHold
  refine ⟨fun args hrun ha => ?_, completes_funcRetire, fun args f hrun ha hnamed hf => completes_funcMigrate hrun ha hnamed hf,
    fun args hrun ha => completes_paramAt hrun ha, completes_routeAt, completes_imageApply,
    fun hrun => ⟨completes_mirrorForm hrun, completes_mirrorDissolve hrun⟩, fun args hrun ha => completes_acqArm hrun ha⟩
  have hadmit := completes_funcAdmit hrun ha
  rw [Dev.askOf_eq ha] at hadmit
  exact hadmit

end Sys2Proof.Machine
end
